-- ==== Sys2Proof/Word.lean ====
section
/-! DEFINITION. The word and byte types, sparse maps as lists, and the plainest arithmetic on them (R10). -/

namespace Sys2Proof

/-- A 32-bit register value (R537). -/
abbrev Word := BitVec 32

/-- A byte. -/
abbrev Byte := BitVec 8

/-- A sparse map: pairs of a key and a value, keys strictly rising, no pair equal to what an unlisted key reads as. -/
abbrev Map (V : Type) := List (Nat × V)

/-- A field [hi:lo] of an image, an image being the number whose little-endian bytes are the bytes given (R10, R11). -/
def fld (x hi lo : Nat) : Nat := (x >>> lo) % 2 ^ (hi + 1 - lo)

/-- Bit n of an image. -/
def bit (x n : Nat) : Bool := x.testBit n

/-- An image with the field [hi:lo] replaced by v. -/
def setFld (x hi lo v : Nat) : Nat :=
  (x >>> (hi + 1)) <<< (hi + 1) + (v % 2 ^ (hi + 1 - lo)) <<< lo + x % 2 ^ lo

/-- The number 1 or 0. -/
def b2n (b : Bool) : Nat := if b then 1 else 0

/-- A list of numbers placed as fields of the stated widths, the first lowest. -/
def pack : List (Nat × Nat) → Nat
  | [] => 0
  | (w, v) :: r => v % 2 ^ w + (pack r) <<< w

/-- The n little-endian bytes of a number (R11). -/
def leBytes : Nat → Nat → List Byte
  | 0, _ => []
  | n + 1, x => BitVec.ofNat 8 x :: leBytes n (x / 256)

/-- The number that little-endian bytes spell. -/
def ofLe : List Byte → Nat
  | [] => 0
  | b :: r => b.toNat + 256 * ofLe r

/-- The number that big-endian bytes spell. -/
def ofBe (l : List Byte) : Nat := l.foldl (fun a b => a * 256 + b.toNat) 0

/-- The n big-endian bytes of a number. -/
def beBytes (n x : Nat) : List Byte := (leBytes n x).reverse

/-- n bytes of a list from offset i, zeros past its end. -/
def takeBytes (l : List Byte) (i n : Nat) : List Byte :=
  let t := (l.drop i).take n
  t ++ List.replicate (n - t.length) 0

/-- Ceiling of a / b. -/
def ceilDiv (a b : Nat) : Nat := (a + b - 1) / b

/-- a − b as a signed difference modulo 2^w is at or above zero. -/
def wrapGe (w a b : Nat) : Bool := decide ((a + 2 ^ w - b % 2 ^ w) % 2 ^ w < 2 ^ (w - 1))

/-- A signed w-bit reading of a number. -/
def toSigned (w x : Nat) : Int :=
  if x % 2 ^ w < 2 ^ (w - 1) then Int.ofNat (x % 2 ^ w) else Int.ofNat (x % 2 ^ w) - Int.ofNat (2 ^ w)

/-- The w-bit two's complement of an integer. -/
def ofSigned (w : Nat) (x : Int) : Nat := (x % (2 ^ w : Int)).toNat

/-- Add one, stopping at a ceiling. -/
def satInc (m x : Nat) : Nat := if x < m then x + 1 else m

end Sys2Proof
end

