-- ==== Sys2Proof/Syntax.lean ====
section
/-! DEFINITION. The commands the device takes: one constructor per row of the operation table, with the operands the
spec gives it or, for an event, the facts the outside world supplies. -/

namespace Sys2Proof

/-- A path by which registers are reached (R539). -/
inductive Path where | linkA | linkB | smbus
deriving DecidableEq, Repr

/-- A PCIe link (R38). -/
inductive Link where | a | b
deriving DecidableEq, Repr

/-- What causes a host-interface reset (R80, R510). -/
inductive HirCause where | flr | hotReset | linkDown | perst | resetBit (path : Path)
deriving DecidableEq, Repr

/-- A driver-written page (R48). -/
inductive Page where | doorbell | consumer
deriving DecidableEq, Repr

/-- The header of a command descriptor (R54), with the command ring it stands on. -/
structure Hdr where
  ring : Nat
  order : Bool
  nocomp : Bool
  kind : Nat
  unit : Nat
  cookie : Nat
deriving DecidableEq, Repr, Inhabited

/-- A Form T body (R56). The 24 inline bytes are the number they spell, little-endian. -/
structure FormT where
  object : Nat
  count : Nat
  first : Nat
  hostAddr : Nat
  hostLen : Nat
  opFlags : Nat
  inline : Nat
deriving DecidableEq, Repr, Inhabited

/-- A Form M body (R57). -/
structure FormM where
  devAddr : Nat
  hostAddr : Nat
  length : Nat
  opFlags : Nat
deriving DecidableEq, Repr, Inhabited

/-- The header of an LHX-7408 descriptor (R95): no target, and byte 2 is the table identifier. -/
structure G3Hdr where
  ring : Nat
  order : Bool
  nocomp : Bool
  table : Nat
  cookie : Nat
deriving DecidableEq, Repr, Inhabited

/-- The fields of an LHX-7408 body (R95). -/
structure G3Body where
  first : Nat
  count : Nat
  hostAddr : Nat
deriving DecidableEq, Repr, Inhabited

/-- An inject descriptor (R74) on inject ring INJ ring. -/
structure Inject where
  ring : Nat
  stampReq : Bool
  oneStep : Bool
  nocomp : Bool
  length : Nat
  cookie : Nat
  buffer : Nat
  port : Nat
  queue : Nat
deriving DecidableEq, Repr, Inhabited

/-- A time stamp (R63): seconds, nanoseconds, and the 16-bit fraction of a nanosecond. -/
structure Stamp where
  sec : Nat
  ns : Nat
  frac : Nat
deriving DecidableEq, Repr, Inhabited

/-- The TOUT body of TIME_SET (R364). -/
structure ToutCmd where
  output : Nat
  enable : Bool
  periodic : Bool
  activeLow : Bool
  start : Stamp
  periodNs : Nat
  periodFrac : Nat
  widthNs : Nat
deriving DecidableEq, Repr, Inhabited

/-- What a read of one stored block or word finds (R406, R407, R431): the physical fact the store supplies. `bothCopies`
is a block of the mirror area that its partner copy cannot supply either (R395); of any other block it says no more than
`uncorrectable`. -/
inductive Ecc where | clean | corrected | uncorrectable | bothCopies | parity
deriving DecidableEq, Repr, Inhabited

/-- An on-die structure in which the SRAM scrub can find an error (R431). -/
inductive SramKind where
  | cellPayload | tableMemory | matchKeyCopy | replica | hotLine | taskSlot | custodian | checkValue | other
deriving DecidableEq, Repr

/-- A clock domain the monitors watch (R433). -/
inductive ClockDom where | core | fcore | hbm | pcie | time | mgmt | link (x : Nat)
deriving DecidableEq, Repr

/-- A housekeeping actuator (R446). -/
inductive Actuator where
  | scrubPacing | ageing | shadowCompare | audit | migration | logPersist | rollout
deriving DecidableEq, Repr

/-- A JTAG instruction by its path (R487, R529). -/
inductive JtagOp where
  | bypass | idcode | samplePreload | extest | internalScan | coreDebug | custodianDebug
deriving DecidableEq, Repr

/-- A PFC or PAUSE frame as received (R301): a PAUSE frame names no priorities. -/
inductive PauseFrame where
  | pfc (vector : Nat) (times : List Nat)
  | pause (time : Nat)
deriving DecidableEq, Repr

/-- The commands. -/
inductive Instr where
  -- registers, commits and resets
  | registerWrite (path : Path) (addr : Nat) (value : Word)
  | commitA (path : Path)
  | commitB (path : Path)
  | commitAll (path : Path)
  | logCopySelect (path : Path) (copy : Bool)
  | powerOn
  | chipResetPin
  | chipResetRegister (path : Path)
  | startUp (bifur flashOk : Bool) (hbmDiffer outOfRatings : List Nat)
  | hbmTrainingEnd (failed : List Nat)
  | startupReady
  | pePerstRelease
  | pcieLinkUp (link : Link) (rate : Nat)
  | hostInterfaceReset (link : Link) (cause : HirCause)
  | ringRestart (path : Path) (link : Link)
  | heartbeat
  | pollRead (link : Link) (page : Page) (block : Nat) (visible : List (Nat × Byte))
  | pollData (link : Link) (page : Page) (block : Nat)
  | poolEntryRead (pool : Nat)
  | eventProducerWrite (ring : Nat)
  | msixMessage (link : Link) (vector : Nat) (unmasked : Bool)
  -- commands on command rings
  | nop (h : Hdr)
  | ringSetQuery (h : Hdr) (ring : Nat)
  | ringSetEnable (h : Hdr) (ring : Nat)
  | ringSetDisable (h : Hdr) (ring : Nat)
  | ringSetMove (h : Hdr) (ring sizeCode base : Nat)
  | poolSetQuery (h : Hdr) (pool : Nat)
  | poolSetFlush (h : Hdr) (pool hostAddr : Nat)
  | abort (h : Hdr) (ring index : Nat)
  | fence (h : Hdr)
  | tableWrite (h : Hdr) (t : FormT)
  | tableRead (h : Hdr) (t : FormT)
  | tableBulkWrite (h : Hdr) (t : FormT)
  | tableBulkRead (h : Hdr) (t : FormT)
  | tableScan (h : Hdr) (t : FormT)
  | digestSet (h : Hdr) (t : FormT)
  | epochFlip (h : Hdr) (t : FormT)
  | flowWrite (h : Hdr) (t : FormT)
  | flowDelete (h : Hdr) (t : FormT)
  | flowRead (h : Hdr) (t : FormT)
  | flowRestore (h : Hdr) (t : FormT)
  | counterRead (h : Hdr) (t : FormT)
  | counterClear (h : Hdr) (t : FormT)
  | shaperSet (h : Hdr) (t : FormT)
  | gateLoad (h : Hdr) (t : FormT)
  | memRead (h : Hdr) (m : FormM)
  | memWrite (h : Hdr) (m : FormM)
  | checkScan (h : Hdr) (m : FormM)
  | timeSetRead (h : Hdr)
  | timeSetStep (h : Hdr) (offset : Bool) (time : Stamp) (off : Int)
  | timeSetRate (h : Hdr) (rate : Int)
  | timeSetMarkTraceable (h : Hdr)
  | timeSetTout (h : Hdr) (c : ToutCmd)
  | timeSetPeerDelay (h : Hdr) (port delay : Nat)
  | timeSetSynce (h : Hdr) (output : Nat) (enable : Bool) (lane divider : Nat)
  | fwStage (h : Hdr) (m : FormM)
  | fwSwitch (h : Hdr) (slot mask drainUs : Nat)
  | domainCtlQuery (h : Hdr)
  | domainCtlOff (h : Hdr)
  | domainCtlOn (h : Hdr)
  | domainCtlReinit (h : Hdr) (srcPipe : Nat)
  | domainCtlRestart (h : Hdr) (srcPipe : Nat)
  | g3Nop (h : G3Hdr)
  | g3TableWrite (h : G3Hdr) (b : G3Body)
  | g3TableRead (h : G3Hdr) (b : G3Body)
  | g3CounterRead (h : G3Hdr) (b : G3Body)
  | g3FlowDelete (h : G3Hdr) (record : Nat)
  | longCommandStep (ring index : Nat)
  | heldCommandStart (ring index : Nat)
  | injectPort (d : Inject)
  | injectPipe (d : Inject)
  | puntBufferGrant (pool : Nat)
  | puntPoolTimeout (pool : Nat)
  -- frames
  | frameReceive (port : Nat) (bytes : List Byte)
  | packetPass (pipe : Nat)
  | recirculation (pipe : Nat)
  | frameCheck (packet : Nat) (fcsOk : Bool)
  -- the flow engine
  | flowRequest (slice : Nat)
  | flowFetchDone (slice : Nat)
  | frameCheckReport (slice : Nat)
  | hbmWriteAccepted (slice : Nat)
  | createTmoExpiry (slice record : Nat)
  | backendRequest (slice : Nat)
  | ownerSwitch (slice : Nat)
  | hotLineWritebackDone (slice record : Nat)
  | flowSweepVisit (slice : Nat)
  | exportRoom (slice : Nat)
  | exportTmoExpiry (slice : Nat)
  | peerEnd (slice : Nat)
  | portRelease (slice : Nat)
  | natBlockFree (slice : Nat)
  | ctNotice (slice : Nat)
  | deltaSend (pipe record : Nat)
  | deltaArrival (slice : Nat)
  | flowPull (slice pipe : Nat)
  | pullAnswer (slice record : Nat)
  | answer (slice pipe : Nat)
  | invalidation (slice pipe : Nat)
  | invalidationAck (slice : Nat)
  | horizonStampForm (slice : Nat)
  | horizonStamp (slice pipe : Nat)
  | finalStamp (slice pipe : Nat)
  | confirmNotice (packet : Nat)
  | specTimeout (pipe : Nat)
  | replay (pipe : Nat)
  | unstableEntryExpiry (pipe record : Nat)
  | stallNsExpiry (pipe slice : Nat)
  -- learning, ageing, compares and match banks
  | learnRequest (slice : Nat)
  | hitNotice (slice : Nat)
  | l2Broadcast (die : Nat)
  | l2Delete (die : Nat)
  | l2AgeVisit (slice : Nat)
  | shadowCompare (die block : Nat)
  | matchBankUnitWrite (pipe bank : Nat) (reserved : Bool)
  | matchBankScrub (pipe bank : Nat) (agrees : Bool)
  -- flow cores and tasks
  | coreInstruction (core : Nat)
  | wkGet (core rd : Nat)
  | wkRel (core rs1 : Nat)
  | wkHand (core rs1 rs2 : Nat)
  | wkNew (core rd rs1 : Nat)
  | wkCancel (core rd rs1 : Nat)
  | wkFlow (core rd : Nat)
  | wkEvt (core rs1 rs2 : Nat)
  | commit (slice : Nat)
  | reject (slice : Nat)
  | deny (slice : Nat)
  | setAction (slice : Nat)
  | close (slice : Nat)
  | age (slice : Nat)
  | export_ (slice : Nat)
  | read (slice : Nat)
  | rebind (slice : Nat)
  | natBlock (slice : Nat)
  | natPort (slice : Nat)
  | setFw (slice : Nat)
  | wkFlowReply (core : Nat)
  | timerOperand (slice task : Nat)
  | operandArrival (slice task operand : Nat)
  | taskDispatch (slice : Nat)
  | runLimitExpiry (core : Nat)
  | holdLimitExpiry (slice lock : Nat)
  | preemption (core : Nat)
  | rolloutClusterDrained
  | drainUsExpiry
  | rolloutLoadEnd (readable : Bool)
  -- fabric, links and cells
  | arbiterMatch (differ : Bool)
  | arbiterSelfCheckEnd (q0 q2 : Bool)
  | failedCopySelfCheck (pass : Bool)
  | linkCellReceive (link : Nat) (forward : Bool) (lane : Nat) (intact : Bool)
  | linkAck (link : Nat) (forward : Bool)
  | linkNak (link : Nat) (forward : Bool)
  | linkResendTimeout (link : Nat) (forward : Bool)
  | laneErrorInterval (link lane : Nat)
  | reseqGapTimeout (src dst : Nat)
  | auditStart (die : Nat)
  | auditEnd (die : Nat)
  | pfcXoffRepeat (port pri : Nat)
  | pfcFrameReceive (port : Nat) (frame : PauseFrame)
  | pfcPauseExpiry (port pri : Nat)
  | pfcWatchdogExpiry (port pri : Nat)
  | pfcWatchdogRestoreTimer (port pri : Nat)
  | mcastHoldExpiry (packet port : Nat)
  -- egress
  | schedulerSelect (port : Nat)
  | frameTransmitStart (port : Nat) (corrupt : Bool)
  | frameTransmitEnd (port : Nat)
  | shaperUpdate
  | gateChange (port : Nat)
  | gateListStart (port : Nat)
  | queueSample (die : Nat)
  | linkTrainingDone (port : Nat)
  | linkLoss (port : Nat)
  | portCompReady (port rxComp txComp : Nat)
  -- the time unit
  | timeUnitReset (path : Path)
  | snap (path : Path)
  | trefLoss
  | trefValid
  | pllLock
  | holdoverLimit
  | toutEdge (output : Nat)
  | tinEdge (input : Nat) (falling : Bool)
  | synceLaneLoss (output : Nat)
  | synceUnsquelch (output : Nat)
  -- HBM
  | hbmAccess (stack : Nat) (ecc : Ecc)
  | hbmRefresh (stack bank : Nat)
  | hbmTempRead (stack temp : Nat)
  | patrolScrub (stack rank : Nat) (ecc : Ecc)
  | rankProbe (stack rank : Nat) (ecc : Ecc)
  | migStart (path : Path) (stack : Nat) (value : Word)
  | migAbort (path : Path) (stack : Nat) (value : Word)
  | migrationChunk (badBlocks : List Nat) (targetFailed : Bool)
  | rankReenable (path : Path) (stack : Nat) (value : Word)
  | rankPrepareEnd (stack rank : Nat) (ok : Bool)
  -- integrity and custodians
  | sramScrub (die : Nat) (kind : SramKind) (address : Nat) (ecc : Ecc)
  | clockLoss (die : Nat) (dom : ClockDom)
  | feedStart (path : Path) (engine : Nat) (value : Word)
  | chkFeedB (path : Path) (engine : Nat) (value : Word)
  | chkFeedH (path : Path) (engine : Nat) (value : Word)
  | chkFeedW (path : Path) (engine : Nat) (value : Word)
  | chkFeedResRead (path : Path) (engine : Nat) (high : Bool)
  | cusWatchdogExpiry
  | stringRelease (cause : Nat)
  | selfTestEnd (cusB : Bool) (pass : Bool)
  | stringTake (cusB : Bool)
  | adoption
  | checkpoint
  | custodianActuatorWrite (cusB : Bool) (actuator : Actuator) (value : Nat)
  | stringCopyDisagree
  | preload (path : Path)
  | preloadEnd (crcOk readable : Bool)
  | handover (path : Path)
  | selfTestRetry (path : Path) (cusB : Bool)
  -- the logbook
  | logPersist (programOk : Bool)
  | statSample (source : Nat) (value : Int)
  | statSnapshot
  | logCursorLoad (path : Path) (value : Word)
  | logWindowReady
  | logWin7Read (path : Path)
  | logStatSel (path : Path) (value : Word)
  | logFreeze (path : Path)
  | logCtrlClear (path : Path)
  | logClearEraseEnd
  -- life cycle
  | testDone (path : Path)
  | seal_ (path : Path)
  | service (path : Path)
  | logClear (path : Path)
  | keyRotate (path : Path)
  | return_ (path : Path)
  | vendorDebug (path : Path)
  | tokenResult (fusesOk : Bool)
  | zeroisationEnd
  | jtagInstruction (op : JtagOp)
  -- power domains, supplies, heat and the service port
  | domainStopDone (domain : Nat)
  | domainInitDone (domain : Nat) (pass : Bool)
  | domainFault (domain cause : Nat)
  | autoRestart (domain : Nat)
  | supplyOutOfRatings (rail : Nat)
  | dieTempReading (die : Nat) (temp : Int)
  | thermtrip (die : Nat)
  | smbusSetOffset (offset : Nat)
  | smbusWrite (value : Word) (pecOk : Bool)
  | smbusRead (pecOk : Bool)
  | railWithinTolerance (rail : Nat)
deriving DecidableEq, Repr

end Sys2Proof
end

