-- ==== Sys2Proof/WellFormed.lean ====
section
/-! DEFINITION. When a command's operands are within the fields the spec gives them (R54, R56–R58, R74, R95, R535). -/

namespace Sys2Proof

/-- A number fits w bits. -/
def fitsW (w x : Nat) : Bool := decide (x < 2 ^ w)

/-- An address of BAR0's 16 MiB or of the 64 KiB of BAR2, which stands above it, 4-byte aligned (R39, R537, log 100). -/
def wfAddr (a : Nat) : Bool := decide (a < 2 ^ 24 + 2 ^ 16) && decide (a % 4 = 0)

/-- A command header on command rings 0–63 (R45, R54). -/
def Hdr.wf (h : Hdr) : Bool := decide (h.ring < 64) && fitsW 4 h.kind && fitsW 12 h.unit && fitsW 32 h.cookie

/-- A Form T body (R56). -/
def FormT.wf (t : FormT) : Bool :=
  fitsW 16 t.object && fitsW 32 t.count && fitsW 64 t.first && fitsW 64 t.hostAddr && fitsW 32 t.hostLen
    && fitsW 32 t.opFlags && fitsW 192 t.inline

/-- A Form M body (R57). -/
def FormM.wf (m : FormM) : Bool :=
  fitsW 64 m.devAddr && fitsW 64 m.hostAddr && fitsW 64 m.length && fitsW 32 m.opFlags

/-- An LHX-7408 header (R95). -/
def G3Hdr.wf (h : G3Hdr) : Bool := decide (h.ring < 64) && fitsW 8 h.table && fitsW 32 h.cookie

/-- An LHX-7408 body (R95). -/
def G3Body.wf (b : G3Body) : Bool := fitsW 32 b.first && fitsW 16 b.count && fitsW 64 b.hostAddr

/-- An inject descriptor (R74). -/
def Inject.wf (d : Inject) : Bool :=
  decide (d.ring < 256) && fitsW 16 d.length && fitsW 32 d.cookie && fitsW 64 d.buffer && fitsW 9 d.port && fitsW 4 d.queue

/-- A time stamp (R63). -/
def Stamp.wf (t : Stamp) : Bool := fitsW 48 t.sec && decide (t.ns < 10 ^ 9) && fitsW 16 t.frac

/-- A signed field of w bits. -/
def fitsI (w : Nat) (x : Int) : Bool := decide (-(2 ^ (w - 1) : Int) ≤ x) && decide (x < (2 ^ (w - 1) : Int))

/-- A TOUT body (R364). -/
def ToutCmd.wf (c : ToutCmd) : Bool :=
  fitsW 3 c.output && c.start.wf && fitsW 32 c.periodNs && fitsW 16 c.periodFrac && fitsW 32 c.widthNs

/-- The operands of a command are within their fields. Operands that are facts of the outside world (a port, a slice,
a core) are well formed when a unit of the larger part has that number (R9). -/
def Instr.wf : Instr → Bool
  | .registerWrite _ a _ => wfAddr a
  | .pollRead _ _ b v => decide (b < 8) && v.all fun c => fitsW 64 c.1
  | .pollData _ _ b => decide (b < 8)
  | .poolEntryRead p => decide (p < 64)
  | .eventProducerWrite g => decide (128 ≤ g) && decide (g < 144)
  | .msixMessage _ v _ => decide (v < 256)
  | .startUp _ _ h r => h.all (decide <| · < 4) && r.all (fitsW 6 ·)
  | .hbmTrainingEnd f => f.all (decide <| · < 4)
  | .pcieLinkUp _ r => fitsW 2 r
  | .nop h | .fence h | .timeSetRead h | .timeSetMarkTraceable h | .domainCtlQuery h
  | .domainCtlOff h | .domainCtlOn h => h.wf
  | .ringSetQuery h g | .ringSetEnable h g | .ringSetDisable h g => h.wf && fitsW 16 g
  | .ringSetMove h g n b => h.wf && fitsW 16 g && fitsW 8 n && fitsW 64 b
  | .poolSetQuery h p => h.wf && fitsW 8 p
  | .poolSetFlush h p a => h.wf && fitsW 8 p && fitsW 64 a
  | .abort h g i => h.wf && fitsW 16 g && fitsW 64 i
  | .tableWrite h t | .tableRead h t | .tableBulkWrite h t | .tableBulkRead h t | .tableScan h t | .digestSet h t
  | .epochFlip h t | .flowWrite h t | .flowDelete h t | .flowRead h t | .flowRestore h t | .counterRead h t
  | .counterClear h t | .shaperSet h t | .gateLoad h t => h.wf && t.wf
  | .memRead h m | .memWrite h m | .checkScan h m | .fwStage h m => h.wf && m.wf
  | .timeSetStep h o t off => h.wf && (if o then fitsI 64 off && decide (t = ⟨0, 0, 0⟩) else t.wf && decide (off = 0))
  | .timeSetRate h r => h.wf && fitsI 32 r
  | .timeSetTout h c => h.wf && c.wf
  | .timeSetPeerDelay h p d => h.wf && fitsW 9 p && fitsW 32 d
  | .timeSetSynce h o _ l d => h.wf && fitsW 1 o && fitsW 9 l && fitsW 12 d
  | .fwSwitch h sl m d => h.wf && fitsW 8 sl && fitsW 8 m && fitsW 16 d
  | .domainCtlReinit h p | .domainCtlRestart h p => h.wf && fitsW 8 p
  | .g3Nop h => h.wf
  | .g3TableWrite h b | .g3TableRead h b | .g3CounterRead h b => h.wf && b.wf
  | .g3FlowDelete h r => h.wf && fitsW 32 r
  | .longCommandStep g i | .heldCommandStart g i => decide (g < 64) && fitsW 64 i
  | .injectPort d | .injectPipe d => d.wf
  | .puntBufferGrant p | .puntPoolTimeout p => decide (p < 64)
  | .frameReceive p _ => decide (p < 512)
  | _ => true

end Sys2Proof
end

