-- ==== Sys2Proof/Decode.lean ====
section
/-! DEFINITION. The commands that words spell. The operation table gives no row any bits, so no word of it spells a
command; the commands of the rings are spelled by the descriptors of R54–R58, R74, R95, R280, R364 and R503, whose
encoder and decoder stand here. -/

namespace Sys2Proof

/-- The command a word of the operation table spells: no row of the table has bits, so none. -/
def decodeTableWord (nbits w : Nat) : Option Instr :=
  match nbits, w with
  | _, _ => none

/-! ### Encoding -/

/-- The opcode of a ring command (R55, R74, R95). -/
def opcodeOf : Instr → Option Nat
  | .nop _ => some 0x00
  | .ringSetQuery _ _ | .ringSetEnable _ _ | .ringSetDisable _ _ | .ringSetMove _ _ _ _ => some 0x01
  | .poolSetQuery _ _ | .poolSetFlush _ _ _ => some 0x02
  | .abort _ _ _ => some 0x03
  | .fence _ => some 0x04
  | .tableWrite _ _ => some 0x10
  | .tableRead _ _ => some 0x11
  | .tableBulkWrite _ _ => some 0x12
  | .tableBulkRead _ _ => some 0x13
  | .tableScan _ _ => some 0x14
  | .digestSet _ _ => some 0x15
  | .epochFlip _ _ => some 0x18
  | .flowWrite _ _ => some 0x20
  | .flowDelete _ _ => some 0x21
  | .flowRead _ _ => some 0x22
  | .flowRestore _ _ => some 0x23
  | .counterRead _ _ => some 0x28
  | .counterClear _ _ => some 0x29
  | .shaperSet _ _ => some 0x30
  | .gateLoad _ _ => some 0x31
  | .memRead _ _ => some 0x38
  | .memWrite _ _ => some 0x39
  | .checkScan _ _ => some 0x40
  | .timeSetRead _ | .timeSetStep _ _ _ _ | .timeSetRate _ _ | .timeSetMarkTraceable _ | .timeSetTout _ _
  | .timeSetPeerDelay _ _ _ | .timeSetSynce _ _ _ _ _ => some 0x48
  | .fwStage _ _ => some 0x50
  | .fwSwitch _ _ _ _ => some 0x51
  | .domainCtlQuery _ | .domainCtlOff _ | .domainCtlOn _ | .domainCtlReinit _ _ | .domainCtlRestart _ _ => some 0x60
  | .g3Nop _ => some 0x80
  | .g3TableWrite _ _ => some 0x81
  | .g3TableRead _ _ => some 0x82
  | .g3CounterRead _ _ => some 0x83
  | .g3FlowDelete _ _ => some 0x84
  | .injectPort _ => some 0xB0
  | .injectPipe _ => some 0xB1
  | _ => none

/-- The ring a ring command stands on: a command ring, or inject ring INJ n as its number g (R45). -/
def ringOf : Instr → Option Nat
  | .nop h | .ringSetQuery h _ | .ringSetEnable h _ | .ringSetDisable h _ | .ringSetMove h _ _ _ | .poolSetQuery h _
  | .poolSetFlush h _ _ | .abort h _ _ | .fence h | .tableWrite h _ | .tableRead h _ | .tableBulkWrite h _
  | .tableBulkRead h _ | .tableScan h _ | .digestSet h _ | .epochFlip h _ | .flowWrite h _ | .flowDelete h _
  | .flowRead h _ | .flowRestore h _ | .counterRead h _ | .counterClear h _ | .shaperSet h _ | .gateLoad h _
  | .memRead h _ | .memWrite h _ | .checkScan h _ | .timeSetRead h | .timeSetStep h _ _ _ | .timeSetRate h _
  | .timeSetMarkTraceable h | .timeSetTout h _ | .timeSetPeerDelay h _ _ | .timeSetSynce h _ _ _ _ | .fwStage h _
  | .fwSwitch h _ _ _ | .domainCtlQuery h | .domainCtlOff h | .domainCtlOn h | .domainCtlReinit h _
  | .domainCtlRestart h _ => some h.ring
  | .g3Nop h | .g3TableWrite h _ | .g3TableRead h _ | .g3CounterRead h _ | .g3FlowDelete h _ => some h.ring
  | .injectPort d | .injectPipe d => some (400 + d.ring)
  | _ => none

/-- The first 8 bytes of a native descriptor (R54). -/
def encHdr (op : Nat) (h : Hdr) : List (Nat × Nat) :=
  [(8, op), (8, b2n h.order + 2 * b2n h.nocomp), (12, h.unit), (4, h.kind), (32, h.cookie)]

/-- The first 8 bytes of an LHX-7408 descriptor (R95). -/
def encG3 (op : Nat) (h : G3Hdr) : List (Nat × Nat) :=
  [(8, op), (8, b2n h.order + 2 * b2n h.nocomp), (8, h.table), (8, 0), (32, h.cookie)]

/-- A Form T body (R56). -/
def encT (t : FormT) : List (Nat × Nat) :=
  [(16, t.object), (16, 0), (32, t.count), (64, t.first), (64, t.hostAddr), (32, t.hostLen), (32, t.opFlags),
   (192, t.inline)]

/-- A Form M body (R57). -/
def encM (m : FormM) : List (Nat × Nat) := [(64, m.devAddr), (64, m.hostAddr), (64, m.length), (32, m.opFlags)]

/-- An LHX-7408 body (R95). -/
def encG3Body (b : G3Body) : List (Nat × Nat) := [(32, b.first), (16, b.count), (16, 0), (64, b.hostAddr)]

/-- A stamp (R63). -/
def encStamp (t : Stamp) : List (Nat × Nat) := [(16, t.frac), (32, t.ns), (48, t.sec)]

/-- An inject descriptor (R74). -/
def encInj (op : Nat) (d : Inject) : List (Nat × Nat) :=
  [(8, op), (8, b2n d.stampReq + 2 * b2n d.oneStep + 4 * b2n d.nocomp), (16, d.length), (32, d.cookie),
   (64, d.buffer), (16, d.port), (8, d.queue)]

/-- The fields of a ring command's descriptor, lowest first. -/
def descFields : Instr → List (Nat × Nat)
  | .nop h => encHdr 0x00 h
  | .ringSetQuery h g => encHdr 0x01 h ++ [(16, g), (8, 0)]
  | .ringSetEnable h g => encHdr 0x01 h ++ [(16, g), (8, 1)]
  | .ringSetDisable h g => encHdr 0x01 h ++ [(16, g), (8, 2)]
  | .ringSetMove h g n b => encHdr 0x01 h ++ [(16, g), (8, 3), (8, n), (32, 0), (64, b)]
  | .poolSetQuery h p => encHdr 0x02 h ++ [(8, p), (8, 0)]
  | .poolSetFlush h p a => encHdr 0x02 h ++ [(8, p), (8, 1), (48, 0), (64, a)]
  | .abort h g i => encHdr 0x03 h ++ [(16, g), (48, 0), (64, i)]
  | .fence h => encHdr 0x04 h
  | .tableWrite h t => encHdr 0x10 h ++ encT t
  | .tableRead h t => encHdr 0x11 h ++ encT t
  | .tableBulkWrite h t => encHdr 0x12 h ++ encT t
  | .tableBulkRead h t => encHdr 0x13 h ++ encT t
  | .tableScan h t => encHdr 0x14 h ++ encT t
  | .digestSet h t => encHdr 0x15 h ++ encT t
  | .epochFlip h t => encHdr 0x18 h ++ encT t
  | .flowWrite h t => encHdr 0x20 h ++ encT t
  | .flowDelete h t => encHdr 0x21 h ++ encT t
  | .flowRead h t => encHdr 0x22 h ++ encT t
  | .flowRestore h t => encHdr 0x23 h ++ encT t
  | .counterRead h t => encHdr 0x28 h ++ encT t
  | .counterClear h t => encHdr 0x29 h ++ encT t
  | .shaperSet h t => encHdr 0x30 h ++ encT t
  | .gateLoad h t => encHdr 0x31 h ++ encT t
  | .memRead h m => encHdr 0x38 h ++ encM m
  | .memWrite h m => encHdr 0x39 h ++ encM m
  | .checkScan h m => encHdr 0x40 h ++ encM m
  | .timeSetRead h => encHdr 0x48 h ++ [(8, 0)]
  | .timeSetStep h false t _ => encHdr 0x48 h ++ [(8, 1), (8, 0), (16, 0)] ++ encStamp t
  | .timeSetStep h true _ off => encHdr 0x48 h ++ [(8, 1), (8, 1), (16, 0), (64, ofSigned 64 off)]
  | .timeSetRate h r => encHdr 0x48 h ++ [(8, 2), (120, 0), (32, ofSigned 32 r)]
  | .timeSetMarkTraceable h => encHdr 0x48 h ++ [(8, 3)]
  | .timeSetTout h c =>
    encHdr 0x48 h ++ [(8, 4), (8, c.output), (8, b2n c.enable + 2 * b2n c.periodic + 4 * b2n c.activeLow), (8, 0)]
      ++ encStamp c.start ++ [(32, c.periodNs), (16, c.periodFrac), (16, 0), (32, c.widthNs)]
  | .timeSetPeerDelay h p d => encHdr 0x48 h ++ [(8, 5), (8, 0), (16, p), (32, d)]
  | .timeSetSynce h o e l d =>
    encHdr 0x48 h ++ [(8, 6), (8, o), (8, b2n e), (8, 0), (16, l), (16, 0), (16, d)]
  | .fwStage h m => encHdr 0x50 h ++ encM m
  | .fwSwitch h sl m d => encHdr 0x51 h ++ [(8, sl), (8, m), (16, 0), (16, d)]
  | .domainCtlQuery h => encHdr 0x60 h ++ [(8, 0)]
  | .domainCtlOff h => encHdr 0x60 h ++ [(8, 1)]
  | .domainCtlOn h => encHdr 0x60 h ++ [(8, 2)]
  | .domainCtlReinit h p => encHdr 0x60 h ++ [(8, 3), (8, p)]
  | .domainCtlRestart h p => encHdr 0x60 h ++ [(8, 4), (8, p)]
  | .g3Nop h => encG3 0x80 h
  | .g3TableWrite h b => encG3 0x81 h ++ encG3Body b
  | .g3TableRead h b => encG3 0x82 h ++ encG3Body b
  | .g3CounterRead h b => encG3 0x83 h ++ encG3Body b
  | .g3FlowDelete h r => encG3 0x84 h ++ [(32, r)]
  | .injectPort d => encInj 0xB0 d
  | .injectPipe d => encInj 0xB1 d
  | _ => []

/-- The descriptor of a ring command as the number its 64 little-endian bytes spell (R10, R11). -/
def encodeDesc (i : Instr) : Nat := pack (descFields i)

/-! ### Decoding -/

/-- The header of a native descriptor on a ring (R54). -/
def decHdr (ring x : Nat) : Hdr := ⟨ring, bit x 8, bit x 9, fld x 31 28, fld x 27 16, fld x 63 32⟩

/-- The header of an LHX-7408 descriptor (R95). -/
def decG3 (ring x : Nat) : G3Hdr := ⟨ring, bit x 8, bit x 9, fld x 23 16, fld x 63 32⟩

/-- A Form T body (R56). -/
def decT (x : Nat) : FormT :=
  ⟨fld x 79 64, fld x 127 96, fld x 191 128, fld x 255 192, fld x 287 256, fld x 319 288, fld x 511 320⟩

/-- A Form M body (R57). -/
def decM (x : Nat) : FormM := ⟨fld x 127 64, fld x 191 128, fld x 255 192, fld x 287 256⟩

/-- An LHX-7408 body (R95). -/
def decG3Body (x : Nat) : G3Body := ⟨fld x 95 64, fld x 111 96, fld x 191 128⟩

/-- A stamp at a byte (R63). -/
def decStamp (x byte : Nat) : Stamp :=
  ⟨fld x (8 * byte + 95) (8 * byte + 48), fld x (8 * byte + 47) (8 * byte + 16), fld x (8 * byte + 15) (8 * byte)⟩

/-- An inject descriptor on inject ring INJ n (R74). -/
def decInj (n x : Nat) : Inject :=
  ⟨n, bit x 8, bit x 9, bit x 10, fld x 31 16, fld x 63 32, fld x 127 64, fld x 136 128, fld x 147 144⟩

/-- RING_SET's action (R58). -/
def decRingSet (h : Hdr) (x : Nat) : Option Instr :=
  match fld x 87 80 with
  | 0 => some (.ringSetQuery h (fld x 79 64))
  | 1 => some (.ringSetEnable h (fld x 79 64))
  | 2 => some (.ringSetDisable h (fld x 79 64))
  | 3 => some (.ringSetMove h (fld x 79 64) (fld x 95 88) (fld x 191 128))
  | _ => none

/-- POOL_SET's action (R58). -/
def decPoolSet (h : Hdr) (x : Nat) : Option Instr :=
  match fld x 79 72 with
  | 0 => some (.poolSetQuery h (fld x 71 64))
  | 1 => some (.poolSetFlush h (fld x 71 64) (fld x 191 128))
  | _ => none

/-- TIME_SET's action (R364). -/
def decTimeSet (h : Hdr) (x : Nat) : Option Instr :=
  match fld x 71 64 with
  | 0 => some (.timeSetRead h)
  | 1 =>
    match fld x 79 72 with
    | 0 => some (.timeSetStep h false (decStamp x 12) 0)
    | 1 => some (.timeSetStep h true ⟨0, 0, 0⟩ (toSigned 64 (fld x 159 96)))
    | _ => none
  | 2 => some (.timeSetRate h (toSigned 32 (fld x 223 192)))
  | 3 => some (.timeSetMarkTraceable h)
  | 4 =>
    if fld x 79 72 < 8 then
      some (.timeSetTout h ⟨fld x 79 72, bit x 80, bit x 81, bit x 82, decStamp x 12, fld x 223 192, fld x 239 224,
        fld x 287 256⟩)
    else none
  | 5 => some (.timeSetPeerDelay h (fld x 88 80) (fld x 127 96))
  | 6 => if fld x 79 72 < 2 then some (.timeSetSynce h (fld x 79 72) (bit x 80) (fld x 104 96) (fld x 139 128)) else none
  | _ => none

/-- DOMAIN_CTL's action (R503). -/
def decDomainCtl (h : Hdr) (x : Nat) : Option Instr :=
  match fld x 71 64 with
  | 0 => some (.domainCtlQuery h)
  | 1 => some (.domainCtlOff h)
  | 2 => some (.domainCtlOn h)
  | 3 => some (.domainCtlReinit h (fld x 79 72))
  | 4 => some (.domainCtlRestart h (fld x 79 72))
  | _ => none

/-- The command a descriptor on a command ring spells; none for an opcode or action that is a host error. -/
def decodeCmd (ring x : Nat) : Option Instr :=
  let h := decHdr ring x
  match fld x 7 0 with
  | 0x00 => some (.nop h)
  | 0x01 => decRingSet h x
  | 0x02 => decPoolSet h x
  | 0x03 => some (.abort h (fld x 79 64) (fld x 191 128))
  | 0x04 => some (.fence h)
  | 0x10 => some (.tableWrite h (decT x))
  | 0x11 => some (.tableRead h (decT x))
  | 0x12 => some (.tableBulkWrite h (decT x))
  | 0x13 => some (.tableBulkRead h (decT x))
  | 0x14 => some (.tableScan h (decT x))
  | 0x15 => some (.digestSet h (decT x))
  | 0x18 => some (.epochFlip h (decT x))
  | 0x20 => some (.flowWrite h (decT x))
  | 0x21 => some (.flowDelete h (decT x))
  | 0x22 => some (.flowRead h (decT x))
  | 0x23 => some (.flowRestore h (decT x))
  | 0x28 => some (.counterRead h (decT x))
  | 0x29 => some (.counterClear h (decT x))
  | 0x30 => some (.shaperSet h (decT x))
  | 0x31 => some (.gateLoad h (decT x))
  | 0x38 => some (.memRead h (decM x))
  | 0x39 => some (.memWrite h (decM x))
  | 0x40 => some (.checkScan h (decM x))
  | 0x48 => decTimeSet h x
  | 0x50 => some (.fwStage h (decM x))
  | 0x51 => some (.fwSwitch h (fld x 71 64) (fld x 79 72) (fld x 111 96))
  | 0x60 => decDomainCtl h x
  | 0x80 => some (.g3Nop (decG3 ring x))
  | 0x81 => some (.g3TableWrite (decG3 ring x) (decG3Body x))
  | 0x82 => some (.g3TableRead (decG3 ring x) (decG3Body x))
  | 0x83 => some (.g3CounterRead (decG3 ring x) (decG3Body x))
  | 0x84 => some (.g3FlowDelete (decG3 ring x) (fld x 95 64))
  | _ => none

/-- The command a descriptor on inject ring INJ n spells (R74). -/
def decodeInj (n x : Nat) : Option Instr :=
  match fld x 7 0 with
  | 0xB0 => some (.injectPort (decInj n x))
  | 0xB1 => some (.injectPipe (decInj n x))
  | _ => none

/-- The command a descriptor on a ring spells: command rings 0–63, inject rings 400–655 (R45). -/
def decodeDesc (g x : Nat) : Option Instr :=
  if g < 64 then decodeCmd g x else if 400 ≤ g ∧ g < 656 then decodeInj (g - 400) x else none

end Sys2Proof
end

