-- ==== Sys2Proof/Config.lean ====
section
/-! DEFINITION. What the spec leaves to a random source, to chance or to named outside standards: constants without a body. -/

namespace Sys2Proof.Config

/-- The n-th free value of a run: a value the spec calls random or unpredictable (R5, R154, R197, R485). No proof can
see what it is. -/
opaque freeValue : Nat → Nat

/-- SHA-384 of a byte string, as the named standard defines it (R481, R489): 384 bits. -/
opaque sha384 : List Byte → Nat

/-- ECDSA on P-384 as the named standard defines it (R481, R489), under the public key whose SHA-384 is the first
argument: the message and the signature. -/
opaque ecdsaByHash : Nat → List Byte → List Byte → Bool
/-- The hash of the vendor public key, which the boot ROM of both copies holds (R481, R489). -/
opaque vendorKeyHash : Nat
/-- The physical bytes by which the sensors, references and lanes of a part differ are operands of the events; the
compensation the lane hardware measures after link-up is this function of the lane and the free-value index (R367). -/
opaque measured : Nat → Nat → Nat

/-- The address a port's own PFC frames carry as their source (R301): IEEE 802.1Qbb takes the port's own, which no rule
gives. 48 bits, by port. -/
opaque portMac : Nat → BitVec 48

/-- Cells the transmitter of a die link can keep at once (R305, R309): no rule gives its size. -/
opaque linkRoom : Nat

/-- The prefix length a route write or read by key names: R138 takes the key from the entry, whose layouts (R158) hold
no length, and no rule says where the command gives it. Of the family (false IPv4), the first field and the image. -/
opaque prefixLength : Bool → Nat → Nat → Nat

end Sys2Proof.Config
end

