-- ==== Sys2Proof/Machine/State.lean ====
section
/-! DEFINITION. The state of the device: every register, table, queue, buffer, counter, mode and pin the spec names, as plain data. -/

namespace Sys2Proof.Machine

/-- Why a step stops the machine. No command of this device stops it: every fault the spec describes is reported by
an event, a completion or a status and the device goes on. -/
inductive Fault where
  /-- Raised by no one: the type has a value only so that it can be written. Safe. -/
  | none
deriving DecidableEq, Repr

/-- Why a command has no meaning. -/
inductive Refusal where
  /-- Raised by an arm of exec that has no meaning yet. Safe. -/
  | notModelled (mnemonic : String)
deriving DecidableEq, Repr

/-- The two parts of R1. -/
inductive Part where | lhx9612 | lhx9406
deriving DecidableEq, Repr, Inhabited

/-- An event as it is raised (R68, R457): source, code, severity and four parameters. -/
structure Ev where
  source : Nat
  code : Nat
  sev : Nat
  p0 : Nat
  p1 : Nat
  p2 : Nat
  p3 : Nat
deriving DecidableEq, Repr, Inhabited

/-! ### The host interface -/

/-- The newest event descriptor of a ring while its producer index is not yet written (R70). -/
structure Newest where
  /-- ring entry of the descriptor (R46) -/
  index : Nat
  /-- the event in it -/
  ev : Ev
  /-- its repeat field (R69) -/
  repeatN : Nat
  /-- when it was written, in ps (R70) -/
  at_ : Nat
  /-- the commands that raised an event in it, as ring and index (R70, R79) -/
  cmds : List (Nat × Nat)
  /-- it is an EVENT descriptor, into which an occurrence can fold; an EVENT_LOST descriptor takes none (R70, R71) -/
  folds : Bool
deriving DecidableEq, Repr, Inhabited

/-- One ring's operating state (R45, R46, R59). -/
structure Ring where
  /-- operating enable; 1 bit; R59, R92; reset 0 -/
  enabled : Bool := false
  /-- operating base address; 64 bits; R59, R92; reset 0 -/
  base : Nat := 0
  /-- operating size_code; 4 bits; R92; reset 0 -/
  size : Nat := 0
  /-- operating MSI-X vector; 8 bits; R92; reset 0 -/
  vector : Nat := 0
  /-- operating pair; 6 bits; R92; reset 0 -/
  pair : Nat := 0
  /-- operating lossless bit; R92; reset 0 -/
  lossless : Bool := false
  /-- the device's copy of the producer index; 64 bits; R46; reset 0 -/
  prod : Nat := 0
  /-- the device's copy of the consumer index; 64 bits; R46; reset 0 -/
  cons : Nat := 0
  /-- descriptors of a command or inject ring begun so far; R79; reset 0 -/
  begun : Nat := 0
  /-- a completion ring's held completions, oldest first; R47; reset none -/
  held : List (List Byte) := []
  /-- events lost and not yet reported; R71; reset 0 -/
  lost : Nat := 0
  /-- highest severity among them; 2 bits; R71; reset 0 -/
  lostSev : Nat := 0
  /-- source, code and stamp of the first event lost; R71; reset none -/
  lostFirst : Option (Nat × Nat × Stamp) := none
  /-- count of events or records offered to the ring; R69, R204, R346; reset 0 -/
  offered : Nat := 0
  /-- offered at the last event lost; R71; reset 0 -/
  lostSeq : Nat := 0
  /-- the descriptor that can still fold; R70; reset none -/
  newest : Option Newest := none
  /-- entries written and not yet signalled; R72; reset 0 -/
  unsig : Nat := 0
  /-- when the oldest of them was written, in ps; R72; reset 0 -/
  unsigSince : Nat := 0
  /-- entries of a punt ring reserved for waiting punts; R78; reset 0 -/
  reserved : Nat := 0
  /-- records discarded since the last record written; R204, R346; reset 0 -/
  discarded : Nat := 0
deriving DecidableEq, Repr, Inhabited

/-- One polled block of a driver-written page (R50). -/
structure PollBlock where
  /-- interval exponent; R50; reset 0 -/
  e : Nat := 0
  /-- consecutive unchanged reads; R50; reset 0 -/
  idle : Nat := 0
  /-- issue time of the last read in ps and the interval then in force; R50; reset none -/
  last : Option (Nat × Nat) := none
  /-- data of the outstanding reads, in issue order; R50; reset none -/
  out : List (List Nat) := []
  /-- data of the read last taken; R50; reset none, which compares as zeros -/
  seen : List Nat := []
deriving DecidableEq, Repr, Inhabited

/-- A punt on its way to host memory (R73, R77). -/
structure Punt where
  /-- punt ring number 0–255; R73 -/
  ring : Nat
  /-- reason code; R73 -/
  reason : Nat
  /-- ingress port; R73 -/
  port : Nat
  /-- frame_len; R73 -/
  frameLen : Nat
  /-- receive stamp; R73 -/
  stamp : Stamp
  /-- flags; R73 -/
  flags : Nat
  /-- record index and version; R73 -/
  flow : Nat
  /-- deciding rule; R73 -/
  rule : Nat
  /-- session; R73 -/
  session : Nat
  /-- the captured bytes; R74 -/
  data : List Byte
  /-- the pipeline whose punt account holds the cells; R299 -/
  pipe : Nat
  /-- the frame or copy whose cells it holds; R78 -/
  pkt : Nat
  /-- cells charged to the punt account; R299 -/
  ncells : Nat
  /-- when it began to wait, in ps; R77 -/
  since : Nat
  /-- buffers drawn; R76 -/
  drawn : List Nat
deriving DecidableEq, Repr, Inhabited

/-- One host buffer pool (R75). -/
structure Pool where
  /-- cached buffer addresses, oldest first, at most 256; R75; reset none -/
  cache : List Nat := []
  /-- punts waiting, in request order; R77; reset none -/
  wait : List Punt := []
  /-- a refill is running; R75; reset 0 -/
  refill : Bool := false
  /-- a FLUSH runs, during which no entry is fetched; R60; reset 0 -/
  flushing : Bool := false
  /-- the arbiter's pipeline of highest priority in the cycle of arbAt; 4 bits; R77; reset 0 -/
  arb : Nat := 0
  /-- the cycle in which punts last requested, in ps; R77; reset 0 -/
  arbAt : Nat := 0
  /-- the pipeline served last in that cycle; 4 bits; R77; reset 15 -/
  arbLast : Nat := 15
deriving DecidableEq, Repr, Inhabited

/-- One MSI-X vector (R72), with its entry of the MSI-X table and its bit of the pending-bit array in BAR2 (R39). -/
structure Vec where
  /-- message address of its table entry; 64 bits; R39, R42; DESIGN CHOICE 0 -/
  addr : Nat := 0
  /-- message data of its table entry; 32 bits; R39; DESIGN CHOICE 0 -/
  data : Nat := 0
  /-- mask bit of its table entry; R39, R72; PRESUMED 1 (the MSI-X standard's) -/
  masked : Bool := true
  /-- its bit of the pending-bit array; R39; reset 0 -/
  pending : Bool := false
  /-- an event mapped to it is pending; R72; reset 0 -/
  cause : Bool := false
  /-- time of its last message, in ps; R72; reset none -/
  last : Option Nat := none
  /-- messages sent; R72; reset 0 -/
  sent : Nat := 0
deriving DecidableEq, Repr, Inhabited

/-- One PCIe link (R38, R94). -/
structure LinkState where
  /-- link up; R84; reset 0 -/
  up : Bool := false
  /-- trained rate; 2 bits; R84; reset 0 -/
  rate : Nat := 0
  /-- committed; R83, R84; reset 0 -/
  committed : Bool := false
  /-- the doorbell page passed its check; R94; reset 0 -/
  dbOk : Bool := false
  /-- the consumer page passed its check; R94; reset 0 -/
  consOk : Bool := false
  /-- the status page passed its check; R49, R94; reset 0 -/
  statOk : Bool := false
  /-- a host-interface reset stopped the link's rings; R80, R81; reset 0 -/
  stopped : Bool := false
  /-- when the heartbeat slot was last incremented, in ps; R49; reset 0 -/
  beat : Nat := 0
deriving DecidableEq, Repr, Inhabited

/-- What a begun command waits for (R79, R128, R165, R207, R214, R439, R444). -/
inductive WaitFor where
  | nothing
  | object      -- a command on the same object, or a long one, is running
  | order       -- ORDER or FENCE: earlier commands
  | bank        -- a draining bank
  | compare     -- a block compare
  | engine      -- a scan engine
  | newRecord   -- a NEW record
  | transfer    -- a half's transfer
  | pull        -- the pull before an eviction
  | accept      -- HBM acceptance, then acknowledgements
  | units       -- match-bank unit writes
  | shaper      -- the next shaper update
  | domain      -- a power-domain transition
  | flush       -- running rollout or other unit work
deriving DecidableEq, Repr, Inhabited

/-- A command begun and not completed (R444). -/
structure InFlight where
  /-- the command itself -/
  cmd : Instr
  /-- its command ring; R61 -/
  ring : Nat
  /-- its ring index; R61 -/
  index : Nat
  /-- order of fetch over all rings; R79 -/
  order : Nat
  /-- what it waits for; R79 -/
  wait : WaitFor
  /-- a step is running; R444 -/
  stepping : Bool
  /-- the abort latch; R444 -/
  abort : Bool
  /-- units done; R61 -/
  progress : Nat
  /-- result words so far; R61 -/
  res0 : Nat
  /-- result word 1 -/
  res1 : Nat
  /-- pipelines whose acknowledgement is still due; R214 -/
  acks : List Nat
  /-- a status other than COMPLETED found on the way; R62 -/
  status : Nat
  /-- an event about it was raised; R61 -/
  evt : Bool
  /-- check registers and scratch numbers of a long command -/
  acc : List Nat
deriving DecidableEq, Repr

/-- The host interface (R38–R97). -/
structure Hif where
  /-- link A; R38 -/
  a : LinkState := {}
  /-- link B; R38 -/
  b : LinkState := {}
  /-- two x8 links; R38, R84; reset strap -/
  bifurcated : Bool := false
  /-- PE_PERST_N released; R510; reset 0 -/
  perst : Bool := false
  /-- commit_err of HIF_STATUS; R84; reset 0 -/
  commitErr : Bool := false
  /-- first_ring of HIF_COMMIT_ERR; 10 bits; R85; reset 0x3FF -/
  firstRing : Nat := 0x3FF
  /-- dma_faults of HIF_STATUS; 8 bits; R84; reset 0 -/
  dmaFaults : Nat := 0
  /-- ignored_writes of HIF_STATUS; 8 bits; R84; reset 0 -/
  ignored : Nat := 0
  /-- the 752 rings, by g; R45 -/
  rings : Map Ring := []
  /-- the polled blocks, by 16 × link + 8 × page + block; R50 -/
  poll : Map PollBlock := []
  /-- the 64 pools; R75 -/
  pools : Map Pool := []
  /-- the vectors, by 256 × link + v; R72 -/
  vecs : Map Vec := []
  /-- MSI-X messages sent: link number, address and data, in order; R42, R72; reset none -/
  messages : List (Nat × Nat × Nat) := []
  /-- commands begun and not completed, in order of fetch; R79 -/
  inflight : List InFlight := []
  /-- descriptors of command rings fetched so far; R79; reset 0 -/
  fetchCount : Nat := 0
  /-- fetched and not yet begun: ring, first index, count, order of the first; R79; reset none -/
  fetched : List (Nat × Nat × Nat × Nat) := []
  /-- abort requests for commands fetched and not yet begun, as ring and index; R64, R444; reset none -/
  aborts : List (Nat × Nat) := []
  /-- punts held for room in a lossless punt ring or for the punt account, oldest first; R78 -/
  heldPunts : List Punt := []
deriving DecidableEq, Repr, Inhabited

/-! ### Frames and passes -/

/-- A parsed header (R104). -/
structure HdrRec where
  /-- header class; R103 -/
  cls : Nat
  /-- byte offset in the frame -/
  off : Nat
  /-- length in bytes -/
  len : Nat
  /-- recorded -/
  recorded : Bool
deriving DecidableEq, Repr, Inhabited

/-- What becomes of a frame (R117, R140, R181). -/
inductive Fate where
  /-- a copy to each port, with the VLAN a copy takes; hold is the hold time of multicast copies, down the members of a
  group whose LAG has no port up (R315) -/
  | ports (l : List (Nat × Option Nat)) (copy : Bool) (hold down : Nat)
  /-- dropped, with the counter charged -/
  | drop (cnt : Option (Nat × Nat × Nat))
  /-- punted to a ring with a reason; byTarget: a PUNT target names the ring, and the punt carries no rule (R140) -/
  | punt (ring reason : Nat) (byTarget : Bool)
  /-- it becomes a task of a work class -/
  | core (cls : Nat)
  /-- it recirculates -/
  | recirculate
deriving DecidableEq, Repr, Inhabited

/-- A next hop as it was looked up (R162, R168): its index, its entry, and the address its smac_index names. -/
structure Hop where
  /-- index -/
  idx : Nat
  /-- NEXT_HOP entry -/
  img : Nat
  /-- source address of the ROUTER_MAC entry it names; R344 -/
  smac : Nat
deriving DecidableEq, Repr, Inhabited

/-- One address rewrite (R181, R203, R344): the new address in network order, its family, and the new port, 0 to keep
it. -/
structure Rewrite where
  /-- the source is rewritten, else the destination -/
  src : Bool
  /-- the address is an IPv6 address -/
  v6 : Bool
  /-- the address's octets -/
  addr : List Byte
  /-- new port -/
  port : Nat
deriving DecidableEq, Repr, Inhabited

/-- The classification snapshot of one pass (R118, R125, R145, R174). -/
structure Snap where
  /-- disposition of the pass, as merged: the codes of R117, and 6 for a frame that becomes a task (R181) -/
  disp : Nat := 0
  /-- forwarding target; R140 -/
  target : Nat := 0
  /-- punt ring and reason when punted; R117, R73 -/
  puntRing : Nat := 0
  /-- punt reason; R73 -/
  reason : Nat := 1
  /-- deciding entry; R118 -/
  rule : Nat := 0xFFFFFFFF
  /-- target word of a RECIRCULATE action, or the work class of a frame that becomes a task; R117, R181 -/
  reTarget : Nat := 0
  /-- mirror session; R118 -/
  mirror : Option Nat := none
  /-- traffic class set; R118 -/
  tc : Option Nat := none
  /-- flow key profile; R174 -/
  prof : Nat := 0
  /-- the pass skips the flow stage; R174 -/
  skip : Bool := true
  /-- rule-hit counters to charge; R118, R119 -/
  rules : List Nat := []
  /-- VRF, FID and VLAN; R141 -/
  vrf : Nat := 0
  /-- forwarding domain; R141 -/
  fid : Nat := 0
  /-- VLAN; R141 -/
  vlan : Nat := 0
  /-- learning is on in the VLAN; R141 -/
  learn : Bool := false
  /-- the frame is routed; R142 -/
  routed : Bool := false
  /-- next hop used, as looked up; R162, R168 -/
  nh : Option Hop := none
  /-- the merged disposition of the classification, which a flow action does not change; R117, R261 -/
  cdisp : Nat := 0
  /-- what the forwarding target gave when it was looked up, with its next hop; R125, R168; none: not looked up yet -/
  res : Option (Fate × Option Hop) := none
  /-- source address; R145 -/
  srcMac : Nat := 0
  /-- source lookup: 0 none, 1 miss, 2 another dest, 3 match with hit clear, 4 match; R147 -/
  srcHit : Nat := 0
  /-- flow key; R175 -/
  key : List Byte := []
  /-- key length; R175 -/
  keyLen : Nat := 0
  /-- direction bit; R175 -/
  dir : Bool := false
  /-- h; R176 -/
  h : Nat := 0
  /-- g; R176 -/
  g : Nat := 0
  /-- hash 0; R120 -/
  hash0 : Nat := 0
  /-- hash 1; R120 -/
  hash1 : Nat := 0
  /-- parsed headers; R104 -/
  hdrs : List HdrRec := []
  /-- PARSE_DEPTH; R104 -/
  depth : Bool := false
  /-- flags byte of the tracked TCP header; R188 -/
  tcp : Option Nat := none
  /-- bytes stripped before this pass; R123 -/
  strip : Nat := 0
  /-- drop counter charged when the pass drops: object, unit, index; R230 -/
  dropCnt : Option (Nat × Nat × Nat) := none
deriving DecidableEq, Repr, Inhabited

/-- Where a pass stands (R222, R234). -/
inductive PassSt where | waiting | spec | confirmed | squashed | dropped
deriving DecidableEq, Repr, Inhabited

/-- One pass of a packet at the flow stage (R213, R222, R245). -/
structure Pass where
  /-- packet -/
  pkt : Nat
  /-- pass number, from 0 -/
  no : Nat
  /-- record used; R222 -/
  record : Option Nat
  /-- record version used; R186 -/
  version : Nat
  /-- owner slice; R177 -/
  owner : Nat
  /-- half of the record, 2 × die + b; R177 -/
  half : Nat
  /-- lookup time; R213 -/
  lookup : Nat
  /-- acted on an authoritative answer; R187 -/
  auth : Bool
  /-- where it stands -/
  st : PassSt
  /-- covered by a final stamp; R219 -/
  covered : Bool
  /-- orig_dir of the record; R188 -/
  origDir : Bool
  /-- the record's flags as known at the pipeline: cnt_en, ct_en; R188 -/
  flags : Nat
  /-- action block; R181 -/
  action : Nat
  /-- backend generation; R203 -/
  backendGen : Nat
  /-- classification snapshot; R125 -/
  snap : Snap
  /-- cause of its squash; R232 -/
  cause : Nat
deriving DecidableEq, Repr, Inhabited

/-- A frame in the device. -/
structure Pkt where
  /-- the frame as received, without FCS -/
  bytes : List Byte
  /-- ingress port -/
  port : Nat
  /-- ingress pipeline -/
  pipe : Nat
  /-- receive stamp; R366 -/
  stamp : Stamp
  /-- the stamp was taken with compensation ready; R369 -/
  stampOk : Bool
  /-- time generation of the stamp; R375 -/
  gen : Nat
  /-- epoch, false bank A; R125 -/
  epoch : Bool := false
  /-- ingress priority; R297 -/
  pri : Nat := 0
  /-- traffic class; R297 -/
  tc : Nat := 0
  /-- bytes stripped from the front so far; R123 -/
  strip : Nat := 0
  /-- parse profile of the next pass; R102, R123 -/
  prof : Nat := 0
  /-- passes begun -/
  passes : Nat := 0
  /-- replays made; R236 -/
  replays : Nat := 0
  /-- frame check: none pending, some result; R224 -/
  check : Option Bool := none
  /-- deferred comparisons that will fail, as causes; R106 -/
  deferred : List Nat := []
  /-- malformed cause found; R105 -/
  malformed : Nat := 0
  /-- flow parts of all passes confirmed; R222 -/
  flowOk : Bool := false
  /-- counted in its epoch; R126 -/
  inEpoch : Bool := false
  /-- the egress scheduler has the notice; R224 -/
  noticed : Bool := false
  /-- when the notice came, in ps; R240 -/
  noticeAt : Nat := 0
  /-- when its frame check passed, in ps; R224, R240 -/
  checkAt : Nat := 0
  /-- transmission has begun -/
  started : Bool := false
  /-- ended: dropped, punted or sent -/
  ended : Bool := false
  /-- its confirmed effects have been taken; R241 -/
  settled : Bool := false
  /-- first lookup time; R238 -/
  firstLookup : Nat := 0
  /-- cells held, as 2^19 × die + address; R290 -/
  cells : List Nat := []
  /-- cells held on the destination die of a link; R311 -/
  dcells : List Nat := []
  /-- references: queue entries and holders still using the cells; R315 -/
  refs : Nat := 0
  /-- lossless cells charged to port and priority; R299 -/
  charged : Nat := 0
  /-- inject ring and index; R74 -/
  inj : Option (Nat × Nat) := none
  /-- ONE_STEP; R376 -/
  oneStep : Bool := false
  /-- STAMP_REQ; R74 -/
  stampReq : Bool := false
  /-- NOCOMP of the inject; R74 -/
  nocomp : Bool := false
  /-- cookie of the inject; R74 -/
  cookie : Nat := 0
  /-- a mirror or sample copy; R318 -/
  copy : Bool := false
  /-- the merged result it now follows -/
  snap : Snap := {}
  /-- flow action applied; R181 -/
  action : Nat := 0
  /-- backend applied; R203 -/
  backend : Option Nat := none
  /-- the address rewrites of the action and the backend, as the action merge found them; R203, R344 -/
  rews : List Rewrite := []
  /-- a task owns it; R255 -/
  task : Bool := false
  /-- the frame ends with a stomped FCS; R231 -/
  stomp : Bool := false
  /-- the pipelines other than the ingress pipeline that hold the cells of a squashed frame; R313 -/
  at_ : List Nat := []
  /-- counts that wait until the frame is confirmed: object, unit, index and amount; R227, R242 -/
  owed : List (Nat × Nat × Nat × Nat) := []
  /-- the egress pipelines it was queued for before a squash; R313 -/
  oldDst : Option (List Nat) := none
  /-- passes of it squashed; R247 -/
  squashed : Nat := 0
  /-- causes of the chains it was the first member of; R247 -/
  chains : List Nat := []
  /-- lookup time of its first pass that acted on a replica, for the confirm lag; R218 -/
  lagFrom : Option Nat := none
deriving DecidableEq, Repr, Inhabited

/-! ### Classification and forwarding -/

/-- An update of a match entry on its way into a bank (R115). -/
structure UnitUpd where
  /-- global unit address -/
  addr : Nat
  /-- entry width in units -/
  width : Nat
  /-- the new image; R112 -/
  image : Nat
  /-- unit writes done -/
  done : Nat
  /-- the command it belongs to -/
  cmd : Option (Nat × Nat)
deriving DecidableEq, Repr, Inhabited

/-- One pipeline's rule-set banks (R125–R127). -/
structure Epoch where
  /-- the current bank, false A; R133; reset A -/
  cur : Bool := false
  /-- in-flight packets with epoch A; R126; reset 0 -/
  inA : Nat := 0
  /-- in-flight packets with epoch B; R126; reset 0 -/
  inB : Nat := 0
  /-- the non-current bank has been retired by a flip and not yet reclaimed; R126; reset 0 -/
  draining : Bool := false
deriving DecidableEq, Repr, Inhabited

/-- Parsers and match banks (R98–R135). -/
structure Cls where
  /-- two-copy objects and other per-pipeline, per-die SRAM objects, as images by object key; R98, R319, R348; reset zeros but SCHED_NODE and SHAPER -/
  objs : Map Nat := []
  /-- the SRAM copy of match entries, by 16384 × pipeline + address; R114; reset zeros -/
  sram : Map Nat := []
  /-- the searched copy of match entries, by the same key; R113; reset zeros -/
  tcam : Map Nat := []
  /-- entries marked suspect, by the same key; R114, R116; reset none -/
  suspect : Map Bool := []
  /-- entries whose last scrub read-back disagreed, by the same key; R116; reset none -/
  failed : Map Bool := []
  /-- epochs, by pipeline; R125 -/
  epoch : Map Epoch := []
  /-- pending unit writes, by 8 × pipeline + bank; R115; reset none -/
  updates : Map (List UnitUpd) := []
  /-- next unit the scrub of a bank compares, by 8 × pipeline + bank; R116; reset 0 -/
  scrub : Map Nat := []
deriving DecidableEq, Repr, Inhabited

/-- A message to a key's owner slice (R147). -/
inductive LearnMsg where
  | req (fid mac target : Nat)
  | hit (fid mac dest : Nat)
deriving DecidableEq, Repr

/-- A decision on its way to a die's copy of the L2 table (R149). -/
inductive L2Msg where
  | put (slot image : Nat)
  | hitClear (slot fid mac : Nat)
  | delete (slot fid mac : Nat)
deriving DecidableEq, Repr

/-- A block's shadow compare (R165). -/
structure Cmp where
  /-- the digest loaded; 64 bits; R137; reset 0 -/
  digest : Nat := 0
  /-- stale; R165, R173; reset 1 -/
  stale : Bool := true
  /-- suspect; R166, R173; reset 0 -/
  suspect : Bool := false
  /-- TBL_DIGEST_STALE raised for this stay; R165; reset 0 -/
  told : Bool := false
  /-- a driver write changed the block since the compare began; R165; reset 0 -/
  dirty : Bool := false
  /-- compares abandoned in a row; R165; reset 0 -/
  abandoned : Nat := 0
  /-- whole cycles stale; R165; reset 0 -/
  cycles : Nat := 0
  /-- slots of the block made absent by an uncorrectable word; R431; reset none -/
  absent : List Nat := []
  /-- when the block's last compare finished or was skipped, in ps; R164; reset 0 -/
  at_ : Nat := 0
deriving DecidableEq, Repr, Inhabited

/-- Learning, filters and compares (R136–R173). -/
structure Fwd where
  /-- learn requests and hit notices queued, by slice, at most 2,048; R149; reset none -/
  learnQ : Map (List LearnMsg) := []
  /-- decisions on their way to a die; R149; reset none -/
  bcast : Map (List L2Msg) := []
  /-- the last 64 requests of a pipeline with their times in ps; R148; reset none -/
  sent : Map (List (Nat × Nat × Nat × Nat)) := []
  /-- length-filter occupancy, by die, family, length and index; 8 bits; R159; reset 0 -/
  filter : Map Nat := []
  /-- compare state, by 1024 × die + block; R164 -/
  cmp : Map Cmp := []
  /-- next slot a slice's ageing sweep visits; R152; reset 0 -/
  agePos : Map Nat := []
  /-- when a slice's sweep began, in ps; R152; reset 0 -/
  ageAt : Map Nat := []
deriving DecidableEq, Repr, Inhabited

/-! ### The flow engine -/

/-- A request at an owner (R186, R203). -/
structure Req where
  /-- pipeline that waits -/
  pipe : Nat
  /-- flow key; R175 -/
  key : List Byte
  /-- flow key profile; R174 -/
  prof : Nat
  /-- h; R176 -/
  h : Nat
  /-- g; R176 -/
  g : Nat
  /-- key length; R175 -/
  keyLen : Nat
  /-- direction bit; R175 -/
  dir : Bool
  /-- hash 0 and hash 1 of the pass; R202 -/
  hash0 : Nat
  /-- hash 1 -/
  hash1 : Nat
  /-- epoch of the packet; R202 -/
  epoch : Bool
  /-- flags byte of the tracked TCP header; R194 -/
  tcp : Option Nat
  /-- the record whose backend check failed; R203 -/
  backend : Option Nat
  /-- packets waiting on it, in order; R192 -/
  pkts : List Nat
deriving DecidableEq, Repr, Inhabited

/-- A hot line (R184), with what the owner keeps beside it for a NEW record (R192). -/
structure Hot where
  /-- global record index -/
  record : Nat
  /-- version -/
  version : Nat
  /-- life; R190 -/
  life : Nat
  /-- kind; R180 -/
  kind : Nat
  /-- dirty -/
  dirty : Bool
  /-- evicting; R185 -/
  evicting : Bool
  /-- ct_state; R194 -/
  ctState : Nat
  /-- flags [15:0]; R180 -/
  flags : Nat
  /-- last_seen in ms -/
  lastSeen : Nat
  /-- action block as an image; R181 -/
  action : Nat
  /-- packets not yet written back, original direction -/
  dPktsO : Nat
  /-- packets not yet written back, reply direction -/
  dPktsR : Nat
  /-- bytes not yet written back, original direction -/
  dBytesO : Nat
  /-- bytes not yet written back, reply direction -/
  dBytesR : Nat
  /-- the record's key; R184 -/
  key : List Byte
  /-- the record's key_prof; R184 -/
  prof : Nat
  /-- h, which names the set; R184 -/
  h : Nat
  /-- orig_dir; R180 -/
  origDir : Bool
  /-- backend generation; R180 -/
  backendGen : Nat
  /-- order of last use; R185 -/
  used : Nat
  /-- time of the last writeback in ms; R184 -/
  wbAt : Nat
  /-- requests parked; R192 -/
  parked : List Req
  /-- when the line became NEW, in ps; R192 -/
  newAt : Nat
  /-- creation has started; R192 -/
  creating : Bool
  /-- packets whose frame check passed or failed so far; R192 -/
  checks : List (Nat × Bool)
  /-- the CREATE task; R192 -/
  task : Option Nat
  /-- the triggering packet; R192 -/
  trig : Option Nat
deriving DecidableEq, Repr, Inhabited

/-- A replica entry of a pipeline (R186). -/
structure Replica where
  /-- key -/
  key : List Byte
  /-- key_prof -/
  prof : Nat
  /-- h, which names the set -/
  h : Nat
  /-- record index -/
  record : Nat
  /-- version -/
  version : Nat
  /-- orig_dir -/
  origDir : Bool
  /-- backend generation -/
  backendGen : Nat
  /-- action block -/
  action : Nat
  /-- record flags sent with the answer -/
  flags : Nat
  /-- confirmed packets not yet sent, original -/
  dPktsO : Nat
  /-- confirmed packets not yet sent, reply -/
  dPktsR : Nat
  /-- confirmed bytes not yet sent, original -/
  dBytesO : Nat
  /-- confirmed bytes not yet sent, reply -/
  dBytesR : Nat
  /-- time in ms of the latest confirmed packet not yet sent -/
  seen : Nat
  /-- since when a delta waits, in ps -/
  since : Option Nat
  /-- a reply packet has been seen; R188 -/
  replySeen : Bool
  /-- speculative packets that used it -/
  spec : Nat
  /-- order of last use; R187 -/
  used : Nat
deriving DecidableEq, Repr, Inhabited

/-- A request outstanding at a pipeline and the passes that wait for it (R186). -/
structure Waiting where
  /-- key -/
  key : List Byte
  /-- key_prof -/
  prof : Nat
  /-- the slice asked -/
  slice : Nat
  /-- the request, to be re-sent -/
  req : Req
  /-- passes waiting, in arrival order, as packet and pass number -/
  who : List (Nat × Nat)
  /-- the request has gone out; R235 -/
  sent : Bool
  /-- passes that came while a chain with the key had not returned, in arrival order; R235 -/
  late : List (Nat × Nat)
deriving DecidableEq, Repr, Inhabited

/-- A message on the ordered channel from a slice to a pipeline (R187). -/
inductive ChanMsg where
  | answer (key : List Byte) (prof record version flags action backendGen : Nat) (origDir : Bool) (found : Nat)
      -- found: 0 no record, FOLLOW; 1 a record; 2 RETRY; 3 DROP; 4 the pass of packet record, or every pass, is dropped as
      -- IND_INVALID, and the others take the code in version
  | inval (record version time : Nat) (ack : Option (Nat × Nat))
  | stamp (value : Nat)
  | finalStamp (half : Nat)
  | pull (record : Nat)
deriving DecidableEq, Repr

/-- What the owner does when HBM has accepted a write (R182). -/
structure HbmWrite where
  /-- record changed -/
  record : Nat
  /-- its new version -/
  version : Nat
  /-- an invalidation goes out -/
  inval : Bool
  /-- the command that asks for acknowledgements -/
  cmd : Option (Nat × Nat)
  /-- parked requests to be answered -/
  answer : List Req
  /-- a reply to a core: core, status, result words; R256 -/
  reply : Option (Nat × Nat × List (Nat × Nat))
  /-- stack whose controller must accept -/
  stack : Nat
deriving DecidableEq, Repr, Inhabited

/-- A CT notice (R188, R194). -/
structure CtMsg where
  /-- record named -/
  record : Nat
  /-- flags byte of the TCP header, none when the packet is not TCP -/
  tcp : Option Nat
  /-- direction, true reply -/
  reply : Bool
deriving DecidableEq, Repr, Inhabited

/-- Deltas on their way to an owner (R188). -/
structure DeltaMsg where
  /-- record -/
  record : Nat
  /-- packets, original -/
  po : Nat
  /-- packets, reply -/
  pr : Nat
  /-- bytes, original -/
  bo : Nat
  /-- bytes, reply -/
  br : Nat
  /-- time in ms -/
  seen : Nat
deriving DecidableEq, Repr, Inhabited

/-- An export record waiting in a slice (R204, R205). -/
structure ExportRec where
  /-- export ring -/
  ring : Nat
  /-- reason code; R204 -/
  reason : Nat
  /-- record -/
  record : Nat
  /-- the record's image when it was formed; R204 -/
  image : Nat
  /-- since when it waits, in ps; R205 -/
  since : Nat
  /-- an end record, whose record is freed after it; R205 -/
  endRec : Bool
  /-- its record is freed with it, also from CLOSED; R191, R205 -/
  freeIt : Bool
  /-- records offered to its ring with it; R204 -/
  seq : Nat
deriving DecidableEq, Repr, Inhabited

/-- A wk.flow request on its way to an owner (R256). -/
structure WkReq where
  /-- core -/
  core : Nat
  /-- task -/
  task : Nat
  /-- request block as an image of 64 bytes -/
  req : Nat
  /-- record operand -/
  recOp : Nat
  /-- auxiliary image -/
  aux : Nat
deriving DecidableEq, Repr, Inhabited

/-- A pull running for a record about to leave ESTABLISHING or ACTIVE for AGED (R196). -/
structure Pull where
  /-- record -/
  record : Nat
  /-- the last_seen that made it due -/
  seen : Nat
  /-- pipelines whose answer is still due -/
  due : List Nat
  /-- the reason it is to age with; R204 -/
  reason : Nat
  /-- the AGE request that asked; R256 -/
  ask : Option WkReq
deriving DecidableEq, Repr, Inhabited

/-- Where a half's transfer stands (R178). -/
inductive Transfer where
  | none
  | leaving (toPartner : Bool)  -- draining, then every pipeline switches
deriving DecidableEq, Repr, Inhabited

/-- One flow slice (R174–R210). -/
structure Slice where
  /-- requests waiting, in arrival order; R189; reset none -/
  reqs : List Req := []
  /-- fetches in flight; R183; reset none -/
  fetches : List Req := []
  /-- hot lines; R184; reset none -/
  hot : List Hot := []
  /-- use counter of the store; R185; reset 0 -/
  clock : Nat := 0
  /-- writes waiting for HBM; R182; reset none -/
  writes : List HbmWrite := []
  /-- frame-check reports waiting: packet and result; R192; reset none -/
  reports : List (Nat × Bool) := []
  /-- CT notices waiting; R194; reset none -/
  cts : List CtMsg := []
  /-- peer-end words waiting: record, life and reason; R193; reset none -/
  peers : List (Nat × Nat × Nat) := []
  /-- port releases waiting: binding and port; R193; reset none -/
  releases : List (Nat × Nat) := []
  /-- block frees waiting: NAT_ADDR index and first port; R200; reset none -/
  blockFrees : List (Nat × Nat × Nat) := []
  /-- deltas waiting; R188; reset none -/
  deltas : List DeltaMsg := []
  /-- acknowledgements waiting: pipeline, ring and index; R214; reset none -/
  acks : List (Nat × Nat × Nat) := []
  /-- pull answers waiting: record and pipeline; R196; reset none -/
  pullAns : List (Nat × Nat) := []
  /-- pulls running; R196; reset none -/
  pulls : List Pull := []
  /-- wk.flow requests waiting; R256; reset none -/
  wk : List WkReq := []
  /-- export buffer, at most 4,096; R205; reset none -/
  exports : List ExportRec := []
  /-- the slice serves its own half; R210; reset 1 -/
  servesOwn : Bool := true
  /-- it serves its partner's half; R210; reset 0 -/
  servesPartner : Bool := false
  /-- a transfer runs; R178, R210; reset none -/
  transfer : Transfer := .none
  /-- next record number the sweep visits; R196; reset 0 -/
  sweepPos : Nat := 0
  /-- complete sweeps begun; R419; reset 0 -/
  sweeps : Nat := 0
  /-- tombstones with the sweep after which they are freed; R419; reset none -/
  tombs : List (Nat × Nat) := []
  /-- backend requests waiting; R203; reset none -/
  backends : List Req := []
  /-- backend requests parked for a REBIND task; R203; reset none -/
  rebinds : List Req := []
  /-- when the sweep under way began, in ps; R196; reset 0 -/
  sweepAt : Nat := 0
  /-- when the last horizon stamp was formed, in ps; R217; reset 0 -/
  stampAt : Nat := 0
deriving DecidableEq, Repr, Inhabited

/-- One half's record numbers (R177, R193). -/
structure Half where
  /-- numbers never yet used start here; reset 0 -/
  fresh : Nat := 0
  /-- numbers freed, lowest first; R193; reset none -/
  freed : List Nat := []
deriving DecidableEq, Repr, Inhabited

/-- The flow engine (R174–R210, R256). -/
structure Flow where
  /-- slices, by s; R174 -/
  slices : Map Slice := []
  /-- halves' free lists, by 2 × die + b; R177 -/
  halves : Map Half := []
  /-- replica stores, by pipeline; R186; reset none -/
  replicas : Map (List Replica) := []
  /-- outstanding requests with their waiting lists, by pipeline; R186; reset none -/
  waiting : Map (List Waiting) := []
  /-- ordered channels, by 16 × slice + pipeline; R187; reset none -/
  chan : Map (List ChanMsg) := []
  /-- when a record entered CLOSING or CLOSED, by record, in ms plus one; R195; reset 0, for none -/
  endAt : Map Nat := []
  /-- the first FIN of a record in CLOSING came from the reply direction, by record; R191; reset 0 -/
  finReply : Map Bool := []
  /-- the export reason with which a record ended, by record; R193; reset 0, for none -/
  endWhy : Map Nat := []
  /-- when the last export of a BINDING was written, by record, in ms plus one; R204; reset 0, for none -/
  bindExport : Map Nat := []
  /-- NAT pool cursors, by pool: address number and block; R199; reset 0 -/
  natCursor : Map Nat := []
deriving DecidableEq, Repr, Inhabited

/-- An entry of the unstable-flow table (R237). -/
structure Unstable where
  /-- record index -/
  record : Nat
  /-- chain count -/
  count : Nat
  /-- time of the last invalidation, in ps -/
  lastInv : Nat
  /-- authoritative mark -/
  mark : Bool
deriving DecidableEq, Repr, Inhabited

/-- A packet on the yo-yo path (R123, R235). -/
structure YoYo where
  /-- packet -/
  pkt : Nat
  /-- pass to replay; none for a recirculation -/
  pass : Option Nat
  /-- earliest time it may re-enter, in ps -/
  ready : Nat
deriving DecidableEq, Repr, Inhabited

/-- One pipeline's speculation (R211–R249) and intake (R32). -/
structure Pipe where
  /-- the speculation table, in lookup order, at most 8,192; R245; reset none -/
  passes : List Pass := []
  /-- the horizon of each slice; R217; reset none -/
  horizon : Map Nat := []
  /-- when each slice's horizon last advanced, in ps; R221; reset 0 -/
  advanced : Map Nat := []
  /-- stalled bits; R221, R249; reset 0 -/
  stalled : Nat := 0
  /-- the unstable-flow table, least recently used first, at most 256; R237; reset none -/
  unstable : List Unstable := []
  /-- the yo-yo path; R123, R235; reset none -/
  yoyo : List YoYo := []
  /-- the ingress holding buffer: packets in arrival order; R32; reset none -/
  intake : List Nat := []
  /-- XOFF sent for the holding buffer; R298; reset 0 -/
  holdXoff : Bool := false
  /-- up to when the intake's wait on a full speculation table is counted, in ps; none: it does not wait; R247 -/
  fullAt : Option Nat := none
deriving DecidableEq, Repr, Inhabited

/-! ### Flow cores and tasks -/

/-- A task slot (R262). -/
structure Task where
  /-- kind; R260 -/
  kind : Nat := 0
  /-- state 0–5; R262; reset FREE -/
  state : Nat := 0
  /-- class; R260 -/
  cls : Nat := 0
  /-- lock index; R260 -/
  lock : Nat := 0
  /-- ticket; R265 -/
  ticket : Nat := 0
  /-- it took a ticket and still holds it -/
  ticketed : Bool := false
  /-- lock granted; R265 -/
  granted : Bool := false
  /-- expected operands, bit 0 header, 1 record, 2 lookup, 3 timer; R260 -/
  expect : Nat := 0
  /-- present operands; R261 -/
  present : Nat := 0
  /-- finish tag; R272 -/
  tag : Nat := 0
  /-- order in which it became READY; R272 -/
  readyNo : Nat := 0
  /-- cancelled flag; R271 -/
  cancelled : Bool := false
  /-- record carried; R261 -/
  record : Nat := 0xFFFFFFFF
  /-- version at creation; R261 -/
  version : Nat := 0
  /-- packet of the header operand; R261 -/
  pkt : Option Nat := none
  /-- header operand, 256 bytes; R261 -/
  header : Nat := 0
  /-- record operand; R261 -/
  recOp : Nat := 0
  /-- lookup operand; R261 -/
  lookup : Nat := 0
  /-- timer operand; R261 -/
  timer : Nat := 0
  /-- the whole window kept over a handover; R268 -/
  window : List Host.Cell := []
  /-- when made, in ps; R285 -/
  made : Nat := 0
  /-- creation stamp; R261 -/
  stamp : Stamp := ⟨0, 0, 0⟩
  /-- first dispatch made; R285 -/
  dispatched : Bool := false
  /-- handovers; R268 -/
  hands : Nat := 0
  /-- when the timer operand is due, in ps; R259 -/
  due : Nat := 0
  /-- RUNNING since, in ps, and time already run; R253, R277 -/
  runAt : Nat := 0
  /-- time run before a pre-emption; R277 -/
  ran : Nat := 0
  /-- completion word held for the ticket; R267 -/
  word : Nat := 0
  /-- an outcome was given: COMMIT, REJECT or DENY; R271 -/
  outcome : Bool := false
  /-- mode of its class when made; R265 -/
  mode : Nat := 0
  /-- the pipeline whose packet made its item; R264 -/
  src : Option Nat := none
deriving DecidableEq, Repr, Inhabited

/-- A lock entry (R266). -/
structure Lock where
  /-- holder; R266; reset none -/
  holder : Option Nat := none
  /-- queue of tasks; R265; reset none -/
  queue : List Nat := []
  /-- next_ticket; 16 bits; R266; reset 0 -/
  next : Nat := 0
  /-- emit_ticket; 16 bits; R266; reset 0 -/
  emit : Nat := 0
  /-- tickets retired out of order; R267; reset none -/
  retired : List Nat := []
  /-- when the hold began, in ps; R266; reset 0 -/
  since : Nat := 0
  /-- TSK_HOLD_LONG raised for this hold; R266; reset 0 -/
  told : Bool := false
deriving DecidableEq, Repr, Inhabited

/-- A flow core (R250–R254). -/
structure Core where
  /-- program counter; 64 bits; R250; reset the image's entry point once loaded, 0 before -/
  pc : Nat := 0
  /-- x1–x31, x0 unlisted; 64 bits each; R250; DESIGN CHOICE 0 -/
  x : Map Nat := []
  /-- machine CSRs written, by number; R250; DESIGN CHOICE 0 -/
  csr : Map Nat := []
  /-- load-reserved address; R250; reset none -/
  resv : Option Nat := none
  /-- waiting in wfi; R250; reset 0 -/
  wfi : Bool := false
  /-- scratch memory, 64 KiB; R251; DESIGN CHOICE unlisted bytes read 0 -/
  scratch : List Host.Cell := []
  /-- the operand window, 2 KiB; R251, R261 -/
  window : List Host.Cell := []
  /-- task held; R254; reset none -/
  task : Option Nat := none
  /-- pre-empted task and its window; R276; reset none -/
  preempted : Option Nat := none
  /-- window of the pre-empted task; R276 -/
  savedWindow : List Host.Cell := []
  /-- blocked in wk.get since, in ps, with its rd; R273; reset none -/
  getting : Option (Nat × Nat) := none
  /-- blocked in wk.flow, with its rd; R254; reset none -/
  flowing : Option Nat := none
  /-- reply written by an owner: opcode, status and result words; R258; reset none -/
  reply : Option (Nat × Nat × List (Nat × Nat)) := none
  /-- a READ's record image for the record operand; R256 -/
  replyImage : Option Nat := none
  /-- task dispatched to pre-empt the core, whose trap is not taken yet; R276; reset none -/
  coming : Option Nat := none
  /-- wk_avail; R259, R275; DESIGN CHOICE 0 -/
  avail : Bool := false
  /-- since when it is available, in ps; R273 -/
  availAt : Nat := 0
deriving DecidableEq, Repr, Inhabited

/-- A cluster (R251, R289). -/
structure Cluster where
  /-- TSK_FW_STATE state; 3 bits; R289; reset 5 -/
  fw : Nat := 5
  /-- slot of the loaded image; R289; reset 0 -/
  slot : Nat := 0
  /-- version; 32 bits; R289; reset 0 -/
  version : Nat := 0
  /-- min_version of the loaded image; R278, R280; reset 0 -/
  minVersion : Nat := 0
  /-- entry point; R278; reset 0 -/
  entry : Nat := 0
  /-- instruction SRAM, 512 KiB; R251 -/
  isram : List Host.Cell := []
  /-- shared SRAM, 1 MiB; R251 -/
  shared : List Host.Cell := []
deriving DecidableEq, Repr, Inhabited

/-- The rollout (R280). -/
structure Rollout where
  /-- running; R289; reset 0 -/
  running : Bool := false
  /-- failed; R289; reset 0 -/
  failed : Bool := false
  /-- finished slices; R289; reset 0 -/
  done : Nat := 0
  /-- selected slices; R289; reset 0 -/
  selected : Nat := 0
  /-- slot; R289; reset 0 -/
  slot : Nat := 0
  /-- finished clusters; 24 bits; R289; reset 0 -/
  clusters : Nat := 0
  /-- drain_us; R280; reset 0 -/
  drainUs : Nat := 0
  /-- the cluster it works on; R280; reset none -/
  at_ : Option Nat := none
  /-- when its drain began, in ps; R280; reset 0 -/
  since : Nat := 0
deriving DecidableEq, Repr, Inhabited

/-- Tasks, locks, cores and clusters (R250–R289). -/
structure Tsk where
  /-- task slots, by 65536 × slice + number; R262 -/
  slots : Map Task := []
  /-- lock entries, by 16384 × slice + index; R266 -/
  locks : Map Lock := []
  /-- V of each slice; 32 bits; R272; reset 0 -/
  vtime : Map Nat := []
  /-- last_c, by 64 × slice + class; 32 bits; R272; reset 0 -/
  last : Map Nat := []
  /-- READY order counters, by slice; R272; reset 0 -/
  readyCount : Map Nat := []
  /-- classes that some cluster serves, as last seen, by 64 × slice + class; R274; reset 0 -/
  served : Map Bool := []
  /-- hardware items waiting for a slot, by slice: the task to be made; R264; reset none -/
  items : Map (List Task) := []
  /-- cores, by global number; R250 -/
  cores : Map Core := []
  /-- clusters, by global number; R289 -/
  clusters : Map Cluster := []
  /-- image slots found valid by a LAST write, by slot; R279; reset none -/
  slotValid : Map Bool := []
  /-- the rollout; R280 -/
  rollout : Rollout := {}
  /-- the image slot a slice last switched to, plus one, by slice; R284; reset 0, for none -/
  switched : Map Nat := []
deriving DecidableEq, Repr, Inhabited

/-! ### Cells, fabric, egress -/

/-- A cell in use (R290, R292). -/
structure CellRec where
  /-- owner tag; 16 bits; R292 -/
  tag : Nat
  /-- frame that uses it -/
  pkt : Nat
  /-- its place in the frame -/
  idx : Nat
  /-- used bytes; R290 -/
  used : Nat
  /-- link to the next cell; R290 -/
  next : Option Nat
  /-- payload CRC-32C; R290 -/
  crc : Nat
  /-- seen mark; R295 -/
  seen : Bool
  /-- suspect in the last completed audit; R296 -/
  suspect : Bool
  /-- the pipeline it came over a link for; none on the die where the frame arrived; R308, R315 -/
  dst : Option Nat
deriving DecidableEq, Repr, Inhabited

/-- A requester that waits for cells (R294). -/
structure Waiter where
  /-- requester of its die: 0–3 receive, 4–7 replicators, 8–11 link receivers, 12–15 inject, each by pipeline mod 4 -/
  req : Nat
  /-- the frame, or for an inject the ring and index of its descriptor as 2^32 × ring + index -/
  pkt : Nat
  /-- cells it needs -/
  n : Nat
  /-- lossless; R299 -/
  ll : Bool
deriving DecidableEq, Repr, Inhabited

/-- Where a copy goes once it has its cells (R318). -/
inductive CopyTo where
  /-- to a port's queue -/
  | port (port queue : Nat)
  /-- to a punt ring; mirror says that it is a session's copy -/
  | punt (u : Punt) (mirror : Bool)
  /-- to a COPY task at a slice -/
  | work (slice : Nat) (k : Task)
deriving DecidableEq, Repr, Inhabited

/-- A received pause (R301) and the watchdog (R303) of a port and priority. -/
structure PauseSt where
  /-- paused until, in ps; R301; reset none -/
  until_ : Option Nat := none
  /-- paused from, in ps: 200 ns after the frame; R301; reset 0 -/
  from_ : Nat := 0
  /-- held continuously since, in ps; R303; reset none -/
  heldSince : Option Nat := none
  /-- tripped; R303; reset 0 -/
  tripped : Bool := false
  /-- last XOFF received, in ps; R303; reset 0 -/
  lastXoff : Nat := 0
  /-- XOFF sent for the ingress account, and when, in ps; R300; reset none -/
  sent : Option Nat := none
  /-- the ingress account, in cells; R299; reset 0 -/
  account : Nat := 0
  /-- cells of it taken from the headroom; R300; reset 0 -/
  headroom : Nat := 0
deriving DecidableEq, Repr, Inhabited

/-- Cell buffers (R290–R303). -/
structure Buf where
  /-- cells in use, by 2^19 × die + address; R290; reset none -/
  cells : Map CellRec := []
  /-- bank last used by a requester, by 16 × die + requester; R291; reset 0 -/
  bank : Map Nat := []
  /-- requesters waiting for cells, by die, in order of arrival; R294; reset none -/
  wait : Map (List Waiter) := []
  /-- requester granted last by the arbiter of a die; R294; reset 0 -/
  arb : Map Nat := []
  /-- up to when the cc with an allocation waiting are counted, by die, in ps; R320; reset 0 -/
  waitAt : Map Nat := []
  /-- copies that wait for their cells, oldest first, with where they go; R294, R318; reset none -/
  copies : List (Nat × CopyTo) := []
  /-- the tag under which its holder lists a cell, by cell; R292, R293; reset none -/
  lists : Map Nat := []
  /-- when the last audit of a die began, in ps; R295; none yet -/
  auditAt : Map (Option Nat) := []
  /-- pauses and accounts, by 8 × port + priority; R299–R303 -/
  pause : Map PauseSt := []
  /-- punt account, by pipeline; R299; reset 0 -/
  punt : Map Nat := []
  /-- an audit runs on the die; R295; reset 0 -/
  auditing : Map Bool := []
  /-- leaked_last; 13 bits; R322; reset 0 -/
  leakedLast : Map Nat := []
  /-- mirror session counts, by 256 × pipeline + session; R318; reset 0 -/
  session : Map Nat := []
deriving DecidableEq, Repr, Inhabited

/-- One frame, or copy, in a virtual output queue (R305). -/
structure VoqE where
  /-- frame -/
  pkt : Nat
  /-- egress ports with the VLAN a copy takes; R315 -/
  ports : List (Nat × Option Nat)
  /-- egress queue; R325 -/
  queue : Nat
  /-- cells sent so far -/
  sent : Nat
  /-- a multicast or mirror copy; R315 -/
  copy : Bool
  /-- hold time in µs; R316 -/
  hold : Nat
deriving DecidableEq, Repr, Inhabited

/-- A cell on a die link (R308). -/
structure LinkCell where
  /-- pair sequence number; R311 -/
  seq : Nat
  /-- source pipeline -/
  src : Nat
  /-- destination pipeline -/
  dst : Nat
  /-- class; R308 -/
  cls : Nat
  /-- first cell of its frame -/
  first : Bool
  /-- last cell of its frame -/
  last : Bool
  /-- link_seq; R308 -/
  lseq : Nat
  /-- lane it travels on; R309 -/
  lane : Nat
  /-- frame -/
  ent : VoqE
  /-- its place in the frame -/
  idx : Nat
  /-- sent at, in ps; R309 -/
  at_ : Nat
  /-- on the wire, not yet arrived -/
  wire : Bool
  /-- used payload bytes; R308 -/
  used : Nat
  /-- lossless; R308 -/
  lossless : Bool
  /-- payload CRC-32C; R308 -/
  pcrc : Nat
  /-- highest link_seq of the other direction received in order; R308 -/
  ack : Nat
  /-- CRC-32C over bytes 27–0 of the overhead and the payload; R308 -/
  lcrc : Nat
deriving DecidableEq, Repr, Inhabited

/-- One direction of a die link (R309, R310). -/
structure LinkDir where
  /-- next link_seq; 32 bits; R308; reset 0 -/
  next : Nat := 0
  /-- cells not yet acknowledged; R309; reset none -/
  unacked : List LinkCell := []
  /-- lane last used; R309; reset 0 -/
  lane : Nat := 0
  /-- highest link_seq received in order, plus one; R308; reset 0 -/
  got : Nat := 0
  /-- link_seq accepted ahead of it; R309; reset none -/
  ahead : List Nat := []
  /-- negative acknowledgements on their way back; R309; reset none -/
  naks : List Nat := []
  /-- acknowledgements on their way back; R308; reset none -/
  acks : List Nat := []
  /-- lcrc errors of each lane in this interval; R310; reset 0 -/
  errs : Map Nat := []
  /-- when each lane's interval began, in ps; R310; reset 0 -/
  since : Map Nat := []
deriving DecidableEq, Repr, Inhabited

/-- A die link (R19, R310, R324). -/
structure DieLink where
  /-- lanes that work, bit 16 the spare; 17 bits; R324; reset 0 -/
  laneOk : Nat := 0
  /-- lanes in use; R310; reset 0 -/
  inUse : Nat := 0
  /-- the link carries traffic; R324; reset 0 -/
  up : Bool := false
  /-- from the lower-named die; R309 -/
  fwd : LinkDir := {}
  /-- toward it; R309 -/
  bwd : LinkDir := {}
deriving DecidableEq, Repr, Inhabited

/-- A resequencer's pair (R311, R312). -/
structure Reseq where
  /-- expected seq E; 16 bits; R311; reset 0 -/
  e : Nat := 0
  /-- cells held ahead of E; R311; reset none -/
  held : List LinkCell := []
  /-- gap timer started, in ps; R312; reset none -/
  gap : Option Nat := none
  /-- frames whose cells are being discarded; R312; reset none -/
  lost : List Nat := []
deriving DecidableEq, Repr, Inhabited

/-- The fabric (R304–R316, R324). -/
structure Fab where
  /-- virtual output queues, by 256 × source + 16 × destination + class; R305; reset none -/
  voq : Map (List VoqE) := []
  /-- next class a source offers, by 16 × source + destination; R305; reset 0 -/
  rr : Map Nat := []
  /-- grant spinners, by 16 × copy + destination; R306; reset 0 -/
  grant : Map Nat := []
  /-- accept spinners, by 16 × copy + source; R306; reset 0 -/
  accept : Map Nat := []
  /-- q0_ok; R324; reset 1 -/
  q0ok : Bool := true
  /-- q2_ok; R324; reset 1 -/
  q2ok : Bool := true
  /-- compare; R324; reset 1 -/
  compare : Bool := true
  /-- active; R324; reset 0 -/
  active : Bool := false
  /-- a self-check stops granting; R307; reset 0 -/
  checking : Bool := false
  /-- when a copy's self-check last ended, in ps; R307; reset 0 -/
  checkAt : Nat := 0
  /-- cells admitted and not dequeued, by 8 × destination + class; R302; reset 0 -/
  admitted : Map Nat := []
  /-- classes withdrawn, by the same key; R302; reset 0 -/
  withdrawn : Map Bool := []
  /-- die links, by number; R308 -/
  links : Map DieLink := []
  /-- next seq of a pair, by 16 × source + destination; 16 bits; R311; reset 0 -/
  seq : Map Nat := []
  /-- resequencers, by 16 × destination + source; R311 -/
  reseq : Map Reseq := []
deriving DecidableEq, Repr, Inhabited

/-- A frame in an egress queue or a launch list (R325, R327). -/
structure QEnt where
  /-- frame -/
  pkt : Nat
  /-- queue 0–15 -/
  queue : Nat
  /-- VLAN of a multicast copy; R314 -/
  vid : Option Nat
  /-- a copy; R315 -/
  copy : Bool
  /-- hold time in µs, 0 none; R316 -/
  hold : Nat
  /-- pipeline it came from -/
  src : Nat
  /-- cells; R290 -/
  cells : Nat
  /-- when enqueued, in ps; R346 -/
  enq : Nat
  /-- charge when selected; R330 -/
  charge : Nat
  /-- group it was selected from; R326 -/
  group : Nat
  /-- the queue's committed bucket was charged; R334 -/
  comQ : Bool
  /-- the group's committed bucket was charged; R334 -/
  comG : Bool
  /-- its last cell has arrived -/
  whole : Bool
  /-- ct_enable and the rates allow cut-through, as they stood when its egress stage began; R24, R29 -/
  ct : Bool
  /-- it has waited in the launch list past a gate close; R349 -/
  waited : Bool
deriving DecidableEq, Repr, Inhabited

/-- An entry of a gate list (R339). -/
structure GateEntry where
  /-- interval_ns -/
  ns : Nat
  /-- gates -/
  gates : Nat
deriving DecidableEq, Repr, Inhabited

/-- A gate list (R339, R340). -/
structure GateList where
  /-- base_time -/
  base : Stamp
  /-- cycle_ns -/
  cycle : Nat
  /-- cycle_ext_ns -/
  ext : Nat
  /-- OPEN flag -/
  open_ : Bool
  /-- entries -/
  entries : List GateEntry
  /-- start time in 2^-16 ns of the time counter; R340 -/
  start : Nat
  /-- the host data as loaded, for TABLE_READ; R348 -/
  image : List Byte
deriving DecidableEq, Repr, Inhabited

/-- A port's gates (R339–R343). -/
structure Gates where
  /-- running list; reset none -/
  running : Option GateList := none
  /-- pending list; reset none -/
  pending : Option GateList := none
  /-- open gates; 16 bits; reset all open -/
  mask : Nat := 0xFFFF
  /-- start of the running cycle, in 2^-16 ns of the time counter; R341; reset 0 -/
  cycle : Nat := 0
  /-- next entry; R339; reset 0 -/
  entry : Nat := 0
  /-- time of the next change, in 2^-16 ns of the time counter; R342; reset 0 -/
  next : Nat := 0
  /-- the current cycle is stretched to a later start; R341, R343; reset 0 -/
  stretched : Bool := false
  /-- gates held from a time-unit reset until a step is accepted; R343; reset 0 -/
  held : Bool := false
deriving DecidableEq, Repr, Inhabited

/-- The frame a port is sending (R328, R366). -/
structure Sending where
  /-- the entry -/
  ent : QEnt
  /-- transmit stamp; R366 -/
  stamp : Stamp
  /-- the bytes sent, without FCS; R344 -/
  bytes : List Byte
  /-- ends with a stomped FCS; R231 -/
  stomp : Bool
  /-- the transmit stamp was taken with compensation ready; R369 -/
  ok : Bool
deriving DecidableEq, Repr, Inhabited

/-- Sample state of a queue (R346). -/
structure QSample where
  /-- largest depth_cells; reset 0 -/
  maxCells : Nat := 0
  /-- frames started; reset 0 -/
  frames : Nat := 0
  /-- max_delay in ns; reset 0 -/
  maxDelay : Nat := 0
  /-- sum_delay in ns; reset 0 -/
  sumDelay : Nat := 0
deriving DecidableEq, Repr, Inhabited

/-- A head's finish tag (R330). -/
structure HeadTag where
  /-- frame it was formed for -/
  pkt : Nat
  /-- tag -/
  tag : Nat
  /-- last tag as it stood before the formation -/
  prev : Nat
deriving DecidableEq, Repr, Inhabited

/-- Egress (R325–R352). -/
structure Egs where
  /-- egress queues, by 16 × port + queue; R325; reset none -/
  queues : Map (List QEnt) := []
  /-- launch lists, by port, oldest first, at most 8; R327; reset none -/
  launch : Map (List QEnt) := []
  /-- V_port; 32 bits; R330; reset 0 -/
  vport : Map Nat := []
  /-- V_g, by 8 × port + group; 32 bits; R330; reset 0 -/
  vgroup : Map Nat := []
  /-- last_q, by 16 × port + queue; 32 bits; R330; reset 0 -/
  lastQ : Map Nat := []
  /-- last_g, by 8 × port + group; 32 bits; R330; reset 0 -/
  lastG : Map Nat := []
  /-- head tags of queues, by 16 × port + queue; R330; reset none -/
  headQ : Map (Option HeadTag) := []
  /-- head tags of groups, by 8 × port + group; R330; reset none -/
  headG : Map (Option HeadTag) := []
  /-- peak levels in 2^-16 byte, by 4096 × die + node; R333; reset at the size -/
  peak : Map Int := []
  /-- committed levels, by the same key; R333; reset at the size, 0 -/
  comm : Map Int := []
  /-- shapers written and applied at the next update, by the same key: image and FORGIVE; R338; reset none -/
  newShaper : Map (Option (Nat × Bool)) := []
  /-- gates, by port; R339 -/
  gates : Map Gates := []
  /-- frames being sent, by port; R328; reset none -/
  sending : Map (Option Sending) := []
  /-- links up, by port; R461; reset down -/
  up : Map Bool := []
  /-- formation in force, bits [6:0] of PHY_OCTET_CFG, by octet; R24; reset eight 200GbE ports -/
  formation : Map Nat := []
  /-- sample state, by 16 × port + queue; R346 -/
  samples : Map QSample := []
  /-- receive counters of a port: frames, bytes with FCS, and frames with an FCS error; R231, R242; reset 0 -/
  rx : Map (Nat × Nat × Nat) := []
  /-- frames sent: port and bytes, in order; R301, R328 -/
  wire : List (Nat × List Byte × Bool) := []
  /-- when the last shaper update took place, in ps; R333; reset 0 -/
  shaperAt : Nat := 0
  /-- when a die's queues were last sampled, in ps; R346; reset 0 -/
  sampleAt : Map Nat := []
deriving DecidableEq, Repr, Inhabited

/-! ### Time -/

/-- A TOUT program (R378). -/
structure Tout where
  /-- first leading edge -/
  start : Stamp
  /-- period in 2^-16 ns; 0 for a one-shot -/
  period : Nat
  /-- width in ns -/
  width : Nat
  /-- active_low -/
  low : Bool
  /-- next edge in 2^-16 ns of the counter -/
  next : Nat
  /-- the next edge is a leading edge -/
  leading : Bool
  /-- its first edge has been driven -/
  started : Bool
  /-- to stop after its pulse -/
  stop : Bool
deriving DecidableEq, Repr, Inhabited

/-- A SyncE output (R381). -/
structure SyncE where
  /-- enabled; reset 0 -/
  enabled : Bool := false
  /-- lane; 9 bits; reset 0 -/
  lane : Nat := 0
  /-- divider; 12 bits; reset 0 -/
  divider : Nat := 0
  /-- squelched or disabled; R384; reset 0 -/
  squelched : Bool := false
  /-- lock held since, in ps; R381; reset 0 -/
  since : Nat := 0
deriving DecidableEq, Repr, Inhabited

/-- The time unit (R353–R387). -/
structure Tim where
  /-- seconds; 64 bits; R353; reset 0 -/
  sec : Nat := 0
  /-- nanoseconds; R353; reset 0 -/
  ns : Nat := 0
  /-- fraction, 44 bits; R354; reset 0 -/
  frac : Nat := 0
  /-- rate r; signed 32 bits; R354; reset 0 -/
  rate : Int := 0
  /-- time generation; 8 bits; R384; reset 0 -/
  gen : Nat := 0
  /-- tref_ok; R384; reset 0 -/
  trefOk : Bool := false
  /-- pll_locked; R384; reset 0 -/
  locked : Bool := false
  /-- holdover; R384; reset 0 -/
  holdover : Bool := false
  /-- when holdover began, in ps; R359; reset 0 -/
  holdAt : Nat := 0
  /-- TRACEABLE; R363; reset 0 -/
  traceable : Bool := false
  /-- step_done; R361; reset 0 -/
  stepDone : Bool := false
  /-- copy in use; R384; reset 0 -/
  copy : Bool := false
  /-- snap registers: fraction, ns, seconds; R384; reset 0 -/
  snapFrac : Nat := 0
  /-- snap ns -/
  snapNs : Nat := 0
  /-- snap seconds -/
  snapSec : Nat := 0
  /-- TOUT programs: the one driving, by output; R378; reset none -/
  tout : Map (Option Tout) := []
  /-- TOUT programs that replace at their first edge, by output; R378; reset none -/
  toutNew : Map (Option Tout) := []
  /-- levels driven on TOUT; R378; reset 0 -/
  toutLevel : Nat := 0
  /-- TIN: time of the last capture in ps and sequence, by input; R380; reset none -/
  tin : Map (Option Nat) := []
  /-- capture sequence, by input; 16 bits; R380; reset 0 -/
  tinSeq : Map Nat := []
  /-- SyncE outputs; R381 -/
  synce : Map SyncE := []
  /-- peer delays, by port; R364, R385; reset 0 -/
  peer : Map Nat := []
  /-- TIM_PORT_COMP, by lane: ready, rx_comp, tx_comp; R385; reset 0 -/
  comp : Map (Bool × Nat × Nat) := []
  /-- holdover milliseconds already counted; R386; reset 0 -/
  holdMs : Nat := 0
deriving DecidableEq, Repr, Inhabited

/-! ### HBM -/

/-- A request at an HBM port (R403, R404). -/
structure HbmReq where
  /-- logical address, 2^35 × stack + offset -/
  addr : Nat
  /-- a write of these bytes, none for a read -/
  data : Option (List Byte)
  /-- bytes concerned -/
  len : Nat
  /-- half whose flow data it concerns -/
  slice : Option Nat
deriving DecidableEq, Repr, Inhabited

/-- A place within a stack (R399, R400). -/
structure DramLoc where
  /-- physical rank, 0–2 -/
  rank : Nat
  /-- channel; 4 bits -/
  channel : Nat
  /-- pseudo-channel; 1 bit -/
  pseudo : Nat
  /-- row; 14 bits -/
  row : Nat
  /-- bank group as sent; 2 bits -/
  bankGroup : Nat
  /-- bank as sent; 2 bits -/
  bank : Nat
  /-- 64-byte block of the page; 4 bits -/
  column : Nat
deriving DecidableEq, Repr, Inhabited

/-- A stack's controller (R388–R428). -/
structure Stack where
  /-- requests waiting at ports FLOW, CORE, DMA, CUS, SCRUB, by 0–4; R403; reset none -/
  ports : Map (List HbmReq) := []
  /-- issue credits of the ports, by 0–4; R404; reset 0 -/
  credit : Map Nat := []
  /-- panic; R426; reset 0 -/
  panic : Bool := false
  /-- temp_c; 8 bits; R426; reset 0 -/
  temp : Nat := 0
  /-- refresh_2x; R426; reset 0 -/
  refresh2x : Bool := false
  /-- at or below 82 °C since, in ps; R401; reset none -/
  coolSince : Option Nat := none
  /-- above alarm_c; R401; reset 0 -/
  hot : Bool := false
  /-- trained; R426; reset 0 -/
  trained : Bool := false
  /-- retained; R426; reset 0 -/
  retained : Bool := false
  /-- held in self-refresh over a chip reset; R423; reset 0 -/
  selfRefresh : Bool := false
  /-- refreshes postponed, by bank; R402; reset 0 -/
  postponed : Map Nat := []
  /-- corrected errors this hour, by rank; R409; reset 0 -/
  ce : Map Nat := []
  /-- hour in which they are counted, in ps; R409; reset 0 -/
  ceHour : Nat := 0
  /-- HBM_CE_RATE raised this hour, by rank; R409; reset 0 -/
  ceTold : Map Bool := []
  /-- next block probed, by rank; R432; reset 0 -/
  probe : Map Nat := []
  /-- next block scrubbed, by rank; R408; reset 0 -/
  scrub : Map Nat := []
  /-- command-parity retries of the request at the head; R410; reset 0 -/
  retries : Nat := 0
  /-- last finished migration of a logical rank of the stack: outcome; R426; reset 0 -/
  outcome : Nat := 0
  /-- chunks of it; R426; reset 0 -/
  chunks : Nat := 0
  /-- its source rank, as 3 × stack + k; R426; reset 0 -/
  migF : Nat := 0
  /-- its target rank; R426; reset 0 -/
  migS : Nat := 0
  /-- since when panic's cycles are not yet counted, in ps; R427; reset 0 -/
  panicAt : Nat := 0
  /-- since when the halved-refresh cycles are not yet counted, in ps; R427; reset 0 -/
  fastAt : Nat := 0
  /-- where the last request issued went in the stack; R399; reset none -/
  sent : Option DramLoc := none
  /-- when the temperature was last read, in ps; R401; reset 0 -/
  tempAt : Nat := 0
  /-- when a bank's refresh last fell due, in ps, by bank; R401, R402; reset 0 -/
  refAt : Map Nat := []
  /-- when the patrol scrub last read a block, in ps, by rank; R408; reset 0 -/
  scrubAt : Map Nat := []
  /-- when the probe last read a block, in ps, by rank; R432; reset 0 -/
  probeAt : Map Nat := []
deriving DecidableEq, Repr, Inhabited

/-- A migration (R411–R416). -/
structure Mig where
  /-- logical rank, 3 × stack + k -/
  m : Nat
  /-- physical rank copied from -/
  f : Nat
  /-- physical rank copied to -/
  s : Nat
  /-- chunks done -/
  n : Nat
  /-- started by a failure, not by the driver or ce_migrate -/
  failure : Bool
  /-- abort requested -/
  abort : Bool
  /-- it fills from zero after contents were lost; R424 -/
  fill : Bool
  /-- when the chunk under way began, in ps; R412 -/
  at_ : Nat
deriving DecidableEq, Repr, Inhabited

/-- All stacks and the rank map (R388–R428). -/
structure Hbm where
  /-- stacks, by d -/
  hbms : Map Stack := []
  /-- logical rank to physical rank, plus one; 0 unmapped; by 3 × d + k; R389; reset stored, default R390 -/
  map : Map Nat := []
  /-- physical rank states, by 3 × d + k; R392; reset stored, default R390 -/
  rank : Map Nat := []
  /-- the migration running; R411; reset none -/
  mig : Option Mig := none
  /-- a driver or ce_migrate request that waits: logical rank; R411; reset none -/
  want : Option Nat := none
  /-- poisoned blocks, by logical block address; R407; reset none -/
  poison : Map Bool := []
  /-- 64-byte blocks of the mirror area that neither copy can supply, by offset / 64; R395; reset none -/
  mirrorBad : Map Bool := []
deriving DecidableEq, Repr, Inhabited

/-! ### Integrity, custodians, logbook, life cycle, power -/

/-- A feed engine (R442, R443). -/
structure Feed where
  /-- CRC register; 64 bits; R443; reset CRC-32C's Init -/
  crc : Nat := 0xFFFFFFFF
  /-- polynomial in force; R455; reset 1 -/
  poly : Nat := 1
  /-- bytes fed since start; 32 bits; R455; reset 0 -/
  count : Nat := 0
deriving DecidableEq, Repr, Inhabited

/-- Check engines and the guarantee (R429–R455). -/
structure Chk where
  /-- feed engines, by 0–15; R442 -/
  feeds : Map Feed := []
  /-- bits [5:0] of CHK_GUARD_STATUS as last shown; R455; reset scrub only -/
  guard : Nat := 2
  /-- rails outside their tolerance; R430, R522; reset none -/
  badRails : List Nat := []
  /-- the monitors have reported once; R430; reset 0 -/
  monitored : Bool := false
  /-- next word of the SRAM scrub, by die; R431; reset 0 -/
  sram : Map Nat := []
deriving DecidableEq, Repr, Inhabited

/-- A checkpoint copy (R448). -/
structure Ckpt where
  /-- length of the body -/
  length : Nat
  /-- generation -/
  gen : Nat
  /-- seq -/
  seq : Nat
  /-- stamp -/
  stamp : Stamp
  /-- firmware version -/
  image : Nat
  /-- crc; R448 -/
  crc : Nat
  /-- valid mark -/
  valid : Nat
  /-- the body: housekeeping positions -/
  body : List Nat
deriving DecidableEq, Repr, Inhabited

/-- The custodians and the string (R445–R456). -/
structure Cus where
  /-- holder; 0 none, 1 CUS-A, 2 CUS-B; R456; reset 0 -/
  holder : Nat := 0
  /-- string_fault; R446; reset 0 -/
  fault : Bool := false
  /-- adopted; R446; reset 0 -/
  adopted : Bool := false
  /-- string generation; 32 bits; R446; reset stored, DESIGN CHOICE 0 -/
  gen : Nat := 0
  /-- provisional generation; R446; reset 0 -/
  prov : Nat := 0
  /-- state of CUS-A; 3 bits; R456; reset 0 -/
  aState : Nat := 0
  /-- state of CUS-B; R456; reset 0 -/
  bState : Nat := 0
  /-- last kick of the watchdog, in ps; R447; reset 0 -/
  kick : Nat := 0
  /-- checkpoint copies, by 2 × place + slot; R448; reset none -/
  ckpts : Map (Option Ckpt) := []
  /-- seq of the last checkpoint; 64 bits; R456; reset 0 -/
  seq : Nat := 0
  /-- when it completed, in ps; R456; reset none -/
  ckptAt : Option Nat := none
  /-- slot the next checkpoint is written to; R448; reset 0 -/
  slot : Nat := 0
  /-- CUS_PRELOAD_STATUS state; R456; reset 0 -/
  preload : Nat := 0
  /-- its cause; R456; reset 0 -/
  cause : Nat := 0
  /-- the image preloaded in the standby; R452; reset none -/
  image : List Byte := []
  /-- the takeover uses a preloaded image; R452; reset 0 -/
  usesPreload : Bool := false
  /-- release time, in ps; R450; reset 0 -/
  releasedAt : Nat := 0
  /-- housekeeping positions loaded: the body of the newest checkpoint; R449; reset none -/
  body : List Nat := []
  /-- firmware version that runs; R448; reset 0 -/
  version : Nat := 0
  /-- actuator settings last written, by actuator number; R446; reset 0 -/
  actuators : Map Nat := []
deriving DecidableEq, Repr, Inhabited

/-- A logbook record (R457). -/
structure LogRec where
  /-- serial; 48 bits; R459 -/
  serial : Nat
  /-- the event -/
  ev : Ev
  /-- nanoseconds of the first occurrence -/
  ns : Nat
  /-- seconds [31:0] of it -/
  sec : Nat
  /-- repeat -/
  repeatN : Nat
  /-- flags -/
  flags : Nat
  /-- accepted at, in ps; R464 -/
  at_ : Nat
  /-- valid byte; R458 -/
  valid : Nat
deriving DecidableEq, Repr, Inhabited

/-- A statistics entry (R469, R470). -/
structure Stat where
  /-- interval bucket counts -/
  buckets : Map Nat := []
  /-- interval minimum; reset 0x7FFFFFFF -/
  imin : Int := 0x7FFFFFFF
  /-- interval maximum; reset −0x80000000 -/
  imax : Int := -0x80000000
  /-- interval sum -/
  isum : Int := 0
  /-- lifetime minimum -/
  lmin : Int := 0x7FFFFFFF
  /-- lifetime maximum -/
  lmax : Int := -0x80000000
  /-- lifetime sample count -/
  count : Nat := 0
deriving DecidableEq, Repr, Inhabited

/-- A statistics snapshot (R470). -/
structure Snapshot where
  /-- time -/
  stamp : Stamp
  /-- newest serial -/
  serial : Nat
  /-- boot count -/
  boot : Nat
  /-- stat_period_min -/
  period : Nat
  /-- entries, by source -/
  entries : Map Stat
deriving DecidableEq, Repr, Inhabited

/-- The boot flash's own contents beside the event area (R467). -/
structure Flash where
  /-- boot image slot; R467; DESIGN CHOICE 0 -/
  image : Nat := 0
  /-- logbook controller selection; R18; reset 0 when no selection is held -/
  logCopy : Bool := false
  /-- boot count; R466; DESIGN CHOICE 0 -/
  boots : Nat := 0
  /-- next serial; R459; DESIGN CHOICE 0 -/
  serial : Nat := 0
  /-- bad sectors; R468; reset none -/
  bad : List Nat := []
  /-- stored rank map, by logical rank; R391; none: the default of R390 -/
  map : Option (Map Nat) := none
  /-- stored rank states; R391 -/
  rank : Map Nat := []
  /-- migration checkpoint; R416 -/
  mig : Option Mig := none
  /-- custodian image slots the device has written, by 0–1; R467; reset none -/
  images : Map (List Byte) := []
  /-- persisted records, oldest first; R464; reset none -/
  events : List LogRec := []
  /-- oldest kept serial; R468; reset 0 -/
  oldest : Nat := 0
  /-- snapshots, oldest first; R470; reset none -/
  snaps : List Snapshot := []
  /-- sector the next record goes to; R468; reset 0 -/
  sector : Nat := 0
deriving DecidableEq, Repr, Inhabited

/-- The logbook controller (R457–R476). -/
structure Log where
  /-- copy in use; R17; reset stored -/
  copy : Bool := false
  /-- staged records, oldest first, at most 32,768; R464; reset none -/
  staged : List LogRec := []
  /-- serial last given to each source, with what is needed to fold: by source; R463; reset none -/
  newest : Map Nat := []
  /-- next serial; 48 bits; R459, R476 -/
  next : Nat := 0
  /-- events lost while staging is full; R465; reset 0 -/
  lost : Nat := 0
  /-- first of them: code, source and ns; R465; reset none -/
  lostFirst : Option (Nat × Nat × Nat) := none
  /-- freeze; R476; reset 0 -/
  freeze : Bool := false
  /-- clearing; R476; reset 0 -/
  clearing : Bool := false
  /-- flash_ok; R476; reset 0 -/
  flashOk : Bool := false
  /-- cursor; 48 bits; R476; reset 0 -/
  cursor : Nat := 0
  /-- a load of the window runs; R471; reset 0 -/
  loading : Bool := false
  /-- LOG_WIN as an image of 32 bytes; R476; reset 0 -/
  win : Nat := 0
  /-- torn; R476; reset 0 -/
  torn : Bool := false
  /-- outside; R476; reset 0 -/
  outside : Bool := false
  /-- ready; R476; reset 1 -/
  ready : Bool := true
  /-- statistics, by source; R469 -/
  stats : Map Stat := []
  /-- LOG_STAT_WIN as an image of 128 bytes; R472; reset 0 -/
  statWin : Nat := 0
  /-- sectors a clear's erase still erases; R474; reset 0 -/
  clearAt : Nat := 0
  /-- when the last snapshot was written, or start-up began, in ps; R470; reset 0 -/
  snapAt : Nat := 0
  /-- staged records that the last reset lost; R466; reset 0 -/
  bootLost : Nat := 0
  /-- when a statistical source was last sampled, in ps, by source; R469; reset 0 -/
  sampleAt : Map Nat := []
deriving DecidableEq, Repr, Inhabited

/-- A fuse word in its three stored copies (R479). -/
structure Fuse where
  /-- first -/
  a : Nat := 0
  /-- second -/
  b : Nat := 0
  /-- third -/
  c : Nat := 0
deriving DecidableEq, Repr, Inhabited

/-- An owner key slot (R484). -/
structure KeySlot where
  /-- hash, 384 bits -/
  hash : Fuse := {}
  /-- slot-valid word complete -/
  valid : Fuse := {}
  /-- a fuse of it is programmed -/
  used : Bool := false
deriving DecidableEq, Repr, Inhabited

/-- One life-cycle copy's fuses (R479). -/
structure Fuses where
  /-- state word; R477; DESIGN CHOICE 0 BLANK -/
  state : Fuse := {}
  /-- key slots, by 0–3; R484; DESIGN CHOICE unprogrammed -/
  slots : Map KeySlot := []
  /-- zeroise_pending; R490; DESIGN CHOICE 0 -/
  pending : Fuse := {}
  /-- zeroise_done; R490; DESIGN CHOICE 0 -/
  done : Fuse := {}
deriving DecidableEq, Repr, Inhabited

/-- The life-cycle and identity block (R477–R496). -/
structure Lcs where
  /-- fuses of the copy on Q0; R479 -/
  q0 : Fuses := {}
  /-- fuses of the copy on Q2; R479 -/
  q2 : Fuses := {}
  /-- identity fuses, by register address; R491; DESIGN CHOICE as reset gives -/
  identity : Map Nat := []
  /-- the state in force; R477 -/
  state : Nat := 0
  /-- copy_mismatch; R496; reset 0 -/
  mismatch : Bool := false
  /-- open mask in force; R487; reset 0 -/
  open_ : Nat := 0
  /-- debug paths were open when the last reset came; R488; reset 0 -/
  wasOpen : Nat := 0
  /-- log_clear of LCS_AUTH; R496; reset 0 -/
  logClear : Bool := false
  /-- nonce; 128 bits; R485; random -/
  nonce : Nat := 0
  /-- busy; R496; reset 0 -/
  busy : Bool := false
  /-- result; 8 bits; R496; reset 0 -/
  result : Nat := 0
  /-- the token being handled: its 256 bytes and the key buffer; R483; reset none -/
  token : List Byte := []
  /-- key buffer taken with it; R482 -/
  key : List Byte := []
  /-- go writes ignored; R480; reset 0 -/
  goIgnored : Nat := 0
  /-- zeroisation runs; R490; reset 0 -/
  zeroising : Bool := false
  /-- the JTAG instruction in force; R487, R529; DESIGN CHOICE IDCODE -/
  jtag : JtagOp := .idcode
deriving DecidableEq, Repr, Inhabited

/-- A power domain (R500–R506). -/
structure Domain where
  /-- state; 3 bits; R501, R515; reset 0 -/
  state : Nat := 0
  /-- generation; 8 bits; R502, R515; reset 0 -/
  gen : Nat := 0
  /-- last fault cause; 4 bits; R514; reset 0 -/
  cause : Nat := 0
  /-- fault; R515; reset 0 -/
  fault : Bool := false
  /-- last automatic re-initialisation, in ps; R506; reset none -/
  autoAt : Option Nat := none
  /-- src_pipe of the running REINIT; R503; reset 0xFF -/
  src : Nat := 0xFF
  /-- an automatic re-initialisation runs; R506; reset 0 -/
  auto : Bool := false
deriving DecidableEq, Repr, Inhabited

/-- Where start-up stands (R509). -/
inductive Phase where | reset | started | trained | ready | tripped
deriving DecidableEq, Repr, Inhabited

/-- Power and resets (R497–R516, R531, R532). -/
structure Pwr where
  /-- start-up phase; R509; reset before START_UP -/
  phase : Phase := .reset
  /-- commit_all has taken effect; R515; reset 0 -/
  committed : Bool := false
  /-- boot_count; R515; sticky -/
  boots : Nat := 0
  /-- last_kind; R515; sticky -/
  kind : Nat := 0
  /-- warm; R515; reset 0 -/
  warm : Bool := false
  /-- hbm_ms; R515; reset 0 -/
  hbmMs : Nat := 0
  /-- ready_ms; R515; reset 0 -/
  readyMs : Nat := 0
  /-- release of reset, in ps; R509; reset 0 -/
  startAt : Nat := 0
  /-- the 112 domains; R500 -/
  domains : Map Domain := []
  /-- die temperatures, by die; signed 8 bits; R532; reset 0 -/
  temps : Map Int := []
  /-- alert; R532; reset 0 -/
  alert : Bool := false
  /-- dies and stacks (4 + d) over their alert threshold; R531; reset none -/
  tooHot : List Nat := []
  /-- THERMTRIP_N asserted; R531; reset 0 -/
  thermtrip : Bool := false
  /-- CHIP_RESET_N and release: the device is held in reset; R497; reset 1 -/
  inReset : Bool := true
deriving DecidableEq, Repr, Inhabited

/-- The SMBus service port (R528). -/
structure Smb where
  /-- BAR0 offset; 32 bits; R528; DESIGN CHOICE 0 -/
  offset : Nat := 0
  /-- a fatal event since the last read of PWR_STATUS through SMBus; R528; reset 0 -/
  fatal : Bool := false
deriving DecidableEq, Repr, Inhabited

/-! ### The whole machine -/

/-- The state of the device. -/
structure State where
  /-- which part it is; R1; DESIGN CHOICE LHX-9612 -/
  part : Part := .lhx9612
  /-- commands waiting, first in first out; the model's own -/
  pending : List Instr := []
  /-- picoseconds since the run began; the model's own clock -/
  now : Nat := 0
  /-- free values used so far; the model's own -/
  free : Nat := 0
  /-- the command whose step is being run, as ring and index, none outside one; the model's own -/
  actor : Option (Nat × Nat) := none
  /-- events raised so far; the model's own -/
  raised : Nat := 0
  /-- stored register fields, by BAR0 address; R535; reset values of the register tables -/
  regs : Map Word := []
  /-- value the last register read returned; R537; reset 0 -/
  readData : Word := 0
  /-- host memory as the device sees it; R42; DESIGN CHOICE unlisted bytes read 0 -/
  host : List Host.Cell := []
  /-- table memory, by 2^26 × die + offset; R136; zero-filled at start -/
  tmem : List Host.Cell := []
  /-- HBM by 2^35 × stack + logical offset; R389; DESIGN CHOICE unlisted bytes read 0 -/
  mem : List Host.Cell := []
  /-- counters, by object, unit and entry; R82, R98 and others; reset 0 -/
  cnt : Map Nat := []
  /-- the host interface -/
  hif : Hif := {}
  /-- frames in the device, by handle -/
  pkts : Map Pkt := []
  /-- next frame handle -/
  nextPkt : Nat := 0
  /-- parsers and match banks -/
  cls : Cls := {}
  /-- forwarding -/
  fwd : Fwd := {}
  /-- the flow engine -/
  flow : Flow := {}
  /-- pipelines -/
  pipes : Map Pipe := []
  /-- confirm-time alignment, by die; R249; reset 0 -/
  aligned : Map Bool := []
  /-- when confirm times started, in ps; R211; reset 0 -/
  ctimeBase : Nat := 0
  /-- flow cores and tasks -/
  tsk : Tsk := {}
  /-- cell buffers -/
  buf : Buf := {}
  /-- the fabric -/
  fab : Fab := {}
  /-- egress -/
  egs : Egs := {}
  /-- the time unit -/
  tim : Tim := {}
  /-- HBM controllers -/
  hbm : Hbm := {}
  /-- check engines -/
  chk : Chk := {}
  /-- custodians -/
  cus : Cus := {}
  /-- boot flash -/
  flash : Flash := {}
  /-- the logbook -/
  log : Log := {}
  /-- life cycle -/
  lcs : Lcs := {}
  /-- power -/
  pwr : Pwr := {}
  /-- the service port -/
  smb : Smb := {}
deriving DecidableEq, Repr

/-- The machine right after reset, before start-up: no supply of the release of reset has been taken (R497, R544).
Identity fuses are a DESIGN CHOICE: package serial 1, class 1 of the LHX-9612. -/
def State.reset : State :=
  { lcs := { identity := [(0x40, 1), (0x48, 0x96120101), (0x4C, 0x19612001), (0x60, 1)]
             nonce := 1 } }

end Sys2Proof.Machine
end

