-- ==== Sys2Proof/Machine/Ops.lean ====
section
/-! DEFINITION. Shared operations: sparse maps and byte memories in canonical form, the units a part has, counters,
and the accessors of the state's indexed parts. -/

namespace Sys2Proof.Machine

/-- What a meaning answers. -/
abbrev Out := Host.Outcome State Fault Refusal

/-! ### Sparse maps and memories -/

/-- What a map holds at a key: d where nothing is listed. -/
def mget {V : Type} (d : V) : Map V → Nat → V
  | [], _ => d
  | (j, v) :: r, k => if j = k then v else mget d r k

/-- Put a pair in a map at its place among the rising keys. -/
def mput {V : Type} : Map V → Nat → V → Map V
  | [], k, v => [(k, v)]
  | (j, w) :: r, k, v =>
    if j < k then (j, w) :: mput r k v else if j = k then (k, v) :: r else (k, v) :: (j, w) :: r

/-- Write a map at a key, keeping the keys rising and listing nothing equal to d. -/
def mset {V : Type} [DecidableEq V] (d : V) (m : Map V) (k : Nat) (v : V) : Map V :=
  if v = d then m.filter fun e => e.1 ≠ k else mput m k v

/-- The canonical form: keys strictly rising from a bound, and no value equal to d. -/
def mwfFrom {V : Type} [DecidableEq V] (d : V) : Nat → Map V → Bool
  | _, [] => true
  | lo, (j, v) :: r => decide (lo ≤ j) && decide (v ≠ d) && mwfFrom d (j + 1) r

/-- A map in canonical form. -/
def mwf {V : Type} [DecidableEq V] (d : V) (m : Map V) : Bool := mwfFrom d 0 m

/-- A byte memory in canonical form: an unlisted byte reads 0. -/
abbrev Memory.wf (m : List Host.Cell) : Bool := mwf (0 : Byte) m

/-- Read one byte. -/
def rd8 (m : List Host.Cell) (a : Nat) : Byte := mget (0 : Byte) m a

/-- Write one byte. -/
def wr8 (m : List Host.Cell) (a : Nat) (b : Byte) : List Host.Cell := mset (0 : Byte) m a b

/-- Read n bytes from address a up. -/
def rdBytes (m : List Host.Cell) (a : Nat) : Nat → List Byte
  | 0 => []
  | n + 1 => rd8 m a :: rdBytes m (a + 1) n

/-- Write bytes from address a up. -/
def wrBytes (m : List Host.Cell) (a : Nat) : List Byte → List Host.Cell
  | [] => m
  | b :: r => wrBytes (wr8 m a b) (a + 1) r

/-- Read n bytes as the number they spell, little-endian (R11). -/
def rdN (m : List Host.Cell) (a n : Nat) : Nat := ofLe (rdBytes m a n)

/-- Write a number as n bytes, little-endian (R11). -/
def wrN (m : List Host.Cell) (a n v : Nat) : List Host.Cell := wrBytes m a (leBytes n v)

/-- Drop every listed byte in [a, b). -/
def clrRange (m : List Host.Cell) (a b : Nat) : List Host.Cell := m.filter fun c => c.1 < a || b ≤ c.1

/-! ### Small list helpers -/

/-- The list 0, 1, …, n − 1. -/
def upTo (n : Nat) : List Nat := List.range n

/-- The lowest number from a start upward, within n tries, that meets a test. -/
def firstFrom (p : Nat → Bool) (a : Nat) : Nat → Option Nat
  | 0 => none
  | n + 1 => if p a then some a else firstFrom p (a + 1) n

/-- Replace the element at a place. -/
def setAt {A : Type} (l : List A) (i : Nat) (a : A) : List A :=
  match l, i with
  | [], _ => []
  | _ :: r, 0 => a :: r
  | x :: r, i + 1 => x :: setAt r i a

/-- The element of a list at a place, or a default. -/
def nth {A : Type} (d : A) (l : List A) (i : Nat) : A := l.getD i d

/-- Sum of a list. -/
def sumL (l : List Nat) : Nat := l.foldl (· + ·) 0

/-- Smallest of a list, 0 when empty. -/
def minL : List Nat → Nat
  | [] => 0
  | a :: r => r.foldl Nat.min a

/-- Apply a state change for each element of a list, in order. -/
def each {A S : Type} (l : List A) (f : A → S → S) (s : S) : S := l.foldl (fun t a => f a t) s

/-! ### The units a part has (R2, R9) -/

/-- The dies of the part. -/
def dies : Part → List Nat
  | .lhx9612 => [0, 1, 2, 3]
  | .lhx9406 => [0, 2]

/-- Die d is present. -/
def hasDie (p : Part) (d : Nat) : Bool := (dies p).contains d

/-- The present units of a kind of which each die has n. -/
def unitsOf (p : Part) (n : Nat) : List Nat := (dies p).flatMap fun d => (upTo n).map (n * d + ·)

/-- The present pipelines (R9). -/
def pipelines (p : Part) : List Nat := unitsOf p 4

/-- The present flow slices. -/
def slicesOf (p : Part) : List Nat := unitsOf p 2

/-- The present clusters. -/
def clustersOf (p : Part) : List Nat := unitsOf p 6

/-- The present octets. -/
def octetsOf (p : Part) : List Nat := unitsOf p 16

/-- Whether a pipeline, slice, cluster, octet, lane or core is present. -/
def hasPipe (p : Part) (n : Nat) : Bool := hasDie p (n / 4)
/-- Slice n is present. -/
def hasSlice (p : Part) (n : Nat) : Bool := hasDie p (n / 2)
/-- Cluster n is present. -/
def hasCluster (p : Part) (n : Nat) : Bool := hasDie p (n / 6)
/-- Octet n is present. -/
def hasOctet (p : Part) (n : Nat) : Bool := hasDie p (n / 16)
/-- Lane n is present. -/
def hasLane (p : Part) (n : Nat) : Bool := hasDie p (n / 128)
/-- Core n is present. -/
def hasCore (p : Part) (n : Nat) : Bool := hasDie p (n / 48)
/-- Die of a lane. -/
def dieOfLane (n : Nat) : Nat := n / 128
/-- Pipeline of a lane. -/
def pipeOfLane (n : Nat) : Nat := n / 32
/-- Octet of a lane. -/
def octOfLane (n : Nat) : Nat := n / 8
/-- Die of a pipeline. -/
def dieOfPipe (n : Nat) : Nat := n / 4
/-- Die of a slice. -/
def dieOfSlice (n : Nat) : Nat := n / 2
/-- The partner of a slice, the other slice of its die (R178). -/
def partner (s : Nat) : Nat := if s % 2 = 0 then s + 1 else s - 1
/-- Domain numbers (R500). -/
def domPipe (p : Nat) : Nat := 64 + p
/-- Domain of a slice. -/
def domSlice (s : Nat) : Nat := 80 + s
/-- Domain of a cluster. -/
def domCluster (c : Nat) : Nat := 88 + c
/-- Domain n is present. -/
def hasDomain (p : Part) (n : Nat) : Bool :=
  if n < 64 then hasOctet p n else if n < 80 then hasPipe p (n - 64)
  else if n < 88 then hasSlice p (n - 80) else decide (n < 112) && hasCluster p (n - 88)
/-- The present domains. -/
def domainsOf (p : Part) : List Nat := (upTo 112).filter (hasDomain p)
/-- The die-to-die links of the part, by the index x of R324: DL01, DL12, DL23, DL30, DL02, DL13. -/
def linksOf : Part → List Nat
  | .lhx9612 => [0, 1, 2, 3, 4, 5]
  | .lhx9406 => [4]
/-- The two dies a link joins. -/
def linkEnds : Nat → Nat × Nat
  | 0 => (0, 1) | 1 => (1, 2) | 2 => (2, 3) | 3 => (3, 0) | 4 => (0, 2) | _ => (1, 3)
/-- The link that joins two dies, and whether the first is its lower-named end (R9). -/
def linkBetween (a b : Nat) : Option (Nat × Bool) :=
  (upTo 6).findSome? fun x =>
    if linkEnds x = (a, b) then some (x, true) else if linkEnds x = (b, a) then some (x, false) else none

/-! ### Counters -/

/-- Where a counter is kept: its object, the unit it belongs to, its entry. -/
def cntKey (obj unit entry : Nat) : Nat := obj * 2 ^ 40 + unit * 2 ^ 28 + entry

/-- A counter's value. -/
def cntGet (s : State) (obj unit entry : Nat) : Nat := mget 0 s.cnt (cntKey obj unit entry)

/-- Set a counter, modulo 2^64. -/
def cntSet (s : State) (obj unit entry v : Nat) : State :=
  { s with cnt := mset 0 s.cnt (cntKey obj unit entry) (v % 2 ^ 64) }

/-- Add to a counter. -/
def cntAdd (obj unit entry n : Nat) (s : State) : State := cntSet s obj unit entry (cntGet s obj unit entry + n)

/-- Add one to a counter. -/
def cntInc (obj unit entry : Nat) (s : State) : State := cntAdd obj unit entry 1 s

/-- Clear every counter that meets a test on its object and unit. -/
def cntClear (p : Nat → Nat → Bool) (s : State) : State :=
  { s with cnt := s.cnt.filter fun c => !p (c.1 / 2 ^ 40) (c.1 / 2 ^ 28 % 2 ^ 12) }

/-! ### Time -/

/-- The time counter as a stamp (R63, R353). -/
def stampNow (s : State) : Stamp := ⟨s.tim.sec % 2 ^ 48, s.tim.ns, s.tim.frac / 2 ^ 28⟩

/-- A stamp as its 12 bytes (R63). -/
def stampBytes (t : Stamp) : List Byte := leBytes 2 t.frac ++ leBytes 4 t.ns ++ leBytes 6 t.sec

/-- A stamp in units of 2^-16 ns. -/
def stampFx (t : Stamp) : Nat := (t.sec * 10 ^ 9 + t.ns) * 2 ^ 16 + t.frac

/-- A time in units of 2^-16 ns as a stamp. -/
def fxStamp (x : Nat) : Stamp := ⟨x / 2 ^ 16 / 10 ^ 9, x / 2 ^ 16 % 10 ^ 9, x % 2 ^ 16⟩

/-- The time counter in whole nanoseconds. -/
def timeNs (s : State) : Nat := s.tim.sec * 10 ^ 9 + s.tim.ns

/-- The slices' milliseconds (R180): a 32-bit count. -/
def msNow (s : State) : Nat := s.now / 10 ^ 9 % 2 ^ 32

/-- Confirm time: cc since the confirm times started, modulo 2^48 (R211). -/
def ctime (s : State) : Nat := (s.now - s.ctimeBase) / 625 % 2 ^ 48

/-! ### Accessors of the indexed parts -/

/-- A ring. -/
def ring (s : State) (g : Nat) : Ring := mget {} s.hif.rings g
/-- Change the host interface. -/
def modHif (f : Hif → Hif) (s : State) : State := { s with hif := f s.hif }
/-- Change a ring. -/
def modRing (g : Nat) (f : Ring → Ring) (s : State) : State :=
  { s with hif := { s.hif with rings := mset {} s.hif.rings g (f (ring s g)) } }
/-- A pool. -/
def pool (s : State) (p : Nat) : Pool := mget {} s.hif.pools p
/-- Change a pool. -/
def modPool (p : Nat) (f : Pool → Pool) (s : State) : State :=
  { s with hif := { s.hif with pools := mset {} s.hif.pools p (f (pool s p)) } }
/-- A link's number in keys: A 0, B 1. -/
def linkNo : Link → Nat
  | .a => 0
  | .b => 1
/-- A link's state. -/
def linkSt (s : State) : Link → LinkState
  | .a => s.hif.a
  | .b => s.hif.b
/-- Change a link's state. -/
def modLink (l : Link) (f : LinkState → LinkState) (s : State) : State :=
  match l with
  | .a => { s with hif := { s.hif with a := f s.hif.a } }
  | .b => { s with hif := { s.hif with b := f s.hif.b } }
/-- A vector of a link. -/
def vec (s : State) (l : Link) (v : Nat) : Vec := mget {} s.hif.vecs (256 * linkNo l + v)
/-- Change a vector. -/
def modVec (l : Link) (v : Nat) (f : Vec → Vec) (s : State) : State :=
  { s with hif := { s.hif with vecs := mset {} s.hif.vecs (256 * linkNo l + v) (f (vec s l v)) } }
/-- A packet, if the device holds it. -/
def pktOf (s : State) (k : Nat) : Option Pkt := s.pkts.lookup k
/-- Change a packet the device holds. -/
def modPkt (k : Nat) (f : Pkt → Pkt) (s : State) : State :=
  { s with pkts := s.pkts.map fun e => if e.1 = k then (e.1, f e.2) else e }
/-- Forget a packet. -/
def dropPkt (k : Nat) (s : State) : State := { s with pkts := s.pkts.filter fun e => e.1 ≠ k }
/-- Take a new packet in: its handle and the state. -/
def newPkt (p : Pkt) (s : State) : Nat × State :=
  (s.nextPkt, { s with pkts := s.pkts ++ [(s.nextPkt, p)], nextPkt := s.nextPkt + 1 })
/-- A pipeline. -/
def pipe (s : State) (p : Nat) : Pipe := mget {} s.pipes p
/-- Change a pipeline. -/
def modPipe (p : Nat) (f : Pipe → Pipe) (s : State) : State :=
  { s with pipes := mset {} s.pipes p (f (pipe s p)) }
/-- A slice. -/
def slice (s : State) (n : Nat) : Slice := mget {} s.flow.slices n
/-- Change a slice. -/
def modSlice (n : Nat) (f : Slice → Slice) (s : State) : State :=
  { s with flow := { s.flow with slices := mset {} s.flow.slices n (f (slice s n)) } }
/-- A half's numbers. -/
def half (s : State) (h : Nat) : Half := mget {} s.flow.halves h
/-- Change a half's numbers. -/
def modHalf (h : Nat) (f : Half → Half) (s : State) : State :=
  { s with flow := { s.flow with halves := mset {} s.flow.halves h (f (half s h)) } }
/-- The replicas of a pipeline. -/
def replicas (s : State) (p : Nat) : List Replica := mget [] s.flow.replicas p
/-- Change the replicas of a pipeline. -/
def modReplicas (p : Nat) (f : List Replica → List Replica) (s : State) : State :=
  { s with flow := { s.flow with replicas := mset [] s.flow.replicas p (f (replicas s p)) } }
/-- The outstanding requests of a pipeline. -/
def waitings (s : State) (p : Nat) : List Waiting := mget [] s.flow.waiting p
/-- Change them. -/
def modWaitings (p : Nat) (f : List Waiting → List Waiting) (s : State) : State :=
  { s with flow := { s.flow with waiting := mset [] s.flow.waiting p (f (waitings s p)) } }
/-- The channel from a slice to a pipeline. -/
def chan (s : State) (sl p : Nat) : List ChanMsg := mget [] s.flow.chan (16 * sl + p)
/-- Change it. -/
def modChan (sl p : Nat) (f : List ChanMsg → List ChanMsg) (s : State) : State :=
  { s with flow := { s.flow with chan := mset [] s.flow.chan (16 * sl + p) (f (chan s sl p)) } }
/-- Send a message on a channel. DESIGN CHOICE (log 103): the control channel of R20 delivers also while every lane of
the die link is down; the rule states no loss of a message. -/
def sendChan (sl p : Nat) (m : ChanMsg) (s : State) : State := modChan sl p (· ++ [m]) s
/-- A task slot. -/
def task (s : State) (sl t : Nat) : Task := mget {} s.tsk.slots (65536 * sl + t)
/-- Change the task part. -/
def modTsk (f : Tsk → Tsk) (s : State) : State := { s with tsk := f s.tsk }
/-- Change a task slot. -/
def modTask (sl t : Nat) (f : Task → Task) (s : State) : State :=
  { s with tsk := { s.tsk with slots := mset {} s.tsk.slots (65536 * sl + t) (f (task s sl t)) } }
/-- A lock. -/
def lock (s : State) (sl l : Nat) : Lock := mget {} s.tsk.locks (16384 * sl + l)
/-- Change a lock. -/
def modLock (sl l : Nat) (f : Lock → Lock) (s : State) : State :=
  { s with tsk := { s.tsk with locks := mset {} s.tsk.locks (16384 * sl + l) (f (lock s sl l)) } }
/-- A core. -/
def coreOf (s : State) (c : Nat) : Core := mget {} s.tsk.cores c
/-- Change a core. -/
def modCore (c : Nat) (f : Core → Core) (s : State) : State :=
  { s with tsk := { s.tsk with cores := mset {} s.tsk.cores c (f (coreOf s c)) } }
/-- A cluster. -/
def cluster (s : State) (c : Nat) : Cluster := mget {} s.tsk.clusters c
/-- Change a cluster. -/
def modCluster (c : Nat) (f : Cluster → Cluster) (s : State) : State :=
  { s with tsk := { s.tsk with clusters := mset {} s.tsk.clusters c (f (cluster s c)) } }
/-- Change the buffers. -/
def modBuf (f : Buf → Buf) (s : State) : State := { s with buf := f s.buf }
/-- A port and priority's pause state. -/
def pauseSt (s : State) (port pri : Nat) : PauseSt := mget {} s.buf.pause (8 * port + pri)
/-- Change it. -/
def modPause (port pri : Nat) (f : PauseSt → PauseSt) (s : State) : State :=
  { s with buf := { s.buf with pause := mset {} s.buf.pause (8 * port + pri) (f (pauseSt s port pri)) } }
/-- Change the fabric. -/
def modFab (f : Fab → Fab) (s : State) : State := { s with fab := f s.fab }
/-- A die link. -/
def dieLink (s : State) (x : Nat) : DieLink := mget {} s.fab.links x
/-- Change a die link. -/
def modDieLink (x : Nat) (f : DieLink → DieLink) (s : State) : State :=
  { s with fab := { s.fab with links := mset {} s.fab.links x (f (dieLink s x)) } }
/-- A virtual output queue's key. -/
def voqKey (src dst cls : Nat) : Nat := 256 * src + 16 * dst + cls
/-- A virtual output queue. -/
def voq (s : State) (src dst cls : Nat) : List VoqE := mget [] s.fab.voq (voqKey src dst cls)
/-- Change it. -/
def modVoq (src dst cls : Nat) (f : List VoqE → List VoqE) (s : State) : State :=
  { s with fab := { s.fab with voq := mset [] s.fab.voq (voqKey src dst cls) (f (voq s src dst cls)) } }
/-- Change the egress part. -/
def modEgs (f : Egs → Egs) (s : State) : State := { s with egs := f s.egs }
/-- An egress queue. -/
def egq (s : State) (port q : Nat) : List QEnt := mget [] s.egs.queues (16 * port + q)
/-- Change it. -/
def modEgq (port q : Nat) (f : List QEnt → List QEnt) (s : State) : State :=
  { s with egs := { s.egs with queues := mset [] s.egs.queues (16 * port + q) (f (egq s port q)) } }
/-- A launch list. -/
def launch (s : State) (port : Nat) : List QEnt := mget [] s.egs.launch port
/-- Change it. -/
def modLaunch (port : Nat) (f : List QEnt → List QEnt) (s : State) : State :=
  { s with egs := { s.egs with launch := mset [] s.egs.launch port (f (launch s port)) } }
/-- A port's gates. -/
def gates (s : State) (port : Nat) : Gates := mget {} s.egs.gates port
/-- Change them. -/
def modGates (port : Nat) (f : Gates → Gates) (s : State) : State :=
  { s with egs := { s.egs with gates := mset {} s.egs.gates port (f (gates s port)) } }
/-- A port's link is up. -/
def portUp (s : State) (port : Nat) : Bool := mget false s.egs.up port
/-- Change the time unit. -/
def modTim (f : Tim → Tim) (s : State) : State := { s with tim := f s.tim }
/-- Change the HBM part. -/
def modHbm (f : Hbm → Hbm) (s : State) : State := { s with hbm := f s.hbm }
/-- A stack. -/
def stack (s : State) (d : Nat) : Stack := mget {} s.hbm.hbms d
/-- Change a stack. -/
def modStack (d : Nat) (f : Stack → Stack) (s : State) : State :=
  { s with hbm := { s.hbm with hbms := mset {} s.hbm.hbms d (f (stack s d)) } }
/-- Change the check engines. -/
def modChk (f : Chk → Chk) (s : State) : State := { s with chk := f s.chk }
/-- Change the custodians. -/
def modCus (f : Cus → Cus) (s : State) : State := { s with cus := f s.cus }
/-- Change the logbook. -/
def modLog (f : Log → Log) (s : State) : State := { s with log := f s.log }
/-- Change the flash. -/
def modFlash (f : Flash → Flash) (s : State) : State := { s with flash := f s.flash }
/-- Change the life-cycle block. -/
def modLcs (f : Lcs → Lcs) (s : State) : State := { s with lcs := f s.lcs }
/-- Change the power part. -/
def modPwr (f : Pwr → Pwr) (s : State) : State := { s with pwr := f s.pwr }
/-- A domain. -/
def domain (s : State) (n : Nat) : Domain := mget {} s.pwr.domains n
/-- Change a domain. -/
def modDomain (n : Nat) (f : Domain → Domain) (s : State) : State :=
  { s with pwr := { s.pwr with domains := mset {} s.pwr.domains n (f (domain s n)) } }
/-- A domain is ON, or carries its work while it is being stopped (R501). -/
def domWorks (s : State) (n : Nat) : Bool := decide ((domain s n).state ≤ 1)
/-- A domain is ON. -/
def domOn (s : State) (n : Nat) : Bool := decide ((domain s n).state = 0)
/-- Change the parser and match banks. -/
def modCls (f : Cls → Cls) (s : State) : State := { s with cls := f s.cls }
/-- Change the forwarding part. -/
def modFwd (f : Fwd → Fwd) (s : State) : State := { s with fwd := f s.fwd }
/-- A block's compare state. -/
def cmpOf (s : State) (die blk : Nat) : Cmp := mget {} s.fwd.cmp (1024 * die + blk)
/-- Change it. -/
def modCmp (die blk : Nat) (f : Cmp → Cmp) (s : State) : State :=
  { s with fwd := { s.fwd with cmp := mset {} s.fwd.cmp (1024 * die + blk) (f (cmpOf s die blk)) } }
/-- A pipeline's epochs. -/
def epochOf (s : State) (p : Nat) : Epoch := mget {} s.cls.epoch p
/-- Change them. -/
def modEpoch (p : Nat) (f : Epoch → Epoch) (s : State) : State :=
  { s with cls := { s.cls with epoch := mset {} s.cls.epoch p (f (epochOf s p)) } }

/-- Take the next free value's index (log 3). -/
def useFree (s : State) : Nat × State := (s.free, { s with free := s.free + 1 })

end Sys2Proof.Machine
end

