-- ==== Sys2Proof/Machine/Crc.lean ====
section
/-! DEFINITION. The check engines' CRCs (R437), their fold prefixes (R438), CRC-32C with its register started at a value
(R548), and the checksum arithmetic of the parser and editor. -/

namespace Sys2Proof.Machine

/-- One bit step of a reflected 32-bit CRC register. -/
def crcBit (poly : BitVec 32) (c : BitVec 32) : BitVec 32 :=
  if c.getLsbD 0 then (c >>> 1) ^^^ poly else c >>> 1

/-- Eight bit steps. -/
def crcBits (poly c : BitVec 32) : BitVec 32 :=
  crcBit poly (crcBit poly (crcBit poly (crcBit poly (crcBit poly (crcBit poly (crcBit poly (crcBit poly c)))))))

/-- Feed one byte to a reflected 32-bit register. -/
def crcByte (poly c : BitVec 32) (b : Byte) : BitVec 32 := crcBits poly (c ^^^ b.setWidth 32)

/-- The reflected polynomial of CRC-32C (R437). -/
def poly32c : BitVec 32 := 0x82F63B78

/-- The reflected polynomial of CRC-32, IEEE 802.3 (R437). -/
def poly32 : BitVec 32 := 0xEDB88320

/-- One bit step of the CRC-64 register, most significant bit first. -/
def crc64Bit (c : BitVec 64) : BitVec 64 :=
  if c.getLsbD 63 then (c <<< 1) ^^^ 0x42F0E1EBA9EA3693 else c <<< 1

/-- Feed one byte to the CRC-64 register. -/
def crc64Byte (c : BitVec 64) (b : Byte) : BitVec 64 :=
  let x := c ^^^ (b.setWidth 64 <<< 56)
  crc64Bit (crc64Bit (crc64Bit (crc64Bit (crc64Bit (crc64Bit (crc64Bit (crc64Bit x)))))))

/-- The Init of a polynomial code (R437). -/
def crcInit (code : Nat) : Nat := if code = 0 then 0 else 0xFFFFFFFF

/-- Feed bytes to the register of a polynomial code (R437). -/
def crcFeed (code reg : Nat) (bs : List Byte) : Nat :=
  if code = 0 then (bs.foldl crc64Byte (BitVec.ofNat 64 reg)).toNat
  else if code = 1 then (bs.foldl (crcByte poly32c) (BitVec.ofNat 32 reg)).toNat
  else (bs.foldl (crcByte poly32) (BitVec.ofNat 32 reg)).toNat

/-- The final XOR of a polynomial code (R437). -/
def crcFinal (code reg : Nat) : Nat := if code = 0 then reg else Nat.xor reg 0xFFFFFFFF

/-- The CRC of bytes under a polynomial code. -/
def crcOf (code : Nat) (bs : List Byte) : Nat := crcFinal code (crcFeed code (crcInit code) bs)

/-- CRC-32C with the register started at x (R548). -/
def crc32cFrom (x : Nat) (bs : List Byte) : Nat := crcFinal 1 (crcFeed 1 x bs)

/-- The 8 bytes of a fold prefix, bits [63:56] first (R438). -/
def foldBytes (prefixN : Nat) : List Byte := beBytes 8 prefixN

/-- The ones' complement sum of big-endian 16-bit words, an odd last byte padded with zero. -/
def onesSum : List Byte → Nat
  | [] => 0
  | [a] => a.toNat * 256
  | a :: b :: r => a.toNat * 256 + b.toNat + onesSum r

/-- A sum folded to 16 bits with end-around carry. -/
def fold16 (x : Nat) : Nat :=
  let a := x % 65536 + x / 65536
  let b := a % 65536 + a / 65536
  b % 65536 + b / 65536

/-- The checksum field value that completes bytes: the complement of their sum. -/
def ipChecksum (bs : List Byte) : Nat := 65535 - fold16 (onesSum bs)

end Sys2Proof.Machine
end

