-- ==== Sys2Proof/Machine/Events.lean ====
section
/-! DEFINITION. The event codes (R460). -/

namespace Sys2Proof.Machine

/-- LCS_TOKEN_ACCEPTED. -/
def evLcsTokenAccepted : Nat := 0x0000
/-- LCS_TOKEN_REFUSED. -/
def evLcsTokenRefused : Nat := 0x0001
/-- LCS_STATE_CHANGE. -/
def evLcsStateChange : Nat := 0x0002
/-- LCS_COPY_MISMATCH. -/
def evLcsCopyMismatch : Nat := 0x0003
/-- LCS_ZEROISE_START. -/
def evLcsZeroiseStart : Nat := 0x0004
/-- LCS_ZEROISE_DONE. -/
def evLcsZeroiseDone : Nat := 0x0005
/-- LCS_DEBUG_OPEN. -/
def evLcsDebugOpen : Nat := 0x0006
/-- LCS_DEBUG_CLOSE. -/
def evLcsDebugClose : Nat := 0x0007
/-- LCS_KEY_ROTATED. -/
def evLcsKeyRotated : Nat := 0x0008
/-- LCS_HBM_MISMATCH. -/
def evLcsHbmMismatch : Nat := 0x0009
/-- PWR_READY. -/
def evPwrReady : Nat := 0x0100
/-- PWR_COMMITTED. -/
def evPwrCommitted : Nat := 0x0101
/-- PWR_SUPPLY_ALARM. -/
def evPwrSupplyAlarm : Nat := 0x0102
/-- PWR_DOMAIN_OFF. -/
def evPwrDomainOff : Nat := 0x0103
/-- PWR_DOMAIN_QUARANTINE. -/
def evPwrDomainQuarantine : Nat := 0x0104
/-- PWR_DOMAIN_READY. -/
def evPwrDomainReady : Nat := 0x0105
/-- PWR_DOMAIN_FAULT. -/
def evPwrDomainFault : Nat := 0x0106
/-- HIF_DMA_FAULT. -/
def evHifDmaFault : Nat := 0x0200
/-- HIF_POOL_TIMEOUT. -/
def evHifPoolTimeout : Nat := 0x0201
/-- TIM_STEP. -/
def evTimStep : Nat := 0x0300
/-- TIM_TRACEABLE_SET. -/
def evTimTraceableSet : Nat := 0x0301
/-- TIM_TRACEABLE_LOST. -/
def evTimTraceableLost : Nat := 0x0302
/-- TIM_TREF_LOST. -/
def evTimTrefLost : Nat := 0x0303
/-- TIM_HOLDOVER_EXIT. -/
def evTimHoldoverExit : Nat := 0x0304
/-- TIM_TOUT_START. -/
def evTimToutStart : Nat := 0x0305
/-- SYNCE_SQUELCH. -/
def evSynceSquelch : Nat := 0x0306
/-- TIM_CAPTURE. -/
def evTimCapture : Nat := 0x0307
/-- CUS_RELEASE. -/
def evCusRelease : Nat := 0x0400
/-- CUS_PRELOAD_DONE. -/
def evCusPreloadDone : Nat := 0x0401
/-- CUS_STRING_FAULT. -/
def evCusStringFault : Nat := 0x0402
/-- CUS_CKPT_REFUSED. -/
def evCusCkptRefused : Nat := 0x0403
/-- CUS_CKPT_NONE. -/
def evCusCkptNone : Nat := 0x0404
/-- CUS_NONE. -/
def evCusNone : Nat := 0x0405
/-- LOG_BOOT. -/
def evLogBoot : Nat := 0x0500
/-- LOG_LOST. -/
def evLogLost : Nat := 0x0501
/-- LOG_CLEARED. -/
def evLogCleared : Nat := 0x0502
/-- LOG_CLEAR_REFUSED. -/
def evLogClearRefused : Nat := 0x0503
/-- LOG_FREEZE_END. -/
def evLogFreezeEnd : Nat := 0x0504
/-- LOG_FLASH_FAULT. -/
def evLogFlashFault : Nat := 0x0505
/-- CHK_SCAN_MISMATCH. -/
def evChkScanMismatch : Nat := 0x0600
/-- CHK_SRAM_UE. -/
def evChkSramUe : Nat := 0x0601
/-- CHK_DATAPATH_ERR. -/
def evChkDatapathErr : Nat := 0x0602
/-- CHK_CLOCK_LOST. -/
def evChkClockLost : Nat := 0x0603
/-- CHK_GUARD_LAPSE. -/
def evChkGuardLapse : Nat := 0x0604
/-- CHK_GUARD_RESTORE. -/
def evChkGuardRestore : Nat := 0x0605
/-- HBM_TEMP_HIGH. -/
def evHbmTempHigh : Nat := 0x0700
/-- HBM_RETAIN_LOST. -/
def evHbmRetainLost : Nat := 0x0701
/-- HBM_CE_RATE. -/
def evHbmCeRate : Nat := 0x0702
/-- HBM_RANK_FAILED. -/
def evHbmRankFailed : Nat := 0x0703
/-- HBM_RANK_READY. -/
def evHbmRankReady : Nat := 0x0704
/-- HBM_MIG_START. -/
def evHbmMigStart : Nat := 0x0705
/-- HBM_MIG_END. -/
def evHbmMigEnd : Nat := 0x0706
/-- HBM_MIG_FAIL. -/
def evHbmMigFail : Nat := 0x0707
/-- HBM_NO_SPARE. -/
def evHbmNoSpare : Nat := 0x0708
/-- HBM_UE_WORD. -/
def evHbmUeWord : Nat := 0x0709
/-- FAB_ARB_MISMATCH. -/
def evFabArbMismatch : Nat := 0x0800
/-- FAB_ARB_FAIL. -/
def evFabArbFail : Nat := 0x0801
/-- DL_LANE_SPARED. -/
def evDlLaneSpared : Nat := 0x0802
/-- DL_LANE_LOST. -/
def evDlLaneLost : Nat := 0x0803
/-- DL_DOWN. -/
def evDlDown : Nat := 0x0804
/-- FAB_SEQ_GAP. -/
def evFabSeqGap : Nat := 0x0805
/-- BUF_BAD_FREE. -/
def evBufBadFree : Nat := 0x0900
/-- BUF_AUDIT_MISMATCH. -/
def evBufAuditMismatch : Nat := 0x0901
/-- BUF_LEAK. -/
def evBufLeak : Nat := 0x0902
/-- BUF_LOSSLESS_OVERRUN. -/
def evBufLosslessOverrun : Nat := 0x0903
/-- PFC_WD_TRIP. -/
def evPfcWdTrip : Nat := 0x0904
/-- PFC_WD_RESTORE. -/
def evPfcWdRestore : Nat := 0x0905
/-- PHY_LINK_UP. -/
def evPhyLinkUp : Nat := 0x0A00
/-- PHY_LINK_DOWN. -/
def evPhyLinkDown : Nat := 0x0A01
/-- MB_FALSE_HIT. -/
def evMbFalseHit : Nat := 0x0C00
/-- MB_UNIT_FAULT. -/
def evMbUnitFault : Nat := 0x0C01
/-- EPOCH_DRAINED. -/
def evEpochDrained : Nat := 0x0C02
/-- MAC_FLAP. -/
def evMacFlap : Nat := 0x0D00
/-- L2_LEARN_FULL. -/
def evL2LearnFull : Nat := 0x0D01
/-- TBL_DIGEST_STALE. -/
def evTblDigestStale : Nat := 0x0D02
/-- TBL_DIGEST_MISMATCH. -/
def evTblDigestMismatch : Nat := 0x0D03
/-- FLOW_SLICE_LOST. -/
def evFlowSliceLost : Nat := 0x0E00
/-- FLOW_CREATE_TIMEOUT. -/
def evFlowCreateTimeout : Nat := 0x0E01
/-- FLOW_TABLE_FULL. -/
def evFlowTableFull : Nat := 0x0E02
/-- NAT_POOL_EMPTY. -/
def evNatPoolEmpty : Nat := 0x0E03
/-- FLOW_EXPORT_LOST. -/
def evFlowExportLost : Nat := 0x0E04
/-- CTIME_ALIGN_LOST. -/
def evCtimeAlignLost : Nat := 0x0E05
/-- HORIZON_STALL. -/
def evHorizonStall : Nat := 0x0E06
/-- TSK_CORE_STUCK. -/
def evTskCoreStuck : Nat := 0x0F00
/-- TSK_HOLD_LONG. -/
def evTskHoldLong : Nat := 0x0F01
/-- TSK_CLASS_UNSERVED. -/
def evTskClassUnserved : Nat := 0x0F02
/-- FW_SLICE_DONE. -/
def evFwSliceDone : Nat := 0x0F03
/-- FW_ROLLOUT_FAIL. -/
def evFwRolloutFail : Nat := 0x0F04
/-- GATE_START. -/
def evGateStart : Nat := 0x1000
/-- GATE_RESTART. -/
def evGateRestart : Nat := 0x1001
/-- EGS_SAMPLE_LOST. -/
def evEgsSampleLost : Nat := 0x1002

end Sys2Proof.Machine
end

