-- ==== Sys2Proof/Machine/Regs.lean ====
section
/-! DEFINITION. The set-up register map (R535–R547): the registers by name, their addresses, the access codes and reset
values of their fields (R12), and the stored value of each. -/

namespace Sys2Proof.Machine

/-- The registers of BAR0, each with the indices its chapter gives it. d is a die or a stack, p a pipeline, s a slice,
n a lane or a domain, g a ring. -/
inductive Reg where
  | lcsState | lcsDebug | lcsAuth | lcsNonce (i : Nat) | lcsTokenCtrl | lcsSerial (hi : Bool) | lcsClass | lcsIdcode
  | lcsCompat (i : Nat) | lcsDieLot (d : Nat) (hi : Bool) | lcsDiePos (d : Nat) | lcsHbmVendor (d : Nat)
  | lcsHbmSerial (d : Nat) (hi : Bool) | lcsOwnerHash (k i : Nat) | lcsDbgAddr | lcsDbgData | lcsTokenBuf (i : Nat)
  | lcsKeyBuf (i : Nat) | lcsLanePath (n : Nat)
  | pwrCtrl | pwrStatus | pwrStartTime | pwrAutoCfg | pwrThermCtrl | pwrThermStatus | pwrInfraSel
  | pwrDomainStatus (n : Nat)
  | hifCtrl | hifStatus | hifCommitErr | hifPage (which : Nat) (l : Link) (hi : Bool) | hifPollCfg | hifRingOwn (i : Nat)
  | hifWinOwn (i : Nat) | hifWinLo (w : Nat) | hifWinHi (w : Nat) | hifWinSize (w : Nat) | hifPoolCfg (p : Nat)
  | hifPoolTmo (p : Nat) | hifRingLo (g : Nat) | hifRingHi (g : Nat) | hifRingCfg (g : Nat) | hifRingMod (g : Nat)
  | hifEvsrcMap (n : Nat) | hifVecMod (v : Nat)
  | timCfg | timCtrl | timStatus | timSnapFrac | timSnapNs | timSnapSec (hi : Bool) | timPtpCfg | timTinCfg
  | timOutStatus | timPortCfg (n : Nat) | timPortComp (n : Nat)
  | cusStatus | cusGen | cusCtrl | cusCfg | cusPreloadLo | cusPreloadHi | cusPreloadLen | cusPreloadStatus | cusCkptSeq
  | cusCkptAge
  | logCfg | logCtrl | logStatus | logCursor (hi : Bool) | logOldest (hi : Bool) | logNext (hi : Bool) | logWin (i : Nat)
  | logWinStatus | logStatSel | logStatWin (i : Nat)
  | chkScrubCfg | chkGuardStatus | chkFeedCfg (e : Nat) | chkFeedPrefix (e : Nat) (hi : Bool) | chkFeedB (e : Nat)
  | chkFeedH (e : Nat) | chkFeedW (e : Nat) | chkFeedRes (e : Nat) (hi : Bool) | chkFeedCount (e : Nat)
  | hbmCtrl (d : Nat) | hbmStatus (d : Nat) | hbmBankXor (d i : Nat) | hbmTempCfg (d : Nat) | hbmQosCfg (d : Nat)
  | hbmPanicCfg (d : Nat) | hbmScrubCfg (d : Nat) | hbmMigCfg (d : Nat) | hbmMigCtrl (d : Nat) | hbmMigStatus (d : Nat)
  | hbmRankMap (d : Nat) | hbmRankStatus (d : Nat) | hbmRankCtrl (d : Nat)
  | fabArbStatus | fabCreditCfg | fabReseqCfg | fabDlCfg (x : Nat) | fabDlStatus (x : Nat)
  | bufPoolCfg (d : Nat) | bufQlimCfg (d : Nat) | bufPuntCfg (d : Nat) | bufAuditCfg (d : Nat) | bufWdCfg (d : Nat)
  | bufStatus (d : Nat) | bufHoldCfg (p : Nat) | bufPfcProf (d i : Nat) | bufPfcProf2 (d i : Nat) | bufPortCfg (n : Nat)
  | phyOctetCfg (k : Nat)
  | prsLaneCfg (n : Nat) | prsProfile (p j : Nat) | prsMalfAct (p : Nat) | prsMalfDest (p : Nat)
  | clsBankCfg (p : Nat) | clsEpochStatus (p : Nat) | clsRecircCfg (p : Nat)
  | fwdPortCfg (n : Nat) | fwdLearnCfg (d : Nat) | fwdFlapCfg (d : Nat) | fwdAgeCfg (d : Nat) | fwdEvictCfg (d : Nat)
  | fwdPuntCfg (d : Nat) | fwdHashSeed (d : Nat) | fwdLpmCfg (d : Nat) | fwdLpm4Len (d l : Nat) | fwdLpm6Len (d l : Nat)
  | fwdCmpCfg (d : Nat) | fwdCmpStatus (d : Nat) | fwdCmpSuspect (d i : Nat) | fwdCmpStale (d i : Nat)
  | fleHashSeed (d : Nat) | fleSweepCfg (d : Nat) | fleCreateCfg (d : Nat) | flePressureCfg (d : Nat)
  | fleExportCfg (d : Nat) | fleSliceStatus (s : Nat) | fleSpecCfg (p : Nat) | fleSpecStatus (p : Nat)
  | fleHorizonCfg (d : Nat) | fleCtimeStatus (d : Nat)
  | tskClassCfg (s c : Nat) | tskClusterMaskLo (k : Nat) | tskClusterMaskHi (k : Nat) | tskClusterMode (k : Nat)
  | tskLimitCfg (s : Nat) | tskSliceStatus (s : Nat) | tskFwState (k : Nat) | tskFwVer (k : Nat) | tskRollout
  | tskRolloutCl
  | egsPortCfg (n : Nat) | egsSampleMask (n : Nat) | egsSampleCfg (d : Nat)
deriving DecidableEq, Repr

/-- The number of a LO or HI register: 0 or 4 bytes up. -/
def hi4 (h : Bool) : Nat := if h then 4 else 0

/-- Start of die d's per-die range (R535). -/
def dieBase (d : Nat) : Nat := 0x00800000 + d * 0x00200000

/-- The BAR0 address of a register (R535, R536, R545–R547). -/
def regAddr : Reg → Nat
  | .lcsState => 0 | .lcsDebug => 4 | .lcsAuth => 8 | .lcsNonce i => 0x10 + 4 * i | .lcsTokenCtrl => 0x20
  | .lcsSerial h => 0x40 + hi4 h | .lcsClass => 0x48 | .lcsIdcode => 0x4C | .lcsCompat i => 0x60 + 4 * i
  | .lcsDieLot d h => 0x80 + 0x10 * d + hi4 h | .lcsDiePos d => 0x88 + 0x10 * d
  | .lcsHbmVendor d => 0xC0 + 0x10 * d | .lcsHbmSerial d h => 0xC4 + 0x10 * d + hi4 h
  | .lcsOwnerHash k i => 0x100 + 0x40 * k + 4 * i | .lcsDbgAddr => 0x200 | .lcsDbgData => 0x204
  | .lcsTokenBuf i => 0x400 + 4 * i | .lcsKeyBuf i => 0x500 + 4 * i | .lcsLanePath n => 0x1000 + 4 * n
  | .pwrCtrl => 0x40000 | .pwrStatus => 0x40004 | .pwrStartTime => 0x40008 | .pwrAutoCfg => 0x40010
  | .pwrThermCtrl => 0x40020 | .pwrThermStatus => 0x40024 | .pwrInfraSel => 0x40040
  | .pwrDomainStatus n => 0x40100 + 4 * n
  | .hifCtrl => 0x80000 | .hifStatus => 0x80008 | .hifCommitErr => 0x8000C
  | .hifPage w l h => 0x80010 + 0x20 * linkNo l + 8 * w + hi4 h
  | .hifPollCfg => 0x80050 | .hifRingOwn i => 0x80100 + 4 * i | .hifWinOwn i => 0x80160 + 4 * i
  | .hifWinLo w => 0x81000 + 0x10 * w | .hifWinHi w => 0x81004 + 0x10 * w | .hifWinSize w => 0x81008 + 0x10 * w
  | .hifPoolCfg p => 0x82000 + 8 * p | .hifPoolTmo p => 0x82004 + 8 * p
  | .hifRingLo g => 0x84000 + 0x10 * g | .hifRingHi g => 0x84004 + 0x10 * g
  | .hifRingCfg g => 0x84008 + 0x10 * g | .hifRingMod g => 0x8400C + 0x10 * g
  | .hifEvsrcMap n => 0x88000 + 4 * n | .hifVecMod v => 0x8C000 + 4 * v
  | .timCfg => 0xC0000 | .timCtrl => 0xC0004 | .timStatus => 0xC0008 | .timSnapFrac => 0xC0010 | .timSnapNs => 0xC0014
  | .timSnapSec h => 0xC0018 + hi4 h | .timPtpCfg => 0xC0030 | .timTinCfg => 0xC0034 | .timOutStatus => 0xC0038
  | .timPortCfg n => 0xC1000 + 4 * n | .timPortComp n => 0xC2000 + 4 * n
  | .cusStatus => 0x100000 | .cusGen => 0x100004 | .cusCtrl => 0x100008 | .cusCfg => 0x10000C
  | .cusPreloadLo => 0x100010 | .cusPreloadHi => 0x100014 | .cusPreloadLen => 0x100018
  | .cusPreloadStatus => 0x10001C | .cusCkptSeq => 0x100020 | .cusCkptAge => 0x100024
  | .logCfg => 0x140000 | .logCtrl => 0x140004 | .logStatus => 0x140008 | .logCursor h => 0x140010 + hi4 h
  | .logOldest h => 0x140018 + hi4 h | .logNext h => 0x140020 + hi4 h | .logWin i => 0x140040 + 4 * i
  | .logWinStatus => 0x140060 | .logStatSel => 0x140080 | .logStatWin i => 0x140100 + 4 * i
  | .chkScrubCfg => 0x180000 | .chkGuardStatus => 0x180004
  | .chkFeedCfg e => 0x181000 + 0x40 * e | .chkFeedPrefix e h => 0x181004 + 0x40 * e + hi4 h
  | .chkFeedB e => 0x181010 + 0x40 * e | .chkFeedH e => 0x181014 + 0x40 * e | .chkFeedW e => 0x181018 + 0x40 * e
  | .chkFeedRes e h => 0x181020 + 0x40 * e + hi4 h | .chkFeedCount e => 0x181028 + 0x40 * e
  | .hbmCtrl d => 0x200000 + 0x40000 * d | .hbmStatus d => 0x200004 + 0x40000 * d
  | .hbmBankXor d i => 0x200010 + 0x40000 * d + 4 * i | .hbmTempCfg d => 0x200020 + 0x40000 * d
  | .hbmQosCfg d => 0x200024 + 0x40000 * d | .hbmPanicCfg d => 0x200028 + 0x40000 * d
  | .hbmScrubCfg d => 0x20002C + 0x40000 * d | .hbmMigCfg d => 0x200030 + 0x40000 * d
  | .hbmMigCtrl d => 0x200034 + 0x40000 * d | .hbmMigStatus d => 0x200038 + 0x40000 * d
  | .hbmRankMap d => 0x200040 + 0x40000 * d | .hbmRankStatus d => 0x200044 + 0x40000 * d
  | .hbmRankCtrl d => 0x200048 + 0x40000 * d
  | .fabArbStatus => 0x400000 | .fabCreditCfg => 0x400004 | .fabReseqCfg => 0x400008
  | .fabDlCfg x => 0x400100 + 8 * x | .fabDlStatus x => 0x400104 + 8 * x
  | .bufPoolCfg d => 0x410000 + 0x10000 * d | .bufQlimCfg d => 0x410004 + 0x10000 * d
  | .bufPuntCfg d => 0x410008 + 0x10000 * d | .bufAuditCfg d => 0x41000C + 0x10000 * d
  | .bufWdCfg d => 0x410010 + 0x10000 * d | .bufStatus d => 0x410014 + 0x10000 * d
  | .bufHoldCfg p => 0x410020 + 0x10000 * (p / 4) + 4 * (p % 4)
  | .bufPfcProf d i => 0x410040 + 0x10000 * d + 8 * i | .bufPfcProf2 d i => 0x410044 + 0x10000 * d + 8 * i
  | .bufPortCfg n => 0x410400 + 0x10000 * (n / 128) + 4 * (n % 128)
  | .phyOctetCfg k => dieBase (k / 16) + 0x100 + 0x10 * (k % 16)
  | .prsLaneCfg n => dieBase (n / 128) + 0x40000 + 4 * (n % 128)
  | .prsProfile p j => dieBase (p / 4) + 0x40400 + 0x40 * (p % 4) + 4 * j
  | .prsMalfAct p => dieBase (p / 4) + 0x40500 + 8 * (p % 4)
  | .prsMalfDest p => dieBase (p / 4) + 0x40504 + 8 * (p % 4)
  | .clsBankCfg p => dieBase (p / 4) + 0x80000 + 4 * (p % 4)
  | .clsEpochStatus p => dieBase (p / 4) + 0x80040 + 4 * (p % 4)
  | .clsRecircCfg p => dieBase (p / 4) + 0x80080 + 4 * (p % 4)
  | .fwdPortCfg n => dieBase (n / 128) + 0xC0000 + 4 * (n % 128)
  | .fwdLearnCfg d => dieBase d + 0xC0400 | .fwdFlapCfg d => dieBase d + 0xC0404
  | .fwdAgeCfg d => dieBase d + 0xC0408 | .fwdEvictCfg d => dieBase d + 0xC040C
  | .fwdPuntCfg d => dieBase d + 0xC0410 | .fwdHashSeed d => dieBase d + 0xC0414
  | .fwdLpmCfg d => dieBase d + 0xC0418 | .fwdLpm4Len d l => dieBase d + 0xC0500 + 4 * l
  | .fwdLpm6Len d l => dieBase d + 0xC0600 + 4 * l | .fwdCmpCfg d => dieBase d + 0xC0900
  | .fwdCmpStatus d => dieBase d + 0xC0904 | .fwdCmpSuspect d i => dieBase d + 0xC0980 + 4 * i
  | .fwdCmpStale d i => dieBase d + 0xC0A00 + 4 * i
  | .fleHashSeed d => dieBase d + 0x100000 | .fleSweepCfg d => dieBase d + 0x100004
  | .fleCreateCfg d => dieBase d + 0x100008 | .flePressureCfg d => dieBase d + 0x10000C
  | .fleExportCfg d => dieBase d + 0x100010 | .fleSliceStatus s => dieBase (s / 2) + 0x100030 + 4 * (s % 2)
  | .fleSpecCfg p => dieBase (p / 4) + 0x100040 + 4 * (p % 4)
  | .fleSpecStatus p => dieBase (p / 4) + 0x100050 + 4 * (p % 4)
  | .fleHorizonCfg d => dieBase d + 0x100060 | .fleCtimeStatus d => dieBase d + 0x100064
  | .tskClassCfg s c => dieBase (s / 2) + 0x140000 + 0x100 * (s % 2) + 4 * c
  | .tskClusterMaskLo k => dieBase (k / 6) + 0x140200 + 0x30 * (k / 3 % 2) + 0x10 * (k % 3)
  | .tskClusterMaskHi k => dieBase (k / 6) + 0x140204 + 0x30 * (k / 3 % 2) + 0x10 * (k % 3)
  | .tskClusterMode k => dieBase (k / 6) + 0x140208 + 0x30 * (k / 3 % 2) + 0x10 * (k % 3)
  | .tskLimitCfg s => dieBase (s / 2) + 0x140300 + 4 * (s % 2)
  | .tskSliceStatus s => dieBase (s / 2) + 0x140310 + 4 * (s % 2)
  | .tskFwState k => dieBase (k / 6) + 0x140320 + 4 * (k % 6)
  | .tskFwVer k => dieBase (k / 6) + 0x140340 + 4 * (k % 6)
  | .tskRollout => dieBase 0 + 0x140360 | .tskRolloutCl => dieBase 0 + 0x140364
  | .egsPortCfg n => dieBase (n / 128) + 0x180000 + 4 * (n % 128)
  | .egsSampleMask n => dieBase (n / 128) + 0x180200 + 4 * (n % 128)
  | .egsSampleCfg d => dieBase d + 0x180400

/-- The index of an address in an array of registers. -/
def inArr (a base stride count : Nat) : Option Nat :=
  if base ≤ a ∧ (a - base) % stride = 0 ∧ (a - base) / stride < count then some ((a - base) / stride) else none

/-- The first hit of a list of register arrays, each with its base, stride, count and register. -/
def pickArr (a : Nat) : List (Nat × Nat × Nat × (Nat → Reg)) → Option Reg
  | [] => none
  | (b, st, n, f) :: r =>
    match inArr a b st n with
    | some i => some (f i)
    | none => pickArr a r

/-- One register at one address. -/
def one (a : Nat) (r : Reg) : Nat × Nat × Nat × (Nat → Reg) := (a, 4, 1, fun _ => r)

/-- The LCS block's registers. -/
def lcsRegs : List (Nat × Nat × Nat × (Nat → Reg)) :=
  [one 0 .lcsState, one 4 .lcsDebug, one 8 .lcsAuth, (0x10, 4, 4, .lcsNonce), one 0x20 .lcsTokenCtrl,
   one 0x40 (.lcsSerial false), one 0x44 (.lcsSerial true), one 0x48 .lcsClass, one 0x4C .lcsIdcode,
   (0x60, 4, 8, .lcsCompat), (0x80, 0x10, 4, fun d => .lcsDieLot d false), (0x84, 0x10, 4, fun d => .lcsDieLot d true),
   (0x88, 0x10, 4, .lcsDiePos), (0xC0, 0x10, 4, .lcsHbmVendor), (0xC4, 0x10, 4, fun d => .lcsHbmSerial d false),
   (0xC8, 0x10, 4, fun d => .lcsHbmSerial d true), (0x100, 4, 12, .lcsOwnerHash 0), (0x140, 4, 12, .lcsOwnerHash 1),
   (0x180, 4, 12, .lcsOwnerHash 2), (0x1C0, 4, 12, .lcsOwnerHash 3), one 0x200 .lcsDbgAddr, one 0x204 .lcsDbgData,
   (0x400, 4, 64, .lcsTokenBuf), (0x500, 4, 24, .lcsKeyBuf), (0x1000, 4, 512, .lcsLanePath)]

/-- The PWR block's registers. -/
def pwrRegs : List (Nat × Nat × Nat × (Nat → Reg)) :=
  [one 0x40000 .pwrCtrl, one 0x40004 .pwrStatus, one 0x40008 .pwrStartTime, one 0x40010 .pwrAutoCfg,
   one 0x40020 .pwrThermCtrl, one 0x40024 .pwrThermStatus, one 0x40040 .pwrInfraSel,
   (0x40100, 4, 112, .pwrDomainStatus)]

/-- The HIF block's registers. -/
def hifRegs : List (Nat × Nat × Nat × (Nat → Reg)) :=
  [one 0x80000 .hifCtrl, one 0x80008 .hifStatus, one 0x8000C .hifCommitErr,
   (0x80010, 8, 3, fun w => .hifPage w .a false), (0x80014, 8, 3, fun w => .hifPage w .a true),
   (0x80030, 8, 3, fun w => .hifPage w .b false), (0x80034, 8, 3, fun w => .hifPage w .b true),
   one 0x80050 .hifPollCfg, (0x80100, 4, 24, .hifRingOwn), (0x80160, 4, 2, .hifWinOwn),
   (0x81000, 0x10, 64, .hifWinLo), (0x81004, 0x10, 64, .hifWinHi), (0x81008, 0x10, 64, .hifWinSize),
   (0x82000, 8, 64, .hifPoolCfg), (0x82004, 8, 64, .hifPoolTmo),
   (0x84000, 0x10, 752, .hifRingLo), (0x84004, 0x10, 752, .hifRingHi), (0x84008, 0x10, 752, .hifRingCfg),
   (0x8400C, 0x10, 752, .hifRingMod), (0x88000, 4, 4096, .hifEvsrcMap), (0x8C000, 4, 256, .hifVecMod)]

/-- The TIM, CUS, LOG and CHK blocks' registers. -/
def midRegs : List (Nat × Nat × Nat × (Nat → Reg)) :=
  [one 0xC0000 .timCfg, one 0xC0004 .timCtrl, one 0xC0008 .timStatus, one 0xC0010 .timSnapFrac,
   one 0xC0014 .timSnapNs, one 0xC0018 (.timSnapSec false), one 0xC001C (.timSnapSec true), one 0xC0030 .timPtpCfg,
   one 0xC0034 .timTinCfg, one 0xC0038 .timOutStatus, (0xC1000, 4, 512, .timPortCfg), (0xC2000, 4, 512, .timPortComp),
   one 0x100000 .cusStatus, one 0x100004 .cusGen, one 0x100008 .cusCtrl, one 0x10000C .cusCfg,
   one 0x100010 .cusPreloadLo, one 0x100014 .cusPreloadHi, one 0x100018 .cusPreloadLen,
   one 0x10001C .cusPreloadStatus, one 0x100020 .cusCkptSeq, one 0x100024 .cusCkptAge,
   one 0x140000 .logCfg, one 0x140004 .logCtrl, one 0x140008 .logStatus, one 0x140010 (.logCursor false),
   one 0x140014 (.logCursor true), one 0x140018 (.logOldest false), one 0x14001C (.logOldest true),
   one 0x140020 (.logNext false), one 0x140024 (.logNext true), (0x140040, 4, 8, .logWin), one 0x140060 .logWinStatus,
   one 0x140080 .logStatSel, (0x140100, 4, 32, .logStatWin),
   one 0x180000 .chkScrubCfg, one 0x180004 .chkGuardStatus, (0x181000, 0x40, 16, .chkFeedCfg),
   (0x181004, 0x40, 16, fun e => .chkFeedPrefix e false), (0x181008, 0x40, 16, fun e => .chkFeedPrefix e true),
   (0x181010, 0x40, 16, .chkFeedB), (0x181014, 0x40, 16, .chkFeedH), (0x181018, 0x40, 16, .chkFeedW),
   (0x181020, 0x40, 16, fun e => .chkFeedRes e false), (0x181024, 0x40, 16, fun e => .chkFeedRes e true),
   (0x181028, 0x40, 16, .chkFeedCount)]

/-- The HBM, FAB and BUF blocks' registers. -/
def memRegs : List (Nat × Nat × Nat × (Nat → Reg)) :=
  [(0x200000, 0x40000, 4, .hbmCtrl), (0x200004, 0x40000, 4, .hbmStatus), (0x200010, 0x40000, 4, (.hbmBankXor · 0)),
   (0x200014, 0x40000, 4, (.hbmBankXor · 1)), (0x200018, 0x40000, 4, (.hbmBankXor · 2)),
   (0x20001C, 0x40000, 4, (.hbmBankXor · 3)), (0x200020, 0x40000, 4, .hbmTempCfg), (0x200024, 0x40000, 4, .hbmQosCfg),
   (0x200028, 0x40000, 4, .hbmPanicCfg), (0x20002C, 0x40000, 4, .hbmScrubCfg), (0x200030, 0x40000, 4, .hbmMigCfg),
   (0x200034, 0x40000, 4, .hbmMigCtrl), (0x200038, 0x40000, 4, .hbmMigStatus), (0x200040, 0x40000, 4, .hbmRankMap),
   (0x200044, 0x40000, 4, .hbmRankStatus), (0x200048, 0x40000, 4, .hbmRankCtrl),
   one 0x400000 .fabArbStatus, one 0x400004 .fabCreditCfg, one 0x400008 .fabReseqCfg, (0x400100, 8, 6, .fabDlCfg),
   (0x400104, 8, 6, .fabDlStatus),
   (0x410000, 0x10000, 4, .bufPoolCfg), (0x410004, 0x10000, 4, .bufQlimCfg), (0x410008, 0x10000, 4, .bufPuntCfg),
   (0x41000C, 0x10000, 4, .bufAuditCfg), (0x410010, 0x10000, 4, .bufWdCfg), (0x410014, 0x10000, 4, .bufStatus)]
  ++ (upTo 4).flatMap fun d =>
    [(0x410020 + 0x10000 * d, 4, 4, fun i => .bufHoldCfg (4 * d + i)), (0x410040 + 0x10000 * d, 8, 4, .bufPfcProf d),
     (0x410044 + 0x10000 * d, 8, 4, .bufPfcProf2 d), (0x410400 + 0x10000 * d, 4, 128, fun i => .bufPortCfg (128 * d + i))]

/-- A die's registers, in its per-die range. -/
def dieRegs (d : Nat) : List (Nat × Nat × Nat × (Nat → Reg)) :=
  let b := dieBase d
  [(b + 0x100, 0x10, 16, fun i => .phyOctetCfg (16 * d + i)), (b + 0x40000, 4, 128, fun i => .prsLaneCfg (128 * d + i))]
  ++ ((upTo 4).map fun i => (b + 0x40400 + 0x40 * i, 4, 16, fun j => Reg.prsProfile (4 * d + i) j))
  ++ [(b + 0x40500, 8, 4, fun i => .prsMalfAct (4 * d + i)), (b + 0x40504, 8, 4, fun i => .prsMalfDest (4 * d + i)),
   (b + 0x80000, 4, 4, fun i => .clsBankCfg (4 * d + i)), (b + 0x80040, 4, 4, fun i => .clsEpochStatus (4 * d + i)),
   (b + 0x80080, 4, 4, fun i => .clsRecircCfg (4 * d + i)), (b + 0xC0000, 4, 128, fun i => .fwdPortCfg (128 * d + i)),
   one (b + 0xC0400) (.fwdLearnCfg d), one (b + 0xC0404) (.fwdFlapCfg d), one (b + 0xC0408) (.fwdAgeCfg d),
   one (b + 0xC040C) (.fwdEvictCfg d), one (b + 0xC0410) (.fwdPuntCfg d), one (b + 0xC0414) (.fwdHashSeed d),
   one (b + 0xC0418) (.fwdLpmCfg d), (b + 0xC0500, 4, 33, .fwdLpm4Len d), (b + 0xC0600, 4, 129, .fwdLpm6Len d),
   one (b + 0xC0900) (.fwdCmpCfg d), one (b + 0xC0904) (.fwdCmpStatus d), (b + 0xC0980, 4, 32, .fwdCmpSuspect d),
   (b + 0xC0A00, 4, 32, .fwdCmpStale d), one (b + 0x100000) (.fleHashSeed d), one (b + 0x100004) (.fleSweepCfg d),
   one (b + 0x100008) (.fleCreateCfg d), one (b + 0x10000C) (.flePressureCfg d), one (b + 0x100010) (.fleExportCfg d),
   (b + 0x100030, 4, 2, fun i => .fleSliceStatus (2 * d + i)), (b + 0x100040, 4, 4, fun i => .fleSpecCfg (4 * d + i)),
   (b + 0x100050, 4, 4, fun i => .fleSpecStatus (4 * d + i)), one (b + 0x100060) (.fleHorizonCfg d),
   one (b + 0x100064) (.fleCtimeStatus d), (b + 0x140000, 4, 64, .tskClassCfg (2 * d)),
   (b + 0x140100, 4, 64, .tskClassCfg (2 * d + 1)), (b + 0x140200, 0x10, 6, fun i => .tskClusterMaskLo (6 * d + i)),
   (b + 0x140204, 0x10, 6, fun i => .tskClusterMaskHi (6 * d + i)), (b + 0x140208, 0x10, 6, fun i => .tskClusterMode (6 * d + i)),
   (b + 0x140300, 4, 2, fun i => .tskLimitCfg (2 * d + i)), (b + 0x140310, 4, 2, fun i => .tskSliceStatus (2 * d + i)),
   (b + 0x140320, 4, 6, fun i => .tskFwState (6 * d + i)), (b + 0x140340, 4, 6, fun i => .tskFwVer (6 * d + i)),
   (b + 0x180000, 4, 128, fun i => .egsPortCfg (128 * d + i)), (b + 0x180200, 4, 128, fun i => .egsSampleMask (128 * d + i)),
   one (b + 0x180400) (.egsSampleCfg d)]
  ++ if d = 0 then [one (b + 0x140360) .tskRollout, one (b + 0x140364) .tskRolloutCl] else []

/-- The register at an address, none for a reserved one (R535, R538). -/
def regAt (a : Nat) : Option Reg :=
  if a % 4 ≠ 0 then none
  else if a < 0x40000 then pickArr a lcsRegs
  else if a < 0x80000 then pickArr a pwrRegs
  else if a < 0xC0000 then pickArr a hifRegs
  else if a < 0x1C0000 then pickArr a midRegs
  else if a < 0x800000 then pickArr a memRegs
  else pickArr a (dieRegs ((a - 0x800000) / 0x200000))

/-- The register's unit is present on the part (R3). -/
def regPresent (p : Part) : Reg → Bool
  | .lcsDieLot d _ | .lcsDiePos d | .lcsHbmVendor d | .lcsHbmSerial d _ => hasDie p d
  | .lcsLanePath n | .timPortCfg n | .timPortComp n | .bufPortCfg n | .prsLaneCfg n | .fwdPortCfg n | .egsPortCfg n
  | .egsSampleMask n => hasLane p n
  | .pwrDomainStatus n => hasDomain p n
  | .hbmCtrl d | .hbmStatus d | .hbmBankXor d _ | .hbmTempCfg d | .hbmQosCfg d | .hbmPanicCfg d | .hbmScrubCfg d
  | .hbmMigCfg d | .hbmMigCtrl d | .hbmMigStatus d | .hbmRankMap d | .hbmRankStatus d | .hbmRankCtrl d
  | .bufPoolCfg d | .bufQlimCfg d | .bufPuntCfg d | .bufAuditCfg d | .bufWdCfg d | .bufStatus d | .bufPfcProf d _
  | .bufPfcProf2 d _ | .fwdLearnCfg d | .fwdFlapCfg d | .fwdAgeCfg d | .fwdEvictCfg d | .fwdPuntCfg d | .fwdHashSeed d
  | .fwdLpmCfg d | .fwdLpm4Len d _ | .fwdLpm6Len d _ | .fwdCmpCfg d | .fwdCmpStatus d | .fwdCmpSuspect d _
  | .fwdCmpStale d _ | .fleHashSeed d | .fleSweepCfg d | .fleCreateCfg d | .flePressureCfg d | .fleExportCfg d
  | .fleHorizonCfg d | .fleCtimeStatus d | .egsSampleCfg d => hasDie p d
  | .fabDlCfg x | .fabDlStatus x => (linksOf p).contains x
  | .bufHoldCfg n | .prsProfile n _ | .prsMalfAct n | .prsMalfDest n | .clsBankCfg n | .clsEpochStatus n
  | .clsRecircCfg n | .fleSpecCfg n | .fleSpecStatus n => hasPipe p n
  | .phyOctetCfg k => hasOctet p k
  | .fleSliceStatus n | .tskClassCfg n _ | .tskLimitCfg n | .tskSliceStatus n => hasSlice p n
  | .tskClusterMaskLo k | .tskClusterMaskHi k | .tskClusterMode k | .tskFwState k | .tskFwVer k => hasCluster p k
  | _ => true

/-- The access codes of R12 that store or act; RO fields are not listed. -/
inductive Acc where | rw | wo | w1c | w1s | rwo | lck
deriving DecidableEq, Repr

/-- One field: its bits, its access code, its reset value. -/
structure FieldDef where
  /-- high bit -/
  hi : Nat
  /-- low bit -/
  lo : Nat
  /-- access code -/
  acc : Acc
  /-- reset value -/
  rst : Nat
deriving DecidableEq, Repr

/-- An RW field. -/
def rwF (hi lo rst : Nat) : FieldDef := ⟨hi, lo, .rw, rst⟩
/-- An LCK field. -/
def lkF (hi lo rst : Nat) : FieldDef := ⟨hi, lo, .lck, rst⟩
/-- A W1S bit. -/
def wsF (n : Nat) : FieldDef := ⟨n, n, .w1s, 0⟩

/-- The writable fields of a register (R12 and each chapter's register tables). -/
def fieldsOf : Reg → List FieldDef
  | .lcsTokenCtrl => [wsF 31]
  | .lcsDbgAddr | .lcsTokenBuf _ | .lcsKeyBuf _ => [rwF 31 0 0]
  | .pwrCtrl => [⟨1, 1, .rwo, 0⟩, wsF 0]
  | .pwrAutoCfg => [lkF 3 3 1, lkF 2 2 1, lkF 1 1 0, lkF 0 0 0]
  | .pwrThermCtrl => [lkF 7 0 105]
  | .pwrInfraSel => [rwF 1 1 0, lkF 0 0 0]
  | .hifCtrl => [wsF 5, wsF 4, wsF 3, wsF 2, ⟨1, 1, .rwo, 0⟩, ⟨0, 0, .rwo, 0⟩]
  | .hifStatus => [⟨7, 7, .w1c, 0⟩]
  | .hifPage _ _ false => [lkF 31 12 0]
  | .hifPage _ _ true => [lkF 31 0 0]
  | .hifPollCfg => [lkF 11 8 3, lkF 7 4 9, lkF 3 0 0]
  | .hifRingOwn i => [lkF (if i = 23 then 15 else 31) 0 0]
  | .hifWinOwn _ => [lkF 31 0 0]
  | .hifWinLo _ => [lkF 31 12 0, lkF 2 2 0, lkF 1 1 0, lkF 0 0 0]
  | .hifWinHi _ => [lkF 31 0 0]
  | .hifWinSize _ => [lkF 27 0 0]
  | .hifPoolCfg _ => [lkF 2 0 0]
  | .hifPoolTmo _ => [lkF 31 31 0, lkF 19 0 0]
  | .hifRingLo _ => [lkF 31 12 0]
  | .hifRingHi _ => [lkF 31 0 0]
  | .hifRingCfg _ => [lkF 31 31 0, lkF 27 20 0, lkF 19 16 0, lkF 13 8 0, lkF 7 7 0]
  | .hifRingMod _ => [lkF 31 16 0, lkF 15 0 1]
  | .hifEvsrcMap _ => [lkF 31 31 0, lkF 11 8 0, lkF 7 0 0]
  | .hifVecMod _ => [lkF 15 0 0]
  | .timCfg => [lkF 31 16 0, lkF 5 4 1, lkF 1 0 0]
  | .timCtrl => [wsF 1, wsF 0]
  | .timPtpCfg => [lkF 7 0 0]
  | .timTinCfg => [lkF 7 0 0]
  | .timPortCfg _ => [lkF 31 30 1, lkF 23 12 0, lkF 11 0 0]
  | .cusCtrl => [wsF 3, wsF 2, wsF 1, wsF 0]
  | .cusCfg => [lkF 8 8 0, lkF 7 0 10]
  | .cusPreloadLo | .cusPreloadHi | .cusPreloadLen => [rwF 31 0 0]
  | .logCfg => [lkF 31 16 60, lkF 15 0 1000]
  | .logCtrl => [wsF 2, rwF 1 1 0, rwF 0 0 0]
  | .logCursor false => [rwF 31 0 0]
  | .logCursor true => [rwF 15 0 0]
  | .logStatSel => [rwF 7 0 0]
  | .chkScrubCfg => [lkF 15 0 1000]
  | .chkFeedCfg _ => [wsF 31, lkF 30 30 0, rwF 2 2 0, rwF 1 0 1]
  | .chkFeedPrefix _ _ => [rwF 31 0 0]
  | .chkFeedB _ => [⟨7, 0, .wo, 0⟩]
  | .chkFeedH _ => [⟨15, 0, .wo, 0⟩]
  | .chkFeedW _ => [⟨31, 0, .wo, 0⟩]
  | .hbmCtrl _ => [rwF 0 0 0]
  | .hbmBankXor _ i => [lkF 13 0 (0x0111 * 2 ^ i)]
  | .hbmTempCfg _ => [lkF 7 0 95]
  | .hbmQosCfg _ => [lkF 19 16 8, lkF 15 12 4, lkF 11 8 2, lkF 7 4 1, lkF 3 0 1]
  | .hbmPanicCfg _ => [lkF 15 8 192, lkF 7 0 128]
  | .hbmScrubCfg _ => [lkF 31 31 0, lkF 23 8 1000, lkF 7 0 8]
  | .hbmMigCfg _ => [lkF 7 0 32]
  | .hbmMigCtrl _ => [wsF 31, wsF 30, rwF 1 0 0]
  | .hbmRankCtrl _ => [⟨2, 0, .w1s, 0⟩]
  | .fabCreditCfg => [lkF 31 16 3072, lkF 15 0 4096]
  | .fabReseqCfg => [lkF 7 0 10]
  | .fabDlCfg _ => [lkF 15 0 16]
  | .bufPoolCfg _ => [lkF 18 0 32768]
  | .bufQlimCfg _ => [lkF 3 0 7]
  | .bufPuntCfg _ => [lkF 16 0 8192]
  | .bufAuditCfg _ => [lkF 31 31 0, lkF 15 0 100]
  | .bufWdCfg _ => [lkF 31 16 1000, lkF 15 0 100]
  | .bufHoldCfg _ => [lkF 26 16 768, lkF 10 0 512]
  | .bufPfcProf _ _ => [lkF 29 16 1536, lkF 13 0 2048]
  | .bufPfcProf2 _ _ => [lkF 15 0 1024]
  | .bufPortCfg _ => [lkF 31 31 0, lkF 30 23 0, lkF 22 20 0, lkF 19 18 0, lkF 17 17 1, lkF 7 0 0xFF]
  | .phyOctetCfg _ => [rwF 31 24 0xFF, rwF 6 3 0, rwF 2 1 0, rwF 0 0 0]
  | .prsLaneCfg _ => [lkF 3 0 0]
  | .prsProfile _ _ => [lkF 9 9 0, lkF 8 8 0, lkF 7 0 0]
  | .prsMalfAct _ => [lkF 31 2 0]
  | .prsMalfDest _ => [lkF 15 8 0, lkF 7 0 0]
  | .clsBankCfg _ => [lkF 15 0 0]
  | .clsRecircCfg _ => [lkF 2 0 3]
  | .fwdPortCfg _ => [lkF 31 30 1, lkF 29 29 0, lkF 28 16 0, lkF 11 0 1]
  | .fwdLearnCfg _ => [lkF 20 20 0, lkF 19 16 3, lkF 14 0 1000]
  | .fwdFlapCfg _ => [lkF 14 0 10000]
  | .fwdAgeCfg _ => [lkF 31 31 1, lkF 19 16 10, lkF 14 0 30000]
  | .fwdEvictCfg _ => [lkF 0 0 1]
  | .fwdPuntCfg _ => [lkF 15 8 0, lkF 7 0 0]
  | .fwdHashSeed _ => [lkF 31 0 0]
  | .fwdLpmCfg _ => [lkF 15 8 32, lkF 5 0 16]
  | .fwdLpm4Len _ _ | .fwdLpm6Len _ _ => [lkF 31 31 0, lkF 11 8 0, lkF 7 0 0]
  | .fwdCmpCfg _ => [lkF 31 31 1, lkF 25 24 0, lkF 11 0 60]
  | .fleHashSeed _ => [lkF 31 0 0]
  | .fleSweepCfg _ => [lkF 31 16 100, lkF 15 0 1000]
  | .fleCreateCfg _ => [lkF 31 16 1000, lkF 14 0 16384]
  | .flePressureCfg _ => [lkF 31 31 1, lkF 30 28 2, lkF 27 20 8, lkF 19 0 1000]
  | .fleExportCfg _ => [lkF 15 0 100]
  | .fleSpecCfg _ => [lkF 31 31 1, lkF 23 20 3, lkF 19 0 1000]
  | .fleHorizonCfg _ => [lkF 11 0 1000]
  | .tskClassCfg _ _ => [lkF 31 30 0, lkF 29 27 0, lkF 15 0 16]
  | .tskClusterMaskLo _ | .tskClusterMaskHi _ => [lkF 31 0 0xFFFFFFFF]
  | .tskClusterMode _ => [lkF 1 1 0, lkF 0 0 0]
  | .tskLimitCfg _ => [lkF 31 16 1000, lkF 15 0 1000]
  | .tskRollout => [⟨30, 30, .w1c, 0⟩]
  | .egsPortCfg _ => [lkF 21 16 20, lkF 13 0 16383]
  | .egsSampleMask _ => [lkF 15 0 0]
  | .egsSampleCfg _ => [lkF 31 31 0, lkF 20 16 0, lkF 15 0 1000]
  | _ => []

/-- The mask of the bits hi down to lo. -/
def maskOf (hi lo : Nat) : Word := BitVec.ofNat 32 (2 ^ (hi + 1) - 2 ^ lo)

/-- The mask of a register's fields with an access code. -/
def accMask (r : Reg) (a : Acc) : Word :=
  (fieldsOf r).foldl (fun m f => if f.acc = a then m ||| maskOf f.hi f.lo else m) 0

/-- The stored bits of a register: its RW and LCK fields. -/
def storedMask (r : Reg) : Word := accMask r .rw ||| accMask r .lck

/-- The reset value of a register's stored fields (R544). -/
def resetOf (r : Reg) : Word :=
  (fieldsOf r).foldl (fun m f => if f.acc = .rw ∨ f.acc = .lck then m ||| BitVec.ofNat 32 (f.rst * 2 ^ f.lo) else m) 0

/-- The stored fields of a register. -/
def stored (s : State) (r : Reg) : Word := mget (resetOf r) s.regs (regAddr r)

/-- Store a register's fields. -/
def putReg (r : Reg) (v : Word) (s : State) : State :=
  { s with regs := mset (resetOf r) s.regs (regAddr r) v }

/-- A field [hi:lo] of a register's stored value, as the device uses it. -/
def cfg (s : State) (r : Reg) (hi lo : Nat) : Nat := fld (stored s r).toNat hi lo

/-- A bit of it. -/
def cfgBit (s : State) (r : Reg) (n : Nat) : Bool := (stored s r).getLsbD n

/-- A field whose value 0 acts as 1. -/
def cfg1 (s : State) (r : Reg) (hi lo : Nat) : Nat := Nat.max 1 (cfg s r hi lo)

/-- A masked write: the bits of the mask take the value's, the others stay. -/
def maskedWrite (old mask v : Word) : Word := (old &&& ~~~mask) ||| (v &&& mask)

/-! ### Which link owns a ring, a window or a page (R41, R88) -/

/-- The link a ring belongs to. -/
def ringLink (s : State) (g : Nat) : Link :=
  if s.hif.bifurcated && cfgBit s (.hifRingOwn (g / 32)) (g % 32) then .b else .a

/-- The link a window belongs to. -/
def winLink (s : State) (w : Nat) : Link :=
  if s.hif.bifurcated && cfgBit s (.hifWinOwn (w / 32)) (w % 32) then .b else .a

/-- The link whose resources a register sets up, for the registers commit_b and R89 single out. -/
def regLink (s : State) : Reg → Link
  | .hifPage _ l _ => l
  | .hifWinLo w | .hifWinHi w | .hifWinSize w => winLink s w
  | .hifRingLo g | .hifRingHi g | .hifRingCfg g | .hifRingMod g => ringLink s g
  | _ => .a

/-- A register of the HIF block (R541). -/
def isHif (r : Reg) : Bool := decide (0x80000 ≤ regAddr r) && decide (regAddr r < 0xC0000)

/-- The commit that covers a register's LCK fields has taken effect (R541). -/
def lockedReg (s : State) (r : Reg) : Bool :=
  if isHif r then (linkSt s (regLink s r)).committed else s.pwr.committed

/-- Link B may write a register when the link is bifurcated (R89). -/
def linkBMayWrite (s : State) : Reg → Bool
  | .hifPage _ l _ => decide (l = .b)
  | .hifWinLo w | .hifWinHi w | .hifWinSize w => decide (winLink s w = .b)
  | .hifRingLo g | .hifRingHi g | .hifRingCfg g | .hifRingMod g => decide (ringLink s g = .b)
  | .hifCtrl => true
  | _ => false

/-- Count a set-up write that was ignored (R84, R82, R541). -/
def countIgnored (path : Path) (s : State) : State :=
  let s := modHif (fun h => { h with ignored := satInc 255 h.ignored }) s
  match path with
  | .linkA => cntInc 0x0381 0 5 s
  | .linkB => cntInc 0x0381 0 13 s
  | .smbus => s

/-- The stored fields of a register after a write: RW bits take the value, LCK bits only before their commit (R12,
R541). -/
def storeWrite (r : Reg) (v : Word) (s : State) : State :=
  let mask := if lockedReg s r then accMask r .rw else storedMask r
  putReg r (maskedWrite (stored s r) mask v) s

/-- A write is counted as ignored when it meets a lock and carries another value for an LCK field (R541). -/
def lockDiffers (s : State) (r : Reg) (v : Word) : Bool :=
  lockedReg s r && decide ((v &&& accMask r .lck) ≠ (stored s r &&& accMask r .lck))

/-- A write's effect on the stored fields, with R541's counting. -/
def plainWrite (path : Path) (r : Reg) (v : Word) (s : State) : State :=
  let t := storeWrite r v s
  if lockDiffers s r v then countIgnored path t else t

end Sys2Proof.Machine
end

