-- ==== Sys2Proof/Machine/Flags.lean ====
section
/-! DEFINITION. Status and interrupt flags: the rings the device writes, events (R65–R72), the logbook's acceptance of
them (R457–R465), MSI-X causes, completions (R61–R64), and the address checks (R42–R44). -/

namespace Sys2Proof.Machine

/-! ### Rings -/

/-- The kinds of ring (R45). -/
inductive RingKind where | cmd | cpl | evt | pnt | inj | exp | pool
deriving DecidableEq, Repr

/-- The kind of ring g (R45). -/
def ringKind (g : Nat) : RingKind :=
  if g < 64 then .cmd else if g < 128 then .cpl else if g < 144 then .evt else if g < 400 then .pnt
  else if g < 656 then .inj else if g < 688 then .exp else .pool

/-- The driver writes the ring (R45). -/
def driverWritten (g : Nat) : Bool :=
  match ringKind g with
  | .cmd | .inj | .pool => true
  | _ => false

/-- The ring's slot in its page (R48). -/
def ringSlot (g : Nat) : Nat :=
  match ringKind g with
  | .cmd => g
  | .cpl => g - 64
  | .evt => 64 + (g - 128)
  | .pnt => 80 + (g - 144)
  | .inj => 64 + (g - 400)
  | .exp => 336 + (g - 656)
  | .pool => 320 + (g - 688)

/-- Entries a ring holds (R46). -/
def ringSize (r : Ring) : Nat := 2 ^ (r.size + 6)

/-- A device-written ring has no free entry for one more descriptor, counting those reserved (R46, R78). -/
def ringFull (r : Ring) : Bool := decide (ringSize r ≤ r.prod + r.reserved - r.cons)

/-- The address of entry i (R46). -/
def entryAddr (r : Ring) (i : Nat) : Nat := r.base + 64 * (i % ringSize r)

/-- The address of a link's page: 0 doorbell, 1 consumer, 2 status (R48, R86). -/
def pageAddr (s : State) (l : Link) (which : Nat) : Nat :=
  (stored s (.hifPage which l true)).toNat * 2 ^ 32 + (stored s (.hifPage which l false)).toNat

/-- Write bytes to host memory. -/
def hostWr (a : Nat) (bs : List Byte) (s : State) : State := { s with host := wrBytes s.host a bs }

/-- Write a ring's index to its slot of its link's status page, unless the page failed its check (R48, R49). -/
def statusWrite (g idx : Nat) (s : State) : State :=
  let l := ringLink s g
  if (linkSt s l).statOk then
    hostWr (pageAddr s l 2 + (if driverWritten g then 0 else 4096) + 8 * ringSlot g) (leBytes 8 idx) s
  else s

/-- Write a descriptor as the ring's next entry (R46). -/
def writeDesc (g : Nat) (bs : List Byte) (s : State) : State :=
  let s := hostWr (entryAddr (ring s g) (ring s g).prod) (takeBytes bs 0 64) s
  modRing g (fun r => { r with prod := r.prod + 1 }) s

/-- Write a device-written ring's producer index, after the entries it covers (R53), and count the new entries as not
yet signalled (R72). -/
def publish (g n : Nat) (s : State) : State :=
  let s := statusWrite g (ring s g).prod s
  modRing g (fun r => { r with unsig := r.unsig + n, unsigSince := if r.unsig = 0 then s.now else r.unsigSince }) s

/-- Write a descriptor and the producer index that covers it. -/
def devWrite (g : Nat) (bs : List Byte) (s : State) : State := publish g 1 (writeDesc g bs s)

/-! ### Severities and sources -/

/-- The severity of an event code (R549). CUS_RELEASE and FAB_ARB_FAIL, which have two, are given by who raises them. -/
def sevOf (code : Nat) : Nat :=
  if [0x0003, 0x0405, 0x0804].contains code then 3
  else if [0x0102, 0x0106, 0x0200, 0x0400, 0x0402, 0x0505, 0x0600, 0x0601, 0x0602, 0x0603, 0x0703, 0x0707, 0x0708, 0x0709,
    0x0801, 0x0803, 0x0805, 0x0900, 0x0901, 0x0C01, 0x0D03, 0x0E00, 0x0E05, 0x0F00, 0x0F04].contains code then 2
  else if [0x0001, 0x0006, 0x0009, 0x0201, 0x0302, 0x0303, 0x0306, 0x0403, 0x0404, 0x0501, 0x0503, 0x0604, 0x0700, 0x0701,
    0x0702, 0x0800, 0x0802, 0x0902, 0x0903, 0x0904, 0x0C00, 0x0D00, 0x0D01, 0x0D02, 0x0E01, 0x0E02, 0x0E03, 0x0E04,
    0x0E06, 0x0F01, 0x0F02, 0x1002].contains code then 1
  else 0

/-- The first per-die source of die d (R65). -/
def dieSrc (d : Nat) : Nat := 0x200 + d * 0x380

/-- The PHY source of a port (R461). -/
def phySrc (port : Nat) : Nat := dieSrc (port / 128) + 8 * (port / 8 % 16) + port % 8
/-- The CLS source k of a pipeline (R67). -/
def clsSrc (p k : Nat) : Nat := dieSrc (p / 4) + 0x0C0 + 32 * (p % 4) + k
/-- The FWD source k of a die (R67). -/
def fwdSrc (d k : Nat) : Nat := dieSrc d + 0x140 + k
/-- The FLE source k of a slice (R67). -/
def fleSrc (sl k : Nat) : Nat := dieSrc (sl / 2) + 0x180 + 64 * (sl % 2) + k
/-- The TSK source k of a slice (R67). -/
def tskSrc (sl k : Nat) : Nat := dieSrc (sl / 2) + 0x200 + 128 * (sl % 2) + k
/-- The EGS source of a port (R350). -/
def egsSrc (port : Nat) : Nat := dieSrc (port / 128) + 0x300 + 32 * (port / 32 % 4) + port % 32
/-- The HBM source k of a stack (R428). -/
def hbmSrc (d k : Nat) : Nat := 0x080 + 32 * d + k
/-- The BUF source k of a die (R321). -/
def bufSrc (d k : Nat) : Nat := 0x180 + 32 * d + k

/-- The power domain whose block a per-die source belongs to (R65, R500). -/
def srcDomain (src : Nat) : Option Nat :=
  if src < 0x200 then none
  else
    let d := (src - 0x200) / 0x380
    let o := (src - 0x200) % 0x380
    if o < 0x080 then some (16 * d + o / 8)
    else if o < 0x0C0 then some (64 + 4 * d + (o - 0x080) / 16)
    else if o < 0x140 then some (64 + 4 * d + (o - 0x0C0) / 32)
    else if o < 0x180 then none
    else if o < 0x200 then some (80 + 2 * d + (o - 0x180) / 64)
    else if o < 0x300 then some (80 + 2 * d + (o - 0x200) / 128)
    else some (64 + 4 * d + (o - 0x300) / 32)

/-- A domain that is not ON or STOPPING lets its sources raise nothing but PWR events, which none of them carries
(R502). -/
def srcSilent (s : State) (src : Nat) : Bool :=
  match srcDomain src with
  | some n => decide (2 ≤ (domain s n).state)
  | none => false

/-! ### Event rings -/

/-- An event descriptor (R69). -/
def evDesc (kind : Nat) (sev src code rep : Nat) (st : Stamp) (p0 p1 p2 p3 seq : Nat) : List Byte :=
  leBytes 1 kind ++ leBytes 1 sev ++ leBytes 2 src ++ leBytes 2 code ++ leBytes 2 rep ++ stampBytes st ++ leBytes 4 0
    ++ leBytes 4 p0 ++ leBytes 4 p1 ++ leBytes 4 p2 ++ leBytes 4 p3 ++ leBytes 8 seq ++ leBytes 16 0

/-- The ring a source's events go to, and the vector they signal (R68, R93); none when the source is not enabled. -/
def srcMap (s : State) (src : Nat) : Option (Nat × Nat) :=
  let r := Reg.hifEvsrcMap src
  if cfgBit s r 31 then some (128 + cfg s r 11 8, cfg s r 7 0) else none

/-- Write the producer index that covers a ring's newest event descriptor, and make its vector's cause pending (R68,
R70, R72). -/
def publishEvent (g : Nat) (s : State) : State :=
  match (ring s g).newest with
  | none => s
  | some n =>
    let s := publish g 1 s
    let s := modRing g (fun r => { r with newest := none }) s
    match srcMap s n.ev.source with
    | some (_, v) => modVec (ringLink s g) v (fun x => { x with cause := true }) s
    | none => s

/-- Write a descriptor on an event ring as its newest; the producer index of the one before it is written first
(R70). -/
def newestDesc (g : Nat) (bs : List Byte) (e : Ev) (folds : Bool) (s : State) : State :=
  let s := publishEvent g s
  let i := (ring s g).prod
  let s := writeDesc g bs s
  modRing g (fun r => { r with newest := some ⟨i, e, 1, s.now, s.actor.toList, folds⟩ }) s

/-- When room has appeared in an enabled event ring with unreported losses, write its EVENT_LOST descriptor (R71). -/
def eventLost (g : Nat) (s : State) : State :=
  let r := ring s g
  if r.enabled && decide (0 < r.lost) && !ringFull r then
    match r.lostFirst with
    | none => s
    | some (src, code, st) =>
      let s := newestDesc g (evDesc 0xE1 r.lostSev src code 1 st r.lost 0 0 0 r.lostSeq)
        ⟨src, code, r.lostSev, r.lost, 0, 0, 0⟩ false s
      modRing g (fun r => { r with lost := 0, lostSev := 0, lostFirst := none }) s
  else s

/-- An event and the newest descriptor are the same occurrence (R70). -/
def sameEv (a b : Ev) : Bool :=
  decide (a.source = b.source) && decide (a.code = b.code) && decide (a.p0 = b.p0) && decide (a.p1 = b.p1)
    && decide (a.p2 = b.p2) && decide (a.p3 = b.p3)

/-- Write an occurrence on its ring: folded, as a new descriptor, or lost (R70, R71). Answers whether it was lost. -/
def toRing (g : Nat) (e : Ev) (s : State) : Bool × State :=
  let s := modRing g (fun r => { r with offered := r.offered + 1 }) s
  let s := eventLost g s
  let r := ring s g
  let fold := match r.newest with
    | some n => n.folds && sameEv n.ev e && decide (r.lost = 0) && decide (n.repeatN < 0xFFFF) && r.enabled
    | none => false
  if fold then
    match r.newest with
    | none => (false, s)
    | some n =>
      let s := hostWr (entryAddr r n.index + 6) (leBytes 2 (n.repeatN + 1)) s
      let c := n.cmds ++ s.actor.toList.filter fun a => !n.cmds.contains a
      let s := modRing g (fun r => { r with newest := some { n with repeatN := n.repeatN + 1, cmds := c } }) s
      (false, if n.repeatN + 1 = 0xFFFF then publishEvent g s else s)
  else if !r.enabled || ringFull r || decide (0 < r.lost) then
    let s := modRing g (fun r => { r with
      lost := r.lost + 1
      lostSev := Nat.max r.lostSev e.sev
      lostFirst := match r.lostFirst with
        | some x => some x
        | none => some (e.source, e.code, stampNow s)
      lostSeq := r.offered }) s
    (true, cntInc 0x0381 0 (match ringLink s g with | .a => 6 | .b => 14) s)
  else
    (false, newestDesc g (evDesc 0xE0 e.sev e.source e.code 1 (stampNow s) e.p0 e.p1 e.p2 e.p3 r.offered) e true s)

/-! ### The logbook's acceptance -/

/-- The staging area's size (R464). -/
def stagingMax : Nat := 32768

/-- The flags of a new record (R457). -/
def recFlags (s : State) (lost : Bool) : Nat :=
  b2n s.tim.stepDone + 2 * b2n s.tim.traceable + 4 * b2n s.tim.holdover + 8 * b2n lost + 16 * (s.tim.gen % 16)

/-- Append a record with the next serial (R459). -/
def appendRec (e : Ev) (ns sec : Nat) (lost : Bool) (s : State) : State :=
  let rec1 : LogRec := ⟨s.log.next, e, ns, sec, 1, recFlags s lost, s.now, 0x5A⟩
  let s := modLog (fun l => { l with
    staged := l.staged ++ [rec1]
    newest := mset 0 l.newest e.source (l.next + 1)
    next := (l.next + 1) % 2 ^ 48 }) s
  let s := modFlash (fun f => { f with serial := s.log.next }) s
  cntInc 0x0D81 0 0 s

/-- The staged record with a serial can fold an occurrence (R463). -/
def foldable (e : Ev) (serial : Nat) (r : LogRec) : Bool :=
  decide (r.serial = serial) && sameEv r.ev e && decide (r.repeatN < 0xFFFF)

/-- The LOG_LOST record that is accepted first when room has appeared (R465). -/
def logLostRec (s : State) : State :=
  if 0 < s.log.lost ∧ s.log.staged.length < stagingMax then
    let (code, src, ns) := s.log.lostFirst.getD (0, 0, 0)
    let e : Ev := ⟨0x050, evLogLost, sevOf evLogLost, s.log.lost, code + src * 2 ^ 16, ns, 0⟩
    let s := modLog (fun l => { l with lost := 0, lostFirst := none }) s
    appendRec e s.tim.ns (s.tim.sec % 2 ^ 32) false s
  else s

/-- The controller in use accepts an occurrence, folds it, or counts it as lost (R459, R463, R465). -/
def logAccept (e : Ev) (lost : Bool) (s : State) : State :=
  let s := logLostRec s
  let last := mget 0 s.log.newest e.source
  if decide (0 < last) && s.log.staged.any (foldable e (last - 1)) then
    let s := modLog (fun l => { l with
      staged := l.staged.map fun r => if foldable e (last - 1) r then { r with repeatN := r.repeatN + 1 } else r }) s
    cntInc 0x0D81 0 1 s
  else if stagingMax ≤ s.log.staged.length then
    let s := modLog (fun l => { l with
      lost := l.lost + 1
      lostFirst := match l.lostFirst with
        | some x => some x
        | none => some (e.code, e.source, s.tim.ns) }) s
    cntInc 0x0D81 0 2 s
  else appendRec e s.tim.ns (s.tim.sec % 2 ^ 32) lost s

/-- Deliver an occurrence to its ring and to the logbook (R68). -/
def deliver (e : Ev) (s : State) : State :=
  let s := { s with raised := s.raised + 1 }
  let s := if e.sev = 3 then { s with smb := { s.smb with fatal := true } } else s
  match srcMap s e.source with
  | some (g, _) =>
    let (lost, s) := toRing g e s
    logAccept e lost s
  | none => logAccept e false s

/-- When staging reaches three-quarters full, freeze clears itself and LOG_FREEZE_END is raised (R473). -/
def freezeCheck (s : State) : State :=
  if s.log.freeze && decide (stagingMax * 3 ≤ 4 * s.log.staged.length) then
    deliver ⟨0x050, evLogFreezeEnd, sevOf evLogFreezeEnd, 0, 0, 0, 0⟩ (modLog (fun l => { l with freeze := false }) s)
  else s

/-- Every event ring has room, or the logbook's staging area accepts records (R430). -/
def eventsRoom (s : State) : Bool :=
  decide (s.log.staged.length < stagingMax) || (upTo 16).all fun i => (ring s (128 + i)).enabled && !ringFull (ring s (128 + i))

/-- The events condition of the guarantee lapses when an event leaves neither (R430). -/
def eventsLapse (s : State) : State :=
  if bit s.chk.guard 5 && !eventsRoom s then
    cntInc 0x0C81 0 13
      (deliver ⟨0x04D, evChkGuardLapse, sevOf evChkGuardLapse, 32, 0, 0, 0⟩ (modChk (fun c => { c with guard := c.guard - 32 }) s))
  else s

/-- Raise an event with a stated severity (R68). -/
def raiseSev (sev src code p0 p1 p2 p3 : Nat) (s : State) : State :=
  if srcSilent s src then s
  else eventsLapse
    (freezeCheck (deliver ⟨src % 4096, code % 65536, sev, p0 % 2 ^ 32, p1 % 2 ^ 32, p2 % 2 ^ 32, p3 % 2 ^ 32⟩ s))

/-- Raise an event of the table of R549. -/
def raise (src code p0 p1 p2 p3 : Nat) (s : State) : State := raiseSev (sevOf code) src code p0 p1 p2 p3 s

/-! ### Address checks -/

/-- A window covers a transfer with the permission it needs (R42, R90). -/
def winCovers (s : State) (l : Link) (a len : Nat) (wr : Bool) (w : Nat) : Bool :=
  let lo := stored s (.hifWinLo w)
  let base := (stored s (.hifWinHi w)).toNat * 2 ^ 32 + fld lo.toNat 31 12 * 4096
  let size := cfg s (.hifWinSize w) 27 0 * 4096
  lo.getLsbD 0 && lo.getLsbD (if wr then 2 else 1) && decide (winLink s w = l) && decide (base ≤ a)
    && decide (a + len ≤ base + size)

/-- A transfer lies wholly in one window of the link (R42). -/
def inWindow (s : State) (l : Link) (a len : Nat) (wr : Bool) : Bool := (upTo 64).any (winCovers s l a len wr)

/-- The status of an address check: range, link and permission first, then the alignment of the start and of the
length, which is a multiple of 64 bytes for every object (R43, R44). -/
def addrStatus (s : State) (l : Link) (a len align : Nat) (wr : Bool) : Nat :=
  if !inWindow s l a len wr then 2 else if a % align ≠ 0 ∨ len % 64 ≠ 0 then 3 else 0

/-- Count a failed address check and raise HIF_DMA_FAULT, with the address and the ring (R44). DESIGN CHOICE (log 99): R44
does not say which parameter carries which; params 0 and 1 are the address's low and high words, param 2 the ring. -/
def dmaFault (g a : Nat) (s : State) : State :=
  let s := modHif (fun h => { h with dmaFaults := satInc 255 h.dmaFaults }) s
  match ringLink s g with
  | .a => raise 0x020 evHifDmaFault (a % 2 ^ 32) (a / 2 ^ 32) g 0 (cntInc 0x0381 0 4 s)
  | .b => raise 0x021 evHifDmaFault (a % 2 ^ 32) (a / 2 ^ 32) g 0 (cntInc 0x0381 0 12 s)

/-- Check a transfer of ring g: status 0 or the fault's, with its counting and event (R44). -/
def dmaCheck (g a len align : Nat) (wr : Bool) (s : State) : Nat × State :=
  let st := addrStatus s (ringLink s g) a len align wr
  (st, if st = 0 then s else dmaFault g a s)

/-! ### Completions -/

/-- A completion descriptor (R61). -/
def cplDesc (opcode status flags cookie g index progress : Nat) (st : Stamp) (res : Nat) : List Byte :=
  leBytes 1 opcode ++ leBytes 1 status ++ leBytes 2 flags ++ leBytes 4 cookie ++ leBytes 2 g ++ leBytes 6 0
    ++ leBytes 8 index ++ leBytes 8 progress ++ stampBytes st ++ leBytes 4 0 ++ leBytes 16 res

/-- The completion ring a command or inject ring names (R47). -/
def pairOf (s : State) (g : Nat) : Nat := 64 + (ring s g).pair

/-- Write the producer index of every event descriptor a command raised an event in (R70, R79). -/
def publishOf (a : Nat × Nat) (s : State) : State :=
  each (upTo 16) (fun i t =>
    match (ring t (128 + i)).newest with
    | some n => if n.cmds.contains a then publishEvent (128 + i) t else t
    | none => t) s

/-- The command a completion is of: its ring and its index (R61). -/
def cplOf (bs : List Byte) : Nat × Nat := (ofLe (takeBytes bs 8 2), ofLe (takeBytes bs 16 8))

/-- Write a completion: the producer indices of the command's events immediately before it (R70, R79). -/
def cplWrite (c : Nat) (bs : List Byte) (s : State) : State := devWrite c bs (publishOf (cplOf bs) s)

/-- Write a completion on a ring, or hold it when the ring is full or disabled (R47). -/
def putCompletion (c : Nat) (bs : List Byte) (s : State) : State :=
  let r := ring s c
  if !r.enabled || ringFull r || decide (r.held ≠ []) then
    let s := modRing c (fun r => { r with held := r.held ++ [bs] }) s
    cntInc 0x0381 0 (match ringLink s c with | .a => 7 | .b => 15) s
  else cplWrite c bs s

/-- Write held completions while the ring is enabled and has room (R47). n bounds how many. -/
def releaseHeld (c : Nat) : Nat → State → State
  | 0, s => s
  | n + 1, s =>
    let r := ring s c
    match r.held with
    | [] => s
    | bs :: rest =>
      if r.enabled && !ringFull r then
        releaseHeld c n (cplWrite c bs (modRing c (fun r => { r with held := rest }) s))
      else s

end Sys2Proof.Machine
end

