-- ==== Sys2Proof/Machine/Operands.lean ====
section
/-! DEFINITION. The objects commands name (R98, R137, R206, R319, R348 and the counter rules): where each is held, its
entry size, its units; the images of entries; and the accessors of the tables they form. -/

namespace Sys2Proof.Machine

/-! ### Identifiers -/

/-- Where an object's entries are held. -/
inductive ObjKind where
  | banked      -- per pipeline, two copies
  | matchEntry  -- per pipeline, match banks
  | dieSram     -- per die, SRAM
  | table       -- table memory
  | digest      -- shadow digests
  | flow        -- flow records
  | gate        -- gate lists, per port
  | counter     -- counters
  | none
deriving DecidableEq, Repr

/-- What kind an object identifier is. -/
def objKind (o : Nat) : ObjKind :=
  if [0x0101, 0x0102, 0x0103, 0x0104, 0x0106, 0x0107].contains o then .banked
  else if o = 0x0105 then .matchEntry
  else if [0x0801, 0x0802, 0x0803, 0x0901, 0x0902].contains o then .dieSram
  else if [0x0201, 0x0202, 0x0203, 0x0204, 0x0205, 0x0206, 0x0502, 0x0503, 0x0504, 0x0505, 0x0506, 0x0507].contains o then .table
  else if o = 0x0290 then .digest
  else if o = 0x0501 then .flow
  else if o = 0x0903 then .gate
  else if [0x0181, 0x0182, 0x0183, 0x0281, 0x0381, 0x0581, 0x0582, 0x0701, 0x0702, 0x0703, 0x0881, 0x0882, 0x0883, 0x0884,
    0x0981, 0x0A81, 0x0B81, 0x0C81, 0x0C82, 0x0D81, 0x0D82].contains o then .counter
  else .none

/-- An object's entry size in host data; MATCH_ENTRY by width in units, IPV6_ROUTE by long elsewhere. -/
def entrySize (o : Nat) : Nat :=
  match o with
  | 0x0101 => 32 | 0x0102 => 16 | 0x0103 => 128 | 0x0104 => 64 | 0x0105 => 64 | 0x0106 => 8 | 0x0107 => 4
  | 0x0183 => 16
  | 0x0201 => 16 | 0x0202 => 8 | 0x0203 => 16 | 0x0204 => 32 | 0x0205 => 8 | 0x0206 => 8 | 0x0290 => 8
  | 0x0501 => 256 | 0x0502 => 128 | 0x0503 => 16 | 0x0504 => 16 | 0x0505 => 32 | 0x0506 => 16 | 0x0507 => 128
  | 0x0801 => 8 | 0x0802 => 8 | 0x0803 => 16 | 0x0901 => 8 | 0x0902 => 16
  | _ => 8

/-- How many entries an object has. -/
def entryCount (o : Nat) : Nat :=
  match o with
  | 0x0101 => 256 | 0x0102 => 2048 | 0x0103 => 16 | 0x0104 => 16 | 0x0105 => 16384 | 0x0106 => 8192 | 0x0107 => 262144
  | 0x0181 => 16 | 0x0182 => 8 | 0x0183 => 65536
  | 0x0201 => 1048576 | 0x0202 => 2097152 | 0x0203 => 1048576 | 0x0204 => 131072 | 0x0205 => 4096 | 0x0206 => 256
  | 0x0281 => 16 | 0x0290 => 1024 | 0x0381 => 18
  | 0x0501 => 67108864 | 0x0502 => 16 | 0x0503 => 16 | 0x0504 => 64 | 0x0505 => 131072 | 0x0506 => 16384
  | 0x0507 => 16384 | 0x0581 => 16 | 0x0582 => 16 | 0x0701 => 16 | 0x0702 => 2048 | 0x0703 => 96
  | 0x0801 => 65536 | 0x0802 => 262144 | 0x0803 => 256 | 0x0881 => 16 | 0x0882 => 16 | 0x0883 => 4096 | 0x0884 => 2048
  | 0x0901 => 3072 | 0x0902 => 3200 | 0x0981 => 16 | 0x0A81 => 16 | 0x0B81 => 16 | 0x0C81 => 16 | 0x0C82 => 16
  | 0x0D81 => 8 | 0x0D82 => 8
  | _ => 0

/-- The target kind of the units that hold an object's copies: 0 device, 1 die, 2 pipeline, 3 slice, 6 stack (R54). -/
def objUnitKind (o : Nat) : Nat :=
  if o / 256 = 1 ∨ o = 0x0582 ∨ o = 0x0981 then 2
  else if [0x0581, 0x0701, 0x0702, 0x0703].contains o then 3
  else if o = 0x0B81 then 6
  else if [0x0381, 0x0A81, 0x0C81, 0x0C82, 0x0D81, 0x0D82, 0x0501].contains o then 0
  else 1

/-- The byte offset in a die's table memory of a table object's first entry (R136, R206). -/
def tableBase (o : Nat) : Nat :=
  match o with
  | 0x0201 => 0 | 0x0202 => 256 * 65536 | 0x0203 => 512 * 65536 | 0x0204 => 768 * 65536 | 0x0205 => 832 * 65536
  | 0x0206 => 832 * 65536 + 32768 | 0x0502 => 833 * 65536 | 0x0503 => 833 * 65536 + 2048
  | 0x0504 => 833 * 65536 + 4096 | 0x0505 => 834 * 65536 | 0x0506 => 898 * 65536 | 0x0507 => 902 * 65536
  | _ => 0

/-! ### Entries held as images -/

/-- The key of an SRAM object's entry. -/
def objKey (o unit bank idx : Nat) : Nat := ((o * 16 + unit) * 2 + bank) * 2 ^ 20 + idx

/-- The image an SRAM object's entry has at reset (R99, R326, R337). -/
def objDefault (o idx : Nat) : Nat :=
  if o = 0x0901 then (if idx < 2048 then 256 + (idx % 16 / 2) * 4096 else 256)
  else if o = 0x0902 then 0xFFFFFFFF * 2 ^ 64 + 16383 * 2 ^ 96
  else 0

/-- Read an SRAM object's entry. -/
def objGet (s : State) (o unit bank idx : Nat) : Nat := mget (objDefault o idx) s.cls.objs (objKey o unit bank idx)

/-- Write an SRAM object's entry. -/
def objPut (o unit bank idx v : Nat) (s : State) : State :=
  { s with cls := { s.cls with objs := mset (objDefault o idx) s.cls.objs (objKey o unit bank idx) v } }

/-- The address in State.tmem of an offset in a die's table memory. -/
def tAddr (die off : Nat) : Nat := die * 2 ^ 26 + off % 2 ^ 26

/-- Read n bytes of a die's table memory as an image. -/
def tRead (s : State) (die off n : Nat) : Nat := rdN s.tmem (tAddr die off) n

/-- Write n bytes of a die's table memory from an image. -/
def tWrite (die off n v : Nat) (s : State) : State := { s with tmem := wrN s.tmem (tAddr die off) n v }

/-- Write bytes on every present die (R139). -/
def tWriteAll (off n v : Nat) (s : State) : State := each (dies s.part) (fun d => tWrite d off n v) s

/-- The slot size of a table object in table memory. -/
def slotSize (o : Nat) : Nat := entrySize o

/-- The byte offset of a table object's entry. -/
def tOff (o idx : Nat) : Nat := tableBase o + slotSize o * idx

/-- Read a table object's entry from a die's copy. -/
def tEntry (s : State) (die o idx : Nat) : Nat := tRead s die (tOff o idx) (slotSize o)

/-- Write a table object's entry on a die. -/
def tPut (die o idx v : Nat) (s : State) : State := tWrite die (tOff o idx) (slotSize o) v s

/-- Write a table object's entry on every present die. -/
def tPutAll (o idx v : Nat) (s : State) : State := each (dies s.part) (fun d => tPut d o idx v) s

/-- HBM's address of a stack's logical offset. -/
def mAddr (stk off : Nat) : Nat := stk * 2 ^ 35 + off % 2 ^ 35

/-- Read n bytes of HBM as an image. -/
def mRead (s : State) (stk off n : Nat) : Nat := rdN s.mem (mAddr stk off) n

/-- Write n bytes of HBM from an image. -/
def mWrite (stk off n v : Nat) (s : State) : State := { s with mem := wrN s.mem (mAddr stk off) n v }

/-! ### Command targets (R54) -/

/-- The present units of a target kind. -/
def unitsOfKind (s : State) (kind : Nat) : List Nat :=
  match kind with
  | 0 => [0]
  | 1 => dies s.part
  | 2 => pipelines s.part
  | 3 => slicesOf s.part
  | 4 => octetsOf s.part
  | 5 => (unitsOf s.part 128)
  | 6 => dies s.part
  | 7 => clustersOf s.part
  | _ => []

/-- The units of an object that a target names: the unit named, every present unit for 0xFFF or the device, and for a
die the units of that die. -/
def targetUnits (s : State) (kind unit objK : Nat) : List Nat :=
  let all := unitsOfKind s objK
  if kind = 0 ∨ unit = 0xFFF then all
  else if kind = objK then all.filter (· = unit)
  else if kind = 1 ∨ kind = 6 then
    all.filter fun u => decide ((match objK with | 2 => u / 4 | 3 => u / 2 | 4 => u / 16 | 5 => u / 128 | 7 => u / 6 | _ => u) = unit)
  else if kind = 5 ∧ objK = 1 then all.filter (· = unit / 128)
  else if kind = 5 ∧ objK = 2 then all.filter (· = unit / 32)
  else if objK = 0 then [0]
  else []

/-- The power domain of a target that names one unit (R500, R502). -/
def targetDomain (kind unit : Nat) : Option Nat :=
  if unit = 0xFFF then none
  else match kind with
    | 2 => some (64 + unit)
    | 3 => some (80 + unit)
    | 4 => some unit
    | 5 => some (unit / 8)
    | 7 => some (88 + unit)
    | _ => none

/-- A target whose domain is OFF, QUARANTINE or INIT (R502). -/
def targetDown (s : State) (kind unit : Nat) : Bool :=
  match targetDomain kind unit with
  | some n => hasDomain s.part n && decide (2 ≤ (domain s n).state)
  | none => false

/-- Whether the domain of a unit that holds an object is down. -/
def unitDown (s : State) (objK unit : Nat) : Bool := targetDown s objK unit

/-! ### Indirection (R121) -/

/-- An IND_GROUP or IND_SLOT entry of a pipeline's bank. -/
def bankNo (b : Bool) : Nat := b2n b

/-- Rotate a 32-bit number right. -/
def rotr32 (x k : Nat) : Nat := (x % 2 ^ 32) >>> (k % 32) + (x <<< (32 - k % 32)) % 2 ^ 32

/-- The slots of a group in the order tried from the one a hash selects, at most n of them and none twice; none when
the group is invalid (R121, R163, R202). -/
def groupSlots (s : State) (p : Nat) (bank : Bool) (grp h0 h1 n : Nat) : Option (List Nat) :=
  let g := objGet s 0x0106 p (bankNo bank) (grp % 8192)
  if !bit g 28 then none
  else
    let size := 2 ^ Nat.min 14 (fld g 21 18)
    let h := if bit g 22 then h1 else h0
    let i0 := rotr32 h (fld g 27 23) % size
    some ((upTo (Nat.min n size)).map fun i => fld g 17 0 + (i0 + i) % size)

/-- The member of a slot. -/
def slotMember (s : State) (p : Nat) (bank : Bool) (slot : Nat) : Nat := objGet s 0x0107 p (bankNo bank) slot

/-- The indirection lookup: the member a hash selects (R121). -/
def indirect (s : State) (p : Nat) (bank : Bool) (grp h0 h1 : Nat) : Option Nat :=
  match groupSlots s p bank grp h0 h1 1 with
  | some (i :: _) => some (slotMember s p bank i)
  | _ => none

/-- The port a LAG selects: the first of at most 8 slots whose port is up (R163). -/
def lagPort (s : State) (p : Nat) (bank : Bool) (grp h0 h1 : Nat) : Option (Option Nat) :=
  match groupSlots s p bank grp h0 h1 8 with
  | none => none
  | some l => some ((l.map fun i => slotMember s p bank i % 512).find? (portUp s))

/-! ### Ports (R22, R24) -/

/-- The formation in force of an octet, bits [6:0] of PHY_OCTET_CFG. -/
def formation (s : State) (k : Nat) : Nat := mget 0 s.egs.formation k

/-- The positions of the first lanes of an octet's ports, with their lane counts, under a formation. -/
def octetPorts (f : Nat) : List (Nat × Nat) :=
  if bit f 0 then [(0, 8)]
  else (upTo 2).flatMap fun q =>
    if bit f (1 + q) then [(4 * q, 4)]
    else (upTo 2).flatMap fun j =>
      let pr := 2 * q + j
      if bit f (3 + pr) then [(2 * pr, 2)] else [(2 * pr, 1), (2 * pr + 1, 1)]

/-- The ports of an octet by first lane. -/
def portsOfOctet (s : State) (k : Nat) : List Nat := (octetPorts (formation s k)).map fun e => 8 * k + e.1

/-- The lanes of a port, 0 when its lane is no first lane. -/
def portLanes (s : State) (port : Nat) : Nat :=
  match (octetPorts (formation s (port / 8))).find? (fun e => e.1 = port % 8) with
  | some e => e.2
  | none => 0

/-- A port's rate in Gb/s. -/
def portRate (s : State) (port : Nat) : Nat := 200 * portLanes s port

/-- The ports of a pipeline. -/
def portsOfPipe (s : State) (p : Nat) : List Nat := (upTo 4).flatMap fun i => portsOfOctet s (4 * p + i)

/-- The ports of a die. -/
def portsOfDie (s : State) (d : Nat) : List Nat := (upTo 16).flatMap fun i => portsOfOctet s (16 * d + i)

/-- Every port of the part. -/
def allPorts (s : State) : List Nat := (dies s.part).flatMap (portsOfDie s)

end Sys2Proof.Machine
end

