-- ==== Sys2Proof/Machine/Cells.lean ====
section
/-! DEFINITION. Cells and the free store (R290–R294), the accounts of lossless traffic (R297–R300) and the PFC state
they drive. -/

namespace Sys2Proof.Machine

/-! ### The free store -/

/-- Cells of a die's buffer (R290). -/
def dieCells : Nat := 393216

/-- A cell's key: its die and its address. -/
def cellKey (die a : Nat) : Nat := die * 2 ^ 19 + a

/-- The die of a cell. -/
def cellDie (k : Nat) : Nat := k / 2 ^ 19

/-- The record of a cell in use; a free cell has none. -/
def cellRec (s : State) (k : Nat) : Option CellRec := s.buf.cells.lookup k

/-- The owner tag a cell carries: kind FREE when it is free (R292). -/
def cellTag (s : State) (k : Nat) : Nat :=
  match cellRec s k with
  | some c => c.tag
  | none => 0

/-- The tag under which its holder lists a cell, which the holder presents to move or free it (R292, R293). -/
def heldTag (s : State) (k : Nat) : Nat := mget 0 s.buf.lists k

/-- Cells of a die in use. -/
def usedCells (s : State) (d : Nat) : Nat := (s.buf.cells.filter fun c => cellDie c.1 = d).length

/-- Free cells of a die. -/
def freeCells (s : State) (d : Nat) : Nat := dieCells - usedCells s d

/-- Put a cell's record in, keeping the keys rising. -/
def insCell (k : Nat) (c : CellRec) : Map CellRec → Map CellRec
  | [] => [(k, c)]
  | (j, x) :: r => if j < k then (j, x) :: insCell k c r else if j = k then (k, c) :: r else (k, c) :: (j, x) :: r

/-- The lowest free cell of a bank (R291). -/
def bankLowest (s : State) (d b : Nat) : Option Nat :=
  (firstFrom (fun i => (cellRec s (cellKey d (32 * i + b))).isNone) 0 12288).map fun i => cellKey d (32 * i + b)

/-- The cell a requester takes: the banks in rotation from one after the bank it used last (R291). -/
def nextCell (s : State) (d req : Nat) : Option Nat :=
  let last := mget 0 s.buf.bank (16 * d + req)
  (upTo 32).findSome? fun i => bankLowest s d ((last + 1 + i) % 32)

/-- An owner tag of a kind and an index (R292). -/
def ownerTag (kind idx : Nat) : Nat := kind * 4096 + idx % 4096

/-- Take one free cell for a requester and write it (R290, R291). -/
def allocCell (d req : Nat) (c : CellRec) (s : State) : Option (Nat × State) :=
  match nextCell s d req with
  | none => none
  | some k =>
    let seen := mget false s.buf.auditing d
    let s := modBuf (fun b => { b with
      cells := insCell k { c with seen := seen } b.cells
      lists := mset 0 b.lists k c.tag
      bank := mset 0 b.bank (16 * d + req) (k % 32) }) s
    let used := usedCells s d
    some (k, if cntGet s 0x0881 d 15 < used then cntSet s 0x0881 d 15 used else s)

/-- Write the frame's cells one after another, each linked to the next; none when the cells run out. -/
def allocChain (d req tag pkt : Nat) : Nat → List (List Byte) → State → Option (List Nat × State)
  | _, [], s => some ([], s)
  | i, pl :: rest, s =>
    match allocCell d req ⟨tag, pkt, i, pl.length, none, crcOf 1 pl, false, false, none⟩ s with
    | none => none
    | some (k, s) =>
      match allocChain d req tag pkt (i + 1) rest s with
      | none => none
      | some (ks, s) =>
        some (k :: ks, modBuf (fun b => { b with
          cells := b.cells.map fun e => if e.1 = k then (k, { e.2 with next := ks.head? }) else e }) s)

/-- A frame's payloads cell by cell, its FCS included (R290). n bounds the cells. -/
def payloads : Nat → List Byte → List (List Byte)
  | 0, _ => []
  | n + 1, l => if l.isEmpty then [] else l.take 256 :: payloads n (l.drop 256)

/-- A frame with its FCS (R344): CRC-32, least significant byte first. -/
def withFcs (bs : List Byte) : List Byte := bs ++ leBytes 4 (crcOf 2 bs)

/-- Cells a frame of L bytes without FCS occupies (R290). -/
def cellsFor (len : Nat) : Nat := ceilDiv (len + 4) 256

/-- A transfer or free was rejected (R293). -/
def badFree (isFree : Bool) (k pres : Nat) (s : State) : State :=
  let d := cellDie k
  raise (bufSrc d 0) evBufBadFree d (k % 2 ^ 19) pres (cellTag s k) (cntInc 0x0881 d (if isFree then 0 else 1) s)

/-- Move a cell from one holder to another, or reject (R293). -/
def moveCell (pres tag k : Nat) (s : State) : State :=
  match cellRec s k with
  | none => badFree false k pres s
  | some c =>
    if c.tag ≠ pres then badFree false k pres s
    else
      let seen := c.seen || mget false s.buf.auditing (cellDie k)
      modBuf (fun b => { b with cells := insCell k { c with tag := tag, seen := seen } b.cells, lists := mset 0 b.lists k tag }) s

/-- Free a cell, or reject (R293). -/
def freeCell (pres k : Nat) (s : State) : State :=
  match cellRec s k with
  | none => badFree true k pres s
  | some c =>
    if c.tag ≠ pres then badFree true k pres s
    else modBuf (fun b => { b with cells := b.cells.filter fun e => e.1 ≠ k, lists := mset 0 b.lists k 0 }) s

/-- Move a list of cells to another holder; the tag presented is the one under which the present holder lists each. -/
def moveCells (ks : List Nat) (tag : Nat) (s : State) : State := each ks (fun k t => moveCell (heldTag t k) tag k t) s

/-- Free cells; the holder presents the tag under which it lists each. -/
def freeOwn (ks : List Nat) (s : State) : State := each ks (fun k t => freeCell (heldTag t k) k t) s

/-! ### Accounts and PFC (R297–R301) -/

/-- A priority is lossless at a port (R297). -/
def lossless (s : State) (port q : Nat) : Bool :=
  decide (q < 8) && cfgBit s (.bufPortCfg port) q && !(pauseSt s port q).tripped

/-- The PFC profile of a port: xoff, xon and port_hdrm (R322). -/
def pfcProf (s : State) (port : Nat) : Nat × Nat × Nat :=
  let d := dieOfLane port
  let i := cfg s (.bufPortCfg port) 19 18
  (cfg s (.bufPfcProf d i) 13 0, cfg s (.bufPfcProf d i) 29 16, cfg s (.bufPfcProf2 d i) 15 0)

/-- The counter of PFC_CNT entry k of a port (R319). -/
def pfcCnt (port k : Nat) (s : State) : State := cntInc 0x0883 (dieOfLane port) (32 * (port % 128) + k) s

/-- Headroom cells taken by a port. -/
def portHeadroom (s : State) (port : Nat) : Nat := sumL ((upTo 8).map fun q => (pauseSt s port q).headroom)

/-- Headroom cells taken on a die. -/
def dieHeadroom (s : State) (d : Nat) : Nat :=
  sumL ((s.buf.pause.filter fun e => e.1 / 1024 = d).map fun e => e.2.headroom)

/-- Free cells in a die's shared pool (R299). -/
def sharedFree (s : State) (d : Nat) : Nat :=
  (dieCells - cfg s (.bufPoolCfg d) 18 0) - (usedCells s d - dieHeadroom s d)

/-- A PFC frame that names one priority, as IEEE 802.1Qbb lays it out and padded to 60 bytes (R301). The source address is
the port's own (log 42). -/
def pfcBytes (port q quanta : Nat) : List Byte :=
  let bs := beBytes 6 0x0180C2000001 ++ beBytes 6 (Config.portMac port).toNat ++ beBytes 2 0x8808 ++ beBytes 2 0x0101
    ++ beBytes 2 (2 ^ q) ++ (upTo 8).flatMap fun i => beBytes 2 (if i = q then quanta else 0)
  bs ++ List.replicate (60 - bs.length) 0

/-- A port that is up sends a PFC frame for a priority: XOFF with 0xFFFF quanta, which is counted, or XON with 0 (R301). -/
def sendPfc (port q quanta : Nat) (s : State) : State :=
  if !portUp s port then s
  else
    let s := modEgs (fun g => { g with wire := g.wire ++ [(port, withFcs (pfcBytes port q quanta), false)] }) s
    if quanta = 0 then s else pfcCnt port q s

/-- Send XOFF for a priority. -/
def sendXoff (port q : Nat) (s : State) : State := sendPfc port q 0xFFFF s
/-- Send XON for a priority. -/
def sendXon (port q : Nat) (s : State) : State := sendPfc port q 0 s

/-- Charge one cell to an ingress account: above xoff it comes from the headroom, or counts as an overrun, and at xoff
the port sends XOFF (R299, R300). -/
def chargeCell (port q : Nat) (s : State) : State :=
  let (xoff, _, hdrm) := pfcProf s port
  let a := (pauseSt s port q).account + 1
  let d := dieOfLane port
  let room := decide (portHeadroom s port < hdrm) && decide (dieHeadroom s d < cfg s (.bufPoolCfg d) 18 0)
  let tooHot := decide (xoff < a)
  let s := if tooHot && !room then cntInc 0x0881 d 9 s else s
  let first := decide (xoff ≤ a) && (pauseSt s port q).sent.isNone
  let s := modPause port q (fun p => { p with
    account := a
    headroom := if tooHot && room then p.headroom + 1 else p.headroom
    sent := if first then some s.now else p.sent }) s
  if first then sendXoff port q s else s

/-- Take one cell off an ingress account, and send XON when it falls to xon (R300). -/
def unchargeCell (port q : Nat) (s : State) : State :=
  let (xoff, xon, _) := pfcProf s port
  let a := (pauseSt s port q).account - 1
  let free := decide (a ≤ xon) && (pauseSt s port q).sent.isSome
  let s := modPause port q (fun p => { p with
    account := a
    headroom := Nat.min p.headroom (a - xoff)
    sent := if a ≤ xon then none else p.sent }) s
  if free then sendXon port q s else s

/-- Bytes in a pipeline's ingress holding buffer (R32). -/
def heldBytes (s : State) (p : Nat) : Nat :=
  sumL ((pipe s p).intake.map fun k => match pktOf s k with | some x => x.bytes.length + 4 | none => 0)

/-- The holding buffer's size (R32, R298). -/
def holdMax : Nat := 96 * 1024

/-- At hold_xoff the pipeline sends XOFF for every lossless priority of its ports; at hold_xon it sends XON for those whose
account does not hold them still (R298, R300). -/
def holdCheck (p : Nat) (s : State) : State :=
  let b := heldBytes s p
  let x := (pipe s p).holdXoff
  if !x && decide (64 * cfg s (.bufHoldCfg p) 26 16 ≤ b) then
    let s := modPipe p (fun y => { y with holdXoff := true }) s
    each (portsOfPipe s p) (fun n t => each (upTo 8) (fun q t => if lossless t n q then sendXoff n q t else t) t) s
  else if x && decide (b ≤ 64 * cfg s (.bufHoldCfg p) 10 0) then
    let s := modPipe p (fun y => { y with holdXoff := false }) s
    each (portsOfPipe s p) (fun n t => each (upTo 8) (fun q t =>
      if lossless t n q && (pauseSt t n q).sent.isNone then sendXon n q t else t) t) s
  else s

/-! ### A frame's cells -/

/-- Free a frame's ingress cells, each taken off its ingress account (R299). -/
def freeIngress (k : Nat) (s : State) : State :=
  match pktOf s k with
  | none => s
  | some p =>
    let s := freeOwn p.cells s
    let s := each (upTo p.charged) (fun _ t => unchargeCell p.port p.pri t) s
    modPkt k (fun x => { x with cells := [], charged := 0 }) s

/-- Free a frame's cells on its destination die. -/
def freeDest (k : Nat) (s : State) : State :=
  match pktOf s k with
  | none => s
  | some p =>
    modPkt k (fun x => { x with dcells := [] }) (freeOwn p.dcells s)

/-- Free every cell of a frame. -/
def freeFrame (k : Nat) (s : State) : State := freeDest k (freeIngress k s)

/-- A cell is held by a link transmitter or a resequencer (R309, R311): it stays there until the one has its acknowledgement
or the other releases it. -/
def inTransit (s : State) (c : Nat) : Bool := decide (heldTag s c / 4096 = 5) || decide (heldTag s c / 4096 = 6)

/-- The pipeline a cell came over a link for. -/
def cellDst (s : State) (c : Nat) : Option Nat := (cellRec s c).bind (·.dst)

/-- A frame's cells where a pipeline works on them: those that came over a link for it, else those of the ingress die. -/
def cellsAt (s : State) (x : Pkt) (p : Nat) : List Nat :=
  let own := x.dcells.filter fun c => cellDst s c = some p
  if own = [] then x.cells else own

/-- Move a frame's cells, where a pipeline works on them, to a holder. -/
def retagAt (k p tag : Nat) (s : State) : State :=
  match pktOf s k with
  | none => s
  | some x => moveCells ((cellsAt s x p).filter fun c => !inTransit s c) tag s

/-- Move all of a frame's cells to a holder. -/
def retag (k tag : Nat) (s : State) : State :=
  match pktOf s k with
  | none => s
  | some p => moveCells ((p.cells ++ p.dcells).filter fun c => !inTransit s c) tag s

/-- A squashed or recirculating frame's cells stay where they are, held by the yo-yo path of the pipeline there (R313). -/
def retagYoyo (k : Nat) (s : State) : State :=
  match pktOf s k with
  | none => s
  | some x =>
    each ((x.cells ++ x.dcells).filter fun c => !inTransit s c) (fun c t =>
      moveCell (heldTag t c) (ownerTag 8 ((cellDst t c).getD x.pipe % 4)) c t) s

/-- Whether a frame's cells can be taken: lossless traffic may take any free cell, other traffic only those of the
shared pool (R299, R300). -/
def cellsPermitted (s : State) (d n : Nat) (ll : Bool) : Bool :=
  decide (n ≤ freeCells s d) && (ll || decide (n ≤ sharedFree s d))

/-! ### Requesters that wait (R294) -/

/-- The requesters of a die that wait. -/
def waiters (s : State) (d : Nat) : List Waiter := mget [] s.buf.wait d

/-- Count the cc in which an allocation has waited on a die up to now (R320). -/
def countWaits (d : Nat) (s : State) : State :=
  if waiters s d = [] then s
  else
    let n := (s.now - mget 0 s.buf.waitAt d) / 625
    modBuf (fun b => { b with waitAt := mset 0 b.waitAt d (mget 0 b.waitAt d + n * 625) })
      (if n = 0 then s else cntAdd 0x0881 d 6 n s)

/-- Change the requesters that wait. -/
def setWaiters (d : Nat) (l : List Waiter) (s : State) : State :=
  let s := if waiters s d = [] then modBuf (fun b => { b with waitAt := mset 0 b.waitAt d s.now }) s else countWaits d s
  modBuf (fun b => { b with wait := mset [] b.wait d l }) s

/-- A frame waits for cells no longer. -/
def dropWaiters (k : Nat) (s : State) : State :=
  each (upTo 4) (fun d t =>
    if (waiters t d).any fun w => decide (w.req < 12) && decide (w.pkt = k) then
      setWaiters d ((waiters t d).filter fun w => !(decide (w.req < 12) && decide (w.pkt = k))) t
    else t) s

/-- A waiting request still stands: its frame, or the descriptor of its inject, is still to be served. -/
def waiterLive (s : State) (w : Waiter) : Bool :=
  if w.req < 12 then (pktOf s w.pkt).isSome
  else
    let r := ring s (w.pkt / 2 ^ 32)
    r.enabled && decide (r.begun % 2 ^ 32 = w.pkt % 2 ^ 32) && decide (r.begun < r.cons)

/-- The requester whose turn it is: in rotation from one after the one granted last, of those whose cells are permitted. -/
def arbNext (s : State) (d : Nat) (l : List Waiter) : Option Waiter :=
  let ok := l.filter fun w => waiterLive s w && cellsPermitted s d w.n w.ll
  (upTo 16).findSome? fun i => ok.find? fun w => w.req = (mget 0 s.buf.arb d + 1 + i) % 16

/-- A requester asks for cells: it is granted them when they are permitted and it is its turn among those that wait, and
waits otherwise. -/
def askCells (d : Nat) (w : Waiter) (s : State) : Bool × State :=
  let l := waiters s d
  let m := if l.contains w then l else l ++ [w]
  if arbNext s d m = some w then
    (true, if l = [] then s else
      modBuf (fun b => { b with arb := mset 0 b.arb d w.req }) (if l.contains w then setWaiters d (l.filter (· ≠ w)) s else s))
  else (false, if l.contains w then s else setWaiters d m s)

/-- Write a received frame into cells under tag RECEIVE, charging a lossless one; none while it must wait (R294). -/
def writeFrame (k : Nat) (s : State) : Option State :=
  match pktOf s k with
  | none => none
  | some p =>
    let d := dieOfPipe p.pipe
    let ll := lossless s p.port p.pri
    let n := cellsFor p.bytes.length
    if !cellsPermitted s d n ll then none
    else
      match allocChain d (p.pipe % 4) (ownerTag 1 (p.pipe % 4)) k 0 (payloads n (withFcs p.bytes)) s with
      | none => none
      | some (ks, s) =>
        let s := modPkt k (fun x => { x with cells := ks, charged := if ll then n else 0 }) s
        some (if ll then each ks (fun _ t => chargeCell p.port p.pri t) s else s)

/-- The tag of a virtual output queue's cells (R292). -/
def voqTag (p dst cls : Nat) : Nat := ownerTag 2 (256 * (p % 4) + 16 * dst + cls)

/-- The tag of an egress queue's cells (R292). -/
def queueTag (port q : Nat) : Nat := ownerTag 3 (16 * (port % 128) + q)

/-- Cells of an egress queue. -/
def queueCells (s : State) (port q : Nat) : Nat := sumL ((egq s port q).map (·.cells))

/-- A drop-eligible queue admits a frame (R299): fewer than α × F cells. -/
def queueAdmits (s : State) (port q : Nat) : Bool :=
  let d := dieOfLane port
  let alpha := Nat.min 10 (cfg s (.bufQlimCfg d) 3 0)
  decide (queueCells s port q * 128 < sharedFree s d * 2 ^ alpha)

/-! ### Rows -/

/-- PFC_XOFF_REPEAT: half a pause time after an XOFF, with the account still above xon, it is sent again (R300). -/
def pfcXoffRepeat (port q : Nat) (s : State) : State :=
  let (_, xon, _) := pfcProf s port
  let p := pauseSt s port q
  match p.sent with
  | none => s
  | some t =>
    let half := 0xFFFF * 512 * 1000 / Nat.max 1 (portRate s port) / 2
    if portUp s port && decide (xon < p.account) && decide (t + half ≤ s.now) then
      sendXoff port q (modPause port q (fun x => { x with sent := some s.now }) s)
    else s

/-- PFC_XOFF_REPEAT. -/
def execPfcXoffRepeat (port pri : Nat) (s : State) : Out := .next (pfcXoffRepeat port pri s)

end Sys2Proof.Machine
end

