-- ==== Sys2Proof/Machine/HostRings.lean ====
section
/-! DEFINITION. The host interface's running part: polled pages (R50–R52), fetching, the host buffer pools and punts
(R73–R78), event producer writes (R70), MSI-X messages (R72) and the heartbeat (R49). -/

namespace Sys2Proof.Machine

/-- The place in HIF_CNT of a count of a link (R82). -/
def hifCnt (l : Link) (i : Nat) (s : State) : State := cntInc 0x0381 0 (i + 8 * linkNo l) s

/-- The HIF event source of a link (R66). -/
def hifSrc : Link → Nat
  | .a => 0x020
  | .b => 0x021

/-- The link of a pool: its pool ring's (R41). -/
def poolLink (s : State) (p : Nat) : Link := ringLink s (688 + p)

/-! ### Punts -/

/-- A pool's buffer size (R91). -/
def poolBufSize (s : State) (p : Nat) : Nat := 2 ^ (8 + cfg s (.hifPoolCfg p) 2 0)

/-- A punt descriptor (R73). -/
def puntDesc (u : Punt) (capLen flags pool buf0 buf1 : Nat) : List Byte :=
  leBytes 1 0xA0 ++ leBytes 1 u.reason ++ leBytes 2 capLen ++ leBytes 2 u.frameLen ++ leBytes 2 u.port
    ++ stampBytes u.stamp ++ leBytes 1 pool ++ leBytes 1 0 ++ leBytes 2 flags ++ leBytes 8 buf0 ++ leBytes 8 buf1
    ++ leBytes 8 u.flow ++ leBytes 4 u.rule ++ leBytes 4 u.session ++ leBytes 8 0

/-- The punt is over: its cells are freed and its share of the punt account returned (R78, R299). -/
def puntDone (u : Punt) (s : State) : State :=
  let s := freeFrame u.pkt s
  let s := modBuf (fun b => { b with punt := mset 0 b.punt u.pipe (mget 0 b.punt u.pipe - u.ncells) }) s
  dropPkt u.pkt s

/-- Drop a punt that holds a place in its pool's line, with its reserved ring entry and any drawn buffers given back
(R76). -/
def puntAbandon (pool : Nat) (u : Punt) (s : State) : State :=
  let s := modPool pool (fun q => { q with cache := q.cache ++ u.drawn }) s
  let s := modRing (144 + u.ring) (fun r => { r with reserved := r.reserved - 1 }) s
  puntDone u s

/-- The pool of a punt ring (R92). -/
def puntPool (s : State) (ringNo : Nat) : Nat := (ring s (144 + ringNo)).pair

/-- Put a punt in a pool's line: behind every punt of an earlier cycle and, among those of its own cycle, in the order of
the pool's round-robin arbiter, which starts each cycle at the pipeline after the one served last (R77). -/
def puntJoin (u : Punt) (now : Nat) (q : Pool) : Pool :=
  let arb := if q.arbAt = now then q.arb else (q.arbLast + 1) % 16
  let place (v : Punt) : Nat := (v.pipe + 16 - arb) % 16
  let before (v : Punt) : Bool := decide (v.since ≠ now) || decide (v.drawn ≠ []) || decide (place v ≤ place u)
  let n := (q.wait.reverse.takeWhile fun v => !before v).length
  let k := q.wait.length - n
  let wait := q.wait.take k ++ { u with since := now } :: q.wait.drop k
  { q with wait := wait, arb := arb, arbAt := now, arbLast := (wait.getLast?.map (·.pipe)).getD 15 }

/-- A punt passes R78's checks: its ring entry is reserved, the account charged, and it joins its pool's line. -/
def puntEnqueue (u : Punt) (s : State) : State :=
  let s := modRing (144 + u.ring) (fun r => { r with reserved := r.reserved + 1 }) s
  let s := modBuf (fun b => { b with punt := mset 0 b.punt u.pipe (mget 0 b.punt u.pipe + u.ncells) }) s
  let s := retag u.pkt (ownerTag 7 (u.pipe % 4)) s
  modPool (puntPool s u.ring) (puntJoin u s.now) s

/-- The pipeline's punt share has no room for a punt (R78, R299). -/
def shareFull (s : State) (u : Punt) : Bool :=
  decide (cfg s (.bufPuntCfg (dieOfPipe u.pipe)) 16 0 < mget 0 s.buf.punt u.pipe + u.ncells)

/-- An earlier punt of the pipeline to the ring is held, behind which this one waits (R79). -/
def puntBlocked (s : State) (u : Punt) : Bool :=
  s.hif.heldPunts.any fun v => decide (v.pipe = u.pipe) && decide (v.ring = u.ring)

/-- A confirmed packet's punt (R73, R78). -/
def puntRequest (u : Punt) (s : State) : State :=
  let g := 144 + u.ring
  let r := ring s g
  let l := ringLink s g
  if !r.enabled then puntDone { u with ncells := 0 } (hifCnt l 0 s)
  else if r.lossless then
    if puntBlocked s u || shareFull s u || ringFull r then
      modHif (fun h => { h with heldPunts := h.heldPunts ++ [u] }) (retag u.pkt (ownerTag 7 (u.pipe % 4)) s)
    else puntEnqueue u s
  else if shareFull s u then puntDone { u with ncells := 0 } (cntInc 0x0881 (dieOfPipe u.pipe) 10 s)
  else if ringFull r then puntDone { u with ncells := 0 } (cntInc 0x0381 0 (16 + linkNo l) s)
  else puntEnqueue u s

/-- Try the held punts again, oldest first (R78). n bounds them. -/
def retryPunts (s : State) : State :=
  let l := s.hif.heldPunts
  each l (fun u t => puntRequest u t) (modHif (fun h => { h with heldPunts := [] }) s)

/-- Buffers a punt needs: one, or two when its capture does not fit one (R74, R77). -/
def bufsNeeded (s : State) (pool : Nat) (u : Punt) : Nat := if poolBufSize s pool < u.data.length then 2 else 1

/-- Draw buffers one by one, discarding those that fail their address check (R44, R77). n bounds the draws. DESIGN CHOICE
(log 99): R44 does not say which ring a failing pool buffer is reported with; it is the pool's ring. -/
def drawBufs (pool need : Nat) : Nat → List Nat → State → List Nat × State
  | 0, got, s => (got, s)
  | n + 1, got, s =>
    if need ≤ got.length then (got, s)
    else match (pool' s).cache with
      | [] => (got, s)
      | a :: rest =>
        let s := modPool pool (fun q => { q with cache := rest }) s
        let sz := poolBufSize s pool
        if addrStatus s (poolLink s pool) a sz 64 true = 0 then drawBufs pool need n (got ++ [a]) s
        else drawBufs pool need n got (dmaFault (688 + pool) a s)
where
  /-- The pool drawn from. -/
  pool' (s : State) : Pool := Machine.pool s pool

/-- The flags of a punt descriptor that holds cap of the punt's bytes (R73, R74). -/
def puntFlags (u : Punt) (cap : Nat) : Nat := if cap < u.data.length ∧ !bit u.flags 0 then u.flags + 1 else u.flags

/-- Write a granted punt: its bytes, then its descriptor (R73, R79). -/
def puntWrite (pool : Nat) (u : Punt) (bufs : List Nat) (s : State) : State :=
  let sz := poolBufSize s pool
  let cap := Nat.min u.data.length (sz * bufs.length)
  let b0 := nth 0 bufs 0
  let b1 := nth 0 bufs 1
  let s := hostWr b0 (u.data.take (Nat.min cap sz)) s
  let s := if bufs.length = 2 then hostWr b1 ((u.data.drop sz).take (cap - sz)) s else s
  let s := modRing (144 + u.ring) (fun r => { r with reserved := r.reserved - 1 }) s
  let s := devWrite (144 + u.ring) (puntDesc u cap (puntFlags u cap) pool b0 b1) s
  puntDone u s

/-- The punt at the head of a pool's line leaves it. -/
def popPunt (pool : Nat) (s : State) : State := modPool pool (fun q => { q with wait := q.wait.drop 1 }) s

/-- A pool refills while it has unread entries, from below 128 cached addresses until above 249 (R75). -/
def refillCheck (pool : Nat) (s : State) : State :=
  let r := ring s (688 + pool)
  let q := Machine.pool s pool
  let unread := r.enabled && decide (r.cons < r.prod)
  let go := unread && decide (q.cache.length ≤ 249) && (q.refill || decide (q.cache.length < 128))
  modPool pool (fun q => { q with refill := go }) s

/-- PUNT_BUFFER_GRANT: the punt at the head of a pool's line draws its buffers and is written (R77). DESIGN CHOICE (log
99): a good buffer drawn before another failed its check (R44), with the cache then empty, stays with the waiting punt. -/
def puntBufferGrant (pool : Nat) (s : State) : State :=
  let q := Machine.pool s pool
  match q.wait with
  | [] => s
  | u :: rest =>
    let g := 144 + u.ring
    if !(ring s g).enabled then
      retryPunts (refillCheck pool (puntAbandon pool u (hifCnt (ringLink s g) 0 (popPunt pool s))))
    else
      let need := bufsNeeded s pool u
      if q.cache.length + u.drawn.length < need then s
      else
        let (got, s) := drawBufs pool need q.cache.length u.drawn s
        if got.length < need then
          refillCheck pool (modPool pool (fun q => { q with wait := { u with drawn := got } :: rest }) s)
        else retryPunts (refillCheck pool (puntWrite pool u got (popPunt pool s)))

/-- PUNT_POOL_TIMEOUT: the punt at the head has waited past the timeout and is written with NOBUF (R77). -/
def puntPoolTimeout (pool : Nat) (s : State) : State :=
  match (Machine.pool s pool).wait with
  | [] => s
  | u :: _ =>
    let g := 144 + u.ring
    let l := ringLink s g
    let tmo := cfg s (.hifPoolTmo pool) 19 0 * 10 ^ 6
    if cfgBit s (.hifPoolTmo pool) 31 && decide (u.since + tmo < s.now) && (ring s g).enabled then
      let s := popPunt pool s
      let s := modPool pool (fun q => { q with cache := q.cache ++ u.drawn }) s
      let s := modRing g (fun r => { r with reserved := r.reserved - 1 }) s
      let s := devWrite g (puntDesc u 0 (if bit u.flags 1 then u.flags else u.flags + 2) pool 0 0) s
      let s := hifCnt l 3 s
      let s := raise (hifSrc l) evHifPoolTimeout pool g 0 0 s
      retryPunts (puntDone u s)
    else s

/-- POOL_ENTRY_READ: one pool ring entry is read, and all its addresses enter the cache (R75). -/
def poolEntryRead (pool : Nat) (s : State) : State :=
  let s := refillCheck pool s
  let g := 688 + pool
  let r := ring s g
  let q := Machine.pool s pool
  if q.refill && !q.flushing then
    let a := entryAddr r r.cons
    let n := Nat.min 7 (rdN s.host (a + 1) 1)
    let bufs := (upTo n).map fun i => rdN s.host (a + 8 + 8 * i) 8
    let s := modPool pool (fun q => { q with cache := q.cache ++ bufs }) s
    let s := modRing g (fun r => { r with cons := r.cons + 1 }) s
    refillCheck pool (statusWrite g (r.cons + 1) s)
  else s

/-! ### Fetching and polling -/

/-- The rings that name a completion ring fetch nothing while it holds completions (R47). -/
def fetchBlocked (s : State) (g : Nat) : Bool := decide ((ring s (pairOf s g)).held ≠ [])

/-- Copy a ring's new descriptors up to its producer index, and write its consumer index (R51, R52). -/
def fetchRing (g : Nat) (s : State) : State :=
  let r := ring s g
  match ringKind g with
  | .pool => refillCheck (g - 688) s
  | .cmd | .inj =>
    if r.enabled && decide (r.cons < r.prod) && !fetchBlocked s g then
      let s := if g < 64 then
          modHif (fun h => { h with
            fetched := h.fetched ++ [(g, r.cons, r.prod - r.cons, h.fetchCount)]
            fetchCount := h.fetchCount + (r.prod - r.cons) }) s
        else s
      statusWrite g r.prod (modRing g (fun x => { x with cons := r.prod }) s)
    else s
  | _ => s

/-- Fetch again on every ring that names a completion ring. -/
def fetchPairs (c : Nat) (s : State) : State :=
  each (upTo 64 ++ (upTo 256).map (400 + ·)) (fun g t => if pairOf t g = c then fetchRing g t else t) s

/-- Write the completions held for a ring, and fetch again on its rings when none is left (R47). -/
def releaseCpl (c : Nat) (s : State) : State :=
  let had := (ring s c).held
  if had = [] then s
  else
    let s := releaseHeld c had.length s
    if (ring s c).held = [] then fetchPairs c s else s

/-- What new room in a device-written ring lets go on (R47, R71, R78). -/
def roomIn (g : Nat) (s : State) : State :=
  match ringKind g with
  | .cpl => releaseCpl g s
  | .evt => eventLost g s
  | .pnt => retryPunts s
  | _ => s

/-- The ring whose index a slot of a driver-written page holds (R48). -/
def slotRing (pg : Page) (j : Nat) : Option Nat :=
  match pg with
  | .doorbell => if j < 64 then some j else if j < 320 then some (400 + (j - 64)) else if j < 384 then some (688 + (j - 320)) else none
  | .consumer =>
    if j < 64 then some (64 + j) else if j < 80 then some (128 + (j - 64)) else if j < 336 then some (144 + (j - 80))
    else if j < 368 then some (656 + (j - 336)) else none

/-- A page's number: 0 doorbell, 1 consumer. -/
def pageNo : Page → Nat
  | .doorbell => 0
  | .consumer => 1

/-- The key of a polled block. -/
def pollKey (l : Link) (pg : Page) (b : Nat) : Nat := 16 * linkNo l + 8 * pageNo pg + b

/-- A polled block. -/
def pollBlock (s : State) (l : Link) (pg : Page) (b : Nat) : PollBlock := mget {} s.hif.poll (pollKey l pg b)

/-- Change a polled block. -/
def modPoll (l : Link) (pg : Page) (b : Nat) (f : PollBlock → PollBlock) (s : State) : State :=
  modHif (fun h => { h with poll := mset {} h.poll (pollKey l pg b) (f (pollBlock s l pg b)) }) s

/-- The enabled rings of a link with a slot in a block, with the slot's place in it. -/
def blockRings (s : State) (l : Link) (pg : Page) (b : Nat) : List (Nat × Nat) :=
  (upTo 64).filterMap fun i =>
    match slotRing pg (64 * b + i) with
    | some g => if (ring s g).enabled ∧ ringLink s g = l then some (i, g) else none
    | none => none

/-- The interval of a block in picoseconds (R50, R87). -/
def pollInterval (e : Nat) : Nat := 128000 * 2 ^ e

/-- min_exp and max_exp in force (R87). -/
def minExp (s : State) : Nat := Nat.min 9 (cfg s .hifPollCfg 3 0)
/-- The longest exponent, at most 9. -/
def maxExp (s : State) : Nat := Nat.min 9 (cfg s .hifPollCfg 7 4)

/-- POLL_READ: a block's interval expires and a read of it is issued (R50). -/
def pollRead (l : Link) (pg : Page) (b : Nat) (visible : List (Nat × Byte)) (s : State) : State :=
  let p := pollBlock s l pg b
  let due := match p.last with
    | some (t, i) => decide (t + i ≤ s.now)
    | none => true
  let ok := match pg with
    | .doorbell => (linkSt s l).dbOk
    | .consumer => (linkSt s l).consOk
  if ok && due && (linkSt s l).up && decide (blockRings s l pg b ≠ []) then
    let s := each visible (fun c t => { t with host := wr8 t.host c.1 c.2 }) s
    let a := pageAddr s l (pageNo pg) + 512 * b
    let data := (upTo 64).map fun i => rdN s.host (a + 8 * i) 8
    modPoll l pg b (fun p => { p with last := some (s.now, pollInterval p.e), out := p.out ++ [data] }) s
  else s

/-- Act on an index read from a driver-written page (R51): fetch, or let go on what waited for room. -/
def actOn (g v : Nat) (s : State) : State :=
  if driverWritten g then fetchRing g (modRing g (fun r => { r with prod := v }) s)
  else roomIn g (modRing g (fun r => { r with cons := v }) s)

/-- POLL_DATA: the data of the oldest outstanding read of a block is taken (R50, R51). -/
def pollData (l : Link) (pg : Page) (b : Nat) (s : State) : State :=
  let p := pollBlock s l pg b
  match p.out with
  | [] => s
  | data :: rest =>
    let rings := blockRings s l pg b
    let changed := rings.any fun e => decide (nth 0 data e.1 ≠ nth 0 p.seen e.1)
    let idle := p.idle + 1
    let rise := decide (cfg s .hifPollCfg 11 8 + 1 ≤ idle)
    let s := modPoll l pg b (fun p => { p with
      out := rest
      seen := data
      e := if changed then minExp s else if rise then Nat.min (maxExp s) (p.e + 1) else p.e
      idle := if changed || rise then 0 else idle }) s
    each rings (fun e t => actOn e.2 (nth 0 data e.1) t) s

/-- Enabling a ring sets its block's interval to min_exp (R50). -/
def pollRestart (g : Nat) (s : State) : State :=
  let pg := if driverWritten g then Page.doorbell else Page.consumer
  modPoll (ringLink s g) pg (ringSlot g / 64) (fun p => { p with e := minExp s, idle := 0 }) s

/-! ### Messages and the heartbeat -/

/-- A vector's holdoff in picoseconds (R93). -/
def holdoff (s : State) (v : Nat) : Nat := cfg s (.hifVecMod v) 15 0 * 64000

/-- A device-written ring is a cause of its vector (R72). -/
def ringCause (s : State) (g v : Nat) : Bool :=
  let r := ring s g
  let count := Nat.max 1 (cfg s (.hifRingMod g) 15 0)
  let t := cfg s (.hifRingMod g) 31 16
  let wait := if t = 0 then holdoff s v else t * 64000
  decide (0 < r.unsig) && (decide (count ≤ r.unsig) || decide (r.unsigSince + wait ≤ s.now))

/-- The device-written rings of a link that name a vector. -/
def vecRings (s : State) (l : Link) (v : Nat) : List Nat :=
  (upTo 752).filter fun g => !driverWritten g && decide (ringLink s g = l) && decide ((ring s g).vector = v)

/-- A vector sends its message: its data to the address of its table entry (R39, R42, R72). -/
def sendMsix (l : Link) (v : Nat) (s : State) : State :=
  let x := vec s l v
  let s := modHif (fun h => { h with messages := h.messages ++ [(linkNo l, x.addr, x.data)] }) s
  modVec l v (fun x => { x with cause := false, pending := false, last := some s.now, sent := x.sent + 1 }) s

/-- MSIX_MESSAGE: a vector with a pending cause, unmasked and past its holdoff, sends its message (R72). A vector that its
function or its table entry masks sets its pending bit instead (R39; log 100). -/
def msixMessage (l : Link) (v : Nat) (unmasked : Bool) (s : State) : State :=
  let x := vec s l v
  let free := match x.last with
    | some t => decide (t + holdoff s v ≤ s.now)
    | none => true
  let cause := x.cause || (vecRings s l v).any fun g => ringCause s g v
  if free && cause && (linkSt s l).up then
    if unmasked && !x.masked then
      each (vecRings s l v) (fun g t => modRing g (fun r => { r with unsig := 0 }) t) (sendMsix l v s)
    else modVec l v (fun x => { x with pending := true }) s
  else s

/-- Increment the heartbeat slot of a link, 1 ms after its last increment, within 1 % (R48, R49). -/
def beat (l : Link) (s : State) : State :=
  let st := linkSt s l
  if st.committed && st.statOk && st.up && decide (st.beat + 99 * 10 ^ 7 ≤ s.now) then
    let a := pageAddr s l 2 + 4096 + 8 * 511
    modLink l (fun x => { x with beat := s.now }) (hostWr a (leBytes 8 (rdN s.host a 8 + 1)) s)
  else s

/-- HEARTBEAT. -/
def execHeartbeat (s : State) : Out := .next (beat .b (beat .a s))
/-- POLL_READ. -/
def execPollRead (link : Link) (page : Page) (block : Nat) (visible : List (Nat × Byte)) (s : State) : Out :=
  .next (pollRead link page block visible s)
/-- POLL_DATA. -/
def execPollData (link : Link) (page : Page) (block : Nat) (s : State) : Out := .next (pollData link page block s)
/-- POOL_ENTRY_READ. -/
def execPoolEntryRead (pool : Nat) (s : State) : Out := .next (poolEntryRead pool s)
/-- EVENT_PRODUCER_WRITE (R70): 1 µs after the newest descriptor was written. -/
def execEventProducerWrite (ring : Nat) (s : State) : Out :=
  .next (match (Machine.ring s ring).newest with
    | some n => if n.at_ + 10 ^ 6 ≤ s.now then publishEvent ring s else s
    | none => s)
/-- MSIX_MESSAGE. -/
def execMsixMessage (link : Link) (vector : Nat) (unmasked : Bool) (s : State) : Out :=
  .next (msixMessage link vector unmasked s)
/-- PUNT_BUFFER_GRANT. -/
def execPuntBufferGrant (pool : Nat) (s : State) : Out := .next (puntBufferGrant pool s)
/-- PUNT_POOL_TIMEOUT. -/
def execPuntPoolTimeout (pool : Nat) (s : State) : Out := .next (puntPoolTimeout pool s)

end Sys2Proof.Machine
end

