-- ==== Sys2Proof/Machine/Cmd.lean ====
section
/-! DEFINITION. How a command on a command ring begins, waits, runs and completes (R54–R64, R79, R444). -/

namespace Sys2Proof.Machine

/-! ### What a command names -/

/-- ORDER, NOCOMP and the cookie of a command (R54, R95). -/
def cmdFlags (i : Instr) : Bool × Bool × Nat :=
  let x := encodeDesc i
  (bit x 8, bit x 9, fld x 63 32)

/-- The target of a native command, kind and unit (R54); an LHX-7408 command has none (R95). -/
def cmdTarget (i : Instr) : Nat × Nat :=
  let x := encodeDesc i
  if 0x80 ≤ fld x 7 0 then (0, 0) else (fld x 31 28, fld x 27 16)

/-- The native object an LHX-7408 identifier names (R96). -/
def g3Object : Nat → Option Nat
  | 0x01 => some 0x0201 | 0x02 => some 0x0202 | 0x03 => some 0x0203 | 0x04 => some 0x0204 | 0x05 => some 0x0205
  | 0x06 => some 0x0206 | 0x10 => some 0x0105 | 0x11 => some 0x0106 | 0x12 => some 0x0107 | 0x20 => some 0x0504
  | 0x21 => some 0x0505 | 0x22 => some 0x0506
  | _ => none

/-- The counter object an LHX-7408 identifier names (R96). -/
def g3Counter : Nat → Option Nat
  | 0x80 => some 0x0183 | 0x81 => some 0x0182 | 0x82 => some 0x0281 | 0x83 => some 0x0581 | 0x84 => some 0x0981
  | _ => none

/-- A number for an object in the ordering of R79: the rule-set objects, which EPOCH_FLIP flips together, are one. -/
def orderObj (o : Nat) : Nat := if 0x0101 ≤ o ∧ o ≤ 0x0107 then 0x0100 else o

/-- The object a command names, for the ordering of R79. A command that names addresses of device memory names none. -/
def cmdObject (i : Instr) : Option Nat :=
  let x := encodeDesc i
  match i with
  | .ringSetQuery _ g | .ringSetEnable _ g | .ringSetDisable _ g | .ringSetMove _ g _ _ => some (0x10000 + g)
  | .poolSetQuery _ p | .poolSetFlush _ p _ => some (0x20000 + p)
  | .tableWrite _ t | .tableRead _ t | .tableBulkWrite _ t | .tableBulkRead _ t | .tableScan _ t | .digestSet _ t
  | .epochFlip _ t | .flowWrite _ t | .flowDelete _ t | .flowRead _ t | .flowRestore _ t | .counterRead _ t
  | .counterClear _ t | .shaperSet _ t => some (orderObj t.object)
  | .gateLoad _ _ => some 0x0903
  | .timeSetRead _ | .timeSetStep _ _ _ _ | .timeSetRate _ _ | .timeSetMarkTraceable _ | .timeSetTout _ _
  | .timeSetPeerDelay _ _ _ | .timeSetSynce _ _ _ _ _ => some 0x40000
  | .fwStage _ _ | .fwSwitch _ _ _ _ => some 0x50000
  | .domainCtlQuery _ | .domainCtlOff _ | .domainCtlOn _ | .domainCtlReinit _ _ | .domainCtlRestart _ _ =>
    some (0x60000 + fld x 31 16)
  | .g3TableWrite h _ | .g3TableRead h _ => (g3Object h.table).map orderObj
  | .g3CounterRead h _ => g3Counter h.table
  | .g3FlowDelete _ _ => some 0x0501
  | _ => none

/-- A long command (R55); DOMAIN_CTL QUERY is not one (R504). -/
def cmdLong (i : Instr) : Bool :=
  match i with
  | .tableBulkWrite _ _ | .tableBulkRead _ _ | .tableScan _ _ | .flowRestore _ _ | .gateLoad _ _ | .memRead _ _
  | .memWrite _ _ | .checkScan _ _ | .fwStage _ _ | .domainCtlOff _ | .domainCtlOn _ | .domainCtlReinit _ _
  | .domainCtlRestart _ _ => true
  | _ => false

/-- DOMAIN_CTL, which is accepted whatever its domain's state (R502). -/
def isDomainCtl (i : Instr) : Bool :=
  match i with
  | .domainCtlQuery _ | .domainCtlOff _ | .domainCtlOn _ | .domainCtlReinit _ _ | .domainCtlRestart _ _ => true
  | _ => false

/-- FENCE. -/
def isFence (i : Instr) : Bool :=
  match i with
  | .fence _ => true
  | _ => false

/-! ### In flight -/

/-- What running a command answers. -/
inductive CmdOut where
  /-- it completes now: status, progress, result words 0 and 1 -/
  | done (status progress res0 res1 : Nat)
  /-- it has not begun and waits (R79, R128, R165, R207, R439) -/
  | wait (w : WaitFor)
  /-- it has begun and another row ends it -/
  | go (w : WaitFor)
deriving DecidableEq, Repr

/-- Completed with no units and no result. -/
def CmdOut.ok : CmdOut := .done 0 0 0 0

/-- Completed with a status other than COMPLETED and nothing done. -/
def CmdOut.fail (status : Nat) : CmdOut := .done status 0 0 0

/-- The entry of a command in flight. -/
def inflight (s : State) (a : Nat × Nat) : Option InFlight :=
  s.hif.inflight.find? fun e => e.ring = a.1 ∧ e.index = a.2

/-- Change the entry of a command in flight. -/
def modInflight (a : Nat × Nat) (f : InFlight → InFlight) (s : State) : State :=
  modHif (fun h => { h with inflight := h.inflight.map fun e => if e.ring = a.1 ∧ e.index = a.2 then f e else e }) s

/-- Take a command out of flight. -/
def dropInflight (a : Nat × Nat) (s : State) : State :=
  modHif (fun h => { h with inflight := h.inflight.filter fun e => !(decide (e.ring = a.1) && decide (e.index = a.2)) }) s

/-- The order of fetch of a ring's index (R79). -/
def fetchOrder (s : State) (g i : Nat) : Nat :=
  match s.hif.fetched.find? fun f => f.1 = g ∧ f.2.1 ≤ i ∧ i < f.2.1 + f.2.2.1 with
  | some f => f.2.2.2 + (i - f.2.1)
  | none => s.hif.fetchCount

/-- Forget the fetched runs that have all begun. -/
def pruneFetched (g : Nat) (s : State) : State :=
  let b := (ring s g).begun
  modHif (fun h => { h with fetched := h.fetched.filter fun f => !(decide (f.1 = g) && decide (f.2.1 + f.2.2.1 ≤ b)) }) s

/-- A command fetched on the link before an order and not yet begun (R79). -/
def fetchedBefore (s : State) (l : Link) (o : Nat) : Bool :=
  s.hif.fetched.any fun f =>
    let b := Nat.max f.2.1 (ring s f.1).begun
    decide (ringLink s f.1 = l) && decide (b < f.2.1 + f.2.2.1) && decide (f.2.2.2 + (b - f.2.1) < o)

/-- Whether a command must wait for another before it begins: for ORDER, for FENCE, or for a command on the same
object (R54, R79). -/
def mustWait (s : State) (e : InFlight) : Option WaitFor :=
  let others := s.hif.inflight.filter fun x => !(decide (x.ring = e.ring) && decide (x.index = e.index))
  let same := others.filter fun x => x.ring = e.ring ∧ x.index < e.index
  if (cmdFlags e.cmd).1 ∧ same ≠ [] then some .order
  else if isFence e.cmd ∧ ((others.any fun x => decide (x.order < e.order) && decide (ringLink s x.ring = ringLink s e.ring))
      ∨ fetchedBefore s (ringLink s e.ring) e.order) then some .order
  else match cmdObject e.cmd with
    | none => none
    | some o =>
      if same.any fun x => decide (cmdObject x.cmd = some o) then some .object
      else if others.any fun x => cmdLong x.cmd && x.stepping && decide (cmdObject x.cmd = some o) then some .object
      else none

/-! ### Completion -/

/-- Complete a command: its completion is written, unless NOCOMP keeps it away (R54, R61). -/
def finish (a : Nat × Nat) (status progress res0 res1 : Nat) (s : State) : State :=
  match inflight s a with
  | none => s
  | some e =>
    let (_, nocomp, cookie) := cmdFlags e.cmd
    let late := e.abort && cmdLong e.cmd && decide (status = 0)
    let s := dropInflight a s
    let s := if cmdLong e.cmd then
        (if status = 1 then cntInc 0x0C81 0 14 s else if late then cntInc 0x0C81 0 15 s else s)
      else s
    let flags := b2n late + 2 * b2n e.evt + 4
    let s := if nocomp && decide (status = 0) then s
      else putCompletion (pairOf s a.1)
        (cplDesc ((opcodeOf e.cmd).getD 0) status flags cookie a.1 a.2 progress (stampNow s)
          (res0 % 2 ^ 64 + res1 % 2 ^ 64 * 2 ^ 64)) s
    { s with actor := none }

/-- Run part of a command: events it raises are its own (R61, R70, R79). -/
def asActor (a : Nat × Nat) (f : State → State) (s : State) : State :=
  let n := s.raised
  let s := f { s with actor := some a }
  let s := if n < s.raised then modInflight a (fun e => { e with evt := true }) s else s
  { s with actor := none }

/-- Take the answer of a command's run. -/
def takeOut (a : Nat × Nat) (r : CmdOut) (s : State) : State :=
  match r with
  | .done st p r0 r1 => finish a st p r0 r1 s
  | .wait w => modInflight a (fun e => { e with wait := w, stepping := false }) s
  | .go w => modInflight a (fun e => { e with wait := w, stepping := true }) s

/-- Whether a target names a unit the part does not have; kinds 8–15 are reserved (R3, R54). -/
def targetAbsent (s : State) (kind unit : Nat) : Bool :=
  decide (8 ≤ kind) || (decide (kind ≠ 0) && decide (unit ≠ 0xFFF) && !(unitsOfKind s kind).contains unit)

/-- Start a command that need not wait: its target is checked, then it runs (R54, R62, R502). Zeroisation refuses every
command (R490). -/
def startCmd (a : Nat × Nat) (i : Instr) (run : Nat × Nat → State → CmdOut × State) (s : State) : State :=
  let (k, u) := cmdTarget i
  if s.lcs.zeroising then finish a 10 0 0 0 s
  else if !isDomainCtl i && targetAbsent s k u then finish a 4 0 0 0 s
  else if !isDomainCtl i && targetDown s k u then finish a 9 0 0 0 s
  else
    let n := s.raised
    let (r, s) := run a { s with actor := some a }
    let s := if n < s.raised then modInflight a (fun e => { e with evt := true }) s else s
    takeOut a r { s with actor := none }

/-- A new entry in flight. -/
def newInflight (i : Instr) (g idx order : Nat) : InFlight :=
  ⟨i, g, idx, order, .nothing, false, false, 0, 0, 0, [], 0, false, []⟩

/-- Begin the next fetched descriptor of a command ring, which is this command (R51, R79). Nothing happens when the
ring has none. -/
def command (i : Instr) (run : Nat × Nat → State → CmdOut × State) (s : State) : State :=
  match ringOf i with
  | none => s
  | some g =>
    let r := ring s g
    if r.begun < r.cons ∧ g < 64 then
      let idx := r.begun
      let a := (g, idx)
      let e := newInflight i g idx (fetchOrder s g idx)
      let s := modRing g (fun r => { r with begun := r.begun + 1 }) s
      let s := pruneFetched g (modHif (fun h => { h with inflight := h.inflight ++ [e] }) s)
      let latched := s.hif.aborts.contains a
      let s := modHif (fun h => { h with aborts := h.aborts.filter (· ≠ a) }) s
      match mustWait s e with
      | some w =>
        if latched && cmdLong i then finish a 1 0 0 0 s
        else modInflight a (fun e => { e with wait := w }) s
      | none =>
        if latched && cmdLong i then finish a 1 0 0 0 s
        else startCmd a i run s
    else s

/-! ### Helpers of the meanings -/

/-- The host address of a Form T command's data, checked over the length its host_len gives, and over the data it moves where
that is longer: a length that is no multiple of 64 bytes fails (R43, R44, R56; log 16). -/
def dataCheck (g : Nat) (t : FormT) (len : Nat) (wr : Bool) (s : State) : Nat × State :=
  dmaCheck g t.hostAddr (Nat.max t.hostLen len) 64 wr s

/-- The host address of a G3 command's data, whose image gives no length (R95, R96; log 16). -/
def g3Check (g addr len : Nat) (wr : Bool) (s : State) : Nat × State := dmaCheck g addr (ceilDiv len 64 * 64) 64 wr s

/-- The bytes a Form T write takes: the inline data when host_addr is 0, else host memory (R56). -/
def formTBytes (s : State) (t : FormT) (n : Nat) : List Byte :=
  if t.hostAddr = 0 then leBytes n (t.inline % 2 ^ 192) else rdBytes s.host t.hostAddr n

/-- One entry of a byte string as an image. -/
def entryAt (bs : List Byte) (size i : Nat) : Nat := ofLe (takeBytes bs (size * i) size)

/-- Entries one after another as host data. -/
def entriesBytes (size : Nat) (es : List Nat) : List Byte := es.flatMap (leBytes size)

/-! ### NOP, ABORT, FENCE -/

/-- NOP completes at once (R55). -/
def runNop (_ : Nat × Nat) (s : State) : CmdOut × State := (.ok, s)

/-- FENCE completes once every command fetched before it on its link has completed (R79). -/
def runFence (_ : Nat × Nat) (s : State) : CmdOut × State := (.ok, s)

/-- G3_NOP completes at once (R95). -/
def runG3Nop (_ : Nat × Nat) (s : State) : CmdOut × State := (.ok, s)

/-- ABORT delivers an abort request to the command named, if it is in flight (R64, R444). A long command
that waits and has not begun its first step is aborted at once; a request to a command that is not long has no effect on
it. -/
def runAbort (g i : Nat) (_ : Nat × Nat) (s : State) : CmdOut × State :=
  match inflight s (g, i) with
  | some e =>
    if cmdLong e.cmd && !e.stepping then (.ok, finish (g, i) 1 0 0 0 s)
    else (.ok, modInflight (g, i) (fun e => { e with abort := true }) s)
  | none =>
    let r := ring s g
    if g < 64 ∧ r.begun ≤ i ∧ i < r.cons then
      (.ok, modHif (fun h => { h with aborts := h.aborts.filter (· ≠ (g, i)) ++ [(g, i)] }) s)
    else (.fail 4, s)

/-- NOP. -/
def execNop (h : Hdr) (s : State) : Out := .next (command (.nop h) runNop s)
/-- FENCE. -/
def execFence (h : Hdr) (s : State) : Out := .next (command (.fence h) runFence s)
/-- ABORT. -/
def execAbort (h : Hdr) (ring index : Nat) (s : State) : Out :=
  .next (command (.abort h ring index) (runAbort ring index) s)
/-- G3_NOP. -/
def execG3Nop (h : G3Hdr) (s : State) : Out := .next (command (.g3Nop h) runG3Nop s)

end Sys2Proof.Machine
end

