-- ==== Sys2Proof/Machine/Tables.lean ====
section
/-! DEFINITION. The bridging and routing tables: L2 entries (R143, R144), their owner slices (R146), insertion and
eviction (R154, R155), prefixes, filters and lookups (R156–R161), and the covered images of shadow compare (R164). -/

namespace Sys2Proof.Machine

/-! ### Targets (R140) -/

/-- The kind of a target. -/
def tgtKind (t : Nat) : Nat := fld t 19 17
/-- The index of a target. -/
def tgtIndex (t : Nat) : Nat := fld t 16 0
/-- A target of a kind and index. -/
def mkTgt (k i : Nat) : Nat := k * 2 ^ 17 + i % 2 ^ 17

/-! ### L2 entries (R143) -/

/-- The destination of an L2 entry. -/
def l2Dest (e : Nat) : Nat := fld e 83 64
/-- Its forwarding domain. -/
def l2Fid (e : Nat) : Nat := fld e 61 48
/-- Its address. -/
def l2Mac (e : Nat) : Nat := fld e 47 0
/-- It is pinned. -/
def l2Pinned (e : Nat) : Bool := bit e 84
/-- It is frozen. -/
def l2Frozen (e : Nat) : Bool := bit e 86
/-- Its hit bit. -/
def l2Hit (e : Nat) : Bool := bit e 87
/-- Its age. -/
def l2Age (e : Nat) : Nat := fld e 91 88
/-- Its move count. -/
def l2Moves (e : Nat) : Nat := fld e 95 92
/-- Its stamp. -/
def l2Stamp (e : Nat) : Nat := fld e 111 96
/-- The slot is in use. -/
def l2Used (e : Nat) : Bool := decide (tgtKind (l2Dest e) ≠ 0)

/-- The bytes of an L2 key: fid then mac, big-endian (R144). -/
def l2KeyBytes (fid mac : Nat) : List Byte := beBytes 2 fid ++ beBytes 6 mac

/-- The two candidate buckets of a key on a die (R144). -/
def l2Buckets (s : State) (die fid mac : Nat) : Nat × Nat :=
  let seed := (stored s (.fwdHashSeed die)).toNat
  (crc32cFrom seed (l2KeyBytes fid mac) % 262144, crc32cFrom (Nat.xor seed 0xFFFFFFFF) (l2KeyBytes fid mac) % 262144)

/-- The candidate slots of a key, in ascending order without repeats. -/
def l2Cands (s : State) (die fid mac : Nat) : List Nat :=
  let (a, b) := l2Buckets s die fid mac
  let lo := Nat.min a b
  let hi := Nat.max a b
  (upTo 4).map (4 * lo + ·) ++ if lo = hi then [] else (upTo 4).map (4 * hi + ·)

/-- An L2 entry of a die's copy. -/
def l2Get (s : State) (die slot : Nat) : Nat := tEntry s die 0x0201 slot

/-- The slot of a key in a die's copy. -/
def l2Find (s : State) (die fid mac : Nat) : Option Nat :=
  (l2Cands s die fid mac).find? fun i =>
    let e := l2Get s die i
    l2Used e && decide (l2Fid e = fid) && decide (l2Mac e = mac)

/-- The owner slice of an L2 key (R146). -/
def l2Owner (s : State) (fid mac : Nat) : Nat :=
  let l := slicesOf s.part
  nth 0 l (crc32cFrom 0xFFFFFFFF (l2KeyBytes fid mac) % l.length)

/-- The free candidate slot chosen: the lowest. -/
def l2FreeSlot (s : State) (die fid mac : Nat) : Option Nat :=
  (l2Cands s die fid mac).find? fun i => !l2Used (l2Get s die i)

/-- The candidate an eviction takes: with l2_oldest the highest age, lowest slot first; otherwise one of the unpinned
by a free value (R154). -/
def l2Victim (s : State) (die fid mac : Nat) : Option Nat × State :=
  let c := (l2Cands s die fid mac).filter fun i => !l2Pinned (l2Get s die i)
  match c with
  | [] => (none, s)
  | a :: r =>
    if cfgBit s (.fwdEvictCfg die) 0 then
      (some (r.foldl (fun b i => if l2Age (l2Get s die b) < l2Age (l2Get s die i) then i else b) a), s)
    else
      let (n, s) := useFree s
      (some (nth a c (Config.freeValue n % c.length)), s)

/-- A new L2 entry made by learning (R150): dest, learned, stamp, all else 0. -/
def l2New (fid mac dest ms : Nat) : Nat :=
  mac % 2 ^ 48 + fid % 2 ^ 14 * 2 ^ 48 + dest % 2 ^ 20 * 2 ^ 64 + 2 ^ 85 + ms % 2 ^ 16 * 2 ^ 96

/-- The fields of a driver's L2 image that a write keeps: learned, stamp, move_count, age, hit and frozen become 0
(R143). -/
def l2Driver (e : Nat) : Nat :=
  l2Mac e + l2Fid e * 2 ^ 48 + l2Dest e * 2 ^ 64 + b2n (l2Pinned e) * 2 ^ 84

/-! ### Shadow compare's covered images (R164, R206) -/

/-- The covered image of one slot of a table object. -/
def covered (o e : Nat) : Nat :=
  match o with
  | 0x0201 => if l2Pinned e && l2Used e then l2Driver e else 0
  | 0x0202 => if tgtKind (fld e 63 44) = 0 then 0 else e
  | 0x0203 => if tgtKind (fld e 95 76) = 0 then 0 else e
  | 0x0204 => if tgtKind (fld e 19 0) = 0 then 0 else e
  | 0x0507 => 0
  | _ => e

/-- The object a block holds, for the blocks of one object (R136, R206). -/
def blockObj (b : Nat) : Nat :=
  if b < 256 then 0x0201 else if b < 512 then 0x0202 else if b < 768 then 0x0203 else if b < 832 then 0x0204
  else if b < 902 then 0x0205 else 0x0507

/-- The slot images of an IPv6 bucket's pair of slots: the second slot of a long entry is that entry's (R158). -/
def covered6 (e0 e1 : Nat) : Nat × Nat :=
  if tgtKind (fld e0 95 76) ≠ 0 ∧ bit e0 96 then (e0, e1) else (covered 0x0203 e0, covered 0x0203 e1)

/-- The covered image of a block of a die's table memory, as its bytes (R164). -/
def coveredBlock (s : State) (die b : Nat) : List Byte :=
  let o := blockObj b
  let base := b * 65536
  if 902 ≤ b then List.replicate 65536 0
  else if o = 0x0203 then
    (upTo 2048).flatMap fun i =>
      let (a, c) := covered6 (tRead s die (base + 32 * i) 16) (tRead s die (base + 32 * i + 16) 16)
      leBytes 16 a ++ leBytes 16 c
  else if b < 832 then
    let n := slotSize o
    (upTo (65536 / n)).flatMap fun i => leBytes n (covered o (tRead s die (base + n * i) n))
  else rdBytes s.tmem (tAddr die base) 65536

/-- A block of a die becomes stale when its covered image changed by a driver's write (R165). A compare that runs is
abandoned by any driver write to the block. -/
def markWrite (die blk : Nat) (changed : Bool) (s : State) : State :=
  modCmp die blk (fun c => { c with stale := c.stale || changed, dirty := true }) s

/-- A driver's write of one slot of a table object on one die (R139, R165). -/
def drvPut (die o idx v : Nat) (s : State) : State :=
  let old := tEntry s die o idx
  let s := tPut die o idx v s
  let ch := if o = 0x0203 then decide (old ≠ v) else decide (covered o old ≠ covered o (v % 2 ^ (8 * slotSize o)))
  markWrite die (tOff o idx / 65536) ch s

/-- A driver's write on every present die. -/
def drvPutAll (o idx v : Nat) (s : State) : State := each (dies s.part) (fun d => drvPut d o idx v) s

/-! ### Prefixes (R157–R159) -/

/-- The length register of a family and length. -/
def lpmReg (die : Nat) (v6 : Bool) (l : Nat) : Reg := if v6 then .fwdLpm6Len die l else .fwdLpm4Len die l

/-- Address bits of a family. -/
def addrBits (v6 : Bool) : Nat := if v6 then 128 else 32

/-- The prefix of an address: bits beyond the length cleared. -/
def prefixOf (v6 : Bool) (addr l : Nat) : Nat :=
  let w := addrBits v6
  (addr >>> (w - l)) <<< (w - l) % 2 ^ w

/-- The bucket of a prefix in its length's table, as the byte offset in table memory, when the table is enabled
(R157). -/
def lpmBucket (s : State) (die : Nat) (v6 : Bool) (vrf l pre : Nat) : Option Nat :=
  let r := lpmReg die v6 l
  if !cfgBit s r 31 then none
  else
    let n := 1024 * 2 ^ Nat.min 8 (cfg s r 11 8)
    let seed := Nat.xor (stored s (.fwdHashSeed die)).toNat 0x0000FFFF
    let b := crc32cFrom seed (beBytes 2 vrf ++ beBytes (addrBits v6 / 8) pre) % n
    some ((if v6 then 512 else 256) * 65536 + cfg s r 7 0 * 65536 + 64 * b)

/-- The filter width k of a family (R159, R171). -/
def lpmK (s : State) (die : Nat) (v6 : Bool) : Nat :=
  if v6 then Nat.min 128 (cfg s (.fwdLpmCfg die) 15 8) else Nat.min 32 (cfg s (.fwdLpmCfg die) 5 0)

/-- The key of a filter count: die, family, length, index (R159). -/
def filterKey (s : State) (die : Nat) (v6 : Bool) (vrf l addr : Nat) : Nat :=
  let w := addrBits v6
  let m := Nat.min l (lpmK s die v6)
  let n := (m + 7) / 8
  let bits := (prefixOf v6 addr m) >>> (w - 8 * n)
  let seed := Nat.xor (stored s (.fwdHashSeed die)).toNat 0xFFFF0000
  let i := crc32cFrom seed (beBytes 2 vrf ++ beBytes n bits) % 2048
  ((die * 2 + b2n v6) * 256 + l) * 2048 + i

/-- A filter count. -/
def filterGet (s : State) (k : Nat) : Nat := mget 0 s.fwd.filter k

/-- Change a filter count: up by one, staying at 255 once there; or down by one, unless it stays at 255 (R159). -/
def filterStep (k : Nat) (up : Bool) (s : State) : State :=
  let c := filterGet s k
  let c' := if c = 255 then 255 else if up then c + 1 else c - 1
  modFwd (fun f => { f with filter := mset 0 f.filter k c' }) s

/-- A length's table is disabled: its filter counts that stay at 255 stay no longer, and become 0 (R159, log 109). -/
def filterRelease (die : Nat) (v6 : Bool) (l : Nat) (s : State) : State :=
  modFwd (fun f => { f with
    filter := f.filter.filter fun e => !(decide (e.1 / 2048 = (die * 2 + b2n v6) * 256 + l) && decide (e.2 = 255)) }) s

/-- The offsets in a bucket of the entries of a family: IPv4 8 of 8 bytes, IPv6 4 of 16 bytes. -/
def bucketOffs (v6 : Bool) : List Nat := if v6 then [0, 16, 32, 48] else [0, 8, 16, 24, 32, 40, 48, 56]

/-- The IPv6 entries of a bucket that begin there: the slot after a long entry begins none (R158). -/
def v6Starts (s : State) (die b : Nat) : List Nat :=
  [0, 32].flatMap fun o =>
    let e := tRead s die (b + o) 16
    if tgtKind (fld e 95 76) ≠ 0 ∧ bit e 96 then [o] else [o, o + 16]

/-- An entry of a bucket is the prefix (vrf, pre) of length l (R158). -/
def routeIs (s : State) (die : Nat) (v6 : Bool) (b vrf l pre off : Nat) : Bool :=
  if v6 then
    let e := tRead s die (b + off) 16
    decide (tgtKind (fld e 95 76) ≠ 0) && decide (fld e 75 64 = vrf) && decide (fld e 63 0 = pre >>> 64)
      && (if 64 < l then bit e 96 && decide (fld (tRead s die (b + off + 16) 16) 63 0 = pre % 2 ^ 64) else !bit e 96)
  else
    let e := tRead s die (b + off) 8
    decide (tgtKind (fld e 63 44) ≠ 0) && decide (fld e 43 32 = vrf) && decide (fld e 31 0 = pre)

/-- The offset in a die's table memory of a prefix's entry. -/
def routeFind (s : State) (die : Nat) (v6 : Bool) (vrf l pre : Nat) : Option Nat :=
  match lpmBucket s die v6 vrf l pre with
  | none => none
  | some b =>
    ((if v6 then v6Starts s die b else bucketOffs false).find? (routeIs s die v6 b vrf l pre)).map (b + ·)

/-- The result of a route entry. -/
def routeResult (s : State) (die : Nat) (v6 : Bool) (off : Nat) : Nat :=
  if v6 then fld (tRead s die off 16) 95 76 else fld (tRead s die off 8) 63 44

/-- The offset of a free place for an entry in a bucket: one slot, or for a long IPv6 entry slots 0–1 or 2–3. -/
def routeRoom (s : State) (die : Nat) (v6 long : Bool) (b : Nat) : Option Nat :=
  if v6 then
    let free (o : Nat) : Bool := decide (tgtKind (fld (tRead s die (b + o) 16) 95 76) = 0)
    if long then ([0, 32].find? fun o => free o && free (o + 16)).map (b + ·)
    else ((v6Starts s die b).find? free).map (b + ·)
  else ((bucketOffs false).find? fun o => decide (tgtKind (fld (tRead s die (b + o) 8) 63 44) = 0)).map (b + ·)

/-- The candidate lengths of a destination, longest first (R160). -/
def lpmLengths (s : State) (die : Nat) (v6 : Bool) (vrf addr : Nat) : List Nat :=
  ((upTo (addrBits v6 + 1)).reverse).filter fun l =>
    cfgBit s (lpmReg die v6 l) 31 && decide (filterGet s (filterKey s die v6 vrf l addr) ≠ 0)

/-- Probe the candidate lengths in rounds of four; the result with the probes made (R160). n bounds the rounds. -/
def lpmProbe (s : State) (die : Nat) (v6 : Bool) (vrf addr : Nat) : Nat → List Nat → Nat → Option Nat × Nat
  | 0, _, c => (none, c)
  | _, [], c => (none, c)
  | n + 1, ls, c =>
    let round := ls.take 4
    match round.findSome? (fun l => routeFind s die v6 vrf l (prefixOf v6 addr l)) with
    | some off => (some off, c + round.length)
    | none => lpmProbe s die v6 vrf addr n (ls.drop 4) (c + round.length)

/-- The longest matching prefix's target, and the probes (R156, R160). -/
def lpmLookup (s : State) (die : Nat) (v6 : Bool) (vrf addr : Nat) : Option Nat × Nat :=
  let (o, c) := lpmProbe s die v6 vrf addr 33 (lpmLengths s die v6 vrf addr) 0
  (o.map (routeResult s die v6), c)

/-! ### Decisions on their way to the dies (R149, R168) -/

/-- The slot of a die's copy holds the key. -/
def l2Holds (s : State) (die slot fid mac : Nat) : Bool :=
  let e := l2Get s die slot
  l2Used e && decide (l2Fid e = fid) && decide (l2Mac e = mac)

/-- Apply one decision to a die's copy: a put keeps a hit of the same key; a delete is answered by the caller when the
copy's hit bit is set (R153). -/
def applyL2 (die : Nat) (m : L2Msg) (s : State) : State :=
  match m with
  | .put slot image =>
    let e := l2Get s die slot
    let same := l2Used e && decide (l2Fid e = l2Fid image) && decide (l2Mac e = l2Mac image)
    tPut die 0x0201 slot (if same && l2Hit e then setFld image 87 87 1 else image) s
  | .hitClear slot fid mac =>
    if l2Holds s die slot fid mac then tPut die 0x0201 slot (setFld (l2Get s die slot) 87 87 0) s else s
  | .delete slot fid mac =>
    if l2Holds s die slot fid mac && !l2Hit (l2Get s die slot) then tPut die 0x0201 slot 0 s else s

end Sys2Proof.Machine
end

