-- ==== Sys2Proof/Machine/Edit.lean ====
section
/-! DEFINITION. The egress edit (R344, R345), its checksums, and the transparent clock's update (R370–R376). -/

namespace Sys2Proof.Machine

/-! ### Bytes -/

/-- Overwrite bytes of a list from an offset. -/
def putBytes (l : List Byte) (off : Nat) (bs : List Byte) : List Byte := l.take off ++ bs ++ l.drop (off + bs.length)

/-- The 16-bit big-endian word at an offset. -/
def be16 (l : List Byte) (off : Nat) : Nat := ofBe (takeBytes l off 2)

/-- Sum of ~m + m' over the 16-bit words of a range that differ (RFC 1624). n counts words. -/
def wordDiffs (a b : List Byte) (off : Nat) : Nat → Nat
  | 0 => 0
  | n + 1 =>
    let x := be16 a off
    let y := be16 b off
    (if x = y then 0 else 65535 - x + y) + wordDiffs a b (off + 2) n

/-- The checksum after an incremental update by a sum of differences (RFC 1624); unchanged when nothing differs. -/
def csumUpdate (hc d : Nat) : Nat := if d = 0 then hc else 65535 - fold16 (65535 - hc + d)

/-! ### Headers of the frame -/

/-- The first recorded IP header (R344). -/
def firstIp (hs : List HdrRec) : Option HdrRec := hs.find? fun h => h.recorded && (decide (h.cls = 4) || decide (h.cls = 5))

/-- The header parsed directly after one. -/
def headerAfter (hs : List HdrRec) (off : Nat) : Option HdrRec := hs.find? fun h => off < h.off

/-- The outermost tag: the tag parsed directly after the Ethernet header. -/
def outerTag (hs : List HdrRec) : Option HdrRec := hs.find? fun h => decide (h.cls = 2) && decide (h.off = 14)

/-- Move every header at or past a place. -/
def shiftHdrs (hs : List HdrRec) (atN add sub : Nat) : List HdrRec :=
  hs.map fun h => if atN ≤ h.off then { h with off := h.off + add - sub } else h

/-- An 802.1Q tag: TPID 0x8100, PCP, DEI 0, VID. -/
def dot1q (pcp vid : Nat) : List Byte := beBytes 2 0x8100 ++ beBytes 2 (pcp % 8 * 8192 + vid % 4096)

/-! ### Steps 1 and 2 -/

/-- A next hop as a lookup finds it (R162, R168). -/
def hopAt (s : State) (die i : Nat) : Hop :=
  let e := tEntry s die 0x0204 i
  ⟨i, e, fld (tEntry s die 0x0206 (fld e 87 80)) 47 0⟩

/-- Step 1: a routed frame's Ethernet header and tags give way to the next hop's. -/
def editRoute (tc : Nat) (nh : Hop) (bs : List Byte) (hs : List HdrRec) : List Byte × List HdrRec :=
  match firstIp hs with
  | none => (bs, hs)
  | some ip =>
    let e := nh.img
    let gone := hs.filter fun h => decide (h.off < ip.off) && (decide (h.off = 0) || decide (h.cls = 2))
    let cut := sumL (gone.map (·.len))
    let keep := (upTo ip.off).filter fun i => !gone.any fun h => decide (h.off ≤ i) && decide (i < h.off + h.len)
    let type := match gone.getLast? with
      | some h => takeBytes bs (h.off + h.len - 2) 2
      | none => []
    let vid := fld e 31 20
    let head := beBytes 6 (fld e 79 32) ++ beBytes 6 nh.smac ++ (if vid = 0 then [] else dot1q tc vid) ++ type
    (head ++ keep.map (fun i => bs.getD i 0) ++ bs.drop ip.off, shiftHdrs hs ip.off head.length cut)

/-- Step 2: a bridged multicast copy takes its member's VLAN. -/
def editVid (tc vid : Nat) (bs : List Byte) (hs : List HdrRec) : List Byte × List HdrRec :=
  match outerTag hs with
  | some h => (putBytes bs h.off (beBytes 2 (be16 bs h.off / 4096 * 4096 + vid % 4096)), hs)
  | none => (bs.take 12 ++ dot1q tc vid ++ bs.drop 12, shiftHdrs hs 14 4 0)

/-! ### Steps 3, 4 and 6 -/

/-- The family of a NAT_ADDR entry: that of the pool that names it (R198). -/
def natIs6 (s : State) (die i : Nat) : Bool :=
  match (upTo 64).find? (fun p =>
      let e := tEntry s die 0x0504 p
      bit e 64 && decide (fld e 13 0 ≤ i) && decide (i < fld e 13 0 + fld e 30 15)) with
  | some p => bit (tEntry s die 0x0504 p) 31
  | none => decide (fld (tEntry s die 0x0506 i) 127 32 ≠ 0)

/-- The rewrites of an action block and a backend (R181, R203), as the action merge finds them. -/
def rewrites (s : State) (die action : Nat) (backend : Option Nat) : List Rewrite :=
  let own := if bit action 24 || bit action 25 then
      let (v6, a) := if bit action 26 then
          let i := fld action 40 27
          let e := leBytes 16 (tEntry s die 0x0506 i)
          let six := natIs6 s die i
          (six, if six then e else e.take 4)
        else
          let a := takeBytes (leBytes 32 action) 16 16
          let six := decide (ofBe (a.take 12) ≠ 0)
          (six, if six then a else a.drop 12)
      let p := fld action 56 41
      (if bit action 24 then [Rewrite.mk true v6 a p] else [])
        ++ (if bit action 25 && !bit action 88 then [Rewrite.mk false v6 a p] else [])
    else []
  match backend with
  | none => own
  | some b =>
    let e := tEntry s die 0x0505 b
    if bit e 20 then
      let six := bit e 21
      let a := takeBytes (leBytes 32 e) 8 16
      own ++ [Rewrite.mk false six (if six then a else a.take 4) (fld e 47 32)]
    else own

/-- Apply one rewrite; none when its family differs from the header's (R345). -/
def applyRewrite (hs : List HdrRec) (r : Rewrite) (bs : List Byte) : Option (List Byte) :=
  match firstIp hs with
  | none => some bs
  | some ip =>
    if r.v6 ≠ decide (ip.cls = 5) then none
    else
      let o := ip.off + (if ip.cls = 5 then (if r.src then 8 else 24) else (if r.src then 12 else 16))
      let bs := putBytes bs o r.addr
      match headerAfter hs ip.off with
      | some l4 =>
        if (l4.cls = 7 ∨ l4.cls = 8) ∧ r.port ≠ 0 then some (putBytes bs (l4.off + (if r.src then 0 else 2)) (beBytes 2 r.port))
        else some bs
      | none => some bs

/-- Apply every rewrite. -/
def applyRewrites (hs : List HdrRec) : List Rewrite → List Byte → Option (List Byte)
  | [], bs => some bs
  | r :: rest, bs =>
    match applyRewrite hs r bs with
    | none => none
    | some bs => applyRewrites hs rest bs

/-- Step 3: TTL or hop limit goes down by one. -/
def decTtl (hs : List HdrRec) (bs : List Byte) : List Byte :=
  match firstIp hs with
  | none => bs
  | some ip =>
    let o := ip.off + (if ip.cls = 5 then 7 else 8)
    putBytes bs o [bs.getD o 0 - 1]

/-- Repair the header checksum of the first IPv4 header for what changed in it. -/
def fixIp (hs : List HdrRec) (old bs : List Byte) : List Byte :=
  match firstIp hs with
  | some ip =>
    if ip.cls = 4 then
      let d := wordDiffs old bs ip.off 5 + wordDiffs old bs (ip.off + 12) 4
      putBytes bs (ip.off + 10) (beBytes 2 (csumUpdate (be16 old (ip.off + 10)) d))
    else bs
  | none => bs

/-- The checksum of a TCP or UDP header after changes that sum to d: an IPv4 UDP checksum of 0 stays 0, and a UDP
checksum that computes as 0 is sent as 0xFFFF (R344, R374). -/
def l4Csum (udp v4 : Bool) (hc d : Nat) : Nat :=
  if udp && v4 && decide (hc = 0) then 0
  else
    let x := csumUpdate hc d
    if udp && decide (x = 0) && decide (d ≠ 0) then 65535 else x

/-- Differences of the addresses of an IP header. -/
def addrDiffs (ip : HdrRec) (old bs : List Byte) : Nat :=
  if ip.cls = 5 then wordDiffs old bs (ip.off + 8) 16 else wordDiffs old bs (ip.off + 12) 4

/-- Repair the checksum of the TCP or UDP header directly after the first IP header, with extra differences that fall
in its payload. -/
def fixL4 (hs : List HdrRec) (extra : Nat) (old bs : List Byte) : List Byte :=
  match firstIp hs with
  | none => bs
  | some ip =>
    match headerAfter hs ip.off with
    | none => bs
    | some l4 =>
      if l4.cls = 7 ∨ l4.cls = 8 then
        let o := l4.off + (if l4.cls = 7 then 6 else 16)
        let d := addrDiffs ip old bs + wordDiffs old bs l4.off 2 + extra
        putBytes bs o (beBytes 2 (l4Csum (decide (l4.cls = 7)) (decide (ip.cls = 4)) (be16 old o) d))
      else bs

/-! ### The PTP update -/

/-- What the update of a PTP message does. -/
inductive PtpOut where
  /-- the frame leaves as it stands, with this entry of TIM_CNT counted -/
  | same (count : Option Nat)
  /-- the frame is dropped, counted in this entry of TIM_CNT -/
  | drop (count : Nat)
  /-- these bytes replace those at an offset; entries counted -/
  | change (off : Nat) (bytes : List Byte) (counts : List Nat)
deriving DecidableEq, Repr

/-- The first recorded PTP header (R370). -/
def ptpHdr (hs : List HdrRec) : Option HdrRec := hs.find? fun h => h.recorded && decide (h.cls = 13)

/-- The recorded header directly before one. -/
def recordedBefore (hs : List HdrRec) (off : Nat) : Option HdrRec :=
  (hs.filter fun h => h.recorded && decide (h.off < off)).getLast?

/-- The nearest IP header before a place. -/
def ipBefore (hs : List HdrRec) (off : Nat) : Option HdrRec :=
  (hs.filter fun h => (decide (h.cls = 4) || decide (h.cls = 5)) && decide (h.off < off)).getLast?

/-- The transparent-clock mode of a port, R385: 0 OFF, 1 E2E, 2 P2P. -/
def tcMode (s : State) (port : Nat) : Nat := cfg s (.timPortCfg port) 31 30

/-- A correction with an amount added, and whether it saturated (R372). -/
def addCorrection (c : Nat) (amount : Int) : Nat × Bool :=
  let x := toSigned 64 c + amount
  if c = 0x7FFFFFFFFFFFFFFF ∨ x > 0x7FFFFFFFFFFFFFFF then (0x7FFFFFFFFFFFFFFF, true) else (ofSigned 64 x, false)

/-- Another recorded UDP header than the one directly before encloses the PTP header with a non-zero checksum (R375). -/
def enclosed (hs : List HdrRec) (p : HdrRec) (bs : List Byte) : Bool :=
  let own := (recordedBefore hs p.off).map (·.off)
  hs.any fun h => h.recorded && decide (h.cls = 7) && decide (h.off < p.off) && decide (own ≠ some h.off)
    && decide (be16 bs (h.off + 6) ≠ 0)

/-- The update of a frame about to leave on a port with transmit stamp tx (R370–R376). -/
def ptpUpdate (s : State) (k : Pkt) (copy : Bool) (port : Nat) (tx : Stamp) (txOk : Bool) (hs : List HdrRec)
    (bs : List Byte) : PtpOut :=
  match ptpHdr hs with
  | none => .same none
  | some p =>
    let v2 := decide ((bs.getD (p.off + 1) 0).toNat % 16 = 2)
    if !v2 then .same (some 3)
    else if p.len < 34 ∨ bs.length < p.off + 34 ∨ copy then .same none
    else
      let ty := (bs.getD p.off 0).toNat % 16
      let c := ofBe (takeBytes bs (p.off + 8) 8)
      let inject := k.inj.isSome && k.oneStep
      let ms := tcMode s k.port
      let does := if inject then decide (ty = 0) || decide (ty = 3)
        else !k.inj.isSome && decide (ms = 1 ∨ ms = 2) && decide (tcMode s port = 1 ∨ tcMode s port = 2)
          && (if ms = 2 then decide (ty ≤ 1) else decide (ty ≤ 3))
      if !does then .same (if inject then some 2 else none)
      else if enclosed hs p bs then .same (some 8)
      else if !txOk || (!inject && !k.stampOk) then .drop 4
      else if !inject && decide (k.gen ≠ s.tim.gen) then .drop 5
      else if inject then
        if ty = 0 then
          let (v, sat) := addCorrection c (Int.ofNat tx.frac)
          .change (p.off + 8) (beBytes 8 v ++ takeBytes bs (p.off + 16) 18 ++ beBytes 6 tx.sec ++ beBytes 4 tx.ns)
            ([1] ++ if sat then [6] else [])
        else
          let sec := ofBe (takeBytes bs (p.off + 34) 6)
          let ns := ofBe (takeBytes bs (p.off + 40) 4)
          let (v, sat) := addCorrection c (Int.ofNat (stampFx tx) - Int.ofNat (stampFx ⟨sec, ns, 0⟩))
          .change (p.off + 8) (beBytes 8 v ++ takeBytes bs (p.off + 16) 18 ++ List.replicate 10 0)
            ([1] ++ if sat then [6] else [])
      else
        let res := Int.ofNat (stampFx tx) - Int.ofNat (stampFx k.stamp)
        let amt := if ms = 2 ∧ ty = 0 then res + Int.ofNat (mget 0 s.tim.peer k.port) else res
        let (v, sat) := addCorrection c amt
        .change (p.off + 8) (beBytes 8 v) ([0] ++ if sat then [6] else [])

/-- Repair the checksum of the UDP header recorded directly before the PTP header for its changed bytes (R374). -/
def fixPtpUdp (hs : List HdrRec) (p d : Nat) (old bs : List Byte) : List Byte :=
  match recordedBefore hs p with
  | some u =>
    if u.cls = 7 then
      let v4 := match ipBefore hs u.off with
        | some ip => decide (ip.cls = 4)
        | none => true
      putBytes bs (u.off + 6) (beBytes 2 (l4Csum true v4 (be16 old (u.off + 6)) d))
    else bs
  | none => bs

/-! ### The whole edit -/

/-- What the edit of a frame gives. -/
structure EditOut where
  /-- the bytes sent, without FCS; none when the frame is dropped -/
  bytes : Option (List Byte)
  /-- dropped at a rewrite (R345) -/
  rewrite : Bool
  /-- entries of TIM_CNT to count -/
  counts : List Nat
deriving DecidableEq, Repr

/-- Pad to 60 bytes. -/
def padTo60 (bs : List Byte) : List Byte := bs ++ List.replicate (60 - bs.length) 0

/-- The bytes of a frame at its last pass: the front stripped. -/
def passBytes (k : Pkt) : List Byte := k.bytes.drop k.snap.strip

/-- Steps 1 and 2. -/
def editHead (k : Pkt) (vid : Option Nat) : List Byte × List HdrRec :=
  let bs := passBytes k
  let hs := k.snap.hdrs
  match k.snap.nh with
  | some nh => if k.snap.routed then editRoute k.tc nh bs hs else (bs, hs)
  | none => match vid with
    | some v => editVid k.tc v bs hs
    | none => (bs, hs)

/-- The next hop asks for the TTL to go down. -/
def wantsDec (k : Pkt) : Bool :=
  match k.snap.nh with
  | some nh => k.snap.routed && bit nh.img 88
  | none => false

/-- The edit of a frame for one port (R344). A malformed frame that its cause's action forwards leaves unmodified (R107). -/
def edit (s : State) (k : Pkt) (copy : Bool) (port : Nat) (vid : Option Nat) (tx : Stamp) (txOk : Bool) : EditOut :=
  if k.malformed ≠ 0 then ⟨some (padTo60 (passBytes k)), false, []⟩
  else
  let (b0, hs) := editHead k vid
  let b1 := if wantsDec k then decTtl hs b0 else b0
  match applyRewrites hs k.rews b1 with
  | none => ⟨none, true, []⟩
  | some b2 =>
    match ptpUpdate s k copy port tx txOk hs b2 with
    | .drop c => ⟨none, false, [c]⟩
    | .same c => ⟨some (padTo60 (fixL4 hs 0 b0 (fixIp hs b0 b2))), false, c.toList⟩
    | .change off new cs =>
      let b3 := putBytes b2 off new
      let d := wordDiffs b2 b3 off ((new.length + 1) / 2)
      let p := off - 8
      let l4 : Option Nat := match firstIp hs with
        | some ip => (headerAfter hs ip.off).map (·.off)
        | none => none
      let one := l4.isSome && decide (l4 = (recordedBefore hs p).map (·.off))
      let b4 := fixL4 hs (if one then d else 0) b0 (fixIp hs b0 b3)
      ⟨some (padTo60 (if one then b4 else fixPtpUdp hs p d b2 b4)), false, cs⟩

/-- The frame length with FCS after the edit (R330). -/
def editedLen (k : Pkt) (vid : Option Nat) : Nat :=
  let b := if k.malformed ≠ 0 then passBytes k else (editHead k vid).1
  Nat.max 60 b.length + 4

end Sys2Proof.Machine
end

