-- ==== Sys2Proof/Machine/L2.lean ====
section
/-! DEFINITION. The owner slices of L2 keys: learn messages (R149), decisions (R150, R151, R153, R154) and their broadcast to
every die's copy (R149, R153), and the order of one key's changes (R146, R168). -/

namespace Sys2Proof.Machine

/-- Send a learn message to its owner slice; a full queue drops it (R149). -/
def sendLearn (sl : Nat) (m : LearnMsg) (s : State) : State :=
  let q := mget [] s.fwd.learnQ sl
  if !s.pwr.committed then s
  else if 2048 ≤ q.length then cntInc 0x0281 (dieOfSlice sl) 3 s
  else modFwd (fun f => { f with learnQ := mset [] f.learnQ sl (q ++ [m]) }) s

/-- Milliseconds as an L2 entry's stamp counts them. -/
def msStamp (s : State) : Nat := msNow s % 65536

/-- Milliseconds since an entry's stamp. -/
def msSinceStamp (s : State) (e : Nat) : Nat := (msStamp s + 65536 - l2Stamp e) % 65536

/-- Learning counts are charged on the die of the owner slice (R169). -/
def learnCnt (sl i : Nat) (s : State) : State := cntInc 0x0281 (dieOfSlice sl) i s

/-- Send a decision toward every other die's copy; the owner's own die has it at once (R149). -/
def broadcast (sl : Nat) (m : L2Msg) (s : State) : State :=
  let own := dieOfSlice sl
  let s := applyL2 own m s
  each ((dies s.part).filter (· ≠ own)) (fun d t =>
    modFwd (fun f => { f with bcast := mset [] f.bcast d (mget [] f.bcast d ++ [m]) }) t) s

/-- The owner's change of an entry in its slot, with the hit its own copy has. -/
def ownerPut (sl slot e : Nat) (s : State) : State :=
  let s := tPut (dieOfSlice sl) 0x0201 slot e s
  broadcast sl (.put slot (setFld e 87 87 0)) s

/-- The two parameters that hold a key (R550). -/
def keyParams (fid mac : Nat) : Nat × Nat := (fid % 2 ^ 14 + mac / 2 ^ 32 * 2 ^ 16, mac % 2 ^ 32)

/-- Put a learned entry in, evicting when no candidate is free (R150, R154); false when all are pinned. -/
def learnInsert (sl fid mac tgt : Nat) (s : State) : Bool × State :=
  let die := dieOfSlice sl
  let e := l2New fid mac tgt (msStamp s)
  match l2FreeSlot s die fid mac with
  | some i => (true, ownerPut sl i e s)
  | none =>
    match l2Victim s die fid mac with
    | (some i, s) => (true, ownerPut sl i e (learnCnt sl 10 s))
    | (none, s) =>
      let (p0, p1) := keyParams fid mac
      (false, raise (fwdSrc die 1) evL2LearnFull p0 p1 tgt 0 (learnCnt sl 9 s))

/-- A freeze whose hold has passed is lifted (R151). -/
def unfreeze (s : State) (die e : Nat) : Nat :=
  if l2Frozen e && decide (cfg1 s (.fwdFlapCfg die) 14 0 ≤ msSinceStamp s e) then setFld (setFld e 86 86 0) 95 92 0 else e

/-- Decide a learn request (R150, R151). -/
def learnDecide (sl fid mac tgt : Nat) (s : State) : State :=
  let die := dieOfSlice sl
  match l2Find s die fid mac with
  | none =>
    let (ok, s) := learnInsert sl fid mac tgt s
    if ok then learnCnt sl 4 s else s
  | some i =>
    let e0 := l2Get s die i
    let e := unfreeze s die e0
    if l2Pinned e then (if l2Dest e ≠ tgt then learnCnt sl 8 s else s)
    else
      let s := if e = e0 then s else ownerPut sl i e s
      if l2Dest e = tgt then
        (if l2Hit e then s else broadcast sl (.put i (setFld e 87 87 1)) (tPut die 0x0201 i (setFld e 87 87 1) s))
      else if l2Frozen e then learnCnt sl 7 s
      else
        let e := if cfg1 s (.fwdLearnCfg die) 14 0 ≤ msSinceStamp s e then setFld (setFld e 111 96 (msStamp s)) 95 92 0 else e
        if cfg s (.fwdLearnCfg die) 19 16 < l2Moves e + 1 then
          let (p0, p1) := keyParams fid mac
          let s := ownerPut sl i (setFld (setFld e 86 86 1) 111 96 (msStamp s)) (learnCnt sl 6 s)
          raise (fwdSrc die 0) evMacFlap p0 p1 (l2Dest e) tgt s
        else ownerPut sl i (setFld (setFld e 83 64 tgt) 95 92 (l2Moves e + 1)) (learnCnt sl 5 s)

/-- Take a hit notice: it sets hit, or reinstates an entry its owner has deleted (R153). -/
def hitDecide (sl fid mac dest : Nat) (s : State) : State :=
  let die := dieOfSlice sl
  match l2Find s die fid mac with
  | some i => tPut die 0x0201 i (setFld (l2Get s die i) 87 87 1) s
  | none =>
    let (ok, s) := learnInsert sl fid mac dest s
    if ok then learnCnt sl 12 s else s

/-- A delete meets a die's copy: with hit set the copy keeps the entry and sends a hit notice (R153). -/
def deleteAt (die slot fid mac : Nat) (s : State) : State :=
  let e := l2Get s die slot
  if l2Holds s die slot fid mac && l2Hit e then sendLearn (l2Owner s fid mac) (.hit fid mac (l2Dest e)) s
  else applyL2 die (.delete slot fid mac) s

/-- Apply every decision on its way, so that a change comes after the decisions taken before it (R168): a delete that meets a
hit sends its notice (R153). -/
def flushL2 (s : State) : State :=
  each (dies s.part) (fun d t =>
    let q := mget [] t.fwd.bcast d
    let one (m : L2Msg) (u : State) : State := match m with
      | .delete slot fid mac => deleteAt d slot fid mac u
      | m => applyL2 d m u
    each q one (modFwd (fun f => { f with bcast := mset [] f.bcast d [] }) t)) s

/-- A learn message is about a key. -/
def learnOf (fid mac : Nat) (m : LearnMsg) : Bool := match m with
  | .req f a _ => decide (f = fid) && decide (a = mac)
  | .hit f a _ => decide (f = fid) && decide (a = mac)

/-- The owner decides one learn message. -/
def learnTake (sl : Nat) (m : LearnMsg) (s : State) : State := match m with
  | .req fid mac tgt => learnDecide sl fid mac tgt s
  | .hit fid mac dest => hitDecide sl fid mac dest s

/-- The owner decides the messages about a key that arrived before a driver's write or a visit of that key (R146, R152,
R168). -/
def ownerSettles (sl fid mac : Nat) (s : State) : State :=
  let q := mget [] s.fwd.learnQ sl
  each (q.filter (learnOf fid mac)) (learnTake sl)
    (modFwd (fun f => { f with learnQ := mset [] f.learnQ sl (q.filter fun m => !learnOf fid mac m) }) s)

end Sys2Proof.Machine
end

