-- ==== Sys2Proof/Machine/Objects.lean ====
section
/-! DEFINITION. Writing and reading single entries of the objects: two-copy objects and their banks (R98, R99), match
entries (R111–R115), the dies' SRAM objects (R319, R348), and the table-memory objects by index or by key (R136–R139,
R154, R155, R206). -/

namespace Sys2Proof.Machine

/-! ### Match entries -/

/-- The width in units of a bank's entries (R132). -/
def bankWidth (s : State) (p b : Nat) : Nat := 2 ^ Nat.min 2 (cfg s (.clsBankCfg p) (2 * b + 1) (2 * b))

/-- The host size of an entry of w units (R112). -/
def matchSize (w : Nat) : Nat := if w = 1 then 64 else if w = 2 then 128 else 192

/-- The key of a unit of a pipeline. -/
def unitKey (p addr : Nat) : Nat := 16384 * p + addr

/-- The flags byte of an entry image of w units. -/
def matchFlags (w img : Nat) : Nat := fld img (8 * (40 * w + 2) + 7) (8 * (40 * w + 2))

/-- An entry image without its suspect flag and reserved bytes (R112). -/
def matchClean (w img : Nat) : Nat :=
  setFld (img % 2 ^ (8 * (40 * w + 24))) (8 * (40 * w + 2) + 7) (8 * (40 * w + 2)) (matchFlags w img % 8)

/-- The SRAM copy of an entry. -/
def sramEntry (s : State) (p addr : Nat) : Nat := mget 0 s.cls.sram (unitKey p addr)

/-- An entry is a member of a bank's epoch: member_a for A, member_b for B (R112). -/
def memberOf (w img : Nat) (bank : Bool) : Bool := bit (matchFlags w img) (if bank then 2 else 1)

/-- Queue an entry's unit writes at its bank (R115). -/
def queueUnits (a : Nat × Nat) (p addr img : Nat) (s : State) : State :=
  let b := addr / 2048
  let w := bankWidth s p b
  modCls (fun c => { c with
    updates := mset [] c.updates (8 * p + b)
      (mget [] c.updates (8 * p + b) ++ [⟨addr, w, matchClean w img, 0, some a⟩]) }) s

/-- Some unit write of a command is still due. -/
def unitsPending (s : State) (a : Nat × Nat) : Bool := s.cls.updates.any fun e => e.2.any fun u => u.cmd == some a

/-! ### Banks of the two-copy objects (R99, R128) -/

/-- The bank a command's op_flags select at a pipeline: false A (R99). -/
def flagBank (s : State) (p opFlags : Nat) : Bool :=
  match opFlags % 4 with
  | 1 => false
  | 2 => true
  | _ => !(epochOf s p).cur

/-- A bank drains at a pipeline: it is not current and packets carry its epoch (R126). -/
def drains (s : State) (p : Nat) (bank : Bool) : Bool :=
  let e := epochOf s p
  decide (bank ≠ e.cur) && e.draining

/-- The entry size of an object in host data, at an index of a unit. -/
def hostSize (s : State) (o unit idx : Nat) : Nat :=
  if o = 0x0105 then matchSize (bankWidth s unit (idx / 2048 % 8)) else entrySize o

/-! ### Where an object's writes go -/

/-- The pool slice of a NAT pool: pool p's entry in the list of present slices, or its partner while that serves the
half (R199). -/
def natSlice (s : State) (p : Nat) : Nat :=
  let l := slicesOf s.part
  let sl := nth 0 l (p % Nat.max 1 l.length)
  if (slice s sl).servesOwn then sl else partner sl

/-- The pool whose addresses hold an index (R198). -/
def poolOfAddr (s : State) (die idx : Nat) : Option Nat :=
  (upTo 64).find? fun p =>
    let e := tEntry s die 0x0504 p
    bit e 64 && decide (fld e 13 0 ≤ idx) && decide (idx < fld e 13 0 + fld e 30 15)

/-- The dies a driver's write of a table object reaches: every present die, but a port map only its pool slice's
(R139, R206). -/
def tableDies (s : State) (o idx : Nat) : List Nat :=
  let l := dies s.part
  if o = 0x0507 then
    match poolOfAddr s (nth 0 l 0) idx with
    | some p => [natSlice s p / 2]
    | none => l
  else l

/-- A slot that no longer holds an absent word: a write makes it whole (R431). -/
def clearAbsent (die off n : Nat) (s : State) : State :=
  modCmp die (off / 65536) (fun c => { c with
    absent := c.absent.filter fun w => !(decide (off % 65536 / 8 ≤ w) && decide (w < (off % 65536 + n + 7) / 8)) }) s

/-- A read of n bytes meets an uncorrectable word (R431). -/
def meetsAbsent (s : State) (die off n : Nat) : Bool :=
  (cmpOf s die (off / 65536)).absent.any fun w => decide (off % 65536 / 8 ≤ w) && decide (w < (off % 65536 + n + 7) / 8)

/-- A driver's write of a table slot on a list of dies. -/
def tableWriteOn (ds : List Nat) (o idx img : Nat) (s : State) : State :=
  each ds (fun d t => clearAbsent d (tOff o idx) (slotSize o) (drvPut d o idx img t)) s

/-- A block that compares have abandoned four times in a row holds further writes (R165). -/
def blockHeld (s : State) (o idx : Nat) : Bool :=
  (dies s.part).any fun d => decide (4 ≤ (cmpOf s d (tOff o idx / 65536)).abandoned)

/-! ### By key -/

/-- The slot of no entry (R138). -/
def noSlot : Nat := 0xFFFFFFFF

/-- The state once the decisions a driver's write of an L2 key comes after have been taken everywhere (R146, R168). -/
def l2Settled (fid mac : Nat) (s : State) : State := flushL2 (ownerSettles (l2Owner s fid mac) fid mac s)

/-- A driver's write of an L2 entry by key, decided by the key's owner (R138, R143, R154, R155). Answers the status and
the slot. -/
def l2WriteKey (img : Nat) (s : State) : (Nat × Nat) × State :=
  let fid := l2Fid img
  let mac := l2Mac img
  let d := l2Owner s fid mac / 2
  let s := l2Settled fid mac s
  match l2Find s d fid mac with
  | some slot =>
    ((0, slot), tableWriteOn (dies s.part) 0x0201 slot (if l2Used img then l2Driver img else 0) s)
  | none =>
    if !l2Used img then ((0, noSlot), s)
    else match l2FreeSlot s d fid mac with
      | some slot => ((0, slot), tableWriteOn (dies s.part) 0x0201 slot (l2Driver img) s)
      | none =>
        if l2Pinned img then ((5, noSlot), s)
        else match l2Victim s d fid mac with
          | (none, s) => ((5, noSlot), s)
          | (some slot, s) =>
            ((0, slot), tableWriteOn (dies s.part) 0x0201 slot (l2Driver img) (cntInc 0x0281 d 10 s))

/-- The prefix bits of a route image. -/
def routeBits (v6 : Bool) (img : Nat) : Nat :=
  if !v6 then fld img 31 0 else fld img 63 0 * 2 ^ 64 + (if bit img 96 then fld img 191 128 else 0)

/-- VRF of a route image. -/
def routeVrf (v6 : Bool) (img : Nat) : Nat := if v6 then fld img 75 64 else fld img 43 32

/-- The length of a prefix named by key, from its key fields alone: the longer half for a long IPv6 entry (log 22). -/
def prefixLen (v6 : Bool) (first img : Nat) : Nat :=
  let n := Config.prefixLength v6 first (routeVrf v6 img * 2 ^ 128 + routeBits v6 img)
  if !v6 then n % 33 else if bit img 96 then 65 + n % 64 else n % 65

/-- The target of a route image. -/
def routeTgt (v6 : Bool) (img : Nat) : Nat := if v6 then fld img 95 76 else fld img 63 44

/-- The object of a family's routes. -/
def routeObj (v6 : Bool) : Nat := if v6 then 0x0203 else 0x0202

/-- The slot index of an offset in table memory. -/
def routeSlot (v6 : Bool) (off : Nat) : Nat := (off - tableBase (routeObj v6)) / slotSize (routeObj v6)

/-- Put a route image at a slot on every die: one slot, or two for a long IPv6 entry (R158). -/
def routePut (v6 : Bool) (slot img : Nat) (long : Bool) (s : State) : State :=
  let ds := dies s.part
  if v6 then
    let s := tableWriteOn ds 0x0203 slot (img % 2 ^ 128) s
    if long then tableWriteOn ds 0x0203 (slot + 1) (img / 2 ^ 128 % 2 ^ 128) s else s
  else tableWriteOn ds 0x0202 slot (img % 2 ^ 64) s

/-- Step the filter counts of a prefix on every die (R159). -/
def filterAll (v6 : Bool) (vrf l pre : Nat) (up : Bool) (s : State) : State :=
  each (dies s.part) (fun d t => filterStep (filterKey t d v6 vrf l pre) up t) s

/-- A driver's write of a route by key (R138, R155, R157–R159). -/
def routeWriteKey (v6 : Bool) (first img : Nat) (s : State) : (Nat × Nat) × State :=
  let d := nth 0 (dies s.part) 0
  let l := prefixLen v6 first img
  let vrf := routeVrf v6 img
  let pre := prefixOf v6 (routeBits v6 img) l
  let long := v6 && decide (64 < l)
  match routeFind s d v6 vrf l pre with
  | some off =>
    let slot := routeSlot v6 off
    if tgtKind (routeTgt v6 img) = 0 then
      ((0, slot), filterAll v6 vrf l pre false (routePut v6 slot 0 long s))
    else ((0, slot), routePut v6 slot img long s)
  | none =>
    if tgtKind (routeTgt v6 img) = 0 then ((0, noSlot), s)
    else match lpmBucket s d v6 vrf l pre with
      | none => ((5, noSlot), s)
      | some b =>
        match routeRoom s d v6 long b with
        | none => ((5, noSlot), s)
        | some off =>
          let slot := routeSlot v6 off
          ((0, slot), filterAll v6 vrf l pre true (routePut v6 slot img long s))

/-- An object whose entries may be named by key. -/
def keyed (o : Nat) : Bool := o = 0x0201 || o = 0x0202 || o = 0x0203

/-- Write an entry by key. -/
def writeKey (o first img : Nat) (s : State) : (Nat × Nat) × State :=
  if o = 0x0201 then l2WriteKey img s else routeWriteKey (decide (o = 0x0203)) first img s

/-- The slot a write by key would change, once the decisions before it are taken: the key's own, or the one an insertion takes;
none when nothing is written. -/
def keySlot (o first img : Nat) (s : State) : Option Nat :=
  if o = 0x0201 then
    let fid := l2Fid img
    let mac := l2Mac img
    let d := l2Owner s fid mac / 2
    let s := l2Settled fid mac s
    match l2Find s d fid mac with
    | some i => some i
    | none =>
      if !l2Used img then none
      else match l2FreeSlot s d fid mac with
        | some i => some i
        | none => if l2Pinned img then none else (l2Victim s d fid mac).1
  else
    let v6 := decide (o = 0x0203)
    let d := nth 0 (dies s.part) 0
    let l := prefixLen v6 first img
    let vrf := routeVrf v6 img
    let pre := prefixOf v6 (routeBits v6 img) l
    match routeFind s d v6 vrf l pre with
    | some off => some (routeSlot v6 off)
    | none =>
      if tgtKind (routeTgt v6 img) = 0 then none
      else match lpmBucket s d v6 vrf l pre with
        | none => none
        | some b => (routeRoom s d v6 (v6 && decide (64 < l)) b).map (routeSlot v6)

/-! ### One entry -/

/-- What a write of one entry must wait for (R128, R165). -/
def writeWaits (s : State) (o opFlags : Nat) (units : List Nat) (byKey : Bool) (first idx img : Nat) : Option WaitFor :=
  match objKind o with
  | .banked => if units.any fun p => drains s p (flagBank s p opFlags) then some .bank else none
  | .matchEntry =>
    let hit := units.any fun p =>
      let w := bankWidth s p (idx / 2048 % 8)
      let old := !(epochOf s p).cur
      drains s p old && (memberOf w (sramEntry s p idx) old || memberOf w (matchClean w img) old)
    if hit then some .bank else none
  | .table =>
    let held := if byKey && keyed o then (keySlot o first img s).any (blockHeld s o) else blockHeld s o idx
    if held then some .compare else none
  | _ => none

/-- Reload the session counts of a mirror session on a die's pipelines (R318). -/
def loadSession (d i img : Nat) (s : State) : State :=
  each (upTo 4) (fun j t =>
    modBuf (fun b => { b with session := mset 0 b.session (256 * (4 * d + j) + i) (fld img 65 42 + 1) }) t) s

/-- Write one entry to the units that hold it. Answers the status and the slot (R138). -/
def writeEntry (a : Nat × Nat) (o opFlags : Nat) (units : List Nat) (byKey : Bool) (first idx img : Nat) (s : State) :
    (Nat × Nat) × State :=
  if !byKey && decide (entryCount o ≤ idx) then ((4, noSlot), s)
  else match objKind o with
    | .banked =>
      ((0, idx), each units (fun p t => if unitDown t 2 p then t
        else objPut o p (bankNo (flagBank t p opFlags)) idx (img % 2 ^ (8 * entrySize o)) t) s)
    | .matchEntry => ((0, idx), each units (fun p t => if unitDown t 2 p then t else queueUnits a p idx img t) s)
    | .dieSram =>
      let ds := if o < 0x0900 then dies s.part else units
      if o = 0x0902 then
        ((0, idx), each ds (fun d t => modEgs (fun e => { e with
          newShaper := mset none e.newShaper (4096 * d + idx) (some (img, false)) }) t) s)
      else
        let s := each ds (fun d t => objPut o d 0 idx (img % 2 ^ (8 * entrySize o)) t) s
        ((0, idx), if o = 0x0803 then each ds (fun d t => loadSession d idx img t) s else s)
    | .table =>
      if byKey && keyed o then writeKey o first img s
      else if keyed o then ((4, noSlot), s)
      else ((0, idx), tableWriteOn (tableDies s o idx) o idx img s)
    | .digest =>
      ((0, idx), each units (fun d t => modCmp d idx (fun c => { c with
        digest := img % 2 ^ 64, stale := false, told := false, dirty := false, cycles := 0 }) t) s)
    | _ => ((4, noSlot), s)

/-- The G3 form of a write to a two-copy object writes the current bank of each pipeline (R96). -/
def writeCurrent (o : Nat) (units : List Nat) (idx img : Nat) (s : State) : (Nat × Nat) × State :=
  if entryCount o ≤ idx then ((4, noSlot), s)
  else ((0, idx), each units (fun p t => if unitDown t 2 p then t
    else objPut o p (bankNo (epochOf t p).cur) idx (img % 2 ^ (8 * entrySize o)) t) s)

/-- A gate list in the layout of R339. -/
def gateImage (g : GateList) : List Byte := g.image

/-- Read one entry by index from a unit: its status and its image. -/
def readEntry (o opFlags unit idx : Nat) (s : State) : Nat × Nat :=
  if entryCount o ≤ idx then (0, 0)
  else match objKind o with
    | .banked => (0, objGet s o unit (bankNo (flagBank s unit opFlags)) idx)
    | .matchEntry =>
      let w := bankWidth s unit (idx / 2048 % 8)
      let e := sramEntry s unit idx
      let sus := mget false s.cls.suspect (unitKey unit idx)
      (0, if sus then e + 8 * 2 ^ (8 * (40 * w + 2)) else e)
    | .dieSram =>
      let new := if o = 0x0902 then mget none s.egs.newShaper (4096 * unit + idx) else none
      (0, match new with
        | some (img, _) => img
        | none => objGet s o unit 0 idx)
    | .table =>
      let off := tOff o idx
      if meetsAbsent s unit off (slotSize o) then (7, 0)
      else (if (cmpOf s unit (off / 65536)).suspect then 6 else 0, tEntry s unit o idx)
    | .digest => (0, (cmpOf s unit idx).digest)
    | _ => (4, 0)

/-- The slot of a key in a die's copy, with the bytes an entry takes (R138). -/
def findKey (s : State) (die o first img : Nat) : Option (Nat × Nat) :=
  if o = 0x0201 then (l2Find s die (l2Fid img) (l2Mac img)).map fun i => (i, 16)
  else
    let v6 := decide (o = 0x0203)
    let l := prefixLen v6 first img
    (routeFind s die v6 (routeVrf v6 img) l (prefixOf v6 (routeBits v6 img) l)).map fun off =>
      (routeSlot v6 off, if v6 then (if 64 < l then 32 else 16) else 8)

/-- The unit a read of an object takes its entries from: the one its target names. Of several, which is read is not
stated: a free value chooses (log 20). -/
def readUnit (s : State) (o kind unit : Nat) : Option Nat × State :=
  match targetUnits s kind unit (objUnitKind o) with
  | [] => (none, s)
  | [u] => (some u, s)
  | u :: r =>
    let (n, s) := useFree s
    (some (nth u (u :: r) (Config.freeValue n % (r.length + 1))), s)

/-- An object that Form T commands write and read as entries. -/
def tableObj (o : Nat) : Bool :=
  match objKind o with
  | .banked | .matchEntry | .dieSram | .table | .digest => true
  | _ => false

/-- The size of an entry in a run of host data: IPv6 images tell their own (R137). -/
def imageSize (s : State) (o unit idx : Nat) (bs : List Byte) : Nat :=
  if o = 0x0203 then (if bit (ofLe (bs.take 16)) 96 then 32 else 16) else hostSize s o unit idx

/-- Split a run of host data into entry images. n bounds them. -/
def splitImages (s : State) (o unit : Nat) : Nat → Nat → List Byte → List Nat
  | 0, _, _ => []
  | n + 1, idx, bs =>
    let k := imageSize s o unit idx bs
    ofLe (takeBytes bs 0 k) :: splitImages s o unit n (idx + 1) (bs.drop k)

/-- The distance between successive entries of an object: a match entry takes as many units as it is wide. -/
def idxStep (s : State) (o unit idx : Nat) : Nat := if o = 0x0105 then bankWidth s unit (idx / 2048 % 8) else 1

end Sys2Proof.Machine
end

