-- ==== Sys2Proof/Machine/TableCmd.lean ====
section
/-! DEFINITION. TABLE_WRITE, TABLE_READ and their bulk forms (R55, R56, R138), TABLE_SCAN (R167), DIGEST_SET (R165),
EPOCH_FLIP (R126–R128) and the LHX-7408 table commands (R95–R97). -/

namespace Sys2Proof.Machine

/-- What the end of a step of a long command answers (R444). -/
inductive StepOut where
  /-- the step has not ended yet -/
  | stay
  /-- the step ended and more follow: progress, result words, scratch, status kept for the end -/
  | more (progress res0 res1 : Nat) (acc : List Nat) (status : Nat)
  /-- the commit step ended: status, progress, result words -/
  | done (status progress res0 res1 : Nat)
deriving DecidableEq, Repr

/-- A count within its bounds (R56). -/
def clampCount (hi n : Nat) : Nat := Nat.max 1 (Nat.min hi n)

/-- The first index of a command, without the by-key bit. -/
def firstIdx (t : FormT) : Nat := t.first % 2 ^ 63

/-- A command names its entries by key (R138). -/
def byKey (t : FormT) : Bool := bit t.first 63 && keyed t.object

/-- The unit that sizes a command's entries: the first its target names. -/
def sizeUnit (units : List Nat) : Nat := nth 0 units 0

/-- Bytes of host data of n entries from an index: match entries by the widths of their banks, IPv6 routes as host_len
tells (R56, R137). -/
def dataLen (s : State) (t : FormT) (unit n : Nat) : Nat :=
  if t.object = 0x0203 ∧ t.hostLen ≠ 0 then t.hostLen else n * hostSize s t.object unit (firstIdx t)

/-- The indices of n entries from the first. -/
def idxList (s : State) (o unit : Nat) : Nat → Nat → List Nat
  | 0, _ => []
  | n + 1, i => i :: idxList s o unit n (i + idxStep s o unit i)

/-- Write entries one by one until one fails. Answers the status, how many were written, and the last slot. -/
def writeAll (one : Nat → Nat → State → (Nat × Nat) × State) : List (Nat × Nat) → Nat → Nat → State → (Nat × Nat × Nat) × State
  | [], n, slot, s => ((0, n, slot), s)
  | (idx, img) :: rest, n, slot, s =>
    let ((st, sl), s) := one idx img s
    if st = 0 then writeAll one rest (n + 1) sl s else ((st, n, if n = 0 then sl else slot), s)

/-- A write of match entries completes when its last unit write is made (R79, R115). -/
def afterWrite (a : Nat × Nat) (st n r0 : Nat) (s : State) : CmdOut × State :=
  if st = 0 && unitsPending s a then
    (.go .units, modInflight a (fun e => { e with progress := n, res0 := r0 }) s)
  else (.done st n r0 0, s)

/-- TABLE_WRITE (R56, R138, R139). -/
def runTableWrite (h : Hdr) (t : FormT) (a : Nat × Nat) (s : State) : CmdOut × State :=
  let units := targetUnits s h.kind h.unit (objUnitKind t.object)
  if !tableObj t.object || decide (units = []) then (.fail 4, s)
  else
    let u := sizeUnit units
    let n := clampCount 4 t.count
    let len := dataLen s t u n
    let (st, s) := if t.hostAddr = 0 then (0, s) else dataCheck a.1 t len false s
    if st ≠ 0 then (.fail st, s)
    else
      let key := byKey t
      let imgs := splitImages s t.object u n (firstIdx t) (formTBytes s t len)
      let jobs := (idxList s t.object u n (firstIdx t)).zip imgs
      match jobs.findSome? fun j => writeWaits s t.object t.opFlags units key t.first j.1 j.2 with
      | some w => (.wait w, s)
      | none =>
        let ((st, k, slot), s) := writeAll (writeEntry a t.object t.opFlags units key t.first) jobs 0 0 s
        afterWrite a st k (if key then slot else 0) s

/-- Read entries by index one by one until one cannot be read. Answers the status and the images. -/
def readAll (s : State) (o opFlags unit : Nat) : List Nat → Nat → List Nat → Nat × List Nat
  | [], st, acc => (st, acc)
  | i :: rest, st, acc =>
    let (r, e) := readEntry o opFlags unit i s
    if r = 7 ∨ r = 4 then (r, acc) else readAll s o opFlags unit rest (Nat.max st r) (acc ++ [e])

/-- The bytes of entries read by index. -/
def readBytes (s : State) (o unit first : Nat) (es : List Nat) : List Byte :=
  ((idxList s o unit es.length first).zip es).flatMap fun p => leBytes (hostSize s o unit p.1) p.2

/-- What a read by key of one image finds: its slot, its bytes and its status (R138, R166, R431). -/
def keyRead (s : State) (die o first size img : Nat) : Option (Nat × List Byte × Nat) :=
  match findKey s die o first img with
  | none => none
  | some (slot, n) =>
    let off := tOff o slot
    let st := if meetsAbsent s die off n then 7 else if (cmpOf s die (off / 65536)).suspect then 6 else 0
    some (slot, takeBytes (leBytes n (tRead s die off n)) 0 size, st)

/-- Read images by key from host memory and write each entry found over its image (R138). -/
def readByKey (die o first addr : Nat) (sizes : List Nat) (imgs : List Nat) (s : State) :
    CmdOut × State :=
  let res := (sizes.zip imgs).map fun p => (p.1, keyRead s die o first p.1 p.2)
  let upto := res.takeWhile fun r => match r.2 with | some (_, _, 7) => false | _ => true
  let bytes := upto.flatMap fun r => match r.2 with
    | some (_, b, _) => b
    | none => List.replicate r.1 0
  let s := hostWr addr bytes s
  let found := upto.filterMap fun r => r.2.map (·.1)
  let bits := pack (upto.map fun r => (1, if r.2.isSome then 1 else 0)) % 16
  let st := if upto.length < res.length then 7
    else if upto.any (fun r => r.2.isNone) then 4
    else if upto.any (fun r => match r.2 with | some (_, _, 6) => true | _ => false) then 6 else 0
  (.done st upto.length (nth noSlot found 0) bits, s)

/-- Read host data that a read by key works on, with both permissions (R138). -/
def keyCheck (check : Bool → State → Nat × State) (s : State) : Nat × State :=
  let (st, s) := check false s
  if st ≠ 0 then (st, s) else check true s

/-- TABLE_READ of a gate list: the running list in R339's layout (R348). -/
def readGate (port : Nat) (t : FormT) (a : Nat × Nat) (s : State) : CmdOut × State :=
  match (gates s port).running with
  | none => (.fail 4, s)
  | some g =>
    let (st, s) := dataCheck a.1 t (ceilDiv g.image.length 64 * 64) true s
    if st ≠ 0 then (.fail st, s) else (.done 0 g.entries.length g.entries.length 0, hostWr t.hostAddr g.image s)

/-- TABLE_READ (R56, R138, R166, R348). -/
def runTableRead (h : Hdr) (t : FormT) (a : Nat × Nat) (s : State) : CmdOut × State :=
  if t.object = 0x0903 then
    (if h.kind = 5 ∧ portLanes s h.unit ≠ 0 then readGate h.unit t a s else (.fail 4, s))
  else if !tableObj t.object then (.fail 4, s)
  else match readUnit s t.object h.kind h.unit with
    | (none, s) => (.fail 4, s)
    | (some u, s) =>
      let n := clampCount 4 t.count
      let len := dataLen s t u n
      if byKey t then
        let (st, s) := keyCheck (dataCheck a.1 t len) s
        if st ≠ 0 then (.fail st, s)
        else
          let bs := rdBytes s.host t.hostAddr len
          let imgs := splitImages s t.object u n 0 bs
          let sizes := imgs.map fun i => if t.object = 0x0203 ∧ bit i 96 then 32 else entrySize t.object
          readByKey u t.object t.first t.hostAddr sizes imgs s
      else
        let (st, s) := dataCheck a.1 t len true s
        if st ≠ 0 then (.fail st, s)
        else
          let (st, es) := readAll s t.object t.opFlags u (idxList s t.object u n (firstIdx t)) 0 []
          let s := hostWr t.hostAddr (readBytes s t.object u (firstIdx t) es) s
          (.done st es.length es.length 0, s)

/-! ### Long forms (R444) -/

/-- TABLE_BULK_WRITE begins. -/
def runBulkWrite (h : Hdr) (t : FormT) (a : Nat × Nat) (s : State) : CmdOut × State :=
  let units := targetUnits s h.kind h.unit (objUnitKind t.object)
  if !tableObj t.object || decide (units = []) then (.fail 4, s)
  else
    let n := clampCount (2 ^ 24) t.count
    let (st, s) := dataCheck a.1 t (dataLen s t (sizeUnit units) n) false s
    if st ≠ 0 then (.fail st, s)
    else (.go .nothing, modInflight a (fun e => { e with acc := [0, 0, firstIdx t] }) s)

/-- A step of TABLE_BULK_WRITE: one entry. acc: the offset of its data, whether its unit writes were queued, its index. -/
def stepBulkWrite (h : Hdr) (t : FormT) (a : Nat × Nat) (e : InFlight) (s : State) : StepOut × State :=
  let units := targetUnits s h.kind h.unit (objUnitKind t.object)
  let u := sizeUnit units
  let n := clampCount (2 ^ 24) t.count
  let off := nth 0 e.acc 0
  let queued := nth 0 e.acc 1
  let idx := nth 0 e.acc 2
  let key := byKey t
  let k := imageSize s t.object u idx (rdBytes s.host (t.hostAddr + off) 32)
  let img := rdN s.host (t.hostAddr + off) k
  let next (st slot : Nat) (s : State) : StepOut × State :=
    if st ≠ 0 then (.done st e.progress slot 0, s)
    else if e.progress + 1 = n then (.done 0 n slot 0, s)
    else (.more (e.progress + 1) slot 0 [off + k, 0, idx + idxStep s t.object u idx] 0, s)
  if queued = 1 then (if unitsPending s a then (.stay, s) else next 0 0 s)
  else match writeWaits s t.object t.opFlags units key t.first idx img with
    | some _ => (.stay, s)
    | none =>
      let ((st, slot), s) := writeEntry a t.object t.opFlags units key t.first idx img s
      if st = 0 && unitsPending s a then (.stay, modInflight a (fun e => { e with acc := [off, 1, idx] }) s)
      else next st (if key then slot else 0) s

/-- TABLE_BULK_READ begins. acc: the unit read, the offset of the next entry's data, its index. -/
def runBulkRead (h : Hdr) (t : FormT) (a : Nat × Nat) (s : State) : CmdOut × State :=
  if !tableObj t.object then (.fail 4, s)
  else match readUnit s t.object h.kind h.unit with
    | (none, s) => (.fail 4, s)
    | (some u, s) =>
      let len := dataLen s t u (clampCount (2 ^ 24) t.count)
      let (st, s) := if byKey t then keyCheck (dataCheck a.1 t len) s else dataCheck a.1 t len true s
      if st ≠ 0 then (.fail st, s)
      else (.go .nothing, modInflight a (fun e => { e with acc := [u, 0, firstIdx t], res0 := if byKey t then noSlot else 0 }) s)

/-- A step of TABLE_BULK_READ: one entry written to the host. -/
def stepBulkRead (t : FormT) (e : InFlight) (s : State) : StepOut × State :=
  let u := nth 0 e.acc 0
  let off := nth 0 e.acc 1
  let idx := nth 0 e.acc 2
  let n := clampCount (2 ^ 24) t.count
  let at_ := t.hostAddr + off
  let next (st r0 r1 k i : Nat) (s : State) : StepOut × State :=
    let st := if st = 0 || (decide (e.status = 4) && decide (st = 6)) then e.status else st
    if st = 7 then (.done 7 e.progress r0 r1, s)
    else if e.progress + 1 = n then (.done st n r0 r1, s)
    else (.more (e.progress + 1) r0 r1 [u, off + k, i] st, s)
  if byKey t then
    let k := imageSize s t.object u 0 (rdBytes s.host at_ 32)
    match keyRead s u t.object t.first k (rdN s.host at_ k) with
    | some (_, _, 7) => next 7 e.res0 e.res1 k idx s
    | some (slot, bs, st) =>
      let found := if e.progress < 4 then setFld e.res1 e.progress e.progress 1 else e.res1
      next st (if e.res0 = noSlot then slot else e.res0) found k idx (hostWr at_ bs s)
    | none => next 4 e.res0 e.res1 k idx (hostWr at_ (List.replicate k 0) s)
  else
    let k := hostSize s t.object u idx
    let (st, img) := readEntry t.object t.opFlags u idx s
    if st = 7 then next 7 e.res0 0 k idx s
    else next st (e.progress + 1) 0 k (idx + idxStep s t.object u idx) (hostWr at_ (leBytes k img) s)

/-- TABLE_SCAN's filter (R167). -/
def scanPass (t : FormT) (e : Nat) : Bool :=
  let f := fld t.inline 15 0
  let d := fld t.inline 47 16
  let m := fld t.inline 55 48
  l2Used e && (!bit f 15 || decide (l2Fid e = fld f 13 0)) && (!bit d 31 || decide (l2Dest e = fld d 19 0))
    && (!bit m 0 || bit e 85) && (!bit m 1 || l2Pinned e) && (!bit m 2 || l2Frozen e)

/-- TABLE_SCAN begins (R167): of L2_ENTRY, on a die. -/
def runTableScan (h : Hdr) (t : FormT) (a : Nat × Nat) (s : State) : CmdOut × State :=
  if t.object ≠ 0x0201 then (.fail 4, s)
  else match readUnit s t.object h.kind h.unit with
    | (none, s) => (.fail 4, s)
    | (some u, s) =>
      let (st, s) := dataCheck a.1 t (16 * clampCount (2 ^ 24) t.count) true s
      if st ≠ 0 then (.fail st, s) else (.go .nothing, modInflight a (fun e => { e with acc := [u] }) s)

/-- A step of TABLE_SCAN: one slot examined. -/
def stepTableScan (t : FormT) (e : InFlight) (s : State) : StepOut × State :=
  let u := nth 0 e.acc 0
  let n := clampCount (2 ^ 24) t.count
  let idx := firstIdx t + e.progress
  let (r, img) := readEntry 0x0201 0 u idx s
  if r = 7 then (.done 7 e.progress e.res0 0, s)
  else
    let pass := scanPass t img
    let s := if pass then hostWr (t.hostAddr + 16 * e.res0) (leBytes 16 img) s else s
    let k := if pass then e.res0 + 1 else e.res0
    let st := if pass && decide (r = 6) then 6 else e.status
    if e.progress + 1 = n then (.done st n k 0, s) else (.more (e.progress + 1) k 0 e.acc st, s)

/-! ### DIGEST_SET and EPOCH_FLIP -/

/-- DIGEST_SET loads digests and clears stale marks (R165). -/
def runDigestSet (h : Hdr) (t : FormT) (a : Nat × Nat) (s : State) : CmdOut × State :=
  let units := targetUnits s h.kind h.unit 1
  if t.object ≠ 0x0290 ∨ units = [] then (.fail 4, s)
  else
    let n := clampCount 4 t.count
    let (st, s) := if t.hostAddr = 0 then (0, s) else dataCheck a.1 t (8 * n) false s
    if st ≠ 0 then (.fail st, s)
    else
      let bs := formTBytes s t (8 * n)
      let jobs := (upTo n).map fun i => (firstIdx t + i, entryAt bs 8 i)
      let ((st, k, _), s) := writeAll (writeEntry a 0x0290 0 units false t.first) jobs 0 0 s
      (.done st k 0 0, s)

/-- A bank is reclaimed: EPOCH_DRAINED (R126). -/
def reclaim (p : Nat) (bank : Bool) (s : State) : State :=
  raise (clsSrc p 2) evEpochDrained p (b2n bank) 0 0 (modEpoch p (fun e => { e with draining := false }) s)

/-- Packets in flight with a bank's epoch. -/
def inBank (e : Epoch) (bank : Bool) : Nat := if bank then e.inB else e.inA

/-- A packet takes the current epoch (R125, R126). -/
def epochEnter (p : Nat) (s : State) : Bool × State :=
  let c := (epochOf s p).cur
  (c, modEpoch p (fun e => if c then { e with inB := e.inB + 1 } else { e with inA := e.inA + 1 }) s)

/-- A packet leaves its bank's count; a draining bank that reaches zero is reclaimed (R126). -/
def epochLeave (p : Nat) (bank : Bool) (s : State) : State :=
  let s := modEpoch p (fun e => if bank then { e with inB := e.inB - 1 } else { e with inA := e.inA - 1 }) s
  let e := epochOf s p
  if e.draining && decide (bank ≠ e.cur) && decide (inBank e bank = 0) then reclaim p bank s else s

/-- One pipeline switches to its other bank (R126, R127). -/
def flipPipe (p : Nat) (s : State) : State :=
  let e := epochOf s p
  let old := e.cur
  let s := modEpoch p (fun e => { e with cur := !old, draining := decide (inBank e old ≠ 0) }) s
  if inBank e old = 0 then reclaim p old s else s

/-- EPOCH_FLIP (R127), which waits while a targeted bank drains (R128). -/
def runEpochFlip (h : Hdr) (_ : FormT) (_ : Nat × Nat) (s : State) : CmdOut × State :=
  if 3 ≤ h.kind then (.fail 4, s)
  else
    let ps := (targetUnits s h.kind h.unit 2).filter fun p => !unitDown s 2 p
    if ps.any fun p => (epochOf s p).draining then (.wait .bank, s)
    else (.done 0 1 0 0, each ps flipPipe s)

/-! ### LHX-7408 table commands (R95–R97) -/

/-- The size of an entry in a G3 command's host data (R96). -/
def g3Size (s : State) (o unit idx : Nat) : Nat := if o = 0x0203 then 32 else hostSize s o unit idx

/-- The images of a G3 command's host data. -/
def g3Images (s : State) (o unit : Nat) : Nat → Nat → List Byte → List Nat
  | 0, _, _ => []
  | n + 1, idx, bs =>
    let k := g3Size s o unit idx
    ofLe (takeBytes bs 0 k) :: g3Images s o unit n (idx + idxStep s o unit idx) (bs.drop k)

/-- Bytes of n entries. -/
def g3Len (s : State) (o unit first n : Nat) : Nat := sumL ((idxList s o unit n first).map (g3Size s o unit))

/-- G3_TABLE_WRITE. -/
def runG3TableWrite (h : G3Hdr) (b : G3Body) (a : Nat × Nat) (s : State) : CmdOut × State :=
  match g3Object h.table with
  | none => (.fail 4, s)
  | some o =>
    let units := targetUnits s 0 0 (objUnitKind o)
    let u := sizeUnit units
    let n := clampCount 64 b.count
    let (st, s) := g3Check a.1 b.hostAddr (g3Len s o u b.first n) false s
    if st ≠ 0 then (.fail st, s)
    else
      let imgs := g3Images s o u n b.first (rdBytes s.host b.hostAddr (g3Len s o u b.first n))
      let jobs := (idxList s o u n b.first).zip imgs
      let cur := o = 0x0106 || o = 0x0107
      match jobs.findSome? fun j => if cur then none else writeWaits s o 0 units (keyed o) 0 j.1 j.2 with
      | some w => (.wait w, s)
      | none =>
        let one := if cur then writeCurrent o units else writeEntry a o 0 units (keyed o) 0
        let ((st, k, slot), s) := writeAll one jobs 0 0 s
        afterWrite a st k (if keyed o then slot else 0) s

/-- The bank flags by which a G3 read takes the current bank of a pipeline (R96, R99). -/
def currentFlags (s : State) (o unit : Nat) : Nat :=
  if objKind o = .banked then (if (epochOf s unit).cur then 2 else 1) else 0

/-- G3_TABLE_READ. -/
def runG3TableRead (h : G3Hdr) (b : G3Body) (a : Nat × Nat) (s : State) : CmdOut × State :=
  match g3Object h.table with
  | none => (.fail 4, s)
  | some o =>
    match readUnit s o 0 0 with
    | (none, s) => (.fail 4, s)
    | (some u, s) =>
      let n := clampCount 64 b.count
      let len := g3Len s o u b.first n
      if keyed o then
        let (st, s) := keyCheck (g3Check a.1 b.hostAddr len) s
        if st ≠ 0 then (.fail st, s)
        else
          let imgs := g3Images s o u n 0 (rdBytes s.host b.hostAddr len)
          readByKey u o 0 b.hostAddr (imgs.map fun _ => g3Size s o u 0) imgs s
      else
        let (st, s) := g3Check a.1 b.hostAddr len true s
        if st ≠ 0 then (.fail st, s)
        else
          let (st, es) := readAll s o (currentFlags s o u) u (idxList s o u n b.first) 0 []
          (.done st es.length es.length 0, hostWr b.hostAddr (readBytes s o u b.first es) s)

/-- TABLE_WRITE. -/
def execTableWrite (h : Hdr) (t : FormT) (s : State) : Out := .next (command (.tableWrite h t) (runTableWrite h t) s)
/-- TABLE_READ. -/
def execTableRead (h : Hdr) (t : FormT) (s : State) : Out := .next (command (.tableRead h t) (runTableRead h t) s)
/-- TABLE_BULK_WRITE. -/
def execTableBulkWrite (h : Hdr) (t : FormT) (s : State) : Out :=
  .next (command (.tableBulkWrite h t) (runBulkWrite h t) s)
/-- TABLE_BULK_READ. -/
def execTableBulkRead (h : Hdr) (t : FormT) (s : State) : Out :=
  .next (command (.tableBulkRead h t) (runBulkRead h t) s)
/-- TABLE_SCAN. -/
def execTableScan (h : Hdr) (t : FormT) (s : State) : Out := .next (command (.tableScan h t) (runTableScan h t) s)
/-- DIGEST_SET. -/
def execDigestSet (h : Hdr) (t : FormT) (s : State) : Out := .next (command (.digestSet h t) (runDigestSet h t) s)
/-- EPOCH_FLIP. -/
def execEpochFlip (h : Hdr) (t : FormT) (s : State) : Out := .next (command (.epochFlip h t) (runEpochFlip h t) s)
/-- G3_TABLE_WRITE. -/
def execG3TableWrite (h : G3Hdr) (b : G3Body) (s : State) : Out :=
  .next (command (.g3TableWrite h b) (runG3TableWrite h b) s)
/-- G3_TABLE_READ. -/
def execG3TableRead (h : G3Hdr) (b : G3Body) (s : State) : Out :=
  .next (command (.g3TableRead h b) (runG3TableRead h b) s)

end Sys2Proof.Machine
end

