-- ==== Sys2Proof/Machine/MatchBanks.lean ====
section
/-! DEFINITION. The match banks' unit writes (R115) and scrub (R116), and the shadow compare of table memory
(R164–R166). -/

namespace Sys2Proof.Machine

/-- The searched copy of an entry. -/
def tcamEntry (s : State) (p addr : Nat) : Nat := mget 0 s.cls.tcam (unitKey p addr)

/-- Write the searched copy. -/
def putTcam (p addr img : Nat) (s : State) : State :=
  modCls (fun c => { c with tcam := mset 0 c.tcam (unitKey p addr) img }) s

/-- Mark or unmark an entry suspect (R114, R116). -/
def markSuspect (p addr : Nat) (b : Bool) (s : State) : State :=
  modCls (fun c => { c with suspect := mset false c.suspect (unitKey p addr) b }) s

/-- Note or clear a failed read-back of an entry (R116). -/
def markFailed (p addr : Nat) (b : Bool) (s : State) : State :=
  modCls (fun c => { c with failed := mset false c.failed (unitKey p addr) b }) s

/-- An entry image with valid clear. -/
def clearValid (w img : Nat) : Nat := setFld img (8 * (40 * w + 2)) (8 * (40 * w + 2)) 0

/-- The pending updates of a bank. -/
def bankUpdates (s : State) (p b : Nat) : List UnitUpd := mget [] s.cls.updates (8 * p + b)

/-- Change them. -/
def setUpdates (p b : Nat) (l : List UnitUpd) (s : State) : State :=
  modCls (fun c => { c with updates := mset [] c.updates (8 * p + b) l }) s

/-- A command that waits for unit writes completes once none of its own is due (R79). -/
def unitsDone (c : Option (Nat × Nat)) (s : State) : State :=
  match c with
  | none => s
  | some a =>
    match inflight s a with
    | none => s
    | some e => if e.wait = .units && !unitsPending s a then finish a 0 e.progress e.res0 0 s else s

/-- MATCH_BANK_UNIT_WRITE: one unit write of the entry at the head of a bank's updates, in a reserved slot or, after 32
slots, in the next search slot with a bubble (R115). -/
def unitWrite (p b : Nat) (reserved : Bool) (s : State) : State :=
  match bankUpdates s p b with
  | [] => s
  | u :: rest =>
    let s := if reserved then s else cntInc 0x0182 p 0 s
    let total := if u.width = 1 then 1 else u.width + 1
    if u.done + 1 = total then
      let s := modCls (fun c => { c with sram := mset 0 c.sram (unitKey p u.addr) u.image }) s
      let s := markFailed p u.addr false <| markSuspect p u.addr false (putTcam p u.addr u.image s)
      unitsDone u.cmd (setUpdates p b rest s)
    else
      let s := if u.done = 0 then putTcam p u.addr (clearValid u.width (tcamEntry s p u.addr)) s else s
      setUpdates p b ({ u with done := u.done + 1 } :: rest) s

/-- MATCH_BANK_SCRUB: the next unit of a bank is compared with its SRAM copy, rewritten on a difference and read back. An entry
whose read-back disagreed stays suspect until the driver writes it (R116). -/
def bankScrub (p b : Nat) (agrees : Bool) (s : State) : State :=
  let k := 8 * p + b
  let u := mget 0 s.cls.scrub k
  let w := bankWidth s p b
  let addr := 2048 * b + (u - u % w)
  let s := modCls (fun c => { c with scrub := mset 0 c.scrub k ((u + 1) % 2048) }) s
  let moving := (bankUpdates s p b).any fun x => decide (x.addr = addr) && decide (0 < x.done)
  if tcamEntry s p addr = sramEntry s p addr ∨ moving then s
  else if agrees then
    let s := putTcam p addr (sramEntry s p addr) s
    if mget false s.cls.failed (unitKey p addr) then s else markSuspect p addr false s
  else raise (clsSrc p 1) evMbUnitFault 0 0 0 0 (markFailed p addr true (markSuspect p addr true s))

/-- The device address of a block with the die field cleared, which the compare folds in (R397, R438). -/
def blockPrefix (b : Nat) : Nat := 2 ^ 60 + b * 65536

/-- A block's compare value: its covered image under the die's polynomial, with address folding (R164, R438). -/
def compareValue (s : State) (d b : Nat) : Nat :=
  let poly := cfg s (.fwdCmpCfg d) 25 24
  crcOf poly (foldBytes (blockPrefix b) ++ coveredBlock s d b)

/-- SHADOW_COMPARE: once per cycle_s, a block is skipped while stale, its compare is abandoned when a driver wrote it, to be
repeated within the cycle, or its value is compared with its digest (R164–R166). -/
def shadowCompare (d b : Nat) (s : State) : State :=
  let c := cmpOf s d b
  if !cfgBit s (.fwdCmpCfg d) 31 || decide (s.now < c.at_ + cfg1 s (.fwdCmpCfg d) 11 0 * 10 ^ 12) then s
  else if c.stale then
    let s := modCmp d b (fun c => { c with cycles := c.cycles + 1, at_ := s.now }) s
    if 1 ≤ c.cycles ∧ !c.told then
      raise (fwdSrc d 2) evTblDigestStale d b 0 0 (modCmp d b (fun c => { c with told := true }) s)
    else s
  else if c.dirty && decide (c.abandoned < 4) then
    modCmp d b (fun c => { c with dirty := false, abandoned := c.abandoned + 1 }) s
  else
    let v := compareValue s d b
    let s := modCmp d b (fun x => { x with suspect := decide (v ≠ c.digest), abandoned := 0, dirty := false, at_ := s.now }) s
    if v ≠ c.digest then raise (fwdSrc d 3) evTblDigestMismatch d b v c.digest s else s

/-- MATCH_BANK_UNIT_WRITE. -/
def execMatchBankUnitWrite (pipe bank : Nat) (reserved : Bool) (s : State) : Out :=
  .next (if hasPipe s.part pipe ∧ bank < 8 then unitWrite pipe bank reserved s else s)
/-- MATCH_BANK_SCRUB. -/
def execMatchBankScrub (pipe bank : Nat) (agrees : Bool) (s : State) : Out :=
  .next (if hasPipe s.part pipe ∧ bank < 8 then bankScrub pipe bank agrees s else s)
/-- SHADOW_COMPARE. -/
def execShadowCompare (die block : Nat) (s : State) : Out :=
  .next (if hasDie s.part die ∧ block < 1024 then shadowCompare die block s else s)

end Sys2Proof.Machine
end

