-- ==== Sys2Proof/Machine/Tick.lean ====
section
/-! DEFINITION. The passing of time: what one TIME cycle does (R354), which is a step's effect when no command waits. -/

namespace Sys2Proof.Machine

/-- A TIME cycle of 1 ns in picoseconds. -/
def cyclePs : Nat := 1000

/-- Move a time of the counter by an amount in units of 2^-44 ns, never below zero. -/
def addFrac (sec ns frac : Nat) (d : Int) : Nat × Nat × Nat :=
  let x := ((Int.ofNat ((sec * 10 ^ 9 + ns) * 2 ^ 44 + frac)) + d).toNat
  (x / 2 ^ 44 / 10 ^ 9 % 2 ^ 64, x / 2 ^ 44 % 10 ^ 9, x % 2 ^ 44)

/-- One TIME cycle: the counter advances by (1 + r × 2^-44) ns (R354). -/
def countOn (t : Tim) : Tim :=
  let (a, b, c) := addFrac t.sec t.ns t.frac ((2 ^ 44 : Int) + t.rate)
  { t with sec := a, ns := b, frac := c }

/-- What a step does when no command waits: one TIME cycle passes (log 1). -/
def tick (s : State) : State := { s with now := s.now + cyclePs, tim := countOn s.tim }

end Sys2Proof.Machine
end

