-- ==== Sys2Proof/Machine/Egress.lean ====
section
/-! DEFINITION. Egress: eligibility (R224, R29), queues and admission (R299, R325), the scheduler (R327–R331), shapers
(R333–R338), gate lists (R339–R343), transmission (R328, R344), and received pause with its watchdog (R301–R303). -/

namespace Sys2Proof.Machine

/-! ### Stamps -/

/-- A stamp moved by an amount in units of 2^-16 ns. -/
def moveStamp (t : Stamp) (d : Int) : Stamp := fxStamp (Int.ofNat (stampFx t) + d).toNat

/-- The receive stamp of a frame whose first bit arrives now (R366, R367). -/
def rxStamp (s : State) (port : Nat) : Stamp :=
  moveStamp (stampNow s) (-(toSigned 12 (cfg s (.timPortCfg port) 11 0) * 1024))

/-- The transmit stamp of a frame that starts now. -/
def txStamp (s : State) (port : Nat) : Stamp :=
  moveStamp (stampNow s) (toSigned 12 (cfg s (.timPortCfg port) 23 12) * 1024)

/-- A port's stamp compensation is ready (R367). -/
def compReady (s : State) (port : Nat) : Bool := (mget (false, 0, 0) s.tim.comp port).1

/-! ### Where a frame waits -/

/-- The ports whose queues or launch list hold a frame. -/
def portsHolding (s : State) (k : Nat) : List Nat :=
  let a := (s.egs.queues.filter (fun (e : Nat × List QEnt) => e.2.any (fun x => x.pkt = k))).map (fun e => e.1 / 16)
  let b := (s.egs.launch.filter (fun (e : Nat × List QEnt) => e.2.any (fun x => x.pkt = k))).map (fun e => e.1)
  (a ++ b).eraseDups

/-- The virtual output queues that hold a frame: source, destination and entry. -/
def voqsOf (s : State) (k : Nat) : List (Nat × Nat × VoqE) :=
  s.fab.voq.flatMap fun v => (v.2.filter fun e => e.pkt = k).map fun e => (v.1 / 256, v.1 / 16 % 16, e)

/-- The cells of a frame that their transmitters keep. -/
def unackedOf (s : State) (k : Nat) : List LinkCell :=
  (s.fab.links.flatMap fun e => e.2.fwd.unacked ++ e.2.bwd.unacked).filter fun c => c.ent.pkt = k

/-- The link cells of a frame, at transmitters and in resequencers. -/
def linkCellsOf (s : State) (k : Nat) : List LinkCell :=
  unackedOf s k ++ (s.fab.reseq.flatMap fun e => e.2.held).filter fun c => c.ent.pkt = k

/-- A frame is being sent on a port of a pipeline. -/
def sendingAt (s : State) (k p : Nat) : Bool :=
  s.egs.sending.any fun e => decide (pipeOfLane e.1 = p) && match e.2 with
    | some d => decide (d.ent.pkt = k)
    | none => false

/-- The replication stage of an egress pipeline still has a copy of a frame, or one is on its way to it. -/
def stageBusy (s : State) (k p : Nat) : Bool :=
  ((portsHolding s k).any fun n => pipeOfLane n = p) || sendingAt s k p
    || ((voqsOf s k).any fun v => v.2.1 = p) || ((linkCellsOf s k).any fun c => c.dst = p)

/-! ### Counts that wait for confirmation (R227, R242) -/

/-- A count about a frame: object, unit, index and amount. It is charged at once when the frame's effects are taken, and
waits with the frame until then. -/
def owe (k : Nat) (c : Nat × Nat × Nat × Nat) (s : State) : State :=
  match pktOf s k with
  | some p => if p.settled then cntAdd c.1 c.2.1 c.2.2.1 c.2.2.2 s else modPkt k (fun x => { x with owed := x.owed ++ [c] }) s
  | none => cntAdd c.1 c.2.1 c.2.2.1 c.2.2.2 s

/-- Charge what a frame owes. -/
def payOwed (k : Nat) (s : State) : State :=
  match pktOf s k with
  | some p =>
    if p.owed = [] then s
    else each p.owed (fun c t => cntAdd c.1 c.2.1 c.2.2.1 c.2.2.2 t) (modPkt k (fun x => { x with owed := [] }) s)
  | none => s

/-- Count a frame received on a port, with its bytes (R242); an FCS error counts as one only (R107, R231). -/
def countRx (port bytes : Nat) (bad : Bool) (s : State) : State :=
  let x := mget (0, 0, 0) s.egs.rx port
  let y := if bad then (x.1, x.2.1, (x.2.2 + 1) % 2 ^ 64) else ((x.1 + 1) % 2 ^ 64, (x.2.1 + bytes) % 2 ^ 64, x.2.2)
  modEgs (fun g => { g with rx := mset (0, 0, 0) g.rx port y }) s

/-- A frame that a port received is counted there, once, as it is confirmed or dropped. -/
def countArrival (k : Nat) (s : State) : State :=
  match pktOf s k with
  | some p => if p.settled || p.copy || p.inj.isSome then s else countRx p.port (p.bytes.length + 4) false s
  | none => s

/-! ### A frame's end -/

/-- Complete an INJECT_PORT (R74, R369): COMPLETED is not written under NOCOMP. DESIGN CHOICE (log 104): where no stamp
was asked for or the inject failed, the completion's stamp is zero with STAMP_VALID 0 (R61 allows the time as well). -/
def injectDone (k : Pkt) (status : Nat) (st : Stamp) (valid : Bool) (s : State) : State :=
  match k.inj with
  | none => s
  | some (g, i) =>
    if k.nocomp && decide (status = 0) then s
    else
      putCompletion (pairOf s g) (cplDesc 0xB0 status (if valid then 4 else 0) k.cookie g i 0 st 0) s

/-- A packet leaves its epoch's count, once (R126). -/
def leaveEpoch (k : Nat) (s : State) : State :=
  match pktOf s k with
  | some p => if p.inEpoch then epochLeave p.pipe p.epoch (modPkt k (fun x => { x with inEpoch := false }) s) else s
  | none => s

/-- The passes of a pipeline that used a record count its speculative packets (R186). -/
def syncSpec (p : Nat) (s : State) : State :=
  let ps := (pipe s p).passes
  modReplicas p (fun l => l.map fun r =>
    { r with spec := (ps.filter fun q => decide (q.st = .spec) && decide (q.record = some r.record)).length }) s

/-- Take every trace of a packet out of its pipeline's speculation table, waiting lists, and yo-yo path. -/
def forgetPasses (k : Nat) (s : State) : State :=
  match pktOf s k with
  | none => s
  | some p =>
    let s := modPipe p.pipe (fun x => { x with
      passes := x.passes.filter fun q => q.pkt ≠ k
      yoyo := x.yoyo.filter fun y => y.pkt ≠ k
      intake := x.intake.filter (· ≠ k) }) s
    let s := modWaitings p.pipe (fun l => l.map fun w => { w with
      who := w.who.filter fun e => e.1 ≠ k
      late := w.late.filter fun e => e.1 ≠ k }) s
    syncSpec p.pipe (dropWaiters k s)

/-- Count in SPEC_CNT of a pipeline (R247). -/
def specCnt (p i n : Nat) (s : State) : State := cntAdd 0x0582 p i n s

/-- The squashes, replays and chains of a packet are counted once, when it is confirmed or ends (R242, R247). -/
def countSquashes (k : Nat) (s : State) : State :=
  match pktOf s k with
  | none => s
  | some x =>
    let s := if x.squashed = 0 then s else specCnt x.pipe 6 x.squashed s
    let s := if x.replays = 0 then s else specCnt x.pipe 7 x.replays s
    modPkt k (fun y => { y with squashed := 0, replays := 0, chains := [] })
      (each x.chains (fun c t => if 1 ≤ c ∧ c ≤ 4 then specCnt x.pipe (c + 1) 1 t else t) s)

/-- A frame ends: its cells are freed, a completion still due is written, and the device forgets it (R290, R74). One that
ends unconfirmed is counted at its port as it ends (R242). -/
def endPkt (k : Nat) (s : State) : State :=
  match pktOf s k with
  | none => s
  | some p =>
    let s := freeFrame k (countSquashes k (countArrival k s))
    let s := leaveEpoch k s
    let s := forgetPasses k s
    let s := if p.stampReq then injectDone p 0 ⟨0, 0, 0⟩ false s else s
    let s := modBuf (fun b => { b with copies := b.copies.filter fun e => e.1 ≠ k }) s
    dropPkt k s

/-- The replication stages of a frame that have no copy left free the cells they hold (R315): each remote egress pipeline
those that came to it over a link, and the ingress pipeline its own, which pass on to the replicator of a pipeline on its
die that still has a copy of the frame. -/
def stageFree (k : Nat) (s : State) : State :=
  match pktOf s k with
  | none => s
  | some x =>
    let from_ (p : Nat) : Bool := (voqsOf s k).any fun v => v.1 = p
    let done := (x.dcells.filterMap (cellDst s)).eraseDups.filter fun p => !stageBusy s k p && !from_ p
    let gone := x.dcells.filter fun c => match cellDst s c with
      | some p => done.contains p && !inTransit s c
      | none => false
    let s := if gone = [] then s else modPkt k (fun y => { y with dcells := y.dcells.filter fun c => !gone.contains c }) (freeOwn gone s)
    let die := dieOfPipe x.pipe
    if x.cells = [] || ((voqsOf s k).any fun v => dieOfPipe v.1 = die) || ((unackedOf s k).any fun c => dieOfPipe c.src = die) then s
    else match ((upTo 4).map (4 * die + ·)).find? (stageBusy s k) with
      | some p => moveCells (x.cells.filter fun c => heldTag s c ≠ ownerTag 4 (p % 4)) (ownerTag 4 (p % 4)) s
      | none => freeIngress k s

/-- One use of a frame ends; with the last, the frame ends (R315). -/
def unref (k : Nat) (s : State) : State :=
  match pktOf s k with
  | none => s
  | some p => if p.refs ≤ 1 then endPkt k s else stageFree k (modPkt k (fun x => { x with refs := x.refs - 1 }) s)

/-- ct_enable and the rates let a frame leave a port in cut-through (R29). A frame takes ct_enable as its egress stage there
begins (R24). -/
def cutThrough (s : State) (p : Pkt) (port : Nat) : Bool :=
  cfgBit s (.phyOctetCfg (port / 8)) (24 + port % 8) && decide (portRate s port ≤ portRate s p.port)

/-- When a frame became eligible where it may, or may not, leave in cut-through: with the notice that its flow part is
confirmed, or with that and its frame check (R224, R240). -/
def eligFrom (p : Pkt) (ct : Bool) : Option Nat :=
  if !p.noticed then none
  else match p.check with
    | some true => some (if ct then p.noticeAt else Nat.max p.noticeAt p.checkAt)
    | some false => none
    | none => if ct then some p.noticeAt else none

/-- An entry's frame is eligible (R224). -/
def eligible (s : State) (e : QEnt) : Bool :=
  match pktOf s e.pkt with
  | none => false
  | some p => (eligFrom p e.ct).isSome

/-- A frame is confirmed (R224). -/
def confirmed (s : State) (k : Nat) : Bool :=
  match pktOf s k with
  | none => false
  | some p => p.flowOk && decide (p.check = some true)

/-! ### Gates (R339–R343) -/

/-- The time counter in units of 2^-16 ns. -/
def timeFx (s : State) : Nat := timeNs s * 2 ^ 16 + s.tim.frac / 2 ^ 28

/-- A length of time in ns, in units of 2^-16 ns. -/
def fxNs (n : Nat) : Nat := n * 2 ^ 16

/-- Begin a cycle of a list. -/
def beginCycle (l : GateList) (t : Nat) (g : Gates) : Gates :=
  match l.entries with
  | [] => { g with cycle := t, entry := 0, next := t + fxNs l.cycle }
  | [e] => { g with mask := e.gates, cycle := t, entry := 0, next := t + fxNs l.cycle }
  | e :: _ => { g with mask := e.gates, cycle := t, entry := 0, next := t + fxNs (Nat.min e.ns l.cycle) }

/-- Begin a list at its start (R340): with OPEN every gate is open. -/
def beginList (l : GateList) (g : Gates) : Gates :=
  let g := { g with running := some l, stretched := false }
  if l.open_ then { g with mask := 0xFFFF, cycle := l.start, entry := 0, next := l.start }
  else beginCycle l l.start g

/-- Cross the next boundary of the running list (R339, R341). -/
def advanceGates (g : Gates) : Gates :=
  match g.running with
  | none => g
  | some l =>
    if l.open_ || g.stretched then g
    else
      let stop := g.cycle + fxNs l.cycle
      if stop ≤ g.next then
        match g.pending with
        | some p =>
          if stop ≤ p.start ∧ p.start < stop + fxNs p.ext then { g with stretched := true, next := p.start }
          else beginCycle l stop g
        | none => beginCycle l stop g
      else
        let i := g.entry + 1
        match l.entries[i]? with
        | none => { g with next := stop }
        | some e =>
          { g with
            mask := e.gates
            entry := i
            next := if i + 1 < l.entries.length then Nat.min (g.next + fxNs e.ns) stop else stop }

/-- What changes a port's gates next, and when: its pending list starts, its running list restarts after a step, or the
running list crosses a boundary (R339–R343). -/
def gateStep (g : Gates) : Option (Nat × Gates) :=
  let own : Option (Nat × Gates) := match g.running with
    | none => none
    | some l =>
      if g.stretched then (if g.next = l.start then some (l.start, beginList l g) else none)
      else if l.open_ then none
      else some (g.next, advanceGates g)
  match g.pending, own with
  | some p, some (t, h) => if p.start ≤ t then some (p.start, beginList p { g with pending := none }) else some (t, h)
  | some p, none => some (p.start, beginList p { g with pending := none })
  | none, o => o

/-- The time at which a queue's gate next closes, looking n changes ahead. -/
def closesAt (q : Nat) : Nat → Gates → Option Nat
  | 0, _ => none
  | n + 1, g =>
    match gateStep g with
    | none => none
    | some (t, h) => if !bit h.mask q then some t else closesAt q n h

/-- Entries of a list. -/
def listLen (l : Option GateList) : Nat := match l with | some l => l.entries.length | none => 0

/-- A queue's gate closes next at this time; none while it stays open. -/
def gateCloses (s : State) (port q : Nat) : Option Nat :=
  let g := gates s port
  if g.held then none else closesAt q (listLen g.running + listLen g.pending + 3) g

/-- The charge used against a gate that closes at a time: with max_len for a frame leaving in cut-through when that is
within the current cycle (R342). -/
def chargeUntil (s : State) (port : Nat) (e : QEnt) (t : Nat) : Nat :=
  let cut := e.ct && match pktOf s e.pkt with
    | some p => decide (p.check = none)
    | none => false
  let within := match (gates s port).running with
    | some l => decide (t ≤ (gates s port).cycle + fxNs l.cycle)
    | none => false
  if cut && within then cfg s (.egsPortCfg port) 13 0 + cfg s (.egsPortCfg port) 21 16 else e.charge

/-- An entry's gate is open, and its frame's charge ends before it closes (R342). -/
def gateFits (s : State) (port : Nat) (e : QEnt) : Bool :=
  bit (gates s port).mask e.queue &&
    match gateCloses s port e.queue with
    | none => true
    | some t => decide (timeFx s * portRate s port + fxNs (chargeUntil s port e t * 8) < t * portRate s port)

/-- The charge of a frame at a port (R330). -/
def chargeOf (s : State) (k : Pkt) (port : Nat) (vid : Option Nat) : Nat :=
  editedLen k vid + cfg s (.egsPortCfg port) 21 16

/-! ### Nodes and buckets (R326, R333–R338) -/

/-- The SCHED_NODE index of a queue, a group, and the SHAPER index of a port. -/
def queueNode (port q : Nat) : Nat := 16 * (port % 128) + q
/-- The index of a group. -/
def groupNode (port g : Nat) : Nat := 2048 + 8 * (port % 128) + g
/-- The index of a port. -/
def portNode (port : Nat) : Nat := 3072 + port % 128
/-- A node's key. -/
def nodeKey (port node : Nat) : Nat := 4096 * dieOfLane port + node
/-- The peak level of a node at reset (R337). -/
def peakReset : Int := 16383 * 65536
/-- A node's peak level. -/
def peakOf (s : State) (key : Nat) : Int := mget peakReset s.egs.peak key
/-- A node's committed level. -/
def commOf (s : State) (key : Nat) : Int := mget 0 s.egs.comm key
/-- Set a peak level. -/
def setPeak (key : Nat) (v : Int) (s : State) : State := modEgs (fun e => { e with peak := mset peakReset e.peak key v }) s
/-- Set a committed level. -/
def setComm (key : Nat) (v : Int) (s : State) : State := modEgs (fun e => { e with comm := mset 0 e.comm key v }) s
/-- A node's shaper entry. -/
def shaperOf (s : State) (key : Nat) : Nat := objGet s 0x0902 (key / 4096) 0 (key % 4096)
/-- A node's scheduling entry. -/
def schedOf (s : State) (port node : Nat) : Nat := objGet s 0x0901 (dieOfLane port) 0 node
/-- A weight; 0 acts as 1. -/
def weightOf (e : Nat) : Nat := Nat.max 1 (fld e 11 0)
/-- The group of a queue. -/
def groupOf (s : State) (port q : Nat) : Nat := fld (schedOf s port (queueNode port q)) 14 12
/-- A node is unshaped. -/
def unshaped (e : Nat) : Bool := decide (fld e 95 64 = 0xFFFFFFFF)
/-- A node can be selected: its peak level is at zero or above (R334). -/
def peakOk (s : State) (key : Nat) : Bool := decide (0 ≤ peakOf s key)
/-- A node is in the committed tier (R334). -/
def committedTier (s : State) (key : Nat) : Bool :=
  decide (0 ≤ commOf s key) && peakOk s key && decide (fld (shaperOf s key) 31 0 ≠ 0)
/-- Rate in 2^-16 byte per update (R333). -/
def perUpdate (kbps : Nat) : Nat := kbps * 524288 / 1000000

/-- Charge a node's peak bucket. -/
def chargePeak (key c : Nat) (s : State) : State :=
  if unshaped (shaperOf s key) then s else setPeak key (peakOf s key - Int.ofNat c * 65536) s
/-- Charge a node's committed bucket. -/
def chargeComm (key c : Nat) (s : State) : State := setComm key (commOf s key - Int.ofNat c * 65536) s
/-- Return a charge, up to the bucket's size (R336). -/
def refundPeak (key c : Nat) (s : State) : State :=
  setPeak key (min (peakOf s key + Int.ofNat c * 65536) (Int.ofNat (fld (shaperOf s key) 119 96) * 65536)) s
/-- Return a committed charge. -/
def refundComm (key c : Nat) (s : State) : State :=
  setComm key (min (commOf s key + Int.ofNat c * 65536) (Int.ofNat (fld (shaperOf s key) 55 32) * 65536)) s

/-- One shaper update of a node (R333, R338): with FORGIVE a negative level is set to 0 at it. -/
def updateNode (key : Nat) (s : State) : State :=
  let (s, forgive) := match mget none s.egs.newShaper key with
    | some (img, f) =>
      (modEgs (fun e => { e with newShaper := mset none e.newShaper key none }) (objPut 0x0902 (key / 4096) 0 (key % 4096) img s), f)
    | none => (s, false)
  let e := shaperOf s key
  let lift (x : Int) (rate size : Nat) : Int :=
    min (if forgive && decide (x < 0) then 0 else x + Int.ofNat (perUpdate rate)) (Int.ofNat size * 65536)
  let s := setPeak key (if unshaped e then Int.ofNat (fld e 119 96) * 65536 else lift (peakOf s key) (fld e 95 64) (fld e 119 96)) s
  if 3072 ≤ key % 4096 then s else setComm key (lift (commOf s key) (fld e 31 0) (fld e 55 32)) s

/-- The nodes whose level can change at an update. -/
def shaperNodes (s : State) : List Nat :=
  let own := s.cls.objs.filterMap fun e =>
    if e.1 / 2 ^ 25 = 0x0902 then some (4096 * (e.1 / 2 ^ 21 % 16) + e.1 % 2 ^ 20) else none
  (own ++ s.egs.peak.map (·.1) ++ s.egs.comm.map (·.1) ++ s.egs.newShaper.map (·.1)).eraseDups

/-! ### Queues -/

/-- A received pause holds a priority of a port now (R301). -/
def pausedNow (s : State) (port q : Nat) : Bool :=
  let p := pauseSt s port q
  decide (q < 8) && cfgBit s (.bufPortCfg port) q && !p.tripped &&
    match p.until_ with
    | some t => decide (p.from_ ≤ s.now) && decide (s.now < t)
    | none => false

/-- An entry of a mirror or sample copy (R318). -/
def mirrorEnt (s : State) (e : QEnt) : Bool :=
  match pktOf s e.pkt with
  | some p => p.copy
  | none => false

/-- A frame loses one use. The drop is charged at once when it ends the frame (R230), and with the
frame's confirmation when other copies go on (R227). -/
def dropUse (k : Nat) (c : Nat × Nat × Nat × Nat) (s : State) : State :=
  match pktOf s k with
  | none => s
  | some p => if p.refs ≤ 1 then unref k (cntAdd c.1 c.2.1 c.2.2.1 c.2.2.2 (payOwed k s)) else unref k (owe k c s)

/-- Drop an entry at egress. -/
def dropEnt (e : QEnt) (c : Nat × Nat × Nat × Nat) (s : State) : State := dropUse e.pkt c s

/-- Confirmed entries of a queue and of its port's launch list (R346). -/
def sampleEnts (s : State) (port q : Nat) : List QEnt :=
  (egq s port q ++ (launch s port).filter fun e => e.queue = q).filter fun e => confirmed s e.pkt

/-- Keep the largest depth of a queue's confirmed frames (R346): noted as a frame joins the queue and as one in it is
confirmed. -/
def noteDepth (port q : Nat) (s : State) : State :=
  let x := mget {} s.egs.samples (16 * port + q)
  let y : QSample := { x with maxCells := Nat.max x.maxCells (sumL ((sampleEnts s port q).map (·.cells))) }
  modEgs (fun g => { g with samples := mset {} g.samples (16 * port + q) y }) s

/-- The later of two tags. -/
def maxTag (a b : Nat) : Nat := if wrapGe 32 a b then a else b

/-- Form the tag of a queue's head, when a frame has become the head (R330). -/
def formQueueTag (port q : Nat) (s : State) : State :=
  let key := 16 * port + q
  match egq s port q with
  | [] => modEgs (fun e => { e with headQ := mset none e.headQ key none }) s
  | h :: _ =>
    let have1 := match mget none s.egs.headQ key with
      | some t => decide (t.pkt = h.pkt)
      | none => false
    if have1 then s
    else
      match pktOf s h.pkt with
      | none => s
      | some p =>
        let c := chargeOf s p port h.vid
        let g := groupOf s port q
        let last := mget 0 s.egs.lastQ key
        let f := (maxTag (mget 0 s.egs.vgroup (8 * port + g)) last + ceilDiv (c * 4096) (weightOf (schedOf s port (queueNode port q)))) % 2 ^ 32
        let s := modEgq port q (fun l => match l with | [] => [] | x :: r => { x with charge := c, group := g } :: r) s
        modEgs (fun e => { e with
          lastQ := mset 0 e.lastQ key f
          headQ := mset none e.headQ key (some ⟨h.pkt, f, last⟩) }) s

/-- A queue's head can be selected (R327). -/
def selectable (s : State) (port q : Nat) : Bool :=
  match egq s port q with
  | [] => false
  | h :: _ =>
    !pausedNow s port q && gateFits s port h && peakOk s (nodeKey port (queueNode port q))
      && peakOk s (nodeKey port (groupNode port h.group)) && peakOk s (nodeKey port (portNode port))

/-- The better of two candidates: committed tier first, then the smaller tag, then the lower number. -/
def betterTag (a b : Nat × Bool × Nat) : Nat × Bool × Nat :=
  if a.2.1 ≠ b.2.1 then (if a.2.1 then a else b)
  else if a.2.2 = b.2.2 then a
  else if wrapGe 32 b.2.2 a.2.2 then a else b

/-- The best of candidates given in rising number order: number, committed tier, tag. -/
def bestTag : List (Nat × Bool × Nat) → Option (Nat × Bool × Nat)
  | [] => none
  | a :: r => some (r.foldl betterTag a)

/-- The queue a group would choose (R331). -/
def groupChoice (s : State) (port g : Nat) : Option Nat :=
  let qs := (upTo 16).filter fun q => selectable s port q && match egq s port q with
    | h :: _ => decide (h.group = g)
    | [] => false
  (bestTag (qs.map fun q => (q, committedTier s (nodeKey port (queueNode port q)),
    match mget none s.egs.headQ (16 * port + q) with | some t => t.tag | none => 0))).map (·.1)

/-- Form a group's tag for its head frame; when the frame changed without being selected, from last_g as it stood
before (R330). -/
def formGroupTag (port g q : Nat) (s : State) : State :=
  let key := 8 * port + g
  match egq s port q with
  | [] => s
  | h :: _ =>
    match mget none s.egs.headG key with
    | some t =>
      if t.pkt = h.pkt then s
      else make key t.prev h.charge h.pkt s
    | none => make key (mget 0 s.egs.lastG key) h.charge h.pkt s
where
  /-- Form it from a last tag. -/
  make (key last c pkt : Nat) (s : State) : State :=
    let f := (maxTag (mget 0 s.egs.vport port) last + ceilDiv (c * 4096) (weightOf (schedOf s port (groupNode port g)))) % 2 ^ 32
    modEgs (fun e => { e with
      lastG := mset 0 e.lastG key f
      headG := mset none e.headG key (some ⟨pkt, f, last⟩) }) s

/-- The group and queue a port selects (R331). -/
def portChoice (s : State) (port : Nat) : Option (Nat × Nat) :=
  let gs := (upTo 8).filterMap fun g => (groupChoice s port g).map fun q => (g, q)
  match gs.find? fun e => bit (schedOf s port (groupNode port e.1)) 12 with
  | some e => some e
  | none =>
    match bestTag (gs.map fun e => (e.1, committedTier s (nodeKey port (groupNode port e.1)),
        match mget none s.egs.headG (8 * port + e.1) with | some t => t.tag | none => 0)) with
    | some (g, _, _) => gs.find? fun e => e.1 = g
    | none => none

/-- Charge the buckets of a selection and set the virtual times (R330, R334). -/
def chargeSelection (port q g : Nat) (h : QEnt) (s : State) : QEnt × State :=
  let kq := nodeKey port (queueNode port q)
  let kg := nodeKey port (groupNode port g)
  let cq := committedTier s kq
  let cg := committedTier s kg
  let c := h.charge
  let s := chargePeak (nodeKey port (portNode port)) c (chargePeak kg c (chargePeak kq c s))
  let s := if cq then chargeComm kq c s else s
  let s := if cg then chargeComm kg c s else s
  let vq := match mget none s.egs.headQ (16 * port + q) with | some t => t.tag | none => 0
  let vg := match mget none s.egs.headG (8 * port + g) with | some t => t.tag | none => 0
  let s := modEgs (fun e => { e with
    vgroup := mset 0 e.vgroup (8 * port + g) vq
    vport := mset 0 e.vport port vg
    headQ := mset none e.headQ (16 * port + q) none
    headG := mset none e.headG (8 * port + g) none }) s
  ({ h with comQ := cq, comG := cg }, s)

/-- The group of a queue's head forms its tag for the frame it would choose next (R330). -/
def headTags (port q : Nat) (s : State) : State :=
  match egq s port q with
  | [] => s
  | h :: _ => match groupChoice s port h.group with
    | some c => formGroupTag port h.group c s
    | none => s

/-- The tags of a port's queues, then of its groups, are formed for their head frames (R330). -/
def formTags (port : Nat) (s : State) : State :=
  let s := each (upTo 16) (formQueueTag port) s
  each (upTo 8) (fun g t => match groupChoice t port g with
    | some q => formGroupTag port g q t
    | none => t) s

/-- A frame reaches an egress queue (R299, R303, R325, R329): it is queued, or dropped at a down port, a tripped
priority or a full queue. A frame that joins an empty queue is its head, and its tags are formed (R330). -/
def enqueue (port : Nat) (e : QEnt) (s : State) : State :=
  let q := e.queue
  let die := dieOfLane port
  let full := !(lossless s port q) && !queueAdmits s port q
  if !portUp s port then
    dropEnt e (if mirrorEnt s e then (0x0881, die, 13, 1) else if e.copy then (0x0881, die, 11, 1) else (0x0981, pipeOfLane port, 9, 1)) s
  else if q < 8 && (pauseSt s port q).tripped then dropEnt e (0x0883, die, 32 * (port % 128) + 24 + q, 1) s
  else if full then
    dropEnt e (0x0884, die, 16 * (port % 128) + q, 1) (if mirrorEnt s e then cntInc 0x0881 die 13 s else s)
  else
    let empty := (egq s port q).isEmpty
    let s := noteDepth port q (modEgq port q (· ++ [{ e with enq := s.now }]) s)
    if empty then headTags port q (formQueueTag port q s) else s

/-- SCHEDULER_SELECT (R327, R330, R331). -/
def schedulerSelect (port : Nat) (s : State) : State :=
  if 8 ≤ (launch s port).length ∨ !portUp s port then s
  else
    let s := formTags port s
    match portChoice s port with
    | none => s
    | some (g, q) =>
      match egq s port q with
      | [] => s
      | h :: rest =>
        let (h, s) := chargeSelection port q g h s
        let s := if confirmed s h.pkt then s else owe h.pkt (0x0981, pipeOfLane port, 2, 1) s
        let s := modLaunch port (· ++ [h]) (modEgq port q (fun _ => rest) s)
        formQueueTag port q s

/-! ### Unlinking (R234, R329, R336) -/

/-- Return what a selected entry charged (R336). -/
def refund (port : Nat) (e : QEnt) (s : State) : State :=
  let kq := nodeKey port (queueNode port e.queue)
  let kg := nodeKey port (groupNode port e.group)
  let back (k : Nat) (t : State) : State := if unshaped (shaperOf t k) then t else refundPeak k e.charge t
  let s := back (nodeKey port (portNode port)) (back kg (back kq s))
  let s := if e.comQ then refundComm kq e.charge s else s
  if e.comG then refundComm kg e.charge s else s

/-- Unlink every entry of a frame from the queues and launch lists of a port; a queue's new head forms its tag. -/
def unlinkPort (k port : Nat) (s : State) : State :=
  let gone := (launch s port).filter fun e => e.pkt = k
  let s := each gone (refund port) s
  let s := if gone = [] then s else modLaunch port (·.filter fun e => e.pkt ≠ k) s
  each (upTo 16) (fun q t =>
    if (egq t port q).any fun e => e.pkt = k then formQueueTag port q (modEgq port q (·.filter fun e => e.pkt ≠ k) t)
    else t) s

/-- Entries of a frame in the queues and the launch list of a port. -/
def entriesAt (s : State) (k port : Nat) : Nat :=
  (((upTo 16).flatMap (egq s port ·) ++ launch s port).filter fun e => e.pkt = k).length

/-- A squash unlinks a frame: its entries are counted, with its confirmation (R242, R349). -/
def oweUnlinks (k : Nat) (s : State) : State :=
  each (portsHolding s k) (fun port t => owe k (0x0981, pipeOfLane port, 3, entriesAt s k port) t) s

/-- Unlink a frame everywhere at egress (R234). -/
def unlinkEgress (k : Nat) (s : State) : State := each (portsHolding s k) (unlinkPort k) s

/-- Drop every frame of a port's queues and launch list (R329). -/
def dropPort (port : Nat) (s : State) : State :=
  let l := launch s port
  let s := modLaunch port (fun _ => []) s
  let drop (e : QEnt) (t : State) : State :=
    dropEnt e (if e.copy && !mirrorEnt t e then (0x0881, dieOfLane port, 11, 1) else (0x0981, pipeOfLane port, 9, 1)) t
  let s := each l drop s
  each (upTo 16) (fun q t =>
    let l := egq t port q
    each l drop (modEgq port q (fun _ => []) t)) s

/-! ### Transmission (R328, R344) -/

/-- The first entry of the launch list that may start (R328). -/
def startable (s : State) (port : Nat) : Option QEnt :=
  (launch s port).find? fun e =>
    eligible s e && !pausedNow s port e.queue && gateFits s port e && (e.whole || e.ct)

/-- Take the first entry of a frame and queue out of the launch list. -/
def removeFirst (e : QEnt) : List QEnt → List QEnt
  | [] => []
  | x :: r => if x = e then r else x :: removeFirst e r

/-- Account a frame that starts in its queue's sample (R346). -/
def sampleStart (port : Nat) (e : QEnt) (s : State) : State :=
  let d := (s.now - e.enq) / 1000
  let x := mget {} s.egs.samples (16 * port + e.queue)
  let y : QSample := { x with
    frames := x.frames + 1
    maxDelay := Nat.min (2 ^ 32 - 1) (Nat.max x.maxDelay d)
    sumDelay := (x.sumDelay + d) % 2 ^ 64 }
  modEgs (fun g => { g with samples := mset {} g.samples (16 * port + e.queue) y }) s

/-- Count entries of TIM_CNT. -/
def timCounts (l : List Nat) (s : State) : State := each l (fun c t => cntInc 0x0A81 0 c t) s

/-- A frame is found corrupted as it leaves a port: whether its metadata's parity or a payload's CRC told it is a free value
(R429, R453, R454). -/
def datapathErr (port : Nat) (s : State) : State :=
  let (n, s) := useFree s
  let s := cntInc 0x0C81 0 5 (cntAdd 0x0C81 0 4 (Config.freeValue n % 2) s)
  raise 0x04B evChkDatapathErr (port / 128) (pipeOfLane port) port 0 s

/-- FRAME_TRANSMIT_START: the edit, its drops, and the start of the frame. corrupt says that the frame's payload or
metadata is found corrupted as it is read (R290, R429). -/
def transmitStart (port : Nat) (corrupt : Bool) (s : State) : State :=
  if !portUp s port || (mget none s.egs.sending port).isSome then s
  else
    match startable s port with
    | none => s
    | some e =>
      match pktOf s e.pkt with
      | none => modLaunch port (removeFirst e) s
      | some k =>
        let s := modLaunch port (removeFirst e) s
        let tx := txStamp s port
        let r := edit s k k.copy port e.vid tx (compReady s port)
        let s := timCounts r.counts s
        match r.bytes with
        | none => dropEnt e (0x0981, pipeOfLane port, 5, if r.rewrite then 1 else 0) s
        | some bs =>
          let s := if corrupt then datapathErr port s else s
          let s := modPkt e.pkt (fun x => { x with started := true }) s
          let s := sampleStart port e s
          let d : Sending := { ent := e, stamp := tx, bytes := bs, stomp := corrupt, ok := compReady s port }
          modEgs (fun g => { g with sending := mset none g.sending port (some d) }) s

/-- FRAME_TRANSMIT_END: the last bit is sent with its FCS, stomped when the frame check failed on the way (R231).
A frame in cut-through does not end before its own end has arrived. -/
def transmitEnd (port : Nat) (s : State) : State :=
  match mget none s.egs.sending port with
  | none => s
  | some d =>
    let whole : Bool := match pktOf s d.ent.pkt with
      | some k => k.check.isSome
      | none => true
    if !whole then s
    else
    let s := modEgs (fun g => { g with sending := mset none g.sending port none }) s
    match pktOf s d.ent.pkt with
    | none => s
    | some k =>
      let bad := d.stomp || k.stomp
      let fcs := leBytes 4 (let c := crcOf 2 d.bytes; if bad then Nat.xor c 0xFFFFFFFF else c)
      let out := d.bytes ++ fcs
      let s := modEgs (fun g => { g with wire := g.wire ++ [(port, out, bad)] }) s
      let p := pipeOfLane port
      let s := cntAdd 0x0981 p 1 out.length (cntInc 0x0981 p 0 s)
      let s := if bad then cntInc 0x0981 p 6 s else s
      let s := if k.stampReq then
          modPkt d.ent.pkt (fun x => { x with stampReq := false }) (injectDone k 0 d.stamp d.ok s)
        else s
      unref d.ent.pkt s

/-! ### Received pause and the watchdog (R301, R303) -/

/-- One priority is named by a received PFC frame with a time in quanta of 512 bit times. -/
def pauseOne (port q t : Nat) (s : State) : State :=
  if !(cfgBit s (.bufPortCfg port) q) then s
  else
    let ps := t * 512 * 1000 / Nat.max 1 (portRate s port)
    modPause port q (fun p =>
      let p := if 0 < t then { p with lastXoff := s.now } else p
      if p.tripped then p
      else if t = 0 then { p with until_ := none, heldSince := none }
      else
        let live := match p.until_ with
          | some u => decide (s.now < u)
          | none => false
        { p with
          until_ := some (s.now + ps)
          from_ := if live then p.from_ else s.now + 200000
          heldSince := if live then p.heldSince else some s.now }) s

/-- PFC_FRAME_RECEIVE: a PFC or PAUSE frame is consumed and counted (R301). -/
def pfcFrameReceive (port : Nat) (f : PauseFrame) (s : State) : State :=
  match f with
  | .pause _ => each (upTo 8) (fun q t => pfcCnt port (8 + q) t) s
  | .pfc v times => each ((upTo 8).filter (bit v ·)) (fun q t => pauseOne port q (nth 0 times q % 65536) (pfcCnt port (8 + q) t)) s

/-- PFC_PAUSE_EXPIRY: the pause time has elapsed. -/
def pfcPauseExpiry (port q : Nat) (s : State) : State :=
  match (pauseSt s port q).until_ with
  | some t => if t ≤ s.now then modPause port q (fun p => { p with until_ := none, heldSince := none }) s else s
  | none => s

/-- PFC_WATCHDOG_EXPIRY: a queue held by PFC for wd_ms trips (R303). -/
def pfcWatchdogExpiry (port q : Nat) (s : State) : State :=
  let d := dieOfLane port
  let held := match (pauseSt s port q).heldSince with
    | some t => decide (t + cfg1 s (.bufWdCfg d) 15 0 * 10 ^ 9 ≤ s.now)
    | none => false
  if cfgBit s (.bufPortCfg port) 17 && lossless s port q && pausedNow s port q && held && decide (0 < queueCells s port q) then
    let s := modPause port q (fun p => { p with tripped := true, until_ := none, heldSince := none }) (pfcCnt port (16 + q) s)
    let l := egq s port q
    let s := modEgq port q (fun _ => []) s
    let s := each l (fun e t => dropEnt e (0x0883, d, 32 * (port % 128) + 24 + q, 1) t) s
    raise (bufSrc d (16 + port / 8 % 16)) evPfcWdTrip 0 0 0 0 s
  else s

/-- PFC_WATCHDOG_RESTORE_TIMER: wd_restore_ms without XOFF restores the priority (R303). -/
def pfcWatchdogRestore (port q : Nat) (s : State) : State :=
  let d := dieOfLane port
  let p := pauseSt s port q
  if p.tripped && decide (p.lastXoff + cfg s (.bufWdCfg d) 31 16 * 10 ^ 9 ≤ s.now) then
    raise (bufSrc d (16 + port / 8 % 16)) evPfcWdRestore 0 0 0 0 (modPause port q (fun x => { x with tripped := false }) s)
  else s

/-! ### Gate rows and samples -/

/-- The frames of the launch list whose gate has closed wait past it: each is counted once (R342, R349). -/
def noteWaits (port : Nat) (s : State) : State :=
  let shut (e : QEnt) : Bool := !e.waited && !bit (gates s port).mask e.queue
  let late := (launch s port).filter shut
  if late = [] then s
  else each late (fun e t => owe e.pkt (0x0981, pipeOfLane port, 4, 1) t)
    (modLaunch port (·.map fun e => if shut e then { e with waited := true } else e) s)

/-- GATE_CHANGE: an entry or cycle boundary of the running list arrives (R339, R341). -/
def gateChange (port : Nat) (s : State) : State :=
  let g := gates s port
  match g.running with
  | some l => if !l.open_ && !g.stretched && !g.held && decide (g.next ≤ timeFx s) then noteWaits port (modGates port advanceGates s) else s
  | none => s

/-- The time counter in units of 2^-16 ns, rounded up. -/
def timeFxUp (s : State) : Nat := timeFx s + (if s.tim.frac % 2 ^ 28 = 0 then 0 else 1)

/-- The first start of a list that is at least 1 µs after a time, in units of 2^-16 ns (R340, R343). -/
def gateStartTime (l : GateList) (t : Nat) : Nat :=
  let b := stampFx l.base
  if t + fxNs 1000 ≤ b then b else b + ceilDiv (t + fxNs 1000 - b) (Nat.max 1 (fxNs l.cycle)) * fxNs l.cycle

/-- GATE_LIST_START: a list reaches its start and runs (R340, R343). -/
def gateListStart (port : Nat) (s : State) : State :=
  let g := gates s port
  if g.held then s
  else
    match g.pending with
    | some l =>
      if l.start ≤ timeFx s then
        raise (egsSrc port) evGateStart 0 0 0 0 (noteWaits port (modGates port (fun g => beginList l { g with pending := none }) s))
      else again g s
    | none => again g s
where
  /-- A running list that restarts after a step begins at its new start (R343). -/
  again (g : Gates) (s : State) : State :=
    match g.running with
    | some l => if g.stretched && decide (g.next = l.start) && decide (l.start ≤ timeFx s) then noteWaits port (modGates port (beginList l) s) else s
    | none => s

/-- A time-unit reset holds every port's gates as they stand (R343). -/
def holdGates (s : State) : State :=
  modEgs (fun e => { e with gates := e.gates.map fun g =>
    if g.2.running.isSome || g.2.pending.isSome then (g.1, { g.2 with held := true }) else g }) s

/-- An accepted step restarts every list (R343). -/
def restartGates (s : State) : State :=
  each (s.egs.gates.map (·.1)) (fun port t =>
    let g := gates t port
    if g.running.isNone && g.pending.isNone then t
    else
      let re (l : GateList) : GateList := { l with start := gateStartTime l (timeFxUp t) }
      let run := g.running.map re
      let t := modGates port (fun g => { g with
        held := false
        running := run
        pending := g.pending.map re
        stretched := run.isSome
        next := match run with
          | some l => l.start
          | none => g.next }) t
      raise (egsSrc port) evGateRestart 0 0 0 0 (cntInc 0x0981 (pipeOfLane port) 7 t)) s

/-- Write or discard the sample record of one queue (R346, R347); one for a disabled ring is dropped as an export record is
(R59, R82). -/
def queueSample1 (die port q : Nat) (tooHot : Bool) (s : State) : State :=
  let g := 656 + cfg s (.egsSampleCfg die) 20 16
  let l := sampleEnts s port q
  let cells := sumL (l.map (·.cells))
  let bytes := sumL (l.map fun e => match pktOf s e.pkt with | some p => editedLen p e.vid | none => 0)
  let x := mget {} s.egs.samples (16 * port + q)
  let s := modRing g (fun r => { r with offered := r.offered + 1 }) s
  let r := ring s g
  if tooHot || !r.enabled || ringFull r then
    let s := modRing g (fun r => { r with discarded := r.discarded + 1 }) s
    let s := if r.enabled then s else cntInc 0x0381 0 (match ringLink s g with | .a => 1 | .b => 9) s
    raise (egsSrc port) evEgsSampleLost 0 0 0 0 (cntInc 0x0981 (pipeOfLane port) 8 s)
  else
    let bs := leBytes 2 0xC1 ++ leBytes 2 port ++ leBytes 1 q ++ leBytes 3 0 ++ stampBytes (stampNow s) ++ leBytes 4 cells
      ++ leBytes 4 bytes ++ leBytes 4 (Nat.max x.maxCells cells) ++ leBytes 4 x.frames ++ leBytes 4 x.maxDelay
      ++ leBytes 8 x.sumDelay ++ leBytes 4 r.offered ++ leBytes 4 r.discarded ++ leBytes 8 0
    let s := devWrite g bs s
    let s := modRing g (fun r => { r with discarded := 0 }) s
    modEgs (fun e => { e with samples := mset {} e.samples (16 * port + q) { maxCells := cells } }) s

/-- interval_us of a die's sampler; lower values act as 10 (R346). -/
def sampleUs (s : State) (die : Nat) : Nat := Nat.max 10 (cfg s (.egsSampleCfg die) 15 0)

/-- QUEUE_SAMPLE: every interval_us a die's selected queues are sampled, at most 16 records a microsecond of the interval
(R346, R347). -/
def queueSample (die : Nat) (s : State) : State :=
  if hasDie s.part die && cfgBit s (.egsSampleCfg die) 31 && s.pwr.committed
      && decide (mget 0 s.egs.sampleAt die + sampleUs s die * 10 ^ 6 ≤ s.now) then
    let most := 16 * sampleUs s die
    let s := modEgs (fun e => { e with sampleAt := mset 0 e.sampleAt die s.now }) s
    let l := (portsOfDie s die).flatMap fun port =>
      ((upTo 16).filter fun q => cfgBit s (.egsSampleMask port) q).map fun q => (port, q)
    let s := each (l.take most) (fun e => queueSample1 die e.1 e.2 false) s
    each (l.drop most) (fun e => queueSample1 die e.1 e.2 true) s
  else s

/-! ### Rows -/

/-- SCHEDULER_SELECT. -/
def execSchedulerSelect (port : Nat) (s : State) : Out := .next (schedulerSelect port s)
/-- FRAME_TRANSMIT_START. -/
def execFrameTransmitStart (port : Nat) (corrupt : Bool) (s : State) : Out := .next (transmitStart port corrupt s)
/-- FRAME_TRANSMIT_END. -/
def execFrameTransmitEnd (port : Nat) (s : State) : Out := .next (transmitEnd port s)
/-- GATE_CHANGE. -/
def execGateChange (port : Nat) (s : State) : Out := .next (gateChange port s)
/-- GATE_LIST_START. -/
def execGateListStart (port : Nat) (s : State) : Out := .next (gateListStart port s)
/-- QUEUE_SAMPLE. -/
def execQueueSample (die : Nat) (s : State) : Out := .next (queueSample die s)
/-- PFC_FRAME_RECEIVE. -/
def execPfcFrameReceive (port : Nat) (frame : PauseFrame) (s : State) : Out := .next (pfcFrameReceive port frame s)
/-- PFC_PAUSE_EXPIRY. -/
def execPfcPauseExpiry (port pri : Nat) (s : State) : Out := .next (pfcPauseExpiry port pri s)
/-- PFC_WATCHDOG_EXPIRY. -/
def execPfcWatchdogExpiry (port pri : Nat) (s : State) : Out := .next (pfcWatchdogExpiry port pri s)
/-- PFC_WATCHDOG_RESTORE_TIMER. -/
def execPfcWatchdogRestoreTimer (port pri : Nat) (s : State) : Out := .next (pfcWatchdogRestore port pri s)

end Sys2Proof.Machine
end

