-- ==== Sys2Proof/Machine/Fabric.lean ====
section
/-! DEFINITION. The fabric: virtual output queues (R305), the arbiter and its copies (R306, R307), die links (R308–R310),
resequencing (R311, R312), and the hold time of multicast copies (R316). -/

namespace Sys2Proof.Machine

/-! ### Joining a queue -/

/-- A frame joins a virtual output queue (R305); the cells of copies stay with the replicator (R315). -/
def joinVoq (src dst : Nat) (e : VoqE) (s : State) : State :=
  let s := retagAt e.pkt src (if e.copy then ownerTag 4 (src % 4) else voqTag src dst e.queue) s
  modVoq src dst e.queue (· ++ [e]) s

/-- Cells of a frame. -/
def pktCells (s : State) (k : Nat) : Nat :=
  match pktOf s k with
  | some p => cellsFor (p.bytes.length - p.strip)
  | none => 0

/-! ### Acceptance of lossless classes (R302) -/

/-- Cells of a class a destination has admitted and not dequeued: those of each frame once, whatever its copies share. -/
def admittedCells (s : State) (dst cls : Nat) : Nat :=
  let l := (portsOfPipe s dst).flatMap fun port => egq s port cls ++ (launch s port).filter fun e => e.queue = cls
  sumL ((l.map fun e => (e.pkt, e.cells)).eraseDups.map (·.2))

/-- A class is lossless at a destination: at one of its ports at least (R297, R302). -/
def losslessAt (s : State) (dst cls : Nat) : Bool := (portsOfPipe s dst).any fun port => lossless s port cls

/-- Bring the counts of a destination up to date, withdrawing a lossless class at fab_xoff and restoring it at fab_xon; a
drop-eligible class is never withdrawn. -/
def refreshAdmit (dst : Nat) (s : State) : State :=
  each (upTo 8) (fun c t =>
    let n := admittedCells t dst c
    let k := 8 * dst + c
    let w := mget false t.fab.withdrawn k
    let w := if !losslessAt t dst c then false
      else if cfg t .fabCreditCfg 15 0 ≤ n then true else if n ≤ cfg t .fabCreditCfg 31 16 then false else w
    modFab (fun f => { f with admitted := mset 0 f.admitted k n, withdrawn := mset false f.withdrawn k w }) t) s

/-! ### Arrival at an egress pipeline -/

/-- The first cell of a frame reaches its egress pipeline: an entry for each of its ports (R305, R315). -/
def arriveFirst (src dst : Nat) (e : VoqE) (whole : Bool) (s : State) : State :=
  let s := refreshAdmit dst s
  let n := pktCells s e.pkt
  let ct (port : Nat) : Bool := match pktOf s e.pkt with
    | some p => cutThrough s p port
    | none => false
  let s := each e.ports (fun pv t =>
    enqueue pv.1 { pkt := e.pkt, queue := e.queue, vid := pv.2, copy := e.copy, hold := e.hold, src := src, cells := n,
                   enq := t.now, charge := 0, group := 0, comQ := false, comG := false, whole := whole, ct := ct pv.1
                   waited := false } t) s
  refreshAdmit dst s

/-- The last cell of a frame has reached an egress pipeline: its entries there are whole. -/
def arriveLast (k dst : Nat) (s : State) : State :=
  let fix (l : List QEnt) : List QEnt := l.map fun x => if x.pkt = k then { x with whole := true } else x
  each ((portsHolding s k).filter fun n => pipeOfLane n = dst) (fun port t =>
    modLaunch port fix (each (upTo 16) (fun q u => if (egq u port q).isEmpty then u else modEgq port q fix u) t)) s

/-- The tag of a frame's cells at an egress pipeline: a port's queue holds those of a frame with one copy, the replicator
those of copies, and the yo-yo path those of a frame withdrawn on its way. -/
def egressTag (dst : Nat) (e : VoqE) : Nat :=
  match e.ports with
  | [] => ownerTag 8 (dst % 4)
  | (port, _) :: _ => if e.copy then ownerTag 4 (dst % 4) else queueTag port e.queue

/-- The tag of a cell that reaches an egress pipeline: that of the frame's entry, or, for a frame withdrawn on its way, of the
entry with which it has rejoined the pipeline, or the yo-yo path (R313). -/
def arrivalTag (s : State) (dst : Nat) (e : VoqE) : Nat :=
  match e.ports, (portsHolding s e.pkt).find? fun n => pipeOfLane n = dst with
  | [], some port =>
    match ((upTo 16).flatMap (egq s port ·) ++ launch s port).find? fun x => x.pkt = e.pkt with
    | some x => egressTag dst { e with ports := [(port, none)], queue := x.queue, copy := x.copy }
    | none => egressTag dst e
  | _, _ => egressTag dst e

/-! ### Die links -/

/-- The lanes a link uses: its working lanes, at most 16 (R19, R310). -/
def workingLanes (l : DieLink) : List Nat := ((upTo 17).filter (bit l.laneOk ·)).take 16

/-- The next working lane in rotation (R309). -/
def nextLane (l : DieLink) (last : Nat) : Nat :=
  let w := workingLanes l
  match w.find? fun i => last < i with
  | some i => i
  | none => w.headD 0

/-- One direction of a link. -/
def linkDir (s : State) (x : Nat) (f : Bool) : LinkDir := if f then (dieLink s x).fwd else (dieLink s x).bwd
/-- Change it. -/
def modDir (x : Nat) (f : Bool) (g : LinkDir → LinkDir) (s : State) : State :=
  modDieLink x (fun l => if f then { l with fwd := g l.fwd } else { l with bwd := g l.bwd }) s
/-- The die a direction sends from. -/
def dirSrc (x : Nat) (f : Bool) : Nat := if f then (linkEnds x).1 else (linkEnds x).2
/-- The die a direction sends to. -/
def dirDst (x : Nat) (f : Bool) : Nat := if f then (linkEnds x).2 else (linkEnds x).1

/-- The key of a pair at the source, and of its resequencer at the destination. -/
def pairKey (src dst : Nat) : Nat := 16 * src + dst
/-- The key of a resequencer. -/
def reseqKey (src dst : Nat) : Nat := 16 * dst + src
/-- A resequencer. -/
def reseqOf (s : State) (src dst : Nat) : Reseq := mget {} s.fab.reseq (reseqKey src dst)
/-- Change it. -/
def modReseq (src dst : Nat) (f : Reseq → Reseq) (s : State) : State :=
  modFab (fun x => { x with reseq := mset {} x.reseq (reseqKey src dst) (f (reseqOf s src dst)) }) s

/-- How far a seq lies past the expected one. -/
def seqAhead (e q : Nat) : Nat := (q + 65536 - e % 65536) % 65536

/-- The cell of a frame at a place, on a die: one that came over a link for a pipeline, or one of the ingress die. -/
def cellAt (s : State) (die k idx : Nat) (dst : Option Nat) : Option Nat :=
  (s.buf.cells.find? fun c =>
    decide (cellDie c.1 = die) && decide (c.2.pkt = k) && decide (c.2.idx = idx) && decide (c.2.dst = dst)).map (·.1)

/-- The cell of a frame at a place, where a source pipeline holds it. -/
def srcCell (s : State) (src k idx : Nat) : Option Nat :=
  match cellAt s (dieOfPipe src) k idx (some src) with
  | some c => some c
  | none => cellAt s (dieOfPipe src) k idx none

/-- The cell of a frame at a place that came over a link for a destination pipeline. -/
def dstCell (s : State) (dst k idx : Nat) : Option Nat := cellAt s (dieOfPipe dst) k idx (some dst)

/-- The 28 bytes of a link cell's overhead before its lcrc (R308). -/
def linkHead (c : LinkCell) : List Byte :=
  leBytes 2 c.seq ++ leBytes 1 (c.src % 16 + c.dst % 16 * 16)
    ++ leBytes 1 (c.cls % 16 + 16 * b2n c.first + 32 * b2n c.last + 64 * b2n c.lossless) ++ leBytes 1 (c.used - 1)
    ++ leBytes 3 0 ++ leBytes 4 c.ent.pkt ++ leBytes 4 c.pcrc ++ leBytes 4 c.lseq ++ leBytes 4 c.ack ++ leBytes 4 0

/-- The 32 bytes of overhead with which a cell crosses a link (R308). -/
def linkBytes (c : LinkCell) : List Byte := linkHead c ++ leBytes 4 c.lcrc

/-- The payload of a frame's cell. -/
def cellPayload (s : State) (k idx : Nat) : List Byte :=
  match pktOf s k with
  | some p => ((withFcs p.bytes).drop (256 * idx)).take 256
  | none => []

/-- A cell as it is put on a link: with the lcrc of its overhead and payload. -/
def sealCell (s : State) (c : LinkCell) : LinkCell := { c with lcrc := crcOf 1 (linkHead c ++ cellPayload s c.ent.pkt c.idx) }

/-- Send one cell of a frame across a link (R308, R309, R311). -/
def sendCell (src dst x : Nat) (f : Bool) (e : VoqE) (idx n : Nat) (s : State) : State :=
  let l := dieLink s x
  let d := linkDir s x f
  let lane := nextLane l d.lane
  let seq := mget 0 s.fab.seq (pairKey src dst)
  let src1 : Option CellRec := (srcCell s src e.pkt idx).bind (cellRec s)
  let ll := match pktOf s e.pkt with
    | some p => decide (0 < p.charged)
    | none => false
  let c : LinkCell := sealCell s
    { seq := seq, src := src, dst := dst, cls := e.queue, first := decide (idx = 0), last := decide (idx + 1 = n), lseq := d.next
      lane := lane, ent := e, idx := idx, at_ := s.now, wire := true
      used := match src1 with | some r => r.used | none => 256
      lossless := ll
      pcrc := match src1 with | some r => r.crc | none => 0
      ack := ((linkDir s x (!f)).got + 2 ^ 32 - 1) % 2 ^ 32
      lcrc := 0 }
  let s := modDir x f (fun d => { d with next := (d.next + 1) % 2 ^ 32, unacked := d.unacked ++ [c], lane := lane }) s
  let s := modFab (fun g => { g with seq := mset 0 g.seq (pairKey src dst) ((seq + 1) % 65536) }) s
  let s := match srcCell s src e.pkt idx with
    | some k => if e.copy then s else moveCell (heldTag s k) (ownerTag 5 x) k s
    | none => s
  cntInc 0x0882 (dirSrc x f) 9 s

/-- Resend a cell on another working lane (R309). -/
def resend (x : Nat) (f : Bool) (lseq : Nat) (s : State) : State :=
  match (linkDir s x f).unacked.find? (fun c => c.lseq = lseq) with
  | none => s
  | some c =>
    let lane := nextLane (dieLink s x) c.lane
    let s := modDir x f (fun d => { d with
      unacked := d.unacked.map fun y =>
        if y.lseq = lseq then
          sealCell s { y with lane := lane, wire := true, at_ := s.now, ack := ((linkDir s x (!f)).got + 2 ^ 32 - 1) % 2 ^ 32 }
        else y }) s
    cntInc 0x0882 (dirSrc x f) 3 s

/-! ### Moving a burst (R304–R306) -/

/-- The link a pair of pipelines crosses. -/
def pairLink (src dst : Nat) : Option (Nat × Bool) := linkBetween (dieOfPipe src) (dieOfPipe dst)

/-- The link lets a burst go: its transmitter has room for it (log 107), and the pair's reorder window allows it (R305,
R311). -/
def pairRoom (s : State) (src dst : Nat) : Bool :=
  if dieOfPipe src = dieOfPipe dst then true
  else
    match pairLink src dst with
    | none => false
    | some (x, f) =>
      decide ((linkDir s x f).unacked.length + 8 ≤ Config.linkRoom) && (dieLink s x).up && decide (workingLanes (dieLink s x) ≠ [])
        && decide (seqAhead (reseqOf s src dst).e (mget 0 s.fab.seq (pairKey src dst)) + 8 ≤ 4096)

/-- A queue is eligible toward its destination (R305). -/
def voqEligible (s : State) (src dst cls : Nat) : Bool :=
  decide (voq s src dst cls ≠ []) && !(decide (cls < 8) && mget false s.fab.withdrawn (8 * dst + cls)) && pairRoom s src dst

/-- A source has an eligible queue toward a destination. -/
def anyEligible (s : State) (src dst : Nat) : Bool := (upTo 16).any (voqEligible s src dst)

/-- Move up to n cells of a queue, in queue order. fuel bounds the frames touched. -/
def moveBurst (src dst cls : Nat) : Nat → Nat → State → State
  | 0, _, s => s
  | fuel + 1, n, s =>
    match voq s src dst cls with
    | [] => s
    | e :: rest =>
      match pktOf s e.pkt with
      | none => moveBurst src dst cls fuel n (modVoq src dst cls (fun _ => rest) s)
      | some _ =>
        if n = 0 then s
        else
          let total := pktCells s e.pkt
          let m := Nat.min n (total - e.sent)
          let done := decide (total ≤ e.sent + m)
          let s := modVoq src dst cls (fun _ => if done then rest else { e with sent := e.sent + m } :: rest) s
          let s := match pairLink src dst with
            | none =>
              let s := if e.sent = 0 then arriveFirst src dst e done s else s
              let s := each ((upTo m).map (e.sent + ·)) (fun i t =>
                match srcCell t src e.pkt i with
                | some k => if e.copy then t else moveCell (heldTag t k) (egressTag dst e) k t
                | none => t) s
              if done then stageFree e.pkt (arriveLast e.pkt dst s) else s
            | some (x, f) => each ((upTo m).map (e.sent + ·)) (fun i t => sendCell src dst x f e i total t) s
          moveBurst src dst cls fuel (n - m) s

/-- The class a source offers next toward a destination (R305). -/
def nextClass (s : State) (src dst : Nat) : Option Nat :=
  let r := mget 0 s.fab.rr (16 * src + dst)
  (upTo 16).findSome? fun i => let c := (r + i) % 16; if voqEligible s src dst c then some c else none

/-- One matched pair moves its burst of up to 8 cells (R306). -/
def movePair (src dst : Nat) (s : State) : State :=
  match nextClass s src dst with
  | none => s
  | some c =>
    let s := modFab (fun f => { f with rr := mset 0 f.rr (16 * src + dst) ((c + 1) % 16) }) s
    moveBurst src dst c ((voq s src dst c).length + 1) 8 s

/-! ### The match (R306) -/

/-- The first number of a list at or after a spinner, wrapping. -/
def spin (l : List Nat) (p : Nat) : Option Nat :=
  match l.find? fun i => p ≤ i with
  | some i => some i
  | none => l.head?

/-- The copies whose pointers move: both while compared, else the active one. -/
def liveCopies (s : State) : List Nat := if s.fab.compare then [0, 1] else [b2n s.fab.active]

/-- One round: grants, then accepts; the pairs it adds. A pipeline whose domain is down is absent from the arbiter
(R502). -/
def matchRound (s : State) (copy : Nat) (pairs : List (Nat × Nat)) : List (Nat × Nat) :=
  let ps := (pipelines s.part).filter fun p => domWorks s (domPipe p)
  let srcs := ps.filter fun i => !pairs.any fun m => m.1 = i
  let dsts := ps.filter fun j => !pairs.any fun m => m.2 = j
  let grants := dsts.filterMap fun j =>
    (spin (srcs.filter fun i => anyEligible s i j) (mget 0 s.fab.grant (16 * copy + j))).map fun i => (i, j)
  srcs.filterMap fun i =>
    (spin ((grants.filter fun g => g.1 = i).map (·.2)) (mget 0 s.fab.accept (16 * copy + i))).map fun j => (i, j)

/-- After an acceptance in the first round the spinners move on. -/
def spinOn (pairs : List (Nat × Nat)) (s : State) : State :=
  each (liveCopies s) (fun c t => each pairs (fun m u => modFab (fun f => { f with
    grant := mset 0 f.grant (16 * c + m.2) ((m.1 + 1) % 16)
    accept := mset 0 f.accept (16 * c + m.1) ((m.2 + 1) % 16) }) u) t) s

/-- ARBITER_MATCH: one slot. differ says that the copies' matches differ in it (R307). -/
def arbiterMatch (differ : Bool) (s : State) : State :=
  if s.fab.checking then s
  else if differ && s.fab.compare then
    let s := cntInc 0x0882 0 1 (cntInc 0x0882 0 0 s)
    raise 0x100 evFabArbMismatch 0 0 0 0 (modFab (fun f => { f with checking := true }) s)
  else
    let s := each (pipelines s.part) refreshAdmit s
    let held := (s.fab.withdrawn.filter fun w => s.fab.voq.any fun v => decide (v.1 / 16 % 16 = w.1 / 8) && decide (v.1 % 16 = w.1 % 8))
    let s := if held = [] then s else cntInc 0x0882 0 11 s
    let copy := b2n (!s.fab.compare && s.fab.active)
    let r1 := matchRound s copy []
    let r2 := r1 ++ matchRound s copy r1
    let r3 := r2 ++ matchRound s copy r2
    each r3 (fun m t => movePair m.1 m.2 t) (spinOn r1 s)

/-- Copy the pointers of one arbiter copy to the other. -/
def loadPointers (src dst : Nat) (s : State) : State :=
  each (upTo 16) (fun i t => modFab (fun f => { f with
    grant := mset 0 f.grant (16 * dst + i) (mget 0 f.grant (16 * src + i))
    accept := mset 0 f.accept (16 * dst + i) (mget 0 f.accept (16 * src + i)) }) t) s

/-- ARBITER_SELF_CHECK_END (R307). -/
def selfCheckEnd (q0 q2 : Bool) (s : State) : State :=
  if !s.fab.checking then s
  else
    let s := modFab (fun f => { f with checking := false, q0ok := q0, q2ok := q2, checkAt := s.now }) s
    if q0 && q2 then loadPointers 0 1 (modFab (fun f => { f with compare := true }) s)
    else
      let s := modFab (fun f => { f with compare := false, active := !q0 && q2 }) s
      raiseSev (if q0 || q2 then 2 else 3) 0x100 evFabArbFail 0 0 0 0 s

/-- FAILED_COPY_SELF_CHECK: 1 s after the last self-check, the copy that failed is checked again, the one that is not active
first; when both copies are good the one that is not active loads its pointers from the active one, and comparison
resumes (R307). -/
def failedCopyCheck (pass : Bool) (s : State) : State :=
  if s.fab.checking || (s.fab.q0ok && s.fab.q2ok) || decide (s.now < s.fab.checkAt + 10 ^ 12) then s
  else
    let s := modFab (fun f => { f with checkAt := s.now }) (cntInc 0x0882 0 1 s)
    if !pass then s
    else
      let two := !s.fab.q2ok && (!s.fab.active || s.fab.q0ok)
      let s := modFab (fun f => if two then { f with q2ok := true } else { f with q0ok := true }) s
      if !(s.fab.q0ok && s.fab.q2ok) then s
      else
        let a := b2n s.fab.active
        modFab (fun f => { f with compare := true }) (loadPointers a (1 - a) s)

/-! ### Resequencing (R311, R312) -/

/-- Free the cell a link cell occupies on its destination die. -/
def freeLinkCell (c : LinkCell) (s : State) : State :=
  match dstCell s c.dst c.ent.pkt c.idx with
  | some k =>
    let s := freeCell (heldTag s k) k s
    modPkt c.ent.pkt (fun p => { p with dcells := p.dcells.filter (· ≠ k) }) s
  | none => s

/-- Release a cell in order to its egress pipeline. -/
def releaseCell (c : LinkCell) (s : State) : State :=
  match pktOf s c.ent.pkt with
  | none => s
  | some _ =>
    let s := if c.first then arriveFirst c.src c.dst c.ent c.last s else s
    let s := match dstCell s c.dst c.ent.pkt c.idx with
      | some k => moveCell (heldTag s k) (arrivalTag s c.dst c.ent) k s
      | none => s
    if c.last then stageFree c.ent.pkt (arriveLast c.ent.pkt c.dst s) else s

/-- Release the run of held cells from E on. n bounds it. -/
def releaseRun (src dst : Nat) : Nat → State → State
  | 0, s => s
  | n + 1, s =>
    let r := reseqOf s src dst
    match r.held.find? (fun c => c.seq = r.e) with
    | none => s
    | some c =>
      let s := modReseq src dst (fun r => { r with e := (r.e + 1) % 65536, held := r.held.filter fun y => y.seq ≠ c.seq }) s
      releaseRun src dst n (releaseCell c s)

/-- The gap timer runs while held cells wait for a missing E. -/
def gapTimer (src dst : Nat) (s : State) : State :=
  modReseq src dst (fun r => { r with gap := if r.held = [] then none else some s.now }) s

/-- A cell reaches its resequencer (R311, R312). -/
def reseqCell (c : LinkCell) (s : State) : State :=
  let r := reseqOf s c.src c.dst
  let d := seqAhead r.e c.seq
  if 32768 ≤ d then freeLinkCell c (cntInc 0x0882 (dieOfPipe c.dst) 8 s)
  else if d = 0 then
    let s := if r.held = [] then s else cntInc 0x0882 (dieOfPipe c.dst) 5 s
    let s := releaseCell c (modReseq c.src c.dst (fun r => { r with e := (r.e + 1) % 65536 }) s)
    gapTimer c.src c.dst (releaseRun c.src c.dst r.held.length s)
  else
    modReseq c.src c.dst (fun r => { r with
      held := r.held ++ [c]
      gap := match r.gap with
        | some t => some t
        | none => some s.now }) s

/-- A frame lost at a gap: it is dropped from its queues, or stomped when it has begun to leave (R312). -/
def loseFrame (e : VoqE) (s : State) : State :=
  match pktOf s e.pkt with
  | none => s
  | some _ =>
    each e.ports (fun pv t =>
      match mget none t.egs.sending pv.1 with
      | some d => if d.ent.pkt = e.pkt then modPkt e.pkt (fun p => { p with stomp := true }) t else drop pv.1 t
      | none => drop pv.1 t) s
where
  /-- Take the copy out of a port's queue and launch list. -/
  drop (port : Nat) (t : State) : State :=
    unref e.pkt (modLaunch port (·.filter fun x => x.pkt ≠ e.pkt) (modEgq port e.queue (·.filter fun x => x.pkt ≠ e.pkt) t))

/-- Cells of a pair still at the transmitter. -/
def pairUnacked (s : State) (src dst : Nat) : List LinkCell :=
  match pairLink src dst with
  | some (x, f) => (linkDir s x f).unacked.filter fun c => c.src = src ∧ c.dst = dst
  | none => []

/-- RESEQ_GAP_TIMEOUT (R312). -/
def reseqGapTimeout (src dst : Nat) (s : State) : State :=
  let r := reseqOf s src dst
  match r.gap with
  | none => s
  | some t =>
    if s.now < t + cfg1 s .fabReseqCfg 7 0 * 10 ^ 6 ∨ r.held = [] then s
    else
      let die := dieOfPipe dst
      let s := raise (0x110 + dst) evFabSeqGap src dst r.e 0 (cntInc 0x0882 die 6 s)
      let ahead (c : LinkCell) : Nat := seqAhead r.e c.seq
      let lowest := minL (r.held.map ahead)
      let starts := (r.held.filter (·.first)).map ahead
      let next := if starts = [] then (r.held.map ahead).foldl Nat.max 0 + 1 else minL starts
      let gone := r.held.filter fun c => ahead c < next
      let missing := (pairUnacked s src dst).filter fun c => decide (ahead c < lowest) && decide (ahead c < 32768)
      let ents := (missing ++ gone).map (·.ent)
      let lost := ents.foldl (fun (l : List VoqE) e => if l.any fun x => x.pkt = e.pkt then l else l ++ [e]) []
      let s := modReseq src dst (fun r => { r with
        e := (r.e + next) % 65536
        held := r.held.filter fun c => next ≤ ahead c
        lost := lost.map (·.pkt) }) s
      let s := each gone freeLinkCell s
      let s := each lost (fun e t => loseFrame e (cntInc 0x0882 die 7 t)) s
      gapTimer src dst (releaseRun src dst r.held.length s)

/-! ### Link rows -/

/-- The oldest cell on the wire of a lane. -/
def wireCell (s : State) (x : Nat) (f : Bool) (lane : Nat) : Option LinkCell :=
  (linkDir s x f).unacked.find? fun c => c.wire && decide (c.lane = lane)

/-- A receiver takes a link_seq it has not accepted before: got and the ones ahead of it move on (R308, R309). -/
def acceptSeq (d : LinkDir) (lseq : Nat) : LinkDir :=
  let rec go : Nat → Nat → List Nat → Nat × List Nat
    | 0, g, l => (g, l)
    | n + 1, g, l => if l.contains g then go n ((g + 1) % 2 ^ 32) (l.filter (· ≠ g)) else (g, l)
  let (g, l) := go (d.ahead.length + 1) d.got (d.ahead ++ [lseq])
  { d with got := g, ahead := l, acks := if g = d.got then d.acks else d.acks ++ [(g + 2 ^ 32 - 1) % 2 ^ 32] }

/-- A cell that came over a link is linked to its frame's next cell, and the one before it to it (R290). -/
def linkNext (die k idx dst new : Nat) (s : State) : State :=
  let nxt := cellAt s die k (idx + 1) (some dst)
  let before (e : Nat × CellRec) : Bool :=
    decide (cellDie e.1 = die) && decide (e.2.pkt = k) && decide (e.2.dst = some dst) && decide (e.2.idx + 1 = idx)
  let join (e : Nat × CellRec) : Nat × CellRec :=
    if e.1 = new then (e.1, { e.2 with next := nxt }) else if before e then (e.1, { e.2 with next := some new }) else e
  modBuf (fun b => { b with cells := b.cells.map join }) s

/-- LINK_CELL_RECEIVE (R309). A cell that is not permitted a cell on its die waits on the wire (R294). -/
def linkCellReceive (x : Nat) (f : Bool) (lane : Nat) (intact : Bool) (s : State) : State :=
  match wireCell s x f lane with
  | none => s
  | some c =>
    let die := dirDst x f
    let off (s : State) : State := modDir x f (fun d => { d with
      unacked := d.unacked.map fun y => if y.lseq = c.lseq then { y with wire := false } else y }) s
    if !intact then
      let s := modDir x f (fun d => { d with naks := d.naks ++ [c.lseq], errs := mset 0 d.errs lane (mget 0 d.errs lane + 1) }) (off s)
      cntInc 0x0882 die 2 s
    else
      let d := linkDir s x f
      let again := !wrapGe 32 c.lseq d.got || d.ahead.contains c.lseq
      if again then off s
      else
        let r := reseqOf s c.src c.dst
        let late := decide (32768 ≤ seqAhead r.e c.seq)
        let lostF := (pktOf s c.ent.pkt).isNone
        if late || lostF then
          reseqCell c (cntInc 0x0882 die 10 (modDir x f (acceptSeq · c.lseq) (off s)))
        else
          match askCells die ⟨8 + c.dst % 4, c.ent.pkt, 1, true⟩ s with
          | (false, s) => s
          | (true, s) =>
            match allocCell die (8 + c.dst % 4) ⟨ownerTag 6 (16 * (c.dst % 4) + c.src), c.ent.pkt, c.idx, c.used, none, c.pcrc,
                false, false, some c.dst⟩ s with
            | none => s
            | some (k, s) =>
              let s := linkNext die c.ent.pkt c.idx c.dst k s
              let s := modPkt c.ent.pkt (fun p => { p with dcells := p.dcells ++ [k] }) s
              reseqCell c (cntInc 0x0882 die 10 (modDir x f (acceptSeq · c.lseq) (off s)))

/-- Free the source cell of an acknowledged link cell (R309), off its ingress account (R299); the cells of copies go when
their stage has no copy left (R315). -/
def freeAcked (x : Nat) (c : LinkCell) (s : State) : State :=
  match srcCell s c.src c.ent.pkt c.idx with
  | none => s
  | some k =>
    if heldTag s k ≠ ownerTag 5 x then (if c.ent.copy then stageFree c.ent.pkt s else s)
    else
      match pktOf s c.ent.pkt with
      | none => s
      | some p =>
        let s := freeCell (ownerTag 5 x) k s
        if p.cells.contains k then
          let s := if 0 < p.charged then unchargeCell p.port p.pri s else s
          modPkt c.ent.pkt (fun p => { p with cells := p.cells.filter (· ≠ k), charged := p.charged - 1 }) s
        else modPkt c.ent.pkt (fun p => { p with dcells := p.dcells.filter (· ≠ k) }) s

/-- LINK_ACK (R309). -/
def linkAck (x : Nat) (f : Bool) (s : State) : State :=
  match (linkDir s x f).acks with
  | [] => s
  | v :: rest =>
    let gone := (linkDir s x f).unacked.filter fun c => wrapGe 32 v c.lseq
    let s := modDir x f (fun d => { d with acks := rest, unacked := d.unacked.filter fun c => !wrapGe 32 v c.lseq }) s
    each gone (freeAcked x) s

/-- LINK_NAK (R309). -/
def linkNak (x : Nat) (f : Bool) (s : State) : State :=
  match (linkDir s x f).naks with
  | [] => s
  | v :: rest => resend x f v (modDir x f (fun d => { d with naks := rest }) s)

/-- LINK_RESEND_TIMEOUT: 200 ns without an ack (R309). -/
def linkResend (x : Nat) (f : Bool) (s : State) : State :=
  match (linkDir s x f).unacked.find? (fun c => decide (c.at_ + 200000 ≤ s.now)) with
  | some c => resend x f c.lseq s
  | none => s

/-- A die whose every link to Q0 is down loses its alignment (R212). -/
def checkAlign (s : State) : State :=
  each (dies s.part) (fun d t =>
    let joins := (linksOf t.part).filter fun x => linkEnds x = (0, d) ∨ linkEnds x = (d, 0)
    if d ≠ 0 ∧ mget false t.aligned d ∧ joins.all (fun x => !(dieLink t x).up) then
      raise (fleSrc (2 * d) 6) evCtimeAlignLost 0 0 0 0 { t with aligned := mset false t.aligned d false }
    else t) s

/-- Retire a lane: its traffic goes to the spare, or on fewer lanes, or the link goes down (R310).
DESIGN CHOICE (log 103): a link has one set of lanes, the bits of FAB_DL_STATUS, for both directions (R19), so a lane
retired for errors one way is retired both ways. -/
def retireLane (x lane : Nat) (s : State) : State :=
  let l := dieLink s x
  let spare := bit l.laneOk 16 && decide (((upTo 16).all (bit l.laneOk ·)) = true) && decide (lane < 16)
  let s := modDieLink x (fun l =>
    let l := { l with laneOk := l.laneOk - (if bit l.laneOk lane then 2 ^ lane else 0) }
    { l with inUse := (workingLanes l).length, up := l.up && decide (workingLanes l ≠ []) }) s
  let s := cntInc 0x0882 (linkEnds x).1 4 s
  let s := each [true, false] (fun f t =>
    each (((linkDir t x f).unacked.filter fun c => c.wire && decide (c.lane = lane)).map (·.lseq)) (fun q u => resend x f q u) t) s
  if (workingLanes (dieLink s x)) = [] then checkAlign (raise (0x108 + x) evDlDown 0 0 0 0 s)
  else raise (0x108 + x) (if spare then evDlLaneSpared else evDlLaneLost) lane 0 0 0 s

/-- A lane's next interval begins. -/
def nextInterval (x lane : Nat) (s : State) : State :=
  let g (d : LinkDir) : LinkDir := { d with errs := mset 0 d.errs lane 0, since := mset 0 d.since lane s.now }
  modDir x false g (modDir x true g s)

/-- LANE_ERROR_INTERVAL: a lane's count of lcrc errors is looked at: above lane_err_limit the lane is retired, and once its
1 ms has passed the next interval begins (R310). -/
def laneErrorInterval (x lane : Nat) (s : State) : State :=
  let l := dieLink s x
  let n := Nat.max (mget 0 l.fwd.errs lane) (mget 0 l.bwd.errs lane)
  if cfg s (.fabDlCfg x) 15 0 < n ∧ bit l.laneOk lane then retireLane x lane (nextInterval x lane s)
  else if mget 0 l.fwd.since lane + 10 ^ 9 ≤ s.now then nextInterval x lane s
  else s

/-- Change the queue entries that ride on link cells. -/
def mapLinkEnts (f : VoqE → VoqE) (s : State) : State :=
  let c (l : List LinkCell) : List LinkCell := l.map fun x => { x with ent := f x.ent }
  modFab (fun b => { b with
    links := b.links.map fun e => (e.1, { e.2 with
      fwd := { e.2.fwd with unacked := c e.2.fwd.unacked }, bwd := { e.2.bwd with unacked := c e.2.bwd.unacked } })
    reseq := b.reseq.map fun e => (e.1, { e.2 with held := c e.2.held }) }) s

/-- A copy bound for a port goes no further: its entry in a virtual output queue, on the link or in a resequencer names the
port no more. -/
def forgoPort (k port : Nat) (s : State) : State :=
  let cut (e : VoqE) : VoqE := if e.pkt = k then { e with ports := e.ports.filter fun pv => pv.1 ≠ port } else e
  let idle (e : VoqE) : Bool := decide (e.pkt = k) && decide (e.sent = 0) && e.ports.isEmpty
  let s := modFab (fun f => { f with voq := (f.voq.map fun v => (v.1, (v.2.map cut).filter fun e => !idle e)).filter fun v => v.2 ≠ [] }) s
  mapLinkEnts cut s

/-- MCAST_HOLD_EXPIRY: a copy that has not begun at its port when its hold time expires is dropped, wherever it waits: in its
egress queue, a virtual output queue, or a resequencer (R240, R316). -/
def mcastHoldExpiry (k port : Nat) (s : State) : State :=
  match pktOf s k with
  | none => s
  | some p =>
    let late (hold : Nat) (ct : Bool) : Bool := match eligFrom p ct with
      | some t => decide (0 < hold) && decide (t + hold * 10 ^ 6 ≤ s.now)
      | none => false
    let cnt : Nat × Nat × Nat × Nat := (0x0881, dieOfLane port, 12, 1)
    match ((upTo 16).flatMap (egq s port ·) ++ launch s port).find? fun e => e.pkt = k ∧ e.copy with
    | some e =>
      if late e.hold e.ct then
        let gone := (egq s port e.queue ++ launch s port).filter fun x => x.pkt = k
        let s := modLaunch port (·.filter fun x => x.pkt ≠ k) (modEgq port e.queue (·.filter fun x => x.pkt ≠ k) s)
        each gone (fun x t => dropEnt x cnt t) (formQueueTag port e.queue s)
      else s
    | none =>
      let ents := (voqsOf s k).map (·.2.2) ++ (linkCellsOf s k).map (·.ent)
      match ents.find? fun e => e.copy && (e.ports.any fun pv => pv.1 = port) && late e.hold (cutThrough s p port) with
      | none => s
      | some e =>
        let n := (e.ports.filter fun pv => pv.1 = port).length
        each (List.replicate n ()) (fun _ t => dropUse k cnt t) (forgoPort k port s)

/-! ### Rows -/

/-- ARBITER_MATCH. -/
def execArbiterMatch (differ : Bool) (s : State) : Out := .next (arbiterMatch differ s)
/-- ARBITER_SELF_CHECK_END. -/
def execArbiterSelfCheckEnd (q0 q2 : Bool) (s : State) : Out := .next (selfCheckEnd q0 q2 s)
/-- FAILED_COPY_SELF_CHECK. -/
def execFailedCopySelfCheck (pass : Bool) (s : State) : Out := .next (failedCopyCheck pass s)
/-- LINK_CELL_RECEIVE. -/
def execLinkCellReceive (link : Nat) (forward : Bool) (lane : Nat) (intact : Bool) (s : State) : Out :=
  .next (linkCellReceive link forward lane intact s)
/-- LINK_ACK. -/
def execLinkAck (link : Nat) (forward : Bool) (s : State) : Out := .next (linkAck link forward s)
/-- LINK_NAK. -/
def execLinkNak (link : Nat) (forward : Bool) (s : State) : Out := .next (linkNak link forward s)
/-- LINK_RESEND_TIMEOUT. -/
def execLinkResendTimeout (link : Nat) (forward : Bool) (s : State) : Out := .next (linkResend link forward s)
/-- LANE_ERROR_INTERVAL. -/
def execLaneErrorInterval (link lane : Nat) (s : State) : Out := .next (laneErrorInterval link lane s)
/-- RESEQ_GAP_TIMEOUT. -/
def execReseqGapTimeout (src dst : Nat) (s : State) : Out := .next (reseqGapTimeout src dst s)
/-- MCAST_HOLD_EXPIRY. -/
def execMcastHoldExpiry (packet port : Nat) (s : State) : Out := .next (mcastHoldExpiry packet port s)

end Sys2Proof.Machine
end

