-- ==== Sys2Proof/Machine/Fate.lean ====
section
/-! DEFINITION. The fate of a frame: forwarding targets (R140, R162, R163), replication (R314, R315), the flow action on
top of the classification result (R181), queueing, punts (R73) and drops. -/

namespace Sys2Proof.Machine

/-- The forwarding-drop counter of a packet's die (R169). -/
def fwdDrop (p : Pkt) : Fate := .drop (some (0x0281, dieOfPipe p.pipe, 15))

/-- A port as a destination: one on a die the part does not have is a host error, and the frame is dropped (R3, R6). -/
def portFate (s : State) (p : Pkt) (n : Nat) : Fate :=
  if hasDie s.part (dieOfLane n) then .ports [(n, none)] false 0 0 else fwdDrop p

/-- A LAG's port (R163): a group that is invalid drops the pass as IND_INVALID (R121). -/
def lagFate (s : State) (p : Pkt) (g h0 h1 : Nat) : Fate :=
  match lagPort s p.pipe p.epoch g h0 h1 with
  | none => .drop (some (0x0182, p.pipe, 6))
  | some none => fwdDrop p
  | some (some port) => .ports [(port, none)] false 0 0

/-- A next hop's fate (R162). len is the frame's length as sent, without FCS. -/
def nextHopFate (s : State) (p : Pkt) (h : Hop) (len h0 h1 : Nat) : Fate :=
  let t := fld h.img 19 0
  if tgtKind t ≠ 6 ∧ tgtKind t ≠ 7 ∧ tgtKind t ≠ 0 ∧ fld h.img 103 90 < len then
    .punt (cfg s (.fwdPuntCfg (dieOfPipe p.pipe)) 7 0) 8 false
  else match tgtKind t with
    | 3 => portFate s p (tgtIndex t % 512)
    | 4 => lagFate s p (tgtIndex t) h0 h1
    | 7 => .punt (tgtIndex t % 256) 1 true
    | _ => fwdDrop p

/-- One member of a replication group (R314) joins the copies and the count of LAG members with no port up: its port, without
the ingress port unless self_ok; a LAG is resolved with hash 0. None when its LAG group is invalid, which drops the pass
(R121); a member of another kind, or on a die the part does not have, is a host error and makes no copy. -/
def addMember (s : State) (p : Pkt) (h0 m : Nat) (l : List (Nat × Option Nat) × Nat) : Option (List (Nat × Option Nat) × Nat) :=
  let t := fld m 19 0
  let add (n : Nat) : List (Nat × Option Nat) × Nat :=
    if decide (n = p.port) && !bit m 34 || !hasDie s.part (dieOfLane n) then l
    else (l.1 ++ [(n, if bit m 32 then some (fld m 31 20) else none)], l.2)
  if !bit m 33 then some l
  else if tgtKind t = 3 then some (add (tgtIndex t % 512))
  else if tgtKind t = 4 then
    match lagPort s p.pipe p.epoch (tgtIndex t) h0 h0 with
    | none => none
    | some none => some (l.1, l.2 + 1)
    | some (some n) => some (add n)
  else some l

/-- The copies of a replication group (R314), with the members whose LAG has no port up. -/
def groupPorts (s : State) (p : Pkt) (g h0 : Nat) : Option (List (Nat × Option Nat) × Nat) :=
  let die := dieOfPipe p.pipe
  let e := objGet s 0x0801 die 0 (g % 65536)
  (upTo (fld e 29 18)).foldl (fun a i => a.bind (addMember s p h0 (objGet s 0x0802 die 0 ((fld e 17 0 + i) % 262144)))) (some ([], 0))

/-- The fate a replication group gives: dropped when it is invalid, or as IND_INVALID when a member's LAG is (R121, R314). -/
def groupFate (s : State) (p : Pkt) (g h0 : Nat) : Fate :=
  let e := objGet s 0x0801 (dieOfPipe p.pipe) 0 (g % 65536)
  if !bit e 30 then fwdDrop p
  else match groupPorts s p g h0 with
    | none => .drop (some (0x0182, p.pipe, 6))
    | some (l, down) => .ports l true (if fld e 46 31 = 0 then 100 else fld e 46 31) down

/-- The next hop a target names: itself, or the member a hash selects; none for other kinds (R163). -/
def targetHop (s : State) (p : Pkt) (t h0 h1 : Nat) : Option (Option Nat) :=
  match tgtKind t with
  | 1 => some (some (tgtIndex t))
  | 2 => some ((indirect s p.pipe p.epoch (tgtIndex t) h0 h1).map (· % 131072))
  | _ => none

/-- A frame's length as sent through a next hop, without FCS (R162). -/
def hopLen (p : Pkt) (h : Hop) : Nat := (editRoute p.tc h (passBytes p) p.snap.hdrs).1.length

/-- The fate a target gives as it is looked up (R140, R168), with the next hop used. -/
def targetFate (s : State) (p : Pkt) (t h0 h1 : Nat) : Fate × Option Hop :=
  match targetHop s p t h0 h1 with
  | some none => (.drop (some (0x0182, p.pipe, 6)), none)
  | some (some i) =>
    let h := hopAt s (dieOfPipe p.pipe) (i % 131072)
    (nextHopFate s p h (hopLen p h) h0 h1, some h)
  | none =>
    match tgtKind t with
    | 3 => (portFate s p (tgtIndex t % 512), none)
    | 4 => (lagFate s p (tgtIndex t) h0 h1, none)
    | 5 => (groupFate s p (tgtIndex t) h0, none)
    | 7 => (.punt (tgtIndex t % 256) 1 true, none)
    | _ => (fwdDrop p, none)

/-- The flow disposition of an action block; codes 5–15 are a host error, taken as FOLLOW. -/
def fdisp (action : Nat) : Nat := if 5 ≤ fld action 3 0 then 0 else fld action 3 0

/-- The destination after the flow action: the backend's, the action's, or the classification's (R181, R203). -/
def finalTarget (s : State) (p : Pkt) (sn : Snap) (action : Nat) (backend : Option Nat) : Nat :=
  match backend with
  | some b => fld (tEntry s (dieOfPipe p.pipe) 0x0505 b) 19 0
  | none => if fdisp action = 1 then fld action 23 4 else sn.target

/-- What the destination gives: what the classification's target gave when it was looked up (R125, R168), or what the target
of the action or the backend gives now. -/
def destFate (s : State) (p : Pkt) (sn : Snap) (action : Nat) (backend : Option Nat) : Fate × Option Hop :=
  match (if backend.isNone && decide (fdisp action ≠ 1) then sn.res else none) with
  | some r => r
  | none => targetFate s p (finalTarget s p sn action backend) sn.hash0 sn.hash1

/-- The classification's target is looked up: the snapshot keeps what it gives (R125, R168). -/
def resolveSnap (s : State) (p : Pkt) (sn : Snap) : Snap :=
  let sn := { sn with cdisp := sn.disp }
  if sn.disp = 2 ∨ sn.disp = 3 ∨ sn.disp = 5 ∨ sn.dropCnt.isSome then sn
  else { sn with res := some (targetFate s { p with snap := sn } sn.target sn.hash0 sn.hash1) }

/-- The fate of a pass: the flow action applied to the classification result (R118, R181), with the next hop used. -/
def passFate (s : State) (p : Pkt) (sn : Snap) (action : Nat) (backend : Option Nat) : Fate × Option Hop :=
  match fdisp action with
  | 2 => (.drop none, none)
  | 3 => (.punt (fld action 96 89) 1 false, none)
  | 4 => (.core (fld action 94 89), none)
  | f =>
    if sn.disp = 2 then (.drop sn.dropCnt, none)
    else if sn.disp = 3 then (.punt sn.puntRing sn.reason false, none)
    else if sn.disp = 5 then (.recirculate, none)
    else if sn.dropCnt.isSome ∧ f = 0 ∧ backend.isNone then (.drop sn.dropCnt, none)
    else destFate s p sn action backend

/-! ### Queueing -/

/-- Ports grouped by their egress pipeline, in the order in which each pipeline first appears. -/
def byPipe (l : List (Nat × Option Nat)) : List (Nat × List (Nat × Option Nat)) :=
  (l.map fun e => pipeOfLane e.1).eraseDups.map fun p => (p, l.filter fun e => pipeOfLane e.1 = p)

/-- A frame joins the virtual output queues toward its ports (R305, R315), from the pipeline that holds its cells. -/
def queueFrame (k src queue : Nat) (l : List (Nat × Option Nat)) (copy : Bool) (hold : Nat) (s : State) : State :=
  let s := modPkt k (fun p => { p with refs := l.length }) s
  each (byPipe l) (fun e t => joinVoq src e.1 { pkt := k, ports := e.2, queue := queue, sent := 0, copy := copy, hold := hold } t) s

/-- The traffic class after classification and flow action (R117, R181, R297). -/
def finalTc (p : Pkt) (sn : Snap) (action : Nat) : Nat :=
  if bit action 57 then fld action 61 58 else match sn.tc with
    | some t => t
    | none => p.pri

/-! ### Punts -/

/-- The pass that decided a packet's result: its last. -/
def lastPass (s : State) (k : Nat) (p : Pkt) : Option Pass := ((pipe s p.pipe).passes.filter fun q => q.pkt = k).getLast?

/-- The punt of a packet: reason, ring, session and the captured bytes (R73). -/
def puntFor (s : State) (k : Nat) (p : Pkt) (ringNo reason session : Nat) (data : List Byte) (frameLen : Nat) : Punt :=
  let q := lastPass s k p
  let fl := match q with
    | some x => match x.record with
      | some r => r + x.version * 2 ^ 32
      | none => 0
    | none => 0
  { ring := ringNo % 256, reason := reason, port := p.port, frameLen := frameLen, stamp := p.stamp
    flags := b2n (decide (data.length < frameLen)) + 4 * b2n p.snap.depth + 8 * b2n p.epoch + 16 * b2n p.stampOk
    flow := fl, rule := p.snap.rule, session := session, data := data, pipe := p.pipe, pkt := k
    ncells := p.cells.length + p.dcells.length, since := s.now, drawn := [] }

/-- Punt a confirmed packet (R73, R78, R241): it leaves the pipeline's tables and the punt holds its cells. A P2P message is
counted (R371, R386). -/
def puntPkt (k ringNo reason : Nat) (s : State) : State :=
  match pktOf s k with
  | none => s
  | some p =>
    let u := puntFor s k p ringNo reason 0 p.bytes p.bytes.length
    let s := if reason = 6 then cntInc 0x0A81 0 7 s else s
    puntRequest u (forgetPasses k (leaveEpoch k s))

/-- Drop a packet, charging its cause (R230, R242). -/
def dropFrame (k : Nat) (cnt : Option (Nat × Nat × Nat)) (s : State) : State :=
  match cnt with
  | some (o, u, i) => endPkt k (cntInc o u i s)
  | none => endPkt k s

/-- Send a frame that needs no further confirmation to its fate (R255): used for frames of tasks. -/
def sendFate (k : Nat) (f : Fate) (nh : Option Hop) (s : State) : State :=
  match pktOf s k with
  | none => s
  | some p =>
    let s := modPkt k (fun x => { x with
      task := false
      flowOk := true
      noticed := true
      noticeAt := s.now
      check := some true
      snap := { x.snap with nh := nh, routed := x.snap.routed || nh.isSome } }) s
    match f with
    | .ports l copy hold down =>
      let s := if down = 0 then s else cntAdd 0x0881 (dieOfPipe p.pipe) 11 down s
      if l = [] then endPkt k s else queueFrame k p.pipe p.tc l copy hold s
    | .drop c => dropFrame k c s
    | .punt r reason byT => puntPkt k r reason (if byT then modPkt k (fun x => { x with snap := { x.snap with rule := 0xFFFFFFFF } }) s else s)
    | .core _ | .recirculate => endPkt k s

end Sys2Proof.Machine
end

