-- ==== Sys2Proof/Machine/FlowBase.lean ====
section
/-! DEFINITION. Flow records and what an owner slice does to them: owners (R176, R177), records in HBM (R180), index
buckets (R183), hot lines (R184, R185), answers (R187, R193), version changes (R182), backends (R202), NAT blocks and
ports (R198–R200), and export records (R204, R205). -/

namespace Sys2Proof.Machine

/-! ### Keys and owners -/

/-- The hash of a key from a starting register: CRC-32C over the 40 key bytes and the profile number (R176). -/
def keyHash (seed : Nat) (key : List Byte) (prof : Nat) : Nat := crc32cFrom seed (takeBytes key 0 40 ++ leBytes 1 prof)

/-- h and g of a key, with a die's seed (R176). -/
def keyHashes (s : State) (die : Nat) (key : List Byte) (prof : Nat) : Nat × Nat :=
  let seed := (stored s (.fleHashSeed die)).toNat
  (keyHash seed key prof, keyHash (Nat.xor seed 0xFFFFFFFF) key prof)

/-- The home half of a hash, 2 × die + b (R176). -/
def homeHalf (s : State) (h : Nat) : Nat :=
  let l := dies s.part
  2 * nth 0 l ((h >>> 23) % l.length) + b2n (bit h 22)

/-- The half of a record (R177). -/
def recHalf (r : Nat) : Nat := r / 2 ^ 23 % 8

/-- A record's number within its half. -/
def recNo (r : Nat) : Nat := r % 2 ^ 23

/-- A record index of a half and a number. -/
def mkRec (hf n : Nat) : Nat := hf * 2 ^ 23 + n

/-- The slice that serves a half (R177, R178). -/
def halfOwner (s : State) (hf : Nat) : Nat := if (slice s hf).servesOwn then hf else partner hf

/-- The owner of a record. -/
def recOwner (s : State) (r : Nat) : Nat := halfOwner s (recHalf r)

/-- A slice serves a half. -/
def serves (s : State) (sl hf : Nat) : Bool :=
  (decide (hf = sl) && (slice s sl).servesOwn) || (decide (hf = partner sl) && (slice s sl).servesPartner)

/-- A half is leaving the slice that serves it (R178). -/
def halfLeaving (s : State) (hf : Nat) : Bool :=
  let sl := halfOwner s hf
  match (slice s sl).transfer with
  | .none => false
  | .leaving toPartner => decide (hf = if toPartner then sl else partner sl)

/-! ### Records (R180) -/

/-- The address of a record in HBM. -/
def recAddr (r : Nat) : Nat := mAddr (recHalf r / 2) ((recHalf r % 2) * 2 ^ 31 + recNo r * 256)

/-- Read n bytes of a record at an offset. -/
def recN (s : State) (r off n : Nat) : Nat := rdN s.mem (recAddr r + off) n

/-- Write n bytes of a record at an offset. -/
def setRec (r off n v : Nat) (s : State) : State := { s with mem := wrN s.mem (recAddr r + off) n v }

/-- The record's key. -/
def recKey (s : State) (r : Nat) : List Byte := rdBytes s.mem (recAddr r) 40
/-- Its profile. -/
def recProf (s : State) (r : Nat) : Nat := recN s r 40 1 % 16
/-- Its kind: 0 SINGLE, 1 PRIMARY, 2 REPLY, 3 BINDING. -/
def recKind (s : State) (r : Nat) : Nat := recN s r 40 1 / 16 % 4
/-- Its key length. -/
def recKeyLen (s : State) (r : Nat) : Nat := recN s r 41 1
/-- Its life. -/
def recLife (s : State) (r : Nat) : Nat := recN s r 42 1 % 8
/-- Its original direction. -/
def recDir (s : State) (r : Nat) : Bool := bit (recN s r 42 1) 3
/-- Its CT profile. -/
def recCtProf (s : State) (r : Nat) : Nat := recN s r 42 1 / 16
/-- Its ct_state. -/
def recCt (s : State) (r : Nat) : Nat := recN s r 43 1 % 16
/-- Its version. -/
def recVer (s : State) (r : Nat) : Nat := recN s r 44 4
/-- Its flags. -/
def recFlags48 (s : State) (r : Nat) : Nat := recN s r 48 4
/-- Its peer. -/
def recPeer (s : State) (r : Nat) : Nat := recN s r 52 4
/-- Its last_seen in HBM. -/
def recSeen (s : State) (r : Nat) : Nat := recN s r 60 4
/-- Its action block. -/
def recAction (s : State) (r : Nat) : Nat := recN s r 64 32
/-- Its backend generation. -/
def recBackGen (s : State) (r : Nat) : Nat := recN s r 128 2
/-- Its backend group. -/
def recBackGrp (s : State) (r : Nat) : Nat := recN s r 130 2 % 8192
/-- The binding it uses. -/
def recBinding (s : State) (r : Nat) : Nat := recN s r 132 4
/-- A binding's refcount. -/
def recRefs (s : State) (r : Nat) : Nat := recN s r 140 4

/-- No record. -/
def noRec : Nat := 0xFFFFFFFF

/-- The life states (R190). -/
def lifeNew : Nat := 0
/-- ESTABLISHING. -/
def lifeEst : Nat := 1
/-- ACTIVE. -/
def lifeAct : Nat := 2
/-- CLOSING. -/
def lifeClosing : Nat := 3
/-- CLOSED. -/
def lifeClosed : Nat := 4
/-- AGED. -/
def lifeAged : Nat := 5

/-- A record number is in use: handed out and not returned (R193). -/
def recUsed (s : State) (r : Nat) : Bool :=
  let h := half s (recHalf r)
  hasDie s.part (recHalf r / 2) && decide (recNo r < h.fresh) && !h.freed.contains (recNo r) && decide (r < 2 ^ 26)

/-- Free numbers of a half (R210). -/
def halfFree (s : State) (hf : Nat) : Nat := 2 ^ 23 - (half s hf).fresh + (half s hf).freed.length

/-- The number a creation takes: the lowest freed, else the next unused. -/
def freeNo (s : State) (hf : Nat) : Option Nat :=
  match (half s hf).freed with
  | n :: _ => some n
  | [] => if (half s hf).fresh < 2 ^ 23 then some (half s hf).fresh else none

/-- Take that number. -/
def takeNo (hf : Nat) (s : State) : State :=
  modHalf hf (fun h => match h.freed with
    | _ :: r => { h with freed := r }
    | [] => { h with fresh := h.fresh + 1 }) s

/-- Insert a number into a rising list. -/
def insNo (n : Nat) : List Nat → List Nat
  | [] => [n]
  | x :: r => if x < n then x :: insNo n r else if x = n then x :: r else n :: x :: r

/-- Return a number to its half's free list (R193). -/
def returnNo (r : Nat) (s : State) : State := modHalf (recHalf r) (fun h => { h with freed := insNo (recNo r) h.freed }) s

/-! ### Counters and configuration -/

/-- Count in FLE_CNT of a slice (R208). -/
def fleCnt (sl i : Nat) (s : State) : State := cntInc 0x0581 sl i s

/-- A FLOW_KEY_PROFILE entry as a die holds it (R174). -/
def profEntry (s : State) (die p : Nat) : Nat := tEntry s die 0x0502 (p % 16)
/-- Its mode: 0 OFF, 1 FIRMWARE, 2 HARDWARE, 3 LOOKUP_ONLY. -/
def profMode (e : Nat) : Nat := fld e 385 384
/-- full_drop. -/
def profFullDrop (e : Nat) : Bool := bit e 390
/-- work_class. -/
def profClass (e : Nat) : Nat := fld e 397 392
/-- The record flags it gives: cnt_en, export_en, ct_en. -/
def profFlags (e : Nat) : Nat := b2n (bit e 388) + 2 * b2n (bit e 389) + 4 * b2n (bit e 387)
/-- The CT profile of new records. -/
def profCt (e : Nat) : Nat := fld e 403 400
/-- The export ring. -/
def profRing (e : Nat) : Nat := fld e 412 408
/-- The template. -/
def profTemplate (e : Nat) : Nat := fld e 767 512
/-- A CT_PROFILE entry as a die holds it (R195). -/
def ctEntry (s : State) (die p : Nat) : Nat := tEntry s die 0x0503 (p % 16)

/-! ### Index buckets (R183) -/

/-- The addresses of the entries of the two candidate buckets of a key, at most 16. -/
def idxAddrs (die h g : Nat) : List Nat :=
  let b (i : Nat) : List Nat := (upTo 8).map fun k => mAddr die (0x100000000 + 64 * (i % 2 ^ 22) + 8 * k)
  if h % 2 ^ 22 = g % 2 ^ 22 then b h else b h ++ b g

/-- An index entry. -/
def idxEntry (s : State) (a : Nat) : Nat := rdN s.mem a 8
/-- The record an index entry names. -/
def idxRec (die e : Nat) : Nat := die * 2 ^ 24 + fld e 47 24
/-- Write an index entry. -/
def putIdx (a v : Nat) (s : State) : State := { s with mem := wrN s.mem a 8 v }
/-- An index entry for a record and a tag. -/
def mkIdx (r g : Nat) : Nat := (g >>> 16) % 2 ^ 16 * 2 ^ 48 + r % 2 ^ 24 * 2 ^ 24 + 1

/-- A hot line of a slice, by record. -/
def hotOf (s : State) (sl r : Nat) : Option Hot := (slice s sl).hot.find? fun x => x.record = r

/-- A record is a NEW placeholder. -/
def recNew (s : State) (r : Nat) : Bool :=
  match hotOf s (recOwner s r) r with
  | some x => decide (x.life = lifeNew)
  | none => false

/-- A record is committed. -/
def recLive (s : State) (r : Nat) : Bool := recUsed s r && !recNew s r

/-- The committed record of a key, through the index (R183). -/
def idxFind (s : State) (h g : Nat) (key : List Byte) (prof : Nat) : Option Nat :=
  let die := homeHalf s h / 2
  ((idxAddrs die h g).map (idxEntry s)).findSome? fun e =>
    let r := idxRec die e
    if bit e 0 ∧ fld e 63 48 = (g >>> 16) % 2 ^ 16 ∧ recLive s r ∧ recKeyLen s r ≠ 0 ∧ recProf s r = prof
      ∧ recKey s r = takeBytes key 0 40 then some r else none

/-- A free entry of a key's candidate buckets. -/
def idxRoom (s : State) (die h g : Nat) : Option Nat := (idxAddrs die h g).find? fun a => !bit (idxEntry s a) 0

/-- Clear the index entry of a record among a key's candidates (R193). -/
def clearIdx (r h g : Nat) (s : State) : State :=
  let die := recHalf r / 2
  each ((idxAddrs die h g).filter fun a => bit (idxEntry s a) 0 && decide (idxRec die (idxEntry s a) = r))
    (fun a t => putIdx a 0 t) s

/-! ### Hot lines (R184, R185) -/

/-- Change a hot line. -/
def modHot (sl r : Nat) (f : Hot → Hot) (s : State) : State :=
  modSlice sl (fun x => { x with hot := x.hot.map fun l => if l.record = r then f l else l }) s

/-- Drop a hot line. -/
def dropHot (sl r : Nat) (s : State) : State := modSlice sl (fun x => { x with hot := x.hot.filter fun l => l.record ≠ r }) s

/-- Mark a hot line as just used (R185). -/
def touchHot (sl r : Nat) (s : State) : State :=
  let c := (slice s sl).clock
  modHot sl r (fun l => { l with used := c }) (modSlice sl (fun x => { x with clock := c + 1 }) s)

/-- The hot line of a key (R184). -/
def hotKey (s : State) (sl : Nat) (key : List Byte) (prof : Nat) : Option Hot :=
  (slice s sl).hot.find? fun l => l.key = key ∧ l.prof = prof

/-- The set of a hash in the 16-way store (log 23: its low 14 bits). -/
def hotSet (h : Nat) : Nat := h % 16384

/-- The lines of a set. -/
def setLines (s : State) (sl h : Nat) : List Hot := (slice s sl).hot.filter fun l => hotSet l.h = hotSet h

/-- Whether room is to be had: now, once something has ended, or not. -/
inductive Room where
  /-- there is room -/
  | room
  /-- there will be -/
  | wait
  /-- there is none -/
  | none
deriving DecidableEq, Repr

/-- Write a line's deltas and last_seen to its record (R184). -/
def writeBack (sl r : Nat) (s : State) : State :=
  match hotOf s sl r with
  | none => s
  | some l =>
    if l.life = lifeNew then s
    else
      let add (off n : Nat) (t : State) : State := setRec r off 8 ((recN t r off 8 + n) % 2 ^ 64) t
      let s := add 96 l.dPktsO (add 104 l.dPktsR (add 112 l.dBytesO (add 120 l.dBytesR s)))
      let s := setRec r 60 4 l.lastSeen s
      let ms := msNow s
      modHot sl r (fun l => { l with
        dirty := false, dPktsO := 0, dPktsR := 0, dBytesO := 0, dBytesR := 0, wbAt := ms }) (fleCnt sl 14 s)

/-- Room for a line in a set: of a full one the least recently used line that is not NEW is evicted. A clean line goes at once;
a dirty one is marked evicting and written back, and the new line waits until it has gone (R185). -/
def hotRoom (sl h : Nat) (s : State) : Room × State :=
  let l := setLines s sl h
  if l.length < 16 then (.room, s)
  else if l.any (·.evicting) then (.wait, s)
  else
    match l.filter fun x => x.life ≠ lifeNew with
    | [] => (.none, s)
    | a :: r =>
      let v := r.foldl (fun b x => if x.used < b.used then x else b) a
      let s := fleCnt sl 13 s
      if v.dirty then (.wait, modHot sl v.record (fun x => { x with evicting := true }) (writeBack sl v.record s))
      else (.room, dropHot sl v.record s)

/-- The line of a committed record, as HBM holds it. -/
def lineOf (s : State) (r h : Nat) : Hot :=
  { record := r, version := recVer s r, life := recLife s r, kind := recKind s r, dirty := false, evicting := false
    ctState := recCt s r, flags := recFlags48 s r % 65536, lastSeen := recSeen s r, action := recAction s r
    dPktsO := 0, dPktsR := 0, dBytesO := 0, dBytesR := 0, key := recKey s r, prof := recProf s r, h := h
    origDir := recDir s r, backendGen := recBackGen s r, used := 0, wbAt := msNow s, parked := [], newAt := 0
    creating := false, checks := [], task := none, trig := none }

/-- Put a line into the store, as the most recently used. -/
def putHot (sl : Nat) (l : Hot) (s : State) : State :=
  let c := (slice s sl).clock
  modSlice sl (fun x => { x with hot := x.hot ++ [{ l with used := c }], clock := c + 1 }) s

/-- Make a committed record hot, when a line can be had (R185). -/
def makeHot (sl r h : Nat) (s : State) : Room × State :=
  match hotOf s sl r with
  | some _ => (.room, touchHot sl r s)
  | none =>
    let (ok, s) := hotRoom sl h s
    (ok, if ok = .room then putHot sl (lineOf s r h) s else s)

/-- Bring a record's hot line into step with the record after a change of it; deltas and last_seen are the line's. -/
def syncHot (r : Nat) (s : State) : State :=
  modHot (recOwner s r) r (fun l => if l.life = lifeNew then l else { l with
    version := recVer s r, life := recLife s r, kind := recKind s r, ctState := recCt s r
    flags := recFlags48 s r % 65536, action := recAction s r, backendGen := recBackGen s r, origDir := recDir s r }) s

/-- A record's newest last_seen: the hot line's, else HBM's (R184). -/
def seenOf (s : State) (r : Nat) : Nat :=
  match hotOf s (recOwner s r) r with
  | some l => l.lastSeen
  | none => recSeen s r

/-- A record's 256-byte image with hot-line deltas added (R207, R261). -/
def recImage (s : State) (r : Nat) : Nat :=
  let img := recN s r 0 256
  match hotOf s (recOwner s r) r with
  | none => img
  | some l =>
    let add (off n x : Nat) : Nat := setFld x (8 * off + 63) (8 * off) ((fld img (8 * off + 63) (8 * off) + n) % 2 ^ 64)
    setFld (add 96 l.dPktsO (add 104 l.dPktsR (add 112 l.dBytesO (add 120 l.dBytesR img)))) 511 480 l.lastSeen

/-- A placeholder's image (R261): key, profile, life NEW, version, orig_dir and the profile's flags. -/
def newImage (s : State) (sl : Nat) (l : Hot) : Nat :=
  ofLe (takeBytes l.key 0 40) + l.prof * 2 ^ 320 + b2n l.origDir * 2 ^ 339 + l.version * 2 ^ 352
    + profFlags (profEntry s (dieOfSlice sl) l.prof) * 2 ^ 384

/-! ### Answers (R187, R193) -/

/-- Answer a request whose lookup met an invalid group: one packet's pass, or every pass when none is named, is dropped as
IND_INVALID (R121); the others take a code. -/
def answerInvalid (sl : Nat) (k : Nat) (code : Nat) (q : Req) (s : State) : State :=
  sendChan sl q.pipe (.answer q.key q.prof k code 0 0 0 false 4) s

/-- Answer a request with a code that carries no record: 0 FOLLOW, 2 RETRY, 3 DROP. -/
def answerCode (sl code : Nat) (q : Req) (s : State) : State :=
  let s := if code = 2 then fleCnt sl 10 s else s
  sendChan sl q.pipe (.answer q.key q.prof 0 0 0 0 0 false code) s

/-- Answer a request with a record; RETRY when the record has been freed since (R193). -/
def answerRec (sl r : Nat) (q : Req) (s : State) : State :=
  if recLive s r && decide (recKey s r = takeBytes q.key 0 40) && decide (recProf s r = q.prof) then
    sendChan sl q.pipe (.answer q.key q.prof r (recVer s r) (recFlags48 s r) (recAction s r) (recBackGen s r) (recDir s r) 1) s
  else answerCode sl 2 q s

/-- Requests parked in a slice (R188). -/
def parkedIn (s : State) (sl : Nat) : Nat := sumL ((slice s sl).hot.map fun l => l.parked.length)

/-- The packets that wait on a request, in the order of its waiting list (R192). -/
def reqPkts (s : State) (q : Req) : List Nat :=
  match (waitings s q.pipe).find? fun w => w.key = q.key ∧ w.prof = q.prof with
  | some w => w.who.map (·.1)
  | none => []

/-- The parked packets of a placeholder (R192). -/
def parkedPkts (s : State) (l : Hot) : List Nat := l.parked.flatMap (reqPkts s)

/-- Remove a placeholder: its index entry, its number and its line go; every request still parked is answered with a
code (R191–R193). -/
def removeNew (sl r code : Nat) (s : State) : State :=
  match hotOf s sl r with
  | none => s
  | some l =>
    if l.life ≠ lifeNew then s
    else
      let (h, g) := keyHashes s (recHalf r / 2) l.key l.prof
      let s := returnNo r (clearIdx r h g (dropHot sl r s))
      each l.parked (answerCode sl code) s

/-! ### Version changes (R182, R214) -/

/-- Queue a write of a record that HBM must accept. -/
def queueWrite (sl : Nat) (w : HbmWrite) (s : State) : State := modSlice sl (fun x => { x with writes := x.writes ++ [w] }) s

/-- Bump a record's version and queue the write-through, after which the invalidation and whatever waits on it go out. -/
def bump (r : Nat) (cmd : Option (Nat × Nat)) (answer : List Req) (reply : Option (Nat × Nat × List (Nat × Nat)))
    (s : State) : State :=
  let v := (recVer s r + 1) % 2 ^ 32
  let s := syncHot r (setRec r 44 4 v s)
  queueWrite (recOwner s r) ⟨r, v, true, cmd, answer, reply, recHalf r / 2⟩ s

/-- Send every pipeline an invalidation of a record (R214). -/
def sendInval (sl r v : Nat) (ack : Option (Nat × Nat)) (s : State) : State :=
  let t := ctime s
  each (pipelines s.part) (fun p u => sendChan sl p (.inval r v t ack) u) s

/-! ### Backends (R201–R203) -/

/-- A BACKEND entry as a die holds it. -/
def backEntry (s : State) (die b : Nat) : Nat := tEntry s die 0x0505 (b % 131072)
/-- Its state. -/
def backState (e : Nat) : Nat := fld e 23 22
/-- Its generation. -/
def backGenOf (e : Nat) : Nat := fld e 63 48

/-- Choose a backend from a group with a pass's hashes: the first ACTIVE one of at most 8 slots (R202). -/
def chooseBackend (s : State) (die : Nat) (q : Req) (grp : Nat) : Option Nat :=
  match groupSlots s q.pipe q.epoch grp q.hash0 q.hash1 8 with
  | none => none
  | some l => (l.map fun i => slotMember s q.pipe q.epoch i % 131072).find? fun b => backState (backEntry s die b) = 0

/-- The group a backend is chosen from is invalid (R121). -/
def groupInvalid (s : State) (q : Req) (grp : Nat) : Bool := (groupSlots s q.pipe q.epoch grp q.hash0 q.hash1 8).isNone

/-- The backend check of an action merge (R203): the backend's entry still has the generation and is ACTIVE or
DRAINING. -/
def backendOk (s : State) (die action gen : Nat) : Bool :=
  let e := backEntry s die (fld action 87 71)
  decide (backGenOf e = gen) && decide (backState e ≤ 1)

/-- Answer RETRY to the requests parked for a REBIND task of a record that ends without one (log 31). -/
def retryRebinds (sl r : Nat) (s : State) : State :=
  let q := (slice s sl).rebinds.filter fun x => x.backend = some r
  each q (answerCode sl 2) (modSlice sl (fun x => { x with rebinds := x.rebinds.filter fun y => y.backend ≠ some r }) s)

/-! ### NAT (R198–R200) -/

/-- A NAT_POOL entry as a die holds it. -/
def poolEntry (s : State) (die p : Nat) : Nat := tEntry s die 0x0504 p
/-- Ports per block, as an exponent. -/
def poolLog2 (e : Nat) : Nat := Nat.max 6 (Nat.min 9 (fld e 35 32))
/-- A block of an address of a pool can be handed out: it starts at or above port_lo. -/
def blockStarts (e b : Nat) : Bool := decide (fld e 51 36 ≤ b * 2 ^ poolLog2 e)
/-- Blocks of an address. -/
def blocksOf (e : Nat) : Nat := 65536 / 2 ^ poolLog2 e
/-- A block's bit in NAT_PORTMAP. -/
def blockBit (s : State) (die addr b : Nat) : Bool := bit (tEntry s die 0x0507 addr) b
/-- Set or clear it. -/
def setBlock (die addr b : Nat) (v : Bool) (s : State) : State :=
  tPut die 0x0507 addr (setFld (tEntry s die 0x0507 addr) b b (b2n v)) s

/-- The lowest free block of an address of a pool. -/
def lowBlock (s : State) (die e addr : Nat) : Option Nat :=
  (upTo (blocksOf e)).find? fun b => blockStarts e b && !blockBit s die addr b

/-- Search a pool's addresses from address number i: the address number and the block. n bounds the addresses. -/
def searchPool (s : State) (die e : Nat) : Nat → Nat → Option (Nat × Nat)
  | 0, _ => none
  | n + 1, i =>
    match lowBlock s die e ((fld e 13 0 + i) % 16384) with
    | some b => some (i, b)
    | none => searchPool s die e n ((i + 1) % Nat.max 1 (fld e 30 15))

/-- The search from the cursor (R199): the rest of the cursor's address from its block, the following addresses, and
the cursor's address again. -/
def searchFrom (s : State) (die e cur : Nat) : Option (Nat × Nat) :=
  let cnt := fld e 30 15
  let i := if cnt = 0 then 0 else cur / 1024 % cnt
  if cnt = 0 then none
  else
    match (upTo (blocksOf e)).find? fun b =>
        decide (cur % 1024 ≤ b) && blockStarts e b && !blockBit s die ((fld e 13 0 + i) % 16384) b with
    | some b => some (i, b)
    | none => searchPool s die e cnt ((i + 1) % cnt)

/-- Allocate a port block at a pool's slice (R199): NAT_ADDR index and first port. -/
def natBlockAlloc (sl p hint : Nat) (s : State) : Option (Nat × Nat) × State :=
  let die := dieOfSlice sl
  let e := poolEntry s die p
  let inPool := decide (fld e 13 0 ≤ hint) && decide (hint < fld e 13 0 + fld e 30 15)
  let take (addr b : Nat) (t : State) : Option (Nat × Nat) × State := (some (addr, b * 2 ^ poolLog2 e), setBlock die addr b true t)
  if 64 ≤ p ∨ !bit e 64 then (none, s)
  else
    match (if hint ≠ noRec ∧ inPool then lowBlock s die e hint else none) with
    | some b => take hint b s
    | none =>
      let cur := mget 0 s.flow.natCursor p
      match searchFrom s die e cur with
      | none => (none, raise (fleSrc sl 3) evNatPoolEmpty 0 0 0 0 s)
      | some (i, b) =>
        let c := if b + 1 < blocksOf e then 1024 * i + b + 1 else 1024 * ((i + 1) % fld e 30 15)
        take ((fld e 13 0 + i) % 16384) b { s with flow := { s.flow with natCursor := mset 0 s.flow.natCursor p c } }

/-- A binding's ports (R180): 512 bits. -/
def portBits (s : State) (r : Nat) : Nat := recN s r 192 64

/-- Allocate a port of a binding: the lowest free bit at or after the cursor (R200). -/
def natPortAlloc (s : State) (r size : Nat) : Option Nat :=
  (upTo size).find? fun i => decide (recN s r 136 2 ≤ i) && !bit (portBits s r) i

/-! ### Export records (R204, R205) -/

/-- The two descriptors of an export record. -/
def exportParts (x : ExportRec) (lost : Nat) : List Byte × List Byte :=
  let img := x.image
  let b40 := fld img 327 320 % 64
  let p0 := leBytes 1 0xC0 ++ leBytes 1 x.reason ++ leBytes 1 b40
    ++ leBytes 1 (fld img 338 336 + fld img 347 344 * 8) ++ leBytes 4 x.record ++ leBytes 4 (fld img 383 352)
    ++ leBytes 4 (fld img 479 448) ++ leBytes 4 (fld img 511 480) ++ leBytes 4 (fld img 447 416)
    ++ leBytes 40 (fld img 319 0)
  let p1 := leBytes 1 0xC0 ++ leBytes 1 x.reason ++ leBytes 1 128 ++ leBytes 1 0 ++ leBytes 4 x.record
    ++ leBytes 8 (fld img 831 768) ++ leBytes 8 (fld img 895 832) ++ leBytes 8 (fld img 959 896) ++ leBytes 8 (fld img 1023 960)
    ++ leBytes 16 (fld img 639 512) ++ leBytes 4 x.seq ++ leBytes 4 lost
  (p0, p1)

/-- Discard an export record: counted on its ring and in FLE_CNT, with FLOW_EXPORT_LOST (R205). -/
def exportLost (sl ringNo reason : Nat) (s : State) : State :=
  let s := modRing (656 + ringNo) (fun r => { r with discarded := r.discarded + 1 }) s
  raise (fleSrc sl 4) evFlowExportLost ringNo reason 0 0 (fleCnt sl 12 s)

/-- Offer an export record of a record to its ring: it is buffered, or discarded (R59, R204, R205). endRec: an end record; freeIt:
the record is freed with it; active: an ACTIVE record. -/
def offerExport (sl r reason : Nat) (endRec freeIt active : Bool) (s : State) : State :=
  let ringNo := profRing (profEntry s (dieOfSlice sl) (recProf s r))
  let s := modRing (656 + ringNo) (fun x => { x with offered := x.offered + 1 }) s
  let n := (slice s sl).exports.length
  if !(ring s (656 + ringNo)).enabled then
    cntInc 0x0381 0 (match ringLink s (656 + ringNo) with | .a => 1 | .b => 9)
      (modRing (656 + ringNo) (fun x => { x with discarded := x.discarded + 1 }) s)
  else if (active && decide (2048 < n)) || decide (4096 ≤ n) then exportLost sl ringNo reason s
  else
    let x : ExportRec := ⟨ringNo, reason, r, recImage s r, s.now, endRec, freeIt, (ring s (656 + ringNo)).offered⟩
    modSlice sl (fun y => { y with exports := y.exports ++ [x] }) s

/-- An end record of a record still waits. -/
def endWaits (s : State) (sl r : Nat) : Bool := (slice s sl).exports.any fun x => x.endRec && decide (x.record = r)

/-- An export ring has two free entries and is enabled. -/
def exportFits (s : State) (ringNo : Nat) : Bool :=
  let r := ring s (656 + ringNo)
  r.enabled && decide (r.prod + r.reserved - r.cons + 2 ≤ ringSize r)

/-- The record an export record tells of still holds the flow it told of. -/
def exportHere (s : State) (x : ExportRec) : Bool :=
  recLive s x.record && decide (recKey s x.record = leBytes 40 x.image) && decide (recN s x.record 56 4 = fld x.image 479 448)

/-- An export record leaves the buffer: written, both parts under one index, with the time of it kept, or dropped with its
disabled ring (R59, R204). -/
def writeExport (x : ExportRec) (s : State) : State :=
  let g := 656 + x.ring
  if (ring s g).enabled then
    let (p0, p1) := exportParts x (ring s g).discarded
    let s := modRing g (fun r => { r with discarded := 0 }) (publish g 2 (writeDesc g p1 (writeDesc g p0 s)))
    if !exportHere s x then s
    else if recKind s x.record = 3 then
      { s with flow := { s.flow with bindExport := mset 0 s.flow.bindExport x.record (msNow s + 1) } }
    else setRec x.record 136 4 (msNow s) s
  else
    let s := cntInc 0x0381 0 (match ringLink s g with | .a => 1 | .b => 9) s
    modRing g (fun r => { r with discarded := r.discarded + 1 }) s

/-- An export record waits for its ring's room or its ring is disabled: what may leave the buffer now. -/
def exportReady (s : State) (x : ExportRec) : Bool := s.pwr.committed && (exportFits s x.ring || !(ring s (656 + x.ring)).enabled)

/-- The export record last buffered is written at once when none of its ring waits before it and the ring has room (R204). -/
def exportNow (sl : Nat) (s : State) : State :=
  match (slice s sl).exports.reverse with
  | [] => s
  | x :: older =>
    if (older.any fun y => y.ring = x.ring) || !exportReady s x then s
    else writeExport x (modSlice sl (fun y => { y with exports := older.reverse }) s)

/-! ### Times -/

/-- Milliseconds since a time of the slices' count. -/
def msSince (s : State) (t : Nat) : Nat := (msNow s + 2 ^ 32 - t % 2 ^ 32) % 2 ^ 32

/-- Note when a record entered CLOSING or CLOSED, or forget it. -/
def setEnd (r : Nat) (v : Nat) (s : State) : State := { s with flow := { s.flow with endAt := mset 0 s.flow.endAt r v } }

/-- A REPLY's notices and a record's peer: its peer record, when it is committed (R194). -/
def peerOf (s : State) (r : Nat) : Option Nat :=
  let k := recKind s r
  let p := recPeer s r
  if (k = 1 ∨ k = 2) ∧ p ≠ noRec ∧ recLive s p then some p else none

/-- A record's peer, when that names it in turn (R193). -/
def peerBack (s : State) (r : Nat) : Option Nat := (peerOf s r).filter fun p => peerOf s p = some r

end Sys2Proof.Machine
end

