-- ==== Sys2Proof/Machine/Guard.lean ====
section
/-! DEFINITION. The conditions of the single-fault guarantee (R430), the string's hold (R446), and the thermal alert
(R531). -/

namespace Sys2Proof.Machine

/-- A custodian holds the string and its hold is adopted, without which no housekeeping actuator acts (R446). -/
def holdAdopted (s : State) : Bool := decide (s.cus.holder ≠ 0) && s.cus.adopted

/-- The part carries no traffic: after a thermal trip (R531), during zeroisation, or in RETURNED until a VENDOR_DEBUG
token is accepted (R490). -/
def noTraffic (s : State) : Bool :=
  s.pwr.thermtrip || s.lcs.zeroising || (decide (s.lcs.state = 4) && decide (s.lcs.open_ = 0))

/-- Every supply and temperature is within its ratings as the monitors measure it (R430, R530). -/
def ratingsOk (s : State) : Bool :=
  s.chk.monitored && s.chk.badRails.isEmpty
    && (dies s.part).all fun d =>
      decide (0 ≤ mget 0 s.pwr.temps d) && decide (mget 0 s.pwr.temps d ≤ 105) && decide ((stack s d).temp ≤ 95)

/-- The scrub rates are at or above the defaults (R430). -/
def scrubOk (s : State) : Bool :=
  decide (cfg s .chkScrubCfg 15 0 ≤ 1000) && (dies s.part).all fun d => decide (cfg s (.hbmScrubCfg d) 7 0 ≤ 8)

/-- Shadow compare is enabled on every present die with a cycle of at most 60 s; compares begin at commit_all (R430,
R513). -/
def compareOk (s : State) : Bool :=
  s.pwr.committed && (dies s.part).all fun d => cfgBit s (.fwdCmpCfg d) 31 && decide (cfg s (.fwdCmpCfg d) 11 0 ≤ 60)

/-- A rank is SPARE, or a migration that will leave one is running (R430). -/
def spareOk (s : State) : Bool :=
  s.hbm.rank.any (fun e => e.2 = 1) || (match s.hbm.mig with
    | some m => !m.failure
    | none => false)

/-- Bits [5:0] of CHK_GUARD_STATUS as the conditions stand (R455). -/
def guardNow (s : State) : Nat :=
  b2n (ratingsOk s) + 2 * b2n (scrubOk s) + 4 * b2n (compareOk s) + 8 * b2n (holdAdopted s) + 16 * b2n (spareOk s)
    + 32 * b2n (eventsRoom s)

/-- The bits of a that b has not. -/
def bitsLost (a b : Nat) : Nat := pack ((upTo 6).map fun i => (1, b2n (bit a i && !bit b i)))

/-- A change of a condition raises CHK_GUARD_LAPSE or CHK_GUARD_RESTORE with the changed bits (R430). -/
def guardCheck (s : State) : State :=
  let old := s.chk.guard
  let new := guardNow s
  if new = old then s
  else
    let s := modChk (fun c => { c with guard := new }) s
    let lost := bitsLost old new
    let got := bitsLost new old
    let s := if lost ≠ 0 then raise 0x04D evChkGuardLapse lost 0 0 0 (cntInc 0x0C81 0 13 s) else s
    if got ≠ 0 then raise 0x04D evChkGuardRestore got 0 0 0 s else s

/-- A reading of a die (0–3) or a stack (4 + d) against its alert threshold: THERM_ALERT_N is asserted while any is
above, and released when every reading has fallen 3 °C below (R531). -/
def thermCheck (who : Nat) (reading threshold : Int) (s : State) : State :=
  let o := s.pwr.tooHot.filter (· ≠ who)
  let tooHot := if threshold < reading then o ++ [who] else if reading ≤ threshold - 3 then o
    else if s.pwr.tooHot.contains who then o ++ [who] else o
  modPwr (fun p => { p with tooHot := tooHot, alert := !tooHot.isEmpty }) s

end Sys2Proof.Machine
end

