-- ==== Sys2Proof/Machine/HbmMap.lean ====
section
/-! DEFINITION. The rank map and the logical layout of HBM (R389–R397), poisoned blocks (R407), and the controllers' ports
with the FLOW port's panic (R403, R405). -/

namespace Sys2Proof.Machine

/-! ### Ranks (R389–R392) -/

/-- The logical rank of an HBM address, 3 × stack + k. -/
def logicalRank (a : Nat) : Option Nat :=
  if a % 2 ^ 35 / 2 ^ 33 = 3 then none else some (3 * (a / 2 ^ 35) + a % 2 ^ 35 / 2 ^ 33)

/-- The physical rank that holds a logical rank, none when it is unmapped. -/
def rankOf (s : State) (m : Nat) : Option Nat :=
  match mget 0 s.hbm.map m with
  | 0 => none
  | n + 1 => some n

/-- The logical rank a physical rank holds. -/
def heldBy (s : State) (f : Nat) : Option Nat := (s.hbm.map.find? fun e => e.2 = f + 1).map (·.1)

/-- An HBM address lies in a mapped logical rank. -/
def mapped (s : State) (a : Nat) : Bool := ((logicalRank a).bind (rankOf s)).isSome

/-- The state of a physical rank (R392). -/
def rankSt (s : State) (f : Nat) : Nat := mget 0 s.hbm.rank f

/-- Set it; rank states are stored (R391). -/
def setRank (f st : Nat) (s : State) : State :=
  let s := modHbm (fun h => { h with rank := mset 0 h.rank f st }) s
  modFlash (fun x => { x with rank := s.hbm.rank }) s

/-- Map a logical rank; the map is stored (R391). -/
def setMap (m : Nat) (f : Option Nat) (s : State) : State :=
  let v := match f with
    | some n => n + 1
    | none => 0
  let s := modHbm (fun h => { h with map := mset 0 h.map m v }) s
  modFlash (fun x => { x with map := some s.hbm.map }) s

/-- The map and states of a part that has no stored map (R390). -/
def defaultRanks : Part → Map Nat × Map Nat
  | .lhx9612 => ((upTo 11).map fun i => (i, i + 1), [(11, 1)])
  | .lhx9406 => ((([0, 1, 2, 6, 7] : List Nat).map fun i => (i, i + 1)), [(3, 7), (4, 7), (5, 7), (8, 1), (9, 7), (10, 7), (11, 7)])

/-! ### Regions (R394, R396) -/

/-- The region of a logical offset: 0 records, 1 buckets, 2 mirror area, 3 firmware data, 4 general. -/
def regionOf (off : Nat) : Nat :=
  if off < 0x100000000 then 0 else if off < 0x110000000 then 1 else if off < 0x130000000 then 2
  else if 0x200000000 ≤ off ∧ off < 0x300000000 then 3 else 4

/-- Where the region of an offset ends. -/
def regionEnd (off : Nat) : Nat :=
  if off < 0x100000000 then 0x100000000 else if off < 0x110000000 then 0x110000000
  else if off < 0x130000000 then 0x130000000 else if off < 0x200000000 then 0x200000000
  else if off < 0x300000000 then 0x300000000 else 0x600000000

/-- The reserved part of a mirror area: all of it on H1 and H3, and what follows the image slots on H0 and H2. -/
def mirrorReserved (stk off : Nat) : Bool :=
  decide (regionOf off = 2) && (decide (stk % 2 = 1) || decide (0x110000000 + 0x18200000 ≤ off))

/-- The mirror area's start. -/
def mirrorBase : Nat := 0x110000000

/-- An address lies in a copy of the mirror area, on H0 or on H2 (R394). -/
def inMirror (a : Nat) : Bool := decide (regionOf (a % 2 ^ 35) = 2) && decide (a / 2 ^ 35 % 2 = 0)

/-- The same place in the other copy. -/
def mirrorPartner (a : Nat) : Nat := mAddr (2 - a / 2 ^ 35) (a % 2 ^ 35)

/-- The copy that serves a reader on a die: that die's own, H0's where the die is neither Q0 nor Q2 (R395). -/
def mirrorCopy (die : Nat) : Nat := if die = 2 then 2 else 0

/-- The block of the mirror area that an address of either copy lies in. -/
def mirrorBlock (a : Nat) : Nat := (a % 2 ^ 35 - mirrorBase) / 64

/-- Some block of a range of the mirror area is uncorrectable in both copies: its reader receives an uncorrectable result
(R395). -/
def mirrorLost (s : State) (off n : Nat) : Bool :=
  s.hbm.mirrorBad.any fun e => e.2 && decide (off / 64 ≤ e.1) && decide (e.1 < ceilDiv (off + n) 64)

/-- Write bytes to both copies of the mirror area; what they cover whole is readable again (R395). -/
def mirrorWrite (off : Nat) (bs : List Byte) (s : State) : State :=
  let s := modHbm (fun h => { h with
    mirrorBad := h.mirrorBad.filter fun e => e.1 < ceilDiv off 64 || (off + bs.length) / 64 ≤ e.1 }) s
  { s with mem := wrBytes (wrBytes s.mem (mAddr 0 (mirrorBase + off)) bs) (mAddr 2 (mirrorBase + off)) bs }

/-- Bytes of the mirror area as a reader on a die gets them. -/
def mirrorRead (s : State) (die off n : Nat) : List Byte := rdBytes s.mem (mAddr (mirrorCopy die) (mirrorBase + off)) n

/-- Offset of an image slot in the mirror area (R396). -/
def imageSlot (slot : Nat) : Nat := 0x18000000 + 0x100000 * (slot % 2)

/-! ### Poison (R407) -/

/-- The block at an address is poisoned. -/
def poisoned (s : State) (a : Nat) : Bool := mget false s.hbm.poison (a / 64)

/-- The first block of a range that gives an uncorrectable result: a poisoned one, or one of the mirror area that neither
copy can supply. -/
def firstPoison (s : State) (a len : Nat) : Option Nat :=
  let hit (b : Nat) : Bool := decide (a / 64 ≤ b) && decide (b < ceilDiv (a + len) 64)
  let here (b : Nat) : Nat := (a / 2 ^ 35 * 2 ^ 35 + mirrorBase) / 64 + b
  let l := ((s.hbm.poison.filter fun e => e.2 && hit e.1).map (·.1))
    ++ (if inMirror a then (s.hbm.mirrorBad.filter fun e => e.2 && hit (here e.1)).map (here ·.1) else [])
  match l with
  | [] => none
  | b :: l => some (64 * l.foldl Nat.min b)

/-- Write a block poisoned. -/
def poisonBlock (a : Nat) (s : State) : State :=
  cntInc 0x0B81 (a / 2 ^ 35) 2 (modHbm (fun h => { h with poison := mset false h.poison (a / 64) true }) s)

/-- A block of the mirror area cannot be read from either copy; no event tells it, for it is not lost (R418). -/
def markMirror (a : Nat) (s : State) : State :=
  modHbm (fun h => { h with mirrorBad := mset false h.mirrorBad (mirrorBlock a) true }) s

/-- Full writes of 64-byte blocks clear their poison. -/
def clearPoison (a len : Nat) (s : State) : State :=
  modHbm (fun h => { h with poison := h.poison.filter fun e => e.1 < ceilDiv a 64 || (a + len) / 64 ≤ e.1 }) s

/-- Poisoned blocks of a stack (R427). -/
def poisonCount (s : State) (d : Nat) : Nat := (s.hbm.poison.filter fun e => e.1 / 2 ^ 29 = d).length

/-- Write whole blocks of HBM. -/
def blockWrite (a : Nat) (bs : List Byte) (s : State) : State :=
  clearPoison a bs.length { s with mem := wrBytes s.mem a bs }

/-- A block of the mirror area read uncorrectably: the partner copy supplies it and it is rewritten, counted in HBM_CNT;
where neither copy can, it stays so until a write (R395). -/
def mirrorRepair (a : Nat) (partnerToo : Bool) (s : State) : State :=
  let b := a / 64 * 64
  if partnerToo then markMirror b s
  else
    let s := cntInc 0x0B81 (b / 2 ^ 35) 12 { s with mem := wrBytes s.mem b (rdBytes s.mem (mirrorPartner b) 64) }
    modHbm (fun h => { h with mirrorBad := mset false h.mirrorBad (mirrorBlock b) false }) s

/-! ### Inside a rank (R399, R400) -/

/-- The 33-bit rank address of a logical address. -/
def rankAddr (a : Nat) : Nat := a % 2 ^ 35 % 2 ^ 33

/-- The number of ones of a value of 14 bits, modulo 2. -/
def parity14 (x : Nat) : Nat := (upTo 14).foldl (fun n i => (n + x / 2 ^ i % 2) % 2) 0

/-- Where a stack keeps a block of one of its ranks: the rank address decoded (R399), its bank bits mapped by the row masks of
HBM_BANK_XOR (R400). -/
def dramAt (s : State) (f a : Nat) : DramLoc :=
  let x := rankAddr a
  let row := fld x 32 19
  let bankBit (i : Nat) : Nat := (fld x (15 + i) (15 + i) + parity14 (row &&& cfg s (.hbmBankXor (f / 3) i) 13 0)) % 2
  { rank := f % 3, channel := fld x 10 7, pseudo := fld x 6 6, row := row, column := fld x 14 11
    bankGroup := bankBit 2 + 2 * bankBit 3, bank := bankBit 0 + 2 * bankBit 1 }

/-! ### Ports (R403, R405, R412) -/

/-- The physical ranks a request reaches: during a migration of its logical rank a write goes to both ranks, and a read to
the rank that holds its chunk. -/
def reqRanks (s : State) (q : HbmReq) : List Nat :=
  match logicalRank q.addr with
  | none => []
  | some m =>
    match s.hbm.mig with
    | some g =>
      if g.m ≠ m then (rankOf s m).toList
      else if g.fill then [g.s]
      else if q.data.isSome then [g.f, g.s]
      else if q.addr % 2 ^ 33 / 2 ^ 26 < g.n then [g.s] else [g.f]
    | none => (rankOf s m).toList

/-- HBM cycles of 1.2 GHz in a time (R388). -/
def hbmCycles (ps : Nat) : Nat := ps * 12 / 10000

/-- Count the cycles spent in panic so far. -/
def countPanic (d : Nat) (s : State) : State :=
  let k := stack s d
  if k.panic then modStack d (fun k => { k with panicAt := s.now }) (cntAdd 0x0B81 d 7 (hbmCycles (s.now - k.panicAt)) s) else s

/-- Count the cycles spent with refresh halved so far. -/
def countFast (d : Nat) (s : State) : State :=
  let k := stack s d
  if k.refresh2x then modStack d (fun k => { k with fastAt := s.now }) (cntAdd 0x0B81 d 8 (hbmCycles (s.now - k.fastAt)) s) else s

/-- Panic starts when the FLOW port's occupancy reaches panic_level and ends when it falls to panic_clear (R405). -/
def panicCheck (d : Nat) (s : State) : State :=
  let n := (mget [] (stack s d).ports 0).length
  if !(stack s d).panic && decide (cfg s (.hbmPanicCfg d) 15 8 ≤ n) then
    modStack d (fun k => { k with panic := true, panicAt := s.now }) s
  else if (stack s d).panic && decide (n ≤ cfg s (.hbmPanicCfg d) 7 0) then
    modStack d (fun k => { k with panic := false }) (countPanic d s)
  else s

/-- Put a request at a port: FLOW 0, CORE 1, DMA 2, CUS 3, SCRUB 4 (R403). It joins the controllers of the stacks that hold
its rank. -/
def hbmPush (port : Nat) (q : HbmReq) (s : State) : State :=
  each ((reqRanks s q).map (· / 3)).eraseDups (fun d t =>
    panicCheck d (modStack d (fun k => { k with ports := mset [] k.ports port (mget [] k.ports port ++ [q]) }) t)) s

/-- Drop the first read at an address from a port of every controller: it has returned. -/
def hbmReturned (port addr : Nat) (s : State) : State :=
  each (upTo 4) (fun d t =>
    if (mget [] (stack t d).ports port).any fun q => decide (q.addr = addr) && q.data.isNone then
      panicCheck d (modStack d (fun k => { k with
        ports := mset [] k.ports port ((mget [] k.ports port).eraseP fun q => decide (q.addr = addr) && q.data.isNone) }) t)
    else t) s

/-- A read at an address waits at a port. -/
def hbmWaiting (s : State) (port addr : Nat) : Bool :=
  (upTo 4).any fun d => (mget [] (stack s d).ports port).any fun q => decide (q.addr = addr)

end Sys2Proof.Machine
end

