-- ==== Sys2Proof/Machine/CoreMem.lean ====
section
/-! DEFINITION. What a flow core sees: its memory map (R251, R252), its registers and machine CSRs (R250, R259), and how
it takes a trap. -/

namespace Sys2Proof.Machine

/-- The slice of a core (R9). -/
def sliceOfCore (c : Nat) : Nat := c / 24
/-- The cluster of a core. -/
def clusterOfCore (c : Nat) : Nat := c / 8
/-- The die of a core. -/
def dieOfCore (c : Nat) : Nat := c / 48

/-! ### Memory (R251) -/

/-- The regions of the map. -/
inductive CoreRegion where | isram | scratch | shared | window | table | data
deriving DecidableEq, Repr

/-- The region an access of n bytes lies in, with its offset there. -/
def coreRegion (a n : Nat) : Option (CoreRegion × Nat) :=
  if a + n ≤ 0x80000 then some (.isram, a)
  else if 0x10000000 ≤ a ∧ a + n ≤ 0x10010000 then some (.scratch, a - 0x10000000)
  else if 0x11000000 ≤ a ∧ a + n ≤ 0x11100000 then some (.shared, a - 0x11000000)
  else if 0x20000000 ≤ a ∧ a + n ≤ 0x20000800 then some (.window, a - 0x20000000)
  else if 0x30000000 ≤ a ∧ a + n ≤ 0x34000000 then some (.table, a - 0x30000000)
  else if 0x100000000 ≤ a ∧ a + n ≤ 0x200000000 then some (.data, a - 0x100000000)
  else none

/-- The HBM address of an offset in a die's firmware data region. -/
def fwDataAddr (die off : Nat) : Nat := mAddr die (0x200000000 + off)

/-- A core reads n bytes; none is an access fault, as is a load from a poisoned block (R421). -/
def coreRd (s : State) (c a n : Nat) : Option Nat :=
  match coreRegion a n with
  | some (.isram, o) => some (rdN (cluster s (clusterOfCore c)).isram o n)
  | some (.scratch, o) => some (rdN (coreOf s c).scratch o n)
  | some (.shared, o) => some (rdN (cluster s (clusterOfCore c)).shared o n)
  | some (.window, o) => some (rdN (coreOf s c).window o n)
  | some (.table, o) => some (rdN s.tmem (tAddr (dieOfCore c) o) n)
  | some (.data, o) =>
    if poisoned s (fwDataAddr (dieOfCore c) o) then none else some (rdN s.mem (fwDataAddr (dieOfCore c) o) n)
  | none => none

/-- A core writes n bytes; none is an access fault, as is a partial store to a poisoned block (R421). -/
def coreWr (c a n v : Nat) (s : State) : Option State :=
  match coreRegion a n with
  | some (.scratch, o) => some (modCore c (fun x => { x with scratch := wrN x.scratch o n v }) s)
  | some (.shared, o) => some (modCluster (clusterOfCore c) (fun x => { x with shared := wrN x.shared o n v }) s)
  | some (.window, o) => some (modCore c (fun x => { x with window := wrN x.window o n v }) s)
  | some (.data, o) =>
    if poisoned s (fwDataAddr (dieOfCore c) o) then none
    else some { s with mem := wrN s.mem (fwDataAddr (dieOfCore c) o) n v }
  | _ => none

/-- A store refused on poison is counted (R407, R427). -/
def countPoisonStore (c a n : Nat) (s : State) : State :=
  match coreRegion a n with
  | some (.data, o) => if poisoned s (fwDataAddr (dieOfCore c) o) then cntInc 0x0B81 (dieOfCore c) 13 s else s
  | _ => s

/-- LR, SC and AMO are allowed in core scratch and cluster SRAM (R252). -/
def coreAtomicOk (a n : Nat) : Bool :=
  match coreRegion a n with
  | some (.scratch, _) | some (.shared, _) => true
  | _ => false

/-! ### Registers -/

/-- Read a register; x0 is zero. -/
def coreReg (s : State) (c n : Nat) : Nat := if n % 32 = 0 then 0 else mget 0 (coreOf s c).x (n % 32)

/-- Write a register; x0 discards. -/
def setCoreReg (c n v : Nat) (s : State) : State :=
  if n % 32 = 0 then s else modCore c (fun x => { x with x := mset 0 x.x (n % 32) (v % 2 ^ 64) }) s

/-- Move a core past an instruction of n bytes and count it, unless bit 2 of mcountinhibit stops the count (R250). -/
def coreNext (c n : Nat) (s : State) : State :=
  modCore c (fun x => { x with
    pc := (x.pc + n) % 2 ^ 64
    csr := if bit (mget 0 x.csr 0x320) 2 then x.csr else mset 0 x.csr 0xB02 ((mget 0 x.csr 0xB02 + 1) % 2 ^ 64) }) s

/-! ### CSRs -/

/-- A CSR as stored. -/
def csrRaw (s : State) (c n : Nat) : Nat := mget 0 (coreOf s c).csr n

/-- Store a CSR. -/
def setCsr (c n v : Nat) (s : State) : State := modCore c (fun x => { x with csr := mset 0 x.csr n (v % 2 ^ 64) }) s

/-- FCORE cycles since the run began: 500 ps each. -/
def fcoreCycles (s : State) : Nat := s.now / 500

/-- A task's handle (R254), or bit 63 when there is none. -/
def taskHandle (s : State) (c : Nat) : Nat :=
  match (coreOf s c).task with
  | some t => sliceOfCore c * 65536 + t
  | none => 2 ^ 63

/-- A class's configuration register (R286). -/
def classCfg (sl c : Nat) : Reg := .tskClassCfg sl (c % 64)
/-- A class's mode: 0 PARALLEL, 1 ORDERED, 2 ATOMIC. -/
def classMode (s : State) (sl c : Nat) : Nat := cfg s (classCfg sl c) 31 30
/-- A class's priority. -/
def classPrio (s : State) (sl c : Nat) : Nat := cfg s (classCfg sl c) 29 27

/-- A cluster works in compatibility mode (R275). -/
def compat (s : State) (k : Nat) : Bool := cfgBit s (.tskClusterMode k) 0

/-- mcountinhibit stops mcycle (bit 0). -/
def cyclesOff (s : State) (c : Nat) : Bool := bit (csrRaw s c 0x320) 0

/-- What mcycle is kept as: its value while it is stopped, else its distance from the cycles since the run began. -/
def cyclesKept (s : State) (off : Bool) (v : Nat) : Nat := if off then v else v + 2 ^ 64 - fcoreCycles s % 2 ^ 64

/-- A write of mcountinhibit: its bits for mcycle and minstret, with mcycle kept on. -/
def inhibitWrite (c v : Nat) (s : State) : State :=
  let now := if cyclesOff s c then csrRaw s c 0xB00 else (fcoreCycles s + csrRaw s c 0xB00) % 2 ^ 64
  setCsr c 0xB00 (cyclesKept s (bit v 0) now) (setCsr c 0x320 (v % 2 + v % 8 / 4 * 4) s)

/-- Read a CSR; none raises an illegal-instruction exception. -/
def csrRead (s : State) (c n : Nat) : Option Nat :=
  let k := coreOf s c
  match n with
  | 0x300 => some (csrRaw s c 0x300 + 0x1800)
  | 0x301 => some (2 ^ 63 + 0x1105)
  | 0x304 | 0x305 | 0x320 | 0x340 | 0x341 | 0x342 | 0x343 | 0x344 | 0xB02 => some (csrRaw s c n)
  | 0xC02 => some (csrRaw s c 0xB02)
  | 0xB00 | 0xC00 => some (if cyclesOff s c then csrRaw s c 0xB00 else (fcoreCycles s + csrRaw s c 0xB00) % 2 ^ 64)
  | 0xF11 | 0xF12 | 0xF13 | 0xF15 => some 0
  | 0xF14 => some c
  | 0x7C0 => some (taskHandle s c)
  | 0x7C1 => some (if compat s (clusterOfCore c) then b2n k.avail else 0)
  | 0x7C2 => some (match k.task with
    | some t => classPrio s (sliceOfCore c) (task s (sliceOfCore c) t).cls
    | none => 0)
  | 0x7C8 => some (msNow s)
  | _ => if (0x323 ≤ n ∧ n ≤ 0x33F) ∨ (0xB03 ≤ n ∧ n ≤ 0xB1F) ∨ (0xC03 ≤ n ∧ n ≤ 0xC1F) then some 0 else none

/-- Write a CSR; none raises an illegal-instruction exception. The read-only registers of the work extension ignore writes
(R12, R259). -/
def csrWrite (c n v : Nat) (s : State) : Option State :=
  if 3 ≤ n / 1024 then none
  else
    match n with
    | 0x300 => some (setCsr c n (v % 16 / 8 * 8 + v % 256 / 128 * 128) s)
    | 0x304 => some (setCsr c n (b2n (bit v 16) * 65536) s)
    | 0x305 => some (setCsr c n (v - v % 4 + v % 2) s)
    | 0x341 => some (setCsr c n (v - v % 2) s)
    | 0x340 | 0x342 | 0x343 | 0xB02 => some (setCsr c n v s)
    | 0x320 => some (inhibitWrite c v s)
    | 0xB00 => some (setCsr c n (cyclesKept s (cyclesOff s c) v) s)
    | 0x7C1 =>
      if compat s (clusterOfCore c) then
        some (modCore c (fun x => { x with avail := bit v 0, availAt := if bit v 0 && !x.avail then s.now else x.availAt }) s)
      else some s
    | _ => if (csrRead s c n).isSome then some s else none

/-! ### Traps -/

/-- Take a trap: mepc, mcause and mtval are written, MIE goes to MPIE and clears, and the core goes to its handler. -/
def coreTrap (c : Nat) (interrupt : Bool) (cause tval : Nat) (s : State) : State :=
  let st := csrRaw s c 0x300
  let tv := csrRaw s c 0x305
  let base := tv - tv % 4
  let s := setCsr c 0x341 (coreOf s c).pc s
  let s := setCsr c 0x342 (cause + b2n interrupt * 2 ^ 63) s
  let s := setCsr c 0x343 tval s
  let s := setCsr c 0x300 (b2n (bit st 3) * 128) s
  modCore c (fun x => { x with pc := if interrupt && tv % 4 = 1 then base + 4 * cause else base, wfi := false }) s

/-- An illegal instruction. -/
def coreIllegal (c : Nat) (s : State) : State := coreTrap c false 2 0 s

/-- The work interrupt is enabled: mstatus.MIE and bit 16 of mie (R275, R276). -/
def workIrqOn (s : State) (c : Nat) : Bool := bit (csrRaw s c 0x300) 3 && bit (csrRaw s c 0x304) 16

/-- Count in TSK_CORE_CNT for a core (R285). -/
def coreCnt (c k n : Nat) (s : State) : State := cntAdd 0x0703 (sliceOfCore c) (4 * (c % 24) + k) n s

/-- A core put back at its image's entry point with its scratch zeroed (R253). Registers and CSRs are reset; the cycles it was
blocked in wk.get are counted (R285). -/
def resetCore (c : Nat) (s : State) : State :=
  let s := match (coreOf s c).getting with
    | some (since, _) => coreCnt c 3 ((s.now - since) / 500) s
    | none => s
  modCore c (fun x => { x with
    pc := (cluster s (clusterOfCore c)).entry, x := [], csr := [], resv := none, wfi := false, scratch := [], getting := none
    flowing := none, reply := none, replyImage := none, avail := false }) s

end Sys2Proof.Machine
end

