-- ==== Sys2Proof/Machine/Tasks.lean ====
section
/-! DEFINITION. Tasks: slots and operands (R260–R264), classes, locks and tickets (R265–R267), completion (R255),
cancellation (R271), CORE_FAULT (R253), dispatch (R272–R275) and pre-emption (R276, R277). -/

namespace Sys2Proof.Machine

/-! ### Slots -/

/-- FREE. -/
def tskFree : Nat := 0
/-- WAITING. -/
def tskWaiting : Nat := 1
/-- READY. -/
def tskReady : Nat := 2
/-- RUNNING. -/
def tskRunning : Nat := 3
/-- PREEMPTED. -/
def tskPreempted : Nat := 4
/-- RELEASED. -/
def tskReleased : Nat := 5

/-- A slice's tasks, with their numbers. -/
def sliceTasks (s : State) (sl : Nat) : List (Nat × Task) :=
  s.tsk.slots.filterMap fun e => if e.1 / 65536 = sl ∧ e.2.state ≠ tskFree then some (e.1 % 65536, e.2) else none

/-- FREE slots of a slice (R288). -/
def freeSlots (s : State) (sl : Nat) : Nat := 65536 - (sliceTasks s sl).length

/-- The lowest FREE slot. -/
def freeSlot (s : State) (sl : Nat) : Option Nat := firstFrom (fun t => (task s sl t).state = tskFree) 0 65536

/-- Count in TSK_CNT (R285). -/
def tskCnt (sl i : Nat) (s : State) : State := cntInc 0x0701 sl i s

/-- Tasks of a class WAITING or READY. -/
def classWaiting (s : State) (sl c : Nat) : Nat :=
  ((sliceTasks s sl).filter fun e => decide (e.2.cls = c) && (decide (e.2.state = tskWaiting) || decide (e.2.state = tskReady))).length

/-- Keep the most tasks of a class WAITING or READY (R285). -/
def noteClass (sl c : Nat) (s : State) : State :=
  let n := classWaiting s sl c
  if cntGet s 0x0702 sl (32 * c + 19) < n then cntSet s 0x0702 sl (32 * c + 19) n else s

/-! ### Clusters and what they serve (R274) -/

/-- A cluster is powered, loaded and not draining. -/
def clusterOn (s : State) (k : Nat) : Bool := domOn s (domCluster k) && decide ((cluster s k).fw = 0)

/-- A cluster has a class in its mask (R287). -/
def inMask (s : State) (k c : Nat) : Bool :=
  if c < 32 then cfgBit s (.tskClusterMaskLo k) c else cfgBit s (.tskClusterMaskHi k) (c - 32)

/-- A class of a slice is served. -/
def classServed (s : State) (sl c : Nat) : Bool := (upTo 3).any fun i => clusterOn s (3 * sl + i) && inMask s (3 * sl + i) c

/-- Raise TSK_CLASS_UNSERVED for each class of a slice that has become unserved (R274). -/
def checkServed (sl : Nat) (s : State) : State :=
  each (upTo 64) (fun c t =>
    let now := classServed t sl c
    let was := mget false t.tsk.served (64 * sl + c)
    let t := modTsk (fun k => { k with served := mset false k.served (64 * sl + c) now }) t
    if was && !now then raise (tskSrc sl 2) evTskClassUnserved 0 0 0 0 t else t) s

/-! ### READY (R263, R272) -/

/-- A task becomes READY when every expected operand is present and, in an ATOMIC class, its lock is granted. -/
def tryReady (sl t : Nat) (s : State) : State :=
  let k := task s sl t
  if k.state = tskWaiting ∧ k.present = k.expect ∧ (k.mode ≠ 2 ∨ k.granted) then
    let key := 64 * sl + k.cls
    let inc := cfg1 s (classCfg sl k.cls) 15 0
    let f := (maxTag (mget 0 s.tsk.vtime sl) (mget 0 s.tsk.last key) + inc) % 2 ^ 32
    let n := mget 0 s.tsk.readyCount sl
    let s := modTask sl t (fun x => { x with state := tskReady, tag := f, readyNo := n }) s
    let s := modTsk (fun x => { x with last := mset 0 x.last key f, readyCount := mset 0 x.readyCount sl (n + 1) }) s
    if classServed s sl k.cls then s else tskCnt sl 14 s
  else s

/-! ### Locks and tickets (R265–R267) -/

/-- Grant a lock to the head of its queue when it is free (R265, R266). -/
def grantLock (sl l : Nat) (s : State) : State :=
  let k := lock s sl l
  match k.holder, k.queue with
  | none, t :: r =>
    let s := modLock sl l (fun x => { x with holder := some t, queue := r, since := s.now, told := false }) s
    tryReady sl t (modTask sl t (fun x => { x with granted := true }) s)
  | _, _ => s

/-- A task joins its lock entry in its class's mode: it takes a ticket, and in an ATOMIC class queues for the lock. -/
def joinLock (sl t : Nat) (s : State) : State :=
  let k := task s sl t
  let mode := classMode s sl k.cls
  let n := (lock s sl k.lock).next
  let s := modTask sl t (fun x => { x with mode := mode, granted := false, ticketed := decide (mode = 1 ∨ mode = 2), ticket := n }) s
  if mode = 1 ∨ mode = 2 then
    let s := modLock sl k.lock (fun x => { x with next := (x.next + 1) % 65536 }) s
    if mode = 2 then
      let free := (lock s sl k.lock).holder.isNone
      let s := modLock sl k.lock (fun x => { x with queue := x.queue ++ [t] }) s
      let s := grantLock sl k.lock s
      if free then s else tskCnt sl 13 s
    else s
  else modTask sl t (fun x => { x with ticket := 0 }) s

/-- End a task's hold of its lock, or take it out of the lock's queue (R266, R271). -/
def leaveLock (sl t : Nat) (s : State) : State :=
  let k := task s sl t
  let l := lock s sl k.lock
  if l.holder = some t then grantLock sl k.lock (modLock sl k.lock (fun x => { x with holder := none }) s)
  else modLock sl k.lock (fun x => { x with queue := x.queue.filter (· ≠ t) }) s

/-! ### Packets of tasks -/

/-- Drop a task's packet (R253, R271). -/
def dropTaskPkt (k : Task) (s : State) : State :=
  match k.pkt with
  | some p => endPkt p s
  | none => s

/-- The fate of FOLLOW: the packet's merged classification result with the record's current action (R255), which the task did
not change. -/
def followFate (s : State) (p : Pkt) (record : Nat) : Fate × Nat × Option Nat × Option Hop :=
  let live := decide (record ≠ noRec) && recLive s record
  let a := if live then recAction s record else 0
  let b := if bit a 88 && backendOk s (dieOfPipe p.pipe) a (if live then recBackGen s record else 0) then some (fld a 87 71) else none
  let (f, nh) := passFate s p { p.snap with disp := p.snap.cdisp } a b
  (f, a, b, nh)

/-! ### Header operands (R261) -/

/-- The header operand of a frame or copy: its first 192 bytes and what hardware knows of it. data is the frame or
copy, len the frame's length. -/
def headerOperand (p : Pkt) (data : List Byte) (len session : Nat) (trunc : Bool) : Nat :=
  let st := p.stamp
  ofLe (takeBytes data 0 192 ++ leBytes 2 len ++ leBytes 2 p.port ++ stampBytes st
    ++ leBytes 1 (b2n p.epoch + 2 * b2n p.snap.dir + 4 * b2n p.snap.depth + 8 * b2n trunc + 16 * b2n p.stampOk)
    ++ leBytes 1 p.tc ++ leBytes 4 p.snap.hash0 ++ leBytes 4 p.snap.hash1 ++ leBytes 1 session)

/-- The lookup operand of a pass (R261). -/
def lookupOperand (sn : Snap) : Nat :=
  ofLe (leBytes 1 sn.cdisp ++ leBytes 1 sn.prof ++ leBytes 2 sn.vrf ++ leBytes 4 sn.target ++ leBytes 4 sn.rule
    ++ leBytes 4 sn.h ++ leBytes 4 sn.g ++ takeBytes sn.key 0 40 ++ leBytes 1 sn.keyLen)

/-! ### Making tasks (R260, R264, R269) -/

/-- The record operand and version of a hardware task as they stand when it is made, whenever its item came (R261, R270). -/
def renewOperand (sl : Nat) (k : Task) (s : State) : Task :=
  if k.kind = 1 then
    match hotOf s sl k.record with
    | some l => { k with recOp := newImage s sl l }
    | none => k
  else if k.kind ≠ 3 ∧ k.record ≠ noRec ∧ recLive s k.record then
    { k with recOp := recImage s k.record, version := recVer s k.record }
  else k

/-- Put a made task into a slot: it is WAITING, and joins its lock entry. hw: made by hardware. -/
def placeTask (sl n : Nat) (hw : Bool) (k : Task) (s : State) : State :=
  let k := if hw then renewOperand sl k s else k
  let s := modTask sl n (fun _ => { k with state := tskWaiting, made := s.now, stamp := stampNow s }) s
  let s := tskCnt sl (if hw then 0 else 1) s
  let s := match k.pkt with
    | some p => retag p (ownerTag 9 (sl % 2)) (modPkt p (fun x => { x with task := true }) s)
    | none => s
  let s := if k.kind = 1 then modSlice sl (fun x => { x with
      hot := x.hot.map fun l => if l.record = k.record then { l with task := some n } else l }) s else s
  noteClass sl k.cls (joinLock sl n s)

/-- A slice holds an item of a pipeline for want of a slot: the pipeline takes no frame (R32, R264). -/
def itemHeld (s : State) (p : Nat) : Bool := s.tsk.items.any fun e => e.2.any fun k => k.src = some p

/-- A hardware item that makes a task: it takes a slot, or is held until one frees (R264). A slice that is being stopped
makes none (R284). -/
def makeTask (sl : Nat) (k : Task) (s : State) : State :=
  let q := mget [] s.tsk.items sl
  match (if q = [] ∧ domOn s (domSlice sl) then freeSlot s sl else none) with
  | some n => placeTask sl n true k s
  | none => tskCnt sl 8 (modTsk (fun x => { x with items := mset [] x.items sl (q ++ [k]) }) s)

/-- Take held items while slots are free, in arrival order. n bounds them. -/
def takeItems (sl : Nat) : Nat → State → State
  | 0, s => s
  | n + 1, s =>
    match mget [] s.tsk.items sl, (if domOn s (domSlice sl) then freeSlot s sl else none) with
    | k :: r, some t => takeItems sl n (placeTask sl t true k (modTsk (fun x => { x with items := mset [] x.items sl r }) s))
    | _, _ => s

/-- A slot becomes FREE. Requests still parked for a REBIND task are answered RETRY. -/
def clearSlot (sl t : Nat) (s : State) : State :=
  let k := task s sl t
  let s := if k.kind = 5 then retryRebinds sl k.record s else s
  takeItems sl 1 (modTask sl t (fun _ => {}) s)

/-- A PACKET task (R260): a confirmed pass whose flow action sends it to firmware. -/
def packetTask (s : State) (k : Nat) (p : Pkt) (cls record : Nat) : Task :=
  let live := decide (record ≠ noRec) && recLive s record
  { kind := 2, cls := cls, lock := p.snap.h % 16384, expect := 7, record := record
    version := if live then recVer s record else 0, pkt := some k, src := some p.pipe
    header := headerOperand p p.bytes p.bytes.length 0 false, recOp := if live then recImage s record else 0
    lookup := lookupOperand p.snap }

/-! ### Completions (R255, R267) -/

/-- Emit a completion word: the fate of the task's packet (R255). -/
def emitWord (sl : Nat) (k : Task) (s : State) : State :=
  match k.pkt with
  | none => s
  | some n =>
    match pktOf s n with
    | none => s
    | some p =>
      let w := k.word
      let s := if bit w 5 then
          let m := Nat.min 192 p.bytes.length
          modPkt n (fun x => { x with bytes := takeBytes (leBytes 192 k.header) 0 m ++ x.bytes.drop m }) s
        else s
      let s := if bit w 34 then modPkt n (fun x => { x with tc := fld w 38 35 }) s else s
      match pktOf s n with
      | none => s
      | some p =>
        match fld w 3 0 with
        | 1 =>
          let (f, a, b, nh) := followFate s p k.record
          let s := modPkt n (fun x => { x with
            action := a, backend := b, rews := rewrites s (dieOfPipe p.pipe) a b, tc := if bit w 34 then x.tc else finalTc p p.snap a }) s
          match f with
          | .core c => makeTask sl (packetTask s n p c k.record) s
          | f => sendFate n f nh s
        | 2 =>
          let (f, nh) := targetFate s p (fld w 33 14) p.snap.hash0 p.snap.hash1
          sendFate n f nh (modPkt n (fun x => { x with action := 0, backend := none, rews := [] }) s)
        | 4 => sendFate n (.punt (fld w 13 6) 5 false) none s
        | _ => endPkt n s

/-- Advance emit_ticket past retired tickets, emitting the ordered completion of each that waits at the head (R267). n
bounds the advance. -/
def advanceEmit (sl l : Nat) : Nat → State → State
  | 0, s => s
  | n + 1, s =>
    let k := lock s sl l
    if k.retired.contains k.emit then
      advanceEmit sl l n (modLock sl l (fun x => { x with retired := x.retired.filter (· ≠ k.emit), emit := (k.emit + 1) % 65536 }) s)
    else
      match (sliceTasks s sl).find? fun e => decide (e.2.state = tskReleased) && decide (e.2.lock = l) && decide (e.2.ticket = k.emit) with
      | none => s
      | some (t, x) =>
        let s := clearSlot sl t (emitWord sl x s)
        advanceEmit sl l n (modLock sl l (fun x => { x with emit := (x.emit + 1) % 65536 }) s)

/-- Retire a task's ticket (R267). -/
def retireTicket (sl t : Nat) (s : State) : State :=
  let k := task s sl t
  if !k.ticketed then s
  else
    let s := modTask sl t (fun x => { x with ticketed := false }) s
    let s := modLock sl k.lock (fun x => { x with retired := x.retired ++ [k.ticket] }) s
    advanceEmit sl k.lock ((lock s sl k.lock).retired.length + (sliceTasks s sl).length + 1) s

/-! ### A CREATE task without an outcome (R253, R271) -/

/-- Reject the placeholder of a CREATE task that ends without an outcome: it is removed, and every request still parked
but for the trigger's is answered RETRY (R192). -/
def rejectNew (sl t : Nat) (k : Task) (s : State) : State :=
  if k.kind = 1 ∧ !k.outcome then
    let s := match k.pkt with
      | some p => forgetPasses p (leaveEpoch p s)
      | none => s
    match hotOf s sl k.record with
    | some l => if l.task = some t then removeNew sl k.record 2 s else s
    | none => s
  else s

/-! ### Leaving a core -/

/-- Time a task has been RUNNING, pre-emptions apart (R277). -/
def ranFor (s : State) (k : Task) : Nat := k.ran + (if k.state = tskRunning then s.now - k.runAt else 0)

/-- The core that runs or holds a task. -/
def coreWith (s : State) (sl t : Nat) : Option Nat :=
  ((upTo 24).map (24 * sl + ·)).find? fun c =>
    (coreOf s c).task = some t ∨ (coreOf s c).preempted = some t ∨ (coreOf s c).coming = some t

/-- A core's task leaves RUNNING: a pre-empted task gets its core and its window back (R276). -/
def leaveCore (c : Nat) (s : State) : State :=
  let sl := sliceOfCore c
  let k := coreOf s c
  let s := match k.task with
    | some t => coreCnt c 0 (ranFor s (task s sl t) / 500) s
    | none => s
  match k.preempted with
  | none => modCore c (fun x => { x with task := none, window := [] }) s
  | some p =>
    let s := modCore c (fun x => { x with task := some p, preempted := none, window := x.savedWindow, savedWindow := [] }) s
    modTask sl p (fun x => { x with state := tskRunning, runAt := s.now }) s

/-- End a task as CORE_FAULT: its lock is passed on, its ticket is retired, its packet dropped, and a CREATE task is
treated as a reject (R253, R263). -/
def faultTask (sl t : Nat) (s : State) : State :=
  let k := task s sl t
  if k.state = tskFree then s
  else
    let s := tskCnt sl 5 s
    let s := rejectNew sl t k s
    let s := leaveLock sl t s
    let s := modTask sl t (fun x => { x with state := tskWaiting }) s
    let s := retireTicket sl t s
    clearSlot sl t (dropTaskPkt k s)

/-- CORE_FAULT of a task that a core holds. -/
def faultOnCore (c t : Nat) (s : State) : State :=
  let sl := sliceOfCore c
  let s := coreCnt c 2 1 s
  if (coreOf s c).task = some t then faultTask sl t (leaveCore c s)
  else if (coreOf s c).coming = some t then faultTask sl t (modCore c (fun x => { x with coming := none }) s)
  else
    let s := coreCnt c 0 ((task s sl t).ran / 500) s
    faultTask sl t (modCore c (fun x => { x with preempted := none, savedWindow := [] }) s)

/-- A dispatch whose trap a core can no longer take is withdrawn: the task is READY again, with its tag (R276). -/
def withdrawDispatch (c : Nat) (s : State) : State :=
  match (coreOf s c).coming with
  | none => s
  | some t =>
    if workIrqOn s c then s
    else
      let s := modTask (sliceOfCore c) t (fun x => { x with state := tskReady }) s
      setCsr c 0x344 0 (modCore c (fun x => { x with coming := none }) s)

/-! ### Cancellation (R271) -/

/-- Set a bit of the task information in a window. -/
def flagWindow (w : List Host.Cell) : List Host.Cell := wrN w 0x287 1 (setFld (rdN w 0x287 1) 0 0 1)

/-- Cancel a task; the status wk.cancel gives (R257, R271). -/
def cancelTask (sl t : Nat) (s : State) : Nat × State :=
  let k := task s sl t
  if k.state = tskFree then (2, s)
  else if k.state = tskReleased then (5, s)
  else if k.state = tskWaiting ∨ k.state = tskReady then
    let s := tskCnt sl 4 s
    let s := rejectNew sl t k s
    let s := leaveLock sl t s
    let s := modTask sl t (fun x => { x with state := tskWaiting }) s
    let s := retireTicket sl t s
    (0, clearSlot sl t (dropTaskPkt k s))
  else
    let s := if k.cancelled then s else tskCnt sl 4 s
    let s := modTask sl t (fun x => { x with cancelled := true }) s
    match coreWith s sl t with
    | none => (0, s)
    | some c =>
      (0, modCore c (fun x => if x.task = some t then { x with window := flagWindow x.window }
        else if x.preempted = some t then { x with savedWindow := flagWindow x.savedWindow } else x) s)

/-- Cancel the EXPIRE and REBIND tasks of a record that is freed, at the slice that serves it and, where its half has moved, at
the one that served it (R271). -/
def cancelRecord (sl r : Nat) (s : State) : State :=
  let mine (k : Task) : Bool := decide (k.record = r) && (decide (k.kind = 4) || decide (k.kind = 5))
  each [sl, partner sl] (fun o t =>
    let t := modTsk (fun x => { x with items := mset [] x.items o ((mget [] x.items o).filter fun k => !mine k) }) t
    each ((sliceTasks t o).filter fun e => mine e.2) (fun e u => (cancelTask o e.1 u).2) t) s

/-! ### Release and handover (R255, R267, R268) -/

/-- The header operand as the window holds it. -/
def windowHeader (s : State) (c : Nat) (k : Task) : Nat := if bit k.expect 0 then rdN (coreOf s c).window 0 256 else k.header

/-- wk.rel: end a core's task with a completion word (R255, R267, R271). -/
def releaseTask (c t word : Nat) (s : State) : State :=
  let sl := sliceOfCore c
  let k := { task s sl t with word := word, header := windowHeader s c (task s sl t) }
  let s := modTask sl t (fun _ => k) s
  let s := coreCnt c 1 1 (tskCnt sl 3 s)
  let s := leaveCore c s
  let s := if k.kind = 1 ∧ !k.outcome then rejectNew sl t k (tskCnt sl 10 s) else s
  let s := leaveLock sl t s
  if k.cancelled then
    let s := retireTicket sl t (modTask sl t (fun x => { x with state := tskWaiting }) s)
    clearSlot sl t (dropTaskPkt k s)
  else if bit word 4 ∧ k.ticketed then
    if (lock s sl k.lock).emit = k.ticket then
      let s := emitWord sl k s
      let s := retireTicket sl t (modTask sl t (fun x => { x with state := tskWaiting }) s)
      clearSlot sl t s
    else modTask sl t (fun x => { x with state := tskReleased }) s
  else
    let s := emitWord sl k s
    let s := retireTicket sl t (modTask sl t (fun x => { x with state := tskWaiting }) s)
    clearSlot sl t s

/-- wk.hand: give up the lock and the ticket, and join a lock entry in a class (R268). -/
def handTask (c t lockIdx cls : Nat) (s : State) : State :=
  let sl := sliceOfCore c
  let k := task s sl t
  if 65535 ≤ k.hands then faultOnCore c t s
  else
    let w := (coreOf s c).window
    let s := leaveCore c (tskCnt sl 6 s)
    let s := leaveLock sl t s
    let s := modTask sl t (fun x => { x with state := tskWaiting }) s
    let s := retireTicket sl t s
    let s := modTask sl t (fun x => { x with
      lock := lockIdx % 16384, cls := cls % 64, window := w, hands := x.hands + 1, ran := 0 }) s
    let s := joinLock sl t s
    tryReady sl t (noteClass sl (cls % 64) s)

/-! ### Dispatch (R272, R273, R275) -/

/-- The better of two READY tasks: the smaller tag, the lower class, the one READY first. -/
def betterTask (a b : Nat × Task) : Nat × Task :=
  if a.2.cls = b.2.cls then (if b.2.readyNo < a.2.readyNo then b else a)
  else if a.2.tag = b.2.tag then (if b.2.cls < a.2.cls then b else a)
  else if wrapGe 32 b.2.tag a.2.tag then a else b

/-- The task R273 dispatches next to a cluster. -/
def nextTask (s : State) (k : Nat) : Option (Nat × Task) :=
  match (sliceTasks s (k / 3)).filter fun e => decide (e.2.state = tskReady) && inMask s k e.2.cls with
  | [] => none
  | a :: r => some (r.foldl betterTask a)

/-- A core that waits for work, with the time since which it waits: in wk.get, or available (R273, R275). -/
def coreAsks (s : State) (c : Nat) : Option Nat :=
  let k := coreOf s c
  if !clusterOn s (clusterOfCore c) || k.task.isSome || k.coming.isSome then none
  else if compat s (clusterOfCore c) then (if k.avail then some k.availAt else none)
  else k.getting.map (·.1)

/-- The core served first among those with an eligible task: the longest wait, then the lowest number. -/
def coreServed (s : State) (sl : Nat) : Option Nat :=
  let l := ((upTo 24).map (24 * sl + ·)).filterMap fun c =>
    match coreAsks s c with
    | some t => if (nextTask s (clusterOfCore c)).isSome then some (t, c) else none
    | none => none
  match l with
  | [] => none
  | a :: r => some (r.foldl (fun b x => if x.1 < b.1 then x else b) a).2

/-- The bucket of a wait in TSK_CLASS_CNT (R285). -/
def waitBucket (ns : Nat) : Nat := if ns < 64 then 0 else Nat.min 15 (Nat.log2 (ns / 64) + 1)

/-- Count a first dispatch: its wait and its bounds. -/
def countWait (sl : Nat) (k : Task) (s : State) : State :=
  let e := 32 * k.cls
  if k.dispatched then s
  else
    let ns := (s.now - k.made) / 1000
    let s := cntInc 0x0702 sl (e + waitBucket ns) s
    let low := cntGet s 0x0702 sl (e + 16)
    let s := if low = 0 ∨ ns + 1 < low then cntSet s 0x0702 sl (e + 16) (ns + 1) else s
    if cntGet s 0x0702 sl (e + 17) < ns then cntSet s 0x0702 sl (e + 17) ns else s

/-- The operand window of a task (R261). -/
def taskWindow (t : Nat) (k : Task) (comp : Bool) : List Host.Cell :=
  let has (n : Nat) (v : Nat) : Nat := if bit k.expect n then v else 0
  let w := if k.hands = 0 then
      wrN (wrN (wrN (wrN [] 0 256 (has 0 k.header)) 0x100 256 (has 1 k.recOp)) 0x200 64 (has 2 k.lookup)) 0x240 64 (has 3 k.timer)
    else k.window
  let info := leBytes 2 t ++ leBytes 1 k.kind ++ leBytes 1 (k.cls + 64 * k.mode) ++ leBytes 2 k.lock ++ leBytes 1 k.present
    ++ leBytes 1 (b2n k.cancelled + 2 * b2n comp) ++ leBytes 4 k.record ++ leBytes 4 k.version ++ stampBytes k.stamp
    ++ leBytes 2 k.ticket ++ leBytes 2 k.hands
  wrBytes w 0x280 (takeBytes info 0 64)

/-- Dispatch a READY task (R272, R273): V becomes its tag. -/
def dispatchTask (sl t : Nat) (s : State) : State :=
  let k := task s sl t
  let s := countWait sl k (cntInc 0x0702 sl (32 * k.cls + 20) (tskCnt sl 2 s))
  let s := modTsk (fun x => { x with vtime := mset 0 x.vtime sl k.tag }) s
  modTask sl t (fun x => { x with state := tskRunning, dispatched := true, runAt := s.now, ran := 0 }) s

/-- A dispatched task begins on a core: the core's window holds its operands (R261). -/
def enterTask (c t : Nat) (s : State) : State :=
  let sl := sliceOfCore c
  let s := modTask sl t (fun x => { x with runAt := s.now }) s
  let w := taskWindow t (task s sl t) (compat s (clusterOfCore c))
  modCore c (fun x => { x with task := some t, window := w }) s

/-- TASK_DISPATCH: one task of a slice is dispatched (R273, R275). -/
def taskDispatch (sl : Nat) (s : State) : State :=
  match coreServed s sl with
  | none => s
  | some c =>
    match nextTask s (clusterOfCore c) with
    | none => s
    | some (t, _) =>
      let k := coreOf s c
      let s := enterTask c t (dispatchTask sl t s)
      match k.getting with
      | some (since, rd) =>
        let s := coreCnt c 3 ((s.now - since) / 500) s
        coreNext c 4 (setCoreReg c rd (sl * 65536 + t) (modCore c (fun x => { x with getting := none }) s))
      | none =>
        let s := modCore c (fun x => { x with avail := false, wfi := false }) s
        setCsr c 0x344 (csrRaw s c 0x344 - csrRaw s c 0x344 / 65536 % 2 * 65536 + 65536) s

/-! ### Pre-emption (R276, R277) -/

/-- The core of a compatibility cluster that a task of a priority pre-empts: the one whose task has the lowest prio,
then the lowest number, among those with the work interrupt enabled and no PREEMPTED task. -/
def preemptCore (s : State) (k prio : Nat) : Option Nat :=
  let sl := k / 3
  let l := ((upTo 8).map (8 * k + ·)).filterMap fun c =>
    match (coreOf s c).task with
    | some t =>
      let p := classPrio s sl (task s sl t).cls
      if (coreOf s c).preempted.isNone ∧ (coreOf s c).coming.isNone ∧ workIrqOn s c ∧ p < prio ∧ (task s sl t).state = tskRunning
      then some (p, c) else none
    | none => none
  match l with
  | [] => none
  | a :: r => some (r.foldl (fun b x => if x.1 < b.1 then x else b) a).2

/-- A task that R276 has a core pre-empted for is dispatched: wk_avail clears and the work interrupt is pending (R275). -/
def preemptDispatch (c : Nat) (s : State) : State :=
  let k := clusterOfCore c
  let sl := sliceOfCore c
  if !hasCore s.part c || !compat s k || !cfgBit s (.tskClusterMode k) 1 || !clusterOn s k then s
  else if ((upTo 8).any fun i => (coreAsks s (8 * k + i)).isSome) then s
  else
    match nextTask s k with
    | some (t, x) =>
      if preemptCore s k (classPrio s sl x.cls) = some c then
        setCsr c 0x344 65536 (modCore c (fun y => { y with coming := some t, avail := false }) (dispatchTask sl t s))
      else s
    | none => s

/-- The trap of a pre-empting task is taken: the core's task becomes PREEMPTED and the window switches (R276). A core blocked in
wk.flow takes it once the reply is written. -/
def preemptTrap (c t : Nat) (s : State) : State :=
  let sl := sliceOfCore c
  if (coreOf s c).flowing.isSome then s
  else
    let s := match (coreOf s c).task with
      | some old =>
        let ran := ranFor s (task s sl old)
        let s := modTask sl old (fun y => { y with state := tskPreempted, ran := ran }) (tskCnt sl 7 s)
        modCore c (fun y => { y with preempted := some old, savedWindow := y.window }) s
      | none => s
    let s := enterTask c t (modCore c (fun y => { y with coming := none }) s)
    coreTrap c true 16 0 (setCsr c 0x344 0 s)

/-- PREEMPTION: a task is dispatched to pre-empt a core's task, or the trap of one dispatched is taken (R276, log 113). -/
def preemption (c : Nat) (s : State) : State :=
  match (coreOf s c).coming with
  | some t => if workIrqOn s c then preemptTrap c t s else withdrawDispatch c s
  | none => preemptDispatch c s

/-! ### Operands (R260, R264) -/

/-- OPERAND_ARRIVAL: an operand reaches a task slot. A delayed timer operand comes by TIMER_OPERAND. -/
def operandArrival (sl t n : Nat) (s : State) : State :=
  let k := task s sl t
  if k.state = tskWaiting ∧ n < 4 ∧ bit k.expect n ∧ !bit k.present n ∧ (n ≠ 3 ∨ k.due = 0) then
    tryReady sl t (modTask sl t (fun x => { x with present := x.present + 2 ^ n }) s)
  else s

/-- TIMER_OPERAND: a delayed timer operand arrives (R259). -/
def timerOperand (sl t : Nat) (s : State) : State :=
  let k := task s sl t
  if k.state = tskWaiting ∧ k.due ≠ 0 ∧ k.due ≤ s.now ∧ bit k.expect 3 ∧ !bit k.present 3 then
    tryReady sl t (modTask sl t (fun x => { x with present := x.present + 8 }) s)
  else s

/-- RUN_LIMIT_EXPIRY: a task RUNNING for run_limit_us ends as CORE_FAULT, and its core is reset and restarted (R253). -/
def runLimitExpiry (c : Nat) (s : State) : State :=
  let sl := sliceOfCore c
  match (coreOf s c).task with
  | none => s
  | some t =>
    let k := task s sl t
    if k.state = tskRunning ∧ cfg1 s (.tskLimitCfg sl) 31 16 * 1000000 ≤ ranFor s k then
      withdrawDispatch c (resetCore c (faultOnCore c t (raise (tskSrc sl 0) evTskCoreStuck c t k.cls 0 s)))
    else s

/-- HOLD_LIMIT_EXPIRY: an ATOMIC hold past hold_limit_us raises TSK_HOLD_LONG once (R266). -/
def holdLimitExpiry (sl l : Nat) (s : State) : State :=
  let k := lock s sl l
  if k.holder.isSome ∧ !k.told ∧ cfg1 s (.tskLimitCfg sl) 15 0 * 1000000 < s.now - k.since then
    raise (tskSrc sl 1) evTskHoldLong 0 0 0 0 (modLock sl l (fun x => { x with told := true }) s)
  else s

/-! ### Rows -/

/-- OPERAND_ARRIVAL. -/
def execOperandArrival (slice task operand : Nat) (s : State) : Out := .next (operandArrival slice task operand s)
/-- TIMER_OPERAND. -/
def execTimerOperand (slice task : Nat) (s : State) : Out := .next (timerOperand slice task s)
/-- TASK_DISPATCH. -/
def execTaskDispatch (slice : Nat) (s : State) : Out := .next (taskDispatch slice s)
/-- RUN_LIMIT_EXPIRY. -/
def execRunLimitExpiry (core : Nat) (s : State) : Out := .next (runLimitExpiry core s)
/-- HOLD_LIMIT_EXPIRY. -/
def execHoldLimitExpiry (slice lock : Nat) (s : State) : Out := .next (holdLimitExpiry slice lock s)
/-- PREEMPTION. -/
def execPreemption (core : Nat) (s : State) : Out := .next (preemption core s)

end Sys2Proof.Machine
end

