-- ==== Sys2Proof/Machine/Cores.lean ====
section
/-! DEFINITION. The flow cores' instructions: RV64IMAC with Zba and Zbb in machine mode (R250–R252), as the named RISC-V
documents give them, and the work extension (R254–R259). -/

namespace Sys2Proof.Machine

/-! ### Numbers -/

/-- Sign-extend the low w bits to 64. -/
def sx (w v : Nat) : Nat := ofSigned 64 (toSigned w v)
/-- A 64-bit register as a bit vector. -/
abbrev X64 := BitVec 64
/-- A number as one. -/
def x64 (n : Nat) : X64 := BitVec.ofNat 64 n
/-- The sign-extended low word of a number. -/
def sxw (n : Nat) : Nat := sx 32 n
/-- Leading zeros of the low w bits. -/
def clzN (w v : Nat) : Nat := if v % 2 ^ w = 0 then w else w - 1 - Nat.log2 (v % 2 ^ w)
/-- Trailing zeros of the low w bits. -/
def ctzN (w v : Nat) : Nat := ((upTo w).find? (fun i => bit v i)).getD w
/-- Set bits of the low w bits. -/
def popN (w v : Nat) : Nat := ((upTo w).filter (fun i => bit v i)).length
/-- Rotate the low w bits left. -/
def rolN (w v k : Nat) : Nat := ((v % 2 ^ w) <<< (k % w) + (v % 2 ^ w) >>> (w - k % w)) % 2 ^ w
/-- Every byte that is not zero becomes 0xFF. -/
def orcb (v : Nat) : Nat := ofLe ((leBytes 8 v).map fun b => if b = 0 then 0 else 0xFF)

/-! ### Arithmetic -/

/-- Signed division as RISC-V gives it: by zero −1, overflow the dividend. -/
def divS (w a b : Nat) : Nat :=
  let x := toSigned w a
  let y := toSigned w b
  if y = 0 then 2 ^ 64 - 1 else ofSigned 64 (Int.tdiv x y) |> fun q => if w = 32 then sxw q else q
/-- Signed remainder. -/
def remS (w a b : Nat) : Nat :=
  let x := toSigned w a
  let y := toSigned w b
  if y = 0 then sx w a else ofSigned 64 (Int.tmod x y)
/-- Unsigned division. -/
def divU (w a b : Nat) : Nat := if b % 2 ^ w = 0 then 2 ^ 64 - 1 else sx w (a % 2 ^ w / (b % 2 ^ w))
/-- Unsigned remainder. -/
def remU (w a b : Nat) : Nat := if b % 2 ^ w = 0 then sx w a else sx w (a % 2 ^ w % (b % 2 ^ w))

/-- OP: funct7, funct3 and two registers; none is illegal. -/
def aluOp (f7 f3 a b : Nat) : Option Nat :=
  let sh := b % 64
  let s1 := toSigned 64 a
  let s2 := toSigned 64 b
  match f7, f3 with
  | 0x00, 0 => some (a + b) | 0x00, 1 => some (a <<< sh) | 0x00, 2 => some (b2n (decide (s1 < s2)))
  | 0x00, 3 => some (b2n (decide (a < b))) | 0x00, 4 => some (Nat.xor a b) | 0x00, 5 => some (a >>> sh)
  | 0x00, 6 => some (Nat.lor a b) | 0x00, 7 => some (Nat.land a b)
  | 0x20, 0 => some (a + (2 ^ 64 - b)) | 0x20, 5 => some ((x64 a).sshiftRight sh).toNat
  | 0x20, 4 => some (2 ^ 64 - 1 - Nat.xor a b) | 0x20, 6 => some (Nat.lor a (2 ^ 64 - 1 - b))
  | 0x20, 7 => some (Nat.land a (2 ^ 64 - 1 - b))
  | 0x01, 0 => some (a * b) | 0x01, 1 => some (ofSigned 64 ((s1 * s2) / (2 ^ 64 : Int)))
  | 0x01, 2 => some (ofSigned 64 ((s1 * Int.ofNat b) / (2 ^ 64 : Int))) | 0x01, 3 => some (a * b / 2 ^ 64)
  | 0x01, 4 => some (divS 64 a b) | 0x01, 5 => some (divU 64 a b) | 0x01, 6 => some (remS 64 a b)
  | 0x01, 7 => some (remU 64 a b)
  | 0x10, 2 => some (2 * a + b) | 0x10, 4 => some (4 * a + b) | 0x10, 6 => some (8 * a + b)
  | 0x05, 4 => some (if s1 < s2 then a else b) | 0x05, 5 => some (Nat.min a b)
  | 0x05, 6 => some (if s1 < s2 then b else a) | 0x05, 7 => some (Nat.max a b)
  | 0x30, 1 => some (rolN 64 a sh) | 0x30, 5 => some (rolN 64 a (64 - sh))
  | _, _ => none

/-- OP-32. -/
def aluOpW (f7 f3 rs2 a b : Nat) : Option Nat :=
  let sh := b % 32
  let w := a % 2 ^ 32
  match f7, f3 with
  | 0x00, 0 => some (sxw (a + b)) | 0x00, 1 => some (sxw (w <<< sh)) | 0x00, 5 => some (sxw (w >>> sh))
  | 0x20, 0 => some (sxw (a + (2 ^ 64 - b)))
  | 0x20, 5 => some (sxw ((BitVec.ofNat 32 a).sshiftRight sh).toNat)
  | 0x01, 0 => some (sxw (a * b)) | 0x01, 4 => some (divS 32 a b) | 0x01, 5 => some (divU 32 a b)
  | 0x01, 6 => some (remS 32 a b) | 0x01, 7 => some (remU 32 a b)
  | 0x04, 0 => some (w + b) | 0x04, 4 => if rs2 = 0 then some (a % 65536) else none
  | 0x10, 2 => some (2 * w + b) | 0x10, 4 => some (4 * w + b) | 0x10, 6 => some (8 * w + b)
  | 0x30, 1 => some (sxw (rolN 32 w sh)) | 0x30, 5 => some (sxw (rolN 32 w (32 - sh)))
  | _, _ => none

/-- OP-IMM: the 12-bit immediate as encoded. -/
def aluImm (f3 imm a : Nat) : Option Nat :=
  let i := sx 12 imm
  let sh := imm % 64
  match f3 with
  | 0 => some (a + i)
  | 2 => aluOp 0 2 a i
  | 3 => aluOp 0 3 a i
  | 4 => some (Nat.xor a i)
  | 6 => some (Nat.lor a i)
  | 7 => some (Nat.land a i)
  | 1 =>
    if imm / 64 = 0 then some (a <<< sh)
    else match imm with
      | 0x600 => some (clzN 64 a) | 0x601 => some (ctzN 64 a) | 0x602 => some (popN 64 a) | 0x604 => some (sx 8 a)
      | 0x605 => some (sx 16 a)
      | _ => none
  | _ =>
    if imm / 64 = 0 then some (a >>> sh)
    else if imm / 64 = 0x10 then aluOp 0x20 5 a sh
    else if imm / 64 = 0x18 then aluOp 0x30 5 a sh
    else if imm = 0x287 then some (orcb a)
    else if imm = 0x6B8 then some (ofBe (leBytes 8 a))
    else none

/-- OP-IMM-32. -/
def aluImmW (f3 imm a : Nat) : Option Nat :=
  let sh := imm % 32
  match f3 with
  | 0 => some (sxw (a + sx 12 imm))
  | 1 =>
    if imm / 32 = 0 then some (sxw ((a % 2 ^ 32) <<< sh))
    else if imm / 64 = 2 then some ((a % 2 ^ 32) <<< (imm % 64))
    else match imm with
      | 0x600 => some (clzN 32 a) | 0x601 => some (ctzN 32 a) | 0x602 => some (popN 32 a)
      | _ => none
  | 5 =>
    if imm / 32 = 0 then aluOpW 0 5 0 a sh else if imm / 32 = 0x20 then aluOpW 0x20 5 0 a sh
    else if imm / 32 = 0x30 then aluOpW 0x30 5 0 a sh else none
  | _ => none

/-- A branch is taken. -/
def branchTaken (f3 a b : Nat) : Option Bool :=
  match f3 with
  | 0 => some (decide (a = b)) | 1 => some (decide (a ≠ b))
  | 4 => some (decide (toSigned 64 a < toSigned 64 b)) | 5 => some (decide (toSigned 64 b ≤ toSigned 64 a))
  | 6 => some (decide (a < b)) | 7 => some (decide (b ≤ a))
  | _ => none

/-- An AMO's new value from the old and the register, on w bits. -/
def amoVal (f5 w old v : Nat) : Option Nat :=
  let a := toSigned w old
  let b := toSigned w v
  let ov := old % 2 ^ w
  let vv := v % 2 ^ w
  match f5 with
  | 0x00 => some (old + v) | 0x01 => some v | 0x04 => some (Nat.xor ov vv) | 0x08 => some (Nat.lor ov vv)
  | 0x0C => some (Nat.land ov vv) | 0x10 => some (if b < a then v else old) | 0x14 => some (if a < b then v else old)
  | 0x18 => some (Nat.min ov vv) | 0x1C => some (Nat.max ov vv)
  | _ => none

/-! ### Compressed instructions -/

/-- Encode an R-type word. -/
def encR (f7 rs2 rs1 f3 rd op : Nat) : Nat := pack [(7, op), (5, rd), (3, f3), (5, rs1), (5, rs2), (7, f7)]
/-- Encode an I-type word. -/
def encI (imm rs1 f3 rd op : Nat) : Nat := pack [(7, op), (5, rd), (3, f3), (5, rs1), (12, imm)]
/-- Encode an S-type word. -/
def encS (imm rs2 rs1 f3 op : Nat) : Nat := pack [(7, op), (5, imm), (3, f3), (5, rs1), (5, rs2), (7, imm / 32)]
/-- Encode a B-type word. -/
def encB (imm rs2 rs1 f3 : Nat) : Nat :=
  pack [(7, 0x63), (1, imm / 2048), (4, imm / 2), (3, f3), (5, rs1), (5, rs2), (6, imm / 32), (1, imm / 4096)]
/-- Encode a J-type word. -/
def encJ (imm rd : Nat) : Nat :=
  pack [(7, 0x6F), (5, rd), (8, imm / 4096), (1, imm / 2048), (10, imm / 2), (1, imm / 2 ^ 20)]

/-- The 32-bit instruction a compressed one stands for; none is illegal. -/
def expandC (i : Nat) : Option Nat :=
  let f3 := fld i 15 13
  let rd := fld i 11 7
  let r2 := fld i 6 2
  let p1 := 8 + fld i 9 7
  let p2 := 8 + fld i 4 2
  let b (n : Nat) : Nat := fld i n n
  let imm6 := fld i 12 12 * 32 + r2
  let simm6 := ofSigned 12 (toSigned 6 imm6)
  match i % 4, f3 with
  | 0, 0 =>
    let m := fld i 12 11 * 16 + fld i 10 7 * 64 + b 6 * 4 + b 5 * 8
    if m = 0 then none else some (encI m 2 0 p2 0x13)
  | 0, 2 => some (encI (fld i 12 10 * 8 + b 6 * 4 + b 5 * 64) p1 2 p2 0x03)
  | 0, 3 => some (encI (fld i 12 10 * 8 + fld i 6 5 * 64) p1 3 p2 0x03)
  | 0, 6 => some (encS (fld i 12 10 * 8 + b 6 * 4 + b 5 * 64) p2 p1 2 0x23)
  | 0, 7 => some (encS (fld i 12 10 * 8 + fld i 6 5 * 64) p2 p1 3 0x23)
  | 1, 0 => some (encI simm6 rd 0 rd 0x13)
  | 1, 1 => if rd = 0 then none else some (encI simm6 rd 0 rd 0x1B)
  | 1, 2 => some (encI simm6 0 0 rd 0x13)
  | 1, 3 =>
    if rd = 2 then
      let m := b 12 * 512 + b 6 * 16 + b 5 * 64 + fld i 4 3 * 128 + b 2 * 32
      if m = 0 then none else some (encI (ofSigned 12 (toSigned 10 m)) 2 0 2 0x13)
    else if imm6 = 0 then none
    else some (pack [(7, 0x37), (5, rd), (20, ofSigned 20 (toSigned 6 imm6))])
  | 1, 4 =>
    match fld i 11 10 with
    | 0 => some (encI imm6 p1 5 p1 0x13)
    | 1 => some (encI (imm6 + 0x400) p1 5 p1 0x13)
    | 2 => some (encI simm6 p1 7 p1 0x13)
    | _ =>
      match b 12, fld i 6 5 with
      | 0, 0 => some (encR 0x20 p2 p1 0 p1 0x33) | 0, 1 => some (encR 0 p2 p1 4 p1 0x33)
      | 0, 2 => some (encR 0 p2 p1 6 p1 0x33) | 0, _ => some (encR 0 p2 p1 7 p1 0x33)
      | _, 0 => some (encR 0x20 p2 p1 0 p1 0x3B) | _, 1 => some (encR 0 p2 p1 0 p1 0x3B)
      | _, _ => none
  | 1, 5 =>
    let m := b 12 * 2048 + b 11 * 16 + fld i 10 9 * 256 + b 8 * 1024 + b 7 * 64 + b 6 * 128 + fld i 5 3 * 2 + b 2 * 32
    some (encJ (ofSigned 21 (toSigned 12 m)) 0)
  | 1, f =>
    let m := b 12 * 256 + fld i 11 10 * 8 + fld i 6 5 * 64 + fld i 4 3 * 2 + b 2 * 32
    some (encB (ofSigned 13 (toSigned 9 m)) 0 p1 (f - 6))
  | 2, 0 => some (encI imm6 rd 1 rd 0x13)
  | 2, 2 => if rd = 0 then none else some (encI (b 12 * 32 + fld i 6 4 * 4 + fld i 3 2 * 64) 2 2 rd 0x03)
  | 2, 3 => if rd = 0 then none else some (encI (b 12 * 32 + fld i 6 5 * 8 + fld i 4 2 * 64) 2 3 rd 0x03)
  | 2, 4 =>
    match b 12, r2 with
    | 0, 0 => if rd = 0 then none else some (encI 0 rd 0 0 0x67)
    | 0, _ => some (encR 0 r2 0 0 rd 0x33)
    | _, 0 => if rd = 0 then some 0x00100073 else some (encI 0 rd 0 1 0x67)
    | _, _ => some (encR 0 r2 rd 0 rd 0x33)
  | 2, 6 => some (encS (fld i 12 9 * 4 + fld i 8 7 * 64) r2 2 2 0x23)
  | 2, 7 => some (encS (fld i 12 10 * 8 + fld i 9 7 * 64) r2 2 3 0x23)
  | _, _ => none

/-! ### The work extension -/

/-- A core runs: present, powered, its image loaded, and not blocked. -/
def coreRuns (s : State) (c : Nat) : Bool :=
  hasCore s.part c && domWorks s (domCluster (clusterOfCore c)) && decide ((cluster s (clusterOfCore c)).fw ≤ 1)
    && (coreOf s c).getting.isNone && (coreOf s c).flowing.isNone

/-- wk.get (R254): illegal in a compatibility cluster or while the core holds a task; else the core blocks. -/
def wkGet (c rd : Nat) (s : State) : State :=
  if compat s (clusterOfCore c) || (coreOf s c).task.isSome then coreIllegal c s
  else modCore c (fun x => { x with getting := some (s.now, rd % 32) }) s

/-- wk.rel (R255). -/
def wkRel (c rs1 : Nat) (s : State) : State :=
  match (coreOf s c).task with
  | none => coreIllegal c s
  | some t => releaseTask c t (coreReg s c rs1) (coreNext c 4 s)

/-- wk.hand (R268). Without a task it is illegal, as wk.rel is. -/
def wkHand (c rs1 rs2 : Nat) (s : State) : State :=
  match (coreOf s c).task with
  | none => coreIllegal c s
  | some t => handTask c t (coreReg s c rs1 % 16384) (coreReg s c rs2 % 64) (coreNext c 4 s)

/-- wk.new (R259): a FIRMWARE task from an argument block. -/
def wkNew (c rd rs1 : Nat) (s : State) : State :=
  let a := coreReg s c rs1
  match coreRd s c a 64 with
  | none => coreTrap c false 5 a s
  | some b =>
    let flags := fld b 15 8
    let sl := if bit flags 0 then fld b 23 16 % 8 else sliceOfCore c
    let s := coreNext c 4 s
    if !hasSlice s.part sl || !domOn s (domSlice sl) then setCoreReg c rd (2 ^ 63 + 4) s
    else
      match freeSlot s sl with
      | none => setCoreReg c rd (2 ^ 63 + 3) (tskCnt sl 9 s)
      | some t =>
        let delay := Nat.max 1 (fld b 95 64 % 2 ^ 20)
        let rec1 := fld b 127 96
        let k : Task := { kind := 6, cls := fld b 7 0 % 64, lock := fld b 47 32 % 16384, expect := 8, record := rec1
                          version := if recLive s (rec1 % 2 ^ 26) && decide (rec1 < 2 ^ 26) then recVer s rec1 else 0
                          timer := fld b 511 128, due := if bit flags 1 then s.now + delay * 1000000 else 0 }
        setCoreReg c rd (sl * 65536 + t) (placeTask sl t false k s)

/-- wk.cancel (R271). -/
def wkCancel (c rd rs1 : Nat) (s : State) : State :=
  let h := coreReg s c rs1
  let s := coreNext c 4 s
  if 2 ^ 19 ≤ h ∨ !hasSlice s.part (h / 65536) then setCoreReg c rd 2 s
  else
    let (st, s) := cancelTask (h / 65536) (h % 65536) s
    setCoreReg c rd st s

/-- Reply to a core's wk.flow request: status and result words by offset in the reply block (R256). -/
def replyCore (c st : Nat) (words : List (Nat × Nat)) (s : State) : State :=
  let s := if st = 1 then tskCnt (sliceOfCore c) 12 s else s
  modCore c (fun x => { x with reply := some (rdN x.window 0x2C0 1, st, words) }) s

/-- The slice a wk.flow request goes to (R256): the owner of its record, or the pool's slice. None when it names no
record or pool the device has. -/
def wkTarget (s : State) (c : Nat) (k : Task) (q aux : Nat) : Option Nat :=
  let op := fld q 7 0
  let byRec (r : Nat) : Option Nat :=
    if r < 2 ^ 26 ∧ hasDie s.part (r / 2 ^ 24) then some (recOwner s r) else none
  if op = 1 ∨ op = 2 ∨ op = 3 then byRec k.record
  else if op = 0x0A then (if fld q 71 64 < 64 then some (natSlice s (fld q 71 64)) else none)
  else if op = 8 ∧ bit (fld q 15 8) 1 then
    let (h, _) := keyHashes s (dieOfCore c) (leBytes 40 aux) (fld aux 323 320)
    some (halfOwner s (homeHalf s h))
  else byRec (fld q 63 32)

/-- wk.flow (R256): the request block goes to its owner and the core blocks. -/
def wkFlow (c rd : Nat) (s : State) : State :=
  let sl := sliceOfCore c
  let w := (coreOf s c).window
  let q := rdN w 0x2C0 64
  let op := fld q 7 0
  let s := modCore c (fun x => { x with flowing := some (rd % 32) }) s
  match (coreOf s c).task with
  | none => replyCore c 4 [] s
  | some t =>
    let s := tskCnt sl 11 s
    let aux := rdN w 0x400 256
    if op = 0 ∨ 0x0C < op then replyCore c 4 [] s
    else
      match wkTarget s c (task s sl t) q aux with
      | none => replyCore c 2 [] s
      | some o => modSlice o (fun x => { x with wk := x.wk ++ [⟨c, t, q, rdN w 0x100 256, aux⟩] }) s

/-- WK_FLOW_REPLY: the reply block is written and the core resumes with its status (R256, R258). -/
def wkFlowReply (c : Nat) (s : State) : State :=
  let k := coreOf s c
  match k.reply, k.flowing with
  | some (op, st, words), some rd =>
    let w := wrN (wrN k.window 0x300 1 st) 0x301 1 op
    let w := words.foldl (fun w e => wrBytes w (0x300 + e.1) (leBytes (if e.1 = 12 ∧ op = 0x0A then 2 else if op = 0x0B then 2 else 4) e.2)) w
    let w := match k.replyImage with
      | some img => wrN w 0x100 256 img
      | none => w
    let s := modCore c (fun x => { x with reply := none, replyImage := none, flowing := none, window := w }) s
    coreNext c 4 (setCoreReg c rd st s)
  | _, _ => s

/-- wk.evt (R254, R462): a firmware event with code OR 0x8000. -/
def wkEvt (c rs1 rs2 : Nat) (s : State) : State :=
  let v := coreReg s c rs1
  let a := coreReg s c rs2
  match coreRd s c a 16 with
  | none => coreTrap c false 5 a s
  | some p =>
    raiseSev (fld v 17 16) (tskSrc (sliceOfCore c) (32 + c % 24)) (Nat.lor (v % 65536) 0x8000) (fld p 31 0) (fld p 63 32)
      (fld p 95 64) (fld p 127 96) (coreNext c 4 s)

/-! ### CORE_INSTRUCTION -/

/-- A store takes away other cores' reservations of its address. -/
def breakResv (c a n : Nat) (s : State) : State :=
  each ((upTo 8).map (8 * clusterOfCore c + ·)) (fun k t =>
    match (coreOf t k).resv with
    | some r => if k ≠ c ∧ 0x11000000 ≤ a ∧ r < a + n ∧ a < r + 8 then modCore k (fun x => { x with resv := none }) t else t
    | none => t) s

/-- A core's store; misaligned 6, access fault 7. -/
def coreStore (c a n v len : Nat) (s : State) : State :=
  if a % n ≠ 0 then coreTrap c false 6 a s
  else
    match coreWr c a n v s with
    | none => coreTrap c false 7 a (countPoisonStore c a n s)
    | some s => coreNext c len (breakResv c a n s)

/-- A core's load; misaligned 4, access fault 5. -/
def coreLoad (c a n rd len : Nat) (sign : Bool) (s : State) : State :=
  if a % n ≠ 0 then coreTrap c false 4 a s
  else
    match coreRd s c a n with
    | none => coreTrap c false 5 a s
    | some v => coreNext c len (setCoreReg c rd (if sign then sx (8 * n) v else v) s)

/-- LR, SC and AMOs (R252). -/
def coreAmo (c f5 n rd rs2 a len : Nat) (s : State) : State :=
  let lr := decide (f5 = 2)
  if a % n ≠ 0 then coreTrap c false (if lr then 4 else 6) a s
  else if !coreAtomicOk a n then coreTrap c false (if lr then 5 else 7) a s
  else
    match coreRd s c a n with
    | none => coreTrap c false (if lr then 5 else 7) a s
    | some old =>
      let v := coreReg s c rs2
      if f5 = 2 then
        if rs2 ≠ 0 then coreIllegal c s
        else coreNext c len (modCore c (fun x => { x with resv := some a }) (setCoreReg c rd (sx (8 * n) old) s))
      else if f5 = 3 then
        let ok := decide ((coreOf s c).resv = some a)
        let s := modCore c (fun x => { x with resv := none }) s
        let s := setCoreReg c rd (b2n (!ok)) s
        if ok then coreStore c a n v len s else coreNext c len s
      else
        match amoVal f5 (8 * n) old v with
        | none => coreIllegal c s
        | some new => coreStore c a n new len (setCoreReg c rd (sx (8 * n) old) s)

/-- A CSR instruction. -/
def coreCsr (c f3 csr rd rs1 len : Nat) (s : State) : State :=
  let v := if 5 ≤ f3 then rs1 else coreReg s c rs1
  match csrRead s c csr with
  | none => coreIllegal c s
  | some old =>
    let new := match f3 % 4 with
      | 1 => v
      | 2 => Nat.lor old v
      | _ => Nat.land old (2 ^ 64 - 1 - v)
    let t := if f3 % 4 = 1 ∨ rs1 ≠ 0 then csrWrite c csr new s else some s
    match t with
    | none => coreIllegal c s
    | some s =>
      let s := coreNext c len (setCoreReg c rd old s)
      if csr = 0xB02 ∧ (f3 % 4 = 1 ∨ rs1 ≠ 0) then setCsr c csr new s else s

/-- mret. -/
def coreMret (c : Nat) (s : State) : State :=
  let st := csrRaw s c 0x300
  let e := csrRaw s c 0x341
  let s := coreNext c 0 (setCsr c 0x300 (b2n (bit st 7) * 8 + 128) s)
  modCore c (fun x => { x with pc := e }) s

/-- Write rd with a result, or raise an illegal instruction. -/
def coreResult (c rd len : Nat) (r : Option Nat) (s : State) : State :=
  match r with
  | some v => coreNext c len (setCoreReg c rd v s)
  | none => coreIllegal c s

/-- Execute an instruction of len bytes, given as its 32-bit form. -/
def coreExec (c i len : Nat) (s : State) : State :=
  let rd := fld i 11 7
  let f3 := fld i 14 12
  let rs1 := fld i 19 15
  let rs2 := fld i 24 20
  let f7 := fld i 31 25
  let imm := fld i 31 20
  let a := coreReg s c rs1
  let b := coreReg s c rs2
  let pc := (coreOf s c).pc
  let go (t : Nat) (s : State) : State := modCore c (fun x => { x with pc := t % 2 ^ 64 }) (coreNext c len s)
  match fld i 6 0 with
  | 0x37 => coreResult c rd len (some (sx 32 (i - i % 4096))) s
  | 0x17 => coreResult c rd len (some (pc + sx 32 (i - i % 4096))) s
  | 0x6F =>
    let off := sx 21 (pack [(1, 0), (10, fld i 30 21), (1, fld i 20 20), (8, fld i 19 12), (1, fld i 31 31)])
    setCoreReg c rd (pc + len) (go (pc + off) s)
  | 0x67 => if f3 ≠ 0 then coreIllegal c s else
    let t := (a + sx 12 imm) % 2 ^ 64
    setCoreReg c rd (pc + len) (go (t - t % 2) s)
  | 0x63 =>
    let off := sx 13 (pack [(1, 0), (4, fld i 11 8), (6, fld i 30 25), (1, fld i 7 7), (1, fld i 31 31)])
    match branchTaken f3 a b with
    | none => coreIllegal c s
    | some t => if t then go (pc + off) s else coreNext c len s
  | 0x03 => if f3 = 7 then coreIllegal c s
    else coreLoad c ((a + sx 12 imm) % 2 ^ 64) (2 ^ (f3 % 4)) rd len (decide (f3 < 4)) s
  | 0x23 => if 4 ≤ f3 then coreIllegal c s
    else coreStore c ((a + sx 12 (f7 * 32 + rd)) % 2 ^ 64) (2 ^ f3) b len s
  | 0x13 => coreResult c rd len (aluImm f3 imm a) s
  | 0x1B => coreResult c rd len (aluImmW f3 imm a) s
  | 0x33 => coreResult c rd len (aluOp f7 f3 a b) s
  | 0x3B => coreResult c rd len (aluOpW f7 f3 rs2 a b) s
  | 0x0F => if f3 = 0 then coreNext c len s else coreIllegal c s
  | 0x2F => if f3 = 2 ∨ f3 = 3 then coreAmo c (f7 / 4) (2 ^ f3) rd rs2 a len s else coreIllegal c s
  | 0x73 =>
    if f3 = 0 then
      if i = 0x00000073 then coreTrap c false 11 0 s
      else if i = 0x00100073 then coreTrap c false 3 0 s
      else if i = 0x30200073 then coreMret c s
      else if i = 0x10500073 then coreNext c len (modCore c (fun x => { x with wfi := true }) s)
      else coreIllegal c s
    else if f3 = 4 then coreIllegal c s
    else coreCsr c f3 imm rd rs1 len s
  | 0x0B =>
    if f7 ≠ 0 then coreIllegal c s
    else match f3 with
      | 0 => wkGet c rd s | 1 => wkRel c rs1 s | 2 => wkHand c rs1 rs2 s | 3 => wkNew c rd rs1 s
      | 4 => wkCancel c rd rs1 s | 5 => wkFlow c rd s | 6 => wkEvt c rs1 rs2 s
      | _ => coreIllegal c s
  | _ => coreIllegal c s

/-- A core takes its pending work interrupt, or retires the instruction at its pc (R250, R275); the trap of a pre-empting task
is PREEMPTION's. -/
def coreStep (c : Nat) (s : State) : State :=
  if !coreRuns s c then s
  else
    let pend := bit (csrRaw s c 0x344) 16
    if pend && workIrqOn s c && (coreOf s c).coming.isNone then
      coreTrap c true 16 0 (setCsr c 0x344 0 s)
    else if (coreOf s c).wfi && !(pend && bit (csrRaw s c 0x304) 16) then s
    else
      let s := modCore c (fun x => { x with wfi := false }) s
      let pc := (coreOf s c).pc
      let m := (cluster s (clusterOfCore c)).isram
      if 0x80000 < pc + 2 then coreTrap c false 1 pc s
      else
        let lo := rdN m pc 2
        if lo % 4 ≠ 3 then
          match expandC lo with
          | none => coreIllegal c s
          | some i => coreExec c i 2 s
        else if 0x80000 < pc + 4 then coreTrap c false 1 (pc + 2) s
        else coreExec c (rdN m pc 4) 4 s

/-- CORE_INSTRUCTION: one step of a core; one that clears mstatus.MIE before a pre-empting task's trap is taken has the dispatch
withdrawn (R276). -/
def coreInstruction (c : Nat) (s : State) : State := withdrawDispatch c (coreStep c s)

/-- Run a work-extension instruction on a core that runs. -/
def onCore (c : Nat) (f : State → State) (s : State) : State := if coreRuns s c then f s else s

/-! ### Rows -/

/-- CORE_INSTRUCTION. -/
def execCoreInstruction (core : Nat) (s : State) : Out := .next (coreInstruction core s)
/-- WK_GET. -/
def execWkGet (core rd : Nat) (s : State) : Out := .next (onCore core (wkGet core rd) s)
/-- WK_REL. -/
def execWkRel (core rs1 : Nat) (s : State) : Out := .next (onCore core (wkRel core rs1) s)
/-- WK_HAND. -/
def execWkHand (core rs1 rs2 : Nat) (s : State) : Out := .next (onCore core (wkHand core rs1 rs2) s)
/-- WK_NEW. -/
def execWkNew (core rd rs1 : Nat) (s : State) : Out := .next (onCore core (wkNew core rd rs1) s)
/-- WK_CANCEL. -/
def execWkCancel (core rd rs1 : Nat) (s : State) : Out := .next (onCore core (wkCancel core rd rs1) s)
/-- WK_FLOW. -/
def execWkFlow (core rd : Nat) (s : State) : Out := .next (onCore core (wkFlow core rd) s)
/-- WK_EVT. -/
def execWkEvt (core rs1 rs2 : Nat) (s : State) : Out := .next (onCore core (wkEvt core rs1 rs2) s)
/-- WK_FLOW_REPLY. -/
def execWkFlowReply (core : Nat) (s : State) : Out := .next (wkFlowReply core s)

end Sys2Proof.Machine
end

