-- ==== Sys2Proof/Machine/Parser.lean ====
section
/-! DEFINITION. The parser: the walk of the parse graph with its limits (R100–R104), the malformed causes (R105) and
the comparisons deferred to the frame's end (R106). -/

namespace Sys2Proof.Machine

/-- What parsing a frame gives. -/
structure Parsed where
  /-- headers parsed, in order -/
  hdrs : List HdrRec := []
  /-- the malformed cause, 0 for none; R105 -/
  cause : Nat := 0
  /-- causes of deferred comparisons that the frame's end will fail, in parse order; R106 -/
  deferred : List Nat := []
  /-- PARSE_DEPTH; R104 -/
  depth : Bool := false
  /-- the key profile of the last state completed; R104, R108 -/
  keyProf : Nat := 0
deriving DecidableEq, Repr

/-- A byte of a frame, 0 past its end. -/
def fb (bs : List Byte) (i : Nat) : Nat := (bs.getD i 0).toNat

/-- A 16-bit big-endian window of a frame. -/
def fw16 (bs : List Byte) (i : Nat) : Nat := 256 * fb bs i + fb bs (i + 1)

/-- A field of a 16-bit window; a width of 0 means 16 (R100). -/
def winField (bs : List Byte) (off lsb width : Nat) : Nat := (fw16 bs off >>> lsb) % 2 ^ (if width = 0 then 16 else width)

/-- A header's length under its state's entry (R100): a state that records nothing has length 0. -/
def stateLen (bs : List Byte) (c e : Nat) : Nat :=
  if fld e 7 0 = 0 then 0
  else if fld e 25 24 = 1 then winField bs (c + fld e 31 26) (fld e 35 32) (fld e 39 36) * 2 ^ fld e 42 40 + fld e 50 43
  else fld e 23 16

/-- One check: its cause, whether it fails at once, and the end it compares with the frame's. -/
structure PCheck where
  /-- cause -/
  code : Nat
  /-- it fails whatever the frame's length -/
  bad : Bool
  /-- the end claimed, when the comparison is with the frame's end -/
  upto : Option Nat
deriving DecidableEq, Repr

/-- The nearest IP header parsed before. -/
def nearIp (hs : List HdrRec) : Option HdrRec := (hs.filter fun h => decide (h.cls = 4) || decide (h.cls = 5)).getLast?

/-- The nearest IPv6 header parsed before. -/
def nearIp6 (hs : List HdrRec) : Option HdrRec := (hs.filter fun h => decide (h.cls = 5)).getLast?

/-- The end of an IP header's payload, by its own length. -/
def ipEnd (bs : List Byte) (h : HdrRec) : Nat :=
  if h.cls = 5 then h.off + 40 + fw16 bs (h.off + 4) else h.off + fw16 bs (h.off + 2)

/-- A comparison of an end with the payload of an IP header, or with the frame's end where there is none. -/
def endCheck (code : Nat) (bad : Bool) (x : Nat) (limit : Option Nat) : PCheck :=
  match limit with
  | some l => ⟨code, bad || decide (l < x), none⟩
  | none => ⟨code, bad, some x⟩

/-- The ones' complement sum of a header's 16-bit words. n counts words. -/
def csumWords (bs : List Byte) (off : Nat) : Nat → Nat
  | 0 => 0
  | n + 1 => fw16 bs off + csumWords bs (off + 2) n

/-- The header checksum of an IPv4 header is right. -/
def ip4CsumOk (bs : List Byte) (c : Nat) : Bool := decide (fold16 (csumWords bs c (2 * (fb bs c % 16))) = 65535)

/-- The checks of a header's class beyond FRAME_SHORT, in the order of their codes (R103, R105). -/
def classChecks (bs : List Byte) (hs : List HdrRec) (cls c len : Nat) (csum : Bool) : List PCheck :=
  match cls with
  | 4 =>
    let ihl := fb bs c % 16
    let total := fw16 bs (c + 2)
    [⟨3, decide (fb bs c / 16 ≠ 4), none⟩, ⟨4, decide (ihl < 5), none⟩, ⟨5, decide (total < 4 * ihl), some (c + total)⟩,
     ⟨6, csum && !ip4CsumOk bs c, none⟩,
     ⟨9, match nearIp hs with | some h => decide (ipEnd bs h < c + total) | none => false, none⟩]
  | 5 =>
    let x := c + 40 + fw16 bs (c + 4)
    [⟨3, decide (fb bs c / 16 ≠ 6), none⟩, ⟨7, false, some x⟩,
     ⟨9, match nearIp hs with | some h => decide (ipEnd bs h < x) | none => false, none⟩]
  | 6 => [endCheck 8 false (c + len) ((nearIp6 hs).map (ipEnd bs))]
  | 7 =>
    let n := fw16 bs (c + 4)
    [endCheck 10 (decide (n < 8)) (c + n) ((nearIp hs).map (ipEnd bs))]
  | 8 =>
    let d := fb bs (c + 12) / 16
    [endCheck 11 (decide (d < 5)) (c + 4 * d) ((nearIp hs).map (ipEnd bs))]
  | 11 =>
    let x := c + 8 + 4 * (fb bs c % 64)
    let udp := match hs.getLast? with
      | some h => if h.cls = 7 then some (h.off + fw16 bs (h.off + 4)) else none
      | none => none
    [endCheck 13 false x udp]
  | 12 => [⟨12, decide (fw16 bs c % 8 ≠ 0) || decide (Nat.land (fw16 bs c) 0x4FF8 ≠ 0), none⟩]
  | _ => []

/-- Run checks in order: the first that fails now, and the causes of the deferred ones that the frame's end fails.
An end beyond byte 512 is compared at the frame's end (R106). -/
def runChecks (flen : Nat) : List PCheck → List Nat → Nat × List Nat
  | [], d => (0, d)
  | k :: r, d =>
    if k.bad then (k.code, d)
    else
      match k.upto with
      | none => runChecks flen r d
      | some x =>
        if x ≤ flen then runChecks flen r d
        else if 512 < x then runChecks flen r (d ++ [k.code])
        else (k.code, d)

/-- The checks of one header: FRAME_SHORT, those of its class, and HDR_LEN (R103, R105). -/
def headerChecks (bs : List Byte) (hs : List HdrRec) (e c len : Nat) (csum : Bool) : List PCheck :=
  let cls := fld e 7 0
  if cls = 0 then []
  else
    [⟨1, false, some (c + fld e 23 16)⟩] ++ classChecks bs hs cls c len csum
      ++ if fld e 25 24 = 1 then [⟨14, decide (len < fld e 23 16), some (c + len)⟩] else []

/-- The next state a transition list selects. -/
def nextState (s : State) (p : Nat) (bank : Bool) (e sel : Nat) : Option Nat :=
  let n := if bit e 14 then fld e 79 76 else 0
  (upTo n).findSome? fun i =>
    let t := objGet s 0x0102 p (bankNo bank) ((fld e 75 65 + i) % 2048)
    if bit t 40 && decide (Nat.land sel (fld t 31 16) = Nat.land (fld t 15 0) (fld t 31 16)) then some (fld t 39 32) else none

/-- Walk the graph from a state. n counts the states that may still be entered; prof is the key profile of the last
state completed. -/
def parseFrom (s : State) (p : Nat) (bank : Bool) (bs : List Byte) (csum depthMode : Bool) :
    Nat → Nat → Nat → Nat → List HdrRec → List Nat → Parsed
  | 0, _, _, prof, hs, d => stop prof hs d
  | n + 1, st, c, prof, hs, d =>
    let e := objGet s 0x0101 p (bankNo bank) (st % 256)
    let len := stateLen bs c e
    let cls := fld e 7 0
    let rec1 := decide (cls ≠ 0) && bit e 8
    let fixEnd := c + fld e 23 16
    let hend := if 512 < fixEnd then fixEnd else c + len
    let deep := rec1 && (decide (16 ≤ (hs.filter (·.recorded)).length) || decide (512 < hend))
    if deep then stop prof hs d
    else
      let (bad, d) := runChecks bs.length (headerChecks bs hs e c len csum) d
      if bad ≠ 0 then { hdrs := hs, cause := bad, keyProf := prof }
      else
        let hs := if cls = 0 then hs else hs ++ [⟨cls, c, len, bit e 8⟩]
        let own := fld e 13 10
        if bit e 9 then { hdrs := hs, deferred := d, keyProf := own }
        else
          match nextState s p bank e (winField bs (c + fld e 56 51) (fld e 60 57) (fld e 64 61)) with
          | some t => parseFrom s p bank bs csum depthMode n t (c + len) own hs d
          | none =>
            if !bit e 14 || bit e 88 then { hdrs := hs, cause := 2, keyProf := own }
            else parseFrom s p bank bs csum depthMode n (fld e 87 80) (c + len) own hs d
where
  /-- A limit of R104 is reached. -/
  stop (prof : Nat) (hs : List HdrRec) (d : List Nat) : Parsed :=
    if depthMode then { hdrs := hs, deferred := d, depth := true, keyProf := prof }
    else { hdrs := hs, cause := 15, depth := true, keyProf := prof }

/-- Parse a frame under a parse profile of a pipeline (R102, R130). -/
def parse (s : State) (p : Nat) (bank : Bool) (prof : Nat) (bs : List Byte) : Parsed :=
  let r := Reg.prsProfile p (prof % 16)
  let st := cfg s r 7 0
  let own := fld (objGet s 0x0101 p (bankNo bank) st) 13 10
  parseFrom s p bank bs (cfgBit s r 9) (cfgBit s r 8) 64 st 0 own [] []

/-- Recorded headers of a parse, in order. -/
def recordedHdrs (hs : List HdrRec) : List HdrRec := hs.filter (·.recorded)

end Sys2Proof.Machine
end

