-- ==== Sys2Proof/Machine/Classify.lean ====
section
/-! DEFINITION. Classification: extractors and keys (R108, R109), lookups (R110, R113, R114), the merge (R117, R118),
hashes (R120), bridging and routing results (R141, R142, R145, R156), and the flow key (R174, R175). -/

namespace Sys2Proof.Machine

/-! ### Keys -/

/-- The metadata of R109 as eight bytes: ingress port, VRF, header-present map, pass number, ingress traffic class. -/
def metaBytes (port vrf : Nat) (hs : List HdrRec) (depth : Bool) (pass tc : Nat) : List Byte :=
  let map := sumL (((upTo 14).filter fun k => decide (1 ≤ k) && hs.any fun h => h.recorded && decide (h.cls = k)).map (2 ^ ·))
    + (if depth then 2 ^ 15 else 0)
  beBytes 2 port ++ beBytes 2 vrf ++ beBytes 2 map ++ beBytes 1 pass ++ beBytes 1 tc

/-- The header an occurrence selects among the recorded headers of a class: first, second, last, second-to-last. -/
def occurrence (hs : List HdrRec) (cls occ : Nat) : Option HdrRec :=
  let l := hs.filter fun h => h.recorded && decide (h.cls = cls)
  match occ with
  | 0 => l[0]?
  | 1 => l[1]?
  | 2 => l.getLast?
  | _ => l.dropLast.getLast?

/-- The bytes an extractor adds: none when it is not valid (R109). -/
def extract (bs : List Byte) (hs : List HdrRec) (md : List Byte) (x : Nat) : List Byte :=
  if !bit x 18 then []
  else
    let w := fld x 17 16 + 1
    let o := fld x 15 10
    if fld x 7 0 = 0xFF then takeBytes md o w
    else
      match occurrence hs (fld x 7 0) (fld x 9 8) with
      | none => List.replicate w 0
      | some h => (upTo w).map fun i => if o + i < h.len then bs.getD (h.off + o + i) 0 else 0

/-- The bytes of n extractors of an image, one list each. -/
def extracts (bs : List Byte) (hs : List HdrRec) (md : List Byte) (img n : Nat) : List (List Byte) :=
  (upTo n).map fun i => extract bs hs md (fld img (32 * i + 31) (32 * i))

/-- Exchange the swap pairs when the first of each pair is the greater (R120). Answers whether it did. -/
def symSwap (pairs : Nat) (l : List (List Byte)) : Bool × List (List Byte) :=
  let a0 := fld pairs 4 0
  let b0 := fld pairs 12 8
  let a1 := fld pairs 20 16
  let b1 := fld pairs 28 24
  let v (i : Nat) : Nat := ofBe (nth [] l i)
  let go := decide (v b0 < v a0) || (decide (v a0 = v b0) && decide (v b1 < v a1))
  let swap (a b : Nat) (m : List (List Byte)) : List (List Byte) := setAt (setAt m a (nth [] m b)) b (nth [] m a)
  if go then (true, swap a1 b1 (swap a0 b0 l)) else (false, l)

/-- A chosen-field hash (R120). -/
def fieldHash (img : Nat) (l : List (List Byte)) : Nat :=
  let m := if bit img 24 then (symSwap (fld img 63 32) l).2 else l
  crc32cFrom (fld img 95 64) (((upTo 24).filter (bit img ·)).flatMap (nth [] m ·))

/-! ### Lookups (R110–R114) -/

/-- A search key of w units from a key byte (R110). -/
def searchKey (key : List Byte) (start w : Nat) : List Byte := takeBytes (key.take 96) start (20 * w)

/-- Two key strings agree under a mask. -/
def maskEq : List Byte → List Byte → List Byte → Bool
  | k :: ks, e :: es, m :: ms => decide (k &&& m = e &&& m) && maskEq ks es ms
  | _, _, _ => true

/-- An entry's image matches a search key. -/
def keyMatches (w img : Nat) (k : List Byte) : Bool :=
  maskEq k (leBytes (20 * w) img) (leBytes (20 * w) (img / 2 ^ (160 * w)))

/-- An entry's priority. -/
def matchPrio (w img : Nat) : Nat := fld img (8 * (40 * w + 1) + 7) (8 * 40 * w)

/-- An entry's action. -/
def matchAction (w img : Nat) : Nat := fld img (8 * (40 * w + 23) + 7) (8 * (40 * w + 8))

/-- The winner of a search of the banks of a mask (R113): highest priority, then lowest address. -/
def searchBanks (s : State) (p : Nat) (bank : Bool) (mask w : Nat) (k : List Byte) : Option Nat :=
  let hits := s.cls.tcam.filterMap fun e =>
    let a := e.1 % 16384
    if e.1 / 16384 = p ∧ bit mask (a / 2048) ∧ a % w = 0 ∧ bit (matchFlags w e.2) 0 ∧ memberOf w e.2 bank
      ∧ mget false s.cls.suspect e.1 = false ∧ keyMatches w e.2 k then some (a, matchPrio w e.2) else none
  match hits with
  | [] => none
  | h :: r => some (r.foldl (fun (b : Nat × Nat) x => if b.2 < x.2 then x else b) h).1

/-- Search and verify: a winner that its SRAM copy does not match is marked suspect, reported, and searched again at
most three times (R114). n counts the searches left. -/
def verified (p : Nat) (bank : Bool) (mask w : Nat) (k : List Byte) : Nat → State → Option (Option Nat) × State
  | 0, s => (none, s)
  | n + 1, s =>
    match searchBanks s p bank mask w k with
    | none => (some none, s)
    | some a =>
      if keyMatches w (sramEntry s p a) k then (some (some a), s)
      else
        let s := raise (clsSrc p 0) evMbFalseHit p a 0 0 (markSuspect p a true (cntInc 0x0182 p 1 s))
        verified p bank mask w k n (if n = 0 then s else cntInc 0x0182 p 2 s)

/-- The first bank of a mask. -/
def firstBank (mask : Nat) : Nat := ((upTo 8).find? (bit mask ·)).getD 0

/-- The four lookups of a pass: none for a lookup that is not enabled or finds nothing, with the entry's address and
action; false at the end when VERIFY_LIMIT is reached. -/
def lookups (p : Nat) (bank : Bool) (prof : Nat) (key : List Byte) : List Nat → State → (List (Nat × Nat) × Bool) × State
  | [], s => (([], true), s)
  | i :: r, s =>
    let l := fld prof (768 + 16 * i + 15) (768 + 16 * i)
    let mask := fld l 7 0
    if !bit l 15 || decide (mask = 0) then lookups p bank prof key r s
    else
      let w := bankWidth s p (firstBank mask)
      match verified p bank mask w (searchKey key (fld l 14 8) w) 4 s with
      | (none, s) => (([], false), s)
      | (some none, s) => lookups p bank prof key r s
      | (some (some a), s) =>
        let ((rest, ok), s) := lookups p bank prof key r s
        (((a, matchAction w (sramEntry s p a)) :: rest, ok), s)

/-! ### Bridging and routing -/

/-- The outermost recorded tag. -/
def frameTag (hs : List HdrRec) : Option HdrRec := hs.find? fun h => h.recorded && decide (h.cls = 2)

/-- The VLAN of a frame (R141). -/
def frameVlan (s : State) (port : Nat) (bs : List Byte) (hs : List HdrRec) : Nat :=
  let v := match frameTag hs with
    | some h => fw16 bs h.off % 4096
    | none => 0
  if v = 0 then cfg s (.fwdPortCfg port) 11 0 else v

/-- The place of the outer Ethernet header. -/
def etherOff (hs : List HdrRec) : Nat := match hs.find? fun h => decide (h.cls = 1) with | some h => h.off | none => 0

/-- The ingress target a port learns as (R147). -/
def ingressTarget (s : State) (port : Nat) : Nat :=
  if cfgBit s (.fwdPortCfg port) 29 then mkTgt 4 (cfg s (.fwdPortCfg port) 28 16) else mkTgt 3 port

/-- The result of a source lookup in a die's copy: 0 none, 1 miss, 2 another dest, 3 match with hit clear, 4 match
(R145, R147); and whether the entry is frozen. -/
def sourceLookup (s : State) (die fid mac tgt : Nat) : Nat × Bool :=
  if bit mac 40 then (0, false)
  else
    match l2Find s die fid mac with
    | none => (1, false)
    | some i =>
      let e := l2Get s die i
      (if l2Dest e ≠ tgt then 2 else if l2Hit e then 4 else 3, l2Frozen e)

/-- The destination address of an IP header, and its TTL or hop limit. -/
def ipDest (bs : List Byte) (h : HdrRec) : Nat × Nat :=
  if h.cls = 5 then (ofBe (takeBytes bs (h.off + 24) 16), fb bs (h.off + 7)) else (ofBe (takeBytes bs (h.off + 16) 4), fb bs (h.off + 8))

/-- Fill in a snapshot's forwarding result (R141–R145, R156, R161). target is its destination, dropCnt a drop's counter,
and disp 3 an exception's punt. -/
def forwardResult (p port : Nat) (bs : List Byte) (hs : List HdrRec) (sn : Snap) (s : State) : Snap × State :=
  let die := dieOfPipe p
  let vlan := frameVlan s port bs hs
  let v := tEntry s die 0x0205 vlan
  let sn := { sn with vlan := vlan, vrf := fld v 25 14, fid := fld v 13 0 }
  if !bit v 52 then ({ sn with dropCnt := some (0x0281, die, 15) }, s)
  else
    let o := etherOff hs
    let dmac := ofBe (takeBytes bs o 6)
    let smac := ofBe (takeBytes bs (o + 6) 6)
    let tgt := ingressTarget s port
    let (src, frozen) := sourceLookup s die sn.fid smac tgt
    let rm := tEntry s die 0x0206 (fld v 51 44)
    let ip := firstIp hs
    let routed := bit v 43 && bit rm 48 && decide (fld rm 47 0 = dmac) && ip.isSome
    let mode := cfg s (.fwdPortCfg port) 31 30
    let sn := { sn with srcMac := smac, srcHit := src, learn := bit v 42 && (decide (mode = 1) || decide (mode = 2)), routed := routed }
    let dstTgt := match l2Find s die sn.fid dmac with
      | some i => l2Dest (l2Get s die i)
      | none => mkTgt 5 (fld v 41 26)
    let (sn, s) := match routed, ip with
      | true, some h =>
        let (dst, ttl) := ipDest bs h
        let (t, probes) := lpmLookup s die (decide (h.cls = 5)) sn.vrf dst
        let s := if 4 < probes then cntAdd 0x0281 die 14 ((probes - 4 + 3) / 4) s else s
        if ttl ≤ 1 then ({ sn with disp := 3, puntRing := cfg s (.fwdPuntCfg die) 7 0, reason := 8 }, s)
        else
          match t with
          | some t => ({ sn with target := t }, s)
          | none => ({ sn with dropCnt := some (0x0281, die, 13) }, s)
      | _, _ => ({ sn with target := dstTgt }, s)
    if frozen && decide (src = 2) && cfgBit s (.fwdLearnCfg die) 20 then
      ({ sn with disp := 2, dropCnt := some (0x0281, die, 15) }, s)
    else (sn, s)

/-- The VRF of a frame's VLAN, which the metadata carries (R109, R141). -/
def metaVrf (s : State) (p port : Nat) (bs : List Byte) (hs : List HdrRec) : Nat :=
  fld (tEntry s (dieOfPipe p) 0x0205 (frameVlan s port bs hs)) 25 14

/-- A peer-delay message on a P2P port is punted (R371). -/
def ptpPunt (s : State) (port : Nat) (bs : List Byte) (hs : List HdrRec) : Bool :=
  match hs.find? fun h => h.recorded && decide (h.cls = 13) with
  | none => false
  | some h =>
    let ty := fb bs h.off % 16
    decide (fb bs (h.off + 1) % 16 = 2) && decide (34 ≤ h.len) && decide (h.off + 34 ≤ bs.length)
      && decide (cfg s (.timPortCfg port) 31 30 = 2) && (decide (ty = 2) || decide (ty = 3) || decide (ty = 10))

/-! ### The merge (R118) -/

/-- The first of a list of winners' actions that sets a thing. -/
def firstSet {A : Type} (ws : List (Nat × Nat)) (has : Nat → Bool) (val : Nat → A) : Option A :=
  (ws.find? fun w => has w.2).map fun w => val w.2

/-- Merge the winners' actions into a snapshot that holds the forwarding result (R117, R118). -/
def mergeActions (ws : List (Nat × Nat)) (flowProf : Nat) (sn : Snap) : Snap :=
  let hits := (ws.filter fun w => bit w.2 80).map fun w => fld w.2 79 64
  let sn := { sn with
    rules := hits, mirror := firstSet ws (bit · 4) (fld · 12 5), tc := firstSet ws (bit · 13) (fld · 17 14)
    prof := (firstSet ws (bit · 18) (fld · 22 19)).getD flowProf, skip := ws.any fun w => bit w.2 23 }
  match ws.find? fun w => fld w.2 3 0 = 2 with
  | some w => { sn with disp := 2, rule := w.1, dropCnt := none }
  | none =>
    match ws.find? fun w => fld w.2 3 0 ≠ 0 with
    | none => sn
    | some w =>
      match fld w.2 3 0 with
      | 3 => { sn with disp := 3, rule := w.1, puntRing := fld w.2 31 24, reason := 1, dropCnt := none }
      | 4 => { sn with disp := if sn.disp = 2 ∨ sn.disp = 3 then sn.disp else 4, rule := w.1, target := fld w.2 51 32
                       dropCnt := if sn.disp = 2 then sn.dropCnt else none }
      | 5 => { sn with disp := 5, rule := w.1, reTarget := fld w.2 63 32, dropCnt := none }
      | _ => { sn with rule := w.1 }

/-! ### The flow key (R174–R176) -/

/-- Fill in a snapshot's flow key; a profile in mode OFF skips the flow stage. -/
def flowKey (s : State) (p : Nat) (bs : List Byte) (hs : List HdrRec) (md : List Byte) (sn : Snap) : Snap :=
  let die := dieOfPipe p
  let e := profEntry s die sn.prof
  let l := extracts bs hs md e 12
  let (dir, l) := if bit e 386 then symSwap (fld e 447 416) l else (false, l)
  let key := takeBytes l.flatten 0 40
  let (h, g) := keyHashes s die key sn.prof
  let occ := match fld e 449 448 with | 0 => 2 | 1 => 0 | 2 => 1 | _ => 3
  let tcp := (occurrence hs 8 occ).map fun t => fb bs (t.off + 13)
  { sn with key := key, keyLen := l.flatten.length, dir := dir, h := h, g := g, tcp := tcp, skip := sn.skip || decide (profMode e = 0) }

/-! ### A whole pass -/

/-- Classify a parsed pass (R108–R120, R141–R156, R174): its snapshot, with VERIFY_LIMIT as a drop. -/
def classify (p port : Nat) (bank : Bool) (pass strip pri : Nat) (bs : List Byte) (r : Parsed) (s : State) : Snap × State :=
  let hs := r.hdrs
  let kp := objGet s 0x0103 p (bankNo bank) r.keyProf
  let md := metaBytes port (metaVrf s p port bs hs) hs r.depth pass pri
  let l := extracts bs hs md kp 24
  let hash (n : Nat) : Nat := fieldHash (objGet s 0x0104 p (bankNo bank) n) l
  let sn : Snap := { hdrs := hs, depth := r.depth, strip := strip, hash0 := hash (fld kp 835 832), hash1 := hash (fld kp 839 836) }
  let ((ws, ok), s) := lookups p bank kp l.flatten (upTo 4) s
  let (sn, s) := forwardResult p port bs hs sn s
  let sn := mergeActions ws (fld kp 843 840) sn
  let sn := if ptpPunt s port bs hs && !(decide (sn.disp = 2) || decide (sn.disp = 5) || (decide (sn.disp = 3) && decide (sn.reason ≠ 8))) then
      { sn with disp := 3, puntRing := cfg s .timPtpCfg 7 0, reason := 6, dropCnt := none }
    else sn
  let sn := flowKey s p bs hs md sn
  if ok then (sn, s) else ({ sn with disp := 2, dropCnt := some (0x0182, p, 3), skip := true, rules := [] }, s)

end Sys2Proof.Machine
end

