-- ==== Sys2Proof/Machine/Spec.lean ====
section
/-! DEFINITION. Speculation: replicas (R186, R187), requests to owners (R186), squashes and chains (R232–R237, R313),
confirmation (R222–R224) and what a confirmed packet does: counts, deltas, notices, learning, copies, punts and tasks
(R188, R229, R241, R242, R317, R318). -/

namespace Sys2Proof.Machine

/-! ### Passes -/

/-- A pass of a pipeline. -/
def passOf (s : State) (p k no : Nat) : Option Pass := (pipe s p).passes.find? fun q => q.pkt = k ∧ q.no = no

/-- Change a pass. -/
def modPass (p k no : Nat) (f : Pass → Pass) (s : State) : State :=
  modPipe p (fun x => { x with passes := x.passes.map fun q => if q.pkt = k ∧ q.no = no then f q else q }) s

/-- The passes of a packet. -/
def pktPasses (s : State) (p k : Nat) : List Pass := (pipe s p).passes.filter fun q => q.pkt = k

/-- A pass whose flow part is not confirmed yet. -/
def unconfirmed (q : Pass) : Bool := q.st = .waiting || q.st = .spec || q.st = .squashed

/-- Passes waiting for an answer at a pipeline (R186). -/
def waitCount (s : State) (p : Nat) : Nat := ((pipe s p).passes.filter fun q => q.st = .waiting).length

/-- Passes the speculation table holds (R245). -/
def tableCount (s : State) (p : Nat) : Nat := ((pipe s p).passes.filter unconfirmed).length

/-- The cycles the intake has waited on a full speculation table are counted (R247). -/
def noteFull (p : Nat) (s : State) : State :=
  let full := decide (8192 ≤ tableCount s p)
  match (pipe s p).fullAt with
  | none => if full then modPipe p (fun x => { x with fullAt := some s.now }) s else s
  | some t =>
    let n := (s.now - t) / 625
    modPipe p (fun x => { x with fullAt := if full then some (t + n * 625) else none }) (if n = 0 then s else specCnt p 13 n s)

/-! ### Replicas (R186–R188) -/

/-- The replica entry of a key. -/
def replicaOf (s : State) (p : Nat) (key : List Byte) (prof : Nat) : Option Replica :=
  (replicas s p).find? fun r => r.key = key ∧ r.prof = prof

/-- The set of a hash among the 4,096 sets (log 23: its low 12 bits). -/
def replicaSet (h : Nat) : Nat := h % 4096

/-- One more than the latest use. -/
def nextUse (l : List Replica) : Nat := l.foldl (fun m r => Nat.max m (r.used + 1)) 0

/-- Change the replica entry of a record. -/
def modReplica (p r : Nat) (f : Replica → Replica) (s : State) : State :=
  modReplicas p (fun l => l.map fun x => if x.record = r then f x else x) s

/-- Note a use of an entry. -/
def touchReplica (p r : Nat) (s : State) : State :=
  let c := nextUse (replicas s p)
  modReplica p r (fun x => { x with used := c }) s

/-- Send an entry's unsent deltas to the owner (R188). -/
def sendDelta (p r : Nat) (s : State) : State :=
  match (replicas s p).find? fun x => x.record = r with
  | none => s
  | some x =>
    if x.since.isNone then s
    else
      let d : DeltaMsg := ⟨r, x.dPktsO, x.dPktsR, x.dBytesO, x.dBytesR, x.seen⟩
      let s := modSlice (recOwner s r) (fun y => { y with deltas := y.deltas ++ [d] }) s
      modReplica p r (fun y => { y with dPktsO := 0, dPktsR := 0, dBytesO := 0, dBytesR := 0, since := none }) s

/-- Remove a record's entry, its unsent deltas sent first. -/
def removeReplica (p r : Nat) (s : State) : State := modReplicas p (·.filter fun x => x.record ≠ r) (sendDelta p r s)

/-- Put an entry in: over an entry of its key or record, into a free way, or over the least recently used way without a
speculative packet; skipped and counted when there is none (R187). -/
def install (p : Nat) (n : Replica) (s : State) : State :=
  let n := { n with used := nextUse (replicas s p) }
  match (replicas s p).find? fun x => x.record = n.record ∧ x.key = n.key ∧ x.prof = n.prof with
  | some o =>
    modReplica p n.record (fun _ => { n with
      dPktsO := o.dPktsO, dPktsR := o.dPktsR, dBytesO := o.dBytesO, dBytesR := o.dBytesR, seen := o.seen
      since := o.since, replySeen := o.replySeen, spec := o.spec }) s
  | none =>
    let s := match replicaOf s p n.key n.prof with
      | some o => removeReplica p o.record s
      | none => s
    let ways := (replicas s p).filter fun x => replicaSet x.h = replicaSet n.h
    if ways.length < 8 then modReplicas p (· ++ [n]) s
    else
      match ways.filter fun x => x.spec = 0 with
      | [] => specCnt p 11 1 s
      | a :: r =>
        let v := r.foldl (fun b x => if x.used < b.used then x else b) a
        modReplicas p (· ++ [n]) (removeReplica p v.record s)

/-! ### Requests (R186, R203, R235) -/

/-- A chain with a key has not returned whole: a squashed pass of it is still on the yo-yo path (R235). -/
def chainOut (s : State) (p : Nat) (key : List Byte) (prof : Nat) : Bool :=
  (pipe s p).passes.any fun q => decide (q.st = .squashed) && !q.snap.skip && decide (q.snap.key = key) && decide (q.snap.prof = prof)

/-- Change the outstanding request of a key. -/
def modWait (p : Nat) (key : List Byte) (prof : Nat) (f : Waiting → Waiting) (s : State) : State :=
  modWaitings p (fun l => l.map fun w => if w.key = key ∧ w.prof = prof then f w else w) s

/-- Report a frame check already known to the owner asked (R192). -/
def reportKnown (sl k : Nat) (s : State) : State :=
  match (pktOf s k).bind (·.check) with
  | some ok => modSlice sl (fun y => { y with reports := y.reports ++ [(k, ok)] }) s
  | none => s

/-- The request of a pass (R186, R203). -/
def reqOf (p : Nat) (x : Pkt) (q : Pass) (backend : Option Nat) : Req :=
  let sn := q.snap
  { pipe := p, key := sn.key, prof := sn.prof, h := sn.h, g := sn.g, keyLen := sn.keyLen, dir := sn.dir, hash0 := sn.hash0
    hash1 := sn.hash1, epoch := x.epoch, tcp := sn.tcp, backend := backend, pkts := [] }

/-- The request of a key goes out, for the first pass that waits, to the slice that serves the key's half now; frame checks
known of the others are reported. -/
def sendReq (p : Nat) (key : List Byte) (prof : Nat) (backend : Option Nat) (s : State) : State :=
  match (waitings s p).find? fun w => w.key = key ∧ w.prof = prof with
  | none => s
  | some w =>
    match w.who with
    | [] => s
    | (k, no) :: rest =>
      match pktOf s k, passOf s p k no with
      | some x, some q =>
        let r := reqOf p x q backend
        let sl := halfOwner s (homeHalf s r.h)
        let s := modWait p key prof (fun v => { v with sent := true, slice := sl, req := r }) s
        let s := modSlice sl (fun y => if backend.isSome then { y with backends := y.backends ++ [r] } else { y with reqs := y.reqs ++ [r] }) s
        each (rest ++ w.late) (fun e t => reportKnown sl e.1 t) s
      | _, _ => s

/-- Requests that have not gone out, of keys whose chain has returned or ended: the passes that came behind it wait in arrival
order, and the first of them asks. -/
def pokeWaits (p : Nat) (s : State) : State :=
  each ((waitings s p).filter fun w => !w.sent) (fun w t =>
    if w.who = [] && chainOut t p w.key w.prof then t
    else if w.who = [] && w.late = [] then modWaitings p (·.filter fun v => !(decide (v.key = w.key) && decide (v.prof = w.prof))) t
    else
      let t := if w.who = [] then modWait p w.key w.prof (fun v => { v with who := v.late, late := [] }) t else t
      sendReq p w.key w.prof none t) s

/-- A pass waits for the owner of its key: it joins the request outstanding for the key, or a request goes out. A pass that
reaches the flow stage while a chain with the key returns waits behind the chain; again says that this pass is one of the
chain (R235). -/
def joinWait (p k no : Nat) (backend : Option Nat) (again : Bool) (s : State) : State :=
  match pktOf s k, passOf s p k no with
  | some x, some q =>
    let key := q.snap.key
    let prof := q.snap.prof
    let s := modPass p k no (fun q => { q with st := .waiting, record := none, auth := false, covered := false }) s
    let out := !again && chainOut s p key prof
    match (waitings s p).find? fun w => w.key = key ∧ w.prof = prof with
    | some w =>
      let s := modWait p key prof (fun v =>
        if again || (!out && v.late.isEmpty) then { v with who := v.who ++ [(k, no)] } else { v with late := v.late ++ [(k, no)] }) s
      if w.sent then reportKnown w.slice k s else if again then sendReq p key prof backend s else s
    | none =>
      let e := [(k, no)]
      let s := modWaitings p (· ++ [{ key := key, prof := prof, slice := 0, req := reqOf p x q backend, who := if out then [] else e
                                      sent := false, late := if out then e else [] }]) s
      if out then s else sendReq p key prof backend s
  | _, _ => s

/-! ### Taking a frame back from where it waits (R234, R313) -/

/-- Take a frame out of every queue. Its cells stay, held by the yo-yo path; a part already on a link goes on to where it was
bound (R234, R313). -/
def withdraw (k : Nat) (s : State) : State :=
  match pktOf s k with
  | none => s
  | some x =>
    let vs := voqsOf s k
    let cs := (linkCellsOf s k).filter fun c => c.ent.ports ≠ []
    let begun := (portsHolding s k).map pipeOfLane ++ (vs.filter fun v => 0 < v.2.2.sent).map (·.2.1) ++ cs.map (·.dst)
    let dsts := (begun ++ vs.map (·.2.1)).eraseDups
    let holders := (begun ++ (vs.filter fun v => decide (v.1 ≠ x.pipe) && !begun.contains v.2.1).map (·.1)).eraseDups
    let keep (key : Nat) (e : VoqE) : Option VoqE :=
      if e.pkt ≠ k then some e
      else if 0 < e.sent ∧ dieOfPipe (key / 256) ≠ dieOfPipe (key / 16 % 16) then some { e with ports := [] }
      else none
    let s := each (s.fab.voq.map (·.1)) (fun key t => modFab (fun f => { f with
      voq := mset [] f.voq key ((mget [] f.voq key).filterMap (keep key)) }) t) s
    let s := mapLinkEnts (fun e => if e.pkt = k then { e with ports := [] } else e) s
    let s := unlinkEgress k s
    let s := modPkt k (fun y => { y with
      at_ := if dsts = [] then y.at_ else holders
      oldDst := if dsts = [] then y.oldDst else some dsts
      refs := 0
      noticed := false }) s
    retagYoyo k s

/-- A part of a frame is still on its way to an egress pipeline. -/
def stillComing (s : State) (k dst : Nat) : Bool :=
  ((voqsOf s k).any fun v => v.2.1 = dst) || ((linkCellsOf s k).any fun c => c.dst = dst)

/-- Queue a frame toward its ports. After a squash, each pipeline that holds its cells and is a destination again has it back
in its queue; to another it goes from the ingress pipeline while that still has the cells of copies, or from the pipeline
that holds it. A change of its egress pipelines is a move, counted with its confirmation (R242, R313). -/
def placeFrame (k queue : Nat) (l : List (Nat × Option Nat)) (copy : Bool) (hold : Nat) (s : State) : State :=
  match pktOf s k with
  | none => s
  | some x =>
    let dsts := (byPipe l).map (·.1)
    let moved : Bool := match x.oldDst with
      | some d => !(d.all dsts.contains && dsts.all d.contains)
      | none => false
    let src := if copy && !x.cells.isEmpty then x.pipe else x.at_.headD x.pipe
    let s := if moved then owe k (0x0882, dieOfPipe src, 12, 1) s else s
    let s := modPkt k (fun y => { y with oldDst := none, refs := l.length }) s
    each (byPipe l) (fun e t =>
      let v : VoqE := { pkt := k, ports := e.2, queue := queue, sent := 0, copy := copy, hold := hold }
      if x.at_.contains e.1 then
        arriveFirst x.pipe e.1 v (!stillComing t k e.1) (retagAt k e.1 (egressTag e.1 v) t)
      else joinVoq src e.1 v t) s

/-- The counts of drops of copies that a squashed placement owed go with it (R230, R242). -/
def unowe (k : Nat) (s : State) : State :=
  let stays (c : Nat × Nat × Nat × Nat) : Bool :=
    decide (c.1 = 0x0882) || (decide (c.1 = 0x0981) && (decide (c.2.2.1 = 2) || decide (c.2.2.1 = 3)))
  modPkt k (fun x => { x with owed := x.owed.filter stays }) s

/-- Drop an unconfirmed packet, charging its cause (R230). -/
def dropEarly (k : Nat) (cnt : Option (Nat × Nat × Nat)) (s : State) : State :=
  dropFrame k cnt (withdraw k (payOwed k (unowe k s)))

/-! ### The unstable-flow table (R237) -/

/-- An entry of a pipeline's table. -/
def unstableOf (s : State) (p r : Nat) : Option Unstable := (pipe s p).unstable.find? fun u => u.record = r

/-- Put an entry at the place of the most recently used, leaving the newest 256. -/
def putUnstable (p : Nat) (u : Unstable) (s : State) : State :=
  modPipe p (fun x =>
    let l := x.unstable.filter fun y => y.record ≠ u.record
    let l := if 256 ≤ l.length then l.drop 1 else l
    { x with unstable := l ++ [u] }) s

/-- A chain of cause INVALIDATED or BACKEND starts on a record. -/
def chainStarts (p r : Nat) (s : State) : State :=
  let u := (unstableOf s p r).getD ⟨r, 0, s.now, false⟩
  let n := u.count + 1
  let mark := u.mark || decide (cfg1 s (.fleSpecCfg p) 23 20 ≤ n)
  let s := if mark && !u.mark then specCnt p 12 1 s else s
  putUnstable p { u with count := n, mark := mark } s

/-- An invalidation of a record reaches the pipeline: the time of its last one moves on. -/
def noteInval (p r : Nat) (s : State) : State :=
  match unstableOf s p r with
  | some u => putUnstable p { u with lastInv := s.now } s
  | none => s

/-! ### Squashes (R232–R236) -/

/-- The chain a squash takes: sweep the passes after the first, adding every later pass of a packet in it, and every
unconfirmed pass that acted on a replica of a record in it (R232, R233, log 52). -/
def chainSweep : List Pass → List Nat → List Nat → List Pass
  | [], _, _ => []
  | q :: rest, recs, pkts =>
    let own := pkts.contains q.pkt && decide (q.st ≠ .squashed) && decide (q.st ≠ .dropped)
    let tied := decide (q.st = .spec) && !q.auth && match q.record with
      | some r => recs.contains r
      | none => false
    if own || tied then q :: chainSweep rest (recs ++ q.record.toList) (pkts ++ [q.pkt])
    else chainSweep rest recs pkts

/-- The chain that starts at a pass. -/
def chainOf (s : State) (p : Nat) (q : Pass) : List Pass :=
  let later := ((pipe s p).passes.dropWhile fun x => !(decide (x.pkt = q.pkt) && decide (x.no = q.no))).drop 1
  q :: chainSweep later q.record.toList [q.pkt]

/-- Squash one pass: it leaves any waiting list and enters the yo-yo path. -/
def squashPass (p : Nat) (q : Pass) (cause : Nat) (s : State) : State :=
  let s := modPass p q.pkt q.no (fun x => { x with st := .squashed, cause := cause }) s
  let s := modWaitings p (fun l => l.map fun w => { w with
    who := w.who.filter fun e => e ≠ (q.pkt, q.no)
    late := w.late.filter fun e => e ≠ (q.pkt, q.no) }) s
  let s := modPkt q.pkt (fun x => { x with squashed := x.squashed + 1, flowOk := false }) s
  modPipe p (fun x => { x with
    yoyo := (x.yoyo.filter fun y => !(decide (y.pkt = q.pkt) && y.pass.isNone)) ++ [⟨q.pkt, some q.no, s.now + 16000⟩] }) s

/-- Squash a chain from a pass, for a cause: every packet in it is withdrawn once, and replayed, or dropped at its fourth
squash. -/
def squashChain (p k no cause : Nat) (s : State) : State :=
  match passOf s p k no with
  | none => s
  | some q =>
    let chain := chainOf s p q
    let s := match q.record with
      | some r => if cause = 1 ∨ cause = 3 then chainStarts p r s else s
      | none => s
    let s := modPkt k (fun x => { x with chains := x.chains ++ [cause] }) s
    let s := each chain (fun c t => squashPass p c (if c.pkt = k ∧ c.no = no then cause else 5) t) s
    let pkts := (chain.map (·.pkt)).eraseDups
    let s := each pkts (fun n t =>
      match pktOf t n with
      | some x =>
        if 3 ≤ x.replays then dropEarly n (some (0x0582, p, 8)) t
        else withdraw n (oweUnlinks n (unowe n (modPkt n (fun y => { y with replays := y.replays + 1 }) t)))
      | none => t) s
    syncSpec p s

/-! ### The action merge (R25, R118, R181, R203) -/

/-- The bytes a RECIRCULATE action strips: up to the end of the outermost recorded headers it names (R117, R123). -/
def stripBytes (sn : Snap) : Nat :=
  match ((sn.hdrs.filter (·.recorded)).take (fld sn.reTarget 7 4)).getLast? with
  | some h => h.off + h.len
  | none => 0

/-- The packet's result becomes a drop. -/
def dropSnap (sn : Snap) (c : Option (Nat × Nat × Nat)) : Snap := { sn with disp := 2, dropCnt := c }

/-- A pass recirculates: while it may, the frame goes onto the yo-yo path without its stripped headers (R123, R124). -/
def recirculate (p k : Nat) (x : Pkt) (sn : Snap) (s : State) : State :=
  if cfg s (.clsRecircCfg p) 2 0 < x.passes then
    modPkt k (fun y => { y with snap := dropSnap sn (some (0x0182, p, 4)) }) s
  else
    let s := modPkt k (fun y => { y with snap := sn, strip := sn.strip + stripBytes sn, prof := fld sn.reTarget 3 0 }) s
    retagYoyo k (modPipe p (fun z => { z with yoyo := z.yoyo ++ [⟨k, none, s.now + 32000⟩] }) s)

/-- Apply the flow action of a pass to its classification result. A backend that fails its check squashes the pass (R243). A
drop by the authoritative answer of a replay ends the packet at once (R230). -/
def mergePass (p k no : Nat) (s : State) : State :=
  match pktOf s k, passOf s p k no with
  | some x, some q =>
    let back := q.record.isSome && bit q.action 88
    if back && !backendOk s (dieOfPipe p) q.action q.backendGen then squashChain p k no 3 s
    else
      let backend := if back then some (fld q.action 87 71) else none
      let sn := q.snap
      let tc := finalTc x sn q.action
      let (f, nh) := passFate s { x with snap := sn, tc := tc } sn q.action backend
      let later := (pktPasses s p k).any fun y => no < y.no
      if f = .recirculate then (if later then s else recirculate p k x sn s)
      else
        let s := if later then
            modPipe p (fun z => { z with
              passes := z.passes.filter fun y => !(decide (y.pkt = k) && decide (no < y.no))
              yoyo := z.yoyo.filter fun y => !(decide (y.pkt = k) && decide (y.pass ≠ some no)) })
              (modWaitings p (fun l => l.map fun w => { w with
                who := w.who.filter fun e => !(decide (e.1 = k) && decide (no < e.2))
                late := w.late.filter fun e => !(decide (e.1 = k) && decide (no < e.2)) })
                (withdraw k s))
          else s
        let sn := { sn with nh := nh, routed := sn.routed || nh.isSome }
        let s := modPkt k (fun y => { y with
          snap := sn, tc := tc, action := q.action, backend := backend, rews := rewrites s (dieOfPipe p) q.action backend }) s
        match f with
        | .ports l copy hold down =>
          let s := if down = 0 then s else owe k (0x0881, dieOfPipe p, 11, down) s
          if l = [] then modPkt k (fun y => { y with snap := dropSnap sn none }) s
          else placeFrame k tc l copy hold (modPkt k (fun y => { y with snap := { sn with disp := 0 } }) s)
        | .drop c =>
          if q.auth && decide (0 < x.replays) then dropEarly k c s else modPkt k (fun y => { y with snap := dropSnap sn c }) s
        | .punt r reason byT => modPkt k (fun y => { y with
            snap := { sn with disp := 3, puntRing := r, reason := reason, rule := if byT then 0xFFFFFFFF else sn.rule } }) s
        | .core c => modPkt k (fun y => { y with snap := { sn with disp := 6, reTarget := c } }) s
        | .recirculate => s
  | _, _ => s

/-! ### Learning (R147–R150, R229) -/

/-- A request identical to one sent within the last 8 µs is among the last 64 (R148). -/
def learnRecent (s : State) (p fid mac tgt : Nat) : Bool :=
  (mget [] s.fwd.sent p).any fun e => decide (e.1 = fid) && decide (e.2.1 = mac) && decide (e.2.2.1 = tgt)
    && decide (s.now < e.2.2.2 + 8000000)

/-- Remember a request. -/
def noteLearn (p fid mac tgt : Nat) (s : State) : State :=
  let l := mget [] s.fwd.sent p ++ [(fid, mac, tgt, s.now)]
  modFwd (fun f => { f with sent := mset [] f.sent p (l.drop (l.length - 64)) }) s

/-! ### Copies (R317, R318) -/

/-- A punt that R78 drops. -/
def puntDrops (s : State) (u : Punt) : Bool :=
  let r := ring s (144 + u.ring)
  !r.enabled || (!r.lossless && (shareFull s u || ringFull r))

/-- A copy's cells are written, under the replicator's tag; none when no cell is free. -/
def fillCopy (h : Nat) (s : State) : Option State :=
  match pktOf s h with
  | none => none
  | some c =>
    match allocChain (dieOfPipe c.pipe) (4 + c.pipe % 4) (ownerTag 4 (c.pipe % 4)) h 0 (payloads (c.bytes.length + 4) (withFcs c.bytes)) s with
    | none => none
    | some (ks, s) => some (modPkt h (fun y => { y with cells := ks }) s)

/-- A copy that has its cells goes to its destination (R318). The cells of one that becomes a task are freed once its header
operand is made. -/
def sendCopy (h : Nat) (dest : CopyTo) (s : State) : State :=
  match pktOf s h with
  | none => s
  | some c =>
    match dest with
    | .port port queue => queueFrame h c.pipe queue [(port, none)] true 0 s
    | .punt u mirror =>
      let u := { u with pkt := h, ncells := c.cells.length }
      puntRequest u (if mirror && puntDrops s u then cntInc 0x0881 (dieOfPipe c.pipe) 13 s else s)
    | .work sl k => endPkt h (makeTask sl k s)

/-- The request a copy makes for its cells (R294). -/
def copyWaiter (h : Nat) (c : Pkt) : Waiter := ⟨4 + c.pipe % 4, h, cellsFor c.bytes.length, false⟩

/-- The copies of a pipeline that wait for cells. -/
def waitingCopies (s : State) (p : Nat) : List (Nat × CopyTo) :=
  s.buf.copies.filter fun e => match pktOf s e.1 with
    | some c => decide (c.pipe = p)
    | none => false

/-- Make a copy of a frame's first bytes: it goes to its destination, or waits until its cells are permitted, behind the
copies of its pipeline that wait already (R294, R318). -/
def makeCopy (k n : Nat) (dest : CopyTo) (s : State) : State :=
  match pktOf s k with
  | none => s
  | some x =>
    let c : Pkt := { bytes := x.bytes.take n, port := x.port, pipe := x.pipe, stamp := x.stamp, stampOk := x.stampOk, gen := x.gen
                     epoch := x.epoch, pri := x.pri, tc := x.tc, check := some true, flowOk := true, noticed := true
                     noticeAt := s.now, settled := true, copy := true, snap := { rule := x.snap.rule, depth := x.snap.depth } }
    let later := !(waitingCopies s x.pipe).isEmpty
    let (h, s) := newPkt c s
    let hold (t : State) : State := modBuf (fun b => { b with copies := b.copies ++ [(h, dest)] }) t
    if later then hold s
    else match askCells (dieOfPipe x.pipe) (copyWaiter h c) s with
      | (false, s) => hold s
      | (true, s) => match fillCopy h s with
        | some s => sendCopy h dest s
        | none => hold s

/-- The waiting copies of a pipeline are served, oldest first, while their cells are permitted. n bounds them. -/
def serveCopies (p : Nat) : Nat → State → State
  | 0, s => s
  | n + 1, s =>
    match waitingCopies s p with
    | [] => s
    | (h, dest) :: _ =>
      match pktOf s h with
      | none => s
      | some c =>
        match askCells (dieOfPipe p) (copyWaiter h c) s with
        | (false, s) => s
        | (true, s) =>
          match fillCopy h s with
          | none => s
          | some s => serveCopies p n (sendCopy h dest (modBuf (fun b => { b with copies := b.copies.filter fun e => e.1 ≠ h }) s))

/-- Punt a copy of a frame with a reason and session. -/
def puntCopy (k ringNo reason session n : Nat) (mirror : Bool) (s : State) : State :=
  match pktOf s k with
  | none => s
  | some x => makeCopy k n (.punt (puntFor s k x ringNo reason session (x.bytes.take n) x.bytes.length) mirror) s

/-- Make one copy of a frame for a session (R318). q is the pass, whose record's owner or hash 0 places a COPY task. -/
def sessionCopy (k session : Nat) (q : Pass) (s : State) : State :=
  match pktOf s k with
  | none => s
  | some x =>
    let die := dieOfPipe x.pipe
    let e := objGet s 0x0803 die 0 session
    let len := x.bytes.length
    let n := match fld e 41 40 with
      | 0 => len
      | t => Nat.min len (64 * 2 ^ t)
    let lost (t : State) : State := cntInc 0x0881 die 13 t
    match fld e 1 0 with
    | 0 =>
      let t := fld e 21 2
      let port := if tgtKind t = 3 then some (tgtIndex t % 512)
        else if tgtKind t = 4 then (lagPort s x.pipe x.epoch (tgtIndex t) q.snap.hash0 q.snap.hash1).join else none
      match port with
      | none => lost s
      | some port => if hasDie s.part (dieOfLane port) then makeCopy k n (.port port (fld e 25 22)) s else lost s
    | 1 => puntCopy k (fld e 33 26) (if fld e 65 42 = 0 then 2 else 3) session n true s
    | 2 =>
      let l := slicesOf s.part
      let sl := match q.record with
        | some r => recOwner s r
        | none =>
          let h := nth 0 l (q.snap.hash0 % Nat.max 1 l.length)
          if (slice s h).servesOwn then h else partner h
      makeCopy k n (.work sl { kind := 3, cls := fld e 39 34, lock := q.snap.hash0 % 16384, expect := 1, present := 0, src := some x.pipe
                               header := headerOperand x (x.bytes.take n) len session (decide (n < len)) }) s
    | _ => lost s

/-- A confirmed packet names a session: its count goes down, and at zero a copy is made (R318). -/
def nameSession (k session : Nat) (q : Pass) (s : State) : State :=
  match pktOf s k with
  | none => s
  | some x =>
    let e := objGet s 0x0803 (dieOfPipe x.pipe) 0 session
    if !bit e 66 then s
    else
      let key := 256 * x.pipe + session
      let c := mget 0 s.buf.session key
      if 1 < c then modBuf (fun b => { b with session := mset 0 b.session key (c - 1) }) s
      else sessionCopy k session q (modBuf (fun b => { b with session := mset 0 b.session key (fld e 65 42 + 1) }) s)

/-! ### What a confirmed packet does (R241, R242) -/

/-- The learn request or hit notice of a pass, or the punt of learn_mode 2 (R147, R148, R150). -/
def learnPass (k : Nat) (q : Pass) (s : State) : State :=
  match pktOf s k with
  | none => s
  | some x =>
    let sn := q.snap
    let p := x.pipe
    let die := dieOfPipe p
    let sl := l2Owner s sn.fid sn.srcMac
    let tgt := ingressTarget s x.port
    let s := if sn.srcHit = 1 then cntInc 0x0281 (dieOfSlice sl) 0 s else s
    if !sn.learn then s
    else if sn.srcHit = 1 ∨ sn.srcHit = 2 then
      if learnRecent s p sn.fid sn.srcMac tgt then cntInc 0x0281 (dieOfSlice sl) 2 s
      else
        let s := noteLearn p sn.fid sn.srcMac tgt s
        if cfg s (.fwdPortCfg x.port) 31 30 = 2 then puntCopy k (cfg s (.fwdPuntCfg die) 15 8) 7 0 x.bytes.length false s
        else sendLearn sl (.req sn.fid sn.srcMac tgt) (cntInc 0x0281 (dieOfSlice sl) 1 s)
    else if sn.srcHit = 3 then
      match l2Find s die sn.fid sn.srcMac with
      | some i =>
        let e := l2Get s die i
        if l2Hit e ∨ l2Dest e ≠ tgt then s
        else sendLearn sl (.hit sn.fid sn.srcMac tgt) (tPut die 0x0201 i (setFld e 87 87 1) s)
      | none => s
    else s

/-- The deltas and CT notice of a pass that used a record (R188). -/
def countPass (k : Nat) (q : Pass) (s : State) : State :=
  match pktOf s k, q.record with
  | some x, some r =>
    let reply := Bool.xor q.snap.dir q.origDir
    let cnt := bit q.flags 0
    let pk := if cnt then 1 else 0
    let by_ := if cnt then x.bytes.length else 0
    let entry := (replicas s x.pipe).find? fun y => y.record = r
    let firstReply := reply && match entry with
      | some y => !y.replySeen
      | none => true
    let s := match entry with
      | none =>
        let d : DeltaMsg := if reply then ⟨r, 0, pk, 0, by_, msNow s⟩ else ⟨r, pk, 0, by_, 0, msNow s⟩
        modSlice (recOwner s r) (fun y => { y with deltas := y.deltas ++ [d] }) s
      | some y =>
        let z := { y with
          dPktsO := y.dPktsO + (if reply then 0 else pk), dPktsR := y.dPktsR + (if reply then pk else 0)
          dBytesO := y.dBytesO + (if reply then 0 else by_), dBytesR := y.dBytesR + (if reply then by_ else 0)
          seen := msNow s, since := some (y.since.getD s.now), replySeen := y.replySeen || reply }
        let s := modReplica x.pipe r (fun _ => z) s
        if 65536 ≤ z.dPktsO ∨ 65536 ≤ z.dPktsR ∨ 65536 ≤ z.dBytesO ∨ 65536 ≤ z.dBytesR then sendDelta x.pipe r s else s
    let flagged := match q.snap.tcp with
      | some t => decide (t % 8 ≠ 0)
      | none => false
    if bit q.flags 2 && (flagged || firstReply) then
      modSlice (recOwner s r) (fun y => { y with cts := y.cts ++ [⟨r, q.snap.tcp, reply⟩] }) s
    else s
  | _, _ => s

/-- What one pass of a confirmed packet counts (R119, R242, R247). -/
def settlePass (k : Nat) (q : Pass) (s : State) : State :=
  match pktOf s k with
  | none => s
  | some x =>
    let s := each q.snap.rules (fun i t => cntAdd 0x0183 x.pipe (2 * i + 1) x.bytes.length (cntInc 0x0183 x.pipe (2 * i) t)) s
    let s := if q.snap.skip then s else specCnt x.pipe (if q.auth then 1 else 0) 1 s
    let s := if q.snap.depth then cntInc 0x0182 x.pipe 5 s else s
    learnPass k q (countPass k q s)

/-- The confirmed result of a packet: a drop, a punt, a task, or the queues it already stands in. -/
def finishPkt (k : Nat) (s : State) : State :=
  match pktOf s k with
  | none => s
  | some x =>
    match x.snap.disp with
    | 2 => dropFrame k x.snap.dropCnt s
    | 3 => puntPkt k x.snap.puntRing x.snap.reason s
    | 6 =>
      let q := lastPass s k x
      let r := match q with
        | some y => y.record
        | none => none
      let l := slicesOf s.part
      let sl := match r with
        | some r => recOwner s r
        | none => nth 0 l (x.snap.hash0 % Nat.max 1 l.length)
      let t := packetTask s k x x.snap.reTarget (r.getD noRec)
      makeTask sl t (forgetPasses k (modPkt k (fun y => { y with task := true }) s))
    | _ => forgetPasses k s

/-- The mirror session a pass names: its flow action's, or its classification's (R117, R181). -/
def passMirror (q : Pass) : Option Nat := if bit q.action 62 then some (fld q.action 70 63) else q.snap.mirror

/-- A packet whose flow part is confirmed and whose frame check has passed takes its effects (R224, R241). -/
def settle (k : Nat) (s : State) : State :=
  match pktOf s k with
  | none => s
  | some x =>
    if x.settled || !x.flowOk || decide (x.check ≠ some true) || x.task then s
    else
      let s := countSquashes k (modPkt k (fun y => { y with settled := true }) (payOwed k (countArrival k s)))
      let s := if x.malformed = 0 then s else cntInc 0x0181 x.pipe x.malformed s
      let ps := pktPasses s x.pipe k
      let s := each ps (settlePass k) s
      let s := each ps (fun q t => match passMirror q with
        | some m => nameSession k m q t
        | none => t) s
      let s := match ps.getLast? with
        | some q => if cfgBit s (.bufPortCfg x.port) 31 then nameSession k (cfg s (.bufPortCfg x.port) 30 23) q s else s
        | none => s
      finishPkt k s

/-! ### Confirmation (R222–R224) -/

/-- The flow part of a packet is confirmed with that of its last pass; it leaves its epoch's count (R126). -/
def checkFlow (k : Nat) (s : State) : State :=
  match pktOf s k with
  | none => s
  | some x =>
    let ps := pktPasses s x.pipe k
    let pending := (pipe s x.pipe).yoyo.any fun y => y.pkt = k
    if x.flowOk || x.task || pending || ps.isEmpty || ps.any (fun q => q.st ≠ .confirmed) then s
    else
      let lag := ((ps.filter fun q => !q.snap.skip && !q.auth).head?).map (·.lookup)
      settle k (leaveEpoch k (modPkt k (fun y => { y with flowOk := true, lagFrom := lag }) s))

/-- The passes a pass must follow are all confirmed, dropped or squashed (R223). -/
def mayFollow (s : State) (p : Nat) (q : Pass) : Bool :=
  let before := (pipe s p).passes.takeWhile fun x => !(decide (x.pkt = q.pkt) && decide (x.no = q.no))
  !(before.any fun x => (x.st = .spec || x.st = .waiting) && x.record.isSome && decide (x.record = q.record))
    && !((pktPasses s p q.pkt).any fun x => decide (x.no < q.no) && (x.st = .spec || x.st = .waiting || x.st = .squashed))

/-- A pass meets the first condition of R222. -/
def vouched (s : State) (p : Nat) (q : Pass) : Bool :=
  q.auth || q.covered || wrapGe 48 (mget 0 (pipe s p).horizon q.owner) (q.lookup + 4)

/-- Confirm the passes of a pipeline that may be, in lookup order; a key whose chain has ended asks for those behind it. -/
def confirmPasses (p : Nat) (s : State) : State :=
  pokeWaits p (syncSpec p (each ((pipe s p).passes.map fun q => (q.pkt, q.no)) (fun e t =>
    match passOf t p e.1 e.2 with
    | none => t
    | some q =>
      if q.st = .spec && vouched t p q && mayFollow t p q then
        checkFlow e.1 (modPass p e.1 e.2 (fun y => { y with st := .confirmed }) t)
      else t) s))

end Sys2Proof.Machine
end

