-- ==== Sys2Proof/Machine/TimeCmd.lean ====
section
/-! DEFINITION. The time unit's commands and events: TIME_SET, the time-unit reset, TREF and holdover, the TOUT and TIN
pins and the SyncE outputs (R353–R365, R378–R381). -/

namespace Sys2Proof.Machine

/-- The counter in units of 2^-16 ns. -/
def fxNow (s : State) : Nat := (s.tim.sec * 10 ^ 9 + s.tim.ns) * 2 ^ 16 + s.tim.frac / 2 ^ 28

/-- One microsecond in those units. -/
def fxUs : Nat := 1000 * 2 ^ 16

/-- Set the counter to a time in units of 2^-44 ns. -/
def setCounter (x : Nat) (t : Tim) : Tim :=
  { t with sec := x / 2 ^ 44 / 10 ^ 9 % 2 ^ 64, ns := x / 2 ^ 44 % 10 ^ 9, frac := x % 2 ^ 44 }

/-- A stamp as the parameters of TIM_CAPTURE and TIM_STEP (R361, R380). -/
def stampParams (t : Stamp) : Nat × Nat × Nat := (t.ns, t.sec % 2 ^ 32, t.sec / 2 ^ 32 % 2 ^ 16 + t.frac * 2 ^ 16)

/-- Clear TRACEABLE, raising TIM_TRACEABLE_LOST on a change (R363). -/
def loseTraceable (s : State) : State :=
  if s.tim.traceable then raise 0x030 evTimTraceableLost 0 0 0 0 (modTim (fun t => { t with traceable := false }) s) else s

/-- Count the whole milliseconds of the holdover under way that are not yet counted (R386). -/
def countHoldover (s : State) : State :=
  if s.tim.holdover then
    let ms := (s.now - s.tim.holdAt) / 10 ^ 9
    cntAdd 0x0A81 0 12 (ms - s.tim.holdMs) (modTim (fun t => { t with holdMs := ms }) s)
  else s

/-- Leave holdover. -/
def endHoldover (s : State) : State := modTim (fun t => { t with holdover := false, holdMs := 0 }) (countHoldover s)

/-! ### TOUT outputs (R378, R379) -/

/-- The program an output drives. -/
def toutOf (s : State) (o : Nat) : Option Tout := mget none s.tim.tout o
/-- The program that waits for its first edge. -/
def toutNewOf (s : State) (o : Nat) : Option Tout := mget none s.tim.toutNew o
/-- Set the program an output drives. -/
def setTout (o : Nat) (p : Option Tout) (s : State) : State := modTim (fun t => { t with tout := mset none t.tout o p }) s
/-- Set the program that waits. -/
def setToutNew (o : Nat) (p : Option Tout) (s : State) : State :=
  modTim (fun t => { t with toutNew := mset none t.toutNew o p }) s

/-- Drive an output's level; active says whether the pulse is on (R378). -/
def drive (o : Nat) (low active : Bool) (s : State) : State :=
  let level := active != low
  modTim (fun t => { t with toutLevel := if level then t.toutLevel ||| 2 ^ o else t.toutLevel &&& (0xFF ^^^ 2 ^ o) }) s

/-- The first start + n × period at least 1 µs after a time, all in 2^-16 ns (R378, R379). -/
def firstPeriod (start period t : Nat) : Nat :=
  if t + fxUs ≤ start then start else start + ceilDiv (t + fxUs - start) (Nat.max 1 period) * period

/-- The limits of a program: a period of at least 100 ns, a width of 4 ns up to the period less 4 ns, or up to
4,294,967,295 ns for a one-shot (R378). -/
def toutLimits (c : ToutCmd) : Bool :=
  let period := c.periodNs * 2 ^ 16 + c.periodFrac
  let w := c.widthNs * 2 ^ 16
  decide (4 ≤ c.widthNs) && decide (c.widthNs < 2 ^ 32)
    && (!c.periodic || (decide (100 * 2 ^ 16 ≤ period) && decide (w + 4 * 2 ^ 16 ≤ period)))

/-- TIME_SET TOUT: an enabled program waits for its first edge; enable 0 stops the output after its current pulse
(R378). -/
def runTout (c : ToutCmd) (_ : Nat × Nat) (s : State) : CmdOut × State :=
  let o := c.output
  let t := fxNow s
  if 8 ≤ o then (.fail 10, s)
  else if !c.enable then
    let s := setToutNew o none s
    (.ok, match toutOf s o with
      | some p => if p.leading then setTout o none s else setTout o (some { p with stop := true }) s
      | none => s)
  else if !toutLimits c then (.fail 10, s)
  else
    let period := if c.periodic then c.periodNs * 2 ^ 16 + c.periodFrac else 0
    let start := stampFx c.start
    if !c.periodic && decide (start < t + fxUs) then (.fail 10, s)
    else
      let first := if c.periodic then firstPeriod start period t else start
      let s := if (toutOf s o).isNone then drive o c.activeLow false s else s
      let s := setToutNew o (some ⟨c.start, period, c.widthNs, c.activeLow, first, true, false, false⟩) s
      let e := fxStamp first
      let w := ofLe (stampBytes e)
      (.done 0 0 (w % 2 ^ 64) (w / 2 ^ 64), s)

/-- Drive one edge of a program (R378). -/
def toutDrive (o : Nat) (p : Tout) (s : State) : State :=
  if p.leading then
    let s := drive o p.low true s
    let s := setTout o (some { p with leading := false, started := true, next := p.next + p.width * 2 ^ 16 }) s
    if p.started then s else raise 0x031 evTimToutStart o 0 0 0 s
  else
    let s := drive o p.low false s
    if p.stop || decide (p.period = 0) then setTout o none s
    else setTout o (some { p with leading := true, next := p.next - p.width * 2 ^ 16 + p.period }) s

/-- TOUT_EDGE: the edge an output is due to drive, if the counter has reached it. A new program replaces the old one from
its first edge (R378). -/
def toutEdge (o : Nat) (s : State) : State :=
  let t := fxNow s
  let due (p : Option Tout) : Option Tout := p.filter fun p => decide (p.next ≤ t)
  match due (toutOf s o), due (toutNewOf s o) with
  | some p, some n => if p.next < n.next then toutDrive o p s else toutDrive o n (setToutNew o none s)
  | none, some n => toutDrive o n (setToutNew o none s)
  | some p, none => toutDrive o p s
  | none, none => s

/-- Stop and disarm every output (R360, R379). -/
def stopTouts (s : State) : State :=
  let s := each (upTo 8) (fun o t => match toutOf t o with
    | some p => drive o p.low false t
    | none => t) s
  modTim (fun t => { t with tout := [], toutNew := [] }) s

/-- What an accepted step that moves the counter by d does to a program: a periodic one restarts, a pulse that is to be
its last keeps its width, a one-shot that has not fired is cancelled (R379). -/
def stepProgram (now : Nat) (d : Int) (p : Tout) : Option Tout :=
  if p.period = 0 ∨ p.stop then
    if p.started then some { p with next := (Int.ofNat p.next + d).toNat } else none
  else some { p with leading := true, next := firstPeriod (stampFx p.start) p.period now }

/-- Apply it to an output. -/
def stepTout (now : Nat) (d : Int) (o : Nat) (s : State) : State :=
  let s := match toutOf s o with
    | some p =>
      let q := stepProgram now d p
      let s := setTout o q s
      if q.all (·.leading) then drive o p.low false s else s
    | none => s
  match toutNewOf s o with
  | some p => setToutNew o (stepProgram now d p) s
  | none => s

/-! ### TIME_SET (R361–R365) -/

/-- TIME_SET READ's result word 0 (R365). -/
def timWord (s : State) : Nat :=
  let t := s.tim
  pack [(1, b2n t.stepDone), (1, b2n t.traceable), (1, b2n t.holdover), (1, b2n t.trefOk), (1, b2n t.locked), (3, 0),
    (8, t.gen)]

/-- TIME_SET READ. -/
def runTimeRead (_ : Nat × Nat) (s : State) : CmdOut × State :=
  (.done 0 0 (timWord s) (BitVec.ofInt 64 s.tim.rate).toNat, s)

/-- TIME_SET STEP: accepted once after each time-unit reset (R361, R379, R343). -/
def runTimeStep (offset : Bool) (time : Stamp) (off : Int) (_ : Nat × Nat) (s : State) : CmdOut × State :=
  let old : Nat := (s.tim.sec * 10 ^ 9 + s.tim.ns) * 2 ^ 44 + s.tim.frac
  let new : Int := if offset then Int.ofNat old + (BitVec.ofInt 64 off).toInt * 2 ^ 28
    else Int.ofNat (stampFx ⟨time.sec % 2 ^ 48, time.ns, time.frac % 2 ^ 16⟩ * 2 ^ 28)
  if s.tim.stepDone ∨ new < 0 then (.fail 10, cntInc 0x0A81 0 15 s)
  else
    let gen := (s.tim.gen + 1) % 256
    let before := fxNow s
    let s := modTim (fun t => { setCounter new.toNat t with stepDone := true, gen := gen }) s
    let d : Int := Int.ofNat (fxNow s) - Int.ofNat before
    let (a, b, c) := stampParams (stampNow s)
    let s := raise 0x030 evTimStep a b c (gen + 256 * b2n offset) (cntInc 0x0A81 0 14 s)
    (.ok, restartGates (each (upTo 8) (stepTout (fxNow s) d) s))

/-- TIME_SET RATE (R362). -/
def runTimeRate (rate : Int) (_ : Nat × Nat) (s : State) : CmdOut × State :=
  (.ok, modTim (fun t => { t with rate := (BitVec.ofInt 32 rate).toInt }) s)

/-- TIME_SET MARK_TRACEABLE: only while step_done is 1 and holdover is 0 (R363). -/
def runMarkTraceable (_ : Nat × Nat) (s : State) : CmdOut × State :=
  if s.tim.stepDone && !s.tim.holdover then
    (.ok, if s.tim.traceable then s
      else raise 0x030 evTimTraceableSet 0 0 0 0 (modTim (fun t => { t with traceable := true }) s))
  else (.fail 10, s)

/-- TIME_SET PEER_DELAY (R364). -/
def runPeerDelay (port delay : Nat) (_ : Nat × Nat) (s : State) : CmdOut × State :=
  if port < 512 ∧ hasLane s.part port then
    (.ok, modTim (fun t => { t with peer := mset 0 t.peer port (delay % 2 ^ 32) }) s)
  else (.fail 10, s)

/-- A SyncE output. -/
def synceOf (s : State) (o : Nat) : SyncE := mget {} s.tim.synce o
/-- Set a SyncE output. -/
def setSynce (o : Nat) (x : SyncE) (s : State) : State := modTim (fun t => { t with synce := mset {} t.synce o x }) s

/-- A lane has signal and lock: the link of its port is up (log 60). -/
def laneLocked (s : State) (lane : Nat) : Bool :=
  (portsOfOctet s (lane / 8)).any fun p => decide (p ≤ lane) && decide (lane < p + portLanes s p) && portUp s p

/-- Squelch an output (R381). -/
def squelch (o : Nat) (s : State) : State :=
  let x := synceOf s o
  raise 0x032 evSynceSquelch o x.lane 0 0 (cntInc 0x0A81 0 13 (setSynce o { x with squelched := true, since := s.now } s))

/-- TIME_SET SYNCE: select a lane and a divider, or disable the output (R381). -/
def runSynce (o : Nat) (enable : Bool) (lane divider : Nat) (_ : Nat × Nat) (s : State) : CmdOut × State :=
  if 2 ≤ o then (.fail 10, s)
  else if !enable then (.ok, setSynce o { synceOf s o with enabled := false, squelched := true } s)
  else if divider < 4 ∨ 4095 < divider ∨ 512 ≤ lane ∨ !hasLane s.part lane then (.fail 10, s)
  else
    let s := setSynce o ⟨true, lane, divider, false, s.now⟩ s
    (.ok, if laneLocked s lane then s else squelch o s)

/-! ### The time-unit reset (R360) -/

/-- A time-unit reset; chip says that it is part of a power-on or chip reset (R360). -/
def timeUnitReset (chip : Bool) (s : State) : State :=
  let s := loseTraceable s
  let s := stopTouts s
  let s := modTim (fun t => { t with
    sec := 0, ns := 0, frac := 0, rate := 0, stepDone := false, gen := if chip then 0 else (t.gen + 1) % 256 }) s
  let s := holdGates s
  let copy := cfgBit s .pwrInfraSel 0
  if copy = s.tim.copy then s
  else modTim (fun t => { t with copy := copy, locked := false, trefOk := false }) (endHoldover s)

/-- SNAP latches the counter into the TIM_SNAP registers (R384). -/
def latchSnap (s : State) : State :=
  modTim (fun t => { t with snapFrac := t.frac / 2 ^ 28, snapNs := t.ns, snapSec := t.sec }) s

/-! ### TREF and holdover (R357–R359) -/

/-- TREF_LOSS: with tref_ok set, the time unit enters holdover (R357). -/
def trefLoss (s : State) : State :=
  if !s.tim.trefOk then s
  else
    let s := modTim (fun t => { t with
      trefOk := false, locked := false, holdover := true
      holdAt := if t.holdover then t.holdAt else s.now }) s
    raise 0x030 evTimTrefLost 0 0 0 0 (cntInc 0x0A81 0 11 s)

/-- TREF_VALID: TREF has met R355 for 1 s (R358). -/
def trefValid (s : State) : State := modTim (fun t => { t with trefOk := true }) s

/-- PLL_LOCK: lock is reached, and holdover ends (R358). -/
def pllLock (s : State) : State :=
  if !s.tim.trefOk || s.tim.locked then s
  else
    let was := s.tim.holdover
    let s := modTim (fun t => { t with locked := true }) (endHoldover s)
    if was then raise 0x030 evTimHoldoverExit 0 0 0 0 s else s

/-- HOLDOVER_LIMIT: holdover has lasted hold_limit_s seconds (R359). -/
def holdoverLimit (s : State) : State :=
  let l := cfg s .timCfg 31 16
  if s.tim.holdover ∧ l ≠ 0 ∧ s.tim.holdAt + l * 10 ^ 12 ≤ s.now then loseTraceable s else s

/-! ### TIN and SyncE events (R380, R381) -/

/-- TIN_EDGE: a selected edge is captured, unless it comes within 100 ns of the last capture (R380). -/
def tinEdge (i : Nat) (falling : Bool) (s : State) : State :=
  if 4 ≤ i then s
  else
    let sel := cfg s .timTinCfg (2 * i + 1) (2 * i)
    if !bit sel (if falling then 1 else 0) then s
    else
      let late : Bool := match mget none s.tim.tin i with
        | some t => decide (t + 100000 ≤ s.now)
        | none => true
      if !late then cntInc 0x0A81 0 10 s
      else
        let sq := mget 0 s.tim.tinSeq i
        let s := modTim (fun t => { t with
          tin := mset none t.tin i (some s.now), tinSeq := mset 0 t.tinSeq i ((sq + 1) % 2 ^ 16) }) s
        let (a, b, c) := stampParams (stampNow s)
        raise (0x034 + i) evTimCapture a b c (i + 16 * b2n falling + sq * 2 ^ 16) (cntInc 0x0A81 0 9 s)

/-- SYNCE_LANE_LOSS: the output's lane loses signal or lock (R381). -/
def synceLaneLoss (o : Nat) (s : State) : State :=
  let x := synceOf s o
  if !x.enabled then s
  else if x.squelched then setSynce o { x with since := s.now } s
  else squelch o s

/-- SYNCE_UNSQUELCH: the lane has lock, and has held it for 100 ms (R381). -/
def synceUnsquelch (o : Nat) (s : State) : State :=
  let x := synceOf s o
  if x.enabled && x.squelched && laneLocked s x.lane && decide (x.since + 10 ^ 11 ≤ s.now) then setSynce o { x with squelched := false } s else s

/-! ### Rows -/

/-- TIME_SET_READ. -/
def execTimeSetRead (h : Hdr) (s : State) : Out := .next (command (.timeSetRead h) runTimeRead s)
/-- TIME_SET_STEP. -/
def execTimeSetStep (h : Hdr) (offset : Bool) (time : Stamp) (off : Int) (s : State) : Out :=
  .next (command (.timeSetStep h offset time off) (runTimeStep offset time off) s)
/-- TIME_SET_RATE. -/
def execTimeSetRate (h : Hdr) (rate : Int) (s : State) : Out := .next (command (.timeSetRate h rate) (runTimeRate rate) s)
/-- TIME_SET_MARK_TRACEABLE. -/
def execTimeSetMarkTraceable (h : Hdr) (s : State) : Out := .next (command (.timeSetMarkTraceable h) runMarkTraceable s)
/-- TIME_SET_TOUT. -/
def execTimeSetTout (h : Hdr) (c : ToutCmd) (s : State) : Out := .next (command (.timeSetTout h c) (runTout c) s)
/-- TIME_SET_PEER_DELAY. -/
def execTimeSetPeerDelay (h : Hdr) (port delay : Nat) (s : State) : Out :=
  .next (command (.timeSetPeerDelay h port delay) (runPeerDelay port delay) s)
/-- TIME_SET_SYNCE. -/
def execTimeSetSynce (h : Hdr) (output : Nat) (enable : Bool) (lane divider : Nat) (s : State) : Out :=
  .next (command (.timeSetSynce h output enable lane divider) (runSynce output enable lane divider) s)
/-- TREF_LOSS. -/
def execTrefLoss (s : State) : Out := .next (trefLoss s)
/-- TREF_VALID. -/
def execTrefValid (s : State) : Out := .next (trefValid s)
/-- PLL_LOCK. -/
def execPllLock (s : State) : Out := .next (pllLock s)
/-- HOLDOVER_LIMIT. -/
def execHoldoverLimit (s : State) : Out := .next (holdoverLimit s)
/-- TOUT_EDGE. -/
def execToutEdge (output : Nat) (s : State) : Out := .next (toutEdge output s)
/-- TIN_EDGE. -/
def execTinEdge (input : Nat) (falling : Bool) (s : State) : Out := .next (tinEdge input falling s)
/-- SYNCE_LANE_LOSS. -/
def execSynceLaneLoss (output : Nat) (s : State) : Out := .next (synceLaneLoss output s)
/-- SYNCE_UNSQUELCH. -/
def execSynceUnsquelch (output : Nat) (s : State) : Out := .next (synceUnsquelch output s)

end Sys2Proof.Machine
end

