-- ==== Sys2Proof/Machine/Counters.lean ====
section
/-! DEFINITION. COUNTER_READ, COUNTER_CLEAR and G3_COUNTER_READ (R55, R82, R96, R119, R135, R169, R208, R247, R285, R320,
R349, R386, R427, R453, R475, R516). -/

namespace Sys2Proof.Machine

/-! ### Values -/

/-- Committed records of a half that have not ended (R208). -/
def liveRecords (s : State) (hf : Nat) : Nat :=
  ((upTo (half s hf).fresh).filter fun n =>
    let r := mkRec hf n
    recUsed s r && decide (1 ≤ recLife s r) && decide (recLife s r ≤ 3)).length

/-- FCORE cycles of the stretch a core is in, not yet counted: with a task (k = 0) or blocked in wk.get (k = 3). -/
def coreRunning (s : State) (c k : Nat) : Nat :=
  if k = 0 then
    let ran (t : Nat) : Nat := ranFor s (task s (sliceOfCore c) t) / 500
    ((coreOf s c).task.map ran).getD 0 + ((coreOf s c).preempted.map ran).getD 0
  else if k = 3 then
    match (coreOf s c).getting with
    | some (since, _) => (s.now - since) / 500
    | none => 0
  else 0

/-- A gauge: an entry that shows the device's present state, none for a count. -/
def gaugeOf (s : State) (o unit idx : Nat) : Option Nat :=
  match o with
  | 0x0182 => if idx = 7 then some (s.cls.suspect.filter fun e => e.1 / 16384 = unit ∧ e.2).length else none
  | 0x0581 => if idx = 15 then some (liveRecords s unit) else none
  | 0x0582 => if idx = 15 then some ((pipe s unit).unstable.filter (·.mark)).length else none
  | 0x0701 => if idx = 15 then some (65536 - freeSlots s unit) else none
  | 0x0702 => if idx % 32 = 18 then some (classWaiting s unit (idx / 32)) else none
  | 0x0881 => if idx = 14 then some (freeCells s unit) else none
  | 0x0B81 => if idx = 15 then some (poisonCount s unit) else none
  | _ => none

/-- Bring the counts that grow with time up to the present. -/
def settleCounts (o : Nat) (units : List Nat) (s : State) : State :=
  match o with
  | 0x0582 => each units noteFull s
  | 0x0881 => each units countWaits s
  | 0x0A81 => countHoldover s
  | 0x0B81 => each units (fun d t => countFast d (countPanic d t)) s
  | _ => s

/-- The value of a 64-bit count. -/
def countOf (s : State) (o unit idx : Nat) : Nat :=
  let v := cntGet s o unit idx
  match o with
  | 0x0381 => if !s.hif.bifurcated && (decide (8 ≤ idx ∧ idx ≤ 15) || decide (idx = 17)) then 0 else v
  | 0x0702 =>
    if idx % 32 = 16 then (if v = 0 then 2 ^ 64 - 1 else v - 1)
    else if idx % 32 = 19 then Nat.max v (classWaiting s unit (idx / 32))
    else v
  | 0x0703 => (v + coreRunning s (24 * unit + idx / 4) (idx % 4)) % 2 ^ 64
  | 0x0881 => if idx = 15 then dieCells - Nat.max v (usedCells s unit) else v
  | _ => v

/-- One entry of a counter object as an image; the counters of a domain that is down read 0 (R502), and so does an entry
that does not exist. -/
def countImage (s : State) (o unit idx : Nat) : Nat :=
  if entryCount o ≤ idx ∨ unitDown s (objUnitKind o) unit then 0
  else match gaugeOf s o unit idx with
    | some v => v
    | none =>
      if o = 0x0183 then cntGet s o unit (2 * idx) + cntGet s o unit (2 * idx + 1) * 2 ^ 64
      else countOf s o unit idx

/-- Clear one entry; a gauge does not change, and a stretch under way counts from now. -/
def countClear (o unit idx : Nat) (s : State) : State :=
  if entryCount o ≤ idx ∨ (gaugeOf s o unit idx).isSome then s
  else if o = 0x0183 then cntSet (cntSet s o unit (2 * idx) 0) o unit (2 * idx + 1) 0
  else if o = 0x0703 then
    let n := coreRunning s (24 * unit + idx / 4) (idx % 4) % 2 ^ 64
    cntSet s o unit idx (2 ^ 64 - n)
  else if o = 0x0881 ∧ idx = 15 then cntSet s o unit idx (usedCells s unit)
  else cntSet s o unit idx 0

/-! ### The commands -/

/-- The entries a command names. -/
def countIdx (t : FormT) : List Nat := (upTo (clampCount 4 t.count)).map (firstIdx t + ·)

/-- COUNTER_READ. -/
def runCounterRead (h : Hdr) (t : FormT) (a : Nat × Nat) (s : State) : CmdOut × State :=
  if objKind t.object ≠ .counter then (.fail 4, s)
  else match readUnit s t.object h.kind h.unit with
    | (none, s) => (.fail 4, s)
    | (some u, s) =>
      let l := countIdx t
      let (st, s) := dataCheck a.1 t (entrySize t.object * l.length) true s
      if st ≠ 0 then (.fail st, s)
      else
        let s := settleCounts t.object [u] s
        let es := l.map (countImage s t.object u)
        (.done 0 es.length es.length 0, hostWr t.hostAddr (entriesBytes (entrySize t.object) es) s)

/-- COUNTER_CLEAR, on every unit the target names. -/
def runCounterClear (h : Hdr) (t : FormT) (_ : Nat × Nat) (s : State) : CmdOut × State :=
  let units := targetUnits s h.kind h.unit (objUnitKind t.object)
  if objKind t.object ≠ .counter ∨ units = [] then (.fail 4, s)
  else
    let l := countIdx t
    let s := each units (fun u t' => each l (countClear t.object u) t') (settleCounts t.object units s)
    (.done 0 l.length 0 0, s)

/-- Add two counter images, 64 bits at a time. -/
def addImages (size a b : Nat) : Nat :=
  let lo := (a % 2 ^ 64 + b % 2 ^ 64) % 2 ^ 64
  if size = 16 then lo + (a / 2 ^ 64 + b / 2 ^ 64) % 2 ^ 64 * 2 ^ 64 else lo

/-- A counter summed over every present unit (R96). -/
def countSum (s : State) (o idx : Nat) : Nat :=
  (unitsOfKind s (objUnitKind o)).foldl (fun n u => addImages (entrySize o) n (countImage s o u idx)) 0

/-- G3_COUNTER_READ. -/
def runG3CounterRead (h : G3Hdr) (b : G3Body) (a : Nat × Nat) (s : State) : CmdOut × State :=
  match g3Counter h.table with
  | none => (.fail 4, s)
  | some o =>
    let l := (upTo (clampCount 64 b.count)).map (b.first + ·)
    let (st, s) := g3Check a.1 b.hostAddr (entrySize o * l.length) true s
    if st ≠ 0 then (.fail st, s)
    else
      let es := l.map (countSum s o)
      (.done 0 es.length es.length 0, hostWr b.hostAddr (entriesBytes (entrySize o) es) s)

/-- COUNTER_READ. -/
def execCounterRead (h : Hdr) (t : FormT) (s : State) : Out := .next (command (.counterRead h t) (runCounterRead h t) s)
/-- COUNTER_CLEAR. -/
def execCounterClear (h : Hdr) (t : FormT) (s : State) : Out := .next (command (.counterClear h t) (runCounterClear h t) s)
/-- G3_COUNTER_READ. -/
def execG3CounterRead (h : G3Hdr) (b : G3Body) (s : State) : Out :=
  .next (command (.g3CounterRead h b) (runG3CounterRead h b) s)

end Sys2Proof.Machine
end

