-- ==== Sys2Proof/Machine/Flow.lean ====
section
/-! DEFINITION. The owner slices: how a record ends and is freed (R191, R193), requests and creation (R188, R192), eviction
(R197), connection tracking (R194), sweep and ageing (R196), export (R204, R205), rebinding (R203), firmware's requests
(R256) and the transfer of a half (R178). -/

namespace Sys2Proof.Machine

/-- A slice works: present and not powered off. -/
def sliceOn (s : State) (sl : Nat) : Bool := hasSlice s.part sl && domWorks s (domSlice sl)

/-- A slice has a write of a record that HBM has not accepted. -/
def writePending (s : State) (sl r : Nat) : Bool := (slice s sl).writes.any fun w => w.record = r

/-! ### Ending and freeing a record (R191, R193) -/

/-- The export reasons (R204). -/
def xpClosed : Nat := 1
/-- AGED. -/
def xpAged : Nat := 2
/-- EVICTED. -/
def xpEvicted : Nat := 3
/-- ACTIVE. -/
def xpActive : Nat := 4
/-- FIRMWARE. -/
def xpFirmware : Nat := 5
/-- DRIVER. -/
def xpDriver : Nat := 6

/-- Tell the owner of a freed record's peer: the end state and the reason with which the record ended (R193). -/
def tellPeer (r : Nat) (s : State) : State :=
  match peerBack s r with
  | none => s
  | some q =>
    let closed := decide (recLife s r = lifeClosed)
    let why := mget 0 s.flow.endWhy r
    let why := if why ≠ 0 then why else if closed then xpClosed else xpAged
    modSlice (recOwner s q) (fun x => { x with peers := x.peers ++ [(q, if closed then lifeClosed else lifeAged, why)] }) s

/-- The port a flow took from a binding is released to the binding's owner (R193); a tombstone holds none. -/
def releasePort (r : Nat) (s : State) : State :=
  let b := recBinding s r
  if recKeyLen s r ≠ 0 ∧ b ≠ noRec ∧ b < 2 ^ 26 then
    let port := fld (recAction s r) 56 41
    modSlice (recOwner s b) (fun x => { x with releases := x.releases ++ [(b, port)] }) s
  else s

/-- Replicas of a freed record are removed: by the invalidation of its last change, which goes out once HBM has accepted that
(R182), or else by an invalidation of its own. -/
def invalFreed (sl r : Nat) (s : State) : State :=
  if (slice s sl).writes.any fun w => decide (w.record = r) && w.inval then s
  else if writePending s sl r then queueWrite sl ⟨r, recVer s r, true, none, [], none, recHalf r / 2⟩ s
  else sendInval sl r (recVer s r) none s

/-- The pulls of a record that is no more end; an AGE request that one serves is answered NOT_FOUND. -/
def dropPulls (sl r : Nat) (s : State) : State :=
  let ps := (slice s sl).pulls.filter fun p => p.record = r
  each (ps.filterMap (·.ask)) (fun q => replyCore q.core 2 [])
    (modSlice sl (fun x => { x with pulls := x.pulls.filter fun p => p.record ≠ r }) s)

/-- Free a record: its tasks are cancelled, its peer's owner is told, its port is released, a binding's block is freed, its
index entry and hot line go, its number returns, and replicas of it are removed by index (R193, R200, R271). -/
def freeRecord (sl r : Nat) (s : State) : State :=
  if !recLive s r then s
  else
    let s := releasePort r (tellPeer r (retryRebinds sl r (cancelRecord sl r s)))
    let s := if recKind s r = 3 then
        let a := recAction s r
        match poolOfAddr s (dieOfSlice sl) (fld a 40 27) with
        | some p => modSlice (natSlice s p) (fun x => { x with blockFrees := x.blockFrees ++ [(p, fld a 40 27, fld a 56 41)] }) s
        | none => s
      else s
    let (h, g) := keyHashes s (recHalf r / 2) (recKey s r) (recProf s r)
    let s := invalFreed sl r s
    let s := returnNo r (clearIdx r h g (dropHot sl r s))
    let s := modSlice sl (fun x => { x with
      exports := x.exports.map fun e => if e.record = r then { e with endRec := false, freeIt := false } else e }) s
    let s := { s with flow := { s.flow with
      finReply := mset false s.flow.finReply r false, endWhy := mset 0 s.flow.endWhy r 0
      bindExport := mset 0 s.flow.bindExport r 0 } }
    setEnd r 0 (dropPulls sl r s)

/-- Options of ending a record: freed with it; the command to be acknowledged; requests answered and a reply
sent once HBM has accepted the change. -/
structure EndOpts where
  /-- freed in the same step, or with its end record when that must wait (R191, R205) -/
  free : Bool := false
  /-- the command -/
  cmd : Option (Nat × Nat) := none
  /-- requests answered -/
  answer : List Req := []
  /-- a core's reply -/
  reply : Option (Nat × Nat × List (Nat × Nat)) := none

/-- A record has not ended: committed, and in neither CLOSED nor AGED. -/
def recOpen (s : State) (r : Nat) : Bool := recLive s r && decide (recLife s r < lifeClosed)

/-- A record can end: from CLOSED by eviction alone (R191, R197). -/
def recEnds (s : State) (r reason : Nat) : Bool :=
  recOpen s r || (recLive s r && decide (recLife s r = lifeClosed) && decide (reason = xpEvicted))

/-- A record's life becomes CLOSED or AGED; in CLOSED its fdisp becomes DROP unless close_keep (R191). -/
def endLife (sl r life : Nat) (s : State) : State :=
  let b42 := recN s r 42 1
  let s := setRec r 42 1 (b42 - b42 % 8 + life) s
  let keep := bit (ctEntry s (dieOfSlice sl) (recCtProf s r)) 81
  if life = lifeClosed ∧ !keep then setRec r 64 4 (setFld (recN s r 64 4) 3 0 2) s else s

/-- The end is counted and timed (R191, R208). -/
def endCount (sl r life reason : Nat) (s : State) : State :=
  let s := fleCnt sl (if life = lifeClosed then 9 else if reason = xpEvicted then 7 else 8) s
  let s := { s with flow := { s.flow with
    finReply := mset false s.flow.finReply r false, endWhy := mset 0 s.flow.endWhy r reason } }
  setEnd r (if life = lifeClosed then msNow s + 1 else 0) s

/-- Move a record to CLOSED or AGED (R191): an end record is exported, and what is to be freed with it is freed once that is
written or discarded (R204, R205). -/
def endRecord (sl r life reason : Nat) (o : EndOpts) (s : State) : State :=
  if !recEnds s r reason then s
  else
    let s := endCount sl r life reason (endLife sl r life s)
    let s := bump r o.cmd o.answer o.reply s
    let s := if bit (recFlags48 s r) 1 then offerExport sl r reason true o.free false s else s
    let s := if o.free then exportNow sl s else s
    if (o.free || decide (life = lifeAged)) && !endWaits s sl r then freeRecord sl r s else s

/-! ### Room for a record (R197) -/

/-- A half is under pressure (R197). -/
def pressure (s : State) (hf : Nat) : Bool := decide (halfFree s hf * 256 < cfg s (.flePressureCfg (hf / 2)) 27 20 * 2 ^ 23)

/-- A record can be evicted (R197). -/
def evictable (s : State) (r : Nat) : Bool :=
  recLive s r && decide (1 ≤ recLife s r) && decide (recLife s r ≤ lifeClosed) && !bit (recFlags48 s r) 3
    && !(decide (recKind s r = 3) && decide (recRefs s r ≠ 0))
    && decide (cfg s (.flePressureCfg (recHalf r / 2)) 19 0 ≤ msSince s (seenOf s r))

/-- The newest last_seen that ages a record: for a PRIMARY the newer of its own and its REPLY's (R196). -/
def ageSeen (s : State) (r : Nat) : Nat :=
  match (if recKind s r = 1 then peerOf s r else none) with
  | some p => if wrapGe 32 (seenOf s p) (seenOf s r) then seenOf s p else seenOf s r
  | none => seenOf s r

/-- Send a pull of a record to every pipeline (R196). -/
def sendPull (sl r : Nat) (s : State) : State := each (pipelines s.part) (fun p t => sendChan sl p (.pull r) t) s

/-- A pull runs for a record. -/
def pulling (s : State) (r : Nat) : Bool := (slice s (recOwner s r)).pulls.any fun p => p.record = r

/-- Before a record leaves ESTABLISHING or ACTIVE for AGED, deltas are pulled from every pipeline, for a PRIMARY those of its peer
too (R196). -/
def startPull (sl r reason : Nat) (ask : Option WkReq) (s : State) : State :=
  let peer := if recKind s r = 1 then peerOf s r else none
  let due := pipelines s.part ++ (if peer.isSome then (pipelines s.part).map (16 + ·) else [])
  let s := sendPull sl r (modSlice sl (fun x => { x with pulls := x.pulls ++ [⟨r, ageSeen s r, due, reason, ask⟩] }) s)
  match peer with
  | some p => sendPull sl p s
  | none => s

/-- The records that the entries of a key's candidate buckets name and that could make room: with lackNo only those of the key's
own half (R197). -/
def roomRecords (s : State) (hf h g : Nat) (lackNo : Bool) : List Nat :=
  ((idxAddrs (hf / 2) h g).map (idxEntry s)).filterMap fun e =>
    let r := idxRec (hf / 2) e
    if bit e 0 && (!lackNo || decide (recHalf r = hf)) then some r else none

/-- Evict a record: from ESTABLISHING and ACTIVE after a pull (R196, R197). -/
def evict (r : Nat) (s : State) : Room × State :=
  let sl := recOwner s r
  if recLife s r ≤ lifeAct then (.wait, startPull sl r xpEvicted none s)
  else (.room, endRecord sl r lifeAged xpEvicted { free := true } s)

/-- Evict one record from the candidate buckets of a key (R197); a pull for one of them is waited for. -/
def evictOne (hf h g : Nat) (lackNo : Bool) (s : State) : Room × State :=
  match (roomRecords s hf h g lackNo).filter (evictable s) with
  | [] => (.none, s)
  | a :: l =>
    if (a :: l).any (pulling s) then (.wait, s)
    else if cfgBit s (.flePressureCfg (hf / 2)) 31 then
      evict (l.foldl (fun b x => if msSince s (seenOf s b) < msSince s (seenOf s x) then x else b) a) s
    else
      let (n, s) := useFree s
      evict (nth a (a :: l) (Config.freeValue n % (l.length + 1))) s

/-- An evicted record whose end record still waits would make the room: it is not freed before (R205, log 110). -/
def evictedWaits (s : State) (hf h g : Nat) (lackNo : Bool) : Bool :=
  (roomRecords s hf h g lackNo).any fun r =>
    recLive s r && decide (recLife s r = lifeAged) && decide (mget 0 s.flow.endWhy r = xpEvicted) && endWaits s (recOwner s r) r

/-- A number and an index entry for a key, or why there is none. -/
inductive Found where
  /-- the record and the address of its index entry -/
  | got (r a : Nat)
  /-- an eviction is on its way -/
  | wait
  /-- no room is found -/
  | none
deriving DecidableEq, Repr

/-- Find a number and an index entry for a key, evicting where that may help. n bounds the tries. -/
def findRoom (sl hf h g : Nat) (mayEvict : Bool) : Nat → State → Found × State
  | 0, s => (.none, s)
  | n + 1, s =>
    match freeNo s hf, idxRoom s (hf / 2) h g with
    | some no, some a => (.got (mkRec hf no) a, s)
    | no, _ =>
      if !mayEvict || evictedWaits s hf h g no.isNone then (.none, s)
      else match evictOne hf h g no.isNone s with
        | (.none, s) => (.none, raise (fleSrc sl 2) evFlowTableFull 0 0 0 0 s)
        | (.wait, s) => (.wait, s)
        | (.room, s) => findRoom sl hf h g mayEvict n s

/-- Take a record for a key: its number and its index entry. -/
def takeRecord (sl hf h g : Nat) (mayEvict : Bool) (s : State) : Found × State :=
  match findRoom sl hf h g mayEvict 17 s with
  | (.got r a, s) => (.got r a, putIdx a (mkIdx r g) (takeNo hf s))
  | f => f

/-! ### Creation (R192, R194, R202) -/

/-- The ct_state and mid_stream of a commit (R194): the flags byte of the tracked TCP header. -/
def ctAtCommit (s : State) (die ctProf : Nat) (tcp : Option Nat) : Nat × Bool :=
  match tcp with
  | none => (8, false)
  | some f => if bit f 1 then (1, false) else if bit (ctEntry s die ctProf) 82 then (10, true) else (1, false)

/-- What a commit writes into a record. -/
structure NewRec where
  /-- key -/
  key : List Byte
  /-- profile -/
  prof : Nat
  /-- key length -/
  keyLen : Nat
  /-- kind -/
  kind : Nat
  /-- original direction -/
  dir : Bool
  /-- CT profile -/
  ctProf : Nat
  /-- flags -/
  flags : Nat
  /-- peer -/
  peer : Nat
  /-- action block -/
  action : Nat
  /-- backend generation -/
  bgen : Nat
  /-- backend group -/
  bgrp : Nat
  /-- binding -/
  binding : Nat
  /-- fw_area -/
  fw : Nat
  /-- bytes 255–192: the ports of a binding, or fw_area2 -/
  area2 : Nat := 0
  /-- flags byte of the tracked TCP header -/
  tcp : Option Nat
  /-- the life given, none for the rule of R191 -/
  life : Option Nat := none

/-- Write a new record's fields; its version stays that of the record freed before it (R182, R191). -/
def writeRecord (r : Nat) (n : NewRec) (s : State) : State :=
  let die := recHalf r / 2
  let tracked := bit n.flags 2
  let (ct, mid) := if tracked then ctAtCommit s die n.ctProf n.tcp else (0, false)
  let life := n.life.getD (if tracked then lifeEst else lifeAct)
  let flags := if mid then Nat.lor n.flags 32 else n.flags
  let ms := msNow s
  let bytes := takeBytes n.key 0 40 ++ leBytes 1 (n.prof % 16 + n.kind % 4 * 16) ++ leBytes 1 n.keyLen
    ++ leBytes 1 (life + b2n n.dir * 8 + n.ctProf % 16 * 16) ++ leBytes 1 ct ++ leBytes 4 (recVer s r) ++ leBytes 4 flags
    ++ leBytes 4 n.peer ++ leBytes 4 ms ++ leBytes 4 ms ++ leBytes 32 n.action ++ leBytes 32 0 ++ leBytes 2 n.bgen
    ++ leBytes 2 (n.bgrp % 8192) ++ leBytes 4 n.binding ++ leBytes 4 0 ++ leBytes 4 0 ++ leBytes 48 n.fw ++ leBytes 64 n.area2
  let s := blockWrite (recAddr r) bytes s
  setEnd r (if life = lifeClosed then ms + 1 else 0) s

/-- A placeholder's line becomes the line of its committed record; its parked requests are handed back. -/
def commitLine (sl r : Nat) (s : State) : List Req × State :=
  match hotOf s sl r with
  | none => ([], s)
  | some l => (l.parked, modHot sl r (fun x => { lineOf s r l.h with used := x.used }) s)

/-- Commit a placeholder (R191, R192): the record is written, its version bumped, and once HBM has accepted that every
parked request is answered. -/
def commitNew (sl r : Nat) (n : NewRec) (reply : Option (Nat × Nat × List (Nat × Nat))) (s : State) : State :=
  let (q, s) := commitLine sl r (writeRecord r n s)
  bump r none q reply (fleCnt sl 4 s)

/-- The waiting pass of a parked packet. -/
def waitingPass (s : State) (k : Nat) : Option Pass :=
  match pktOf s k with
  | none => none
  | some p => (pipe s p.pipe).passes.find? fun q => decide (q.pkt = k) && decide (q.st = .waiting)

/-- The request of a line that a packet waits on. -/
def reqOfPkt (s : State) (l : Hot) (k : Nat) : Option Req := l.parked.find? fun q => (reqPkts s q).contains k

/-- Commit from the template (R192, R202): the backend is chosen with the triggering pass's hashes. -/
def commitTemplate (sl r k : Nat) (l : Hot) (s : State) : State :=
  let die := dieOfSlice sl
  let e := profEntry s die l.prof
  match reqOfPkt s l k with
  | none => s
  | some q =>
    let sn := match waitingPass s k with
      | some p => p.snap
      | none => { hash0 := q.hash0, hash1 := q.hash1, tcp := q.tcp, dir := q.dir }
    let t := profTemplate e
    let mk (a gen grp : Nat) : NewRec :=
      { key := l.key, prof := l.prof, keyLen := q.keyLen, kind := 0, dir := sn.dir, ctProf := profCt e, flags := profFlags e
        peer := noRec, action := a, bgen := gen, bgrp := grp, binding := noRec, fw := 0, tcp := sn.tcp }
    if bit t 88 then
      let grp := fld t 87 71 % 8192
      let q' := { q with hash0 := sn.hash0, hash1 := sn.hash1 }
      let code := if profFullDrop e then 3 else 0
      match chooseBackend s die q' grp with
      | none =>
        let s := if groupInvalid s q' grp then
            answerInvalid sl k code q (modHot sl r (fun x => { x with parked := x.parked.erase q }) s)
          else s
        removeNew sl r code (fleCnt sl 5 s)
      | some b => commitNew sl r (mk (setFld t 87 71 b) (backGenOf (backEntry s die b)) grp) none s
    else commitNew sl r (mk t 0 0) none s

/-- Start a placeholder's creation with its trigger, whose direction becomes the record's (R180, R192). -/
def startCreation (sl r k : Nat) (l : Hot) (s : State) : State :=
  let e := profEntry s (dieOfSlice sl) l.prof
  let dir := match waitingPass s k with
    | some p => p.snap.dir
    | none => l.origDir
  let l := { l with origDir := dir }
  let s := modHot sl r (fun x => { x with creating := true, trig := some k, origDir := dir }) s
  match profMode e with
  | 1 =>
    match waitingPass s k, pktOf s k with
    | some p, some x =>
      let s := modPkt k (fun y => { y with snap := p.snap }) s
      let x := { x with snap := p.snap }
      makeTask sl { kind := 1, cls := profClass e, lock := l.h % 16384, expect := 7, record := r, version := l.version, pkt := some k
                    header := headerOperand x x.bytes x.bytes.length 0 false, recOp := newImage s sl l
                    lookup := lookupOperand p.snap } s
    | _, _ => s
  | 2 => commitTemplate sl r k l s
  | _ => removeNew sl r 0 s

/-- Whether a placeholder's creation can start, or must end (R192): it starts with the trigger once the trigger's frame
check has passed; when that failed, with the first parked packet that has passed; with none left it is removed. -/
def evalNew (sl r : Nat) (s : State) : State :=
  match hotOf s sl r with
  | none => s
  | some l =>
    if l.creating ∨ l.life ≠ lifeNew then s
    else
      let ps := parkedPkts s l
      let passed := (l.checks.filter fun c => c.2 && ps.contains c.1).map (·.1)
      match ps with
      | [] => removeNew sl r 2 s
      | _ =>
        match l.trig with
        | some t =>
          if ps.contains t then (if passed.contains t then startCreation sl r t l s else s)
          else match ps.find? passed.contains with
            | some k => startCreation sl r k l s
            | none => s
        | none => s

/-- Frame checks of a request's packets already known when it is parked. -/
def knownChecks (s : State) (q : Req) : List (Nat × Bool) :=
  (reqPkts s q).filterMap fun k => match pktOf s k with
    | some p => p.check.map fun c => (k, c)
    | none => none

/-- Park a request on a NEW line (R188, R192). -/
def park (sl r : Nat) (q : Req) (s : State) : State :=
  let c := knownChecks s q
  evalNew sl r (modHot sl r (fun l => { l with parked := l.parked ++ [q], checks := l.checks ++ c }) s)

/-- Add a request to the last of the writes of a record, whose acceptance answers it. -/
def holdAnswer (r : Nat) (q : Req) : List HbmWrite → List HbmWrite
  | [] => []
  | w :: l =>
    if w.record = r ∧ !(l.any fun x => x.record = r) then { w with answer := w.answer ++ [q] } :: l else w :: holdAnswer r q l

/-- Answer a request with a record, or hold the answer until HBM has accepted the record's last change (R182). -/
def answerHeld (sl r : Nat) (q : Req) (s : State) : State :=
  if writePending s sl r then modSlice sl (fun x => { x with writes := holdAnswer r q x.writes }) s else answerRec sl r q s

/-- Answer a request from a hot line, or park it on a NEW one. -/
def hotServe (sl : Nat) (l : Hot) (q : Req) (s : State) : State :=
  let s := touchHot sl l.record s
  if l.life = lifeNew then park sl l.record q s else answerHeld sl l.record q s

/-! ### Requests (R188, R189) -/

/-- The home half of a request. -/
def reqHalf (s : State) (q : Req) : Nat := homeHalf s q.h

/-- Take the first element of a list that meets a test. -/
def takeFirst {A : Type} (p : A → Bool) (l : List A) : Option (A × List A) :=
  match l.find? p with
  | some a => some (a, l.eraseP p)
  | none => none

/-- FLOW_REQUEST: the owner takes its next request that no transfer holds (R188, R178). -/
def flowRequest (sl : Nat) (s : State) : State :=
  if !sliceOn s sl then s
  else
    match takeFirst (fun q => !halfLeaving s (reqHalf s q)) (slice s sl).reqs with
    | none => s
    | some (q, rest) =>
      let s := fleCnt sl 0 (modSlice sl (fun x => { x with reqs := rest }) s)
      match hotKey s sl q.key q.prof with
      | some l => hotServe sl l q (fleCnt sl 1 s)
      | none =>
        let die := dieOfSlice sl
        let rd (i : Nat) : HbmReq := ⟨mAddr die (0x100000000 + 64 * (i % 2 ^ 22)), none, 64, some (reqHalf s q)⟩
        let s := hbmPush 0 (rd q.g) (hbmPush 0 (rd q.h) (fleCnt sl 2 s))
        modSlice sl (fun x => { x with fetches := x.fetches ++ [q] }) s

/-- A key that no record holds: the new-flow path (R188). False while it must wait, for a hot line's writeback or for an
eviction's pull. A line is evicted only when a record is had for it (R185). -/
def newFlow (sl : Nat) (q : Req) (s : State) : Bool × State :=
  let die := dieOfSlice sl
  let e := profEntry s die q.prof
  if profMode e = 0 ∨ profMode e = 3 then (true, answerCode sl 0 q s)
  else if cfg s (.fleCreateCfg die) 14 0 ≤ parkedIn s sl then (true, answerCode sl 2 q s)
  else if (hotRoom sl q.h s).1 = .none then (true, answerCode sl 2 q s)
  else
    match takeRecord sl (reqHalf s q) q.h q.g true s with
    | (.none, s) => (true, answerCode sl (if profFullDrop e then 3 else 0) q (fleCnt sl 5 s))
    | (.wait, s) => (false, s)
    | (.got r _, t) =>
      match hotRoom sl q.h t with
      | (.room, t) =>
        let l : Hot := { lineOf t r q.h with
          life := lifeNew, kind := 0, dirty := false, key := takeBytes q.key 0 40, prof := q.prof, flags := profFlags e
          origDir := q.dir, newAt := t.now, trig := (reqPkts t q).head? }
        (true, park sl r q (putHot sl l (fleCnt sl 3 t)))
      | _ => (false, (hotRoom sl q.h s).2)

/-- A fetch that has returned is served: false while it must wait (R183, R185, R188). -/
def fetchServe (sl : Nat) (q : Req) (s : State) : Bool × State :=
  match hotKey s sl q.key q.prof with
  | some l => (true, hotServe sl l q s)
  | none =>
    match idxFind s q.h q.g q.key q.prof with
    | none => newFlow sl q s
    | some r =>
      match makeHot sl r q.h s with
      | (.room, s) => (true, answerHeld sl r q s)
      | (.wait, s) => (false, s)
      | (.none, s) => (true, answerCode sl 2 q s)

/-- FLOW_FETCH_DONE: the oldest fetch returns (R183, R185, R188). -/
def flowFetchDone (sl : Nat) (s : State) : State :=
  if !sliceOn s sl then s
  else
    match (slice s sl).fetches with
    | [] => s
    | q :: rest =>
      let die := dieOfSlice sl
      let t := modSlice sl (fun x => { x with fetches := rest }) s
      let t := hbmReturned 0 (mAddr die (0x100000000 + 64 * (q.g % 2 ^ 22)))
        (hbmReturned 0 (mAddr die (0x100000000 + 64 * (q.h % 2 ^ 22))) t)
      match fetchServe sl q t with
      | (true, t) => t
      | (false, _) => (fetchServe sl q s).2

/-- FRAME_CHECK_REPORT: a parked packet's frame-check result reaches the owner (R192). -/
def frameCheckReport (sl : Nat) (s : State) : State :=
  if !sliceOn s sl then s
  else
    match (slice s sl).reports with
    | [] => s
    | (k, ok) :: rest =>
      let s := modSlice sl (fun x => { x with reports := rest }) s
      let ls := (slice s sl).hot.filter fun l => decide (l.life = lifeNew) && ((parkedPkts s l).contains k || decide (l.trig = some k))
      each ls (fun l t => evalNew sl l.record (modHot sl l.record (fun x => { x with checks := x.checks ++ [(k, ok)] }) t)) s

/-- CREATE_TMO_EXPIRY (R192): parked packets take FOLLOW, or DROP with full_drop, and the placeholder goes. -/
def createTmo (sl r : Nat) (s : State) : State :=
  match hotOf s sl r with
  | none => s
  | some l =>
    let die := dieOfSlice sl
    if sliceOn s sl ∧ l.life = lifeNew ∧ l.newAt + cfg1 s (.fleCreateCfg die) 31 16 * 1000000 ≤ s.now then
      let s := raise (fleSrc sl 1) evFlowCreateTimeout r l.prof (parkedPkts s l).length 0 (fleCnt sl 6 s)
      let s := match l.trig with
        | some k => modPkt k (fun p => { p with task := false }) s
        | none => s
      let s := modTsk (fun x => { x with
        items := mset [] x.items sl ((mget [] x.items sl).filter fun k => !(decide (k.kind = 1) && decide (k.record = r))) }) s
      let s := removeNew sl r (if profFullDrop (profEntry s die l.prof) then 3 else 0) s
      match l.task with
      | some t =>
        let k := task s sl t
        if k.kind = 1 ∧ k.record = r ∧ k.state ≠ tskFree then (cancelTask sl t (modTask sl t (fun x => { x with pkt := none }) s)).2
        else s
      | none => s
    else s

/-! ### HBM acceptance (R182, R214) -/

/-- HBM_WRITE_ACCEPTED: the controller accepts the owner's oldest write, and what reflects it goes out. -/
def hbmWriteAccepted (sl : Nat) (s : State) : State :=
  match (slice s sl).writes with
  | [] => s
  | w :: rest =>
    let s := modSlice sl (fun x => { x with writes := rest }) s
    let s := hbmPush 0 ⟨recAddr w.record, some (rdBytes s.mem (recAddr w.record) 256), 256, some (recHalf w.record)⟩ s
    let s := if w.inval then sendInval sl w.record w.version w.cmd s else s
    let s := match w.cmd with
      | some a => modInflight a (fun e => { e with acks := pipelines s.part }) s
      | none => s
    let s := each w.answer (answerRec sl w.record) s
    match w.reply with
    | some (c, st, words) => replyCore c st words s
    | none => s

/-- INVALIDATION_ACK: with every pipeline's acknowledgement the command completes (R214). -/
def invalidationAck (sl : Nat) (s : State) : State :=
  match (slice s sl).acks with
  | [] => s
  | (p, g, i) :: rest =>
    let s := modSlice sl (fun x => { x with acks := rest }) s
    match inflight s (g, i) with
    | none => s
    | some e =>
      let left := e.acks.filter (· ≠ p)
      let s := modInflight (g, i) (fun e => { e with acks := left }) s
      if e.acks ≠ [] ∧ left = [] ∧ !cmdLong e.cmd then finish (g, i) e.status e.progress e.res0 e.res1 s else s

/-- HOT_LINE_WRITEBACK_DONE: an evicting line whose writeback is accepted goes; one made dirty meanwhile is written back
again (R185). -/
def hotWritebackDone (sl r : Nat) (s : State) : State :=
  match hotOf s sl r with
  | some l => if l.evicting then (if l.dirty then writeBack sl r s else dropHot sl r s) else s
  | none => s

/-! ### Deltas (R188, R184) -/

/-- Add a pipeline's deltas to a record: to its hot line, written back first when a field would overflow. When no line
can be had they go to HBM. -/
def addDelta (sl : Nat) (d : DeltaMsg) (s : State) : State :=
  if !recLive s d.record then s
  else
    let (h, _) := keyHashes s (recHalf d.record / 2) (recKey s d.record) (recProf s d.record)
    let (ok, s) := makeHot sl d.record h s
    let ok := decide (ok = .room)
    let newer (a b : Nat) : Nat := if wrapGe 32 a b then a else b
    if ok then
      match hotOf s sl d.record with
      | none => s
      | some l =>
        let tooHot := decide (2 ^ 32 ≤ l.dPktsO + d.po) || decide (2 ^ 32 ≤ l.dPktsR + d.pr) || decide (2 ^ 32 ≤ l.dBytesO + d.bo)
          || decide (2 ^ 32 ≤ l.dBytesR + d.br)
        let s := if tooHot then writeBack sl d.record s else s
        modHot sl d.record (fun l => { l with
          dPktsO := l.dPktsO + d.po, dPktsR := l.dPktsR + d.pr, dBytesO := l.dBytesO + d.bo, dBytesR := l.dBytesR + d.br
          lastSeen := newer d.seen l.lastSeen, dirty := true }) s
    else
      let add (off n : Nat) (t : State) : State := setRec d.record off 8 ((recN t d.record off 8 + n) % 2 ^ 64) t
      setRec d.record 60 4 (newer d.seen (recSeen s d.record)) (add 96 d.po (add 104 d.pr (add 112 d.bo (add 120 d.br s))))

/-- DELTA_ARRIVAL (R188). -/
def deltaArrival (sl : Nat) (s : State) : State :=
  match (slice s sl).deltas with
  | [] => s
  | d :: rest =>
    if sliceOn s sl then addDelta sl d (modSlice sl (fun x => { x with deltas := rest }) s) else s

/-! ### Connection tracking (R191, R194) -/

/-- The next ct_state on a notice (R194): the direction and the flags. -/
def ctNext (st : Nat) (reply : Bool) (tcp : Option Nat) : Nat :=
  let f := tcp.getD 0
  let fin := bit f 0
  if bit f 2 ∧ ((1 ≤ st ∧ st ≤ 7) ∨ st = 10) then 7
  else if st = 1 ∧ reply ∧ bit f 1 ∧ bit f 4 then 2
  else if st = 2 ∧ !reply then 3
  else if st = 10 ∧ reply then 3
  else if st = 3 ∧ fin then (if reply then 5 else 4)
  else if st = 4 ∧ fin ∧ reply then 6
  else if st = 5 ∧ fin ∧ !reply then 6
  else if st = 8 ∧ reply then 9
  else st

/-- Set a record's life without a version change. -/
def setLife (r life : Nat) (s : State) : State :=
  let b := recN s r 42 1
  syncHot r (setRec r 42 1 (b - b % 8 + life) s)

/-- Take a CT notice at the PRIMARY's, or a SINGLE record's, owner (R191, R194). -/
def ctTake (sl : Nat) (n : CtMsg) (s : State) : State :=
  let r := n.record
  if !recOpen s r ∨ !bit (recFlags48 s r) 2 then s
  else
    let st := ctNext (recCt s r) n.reply n.tcp
    let s := syncHot r (setRec r 43 1 st s)
    let fl := n.tcp.getD 0
    if n.tcp.isSome && bit fl 2 then endRecord sl r lifeClosed xpClosed {} s
    else
      let s := if recLife s r = lifeEst ∧ (st = 3 ∨ st = 9) then setLife r lifeAct s else s
      if n.tcp.isSome && bit fl 0 then
        if recLife s r ≤ lifeAct then
          let s := setLife r lifeClosing s
          let s := { s with flow := { s.flow with finReply := mset false s.flow.finReply r n.reply } }
          setEnd r (msNow s + 1) s
        else if recLife s r = lifeClosing ∧ mget false s.flow.finReply r ≠ n.reply then endRecord sl r lifeClosed xpClosed {} s
        else s
      else s

/-- CT_NOTICE: a REPLY's notice is forwarded, reversed, to its PRIMARY's owner; another is taken (R194). -/
def ctNotice (sl : Nat) (s : State) : State :=
  match (slice s sl).cts with
  | [] => s
  | n :: rest =>
    if !sliceOn s sl then s
    else
      let s := modSlice sl (fun x => { x with cts := rest }) s
      if recLive s n.record ∧ recKind s n.record = 2 then
        match peerOf s n.record with
        | some p => modSlice (recOwner s p) (fun x => { x with cts := x.cts ++ [⟨p, n.tcp, !n.reply⟩] }) s
        | none => s
      else ctTake sl n s

/-! ### Peers, ports and blocks (R193, R200) -/

/-- PEER_END: the peer of an ended record moves to the same end state with the same reason. -/
def peerEnd (sl : Nat) (s : State) : State :=
  match (slice s sl).peers with
  | [] => s
  | (r, life, reason) :: rest =>
    if sliceOn s sl then endRecord sl r life reason {} (modSlice sl (fun x => { x with peers := rest }) s) else s

/-- PORT_RELEASE: a binding's port is free again and its refcount falls. -/
def portRelease (sl : Nat) (s : State) : State :=
  match (slice s sl).releases with
  | [] => s
  | (b, port) :: rest =>
    if !sliceOn s sl then s
    else
      let s := modSlice sl (fun x => { x with releases := rest }) s
      if recLive s b ∧ recKind s b = 3 then
        let i := port - fld (recAction s b) 56 41
        let s := if i < 512 then setRec b 192 64 (setFld (portBits s b) i i 0) s else s
        setRec b 140 4 (recRefs s b - 1) s
      else s

/-- NAT_BLOCK_FREE: the pool slice clears the bit of a freed binding's block. -/
def natBlockFree (sl : Nat) (s : State) : State :=
  match (slice s sl).blockFrees with
  | [] => s
  | (p, addr, port) :: rest =>
    if !sliceOn s sl then s
    else
      let s := modSlice sl (fun x => { x with blockFrees := rest }) s
      let die := dieOfSlice sl
      setBlock die addr (port / 2 ^ poolLog2 (poolEntry s die p)) false s

/-! ### Sweep and ageing (R195, R196) -/

/-- The sweep's positions: the slice's own half, then its partner's, each as far as numbers were ever used. -/
def sweepRec (sl i : Nat) : Nat := if i < 2 ^ 23 then mkRec sl i else mkRec (partner sl) (i - 2 ^ 23)

/-- A position holds a committed record the slice serves. -/
def sweepHit (s : State) (sl i : Nat) : Bool := serves s sl (recHalf (sweepRec sl i)) && recLive s (sweepRec sl i)

/-- The next position with a committed record from one upward, if any before the end. -/
def sweepNext (s : State) (sl i : Nat) : Option Nat :=
  let own := (half s sl).fresh
  let other := (half s (partner sl)).fresh
  match firstFrom (sweepHit s sl) i (own - i) with
  | some j => some j
  | none =>
    let k := Nat.max i (2 ^ 23)
    firstFrom (sweepHit s sl) k (2 ^ 23 + other - k)

/-- An idle timeout in ms, divided under pressure (R197). -/
def idleTmo (s : State) (hf secs : Nat) : Nat :=
  secs * 1000 / (if pressure s hf then 2 ^ cfg s (.flePressureCfg (hf / 2)) 30 28 else 1)

/-- An EXPIRE task exists for a record: at the slice that serves it, or at the one that served it before its half moved
(R260). -/
def hasExpire (s : State) (sl r : Nat) : Bool :=
  [sl, partner sl].any fun o =>
    ((sliceTasks s o).any fun e => decide (e.2.kind = 4) && decide (e.2.record = r))
      || (mget [] s.tsk.items o).any fun k => decide (k.kind = 4) && decide (k.record = r)

/-- Make a record's EXPIRE task (R260): reason 1 idle in ESTABLISHING, 2 idle in ACTIVE, 3 CLOSING timeout. -/
def makeExpire (sl r reason seen : Nat) (s : State) : State :=
  if hasExpire s sl r then s
  else
    let (h, _) := keyHashes s (recHalf r / 2) (recKey s r) (recProf s r)
    makeTask sl { kind := 4, cls := profClass (profEntry s (dieOfSlice sl) (recProf s r)), lock := h % 16384, expect := 10
                  record := r, version := recVer s r, recOp := recImage s r, timer := reason + seen * 2 ^ 32 } s

/-- A record's timeouts at a visit (R195–R197). -/
def visitTimeouts (sl r : Nat) (s : State) : State :=
  let ct := ctEntry s (dieOfSlice sl) (recCtProf s r)
  let life := recLife s r
  let hw := bit ct 80
  if life = lifeClosing then
    let t := fld ct 47 32 * 1000
    if t ≠ 0 ∧ t ≤ msSince s (mget 0 s.flow.endAt r + 2 ^ 32 - 1) then
      (if hw then endRecord sl r lifeClosed xpClosed {} s else makeExpire sl r 3 (ageSeen s r) s)
    else s
  else if life = lifeEst ∨ life = lifeAct then
    if bit (recFlags48 s r) 3 ∨ recKind s r = 2 ∨ (recKind s r = 3 ∧ recRefs s r ≠ 0) then s
    else
      let secs := if life = lifeEst ∧ recKind s r ≠ 3 then fld ct 15 0 else fld ct 31 16
      let t := idleTmo s (recHalf r) secs
      let seen := ageSeen s r
      if secs ≠ 0 ∧ t ≤ msSince s seen then
        if !hw then makeExpire sl r (if life = lifeEst then 1 else 2) seen s
        else if pulling s r then s
        else startPull sl r xpAged none s
      else s
  else s

/-- When the last export of a record was written, or it was committed (R204): a BINDING's time stands beside its record, whose
field is a port cursor (R180, log 112). -/
def lastExport (s : State) (r : Nat) : Nat :=
  let created := recN s r 56 4
  if recKind s r = 3 then
    let t := mget 0 s.flow.bindExport r
    if t = 0 then created else t - 1
  else if recN s r 136 4 = 0 then created else recN s r 136 4

/-- The ACTIVE export of a visit (R204). -/
def visitExport (sl r : Nat) (s : State) : State :=
  let iv := fld (ctEntry s (dieOfSlice sl) (recCtProf s r)) 79 64
  let waits := (slice s sl).exports.any fun x => decide (x.record = r) && decide (x.reason = xpActive)
  if bit (recFlags48 s r) 1 ∧ recLife s r < lifeClosed ∧ iv ≠ 0 ∧ iv * 1000 ≤ msSince s (lastExport s r) ∧ !waits then
    offerExport sl r xpActive false false true s
  else s

/-- The index entries of a die that name a record. -/
def idxNaming (s : State) (r : Nat) : List Nat :=
  let lo := mAddr (recHalf r / 2) 0x100000000
  let l := (s.mem.filter fun c => lo ≤ c.1 ∧ c.1 < lo + 2 ^ 28 ∧ c.1 % 8 = 0).map (·.1)
  l.filter fun a => bit (idxEntry s a) 0 && decide (idxRec (recHalf r / 2) (idxEntry s a) = r)

/-- No entry of a committed record's candidate buckets names it (R420). -/
def unnamed (s : State) (r : Nat) : Bool :=
  let (h, g) := keyHashes s (recHalf r / 2) (recKey s r) (recProf s r)
  decide (recLife s r < lifeClosed) && (idxAddrs (recHalf r / 2) h g).all fun a =>
    !(bit (idxEntry s a) 0 && decide (idxRec (recHalf r / 2) (idxEntry s a) = r))

/-- One visit of a record (R184, R191, R195, R196, R204, R419). -/
def visitRecord (sl r : Nat) (s : State) : State :=
  let s := match hotOf s sl r with
    | some l => if l.dirty ∧ cfg s (.fleSweepCfg (dieOfSlice sl)) 31 16 ≤ msSince s l.wbAt then writeBack sl r s else s
    | none => s
  let tomb := (slice s sl).tombs.find? fun t => t.1 = r
  if recLife s r = lifeAged ∧ recKeyLen s r = 0 then
    let s := each (idxNaming s r) (fun a t => putIdx a 0 t) s
    if tomb.isSome then s else modSlice sl (fun x => { x with tombs := x.tombs ++ [(r, x.sweeps)] }) s
  else if unnamed s r then
    freeRecord sl r (setRec r 42 1 (recN s r 42 1 / 8 * 8 + lifeAged) s)
  else if recLife s r = lifeClosed then
    if fld (ctEntry s (dieOfSlice sl) (recCtProf s r)) 63 48 ≤ msSince s (mget 0 s.flow.endAt r + 2 ^ 32 - 1) ∧ !endWaits s sl r then
      freeRecord sl r s
    else s
  else if recLife s r = lifeAged then (if endWaits s sl r then s else freeRecord sl r s)
  else visitTimeouts sl r (visitExport sl r s)

/-- Free the tombstones of which a whole sweep, begun after they were written, has just ended (R419). -/
def freeTombs (sl : Nat) (s : State) : State :=
  each ((slice s sl).tombs.filter fun t => t.2 + 2 ≤ (slice s sl).sweeps) (fun t u =>
    freeRecord sl t.1 (modSlice sl (fun x => { x with tombs := x.tombs.filter fun y => y.1 ≠ t.1 }) u)) s

/-- The period of the sweep, in ps (R196). -/
def sweepPeriod (s : State) (sl : Nat) : Nat := cfg1 s (.fleSweepCfg (dieOfSlice sl)) 15 0 * 10 ^ 9

/-- FLOW_SWEEP_VISIT: the slice's sweep visits its next committed record; past the last one a new sweep begins. A sweep
begins a period after the one before it, and passes its positions evenly over its period, so that a period lies between two
visits of a record (R196; log 108). -/
def flowSweepVisit (sl : Nat) (s : State) : State :=
  let began := (slice s sl).sweepAt
  if !sliceOn s sl || !s.pwr.committed then s
  else
    match sweepNext s sl (slice s sl).sweepPos with
    | some i =>
      if began + sweepPeriod s sl * i / 2 ^ 24 ≤ s.now then
        visitRecord sl (sweepRec sl i) (modSlice sl (fun x => { x with sweepPos := i + 1 }) s)
      else s
    | none =>
      if began + sweepPeriod s sl ≤ s.now then
        freeTombs sl (modSlice sl (fun x => { x with sweepPos := 0, sweeps := x.sweeps + 1, sweepAt := s.now }) s)
      else s

/-- The deltas of a record that its owner has received are taken (R196). -/
def takeDeltas (r : Nat) (s : State) : State :=
  let sl := recOwner s r
  let ds := (slice s sl).deltas.filter fun d => d.record = r
  each ds (addDelta sl) (modSlice sl (fun x => { x with deltas := x.deltas.filter fun d => d.record ≠ r }) s)

/-- PULL_ANSWER: a pull's answers are taken; with the last, last_seen is read again and the record ages or stays (R196).
Deltas sent ahead of the answers are taken first. -/
def pullAnswer (sl r : Nat) (s : State) : State :=
  match (slice s sl).pulls.find? fun p => p.record = r with
  | none => s
  | some p =>
    let peer := peerOf s r
    let mine (e : Nat × Nat) : Bool := decide (e.1 = r) || decide (some e.1 = peer)
    let got := ((slice s sl).pullAns.filter mine).map fun e => if e.1 = r then e.2 else 16 + e.2
    let s := modSlice sl (fun x => { x with pullAns := x.pullAns.filter fun e => !mine e }) s
    let s := each (r :: peer.toList) takeDeltas s
    let due := p.due.filter fun d => !got.contains d
    let due := if peer.isNone then due.filter (· < 16) else due
    if due ≠ [] then
      modSlice sl (fun x => { x with pulls := x.pulls.map fun y => if y.record = r then { y with due := due } else y }) s
    else
      let s := modSlice sl (fun x => { x with pulls := x.pulls.filter fun y => y.record ≠ r }) s
      let reply := p.ask.map fun q => (q.core, 0, [])
      if recLive s r ∧ (recLife s r = lifeEst ∨ recLife s r = lifeAct) ∧ ageSeen s r = p.seen then
        endRecord sl r lifeAged p.reason { free := decide (p.reason = xpEvicted), reply := reply } s
      else match p.ask with
        | some q => replyCore q.core 4 [] s
        | none => s

/-! ### Export (R204, R205) -/

/-- A written or discarded end record lets its record be freed: an AGED one, and one that is freed with it (R191, R205). -/
def endExported (sl : Nat) (x : ExportRec) (s : State) : State :=
  if x.endRec ∧ recLive s x.record ∧ (recLife s x.record = lifeAged ∨ x.freeIt) ∧ !endWaits s sl x.record then
    freeRecord sl x.record s
  else s

/-- Take the first buffered record that meets a test. -/
def takeExport (sl : Nat) (p : ExportRec → Bool) (s : State) : Option ExportRec × State :=
  match takeFirst p (slice s sl).exports with
  | some (x, rest) => (some x, modSlice sl (fun y => { y with exports := rest }) s)
  | none => (none, s)

/-- EXPORT_ROOM: the oldest buffered record whose ring has room is written, both parts under one index; one whose ring
is disabled is dropped (R59, R204). -/
def exportRoom (sl : Nat) (s : State) : State :=
  match takeExport sl (exportReady s) s with
  | (none, s) => s
  | (some x, s) => endExported sl x (writeExport x s)

/-- EXPORT_TMO_EXPIRY: an end record that has waited export_tmo_ms is discarded (R205). -/
def exportTmo (sl : Nat) (s : State) : State :=
  let t := cfg1 s (.fleExportCfg (dieOfSlice sl)) 15 0 * 1000000000
  match takeExport sl (fun x => x.endRec && decide (x.since + t ≤ s.now)) s with
  | (none, s) => s
  | (some x, s) => endExported sl x (exportLost sl x.ring x.reason s)

/-! ### Backends (R203) -/

/-- Write a record's backend and its generation and bump it. -/
def rebindTo (sl r b : Nat) (answer : List Req) (reply : Option (Nat × Nat × List (Nat × Nat))) (s : State) : State :=
  let e := backEntry s (dieOfSlice sl) b
  let s := setRec r 64 32 (setFld (recAction s r) 87 71 b) s
  let s := setRec r 128 2 (backGenOf e) s
  bump r none answer reply (fleCnt sl 11 s)

/-- BACKEND_REQUEST: the owner takes a pass whose backend check failed: it closes the record, rebinds it, or asks
firmware (R203). -/
def backendRequest (sl : Nat) (s : State) : State :=
  if !sliceOn s sl then s
  else
    match takeFirst (fun q => !halfLeaving s (reqHalf s q)) (slice s sl).backends with
    | none => s
    | some (q, rest) =>
      let s := modSlice sl (fun x => { x with backends := rest }) s
      let die := dieOfSlice sl
      match q.backend with
      | none => s
      | some r =>
        if !recLive s r ∨ recKey s r ≠ takeBytes q.key 0 40 ∨ recProf s r ≠ q.prof then answerCode sl 2 q s
        else
          let a := recAction s r
          let b := fld a 87 71
          if !recOpen s r ∨ !bit a 88 ∨ backendOk s die a (recBackGen s r) then answerHeld sl r q s
          else if bit (backEntry s die b) 24 then endRecord sl r lifeClosed xpClosed { answer := [q] } s
          else if profMode (profEntry s die (recProf s r)) = 1 then
            let first := !((slice s sl).rebinds.any fun y => y.backend = some r)
            let s := modSlice sl (fun x => { x with rebinds := x.rebinds ++ [q] }) s
            if first then
              makeTask sl { kind := 5, cls := profClass (profEntry s die (recProf s r)), lock := q.h % 16384, expect := 2
                            record := r, version := recVer s r, recOp := recImage s r } s
            else s
          else
            match chooseBackend s die q (recBackGrp s r) with
            | some n => rebindTo sl r n [q] none s
            | none => if groupInvalid s q (recBackGrp s r) then answerInvalid sl noRec 0 q s else endRecord sl r lifeClosed xpClosed { answer := [q] } s

/-! ### Firmware's requests (R256, R257) -/

/-- Take the request at the head of a slice's queue when its opcode is one. -/
def takeWk (sl op : Nat) (s : State) : Option WkReq × State :=
  match (slice s sl).wk with
  | [] => (none, s)
  | q :: rest =>
    if fld q.req 7 0 = op ∧ sliceOn s sl then (some q, modSlice sl (fun x => { x with wk := rest }) s) else (none, s)

/-- A request that must wait stays at the head of its owner's queue. -/
def wkAgain (sl : Nat) (q : WkReq) (s : State) : State := modSlice sl (fun x => { x with wk := q :: x.wk }) s

/-- Run a firmware request at its owner. -/
def wkRow (sl op : Nat) (f : WkReq → State → State) (s : State) : State :=
  match takeWk sl op s with
  | (none, s) => s
  | (some q, s) => f q s

/-- The task that asks. -/
def wkTask (s : State) (q : WkReq) : Task := task s (sliceOfCore q.core) q.task

/-- The placeholder of a CREATE task, while the owner holds it: the status that refuses otherwise. -/
def wkPlaceholder (sl : Nat) (q : WkReq) (s : State) : Except Nat Hot :=
  let k := wkTask s q
  if k.kind ≠ 1 ∨ k.outcome then .error 4
  else if k.cancelled then .error 1
  else
    match hotOf s sl k.record with
    | some l => if l.life = lifeNew ∧ l.task = some q.task ∧ sliceOfCore q.core = sl then .ok l else .error 1
    | none => .error 1

/-- A CREATE task has its outcome; a trigger that is answered with the parked packets is the task's no longer. -/
def wkOutcome (q : WkReq) (answered : Bool) (s : State) : State :=
  let sl := sliceOfCore q.core
  let s := match (wkTask s q).pkt with
    | some p =>
      if answered then modPkt p (fun x => { x with task := false }) s else forgetPasses p (leaveEpoch p s)
    | none => s
  modTask sl q.task (fun x => { x with outcome := true, pkt := if answered then none else x.pkt }) s

/-- The tracked TCP flags of a CREATE task's packet. -/
def wkTcp (s : State) (q : WkReq) : Option Nat :=
  match (wkTask s q).pkt with
  | some p => match waitingPass s p with
    | some x => x.snap.tcp
    | none => none
  | none => none

/-- A record as firmware gives it in an image: all but the key, which is given (R256). -/
def imageRec (img : Nat) (key : List Byte) (prof keyLen kind : Nat) (dir : Bool) (tcp : Option Nat) : NewRec :=
  { key := key, prof := prof, keyLen := keyLen, kind := kind, dir := dir, ctProf := fld img 343 340
    flags := fld img 415 384, peer := fld img 447 416, action := fld img 767 512, bgen := fld img 1039 1024
    bgrp := fld img 1052 1040, binding := fld img 1087 1056, fw := fld img 1535 1152
    area2 := 0, tcp := tcp }

/-- Insert a record by its image at its own owner, unless there is no room or the key exists. -/
def insertImage (img kind : Nat) (evict : Bool) (tcp : Option Nat) (s : State) : Found × State :=
  let key := leBytes 40 img
  let prof := fld img 323 320
  let die := nth 0 (dies s.part) 0
  let (h, g) := keyHashes s die key prof
  let hf := homeHalf s h
  let sl := halfOwner s hf
  if (idxFind s h g key prof).isSome ∨ (hotKey s sl key prof).isSome then (.none, s)
  else
    match takeRecord sl hf h g evict s with
    | (.got r a, s) => (.got r a, writeRecord r (imageRec img key prof (fld img 335 328) kind (bit img 339) tcp) s)
    | f => f

/-- COMMIT (R256): the placeholder is committed from the record operand; with PAIR the auxiliary image is inserted as
its REPLY, and nothing is committed unless both succeed. -/
def wkCommit (sl : Nat) (q : WkReq) (s : State) : State :=
  match wkPlaceholder sl q s with
  | .error st => replyCore q.core st [] s
  | .ok l =>
    let keyLen := match l.parked with
      | x :: _ => x.keyLen
      | [] => 40
    let n := imageRec q.recOp l.key l.prof keyLen (fld q.recOp 325 324) l.origDir (wkTcp s q)
    let n := if n.kind = 3 then { n with area2 := 0 } else n
    let r := l.record
    if bit q.req 8 then
      match insertImage q.aux 2 true (wkTcp s q) s with
      | (.none, s) => replyCore q.core 3 [] s
      | (.wait, s) => wkAgain sl q s
      | (.got p _, s) =>
        let s := bump p none [] none (setRec p 52 4 r s)
        let v := (recVer s r + 1) % 2 ^ 32
        commitNew sl r { n with peer := p } (some (q.core, 0, [(8, r), (12, v), (16, p)])) (wkOutcome q true s)
    else
      let v := (recVer s r + 1) % 2 ^ 32
      commitNew sl r n (some (q.core, 0, [(8, r), (12, v)])) (wkOutcome q true s)

/-- REJECT (R192, R256). -/
def wkReject (sl : Nat) (q : WkReq) (s : State) : State :=
  match wkPlaceholder sl q s with
  | .error st => replyCore q.core st [] s
  | .ok l => replyCore q.core 0 [] (removeNew sl l.record 2 (wkOutcome q false s))

/-- DENY (R192, R256): the placeholder is committed in CLOSED with fdisp DROP. -/
def wkDeny (sl : Nat) (q : WkReq) (s : State) : State :=
  match wkPlaceholder sl q s with
  | .error st => replyCore q.core st [] s
  | .ok l =>
    let e := profEntry s (dieOfSlice sl) l.prof
    let keyLen := match l.parked with
      | x :: _ => x.keyLen
      | [] => 40
    let n : NewRec := { key := l.key, prof := l.prof, keyLen := keyLen, kind := 0, dir := l.origDir, ctProf := profCt e
                        flags := profFlags e, peer := noRec, action := 2, bgen := 0, bgrp := 0, binding := noRec, fw := 0
                        tcp := wkTcp s q, life := some lifeClosed }
    let s := commitNew sl l.record n (some (q.core, 0, [(8, l.record)])) (wkOutcome q true s)
    if bit (recFlags48 s l.record) 1 then offerExport sl l.record xpClosed true false false s else s

/-- The record of a request that names one: STALE for a cancelled task where staleable, NOT_FOUND for no record. -/
def wkRecord (q : WkReq) (stale : Bool) (s : State) : Except Nat Nat :=
  let r := fld q.req 63 32
  if stale ∧ (wkTask s q).cancelled then .error 1
  else if r < 2 ^ 26 ∧ recLive s r ∧ recKeyLen s r ≠ 0 then .ok r else .error 2

/-- Run a request on its record. -/
def onRecord (q : WkReq) (stale : Bool) (f : Nat → State → State) (s : State) : State :=
  match wkRecord q stale s with
  | .error st => replyCore q.core st [] s
  | .ok r => f r s

/-- SET_ACTION (R256). -/
def wkSetAction (_ : Nat) (q : WkReq) (s : State) : State :=
  onRecord q true (fun r s =>
    let s := setRec r 64 32 (fld q.req 511 256) s
    bump r none [] (some (q.core, 0, [(12, (recVer s r + 1) % 2 ^ 32)])) s) s

/-- CLOSE (R256). -/
def wkClose (sl : Nat) (q : WkReq) (s : State) : State :=
  onRecord q true (fun r s =>
    if recOpen s r then endRecord sl r lifeClosed xpFirmware { reply := some (q.core, 0, []) } s else replyCore q.core 4 [] s) s

/-- AGE (R256): the record ages once the pull has been answered, unless a packet has refreshed it (R196, log 111). -/
def wkAge (sl : Nat) (q : WkReq) (s : State) : State :=
  onRecord q true (fun r s =>
    if recLife s r = lifeEst ∨ recLife s r = lifeAct then
      (if pulling s r then wkAgain sl q s else startPull sl r xpAged (some q) s)
    else replyCore q.core 4 [] s) s

/-- EXPORT (R204, R256). -/
def wkExport (sl : Nat) (q : WkReq) (s : State) : State :=
  onRecord q false (fun r s =>
    if bit (recFlags48 s r) 1 then
      replyCore q.core 0 [] (offerExport sl r xpFirmware false false false s)
    else replyCore q.core 4 [] s) s

/-- READ (R256): the record's image goes to the record operand. -/
def wkRead (_ : Nat) (q : WkReq) (s : State) : State :=
  let give (r : Nat) (s : State) : State :=
    replyCore q.core 0 [(8, r)] (modCore q.core (fun x => { x with replyImage := some (recImage s r) }) s)
  if bit q.req 9 then
    let key := leBytes 40 q.aux
    let prof := fld q.aux 323 320
    let (h, g) := keyHashes s (dieOfCore q.core) key prof
    match idxFind s h g key prof with
    | some r => give r s
    | none => replyCore q.core 2 [] s
  else onRecord q false give s

/-- REBIND (R203, R256): the requests parked for it are answered once HBM has accepted the change. -/
def wkRebind (sl : Nat) (q : WkReq) (s : State) : State :=
  onRecord q true (fun r s =>
    if !recOpen s r then replyCore q.core 4 [] s
    else
      let parked := (slice s sl).rebinds.filter fun x => x.backend = some r
      let s := modSlice sl (fun x => { x with rebinds := x.rebinds.filter fun y => y.backend ≠ some r }) s
      rebindTo sl r (fld q.req 95 64 % 131072) parked (some (q.core, 0, [(12, (recVer s r + 1) % 2 ^ 32)])) s) s

/-- NAT_BLOCK (R199, R256). -/
def wkNatBlock (sl : Nat) (q : WkReq) (s : State) : State :=
  match natBlockAlloc sl (fld q.req 71 64) (fld q.req 127 96) s with
  | (none, s) => replyCore q.core 3 [] s
  | (some (a, p), s) => replyCore q.core 0 [(8, a), (12, p)] s

/-- Queue a write without a version change, and reply once it is accepted. -/
def replyAfter (q : WkReq) (r : Nat) (words : List (Nat × Nat)) (s : State) : State :=
  queueWrite (recOwner s r) ⟨r, recVer s r, false, none, [], some (q.core, 0, words), recHalf r / 2⟩ s

/-- NAT_PORT (R200, R256). -/
def wkNatPort (sl : Nat) (q : WkReq) (s : State) : State :=
  onRecord q false (fun r s =>
    if recKind s r ≠ 3 ∨ !recOpen s r then replyCore q.core 4 [] s
    else
      let die := dieOfSlice sl
      let size := match poolOfAddr s die (fld (recAction s r) 40 27) with
        | some p => 2 ^ poolLog2 (poolEntry s die p)
        | none => 512
      match natPortAlloc s r size with
      | none => replyCore q.core 3 [] s
      | some i =>
        let s := setRec r 192 64 (setFld (portBits s r) i i 1) s
        let s := setRec r 136 2 (i + 1) s
        let s := setRec r 140 4 (recRefs s r + 1) s
        replyAfter q r [(12, fld (recAction s r) 56 41 + i)] s) s

/-- SET_FW (R256). -/
def wkSetFw (_ : Nat) (q : WkReq) (s : State) : State :=
  onRecord q false (fun r s => replyAfter q r [] (setRec r 144 48 (fld q.aux 1535 1152) s)) s

/-! ### Transfers (R178, R219) -/

/-- The half that leaves a slice. -/
def leavingHalf (s : State) (sl : Nat) : Option Nat :=
  match (slice s sl).transfer with
  | .none => none
  | .leaving true => some sl
  | .leaving false => some (partner sl)

/-- A half's departing slice has nothing of it under way: no fetch, no NEW record, no write to be accepted, no pull. -/
def halfDrained (s : State) (sl hf : Nat) : Bool :=
  let x := slice s sl
  !(x.fetches.any fun q => decide (reqHalf s q = hf)) && !(x.hot.any fun l => decide (l.life = lifeNew) && decide (recHalf l.record = hf))
    && !(x.writes.any fun w => decide (recHalf w.record = hf)) && !(x.pulls.any fun p => decide (recHalf p.record = hf))

/-- The half a firmware request is about: its task's placeholder's for COMMIT, REJECT and DENY, its pool slice's own for
NAT_BLOCK, its key's for READ by key, or its record's (R256). -/
def wkHalf (s : State) (sl : Nat) (q : WkReq) : Nat :=
  let op := fld q.req 7 0
  if op = 1 ∨ op = 2 ∨ op = 3 then recHalf (wkTask s q).record
  else if op = 0x0A then sl
  else if op = 8 ∧ bit q.req 9 then homeHalf s (keyHashes s (dieOfCore q.core) (leBytes 40 q.aux) (fld q.aux 323 320)).1
  else recHalf (fld q.req 63 32)

/-- Move what a slice holds for a half to another slice. -/
def moveHalf (src dst hf : Nat) (s : State) : State :=
  let x := slice s src
  let ofRec (r : Nat) : Bool := decide (recHalf r = hf)
  let ofReq (q : Req) : Bool := decide (reqHalf s q = hf)
  let ofWk (q : WkReq) : Bool := decide (wkHalf s src q = hf)
  let own := decide (hf = src)
  let keep : Slice := { x with
    reqs := x.reqs.filter fun q => !ofReq q, backends := x.backends.filter fun q => !ofReq q
    rebinds := x.rebinds.filter fun q => !ofReq q, hot := x.hot.filter fun l => !ofRec l.record
    cts := x.cts.filter fun m => !ofRec m.record, peers := x.peers.filter fun m => !ofRec m.1
    releases := x.releases.filter fun m => !ofRec m.1, deltas := x.deltas.filter fun m => !ofRec m.record
    pulls := x.pulls.filter fun p => !ofRec p.record, wk := x.wk.filter fun q => !ofWk q
    blockFrees := if own then [] else x.blockFrees
    exports := x.exports.filter fun e => !ofRec e.record, tombs := x.tombs.filter fun t => !ofRec t.1 }
  let s := modSlice src (fun _ => keep) s
  let s := modSlice dst (fun y => { y with
    reqs := y.reqs ++ x.reqs.filter ofReq, backends := y.backends ++ x.backends.filter ofReq
    rebinds := y.rebinds ++ x.rebinds.filter ofReq
    cts := y.cts ++ x.cts.filter fun m => ofRec m.record
    peers := y.peers ++ x.peers.filter fun m => ofRec m.1
    releases := y.releases ++ x.releases.filter fun m => ofRec m.1
    deltas := y.deltas ++ x.deltas.filter fun m => ofRec m.record
    wk := y.wk ++ x.wk.filter ofWk
    blockFrees := y.blockFrees ++ if own then x.blockFrees else []
    exports := y.exports ++ x.exports.filter fun e => ofRec e.record
    tombs := y.tombs ++ ((x.tombs.filter fun t => ofRec t.1).map fun t => (t.1, y.sweeps)) }) s
  let s := each (pipelines s.part) (fun p t => modWaitings p (fun l => l.map fun w =>
    if ofReq w.req then { w with slice := dst } else w) t) s
  let ofItem (k : Task) : Bool := k.record ≠ noRec && ofRec k.record
  let items := mget [] s.tsk.items src
  each (items.filter ofItem) (makeTask dst)
    (modTsk (fun t => { t with items := mset [] t.items src (items.filter fun k => !ofItem k) }) s)

/-- Once the departing slice's half has drained, its dirty lines are written back, every pipeline switches
the owner, the final stamps go out, and the partner serves the half (R178, R219). -/
def ownerSwitch (sl : Nat) (s : State) : State :=
  match leavingHalf s sl with
  | none => s
  | some hf =>
    if !halfDrained s sl hf then s
    else
      let s := each ((slice s sl).hot.filter fun l => l.dirty && decide (recHalf l.record = hf)) (fun l t => writeBack sl l.record t) s
      let s := modSlice sl (fun x => { x with
        transfer := .none
        servesOwn := x.servesOwn && decide (hf ≠ sl)
        servesPartner := x.servesPartner && decide (hf = sl) }) s
      let s := modSlice (partner sl) (fun x => { x with
        servesOwn := x.servesOwn || decide (hf = partner sl)
        servesPartner := x.servesPartner || decide (hf = sl) }) s
      let s := each (pipelines s.part) (fun p t => sendChan sl p (.finalStamp hf) t) s
      moveHalf sl (partner sl) hf s

/-! ### Rows -/

/-- FLOW_REQUEST. -/
def execFlowRequest (slice : Nat) (s : State) : Out := .next (flowRequest slice s)
/-- FLOW_FETCH_DONE. -/
def execFlowFetchDone (slice : Nat) (s : State) : Out := .next (flowFetchDone slice s)
/-- FRAME_CHECK_REPORT. -/
def execFrameCheckReport (slice : Nat) (s : State) : Out := .next (frameCheckReport slice s)
/-- HBM_WRITE_ACCEPTED. -/
def execHbmWriteAccepted (slice : Nat) (s : State) : Out := .next (hbmWriteAccepted slice s)
/-- CREATE_TMO_EXPIRY. -/
def execCreateTmoExpiry (slice record : Nat) (s : State) : Out := .next (createTmo slice record s)
/-- BACKEND_REQUEST. -/
def execBackendRequest (slice : Nat) (s : State) : Out := .next (backendRequest slice s)
/-- HOT_LINE_WRITEBACK_DONE. -/
def execHotLineWritebackDone (slice record : Nat) (s : State) : Out := .next (hotWritebackDone slice record s)
/-- FLOW_SWEEP_VISIT. -/
def execFlowSweepVisit (slice : Nat) (s : State) : Out := .next (flowSweepVisit slice s)
/-- EXPORT_ROOM. -/
def execExportRoom (slice : Nat) (s : State) : Out := .next (exportRoom slice s)
/-- EXPORT_TMO_EXPIRY. -/
def execExportTmoExpiry (slice : Nat) (s : State) : Out := .next (exportTmo slice s)
/-- PEER_END. -/
def execPeerEnd (slice : Nat) (s : State) : Out := .next (peerEnd slice s)
/-- PORT_RELEASE. -/
def execPortRelease (slice : Nat) (s : State) : Out := .next (portRelease slice s)
/-- NAT_BLOCK_FREE. -/
def execNatBlockFree (slice : Nat) (s : State) : Out := .next (natBlockFree slice s)
/-- CT_NOTICE. -/
def execCtNotice (slice : Nat) (s : State) : Out := .next (ctNotice slice s)
/-- DELTA_ARRIVAL. -/
def execDeltaArrival (slice : Nat) (s : State) : Out := .next (deltaArrival slice s)
/-- PULL_ANSWER. -/
def execPullAnswer (slice record : Nat) (s : State) : Out := .next (pullAnswer slice record s)
/-- INVALIDATION_ACK. -/
def execInvalidationAck (slice : Nat) (s : State) : Out := .next (invalidationAck slice s)
/-- COMMIT. -/
def execCommit (slice : Nat) (s : State) : Out := .next (wkRow slice 1 (wkCommit slice) s)
/-- REJECT. -/
def execReject (slice : Nat) (s : State) : Out := .next (wkRow slice 2 (wkReject slice) s)
/-- DENY. -/
def execDeny (slice : Nat) (s : State) : Out := .next (wkRow slice 3 (wkDeny slice) s)
/-- SET_ACTION. -/
def execSetAction (slice : Nat) (s : State) : Out := .next (wkRow slice 4 (wkSetAction slice) s)
/-- CLOSE. -/
def execClose (slice : Nat) (s : State) : Out := .next (wkRow slice 5 (wkClose slice) s)
/-- AGE. -/
def execAge (slice : Nat) (s : State) : Out := .next (wkRow slice 6 (wkAge slice) s)
/-- EXPORT. -/
def execExport (slice : Nat) (s : State) : Out := .next (wkRow slice 7 (wkExport slice) s)
/-- READ. -/
def execRead (slice : Nat) (s : State) : Out := .next (wkRow slice 8 (wkRead slice) s)
/-- REBIND. -/
def execRebind (slice : Nat) (s : State) : Out := .next (wkRow slice 9 (wkRebind slice) s)
/-- NAT_BLOCK. -/
def execNatBlock (slice : Nat) (s : State) : Out := .next (wkRow slice 0x0A (wkNatBlock slice) s)
/-- NAT_PORT. -/
def execNatPort (slice : Nat) (s : State) : Out := .next (wkRow slice 0x0B (wkNatPort slice) s)
/-- SET_FW. -/
def execSetFw (slice : Nat) (s : State) : Out := .next (wkRow slice 0x0C (wkSetFw slice) s)

end Sys2Proof.Machine
end

