-- ==== Sys2Proof/Machine/Passes.lean ====
section
/-! DEFINITION. The rows of a packet's life: receipt (R32, R297, R298), passes (R25, R104–R107, R123, R186), frame checks
(R106, R224, R231), answers (R187), invalidations (R214, R215), stamps (R217, R219, R221), replays (R235), timeouts (R225),
pulls (R196), and injected frames (R74, R369). -/

namespace Sys2Proof.Machine

/-! ### Receipt -/

/-- The PCP of a frame's outermost tag, or the port's default (R297): the tag is the first header of class 0x02 that the parse
graph of the port's profile selects (R103). -/
def ingressPri (s : State) (port : Nat) (bs : List Byte) : Nat :=
  let p := pipeOfLane port
  match frameTag (parse s p (epochOf s p).cur (cfg s (.prsLaneCfg port) 3 0) bs).hdrs with
  | some h => fb bs h.off / 32
  | none => cfg s (.bufPortCfg port) 22 20

/-- A frame comes into a pipeline's holding buffer, or is dropped when it is full (R32, R298). -/
def intakeFrame (x : Pkt) (s : State) : State :=
  let p := x.pipe
  let d := dieOfPipe p
  if holdMax < heldBytes s p + x.bytes.length + 4 then
    let s := if x.inj.isSome then s else countRx x.port (x.bytes.length + 4) false s
    if lossless s x.port x.pri then
      raise (bufSrc d (1 + p % 4)) evBufLosslessOverrun 0 0 0 0 (cntInc 0x0881 d 8 s)
    else cntInc 0x0881 d 7 s
  else
    let (k, s) := newPkt x s
    holdCheck p (modPipe p (fun y => { y with intake := y.intake ++ [k] }) s)

/-- The frame of a port with its stamp. -/
def portFrame (s : State) (port : Nat) (bs : List Byte) (stamp : Stamp) : Pkt :=
  { bytes := bs, port := port, pipe := pipeOfLane port, stamp := stamp, stampOk := compReady s port
    gen := s.tim.gen, pri := ingressPri s port bs }

/-- FRAME_RECEIVE: a frame, without its FCS, arrives at a port that is up. -/
def frameReceive (port : Nat) (bs : List Byte) (s : State) : State :=
  if portUp s port && domWorks s (domPipe (pipeOfLane port)) then intakeFrame (portFrame s port bs (rxStamp s port)) s else s

/-! ### Malformed frames (R106, R107) -/

/-- The result of a malformed pass: its cause's action. -/
def malformedSnap (s : State) (x : Pkt) (cause : Nat) (hs : List HdrRec) : Snap :=
  let p := x.pipe
  let die := dieOfPipe p
  let dest := Reg.prsMalfDest p
  let sn : Snap := { strip := x.strip, disp := 2 }
  match cfg s (.prsMalfAct p) (2 * cause + 1) (2 * cause) with
  | 0 => sn
  | 1 => { sn with disp := 3, puntRing := cfg s dest 15 8, reason := 4 }
  | 3 => { sn with mirror := some (cfg s dest 7 0) }
  | _ =>
    let bs := x.bytes.drop x.strip
    let v := tEntry s die 0x0205 (frameVlan s x.port bs hs)
    if !bit v 52 then { sn with dropCnt := some (0x0281, die, 15) }
    else
      resolveSnap s x { sn with
        disp := 0
        target := match l2Find s die (fld v 13 0) (ofBe (takeBytes bs 0 6)) with
          | some i => l2Dest (l2Get s die i)
          | none => mkTgt 5 (fld v 41 26) }

/-- A pass that skips the flow stage, with its result. -/
def skipPass (k no lookup : Nat) (sn : Snap) : Pass :=
  { pkt := k, no := no, record := none, version := 0, owner := 0, half := 0, lookup := lookup, auth := false, st := .confirmed
    covered := false, origDir := false, flags := 0, action := 0, backendGen := 0, snap := { sn with skip := true }, cause := 0 }

/-- Replace everything a packet has under way by one confirmed pass with a result, merge it and settle the packet. -/
def replacePasses (k : Nat) (sn : Snap) (s : State) : State :=
  match pktOf s k with
  | none => s
  | some x =>
    let s := leaveEpoch k (forgetPasses k (withdraw k s))
    let s := modPipe x.pipe (fun y => { y with passes := y.passes ++ [skipPass k 0 (ctime s) sn] }) s
    let s := modPkt k (fun y => { y with flowOk := true, deferred := [] }) s
    settle k (mergePass x.pipe k 0 s)

/-- A deferred comparison has failed at the frame's end and no bit has left: the cause's action applies (R106). -/
def deferredFails (k cause : Nat) (s : State) : State :=
  match pktOf s k with
  | none => s
  | some x =>
    let hs := match lastPass s k x with
      | some q => q.snap.hdrs
      | none => []
    replacePasses k (malformedSnap s x cause hs) (modPkt k (fun y => { y with malformed := cause, check := some true }) s)

/-! ### The flow stage (R186, R187, R213, R246) -/

/-- The confirm times of all present dies are aligned (R212). -/
def allAligned (s : State) : Bool := (dies s.part).all fun d => mget false s.aligned d

/-- A pass reaches the flow stage: it acts on a replica, or waits for its owner. -/
def flowStage (p k no : Nat) (s : State) : State :=
  match passOf s p k no with
  | none => s
  | some q =>
    let sn := q.snap
    let asked := (waitings s p).any fun w => decide (w.key = sn.key) && decide (w.prof = sn.prof)
    let marked (r : Nat) : Bool := match unstableOf s p r with
      | some u => u.mark
      | none => false
    match replicaOf s p sn.key sn.prof with
    | some r =>
      if asked || !cfgBit s (.fleSpecCfg p) 31 || !allAligned s || marked r.record then joinWait p k no none false s
      else
        let s := modPass p k no (fun y => { y with
          record := some r.record, version := r.version, owner := recOwner s r.record, half := recHalf r.record
          st := .spec, auth := false, origDir := r.origDir, flags := r.flags, action := r.action, backendGen := r.backendGen }) s
        mergePass p k no (syncSpec p (touchReplica p r.record s))
    | none => joinWait p k no none false s

/-- Begin a pass of a packet: parse, classify, and the flow stage (R25, R102, R123). -/
def beginPass (p k : Nat) (s : State) : State :=
  match pktOf s k with
  | none => s
  | some x =>
    let bs := x.bytes.drop x.strip
    let no := x.passes
    let r := parse s p x.epoch x.prof bs
    let s := modPkt k (fun y => { y with passes := no + 1, deferred := y.deferred ++ r.deferred }) s
    if r.cause ≠ 0 then
      let s := modPkt k (fun y => { y with malformed := r.cause, deferred := [] }) s
      let q := skipPass k no (ctime s) (malformedSnap s x r.cause r.hdrs)
      mergePass p k no (modPipe p (fun y => { y with passes := y.passes ++ [q] }) s)
    else
      let (sn, s) := classify p x.port x.epoch no x.strip x.pri bs r s
      let sn := resolveSnap s { x with tc := finalTc x sn 0 } sn
      let q := skipPass k no (ctime s) sn
      let q := if sn.skip then q else { q with st := .waiting, snap := sn }
      let s := modPipe p (fun y => { y with passes := y.passes ++ [q] }) s
      if sn.skip then mergePass p k no s
      else flowStage p k no (if x.firstLookup = 0 then modPkt k (fun y => { y with firstLookup := ctime s }) s else s)

/-- After a pass: what it allows to be confirmed, or the malformed action of a deferred comparison whose frame has
already ended. -/
def afterPass (p k : Nat) (s : State) : State :=
  let s := match pktOf s k with
    | none => s
    | some x =>
      match x.check, x.deferred with
      | some true, c :: _ => deferredFails k c s
      | _, _ => checkFlow k s
  confirmPasses p s

/-- The flow stage takes passes: neither the speculation table nor the waiting places are full (R186, R245). -/
def stageOpen (s : State) (p : Nat) : Bool := decide (tableCount s p < 8192) && decide (waitCount s p < 4096)

/-- The request a received frame makes for its cells (R294). -/
def frameWaiter (s : State) (k : Nat) : Waiter :=
  match pktOf s k with
  | some x => ⟨x.pipe % 4, k, cellsFor x.bytes.length, lossless s x.port x.pri⟩
  | none => ⟨0, k, 0, false⟩

/-- PACKET_PASS: the frame at the head of the intake is written to cells and begins its first pass. -/
def packetPass (p : Nat) (s : State) : State :=
  match (pipe s p).intake with
  | [] => s
  | k :: rest =>
    if !domWorks s (domPipe p) then s
    else if !stageOpen s p || itemHeld s p then noteFull p s
    else
      match askCells (dieOfPipe p) (frameWaiter s k) (noteFull p s) with
      | (false, s) => s
      | (true, s) =>
      match writeFrame k s with
      | none => s
      | some s =>
        let s := holdCheck p (modPipe p (fun y => { y with intake := rest }) s)
        let (c, s) := epochEnter p s
        let s := modPkt k (fun y => { y with
          epoch := c, inEpoch := true, tc := y.pri, prof := cfg s (.prsLaneCfg y.port) 3 0 }) s
        afterPass p k (beginPass p k s)

/-- The first packet of the yo-yo path that is due, of replays or of recirculations. -/
def yoyoDue (s : State) (p : Nat) (replay : Bool) : Option YoYo :=
  (pipe s p).yoyo.find? fun y => decide (y.pass.isSome = replay) && decide (y.ready ≤ s.now)

/-- Take an entry off the yo-yo path. -/
def yoyoTake (p : Nat) (y : YoYo) (s : State) : State :=
  modPipe p (fun x => { x with yoyo := x.yoyo.filter fun z => z ≠ y }) s

/-- RECIRCULATION: a recirculating packet re-enters the parser; replays go first (R123, R235). -/
def recirculation (p : Nat) (s : State) : State :=
  match yoyoDue s p true, yoyoDue s p false with
  | none, some y => if domWorks s (domPipe p) && stageOpen s p then afterPass p y.pkt (beginPass p y.pkt (yoyoTake p y s)) else s
  | _, _ => s

/-- REPLAY: a squashed pass reaches the flow stage again; its source lookup is repeated and it waits for its owner
(R203, R235). A later pass of a recirculated packet that skips the flow stage only takes its place again (R239). -/
def replay (p : Nat) (s : State) : State :=
  match yoyoDue s p true with
  | none => s
  | some y =>
    match pktOf s y.pkt, passOf s p y.pkt (y.pass.getD 0) with
    | some x, some q =>
      if !domWorks s (domPipe p) || !decide (waitCount s p < 4096) then s
      else if q.snap.skip then
        confirmPasses p (checkFlow y.pkt (mergePass p y.pkt q.no (modPass p y.pkt q.no (fun w => { w with st := .confirmed }) (yoyoTake p y s))))
      else
        let s := yoyoTake p y s
        let sn := q.snap
        let sn := if sn.srcHit = 0 then sn
          else { sn with srcHit := (sourceLookup s (dieOfPipe p) sn.fid sn.srcMac (ingressTarget s x.port)).1 }
        let n := { q with snap := sn, lookup := ctime s, st := .waiting }
        let s := modPipe p (fun z => { z with
          passes := (z.passes.filter fun w => !(decide (w.pkt = q.pkt) && decide (w.no = q.no))) ++ [n] }) s
        joinWait p y.pkt q.no (if q.cause = 3 then q.record else none) true s
    | _, _ => yoyoTake p y s

/-! ### The frame check (R106, R224, R231) -/

/-- Report a packet's frame check to the owners its passes wait at (R192). -/
def reportCheck (k : Nat) (ok : Bool) (s : State) : State :=
  match pktOf s k with
  | none => s
  | some x =>
    each (waitings s x.pipe) (fun w t =>
      if w.who.any fun e => e.1 = k then modSlice w.slice (fun y => { y with reports := y.reports ++ [(k, ok)] }) t else t) s

/-- A frame that has begun to leave fails its check: it ends with a stomped FCS where it is leaving, and is dropped where
it is not; its effects are discarded (R231). fcs: its FCS failed, which the ingress port counts. -/
def stompFrame (k : Nat) (fcs : Bool) (s : State) : State :=
  match pktOf s k with
  | none => s
  | some x =>
    let s := if fcs then countRx x.port 0 true s else countArrival k s
    let s := specCnt x.pipe 9 1 (modPkt k (fun y => { y with stomp := true, settled := true, check := some false, owed := [] }) s)
    let s := leaveEpoch k (forgetPasses k s)
    let s := each (portsHolding s k) (fun port t => unref k (unlinkPort k port t)) s
    let unsent := (voqsOf s k).filter fun v => v.2.2.sent = 0
    let s := each unsent (fun v t => modVoq v.1 v.2.1 v.2.2.queue (·.filter fun e => e ≠ v.2.2) t) s
    each (unsent.flatMap fun v => v.2.2.ports) (fun _ t => unref k t) s

/-- Drop a frame whose FCS fails before any bit of it has left: the port counts an FCS error, and nothing else counts the frame
(R107, R230). -/
def checkDrop (k : Nat) (s : State) : State :=
  match pktOf s k with
  | none => s
  | some x =>
    let spec := (pktPasses s x.pipe k).any fun q => !q.snap.skip
    let s := modPkt k (fun y => { y with settled := true, owed := [] }) (countRx x.port 0 true s)
    holdCheck x.pipe (dropEarly k (if spec then some (0x0582, x.pipe, 10) else none) s)

/-- A frame that is confirmed counts in the depths of the queues where it waits (R346). -/
def noteDepths (k : Nat) (s : State) : State :=
  each (portsHolding s k) (fun port t => each (upTo 16) (noteDepth port) t) s

/-- The frame has passed its check. -/
def checkPass (k : Nat) (s : State) : State :=
  match pktOf s k with
  | none => s
  | some _ =>
    let s := modPkt k (fun y => { y with check := some true, checkAt := s.now }) s
    noteDepths k (settle k (reportCheck k true s))

/-- FRAME_CHECK: the frame's end arrives, its FCS good or bad. -/
def frameCheck (k : Nat) (fcsOk : Bool) (s : State) : State :=
  match pktOf s k with
  | none => s
  | some x =>
    if x.check.isSome then s
    else
      let s := match fcsOk, x.deferred with
        | true, [] => checkPass k s
        | true, c :: _ =>
          let s := reportCheck k false s
          if x.started then stompFrame k false (cntInc 0x0181 x.pipe c s) else deferredFails k c s
        | false, _ =>
          let s := reportCheck k false s
          if x.started then stompFrame k true s else checkDrop k s
      confirmPasses x.pipe s

/-! ### The ordered channels (R187, R216) -/

/-- A message that is a pull. -/
def isPull : ChanMsg → Bool
  | .pull _ => true
  | _ => false

/-- Take the next message of a channel; pulls wait aside for the passes they ask about. -/
def takeChan (sl p : Nat) (s : State) : Option (ChanMsg × State) :=
  match takeFirst (fun m => !isPull m) (chan s sl p) with
  | some (m, rest) => some (m, modChan sl p (fun _ => rest) s)
  | none => none

/-- Send a RETRYed request again, for the first pass that still waits (R192, R193). -/
def resendReq (p : Nat) (w : Waiting) (s : State) : State :=
  pokeWaits p (modWait p w.key w.prof (fun v => { v with sent := false }) s)

/-- ANSWER: the waiting passes act on the owner's answer in order, and the entry is installed; or the request is sent again.
Those that came behind a chain act after it, and ask again while a part of it is still to return (R235). -/
def answer (sl p : Nat) (s : State) : State :=
  match takeChan sl p s with
  | some (.answer key prof record version flags action backendGen origDir found, s) =>
    match (waitings s p).find? fun w => w.key = key ∧ w.prof = prof with
    | none => s
    | some w =>
      if found = 2 then resendReq p w s
      else
        let out := chainOut s p key prof && !w.late.isEmpty
        let s := if out then modWait p key prof (fun v => { v with who := [], sent := false }) s
          else modWaitings p (·.filter fun v => !(decide (v.key = key) && decide (v.prof = prof))) s
        let s := if found = 1 then
            install p { key := key, prof := prof, h := w.req.h, record := record, version := version, origDir := origDir
                        backendGen := backendGen, action := action, flags := flags, dPktsO := 0, dPktsR := 0, dBytesO := 0
                        dBytesR := 0, seen := 0, since := none, replySeen := false, spec := 0, used := 0 } s
          else s
        let code := if found = 4 then version else found
        let act (e : Nat × Nat) (t : State) : State :=
          if ((passOf t p e.1 e.2).any fun q => q.st ≠ .waiting) then t else
          let bad := decide (found = 4) && (decide (record = noRec) || decide (e.1 = record))
          let t := modPkt e.1 (fun x => { x with task := false }) t
          let t := modPass p e.1 e.2 (fun q => { q with
            st := .spec, auth := true, record := if found = 1 then some record else none, version := version, owner := sl
            snap := if bad then dropSnap q.snap (some (0x0182, p, 6)) else q.snap
            half := recHalf record, origDir := origDir, flags := if found = 1 then flags else 0, backendGen := backendGen
            action := if found = 1 then action else if code = 3 && !bad then 2 else 0 }) t
          mergePass p e.1 e.2 t
        confirmPasses p (each (w.who ++ if out then [] else w.late) act s)
  | _ => s

/-- A pass that looked up in the cc of an invalidation of its record has missed: it waits for its owner (R216). -/
def missNow (p : Nat) (q : Pass) (s : State) : State := joinWait p q.pkt q.no none false (withdraw q.pkt s)

/-- INVALIDATION: the record's entry goes, the passes that may have acted on a stale version are squashed as one chain,
and the acknowledgement is sent when asked for (R214, R215). -/
def invalidation (sl p : Nat) (s : State) : State :=
  match takeChan sl p s with
  | some (.inval r _ t ack, s) =>
    let s := removeReplica p r s
    let same := (pipe s p).passes.filter fun q => decide (q.st = .spec) && !q.auth && decide (q.record = some r) && decide (q.lookup = ctime s)
    let s := each same (missNow p) s
    let bad := (pipe s p).passes.find? fun q =>
      decide (q.st = .spec) && !q.auth && decide (q.record = some r) && !wrapGe 48 t (q.lookup + 4)
    let s := match bad with
      | some q => squashChain p q.pkt q.no 1 s
      | none => s
    let s := noteInval p r s
    let s := match ack with
      | some a => modSlice sl (fun x => { x with acks := x.acks ++ [(p, a.1, a.2)] }) s
      | none => s
    confirmPasses p s
  | _ => s

/-- HORIZON_STAMP_FORM: a slice whose confirm time is a multiple of 16 cc, 16 cc after its last stamp, sends its stamp
(R217). -/
def stampForm (sl : Nat) (s : State) : State :=
  if sliceOn s sl && decide (ctime s % 16 = 0) && decide ((slice s sl).stampAt + 16 * 625 ≤ s.now) then
    each (pipelines s.part) (fun p t => sendChan sl p (.stamp (ctime s)) t) (modSlice sl (fun x => { x with stampAt := s.now }) s)
  else s

/-- HORIZON_STAMP: the pipeline takes the slice's horizon and confirms what it covers (R217, R221). -/
def horizonStamp (sl p : Nat) (s : State) : State :=
  match takeChan sl p s with
  | some (.stamp v, s) =>
    confirmPasses p (modPipe p (fun x => { x with
      horizon := mset 0 x.horizon sl v, advanced := mset 0 x.advanced sl s.now
      stalled := setFld x.stalled sl sl 0 }) s)
  | _ => s

/-- FINAL_STAMP: the half's passes that looked up before the switch are covered (R219). -/
def finalStamp (sl p : Nat) (s : State) : State :=
  match takeChan sl p s with
  | some (.finalStamp hf, s) =>
    confirmPasses p (modPipe p (fun x => { x with
      passes := x.passes.map fun q =>
        if q.st = .spec ∧ q.record.isSome ∧ q.half = hf ∧ q.owner = sl then { q with covered := true } else q }) s)
  | _ => s

/-- FLOW_PULL: once every speculative pass of the record is resolved, the pipeline sends its deltas and answers (R196). -/
def flowPull (sl p : Nat) (s : State) : State :=
  match chan s sl p with
  | .pull r :: rest =>
    if (pipe s p).passes.any fun q => decide (q.record = some r) && (q.st = .spec || q.st = .squashed) then s
    else
      let s := sendDelta p r (modChan sl p (fun _ => rest) s)
      modSlice sl (fun x => { x with pullAns := x.pullAns ++ [(r, p)] }) s
  | _ => s

/-- DELTA_SEND: 10 µs after its first unsent delta, an entry's deltas go to the owner (R188). -/
def deltaSend (p r : Nat) (s : State) : State :=
  match (replicas s p).find? fun x => x.record = r with
  | some x => match x.since with
    | some t => if t + 10000000 ≤ s.now then sendDelta p r s else s
    | none => s
  | none => s

/-! ### Notices, timeouts and tables -/

/-- CONFIRM_NOTICE: the egress scheduler has the notice that a frame's flow part is confirmed (R218, R224, R240). -/
def confirmNotice (k : Nat) (s : State) : State :=
  match pktOf s k with
  | none => s
  | some x =>
    if !x.flowOk || x.noticed || x.copy then s
    else
      let lag := match x.lagFrom with
        | some t => (ctime s + 2 ^ 48 - t) % 2 ^ 48 * 625 / 1000
        | none => 0
      let s := if cntGet s 0x0582 x.pipe 14 < lag then cntSet s 0x0582 x.pipe 14 lag else s
      noteDepths k (modPkt k (fun y => { y with noticed := true, noticeAt := s.now }) s)

/-- SPEC_TIMEOUT: a speculative pass unconfirmed 3,200 cc after its lookup is squashed; a confirmation decided by then wins
(R225). -/
def specTimeout (p : Nat) (s : State) : State :=
  let s := confirmPasses p s
  match (pipe s p).passes.find? fun q => decide (q.st = .spec) && !q.auth && wrapGe 48 (ctime s) (q.lookup + 3200) with
  | some q => confirmPasses p (squashChain p q.pkt q.no 2 s)
  | none => s

/-- UNSTABLE_ENTRY_EXPIRY (R237). -/
def unstableExpiry (p r : Nat) (s : State) : State :=
  match unstableOf s p r with
  | some u =>
    if u.lastInv + cfg1 s (.fleSpecCfg p) 19 0 * 1000000 ≤ s.now then
      modPipe p (fun x => { x with unstable := x.unstable.filter fun y => y.record ≠ r }) s
    else s
  | none => s

/-- STALL_NS_EXPIRY: a slice that serves a half has sent no horizon for stall_ns (R221). -/
def stallExpiry (p sl : Nat) (s : State) : State :=
  let x := pipe s p
  let served := hasSlice s.part sl && ((slice s sl).servesOwn || (slice s sl).servesPartner)
  if hasPipe s.part p && served && !bit x.stalled sl
      && decide (mget 0 x.advanced sl + Nat.max 100 (cfg s (.fleHorizonCfg (dieOfPipe p)) 11 0) * 1000 ≤ s.now) then
    raise (fleSrc sl 5) evHorizonStall p 0 0 0 (modPipe p (fun y => { y with stalled := setFld y.stalled sl sl 1 }) s)
  else s

/-! ### Injected frames (R74, R369, R376) -/

/-- Begin the next descriptor of an inject ring: its check of buffer and port, then what the frame does. f answers false
while it must wait. -/
def inject (d : Inject) (op : Nat) (f : Nat × Nat → List Byte → State → Bool × State) (s : State) : State :=
  let g := 400 + d.ring
  let r := ring s g
  if d.ring < 256 ∧ r.begun < r.cons then
    let i := r.begun
    let next (t : State) : State := pruneFetched g (modRing g (fun r => { r with begun := r.begun + 1 }) t)
    let fail (st : Nat) (t : State) : State := putCompletion (pairOf t g) (cplDesc op st 0 d.cookie g i 0 ⟨0, 0, 0⟩ 0) t
    if !(allPorts s).contains d.port then fail 4 (next s)
    else if !domWorks s (domPipe (pipeOfLane d.port)) then fail 9 (next s)
    else
      let (st, s') := dmaCheck g d.buffer (64 * ceilDiv d.length 64) 64 false s
      if st ≠ 0 then fail st (next s')
      else
        match f (g, i) (rdBytes s'.host d.buffer d.length) s' with
        | (true, t) => next t
        | (false, t) => t
  else s

/-- INJECT_PIPE: the frame enters the intake of its port's pipeline, stamped as it enters, and completes. -/
def injectPipe (d : Inject) (s : State) : State :=
  inject d 0xB1 (fun a bs s =>
    let s := intakeFrame { portFrame s d.port bs (stampNow s) with check := some true } s
    (true, if d.nocomp then s else putCompletion (pairOf s a.1) (cplDesc 0xB1 0 0 d.cookie a.1 a.2 0 ⟨0, 0, 0⟩ 0) s)) s

/-- INJECT_PORT: the frame goes to the queue its descriptor names; it waits until its cells are permitted (R294). -/
def injectPort (d : Inject) (s : State) : State :=
  inject d 0xB0 (fun a bs s =>
    let p := pipeOfLane d.port
    let die := dieOfPipe p
    let q := d.queue % 16
    match askCells die ⟨12 + p % 4, 2 ^ 32 * a.1 + a.2 % 2 ^ 32, cellsFor bs.length, false⟩ s with
    | (false, s) => (false, s)
    | (true, s) =>
      let ep := (epochOf s p).cur
      let hs := (parse s p ep (cfg s (.prsLaneCfg d.port) 3 0) bs).hdrs
      let x : Pkt := { portFrame s d.port bs (stampNow s) with
        epoch := ep, tc := q, check := some true, flowOk := true, noticed := true, noticeAt := s.now, settled := true
        inj := some a, oneStep := d.oneStep, stampReq := d.stampReq, nocomp := d.nocomp, cookie := d.cookie
        snap := { hdrs := hs } }
      let (k, t) := newPkt x s
      match allocChain die (12 + p % 4) (ownerTag 1 (p % 4)) k 0 (payloads (bs.length + 4) (withFcs bs)) t with
      | none => (false, s)
      | some (ks, s) =>
        let s := modPkt k (fun y => { y with cells := ks }) s
        let s := if d.stampReq then s else injectDone x 0 ⟨0, 0, 0⟩ false s
        (true, queueFrame k p q [(d.port, none)] false 0 s)) s

/-! ### Rows -/

/-- The copies of a pipeline that wait are served where cells may have been freed (R294, log 106). -/
def serveAll (p : Nat) (s : State) : State := serveCopies p s.buf.copies.length s


/-- FRAME_RECEIVE. -/
def execFrameReceive (port : Nat) (bytes : List Byte) (s : State) : Out := .next (frameReceive port bytes s)
/-- PACKET_PASS. -/
def execPacketPass (pipe : Nat) (s : State) : Out := .next (serveAll pipe (packetPass pipe s))
/-- RECIRCULATION. -/
def execRecirculation (pipe : Nat) (s : State) : Out := .next (serveAll pipe (recirculation pipe s))
/-- REPLAY. -/
def execReplay (pipe : Nat) (s : State) : Out := .next (replay pipe s)
/-- FRAME_CHECK. -/
def execFrameCheck (packet : Nat) (fcsOk : Bool) (s : State) : Out :=
  .next (each (pipelines s.part) serveAll (frameCheck packet fcsOk s))
/-- ANSWER. -/
def execAnswer (slice pipe : Nat) (s : State) : Out := .next (answer slice pipe s)
/-- INVALIDATION. -/
def execInvalidation (slice pipe : Nat) (s : State) : Out := .next (invalidation slice pipe s)
/-- HORIZON_STAMP_FORM. -/
def execHorizonStampForm (slice : Nat) (s : State) : Out := .next (stampForm slice s)
/-- HORIZON_STAMP. -/
def execHorizonStamp (slice pipe : Nat) (s : State) : Out := .next (horizonStamp slice pipe s)
/-- FINAL_STAMP. -/
def execFinalStamp (slice pipe : Nat) (s : State) : Out := .next (finalStamp slice pipe s)
/-- FLOW_PULL. -/
def execFlowPull (slice pipe : Nat) (s : State) : Out := .next (flowPull slice pipe s)
/-- DELTA_SEND. -/
def execDeltaSend (pipe record : Nat) (s : State) : Out := .next (deltaSend pipe record s)
/-- CONFIRM_NOTICE. -/
def execConfirmNotice (packet : Nat) (s : State) : Out := .next (each (pipelines s.part) serveAll (confirmNotice packet s))
/-- SPEC_TIMEOUT. -/
def execSpecTimeout (pipe : Nat) (s : State) : Out := .next (specTimeout pipe s)
/-- UNSTABLE_ENTRY_EXPIRY. -/
def execUnstableEntryExpiry (pipe record : Nat) (s : State) : Out := .next (unstableExpiry pipe record s)
/-- STALL_NS_EXPIRY. -/
def execStallNsExpiry (pipe slice : Nat) (s : State) : Out := .next (stallExpiry pipe slice s)
/-- INJECT_PORT. -/
def execInjectPort (d : Inject) (s : State) : Out := .next (injectPort d s)
/-- INJECT_PIPE. -/
def execInjectPipe (d : Inject) (s : State) : Out := .next (injectPipe d s)

end Sys2Proof.Machine
end

