-- ==== Sys2Proof/Machine/Learn.lean ====
section
/-! DEFINITION. The learning rows: the owner's decisions, their broadcast, and the ageing sweep (R152). -/

namespace Sys2Proof.Machine

/-- LEARN_REQUEST: the owner decides the request at the head of its queue. -/
def learnRequest (sl : Nat) (s : State) : State :=
  match mget [] s.fwd.learnQ sl with
  | .req fid mac tgt :: rest =>
    if sliceOn s sl then learnDecide sl fid mac tgt (modFwd (fun f => { f with learnQ := mset [] f.learnQ sl rest }) s) else s
  | _ => s

/-- HIT_NOTICE: the owner takes the hit notice at the head of its queue. -/
def hitNotice (sl : Nat) (s : State) : State :=
  match mget [] s.fwd.learnQ sl with
  | .hit fid mac dest :: rest =>
    if sliceOn s sl then hitDecide sl fid mac dest (modFwd (fun f => { f with learnQ := mset [] f.learnQ sl rest }) s) else s
  | _ => s

/-- L2_BROADCAST: a die applies the decision at the head of its queue, when that is no delete. -/
def l2Broadcast (die : Nat) (s : State) : State :=
  match mget [] s.fwd.bcast die with
  | .delete _ _ _ :: _ => s
  | m :: rest => applyL2 die m (modFwd (fun f => { f with bcast := mset [] f.bcast die rest }) s)
  | [] => s

/-- L2_DELETE: a die takes the delete at the head of its queue. -/
def l2DeleteRow (die : Nat) (s : State) : State :=
  match mget [] s.fwd.bcast die with
  | .delete slot fid mac :: rest => deleteAt die slot fid mac (modFwd (fun f => { f with bcast := mset [] f.bcast die rest }) s)
  | _ => s

/-- Whether a sweep acts on a slot: an entry the slice owns, not pinned. -/
def ageable (s : State) (sl i : Nat) : Bool :=
  let e := l2Get s (dieOfSlice sl) i
  l2Used e && !l2Pinned e && decide (l2Owner s (l2Fid e) (l2Mac e) = sl)

/-- The next such slot from a place on, by the slots table memory lists; none when the sweep has no more. -/
def ageNext (s : State) (sl i : Nat) : Option Nat :=
  let lo := tAddr (dieOfSlice sl) (tOff 0x0201 0)
  let listed := (s.tmem.filterMap fun c => if lo ≤ c.1 ∧ c.1 < lo + 16 * 2 ^ 20 then some ((c.1 - lo) / 16) else none).eraseDups
  (listed.filter (ageable s sl)).find? fun j => i ≤ j

/-- The period of the sweep, in ps (R152, R171). -/
def agePeriod (s : State) (sl : Nat) : Nat := cfg1 s (.fwdAgeCfg (dieOfSlice sl)) 14 0 * 1000000000

/-- One visit of the sweep (R151, R152). -/
def ageVisit (sl i : Nat) (s : State) : State :=
  let die := dieOfSlice sl
  let e := l2Get s die i
  if l2Frozen e then (if unfreeze s die e = e then s else ownerPut sl i (unfreeze s die e) s)
  else
    let moved := decide (cfg1 s (.fwdLearnCfg die) 14 0 ≤ msSinceStamp s e) && decide (l2Moves e ≠ 0)
    let e := if moved then setFld e 95 92 0 else e
    if l2Hit e then
      let s := ownerPut sl i (setFld (setFld e 91 88 0) 87 87 0) s
      broadcast sl (.hitClear i (l2Fid e) (l2Mac e)) s
    else if cfg1 s (.fwdAgeCfg die) 19 16 ≤ l2Age e + 1 then
      broadcast sl (.delete i (l2Fid e) (l2Mac e)) (learnCnt sl 11 s)
    else ownerPut sl i (setFld e 91 88 (l2Age e + 1)) s

/-- L2_AGE_VISIT: a slice's sweep visits its next entry, after the messages about its key that have arrived (R152). A sweep
begins a period after the one before it, and passes the slots evenly over its period, so that a period lies between two
visits of an entry (log 108). -/
def l2AgeVisit (sl : Nat) (s : State) : State :=
  let die := dieOfSlice sl
  let began := mget 0 s.fwd.ageAt sl
  if !sliceOn s sl || !cfgBit s (.fwdAgeCfg die) 31 || !s.pwr.committed then s
  else
    match ageNext s sl (mget 0 s.fwd.agePos sl) with
    | none =>
      if began + agePeriod s sl ≤ s.now then
        modFwd (fun f => { f with agePos := mset 0 f.agePos sl 0, ageAt := mset 0 f.ageAt sl s.now }) s
      else s
    | some i =>
      if began + agePeriod s sl * i / 2 ^ 20 ≤ s.now then
        let e := l2Get s die i
        let s := ownerSettles sl (l2Fid e) (l2Mac e) (modFwd (fun f => { f with agePos := mset 0 f.agePos sl (i + 1) }) s)
        if ageable s sl i then ageVisit sl i s else s
      else s

/-! ### Rows -/

/-- LEARN_REQUEST. -/
def execLearnRequest (slice : Nat) (s : State) : Out := .next (learnRequest slice s)
/-- HIT_NOTICE. -/
def execHitNotice (slice : Nat) (s : State) : Out := .next (hitNotice slice s)
/-- L2_BROADCAST. -/
def execL2Broadcast (die : Nat) (s : State) : Out := .next (l2Broadcast die s)
/-- L2_DELETE. -/
def execL2Delete (die : Nat) (s : State) : Out := .next (l2DeleteRow die s)
/-- L2_AGE_VISIT. -/
def execL2AgeVisit (slice : Nat) (s : State) : Out := .next (l2AgeVisit slice s)

end Sys2Proof.Machine
end

