-- ==== Sys2Proof/Machine/EgressCmd.lean ====
section
/-! DEFINITION. Shapers and gate lists as commands set them (R333, R338–R340), ports that come up and go down (R329, R367,
R461), and the marble count (R295, R296). -/

namespace Sys2Proof.Machine

/-! ### Shapers -/

/-- SHAPER_SET: the entries take effect at the next shaper update (R338). -/
def runShaperSet (h : Hdr) (t : FormT) (a : Nat × Nat) (s : State) : CmdOut × State :=
  let units := targetUnits s h.kind h.unit 1
  let n := clampCount 4 t.count
  let first := firstIdx t
  if t.object ≠ 0x0902 ∨ units = [] ∨ 3200 < first + n then (.fail 4, s)
  else
    let (st, s) := if n = 1 then (0, s) else dataCheck a.1 t (16 * n) false s
    if st ≠ 0 then (.fail st, s)
    else
      let bs := if n = 1 then leBytes 24 t.inline else rdBytes s.host t.hostAddr (16 * n)
      let put (d i : Nat) (s : State) : State :=
        let key := 4096 * d + first + i
        let old := match mget none s.egs.newShaper key with
          | some (_, f) => f
          | none => false
        modEgs (fun e => { e with newShaper := mset none e.newShaper key (some (entryAt bs 16 i, old || bit t.opFlags 0)) }) s
      let s := each units (fun d t => each (upTo n) (put d) t) s
      (.go .shaper, modInflight a (fun e => { e with progress := n }) s)

/-- SHAPER_UPDATE: 64 ns after the last, every bucket's level rises, new entries apply, and the SHAPER_SET commands that
wait complete (R333, R338). -/
def shaperUpdate (s : State) : State :=
  if s.now < s.egs.shaperAt + 64000 then s
  else
    let s := modEgs (fun e => { e with shaperAt := s.now }) s
    let s := each (shaperNodes s) updateNode s
    each (s.hif.inflight.filter fun e => e.wait = .shaper) (fun e t => finish (e.ring, e.index) 0 e.progress 0 0 t) s

/-! ### Gate lists -/

/-- A gate list from its host data (R339): count entries. -/
def gateListOf (bs : List Byte) (n : Nat) : GateList :=
  let st : Stamp := ⟨ofLe (takeBytes bs 6 6), ofLe (takeBytes bs 2 4), ofLe (takeBytes bs 0 2)⟩
  { base := st, cycle := ofLe (takeBytes bs 12 4), ext := ofLe (takeBytes bs 16 4), open_ := bit (ofLe (takeBytes bs 20 1)) 0
    entries := (upTo n).map fun i => ⟨ofLe (takeBytes bs (32 + 8 * i) 4), ofLe (takeBytes bs (36 + 8 * i) 2)⟩
    start := 0, image := takeBytes bs 0 (32 + 8 * n) }

/-- Entries of a GATE_LOAD. -/
def gateCount (t : FormT) : Nat := clampCount 256 t.count

/-- The ports a GATE_LOAD names: one, or with unit 0xFFF every present port (R56, R348). -/
def gatePorts (h : Hdr) (s : State) : List Nat :=
  if h.kind ≠ 5 then []
  else if h.unit = 0xFFF then allPorts s
  else if (allPorts s).contains h.unit then [h.unit] else []

/-- GATE_LOAD begins (R339). -/
def runGateLoad (h : Hdr) (t : FormT) (a : Nat × Nat) (s : State) : CmdOut × State :=
  if gatePorts h s = [] ∨ t.object ≠ 0x0903 then (.fail 4, s)
  else
    let (st, s) := dataCheck a.1 t (ceilDiv (32 + 8 * gateCount t) 64 * 64) false s
    if st ≠ 0 then (.fail st, s) else (.go .nothing, s)

/-- A step of GATE_LOAD: one list entry. The last is the commit point, at which the list becomes the port's pending
list (R340). -/
def stepGateLoad (h : Hdr) (t : FormT) (e : InFlight) (s : State) : StepOut × State :=
  let n := gateCount t
  if e.progress + 1 < n then (.more (e.progress + 1) 0 0 [] 0, s)
  else
    let l := gateListOf (rdBytes s.host t.hostAddr (32 + 8 * n)) n
    let l := { l with start := gateStartTime l (timeFxUp s) }
    let s := each (gatePorts h s) (fun port t => modGates port (fun g => { g with pending := some l }) t) s
    let st := ofLe (stampBytes (fxStamp l.start))
    (.done 0 n (st % 2 ^ 64) (st / 2 ^ 64), s)

/-! ### Ports -/

/-- A port's link goes down: its frames are dropped, its compensation is cleared, and the event is raised (R329, R367,
R461). -/
def portDown (port : Nat) (s : State) : State :=
  if !portUp s port then s
  else
    let s := modEgs (fun e => { e with up := mset false e.up port false }) s
    let s := modTim (fun x => { x with comp := mset (false, 0, 0) x.comp port (false, 0, 0) }) s
    raise (phySrc port) evPhyLinkDown port 0 0 0 (dropPort port s)

/-- The lanes of a port gain lock: a SyncE output of one of them counts its 100 ms from here (R381). -/
def lanesLock (port : Nat) (s : State) : State :=
  let since (o : Nat) (x : SyncE) : SyncE :=
    if (decide (o < 2) && decide (port ≤ x.lane) && decide (x.lane < port + portLanes s port)) = true then { x with since := s.now } else x
  modTim (fun t => { t with synce := t.synce.map fun e => (e.1, since e.1 e.2) }) s

/-- LINK_TRAINING_DONE: the port comes up, unless its octet or its pipeline holds it down (R502, R506) or the
part carries no traffic. -/
def linkTrainingDone (port : Nat) (s : State) : State :=
  if (allPorts s).contains port && s.pwr.committed && domOn s (octOfLane port) && domWorks s (domPipe (pipeOfLane port))
      && !noTraffic s && !portUp s port then
    raise (phySrc port) evPhyLinkUp port 0 0 0 (lanesLock port (modEgs (fun e => { e with up := mset false e.up port true }) s))
  else s

/-- PORT_COMP_READY: a port that is up has its stamp compensation, as measured (R367, R385). -/
def portCompReady (port rx tx : Nat) (s : State) : State :=
  if portUp s port then modTim (fun x => { x with comp := mset (false, 0, 0) x.comp port (true, rx % 2 ^ 15, tx % 2 ^ 15) }) s else s

/-! ### The marble count (R295, R296) -/

/-- The cells that the frames the device holds list, on a die. -/
def heldCells (s : State) (d : Nat) : List Nat :=
  (s.pkts.flatMap fun e => e.2.cells ++ e.2.dcells).filter fun k => cellDie k = d

/-- AUDIT_START: under an adopted holder of the string, once audit_ms has passed since the last, the seen marks are cleared and
every agent walks its lists (R295, R322). -/
def auditStart (d : Nat) (s : State) : State :=
  let due := match mget none s.buf.auditAt d with
    | none => true
    | some t => decide (t + Nat.max 10 (cfg s (.bufAuditCfg d) 15 0) * 10 ^ 9 ≤ s.now)
  if hasDie s.part d && s.pwr.committed && holdAdopted s && !mget false s.buf.auditing d && due then
    let held := heldCells s d
    modBuf (fun b => { b with
      auditAt := mset none b.auditAt d (some s.now)
      auditing := mset false b.auditing d true
      cells := b.cells.map fun c => if cellDie c.1 = d then (c.1, { c.2 with seen := held.contains c.1 }) else c }) s
  else s

/-- A cell that is suspect a second time is leaked: counted, reported, and freed with reclaim set. -/
def leakCell (d k tag : Nat) (s : State) : State :=
  let s := raise (bufSrc d 0) evBufLeak (k % 2 ^ 19) tag 0 0 (cntInc 0x0881 d 2 s)
  if cfgBit s (.bufAuditCfg d) 31 then
    cntInc 0x0881 d 3 (modBuf (fun b => { b with cells := b.cells.filter fun e => e.1 ≠ k }) s)
  else s

/-- AUDIT_END: the count is checked and the unseen cells are suspect. -/
def auditEnd (d : Nat) (s : State) : State :=
  if !mget false s.buf.auditing d then s
  else
    let mine := s.buf.cells.filter fun c => cellDie c.1 = d
    let lost := mine.filter fun c => !c.2.seen
    let leaked := lost.filter fun c => c.2.suspect
    let s := modBuf (fun b => { b with
      auditing := mset false b.auditing d false
      leakedLast := mset 0 b.leakedLast d (Nat.min 8191 leaked.length)
      cells := b.cells.map fun c => if cellDie c.1 = d then (c.1, { c.2 with suspect := !c.2.seen }) else c }) s
    let s := cntInc 0x0881 d 4 s
    let s := if lost = [] then s else raise (bufSrc d 0) evBufAuditMismatch d (dieCells - mine.length) (mine.length - lost.length) 0 (cntInc 0x0881 d 5 s)
    each leaked (fun c t => leakCell d c.1 c.2.tag t) s

/-! ### Rows -/

/-- SHAPER_SET. -/
def execShaperSet (h : Hdr) (t : FormT) (s : State) : Out := .next (command (.shaperSet h t) (runShaperSet h t) s)
/-- SHAPER_UPDATE. -/
def execShaperUpdate (s : State) : Out := .next (shaperUpdate s)
/-- GATE_LOAD. -/
def execGateLoad (h : Hdr) (t : FormT) (s : State) : Out := .next (command (.gateLoad h t) (runGateLoad h t) s)
/-- LINK_TRAINING_DONE. -/
def execLinkTrainingDone (port : Nat) (s : State) : Out := .next (linkTrainingDone port s)
/-- LINK_LOSS. -/
def execLinkLoss (port : Nat) (s : State) : Out := .next (portDown port s)
/-- PORT_COMP_READY. -/
def execPortCompReady (port rxComp txComp : Nat) (s : State) : Out := .next (portCompReady port rxComp txComp s)
/-- AUDIT_START. -/
def execAuditStart (die : Nat) (s : State) : Out := .next (auditStart die s)
/-- AUDIT_END. -/
def execAuditEnd (die : Nat) (s : State) : Out := .next (auditEnd die s)

end Sys2Proof.Machine
end

