-- ==== Sys2Proof/Machine/RegGate.lean ====
section
/-! DEFINITION. Which accesses reach a register: the paths (R89, R528, R539), reset (R509, R528), and absent units (R3, R538). -/

namespace Sys2Proof.Machine

/-- The device answers accesses: MGMT has left reset. -/
def answering (s : State) : Bool := decide (s.pwr.phase ≠ .reset) && decide (s.pwr.phase ≠ .tripped)

/-- A path carries accesses to the registers: link B only in the two-link configuration. -/
def pathOpen (s : State) (path : Path) : Bool := answering s && (decide (path ≠ .linkB) || s.hif.bifurcated)

/-- A register exists and its unit is present. -/
def regExists (s : State) (r : Reg) : Bool := decide (regAt (regAddr r) = some r) && regPresent s.part r

/-- The registers that writes through the service port reach (R528). -/
def smbusMayWrite : Reg → Bool
  | .lcsTokenBuf _ | .lcsKeyBuf _ | .lcsTokenCtrl | .logCursor _ | .logCtrl | .logStatSel => true
  | _ => false

/-- The registers that reads through the service port reach (R528). -/
def smbusMayRead (r : Reg) : Bool :=
  decide (regAddr r < 0x40000) || decide (r = .pwrStatus) || decide (r = .timStatus) || decide (r = .chkGuardStatus) ||
    (decide (0x140000 ≤ regAddr r) && decide (regAddr r < 0x180000))

/-- A write of a register on a path: f where it reaches the register; through link B it is ignored and counted otherwise
(R89), and else ignored. -/
def regWriteGate (path : Path) (r : Reg) (f : State → State) (s : State) : State :=
  if pathOpen s path && regExists s r then
    match path with
    | .linkA => f s
    | .linkB => if linkBMayWrite s r then f s else countIgnored .linkB s
    | .smbus => if smbusMayWrite r then f s else s
  else s

/-- A read of a register on a path: f where it reaches the register, else zero. -/
def regReadGate (path : Path) (r : Reg) (f : State → State) (s : State) : State :=
  if !pathOpen s path then s
  else if regExists s r && (decide (path ≠ .smbus) || smbusMayRead r) then f s
  else { s with readData := 0 }

end Sys2Proof.Machine
end

