-- ==== Sys2Proof/Machine/RingSet.lean ====
section
/-! DEFINITION. RING_SET (R59) and POOL_SET (R60). -/

namespace Sys2Proof.Machine

/-- A ring number the device has (R45). -/
def ringOk (g : Nat) : Bool := decide (g < 752)

/-- The pages a ring needs passed their checks: its driver page and the status page (R94). -/
def pagesOk (s : State) (g : Nat) : Bool :=
  let l := linkSt s (ringLink s g)
  l.statOk && (if driverWritten g then l.dbOk else l.consOk)

/-- The operating configuration of a ring in HIF_RING_CFG's layout (R59, R92). -/
def ringCfgWord (r : Ring) : Nat :=
  pack [(7, 0), (1, b2n r.lossless), (6, r.pair), (2, 0), (4, r.size), (8, r.vector), (3, 0), (1, b2n r.enabled)]

/-- A ring is quiet (R59): no command or inject fetched from it is still running, but for the command that asks, and no
event descriptor of it waits for the producer index that covers it (R70). -/
def quiet (s : State) (g : Nat) (a : Nat × Nat) : Bool :=
  let r := ring s g
  match ringKind g with
  | .cmd => decide (r.begun = r.cons)
      && !(s.hif.inflight.any fun e => decide (e.ring = g) && !(decide (e.ring = a.1) && decide (e.index = a.2)))
  | .inj => decide (r.begun = r.cons) && !(s.pkts.any fun k => match k.2.inj with
      | some (h, _) => decide (h = g)
      | none => false)
  | .evt => decide (r.newest = none)
  | _ => true

/-- The punts that wait in a pool for a ring are dropped and counted at a place of HIF_CNT, and the buffers they had drawn
return to the pool's cache (R59, R76, R80). -/
def dropRingPunts (g : Nat) (l : Link) (i : Nat) (s : State) : State :=
  let drop (u : Punt) : Bool := decide (144 + u.ring = g)
  each (upTo 64) (fun p t => each ((pool t p).wait.filter drop) (fun u t =>
    puntAbandon p u (hifCnt l i t)) (modPool p (fun q => { q with wait := q.wait.filter fun u => !drop u }) t)) s

/-- RING_SET QUERY. -/
def runRingQuery (g : Nat) (_ : Nat × Nat) (s : State) : CmdOut × State :=
  if !ringOk g then (.fail 4, s) else (.done 0 0 (ring s g).base (ringCfgWord (ring s g)), s)

/-- Let a newly enabled ring's waiting work go on (R47, R50, R71, R75). -/
def ringStarts (g : Nat) (s : State) : State :=
  let s := pollRestart g s
  if driverWritten g then (if ringKind g = .pool then refillCheck (g - 688) s else s) else roomIn g s

/-- RING_SET ENABLE: the base is checked, and the ring starts (R44, R50, R59). -/
def runRingEnable (g : Nat) (_ : Nat × Nat) (s : State) : CmdOut × State :=
  if !ringOk g then (.fail 4, s)
  else
    let r := ring s g
    let l := linkSt s (ringLink s g)
    if !l.committed || l.stopped then (.fail 11, s)
    else if !pagesOk s g then (.fail 2, s)
    else
      let (st, s) := dmaCheck g r.base (64 * ringSize r) 4096 (!driverWritten g) s
      if st ≠ 0 then (.fail st, s)
      else (.ok, ringStarts g (modRing g (fun r => { r with enabled := true }) s))

/-- RING_SET DISABLE: fetching and writing stop; it completes once the ring is quiet (R59). -/
def runRingDisable (g : Nat) (a : Nat × Nat) (s : State) : CmdOut × State :=
  if !ringOk g then (.fail 4, s)
  else
    let s := modRing g (fun r => { r with enabled := false }) s
    let s := if ringKind g = .pnt then retryPunts (dropRingPunts g (ringLink s g) 0 s) else s
    (if quiet s g a then .ok else .wait .order, s)

/-- RING_SET MOVE: the base and size of a disabled ring, with both indices and its status slot at 0 (R59). -/
def runRingMove (g sz base : Nat) (_ : Nat × Nat) (s : State) : CmdOut × State :=
  if !ringOk g then (.fail 4, s)
  else if (ring s g).enabled then (.fail 11, s)
  else
    let s := modRing g (fun r => { r with
      base := base % 2 ^ 64, size := Nat.min 10 sz, prod := 0, cons := 0, begun := 0, newest := none, unsig := 0 }) s
    (.ok, statusWrite g 0 s)

/-- POOL_SET QUERY: the number of cached addresses. -/
def runPoolQuery (p : Nat) (_ : Nat × Nat) (s : State) : CmdOut × State :=
  if 64 ≤ p then (.fail 4, s) else (.done 0 0 (pool s p).cache.length 0, s)

/-- POOL_SET FLUSH: every cached address is written to host memory and the cache emptied (R60). -/
def runPoolFlush (p hostAddr : Nat) (a : Nat × Nat) (s : State) : CmdOut × State :=
  if 64 ≤ p then (.fail 4, s)
  else
    let (st, s) := dmaCheck a.1 hostAddr 2048 64 true s
    if st ≠ 0 then (.fail st, s)
    else
      let c := (pool s p).cache
      let s := hostWr hostAddr (c.flatMap (leBytes 8)) s
      let s := modPool p (fun q => { q with cache := [] }) s
      (.done 0 0 c.length 0, refillCheck p s)

/-- RING_SET_QUERY. -/
def execRingSetQuery (h : Hdr) (ring : Nat) (s : State) : Out :=
  .next (command (.ringSetQuery h ring) (runRingQuery ring) s)
/-- RING_SET_ENABLE. -/
def execRingSetEnable (h : Hdr) (ring : Nat) (s : State) : Out :=
  .next (command (.ringSetEnable h ring) (runRingEnable ring) s)
/-- RING_SET_DISABLE. -/
def execRingSetDisable (h : Hdr) (ring : Nat) (s : State) : Out :=
  .next (command (.ringSetDisable h ring) (runRingDisable ring) s)
/-- RING_SET_MOVE. -/
def execRingSetMove (h : Hdr) (ring sizeCode base : Nat) (s : State) : Out :=
  .next (command (.ringSetMove h ring sizeCode base) (runRingMove ring sizeCode base) s)
/-- POOL_SET_QUERY. -/
def execPoolSetQuery (h : Hdr) (pool : Nat) (s : State) : Out :=
  .next (command (.poolSetQuery h pool) (runPoolQuery pool) s)
/-- POOL_SET_FLUSH. -/
def execPoolSetFlush (h : Hdr) (pool hostAddr : Nat) (s : State) : Out :=
  .next (command (.poolSetFlush h pool hostAddr) (runPoolFlush pool hostAddr) s)

end Sys2Proof.Machine
end

