-- ==== Sys2Proof/Machine/LifeCycle.lean ====
section
/-! DEFINITION. Life cycle and identity (R477–R496): fuses, owner keys, tokens, debug paths, custodian image signatures and
zeroisation. -/

namespace Sys2Proof.Machine

/-! ### Fuses (R479, R484) -/

/-- A fuse word as it reads: the bitwise majority of its three copies (R479). -/
def fuseRead (f : Fuse) : Nat := (f.a &&& f.b) ||| (f.a &&& f.c) ||| (f.b &&& f.c)

/-- Program a fuse word: a programmed bit stays. -/
def fuseProg (v : Nat) (f : Fuse) : Fuse := ⟨f.a ||| v, f.b ||| v, f.c ||| v⟩

/-- A key slot of one copy. -/
def slotOf (f : Fuses) (k : Nat) : KeySlot := mget {} f.slots k

/-- The slot-valid word of a slot is complete in a copy. -/
def slotComplete (f : Fuses) (k : Nat) : Bool := decide (fuseRead (slotOf f k).valid = 1)

/-- A slot is read from the copy whose slot passes; one that passes in neither is invalid (R479). -/
def slotValid (l : Lcs) (k : Nat) : Bool := slotComplete l.q0 k || slotComplete l.q2 k

/-- At least one fuse of a slot is programmed (R484). -/
def slotUsed (l : Lcs) (k : Nat) : Bool := (slotOf l.q0 k).used || (slotOf l.q2 k).used

/-- The hash a slot reads as. -/
def slotHash (l : Lcs) (k : Nat) : Nat := fuseRead (slotOf (if slotComplete l.q0 k then l.q0 else l.q2) k).hash

/-- The active slot: the highest whose slot-valid word is complete (R484). -/
def activeSlot (l : Lcs) : Option Nat := [3, 2, 1, 0].find? (slotValid l ·)

/-- The hash of the active owner key. -/
def activeHash (l : Lcs) : Option Nat := (activeSlot l).map (slotHash l)

/-- The fuse state of a copy (R477). -/
def fuseState (f : Fuses) : Nat := fuseRead f.state

/-- The copy that holds the later fuse state (R479). -/
def laterCopy (l : Lcs) : Fuses := if fuseState l.q0 < fuseState l.q2 then l.q2 else l.q0

/-- zeroise_done. -/
def zeroiseDone (l : Lcs) : Bool := decide (fuseRead (laterCopy l).done = 1)
/-- zeroise_pending. -/
def zeroisePending (l : Lcs) : Bool := decide (fuseRead (laterCopy l).pending = 1)

/-- The state whose debug, signing and zeroisation rules apply: SEALED's where the copies differ and the state is TESTED,
SEALED, or RETURNED with zeroisation complete (R479). -/
def ruleState (l : Lcs) : Nat :=
  if l.mismatch && (l.state = 1 || l.state = 2 || (l.state = 4 && zeroiseDone l)) then 2 else l.state

/-- Change the fuses of both copies. -/
def modFuses (f : Fuses → Fuses) (s : State) : State := modLcs (fun l => { l with q0 := f l.q0, q2 := f l.q2 }) s

/-- Program the state word. -/
def progState (v : Nat) (s : State) : State := modFuses (fun f => { f with state := ⟨v, v, v⟩ }) s

/-- Program a slot's hash, and its slot-valid word unless programming fails before it (R483). -/
def progSlot (k hash : Nat) (complete : Bool) (s : State) : State :=
  modFuses (fun f =>
    let x := slotOf f k
    let y : KeySlot := ⟨fuseProg hash x.hash, if complete then fuseProg 1 x.valid else x.valid, true⟩
    { f with slots := mset {} f.slots k y }) s

/-- The lowest unused slot from k up (R484). -/
def unusedFrom (l : Lcs) (k : Nat) : Option Nat := [0, 1, 2, 3].find? fun j => decide (k ≤ j) && !slotUsed l j

/-! ### Image signatures (R489) -/

/-- The key hash that a signer number of a trailer names: 0 the vendor, 1–4 owner slot 0–3. -/
def signerHash (l : Lcs) (signer : Nat) : Option Nat :=
  if signer = 0 then (if [0, 1, 4].contains (ruleState l) then some Config.vendorKeyHash else none)
  else if [2, 3].contains (ruleState l) ∧ activeSlot l = some (signer - 1) then activeHash l else none

/-- Trailer of an image. -/
def trailer (img : List Byte) : List Byte := img.drop (img.length - 256)

/-- What an image's signature covers: the body followed by trailer bytes 7–0. -/
def signedPart (img : List Byte) : List Byte := img.take (img.length - 256) ++ (trailer img).take 8

/-- The signature entries of an image: signer and r ‖ s. -/
def sigEntries (img : List Byte) : List (Nat × List Byte) :=
  (upTo (Nat.min 2 (ofLe (takeBytes (trailer img) 0 1)))).map fun e =>
    (ofLe (takeBytes (trailer img) (8 + 112 * e) 1), takeBytes (trailer img) (8 + 112 * e + 16) 96)

/-- An image verifies under a key: one of its entries does. -/
def imageUnder (hash : Nat) (img : List Byte) : Bool :=
  decide (256 ≤ img.length) && (sigEntries img).any fun e => Config.ecdsaByHash hash (signedPart img) e.2

/-- The check of an image's signature: 0 accepted, 4 no entry for an accepted signer, 1 an entry that fails (R489). -/
def imageCheck (l : Lcs) (img : List Byte) : Nat :=
  let es := (sigEntries img).filterMap fun e => (signerHash l e.1).map fun h => (h, e.2)
  if img.length < 256 ∨ es = [] then 4
  else if es.any fun e => Config.ecdsaByHash e.1 (signedPart img) e.2 then 0 else 1

/-- The version in an image's trailer. -/
def imageVersion (img : List Byte) : Nat := ofLe (takeBytes (trailer img) 4 4)

/-! ### Debug paths (R487) -/

/-- The debug modules and the memory window that are open, as the mask's bits. -/
def openNow (l : Lcs) : Nat :=
  if ruleState l ≤ 1 then 7 else if ruleState l = 2 then 0 else l.open_ % 8

/-- Internal scan is open. -/
def scanOpen (l : Lcs) : Bool := decide (ruleState l ≤ 1) || (decide (ruleState l = 4) && zeroiseDone l)

/-- EXTEST is open. -/
def extestOpen (s : State) : Bool := [0, 1, 4].contains (ruleState s.lcs) || s.pwr.inReset

/-- A JTAG instruction's path is open. -/
def jtagOpen (s : State) : JtagOp → Bool
  | .bypass | .idcode | .samplePreload => true
  | .extest => extestOpen s
  | .internalScan => scanOpen s.lcs
  | .coreDebug => bit (openNow s.lcs) 0
  | .custodianDebug => bit (openNow s.lcs) 1

/-- JTAG_INSTRUCTION: the instruction takes effect while its path is open; else the register acts as BYPASS. -/
def jtagInstruction (op : JtagOp) (s : State) : State := modLcs (fun l => { l with jtag := if jtagOpen s op then op else .bypass }) s

/-! ### Tokens (R480–R486) -/

/-- The token buffer as bytes. -/
def tokenBuf (s : State) : List Byte := (upTo 64).flatMap fun i => leBytes 4 (stored s (.lcsTokenBuf i)).toNat
/-- The key buffer as bytes. -/
def keyBuf (s : State) : List Byte := (upTo 24).flatMap fun i => leBytes 4 (stored s (.lcsKeyBuf i)).toNat

/-- The buffers are cleared after every go (R496). -/
def clearBufs (s : State) : State :=
  each (upTo 24) (fun i => putReg (.lcsKeyBuf i) 0) (each (upTo 64) (fun i => putReg (.lcsTokenBuf i) 0) s)

/-- A write of 1 to go: the buffered token is handled; one that arrives while busy is 1 is ignored and counted (R480). -/
def tokenGo (path : Path) (s : State) : State :=
  if s.lcs.busy then countIgnored path (modLcs (fun l => { l with goIgnored := l.goIgnored + 1 }) s)
  else clearBufs (modLcs (fun l => { l with busy := true, token := tokenBuf s, key := keyBuf s }) s)

/-- A row for one token command: it is the go of a token that carries its code, through the path named (log 9). -/
def tokenRow (code : Nat) (path : Path) (s : State) : State :=
  regWriteGate path .lcsTokenCtrl (fun s => if ofLe (takeBytes (tokenBuf s) 0 1) = code then tokenGo path s else s) s

/-- Whether the payload bytes that a command does not list are zero. -/
def payloadOk (t : List Byte) : Bool :=
  let c := ofLe (takeBytes t 0 1)
  if c = 2 ∨ c = 5 then true
  else if c = 3 ∨ c = 7 then decide (ofLe (takeBytes t 33 95) = 0)
  else if c = 1 ∨ c = 4 ∨ c = 6 then decide (ofLe (takeBytes t 32 96) = 0)
  else true

/-- The format is 1 and the reserved bytes are zero (R481). -/
def formatOk (t : List Byte) : Bool :=
  decide (ofLe (takeBytes t 1 1) = 1) && decide (ofLe (takeBytes t 2 6) = 0) && decide (ofLe (takeBytes t 224 32) = 0)
    && payloadOk t

/-- The package serial. -/
def packageSerial (l : Lcs) : Nat := mget 0 l.identity 0x40 + mget 0 l.identity 0x44 * 2 ^ 32

/-- A command is accepted in the state (R482); a mismatch of the copies refuses every token but RETURN (R479). -/
def stateAccepts (l : Lcs) (c : Nat) : Bool :=
  (!l.mismatch || decide (c = 6)) &&
  match c with
  | 1 => decide (l.state = 0)
  | 2 => decide (l.state = 1)
  | 3 => decide (l.state = 2)
  | 4 => [1, 2, 3].contains l.state
  | 5 => [2, 3].contains l.state
  | 6 => [1, 2, 3].contains l.state
  | 7 => decide (l.state = 4) && zeroiseDone l
  | _ => false

/-- The hash of the key that must have signed a token, none when the key presented is not the one accepted (R482). -/
def tokenSigner (l : Lcs) (c : Nat) : Option Nat :=
  if c = 1 ∨ c = 7 ∨ (l.state = 1 ∧ (c = 4 ∨ c = 6)) then some Config.vendorKeyHash
  else if c = 2 then some (Config.sha384 (takeBytes l.token 32 96))
  else if activeHash l = some (Config.sha384 l.key) then activeHash l
  else none

/-- The signature of a token verifies. -/
def signatureOk (l : Lcs) (c : Nat) : Bool :=
  match tokenSigner l c with
  | some h => Config.ecdsaByHash h (takeBytes l.token 0 128) (takeBytes l.token 128 96)
  | none => false

/-- The slot a SEAL or KEY_ROTATE writes. -/
def newSlot (l : Lcs) (c : Nat) : Option Nat :=
  if c = 2 then unusedFrom l 0 else unusedFrom l ((activeSlot l).map (· + 1) |>.getD 0)

/-- The result of the checks of a token, 1 where its fuses are to be programmed (R483). -/
def tokenChecks (s : State) : Nat :=
  let l := s.lcs
  let t := l.token
  let c := ofLe (takeBytes t 0 1)
  if !formatOk t then 2
  else if ofLe (takeBytes t 8 8) ≠ packageSerial l then 3
  else if ofLe (takeBytes t 16 16) ≠ l.nonce then 4
  else if !stateAccepts l c then 5
  else if !signatureOk l c then 6
  else if (c = 2 ∨ c = 5) ∧ newSlot l c = none then 7
  else if c = 5 ∧ !imageUnder (Config.sha384 (takeBytes t 32 96)) (mget [] s.flash.images s.flash.image) then 8
  else 1

/-- A new nonce, never 0 (R485). -/
def renewNonce (s : State) : State :=
  let (n, s) := useFree s
  let x := Config.freeValue n % 2 ^ 128
  modLcs (fun l => { l with nonce := if x = 0 then 1 else x }) s

/-- Enter a life-cycle state. -/
def enterState (v : Nat) (s : State) : State := raise 0x000 evLcsStateChange 0 0 0 0 (modLcs (fun l => { l with state := v }) s)

/-- Open debug paths (R487, R488). -/
def openDebug (mask : Nat) (s : State) : State :=
  let s := modLcs (fun l => { l with open_ := l.open_ ||| mask % 8 }) s
  if mask % 8 = 0 then s else raise 0x001 evLcsDebugOpen (mask % 8) 0 0 0 s

/-! ### Zeroisation (R490) -/

/-- Every command in flight completes with REFUSED. -/
def refuseAll (s : State) : State := each (s.hif.inflight.map fun e => (e.ring, e.index)) (fun a => finish a 10 0 0 0) s

/-- Every port of the part is held down. -/
def portsDown (s : State) : State := each ((s.egs.up.filter (·.2)).map (·.1)) portDown s

/-- Every ring is disabled. -/
def ringsOff (s : State) : State :=
  modHif (fun h => { h with rings := (upTo 752).foldl (fun m g =>
    if (mget {} m g).enabled then mset {} m g { mget {} m g with enabled := false } else m) h.rings }) s

/-- Zeroisation begins: ports down, rings disabled, commands refused. -/
def beginZeroise (s : State) : State :=
  let s := raise 0x000 evLcsZeroiseStart 0 0 0 0 (modLcs (fun l => { l with zeroising := true }) s)
  ringsOff (portsDown (refuseAll s))

/-- Zero every on-die SRAM, every rank and the custodian image slots. -/
def zeroFill (s : State) : State :=
  let s := modHbm (fun h => { h with poison := [], mirrorBad := [], mig := none, want := none }) (modFlash (fun f => { f with images := [], mig := none }) s)
  let s := modCus (fun c => { c with ckpts := [], body := [], image := [], usesPreload := false }) s
  let s := modFab (fun f => { f with voq := [], admitted := [], withdrawn := [], reseq := [], seq := [] }) s
  { s with
    tmem := [], mem := [], pkts := [], pipes := [], cls := {}, fwd := {}, flow := {}, tsk := {}, buf := {}
    egs := { formation := s.egs.formation, wire := s.egs.wire } }

/-- Program every bit of every owner key slot, zeroise_done, and clear zeroise_pending. -/
def spoilSlots (s : State) : State :=
  let all := 2 ^ 384 - 1
  modFuses (fun f => { f with
    slots := (upTo 4).foldl (fun m k => mset {} m k ⟨⟨all, all, all⟩, ⟨3, 3, 3⟩, true⟩) f.slots
    done := ⟨1, 1, 1⟩, pending := {} }) s

/-- ZEROISATION_END: at a start, it follows HBM training (R509). -/
def zeroisationEnd (s : State) : State :=
  if s.lcs.zeroising && decide (s.pwr.phase ≠ .started) then
    raise 0x000 evLcsZeroiseDone 0 0 0 0 (modLcs (fun l => { l with zeroising := false }) (spoilSlots (zeroFill s)))
  else s

/-! ### The result of a token -/

/-- What an accepted token does. -/
def tokenEffect (c : Nat) (t : List Byte) (s : State) : State :=
  let mask := ofLe (takeBytes t 32 1)
  let hash := Config.sha384 (takeBytes t 32 96)
  match c with
  | 1 => enterState 1 (progState 1 s)
  | 2 => match newSlot s.lcs 2 with
    | some k => enterState 2 (progState 2 (progSlot k hash true s))
    | none => s
  | 3 => openDebug mask (enterState 3 s)
  | 4 => modLcs (fun l => { l with logClear := true }) s
  | 5 => match newSlot s.lcs 5 with
    | some k => raise 0x000 evLcsKeyRotated 0 0 0 0 (progSlot k hash true s)
    | none => s
  | 6 => beginZeroise (enterState 4 (progState 4 (modFuses (fun f => { f with pending := ⟨1, 1, 1⟩ }) s)))
  | 7 => openDebug mask s
  | _ => s

/-- What a failed programming leaves: a spoiled slot, or zeroise_pending without its state word (R483, R490). -/
def tokenSpoils (c : Nat) (t : List Byte) (s : State) : State :=
  match c with
  | 2 | 5 => match newSlot s.lcs c with
    | some k => progSlot k (Config.sha384 (takeBytes t 32 96)) false s
    | none => s
  | 6 => modFuses (fun f => { f with pending := ⟨1, 1, 1⟩ }) s
  | _ => s

/-- A token programs fuses. -/
def programs (c : Nat) : Bool := [1, 2, 5, 6].contains c

/-- TOKEN_RESULT: verification or programming ends (R483). -/
def tokenResult (fusesOk : Bool) (s : State) : State :=
  if s.lcs.busy then
    let t := s.lcs.token
    let c := ofLe (takeBytes t 0 1)
    let chk := tokenChecks s
    let res := if chk = 1 ∧ programs c ∧ !fusesOk then 9 else chk
    let s := renewNonce (modLcs (fun l => { l with busy := false, result := res, token := [], key := [] }) s)
    let s := raise 0x000 (if res = 1 then evLcsTokenAccepted else evLcsTokenRefused) c res 0 0 s
    if res = 1 then tokenEffect c t s else if res = 9 then tokenSpoils c t s else s
  else s

/-- TEST_DONE. -/
def execTestDone (path : Path) (s : State) : Out := .next (tokenRow 1 path s)
/-- SEAL. -/
def execSeal (path : Path) (s : State) : Out := .next (tokenRow 2 path s)
/-- SERVICE. -/
def execService (path : Path) (s : State) : Out := .next (tokenRow 3 path s)
/-- LOG_CLEAR. -/
def execLogClear (path : Path) (s : State) : Out := .next (tokenRow 4 path s)
/-- KEY_ROTATE. -/
def execKeyRotate (path : Path) (s : State) : Out := .next (tokenRow 5 path s)
/-- RETURN. -/
def execReturn (path : Path) (s : State) : Out := .next (tokenRow 6 path s)
/-- VENDOR_DEBUG. -/
def execVendorDebug (path : Path) (s : State) : Out := .next (tokenRow 7 path s)
/-- TOKEN_RESULT. -/
def execTokenResult (fusesOk : Bool) (s : State) : Out := .next (tokenResult fusesOk s)
/-- ZEROISATION_END. -/
def execZeroisationEnd (s : State) : Out := .next (zeroisationEnd s)
/-- JTAG_INSTRUCTION. -/
def execJtagInstruction (op : JtagOp) (s : State) : Out := .next (jtagInstruction op s)

end Sys2Proof.Machine
end

