-- ==== Sys2Proof/Machine/FlowCmd.lean ====
section
/-! DEFINITION. The flow-record commands FLOW_WRITE, FLOW_DELETE, FLOW_READ and G3_FLOW_DELETE (R95, R191, R207). -/

namespace Sys2Proof.Machine

/-- What a flow-record command names. -/
inductive FlowName where
  /-- a committed record -/
  | found (r : Nat)
  /-- no record -/
  | absent
  /-- it must wait -/
  | waits (w : WaitFor)
deriving DecidableEq, Repr

/-- A record index as a command's name: it waits for a NEW record or a half in transfer (R207). -/
def nameIdx (s : State) (r : Nat) : FlowName :=
  if 2 ^ 26 ≤ r then .absent
  else if halfLeaving s (recHalf r) then .waits .transfer
  else if recNew s r then .waits .newRecord
  else if recLive s r && decide (recKeyLen s r ≠ 0) then .found r
  else .absent

/-- A key as a command's name. -/
def nameKey (s : State) (key : List Byte) (prof : Nat) : FlowName :=
  let (h, g) := keyHashes s (nth 0 (dies s.part) 0) key prof
  let hf := homeHalf s h
  if halfLeaving s hf then .waits .transfer
  else match idxFind s h g key prof with
    | some r => .found r
    | none =>
      match hotKey s (halfOwner s hf) key prof with
      | some l => if l.life = lifeNew then .waits .newRecord else .found l.record
      | none => .absent

/-- The record a Form T flow command names: by the key of its host image, or by index (R207). -/
def flowName (s : State) (t : FormT) (img : Nat) : FlowName :=
  if bit t.first 63 then nameKey s (leBytes 40 img) (fld img 323 320) else nameIdx s (t.first % 2 ^ 63)

/-- The command goes on once HBM has accepted the change and every pipeline has acknowledged it (R214). -/
def goAccept (a : Nat × Nat) (r0 r1 : Nat) (s : State) : CmdOut × State :=
  (.go .accept, modInflight a (fun e => { e with progress := 1, res0 := r0, res1 := r1 }) s)

/-- FLOW_WRITE of a key that no record holds (R191, R207). The image's ct_state and original direction are not among
what it inserts: both are free values (log 21). -/
def flowInsert (a : Nat × Nat) (img : Nat) (s : State) : CmdOut × State :=
  let key := leBytes 40 img
  let prof := fld img 323 320
  let (h, g) := keyHashes s (nth 0 (dies s.part) 0) key prof
  let hf := homeHalf s h
  let sl := halfOwner s hf
  let flags := Nat.lor (fld img 415 384) 16
  match takeRecord sl hf h g (!bit flags 3) s with
  | (.none, s) => (.fail 5, s)
  | (.wait, s) => (.wait .pull, s)
  | (.got r _, s) =>
    let (n, s) := useFree s
    let v := Config.freeValue n
    let rec1 : NewRec :=
      { key := key, prof := prof, keyLen := fld img 335 328, kind := fld img 325 324, dir := bit (v / 11) 0
        ctProf := fld img 343 340, flags := flags, peer := fld img 447 416, action := fld img 767 512, bgen := 0, bgrp := 0
        binding := noRec, fw := fld img 1535 1152, tcp := none }
    let s := writeRecord r rec1 s
    let s := if bit flags 2 then setRec r 43 1 (v % 11) s else s
    let ver := (recVer s r + 1) % 2 ^ 32
    goAccept a r ver (bump r (some a) [] none s)

/-- FLOW_WRITE on an existing record (R207). -/
def flowUpdate (a : Nat × Nat) (t : FormT) (r img : Nat) (s : State) : CmdOut × State :=
  let s := setRec r 64 32 (fld img 767 512) s
  let s := setRec r 144 48 (fld img 1535 1152) (setRec r 48 4 (fld img 415 384) s)
  let s := if bit t.opFlags 2 then
      modHot (recOwner s r) r (fun l => { l with dPktsO := 0, dPktsR := 0, dBytesO := 0, dBytesR := 0 }) (setRec r 96 32 0 s)
    else s
  let ver := (recVer s r + 1) % 2 ^ 32
  goAccept a r ver (bump r (some a) [] none s)

/-- FLOW_WRITE. -/
def runFlowWrite (t : FormT) (a : Nat × Nat) (s : State) : CmdOut × State :=
  if t.object ≠ 0x0501 then (.fail 4, s)
  else
    let (st, s) := if t.hostAddr = 0 then (0, s) else dataCheck a.1 t 256 false s
    if st ≠ 0 then (.fail st, s)
    else
      let img := ofLe (formTBytes s t 256)
      match flowName s t img with
      | .waits w => (.wait w, s)
      | .found r => flowUpdate a t r img s
      | .absent => if bit t.first 63 then flowInsert a img s else (.fail 4, s)

/-- FLOW_DELETE of a record: it moves to CLOSED with reason DRIVER, and with free it is freed in the same step, or with the end
record it waits for (R191, R205, R207). -/
def flowDelete (a : Nat × Nat) (free : Bool) (r : Nat) (s : State) : CmdOut × State :=
  let sl := recOwner s r
  if recOpen s r then
    let s := modInflight a (fun e => { e with progress := 1 }) s
    (.go .accept, endRecord sl r lifeClosed xpDriver { free := free, cmd := some a } s)
  else if !free then (.done 0 1 0 0, s)
  else if endWaits s sl r then
    (.done 0 1 0 0, modSlice sl (fun x => { x with
      exports := x.exports.map fun e => if e.record = r ∧ e.endRec then { e with freeIt := true } else e }) s)
  else (.done 0 1 0 0, freeRecord sl r s)

/-- FLOW_DELETE. -/
def runFlowDelete (t : FormT) (a : Nat × Nat) (s : State) : CmdOut × State :=
  if t.object ≠ 0x0501 then (.fail 4, s)
  else
    let (st, s) := if t.hostAddr = 0 ∨ !bit t.first 63 then (0, s) else dataCheck a.1 t 256 false s
    if st ≠ 0 then (.fail st, s)
    else match flowName s t (if bit t.first 63 then ofLe (formTBytes s t 256) else 0) with
      | .waits w => (.wait w, s)
      | .absent => (.fail 4, s)
      | .found r => flowDelete a (bit t.opFlags 2) r s

/-- FLOW_READ: the 256-byte image with the hot-line deltas added in. -/
def runFlowRead (t : FormT) (a : Nat × Nat) (s : State) : CmdOut × State :=
  if t.object ≠ 0x0501 then (.fail 4, s)
  else
    let (st, s) := if bit t.first 63 then keyCheck (dataCheck a.1 t 256) s else dataCheck a.1 t 256 true s
    if st ≠ 0 then (.fail st, s)
    else match flowName s t (if bit t.first 63 then rdN s.host t.hostAddr 256 else 0) with
      | .waits w => (.wait w, s)
      | .absent => (.fail 4, s)
      | .found r => (.done 0 1 r 0, hostWr t.hostAddr (leBytes 256 (recImage s r)) s)

/-- G3_FLOW_DELETE: FLOW_DELETE of a record index (R95). DESIGN CHOICE (log 105): it and G3_NOP name no table, and the
table identifier their image carries is not looked at (R96). -/
def runG3FlowDelete (record : Nat) (a : Nat × Nat) (s : State) : CmdOut × State :=
  match nameIdx s record with
  | .waits w => (.wait w, s)
  | .absent => (.fail 4, s)
  | .found r => flowDelete a false r s

/-- FLOW_WRITE. -/
def execFlowWrite (h : Hdr) (t : FormT) (s : State) : Out := .next (command (.flowWrite h t) (runFlowWrite t) s)
/-- FLOW_DELETE. -/
def execFlowDelete (h : Hdr) (t : FormT) (s : State) : Out := .next (command (.flowDelete h t) (runFlowDelete t) s)
/-- FLOW_READ. -/
def execFlowRead (h : Hdr) (t : FormT) (s : State) : Out := .next (command (.flowRead h t) (runFlowRead t) s)
/-- G3_FLOW_DELETE. -/
def execG3FlowDelete (h : G3Hdr) (record : Nat) (s : State) : Out :=
  .next (command (.g3FlowDelete h record) (runG3FlowDelete record) s)

end Sys2Proof.Machine
end

