-- ==== Sys2Proof/Machine/Hbm.lean ====
section
/-! DEFINITION. The HBM controllers: refresh and temperature (R401, R402), arbitration (R404), errors (R406–R410), rank
failure and migration (R411–R417), and lost blocks (R418–R420). -/

namespace Sys2Proof.Machine

/-! ### Lost blocks (R418–R420) -/

/-- The record whose block an address in the records region is. -/
def recAt (a : Nat) : Nat := mkRec (2 * (a / 2 ^ 35) + a % 2 ^ 35 / 2 ^ 31) (a % 2 ^ 31 / 256)

/-- Write a tombstone over a record: key_len 0, life AGED, the other bytes zero. -/
def writeTomb (r : Nat) (s : State) : State :=
  blockWrite (recAddr r) (List.replicate 42 0 ++ leBytes 1 lifeAged ++ List.replicate 213 0) s

/-- The owner of a lost record: invalidation by index, hot line and deltas dropped, peer and binding released, tombstone
written (R419). -/
def tombstone (r : Nat) (s : State) : State :=
  if !recLive s r then writeTomb r s
  else
    let sl := recOwner s r
    let s := retryRebinds sl r (cancelRecord sl r s)
    let s := releasePort r s
    let s := match peerBack s r with
      | some q => modSlice (recOwner s q) (fun x => { x with peers := x.peers ++ [(q, lifeAged, xpAged)] }) s
      | none => s
    let s := sendInval sl r (recVer s r) none s
    let waiting := ((slice s sl).writes.filter fun w => w.record = r).flatMap (·.answer)
    let s := each waiting (answerCode sl 2) s
    let s := modSlice sl (fun x => { x with
      writes := x.writes.map fun w => if w.record = r then { w with answer := [] } else w
      exports := x.exports.map fun e => if e.record = r then { e with endRec := false, freeIt := false } else e
      tombs := (x.tombs.filter fun t => t.1 ≠ r) ++ [(r, x.sweeps)] }) s
    let s := dropPulls sl r s
    let s := { s with flow := { s.flow with
      finReply := mset false s.flow.finReply r false, endWhy := mset 0 s.flow.endWhy r 0
      bindExport := mset 0 s.flow.bindExport r 0 } }
    cntInc 0x0B81 (recHalf r / 2) 14 (setEnd r 0 (writeTomb r (dropHot sl r s)))

/-- A block is lost: HBM_UE_WORD, and what its region does about it (R418–R421). -/
def lostBlock (a : Nat) (s : State) : State :=
  let a := a / 64 * 64
  let d := a / 2 ^ 35
  let off := a % 2 ^ 35
  let g := regionOf off
  let s := raise (hbmSrc d 5) evHbmUeWord off (off / 2 ^ 32 + 16 * d) g (if g = 0 then recAt a else noRec) s
  if g = 0 then tombstone (recAt a) s
  else if g = 1 then blockWrite a (List.replicate 64 0) s
  else if g = 2 then s
  else poisonBlock a s

/-! ### Migration (R411–R416) -/

/-- The lowest SPARE rank. -/
def spareRank (s : State) : Option Nat := (upTo 12).find? fun f => rankSt s f = 1

/-- The stack whose source 4 carries a migration's events (R428). -/
def migSrc (m : Nat) : Nat := hbmSrc (m / 3) 4

/-- A physical rank as the source and target fields give it (R426): stack, then rank. -/
def rankField (f : Nat) : Nat := f / 3 * 4 + f % 3

/-- Keep the migration's progress in the boot flash and the logbook (R416). -/
def saveMig (s : State) : State := modFlash (fun x => { x with mig := s.hbm.mig }) s

/-- Start migrating a logical rank (R411, R412). -/
def startMig (m f sp : Nat) (failure : Bool) (s : State) : State :=
  let s := setRank sp 3 (setRank f 2 s)
  let s := modHbm (fun h => { h with mig := some ⟨m, f, sp, 0, failure, false, false, s.now⟩ }) s
  guardCheck (raise (migSrc m) evHbmMigStart 0 0 0 0 (saveMig s))

/-- Start what waits once no migration runs and a spare is there: a DEGRADED rank first, then a request of the driver's or
of ce_migrate (R411). -/
def tryMigrate (s : State) : State :=
  if s.hbm.mig.isSome then s
  else match spareRank s with
    | none => s
    | some sp =>
      match (upTo 12).find? fun f => decide (rankSt s f = 6) && (heldBy s f).isSome with
      | some f => startMig ((heldBy s f).getD 0) f sp true s
      | none =>
        match s.hbm.want with
        | none => s
        | some m =>
          let s := modHbm (fun h => { h with want := none }) s
          match rankOf s m with
          | some f => if rankSt s f = 0 then startMig m f sp false s else s
          | none => s

/-- A request to migrate a logical rank; it has no effect while a migration runs, and waits for a spare (R411). -/
def wantMig (m : Nat) (s : State) : State :=
  if s.hbm.mig.isSome ∨ (rankOf s m).isNone then s else tryMigrate (modHbm (fun h => { h with want := some m }) s)

/-- A migration ends: its outcome is kept for HBM_MIG_STATUS (R426). -/
def endMig (g : Mig) (outcome chunks : Nat) (s : State) : State :=
  let s := modStack (g.m / 3) (fun k => { k with outcome := outcome, chunks := chunks, migF := g.f, migS := g.s }) s
  saveMig (modHbm (fun h => { h with mig := none }) s)

/-- The target of a migration failed (R416). -/
def migFail (g : Mig) (s : State) : State :=
  let s := endMig g 3 g.n s
  let s := setRank g.f (if g.fill then 4 else if g.failure then 6 else 0) s
  raise (migSrc g.m) evHbmMigFail 0 0 0 0 s

/-- A physical rank fails (R410, R411, R416). -/
def failRank (f : Nat) (s : State) : State :=
  let told := raise (hbmSrc (f / 3) (1 + f % 3)) evHbmRankFailed 0 0 0 0
  match rankSt s f with
  | 1 | 5 => guardCheck (setRank f 4 (told s))
  | 0 =>
    let s := told s
    match heldBy s f with
    | none => guardCheck (setRank f 4 s)
    | some m =>
      match (if s.hbm.mig.isSome then none else spareRank s) with
      | some sp => startMig m f sp true s
      | none =>
        let s := setRank f 6 s
        if (spareRank s).isNone then raise (migSrc m) evHbmNoSpare 0 0 0 0 s else s
  | 2 =>
    match s.hbm.mig with
    | some g => if g.failure then s else modHbm (fun h => { h with mig := some { g with failure := true } }) (told s)
    | none => s
  | 3 =>
    match s.hbm.mig with
    | some g => tryMigrate (guardCheck (setRank f 4 (migFail g (told s))))
    | none => setRank f 4 (told s)
  | _ => s

/-! ### Errors found by a read (R406–R410) -/

/-- A corrected error of a rank: counted, and compared with ce_limit over the hour (R409). -/
def ceCount (f : Nat) (s : State) : State :=
  let d := f / 3
  let hour := s.now / (3600 * 10 ^ 12)
  let s := if (stack s d).ceHour = hour then s else modStack d (fun k => { k with ceHour := hour, ce := [], ceTold := [] }) s
  let n := mget 0 (stack s d).ce (f % 3) + 1
  let s := modStack d (fun k => { k with ce := mset 0 k.ce (f % 3) n }) (cntInc 0x0B81 d 0 s)
  if cfg s (.hbmScrubCfg d) 23 8 < n ∧ !mget false (stack s d).ceTold (f % 3) then
    let s := modStack d (fun k => { k with ceTold := mset false k.ceTold (f % 3) true }) s
    let s := raise (hbmSrc d (1 + f % 3)) evHbmCeRate 0 0 0 0 s
    match heldBy s f with
    | some m => if cfgBit s (.hbmScrubCfg d) 31 then wantMig m s else s
    | none => s
  else s

/-- A command-parity error: retried twice, then the rank fails. True when the request is over (R410). -/
def parityError (f : Nat) (s : State) : Bool × State :=
  let d := f / 3
  if (stack s d).retries < 2 then (false, modStack d (fun k => { k with retries := k.retries + 1 }) (cntInc 0x0B81 d 3 s))
  else (true, failRank f (modStack d (fun k => { k with retries := 0 }) (cntInc 0x0B81 d 4 s)))

/-- What a read of the block at a logical address finds on a physical rank; none for a rank that holds nothing. True when
the request is over. -/
def readFinds (f : Nat) (a : Option Nat) (e : Ecc) (s : State) : Bool × State :=
  let d := f / 3
  let isPoison := match a with
    | some x => poisoned s x
    | none => false
  match e with
  | .parity => parityError f s
  | .clean => (true, modStack d (fun k => { k with retries := 0 }) s)
  | .corrected => (true, ceCount f (modStack d (fun k => { k with retries := 0 }) s))
  | .uncorrectable | .bothCopies =>
    let s := modStack d (fun k => { k with retries := 0 }) s
    if isPoison then (true, s)
    else
      let s := failRank f (cntInc 0x0B81 d 1 s)
      match a with
      | none => (true, s)
      | some x => (true, if inMirror x then mirrorRepair x (decide (e = .bothCopies)) s else lostBlock x s)

/-! ### Arbitration (R402, R404) -/

/-- A port's weight: FLOW, CORE, DMA, CUS, SCRUB; 0 acts as 1. -/
def portWeight (s : State) (d p : Nat) : Nat := cfg1 s (.hbmQosCfg d) (19 - 4 * p) (16 - 4 * p)

/-- The port served next: FLOW in panic; else, in turn by weight, a port with requests and credit left, SCRUB standing
back in panic. Credits are renewed when no port with requests has any. -/
def portNext (d : Nat) (s : State) : Option Nat × State :=
  let k := stack s d
  let has (p : Nat) : Bool := decide (mget [] k.ports p ≠ []) && !(k.panic && decide (p = 4))
  if k.panic && has 0 then (some 0, s)
  else
    let l := (upTo 5).filter has
    if l = [] then (none, s)
    else
      let s := if l.any fun p => decide (0 < mget 0 k.credit p) then s
        else modStack d (fun k => { k with credit := (upTo 5).foldl (fun m p => mset 0 m p (portWeight s d p)) [] }) s
      (l.find? fun p => 0 < mget 0 (stack s d).credit p, s)

/-- The rank of a controller that a request reaches. -/
def reqRankAt (s : State) (d : Nat) (q : HbmReq) : Option Nat := (reqRanks s q).find? fun f => f / 3 = d

/-- A port's first request leaves it, against its credit. -/
def popPort (d p : Nat) (s : State) : State :=
  panicCheck d (modStack d (fun k => { k with
    ports := mset [] k.ports p ((mget [] k.ports p).drop 1)
    credit := mset 0 k.credit p (mget 0 k.credit p - 1) }) s)

/-- HBM_ACCESS: in one HBM cycle a controller refreshes a bank with 8 refreshes postponed, or issues the next request (R404)
and sees what its read finds. -/
def hbmAccess (d : Nat) (e : Ecc) (s : State) : State :=
  if !hasDie s.part d then s
  else match (stack s d).postponed.find? fun b => 8 ≤ b.2 with
    | some b => cntInc 0x0B81 d 5 (modStack d (fun k => { k with postponed := mset 0 k.postponed b.1 (b.2 - 1) }) s)
    | none =>
      let (p, s) := portNext d s
      match p with
      | none => s
      | some p =>
        match (mget [] (stack s d).ports p) with
        | [] => s
        | q :: _ =>
          match reqRankAt s d q with
          | none => popPort d p s
          | some f =>
            let e := if q.data.isSome && decide (e ≠ .parity) then .clean else e
            let oneOf := decide (64 < q.len) && (decide (e = .uncorrectable) || decide (e = .bothCopies))
            let (n, s) := if oneOf then useFree s else (0, s)
            let a := q.addr + 64 * (if oneOf then Config.freeValue n % (q.len / 64) else 0)
            let s := modStack d (fun k => { k with sent := some (dramAt s f a) }) s
            let (tooHot, s) := readFinds f (some a) e s
            if tooHot then popPort d p s else s

/-- The refresh interval of a bank in ps: 3.9 µs, halved while refresh_2x is set (R401). -/
def refreshPs (k : Stack) : Nat := if k.refresh2x then 1950000 else 3900000

/-- HBM_REFRESH: a bank's refresh falls due, an interval after its last: postponed in panic, up to 8; otherwise issued with
those it owes (R401, R402). -/
def hbmRefresh (d b : Nat) (s : State) : State :=
  if !hasDie s.part d || decide (s.now < mget 0 (stack s d).refAt b + refreshPs (stack s d)) then s
  else
    let s := modStack d (fun k => { k with refAt := mset 0 k.refAt b s.now }) s
    let k := stack s d
    let n := mget 0 k.postponed b
    if k.panic && decide (n < 8) then cntInc 0x0B81 d 6 (modStack d (fun k => { k with postponed := mset 0 k.postponed b (n + 1) }) s)
    else if k.panic then cntInc 0x0B81 d 5 s
    else cntAdd 0x0B81 d 5 (n + 1) (modStack d (fun k => { k with postponed := mset 0 k.postponed b 0 }) s)

/-- HBM_TEMP_READ: a stack's temperature is read, 1 ms after the last reading (R401, R531). -/
def hbmTempRead (d t : Nat) (s : State) : State :=
  if !hasDie s.part d || decide (s.now < (stack s d).tempAt + 10 ^ 9) then s
  else
    let t := t % 256
    let s := modStack d (fun k => { k with temp := t, tempAt := s.now }) s
    let s := if 85 < t then
        (if (stack s d).refresh2x then modStack d (fun k => { k with coolSince := none }) s
          else modStack d (fun k => { k with refresh2x := true, coolSince := none, fastAt := s.now }) s)
      else if t ≤ 82 ∧ (stack s d).refresh2x then
        (match (stack s d).coolSince with
          | none => modStack d (fun k => { k with coolSince := some s.now }) s
          | some c =>
            if c + 10 ^ 12 ≤ s.now then modStack d (fun k => { k with refresh2x := false, coolSince := none }) (countFast d s)
            else s)
      else modStack d (fun k => { k with coolSince := none }) s
    let alarm := cfg s (.hbmTempCfg d) 7 0
    let was := (stack s d).hot
    let s := modStack d (fun k => { k with hot := decide (alarm < t) }) s
    let s := if alarm < t ∧ !was then raise (hbmSrc d 0) evHbmTempHigh t 0 0 0 s else s
    guardCheck (thermCheck (4 + d) (Int.ofNat t) (Int.ofNat alarm) s)

/-! ### Scrub and probe (R408, R432) -/

/-- Blocks of a rank. -/
def rankBlocks : Nat := 2 ^ 27

/-- The logical address of a block of a physical rank that holds a logical rank. -/
def blockAddr (s : State) (f i : Nat) : Option Nat := (heldBy s f).map fun m => m / 3 * 2 ^ 35 + m % 3 * 2 ^ 33 + 64 * i

/-- The time between two blocks of the patrol scrub of a rank, in ps: each of its blocks once per scrub_hours (R408). -/
def patrolPs (s : State) (d : Nat) : Nat := cfg1 s (.hbmScrubCfg d) 7 0 * (3600 * 10 ^ 12) / rankBlocks

/-- PATROL_SCRUB: under an adopted hold, at its pace, the next block of a rank in service is read (R408). -/
def patrolScrub (d k : Nat) (e : Ecc) (s : State) : State :=
  let f := 3 * d + k
  let st := rankSt s f
  if hasDie s.part d && decide (k < 3) && holdAdopted s && !(stack s d).panic
      && (decide (st = 0) || decide (st = 1) || decide (st = 2) || decide (st = 6))
      && decide (mget 0 (stack s d).scrubAt k + patrolPs s d ≤ s.now) then
    let i := mget 0 (stack s d).scrub k
    let (tooHot, s) := readFinds f (if st = 1 then none else blockAddr s f i) e s
    if !tooHot then s
    else
      let j := (i + 1) % rankBlocks
      let s := modStack d (fun x => { x with scrub := mset 0 x.scrub k j, scrubAt := mset 0 x.scrubAt k s.now }) s
      if j = 0 then cntInc 0x0B81 d 9 s else s
  else s

/-- RANK_PROBE: one block of a rank in service is read, 1 s after the last (R432). -/
def rankProbe (d k : Nat) (e : Ecc) (s : State) : State :=
  let f := 3 * d + k
  let st := rankSt s f
  if hasDie s.part d && decide (k < 3) && !(decide (st = 4) || decide (st = 7))
      && decide (mget 0 (stack s d).probeAt k + 10 ^ 12 ≤ s.now) then
    let i := mget 0 (stack s d).probe k
    let (tooHot, s) := readFinds f (if st = 1 ∨ st = 3 ∨ st = 5 then none else blockAddr s f i) e (cntInc 0x0C81 0 6 s)
    if tooHot then
      modStack d (fun x => { x with
        probe := mset 0 x.probe k ((i + 1) % rankBlocks), probeAt := mset 0 x.probeAt k s.now }) s
    else s
  else s

/-! ### The migration's chunks (R412–R416) -/

/-- A block of the chunk under way read uncorrectably from f: the partner's data in the mirror area, else poison and a lost
block (R414). -/
def badBlock (g : Mig) (i : Nat) (s : State) : State :=
  let a := g.m / 3 * 2 ^ 35 + g.m % 3 * 2 ^ 33 + g.n * 2 ^ 26 + 64 * (i % 2 ^ 20)
  let s := if g.fill then s else failRank g.f (cntInc 0x0B81 (g.f / 3) 1 s)
  if inMirror a then mirrorRepair a false s
  else
    lostBlock a (if regionOf (a % 2 ^ 35) ≤ 1 then poisonBlock a s else s)

/-- The least time of a chunk, at mig_gbps (R412). -/
def chunkPs (s : State) (g : Mig) : Nat := 2 ^ 26 * 1000 / cfg1 s (.hbmMigCfg (g.m / 3)) 7 0

/-- MIGRATION_CHUNK: under an adopted hold, a chunk has been copied, or the target has failed (R412–R416, R424). -/
def migrationChunk (bad : List Nat) (targetFailed : Bool) (s : State) : State :=
  match s.hbm.mig with
  | none => s
  | some g0 =>
    if !holdAdopted s then s
    else if targetFailed then failRank g0.s s
    else if s.now < g0.at_ + chunkPs s g0 then s
    else
      let isNew (i : Nat) : Bool :=
        !poisoned s (g0.m / 3 * 2 ^ 35 + g0.m % 3 * 2 ^ 33 + g0.n * 2 ^ 26 + 64 * (i % 2 ^ 20))
      let s := each (if g0.fill then [] else bad.filter isNew) (badBlock g0) s
      match s.hbm.mig with
      | none => s
      | some g =>
        let n := g.n + 1
        let s := cntInc 0x0B81 (g.m / 3) 10 s
        let s := saveMig (modHbm (fun h => { h with mig := some { g with n := n, at_ := s.now } }) s)
        if g.abort && !g.failure then
          let s := endMig g 2 n (setRank g.f 0 (setRank g.s 5 s))
          guardCheck (raise (migSrc g.m) evHbmMigEnd 2 n (rankField g.f) (rankField g.s) s)
        else if n = 128 then
          let s := setMap g.m (some g.s) s
          let s := setRank g.f (if g.failure then 4 else 5) (setRank g.s 0 s)
          let s := cntInc 0x0B81 (g.m / 3) 11 (endMig g 1 n s)
          guardCheck (tryMigrate (raise (migSrc g.m) evHbmMigEnd 1 n (rankField g.f) (rankField g.s) s))
        else s

/-- RANK_PREPARE_END: a PREPARING rank's fill and scrub end (R417). -/
def rankPrepareEnd (d k : Nat) (ok : Bool) (s : State) : State :=
  let f := 3 * d + k
  if hasDie s.part d && decide (k < 3) && decide (rankSt s f = 5) then
    if ok then guardCheck (tryMigrate (raise (hbmSrc d (1 + k)) evHbmRankReady 0 0 0 0 (setRank f 1 s)))
    else failRank f (cntInc 0x0B81 d 1 s)
  else s

/-- A write of HBM_MIG_CTRL: lrank is stored, start requests a migration and abort the abort of the one that runs (R411,
R415, R426). -/
def migCtrlWrite (d : Nat) (v : Word) (s : State) : State :=
  let s := putReg (.hbmMigCtrl d) (v &&& 3) s
  let s := if v.getLsbD 31 ∧ (v &&& 3) ≠ 3 then wantMig (3 * d + (v &&& 3).toNat) s else s
  if v.getLsbD 30 then
    match s.hbm.mig with
    | some g => if g.m / 3 = d ∧ !g.failure then modHbm (fun h => { h with mig := some { g with abort := true } }) s else s
    | none => s
  else s

/-- A write of HBM_RANK_CTRL: each FAILED rank named becomes PREPARING (R417). -/
def rankCtrlWrite (d : Nat) (v : Word) (s : State) : State :=
  each (upTo 3) (fun k t => if v.getLsbD k ∧ rankSt t (3 * d + k) = 4 then setRank (3 * d + k) 5 t else t) s

/-- HBM_ACCESS. -/
def execHbmAccess (stack : Nat) (ecc : Ecc) (s : State) : Out := .next (hbmAccess stack ecc s)
/-- HBM_REFRESH. -/
def execHbmRefresh (stack bank : Nat) (s : State) : Out := .next (hbmRefresh stack bank s)
/-- HBM_TEMP_READ. -/
def execHbmTempRead (stack temp : Nat) (s : State) : Out := .next (hbmTempRead stack temp s)
/-- PATROL_SCRUB. -/
def execPatrolScrub (stack rank : Nat) (ecc : Ecc) (s : State) : Out := .next (patrolScrub stack rank ecc s)
/-- RANK_PROBE. -/
def execRankProbe (stack rank : Nat) (ecc : Ecc) (s : State) : Out := .next (rankProbe stack rank ecc s)
/-- MIGRATION_CHUNK. -/
def execMigrationChunk (badBlocks : List Nat) (targetFailed : Bool) (s : State) : Out :=
  .next (migrationChunk badBlocks targetFailed s)
/-- RANK_PREPARE_END. -/
def execRankPrepareEnd (stack rank : Nat) (ok : Bool) (s : State) : Out := .next (rankPrepareEnd stack rank ok s)

end Sys2Proof.Machine
end

