-- ==== Sys2Proof/Machine/MemCmd.lean ====
section
/-! DEFINITION. MEM_READ and MEM_WRITE (R397, R398, R421), CHECK_SCAN (R438–R441) and FLOW_RESTORE (R422). -/

namespace Sys2Proof.Machine

/-! ### Device addresses (R397, R398) -/

/-- A range of device memory: of HBM with its address in the memory, or of a die's table memory with die and offset. -/
inductive DevRange where
  | hbm (a : Nat)
  | table (die off : Nat)
deriving DecidableEq, Repr

/-- The range a Form M command names, none when R398 refuses it. -/
def devRange (s : State) (dev len : Nat) : Option DevRange :=
  if dev / 2 ^ 60 = 0 then
    let d := fld dev 36 35
    let off := fld dev 34 0
    let last := off + len - 1
    let whole := (upTo 3).all fun k => decide (last / 2 ^ 33 < k ∨ k < off / 2 ^ 33) || mapped s (mAddr d (k * 2 ^ 33))
    if fld dev 59 37 = 0 ∧ hasDie s.part d ∧ off + len ≤ regionEnd off ∧ whole ∧ !mirrorReserved d off ∧ !mirrorReserved d last then
      some (.hbm (mAddr d off))
    else none
  else if dev / 2 ^ 60 = 1 then
    if fld dev 59 28 = 0 ∧ hasDie s.part (fld dev 27 26) ∧ fld dev 25 0 + len ≤ 2 ^ 26 then some (.table (fld dev 27 26) (fld dev 25 0))
    else none
  else none

/-- The range k bytes further on. -/
def DevRange.at_ (r : DevRange) (k : Nat) : DevRange :=
  match r with
  | .hbm a => .hbm (a + k)
  | .table d o => .table d (o + k)

/-- A byte of HBM as a command reads it: the configuration image of the mirror area is the copy of table memory (R396). -/
def hbm8 (s : State) (a : Nat) : Byte :=
  let off := a % 2 ^ 35
  let img := mirrorBase + 0x08000000
  if a / 2 ^ 35 % 2 = 0 ∧ img ≤ off ∧ off < img + 2 ^ 28 then rd8 s.tmem (off - img) else rd8 s.mem a

/-- Its bytes. -/
def devBytes (s : State) (r : DevRange) (n : Nat) : List Byte :=
  match r with
  | .hbm a => (upTo n).map fun i => hbm8 s (a + i)
  | .table d o => rdBytes s.tmem (tAddr d o) n

/-- Bytes of a range before its first uncorrectable word: a poisoned block, or a word of table memory marked absent. -/
def cleanBytes (s : State) (r : DevRange) (n : Nat) : Nat :=
  match r with
  | .hbm a => match firstPoison s a n with
    | some b => b - a
    | none => n
  | .table d o => if meetsAbsent s d o n then (64 * ((upTo (ceilDiv n 64)).filter fun i => !meetsAbsent s d o (64 * (i + 1))).length) else n

/-- A table block the range touches is suspect (R166). -/
def touchesSuspect (s : State) (r : DevRange) (n : Nat) : Bool :=
  match r with
  | .hbm _ => false
  | .table d o => (upTo (ceilDiv n 65536 + 1)).any fun i => decide (o / 65536 + i ≤ (o + n - 1) / 65536) && (cmpOf s d (o / 65536 + i)).suspect

/-- Ask the DMA port for a read (R403). -/
def askRead (r : DevRange) (n : Nat) (s : State) : State :=
  match r with
  | .hbm a => hbmPush 2 ⟨a, none, n, none⟩ s
  | .table _ _ => s

/-- A request of the DMA port at the range has not been issued yet. -/
def dmaBusy (s : State) (r : DevRange) : Bool :=
  match r with
  | .hbm a => hbmWaiting s 2 a
  | .table _ _ => false

/-- The bytes of the next 4 KiB step (R444). -/
def stepBytes (m : FormM) (done : Nat) : Nat := Nat.min 4096 (m.length - done)

/-- MEM_READ begins (R398). -/
def runMemRead (m : FormM) (a : Nat × Nat) (s : State) : CmdOut × State :=
  let (st, s) := dmaCheck a.1 m.hostAddr m.length 64 true s
  if st ≠ 0 then (.fail st, s)
  else match devRange s m.devAddr m.length with
    | none => (.fail 10, s)
    | some r => if m.length = 0 then (.ok, s) else (.go .nothing, askRead r (stepBytes m 0) s)

/-- A step of MEM_READ: 4 KiB or the remainder; an uncorrectable block stops it (R421). -/
def stepMemRead (m : FormM) (e : InFlight) (s : State) : StepOut × State :=
  match devRange s m.devAddr m.length with
  | none => (.done 10 e.progress 0 0, s)
  | some r0 =>
    let r := r0.at_ e.progress
    let n := stepBytes m e.progress
    if dmaBusy s r then (.stay, s)
    else
      let k := cleanBytes s r n
      let st := if touchesSuspect s r n then 6 else e.status
      let s := hostWr (m.hostAddr + e.progress) (devBytes s r k) s
      if k < n then (.done 7 (e.progress + k) 0 0, s)
      else if e.progress + n = m.length then (.done st m.length 0 0, s)
      else (.more (e.progress + n) 0 0 [] st, askRead (r0.at_ (e.progress + n)) (stepBytes m (e.progress + n)) s)

/-- MEM_WRITE begins: only the firmware data region and the general regions may be written (R398). -/
def runMemWrite (m : FormM) (a : Nat × Nat) (s : State) : CmdOut × State :=
  let (st, s) := dmaCheck a.1 m.hostAddr m.length 64 false s
  if st ≠ 0 then (.fail st, s)
  else match devRange s m.devAddr m.length with
    | some (.hbm x) =>
      if regionOf (x % 2 ^ 35) < 3 then (.fail 10, s) else if m.length = 0 then (.ok, s) else (.go .nothing, s)
    | _ => (.fail 10, s)

/-- A step of MEM_WRITE: 4 KiB or the remainder, once the write before it has been issued. -/
def stepMemWrite (m : FormM) (e : InFlight) (s : State) : StepOut × State :=
  match devRange s m.devAddr m.length with
  | some (.hbm x) =>
    let n := stepBytes m e.progress
    let at_ := x + e.progress
    if 0 < e.progress ∧ hbmWaiting s 2 (at_ - 4096) then (.stay, s)
    else
      let bs := rdBytes s.host (m.hostAddr + e.progress) n
      let s := hbmPush 2 ⟨at_, some bs, n, none⟩ (blockWrite at_ bs s)
      if e.progress + n = m.length then (.done 0 m.length 0 0, s) else (.more (e.progress + n) 0 0 [] 0, s)
  | _ => (.done 10 e.progress 0 0, s)

/-! ### CHECK_SCAN (R438–R441) -/

/-- Bytes of a block: 64 × 2^v, or the whole length (R440). -/
def scanBlock (m : FormM) : Nat := if fld m.opFlags 9 5 = 31 then m.length else 64 * 2 ^ fld m.opFlags 9 5

/-- The fold prefix of a block; none without folding (R438). -/
def scanPrefix (m : FormM) (i : Nat) : List Byte :=
  let at_ := m.devAddr + i * scanBlock m
  match fld m.opFlags 3 2 with
  | 1 => foldBytes (if at_ / 2 ^ 60 = 1 then setFld at_ 27 26 0 else at_)
  | 2 => foldBytes (fld m.opFlags 31 16 * 2 ^ 32 + i)
  | _ => []

/-- The CRC register before a block's data. -/
def scanStart (m : FormM) (i : Nat) : Nat := crcFeed (fld m.opFlags 1 0) (crcInit (fld m.opFlags 1 0)) (scanPrefix m i)

/-- The fields are none of R440's host errors. -/
def scanFields (m : FormM) : Bool :=
  let v := fld m.opFlags 9 5
  (decide (v ≤ 26) || (decide (v = 31) && decide (m.hostAddr = 0))) && decide (fld m.opFlags 3 2 ≠ 3)
    && decide (fld m.opFlags 1 0 ≠ 3) && decide (0 < m.length) && decide (m.length % scanBlock m = 0)

/-- The die whose engines scan a range (R439). -/
def scanDie : DevRange → Nat
  | .hbm a => a / 2 ^ 35
  | .table d _ => d

/-- The die of a CHECK_SCAN in flight. -/
def scanOn (s : State) (e : InFlight) : Option Nat :=
  match e.cmd with
  | .checkScan _ m => (devRange s m.devAddr m.length).map scanDie
  | _ => none

/-- Engines of a die that serve CHECK_SCAN: all 4, or 3 while shadow compare is enabled there (R439). -/
def scanEngines (s : State) (d : Nat) : Nat := if cfgBit s (.fwdCmpCfg d) 31 then 3 else 4

/-- No engine is free, or an earlier command waits for one (R439). -/
def enginesBusy (s : State) (a : Nat × Nat) (d : Nat) : Bool :=
  let mine := match inflight s a with
    | some e => e.order
    | none => 0
  let l := s.hif.inflight.filter fun e => scanOn s e = some d
  decide (scanEngines s d ≤ (l.filter (·.stepping)).length)
    || l.any fun e => decide (e.wait = .engine) && !e.stepping && decide (e.order < mine)

/-- Host bytes of the values: one word per block, padded to 64 (R441). -/
def scanHost (m : FormM) : Nat := ceilDiv (8 * (m.length / scanBlock m)) 64 * 64

/-- Bytes of the next step: one block, or 64 KiB when the block is larger (R444). -/
def scanBytes (m : FormM) (done : Nat) : Nat := Nat.min 65536 (scanBlock m - done % scanBlock m)

/-- CHECK_SCAN begins. acc: the CRC register, the first differing block, how many differ. -/
def runCheckScan (m : FormM) (a : Nat × Nat) (s : State) : CmdOut × State :=
  if !scanFields m then (.fail 10, s)
  else match devRange s m.devAddr m.length with
    | none => (.fail 10, s)
    | some r =>
      if enginesBusy s a (scanDie r) then (.wait .engine, s)
      else
        let (st, s) := if fld m.opFlags 9 5 = 31 then (0, s) else dmaCheck a.1 m.hostAddr (scanHost m) 64 (!bit m.opFlags 4) s
        if st ≠ 0 then (.fail st, s)
        else
          let s := cntInc 0x0C81 0 8 (askRead r (scanBytes m 0) s)
          (.go .nothing, modInflight a (fun e => { e with acc := [scanStart m 0, 0, 0] }) s)

/-- A block's value is complete: it is written, compared, or kept as the result (R441). Answers the new first and number
of differing blocks. -/
def scanValue (m : FormM) (i v f n : Nat) (s : State) : (Nat × Nat) × State :=
  if fld m.opFlags 9 5 = 31 then ((v, 0), s)
  else
    let h := m.hostAddr + 8 * i
    if bit m.opFlags 4 then
      let x := rdN s.host h 8
      if x = v then ((f, n), s)
      else
        let at_ := m.devAddr + i * scanBlock m
        ((if n = 0 then i else f, n + 1),
          raise 0x048 evChkScanMismatch (at_ % 2 ^ 32) (at_ / 2 ^ 32) (v % 2 ^ 32) (x % 2 ^ 32) (cntInc 0x0C81 0 9 s))
    else
      let last := (i + 1) * scanBlock m = m.length
      let pad := if last then scanHost m - 8 * (i + 1) else 0
      ((0, 0), hostWr h (leBytes 8 v ++ List.replicate pad 0) s)

/-- A step of CHECK_SCAN. -/
def stepCheckScan (m : FormM) (e : InFlight) (s : State) : StepOut × State :=
  match devRange s m.devAddr m.length with
  | none => (.done 10 e.progress 0 0, s)
  | some r0 =>
    let b := scanBlock m
    let r := r0.at_ e.progress
    let n := scanBytes m e.progress
    let i := e.progress / b
    let f := nth 0 e.acc 1
    let k := nth 0 e.acc 2
    if dmaBusy s r then (.stay, s)
    else
      let c := cleanBytes s r n
      if c < n then (.done 7 (e.progress + c) f k, s)
      else
        let reg := crcFeed (fld m.opFlags 1 0) (nth 0 e.acc 0) (devBytes s r n)
        let done := e.progress + n
        if done % b ≠ 0 then (.more done f k [reg, f, k] 0, askRead (r0.at_ done) (scanBytes m done) s)
        else
          let ((f, k), s) := scanValue m i (crcFinal (fld m.opFlags 1 0) reg) f k s
          if done = m.length then (.done (if k = 0 then 0 else 6) done f k, s)
          else (.more done f k [scanStart m (i + 1), f, k] 0, askRead (r0.at_ done) (scanBytes m done) s)

/-! ### FLOW_RESTORE (R422) -/

/-- Entries of a FLOW_RESTORE. -/
def restoreCount (t : FormT) : Nat := clampCount 13421772 t.count

/-- FLOW_RESTORE begins. -/
def runFlowRestore (h : Hdr) (t : FormT) (a : Nat × Nat) (s : State) : CmdOut × State :=
  if t.object ≠ 0x0501 ∨ h.kind ≠ 0 then (.fail 4, s)
  else
    let (st, s) := dataCheck a.1 t (320 * restoreCount t) false s
    if st ≠ 0 then (.fail st, s) else (.go .nothing, s)

/-- What became of a restored entry. -/
inductive Restored where | waits | yes | skipped | full
deriving DecidableEq, Repr

/-- A tombstone of a half takes a restored image, when the key's buckets have room. -/
def restoreTomb (r hf h g : Nat) (s : State) : Option State :=
  if r < 2 ^ 26 ∧ recHalf r = hf ∧ recLive s r ∧ recKeyLen s r = 0 ∧ recLife s r = lifeAged then
    (idxRoom s (hf / 2) h g).map fun a =>
      putIdx a (mkIdx r g) (modSlice (recOwner s r) (fun x => { x with tombs := x.tombs.filter fun t => t.1 ≠ r }) s)
  else none

/-- One entry of FLOW_RESTORE at the owner of its key: the image is written with its version + 1. -/
def restoreEntry (img r : Nat) (s : State) : Restored × State :=
  let key := leBytes 40 img
  let prof := fld img 323 320
  let (h, g) := keyHashes s (nth 0 (dies s.part) 0) key prof
  let hf := homeHalf s h
  let sl := halfOwner s hf
  if halfLeaving s hf ∨ !sliceOn s sl then (.waits, s)
  else if fld img 338 336 = lifeNew ∨ (idxFind s h g key prof).isSome ∨ (hotKey s sl key prof).isSome then (.skipped, s)
  else
    let (got, s) := match restoreTomb r hf h g s with
      | some t => (Found.got r 0, t)
      | none => takeRecord sl hf h g false s
    match got with
    | .none => (.full, s)
    | .wait => (.waits, s)
    | .got n _ =>
      let s := blockWrite (recAddr n) (leBytes 256 img) s
      let s := setEnd n (if fld img 338 336 = lifeClosed then msNow s + 1 else 0) s
      (.yes, bump n none [] none s)

/-- A step of FLOW_RESTORE: one entry. -/
def stepFlowRestore (t : FormT) (e : InFlight) (s : State) : StepOut × State :=
  let at_ := t.hostAddr + 320 * e.progress
  let (x, s) := restoreEntry (rdN s.host at_ 256) (rdN s.host (at_ + 256) 4) s
  let next (st r0 r1 : Nat) (s : State) : StepOut × State :=
    if e.progress + 1 = restoreCount t then (.done st (restoreCount t) r0 r1, s) else (.more (e.progress + 1) r0 r1 [] st, s)
  match x with
  | .waits => (.stay, s)
  | .yes => next e.status (e.res0 + 1) e.res1 s
  | .skipped => next e.status e.res0 (e.res1 + 1) s
  | .full => next 5 e.res0 e.res1 s

/-- MEM_READ. -/
def execMemRead (h : Hdr) (m : FormM) (s : State) : Out := .next (command (.memRead h m) (runMemRead m) s)
/-- MEM_WRITE. -/
def execMemWrite (h : Hdr) (m : FormM) (s : State) : Out := .next (command (.memWrite h m) (runMemWrite m) s)
/-- CHECK_SCAN. -/
def execCheckScan (h : Hdr) (m : FormM) (s : State) : Out := .next (command (.checkScan h m) (runCheckScan m) s)
/-- FLOW_RESTORE. -/
def execFlowRestore (h : Hdr) (t : FormT) (s : State) : Out := .next (command (.flowRestore h t) (runFlowRestore h t) s)

end Sys2Proof.Machine
end

