-- ==== Sys2Proof/Machine/Rollout.lean ====
section
/-! DEFINITION. Flow-core images and the rollout (R278–R284). -/

namespace Sys2Proof.Machine

/-! ### Image slots (R278, R279) -/

/-- The largest header and body. -/
def imageMax : Nat := 524352

/-- A field of the header of a slot: n bytes from offset i, as the copy on H0 holds it. -/
def imageHdr (s : State) (slot i n : Nat) : Nat := ofLe (mirrorRead s 0 (imageSlot slot + i) n)

/-- A slot passes the check of its header and of the body's CRC-32C. -/
def imageGood (s : State) (slot : Nat) : Bool :=
  let len := imageHdr s slot 0 4
  decide (len % 64 = 0) && decide (len ≤ 524288) && decide (imageHdr s slot 20 1 = 1) && decide (imageHdr s slot 21 43 = 0)
    && decide (crcOf 1 (mirrorRead s 0 (imageSlot slot + 64) len) = imageHdr s slot 16 4)

/-- Some cluster runs a slot's image, loaded or draining, or loads it: what loads is the rollout's slot (R279). -/
def slotInUse (s : State) (slot : Nat) : Bool :=
  (clustersOf s.part).any fun k =>
    (decide ((cluster s k).fw ≤ 1) && decide ((cluster s k).slot = slot))
      || (decide ((cluster s k).fw = 2) && decide (s.tsk.rollout.slot = slot))

/-- Mark a slot valid or not. -/
def setValid (slot : Nat) (v : Bool) (s : State) : State :=
  modTsk (fun k => { k with slotValid := mset false k.slotValid slot v }) s

/-- The end of a FW_STAGE: with LAST the slot is checked. -/
def stageEnd (m : FormM) (s : State) : Nat × State :=
  let slot := m.opFlags % 2
  if bit m.opFlags 1 then (if imageGood s slot then (0, setValid slot true s) else (6, setValid slot false s)) else (0, s)

/-- FW_STAGE begins (R279). -/
def runFwStage (m : FormM) (a : Nat × Nat) (s : State) : CmdOut × State :=
  if m.devAddr % 64 ≠ 0 ∨ imageMax < m.devAddr + m.length then (.fail 10, s)
  else if slotInUse s (m.opFlags % 2) then (.fail 10, s)
  else
    let (st, s) := dmaCheck a.1 m.hostAddr m.length 64 false s
    if st ≠ 0 then (.fail st, s)
    else if m.length = 0 then
      let (st, s) := stageEnd m s
      (.done st 0 0 0, s)
    else (.go .nothing, setValid (m.opFlags % 2) false s)

/-- A step of FW_STAGE: 4 KiB, or the remainder, to both copies of the mirror area. -/
def stepFwStage (m : FormM) (e : InFlight) (s : State) : StepOut × State :=
  let n := stepBytes m e.progress
  let off := imageSlot (m.opFlags % 2) + m.devAddr + e.progress
  let bs := rdBytes s.host (m.hostAddr + e.progress) n
  let s := clearPoison (mAddr 2 (mirrorBase + off)) n (clearPoison (mAddr 0 (mirrorBase + off)) n (mirrorWrite off bs s))
  let s := hbmPush 2 ⟨mAddr 2 (mirrorBase + off), some bs, n, none⟩ (hbmPush 2 ⟨mAddr 0 (mirrorBase + off), some bs, n, none⟩ s)
  if e.progress + n = m.length then
    let (st, s) := stageEnd m s
    (.done st m.length 0 0, s)
  else (.more (e.progress + n) 0 0 [] 0, s)

/-! ### Loading a cluster (R281, R284) -/

/-- Load a slot's image into a cluster and start its cores at the entry point. -/
def loadImage (k slot : Nat) (s : State) : State :=
  let body := mirrorRead s (k / 6) (imageSlot slot + 64) (imageHdr s slot 0 4)
  let s := modCluster k (fun c => { c with
    fw := 0, slot := slot, version := imageHdr s slot 8 4, minVersion := imageHdr s slot 12 4, entry := imageHdr s slot 4 4
    isram := wrBytes [] 0 body }) s
  checkServed (k / 3) (each ((upTo 8).map (8 * k + ·)) resetCore s)

/-- No core of a cluster holds a task. -/
def clusterIdle (s : State) (k : Nat) : Bool :=
  (upTo 8).all fun i => (coreOf s (8 * k + i)).task.isNone && (coreOf s (8 * k + i)).preempted.isNone && (coreOf s (8 * k + i)).coming.isNone

/-! ### The rollout (R280) -/

/-- Change the rollout. -/
def modRoll (f : Rollout → Rollout) (s : State) : State := modTsk (fun k => { k with rollout := f k.rollout }) s

/-- A cluster is passed over: it is not powered. -/
def passedOver (s : State) (k : Nat) : Bool := !domOn s (domCluster k)

/-- The holder moves the rollout on: the next selected cluster drains, or loads when it is empty; a slice without one left
is finished; with no slice left the rollout ends (R280, R450). n bounds the walk. -/
def rolloutNext : Nat → State → State
  | 0, s => s
  | n + 1, s =>
    let r := s.tsk.rollout
    if !r.running || r.at_.isSome || !holdAdopted s then s
    else match (upTo 8).find? fun sl => bit r.selected sl && !bit r.done sl with
      | none => modRoll (fun r => { r with running := false }) s
      | some sl =>
        match ((upTo 3).map (3 * sl + ·)).find? fun k => !bit r.clusters k with
        | none =>
          let s := modRoll (fun r => { r with done := r.done + 2 ^ sl }) s
          let s := modTsk (fun k => { k with switched := mset 0 k.switched sl (r.slot + 1) }) s
          rolloutNext n (raise (tskSrc sl 3) evFwSliceDone sl 0 0 0 s)
        | some k =>
          if passedOver s k then rolloutNext n (modRoll (fun r => { r with clusters := r.clusters + 2 ^ k }) s)
          else
            let s := modRoll (fun r => { r with at_ := some k, since := s.now }) s
            let s := modCluster k (fun c => { c with fw := if c.fw = 5 then 2 else 1 }) s
            checkServed sl s

/-- The steps a rollout's walk can take. -/
def rollSteps : Nat := 40

/-- The rollout stops at a cluster, which goes back to its old image (R280). -/
def rolloutFail (k : Nat) (s : State) : State :=
  let s := modCluster k (fun c => { c with fw := if c.isram = [] then 5 else 0 }) s
  let s := modRoll (fun r => { r with running := false, failed := true, at_ := none }) s
  checkServed (k / 3) (raise (tskSrc (k / 3) 4) evFwRolloutFail (k / 3) (k % 3) 0 0 s)

/-- The slices a mask selects. -/
def maskSlices (mask : Nat) : List Nat := (upTo 8).filter (bit mask ·)

/-- FW_SWITCH (R280). -/
def runFwSwitch (slot mask drainUs : Nat) (_ : Nat × Nat) (s : State) : CmdOut × State :=
  let ver := imageHdr s slot 8 4
  let min := imageHdr s slot 12 4
  let running := ((maskSlices mask).flatMap fun sl => (upTo 3).map (3 * sl + ·)).filter fun k => (cluster s k).fw ≤ 2
  if 2 ≤ slot ∨ (maskSlices mask).any (fun sl => !hasSlice s.part sl) ∨ !mget false s.tsk.slotValid slot
      ∨ s.tsk.rollout.running
      ∨ running.any (fun k => decide ((cluster s k).version < min) || decide (ver < (cluster s k).minVersion)) then (.fail 10, s)
  else
    let s := modRoll (fun _ => { running := true, selected := mask % 256, slot := slot
                                 drainUs := if drainUs = 0 then 1000 else drainUs }) s
    (.ok, rolloutNext rollSteps s)

/-- ROLLOUT_CLUSTER_DRAINED: no core of the cluster holds a task; its cores are reset, core scratch and cluster SRAM are
zeroed, and the copy begins. -/
def clusterDrained (s : State) : State :=
  match s.tsk.rollout.at_ with
  | some k =>
    if s.tsk.rollout.running && decide ((cluster s k).fw = 1) && clusterIdle s k && holdAdopted s then
      each ((upTo 8).map (8 * k + ·)) resetCore (modCluster k (fun c => { c with fw := 2, shared := [] }) s)
    else s
  | none => s

/-- DRAIN_US_EXPIRY: a core of the cluster still holds a task after drain_us. -/
def drainExpiry (s : State) : State :=
  match s.tsk.rollout.at_ with
  | some k =>
    if s.tsk.rollout.running && decide ((cluster s k).fw = 1) && !clusterIdle s k && holdAdopted s
        && decide (s.tsk.rollout.since + s.tsk.rollout.drainUs * 10 ^ 6 ≤ s.now) then rolloutFail k s
    else s
  | none => s

/-- ROLLOUT_LOAD_END: the copy into the cluster's instruction SRAM ended; it read an uncorrectable word in both mirror
copies when it is not readable, or where one is known already (R395). -/
def rolloutLoadEnd (readable : Bool) (s : State) : State :=
  match s.tsk.rollout.at_ with
  | some k =>
    if s.tsk.rollout.running && decide ((cluster s k).fw = 2) && holdAdopted s then
      if readable && !mirrorLost s (imageSlot s.tsk.rollout.slot + 64) (imageHdr s s.tsk.rollout.slot 0 4) then
        let s := loadImage k s.tsk.rollout.slot (modCluster k (fun c => { c with shared := [] }) s)
        rolloutNext rollSteps (modRoll (fun r => { r with at_ := none, clusters := r.clusters + 2 ^ k }) s)
      else rolloutFail k s
    else s
  | none => s

/-- FW_STAGE. -/
def execFwStage (h : Hdr) (m : FormM) (s : State) : Out := .next (command (.fwStage h m) (runFwStage m) s)
/-- FW_SWITCH. -/
def execFwSwitch (h : Hdr) (slot mask drainUs : Nat) (s : State) : Out :=
  .next (command (.fwSwitch h slot mask drainUs) (runFwSwitch slot mask drainUs) s)
/-- ROLLOUT_CLUSTER_DRAINED. -/
def execRolloutClusterDrained (s : State) : Out := .next (clusterDrained s)
/-- DRAIN_US_EXPIRY. -/
def execDrainUsExpiry (s : State) : Out := .next (drainExpiry s)
/-- ROLLOUT_LOAD_END. -/
def execRolloutLoadEnd (readable : Bool) (s : State) : Out := .next (rolloutLoadEnd readable s)

end Sys2Proof.Machine
end

