-- ==== Sys2Proof/Machine/Custodian.lean ====
section
/-! DEFINITION. The custodians and the string (R445–R456): taking and releasing the string, checkpoints, adoption, actuator
writes, preload and handover. -/

namespace Sys2Proof.Machine

/-- COLD: held in reset with its self-test passed (R456). -/
def csCold : Nat := 0
/-- SELFTEST. -/
def csSelf : Nat := 1
/-- LOADING. -/
def csLoading : Nat := 2
/-- READY, preloaded. -/
def csReady : Nat := 3
/-- TAKING. -/
def csTaking : Nat := 4
/-- HOLDER. -/
def csHolder : Nat := 5
/-- FAILED. -/
def csFailed : Nat := 6

/-- The number of a custodian: 1 CUS-A, 2 CUS-B. -/
def cusNo (b : Bool) : Nat := if b then 2 else 1

/-- A custodian's state. -/
def cusState (s : State) (who : Nat) : Nat := if who = 1 then s.cus.aState else s.cus.bState

/-- Set a custodian's state. -/
def setCusState (who v : Nat) (s : State) : State :=
  modCus (fun c => if who = 1 then { c with aState := v } else { c with bState := v }) s

/-- The other custodian. -/
def otherCus (who : Nat) : Nat := 3 - who

/-- The event source of a custodian (R454). -/
def cusSrc (who : Nat) : Nat := 0x03F + who

/-- Count in CUS_CNT. -/
def cusCnt (i : Nat) (s : State) : State := cntInc 0x0C82 0 i s

/-- COLD or READY: it can take the string (R446, R450). -/
def canTake (s : State) (who : Nat) : Bool := decide (cusState s who = csCold) || decide (cusState s who = csReady)

/-- The custodian that first_b names (R446). -/
def firstCus (s : State) : Nat := if cfgBit s .cusCfg 8 then 2 else 1

/-! ### Checkpoints (R448, R449) -/

/-- The housekeeping state: the positions of the flow sweeps, the ageing sweeps and the patrol scrubs, and the settings of
the actuators. -/
def positions (s : State) : List Nat :=
  (upTo 8).map (fun sl => (slice s sl).sweepPos) ++ (upTo 8).map (fun sl => mget 0 s.fwd.agePos sl)
    ++ ((upTo 12).map fun r => mget 0 (stack s (r / 3)).scrub (r % 3)) ++ (upTo 7).map fun i => mget 0 s.cus.actuators i

/-- The settings of the actuators in a checkpoint's body. -/
def bodyActuators (body : List Nat) : Map Nat := (upTo 7).foldl (fun m i => mset 0 m i (nth 0 body (28 + i))) []

/-- Set the positions from a checkpoint's body; an empty body starts each at its beginning. -/
def setPositions (body : List Nat) (s : State) : State :=
  let s := each (upTo 8) (fun sl t => modSlice sl (fun x => { x with sweepPos := nth 0 body sl }) t) s
  let s := each (upTo 8) (fun sl t => modFwd (fun f => { f with agePos := mset 0 f.agePos sl (nth 0 body (8 + sl)) }) t) s
  each (upTo 12) (fun r t => modStack (r / 3) (fun k => { k with scrub := mset 0 k.scrub (r % 3) (nth 0 body (16 + r)) }) t) s

/-- A body as its bytes, padded to a multiple of 64. -/
def bodyBytes (body : List Nat) : List Byte := takeBytes (body.flatMap (leBytes 8)) 0 (ceilDiv (8 * body.length) 64 * 64)

/-- The crc of a checkpoint: CRC-64 with sequence folding, seq_base 0 and block number seq. -/
def ckptCrc (seq : Nat) (body : List Nat) : Nat := crcOf 0 (foldBytes (seq % 2 ^ 64) ++ bodyBytes body)

/-- The header of a checkpoint. -/
def ckptHeader (c : Ckpt) : List Byte :=
  leBytes 4 c.length ++ leBytes 4 c.gen ++ leBytes 8 c.seq ++ stampBytes c.stamp ++ leBytes 4 c.image ++ leBytes 8 c.crc
    ++ leBytes 23 0 ++ leBytes 1 c.valid

/-- The marks of a copy: complete, with its length within bounds and its crc right. -/
def ckptWhole (c : Ckpt) : Bool :=
  decide (c.valid = 0xA5) && decide (c.length % 64 = 0) && decide (c.length ≤ 2 ^ 21 - 64)
    && decide (c.crc = ckptCrc c.seq c.body)

/-- The copies present, in the six slots. -/
def ckptCopies (s : State) : List Ckpt := s.cus.ckpts.filterMap (·.2)

/-- A copy is valid: whole, and of the string's generation. -/
def ckptValid (s : State) (c : Ckpt) : Bool := ckptWhole c && decide (c.gen = s.cus.gen)

/-- The valid copy with the highest seq. -/
def newestCkpt (s : State) : Option Ckpt :=
  ((ckptCopies s).filter (ckptValid s)).foldl (fun b c => match b with
    | some x => if x.seq < c.seq then some c else b
    | none => some c) none

/-- Write a checkpoint of a generation to the next slot of the three places. -/
def writeCkpt (gen : Nat) (s : State) : State :=
  let body := positions s
  let seq := s.cus.seq + 1
  let c : Ckpt := ⟨(bodyBytes body).length, gen, seq, stampNow s, s.cus.version, ckptCrc seq body, 0xA5, body⟩
  let k := s.cus.slot % 2
  let s := modCus (fun x => { x with
    ckpts := [0, 1, 2].foldl (fun m p => mset none m (2 * p + k) (some c)) x.ckpts
    seq := seq, ckptAt := some s.now, slot := 1 - k, kick := s.now }) s
  cusCnt 6 (mirrorWrite (k * 2 ^ 26) (ckptHeader c ++ bodyBytes body) s)

/-- CHECKPOINT: the holder of an adopted hold writes one. -/
def checkpoint (s : State) : State := if holdAdopted s then writeCkpt s.cus.gen s else s

/-! ### Release (R447) -/

/-- The holder releases the string with a cause. -/
def releaseString (cause : Nat) (s : State) : State :=
  let who := s.cus.holder
  if who = 0 then s
  else
    let s := modCus (fun c => { c with holder := 0, adopted := false, usesPreload := false, releasedAt := s.now }) s
    let s := cusCnt cause (setCusState who csSelf s)
    guardCheck (raiseSev (if cause = 5 then 0 else 2) (cusSrc who) evCusRelease who cause 0 0 s)

/-- STRING_RELEASE, for the causes 1, 3, 4 and 5 that no other row detects. -/
def stringRelease (cause : Nat) (s : State) : State :=
  if cause = 1 ∨ cause = 3 ∨ cause = 4 ∨ (cause = 5 ∧ holdAdopted s) then
    releaseString cause (if cause = 5 then checkpoint s else s)
  else s

/-- CUS_WATCHDOG_EXPIRY: no kick for wdt_ms (R447). -/
def watchdogExpiry (s : State) : State :=
  if s.cus.holder ≠ 0 ∧ s.cus.kick + cfg1 s .cusCfg 7 0 * 10 ^ 9 ≤ s.now then releaseString 2 s else s

/-- SELF_TEST_END: the custodian becomes the cold standby, or FAILED; with both FAILED no hold can exist (R447, R450). -/
def selfTestEnd (who : Nat) (pass : Bool) (s : State) : State :=
  if cusState s who = csSelf then
    let s := setCusState who (if pass then csCold else csFailed) s
    if s.cus.aState = csFailed ∧ s.cus.bState = csFailed then raise 0x042 evCusNone 0 0 0 0 s else s
  else s

/-! ### Take and adoption (R446, R449, R450) -/

/-- The image a custodian would run: the one preloaded in it, else the boot image. -/
def cusImage (s : State) (who : Nat) : List Byte :=
  if cusState s who = csReady then s.cus.image else mget [] s.flash.images s.flash.image

/-- The boot image passes the boot ROM's check; a preloaded one has passed it (R489). For an image slot the device has not
written, which holds the image the part was shipped with, the end of the self-test carries the outcome (log 78). -/
def imageRuns (s : State) (who : Nat) : Bool :=
  decide (cusState s who = csReady) || decide (cusImage s who = []) || decide (imageCheck s.lcs (cusImage s who) = 0)

/-- It is this custodian's turn: of two that ask, and until the first release after a chip reset, the one first_b names
goes first (R446, R451). -/
def takesFirst (s : State) (who : Nat) : Bool :=
  decide (who = firstCus s) || (!canTake s (firstCus s)
    && (decide (0 < s.cus.releasedAt) || decide (cusState s (firstCus s) = csFailed)))

/-- Copies of an older generation are refused and counted, and reported once for each takeover; copies with a bad mark or
crc are counted. -/
def refuseCopies (s : State) : State :=
  let cs := ckptCopies s
  let bad := cs.filter fun c => !ckptWhole c
  let old := cs.filter fun c => ckptWhole c && decide (c.gen ≠ s.cus.gen)
  let s := cntAdd 0x0C82 0 7 old.length (cntAdd 0x0C82 0 8 bad.length s)
  if old = [] then s else raise 0x042 evCusCkptRefused 0 0 0 0 s

/-- STRING_TAKE: with the string FREE in both copies, a custodian that passed its self-test takes it with a provisional
generation and loads the newest valid checkpoint. -/
def stringTake (who : Nat) (s : State) : State :=
  if s.cus.holder = 0 ∧ !s.cus.fault ∧ !s.lcs.zeroising ∧ canTake s who ∧ takesFirst s who ∧ imageRuns s who then
    let pre := decide (cusState s who = csReady)
    let img := cusImage s who
    let s := modCus (fun c => { c with
      holder := who, adopted := false, prov := (c.gen + 1) % 2 ^ 32, usesPreload := pre, kick := s.now
      version := imageVersion img }) s
    let s := refuseCopies (cusCnt 0 (setCusState who csTaking s))
    match newestCkpt s with
    | some c =>
      setPositions c.body (modCus (fun x => { x with
        body := c.body, seq := Nat.max x.seq c.seq, actuators := bodyActuators c.body }) s)
    | none => setPositions [] (modCus (fun x => { x with body := [] }) (raise 0x042 evCusCkptNone 0 0 0 0 (cusCnt 9 s)))
  else s

/-- The image a takeover used is written to the boot flash's other image slot and made the boot image (R452). -/
def bootPreloaded (s : State) : State :=
  if s.cus.usesPreload then
    let k := 1 - s.flash.image % 2
    modCus (fun c => { c with image := [], usesPreload := false, preload := 0, cause := 0 })
      (modFlash (fun f => { f with images := mset [] f.images k s.cus.image, image := k }) s)
  else s

/-- The longest takeover since clear, in µs (R453). -/
def countTakeover (s : State) : State :=
  if s.cus.releasedAt = 0 then s
  else cntSet s 0x0C82 0 15 (Nat.max (cntGet s 0x0C82 0 15) ((s.now - s.cus.releasedAt) / 10 ^ 6))

/-- ADOPTION: the new holder writes its first checkpoint under the provisional generation, which adopts the hold; a rollout
resumes (R449, R450). -/
def adoption (s : State) : State :=
  if s.cus.holder ≠ 0 ∧ !s.cus.adopted then
    let s := writeCkpt s.cus.prov s
    let s := modCus (fun c => { c with gen := c.prov, adopted := true }) s
    let s := countTakeover (setCusState s.cus.holder csHolder s)
    rolloutNext rollSteps (guardCheck (bootPreloaded s))
  else s

/-! ### Actuators (R446) -/

/-- The number an actuator's setting is kept under. -/
def actuatorNo : Actuator → Nat
  | .scrubPacing => 0 | .ageing => 1 | .shadowCompare => 2 | .audit => 3 | .migration => 4 | .logPersist => 5 | .rollout => 6

/-- CUSTODIAN_ACTUATOR_WRITE: refused and counted unless it comes from the holder of an adopted hold. -/
def actuatorWrite (who : Nat) (act : Actuator) (value : Nat) (s : State) : State :=
  if s.cus.holder ≠ who then cusCnt 10 s
  else if !s.cus.adopted then cusCnt 11 s
  else modCus (fun c => { c with actuators := mset 0 c.actuators (actuatorNo act) value, kick := s.now }) s

/-- STRING_COPY_DISAGREE: no take is possible until a chip reset, and a present holder keeps its hold (R446). -/
def copyDisagree (s : State) : State :=
  if s.cus.fault then s else raise 0x042 evCusStringFault 0 0 0 0 (modCus (fun c => { c with fault := true }) s)

/-! ### Preload and handover (R452) -/

/-- The standby: the custodian that does not hold. -/
def standby (s : State) : Nat := otherCus s.cus.holder

/-- PRELOAD: accepted while the standby is COLD, else ignored and counted. -/
def preload (s : State) : State :=
  if s.cus.holder ≠ 0 ∧ cusState s (standby s) = csCold then
    modCus (fun c => { c with preload := 1, cause := 0 }) (setCusState (standby s) csLoading s)
  else cusCnt 14 s

/-- The address and length written for a preload. -/
def preloadAddr (s : State) : Nat := (stored s .cusPreloadHi).toNat * 2 ^ 32 + (stored s .cusPreloadLo).toNat
/-- The length. -/
def preloadLen (s : State) : Nat := (stored s .cusPreloadLen).toNat

/-- The range of HBM a preload reads, none when it is refused for range or region. -/
def preloadRange (s : State) : Option Nat :=
  let a := preloadAddr s
  let n := preloadLen s
  if a % 64 = 0 ∧ n % 64 = 0 ∧ 0 < n ∧ n ≤ 2 ^ 20 then
    match devRange s a n with
    | some (.hbm x) => some x
    | _ => none
  else none

/-- The cause a preload is refused with, 0 when it passes. -/
def preloadCause (crcOk readable : Bool) (s : State) : Nat :=
  match preloadRange s with
  | none => 3
  | some x =>
    if !readable || (firstPoison s x (preloadLen s)).isSome then 5
    else match imageCheck s.lcs (rdBytes s.mem x (preloadLen s)) with
      | 0 => if crcOk then 0 else 2
      | c => c

/-- PRELOAD_END: the standby becomes READY, or discards the image and returns to COLD. -/
def preloadEnd (crcOk readable : Bool) (s : State) : State :=
  match [1, 2].find? fun w => decide (cusState s w = csLoading) with
  | none => s
  | some w =>
    let c := preloadCause crcOk readable s
    if c = 0 then
      let img := rdBytes s.mem ((preloadRange s).getD 0) (preloadLen s)
      let s := modCus (fun c => { c with preload := 2, cause := 0, image := img }) (setCusState w csReady s)
      raise (cusSrc w) evCusPreloadDone 0 0 0 0 (cusCnt 12 s)
    else
      cusCnt 13 (modCus (fun x => { x with preload := 3, cause := c, image := [] }) (setCusState w csCold s))

/-- HANDOVER: the holder writes a final checkpoint and releases with cause 5; ignored and counted when no custodian is COLD
or READY. -/
def handover (s : State) : State :=
  if holdAdopted s ∧ canTake s (standby s) then releaseString 5 (checkpoint s) else cusCnt 14 s

/-- SELF_TEST_RETRY: re-runs the self-test of a FAILED custodian (R456). -/
def selfTestRetry (who : Nat) (s : State) : State := if cusState s who = csFailed then setCusState who csSelf s else s

/-- CUS_WATCHDOG_EXPIRY. -/
def execCusWatchdogExpiry (s : State) : Out := .next (watchdogExpiry s)
/-- STRING_RELEASE. -/
def execStringRelease (cause : Nat) (s : State) : Out := .next (stringRelease cause s)
/-- SELF_TEST_END. -/
def execSelfTestEnd (cusB : Bool) (pass : Bool) (s : State) : Out := .next (selfTestEnd (cusNo cusB) pass s)
/-- STRING_TAKE. -/
def execStringTake (cusB : Bool) (s : State) : Out := .next (stringTake (cusNo cusB) s)
/-- ADOPTION. -/
def execAdoption (s : State) : Out := .next (adoption s)
/-- CHECKPOINT. -/
def execCheckpoint (s : State) : Out := .next (checkpoint s)
/-- CUSTODIAN_ACTUATOR_WRITE. -/
def execCustodianActuatorWrite (cusB : Bool) (actuator : Actuator) (value : Nat) (s : State) : Out :=
  .next (actuatorWrite (cusNo cusB) actuator value s)
/-- STRING_COPY_DISAGREE. -/
def execStringCopyDisagree (s : State) : Out := .next (copyDisagree s)
/-- PRELOAD_END. -/
def execPreloadEnd (crcOk readable : Bool) (s : State) : Out := .next (preloadEnd crcOk readable s)

end Sys2Proof.Machine
end

