-- ==== Sys2Proof/Machine/Domain.lean ====
section
/-! DEFINITION. The power domains: DOMAIN_CTL, their stopping, faults and re-initialisation (R500–R507), with what each
does to ports, frames, halves and tasks (R178, R179, R220, R244, R284, R329). -/

namespace Sys2Proof.Machine

/-- The kinds of domain. -/
inductive DomKind where
  | octet (k : Nat)
  | pipe (p : Nat)
  | slice (sl : Nat)
  | cluster (c : Nat)
deriving DecidableEq, Repr

/-- A domain's kind and unit (R500). -/
def domKind (n : Nat) : DomKind :=
  if n < 64 then .octet n else if n < 80 then .pipe (n - 64) else if n < 88 then .slice (n - 80) else .cluster (n - 88)

/-- ON. -/
def dsOn : Nat := 0
/-- STOPPING. -/
def dsStopping : Nat := 1
/-- OFF. -/
def dsOff : Nat := 2
/-- QUARANTINE. -/
def dsQuar : Nat := 3
/-- INIT. -/
def dsInit : Nat := 4

/-- A domain event: param 0 the domain, param 1 its generation and the fault cause (R514). -/
def domEvent (n code cause : Nat) (s : State) : State := raise 0x011 code n ((domain s n).gen + 256 * cause) 0 0 s

/-- Messages of an old generation are discarded and counted (R502, R516). -/
def countDiscards (n : Nat) (s : State) : State := cntAdd 0x0D82 0 3 n s

/-! ### Frames of a pipeline -/

/-- An owner tag on a die names a pipeline (R292). -/
def tagNames (p die tag : Nat) : Bool :=
  let here := decide (die = dieOfPipe p)
  let i := tag % 4096
  match tag / 4096 with
  | 1 | 4 | 7 | 8 => here && decide (i = p % 4)
  | 2 => (here && decide (i / 256 = p % 4)) || decide (i / 16 % 16 = p)
  | 3 => here && decide (i / 16 / 32 = p % 4)
  | 6 => (here && decide (i / 16 = p % 4)) || decide (i % 16 = p)
  | _ => false

/-- The frames that hold a cell under a tag that names a pipeline. -/
def framesNaming (s : State) (p : Nat) : List Nat :=
  ((s.buf.cells.filter fun c => tagNames p (cellDie c.1) c.2.tag).map fun c => c.2.pkt).eraseDups

/-- Drop the punts of a frame, giving their ring entries and buffers back (R76). -/
def dropPunts (k : Nat) (s : State) : State :=
  let s := modHif (fun h => { h with heldPunts := h.heldPunts.filter fun u => u.pkt ≠ k }) s
  each (upTo 64) (fun q t => each ((pool t q).wait.filter fun u => u.pkt = k) (fun u t =>
    puntAbandon q u (modPool q (fun x => { x with wait := x.wait.filter fun v => v.pkt ≠ k }) t)) t) s

/-- Drop a frame at a pipeline fault, counted in PWR_CNT (R506). -/
def faultDrop (k : Nat) (s : State) : State :=
  if (pktOf s k).isNone then s else dropEarly k none (dropPunts k (cntInc 0x0D82 0 4 s))

/-- The lane a scheduler node belongs to, within its die (R326). -/
def nodeLane (node : Nat) : Nat := if node < 2048 then node / 16 else if node < 3072 then (node - 2048) / 8 else node - 3072

/-- Everything a pipeline's domain holds is zero-filled (R500, R502). -/
def clearPipe (p : Nat) (s : State) : State :=
  let mine (lane : Nat) : Bool := decide (lane / 32 = p)
  let node (k : Nat) : Bool := mine (128 * (k / 4096) + nodeLane (k % 4096))
  let cmds := s.cls.updates.flatMap fun e => if e.1 / 8 = p then e.2.filterMap (·.cmd) else []
  let s := { s with pipes := mset {} s.pipes p {} }
  let s := modReplicas p (fun _ => []) (modWaitings p (fun _ => []) s)
  let s := modCls (fun c => { c with
    objs := c.objs.filter fun e =>
      let x := e.1 / 2 ^ 21
      !(decide (x / 16 / 256 = 1) && decide (x % 16 = p))
        && !(decide (x / 16 = 0x0902) && mine (128 * (x % 16) + nodeLane (e.1 % 2 ^ 20)))
    sram := c.sram.filter fun e => e.1 / 16384 ≠ p
    tcam := c.tcam.filter fun e => e.1 / 16384 ≠ p
    suspect := c.suspect.filter fun e => e.1 / 16384 ≠ p
    epoch := c.epoch.filter fun e => e.1 ≠ p
    updates := c.updates.filter fun e => e.1 / 8 ≠ p
    scrub := c.scrub.filter fun e => e.1 / 8 ≠ p }) s
  let s := modFab (fun f => { f with
    voq := f.voq.filter fun e => e.1 / 256 ≠ p
    rr := f.rr.filter fun e => e.1 / 16 ≠ p }) s
  let s := modEgs (fun g => { g with
    queues := g.queues.filter fun e => !mine (e.1 / 16)
    launch := g.launch.filter fun e => !mine e.1
    vport := g.vport.filter fun e => !mine e.1
    vgroup := g.vgroup.filter fun e => !mine (e.1 / 8)
    lastQ := g.lastQ.filter fun e => !mine (e.1 / 16)
    lastG := g.lastG.filter fun e => !mine (e.1 / 8)
    headQ := g.headQ.filter fun e => !mine (e.1 / 16)
    headG := g.headG.filter fun e => !mine (e.1 / 8)
    peak := g.peak.filter fun e => !node e.1
    comm := g.comm.filter fun e => !node e.1
    newShaper := g.newShaper.filter fun e => !node e.1
    gates := g.gates.filter fun e => !mine e.1
    sending := g.sending.filter fun e => !mine e.1
    samples := g.samples.filter fun e => !mine (e.1 / 16) }) s
  let s := modBuf (fun b => { b with session := b.session.filter fun e => e.1 / 256 ≠ p }) s
  let s := modFwd (fun f => { f with sent := f.sent.filter fun e => e.1 ≠ p }) s
  each cmds.eraseDups (fun a t => finish a 9 0 0 0 t) s

/-- Every frame of a pipeline is lost: those in its holding buffer and those that hold a cell under a tag that names it. -/
def dropPipeFrames (p : Nat) (s : State) : State :=
  each ((pipe s p).intake ++ framesNaming s p).eraseDups faultDrop s

/-- Requests and reports that a pipeline of an old generation sent are discarded (R502). -/
def discardFromPipe (p : Nat) (s : State) : State :=
  each (slicesOf s.part) (fun sl t =>
    let x := slice t sl
    let n := (x.reqs.filter fun q => q.pipe = p).length + (x.backends.filter fun q => q.pipe = p).length
    countDiscards n (modSlice sl (fun y => { y with
      reqs := y.reqs.filter fun q => q.pipe ≠ p, backends := y.backends.filter fun q => q.pipe ≠ p }) t)) s

/-- The ports of an octet go down (R329). -/
def octetDown (k : Nat) (s : State) : State := each (portsOfOctet s k) portDown s

/-- Learn requests from an octet's ports are of an old generation (R502). -/
def discardFromOctet (k : Nat) (s : State) : State :=
  each (slicesOf s.part) (fun sl t =>
    let q := mget [] t.fwd.learnQ sl
    let old (m : LearnMsg) : Bool := match m with
      | .req _ _ tgt => decide (tgt / 2 ^ 10 = 0) && decide (tgt / 8 = k)
      | .hit _ _ _ => false
    countDiscards (q.filter old).length (modFwd (fun f => { f with learnQ := mset [] f.learnQ sl (q.filter fun m => !old m) }) t)) s

/-! ### Slices -/

/-- Everything a slice's domain holds (R500). -/
def clearSlice (sl : Nat) (s : State) : State :=
  let x := slice s sl
  let s := modSlice sl (fun _ => { servesOwn := x.servesOwn, servesPartner := x.servesPartner }) s
  let s := modFwd (fun f => { f with learnQ := mset [] f.learnQ sl [], agePos := mset 0 f.agePos sl 0, ageAt := mset 0 f.ageAt sl s.now }) s
  modTsk (fun t => { t with
    slots := t.slots.filter fun e => e.1 / 65536 ≠ sl
    locks := t.locks.filter fun e => e.1 / 16384 ≠ sl
    vtime := mset 0 t.vtime sl 0
    last := t.last.filter fun e => e.1 / 64 ≠ sl
    readyCount := mset 0 t.readyCount sl 0
    items := mset [] t.items sl [] }) s

/-- The owner slice of a decision on its way to a die (R147). -/
def l2MsgOwner (s : State) : L2Msg → Nat
  | .put _ img => l2Owner s (l2Fid img) (l2Mac img)
  | .hitClear _ f m => l2Owner s f m
  | .delete _ f m => l2Owner s f m

/-- Messages that a slice of an old generation sent are discarded (R502). -/
def discardFromSlice (sl : Nat) (s : State) : State :=
  let s := each (pipelines s.part) (fun p t => countDiscards (chan t sl p).length (modChan sl p (fun _ => []) t)) s
  each (dies s.part) (fun d t =>
    let q := mget [] t.fwd.bcast d
    let old (m : L2Msg) : Bool := decide (l2MsgOwner t m = sl)
    countDiscards (q.filter old).length (modFwd (fun f => { f with bcast := mset [] f.bcast d (q.filter fun m => !old m) }) t)) s

/-- The packets of a slice's tasks and of its held items are dropped (R284). -/
def dropTasks (sl : Nat) (s : State) : State :=
  let tasks := (sliceTasks s sl).map (·.2) ++ mget [] s.tsk.items sl
  let s := each tasks (fun k t => if k.pkt.isSome then dropTaskPkt k (tskCnt sl 5 t) else t) s
  each ((upTo 24).map (24 * sl + ·)) (fun c t =>
    let k := coreOf t c
    if k.task.isSome || k.preempted.isSome || k.coming.isSome then
      resetCore c (modCore c (fun x => { x with task := none, preempted := none, coming := none, window := [], savedWindow := [] }) t)
    else t) s

/-- A half's records leave a pipeline's replicas (R179). -/
def dropReplicas (hf : Nat) (s : State) : State :=
  each (pipelines s.part) (fun p t => modReplicas p (fun l => l.filter fun r => recHalf r.record ≠ hf) t) s

/-- The unanswered requests for a half go out again, to the slice that serves it now (R179). -/
def resendHalf (hf : Nat) (s : State) : State :=
  each (pipelines s.part) (fun p t =>
    each ((waitings t p).filter fun w => homeHalf t w.req.h = hf) (fun w t => resendReq p w t) t) s

/-- Squash every unconfirmed speculative pass whose owner was a slice, with cause SLICE_LOST (R220); one that acted on an
answer is not speculative (R232). -/
def squashOwner (sl : Nat) (s : State) : State :=
  each (pipelines s.part) (fun p t =>
    each (((pipe t p).passes.filter fun q => decide (q.st = .spec) && !q.auth && decide (q.owner = sl)).map fun q => (q.pkt, q.no))
      (fun e t => match passOf t p e.1 e.2 with
        | some q => if q.st = .spec then squashChain p e.1 e.2 4 t else t
        | none => t) t) s

/-- Commands that wait on a lost slice whose halves no slice serves complete with DOMAIN_DOWN. -/
def failSliceCmds (x : Slice) (s : State) : State :=
  let l := x.writes.filterMap (·.cmd) ++ x.acks.map fun a => (a.2.1, a.2.2)
  each l.eraseDups (fun a t => finish a 9 0 0 0 t) s

/-- The acknowledgements that invalidations of a lost slice still in its channels ask for: with the replicas of its halves
discarded they are applied (R179, R214). -/
def lostAcks (s : State) (sl : Nat) : List (Nat × Nat × Nat) :=
  (pipelines s.part).flatMap fun p => (chan s sl p).filterMap fun m => match m with
    | .inval _ _ _ (some a) => some (p, a.1, a.2)
    | _ => none

/-- What a slice that takes a lost slice's halves takes with them: all but the losses that R179 bounds. Requests of pipelines
come again from them; an AGE that a pull had begun is asked again. -/
def inheritSlice (sl : Nat) (x : Slice) (s : State) : State :=
  let acks := lostAcks s sl
  modSlice (partner sl) (fun y => { y with
    writes := y.writes ++ x.writes.map fun w => { w with answer := [] }
    acks := y.acks ++ x.acks ++ acks
    cts := y.cts ++ x.cts
    peers := y.peers ++ x.peers
    releases := y.releases ++ x.releases
    blockFrees := y.blockFrees ++ x.blockFrees
    deltas := y.deltas ++ x.deltas
    exports := y.exports ++ x.exports
    wk := y.wk ++ x.pulls.filterMap (·.ask) ++ x.wk
    tombs := y.tombs ++ x.tombs.map fun t => (t.1, y.sweeps) }) s

/-- A slice is lost without a transfer: its partner takes its halves from the state in HBM (R179, R220, R284). -/
def loseSlice (sl : Nat) (s : State) : State :=
  let x := slice s sl
  let q := partner sl
  let ok := domWorks s (domSlice q)
  let s := each (x.hot.filter fun l => l.life = lifeNew) (fun l t => removeNew sl l.record 2 t) s
  let s := dropTasks sl s
  let s := if ok then inheritSlice sl (slice s sl) s else failSliceCmds x s
  let s := modSlice q (fun y => { y with
    transfer := .none
    servesOwn := y.servesOwn || (ok && x.servesPartner)
    servesPartner := y.servesPartner || (ok && x.servesOwn) }) s
  let s := modSlice sl (fun y => { y with servesOwn := false, servesPartner := false }) s
  let s := squashOwner sl s
  let hs := (if x.servesOwn then [sl] else []) ++ (if x.servesPartner then [q] else [])
  let s := each hs (fun h t => resendHalf h (dropReplicas h t)) s
  let s := discardFromSlice sl (clearSlice sl s)
  raise (fleSrc q 0) evFlowSliceLost sl 0 0 0 s

/-! ### Clusters -/

/-- A cluster's memories and cores are emptied (R500). -/
def clearCluster (c : Nat) (s : State) : State :=
  each ((upTo 8).map (8 * c + ·)) (fun i t => modCore i (fun _ => {}) t) (modCluster c (fun _ => {}) s)

/-- A rollout that works on a cluster passes it over when it loses power (R280). -/
def rolloutPast (c : Nat) (s : State) : State :=
  if s.tsk.rollout.running ∧ s.tsk.rollout.at_ = some c then
    rolloutNext rollSteps (modRoll (fun r => { r with at_ := none, clusters := r.clusters + 2 ^ c }) s)
  else s

/-- Each task RUNNING or PREEMPTED on a cluster's cores ends as CORE_FAULT (R506). -/
def faultCluster (c : Nat) (s : State) : State :=
  each ((upTo 8).map (8 * c + ·)) (fun i t =>
    let k := coreOf t i
    let t := match k.preempted with
      | some p => faultOnCore i p t
      | none => t
    let t := match k.coming with
      | some p => faultOnCore i p t
      | none => t
    match (coreOf t i).task with
    | some p => faultOnCore i p t
    | none => t) s

/-! ### State changes -/

/-- Counters of a domain restart from zero when it returns to ON (R502). -/
def clearCounters (n : Nat) (s : State) : State :=
  match domKind n with
  | .octet _ => s
  | .pipe p => cntClear (fun o u => decide (objUnitKind o = 2) && decide (u = p)) s
  | .slice sl => cntClear (fun o u => decide (objUnitKind o = 3) && decide (u = sl)) s
  | .cluster c => each (upTo 32) (fun i t => cntSet t 0x0703 (c / 3) (32 * (c % 3) + i) 0) s

/-- The state of a domain goes with its power (R500, R502). -/
def clearDomain (n : Nat) (s : State) : State :=
  match domKind n with
  | .octet k => discardFromOctet k s
  | .pipe p => discardFromPipe p (clearPipe p s)
  | .slice sl => discardFromSlice sl (clearSlice sl s)
  | .cluster c => rolloutPast c (checkServed (c / 3) (clearCluster c s))

/-- A domain enters QUARANTINE with its generation incremented (R502, R506). -/
def enterQuar (n cause : Nat) (fault : Bool) (s : State) : State :=
  let s := modDomain n (fun d => { d with
    state := dsQuar, gen := (d.gen + 1) % 256, fault := fault, cause := if fault then cause else d.cause, auto := false }) s
  domEvent n evPwrDomainQuarantine (if fault then cause else 0) s

/-- Power is removed (R504). -/
def powerOff (n : Nat) (s : State) : State :=
  let s := modDomain n (fun d => { d with state := dsOff, fault := false, auto := false }) s
  domEvent n evPwrDomainOff 0 (clearDomain n s)

/-- Re-initialisation begins (R505). -/
def beginInit (n src : Nat) (auto : Bool) (s : State) : State :=
  modDomain n (fun d => { d with state := dsInit, src := src, auto := auto }) s

/-! ### DOMAIN_CTL (R503, R504) -/

/-- The domain a DOMAIN_CTL names: one present octet, pipeline, slice or cluster. -/
def ctlDomain (s : State) (h : Hdr) : Option Nat :=
  let n : Option Nat :=
    if h.kind = 4 ∧ h.unit < 64 then some h.unit else if h.kind = 2 ∧ h.unit < 16 then some (64 + h.unit)
    else if h.kind = 3 ∧ h.unit < 8 then some (80 + h.unit) else if h.kind = 7 ∧ h.unit < 24 then some (88 + h.unit) else none
  n.filter (hasDomain s.part)

/-- Result word 0: the domain's state and generation. -/
def ctlWord (s : State) (n : Nat) : Nat := (domain s n).state % 8 + (domain s n).gen * 256

/-- DOMAIN_CTL completes now. -/
def ctlDone (n st : Nat) (s : State) : CmdOut × State :=
  (.done st 0 (ctlWord s n) 0, if st = 0 then cntInc 0x0D82 0 2 s else s)

/-- A DOMAIN_CTL in flight completes. -/
def ctlFinish (n st : Nat) (e : InFlight) (s : State) : State :=
  finish (e.ring, e.index) st 0 (ctlWord s n) 0 (if st = 0 then cntInc 0x0D82 0 2 s else s)

/-- Run a DOMAIN_CTL action on the domain named. -/
def onDomain (h : Hdr) (f : Nat → State → CmdOut × State) (s : State) : CmdOut × State :=
  match ctlDomain s h with
  | none => (.fail 10, s)
  | some n => f n s

/-- OFF is refused: a pipeline with an octet that is not OFF, a slice whose partner is not ON. -/
def offRefused (s : State) (n : Nat) : Bool :=
  match domKind n with
  | .pipe p => (upTo 4).any fun i => decide ((domain s (4 * p + i)).state ≠ dsOff)
  | .slice sl => !domOn s (domSlice (partner sl))
  | _ => false

/-- ON is refused: an octet whose pipeline is OFF, a cluster whose slice is OFF. -/
def onRefused (s : State) (n : Nat) : Bool :=
  match domKind n with
  | .octet k => decide ((domain s (domPipe (k / 4))).state = dsOff)
  | .cluster c => decide ((domain s (domSlice (c / 3))).state = dsOff)
  | _ => false

/-- A source pipeline that cannot be copied from (R505). -/
def srcRefused (s : State) (n src : Nat) : Bool :=
  match domKind n with
  | .pipe p => decide (src ≠ 0xFF) && (decide (16 ≤ src) || decide (src = p) || !hasPipe s.part src || !domOn s (domPipe src))
  | _ => false

/-- The next half of a stopping slice starts to move, when none is moving (R178). -/
def startTransfer (sl : Nat) (s : State) : State :=
  let x := slice s sl
  if x.transfer ≠ .none ∨ (slice s (partner sl)).transfer ≠ .none then s
  else if x.servesOwn then modSlice sl (fun y => { y with transfer := .leaving true }) s
  else if x.servesPartner then modSlice sl (fun y => { y with transfer := .leaving false }) s
  else s

/-- The clusters of a slice that are not OFF. -/
def poweredClusters (s : State) (sl : Nat) : List Nat :=
  ((upTo 3).map (3 * sl + ·)).filter fun c => decide ((domain s (domCluster c)).state ≠ dsOff)

/-- A domain begins to stop (R504, R284). -/
def beginStop (n : Nat) (s : State) : State :=
  let s := modDomain n (fun d => { d with state := dsStopping }) s
  match domKind n with
  | .octet k => octetDown k s
  | .pipe _ => s
  | .slice sl => startTransfer sl s
  | .cluster c => checkServed (c / 3) s

/-- DOMAIN_CTL QUERY. -/
def runCtlQuery (h : Hdr) (_ : Nat × Nat) (s : State) : CmdOut × State := onDomain h (fun n s => ctlDone n 0 s) s

/-- DOMAIN_CTL OFF. -/
def runCtlOff (h : Hdr) (_ : Nat × Nat) (s : State) : CmdOut × State :=
  onDomain h (fun n s =>
    if (domain s n).state ≠ dsOn ∨ offRefused s n then ctlDone n 10 s else (.go .domain, beginStop n s)) s

/-- DOMAIN_CTL ON: power is applied and the domain enters QUARANTINE. -/
def runCtlOn (h : Hdr) (_ : Nat × Nat) (s : State) : CmdOut × State :=
  onDomain h (fun n s =>
    if (domain s n).state ≠ dsOff ∨ onRefused s n then ctlDone n 10 s else ctlDone n 0 (enterQuar n 0 false s)) s

/-- DOMAIN_CTL REINIT. -/
def runCtlReinit (h : Hdr) (src : Nat) (_ : Nat × Nat) (s : State) : CmdOut × State :=
  onDomain h (fun n s =>
    if (domain s n).state ≠ dsQuar ∨ onRefused s n ∨ srcRefused s n src then ctlDone n 10 s
    else (.go .domain, beginInit n src false s)) s

/-- DOMAIN_CTL RESTART: OFF, then ON, then REINIT. -/
def runCtlRestart (h : Hdr) (src : Nat) (_ : Nat × Nat) (s : State) : CmdOut × State :=
  onDomain h (fun n s =>
    let st := (domain s n).state
    if (st ≠ dsOn ∧ st ≠ dsQuar) ∨ offRefused s n ∨ srcRefused s n src then ctlDone n 10 s
    else (.go .domain, if st = dsOn then beginStop n s else s)) s

/-- The DOMAIN_CTL that runs on a domain. -/
def ctlOn (s : State) (n : Nat) : Option InFlight :=
  s.hif.inflight.find? fun e => decide (e.wait = .domain) && (match e.cmd with
    | .domainCtlOff h | .domainCtlOn h | .domainCtlReinit h _ | .domainCtlRestart h _ => decide (ctlDomain s h = some n)
    | _ => false)

/-! ### Stopping -/

/-- A stopping slice's halves have moved. -/
def halvesMoved (s : State) (sl : Nat) : Bool :=
  !(slice s sl).servesOwn && !(slice s sl).servesPartner && decide ((slice s sl).transfer = .none)

/-- A stopping slice moves on: its next half, or, once both have moved, its clusters stop, what is left of its tasks is
cancelled, and the items it held make tasks at its partner (R178, R284). -/
def sliceStops (sl : Nat) (s : State) : State :=
  if !halvesMoved s sl then startTransfer sl s
  else
    let s := each ((poweredClusters s sl).filter fun c => (domain s (domCluster c)).state = dsOn) (fun c t =>
      modDomain (domCluster c) (fun d => { d with state := dsStopping }) t) s
    let s := each (sliceTasks s sl) (fun e t => (cancelTask sl e.1 t).2) s
    let held := mget [] s.tsk.items sl
    each held (makeTask (partner sl)) (modTsk (fun t => { t with items := mset [] t.items sl [] }) s)

/-- Nothing that a slice whose halves have moved still owes another unit is under way: answers, invalidations and final stamps in
its channels, and acknowledgements (R178, R219). -/
def sliceQuiet (s : State) (sl : Nat) : Bool :=
  decide ((slice s sl).acks = []) && (pipelines s.part).all fun p => (chan s sl p).all fun m => match m with
    | .stamp _ | .pull _ => true
    | _ => false

/-- A stopping domain's preconditions are met (R504, R244, R284). -/
def stopReady (s : State) (n : Nat) : Bool :=
  if (domain s n).state = dsQuar then true
  else match domKind n with
    | .octet _ => true
    | .pipe p =>
      let x := pipe s p
      !(x.passes.any fun q => decide (q.st = .waiting) || decide (q.st = .spec) || decide (q.st = .squashed))
        && decide (x.yoyo = []) && decide (x.intake = []) && decide (framesNaming s p = [])
    | .slice sl => halvesMoved s sl && sliceQuiet s sl && (poweredClusters s sl).all (clusterIdle s)
    | .cluster c => clusterIdle s c

/-- An abort before the commit point gives the domain back its earlier power state (R444, R284). -/
def restoreDomain (n : Nat) (s : State) : State :=
  if (domain s n).state ≠ dsStopping then s
  else
    let s := modDomain n (fun d => { d with state := dsOn }) s
    match domKind n with
    | .slice sl =>
      let q := partner sl
      let moving := decide ((slice s sl).transfer = .leaving true)
      let s := modSlice sl (fun x => { x with transfer := .none }) s
      let s := if !moving && !(slice s sl).servesOwn && decide ((slice s q).transfer = .none) then
          modSlice q (fun x => { x with transfer := .leaving false }) s else s
      let s := each (poweredClusters s sl) (fun c t =>
        modDomain (domCluster c) (fun d => if d.state = dsStopping then { d with state := dsOn } else d) t) s
      checkServed sl (takeItems sl (mget [] s.tsk.items sl).length s)
    | .cluster c => checkServed (c / 3) s
    | _ => s

/-- The commit point of OFF and RESTART: power is removed, a slice's clusters with it (R284). -/
def stopCommit (n : Nat) (s : State) : State :=
  match domKind n with
  | .slice sl => powerOff n (each (poweredClusters s sl) (fun c t => powerOff (domCluster c) t) s)
  | _ => powerOff n s

/-- What an aborted DOMAIN_CTL leaves: QUARANTINE where power has been applied anew, else the earlier power state (R444,
R504). -/
def ctlUndo (n : Nat) (e : InFlight) (s : State) : State :=
  match e.cmd with
  | .domainCtlRestart _ _ =>
    if (domain s n).state = dsInit then modDomain n (fun d => { d with state := dsQuar }) s else restoreDomain n s
  | .domainCtlReinit _ _ => modDomain n (fun d => { d with state := dsQuar }) s
  | _ => restoreDomain n s

/-- An abort that a DOMAIN_CTL's latch holds; a RESTART past its commit point completes with ABORT_LATE (R444, R504). -/
def ctlAbort (n : Nat) (e : InFlight) (s : State) : State :=
  let late := match e.cmd with
    | .domainCtlRestart _ _ => decide ((domain s n).state = dsInit)
    | _ => false
  ctlFinish n (if late then 0 else 1) e (ctlUndo n e s)

/-- DOMAIN_STOP_DONE: the preconditions are met, and power is removed. -/
def domainStopDone (n : Nat) (s : State) : State :=
  if !hasDomain s.part n then s
  else match ctlOn s n with
    | none => s
    | some e =>
      let st := (domain s n).state
      if st ≠ dsStopping ∧ st ≠ dsQuar then s
      else if e.abort then asActor (e.ring, e.index) (ctlAbort n e) s
      else
        let s := match domKind n with
          | .slice sl => if st = dsStopping then sliceStops sl s else s
          | _ => s
        if !stopReady s n then s
        else
          let a := (e.ring, e.index)
          match e.cmd with
          | .domainCtlOff _ => asActor a (fun s => ctlFinish n 0 e (stopCommit n s)) s
          | .domainCtlRestart _ src => asActor a (fun s => beginInit n src false (enterQuar n 0 false (stopCommit n s))) s
          | _ => s

/-! ### Re-initialisation (R505) -/

/-- Copy the rule-set objects, the current bank and the match entries of a pipeline that is ON. -/
def copyPipe (src dst : Nat) (s : State) : State :=
  modCls (fun c =>
    let objs := (c.objs.filter fun e => decide (e.1 / 2 ^ 21 / 16 / 256 = 1) && decide (e.1 / 2 ^ 21 % 16 = src))
    { c with
      objs := objs.foldl (fun m e =>
        mset (objDefault (e.1 / 2 ^ 25) (e.1 % 2 ^ 20)) m (e.1 - src * 2 ^ 21 + dst * 2 ^ 21) e.2) c.objs
      sram := (c.sram.filter fun e => e.1 / 16384 = src).foldl (fun m e => mset 0 m (16384 * dst + e.1 % 16384) e.2) c.sram
      tcam := (c.tcam.filter fun e => e.1 / 16384 = src).foldl (fun m e => mset 0 m (16384 * dst + e.1 % 16384) e.2) c.tcam
      epoch := mset {} c.epoch dst { cur := (mget {} c.epoch src).cur } }) s

/-- A domain returns to ON (R502, R505). -/
def finishInit (n : Nat) (s : State) : State :=
  let s := modDomain n (fun d => { d with state := dsOn, fault := false, src := 0xFF, auto := false }) s
  let s := domEvent n evPwrDomainReady 0 (clearCounters n s)
  match ctlOn s n with
  | some e => ctlFinish n 0 e s
  | none => s

/-- A slice takes the halves that no slice serves, and the requests for them go out again. -/
def takeHalves (sl : Nat) (s : State) : State :=
  let q := partner sl
  let both := !(slice s q).servesOwn && !domWorks s (domSlice q)
  let s := modSlice sl (fun x => { x with servesOwn := true, servesPartner := x.servesPartner || both }) s
  let s := resendHalf sl s
  if both then resendHalf q s else s

/-- The steps of re-initialisation have ended, with the self-test passed. -/
def initPassed (n : Nat) (s : State) : State :=
  match domKind n with
  | .octet k => finishInit n (modEgs (fun e => { e with formation := mset 0 e.formation k (cfg s (.phyOctetCfg k) 6 0) }) s)
  | .pipe p =>
    let src := (domain s n).src
    finishInit n (if src < 16 ∧ hasPipe s.part src ∧ domOn s (domPipe src) then copyPipe src p s else s)
  | .slice sl =>
    let q := partner sl
    if (slice s q).servesPartner then
      (if (slice s q).transfer = .none then modSlice q (fun x => { x with transfer := .leaving false }) s else s)
    else finishInit n (takeHalves sl s)
  | .cluster c =>
    let slot := mget 0 s.tsk.switched (c / 3)
    let s := if slot ≠ 0 ∧ mget false s.tsk.slotValid (slot - 1) then loadImage c (slot - 1) s else s
    checkServed (c / 3) (finishInit n s)

/-- DOMAIN_INIT_DONE: re-initialisation ends; on a failed self-test the domain stays in QUARANTINE. -/
def domainInitDone (n : Nat) (pass : Bool) (s : State) : State :=
  if !hasDomain s.part n || decide ((domain s n).state ≠ dsInit) then s
  else
    let run (f : State → State) (s : State) : State := match ctlOn s n with
      | some e => asActor (e.ring, e.index) f s
      | none => f s
    if pass then run (initPassed n) s
    else run (fun s =>
      let s := modDomain n (fun d => { d with state := dsQuar, fault := true, cause := 4, auto := false }) s
      let s := domEvent n evPwrDomainFault 4 (cntInc 0x0D82 0 6 s)
      match ctlOn s n with
      | some e => ctlFinish n 9 e s
      | none => s) s

/-- OWNER_SWITCH: the half moves; a slice in INIT whose half has come back goes ON (R178, R505). -/
def ownerSwitchRow (sl : Nat) (s : State) : State :=
  let s := ownerSwitch sl s
  let q := partner sl
  if (domain s (domSlice q)).state = dsInit ∧ (slice s q).servesOwn then finishInit (domSlice q) s else s

/-! ### Faults (R506, R507) -/

/-- What a fault does to the traffic of a domain (R506). -/
def faultEffects (n : Nat) (s : State) : State :=
  match domKind n with
  | .octet k => discardFromOctet k (octetDown k s)
  | .pipe p =>
    let s := each ((upTo 4).map (4 * p + ·)) octetDown s
    discardFromPipe p (clearPipe p (dropPipeFrames p s))
  | .slice sl => loseSlice sl s
  | .cluster c => clearCluster c (faultCluster c s)

/-- A domain is faulted: it is isolated and unpowered, and enters QUARANTINE with fault set. An unpowered domain cannot
fault. A fault that meets a DOMAIN_CTL is taken first (R507). -/
def domainFault (n cause : Nat) (s : State) : State :=
  if !hasDomain s.part n || decide ((domain s n).state = dsOff) then s
  else
    let was := (domain s n).state
    let s := cntInc 0x0D82 0 0 (faultEffects n s)
    let s := domEvent n evPwrDomainFault (cause % 16) s
    let s := enterQuar n (cause % 16) true s
    let s := match domKind n with
      | .cluster c => rolloutPast c (checkServed (c / 3) s)
      | _ => s
    if was = dsInit then (match ctlOn s n with
      | some e => ctlFinish n 9 e s
      | none => s)
    else s

/-- auto_restart of a domain's kind (R515). -/
def autoOn (s : State) (n : Nat) : Bool :=
  match domKind n with
  | .octet _ => cfgBit s .pwrAutoCfg 0
  | .pipe _ => cfgBit s .pwrAutoCfg 1
  | .slice _ => cfgBit s .pwrAutoCfg 2
  | .cluster _ => cfgBit s .pwrAutoCfg 3

/-- AUTO_RESTART: the device performs REINIT itself, at most once in any 10 s (R506). -/
def autoRestart (n : Nat) (s : State) : State :=
  let d := domain s n
  let due : Bool := match d.autoAt with
    | some t => decide (t + 10 ^ 13 ≤ s.now)
    | none => true
  if hasDomain s.part n && decide (d.state = dsQuar) && d.fault && autoOn s n && due && (ctlOn s n).isNone && !onRefused s n then
    cntInc 0x0D82 0 1 (beginInit n 0xFF true (modDomain n (fun d => { d with autoAt := some s.now }) s))
  else s

/-! ### Rows -/

/-- OWNER_SWITCH. -/
def execOwnerSwitch (slice : Nat) (s : State) : Out := .next (ownerSwitchRow slice s)
/-- DOMAIN_CTL_QUERY. -/
def execDomainCtlQuery (h : Hdr) (s : State) : Out := .next (command (.domainCtlQuery h) (runCtlQuery h) s)
/-- DOMAIN_CTL_OFF. -/
def execDomainCtlOff (h : Hdr) (s : State) : Out := .next (command (.domainCtlOff h) (runCtlOff h) s)
/-- DOMAIN_CTL_ON. -/
def execDomainCtlOn (h : Hdr) (s : State) : Out := .next (command (.domainCtlOn h) (runCtlOn h) s)
/-- DOMAIN_CTL_REINIT. -/
def execDomainCtlReinit (h : Hdr) (srcPipe : Nat) (s : State) : Out :=
  .next (command (.domainCtlReinit h srcPipe) (runCtlReinit h srcPipe) s)
/-- DOMAIN_CTL_RESTART. -/
def execDomainCtlRestart (h : Hdr) (srcPipe : Nat) (s : State) : Out :=
  .next (command (.domainCtlRestart h srcPipe) (runCtlRestart h srcPipe) s)
/-- DOMAIN_STOP_DONE. -/
def execDomainStopDone (domain : Nat) (s : State) : Out := .next (domainStopDone domain s)
/-- DOMAIN_INIT_DONE. -/
def execDomainInitDone (domain : Nat) (pass : Bool) (s : State) : Out := .next (domainInitDone domain pass s)
/-- DOMAIN_FAULT. -/
def execDomainFault (domain cause : Nat) (s : State) : Out := .next (domainFault domain cause s)
/-- AUTO_RESTART. -/
def execAutoRestart (domain : Nat) (s : State) : Out := .next (autoRestart domain s)

end Sys2Proof.Machine
end

