-- ==== Sys2Proof/Machine/HostReset.lean ====
section
/-! DEFINITION. The commits (R83, R94, R541, R513), the host-interface reset (R80) and the restart of a link's rings (R81). -/

namespace Sys2Proof.Machine

/-! ### Rings at a commit (R94) -/

/-- No ring may run: zeroisation disables every ring, and a thermal trip stops every ring (R490, R531). -/
def ringsHeld (s : State) : Bool := s.lcs.zeroising || s.pwr.thermtrip

/-- The rings of a link. -/
def linkRings (s : State) (l : Link) : List Nat := (upTo 752).filter fun g => decide (ringLink s g = l)

/-- What of a ring outlives a commit, a host-interface reset and a restart: its unreported losses and the count of events
offered to it, which their EVENT_LOST descriptor reports (R71; log 101). -/
def ringKept (r q : Ring) : Ring :=
  { q with lost := r.lost, lostSev := r.lostSev, lostFirst := r.lostFirst, offered := r.offered, lostSeq := r.lostSeq }

/-- A ring in its committed configuration, disabled, with both indices at 0 (R81, R92). -/
def ringConfig (s : State) (g : Nat) : Ring :=
  { base := (stored s (.hifRingHi g)).toNat * 2 ^ 32 + (stored s (.hifRingLo g)).toNat
    size := Nat.min 10 (cfg s (.hifRingCfg g) 19 16), vector := cfg s (.hifRingCfg g) 27 20
    pair := cfg s (.hifRingCfg g) 13 8, lossless := cfgBit s (.hifRingCfg g) 7 }

/-- A page of a link and the permission the device needs: 0 doorbell, 1 consumer, 2 status. -/
def pagePasses (s : State) (l : Link) (which : Nat) : Bool :=
  decide (addrStatus s l (pageAddr s l which) (if which = 2 then 8192 else 4096) 4096 (which = 2) = 0)

/-- Count and report a page that fails its check; no ring is concerned. -/
def pageFault (l : Link) (a : Nat) (s : State) : State :=
  let s := modHif (fun h => { h with dmaFaults := satInc 255 h.dmaFaults }) s
  raise (hifSrc l) evHifDmaFault (a % 2 ^ 32) (a / 2 ^ 32) 0x3FF 0 (hifCnt l 4 s)

/-- Check a page. -/
def checkPage (l : Link) (which : Nat) (s : State) : State :=
  let ok := pagePasses s l which
  let s := if ok then s else pageFault l (pageAddr s l which) s
  modLink l (fun x => if which = 0 then { x with dbOk := ok } else if which = 1 then { x with consOk := ok }
    else { x with statOk := ok }) s

/-- A ring's base passes its check. -/
def basePasses (s : State) (g : Nat) : Bool :=
  let r := ringConfig s g
  decide (addrStatus s (ringLink s g) r.base (64 * ringSize r) 4096 (!driverWritten g) = 0)

/-- Bring a ring to its committed configuration, and start it when it is enabled there and it and its pages pass. -/
def configRing (g : Nat) (s : State) : State :=
  let on := cfgBit s (.hifRingCfg g) 31 && basePasses s g && pagesOk s g && !ringsHeld s
  let s := modRing g (fun r => ringKept r { ringConfig s g with enabled := on }) s
  if on then ringStarts g s else s

/-- A ring of a commit: a base that fails is counted and reported. -/
def commitRing (g : Nat) (s : State) : State :=
  let s := if cfgBit s (.hifRingCfg g) 31 && !basePasses s g then dmaFault g (ringConfig s g).base s else s
  configRing g s

/-- The rings of a list that a commit was to enable and left disabled. -/
def ringsLeft (s : State) (l : List Nat) : List Nat := l.filter fun g => cfgBit s (.hifRingCfg g) 31 && !(ring s g).enabled

/-- Commit a link's set-up: its fields lock, its pages and rings are checked, and the rings that pass start. DESIGN CHOICE
(log 101): a first commit after a host-interface reset starts the rings without the link's restart bit. -/
def commitLink (l : Link) (s : State) : State :=
  let s := modLink l (fun x => { x with committed := true, stopped := false }) s
  let s := each [0, 1, 2] (checkPage l) s
  let rs := linkRings s l
  let s := each rs commitRing s
  let left := ringsLeft s rs
  modHif (fun h => { h with commitErr := h.commitErr || !left.isEmpty, firstRing := if left = [] then 0x3FF else minL left }) s

/-- A write of 1 to commit_a; a write-once bit. -/
def commitA (s : State) : State := if s.hif.a.committed then s else commitLink .a s

/-- A write of 1 to commit_b: ignored and counted before commit_a (R541). Without a second link nothing belongs to it. -/
def commitB (path : Path) (s : State) : State :=
  if !s.hif.a.committed then countIgnored path s
  else if s.hif.b.committed then s
  else if s.hif.bifurcated then commitLink .b s
  else modLink .b (fun x => { x with committed := true }) s

/-- A write of 1 to commit_all: ignored and counted before commit_a; the ports begin training under the formation their
registers hold (R24, R513, R541). -/
def commitAll (path : Path) (s : State) : State :=
  if !s.hif.a.committed then countIgnored path s
  else if s.pwr.committed then s
  else
    let s := each ((octetsOf s.part).filter (domOn s)) (fun k t =>
      modEgs (fun e => { e with formation := mset 0 e.formation k (cfg t (.phyOctetCfg k) 6 0) }) t) s
    guardCheck (raise 0x010 evPwrCommitted 0 0 0 0 (modPwr (fun p => { p with committed := true }) s))

/-! ### The host-interface reset (R80, R81) -/

/-- Stop a command of a link as if aborted, with no completion. A RESTART past its commit point, the removal of power,
finishes without it. -/
def stopCommand (e : InFlight) (s : State) : State :=
  let a := (e.ring, e.index)
  let n : Option Nat := match e.cmd with
    | .domainCtlOff h | .domainCtlOn h | .domainCtlReinit h _ | .domainCtlRestart h _ => ctlDomain s h
    | _ => none
  match n with
  | some n =>
    let past := match e.cmd with
      | .domainCtlRestart _ _ => decide ((domain s n).state = dsInit)
      | _ => false
    dropInflight a (if e.stepping && !past then asActor a (ctlUndo n e) s else s)
  | none => dropInflight a s

/-- Drop the punts of a link, and count them. -/
def dropLinkPunts (l : Link) (s : State) : State :=
  let mine := s.hif.heldPunts.filter fun u => decide (ringLink s (144 + u.ring) = l)
  let s := modHif (fun h => { h with heldPunts := h.heldPunts.filter fun u => !decide (ringLink s (144 + u.ring) = l) }) s
  let s := each mine (fun u t => puntDone { u with ncells := 0 } (hifCnt l 2 t)) s
  each (linkRings s l) (fun g t => if ringKind g = .pnt then dropRingPunts g l 2 t else t) s

/-- The host-interface reset of a link. -/
def hostReset (l : Link) (s : State) : State :=
  let rs := linkRings s l
  let s := each rs (fun g t => modRing g (fun r => { r with enabled := false }) t) s
  let s := each (s.hif.inflight.filter fun e => decide (ringLink s e.ring = l)) stopCommand s
  let s := dropLinkPunts l s
  let s := each ((upTo 64).filter fun p => decide (poolLink s p = l)) (fun p t => modPool p (fun q => { wait := q.wait }) t) s
  let s := modHif (fun h => { h with
    fetched := h.fetched.filter fun f => !decide (ringLink s f.1 = l)
    aborts := h.aborts.filter fun f => !decide (ringLink s f.1 = l)
    poll := h.poll.filter fun b => !decide (b.1 / 16 = linkNo l) }) s
  let s := { s with pkts := s.pkts.map fun k => match k.2.inj with
    | some (r, _) => if ringLink s r = l then (k.1, { k.2 with inj := none, stampReq := false }) else k
    | none => k }
  let s := each rs (fun g t => modRing g (fun r => ringKept r
    { base := r.base, size := r.size, vector := r.vector, pair := r.pair, lossless := r.lossless }) t) s
  modLink l (fun x => { x with stopped := true }) s

/-- A link goes down. -/
def linkDown (l : Link) (s : State) : State := modLink l (fun x => { x with up := false, rate := 0 }) s

/-- A link exists: link B only in the two-link configuration (R38). -/
def linkExists (s : State) (l : Link) : Bool := decide (l = .a) || s.hif.bifurcated

/-- Reset a link that exists. -/
def resetLink (l : Link) (s : State) : State := if linkExists s l then hostReset l s else s

/-- Writing 1 to a restart bit: after a host-interface reset each ring of the link comes back in its committed
configuration, with 0 in its slot of the status page, and polling begins at min_exp. -/
def restartLink (l : Link) (s : State) : State :=
  if (linkSt s l).stopped && linkExists s l && !ringsHeld s then
    let s := modLink l (fun x => { x with stopped := false }) s
    if (linkSt s l).committed then each (linkRings s l) (fun g t => configRing g (statusWrite g 0 t)) s else s
  else s

/-! ### PCIe (R38, R510) -/

/-- PE_PERST_RELEASE. -/
def perstRelease (s : State) : State := modHif (fun h => { h with perst := true }) s

/-- PCIE_LINK_UP: a link completes training at its rate. -/
def pcieLinkUp (l : Link) (rate : Nat) (s : State) : State :=
  if s.hif.perst && decide (s.pwr.phase ≠ .reset) && linkExists s l then
    modLink l (fun x => { x with up := true, rate := Nat.min 2 rate }) s
  else s

/-- PE_PERST_RELEASE. -/
def execPePerstRelease (s : State) : Out := .next (perstRelease s)
/-- PCIE_LINK_UP. -/
def execPcieLinkUp (link : Link) (rate : Nat) (s : State) : Out := .next (pcieLinkUp link rate s)

end Sys2Proof.Machine
end

