-- ==== Sys2Proof/Machine/Integrity.lean ====
section
/-! DEFINITION. Integrity: the SRAM scrub and what an uncorrectable word does (R431), clock losses (R433), and the feed engines
(R442, R443). -/

namespace Sys2Proof.Machine

/-- Count in CHK_CNT. -/
def chkCnt (i : Nat) (s : State) : State := cntInc 0x0C81 0 i s

/-! ### The SRAM scrub (R431) -/

/-- The structure's number in CHK_SRAM_UE. -/
def sramNo : SramKind → Nat
  | .cellPayload => 0 | .tableMemory => 1 | .matchKeyCopy => 2 | .replica => 3 | .hotLine => 4 | .taskSlot => 5
  | .custodian => 6 | .checkValue => 7 | .other => 8

/-- The table objects. -/
def tableObjs : List Nat := [0x0201, 0x0202, 0x0203, 0x0204, 0x0205, 0x0206, 0x0502, 0x0503, 0x0504, 0x0505, 0x0506, 0x0507]

/-- The slot that holds a byte of table memory: its object and index. -/
def slotAt (off : Nat) : Option (Nat × Nat) :=
  (tableObjs.find? fun o => decide (tableBase o ≤ off) && decide (off < tableBase o + slotSize o * entryCount o)).map
    fun o => (o, (off - tableBase o) / slotSize o)

/-- A word of table memory is lost: its entry is absent to lookups, and its block suspect until the driver rewrites it. -/
def loseTableWord (d off : Nat) (s : State) : State :=
  let s := match slotAt off with
    | some (o, i) => tPut d o i 0 s
    | none => s
  modCmp d (off / 65536) (fun c => { c with suspect := true, absent := c.absent ++ [off % 65536 / 8] }) s

/-- A cell's payload is lost: its frame is dropped before transmission, or stomped if it has begun, and counted. -/
def loseCell (cell : Nat) (s : State) : State :=
  match s.buf.cells.lookup cell with
  | none => s
  | some c =>
    let begun : Bool := match pktOf s c.pkt with
      | some k => k.started
      | none => false
    let s := chkCnt 5 s
    if begun then stompFrame c.pkt false s else dropEarly c.pkt none s

/-- A replica entry is discarded. -/
def loseReplica (p i : Nat) (s : State) : State := modReplicas p (fun l => l.eraseIdx i) s

/-- A hot line is dropped; its deltas are lost, and the loss counted. A NEW placeholder has no record behind it: it is
removed, and its requests are answered RETRY. -/
def loseHot (sl i : Nat) (s : State) : State :=
  match (slice s sl).hot[i]? with
  | none => s
  | some l =>
    let s := if l.dPktsO + l.dPktsR + l.dBytesO + l.dBytesR = 0 then s else chkCnt 3 s
    if l.life = lifeNew then removeNew sl l.record 2 s else dropHot sl l.record s

/-- A task slot is lost: the task ends as CORE_FAULT, on its core if one holds it. -/
def loseTask (sl t : Nat) (s : State) : State :=
  match coreWith s sl t with
  | some c => faultOnCore c t s
  | none => faultTask sl t s

/-- The effect of an uncorrectable word of a structure. The address is the word's place within the structure on its die. -/
def sramLost (d : Nat) (kind : SramKind) (a : Nat) (s : State) : State :=
  match kind with
  | .cellPayload => loseCell (2 ^ 19 * d + a) s
  | .tableMemory => loseTableWord d (a % 2 ^ 26) s
  | .matchKeyCopy => markSuspect (4 * d + a / 16384 % 4) (a % 16384) true s
  | .replica => loseReplica (4 * d + a / 2 ^ 16 % 4) (a % 2 ^ 16) s
  | .hotLine => loseHot (2 * d + a / 2 ^ 16 % 2) (a % 2 ^ 16) s
  | .taskSlot => loseTask (2 * d + a / 2 ^ 17 % 2) (a % 2 ^ 17) s
  | .custodian =>
    let who := if d = 2 then 2 else 1
    if (d = 0 ∨ d = 2) ∧ s.cus.holder = who then releaseString 3 s else s
  | .checkValue => modCmp d (a % 1024) (fun c => { c with stale := true }) s
  | .other => if hasDomain s.part a then domainFault a 1 s else s

/-- The scrub passes on to an address; a step back to the start is a pass. -/
def scrubOn (d a : Nat) (s : State) : State :=
  let s := if a < mget 0 s.chk.sram d then chkCnt 2 s else s
  modChk (fun c => { c with sram := mset 0 c.sram d a }) s

/-- The power domain that holds a word, none for a word of the die core (R500). -/
def sramDomain (d : Nat) (kind : SramKind) (a : Nat) : Option Nat :=
  match kind with
  | .matchKeyCopy => some (domPipe (4 * d + a / 16384 % 4))
  | .replica => some (domPipe (4 * d + a / 2 ^ 16 % 4))
  | .hotLine => some (domSlice (2 * d + a / 2 ^ 16 % 2))
  | .taskSlot => some (domSlice (2 * d + a / 2 ^ 17 % 2))
  | .other => some a
  | .cellPayload | .tableMemory | .custodian | .checkValue => none

/-- A word's domain is powered and not quarantined, so the scrub reads it (R431). -/
def sramRead (s : State) (d : Nat) (kind : SramKind) (a : Nat) : Bool :=
  match sramDomain d kind a with
  | some n => decide ((domain s n).state ≠ dsOff) && decide ((domain s n).state ≠ dsQuar)
  | none => true

/-- SRAM_SCRUB: the scrub reads the next word of a domain that is powered and not quarantined. -/
def sramScrub (d : Nat) (kind : SramKind) (a : Nat) (ecc : Ecc) (s : State) : State :=
  if !hasDie s.part d || !sramRead s d kind a then s
  else
    let s := scrubOn d a s
    match ecc with
    | .clean => s
    | .corrected => chkCnt 0 (if kind = .checkValue then chkCnt 10 s else s)
    | .uncorrectable | .bothCopies | .parity =>
      let s := chkCnt 1 (if kind = .checkValue then chkCnt 11 s else s)
      sramLost d kind a (raise 0x04A evChkSramUe d (sramNo kind) a 0 s)

/-! ### Clocks (R433) -/

/-- A clock domain's number in CHK_CLOCK_LOST. -/
def clockNo : ClockDom → Nat
  | .core => 0 | .fcore => 1 | .hbm => 2 | .pcie => 3 | .time => 4 | .mgmt => 5 | .link x => 6 + x

/-- The power domains of a die that a clock drives (R34, R500). -/
def clockDomains (d : Nat) : ClockDom → List Nat
  | .core => (upTo 4).map (fun i => domPipe (4 * d + i)) ++ (upTo 2).map fun i => domSlice (2 * d + i)
  | .fcore => (upTo 2).map (fun i => domSlice (2 * d + i)) ++ (upTo 6).map fun i => domCluster (6 * d + i)
  | _ => []

/-- CLOCK_LOSS. -/
def clockLoss (d : Nat) (dom : ClockDom) (s : State) : State :=
  if !hasDie s.part d then s
  else
    let s := raise 0x04C evChkClockLost d (clockNo dom) 0 0 (chkCnt 7 s)
    let s := if dom = .time ∧ d = (if s.tim.copy then 2 else 0) then loseTraceable s else s
    each (clockDomains d dom) (fun n => domainFault n 2) s

/-! ### Feed engines (R442, R443) -/

/-- A feed engine. -/
def feed (s : State) (e : Nat) : Feed := mget {} s.chk.feeds e
/-- Change it. -/
def modFeed (e : Nat) (f : Feed → Feed) (s : State) : State :=
  modChk (fun c => { c with feeds := mset {} c.feeds e (f (feed s e)) }) s

/-- The writer owns the engine: owner is 0 for the driver, through either link. -/
def feedOwned (s : State) (e : Nat) : Bool := !cfgBit s (.chkFeedCfg e) 30

/-- Feed bytes that are not counted. -/
def feedRaw (e : Nat) (bs : List Byte) (s : State) : State := modFeed e (fun x => { x with crc := crcFeed x.poly x.crc bs }) s

/-- The prefix of an engine. -/
def feedPrefix (s : State) (e : Nat) : Nat :=
  (stored s (.chkFeedPrefix e true)).toNat * 2 ^ 32 + (stored s (.chkFeedPrefix e false)).toNat

/-- start of CHK_FEED_CFG: the register takes the polynomial's Init and count clears; with fold the prefix is fed. Polynomial
code 3 is a host error, whose value is free. -/
def feedStart (e : Nat) (s : State) : State :=
  if !feedOwned s e then chkCnt 12 s
  else
    let poly := cfg s (.chkFeedCfg e) 1 0
    let (n, s) := useFree s
    let s := modFeed e (fun _ => ⟨if poly = 3 then Config.freeValue n % 2 ^ 32 else crcInit poly, poly, 0⟩) s
    if cfgBit s (.chkFeedCfg e) 2 then feedRaw e (foldBytes (feedPrefix s e)) s else s

/-- A write of n bytes to an engine, least significant first; ignored and counted from a party that does not own it. -/
def feedWrite (e n : Nat) (v : Word) (s : State) : State :=
  if !feedOwned s e then chkCnt 12 s
  else modFeed e (fun x => { x with count := Nat.min (2 ^ 32 - 1) (x.count + n) }) (feedRaw e (leBytes n v.toNat) s)

/-- The result of an engine. -/
def feedResult (s : State) (e : Nat) : Nat := crcFinal (feed s e).poly (feed s e).crc

/-- SRAM_SCRUB. -/
def execSramScrub (die : Nat) (kind : SramKind) (address : Nat) (ecc : Ecc) (s : State) : Out :=
  .next (sramScrub die kind address ecc s)
/-- CLOCK_LOSS. -/
def execClockLoss (die : Nat) (dom : ClockDom) (s : State) : Out := .next (clockLoss die dom s)

end Sys2Proof.Machine
end

