-- ==== Sys2Proof/Machine/LateCmd.lean ====
section
/-! DEFINITION. The later moments of a command: a step of a long command ends (R444), and a command that waited begins (R79,
R128, R165, R207, R214, R439). -/

namespace Sys2Proof.Machine

/-! ### Steps of long commands (R444) -/

/-- The effect of a step of a long command, none for the commands whose steps are not counted here. -/
def stepOf (e : InFlight) : Option (State → StepOut × State) :=
  let a := (e.ring, e.index)
  match e.cmd with
  | .tableBulkWrite h t => some (stepBulkWrite h t a e)
  | .tableBulkRead _ t => some (stepBulkRead t e)
  | .tableScan _ t => some (stepTableScan t e)
  | .flowRestore _ t => some (stepFlowRestore t e)
  | .gateLoad h t => some (stepGateLoad h t e)
  | .memRead _ m => some (stepMemRead m e)
  | .memWrite _ m => some (stepMemWrite m e)
  | .checkScan _ m => some (stepCheckScan m e)
  | .fwStage _ m => some (stepFwStage m e)
  | _ => none

/-- The step under way has begun: one that waits for a draining bank, a compare or a transfer has not. -/
def stepBegun (e : InFlight) : Bool :=
  match e.cmd with
  | .tableBulkWrite _ _ => decide (nth 0 e.acc 1 = 1)
  | .flowRestore _ _ => false
  | _ => true

/-- The test of the abort latch immediately before a step: a set latch ends the command with the units it has completed. -/
def abortTest (a : Nat × Nat) (s : State) : State :=
  match inflight s a with
  | some e => if e.abort then finish a 1 e.progress e.res0 e.res1 s else s
  | none => s

/-- Take what the end of a step answers. -/
def takeStep (a : Nat × Nat) (o : StepOut) (s : State) : State :=
  match o with
  | .stay =>
    match inflight s a with
    | some e => if stepBegun e then s else abortTest a s
    | none => s
  | .more p r0 r1 acc st =>
    abortTest a (modInflight a (fun e => { e with progress := p, res0 := r0, res1 := r1, acc := acc, status := st }) s)
  | .done st p r0 r1 => finish a st p r0 r1 s

/-- Run a step as its command. -/
def runStep (a : Nat × Nat) (f : State → StepOut × State) (s : State) : State :=
  let n := s.raised
  let (o, s) := f { s with actor := some a }
  let s := if n < s.raised then modInflight a (fun e => { e with evt := true }) s else s
  takeStep a o { s with actor := none }

/-- LONG_COMMAND_STEP: the step under way ends, then the latch is tested for the next. A command whose target's domain is
down ends with DOMAIN_DOWN. -/
def longStep (a : Nat × Nat) (s : State) : State :=
  match inflight s a with
  | none => s
  | some e =>
    match stepOf e with
    | none => s
    | some f =>
      let (k, u) := cmdTarget e.cmd
      if !e.stepping then s
      else if targetDown s k u then finish a 9 e.progress e.res0 e.res1 s
      else runStep a f s

/-! ### Commands that waited (R79) -/

/-- How a command runs once it need not wait, none for what is no command of a command ring. -/
def runOf (i : Instr) : Option (Nat × Nat → State → CmdOut × State) :=
  match i with
  | .nop _ => some runNop
  | .fence _ => some runFence
  | .abort _ ring index => some (runAbort ring index)
  | .g3Nop _ => some runG3Nop
  | .counterRead h t => some (runCounterRead h t)
  | .counterClear h t => some (runCounterClear h t)
  | .g3CounterRead h b => some (runG3CounterRead h b)
  | .domainCtlQuery h => some (runCtlQuery h)
  | .domainCtlOff h => some (runCtlOff h)
  | .domainCtlOn h => some (runCtlOn h)
  | .domainCtlReinit h srcPipe => some (runCtlReinit h srcPipe)
  | .domainCtlRestart h srcPipe => some (runCtlRestart h srcPipe)
  | .shaperSet h t => some (runShaperSet h t)
  | .gateLoad h t => some (runGateLoad h t)
  | .flowWrite _ t => some (runFlowWrite t)
  | .flowDelete _ t => some (runFlowDelete t)
  | .flowRead _ t => some (runFlowRead t)
  | .g3FlowDelete _ record => some (runG3FlowDelete record)
  | .memRead _ m => some (runMemRead m)
  | .memWrite _ m => some (runMemWrite m)
  | .checkScan _ m => some (runCheckScan m)
  | .flowRestore h t => some (runFlowRestore h t)
  | .ringSetQuery _ ring => some (runRingQuery ring)
  | .ringSetEnable _ ring => some (runRingEnable ring)
  | .ringSetDisable _ ring => some (runRingDisable ring)
  | .ringSetMove _ ring sizeCode base => some (runRingMove ring sizeCode base)
  | .poolSetQuery _ pool => some (runPoolQuery pool)
  | .poolSetFlush _ pool hostAddr => some (runPoolFlush pool hostAddr)
  | .fwStage _ m => some (runFwStage m)
  | .fwSwitch _ slot mask drainUs => some (runFwSwitch slot mask drainUs)
  | .tableWrite h t => some (runTableWrite h t)
  | .tableRead h t => some (runTableRead h t)
  | .tableBulkWrite h t => some (runBulkWrite h t)
  | .tableBulkRead h t => some (runBulkRead h t)
  | .tableScan h t => some (runTableScan h t)
  | .digestSet h t => some (runDigestSet h t)
  | .epochFlip h t => some (runEpochFlip h t)
  | .g3TableWrite h b => some (runG3TableWrite h b)
  | .g3TableRead h b => some (runG3TableRead h b)
  | .timeSetRead _ => some runTimeRead
  | .timeSetStep _ offset time off => some (runTimeStep offset time off)
  | .timeSetRate _ rate => some (runTimeRate rate)
  | .timeSetMarkTraceable _ => some runMarkTraceable
  | .timeSetTout _ c => some (runTout c)
  | .timeSetPeerDelay _ port delay => some (runPeerDelay port delay)
  | .timeSetSynce _ output enable lane divider => some (runSynce output enable lane divider)
  | _ => none

/-- HELD_COMMAND_START: a command that waits begins, if nothing makes it wait any longer. -/
def heldStart (a : Nat × Nat) (s : State) : State :=
  match inflight s a with
  | none => s
  | some e =>
    if e.stepping ∨ e.wait = .nothing then s
    else match mustWait s e with
      | some w => modInflight a (fun e => { e with wait := w }) s
      | none =>
        match runOf e.cmd with
        | some run => startCmd a e.cmd run s
        | none => s

/-- LONG_COMMAND_STEP. -/
def execLongCommandStep (ring index : Nat) (s : State) : Out := .next (longStep (ring, index) s)
/-- HELD_COMMAND_START. -/
def execHeldCommandStart (ring index : Nat) (s : State) : Out := .next (heldStart (ring, index) s)

end Sys2Proof.Machine
end

