-- ==== Sys2Proof/Machine/Logbook.lean ====
section
/-! DEFINITION. The logbook: persistence (R464–R468), statistics (R469, R470), reading (R471, R472), freezing and clearing
(R473, R474), and the choice of the controller (R18). -/

namespace Sys2Proof.Machine

/-- Count in LOG_CNT. -/
def logCnt (i : Nat) (s : State) : State := cntInc 0x0D81 0 i s

/-! ### Persistence (R464, R468) -/

/-- Sectors of the event area (R467). -/
def eventSectors : Part → Nat
  | .lhx9612 => 900
  | .lhx9406 => 420

/-- Snapshots the statistics area holds. -/
def snapSlots : Part → Nat
  | .lhx9612 => 120
  | .lhx9406 => 56

/-- Records the event area holds: bad sectors reduce it. -/
def eventRoom (s : State) : Nat := (eventSectors s.part - s.flash.bad.length) * 2048

/-- The oldest staged record is due: persist_ms has passed, or staging is more than half full. -/
def persistDue (s : State) (r : LogRec) : Bool :=
  decide (stagingMax < 2 * s.log.staged.length) || decide (r.at_ + cfg s .logCfg 15 0 * 10 ^ 9 ≤ s.now)

/-- The oldest sector is erased, and the oldest kept serial advances by 2,048. -/
def eraseOldest (s : State) : State :=
  let o := s.flash.oldest + 2048
  logCnt 4 (modFlash (fun f => { f with events := f.events.filter fun r => decide (o ≤ r.serial), oldest := o }) s)

/-- The sector after one, bad sectors passed over. n bounds the search. -/
def nextSector (s : State) : Nat → Nat → Nat
  | 0, k => k
  | n + 1, k =>
    let j := (k + 1) % eventSectors s.part
    if s.flash.bad.contains j then nextSector s n j else j

/-- Move on to the next sector. -/
def moveSector (s : State) : State := modFlash (fun f => { f with sector := nextSector s (eventSectors s.part) f.sector }) s

/-- Write a staged record to flash: its bytes 30–0, then its valid byte; it leaves staging. -/
def persistRec (r : LogRec) (s : State) : State :=
  let s := modLog (fun l => { l with staged := l.staged.drop 1 }) s
  let s := modFlash (fun f => { f with events := f.events ++ [r] }) s
  logCnt 3 (if r.serial % 2048 = 2047 then moveSector s else s)

/-- A program or erase fails: its sector is marked bad, and the write moves to the next one. -/
def sectorBad (s : State) : State :=
  let s := modFlash (fun f => { f with bad := if f.bad.contains f.sector then f.bad else f.bad ++ [f.sector] }) s
  raise 0x050 evLogFlashFault 0 0 0 0 (logCnt 5 (moveSector s))

/-- LOG_PERSIST: the holder writes the oldest staged record, once it is due. While a freeze keeps every sector, a full area
makes records wait in staging (R473). -/
def logPersist (ok : Bool) (s : State) : State :=
  match s.log.staged with
  | [] => s
  | r :: _ =>
    if holdAdopted s && s.log.flashOk && persistDue s r then
      let full := decide (eventRoom s ≤ s.flash.events.length)
      if full && s.log.freeze then s
      else
        let s := if full then eraseOldest s else s
        if ok then guardCheck (logLostRec (persistRec r s)) else sectorBad s
    else s

/-! ### Statistics (R469, R470) -/

/-- The mode of a source: base and step, or none for log2. -/
def statMode (src : Nat) : Option (Int × Int) :=
  if src ≤ 8 then some (26, 6) else if src ≤ 24 then none else if src ≤ 28 then some (0, 5) else if src ≤ 32 then some (0, 8) else none

/-- A source exists and its unit is present. -/
def statPresent (p : Part) (src : Nat) : Bool :=
  if src = 0 ∨ 36 < src then false
  else if src ≤ 8 then hasDie p ((src - 1) % 4)
  else if src ≤ 20 then hasDie p ((src - 9) / 3)
  else hasDie p ((src - 21) % 4)

/-- The bucket of a value. -/
def statBucket (src : Nat) (v : Int) : Nat :=
  match statMode src with
  | some (base, step) => if v < base then 0 else Nat.min 15 (((v - base) / step).toNat + 1)
  | none => if v ≤ 0 then 0 else Nat.min 15 (Nat.log2 v.toNat + 1)

/-- Change a source's entry. -/
def modStat (src : Nat) (f : Stat → Stat) (s : State) : State :=
  modLog (fun l => { l with stats := mset {} l.stats src (f (mget {} l.stats src)) }) s

/-- The time between two samples of a source in ps: 1 s, 1 min, or none for one that is sampled as it falls (R469). -/
def samplePs (src : Nat) : Nat :=
  if src ≤ 8 then 10 ^ 12 else if src ≤ 24 then 60 * 10 ^ 12 else if src ≤ 28 then 10 ^ 12 else 0

/-- STAT_SAMPLE: a source's sample falls due and enters its histogram. -/
def statSample (src : Nat) (v : Int) (s : State) : State :=
  if !statPresent s.part src || decide (s.now < mget 0 s.log.sampleAt src + samplePs src) then s
  else modStat src (fun x =>
    let b := statBucket src v
    { x with
      buckets := mset 0 x.buckets b (satInc (2 ^ 32 - 1) (mget 0 x.buckets b))
      imin := min x.imin v, imax := max x.imax v, isum := x.isum + v
      lmin := min x.lmin v, lmax := max x.lmax v, count := x.count + 1 })
    (modLog (fun l => { l with sampleAt := mset 0 l.sampleAt src s.now }) s)

/-- The interval fields restart. -/
def restartInterval (x : Stat) : Stat := { x with buckets := [], imin := 0x7FFFFFFF, imax := -0x80000000, isum := 0 }

/-- The lifetime fields restart. -/
def restartLifetime (x : Stat) : Stat := { x with lmin := 0x7FFFFFFF, lmax := -0x80000000, count := 0 }

/-- A change of every source's entry. -/
def allStats (f : Stat → Stat) (m : Map Stat) : Map Stat := (upTo 37).foldl (fun t i => mset {} t i (f (mget {} t i))) m

/-- The image of a source's entry: 128 bytes; unused numbers are zero. -/
def statImage (src : Nat) (x : Stat) : Nat :=
  if src = 0 ∨ 36 < src then 0
  else pack (((upTo 16).map fun b => (32, mget 0 x.buckets b))
    ++ [(32, ofSigned 32 x.imin), (32, ofSigned 32 x.imax), (64, ofSigned 64 x.isum), (32, ofSigned 32 x.lmin),
      (32, ofSigned 32 x.lmax), (64, x.count), (16, src), (8, if (statMode src).isNone then 1 else 0)])

/-- The snapshot period in ps. -/
def statPeriod (s : State) : Nat := cfg1 s .logCfg 31 16 * (60 * 10 ^ 12)

/-- STAT_SNAPSHOT: every stat_period_min the holder persists a snapshot to the next slot, erasing as needed, and the interval
fields restart. An erase frees a sector, which holds two snapshots. -/
def statSnapshot (s : State) : State :=
  if holdAdopted s && s.log.flashOk && decide (s.log.snapAt + statPeriod s ≤ s.now) then
    let full := decide (snapSlots s.part ≤ s.flash.snaps.length)
    let s := if full then logCnt 4 (modFlash (fun f => { f with snaps := f.snaps.drop 2 }) s) else s
    let n : Snapshot := ⟨stampNow s, (s.log.next + 2 ^ 48 - 1) % 2 ^ 48, s.pwr.boots, cfg1 s .logCfg 31 16, s.log.stats⟩
    let s := modFlash (fun f => { f with snaps := f.snaps ++ [n] }) s
    logCnt 7 (modLog (fun l => { l with stats := allStats restartInterval l.stats, snapAt := s.now }) s)
  else s

/-! ### Reading (R471, R472) -/

/-- A record's 32 bytes. -/
def logRecImage (r : LogRec) : Nat :=
  pack [(16, r.ev.code), (16, r.ev.source % 4096 + r.ev.sev % 4 * 4096), (32, r.ns), (32, r.sec), (32, r.ev.p0), (32, r.ev.p1),
    (32, r.ev.p2), (32, r.ev.p3), (16, r.repeatN), (8, r.flags), (8, r.valid)]

/-- Start loading the window with the record at a serial. -/
def loadCursor (c : Nat) (s : State) : State := modLog (fun l => { l with cursor := c % 2 ^ 48, loading := true, ready := false }) s

/-- A write of LOG_CURSOR_LO: the cursor takes it with the serial's upper half as last written. -/
def cursorWrite (v : Word) (s : State) : State :=
  let s := putReg (.logCursor false) v s
  loadCursor ((stored s (.logCursor true)).toNat % 65536 * 2 ^ 32 + v.toNat) s

/-- LOG_WINDOW_READY: the load completes; the 32 bytes are taken at one moment. -/
def windowReady (s : State) : State :=
  if s.log.loading then
    let c := s.log.cursor
    let out := decide (c < s.flash.oldest) || decide (s.log.next ≤ c)
    let r := (s.log.staged ++ s.flash.events).find? fun r => decide (r.serial = c) && decide (r.valid = 0x5A)
    modLog (fun l => { l with
      loading := false, ready := true, outside := out, torn := !out && r.isNone
      win := if out then 0 else match r with
        | some r => logRecImage r
        | none => 0 }) s
  else s

/-- A read of LOG_WIN_7: its word, and with auto set the cursor advances by one and the next record is loaded. -/
def win7Read (s : State) : State :=
  let s := { s with readData := BitVec.ofNat 32 (fld s.log.win 255 224) }
  if cfgBit s .logCtrl 1 then
    let c := (s.log.cursor + 1) % 2 ^ 48
    loadCursor c (putReg (.logCursor true) (BitVec.ofNat 32 (c / 2 ^ 32)) (putReg (.logCursor false) (BitVec.ofNat 32 c) s))
  else s

/-- A write of LOG_STAT_SEL: the window shows the source's entry as it stands now. -/
def statSelWrite (v : Word) (s : State) : State :=
  let src := v.toNat % 256
  modLog (fun l => { l with statWin := statImage src (mget {} l.stats src) }) (putReg .logStatSel (BitVec.ofNat 32 src) s)

/-! ### Freezing and clearing (R473, R474) -/

/-- Write the freeze bit. -/
def setFreeze (b : Bool) (s : State) : State := freezeCheck (modLog (fun l => { l with freeze := b }) s)

/-- An accepted clear: the record LOG_CLEARED takes the serial S that is its commit point; every record below S goes, from
staging and flash, and the statistics; a freeze ends. -/
def clearLog (s : State) : State :=
  let n := s.log.staged.length + s.flash.events.length
  let o := s.flash.oldest
  let sectors := ceilDiv s.flash.events.length 2048 + ceilDiv s.flash.snaps.length 2
  let s := modLcs (fun l => { l with logClear := false }) s
  let s := modLog (fun l => { l with
    staged := [], freeze := false, clearing := true, clearAt := sectors, stats := allStats restartLifetime l.stats }) s
  let s := modFlash (fun f => { f with events := [], snaps := [], oldest := s.log.next }) s
  let e : Ev := ⟨0x050, evLogCleared, sevOf evLogCleared, o % 2 ^ 32, o / 2 ^ 32, n % 2 ^ 32, 0⟩
  let s := appendRec e s.tim.ns (s.tim.sec % 2 ^ 32) false { s with raised := s.raised + 1 }
  let s : State := match srcMap s e.source with
    | some (g, _) => (toRing g e s).2
    | none => s
  guardCheck (logLostRec s)

/-- A write of 1 to clear: accepted only while the life-cycle block shows the authorisation. -/
def clearWrite (s : State) : State :=
  if s.lcs.logClear then clearLog s else raise 0x050 evLogClearRefused 0 0 0 0 (logCnt 6 s)

/-- A write of LOG_CTRL. -/
def logCtrlWrite (v : Word) (s : State) : State :=
  let s := setFreeze (v.getLsbD 0) (putReg .logCtrl (v &&& 2) s)
  if v.getLsbD 2 then clearWrite s else s

/-- LOG_CLEAR_ERASE_END: the erase that a clear began ends. -/
def clearEraseEnd (s : State) : State :=
  if s.log.clearing then
    cntAdd 0x0D81 0 4 s.log.clearAt (modLog (fun l => { l with clearing := false, clearAt := 0 }) s)
  else s

/-- A write of log_copy: the controller in use records the selection in the boot directory, for the next start (R18). -/
def logCopyWrite (copy : Bool) (s : State) : State := modFlash (fun f => { f with logCopy := copy }) s

/-- LOG_PERSIST. -/
def execLogPersist (programOk : Bool) (s : State) : Out := .next (logPersist programOk s)
/-- STAT_SAMPLE. -/
def execStatSample (source : Nat) (value : Int) (s : State) : Out := .next (statSample source value s)
/-- STAT_SNAPSHOT. -/
def execStatSnapshot (s : State) : Out := .next (statSnapshot s)
/-- LOG_WINDOW_READY. -/
def execLogWindowReady (s : State) : Out := .next (windowReady s)
/-- LOG_CLEAR_ERASE_END. -/
def execLogClearEraseEnd (s : State) : Out := .next (clearEraseEnd s)

end Sys2Proof.Machine
end

