-- ==== Sys2Proof/Machine/Start.lean ====
section
/-! DEFINITION. Resets (R497–R499), start-up (R508–R513), supplies (R522) and heat (R531). -/

namespace Sys2Proof.Machine

/-! ### What a reset keeps (R497, R423, R424) -/

/-- The contents of logical addresses whose physical rank sits on a stack that keeps them. -/
def keptMem (s : State) (keeps : Nat → Bool) : List Host.Cell :=
  s.mem.filter fun c => match (logicalRank c.1).bind (rankOf s) with
    | some f => keeps (f / 3)
    | none => false

/-- The poison marks of the same addresses. -/
def keptPoison (s : State) (keeps : Nat → Bool) : Map Bool :=
  s.hbm.poison.filter fun c => match (logicalRank (64 * c.1)).bind (rankOf s) with
    | some f => keeps (f / 3)
    | none => false

/-- The mirror area of H0 or H2 is kept. -/
def mirrorKept (s : State) (keeps : Nat → Bool) : Bool :=
  [0, 6].any fun m => match rankOf s m with
    | some f => keeps (f / 3)
    | none => false

/-- The copies of checkpoints that a reset keeps: those in the mirror area, when it is kept. -/
def keptCkpts (s : State) (keeps : Nat → Bool) : Map (Option Ckpt) :=
  if mirrorKept s keeps then s.cus.ckpts.filter fun c => decide (4 ≤ c.1) else []

/-- The string generation stored in the checkpoints, 0 when none is (R451). -/
def storedGen (m : Map (Option Ckpt)) : Nat :=
  (m.filterMap (·.2)).foldl (fun g c => if ckptWhole c then Nat.max g c.gen else g) 0

/-- The stacks after a reset: in self-refresh where their contents are kept. -/
def keptStacks (keeps : Nat → Bool) : Map Stack :=
  (upTo 4).foldl (fun m d => if keeps d then mset {} m d { selfRefresh := true } else m) []

/-- The device after a power-on or chip reset, held in reset until start-up. Fuses, the boot flash, the host's memory and the
frames already sent stay; a chip reset keeps the staging area of the controller in use, unless the selection changes. -/
def resetDevice (kind : Nat) (keeps : Nat → Bool) (s : State) : State :=
  let ck := keptCkpts s keeps
  let stay := decide (kind ≠ 0) && decide (s.flash.logCopy = s.log.copy)
  { part := s.part, pending := s.pending, now := s.now, free := s.free, raised := s.raised, host := s.host
    mem := keptMem s keeps, tmem := if mirrorKept s keeps then s.tmem else []
    fwd := { filter := if mirrorKept s keeps then s.fwd.filter else [] }
    hbm := { hbms := keptStacks keeps, map := s.hbm.map, rank := s.hbm.rank, poison := keptPoison s keeps }
    cus := { ckpts := ck, gen := storedGen ck }
    flash := s.flash
    log := { copy := s.flash.logCopy, staged := if stay then s.log.staged else [], next := s.flash.serial
             bootLost := if stay then 0 else s.log.staged.length }
    lcs := { q0 := s.lcs.q0, q2 := s.lcs.q2, identity := s.lcs.identity, wasOpen := s.lcs.open_ ||| s.lcs.wasOpen
             state := s.lcs.state, nonce := s.lcs.nonce }
    pwr := { boots := s.pwr.boots, kind := kind }
    egs := { wire := s.egs.wire } }

/-- The stacks a chip reset keeps: those with hbm_retain set (R423). -/
def retains (s : State) (d : Nat) : Bool :=
  hasDie s.part d && (cfgBit s (.hbmCtrl d) 0 || (s.pwr.inReset && (stack s d).selfRefresh))

/-- A chip reset; after a thermal trip only a power-on ends the stop (R531). -/
def chipReset (kind : Nat) (s : State) : State := if s.pwr.thermtrip then s else resetDevice kind (retains s) s

/-- POWER_ON. -/
def powerOn (s : State) : State := resetDevice 0 (fun _ => false) s

/-! ### Start-up (R509) -/

/-- The life-cycle copies are compared, and the part takes the later state (R479). -/
def compareCopies (s : State) : State :=
  let l := s.lcs
  let words (f : Fuses) : List Nat := [fuseState f, fuseRead f.pending, fuseRead f.done]
  let differ := decide (words l.q0 ≠ words l.q2)
  let s := modLcs (fun l => { l with state := fuseState (laterCopy l), mismatch := differ, open_ := 0, wasOpen := 0 }) s
  let s := if differ then raise 0x001 evLcsCopyMismatch 0 0 0 0 s else s
  each ((upTo 3).filter (bit l.wasOpen ·)) (fun i t => raise 0x001 evLcsDebugClose (2 ^ i) 0 0 0 t) s

/-- The rank map and states are loaded from the flash, or take the default, which a working flash then stores (R390, R391). -/
def loadMap (s : State) : State :=
  match (if s.log.flashOk then s.flash.map else none) with
  | some m => modHbm (fun h => { h with map := m, rank := s.flash.rank }) s
  | none =>
    let (m, r) := defaultRanks s.part
    let s := modHbm (fun h => { h with map := m, rank := r }) s
    if s.log.flashOk then modFlash (fun f => { f with map := some m, rank := r }) s else s

/-- Stacks held over the reset that left their ratings lose their contents (R425). -/
def retainStacks (out : List Nat) (s : State) : State :=
  let held (d : Nat) : Bool := (stack s d).selfRefresh
  let keep (d : Nat) : Bool := held d && !out.contains d && !(zeroisePending s.lcs && decide (s.lcs.state = 4))
  let t := { s with mem := keptMem s keep, tmem := if mirrorKept s keep then s.tmem else [] }
  let t := modHbm (fun h => { h with poison := keptPoison s keep }) t
  let t := modCus (fun c => { c with ckpts := keptCkpts s keep, gen := storedGen (keptCkpts s keep) }) t
  let t := each (dies s.part) (fun d => modStack d (fun k => { k with retained := keep d, selfRefresh := false })) t
  each ((dies s.part).filter fun d => held d && out.contains d) (fun d t => raise (hbmSrc d 0) evHbmRetainLost 0 0 0 0 t) t

/-- An unfinished migration resumes from its checkpoint, or fills from chunk 0 when the contents of its source are lost
(R416, R423, R424). -/
def resumeMig (s : State) : State :=
  match (if s.log.flashOk then s.flash.mig else none) with
  | none => s
  | some g =>
    let src := (stack s (g.f / 3)).retained
    let dst := (stack s (g.s / 3)).retained
    modHbm (fun h => { h with mig := some { g with
      n := if src && dst then g.n else 0, fill := g.fill || !src, abort := false, at_ := s.now } }) s

/-- The die links train: every lane works. -/
def trainLinks (s : State) : State :=
  each (linksOf s.part) (fun x => modDieLink x (fun l => { l with laneOk := 2 ^ 17 - 1, inUse := 16, up := true })) s

/-- The lifetime fields are loaded from the newest snapshot (R470). -/
def loadLifetime (s : State) : State :=
  match s.flash.snaps.getLast? with
  | some n => modLog (fun l => { l with stats := allStats restartInterval n.entries }) s
  | none => s

/-- LOG_BOOT, and the state of the flash (R466, R527). -/
def bootRecord (s : State) : State :=
  let s := modPwr (fun p => { p with boots := s.flash.boots + 1 }) s
  let s := if s.log.flashOk then modFlash (fun f => { f with boots := f.boots + 1 }) s else s
  let s := raise 0x050 evLogBoot s.pwr.boots s.pwr.kind s.log.bootLost 0 s
  if s.log.flashOk then s else raise 0x050 evLogFlashFault 0 0 0 0 (logCnt 5 s)

/-- START_UP: reset is released. DESIGN CHOICE (log 102): `log_copy` is the copy the boot directory names even
where the flash is not identified or has failed (`flash_ok` 0), a case R18 states no value for. -/
def startUp (bifur flashOk : Bool) (differ out : List Nat) (s : State) : State :=
  if s.pwr.phase ≠ .reset ∨ !s.pwr.inReset then s
  else
    let s := modPwr (fun p => { p with inReset := false, phase := .started, startAt := s.now }) s
    let s := modHif (fun h => { h with bifurcated := bifur }) s
    let s := modLog (fun l => { l with flashOk := flashOk, snapAt := s.now, copy := s.flash.logCopy, next := s.flash.serial }) s
    let s := putReg .pwrInfraSel (BitVec.ofNat 32 (2 * b2n s.flash.logCopy)) s
    let s := bootRecord (loadLifetime s)
    let s := renewNonce (compareCopies s)
    let s := each (differ.filter (hasDie s.part)) (fun d t => raise 0x001 evLcsHbmMismatch d 0 0 0 t) s
    let s := resumeMig (retainStacks out (loadMap s))
    let s := trainLinks { s with ctimeBase := s.now, aligned := (dies s.part).map fun d => (d, true) }
    let s := cntInc 0x0D82 0 7 (modChk (fun c => { c with monitored := true }) s)
    if zeroisePending s.lcs ∧ s.lcs.state = 4 then beginZeroise (guardCheck s)
    else guardCheck (setCusState 2 csSelf (setCusState 1 csSelf s))

/-- Whole milliseconds since the release of reset. -/
def sinceStart (s : State) : Nat := Nat.min 65535 ((s.now - s.pwr.startAt) / 10 ^ 9)

/-! ### HBM training (R511, R512) -/

/-- A stack fails training: each of its ranks becomes FAILED, and the logical ranks they held are unmapped. -/
def stackFails (d : Nat) (s : State) : State :=
  each ((upTo 3).map (3 * d + ·)) (fun f t =>
    let t := match heldBy t f with
      | some m => setMap m none t
      | none => t
    if rankSt t f = 4 then t else raise (hbmSrc d (1 + f % 3)) evHbmRankFailed 0 0 0 0 (setRank f 4 t)) s

/-- A migration between ranks of which one is on a failed stack ends. -/
def migStackFails (d : Nat) (s : State) : State :=
  match s.hbm.mig with
  | some g => if g.s / 3 = d ∨ g.f / 3 = d then migFail g s else s
  | none => s

/-- The units of a die whose logical rank d.0 is unmapped stay in QUARANTINE with fault set. -/
def quarantineDie (d : Nat) (s : State) : State :=
  each ([domSlice (2 * d), domSlice (2 * d + 1)] ++ (upTo 6).map fun i => domCluster (6 * d + i))
    (fun n => modDomain n (fun x => { x with state := dsQuar, fault := true })) s

/-- The valid index entries of a die, by address. -/
def indexEntries (s : State) (d : Nat) : List Nat :=
  (s.mem.filter fun c => decide (mAddr d 0x100000000 ≤ c.1) && decide (c.1 < mAddr d 0x110000000) && decide (c.1 % 8 = 0)
    && c.2.getLsbD 0).map (·.1)

/-- An entry's record holds a committed key: not NEW, and no tombstone. -/
def entryStands (s : State) (d a : Nat) : Bool :=
  let r := idxRec d (idxEntry s a)
  decide (recKeyLen s r ≠ 0) && decide (recLife s r ≠ lifeNew)

/-- Build a half's free list from the records its index entries name. -/
def freeList (hf : Nat) (used : List Nat) (s : State) : State :=
  let mine := (used.filter fun r => recHalf r = hf).map recNo
  let top := mine.foldl (fun a n => Nat.max a (n + 1)) 0
  modHalf hf (fun _ => { fresh := top, freed := (upTo top).filter fun n => !mine.contains n }) s

/-- FREE_LIST_REBUILD: a die's slices scan their index buckets, clear the entries whose record does not stand, and build their
free lists; a record that was closing counts its timeout from now (R511). -/
def rebuildDie (d : Nat) (s : State) : State :=
  let es := indexEntries s d
  let s := each (es.filter fun a => !entryStands s d a) (fun a t => putIdx a 0 t) s
  let used := (es.filter (entryStands s d)).map fun a => idxRec d (idxEntry s a)
  let s := freeList (2 * d + 1) used (freeList (2 * d) used s)
  each (used.filter fun r => recLife s r = lifeClosing ∨ recLife s r = lifeClosed) (fun r => setEnd r (msNow s + 1)) s

/-- HBM_TRAINING_END: training completes; the stacks named fail it. At a warm start the configuration image is loaded into table
memory and the free lists are rebuilt. -/
def hbmTrainingEnd (failed : List Nat) (s : State) : State :=
  if s.pwr.phase ≠ .started then s
  else
    let bad := (dies s.part).filter failed.contains
    let good := (dies s.part).filter fun d => !failed.contains d
    let s := modPwr (fun p => { p with phase := .trained, hbmMs := sinceStart s, warm := good.any fun d => (stack s d).retained }) s
    let s := each good (fun d => modStack d (fun k => { k with trained := true })) s
    let s := each bad (fun d t => stackFails d (migStackFails d (modStack d (fun k => { k with retained := false }) t))) s
    let s := each ((dies s.part).filter fun d => (rankOf s (3 * d)).isNone) quarantineDie s
    guardCheck (each (good.filter fun d => (stack s d).retained) rebuildDie s)

/-- STARTUP_READY: the string is taken and the hold adopted, or zeroisation is complete. -/
def startupReady (s : State) : State :=
  if s.pwr.phase = .trained ∧ !s.lcs.zeroising ∧ (holdAdopted s ∨ (s.lcs.state = 4 ∧ zeroiseDone s.lcs)) then
    raise 0x010 evPwrReady 0 0 0 0 (modPwr (fun p => { p with phase := .ready, readyMs := sinceStart s }) s)
  else s

/-! ### Supplies (R430, R522) -/

/-- SUPPLY_OUT_OF_RATINGS. -/
def supplyOut (rail : Nat) (s : State) : State :=
  if s.chk.badRails.contains rail then s
  else
    let s := modChk (fun c => { c with badRails := c.badRails ++ [rail] }) s
    guardCheck (raise 0x010 evPwrSupplyAlarm 0 0 0 0 (cntInc 0x0D82 0 5 s))

/-- RAIL_WITHIN_TOLERANCE. -/
def railBack (rail : Nat) (s : State) : State :=
  guardCheck (modChk (fun c => { c with badRails := c.badRails.filter (· ≠ rail) }) s)

/-! ### Heat (R531, R532) -/

/-- The die alert temperature; a value outside 60–115 acts as the nearer limit. -/
def alertC (s : State) : Nat := Nat.min 115 (Nat.max 60 (cfg s .pwrThermCtrl 7 0))

/-- DIE_TEMP_READING. -/
def dieTemp (d : Nat) (t : Int) (s : State) : State :=
  if hasDie s.part d then
    guardCheck (thermCheck d t (alertC s) (modPwr (fun p => { p with temps := mset 0 p.temps d t }) s))
  else s

/-- THERMTRIP: a die sensor has reached 120 °C; the device enters chip reset with HBM contents lost, and holds every port down
and every ring stopped until the next power-on. -/
def thermtrip (d : Nat) (s : State) : State :=
  if hasDie s.part d ∧ 120 ≤ mget 0 s.pwr.temps d ∧ !s.pwr.thermtrip then
    modPwr (fun p => { p with thermtrip := true, phase := .tripped }) (resetDevice 1 (fun _ => false) s)
  else s

/-- POWER_ON. -/
def execPowerOn (s : State) : Out := .next (powerOn s)
/-- CHIP_RESET_PIN. -/
def execChipResetPin (s : State) : Out := .next (chipReset 1 s)
/-- START_UP. -/
def execStartUp (bifur flashOk : Bool) (hbmDiffer outOfRatings : List Nat) (s : State) : Out :=
  .next (startUp bifur flashOk hbmDiffer outOfRatings s)
/-- HBM_TRAINING_END. -/
def execHbmTrainingEnd (failed : List Nat) (s : State) : Out := .next (hbmTrainingEnd failed s)
/-- STARTUP_READY. -/
def execStartupReady (s : State) : Out := .next (startupReady s)
/-- SUPPLY_OUT_OF_RATINGS. -/
def execSupplyOutOfRatings (rail : Nat) (s : State) : Out := .next (supplyOut rail s)
/-- RAIL_WITHIN_TOLERANCE. -/
def execRailWithinTolerance (rail : Nat) (s : State) : Out := .next (railBack rail s)
/-- DIE_TEMP_READING. -/
def execDieTempReading (die : Nat) (temp : Int) (s : State) : Out := .next (dieTemp die temp s)
/-- THERMTRIP. -/
def execThermtrip (die : Nat) (s : State) : Out := .next (thermtrip die s)

end Sys2Proof.Machine
end

