-- ==== Sys2Proof/Machine/RegRead.lean ====
section
/-! DEFINITION. What a read of each register returns: its stored fields, and the status the device shows in the others. -/

namespace Sys2Proof.Machine

/-- A word of fields, lowest first. -/
def wordOf (l : List (Nat × Nat)) : Nat := pack l % 2 ^ 32

/-- A 32-bit piece of a wider value. -/
def piece (v i : Nat) : Nat := v / 2 ^ (32 * i) % 2 ^ 32

/-- The low or high word of a value. -/
def halfWord (v : Nat) (hi : Bool) : Nat := piece v (b2n hi)

/-- One bit per unit that meets a test. -/
def bitsOf (n : Nat) (f : Nat → Bool) : Nat := pack ((upTo n).map fun i => (1, b2n (f i)))

/-- The LCS block (R496). -/
def lcsView (s : State) : Reg → Nat
  | .lcsState => wordOf [(3, s.lcs.state), (4, 0), (1, b2n s.lcs.mismatch), (1, b2n (zeroisePending s.lcs)),
      (1, b2n (zeroiseDone s.lcs)), (2, (activeSlot s.lcs).getD 0), (4, bitsOf 4 (slotValid s.lcs)), (4, bitsOf 4 (slotUsed s.lcs))]
  | .lcsDebug => wordOf [(3, openNow s.lcs), (1, b2n (extestOpen s)), (1, b2n (scanOpen s.lcs))]
  | .lcsAuth => b2n s.lcs.logClear
  | .lcsNonce i => piece s.lcs.nonce i
  | .lcsTokenCtrl => wordOf [(8, s.lcs.result), (22, 0), (1, b2n s.lcs.busy)]
  | .lcsOwnerHash k i => piece (slotHash s.lcs k) i
  | r => mget 0 s.lcs.identity (regAddr r)

/-- Domains in QUARANTINE with fault set. -/
def faultDomains (s : State) : Nat := (s.pwr.domains.filter fun d => d.2.state = 3 ∧ d.2.fault).length

/-- PWR_STATUS (R515). -/
def pwrStatusView (s : State) : Nat :=
  wordOf [(1, b2n (decide (s.pwr.phase = .ready))), (1, b2n s.pwr.committed), (2, 0), (1, b2n s.pwr.warm), (3, s.pwr.kind),
    (8, 0), (8, s.pwr.boots), (8, Nat.min 255 (faultDomains s))]

/-- The PWR block (R515, R532). -/
def pwrView (s : State) : Reg → Nat
  | .pwrCtrl => 2 * b2n s.pwr.committed
  | .pwrStatus => pwrStatusView s
  | .pwrStartTime => wordOf [(16, s.pwr.readyMs), (16, s.pwr.hbmMs)]
  | .pwrThermCtrl => (stored s .pwrThermCtrl).toNat + 256 * b2n s.pwr.alert
  | .pwrThermStatus => wordOf ((upTo 4).map fun d => (8, ofSigned 8 (mget 0 s.pwr.temps d)))
  | .pwrInfraSel => wordOf [(1, cfg s .pwrInfraSel 0 0), (1, b2n s.flash.logCopy)]
  | .pwrDomainStatus n =>
    let d := domain s n
    wordOf [(3, d.state), (1, b2n d.fault), (4, d.cause), (8, d.gen)]
  | r => (stored s r).toNat

/-- The HIF block (R83–R85). -/
def hifView (s : State) : Reg → Nat
  | .hifCtrl => b2n s.hif.a.committed + 2 * b2n s.hif.b.committed
  | .hifStatus =>
    wordOf [(1, b2n s.hif.a.up), (1, b2n s.hif.b.up), (2, s.hif.a.rate), (1, b2n s.hif.bifurcated), (1, b2n s.hif.a.committed),
      (1, b2n s.hif.b.committed), (1, b2n s.hif.commitErr), (2, s.hif.b.rate), (6, 0), (8, s.hif.dmaFaults), (8, s.hif.ignored)]
  | .hifCommitErr => s.hif.firstRing
  | r => (stored s r).toNat

/-- TIM_STATUS (R384). -/
def timStatusView (s : State) : Nat :=
  let t := s.tim
  wordOf [(1, b2n t.copy), (1, b2n t.stepDone), (1, b2n t.traceable), (1, b2n t.holdover), (1, b2n t.locked), (1, b2n t.trefOk),
    (10, 0), (8, t.gen)]

/-- The TIM block (R384, R385). -/
def timView (s : State) : Reg → Nat
  | .timCtrl => 0
  | .timStatus => timStatusView s
  | .timSnapFrac => s.tim.snapFrac
  | .timSnapNs => s.tim.snapNs
  | .timSnapSec h => halfWord s.tim.snapSec h
  | .timOutStatus =>
    wordOf [(8, bitsOf 8 fun o => match toutOf s o with
        | some p => p.started
        | none => false),
      (8, bitsOf 8 fun o => (toutNewOf s o).isSome || (match toutOf s o with
        | some p => !p.started
        | none => false)),
      (2, bitsOf 2 fun k => (synceOf s k).squelched)]
  | .timPortComp n =>
    let c := mget (false, 0, 0) s.tim.comp n
    wordOf [(15, c.2.2), (1, 0), (15, c.2.1), (1, b2n c.1)]
  | r => (stored s r).toNat

/-- The CUS block (R456). -/
def cusView (s : State) : Reg → Nat
  | .cusStatus => wordOf [(2, s.cus.holder), (3, s.cus.aState), (3, s.cus.bState), (1, b2n s.cus.fault), (1, b2n s.cus.adopted)]
  | .cusGen => s.cus.gen % 2 ^ 32
  | .cusCtrl => 0
  | .cusPreloadStatus => wordOf [(2, s.cus.preload), (6, 0), (8, s.cus.cause)]
  | .cusCkptSeq => s.cus.seq % 2 ^ 32
  | .cusCkptAge => match s.cus.ckptAt with
    | some t => Nat.min (2 ^ 32 - 1) ((s.now - t) / 10 ^ 9)
    | none => 0
  | r => (stored s r).toNat

/-- The LOG block (R476). -/
def logView (s : State) : Reg → Nat
  | .logCtrl => cfg s .logCtrl 1 1 * 2 + b2n s.log.freeze
  | .logStatus =>
    wordOf [(16, Nat.min 0xFFFF s.log.staged.length), (1, b2n (decide (stagingMax ≤ s.log.staged.length))), (1, b2n s.log.flashOk),
      (1, b2n s.log.clearing)]
  | .logOldest h => halfWord s.flash.oldest h
  | .logNext h => halfWord s.log.next h
  | .logWin i => piece s.log.win i
  | .logWinStatus => wordOf [(1, b2n s.log.ready), (1, b2n s.log.outside), (1, b2n s.log.torn)]
  | .logStatWin i => piece s.log.statWin i
  | r => (stored s r).toNat

/-- The CHK block (R455). -/
def chkView (s : State) : Reg → Nat
  | .chkGuardStatus => s.chk.guard % 64 + 64 * b2n (decide (s.chk.guard % 64 = 63))
  | .chkFeedB _ | .chkFeedH _ | .chkFeedW _ => 0
  | .chkFeedRes e h => halfWord (feedResult s e) h
  | .chkFeedCount e => (feed s e).count
  | r => (stored s r).toNat

/-- A migration of a logical rank of the stack runs. -/
def migHere (s : State) (d : Nat) : Option Mig := s.hbm.mig.filter fun g => decide (g.m / 3 = d)

/-- The HBM block (R426). -/
def hbmView (s : State) : Reg → Nat
  | .hbmStatus d =>
    let k := stack s d
    wordOf [(2, 0), (1, b2n k.trained), (1, b2n k.refresh2x), (1, b2n k.panic), (1, b2n k.retained), (18, 0), (8, k.temp)]
  | .hbmMigStatus d =>
    let k := stack s d
    match migHere s d with
    | some g => wordOf [(2, k.outcome), (6, 0), (4, rankField g.s), (4, rankField g.f), (8, g.n), (7, 0), (1, 1)]
    | none => wordOf [(2, k.outcome), (6, 0), (4, rankField k.migS), (4, rankField k.migF), (8, k.chunks)]
  | .hbmRankMap d => wordOf ((upTo 3).map fun k => (5, match rankOf s (3 * d + k) with
    | some f => 16 + rankField f
    | none => 0))
  | .hbmRankStatus d => wordOf ((upTo 3).map fun k => (3, rankSt s (3 * d + k)))
  | .hbmRankCtrl _ => 0
  | r => (stored s r).toNat

/-- The FAB and BUF blocks (R322–R324). -/
def fabView (s : State) : Reg → Nat
  | .fabArbStatus => wordOf [(1, b2n s.fab.q0ok), (1, b2n s.fab.q2ok), (1, b2n s.fab.compare), (1, b2n s.fab.active)]
  | .fabDlStatus x =>
    let l := mget {} s.fab.links x
    wordOf [(5, l.inUse), (1, b2n l.up), (17, l.laneOk)]
  | .bufStatus d => wordOf [(19, freeCells s d), (13, Nat.min 8191 (mget 0 s.buf.leakedLast d))]
  | r => (stored s r).toNat

/-- Blocks of a die that are stale now; a block is stale until its digest is loaded. -/
def staleCount (s : State) (d : Nat) : Nat := 1024 - (s.fwd.cmp.filter fun c => c.1 / 1024 = d ∧ !c.2.stale).length

/-- Blocks of a die that are suspect now. -/
def suspectCount (s : State) (d : Nat) : Nat := (s.fwd.cmp.filter fun c => c.1 / 1024 = d ∧ c.2.suspect).length

/-- The classification and forwarding blocks (R133, R173). -/
def clsView (s : State) : Reg → Nat
  | .clsEpochStatus p =>
    let e := epochOf s p
    wordOf [(16, Nat.min 0xFFFF (if e.cur then e.inA else e.inB)), (14, 0), (1, b2n e.draining), (1, b2n e.cur)]
  | .fwdCmpStatus d => wordOf [(11, suspectCount s d), (5, 0), (11, staleCount s d)]
  | .fwdCmpSuspect d i => bitsOf 32 fun j => (cmpOf s d (32 * i + j)).suspect
  | .fwdCmpStale d i => bitsOf 32 fun j => (cmpOf s d (32 * i + j)).stale
  | r => (stored s r).toNat

/-- The state of a cluster as TSK_FW_STATE shows it. -/
def fwStateCode (s : State) (k : Nat) : Nat :=
  match (domain s (88 + k)).state with
  | 2 => 3
  | 3 => 4
  | _ => (cluster s k).fw

/-- The flow-engine and task blocks (R210, R249, R286–R289). -/
def flowView (s : State) : Reg → Nat
  | .fleSliceStatus n =>
    let v := slice s n
    wordOf [(1, b2n v.servesOwn), (1, b2n v.servesPartner), (1, b2n (decide (v.transfer ≠ .none))), (5, 0), (24, halfFree s n)]
  | .fleSpecStatus p => wordOf [(8, (pipe s p).stalled), (8, 0), (9, ((pipe s p).unstable.filter (·.mark)).length)]
  | .fleCtimeStatus d => b2n (mget false s.aligned d)
  | .tskSliceStatus n => freeSlots s n
  | .tskFwState k => wordOf [(3, fwStateCode s k), (1, (cluster s k).slot)]
  | .tskFwVer k => (cluster s k).version
  | .tskRollout =>
    let r := s.tsk.rollout
    wordOf [(1, r.slot), (7, 0), (8, r.selected), (8, r.done), (6, 0), (1, b2n r.failed), (1, b2n r.running)]
  | .tskRolloutCl => s.tsk.rollout.clusters % 2 ^ 24
  | r => (stored s r).toNat

/-- The word a read of a register returns, but for the debug window's. -/
def regView (s : State) (r : Reg) : Nat :=
  match r with
  | .lcsState | .lcsDebug | .lcsAuth | .lcsNonce _ | .lcsTokenCtrl | .lcsSerial _ | .lcsClass | .lcsIdcode | .lcsCompat _
  | .lcsDieLot _ _ | .lcsDiePos _ | .lcsHbmVendor _ | .lcsHbmSerial _ _ | .lcsOwnerHash _ _ | .lcsLanePath _ => lcsView s r
  | .pwrCtrl | .pwrStatus | .pwrStartTime | .pwrThermCtrl | .pwrThermStatus | .pwrInfraSel | .pwrDomainStatus _ => pwrView s r
  | .hifCtrl | .hifStatus | .hifCommitErr => hifView s r
  | .timCtrl | .timStatus | .timSnapFrac | .timSnapNs | .timSnapSec _ | .timOutStatus | .timPortComp _ => timView s r
  | .cusStatus | .cusGen | .cusCtrl | .cusPreloadStatus | .cusCkptSeq | .cusCkptAge => cusView s r
  | .logCtrl | .logStatus | .logOldest _ | .logNext _ | .logWin _ | .logWinStatus | .logStatWin _ => logView s r
  | .chkGuardStatus | .chkFeedB _ | .chkFeedH _ | .chkFeedW _ | .chkFeedRes _ _ | .chkFeedCount _ => chkView s r
  | .hbmStatus _ | .hbmMigStatus _ | .hbmRankMap _ | .hbmRankStatus _ | .hbmRankCtrl _ => hbmView s r
  | .fabArbStatus | .fabDlStatus _ | .bufStatus _ => fabView s r
  | .clsEpochStatus _ | .fwdCmpStatus _ | .fwdCmpSuspect _ _ | .fwdCmpStale _ _ => clsView s r
  | .fleSliceStatus _ | .fleSpecStatus _ | .fleCtimeStatus _ | .tskSliceStatus _ | .tskFwState _ | .tskFwVer _ | .tskRollout
  | .tskRolloutCl => flowView s r
  | _ => (stored s r).toNat

/-- A read of a register: the debug window reads zero while it is closed, and a word of on-die SRAM, whose layout the manual
does not give, while it is open (R487, R496). -/
def regRead (r : Reg) (s : State) : Nat × State :=
  if r = .lcsDbgData then
    if bit (openNow s.lcs) 2 then
      let (n, t) := useFree s
      (Config.freeValue n % 2 ^ 32, t)
    else (0, s)
  else (regView s r, s)

end Sys2Proof.Machine
end

