-- ==== Sys2Proof/Machine/RegRows.lean ====
section
/-! DEFINITION. Register writes and reads: what each register with a behaviour of its own does on a write, and the commands
that are one register access (R83–R94, R384, R426, R442, R443, R452, R471–R474, R499, R513, R528, R541). -/

namespace Sys2Proof.Machine

/-! ### Writes -/

/-- Do something when a bit of the value is 1. -/
def onBit (v : Word) (n : Nat) (f : State → State) (s : State) : State := if v.getLsbD n then f s else s

/-- A write of HIF_CTRL; through link B only link B's bits act (R83, R89). DESIGN CHOICE (log 101): one write with several
bits set commits, then resets, then restarts. -/
def hifCtrlWrite (path : Path) (v : Word) (s : State) : State :=
  let v := if path = .linkB then v &&& 0x2A else v
  let s := onBit v 1 (commitB path) (onBit v 0 commitA s)
  let s := onBit v 3 (resetLink .b) (onBit v 2 (resetLink .a) s)
  onBit v 5 (restartLink .b) (onBit v 4 (restartLink .a) s)

/-- A write of PWR_CTRL (R499, R513). -/
def pwrCtrlWrite (path : Path) (v : Word) (s : State) : State :=
  onBit v 0 (chipReset 2) (onBit v 1 (commitAll path) s)

/-- A write of PWR_INFRA_SEL (R17, R18). -/
def infraSelWrite (path : Path) (v : Word) (s : State) : State :=
  logCopyWrite (v.getLsbD 1) (plainWrite path .pwrInfraSel v s)

/-- A write of TIM_CTRL (R360, R384). -/
def timCtrlWrite (v : Word) (s : State) : State := onBit v 1 latchSnap (onBit v 0 (timeUnitReset false) s)

/-- A write of CUS_CTRL (R452, R456). -/
def cusCtrlWrite (v : Word) (s : State) : State :=
  onBit v 3 (selfTestRetry 2) (onBit v 2 (selfTestRetry 1) (onBit v 1 handover (onBit v 0 preload s)))

/-- A write of CHK_FEED_CFG (R443). -/
def feedCfgWrite (path : Path) (e : Nat) (v : Word) (s : State) : State :=
  onBit v 31 (feedStart e) (plainWrite path (.chkFeedCfg e) v s)

/-- A write of a length register: disabling the length's table releases its filter counts (R159). -/
def lenWrite (path : Path) (d : Nat) (v6 : Bool) (l : Nat) (v : Word) (s : State) : State :=
  let t := plainWrite path (lpmReg d v6 l) v s
  if cfgBit t (lpmReg d v6 l) 31 then t else filterRelease d v6 l t

/-- A write that reaches a register, by the register's behaviour. -/
def busWrite (path : Path) (r : Reg) (v : Word) (s : State) : State :=
  match r with
  | .hifCtrl => hifCtrlWrite path v s
  | .hifStatus => onBit v 7 (modHif fun h => { h with commitErr := false }) s
  | .pwrCtrl => pwrCtrlWrite path v s
  | .pwrInfraSel => infraSelWrite path v s
  | .timCtrl => timCtrlWrite v s
  | .cusCtrl => cusCtrlWrite v s
  | .logCtrl => logCtrlWrite v s
  | .logCursor false => cursorWrite v s
  | .logStatSel => statSelWrite v s
  | .chkFeedCfg e => feedCfgWrite path e v s
  | .chkFeedB e => feedWrite e 1 v s
  | .chkFeedH e => feedWrite e 2 v s
  | .chkFeedW e => feedWrite e 4 v s
  | .hbmMigCtrl d => migCtrlWrite d v s
  | .hbmRankCtrl d => rankCtrlWrite d v s
  | .lcsTokenCtrl => onBit v 31 (tokenGo path) s
  | .tskRollout => onBit v 30 (modTsk fun t => { t with rollout := { t.rollout with failed := false } }) s
  | .tskClusterMaskLo k => checkServed (k / 3) (plainWrite path (.tskClusterMaskLo k) v s)
  | .tskClusterMaskHi k => checkServed (k / 3) (plainWrite path (.tskClusterMaskHi k) v s)
  | .tskClusterMode k => checkServed (k / 3) (plainWrite path (.tskClusterMode k) v s)
  | .fwdLpm4Len d l => lenWrite path d false l v s
  | .fwdLpm6Len d l => lenWrite path d true l v s
  | .chkScrubCfg => guardCheck (plainWrite path .chkScrubCfg v s)
  | .hbmScrubCfg d => guardCheck (plainWrite path (.hbmScrubCfg d) v s)
  | .fwdCmpCfg d => guardCheck (plainWrite path (.fwdCmpCfg d) v s)
  | r => plainWrite path r v s

/-- A write of a register on a path. -/
def regWrite (path : Path) (r : Reg) (v : Word) (s : State) : State := regWriteGate path r (busWrite path r v) s

/-- BAR2 of the path's link stands at this address and up in REGISTER_WRITE's operand, above BAR0's 16 MiB (R39; DESIGN
CHOICE, log 100). -/
def bar2Base : Nat := 0x1000000

/-- A write of BAR2: the MSI-X table, 16 bytes for each vector from offset 0 up, with the message address, its upper half,
the data and the mask bit, as the MSI-X standard lays an entry out (R39; PRESUMED, log 100). The pending-bit array is read
only. -/
def bar2Write (l : Link) (off : Nat) (v : Word) (s : State) : State :=
  if off % 4 ≠ 0 ∨ 4096 ≤ off then s
  else modVec l (off / 16) (fun x =>
    match off / 4 % 4 with
    | 0 => { x with addr := x.addr / 2 ^ 32 * 2 ^ 32 + v.toNat / 4 * 4 }
    | 1 => { x with addr := x.addr % 2 ^ 32 + v.toNat * 2 ^ 32 }
    | 2 => { x with data := v.toNat }
    | _ => { x with masked := v.getLsbD 0 }) s

/-- A write of an address on a path; a write of a reserved address is ignored and not counted (R538). -/
def addrWrite (path : Path) (a : Nat) (v : Word) (s : State) : State :=
  if bar2Base ≤ a then
    if pathOpen s path then
      match path with
      | .linkA => bar2Write .a (a - bar2Base) v s
      | .linkB => bar2Write .b (a - bar2Base) v s
      | .smbus => s
    else s
  else match regAt a with
  | some r => regWrite path r v s
  | none => s

/-- REGISTER_WRITE (R541). -/
def execRegisterWrite (path : Path) (addr : Nat) (value : Word) (s : State) : Out := .next (addrWrite path addr value s)
/-- COMMIT_A: commit_a is written 1 (R94). -/
def execCommitA (path : Path) (s : State) : Out := .next (regWrite path .hifCtrl 1 s)
/-- COMMIT_B: commit_b is written 1 (R94). -/
def execCommitB (path : Path) (s : State) : Out := .next (regWrite path .hifCtrl 2 s)
/-- COMMIT_ALL: commit_all is written 1 (R513). -/
def execCommitAll (path : Path) (s : State) : Out := .next (regWrite path .pwrCtrl 2 s)
/-- LOG_COPY_SELECT: log_copy is written, tim_copy carries its present value (R18). -/
def execLogCopySelect (path : Path) (copy : Bool) (s : State) : Out :=
  .next (regWrite path .pwrInfraSel ((stored s .pwrInfraSel &&& 1) + if copy then 2 else 0) s)
/-- CHIP_RESET_REGISTER: chip_reset is written 1 (R499). -/
def execChipResetRegister (path : Path) (s : State) : Out := .next (regWrite path .pwrCtrl 1 s)

/-- A host-interface reset by its cause (R80, R510). -/
def hostInterfaceReset (l : Link) : HirCause → State → State
  | .flr, s | .hotReset, s => resetLink l s
  | .linkDown, s => if linkExists s l then linkDown l (resetLink l s) else s
  | .perst, s =>
    modHif (fun h => { h with perst := false }) (linkDown .a (linkDown .b (resetLink .a (resetLink .b s))))
  | .resetBit path, s => regWrite path .hifCtrl (if l = .a then 4 else 8) s

/-- HOST_INTERFACE_RESET. -/
def execHostInterfaceReset (link : Link) (cause : HirCause) (s : State) : Out := .next (hostInterfaceReset link cause s)
/-- RING_RESTART: a restart bit is written 1 (R81). -/
def execRingRestart (path : Path) (link : Link) (s : State) : Out :=
  .next (regWrite path .hifCtrl (if link = .a then 16 else 32) s)
/-- TIME_UNIT_RESET: tu_reset is written 1 (R360). -/
def execTimeUnitReset (path : Path) (s : State) : Out := .next (regWrite path .timCtrl 1 s)
/-- SNAP: snap is written 1 (R384). -/
def execSnap (path : Path) (s : State) : Out := .next (regWrite path .timCtrl 2 s)
/-- MIG_START: HBM_MIG_CTRL is written with start at 1 (R411). -/
def execMigStart (path : Path) (stack : Nat) (value : Word) (s : State) : Out :=
  .next (regWrite path (.hbmMigCtrl stack) (value ||| 0x80000000) s)
/-- MIG_ABORT: HBM_MIG_CTRL is written with abort at 1 (R415). -/
def execMigAbort (path : Path) (stack : Nat) (value : Word) (s : State) : Out :=
  .next (regWrite path (.hbmMigCtrl stack) (value ||| 0x40000000) s)
/-- RANK_REENABLE: HBM_RANK_CTRL is written (R417). -/
def execRankReenable (path : Path) (stack : Nat) (value : Word) (s : State) : Out :=
  .next (regWrite path (.hbmRankCtrl stack) value s)
/-- FEED_START: CHK_FEED_CFG is written with start at 1 (R443). -/
def execFeedStart (path : Path) (engine : Nat) (value : Word) (s : State) : Out :=
  .next (regWrite path (.chkFeedCfg engine) (value ||| 0x80000000) s)
/-- CHK_FEED_B: one byte (R442). -/
def execChkFeedB (path : Path) (engine : Nat) (value : Word) (s : State) : Out := .next (regWrite path (.chkFeedB engine) value s)
/-- CHK_FEED_H: two bytes (R442). -/
def execChkFeedH (path : Path) (engine : Nat) (value : Word) (s : State) : Out := .next (regWrite path (.chkFeedH engine) value s)
/-- CHK_FEED_W: four bytes (R442). -/
def execChkFeedW (path : Path) (engine : Nat) (value : Word) (s : State) : Out := .next (regWrite path (.chkFeedW engine) value s)
/-- PRELOAD: preload is written 1 (R452). -/
def execPreload (path : Path) (s : State) : Out := .next (regWrite path .cusCtrl 1 s)
/-- HANDOVER: handover is written 1 (R452). -/
def execHandover (path : Path) (s : State) : Out := .next (regWrite path .cusCtrl 2 s)
/-- SELF_TEST_RETRY: retry_a or retry_b is written 1 (R456). -/
def execSelfTestRetry (path : Path) (cusB : Bool) (s : State) : Out :=
  .next (regWrite path .cusCtrl (if cusB then 8 else 4) s)
/-- LOG_CURSOR_LOAD: LOG_CURSOR_LO is written (R471). -/
def execLogCursorLoad (path : Path) (value : Word) (s : State) : Out := .next (regWrite path (.logCursor false) value s)
/-- LOG_STAT_SEL is written (R472). -/
def execLogStatSel (path : Path) (value : Word) (s : State) : Out := .next (regWrite path .logStatSel value s)
/-- LOG_FREEZE: freeze is written 1; auto keeps its value (R473). -/
def execLogFreeze (path : Path) (s : State) : Out := .next (regWrite path .logCtrl ((stored s .logCtrl &&& 2) ||| 1) s)
/-- LOG_CTRL_CLEAR: clear is written 1; auto and freeze keep their values (R474). -/
def execLogCtrlClear (path : Path) (s : State) : Out :=
  .next (regWrite path .logCtrl ((stored s .logCtrl &&& 2) ||| (if s.log.freeze then 5 else 4)) s)

/-! ### Reads -/

/-- What reading a register returns and does: LOG_WIN_7 may advance the cursor (R471). -/
def busRead (r : Reg) (s : State) : State :=
  if r = .logWin 7 then win7Read s
  else
    let (v, s) := regRead r s
    { s with readData := BitVec.ofNat 32 v }

/-- A read of a register on a path. -/
def regReadOn (path : Path) (r : Reg) (s : State) : State := regReadGate path r (busRead r) s

/-- CHK_FEED_RES_READ (R443). -/
def execChkFeedResRead (path : Path) (engine : Nat) (high : Bool) (s : State) : Out :=
  .next (regReadOn path (.chkFeedRes engine high) s)
/-- LOG_WIN_7_READ (R471). -/
def execLogWin7Read (path : Path) (s : State) : Out := .next (regReadOn path (.logWin 7) s)

/-! ### The service port (R528) -/

/-- The offset advances by 4. -/
def smbNext (s : State) : State := { s with smb := { s.smb with offset := (s.smb.offset + 4) % 2 ^ 32 } }

/-- SMBUS_SET_OFFSET. -/
def execSmbusSetOffset (offset : Nat) (s : State) : Out :=
  .next (if answering s then { s with smb := { s.smb with offset := offset % 2 ^ 32 } } else s)

/-- SMBUS_WRITE: a transaction whose PEC fails has no effect. -/
def execSmbusWrite (value : Word) (pecOk : Bool) (s : State) : Out :=
  .next (if answering s && pecOk then smbNext (addrWrite .smbus s.smb.offset value s) else s)

/-- The register a service read returns; reading PWR_STATUS clears the fatal alert. -/
def smbRead (s : State) : State :=
  match regAt s.smb.offset with
  | some r =>
    let s := regReadOn .smbus r s
    if r = .pwrStatus then { s with smb := { s.smb with fatal := false } } else s
  | none => { s with readData := 0 }

/-- SMBUS_READ. -/
def execSmbusRead (pecOk : Bool) (s : State) : Out := .next (if answering s && pecOk then smbNext (smbRead s) else s)

end Sys2Proof.Machine
end

