-- ==== Sys2Proof/Machine/Dispatch.lean ====
section
/-! DEFINITION. The meaning of each command: one arm per row of the operation table. -/

namespace Sys2Proof.Machine

/-- The command's effect on everything but the queue. -/
def exec (i : Instr) (s : State) : Host.Outcome State Fault Refusal :=
  match i with
  | .registerWrite path addr value => Sys2Proof.Machine.execRegisterWrite path addr value s
  | .commitA path => Sys2Proof.Machine.execCommitA path s
  | .commitB path => Sys2Proof.Machine.execCommitB path s
  | .commitAll path => Sys2Proof.Machine.execCommitAll path s
  | .logCopySelect path copy => Sys2Proof.Machine.execLogCopySelect path copy s
  | .powerOn => Sys2Proof.Machine.execPowerOn s
  | .chipResetPin => Sys2Proof.Machine.execChipResetPin s
  | .chipResetRegister path => Sys2Proof.Machine.execChipResetRegister path s
  | .startUp bifur flashOk hbmDiffer outOfRatings => Sys2Proof.Machine.execStartUp bifur flashOk hbmDiffer outOfRatings s
  | .hbmTrainingEnd failed => Sys2Proof.Machine.execHbmTrainingEnd failed s
  | .startupReady => Sys2Proof.Machine.execStartupReady s
  | .pePerstRelease => Sys2Proof.Machine.execPePerstRelease s
  | .pcieLinkUp link rate => Sys2Proof.Machine.execPcieLinkUp link rate s
  | .hostInterfaceReset link cause => Sys2Proof.Machine.execHostInterfaceReset link cause s
  | .ringRestart path link => Sys2Proof.Machine.execRingRestart path link s
  | .heartbeat => Sys2Proof.Machine.execHeartbeat s
  | .pollRead link page block visible => Sys2Proof.Machine.execPollRead link page block visible s
  | .pollData link page block => Sys2Proof.Machine.execPollData link page block s
  | .poolEntryRead pool => Sys2Proof.Machine.execPoolEntryRead pool s
  | .eventProducerWrite ring => Sys2Proof.Machine.execEventProducerWrite ring s
  | .msixMessage link vector unmasked => Sys2Proof.Machine.execMsixMessage link vector unmasked s
  | .nop h => Sys2Proof.Machine.execNop h s
  | .ringSetQuery h ring => Sys2Proof.Machine.execRingSetQuery h ring s
  | .ringSetEnable h ring => Sys2Proof.Machine.execRingSetEnable h ring s
  | .ringSetDisable h ring => Sys2Proof.Machine.execRingSetDisable h ring s
  | .ringSetMove h ring sizeCode base => Sys2Proof.Machine.execRingSetMove h ring sizeCode base s
  | .poolSetQuery h pool => Sys2Proof.Machine.execPoolSetQuery h pool s
  | .poolSetFlush h pool hostAddr => Sys2Proof.Machine.execPoolSetFlush h pool hostAddr s
  | .abort h ring index => Sys2Proof.Machine.execAbort h ring index s
  | .fence h => Sys2Proof.Machine.execFence h s
  | .tableWrite h t => Sys2Proof.Machine.execTableWrite h t s
  | .tableRead h t => Sys2Proof.Machine.execTableRead h t s
  | .tableBulkWrite h t => Sys2Proof.Machine.execTableBulkWrite h t s
  | .tableBulkRead h t => Sys2Proof.Machine.execTableBulkRead h t s
  | .tableScan h t => Sys2Proof.Machine.execTableScan h t s
  | .digestSet h t => Sys2Proof.Machine.execDigestSet h t s
  | .epochFlip h t => Sys2Proof.Machine.execEpochFlip h t s
  | .flowWrite h t => Sys2Proof.Machine.execFlowWrite h t s
  | .flowDelete h t => Sys2Proof.Machine.execFlowDelete h t s
  | .flowRead h t => Sys2Proof.Machine.execFlowRead h t s
  | .flowRestore h t => Sys2Proof.Machine.execFlowRestore h t s
  | .counterRead h t => Sys2Proof.Machine.execCounterRead h t s
  | .counterClear h t => Sys2Proof.Machine.execCounterClear h t s
  | .shaperSet h t => Sys2Proof.Machine.execShaperSet h t s
  | .gateLoad h t => Sys2Proof.Machine.execGateLoad h t s
  | .memRead h m => Sys2Proof.Machine.execMemRead h m s
  | .memWrite h m => Sys2Proof.Machine.execMemWrite h m s
  | .checkScan h m => Sys2Proof.Machine.execCheckScan h m s
  | .timeSetRead h => Sys2Proof.Machine.execTimeSetRead h s
  | .timeSetStep h offset time off => Sys2Proof.Machine.execTimeSetStep h offset time off s
  | .timeSetRate h rate => Sys2Proof.Machine.execTimeSetRate h rate s
  | .timeSetMarkTraceable h => Sys2Proof.Machine.execTimeSetMarkTraceable h s
  | .timeSetTout h c => Sys2Proof.Machine.execTimeSetTout h c s
  | .timeSetPeerDelay h port delay => Sys2Proof.Machine.execTimeSetPeerDelay h port delay s
  | .timeSetSynce h output enable lane divider => Sys2Proof.Machine.execTimeSetSynce h output enable lane divider s
  | .fwStage h m => Sys2Proof.Machine.execFwStage h m s
  | .fwSwitch h slot mask drainUs => Sys2Proof.Machine.execFwSwitch h slot mask drainUs s
  | .domainCtlQuery h => Sys2Proof.Machine.execDomainCtlQuery h s
  | .domainCtlOff h => Sys2Proof.Machine.execDomainCtlOff h s
  | .domainCtlOn h => Sys2Proof.Machine.execDomainCtlOn h s
  | .domainCtlReinit h srcPipe => Sys2Proof.Machine.execDomainCtlReinit h srcPipe s
  | .domainCtlRestart h srcPipe => Sys2Proof.Machine.execDomainCtlRestart h srcPipe s
  | .g3Nop h => Sys2Proof.Machine.execG3Nop h s
  | .g3TableWrite h b => Sys2Proof.Machine.execG3TableWrite h b s
  | .g3TableRead h b => Sys2Proof.Machine.execG3TableRead h b s
  | .g3CounterRead h b => Sys2Proof.Machine.execG3CounterRead h b s
  | .g3FlowDelete h record => Sys2Proof.Machine.execG3FlowDelete h record s
  | .longCommandStep ring index => Sys2Proof.Machine.execLongCommandStep ring index s
  | .heldCommandStart ring index => Sys2Proof.Machine.execHeldCommandStart ring index s
  | .injectPort d => Sys2Proof.Machine.execInjectPort d s
  | .injectPipe d => Sys2Proof.Machine.execInjectPipe d s
  | .puntBufferGrant pool => Sys2Proof.Machine.execPuntBufferGrant pool s
  | .puntPoolTimeout pool => Sys2Proof.Machine.execPuntPoolTimeout pool s
  | .frameReceive port bytes => Sys2Proof.Machine.execFrameReceive port bytes s
  | .packetPass pipe => Sys2Proof.Machine.execPacketPass pipe s
  | .recirculation pipe => Sys2Proof.Machine.execRecirculation pipe s
  | .frameCheck packet fcsOk => Sys2Proof.Machine.execFrameCheck packet fcsOk s
  | .flowRequest slice => Sys2Proof.Machine.execFlowRequest slice s
  | .flowFetchDone slice => Sys2Proof.Machine.execFlowFetchDone slice s
  | .frameCheckReport slice => Sys2Proof.Machine.execFrameCheckReport slice s
  | .hbmWriteAccepted slice => Sys2Proof.Machine.execHbmWriteAccepted slice s
  | .createTmoExpiry slice record => Sys2Proof.Machine.execCreateTmoExpiry slice record s
  | .backendRequest slice => Sys2Proof.Machine.execBackendRequest slice s
  | .ownerSwitch slice => Sys2Proof.Machine.execOwnerSwitch slice s
  | .hotLineWritebackDone slice record => Sys2Proof.Machine.execHotLineWritebackDone slice record s
  | .flowSweepVisit slice => Sys2Proof.Machine.execFlowSweepVisit slice s
  | .exportRoom slice => Sys2Proof.Machine.execExportRoom slice s
  | .exportTmoExpiry slice => Sys2Proof.Machine.execExportTmoExpiry slice s
  | .peerEnd slice => Sys2Proof.Machine.execPeerEnd slice s
  | .portRelease slice => Sys2Proof.Machine.execPortRelease slice s
  | .natBlockFree slice => Sys2Proof.Machine.execNatBlockFree slice s
  | .ctNotice slice => Sys2Proof.Machine.execCtNotice slice s
  | .deltaSend pipe record => Sys2Proof.Machine.execDeltaSend pipe record s
  | .deltaArrival slice => Sys2Proof.Machine.execDeltaArrival slice s
  | .flowPull slice pipe => Sys2Proof.Machine.execFlowPull slice pipe s
  | .pullAnswer slice record => Sys2Proof.Machine.execPullAnswer slice record s
  | .answer slice pipe => Sys2Proof.Machine.execAnswer slice pipe s
  | .invalidation slice pipe => Sys2Proof.Machine.execInvalidation slice pipe s
  | .invalidationAck slice => Sys2Proof.Machine.execInvalidationAck slice s
  | .horizonStampForm slice => Sys2Proof.Machine.execHorizonStampForm slice s
  | .horizonStamp slice pipe => Sys2Proof.Machine.execHorizonStamp slice pipe s
  | .finalStamp slice pipe => Sys2Proof.Machine.execFinalStamp slice pipe s
  | .confirmNotice packet => Sys2Proof.Machine.execConfirmNotice packet s
  | .specTimeout pipe => Sys2Proof.Machine.execSpecTimeout pipe s
  | .replay pipe => Sys2Proof.Machine.execReplay pipe s
  | .unstableEntryExpiry pipe record => Sys2Proof.Machine.execUnstableEntryExpiry pipe record s
  | .stallNsExpiry pipe slice => Sys2Proof.Machine.execStallNsExpiry pipe slice s
  | .learnRequest slice => Sys2Proof.Machine.execLearnRequest slice s
  | .hitNotice slice => Sys2Proof.Machine.execHitNotice slice s
  | .l2Broadcast die => Sys2Proof.Machine.execL2Broadcast die s
  | .l2Delete die => Sys2Proof.Machine.execL2Delete die s
  | .l2AgeVisit slice => Sys2Proof.Machine.execL2AgeVisit slice s
  | .shadowCompare die block => Sys2Proof.Machine.execShadowCompare die block s
  | .matchBankUnitWrite pipe bank reserved => Sys2Proof.Machine.execMatchBankUnitWrite pipe bank reserved s
  | .matchBankScrub pipe bank agrees => Sys2Proof.Machine.execMatchBankScrub pipe bank agrees s
  | .coreInstruction core => Sys2Proof.Machine.execCoreInstruction core s
  | .wkGet core rd => Sys2Proof.Machine.execWkGet core rd s
  | .wkRel core rs1 => Sys2Proof.Machine.execWkRel core rs1 s
  | .wkHand core rs1 rs2 => Sys2Proof.Machine.execWkHand core rs1 rs2 s
  | .wkNew core rd rs1 => Sys2Proof.Machine.execWkNew core rd rs1 s
  | .wkCancel core rd rs1 => Sys2Proof.Machine.execWkCancel core rd rs1 s
  | .wkFlow core rd => Sys2Proof.Machine.execWkFlow core rd s
  | .wkEvt core rs1 rs2 => Sys2Proof.Machine.execWkEvt core rs1 rs2 s
  | .commit slice => Sys2Proof.Machine.execCommit slice s
  | .reject slice => Sys2Proof.Machine.execReject slice s
  | .deny slice => Sys2Proof.Machine.execDeny slice s
  | .setAction slice => Sys2Proof.Machine.execSetAction slice s
  | .close slice => Sys2Proof.Machine.execClose slice s
  | .age slice => Sys2Proof.Machine.execAge slice s
  | .export_ slice => Sys2Proof.Machine.execExport slice s
  | .read slice => Sys2Proof.Machine.execRead slice s
  | .rebind slice => Sys2Proof.Machine.execRebind slice s
  | .natBlock slice => Sys2Proof.Machine.execNatBlock slice s
  | .natPort slice => Sys2Proof.Machine.execNatPort slice s
  | .setFw slice => Sys2Proof.Machine.execSetFw slice s
  | .wkFlowReply core => Sys2Proof.Machine.execWkFlowReply core s
  | .timerOperand slice task => Sys2Proof.Machine.execTimerOperand slice task s
  | .operandArrival slice task operand => Sys2Proof.Machine.execOperandArrival slice task operand s
  | .taskDispatch slice => Sys2Proof.Machine.execTaskDispatch slice s
  | .runLimitExpiry core => Sys2Proof.Machine.execRunLimitExpiry core s
  | .holdLimitExpiry slice lock => Sys2Proof.Machine.execHoldLimitExpiry slice lock s
  | .preemption core => Sys2Proof.Machine.execPreemption core s
  | .rolloutClusterDrained => Sys2Proof.Machine.execRolloutClusterDrained s
  | .drainUsExpiry => Sys2Proof.Machine.execDrainUsExpiry s
  | .rolloutLoadEnd readable => Sys2Proof.Machine.execRolloutLoadEnd readable s
  | .arbiterMatch differ => Sys2Proof.Machine.execArbiterMatch differ s
  | .arbiterSelfCheckEnd q0 q2 => Sys2Proof.Machine.execArbiterSelfCheckEnd q0 q2 s
  | .failedCopySelfCheck pass => Sys2Proof.Machine.execFailedCopySelfCheck pass s
  | .linkCellReceive link forward lane intact => Sys2Proof.Machine.execLinkCellReceive link forward lane intact s
  | .linkAck link forward => Sys2Proof.Machine.execLinkAck link forward s
  | .linkNak link forward => Sys2Proof.Machine.execLinkNak link forward s
  | .linkResendTimeout link forward => Sys2Proof.Machine.execLinkResendTimeout link forward s
  | .laneErrorInterval link lane => Sys2Proof.Machine.execLaneErrorInterval link lane s
  | .reseqGapTimeout src dst => Sys2Proof.Machine.execReseqGapTimeout src dst s
  | .auditStart die => Sys2Proof.Machine.execAuditStart die s
  | .auditEnd die => Sys2Proof.Machine.execAuditEnd die s
  | .pfcXoffRepeat port pri => Sys2Proof.Machine.execPfcXoffRepeat port pri s
  | .pfcFrameReceive port frame => Sys2Proof.Machine.execPfcFrameReceive port frame s
  | .pfcPauseExpiry port pri => Sys2Proof.Machine.execPfcPauseExpiry port pri s
  | .pfcWatchdogExpiry port pri => Sys2Proof.Machine.execPfcWatchdogExpiry port pri s
  | .pfcWatchdogRestoreTimer port pri => Sys2Proof.Machine.execPfcWatchdogRestoreTimer port pri s
  | .mcastHoldExpiry packet port => Sys2Proof.Machine.execMcastHoldExpiry packet port s
  | .schedulerSelect port => Sys2Proof.Machine.execSchedulerSelect port s
  | .frameTransmitStart port corrupt => Sys2Proof.Machine.execFrameTransmitStart port corrupt s
  | .frameTransmitEnd port => Sys2Proof.Machine.execFrameTransmitEnd port s
  | .shaperUpdate => Sys2Proof.Machine.execShaperUpdate s
  | .gateChange port => Sys2Proof.Machine.execGateChange port s
  | .gateListStart port => Sys2Proof.Machine.execGateListStart port s
  | .queueSample die => Sys2Proof.Machine.execQueueSample die s
  | .linkTrainingDone port => Sys2Proof.Machine.execLinkTrainingDone port s
  | .linkLoss port => Sys2Proof.Machine.execLinkLoss port s
  | .portCompReady port rxComp txComp => Sys2Proof.Machine.execPortCompReady port rxComp txComp s
  | .timeUnitReset path => Sys2Proof.Machine.execTimeUnitReset path s
  | .snap path => Sys2Proof.Machine.execSnap path s
  | .trefLoss => Sys2Proof.Machine.execTrefLoss s
  | .trefValid => Sys2Proof.Machine.execTrefValid s
  | .pllLock => Sys2Proof.Machine.execPllLock s
  | .holdoverLimit => Sys2Proof.Machine.execHoldoverLimit s
  | .toutEdge output => Sys2Proof.Machine.execToutEdge output s
  | .tinEdge input falling => Sys2Proof.Machine.execTinEdge input falling s
  | .synceLaneLoss output => Sys2Proof.Machine.execSynceLaneLoss output s
  | .synceUnsquelch output => Sys2Proof.Machine.execSynceUnsquelch output s
  | .hbmAccess stack ecc => Sys2Proof.Machine.execHbmAccess stack ecc s
  | .hbmRefresh stack bank => Sys2Proof.Machine.execHbmRefresh stack bank s
  | .hbmTempRead stack temp => Sys2Proof.Machine.execHbmTempRead stack temp s
  | .patrolScrub stack rank ecc => Sys2Proof.Machine.execPatrolScrub stack rank ecc s
  | .rankProbe stack rank ecc => Sys2Proof.Machine.execRankProbe stack rank ecc s
  | .migStart path stack value => Sys2Proof.Machine.execMigStart path stack value s
  | .migAbort path stack value => Sys2Proof.Machine.execMigAbort path stack value s
  | .migrationChunk badBlocks targetFailed => Sys2Proof.Machine.execMigrationChunk badBlocks targetFailed s
  | .rankReenable path stack value => Sys2Proof.Machine.execRankReenable path stack value s
  | .rankPrepareEnd stack rank ok => Sys2Proof.Machine.execRankPrepareEnd stack rank ok s
  | .sramScrub die kind address ecc => Sys2Proof.Machine.execSramScrub die kind address ecc s
  | .clockLoss die dom => Sys2Proof.Machine.execClockLoss die dom s
  | .feedStart path engine value => Sys2Proof.Machine.execFeedStart path engine value s
  | .chkFeedB path engine value => Sys2Proof.Machine.execChkFeedB path engine value s
  | .chkFeedH path engine value => Sys2Proof.Machine.execChkFeedH path engine value s
  | .chkFeedW path engine value => Sys2Proof.Machine.execChkFeedW path engine value s
  | .chkFeedResRead path engine high => Sys2Proof.Machine.execChkFeedResRead path engine high s
  | .cusWatchdogExpiry => Sys2Proof.Machine.execCusWatchdogExpiry s
  | .stringRelease cause => Sys2Proof.Machine.execStringRelease cause s
  | .selfTestEnd cusB pass => Sys2Proof.Machine.execSelfTestEnd cusB pass s
  | .stringTake cusB => Sys2Proof.Machine.execStringTake cusB s
  | .adoption => Sys2Proof.Machine.execAdoption s
  | .checkpoint => Sys2Proof.Machine.execCheckpoint s
  | .custodianActuatorWrite cusB actuator value => Sys2Proof.Machine.execCustodianActuatorWrite cusB actuator value s
  | .stringCopyDisagree => Sys2Proof.Machine.execStringCopyDisagree s
  | .preload path => Sys2Proof.Machine.execPreload path s
  | .preloadEnd crcOk readable => Sys2Proof.Machine.execPreloadEnd crcOk readable s
  | .handover path => Sys2Proof.Machine.execHandover path s
  | .selfTestRetry path cusB => Sys2Proof.Machine.execSelfTestRetry path cusB s
  | .logPersist programOk => Sys2Proof.Machine.execLogPersist programOk s
  | .statSample source value => Sys2Proof.Machine.execStatSample source value s
  | .statSnapshot => Sys2Proof.Machine.execStatSnapshot s
  | .logCursorLoad path value => Sys2Proof.Machine.execLogCursorLoad path value s
  | .logWindowReady => Sys2Proof.Machine.execLogWindowReady s
  | .logWin7Read path => Sys2Proof.Machine.execLogWin7Read path s
  | .logStatSel path value => Sys2Proof.Machine.execLogStatSel path value s
  | .logFreeze path => Sys2Proof.Machine.execLogFreeze path s
  | .logCtrlClear path => Sys2Proof.Machine.execLogCtrlClear path s
  | .logClearEraseEnd => Sys2Proof.Machine.execLogClearEraseEnd s
  | .testDone path => Sys2Proof.Machine.execTestDone path s
  | .seal_ path => Sys2Proof.Machine.execSeal path s
  | .service path => Sys2Proof.Machine.execService path s
  | .logClear path => Sys2Proof.Machine.execLogClear path s
  | .keyRotate path => Sys2Proof.Machine.execKeyRotate path s
  | .return_ path => Sys2Proof.Machine.execReturn path s
  | .vendorDebug path => Sys2Proof.Machine.execVendorDebug path s
  | .tokenResult fusesOk => Sys2Proof.Machine.execTokenResult fusesOk s
  | .zeroisationEnd => Sys2Proof.Machine.execZeroisationEnd s
  | .jtagInstruction op => Sys2Proof.Machine.execJtagInstruction op s
  | .domainStopDone domain => Sys2Proof.Machine.execDomainStopDone domain s
  | .domainInitDone domain pass => Sys2Proof.Machine.execDomainInitDone domain pass s
  | .domainFault domain cause => Sys2Proof.Machine.execDomainFault domain cause s
  | .autoRestart domain => Sys2Proof.Machine.execAutoRestart domain s
  | .supplyOutOfRatings rail => Sys2Proof.Machine.execSupplyOutOfRatings rail s
  | .dieTempReading die temp => Sys2Proof.Machine.execDieTempReading die temp s
  | .thermtrip die => Sys2Proof.Machine.execThermtrip die s
  | .smbusSetOffset offset => Sys2Proof.Machine.execSmbusSetOffset offset s
  | .smbusWrite value pecOk => Sys2Proof.Machine.execSmbusWrite value pecOk s
  | .smbusRead pecOk => Sys2Proof.Machine.execSmbusRead pecOk s
  | .railWithinTolerance rail => Sys2Proof.Machine.execRailWithinTolerance rail s

end Sys2Proof.Machine
end

