-- ==== Sys2Proof/Safety.lean ====
section
/-! DEFINITION. What counts as a safe step, and the words in which claims about the machine are stated. -/

namespace Sys2Proof

open Machine

/-- A step goes on: it ends in neither a fault nor a refusal. -/
def goesOn (s : State) : Prop := ∃ t, step s = .next t

/-- s, with the parts that raising an event writes taken from t: the event rings and host memory, the logbook and its flash,
the counters, the guarantee's status and the service port (R69, R72, R430, R457, R528). -/
def Machine.State.eventsOf (s t : State) : State :=
  { s with raised := t.raised, host := t.host, cnt := t.cnt, hif := t.hif, chk := t.chk, flash := t.flash, log := t.log
           smb := t.smb }

/-- A command stands at the front of its command ring, g, and begins when it is taken: nothing of it must wait (R54, R79), no
abort is latched (R444), no zeroisation refuses it (R490), and its target is present and not down, which a DOMAIN_CTL need
not be (R54, R502). -/
structure begins (s : State) (i : Instr) (g : Nat) : Prop where
  ring : ringOf i = some g
  isCmd : g < 64
  fetched : (Machine.ring s g).begun < (Machine.ring s g).cons
  alone : s.hif.inflight = []
  first : isFence i = true → s.hif.fetched = []
  noAbort : s.hif.aborts = []
  awake : s.lcs.zeroising = false
  target : isDomainCtl i = true
    ∨ targetAbsent s (cmdTarget i).1 (cmdTarget i).2 = false ∧ targetDown s (cmdTarget i).1 (cmdTarget i).2 = false

/-- A write on a path reaches a register: the path carries accesses, the register's unit is present, and the path may write
it (R3, R89, R509, R528, R539). -/
def writable (s : State) (path : Path) (r : Reg) : Prop :=
  pathOpen s path = true ∧ regExists s r = true ∧ (path = .linkB → linkBMayWrite s r = true)
    ∧ (path = .smbus → smbusMayWrite r = true)

/-- A read on a path reaches a register. -/
def readable (s : State) (path : Path) (r : Reg) : Prop :=
  pathOpen s path = true ∧ regExists s r = true ∧ (path = .smbus → smbusMayRead r = true)

/-- A register that only stores what is written to it: no write of it acts on another part (R12). -/
def plainReg : Reg → Bool
  | .hifCtrl | .hifStatus | .pwrCtrl | .pwrInfraSel | .timCtrl | .cusCtrl | .logCtrl | .logCursor _ | .logStatSel | .chkFeedCfg _
  | .chkFeedB _ | .chkFeedH _ | .chkFeedW _ | .hbmMigCtrl _ | .hbmRankCtrl _ | .lcsTokenCtrl | .tskRollout | .tskClusterMaskLo _
  | .tskClusterMaskHi _ | .tskClusterMode _ | .chkScrubCfg | .hbmScrubCfg _ | .fwdCmpCfg _ | .fwdLpm4Len _ _
  | .fwdLpm6Len _ _ => false
  | _ => true

/-- The state in which a command that begins is run. -/
def beginState (s : State) (i : Instr) (g : Nat) : State :=
  let a := (g, (ring s g).begun)
  let s1 := modRing g (fun r => { r with begun := r.begun + 1 }) s
  let s2 := pruneFetched g (modHif (fun h => { h with
    inflight := h.inflight ++ [newInflight i g (ring s g).begun (fetchOrder s g (ring s g).begun)] }) s1)
  { modHif (fun h => { h with aborts := h.aborts.filter (· ≠ a) }) s2 with actor := some a }

/-- The command at the front of ring g, i, has begun and is done at once with a status, progress and result words: it leaves its
completion, and all else as it was. -/
def doneAt (s : State) (i : Instr) (g st p r0 r1 : Nat) : State :=
  finish (g, (ring s g).begun) st p r0 r1 { beginState s i g with actor := none }

/-- In every state the command answers a next state, and f says which parts it takes from it: all others are as before. -/
def leaves (i : Instr) (f : State → State → State) : Prop := ∀ s, ∃ t, exec i s = .next t ∧ t = f s t

/-- The memories and the counters are in their one canonical form: keys rising, nothing listed that an unlisted key reads as, so that
equal contents are equal data. -/
structure Canonical (s : State) : Prop where
  host : Memory.wf s.host = true
  tmem : Memory.wf s.tmem = true
  mem : Memory.wf s.mem = true
  cnt : mwf 0 s.cnt = true

/-- The commands that are accesses of a register by a path: REGISTER_WRITE, the registers with an action of their own, the go of the
token block and the service port (R12, R479, R528, R539). -/
def isAccess : Instr → Bool
  | .registerWrite _ _ _ | .commitA _ | .commitB _ | .commitAll _ | .logCopySelect _ _ | .chipResetRegister _ | .hostInterfaceReset _ _
  | .ringRestart _ _ | .timeUnitReset _ | .snap _ | .migStart _ _ _ | .migAbort _ _ _ | .rankReenable _ _ _ | .feedStart _ _ _
  | .chkFeedB _ _ _ | .chkFeedH _ _ _ | .chkFeedW _ _ _ | .chkFeedResRead _ _ _ | .preload _ | .handover _ | .selfTestRetry _ _
  | .logCursorLoad _ _ | .logWin7Read _ | .logStatSel _ _ | .logFreeze _ | .logCtrlClear _ | .testDone _ | .seal_ _ | .service _
  | .logClear _ | .keyRotate _ | .return_ _ | .vendorDebug _ | .smbusWrite _ _ | .smbusRead _ => true
  | _ => false

/-- A chip reset (kinds 0–2 of R498) or the start that follows it. -/
def isReset : Instr → Bool
  | .powerOn | .chipResetPin | .chipResetRegister _ | .thermtrip _ | .startUp _ _ _ _ => true
  | _ => false

end Sys2Proof
end

