-- ==== Sys2Proof/Certificates/Slice0/Obligations.lean ====
section
/-! DEFINITION. The statements about the machine: each follows rules of the spec, which its docstring names. -/

open Sys2Proof Sys2Proof.Machine

/-- TIME_SET actions, each on the conditions its clause names. READ that begins answers the status word and r,
sign-extended, and changes nothing but its completion. RATE with a rate of 32 bits puts it in force. STEP, absolute
and the first since the time-unit reset, sets the counter, sets step_done and increments the time generation; outside
the time unit only events, the gate lists and the completion change. MARK_TRACEABLE with step_done set and no holdover
sets TRACEABLE. TOUT enabled as a one-shot within its limits and at least 1 us ahead leaves the program waiting for
its first edge at start. PEER_DELAY stores the delay of a present lane. SYNCE enables an output on a locked present
lane with a divider of 4 to 4095. In each but STEP nothing changes but the named part of the time unit, the completion
and, for MARK_TRACEABLE, events. Each of these rows completes on the conditions of its clause, exec answering the next
state with that effect: timeSetRead, timeSetRate, timeSetStep, timeSetMarkTraceable, timeSetTout, timeSetPeerDelay,
timeSetSynce. (R361, R362, R363, R364, R365, R378, R381) -/
def Obligations.TimeSetActions : Prop :=
  (∀ h s, begins s (.timeSetRead h) h.ring →
    exec (.timeSetRead h) s = .next (finish (h.ring, (ring s h.ring).begun) 0 0 (timWord s) (BitVec.ofInt 64 s.tim.rate).toNat
      { beginState s (.timeSetRead h) h.ring with actor := none }))
  ∧ (∀ h rate s, begins s (.timeSetRate h rate) h.ring → fitsI 32 rate = true →
    ∃ t, exec (.timeSetRate h rate) s = .next t ∧ t.tim = { s.tim with rate := rate }
      ∧ t = { s with actor := none, host := t.host, cnt := t.cnt, hif := t.hif, tim := t.tim })
  ∧ (∀ h time off s, begins s (.timeSetStep h false time off) h.ring → s.tim.stepDone = false → time.wf = true →
    ∃ t, exec (.timeSetStep h false time off) s = .next t ∧ t.tim.sec = time.sec ∧ t.tim.ns = time.ns
      ∧ t.tim.frac = time.frac * 2 ^ 28 ∧ t.tim.stepDone = true ∧ t.tim.gen = (s.tim.gen + 1) % 256
      ∧ t = { s.eventsOf t with actor := none, tim := t.tim, egs := t.egs })
  ∧ (∀ h s, begins s (.timeSetMarkTraceable h) h.ring → s.tim.stepDone = true → s.tim.holdover = false →
    ∃ t, exec (.timeSetMarkTraceable h) s = .next t ∧ t.tim = { s.tim with traceable := true }
      ∧ t = { s.eventsOf t with actor := none, tim := t.tim })
  ∧ (∀ h c s, begins s (.timeSetTout h c) h.ring → c.output < 8 → c.enable = true → c.periodic = false →
    toutLimits c = true → fxNow s + fxUs ≤ stampFx c.start →
    ∃ t, exec (.timeSetTout h c) s = .next t
      ∧ toutNewOf t c.output = some ⟨c.start, 0, c.widthNs, c.activeLow, stampFx c.start, true, false, false⟩
      ∧ toutOf t c.output = toutOf s c.output
      ∧ t = { s with actor := none, host := t.host, cnt := t.cnt, hif := t.hif, tim := t.tim })
  ∧ (∀ h port delay s, begins s (.timeSetPeerDelay h port delay) h.ring → port < 512 → hasLane s.part port = true →
    delay < 2 ^ 32 → ∃ t, exec (.timeSetPeerDelay h port delay) s = .next t ∧ mget 0 t.tim.peer port = delay
      ∧ (∀ p, p ≠ port → mget 0 t.tim.peer p = mget 0 s.tim.peer p)
      ∧ t = { s with actor := none, host := t.host, cnt := t.cnt, hif := t.hif, tim := { s.tim with peer := t.tim.peer } })
  ∧ (∀ h o lane divider s, begins s (.timeSetSynce h o true lane divider) h.ring → o < 2 → 4 ≤ divider → divider ≤ 4095 →
    lane < 512 → hasLane s.part lane = true → laneLocked s lane = true →
    ∃ t, exec (.timeSetSynce h o true lane divider) s = .next t ∧ synceOf t o = ⟨true, lane, divider, false, s.now⟩
      ∧ (∀ p, p ≠ o → synceOf t p = synceOf s p)
      ∧ t = { s with actor := none, host := t.host, cnt := t.cnt, hif := t.hif, tim := { s.tim with synce := t.tim.synce } })

/-- A loss of TREF with tref_ok set enters holdover, clears tref_ok and pll_locked, is counted and raises TIM_TREF_LOST. A
valid TREF sets tref_ok. Lock reached in holdover ends holdover, sets pll_locked and raises TIM_HOLDOVER_EXIT. A
holdover of hold_limit_s with TRACEABLE set clears TRACEABLE and raises TIM_TRACEABLE_LOST. A due leading edge drives
an output's active level, and the trailing edge is due after the pulse width. A selected TIN edge 100 ns or more after
the last capture is captured with TIM_CAPTURE and its parameters. A lane loss squelches an enabled output with
SYNCE_SQUELCH, and 100 ms of lock ends the squelch. (That pll_locked falls at the loss is the model's reading, log
17.) Each of these rows completes on the conditions of its clause, exec answering the next state with that effect:
trefLoss, trefValid, pllLock, holdoverLimit, toutEdge, tinEdge, synceLaneLoss, synceUnsquelch. (R357, R358, R359,
R378, R380, R381) -/
def Obligations.TimeUnitEvents : Prop :=
  (∀ s, s.tim.trefOk = true → exec .trefLoss s = .next (raise 0x030 evTimTrefLost 0 0 0 0 (cntInc 0x0A81 0 11
      { s with tim := { s.tim with
          trefOk := false, locked := false, holdover := true, holdAt := if s.tim.holdover then s.tim.holdAt else s.now } })))
  ∧ (∀ s, exec .trefValid s = .next { s with tim := { s.tim with trefOk := true } })
  ∧ (∀ s, s.tim.trefOk = true → s.tim.locked = false → s.tim.holdover = true →
    ∃ u, exec .pllLock s = .next (raise 0x030 evTimHoldoverExit 0 0 0 0 u)
      ∧ u.tim = { s.tim with locked := true, holdover := false, holdMs := 0 } ∧ u = { s with tim := u.tim, cnt := u.cnt })
  ∧ (∀ s, s.tim.holdover = true → cfg s .timCfg 31 16 ≠ 0 → s.tim.holdAt + cfg s .timCfg 31 16 * 10 ^ 12 ≤ s.now →
    s.tim.traceable = true → exec .holdoverLimit s
      = .next (raise 0x030 evTimTraceableLost 0 0 0 0 { s with tim := { s.tim with traceable := false } }))
  ∧ (∀ s o p, o < 8 → toutOf s o = some p → toutNewOf s o = none → p.next ≤ fxNow s → p.leading = true →
    ∃ t, exec (.toutEdge o) s = .next t ∧ t.tim.toutLevel.testBit o = !p.low
      ∧ toutOf t o = some { p with leading := false, started := true, next := p.next + p.width * 2 ^ 16 }
      ∧ t = { s.eventsOf t with tim := { s.tim with tout := t.tim.tout, toutLevel := t.tim.toutLevel } })
  ∧ (∀ s i f t0, i < 4 → bit (cfg s .timTinCfg (2 * i + 1) (2 * i)) (b2n f) = true →
    mget none s.tim.tin i = some t0 → t0 + 100000 ≤ s.now →
    ∃ u, exec (.tinEdge i f) s = .next (raise (0x034 + i) evTimCapture s.tim.ns (s.tim.sec % 2 ^ 48 % 2 ^ 32)
          (s.tim.sec % 2 ^ 48 / 2 ^ 32 % 2 ^ 16 + s.tim.frac / 2 ^ 28 * 2 ^ 16) (i + 16 * b2n f + mget 0 s.tim.tinSeq i * 2 ^ 16) u)
      ∧ mget none u.tim.tin i = some s.now ∧ mget 0 u.tim.tinSeq i = (mget 0 s.tim.tinSeq i + 1) % 2 ^ 16
      ∧ u = { s with tim := { s.tim with tin := u.tim.tin, tinSeq := u.tim.tinSeq }, cnt := u.cnt })
  ∧ (∀ s o, (synceOf s o).enabled = true → (synceOf s o).squelched = false →
    ∃ u, exec (.synceLaneLoss o) s = .next (raise 0x032 evSynceSquelch o (synceOf s o).lane 0 0 u)
      ∧ synceOf u o = { synceOf s o with squelched := true, since := s.now }
      ∧ u = { s with tim := { s.tim with synce := u.tim.synce }, cnt := u.cnt })
  ∧ (∀ s o, (synceOf s o).enabled = true → (synceOf s o).squelched = true → laneLocked s (synceOf s o).lane = true →
    (synceOf s o).since + 10 ^ 11 ≤ s.now →
    ∃ t, exec (.synceUnsquelch o) s = .next t ∧ synceOf t o = { synceOf s o with squelched := false }
      ∧ t = { s with tim := { s.tim with synce := t.tim.synce } })

/-- A REGISTER_WRITE that reaches a register with no behaviour of its own beside storing completes: the RW fields take the
value, the LCK fields take it only before the commit that covers them, all other bits and every other register stay. A
write after that commit that carries another value for an LCK field is counted as one ignored write, saturating at
255; one that carries the committed value is not. A write of a reserved address changes nothing, and so does a write
of an absent unit's register on link A. A write on link B to a register that link B may not write changes only the
counts of ignored writes. A write through BAR2 of the fourth word of an entry of the MSI-X table sets the mask of its
vector to bit 0, and nothing else; the layout of an entry is the model's (PRESUMED, log 100). Each of these rows
completes on the conditions of its clause, exec answering the next state with that effect: registerWrite. (R12, R82,
R84, R89, R538, R541) -/
def Obligations.RegisterWriteStores : Prop :=
  (∀ path a r v s, a < bar2Base → regAt a = some r → plainReg r = true → writable s path r →
    ∃ t, exec (.registerWrite path a v) s = .next t
      ∧ stored t r = ((stored s r &&& ~~~(if lockedReg s r then accMask r .rw else storedMask r))
          ||| (v &&& (if lockedReg s r then accMask r .rw else storedMask r)))
      ∧ (∀ q, regAddr q ≠ regAddr r → stored t q = stored s q)
      ∧ t.hif = (if lockedReg s r = true ∧ (v &&& accMask r .lck) ≠ (stored s r &&& accMask r .lck)
          then { s.hif with ignored := satInc 255 s.hif.ignored } else s.hif)
      ∧ t = { s with regs := t.regs, hif := t.hif, cnt := t.cnt })
  ∧ (∀ path a v s, a < bar2Base → regAt a = none → exec (.registerWrite path a v) s = .next s)
  ∧ (∀ a r v s, a < bar2Base → regAt a = some r → regPresent s.part r = false → exec (.registerWrite .linkA a v) s = .next s)
  ∧ (∀ a r v s, a < bar2Base → regAt a = some r → pathOpen s .linkB = true → regExists s r = true → linkBMayWrite s r = false →
    ∃ t, exec (.registerWrite .linkB a v) s = .next t ∧ t.hif = { s.hif with ignored := satInc 255 s.hif.ignored }
      ∧ t = { s with hif := t.hif, cnt := t.cnt })
  ∧ (∀ a v s, bar2Base ≤ a → a < bar2Base + 4096 → a % 16 = 12 → pathOpen s .linkA = true →
    ∃ t, exec (.registerWrite .linkA a v) s = .next t
      ∧ vec t .a ((a - bar2Base) / 16) = { vec s .a ((a - bar2Base) / 16) with masked := v.getLsbD 0 }
      ∧ (∀ l k, k < 256 → (l, k) ≠ (.a, (a - bar2Base) / 16) → vec t l k = vec s l k) ∧ t = { s with hif := { s.hif with vecs := t.hif.vecs } })

/-- A first write of commit_a or commit_b runs the commit of that link, whatever its set-up. When the link's pages pass
their checks and no ring is set up enabled, after it the link is committed: its rings stand in their committed
configuration with both indices at 0, keeping only what they had lost unreported (log 101), and the first-ring field
reads 0x3FF with no new commit error. commit_b before commit_a is ignored and counted. A first commit_all after
commit_a sets pwr_committed, gives every present octet that is ON the formation of its PHY_OCTET_CFG, and raises
PWR_COMMITTED. A later commit_a or commit_all changes nothing. A write of log_copy records the selection and leaves
tim_copy and every other register. Each of these rows completes on the conditions of its clause, exec answering the
next state with that effect: commitA, commitB, commitAll, logCopySelect. (R18, R83, R85, R94, R513, R541) -/
def Obligations.CommitsAndSelects : Prop :=
  (∀ path s, writable s path .hifCtrl → path ≠ .linkB → s.hif.a.committed = false →
    pagePasses s .a 0 = true → pagePasses s .a 1 = true → pagePasses s .a 2 = true →
    (∀ g, cfgBit s (.hifRingCfg g) 31 = false) →
    ∃ t, exec (.commitA path) s = .next t
      ∧ t.hif.a = { s.hif.a with committed := true, stopped := false, dbOk := true, consOk := true, statOk := true }
      ∧ t.hif.b = s.hif.b ∧ t.hif.firstRing = 0x3FF ∧ t.hif.commitErr = s.hif.commitErr
      ∧ (∀ g, g < 752 → ring t g = if ringLink s g = .a then ringKept (ring s g) (ringConfig s g) else ring s g)
      ∧ t = { s with hif := t.hif })
  ∧ (∀ path s, writable s path .hifCtrl → s.hif.a.committed = true → s.hif.b.committed = false → s.hif.bifurcated = true →
    pagePasses s .b 0 = true → pagePasses s .b 1 = true → pagePasses s .b 2 = true →
    (∀ g, cfgBit s (.hifRingCfg g) 31 = false) →
    ∃ t, exec (.commitB path) s = .next t
      ∧ t.hif.b = { s.hif.b with committed := true, stopped := false, dbOk := true, consOk := true, statOk := true }
      ∧ t.hif.a = s.hif.a ∧ t.hif.firstRing = 0x3FF ∧ t.hif.commitErr = s.hif.commitErr
      ∧ (∀ g, g < 752 → ring t g = if ringLink s g = .b then ringKept (ring s g) (ringConfig s g) else ring s g)
      ∧ t = { s with hif := t.hif })
  ∧ (∀ path s, writable s path .hifCtrl → path ≠ .linkB → s.hif.a.committed = false → exec (.commitA path) s = .next (commitLink .a s))
  ∧ (∀ path s, writable s path .hifCtrl → s.hif.a.committed = true → s.hif.b.committed = false → s.hif.bifurcated = true →
    exec (.commitB path) s = .next (commitLink .b s))
  ∧ (∀ path s, writable s path .hifCtrl → s.hif.a.committed = false → exec (.commitB path) s = .next (countIgnored path s))
  ∧ (∀ path s, writable s path .pwrCtrl → s.hif.a.committed = true → s.pwr.committed = false →
    ∃ t u, exec (.commitAll path) s = .next t ∧ t = guardCheck (raise 0x010 evPwrCommitted 0 0 0 0 u) ∧ t.pwr = { s.pwr with committed := true }
      ∧ (∀ k, k ∈ octetsOf s.part → domOn s k = true → mget 0 t.egs.formation k = cfg s (.phyOctetCfg k) 6 0)
      ∧ t = { s.eventsOf t with pwr := t.pwr, egs := { s.egs with formation := t.egs.formation } })
  ∧ (∀ path s, writable s path .hifCtrl → path ≠ .linkB → s.hif.a.committed = true → exec (.commitA path) s = .next s)
  ∧ (∀ path s, writable s path .pwrCtrl → s.hif.a.committed = true → s.pwr.committed = true → exec (.commitAll path) s = .next s)
  ∧ (∀ path copy s, writable s path .pwrInfraSel →
    ∃ t, exec (.logCopySelect path copy) s = .next t ∧ t.flash = { s.flash with logCopy := copy }
      ∧ cfgBit t .pwrInfraSel 0 = cfgBit s .pwrInfraSel 0 ∧ cfgBit t .pwrInfraSel 1 = copy
      ∧ (∀ q, regAddr q ≠ regAddr .pwrInfraSel → stored t q = stored s q)
      ∧ t = { s with regs := t.regs, flash := t.flash })

/-- A power-on leaves every register at its reset value, every counter 0, HBM and table memory empty, the device in reset
and not committed, both host links and the time unit at their reset state, and the fuses, the boot flash and the
host's memory as they were. A chip reset by the pin or by chip_reset leaves registers, counters, host links, time
unit, fuses, flash and host memory likewise, but keeps of HBM the contents of the stacks whose hbm_retain is set; the
cause is kept as 1 or 2. START_UP leaves reset: the die links are up on all lanes with 16 in use, confirm time starts,
and the boot is counted. The end of HBM training marks every stack that did not fail as trained, and the start as warm
when one of them was retained. STARTUP_READY with an adopted hold raises PWR_READY. A THERMTRIP at 120 degrees resets
the device with HBM contents lost and holds it stopped, in which a chip reset changes nothing. Each of these rows
completes on the conditions of its clause, exec answering the next state with that effect: powerOn, chipResetPin,
chipResetRegister, startUp, hbmTrainingEnd, startupReady, thermtrip. (R390, R423, R497, R498, R499, R509, R511, R512,
R531) -/
def Obligations.ResetsAndStartUp : Prop :=
  (∀ s, ∃ t, exec .powerOn s = .next t ∧ (∀ r, stored t r = resetOf r) ∧ (∀ o u e, cntGet t o u e = 0) ∧ t.mem = [] ∧ t.tmem = []
      ∧ t.pwr.phase = .reset ∧ t.pwr.committed = false ∧ t.hif.a = {} ∧ t.hif.b = {} ∧ t.tim = {} ∧ t.flash = s.flash
      ∧ t.host = s.host ∧ t.part = s.part ∧ t.pending = s.pending ∧ t.lcs.q0 = s.lcs.q0 ∧ t.lcs.q2 = s.lcs.q2)
  ∧ (∀ s, s.pwr.thermtrip = false → ∃ t, exec .chipResetPin s = .next t ∧ (∀ r, stored t r = resetOf r)
      ∧ (∀ o u e, cntGet t o u e = 0) ∧ t.mem = keptMem s (retains s) ∧ t.pwr.phase = .reset ∧ t.pwr.kind = 1 ∧ t.pwr.committed = false
      ∧ t.hif.a = {} ∧ t.hif.b = {} ∧ t.tim = {} ∧ t.flash = s.flash ∧ t.host = s.host ∧ t.part = s.part ∧ t.pending = s.pending
      ∧ t.lcs.q0 = s.lcs.q0 ∧ t.lcs.q2 = s.lcs.q2)
  ∧ (∀ path s, writable s path .pwrCtrl → s.pwr.thermtrip = false → ∃ t, exec (.chipResetRegister path) s = .next t
      ∧ (∀ r, stored t r = resetOf r) ∧ (∀ o u e, cntGet t o u e = 0) ∧ t.mem = keptMem s (retains s) ∧ t.pwr.phase = .reset
      ∧ t.pwr.kind = 2 ∧ t.pwr.committed = false ∧ t.hif.a = {} ∧ t.hif.b = {} ∧ t.tim = {} ∧ t.flash = s.flash ∧ t.host = s.host
      ∧ t.part = s.part ∧ t.pending = s.pending ∧ t.lcs.q0 = s.lcs.q0 ∧ t.lcs.q2 = s.lcs.q2)
  ∧ (∀ bifur flashOk differ out s, s.pwr.phase = .reset → s.pwr.inReset = true →
    ∃ t, exec (.startUp bifur flashOk differ out) s = .next t ∧ t.pwr.phase = .started ∧ t.pwr.inReset = false
      ∧ t.pwr.startAt = s.now ∧ t.pwr.boots = s.flash.boots + 1 ∧ t.ctimeBase = s.now
      ∧ (∀ x, x ∈ linksOf s.part → (dieLink t x).up = true ∧ (dieLink t x).laneOk = 2 ^ 17 - 1 ∧ (dieLink t x).inUse = 16))
  ∧ (∀ bad s, s.pwr.phase = .started → ∃ t, exec (.hbmTrainingEnd bad) s = .next t ∧ t.pwr.phase = .trained
      ∧ (∀ d, d ∈ dies s.part → bad.contains d = false → (stack t d).trained = true)
      ∧ t.pwr.warm = ((dies s.part).filter fun d => !bad.contains d).any (fun d => (stack s d).retained))
  ∧ (∀ s, s.pwr.phase = .trained → s.lcs.zeroising = false → holdAdopted s = true → exec .startupReady s
      = .next (raise 0x010 evPwrReady 0 0 0 0 { s with pwr := { s.pwr with phase := .ready, readyMs := sinceStart s } }))
  ∧ (∀ d s, hasDie s.part d = true → 120 ≤ mget 0 s.pwr.temps d → s.pwr.thermtrip = false →
    ∃ t, exec (.thermtrip d) s = .next t ∧ t.pwr.thermtrip = true ∧ t.pwr.phase = .tripped ∧ t.mem = []
      ∧ (∀ r, stored t r = resetOf r) ∧ t.flash = s.flash ∧ exec .chipResetPin t = .next t)

/-- PE_PERST_RELEASE releases the PCIe function. PCIE_LINK_UP with PERST released, out of reset, brings an existing link
up at its rate and changes nothing else. A host-interface reset of an existing link, by a Function Level Reset, a hot
reset or its reset bit, disables every ring of the link, sets its indices to 0 and drops what it held back, marks the
link stopped, and keeps every set-up register, HBM and table memory, and the forwarding, classification, fabric, time
and life-cycle state. A restart bit, when no ring of the set-up is enabled, brings each ring of a committed stopped
link back to its committed configuration, keeping what it had lost unreported (log 101), and ends the stop; on a link
that is not stopped it changes nothing. Each of these rows completes on the conditions of its clause, exec answering
the next state with that effect: pePerstRelease, pcieLinkUp, hostInterfaceReset, ringRestart. (R38, R80, R81, R510) -/
def Obligations.HostLinkRows : Prop :=
  (∀ s, exec .pePerstRelease s = .next { s with hif := { s.hif with perst := true } })
  ∧ (∀ l rate s, s.hif.perst = true → s.pwr.phase ≠ .reset → (l = .a ∨ s.hif.bifurcated = true) → rate < 3 →
    ∃ t, exec (.pcieLinkUp l rate) s = .next t ∧ linkSt t l = { linkSt s l with up := true, rate := rate }
      ∧ (∀ k, k ≠ l → linkSt t k = linkSt s k) ∧ t = { s with hif := { s.hif with a := t.hif.a, b := t.hif.b } })
  ∧ (∀ l cause s, cause = .flr ∨ cause = .hotReset ∨ (∃ path, cause = .resetBit path ∧ writable s path .hifCtrl ∧ (path = .linkB → l = .b)) →
    (l = .a ∨ s.hif.bifurcated = true) →
    ∃ t, exec (.hostInterfaceReset l cause) s = .next t ∧ (linkSt t l).stopped = true ∧ t.regs = s.regs ∧ t.tmem = s.tmem ∧ t.tim = s.tim
      ∧ t.fab = s.fab ∧ t.lcs = s.lcs ∧ t.mem = s.mem ∧ t.fwd = s.fwd ∧ t.cls = s.cls
      ∧ (∀ g, g < 752 → ringLink s g = l → (ring t g).enabled = false ∧ (ring t g).prod = 0 ∧ (ring t g).cons = 0 ∧ (ring t g).held = []))
  ∧ (∀ path l s, writable s path .hifCtrl → (path = .linkB → l = .b) → (l = .a ∨ s.hif.bifurcated = true) →
    (linkSt s l).stopped = true → (linkSt s l).committed = true → ringsHeld s = false → (∀ g, cfgBit s (.hifRingCfg g) 31 = false) →
    ∃ t, exec (.ringRestart path l) s = .next t ∧ linkSt t l = { linkSt s l with stopped := false }
      ∧ (∀ g, g < 752 → ring t g = if ringLink s g = l then ringKept (ring s g) (ringConfig s g) else ring s g)
      ∧ t = { s with hif := t.hif, host := t.host })
  ∧ (∀ path l s, writable s path .hifCtrl → (linkSt s l).stopped = false → exec (.ringRestart path l) s = .next s)

/-- HEARTBEAT, 1 ms (within 1 %) after link A's last one and with link B down, adds one to the heartbeat slot of a
committed link A that is up and whose status page passed; no other byte of host memory changes. POLL_READ of a due
block of a page that passed, with enabled rings, takes the visible host writes and records the 64 slots as read now.
POLL_DATA of a doorbell block whose one enabled ring is a command ring with a new index, and whose completion ring
holds nothing back, fetches up to it: the consumer index becomes the producer index, and the run joins the fetched
commands. POOL_ENTRY_READ of an enabled pool ring below 128 cached addresses takes the addresses of its next entry.
Each of these rows completes on the conditions of its clause, exec answering the next state with that effect:
heartbeat, pollRead, pollData, poolEntryRead. (R48, R49, R50, R51, R52, R75) -/
def Obligations.PollingAndHeartbeat : Prop :=
  (∀ s, s.hif.a.committed = true → s.hif.a.statOk = true → s.hif.a.up = true → s.hif.a.beat + 99 * 10 ^ 7 ≤ s.now → s.hif.b.up = false →
    ∃ t, exec .heartbeat s = .next t ∧ rdN t.host (pageAddr s .a 2 + 8184) 8 = (rdN s.host (pageAddr s .a 2 + 8184) 8 + 1) % 2 ^ 64
      ∧ (∀ x, x < pageAddr s .a 2 + 8184 ∨ pageAddr s .a 2 + 8192 ≤ x → rd8 t.host x = rd8 s.host x)
      ∧ t = { s with host := t.host, hif := { s.hif with a := { s.hif.a with beat := s.now } } })
  ∧ (∀ l pg b vis s, (pg = .doorbell → (linkSt s l).dbOk = true) → (pg = .consumer → (linkSt s l).consOk = true) →
    (linkSt s l).up = true → blockRings s l pg b ≠ [] → (∀ u i, (pollBlock s l pg b).last = some (u, i) → u + i ≤ s.now) →
    ∃ t, exec (.pollRead l pg b vis) s = .next t ∧ (∀ x, (∀ c, c ∈ vis → c.1 ≠ x) → rd8 t.host x = rd8 s.host x)
      ∧ (pollBlock t l pg b).out = (pollBlock s l pg b).out
          ++ [(upTo 64).map fun i => rdN t.host (pageAddr s l (pageNo pg) + 512 * b + 8 * i) 8]
      ∧ (pollBlock t l pg b).last = some (s.now, pollInterval (pollBlock s l pg b).e)
      ∧ t = { s with host := t.host, hif := { s.hif with poll := t.hif.poll } })
  ∧ (∀ l b data rest i g s, (pollBlock s l .doorbell b).out = data :: rest → blockRings s l .doorbell b = [(i, g)] → g < 64 →
    nth 0 data i ≠ nth 0 (pollBlock s l .doorbell b).seen i → (ring s g).cons < nth 0 data i → (ring s g).enabled = true →
    (ring s (pairOf s g)).held = [] →
    ∃ t, exec (.pollData l .doorbell b) s = .next t ∧ (ring t g).prod = nth 0 data i ∧ (ring t g).cons = nth 0 data i
      ∧ (∀ k, k ≠ g → ring t k = ring s k)
      ∧ t.hif.fetched = s.hif.fetched ++ [(g, (ring s g).cons, nth 0 data i - (ring s g).cons, s.hif.fetchCount)]
      ∧ t.hif.fetchCount = s.hif.fetchCount + (nth 0 data i - (ring s g).cons)
      ∧ (pollBlock t l .doorbell b).out = rest ∧ (pollBlock t l .doorbell b).seen = data ∧ (pollBlock t l .doorbell b).e = minExp s
      ∧ t = { s with hif := t.hif, host := t.host })
  ∧ (∀ p s, (ring s (688 + p)).enabled = true → (ring s (688 + p)).cons < (ring s (688 + p)).prod → (pool s p).cache.length < 128 →
    (pool s p).flushing = false →
    ∃ t, exec (.poolEntryRead p) s = .next t ∧ (ring t (688 + p)).cons = (ring s (688 + p)).cons + 1
      ∧ (pool t p).cache = (pool s p).cache ++ (upTo (Nat.min 7 (rdN s.host (entryAddr (ring s (688 + p)) (ring s (688 + p)).cons + 1) 1))).map
          (fun i => rdN s.host (entryAddr (ring s (688 + p)) (ring s (688 + p)).cons + 8 + 8 * i) 8)
      ∧ (∀ k, k ≠ 688 + p → ring t k = ring s k) ∧ (∀ k, k ≠ p → pool t k = pool s k)
      ∧ t = { s with host := t.host, hif := { s.hif with rings := t.hif.rings, pools := t.hif.pools } })

/-- EVENT_PRODUCER_WRITE, 1 us after the newest descriptor, writes the producer index that covers it and makes its
vector's cause pending. MSIX_MESSAGE of an unmasked vector with a pending cause, past its holdoff, sends its data to
the address of its table entry: the cause is cleared and the entries it signals count no more. A vector that its
function or its entry masks sets its pending bit instead. PUNT_BUFFER_GRANT gives the punt at the head of its pool's
line the oldest cached buffer when its bytes fit it: the bytes, then the descriptor, then the producer index are
written, in that order, and the punt leaves the line. PUNT_POOL_TIMEOUT past the timeout writes the punt with NOBUF
and no buffer and counts it. (The punt clauses are of states in which no event source is mapped to a ring and no punt
is held; status pages have passed.) Each of these rows completes on the conditions of its clause, exec answering the
next state with that effect: eventProducerWrite, msixMessage, puntBufferGrant, puntPoolTimeout. (R48, R53, R70, R72,
R73, R77, R93) -/
def Obligations.EventsAndPunts : Prop :=
  (∀ g n s, (ring s g).newest = some n → n.at_ + 10 ^ 6 ≤ s.now →
    ∃ t, exec (.eventProducerWrite g) s = .next t ∧ (ring t g).newest = none ∧ (ring t g).unsig = (ring s g).unsig + 1
      ∧ (ring t g).prod = (ring s g).prod ∧ (∀ k, k ≠ g → ring t k = ring s k)
      ∧ t.host = (statusWrite g (ring s g).prod s).host
      ∧ (∀ r v, srcMap s n.ev.source = some (r, v) → (vec t (ringLink s g) v).cause = true)
      ∧ t = { s with host := t.host, hif := { s.hif with rings := t.hif.rings, vecs := t.hif.vecs } })
  ∧ (∀ l v s, (linkSt s l).up = true → (vec s l v).cause = true → (vec s l v).masked = false →
    (∀ u, (vec s l v).last = some u → u + holdoff s v ≤ s.now) →
    ∃ t, exec (.msixMessage l v true) s = .next t
      ∧ vec t l v = { vec s l v with cause := false, pending := false, last := some s.now, sent := (vec s l v).sent + 1 }
      ∧ t.hif.messages = s.hif.messages ++ [(linkNo l, (vec s l v).addr, (vec s l v).data)]
      ∧ (∀ g, g ∈ vecRings s l v → (ring t g).unsig = 0) ∧ (∀ g, ¬ g ∈ vecRings s l v → ring t g = ring s g)
      ∧ t = { s with hif := { s.hif with rings := t.hif.rings, vecs := t.hif.vecs, messages := t.hif.messages } })
  ∧ (∀ l v um s, (linkSt s l).up = true → (vec s l v).cause = true → (um = false ∨ (vec s l v).masked = true) →
    (∀ u, (vec s l v).last = some u → u + holdoff s v ≤ s.now) →
    exec (.msixMessage l v um) s = .next (modVec l v (fun x => { x with pending := true }) s))
  ∧ (∀ p u rest a c s, (pool s p).wait = u :: rest → (pool s p).cache = a :: c → u.drawn = [] → u.ring < 256 →
    (ring s (144 + u.ring)).enabled = true → u.data.length ≤ poolBufSize s p →
    addrStatus s (poolLink s p) a (poolBufSize s p) 64 true = 0 → s.hif.heldPunts = [] → (∀ src, srcMap s src = none) →
    (linkSt s (ringLink s (144 + u.ring))).statOk = true →
    ∃ t, exec (.puntBufferGrant p) s = .next t ∧ (pool t p).wait = rest ∧ (pool t p).cache = c
      ∧ (ring t (144 + u.ring)).prod = (ring s (144 + u.ring)).prod + 1
      ∧ t.host = wrBytes (wrBytes (wrBytes s.host a u.data)
          (entryAddr (ring s (144 + u.ring)) (ring s (144 + u.ring)).prod)
            (takeBytes (puntDesc u u.data.length u.flags p a 0) 0 64))
          (pageAddr s (ringLink s (144 + u.ring)) 2 + 4096 + 8 * ringSlot (144 + u.ring)) (leBytes 8 ((ring s (144 + u.ring)).prod + 1)))
  ∧ (∀ p u rest s, (pool s p).wait = u :: rest → cfgBit s (.hifPoolTmo p) 31 = true → u.ring < 256 →
    u.since + cfg s (.hifPoolTmo p) 19 0 * 10 ^ 6 < s.now → (ring s (144 + u.ring)).enabled = true → s.hif.heldPunts = [] →
    bit u.flags 1 = false → (∀ src, srcMap s src = none) → (linkSt s (ringLink s (144 + u.ring))).statOk = true →
    ∃ t, exec (.puntPoolTimeout p) s = .next t ∧ (pool t p).wait = rest ∧ (pool t p).cache = (pool s p).cache ++ u.drawn
      ∧ (ring t (144 + u.ring)).prod = (ring s (144 + u.ring)).prod + 1
      ∧ t.host = wrBytes (wrBytes s.host (entryAddr (ring s (144 + u.ring)) (ring s (144 + u.ring)).prod)
            (takeBytes (puntDesc u 0 (u.flags + 2) p 0 0) 0 64))
          (pageAddr s (ringLink s (144 + u.ring)) 2 + 4096 + 8 * ringSlot (144 + u.ring)) (leBytes 8 ((ring s (144 + u.ring)).prod + 1)))

/-- When a command that was in flight ends, on a completion ring that is enabled, has room and holds none back, in a state
whose newest event descriptors are none of its own, its completion descriptor of 64 bytes is written as the ring's
next entry, and then the producer index that covers it in the ring's slot of the status page: opcode, status,
ABORT_LATE when its latch was set and it was long and completed, EVENT when it raised one, STAMP_VALID, cookie, ring,
index, progress, stamp and result words. With NOCOMP and status COMPLETED nothing is written to host memory. The
command leaves flight; other rings stay. (R46, R48, R53, R54, R61, R64) -/
def Obligations.CompletionWritten : Prop :=
  (∀ g i st p r0 r1 e s, inflight s (g, i) = some e → (ring s g).pair < 64 → (cmdFlags e.cmd).2.1 = false →
    (∀ k, k < 16 → (ring s (128 + k)).newest = none) → (ring s (pairOf s g)).enabled = true → ringFull (ring s (pairOf s g)) = false →
    (ring s (pairOf s g)).held = [] → (linkSt s (ringLink s (pairOf s g))).statOk = true →
    (finish (g, i) st p r0 r1 s).host = wrBytes (wrBytes s.host (entryAddr (ring s (pairOf s g)) (ring s (pairOf s g)).prod)
        (takeBytes (cplDesc ((opcodeOf e.cmd).getD 0) st (b2n (e.abort && cmdLong e.cmd && decide (st = 0)) + 2 * b2n e.evt + 4)
          (cmdFlags e.cmd).2.2 g i p (stampNow s) (r0 % 2 ^ 64 + r1 % 2 ^ 64 * 2 ^ 64)) 0 64))
      (pageAddr s (ringLink s (pairOf s g)) 2 + 4096 + 8 * ringSlot (pairOf s g)) (leBytes 8 ((ring s (pairOf s g)).prod + 1))
    ∧ (ring (finish (g, i) st p r0 r1 s) (pairOf s g)).prod = (ring s (pairOf s g)).prod + 1
    ∧ (∀ k, k ≠ pairOf s g → ring (finish (g, i) st p r0 r1 s) k = ring s k)
    ∧ inflight (finish (g, i) st p r0 r1 s) (g, i) = none
    ∧ finish (g, i) st p r0 r1 s = { s with
        actor := none, host := (finish (g, i) st p r0 r1 s).host, hif := (finish (g, i) st p r0 r1 s).hif
        cnt := (finish (g, i) st p r0 r1 s).cnt })
  ∧ (∀ g i p r0 r1 e s, inflight s (g, i) = some e → (cmdFlags e.cmd).2.1 = true →
    (finish (g, i) 0 p r0 r1 s).host = s.host ∧ (∀ k, ring (finish (g, i) 0 p r0 r1 s) k = ring s k)
    ∧ inflight (finish (g, i) 0 p r0 r1 s) (g, i) = none)

/-- NOP, FENCE and G3_NOP that begin are done with COMPLETED and nothing else. ABORT of a fetched command that has not
begun latches the request. RING_SET QUERY answers the base and the configuration word. ENABLE of a ring of a
committed, running link whose pages and base pass enables it (a driver-written ring); before the commit it is done
with RING_STATE. DISABLE, with no punt held and nothing else of the ring under way, disables it. MOVE of a disabled
ring takes the base and size and zeroes both indices. POOL_SET QUERY answers the count of cached addresses, and FLUSH
writes them to host memory and empties the cache. HELD_COMMAND_START of a waiting NOP that need wait no longer is
done. LONG_COMMAND_STEP of a long command whose target's domain is down ends it with DOMAIN_DOWN and the progress it
has. Each of these rows completes on the conditions of its clause, exec answering the next state with that effect:
nop, fence, g3Nop, abort, ringSetQuery, ringSetEnable, ringSetDisable, ringSetMove, poolSetQuery, poolSetFlush,
heldCommandStart, longCommandStep. (R44, R54, R55, R59, R60, R64, R79, R95, R444, R502) -/
def Obligations.BasicRingCommands : Prop :=
  (∀ h s, begins s (.nop h) h.ring → exec (.nop h) s = .next (doneAt s (.nop h) h.ring 0 0 0 0))
  ∧ (∀ h s, begins s (.fence h) h.ring → exec (.fence h) s = .next (doneAt s (.fence h) h.ring 0 0 0 0))
  ∧ (∀ h s, begins s (.g3Nop h) h.ring → exec (.g3Nop h) s = .next (doneAt s (.g3Nop h) h.ring 0 0 0 0))
  ∧ (∀ h g i s, begins s (.abort h g i) h.ring → g < 64 → (ring s g).begun ≤ i → (g = h.ring → (ring s g).begun < i) → i < (ring s g).cons →
    ∃ u, exec (.abort h g i) s = .next (finish (h.ring, (ring s h.ring).begun) 0 0 0 0 u) ∧ u.hif.aborts = [(g, i)]
      ∧ u = { beginState s (.abort h g i) h.ring with actor := none, hif := u.hif })
  ∧ (∀ h g s, begins s (.ringSetQuery h g) h.ring → g < 752 → exec (.ringSetQuery h g) s
      = .next (doneAt s (.ringSetQuery h g) h.ring 0 0 (ring s g).base (ringCfgWord (ring s g))))
  ∧ (∀ h g s, begins s (.ringSetEnable h g) h.ring → g < 752 → driverWritten g = true → (linkSt s (ringLink s g)).committed = true →
    (linkSt s (ringLink s g)).stopped = false → pagesOk s g = true →
    addrStatus s (ringLink s g) (ring s g).base (64 * ringSize (ring s g)) 4096 false = 0 →
    ∃ u, exec (.ringSetEnable h g) s = .next (finish (h.ring, (ring s h.ring).begun) 0 0 0 0 u) ∧ (ring u g).enabled = true
      ∧ (∀ k, k ≠ g → ring u k = ring (beginState s (.ringSetEnable h g) h.ring) k)
      ∧ u = { beginState s (.ringSetEnable h g) h.ring with actor := none, hif := u.hif })
  ∧ (∀ h g s, begins s (.ringSetEnable h g) h.ring → g < 752 → (linkSt s (ringLink s g)).committed = false → exec (.ringSetEnable h g) s
      = .next (doneAt s (.ringSetEnable h g) h.ring 11 0 0 0))
  ∧ (∀ h g s, begins s (.ringSetDisable h g) h.ring → g < 752 → s.hif.heldPunts = [] → (ring s g).newest = none →
    (∀ p, p < 64 → (pool s p).wait = []) → (∀ k, k ∈ s.pkts → ∀ i, k.2.inj ≠ some (g, i)) →
    (g < 64 ∨ (400 ≤ g ∧ g < 656) → (ring (beginState s (.ringSetDisable h g) h.ring) g).begun = (ring s g).cons) →
    ∃ u, exec (.ringSetDisable h g) s = .next (finish (h.ring, (ring s h.ring).begun) 0 0 0 0 u) ∧ (ring u g).enabled = false
      ∧ (∀ k, k ≠ g → ring u k = ring (beginState s (.ringSetDisable h g) h.ring) k)
      ∧ u = { beginState s (.ringSetDisable h g) h.ring with actor := none, hif := u.hif })
  ∧ (∀ h g sz base s, begins s (.ringSetMove h g sz base) h.ring → g < 752 → (ring s g).enabled = false → sz ≤ 10 → base < 2 ^ 64 →
    ∃ u, exec (.ringSetMove h g sz base) s = .next (finish (h.ring, (ring s h.ring).begun) 0 0 0 0 u) ∧ (ring u g).base = base
      ∧ (ring u g).size = sz ∧ (ring u g).prod = 0 ∧ (ring u g).cons = 0 ∧ (ring u g).begun = 0 ∧ (ring u g).enabled = false
      ∧ (∀ k, k ≠ g → ring u k = ring (beginState s (.ringSetMove h g sz base) h.ring) k)
      ∧ u = { beginState s (.ringSetMove h g sz base) h.ring with actor := none, hif := u.hif, host := u.host })
  ∧ (∀ h p s, begins s (.poolSetQuery h p) h.ring → p < 64 → exec (.poolSetQuery h p) s
      = .next (doneAt s (.poolSetQuery h p) h.ring 0 0 (pool s p).cache.length 0))
  ∧ (∀ h p a s, begins s (.poolSetFlush h p a) h.ring → p < 64 → addrStatus s (ringLink s h.ring) a 2048 64 true = 0 →
    ∃ u, exec (.poolSetFlush h p a) s = .next (finish (h.ring, (ring s h.ring).begun) 0 0 (pool s p).cache.length 0 u)
      ∧ (pool u p).cache = [] ∧ u.host = wrBytes s.host a ((pool s p).cache.flatMap (leBytes 8))
      ∧ u = { beginState s (.poolSetFlush h p a) h.ring with actor := none, hif := u.hif, host := u.host })
  ∧ (∀ g i h e s, inflight s (g, i) = some e → e.cmd = .nop h → e.stepping = false → e.wait ≠ .nothing → mustWait s e = none →
    s.lcs.zeroising = false → targetAbsent s (cmdTarget e.cmd).1 (cmdTarget e.cmd).2 = false →
    targetDown s (cmdTarget e.cmd).1 (cmdTarget e.cmd).2 = false →
    exec (.heldCommandStart g i) s = .next (finish (g, i) 0 0 0 0 { s with actor := none }))
  ∧ (∀ g i e s, inflight s (g, i) = some e → (stepOf e).isSome = true → e.stepping = true →
    targetDown s (cmdTarget e.cmd).1 (cmdTarget e.cmd).2 = true →
    exec (.longCommandStep g i) s = .next (finish (g, i) 9 e.progress e.res0 e.res1 s))

/-- TABLE_WRITE of one inline entry of an indexed table object, of no held block, is done with one unit: the entry reads
back as its data on every present die. TABLE_READ of one entry of one unit, of no suspect block, writes it to host
memory. TABLE_BULK_WRITE, TABLE_BULK_READ and TABLE_SCAN whose host data passes begin at their first entry. DIGEST_SET
loads a block's digest and clears its stale mark. EPOCH_FLIP, with no targeted bank draining, flips the bank of each
targeted pipeline that is not down. G3_TABLE_WRITE of one group entry writes the current bank of every pipeline, and
G3_TABLE_READ of one next hop writes it to host memory. Each of these rows completes on the conditions of its clause,
exec answering the next state with that effect: tableWrite, tableRead, tableBulkWrite, tableBulkRead, tableScan,
digestSet, epochFlip, g3TableWrite, g3TableRead. (R55, R56, R96, R99, R127, R138, R139, R165, R167, R444) -/
def Obligations.TableCommands : Prop :=
  (∀ h t s, begins s (.tableWrite h t) h.ring → objKind t.object = .table → keyed t.object = false → t.object ≠ 0x0507 → t.hostAddr = 0 →
    t.count = 1 → t.first < entryCount t.object → targetUnits s h.kind h.unit 1 ≠ [] → blockHeld s t.object t.first = false →
    unitsPending s (h.ring, (ring s h.ring).begun) = false →
    ∃ u, exec (.tableWrite h t) s = .next (finish (h.ring, (ring s h.ring).begun) 0 1 0 0 u)
      ∧ (∀ d ∈ dies s.part, tEntry u d t.object t.first = t.inline % 2 ^ 192 % 256 ^ slotSize t.object)
      ∧ u = { beginState s (.tableWrite h t) h.ring with actor := none, tmem := u.tmem, fwd := u.fwd })
  ∧ (∀ h t d s, begins s (.tableRead h t) h.ring → objKind t.object = .table → keyed t.object = false → t.count = 1 →
    t.first < entryCount t.object → targetUnits s h.kind h.unit 1 = [d] → meetsAbsent s d (tOff t.object t.first) (slotSize t.object) = false →
    (cmpOf s d (tOff t.object t.first / 65536)).suspect = false →
    addrStatus s (ringLink s h.ring) t.hostAddr (Nat.max t.hostLen (slotSize t.object)) 64 true = 0 →
    exec (.tableRead h t) s = .next (finish (h.ring, (ring s h.ring).begun) 0 1 1 0 { beginState s (.tableRead h t) h.ring with
      actor := none, host := wrBytes s.host t.hostAddr (leBytes (slotSize t.object) (tEntry s d t.object t.first)) }))
  ∧ (∀ h t s, begins s (.tableBulkWrite h t) h.ring → tableObj t.object = true → targetUnits s h.kind h.unit (objUnitKind t.object) ≠ [] →
    addrStatus s (ringLink s h.ring) t.hostAddr
      (Nat.max t.hostLen (dataLen s t (sizeUnit (targetUnits s h.kind h.unit (objUnitKind t.object))) (clampCount (2 ^ 24) t.count))) 64 false = 0 →
    ∃ u e, exec (.tableBulkWrite h t) s = .next u ∧ inflight u (h.ring, (ring s h.ring).begun) = some e ∧ e.cmd = .tableBulkWrite h t
      ∧ e.stepping = true ∧ e.progress = 0 ∧ e.acc = [0, 0, t.first % 2 ^ 63] ∧ u = { s with hif := u.hif, actor := none })
  ∧ (∀ h t d s, begins s (.tableBulkRead h t) h.ring → tableObj t.object = true → byKey t = false →
    targetUnits s h.kind h.unit (objUnitKind t.object) = [d] → addrStatus s (ringLink s h.ring) t.hostAddr
      (Nat.max t.hostLen (dataLen s t d (clampCount (2 ^ 24) t.count))) 64 true = 0 →
    ∃ u e, exec (.tableBulkRead h t) s = .next u ∧ inflight u (h.ring, (ring s h.ring).begun) = some e ∧ e.cmd = .tableBulkRead h t
      ∧ e.stepping = true ∧ e.progress = 0 ∧ e.acc = [d, 0, t.first % 2 ^ 63] ∧ u = { s with hif := u.hif, actor := none })
  ∧ (∀ h t d s, begins s (.tableScan h t) h.ring → t.object = 0x0201 → targetUnits s h.kind h.unit 1 = [d] →
    addrStatus s (ringLink s h.ring) t.hostAddr (Nat.max t.hostLen (16 * clampCount (2 ^ 24) t.count)) 64 true = 0 →
    ∃ u e, exec (.tableScan h t) s = .next u ∧ inflight u (h.ring, (ring s h.ring).begun) = some e ∧ e.cmd = .tableScan h t
      ∧ e.stepping = true ∧ e.progress = 0 ∧ e.acc = [d] ∧ u = { s with hif := u.hif, actor := none })
  ∧ (∀ h t s, begins s (.digestSet h t) h.ring → t.object = 0x0290 → t.hostAddr = 0 → t.count = 1 → t.first < 1024 →
    targetUnits s h.kind h.unit 1 ≠ [] →
    ∃ u, exec (.digestSet h t) s = .next (finish (h.ring, (ring s h.ring).begun) 0 1 0 0 u)
      ∧ (∀ d ∈ targetUnits s h.kind h.unit 1, (cmpOf u d t.first).digest = t.inline % 2 ^ 64 ∧ (cmpOf u d t.first).stale = false)
      ∧ u = { beginState s (.digestSet h t) h.ring with actor := none, fwd := u.fwd })
  ∧ (∀ h t s, begins s (.epochFlip h t) h.ring → h.kind = 0 → (∀ p ∈ pipelines s.part, unitDown s 2 p = false ∧ (epochOf s p).draining = false
      ∧ inBank (epochOf s p) (epochOf s p).cur ≠ 0) →
    ∃ u, exec (.epochFlip h t) s = .next (finish (h.ring, (ring s h.ring).begun) 0 1 0 0 u)
      ∧ (∀ p ∈ pipelines s.part, (epochOf u p).cur = !(epochOf s p).cur ∧ (epochOf u p).draining = true)
      ∧ u = { beginState s (.epochFlip h t) h.ring with actor := none, cls := u.cls })
  ∧ (∀ h b s, begins s (.g3TableWrite h b) h.ring → h.table = 0x11 → b.count = 1 → b.first < 8192 →
    addrStatus s (ringLink s h.ring) b.hostAddr 64 64 false = 0 → unitsPending s (h.ring, (ring s h.ring).begun) = false →
    ∃ u, exec (.g3TableWrite h b) s = .next (finish (h.ring, (ring s h.ring).begun) 0 1 0 0 u)
      ∧ (∀ p ∈ pipelines s.part, unitDown s 2 p = false → objGet u 0x0106 p (bankNo (epochOf s p).cur) b.first = rdN s.host b.hostAddr 8)
      ∧ u = { beginState s (.g3TableWrite h b) h.ring with actor := none, cls := u.cls })
  ∧ (∀ h b s, begins s (.g3TableRead h b) h.ring → h.table = 0x05 → b.count = 1 → b.first < 4096 →
    addrStatus s (ringLink s h.ring) b.hostAddr 64 64 true = 0 → (∀ d, meetsAbsent s d (tOff 0x0205 b.first) 8 = false
      ∧ (cmpOf s d (tOff 0x0205 b.first / 65536)).suspect = false) →
    ∃ u d, exec (.g3TableRead h b) s = .next (finish (h.ring, (ring s h.ring).begun) 0 1 1 0 u) ∧ d ∈ dies s.part
      ∧ u.host = wrBytes s.host b.hostAddr (leBytes 8 (tEntry s d 0x0205 b.first))
      ∧ u = { beginState s (.g3TableRead h b) h.ring with actor := none, host := u.host, free := u.free })

/-- FLOW_WRITE of an existing record named by its index, with inline data at a host address of zero, writes its action
block, flags and firmware area, adds one to the record's version, leaves its first 44 bytes, and waits for its HBM
write to be accepted. FLOW_DELETE by index without the free flag, and G3_FLOW_DELETE, of a record that has not ended
move it to CLOSED with its version one higher and leave its first 42 bytes. FLOW_READ by index writes the record's
image to host memory and answers its index. Each of these rows completes on the conditions of its clause, exec
answering the next state with that effect: flowWrite, flowDelete, g3FlowDelete, flowRead. (R95, R180, R182, R191,
R207, R214) -/
def Obligations.FlowCommands : Prop :=
  (∀ h t r s, begins s (.flowWrite h t) h.ring → t.object = 0x0501 → t.hostAddr = 0 → bit t.first 63 = false → nameIdx s (t.first % 2 ^ 63) = .found r →
    ∃ u e, exec (.flowWrite h t) s = .next u ∧ recAction u r = fld (t.inline % 2 ^ 192) 767 512 ∧ recFlags48 u r = fld (t.inline % 2 ^ 192) 415 384
      ∧ recVer u r = (recVer s r + 1) % 2 ^ 32 ∧ recN u r 144 48 = fld (t.inline % 2 ^ 192) 1535 1152
      ∧ (∀ o k, o + k ≤ 44 → recN u r o k = recN s r o k)
      ∧ inflight u (h.ring, (ring s h.ring).begun) = some e ∧ e.cmd = .flowWrite h t ∧ e.wait = .accept ∧ e.stepping = true
      ∧ u = { s with actor := none, mem := u.mem, hif := u.hif, flow := u.flow })
  ∧ (∀ h t r s, begins s (.flowDelete h t) h.ring → t.object = 0x0501 → bit t.first 63 = false → bit t.opFlags 2 = false →
    nameIdx s (t.first % 2 ^ 63) = .found r → recOpen s r = true →
    ∃ u, exec (.flowDelete h t) s = .next u ∧ recLife u r = lifeClosed ∧ recVer u r = (recVer s r + 1) % 2 ^ 32
      ∧ (∀ o k, o + k ≤ 42 → recN u r o k = recN s r o k))
  ∧ (∀ h rec r s, begins s (.g3FlowDelete h rec) h.ring → nameIdx s rec = .found r → recOpen s r = true →
    ∃ u, exec (.g3FlowDelete h rec) s = .next u ∧ recLife u r = lifeClosed ∧ recVer u r = (recVer s r + 1) % 2 ^ 32
      ∧ (∀ o k, o + k ≤ 42 → recN u r o k = recN s r o k))
  ∧ (∀ h t r s, begins s (.flowRead h t) h.ring → t.object = 0x0501 → bit t.first 63 = false → nameIdx s (t.first % 2 ^ 63) = .found r →
    addrStatus s (ringLink s h.ring) t.hostAddr (Nat.max t.hostLen 256) 64 true = 0 →
    exec (.flowRead h t) s = .next (finish (h.ring, (ring s h.ring).begun) 0 1 r 0 { beginState s (.flowRead h t) h.ring with
      actor := none, host := wrBytes s.host t.hostAddr (leBytes 256 (recImage s r)) }))

/-- COUNTER_READ of one 64-bit count of one unit, whose domain is not down, writes its value to host memory; COUNTER_CLEAR
sets it to zero and changes no other count; G3_COUNTER_READ of one bridging count writes the sum over the dies, modulo
2^64. Each of these rows completes on the conditions of its clause, exec answering the next state with that effect:
counterRead, counterClear, g3CounterRead. (R55, R96, R169, R502) -/
def Obligations.CounterCommands : Prop :=
  (∀ h t d s, begins s (.counterRead h t) h.ring → t.object ∈ [0x0181, 0x0281, 0x0882, 0x0981, 0x0C81, 0x0C82, 0x0D81, 0x0D82] → t.count = 1 →
    t.first < entryCount t.object → targetUnits s h.kind h.unit (objUnitKind t.object) = [d] → unitDown s (objUnitKind t.object) d = false →
    addrStatus s (ringLink s h.ring) t.hostAddr (Nat.max t.hostLen 8) 64 true = 0 →
    exec (.counterRead h t) s = .next (finish (h.ring, (ring s h.ring).begun) 0 1 1 0 { beginState s (.counterRead h t) h.ring with
      actor := none, host := wrBytes s.host t.hostAddr (leBytes 8 (cntGet s t.object d t.first)) }))
  ∧ (∀ h t d s, begins s (.counterClear h t) h.ring → t.object ∈ [0x0181, 0x0281, 0x0882, 0x0981, 0x0C81, 0x0C82, 0x0D81, 0x0D82] → t.count = 1 →
    t.first < entryCount t.object → targetUnits s h.kind h.unit (objUnitKind t.object) = [d] →
    ∃ u, exec (.counterClear h t) s = .next (finish (h.ring, (ring s h.ring).begun) 0 1 0 0 u) ∧ cntGet u t.object d t.first = 0
      ∧ (∀ o k i, cntKey o k i ≠ cntKey t.object d t.first → cntGet u o k i = cntGet s o k i)
      ∧ u = { beginState s (.counterClear h t) h.ring with actor := none, cnt := u.cnt })
  ∧ (∀ h b s, begins s (.g3CounterRead h b) h.ring → h.table = 0x82 → b.count = 1 → b.first < 16 →
    addrStatus s (ringLink s h.ring) b.hostAddr 64 64 true = 0 →
    exec (.g3CounterRead h b) s = .next (finish (h.ring, (ring s h.ring).begun) 0 1 1 0 { beginState s (.g3CounterRead h b) h.ring with
      actor := none, host := wrBytes s.host b.hostAddr (leBytes 8 ((dies s.part).foldl (fun n d => (n + cntGet s 0x0281 d b.first) % 2 ^ 64) 0)) }))

/-- SHAPER_SET of one entry keeps it for the next shaper update and waits for that. GATE_LOAD, FLOW_RESTORE, MEM_READ,
MEM_WRITE and CHECK_SCAN whose operands and host data pass begin with no unit done, and FW_STAGE begins likewise with
its slot no longer valid. The step of a GATE_LOAD that completes its last entry puts the list into the pending place
of each port it names, with its start time. Each of these rows completes on the conditions of its clause, exec
answering the next state with that effect: shaperSet, gateLoad, flowRestore, memRead, memWrite, checkScan, fwStage.
(R55, R57, R207, R279, R338, R340, R398, R438, R439, R440, R444) -/
def Obligations.LongCommandsBegin : Prop :=
  (∀ h t d s, begins s (.shaperSet h t) h.ring → t.object = 0x0902 → targetUnits s h.kind h.unit 1 = [d] → t.count = 1 → t.first < 3200 →
    ∃ u e f, exec (.shaperSet h t) s = .next u ∧ mget none u.egs.newShaper (4096 * d + t.first) = some (t.inline % 2 ^ 128, f)
      ∧ (bit t.opFlags 0 = true → f = true) ∧ inflight u (h.ring, (ring s h.ring).begun) = some e ∧ e.cmd = .shaperSet h t ∧ e.wait = .shaper
      ∧ e.progress = 1)
  ∧ (∀ h t s, begins s (.gateLoad h t) h.ring → gatePorts h s ≠ [] → t.object = 0x0903 →
    addrStatus s (ringLink s h.ring) t.hostAddr (Nat.max t.hostLen (ceilDiv (32 + 8 * gateCount t) 64 * 64)) 64 false = 0 →
    ∃ u e, exec (.gateLoad h t) s = .next u ∧ inflight u (h.ring, (ring s h.ring).begun) = some e ∧ e.cmd = .gateLoad h t ∧ e.stepping = true
      ∧ e.progress = 0 ∧ u = { s with hif := u.hif, actor := none })
  ∧ (∀ g i h t e s, inflight s (g, i) = some e → e.cmd = .gateLoad h t → e.stepping = true → e.progress + 1 = gateCount t →
    targetDown s (cmdTarget e.cmd).1 (cmdTarget e.cmd).2 = false →
    ∃ u, exec (.longCommandStep g i) s = .next u ∧ ∀ p ∈ gatePorts h s, (gates u p).pending
      = some { gateListOf (rdBytes s.host t.hostAddr (32 + 8 * gateCount t)) (gateCount t) with
        start := gateStartTime (gateListOf (rdBytes s.host t.hostAddr (32 + 8 * gateCount t)) (gateCount t)) (timeFxUp s) })
  ∧ (∀ h t s, begins s (.flowRestore h t) h.ring → h.kind = 0 → t.object = 0x0501 →
    addrStatus s (ringLink s h.ring) t.hostAddr (Nat.max t.hostLen (320 * restoreCount t)) 64 false = 0 →
    ∃ u e, exec (.flowRestore h t) s = .next u ∧ inflight u (h.ring, (ring s h.ring).begun) = some e ∧ e.cmd = .flowRestore h t ∧ e.stepping = true
      ∧ e.progress = 0 ∧ u = { s with hif := u.hif, actor := none })
  ∧ (∀ h m r s, begins s (.memRead h m) h.ring → m.length ≠ 0 → devRange s m.devAddr m.length = some r →
    addrStatus s (ringLink s h.ring) m.hostAddr m.length 64 true = 0 →
    ∃ u e, exec (.memRead h m) s = .next u ∧ inflight u (h.ring, (ring s h.ring).begun) = some e ∧ e.cmd = .memRead h m ∧ e.stepping = true
      ∧ e.progress = 0)
  ∧ (∀ h m x s, begins s (.memWrite h m) h.ring → m.length ≠ 0 → devRange s m.devAddr m.length = some (.hbm x) → 3 ≤ regionOf (x % 2 ^ 35) →
    addrStatus s (ringLink s h.ring) m.hostAddr m.length 64 false = 0 →
    ∃ u e, exec (.memWrite h m) s = .next u ∧ inflight u (h.ring, (ring s h.ring).begun) = some e ∧ e.cmd = .memWrite h m ∧ e.stepping = true
      ∧ e.progress = 0 ∧ u = { s with hif := u.hif, actor := none })
  ∧ (∀ h m r s, begins s (.checkScan h m) h.ring → scanFields m = true → devRange s m.devAddr m.length = some r →
    addrStatus s (ringLink s h.ring) m.hostAddr (scanHost m) 64 (!bit m.opFlags 4) = 0 →
    ∃ u e, exec (.checkScan h m) s = .next u ∧ inflight u (h.ring, (ring s h.ring).begun) = some e ∧ e.cmd = .checkScan h m ∧ e.stepping = true
      ∧ e.progress = 0 ∧ e.acc = [scanStart m 0, 0, 0])
  ∧ (∀ h m s, begins s (.fwStage h m) h.ring → m.devAddr % 64 = 0 → m.devAddr + m.length ≤ imageMax → m.length ≠ 0 → slotInUse s (m.opFlags % 2) = false →
    addrStatus s (ringLink s h.ring) m.hostAddr m.length 64 false = 0 →
    ∃ u e, exec (.fwStage h m) s = .next u ∧ inflight u (h.ring, (ring s h.ring).begun) = some e ∧ e.cmd = .fwStage h m ∧ e.stepping = true
      ∧ e.progress = 0 ∧ mget false u.tsk.slotValid (m.opFlags % 2) = false)

/-- FW_SWITCH of a valid slot that every running selected cluster may take, with no rollout running and an adopted hold,
starts the rollout: the first cluster of the first selected slice, being powered and holding an image, drains.
ROLLOUT_CLUSTER_DRAINED of an idle cluster starts its load and resets its cores. DRAIN_US_EXPIRY of a cluster that
still holds a task after drain_us, and ROLLOUT_LOAD_END with an uncorrectable word, stop the rollout as failed, and
the cluster keeps its old image. ROLLOUT_LOAD_END of the last cluster loads the image into it and ends the rollout.
Each of these rows completes on the conditions of its clause, exec answering the next state with that effect:
fwSwitch, rolloutClusterDrained, drainUsExpiry, rolloutLoadEnd. (R280, R281, R284, R450) -/
def Obligations.FirmwareRollout : Prop :=
  (∀ h slot mask us sl s, begins s (.fwSwitch h slot mask us) h.ring → slot < 2 → (∀ x ∈ maskSlices mask, hasSlice s.part x = true) →
    mget false s.tsk.slotValid slot = true → s.tsk.rollout.running = false →
    (∀ k, (cluster s k).fw ≤ 2 → imageHdr s slot 12 4 ≤ (cluster s k).version ∧ (cluster s k).minVersion ≤ imageHdr s slot 8 4) →
    holdAdopted s = true → (upTo 8).find? (fun x => bit (mask % 256) x) = some sl → domOn s (domCluster (3 * sl)) = true → (cluster s (3 * sl)).fw ≠ 5 →
    ∃ t, exec (.fwSwitch h slot mask us) s = .next t ∧ t.tsk.rollout.running = true ∧ t.tsk.rollout.selected = mask % 256 ∧ t.tsk.rollout.slot = slot
      ∧ t.tsk.rollout.drainUs = (if us = 0 then 1000 else us) ∧ t.tsk.rollout.at_ = some (3 * sl) ∧ t.tsk.rollout.since = s.now
      ∧ (cluster t (3 * sl)).fw = 1)
  ∧ (∀ k s, s.tsk.rollout.at_ = some k → s.tsk.rollout.running = true → (cluster s k).fw = 1 → clusterIdle s k = true → holdAdopted s = true →
    ∃ t, exec .rolloutClusterDrained s = .next t ∧ (cluster t k).fw = 2 ∧ (cluster t k).shared = []
      ∧ (∀ i, i < 8 → (coreOf t (8 * k + i)).x = [] ∧ (coreOf t (8 * k + i)).scratch = []) ∧ t = { s with tsk := t.tsk, cnt := t.cnt })
  ∧ (∀ k s, s.tsk.rollout.at_ = some k → s.tsk.rollout.running = true → (cluster s k).fw = 1 → clusterIdle s k = false → holdAdopted s = true →
    s.tsk.rollout.since + s.tsk.rollout.drainUs * 10 ^ 6 ≤ s.now →
    ∃ t, exec .drainUsExpiry s = .next t ∧ t.tsk.rollout.running = false ∧ t.tsk.rollout.failed = true ∧ t.tsk.rollout.at_ = none
      ∧ cluster t k = { cluster s k with fw := if (cluster s k).isram = [] then 5 else 0 })
  ∧ (∀ k s, s.tsk.rollout.at_ = some k → s.tsk.rollout.running = true → (cluster s k).fw = 2 → holdAdopted s = true →
    ∃ t, exec (.rolloutLoadEnd false) s = .next t ∧ t.tsk.rollout.running = false ∧ t.tsk.rollout.failed = true ∧ t.tsk.rollout.at_ = none
      ∧ cluster t k = { cluster s k with fw := if (cluster s k).isram = [] then 5 else 0 })
  ∧ (∀ k s, s.tsk.rollout.at_ = some k → s.tsk.rollout.running = true → (cluster s k).fw = 2 → holdAdopted s = true →
    (∀ x, x < 8 → bit s.tsk.rollout.selected x = true → bit s.tsk.rollout.done x = true) →
    mirrorLost s (imageSlot s.tsk.rollout.slot + 64) (imageHdr s s.tsk.rollout.slot 0 4) = false →
    ∃ t, exec (.rolloutLoadEnd true) s = .next t ∧ t.tsk.rollout.running = false ∧ t.tsk.rollout.at_ = none ∧ (cluster t k).fw = 0
      ∧ (cluster t k).slot = s.tsk.rollout.slot ∧ (cluster t k).version = imageHdr s s.tsk.rollout.slot 8 4
      ∧ (cluster t k).isram = wrBytes [] 0 (mirrorRead s (k / 6) (imageSlot s.tsk.rollout.slot + 64) (imageHdr s s.tsk.rollout.slot 0 4)))

/-- DOMAIN_CTL QUERY answers the domain's state and generation. OFF and RESTART of a domain that is ON and not refused
start to stop it; ON of one that is OFF puts it into QUARANTINE with its generation one higher; REINIT of one in
QUARANTINE starts its initialisation, and RESTART of one in QUARANTINE goes on for its power to go. DOMAIN_STOP_DONE
of an OFF of an octet, pipeline or cluster whose preconditions are met leaves it OFF. DOMAIN_INIT_DONE leaves an octet
ON without fault when it passed, and any domain in QUARANTINE with a fault of cause 4 when it did not. DOMAIN_FAULT of
a powered domain leaves it in QUARANTINE with a fault of that cause and its generation one higher. AUTO_RESTART of a
faulted domain whose kind restarts, when no command holds it and 10 s have passed, starts its initialisation. Each of
these rows completes on the conditions of its clause, exec answering the next state with that effect: domainCtlQuery,
domainCtlOff, domainCtlOn, domainCtlReinit, domainCtlRestart, domainStopDone, domainInitDone, domainFault,
autoRestart. (R284, R500, R502, R503, R504, R505, R506, R507, R515) -/
def Obligations.PowerDomains : Prop :=
  (∀ h n s, begins s (.domainCtlQuery h) h.ring → ctlDomain s h = some n → exec (.domainCtlQuery h) s
      = .next (finish (h.ring, (ring s h.ring).begun) 0 0 (ctlWord s n) 0 (cntInc 0x0D82 0 2 { beginState s (.domainCtlQuery h) h.ring with actor := none })))
  ∧ (∀ h n s, begins s (.domainCtlOff h) h.ring → ctlDomain s h = some n → (domain s n).state = dsOn → offRefused s n = false →
    ∃ t, exec (.domainCtlOff h) s = .next t ∧ domain t n = { domain s n with state := dsStopping } ∧ (∀ k, k ≠ n → domain t k = domain s k))
  ∧ (∀ h n s, begins s (.domainCtlOn h) h.ring → ctlDomain s h = some n → (domain s n).state = dsOff → onRefused s n = false →
    ∃ t, exec (.domainCtlOn h) s = .next t ∧ (domain t n).state = dsQuar ∧ (domain t n).gen = ((domain s n).gen + 1) % 256 ∧ (domain t n).fault = false
      ∧ (∀ k, k ≠ n → domain t k = domain s k))
  ∧ (∀ h src n s, begins s (.domainCtlReinit h src) h.ring → ctlDomain s h = some n → (domain s n).state = dsQuar → onRefused s n = false →
    srcRefused s n src = false →
    ∃ t e, exec (.domainCtlReinit h src) s = .next t ∧ (domain t n).state = dsInit ∧ (domain t n).src = src ∧ (∀ k, k ≠ n → domain t k = domain s k)
      ∧ inflight t (h.ring, (ring s h.ring).begun) = some e ∧ e.cmd = .domainCtlReinit h src ∧ e.wait = .domain)
  ∧ (∀ h src n s, begins s (.domainCtlRestart h src) h.ring → ctlDomain s h = some n → (domain s n).state = dsOn → offRefused s n = false →
    srcRefused s n src = false →
    ∃ t, exec (.domainCtlRestart h src) s = .next t ∧ domain t n = { domain s n with state := dsStopping } ∧ (∀ k, k ≠ n → domain t k = domain s k))
  ∧ (∀ h src n s, begins s (.domainCtlRestart h src) h.ring → ctlDomain s h = some n → (domain s n).state = dsQuar → offRefused s n = false →
    srcRefused s n src = false →
    ∃ t e, exec (.domainCtlRestart h src) s = .next t ∧ (∀ k, domain t k = domain s k) ∧ inflight t (h.ring, (ring s h.ring).begun) = some e
      ∧ e.cmd = .domainCtlRestart h src ∧ e.wait = .domain)
  ∧ (∀ n h e s, hasDomain s.part n = true → (∀ sl, domKind n ≠ .slice sl) → ctlOn s n = some e → e.cmd = .domainCtlOff h → e.abort = false →
    (domain s n).state = dsStopping → stopReady s n = true →
    ∃ t, exec (.domainStopDone n) s = .next t ∧ (domain t n).state = dsOff ∧ (domain t n).fault = false ∧ (∀ k, k ≠ n → domain t k = domain s k))
  ∧ (∀ n k s, hasDomain s.part n = true → domKind n = .octet k → (domain s n).state = dsInit →
    ∃ t, exec (.domainInitDone n true) s = .next t ∧ (domain t n).state = dsOn ∧ (domain t n).fault = false ∧ (∀ j, j ≠ n → domain t j = domain s j))
  ∧ (∀ n s, hasDomain s.part n = true → (domain s n).state = dsInit →
    ∃ t, exec (.domainInitDone n false) s = .next t ∧ (domain t n).state = dsQuar ∧ (domain t n).fault = true ∧ (domain t n).cause = 4
      ∧ (∀ j, j ≠ n → domain t j = domain s j))
  ∧ (∀ n c s, hasDomain s.part n = true → (domain s n).state ≠ dsOff →
    ∃ t, exec (.domainFault n c) s = .next t ∧ (domain t n).state = dsQuar ∧ (domain t n).fault = true ∧ (domain t n).cause = c % 16
      ∧ (domain t n).gen = ((domain s n).gen + 1) % 256 ∧ (∀ j, j ≠ n → domain t j = domain s j))
  ∧ (∀ n s, hasDomain s.part n = true → (domain s n).state = dsQuar → (domain s n).fault = true → autoOn s n = true →
    (∀ t, (domain s n).autoAt = some t → t + 10 ^ 13 ≤ s.now) → ctlOn s n = none → onRefused s n = false →
    ∃ t, exec (.autoRestart n) s = .next t ∧ (domain t n).state = dsInit ∧ (domain t n).autoAt = some s.now ∧ (∀ j, j ≠ n → domain t j = domain s j))

/-- LINK_TRAINING_DONE brings a down port of a working octet and pipeline up, after the commit, while traffic is not
barred. LINK_LOSS takes an up port down, clears its stamp compensation and empties its queues and launch list.
PORT_COMP_READY of a port that is up takes the measured compensation. GATE_CHANGE at the due time of a running list
that is neither stretched nor held nor open moves the gates on; GATE_LIST_START of a pending list that has reached its
start begins it and raises GATE_START. SHAPER_UPDATE applies each new shaper entry. QUEUE_SAMPLE of one selected queue
whose sample ring is not enabled offers and discards the record. TIM_CTRL's reset bit sets the counter and its rate to
zero and adds one to the time generation; SNAP latches the counter. Each of these rows completes on the conditions of
its clause, exec answering the next state with that effect: linkTrainingDone, linkLoss, portCompReady, gateChange,
gateListStart, shaperUpdate, queueSample, timeUnitReset, snap. (R329, R333, R338, R340, R341, R346, R347, R360, R367,
R384, R461) -/
def Obligations.PortsGatesAndShapers : Prop :=
  (∀ p s, (allPorts s).contains p = true → s.pwr.committed = true → domOn s (octOfLane p) = true → domWorks s (domPipe (pipeOfLane p)) = true →
    noTraffic s = false → portUp s p = false →
    exec (.linkTrainingDone p) s = .next (raise (phySrc p) evPhyLinkUp p 0 0 0 (lanesLock p { s with egs := { s.egs with up := mset false s.egs.up p true } })))
  ∧ (∀ p s, portUp s p = true →
    ∃ t, exec (.linkLoss p) s = .next t ∧ portUp t p = false ∧ mget (false, 0, 0) t.tim.comp p = (false, 0, 0)
      ∧ (∀ k, k ≠ p → portUp t k = portUp s k) ∧ launch t p = [] ∧ (∀ q, q < 16 → egq t p q = []))
  ∧ (∀ p rx tx s, portUp s p = true → exec (.portCompReady p rx tx) s
      = .next { s with tim := { s.tim with comp := mset (false, 0, 0) s.tim.comp p (true, rx % 2 ^ 15, tx % 2 ^ 15) } })
  ∧ (∀ p l s, (gates s p).running = some l → l.open_ = false → (gates s p).stretched = false → (gates s p).held = false → (gates s p).next ≤ timeFx s →
    exec (.gateChange p) s = .next (noteWaits p { s with egs := { s.egs with gates := mset {} s.egs.gates p (advanceGates (gates s p)) } }))
  ∧ (∀ p l s, (gates s p).held = false → (gates s p).pending = some l → l.start ≤ timeFx s →
    exec (.gateListStart p) s = .next (raise (egsSrc p) evGateStart 0 0 0 0
      (noteWaits p { s with egs := { s.egs with gates := mset {} s.egs.gates p (beginList l { gates s p with pending := none }) } })))
  ∧ (∀ s, s.now < s.egs.shaperAt + 64000 → exec .shaperUpdate s = .next s)
  ∧ (∀ d s, s.now < mget 0 s.egs.sampleAt d + Nat.max 10 (cfg s (.egsSampleCfg d) 15 0) * 10 ^ 6 → exec (.queueSample d) s = .next s)
  ∧ (∀ key img f s, mget none s.egs.newShaper key = some (img, f) → s.egs.shaperAt + 64000 ≤ s.now →
    ∃ t, exec .shaperUpdate s = .next t ∧ shaperOf t key = img ∧ mget none t.egs.newShaper key = none)
  ∧ (∀ d p q s, hasDie s.part d = true → cfgBit s (.egsSampleCfg d) 31 = true → s.pwr.committed = true →
    mget 0 s.egs.sampleAt d + sampleUs s d * 10 ^ 6 ≤ s.now →
    ((portsOfDie s d).flatMap fun port => ((upTo 16).filter fun q => cfgBit s (.egsSampleMask port) q).map fun q => (port, q)) = [(p, q)] →
    (ring s (656 + cfg s (.egsSampleCfg d) 20 16)).enabled = false →
    ∃ t, exec (.queueSample d) s = .next t ∧ (ring t (656 + cfg s (.egsSampleCfg d) 20 16)).offered = (ring s (656 + cfg s (.egsSampleCfg d) 20 16)).offered + 1
      ∧ (ring t (656 + cfg s (.egsSampleCfg d) 20 16)).discarded = (ring s (656 + cfg s (.egsSampleCfg d) 20 16)).discarded + 1)
  ∧ (∀ path s, writable s path .timCtrl →
    ∃ t, exec (.timeUnitReset path) s = .next t ∧ t.tim.sec = 0 ∧ t.tim.ns = 0 ∧ t.tim.frac = 0 ∧ t.tim.rate = 0 ∧ t.tim.copy = cfgBit s .pwrInfraSel 0
      ∧ t.tim.gen = (s.tim.gen + 1) % 256)
  ∧ (∀ path s, writable s path .timCtrl → exec (.snap path) s
      = .next { s with tim := { s.tim with snapFrac := s.tim.frac / 2 ^ 28, snapNs := s.tim.ns, snapSec := s.tim.sec } })

/-- SCHEDULER_SELECT on a port that is up with room in its launch list moves the head of the chosen queue to the end of
the launch list; with 8 in the list it changes nothing. FRAME_TRANSMIT_START starts the launch-list frame that may
start and takes it out of the list; FRAME_TRANSMIT_END of a frame that has its check puts its bytes and FCS, inverted
when stomped, on the wire. MCAST_HOLD_EXPIRY takes a late copy out of its queue and the launch list. PFC_XOFF_REPEAT
sends XOFF again half a pause time after the last; a received PFC frame naming one priority is counted and pauses it,
for its time when it is enabled and not tripped, time 0 ending the pause; PFC_PAUSE_EXPIRY ends it at its time.
PFC_WATCHDOG_EXPIRY of a lossless priority held for wd_ms raises PFC_WD_TRIP and empties its queue;
PFC_WATCHDOG_RESTORE_TIMER restores it. AUDIT_START, its period after the last, sets the seen mark of each held cell
and clears the others; AUDIT_END ends the audit and keeps how many cells were suspected twice. Each of these rows
completes on the conditions of its clause, exec answering the next state with that effect: schedulerSelect,
frameTransmitStart, frameTransmitEnd, mcastHoldExpiry, pfcXoffRepeat, pfcFrameReceive, pfcPauseExpiry,
pfcWatchdogExpiry, pfcWatchdogRestoreTimer, auditStart, auditEnd. (R295, R296, R301, R303, R315, R327, R328, R330,
R331) -/
def Obligations.EgressFrames : Prop :=
  (∀ p g q h r s, (launch s p).length < 8 → portUp s p = true → portChoice (formTags p s) p = some (g, q) → egq (formTags p s) p q = h :: r →
    ∃ t, exec (.schedulerSelect p) s = .next t ∧ (∃ x, launch t p = launch (formTags p s) p ++ [x] ∧ x.pkt = h.pkt ∧ x.queue = h.queue)
      ∧ (egq t p q).map (·.pkt) = r.map (·.pkt))
  ∧ (∀ p s, 8 ≤ (launch s p).length → exec (.schedulerSelect p) s = .next s)
  ∧ (∀ p x e k bs s, portUp s p = true → mget none s.egs.sending p = none →
    startable s p = some e → pktOf s e.pkt = some k →
    (edit (modLaunch p (removeFirst e) s) k k.copy p e.vid (txStamp (modLaunch p (removeFirst e) s) p) (compReady (modLaunch p (removeFirst e) s) p)).bytes = some bs →
    ∃ t, exec (.frameTransmitStart p x) s = .next t ∧ launch t p = removeFirst e (launch s p) ∧
      ∃ d, mget none t.egs.sending p = some d ∧ d.ent = e ∧ d.bytes = bs ∧ d.stomp = x)
  ∧ (∀ p d k s, mget none s.egs.sending p = some d → pktOf s d.ent.pkt = some k → k.check.isSome = true →
    ∃ t, exec (.frameTransmitEnd p) s = .next t ∧ mget none t.egs.sending p = none ∧
      s.egs.wire ++ [(p, d.bytes ++ leBytes 4 (if d.stomp || k.stomp then Nat.xor (crcOf 2 d.bytes) 0xFFFFFFFF else crcOf 2 d.bytes), d.stomp || k.stomp)] <+: t.egs.wire)
  ∧ (∀ k p x e n s, pktOf s k = some x → ((upTo 16).flatMap (egq s p ·) ++ launch s p).find? (fun e => e.pkt = k ∧ e.copy) = some e →
    eligFrom x e.ct = some n → 0 < e.hold → n + e.hold * 10 ^ 6 ≤ s.now →
    ∃ t, exec (.mcastHoldExpiry k p) s = .next t ∧ (∀ a ∈ egq t p e.queue ++ launch t p, a.pkt ≠ k))
  ∧ (∀ p q t s, (pauseSt s p q).sent = some t → portUp s p = true → (pfcProf s p).2.1 < (pauseSt s p q).account →
    t + 0xFFFF * 512 * 1000 / Nat.max 1 (portRate s p) / 2 ≤ s.now →
    exec (.pfcXoffRepeat p q) s = .next (sendXoff p q (modPause p q (fun x => { x with sent := some s.now }) s)))
  ∧ (∀ p q l s, q < 8 → exec (.pfcFrameReceive p (.pfc (2 ^ q) l)) s = .next (pauseOne p q (nth 0 l q % 65536) (pfcCnt p (8 + q) s)))
  ∧ (∀ p q n s, cfgBit s (.bufPortCfg p) q = true → 0 < n → (pauseSt s p q).tripped = false →
    (pauseSt (pauseOne p q n s) p q).until_ = some (s.now + n * 512 * 1000 / Nat.max 1 (portRate s p)))
  ∧ (∀ p q s, cfgBit s (.bufPortCfg p) q = true → (pauseSt s p q).tripped = false → (pauseSt (pauseOne p q 0 s) p q).until_ = none)
  ∧ (∀ p q n s, cfgBit s (.bufPortCfg p) q = false → pauseOne p q n s = s)
  ∧ (∀ p q t s, (pauseSt s p q).until_ = some t → t ≤ s.now →
    exec (.pfcPauseExpiry p q) s = .next (modPause p q (fun x => { x with until_ := none, heldSince := none }) s))
  ∧ (∀ p q t s, cfgBit s (.bufPortCfg p) 17 = true → lossless s p q = true → pausedNow s p q = true → 0 < queueCells s p q → (pauseSt s p q).heldSince = some t →
    t + cfg1 s (.bufWdCfg (dieOfLane p)) 15 0 * 10 ^ 9 ≤ s.now →
    ∃ u, exec (.pfcWatchdogExpiry p q) s = .next (raise (bufSrc (dieOfLane p) (16 + p / 8 % 16)) evPfcWdTrip 0 0 0 0 u) ∧ egq u p q = [])
  ∧ (∀ p q s, (pauseSt s p q).tripped = true → (pauseSt s p q).lastXoff + cfg s (.bufWdCfg (dieOfLane p)) 31 16 * 10 ^ 9 ≤ s.now →
    ∃ u, exec (.pfcWatchdogRestoreTimer p q) s = .next u ∧ (pauseSt u p q).tripped = false)
  ∧ (∀ d s, hasDie s.part d = true → s.pwr.committed = true → holdAdopted s = true → mget false s.buf.auditing d = false →
    (∀ t, mget none s.buf.auditAt d = some t → t + Nat.max 10 (cfg s (.bufAuditCfg d) 15 0) * 10 ^ 9 ≤ s.now) →
    exec (.auditStart d) s = .next { s with buf := { s.buf with
      auditAt := mset none s.buf.auditAt d (some s.now)
      auditing := mset false s.buf.auditing d true
      cells := s.buf.cells.map fun c => if cellDie c.1 = d then (c.1, { c.2 with seen := (heldCells s d).contains c.1 }) else c } })
  ∧ (∀ d s, mget false s.buf.auditing d = true →
    ∃ t, exec (.auditEnd d) s = .next t ∧ mget false t.buf.auditing d = false
      ∧ mget 0 t.buf.leakedLast d = Nat.min 8191 (s.buf.cells.filter fun c => decide (cellDie c.1 = d) && !c.2.seen && c.2.suspect).length)

/-- ARBITER_MATCH: a slot in which the compared copies differ counts, raises FAB_ARB_MISMATCH and stops the granting,
moving nothing; while a self-check runs nothing is granted; a slot whose one match is a pair on one die takes the
frame at the head of its class out of its queue if the burst holds it whole; no round matches a source or a
destination twice. ARBITER_SELF_CHECK_END: both copies pass, Q2 takes Q0's pointers and comparison resumes; otherwise
one copy is active alone: Q2 if only it passed, else Q0. FAILED_COPY_SELF_CHECK, 1 s after the last: a copy that
passes rejoins, one that fails is counted. A damaged link cell is answered with a NAK and counts an error of its lane;
an intact new one moves the acknowledged number on; an acknowledgement releases the cells it covers; a NAK, or 200 ns
without an acknowledgement, resends the cell. LANE_ERROR_INTERVAL retires a lane over the limit, and clears the counts
then and at the end of the 1 ms. RESEQ_GAP_TIMEOUT keeps of the held cells none before the next frame's first. Each of
these rows completes on the conditions of its clause, exec answering the next state with that effect: arbiterMatch,
arbiterSelfCheckEnd, failedCopySelfCheck, linkCellReceive, linkAck, linkNak, linkResendTimeout, laneErrorInterval,
reseqGapTimeout. (R302, R305, R306, R307, R309, R310, R311, R312) -/
def Obligations.FabricArbitersAndLinks : Prop :=
  (∀ s, s.fab.checking = false → s.fab.compare = true →
    exec (.arbiterMatch true) s = .next (raise 0x100 evFabArbMismatch 0 0 0 0
      (modFab (fun f => { f with checking := true }) (cntInc 0x0882 0 1 (cntInc 0x0882 0 0 s)))))
  ∧ (∀ d s, s.fab.checking = true → exec (.arbiterMatch d) s = .next s)
  ∧ (∀ i j c e s, s.fab.checking = false → i < 16 → j < 16 → c < 16 →
    (each (pipelines s.part) refreshAdmit s).fab.withdrawn = [] → pairLink i j = none →
    matchRound (each (pipelines s.part) refreshAdmit s) (b2n (!(each (pipelines s.part) refreshAdmit s).fab.compare && (each (pipelines s.part) refreshAdmit s).fab.active)) [] = [(i, j)] →
    matchRound (each (pipelines s.part) refreshAdmit s) (b2n (!(each (pipelines s.part) refreshAdmit s).fab.compare && (each (pipelines s.part) refreshAdmit s).fab.active)) [(i, j)] = [] →
    nextClass (spinOn [(i, j)] (each (pipelines s.part) refreshAdmit s)) i j = some c → voq s i j c = [e] →
    (pktOf s e.pkt).isSome = true → pktCells s e.pkt ≤ e.sent + 8 →
    ∃ t, exec (.arbiterMatch false) s = .next t ∧ voq t i j c = [])
  ∧ (∀ s c, ((matchRound s c []).map (·.1)).Nodup ∧ ((matchRound s c []).map (·.2)).Nodup)
  ∧ (∀ s, s.fab.checking = true → ∃ t, exec (.arbiterSelfCheckEnd true true) s = .next t ∧ t.fab.checking = false ∧ t.fab.compare = true
      ∧ (∀ i, i < 16 → mget 0 t.fab.grant (16 + i) = mget 0 s.fab.grant i ∧ mget 0 t.fab.accept (16 + i) = mget 0 s.fab.accept i))
  ∧ (∀ a b s, s.fab.checking = true → (a && b) = false → ∃ t, exec (.arbiterSelfCheckEnd a b) s = .next t ∧ t.fab.checking = false
      ∧ t.fab.compare = false ∧ t.fab.active = (!a && b))
  ∧ (∀ s, s.fab.checking = false → s.fab.q0ok = true → s.fab.q2ok = false → s.fab.checkAt + 10 ^ 12 ≤ s.now →
      ∃ t, exec (.failedCopySelfCheck true) s = .next t ∧ t.fab.q2ok = true ∧ t.fab.compare = true)
  ∧ (∀ s, s.fab.checking = false → s.fab.q0ok = false → s.fab.checkAt + 10 ^ 12 ≤ s.now →
      exec (.failedCopySelfCheck false) s = .next (modFab (fun f => { f with checkAt := s.now }) (cntInc 0x0882 0 1 s)))
  ∧ (∀ x f l c s, wireCell s x f l = some c → ∃ t, exec (.linkCellReceive x f l false) s = .next t
      ∧ (linkDir t x f).naks = (linkDir s x f).naks ++ [c.lseq] ∧ mget 0 (linkDir t x f).errs l = mget 0 (linkDir s x f).errs l + 1
      ∧ (linkDir t x f).got = (linkDir s x f).got)
  ∧ (∀ x f l c s, wireCell s x f l = some c → pktOf s c.ent.pkt = none → wrapGe 32 c.lseq (linkDir s x f).got = true → (linkDir s x f).ahead.contains c.lseq = false →
      ∃ t, exec (.linkCellReceive x f l true) s = .next t ∧ (linkDir t x f).got = (acceptSeq (linkDir s x f) c.lseq).got)
  ∧ (∀ x f v r s, (linkDir s x f).acks = v :: r → ∃ t, exec (.linkAck x f) s = .next t ∧ (linkDir t x f).acks = r
      ∧ (linkDir t x f).unacked = (linkDir s x f).unacked.filter fun c => !wrapGe 32 v c.lseq)
  ∧ (∀ x f v r c s, (linkDir s x f).naks = v :: r → (linkDir s x f).unacked.find? (fun c => c.lseq = v) = some c → ∃ t, exec (.linkNak x f) s = .next t
      ∧ (linkDir t x f).naks = r ∧ (linkDir t x f).unacked = (linkDir s x f).unacked.map fun y =>
          if y.lseq = v then sealCell s { y with lane := nextLane (dieLink s x) c.lane, wire := true, at_ := s.now, ack := ((linkDir s x (!f)).got + 2 ^ 32 - 1) % 2 ^ 32 } else y)
  ∧ (∀ x f c s, (linkDir s x f).unacked.find? (fun c => decide (c.at_ + 200000 ≤ s.now)) = some c → exec (.linkResendTimeout x f) s = .next (resend x f c.lseq s))
  ∧ (∀ x l s, ∃ t, exec (.laneErrorInterval x l) s = .next t
      ∧ (cfg s (.fabDlCfg x) 15 0 < Nat.max (mget 0 (dieLink s x).fwd.errs l) (mget 0 (dieLink s x).bwd.errs l) → bit (dieLink t x).laneOk l = false)
      ∧ ((mget 0 (dieLink s x).fwd.since l + 10 ^ 9 ≤ s.now ∨
          cfg s (.fabDlCfg x) 15 0 < Nat.max (mget 0 (dieLink s x).fwd.errs l) (mget 0 (dieLink s x).bwd.errs l) ∧ bit (dieLink s x).laneOk l = true) →
        mget 0 (dieLink t x).fwd.errs l = 0 ∧ mget 0 (dieLink t x).bwd.errs l = 0))
  ∧ (∀ i j a s, (reseqOf s i j).gap = some a → a + cfg1 s .fabReseqCfg 7 0 * 10 ^ 6 ≤ s.now → (reseqOf s i j).held ≠ [] →
      ∃ t, exec (.reseqGapTimeout i j) s = .next t ∧ ∀ c ∈ (reseqOf t i j).held, c ∈ (reseqOf s i j).held
        ∧ ((∃ b ∈ (reseqOf s i j).held, b.first = true) →
            ∃ b ∈ (reseqOf s i j).held, b.first = true ∧ seqAhead (reseqOf s i j).e b.seq ≤ seqAhead (reseqOf s i j).e c.seq))

/-- HBM_ACCESS first issues a refresh a bank has 8 of outstanding, else the next request of the port whose turn it is,
which leaves its port when its read is clean. HBM_REFRESH outside panic issues the due refresh and those postponed; in
panic it postpones one more, up to 8. HBM_TEMP_READ keeps the reading and whether it is above the alarm, and doubles
the refresh rate above 85. Each of these, PATROL_SCRUB and RANK_PROBE acts once its interval has passed since it last
did (3.9 µs or 1.95 µs, 1 ms, scrub_hours over the blocks, 1 s) and changes nothing before. PATROL_SCRUB and
RANK_PROBE move on to the next block after a clean read. MIG_START begins the migration of a healthy rank to the
spare; MIG_ABORT marks the driver's migration. MIGRATION_CHUNK counts a chunk. RANK_REENABLE makes a FAILED rank
PREPARING; RANK_PREPARE_END makes it SPARE, or FAILED again. Each of these rows completes on the conditions of its
clause, exec answering the next state with that effect: hbmAccess, hbmRefresh, hbmTempRead, patrolScrub, rankProbe,
migStart, migAbort, migrationChunk, rankReenable, rankPrepareEnd. (R401, R402, R404, R408, R411, R412, R415, R417,
R432, R531) -/
def Obligations.HbmControllers : Prop :=
  (∀ d e b s, hasDie s.part d = true → (stack s d).postponed.find? (fun b => 8 ≤ b.2) = some b →
    exec (.hbmAccess d e) s = .next (cntInc 0x0B81 d 5 (modStack d (fun k => { k with postponed := mset 0 k.postponed b.1 (b.2 - 1) }) s)))
  ∧ (∀ d p q r f u s, hasDie s.part d = true → (stack s d).postponed.find? (fun b => 8 ≤ b.2) = none → portNext d s = (some p, u) →
    mget [] (stack u d).ports p = q :: r → reqRankAt u d q = some f →
    ∃ t, exec (.hbmAccess d .clean) s = .next t ∧ mget [] (stack t d).ports p = r)
  ∧ (∀ d b s, hasDie s.part d = true → mget 0 (stack s d).refAt b + refreshPs (stack s d) ≤ s.now → (stack s d).panic = false →
    exec (.hbmRefresh d b) s = .next (cntAdd 0x0B81 d 5 (mget 0 (stack s d).postponed b + 1)
      (modStack d (fun k => { k with postponed := mset 0 k.postponed b 0 }) (modStack d (fun k => { k with refAt := mset 0 k.refAt b s.now }) s))))
  ∧ (∀ d b s, hasDie s.part d = true → mget 0 (stack s d).refAt b + refreshPs (stack s d) ≤ s.now → (stack s d).panic = true → mget 0 (stack s d).postponed b < 8 →
    exec (.hbmRefresh d b) s = .next (cntInc 0x0B81 d 6
      (modStack d (fun k => { k with postponed := mset 0 k.postponed b (mget 0 (stack s d).postponed b + 1) }) (modStack d (fun k => { k with refAt := mset 0 k.refAt b s.now }) s))))
  ∧ (∀ d b s, s.now < mget 0 (stack s d).refAt b + (if (stack s d).refresh2x then 1950000 else 3900000) → exec (.hbmRefresh d b) s = .next s)
  ∧ (∀ d x s, s.now < (stack s d).tempAt + 10 ^ 9 → exec (.hbmTempRead d x) s = .next s)
  ∧ (∀ d k e s, s.now < mget 0 (stack s d).scrubAt k + cfg1 s (.hbmScrubCfg d) 7 0 * (3600 * 10 ^ 12) / rankBlocks → exec (.patrolScrub d k e) s = .next s)
  ∧ (∀ d k e s, s.now < mget 0 (stack s d).probeAt k + 10 ^ 12 → exec (.rankProbe d k e) s = .next s)
  ∧ (∀ d x s, hasDie s.part d = true → (stack s d).tempAt + 10 ^ 9 ≤ s.now → ∃ t, exec (.hbmTempRead d x) s = .next t ∧ (stack t d).temp = x % 256
      ∧ (stack t d).hot = decide (cfg s (.hbmTempCfg d) 7 0 < x % 256) ∧ (85 < x % 256 → (stack t d).refresh2x = true))
  ∧ (∀ d k s, hasDie s.part d = true → k < 3 → holdAdopted s = true → (stack s d).panic = false → rankSt s (3 * d + k) ∈ [0, 1, 2, 6] →
    mget 0 (stack s d).scrubAt k + patrolPs s d ≤ s.now →
    ∃ t, exec (.patrolScrub d k .clean) s = .next t ∧ mget 0 (stack t d).scrub k = (mget 0 (stack s d).scrub k + 1) % rankBlocks)
  ∧ (∀ d k s, hasDie s.part d = true → k < 3 → rankSt s (3 * d + k) ≠ 4 → rankSt s (3 * d + k) ≠ 7 → mget 0 (stack s d).probeAt k + 10 ^ 12 ≤ s.now →
    ∃ t, exec (.rankProbe d k .clean) s = .next t ∧ mget 0 (stack t d).probe k = (mget 0 (stack s d).probe k + 1) % rankBlocks)
  ∧ (∀ path d v f sp s, writable s path (.hbmMigCtrl d) → v &&& 3 ≠ 3 → s.hbm.mig = none → rankOf s (3 * d + (v &&& 3).toNat) = some f → rankSt s f = 0 →
    ((upTo 12).find? fun f => decide (rankSt s f = 6) && (heldBy s f).isSome) = none → spareRank s = some sp →
    ∃ t g, exec (.migStart path d v) s = .next t ∧ t.hbm.mig = some g ∧ g.m = 3 * d + (v &&& 3).toNat ∧ g.f = f ∧ g.s = sp ∧ g.n = 0)
  ∧ (∀ path d v g s, writable s path (.hbmMigCtrl d) → s.hbm.mig = some g → g.m / 3 = d → g.failure = false →
    ∃ t, exec (.migAbort path d v) s = .next t ∧ t.hbm.mig = some { g with abort := true })
  ∧ (∀ g s, s.hbm.mig = some g → holdAdopted s = true → g.at_ + chunkPs s g ≤ s.now → g.n < 127 → (g.abort && !g.failure) = false →
    ∃ t, exec (.migrationChunk [] false) s = .next t ∧ t.hbm.mig = some { g with n := g.n + 1, at_ := s.now })
  ∧ (∀ path d v k s, writable s path (.hbmRankCtrl d) → k < 3 → v.getLsbD k = true → rankSt s (3 * d + k) = 4 →
    ∃ t, exec (.rankReenable path d v) s = .next t ∧ rankSt t (3 * d + k) = 5)
  ∧ (∀ d k s, hasDie s.part d = true → k < 3 → rankSt s (3 * d + k) = 5 → s.hbm.mig.isSome = true →
    ∃ t, exec (.rankPrepareEnd d k true) s = .next t ∧ rankSt t (3 * d + k) = 1)
  ∧ (∀ d k s, hasDie s.part d = true → k < 3 → rankSt s (3 * d + k) = 5 →
    ∃ t, exec (.rankPrepareEnd d k false) s = .next t ∧ rankSt t (3 * d + k) = 4)

/-- SRAM_SCRUB of a clean word moves the scrub on; a corrected word that holds no check value is also counted; an
uncorrectable word of a check value makes the check value stale, and that of a payload cell that is free counts and
raises CHK_SRAM_UE only. CLOCK_LOSS of another domain than TIME is counted, raises CHK_CLOCK_LOST and faults the power
domains the clock drives. FEED_START by the engine's owner with a polynomial other than 3 sets the register to the
polynomial's Init and the count to zero. CHK_FEED_B, _H and _W by the owner feed 1, 2 and 4 bytes, least significant
first, and count them; a CHK_FEED_B by a party that does not own the engine is counted and ignored. CHK_FEED_RES_READ
returns a half of the result. Each of these rows completes on the conditions of its clause, exec answering the next
state with that effect: sramScrub, clockLoss, feedStart, chkFeedB, chkFeedH, chkFeedW, chkFeedResRead. (R431, R433,
R442, R443) -/
def Obligations.ScrubClocksAndFeeds : Prop :=
  (∀ d k a s, sramRead s d k a = false → exec (.sramScrub d k a .clean) s = .next s)
  ∧ (∀ d k a s, hasDie s.part d = true → sramRead s d k a = true → exec (.sramScrub d k a .clean) s = .next (scrubOn d a s))
  ∧ (∀ d k a s, hasDie s.part d = true → sramRead s d k a = true → k ≠ .checkValue → exec (.sramScrub d k a .corrected) s = .next (cntInc 0x0C81 0 0 (scrubOn d a s)))
  ∧ (∀ d a s, hasDie s.part d = true → ∃ t, exec (.sramScrub d .checkValue a .uncorrectable) s = .next t ∧ (cmpOf t d (a % 1024)).stale = true)
  ∧ (∀ d a s, hasDie s.part d = true → s.buf.cells.lookup (2 ^ 19 * d + a) = none →
    exec (.sramScrub d .cellPayload a .uncorrectable) s = .next (raise 0x04A evChkSramUe d 0 a 0 (cntInc 0x0C81 0 1 (scrubOn d a s))))
  ∧ (∀ d c s, hasDie s.part d = true → c ≠ .time → exec (.clockLoss d c) s
      = .next (each (clockDomains d c) (fun n => domainFault n 2) (raise 0x04C evChkClockLost d (clockNo c) 0 0 (cntInc 0x0C81 0 7 s))))
  ∧ (∀ path e v p s, writable s path (.chkFeedCfg e) → feedOwned (plainWrite path (.chkFeedCfg e) (v ||| 0x80000000) s) e = true →
    cfg (plainWrite path (.chkFeedCfg e) (v ||| 0x80000000) s) (.chkFeedCfg e) 1 0 = p → p ≠ 3 →
    cfgBit (plainWrite path (.chkFeedCfg e) (v ||| 0x80000000) s) (.chkFeedCfg e) 2 = false →
    ∃ t, exec (.feedStart path e v) s = .next t ∧ feed t e = ⟨crcInit p, p, 0⟩)
  ∧ (∀ path e v s, writable s path (.chkFeedB e) → feedOwned s e = true → ∃ t, exec (.chkFeedB path e v) s = .next t
      ∧ feed t e = ⟨crcFeed (feed s e).poly (feed s e).crc (leBytes 1 v.toNat), (feed s e).poly, Nat.min (2 ^ 32 - 1) ((feed s e).count + 1)⟩)
  ∧ (∀ path e v s, writable s path (.chkFeedH e) → feedOwned s e = true → ∃ t, exec (.chkFeedH path e v) s = .next t
      ∧ feed t e = ⟨crcFeed (feed s e).poly (feed s e).crc (leBytes 2 v.toNat), (feed s e).poly, Nat.min (2 ^ 32 - 1) ((feed s e).count + 2)⟩)
  ∧ (∀ path e v s, writable s path (.chkFeedW e) → feedOwned s e = true → ∃ t, exec (.chkFeedW path e v) s = .next t
      ∧ feed t e = ⟨crcFeed (feed s e).poly (feed s e).crc (leBytes 4 v.toNat), (feed s e).poly, Nat.min (2 ^ 32 - 1) ((feed s e).count + 4)⟩)
  ∧ (∀ path e v s, writable s path (.chkFeedB e) → feedOwned s e = false → exec (.chkFeedB path e v) s = .next (cntInc 0x0C81 0 12 s))
  ∧ (∀ path e h s, readable s path (.chkFeedRes e h) → exec (.chkFeedResRead path e h) s
      = .next { s with readData := BitVec.ofNat 32 (halfWord (crcFinal (feed s e).poly (feed s e).crc) h) })

/-- STRING_RELEASE for cause 1, 3 or 4, and CUS_WATCHDOG_EXPIRY after the watchdog time, free the string and send its
holder to its self-test; a release other than a handover does nothing while no custodian holds the string.
SELF_TEST_END makes the custodian COLD or FAILED. STRING_TAKE of a free string by a custodian whose turn it is makes
it the holder under a provisional generation, not yet adopted; of a held string it changes nothing. ADOPTION makes the
provisional generation the string's. CHECKPOINT under an adopted hold writes the next checkpoint and kicks the
watchdog. An actuator write of another custodian than the holder, or before adoption, is counted and refused; the
adopted holder's is kept. STRING_COPY_DISAGREE bars every take. PRELOAD makes a COLD standby LOADING; PRELOAD_END
discards an image that fails and makes a good one's custodian READY; HANDOVER to a custodian that can take checkpoints
once more and frees the string, without an adopted hold it is counted. SELF_TEST_RETRY re-runs a FAILED self-test.
Each of these rows completes on the conditions of its clause, exec answering the next state with that effect:
cusWatchdogExpiry, stringRelease, selfTestEnd, stringTake, adoption, checkpoint, custodianActuatorWrite,
stringCopyDisagree, preload, preloadEnd, handover, selfTestRetry. (R446, R447, R448, R449, R450, R452, R456) -/
def Obligations.CustodiansAndTheString : Prop :=
  (∀ c s, s.cus.holder ≠ 0 → c = 1 ∨ c = 3 ∨ c = 4 → ∃ t, exec (.stringRelease c) s = .next t ∧ t.cus.holder = 0 ∧ t.cus.adopted = false
      ∧ cusState t s.cus.holder = csSelf ∧ t.cus.releasedAt = s.now)
  ∧ (∀ c s, s.cus.holder = 0 → c ≠ 5 → exec (.stringRelease c) s = .next s)
  ∧ (∀ s, s.cus.holder ≠ 0 → s.cus.kick + cfg1 s .cusCfg 7 0 * 10 ^ 9 ≤ s.now → ∃ t, exec .cusWatchdogExpiry s = .next t ∧ t.cus.holder = 0 ∧ t.cus.adopted = false
      ∧ cusState t s.cus.holder = csSelf)
  ∧ (∀ s, s.now < s.cus.kick + cfg1 s .cusCfg 7 0 * 10 ^ 9 → exec .cusWatchdogExpiry s = .next s)
  ∧ (∀ b p s, cusState s (cusNo b) = csSelf → ∃ t, exec (.selfTestEnd b p) s = .next t ∧ cusState t (cusNo b) = (if p then csCold else csFailed))
  ∧ (∀ b s, s.cus.holder = 0 → s.cus.fault = false → s.lcs.zeroising = false → canTake s (cusNo b) = true → takesFirst s (cusNo b) = true → imageRuns s (cusNo b) = true →
    ∃ t, exec (.stringTake b) s = .next t ∧ t.cus.holder = cusNo b ∧ t.cus.adopted = false ∧ t.cus.prov = (s.cus.gen + 1) % 2 ^ 32
      ∧ t.cus.gen = s.cus.gen ∧ cusState t (cusNo b) = csTaking)
  ∧ (∀ b s, s.cus.holder ≠ 0 → exec (.stringTake b) s = .next s)
  ∧ (∀ s, s.cus.holder ≠ 0 → s.cus.adopted = false → ∃ t, exec .adoption s = .next t ∧ t.cus.adopted = true ∧ t.cus.gen = s.cus.prov ∧ t.cus.holder = s.cus.holder)
  ∧ (∀ s, holdAdopted s = true → ∃ t, exec .checkpoint s = .next t ∧ t.cus.seq = s.cus.seq + 1 ∧ t.cus.ckptAt = some s.now ∧ t.cus.kick = s.now
      ∧ ∃ c, mget none t.cus.ckpts (s.cus.slot % 2) = some c ∧ c.gen = s.cus.gen ∧ c.seq = s.cus.seq + 1 ∧ c.body = positions s)
  ∧ (∀ b a v s, s.cus.holder ≠ cusNo b → exec (.custodianActuatorWrite b a v) s = .next (cntInc 0x0C82 0 10 s))
  ∧ (∀ b a v s, s.cus.holder = cusNo b → s.cus.adopted = false → exec (.custodianActuatorWrite b a v) s = .next (cntInc 0x0C82 0 11 s))
  ∧ (∀ b a v s, s.cus.holder = cusNo b → s.cus.adopted = true → exec (.custodianActuatorWrite b a v) s
      = .next { s with cus := { s.cus with actuators := mset 0 s.cus.actuators (actuatorNo a) v, kick := s.now } })
  ∧ (∀ s, s.cus.fault = false → ∃ t, exec .stringCopyDisagree s = .next t ∧ t.cus = { s.cus with fault := true } ∧ ∀ b, exec (.stringTake b) t = .next t)
  ∧ (∀ path s, writable s path .cusCtrl → s.cus.holder = 1 ∨ s.cus.holder = 2 → cusState s (standby s) = csCold →
    ∃ t, exec (.preload path) s = .next t ∧ cusState t (standby s) = csLoading ∧ t.cus.preload = 1)
  ∧ (∀ a r w s, ([1, 2].find? fun w => decide (cusState s w = csLoading)) = some w → preloadCause a r s ≠ 0 →
    ∃ t, exec (.preloadEnd a r) s = .next t ∧ cusState t w = csCold ∧ t.cus.preload = 3 ∧ t.cus.cause = preloadCause a r s ∧ t.cus.image = [])
  ∧ (∀ a r w s, ([1, 2].find? fun w => decide (cusState s w = csLoading)) = some w → preloadCause a r s = 0 →
    ∃ t, exec (.preloadEnd a r) s = .next t ∧ cusState t w = csReady ∧ t.cus.preload = 2)
  ∧ (∀ path s, writable s path .cusCtrl → holdAdopted s = true → canTake s (standby s) = true →
    ∃ t, exec (.handover path) s = .next t ∧ t.cus.holder = 0 ∧ t.cus.seq = s.cus.seq + 1)
  ∧ (∀ path s, writable s path .cusCtrl → holdAdopted s = false → exec (.handover path) s = .next (cntInc 0x0C82 0 14 s))
  ∧ (∀ path b s, writable s path .cusCtrl → cusState s (cusNo b) = csFailed → ∃ t, exec (.selfTestRetry path b) s = .next t ∧ cusState t (cusNo b) = csSelf)

/-- LOG_PERSIST under an adopted hold writes the oldest staged record, once due, to the flash and takes it out of staging;
a failed program marks the sector bad. STAT_SAMPLE adds a value to a present source's entry, 1 s or 1 min after the
last for a source sampled so often; a source of an absent unit is never sampled. STAT_SNAPSHOT at its period adds a
snapshot and restarts the interval. A write of LOG_CURSOR_LO starts a load with the written serial; LOG_WINDOW_READY
completes it and shows the record found; a read of LOG_WIN_7 returns its word, and with auto set advances the cursor.
A write of LOG_STAT_SEL shows the source's entry. A write of freeze sets it; a write of clear is refused without
authorisation and consumes it otherwise. LOG_CLEAR_ERASE_END ends the clear and counts its sectors. Each of these rows
completes on the conditions of its clause, exec answering the next state with that effect: logPersist, statSample,
statSnapshot, logCursorLoad, logWindowReady, logWin7Read, logStatSel, logFreeze, logCtrlClear, logClearEraseEnd.
(R464, R468, R469, R470, R471, R472, R473, R474) -/
def Obligations.LogbookRows : Prop :=
  (∀ r l s, s.log.staged = r :: l → holdAdopted s = true → s.log.flashOk = true → persistDue s r = true → s.flash.events.length < eventRoom s →
    exec (.logPersist true) s = .next (guardCheck (logLostRec (persistRec r s))) ∧ exec (.logPersist false) s = .next (sectorBad s)
    ∧ (persistRec r s).log.staged = l ∧ (persistRec r s).flash.events = s.flash.events ++ [r])
  ∧ (∀ ok r l s, s.log.staged = r :: l → persistDue s r = false → exec (.logPersist ok) s = .next s)
  ∧ (∀ src v s, s.now < mget 0 s.log.sampleAt src + samplePs src → exec (.statSample src v) s = .next s)
  ∧ (∀ src v s, statPresent s.part src = true → mget 0 s.log.sampleAt src + samplePs src ≤ s.now → ∃ t, exec (.statSample src v) s = .next t
      ∧ (mget {} t.log.stats src).count = (mget {} s.log.stats src).count + 1 ∧ (mget {} t.log.stats src).isum = (mget {} s.log.stats src).isum + v
      ∧ mget 0 (mget {} t.log.stats src).buckets (statBucket src v) = satInc (2 ^ 32 - 1) (mget 0 (mget {} s.log.stats src).buckets (statBucket src v)))
  ∧ (∀ src v s, statPresent s.part src = false → exec (.statSample src v) s = .next s)
  ∧ (∀ s, holdAdopted s = true → s.log.flashOk = true → s.log.snapAt + statPeriod s ≤ s.now → s.flash.snaps.length < snapSlots s.part →
    ∃ t n, exec .statSnapshot s = .next t ∧ t.flash.snaps = s.flash.snaps ++ [n] ∧ n.entries = s.log.stats ∧ t.log.snapAt = s.now
      ∧ t.log.stats = allStats restartInterval s.log.stats)
  ∧ (∀ path v s, writable s path (.logCursor false) → ∃ t, exec (.logCursorLoad path v) s = .next t
      ∧ t.log.cursor = ((stored s (.logCursor true)).toNat % 65536 * 2 ^ 32 + v.toNat) % 2 ^ 48 ∧ t.log.loading = true ∧ t.log.ready = false)
  ∧ (∀ r s, s.log.loading = true → s.flash.oldest ≤ s.log.cursor → s.log.cursor < s.log.next →
    ((s.log.staged ++ s.flash.events).find? fun r => decide (r.serial = s.log.cursor) && decide (r.valid = 0x5A)) = some r →
    exec .logWindowReady s = .next { s with log := { s.log with loading := false, ready := true, outside := false, torn := false, win := logRecImage r } })
  ∧ (∀ s, s.log.loading = true → s.log.cursor < s.flash.oldest ∨ s.log.next ≤ s.log.cursor →
    exec .logWindowReady s = .next { s with log := { s.log with loading := false, ready := true, outside := true, torn := false, win := 0 } })
  ∧ (∀ path s, readable s path (.logWin 7) → ∃ t, exec (.logWin7Read path) s = .next t ∧ t.readData = BitVec.ofNat 32 (fld s.log.win 255 224)
      ∧ (cfgBit s .logCtrl 1 = false → t.log = s.log) ∧ (cfgBit s .logCtrl 1 = true → t.log = { s.log with cursor := (s.log.cursor + 1) % 2 ^ 48, loading := true, ready := false }))
  ∧ (∀ path v s, writable s path .logStatSel → ∃ t, exec (.logStatSel path v) s = .next t
      ∧ t.log = { s.log with statWin := statImage (v.toNat % 256) (mget {} s.log.stats (v.toNat % 256)) })
  ∧ (∀ path s, writable s path .logCtrl → exec (.logFreeze path) s
      = .next (setFreeze true (putReg .logCtrl (((stored s .logCtrl &&& 2) ||| 1) &&& 2) s)))
  ∧ (∀ path s, writable s path .logCtrl → s.lcs.logClear = false → ∃ u, exec (.logCtrlClear path) s
      = .next (raise 0x050 evLogClearRefused 0 0 0 0 (cntInc 0x0D81 0 6 u)) ∧ u.lcs = s.lcs)
  ∧ (∀ path s, writable s path .logCtrl → s.lcs.logClear = true → ∃ t, exec (.logCtrlClear path) s = .next t ∧ t.lcs = { s.lcs with logClear := false })
  ∧ (∀ s, s.log.clearing = true → exec .logClearEraseEnd s = .next (cntAdd 0x0D81 0 4 s.log.clearAt { s with log := { s.log with clearing := false, clearAt := 0 } }))

/-- Each token row, written while the block is not busy and with the token's code in the buffer, hands the buffered token
and key to the block, sets busy and clears both buffers; with another code in the buffer it does nothing; while busy
it is counted as ignored. TOKEN_RESULT ends busy and keeps the result: 1 accepted, 9 a programming failure, else the
refusal; an accepted TEST_DONE, SERVICE or RETURN enters its state (RETURN with zeroisation begun), and a refused
token leaves the state. ZEROISATION_END leaves HBM, table memory and packets empty, spoils the owner key slots and
ends the zeroisation. JTAG_INSTRUCTION takes the instruction while its path is open, else BYPASS. Each of these rows
completes on the conditions of its clause, exec answering the next state with that effect: testDone, seal_, service,
logClear, keyRotate, return_, vendorDebug, tokenResult, zeroisationEnd, jtagInstruction. (R480, R482, R483, R484,
R487, R490, R496) -/
def Obligations.LifeCycleTokens : Prop :=
  (∀ path c k s, (c, k) ∈ [(Instr.testDone path, 1), (.seal_ path, 2), (.service path, 3), (.logClear path, 4), (.keyRotate path, 5), (.return_ path, 6), (.vendorDebug path, 7)] →
    writable s path .lcsTokenCtrl → ofLe (takeBytes (tokenBuf s) 0 1) = k → s.lcs.busy = false →
    ∃ t, exec c s = .next t ∧ t.lcs = { s.lcs with busy := true, token := tokenBuf s, key := keyBuf s }
      ∧ (∀ i, i < 64 → stored t (.lcsTokenBuf i) = 0) ∧ (∀ i, i < 24 → stored t (.lcsKeyBuf i) = 0))
  ∧ (∀ path c k s, (c, k) ∈ [(Instr.testDone path, 1), (.seal_ path, 2), (.service path, 3), (.logClear path, 4), (.keyRotate path, 5), (.return_ path, 6), (.vendorDebug path, 7)] →
    writable s path .lcsTokenCtrl → ofLe (takeBytes (tokenBuf s) 0 1) ≠ k → exec c s = .next s)
  ∧ (∀ path c k s, (c, k) ∈ [(Instr.testDone path, 1), (.seal_ path, 2), (.service path, 3), (.logClear path, 4), (.keyRotate path, 5), (.return_ path, 6), (.vendorDebug path, 7)] →
    writable s path .lcsTokenCtrl → ofLe (takeBytes (tokenBuf s) 0 1) = k → s.lcs.busy = true →
    ∃ t, exec c s = .next t ∧ t.lcs = { s.lcs with goIgnored := s.lcs.goIgnored + 1 })
  ∧ (∀ ok s, s.lcs.busy = true → ∃ t, exec (.tokenResult ok) s = .next t ∧ t.lcs.busy = false
      ∧ t.lcs.result = (if tokenChecks s = 1 ∧ programs (ofLe (takeBytes s.lcs.token 0 1)) = true ∧ ok = false then 9 else tokenChecks s)
      ∧ (tokenChecks s ≠ 1 → t.lcs.state = s.lcs.state)
      ∧ (tokenChecks s = 1 → ok = true → ofLe (takeBytes s.lcs.token 0 1) = 1 → t.lcs.state = 1)
      ∧ (tokenChecks s = 1 → ok = true → ofLe (takeBytes s.lcs.token 0 1) = 3 → t.lcs.state = 3)
      ∧ (tokenChecks s = 1 → ok = true → ofLe (takeBytes s.lcs.token 0 1) = 6 → t.lcs.state = 4 ∧ t.lcs.zeroising = true))
  ∧ (∀ ok s, s.lcs.busy = false → exec (.tokenResult ok) s = .next s)
  ∧ (∀ s, s.pwr.phase = .started → exec .zeroisationEnd s = .next s)
  ∧ (∀ s, s.lcs.zeroising = true → s.pwr.phase ≠ .started → ∃ t, exec .zeroisationEnd s = .next t ∧ t.lcs.zeroising = false ∧ t.mem = [] ∧ t.tmem = [] ∧ t.pkts = []
      ∧ t.lcs.state = s.lcs.state ∧ ∀ k, k < 4 → slotOf t.lcs.q0 k = ⟨⟨2 ^ 384 - 1, 2 ^ 384 - 1, 2 ^ 384 - 1⟩, ⟨3, 3, 3⟩, true⟩)
  ∧ (∀ op s, exec (.jtagInstruction op) s = .next { s with lcs := { s.lcs with jtag := if jtagOpen s op then op else .bypass } })

/-- SUPPLY_OUT_OF_RATINGS of a rail not yet out keeps the rail, of one already out changes nothing, and
RAIL_WITHIN_TOLERANCE takes it off again. DIE_TEMP_READING of a present die keeps the reading, and a reading above the
alert temperature turns the alert on. SMBUS_SET_OFFSET sets the offset, while the device answers; an SMBUS_WRITE or
SMBUS_READ with a correct PEC acts at the offset, which then advances by 4 modulo 2^32, and one whose PEC fails has no
effect; while the device is in reset no transaction has an effect. Reading PWR_STATUS through the service port clears
its fatal alert. Each of these rows completes on the conditions of its clause, exec answering the next state with that
effect: supplyOutOfRatings, dieTempReading, smbusSetOffset, smbusWrite, smbusRead, railWithinTolerance. (R430, R522,
R528, R531) -/
def Obligations.SuppliesHeatAndServicePort : Prop :=
  (∀ r s, s.chk.badRails.contains r = false → ∃ t, exec (.supplyOutOfRatings r) s = .next t ∧ t.chk.badRails = s.chk.badRails ++ [r])
  ∧ (∀ r s, s.chk.badRails.contains r = true → exec (.supplyOutOfRatings r) s = .next s)
  ∧ (∀ r s, ∃ t, exec (.railWithinTolerance r) s = .next t ∧ t.chk.badRails = s.chk.badRails.filter (· ≠ r))
  ∧ (∀ d x s, hasDie s.part d = true → ∃ t, exec (.dieTempReading d x) s = .next t ∧ mget 0 t.pwr.temps d = x ∧ ((alertC s : Int) < x → t.pwr.alert = true))
  ∧ (∀ o s, answering s = true → exec (.smbusSetOffset o) s = .next { s with smb := { s.smb with offset := o % 2 ^ 32 } })
  ∧ (∀ v s, answering s = true → exec (.smbusWrite v true) s = .next (smbNext (addrWrite .smbus s.smb.offset v s)))
  ∧ (∀ v s, exec (.smbusWrite v false) s = .next s)
  ∧ (∀ r s, answering s = true → regAt s.smb.offset = some r → r ≠ .pwrStatus → exec (.smbusRead true) s = .next (smbNext (regReadOn .smbus r s)))
  ∧ (∀ s, answering s = true → regAt s.smb.offset = some .pwrStatus → ∃ t, exec (.smbusRead true) s = .next t ∧ t.smb.fatal = false)
  ∧ (∀ s, answering s = true → regAt s.smb.offset = none → exec (.smbusRead true) s
      = .next { s with readData := 0, smb := { s.smb with offset := (s.smb.offset + 4) % 2 ^ 32 } })
  ∧ (∀ s, exec (.smbusRead false) s = .next s)
  ∧ (∀ o v p s, answering s = false → exec (.smbusSetOffset o) s = .next s ∧ exec (.smbusWrite v p) s = .next s ∧ exec (.smbusRead p) s = .next s)

/-- A core that does not run retires nothing. With no dispatch on the way to it, no work interrupt pending and not waiting
in wfi, a core retires the instruction at its pc: an integer register-immediate one writes rd (x0 stays 0), steps the
pc by 4 and counts it in minstret unless mcountinhibit stops it; a taken branch goes to its target; an unknown major
opcode traps with mcause 2, mepc the pc and pc the base of mtvec. A pending enabled work interrupt is taken: mcause
2^63 + 16 and the pending bit clear. wk.get blocks a core without a task; wk.new makes a FIRMWARE task from its
argument block in a free slot, with the delay asked; its handle goes to rd. wk.cancel of a WAITING task without packet
or ticket gives 0 and frees the slot. wk.rel of a task whose ordered completion is not at the head of its lock entry
leaves it RELEASED with the completion word; a packetless one frees its slot. wk.hand sends the task on, in its new
lock entry and class. wk.flow sends the request block with the task to its owner and blocks the core. wk.evt raises a
firmware event with code OR 0x8000. WK_FLOW_REPLY gives rd the status and lets the core go on. Each of these rows
completes on the conditions of its clause, exec answering the next state with that effect: coreInstruction, wkGet,
wkRel, wkHand, wkNew, wkCancel, wkFlow, wkEvt, wkFlowReply. (R250, R254, R255, R256, R258, R259, R267, R268, R271,
R275) -/
def Obligations.FlowCores : Prop :=
  (∀ c s, coreRuns s c = false → (coreOf s c).coming = none → exec (.coreInstruction c) s = .next s)
  ∧ (∀ c i v s, coreRuns s c = true → (coreOf s c).coming = none → bit (csrRaw s c 0x344) 16 = false → (coreOf s c).wfi = false → (coreOf s c).pc + 4 ≤ 0x80000 →
    rdN (cluster s (clusterOfCore c)).isram (coreOf s c).pc 4 = i → rdN (cluster s (clusterOfCore c)).isram (coreOf s c).pc 2 % 4 = 3 → fld i 6 0 = 0x13 →
    aluImm (fld i 14 12) (fld i 31 20) (coreReg s c (fld i 19 15)) = some v →
    ∃ t, exec (.coreInstruction c) s = .next t ∧ (∀ n, n < 32 → coreReg t c n = if n = 0 then 0 else if n = fld i 11 7 then v % 2 ^ 64 else coreReg s c n)
      ∧ (coreOf t c).pc = ((coreOf s c).pc + 4) % 2 ^ 64 ∧ (bit (csrRaw s c 0x320) 2 = false → csrRaw t c 0xB02 = (csrRaw s c 0xB02 + 1) % 2 ^ 64) ∧ (coreOf t c).task = (coreOf s c).task)
  ∧ (∀ c i s, coreRuns s c = true → (coreOf s c).coming = none → bit (csrRaw s c 0x344) 16 = false → (coreOf s c).wfi = false → (coreOf s c).pc + 4 ≤ 0x80000 →
    rdN (cluster s (clusterOfCore c)).isram (coreOf s c).pc 4 = i → rdN (cluster s (clusterOfCore c)).isram (coreOf s c).pc 2 % 4 = 3 → fld i 6 0 = 0x63 →
    branchTaken (fld i 14 12) (coreReg s c (fld i 19 15)) (coreReg s c (fld i 24 20)) = some true →
    ∃ t, exec (.coreInstruction c) s = .next t ∧ (∀ n, coreReg t c n = coreReg s c n)
      ∧ (coreOf t c).pc = ((coreOf s c).pc + sx 13 (pack [(1, 0), (4, fld i 11 8), (6, fld i 30 25), (1, fld i 7 7), (1, fld i 31 31)])) % 2 ^ 64)
  ∧ (∀ c i s, coreRuns s c = true → (coreOf s c).coming = none → bit (csrRaw s c 0x344) 16 = false → (coreOf s c).wfi = false → (coreOf s c).pc + 4 ≤ 0x80000 →
    rdN (cluster s (clusterOfCore c)).isram (coreOf s c).pc 4 = i → rdN (cluster s (clusterOfCore c)).isram (coreOf s c).pc 2 % 4 = 3 → fld i 6 0 = 0x0B → fld i 31 25 ≠ 0 →
    ∃ t, exec (.coreInstruction c) s = .next t ∧ (∀ n, coreReg t c n = coreReg s c n) ∧ csrRaw t c 0x342 = 2 ∧ csrRaw t c 0x341 = (coreOf s c).pc % 2 ^ 64
      ∧ csrRaw t c 0x343 = 0 ∧ csrRaw t c 0x300 = b2n (bit (csrRaw s c 0x300) 3) * 128 ∧ (coreOf t c).pc = csrRaw s c 0x305 - csrRaw s c 0x305 % 4)
  ∧ (∀ c s, coreRuns s c = true → (coreOf s c).coming = none → bit (csrRaw s c 0x344) 16 = true → workIrqOn s c = true →
    ∃ t, exec (.coreInstruction c) s = .next t ∧ csrRaw t c 0x342 = 2 ^ 63 + 16 ∧ csrRaw t c 0x341 = (coreOf s c).pc % 2 ^ 64 ∧ csrRaw t c 0x344 = 0
      ∧ csrRaw t c 0x300 = 128 ∧ (∀ n, coreReg t c n = coreReg s c n))
  ∧ (∀ c rd s, coreRuns s c = true → compat s (clusterOfCore c) = false → (coreOf s c).task = none →
    exec (.wkGet c rd) s = .next (modCore c (fun x => { x with getting := some (s.now, rd % 32) }) s))
  ∧ (∀ c rd rs1 b n s, coreRuns s c = true → coreRd s c (coreReg s c rs1) 64 = some b → bit (fld b 15 8) 0 = false → hasSlice s.part (sliceOfCore c) = true →
    domOn s (domSlice (sliceOfCore c)) = true → freeSlot s (sliceOfCore c) = some n →
    ∃ t, exec (.wkNew c rd rs1) s = .next t ∧ coreReg t c rd = (if rd % 32 = 0 then 0 else (sliceOfCore c * 65536 + n) % 2 ^ 64)
      ∧ (coreOf t c).pc = ((coreOf s c).pc + 4) % 2 ^ 64 ∧ (task t (sliceOfCore c) n).kind = 6 ∧ (task t (sliceOfCore c) n).cls = fld b 7 0 % 64
      ∧ (task t (sliceOfCore c) n).lock = fld b 47 32 % 16384 ∧ (task t (sliceOfCore c) n).timer = fld b 511 128 ∧ (task t (sliceOfCore c) n).state = tskWaiting
      ∧ (task t (sliceOfCore c) n).due = (if bit (fld b 15 8) 1 then s.now + Nat.max 1 (fld b 95 64 % 2 ^ 20) * 1000000 else 0))
  ∧ (∀ c rd rs1 sl n s, coreRuns s c = true → coreReg s c rs1 = sl * 65536 + n → n < 65536 → sl < 8 → hasSlice s.part sl = true → (task s sl n).state = tskWaiting →
    (task s sl n).kind = 6 → (task s sl n).ticketed = false → (task s sl n).pkt = none → (lock s sl (task s sl n).lock).holder ≠ some n → mget [] s.tsk.items sl = [] →
    ∃ t, exec (.wkCancel c rd rs1) s = .next t ∧ coreReg t c rd = 0 ∧ task t sl n = {} ∧ (coreOf t c).pc = ((coreOf s c).pc + 4) % 2 ^ 64
      ∧ cntGet t 0x0701 sl 4 = (cntGet s 0x0701 sl 4 + 1) % 2 ^ 64)
  ∧ (∀ c rs1 n s, coreRuns s c = true → (coreOf s c).task = some n → (task s (sliceOfCore c) n).kind ≠ 1 → (task s (sliceOfCore c) n).ticketed = true →
    (task s (sliceOfCore c) n).cancelled = false → bit (coreReg s c rs1) 4 = true → (coreOf s c).preempted = none →
    (lock s (sliceOfCore c) (task s (sliceOfCore c) n).lock).holder ≠ some n → (lock s (sliceOfCore c) (task s (sliceOfCore c) n).lock).emit ≠ (task s (sliceOfCore c) n).ticket →
    ∃ t, exec (.wkRel c rs1) s = .next t ∧ (task t (sliceOfCore c) n).state = tskReleased ∧ (task t (sliceOfCore c) n).word = coreReg s c rs1 ∧ (coreOf t c).task = none
      ∧ (coreOf t c).pc = ((coreOf s c).pc + 4) % 2 ^ 64)
  ∧ (∀ c rs1 n s, coreRuns s c = true → (coreOf s c).task = some n → (task s (sliceOfCore c) n).kind = 6 → (task s (sliceOfCore c) n).ticketed = false →
    (task s (sliceOfCore c) n).pkt = none → (coreOf s c).preempted = none → (lock s (sliceOfCore c) (task s (sliceOfCore c) n).lock).holder ≠ some n → mget [] s.tsk.items (sliceOfCore c) = [] →
    ∃ t, exec (.wkRel c rs1) s = .next t ∧ task t (sliceOfCore c) n = {} ∧ (coreOf t c).task = none ∧ (coreOf t c).pc = ((coreOf s c).pc + 4) % 2 ^ 64)
  ∧ (∀ c rs1 rs2 n s, coreRuns s c = true → (coreOf s c).task = some n → (task s (sliceOfCore c) n).hands < 65535 → (task s (sliceOfCore c) n).ticketed = false →
    (coreOf s c).preempted = none → (lock s (sliceOfCore c) (task s (sliceOfCore c) n).lock).holder ≠ some n → classMode s (sliceOfCore c) (coreReg s c rs2 % 64) = 0 →
    (task s (sliceOfCore c) n).present = (task s (sliceOfCore c) n).expect →
    ∃ t, exec (.wkHand c rs1 rs2) s = .next t ∧ (coreOf t c).task = none ∧ (coreOf t c).pc = ((coreOf s c).pc + 4) % 2 ^ 64
      ∧ (task t (sliceOfCore c) n).state = tskReady ∧ (task t (sliceOfCore c) n).lock = coreReg s c rs1 % 16384 ∧ (task t (sliceOfCore c) n).cls = coreReg s c rs2 % 64
      ∧ (task t (sliceOfCore c) n).hands = (task s (sliceOfCore c) n).hands + 1 ∧ (task t (sliceOfCore c) n).window = (coreOf s c).window)
  ∧ (∀ c rd n o s, coreRuns s c = true → (coreOf s c).task = some n → fld (rdN (coreOf s c).window 0x2C0 64) 7 0 ≠ 0 → fld (rdN (coreOf s c).window 0x2C0 64) 7 0 ≤ 0x0C →
    wkTarget s c (task s (sliceOfCore c) n) (rdN (coreOf s c).window 0x2C0 64) (rdN (coreOf s c).window 0x400 256) = some o →
    ∃ t, exec (.wkFlow c rd) s = .next t ∧ (coreOf t c).flowing = some (rd % 32) ∧ (coreOf t c).pc = (coreOf s c).pc ∧ cntGet t 0x0701 (sliceOfCore c) 11 = (cntGet s 0x0701 (sliceOfCore c) 11 + 1) % 2 ^ 64
      ∧ (slice t o).wk = (slice s o).wk ++ [⟨c, n, rdN (coreOf s c).window 0x2C0 64, rdN (coreOf s c).window 0x100 256, rdN (coreOf s c).window 0x400 256⟩])
  ∧ (∀ c rs1 rs2 p s, coreRuns s c = true → coreRd s c (coreReg s c rs2) 16 = some p →
    exec (.wkEvt c rs1 rs2) s = .next (raiseSev (fld (coreReg s c rs1) 17 16) (tskSrc (sliceOfCore c) (32 + c % 24)) (Nat.lor (coreReg s c rs1 % 65536) 0x8000)
      (fld p 31 0) (fld p 63 32) (fld p 95 64) (fld p 127 96) (coreNext c 4 s)))
  ∧ (∀ c op st words rd s, (coreOf s c).reply = some (op, st, words) → (coreOf s c).flowing = some rd →
    ∃ t, exec (.wkFlowReply c) s = .next t ∧ coreReg t c rd = (if rd % 32 = 0 then 0 else st % 2 ^ 64) ∧ (coreOf t c).reply = none ∧ (coreOf t c).flowing = none
      ∧ (coreOf t c).pc = ((coreOf s c).pc + 4) % 2 ^ 64)

/-- An operand that reaches a WAITING task which expects and lacks it is present from then on, and with the last one a
task that waits for no lock is READY; a timer operand comes when its delay has passed. A dispatch gives the chosen
READY task to the core served: the task runs, and a core in wk.get gets the task's handle in rd and steps past the
instruction, one in compatibility mode gets the work interrupt pending. With no core to serve it changes nothing. A
task RUNNING for run_limit_us ends: TSK_CORE_STUCK is raised, the task faults, and its core is put back at its image's
entry point with its registers and scratch zero; before that nothing happens. An ATOMIC hold past hold_limit_us raises
TSK_HOLD_LONG once. A pre-emption first dispatches the new task and leaves its work interrupt pending; its trap leaves
the old task PREEMPTED with its window saved, the new one on the core, and the core in its handler with mcause 2^63 +
16. Each of these rows completes on the conditions of its clause, exec answering the next state with that effect:
timerOperand, operandArrival, taskDispatch, runLimitExpiry, holdLimitExpiry, preemption. (R253, R260, R262, R263,
R266, R272, R273, R275, R276, R277) -/
def Obligations.TaskEvents : Prop :=
  (∀ sl n k s, (task s sl n).state = tskWaiting → k < 4 → bit (task s sl n).expect k = true → bit (task s sl n).present k = false → (k ≠ 3 ∨ (task s sl n).due = 0) →
    ∃ t, exec (.operandArrival sl n k) s = .next t ∧ (task t sl n).present = (task s sl n).present + 2 ^ k
      ∧ ((task s sl n).present + 2 ^ k = (task s sl n).expect → (task s sl n).mode ≠ 2 ∨ (task s sl n).granted = true → (task t sl n).state = tskReady)
      ∧ ((task s sl n).present + 2 ^ k ≠ (task s sl n).expect → (task t sl n).state = tskWaiting))
  ∧ (∀ sl n s, (task s sl n).state = tskWaiting → (task s sl n).due ≠ 0 → (task s sl n).due ≤ s.now → bit (task s sl n).expect 3 = true → bit (task s sl n).present 3 = false →
    ∃ t, exec (.timerOperand sl n) s = .next t ∧ (task t sl n).present = (task s sl n).present + 8
      ∧ ((task s sl n).present + 8 = (task s sl n).expect → (task s sl n).mode ≠ 2 ∨ (task s sl n).granted = true → (task t sl n).state = tskReady))
  ∧ (∀ sl n s, s.now < (task s sl n).due → exec (.timerOperand sl n) s = .next s)
  ∧ (∀ sl s, coreServed s sl = none → exec (.taskDispatch sl) s = .next s)
  ∧ (∀ sl c n x since rd s, coreServed s sl = some c → nextTask s (clusterOfCore c) = some (n, x) → sliceOfCore c = sl → (coreOf s c).getting = some (since, rd) →
    ∃ t, exec (.taskDispatch sl) s = .next t ∧ (task t sl n).state = tskRunning ∧ (task t sl n).runAt = s.now ∧ (coreOf t c).task = some n ∧ (coreOf t c).getting = none
      ∧ coreReg t c rd = (if rd % 32 = 0 then 0 else (sl * 65536 + n) % 2 ^ 64) ∧ (coreOf t c).pc = ((coreOf s c).pc + 4) % 2 ^ 64)
  ∧ (∀ sl c n x s, coreServed s sl = some c → nextTask s (clusterOfCore c) = some (n, x) → sliceOfCore c = sl → (coreOf s c).getting = none →
    ∃ t, exec (.taskDispatch sl) s = .next t ∧ (task t sl n).state = tskRunning ∧ (coreOf t c).task = some n ∧ (coreOf t c).avail = false ∧ (coreOf t c).wfi = false
      ∧ (csrRaw s c 0x344 < 2 ^ 16 → csrRaw t c 0x344 = csrRaw s c 0x344 + 65536) ∧ (coreOf t c).pc = (coreOf s c).pc)
  ∧ (∀ c n s, (coreOf s c).task = some n → (task s (sliceOfCore c) n).state = tskRunning → cfg1 s (.tskLimitCfg (sliceOfCore c)) 31 16 * 1000000 ≤ ranFor s (task s (sliceOfCore c) n) →
    ∃ t, exec (.runLimitExpiry c) s = .next t ∧ (coreOf t c).x = [] ∧ (coreOf t c).csr = [] ∧ (coreOf t c).scratch = [] ∧ (coreOf t c).getting = none ∧ (coreOf t c).flowing = none
      ∧ (coreOf t c).pc = (cluster t (clusterOfCore c)).entry
      ∧ t = withdrawDispatch c (resetCore c (faultOnCore c n (raise (tskSrc (sliceOfCore c) 0) evTskCoreStuck c n (task s (sliceOfCore c) n).cls 0 s))))
  ∧ (∀ c n s, (coreOf s c).task = some n → ranFor s (task s (sliceOfCore c) n) < cfg1 s (.tskLimitCfg (sliceOfCore c)) 31 16 * 1000000 → exec (.runLimitExpiry c) s = .next s)
  ∧ (∀ sl l s, (lock s sl l).holder.isSome = true → (lock s sl l).told = false → cfg1 s (.tskLimitCfg sl) 15 0 * 1000000 < s.now - (lock s sl l).since →
    exec (.holdLimitExpiry sl l) s = .next (raise (tskSrc sl 1) evTskHoldLong 0 0 0 0 (modLock sl l (fun x => { x with told := true }) s)))
  ∧ (∀ sl l s, (lock s sl l).told = true → exec (.holdLimitExpiry sl l) s = .next s)
  ∧ (∀ c n x s, (coreOf s c).coming = none → hasCore s.part c = true → compat s (clusterOfCore c) = true → cfgBit s (.tskClusterMode (clusterOfCore c)) 1 = true →
    clusterOn s (clusterOfCore c) = true → ((upTo 8).any fun i => (coreAsks s (8 * clusterOfCore c + i)).isSome) = false → nextTask s (clusterOfCore c) = some (n, x) →
    preemptCore s (clusterOfCore c) (classPrio s (sliceOfCore c) x.cls) = some c →
    ∃ t, exec (.preemption c) s = .next t ∧ (task t (sliceOfCore c) n).state = tskRunning ∧ (coreOf t c).coming = some n ∧ (coreOf t c).avail = false
      ∧ csrRaw t c 0x344 = 65536 ∧ (coreOf t c).task = (coreOf s c).task ∧ (coreOf t c).pc = (coreOf s c).pc)
  ∧ (∀ c n old s, (coreOf s c).coming = some n → workIrqOn s c = true → (coreOf s c).flowing = none → (coreOf s c).task = some old → n ≠ old →
    ∃ t, exec (.preemption c) s = .next t ∧ (task t (sliceOfCore c) old).state = tskPreempted ∧ (task t (sliceOfCore c) n).state = (task s (sliceOfCore c) n).state
      ∧ (coreOf t c).task = some n ∧ (coreOf t c).coming = none ∧ (coreOf t c).preempted = some old ∧ (coreOf t c).savedWindow = (coreOf s c).window
      ∧ csrRaw t c 0x342 = 2 ^ 63 + 16 ∧ csrRaw t c 0x341 = (coreOf s c).pc % 2 ^ 64 ∧ csrRaw t c 0x344 = 0)

/-- A working owner takes its next request: one whose key is not hot is kept as a fetch and counted; one on a record's
line is answered with the record. A fetch that finds no record of a profile in OFF or LOOKUP_ONLY is answered code 0.
A report reaches the placeholder whose trigger it names while a record is being made for it, and is dropped when no
placeholder stands. A placeholder past its create time-out, with no task and no trigger, raises FLOW_CREATE_TIMEOUT
and is gone; before that it stays. The oldest write accepted by HBM leaves its queue and its invalidation goes to
every pipeline. An acknowledgement that leaves some pipelines to answer is struck off the list of its command. A clean
evicting line whose writeback is done goes. A pass whose record's backend is ACTIVE again is answered with the record.
An owner that is down takes nothing. Each of these rows completes on the conditions of its clause, exec answering the
next state with that effect: flowRequest, flowFetchDone, frameCheckReport, hbmWriteAccepted, createTmoExpiry,
backendRequest, hotLineWritebackDone, invalidationAck. (R182, R183, R185, R187, R188, R192, R203, R214) -/
def Obligations.FlowRequests : Prop :=
  (∀ sl s, sliceOn s sl = false → exec (.flowRequest sl) s = .next s ∧ exec (.flowFetchDone sl) s = .next s ∧ exec (.frameCheckReport sl) s = .next s ∧ exec (.backendRequest sl) s = .next s)
  ∧ (∀ sl q rest s, sliceOn s sl = true → takeFirst (fun q => !halfLeaving s (reqHalf s q)) (slice s sl).reqs = some (q, rest) → hotKey s sl q.key q.prof = none →
    ∃ t, exec (.flowRequest sl) s = .next t ∧ (slice t sl).reqs = rest ∧ (slice t sl).fetches = (slice s sl).fetches ++ [q] ∧ (slice t sl).hot = (slice s sl).hot
      ∧ cntGet t 0x0581 sl 0 = (cntGet s 0x0581 sl 0 + 1) % 2 ^ 64 ∧ t.mem = s.mem)
  ∧ (∀ sl q rest l s, sliceOn s sl = true → takeFirst (fun q => !halfLeaving s (reqHalf s q)) (slice s sl).reqs = some (q, rest) → hotKey s sl q.key q.prof = some l →
    l.life ≠ lifeNew → writePending s sl l.record = false → recLive s l.record = true → recKey s l.record = takeBytes q.key 0 40 → recProf s l.record = q.prof →
    ∃ t, exec (.flowRequest sl) s = .next t ∧ (slice t sl).reqs = rest ∧ chan t sl q.pipe = chan s sl q.pipe ++ [.answer q.key q.prof l.record (recVer s l.record)
      (recFlags48 s l.record) (recAction s l.record) (recBackGen s l.record) (recDir s l.record) 1] ∧ t.mem = s.mem)
  ∧ (∀ sl q rest s, sliceOn s sl = true → (slice s sl).fetches = q :: rest → hotKey s sl q.key q.prof = none → idxFind s q.h q.g q.key q.prof = none →
    (profMode (profEntry s (dieOfSlice sl) q.prof) = 0 ∨ profMode (profEntry s (dieOfSlice sl) q.prof) = 3) →
    ∃ t, exec (.flowFetchDone sl) s = .next t ∧ (slice t sl).fetches = rest ∧ chan t sl q.pipe = chan s sl q.pipe ++ [.answer q.key q.prof 0 0 0 0 0 false 0] ∧ t.mem = s.mem)
  ∧ (∀ sl k ok rest s, sliceOn s sl = true → (slice s sl).reports = (k, ok) :: rest → (∀ l ∈ (slice s sl).hot, l.life ≠ lifeNew) →
    exec (.frameCheckReport sl) s = .next (modSlice sl (fun x => { x with reports := rest }) s))
  ∧ (∀ sl k ok rest l s, sliceOn s sl = true → (slice s sl).reports = (k, ok) :: rest → (slice s sl).hot = [l] → l.life = lifeNew → l.trig = some k → l.creating = true →
    ∃ t, exec (.frameCheckReport sl) s = .next t ∧ (slice t sl).reports = rest ∧ (slice t sl).hot = [{ l with checks := l.checks ++ [(k, ok)] }])
  ∧ (∀ sl r l s, hotOf s sl r = some l → sliceOn s sl = true → l.life = lifeNew → l.newAt + cfg1 s (.fleCreateCfg (dieOfSlice sl)) 31 16 * 1000000 ≤ s.now → l.task = none → l.trig = none →
    ∃ t, exec (.createTmoExpiry sl r) s = .next t ∧ hotOf t sl r = none
      ∧ t.raised = (raise (fleSrc sl 1) evFlowCreateTimeout r l.prof (parkedPkts s l).length 0 (fleCnt sl 6 s)).raised)
  ∧ (∀ sl r l s, hotOf s sl r = some l → s.now < l.newAt + cfg1 s (.fleCreateCfg (dieOfSlice sl)) 31 16 * 1000000 → exec (.createTmoExpiry sl r) s = .next s)
  ∧ (∀ sl w rest s, (slice s sl).writes = w :: rest → w.cmd = none → w.answer = [] → w.reply = none → w.inval = true →
    ∃ t, exec (.hbmWriteAccepted sl) s = .next t ∧ (slice t sl).writes = rest ∧ t.mem = s.mem
      ∧ ∀ p ∈ pipelines s.part, .inval w.record w.version (ctime s) none ∈ chan t sl p)
  ∧ (∀ sl p g i rest e s, (slice s sl).acks = (p, g, i) :: rest → inflight s (g, i) = some e → e.acks.filter (· ≠ p) ≠ [] →
    exec (.invalidationAck sl) s = .next (modInflight (g, i) (fun x => { x with acks := e.acks.filter (· ≠ p) }) (modSlice sl (fun x => { x with acks := rest }) s)))
  ∧ (∀ sl r l s, hotOf s sl r = some l → l.evicting = true → l.dirty = false → exec (.hotLineWritebackDone sl r) s = .next (dropHot sl r s) ∧ hotOf (dropHot sl r s) sl r = none)
  ∧ (∀ sl r l s, hotOf s sl r = some l → l.evicting = false → exec (.hotLineWritebackDone sl r) s = .next s)
  ∧ (∀ sl q rest r s, sliceOn s sl = true → takeFirst (fun q => !halfLeaving s (reqHalf s q)) (slice s sl).backends = some (q, rest) → q.backend = some r →
    recLive s r = true → recKey s r = takeBytes q.key 0 40 → recProf s r = q.prof → writePending s sl r = false →
    backendOk s (dieOfSlice sl) (recAction s r) (recBackGen s r) = true →
    ∃ t, exec (.backendRequest sl) s = .next t ∧ (slice t sl).backends = rest ∧ chan t sl q.pipe = chan s sl q.pipe ++ [.answer q.key q.prof r (recVer s r) (recFlags48 s r) (recAction s r)
      (recBackGen s r) (recDir s r) 1] ∧ t.mem = s.mem)

/-- Past the last record a sweep begins again, sweep_ms after the last began. A CLOSED record past tmo_closed with no end
record waiting is freed at its visit. An export record whose ring has room is written as two descriptors, and its
record's last_export becomes the time; one whose ring is disabled is dropped and counted; an end record that waited
export_tmo_ms is discarded. A peer told of an end closes with a new version. A released port is free again and the
refcount falls; a freed block's bit is clear. A CT notice without RST and FIN moves the ct_state of a tracked open
record, and a RST closes it; a REPLY's notice goes, reversed, to its PRIMARY's owner. A delta is added to the hot line
of its record, which becomes dirty. A pull with answers missing waits for them; with the last, a record not seen since
ages. A drained half is served by the partner, and every pipeline is sent the final stamp. A slice that is down does
none of this. Each of these rows completes on the conditions of its clause, exec answering the next state with that
effect: flowSweepVisit, exportRoom, exportTmoExpiry, peerEnd, portRelease, natBlockFree, ctNotice, deltaArrival,
pullAnswer, ownerSwitch. (R178, R184, R188, R191, R193, R194, R195, R196, R200, R204, R205, R219) -/
def Obligations.FlowUpkeep : Prop :=
  (∀ sl s, sliceOn s sl = false → exec (.flowSweepVisit sl) s = .next s ∧ exec (.peerEnd sl) s = .next s ∧ exec (.portRelease sl) s = .next s ∧ exec (.natBlockFree sl) s = .next s
    ∧ exec (.ctNotice sl) s = .next s ∧ exec (.deltaArrival sl) s = .next s)
  ∧ (∀ sl s, sliceOn s sl = true → s.pwr.committed = true → sweepNext s sl (slice s sl).sweepPos = none → (slice s sl).tombs = [] →
    (slice s sl).sweepAt + sweepPeriod s sl ≤ s.now →
    exec (.flowSweepVisit sl) s = .next (modSlice sl (fun x => { x with sweepPos := 0, sweeps := x.sweeps + 1, sweepAt := s.now }) s))
  ∧ (∀ sl s, sweepNext s sl (slice s sl).sweepPos = none → s.now < (slice s sl).sweepAt + cfg1 s (.fleSweepCfg (dieOfSlice sl)) 15 0 * 10 ^ 9 → exec (.flowSweepVisit sl) s = .next s)
  ∧ (∀ sl i s, sliceOn s sl = true → s.pwr.committed = true → sweepNext s sl (slice s sl).sweepPos = some i → recLive s (sweepRec sl i) = true → hotOf s sl (sweepRec sl i) = none →
    recLife s (sweepRec sl i) = lifeClosed → endWaits s sl (sweepRec sl i) = false → (slice s sl).sweepAt + sweepPeriod s sl * i / 2 ^ 24 ≤ s.now →
    fld (ctEntry s (dieOfSlice sl) (recCtProf s (sweepRec sl i))) 63 48 ≤ msSince s (mget 0 s.flow.endAt (sweepRec sl i) + 2 ^ 32 - 1) →
    ∃ t, exec (.flowSweepVisit sl) s = .next t ∧ recLive t (sweepRec sl i) = false)
  ∧ (∀ sl x rest s, takeFirst (exportReady s) (slice s sl).exports = some (x, rest) → x.endRec = false →
    (ring s (656 + x.ring)).enabled = true →
    let z := modRing (656 + x.ring) (fun r => { r with discarded := 0 }) (publish (656 + x.ring) 2
      (writeDesc (656 + x.ring) (exportParts x (ring s (656 + x.ring)).discarded).2 (writeDesc (656 + x.ring) (exportParts x (ring s (656 + x.ring)).discarded).1
        (modSlice sl (fun y => { y with exports := rest }) s))))
    (exportHere z x = false → exec (.exportRoom sl) s = .next z)
    ∧ (exportHere z x = true → recKind z x.record ≠ 3 → exec (.exportRoom sl) s = .next (setRec x.record 136 4 (msNow z) z)))
  ∧ (∀ sl x rest s, takeFirst (exportReady s) (slice s sl).exports = some (x, rest) → x.endRec = false →
    (ring s (656 + x.ring)).enabled = false →
    ∃ t, exec (.exportRoom sl) s = .next t ∧ (slice t sl).exports = rest ∧ (ring t (656 + x.ring)).discarded = (ring s (656 + x.ring)).discarded + 1 ∧ t.host = s.host)
  ∧ (∀ sl x rest s, takeFirst (fun x => x.endRec && decide (x.since + cfg1 s (.fleExportCfg (dieOfSlice sl)) 15 0 * 1000000000 ≤ s.now)) (slice s sl).exports = some (x, rest) →
    recLive s x.record = false →
    exec (.exportTmoExpiry sl) s = .next (exportLost sl x.ring x.reason (modSlice sl (fun y => { y with exports := rest }) s)))
  ∧ (∀ sl r reason rest s, sliceOn s sl = true → (slice s sl).peers = (r, lifeClosed, reason) :: rest → recOpen s r = true →
    ∃ t, exec (.peerEnd sl) s = .next t ∧ recLife t r = lifeClosed ∧ recVer t r = (recVer s r + 1) % 2 ^ 32 ∧ ∀ o k, o + k ≤ 42 → recN t r o k = recN s r o k)
  ∧ (∀ sl b port rest s, sliceOn s sl = true → (slice s sl).releases = (b, port) :: rest → recLive s b = true → recKind s b = 3 → fld (recAction s b) 56 41 ≤ port →
    port - fld (recAction s b) 56 41 < 512 → 0 < recRefs s b →
    ∃ t, exec (.portRelease sl) s = .next t ∧ (slice t sl).releases = rest ∧ recRefs t b = recRefs s b - 1 ∧ bit (portBits t b) (port - fld (recAction s b) 56 41) = false)
  ∧ (∀ sl p addr port rest s, sliceOn s sl = true → (slice s sl).blockFrees = (p, addr, port) :: rest → port < 65536 →
    ∃ t, exec (.natBlockFree sl) s = .next t ∧ (slice t sl).blockFrees = rest ∧ blockBit t (dieOfSlice sl) addr (port / 2 ^ poolLog2 (poolEntry s (dieOfSlice sl) p)) = false)
  ∧ (∀ sl n rest f s, sliceOn s sl = true → (slice s sl).cts = n :: rest → recKind s n.record ≠ 2 → recOpen s n.record = true → bit (recFlags48 s n.record) 2 = true →
    n.tcp = some f → bit f 2 = false → bit f 0 = false → recLife s n.record = lifeAct →
    ∃ t, exec (.ctNotice sl) s = .next t ∧ recCt t n.record = ctNext (recCt s n.record) n.reply n.tcp ∧ recLife t n.record = lifeAct ∧ ∀ o k, o + k ≤ 43 ∨ 44 ≤ o → recN t n.record o k = recN s n.record o k)
  ∧ (∀ sl n rest f s, sliceOn s sl = true → (slice s sl).cts = n :: rest → recKind s n.record ≠ 2 → recOpen s n.record = true → bit (recFlags48 s n.record) 2 = true →
    recLife s n.record ≠ lifeNew → n.tcp = some f → bit f 2 = true →
    ∃ t, exec (.ctNotice sl) s = .next t ∧ recLife t n.record = lifeClosed ∧ recVer t n.record = (recVer s n.record + 1) % 2 ^ 32)
  ∧ (∀ sl n rest p s, sliceOn s sl = true → (slice s sl).cts = n :: rest → recLive s n.record = true → recKind s n.record = 2 → peerOf s n.record = some p → recOwner s p ≠ sl →
    ∃ t, exec (.ctNotice sl) s = .next t ∧ (slice t sl).cts = rest ∧ (slice t (recOwner s p)).cts = (slice s (recOwner s p)).cts ++ [⟨p, n.tcp, !n.reply⟩])
  ∧ (∀ sl d rest l s, sliceOn s sl = true → (slice s sl).deltas = d :: rest → recLive s d.record = true → hotOf s sl d.record = some l →
    l.dPktsO + d.po < 2 ^ 32 → l.dPktsR + d.pr < 2 ^ 32 → l.dBytesO + d.bo < 2 ^ 32 → l.dBytesR + d.br < 2 ^ 32 →
    ∃ t m, exec (.deltaArrival sl) s = .next t ∧ (slice t sl).deltas = rest ∧ hotOf t sl d.record = some m ∧ m.dPktsO = l.dPktsO + d.po ∧ m.dPktsR = l.dPktsR + d.pr
      ∧ m.dBytesO = l.dBytesO + d.bo ∧ m.dBytesR = l.dBytesR + d.br ∧ m.dirty = true ∧ m.lastSeen = (if wrapGe 32 d.seen l.lastSeen then d.seen else l.lastSeen) ∧ t.mem = s.mem)
  ∧ (∀ sl r p s, (slice s sl).pulls = [p] → p.record = r → p.ask = none → recOwner s r = sl → ((slice s sl).deltas.filter fun d => d.record = r) = [] → peerOf s r = none →
    ((p.due.filter fun d => !((((slice s sl).pullAns.filter fun e => decide (e.1 = r) || decide (some e.1 = peerOf s r)).map fun e => if e.1 = r then e.2 else 16 + e.2)).contains d).filter (· < 16)) = [] →
    exec (.pullAnswer sl r) s = .next (if recLive s r ∧ (recLife s r = lifeEst ∨ recLife s r = lifeAct) ∧ ageSeen s r = p.seen then
      endRecord sl r lifeAged p.reason { free := decide (p.reason = xpEvicted) } (modSlice sl (fun x => { x with pulls := [] }) (modSlice sl (fun x => { x with deltas := x.deltas.filter fun d => d.record ≠ r })
        (modSlice sl (fun x => { x with pullAns := x.pullAns.filter fun e => !(decide (e.1 = r) || decide (some e.1 = peerOf s r)) }) s)))
      else modSlice sl (fun x => { x with pulls := [] }) (modSlice sl (fun x => { x with deltas := x.deltas.filter fun d => d.record ≠ r })
        (modSlice sl (fun x => { x with pullAns := x.pullAns.filter fun e => !(decide (e.1 = r) || decide (some e.1 = peerOf s r)) }) s))))
  ∧ (∀ sl hf s, leavingHalf s sl = some hf → halfDrained s sl hf = true → (∀ l ∈ (slice s sl).hot, l.dirty = false) → partner sl ≠ sl → (domain s (domSlice (partner sl))).state ≠ dsInit →
    ∃ t, exec (.ownerSwitch sl) s = .next t ∧ (slice t sl).transfer = .none ∧ (slice t sl).servesOwn = ((slice s sl).servesOwn && decide (hf ≠ sl))
      ∧ (slice t sl).servesPartner = ((slice s sl).servesPartner && decide (hf = sl)) ∧ (slice t (partner sl)).servesOwn = ((slice s (partner sl)).servesOwn || decide (hf = partner sl))
      ∧ (slice t (partner sl)).servesPartner = ((slice s (partner sl)).servesPartner || decide (hf = sl)) ∧ ∀ p ∈ pipelines s.part, .finalStamp hf ∈ chan t sl p)
  ∧ (∀ sl s, leavingHalf s sl = none → (domain s (domSlice (partner sl))).state ≠ dsInit → exec (.ownerSwitch sl) s = .next s)

/-- The owner that works takes the request at the front of its queue, by its opcode. A COMMIT whose placeholder, or a
SET_ACTION whose record, refuses it is answered with that status. COMMIT writes the placeholder's record with the
action, flags and firmware area of the record operand, its version one higher; DENY commits it in CLOSED with fdisp
DROP; REJECT removes it and replies 0. SET_ACTION writes the action block, REBIND the backend, each with the version
one higher; CLOSE moves an open record to CLOSED; AGE of one in ESTABLISHING or ACTIVE asks every pipeline for its
deltas and keeps the request to be answered with the last. EXPORT of a record with export_en buffers a FIRMWARE export
record and replies 0. READ gives the record's image. NAT_BLOCK gives the address and first port allocated; NAT_PORT
takes a free port of an open binding and answers when its write is accepted; SET_FW writes the firmware area. COMMIT,
REJECT and SET_FW change nothing while another opcode is at the front. Each of these rows completes on the conditions
of its clause, exec answering the next state with that effect: commit, reject, deny, setAction, close, age, export_,
read, rebind, natBlock, natPort, setFw. (R182, R191, R192, R199, R200, R203, R204, R256) -/
def Obligations.FirmwareRequests : Prop :=
  (∀ sl q rest st s, sliceOn s sl = true → (slice s sl).wk = q :: rest → fld q.req 7 0 = 1 → wkPlaceholder sl q s = .error st →
    exec (.commit sl) s = .next (replyCore q.core st [] (modSlice sl (fun x => { x with wk := rest }) s)))
  ∧ (∀ sl q rest st s, sliceOn s sl = true → (slice s sl).wk = q :: rest → fld q.req 7 0 = 4 → wkRecord q true s = .error st →
    exec (.setAction sl) s = .next (replyCore q.core st [] (modSlice sl (fun x => { x with wk := rest }) s)))
  ∧ (∀ sl q rest s, (slice s sl).wk = q :: rest → (fld q.req 7 0 ≠ 1 → exec (.commit sl) s = .next s) ∧ (fld q.req 7 0 ≠ 2 → exec (.reject sl) s = .next s)
    ∧ (fld q.req 7 0 ≠ 0x0C → exec (.setFw sl) s = .next s))
  ∧ (∀ sl q rest l s, sliceOn s sl = true → (slice s sl).wk = q :: rest → fld q.req 7 0 = 1 → wkPlaceholder sl q s = .ok l → bit q.req 8 = false →
    ∃ t, exec (.commit sl) s = .next t ∧ recAction t l.record = fld q.recOp 767 512 ∧ recFlags48 t l.record % 32 = fld q.recOp 415 384 % 32
      ∧ recVer t l.record = (recVer s l.record + 1) % 2 ^ 32 ∧ recKey t l.record = takeBytes l.key 0 40 ∧ recProf t l.record = l.prof % 16 ∧ recN t l.record 144 48 = fld q.recOp 1535 1152)
  ∧ (∀ sl q rest l s, sliceOn s sl = true → (slice s sl).wk = q :: rest → fld q.req 7 0 = 3 → wkPlaceholder sl q s = .ok l →
    ∃ t, exec (.deny sl) s = .next t ∧ recLife t l.record = lifeClosed ∧ recAction t l.record = 2 ∧ recVer t l.record = (recVer s l.record + 1) % 2 ^ 32)
  ∧ (∀ sl q rest l s, sliceOn s sl = true → (slice s sl).wk = q :: rest → fld q.req 7 0 = 2 → wkPlaceholder sl q s = .ok l →
    ∃ t, exec (.reject sl) s = .next t ∧ hotOf t sl l.record = none ∧ (coreOf t q.core).reply = some (rdN (coreOf s q.core).window 0x2C0 1, 0, []))
  ∧ (∀ sl q rest r s, sliceOn s sl = true → (slice s sl).wk = q :: rest → fld q.req 7 0 = 4 → wkRecord q true s = .ok r →
    ∃ t, exec (.setAction sl) s = .next t ∧ recAction t r = fld q.req 511 256 ∧ recVer t r = (recVer s r + 1) % 2 ^ 32 ∧ ∀ o k, o + k ≤ 44 ∨ 96 ≤ o → recN t r o k = recN s r o k)
  ∧ (∀ sl q rest r s, sliceOn s sl = true → (slice s sl).wk = q :: rest → fld q.req 7 0 = 5 → wkRecord q true s = .ok r → recOpen s r = true →
    ∃ t, exec (.close sl) s = .next t ∧ recLife t r = lifeClosed ∧ recVer t r = (recVer s r + 1) % 2 ^ 32)
  ∧ (∀ sl q rest r s, sliceOn s sl = true → (slice s sl).wk = q :: rest → fld q.req 7 0 = 6 → wkRecord q true s = .ok r → (recLife s r = lifeEst ∨ recLife s r = lifeAct) →
    recKind s r ≠ 1 → pulling s r = false →
    ∃ t, exec (.age sl) s = .next t ∧ (slice t sl).pulls = (slice s sl).pulls ++ [⟨r, ageSeen s r, pipelines s.part, xpAged, some q⟩]
      ∧ (∀ p ∈ pipelines s.part, .pull r ∈ chan t sl p) ∧ recLive t r = recLive s r ∧ t.mem = s.mem)
  ∧ (∀ sl q rest r s, sliceOn s sl = true → (slice s sl).wk = q :: rest → fld q.req 7 0 = 7 → wkRecord q false s = .ok r → bit (recFlags48 s r) 1 = true →
    (ring s (656 + profRing (profEntry s (dieOfSlice sl) (recProf s r)))).enabled = true → (slice s sl).exports.length < 4096 →
    ∃ t x, exec (.export_ sl) s = .next t ∧ (slice t sl).exports = (slice s sl).exports ++ [x] ∧ x.record = r ∧ x.reason = xpFirmware ∧ x.image = recImage s r ∧ x.endRec = false
      ∧ (coreOf t q.core).reply = some (rdN (coreOf s q.core).window 0x2C0 1, 0, []))
  ∧ (∀ sl q rest r s, sliceOn s sl = true → (slice s sl).wk = q :: rest → fld q.req 7 0 = 8 → bit q.req 9 = false → wkRecord q false s = .ok r →
    ∃ t, exec (.read sl) s = .next t ∧ (coreOf t q.core).replyImage = some (recImage s r) ∧ (coreOf t q.core).reply = some (rdN (coreOf s q.core).window 0x2C0 1, 0, [(8, r)]) ∧ t.mem = s.mem)
  ∧ (∀ sl q rest r s, sliceOn s sl = true → (slice s sl).wk = q :: rest → fld q.req 7 0 = 9 → wkRecord q true s = .ok r → recOpen s r = true →
    ∃ t, exec (.rebind sl) s = .next t ∧ recAction t r = setFld (recAction s r) 87 71 (fld q.req 95 64 % 131072) % 2 ^ 256 ∧ recVer t r = (recVer s r + 1) % 2 ^ 32
      ∧ recBackGen t r = backGenOf (backEntry s (dieOfSlice sl) (fld q.req 95 64 % 131072)))
  ∧ (∀ sl q rest a p u s, sliceOn s sl = true → (slice s sl).wk = q :: rest → fld q.req 7 0 = 0x0A →
    natBlockAlloc sl (fld q.req 71 64) (fld q.req 127 96) (modSlice sl (fun x => { x with wk := rest }) s) = (some (a, p), u) →
    exec (.natBlock sl) s = .next (replyCore q.core 0 [(8, a), (12, p)] u))
  ∧ (∀ sl q rest r p i s, sliceOn s sl = true → (slice s sl).wk = q :: rest → fld q.req 7 0 = 0x0B → wkRecord q false s = .ok r → recKind s r = 3 → recOpen s r = true →
    poolOfAddr s (dieOfSlice sl) (fld (recAction s r) 40 27) = some p → natPortAlloc s r (2 ^ poolLog2 (poolEntry s (dieOfSlice sl) p)) = some i → i < 512 →
    ∃ t, exec (.natPort sl) s = .next t ∧ bit (portBits t r) i = true ∧ recRefs t r = (recRefs s r + 1) % 2 ^ 32 ∧ recN t r 136 2 = (i + 1) % 2 ^ 16
      ∧ (slice t (recOwner t r)).writes = (slice s (recOwner t r)).writes ++ [⟨r, recVer s r, false, none, [], some (q.core, 0, [(12, fld (recAction s r) 56 41 + i)]), recHalf r / 2⟩])
  ∧ (∀ sl q rest r s, sliceOn s sl = true → (slice s sl).wk = q :: rest → fld q.req 7 0 = 0x0C → wkRecord q false s = .ok r →
    ∃ t, exec (.setFw sl) s = .next t ∧ recN t r 144 48 = fld q.aux 1535 1152 ∧ ∀ o k, o + k ≤ 144 ∨ 192 ≤ o → recN t r o k = recN s r o k)

/-- An entry's unsent deltas go to the owner 10 µs after the first, not before; a pull is answered once no speculative
pass of the record is left. An answer with a record for a request nobody waits on any more installs the entry; a RETRY
sends the request again. An invalidation removes the record's entry and is acknowledged when asked for; a speculative
pass that looked up after its time less 4 cc squashes its chain. A slice sends its stamp to every pipeline when its
confirm time is a multiple of 16 cc, 16 cc after its last; a stamp becomes the slice's horizon and confirms a
speculative pass whose lookup is 4 cc or more before it, and the packet's flow part with it; a final stamp covers the
half's passes. A confirmed frame's notice makes it eligible at that time. A pass still unconfirmed 3,200 cc after its
lookup squashes its chain as a time-out. A replayed pass waits for its owner, whose queue gets the request. An
unstable entry goes after its time; a slice that stays silent for stall_ns raises HORIZON_STALL once. Each of these
rows completes on the conditions of its clause, exec answering the next state with that effect: deltaSend, flowPull,
answer, invalidation, horizonStampForm, horizonStamp, finalStamp, confirmNotice, specTimeout, replay,
unstableEntryExpiry, stallNsExpiry. (R186, R187, R188, R196, R214, R217, R219, R221, R222, R224, R225, R237) -/
def Obligations.SpeculationMessages : Prop :=
  (∀ p r x w s, (replicas s p).find? (fun x => x.record = r) = some x → x.since = some w → w + 10000000 ≤ s.now →
    ∃ t, exec (.deltaSend p r) s = .next t ∧ (slice t (recOwner s r)).deltas = (slice s (recOwner s r)).deltas ++ [⟨r, x.dPktsO, x.dPktsR, x.dBytesO, x.dBytesR, x.seen⟩]
      ∧ (replicas t p).find? (fun x => x.record = r) = some { x with dPktsO := 0, dPktsR := 0, dBytesO := 0, dBytesR := 0, since := none })
  ∧ (∀ p r x w s, (replicas s p).find? (fun x => x.record = r) = some x → x.since = some w → s.now < w + 10000000 → exec (.deltaSend p r) s = .next s)
  ∧ (∀ sl p r rest s, chan s sl p = .pull r :: rest → (∀ q ∈ (pipe s p).passes, q.record = some r → q.st ≠ .spec ∧ q.st ≠ .squashed) →
    ∃ t, exec (.flowPull sl p) s = .next t ∧ chan t sl p = rest ∧ (slice t sl).pullAns = (slice s sl).pullAns ++ [(r, p)])
  ∧ (∀ sl p r rest q s, chan s sl p = .pull r :: rest → q ∈ (pipe s p).passes → q.record = some r → q.st = .spec → exec (.flowPull sl p) s = .next s)
  ∧ (∀ sl p key prof rec ver fl act bg dir w u s, takeChan sl p s = some (.answer key prof rec ver fl act bg dir 1, u) → (waitings u p).find? (fun w => w.key = key ∧ w.prof = prof) = some w →
    w.who = [] → w.late = [] → (∀ v ∈ waitings u p, v.sent = true) → (∀ q ∈ (pipe u p).passes, q.st ≠ .spec) → (∀ x ∈ replicas u p, ¬(x.key = key ∧ x.prof = prof)) →
    ((replicas u p).filter fun x => replicaSet x.h = replicaSet w.req.h).length < 8 →
    ∃ t n, exec (.answer sl p) s = .next t ∧ n ∈ replicas t p ∧ n.key = key ∧ n.prof = prof ∧ n.record = rec ∧ n.version = ver ∧ n.action = act ∧ n.flags = fl ∧ n.backendGen = bg)
  ∧ (∀ sl p key prof rec ver fl act bg dir w u s, takeChan sl p s = some (.answer key prof rec ver fl act bg dir 2, u) → (waitings u p).find? (fun w => w.key = key ∧ w.prof = prof) = some w →
    exec (.answer sl p) s = .next (resendReq p w u))
  ∧ (∀ sl p r v tm g i u s, takeChan sl p s = some (.inval r v tm (some (g, i)), u) → (∀ w ∈ waitings u p, w.sent = true) → (∀ q ∈ (pipe u p).passes, q.st ≠ .spec) →
    ∃ t, exec (.invalidation sl p) s = .next t ∧ (∀ x ∈ replicas t p, x.record ≠ r) ∧ (slice t sl).acks = (slice u sl).acks ++ [(p, g, i)])
  ∧ (∀ sl p r v tm q u s, takeChan sl p s = some (.inval r v tm none, u) → (∀ q ∈ (pipe u p).passes, q.record = some r → q.lookup ≠ ctime u) →
    (pipe u p).passes.find? (fun q => decide (q.st = .spec) && !q.auth && decide (q.record = some r) && !wrapGe 48 tm (q.lookup + 4)) = some q →
    exec (.invalidation sl p) s = .next (confirmPasses p (noteInval p r (squashChain p q.pkt q.no 1 (removeReplica p r u)))))
  ∧ (∀ sl s, sliceOn s sl = true → ctime s % 16 = 0 → (slice s sl).stampAt + 16 * 625 ≤ s.now → ∃ t, exec (.horizonStampForm sl) s = .next t ∧ ∀ p ∈ pipelines s.part, .stamp (ctime s) ∈ chan t sl p)
  ∧ (∀ sl s, ctime s % 16 ≠ 0 → exec (.horizonStampForm sl) s = .next s)
  ∧ (∀ sl p v u s, takeChan sl p s = some (.stamp v, u) → (∀ w ∈ waitings u p, w.sent = true) → (∀ q ∈ (pipe u p).passes, q.st ≠ .spec) →
    ∃ t, exec (.horizonStamp sl p) s = .next t ∧ mget 0 (pipe t p).horizon sl = v ∧ mget 0 (pipe t p).advanced sl = u.now)
  ∧ (∀ sl p v q x u s, takeChan sl p s = some (.stamp v, u) → (∀ w ∈ waitings u p, w.sent = true) → (pipe u p).passes = [q] → q.st = .spec → q.owner = sl → wrapGe 48 v (q.lookup + 4) = true →
    pktOf u q.pkt = some x → x.pipe = p → x.check = none → x.flowOk = false → x.task = false → (∀ y ∈ (pipe u p).yoyo, y.pkt ≠ q.pkt) →
    ∃ t y, exec (.horizonStamp sl p) s = .next t ∧ (pipe t p).passes = [{ q with st := .confirmed }] ∧ pktOf t q.pkt = some y ∧ y.flowOk = true ∧ mget 0 (pipe t p).horizon sl = v)
  ∧ (∀ sl p hf u s, takeChan sl p s = some (.finalStamp hf, u) →
    exec (.finalStamp sl p) s = .next (confirmPasses p (modPipe p (fun x => { x with
      passes := x.passes.map fun q => if q.st = .spec ∧ q.record.isSome ∧ q.half = hf ∧ q.owner = sl then { q with covered := true } else q }) u)))
  ∧ (∀ k x s, pktOf s k = some x → x.flowOk = true → x.noticed = false → x.copy = false → s.buf.copies = [] →
    ∃ t, exec (.confirmNotice k) s = .next t ∧ pktOf t k = some { x with noticed := true, noticeAt := s.now })
  ∧ (∀ k x s, pktOf s k = some x → x.flowOk = false → s.buf.copies = [] → exec (.confirmNotice k) s = .next s)
  ∧ (∀ p q u s, confirmPasses p s = u → (pipe u p).passes.find? (fun q => decide (q.st = .spec) && !q.auth && wrapGe 48 (ctime u) (q.lookup + 3200)) = some q →
    exec (.specTimeout p) s = .next (confirmPasses p (squashChain p q.pkt q.no 2 u)))
  ∧ (∀ p u s, confirmPasses p s = u → (∀ q ∈ (pipe u p).passes, q.st = .spec → q.auth = true ∨ wrapGe 48 (ctime u) (q.lookup + 3200) = false) → exec (.specTimeout p) s = .next u)
  ∧ (∀ p y x q s, yoyoDue s p true = some y → pktOf s y.pkt = some x → passOf s p y.pkt (y.pass.getD 0) = some q → domWorks s (domPipe p) = true → waitCount s p < 4096 →
    (∀ w ∈ waitings s p, ¬(w.key = q.snap.key ∧ w.prof = q.snap.prof)) → q.cause ≠ 3 → q.snap.skip = false →
    ∃ t z r, exec (.replay p) s = .next t ∧ passOf t p q.pkt q.no = some z ∧ z.st = .waiting ∧ z.lookup = ctime s
      ∧ (slice t (halfOwner s (homeHalf s q.snap.h))).reqs = (slice s (halfOwner s (homeHalf s q.snap.h))).reqs ++ [r] ∧ r.key = q.snap.key ∧ r.prof = q.snap.prof ∧ r.pipe = p)
  ∧ (∀ p r w s, unstableOf s p r = some w → w.lastInv + cfg1 s (.fleSpecCfg p) 19 0 * 1000000 ≤ s.now →
    exec (.unstableEntryExpiry p r) s = .next (modPipe p (fun x => { x with unstable := x.unstable.filter fun y => y.record ≠ r }) s))
  ∧ (∀ p r w s, unstableOf s p r = some w → s.now < w.lastInv + cfg1 s (.fleSpecCfg p) 19 0 * 1000000 → exec (.unstableEntryExpiry p r) s = .next s)
  ∧ (∀ p sl s, hasPipe s.part p = true → hasSlice s.part sl = true → (slice s sl).servesOwn = true → bit (pipe s p).stalled sl = false →
    mget 0 (pipe s p).advanced sl + Nat.max 100 (cfg s (.fleHorizonCfg (dieOfPipe p)) 11 0) * 1000 ≤ s.now →
    exec (.stallNsExpiry p sl) s = .next (raise (fleSrc sl 5) evHorizonStall p 0 0 0 (modPipe p (fun y => { y with stalled := setFld y.stalled sl sl 1 }) s)))
  ∧ (∀ p sl s, bit (pipe s p).stalled sl = true → exec (.stallNsExpiry p sl) s = .next s)

/-- The owner slice answers the request at the head of its queue: a new key takes a free slot and goes out to every die,
an unmoved one is marked hit in the owner's copy and broadcast, a pinned one at another target and a frozen one are
counted and left alone, a move within the limit changes the destination and counts a move, one beyond it freezes the
entry and raises MAC_FLAP, and a key whose candidates are all pinned raises L2_LEARN_FULL. A hit notice sets hit, or
puts a deleted entry back. A die applies the decision at its head; a copy with hit set keeps a deleted entry and sends
a notice. An ageing visit, when it is due, clears a hit, adds one to the age, or deletes at the limit. Each of these
rows completes on the conditions of its clause, exec answering the next state with that effect: learnRequest,
hitNotice, l2Broadcast, l2Delete, l2AgeVisit. (R146, R149, R150, R151, R152, R153, R154) -/
def Obligations.LearningDecisions : Prop :=
  (∀ sl f m tgt rest i e s, mget [] s.fwd.learnQ sl = .req f m tgt :: rest → sliceOn s sl = true → l2Find s (dieOfSlice sl) f m = some i → l2Get s (dieOfSlice sl) i = e → unfreeze s (dieOfSlice sl) e = e → l2Pinned e = false → l2Dest e = tgt →
    exec (.learnRequest sl) s = .next (if l2Hit e then modFwd (fun f => { f with learnQ := mset [] f.learnQ sl rest }) s else broadcast sl (.put i (setFld e 87 87 1)) (tPut (dieOfSlice sl) 0x0201 i (setFld e 87 87 1) (modFwd (fun f => { f with learnQ := mset [] f.learnQ sl rest }) s))))
  ∧ (∀ sl f m tgt rest i e s, mget [] s.fwd.learnQ sl = .req f m tgt :: rest → sliceOn s sl = true → l2Find s (dieOfSlice sl) f m = some i → l2Get s (dieOfSlice sl) i = e → l2Pinned (unfreeze s (dieOfSlice sl) e) = true → l2Dest (unfreeze s (dieOfSlice sl) e) ≠ tgt →
    exec (.learnRequest sl) s = .next (learnCnt sl 8 (modFwd (fun f => { f with learnQ := mset [] f.learnQ sl rest }) s)))
  ∧ (∀ sl f m tgt rest i e s, mget [] s.fwd.learnQ sl = .req f m tgt :: rest → sliceOn s sl = true → l2Find s (dieOfSlice sl) f m = some i → l2Get s (dieOfSlice sl) i = e → unfreeze s (dieOfSlice sl) e = e → l2Pinned e = false → l2Dest e ≠ tgt → l2Frozen e = true →
    exec (.learnRequest sl) s = .next (learnCnt sl 7 (modFwd (fun f => { f with learnQ := mset [] f.learnQ sl rest }) s)))
  ∧ (∀ sl f m tgt rest i e s, mget [] s.fwd.learnQ sl = .req f m tgt :: rest → sliceOn s sl = true → l2Find s (dieOfSlice sl) f m = some i → l2Get s (dieOfSlice sl) i = e → unfreeze s (dieOfSlice sl) e = e → l2Pinned e = false → l2Dest e ≠ tgt → l2Frozen e = false →
    msSinceStamp s e < cfg1 s (.fwdLearnCfg (dieOfSlice sl)) 14 0 → l2Moves e + 1 ≤ cfg s (.fwdLearnCfg (dieOfSlice sl)) 19 16 →
    exec (.learnRequest sl) s = .next (ownerPut sl i (setFld (setFld e 83 64 tgt) 95 92 (l2Moves e + 1)) (learnCnt sl 5 (modFwd (fun f => { f with learnQ := mset [] f.learnQ sl rest }) s))))
  ∧ (∀ sl f m tgt rest i e s, mget [] s.fwd.learnQ sl = .req f m tgt :: rest → sliceOn s sl = true → l2Find s (dieOfSlice sl) f m = some i → l2Get s (dieOfSlice sl) i = e → unfreeze s (dieOfSlice sl) e = e → l2Pinned e = false → l2Dest e ≠ tgt → l2Frozen e = false →
    msSinceStamp s e < cfg1 s (.fwdLearnCfg (dieOfSlice sl)) 14 0 → cfg s (.fwdLearnCfg (dieOfSlice sl)) 19 16 < l2Moves e + 1 →
    exec (.learnRequest sl) s = .next (raise (fwdSrc (dieOfSlice sl) 0) evMacFlap (keyParams f m).1 (keyParams f m).2 (l2Dest e) tgt
      (ownerPut sl i (setFld (setFld e 86 86 1) 111 96 (msStamp s)) (learnCnt sl 6 (modFwd (fun f => { f with learnQ := mset [] f.learnQ sl rest }) s)))))
  ∧ (∀ sl f m tgt rest i s, mget [] s.fwd.learnQ sl = .req f m tgt :: rest → sliceOn s sl = true → l2Find s (dieOfSlice sl) f m = none → l2FreeSlot s (dieOfSlice sl) f m = some i →
    exec (.learnRequest sl) s = .next (learnCnt sl 4 (ownerPut sl i (l2New f m tgt (msStamp s)) (modFwd (fun f => { f with learnQ := mset [] f.learnQ sl rest }) s))))
  ∧ (∀ sl f m tgt rest s, mget [] s.fwd.learnQ sl = .req f m tgt :: rest → sliceOn s sl = true → l2Find s (dieOfSlice sl) f m = none → l2FreeSlot s (dieOfSlice sl) f m = none →
    (∀ i ∈ l2Cands s (dieOfSlice sl) f m, l2Pinned (l2Get s (dieOfSlice sl) i) = true) →
    exec (.learnRequest sl) s = .next (raise (fwdSrc (dieOfSlice sl) 1) evL2LearnFull (keyParams f m).1 (keyParams f m).2 tgt 0 (learnCnt sl 9 (modFwd (fun f => { f with learnQ := mset [] f.learnQ sl rest }) s))))
  ∧ (∀ sl s, sliceOn s sl = false → exec (.learnRequest sl) s = .next s ∧ exec (.hitNotice sl) s = .next s)
  ∧ (∀ sl f m d rest i s, mget [] s.fwd.learnQ sl = .hit f m d :: rest → sliceOn s sl = true → l2Find s (dieOfSlice sl) f m = some i →
    exec (.hitNotice sl) s = .next (tPut (dieOfSlice sl) 0x0201 i (setFld (l2Get s (dieOfSlice sl) i) 87 87 1) (modFwd (fun f => { f with learnQ := mset [] f.learnQ sl rest }) s)))
  ∧ (∀ sl f m d rest i s, mget [] s.fwd.learnQ sl = .hit f m d :: rest → sliceOn s sl = true → l2Find s (dieOfSlice sl) f m = none → l2FreeSlot s (dieOfSlice sl) f m = some i →
    exec (.hitNotice sl) s = .next (learnCnt sl 12 (ownerPut sl i (l2New f m d (msStamp s)) (modFwd (fun f => { f with learnQ := mset [] f.learnQ sl rest }) s))))
  ∧ (∀ die i img rest s, mget [] s.fwd.bcast die = .put i img :: rest →
    exec (.l2Broadcast die) s = .next (applyL2 die (.put i img) (modFwd (fun f => { f with bcast := mset [] f.bcast die rest }) s)) ∧ exec (.l2Delete die) s = .next s)
  ∧ (∀ die i f m rest s, mget [] s.fwd.bcast die = .delete i f m :: rest → exec (.l2Broadcast die) s = .next s)
  ∧ (∀ die i f m rest s, mget [] s.fwd.bcast die = .delete i f m :: rest → l2Holds s die i f m = true → l2Hit (l2Get s die i) = true →
    exec (.l2Delete die) s = .next (sendLearn (l2Owner s f m) (.hit f m (l2Dest (l2Get s die i))) (modFwd (fun f => { f with bcast := mset [] f.bcast die rest }) s)))
  ∧ (∀ die i f m rest s, mget [] s.fwd.bcast die = .delete i f m :: rest → l2Hit (l2Get s die i) = false →
    exec (.l2Delete die) s = .next (applyL2 die (.delete i f m) (modFwd (fun f => { f with bcast := mset [] f.bcast die rest }) s)))
  ∧ (∀ sl s, cfgBit s (.fwdAgeCfg (dieOfSlice sl)) 31 = false → exec (.l2AgeVisit sl) s = .next s)
  ∧ (∀ sl i e s, sliceOn s sl = true → cfgBit s (.fwdAgeCfg (dieOfSlice sl)) 31 = true → s.pwr.committed = true → ageNext s sl (mget 0 s.fwd.agePos sl) = some i →
    mget [] s.fwd.learnQ sl = [] → mget 0 s.fwd.ageAt sl + agePeriod s sl * i / 2 ^ 20 ≤ s.now → ageable s sl i = true → l2Get s (dieOfSlice sl) i = e → l2Frozen e = false → l2Moves e = 0 →
    exec (.l2AgeVisit sl) s = .next (let u := modFwd (fun f => { f with agePos := mset 0 f.agePos sl (i + 1), learnQ := mset [] f.learnQ sl [] }) s
      if l2Hit e then broadcast sl (.hitClear i (l2Fid e) (l2Mac e)) (ownerPut sl i (setFld (setFld e 91 88 0) 87 87 0) u)
      else if cfg1 s (.fwdAgeCfg (dieOfSlice sl)) 19 16 ≤ l2Age e + 1 then broadcast sl (.delete i (l2Fid e) (l2Mac e)) (learnCnt sl 11 u)
      else ownerPut sl i (setFld e 91 88 (l2Age e + 1)) u))

/-- An update of an entry one unit wide takes one unit write; a wider one first clears the entry's valid bit, then one
unit per write, and the last puts the whole image into both copies and clears its suspect mark; a write outside the
reserved slots counts a bubble; with no update pending nothing happens. A scrub visit rewrites an entry that differs
from its SRAM copy and clears the mark of one whose rewrites have read back, or marks it until the driver writes it
and raises MB_UNIT_FAULT when the rewrite does not read back; the next unit is visited next. A compare is off, counts
a cycle while its block is stale and reports it once, is abandoned up to four times after a write, and otherwise
compares the value with the digest. Each of these rows completes on the conditions of its clause, exec answering the
next state with that effect: matchBankUnitWrite, matchBankScrub, shadowCompare. (R115, R116, R164, R165, R166) -/
def Obligations.MatchBankRows : Prop :=
  (∀ p b r s, hasPipe s.part p = true → b < 8 → bankUpdates s p b = [] → exec (.matchBankUnitWrite p b r) s = .next s)
  ∧ (∀ p b r u rest s, hasPipe s.part p = true → b < 8 → bankUpdates s p b = u :: rest → u.cmd = none → u.done + 1 = (if u.width = 1 then 1 else u.width + 1) →
    ∃ t, exec (.matchBankUnitWrite p b r) s = .next t ∧ bankUpdates t p b = rest ∧ tcamEntry t p u.addr = u.image ∧ mget 0 t.cls.sram (unitKey p u.addr) = u.image
      ∧ mget false t.cls.suspect (unitKey p u.addr) = false)
  ∧ (∀ p b r u rest s, hasPipe s.part p = true → b < 8 → bankUpdates s p b = u :: rest → u.done = 0 → u.width ≠ 1 → u.width ≠ 0 →
    ∃ t, exec (.matchBankUnitWrite p b r) s = .next t ∧ bankUpdates t p b = { u with done := 1 } :: rest ∧ tcamEntry t p u.addr = clearValid u.width (tcamEntry s p u.addr)
      ∧ t.cls.sram = s.cls.sram)
  ∧ (∀ p b r u rest s, hasPipe s.part p = true → b < 8 → bankUpdates s p b = u :: rest → u.done ≠ 0 → u.done < u.width →
    ∃ t, exec (.matchBankUnitWrite p b r) s = .next t ∧ bankUpdates t p b = { u with done := u.done + 1 } :: rest ∧ t.cls.tcam = s.cls.tcam ∧ t.cls.sram = s.cls.sram)
  ∧ (∀ p b u rest s, hasPipe s.part p = true → b < 8 → bankUpdates s p b = u :: rest → u.cmd = none →
    ∃ t, exec (.matchBankUnitWrite p b false) s = .next t ∧ t.cnt = (cntInc 0x0182 p 0 s).cnt)
  ∧ (∀ p b a w k s, hasPipe s.part p = true → b < 8 → mget 0 s.cls.scrub (8 * p + b) = k → bankWidth s p b = w → tcamEntry s p (2048 * b + (k - k % w)) = sramEntry s p (2048 * b + (k - k % w)) →
    exec (.matchBankScrub p b a) s = .next (modCls (fun c => { c with scrub := mset 0 c.scrub (8 * p + b) ((k + 1) % 2048) }) s))
  ∧ (∀ p b w k e s, hasPipe s.part p = true → b < 8 → mget 0 s.cls.scrub (8 * p + b) = k → bankWidth s p b = w → e = 2048 * b + (k - k % w) → tcamEntry s p e ≠ sramEntry s p e → bankUpdates s p b = [] →
    ∃ t, exec (.matchBankScrub p b true) s = .next t ∧ tcamEntry t p e = sramEntry s p e ∧ mget 0 t.cls.scrub (8 * p + b) = (k + 1) % 2048
      ∧ mget false t.cls.suspect (unitKey p e) = (mget false s.cls.failed (unitKey p e) && mget false s.cls.suspect (unitKey p e)))
  ∧ (∀ p b w k e s, hasPipe s.part p = true → b < 8 → mget 0 s.cls.scrub (8 * p + b) = k → bankWidth s p b = w → e = 2048 * b + (k - k % w) → tcamEntry s p e ≠ sramEntry s p e → bankUpdates s p b = [] →
    ∃ t, exec (.matchBankScrub p b false) s = .next (raise (clsSrc p 1) evMbUnitFault 0 0 0 0 t) ∧ t.cls.tcam = s.cls.tcam ∧ mget false t.cls.suspect (unitKey p e) = true ∧ mget false t.cls.failed (unitKey p e) = true)
  ∧ (∀ d b s, cfgBit s (.fwdCmpCfg d) 31 = false ∨ s.now < (cmpOf s d b).at_ + cfg1 s (.fwdCmpCfg d) 11 0 * 10 ^ 12 → exec (.shadowCompare d b) s = .next s)
  ∧ (∀ d b c s, hasDie s.part d = true → b < 1024 → cfgBit s (.fwdCmpCfg d) 31 = true → cmpOf s d b = c → c.at_ + cfg1 s (.fwdCmpCfg d) 11 0 * 10 ^ 12 ≤ s.now → c.stale = true → c.cycles = 0 →
    ∃ t, exec (.shadowCompare d b) s = .next t ∧ cmpOf t d b = { c with cycles := 1, at_ := s.now })
  ∧ (∀ d b c s, hasDie s.part d = true → b < 1024 → cfgBit s (.fwdCmpCfg d) 31 = true → cmpOf s d b = c → c.at_ + cfg1 s (.fwdCmpCfg d) 11 0 * 10 ^ 12 ≤ s.now → c.stale = true → c.cycles ≠ 0 → c.told = false →
    ∃ t, exec (.shadowCompare d b) s = .next (raise (fwdSrc d 2) evTblDigestStale d b 0 0 t) ∧ cmpOf t d b = { c with cycles := c.cycles + 1, told := true, at_ := s.now })
  ∧ (∀ d b c s, hasDie s.part d = true → b < 1024 → cfgBit s (.fwdCmpCfg d) 31 = true → cmpOf s d b = c → c.at_ + cfg1 s (.fwdCmpCfg d) 11 0 * 10 ^ 12 ≤ s.now → c.stale = false → c.dirty = true → c.abandoned < 4 →
    ∃ t, exec (.shadowCompare d b) s = .next t ∧ cmpOf t d b = { c with dirty := false, abandoned := c.abandoned + 1 })
  ∧ (∀ d b c s, hasDie s.part d = true → b < 1024 → cfgBit s (.fwdCmpCfg d) 31 = true → cmpOf s d b = c → c.at_ + cfg1 s (.fwdCmpCfg d) 11 0 * 10 ^ 12 ≤ s.now → c.stale = false → (c.dirty = false ∨ 4 ≤ c.abandoned) → compareValue s d b = c.digest →
    ∃ t, exec (.shadowCompare d b) s = .next t ∧ cmpOf t d b = { c with suspect := false, abandoned := 0, dirty := false, at_ := s.now })
  ∧ (∀ d b c s, hasDie s.part d = true → b < 1024 → cfgBit s (.fwdCmpCfg d) 31 = true → cmpOf s d b = c → c.at_ + cfg1 s (.fwdCmpCfg d) 11 0 * 10 ^ 12 ≤ s.now → c.stale = false → (c.dirty = false ∨ 4 ≤ c.abandoned) → compareValue s d b ≠ c.digest →
    ∃ t, exec (.shadowCompare d b) s = .next (raise (fwdSrc d 3) evTblDigestMismatch d b (compareValue s d b) c.digest t) ∧ cmpOf t d b = { c with suspect := true, abandoned := 0, dirty := false, at_ := s.now })

/-- A frame at a port that is down, or whose pipeline is not ON, is lost; one that the holding buffer has no room for is
dropped and counted, with BUF_LOSSLESS_OVERRUN when its priority is lossless; otherwise it becomes the last packet of
the intake. The packet at the head of the intake waits while the flow stage is closed, the cycles of a full table
counted in SPEC_CNT 13, or while its cells are not granted, its request standing among those of the die; otherwise it
is written, enters the current epoch and begins its first pass. A recirculating packet that is due begins its next
pass when no replay is due. A good frame passes its check once; a bad one is stomped when it has begun to leave and
dropped when it has not. After a pass or a check the waiting copies of the pipeline are served. Each of these rows
completes on the conditions of its clause, exec answering the next state with that effect: frameReceive, packetPass,
recirculation, frameCheck. (R32, R297, R298, R25, R123, R186, R230, R231, R294) -/
def Obligations.FramesAndPasses : Prop :=
  (∀ port bs s, portUp s port = false ∨ domWorks s (domPipe (pipeOfLane port)) = false → exec (.frameReceive port bs) s = .next s)
  ∧ (∀ port bs x s, portUp s port = true → domWorks s (domPipe (pipeOfLane port)) = true → portFrame s port bs (rxStamp s port) = x → holdMax < heldBytes s x.pipe + bs.length + 4 → lossless s port x.pri = false →
    exec (.frameReceive port bs) s = .next (cntInc 0x0881 (dieOfPipe x.pipe) 7 (countRx port (bs.length + 4) false s)))
  ∧ (∀ port bs x s, portUp s port = true → domWorks s (domPipe (pipeOfLane port)) = true → portFrame s port bs (rxStamp s port) = x → holdMax < heldBytes s x.pipe + bs.length + 4 → lossless s port x.pri = true →
    exec (.frameReceive port bs) s = .next (raise (bufSrc (dieOfPipe x.pipe) (1 + x.pipe % 4)) evBufLosslessOverrun 0 0 0 0 (cntInc 0x0881 (dieOfPipe x.pipe) 8 (countRx port (bs.length + 4) false s))))
  ∧ (∀ port bs x s, portUp s port = true → domWorks s (domPipe (pipeOfLane port)) = true → portFrame s port bs (rxStamp s port) = x → heldBytes s x.pipe + bs.length + 4 ≤ holdMax →
    ∃ t, exec (.frameReceive port bs) s = .next t ∧ t.pkts = s.pkts ++ [(s.nextPkt, x)] ∧ (pipe t x.pipe).intake = (pipe s x.pipe).intake ++ [s.nextPkt]
      ∧ x.bytes = bs ∧ x.port = port ∧ x.pipe = pipeOfLane port)
  ∧ (∀ p s, (pipe s p).intake = [] ∨ domWorks s (domPipe p) = false → exec (.packetPass p) s = .next (serveAll p s))
  ∧ (∀ p k rest s, (pipe s p).intake = k :: rest → domWorks s (domPipe p) = true → 8192 ≤ tableCount s p ∨ 4096 ≤ waitCount s p ∨ itemHeld s p = true →
    exec (.packetPass p) s = .next (serveAll p (noteFull p s)))
  ∧ (∀ p t n s, 8192 ≤ tableCount s p → (pipe s p).fullAt = some t → n = (s.now - t) / 625 → n ≠ 0 →
    (noteFull p s).cnt = (specCnt p 13 n s).cnt ∧ (pipe (noteFull p s) p).fullAt = some (t + n * 625))
  ∧ (∀ p k rest u s, (pipe s p).intake = k :: rest → domWorks s (domPipe p) = true → stageOpen s p = true → itemHeld s p = false → askCells (dieOfPipe p) (frameWaiter s k) (noteFull p s) = (false, u) →
    exec (.packetPass p) s = .next (serveAll p u) ∧ frameWaiter s k ∈ waiters u (dieOfPipe p) ∧ u.pipes = (noteFull p s).pipes)
  ∧ (∀ p k rest r u v w c s, (pipe s p).intake = k :: rest → domWorks s (domPipe p) = true → stageOpen s p = true → itemHeld s p = false →
    askCells (dieOfPipe p) (frameWaiter s k) (noteFull p s) = (true, r) → writeFrame k r = some u →
    v = holdCheck p (modPipe p (fun y => { y with intake := rest }) u) → epochEnter p v = (c, w) →
    exec (.packetPass p) s = .next (serveAll p (afterPass p k (beginPass p k (modPkt k (fun y => { y with
      epoch := c, inEpoch := true, tc := y.pri, prof := cfg w (.prsLaneCfg y.port) 3 0 }) w)))))
  ∧ (∀ p y s, yoyoDue s p true = none → yoyoDue s p false = some y → domWorks s (domPipe p) = true → stageOpen s p = true →
    exec (.recirculation p) s = .next (serveAll p (afterPass p y.pkt (beginPass p y.pkt (yoyoTake p y s)))))
  ∧ (∀ p y s, yoyoDue s p true = some y → exec (.recirculation p) s = .next (serveAll p s))
  ∧ (∀ k ok x s, pktOf s k = some x → x.check ≠ none → exec (.frameCheck k ok) s = .next (each (pipelines s.part) serveAll s))
  ∧ (∀ k x s, pktOf s k = some x → x.check = none → x.deferred = [] → exec (.frameCheck k true) s = .next (each (pipelines s.part) serveAll (confirmPasses x.pipe (checkPass k s))))
  ∧ (∀ k x s, pktOf s k = some x → x.check = none → x.started = true →
    exec (.frameCheck k false) s = .next (each (pipelines s.part) serveAll (confirmPasses x.pipe (stompFrame k true (reportCheck k false s)))))
  ∧ (∀ k x s, pktOf s k = some x → x.check = none → x.started = false →
    exec (.frameCheck k false) s = .next (each (pipelines s.part) serveAll (confirmPasses x.pipe (checkDrop k (reportCheck k false s)))))
  ∧ (∀ k x c l s, pktOf s k = some x → x.check = none → x.deferred = c :: l → exec (.frameCheck k true) s = .next (each (pipelines s.part) serveAll (confirmPasses x.pipe
    (if x.started then stompFrame k false (cntInc 0x0181 x.pipe c (reportCheck k false s)) else deferredFails k c (reportCheck k false s)))))

/-- With no fetched descriptor waiting, nothing is begun. A port that is absent ends the descriptor with NOT_FOUND, a
pipeline whose domain is not ON with DOMAIN_DOWN, a buffer out of its window with the status of the address check.
Otherwise INJECT_PIPE brings the buffer's bytes into the intake of the port's pipeline and completes unless the
completion is suppressed; INJECT_PORT waits until its request for cells is granted, and then writes the frame and puts
it on the queue the descriptor names, completing at once when no stamp is asked for. Each of these rows completes on
the conditions of its clause, exec answering the next state with that effect: injectPort, injectPipe. (R74, R294,
R369) -/
def Obligations.InjectedFrames : Prop :=
  (∀ d s, 256 ≤ d.ring ∨ (ring s (400 + d.ring)).cons ≤ (ring s (400 + d.ring)).begun → exec (.injectPipe d) s = .next s ∧ exec (.injectPort d) s = .next s)
  ∧ (∀ d s, d.ring < 256 → (ring s (400 + d.ring)).begun < (ring s (400 + d.ring)).cons → (allPorts s).contains d.port = false →
    exec (.injectPipe d) s = .next (let u := pruneFetched (400 + d.ring) (modRing (400 + d.ring) (fun r => { r with begun := r.begun + 1 }) s); putCompletion (pairOf u (400 + d.ring)) (cplDesc 0xB1 4 0 d.cookie (400 + d.ring) (ring s (400 + d.ring)).begun 0 ⟨0, 0, 0⟩ 0) u)
    ∧ exec (.injectPort d) s = .next (let u := pruneFetched (400 + d.ring) (modRing (400 + d.ring) (fun r => { r with begun := r.begun + 1 }) s); putCompletion (pairOf u (400 + d.ring)) (cplDesc 0xB0 4 0 d.cookie (400 + d.ring) (ring s (400 + d.ring)).begun 0 ⟨0, 0, 0⟩ 0) u))
  ∧ (∀ d s, d.ring < 256 → (ring s (400 + d.ring)).begun < (ring s (400 + d.ring)).cons → (allPorts s).contains d.port = true → domWorks s (domPipe (pipeOfLane d.port)) = false →
    exec (.injectPipe d) s = .next (let u := pruneFetched (400 + d.ring) (modRing (400 + d.ring) (fun r => { r with begun := r.begun + 1 }) s); putCompletion (pairOf u (400 + d.ring)) (cplDesc 0xB1 9 0 d.cookie (400 + d.ring) (ring s (400 + d.ring)).begun 0 ⟨0, 0, 0⟩ 0) u)
    ∧ exec (.injectPort d) s = .next (let u := pruneFetched (400 + d.ring) (modRing (400 + d.ring) (fun r => { r with begun := r.begun + 1 }) s); putCompletion (pairOf u (400 + d.ring)) (cplDesc 0xB0 9 0 d.cookie (400 + d.ring) (ring s (400 + d.ring)).begun 0 ⟨0, 0, 0⟩ 0) u))
  ∧ (∀ d st u s, d.ring < 256 → (ring s (400 + d.ring)).begun < (ring s (400 + d.ring)).cons → (allPorts s).contains d.port = true → domWorks s (domPipe (pipeOfLane d.port)) = true →
    dmaCheck (400 + d.ring) d.buffer (64 * ceilDiv d.length 64) 64 false s = (st, u) → st ≠ 0 →
    exec (.injectPipe d) s = .next (let u := pruneFetched (400 + d.ring) (modRing (400 + d.ring) (fun r => { r with begun := r.begun + 1 }) u); putCompletion (pairOf u (400 + d.ring)) (cplDesc 0xB1 st 0 d.cookie (400 + d.ring) (ring s (400 + d.ring)).begun 0 ⟨0, 0, 0⟩ 0) u)
    ∧ exec (.injectPort d) s = .next (let u := pruneFetched (400 + d.ring) (modRing (400 + d.ring) (fun r => { r with begun := r.begun + 1 }) u); putCompletion (pairOf u (400 + d.ring)) (cplDesc 0xB0 st 0 d.cookie (400 + d.ring) (ring s (400 + d.ring)).begun 0 ⟨0, 0, 0⟩ 0) u))
  ∧ (∀ d s, d.ring < 256 → (ring s (400 + d.ring)).begun < (ring s (400 + d.ring)).cons → (allPorts s).contains d.port = true → domWorks s (domPipe (pipeOfLane d.port)) = true →
    dmaCheck (400 + d.ring) d.buffer (64 * ceilDiv d.length 64) 64 false s = (0, s) →
    exec (.injectPipe d) s = .next (pruneFetched (400 + d.ring) (modRing (400 + d.ring) (fun r => { r with begun := r.begun + 1 }) (let u := intakeFrame { portFrame s d.port (rdBytes s.host d.buffer d.length) (stampNow s) with check := some true } s
      if d.nocomp then u else putCompletion (pairOf u (400 + d.ring)) (cplDesc 0xB1 0 0 d.cookie (400 + d.ring) (ring s (400 + d.ring)).begun 0 ⟨0, 0, 0⟩ 0) u))))
  ∧ (∀ d p bs u s, d.ring < 256 → (ring s (400 + d.ring)).begun < (ring s (400 + d.ring)).cons → (allPorts s).contains d.port = true → domWorks s (domPipe (pipeOfLane d.port)) = true →
    dmaCheck (400 + d.ring) d.buffer (64 * ceilDiv d.length 64) 64 false s = (0, s) → bs = rdBytes s.host d.buffer d.length → p = pipeOfLane d.port →
    askCells (dieOfPipe p) ⟨12 + p % 4, 2 ^ 32 * (400 + d.ring) + (ring s (400 + d.ring)).begun % 2 ^ 32, cellsFor bs.length, false⟩ s = (false, u) →
    exec (.injectPort d) s = .next u ∧ u.pkts = s.pkts ∧ u.buf.cells = s.buf.cells)
  ∧ (∀ d x bs p ks u v s, d.ring < 256 → (ring s (400 + d.ring)).begun < (ring s (400 + d.ring)).cons → (allPorts s).contains d.port = true → domWorks s (domPipe (pipeOfLane d.port)) = true →
    dmaCheck (400 + d.ring) d.buffer (64 * ceilDiv d.length 64) 64 false s = (0, s) → bs = rdBytes s.host d.buffer d.length → p = pipeOfLane d.port →
    askCells (dieOfPipe p) ⟨12 + p % 4, 2 ^ 32 * (400 + d.ring) + (ring s (400 + d.ring)).begun % 2 ^ 32, cellsFor bs.length, false⟩ s = (true, v) →
    x = { portFrame v d.port bs (stampNow v) with
        epoch := (epochOf v p).cur, tc := d.queue % 16, check := some true, flowOk := true, noticed := true, noticeAt := v.now, settled := true
        inj := some (400 + d.ring, (ring s (400 + d.ring)).begun), oneStep := d.oneStep, stampReq := d.stampReq, nocomp := d.nocomp, cookie := d.cookie
        snap := { hdrs := (parse v p (epochOf v p).cur (cfg v (.prsLaneCfg d.port) 3 0) bs).hdrs } } →
    allocChain (dieOfPipe p) (12 + p % 4) (ownerTag 1 (p % 4)) v.nextPkt 0 (payloads (bs.length + 4) (withFcs bs)) (newPkt x v).2 = some (ks, u) →
    exec (.injectPort d) s = .next (pruneFetched (400 + d.ring) (modRing (400 + d.ring) (fun r => { r with begun := r.begun + 1 }) (queueFrame v.nextPkt p (d.queue % 16) [(d.port, none)] false 0
      (if d.stampReq then modPkt v.nextPkt (fun y => { y with cells := ks }) u
        else injectDone x 0 ⟨0, 0, 0⟩ false (modPkt v.nextPkt (fun y => { y with cells := ks }) u))))))

/-- When a command stands at the front of the queue, a step of the machine is that command's effect on the state with the
queue's rest, whatever the command and the state. (The queue is the model's, log 1.) (R6, R54) -/
def Obligations.StepRunsTheFrontCommand : Prop :=
  ∀ c rest s, s.pending = c :: rest → step s = exec c { s with pending := rest }

/-- With no command waiting, a step advances the model's clock by 1 ns and the time counter by one TIME cycle, and changes
nothing else. (That a step on an empty queue is one TIME cycle is the model's choice, log 1.) (R354) -/
def Obligations.EmptyQueueTicks : Prop :=
  ∀ s, s.pending = [] → step s = .next { s with now := s.now + 1000, tim := countOn s.tim }

/-- In one TIME cycle the counter, counted in units of 2^-44 ns, advances by 2^44 + r, r being the signed 32-bit rate; its
nanoseconds stay below 10^9 by a carry into the seconds and its fraction below 2^44; a stamp shows the upper 16 of the
44 fractional bits. A command that changes the rate leaves the counter's value. (R354) -/
def Obligations.TimeCounterAdvance : Prop :=
  (∀ t : Tim, t.ns < 10 ^ 9 → t.frac < 2 ^ 44 → t.sec + 1 < 2 ^ 64 → fitsI 32 t.rate = true →
    ((((countOn t).sec * 10 ^ 9 + (countOn t).ns) * 2 ^ 44 + (countOn t).frac : Nat) : Int) = (((t.sec * 10 ^ 9 + t.ns) * 2 ^ 44 + t.frac : Nat) : Int) + 2 ^ 44 + t.rate
      ∧ (countOn t).ns < 10 ^ 9 ∧ (countOn t).frac < 2 ^ 44 ∧ (countOn t).rate = t.rate)
  ∧ (∀ r : Int, fitsI 32 r = true ↔ -(2 ^ 31) ≤ r ∧ r < 2 ^ 31)
  ∧ (∀ s, (stampNow s).frac = s.tim.frac / 2 ^ 28 ∧ (stampNow s).ns = s.tim.ns ∧ (stampNow s).sec = s.tim.sec % 2 ^ 48)
  ∧ (∀ h rate s, begins s (.timeSetRate h rate) h.ring → fitsI 32 rate = true →
    ∃ t, exec (.timeSetRate h rate) s = .next t ∧ t.tim = { s.tim with rate := rate })

/-- At reset host memory, table memory, HBM and the counters list nothing, and so are in their one canonical form; no
command waits. (R497, R436) -/
def Obligations.ResetMemoriesCanonical : Prop :=
  Canonical State.reset ∧ State.reset.pending = [] ∧ State.reset.mem = [] ∧ State.reset.tmem = [] ∧ State.reset.cnt = []

/-- From every state in which host memory, table memory, HBM and the counters are in their one canonical form (keys
rising, no entry equal to what an unlisted key reads as), whichever command the step takes and whatever its operands,
the next state has them so too: equal contents stay equal data. (R10, R11, R397, R436, R543) -/
def Obligations.EveryStepKeepsMemoriesCanonical : Prop :=
  ∀ s t, Canonical s → step s = .next t → Canonical t

/-- Whatever the command, of each of the 242 rows of the table, and whatever its operands and the state, exec answers a
next state, with the part number, the model's clock and the commands that wait as they were: a command takes no time
of its own (log 1) and every operation of the table runs. (R2, R3, R6) -/
def Obligations.CommandsLeavePartClockAndQueue : Prop :=
  ∀ c s, ∃ t, exec c s = .next t ∧ t.part = s.part ∧ t.pending = s.pending ∧ t.now = s.now

/-- For every command that stands on a command or inject ring, with every operand at any value its field admits, the
64-byte descriptor that encodes it decodes, on its ring, to the command itself: no bit of an encoding is dropped and
no two commands share one. Byte 0 of the descriptor is the opcode of the command tables. (R11, R45, R54, R55, R56,
R57, R58, R63, R74, R95, R364, R503) -/
def Obligations.DescriptorDecodesToItsCommand : Prop :=
  (∀ i g, ringOf i = some g → i.wf = true → decodeDesc g (encodeDesc i) = some i)
  ∧ (∀ i op, opcodeOf i = some op → fld (encodeDesc i) 7 0 = op)

/-- Whatever the 32-bit address, the register that an access there reaches is the one whose block base, array place and
offset give that address: no two addresses reach one register, and no address reaches another block's register. (R535,
R536, R537, R538) -/
def Obligations.RegisterMapHasOneAddress : Prop :=
  (∀ a r, regAt a = some r → regAddr r = a ∧ a % 4 = 0)
  ∧ (∀ a b r, regAt a = some r → regAt b = some r → a = b)

/-- A stamp is written as 12 bytes: bytes 1-0 the 16-bit binary fraction of a nanosecond, bytes 5-2 the nanoseconds, bytes
11-6 the low 48 bits of the seconds, each little-endian; the stamp the device takes has its nanoseconds below 10^9.
(R63) -/
def Obligations.StampLayout : Prop :=
  (∀ t : Stamp, (stampBytes t).length = 12)
  ∧ (∀ t : Stamp, ofLe (takeBytes (stampBytes t) 0 2) = t.frac % 2 ^ 16 ∧ ofLe (takeBytes (stampBytes t) 2 4) = t.ns % 2 ^ 32
      ∧ ofLe (takeBytes (stampBytes t) 6 6) = t.sec % 2 ^ 48)
  ∧ (∀ s, s.tim.ns < 10 ^ 9 → (stampNow s).ns < 10 ^ 9)

/-- CLS_RECIRC_CFG of pipeline p stands at offset 0x0080 + 4 x (p mod 4) of the CLS block of its die; its one field
max_recirc, bits 2-0, is an LCK field with reset value 3, its other bits are stored by no write and read as zero; the
field is how many recirculations a packet makes after its first pass. (R134) -/
def Obligations.RecirculationLimitRegister : Prop :=
  (∀ p, regAddr (.clsRecircCfg p) = dieBase (p / 4) + 0x80000 + 0x0080 + 4 * (p % 4))
  ∧ (∀ p, accMask (.clsRecircCfg p) .lck = 7#32 ∧ storedMask (.clsRecircCfg p) = 7#32 ∧ stored State.reset (.clsRecircCfg p) = 3#32)
  ∧ (∀ path p v s, writable s path (.clsRecircCfg p) →
    ∃ t, exec (.registerWrite path (regAddr (.clsRecircCfg p)) v) s = .next t
      ∧ stored t (.clsRecircCfg p) = if lockedReg s (.clsRecircCfg p) then stored s (.clsRecircCfg p) else (stored s (.clsRecircCfg p) &&& ~~~7#32) ||| (v &&& 7#32))
  ∧ (∀ p k x sn s, x.passes ≤ cfg s (.clsRecircCfg p) 2 0 →
    ∃ t, recirculate p k x sn s = retagYoyo k t ∧ (pipe t p).yoyo = (pipe s p).yoyo ++ [⟨k, none, s.now + 32000⟩])
  ∧ (∀ p k x y sn s, cfg s (.clsRecircCfg p) 2 0 < x.passes → pktOf s k = some y →
    ∃ t, recirculate p k x sn s = t ∧ pktOf t k = some { y with snap := { sn with disp := 2, dropCnt := some (0x0182, p, 4) } } ∧ t.pipes = s.pipes)

/-- A pass whose packet would send a learn request sends none when its pipeline remembers an identical one (same domain,
address and target) sent less than 8 microseconds before, and FWD_CNT 2 of the owner's die counts it. A request that
is not identical to any remembered one of that age is remembered with its time; the pipeline remembers the last 64.
(R148) -/
def Obligations.LearnRequestsSuppressed : Prop :=
  (∀ k q x t0 s, pktOf s k = some x → q.snap.learn = true → q.snap.srcHit = 2 → (q.snap.fid, q.snap.srcMac, ingressTarget s x.port, t0) ∈ mget [] s.fwd.sent x.pipe → s.now < t0 + 8000000 →
    learnPass k q s = cntInc 0x0281 (dieOfSlice (l2Owner s q.snap.fid q.snap.srcMac)) 2 s)
  ∧ (∀ k q x t0 s, pktOf s k = some x → q.snap.learn = true → q.snap.srcHit = 1 → (q.snap.fid, q.snap.srcMac, ingressTarget s x.port, t0) ∈ mget [] s.fwd.sent x.pipe → s.now < t0 + 8000000 →
    learnPass k q s = cntInc 0x0281 (dieOfSlice (l2Owner s q.snap.fid q.snap.srcMac)) 2 (cntInc 0x0281 (dieOfSlice (l2Owner s q.snap.fid q.snap.srcMac)) 0 s))
  ∧ (∀ k q x s, pktOf s k = some x → q.snap.learn = true → q.snap.srcHit = 2 → cfg s (.fwdPortCfg x.port) 31 30 ≠ 2 →
    (∀ t0, (q.snap.fid, q.snap.srcMac, ingressTarget s x.port, t0) ∈ mget [] s.fwd.sent x.pipe → t0 + 8000000 ≤ s.now) →
    ∃ u, learnPass k q s = sendLearn (l2Owner s q.snap.fid q.snap.srcMac) (.req q.snap.fid q.snap.srcMac (ingressTarget s x.port)) u
      ∧ mget [] u.fwd.sent x.pipe = (mget [] s.fwd.sent x.pipe ++ [(q.snap.fid, q.snap.srcMac, ingressTarget s x.port, s.now)]).drop ((mget [] s.fwd.sent x.pipe).length + 1 - 64))
  ∧ (∀ p f m g s, (mget [] (noteLearn p f m g s).fwd.sent p).length ≤ 64)

/-- Whatever the command, its operands and the state: when the command is neither an access of a register by a path nor a
chip reset or the start after one, every set-up register holds afterwards what it held before. No descriptor, frame,
message, instruction of a core, domain operation, handover or scrub writes one. (R12, R80, R498, R500, R539, R541) -/
def Obligations.OnlyAccessesAndResetsWriteSetUp : Prop :=
  ∀ c s t, isAccess c = false → isReset c = false → exec c s = .next t → t.regs = s.regs

/-- Frames of the host-ring rows and of the ring, pool and basic commands. Each clause says, of the rows it names, that in
every state and with any operands exec answers a next state, and that this state differs from the one before only in
the parts the clause lists ("eventsOf" stands for what an event or a count writes: the events raised, host memory,
counters, the host interface, the check, flash, log and service-port parts). (R48, R53, R54, R61, R79) -/
def Obligations.FrameHostRings : Prop :=
  ((fun f => (leaves (.heartbeat) f)
      ∧ (∀ link page block visible, leaves (.pollRead link page block visible) f)
      ∧ (∀ pool, leaves (.poolEntryRead pool) f)
      ∧ (∀ ring, leaves (.eventProducerWrite ring) f))
    fun s t => { s with host := t.host, hif := t.hif })
  ∧ ((fun f => (∀ link page block, leaves (.pollData link page block) f)
      ∧ (∀ pool, leaves (.puntBufferGrant pool) f)
      ∧ (∀ pool, leaves (.puntPoolTimeout pool) f))
    fun s t => { s.eventsOf t with pkts := t.pkts, buf := t.buf, egs := t.egs })
  ∧ ((fun f => (∀ link vector unmasked, leaves (.msixMessage link vector unmasked) f)
      ∧ (leaves (.pePerstRelease) f)
      ∧ (∀ link rate, leaves (.pcieLinkUp link rate) f))
    fun s t => { s with hif := t.hif })
  ∧ ((fun f => (∀ h, leaves (.nop h) f)
      ∧ (∀ h ring, leaves (.ringSetQuery h ring) f)
      ∧ (∀ h ring sizeCode base, leaves (.ringSetMove h ring sizeCode base) f)
      ∧ (∀ h pool, leaves (.poolSetQuery h pool) f)
      ∧ (∀ h ring index, leaves (.abort h ring index) f)
      ∧ (∀ h, leaves (.fence h) f))
    fun s t => { s with actor := t.actor, host := t.host, cnt := t.cnt, hif := t.hif })
  ∧ ((fun f => (∀ h ring, leaves (.ringSetEnable h ring) f)
      ∧ (∀ h ring, leaves (.ringSetDisable h ring) f))
    fun s t => { s.eventsOf t with actor := t.actor, pkts := t.pkts, buf := t.buf, egs := t.egs })
  ∧ ((fun f => (∀ h pool hostAddr, leaves (.poolSetFlush h pool hostAddr) f)
      ∧ (∀ h m, leaves (.memWrite h m) f))
    fun s t => { s.eventsOf t with actor := t.actor })
  ∧ ((fun f => (∀ h m, leaves (.memRead h m) f)
      ∧ (∀ h m, leaves (.checkScan h m) f))
    fun s t => { s.eventsOf t with actor := t.actor, hbm := t.hbm })
  ∧ (∀ ring index, leaves (.longCommandStep ring index) fun s t => { s.eventsOf t with free := t.free, actor := t.actor, tmem := t.tmem, mem := t.mem, pkts := t.pkts, cls := t.cls, fwd := t.fwd, flow := t.flow, pipes := t.pipes, tsk := t.tsk, buf := t.buf, fab := t.fab, egs := t.egs, hbm := t.hbm })
  ∧ (∀ ring index, leaves (.heldCommandStart ring index) fun s t => { s.eventsOf t with free := t.free, actor := t.actor, tmem := t.tmem, mem := t.mem, pkts := t.pkts, cls := t.cls, fwd := t.fwd, flow := t.flow, pipes := t.pipes, tsk := t.tsk, buf := t.buf, fab := t.fab, egs := t.egs, tim := t.tim, hbm := t.hbm, pwr := t.pwr })
  ∧ (∀ d, leaves (.injectPort d) fun s t => { s.eventsOf t with pkts := t.pkts, nextPkt := t.nextPkt, buf := t.buf, fab := t.fab })
  ∧ (∀ d, leaves (.injectPipe d) fun s t => { s.eventsOf t with pkts := t.pkts, nextPkt := t.nextPkt, pipes := t.pipes, egs := t.egs })

/-- Frames of the table, counter, classifier and forwarding rows. Each clause says, of the rows it names, that in every
state and with any operands exec answers a next state, and that this state differs from the one before only in the
parts the clause lists ("eventsOf" stands for what an event or a count writes: the events raised, host memory,
counters, the host interface, the check, flash, log and service-port parts). (R97, R100, R105, R128, R149, R161) -/
def Obligations.FrameTables : Prop :=
  ((fun f => (∀ h t, leaves (.tableWrite h t) f)
      ∧ (∀ h t, leaves (.digestSet h t) f)
      ∧ (∀ h b, leaves (.g3TableWrite h b) f))
    fun s t => { s.eventsOf t with free := t.free, actor := t.actor, tmem := t.tmem, cls := t.cls, fwd := t.fwd, buf := t.buf, egs := t.egs })
  ∧ ((fun f => (∀ h t, leaves (.tableRead h t) f)
      ∧ (∀ h t, leaves (.tableBulkRead h t) f)
      ∧ (∀ h t, leaves (.tableScan h t) f)
      ∧ (∀ h b, leaves (.g3TableRead h b) f))
    fun s t => { s.eventsOf t with free := t.free, actor := t.actor })
  ∧ ((fun f => (∀ h t, leaves (.tableBulkWrite h t) f)
      ∧ (∀ h b, leaves (.g3CounterRead h b) f))
    fun s t => { s.eventsOf t with actor := t.actor })
  ∧ (∀ h t, leaves (.epochFlip h t) fun s t => { s.eventsOf t with actor := t.actor, cls := t.cls })
  ∧ (∀ h t, leaves (.counterRead h t) fun s t => { s.eventsOf t with free := t.free, actor := t.actor, pipes := t.pipes, buf := t.buf, tim := t.tim, hbm := t.hbm })
  ∧ (∀ h t, leaves (.counterClear h t) fun s t => { s with actor := t.actor, host := t.host, cnt := t.cnt, hif := t.hif, pipes := t.pipes, buf := t.buf, tim := t.tim, hbm := t.hbm })
  ∧ (∀ h, leaves (.g3Nop h) fun s t => { s with actor := t.actor, host := t.host, cnt := t.cnt, hif := t.hif })
  ∧ ((fun f => (∀ slice, leaves (.learnRequest slice) f)
      ∧ (∀ slice, leaves (.hitNotice slice) f)
      ∧ (∀ slice, leaves (.l2AgeVisit slice) f))
    fun s t => { s.eventsOf t with free := t.free, tmem := t.tmem, fwd := t.fwd })
  ∧ (∀ die, leaves (.l2Broadcast die) fun s t => { s with tmem := t.tmem, fwd := t.fwd })
  ∧ (∀ die, leaves (.l2Delete die) fun s t => { s with tmem := t.tmem, cnt := t.cnt, fwd := t.fwd })
  ∧ (∀ die block, leaves (.shadowCompare die block) fun s t => { s.eventsOf t with fwd := t.fwd })
  ∧ (∀ pipe bank reserved, leaves (.matchBankUnitWrite pipe bank reserved) fun s t => { s with actor := t.actor, host := t.host, cnt := t.cnt, hif := t.hif, cls := t.cls })
  ∧ (∀ pipe bank agrees, leaves (.matchBankScrub pipe bank agrees) fun s t => { s.eventsOf t with cls := t.cls })

/-- Frames of the flow rows and the flow commands. Each clause says, of the rows it names, that in every state and with
any operands exec answers a next state, and that this state differs from the one before only in the parts the clause
lists ("eventsOf" stands for what an event or a count writes: the events raised, host memory, counters, the host
interface, the check, flash, log and service-port parts). (R178, R186, R211, R224) -/
def Obligations.FrameFlow : Prop :=
  ((fun f => (∀ slice, leaves (.flowRequest slice) f)
      ∧ (∀ slice, leaves (.frameCheckReport slice) f))
    fun s t => { s.eventsOf t with mem := t.mem, pkts := t.pkts, flow := t.flow, tsk := t.tsk, buf := t.buf, hbm := t.hbm })
  ∧ (∀ slice, leaves (.flowFetchDone slice) fun s t => { s.eventsOf t with free := t.free, mem := t.mem, pkts := t.pkts, cls := t.cls, flow := t.flow, pipes := t.pipes, tsk := t.tsk, buf := t.buf, fab := t.fab, egs := t.egs, hbm := t.hbm })
  ∧ (∀ slice, leaves (.hbmWriteAccepted slice) fun s t => { s with cnt := t.cnt, hif := t.hif, flow := t.flow, tsk := t.tsk, hbm := t.hbm })
  ∧ ((fun f => (∀ slice record, leaves (.createTmoExpiry slice record) f)
      ∧ (∀ slice, leaves (.backendRequest slice) f)
      ∧ (∀ slice, leaves (.flowSweepVisit slice) f)
      ∧ (∀ slice, leaves (.exportRoom slice) f)
      ∧ (∀ slice, leaves (.exportTmoExpiry slice) f)
      ∧ (∀ slice, leaves (.peerEnd slice) f)
      ∧ (∀ slice, leaves (.ctNotice slice) f)
      ∧ (∀ slice record, leaves (.pullAnswer slice record) f))
    fun s t => { s.eventsOf t with mem := t.mem, pkts := t.pkts, cls := t.cls, flow := t.flow, pipes := t.pipes, tsk := t.tsk, buf := t.buf, fab := t.fab, egs := t.egs })
  ∧ (∀ slice, leaves (.ownerSwitch slice) fun s t => { s.eventsOf t with actor := t.actor, mem := t.mem, pkts := t.pkts, flow := t.flow, tsk := t.tsk, buf := t.buf, pwr := t.pwr })
  ∧ ((fun f => (∀ slice record, leaves (.hotLineWritebackDone slice record) f)
      ∧ (∀ slice, leaves (.deltaArrival slice) f))
    fun s t => { s with mem := t.mem, cnt := t.cnt, flow := t.flow })
  ∧ (∀ slice, leaves (.portRelease slice) fun s t => { s with mem := t.mem, flow := t.flow })
  ∧ (∀ slice, leaves (.natBlockFree slice) fun s t => { s with tmem := t.tmem, flow := t.flow })
  ∧ ((fun f => (∀ pipe record, leaves (.deltaSend pipe record) f)
      ∧ (∀ slice pipe, leaves (.flowPull slice pipe) f)
      ∧ (∀ slice, leaves (.horizonStampForm slice) f))
    fun s t => { s with flow := t.flow })
  ∧ ((fun f => (∀ slice pipe, leaves (.answer slice pipe) f)
      ∧ (∀ slice pipe, leaves (.invalidation slice pipe) f)
      ∧ (∀ slice pipe, leaves (.horizonStamp slice pipe) f)
      ∧ (∀ slice pipe, leaves (.finalStamp slice pipe) f)
      ∧ (∀ pipe, leaves (.specTimeout pipe) f)
      ∧ (∀ pipe, leaves (.replay pipe) f))
    fun s t => { s.eventsOf t with tmem := t.tmem, pkts := t.pkts, nextPkt := t.nextPkt, cls := t.cls, fwd := t.fwd, flow := t.flow, pipes := t.pipes, tsk := t.tsk, buf := t.buf, fab := t.fab, egs := t.egs })
  ∧ (∀ slice, leaves (.invalidationAck slice) fun s t => { s with actor := t.actor, host := t.host, cnt := t.cnt, hif := t.hif, flow := t.flow })
  ∧ (∀ packet, leaves (.confirmNotice packet) fun s t => { s.eventsOf t with pkts := t.pkts, cls := t.cls, flow := t.flow, pipes := t.pipes, tsk := t.tsk, buf := t.buf, fab := t.fab, egs := t.egs })
  ∧ (∀ pipe record, leaves (.unstableEntryExpiry pipe record) fun s t => { s with pipes := t.pipes })
  ∧ (∀ pipe slice, leaves (.stallNsExpiry pipe slice) fun s t => { s.eventsOf t with pipes := t.pipes })
  ∧ (∀ h t, leaves (.flowWrite h t) fun s t => { s.eventsOf t with free := t.free, actor := t.actor, mem := t.mem, pkts := t.pkts, cls := t.cls, flow := t.flow, pipes := t.pipes, tsk := t.tsk, buf := t.buf, fab := t.fab, egs := t.egs, hbm := t.hbm })
  ∧ ((fun f => (∀ h t, leaves (.flowDelete h t) f)
      ∧ (∀ h record, leaves (.g3FlowDelete h record) f))
    fun s t => { s.eventsOf t with actor := t.actor, mem := t.mem, pkts := t.pkts, cls := t.cls, flow := t.flow, pipes := t.pipes, tsk := t.tsk, buf := t.buf, fab := t.fab, egs := t.egs })
  ∧ ((fun f => (∀ h t, leaves (.flowRead h t) f)
      ∧ (∀ h t, leaves (.flowRestore h t) f))
    fun s t => { s.eventsOf t with actor := t.actor })

/-- Frames of the core, task and firmware rows. Each clause says, of the rows it names, that in every state and with any
operands exec answers a next state, and that this state differs from the one before only in the parts the clause lists
("eventsOf" stands for what an event or a count writes: the events raised, host memory, counters, the host interface,
the check, flash, log and service-port parts). (R240, R247, R253, R270, R276) -/
def Obligations.FrameCores : Prop :=
  ((fun f => (∀ core, leaves (.coreInstruction core) f)
      ∧ (∀ core rs1, leaves (.wkRel core rs1) f)
      ∧ (∀ core rs1 rs2, leaves (.wkHand core rs1 rs2) f)
      ∧ (∀ core rd rs1, leaves (.wkCancel core rd rs1) f)
      ∧ (∀ slice, leaves (.close slice) f)
      ∧ (∀ core, leaves (.runLimitExpiry core) f))
    fun s t => { s.eventsOf t with mem := t.mem, pkts := t.pkts, cls := t.cls, flow := t.flow, pipes := t.pipes, tsk := t.tsk, buf := t.buf, fab := t.fab, egs := t.egs })
  ∧ ((fun f => (∀ core rd, leaves (.wkGet core rd) f)
      ∧ (∀ core, leaves (.wkFlowReply core) f))
    fun s t => { s with tsk := t.tsk })
  ∧ (∀ core rd rs1, leaves (.wkNew core rd rs1) fun s t => { s.eventsOf t with pkts := t.pkts, flow := t.flow, tsk := t.tsk, buf := t.buf })
  ∧ ((fun f => (∀ core rd, leaves (.wkFlow core rd) f)
      ∧ (∀ slice, leaves (.age slice) f)
      ∧ (∀ slice, leaves (.read slice) f))
    fun s t => { s with cnt := t.cnt, flow := t.flow, tsk := t.tsk })
  ∧ ((fun f => (∀ core rs1 rs2, leaves (.wkEvt core rs1 rs2) f)
      ∧ (∀ slice lock, leaves (.holdLimitExpiry slice lock) f)
      ∧ (leaves (.drainUsExpiry) f)
      ∧ (∀ readable, leaves (.rolloutLoadEnd readable) f))
    fun s t => { s.eventsOf t with tsk := t.tsk })
  ∧ (∀ slice, leaves (.commit slice) fun s t => { s.eventsOf t with free := t.free, mem := t.mem, pkts := t.pkts, cls := t.cls, flow := t.flow, pipes := t.pipes, tsk := t.tsk, buf := t.buf, fab := t.fab, egs := t.egs, hbm := t.hbm })
  ∧ (∀ slice, leaves (.reject slice) fun s t => { s.eventsOf t with mem := t.mem, pkts := t.pkts, cls := t.cls, flow := t.flow, pipes := t.pipes, tsk := t.tsk, buf := t.buf })
  ∧ (∀ slice, leaves (.deny slice) fun s t => { s.eventsOf t with mem := t.mem, pkts := t.pkts, cls := t.cls, flow := t.flow, pipes := t.pipes, tsk := t.tsk, buf := t.buf, hbm := t.hbm })
  ∧ ((fun f => (∀ slice, leaves (.setAction slice) f)
      ∧ (∀ slice, leaves (.rebind slice) f)
      ∧ (∀ slice, leaves (.natPort slice) f)
      ∧ (∀ slice, leaves (.setFw slice) f))
    fun s t => { s with mem := t.mem, cnt := t.cnt, flow := t.flow, tsk := t.tsk })
  ∧ (∀ slice, leaves (.export_ slice) fun s t => { s.eventsOf t with flow := t.flow, tsk := t.tsk })
  ∧ (∀ slice, leaves (.natBlock slice) fun s t => { s.eventsOf t with tmem := t.tmem, flow := t.flow, tsk := t.tsk })
  ∧ ((fun f => (∀ slice task, leaves (.timerOperand slice task) f)
      ∧ (∀ slice task operand, leaves (.operandArrival slice task operand) f)
      ∧ (∀ slice, leaves (.taskDispatch slice) f)
      ∧ (∀ core, leaves (.preemption core) f)
      ∧ (leaves (.rolloutClusterDrained) f))
    fun s t => { s with cnt := t.cnt, tsk := t.tsk })
  ∧ ((fun f => (∀ h m, leaves (.fwStage h m) f)
      ∧ (∀ h slot mask drainUs, leaves (.fwSwitch h slot mask drainUs) f))
    fun s t => { s.eventsOf t with actor := t.actor, tsk := t.tsk })

/-- Frames of the frame, fabric, buffer and egress rows. Each clause says, of the rows it names, that in every state and
with any operands exec answers a next state, and that this state differs from the one before only in the parts the
clause lists ("eventsOf" stands for what an event or a count writes: the events raised, host memory, counters, the
host interface, the check, flash, log and service-port parts). (R287, R300, R312, R329, R335) -/
def Obligations.FrameFabric : Prop :=
  ((fun f => (∀ differ, leaves (.arbiterMatch differ) f)
      ∧ (∀ link forward lane intact, leaves (.linkCellReceive link forward lane intact) f)
      ∧ (∀ src dst, leaves (.reseqGapTimeout src dst) f)
      ∧ (∀ packet port, leaves (.mcastHoldExpiry packet port) f))
    fun s t => { s.eventsOf t with pkts := t.pkts, cls := t.cls, flow := t.flow, pipes := t.pipes, buf := t.buf, fab := t.fab, egs := t.egs })
  ∧ (∀ q0 q2, leaves (.arbiterSelfCheckEnd q0 q2) fun s t => { s.eventsOf t with fab := t.fab })
  ∧ ((fun f => (∀ pass, leaves (.failedCopySelfCheck pass) f)
      ∧ (∀ link forward, leaves (.linkNak link forward) f)
      ∧ (∀ link forward, leaves (.linkResendTimeout link forward) f))
    fun s t => { s with cnt := t.cnt, fab := t.fab })
  ∧ (∀ link forward, leaves (.linkAck link forward) fun s t => { s.eventsOf t with pkts := t.pkts, buf := t.buf, fab := t.fab, egs := t.egs })
  ∧ (∀ link lane, leaves (.laneErrorInterval link lane) fun s t => { s.eventsOf t with aligned := t.aligned, fab := t.fab })
  ∧ ((fun f => (∀ die, leaves (.auditStart die) f)
      ∧ (∀ port pri, leaves (.pfcPauseExpiry port pri) f))
    fun s t => { s with buf := t.buf })
  ∧ ((fun f => (∀ die, leaves (.auditEnd die) f)
      ∧ (∀ port pri, leaves (.pfcWatchdogRestoreTimer port pri) f))
    fun s t => { s.eventsOf t with buf := t.buf })
  ∧ (∀ port pri, leaves (.pfcXoffRepeat port pri) fun s t => { s with cnt := t.cnt, buf := t.buf, egs := t.egs })
  ∧ (∀ port frame, leaves (.pfcFrameReceive port frame) fun s t => { s with cnt := t.cnt, buf := t.buf })
  ∧ ((fun f => (∀ port pri, leaves (.pfcWatchdogExpiry port pri) f)
      ∧ (∀ port, leaves (.frameTransmitEnd port) f))
    fun s t => { s.eventsOf t with pkts := t.pkts, cls := t.cls, flow := t.flow, pipes := t.pipes, buf := t.buf, egs := t.egs })
  ∧ ((fun f => (∀ port, leaves (.schedulerSelect port) f)
      ∧ (∀ port, leaves (.gateChange port) f))
    fun s t => { s with cnt := t.cnt, pkts := t.pkts, egs := t.egs })
  ∧ (∀ port corrupt, leaves (.frameTransmitStart port corrupt) fun s t => { s.eventsOf t with free := t.free, pkts := t.pkts, cls := t.cls, flow := t.flow, pipes := t.pipes, buf := t.buf, egs := t.egs })
  ∧ (leaves (.shaperUpdate) fun s t => { s with actor := t.actor, host := t.host, cnt := t.cnt, hif := t.hif, cls := t.cls, egs := t.egs })
  ∧ (∀ port, leaves (.gateListStart port) fun s t => { s.eventsOf t with pkts := t.pkts, egs := t.egs })
  ∧ (∀ die, leaves (.queueSample die) fun s t => { s.eventsOf t with egs := t.egs })
  ∧ (∀ port, leaves (.linkTrainingDone port) fun s t => { s.eventsOf t with egs := t.egs, tim := t.tim })
  ∧ (∀ port, leaves (.linkLoss port) fun s t => { s.eventsOf t with pkts := t.pkts, cls := t.cls, flow := t.flow, pipes := t.pipes, buf := t.buf, egs := t.egs, tim := t.tim })
  ∧ (∀ port rxComp txComp, leaves (.portCompReady port rxComp txComp) fun s t => { s with tim := t.tim })
  ∧ (∀ h t, leaves (.shaperSet h t) fun s t => { s.eventsOf t with actor := t.actor, egs := t.egs })
  ∧ (∀ h t, leaves (.gateLoad h t) fun s t => { s.eventsOf t with actor := t.actor })
  ∧ (∀ port bytes, leaves (.frameReceive port bytes) fun s t => { s.eventsOf t with pkts := t.pkts, nextPkt := t.nextPkt, pipes := t.pipes, egs := t.egs })
  ∧ ((fun f => (∀ pipe, leaves (.packetPass pipe) f)
      ∧ (∀ pipe, leaves (.recirculation pipe) f)
      ∧ (∀ packet fcsOk, leaves (.frameCheck packet fcsOk) f))
    fun s t => { s.eventsOf t with tmem := t.tmem, pkts := t.pkts, nextPkt := t.nextPkt, cls := t.cls, fwd := t.fwd, flow := t.flow, pipes := t.pipes, tsk := t.tsk, buf := t.buf, fab := t.fab, egs := t.egs })

/-- Frames of the time, HBM, integrity, custodian, logbook, life-cycle and power rows. Each clause says, of the rows it
names, that in every state and with any operands exec answers a next state, and that this state differs from the one
before only in the parts the clause lists ("eventsOf" stands for what an event or a count writes: the events raised,
host memory, counters, the host interface, the check, flash, log and service-port parts). (R357, R411, R440, R446,
R457, R477, R500) -/
def Obligations.FrameUnits : Prop :=
  ((fun f => (leaves (.trefLoss) f)
      ∧ (leaves (.pllLock) f)
      ∧ (leaves (.holdoverLimit) f)
      ∧ (∀ output, leaves (.toutEdge output) f)
      ∧ (∀ input falling, leaves (.tinEdge input falling) f)
      ∧ (∀ output, leaves (.synceLaneLoss output) f))
    fun s t => { s.eventsOf t with tim := t.tim })
  ∧ ((fun f => (leaves (.trefValid) f)
      ∧ (∀ output, leaves (.synceUnsquelch output) f))
    fun s t => { s with tim := t.tim })
  ∧ (∀ stack ecc, leaves (.hbmAccess stack ecc) fun s t => { s.eventsOf t with free := t.free, mem := t.mem, pkts := t.pkts, cls := t.cls, flow := t.flow, pipes := t.pipes, tsk := t.tsk, buf := t.buf, fab := t.fab, egs := t.egs, hbm := t.hbm })
  ∧ (∀ stack bank, leaves (.hbmRefresh stack bank) fun s t => { s with cnt := t.cnt, hbm := t.hbm })
  ∧ (∀ stack temp, leaves (.hbmTempRead stack temp) fun s t => { s.eventsOf t with hbm := t.hbm, pwr := t.pwr })
  ∧ ((fun f => (∀ stack rank ecc, leaves (.patrolScrub stack rank ecc) f)
      ∧ (∀ stack rank ecc, leaves (.rankProbe stack rank ecc) f)
      ∧ (∀ badBlocks targetFailed, leaves (.migrationChunk badBlocks targetFailed) f))
    fun s t => { s.eventsOf t with mem := t.mem, pkts := t.pkts, cls := t.cls, flow := t.flow, pipes := t.pipes, tsk := t.tsk, buf := t.buf, fab := t.fab, egs := t.egs, hbm := t.hbm })
  ∧ (∀ stack rank ok, leaves (.rankPrepareEnd stack rank ok) fun s t => { s.eventsOf t with hbm := t.hbm })
  ∧ (∀ die kind address ecc, leaves (.sramScrub die kind address ecc) fun s t => { s.eventsOf t with actor := t.actor, tmem := t.tmem, mem := t.mem, pkts := t.pkts, cls := t.cls, fwd := t.fwd, flow := t.flow, pipes := t.pipes, tsk := t.tsk, buf := t.buf, fab := t.fab, egs := t.egs, tim := t.tim, cus := t.cus, pwr := t.pwr })
  ∧ ((fun f => (∀ die dom, leaves (.clockLoss die dom) f)
      ∧ (∀ domain cause, leaves (.domainFault domain cause) f))
    fun s t => { s.eventsOf t with actor := t.actor, mem := t.mem, pkts := t.pkts, cls := t.cls, fwd := t.fwd, flow := t.flow, pipes := t.pipes, tsk := t.tsk, buf := t.buf, fab := t.fab, egs := t.egs, tim := t.tim, pwr := t.pwr })
  ∧ ((fun f => (∀ path engine high, leaves (.chkFeedResRead path engine high) f)
      ∧ (∀ path, leaves (.logWin7Read path) f))
    fun s t => { s with free := t.free, regs := t.regs, readData := t.readData, log := t.log })
  ∧ ((fun f => (leaves (.cusWatchdogExpiry) f)
      ∧ (∀ cusB pass, leaves (.selfTestEnd cusB pass) f)
      ∧ (leaves (.stringCopyDisagree) f)
      ∧ (∀ crcOk readable, leaves (.preloadEnd crcOk readable) f))
    fun s t => { s.eventsOf t with cus := t.cus })
  ∧ (∀ cause, leaves (.stringRelease cause) fun s t => { s.eventsOf t with mem := t.mem, hbm := t.hbm, cus := t.cus })
  ∧ (∀ cusB, leaves (.stringTake cusB) fun s t => { s.eventsOf t with fwd := t.fwd, flow := t.flow, hbm := t.hbm, cus := t.cus })
  ∧ (leaves (.adoption) fun s t => { s.eventsOf t with mem := t.mem, tsk := t.tsk, hbm := t.hbm, cus := t.cus })
  ∧ (leaves (.checkpoint) fun s t => { s with mem := t.mem, cnt := t.cnt, hbm := t.hbm, cus := t.cus })
  ∧ (∀ cusB actuator value, leaves (.custodianActuatorWrite cusB actuator value) fun s t => { s with cnt := t.cnt, cus := t.cus })
  ∧ ((fun f => (∀ programOk, leaves (.logPersist programOk) f)
      ∧ (∀ rail, leaves (.supplyOutOfRatings rail) f)
      ∧ (∀ rail, leaves (.railWithinTolerance rail) f))
    fun s t => s.eventsOf t)
  ∧ ((fun f => (∀ source value, leaves (.statSample source value) f)
      ∧ (leaves (.logWindowReady) f))
    fun s t => { s with log := t.log })
  ∧ (leaves (.statSnapshot) fun s t => { s with cnt := t.cnt, flash := t.flash, log := t.log })
  ∧ (leaves (.logClearEraseEnd) fun s t => { s with cnt := t.cnt, log := t.log })
  ∧ ((fun f => (∀ path, leaves (.testDone path) f)
      ∧ (∀ path, leaves (.seal_ path) f)
      ∧ (∀ path, leaves (.service path) f)
      ∧ (∀ path, leaves (.logClear path) f)
      ∧ (∀ path, leaves (.keyRotate path) f)
      ∧ (∀ path, leaves (.return_ path) f)
      ∧ (∀ path, leaves (.vendorDebug path) f))
    fun s t => { s with regs := t.regs, cnt := t.cnt, hif := t.hif, lcs := t.lcs })
  ∧ (∀ fusesOk, leaves (.tokenResult fusesOk) fun s t => { s.eventsOf t with free := t.free, actor := t.actor, pkts := t.pkts, cls := t.cls, flow := t.flow, pipes := t.pipes, buf := t.buf, egs := t.egs, tim := t.tim, lcs := t.lcs })
  ∧ (leaves (.zeroisationEnd) fun s t => { s.eventsOf t with tmem := t.tmem, mem := t.mem, pkts := t.pkts, cls := t.cls, fwd := t.fwd, flow := t.flow, pipes := t.pipes, tsk := t.tsk, buf := t.buf, fab := t.fab, egs := t.egs, hbm := t.hbm, cus := t.cus, lcs := t.lcs })
  ∧ (∀ op, leaves (.jtagInstruction op) fun s t => { s with lcs := t.lcs })
  ∧ (∀ domain, leaves (.domainStopDone domain) fun s t => { s.eventsOf t with actor := t.actor, mem := t.mem, pkts := t.pkts, cls := t.cls, fwd := t.fwd, flow := t.flow, pipes := t.pipes, tsk := t.tsk, buf := t.buf, fab := t.fab, egs := t.egs, pwr := t.pwr })
  ∧ (∀ domain pass, leaves (.domainInitDone domain pass) fun s t => { s.eventsOf t with actor := t.actor, cls := t.cls, flow := t.flow, tsk := t.tsk, egs := t.egs, pwr := t.pwr })
  ∧ (∀ domain, leaves (.autoRestart domain) fun s t => { s with cnt := t.cnt, pwr := t.pwr })
  ∧ ((fun f => (∀ die temp, leaves (.dieTempReading die temp) f)
      ∧ (leaves (.startupReady) f))
    fun s t => { s.eventsOf t with pwr := t.pwr })
  ∧ (∀ offset, leaves (.smbusSetOffset offset) fun s t => { s with smb := t.smb })
  ∧ (∀ pecOk, leaves (.smbusRead pecOk) fun s t => { s with free := t.free, regs := t.regs, readData := t.readData, log := t.log, smb := t.smb })
  ∧ (∀ failed, leaves (.hbmTrainingEnd failed) fun s t => { s.eventsOf t with mem := t.mem, flow := t.flow, hbm := t.hbm, pwr := t.pwr })
  ∧ ((fun f => (∀ h, leaves (.timeSetRead h) f)
      ∧ (∀ h, leaves (.domainCtlQuery h) f))
    fun s t => { s with actor := t.actor, host := t.host, cnt := t.cnt, hif := t.hif })
  ∧ (∀ h offset time off, leaves (.timeSetStep h offset time off) fun s t => { s.eventsOf t with actor := t.actor, egs := t.egs, tim := t.tim })
  ∧ ((fun f => (∀ h rate, leaves (.timeSetRate h rate) f)
      ∧ (∀ h c, leaves (.timeSetTout h c) f)
      ∧ (∀ h port delay, leaves (.timeSetPeerDelay h port delay) f))
    fun s t => { s with actor := t.actor, host := t.host, cnt := t.cnt, hif := t.hif, tim := t.tim })
  ∧ ((fun f => (∀ h, leaves (.timeSetMarkTraceable h) f)
      ∧ (∀ h output enable lane divider, leaves (.timeSetSynce h output enable lane divider) f))
    fun s t => { s.eventsOf t with actor := t.actor, tim := t.tim })
  ∧ ((fun f => (∀ h, leaves (.domainCtlOff h) f)
      ∧ (∀ h srcPipe, leaves (.domainCtlRestart h srcPipe) f))
    fun s t => { s.eventsOf t with actor := t.actor, pkts := t.pkts, cls := t.cls, flow := t.flow, pipes := t.pipes, tsk := t.tsk, buf := t.buf, egs := t.egs, tim := t.tim, pwr := t.pwr })
  ∧ (∀ h, leaves (.domainCtlOn h) fun s t => { s.eventsOf t with actor := t.actor, pwr := t.pwr })
  ∧ (∀ h srcPipe, leaves (.domainCtlReinit h srcPipe) fun s t => { s with actor := t.actor, host := t.host, cnt := t.cnt, hif := t.hif, pwr := t.pwr })

/-- Frames of the rows that are an access of a register with an action, or a chip reset. Each clause says, of the rows it
names, that in every state and with any operands exec answers a next state, and that this state differs from the one
before only in the parts the clause lists ("eventsOf" stands for what an event or a count writes: the events raised,
host memory, counters, the host interface, the check, flash, log and service-port parts). A row whose write is turned
away is such a row too. A power-on, a chip reset and a THERMTRIP keep the part number, the waiting commands, the
clock, the events raised, host memory and the boot flash. (R12, R94, R497, R498, R513, R541) -/
def Obligations.FrameAccesses : Prop :=
  ((fun f => (∀ path, leaves (.commitA path) f)
      ∧ (∀ path, leaves (.commitB path) f)
      ∧ (∀ path link, leaves (.ringRestart path link) f)
      ∧ (∀ link cause, leaves (.hostInterfaceReset link cause) f))
    fun s t => { s.eventsOf t with actor := t.actor, pkts := t.pkts, flow := t.flow, tsk := t.tsk, buf := t.buf, egs := t.egs, pwr := t.pwr })
  ∧ (∀ path, leaves (.commitAll path) fun s t => { s.eventsOf t with egs := t.egs, pwr := t.pwr })
  ∧ (∀ path copy, leaves (.logCopySelect path copy) fun s t => { s with regs := t.regs, cnt := t.cnt, hif := t.hif, flash := t.flash })
  ∧ (∀ path, leaves (.timeUnitReset path) fun s t => { s.eventsOf t with egs := t.egs, tim := t.tim })
  ∧ (∀ path, leaves (.snap path) fun s t => { s with cnt := t.cnt, hif := t.hif, tim := t.tim })
  ∧ ((fun f => (∀ path stack value, leaves (.migStart path stack value) f)
      ∧ (∀ path stack value, leaves (.migAbort path stack value) f))
    fun s t => { s.eventsOf t with regs := t.regs, hbm := t.hbm })
  ∧ (∀ path stack value, leaves (.rankReenable path stack value) fun s t => { s with cnt := t.cnt, hif := t.hif, hbm := t.hbm, flash := t.flash })
  ∧ (∀ path engine value, leaves (.feedStart path engine value) fun s t => { s with free := t.free, regs := t.regs, cnt := t.cnt, hif := t.hif, chk := t.chk })
  ∧ ((fun f => (∀ path engine value, leaves (.chkFeedB path engine value) f)
      ∧ (∀ path engine value, leaves (.chkFeedH path engine value) f)
      ∧ (∀ path engine value, leaves (.chkFeedW path engine value) f))
    fun s t => { s with cnt := t.cnt, hif := t.hif, chk := t.chk })
  ∧ ((fun f => (∀ path, leaves (.preload path) f)
      ∧ (∀ path, leaves (.handover path) f)
      ∧ (∀ path cusB, leaves (.selfTestRetry path cusB) f))
    fun s t => { s.eventsOf t with mem := t.mem, hbm := t.hbm, cus := t.cus })
  ∧ ((fun f => (∀ path value, leaves (.logCursorLoad path value) f)
      ∧ (∀ path value, leaves (.logStatSel path value) f))
    fun s t => { s with cnt := t.cnt, hif := t.hif, regs := t.regs, log := t.log })
  ∧ ((fun f => (∀ path, leaves (.logFreeze path) f)
      ∧ (∀ path, leaves (.logCtrlClear path) f))
    fun s t => { s.eventsOf t with regs := t.regs, lcs := t.lcs })
  ∧ ((fun f => (leaves (.powerOn) f)
      ∧ (leaves (.chipResetPin) f)
      ∧ (∀ die, leaves (.thermtrip die) f)
      ∧ (∀ path, leaves (.chipResetRegister path) f))
    fun s t => { t with part := s.part, pending := s.pending, now := s.now, free := s.free, raised := s.raised, host := s.host, flash := s.flash })
end

