-- ==== Sys2Proof/Laws/Keeps.lean ====
section
/-! SUPPORT. What an operation can do, said once: an operation keeps every property that allows changes of the parts it
writes. A property P allows a part when any new value of it keeps P; of the three memories, the counters and the registers
only single writes and removals are asked for, so a canonical form is such a property too. -/

namespace Sys2Proof.Laws

open Sys2Proof.Machine

/-- P is kept by changes of the parts whose bits are set in m: State's fields, counted from 0 in their order. -/
structure Allows (P : State → Prop) (m : Nat) : Prop where
  free : m.testBit 3 = true → ∀ (s : State) x, P s → P { s with free := x }
  actor : m.testBit 4 = true → ∀ (s : State) x, P s → P { s with actor := x }
  raised : m.testBit 5 = true → ∀ (s : State) x, P s → P { s with raised := x }
  regs : m.testBit 6 = true → ∀ (s : State) x, P s → P { s with regs := x }
  readData : m.testBit 7 = true → ∀ (s : State) x, P s → P { s with readData := x }
  host : m.testBit 8 = true → ∀ (s : State) (a : Nat) (b : Byte), P s → P { s with host := wr8 s.host a b }
  tmem : m.testBit 9 = true → ∀ (s : State) (a : Nat) (b : Byte), P s → P { s with tmem := wr8 s.tmem a b }
  tmemDrop : m.testBit 9 = true → ∀ (s : State) p, P s → P { s with tmem := s.tmem.filter p }
  mem : m.testBit 10 = true → ∀ (s : State) (a : Nat) (b : Byte), P s → P { s with mem := wr8 s.mem a b }
  memDrop : m.testBit 10 = true → ∀ (s : State) p, P s → P { s with mem := s.mem.filter p }
  cnt : m.testBit 11 = true → ∀ (s : State) (k v : Nat), P s → P { s with cnt := mset 0 s.cnt k v }
  cntDrop : m.testBit 11 = true → ∀ (s : State) p, P s → P { s with cnt := s.cnt.filter p }
  hif : m.testBit 12 = true → ∀ (s : State) x, P s → P { s with hif := x }
  pkts : m.testBit 13 = true → ∀ (s : State) x, P s → P { s with pkts := x }
  nextPkt : m.testBit 14 = true → ∀ (s : State) x, P s → P { s with nextPkt := x }
  cls : m.testBit 15 = true → ∀ (s : State) x, P s → P { s with cls := x }
  fwd : m.testBit 16 = true → ∀ (s : State) x, P s → P { s with fwd := x }
  flow : m.testBit 17 = true → ∀ (s : State) x, P s → P { s with flow := x }
  pipes : m.testBit 18 = true → ∀ (s : State) x, P s → P { s with pipes := x }
  aligned : m.testBit 19 = true → ∀ (s : State) x, P s → P { s with aligned := x }
  ctimeBase : m.testBit 20 = true → ∀ (s : State) x, P s → P { s with ctimeBase := x }
  tsk : m.testBit 21 = true → ∀ (s : State) x, P s → P { s with tsk := x }
  buf : m.testBit 22 = true → ∀ (s : State) x, P s → P { s with buf := x }
  fab : m.testBit 23 = true → ∀ (s : State) x, P s → P { s with fab := x }
  egs : m.testBit 24 = true → ∀ (s : State) x, P s → P { s with egs := x }
  tim : m.testBit 25 = true → ∀ (s : State) x, P s → P { s with tim := x }
  hbm : m.testBit 26 = true → ∀ (s : State) x, P s → P { s with hbm := x }
  chk : m.testBit 27 = true → ∀ (s : State) x, P s → P { s with chk := x }
  cus : m.testBit 28 = true → ∀ (s : State) x, P s → P { s with cus := x }
  flash : m.testBit 29 = true → ∀ (s : State) x, P s → P { s with flash := x }
  log : m.testBit 30 = true → ∀ (s : State) x, P s → P { s with log := x }
  lcs : m.testBit 31 = true → ∀ (s : State) x, P s → P { s with lcs := x }
  pwr : m.testBit 32 = true → ∀ (s : State) x, P s → P { s with pwr := x }
  smb : m.testBit 33 = true → ∀ (s : State) x, P s → P { s with smb := x }

variable {P : State → Prop} {m n : Nat}

theorem bit_of_sub (h : m &&& n = n) {i : Nat} (b : n.testBit i = true) : m.testBit i = true := by
  have e := congrArg (·.testBit i) h
  simp [Nat.testBit_and, b] at e
  exact e

/-- Fewer parts are allowed as well. -/
theorem Allows.mono (A : Allows P m) (h : m &&& n = n) : Allows P n :=
  ⟨fun b => A.free (bit_of_sub h b), fun b => A.actor (bit_of_sub h b), fun b => A.raised (bit_of_sub h b), fun b => A.regs (bit_of_sub h b), fun b => A.readData (bit_of_sub h b), fun b => A.host (bit_of_sub h b), fun b => A.tmem (bit_of_sub h b), fun b => A.tmemDrop (bit_of_sub h b), fun b => A.mem (bit_of_sub h b), fun b => A.memDrop (bit_of_sub h b), fun b => A.cnt (bit_of_sub h b), fun b => A.cntDrop (bit_of_sub h b), fun b => A.hif (bit_of_sub h b), fun b => A.pkts (bit_of_sub h b), fun b => A.nextPkt (bit_of_sub h b), fun b => A.cls (bit_of_sub h b), fun b => A.fwd (bit_of_sub h b), fun b => A.flow (bit_of_sub h b), fun b => A.pipes (bit_of_sub h b), fun b => A.aligned (bit_of_sub h b), fun b => A.ctimeBase (bit_of_sub h b), fun b => A.tsk (bit_of_sub h b), fun b => A.buf (bit_of_sub h b), fun b => A.fab (bit_of_sub h b), fun b => A.egs (bit_of_sub h b), fun b => A.tim (bit_of_sub h b), fun b => A.hbm (bit_of_sub h b), fun b => A.chk (bit_of_sub h b), fun b => A.cus (bit_of_sub h b), fun b => A.flash (bit_of_sub h b), fun b => A.log (bit_of_sub h b), fun b => A.lcs (bit_of_sub h b), fun b => A.pwr (bit_of_sub h b), fun b => A.smb (bit_of_sub h b)⟩

/-- Two properties that allow the same parts, together. -/
theorem Allows.and {Q : State → Prop} (A : Allows P m) (B : Allows Q m) : Allows (fun s => P s ∧ Q s) m := by
  constructor <;> intro b s

  · exact fun x h => ⟨A.free b s x h.1, B.free b s x h.2⟩
  · exact fun x h => ⟨A.actor b s x h.1, B.actor b s x h.2⟩
  · exact fun x h => ⟨A.raised b s x h.1, B.raised b s x h.2⟩
  · exact fun x h => ⟨A.regs b s x h.1, B.regs b s x h.2⟩
  · exact fun x h => ⟨A.readData b s x h.1, B.readData b s x h.2⟩
  · exact fun x y h => ⟨A.host b s x y h.1, B.host b s x y h.2⟩
  · exact fun x y h => ⟨A.tmem b s x y h.1, B.tmem b s x y h.2⟩
  · exact fun x h => ⟨A.tmemDrop b s x h.1, B.tmemDrop b s x h.2⟩
  · exact fun x y h => ⟨A.mem b s x y h.1, B.mem b s x y h.2⟩
  · exact fun x h => ⟨A.memDrop b s x h.1, B.memDrop b s x h.2⟩
  · exact fun x y h => ⟨A.cnt b s x y h.1, B.cnt b s x y h.2⟩
  · exact fun x h => ⟨A.cntDrop b s x h.1, B.cntDrop b s x h.2⟩
  · exact fun x h => ⟨A.hif b s x h.1, B.hif b s x h.2⟩
  · exact fun x h => ⟨A.pkts b s x h.1, B.pkts b s x h.2⟩
  · exact fun x h => ⟨A.nextPkt b s x h.1, B.nextPkt b s x h.2⟩
  · exact fun x h => ⟨A.cls b s x h.1, B.cls b s x h.2⟩
  · exact fun x h => ⟨A.fwd b s x h.1, B.fwd b s x h.2⟩
  · exact fun x h => ⟨A.flow b s x h.1, B.flow b s x h.2⟩
  · exact fun x h => ⟨A.pipes b s x h.1, B.pipes b s x h.2⟩
  · exact fun x h => ⟨A.aligned b s x h.1, B.aligned b s x h.2⟩
  · exact fun x h => ⟨A.ctimeBase b s x h.1, B.ctimeBase b s x h.2⟩
  · exact fun x h => ⟨A.tsk b s x h.1, B.tsk b s x h.2⟩
  · exact fun x h => ⟨A.buf b s x h.1, B.buf b s x h.2⟩
  · exact fun x h => ⟨A.fab b s x h.1, B.fab b s x h.2⟩
  · exact fun x h => ⟨A.egs b s x h.1, B.egs b s x h.2⟩
  · exact fun x h => ⟨A.tim b s x h.1, B.tim b s x h.2⟩
  · exact fun x h => ⟨A.hbm b s x h.1, B.hbm b s x h.2⟩
  · exact fun x h => ⟨A.chk b s x h.1, B.chk b s x h.2⟩
  · exact fun x h => ⟨A.cus b s x h.1, B.cus b s x h.2⟩
  · exact fun x h => ⟨A.flash b s x h.1, B.flash b s x h.2⟩
  · exact fun x h => ⟨A.log b s x h.1, B.log b s x h.2⟩
  · exact fun x h => ⟨A.lcs b s x h.1, B.lcs b s x h.2⟩
  · exact fun x h => ⟨A.pwr b s x h.1, B.pwr b s x h.2⟩
  · exact fun x h => ⟨A.smb b s x h.1, B.smb b s x h.2⟩

/-! ### Shapes of definitions -/

theorem keeps_fact {Q : Prop} {v : State} (h : P v) (k : P v → Q) : Q := k h

theorem keeps_fact2 {Q : Prop} {α : Type} {v : α × State} (h : P v.2) (k : P v.2 → Q) : Q := k h

theorem ite_keeps {c : Prop} [Decidable c] {s t : State} (h : P s) (k : P t) : P (if c then s else t) := by
  split <;> assumption

theorem keeps_pair {α : Type} {x : α × State} {a : α} {t : State} (e : x = (a, t)) (h : P x.2) : P t := by
  subst e; exact h

theorem keeps_pairL {α : Type} {x : State × α} {a : α} {t : State} (e : x = (t, a)) (h : P x.1) : P t := by
  subst e; exact h

theorem keeps_triple {α β : Type} {x : α × β × State} {a : α} {b : β} {t : State} (e : x = (a, b, t)) (h : P x.2.2) :
    P t := by
  subst e; exact h

theorem each_keeps {A : Type} (l : List A) (f : A → State → State) (k : ∀ a t, P t → P (f a t)) :
    ∀ s, P s → P (each l f s) := by
  unfold each
  induction l with
  | nil => exact fun s h => h
  | cons a r ih => exact fun s h => ih _ (k a s h)

theorem foldl_keeps {A : Type} (f : State → A → State) (l : List A) (k : ∀ t a, P t → P (f t a)) :
    ∀ s, P s → P (l.foldl f s) := by
  induction l with
  | nil => exact fun s h => h
  | cons a r ih => exact fun s h => ih _ (k s a h)

/-! ### The memories -/

theorem drop_all {A : Type} (l : List A) : l.filter (fun _ => false) = [] := by
  induction l with
  | nil => rfl
  | cons a r ih => simp [List.filter_cons, ih]


theorem Allows.hostBytes (A : Allows P m) (b : m.testBit 8 = true) (bs : List Byte) :
    ∀ (a : Nat) (s : State), P s → P { s with host := wrBytes s.host a bs } := by
  induction bs with
  | nil => exact fun a s h => h
  | cons x r ih => exact fun a s h => ih (a + 1) _ (A.host b s a x h)

theorem Allows.tmemBytes (A : Allows P m) (b : m.testBit 9 = true) (bs : List Byte) :
    ∀ (a : Nat) (s : State), P s → P { s with tmem := wrBytes s.tmem a bs } := by
  induction bs with
  | nil => exact fun a s h => h
  | cons x r ih => exact fun a s h => ih (a + 1) _ (A.tmem b s a x h)

theorem Allows.memBytes (A : Allows P m) (b : m.testBit 10 = true) (bs : List Byte) :
    ∀ (a : Nat) (s : State), P s → P { s with mem := wrBytes s.mem a bs } := by
  induction bs with
  | nil => exact fun a s h => h
  | cons x r ih => exact fun a s h => ih (a + 1) _ (A.mem b s a x h)

end Sys2Proof.Laws
end

