-- ==== Sys2Proof/Laws/Ops.lean ====
section
/-! SUPPORT. What each operation of Machine/Ops.lean can change (Laws/Keeps.lean). -/

namespace Sys2Proof.Laws

open Sys2Proof.Machine

variable {P : State → Prop} {m : Nat}

theorem cntSet_keeps (A : Allows P m) (h : m &&& 2048 = 2048) :
    ∀ s x1 x2 x3 x4, P s → P (cntSet s x1 x2 x3 x4) := by
  intro s a b c v hs
  exact (A.mono h).cnt rfl s _ _ hs

theorem cntAdd_keeps (A : Allows P m) (h : m &&& 2048 = 2048) :
    ∀ x0 x1 x2 x3 s, P s → P (cntAdd x0 x1 x2 x3 s) := by
  have A := A.mono h
  clear h
  have kCntSet := cntSet_keeps A rfl
  intro x0 x1 x2 x3 s  hs
  unfold cntAdd
  repeat' first
    | with_reducible first
        | assumption | refine kCntSet _ _ _ _ _  ?_

theorem cntInc_keeps (A : Allows P m) (h : m &&& 2048 = 2048) :
    ∀ x0 x1 x2 s, P s → P (cntInc x0 x1 x2 s) := by
  have A := A.mono h
  clear h
  have kCntAdd := cntAdd_keeps A rfl
  intro x0 x1 x2 s  hs
  unfold cntInc
  repeat' first
    | with_reducible first
        | assumption | refine kCntAdd _ _ _ _ _  ?_

theorem cntClear_keeps (A : Allows P m) (h : m &&& 2048 = 2048) :
    ∀ x0 s, P s → P (cntClear x0 s) := by
  intro p s hs
  exact (A.mono h).cntDrop rfl s _ hs

theorem modHif_keeps (A : Allows P m) (h : m &&& 4096 = 4096) :
    ∀ x0 s, P s → P (modHif x0 s) := by
  have A := A.mono h
  clear h
  intro x0 s  hs
  unfold modHif
  repeat' first
    | with_reducible first
        | assumption
    | (extract_lets -underBinder +onlyGivenNames x; refine keeps_fact (P := P) (v := x) ?_ ?_; rotate_left; clear_value x; revert x; intro _ _; rotate_left; unfold x; clear x)
    | (extract_lets -underBinder +onlyGivenNames x; clear_value x; revert x; intro _)
    | intro _
    | split
    | with_reducible first | refine keeps_pair (by with_reducible assumption) ?_ | refine keeps_triple (by with_reducible assumption) ?_ | refine keeps_pairL (by with_reducible assumption) ?_ | refine A.hif rfl _ _ ?_

theorem modRing_keeps (A : Allows P m) (h : m &&& 4096 = 4096) :
    ∀ x0 x1 s, P s → P (modRing x0 x1 s) := by
  have A := A.mono h
  clear h
  intro x0 x1 s  hs
  unfold modRing
  repeat' first
    | with_reducible first
        | assumption
    | (extract_lets -underBinder +onlyGivenNames x; refine keeps_fact (P := P) (v := x) ?_ ?_; rotate_left; clear_value x; revert x; intro _ _; rotate_left; unfold x; clear x)
    | (extract_lets -underBinder +onlyGivenNames x; clear_value x; revert x; intro _)
    | intro _
    | split
    | with_reducible first | refine keeps_pair (by with_reducible assumption) ?_ | refine keeps_triple (by with_reducible assumption) ?_ | refine keeps_pairL (by with_reducible assumption) ?_ | refine A.hif rfl _ _ ?_

theorem modPool_keeps (A : Allows P m) (h : m &&& 4096 = 4096) :
    ∀ x0 x1 s, P s → P (modPool x0 x1 s) := by
  have A := A.mono h
  clear h
  intro x0 x1 s  hs
  unfold modPool
  repeat' first
    | with_reducible first
        | assumption
    | (extract_lets -underBinder +onlyGivenNames x; refine keeps_fact (P := P) (v := x) ?_ ?_; rotate_left; clear_value x; revert x; intro _ _; rotate_left; unfold x; clear x)
    | (extract_lets -underBinder +onlyGivenNames x; clear_value x; revert x; intro _)
    | intro _
    | split
    | with_reducible first | refine keeps_pair (by with_reducible assumption) ?_ | refine keeps_triple (by with_reducible assumption) ?_ | refine keeps_pairL (by with_reducible assumption) ?_ | refine A.hif rfl _ _ ?_

theorem modLink_keeps (A : Allows P m) (h : m &&& 4096 = 4096) :
    ∀ x0 x1 s, P s → P (modLink x0 x1 s) := by
  intro l f s hs
  cases l <;> exact (A.mono h).hif rfl s _ hs

theorem modVec_keeps (A : Allows P m) (h : m &&& 4096 = 4096) :
    ∀ x0 x1 x2 s, P s → P (modVec x0 x1 x2 s) := by
  have A := A.mono h
  clear h
  intro x0 x1 x2 s  hs
  unfold modVec
  repeat' first
    | with_reducible first
        | assumption
    | (extract_lets -underBinder +onlyGivenNames x; refine keeps_fact (P := P) (v := x) ?_ ?_; rotate_left; clear_value x; revert x; intro _ _; rotate_left; unfold x; clear x)
    | (extract_lets -underBinder +onlyGivenNames x; clear_value x; revert x; intro _)
    | intro _
    | split
    | with_reducible first | refine keeps_pair (by with_reducible assumption) ?_ | refine keeps_triple (by with_reducible assumption) ?_ | refine keeps_pairL (by with_reducible assumption) ?_ | refine A.hif rfl _ _ ?_

theorem modPkt_keeps (A : Allows P m) (h : m &&& 8192 = 8192) :
    ∀ x0 x1 s, P s → P (modPkt x0 x1 s) := by
  have A := A.mono h
  clear h
  intro x0 x1 s  hs
  unfold modPkt
  repeat' first
    | with_reducible first
        | assumption
    | (extract_lets -underBinder +onlyGivenNames x; refine keeps_fact (P := P) (v := x) ?_ ?_; rotate_left; clear_value x; revert x; intro _ _; rotate_left; unfold x; clear x)
    | (extract_lets -underBinder +onlyGivenNames x; clear_value x; revert x; intro _)
    | intro _
    | split
    | with_reducible first | refine keeps_pair (by with_reducible assumption) ?_ | refine keeps_triple (by with_reducible assumption) ?_ | refine keeps_pairL (by with_reducible assumption) ?_ | refine A.pkts rfl _ _ ?_

theorem dropPkt_keeps (A : Allows P m) (h : m &&& 8192 = 8192) :
    ∀ x0 s, P s → P (dropPkt x0 s) := by
  have A := A.mono h
  clear h
  intro x0 s  hs
  unfold dropPkt
  repeat' first
    | with_reducible first
        | assumption
    | (extract_lets -underBinder +onlyGivenNames x; refine keeps_fact (P := P) (v := x) ?_ ?_; rotate_left; clear_value x; revert x; intro _ _; rotate_left; unfold x; clear x)
    | (extract_lets -underBinder +onlyGivenNames x; clear_value x; revert x; intro _)
    | intro _
    | split
    | with_reducible first | refine keeps_pair (by with_reducible assumption) ?_ | refine keeps_triple (by with_reducible assumption) ?_ | refine keeps_pairL (by with_reducible assumption) ?_ | refine A.pkts rfl _ _ ?_

theorem newPkt_keeps (A : Allows P m) (h : m &&& 24576 = 24576) :
    ∀ x0 s, P s → P (newPkt x0 s).2 := by
  intro p s hs
  have A := A.mono h
  exact A.nextPkt rfl { s with pkts := s.pkts ++ [(s.nextPkt, p)] } _ (A.pkts rfl s _ hs)

theorem modPipe_keeps (A : Allows P m) (h : m &&& 262144 = 262144) :
    ∀ x0 x1 s, P s → P (modPipe x0 x1 s) := by
  have A := A.mono h
  clear h
  intro x0 x1 s  hs
  unfold modPipe
  repeat' first
    | with_reducible first
        | assumption
    | (extract_lets -underBinder +onlyGivenNames x; refine keeps_fact (P := P) (v := x) ?_ ?_; rotate_left; clear_value x; revert x; intro _ _; rotate_left; unfold x; clear x)
    | (extract_lets -underBinder +onlyGivenNames x; clear_value x; revert x; intro _)
    | intro _
    | split
    | with_reducible first | refine keeps_pair (by with_reducible assumption) ?_ | refine keeps_triple (by with_reducible assumption) ?_ | refine keeps_pairL (by with_reducible assumption) ?_ | refine A.pipes rfl _ _ ?_

theorem modSlice_keeps (A : Allows P m) (h : m &&& 131072 = 131072) :
    ∀ x0 x1 s, P s → P (modSlice x0 x1 s) := by
  have A := A.mono h
  clear h
  intro x0 x1 s  hs
  unfold modSlice
  repeat' first
    | with_reducible first
        | assumption
    | (extract_lets -underBinder +onlyGivenNames x; refine keeps_fact (P := P) (v := x) ?_ ?_; rotate_left; clear_value x; revert x; intro _ _; rotate_left; unfold x; clear x)
    | (extract_lets -underBinder +onlyGivenNames x; clear_value x; revert x; intro _)
    | intro _
    | split
    | with_reducible first | refine keeps_pair (by with_reducible assumption) ?_ | refine keeps_triple (by with_reducible assumption) ?_ | refine keeps_pairL (by with_reducible assumption) ?_ | refine A.flow rfl _ _ ?_

theorem modHalf_keeps (A : Allows P m) (h : m &&& 131072 = 131072) :
    ∀ x0 x1 s, P s → P (modHalf x0 x1 s) := by
  have A := A.mono h
  clear h
  intro x0 x1 s  hs
  unfold modHalf
  repeat' first
    | with_reducible first
        | assumption
    | (extract_lets -underBinder +onlyGivenNames x; refine keeps_fact (P := P) (v := x) ?_ ?_; rotate_left; clear_value x; revert x; intro _ _; rotate_left; unfold x; clear x)
    | (extract_lets -underBinder +onlyGivenNames x; clear_value x; revert x; intro _)
    | intro _
    | split
    | with_reducible first | refine keeps_pair (by with_reducible assumption) ?_ | refine keeps_triple (by with_reducible assumption) ?_ | refine keeps_pairL (by with_reducible assumption) ?_ | refine A.flow rfl _ _ ?_

theorem modReplicas_keeps (A : Allows P m) (h : m &&& 131072 = 131072) :
    ∀ x0 x1 s, P s → P (modReplicas x0 x1 s) := by
  have A := A.mono h
  clear h
  intro x0 x1 s  hs
  unfold modReplicas
  repeat' first
    | with_reducible first
        | assumption
    | (extract_lets -underBinder +onlyGivenNames x; refine keeps_fact (P := P) (v := x) ?_ ?_; rotate_left; clear_value x; revert x; intro _ _; rotate_left; unfold x; clear x)
    | (extract_lets -underBinder +onlyGivenNames x; clear_value x; revert x; intro _)
    | intro _
    | split
    | with_reducible first | refine keeps_pair (by with_reducible assumption) ?_ | refine keeps_triple (by with_reducible assumption) ?_ | refine keeps_pairL (by with_reducible assumption) ?_ | refine A.flow rfl _ _ ?_

theorem modWaitings_keeps (A : Allows P m) (h : m &&& 131072 = 131072) :
    ∀ x0 x1 s, P s → P (modWaitings x0 x1 s) := by
  have A := A.mono h
  clear h
  intro x0 x1 s  hs
  unfold modWaitings
  repeat' first
    | with_reducible first
        | assumption
    | (extract_lets -underBinder +onlyGivenNames x; refine keeps_fact (P := P) (v := x) ?_ ?_; rotate_left; clear_value x; revert x; intro _ _; rotate_left; unfold x; clear x)
    | (extract_lets -underBinder +onlyGivenNames x; clear_value x; revert x; intro _)
    | intro _
    | split
    | with_reducible first | refine keeps_pair (by with_reducible assumption) ?_ | refine keeps_triple (by with_reducible assumption) ?_ | refine keeps_pairL (by with_reducible assumption) ?_ | refine A.flow rfl _ _ ?_

theorem modChan_keeps (A : Allows P m) (h : m &&& 131072 = 131072) :
    ∀ x0 x1 x2 s, P s → P (modChan x0 x1 x2 s) := by
  have A := A.mono h
  clear h
  intro x0 x1 x2 s  hs
  unfold modChan
  repeat' first
    | with_reducible first
        | assumption
    | (extract_lets -underBinder +onlyGivenNames x; refine keeps_fact (P := P) (v := x) ?_ ?_; rotate_left; clear_value x; revert x; intro _ _; rotate_left; unfold x; clear x)
    | (extract_lets -underBinder +onlyGivenNames x; clear_value x; revert x; intro _)
    | intro _
    | split
    | with_reducible first | refine keeps_pair (by with_reducible assumption) ?_ | refine keeps_triple (by with_reducible assumption) ?_ | refine keeps_pairL (by with_reducible assumption) ?_ | refine A.flow rfl _ _ ?_

theorem sendChan_keeps (A : Allows P m) (h : m &&& 131072 = 131072) :
    ∀ x0 x1 x2 s, P s → P (sendChan x0 x1 x2 s) := by
  have A := A.mono h
  clear h
  have kModChan := modChan_keeps A rfl
  intro x0 x1 x2 s  hs
  unfold sendChan
  repeat' first
    | with_reducible first
        | assumption | refine kModChan _ _ _ _  ?_
    | (extract_lets -underBinder +onlyGivenNames x; refine keeps_fact (P := P) (v := x) ?_ ?_; rotate_left; clear_value x; revert x; intro _ _; rotate_left; unfold x; clear x)
    | (extract_lets -underBinder +onlyGivenNames x; clear_value x; revert x; intro _)
    | intro _
    | split
    | with_reducible first | refine keeps_pair (by with_reducible assumption) ?_ | refine keeps_triple (by with_reducible assumption) ?_ | refine keeps_pairL (by with_reducible assumption) ?_

theorem modTsk_keeps (A : Allows P m) (h : m &&& 2097152 = 2097152) :
    ∀ x0 s, P s → P (modTsk x0 s) := by
  have A := A.mono h
  clear h
  intro x0 s  hs
  unfold modTsk
  repeat' first
    | with_reducible first
        | assumption
    | (extract_lets -underBinder +onlyGivenNames x; refine keeps_fact (P := P) (v := x) ?_ ?_; rotate_left; clear_value x; revert x; intro _ _; rotate_left; unfold x; clear x)
    | (extract_lets -underBinder +onlyGivenNames x; clear_value x; revert x; intro _)
    | intro _
    | split
    | with_reducible first | refine keeps_pair (by with_reducible assumption) ?_ | refine keeps_triple (by with_reducible assumption) ?_ | refine keeps_pairL (by with_reducible assumption) ?_ | refine A.tsk rfl _ _ ?_

theorem modTask_keeps (A : Allows P m) (h : m &&& 2097152 = 2097152) :
    ∀ x0 x1 x2 s, P s → P (modTask x0 x1 x2 s) := by
  have A := A.mono h
  clear h
  intro x0 x1 x2 s  hs
  unfold modTask
  repeat' first
    | with_reducible first
        | assumption
    | (extract_lets -underBinder +onlyGivenNames x; refine keeps_fact (P := P) (v := x) ?_ ?_; rotate_left; clear_value x; revert x; intro _ _; rotate_left; unfold x; clear x)
    | (extract_lets -underBinder +onlyGivenNames x; clear_value x; revert x; intro _)
    | intro _
    | split
    | with_reducible first | refine keeps_pair (by with_reducible assumption) ?_ | refine keeps_triple (by with_reducible assumption) ?_ | refine keeps_pairL (by with_reducible assumption) ?_ | refine A.tsk rfl _ _ ?_

theorem modLock_keeps (A : Allows P m) (h : m &&& 2097152 = 2097152) :
    ∀ x0 x1 x2 s, P s → P (modLock x0 x1 x2 s) := by
  have A := A.mono h
  clear h
  intro x0 x1 x2 s  hs
  unfold modLock
  repeat' first
    | with_reducible first
        | assumption
    | (extract_lets -underBinder +onlyGivenNames x; refine keeps_fact (P := P) (v := x) ?_ ?_; rotate_left; clear_value x; revert x; intro _ _; rotate_left; unfold x; clear x)
    | (extract_lets -underBinder +onlyGivenNames x; clear_value x; revert x; intro _)
    | intro _
    | split
    | with_reducible first | refine keeps_pair (by with_reducible assumption) ?_ | refine keeps_triple (by with_reducible assumption) ?_ | refine keeps_pairL (by with_reducible assumption) ?_ | refine A.tsk rfl _ _ ?_

theorem modCore_keeps (A : Allows P m) (h : m &&& 2097152 = 2097152) :
    ∀ x0 x1 s, P s → P (modCore x0 x1 s) := by
  have A := A.mono h
  clear h
  intro x0 x1 s  hs
  unfold modCore
  repeat' first
    | with_reducible first
        | assumption
    | (extract_lets -underBinder +onlyGivenNames x; refine keeps_fact (P := P) (v := x) ?_ ?_; rotate_left; clear_value x; revert x; intro _ _; rotate_left; unfold x; clear x)
    | (extract_lets -underBinder +onlyGivenNames x; clear_value x; revert x; intro _)
    | intro _
    | split
    | with_reducible first | refine keeps_pair (by with_reducible assumption) ?_ | refine keeps_triple (by with_reducible assumption) ?_ | refine keeps_pairL (by with_reducible assumption) ?_ | refine A.tsk rfl _ _ ?_

theorem modCluster_keeps (A : Allows P m) (h : m &&& 2097152 = 2097152) :
    ∀ x0 x1 s, P s → P (modCluster x0 x1 s) := by
  have A := A.mono h
  clear h
  intro x0 x1 s  hs
  unfold modCluster
  repeat' first
    | with_reducible first
        | assumption
    | (extract_lets -underBinder +onlyGivenNames x; refine keeps_fact (P := P) (v := x) ?_ ?_; rotate_left; clear_value x; revert x; intro _ _; rotate_left; unfold x; clear x)
    | (extract_lets -underBinder +onlyGivenNames x; clear_value x; revert x; intro _)
    | intro _
    | split
    | with_reducible first | refine keeps_pair (by with_reducible assumption) ?_ | refine keeps_triple (by with_reducible assumption) ?_ | refine keeps_pairL (by with_reducible assumption) ?_ | refine A.tsk rfl _ _ ?_

theorem modBuf_keeps (A : Allows P m) (h : m &&& 4194304 = 4194304) :
    ∀ x0 s, P s → P (modBuf x0 s) := by
  have A := A.mono h
  clear h
  intro x0 s  hs
  unfold modBuf
  repeat' first
    | with_reducible first
        | assumption
    | (extract_lets -underBinder +onlyGivenNames x; refine keeps_fact (P := P) (v := x) ?_ ?_; rotate_left; clear_value x; revert x; intro _ _; rotate_left; unfold x; clear x)
    | (extract_lets -underBinder +onlyGivenNames x; clear_value x; revert x; intro _)
    | intro _
    | split
    | with_reducible first | refine keeps_pair (by with_reducible assumption) ?_ | refine keeps_triple (by with_reducible assumption) ?_ | refine keeps_pairL (by with_reducible assumption) ?_ | refine A.buf rfl _ _ ?_

theorem modPause_keeps (A : Allows P m) (h : m &&& 4194304 = 4194304) :
    ∀ x0 x1 x2 s, P s → P (modPause x0 x1 x2 s) := by
  have A := A.mono h
  clear h
  intro x0 x1 x2 s  hs
  unfold modPause
  repeat' first
    | with_reducible first
        | assumption
    | (extract_lets -underBinder +onlyGivenNames x; refine keeps_fact (P := P) (v := x) ?_ ?_; rotate_left; clear_value x; revert x; intro _ _; rotate_left; unfold x; clear x)
    | (extract_lets -underBinder +onlyGivenNames x; clear_value x; revert x; intro _)
    | intro _
    | split
    | with_reducible first | refine keeps_pair (by with_reducible assumption) ?_ | refine keeps_triple (by with_reducible assumption) ?_ | refine keeps_pairL (by with_reducible assumption) ?_ | refine A.buf rfl _ _ ?_

theorem modFab_keeps (A : Allows P m) (h : m &&& 8388608 = 8388608) :
    ∀ x0 s, P s → P (modFab x0 s) := by
  have A := A.mono h
  clear h
  intro x0 s  hs
  unfold modFab
  repeat' first
    | with_reducible first
        | assumption
    | (extract_lets -underBinder +onlyGivenNames x; refine keeps_fact (P := P) (v := x) ?_ ?_; rotate_left; clear_value x; revert x; intro _ _; rotate_left; unfold x; clear x)
    | (extract_lets -underBinder +onlyGivenNames x; clear_value x; revert x; intro _)
    | intro _
    | split
    | with_reducible first | refine keeps_pair (by with_reducible assumption) ?_ | refine keeps_triple (by with_reducible assumption) ?_ | refine keeps_pairL (by with_reducible assumption) ?_ | refine A.fab rfl _ _ ?_

theorem modDieLink_keeps (A : Allows P m) (h : m &&& 8388608 = 8388608) :
    ∀ x0 x1 s, P s → P (modDieLink x0 x1 s) := by
  have A := A.mono h
  clear h
  intro x0 x1 s  hs
  unfold modDieLink
  repeat' first
    | with_reducible first
        | assumption
    | (extract_lets -underBinder +onlyGivenNames x; refine keeps_fact (P := P) (v := x) ?_ ?_; rotate_left; clear_value x; revert x; intro _ _; rotate_left; unfold x; clear x)
    | (extract_lets -underBinder +onlyGivenNames x; clear_value x; revert x; intro _)
    | intro _
    | split
    | with_reducible first | refine keeps_pair (by with_reducible assumption) ?_ | refine keeps_triple (by with_reducible assumption) ?_ | refine keeps_pairL (by with_reducible assumption) ?_ | refine A.fab rfl _ _ ?_

theorem modVoq_keeps (A : Allows P m) (h : m &&& 8388608 = 8388608) :
    ∀ x0 x1 x2 x3 s, P s → P (modVoq x0 x1 x2 x3 s) := by
  have A := A.mono h
  clear h
  intro x0 x1 x2 x3 s  hs
  unfold modVoq
  repeat' first
    | with_reducible first
        | assumption
    | (extract_lets -underBinder +onlyGivenNames x; refine keeps_fact (P := P) (v := x) ?_ ?_; rotate_left; clear_value x; revert x; intro _ _; rotate_left; unfold x; clear x)
    | (extract_lets -underBinder +onlyGivenNames x; clear_value x; revert x; intro _)
    | intro _
    | split
    | with_reducible first | refine keeps_pair (by with_reducible assumption) ?_ | refine keeps_triple (by with_reducible assumption) ?_ | refine keeps_pairL (by with_reducible assumption) ?_ | refine A.fab rfl _ _ ?_

theorem modEgs_keeps (A : Allows P m) (h : m &&& 16777216 = 16777216) :
    ∀ x0 s, P s → P (modEgs x0 s) := by
  have A := A.mono h
  clear h
  intro x0 s  hs
  unfold modEgs
  repeat' first
    | with_reducible first
        | assumption
    | (extract_lets -underBinder +onlyGivenNames x; refine keeps_fact (P := P) (v := x) ?_ ?_; rotate_left; clear_value x; revert x; intro _ _; rotate_left; unfold x; clear x)
    | (extract_lets -underBinder +onlyGivenNames x; clear_value x; revert x; intro _)
    | intro _
    | split
    | with_reducible first | refine keeps_pair (by with_reducible assumption) ?_ | refine keeps_triple (by with_reducible assumption) ?_ | refine keeps_pairL (by with_reducible assumption) ?_ | refine A.egs rfl _ _ ?_

theorem modEgq_keeps (A : Allows P m) (h : m &&& 16777216 = 16777216) :
    ∀ x0 x1 x2 s, P s → P (modEgq x0 x1 x2 s) := by
  have A := A.mono h
  clear h
  intro x0 x1 x2 s  hs
  unfold modEgq
  repeat' first
    | with_reducible first
        | assumption
    | (extract_lets -underBinder +onlyGivenNames x; refine keeps_fact (P := P) (v := x) ?_ ?_; rotate_left; clear_value x; revert x; intro _ _; rotate_left; unfold x; clear x)
    | (extract_lets -underBinder +onlyGivenNames x; clear_value x; revert x; intro _)
    | intro _
    | split
    | with_reducible first | refine keeps_pair (by with_reducible assumption) ?_ | refine keeps_triple (by with_reducible assumption) ?_ | refine keeps_pairL (by with_reducible assumption) ?_ | refine A.egs rfl _ _ ?_

theorem modLaunch_keeps (A : Allows P m) (h : m &&& 16777216 = 16777216) :
    ∀ x0 x1 s, P s → P (modLaunch x0 x1 s) := by
  have A := A.mono h
  clear h
  intro x0 x1 s  hs
  unfold modLaunch
  repeat' first
    | with_reducible first
        | assumption
    | (extract_lets -underBinder +onlyGivenNames x; refine keeps_fact (P := P) (v := x) ?_ ?_; rotate_left; clear_value x; revert x; intro _ _; rotate_left; unfold x; clear x)
    | (extract_lets -underBinder +onlyGivenNames x; clear_value x; revert x; intro _)
    | intro _
    | split
    | with_reducible first | refine keeps_pair (by with_reducible assumption) ?_ | refine keeps_triple (by with_reducible assumption) ?_ | refine keeps_pairL (by with_reducible assumption) ?_ | refine A.egs rfl _ _ ?_

theorem modGates_keeps (A : Allows P m) (h : m &&& 16777216 = 16777216) :
    ∀ x0 x1 s, P s → P (modGates x0 x1 s) := by
  have A := A.mono h
  clear h
  intro x0 x1 s  hs
  unfold modGates
  repeat' first
    | with_reducible first
        | assumption
    | (extract_lets -underBinder +onlyGivenNames x; refine keeps_fact (P := P) (v := x) ?_ ?_; rotate_left; clear_value x; revert x; intro _ _; rotate_left; unfold x; clear x)
    | (extract_lets -underBinder +onlyGivenNames x; clear_value x; revert x; intro _)
    | intro _
    | split
    | with_reducible first | refine keeps_pair (by with_reducible assumption) ?_ | refine keeps_triple (by with_reducible assumption) ?_ | refine keeps_pairL (by with_reducible assumption) ?_ | refine A.egs rfl _ _ ?_

theorem modTim_keeps (A : Allows P m) (h : m &&& 33554432 = 33554432) :
    ∀ x0 s, P s → P (modTim x0 s) := by
  have A := A.mono h
  clear h
  intro x0 s  hs
  unfold modTim
  repeat' first
    | with_reducible first
        | assumption
    | (extract_lets -underBinder +onlyGivenNames x; refine keeps_fact (P := P) (v := x) ?_ ?_; rotate_left; clear_value x; revert x; intro _ _; rotate_left; unfold x; clear x)
    | (extract_lets -underBinder +onlyGivenNames x; clear_value x; revert x; intro _)
    | intro _
    | split
    | with_reducible first | refine keeps_pair (by with_reducible assumption) ?_ | refine keeps_triple (by with_reducible assumption) ?_ | refine keeps_pairL (by with_reducible assumption) ?_ | refine A.tim rfl _ _ ?_

theorem modHbm_keeps (A : Allows P m) (h : m &&& 67108864 = 67108864) :
    ∀ x0 s, P s → P (modHbm x0 s) := by
  have A := A.mono h
  clear h
  intro x0 s  hs
  unfold modHbm
  repeat' first
    | with_reducible first
        | assumption
    | (extract_lets -underBinder +onlyGivenNames x; refine keeps_fact (P := P) (v := x) ?_ ?_; rotate_left; clear_value x; revert x; intro _ _; rotate_left; unfold x; clear x)
    | (extract_lets -underBinder +onlyGivenNames x; clear_value x; revert x; intro _)
    | intro _
    | split
    | with_reducible first | refine keeps_pair (by with_reducible assumption) ?_ | refine keeps_triple (by with_reducible assumption) ?_ | refine keeps_pairL (by with_reducible assumption) ?_ | refine A.hbm rfl _ _ ?_

theorem modStack_keeps (A : Allows P m) (h : m &&& 67108864 = 67108864) :
    ∀ x0 x1 s, P s → P (modStack x0 x1 s) := by
  have A := A.mono h
  clear h
  intro x0 x1 s  hs
  unfold modStack
  repeat' first
    | with_reducible first
        | assumption
    | (extract_lets -underBinder +onlyGivenNames x; refine keeps_fact (P := P) (v := x) ?_ ?_; rotate_left; clear_value x; revert x; intro _ _; rotate_left; unfold x; clear x)
    | (extract_lets -underBinder +onlyGivenNames x; clear_value x; revert x; intro _)
    | intro _
    | split
    | with_reducible first | refine keeps_pair (by with_reducible assumption) ?_ | refine keeps_triple (by with_reducible assumption) ?_ | refine keeps_pairL (by with_reducible assumption) ?_ | refine A.hbm rfl _ _ ?_

theorem modChk_keeps (A : Allows P m) (h : m &&& 134217728 = 134217728) :
    ∀ x0 s, P s → P (modChk x0 s) := by
  have A := A.mono h
  clear h
  intro x0 s  hs
  unfold modChk
  repeat' first
    | with_reducible first
        | assumption
    | (extract_lets -underBinder +onlyGivenNames x; refine keeps_fact (P := P) (v := x) ?_ ?_; rotate_left; clear_value x; revert x; intro _ _; rotate_left; unfold x; clear x)
    | (extract_lets -underBinder +onlyGivenNames x; clear_value x; revert x; intro _)
    | intro _
    | split
    | with_reducible first | refine keeps_pair (by with_reducible assumption) ?_ | refine keeps_triple (by with_reducible assumption) ?_ | refine keeps_pairL (by with_reducible assumption) ?_ | refine A.chk rfl _ _ ?_

theorem modCus_keeps (A : Allows P m) (h : m &&& 268435456 = 268435456) :
    ∀ x0 s, P s → P (modCus x0 s) := by
  have A := A.mono h
  clear h
  intro x0 s  hs
  unfold modCus
  repeat' first
    | with_reducible first
        | assumption
    | (extract_lets -underBinder +onlyGivenNames x; refine keeps_fact (P := P) (v := x) ?_ ?_; rotate_left; clear_value x; revert x; intro _ _; rotate_left; unfold x; clear x)
    | (extract_lets -underBinder +onlyGivenNames x; clear_value x; revert x; intro _)
    | intro _
    | split
    | with_reducible first | refine keeps_pair (by with_reducible assumption) ?_ | refine keeps_triple (by with_reducible assumption) ?_ | refine keeps_pairL (by with_reducible assumption) ?_ | refine A.cus rfl _ _ ?_

theorem modLog_keeps (A : Allows P m) (h : m &&& 1073741824 = 1073741824) :
    ∀ x0 s, P s → P (modLog x0 s) := by
  have A := A.mono h
  clear h
  intro x0 s  hs
  unfold modLog
  repeat' first
    | with_reducible first
        | assumption
    | (extract_lets -underBinder +onlyGivenNames x; refine keeps_fact (P := P) (v := x) ?_ ?_; rotate_left; clear_value x; revert x; intro _ _; rotate_left; unfold x; clear x)
    | (extract_lets -underBinder +onlyGivenNames x; clear_value x; revert x; intro _)
    | intro _
    | split
    | with_reducible first | refine keeps_pair (by with_reducible assumption) ?_ | refine keeps_triple (by with_reducible assumption) ?_ | refine keeps_pairL (by with_reducible assumption) ?_ | refine A.log rfl _ _ ?_

theorem modFlash_keeps (A : Allows P m) (h : m &&& 536870912 = 536870912) :
    ∀ x0 s, P s → P (modFlash x0 s) := by
  have A := A.mono h
  clear h
  intro x0 s  hs
  unfold modFlash
  repeat' first
    | with_reducible first
        | assumption
    | (extract_lets -underBinder +onlyGivenNames x; refine keeps_fact (P := P) (v := x) ?_ ?_; rotate_left; clear_value x; revert x; intro _ _; rotate_left; unfold x; clear x)
    | (extract_lets -underBinder +onlyGivenNames x; clear_value x; revert x; intro _)
    | intro _
    | split
    | with_reducible first | refine keeps_pair (by with_reducible assumption) ?_ | refine keeps_triple (by with_reducible assumption) ?_ | refine keeps_pairL (by with_reducible assumption) ?_ | refine A.flash rfl _ _ ?_

theorem modLcs_keeps (A : Allows P m) (h : m &&& 2147483648 = 2147483648) :
    ∀ x0 s, P s → P (modLcs x0 s) := by
  have A := A.mono h
  clear h
  intro x0 s  hs
  unfold modLcs
  repeat' first
    | with_reducible first
        | assumption
    | (extract_lets -underBinder +onlyGivenNames x; refine keeps_fact (P := P) (v := x) ?_ ?_; rotate_left; clear_value x; revert x; intro _ _; rotate_left; unfold x; clear x)
    | (extract_lets -underBinder +onlyGivenNames x; clear_value x; revert x; intro _)
    | intro _
    | split
    | with_reducible first | refine keeps_pair (by with_reducible assumption) ?_ | refine keeps_triple (by with_reducible assumption) ?_ | refine keeps_pairL (by with_reducible assumption) ?_ | refine A.lcs rfl _ _ ?_

theorem modPwr_keeps (A : Allows P m) (h : m &&& 4294967296 = 4294967296) :
    ∀ x0 s, P s → P (modPwr x0 s) := by
  have A := A.mono h
  clear h
  intro x0 s  hs
  unfold modPwr
  repeat' first
    | with_reducible first
        | assumption
    | (extract_lets -underBinder +onlyGivenNames x; refine keeps_fact (P := P) (v := x) ?_ ?_; rotate_left; clear_value x; revert x; intro _ _; rotate_left; unfold x; clear x)
    | (extract_lets -underBinder +onlyGivenNames x; clear_value x; revert x; intro _)
    | intro _
    | split
    | with_reducible first | refine keeps_pair (by with_reducible assumption) ?_ | refine keeps_triple (by with_reducible assumption) ?_ | refine keeps_pairL (by with_reducible assumption) ?_ | refine A.pwr rfl _ _ ?_

theorem modDomain_keeps (A : Allows P m) (h : m &&& 4294967296 = 4294967296) :
    ∀ x0 x1 s, P s → P (modDomain x0 x1 s) := by
  have A := A.mono h
  clear h
  intro x0 x1 s  hs
  unfold modDomain
  repeat' first
    | with_reducible first
        | assumption
    | (extract_lets -underBinder +onlyGivenNames x; refine keeps_fact (P := P) (v := x) ?_ ?_; rotate_left; clear_value x; revert x; intro _ _; rotate_left; unfold x; clear x)
    | (extract_lets -underBinder +onlyGivenNames x; clear_value x; revert x; intro _)
    | intro _
    | split
    | with_reducible first | refine keeps_pair (by with_reducible assumption) ?_ | refine keeps_triple (by with_reducible assumption) ?_ | refine keeps_pairL (by with_reducible assumption) ?_ | refine A.pwr rfl _ _ ?_

theorem modCls_keeps (A : Allows P m) (h : m &&& 32768 = 32768) :
    ∀ x0 s, P s → P (modCls x0 s) := by
  have A := A.mono h
  clear h
  intro x0 s  hs
  unfold modCls
  repeat' first
    | with_reducible first
        | assumption
    | (extract_lets -underBinder +onlyGivenNames x; refine keeps_fact (P := P) (v := x) ?_ ?_; rotate_left; clear_value x; revert x; intro _ _; rotate_left; unfold x; clear x)
    | (extract_lets -underBinder +onlyGivenNames x; clear_value x; revert x; intro _)
    | intro _
    | split
    | with_reducible first | refine keeps_pair (by with_reducible assumption) ?_ | refine keeps_triple (by with_reducible assumption) ?_ | refine keeps_pairL (by with_reducible assumption) ?_ | refine A.cls rfl _ _ ?_

theorem modFwd_keeps (A : Allows P m) (h : m &&& 65536 = 65536) :
    ∀ x0 s, P s → P (modFwd x0 s) := by
  have A := A.mono h
  clear h
  intro x0 s  hs
  unfold modFwd
  repeat' first
    | with_reducible first
        | assumption
    | (extract_lets -underBinder +onlyGivenNames x; refine keeps_fact (P := P) (v := x) ?_ ?_; rotate_left; clear_value x; revert x; intro _ _; rotate_left; unfold x; clear x)
    | (extract_lets -underBinder +onlyGivenNames x; clear_value x; revert x; intro _)
    | intro _
    | split
    | with_reducible first | refine keeps_pair (by with_reducible assumption) ?_ | refine keeps_triple (by with_reducible assumption) ?_ | refine keeps_pairL (by with_reducible assumption) ?_ | refine A.fwd rfl _ _ ?_

theorem modCmp_keeps (A : Allows P m) (h : m &&& 65536 = 65536) :
    ∀ x0 x1 x2 s, P s → P (modCmp x0 x1 x2 s) := by
  have A := A.mono h
  clear h
  intro x0 x1 x2 s  hs
  unfold modCmp
  repeat' first
    | with_reducible first
        | assumption
    | (extract_lets -underBinder +onlyGivenNames x; refine keeps_fact (P := P) (v := x) ?_ ?_; rotate_left; clear_value x; revert x; intro _ _; rotate_left; unfold x; clear x)
    | (extract_lets -underBinder +onlyGivenNames x; clear_value x; revert x; intro _)
    | intro _
    | split
    | with_reducible first | refine keeps_pair (by with_reducible assumption) ?_ | refine keeps_triple (by with_reducible assumption) ?_ | refine keeps_pairL (by with_reducible assumption) ?_ | refine A.fwd rfl _ _ ?_

theorem modEpoch_keeps (A : Allows P m) (h : m &&& 32768 = 32768) :
    ∀ x0 x1 s, P s → P (modEpoch x0 x1 s) := by
  have A := A.mono h
  clear h
  intro x0 x1 s  hs
  unfold modEpoch
  repeat' first
    | with_reducible first
        | assumption
    | (extract_lets -underBinder +onlyGivenNames x; refine keeps_fact (P := P) (v := x) ?_ ?_; rotate_left; clear_value x; revert x; intro _ _; rotate_left; unfold x; clear x)
    | (extract_lets -underBinder +onlyGivenNames x; clear_value x; revert x; intro _)
    | intro _
    | split
    | with_reducible first | refine keeps_pair (by with_reducible assumption) ?_ | refine keeps_triple (by with_reducible assumption) ?_ | refine keeps_pairL (by with_reducible assumption) ?_ | refine A.cls rfl _ _ ?_

theorem useFree_keeps (A : Allows P m) (h : m &&& 8 = 8) :
    ∀ s, P s → P (useFree s).2 := by
  intro s hs
  exact (A.mono h).free rfl s _ hs

end Sys2Proof.Laws
end

