-- ==== Sys2Proof/Laws/Flags.lean ====
section
/-! SUPPORT. What each operation of Machine/Flags.lean can change (Laws/Keeps.lean). -/

namespace Sys2Proof.Laws

open Sys2Proof.Machine

variable {P : State → Prop} {m : Nat}

theorem hostWr_keeps (A : Allows P m) (h : m &&& 256 = 256) :
    ∀ x0 x1 s, P s → P (hostWr x0 x1 s) := by
  intro a bs s hs
  exact (A.mono h).hostBytes rfl _ _ s hs

theorem statusWrite_keeps (A : Allows P m) (h : m &&& 256 = 256) :
    ∀ x0 x1 s, P s → P (statusWrite x0 x1 s) := by
  have A := A.mono h
  clear h
  have kHostWr := hostWr_keeps A rfl
  intro x0 x1 s  hs
  unfold statusWrite
  repeat' first
    | with_reducible first
        | assumption | refine kHostWr _ _ _  ?_
    | (extract_lets -underBinder +onlyGivenNames x; refine keeps_fact (P := P) (v := x) ?_ ?_; rotate_left; clear_value x; revert x; intro _ _; rotate_left; unfold x; clear x)
    | (extract_lets -underBinder +onlyGivenNames x; clear_value x; revert x; intro _)
    | split

theorem writeDesc_keeps (A : Allows P m) (h : m &&& 4352 = 4352) :
    ∀ x0 x1 s, P s → P (writeDesc x0 x1 s) := by
  have A := A.mono h
  clear h
  have kHostWr := hostWr_keeps A rfl
  have kModRing := modRing_keeps A rfl
  intro x0 x1 s  hs
  unfold writeDesc
  repeat' first
    | with_reducible first
        | assumption | refine kHostWr _ _ _  ?_ | refine kModRing _ _ _  ?_
    | (extract_lets -underBinder +onlyGivenNames x; refine keeps_fact (P := P) (v := x) ?_ ?_; rotate_left; clear_value x; revert x; intro _ _; rotate_left; unfold x; clear x)
    | (extract_lets -underBinder +onlyGivenNames x; clear_value x; revert x; intro _)
    | intro _

theorem publish_keeps (A : Allows P m) (h : m &&& 4352 = 4352) :
    ∀ x0 x1 s, P s → P (publish x0 x1 s) := by
  have A := A.mono h
  clear h
  have kStatusWrite := statusWrite_keeps A rfl
  have kModRing := modRing_keeps A rfl
  intro x0 x1 s  hs
  unfold publish
  repeat' first
    | with_reducible first
        | assumption | refine kStatusWrite _ _ _  ?_ | refine kModRing _ _ _  ?_
    | (extract_lets -underBinder +onlyGivenNames x; refine keeps_fact (P := P) (v := x) ?_ ?_; rotate_left; clear_value x; revert x; intro _ _; rotate_left; unfold x; clear x)
    | (extract_lets -underBinder +onlyGivenNames x; clear_value x; revert x; intro _)
    | intro _
    | split

theorem devWrite_keeps (A : Allows P m) (h : m &&& 4352 = 4352) :
    ∀ x0 x1 s, P s → P (devWrite x0 x1 s) := by
  have A := A.mono h
  clear h
  have kPublish := publish_keeps A rfl
  have kWriteDesc := writeDesc_keeps A rfl
  intro x0 x1 s  hs
  unfold devWrite
  repeat' first
    | with_reducible first
        | assumption | refine kPublish _ _ _  ?_ | refine kWriteDesc _ _ _  ?_

theorem publishEvent_keeps (A : Allows P m) (h : m &&& 4352 = 4352) :
    ∀ x0 s, P s → P (publishEvent x0 s) := by
  have A := A.mono h
  clear h
  have kPublish := publish_keeps A rfl
  have kModRing := modRing_keeps A rfl
  have kModVec := modVec_keeps A rfl
  intro x0 s  hs
  unfold publishEvent
  repeat' first
    | with_reducible first
        | assumption | refine kPublish _ _ _  ?_ | refine kModRing _ _ _  ?_ | refine kModVec _ _ _ _  ?_
    | (extract_lets -underBinder +onlyGivenNames x; refine keeps_fact (P := P) (v := x) ?_ ?_; rotate_left; clear_value x; revert x; intro _ _; rotate_left; unfold x; clear x)
    | (extract_lets -underBinder +onlyGivenNames x; clear_value x; revert x; intro _)
    | intro _
    | split
    | with_reducible first | refine keeps_pair (by with_reducible assumption) ?_ | refine keeps_triple (by with_reducible assumption) ?_ | refine keeps_pairL (by with_reducible assumption) ?_

theorem newestDesc_keeps (A : Allows P m) (h : m &&& 4352 = 4352) :
    ∀ x0 x1 x2 x3 s, P s → P (newestDesc x0 x1 x2 x3 s) := by
  have A := A.mono h
  clear h
  have kPublishEvent := publishEvent_keeps A rfl
  have kWriteDesc := writeDesc_keeps A rfl
  have kModRing := modRing_keeps A rfl
  intro x0 x1 x2 x3 s  hs
  unfold newestDesc
  repeat' first
    | with_reducible first
        | assumption | refine kPublishEvent _ _  ?_ | refine kWriteDesc _ _ _  ?_ | refine kModRing _ _ _  ?_
    | (extract_lets -underBinder +onlyGivenNames x; refine keeps_fact (P := P) (v := x) ?_ ?_; rotate_left; clear_value x; revert x; intro _ _; rotate_left; unfold x; clear x)
    | (extract_lets -underBinder +onlyGivenNames x; clear_value x; revert x; intro _)
    | intro _

theorem eventLost_keeps (A : Allows P m) (h : m &&& 4352 = 4352) :
    ∀ x0 s, P s → P (eventLost x0 s) := by
  have A := A.mono h
  clear h
  have kNewestDesc := newestDesc_keeps A rfl
  have kModRing := modRing_keeps A rfl
  intro x0 s  hs
  unfold eventLost
  repeat' first
    | with_reducible first
        | assumption | refine kNewestDesc _ _ _ _ _  ?_ | refine kModRing _ _ _  ?_
    | (extract_lets -underBinder +onlyGivenNames x; refine keeps_fact (P := P) (v := x) ?_ ?_; rotate_left; clear_value x; revert x; intro _ _; rotate_left; unfold x; clear x)
    | (extract_lets -underBinder +onlyGivenNames x; clear_value x; revert x; intro _)
    | intro _
    | split
    | with_reducible first | refine keeps_pair (by with_reducible assumption) ?_ | refine keeps_triple (by with_reducible assumption) ?_ | refine keeps_pairL (by with_reducible assumption) ?_

theorem toRing_keeps (A : Allows P m) (h : m &&& 6400 = 6400) :
    ∀ x0 x1 s, P s → P (toRing x0 x1 s).2 := by
  have A := A.mono h
  clear h
  have kModRing := modRing_keeps A rfl
  have kEventLost := eventLost_keeps A rfl
  have kHostWr := hostWr_keeps A rfl
  have kPublishEvent := publishEvent_keeps A rfl
  have kCntInc := cntInc_keeps A rfl
  have kNewestDesc := newestDesc_keeps A rfl
  intro x0 x1 s  hs
  unfold toRing
  repeat' first
    | with_reducible first
        | assumption | refine kModRing _ _ _  ?_ | refine kEventLost _ _  ?_ | refine kHostWr _ _ _  ?_
        | refine kPublishEvent _ _  ?_ | refine kCntInc _ _ _ _  ?_ | refine kNewestDesc _ _ _ _ _  ?_
    | (extract_lets -underBinder +onlyGivenNames x; refine keeps_fact (P := P) (v := x) ?_ ?_; rotate_left; clear_value x; revert x; intro _ _; rotate_left; unfold x; clear x)
    | (extract_lets -underBinder +onlyGivenNames x; clear_value x; revert x; intro _)
    | intro _
    | split
    | with_reducible first | refine keeps_pair (by with_reducible assumption) ?_ | refine keeps_triple (by with_reducible assumption) ?_ | refine keeps_pairL (by with_reducible assumption) ?_

theorem appendRec_keeps (A : Allows P m) (h : m &&& 1610614784 = 1610614784) :
    ∀ x0 x1 x2 x3 s, P s → P (appendRec x0 x1 x2 x3 s) := by
  have A := A.mono h
  clear h
  have kModLog := modLog_keeps A rfl
  have kModFlash := modFlash_keeps A rfl
  have kCntInc := cntInc_keeps A rfl
  intro x0 x1 x2 x3 s  hs
  unfold appendRec
  repeat' first
    | with_reducible first
        | assumption | refine kModLog _ _  ?_ | refine kModFlash _ _  ?_ | refine kCntInc _ _ _ _  ?_
    | (extract_lets -underBinder +onlyGivenNames x; refine keeps_fact (P := P) (v := x) ?_ ?_; rotate_left; clear_value x; revert x; intro _ _; rotate_left; unfold x; clear x)
    | (extract_lets -underBinder +onlyGivenNames x; clear_value x; revert x; intro _)
    | intro _

theorem logLostRec_keeps (A : Allows P m) (h : m &&& 1610614784 = 1610614784) :
    ∀ s, P s → P (logLostRec s) := by
  have A := A.mono h
  clear h
  have kModLog := modLog_keeps A rfl
  have kAppendRec := appendRec_keeps A rfl
  intro s  hs
  unfold logLostRec
  repeat' first
    | with_reducible first
        | assumption | refine kModLog _ _  ?_ | refine kAppendRec _ _ _ _ _  ?_
    | (extract_lets -underBinder +onlyGivenNames x; refine keeps_fact (P := P) (v := x) ?_ ?_; rotate_left; clear_value x; revert x; intro _ _; rotate_left; unfold x; clear x)
    | (extract_lets -underBinder +onlyGivenNames x; clear_value x; revert x; intro _)
    | intro _
    | split
    | with_reducible first | refine keeps_pair (by with_reducible assumption) ?_ | refine keeps_triple (by with_reducible assumption) ?_ | refine keeps_pairL (by with_reducible assumption) ?_

theorem logAccept_keeps (A : Allows P m) (h : m &&& 1610614784 = 1610614784) :
    ∀ x0 x1 s, P s → P (logAccept x0 x1 s) := by
  have A := A.mono h
  clear h
  have kLogLostRec := logLostRec_keeps A rfl
  have kModLog := modLog_keeps A rfl
  have kCntInc := cntInc_keeps A rfl
  have kAppendRec := appendRec_keeps A rfl
  intro x0 x1 s  hs
  unfold logAccept
  repeat' first
    | with_reducible first
        | assumption | refine kLogLostRec _  ?_ | refine kModLog _ _  ?_ | refine kCntInc _ _ _ _  ?_
        | refine kAppendRec _ _ _ _ _  ?_
    | (extract_lets -underBinder +onlyGivenNames x; refine keeps_fact (P := P) (v := x) ?_ ?_; rotate_left; clear_value x; revert x; intro _ _; rotate_left; unfold x; clear x)
    | (extract_lets -underBinder +onlyGivenNames x; clear_value x; revert x; intro _)
    | intro _
    | split
    | with_reducible first | refine keeps_pair (by with_reducible assumption) ?_ | refine keeps_triple (by with_reducible assumption) ?_ | refine keeps_pairL (by with_reducible assumption) ?_

theorem deliver_keeps (A : Allows P m) (h : m &&& 10200553760 = 10200553760) :
    ∀ x0 s, P s → P (deliver x0 s) := by
  have A := A.mono h
  intro e s hs
  unfold deliver
  have h1 := A.raised rfl s (s.raised + 1) hs
  have h2 : ∀ t : State, P t → P (if e.sev = 3 then { t with smb := { t.smb with fatal := true } } else t) := by
    intro t ht
    split
    · exact A.smb rfl t _ ht
    · exact ht
  have h3 := h2 _ h1
  dsimp only
  split
  · exact logAccept_keeps A rfl _ _ _ (toRing_keeps A rfl _ _ _ h3)
  · exact logAccept_keeps A rfl _ _ _ h3

theorem freezeCheck_keeps (A : Allows P m) (h : m &&& 10200553760 = 10200553760) :
    ∀ s, P s → P (freezeCheck s) := by
  have A := A.mono h
  clear h
  have kDeliver := deliver_keeps A rfl
  have kModLog := modLog_keeps A rfl
  intro s  hs
  unfold freezeCheck
  repeat' first
    | with_reducible first
        | assumption | refine kDeliver _ _  ?_ | refine kModLog _ _  ?_
    | intro _
    | split

theorem eventsLapse_keeps (A : Allows P m) (h : m &&& 10334771488 = 10334771488) :
    ∀ s, P s → P (eventsLapse s) := by
  have A := A.mono h
  clear h
  have kCntInc := cntInc_keeps A rfl
  have kDeliver := deliver_keeps A rfl
  have kModChk := modChk_keeps A rfl
  intro s  hs
  unfold eventsLapse
  repeat' first
    | with_reducible first
        | assumption | refine kCntInc _ _ _ _  ?_ | refine kDeliver _ _  ?_ | refine kModChk _ _  ?_
    | intro _
    | split

theorem raiseSev_keeps (A : Allows P m) (h : m &&& 10334771488 = 10334771488) :
    ∀ x0 x1 x2 x3 x4 x5 x6 s, P s → P (raiseSev x0 x1 x2 x3 x4 x5 x6 s) := by
  have A := A.mono h
  clear h
  have kEventsLapse := eventsLapse_keeps A rfl
  have kFreezeCheck := freezeCheck_keeps A rfl
  have kDeliver := deliver_keeps A rfl
  intro x0 x1 x2 x3 x4 x5 x6 s  hs
  unfold raiseSev
  repeat' first
    | with_reducible first
        | assumption | refine kEventsLapse _  ?_ | refine kFreezeCheck _  ?_ | refine kDeliver _ _  ?_
    | split

theorem raise_keeps (A : Allows P m) (h : m &&& 10334771488 = 10334771488) :
    ∀ x0 x1 x2 x3 x4 x5 s, P s → P (raise x0 x1 x2 x3 x4 x5 s) := by
  have A := A.mono h
  clear h
  have kRaiseSev := raiseSev_keeps A rfl
  intro x0 x1 x2 x3 x4 x5 s  hs
  unfold raise
  repeat' first
    | with_reducible first
        | assumption | refine kRaiseSev _ _ _ _ _ _ _ _  ?_

theorem dmaFault_keeps (A : Allows P m) (h : m &&& 10334771488 = 10334771488) :
    ∀ x0 x1 s, P s → P (dmaFault x0 x1 s) := by
  have A := A.mono h
  clear h
  have kModHif := modHif_keeps A rfl
  have kRaise := raise_keeps A rfl
  have kCntInc := cntInc_keeps A rfl
  intro x0 x1 s  hs
  unfold dmaFault
  repeat' first
    | with_reducible first
        | assumption | refine kModHif _ _  ?_ | refine kRaise _ _ _ _ _ _ _  ?_ | refine kCntInc _ _ _ _  ?_
    | (extract_lets -underBinder +onlyGivenNames x; refine keeps_fact (P := P) (v := x) ?_ ?_; rotate_left; clear_value x; revert x; intro _ _; rotate_left; unfold x; clear x)
    | (extract_lets -underBinder +onlyGivenNames x; clear_value x; revert x; intro _)
    | intro _
    | split
    | with_reducible first | refine keeps_pair (by with_reducible assumption) ?_ | refine keeps_triple (by with_reducible assumption) ?_ | refine keeps_pairL (by with_reducible assumption) ?_

theorem dmaCheck_keeps (A : Allows P m) (h : m &&& 10334771488 = 10334771488) :
    ∀ x0 x1 x2 x3 x4 s, P s → P (dmaCheck x0 x1 x2 x3 x4 s).2 := by
  have A := A.mono h
  clear h
  have kDmaFault := dmaFault_keeps A rfl
  intro x0 x1 x2 x3 x4 s  hs
  unfold dmaCheck
  repeat' first
    | with_reducible first
        | assumption | refine kDmaFault _ _ _  ?_
    | (extract_lets -underBinder +onlyGivenNames x; refine keeps_fact (P := P) (v := x) ?_ ?_; rotate_left; clear_value x; revert x; intro _ _; rotate_left; unfold x; clear x)
    | (extract_lets -underBinder +onlyGivenNames x; clear_value x; revert x; intro _)
    | split

theorem publishOf_keeps (A : Allows P m) (h : m &&& 4352 = 4352) :
    ∀ x0 s, P s → P (publishOf x0 s) := by
  have A := A.mono h
  clear h
  have kPublishEvent := publishEvent_keeps A rfl
  intro x0 s  hs
  unfold publishOf
  repeat' first
    | with_reducible first
        | assumption | refine kPublishEvent _ _  ?_ | refine each_keeps _ _ (fun _ _ _ => ?_) _ ?_
    | intro _
    | split
    | with_reducible first | refine keeps_pair (by with_reducible assumption) ?_ | refine keeps_triple (by with_reducible assumption) ?_ | refine keeps_pairL (by with_reducible assumption) ?_

theorem cplWrite_keeps (A : Allows P m) (h : m &&& 4352 = 4352) :
    ∀ x0 x1 s, P s → P (cplWrite x0 x1 s) := by
  have A := A.mono h
  clear h
  have kDevWrite := devWrite_keeps A rfl
  have kPublishOf := publishOf_keeps A rfl
  intro x0 x1 s  hs
  unfold cplWrite
  repeat' first
    | with_reducible first
        | assumption | refine kDevWrite _ _ _  ?_ | refine kPublishOf _ _  ?_

theorem putCompletion_keeps (A : Allows P m) (h : m &&& 6400 = 6400) :
    ∀ x0 x1 s, P s → P (putCompletion x0 x1 s) := by
  have A := A.mono h
  clear h
  have kModRing := modRing_keeps A rfl
  have kCntInc := cntInc_keeps A rfl
  have kCplWrite := cplWrite_keeps A rfl
  intro x0 x1 s  hs
  unfold putCompletion
  repeat' first
    | with_reducible first
        | assumption | refine kModRing _ _ _  ?_ | refine kCntInc _ _ _ _  ?_ | refine kCplWrite _ _ _  ?_
    | (extract_lets -underBinder +onlyGivenNames x; refine keeps_fact (P := P) (v := x) ?_ ?_; rotate_left; clear_value x; revert x; intro _ _; rotate_left; unfold x; clear x)
    | (extract_lets -underBinder +onlyGivenNames x; clear_value x; revert x; intro _)
    | intro _
    | split
    | with_reducible first | refine keeps_pair (by with_reducible assumption) ?_ | refine keeps_triple (by with_reducible assumption) ?_ | refine keeps_pairL (by with_reducible assumption) ?_

theorem releaseHeld_keeps (A : Allows P m) (h : m &&& 4352 = 4352) :
    ∀ x0 x1 s, P s → P (releaseHeld x0 x1 s) := by
  have A := A.mono h
  intro c k
  induction k with
  | zero => exact fun s hs => hs
  | succ n ih =>
    intro s hs
    unfold releaseHeld
    dsimp only
    split
    · exact hs
    · split
      · exact ih _ (cplWrite_keeps A rfl _ _ _ (modRing_keeps A rfl _ _ _ hs))
      · exact hs

end Sys2Proof.Laws
end

