-- ==== Sys2Proof/Laws/Cells.lean ====
section
/-! SUPPORT. What each operation of Machine/Cells.lean can change (Laws/Keeps.lean). -/

namespace Sys2Proof.Laws

open Sys2Proof.Machine

variable {P : State → Prop} {m : Nat}

theorem allocCell_keeps (A : Allows P m) (h : m &&& 4196352 = 4196352) :
    ∀ x0 x1 x2 s, P s → ∀ a t, allocCell x0 x1 x2 s = some (a, t) → P t := by
  have A := A.mono h
  intro d q c s hs k t e
  unfold allocCell at e
  split at e
  · cases e
  · dsimp only at e
    injection e with e
    injection e with e1 e2
    rw [← e2]
    have h1 := fun f => modBuf_keeps A rfl f s hs
    split
    · exact cntSet_keeps A rfl _ _ _ _ _ (h1 _)
    · exact h1 _

theorem allocChain_keeps (A : Allows P m) (h : m &&& 4196352 = 4196352) :
    ∀ x0 x1 x2 x3 x4 x5 s, P s → ∀ a t, allocChain x0 x1 x2 x3 x4 x5 s = some (a, t) → P t := by
  have A := A.mono h
  intro d q tag pkt i l
  induction l generalizing i with
  | nil =>
    intro s hs ks t e
    cases e
    exact hs
  | cons pl rest ih =>
    intro s hs ks t e
    unfold allocChain at e
    split at e
    · cases e
    · rename_i k s1 e1
      have h1 := allocCell_keeps A rfl _ _ _ s hs _ _ e1
      split at e
      · cases e
      · rename_i ks2 s2 e2
        have h2 := ih _ s1 h1 _ _ e2
        cases e
        exact modBuf_keeps A rfl _ _ h2

theorem badFree_keeps (A : Allows P m) (h : m &&& 10334771488 = 10334771488) :
    ∀ x0 x1 x2 s, P s → P (badFree x0 x1 x2 s) := by
  have A := A.mono h
  clear h
  have kRaise := raise_keeps A rfl
  have kCntInc := cntInc_keeps A rfl
  intro x0 x1 x2 s  hs
  unfold badFree
  repeat' first
    | with_reducible first
        | assumption | refine kRaise _ _ _ _ _ _ _  ?_ | refine kCntInc _ _ _ _  ?_
    | (extract_lets -underBinder +onlyGivenNames x; refine keeps_fact (P := P) (v := x) ?_ ?_; rotate_left; clear_value x; revert x; intro _ _; rotate_left; unfold x; clear x)
    | (extract_lets -underBinder +onlyGivenNames x; clear_value x; revert x; intro _)
    | split

theorem moveCell_keeps (A : Allows P m) (h : m &&& 10338965792 = 10338965792) :
    ∀ x0 x1 x2 s, P s → P (moveCell x0 x1 x2 s) := by
  have A := A.mono h
  clear h
  have kBadFree := badFree_keeps A rfl
  have kModBuf := modBuf_keeps A rfl
  intro x0 x1 x2 s  hs
  unfold moveCell
  repeat' first
    | with_reducible first
        | assumption | refine kBadFree _ _ _ _  ?_ | refine kModBuf _ _  ?_
    | (extract_lets -underBinder +onlyGivenNames x; refine keeps_fact (P := P) (v := x) ?_ ?_; rotate_left; clear_value x; revert x; intro _ _; rotate_left; unfold x; clear x)
    | (extract_lets -underBinder +onlyGivenNames x; clear_value x; revert x; intro _)
    | intro _
    | split
    | with_reducible first | refine keeps_pair (by with_reducible assumption) ?_ | refine keeps_triple (by with_reducible assumption) ?_ | refine keeps_pairL (by with_reducible assumption) ?_

theorem freeCell_keeps (A : Allows P m) (h : m &&& 10338965792 = 10338965792) :
    ∀ x0 x1 s, P s → P (freeCell x0 x1 s) := by
  have A := A.mono h
  clear h
  have kBadFree := badFree_keeps A rfl
  have kModBuf := modBuf_keeps A rfl
  intro x0 x1 s  hs
  unfold freeCell
  repeat' first
    | with_reducible first
        | assumption | refine kBadFree _ _ _ _  ?_ | refine kModBuf _ _  ?_
    | intro _
    | split
    | with_reducible first | refine keeps_pair (by with_reducible assumption) ?_ | refine keeps_triple (by with_reducible assumption) ?_ | refine keeps_pairL (by with_reducible assumption) ?_

theorem moveCells_keeps (A : Allows P m) (h : m &&& 10338965792 = 10338965792) :
    ∀ x0 x1 s, P s → P (moveCells x0 x1 s) := by
  have A := A.mono h
  clear h
  have kMoveCell := moveCell_keeps A rfl
  intro x0 x1 s  hs
  unfold moveCells
  repeat' first
    | with_reducible first
        | assumption | refine kMoveCell _ _ _ _  ?_ | refine each_keeps _ _ (fun _ _ _ => ?_) _ ?_
    | intro _

theorem freeOwn_keeps (A : Allows P m) (h : m &&& 10338965792 = 10338965792) :
    ∀ x0 s, P s → P (freeOwn x0 s) := by
  have A := A.mono h
  clear h
  have kFreeCell := freeCell_keeps A rfl
  intro x0 s  hs
  unfold freeOwn
  repeat' first
    | with_reducible first
        | assumption | refine kFreeCell _ _ _  ?_ | refine each_keeps _ _ (fun _ _ _ => ?_) _ ?_
    | intro _

theorem pfcCnt_keeps (A : Allows P m) (h : m &&& 2048 = 2048) :
    ∀ x0 x1 s, P s → P (pfcCnt x0 x1 s) := by
  have A := A.mono h
  clear h
  have kCntInc := cntInc_keeps A rfl
  intro x0 x1 s  hs
  unfold pfcCnt
  repeat' first
    | with_reducible first
        | assumption | refine kCntInc _ _ _ _  ?_

theorem sendPfc_keeps (A : Allows P m) (h : m &&& 16779264 = 16779264) :
    ∀ x0 x1 x2 s, P s → P (sendPfc x0 x1 x2 s) := by
  have A := A.mono h
  clear h
  have kModEgs := modEgs_keeps A rfl
  have kPfcCnt := pfcCnt_keeps A rfl
  intro x0 x1 x2 s  hs
  unfold sendPfc
  repeat' first
    | with_reducible first
        | assumption | refine kModEgs _ _  ?_ | refine kPfcCnt _ _ _  ?_
    | (extract_lets -underBinder +onlyGivenNames x; refine keeps_fact (P := P) (v := x) ?_ ?_; rotate_left; clear_value x; revert x; intro _ _; rotate_left; unfold x; clear x)
    | (extract_lets -underBinder +onlyGivenNames x; clear_value x; revert x; intro _)
    | intro _
    | split

theorem sendXoff_keeps (A : Allows P m) (h : m &&& 16779264 = 16779264) :
    ∀ x0 x1 s, P s → P (sendXoff x0 x1 s) := by
  have A := A.mono h
  clear h
  have kSendPfc := sendPfc_keeps A rfl
  intro x0 x1 s  hs
  unfold sendXoff
  repeat' first
    | with_reducible first
        | assumption | refine kSendPfc _ _ _ _  ?_

theorem sendXon_keeps (A : Allows P m) (h : m &&& 16779264 = 16779264) :
    ∀ x0 x1 s, P s → P (sendXon x0 x1 s) := by
  have A := A.mono h
  clear h
  have kSendPfc := sendPfc_keeps A rfl
  intro x0 x1 s  hs
  unfold sendXon
  repeat' first
    | with_reducible first
        | assumption | refine kSendPfc _ _ _ _  ?_
    | (extract_lets -underBinder +onlyGivenNames x; refine keeps_fact (P := P) (v := x) ?_ ?_; rotate_left; clear_value x; revert x; intro _ _; rotate_left; unfold x; clear x)
    | (extract_lets -underBinder +onlyGivenNames x; clear_value x; revert x; intro _)
    | intro _
    | split
    | with_reducible first | refine keeps_pair (by with_reducible assumption) ?_ | refine keeps_triple (by with_reducible assumption) ?_ | refine keeps_pairL (by with_reducible assumption) ?_

theorem chargeCell_keeps (A : Allows P m) (h : m &&& 20973568 = 20973568) :
    ∀ x0 x1 s, P s → P (chargeCell x0 x1 s) := by
  have A := A.mono h
  clear h
  have kCntInc := cntInc_keeps A rfl
  have kModPause := modPause_keeps A rfl
  have kSendXoff := sendXoff_keeps A rfl
  intro x0 x1 s  hs
  unfold chargeCell
  repeat' first
    | with_reducible first
        | assumption | refine kCntInc _ _ _ _  ?_ | refine kModPause _ _ _ _  ?_ | refine kSendXoff _ _ _  ?_
    | (extract_lets -underBinder +onlyGivenNames x; refine keeps_fact (P := P) (v := x) ?_ ?_; rotate_left; clear_value x; revert x; intro _ _; rotate_left; unfold x; clear x)
    | (extract_lets -underBinder +onlyGivenNames x; clear_value x; revert x; intro _)
    | intro _
    | split
    | with_reducible first | refine keeps_pair (by with_reducible assumption) ?_ | refine keeps_triple (by with_reducible assumption) ?_ | refine keeps_pairL (by with_reducible assumption) ?_

theorem unchargeCell_keeps (A : Allows P m) (h : m &&& 20973568 = 20973568) :
    ∀ x0 x1 s, P s → P (unchargeCell x0 x1 s) := by
  have A := A.mono h
  clear h
  have kModPause := modPause_keeps A rfl
  have kSendXon := sendXon_keeps A rfl
  intro x0 x1 s  hs
  unfold unchargeCell
  repeat' first
    | with_reducible first
        | assumption | refine kModPause _ _ _ _  ?_ | refine kSendXon _ _ _  ?_
    | (extract_lets -underBinder +onlyGivenNames x; refine keeps_fact (P := P) (v := x) ?_ ?_; rotate_left; clear_value x; revert x; intro _ _; rotate_left; unfold x; clear x)
    | (extract_lets -underBinder +onlyGivenNames x; clear_value x; revert x; intro _)
    | intro _
    | split
    | with_reducible first | refine keeps_pair (by with_reducible assumption) ?_ | refine keeps_triple (by with_reducible assumption) ?_ | refine keeps_pairL (by with_reducible assumption) ?_

theorem holdCheck_keeps (A : Allows P m) (h : m &&& 17041408 = 17041408) :
    ∀ x0 s, P s → P (holdCheck x0 s) := by
  have A := A.mono h
  clear h
  have kModPipe := modPipe_keeps A rfl
  have kSendXoff := sendXoff_keeps A rfl
  have kSendXon := sendXon_keeps A rfl
  intro x0 s  hs
  unfold holdCheck
  repeat' first
    | with_reducible first
        | assumption | refine kModPipe _ _ _  ?_ | refine kSendXoff _ _ _  ?_ | refine kSendXon _ _ _  ?_
        | refine each_keeps _ _ (fun _ _ _ => ?_) _ ?_
    | (extract_lets -underBinder +onlyGivenNames x; refine keeps_fact (P := P) (v := x) ?_ ?_; rotate_left; clear_value x; revert x; intro _ _; rotate_left; unfold x; clear x)
    | (extract_lets -underBinder +onlyGivenNames x; clear_value x; revert x; intro _)
    | intro _
    | split

theorem freeIngress_keeps (A : Allows P m) (h : m &&& 10355751200 = 10355751200) :
    ∀ x0 s, P s → P (freeIngress x0 s) := by
  have A := A.mono h
  clear h
  have kFreeOwn := freeOwn_keeps A rfl
  have kUnchargeCell := unchargeCell_keeps A rfl
  have kModPkt := modPkt_keeps A rfl
  intro x0 s  hs
  unfold freeIngress
  repeat' first
    | with_reducible first
        | assumption | refine kFreeOwn _ _  ?_ | refine kUnchargeCell _ _ _  ?_ | refine kModPkt _ _ _  ?_
        | refine each_keeps _ _ (fun _ _ _ => ?_) _ ?_
    | (extract_lets -underBinder +onlyGivenNames x; refine keeps_fact (P := P) (v := x) ?_ ?_; rotate_left; clear_value x; revert x; intro _ _; rotate_left; unfold x; clear x)
    | (extract_lets -underBinder +onlyGivenNames x; clear_value x; revert x; intro _)
    | intro _
    | split
    | with_reducible first | refine keeps_pair (by with_reducible assumption) ?_ | refine keeps_triple (by with_reducible assumption) ?_ | refine keeps_pairL (by with_reducible assumption) ?_

theorem freeDest_keeps (A : Allows P m) (h : m &&& 10338973984 = 10338973984) :
    ∀ x0 s, P s → P (freeDest x0 s) := by
  have A := A.mono h
  clear h
  have kModPkt := modPkt_keeps A rfl
  have kFreeOwn := freeOwn_keeps A rfl
  intro x0 s  hs
  unfold freeDest
  repeat' first
    | with_reducible first
        | assumption | refine kModPkt _ _ _  ?_ | refine kFreeOwn _ _  ?_
    | intro _
    | split
    | with_reducible first | refine keeps_pair (by with_reducible assumption) ?_ | refine keeps_triple (by with_reducible assumption) ?_ | refine keeps_pairL (by with_reducible assumption) ?_

theorem freeFrame_keeps (A : Allows P m) (h : m &&& 10355751200 = 10355751200) :
    ∀ x0 s, P s → P (freeFrame x0 s) := by
  have A := A.mono h
  clear h
  have kFreeDest := freeDest_keeps A rfl
  have kFreeIngress := freeIngress_keeps A rfl
  intro x0 s  hs
  unfold freeFrame
  repeat' first
    | with_reducible first
        | assumption | refine kFreeDest _ _  ?_ | refine kFreeIngress _ _  ?_

theorem retagAt_keeps (A : Allows P m) (h : m &&& 10338965792 = 10338965792) :
    ∀ x0 x1 x2 s, P s → P (retagAt x0 x1 x2 s) := by
  have A := A.mono h
  clear h
  have kMoveCells := moveCells_keeps A rfl
  intro x0 x1 x2 s  hs
  unfold retagAt
  repeat' first
    | with_reducible first
        | assumption | refine kMoveCells _ _ _  ?_
    | intro _
    | split
    | with_reducible first | refine keeps_pair (by with_reducible assumption) ?_ | refine keeps_triple (by with_reducible assumption) ?_ | refine keeps_pairL (by with_reducible assumption) ?_

theorem retag_keeps (A : Allows P m) (h : m &&& 10338965792 = 10338965792) :
    ∀ x0 x1 s, P s → P (retag x0 x1 s) := by
  have A := A.mono h
  clear h
  have kMoveCells := moveCells_keeps A rfl
  intro x0 x1 s  hs
  unfold retag
  repeat' first
    | with_reducible first
        | assumption | refine kMoveCells _ _ _  ?_
    | intro _
    | split
    | with_reducible first | refine keeps_pair (by with_reducible assumption) ?_ | refine keeps_triple (by with_reducible assumption) ?_ | refine keeps_pairL (by with_reducible assumption) ?_

theorem retagYoyo_keeps (A : Allows P m) (h : m &&& 10338965792 = 10338965792) :
    ∀ x0 s, P s → P (retagYoyo x0 s) := by
  have A := A.mono h
  clear h
  have kMoveCell := moveCell_keeps A rfl
  intro x0 s  hs
  unfold retagYoyo
  repeat' first
    | with_reducible first
        | assumption | refine kMoveCell _ _ _ _  ?_ | refine each_keeps _ _ (fun _ _ _ => ?_) _ ?_
    | intro _
    | split
    | with_reducible first | refine keeps_pair (by with_reducible assumption) ?_ | refine keeps_triple (by with_reducible assumption) ?_ | refine keeps_pairL (by with_reducible assumption) ?_

theorem countWaits_keeps (A : Allows P m) (h : m &&& 4196352 = 4196352) :
    ∀ x0 s, P s → P (countWaits x0 s) := by
  have A := A.mono h
  clear h
  have kModBuf := modBuf_keeps A rfl
  have kCntAdd := cntAdd_keeps A rfl
  intro x0 s  hs
  unfold countWaits
  repeat' first
    | with_reducible first
        | assumption | refine kModBuf _ _  ?_ | refine kCntAdd _ _ _ _ _  ?_
    | (extract_lets -underBinder +onlyGivenNames x; refine keeps_fact (P := P) (v := x) ?_ ?_; rotate_left; clear_value x; revert x; intro _ _; rotate_left; unfold x; clear x)
    | (extract_lets -underBinder +onlyGivenNames x; clear_value x; revert x; intro _)
    | intro _
    | split

theorem setWaiters_keeps (A : Allows P m) (h : m &&& 4196352 = 4196352) :
    ∀ x0 x1 s, P s → P (setWaiters x0 x1 s) := by
  have A := A.mono h
  clear h
  have kModBuf := modBuf_keeps A rfl
  have kCountWaits := countWaits_keeps A rfl
  intro x0 x1 s  hs
  unfold setWaiters
  repeat' first
    | with_reducible first
        | assumption | refine kModBuf _ _  ?_ | refine kCountWaits _ _  ?_
    | (extract_lets -underBinder +onlyGivenNames x; refine keeps_fact (P := P) (v := x) ?_ ?_; rotate_left; clear_value x; revert x; intro _ _; rotate_left; unfold x; clear x)
    | (extract_lets -underBinder +onlyGivenNames x; clear_value x; revert x; intro _)
    | intro _
    | split

theorem dropWaiters_keeps (A : Allows P m) (h : m &&& 4196352 = 4196352) :
    ∀ x0 s, P s → P (dropWaiters x0 s) := by
  have A := A.mono h
  clear h
  have kSetWaiters := setWaiters_keeps A rfl
  intro x0 s  hs
  unfold dropWaiters
  repeat' first
    | with_reducible first
        | assumption | refine kSetWaiters _ _ _  ?_ | refine each_keeps _ _ (fun _ _ _ => ?_) _ ?_
    | intro _
    | split

theorem askCells_keeps (A : Allows P m) (h : m &&& 4196352 = 4196352) :
    ∀ x0 x1 s, P s → P (askCells x0 x1 s).2 := by
  have A := A.mono h
  clear h
  have kModBuf := modBuf_keeps A rfl
  have kSetWaiters := setWaiters_keeps A rfl
  intro x0 x1 s  hs
  unfold askCells
  repeat' first
    | with_reducible first
        | assumption | refine kModBuf _ _  ?_ | refine kSetWaiters _ _ _  ?_
    | (extract_lets -underBinder +onlyGivenNames x; refine keeps_fact (P := P) (v := x) ?_ ?_; rotate_left; clear_value x; revert x; intro _ _; rotate_left; unfold x; clear x)
    | (extract_lets -underBinder +onlyGivenNames x; clear_value x; revert x; intro _)
    | intro _
    | split

theorem writeFrame_keeps (A : Allows P m) (h : m &&& 20981760 = 20981760) :
    ∀ x0 s, P s → ∀ t, writeFrame x0 s = some t → P t := by
  have A := A.mono h
  intro k s hs t e
  unfold writeFrame at e
  dsimp only at e
  split at e
  · cases e
  · split at e
    · cases e
    · split at e
      · cases e
      · rename_i e1
        have h1 := allocChain_keeps A rfl _ _ _ _ _ _ s hs _ _ e1
        injection e with e
        rw [← e]
        split
        · exact each_keeps _ _ (fun _ t ht => chargeCell_keeps A rfl _ _ t ht) _ (modPkt_keeps A rfl _ _ _ h1)
        · exact modPkt_keeps A rfl _ _ _ h1

theorem pfcXoffRepeat_keeps (A : Allows P m) (h : m &&& 20973568 = 20973568) :
    ∀ x0 x1 s, P s → P (pfcXoffRepeat x0 x1 s) := by
  have A := A.mono h
  clear h
  have kSendXoff := sendXoff_keeps A rfl
  have kModPause := modPause_keeps A rfl
  intro x0 x1 s  hs
  unfold pfcXoffRepeat
  repeat' first
    | with_reducible first
        | assumption | refine kSendXoff _ _ _  ?_ | refine kModPause _ _ _ _  ?_
    | (extract_lets -underBinder +onlyGivenNames x; refine keeps_fact (P := P) (v := x) ?_ ?_; rotate_left; clear_value x; revert x; intro _ _; rotate_left; unfold x; clear x)
    | (extract_lets -underBinder +onlyGivenNames x; clear_value x; revert x; intro _)
    | intro _
    | split
    | with_reducible first | refine keeps_pair (by with_reducible assumption) ?_ | refine keeps_triple (by with_reducible assumption) ?_ | refine keeps_pairL (by with_reducible assumption) ?_

theorem execPfcXoffRepeat_keeps (A : Allows P m) (h : m &&& 20973568 = 20973568) :
    ∀ x0 x1 s, P s → ∀ t, execPfcXoffRepeat x0 x1 s = .next t → P t := by
  intro _ _ _ hs t e
  cases e
  exact pfcXoffRepeat_keeps A h _ _ _ hs

end Sys2Proof.Laws
end

