-- ==== Sys2Proof/Laws/Cmd.lean ====
section
/-! SUPPORT. What each operation of Machine/Cmd.lean can change (Laws/Keeps.lean). -/

namespace Sys2Proof.Laws

open Sys2Proof.Machine

variable {P : State → Prop} {m : Nat}

theorem modInflight_keeps (A : Allows P m) (h : m &&& 4096 = 4096) :
    ∀ x0 x1 s, P s → P (modInflight x0 x1 s) := by
  have A := A.mono h
  clear h
  have kModHif := modHif_keeps A rfl
  intro x0 x1 s  hs
  unfold modInflight
  repeat' first
    | with_reducible first
        | assumption | refine kModHif _ _  ?_
    | intro _
    | split

theorem dropInflight_keeps (A : Allows P m) (h : m &&& 4096 = 4096) :
    ∀ x0 s, P s → P (dropInflight x0 s) := by
  have A := A.mono h
  clear h
  have kModHif := modHif_keeps A rfl
  intro x0 s  hs
  unfold dropInflight
  repeat' first
    | with_reducible first
        | assumption | refine kModHif _ _  ?_
    | intro _

theorem pruneFetched_keeps (A : Allows P m) (h : m &&& 4096 = 4096) :
    ∀ x0 s, P s → P (pruneFetched x0 s) := by
  have A := A.mono h
  clear h
  have kModHif := modHif_keeps A rfl
  intro x0 s  hs
  unfold pruneFetched
  repeat' first
    | with_reducible first
        | assumption | refine kModHif _ _  ?_
    | (extract_lets -underBinder +onlyGivenNames x; refine keeps_fact (P := P) (v := x) ?_ ?_; rotate_left; clear_value x; revert x; intro _ _; rotate_left; unfold x; clear x)
    | (extract_lets -underBinder +onlyGivenNames x; clear_value x; revert x; intro _)
    | intro _

theorem finish_keeps (A : Allows P m) (h : m &&& 6416 = 6416) :
    ∀ x0 x1 x2 x3 x4 s, P s → P (finish x0 x1 x2 x3 x4 s) := by
  have A := A.mono h
  clear h
  have kDropInflight := dropInflight_keeps A rfl
  have kCntInc := cntInc_keeps A rfl
  have kPutCompletion := putCompletion_keeps A rfl
  intro x0 x1 x2 x3 x4 s  hs
  unfold finish
  repeat' first
    | with_reducible first
        | assumption | refine kDropInflight _ _  ?_ | refine kCntInc _ _ _ _  ?_
        | refine kPutCompletion _ _ _  ?_
    | (extract_lets -underBinder +onlyGivenNames x; refine keeps_fact (P := P) (v := x) ?_ ?_; rotate_left; clear_value x; revert x; intro _ _; rotate_left; unfold x; clear x)
    | (extract_lets -underBinder +onlyGivenNames x; clear_value x; revert x; intro _)
    | split
    | with_reducible first | refine keeps_pair (by with_reducible assumption) ?_ | refine keeps_triple (by with_reducible assumption) ?_ | refine keeps_pairL (by with_reducible assumption) ?_ | refine A.actor rfl _ _ ?_

theorem asActor_keeps (A : Allows P m) (h : m &&& 4112 = 4112) :
    ∀ x0 x1 s, (∀ t, P t → P (x1 t)) → P s → P (asActor x0 x1 s) := by
  have A := A.mono h
  intro a f s k hs
  have h1 := k _ (A.actor rfl s (some a) hs)
  unfold asActor
  refine A.actor rfl (if s.raised < (f { s with actor := some a }).raised then _ else _) none (ite_keeps ?_ ?_)
  · exact modInflight_keeps A rfl _ _ _ h1
  · exact h1

theorem takeOut_keeps (A : Allows P m) (h : m &&& 6416 = 6416) :
    ∀ x0 x1 s, P s → P (takeOut x0 x1 s) := by
  have A := A.mono h
  clear h
  have kFinish := finish_keeps A rfl
  have kModInflight := modInflight_keeps A rfl
  intro x0 x1 s  hs
  unfold takeOut
  repeat' first
    | with_reducible first
        | assumption | refine kFinish _ _ _ _ _ _  ?_ | refine kModInflight _ _ _  ?_
    | intro _
    | split
    | with_reducible first | refine keeps_pair (by with_reducible assumption) ?_ | refine keeps_triple (by with_reducible assumption) ?_ | refine keeps_pairL (by with_reducible assumption) ?_

theorem startCmd_keeps (A : Allows P m) (h : m &&& 6416 = 6416) :
    ∀ x0 x1 x2 s, (∀ a t, P t → P (x2 a t).2) → P s → P (startCmd x0 x1 x2 s) := by
  have A := A.mono h
  clear h
  have kFinish := finish_keeps A rfl
  have kModInflight := modInflight_keeps A rfl
  have kTakeOut := takeOut_keeps A rfl
  intro x0 x1 x2 s k0 hs
  unfold startCmd
  repeat' first
    | with_reducible first
        | assumption | refine kFinish _ _ _ _ _ _  ?_ | refine kModInflight _ _ _  ?_ | refine kTakeOut _ _ _  ?_
        | refine k0 _ _ ?_ | refine k0 _ ?_
    | (extract_lets -underBinder +onlyGivenNames x; refine keeps_fact (P := P) (v := x) ?_ ?_; rotate_left; clear_value x; revert x; intro _ _; rotate_left; unfold x; clear x)
    | (extract_lets -underBinder +onlyGivenNames x; clear_value x; revert x; intro _)
    | intro _
    | split
    | with_reducible first | refine keeps_pair (by with_reducible assumption) ?_ | refine keeps_triple (by with_reducible assumption) ?_ | refine keeps_pairL (by with_reducible assumption) ?_ | refine A.actor rfl _ _ ?_

theorem command_keeps (A : Allows P m) (h : m &&& 6416 = 6416) :
    ∀ x0 x1 s, (∀ a t, P t → P (x1 a t).2) → P s → P (command x0 x1 s) := by
  have A := A.mono h
  clear h
  have kModRing := modRing_keeps A rfl
  have kPruneFetched := pruneFetched_keeps A rfl
  have kModHif := modHif_keeps A rfl
  have kFinish := finish_keeps A rfl
  have kModInflight := modInflight_keeps A rfl
  have kStartCmd := startCmd_keeps A rfl
  intro x0 x1 s k0 hs
  unfold command
  repeat' first
    | with_reducible first
        | assumption | refine kModRing _ _ _  ?_ | refine kPruneFetched _ _  ?_ | refine kModHif _ _  ?_
        | refine kFinish _ _ _ _ _ _  ?_ | refine kModInflight _ _ _  ?_ | refine kStartCmd _ _ _ _ ?_ ?_
        | refine k0 _ _ ?_ | refine k0 _ ?_
    | (extract_lets -underBinder +onlyGivenNames x; refine keeps_fact (P := P) (v := x) ?_ ?_; rotate_left; clear_value x; revert x; intro _ _; rotate_left; unfold x; clear x)
    | (extract_lets -underBinder +onlyGivenNames x; clear_value x; revert x; intro _)
    | intro _
    | split
    | with_reducible first | refine keeps_pair (by with_reducible assumption) ?_ | refine keeps_triple (by with_reducible assumption) ?_ | refine keeps_pairL (by with_reducible assumption) ?_

theorem dataCheck_keeps (A : Allows P m) (h : m &&& 10334771488 = 10334771488) :
    ∀ x0 x1 x2 x3 s, P s → P (dataCheck x0 x1 x2 x3 s).2 := by
  have A := A.mono h
  clear h
  have kDmaCheck := dmaCheck_keeps A rfl
  intro x0 x1 x2 x3 s  hs
  unfold dataCheck
  repeat' first
    | with_reducible first
        | assumption | refine kDmaCheck _ _ _ _ _ _  ?_

theorem g3Check_keeps (A : Allows P m) (h : m &&& 10334771488 = 10334771488) :
    ∀ x0 x1 x2 x3 s, P s → P (g3Check x0 x1 x2 x3 s).2 := by
  have A := A.mono h
  clear h
  have kDmaCheck := dmaCheck_keeps A rfl
  intro x0 x1 x2 x3 s  hs
  unfold g3Check
  repeat' first
    | with_reducible first
        | assumption | refine kDmaCheck _ _ _ _ _ _  ?_

theorem runNop_keeps (A : Allows P m) (h : m &&& 0 = 0) :
    ∀ x0 s, P s → P (runNop x0 s).2 := by
  have A := A.mono h
  clear h
  intro x0 s  hs
  unfold runNop
  repeat' first
    | with_reducible first
        | assumption

theorem runFence_keeps (A : Allows P m) (h : m &&& 0 = 0) :
    ∀ x0 s, P s → P (runFence x0 s).2 := by
  have A := A.mono h
  clear h
  intro x0 s  hs
  unfold runFence
  repeat' first
    | with_reducible first
        | assumption

theorem runG3Nop_keeps (A : Allows P m) (h : m &&& 0 = 0) :
    ∀ x0 s, P s → P (runG3Nop x0 s).2 := by
  have A := A.mono h
  clear h
  intro x0 s  hs
  unfold runG3Nop
  repeat' first
    | with_reducible first
        | assumption

theorem runAbort_keeps (A : Allows P m) (h : m &&& 6416 = 6416) :
    ∀ x0 x1 x2 s, P s → P (runAbort x0 x1 x2 s).2 := by
  have A := A.mono h
  clear h
  have kFinish := finish_keeps A rfl
  have kModInflight := modInflight_keeps A rfl
  have kModHif := modHif_keeps A rfl
  intro x0 x1 x2 s  hs
  unfold runAbort
  repeat' first
    | with_reducible first
        | assumption | refine kFinish _ _ _ _ _ _  ?_ | refine kModInflight _ _ _  ?_ | refine kModHif _ _  ?_
    | (extract_lets -underBinder +onlyGivenNames x; refine keeps_fact (P := P) (v := x) ?_ ?_; rotate_left; clear_value x; revert x; intro _ _; rotate_left; unfold x; clear x)
    | (extract_lets -underBinder +onlyGivenNames x; clear_value x; revert x; intro _)
    | intro _
    | split
    | with_reducible first | refine keeps_pair (by with_reducible assumption) ?_ | refine keeps_triple (by with_reducible assumption) ?_ | refine keeps_pairL (by with_reducible assumption) ?_

theorem execNop_keeps (A : Allows P m) (h : m &&& 6416 = 6416) :
    ∀ x0 s, P s → ∀ t, execNop x0 s = .next t → P t := by
  have A := A.mono h
  clear h
  have kCommand := command_keeps A rfl
  have kRunNop := runNop_keeps A rfl
  intro x0 s  hs
  intro t e
  cases e
  repeat' first
    | with_reducible first
        | assumption | refine kCommand _ _ _ ?_ ?_ | refine kRunNop _ _  ?_

theorem execFence_keeps (A : Allows P m) (h : m &&& 6416 = 6416) :
    ∀ x0 s, P s → ∀ t, execFence x0 s = .next t → P t := by
  have A := A.mono h
  clear h
  have kCommand := command_keeps A rfl
  have kRunFence := runFence_keeps A rfl
  intro x0 s  hs
  intro t e
  cases e
  repeat' first
    | with_reducible first
        | assumption | refine kCommand _ _ _ ?_ ?_ | refine kRunFence _ _  ?_
    | (extract_lets -underBinder +onlyGivenNames x; refine keeps_fact (P := P) (v := x) ?_ ?_; rotate_left; clear_value x; revert x; intro _ _; rotate_left; unfold x; clear x)
    | (extract_lets -underBinder +onlyGivenNames x; clear_value x; revert x; intro _)
    | intro _
    | split
    | with_reducible first | refine keeps_pair (by with_reducible assumption) ?_ | refine keeps_triple (by with_reducible assumption) ?_ | refine keeps_pairL (by with_reducible assumption) ?_

theorem execAbort_keeps (A : Allows P m) (h : m &&& 6416 = 6416) :
    ∀ x0 x1 x2 s, P s → ∀ t, execAbort x0 x1 x2 s = .next t → P t := by
  have A := A.mono h
  clear h
  have kCommand := command_keeps A rfl
  have kRunAbort := runAbort_keeps A rfl
  intro x0 x1 x2 s  hs
  intro t e
  cases e
  repeat' first
    | with_reducible first
        | assumption | refine kCommand _ _ _ ?_ ?_ | refine kRunAbort _ _ _ _  ?_
    | (extract_lets -underBinder +onlyGivenNames x; refine keeps_fact (P := P) (v := x) ?_ ?_; rotate_left; clear_value x; revert x; intro _ _; rotate_left; unfold x; clear x)
    | (extract_lets -underBinder +onlyGivenNames x; clear_value x; revert x; intro _)
    | intro _
    | split
    | with_reducible first | refine keeps_pair (by with_reducible assumption) ?_ | refine keeps_triple (by with_reducible assumption) ?_ | refine keeps_pairL (by with_reducible assumption) ?_

theorem execG3Nop_keeps (A : Allows P m) (h : m &&& 6416 = 6416) :
    ∀ x0 s, P s → ∀ t, execG3Nop x0 s = .next t → P t := by
  have A := A.mono h
  clear h
  have kCommand := command_keeps A rfl
  have kRunG3Nop := runG3Nop_keeps A rfl
  intro x0 s  hs
  intro t e
  cases e
  repeat' first
    | with_reducible first
        | assumption | refine kCommand _ _ _ ?_ ?_ | refine kRunG3Nop _ _  ?_
    | (extract_lets -underBinder +onlyGivenNames x; refine keeps_fact (P := P) (v := x) ?_ ?_; rotate_left; clear_value x; revert x; intro _ _; rotate_left; unfold x; clear x)
    | (extract_lets -underBinder +onlyGivenNames x; clear_value x; revert x; intro _)
    | intro _
    | split
    | with_reducible first | refine keeps_pair (by with_reducible assumption) ?_ | refine keeps_triple (by with_reducible assumption) ?_ | refine keeps_pairL (by with_reducible assumption) ?_

end Sys2Proof.Laws
end

