-- ==== Sys2Proof/Laws/CoreMem.lean ====
section
/-! SUPPORT. What each operation of Machine/CoreMem.lean can change (Laws/Keeps.lean). -/

namespace Sys2Proof.Laws

open Sys2Proof.Machine

variable {P : State → Prop} {m : Nat}

theorem coreWr_keeps (A : Allows P m) (h : m &&& 2098176 = 2098176) :
    ∀ x0 x1 x2 x3 s, P s → ∀ t, coreWr x0 x1 x2 x3 s = some t → P t := by
  have A := A.mono h
  intro c a n v s hs t e
  unfold coreWr at e
  split at e
  · cases e; exact modCore_keeps A rfl _ _ _ hs
  · cases e; exact modCluster_keeps A rfl _ _ _ hs
  · cases e; exact modCore_keeps A rfl _ _ _ hs
  · split at e
    · cases e
    · cases e; exact A.memBytes rfl _ _ s hs
  · cases e

theorem countPoisonStore_keeps (A : Allows P m) (h : m &&& 2048 = 2048) :
    ∀ x0 x1 x2 s, P s → P (countPoisonStore x0 x1 x2 s) := by
  have A := A.mono h
  clear h
  have kCntInc := cntInc_keeps A rfl
  intro x0 x1 x2 s  hs
  unfold countPoisonStore
  repeat' first
    | with_reducible first
        | assumption | refine kCntInc _ _ _ _  ?_
    | split
    | with_reducible first | refine keeps_pair (by with_reducible assumption) ?_ | refine keeps_triple (by with_reducible assumption) ?_ | refine keeps_pairL (by with_reducible assumption) ?_

theorem setCoreReg_keeps (A : Allows P m) (h : m &&& 2097152 = 2097152) :
    ∀ x0 x1 x2 s, P s → P (setCoreReg x0 x1 x2 s) := by
  have A := A.mono h
  clear h
  have kModCore := modCore_keeps A rfl
  intro x0 x1 x2 s  hs
  unfold setCoreReg
  repeat' first
    | with_reducible first
        | assumption | refine kModCore _ _ _  ?_
    | intro _
    | split

theorem coreNext_keeps (A : Allows P m) (h : m &&& 2097152 = 2097152) :
    ∀ x0 x1 s, P s → P (coreNext x0 x1 s) := by
  have A := A.mono h
  clear h
  have kModCore := modCore_keeps A rfl
  intro x0 x1 s  hs
  unfold coreNext
  repeat' first
    | with_reducible first
        | assumption | refine kModCore _ _ _  ?_
    | intro _
    | split

theorem setCsr_keeps (A : Allows P m) (h : m &&& 2097152 = 2097152) :
    ∀ x0 x1 x2 s, P s → P (setCsr x0 x1 x2 s) := by
  have A := A.mono h
  clear h
  have kModCore := modCore_keeps A rfl
  intro x0 x1 x2 s  hs
  unfold setCsr
  repeat' first
    | with_reducible first
        | assumption | refine kModCore _ _ _  ?_
    | intro _

theorem inhibitWrite_keeps (A : Allows P m) (h : m &&& 2097152 = 2097152) :
    ∀ x0 x1 s, P s → P (inhibitWrite x0 x1 s) := by
  have A := A.mono h
  clear h
  have kSetCsr := setCsr_keeps A rfl
  intro x0 x1 s  hs
  unfold inhibitWrite
  repeat' first
    | with_reducible first
        | assumption | refine kSetCsr _ _ _ _  ?_
    | (extract_lets -underBinder +onlyGivenNames x; refine keeps_fact (P := P) (v := x) ?_ ?_; rotate_left; clear_value x; revert x; intro _ _; rotate_left; unfold x; clear x)
    | (extract_lets -underBinder +onlyGivenNames x; clear_value x; revert x; intro _)
    | split

theorem csrWrite_keeps (A : Allows P m) (h : m &&& 2097152 = 2097152) :
    ∀ x0 x1 x2 s, P s → ∀ t, csrWrite x0 x1 x2 s = some t → P t := by
  have A := A.mono h
  clear h
  have kSetCsr := setCsr_keeps A rfl
  have kInhibitWrite := inhibitWrite_keeps A rfl
  have kModCore := modCore_keeps A rfl
  intro x0 x1 x2 s  hs
  intro t e
  unfold csrWrite at e
  repeat' first
    | cases e | split at e | dsimp only at e
    | with_reducible first
        | assumption | refine kSetCsr _ _ _ _  ?_ | refine kInhibitWrite _ _ _  ?_ | refine kModCore _ _ _  ?_
    | intro _
    | split
    | with_reducible first | refine keeps_pair (by with_reducible assumption) ?_ | refine keeps_triple (by with_reducible assumption) ?_ | refine keeps_pairL (by with_reducible assumption) ?_

theorem coreTrap_keeps (A : Allows P m) (h : m &&& 2097152 = 2097152) :
    ∀ x0 x1 x2 x3 s, P s → P (coreTrap x0 x1 x2 x3 s) := by
  have A := A.mono h
  clear h
  have kSetCsr := setCsr_keeps A rfl
  have kModCore := modCore_keeps A rfl
  intro x0 x1 x2 x3 s  hs
  unfold coreTrap
  repeat' first
    | with_reducible first
        | assumption | refine kSetCsr _ _ _ _  ?_ | refine kModCore _ _ _  ?_
    | (extract_lets -underBinder +onlyGivenNames x; refine keeps_fact (P := P) (v := x) ?_ ?_; rotate_left; clear_value x; revert x; intro _ _; rotate_left; unfold x; clear x)
    | (extract_lets -underBinder +onlyGivenNames x; clear_value x; revert x; intro _)
    | intro _
    | split

theorem coreIllegal_keeps (A : Allows P m) (h : m &&& 2097152 = 2097152) :
    ∀ x0 s, P s → P (coreIllegal x0 s) := by
  have A := A.mono h
  clear h
  have kCoreTrap := coreTrap_keeps A rfl
  intro x0 s  hs
  unfold coreIllegal
  repeat' first
    | with_reducible first
        | assumption | refine kCoreTrap _ _ _ _ _  ?_

theorem coreCnt_keeps (A : Allows P m) (h : m &&& 2048 = 2048) :
    ∀ x0 x1 x2 s, P s → P (coreCnt x0 x1 x2 s) := by
  have A := A.mono h
  clear h
  have kCntAdd := cntAdd_keeps A rfl
  intro x0 x1 x2 s  hs
  unfold coreCnt
  repeat' first
    | with_reducible first
        | assumption | refine kCntAdd _ _ _ _ _  ?_

theorem resetCore_keeps (A : Allows P m) (h : m &&& 2099200 = 2099200) :
    ∀ x0 s, P s → P (resetCore x0 s) := by
  have A := A.mono h
  clear h
  have kCoreCnt := coreCnt_keeps A rfl
  have kModCore := modCore_keeps A rfl
  intro x0 s  hs
  unfold resetCore
  repeat' first
    | with_reducible first
        | assumption | refine kCoreCnt _ _ _ _  ?_ | refine kModCore _ _ _  ?_
    | (extract_lets -underBinder +onlyGivenNames x; refine keeps_fact (P := P) (v := x) ?_ ?_; rotate_left; clear_value x; revert x; intro _ _; rotate_left; unfold x; clear x)
    | (extract_lets -underBinder +onlyGivenNames x; clear_value x; revert x; intro _)
    | intro _
    | split
    | with_reducible first | refine keeps_pair (by with_reducible assumption) ?_ | refine keeps_triple (by with_reducible assumption) ?_ | refine keeps_pairL (by with_reducible assumption) ?_

end Sys2Proof.Laws
end

