-- ==== Sys2Proof/Laws/Operands.lean ====
section
/-! SUPPORT. What each operation of Machine/Operands.lean can change (Laws/Keeps.lean). -/

namespace Sys2Proof.Laws

open Sys2Proof.Machine

variable {P : State → Prop} {m : Nat}

theorem objPut_keeps (A : Allows P m) (h : m &&& 32768 = 32768) :
    ∀ x0 x1 x2 x3 x4 s, P s → P (objPut x0 x1 x2 x3 x4 s) := by
  have A := A.mono h
  clear h
  intro x0 x1 x2 x3 x4 s  hs
  unfold objPut
  repeat' first
    | with_reducible first
        | assumption
    | with_reducible first | refine A.cls rfl _ _ ?_

theorem tWrite_keeps (A : Allows P m) (h : m &&& 512 = 512) :
    ∀ x0 x1 x2 x3 s, P s → P (tWrite x0 x1 x2 x3 s) := by
  intro d o n v s hs
  exact (A.mono h).tmemBytes rfl _ _ s hs

theorem tWriteAll_keeps (A : Allows P m) (h : m &&& 512 = 512) :
    ∀ x0 x1 x2 s, P s → P (tWriteAll x0 x1 x2 s) := by
  have A := A.mono h
  clear h
  have kTWrite := tWrite_keeps A rfl
  intro x0 x1 x2 s  hs
  unfold tWriteAll
  repeat' first
    | with_reducible first
        | assumption | refine kTWrite _ _ _ _ _  ?_ | refine each_keeps _ _ (fun _ _ _ => ?_) _ ?_
    | intro _

theorem tPut_keeps (A : Allows P m) (h : m &&& 512 = 512) :
    ∀ x0 x1 x2 x3 s, P s → P (tPut x0 x1 x2 x3 s) := by
  have A := A.mono h
  clear h
  have kTWrite := tWrite_keeps A rfl
  intro x0 x1 x2 x3 s  hs
  unfold tPut
  repeat' first
    | with_reducible first
        | assumption | refine kTWrite _ _ _ _ _  ?_

theorem tPutAll_keeps (A : Allows P m) (h : m &&& 512 = 512) :
    ∀ x0 x1 x2 s, P s → P (tPutAll x0 x1 x2 s) := by
  have A := A.mono h
  clear h
  have kTPut := tPut_keeps A rfl
  intro x0 x1 x2 s  hs
  unfold tPutAll
  repeat' first
    | with_reducible first
        | assumption | refine kTPut _ _ _ _ _  ?_ | refine each_keeps _ _ (fun _ _ _ => ?_) _ ?_
    | intro _

theorem mWrite_keeps (A : Allows P m) (h : m &&& 1024 = 1024) :
    ∀ x0 x1 x2 x3 s, P s → P (mWrite x0 x1 x2 x3 s) := by
  intro d o n v s hs
  exact (A.mono h).memBytes rfl _ _ s hs

end Sys2Proof.Laws
end

