-- ==== Sys2Proof/Laws/Tables.lean ====
section
/-! SUPPORT. What each operation of Machine/Tables.lean can change (Laws/Keeps.lean). -/

namespace Sys2Proof.Laws

open Sys2Proof.Machine

variable {P : State → Prop} {m : Nat}

theorem l2Victim_keeps (A : Allows P m) (h : m &&& 8 = 8) :
    ∀ s x1 x2 x3, P s → P (l2Victim s x1 x2 x3).2 := by
  have A := A.mono h
  clear h
  have kUseFree := useFree_keeps A rfl
  intro s x1 x2 x3  hs
  unfold l2Victim
  repeat' first
    | with_reducible first
        | assumption | refine kUseFree _  ?_ | refine foldl_keeps _ _ (fun _ _ _ => ?_) _ ?_
    | (extract_lets -underBinder +onlyGivenNames x; refine keeps_fact (P := P) (v := x) ?_ ?_; rotate_left; clear_value x; revert x; intro _ _; rotate_left; unfold x; clear x)
    | (extract_lets -underBinder +onlyGivenNames x; clear_value x; revert x; intro _)
    | intro _
    | split
    | with_reducible first | refine keeps_pair (by with_reducible assumption) ?_ | refine keeps_triple (by with_reducible assumption) ?_ | refine keeps_pairL (by with_reducible assumption) ?_

theorem markWrite_keeps (A : Allows P m) (h : m &&& 65536 = 65536) :
    ∀ x0 x1 x2 s, P s → P (markWrite x0 x1 x2 s) := by
  have A := A.mono h
  clear h
  have kModCmp := modCmp_keeps A rfl
  intro x0 x1 x2 s  hs
  unfold markWrite
  repeat' first
    | with_reducible first
        | assumption | refine kModCmp _ _ _ _  ?_
    | intro _

theorem drvPut_keeps (A : Allows P m) (h : m &&& 66048 = 66048) :
    ∀ x0 x1 x2 x3 s, P s → P (drvPut x0 x1 x2 x3 s) := by
  have A := A.mono h
  clear h
  have kTPut := tPut_keeps A rfl
  have kMarkWrite := markWrite_keeps A rfl
  intro x0 x1 x2 x3 s  hs
  unfold drvPut
  repeat' first
    | with_reducible first
        | assumption | refine kTPut _ _ _ _ _  ?_ | refine kMarkWrite _ _ _ _  ?_
    | (extract_lets -underBinder +onlyGivenNames x; refine keeps_fact (P := P) (v := x) ?_ ?_; rotate_left; clear_value x; revert x; intro _ _; rotate_left; unfold x; clear x)
    | (extract_lets -underBinder +onlyGivenNames x; clear_value x; revert x; intro _)
    | split

theorem drvPutAll_keeps (A : Allows P m) (h : m &&& 66048 = 66048) :
    ∀ x0 x1 x2 s, P s → P (drvPutAll x0 x1 x2 s) := by
  have A := A.mono h
  clear h
  have kDrvPut := drvPut_keeps A rfl
  intro x0 x1 x2 s  hs
  unfold drvPutAll
  repeat' first
    | with_reducible first
        | assumption | refine kDrvPut _ _ _ _ _  ?_ | refine each_keeps _ _ (fun _ _ _ => ?_) _ ?_
    | intro _

theorem filterStep_keeps (A : Allows P m) (h : m &&& 65536 = 65536) :
    ∀ x0 x1 s, P s → P (filterStep x0 x1 s) := by
  have A := A.mono h
  clear h
  have kModFwd := modFwd_keeps A rfl
  intro x0 x1 s  hs
  unfold filterStep
  repeat' first
    | with_reducible first
        | assumption | refine kModFwd _ _  ?_
    | (extract_lets -underBinder +onlyGivenNames x; refine keeps_fact (P := P) (v := x) ?_ ?_; rotate_left; clear_value x; revert x; intro _ _; rotate_left; unfold x; clear x)
    | (extract_lets -underBinder +onlyGivenNames x; clear_value x; revert x; intro _)
    | intro _
    | split

theorem filterRelease_keeps (A : Allows P m) (h : m &&& 65536 = 65536) :
    ∀ x0 x1 x2 s, P s → P (filterRelease x0 x1 x2 s) := by
  have A := A.mono h
  clear h
  have kModFwd := modFwd_keeps A rfl
  intro x0 x1 x2 s  hs
  unfold filterRelease
  repeat' first
    | with_reducible first
        | assumption | refine kModFwd _ _  ?_
    | intro _

theorem applyL2_keeps (A : Allows P m) (h : m &&& 512 = 512) :
    ∀ x0 x1 s, P s → P (applyL2 x0 x1 s) := by
  have A := A.mono h
  clear h
  have kTPut := tPut_keeps A rfl
  intro x0 x1 s  hs
  unfold applyL2
  repeat' first
    | with_reducible first
        | assumption | refine kTPut _ _ _ _ _  ?_
    | (extract_lets -underBinder +onlyGivenNames x; refine keeps_fact (P := P) (v := x) ?_ ?_; rotate_left; clear_value x; revert x; intro _ _; rotate_left; unfold x; clear x)
    | (extract_lets -underBinder +onlyGivenNames x; clear_value x; revert x; intro _)
    | split
    | with_reducible first | refine keeps_pair (by with_reducible assumption) ?_ | refine keeps_triple (by with_reducible assumption) ?_ | refine keeps_pairL (by with_reducible assumption) ?_

end Sys2Proof.Laws
end

