-- ==== Sys2Proof/Laws/L2.lean ====
section
/-! SUPPORT. What each operation of Machine/L2.lean can change (Laws/Keeps.lean). -/

namespace Sys2Proof.Laws

open Sys2Proof.Machine

variable {P : State → Prop} {m : Nat}

theorem sendLearn_keeps (A : Allows P m) (h : m &&& 67584 = 67584) :
    ∀ x0 x1 s, P s → P (sendLearn x0 x1 s) := by
  have A := A.mono h
  clear h
  have kCntInc := cntInc_keeps A rfl
  have kModFwd := modFwd_keeps A rfl
  intro x0 x1 s  hs
  unfold sendLearn
  repeat' first
    | with_reducible first
        | assumption | refine kCntInc _ _ _ _  ?_ | refine kModFwd _ _  ?_
    | (extract_lets -underBinder +onlyGivenNames x; refine keeps_fact (P := P) (v := x) ?_ ?_; rotate_left; clear_value x; revert x; intro _ _; rotate_left; unfold x; clear x)
    | (extract_lets -underBinder +onlyGivenNames x; clear_value x; revert x; intro _)
    | intro _
    | split

theorem learnCnt_keeps (A : Allows P m) (h : m &&& 2048 = 2048) :
    ∀ x0 x1 s, P s → P (learnCnt x0 x1 s) := by
  have A := A.mono h
  clear h
  have kCntInc := cntInc_keeps A rfl
  intro x0 x1 s  hs
  unfold learnCnt
  repeat' first
    | with_reducible first
        | assumption | refine kCntInc _ _ _ _  ?_

theorem broadcast_keeps (A : Allows P m) (h : m &&& 66048 = 66048) :
    ∀ x0 x1 s, P s → P (broadcast x0 x1 s) := by
  have A := A.mono h
  clear h
  have kApplyL2 := applyL2_keeps A rfl
  have kModFwd := modFwd_keeps A rfl
  intro x0 x1 s  hs
  unfold broadcast
  repeat' first
    | with_reducible first
        | assumption | refine kApplyL2 _ _ _  ?_ | refine kModFwd _ _  ?_
        | refine each_keeps _ _ (fun _ _ _ => ?_) _ ?_
    | (extract_lets -underBinder +onlyGivenNames x; refine keeps_fact (P := P) (v := x) ?_ ?_; rotate_left; clear_value x; revert x; intro _ _; rotate_left; unfold x; clear x)
    | (extract_lets -underBinder +onlyGivenNames x; clear_value x; revert x; intro _)
    | intro _

theorem ownerPut_keeps (A : Allows P m) (h : m &&& 66048 = 66048) :
    ∀ x0 x1 x2 s, P s → P (ownerPut x0 x1 x2 s) := by
  have A := A.mono h
  clear h
  have kTPut := tPut_keeps A rfl
  have kBroadcast := broadcast_keeps A rfl
  intro x0 x1 x2 s  hs
  unfold ownerPut
  repeat' first
    | with_reducible first
        | assumption | refine kTPut _ _ _ _ _  ?_ | refine kBroadcast _ _ _  ?_
    | (extract_lets -underBinder +onlyGivenNames x; refine keeps_fact (P := P) (v := x) ?_ ?_; rotate_left; clear_value x; revert x; intro _ _; rotate_left; unfold x; clear x)
    | (extract_lets -underBinder +onlyGivenNames x; clear_value x; revert x; intro _)

theorem learnInsert_keeps (A : Allows P m) (h : m &&& 10334837544 = 10334837544) :
    ∀ x0 x1 x2 x3 s, P s → P (learnInsert x0 x1 x2 x3 s).2 := by
  have A := A.mono h
  clear h
  have kOwnerPut := ownerPut_keeps A rfl
  have kL2Victim := l2Victim_keeps A rfl
  have kLearnCnt := learnCnt_keeps A rfl
  have kRaise := raise_keeps A rfl
  intro x0 x1 x2 x3 s  hs
  unfold learnInsert
  repeat' first
    | with_reducible first
        | assumption | refine kOwnerPut _ _ _ _  ?_ | refine kL2Victim _ _ _ _  ?_ | refine kLearnCnt _ _ _  ?_
        | refine kRaise _ _ _ _ _ _ _  ?_
    | (extract_lets -underBinder +onlyGivenNames x; refine keeps_fact (P := P) (v := x) ?_ ?_; rotate_left; clear_value x; revert x; intro _ _; rotate_left; unfold x; clear x)
    | (extract_lets -underBinder +onlyGivenNames x; clear_value x; revert x; intro _)
    | split
    | with_reducible first | refine keeps_pair (by with_reducible assumption) ?_ | refine keeps_triple (by with_reducible assumption) ?_ | refine keeps_pairL (by with_reducible assumption) ?_

theorem learnDecide_keeps (A : Allows P m) (h : m &&& 10334837544 = 10334837544) :
    ∀ x0 x1 x2 x3 s, P s → P (learnDecide x0 x1 x2 x3 s) := by
  have A := A.mono h
  clear h
  have kLearnInsert := learnInsert_keeps A rfl
  have kLearnCnt := learnCnt_keeps A rfl
  have kOwnerPut := ownerPut_keeps A rfl
  have kBroadcast := broadcast_keeps A rfl
  have kTPut := tPut_keeps A rfl
  have kRaise := raise_keeps A rfl
  intro x0 x1 x2 x3 s  hs
  unfold learnDecide
  repeat' first
    | with_reducible first
        | assumption | refine kLearnInsert _ _ _ _ _  ?_ | refine kLearnCnt _ _ _  ?_
        | refine kOwnerPut _ _ _ _  ?_ | refine kBroadcast _ _ _  ?_ | refine kTPut _ _ _ _ _  ?_
        | refine kRaise _ _ _ _ _ _ _  ?_
    | (extract_lets -underBinder +onlyGivenNames x; refine keeps_fact (P := P) (v := x) ?_ ?_; rotate_left; clear_value x; revert x; intro _ _; rotate_left; unfold x; clear x)
    | (extract_lets -underBinder +onlyGivenNames x; clear_value x; revert x; intro _)
    | split
    | with_reducible first | refine keeps_pair (by with_reducible assumption) ?_ | refine keeps_triple (by with_reducible assumption) ?_ | refine keeps_pairL (by with_reducible assumption) ?_

theorem hitDecide_keeps (A : Allows P m) (h : m &&& 10334837544 = 10334837544) :
    ∀ x0 x1 x2 x3 s, P s → P (hitDecide x0 x1 x2 x3 s) := by
  have A := A.mono h
  clear h
  have kTPut := tPut_keeps A rfl
  have kLearnInsert := learnInsert_keeps A rfl
  have kLearnCnt := learnCnt_keeps A rfl
  intro x0 x1 x2 x3 s  hs
  unfold hitDecide
  repeat' first
    | with_reducible first
        | assumption | refine kTPut _ _ _ _ _  ?_ | refine kLearnInsert _ _ _ _ _  ?_
        | refine kLearnCnt _ _ _  ?_
    | (extract_lets -underBinder +onlyGivenNames x; refine keeps_fact (P := P) (v := x) ?_ ?_; rotate_left; clear_value x; revert x; intro _ _; rotate_left; unfold x; clear x)
    | (extract_lets -underBinder +onlyGivenNames x; clear_value x; revert x; intro _)
    | split
    | with_reducible first | refine keeps_pair (by with_reducible assumption) ?_ | refine keeps_triple (by with_reducible assumption) ?_ | refine keeps_pairL (by with_reducible assumption) ?_

theorem deleteAt_keeps (A : Allows P m) (h : m &&& 68096 = 68096) :
    ∀ x0 x1 x2 x3 s, P s → P (deleteAt x0 x1 x2 x3 s) := by
  have A := A.mono h
  clear h
  have kSendLearn := sendLearn_keeps A rfl
  have kApplyL2 := applyL2_keeps A rfl
  intro x0 x1 x2 x3 s  hs
  unfold deleteAt
  repeat' first
    | with_reducible first
        | assumption | refine kSendLearn _ _ _  ?_ | refine kApplyL2 _ _ _  ?_
    | (extract_lets -underBinder +onlyGivenNames x; refine keeps_fact (P := P) (v := x) ?_ ?_; rotate_left; clear_value x; revert x; intro _ _; rotate_left; unfold x; clear x)
    | (extract_lets -underBinder +onlyGivenNames x; clear_value x; revert x; intro _)
    | split

theorem flushL2_keeps (A : Allows P m) (h : m &&& 68096 = 68096) :
    ∀ s, P s → P (flushL2 s) := by
  have A := A.mono h
  clear h
  have kDeleteAt := deleteAt_keeps A rfl
  have kApplyL2 := applyL2_keeps A rfl
  have kModFwd := modFwd_keeps A rfl
  intro s  hs
  unfold flushL2
  repeat' first
    | with_reducible first
        | assumption | refine kDeleteAt _ _ _ _ _  ?_ | refine kApplyL2 _ _ _  ?_ | refine kModFwd _ _  ?_
        | refine each_keeps _ _ (fun _ _ _ => ?_) _ ?_
    | (extract_lets -underBinder +onlyGivenNames x; refine keeps_fact (P := P) (v := x) ?_ ?_; rotate_left; clear_value x; revert x; intro _ _; rotate_left; unfold x; clear x)
    | (extract_lets -underBinder +onlyGivenNames x; have h := fun a => x a; clear h; unfold x; clear x)
    | (extract_lets -underBinder +onlyGivenNames x; clear_value x; revert x; intro _)
    | intro _
    | split
    | with_reducible first | refine keeps_pair (by with_reducible assumption) ?_ | refine keeps_triple (by with_reducible assumption) ?_ | refine keeps_pairL (by with_reducible assumption) ?_

theorem learnTake_keeps (A : Allows P m) (h : m &&& 10334837544 = 10334837544) :
    ∀ x0 x1 s, P s → P (learnTake x0 x1 s) := by
  have A := A.mono h
  clear h
  have kLearnDecide := learnDecide_keeps A rfl
  have kHitDecide := hitDecide_keeps A rfl
  intro x0 x1 s  hs
  unfold learnTake
  repeat' first
    | with_reducible first
        | assumption | refine kLearnDecide _ _ _ _ _  ?_ | refine kHitDecide _ _ _ _ _  ?_
    | split
    | with_reducible first | refine keeps_pair (by with_reducible assumption) ?_ | refine keeps_triple (by with_reducible assumption) ?_ | refine keeps_pairL (by with_reducible assumption) ?_

theorem ownerSettles_keeps (A : Allows P m) (h : m &&& 10334837544 = 10334837544) :
    ∀ x0 x1 x2 s, P s → P (ownerSettles x0 x1 x2 s) := by
  have A := A.mono h
  clear h
  have kLearnTake := learnTake_keeps A rfl
  have kModFwd := modFwd_keeps A rfl
  intro x0 x1 x2 s  hs
  unfold ownerSettles
  repeat' first
    | with_reducible first
        | assumption | refine kLearnTake _ _ _  ?_ | refine kModFwd _ _  ?_
        | refine each_keeps _ _ (fun _ _ _ => ?_) _ ?_
    | (extract_lets -underBinder +onlyGivenNames x; refine keeps_fact (P := P) (v := x) ?_ ?_; rotate_left; clear_value x; revert x; intro _ _; rotate_left; unfold x; clear x)
    | (extract_lets -underBinder +onlyGivenNames x; clear_value x; revert x; intro _)
    | intro _

end Sys2Proof.Laws
end

