-- ==== Sys2Proof/Laws/Objects.lean ====
section
/-! SUPPORT. What each operation of Machine/Objects.lean can change (Laws/Keeps.lean). -/

namespace Sys2Proof.Laws

open Sys2Proof.Machine

variable {P : State → Prop} {m : Nat}

theorem queueUnits_keeps (A : Allows P m) (h : m &&& 32768 = 32768) :
    ∀ x0 x1 x2 x3 s, P s → P (queueUnits x0 x1 x2 x3 s) := by
  have A := A.mono h
  clear h
  have kModCls := modCls_keeps A rfl
  intro x0 x1 x2 x3 s  hs
  unfold queueUnits
  repeat' first
    | with_reducible first
        | assumption | refine kModCls _ _  ?_
    | (extract_lets -underBinder +onlyGivenNames x; refine keeps_fact (P := P) (v := x) ?_ ?_; rotate_left; clear_value x; revert x; intro _ _; rotate_left; unfold x; clear x)
    | (extract_lets -underBinder +onlyGivenNames x; clear_value x; revert x; intro _)
    | intro _
    | split
    | with_reducible first | refine keeps_pair (by with_reducible assumption) ?_ | refine keeps_triple (by with_reducible assumption) ?_ | refine keeps_pairL (by with_reducible assumption) ?_

theorem clearAbsent_keeps (A : Allows P m) (h : m &&& 65536 = 65536) :
    ∀ x0 x1 x2 s, P s → P (clearAbsent x0 x1 x2 s) := by
  have A := A.mono h
  clear h
  have kModCmp := modCmp_keeps A rfl
  intro x0 x1 x2 s  hs
  unfold clearAbsent
  repeat' first
    | with_reducible first
        | assumption | refine kModCmp _ _ _ _  ?_
    | intro _

theorem tableWriteOn_keeps (A : Allows P m) (h : m &&& 66048 = 66048) :
    ∀ x0 x1 x2 x3 s, P s → P (tableWriteOn x0 x1 x2 x3 s) := by
  have A := A.mono h
  clear h
  have kClearAbsent := clearAbsent_keeps A rfl
  have kDrvPut := drvPut_keeps A rfl
  intro x0 x1 x2 x3 s  hs
  unfold tableWriteOn
  repeat' first
    | with_reducible first
        | assumption | refine kClearAbsent _ _ _ _  ?_ | refine kDrvPut _ _ _ _ _  ?_
        | refine each_keeps _ _ (fun _ _ _ => ?_) _ ?_
    | intro _

theorem l2Settled_keeps (A : Allows P m) (h : m &&& 10334837544 = 10334837544) :
    ∀ x0 x1 s, P s → P (l2Settled x0 x1 s) := by
  have A := A.mono h
  clear h
  have kFlushL2 := flushL2_keeps A rfl
  have kOwnerSettles := ownerSettles_keeps A rfl
  intro x0 x1 s  hs
  unfold l2Settled
  repeat' first
    | with_reducible first
        | assumption | refine kFlushL2 _  ?_ | refine kOwnerSettles _ _ _ _  ?_

theorem l2WriteKey_keeps (A : Allows P m) (h : m &&& 10334837544 = 10334837544) :
    ∀ x0 s, P s → P (l2WriteKey x0 s).2 := by
  have A := A.mono h
  clear h
  have kL2Settled := l2Settled_keeps A rfl
  have kTableWriteOn := tableWriteOn_keeps A rfl
  have kL2Victim := l2Victim_keeps A rfl
  have kCntInc := cntInc_keeps A rfl
  intro x0 s  hs
  unfold l2WriteKey
  repeat' first
    | with_reducible first
        | assumption | refine kL2Settled _ _ _  ?_ | refine kTableWriteOn _ _ _ _ _  ?_
        | refine kL2Victim _ _ _ _  ?_ | refine kCntInc _ _ _ _  ?_
    | (extract_lets -underBinder +onlyGivenNames x; refine keeps_fact (P := P) (v := x) ?_ ?_; rotate_left; clear_value x; revert x; intro _ _; rotate_left; unfold x; clear x)
    | (extract_lets -underBinder +onlyGivenNames x; clear_value x; revert x; intro _)
    | split
    | with_reducible first | refine keeps_pair (by with_reducible assumption) ?_ | refine keeps_triple (by with_reducible assumption) ?_ | refine keeps_pairL (by with_reducible assumption) ?_

theorem routePut_keeps (A : Allows P m) (h : m &&& 66048 = 66048) :
    ∀ x0 x1 x2 x3 s, P s → P (routePut x0 x1 x2 x3 s) := by
  have A := A.mono h
  clear h
  have kTableWriteOn := tableWriteOn_keeps A rfl
  intro x0 x1 x2 x3 s  hs
  unfold routePut
  repeat' first
    | with_reducible first
        | assumption | refine kTableWriteOn _ _ _ _ _  ?_
    | (extract_lets -underBinder +onlyGivenNames x; refine keeps_fact (P := P) (v := x) ?_ ?_; rotate_left; clear_value x; revert x; intro _ _; rotate_left; unfold x; clear x)
    | (extract_lets -underBinder +onlyGivenNames x; clear_value x; revert x; intro _)
    | split

theorem filterAll_keeps (A : Allows P m) (h : m &&& 65536 = 65536) :
    ∀ x0 x1 x2 x3 x4 s, P s → P (filterAll x0 x1 x2 x3 x4 s) := by
  have A := A.mono h
  clear h
  have kFilterStep := filterStep_keeps A rfl
  intro x0 x1 x2 x3 x4 s  hs
  unfold filterAll
  repeat' first
    | with_reducible first
        | assumption | refine kFilterStep _ _ _  ?_ | refine each_keeps _ _ (fun _ _ _ => ?_) _ ?_
    | intro _

theorem routeWriteKey_keeps (A : Allows P m) (h : m &&& 66048 = 66048) :
    ∀ x0 x1 x2 s, P s → P (routeWriteKey x0 x1 x2 s).2 := by
  have A := A.mono h
  clear h
  have kFilterAll := filterAll_keeps A rfl
  have kRoutePut := routePut_keeps A rfl
  intro x0 x1 x2 s  hs
  unfold routeWriteKey
  repeat' first
    | with_reducible first
        | assumption | refine kFilterAll _ _ _ _ _ _  ?_ | refine kRoutePut _ _ _ _ _  ?_
    | (extract_lets -underBinder +onlyGivenNames x; refine keeps_fact (P := P) (v := x) ?_ ?_; rotate_left; clear_value x; revert x; intro _ _; rotate_left; unfold x; clear x)
    | (extract_lets -underBinder +onlyGivenNames x; clear_value x; revert x; intro _)
    | split
    | with_reducible first | refine keeps_pair (by with_reducible assumption) ?_ | refine keeps_triple (by with_reducible assumption) ?_ | refine keeps_pairL (by with_reducible assumption) ?_

theorem writeKey_keeps (A : Allows P m) (h : m &&& 10334837544 = 10334837544) :
    ∀ x0 x1 x2 s, P s → P (writeKey x0 x1 x2 s).2 := by
  have A := A.mono h
  clear h
  have kL2WriteKey := l2WriteKey_keeps A rfl
  have kRouteWriteKey := routeWriteKey_keeps A rfl
  intro x0 x1 x2 s  hs
  unfold writeKey
  repeat' first
    | with_reducible first
        | assumption | refine kL2WriteKey _ _  ?_ | refine kRouteWriteKey _ _ _ _  ?_
    | split

theorem loadSession_keeps (A : Allows P m) (h : m &&& 4194304 = 4194304) :
    ∀ x0 x1 x2 s, P s → P (loadSession x0 x1 x2 s) := by
  have A := A.mono h
  clear h
  have kModBuf := modBuf_keeps A rfl
  intro x0 x1 x2 s  hs
  unfold loadSession
  repeat' first
    | with_reducible first
        | assumption | refine kModBuf _ _  ?_ | refine each_keeps _ _ (fun _ _ _ => ?_) _ ?_
    | intro _

theorem writeEntry_keeps (A : Allows P m) (h : m &&& 10355841832 = 10355841832) :
    ∀ x0 x1 x2 x3 x4 x5 x6 x7 s, P s → P (writeEntry x0 x1 x2 x3 x4 x5 x6 x7 s).2 := by
  have A := A.mono h
  clear h
  have kObjPut := objPut_keeps A rfl
  have kQueueUnits := queueUnits_keeps A rfl
  have kModEgs := modEgs_keeps A rfl
  have kLoadSession := loadSession_keeps A rfl
  have kWriteKey := writeKey_keeps A rfl
  have kTableWriteOn := tableWriteOn_keeps A rfl
  have kModCmp := modCmp_keeps A rfl
  intro x0 x1 x2 x3 x4 x5 x6 x7 s  hs
  unfold writeEntry
  repeat' first
    | with_reducible first
        | assumption | refine kObjPut _ _ _ _ _ _  ?_ | refine kQueueUnits _ _ _ _ _  ?_ | refine kModEgs _ _  ?_
        | refine kLoadSession _ _ _ _  ?_ | refine kWriteKey _ _ _ _  ?_ | refine kTableWriteOn _ _ _ _ _  ?_
        | refine kModCmp _ _ _ _  ?_ | refine each_keeps _ _ (fun _ _ _ => ?_) _ ?_
    | (extract_lets -underBinder +onlyGivenNames x; refine keeps_fact (P := P) (v := x) ?_ ?_; rotate_left; clear_value x; revert x; intro _ _; rotate_left; unfold x; clear x)
    | (extract_lets -underBinder +onlyGivenNames x; clear_value x; revert x; intro _)
    | intro _
    | split
    | with_reducible first | refine keeps_pair (by with_reducible assumption) ?_ | refine keeps_triple (by with_reducible assumption) ?_ | refine keeps_pairL (by with_reducible assumption) ?_

theorem writeCurrent_keeps (A : Allows P m) (h : m &&& 32768 = 32768) :
    ∀ x0 x1 x2 x3 s, P s → P (writeCurrent x0 x1 x2 x3 s).2 := by
  have A := A.mono h
  clear h
  have kObjPut := objPut_keeps A rfl
  intro x0 x1 x2 x3 s  hs
  unfold writeCurrent
  repeat' first
    | with_reducible first
        | assumption | refine kObjPut _ _ _ _ _ _  ?_ | refine each_keeps _ _ (fun _ _ _ => ?_) _ ?_
    | intro _
    | split

theorem readUnit_keeps (A : Allows P m) (h : m &&& 8 = 8) :
    ∀ s x1 x2 x3, P s → P (readUnit s x1 x2 x3).2 := by
  have A := A.mono h
  clear h
  have kUseFree := useFree_keeps A rfl
  intro s x1 x2 x3  hs
  unfold readUnit
  repeat' first
    | with_reducible first
        | assumption | refine kUseFree _  ?_
    | (extract_lets -underBinder +onlyGivenNames x; refine keeps_fact (P := P) (v := x) ?_ ?_; rotate_left; clear_value x; revert x; intro _ _; rotate_left; unfold x; clear x)
    | (extract_lets -underBinder +onlyGivenNames x; clear_value x; revert x; intro _)
    | split
    | with_reducible first | refine keeps_pair (by with_reducible assumption) ?_ | refine keeps_triple (by with_reducible assumption) ?_ | refine keeps_pairL (by with_reducible assumption) ?_

end Sys2Proof.Laws
end

