-- ==== Sys2Proof/Laws/TableCmd.lean ====
section
/-! SUPPORT. What each operation of Machine/TableCmd.lean can change (Laws/Keeps.lean). -/

namespace Sys2Proof.Laws

open Sys2Proof.Machine

variable {P : State → Prop} {m : Nat}

theorem writeAll_keeps (A : Allows P m) (h : m &&& 0 = 0) :
    ∀ x0 x1 x2 x3 s, (∀ a b t, P t → P (x0 a b t).2) → P s → P (writeAll x0 x1 x2 x3 s).2 := by
  intro one l n slot s k hs
  induction l generalizing n slot s with
  | nil => exact hs
  | cons e r ih =>
    obtain ⟨i, img⟩ := e
    have h1 := k i img s hs
    unfold writeAll
    split
    rename_i e
    split
    · exact ih _ _ _ (keeps_pair e h1)
    · exact keeps_pair e h1

theorem afterWrite_keeps (A : Allows P m) (h : m &&& 4096 = 4096) :
    ∀ x0 x1 x2 x3 s, P s → P (afterWrite x0 x1 x2 x3 s).2 := by
  have A := A.mono h
  clear h
  have kModInflight := modInflight_keeps A rfl
  intro x0 x1 x2 x3 s  hs
  unfold afterWrite
  repeat' first
    | with_reducible first
        | assumption | refine kModInflight _ _ _  ?_
    | intro _
    | split

theorem runTableWrite_keeps (A : Allows P m) (h : m &&& 10355841832 = 10355841832) :
    ∀ x0 x1 x2 s, P s → P (runTableWrite x0 x1 x2 s).2 := by
  have A := A.mono h
  clear h
  have kDataCheck := dataCheck_keeps A rfl
  have kWriteAll := writeAll_keeps A rfl
  have kWriteEntry := writeEntry_keeps A rfl
  have kAfterWrite := afterWrite_keeps A rfl
  intro x0 x1 x2 s  hs
  unfold runTableWrite
  repeat' first
    | with_reducible first
        | assumption | refine kDataCheck _ _ _ _ _  ?_ | refine kWriteAll _ _ _ _ _ ?_ ?_
        | refine kWriteEntry _ _ _ _ _ _ _ _ _  ?_ | refine kAfterWrite _ _ _ _ _  ?_
    | (extract_lets -underBinder +onlyGivenNames x; refine keeps_fact (P := P) (v := x) ?_ ?_; rotate_left; clear_value x; revert x; intro _ _; rotate_left; unfold x; clear x)
    | (extract_lets -underBinder +onlyGivenNames x; clear_value x; revert x; intro _)
    | intro _
    | split
    | with_reducible first | refine keeps_pair (by with_reducible assumption) ?_ | refine keeps_triple (by with_reducible assumption) ?_ | refine keeps_pairL (by with_reducible assumption) ?_

theorem readByKey_keeps (A : Allows P m) (h : m &&& 256 = 256) :
    ∀ x0 x1 x2 x3 x4 x5 s, P s → P (readByKey x0 x1 x2 x3 x4 x5 s).2 := by
  have A := A.mono h
  clear h
  have kHostWr := hostWr_keeps A rfl
  intro x0 x1 x2 x3 x4 x5 s  hs
  unfold readByKey
  repeat' first
    | with_reducible first
        | assumption | refine kHostWr _ _ _  ?_
    | (extract_lets -underBinder +onlyGivenNames x; refine keeps_fact (P := P) (v := x) ?_ ?_; rotate_left; clear_value x; revert x; intro _ _; rotate_left; unfold x; clear x)
    | (extract_lets -underBinder +onlyGivenNames x; clear_value x; revert x; intro _)
    | intro _
    | split
    | with_reducible first | refine keeps_pair (by with_reducible assumption) ?_ | refine keeps_triple (by with_reducible assumption) ?_ | refine keeps_pairL (by with_reducible assumption) ?_

theorem keyCheck_keeps (A : Allows P m) (h : m &&& 0 = 0) :
    ∀ x0 s, (∀ a t, P t → P (x0 a t).2) → P s → P (keyCheck x0 s).2 := by
  intro check s k hs
  have h1 := k false s hs
  unfold keyCheck
  generalize check false s = q at h1 ⊢
  obtain ⟨st, t⟩ := q
  dsimp only
  split
  · exact h1
  · exact k true t h1

theorem readGate_keeps (A : Allows P m) (h : m &&& 10334771488 = 10334771488) :
    ∀ x0 x1 x2 s, P s → P (readGate x0 x1 x2 s).2 := by
  have A := A.mono h
  clear h
  have kDataCheck := dataCheck_keeps A rfl
  have kHostWr := hostWr_keeps A rfl
  intro x0 x1 x2 s  hs
  unfold readGate
  repeat' first
    | with_reducible first
        | assumption | refine kDataCheck _ _ _ _ _  ?_ | refine kHostWr _ _ _  ?_
    | (extract_lets -underBinder +onlyGivenNames x; refine keeps_fact (P := P) (v := x) ?_ ?_; rotate_left; clear_value x; revert x; intro _ _; rotate_left; unfold x; clear x)
    | (extract_lets -underBinder +onlyGivenNames x; clear_value x; revert x; intro _)
    | split
    | with_reducible first | refine keeps_pair (by with_reducible assumption) ?_ | refine keeps_triple (by with_reducible assumption) ?_ | refine keeps_pairL (by with_reducible assumption) ?_

theorem runTableRead_keeps (A : Allows P m) (h : m &&& 10334771496 = 10334771496) :
    ∀ x0 x1 x2 s, P s → P (runTableRead x0 x1 x2 s).2 := by
  have A := A.mono h
  clear h
  have kReadGate := readGate_keeps A rfl
  have kReadUnit := readUnit_keeps A rfl
  have kKeyCheck := keyCheck_keeps A rfl
  have kDataCheck := dataCheck_keeps A rfl
  have kReadByKey := readByKey_keeps A rfl
  have kHostWr := hostWr_keeps A rfl
  intro x0 x1 x2 s  hs
  unfold runTableRead
  repeat' first
    | with_reducible first
        | assumption | refine kReadGate _ _ _ _  ?_ | refine kReadUnit _ _ _ _  ?_ | refine kKeyCheck _ _ ?_ ?_
        | refine kDataCheck _ _ _ _ _  ?_ | refine kReadByKey _ _ _ _ _ _ _  ?_ | refine kHostWr _ _ _  ?_
    | (extract_lets -underBinder +onlyGivenNames x; refine keeps_fact (P := P) (v := x) ?_ ?_; rotate_left; clear_value x; revert x; intro _ _; rotate_left; unfold x; clear x)
    | (extract_lets -underBinder +onlyGivenNames x; clear_value x; revert x; intro _)
    | intro _
    | split
    | with_reducible first | refine keeps_pair (by with_reducible assumption) ?_ | refine keeps_triple (by with_reducible assumption) ?_ | refine keeps_pairL (by with_reducible assumption) ?_

theorem runBulkWrite_keeps (A : Allows P m) (h : m &&& 10334771488 = 10334771488) :
    ∀ x0 x1 x2 s, P s → P (runBulkWrite x0 x1 x2 s).2 := by
  have A := A.mono h
  clear h
  have kDataCheck := dataCheck_keeps A rfl
  have kModInflight := modInflight_keeps A rfl
  intro x0 x1 x2 s  hs
  unfold runBulkWrite
  repeat' first
    | with_reducible first
        | assumption | refine kDataCheck _ _ _ _ _  ?_ | refine kModInflight _ _ _  ?_
    | (extract_lets -underBinder +onlyGivenNames x; refine keeps_fact (P := P) (v := x) ?_ ?_; rotate_left; clear_value x; revert x; intro _ _; rotate_left; unfold x; clear x)
    | (extract_lets -underBinder +onlyGivenNames x; clear_value x; revert x; intro _)
    | intro _
    | split
    | with_reducible first | refine keeps_pair (by with_reducible assumption) ?_ | refine keeps_triple (by with_reducible assumption) ?_ | refine keeps_pairL (by with_reducible assumption) ?_

theorem stepBulkWrite_keeps (A : Allows P m) (h : m &&& 10355841832 = 10355841832) :
    ∀ x0 x1 x2 x3 s, P s → P (stepBulkWrite x0 x1 x2 x3 s).2 := by
  have A := A.mono h
  clear h
  have kWriteEntry := writeEntry_keeps A rfl
  have kModInflight := modInflight_keeps A rfl
  intro x0 x1 x2 x3 s  hs
  unfold stepBulkWrite
  repeat' first
    | with_reducible first
        | assumption | refine kWriteEntry _ _ _ _ _ _ _ _ _  ?_ | refine kModInflight _ _ _  ?_
    | (extract_lets -underBinder +onlyGivenNames x; refine keeps_fact (P := P) (v := x) ?_ ?_; rotate_left; clear_value x; revert x; intro _ _; rotate_left; unfold x; clear x)
    | (extract_lets -underBinder +onlyGivenNames x; have h := fun a => x a; clear h; unfold x; clear x)
    | (extract_lets -underBinder +onlyGivenNames x; clear_value x; revert x; intro _)
    | intro _
    | split
    | with_reducible first | refine keeps_pair (by with_reducible assumption) ?_ | refine keeps_triple (by with_reducible assumption) ?_ | refine keeps_pairL (by with_reducible assumption) ?_

theorem runBulkRead_keeps (A : Allows P m) (h : m &&& 10334771496 = 10334771496) :
    ∀ x0 x1 x2 s, P s → P (runBulkRead x0 x1 x2 s).2 := by
  have A := A.mono h
  clear h
  have kReadUnit := readUnit_keeps A rfl
  have kKeyCheck := keyCheck_keeps A rfl
  have kDataCheck := dataCheck_keeps A rfl
  have kModInflight := modInflight_keeps A rfl
  intro x0 x1 x2 s  hs
  unfold runBulkRead
  repeat' first
    | with_reducible first
        | assumption | refine kReadUnit _ _ _ _  ?_ | refine kKeyCheck _ _ ?_ ?_
        | refine kDataCheck _ _ _ _ _  ?_ | refine kModInflight _ _ _  ?_
    | (extract_lets -underBinder +onlyGivenNames x; refine keeps_fact (P := P) (v := x) ?_ ?_; rotate_left; clear_value x; revert x; intro _ _; rotate_left; unfold x; clear x)
    | (extract_lets -underBinder +onlyGivenNames x; clear_value x; revert x; intro _)
    | intro _
    | split
    | with_reducible first | refine keeps_pair (by with_reducible assumption) ?_ | refine keeps_triple (by with_reducible assumption) ?_ | refine keeps_pairL (by with_reducible assumption) ?_

theorem stepBulkRead_keeps (A : Allows P m) (h : m &&& 256 = 256) :
    ∀ x0 x1 s, P s → P (stepBulkRead x0 x1 s).2 := by
  have A := A.mono h
  clear h
  have kHostWr := hostWr_keeps A rfl
  intro x0 x1 s  hs
  unfold stepBulkRead
  repeat' first
    | with_reducible first
        | assumption | refine kHostWr _ _ _  ?_
    | (extract_lets -underBinder +onlyGivenNames x; refine keeps_fact (P := P) (v := x) ?_ ?_; rotate_left; clear_value x; revert x; intro _ _; rotate_left; unfold x; clear x)
    | (extract_lets -underBinder +onlyGivenNames x; have h := fun a => x a; clear h; unfold x; clear x)
    | (extract_lets -underBinder +onlyGivenNames x; clear_value x; revert x; intro _)
    | split
    | with_reducible first | refine keeps_pair (by with_reducible assumption) ?_ | refine keeps_triple (by with_reducible assumption) ?_ | refine keeps_pairL (by with_reducible assumption) ?_

theorem runTableScan_keeps (A : Allows P m) (h : m &&& 10334771496 = 10334771496) :
    ∀ x0 x1 x2 s, P s → P (runTableScan x0 x1 x2 s).2 := by
  have A := A.mono h
  clear h
  have kReadUnit := readUnit_keeps A rfl
  have kDataCheck := dataCheck_keeps A rfl
  have kModInflight := modInflight_keeps A rfl
  intro x0 x1 x2 s  hs
  unfold runTableScan
  repeat' first
    | with_reducible first
        | assumption | refine kReadUnit _ _ _ _  ?_ | refine kDataCheck _ _ _ _ _  ?_
        | refine kModInflight _ _ _  ?_
    | (extract_lets -underBinder +onlyGivenNames x; refine keeps_fact (P := P) (v := x) ?_ ?_; rotate_left; clear_value x; revert x; intro _ _; rotate_left; unfold x; clear x)
    | (extract_lets -underBinder +onlyGivenNames x; clear_value x; revert x; intro _)
    | intro _
    | split
    | with_reducible first | refine keeps_pair (by with_reducible assumption) ?_ | refine keeps_triple (by with_reducible assumption) ?_ | refine keeps_pairL (by with_reducible assumption) ?_

theorem stepTableScan_keeps (A : Allows P m) (h : m &&& 256 = 256) :
    ∀ x0 x1 s, P s → P (stepTableScan x0 x1 s).2 := by
  have A := A.mono h
  clear h
  have kHostWr := hostWr_keeps A rfl
  intro x0 x1 s  hs
  unfold stepTableScan
  repeat' first
    | with_reducible first
        | assumption | refine kHostWr _ _ _  ?_
    | (extract_lets -underBinder +onlyGivenNames x; refine keeps_fact (P := P) (v := x) ?_ ?_; rotate_left; clear_value x; revert x; intro _ _; rotate_left; unfold x; clear x)
    | (extract_lets -underBinder +onlyGivenNames x; clear_value x; revert x; intro _)
    | split
    | with_reducible first | refine keeps_pair (by with_reducible assumption) ?_ | refine keeps_triple (by with_reducible assumption) ?_ | refine keeps_pairL (by with_reducible assumption) ?_

theorem runDigestSet_keeps (A : Allows P m) (h : m &&& 10355841832 = 10355841832) :
    ∀ x0 x1 x2 s, P s → P (runDigestSet x0 x1 x2 s).2 := by
  have A := A.mono h
  clear h
  have kDataCheck := dataCheck_keeps A rfl
  have kWriteAll := writeAll_keeps A rfl
  have kWriteEntry := writeEntry_keeps A rfl
  intro x0 x1 x2 s  hs
  unfold runDigestSet
  repeat' first
    | with_reducible first
        | assumption | refine kDataCheck _ _ _ _ _  ?_ | refine kWriteAll _ _ _ _ _ ?_ ?_
        | refine kWriteEntry _ _ _ _ _ _ _ _ _  ?_
    | (extract_lets -underBinder +onlyGivenNames x; refine keeps_fact (P := P) (v := x) ?_ ?_; rotate_left; clear_value x; revert x; intro _ _; rotate_left; unfold x; clear x)
    | (extract_lets -underBinder +onlyGivenNames x; clear_value x; revert x; intro _)
    | intro _
    | split
    | with_reducible first | refine keeps_pair (by with_reducible assumption) ?_ | refine keeps_triple (by with_reducible assumption) ?_ | refine keeps_pairL (by with_reducible assumption) ?_

theorem reclaim_keeps (A : Allows P m) (h : m &&& 10334804256 = 10334804256) :
    ∀ x0 x1 s, P s → P (reclaim x0 x1 s) := by
  have A := A.mono h
  clear h
  have kRaise := raise_keeps A rfl
  have kModEpoch := modEpoch_keeps A rfl
  intro x0 x1 s  hs
  unfold reclaim
  repeat' first
    | with_reducible first
        | assumption | refine kRaise _ _ _ _ _ _ _  ?_ | refine kModEpoch _ _ _  ?_
    | intro _

theorem epochEnter_keeps (A : Allows P m) (h : m &&& 32768 = 32768) :
    ∀ x0 s, P s → P (epochEnter x0 s).2 := by
  have A := A.mono h
  clear h
  have kModEpoch := modEpoch_keeps A rfl
  intro x0 s  hs
  unfold epochEnter
  repeat' first
    | with_reducible first
        | assumption | refine kModEpoch _ _ _  ?_
    | (extract_lets -underBinder +onlyGivenNames x; refine keeps_fact (P := P) (v := x) ?_ ?_; rotate_left; clear_value x; revert x; intro _ _; rotate_left; unfold x; clear x)
    | (extract_lets -underBinder +onlyGivenNames x; clear_value x; revert x; intro _)
    | intro _
    | split

theorem epochLeave_keeps (A : Allows P m) (h : m &&& 10334804256 = 10334804256) :
    ∀ x0 x1 s, P s → P (epochLeave x0 x1 s) := by
  have A := A.mono h
  clear h
  have kModEpoch := modEpoch_keeps A rfl
  have kReclaim := reclaim_keeps A rfl
  intro x0 x1 s  hs
  unfold epochLeave
  repeat' first
    | with_reducible first
        | assumption | refine kModEpoch _ _ _  ?_ | refine kReclaim _ _ _  ?_
    | (extract_lets -underBinder +onlyGivenNames x; refine keeps_fact (P := P) (v := x) ?_ ?_; rotate_left; clear_value x; revert x; intro _ _; rotate_left; unfold x; clear x)
    | (extract_lets -underBinder +onlyGivenNames x; clear_value x; revert x; intro _)
    | intro _
    | split

theorem flipPipe_keeps (A : Allows P m) (h : m &&& 10334804256 = 10334804256) :
    ∀ x0 s, P s → P (flipPipe x0 s) := by
  have A := A.mono h
  clear h
  have kModEpoch := modEpoch_keeps A rfl
  have kReclaim := reclaim_keeps A rfl
  intro x0 s  hs
  unfold flipPipe
  repeat' first
    | with_reducible first
        | assumption | refine kModEpoch _ _ _  ?_ | refine kReclaim _ _ _  ?_
    | (extract_lets -underBinder +onlyGivenNames x; refine keeps_fact (P := P) (v := x) ?_ ?_; rotate_left; clear_value x; revert x; intro _ _; rotate_left; unfold x; clear x)
    | (extract_lets -underBinder +onlyGivenNames x; clear_value x; revert x; intro _)
    | intro _
    | split

theorem runEpochFlip_keeps (A : Allows P m) (h : m &&& 10334804256 = 10334804256) :
    ∀ x0 x1 x2 s, P s → P (runEpochFlip x0 x1 x2 s).2 := by
  have A := A.mono h
  clear h
  have kFlipPipe := flipPipe_keeps A rfl
  intro x0 x1 x2 s  hs
  unfold runEpochFlip
  repeat' first
    | with_reducible first
        | assumption | refine kFlipPipe _ _  ?_ | refine each_keeps _ _ (fun _ _ _ => ?_) _ ?_
    | (extract_lets -underBinder +onlyGivenNames x; refine keeps_fact (P := P) (v := x) ?_ ?_; rotate_left; clear_value x; revert x; intro _ _; rotate_left; unfold x; clear x)
    | (extract_lets -underBinder +onlyGivenNames x; clear_value x; revert x; intro _)
    | intro _
    | split

theorem runG3TableWrite_keeps (A : Allows P m) (h : m &&& 10355841832 = 10355841832) :
    ∀ x0 x1 x2 s, P s → P (runG3TableWrite x0 x1 x2 s).2 := by
  have A := A.mono h
  clear h
  have kG3Check := g3Check_keeps A rfl
  have kWriteCurrent := writeCurrent_keeps A rfl
  have kWriteEntry := writeEntry_keeps A rfl
  have kWriteAll := writeAll_keeps A rfl
  have kAfterWrite := afterWrite_keeps A rfl
  intro x0 x1 x2 s  hs
  unfold runG3TableWrite
  repeat' first
    | with_reducible first
        | assumption | refine kG3Check _ _ _ _ _  ?_ | refine kWriteCurrent _ _ _ _ _  ?_
        | refine kWriteEntry _ _ _ _ _ _ _ _ _  ?_ | refine kWriteAll _ _ _ _ _ ?_ ?_
        | refine kAfterWrite _ _ _ _ _  ?_
    | (extract_lets -underBinder +onlyGivenNames x; refine keeps_fact (P := P) (v := x) ?_ ?_; rotate_left; clear_value x; revert x; intro _ _; rotate_left; unfold x; clear x)
    | (extract_lets -underBinder +onlyGivenNames x; clear_value x; revert x; intro _)
    | intro _
    | split
    | with_reducible first | refine keeps_pair (by with_reducible assumption) ?_ | refine keeps_triple (by with_reducible assumption) ?_ | refine keeps_pairL (by with_reducible assumption) ?_

theorem runG3TableRead_keeps (A : Allows P m) (h : m &&& 10334771496 = 10334771496) :
    ∀ x0 x1 x2 s, P s → P (runG3TableRead x0 x1 x2 s).2 := by
  have A := A.mono h
  clear h
  have kReadUnit := readUnit_keeps A rfl
  have kKeyCheck := keyCheck_keeps A rfl
  have kG3Check := g3Check_keeps A rfl
  have kReadByKey := readByKey_keeps A rfl
  have kHostWr := hostWr_keeps A rfl
  intro x0 x1 x2 s  hs
  unfold runG3TableRead
  repeat' first
    | with_reducible first
        | assumption | refine kReadUnit _ _ _ _  ?_ | refine kKeyCheck _ _ ?_ ?_ | refine kG3Check _ _ _ _ _  ?_
        | refine kReadByKey _ _ _ _ _ _ _  ?_ | refine kHostWr _ _ _  ?_
    | (extract_lets -underBinder +onlyGivenNames x; refine keeps_fact (P := P) (v := x) ?_ ?_; rotate_left; clear_value x; revert x; intro _ _; rotate_left; unfold x; clear x)
    | (extract_lets -underBinder +onlyGivenNames x; clear_value x; revert x; intro _)
    | intro _
    | split
    | with_reducible first | refine keeps_pair (by with_reducible assumption) ?_ | refine keeps_triple (by with_reducible assumption) ?_ | refine keeps_pairL (by with_reducible assumption) ?_

theorem execTableWrite_keeps (A : Allows P m) (h : m &&& 10355841848 = 10355841848) :
    ∀ x0 x1 s, P s → ∀ t, execTableWrite x0 x1 s = .next t → P t := by
  have A := A.mono h
  clear h
  have kCommand := command_keeps A rfl
  have kRunTableWrite := runTableWrite_keeps A rfl
  intro x0 x1 s  hs
  intro t e
  cases e
  repeat' first
    | with_reducible first
        | assumption | refine kCommand _ _ _ ?_ ?_ | refine kRunTableWrite _ _ _ _  ?_
        | refine each_keeps _ _ (fun _ _ _ => ?_) _ ?_ | refine foldl_keeps _ _ (fun _ _ _ => ?_) _ ?_
    | (extract_lets -underBinder +onlyGivenNames x; refine keeps_fact (P := P) (v := x) ?_ ?_; rotate_left; clear_value x; revert x; intro _ _; rotate_left; unfold x; clear x)
    | (extract_lets -underBinder +onlyGivenNames x; refine keeps_fact2 (P := P) (v := x) ?_ ?_; rotate_left; clear_value x; revert x; intro _ _; rotate_left; unfold x; clear x)
    | (extract_lets -underBinder +onlyGivenNames x; have h := fun a => x a; clear h; unfold x; clear x)
    | (extract_lets -underBinder +onlyGivenNames x; clear_value x; revert x; intro _)
    | intro _
    | split
    | with_reducible first | refine keeps_pair (by with_reducible assumption) ?_ | refine keeps_triple (by with_reducible assumption) ?_ | refine keeps_pairL (by with_reducible assumption) ?_

theorem execTableRead_keeps (A : Allows P m) (h : m &&& 10334771512 = 10334771512) :
    ∀ x0 x1 s, P s → ∀ t, execTableRead x0 x1 s = .next t → P t := by
  have A := A.mono h
  clear h
  have kCommand := command_keeps A rfl
  have kRunTableRead := runTableRead_keeps A rfl
  intro x0 x1 s  hs
  intro t e
  cases e
  repeat' first
    | with_reducible first
        | assumption | refine kCommand _ _ _ ?_ ?_ | refine kRunTableRead _ _ _ _  ?_
    | (extract_lets -underBinder +onlyGivenNames x; refine keeps_fact (P := P) (v := x) ?_ ?_; rotate_left; clear_value x; revert x; intro _ _; rotate_left; unfold x; clear x)
    | (extract_lets -underBinder +onlyGivenNames x; clear_value x; revert x; intro _)
    | intro _
    | split
    | with_reducible first | refine keeps_pair (by with_reducible assumption) ?_ | refine keeps_triple (by with_reducible assumption) ?_ | refine keeps_pairL (by with_reducible assumption) ?_

theorem execTableBulkWrite_keeps (A : Allows P m) (h : m &&& 10334771504 = 10334771504) :
    ∀ x0 x1 s, P s → ∀ t, execTableBulkWrite x0 x1 s = .next t → P t := by
  have A := A.mono h
  clear h
  have kCommand := command_keeps A rfl
  have kRunBulkWrite := runBulkWrite_keeps A rfl
  intro x0 x1 s  hs
  intro t e
  cases e
  repeat' first
    | with_reducible first
        | assumption | refine kCommand _ _ _ ?_ ?_ | refine kRunBulkWrite _ _ _ _  ?_
    | (extract_lets -underBinder +onlyGivenNames x; refine keeps_fact (P := P) (v := x) ?_ ?_; rotate_left; clear_value x; revert x; intro _ _; rotate_left; unfold x; clear x)
    | (extract_lets -underBinder +onlyGivenNames x; clear_value x; revert x; intro _)
    | intro _
    | split
    | with_reducible first | refine keeps_pair (by with_reducible assumption) ?_ | refine keeps_triple (by with_reducible assumption) ?_ | refine keeps_pairL (by with_reducible assumption) ?_

theorem execTableBulkRead_keeps (A : Allows P m) (h : m &&& 10334771512 = 10334771512) :
    ∀ x0 x1 s, P s → ∀ t, execTableBulkRead x0 x1 s = .next t → P t := by
  have A := A.mono h
  clear h
  have kCommand := command_keeps A rfl
  have kRunBulkRead := runBulkRead_keeps A rfl
  intro x0 x1 s  hs
  intro t e
  cases e
  repeat' first
    | with_reducible first
        | assumption | refine kCommand _ _ _ ?_ ?_ | refine kRunBulkRead _ _ _ _  ?_
    | (extract_lets -underBinder +onlyGivenNames x; refine keeps_fact (P := P) (v := x) ?_ ?_; rotate_left; clear_value x; revert x; intro _ _; rotate_left; unfold x; clear x)
    | (extract_lets -underBinder +onlyGivenNames x; clear_value x; revert x; intro _)
    | intro _
    | split
    | with_reducible first | refine keeps_pair (by with_reducible assumption) ?_ | refine keeps_triple (by with_reducible assumption) ?_ | refine keeps_pairL (by with_reducible assumption) ?_

theorem execTableScan_keeps (A : Allows P m) (h : m &&& 10334771512 = 10334771512) :
    ∀ x0 x1 s, P s → ∀ t, execTableScan x0 x1 s = .next t → P t := by
  have A := A.mono h
  clear h
  have kCommand := command_keeps A rfl
  have kRunTableScan := runTableScan_keeps A rfl
  intro x0 x1 s  hs
  intro t e
  cases e
  repeat' first
    | with_reducible first
        | assumption | refine kCommand _ _ _ ?_ ?_ | refine kRunTableScan _ _ _ _  ?_
    | (extract_lets -underBinder +onlyGivenNames x; refine keeps_fact (P := P) (v := x) ?_ ?_; rotate_left; clear_value x; revert x; intro _ _; rotate_left; unfold x; clear x)
    | (extract_lets -underBinder +onlyGivenNames x; clear_value x; revert x; intro _)
    | intro _
    | split
    | with_reducible first | refine keeps_pair (by with_reducible assumption) ?_ | refine keeps_triple (by with_reducible assumption) ?_ | refine keeps_pairL (by with_reducible assumption) ?_

theorem execDigestSet_keeps (A : Allows P m) (h : m &&& 10355841848 = 10355841848) :
    ∀ x0 x1 s, P s → ∀ t, execDigestSet x0 x1 s = .next t → P t := by
  have A := A.mono h
  clear h
  have kCommand := command_keeps A rfl
  have kRunDigestSet := runDigestSet_keeps A rfl
  intro x0 x1 s  hs
  intro t e
  cases e
  repeat' first
    | with_reducible first
        | assumption | refine kCommand _ _ _ ?_ ?_ | refine kRunDigestSet _ _ _ _  ?_
    | (extract_lets -underBinder +onlyGivenNames x; refine keeps_fact (P := P) (v := x) ?_ ?_; rotate_left; clear_value x; revert x; intro _ _; rotate_left; unfold x; clear x)
    | (extract_lets -underBinder +onlyGivenNames x; clear_value x; revert x; intro _)
    | intro _
    | split
    | with_reducible first | refine keeps_pair (by with_reducible assumption) ?_ | refine keeps_triple (by with_reducible assumption) ?_ | refine keeps_pairL (by with_reducible assumption) ?_

theorem execEpochFlip_keeps (A : Allows P m) (h : m &&& 10334804272 = 10334804272) :
    ∀ x0 x1 s, P s → ∀ t, execEpochFlip x0 x1 s = .next t → P t := by
  have A := A.mono h
  clear h
  have kCommand := command_keeps A rfl
  have kRunEpochFlip := runEpochFlip_keeps A rfl
  intro x0 x1 s  hs
  intro t e
  cases e
  repeat' first
    | with_reducible first
        | assumption | refine kCommand _ _ _ ?_ ?_ | refine kRunEpochFlip _ _ _ _  ?_
    | (extract_lets -underBinder +onlyGivenNames x; refine keeps_fact (P := P) (v := x) ?_ ?_; rotate_left; clear_value x; revert x; intro _ _; rotate_left; unfold x; clear x)
    | (extract_lets -underBinder +onlyGivenNames x; clear_value x; revert x; intro _)
    | intro _
    | split
    | with_reducible first | refine keeps_pair (by with_reducible assumption) ?_ | refine keeps_triple (by with_reducible assumption) ?_ | refine keeps_pairL (by with_reducible assumption) ?_

theorem execG3TableWrite_keeps (A : Allows P m) (h : m &&& 10355841848 = 10355841848) :
    ∀ x0 x1 s, P s → ∀ t, execG3TableWrite x0 x1 s = .next t → P t := by
  have A := A.mono h
  clear h
  have kCommand := command_keeps A rfl
  have kRunG3TableWrite := runG3TableWrite_keeps A rfl
  intro x0 x1 s  hs
  intro t e
  cases e
  repeat' first
    | with_reducible first
        | assumption | refine kCommand _ _ _ ?_ ?_ | refine kRunG3TableWrite _ _ _ _  ?_
    | (extract_lets -underBinder +onlyGivenNames x; refine keeps_fact (P := P) (v := x) ?_ ?_; rotate_left; clear_value x; revert x; intro _ _; rotate_left; unfold x; clear x)
    | (extract_lets -underBinder +onlyGivenNames x; clear_value x; revert x; intro _)
    | intro _
    | split
    | with_reducible first | refine keeps_pair (by with_reducible assumption) ?_ | refine keeps_triple (by with_reducible assumption) ?_ | refine keeps_pairL (by with_reducible assumption) ?_

theorem execG3TableRead_keeps (A : Allows P m) (h : m &&& 10334771512 = 10334771512) :
    ∀ x0 x1 s, P s → ∀ t, execG3TableRead x0 x1 s = .next t → P t := by
  have A := A.mono h
  clear h
  have kCommand := command_keeps A rfl
  have kRunG3TableRead := runG3TableRead_keeps A rfl
  intro x0 x1 s  hs
  intro t e
  cases e
  repeat' first
    | with_reducible first
        | assumption | refine kCommand _ _ _ ?_ ?_ | refine kRunG3TableRead _ _ _ _  ?_
    | (extract_lets -underBinder +onlyGivenNames x; refine keeps_fact (P := P) (v := x) ?_ ?_; rotate_left; clear_value x; revert x; intro _ _; rotate_left; unfold x; clear x)
    | (extract_lets -underBinder +onlyGivenNames x; clear_value x; revert x; intro _)
    | intro _
    | split
    | with_reducible first | refine keeps_pair (by with_reducible assumption) ?_ | refine keeps_triple (by with_reducible assumption) ?_ | refine keeps_pairL (by with_reducible assumption) ?_

end Sys2Proof.Laws
end

