-- ==== Sys2Proof/Laws/Egress.lean ====
section
/-! SUPPORT. What each operation of Machine/Egress.lean can change (Laws/Keeps.lean). -/

namespace Sys2Proof.Laws

open Sys2Proof.Machine

variable {P : State → Prop} {m : Nat}

theorem owe_keeps (A : Allows P m) (h : m &&& 10240 = 10240) :
    ∀ x0 x1 s, P s → P (owe x0 x1 s) := by
  have A := A.mono h
  clear h
  have kCntAdd := cntAdd_keeps A rfl
  have kModPkt := modPkt_keeps A rfl
  intro x0 x1 s  hs
  unfold owe
  repeat' first
    | with_reducible first
        | assumption | refine kCntAdd _ _ _ _ _  ?_ | refine kModPkt _ _ _  ?_
    | intro _
    | split
    | with_reducible first | refine keeps_pair (by with_reducible assumption) ?_ | refine keeps_triple (by with_reducible assumption) ?_ | refine keeps_pairL (by with_reducible assumption) ?_

theorem payOwed_keeps (A : Allows P m) (h : m &&& 10240 = 10240) :
    ∀ x0 s, P s → P (payOwed x0 s) := by
  have A := A.mono h
  clear h
  have kCntAdd := cntAdd_keeps A rfl
  have kModPkt := modPkt_keeps A rfl
  intro x0 s  hs
  unfold payOwed
  repeat' first
    | with_reducible first
        | assumption | refine kCntAdd _ _ _ _ _  ?_ | refine kModPkt _ _ _  ?_
        | refine each_keeps _ _ (fun _ _ _ => ?_) _ ?_
    | intro _
    | split
    | with_reducible first | refine keeps_pair (by with_reducible assumption) ?_ | refine keeps_triple (by with_reducible assumption) ?_ | refine keeps_pairL (by with_reducible assumption) ?_

theorem countRx_keeps (A : Allows P m) (h : m &&& 16777216 = 16777216) :
    ∀ x0 x1 x2 s, P s → P (countRx x0 x1 x2 s) := by
  have A := A.mono h
  clear h
  have kModEgs := modEgs_keeps A rfl
  intro x0 x1 x2 s  hs
  unfold countRx
  repeat' first
    | with_reducible first
        | assumption | refine kModEgs _ _  ?_
    | (extract_lets -underBinder +onlyGivenNames x; refine keeps_fact (P := P) (v := x) ?_ ?_; rotate_left; clear_value x; revert x; intro _ _; rotate_left; unfold x; clear x)
    | (extract_lets -underBinder +onlyGivenNames x; clear_value x; revert x; intro _)
    | intro _
    | split

theorem countArrival_keeps (A : Allows P m) (h : m &&& 16777216 = 16777216) :
    ∀ x0 s, P s → P (countArrival x0 s) := by
  have A := A.mono h
  clear h
  have kCountRx := countRx_keeps A rfl
  intro x0 s  hs
  unfold countArrival
  repeat' first
    | with_reducible first
        | assumption | refine kCountRx _ _ _ _  ?_
    | split
    | with_reducible first | refine keeps_pair (by with_reducible assumption) ?_ | refine keeps_triple (by with_reducible assumption) ?_ | refine keeps_pairL (by with_reducible assumption) ?_

theorem injectDone_keeps (A : Allows P m) (h : m &&& 6400 = 6400) :
    ∀ x0 x1 x2 x3 s, P s → P (injectDone x0 x1 x2 x3 s) := by
  have A := A.mono h
  clear h
  have kPutCompletion := putCompletion_keeps A rfl
  intro x0 x1 x2 x3 s  hs
  unfold injectDone
  repeat' first
    | with_reducible first
        | assumption | refine kPutCompletion _ _ _  ?_
    | split
    | with_reducible first | refine keeps_pair (by with_reducible assumption) ?_ | refine keeps_triple (by with_reducible assumption) ?_ | refine keeps_pairL (by with_reducible assumption) ?_

theorem leaveEpoch_keeps (A : Allows P m) (h : m &&& 10334812448 = 10334812448) :
    ∀ x0 s, P s → P (leaveEpoch x0 s) := by
  have A := A.mono h
  clear h
  have kEpochLeave := epochLeave_keeps A rfl
  have kModPkt := modPkt_keeps A rfl
  intro x0 s  hs
  unfold leaveEpoch
  repeat' first
    | with_reducible first
        | assumption | refine kEpochLeave _ _ _  ?_ | refine kModPkt _ _ _  ?_
    | intro _
    | split
    | with_reducible first | refine keeps_pair (by with_reducible assumption) ?_ | refine keeps_triple (by with_reducible assumption) ?_ | refine keeps_pairL (by with_reducible assumption) ?_

theorem syncSpec_keeps (A : Allows P m) (h : m &&& 131072 = 131072) :
    ∀ x0 s, P s → P (syncSpec x0 s) := by
  have A := A.mono h
  clear h
  have kModReplicas := modReplicas_keeps A rfl
  intro x0 s  hs
  unfold syncSpec
  repeat' first
    | with_reducible first
        | assumption | refine kModReplicas _ _ _  ?_
    | (extract_lets -underBinder +onlyGivenNames x; refine keeps_fact (P := P) (v := x) ?_ ?_; rotate_left; clear_value x; revert x; intro _ _; rotate_left; unfold x; clear x)
    | (extract_lets -underBinder +onlyGivenNames x; clear_value x; revert x; intro _)
    | intro _

theorem forgetPasses_keeps (A : Allows P m) (h : m &&& 4589568 = 4589568) :
    ∀ x0 s, P s → P (forgetPasses x0 s) := by
  have A := A.mono h
  clear h
  have kModPipe := modPipe_keeps A rfl
  have kModWaitings := modWaitings_keeps A rfl
  have kSyncSpec := syncSpec_keeps A rfl
  have kDropWaiters := dropWaiters_keeps A rfl
  intro x0 s  hs
  unfold forgetPasses
  repeat' first
    | with_reducible first
        | assumption | refine kModPipe _ _ _  ?_ | refine kModWaitings _ _ _  ?_ | refine kSyncSpec _ _  ?_
        | refine kDropWaiters _ _  ?_
    | (extract_lets -underBinder +onlyGivenNames x; refine keeps_fact (P := P) (v := x) ?_ ?_; rotate_left; clear_value x; revert x; intro _ _; rotate_left; unfold x; clear x)
    | (extract_lets -underBinder +onlyGivenNames x; clear_value x; revert x; intro _)
    | intro _
    | split
    | with_reducible first | refine keeps_pair (by with_reducible assumption) ?_ | refine keeps_triple (by with_reducible assumption) ?_ | refine keeps_pairL (by with_reducible assumption) ?_

theorem specCnt_keeps (A : Allows P m) (h : m &&& 2048 = 2048) :
    ∀ x0 x1 x2 s, P s → P (specCnt x0 x1 x2 s) := by
  have A := A.mono h
  clear h
  have kCntAdd := cntAdd_keeps A rfl
  intro x0 x1 x2 s  hs
  unfold specCnt
  repeat' first
    | with_reducible first
        | assumption | refine kCntAdd _ _ _ _ _  ?_

theorem countSquashes_keeps (A : Allows P m) (h : m &&& 10240 = 10240) :
    ∀ x0 s, P s → P (countSquashes x0 s) := by
  have A := A.mono h
  clear h
  have kSpecCnt := specCnt_keeps A rfl
  have kModPkt := modPkt_keeps A rfl
  intro x0 s  hs
  unfold countSquashes
  repeat' first
    | with_reducible first
        | assumption | refine kSpecCnt _ _ _ _  ?_ | refine kModPkt _ _ _  ?_
        | refine each_keeps _ _ (fun _ _ _ => ?_) _ ?_
    | (extract_lets -underBinder +onlyGivenNames x; refine keeps_fact (P := P) (v := x) ?_ ?_; rotate_left; clear_value x; revert x; intro _ _; rotate_left; unfold x; clear x)
    | (extract_lets -underBinder +onlyGivenNames x; clear_value x; revert x; intro _)
    | intro _
    | split
    | with_reducible first | refine keeps_pair (by with_reducible assumption) ?_ | refine keeps_triple (by with_reducible assumption) ?_ | refine keeps_pairL (by with_reducible assumption) ?_

theorem endPkt_keeps (A : Allows P m) (h : m &&& 10356177184 = 10356177184) :
    ∀ x0 s, P s → P (endPkt x0 s) := by
  have A := A.mono h
  clear h
  have kFreeFrame := freeFrame_keeps A rfl
  have kCountSquashes := countSquashes_keeps A rfl
  have kCountArrival := countArrival_keeps A rfl
  have kLeaveEpoch := leaveEpoch_keeps A rfl
  have kForgetPasses := forgetPasses_keeps A rfl
  have kInjectDone := injectDone_keeps A rfl
  have kModBuf := modBuf_keeps A rfl
  have kDropPkt := dropPkt_keeps A rfl
  intro x0 s  hs
  unfold endPkt
  repeat' first
    | with_reducible first
        | assumption | refine kFreeFrame _ _  ?_ | refine kCountSquashes _ _  ?_ | refine kCountArrival _ _  ?_
        | refine kLeaveEpoch _ _  ?_ | refine kForgetPasses _ _  ?_ | refine kInjectDone _ _ _ _ _  ?_
        | refine kModBuf _ _  ?_ | refine kDropPkt _ _  ?_
    | (extract_lets -underBinder +onlyGivenNames x; refine keeps_fact (P := P) (v := x) ?_ ?_; rotate_left; clear_value x; revert x; intro _ _; rotate_left; unfold x; clear x)
    | (extract_lets -underBinder +onlyGivenNames x; clear_value x; revert x; intro _)
    | intro _
    | split
    | with_reducible first | refine keeps_pair (by with_reducible assumption) ?_ | refine keeps_triple (by with_reducible assumption) ?_ | refine keeps_pairL (by with_reducible assumption) ?_

theorem stageFree_keeps (A : Allows P m) (h : m &&& 10355751200 = 10355751200) :
    ∀ x0 s, P s → P (stageFree x0 s) := by
  have A := A.mono h
  clear h
  have kModPkt := modPkt_keeps A rfl
  have kFreeOwn := freeOwn_keeps A rfl
  have kMoveCells := moveCells_keeps A rfl
  have kFreeIngress := freeIngress_keeps A rfl
  intro x0 s  hs
  unfold stageFree
  repeat' first
    | with_reducible first
        | assumption | refine kModPkt _ _ _  ?_ | refine kFreeOwn _ _  ?_ | refine kMoveCells _ _ _  ?_
        | refine kFreeIngress _ _  ?_
    | (extract_lets -underBinder +onlyGivenNames x; refine keeps_fact (P := P) (v := x) ?_ ?_; rotate_left; clear_value x; revert x; intro _ _; rotate_left; unfold x; clear x)
    | (extract_lets -underBinder +onlyGivenNames x; have h := fun a => x a; clear h; unfold x; clear x)
    | (extract_lets -underBinder +onlyGivenNames x; clear_value x; revert x; intro _)
    | intro _
    | split
    | with_reducible first | refine keeps_pair (by with_reducible assumption) ?_ | refine keeps_triple (by with_reducible assumption) ?_ | refine keeps_pairL (by with_reducible assumption) ?_

theorem unref_keeps (A : Allows P m) (h : m &&& 10356177184 = 10356177184) :
    ∀ x0 s, P s → P (unref x0 s) := by
  have A := A.mono h
  clear h
  have kEndPkt := endPkt_keeps A rfl
  have kStageFree := stageFree_keeps A rfl
  have kModPkt := modPkt_keeps A rfl
  intro x0 s  hs
  unfold unref
  repeat' first
    | with_reducible first
        | assumption | refine kEndPkt _ _  ?_ | refine kStageFree _ _  ?_ | refine kModPkt _ _ _  ?_
    | intro _
    | split
    | with_reducible first | refine keeps_pair (by with_reducible assumption) ?_ | refine keeps_triple (by with_reducible assumption) ?_ | refine keeps_pairL (by with_reducible assumption) ?_

theorem setPeak_keeps (A : Allows P m) (h : m &&& 16777216 = 16777216) :
    ∀ x0 x1 s, P s → P (setPeak x0 x1 s) := by
  have A := A.mono h
  clear h
  have kModEgs := modEgs_keeps A rfl
  intro x0 x1 s  hs
  unfold setPeak
  repeat' first
    | with_reducible first
        | assumption | refine kModEgs _ _  ?_
    | (extract_lets -underBinder +onlyGivenNames x; refine keeps_fact (P := P) (v := x) ?_ ?_; rotate_left; clear_value x; revert x; intro _ _; rotate_left; unfold x; clear x)
    | (extract_lets -underBinder +onlyGivenNames x; clear_value x; revert x; intro _)
    | intro _
    | split
    | with_reducible first | refine keeps_pair (by with_reducible assumption) ?_ | refine keeps_triple (by with_reducible assumption) ?_ | refine keeps_pairL (by with_reducible assumption) ?_

theorem setComm_keeps (A : Allows P m) (h : m &&& 16777216 = 16777216) :
    ∀ x0 x1 s, P s → P (setComm x0 x1 s) := by
  have A := A.mono h
  clear h
  have kModEgs := modEgs_keeps A rfl
  intro x0 x1 s  hs
  unfold setComm
  repeat' first
    | with_reducible first
        | assumption | refine kModEgs _ _  ?_
    | (extract_lets -underBinder +onlyGivenNames x; refine keeps_fact (P := P) (v := x) ?_ ?_; rotate_left; clear_value x; revert x; intro _ _; rotate_left; unfold x; clear x)
    | (extract_lets -underBinder +onlyGivenNames x; clear_value x; revert x; intro _)
    | intro _
    | split
    | with_reducible first | refine keeps_pair (by with_reducible assumption) ?_ | refine keeps_triple (by with_reducible assumption) ?_ | refine keeps_pairL (by with_reducible assumption) ?_

theorem chargePeak_keeps (A : Allows P m) (h : m &&& 16777216 = 16777216) :
    ∀ x0 x1 s, P s → P (chargePeak x0 x1 s) := by
  have A := A.mono h
  clear h
  have kSetPeak := setPeak_keeps A rfl
  intro x0 x1 s  hs
  unfold chargePeak
  repeat' first
    | with_reducible first
        | assumption | refine kSetPeak _ _ _  ?_
    | split

theorem chargeComm_keeps (A : Allows P m) (h : m &&& 16777216 = 16777216) :
    ∀ x0 x1 s, P s → P (chargeComm x0 x1 s) := by
  have A := A.mono h
  clear h
  have kSetComm := setComm_keeps A rfl
  intro x0 x1 s  hs
  unfold chargeComm
  repeat' first
    | with_reducible first
        | assumption | refine kSetComm _ _ _  ?_
    | (extract_lets -underBinder +onlyGivenNames x; refine keeps_fact (P := P) (v := x) ?_ ?_; rotate_left; clear_value x; revert x; intro _ _; rotate_left; unfold x; clear x)
    | (extract_lets -underBinder +onlyGivenNames x; clear_value x; revert x; intro _)
    | intro _
    | split
    | with_reducible first | refine keeps_pair (by with_reducible assumption) ?_ | refine keeps_triple (by with_reducible assumption) ?_ | refine keeps_pairL (by with_reducible assumption) ?_

theorem refundPeak_keeps (A : Allows P m) (h : m &&& 16777216 = 16777216) :
    ∀ x0 x1 s, P s → P (refundPeak x0 x1 s) := by
  have A := A.mono h
  clear h
  have kSetPeak := setPeak_keeps A rfl
  intro x0 x1 s  hs
  unfold refundPeak
  repeat' first
    | with_reducible first
        | assumption | refine kSetPeak _ _ _  ?_
    | (extract_lets -underBinder +onlyGivenNames x; refine keeps_fact (P := P) (v := x) ?_ ?_; rotate_left; clear_value x; revert x; intro _ _; rotate_left; unfold x; clear x)
    | (extract_lets -underBinder +onlyGivenNames x; clear_value x; revert x; intro _)
    | intro _
    | split
    | with_reducible first | refine keeps_pair (by with_reducible assumption) ?_ | refine keeps_triple (by with_reducible assumption) ?_ | refine keeps_pairL (by with_reducible assumption) ?_

theorem refundComm_keeps (A : Allows P m) (h : m &&& 16777216 = 16777216) :
    ∀ x0 x1 s, P s → P (refundComm x0 x1 s) := by
  have A := A.mono h
  clear h
  have kSetComm := setComm_keeps A rfl
  intro x0 x1 s  hs
  unfold refundComm
  repeat' first
    | with_reducible first
        | assumption | refine kSetComm _ _ _  ?_
    | (extract_lets -underBinder +onlyGivenNames x; refine keeps_fact (P := P) (v := x) ?_ ?_; rotate_left; clear_value x; revert x; intro _ _; rotate_left; unfold x; clear x)
    | (extract_lets -underBinder +onlyGivenNames x; clear_value x; revert x; intro _)
    | intro _
    | split
    | with_reducible first | refine keeps_pair (by with_reducible assumption) ?_ | refine keeps_triple (by with_reducible assumption) ?_ | refine keeps_pairL (by with_reducible assumption) ?_

theorem updateNode_keeps (A : Allows P m) (h : m &&& 16809984 = 16809984) :
    ∀ x0 s, P s → P (updateNode x0 s) := by
  have A := A.mono h
  clear h
  have kModEgs := modEgs_keeps A rfl
  have kObjPut := objPut_keeps A rfl
  have kSetPeak := setPeak_keeps A rfl
  have kSetComm := setComm_keeps A rfl
  intro x0 s  hs
  unfold updateNode
  repeat' first
    | with_reducible first
        | assumption | refine kModEgs _ _  ?_ | refine kObjPut _ _ _ _ _ _  ?_ | refine kSetPeak _ _ _  ?_
        | refine kSetComm _ _ _  ?_
    | (extract_lets -underBinder +onlyGivenNames x; refine keeps_fact (P := P) (v := x) ?_ ?_; rotate_left; clear_value x; revert x; intro _ _; rotate_left; unfold x; clear x)
    | (extract_lets -underBinder +onlyGivenNames x; have h := fun a => x a; clear h; unfold x; clear x)
    | (extract_lets -underBinder +onlyGivenNames x; clear_value x; revert x; intro _)
    | intro _
    | split
    | with_reducible first | refine keeps_pair (by with_reducible assumption) ?_ | refine keeps_triple (by with_reducible assumption) ?_ | refine keeps_pairL (by with_reducible assumption) ?_

theorem dropUse_keeps (A : Allows P m) (h : m &&& 10356177184 = 10356177184) :
    ∀ x0 x1 s, P s → P (dropUse x0 x1 s) := by
  have A := A.mono h
  clear h
  have kUnref := unref_keeps A rfl
  have kCntAdd := cntAdd_keeps A rfl
  have kPayOwed := payOwed_keeps A rfl
  have kOwe := owe_keeps A rfl
  intro x0 x1 s  hs
  unfold dropUse
  repeat' first
    | with_reducible first
        | assumption | refine kUnref _ _  ?_ | refine kCntAdd _ _ _ _ _  ?_ | refine kPayOwed _ _  ?_
        | refine kOwe _ _ _  ?_
    | split
    | with_reducible first | refine keeps_pair (by with_reducible assumption) ?_ | refine keeps_triple (by with_reducible assumption) ?_ | refine keeps_pairL (by with_reducible assumption) ?_

theorem dropEnt_keeps (A : Allows P m) (h : m &&& 10356177184 = 10356177184) :
    ∀ x0 x1 s, P s → P (dropEnt x0 x1 s) := by
  have A := A.mono h
  clear h
  have kDropUse := dropUse_keeps A rfl
  intro x0 x1 s  hs
  unfold dropEnt
  repeat' first
    | with_reducible first
        | assumption | refine kDropUse _ _ _  ?_

theorem noteDepth_keeps (A : Allows P m) (h : m &&& 16777216 = 16777216) :
    ∀ x0 x1 s, P s → P (noteDepth x0 x1 s) := by
  have A := A.mono h
  clear h
  have kModEgs := modEgs_keeps A rfl
  intro x0 x1 s  hs
  unfold noteDepth
  repeat' first
    | with_reducible first
        | assumption | refine kModEgs _ _  ?_
    | (extract_lets -underBinder +onlyGivenNames x; refine keeps_fact (P := P) (v := x) ?_ ?_; rotate_left; clear_value x; revert x; intro _ _; rotate_left; unfold x; clear x)
    | (extract_lets -underBinder +onlyGivenNames x; clear_value x; revert x; intro _)
    | intro _

theorem formQueueTag_keeps (A : Allows P m) (h : m &&& 16777216 = 16777216) :
    ∀ x0 x1 s, P s → P (formQueueTag x0 x1 s) := by
  have A := A.mono h
  clear h
  have kModEgs := modEgs_keeps A rfl
  have kModEgq := modEgq_keeps A rfl
  intro x0 x1 s  hs
  unfold formQueueTag
  repeat' first
    | with_reducible first
        | assumption | refine kModEgs _ _  ?_ | refine kModEgq _ _ _ _  ?_
    | (extract_lets -underBinder +onlyGivenNames x; refine keeps_fact (P := P) (v := x) ?_ ?_; rotate_left; clear_value x; revert x; intro _ _; rotate_left; unfold x; clear x)
    | (extract_lets -underBinder +onlyGivenNames x; clear_value x; revert x; intro _)
    | intro _
    | split
    | with_reducible first | refine keeps_pair (by with_reducible assumption) ?_ | refine keeps_triple (by with_reducible assumption) ?_ | refine keeps_pairL (by with_reducible assumption) ?_

theorem formGroupTag.make_keeps (A : Allows P m) (h : m &&& 16777216 = 16777216) :
    ∀ x0 x1 x2 x3 x4 x5 s, P s → P (formGroupTag.make x0 x1 x2 x3 x4 x5 s) := by
  have A := A.mono h
  clear h
  have kModEgs := modEgs_keeps A rfl
  intro x0 x1 x2 x3 x4 x5 s  hs
  unfold formGroupTag.make
  repeat' first
    | with_reducible first
        | assumption | refine kModEgs _ _  ?_
    | (extract_lets -underBinder +onlyGivenNames x; refine keeps_fact (P := P) (v := x) ?_ ?_; rotate_left; clear_value x; revert x; intro _ _; rotate_left; unfold x; clear x)
    | (extract_lets -underBinder +onlyGivenNames x; clear_value x; revert x; intro _)
    | intro _
    | split
    | with_reducible first | refine keeps_pair (by with_reducible assumption) ?_ | refine keeps_triple (by with_reducible assumption) ?_ | refine keeps_pairL (by with_reducible assumption) ?_

theorem formGroupTag_keeps (A : Allows P m) (h : m &&& 16777216 = 16777216) :
    ∀ x0 x1 x2 s, P s → P (formGroupTag x0 x1 x2 s) := by
  have A := A.mono h
  clear h
  have kFormGroupTag_make := formGroupTag.make_keeps A rfl
  intro x0 x1 x2 s  hs
  unfold formGroupTag
  repeat' first
    | with_reducible first
        | assumption | refine kFormGroupTag_make _ _ _ _ _ _ _  ?_
    | (extract_lets -underBinder +onlyGivenNames x; refine keeps_fact (P := P) (v := x) ?_ ?_; rotate_left; clear_value x; revert x; intro _ _; rotate_left; unfold x; clear x)
    | (extract_lets -underBinder +onlyGivenNames x; clear_value x; revert x; intro _)
    | intro _
    | split
    | with_reducible first | refine keeps_pair (by with_reducible assumption) ?_ | refine keeps_triple (by with_reducible assumption) ?_ | refine keeps_pairL (by with_reducible assumption) ?_

theorem chargeSelection_keeps (A : Allows P m) (h : m &&& 16777216 = 16777216) :
    ∀ x0 x1 x2 x3 s, P s → P (chargeSelection x0 x1 x2 x3 s).2 := by
  have A := A.mono h
  clear h
  have kChargePeak := chargePeak_keeps A rfl
  have kChargeComm := chargeComm_keeps A rfl
  have kModEgs := modEgs_keeps A rfl
  intro x0 x1 x2 x3 s  hs
  unfold chargeSelection
  repeat' first
    | with_reducible first
        | assumption | refine kChargePeak _ _ _  ?_ | refine kChargeComm _ _ _  ?_ | refine kModEgs _ _  ?_
    | (extract_lets -underBinder +onlyGivenNames x; refine keeps_fact (P := P) (v := x) ?_ ?_; rotate_left; clear_value x; revert x; intro _ _; rotate_left; unfold x; clear x)
    | (extract_lets -underBinder +onlyGivenNames x; clear_value x; revert x; intro _)
    | intro _
    | split
    | with_reducible first | refine keeps_pair (by with_reducible assumption) ?_ | refine keeps_triple (by with_reducible assumption) ?_ | refine keeps_pairL (by with_reducible assumption) ?_

theorem headTags_keeps (A : Allows P m) (h : m &&& 16777216 = 16777216) :
    ∀ x0 x1 s, P s → P (headTags x0 x1 s) := by
  have A := A.mono h
  clear h
  have kFormGroupTag := formGroupTag_keeps A rfl
  intro x0 x1 s  hs
  unfold headTags
  repeat' first
    | with_reducible first
        | assumption | refine kFormGroupTag _ _ _ _  ?_
    | split
    | with_reducible first | refine keeps_pair (by with_reducible assumption) ?_ | refine keeps_triple (by with_reducible assumption) ?_ | refine keeps_pairL (by with_reducible assumption) ?_

theorem formTags_keeps (A : Allows P m) (h : m &&& 16777216 = 16777216) :
    ∀ x0 s, P s → P (formTags x0 s) := by
  have A := A.mono h
  clear h
  have kFormQueueTag := formQueueTag_keeps A rfl
  have kFormGroupTag := formGroupTag_keeps A rfl
  intro x0 s  hs
  unfold formTags
  repeat' first
    | with_reducible first
        | assumption | refine kFormQueueTag _ _ _  ?_ | refine kFormGroupTag _ _ _ _  ?_
        | refine each_keeps _ _ (fun _ _ _ => ?_) _ ?_
    | (extract_lets -underBinder +onlyGivenNames x; refine keeps_fact (P := P) (v := x) ?_ ?_; rotate_left; clear_value x; revert x; intro _ _; rotate_left; unfold x; clear x)
    | (extract_lets -underBinder +onlyGivenNames x; clear_value x; revert x; intro _)
    | intro _
    | split
    | with_reducible first | refine keeps_pair (by with_reducible assumption) ?_ | refine keeps_triple (by with_reducible assumption) ?_ | refine keeps_pairL (by with_reducible assumption) ?_

theorem enqueue_keeps (A : Allows P m) (h : m &&& 10356177184 = 10356177184) :
    ∀ x0 x1 s, P s → P (enqueue x0 x1 s) := by
  have A := A.mono h
  clear h
  have kDropEnt := dropEnt_keeps A rfl
  have kCntInc := cntInc_keeps A rfl
  have kNoteDepth := noteDepth_keeps A rfl
  have kModEgq := modEgq_keeps A rfl
  have kHeadTags := headTags_keeps A rfl
  have kFormQueueTag := formQueueTag_keeps A rfl
  intro x0 x1 s  hs
  unfold enqueue
  repeat' first
    | with_reducible first
        | assumption | refine kDropEnt _ _ _  ?_ | refine kCntInc _ _ _ _  ?_ | refine kNoteDepth _ _ _  ?_
        | refine kModEgq _ _ _ _  ?_ | refine kHeadTags _ _ _  ?_ | refine kFormQueueTag _ _ _  ?_
    | (extract_lets -underBinder +onlyGivenNames x; refine keeps_fact (P := P) (v := x) ?_ ?_; rotate_left; clear_value x; revert x; intro _ _; rotate_left; unfold x; clear x)
    | (extract_lets -underBinder +onlyGivenNames x; clear_value x; revert x; intro _)
    | split

theorem schedulerSelect_keeps (A : Allows P m) (h : m &&& 16787456 = 16787456) :
    ∀ x0 s, P s → P (schedulerSelect x0 s) := by
  have A := A.mono h
  clear h
  have kFormTags := formTags_keeps A rfl
  have kChargeSelection := chargeSelection_keeps A rfl
  have kOwe := owe_keeps A rfl
  have kModLaunch := modLaunch_keeps A rfl
  have kModEgq := modEgq_keeps A rfl
  have kFormQueueTag := formQueueTag_keeps A rfl
  intro x0 s  hs
  unfold schedulerSelect
  repeat' first
    | with_reducible first
        | assumption | refine kFormTags _ _  ?_ | refine kChargeSelection _ _ _ _ _  ?_ | refine kOwe _ _ _  ?_
        | refine kModLaunch _ _ _  ?_ | refine kModEgq _ _ _ _  ?_ | refine kFormQueueTag _ _ _  ?_
    | (extract_lets -underBinder +onlyGivenNames x; refine keeps_fact (P := P) (v := x) ?_ ?_; rotate_left; clear_value x; revert x; intro _ _; rotate_left; unfold x; clear x)
    | (extract_lets -underBinder +onlyGivenNames x; clear_value x; revert x; intro _)
    | intro _
    | split
    | with_reducible first | refine keeps_pair (by with_reducible assumption) ?_ | refine keeps_triple (by with_reducible assumption) ?_ | refine keeps_pairL (by with_reducible assumption) ?_

theorem refund_keeps (A : Allows P m) (h : m &&& 16777216 = 16777216) :
    ∀ x0 x1 s, P s → P (refund x0 x1 s) := by
  have A := A.mono h
  clear h
  have kRefundPeak := refundPeak_keeps A rfl
  have kRefundComm := refundComm_keeps A rfl
  intro x0 x1 s  hs
  unfold refund
  repeat' first
    | with_reducible first
        | assumption | refine kRefundPeak _ _ _  ?_ | refine kRefundComm _ _ _  ?_
    | (extract_lets -underBinder +onlyGivenNames x; refine keeps_fact (P := P) (v := x) ?_ ?_; rotate_left; clear_value x; revert x; intro _ _; rotate_left; unfold x; clear x)
    | (extract_lets -underBinder +onlyGivenNames x; have h := fun a => x a; clear h; unfold x; clear x)
    | (extract_lets -underBinder +onlyGivenNames x; clear_value x; revert x; intro _)
    | split

theorem unlinkPort_keeps (A : Allows P m) (h : m &&& 16777216 = 16777216) :
    ∀ x0 x1 s, P s → P (unlinkPort x0 x1 s) := by
  have A := A.mono h
  clear h
  have kRefund := refund_keeps A rfl
  have kModLaunch := modLaunch_keeps A rfl
  have kFormQueueTag := formQueueTag_keeps A rfl
  have kModEgq := modEgq_keeps A rfl
  intro x0 x1 s  hs
  unfold unlinkPort
  repeat' first
    | with_reducible first
        | assumption | refine kRefund _ _ _  ?_ | refine kModLaunch _ _ _  ?_ | refine kFormQueueTag _ _ _  ?_
        | refine kModEgq _ _ _ _  ?_ | refine each_keeps _ _ (fun _ _ _ => ?_) _ ?_
    | (extract_lets -underBinder +onlyGivenNames x; refine keeps_fact (P := P) (v := x) ?_ ?_; rotate_left; clear_value x; revert x; intro _ _; rotate_left; unfold x; clear x)
    | (extract_lets -underBinder +onlyGivenNames x; clear_value x; revert x; intro _)
    | intro _
    | split

theorem oweUnlinks_keeps (A : Allows P m) (h : m &&& 10240 = 10240) :
    ∀ x0 s, P s → P (oweUnlinks x0 s) := by
  have A := A.mono h
  clear h
  have kOwe := owe_keeps A rfl
  intro x0 s  hs
  unfold oweUnlinks
  repeat' first
    | with_reducible first
        | assumption | refine kOwe _ _ _  ?_ | refine each_keeps _ _ (fun _ _ _ => ?_) _ ?_
    | intro _

theorem unlinkEgress_keeps (A : Allows P m) (h : m &&& 16777216 = 16777216) :
    ∀ x0 s, P s → P (unlinkEgress x0 s) := by
  have A := A.mono h
  clear h
  have kUnlinkPort := unlinkPort_keeps A rfl
  intro x0 s  hs
  unfold unlinkEgress
  repeat' first
    | with_reducible first
        | assumption | refine kUnlinkPort _ _ _  ?_ | refine each_keeps _ _ (fun _ _ _ => ?_) _ ?_

theorem dropPort_keeps (A : Allows P m) (h : m &&& 10356177184 = 10356177184) :
    ∀ x0 s, P s → P (dropPort x0 s) := by
  have A := A.mono h
  clear h
  have kModLaunch := modLaunch_keeps A rfl
  have kDropEnt := dropEnt_keeps A rfl
  have kModEgq := modEgq_keeps A rfl
  intro x0 s  hs
  unfold dropPort
  repeat' first
    | with_reducible first
        | assumption | refine kModLaunch _ _ _  ?_ | refine kDropEnt _ _ _  ?_ | refine kModEgq _ _ _ _  ?_
        | refine each_keeps _ _ (fun _ _ _ => ?_) _ ?_
    | (extract_lets -underBinder +onlyGivenNames x; refine keeps_fact (P := P) (v := x) ?_ ?_; rotate_left; clear_value x; revert x; intro _ _; rotate_left; unfold x; clear x)
    | (extract_lets -underBinder +onlyGivenNames x; have h := fun a => x a; clear h; unfold x; clear x)
    | (extract_lets -underBinder +onlyGivenNames x; clear_value x; revert x; intro _)
    | intro _
    | split

theorem sampleStart_keeps (A : Allows P m) (h : m &&& 16777216 = 16777216) :
    ∀ x0 x1 s, P s → P (sampleStart x0 x1 s) := by
  have A := A.mono h
  clear h
  have kModEgs := modEgs_keeps A rfl
  intro x0 x1 s  hs
  unfold sampleStart
  repeat' first
    | with_reducible first
        | assumption | refine kModEgs _ _  ?_
    | (extract_lets -underBinder +onlyGivenNames x; refine keeps_fact (P := P) (v := x) ?_ ?_; rotate_left; clear_value x; revert x; intro _ _; rotate_left; unfold x; clear x)
    | (extract_lets -underBinder +onlyGivenNames x; clear_value x; revert x; intro _)
    | intro _

theorem timCounts_keeps (A : Allows P m) (h : m &&& 2048 = 2048) :
    ∀ x0 s, P s → P (timCounts x0 s) := by
  have A := A.mono h
  clear h
  have kCntInc := cntInc_keeps A rfl
  intro x0 s  hs
  unfold timCounts
  repeat' first
    | with_reducible first
        | assumption | refine kCntInc _ _ _ _  ?_ | refine each_keeps _ _ (fun _ _ _ => ?_) _ ?_
    | intro _

theorem datapathErr_keeps (A : Allows P m) (h : m &&& 10334771496 = 10334771496) :
    ∀ x0 s, P s → P (datapathErr x0 s) := by
  have A := A.mono h
  clear h
  have kUseFree := useFree_keeps A rfl
  have kCntInc := cntInc_keeps A rfl
  have kCntAdd := cntAdd_keeps A rfl
  have kRaise := raise_keeps A rfl
  intro x0 s  hs
  unfold datapathErr
  repeat' first
    | with_reducible first
        | assumption | refine kUseFree _  ?_ | refine kCntInc _ _ _ _  ?_ | refine kCntAdd _ _ _ _ _  ?_
        | refine kRaise _ _ _ _ _ _ _  ?_
    | (extract_lets -underBinder +onlyGivenNames x; refine keeps_fact (P := P) (v := x) ?_ ?_; rotate_left; clear_value x; revert x; intro _ _; rotate_left; unfold x; clear x)
    | (extract_lets -underBinder +onlyGivenNames x; clear_value x; revert x; intro _)
    | split
    | with_reducible first | refine keeps_pair (by with_reducible assumption) ?_ | refine keeps_triple (by with_reducible assumption) ?_ | refine keeps_pairL (by with_reducible assumption) ?_

theorem transmitStart_keeps (A : Allows P m) (h : m &&& 10356177192 = 10356177192) :
    ∀ x0 x1 s, P s → P (transmitStart x0 x1 s) := by
  have A := A.mono h
  clear h
  have kModLaunch := modLaunch_keeps A rfl
  have kTimCounts := timCounts_keeps A rfl
  have kDropEnt := dropEnt_keeps A rfl
  have kDatapathErr := datapathErr_keeps A rfl
  have kModPkt := modPkt_keeps A rfl
  have kSampleStart := sampleStart_keeps A rfl
  have kModEgs := modEgs_keeps A rfl
  intro x0 x1 s  hs
  unfold transmitStart
  repeat' first
    | with_reducible first
        | assumption | refine kModLaunch _ _ _  ?_ | refine kTimCounts _ _  ?_ | refine kDropEnt _ _ _  ?_
        | refine kDatapathErr _ _  ?_ | refine kModPkt _ _ _  ?_ | refine kSampleStart _ _ _  ?_
        | refine kModEgs _ _  ?_
    | (extract_lets -underBinder +onlyGivenNames x; refine keeps_fact (P := P) (v := x) ?_ ?_; rotate_left; clear_value x; revert x; intro _ _; rotate_left; unfold x; clear x)
    | (extract_lets -underBinder +onlyGivenNames x; clear_value x; revert x; intro _)
    | intro _
    | split
    | with_reducible first | refine keeps_pair (by with_reducible assumption) ?_ | refine keeps_triple (by with_reducible assumption) ?_ | refine keeps_pairL (by with_reducible assumption) ?_

theorem transmitEnd_keeps (A : Allows P m) (h : m &&& 10356177184 = 10356177184) :
    ∀ x0 s, P s → P (transmitEnd x0 s) := by
  have A := A.mono h
  clear h
  have kModEgs := modEgs_keeps A rfl
  have kCntAdd := cntAdd_keeps A rfl
  have kCntInc := cntInc_keeps A rfl
  have kModPkt := modPkt_keeps A rfl
  have kInjectDone := injectDone_keeps A rfl
  have kUnref := unref_keeps A rfl
  intro x0 s  hs
  unfold transmitEnd
  repeat' first
    | with_reducible first
        | assumption | refine kModEgs _ _  ?_ | refine kCntAdd _ _ _ _ _  ?_ | refine kCntInc _ _ _ _  ?_
        | refine kModPkt _ _ _  ?_ | refine kInjectDone _ _ _ _ _  ?_ | refine kUnref _ _  ?_
    | (extract_lets -underBinder +onlyGivenNames x; refine keeps_fact (P := P) (v := x) ?_ ?_; rotate_left; clear_value x; revert x; intro _ _; rotate_left; unfold x; clear x)
    | (extract_lets -underBinder +onlyGivenNames x; clear_value x; revert x; intro _)
    | intro _
    | split
    | with_reducible first | refine keeps_pair (by with_reducible assumption) ?_ | refine keeps_triple (by with_reducible assumption) ?_ | refine keeps_pairL (by with_reducible assumption) ?_

theorem pauseOne_keeps (A : Allows P m) (h : m &&& 4194304 = 4194304) :
    ∀ x0 x1 x2 s, P s → P (pauseOne x0 x1 x2 s) := by
  have A := A.mono h
  clear h
  have kModPause := modPause_keeps A rfl
  intro x0 x1 x2 s  hs
  unfold pauseOne
  repeat' first
    | with_reducible first
        | assumption | refine kModPause _ _ _ _  ?_
    | (extract_lets -underBinder +onlyGivenNames x; refine keeps_fact (P := P) (v := x) ?_ ?_; rotate_left; clear_value x; revert x; intro _ _; rotate_left; unfold x; clear x)
    | (extract_lets -underBinder +onlyGivenNames x; clear_value x; revert x; intro _)
    | intro _
    | split
    | with_reducible first | refine keeps_pair (by with_reducible assumption) ?_ | refine keeps_triple (by with_reducible assumption) ?_ | refine keeps_pairL (by with_reducible assumption) ?_

theorem pfcFrameReceive_keeps (A : Allows P m) (h : m &&& 4196352 = 4196352) :
    ∀ x0 x1 s, P s → P (pfcFrameReceive x0 x1 s) := by
  have A := A.mono h
  clear h
  have kPfcCnt := pfcCnt_keeps A rfl
  have kPauseOne := pauseOne_keeps A rfl
  intro x0 x1 s  hs
  unfold pfcFrameReceive
  repeat' first
    | with_reducible first
        | assumption | refine kPfcCnt _ _ _  ?_ | refine kPauseOne _ _ _ _  ?_
        | refine each_keeps _ _ (fun _ _ _ => ?_) _ ?_
    | intro _
    | split
    | with_reducible first | refine keeps_pair (by with_reducible assumption) ?_ | refine keeps_triple (by with_reducible assumption) ?_ | refine keeps_pairL (by with_reducible assumption) ?_

theorem pfcPauseExpiry_keeps (A : Allows P m) (h : m &&& 4194304 = 4194304) :
    ∀ x0 x1 s, P s → P (pfcPauseExpiry x0 x1 s) := by
  have A := A.mono h
  clear h
  have kModPause := modPause_keeps A rfl
  intro x0 x1 s  hs
  unfold pfcPauseExpiry
  repeat' first
    | with_reducible first
        | assumption | refine kModPause _ _ _ _  ?_
    | intro _
    | split
    | with_reducible first | refine keeps_pair (by with_reducible assumption) ?_ | refine keeps_triple (by with_reducible assumption) ?_ | refine keeps_pairL (by with_reducible assumption) ?_

theorem pfcWatchdogExpiry_keeps (A : Allows P m) (h : m &&& 10356177184 = 10356177184) :
    ∀ x0 x1 s, P s → P (pfcWatchdogExpiry x0 x1 s) := by
  have A := A.mono h
  clear h
  have kModPause := modPause_keeps A rfl
  have kPfcCnt := pfcCnt_keeps A rfl
  have kModEgq := modEgq_keeps A rfl
  have kDropEnt := dropEnt_keeps A rfl
  have kRaise := raise_keeps A rfl
  intro x0 x1 s  hs
  unfold pfcWatchdogExpiry
  repeat' first
    | with_reducible first
        | assumption | refine kModPause _ _ _ _  ?_ | refine kPfcCnt _ _ _  ?_ | refine kModEgq _ _ _ _  ?_
        | refine kDropEnt _ _ _  ?_ | refine kRaise _ _ _ _ _ _ _  ?_
        | refine each_keeps _ _ (fun _ _ _ => ?_) _ ?_
    | (extract_lets -underBinder +onlyGivenNames x; refine keeps_fact (P := P) (v := x) ?_ ?_; rotate_left; clear_value x; revert x; intro _ _; rotate_left; unfold x; clear x)
    | (extract_lets -underBinder +onlyGivenNames x; clear_value x; revert x; intro _)
    | intro _
    | split
    | with_reducible first | refine keeps_pair (by with_reducible assumption) ?_ | refine keeps_triple (by with_reducible assumption) ?_ | refine keeps_pairL (by with_reducible assumption) ?_

theorem pfcWatchdogRestore_keeps (A : Allows P m) (h : m &&& 10338965792 = 10338965792) :
    ∀ x0 x1 s, P s → P (pfcWatchdogRestore x0 x1 s) := by
  have A := A.mono h
  clear h
  have kRaise := raise_keeps A rfl
  have kModPause := modPause_keeps A rfl
  intro x0 x1 s  hs
  unfold pfcWatchdogRestore
  repeat' first
    | with_reducible first
        | assumption | refine kRaise _ _ _ _ _ _ _  ?_ | refine kModPause _ _ _ _  ?_
    | (extract_lets -underBinder +onlyGivenNames x; refine keeps_fact (P := P) (v := x) ?_ ?_; rotate_left; clear_value x; revert x; intro _ _; rotate_left; unfold x; clear x)
    | (extract_lets -underBinder +onlyGivenNames x; clear_value x; revert x; intro _)
    | intro _
    | split

theorem noteWaits_keeps (A : Allows P m) (h : m &&& 16787456 = 16787456) :
    ∀ x0 s, P s → P (noteWaits x0 s) := by
  have A := A.mono h
  clear h
  have kOwe := owe_keeps A rfl
  have kModLaunch := modLaunch_keeps A rfl
  intro x0 s  hs
  unfold noteWaits
  repeat' first
    | with_reducible first
        | assumption | refine kOwe _ _ _  ?_ | refine kModLaunch _ _ _  ?_
        | refine each_keeps _ _ (fun _ _ _ => ?_) _ ?_
    | (extract_lets -underBinder +onlyGivenNames x; refine keeps_fact (P := P) (v := x) ?_ ?_; rotate_left; clear_value x; revert x; intro _ _; rotate_left; unfold x; clear x)
    | (extract_lets -underBinder +onlyGivenNames x; have h := fun a => x a; clear h; unfold x; clear x)
    | (extract_lets -underBinder +onlyGivenNames x; clear_value x; revert x; intro _)
    | intro _
    | split

theorem gateChange_keeps (A : Allows P m) (h : m &&& 16787456 = 16787456) :
    ∀ x0 s, P s → P (gateChange x0 s) := by
  have A := A.mono h
  clear h
  have kNoteWaits := noteWaits_keeps A rfl
  have kModGates := modGates_keeps A rfl
  intro x0 s  hs
  unfold gateChange
  repeat' first
    | with_reducible first
        | assumption | refine kNoteWaits _ _  ?_ | refine kModGates _ _ _  ?_
    | (extract_lets -underBinder +onlyGivenNames x; refine keeps_fact (P := P) (v := x) ?_ ?_; rotate_left; clear_value x; revert x; intro _ _; rotate_left; unfold x; clear x)
    | (extract_lets -underBinder +onlyGivenNames x; clear_value x; revert x; intro _)
    | split
    | with_reducible first | refine keeps_pair (by with_reducible assumption) ?_ | refine keeps_triple (by with_reducible assumption) ?_ | refine keeps_pairL (by with_reducible assumption) ?_

theorem gateListStart.again_keeps (A : Allows P m) (h : m &&& 16787456 = 16787456) :
    ∀ x0 x1 s, P s → P (gateListStart.again x0 x1 s) := by
  have A := A.mono h
  clear h
  have kNoteWaits := noteWaits_keeps A rfl
  have kModGates := modGates_keeps A rfl
  intro x0 x1 s  hs
  unfold gateListStart.again
  repeat' first
    | with_reducible first
        | assumption | refine kNoteWaits _ _  ?_ | refine kModGates _ _ _  ?_
    | (extract_lets -underBinder +onlyGivenNames x; refine keeps_fact (P := P) (v := x) ?_ ?_; rotate_left; clear_value x; revert x; intro _ _; rotate_left; unfold x; clear x)
    | (extract_lets -underBinder +onlyGivenNames x; clear_value x; revert x; intro _)
    | intro _
    | split
    | with_reducible first | refine keeps_pair (by with_reducible assumption) ?_ | refine keeps_triple (by with_reducible assumption) ?_ | refine keeps_pairL (by with_reducible assumption) ?_

theorem gateListStart_keeps (A : Allows P m) (h : m &&& 10351556896 = 10351556896) :
    ∀ x0 s, P s → P (gateListStart x0 s) := by
  have A := A.mono h
  clear h
  have kRaise := raise_keeps A rfl
  have kNoteWaits := noteWaits_keeps A rfl
  have kModGates := modGates_keeps A rfl
  have kGateListStart_again := gateListStart.again_keeps A rfl
  intro x0 s  hs
  unfold gateListStart
  repeat' first
    | with_reducible first
        | assumption | refine kRaise _ _ _ _ _ _ _  ?_ | refine kNoteWaits _ _  ?_ | refine kModGates _ _ _  ?_
        | refine kGateListStart_again _ _ _  ?_
    | (extract_lets -underBinder +onlyGivenNames x; refine keeps_fact (P := P) (v := x) ?_ ?_; rotate_left; clear_value x; revert x; intro _ _; rotate_left; unfold x; clear x)
    | (extract_lets -underBinder +onlyGivenNames x; clear_value x; revert x; intro _)
    | intro _
    | split
    | with_reducible first | refine keeps_pair (by with_reducible assumption) ?_ | refine keeps_triple (by with_reducible assumption) ?_ | refine keeps_pairL (by with_reducible assumption) ?_

theorem holdGates_keeps (A : Allows P m) (h : m &&& 16777216 = 16777216) :
    ∀ s, P s → P (holdGates s) := by
  have A := A.mono h
  clear h
  have kModEgs := modEgs_keeps A rfl
  intro s  hs
  unfold holdGates
  repeat' first
    | with_reducible first
        | assumption | refine kModEgs _ _  ?_
    | intro _
    | split

theorem restartGates_keeps (A : Allows P m) (h : m &&& 10351548704 = 10351548704) :
    ∀ s, P s → P (restartGates s) := by
  have A := A.mono h
  clear h
  have kModGates := modGates_keeps A rfl
  have kRaise := raise_keeps A rfl
  have kCntInc := cntInc_keeps A rfl
  intro s  hs
  unfold restartGates
  repeat' first
    | with_reducible first
        | assumption | refine kModGates _ _ _  ?_ | refine kRaise _ _ _ _ _ _ _  ?_ | refine kCntInc _ _ _ _  ?_
        | refine each_keeps _ _ (fun _ _ _ => ?_) _ ?_
    | (extract_lets -underBinder +onlyGivenNames x; refine keeps_fact (P := P) (v := x) ?_ ?_; rotate_left; clear_value x; revert x; intro _ _; rotate_left; unfold x; clear x)
    | (extract_lets -underBinder +onlyGivenNames x; have h := fun a => x a; clear h; unfold x; clear x)
    | (extract_lets -underBinder +onlyGivenNames x; clear_value x; revert x; intro _)
    | intro _
    | split
    | with_reducible first | refine keeps_pair (by with_reducible assumption) ?_ | refine keeps_triple (by with_reducible assumption) ?_ | refine keeps_pairL (by with_reducible assumption) ?_

theorem queueSample1_keeps (A : Allows P m) (h : m &&& 10351548704 = 10351548704) :
    ∀ x0 x1 x2 x3 s, P s → P (queueSample1 x0 x1 x2 x3 s) := by
  have A := A.mono h
  clear h
  have kModRing := modRing_keeps A rfl
  have kCntInc := cntInc_keeps A rfl
  have kRaise := raise_keeps A rfl
  have kDevWrite := devWrite_keeps A rfl
  have kModEgs := modEgs_keeps A rfl
  intro x0 x1 x2 x3 s  hs
  unfold queueSample1
  repeat' first
    | with_reducible first
        | assumption | refine kModRing _ _ _  ?_ | refine kCntInc _ _ _ _  ?_ | refine kRaise _ _ _ _ _ _ _  ?_
        | refine kDevWrite _ _ _  ?_ | refine kModEgs _ _  ?_
    | (extract_lets -underBinder +onlyGivenNames x; refine keeps_fact (P := P) (v := x) ?_ ?_; rotate_left; clear_value x; revert x; intro _ _; rotate_left; unfold x; clear x)
    | (extract_lets -underBinder +onlyGivenNames x; clear_value x; revert x; intro _)
    | intro _
    | split
    | with_reducible first | refine keeps_pair (by with_reducible assumption) ?_ | refine keeps_triple (by with_reducible assumption) ?_ | refine keeps_pairL (by with_reducible assumption) ?_

theorem queueSample_keeps (A : Allows P m) (h : m &&& 10351548704 = 10351548704) :
    ∀ x0 s, P s → P (queueSample x0 s) := by
  have A := A.mono h
  clear h
  have kModEgs := modEgs_keeps A rfl
  have kQueueSample1 := queueSample1_keeps A rfl
  intro x0 s  hs
  unfold queueSample
  repeat' first
    | with_reducible first
        | assumption | refine kModEgs _ _  ?_ | refine kQueueSample1 _ _ _ _ _  ?_
        | refine each_keeps _ _ (fun _ _ _ => ?_) _ ?_
    | (extract_lets -underBinder +onlyGivenNames x; refine keeps_fact (P := P) (v := x) ?_ ?_; rotate_left; clear_value x; revert x; intro _ _; rotate_left; unfold x; clear x)
    | (extract_lets -underBinder +onlyGivenNames x; clear_value x; revert x; intro _)
    | intro _
    | split

theorem execSchedulerSelect_keeps (A : Allows P m) (h : m &&& 16787456 = 16787456) :
    ∀ x0 s, P s → ∀ t, execSchedulerSelect x0 s = .next t → P t := by
  have A := A.mono h
  clear h
  have kSchedulerSelect := schedulerSelect_keeps A rfl
  intro x0 s  hs
  intro t e
  cases e
  repeat' first
    | with_reducible first
        | assumption | refine kSchedulerSelect _ _  ?_ | refine each_keeps _ _ (fun _ _ _ => ?_) _ ?_
        | refine foldl_keeps _ _ (fun _ _ _ => ?_) _ ?_
    | (extract_lets -underBinder +onlyGivenNames x; refine keeps_fact (P := P) (v := x) ?_ ?_; rotate_left; clear_value x; revert x; intro _ _; rotate_left; unfold x; clear x)
    | (extract_lets -underBinder +onlyGivenNames x; refine keeps_fact2 (P := P) (v := x) ?_ ?_; rotate_left; clear_value x; revert x; intro _ _; rotate_left; unfold x; clear x)
    | (extract_lets -underBinder +onlyGivenNames x; have h := fun a => x a; clear h; unfold x; clear x)
    | (extract_lets -underBinder +onlyGivenNames x; clear_value x; revert x; intro _)
    | intro _
    | split
    | with_reducible first | refine keeps_pair (by with_reducible assumption) ?_ | refine keeps_triple (by with_reducible assumption) ?_ | refine keeps_pairL (by with_reducible assumption) ?_

theorem execFrameTransmitStart_keeps (A : Allows P m) (h : m &&& 10356177192 = 10356177192) :
    ∀ x0 x1 s, P s → ∀ t, execFrameTransmitStart x0 x1 s = .next t → P t := by
  have A := A.mono h
  clear h
  have kTransmitStart := transmitStart_keeps A rfl
  intro x0 x1 s  hs
  intro t e
  cases e
  repeat' first
    | with_reducible first
        | assumption | refine kTransmitStart _ _ _  ?_
    | (extract_lets -underBinder +onlyGivenNames x; refine keeps_fact (P := P) (v := x) ?_ ?_; rotate_left; clear_value x; revert x; intro _ _; rotate_left; unfold x; clear x)
    | (extract_lets -underBinder +onlyGivenNames x; clear_value x; revert x; intro _)
    | intro _
    | split
    | with_reducible first | refine keeps_pair (by with_reducible assumption) ?_ | refine keeps_triple (by with_reducible assumption) ?_ | refine keeps_pairL (by with_reducible assumption) ?_

theorem execFrameTransmitEnd_keeps (A : Allows P m) (h : m &&& 10356177184 = 10356177184) :
    ∀ x0 s, P s → ∀ t, execFrameTransmitEnd x0 s = .next t → P t := by
  have A := A.mono h
  clear h
  have kTransmitEnd := transmitEnd_keeps A rfl
  intro x0 s  hs
  intro t e
  cases e
  repeat' first
    | with_reducible first
        | assumption | refine kTransmitEnd _ _  ?_
    | (extract_lets -underBinder +onlyGivenNames x; refine keeps_fact (P := P) (v := x) ?_ ?_; rotate_left; clear_value x; revert x; intro _ _; rotate_left; unfold x; clear x)
    | (extract_lets -underBinder +onlyGivenNames x; clear_value x; revert x; intro _)
    | intro _
    | split
    | with_reducible first | refine keeps_pair (by with_reducible assumption) ?_ | refine keeps_triple (by with_reducible assumption) ?_ | refine keeps_pairL (by with_reducible assumption) ?_

theorem execGateChange_keeps (A : Allows P m) (h : m &&& 16787456 = 16787456) :
    ∀ x0 s, P s → ∀ t, execGateChange x0 s = .next t → P t := by
  have A := A.mono h
  clear h
  have kGateChange := gateChange_keeps A rfl
  intro x0 s  hs
  intro t e
  cases e
  repeat' first
    | with_reducible first
        | assumption | refine kGateChange _ _  ?_
    | (extract_lets -underBinder +onlyGivenNames x; refine keeps_fact (P := P) (v := x) ?_ ?_; rotate_left; clear_value x; revert x; intro _ _; rotate_left; unfold x; clear x)
    | (extract_lets -underBinder +onlyGivenNames x; clear_value x; revert x; intro _)
    | intro _
    | split
    | with_reducible first | refine keeps_pair (by with_reducible assumption) ?_ | refine keeps_triple (by with_reducible assumption) ?_ | refine keeps_pairL (by with_reducible assumption) ?_

theorem execGateListStart_keeps (A : Allows P m) (h : m &&& 10351556896 = 10351556896) :
    ∀ x0 s, P s → ∀ t, execGateListStart x0 s = .next t → P t := by
  have A := A.mono h
  clear h
  have kGateListStart := gateListStart_keeps A rfl
  intro x0 s  hs
  intro t e
  cases e
  repeat' first
    | with_reducible first
        | assumption | refine kGateListStart _ _  ?_
    | (extract_lets -underBinder +onlyGivenNames x; refine keeps_fact (P := P) (v := x) ?_ ?_; rotate_left; clear_value x; revert x; intro _ _; rotate_left; unfold x; clear x)
    | (extract_lets -underBinder +onlyGivenNames x; clear_value x; revert x; intro _)
    | intro _
    | split
    | with_reducible first | refine keeps_pair (by with_reducible assumption) ?_ | refine keeps_triple (by with_reducible assumption) ?_ | refine keeps_pairL (by with_reducible assumption) ?_

theorem execQueueSample_keeps (A : Allows P m) (h : m &&& 10351548704 = 10351548704) :
    ∀ x0 s, P s → ∀ t, execQueueSample x0 s = .next t → P t := by
  have A := A.mono h
  clear h
  have kQueueSample := queueSample_keeps A rfl
  intro x0 s  hs
  intro t e
  cases e
  repeat' first
    | with_reducible first
        | assumption | refine kQueueSample _ _  ?_
    | (extract_lets -underBinder +onlyGivenNames x; refine keeps_fact (P := P) (v := x) ?_ ?_; rotate_left; clear_value x; revert x; intro _ _; rotate_left; unfold x; clear x)
    | (extract_lets -underBinder +onlyGivenNames x; clear_value x; revert x; intro _)
    | intro _
    | split
    | with_reducible first | refine keeps_pair (by with_reducible assumption) ?_ | refine keeps_triple (by with_reducible assumption) ?_ | refine keeps_pairL (by with_reducible assumption) ?_

theorem execPfcFrameReceive_keeps (A : Allows P m) (h : m &&& 4196352 = 4196352) :
    ∀ x0 x1 s, P s → ∀ t, execPfcFrameReceive x0 x1 s = .next t → P t := by
  have A := A.mono h
  clear h
  have kPfcFrameReceive := pfcFrameReceive_keeps A rfl
  intro x0 x1 s  hs
  intro t e
  cases e
  repeat' first
    | with_reducible first
        | assumption | refine kPfcFrameReceive _ _ _  ?_
    | (extract_lets -underBinder +onlyGivenNames x; refine keeps_fact (P := P) (v := x) ?_ ?_; rotate_left; clear_value x; revert x; intro _ _; rotate_left; unfold x; clear x)
    | (extract_lets -underBinder +onlyGivenNames x; clear_value x; revert x; intro _)
    | intro _
    | split
    | with_reducible first | refine keeps_pair (by with_reducible assumption) ?_ | refine keeps_triple (by with_reducible assumption) ?_ | refine keeps_pairL (by with_reducible assumption) ?_

theorem execPfcPauseExpiry_keeps (A : Allows P m) (h : m &&& 4194304 = 4194304) :
    ∀ x0 x1 s, P s → ∀ t, execPfcPauseExpiry x0 x1 s = .next t → P t := by
  have A := A.mono h
  clear h
  have kPfcPauseExpiry := pfcPauseExpiry_keeps A rfl
  intro x0 x1 s  hs
  intro t e
  cases e
  repeat' first
    | with_reducible first
        | assumption | refine kPfcPauseExpiry _ _ _  ?_
    | (extract_lets -underBinder +onlyGivenNames x; refine keeps_fact (P := P) (v := x) ?_ ?_; rotate_left; clear_value x; revert x; intro _ _; rotate_left; unfold x; clear x)
    | (extract_lets -underBinder +onlyGivenNames x; clear_value x; revert x; intro _)
    | intro _
    | split
    | with_reducible first | refine keeps_pair (by with_reducible assumption) ?_ | refine keeps_triple (by with_reducible assumption) ?_ | refine keeps_pairL (by with_reducible assumption) ?_

theorem execPfcWatchdogExpiry_keeps (A : Allows P m) (h : m &&& 10356177184 = 10356177184) :
    ∀ x0 x1 s, P s → ∀ t, execPfcWatchdogExpiry x0 x1 s = .next t → P t := by
  have A := A.mono h
  clear h
  have kPfcWatchdogExpiry := pfcWatchdogExpiry_keeps A rfl
  intro x0 x1 s  hs
  intro t e
  cases e
  repeat' first
    | with_reducible first
        | assumption | refine kPfcWatchdogExpiry _ _ _  ?_
    | (extract_lets -underBinder +onlyGivenNames x; refine keeps_fact (P := P) (v := x) ?_ ?_; rotate_left; clear_value x; revert x; intro _ _; rotate_left; unfold x; clear x)
    | (extract_lets -underBinder +onlyGivenNames x; clear_value x; revert x; intro _)
    | intro _
    | split
    | with_reducible first | refine keeps_pair (by with_reducible assumption) ?_ | refine keeps_triple (by with_reducible assumption) ?_ | refine keeps_pairL (by with_reducible assumption) ?_

theorem execPfcWatchdogRestoreTimer_keeps (A : Allows P m) (h : m &&& 10338965792 = 10338965792) :
    ∀ x0 x1 s, P s → ∀ t, execPfcWatchdogRestoreTimer x0 x1 s = .next t → P t := by
  have A := A.mono h
  clear h
  have kPfcWatchdogRestore := pfcWatchdogRestore_keeps A rfl
  intro x0 x1 s  hs
  intro t e
  cases e
  repeat' first
    | with_reducible first
        | assumption | refine kPfcWatchdogRestore _ _ _  ?_
    | (extract_lets -underBinder +onlyGivenNames x; refine keeps_fact (P := P) (v := x) ?_ ?_; rotate_left; clear_value x; revert x; intro _ _; rotate_left; unfold x; clear x)
    | (extract_lets -underBinder +onlyGivenNames x; clear_value x; revert x; intro _)
    | intro _
    | split
    | with_reducible first | refine keeps_pair (by with_reducible assumption) ?_ | refine keeps_triple (by with_reducible assumption) ?_ | refine keeps_pairL (by with_reducible assumption) ?_

end Sys2Proof.Laws
end

