-- ==== Sys2Proof/Laws/Fabric.lean ====
section
/-! SUPPORT. What each operation of Machine/Fabric.lean can change (Laws/Keeps.lean). -/

namespace Sys2Proof.Laws

open Sys2Proof.Machine

variable {P : State → Prop} {m : Nat}

theorem joinVoq_keeps (A : Allows P m) (h : m &&& 10347354400 = 10347354400) :
    ∀ x0 x1 x2 s, P s → P (joinVoq x0 x1 x2 s) := by
  have A := A.mono h
  clear h
  have kRetagAt := retagAt_keeps A rfl
  have kModVoq := modVoq_keeps A rfl
  intro x0 x1 x2 s  hs
  unfold joinVoq
  repeat' first
    | with_reducible first
        | assumption | refine kRetagAt _ _ _ _  ?_ | refine kModVoq _ _ _ _ _  ?_
    | (extract_lets -underBinder +onlyGivenNames x; refine keeps_fact (P := P) (v := x) ?_ ?_; rotate_left; clear_value x; revert x; intro _ _; rotate_left; unfold x; clear x)
    | (extract_lets -underBinder +onlyGivenNames x; clear_value x; revert x; intro _)
    | split

theorem refreshAdmit_keeps (A : Allows P m) (h : m &&& 8388608 = 8388608) :
    ∀ x0 s, P s → P (refreshAdmit x0 s) := by
  have A := A.mono h
  clear h
  have kModFab := modFab_keeps A rfl
  intro x0 s  hs
  unfold refreshAdmit
  repeat' first
    | with_reducible first
        | assumption | refine kModFab _ _  ?_ | refine each_keeps _ _ (fun _ _ _ => ?_) _ ?_
    | (extract_lets -underBinder +onlyGivenNames x; refine keeps_fact (P := P) (v := x) ?_ ?_; rotate_left; clear_value x; revert x; intro _ _; rotate_left; unfold x; clear x)
    | (extract_lets -underBinder +onlyGivenNames x; clear_value x; revert x; intro _)
    | intro _
    | split

theorem arriveFirst_keeps (A : Allows P m) (h : m &&& 10364565792 = 10364565792) :
    ∀ x0 x1 x2 x3 s, P s → P (arriveFirst x0 x1 x2 x3 s) := by
  have A := A.mono h
  clear h
  have kRefreshAdmit := refreshAdmit_keeps A rfl
  have kEnqueue := enqueue_keeps A rfl
  intro x0 x1 x2 x3 s  hs
  unfold arriveFirst
  repeat' first
    | with_reducible first
        | assumption | refine kRefreshAdmit _ _  ?_ | refine kEnqueue _ _ _  ?_
        | refine each_keeps _ _ (fun _ _ _ => ?_) _ ?_
    | (extract_lets -underBinder +onlyGivenNames x; refine keeps_fact (P := P) (v := x) ?_ ?_; rotate_left; clear_value x; revert x; intro _ _; rotate_left; unfold x; clear x)
    | (extract_lets -underBinder +onlyGivenNames x; have h := fun a => x a; clear h; unfold x; clear x)
    | (extract_lets -underBinder +onlyGivenNames x; clear_value x; revert x; intro _)
    | intro _
    | split
    | with_reducible first | refine keeps_pair (by with_reducible assumption) ?_ | refine keeps_triple (by with_reducible assumption) ?_ | refine keeps_pairL (by with_reducible assumption) ?_

theorem arriveLast_keeps (A : Allows P m) (h : m &&& 16777216 = 16777216) :
    ∀ x0 x1 s, P s → P (arriveLast x0 x1 s) := by
  have A := A.mono h
  clear h
  have kModLaunch := modLaunch_keeps A rfl
  have kModEgq := modEgq_keeps A rfl
  intro x0 x1 s  hs
  unfold arriveLast
  repeat' first
    | with_reducible first
        | assumption | refine kModLaunch _ _ _  ?_ | refine kModEgq _ _ _ _  ?_
        | refine each_keeps _ _ (fun _ _ _ => ?_) _ ?_
    | (extract_lets -underBinder +onlyGivenNames x; refine keeps_fact (P := P) (v := x) ?_ ?_; rotate_left; clear_value x; revert x; intro _ _; rotate_left; unfold x; clear x)
    | (extract_lets -underBinder +onlyGivenNames x; have h := fun a => x a; clear h; unfold x; clear x)
    | (extract_lets -underBinder +onlyGivenNames x; clear_value x; revert x; intro _)
    | intro _
    | split

theorem modDir_keeps (A : Allows P m) (h : m &&& 8388608 = 8388608) :
    ∀ x0 x1 x2 s, P s → P (modDir x0 x1 x2 s) := by
  have A := A.mono h
  clear h
  have kModDieLink := modDieLink_keeps A rfl
  intro x0 x1 x2 s  hs
  unfold modDir
  repeat' first
    | with_reducible first
        | assumption | refine kModDieLink _ _ _  ?_
    | (extract_lets -underBinder +onlyGivenNames x; refine keeps_fact (P := P) (v := x) ?_ ?_; rotate_left; clear_value x; revert x; intro _ _; rotate_left; unfold x; clear x)
    | (extract_lets -underBinder +onlyGivenNames x; clear_value x; revert x; intro _)
    | intro _
    | split
    | with_reducible first | refine keeps_pair (by with_reducible assumption) ?_ | refine keeps_triple (by with_reducible assumption) ?_ | refine keeps_pairL (by with_reducible assumption) ?_

theorem modReseq_keeps (A : Allows P m) (h : m &&& 8388608 = 8388608) :
    ∀ x0 x1 x2 s, P s → P (modReseq x0 x1 x2 s) := by
  have A := A.mono h
  clear h
  have kModFab := modFab_keeps A rfl
  intro x0 x1 x2 s  hs
  unfold modReseq
  repeat' first
    | with_reducible first
        | assumption | refine kModFab _ _  ?_
    | (extract_lets -underBinder +onlyGivenNames x; refine keeps_fact (P := P) (v := x) ?_ ?_; rotate_left; clear_value x; revert x; intro _ _; rotate_left; unfold x; clear x)
    | (extract_lets -underBinder +onlyGivenNames x; clear_value x; revert x; intro _)
    | intro _
    | split
    | with_reducible first | refine keeps_pair (by with_reducible assumption) ?_ | refine keeps_triple (by with_reducible assumption) ?_ | refine keeps_pairL (by with_reducible assumption) ?_

theorem sendCell_keeps (A : Allows P m) (h : m &&& 10347354400 = 10347354400) :
    ∀ x0 x1 x2 x3 x4 x5 x6 s, P s → P (sendCell x0 x1 x2 x3 x4 x5 x6 s) := by
  have A := A.mono h
  clear h
  have kModDir := modDir_keeps A rfl
  have kModFab := modFab_keeps A rfl
  have kMoveCell := moveCell_keeps A rfl
  have kCntInc := cntInc_keeps A rfl
  intro x0 x1 x2 x3 x4 x5 x6 s  hs
  unfold sendCell
  repeat' first
    | with_reducible first
        | assumption | refine kModDir _ _ _ _  ?_ | refine kModFab _ _  ?_ | refine kMoveCell _ _ _ _  ?_
        | refine kCntInc _ _ _ _  ?_
    | (extract_lets -underBinder +onlyGivenNames x; refine keeps_fact (P := P) (v := x) ?_ ?_; rotate_left; clear_value x; revert x; intro _ _; rotate_left; unfold x; clear x)
    | (extract_lets -underBinder +onlyGivenNames x; clear_value x; revert x; intro _)
    | intro _
    | split
    | with_reducible first | refine keeps_pair (by with_reducible assumption) ?_ | refine keeps_triple (by with_reducible assumption) ?_ | refine keeps_pairL (by with_reducible assumption) ?_

theorem resend_keeps (A : Allows P m) (h : m &&& 8390656 = 8390656) :
    ∀ x0 x1 x2 s, P s → P (resend x0 x1 x2 s) := by
  have A := A.mono h
  clear h
  have kModDir := modDir_keeps A rfl
  have kCntInc := cntInc_keeps A rfl
  intro x0 x1 x2 s  hs
  unfold resend
  repeat' first
    | with_reducible first
        | assumption | refine kModDir _ _ _ _  ?_ | refine kCntInc _ _ _ _  ?_
    | (extract_lets -underBinder +onlyGivenNames x; refine keeps_fact (P := P) (v := x) ?_ ?_; rotate_left; clear_value x; revert x; intro _ _; rotate_left; unfold x; clear x)
    | (extract_lets -underBinder +onlyGivenNames x; clear_value x; revert x; intro _)
    | intro _
    | split
    | with_reducible first | refine keeps_pair (by with_reducible assumption) ?_ | refine keeps_triple (by with_reducible assumption) ?_ | refine keeps_pairL (by with_reducible assumption) ?_

theorem moveBurst_keeps (A : Allows P m) (h : m &&& 10364565792 = 10364565792) :
    ∀ x0 x1 x2 x3 x4 s, P s → P (moveBurst x0 x1 x2 x3 x4 s) := by
  have A := A.mono h
  clear h
  have kModVoq := modVoq_keeps A rfl
  have kArriveFirst := arriveFirst_keeps A rfl
  have kMoveCell := moveCell_keeps A rfl
  have kStageFree := stageFree_keeps A rfl
  have kArriveLast := arriveLast_keeps A rfl
  have kSendCell := sendCell_keeps A rfl
  intro x0 x1 x2 n
  induction n with
  | zero =>
    intro x4 s hs
    unfold moveBurst
    repeat' first
      | with_reducible first
          | assumption | refine kModVoq _ _ _ _ _  ?_ | refine kArriveFirst _ _ _ _ _  ?_
          | refine kMoveCell _ _ _ _  ?_ | refine kStageFree _ _  ?_ | refine kArriveLast _ _ _  ?_
          | refine kSendCell _ _ _ _ _ _ _ _  ?_ | refine each_keeps _ _ (fun _ _ _ => ?_) _ ?_
      | (extract_lets -underBinder +onlyGivenNames x; refine keeps_fact (P := P) (v := x) ?_ ?_; rotate_left; clear_value x; revert x; intro _ _; rotate_left; unfold x; clear x)
      | (extract_lets -underBinder +onlyGivenNames x; clear_value x; revert x; intro _)
      | intro _
      | split
      | with_reducible first | refine keeps_pair (by with_reducible assumption) ?_ | refine keeps_triple (by with_reducible assumption) ?_ | refine keeps_pairL (by with_reducible assumption) ?_
  | succ n ih =>
    intro x4 s hs
    unfold moveBurst
    repeat' first
      | with_reducible first
          | assumption | refine kModVoq _ _ _ _ _  ?_ | refine kArriveFirst _ _ _ _ _  ?_
          | refine kMoveCell _ _ _ _  ?_ | refine kStageFree _ _  ?_ | refine kArriveLast _ _ _  ?_
          | refine kSendCell _ _ _ _ _ _ _ _  ?_ | refine each_keeps _ _ (fun _ _ _ => ?_) _ ?_
          | refine ih _ _ ?_
      | (extract_lets -underBinder +onlyGivenNames x; refine keeps_fact (P := P) (v := x) ?_ ?_; rotate_left; clear_value x; revert x; intro _ _; rotate_left; unfold x; clear x)
      | (extract_lets -underBinder +onlyGivenNames x; clear_value x; revert x; intro _)
      | intro _
      | split
      | with_reducible first | refine keeps_pair (by with_reducible assumption) ?_ | refine keeps_triple (by with_reducible assumption) ?_ | refine keeps_pairL (by with_reducible assumption) ?_

theorem movePair_keeps (A : Allows P m) (h : m &&& 10364565792 = 10364565792) :
    ∀ x0 x1 s, P s → P (movePair x0 x1 s) := by
  have A := A.mono h
  clear h
  have kModFab := modFab_keeps A rfl
  have kMoveBurst := moveBurst_keeps A rfl
  intro x0 x1 s  hs
  unfold movePair
  repeat' first
    | with_reducible first
        | assumption | refine kModFab _ _  ?_ | refine kMoveBurst _ _ _ _ _ _  ?_
    | (extract_lets -underBinder +onlyGivenNames x; refine keeps_fact (P := P) (v := x) ?_ ?_; rotate_left; clear_value x; revert x; intro _ _; rotate_left; unfold x; clear x)
    | (extract_lets -underBinder +onlyGivenNames x; clear_value x; revert x; intro _)
    | intro _
    | split
    | with_reducible first | refine keeps_pair (by with_reducible assumption) ?_ | refine keeps_triple (by with_reducible assumption) ?_ | refine keeps_pairL (by with_reducible assumption) ?_

theorem spinOn_keeps (A : Allows P m) (h : m &&& 8388608 = 8388608) :
    ∀ x0 s, P s → P (spinOn x0 s) := by
  have A := A.mono h
  clear h
  have kModFab := modFab_keeps A rfl
  intro x0 s  hs
  unfold spinOn
  repeat' first
    | with_reducible first
        | assumption | refine kModFab _ _  ?_ | refine each_keeps _ _ (fun _ _ _ => ?_) _ ?_
    | intro _

theorem arbiterMatch_keeps (A : Allows P m) (h : m &&& 10364565792 = 10364565792) :
    ∀ x0 s, P s → P (arbiterMatch x0 s) := by
  have A := A.mono h
  clear h
  have kCntInc := cntInc_keeps A rfl
  have kRaise := raise_keeps A rfl
  have kModFab := modFab_keeps A rfl
  have kRefreshAdmit := refreshAdmit_keeps A rfl
  have kMovePair := movePair_keeps A rfl
  have kSpinOn := spinOn_keeps A rfl
  intro x0 s  hs
  unfold arbiterMatch
  repeat' first
    | with_reducible first
        | assumption | refine kCntInc _ _ _ _  ?_ | refine kRaise _ _ _ _ _ _ _  ?_ | refine kModFab _ _  ?_
        | refine kRefreshAdmit _ _  ?_ | refine kMovePair _ _ _  ?_ | refine kSpinOn _ _  ?_
        | refine each_keeps _ _ (fun _ _ _ => ?_) _ ?_
    | (extract_lets -underBinder +onlyGivenNames x; refine keeps_fact (P := P) (v := x) ?_ ?_; rotate_left; clear_value x; revert x; intro _ _; rotate_left; unfold x; clear x)
    | (extract_lets -underBinder +onlyGivenNames x; clear_value x; revert x; intro _)
    | intro _
    | split
    | with_reducible first | refine keeps_pair (by with_reducible assumption) ?_ | refine keeps_triple (by with_reducible assumption) ?_ | refine keeps_pairL (by with_reducible assumption) ?_

theorem loadPointers_keeps (A : Allows P m) (h : m &&& 8388608 = 8388608) :
    ∀ x0 x1 s, P s → P (loadPointers x0 x1 s) := by
  have A := A.mono h
  clear h
  have kModFab := modFab_keeps A rfl
  intro x0 x1 s  hs
  unfold loadPointers
  repeat' first
    | with_reducible first
        | assumption | refine kModFab _ _  ?_ | refine each_keeps _ _ (fun _ _ _ => ?_) _ ?_
    | intro _

theorem selfCheckEnd_keeps (A : Allows P m) (h : m &&& 10343160096 = 10343160096) :
    ∀ x0 x1 s, P s → P (selfCheckEnd x0 x1 s) := by
  have A := A.mono h
  clear h
  have kModFab := modFab_keeps A rfl
  have kLoadPointers := loadPointers_keeps A rfl
  have kRaiseSev := raiseSev_keeps A rfl
  intro x0 x1 s  hs
  unfold selfCheckEnd
  repeat' first
    | with_reducible first
        | assumption | refine kModFab _ _  ?_ | refine kLoadPointers _ _ _  ?_
        | refine kRaiseSev _ _ _ _ _ _ _ _  ?_
    | (extract_lets -underBinder +onlyGivenNames x; refine keeps_fact (P := P) (v := x) ?_ ?_; rotate_left; clear_value x; revert x; intro _ _; rotate_left; unfold x; clear x)
    | (extract_lets -underBinder +onlyGivenNames x; clear_value x; revert x; intro _)
    | intro _
    | split

theorem failedCopyCheck_keeps (A : Allows P m) (h : m &&& 8390656 = 8390656) :
    ∀ x0 s, P s → P (failedCopyCheck x0 s) := by
  have A := A.mono h
  clear h
  have kModFab := modFab_keeps A rfl
  have kCntInc := cntInc_keeps A rfl
  have kLoadPointers := loadPointers_keeps A rfl
  intro x0 s  hs
  unfold failedCopyCheck
  repeat' first
    | with_reducible first
        | assumption | refine kModFab _ _  ?_ | refine kCntInc _ _ _ _  ?_ | refine kLoadPointers _ _ _  ?_
    | (extract_lets -underBinder +onlyGivenNames x; refine keeps_fact (P := P) (v := x) ?_ ?_; rotate_left; clear_value x; revert x; intro _ _; rotate_left; unfold x; clear x)
    | (extract_lets -underBinder +onlyGivenNames x; clear_value x; revert x; intro _)
    | intro _
    | split

theorem freeLinkCell_keeps (A : Allows P m) (h : m &&& 10338973984 = 10338973984) :
    ∀ x0 s, P s → P (freeLinkCell x0 s) := by
  have A := A.mono h
  clear h
  have kFreeCell := freeCell_keeps A rfl
  have kModPkt := modPkt_keeps A rfl
  intro x0 s  hs
  unfold freeLinkCell
  repeat' first
    | with_reducible first
        | assumption | refine kFreeCell _ _ _  ?_ | refine kModPkt _ _ _  ?_
    | (extract_lets -underBinder +onlyGivenNames x; refine keeps_fact (P := P) (v := x) ?_ ?_; rotate_left; clear_value x; revert x; intro _ _; rotate_left; unfold x; clear x)
    | (extract_lets -underBinder +onlyGivenNames x; clear_value x; revert x; intro _)
    | intro _
    | split
    | with_reducible first | refine keeps_pair (by with_reducible assumption) ?_ | refine keeps_triple (by with_reducible assumption) ?_ | refine keeps_pairL (by with_reducible assumption) ?_

theorem releaseCell_keeps (A : Allows P m) (h : m &&& 10364565792 = 10364565792) :
    ∀ x0 s, P s → P (releaseCell x0 s) := by
  have A := A.mono h
  clear h
  have kArriveFirst := arriveFirst_keeps A rfl
  have kMoveCell := moveCell_keeps A rfl
  have kStageFree := stageFree_keeps A rfl
  have kArriveLast := arriveLast_keeps A rfl
  intro x0 s  hs
  unfold releaseCell
  repeat' first
    | with_reducible first
        | assumption | refine kArriveFirst _ _ _ _ _  ?_ | refine kMoveCell _ _ _ _  ?_
        | refine kStageFree _ _  ?_ | refine kArriveLast _ _ _  ?_
    | (extract_lets -underBinder +onlyGivenNames x; refine keeps_fact (P := P) (v := x) ?_ ?_; rotate_left; clear_value x; revert x; intro _ _; rotate_left; unfold x; clear x)
    | (extract_lets -underBinder +onlyGivenNames x; clear_value x; revert x; intro _)
    | split
    | with_reducible first | refine keeps_pair (by with_reducible assumption) ?_ | refine keeps_triple (by with_reducible assumption) ?_ | refine keeps_pairL (by with_reducible assumption) ?_

theorem releaseRun_keeps (A : Allows P m) (h : m &&& 10364565792 = 10364565792) :
    ∀ x0 x1 x2 s, P s → P (releaseRun x0 x1 x2 s) := by
  have A := A.mono h
  clear h
  have kModReseq := modReseq_keeps A rfl
  have kReleaseCell := releaseCell_keeps A rfl
  intro x0 x1 n
  induction n with
  | zero =>
    intro s hs
    unfold releaseRun
    repeat' first
      | with_reducible first
          | assumption | refine kModReseq _ _ _ _  ?_ | refine kReleaseCell _ _  ?_
      | (extract_lets -underBinder +onlyGivenNames x; refine keeps_fact (P := P) (v := x) ?_ ?_; rotate_left; clear_value x; revert x; intro _ _; rotate_left; unfold x; clear x)
      | (extract_lets -underBinder +onlyGivenNames x; clear_value x; revert x; intro _)
      | intro _
      | split
      | with_reducible first | refine keeps_pair (by with_reducible assumption) ?_ | refine keeps_triple (by with_reducible assumption) ?_ | refine keeps_pairL (by with_reducible assumption) ?_
  | succ n ih =>
    intro s hs
    unfold releaseRun
    repeat' first
      | with_reducible first
          | assumption | refine kModReseq _ _ _ _  ?_ | refine kReleaseCell _ _  ?_ | refine ih _ ?_
      | (extract_lets -underBinder +onlyGivenNames x; refine keeps_fact (P := P) (v := x) ?_ ?_; rotate_left; clear_value x; revert x; intro _ _; rotate_left; unfold x; clear x)
      | (extract_lets -underBinder +onlyGivenNames x; clear_value x; revert x; intro _)
      | intro _
      | split
      | with_reducible first | refine keeps_pair (by with_reducible assumption) ?_ | refine keeps_triple (by with_reducible assumption) ?_ | refine keeps_pairL (by with_reducible assumption) ?_

theorem gapTimer_keeps (A : Allows P m) (h : m &&& 8388608 = 8388608) :
    ∀ x0 x1 s, P s → P (gapTimer x0 x1 s) := by
  have A := A.mono h
  clear h
  have kModReseq := modReseq_keeps A rfl
  intro x0 x1 s  hs
  unfold gapTimer
  repeat' first
    | with_reducible first
        | assumption | refine kModReseq _ _ _ _  ?_
    | intro _
    | split

theorem reseqCell_keeps (A : Allows P m) (h : m &&& 10364565792 = 10364565792) :
    ∀ x0 s, P s → P (reseqCell x0 s) := by
  have A := A.mono h
  clear h
  have kFreeLinkCell := freeLinkCell_keeps A rfl
  have kCntInc := cntInc_keeps A rfl
  have kReleaseCell := releaseCell_keeps A rfl
  have kModReseq := modReseq_keeps A rfl
  have kGapTimer := gapTimer_keeps A rfl
  have kReleaseRun := releaseRun_keeps A rfl
  intro x0 s  hs
  unfold reseqCell
  repeat' first
    | with_reducible first
        | assumption | refine kFreeLinkCell _ _  ?_ | refine kCntInc _ _ _ _  ?_ | refine kReleaseCell _ _  ?_
        | refine kModReseq _ _ _ _  ?_ | refine kGapTimer _ _ _  ?_ | refine kReleaseRun _ _ _ _  ?_
    | (extract_lets -underBinder +onlyGivenNames x; refine keeps_fact (P := P) (v := x) ?_ ?_; rotate_left; clear_value x; revert x; intro _ _; rotate_left; unfold x; clear x)
    | (extract_lets -underBinder +onlyGivenNames x; clear_value x; revert x; intro _)
    | intro _
    | split
    | with_reducible first | refine keeps_pair (by with_reducible assumption) ?_ | refine keeps_triple (by with_reducible assumption) ?_ | refine keeps_pairL (by with_reducible assumption) ?_

theorem loseFrame.drop_keeps (A : Allows P m) (h : m &&& 10356177184 = 10356177184) :
    ∀ x0 x1 s, P s → P (loseFrame.drop x0 x1 s) := by
  have A := A.mono h
  clear h
  have kUnref := unref_keeps A rfl
  have kModLaunch := modLaunch_keeps A rfl
  have kModEgq := modEgq_keeps A rfl
  intro x0 x1 s  hs
  unfold loseFrame.drop
  repeat' first
    | with_reducible first
        | assumption | refine kUnref _ _  ?_ | refine kModLaunch _ _ _  ?_ | refine kModEgq _ _ _ _  ?_
        | refine each_keeps _ _ (fun _ _ _ => ?_) _ ?_
    | intro _
    | split
    | with_reducible first | refine keeps_pair (by with_reducible assumption) ?_ | refine keeps_triple (by with_reducible assumption) ?_ | refine keeps_pairL (by with_reducible assumption) ?_

theorem loseFrame_keeps (A : Allows P m) (h : m &&& 10356177184 = 10356177184) :
    ∀ x0 s, P s → P (loseFrame x0 s) := by
  have A := A.mono h
  clear h
  have kModPkt := modPkt_keeps A rfl
  have kLoseFrame_drop := loseFrame.drop_keeps A rfl
  intro x0 s  hs
  unfold loseFrame
  repeat' first
    | with_reducible first
        | assumption | refine kModPkt _ _ _  ?_ | refine kLoseFrame_drop _ _ _  ?_
        | refine each_keeps _ _ (fun _ _ _ => ?_) _ ?_
    | intro _
    | split
    | with_reducible first | refine keeps_pair (by with_reducible assumption) ?_ | refine keeps_triple (by with_reducible assumption) ?_ | refine keeps_pairL (by with_reducible assumption) ?_

theorem reseqGapTimeout_keeps (A : Allows P m) (h : m &&& 10364565792 = 10364565792) :
    ∀ x0 x1 s, P s → P (reseqGapTimeout x0 x1 s) := by
  have A := A.mono h
  clear h
  have kRaise := raise_keeps A rfl
  have kCntInc := cntInc_keeps A rfl
  have kModReseq := modReseq_keeps A rfl
  have kFreeLinkCell := freeLinkCell_keeps A rfl
  have kLoseFrame := loseFrame_keeps A rfl
  have kGapTimer := gapTimer_keeps A rfl
  have kReleaseRun := releaseRun_keeps A rfl
  intro x0 x1 s  hs
  unfold reseqGapTimeout
  repeat' first
    | with_reducible first
        | assumption | refine kRaise _ _ _ _ _ _ _  ?_ | refine kCntInc _ _ _ _  ?_
        | refine kModReseq _ _ _ _  ?_ | refine kFreeLinkCell _ _  ?_ | refine kLoseFrame _ _  ?_
        | refine kGapTimer _ _ _  ?_ | refine kReleaseRun _ _ _ _  ?_
        | refine each_keeps _ _ (fun _ _ _ => ?_) _ ?_ | refine foldl_keeps _ _ (fun _ _ _ => ?_) _ ?_
    | (extract_lets -underBinder +onlyGivenNames x; refine keeps_fact (P := P) (v := x) ?_ ?_; rotate_left; clear_value x; revert x; intro _ _; rotate_left; unfold x; clear x)
    | (extract_lets -underBinder +onlyGivenNames x; have h := fun a => x a; clear h; unfold x; clear x)
    | (extract_lets -underBinder +onlyGivenNames x; clear_value x; revert x; intro _)
    | intro _
    | split
    | with_reducible first | refine keeps_pair (by with_reducible assumption) ?_ | refine keeps_triple (by with_reducible assumption) ?_ | refine keeps_pairL (by with_reducible assumption) ?_

theorem linkNext_keeps (A : Allows P m) (h : m &&& 4194304 = 4194304) :
    ∀ x0 x1 x2 x3 x4 s, P s → P (linkNext x0 x1 x2 x3 x4 s) := by
  have A := A.mono h
  clear h
  have kModBuf := modBuf_keeps A rfl
  intro x0 x1 x2 x3 x4 s  hs
  unfold linkNext
  repeat' first
    | with_reducible first
        | assumption | refine kModBuf _ _  ?_
    | (extract_lets -underBinder +onlyGivenNames x; refine keeps_fact (P := P) (v := x) ?_ ?_; rotate_left; clear_value x; revert x; intro _ _; rotate_left; unfold x; clear x)
    | (extract_lets -underBinder +onlyGivenNames x; have h := fun a => x a; clear h; unfold x; clear x)
    | (extract_lets -underBinder +onlyGivenNames x; clear_value x; revert x; intro _)
    | intro _
    | split

theorem linkCellReceive_keeps (A : Allows P m) (h : m &&& 10364565792 = 10364565792) :
    ∀ x0 x1 x2 x3 s, P s → P (linkCellReceive x0 x1 x2 x3 s) := by
  have A := A.mono h
  clear h
  have kModDir := modDir_keeps A rfl
  have kCntInc := cntInc_keeps A rfl
  have kReseqCell := reseqCell_keeps A rfl
  have kAskCells := askCells_keeps A rfl
  have kAllocCell := allocCell_keeps A rfl
  have kLinkNext := linkNext_keeps A rfl
  have kModPkt := modPkt_keeps A rfl
  intro x0 x1 x2 x3 s  hs
  unfold linkCellReceive
  repeat' first
    | with_reducible first
        | assumption | refine kModDir _ _ _ _  ?_ | refine kCntInc _ _ _ _  ?_ | refine kReseqCell _ _  ?_
        | refine kAskCells _ _ _  ?_ | refine kAllocCell _ _ _ _  ?_ _ _ (by assumption)
        | refine kLinkNext _ _ _ _ _ _  ?_ | refine kModPkt _ _ _  ?_
    | (extract_lets -underBinder +onlyGivenNames x; refine keeps_fact (P := P) (v := x) ?_ ?_; rotate_left; clear_value x; revert x; intro _ _; rotate_left; unfold x; clear x)
    | (extract_lets -underBinder +onlyGivenNames x; have h := fun a => x a; clear h; unfold x; clear x)
    | (extract_lets -underBinder +onlyGivenNames x; clear_value x; revert x; intro _)
    | intro _
    | split
    | with_reducible first | refine keeps_pair (by with_reducible assumption) ?_ | refine keeps_triple (by with_reducible assumption) ?_ | refine keeps_pairL (by with_reducible assumption) ?_

theorem freeAcked_keeps (A : Allows P m) (h : m &&& 10355751200 = 10355751200) :
    ∀ x0 x1 s, P s → P (freeAcked x0 x1 s) := by
  have A := A.mono h
  clear h
  have kStageFree := stageFree_keeps A rfl
  have kFreeCell := freeCell_keeps A rfl
  have kUnchargeCell := unchargeCell_keeps A rfl
  have kModPkt := modPkt_keeps A rfl
  intro x0 x1 s  hs
  unfold freeAcked
  repeat' first
    | with_reducible first
        | assumption | refine kStageFree _ _  ?_ | refine kFreeCell _ _ _  ?_ | refine kUnchargeCell _ _ _  ?_
        | refine kModPkt _ _ _  ?_
    | (extract_lets -underBinder +onlyGivenNames x; refine keeps_fact (P := P) (v := x) ?_ ?_; rotate_left; clear_value x; revert x; intro _ _; rotate_left; unfold x; clear x)
    | (extract_lets -underBinder +onlyGivenNames x; clear_value x; revert x; intro _)
    | intro _
    | split
    | with_reducible first | refine keeps_pair (by with_reducible assumption) ?_ | refine keeps_triple (by with_reducible assumption) ?_ | refine keeps_pairL (by with_reducible assumption) ?_

theorem linkAck_keeps (A : Allows P m) (h : m &&& 10364139808 = 10364139808) :
    ∀ x0 x1 s, P s → P (linkAck x0 x1 s) := by
  have A := A.mono h
  clear h
  have kModDir := modDir_keeps A rfl
  have kFreeAcked := freeAcked_keeps A rfl
  intro x0 x1 s  hs
  unfold linkAck
  repeat' first
    | with_reducible first
        | assumption | refine kModDir _ _ _ _  ?_ | refine kFreeAcked _ _ _  ?_
        | refine each_keeps _ _ (fun _ _ _ => ?_) _ ?_
    | (extract_lets -underBinder +onlyGivenNames x; refine keeps_fact (P := P) (v := x) ?_ ?_; rotate_left; clear_value x; revert x; intro _ _; rotate_left; unfold x; clear x)
    | (extract_lets -underBinder +onlyGivenNames x; clear_value x; revert x; intro _)
    | intro _
    | split
    | with_reducible first | refine keeps_pair (by with_reducible assumption) ?_ | refine keeps_triple (by with_reducible assumption) ?_ | refine keeps_pairL (by with_reducible assumption) ?_

theorem linkNak_keeps (A : Allows P m) (h : m &&& 8390656 = 8390656) :
    ∀ x0 x1 s, P s → P (linkNak x0 x1 s) := by
  have A := A.mono h
  clear h
  have kResend := resend_keeps A rfl
  have kModDir := modDir_keeps A rfl
  intro x0 x1 s  hs
  unfold linkNak
  repeat' first
    | with_reducible first
        | assumption | refine kResend _ _ _ _  ?_ | refine kModDir _ _ _ _  ?_
    | intro _
    | split
    | with_reducible first | refine keeps_pair (by with_reducible assumption) ?_ | refine keeps_triple (by with_reducible assumption) ?_ | refine keeps_pairL (by with_reducible assumption) ?_

theorem linkResend_keeps (A : Allows P m) (h : m &&& 8390656 = 8390656) :
    ∀ x0 x1 s, P s → P (linkResend x0 x1 s) := by
  have A := A.mono h
  clear h
  have kResend := resend_keeps A rfl
  intro x0 x1 s  hs
  unfold linkResend
  repeat' first
    | with_reducible first
        | assumption | refine kResend _ _ _ _  ?_
    | intro _
    | split
    | with_reducible first | refine keeps_pair (by with_reducible assumption) ?_ | refine keeps_triple (by with_reducible assumption) ?_ | refine keeps_pairL (by with_reducible assumption) ?_

theorem checkAlign_keeps (A : Allows P m) (h : m &&& 10335295776 = 10335295776) :
    ∀ s, P s → P (checkAlign s) := by
  have A := A.mono h
  clear h
  have kRaise := raise_keeps A rfl
  intro s  hs
  unfold checkAlign
  repeat' first
    | with_reducible first
        | assumption | refine kRaise _ _ _ _ _ _ _  ?_ | refine each_keeps _ _ (fun _ _ _ => ?_) _ ?_
    | (extract_lets -underBinder +onlyGivenNames x; refine keeps_fact (P := P) (v := x) ?_ ?_; rotate_left; clear_value x; revert x; intro _ _; rotate_left; unfold x; clear x)
    | (extract_lets -underBinder +onlyGivenNames x; clear_value x; revert x; intro _)
    | intro _
    | split
    | with_reducible first | refine A.aligned rfl _ _ ?_

theorem retireLane_keeps (A : Allows P m) (h : m &&& 10343684384 = 10343684384) :
    ∀ x0 x1 s, P s → P (retireLane x0 x1 s) := by
  have A := A.mono h
  clear h
  have kModDieLink := modDieLink_keeps A rfl
  have kCntInc := cntInc_keeps A rfl
  have kResend := resend_keeps A rfl
  have kCheckAlign := checkAlign_keeps A rfl
  have kRaise := raise_keeps A rfl
  intro x0 x1 s  hs
  unfold retireLane
  repeat' first
    | with_reducible first
        | assumption | refine kModDieLink _ _ _  ?_ | refine kCntInc _ _ _ _  ?_ | refine kResend _ _ _ _  ?_
        | refine kCheckAlign _  ?_ | refine kRaise _ _ _ _ _ _ _  ?_
        | refine each_keeps _ _ (fun _ _ _ => ?_) _ ?_
    | (extract_lets -underBinder +onlyGivenNames x; refine keeps_fact (P := P) (v := x) ?_ ?_; rotate_left; clear_value x; revert x; intro _ _; rotate_left; unfold x; clear x)
    | (extract_lets -underBinder +onlyGivenNames x; clear_value x; revert x; intro _)
    | intro _
    | split

theorem nextInterval_keeps (A : Allows P m) (h : m &&& 8388608 = 8388608) :
    ∀ x0 x1 s, P s → P (nextInterval x0 x1 s) := by
  have A := A.mono h
  clear h
  have kModDir := modDir_keeps A rfl
  intro x0 x1 s  hs
  unfold nextInterval
  repeat' first
    | with_reducible first
        | assumption | refine kModDir _ _ _ _  ?_
    | (extract_lets -underBinder +onlyGivenNames x; refine keeps_fact (P := P) (v := x) ?_ ?_; rotate_left; clear_value x; revert x; intro _ _; rotate_left; unfold x; clear x)
    | (extract_lets -underBinder +onlyGivenNames x; have h := fun a => x a; clear h; unfold x; clear x)
    | (extract_lets -underBinder +onlyGivenNames x; clear_value x; revert x; intro _)

theorem laneErrorInterval_keeps (A : Allows P m) (h : m &&& 10343684384 = 10343684384) :
    ∀ x0 x1 s, P s → P (laneErrorInterval x0 x1 s) := by
  have A := A.mono h
  clear h
  have kRetireLane := retireLane_keeps A rfl
  have kNextInterval := nextInterval_keeps A rfl
  intro x0 x1 s  hs
  unfold laneErrorInterval
  repeat' first
    | with_reducible first
        | assumption | refine kRetireLane _ _ _  ?_ | refine kNextInterval _ _ _  ?_
    | (extract_lets -underBinder +onlyGivenNames x; refine keeps_fact (P := P) (v := x) ?_ ?_; rotate_left; clear_value x; revert x; intro _ _; rotate_left; unfold x; clear x)
    | (extract_lets -underBinder +onlyGivenNames x; clear_value x; revert x; intro _)
    | split

theorem mapLinkEnts_keeps (A : Allows P m) (h : m &&& 8388608 = 8388608) :
    ∀ x0 s, P s → P (mapLinkEnts x0 s) := by
  have A := A.mono h
  clear h
  have kModFab := modFab_keeps A rfl
  intro x0 s  hs
  unfold mapLinkEnts
  repeat' first
    | with_reducible first
        | assumption | refine kModFab _ _  ?_
    | (extract_lets -underBinder +onlyGivenNames x; refine keeps_fact (P := P) (v := x) ?_ ?_; rotate_left; clear_value x; revert x; intro _ _; rotate_left; unfold x; clear x)
    | (extract_lets -underBinder +onlyGivenNames x; have h := fun a => x a; clear h; unfold x; clear x)
    | (extract_lets -underBinder +onlyGivenNames x; clear_value x; revert x; intro _)
    | intro _

theorem forgoPort_keeps (A : Allows P m) (h : m &&& 8388608 = 8388608) :
    ∀ x0 x1 s, P s → P (forgoPort x0 x1 s) := by
  have A := A.mono h
  clear h
  have kModFab := modFab_keeps A rfl
  have kMapLinkEnts := mapLinkEnts_keeps A rfl
  intro x0 x1 s  hs
  unfold forgoPort
  repeat' first
    | with_reducible first
        | assumption | refine kModFab _ _  ?_ | refine kMapLinkEnts _ _  ?_
    | (extract_lets -underBinder +onlyGivenNames x; refine keeps_fact (P := P) (v := x) ?_ ?_; rotate_left; clear_value x; revert x; intro _ _; rotate_left; unfold x; clear x)
    | (extract_lets -underBinder +onlyGivenNames x; have h := fun a => x a; clear h; unfold x; clear x)
    | (extract_lets -underBinder +onlyGivenNames x; clear_value x; revert x; intro _)
    | intro _
    | split

theorem mcastHoldExpiry_keeps (A : Allows P m) (h : m &&& 10364565792 = 10364565792) :
    ∀ x0 x1 s, P s → P (mcastHoldExpiry x0 x1 s) := by
  have A := A.mono h
  clear h
  have kModLaunch := modLaunch_keeps A rfl
  have kModEgq := modEgq_keeps A rfl
  have kDropEnt := dropEnt_keeps A rfl
  have kFormQueueTag := formQueueTag_keeps A rfl
  have kDropUse := dropUse_keeps A rfl
  have kForgoPort := forgoPort_keeps A rfl
  intro x0 x1 s  hs
  unfold mcastHoldExpiry
  repeat' first
    | with_reducible first
        | assumption | refine kModLaunch _ _ _  ?_ | refine kModEgq _ _ _ _  ?_ | refine kDropEnt _ _ _  ?_
        | refine kFormQueueTag _ _ _  ?_ | refine kDropUse _ _ _  ?_ | refine kForgoPort _ _ _  ?_
        | refine each_keeps _ _ (fun _ _ _ => ?_) _ ?_
    | (extract_lets -underBinder +onlyGivenNames x; refine keeps_fact (P := P) (v := x) ?_ ?_; rotate_left; clear_value x; revert x; intro _ _; rotate_left; unfold x; clear x)
    | (extract_lets -underBinder +onlyGivenNames x; have h := fun a => x a; clear h; unfold x; clear x)
    | (extract_lets -underBinder +onlyGivenNames x; clear_value x; revert x; intro _)
    | intro _
    | split
    | with_reducible first | refine keeps_pair (by with_reducible assumption) ?_ | refine keeps_triple (by with_reducible assumption) ?_ | refine keeps_pairL (by with_reducible assumption) ?_

theorem execArbiterMatch_keeps (A : Allows P m) (h : m &&& 10364565792 = 10364565792) :
    ∀ x0 s, P s → ∀ t, execArbiterMatch x0 s = .next t → P t := by
  have A := A.mono h
  clear h
  have kArbiterMatch := arbiterMatch_keeps A rfl
  intro x0 s  hs
  intro t e
  cases e
  repeat' first
    | with_reducible first
        | assumption | refine kArbiterMatch _ _  ?_ | refine each_keeps _ _ (fun _ _ _ => ?_) _ ?_
        | refine foldl_keeps _ _ (fun _ _ _ => ?_) _ ?_
    | (extract_lets -underBinder +onlyGivenNames x; refine keeps_fact (P := P) (v := x) ?_ ?_; rotate_left; clear_value x; revert x; intro _ _; rotate_left; unfold x; clear x)
    | (extract_lets -underBinder +onlyGivenNames x; refine keeps_fact2 (P := P) (v := x) ?_ ?_; rotate_left; clear_value x; revert x; intro _ _; rotate_left; unfold x; clear x)
    | (extract_lets -underBinder +onlyGivenNames x; have h := fun a => x a; clear h; unfold x; clear x)
    | (extract_lets -underBinder +onlyGivenNames x; clear_value x; revert x; intro _)
    | intro _
    | split
    | with_reducible first | refine keeps_pair (by with_reducible assumption) ?_ | refine keeps_triple (by with_reducible assumption) ?_ | refine keeps_pairL (by with_reducible assumption) ?_

theorem execArbiterSelfCheckEnd_keeps (A : Allows P m) (h : m &&& 10343160096 = 10343160096) :
    ∀ x0 x1 s, P s → ∀ t, execArbiterSelfCheckEnd x0 x1 s = .next t → P t := by
  have A := A.mono h
  clear h
  have kSelfCheckEnd := selfCheckEnd_keeps A rfl
  intro x0 x1 s  hs
  intro t e
  cases e
  repeat' first
    | with_reducible first
        | assumption | refine kSelfCheckEnd _ _ _  ?_
    | (extract_lets -underBinder +onlyGivenNames x; refine keeps_fact (P := P) (v := x) ?_ ?_; rotate_left; clear_value x; revert x; intro _ _; rotate_left; unfold x; clear x)
    | (extract_lets -underBinder +onlyGivenNames x; clear_value x; revert x; intro _)
    | intro _
    | split
    | with_reducible first | refine keeps_pair (by with_reducible assumption) ?_ | refine keeps_triple (by with_reducible assumption) ?_ | refine keeps_pairL (by with_reducible assumption) ?_

theorem execFailedCopySelfCheck_keeps (A : Allows P m) (h : m &&& 8390656 = 8390656) :
    ∀ x0 s, P s → ∀ t, execFailedCopySelfCheck x0 s = .next t → P t := by
  have A := A.mono h
  clear h
  have kFailedCopyCheck := failedCopyCheck_keeps A rfl
  intro x0 s  hs
  intro t e
  cases e
  repeat' first
    | with_reducible first
        | assumption | refine kFailedCopyCheck _ _  ?_
    | (extract_lets -underBinder +onlyGivenNames x; refine keeps_fact (P := P) (v := x) ?_ ?_; rotate_left; clear_value x; revert x; intro _ _; rotate_left; unfold x; clear x)
    | (extract_lets -underBinder +onlyGivenNames x; clear_value x; revert x; intro _)
    | intro _
    | split
    | with_reducible first | refine keeps_pair (by with_reducible assumption) ?_ | refine keeps_triple (by with_reducible assumption) ?_ | refine keeps_pairL (by with_reducible assumption) ?_

theorem execLinkCellReceive_keeps (A : Allows P m) (h : m &&& 10364565792 = 10364565792) :
    ∀ x0 x1 x2 x3 s, P s → ∀ t, execLinkCellReceive x0 x1 x2 x3 s = .next t → P t := by
  have A := A.mono h
  clear h
  have kLinkCellReceive := linkCellReceive_keeps A rfl
  intro x0 x1 x2 x3 s  hs
  intro t e
  cases e
  repeat' first
    | with_reducible first
        | assumption | refine kLinkCellReceive _ _ _ _ _  ?_
    | (extract_lets -underBinder +onlyGivenNames x; refine keeps_fact (P := P) (v := x) ?_ ?_; rotate_left; clear_value x; revert x; intro _ _; rotate_left; unfold x; clear x)
    | (extract_lets -underBinder +onlyGivenNames x; clear_value x; revert x; intro _)
    | intro _
    | split
    | with_reducible first | refine keeps_pair (by with_reducible assumption) ?_ | refine keeps_triple (by with_reducible assumption) ?_ | refine keeps_pairL (by with_reducible assumption) ?_

theorem execLinkAck_keeps (A : Allows P m) (h : m &&& 10364139808 = 10364139808) :
    ∀ x0 x1 s, P s → ∀ t, execLinkAck x0 x1 s = .next t → P t := by
  have A := A.mono h
  clear h
  have kLinkAck := linkAck_keeps A rfl
  intro x0 x1 s  hs
  intro t e
  cases e
  repeat' first
    | with_reducible first
        | assumption | refine kLinkAck _ _ _  ?_
    | (extract_lets -underBinder +onlyGivenNames x; refine keeps_fact (P := P) (v := x) ?_ ?_; rotate_left; clear_value x; revert x; intro _ _; rotate_left; unfold x; clear x)
    | (extract_lets -underBinder +onlyGivenNames x; clear_value x; revert x; intro _)
    | intro _
    | split
    | with_reducible first | refine keeps_pair (by with_reducible assumption) ?_ | refine keeps_triple (by with_reducible assumption) ?_ | refine keeps_pairL (by with_reducible assumption) ?_

theorem execLinkNak_keeps (A : Allows P m) (h : m &&& 8390656 = 8390656) :
    ∀ x0 x1 s, P s → ∀ t, execLinkNak x0 x1 s = .next t → P t := by
  have A := A.mono h
  clear h
  have kLinkNak := linkNak_keeps A rfl
  intro x0 x1 s  hs
  intro t e
  cases e
  repeat' first
    | with_reducible first
        | assumption | refine kLinkNak _ _ _  ?_
    | (extract_lets -underBinder +onlyGivenNames x; refine keeps_fact (P := P) (v := x) ?_ ?_; rotate_left; clear_value x; revert x; intro _ _; rotate_left; unfold x; clear x)
    | (extract_lets -underBinder +onlyGivenNames x; clear_value x; revert x; intro _)
    | intro _
    | split
    | with_reducible first | refine keeps_pair (by with_reducible assumption) ?_ | refine keeps_triple (by with_reducible assumption) ?_ | refine keeps_pairL (by with_reducible assumption) ?_

theorem execLinkResendTimeout_keeps (A : Allows P m) (h : m &&& 8390656 = 8390656) :
    ∀ x0 x1 s, P s → ∀ t, execLinkResendTimeout x0 x1 s = .next t → P t := by
  have A := A.mono h
  clear h
  have kLinkResend := linkResend_keeps A rfl
  intro x0 x1 s  hs
  intro t e
  cases e
  repeat' first
    | with_reducible first
        | assumption | refine kLinkResend _ _ _  ?_
    | (extract_lets -underBinder +onlyGivenNames x; refine keeps_fact (P := P) (v := x) ?_ ?_; rotate_left; clear_value x; revert x; intro _ _; rotate_left; unfold x; clear x)
    | (extract_lets -underBinder +onlyGivenNames x; clear_value x; revert x; intro _)
    | intro _
    | split
    | with_reducible first | refine keeps_pair (by with_reducible assumption) ?_ | refine keeps_triple (by with_reducible assumption) ?_ | refine keeps_pairL (by with_reducible assumption) ?_

theorem execLaneErrorInterval_keeps (A : Allows P m) (h : m &&& 10343684384 = 10343684384) :
    ∀ x0 x1 s, P s → ∀ t, execLaneErrorInterval x0 x1 s = .next t → P t := by
  have A := A.mono h
  clear h
  have kLaneErrorInterval := laneErrorInterval_keeps A rfl
  intro x0 x1 s  hs
  intro t e
  cases e
  repeat' first
    | with_reducible first
        | assumption | refine kLaneErrorInterval _ _ _  ?_
    | (extract_lets -underBinder +onlyGivenNames x; refine keeps_fact (P := P) (v := x) ?_ ?_; rotate_left; clear_value x; revert x; intro _ _; rotate_left; unfold x; clear x)
    | (extract_lets -underBinder +onlyGivenNames x; clear_value x; revert x; intro _)
    | intro _
    | split
    | with_reducible first | refine keeps_pair (by with_reducible assumption) ?_ | refine keeps_triple (by with_reducible assumption) ?_ | refine keeps_pairL (by with_reducible assumption) ?_

theorem execReseqGapTimeout_keeps (A : Allows P m) (h : m &&& 10364565792 = 10364565792) :
    ∀ x0 x1 s, P s → ∀ t, execReseqGapTimeout x0 x1 s = .next t → P t := by
  have A := A.mono h
  clear h
  have kReseqGapTimeout := reseqGapTimeout_keeps A rfl
  intro x0 x1 s  hs
  intro t e
  cases e
  repeat' first
    | with_reducible first
        | assumption | refine kReseqGapTimeout _ _ _  ?_
    | (extract_lets -underBinder +onlyGivenNames x; refine keeps_fact (P := P) (v := x) ?_ ?_; rotate_left; clear_value x; revert x; intro _ _; rotate_left; unfold x; clear x)
    | (extract_lets -underBinder +onlyGivenNames x; clear_value x; revert x; intro _)
    | intro _
    | split
    | with_reducible first | refine keeps_pair (by with_reducible assumption) ?_ | refine keeps_triple (by with_reducible assumption) ?_ | refine keeps_pairL (by with_reducible assumption) ?_

theorem execMcastHoldExpiry_keeps (A : Allows P m) (h : m &&& 10364565792 = 10364565792) :
    ∀ x0 x1 s, P s → ∀ t, execMcastHoldExpiry x0 x1 s = .next t → P t := by
  have A := A.mono h
  clear h
  have kMcastHoldExpiry := mcastHoldExpiry_keeps A rfl
  intro x0 x1 s  hs
  intro t e
  cases e
  repeat' first
    | with_reducible first
        | assumption | refine kMcastHoldExpiry _ _ _  ?_
    | (extract_lets -underBinder +onlyGivenNames x; refine keeps_fact (P := P) (v := x) ?_ ?_; rotate_left; clear_value x; revert x; intro _ _; rotate_left; unfold x; clear x)
    | (extract_lets -underBinder +onlyGivenNames x; clear_value x; revert x; intro _)
    | intro _
    | split
    | with_reducible first | refine keeps_pair (by with_reducible assumption) ?_ | refine keeps_triple (by with_reducible assumption) ?_ | refine keeps_pairL (by with_reducible assumption) ?_

end Sys2Proof.Laws
end

