-- ==== Sys2Proof/Laws/HostRings.lean ====
section
/-! SUPPORT. What each operation of Machine/HostRings.lean can change (Laws/Keeps.lean). -/

namespace Sys2Proof.Laws

open Sys2Proof.Machine

variable {P : State → Prop} {m : Nat}

theorem hifCnt_keeps (A : Allows P m) (h : m &&& 2048 = 2048) :
    ∀ x0 x1 s, P s → P (hifCnt x0 x1 s) := by
  have A := A.mono h
  clear h
  have kCntInc := cntInc_keeps A rfl
  intro x0 x1 s  hs
  unfold hifCnt
  repeat' first
    | with_reducible first
        | assumption | refine kCntInc _ _ _ _  ?_

theorem puntDone_keeps (A : Allows P m) (h : m &&& 10355751200 = 10355751200) :
    ∀ x0 s, P s → P (puntDone x0 s) := by
  have A := A.mono h
  clear h
  have kFreeFrame := freeFrame_keeps A rfl
  have kModBuf := modBuf_keeps A rfl
  have kDropPkt := dropPkt_keeps A rfl
  intro x0 s  hs
  unfold puntDone
  repeat' first
    | with_reducible first
        | assumption | refine kFreeFrame _ _  ?_ | refine kModBuf _ _  ?_ | refine kDropPkt _ _  ?_
    | (extract_lets -underBinder +onlyGivenNames x; refine keeps_fact (P := P) (v := x) ?_ ?_; rotate_left; clear_value x; revert x; intro _ _; rotate_left; unfold x; clear x)
    | (extract_lets -underBinder +onlyGivenNames x; clear_value x; revert x; intro _)
    | intro _

theorem puntAbandon_keeps (A : Allows P m) (h : m &&& 10355751200 = 10355751200) :
    ∀ x0 x1 s, P s → P (puntAbandon x0 x1 s) := by
  have A := A.mono h
  clear h
  have kModPool := modPool_keeps A rfl
  have kModRing := modRing_keeps A rfl
  have kPuntDone := puntDone_keeps A rfl
  intro x0 x1 s  hs
  unfold puntAbandon
  repeat' first
    | with_reducible first
        | assumption | refine kModPool _ _ _  ?_ | refine kModRing _ _ _  ?_ | refine kPuntDone _ _  ?_
    | (extract_lets -underBinder +onlyGivenNames x; refine keeps_fact (P := P) (v := x) ?_ ?_; rotate_left; clear_value x; revert x; intro _ _; rotate_left; unfold x; clear x)
    | (extract_lets -underBinder +onlyGivenNames x; clear_value x; revert x; intro _)
    | intro _

theorem puntEnqueue_keeps (A : Allows P m) (h : m &&& 10338965792 = 10338965792) :
    ∀ x0 s, P s → P (puntEnqueue x0 s) := by
  have A := A.mono h
  clear h
  have kModRing := modRing_keeps A rfl
  have kModBuf := modBuf_keeps A rfl
  have kRetag := retag_keeps A rfl
  have kModPool := modPool_keeps A rfl
  intro x0 s  hs
  unfold puntEnqueue
  repeat' first
    | with_reducible first
        | assumption | refine kModRing _ _ _  ?_ | refine kModBuf _ _  ?_ | refine kRetag _ _ _  ?_
        | refine kModPool _ _ _  ?_
    | (extract_lets -underBinder +onlyGivenNames x; refine keeps_fact (P := P) (v := x) ?_ ?_; rotate_left; clear_value x; revert x; intro _ _; rotate_left; unfold x; clear x)
    | (extract_lets -underBinder +onlyGivenNames x; clear_value x; revert x; intro _)
    | intro _

theorem puntRequest_keeps (A : Allows P m) (h : m &&& 10355751200 = 10355751200) :
    ∀ x0 s, P s → P (puntRequest x0 s) := by
  have A := A.mono h
  clear h
  have kPuntDone := puntDone_keeps A rfl
  have kHifCnt := hifCnt_keeps A rfl
  have kModHif := modHif_keeps A rfl
  have kRetag := retag_keeps A rfl
  have kPuntEnqueue := puntEnqueue_keeps A rfl
  have kCntInc := cntInc_keeps A rfl
  intro x0 s  hs
  unfold puntRequest
  repeat' first
    | with_reducible first
        | assumption | refine kPuntDone _ _  ?_ | refine kHifCnt _ _ _  ?_ | refine kModHif _ _  ?_
        | refine kRetag _ _ _  ?_ | refine kPuntEnqueue _ _  ?_ | refine kCntInc _ _ _ _  ?_
    | (extract_lets -underBinder +onlyGivenNames x; refine keeps_fact (P := P) (v := x) ?_ ?_; rotate_left; clear_value x; revert x; intro _ _; rotate_left; unfold x; clear x)
    | (extract_lets -underBinder +onlyGivenNames x; clear_value x; revert x; intro _)
    | intro _
    | split

theorem retryPunts_keeps (A : Allows P m) (h : m &&& 10355751200 = 10355751200) :
    ∀ s, P s → P (retryPunts s) := by
  have A := A.mono h
  clear h
  have kPuntRequest := puntRequest_keeps A rfl
  have kModHif := modHif_keeps A rfl
  intro s  hs
  unfold retryPunts
  repeat' first
    | with_reducible first
        | assumption | refine kPuntRequest _ _  ?_ | refine kModHif _ _  ?_
        | refine each_keeps _ _ (fun _ _ _ => ?_) _ ?_
    | (extract_lets -underBinder +onlyGivenNames x; refine keeps_fact (P := P) (v := x) ?_ ?_; rotate_left; clear_value x; revert x; intro _ _; rotate_left; unfold x; clear x)
    | (extract_lets -underBinder +onlyGivenNames x; clear_value x; revert x; intro _)
    | intro _

theorem drawBufs_keeps (A : Allows P m) (h : m &&& 10334771488 = 10334771488) :
    ∀ x0 x1 x2 x3 s, P s → P (drawBufs x0 x1 x2 x3 s).2 := by
  have A := A.mono h
  intro pool need k
  induction k with
  | zero => exact fun _ s hs => hs
  | succ n ih =>
    intro got s hs
    unfold drawBufs
    split
    · exact hs
    · split
      · exact hs
      · dsimp only
        split
        · exact ih _ _ (modPool_keeps A rfl _ _ _ hs)
        · exact ih _ _ (dmaFault_keeps A rfl _ _ _ (modPool_keeps A rfl _ _ _ hs))

theorem puntWrite_keeps (A : Allows P m) (h : m &&& 10355751200 = 10355751200) :
    ∀ x0 x1 x2 s, P s → P (puntWrite x0 x1 x2 s) := by
  have A := A.mono h
  clear h
  have kHostWr := hostWr_keeps A rfl
  have kModRing := modRing_keeps A rfl
  have kDevWrite := devWrite_keeps A rfl
  have kPuntDone := puntDone_keeps A rfl
  intro x0 x1 x2 s  hs
  unfold puntWrite
  repeat' first
    | with_reducible first
        | assumption | refine kHostWr _ _ _  ?_ | refine kModRing _ _ _  ?_ | refine kDevWrite _ _ _  ?_
        | refine kPuntDone _ _  ?_
    | (extract_lets -underBinder +onlyGivenNames x; refine keeps_fact (P := P) (v := x) ?_ ?_; rotate_left; clear_value x; revert x; intro _ _; rotate_left; unfold x; clear x)
    | (extract_lets -underBinder +onlyGivenNames x; clear_value x; revert x; intro _)
    | intro _
    | split

theorem popPunt_keeps (A : Allows P m) (h : m &&& 4096 = 4096) :
    ∀ x0 s, P s → P (popPunt x0 s) := by
  have A := A.mono h
  clear h
  have kModPool := modPool_keeps A rfl
  intro x0 s  hs
  unfold popPunt
  repeat' first
    | with_reducible first
        | assumption | refine kModPool _ _ _  ?_
    | intro _

theorem refillCheck_keeps (A : Allows P m) (h : m &&& 4096 = 4096) :
    ∀ x0 s, P s → P (refillCheck x0 s) := by
  have A := A.mono h
  clear h
  have kModPool := modPool_keeps A rfl
  intro x0 s  hs
  unfold refillCheck
  repeat' first
    | with_reducible first
        | assumption | refine kModPool _ _ _  ?_
    | (extract_lets -underBinder +onlyGivenNames x; refine keeps_fact (P := P) (v := x) ?_ ?_; rotate_left; clear_value x; revert x; intro _ _; rotate_left; unfold x; clear x)
    | (extract_lets -underBinder +onlyGivenNames x; clear_value x; revert x; intro _)
    | intro _

theorem puntBufferGrant_keeps (A : Allows P m) (h : m &&& 10355751200 = 10355751200) :
    ∀ x0 s, P s → P (puntBufferGrant x0 s) := by
  have A := A.mono h
  clear h
  have kRetryPunts := retryPunts_keeps A rfl
  have kRefillCheck := refillCheck_keeps A rfl
  have kPuntAbandon := puntAbandon_keeps A rfl
  have kHifCnt := hifCnt_keeps A rfl
  have kPopPunt := popPunt_keeps A rfl
  have kDrawBufs := drawBufs_keeps A rfl
  have kModPool := modPool_keeps A rfl
  have kPuntWrite := puntWrite_keeps A rfl
  intro x0 s  hs
  unfold puntBufferGrant
  repeat' first
    | with_reducible first
        | assumption | refine kRetryPunts _  ?_ | refine kRefillCheck _ _  ?_ | refine kPuntAbandon _ _ _  ?_
        | refine kHifCnt _ _ _  ?_ | refine kPopPunt _ _  ?_ | refine kDrawBufs _ _ _ _ _  ?_
        | refine kModPool _ _ _  ?_ | refine kPuntWrite _ _ _ _  ?_
    | (extract_lets -underBinder +onlyGivenNames x; refine keeps_fact (P := P) (v := x) ?_ ?_; rotate_left; clear_value x; revert x; intro _ _; rotate_left; unfold x; clear x)
    | (extract_lets -underBinder +onlyGivenNames x; clear_value x; revert x; intro _)
    | intro _
    | split
    | with_reducible first | refine keeps_pair (by with_reducible assumption) ?_ | refine keeps_triple (by with_reducible assumption) ?_ | refine keeps_pairL (by with_reducible assumption) ?_

theorem puntPoolTimeout_keeps (A : Allows P m) (h : m &&& 10355751200 = 10355751200) :
    ∀ x0 s, P s → P (puntPoolTimeout x0 s) := by
  have A := A.mono h
  clear h
  have kPopPunt := popPunt_keeps A rfl
  have kModPool := modPool_keeps A rfl
  have kModRing := modRing_keeps A rfl
  have kDevWrite := devWrite_keeps A rfl
  have kHifCnt := hifCnt_keeps A rfl
  have kRaise := raise_keeps A rfl
  have kRetryPunts := retryPunts_keeps A rfl
  have kPuntDone := puntDone_keeps A rfl
  intro x0 s  hs
  unfold puntPoolTimeout
  repeat' first
    | with_reducible first
        | assumption | refine kPopPunt _ _  ?_ | refine kModPool _ _ _  ?_ | refine kModRing _ _ _  ?_
        | refine kDevWrite _ _ _  ?_ | refine kHifCnt _ _ _  ?_ | refine kRaise _ _ _ _ _ _ _  ?_
        | refine kRetryPunts _  ?_ | refine kPuntDone _ _  ?_
    | (extract_lets -underBinder +onlyGivenNames x; refine keeps_fact (P := P) (v := x) ?_ ?_; rotate_left; clear_value x; revert x; intro _ _; rotate_left; unfold x; clear x)
    | (extract_lets -underBinder +onlyGivenNames x; clear_value x; revert x; intro _)
    | intro _
    | split
    | with_reducible first | refine keeps_pair (by with_reducible assumption) ?_ | refine keeps_triple (by with_reducible assumption) ?_ | refine keeps_pairL (by with_reducible assumption) ?_

theorem poolEntryRead_keeps (A : Allows P m) (h : m &&& 4352 = 4352) :
    ∀ x0 s, P s → P (poolEntryRead x0 s) := by
  have A := A.mono h
  clear h
  have kRefillCheck := refillCheck_keeps A rfl
  have kModPool := modPool_keeps A rfl
  have kModRing := modRing_keeps A rfl
  have kStatusWrite := statusWrite_keeps A rfl
  intro x0 s  hs
  unfold poolEntryRead
  repeat' first
    | with_reducible first
        | assumption | refine kRefillCheck _ _  ?_ | refine kModPool _ _ _  ?_ | refine kModRing _ _ _  ?_
        | refine kStatusWrite _ _ _  ?_
    | (extract_lets -underBinder +onlyGivenNames x; refine keeps_fact (P := P) (v := x) ?_ ?_; rotate_left; clear_value x; revert x; intro _ _; rotate_left; unfold x; clear x)
    | (extract_lets -underBinder +onlyGivenNames x; clear_value x; revert x; intro _)
    | intro _
    | split

theorem fetchRing_keeps (A : Allows P m) (h : m &&& 4352 = 4352) :
    ∀ x0 s, P s → P (fetchRing x0 s) := by
  have A := A.mono h
  clear h
  have kRefillCheck := refillCheck_keeps A rfl
  have kModHif := modHif_keeps A rfl
  have kStatusWrite := statusWrite_keeps A rfl
  have kModRing := modRing_keeps A rfl
  intro x0 s  hs
  unfold fetchRing
  repeat' first
    | with_reducible first
        | assumption | refine kRefillCheck _ _  ?_ | refine kModHif _ _  ?_ | refine kStatusWrite _ _ _  ?_
        | refine kModRing _ _ _  ?_
    | (extract_lets -underBinder +onlyGivenNames x; refine keeps_fact (P := P) (v := x) ?_ ?_; rotate_left; clear_value x; revert x; intro _ _; rotate_left; unfold x; clear x)
    | (extract_lets -underBinder +onlyGivenNames x; clear_value x; revert x; intro _)
    | intro _
    | split
    | with_reducible first | refine keeps_pair (by with_reducible assumption) ?_ | refine keeps_triple (by with_reducible assumption) ?_ | refine keeps_pairL (by with_reducible assumption) ?_

theorem fetchPairs_keeps (A : Allows P m) (h : m &&& 4352 = 4352) :
    ∀ x0 s, P s → P (fetchPairs x0 s) := by
  have A := A.mono h
  clear h
  have kFetchRing := fetchRing_keeps A rfl
  intro x0 s  hs
  unfold fetchPairs
  repeat' first
    | with_reducible first
        | assumption | refine kFetchRing _ _  ?_ | refine each_keeps _ _ (fun _ _ _ => ?_) _ ?_
    | intro _
    | split

theorem releaseCpl_keeps (A : Allows P m) (h : m &&& 4352 = 4352) :
    ∀ x0 s, P s → P (releaseCpl x0 s) := by
  have A := A.mono h
  clear h
  have kReleaseHeld := releaseHeld_keeps A rfl
  have kFetchPairs := fetchPairs_keeps A rfl
  intro x0 s  hs
  unfold releaseCpl
  repeat' first
    | with_reducible first
        | assumption | refine kReleaseHeld _ _ _  ?_ | refine kFetchPairs _ _  ?_
    | (extract_lets -underBinder +onlyGivenNames x; refine keeps_fact (P := P) (v := x) ?_ ?_; rotate_left; clear_value x; revert x; intro _ _; rotate_left; unfold x; clear x)
    | (extract_lets -underBinder +onlyGivenNames x; clear_value x; revert x; intro _)
    | split

theorem roomIn_keeps (A : Allows P m) (h : m &&& 10355751200 = 10355751200) :
    ∀ x0 s, P s → P (roomIn x0 s) := by
  have A := A.mono h
  clear h
  have kReleaseCpl := releaseCpl_keeps A rfl
  have kEventLost := eventLost_keeps A rfl
  have kRetryPunts := retryPunts_keeps A rfl
  intro x0 s  hs
  unfold roomIn
  repeat' first
    | with_reducible first
        | assumption | refine kReleaseCpl _ _  ?_ | refine kEventLost _ _  ?_ | refine kRetryPunts _  ?_
    | split
    | with_reducible first | refine keeps_pair (by with_reducible assumption) ?_ | refine keeps_triple (by with_reducible assumption) ?_ | refine keeps_pairL (by with_reducible assumption) ?_

theorem modPoll_keeps (A : Allows P m) (h : m &&& 4096 = 4096) :
    ∀ x0 x1 x2 x3 s, P s → P (modPoll x0 x1 x2 x3 s) := by
  have A := A.mono h
  clear h
  have kModHif := modHif_keeps A rfl
  intro x0 x1 x2 x3 s  hs
  unfold modPoll
  repeat' first
    | with_reducible first
        | assumption | refine kModHif _ _  ?_
    | intro _

theorem pollRead_keeps (A : Allows P m) (h : m &&& 4352 = 4352) :
    ∀ x0 x1 x2 x3 s, P s → P (pollRead x0 x1 x2 x3 s) := by
  have A := A.mono h
  intro l p b v s hs
  have kV : P (each v (fun c t => { t with host := wr8 t.host c.1 c.2 }) s) :=
    each_keeps v _ (fun c t ht => A.host rfl t _ _ ht) s hs
  unfold pollRead
  exact ite_keeps (modPoll_keeps A rfl _ _ _ _ _ kV) hs

theorem actOn_keeps (A : Allows P m) (h : m &&& 10355751200 = 10355751200) :
    ∀ x0 x1 s, P s → P (actOn x0 x1 s) := by
  have A := A.mono h
  clear h
  have kFetchRing := fetchRing_keeps A rfl
  have kModRing := modRing_keeps A rfl
  have kRoomIn := roomIn_keeps A rfl
  intro x0 x1 s  hs
  unfold actOn
  repeat' first
    | with_reducible first
        | assumption | refine kFetchRing _ _  ?_ | refine kModRing _ _ _  ?_ | refine kRoomIn _ _  ?_
    | intro _
    | split

theorem pollData_keeps (A : Allows P m) (h : m &&& 10355751200 = 10355751200) :
    ∀ x0 x1 x2 s, P s → P (pollData x0 x1 x2 s) := by
  have A := A.mono h
  clear h
  have kModPoll := modPoll_keeps A rfl
  have kActOn := actOn_keeps A rfl
  intro x0 x1 x2 s  hs
  unfold pollData
  repeat' first
    | with_reducible first
        | assumption | refine kModPoll _ _ _ _ _  ?_ | refine kActOn _ _ _  ?_
        | refine each_keeps _ _ (fun _ _ _ => ?_) _ ?_
    | (extract_lets -underBinder +onlyGivenNames x; refine keeps_fact (P := P) (v := x) ?_ ?_; rotate_left; clear_value x; revert x; intro _ _; rotate_left; unfold x; clear x)
    | (extract_lets -underBinder +onlyGivenNames x; clear_value x; revert x; intro _)
    | intro _
    | split
    | with_reducible first | refine keeps_pair (by with_reducible assumption) ?_ | refine keeps_triple (by with_reducible assumption) ?_ | refine keeps_pairL (by with_reducible assumption) ?_

theorem pollRestart_keeps (A : Allows P m) (h : m &&& 4096 = 4096) :
    ∀ x0 s, P s → P (pollRestart x0 s) := by
  have A := A.mono h
  clear h
  have kModPoll := modPoll_keeps A rfl
  intro x0 s  hs
  unfold pollRestart
  repeat' first
    | with_reducible first
        | assumption | refine kModPoll _ _ _ _ _  ?_
    | (extract_lets -underBinder +onlyGivenNames x; refine keeps_fact (P := P) (v := x) ?_ ?_; rotate_left; clear_value x; revert x; intro _ _; rotate_left; unfold x; clear x)
    | (extract_lets -underBinder +onlyGivenNames x; clear_value x; revert x; intro _)
    | intro _
    | split

theorem sendMsix_keeps (A : Allows P m) (h : m &&& 4096 = 4096) :
    ∀ x0 x1 s, P s → P (sendMsix x0 x1 s) := by
  have A := A.mono h
  clear h
  have kModHif := modHif_keeps A rfl
  have kModVec := modVec_keeps A rfl
  intro x0 x1 s  hs
  unfold sendMsix
  repeat' first
    | with_reducible first
        | assumption | refine kModHif _ _  ?_ | refine kModVec _ _ _ _  ?_
    | (extract_lets -underBinder +onlyGivenNames x; refine keeps_fact (P := P) (v := x) ?_ ?_; rotate_left; clear_value x; revert x; intro _ _; rotate_left; unfold x; clear x)
    | (extract_lets -underBinder +onlyGivenNames x; clear_value x; revert x; intro _)
    | intro _

theorem msixMessage_keeps (A : Allows P m) (h : m &&& 4096 = 4096) :
    ∀ x0 x1 x2 s, P s → P (msixMessage x0 x1 x2 s) := by
  have A := A.mono h
  clear h
  have kModRing := modRing_keeps A rfl
  have kSendMsix := sendMsix_keeps A rfl
  have kModVec := modVec_keeps A rfl
  intro x0 x1 x2 s  hs
  unfold msixMessage
  repeat' first
    | with_reducible first
        | assumption | refine kModRing _ _ _  ?_ | refine kSendMsix _ _ _  ?_ | refine kModVec _ _ _ _  ?_
        | refine each_keeps _ _ (fun _ _ _ => ?_) _ ?_
    | (extract_lets -underBinder +onlyGivenNames x; refine keeps_fact (P := P) (v := x) ?_ ?_; rotate_left; clear_value x; revert x; intro _ _; rotate_left; unfold x; clear x)
    | (extract_lets -underBinder +onlyGivenNames x; clear_value x; revert x; intro _)
    | intro _
    | split
    | with_reducible first | refine keeps_pair (by with_reducible assumption) ?_ | refine keeps_triple (by with_reducible assumption) ?_ | refine keeps_pairL (by with_reducible assumption) ?_

theorem beat_keeps (A : Allows P m) (h : m &&& 4352 = 4352) :
    ∀ x0 s, P s → P (beat x0 s) := by
  have A := A.mono h
  clear h
  have kModLink := modLink_keeps A rfl
  have kHostWr := hostWr_keeps A rfl
  intro x0 s  hs
  unfold beat
  repeat' first
    | with_reducible first
        | assumption | refine kModLink _ _ _  ?_ | refine kHostWr _ _ _  ?_
    | (extract_lets -underBinder +onlyGivenNames x; refine keeps_fact (P := P) (v := x) ?_ ?_; rotate_left; clear_value x; revert x; intro _ _; rotate_left; unfold x; clear x)
    | (extract_lets -underBinder +onlyGivenNames x; clear_value x; revert x; intro _)
    | intro _
    | split

theorem execHeartbeat_keeps (A : Allows P m) (h : m &&& 4352 = 4352) :
    ∀ s, P s → ∀ t, execHeartbeat s = .next t → P t := by
  have A := A.mono h
  clear h
  have kBeat := beat_keeps A rfl
  intro s  hs
  intro t e
  cases e
  repeat' first
    | with_reducible first
        | assumption | refine kBeat _ _  ?_ | refine each_keeps _ _ (fun _ _ _ => ?_) _ ?_
        | refine foldl_keeps _ _ (fun _ _ _ => ?_) _ ?_
    | (extract_lets -underBinder +onlyGivenNames x; refine keeps_fact (P := P) (v := x) ?_ ?_; rotate_left; clear_value x; revert x; intro _ _; rotate_left; unfold x; clear x)
    | (extract_lets -underBinder +onlyGivenNames x; refine keeps_fact2 (P := P) (v := x) ?_ ?_; rotate_left; clear_value x; revert x; intro _ _; rotate_left; unfold x; clear x)
    | (extract_lets -underBinder +onlyGivenNames x; have h := fun a => x a; clear h; unfold x; clear x)
    | (extract_lets -underBinder +onlyGivenNames x; clear_value x; revert x; intro _)
    | intro _
    | split
    | with_reducible first | refine keeps_pair (by with_reducible assumption) ?_ | refine keeps_triple (by with_reducible assumption) ?_ | refine keeps_pairL (by with_reducible assumption) ?_

theorem execPollRead_keeps (A : Allows P m) (h : m &&& 4352 = 4352) :
    ∀ x0 x1 x2 x3 s, P s → ∀ t, execPollRead x0 x1 x2 x3 s = .next t → P t := by
  have A := A.mono h
  clear h
  have kPollRead := pollRead_keeps A rfl
  intro x0 x1 x2 x3 s  hs
  intro t e
  cases e
  repeat' first
    | with_reducible first
        | assumption | refine kPollRead _ _ _ _ _  ?_
    | (extract_lets -underBinder +onlyGivenNames x; refine keeps_fact (P := P) (v := x) ?_ ?_; rotate_left; clear_value x; revert x; intro _ _; rotate_left; unfold x; clear x)
    | (extract_lets -underBinder +onlyGivenNames x; clear_value x; revert x; intro _)
    | intro _
    | split
    | with_reducible first | refine keeps_pair (by with_reducible assumption) ?_ | refine keeps_triple (by with_reducible assumption) ?_ | refine keeps_pairL (by with_reducible assumption) ?_

theorem execPollData_keeps (A : Allows P m) (h : m &&& 10355751200 = 10355751200) :
    ∀ x0 x1 x2 s, P s → ∀ t, execPollData x0 x1 x2 s = .next t → P t := by
  have A := A.mono h
  clear h
  have kPollData := pollData_keeps A rfl
  intro x0 x1 x2 s  hs
  intro t e
  cases e
  repeat' first
    | with_reducible first
        | assumption | refine kPollData _ _ _ _  ?_
    | (extract_lets -underBinder +onlyGivenNames x; refine keeps_fact (P := P) (v := x) ?_ ?_; rotate_left; clear_value x; revert x; intro _ _; rotate_left; unfold x; clear x)
    | (extract_lets -underBinder +onlyGivenNames x; clear_value x; revert x; intro _)
    | intro _
    | split
    | with_reducible first | refine keeps_pair (by with_reducible assumption) ?_ | refine keeps_triple (by with_reducible assumption) ?_ | refine keeps_pairL (by with_reducible assumption) ?_

theorem execPoolEntryRead_keeps (A : Allows P m) (h : m &&& 4352 = 4352) :
    ∀ x0 s, P s → ∀ t, execPoolEntryRead x0 s = .next t → P t := by
  have A := A.mono h
  clear h
  have kPoolEntryRead := poolEntryRead_keeps A rfl
  intro x0 s  hs
  intro t e
  cases e
  repeat' first
    | with_reducible first
        | assumption | refine kPoolEntryRead _ _  ?_
    | (extract_lets -underBinder +onlyGivenNames x; refine keeps_fact (P := P) (v := x) ?_ ?_; rotate_left; clear_value x; revert x; intro _ _; rotate_left; unfold x; clear x)
    | (extract_lets -underBinder +onlyGivenNames x; clear_value x; revert x; intro _)
    | intro _
    | split
    | with_reducible first | refine keeps_pair (by with_reducible assumption) ?_ | refine keeps_triple (by with_reducible assumption) ?_ | refine keeps_pairL (by with_reducible assumption) ?_

theorem execEventProducerWrite_keeps (A : Allows P m) (h : m &&& 4352 = 4352) :
    ∀ x0 s, P s → ∀ t, execEventProducerWrite x0 s = .next t → P t := by
  have A := A.mono h
  clear h
  have kPublishEvent := publishEvent_keeps A rfl
  intro x0 s  hs
  intro t e
  cases e
  repeat' first
    | with_reducible first
        | assumption | refine kPublishEvent _ _  ?_
    | (extract_lets -underBinder +onlyGivenNames x; refine keeps_fact (P := P) (v := x) ?_ ?_; rotate_left; clear_value x; revert x; intro _ _; rotate_left; unfold x; clear x)
    | (extract_lets -underBinder +onlyGivenNames x; clear_value x; revert x; intro _)
    | intro _
    | split
    | with_reducible first | refine keeps_pair (by with_reducible assumption) ?_ | refine keeps_triple (by with_reducible assumption) ?_ | refine keeps_pairL (by with_reducible assumption) ?_

theorem execMsixMessage_keeps (A : Allows P m) (h : m &&& 4096 = 4096) :
    ∀ x0 x1 x2 s, P s → ∀ t, execMsixMessage x0 x1 x2 s = .next t → P t := by
  have A := A.mono h
  clear h
  have kMsixMessage := msixMessage_keeps A rfl
  intro x0 x1 x2 s  hs
  intro t e
  cases e
  repeat' first
    | with_reducible first
        | assumption | refine kMsixMessage _ _ _ _  ?_
    | (extract_lets -underBinder +onlyGivenNames x; refine keeps_fact (P := P) (v := x) ?_ ?_; rotate_left; clear_value x; revert x; intro _ _; rotate_left; unfold x; clear x)
    | (extract_lets -underBinder +onlyGivenNames x; clear_value x; revert x; intro _)
    | intro _
    | split
    | with_reducible first | refine keeps_pair (by with_reducible assumption) ?_ | refine keeps_triple (by with_reducible assumption) ?_ | refine keeps_pairL (by with_reducible assumption) ?_

theorem execPuntBufferGrant_keeps (A : Allows P m) (h : m &&& 10355751200 = 10355751200) :
    ∀ x0 s, P s → ∀ t, execPuntBufferGrant x0 s = .next t → P t := by
  have A := A.mono h
  clear h
  have kPuntBufferGrant := puntBufferGrant_keeps A rfl
  intro x0 s  hs
  intro t e
  cases e
  repeat' first
    | with_reducible first
        | assumption | refine kPuntBufferGrant _ _  ?_
    | (extract_lets -underBinder +onlyGivenNames x; refine keeps_fact (P := P) (v := x) ?_ ?_; rotate_left; clear_value x; revert x; intro _ _; rotate_left; unfold x; clear x)
    | (extract_lets -underBinder +onlyGivenNames x; clear_value x; revert x; intro _)
    | intro _
    | split
    | with_reducible first | refine keeps_pair (by with_reducible assumption) ?_ | refine keeps_triple (by with_reducible assumption) ?_ | refine keeps_pairL (by with_reducible assumption) ?_

theorem execPuntPoolTimeout_keeps (A : Allows P m) (h : m &&& 10355751200 = 10355751200) :
    ∀ x0 s, P s → ∀ t, execPuntPoolTimeout x0 s = .next t → P t := by
  have A := A.mono h
  clear h
  have kPuntPoolTimeout := puntPoolTimeout_keeps A rfl
  intro x0 s  hs
  intro t e
  cases e
  repeat' first
    | with_reducible first
        | assumption | refine kPuntPoolTimeout _ _  ?_
    | (extract_lets -underBinder +onlyGivenNames x; refine keeps_fact (P := P) (v := x) ?_ ?_; rotate_left; clear_value x; revert x; intro _ _; rotate_left; unfold x; clear x)
    | (extract_lets -underBinder +onlyGivenNames x; clear_value x; revert x; intro _)
    | intro _
    | split
    | with_reducible first | refine keeps_pair (by with_reducible assumption) ?_ | refine keeps_triple (by with_reducible assumption) ?_ | refine keeps_pairL (by with_reducible assumption) ?_

end Sys2Proof.Laws
end

