-- ==== Sys2Proof/Laws/Fate.lean ====
section
/-! SUPPORT. What each operation of Machine/Fate.lean can change (Laws/Keeps.lean). -/

namespace Sys2Proof.Laws

open Sys2Proof.Machine

variable {P : State → Prop} {m : Nat}

theorem queueFrame_keeps (A : Allows P m) (h : m &&& 10347362592 = 10347362592) :
    ∀ x0 x1 x2 x3 x4 x5 s, P s → P (queueFrame x0 x1 x2 x3 x4 x5 s) := by
  have A := A.mono h
  clear h
  have kModPkt := modPkt_keeps A rfl
  have kJoinVoq := joinVoq_keeps A rfl
  intro x0 x1 x2 x3 x4 x5 s  hs
  unfold queueFrame
  repeat' first
    | with_reducible first
        | assumption | refine kModPkt _ _ _  ?_ | refine kJoinVoq _ _ _ _  ?_
        | refine each_keeps _ _ (fun _ _ _ => ?_) _ ?_
    | (extract_lets -underBinder +onlyGivenNames x; refine keeps_fact (P := P) (v := x) ?_ ?_; rotate_left; clear_value x; revert x; intro _ _; rotate_left; unfold x; clear x)
    | (extract_lets -underBinder +onlyGivenNames x; clear_value x; revert x; intro _)
    | intro _

theorem puntPkt_keeps (A : Allows P m) (h : m &&& 10356177184 = 10356177184) :
    ∀ x0 x1 x2 s, P s → P (puntPkt x0 x1 x2 s) := by
  have A := A.mono h
  clear h
  have kCntInc := cntInc_keeps A rfl
  have kPuntRequest := puntRequest_keeps A rfl
  have kForgetPasses := forgetPasses_keeps A rfl
  have kLeaveEpoch := leaveEpoch_keeps A rfl
  intro x0 x1 x2 s  hs
  unfold puntPkt
  repeat' first
    | with_reducible first
        | assumption | refine kCntInc _ _ _ _  ?_ | refine kPuntRequest _ _  ?_ | refine kForgetPasses _ _  ?_
        | refine kLeaveEpoch _ _  ?_
    | (extract_lets -underBinder +onlyGivenNames x; refine keeps_fact (P := P) (v := x) ?_ ?_; rotate_left; clear_value x; revert x; intro _ _; rotate_left; unfold x; clear x)
    | (extract_lets -underBinder +onlyGivenNames x; clear_value x; revert x; intro _)
    | split
    | with_reducible first | refine keeps_pair (by with_reducible assumption) ?_ | refine keeps_triple (by with_reducible assumption) ?_ | refine keeps_pairL (by with_reducible assumption) ?_

theorem dropFrame_keeps (A : Allows P m) (h : m &&& 10356177184 = 10356177184) :
    ∀ x0 x1 s, P s → P (dropFrame x0 x1 s) := by
  have A := A.mono h
  clear h
  have kEndPkt := endPkt_keeps A rfl
  have kCntInc := cntInc_keeps A rfl
  intro x0 x1 s  hs
  unfold dropFrame
  repeat' first
    | with_reducible first
        | assumption | refine kEndPkt _ _  ?_ | refine kCntInc _ _ _ _  ?_
    | split
    | with_reducible first | refine keeps_pair (by with_reducible assumption) ?_ | refine keeps_triple (by with_reducible assumption) ?_ | refine keeps_pairL (by with_reducible assumption) ?_

theorem sendFate_keeps (A : Allows P m) (h : m &&& 10364565792 = 10364565792) :
    ∀ x0 x1 x2 s, P s → P (sendFate x0 x1 x2 s) := by
  have A := A.mono h
  clear h
  have kModPkt := modPkt_keeps A rfl
  have kCntAdd := cntAdd_keeps A rfl
  have kEndPkt := endPkt_keeps A rfl
  have kQueueFrame := queueFrame_keeps A rfl
  have kDropFrame := dropFrame_keeps A rfl
  have kPuntPkt := puntPkt_keeps A rfl
  intro x0 x1 x2 s  hs
  unfold sendFate
  repeat' first
    | with_reducible first
        | assumption | refine kModPkt _ _ _  ?_ | refine kCntAdd _ _ _ _ _  ?_ | refine kEndPkt _ _  ?_
        | refine kQueueFrame _ _ _ _ _ _ _  ?_ | refine kDropFrame _ _ _  ?_ | refine kPuntPkt _ _ _ _  ?_
    | (extract_lets -underBinder +onlyGivenNames x; refine keeps_fact (P := P) (v := x) ?_ ?_; rotate_left; clear_value x; revert x; intro _ _; rotate_left; unfold x; clear x)
    | (extract_lets -underBinder +onlyGivenNames x; clear_value x; revert x; intro _)
    | intro _
    | split
    | with_reducible first | refine keeps_pair (by with_reducible assumption) ?_ | refine keeps_triple (by with_reducible assumption) ?_ | refine keeps_pairL (by with_reducible assumption) ?_

end Sys2Proof.Laws
end

