-- ==== Sys2Proof/Laws/FlowBase.lean ====
section
/-! SUPPORT. What each operation of Machine/FlowBase.lean can change (Laws/Keeps.lean). -/

namespace Sys2Proof.Laws

open Sys2Proof.Machine

variable {P : State → Prop} {m : Nat}

theorem setRec_keeps (A : Allows P m) (h : m &&& 1024 = 1024) :
    ∀ x0 x1 x2 x3 s, P s → P (setRec x0 x1 x2 x3 s) := by
  intro r off n v s hs
  exact (A.mono h).memBytes rfl _ _ s hs

theorem takeNo_keeps (A : Allows P m) (h : m &&& 131072 = 131072) :
    ∀ x0 s, P s → P (takeNo x0 s) := by
  have A := A.mono h
  clear h
  have kModHalf := modHalf_keeps A rfl
  intro x0 s  hs
  unfold takeNo
  repeat' first
    | with_reducible first
        | assumption | refine kModHalf _ _ _  ?_
    | intro _
    | split
    | with_reducible first | refine keeps_pair (by with_reducible assumption) ?_ | refine keeps_triple (by with_reducible assumption) ?_ | refine keeps_pairL (by with_reducible assumption) ?_

theorem returnNo_keeps (A : Allows P m) (h : m &&& 131072 = 131072) :
    ∀ x0 s, P s → P (returnNo x0 s) := by
  have A := A.mono h
  clear h
  have kModHalf := modHalf_keeps A rfl
  intro x0 s  hs
  unfold returnNo
  repeat' first
    | with_reducible first
        | assumption | refine kModHalf _ _ _  ?_
    | intro _

theorem fleCnt_keeps (A : Allows P m) (h : m &&& 2048 = 2048) :
    ∀ x0 x1 s, P s → P (fleCnt x0 x1 s) := by
  have A := A.mono h
  clear h
  have kCntInc := cntInc_keeps A rfl
  intro x0 x1 s  hs
  unfold fleCnt
  repeat' first
    | with_reducible first
        | assumption | refine kCntInc _ _ _ _  ?_

theorem putIdx_keeps (A : Allows P m) (h : m &&& 1024 = 1024) :
    ∀ x0 x1 s, P s → P (putIdx x0 x1 s) := by
  intro a v s hs
  exact (A.mono h).memBytes rfl _ _ s hs

theorem clearIdx_keeps (A : Allows P m) (h : m &&& 1024 = 1024) :
    ∀ x0 x1 x2 s, P s → P (clearIdx x0 x1 x2 s) := by
  have A := A.mono h
  clear h
  have kPutIdx := putIdx_keeps A rfl
  intro x0 x1 x2 s  hs
  unfold clearIdx
  repeat' first
    | with_reducible first
        | assumption | refine kPutIdx _ _ _  ?_ | refine each_keeps _ _ (fun _ _ _ => ?_) _ ?_
    | (extract_lets -underBinder +onlyGivenNames x; refine keeps_fact (P := P) (v := x) ?_ ?_; rotate_left; clear_value x; revert x; intro _ _; rotate_left; unfold x; clear x)
    | (extract_lets -underBinder +onlyGivenNames x; clear_value x; revert x; intro _)
    | intro _

theorem modHot_keeps (A : Allows P m) (h : m &&& 131072 = 131072) :
    ∀ x0 x1 x2 s, P s → P (modHot x0 x1 x2 s) := by
  have A := A.mono h
  clear h
  have kModSlice := modSlice_keeps A rfl
  intro x0 x1 x2 s  hs
  unfold modHot
  repeat' first
    | with_reducible first
        | assumption | refine kModSlice _ _ _  ?_
    | intro _
    | split

theorem dropHot_keeps (A : Allows P m) (h : m &&& 131072 = 131072) :
    ∀ x0 x1 s, P s → P (dropHot x0 x1 s) := by
  have A := A.mono h
  clear h
  have kModSlice := modSlice_keeps A rfl
  intro x0 x1 s  hs
  unfold dropHot
  repeat' first
    | with_reducible first
        | assumption | refine kModSlice _ _ _  ?_
    | intro _

theorem touchHot_keeps (A : Allows P m) (h : m &&& 131072 = 131072) :
    ∀ x0 x1 s, P s → P (touchHot x0 x1 s) := by
  have A := A.mono h
  clear h
  have kModHot := modHot_keeps A rfl
  have kModSlice := modSlice_keeps A rfl
  intro x0 x1 s  hs
  unfold touchHot
  repeat' first
    | with_reducible first
        | assumption | refine kModHot _ _ _ _  ?_ | refine kModSlice _ _ _  ?_
    | (extract_lets -underBinder +onlyGivenNames x; refine keeps_fact (P := P) (v := x) ?_ ?_; rotate_left; clear_value x; revert x; intro _ _; rotate_left; unfold x; clear x)
    | (extract_lets -underBinder +onlyGivenNames x; clear_value x; revert x; intro _)
    | intro _

theorem writeBack_keeps (A : Allows P m) (h : m &&& 134144 = 134144) :
    ∀ x0 x1 s, P s → P (writeBack x0 x1 s) := by
  have A := A.mono h
  clear h
  have kSetRec := setRec_keeps A rfl
  have kModHot := modHot_keeps A rfl
  have kFleCnt := fleCnt_keeps A rfl
  intro x0 x1 s  hs
  unfold writeBack
  repeat' first
    | with_reducible first
        | assumption | refine kSetRec _ _ _ _ _  ?_ | refine kModHot _ _ _ _  ?_ | refine kFleCnt _ _ _  ?_
    | (extract_lets -underBinder +onlyGivenNames x; refine keeps_fact (P := P) (v := x) ?_ ?_; rotate_left; clear_value x; revert x; intro _ _; rotate_left; unfold x; clear x)
    | (extract_lets -underBinder +onlyGivenNames x; have h := fun a => x a; clear h; unfold x; clear x)
    | (extract_lets -underBinder +onlyGivenNames x; clear_value x; revert x; intro _)
    | intro _
    | split
    | with_reducible first | refine keeps_pair (by with_reducible assumption) ?_ | refine keeps_triple (by with_reducible assumption) ?_ | refine keeps_pairL (by with_reducible assumption) ?_

theorem hotRoom_keeps (A : Allows P m) (h : m &&& 134144 = 134144) :
    ∀ x0 x1 s, P s → P (hotRoom x0 x1 s).2 := by
  have A := A.mono h
  clear h
  have kFleCnt := fleCnt_keeps A rfl
  have kModHot := modHot_keeps A rfl
  have kWriteBack := writeBack_keeps A rfl
  have kDropHot := dropHot_keeps A rfl
  intro x0 x1 s  hs
  unfold hotRoom
  repeat' first
    | with_reducible first
        | assumption | refine kFleCnt _ _ _  ?_ | refine kModHot _ _ _ _  ?_ | refine kWriteBack _ _ _  ?_
        | refine kDropHot _ _ _  ?_ | refine foldl_keeps _ _ (fun _ _ _ => ?_) _ ?_
    | (extract_lets -underBinder +onlyGivenNames x; refine keeps_fact (P := P) (v := x) ?_ ?_; rotate_left; clear_value x; revert x; intro _ _; rotate_left; unfold x; clear x)
    | (extract_lets -underBinder +onlyGivenNames x; clear_value x; revert x; intro _)
    | intro _
    | split
    | with_reducible first | refine keeps_pair (by with_reducible assumption) ?_ | refine keeps_triple (by with_reducible assumption) ?_ | refine keeps_pairL (by with_reducible assumption) ?_

theorem putHot_keeps (A : Allows P m) (h : m &&& 131072 = 131072) :
    ∀ x0 x1 s, P s → P (putHot x0 x1 s) := by
  have A := A.mono h
  clear h
  have kModSlice := modSlice_keeps A rfl
  intro x0 x1 s  hs
  unfold putHot
  repeat' first
    | with_reducible first
        | assumption | refine kModSlice _ _ _  ?_
    | (extract_lets -underBinder +onlyGivenNames x; refine keeps_fact (P := P) (v := x) ?_ ?_; rotate_left; clear_value x; revert x; intro _ _; rotate_left; unfold x; clear x)
    | (extract_lets -underBinder +onlyGivenNames x; clear_value x; revert x; intro _)
    | intro _

theorem makeHot_keeps (A : Allows P m) (h : m &&& 134144 = 134144) :
    ∀ x0 x1 x2 s, P s → P (makeHot x0 x1 x2 s).2 := by
  have A := A.mono h
  clear h
  have kTouchHot := touchHot_keeps A rfl
  have kHotRoom := hotRoom_keeps A rfl
  have kPutHot := putHot_keeps A rfl
  intro x0 x1 x2 s  hs
  unfold makeHot
  repeat' first
    | with_reducible first
        | assumption | refine kTouchHot _ _ _  ?_ | refine kHotRoom _ _ _  ?_ | refine kPutHot _ _ _  ?_
    | (extract_lets -underBinder +onlyGivenNames x; refine keeps_fact (P := P) (v := x) ?_ ?_; rotate_left; clear_value x; revert x; intro _ _; rotate_left; unfold x; clear x)
    | (extract_lets -underBinder +onlyGivenNames x; clear_value x; revert x; intro _)
    | split
    | with_reducible first | refine keeps_pair (by with_reducible assumption) ?_ | refine keeps_triple (by with_reducible assumption) ?_ | refine keeps_pairL (by with_reducible assumption) ?_

theorem syncHot_keeps (A : Allows P m) (h : m &&& 131072 = 131072) :
    ∀ x0 s, P s → P (syncHot x0 s) := by
  have A := A.mono h
  clear h
  have kModHot := modHot_keeps A rfl
  intro x0 s  hs
  unfold syncHot
  repeat' first
    | with_reducible first
        | assumption | refine kModHot _ _ _ _  ?_
    | intro _
    | split

theorem answerInvalid_keeps (A : Allows P m) (h : m &&& 131072 = 131072) :
    ∀ x0 x1 x2 x3 s, P s → P (answerInvalid x0 x1 x2 x3 s) := by
  have A := A.mono h
  clear h
  have kSendChan := sendChan_keeps A rfl
  intro x0 x1 x2 x3 s  hs
  unfold answerInvalid
  repeat' first
    | with_reducible first
        | assumption | refine kSendChan _ _ _ _  ?_

theorem answerCode_keeps (A : Allows P m) (h : m &&& 133120 = 133120) :
    ∀ x0 x1 x2 s, P s → P (answerCode x0 x1 x2 s) := by
  have A := A.mono h
  clear h
  have kFleCnt := fleCnt_keeps A rfl
  have kSendChan := sendChan_keeps A rfl
  intro x0 x1 x2 s  hs
  unfold answerCode
  repeat' first
    | with_reducible first
        | assumption | refine kFleCnt _ _ _  ?_ | refine kSendChan _ _ _ _  ?_
    | (extract_lets -underBinder +onlyGivenNames x; refine keeps_fact (P := P) (v := x) ?_ ?_; rotate_left; clear_value x; revert x; intro _ _; rotate_left; unfold x; clear x)
    | (extract_lets -underBinder +onlyGivenNames x; clear_value x; revert x; intro _)
    | split

theorem answerRec_keeps (A : Allows P m) (h : m &&& 133120 = 133120) :
    ∀ x0 x1 x2 s, P s → P (answerRec x0 x1 x2 s) := by
  have A := A.mono h
  clear h
  have kSendChan := sendChan_keeps A rfl
  have kAnswerCode := answerCode_keeps A rfl
  intro x0 x1 x2 s  hs
  unfold answerRec
  repeat' first
    | with_reducible first
        | assumption | refine kSendChan _ _ _ _  ?_ | refine kAnswerCode _ _ _ _  ?_
    | split

theorem removeNew_keeps (A : Allows P m) (h : m &&& 134144 = 134144) :
    ∀ x0 x1 x2 s, P s → P (removeNew x0 x1 x2 s) := by
  have A := A.mono h
  clear h
  have kReturnNo := returnNo_keeps A rfl
  have kClearIdx := clearIdx_keeps A rfl
  have kDropHot := dropHot_keeps A rfl
  have kAnswerCode := answerCode_keeps A rfl
  intro x0 x1 x2 s  hs
  unfold removeNew
  repeat' first
    | with_reducible first
        | assumption | refine kReturnNo _ _  ?_ | refine kClearIdx _ _ _ _  ?_ | refine kDropHot _ _ _  ?_
        | refine kAnswerCode _ _ _ _  ?_ | refine each_keeps _ _ (fun _ _ _ => ?_) _ ?_
    | (extract_lets -underBinder +onlyGivenNames x; refine keeps_fact (P := P) (v := x) ?_ ?_; rotate_left; clear_value x; revert x; intro _ _; rotate_left; unfold x; clear x)
    | (extract_lets -underBinder +onlyGivenNames x; clear_value x; revert x; intro _)
    | split
    | with_reducible first | refine keeps_pair (by with_reducible assumption) ?_ | refine keeps_triple (by with_reducible assumption) ?_ | refine keeps_pairL (by with_reducible assumption) ?_

theorem queueWrite_keeps (A : Allows P m) (h : m &&& 131072 = 131072) :
    ∀ x0 x1 s, P s → P (queueWrite x0 x1 s) := by
  have A := A.mono h
  clear h
  have kModSlice := modSlice_keeps A rfl
  intro x0 x1 s  hs
  unfold queueWrite
  repeat' first
    | with_reducible first
        | assumption | refine kModSlice _ _ _  ?_
    | intro _

theorem bump_keeps (A : Allows P m) (h : m &&& 132096 = 132096) :
    ∀ x0 x1 x2 x3 s, P s → P (bump x0 x1 x2 x3 s) := by
  have A := A.mono h
  clear h
  have kSyncHot := syncHot_keeps A rfl
  have kSetRec := setRec_keeps A rfl
  have kQueueWrite := queueWrite_keeps A rfl
  intro x0 x1 x2 x3 s  hs
  unfold bump
  repeat' first
    | with_reducible first
        | assumption | refine kSyncHot _ _  ?_ | refine kSetRec _ _ _ _ _  ?_ | refine kQueueWrite _ _ _  ?_
    | (extract_lets -underBinder +onlyGivenNames x; refine keeps_fact (P := P) (v := x) ?_ ?_; rotate_left; clear_value x; revert x; intro _ _; rotate_left; unfold x; clear x)
    | (extract_lets -underBinder +onlyGivenNames x; clear_value x; revert x; intro _)

theorem sendInval_keeps (A : Allows P m) (h : m &&& 131072 = 131072) :
    ∀ x0 x1 x2 x3 s, P s → P (sendInval x0 x1 x2 x3 s) := by
  have A := A.mono h
  clear h
  have kSendChan := sendChan_keeps A rfl
  intro x0 x1 x2 x3 s  hs
  unfold sendInval
  repeat' first
    | with_reducible first
        | assumption | refine kSendChan _ _ _ _  ?_ | refine each_keeps _ _ (fun _ _ _ => ?_) _ ?_
    | (extract_lets -underBinder +onlyGivenNames x; refine keeps_fact (P := P) (v := x) ?_ ?_; rotate_left; clear_value x; revert x; intro _ _; rotate_left; unfold x; clear x)
    | (extract_lets -underBinder +onlyGivenNames x; clear_value x; revert x; intro _)
    | intro _

theorem retryRebinds_keeps (A : Allows P m) (h : m &&& 133120 = 133120) :
    ∀ x0 x1 s, P s → P (retryRebinds x0 x1 s) := by
  have A := A.mono h
  clear h
  have kAnswerCode := answerCode_keeps A rfl
  have kModSlice := modSlice_keeps A rfl
  intro x0 x1 s  hs
  unfold retryRebinds
  repeat' first
    | with_reducible first
        | assumption | refine kAnswerCode _ _ _ _  ?_ | refine kModSlice _ _ _  ?_
        | refine each_keeps _ _ (fun _ _ _ => ?_) _ ?_
    | (extract_lets -underBinder +onlyGivenNames x; refine keeps_fact (P := P) (v := x) ?_ ?_; rotate_left; clear_value x; revert x; intro _ _; rotate_left; unfold x; clear x)
    | (extract_lets -underBinder +onlyGivenNames x; clear_value x; revert x; intro _)
    | intro _

theorem setBlock_keeps (A : Allows P m) (h : m &&& 512 = 512) :
    ∀ x0 x1 x2 x3 s, P s → P (setBlock x0 x1 x2 x3 s) := by
  have A := A.mono h
  clear h
  have kTPut := tPut_keeps A rfl
  intro x0 x1 x2 x3 s  hs
  unfold setBlock
  repeat' first
    | with_reducible first
        | assumption | refine kTPut _ _ _ _ _  ?_
    | (extract_lets -underBinder +onlyGivenNames x; refine keeps_fact (P := P) (v := x) ?_ ?_; rotate_left; clear_value x; revert x; intro _ _; rotate_left; unfold x; clear x)
    | (extract_lets -underBinder +onlyGivenNames x; clear_value x; revert x; intro _)
    | intro _
    | split
    | with_reducible first | refine keeps_pair (by with_reducible assumption) ?_ | refine keeps_triple (by with_reducible assumption) ?_ | refine keeps_pairL (by with_reducible assumption) ?_

theorem natBlockAlloc_keeps (A : Allows P m) (h : m &&& 10334903072 = 10334903072) :
    ∀ x0 x1 x2 s, P s → P (natBlockAlloc x0 x1 x2 s).2 := by
  have A := A.mono h
  clear h
  have kSetBlock := setBlock_keeps A rfl
  have kRaise := raise_keeps A rfl
  intro x0 x1 x2 s  hs
  unfold natBlockAlloc
  repeat' first
    | with_reducible first
        | assumption | refine kSetBlock _ _ _ _ _  ?_ | refine kRaise _ _ _ _ _ _ _  ?_
    | (extract_lets -underBinder +onlyGivenNames x; refine keeps_fact (P := P) (v := x) ?_ ?_; rotate_left; clear_value x; revert x; intro _ _; rotate_left; unfold x; clear x)
    | (extract_lets -underBinder +onlyGivenNames x; have h := fun a => x a; clear h; unfold x; clear x)
    | (extract_lets -underBinder +onlyGivenNames x; clear_value x; revert x; intro _)
    | split
    | with_reducible first | refine keeps_pair (by with_reducible assumption) ?_ | refine keeps_triple (by with_reducible assumption) ?_ | refine keeps_pairL (by with_reducible assumption) ?_ | refine A.flow rfl _ _ ?_

theorem exportLost_keeps (A : Allows P m) (h : m &&& 10334771488 = 10334771488) :
    ∀ x0 x1 x2 s, P s → P (exportLost x0 x1 x2 s) := by
  have A := A.mono h
  clear h
  have kModRing := modRing_keeps A rfl
  have kRaise := raise_keeps A rfl
  have kFleCnt := fleCnt_keeps A rfl
  intro x0 x1 x2 s  hs
  unfold exportLost
  repeat' first
    | with_reducible first
        | assumption | refine kModRing _ _ _  ?_ | refine kRaise _ _ _ _ _ _ _  ?_ | refine kFleCnt _ _ _  ?_
    | (extract_lets -underBinder +onlyGivenNames x; refine keeps_fact (P := P) (v := x) ?_ ?_; rotate_left; clear_value x; revert x; intro _ _; rotate_left; unfold x; clear x)
    | (extract_lets -underBinder +onlyGivenNames x; clear_value x; revert x; intro _)
    | intro _

theorem offerExport_keeps (A : Allows P m) (h : m &&& 10334902560 = 10334902560) :
    ∀ x0 x1 x2 x3 x4 x5 s, P s → P (offerExport x0 x1 x2 x3 x4 x5 s) := by
  have A := A.mono h
  clear h
  have kModRing := modRing_keeps A rfl
  have kCntInc := cntInc_keeps A rfl
  have kExportLost := exportLost_keeps A rfl
  have kModSlice := modSlice_keeps A rfl
  intro x0 x1 x2 x3 x4 x5 s  hs
  unfold offerExport
  repeat' first
    | with_reducible first
        | assumption | refine kModRing _ _ _  ?_ | refine kCntInc _ _ _ _  ?_ | refine kExportLost _ _ _ _  ?_
        | refine kModSlice _ _ _  ?_
    | (extract_lets -underBinder +onlyGivenNames x; refine keeps_fact (P := P) (v := x) ?_ ?_; rotate_left; clear_value x; revert x; intro _ _; rotate_left; unfold x; clear x)
    | (extract_lets -underBinder +onlyGivenNames x; clear_value x; revert x; intro _)
    | intro _
    | split
    | with_reducible first | refine keeps_pair (by with_reducible assumption) ?_ | refine keeps_triple (by with_reducible assumption) ?_ | refine keeps_pairL (by with_reducible assumption) ?_

theorem writeExport_keeps (A : Allows P m) (h : m &&& 138496 = 138496) :
    ∀ x0 s, P s → P (writeExport x0 s) := by
  have A := A.mono h
  clear h
  have kModRing := modRing_keeps A rfl
  have kPublish := publish_keeps A rfl
  have kWriteDesc := writeDesc_keeps A rfl
  have kSetRec := setRec_keeps A rfl
  have kCntInc := cntInc_keeps A rfl
  intro x0 s  hs
  unfold writeExport
  repeat' first
    | with_reducible first
        | assumption | refine kModRing _ _ _  ?_ | refine kPublish _ _ _  ?_ | refine kWriteDesc _ _ _  ?_
        | refine kSetRec _ _ _ _ _  ?_ | refine kCntInc _ _ _ _  ?_
    | (extract_lets -underBinder +onlyGivenNames x; refine keeps_fact (P := P) (v := x) ?_ ?_; rotate_left; clear_value x; revert x; intro _ _; rotate_left; unfold x; clear x)
    | (extract_lets -underBinder +onlyGivenNames x; clear_value x; revert x; intro _)
    | intro _
    | split
    | with_reducible first | refine keeps_pair (by with_reducible assumption) ?_ | refine keeps_triple (by with_reducible assumption) ?_ | refine keeps_pairL (by with_reducible assumption) ?_ | refine A.flow rfl _ _ ?_

theorem exportNow_keeps (A : Allows P m) (h : m &&& 138496 = 138496) :
    ∀ x0 s, P s → P (exportNow x0 s) := by
  have A := A.mono h
  clear h
  have kWriteExport := writeExport_keeps A rfl
  have kModSlice := modSlice_keeps A rfl
  intro x0 s  hs
  unfold exportNow
  repeat' first
    | with_reducible first
        | assumption | refine kWriteExport _ _  ?_ | refine kModSlice _ _ _  ?_
    | intro _
    | split
    | with_reducible first | refine keeps_pair (by with_reducible assumption) ?_ | refine keeps_triple (by with_reducible assumption) ?_ | refine keeps_pairL (by with_reducible assumption) ?_

theorem setEnd_keeps (A : Allows P m) (h : m &&& 131072 = 131072) :
    ∀ x0 x1 s, P s → P (setEnd x0 x1 s) := by
  have A := A.mono h
  clear h
  intro x0 x1 s  hs
  unfold setEnd
  repeat' first
    | with_reducible first
        | assumption
    | with_reducible first | refine A.flow rfl _ _ ?_

end Sys2Proof.Laws
end

