-- ==== Sys2Proof/Laws/Tasks.lean ====
section
/-! SUPPORT. What each operation of Machine/Tasks.lean can change (Laws/Keeps.lean). -/

namespace Sys2Proof.Laws

open Sys2Proof.Machine

variable {P : State → Prop} {m : Nat}

theorem tskCnt_keeps (A : Allows P m) (h : m &&& 2048 = 2048) :
    ∀ x0 x1 s, P s → P (tskCnt x0 x1 s) := by
  have A := A.mono h
  clear h
  have kCntInc := cntInc_keeps A rfl
  intro x0 x1 s  hs
  unfold tskCnt
  repeat' first
    | with_reducible first
        | assumption | refine kCntInc _ _ _ _  ?_

theorem noteClass_keeps (A : Allows P m) (h : m &&& 2048 = 2048) :
    ∀ x0 x1 s, P s → P (noteClass x0 x1 s) := by
  have A := A.mono h
  clear h
  have kCntSet := cntSet_keeps A rfl
  intro x0 x1 s  hs
  unfold noteClass
  repeat' first
    | with_reducible first
        | assumption | refine kCntSet _ _ _ _ _  ?_
    | (extract_lets -underBinder +onlyGivenNames x; refine keeps_fact (P := P) (v := x) ?_ ?_; rotate_left; clear_value x; revert x; intro _ _; rotate_left; unfold x; clear x)
    | (extract_lets -underBinder +onlyGivenNames x; clear_value x; revert x; intro _)
    | split

theorem checkServed_keeps (A : Allows P m) (h : m &&& 10336868640 = 10336868640) :
    ∀ x0 s, P s → P (checkServed x0 s) := by
  have A := A.mono h
  clear h
  have kModTsk := modTsk_keeps A rfl
  have kRaise := raise_keeps A rfl
  intro x0 s  hs
  unfold checkServed
  repeat' first
    | with_reducible first
        | assumption | refine kModTsk _ _  ?_ | refine kRaise _ _ _ _ _ _ _  ?_
        | refine each_keeps _ _ (fun _ _ _ => ?_) _ ?_
    | (extract_lets -underBinder +onlyGivenNames x; refine keeps_fact (P := P) (v := x) ?_ ?_; rotate_left; clear_value x; revert x; intro _ _; rotate_left; unfold x; clear x)
    | (extract_lets -underBinder +onlyGivenNames x; clear_value x; revert x; intro _)
    | intro _
    | split

theorem tryReady_keeps (A : Allows P m) (h : m &&& 2099200 = 2099200) :
    ∀ x0 x1 s, P s → P (tryReady x0 x1 s) := by
  have A := A.mono h
  clear h
  have kModTask := modTask_keeps A rfl
  have kModTsk := modTsk_keeps A rfl
  have kTskCnt := tskCnt_keeps A rfl
  intro x0 x1 s  hs
  unfold tryReady
  repeat' first
    | with_reducible first
        | assumption | refine kModTask _ _ _ _  ?_ | refine kModTsk _ _  ?_ | refine kTskCnt _ _ _  ?_
    | (extract_lets -underBinder +onlyGivenNames x; refine keeps_fact (P := P) (v := x) ?_ ?_; rotate_left; clear_value x; revert x; intro _ _; rotate_left; unfold x; clear x)
    | (extract_lets -underBinder +onlyGivenNames x; clear_value x; revert x; intro _)
    | intro _
    | split

theorem grantLock_keeps (A : Allows P m) (h : m &&& 2099200 = 2099200) :
    ∀ x0 x1 s, P s → P (grantLock x0 x1 s) := by
  have A := A.mono h
  clear h
  have kModLock := modLock_keeps A rfl
  have kTryReady := tryReady_keeps A rfl
  have kModTask := modTask_keeps A rfl
  intro x0 x1 s  hs
  unfold grantLock
  repeat' first
    | with_reducible first
        | assumption | refine kModLock _ _ _ _  ?_ | refine kTryReady _ _ _  ?_ | refine kModTask _ _ _ _  ?_
    | (extract_lets -underBinder +onlyGivenNames x; refine keeps_fact (P := P) (v := x) ?_ ?_; rotate_left; clear_value x; revert x; intro _ _; rotate_left; unfold x; clear x)
    | (extract_lets -underBinder +onlyGivenNames x; clear_value x; revert x; intro _)
    | intro _
    | split
    | with_reducible first | refine keeps_pair (by with_reducible assumption) ?_ | refine keeps_triple (by with_reducible assumption) ?_ | refine keeps_pairL (by with_reducible assumption) ?_

theorem joinLock_keeps (A : Allows P m) (h : m &&& 2099200 = 2099200) :
    ∀ x0 x1 s, P s → P (joinLock x0 x1 s) := by
  have A := A.mono h
  clear h
  have kModTask := modTask_keeps A rfl
  have kModLock := modLock_keeps A rfl
  have kGrantLock := grantLock_keeps A rfl
  have kTskCnt := tskCnt_keeps A rfl
  intro x0 x1 s  hs
  unfold joinLock
  repeat' first
    | with_reducible first
        | assumption | refine kModTask _ _ _ _  ?_ | refine kModLock _ _ _ _  ?_ | refine kGrantLock _ _ _  ?_
        | refine kTskCnt _ _ _  ?_
    | (extract_lets -underBinder +onlyGivenNames x; refine keeps_fact (P := P) (v := x) ?_ ?_; rotate_left; clear_value x; revert x; intro _ _; rotate_left; unfold x; clear x)
    | (extract_lets -underBinder +onlyGivenNames x; clear_value x; revert x; intro _)
    | intro _
    | split

theorem leaveLock_keeps (A : Allows P m) (h : m &&& 2099200 = 2099200) :
    ∀ x0 x1 s, P s → P (leaveLock x0 x1 s) := by
  have A := A.mono h
  clear h
  have kGrantLock := grantLock_keeps A rfl
  have kModLock := modLock_keeps A rfl
  intro x0 x1 s  hs
  unfold leaveLock
  repeat' first
    | with_reducible first
        | assumption | refine kGrantLock _ _ _  ?_ | refine kModLock _ _ _ _  ?_
    | (extract_lets -underBinder +onlyGivenNames x; refine keeps_fact (P := P) (v := x) ?_ ?_; rotate_left; clear_value x; revert x; intro _ _; rotate_left; unfold x; clear x)
    | (extract_lets -underBinder +onlyGivenNames x; clear_value x; revert x; intro _)
    | intro _
    | split

theorem dropTaskPkt_keeps (A : Allows P m) (h : m &&& 10356177184 = 10356177184) :
    ∀ x0 s, P s → P (dropTaskPkt x0 s) := by
  have A := A.mono h
  clear h
  have kEndPkt := endPkt_keeps A rfl
  intro x0 s  hs
  unfold dropTaskPkt
  repeat' first
    | with_reducible first
        | assumption | refine kEndPkt _ _  ?_
    | split
    | with_reducible first | refine keeps_pair (by with_reducible assumption) ?_ | refine keeps_triple (by with_reducible assumption) ?_ | refine keeps_pairL (by with_reducible assumption) ?_

theorem placeTask_keeps (A : Allows P m) (h : m &&& 10341202208 = 10341202208) :
    ∀ x0 x1 x2 x3 s, P s → P (placeTask x0 x1 x2 x3 s) := by
  have A := A.mono h
  clear h
  have kModTask := modTask_keeps A rfl
  have kTskCnt := tskCnt_keeps A rfl
  have kRetag := retag_keeps A rfl
  have kModPkt := modPkt_keeps A rfl
  have kModSlice := modSlice_keeps A rfl
  have kNoteClass := noteClass_keeps A rfl
  have kJoinLock := joinLock_keeps A rfl
  intro x0 x1 x2 x3 s  hs
  unfold placeTask
  repeat' first
    | with_reducible first
        | assumption | refine kModTask _ _ _ _  ?_ | refine kTskCnt _ _ _  ?_ | refine kRetag _ _ _  ?_
        | refine kModPkt _ _ _  ?_ | refine kModSlice _ _ _  ?_ | refine kNoteClass _ _ _  ?_
        | refine kJoinLock _ _ _  ?_
    | (extract_lets -underBinder +onlyGivenNames x; refine keeps_fact (P := P) (v := x) ?_ ?_; rotate_left; clear_value x; revert x; intro _ _; rotate_left; unfold x; clear x)
    | (extract_lets -underBinder +onlyGivenNames x; clear_value x; revert x; intro _)
    | intro _
    | split
    | with_reducible first | refine keeps_pair (by with_reducible assumption) ?_ | refine keeps_triple (by with_reducible assumption) ?_ | refine keeps_pairL (by with_reducible assumption) ?_

theorem makeTask_keeps (A : Allows P m) (h : m &&& 10341202208 = 10341202208) :
    ∀ x0 x1 s, P s → P (makeTask x0 x1 s) := by
  have A := A.mono h
  clear h
  have kPlaceTask := placeTask_keeps A rfl
  have kTskCnt := tskCnt_keeps A rfl
  have kModTsk := modTsk_keeps A rfl
  intro x0 x1 s  hs
  unfold makeTask
  repeat' first
    | with_reducible first
        | assumption | refine kPlaceTask _ _ _ _ _  ?_ | refine kTskCnt _ _ _  ?_ | refine kModTsk _ _  ?_
    | (extract_lets -underBinder +onlyGivenNames x; refine keeps_fact (P := P) (v := x) ?_ ?_; rotate_left; clear_value x; revert x; intro _ _; rotate_left; unfold x; clear x)
    | (extract_lets -underBinder +onlyGivenNames x; clear_value x; revert x; intro _)
    | intro _
    | split
    | with_reducible first | refine keeps_pair (by with_reducible assumption) ?_ | refine keeps_triple (by with_reducible assumption) ?_ | refine keeps_pairL (by with_reducible assumption) ?_

theorem takeItems_keeps (A : Allows P m) (h : m &&& 10341202208 = 10341202208) :
    ∀ x0 x1 s, P s → P (takeItems x0 x1 s) := by
  have A := A.mono h
  clear h
  have kPlaceTask := placeTask_keeps A rfl
  have kModTsk := modTsk_keeps A rfl
  intro x0 n
  induction n with
  | zero =>
    intro s hs
    unfold takeItems
    repeat' first
      | with_reducible first
          | assumption | refine kPlaceTask _ _ _ _ _  ?_ | refine kModTsk _ _  ?_
      | intro _
      | split
      | with_reducible first | refine keeps_pair (by with_reducible assumption) ?_ | refine keeps_triple (by with_reducible assumption) ?_ | refine keeps_pairL (by with_reducible assumption) ?_
  | succ n ih =>
    intro s hs
    unfold takeItems
    repeat' first
      | with_reducible first
          | assumption | refine kPlaceTask _ _ _ _ _  ?_ | refine kModTsk _ _  ?_ | refine ih _ ?_
      | intro _
      | split
      | with_reducible first | refine keeps_pair (by with_reducible assumption) ?_ | refine keeps_triple (by with_reducible assumption) ?_ | refine keeps_pairL (by with_reducible assumption) ?_

theorem clearSlot_keeps (A : Allows P m) (h : m &&& 10341202208 = 10341202208) :
    ∀ x0 x1 s, P s → P (clearSlot x0 x1 s) := by
  have A := A.mono h
  clear h
  have kRetryRebinds := retryRebinds_keeps A rfl
  have kTakeItems := takeItems_keeps A rfl
  have kModTask := modTask_keeps A rfl
  intro x0 x1 s  hs
  unfold clearSlot
  repeat' first
    | with_reducible first
        | assumption | refine kRetryRebinds _ _ _  ?_ | refine kTakeItems _ _ _  ?_ | refine kModTask _ _ _ _  ?_
    | (extract_lets -underBinder +onlyGivenNames x; refine keeps_fact (P := P) (v := x) ?_ ?_; rotate_left; clear_value x; revert x; intro _ _; rotate_left; unfold x; clear x)
    | (extract_lets -underBinder +onlyGivenNames x; clear_value x; revert x; intro _)
    | intro _
    | split

theorem emitWord_keeps (A : Allows P m) (h : m &&& 10366662944 = 10366662944) :
    ∀ x0 x1 s, P s → P (emitWord x0 x1 s) := by
  have A := A.mono h
  clear h
  have kModPkt := modPkt_keeps A rfl
  have kMakeTask := makeTask_keeps A rfl
  have kSendFate := sendFate_keeps A rfl
  have kEndPkt := endPkt_keeps A rfl
  intro x0 x1 s  hs
  unfold emitWord
  repeat' first
    | with_reducible first
        | assumption | refine kModPkt _ _ _  ?_ | refine kMakeTask _ _ _  ?_ | refine kSendFate _ _ _ _  ?_
        | refine kEndPkt _ _  ?_
    | (extract_lets -underBinder +onlyGivenNames x; refine keeps_fact (P := P) (v := x) ?_ ?_; rotate_left; clear_value x; revert x; intro _ _; rotate_left; unfold x; clear x)
    | (extract_lets -underBinder +onlyGivenNames x; clear_value x; revert x; intro _)
    | intro _
    | split
    | with_reducible first | refine keeps_pair (by with_reducible assumption) ?_ | refine keeps_triple (by with_reducible assumption) ?_ | refine keeps_pairL (by with_reducible assumption) ?_

theorem advanceEmit_keeps (A : Allows P m) (h : m &&& 10366662944 = 10366662944) :
    ∀ x0 x1 x2 s, P s → P (advanceEmit x0 x1 x2 s) := by
  have A := A.mono h
  clear h
  have kModLock := modLock_keeps A rfl
  have kClearSlot := clearSlot_keeps A rfl
  have kEmitWord := emitWord_keeps A rfl
  intro x0 x1 n
  induction n with
  | zero =>
    intro s hs
    unfold advanceEmit
    repeat' first
      | with_reducible first
          | assumption | refine kModLock _ _ _ _  ?_ | refine kClearSlot _ _ _  ?_ | refine kEmitWord _ _ _  ?_
      | (extract_lets -underBinder +onlyGivenNames x; refine keeps_fact (P := P) (v := x) ?_ ?_; rotate_left; clear_value x; revert x; intro _ _; rotate_left; unfold x; clear x)
      | (extract_lets -underBinder +onlyGivenNames x; clear_value x; revert x; intro _)
      | intro _
      | split
      | with_reducible first | refine keeps_pair (by with_reducible assumption) ?_ | refine keeps_triple (by with_reducible assumption) ?_ | refine keeps_pairL (by with_reducible assumption) ?_
  | succ n ih =>
    intro s hs
    unfold advanceEmit
    repeat' first
      | with_reducible first
          | assumption | refine kModLock _ _ _ _  ?_ | refine kClearSlot _ _ _  ?_ | refine kEmitWord _ _ _  ?_
          | refine ih _ ?_
      | (extract_lets -underBinder +onlyGivenNames x; refine keeps_fact (P := P) (v := x) ?_ ?_; rotate_left; clear_value x; revert x; intro _ _; rotate_left; unfold x; clear x)
      | (extract_lets -underBinder +onlyGivenNames x; clear_value x; revert x; intro _)
      | intro _
      | split
      | with_reducible first | refine keeps_pair (by with_reducible assumption) ?_ | refine keeps_triple (by with_reducible assumption) ?_ | refine keeps_pairL (by with_reducible assumption) ?_

theorem retireTicket_keeps (A : Allows P m) (h : m &&& 10366662944 = 10366662944) :
    ∀ x0 x1 s, P s → P (retireTicket x0 x1 s) := by
  have A := A.mono h
  clear h
  have kModTask := modTask_keeps A rfl
  have kModLock := modLock_keeps A rfl
  have kAdvanceEmit := advanceEmit_keeps A rfl
  intro x0 x1 s  hs
  unfold retireTicket
  repeat' first
    | with_reducible first
        | assumption | refine kModTask _ _ _ _  ?_ | refine kModLock _ _ _ _  ?_
        | refine kAdvanceEmit _ _ _ _  ?_
    | (extract_lets -underBinder +onlyGivenNames x; refine keeps_fact (P := P) (v := x) ?_ ?_; rotate_left; clear_value x; revert x; intro _ _; rotate_left; unfold x; clear x)
    | (extract_lets -underBinder +onlyGivenNames x; clear_value x; revert x; intro _)
    | intro _
    | split

theorem rejectNew_keeps (A : Allows P m) (h : m &&& 10339400992 = 10339400992) :
    ∀ x0 x1 x2 s, P s → P (rejectNew x0 x1 x2 s) := by
  have A := A.mono h
  clear h
  have kForgetPasses := forgetPasses_keeps A rfl
  have kLeaveEpoch := leaveEpoch_keeps A rfl
  have kRemoveNew := removeNew_keeps A rfl
  intro x0 x1 x2 s  hs
  unfold rejectNew
  repeat' first
    | with_reducible first
        | assumption | refine kForgetPasses _ _  ?_ | refine kLeaveEpoch _ _  ?_ | refine kRemoveNew _ _ _ _  ?_
    | (extract_lets -underBinder +onlyGivenNames x; refine keeps_fact (P := P) (v := x) ?_ ?_; rotate_left; clear_value x; revert x; intro _ _; rotate_left; unfold x; clear x)
    | (extract_lets -underBinder +onlyGivenNames x; clear_value x; revert x; intro _)
    | split
    | with_reducible first | refine keeps_pair (by with_reducible assumption) ?_ | refine keeps_triple (by with_reducible assumption) ?_ | refine keeps_pairL (by with_reducible assumption) ?_

theorem leaveCore_keeps (A : Allows P m) (h : m &&& 2099200 = 2099200) :
    ∀ x0 s, P s → P (leaveCore x0 s) := by
  have A := A.mono h
  clear h
  have kCoreCnt := coreCnt_keeps A rfl
  have kModCore := modCore_keeps A rfl
  have kModTask := modTask_keeps A rfl
  intro x0 s  hs
  unfold leaveCore
  repeat' first
    | with_reducible first
        | assumption | refine kCoreCnt _ _ _ _  ?_ | refine kModCore _ _ _  ?_ | refine kModTask _ _ _ _  ?_
    | (extract_lets -underBinder +onlyGivenNames x; refine keeps_fact (P := P) (v := x) ?_ ?_; rotate_left; clear_value x; revert x; intro _ _; rotate_left; unfold x; clear x)
    | (extract_lets -underBinder +onlyGivenNames x; clear_value x; revert x; intro _)
    | intro _
    | split
    | with_reducible first | refine keeps_pair (by with_reducible assumption) ?_ | refine keeps_triple (by with_reducible assumption) ?_ | refine keeps_pairL (by with_reducible assumption) ?_

theorem faultTask_keeps (A : Allows P m) (h : m &&& 10366663968 = 10366663968) :
    ∀ x0 x1 s, P s → P (faultTask x0 x1 s) := by
  have A := A.mono h
  clear h
  have kTskCnt := tskCnt_keeps A rfl
  have kRejectNew := rejectNew_keeps A rfl
  have kLeaveLock := leaveLock_keeps A rfl
  have kModTask := modTask_keeps A rfl
  have kRetireTicket := retireTicket_keeps A rfl
  have kClearSlot := clearSlot_keeps A rfl
  have kDropTaskPkt := dropTaskPkt_keeps A rfl
  intro x0 x1 s  hs
  unfold faultTask
  repeat' first
    | with_reducible first
        | assumption | refine kTskCnt _ _ _  ?_ | refine kRejectNew _ _ _ _  ?_ | refine kLeaveLock _ _ _  ?_
        | refine kModTask _ _ _ _  ?_ | refine kRetireTicket _ _ _  ?_ | refine kClearSlot _ _ _  ?_
        | refine kDropTaskPkt _ _  ?_
    | (extract_lets -underBinder +onlyGivenNames x; refine keeps_fact (P := P) (v := x) ?_ ?_; rotate_left; clear_value x; revert x; intro _ _; rotate_left; unfold x; clear x)
    | (extract_lets -underBinder +onlyGivenNames x; clear_value x; revert x; intro _)
    | intro _
    | split

theorem faultOnCore_keeps (A : Allows P m) (h : m &&& 10366663968 = 10366663968) :
    ∀ x0 x1 s, P s → P (faultOnCore x0 x1 s) := by
  have A := A.mono h
  clear h
  have kCoreCnt := coreCnt_keeps A rfl
  have kFaultTask := faultTask_keeps A rfl
  have kLeaveCore := leaveCore_keeps A rfl
  have kModCore := modCore_keeps A rfl
  intro x0 x1 s  hs
  unfold faultOnCore
  repeat' first
    | with_reducible first
        | assumption | refine kCoreCnt _ _ _ _  ?_ | refine kFaultTask _ _ _  ?_ | refine kLeaveCore _ _  ?_
        | refine kModCore _ _ _  ?_
    | (extract_lets -underBinder +onlyGivenNames x; refine keeps_fact (P := P) (v := x) ?_ ?_; rotate_left; clear_value x; revert x; intro _ _; rotate_left; unfold x; clear x)
    | (extract_lets -underBinder +onlyGivenNames x; clear_value x; revert x; intro _)
    | intro _
    | split

theorem withdrawDispatch_keeps (A : Allows P m) (h : m &&& 2097152 = 2097152) :
    ∀ x0 s, P s → P (withdrawDispatch x0 s) := by
  have A := A.mono h
  clear h
  have kModTask := modTask_keeps A rfl
  have kSetCsr := setCsr_keeps A rfl
  have kModCore := modCore_keeps A rfl
  intro x0 s  hs
  unfold withdrawDispatch
  repeat' first
    | with_reducible first
        | assumption | refine kModTask _ _ _ _  ?_ | refine kSetCsr _ _ _ _  ?_ | refine kModCore _ _ _  ?_
    | (extract_lets -underBinder +onlyGivenNames x; refine keeps_fact (P := P) (v := x) ?_ ?_; rotate_left; clear_value x; revert x; intro _ _; rotate_left; unfold x; clear x)
    | (extract_lets -underBinder +onlyGivenNames x; clear_value x; revert x; intro _)
    | intro _
    | split
    | with_reducible first | refine keeps_pair (by with_reducible assumption) ?_ | refine keeps_triple (by with_reducible assumption) ?_ | refine keeps_pairL (by with_reducible assumption) ?_

theorem cancelTask_keeps (A : Allows P m) (h : m &&& 10366663968 = 10366663968) :
    ∀ x0 x1 s, P s → P (cancelTask x0 x1 s).2 := by
  have A := A.mono h
  clear h
  have kTskCnt := tskCnt_keeps A rfl
  have kRejectNew := rejectNew_keeps A rfl
  have kLeaveLock := leaveLock_keeps A rfl
  have kModTask := modTask_keeps A rfl
  have kRetireTicket := retireTicket_keeps A rfl
  have kClearSlot := clearSlot_keeps A rfl
  have kDropTaskPkt := dropTaskPkt_keeps A rfl
  have kModCore := modCore_keeps A rfl
  intro x0 x1 s  hs
  unfold cancelTask
  repeat' first
    | with_reducible first
        | assumption | refine kTskCnt _ _ _  ?_ | refine kRejectNew _ _ _ _  ?_ | refine kLeaveLock _ _ _  ?_
        | refine kModTask _ _ _ _  ?_ | refine kRetireTicket _ _ _  ?_ | refine kClearSlot _ _ _  ?_
        | refine kDropTaskPkt _ _  ?_ | refine kModCore _ _ _  ?_
    | (extract_lets -underBinder +onlyGivenNames x; refine keeps_fact (P := P) (v := x) ?_ ?_; rotate_left; clear_value x; revert x; intro _ _; rotate_left; unfold x; clear x)
    | (extract_lets -underBinder +onlyGivenNames x; clear_value x; revert x; intro _)
    | intro _
    | split
    | with_reducible first | refine keeps_pair (by with_reducible assumption) ?_ | refine keeps_triple (by with_reducible assumption) ?_ | refine keeps_pairL (by with_reducible assumption) ?_

theorem cancelRecord_keeps (A : Allows P m) (h : m &&& 10366663968 = 10366663968) :
    ∀ x0 x1 s, P s → P (cancelRecord x0 x1 s) := by
  have A := A.mono h
  clear h
  have kModTsk := modTsk_keeps A rfl
  have kCancelTask := cancelTask_keeps A rfl
  intro x0 x1 s  hs
  unfold cancelRecord
  repeat' first
    | with_reducible first
        | assumption | refine kModTsk _ _  ?_ | refine kCancelTask _ _ _  ?_
        | refine each_keeps _ _ (fun _ _ _ => ?_) _ ?_
    | (extract_lets -underBinder +onlyGivenNames x; refine keeps_fact (P := P) (v := x) ?_ ?_; rotate_left; clear_value x; revert x; intro _ _; rotate_left; unfold x; clear x)
    | (extract_lets -underBinder +onlyGivenNames x; have h := fun a => x a; clear h; unfold x; clear x)
    | (extract_lets -underBinder +onlyGivenNames x; clear_value x; revert x; intro _)
    | intro _

theorem releaseTask_keeps (A : Allows P m) (h : m &&& 10366663968 = 10366663968) :
    ∀ x0 x1 x2 s, P s → P (releaseTask x0 x1 x2 s) := by
  have A := A.mono h
  clear h
  have kModTask := modTask_keeps A rfl
  have kCoreCnt := coreCnt_keeps A rfl
  have kTskCnt := tskCnt_keeps A rfl
  have kLeaveCore := leaveCore_keeps A rfl
  have kRejectNew := rejectNew_keeps A rfl
  have kLeaveLock := leaveLock_keeps A rfl
  have kRetireTicket := retireTicket_keeps A rfl
  have kClearSlot := clearSlot_keeps A rfl
  have kDropTaskPkt := dropTaskPkt_keeps A rfl
  have kEmitWord := emitWord_keeps A rfl
  intro x0 x1 x2 s  hs
  unfold releaseTask
  repeat' first
    | with_reducible first
        | assumption | refine kModTask _ _ _ _  ?_ | refine kCoreCnt _ _ _ _  ?_ | refine kTskCnt _ _ _  ?_
        | refine kLeaveCore _ _  ?_ | refine kRejectNew _ _ _ _  ?_ | refine kLeaveLock _ _ _  ?_
        | refine kRetireTicket _ _ _  ?_ | refine kClearSlot _ _ _  ?_ | refine kDropTaskPkt _ _  ?_
        | refine kEmitWord _ _ _  ?_
    | (extract_lets -underBinder +onlyGivenNames x; refine keeps_fact (P := P) (v := x) ?_ ?_; rotate_left; clear_value x; revert x; intro _ _; rotate_left; unfold x; clear x)
    | (extract_lets -underBinder +onlyGivenNames x; clear_value x; revert x; intro _)
    | intro _
    | split

theorem handTask_keeps (A : Allows P m) (h : m &&& 10366663968 = 10366663968) :
    ∀ x0 x1 x2 x3 s, P s → P (handTask x0 x1 x2 x3 s) := by
  have A := A.mono h
  clear h
  have kFaultOnCore := faultOnCore_keeps A rfl
  have kLeaveCore := leaveCore_keeps A rfl
  have kTskCnt := tskCnt_keeps A rfl
  have kLeaveLock := leaveLock_keeps A rfl
  have kModTask := modTask_keeps A rfl
  have kRetireTicket := retireTicket_keeps A rfl
  have kJoinLock := joinLock_keeps A rfl
  have kTryReady := tryReady_keeps A rfl
  have kNoteClass := noteClass_keeps A rfl
  intro x0 x1 x2 x3 s  hs
  unfold handTask
  repeat' first
    | with_reducible first
        | assumption | refine kFaultOnCore _ _ _  ?_ | refine kLeaveCore _ _  ?_ | refine kTskCnt _ _ _  ?_
        | refine kLeaveLock _ _ _  ?_ | refine kModTask _ _ _ _  ?_ | refine kRetireTicket _ _ _  ?_
        | refine kJoinLock _ _ _  ?_ | refine kTryReady _ _ _  ?_ | refine kNoteClass _ _ _  ?_
    | (extract_lets -underBinder +onlyGivenNames x; refine keeps_fact (P := P) (v := x) ?_ ?_; rotate_left; clear_value x; revert x; intro _ _; rotate_left; unfold x; clear x)
    | (extract_lets -underBinder +onlyGivenNames x; clear_value x; revert x; intro _)
    | intro _
    | split

theorem countWait_keeps (A : Allows P m) (h : m &&& 2048 = 2048) :
    ∀ x0 x1 s, P s → P (countWait x0 x1 s) := by
  have A := A.mono h
  clear h
  have kCntInc := cntInc_keeps A rfl
  have kCntSet := cntSet_keeps A rfl
  intro x0 x1 s  hs
  unfold countWait
  repeat' first
    | with_reducible first
        | assumption | refine kCntInc _ _ _ _  ?_ | refine kCntSet _ _ _ _ _  ?_
    | (extract_lets -underBinder +onlyGivenNames x; refine keeps_fact (P := P) (v := x) ?_ ?_; rotate_left; clear_value x; revert x; intro _ _; rotate_left; unfold x; clear x)
    | (extract_lets -underBinder +onlyGivenNames x; clear_value x; revert x; intro _)
    | split

theorem dispatchTask_keeps (A : Allows P m) (h : m &&& 2099200 = 2099200) :
    ∀ x0 x1 s, P s → P (dispatchTask x0 x1 s) := by
  have A := A.mono h
  clear h
  have kCountWait := countWait_keeps A rfl
  have kCntInc := cntInc_keeps A rfl
  have kTskCnt := tskCnt_keeps A rfl
  have kModTsk := modTsk_keeps A rfl
  have kModTask := modTask_keeps A rfl
  intro x0 x1 s  hs
  unfold dispatchTask
  repeat' first
    | with_reducible first
        | assumption | refine kCountWait _ _ _  ?_ | refine kCntInc _ _ _ _  ?_ | refine kTskCnt _ _ _  ?_
        | refine kModTsk _ _  ?_ | refine kModTask _ _ _ _  ?_
    | (extract_lets -underBinder +onlyGivenNames x; refine keeps_fact (P := P) (v := x) ?_ ?_; rotate_left; clear_value x; revert x; intro _ _; rotate_left; unfold x; clear x)
    | (extract_lets -underBinder +onlyGivenNames x; clear_value x; revert x; intro _)
    | intro _

theorem enterTask_keeps (A : Allows P m) (h : m &&& 2097152 = 2097152) :
    ∀ x0 x1 s, P s → P (enterTask x0 x1 s) := by
  have A := A.mono h
  clear h
  have kModTask := modTask_keeps A rfl
  have kModCore := modCore_keeps A rfl
  intro x0 x1 s  hs
  unfold enterTask
  repeat' first
    | with_reducible first
        | assumption | refine kModTask _ _ _ _  ?_ | refine kModCore _ _ _  ?_
    | (extract_lets -underBinder +onlyGivenNames x; refine keeps_fact (P := P) (v := x) ?_ ?_; rotate_left; clear_value x; revert x; intro _ _; rotate_left; unfold x; clear x)
    | (extract_lets -underBinder +onlyGivenNames x; clear_value x; revert x; intro _)
    | intro _

theorem taskDispatch_keeps (A : Allows P m) (h : m &&& 2099200 = 2099200) :
    ∀ x0 s, P s → P (taskDispatch x0 s) := by
  have A := A.mono h
  clear h
  have kEnterTask := enterTask_keeps A rfl
  have kDispatchTask := dispatchTask_keeps A rfl
  have kCoreCnt := coreCnt_keeps A rfl
  have kCoreNext := coreNext_keeps A rfl
  have kSetCoreReg := setCoreReg_keeps A rfl
  have kModCore := modCore_keeps A rfl
  have kSetCsr := setCsr_keeps A rfl
  intro x0 s  hs
  unfold taskDispatch
  repeat' first
    | with_reducible first
        | assumption | refine kEnterTask _ _ _  ?_ | refine kDispatchTask _ _ _  ?_ | refine kCoreCnt _ _ _ _  ?_
        | refine kCoreNext _ _ _  ?_ | refine kSetCoreReg _ _ _ _  ?_ | refine kModCore _ _ _  ?_
        | refine kSetCsr _ _ _ _  ?_
    | (extract_lets -underBinder +onlyGivenNames x; refine keeps_fact (P := P) (v := x) ?_ ?_; rotate_left; clear_value x; revert x; intro _ _; rotate_left; unfold x; clear x)
    | (extract_lets -underBinder +onlyGivenNames x; clear_value x; revert x; intro _)
    | intro _
    | split
    | with_reducible first | refine keeps_pair (by with_reducible assumption) ?_ | refine keeps_triple (by with_reducible assumption) ?_ | refine keeps_pairL (by with_reducible assumption) ?_

theorem preemptDispatch_keeps (A : Allows P m) (h : m &&& 2099200 = 2099200) :
    ∀ x0 s, P s → P (preemptDispatch x0 s) := by
  have A := A.mono h
  clear h
  have kSetCsr := setCsr_keeps A rfl
  have kModCore := modCore_keeps A rfl
  have kDispatchTask := dispatchTask_keeps A rfl
  intro x0 s  hs
  unfold preemptDispatch
  repeat' first
    | with_reducible first
        | assumption | refine kSetCsr _ _ _ _  ?_ | refine kModCore _ _ _  ?_ | refine kDispatchTask _ _ _  ?_
    | (extract_lets -underBinder +onlyGivenNames x; refine keeps_fact (P := P) (v := x) ?_ ?_; rotate_left; clear_value x; revert x; intro _ _; rotate_left; unfold x; clear x)
    | (extract_lets -underBinder +onlyGivenNames x; clear_value x; revert x; intro _)
    | intro _
    | split
    | with_reducible first | refine keeps_pair (by with_reducible assumption) ?_ | refine keeps_triple (by with_reducible assumption) ?_ | refine keeps_pairL (by with_reducible assumption) ?_

theorem preemptTrap_keeps (A : Allows P m) (h : m &&& 2099200 = 2099200) :
    ∀ x0 x1 s, P s → P (preemptTrap x0 x1 s) := by
  have A := A.mono h
  clear h
  have kModTask := modTask_keeps A rfl
  have kTskCnt := tskCnt_keeps A rfl
  have kModCore := modCore_keeps A rfl
  have kEnterTask := enterTask_keeps A rfl
  have kCoreTrap := coreTrap_keeps A rfl
  have kSetCsr := setCsr_keeps A rfl
  intro x0 x1 s  hs
  unfold preemptTrap
  repeat' first
    | with_reducible first
        | assumption | refine kModTask _ _ _ _  ?_ | refine kTskCnt _ _ _  ?_ | refine kModCore _ _ _  ?_
        | refine kEnterTask _ _ _  ?_ | refine kCoreTrap _ _ _ _ _  ?_ | refine kSetCsr _ _ _ _  ?_
    | (extract_lets -underBinder +onlyGivenNames x; refine keeps_fact (P := P) (v := x) ?_ ?_; rotate_left; clear_value x; revert x; intro _ _; rotate_left; unfold x; clear x)
    | (extract_lets -underBinder +onlyGivenNames x; clear_value x; revert x; intro _)
    | intro _
    | split
    | with_reducible first | refine keeps_pair (by with_reducible assumption) ?_ | refine keeps_triple (by with_reducible assumption) ?_ | refine keeps_pairL (by with_reducible assumption) ?_

theorem preemption_keeps (A : Allows P m) (h : m &&& 2099200 = 2099200) :
    ∀ x0 s, P s → P (preemption x0 s) := by
  have A := A.mono h
  clear h
  have kPreemptTrap := preemptTrap_keeps A rfl
  have kWithdrawDispatch := withdrawDispatch_keeps A rfl
  have kPreemptDispatch := preemptDispatch_keeps A rfl
  intro x0 s  hs
  unfold preemption
  repeat' first
    | with_reducible first
        | assumption | refine kPreemptTrap _ _ _  ?_ | refine kWithdrawDispatch _ _  ?_
        | refine kPreemptDispatch _ _  ?_
    | split
    | with_reducible first | refine keeps_pair (by with_reducible assumption) ?_ | refine keeps_triple (by with_reducible assumption) ?_ | refine keeps_pairL (by with_reducible assumption) ?_

theorem operandArrival_keeps (A : Allows P m) (h : m &&& 2099200 = 2099200) :
    ∀ x0 x1 x2 s, P s → P (operandArrival x0 x1 x2 s) := by
  have A := A.mono h
  clear h
  have kTryReady := tryReady_keeps A rfl
  have kModTask := modTask_keeps A rfl
  intro x0 x1 x2 s  hs
  unfold operandArrival
  repeat' first
    | with_reducible first
        | assumption | refine kTryReady _ _ _  ?_ | refine kModTask _ _ _ _  ?_
    | (extract_lets -underBinder +onlyGivenNames x; refine keeps_fact (P := P) (v := x) ?_ ?_; rotate_left; clear_value x; revert x; intro _ _; rotate_left; unfold x; clear x)
    | (extract_lets -underBinder +onlyGivenNames x; clear_value x; revert x; intro _)
    | intro _
    | split

theorem timerOperand_keeps (A : Allows P m) (h : m &&& 2099200 = 2099200) :
    ∀ x0 x1 s, P s → P (timerOperand x0 x1 s) := by
  have A := A.mono h
  clear h
  have kTryReady := tryReady_keeps A rfl
  have kModTask := modTask_keeps A rfl
  intro x0 x1 s  hs
  unfold timerOperand
  repeat' first
    | with_reducible first
        | assumption | refine kTryReady _ _ _  ?_ | refine kModTask _ _ _ _  ?_
    | (extract_lets -underBinder +onlyGivenNames x; refine keeps_fact (P := P) (v := x) ?_ ?_; rotate_left; clear_value x; revert x; intro _ _; rotate_left; unfold x; clear x)
    | (extract_lets -underBinder +onlyGivenNames x; clear_value x; revert x; intro _)
    | intro _
    | split

theorem runLimitExpiry_keeps (A : Allows P m) (h : m &&& 10366663968 = 10366663968) :
    ∀ x0 s, P s → P (runLimitExpiry x0 s) := by
  have A := A.mono h
  clear h
  have kWithdrawDispatch := withdrawDispatch_keeps A rfl
  have kResetCore := resetCore_keeps A rfl
  have kFaultOnCore := faultOnCore_keeps A rfl
  have kRaise := raise_keeps A rfl
  intro x0 s  hs
  unfold runLimitExpiry
  repeat' first
    | with_reducible first
        | assumption | refine kWithdrawDispatch _ _  ?_ | refine kResetCore _ _  ?_
        | refine kFaultOnCore _ _ _  ?_ | refine kRaise _ _ _ _ _ _ _  ?_
    | (extract_lets -underBinder +onlyGivenNames x; refine keeps_fact (P := P) (v := x) ?_ ?_; rotate_left; clear_value x; revert x; intro _ _; rotate_left; unfold x; clear x)
    | (extract_lets -underBinder +onlyGivenNames x; clear_value x; revert x; intro _)
    | split
    | with_reducible first | refine keeps_pair (by with_reducible assumption) ?_ | refine keeps_triple (by with_reducible assumption) ?_ | refine keeps_pairL (by with_reducible assumption) ?_

theorem holdLimitExpiry_keeps (A : Allows P m) (h : m &&& 10336868640 = 10336868640) :
    ∀ x0 x1 s, P s → P (holdLimitExpiry x0 x1 s) := by
  have A := A.mono h
  clear h
  have kRaise := raise_keeps A rfl
  have kModLock := modLock_keeps A rfl
  intro x0 x1 s  hs
  unfold holdLimitExpiry
  repeat' first
    | with_reducible first
        | assumption | refine kRaise _ _ _ _ _ _ _  ?_ | refine kModLock _ _ _ _  ?_
    | (extract_lets -underBinder +onlyGivenNames x; refine keeps_fact (P := P) (v := x) ?_ ?_; rotate_left; clear_value x; revert x; intro _ _; rotate_left; unfold x; clear x)
    | (extract_lets -underBinder +onlyGivenNames x; clear_value x; revert x; intro _)
    | intro _
    | split

theorem execOperandArrival_keeps (A : Allows P m) (h : m &&& 2099200 = 2099200) :
    ∀ x0 x1 x2 s, P s → ∀ t, execOperandArrival x0 x1 x2 s = .next t → P t := by
  have A := A.mono h
  clear h
  have kOperandArrival := operandArrival_keeps A rfl
  intro x0 x1 x2 s  hs
  intro t e
  cases e
  repeat' first
    | with_reducible first
        | assumption | refine kOperandArrival _ _ _ _  ?_ | refine each_keeps _ _ (fun _ _ _ => ?_) _ ?_
        | refine foldl_keeps _ _ (fun _ _ _ => ?_) _ ?_
    | (extract_lets -underBinder +onlyGivenNames x; refine keeps_fact (P := P) (v := x) ?_ ?_; rotate_left; clear_value x; revert x; intro _ _; rotate_left; unfold x; clear x)
    | (extract_lets -underBinder +onlyGivenNames x; refine keeps_fact2 (P := P) (v := x) ?_ ?_; rotate_left; clear_value x; revert x; intro _ _; rotate_left; unfold x; clear x)
    | (extract_lets -underBinder +onlyGivenNames x; have h := fun a => x a; clear h; unfold x; clear x)
    | (extract_lets -underBinder +onlyGivenNames x; clear_value x; revert x; intro _)
    | intro _
    | split
    | with_reducible first | refine keeps_pair (by with_reducible assumption) ?_ | refine keeps_triple (by with_reducible assumption) ?_ | refine keeps_pairL (by with_reducible assumption) ?_

theorem execTimerOperand_keeps (A : Allows P m) (h : m &&& 2099200 = 2099200) :
    ∀ x0 x1 s, P s → ∀ t, execTimerOperand x0 x1 s = .next t → P t := by
  have A := A.mono h
  clear h
  have kTimerOperand := timerOperand_keeps A rfl
  intro x0 x1 s  hs
  intro t e
  cases e
  repeat' first
    | with_reducible first
        | assumption | refine kTimerOperand _ _ _  ?_
    | (extract_lets -underBinder +onlyGivenNames x; refine keeps_fact (P := P) (v := x) ?_ ?_; rotate_left; clear_value x; revert x; intro _ _; rotate_left; unfold x; clear x)
    | (extract_lets -underBinder +onlyGivenNames x; clear_value x; revert x; intro _)
    | intro _
    | split
    | with_reducible first | refine keeps_pair (by with_reducible assumption) ?_ | refine keeps_triple (by with_reducible assumption) ?_ | refine keeps_pairL (by with_reducible assumption) ?_

theorem execTaskDispatch_keeps (A : Allows P m) (h : m &&& 2099200 = 2099200) :
    ∀ x0 s, P s → ∀ t, execTaskDispatch x0 s = .next t → P t := by
  have A := A.mono h
  clear h
  have kTaskDispatch := taskDispatch_keeps A rfl
  intro x0 s  hs
  intro t e
  cases e
  repeat' first
    | with_reducible first
        | assumption | refine kTaskDispatch _ _  ?_
    | (extract_lets -underBinder +onlyGivenNames x; refine keeps_fact (P := P) (v := x) ?_ ?_; rotate_left; clear_value x; revert x; intro _ _; rotate_left; unfold x; clear x)
    | (extract_lets -underBinder +onlyGivenNames x; clear_value x; revert x; intro _)
    | intro _
    | split
    | with_reducible first | refine keeps_pair (by with_reducible assumption) ?_ | refine keeps_triple (by with_reducible assumption) ?_ | refine keeps_pairL (by with_reducible assumption) ?_

theorem execRunLimitExpiry_keeps (A : Allows P m) (h : m &&& 10366663968 = 10366663968) :
    ∀ x0 s, P s → ∀ t, execRunLimitExpiry x0 s = .next t → P t := by
  have A := A.mono h
  clear h
  have kRunLimitExpiry := runLimitExpiry_keeps A rfl
  intro x0 s  hs
  intro t e
  cases e
  repeat' first
    | with_reducible first
        | assumption | refine kRunLimitExpiry _ _  ?_
    | (extract_lets -underBinder +onlyGivenNames x; refine keeps_fact (P := P) (v := x) ?_ ?_; rotate_left; clear_value x; revert x; intro _ _; rotate_left; unfold x; clear x)
    | (extract_lets -underBinder +onlyGivenNames x; clear_value x; revert x; intro _)
    | intro _
    | split
    | with_reducible first | refine keeps_pair (by with_reducible assumption) ?_ | refine keeps_triple (by with_reducible assumption) ?_ | refine keeps_pairL (by with_reducible assumption) ?_

theorem execHoldLimitExpiry_keeps (A : Allows P m) (h : m &&& 10336868640 = 10336868640) :
    ∀ x0 x1 s, P s → ∀ t, execHoldLimitExpiry x0 x1 s = .next t → P t := by
  have A := A.mono h
  clear h
  have kHoldLimitExpiry := holdLimitExpiry_keeps A rfl
  intro x0 x1 s  hs
  intro t e
  cases e
  repeat' first
    | with_reducible first
        | assumption | refine kHoldLimitExpiry _ _ _  ?_
    | (extract_lets -underBinder +onlyGivenNames x; refine keeps_fact (P := P) (v := x) ?_ ?_; rotate_left; clear_value x; revert x; intro _ _; rotate_left; unfold x; clear x)
    | (extract_lets -underBinder +onlyGivenNames x; clear_value x; revert x; intro _)
    | intro _
    | split
    | with_reducible first | refine keeps_pair (by with_reducible assumption) ?_ | refine keeps_triple (by with_reducible assumption) ?_ | refine keeps_pairL (by with_reducible assumption) ?_

theorem execPreemption_keeps (A : Allows P m) (h : m &&& 2099200 = 2099200) :
    ∀ x0 s, P s → ∀ t, execPreemption x0 s = .next t → P t := by
  have A := A.mono h
  clear h
  have kPreemption := preemption_keeps A rfl
  intro x0 s  hs
  intro t e
  cases e
  repeat' first
    | with_reducible first
        | assumption | refine kPreemption _ _  ?_
    | (extract_lets -underBinder +onlyGivenNames x; refine keeps_fact (P := P) (v := x) ?_ ?_; rotate_left; clear_value x; revert x; intro _ _; rotate_left; unfold x; clear x)
    | (extract_lets -underBinder +onlyGivenNames x; clear_value x; revert x; intro _)
    | intro _
    | split
    | with_reducible first | refine keeps_pair (by with_reducible assumption) ?_ | refine keeps_triple (by with_reducible assumption) ?_ | refine keeps_pairL (by with_reducible assumption) ?_

end Sys2Proof.Laws
end

