-- ==== Sys2Proof/Laws/Cores.lean ====
section
/-! SUPPORT. What each operation of Machine/Cores.lean can change (Laws/Keeps.lean). -/

namespace Sys2Proof.Laws

open Sys2Proof.Machine

variable {P : State → Prop} {m : Nat}

theorem wkGet_keeps (A : Allows P m) (h : m &&& 2097152 = 2097152) :
    ∀ x0 x1 s, P s → P (wkGet x0 x1 s) := by
  have A := A.mono h
  clear h
  have kCoreIllegal := coreIllegal_keeps A rfl
  have kModCore := modCore_keeps A rfl
  intro x0 x1 s  hs
  unfold wkGet
  repeat' first
    | with_reducible first
        | assumption | refine kCoreIllegal _ _  ?_ | refine kModCore _ _ _  ?_
    | intro _
    | split

theorem wkRel_keeps (A : Allows P m) (h : m &&& 10366663968 = 10366663968) :
    ∀ x0 x1 s, P s → P (wkRel x0 x1 s) := by
  have A := A.mono h
  clear h
  have kCoreIllegal := coreIllegal_keeps A rfl
  have kReleaseTask := releaseTask_keeps A rfl
  have kCoreNext := coreNext_keeps A rfl
  intro x0 x1 s  hs
  unfold wkRel
  repeat' first
    | with_reducible first
        | assumption | refine kCoreIllegal _ _  ?_ | refine kReleaseTask _ _ _ _  ?_ | refine kCoreNext _ _ _  ?_
    | split
    | with_reducible first | refine keeps_pair (by with_reducible assumption) ?_ | refine keeps_triple (by with_reducible assumption) ?_ | refine keeps_pairL (by with_reducible assumption) ?_

theorem wkHand_keeps (A : Allows P m) (h : m &&& 10366663968 = 10366663968) :
    ∀ x0 x1 x2 s, P s → P (wkHand x0 x1 x2 s) := by
  have A := A.mono h
  clear h
  have kCoreIllegal := coreIllegal_keeps A rfl
  have kHandTask := handTask_keeps A rfl
  have kCoreNext := coreNext_keeps A rfl
  intro x0 x1 x2 s  hs
  unfold wkHand
  repeat' first
    | with_reducible first
        | assumption | refine kCoreIllegal _ _  ?_ | refine kHandTask _ _ _ _ _  ?_ | refine kCoreNext _ _ _  ?_
    | split
    | with_reducible first | refine keeps_pair (by with_reducible assumption) ?_ | refine keeps_triple (by with_reducible assumption) ?_ | refine keeps_pairL (by with_reducible assumption) ?_

theorem wkNew_keeps (A : Allows P m) (h : m &&& 10341202208 = 10341202208) :
    ∀ x0 x1 x2 s, P s → P (wkNew x0 x1 x2 s) := by
  have A := A.mono h
  clear h
  have kCoreTrap := coreTrap_keeps A rfl
  have kCoreNext := coreNext_keeps A rfl
  have kSetCoreReg := setCoreReg_keeps A rfl
  have kTskCnt := tskCnt_keeps A rfl
  have kPlaceTask := placeTask_keeps A rfl
  intro x0 x1 x2 s  hs
  unfold wkNew
  repeat' first
    | with_reducible first
        | assumption | refine kCoreTrap _ _ _ _ _  ?_ | refine kCoreNext _ _ _  ?_
        | refine kSetCoreReg _ _ _ _  ?_ | refine kTskCnt _ _ _  ?_ | refine kPlaceTask _ _ _ _ _  ?_
    | (extract_lets -underBinder +onlyGivenNames x; refine keeps_fact (P := P) (v := x) ?_ ?_; rotate_left; clear_value x; revert x; intro _ _; rotate_left; unfold x; clear x)
    | (extract_lets -underBinder +onlyGivenNames x; clear_value x; revert x; intro _)
    | split
    | with_reducible first | refine keeps_pair (by with_reducible assumption) ?_ | refine keeps_triple (by with_reducible assumption) ?_ | refine keeps_pairL (by with_reducible assumption) ?_

theorem wkCancel_keeps (A : Allows P m) (h : m &&& 10366663968 = 10366663968) :
    ∀ x0 x1 x2 s, P s → P (wkCancel x0 x1 x2 s) := by
  have A := A.mono h
  clear h
  have kCoreNext := coreNext_keeps A rfl
  have kSetCoreReg := setCoreReg_keeps A rfl
  have kCancelTask := cancelTask_keeps A rfl
  intro x0 x1 x2 s  hs
  unfold wkCancel
  repeat' first
    | with_reducible first
        | assumption | refine kCoreNext _ _ _  ?_ | refine kSetCoreReg _ _ _ _  ?_ | refine kCancelTask _ _ _  ?_
    | (extract_lets -underBinder +onlyGivenNames x; refine keeps_fact (P := P) (v := x) ?_ ?_; rotate_left; clear_value x; revert x; intro _ _; rotate_left; unfold x; clear x)
    | (extract_lets -underBinder +onlyGivenNames x; clear_value x; revert x; intro _)
    | split
    | with_reducible first | refine keeps_pair (by with_reducible assumption) ?_ | refine keeps_triple (by with_reducible assumption) ?_ | refine keeps_pairL (by with_reducible assumption) ?_

theorem replyCore_keeps (A : Allows P m) (h : m &&& 2099200 = 2099200) :
    ∀ x0 x1 x2 s, P s → P (replyCore x0 x1 x2 s) := by
  have A := A.mono h
  clear h
  have kTskCnt := tskCnt_keeps A rfl
  have kModCore := modCore_keeps A rfl
  intro x0 x1 x2 s  hs
  unfold replyCore
  repeat' first
    | with_reducible first
        | assumption | refine kTskCnt _ _ _  ?_ | refine kModCore _ _ _  ?_
    | (extract_lets -underBinder +onlyGivenNames x; refine keeps_fact (P := P) (v := x) ?_ ?_; rotate_left; clear_value x; revert x; intro _ _; rotate_left; unfold x; clear x)
    | (extract_lets -underBinder +onlyGivenNames x; clear_value x; revert x; intro _)
    | intro _
    | split

theorem wkFlow_keeps (A : Allows P m) (h : m &&& 2230272 = 2230272) :
    ∀ x0 x1 s, P s → P (wkFlow x0 x1 s) := by
  have A := A.mono h
  clear h
  have kModCore := modCore_keeps A rfl
  have kReplyCore := replyCore_keeps A rfl
  have kTskCnt := tskCnt_keeps A rfl
  have kModSlice := modSlice_keeps A rfl
  intro x0 x1 s  hs
  unfold wkFlow
  repeat' first
    | with_reducible first
        | assumption | refine kModCore _ _ _  ?_ | refine kReplyCore _ _ _ _  ?_ | refine kTskCnt _ _ _  ?_
        | refine kModSlice _ _ _  ?_
    | (extract_lets -underBinder +onlyGivenNames x; refine keeps_fact (P := P) (v := x) ?_ ?_; rotate_left; clear_value x; revert x; intro _ _; rotate_left; unfold x; clear x)
    | (extract_lets -underBinder +onlyGivenNames x; clear_value x; revert x; intro _)
    | intro _
    | split
    | with_reducible first | refine keeps_pair (by with_reducible assumption) ?_ | refine keeps_triple (by with_reducible assumption) ?_ | refine keeps_pairL (by with_reducible assumption) ?_

theorem wkFlowReply_keeps (A : Allows P m) (h : m &&& 2097152 = 2097152) :
    ∀ x0 s, P s → P (wkFlowReply x0 s) := by
  have A := A.mono h
  clear h
  have kModCore := modCore_keeps A rfl
  have kCoreNext := coreNext_keeps A rfl
  have kSetCoreReg := setCoreReg_keeps A rfl
  intro x0 s  hs
  unfold wkFlowReply
  repeat' first
    | with_reducible first
        | assumption | refine kModCore _ _ _  ?_ | refine kCoreNext _ _ _  ?_ | refine kSetCoreReg _ _ _ _  ?_
        | refine foldl_keeps _ _ (fun _ _ _ => ?_) _ ?_
    | (extract_lets -underBinder +onlyGivenNames x; refine keeps_fact (P := P) (v := x) ?_ ?_; rotate_left; clear_value x; revert x; intro _ _; rotate_left; unfold x; clear x)
    | (extract_lets -underBinder +onlyGivenNames x; clear_value x; revert x; intro _)
    | intro _
    | split
    | with_reducible first | refine keeps_pair (by with_reducible assumption) ?_ | refine keeps_triple (by with_reducible assumption) ?_ | refine keeps_pairL (by with_reducible assumption) ?_

theorem wkEvt_keeps (A : Allows P m) (h : m &&& 10336868640 = 10336868640) :
    ∀ x0 x1 x2 s, P s → P (wkEvt x0 x1 x2 s) := by
  have A := A.mono h
  clear h
  have kCoreTrap := coreTrap_keeps A rfl
  have kRaiseSev := raiseSev_keeps A rfl
  have kCoreNext := coreNext_keeps A rfl
  intro x0 x1 x2 s  hs
  unfold wkEvt
  repeat' first
    | with_reducible first
        | assumption | refine kCoreTrap _ _ _ _ _  ?_ | refine kRaiseSev _ _ _ _ _ _ _ _  ?_
        | refine kCoreNext _ _ _  ?_
    | (extract_lets -underBinder +onlyGivenNames x; refine keeps_fact (P := P) (v := x) ?_ ?_; rotate_left; clear_value x; revert x; intro _ _; rotate_left; unfold x; clear x)
    | (extract_lets -underBinder +onlyGivenNames x; clear_value x; revert x; intro _)
    | split
    | with_reducible first | refine keeps_pair (by with_reducible assumption) ?_ | refine keeps_triple (by with_reducible assumption) ?_ | refine keeps_pairL (by with_reducible assumption) ?_

theorem breakResv_keeps (A : Allows P m) (h : m &&& 2097152 = 2097152) :
    ∀ x0 x1 x2 s, P s → P (breakResv x0 x1 x2 s) := by
  have A := A.mono h
  clear h
  have kModCore := modCore_keeps A rfl
  intro x0 x1 x2 s  hs
  unfold breakResv
  repeat' first
    | with_reducible first
        | assumption | refine kModCore _ _ _  ?_ | refine each_keeps _ _ (fun _ _ _ => ?_) _ ?_
    | intro _
    | split
    | with_reducible first | refine keeps_pair (by with_reducible assumption) ?_ | refine keeps_triple (by with_reducible assumption) ?_ | refine keeps_pairL (by with_reducible assumption) ?_

theorem coreStore_keeps (A : Allows P m) (h : m &&& 2100224 = 2100224) :
    ∀ x0 x1 x2 x3 x4 s, P s → P (coreStore x0 x1 x2 x3 x4 s) := by
  have A := A.mono h
  clear h
  have kCoreTrap := coreTrap_keeps A rfl
  have kCoreWr := coreWr_keeps A rfl
  have kCountPoisonStore := countPoisonStore_keeps A rfl
  have kCoreNext := coreNext_keeps A rfl
  have kBreakResv := breakResv_keeps A rfl
  intro x0 x1 x2 x3 x4 s  hs
  unfold coreStore
  repeat' first
    | with_reducible first
        | assumption | refine kCoreTrap _ _ _ _ _  ?_ | refine kCoreWr _ _ _ _ _  ?_ _ (by assumption)
        | refine kCountPoisonStore _ _ _ _  ?_ | refine kCoreNext _ _ _  ?_ | refine kBreakResv _ _ _ _  ?_
    | split
    | with_reducible first | refine keeps_pair (by with_reducible assumption) ?_ | refine keeps_triple (by with_reducible assumption) ?_ | refine keeps_pairL (by with_reducible assumption) ?_

theorem coreLoad_keeps (A : Allows P m) (h : m &&& 2097152 = 2097152) :
    ∀ x0 x1 x2 x3 x4 x5 s, P s → P (coreLoad x0 x1 x2 x3 x4 x5 s) := by
  have A := A.mono h
  clear h
  have kCoreTrap := coreTrap_keeps A rfl
  have kCoreNext := coreNext_keeps A rfl
  have kSetCoreReg := setCoreReg_keeps A rfl
  intro x0 x1 x2 x3 x4 x5 s  hs
  unfold coreLoad
  repeat' first
    | with_reducible first
        | assumption | refine kCoreTrap _ _ _ _ _  ?_ | refine kCoreNext _ _ _  ?_
        | refine kSetCoreReg _ _ _ _  ?_
    | split
    | with_reducible first | refine keeps_pair (by with_reducible assumption) ?_ | refine keeps_triple (by with_reducible assumption) ?_ | refine keeps_pairL (by with_reducible assumption) ?_

theorem coreAmo_keeps (A : Allows P m) (h : m &&& 2100224 = 2100224) :
    ∀ x0 x1 x2 x3 x4 x5 x6 s, P s → P (coreAmo x0 x1 x2 x3 x4 x5 x6 s) := by
  have A := A.mono h
  clear h
  have kCoreTrap := coreTrap_keeps A rfl
  have kCoreIllegal := coreIllegal_keeps A rfl
  have kCoreNext := coreNext_keeps A rfl
  have kModCore := modCore_keeps A rfl
  have kSetCoreReg := setCoreReg_keeps A rfl
  have kCoreStore := coreStore_keeps A rfl
  intro x0 x1 x2 x3 x4 x5 x6 s  hs
  unfold coreAmo
  repeat' first
    | with_reducible first
        | assumption | refine kCoreTrap _ _ _ _ _  ?_ | refine kCoreIllegal _ _  ?_ | refine kCoreNext _ _ _  ?_
        | refine kModCore _ _ _  ?_ | refine kSetCoreReg _ _ _ _  ?_ | refine kCoreStore _ _ _ _ _ _  ?_
    | (extract_lets -underBinder +onlyGivenNames x; refine keeps_fact (P := P) (v := x) ?_ ?_; rotate_left; clear_value x; revert x; intro _ _; rotate_left; unfold x; clear x)
    | (extract_lets -underBinder +onlyGivenNames x; clear_value x; revert x; intro _)
    | intro _
    | split
    | with_reducible first | refine keeps_pair (by with_reducible assumption) ?_ | refine keeps_triple (by with_reducible assumption) ?_ | refine keeps_pairL (by with_reducible assumption) ?_

theorem coreCsr_keeps (A : Allows P m) (h : m &&& 2097152 = 2097152) :
    ∀ x0 x1 x2 x3 x4 x5 s, P s → P (coreCsr x0 x1 x2 x3 x4 x5 s) := by
  have A := A.mono h
  intro c f3 csr rd rs1 len s hs
  have k : ∀ new t, (if f3 % 4 = 1 ∨ rs1 ≠ 0 then csrWrite c csr new s else some s) = some t → P t := by
    intro new t e
    split at e
    · exact csrWrite_keeps A rfl _ _ _ _ hs _ e
    · cases e; exact hs
  unfold coreCsr
  dsimp only
  split
  · exact coreIllegal_keeps A rfl _ _ hs
  · split
    · exact coreIllegal_keeps A rfl _ _ hs
    · rename_i e
      exact ite_keeps (setCsr_keeps A rfl _ _ _ _ (coreNext_keeps A rfl _ _ _ (setCoreReg_keeps A rfl _ _ _ _ (k _ _ e))))
        (coreNext_keeps A rfl _ _ _ (setCoreReg_keeps A rfl _ _ _ _ (k _ _ e)))

theorem coreMret_keeps (A : Allows P m) (h : m &&& 2097152 = 2097152) :
    ∀ x0 s, P s → P (coreMret x0 s) := by
  have A := A.mono h
  clear h
  have kCoreNext := coreNext_keeps A rfl
  have kSetCsr := setCsr_keeps A rfl
  have kModCore := modCore_keeps A rfl
  intro x0 s  hs
  unfold coreMret
  repeat' first
    | with_reducible first
        | assumption | refine kCoreNext _ _ _  ?_ | refine kSetCsr _ _ _ _  ?_ | refine kModCore _ _ _  ?_
    | (extract_lets -underBinder +onlyGivenNames x; refine keeps_fact (P := P) (v := x) ?_ ?_; rotate_left; clear_value x; revert x; intro _ _; rotate_left; unfold x; clear x)
    | (extract_lets -underBinder +onlyGivenNames x; clear_value x; revert x; intro _)
    | intro _

theorem coreResult_keeps (A : Allows P m) (h : m &&& 2097152 = 2097152) :
    ∀ x0 x1 x2 x3 s, P s → P (coreResult x0 x1 x2 x3 s) := by
  have A := A.mono h
  clear h
  have kCoreNext := coreNext_keeps A rfl
  have kSetCoreReg := setCoreReg_keeps A rfl
  have kCoreIllegal := coreIllegal_keeps A rfl
  intro x0 x1 x2 x3 s  hs
  unfold coreResult
  repeat' first
    | with_reducible first
        | assumption | refine kCoreNext _ _ _  ?_ | refine kSetCoreReg _ _ _ _  ?_ | refine kCoreIllegal _ _  ?_
    | split
    | with_reducible first | refine keeps_pair (by with_reducible assumption) ?_ | refine keeps_triple (by with_reducible assumption) ?_ | refine keeps_pairL (by with_reducible assumption) ?_

theorem coreExec_keeps (A : Allows P m) (h : m &&& 10366663968 = 10366663968) :
    ∀ x0 x1 x2 s, P s → P (coreExec x0 x1 x2 s) := by
  have A := A.mono h
  clear h
  have kModCore := modCore_keeps A rfl
  have kCoreNext := coreNext_keeps A rfl
  have kCoreResult := coreResult_keeps A rfl
  have kSetCoreReg := setCoreReg_keeps A rfl
  have kCoreIllegal := coreIllegal_keeps A rfl
  have kCoreLoad := coreLoad_keeps A rfl
  have kCoreStore := coreStore_keeps A rfl
  have kCoreAmo := coreAmo_keeps A rfl
  have kCoreTrap := coreTrap_keeps A rfl
  have kCoreMret := coreMret_keeps A rfl
  have kCoreCsr := coreCsr_keeps A rfl
  have kWkGet := wkGet_keeps A rfl
  have kWkRel := wkRel_keeps A rfl
  have kWkHand := wkHand_keeps A rfl
  have kWkNew := wkNew_keeps A rfl
  have kWkCancel := wkCancel_keeps A rfl
  have kWkFlow := wkFlow_keeps A rfl
  have kWkEvt := wkEvt_keeps A rfl
  intro x0 x1 x2 s  hs
  unfold coreExec
  repeat' first
    | with_reducible first
        | assumption | refine kModCore _ _ _  ?_ | refine kCoreNext _ _ _  ?_ | refine kCoreResult _ _ _ _ _  ?_
        | refine kSetCoreReg _ _ _ _  ?_ | refine kCoreIllegal _ _  ?_ | refine kCoreLoad _ _ _ _ _ _ _  ?_
        | refine kCoreStore _ _ _ _ _ _  ?_ | refine kCoreAmo _ _ _ _ _ _ _ _  ?_
        | refine kCoreTrap _ _ _ _ _  ?_ | refine kCoreMret _ _  ?_ | refine kCoreCsr _ _ _ _ _ _ _  ?_
        | refine kWkGet _ _ _  ?_ | refine kWkRel _ _ _  ?_ | refine kWkHand _ _ _ _  ?_
        | refine kWkNew _ _ _ _  ?_ | refine kWkCancel _ _ _ _  ?_ | refine kWkFlow _ _ _  ?_
        | refine kWkEvt _ _ _ _  ?_
    | (extract_lets -underBinder +onlyGivenNames x; refine keeps_fact (P := P) (v := x) ?_ ?_; rotate_left; clear_value x; revert x; intro _ _; rotate_left; unfold x; clear x)
    | (extract_lets -underBinder +onlyGivenNames x; have h := fun a => x a; clear h; unfold x; clear x)
    | (extract_lets -underBinder +onlyGivenNames x; clear_value x; revert x; intro _)
    | intro _
    | split
    | with_reducible first | refine keeps_pair (by with_reducible assumption) ?_ | refine keeps_triple (by with_reducible assumption) ?_ | refine keeps_pairL (by with_reducible assumption) ?_

theorem coreStep_keeps (A : Allows P m) (h : m &&& 10366663968 = 10366663968) :
    ∀ x0 s, P s → P (coreStep x0 s) := by
  have A := A.mono h
  clear h
  have kCoreTrap := coreTrap_keeps A rfl
  have kSetCsr := setCsr_keeps A rfl
  have kModCore := modCore_keeps A rfl
  have kCoreIllegal := coreIllegal_keeps A rfl
  have kCoreExec := coreExec_keeps A rfl
  intro x0 s  hs
  unfold coreStep
  repeat' first
    | with_reducible first
        | assumption | refine kCoreTrap _ _ _ _ _  ?_ | refine kSetCsr _ _ _ _  ?_ | refine kModCore _ _ _  ?_
        | refine kCoreIllegal _ _  ?_ | refine kCoreExec _ _ _ _  ?_
    | (extract_lets -underBinder +onlyGivenNames x; refine keeps_fact (P := P) (v := x) ?_ ?_; rotate_left; clear_value x; revert x; intro _ _; rotate_left; unfold x; clear x)
    | (extract_lets -underBinder +onlyGivenNames x; clear_value x; revert x; intro _)
    | intro _
    | split
    | with_reducible first | refine keeps_pair (by with_reducible assumption) ?_ | refine keeps_triple (by with_reducible assumption) ?_ | refine keeps_pairL (by with_reducible assumption) ?_

theorem coreInstruction_keeps (A : Allows P m) (h : m &&& 10366663968 = 10366663968) :
    ∀ x0 s, P s → P (coreInstruction x0 s) := by
  have A := A.mono h
  clear h
  have kWithdrawDispatch := withdrawDispatch_keeps A rfl
  have kCoreStep := coreStep_keeps A rfl
  intro x0 s  hs
  unfold coreInstruction
  repeat' first
    | with_reducible first
        | assumption | refine kWithdrawDispatch _ _  ?_ | refine kCoreStep _ _  ?_

theorem onCore_keeps (A : Allows P m) (h : m &&& 0 = 0) :
    ∀ x0 x1 s, (∀ t, P t → P (x1 t)) → P s → P (onCore x0 x1 s) := by
  have A := A.mono h
  clear h
  intro x0 x1 s k0 hs
  unfold onCore
  repeat' first
    | with_reducible first
        | assumption | refine k0 _ _ ?_ | refine k0 _ ?_
    | intro _
    | split

theorem execCoreInstruction_keeps (A : Allows P m) (h : m &&& 10366663968 = 10366663968) :
    ∀ x0 s, P s → ∀ t, execCoreInstruction x0 s = .next t → P t := by
  have A := A.mono h
  clear h
  have kCoreInstruction := coreInstruction_keeps A rfl
  intro x0 s  hs
  intro t e
  cases e
  repeat' first
    | with_reducible first
        | assumption | refine kCoreInstruction _ _  ?_ | refine each_keeps _ _ (fun _ _ _ => ?_) _ ?_
        | refine foldl_keeps _ _ (fun _ _ _ => ?_) _ ?_
    | (extract_lets -underBinder +onlyGivenNames x; refine keeps_fact (P := P) (v := x) ?_ ?_; rotate_left; clear_value x; revert x; intro _ _; rotate_left; unfold x; clear x)
    | (extract_lets -underBinder +onlyGivenNames x; refine keeps_fact2 (P := P) (v := x) ?_ ?_; rotate_left; clear_value x; revert x; intro _ _; rotate_left; unfold x; clear x)
    | (extract_lets -underBinder +onlyGivenNames x; have h := fun a => x a; clear h; unfold x; clear x)
    | (extract_lets -underBinder +onlyGivenNames x; clear_value x; revert x; intro _)
    | intro _
    | split
    | with_reducible first | refine keeps_pair (by with_reducible assumption) ?_ | refine keeps_triple (by with_reducible assumption) ?_ | refine keeps_pairL (by with_reducible assumption) ?_

theorem execWkGet_keeps (A : Allows P m) (h : m &&& 2097152 = 2097152) :
    ∀ x0 x1 s, P s → ∀ t, execWkGet x0 x1 s = .next t → P t := by
  have A := A.mono h
  clear h
  have kOnCore := onCore_keeps A rfl
  have kWkGet := wkGet_keeps A rfl
  intro x0 x1 s  hs
  intro t e
  cases e
  repeat' first
    | with_reducible first
        | assumption | refine kOnCore _ _ _ ?_ ?_ | refine kWkGet _ _ _  ?_
    | (extract_lets -underBinder +onlyGivenNames x; refine keeps_fact (P := P) (v := x) ?_ ?_; rotate_left; clear_value x; revert x; intro _ _; rotate_left; unfold x; clear x)
    | (extract_lets -underBinder +onlyGivenNames x; clear_value x; revert x; intro _)
    | intro _
    | split
    | with_reducible first | refine keeps_pair (by with_reducible assumption) ?_ | refine keeps_triple (by with_reducible assumption) ?_ | refine keeps_pairL (by with_reducible assumption) ?_

theorem execWkRel_keeps (A : Allows P m) (h : m &&& 10366663968 = 10366663968) :
    ∀ x0 x1 s, P s → ∀ t, execWkRel x0 x1 s = .next t → P t := by
  have A := A.mono h
  clear h
  have kOnCore := onCore_keeps A rfl
  have kWkRel := wkRel_keeps A rfl
  intro x0 x1 s  hs
  intro t e
  cases e
  repeat' first
    | with_reducible first
        | assumption | refine kOnCore _ _ _ ?_ ?_ | refine kWkRel _ _ _  ?_
    | (extract_lets -underBinder +onlyGivenNames x; refine keeps_fact (P := P) (v := x) ?_ ?_; rotate_left; clear_value x; revert x; intro _ _; rotate_left; unfold x; clear x)
    | (extract_lets -underBinder +onlyGivenNames x; clear_value x; revert x; intro _)
    | intro _
    | split
    | with_reducible first | refine keeps_pair (by with_reducible assumption) ?_ | refine keeps_triple (by with_reducible assumption) ?_ | refine keeps_pairL (by with_reducible assumption) ?_

theorem execWkHand_keeps (A : Allows P m) (h : m &&& 10366663968 = 10366663968) :
    ∀ x0 x1 x2 s, P s → ∀ t, execWkHand x0 x1 x2 s = .next t → P t := by
  have A := A.mono h
  clear h
  have kOnCore := onCore_keeps A rfl
  have kWkHand := wkHand_keeps A rfl
  intro x0 x1 x2 s  hs
  intro t e
  cases e
  repeat' first
    | with_reducible first
        | assumption | refine kOnCore _ _ _ ?_ ?_ | refine kWkHand _ _ _ _  ?_
    | (extract_lets -underBinder +onlyGivenNames x; refine keeps_fact (P := P) (v := x) ?_ ?_; rotate_left; clear_value x; revert x; intro _ _; rotate_left; unfold x; clear x)
    | (extract_lets -underBinder +onlyGivenNames x; clear_value x; revert x; intro _)
    | intro _
    | split
    | with_reducible first | refine keeps_pair (by with_reducible assumption) ?_ | refine keeps_triple (by with_reducible assumption) ?_ | refine keeps_pairL (by with_reducible assumption) ?_

theorem execWkNew_keeps (A : Allows P m) (h : m &&& 10341202208 = 10341202208) :
    ∀ x0 x1 x2 s, P s → ∀ t, execWkNew x0 x1 x2 s = .next t → P t := by
  have A := A.mono h
  clear h
  have kOnCore := onCore_keeps A rfl
  have kWkNew := wkNew_keeps A rfl
  intro x0 x1 x2 s  hs
  intro t e
  cases e
  repeat' first
    | with_reducible first
        | assumption | refine kOnCore _ _ _ ?_ ?_ | refine kWkNew _ _ _ _  ?_
    | (extract_lets -underBinder +onlyGivenNames x; refine keeps_fact (P := P) (v := x) ?_ ?_; rotate_left; clear_value x; revert x; intro _ _; rotate_left; unfold x; clear x)
    | (extract_lets -underBinder +onlyGivenNames x; clear_value x; revert x; intro _)
    | intro _
    | split
    | with_reducible first | refine keeps_pair (by with_reducible assumption) ?_ | refine keeps_triple (by with_reducible assumption) ?_ | refine keeps_pairL (by with_reducible assumption) ?_

theorem execWkCancel_keeps (A : Allows P m) (h : m &&& 10366663968 = 10366663968) :
    ∀ x0 x1 x2 s, P s → ∀ t, execWkCancel x0 x1 x2 s = .next t → P t := by
  have A := A.mono h
  clear h
  have kOnCore := onCore_keeps A rfl
  have kWkCancel := wkCancel_keeps A rfl
  intro x0 x1 x2 s  hs
  intro t e
  cases e
  repeat' first
    | with_reducible first
        | assumption | refine kOnCore _ _ _ ?_ ?_ | refine kWkCancel _ _ _ _  ?_
    | (extract_lets -underBinder +onlyGivenNames x; refine keeps_fact (P := P) (v := x) ?_ ?_; rotate_left; clear_value x; revert x; intro _ _; rotate_left; unfold x; clear x)
    | (extract_lets -underBinder +onlyGivenNames x; clear_value x; revert x; intro _)
    | intro _
    | split
    | with_reducible first | refine keeps_pair (by with_reducible assumption) ?_ | refine keeps_triple (by with_reducible assumption) ?_ | refine keeps_pairL (by with_reducible assumption) ?_

theorem execWkFlow_keeps (A : Allows P m) (h : m &&& 2230272 = 2230272) :
    ∀ x0 x1 s, P s → ∀ t, execWkFlow x0 x1 s = .next t → P t := by
  have A := A.mono h
  clear h
  have kOnCore := onCore_keeps A rfl
  have kWkFlow := wkFlow_keeps A rfl
  intro x0 x1 s  hs
  intro t e
  cases e
  repeat' first
    | with_reducible first
        | assumption | refine kOnCore _ _ _ ?_ ?_ | refine kWkFlow _ _ _  ?_
    | (extract_lets -underBinder +onlyGivenNames x; refine keeps_fact (P := P) (v := x) ?_ ?_; rotate_left; clear_value x; revert x; intro _ _; rotate_left; unfold x; clear x)
    | (extract_lets -underBinder +onlyGivenNames x; clear_value x; revert x; intro _)
    | intro _
    | split
    | with_reducible first | refine keeps_pair (by with_reducible assumption) ?_ | refine keeps_triple (by with_reducible assumption) ?_ | refine keeps_pairL (by with_reducible assumption) ?_

theorem execWkEvt_keeps (A : Allows P m) (h : m &&& 10336868640 = 10336868640) :
    ∀ x0 x1 x2 s, P s → ∀ t, execWkEvt x0 x1 x2 s = .next t → P t := by
  have A := A.mono h
  clear h
  have kOnCore := onCore_keeps A rfl
  have kWkEvt := wkEvt_keeps A rfl
  intro x0 x1 x2 s  hs
  intro t e
  cases e
  repeat' first
    | with_reducible first
        | assumption | refine kOnCore _ _ _ ?_ ?_ | refine kWkEvt _ _ _ _  ?_
    | (extract_lets -underBinder +onlyGivenNames x; refine keeps_fact (P := P) (v := x) ?_ ?_; rotate_left; clear_value x; revert x; intro _ _; rotate_left; unfold x; clear x)
    | (extract_lets -underBinder +onlyGivenNames x; clear_value x; revert x; intro _)
    | intro _
    | split
    | with_reducible first | refine keeps_pair (by with_reducible assumption) ?_ | refine keeps_triple (by with_reducible assumption) ?_ | refine keeps_pairL (by with_reducible assumption) ?_

theorem execWkFlowReply_keeps (A : Allows P m) (h : m &&& 2097152 = 2097152) :
    ∀ x0 s, P s → ∀ t, execWkFlowReply x0 s = .next t → P t := by
  have A := A.mono h
  clear h
  have kWkFlowReply := wkFlowReply_keeps A rfl
  intro x0 s  hs
  intro t e
  cases e
  repeat' first
    | with_reducible first
        | assumption | refine kWkFlowReply _ _  ?_
    | (extract_lets -underBinder +onlyGivenNames x; refine keeps_fact (P := P) (v := x) ?_ ?_; rotate_left; clear_value x; revert x; intro _ _; rotate_left; unfold x; clear x)
    | (extract_lets -underBinder +onlyGivenNames x; clear_value x; revert x; intro _)
    | intro _
    | split
    | with_reducible first | refine keeps_pair (by with_reducible assumption) ?_ | refine keeps_triple (by with_reducible assumption) ?_ | refine keeps_pairL (by with_reducible assumption) ?_

end Sys2Proof.Laws
end

