-- ==== Sys2Proof/Laws/HbmMap.lean ====
section
/-! SUPPORT. What each operation of Machine/HbmMap.lean can change (Laws/Keeps.lean). -/

namespace Sys2Proof.Laws

open Sys2Proof.Machine

variable {P : State → Prop} {m : Nat}

theorem setRank_keeps (A : Allows P m) (h : m &&& 603979776 = 603979776) :
    ∀ x0 x1 s, P s → P (setRank x0 x1 s) := by
  have A := A.mono h
  clear h
  have kModHbm := modHbm_keeps A rfl
  have kModFlash := modFlash_keeps A rfl
  intro x0 x1 s  hs
  unfold setRank
  repeat' first
    | with_reducible first
        | assumption | refine kModHbm _ _  ?_ | refine kModFlash _ _  ?_
    | (extract_lets -underBinder +onlyGivenNames x; refine keeps_fact (P := P) (v := x) ?_ ?_; rotate_left; clear_value x; revert x; intro _ _; rotate_left; unfold x; clear x)
    | (extract_lets -underBinder +onlyGivenNames x; clear_value x; revert x; intro _)
    | intro _

theorem setMap_keeps (A : Allows P m) (h : m &&& 603979776 = 603979776) :
    ∀ x0 x1 s, P s → P (setMap x0 x1 s) := by
  have A := A.mono h
  clear h
  have kModHbm := modHbm_keeps A rfl
  have kModFlash := modFlash_keeps A rfl
  intro x0 x1 s  hs
  unfold setMap
  repeat' first
    | with_reducible first
        | assumption | refine kModHbm _ _  ?_ | refine kModFlash _ _  ?_
    | (extract_lets -underBinder +onlyGivenNames x; refine keeps_fact (P := P) (v := x) ?_ ?_; rotate_left; clear_value x; revert x; intro _ _; rotate_left; unfold x; clear x)
    | (extract_lets -underBinder +onlyGivenNames x; clear_value x; revert x; intro _)
    | intro _
    | split
    | with_reducible first | refine keeps_pair (by with_reducible assumption) ?_ | refine keeps_triple (by with_reducible assumption) ?_ | refine keeps_pairL (by with_reducible assumption) ?_

theorem mirrorWrite_keeps (A : Allows P m) (h : m &&& 67109888 = 67109888) :
    ∀ x0 x1 s, P s → P (mirrorWrite x0 x1 s) := by
  intro off bs s hs
  have A := A.mono h
  have h1 := modHbm_keeps A rfl (fun h => { h with
    mirrorBad := h.mirrorBad.filter fun e => e.1 < ceilDiv off 64 || (off + bs.length) / 64 ≤ e.1 }) s hs
  unfold mirrorWrite
  generalize modHbm (fun h => { h with
    mirrorBad := h.mirrorBad.filter fun e => e.1 < ceilDiv off 64 || (off + bs.length) / 64 ≤ e.1 }) s = u at h1 ⊢
  exact A.memBytes rfl bs _ _ (A.memBytes rfl bs _ u h1)

theorem poisonBlock_keeps (A : Allows P m) (h : m &&& 67110912 = 67110912) :
    ∀ x0 s, P s → P (poisonBlock x0 s) := by
  have A := A.mono h
  clear h
  have kCntInc := cntInc_keeps A rfl
  have kModHbm := modHbm_keeps A rfl
  intro x0 s  hs
  unfold poisonBlock
  repeat' first
    | with_reducible first
        | assumption | refine kCntInc _ _ _ _  ?_ | refine kModHbm _ _  ?_
    | intro _

theorem markMirror_keeps (A : Allows P m) (h : m &&& 67108864 = 67108864) :
    ∀ x0 s, P s → P (markMirror x0 s) := by
  have A := A.mono h
  clear h
  have kModHbm := modHbm_keeps A rfl
  intro x0 s  hs
  unfold markMirror
  repeat' first
    | with_reducible first
        | assumption | refine kModHbm _ _  ?_
    | intro _

theorem clearPoison_keeps (A : Allows P m) (h : m &&& 67108864 = 67108864) :
    ∀ x0 x1 s, P s → P (clearPoison x0 x1 s) := by
  have A := A.mono h
  clear h
  have kModHbm := modHbm_keeps A rfl
  intro x0 x1 s  hs
  unfold clearPoison
  repeat' first
    | with_reducible first
        | assumption | refine kModHbm _ _  ?_
    | intro _

theorem blockWrite_keeps (A : Allows P m) (h : m &&& 67109888 = 67109888) :
    ∀ x0 x1 s, P s → P (blockWrite x0 x1 s) := by
  intro a bs s hs
  have A := A.mono h
  exact clearPoison_keeps A rfl _ _ _ (A.memBytes rfl bs a s hs)

theorem mirrorRepair_keeps (A : Allows P m) (h : m &&& 67111936 = 67111936) :
    ∀ x0 x1 s, P s → P (mirrorRepair x0 x1 s) := by
  intro a b s hs
  have A := A.mono h
  unfold mirrorRepair
  dsimp only
  split
  · exact markMirror_keeps A rfl _ _ hs
  · exact modHbm_keeps A rfl _ _ (cntInc_keeps A rfl _ _ _ _ (A.memBytes rfl _ _ s hs))

theorem countPanic_keeps (A : Allows P m) (h : m &&& 67110912 = 67110912) :
    ∀ x0 s, P s → P (countPanic x0 s) := by
  have A := A.mono h
  clear h
  have kModStack := modStack_keeps A rfl
  have kCntAdd := cntAdd_keeps A rfl
  intro x0 s  hs
  unfold countPanic
  repeat' first
    | with_reducible first
        | assumption | refine kModStack _ _ _  ?_ | refine kCntAdd _ _ _ _ _  ?_
    | (extract_lets -underBinder +onlyGivenNames x; refine keeps_fact (P := P) (v := x) ?_ ?_; rotate_left; clear_value x; revert x; intro _ _; rotate_left; unfold x; clear x)
    | (extract_lets -underBinder +onlyGivenNames x; clear_value x; revert x; intro _)
    | intro _
    | split

theorem countFast_keeps (A : Allows P m) (h : m &&& 67110912 = 67110912) :
    ∀ x0 s, P s → P (countFast x0 s) := by
  have A := A.mono h
  clear h
  have kModStack := modStack_keeps A rfl
  have kCntAdd := cntAdd_keeps A rfl
  intro x0 s  hs
  unfold countFast
  repeat' first
    | with_reducible first
        | assumption | refine kModStack _ _ _  ?_ | refine kCntAdd _ _ _ _ _  ?_
    | (extract_lets -underBinder +onlyGivenNames x; refine keeps_fact (P := P) (v := x) ?_ ?_; rotate_left; clear_value x; revert x; intro _ _; rotate_left; unfold x; clear x)
    | (extract_lets -underBinder +onlyGivenNames x; clear_value x; revert x; intro _)
    | intro _
    | split

theorem panicCheck_keeps (A : Allows P m) (h : m &&& 67110912 = 67110912) :
    ∀ x0 s, P s → P (panicCheck x0 s) := by
  have A := A.mono h
  clear h
  have kModStack := modStack_keeps A rfl
  have kCountPanic := countPanic_keeps A rfl
  intro x0 s  hs
  unfold panicCheck
  repeat' first
    | with_reducible first
        | assumption | refine kModStack _ _ _  ?_ | refine kCountPanic _ _  ?_
    | (extract_lets -underBinder +onlyGivenNames x; refine keeps_fact (P := P) (v := x) ?_ ?_; rotate_left; clear_value x; revert x; intro _ _; rotate_left; unfold x; clear x)
    | (extract_lets -underBinder +onlyGivenNames x; clear_value x; revert x; intro _)
    | intro _
    | split

theorem hbmPush_keeps (A : Allows P m) (h : m &&& 67110912 = 67110912) :
    ∀ x0 x1 s, P s → P (hbmPush x0 x1 s) := by
  have A := A.mono h
  clear h
  have kPanicCheck := panicCheck_keeps A rfl
  have kModStack := modStack_keeps A rfl
  intro x0 x1 s  hs
  unfold hbmPush
  repeat' first
    | with_reducible first
        | assumption | refine kPanicCheck _ _  ?_ | refine kModStack _ _ _  ?_
        | refine each_keeps _ _ (fun _ _ _ => ?_) _ ?_
    | intro _

theorem hbmReturned_keeps (A : Allows P m) (h : m &&& 67110912 = 67110912) :
    ∀ x0 x1 s, P s → P (hbmReturned x0 x1 s) := by
  have A := A.mono h
  clear h
  have kPanicCheck := panicCheck_keeps A rfl
  have kModStack := modStack_keeps A rfl
  intro x0 x1 s  hs
  unfold hbmReturned
  repeat' first
    | with_reducible first
        | assumption | refine kPanicCheck _ _  ?_ | refine kModStack _ _ _  ?_
        | refine each_keeps _ _ (fun _ _ _ => ?_) _ ?_
    | intro _
    | split

end Sys2Proof.Laws
end

