-- ==== Sys2Proof/Laws/Spec.lean ====
section
/-! SUPPORT. What each operation of Machine/Spec.lean can change (Laws/Keeps.lean). -/

namespace Sys2Proof.Laws

open Sys2Proof.Machine

variable {P : State → Prop} {m : Nat}

theorem modPass_keeps (A : Allows P m) (h : m &&& 262144 = 262144) :
    ∀ x0 x1 x2 x3 s, P s → P (modPass x0 x1 x2 x3 s) := by
  have A := A.mono h
  clear h
  have kModPipe := modPipe_keeps A rfl
  intro x0 x1 x2 x3 s  hs
  unfold modPass
  repeat' first
    | with_reducible first
        | assumption | refine kModPipe _ _ _  ?_
    | intro _
    | split

theorem noteFull_keeps (A : Allows P m) (h : m &&& 264192 = 264192) :
    ∀ x0 s, P s → P (noteFull x0 s) := by
  have A := A.mono h
  clear h
  have kModPipe := modPipe_keeps A rfl
  have kSpecCnt := specCnt_keeps A rfl
  intro x0 s  hs
  unfold noteFull
  repeat' first
    | with_reducible first
        | assumption | refine kModPipe _ _ _  ?_ | refine kSpecCnt _ _ _ _  ?_
    | (extract_lets -underBinder +onlyGivenNames x; refine keeps_fact (P := P) (v := x) ?_ ?_; rotate_left; clear_value x; revert x; intro _ _; rotate_left; unfold x; clear x)
    | (extract_lets -underBinder +onlyGivenNames x; clear_value x; revert x; intro _)
    | intro _
    | split
    | with_reducible first | refine keeps_pair (by with_reducible assumption) ?_ | refine keeps_triple (by with_reducible assumption) ?_ | refine keeps_pairL (by with_reducible assumption) ?_

theorem modReplica_keeps (A : Allows P m) (h : m &&& 131072 = 131072) :
    ∀ x0 x1 x2 s, P s → P (modReplica x0 x1 x2 s) := by
  have A := A.mono h
  clear h
  have kModReplicas := modReplicas_keeps A rfl
  intro x0 x1 x2 s  hs
  unfold modReplica
  repeat' first
    | with_reducible first
        | assumption | refine kModReplicas _ _ _  ?_
    | intro _
    | split

theorem touchReplica_keeps (A : Allows P m) (h : m &&& 131072 = 131072) :
    ∀ x0 x1 s, P s → P (touchReplica x0 x1 s) := by
  have A := A.mono h
  clear h
  have kModReplica := modReplica_keeps A rfl
  intro x0 x1 s  hs
  unfold touchReplica
  repeat' first
    | with_reducible first
        | assumption | refine kModReplica _ _ _ _  ?_
    | (extract_lets -underBinder +onlyGivenNames x; refine keeps_fact (P := P) (v := x) ?_ ?_; rotate_left; clear_value x; revert x; intro _ _; rotate_left; unfold x; clear x)
    | (extract_lets -underBinder +onlyGivenNames x; clear_value x; revert x; intro _)
    | intro _

theorem sendDelta_keeps (A : Allows P m) (h : m &&& 131072 = 131072) :
    ∀ x0 x1 s, P s → P (sendDelta x0 x1 s) := by
  have A := A.mono h
  clear h
  have kModSlice := modSlice_keeps A rfl
  have kModReplica := modReplica_keeps A rfl
  intro x0 x1 s  hs
  unfold sendDelta
  repeat' first
    | with_reducible first
        | assumption | refine kModSlice _ _ _  ?_ | refine kModReplica _ _ _ _  ?_
    | (extract_lets -underBinder +onlyGivenNames x; refine keeps_fact (P := P) (v := x) ?_ ?_; rotate_left; clear_value x; revert x; intro _ _; rotate_left; unfold x; clear x)
    | (extract_lets -underBinder +onlyGivenNames x; clear_value x; revert x; intro _)
    | intro _
    | split
    | with_reducible first | refine keeps_pair (by with_reducible assumption) ?_ | refine keeps_triple (by with_reducible assumption) ?_ | refine keeps_pairL (by with_reducible assumption) ?_

theorem removeReplica_keeps (A : Allows P m) (h : m &&& 131072 = 131072) :
    ∀ x0 x1 s, P s → P (removeReplica x0 x1 s) := by
  have A := A.mono h
  clear h
  have kModReplicas := modReplicas_keeps A rfl
  have kSendDelta := sendDelta_keeps A rfl
  intro x0 x1 s  hs
  unfold removeReplica
  repeat' first
    | with_reducible first
        | assumption | refine kModReplicas _ _ _  ?_ | refine kSendDelta _ _ _  ?_
    | intro _

theorem install_keeps (A : Allows P m) (h : m &&& 133120 = 133120) :
    ∀ x0 x1 s, P s → P (install x0 x1 s) := by
  have A := A.mono h
  clear h
  have kModReplica := modReplica_keeps A rfl
  have kRemoveReplica := removeReplica_keeps A rfl
  have kModReplicas := modReplicas_keeps A rfl
  have kSpecCnt := specCnt_keeps A rfl
  intro x0 x1 s  hs
  unfold install
  repeat' first
    | with_reducible first
        | assumption | refine kModReplica _ _ _ _  ?_ | refine kRemoveReplica _ _ _  ?_
        | refine kModReplicas _ _ _  ?_ | refine kSpecCnt _ _ _ _  ?_
        | refine foldl_keeps _ _ (fun _ _ _ => ?_) _ ?_
    | (extract_lets -underBinder +onlyGivenNames x; refine keeps_fact (P := P) (v := x) ?_ ?_; rotate_left; clear_value x; revert x; intro _ _; rotate_left; unfold x; clear x)
    | (extract_lets -underBinder +onlyGivenNames x; clear_value x; revert x; intro _)
    | intro _
    | split
    | with_reducible first | refine keeps_pair (by with_reducible assumption) ?_ | refine keeps_triple (by with_reducible assumption) ?_ | refine keeps_pairL (by with_reducible assumption) ?_

theorem modWait_keeps (A : Allows P m) (h : m &&& 131072 = 131072) :
    ∀ x0 x1 x2 x3 s, P s → P (modWait x0 x1 x2 x3 s) := by
  have A := A.mono h
  clear h
  have kModWaitings := modWaitings_keeps A rfl
  intro x0 x1 x2 x3 s  hs
  unfold modWait
  repeat' first
    | with_reducible first
        | assumption | refine kModWaitings _ _ _  ?_
    | intro _
    | split

theorem reportKnown_keeps (A : Allows P m) (h : m &&& 131072 = 131072) :
    ∀ x0 x1 s, P s → P (reportKnown x0 x1 s) := by
  have A := A.mono h
  clear h
  have kModSlice := modSlice_keeps A rfl
  intro x0 x1 s  hs
  unfold reportKnown
  repeat' first
    | with_reducible first
        | assumption | refine kModSlice _ _ _  ?_
    | intro _
    | split
    | with_reducible first | refine keeps_pair (by with_reducible assumption) ?_ | refine keeps_triple (by with_reducible assumption) ?_ | refine keeps_pairL (by with_reducible assumption) ?_

theorem sendReq_keeps (A : Allows P m) (h : m &&& 131072 = 131072) :
    ∀ x0 x1 x2 x3 s, P s → P (sendReq x0 x1 x2 x3 s) := by
  have A := A.mono h
  clear h
  have kModWait := modWait_keeps A rfl
  have kModSlice := modSlice_keeps A rfl
  have kReportKnown := reportKnown_keeps A rfl
  intro x0 x1 x2 x3 s  hs
  unfold sendReq
  repeat' first
    | with_reducible first
        | assumption | refine kModWait _ _ _ _ _  ?_ | refine kModSlice _ _ _  ?_ | refine kReportKnown _ _ _  ?_
        | refine each_keeps _ _ (fun _ _ _ => ?_) _ ?_
    | (extract_lets -underBinder +onlyGivenNames x; refine keeps_fact (P := P) (v := x) ?_ ?_; rotate_left; clear_value x; revert x; intro _ _; rotate_left; unfold x; clear x)
    | (extract_lets -underBinder +onlyGivenNames x; clear_value x; revert x; intro _)
    | intro _
    | split
    | with_reducible first | refine keeps_pair (by with_reducible assumption) ?_ | refine keeps_triple (by with_reducible assumption) ?_ | refine keeps_pairL (by with_reducible assumption) ?_

theorem pokeWaits_keeps (A : Allows P m) (h : m &&& 131072 = 131072) :
    ∀ x0 s, P s → P (pokeWaits x0 s) := by
  have A := A.mono h
  clear h
  have kModWaitings := modWaitings_keeps A rfl
  have kModWait := modWait_keeps A rfl
  have kSendReq := sendReq_keeps A rfl
  intro x0 s  hs
  unfold pokeWaits
  repeat' first
    | with_reducible first
        | assumption | refine kModWaitings _ _ _  ?_ | refine kModWait _ _ _ _ _  ?_
        | refine kSendReq _ _ _ _ _  ?_ | refine each_keeps _ _ (fun _ _ _ => ?_) _ ?_
    | (extract_lets -underBinder +onlyGivenNames x; refine keeps_fact (P := P) (v := x) ?_ ?_; rotate_left; clear_value x; revert x; intro _ _; rotate_left; unfold x; clear x)
    | (extract_lets -underBinder +onlyGivenNames x; clear_value x; revert x; intro _)
    | intro _
    | split

theorem joinWait_keeps (A : Allows P m) (h : m &&& 393216 = 393216) :
    ∀ x0 x1 x2 x3 x4 s, P s → P (joinWait x0 x1 x2 x3 x4 s) := by
  have A := A.mono h
  clear h
  have kModPass := modPass_keeps A rfl
  have kModWait := modWait_keeps A rfl
  have kReportKnown := reportKnown_keeps A rfl
  have kSendReq := sendReq_keeps A rfl
  have kModWaitings := modWaitings_keeps A rfl
  intro x0 x1 x2 x3 x4 s  hs
  unfold joinWait
  repeat' first
    | with_reducible first
        | assumption | refine kModPass _ _ _ _ _  ?_ | refine kModWait _ _ _ _ _  ?_
        | refine kReportKnown _ _ _  ?_ | refine kSendReq _ _ _ _ _  ?_ | refine kModWaitings _ _ _  ?_
    | (extract_lets -underBinder +onlyGivenNames x; refine keeps_fact (P := P) (v := x) ?_ ?_; rotate_left; clear_value x; revert x; intro _ _; rotate_left; unfold x; clear x)
    | (extract_lets -underBinder +onlyGivenNames x; clear_value x; revert x; intro _)
    | intro _
    | split
    | with_reducible first | refine keeps_pair (by with_reducible assumption) ?_ | refine keeps_triple (by with_reducible assumption) ?_ | refine keeps_pairL (by with_reducible assumption) ?_

theorem withdraw_keeps (A : Allows P m) (h : m &&& 10364139808 = 10364139808) :
    ∀ x0 s, P s → P (withdraw x0 s) := by
  have A := A.mono h
  clear h
  have kModFab := modFab_keeps A rfl
  have kMapLinkEnts := mapLinkEnts_keeps A rfl
  have kUnlinkEgress := unlinkEgress_keeps A rfl
  have kModPkt := modPkt_keeps A rfl
  have kRetagYoyo := retagYoyo_keeps A rfl
  intro x0 s  hs
  unfold withdraw
  repeat' first
    | with_reducible first
        | assumption | refine kModFab _ _  ?_ | refine kMapLinkEnts _ _  ?_ | refine kUnlinkEgress _ _  ?_
        | refine kModPkt _ _ _  ?_ | refine kRetagYoyo _ _  ?_ | refine each_keeps _ _ (fun _ _ _ => ?_) _ ?_
    | (extract_lets -underBinder +onlyGivenNames x; refine keeps_fact (P := P) (v := x) ?_ ?_; rotate_left; clear_value x; revert x; intro _ _; rotate_left; unfold x; clear x)
    | (extract_lets -underBinder +onlyGivenNames x; have h := fun a => x a; clear h; unfold x; clear x)
    | (extract_lets -underBinder +onlyGivenNames x; clear_value x; revert x; intro _)
    | intro _
    | split
    | with_reducible first | refine keeps_pair (by with_reducible assumption) ?_ | refine keeps_triple (by with_reducible assumption) ?_ | refine keeps_pairL (by with_reducible assumption) ?_

theorem placeFrame_keeps (A : Allows P m) (h : m &&& 10364565792 = 10364565792) :
    ∀ x0 x1 x2 x3 x4 s, P s → P (placeFrame x0 x1 x2 x3 x4 s) := by
  have A := A.mono h
  clear h
  have kOwe := owe_keeps A rfl
  have kModPkt := modPkt_keeps A rfl
  have kArriveFirst := arriveFirst_keeps A rfl
  have kRetagAt := retagAt_keeps A rfl
  have kJoinVoq := joinVoq_keeps A rfl
  intro x0 x1 x2 x3 x4 s  hs
  unfold placeFrame
  repeat' first
    | with_reducible first
        | assumption | refine kOwe _ _ _  ?_ | refine kModPkt _ _ _  ?_ | refine kArriveFirst _ _ _ _ _  ?_
        | refine kRetagAt _ _ _ _  ?_ | refine kJoinVoq _ _ _ _  ?_
        | refine each_keeps _ _ (fun _ _ _ => ?_) _ ?_
    | (extract_lets -underBinder +onlyGivenNames x; refine keeps_fact (P := P) (v := x) ?_ ?_; rotate_left; clear_value x; revert x; intro _ _; rotate_left; unfold x; clear x)
    | (extract_lets -underBinder +onlyGivenNames x; clear_value x; revert x; intro _)
    | intro _
    | split
    | with_reducible first | refine keeps_pair (by with_reducible assumption) ?_ | refine keeps_triple (by with_reducible assumption) ?_ | refine keeps_pairL (by with_reducible assumption) ?_

theorem unowe_keeps (A : Allows P m) (h : m &&& 8192 = 8192) :
    ∀ x0 s, P s → P (unowe x0 s) := by
  have A := A.mono h
  clear h
  have kModPkt := modPkt_keeps A rfl
  intro x0 s  hs
  unfold unowe
  repeat' first
    | with_reducible first
        | assumption | refine kModPkt _ _ _  ?_
    | (extract_lets -underBinder +onlyGivenNames x; refine keeps_fact (P := P) (v := x) ?_ ?_; rotate_left; clear_value x; revert x; intro _ _; rotate_left; unfold x; clear x)
    | (extract_lets -underBinder +onlyGivenNames x; have h := fun a => x a; clear h; unfold x; clear x)
    | (extract_lets -underBinder +onlyGivenNames x; clear_value x; revert x; intro _)
    | intro _

theorem dropEarly_keeps (A : Allows P m) (h : m &&& 10364565792 = 10364565792) :
    ∀ x0 x1 s, P s → P (dropEarly x0 x1 s) := by
  have A := A.mono h
  clear h
  have kDropFrame := dropFrame_keeps A rfl
  have kWithdraw := withdraw_keeps A rfl
  have kPayOwed := payOwed_keeps A rfl
  have kUnowe := unowe_keeps A rfl
  intro x0 x1 s  hs
  unfold dropEarly
  repeat' first
    | with_reducible first
        | assumption | refine kDropFrame _ _ _  ?_ | refine kWithdraw _ _  ?_ | refine kPayOwed _ _  ?_
        | refine kUnowe _ _  ?_

theorem putUnstable_keeps (A : Allows P m) (h : m &&& 262144 = 262144) :
    ∀ x0 x1 s, P s → P (putUnstable x0 x1 s) := by
  have A := A.mono h
  clear h
  have kModPipe := modPipe_keeps A rfl
  intro x0 x1 s  hs
  unfold putUnstable
  repeat' first
    | with_reducible first
        | assumption | refine kModPipe _ _ _  ?_
    | (extract_lets -underBinder +onlyGivenNames x; refine keeps_fact (P := P) (v := x) ?_ ?_; rotate_left; clear_value x; revert x; intro _ _; rotate_left; unfold x; clear x)
    | (extract_lets -underBinder +onlyGivenNames x; clear_value x; revert x; intro _)
    | intro _
    | split

theorem chainStarts_keeps (A : Allows P m) (h : m &&& 264192 = 264192) :
    ∀ x0 x1 s, P s → P (chainStarts x0 x1 s) := by
  have A := A.mono h
  clear h
  have kSpecCnt := specCnt_keeps A rfl
  have kPutUnstable := putUnstable_keeps A rfl
  intro x0 x1 s  hs
  unfold chainStarts
  repeat' first
    | with_reducible first
        | assumption | refine kSpecCnt _ _ _ _  ?_ | refine kPutUnstable _ _ _  ?_
    | (extract_lets -underBinder +onlyGivenNames x; refine keeps_fact (P := P) (v := x) ?_ ?_; rotate_left; clear_value x; revert x; intro _ _; rotate_left; unfold x; clear x)
    | (extract_lets -underBinder +onlyGivenNames x; clear_value x; revert x; intro _)
    | split

theorem noteInval_keeps (A : Allows P m) (h : m &&& 262144 = 262144) :
    ∀ x0 x1 s, P s → P (noteInval x0 x1 s) := by
  have A := A.mono h
  clear h
  have kPutUnstable := putUnstable_keeps A rfl
  intro x0 x1 s  hs
  unfold noteInval
  repeat' first
    | with_reducible first
        | assumption | refine kPutUnstable _ _ _  ?_
    | split
    | with_reducible first | refine keeps_pair (by with_reducible assumption) ?_ | refine keeps_triple (by with_reducible assumption) ?_ | refine keeps_pairL (by with_reducible assumption) ?_

theorem squashPass_keeps (A : Allows P m) (h : m &&& 401408 = 401408) :
    ∀ x0 x1 x2 s, P s → P (squashPass x0 x1 x2 s) := by
  have A := A.mono h
  clear h
  have kModPass := modPass_keeps A rfl
  have kModWaitings := modWaitings_keeps A rfl
  have kModPkt := modPkt_keeps A rfl
  have kModPipe := modPipe_keeps A rfl
  intro x0 x1 x2 s  hs
  unfold squashPass
  repeat' first
    | with_reducible first
        | assumption | refine kModPass _ _ _ _ _  ?_ | refine kModWaitings _ _ _  ?_ | refine kModPkt _ _ _  ?_
        | refine kModPipe _ _ _  ?_
    | (extract_lets -underBinder +onlyGivenNames x; refine keeps_fact (P := P) (v := x) ?_ ?_; rotate_left; clear_value x; revert x; intro _ _; rotate_left; unfold x; clear x)
    | (extract_lets -underBinder +onlyGivenNames x; clear_value x; revert x; intro _)
    | intro _

theorem squashChain_keeps (A : Allows P m) (h : m &&& 10364565792 = 10364565792) :
    ∀ x0 x1 x2 x3 s, P s → P (squashChain x0 x1 x2 x3 s) := by
  have A := A.mono h
  clear h
  have kChainStarts := chainStarts_keeps A rfl
  have kModPkt := modPkt_keeps A rfl
  have kSquashPass := squashPass_keeps A rfl
  have kDropEarly := dropEarly_keeps A rfl
  have kWithdraw := withdraw_keeps A rfl
  have kOweUnlinks := oweUnlinks_keeps A rfl
  have kUnowe := unowe_keeps A rfl
  have kSyncSpec := syncSpec_keeps A rfl
  intro x0 x1 x2 x3 s  hs
  unfold squashChain
  repeat' first
    | with_reducible first
        | assumption | refine kChainStarts _ _ _  ?_ | refine kModPkt _ _ _  ?_ | refine kSquashPass _ _ _ _  ?_
        | refine kDropEarly _ _ _  ?_ | refine kWithdraw _ _  ?_ | refine kOweUnlinks _ _  ?_
        | refine kUnowe _ _  ?_ | refine kSyncSpec _ _  ?_ | refine each_keeps _ _ (fun _ _ _ => ?_) _ ?_
    | (extract_lets -underBinder +onlyGivenNames x; refine keeps_fact (P := P) (v := x) ?_ ?_; rotate_left; clear_value x; revert x; intro _ _; rotate_left; unfold x; clear x)
    | (extract_lets -underBinder +onlyGivenNames x; clear_value x; revert x; intro _)
    | intro _
    | split
    | with_reducible first | refine keeps_pair (by with_reducible assumption) ?_ | refine keeps_triple (by with_reducible assumption) ?_ | refine keeps_pairL (by with_reducible assumption) ?_

theorem recirculate_keeps (A : Allows P m) (h : m &&& 10339236128 = 10339236128) :
    ∀ x0 x1 x2 x3 s, P s → P (recirculate x0 x1 x2 x3 s) := by
  have A := A.mono h
  clear h
  have kModPkt := modPkt_keeps A rfl
  have kRetagYoyo := retagYoyo_keeps A rfl
  have kModPipe := modPipe_keeps A rfl
  intro x0 x1 x2 x3 s  hs
  unfold recirculate
  repeat' first
    | with_reducible first
        | assumption | refine kModPkt _ _ _  ?_ | refine kRetagYoyo _ _  ?_ | refine kModPipe _ _ _  ?_
    | (extract_lets -underBinder +onlyGivenNames x; refine keeps_fact (P := P) (v := x) ?_ ?_; rotate_left; clear_value x; revert x; intro _ _; rotate_left; unfold x; clear x)
    | (extract_lets -underBinder +onlyGivenNames x; clear_value x; revert x; intro _)
    | intro _
    | split

theorem mergePass_keeps (A : Allows P m) (h : m &&& 10364565792 = 10364565792) :
    ∀ x0 x1 x2 s, P s → P (mergePass x0 x1 x2 s) := by
  have A := A.mono h
  clear h
  have kSquashChain := squashChain_keeps A rfl
  have kRecirculate := recirculate_keeps A rfl
  have kModPipe := modPipe_keeps A rfl
  have kModWaitings := modWaitings_keeps A rfl
  have kWithdraw := withdraw_keeps A rfl
  have kModPkt := modPkt_keeps A rfl
  have kOwe := owe_keeps A rfl
  have kPlaceFrame := placeFrame_keeps A rfl
  have kDropEarly := dropEarly_keeps A rfl
  intro x0 x1 x2 s  hs
  unfold mergePass
  repeat' first
    | with_reducible first
        | assumption | refine kSquashChain _ _ _ _ _  ?_ | refine kRecirculate _ _ _ _ _  ?_
        | refine kModPipe _ _ _  ?_ | refine kModWaitings _ _ _  ?_ | refine kWithdraw _ _  ?_
        | refine kModPkt _ _ _  ?_ | refine kOwe _ _ _  ?_ | refine kPlaceFrame _ _ _ _ _ _  ?_
        | refine kDropEarly _ _ _  ?_
    | (extract_lets -underBinder +onlyGivenNames x; refine keeps_fact (P := P) (v := x) ?_ ?_; rotate_left; clear_value x; revert x; intro _ _; rotate_left; unfold x; clear x)
    | (extract_lets -underBinder +onlyGivenNames x; clear_value x; revert x; intro _)
    | intro _
    | split
    | with_reducible first | refine keeps_pair (by with_reducible assumption) ?_ | refine keeps_triple (by with_reducible assumption) ?_ | refine keeps_pairL (by with_reducible assumption) ?_

theorem noteLearn_keeps (A : Allows P m) (h : m &&& 65536 = 65536) :
    ∀ x0 x1 x2 x3 s, P s → P (noteLearn x0 x1 x2 x3 s) := by
  have A := A.mono h
  clear h
  have kModFwd := modFwd_keeps A rfl
  intro x0 x1 x2 x3 s  hs
  unfold noteLearn
  repeat' first
    | with_reducible first
        | assumption | refine kModFwd _ _  ?_
    | (extract_lets -underBinder +onlyGivenNames x; refine keeps_fact (P := P) (v := x) ?_ ?_; rotate_left; clear_value x; revert x; intro _ _; rotate_left; unfold x; clear x)
    | (extract_lets -underBinder +onlyGivenNames x; clear_value x; revert x; intro _)
    | intro _

theorem fillCopy_keeps (A : Allows P m) (h : m &&& 4204544 = 4204544) :
    ∀ x0 s, P s → ∀ t, fillCopy x0 s = some t → P t := by
  have A := A.mono h
  clear h
  have kAllocChain := allocChain_keeps A rfl
  have kModPkt := modPkt_keeps A rfl
  intro x0 s  hs
  intro t e
  unfold fillCopy at e
  repeat' first
    | cases e | split at e | dsimp only at e
    | with_reducible first
        | assumption | refine kAllocChain _ _ _ _ _ _ _  ?_ _ _ (by assumption) | refine kModPkt _ _ _  ?_
    | intro _
    | split
    | with_reducible first | refine keeps_pair (by with_reducible assumption) ?_ | refine keeps_triple (by with_reducible assumption) ?_ | refine keeps_pairL (by with_reducible assumption) ?_

theorem sendCopy_keeps (A : Allows P m) (h : m &&& 10366662944 = 10366662944) :
    ∀ x0 x1 s, P s → P (sendCopy x0 x1 s) := by
  have A := A.mono h
  clear h
  have kQueueFrame := queueFrame_keeps A rfl
  have kPuntRequest := puntRequest_keeps A rfl
  have kCntInc := cntInc_keeps A rfl
  have kEndPkt := endPkt_keeps A rfl
  have kMakeTask := makeTask_keeps A rfl
  intro x0 x1 s  hs
  unfold sendCopy
  repeat' first
    | with_reducible first
        | assumption | refine kQueueFrame _ _ _ _ _ _ _  ?_ | refine kPuntRequest _ _  ?_
        | refine kCntInc _ _ _ _  ?_ | refine kEndPkt _ _  ?_ | refine kMakeTask _ _ _  ?_
    | (extract_lets -underBinder +onlyGivenNames x; refine keeps_fact (P := P) (v := x) ?_ ?_; rotate_left; clear_value x; revert x; intro _ _; rotate_left; unfold x; clear x)
    | (extract_lets -underBinder +onlyGivenNames x; clear_value x; revert x; intro _)
    | split
    | with_reducible first | refine keeps_pair (by with_reducible assumption) ?_ | refine keeps_triple (by with_reducible assumption) ?_ | refine keeps_pairL (by with_reducible assumption) ?_

theorem makeCopy_keeps (A : Allows P m) (h : m &&& 10366679328 = 10366679328) :
    ∀ x0 x1 x2 s, P s → P (makeCopy x0 x1 x2 s) := by
  have A := A.mono h
  clear h
  have kNewPkt := newPkt_keeps A rfl
  have kModBuf := modBuf_keeps A rfl
  have kAskCells := askCells_keeps A rfl
  have kFillCopy := fillCopy_keeps A rfl
  have kSendCopy := sendCopy_keeps A rfl
  intro x0 x1 x2 s  hs
  unfold makeCopy
  repeat' first
    | with_reducible first
        | assumption | refine kNewPkt _ _  ?_ | refine kModBuf _ _  ?_ | refine kAskCells _ _ _  ?_
        | refine kFillCopy _ _  ?_ _ (by assumption) | refine kSendCopy _ _ _  ?_
    | (extract_lets -underBinder +onlyGivenNames x; refine keeps_fact (P := P) (v := x) ?_ ?_; rotate_left; clear_value x; revert x; intro _ _; rotate_left; unfold x; clear x)
    | (extract_lets -underBinder +onlyGivenNames x; have h := fun a => x a; clear h; unfold x; clear x)
    | (extract_lets -underBinder +onlyGivenNames x; clear_value x; revert x; intro _)
    | intro _
    | split
    | with_reducible first | refine keeps_pair (by with_reducible assumption) ?_ | refine keeps_triple (by with_reducible assumption) ?_ | refine keeps_pairL (by with_reducible assumption) ?_

theorem serveCopies_keeps (A : Allows P m) (h : m &&& 10366662944 = 10366662944) :
    ∀ x0 x1 s, P s → P (serveCopies x0 x1 s) := by
  have A := A.mono h
  intro p n
  induction n with
  | zero => exact fun s hs => hs
  | succ n ih =>
    intro s hs
    unfold serveCopies
    split
    · exact hs
    · split
      · exact hs
      · rename_i c _
        split
        · rename_i e
          exact keeps_pair e (askCells_keeps A rfl _ _ s hs)
        · rename_i e
          have h1 := keeps_pair e (askCells_keeps A rfl _ _ s hs)
          split
          · exact h1
          · rename_i e2
            exact ih _ (sendCopy_keeps A rfl _ _ _ (modBuf_keeps A rfl _ _ (fillCopy_keeps A rfl _ _ h1 _ e2)))

theorem puntCopy_keeps (A : Allows P m) (h : m &&& 10366679328 = 10366679328) :
    ∀ x0 x1 x2 x3 x4 x5 s, P s → P (puntCopy x0 x1 x2 x3 x4 x5 s) := by
  have A := A.mono h
  clear h
  have kMakeCopy := makeCopy_keeps A rfl
  intro x0 x1 x2 x3 x4 x5 s  hs
  unfold puntCopy
  repeat' first
    | with_reducible first
        | assumption | refine kMakeCopy _ _ _ _  ?_
    | split
    | with_reducible first | refine keeps_pair (by with_reducible assumption) ?_ | refine keeps_triple (by with_reducible assumption) ?_ | refine keeps_pairL (by with_reducible assumption) ?_

theorem sessionCopy_keeps (A : Allows P m) (h : m &&& 10366679328 = 10366679328) :
    ∀ x0 x1 x2 s, P s → P (sessionCopy x0 x1 x2 s) := by
  have A := A.mono h
  clear h
  have kCntInc := cntInc_keeps A rfl
  have kMakeCopy := makeCopy_keeps A rfl
  have kPuntCopy := puntCopy_keeps A rfl
  intro x0 x1 x2 s  hs
  unfold sessionCopy
  repeat' first
    | with_reducible first
        | assumption | refine kCntInc _ _ _ _  ?_ | refine kMakeCopy _ _ _ _  ?_
        | refine kPuntCopy _ _ _ _ _ _ _  ?_
    | (extract_lets -underBinder +onlyGivenNames x; refine keeps_fact (P := P) (v := x) ?_ ?_; rotate_left; clear_value x; revert x; intro _ _; rotate_left; unfold x; clear x)
    | (extract_lets -underBinder +onlyGivenNames x; have h := fun a => x a; clear h; unfold x; clear x)
    | (extract_lets -underBinder +onlyGivenNames x; clear_value x; revert x; intro _)
    | split
    | with_reducible first | refine keeps_pair (by with_reducible assumption) ?_ | refine keeps_triple (by with_reducible assumption) ?_ | refine keeps_pairL (by with_reducible assumption) ?_

theorem nameSession_keeps (A : Allows P m) (h : m &&& 10366679328 = 10366679328) :
    ∀ x0 x1 x2 s, P s → P (nameSession x0 x1 x2 s) := by
  have A := A.mono h
  clear h
  have kModBuf := modBuf_keeps A rfl
  have kSessionCopy := sessionCopy_keeps A rfl
  intro x0 x1 x2 s  hs
  unfold nameSession
  repeat' first
    | with_reducible first
        | assumption | refine kModBuf _ _  ?_ | refine kSessionCopy _ _ _ _  ?_
    | (extract_lets -underBinder +onlyGivenNames x; refine keeps_fact (P := P) (v := x) ?_ ?_; rotate_left; clear_value x; revert x; intro _ _; rotate_left; unfold x; clear x)
    | (extract_lets -underBinder +onlyGivenNames x; clear_value x; revert x; intro _)
    | intro _
    | split
    | with_reducible first | refine keeps_pair (by with_reducible assumption) ?_ | refine keeps_triple (by with_reducible assumption) ?_ | refine keeps_pairL (by with_reducible assumption) ?_

theorem learnPass_keeps (A : Allows P m) (h : m &&& 10366745376 = 10366745376) :
    ∀ x0 x1 s, P s → P (learnPass x0 x1 s) := by
  have A := A.mono h
  clear h
  have kCntInc := cntInc_keeps A rfl
  have kNoteLearn := noteLearn_keeps A rfl
  have kPuntCopy := puntCopy_keeps A rfl
  have kSendLearn := sendLearn_keeps A rfl
  have kTPut := tPut_keeps A rfl
  intro x0 x1 s  hs
  unfold learnPass
  repeat' first
    | with_reducible first
        | assumption | refine kCntInc _ _ _ _  ?_ | refine kNoteLearn _ _ _ _ _  ?_
        | refine kPuntCopy _ _ _ _ _ _ _  ?_ | refine kSendLearn _ _ _  ?_ | refine kTPut _ _ _ _ _  ?_
    | (extract_lets -underBinder +onlyGivenNames x; refine keeps_fact (P := P) (v := x) ?_ ?_; rotate_left; clear_value x; revert x; intro _ _; rotate_left; unfold x; clear x)
    | (extract_lets -underBinder +onlyGivenNames x; clear_value x; revert x; intro _)
    | split
    | with_reducible first | refine keeps_pair (by with_reducible assumption) ?_ | refine keeps_triple (by with_reducible assumption) ?_ | refine keeps_pairL (by with_reducible assumption) ?_

theorem countPass_keeps (A : Allows P m) (h : m &&& 131072 = 131072) :
    ∀ x0 x1 s, P s → P (countPass x0 x1 s) := by
  have A := A.mono h
  clear h
  have kModSlice := modSlice_keeps A rfl
  have kModReplica := modReplica_keeps A rfl
  have kSendDelta := sendDelta_keeps A rfl
  intro x0 x1 s  hs
  unfold countPass
  repeat' first
    | with_reducible first
        | assumption | refine kModSlice _ _ _  ?_ | refine kModReplica _ _ _ _  ?_ | refine kSendDelta _ _ _  ?_
    | (extract_lets -underBinder +onlyGivenNames x; refine keeps_fact (P := P) (v := x) ?_ ?_; rotate_left; clear_value x; revert x; intro _ _; rotate_left; unfold x; clear x)
    | (extract_lets -underBinder +onlyGivenNames x; clear_value x; revert x; intro _)
    | intro _
    | split
    | with_reducible first | refine keeps_pair (by with_reducible assumption) ?_ | refine keeps_triple (by with_reducible assumption) ?_ | refine keeps_pairL (by with_reducible assumption) ?_

theorem settlePass_keeps (A : Allows P m) (h : m &&& 10366745376 = 10366745376) :
    ∀ x0 x1 s, P s → P (settlePass x0 x1 s) := by
  have A := A.mono h
  clear h
  have kCntAdd := cntAdd_keeps A rfl
  have kCntInc := cntInc_keeps A rfl
  have kSpecCnt := specCnt_keeps A rfl
  have kLearnPass := learnPass_keeps A rfl
  have kCountPass := countPass_keeps A rfl
  intro x0 x1 s  hs
  unfold settlePass
  repeat' first
    | with_reducible first
        | assumption | refine kCntAdd _ _ _ _ _  ?_ | refine kCntInc _ _ _ _  ?_ | refine kSpecCnt _ _ _ _  ?_
        | refine kLearnPass _ _ _  ?_ | refine kCountPass _ _ _  ?_
        | refine each_keeps _ _ (fun _ _ _ => ?_) _ ?_
    | (extract_lets -underBinder +onlyGivenNames x; refine keeps_fact (P := P) (v := x) ?_ ?_; rotate_left; clear_value x; revert x; intro _ _; rotate_left; unfold x; clear x)
    | (extract_lets -underBinder +onlyGivenNames x; clear_value x; revert x; intro _)
    | intro _
    | split
    | with_reducible first | refine keeps_pair (by with_reducible assumption) ?_ | refine keeps_triple (by with_reducible assumption) ?_ | refine keeps_pairL (by with_reducible assumption) ?_

theorem finishPkt_keeps (A : Allows P m) (h : m &&& 10358274336 = 10358274336) :
    ∀ x0 s, P s → P (finishPkt x0 s) := by
  have A := A.mono h
  clear h
  have kDropFrame := dropFrame_keeps A rfl
  have kPuntPkt := puntPkt_keeps A rfl
  have kMakeTask := makeTask_keeps A rfl
  have kForgetPasses := forgetPasses_keeps A rfl
  have kModPkt := modPkt_keeps A rfl
  intro x0 s  hs
  unfold finishPkt
  repeat' first
    | with_reducible first
        | assumption | refine kDropFrame _ _ _  ?_ | refine kPuntPkt _ _ _ _  ?_ | refine kMakeTask _ _ _  ?_
        | refine kForgetPasses _ _  ?_ | refine kModPkt _ _ _  ?_
    | (extract_lets -underBinder +onlyGivenNames x; refine keeps_fact (P := P) (v := x) ?_ ?_; rotate_left; clear_value x; revert x; intro _ _; rotate_left; unfold x; clear x)
    | (extract_lets -underBinder +onlyGivenNames x; clear_value x; revert x; intro _)
    | intro _
    | split
    | with_reducible first | refine keeps_pair (by with_reducible assumption) ?_ | refine keeps_triple (by with_reducible assumption) ?_ | refine keeps_pairL (by with_reducible assumption) ?_

theorem settle_keeps (A : Allows P m) (h : m &&& 10366745376 = 10366745376) :
    ∀ x0 s, P s → P (settle x0 s) := by
  have A := A.mono h
  clear h
  have kCountSquashes := countSquashes_keeps A rfl
  have kModPkt := modPkt_keeps A rfl
  have kPayOwed := payOwed_keeps A rfl
  have kCountArrival := countArrival_keeps A rfl
  have kCntInc := cntInc_keeps A rfl
  have kSettlePass := settlePass_keeps A rfl
  have kNameSession := nameSession_keeps A rfl
  have kFinishPkt := finishPkt_keeps A rfl
  intro x0 s  hs
  unfold settle
  repeat' first
    | with_reducible first
        | assumption | refine kCountSquashes _ _  ?_ | refine kModPkt _ _ _  ?_ | refine kPayOwed _ _  ?_
        | refine kCountArrival _ _  ?_ | refine kCntInc _ _ _ _  ?_ | refine kSettlePass _ _ _  ?_
        | refine kNameSession _ _ _ _  ?_ | refine kFinishPkt _ _  ?_
        | refine each_keeps _ _ (fun _ _ _ => ?_) _ ?_
    | (extract_lets -underBinder +onlyGivenNames x; refine keeps_fact (P := P) (v := x) ?_ ?_; rotate_left; clear_value x; revert x; intro _ _; rotate_left; unfold x; clear x)
    | (extract_lets -underBinder +onlyGivenNames x; clear_value x; revert x; intro _)
    | intro _
    | split
    | with_reducible first | refine keeps_pair (by with_reducible assumption) ?_ | refine keeps_triple (by with_reducible assumption) ?_ | refine keeps_pairL (by with_reducible assumption) ?_

theorem checkFlow_keeps (A : Allows P m) (h : m &&& 10366745376 = 10366745376) :
    ∀ x0 s, P s → P (checkFlow x0 s) := by
  have A := A.mono h
  clear h
  have kSettle := settle_keeps A rfl
  have kLeaveEpoch := leaveEpoch_keeps A rfl
  have kModPkt := modPkt_keeps A rfl
  intro x0 s  hs
  unfold checkFlow
  repeat' first
    | with_reducible first
        | assumption | refine kSettle _ _  ?_ | refine kLeaveEpoch _ _  ?_ | refine kModPkt _ _ _  ?_
    | (extract_lets -underBinder +onlyGivenNames x; refine keeps_fact (P := P) (v := x) ?_ ?_; rotate_left; clear_value x; revert x; intro _ _; rotate_left; unfold x; clear x)
    | (extract_lets -underBinder +onlyGivenNames x; clear_value x; revert x; intro _)
    | intro _
    | split
    | with_reducible first | refine keeps_pair (by with_reducible assumption) ?_ | refine keeps_triple (by with_reducible assumption) ?_ | refine keeps_pairL (by with_reducible assumption) ?_

theorem confirmPasses_keeps (A : Allows P m) (h : m &&& 10366745376 = 10366745376) :
    ∀ x0 s, P s → P (confirmPasses x0 s) := by
  have A := A.mono h
  clear h
  have kPokeWaits := pokeWaits_keeps A rfl
  have kSyncSpec := syncSpec_keeps A rfl
  have kCheckFlow := checkFlow_keeps A rfl
  have kModPass := modPass_keeps A rfl
  intro x0 s  hs
  unfold confirmPasses
  repeat' first
    | with_reducible first
        | assumption | refine kPokeWaits _ _  ?_ | refine kSyncSpec _ _  ?_ | refine kCheckFlow _ _  ?_
        | refine kModPass _ _ _ _ _  ?_ | refine each_keeps _ _ (fun _ _ _ => ?_) _ ?_
    | intro _
    | split
    | with_reducible first | refine keeps_pair (by with_reducible assumption) ?_ | refine keeps_triple (by with_reducible assumption) ?_ | refine keeps_pairL (by with_reducible assumption) ?_

end Sys2Proof.Laws
end

