-- ==== Sys2Proof/Laws/TimeCmd.lean ====
section
/-! SUPPORT. What each operation of Machine/TimeCmd.lean can change (Laws/Keeps.lean). -/

namespace Sys2Proof.Laws

open Sys2Proof.Machine

variable {P : State → Prop} {m : Nat}

theorem loseTraceable_keeps (A : Allows P m) (h : m &&& 10368325920 = 10368325920) :
    ∀ s, P s → P (loseTraceable s) := by
  have A := A.mono h
  clear h
  have kRaise := raise_keeps A rfl
  have kModTim := modTim_keeps A rfl
  intro s  hs
  unfold loseTraceable
  repeat' first
    | with_reducible first
        | assumption | refine kRaise _ _ _ _ _ _ _  ?_ | refine kModTim _ _  ?_
    | intro _
    | split

theorem countHoldover_keeps (A : Allows P m) (h : m &&& 33556480 = 33556480) :
    ∀ s, P s → P (countHoldover s) := by
  have A := A.mono h
  clear h
  have kCntAdd := cntAdd_keeps A rfl
  have kModTim := modTim_keeps A rfl
  intro s  hs
  unfold countHoldover
  repeat' first
    | with_reducible first
        | assumption | refine kCntAdd _ _ _ _ _  ?_ | refine kModTim _ _  ?_
    | (extract_lets -underBinder +onlyGivenNames x; refine keeps_fact (P := P) (v := x) ?_ ?_; rotate_left; clear_value x; revert x; intro _ _; rotate_left; unfold x; clear x)
    | (extract_lets -underBinder +onlyGivenNames x; clear_value x; revert x; intro _)
    | intro _
    | split

theorem endHoldover_keeps (A : Allows P m) (h : m &&& 33556480 = 33556480) :
    ∀ s, P s → P (endHoldover s) := by
  have A := A.mono h
  clear h
  have kModTim := modTim_keeps A rfl
  have kCountHoldover := countHoldover_keeps A rfl
  intro s  hs
  unfold endHoldover
  repeat' first
    | with_reducible first
        | assumption | refine kModTim _ _  ?_ | refine kCountHoldover _  ?_
    | intro _

theorem setTout_keeps (A : Allows P m) (h : m &&& 33554432 = 33554432) :
    ∀ x0 x1 s, P s → P (setTout x0 x1 s) := by
  have A := A.mono h
  clear h
  have kModTim := modTim_keeps A rfl
  intro x0 x1 s  hs
  unfold setTout
  repeat' first
    | with_reducible first
        | assumption | refine kModTim _ _  ?_
    | (extract_lets -underBinder +onlyGivenNames x; refine keeps_fact (P := P) (v := x) ?_ ?_; rotate_left; clear_value x; revert x; intro _ _; rotate_left; unfold x; clear x)
    | (extract_lets -underBinder +onlyGivenNames x; clear_value x; revert x; intro _)
    | intro _
    | split
    | with_reducible first | refine keeps_pair (by with_reducible assumption) ?_ | refine keeps_triple (by with_reducible assumption) ?_ | refine keeps_pairL (by with_reducible assumption) ?_

theorem setToutNew_keeps (A : Allows P m) (h : m &&& 33554432 = 33554432) :
    ∀ x0 x1 s, P s → P (setToutNew x0 x1 s) := by
  have A := A.mono h
  clear h
  have kModTim := modTim_keeps A rfl
  intro x0 x1 s  hs
  unfold setToutNew
  repeat' first
    | with_reducible first
        | assumption | refine kModTim _ _  ?_
    | (extract_lets -underBinder +onlyGivenNames x; refine keeps_fact (P := P) (v := x) ?_ ?_; rotate_left; clear_value x; revert x; intro _ _; rotate_left; unfold x; clear x)
    | (extract_lets -underBinder +onlyGivenNames x; clear_value x; revert x; intro _)
    | intro _
    | split
    | with_reducible first | refine keeps_pair (by with_reducible assumption) ?_ | refine keeps_triple (by with_reducible assumption) ?_ | refine keeps_pairL (by with_reducible assumption) ?_

theorem drive_keeps (A : Allows P m) (h : m &&& 33554432 = 33554432) :
    ∀ x0 x1 x2 s, P s → P (drive x0 x1 x2 s) := by
  have A := A.mono h
  clear h
  have kModTim := modTim_keeps A rfl
  intro x0 x1 x2 s  hs
  unfold drive
  repeat' first
    | with_reducible first
        | assumption | refine kModTim _ _  ?_
    | (extract_lets -underBinder +onlyGivenNames x; refine keeps_fact (P := P) (v := x) ?_ ?_; rotate_left; clear_value x; revert x; intro _ _; rotate_left; unfold x; clear x)
    | (extract_lets -underBinder +onlyGivenNames x; clear_value x; revert x; intro _)
    | intro _
    | split

theorem runTout_keeps (A : Allows P m) (h : m &&& 33554432 = 33554432) :
    ∀ x0 x1 s, P s → P (runTout x0 x1 s).2 := by
  have A := A.mono h
  clear h
  have kSetToutNew := setToutNew_keeps A rfl
  have kSetTout := setTout_keeps A rfl
  have kDrive := drive_keeps A rfl
  intro x0 x1 s  hs
  unfold runTout
  repeat' first
    | with_reducible first
        | assumption | refine kSetToutNew _ _ _  ?_ | refine kSetTout _ _ _  ?_ | refine kDrive _ _ _ _  ?_
    | (extract_lets -underBinder +onlyGivenNames x; refine keeps_fact (P := P) (v := x) ?_ ?_; rotate_left; clear_value x; revert x; intro _ _; rotate_left; unfold x; clear x)
    | (extract_lets -underBinder +onlyGivenNames x; clear_value x; revert x; intro _)
    | split
    | with_reducible first | refine keeps_pair (by with_reducible assumption) ?_ | refine keeps_triple (by with_reducible assumption) ?_ | refine keeps_pairL (by with_reducible assumption) ?_

theorem toutDrive_keeps (A : Allows P m) (h : m &&& 10368325920 = 10368325920) :
    ∀ x0 x1 s, P s → P (toutDrive x0 x1 s) := by
  have A := A.mono h
  clear h
  have kDrive := drive_keeps A rfl
  have kSetTout := setTout_keeps A rfl
  have kRaise := raise_keeps A rfl
  intro x0 x1 s  hs
  unfold toutDrive
  repeat' first
    | with_reducible first
        | assumption | refine kDrive _ _ _ _  ?_ | refine kSetTout _ _ _  ?_ | refine kRaise _ _ _ _ _ _ _  ?_
    | (extract_lets -underBinder +onlyGivenNames x; refine keeps_fact (P := P) (v := x) ?_ ?_; rotate_left; clear_value x; revert x; intro _ _; rotate_left; unfold x; clear x)
    | (extract_lets -underBinder +onlyGivenNames x; clear_value x; revert x; intro _)
    | split

theorem toutEdge_keeps (A : Allows P m) (h : m &&& 10368325920 = 10368325920) :
    ∀ x0 s, P s → P (toutEdge x0 s) := by
  have A := A.mono h
  clear h
  have kToutDrive := toutDrive_keeps A rfl
  have kSetToutNew := setToutNew_keeps A rfl
  intro x0 s  hs
  unfold toutEdge
  repeat' first
    | with_reducible first
        | assumption | refine kToutDrive _ _ _  ?_ | refine kSetToutNew _ _ _  ?_
    | (extract_lets -underBinder +onlyGivenNames x; refine keeps_fact (P := P) (v := x) ?_ ?_; rotate_left; clear_value x; revert x; intro _ _; rotate_left; unfold x; clear x)
    | (extract_lets -underBinder +onlyGivenNames x; have h := fun a => x a; clear h; unfold x; clear x)
    | (extract_lets -underBinder +onlyGivenNames x; clear_value x; revert x; intro _)
    | intro _
    | split
    | with_reducible first | refine keeps_pair (by with_reducible assumption) ?_ | refine keeps_triple (by with_reducible assumption) ?_ | refine keeps_pairL (by with_reducible assumption) ?_

theorem stopTouts_keeps (A : Allows P m) (h : m &&& 33554432 = 33554432) :
    ∀ s, P s → P (stopTouts s) := by
  have A := A.mono h
  clear h
  have kDrive := drive_keeps A rfl
  have kModTim := modTim_keeps A rfl
  intro s  hs
  unfold stopTouts
  repeat' first
    | with_reducible first
        | assumption | refine kDrive _ _ _ _  ?_ | refine kModTim _ _  ?_
        | refine each_keeps _ _ (fun _ _ _ => ?_) _ ?_
    | (extract_lets -underBinder +onlyGivenNames x; refine keeps_fact (P := P) (v := x) ?_ ?_; rotate_left; clear_value x; revert x; intro _ _; rotate_left; unfold x; clear x)
    | (extract_lets -underBinder +onlyGivenNames x; clear_value x; revert x; intro _)
    | intro _
    | split
    | with_reducible first | refine keeps_pair (by with_reducible assumption) ?_ | refine keeps_triple (by with_reducible assumption) ?_ | refine keeps_pairL (by with_reducible assumption) ?_

theorem stepTout_keeps (A : Allows P m) (h : m &&& 33554432 = 33554432) :
    ∀ x0 x1 x2 s, P s → P (stepTout x0 x1 x2 s) := by
  have A := A.mono h
  clear h
  have kSetTout := setTout_keeps A rfl
  have kDrive := drive_keeps A rfl
  have kSetToutNew := setToutNew_keeps A rfl
  intro x0 x1 x2 s  hs
  unfold stepTout
  repeat' first
    | with_reducible first
        | assumption | refine kSetTout _ _ _  ?_ | refine kDrive _ _ _ _  ?_ | refine kSetToutNew _ _ _  ?_
    | (extract_lets -underBinder +onlyGivenNames x; refine keeps_fact (P := P) (v := x) ?_ ?_; rotate_left; clear_value x; revert x; intro _ _; rotate_left; unfold x; clear x)
    | (extract_lets -underBinder +onlyGivenNames x; clear_value x; revert x; intro _)
    | split
    | with_reducible first | refine keeps_pair (by with_reducible assumption) ?_ | refine keeps_triple (by with_reducible assumption) ?_ | refine keeps_pairL (by with_reducible assumption) ?_

theorem runTimeRead_keeps (A : Allows P m) (h : m &&& 0 = 0) :
    ∀ x0 s, P s → P (runTimeRead x0 s).2 := by
  have A := A.mono h
  clear h
  intro x0 s  hs
  unfold runTimeRead
  repeat' first
    | with_reducible first
        | assumption

theorem runTimeStep_keeps (A : Allows P m) (h : m &&& 10385103136 = 10385103136) :
    ∀ x0 x1 x2 x3 s, P s → P (runTimeStep x0 x1 x2 x3 s).2 := by
  have A := A.mono h
  clear h
  have kCntInc := cntInc_keeps A rfl
  have kModTim := modTim_keeps A rfl
  have kRaise := raise_keeps A rfl
  have kRestartGates := restartGates_keeps A rfl
  have kStepTout := stepTout_keeps A rfl
  intro x0 x1 x2 x3 s  hs
  unfold runTimeStep
  repeat' first
    | with_reducible first
        | assumption | refine kCntInc _ _ _ _  ?_ | refine kModTim _ _  ?_ | refine kRaise _ _ _ _ _ _ _  ?_
        | refine kRestartGates _  ?_ | refine kStepTout _ _ _ _  ?_
        | refine each_keeps _ _ (fun _ _ _ => ?_) _ ?_
    | (extract_lets -underBinder +onlyGivenNames x; refine keeps_fact (P := P) (v := x) ?_ ?_; rotate_left; clear_value x; revert x; intro _ _; rotate_left; unfold x; clear x)
    | (extract_lets -underBinder +onlyGivenNames x; clear_value x; revert x; intro _)
    | intro _
    | split
    | with_reducible first | refine keeps_pair (by with_reducible assumption) ?_ | refine keeps_triple (by with_reducible assumption) ?_ | refine keeps_pairL (by with_reducible assumption) ?_

theorem runTimeRate_keeps (A : Allows P m) (h : m &&& 33554432 = 33554432) :
    ∀ x0 x1 s, P s → P (runTimeRate x0 x1 s).2 := by
  have A := A.mono h
  clear h
  have kModTim := modTim_keeps A rfl
  intro x0 x1 s  hs
  unfold runTimeRate
  repeat' first
    | with_reducible first
        | assumption | refine kModTim _ _  ?_
    | intro _

theorem runMarkTraceable_keeps (A : Allows P m) (h : m &&& 10368325920 = 10368325920) :
    ∀ x0 s, P s → P (runMarkTraceable x0 s).2 := by
  have A := A.mono h
  clear h
  have kRaise := raise_keeps A rfl
  have kModTim := modTim_keeps A rfl
  intro x0 s  hs
  unfold runMarkTraceable
  repeat' first
    | with_reducible first
        | assumption | refine kRaise _ _ _ _ _ _ _  ?_ | refine kModTim _ _  ?_
    | intro _
    | split

theorem runPeerDelay_keeps (A : Allows P m) (h : m &&& 33554432 = 33554432) :
    ∀ x0 x1 x2 s, P s → P (runPeerDelay x0 x1 x2 s).2 := by
  have A := A.mono h
  clear h
  have kModTim := modTim_keeps A rfl
  intro x0 x1 x2 s  hs
  unfold runPeerDelay
  repeat' first
    | with_reducible first
        | assumption | refine kModTim _ _  ?_
    | intro _
    | split

theorem setSynce_keeps (A : Allows P m) (h : m &&& 33554432 = 33554432) :
    ∀ x0 x1 s, P s → P (setSynce x0 x1 s) := by
  have A := A.mono h
  clear h
  have kModTim := modTim_keeps A rfl
  intro x0 x1 s  hs
  unfold setSynce
  repeat' first
    | with_reducible first
        | assumption | refine kModTim _ _  ?_
    | (extract_lets -underBinder +onlyGivenNames x; refine keeps_fact (P := P) (v := x) ?_ ?_; rotate_left; clear_value x; revert x; intro _ _; rotate_left; unfold x; clear x)
    | (extract_lets -underBinder +onlyGivenNames x; clear_value x; revert x; intro _)
    | intro _
    | split
    | with_reducible first | refine keeps_pair (by with_reducible assumption) ?_ | refine keeps_triple (by with_reducible assumption) ?_ | refine keeps_pairL (by with_reducible assumption) ?_

theorem squelch_keeps (A : Allows P m) (h : m &&& 10368325920 = 10368325920) :
    ∀ x0 s, P s → P (squelch x0 s) := by
  have A := A.mono h
  clear h
  have kRaise := raise_keeps A rfl
  have kCntInc := cntInc_keeps A rfl
  have kSetSynce := setSynce_keeps A rfl
  intro x0 s  hs
  unfold squelch
  repeat' first
    | with_reducible first
        | assumption | refine kRaise _ _ _ _ _ _ _  ?_ | refine kCntInc _ _ _ _  ?_ | refine kSetSynce _ _ _  ?_
    | (extract_lets -underBinder +onlyGivenNames x; refine keeps_fact (P := P) (v := x) ?_ ?_; rotate_left; clear_value x; revert x; intro _ _; rotate_left; unfold x; clear x)
    | (extract_lets -underBinder +onlyGivenNames x; clear_value x; revert x; intro _)

theorem runSynce_keeps (A : Allows P m) (h : m &&& 10368325920 = 10368325920) :
    ∀ x0 x1 x2 x3 x4 s, P s → P (runSynce x0 x1 x2 x3 x4 s).2 := by
  have A := A.mono h
  clear h
  have kSetSynce := setSynce_keeps A rfl
  have kSquelch := squelch_keeps A rfl
  intro x0 x1 x2 x3 x4 s  hs
  unfold runSynce
  repeat' first
    | with_reducible first
        | assumption | refine kSetSynce _ _ _  ?_ | refine kSquelch _ _  ?_
    | (extract_lets -underBinder +onlyGivenNames x; refine keeps_fact (P := P) (v := x) ?_ ?_; rotate_left; clear_value x; revert x; intro _ _; rotate_left; unfold x; clear x)
    | (extract_lets -underBinder +onlyGivenNames x; clear_value x; revert x; intro _)
    | split

theorem timeUnitReset_keeps (A : Allows P m) (h : m &&& 10385103136 = 10385103136) :
    ∀ x0 s, P s → P (timeUnitReset x0 s) := by
  have A := A.mono h
  clear h
  have kLoseTraceable := loseTraceable_keeps A rfl
  have kStopTouts := stopTouts_keeps A rfl
  have kModTim := modTim_keeps A rfl
  have kHoldGates := holdGates_keeps A rfl
  have kEndHoldover := endHoldover_keeps A rfl
  intro x0 s  hs
  unfold timeUnitReset
  repeat' first
    | with_reducible first
        | assumption | refine kLoseTraceable _  ?_ | refine kStopTouts _  ?_ | refine kModTim _ _  ?_
        | refine kHoldGates _  ?_ | refine kEndHoldover _  ?_
    | (extract_lets -underBinder +onlyGivenNames x; refine keeps_fact (P := P) (v := x) ?_ ?_; rotate_left; clear_value x; revert x; intro _ _; rotate_left; unfold x; clear x)
    | (extract_lets -underBinder +onlyGivenNames x; clear_value x; revert x; intro _)
    | intro _
    | split

theorem latchSnap_keeps (A : Allows P m) (h : m &&& 33554432 = 33554432) :
    ∀ s, P s → P (latchSnap s) := by
  have A := A.mono h
  clear h
  have kModTim := modTim_keeps A rfl
  intro s  hs
  unfold latchSnap
  repeat' first
    | with_reducible first
        | assumption | refine kModTim _ _  ?_
    | intro _

theorem trefLoss_keeps (A : Allows P m) (h : m &&& 10368325920 = 10368325920) :
    ∀ s, P s → P (trefLoss s) := by
  have A := A.mono h
  clear h
  have kModTim := modTim_keeps A rfl
  have kRaise := raise_keeps A rfl
  have kCntInc := cntInc_keeps A rfl
  intro s  hs
  unfold trefLoss
  repeat' first
    | with_reducible first
        | assumption | refine kModTim _ _  ?_ | refine kRaise _ _ _ _ _ _ _  ?_ | refine kCntInc _ _ _ _  ?_
    | (extract_lets -underBinder +onlyGivenNames x; refine keeps_fact (P := P) (v := x) ?_ ?_; rotate_left; clear_value x; revert x; intro _ _; rotate_left; unfold x; clear x)
    | (extract_lets -underBinder +onlyGivenNames x; clear_value x; revert x; intro _)
    | intro _
    | split

theorem trefValid_keeps (A : Allows P m) (h : m &&& 33554432 = 33554432) :
    ∀ s, P s → P (trefValid s) := by
  have A := A.mono h
  clear h
  have kModTim := modTim_keeps A rfl
  intro s  hs
  unfold trefValid
  repeat' first
    | with_reducible first
        | assumption | refine kModTim _ _  ?_
    | intro _

theorem pllLock_keeps (A : Allows P m) (h : m &&& 10368325920 = 10368325920) :
    ∀ s, P s → P (pllLock s) := by
  have A := A.mono h
  clear h
  have kModTim := modTim_keeps A rfl
  have kEndHoldover := endHoldover_keeps A rfl
  have kRaise := raise_keeps A rfl
  intro s  hs
  unfold pllLock
  repeat' first
    | with_reducible first
        | assumption | refine kModTim _ _  ?_ | refine kEndHoldover _  ?_ | refine kRaise _ _ _ _ _ _ _  ?_
    | (extract_lets -underBinder +onlyGivenNames x; refine keeps_fact (P := P) (v := x) ?_ ?_; rotate_left; clear_value x; revert x; intro _ _; rotate_left; unfold x; clear x)
    | (extract_lets -underBinder +onlyGivenNames x; clear_value x; revert x; intro _)
    | intro _
    | split

theorem holdoverLimit_keeps (A : Allows P m) (h : m &&& 10368325920 = 10368325920) :
    ∀ s, P s → P (holdoverLimit s) := by
  have A := A.mono h
  clear h
  have kLoseTraceable := loseTraceable_keeps A rfl
  intro s  hs
  unfold holdoverLimit
  repeat' first
    | with_reducible first
        | assumption | refine kLoseTraceable _  ?_
    | (extract_lets -underBinder +onlyGivenNames x; refine keeps_fact (P := P) (v := x) ?_ ?_; rotate_left; clear_value x; revert x; intro _ _; rotate_left; unfold x; clear x)
    | (extract_lets -underBinder +onlyGivenNames x; clear_value x; revert x; intro _)
    | split

theorem tinEdge_keeps (A : Allows P m) (h : m &&& 10368325920 = 10368325920) :
    ∀ x0 x1 s, P s → P (tinEdge x0 x1 s) := by
  have A := A.mono h
  clear h
  have kCntInc := cntInc_keeps A rfl
  have kModTim := modTim_keeps A rfl
  have kRaise := raise_keeps A rfl
  intro x0 x1 s  hs
  unfold tinEdge
  repeat' first
    | with_reducible first
        | assumption | refine kCntInc _ _ _ _  ?_ | refine kModTim _ _  ?_ | refine kRaise _ _ _ _ _ _ _  ?_
    | (extract_lets -underBinder +onlyGivenNames x; refine keeps_fact (P := P) (v := x) ?_ ?_; rotate_left; clear_value x; revert x; intro _ _; rotate_left; unfold x; clear x)
    | (extract_lets -underBinder +onlyGivenNames x; clear_value x; revert x; intro _)
    | intro _
    | split
    | with_reducible first | refine keeps_pair (by with_reducible assumption) ?_ | refine keeps_triple (by with_reducible assumption) ?_ | refine keeps_pairL (by with_reducible assumption) ?_

theorem synceLaneLoss_keeps (A : Allows P m) (h : m &&& 10368325920 = 10368325920) :
    ∀ x0 s, P s → P (synceLaneLoss x0 s) := by
  have A := A.mono h
  clear h
  have kSetSynce := setSynce_keeps A rfl
  have kSquelch := squelch_keeps A rfl
  intro x0 s  hs
  unfold synceLaneLoss
  repeat' first
    | with_reducible first
        | assumption | refine kSetSynce _ _ _  ?_ | refine kSquelch _ _  ?_
    | (extract_lets -underBinder +onlyGivenNames x; refine keeps_fact (P := P) (v := x) ?_ ?_; rotate_left; clear_value x; revert x; intro _ _; rotate_left; unfold x; clear x)
    | (extract_lets -underBinder +onlyGivenNames x; clear_value x; revert x; intro _)
    | split

theorem synceUnsquelch_keeps (A : Allows P m) (h : m &&& 33554432 = 33554432) :
    ∀ x0 s, P s → P (synceUnsquelch x0 s) := by
  have A := A.mono h
  clear h
  have kSetSynce := setSynce_keeps A rfl
  intro x0 s  hs
  unfold synceUnsquelch
  repeat' first
    | with_reducible first
        | assumption | refine kSetSynce _ _ _  ?_
    | (extract_lets -underBinder +onlyGivenNames x; refine keeps_fact (P := P) (v := x) ?_ ?_; rotate_left; clear_value x; revert x; intro _ _; rotate_left; unfold x; clear x)
    | (extract_lets -underBinder +onlyGivenNames x; clear_value x; revert x; intro _)
    | split

theorem execTimeSetRead_keeps (A : Allows P m) (h : m &&& 6416 = 6416) :
    ∀ x0 s, P s → ∀ t, execTimeSetRead x0 s = .next t → P t := by
  have A := A.mono h
  clear h
  have kCommand := command_keeps A rfl
  have kRunTimeRead := runTimeRead_keeps A rfl
  intro x0 s  hs
  intro t e
  cases e
  repeat' first
    | with_reducible first
        | assumption | refine kCommand _ _ _ ?_ ?_ | refine kRunTimeRead _ _  ?_
        | refine each_keeps _ _ (fun _ _ _ => ?_) _ ?_ | refine foldl_keeps _ _ (fun _ _ _ => ?_) _ ?_
    | (extract_lets -underBinder +onlyGivenNames x; refine keeps_fact (P := P) (v := x) ?_ ?_; rotate_left; clear_value x; revert x; intro _ _; rotate_left; unfold x; clear x)
    | (extract_lets -underBinder +onlyGivenNames x; refine keeps_fact2 (P := P) (v := x) ?_ ?_; rotate_left; clear_value x; revert x; intro _ _; rotate_left; unfold x; clear x)
    | (extract_lets -underBinder +onlyGivenNames x; have h := fun a => x a; clear h; unfold x; clear x)
    | (extract_lets -underBinder +onlyGivenNames x; clear_value x; revert x; intro _)
    | intro _
    | split
    | with_reducible first | refine keeps_pair (by with_reducible assumption) ?_ | refine keeps_triple (by with_reducible assumption) ?_ | refine keeps_pairL (by with_reducible assumption) ?_

theorem execTimeSetStep_keeps (A : Allows P m) (h : m &&& 10385103152 = 10385103152) :
    ∀ x0 x1 x2 x3 s, P s → ∀ t, execTimeSetStep x0 x1 x2 x3 s = .next t → P t := by
  have A := A.mono h
  clear h
  have kCommand := command_keeps A rfl
  have kRunTimeStep := runTimeStep_keeps A rfl
  intro x0 x1 x2 x3 s  hs
  intro t e
  cases e
  repeat' first
    | with_reducible first
        | assumption | refine kCommand _ _ _ ?_ ?_ | refine kRunTimeStep _ _ _ _ _  ?_
    | (extract_lets -underBinder +onlyGivenNames x; refine keeps_fact (P := P) (v := x) ?_ ?_; rotate_left; clear_value x; revert x; intro _ _; rotate_left; unfold x; clear x)
    | (extract_lets -underBinder +onlyGivenNames x; clear_value x; revert x; intro _)
    | intro _
    | split
    | with_reducible first | refine keeps_pair (by with_reducible assumption) ?_ | refine keeps_triple (by with_reducible assumption) ?_ | refine keeps_pairL (by with_reducible assumption) ?_

theorem execTimeSetRate_keeps (A : Allows P m) (h : m &&& 33560848 = 33560848) :
    ∀ x0 x1 s, P s → ∀ t, execTimeSetRate x0 x1 s = .next t → P t := by
  have A := A.mono h
  clear h
  have kCommand := command_keeps A rfl
  have kRunTimeRate := runTimeRate_keeps A rfl
  intro x0 x1 s  hs
  intro t e
  cases e
  repeat' first
    | with_reducible first
        | assumption | refine kCommand _ _ _ ?_ ?_ | refine kRunTimeRate _ _ _  ?_
    | (extract_lets -underBinder +onlyGivenNames x; refine keeps_fact (P := P) (v := x) ?_ ?_; rotate_left; clear_value x; revert x; intro _ _; rotate_left; unfold x; clear x)
    | (extract_lets -underBinder +onlyGivenNames x; clear_value x; revert x; intro _)
    | intro _
    | split
    | with_reducible first | refine keeps_pair (by with_reducible assumption) ?_ | refine keeps_triple (by with_reducible assumption) ?_ | refine keeps_pairL (by with_reducible assumption) ?_

theorem execTimeSetMarkTraceable_keeps (A : Allows P m) (h : m &&& 10368325936 = 10368325936) :
    ∀ x0 s, P s → ∀ t, execTimeSetMarkTraceable x0 s = .next t → P t := by
  have A := A.mono h
  clear h
  have kCommand := command_keeps A rfl
  have kRunMarkTraceable := runMarkTraceable_keeps A rfl
  intro x0 s  hs
  intro t e
  cases e
  repeat' first
    | with_reducible first
        | assumption | refine kCommand _ _ _ ?_ ?_ | refine kRunMarkTraceable _ _  ?_
    | (extract_lets -underBinder +onlyGivenNames x; refine keeps_fact (P := P) (v := x) ?_ ?_; rotate_left; clear_value x; revert x; intro _ _; rotate_left; unfold x; clear x)
    | (extract_lets -underBinder +onlyGivenNames x; clear_value x; revert x; intro _)
    | intro _
    | split
    | with_reducible first | refine keeps_pair (by with_reducible assumption) ?_ | refine keeps_triple (by with_reducible assumption) ?_ | refine keeps_pairL (by with_reducible assumption) ?_

theorem execTimeSetTout_keeps (A : Allows P m) (h : m &&& 33560848 = 33560848) :
    ∀ x0 x1 s, P s → ∀ t, execTimeSetTout x0 x1 s = .next t → P t := by
  have A := A.mono h
  clear h
  have kCommand := command_keeps A rfl
  have kRunTout := runTout_keeps A rfl
  intro x0 x1 s  hs
  intro t e
  cases e
  repeat' first
    | with_reducible first
        | assumption | refine kCommand _ _ _ ?_ ?_ | refine kRunTout _ _ _  ?_
    | (extract_lets -underBinder +onlyGivenNames x; refine keeps_fact (P := P) (v := x) ?_ ?_; rotate_left; clear_value x; revert x; intro _ _; rotate_left; unfold x; clear x)
    | (extract_lets -underBinder +onlyGivenNames x; clear_value x; revert x; intro _)
    | intro _
    | split
    | with_reducible first | refine keeps_pair (by with_reducible assumption) ?_ | refine keeps_triple (by with_reducible assumption) ?_ | refine keeps_pairL (by with_reducible assumption) ?_

theorem execTimeSetPeerDelay_keeps (A : Allows P m) (h : m &&& 33560848 = 33560848) :
    ∀ x0 x1 x2 s, P s → ∀ t, execTimeSetPeerDelay x0 x1 x2 s = .next t → P t := by
  have A := A.mono h
  clear h
  have kCommand := command_keeps A rfl
  have kRunPeerDelay := runPeerDelay_keeps A rfl
  intro x0 x1 x2 s  hs
  intro t e
  cases e
  repeat' first
    | with_reducible first
        | assumption | refine kCommand _ _ _ ?_ ?_ | refine kRunPeerDelay _ _ _ _  ?_
    | (extract_lets -underBinder +onlyGivenNames x; refine keeps_fact (P := P) (v := x) ?_ ?_; rotate_left; clear_value x; revert x; intro _ _; rotate_left; unfold x; clear x)
    | (extract_lets -underBinder +onlyGivenNames x; clear_value x; revert x; intro _)
    | intro _
    | split
    | with_reducible first | refine keeps_pair (by with_reducible assumption) ?_ | refine keeps_triple (by with_reducible assumption) ?_ | refine keeps_pairL (by with_reducible assumption) ?_

theorem execTimeSetSynce_keeps (A : Allows P m) (h : m &&& 10368325936 = 10368325936) :
    ∀ x0 x1 x2 x3 x4 s, P s → ∀ t, execTimeSetSynce x0 x1 x2 x3 x4 s = .next t → P t := by
  have A := A.mono h
  clear h
  have kCommand := command_keeps A rfl
  have kRunSynce := runSynce_keeps A rfl
  intro x0 x1 x2 x3 x4 s  hs
  intro t e
  cases e
  repeat' first
    | with_reducible first
        | assumption | refine kCommand _ _ _ ?_ ?_ | refine kRunSynce _ _ _ _ _ _  ?_
    | (extract_lets -underBinder +onlyGivenNames x; refine keeps_fact (P := P) (v := x) ?_ ?_; rotate_left; clear_value x; revert x; intro _ _; rotate_left; unfold x; clear x)
    | (extract_lets -underBinder +onlyGivenNames x; clear_value x; revert x; intro _)
    | intro _
    | split
    | with_reducible first | refine keeps_pair (by with_reducible assumption) ?_ | refine keeps_triple (by with_reducible assumption) ?_ | refine keeps_pairL (by with_reducible assumption) ?_

theorem execTrefLoss_keeps (A : Allows P m) (h : m &&& 10368325920 = 10368325920) :
    ∀ s, P s → ∀ t, execTrefLoss s = .next t → P t := by
  have A := A.mono h
  clear h
  have kTrefLoss := trefLoss_keeps A rfl
  intro s  hs
  intro t e
  cases e
  repeat' first
    | with_reducible first
        | assumption | refine kTrefLoss _  ?_
    | (extract_lets -underBinder +onlyGivenNames x; refine keeps_fact (P := P) (v := x) ?_ ?_; rotate_left; clear_value x; revert x; intro _ _; rotate_left; unfold x; clear x)
    | (extract_lets -underBinder +onlyGivenNames x; clear_value x; revert x; intro _)
    | intro _
    | split
    | with_reducible first | refine keeps_pair (by with_reducible assumption) ?_ | refine keeps_triple (by with_reducible assumption) ?_ | refine keeps_pairL (by with_reducible assumption) ?_

theorem execTrefValid_keeps (A : Allows P m) (h : m &&& 33554432 = 33554432) :
    ∀ s, P s → ∀ t, execTrefValid s = .next t → P t := by
  have A := A.mono h
  clear h
  have kTrefValid := trefValid_keeps A rfl
  intro s  hs
  intro t e
  cases e
  repeat' first
    | with_reducible first
        | assumption | refine kTrefValid _  ?_
    | (extract_lets -underBinder +onlyGivenNames x; refine keeps_fact (P := P) (v := x) ?_ ?_; rotate_left; clear_value x; revert x; intro _ _; rotate_left; unfold x; clear x)
    | (extract_lets -underBinder +onlyGivenNames x; clear_value x; revert x; intro _)
    | intro _
    | split
    | with_reducible first | refine keeps_pair (by with_reducible assumption) ?_ | refine keeps_triple (by with_reducible assumption) ?_ | refine keeps_pairL (by with_reducible assumption) ?_

theorem execPllLock_keeps (A : Allows P m) (h : m &&& 10368325920 = 10368325920) :
    ∀ s, P s → ∀ t, execPllLock s = .next t → P t := by
  have A := A.mono h
  clear h
  have kPllLock := pllLock_keeps A rfl
  intro s  hs
  intro t e
  cases e
  repeat' first
    | with_reducible first
        | assumption | refine kPllLock _  ?_
    | (extract_lets -underBinder +onlyGivenNames x; refine keeps_fact (P := P) (v := x) ?_ ?_; rotate_left; clear_value x; revert x; intro _ _; rotate_left; unfold x; clear x)
    | (extract_lets -underBinder +onlyGivenNames x; clear_value x; revert x; intro _)
    | intro _
    | split
    | with_reducible first | refine keeps_pair (by with_reducible assumption) ?_ | refine keeps_triple (by with_reducible assumption) ?_ | refine keeps_pairL (by with_reducible assumption) ?_

theorem execHoldoverLimit_keeps (A : Allows P m) (h : m &&& 10368325920 = 10368325920) :
    ∀ s, P s → ∀ t, execHoldoverLimit s = .next t → P t := by
  have A := A.mono h
  clear h
  have kHoldoverLimit := holdoverLimit_keeps A rfl
  intro s  hs
  intro t e
  cases e
  repeat' first
    | with_reducible first
        | assumption | refine kHoldoverLimit _  ?_
    | (extract_lets -underBinder +onlyGivenNames x; refine keeps_fact (P := P) (v := x) ?_ ?_; rotate_left; clear_value x; revert x; intro _ _; rotate_left; unfold x; clear x)
    | (extract_lets -underBinder +onlyGivenNames x; clear_value x; revert x; intro _)
    | intro _
    | split
    | with_reducible first | refine keeps_pair (by with_reducible assumption) ?_ | refine keeps_triple (by with_reducible assumption) ?_ | refine keeps_pairL (by with_reducible assumption) ?_

theorem execToutEdge_keeps (A : Allows P m) (h : m &&& 10368325920 = 10368325920) :
    ∀ x0 s, P s → ∀ t, execToutEdge x0 s = .next t → P t := by
  have A := A.mono h
  clear h
  have kToutEdge := toutEdge_keeps A rfl
  intro x0 s  hs
  intro t e
  cases e
  repeat' first
    | with_reducible first
        | assumption | refine kToutEdge _ _  ?_
    | (extract_lets -underBinder +onlyGivenNames x; refine keeps_fact (P := P) (v := x) ?_ ?_; rotate_left; clear_value x; revert x; intro _ _; rotate_left; unfold x; clear x)
    | (extract_lets -underBinder +onlyGivenNames x; clear_value x; revert x; intro _)
    | intro _
    | split
    | with_reducible first | refine keeps_pair (by with_reducible assumption) ?_ | refine keeps_triple (by with_reducible assumption) ?_ | refine keeps_pairL (by with_reducible assumption) ?_

theorem execTinEdge_keeps (A : Allows P m) (h : m &&& 10368325920 = 10368325920) :
    ∀ x0 x1 s, P s → ∀ t, execTinEdge x0 x1 s = .next t → P t := by
  have A := A.mono h
  clear h
  have kTinEdge := tinEdge_keeps A rfl
  intro x0 x1 s  hs
  intro t e
  cases e
  repeat' first
    | with_reducible first
        | assumption | refine kTinEdge _ _ _  ?_
    | (extract_lets -underBinder +onlyGivenNames x; refine keeps_fact (P := P) (v := x) ?_ ?_; rotate_left; clear_value x; revert x; intro _ _; rotate_left; unfold x; clear x)
    | (extract_lets -underBinder +onlyGivenNames x; clear_value x; revert x; intro _)
    | intro _
    | split
    | with_reducible first | refine keeps_pair (by with_reducible assumption) ?_ | refine keeps_triple (by with_reducible assumption) ?_ | refine keeps_pairL (by with_reducible assumption) ?_

theorem execSynceLaneLoss_keeps (A : Allows P m) (h : m &&& 10368325920 = 10368325920) :
    ∀ x0 s, P s → ∀ t, execSynceLaneLoss x0 s = .next t → P t := by
  have A := A.mono h
  clear h
  have kSynceLaneLoss := synceLaneLoss_keeps A rfl
  intro x0 s  hs
  intro t e
  cases e
  repeat' first
    | with_reducible first
        | assumption | refine kSynceLaneLoss _ _  ?_
    | (extract_lets -underBinder +onlyGivenNames x; refine keeps_fact (P := P) (v := x) ?_ ?_; rotate_left; clear_value x; revert x; intro _ _; rotate_left; unfold x; clear x)
    | (extract_lets -underBinder +onlyGivenNames x; clear_value x; revert x; intro _)
    | intro _
    | split
    | with_reducible first | refine keeps_pair (by with_reducible assumption) ?_ | refine keeps_triple (by with_reducible assumption) ?_ | refine keeps_pairL (by with_reducible assumption) ?_

theorem execSynceUnsquelch_keeps (A : Allows P m) (h : m &&& 33554432 = 33554432) :
    ∀ x0 s, P s → ∀ t, execSynceUnsquelch x0 s = .next t → P t := by
  have A := A.mono h
  clear h
  have kSynceUnsquelch := synceUnsquelch_keeps A rfl
  intro x0 s  hs
  intro t e
  cases e
  repeat' first
    | with_reducible first
        | assumption | refine kSynceUnsquelch _ _  ?_
    | (extract_lets -underBinder +onlyGivenNames x; refine keeps_fact (P := P) (v := x) ?_ ?_; rotate_left; clear_value x; revert x; intro _ _; rotate_left; unfold x; clear x)
    | (extract_lets -underBinder +onlyGivenNames x; clear_value x; revert x; intro _)
    | intro _
    | split
    | with_reducible first | refine keeps_pair (by with_reducible assumption) ?_ | refine keeps_triple (by with_reducible assumption) ?_ | refine keeps_pairL (by with_reducible assumption) ?_

end Sys2Proof.Laws
end

