-- ==== Sys2Proof/Laws/Counters.lean ====
section
/-! SUPPORT. What each operation of Machine/Counters.lean can change (Laws/Keeps.lean). -/

namespace Sys2Proof.Laws

open Sys2Proof.Machine

variable {P : State → Prop} {m : Nat}

theorem settleCounts_keeps (A : Allows P m) (h : m &&& 105121792 = 105121792) :
    ∀ x0 x1 s, P s → P (settleCounts x0 x1 s) := by
  have A := A.mono h
  clear h
  have kNoteFull := noteFull_keeps A rfl
  have kCountWaits := countWaits_keeps A rfl
  have kCountHoldover := countHoldover_keeps A rfl
  have kCountFast := countFast_keeps A rfl
  have kCountPanic := countPanic_keeps A rfl
  intro x0 x1 s  hs
  unfold settleCounts
  repeat' first
    | with_reducible first
        | assumption | refine kNoteFull _ _  ?_ | refine kCountWaits _ _  ?_ | refine kCountHoldover _  ?_
        | refine kCountFast _ _  ?_ | refine kCountPanic _ _  ?_ | refine each_keeps _ _ (fun _ _ _ => ?_) _ ?_
    | intro _
    | split
    | with_reducible first | refine keeps_pair (by with_reducible assumption) ?_ | refine keeps_triple (by with_reducible assumption) ?_ | refine keeps_pairL (by with_reducible assumption) ?_

theorem countClear_keeps (A : Allows P m) (h : m &&& 2048 = 2048) :
    ∀ x0 x1 x2 s, P s → P (countClear x0 x1 x2 s) := by
  have A := A.mono h
  clear h
  have kCntSet := cntSet_keeps A rfl
  intro x0 x1 x2 s  hs
  unfold countClear
  repeat' first
    | with_reducible first
        | assumption | refine kCntSet _ _ _ _ _  ?_
    | (extract_lets -underBinder +onlyGivenNames x; refine keeps_fact (P := P) (v := x) ?_ ?_; rotate_left; clear_value x; revert x; intro _ _; rotate_left; unfold x; clear x)
    | (extract_lets -underBinder +onlyGivenNames x; clear_value x; revert x; intro _)
    | split

theorem runCounterRead_keeps (A : Allows P m) (h : m &&& 10439891240 = 10439891240) :
    ∀ x0 x1 x2 s, P s → P (runCounterRead x0 x1 x2 s).2 := by
  have A := A.mono h
  clear h
  have kReadUnit := readUnit_keeps A rfl
  have kDataCheck := dataCheck_keeps A rfl
  have kSettleCounts := settleCounts_keeps A rfl
  have kHostWr := hostWr_keeps A rfl
  intro x0 x1 x2 s  hs
  unfold runCounterRead
  repeat' first
    | with_reducible first
        | assumption | refine kReadUnit _ _ _ _  ?_ | refine kDataCheck _ _ _ _ _  ?_
        | refine kSettleCounts _ _ _  ?_ | refine kHostWr _ _ _  ?_
    | (extract_lets -underBinder +onlyGivenNames x; refine keeps_fact (P := P) (v := x) ?_ ?_; rotate_left; clear_value x; revert x; intro _ _; rotate_left; unfold x; clear x)
    | (extract_lets -underBinder +onlyGivenNames x; clear_value x; revert x; intro _)
    | split
    | with_reducible first | refine keeps_pair (by with_reducible assumption) ?_ | refine keeps_triple (by with_reducible assumption) ?_ | refine keeps_pairL (by with_reducible assumption) ?_

theorem runCounterClear_keeps (A : Allows P m) (h : m &&& 105121792 = 105121792) :
    ∀ x0 x1 x2 s, P s → P (runCounterClear x0 x1 x2 s).2 := by
  have A := A.mono h
  clear h
  have kCountClear := countClear_keeps A rfl
  have kSettleCounts := settleCounts_keeps A rfl
  intro x0 x1 x2 s  hs
  unfold runCounterClear
  repeat' first
    | with_reducible first
        | assumption | refine kCountClear _ _ _ _  ?_ | refine kSettleCounts _ _ _  ?_
        | refine each_keeps _ _ (fun _ _ _ => ?_) _ ?_
    | (extract_lets -underBinder +onlyGivenNames x; refine keeps_fact (P := P) (v := x) ?_ ?_; rotate_left; clear_value x; revert x; intro _ _; rotate_left; unfold x; clear x)
    | (extract_lets -underBinder +onlyGivenNames x; clear_value x; revert x; intro _)
    | intro _
    | split

theorem runG3CounterRead_keeps (A : Allows P m) (h : m &&& 10334771488 = 10334771488) :
    ∀ x0 x1 x2 s, P s → P (runG3CounterRead x0 x1 x2 s).2 := by
  have A := A.mono h
  clear h
  have kG3Check := g3Check_keeps A rfl
  have kHostWr := hostWr_keeps A rfl
  intro x0 x1 x2 s  hs
  unfold runG3CounterRead
  repeat' first
    | with_reducible first
        | assumption | refine kG3Check _ _ _ _ _  ?_ | refine kHostWr _ _ _  ?_
    | (extract_lets -underBinder +onlyGivenNames x; refine keeps_fact (P := P) (v := x) ?_ ?_; rotate_left; clear_value x; revert x; intro _ _; rotate_left; unfold x; clear x)
    | (extract_lets -underBinder +onlyGivenNames x; clear_value x; revert x; intro _)
    | split
    | with_reducible first | refine keeps_pair (by with_reducible assumption) ?_ | refine keeps_triple (by with_reducible assumption) ?_ | refine keeps_pairL (by with_reducible assumption) ?_

theorem execCounterRead_keeps (A : Allows P m) (h : m &&& 10439891256 = 10439891256) :
    ∀ x0 x1 s, P s → ∀ t, execCounterRead x0 x1 s = .next t → P t := by
  have A := A.mono h
  clear h
  have kCommand := command_keeps A rfl
  have kRunCounterRead := runCounterRead_keeps A rfl
  intro x0 x1 s  hs
  intro t e
  cases e
  repeat' first
    | with_reducible first
        | assumption | refine kCommand _ _ _ ?_ ?_ | refine kRunCounterRead _ _ _ _  ?_
        | refine each_keeps _ _ (fun _ _ _ => ?_) _ ?_ | refine foldl_keeps _ _ (fun _ _ _ => ?_) _ ?_
    | (extract_lets -underBinder +onlyGivenNames x; refine keeps_fact (P := P) (v := x) ?_ ?_; rotate_left; clear_value x; revert x; intro _ _; rotate_left; unfold x; clear x)
    | (extract_lets -underBinder +onlyGivenNames x; refine keeps_fact2 (P := P) (v := x) ?_ ?_; rotate_left; clear_value x; revert x; intro _ _; rotate_left; unfold x; clear x)
    | (extract_lets -underBinder +onlyGivenNames x; have h := fun a => x a; clear h; unfold x; clear x)
    | (extract_lets -underBinder +onlyGivenNames x; clear_value x; revert x; intro _)
    | intro _
    | split
    | with_reducible first | refine keeps_pair (by with_reducible assumption) ?_ | refine keeps_triple (by with_reducible assumption) ?_ | refine keeps_pairL (by with_reducible assumption) ?_

theorem execCounterClear_keeps (A : Allows P m) (h : m &&& 105126160 = 105126160) :
    ∀ x0 x1 s, P s → ∀ t, execCounterClear x0 x1 s = .next t → P t := by
  have A := A.mono h
  clear h
  have kCommand := command_keeps A rfl
  have kRunCounterClear := runCounterClear_keeps A rfl
  intro x0 x1 s  hs
  intro t e
  cases e
  repeat' first
    | with_reducible first
        | assumption | refine kCommand _ _ _ ?_ ?_ | refine kRunCounterClear _ _ _ _  ?_
    | (extract_lets -underBinder +onlyGivenNames x; refine keeps_fact (P := P) (v := x) ?_ ?_; rotate_left; clear_value x; revert x; intro _ _; rotate_left; unfold x; clear x)
    | (extract_lets -underBinder +onlyGivenNames x; clear_value x; revert x; intro _)
    | intro _
    | split
    | with_reducible first | refine keeps_pair (by with_reducible assumption) ?_ | refine keeps_triple (by with_reducible assumption) ?_ | refine keeps_pairL (by with_reducible assumption) ?_

theorem execG3CounterRead_keeps (A : Allows P m) (h : m &&& 10334771504 = 10334771504) :
    ∀ x0 x1 s, P s → ∀ t, execG3CounterRead x0 x1 s = .next t → P t := by
  have A := A.mono h
  clear h
  have kCommand := command_keeps A rfl
  have kRunG3CounterRead := runG3CounterRead_keeps A rfl
  intro x0 x1 s  hs
  intro t e
  cases e
  repeat' first
    | with_reducible first
        | assumption | refine kCommand _ _ _ ?_ ?_ | refine kRunG3CounterRead _ _ _ _  ?_
    | (extract_lets -underBinder +onlyGivenNames x; refine keeps_fact (P := P) (v := x) ?_ ?_; rotate_left; clear_value x; revert x; intro _ _; rotate_left; unfold x; clear x)
    | (extract_lets -underBinder +onlyGivenNames x; clear_value x; revert x; intro _)
    | intro _
    | split
    | with_reducible first | refine keeps_pair (by with_reducible assumption) ?_ | refine keeps_triple (by with_reducible assumption) ?_ | refine keeps_pairL (by with_reducible assumption) ?_

end Sys2Proof.Laws
end

