-- ==== Sys2Proof/Laws/Guard.lean ====
section
/-! SUPPORT. What each operation of Machine/Guard.lean can change (Laws/Keeps.lean). -/

namespace Sys2Proof.Laws

open Sys2Proof.Machine

variable {P : State → Prop} {m : Nat}

theorem guardCheck_keeps (A : Allows P m) (h : m &&& 10334771488 = 10334771488) :
    ∀ s, P s → P (guardCheck s) := by
  have A := A.mono h
  clear h
  have kModChk := modChk_keeps A rfl
  have kRaise := raise_keeps A rfl
  have kCntInc := cntInc_keeps A rfl
  intro s  hs
  unfold guardCheck
  repeat' first
    | with_reducible first
        | assumption | refine kModChk _ _  ?_ | refine kRaise _ _ _ _ _ _ _  ?_ | refine kCntInc _ _ _ _  ?_
    | (extract_lets -underBinder +onlyGivenNames x; refine keeps_fact (P := P) (v := x) ?_ ?_; rotate_left; clear_value x; revert x; intro _ _; rotate_left; unfold x; clear x)
    | (extract_lets -underBinder +onlyGivenNames x; clear_value x; revert x; intro _)
    | intro _
    | split

theorem thermCheck_keeps (A : Allows P m) (h : m &&& 4294967296 = 4294967296) :
    ∀ x0 x1 x2 s, P s → P (thermCheck x0 x1 x2 s) := by
  have A := A.mono h
  clear h
  have kModPwr := modPwr_keeps A rfl
  intro x0 x1 x2 s  hs
  unfold thermCheck
  repeat' first
    | with_reducible first
        | assumption | refine kModPwr _ _  ?_
    | (extract_lets -underBinder +onlyGivenNames x; refine keeps_fact (P := P) (v := x) ?_ ?_; rotate_left; clear_value x; revert x; intro _ _; rotate_left; unfold x; clear x)
    | (extract_lets -underBinder +onlyGivenNames x; clear_value x; revert x; intro _)
    | intro _
    | split

end Sys2Proof.Laws
end

