-- ==== Sys2Proof/Laws/Rollout.lean ====
section
/-! SUPPORT. What each operation of Machine/Rollout.lean can change (Laws/Keeps.lean). -/

namespace Sys2Proof.Laws

open Sys2Proof.Machine

variable {P : State → Prop} {m : Nat}

theorem setValid_keeps (A : Allows P m) (h : m &&& 2097152 = 2097152) :
    ∀ x0 x1 s, P s → P (setValid x0 x1 s) := by
  have A := A.mono h
  clear h
  have kModTsk := modTsk_keeps A rfl
  intro x0 x1 s  hs
  unfold setValid
  repeat' first
    | with_reducible first
        | assumption | refine kModTsk _ _  ?_
    | intro _

theorem stageEnd_keeps (A : Allows P m) (h : m &&& 2097152 = 2097152) :
    ∀ x0 s, P s → P (stageEnd x0 s).2 := by
  have A := A.mono h
  clear h
  have kSetValid := setValid_keeps A rfl
  intro x0 s  hs
  unfold stageEnd
  repeat' first
    | with_reducible first
        | assumption | refine kSetValid _ _ _  ?_
    | (extract_lets -underBinder +onlyGivenNames x; refine keeps_fact (P := P) (v := x) ?_ ?_; rotate_left; clear_value x; revert x; intro _ _; rotate_left; unfold x; clear x)
    | (extract_lets -underBinder +onlyGivenNames x; clear_value x; revert x; intro _)
    | split

theorem runFwStage_keeps (A : Allows P m) (h : m &&& 10336868640 = 10336868640) :
    ∀ x0 x1 s, P s → P (runFwStage x0 x1 s).2 := by
  have A := A.mono h
  clear h
  have kDmaCheck := dmaCheck_keeps A rfl
  have kStageEnd := stageEnd_keeps A rfl
  have kSetValid := setValid_keeps A rfl
  intro x0 x1 s  hs
  unfold runFwStage
  repeat' first
    | with_reducible first
        | assumption | refine kDmaCheck _ _ _ _ _ _  ?_ | refine kStageEnd _ _  ?_ | refine kSetValid _ _ _  ?_
    | (extract_lets -underBinder +onlyGivenNames x; refine keeps_fact (P := P) (v := x) ?_ ?_; rotate_left; clear_value x; revert x; intro _ _; rotate_left; unfold x; clear x)
    | (extract_lets -underBinder +onlyGivenNames x; clear_value x; revert x; intro _)
    | split
    | with_reducible first | refine keeps_pair (by with_reducible assumption) ?_ | refine keeps_triple (by with_reducible assumption) ?_ | refine keeps_pairL (by with_reducible assumption) ?_

theorem stepFwStage_keeps (A : Allows P m) (h : m &&& 69209088 = 69209088) :
    ∀ x0 x1 s, P s → P (stepFwStage x0 x1 s).2 := by
  have A := A.mono h
  clear h
  have kClearPoison := clearPoison_keeps A rfl
  have kMirrorWrite := mirrorWrite_keeps A rfl
  have kHbmPush := hbmPush_keeps A rfl
  have kStageEnd := stageEnd_keeps A rfl
  intro x0 x1 s  hs
  unfold stepFwStage
  repeat' first
    | with_reducible first
        | assumption | refine kClearPoison _ _ _  ?_ | refine kMirrorWrite _ _ _  ?_ | refine kHbmPush _ _ _  ?_
        | refine kStageEnd _ _  ?_
    | (extract_lets -underBinder +onlyGivenNames x; refine keeps_fact (P := P) (v := x) ?_ ?_; rotate_left; clear_value x; revert x; intro _ _; rotate_left; unfold x; clear x)
    | (extract_lets -underBinder +onlyGivenNames x; clear_value x; revert x; intro _)
    | split
    | with_reducible first | refine keeps_pair (by with_reducible assumption) ?_ | refine keeps_triple (by with_reducible assumption) ?_ | refine keeps_pairL (by with_reducible assumption) ?_

theorem loadImage_keeps (A : Allows P m) (h : m &&& 10336868640 = 10336868640) :
    ∀ x0 x1 s, P s → P (loadImage x0 x1 s) := by
  have A := A.mono h
  clear h
  have kModCluster := modCluster_keeps A rfl
  have kCheckServed := checkServed_keeps A rfl
  have kResetCore := resetCore_keeps A rfl
  intro x0 x1 s  hs
  unfold loadImage
  repeat' first
    | with_reducible first
        | assumption | refine kModCluster _ _ _  ?_ | refine kCheckServed _ _  ?_ | refine kResetCore _ _  ?_
        | refine each_keeps _ _ (fun _ _ _ => ?_) _ ?_
    | (extract_lets -underBinder +onlyGivenNames x; refine keeps_fact (P := P) (v := x) ?_ ?_; rotate_left; clear_value x; revert x; intro _ _; rotate_left; unfold x; clear x)
    | (extract_lets -underBinder +onlyGivenNames x; clear_value x; revert x; intro _)
    | intro _

theorem modRoll_keeps (A : Allows P m) (h : m &&& 2097152 = 2097152) :
    ∀ x0 s, P s → P (modRoll x0 s) := by
  have A := A.mono h
  clear h
  have kModTsk := modTsk_keeps A rfl
  intro x0 s  hs
  unfold modRoll
  repeat' first
    | with_reducible first
        | assumption | refine kModTsk _ _  ?_
    | intro _

theorem rolloutNext_keeps (A : Allows P m) (h : m &&& 10336868640 = 10336868640) :
    ∀ x0 s, P s → P (rolloutNext x0 s) := by
  have A := A.mono h
  clear h
  have kModRoll := modRoll_keeps A rfl
  have kModTsk := modTsk_keeps A rfl
  have kRaise := raise_keeps A rfl
  have kModCluster := modCluster_keeps A rfl
  have kCheckServed := checkServed_keeps A rfl
  intro  n
  induction n with
  | zero =>
    intro s hs
    unfold rolloutNext
    repeat' first
      | with_reducible first
          | assumption | refine kModRoll _ _  ?_ | refine kModTsk _ _  ?_ | refine kRaise _ _ _ _ _ _ _  ?_
          | refine kModCluster _ _ _  ?_ | refine kCheckServed _ _  ?_
      | (extract_lets -underBinder +onlyGivenNames x; refine keeps_fact (P := P) (v := x) ?_ ?_; rotate_left; clear_value x; revert x; intro _ _; rotate_left; unfold x; clear x)
      | (extract_lets -underBinder +onlyGivenNames x; clear_value x; revert x; intro _)
      | intro _
      | split
      | with_reducible first | refine keeps_pair (by with_reducible assumption) ?_ | refine keeps_triple (by with_reducible assumption) ?_ | refine keeps_pairL (by with_reducible assumption) ?_
  | succ n ih =>
    intro s hs
    unfold rolloutNext
    repeat' first
      | with_reducible first
          | assumption | refine kModRoll _ _  ?_ | refine kModTsk _ _  ?_ | refine kRaise _ _ _ _ _ _ _  ?_
          | refine kModCluster _ _ _  ?_ | refine kCheckServed _ _  ?_ | refine ih _ ?_
      | (extract_lets -underBinder +onlyGivenNames x; refine keeps_fact (P := P) (v := x) ?_ ?_; rotate_left; clear_value x; revert x; intro _ _; rotate_left; unfold x; clear x)
      | (extract_lets -underBinder +onlyGivenNames x; clear_value x; revert x; intro _)
      | intro _
      | split
      | with_reducible first | refine keeps_pair (by with_reducible assumption) ?_ | refine keeps_triple (by with_reducible assumption) ?_ | refine keeps_pairL (by with_reducible assumption) ?_

theorem rolloutFail_keeps (A : Allows P m) (h : m &&& 10336868640 = 10336868640) :
    ∀ x0 s, P s → P (rolloutFail x0 s) := by
  have A := A.mono h
  clear h
  have kModCluster := modCluster_keeps A rfl
  have kModRoll := modRoll_keeps A rfl
  have kCheckServed := checkServed_keeps A rfl
  have kRaise := raise_keeps A rfl
  intro x0 s  hs
  unfold rolloutFail
  repeat' first
    | with_reducible first
        | assumption | refine kModCluster _ _ _  ?_ | refine kModRoll _ _  ?_ | refine kCheckServed _ _  ?_
        | refine kRaise _ _ _ _ _ _ _  ?_
    | (extract_lets -underBinder +onlyGivenNames x; refine keeps_fact (P := P) (v := x) ?_ ?_; rotate_left; clear_value x; revert x; intro _ _; rotate_left; unfold x; clear x)
    | (extract_lets -underBinder +onlyGivenNames x; clear_value x; revert x; intro _)
    | intro _
    | split

theorem runFwSwitch_keeps (A : Allows P m) (h : m &&& 10336868640 = 10336868640) :
    ∀ x0 x1 x2 x3 s, P s → P (runFwSwitch x0 x1 x2 x3 s).2 := by
  have A := A.mono h
  clear h
  have kModRoll := modRoll_keeps A rfl
  have kRolloutNext := rolloutNext_keeps A rfl
  intro x0 x1 x2 x3 s  hs
  unfold runFwSwitch
  repeat' first
    | with_reducible first
        | assumption | refine kModRoll _ _  ?_ | refine kRolloutNext _ _  ?_
    | (extract_lets -underBinder +onlyGivenNames x; refine keeps_fact (P := P) (v := x) ?_ ?_; rotate_left; clear_value x; revert x; intro _ _; rotate_left; unfold x; clear x)
    | (extract_lets -underBinder +onlyGivenNames x; clear_value x; revert x; intro _)
    | intro _
    | split

theorem clusterDrained_keeps (A : Allows P m) (h : m &&& 2099200 = 2099200) :
    ∀ s, P s → P (clusterDrained s) := by
  have A := A.mono h
  clear h
  have kResetCore := resetCore_keeps A rfl
  have kModCluster := modCluster_keeps A rfl
  intro s  hs
  unfold clusterDrained
  repeat' first
    | with_reducible first
        | assumption | refine kResetCore _ _  ?_ | refine kModCluster _ _ _  ?_
        | refine each_keeps _ _ (fun _ _ _ => ?_) _ ?_
    | intro _
    | split
    | with_reducible first | refine keeps_pair (by with_reducible assumption) ?_ | refine keeps_triple (by with_reducible assumption) ?_ | refine keeps_pairL (by with_reducible assumption) ?_

theorem drainExpiry_keeps (A : Allows P m) (h : m &&& 10336868640 = 10336868640) :
    ∀ s, P s → P (drainExpiry s) := by
  have A := A.mono h
  clear h
  have kRolloutFail := rolloutFail_keeps A rfl
  intro s  hs
  unfold drainExpiry
  repeat' first
    | with_reducible first
        | assumption | refine kRolloutFail _ _  ?_
    | split
    | with_reducible first | refine keeps_pair (by with_reducible assumption) ?_ | refine keeps_triple (by with_reducible assumption) ?_ | refine keeps_pairL (by with_reducible assumption) ?_

theorem rolloutLoadEnd_keeps (A : Allows P m) (h : m &&& 10336868640 = 10336868640) :
    ∀ x0 s, P s → P (rolloutLoadEnd x0 s) := by
  have A := A.mono h
  clear h
  have kLoadImage := loadImage_keeps A rfl
  have kModCluster := modCluster_keeps A rfl
  have kRolloutNext := rolloutNext_keeps A rfl
  have kModRoll := modRoll_keeps A rfl
  have kRolloutFail := rolloutFail_keeps A rfl
  intro x0 s  hs
  unfold rolloutLoadEnd
  repeat' first
    | with_reducible first
        | assumption | refine kLoadImage _ _ _  ?_ | refine kModCluster _ _ _  ?_ | refine kRolloutNext _ _  ?_
        | refine kModRoll _ _  ?_ | refine kRolloutFail _ _  ?_
    | (extract_lets -underBinder +onlyGivenNames x; refine keeps_fact (P := P) (v := x) ?_ ?_; rotate_left; clear_value x; revert x; intro _ _; rotate_left; unfold x; clear x)
    | (extract_lets -underBinder +onlyGivenNames x; clear_value x; revert x; intro _)
    | intro _
    | split
    | with_reducible first | refine keeps_pair (by with_reducible assumption) ?_ | refine keeps_triple (by with_reducible assumption) ?_ | refine keeps_pairL (by with_reducible assumption) ?_

theorem execFwStage_keeps (A : Allows P m) (h : m &&& 10336868656 = 10336868656) :
    ∀ x0 x1 s, P s → ∀ t, execFwStage x0 x1 s = .next t → P t := by
  have A := A.mono h
  clear h
  have kCommand := command_keeps A rfl
  have kRunFwStage := runFwStage_keeps A rfl
  intro x0 x1 s  hs
  intro t e
  cases e
  repeat' first
    | with_reducible first
        | assumption | refine kCommand _ _ _ ?_ ?_ | refine kRunFwStage _ _ _  ?_
        | refine each_keeps _ _ (fun _ _ _ => ?_) _ ?_ | refine foldl_keeps _ _ (fun _ _ _ => ?_) _ ?_
    | (extract_lets -underBinder +onlyGivenNames x; refine keeps_fact (P := P) (v := x) ?_ ?_; rotate_left; clear_value x; revert x; intro _ _; rotate_left; unfold x; clear x)
    | (extract_lets -underBinder +onlyGivenNames x; refine keeps_fact2 (P := P) (v := x) ?_ ?_; rotate_left; clear_value x; revert x; intro _ _; rotate_left; unfold x; clear x)
    | (extract_lets -underBinder +onlyGivenNames x; have h := fun a => x a; clear h; unfold x; clear x)
    | (extract_lets -underBinder +onlyGivenNames x; clear_value x; revert x; intro _)
    | intro _
    | split
    | with_reducible first | refine keeps_pair (by with_reducible assumption) ?_ | refine keeps_triple (by with_reducible assumption) ?_ | refine keeps_pairL (by with_reducible assumption) ?_

theorem execFwSwitch_keeps (A : Allows P m) (h : m &&& 10336868656 = 10336868656) :
    ∀ x0 x1 x2 x3 s, P s → ∀ t, execFwSwitch x0 x1 x2 x3 s = .next t → P t := by
  have A := A.mono h
  clear h
  have kCommand := command_keeps A rfl
  have kRunFwSwitch := runFwSwitch_keeps A rfl
  intro x0 x1 x2 x3 s  hs
  intro t e
  cases e
  repeat' first
    | with_reducible first
        | assumption | refine kCommand _ _ _ ?_ ?_ | refine kRunFwSwitch _ _ _ _ _  ?_
    | (extract_lets -underBinder +onlyGivenNames x; refine keeps_fact (P := P) (v := x) ?_ ?_; rotate_left; clear_value x; revert x; intro _ _; rotate_left; unfold x; clear x)
    | (extract_lets -underBinder +onlyGivenNames x; clear_value x; revert x; intro _)
    | intro _
    | split
    | with_reducible first | refine keeps_pair (by with_reducible assumption) ?_ | refine keeps_triple (by with_reducible assumption) ?_ | refine keeps_pairL (by with_reducible assumption) ?_

theorem execRolloutClusterDrained_keeps (A : Allows P m) (h : m &&& 2099200 = 2099200) :
    ∀ s, P s → ∀ t, execRolloutClusterDrained s = .next t → P t := by
  have A := A.mono h
  clear h
  have kClusterDrained := clusterDrained_keeps A rfl
  intro s  hs
  intro t e
  cases e
  repeat' first
    | with_reducible first
        | assumption | refine kClusterDrained _  ?_
    | (extract_lets -underBinder +onlyGivenNames x; refine keeps_fact (P := P) (v := x) ?_ ?_; rotate_left; clear_value x; revert x; intro _ _; rotate_left; unfold x; clear x)
    | (extract_lets -underBinder +onlyGivenNames x; clear_value x; revert x; intro _)
    | intro _
    | split
    | with_reducible first | refine keeps_pair (by with_reducible assumption) ?_ | refine keeps_triple (by with_reducible assumption) ?_ | refine keeps_pairL (by with_reducible assumption) ?_

theorem execDrainUsExpiry_keeps (A : Allows P m) (h : m &&& 10336868640 = 10336868640) :
    ∀ s, P s → ∀ t, execDrainUsExpiry s = .next t → P t := by
  have A := A.mono h
  clear h
  have kDrainExpiry := drainExpiry_keeps A rfl
  intro s  hs
  intro t e
  cases e
  repeat' first
    | with_reducible first
        | assumption | refine kDrainExpiry _  ?_
    | (extract_lets -underBinder +onlyGivenNames x; refine keeps_fact (P := P) (v := x) ?_ ?_; rotate_left; clear_value x; revert x; intro _ _; rotate_left; unfold x; clear x)
    | (extract_lets -underBinder +onlyGivenNames x; clear_value x; revert x; intro _)
    | intro _
    | split
    | with_reducible first | refine keeps_pair (by with_reducible assumption) ?_ | refine keeps_triple (by with_reducible assumption) ?_ | refine keeps_pairL (by with_reducible assumption) ?_

theorem execRolloutLoadEnd_keeps (A : Allows P m) (h : m &&& 10336868640 = 10336868640) :
    ∀ x0 s, P s → ∀ t, execRolloutLoadEnd x0 s = .next t → P t := by
  have A := A.mono h
  clear h
  have kRolloutLoadEnd := rolloutLoadEnd_keeps A rfl
  intro x0 s  hs
  intro t e
  cases e
  repeat' first
    | with_reducible first
        | assumption | refine kRolloutLoadEnd _ _  ?_
    | (extract_lets -underBinder +onlyGivenNames x; refine keeps_fact (P := P) (v := x) ?_ ?_; rotate_left; clear_value x; revert x; intro _ _; rotate_left; unfold x; clear x)
    | (extract_lets -underBinder +onlyGivenNames x; clear_value x; revert x; intro _)
    | intro _
    | split
    | with_reducible first | refine keeps_pair (by with_reducible assumption) ?_ | refine keeps_triple (by with_reducible assumption) ?_ | refine keeps_pairL (by with_reducible assumption) ?_

end Sys2Proof.Laws
end

