-- ==== Sys2Proof/Laws/Custodian.lean ====
section
/-! SUPPORT. What each operation of Machine/Custodian.lean can change (Laws/Keeps.lean). -/

namespace Sys2Proof.Laws

open Sys2Proof.Machine

variable {P : State → Prop} {m : Nat}

theorem setCusState_keeps (A : Allows P m) (h : m &&& 268435456 = 268435456) :
    ∀ x0 x1 s, P s → P (setCusState x0 x1 s) := by
  have A := A.mono h
  clear h
  have kModCus := modCus_keeps A rfl
  intro x0 x1 s  hs
  unfold setCusState
  repeat' first
    | with_reducible first
        | assumption | refine kModCus _ _  ?_
    | intro _
    | split

theorem cusCnt_keeps (A : Allows P m) (h : m &&& 2048 = 2048) :
    ∀ x0 s, P s → P (cusCnt x0 s) := by
  have A := A.mono h
  clear h
  have kCntInc := cntInc_keeps A rfl
  intro x0 s  hs
  unfold cusCnt
  repeat' first
    | with_reducible first
        | assumption | refine kCntInc _ _ _ _  ?_

theorem setPositions_keeps (A : Allows P m) (h : m &&& 67305472 = 67305472) :
    ∀ x0 s, P s → P (setPositions x0 s) := by
  have A := A.mono h
  clear h
  have kModSlice := modSlice_keeps A rfl
  have kModFwd := modFwd_keeps A rfl
  have kModStack := modStack_keeps A rfl
  intro x0 s  hs
  unfold setPositions
  repeat' first
    | with_reducible first
        | assumption | refine kModSlice _ _ _  ?_ | refine kModFwd _ _  ?_ | refine kModStack _ _ _  ?_
        | refine each_keeps _ _ (fun _ _ _ => ?_) _ ?_
    | (extract_lets -underBinder +onlyGivenNames x; refine keeps_fact (P := P) (v := x) ?_ ?_; rotate_left; clear_value x; revert x; intro _ _; rotate_left; unfold x; clear x)
    | (extract_lets -underBinder +onlyGivenNames x; clear_value x; revert x; intro _)
    | intro _

theorem writeCkpt_keeps (A : Allows P m) (h : m &&& 335547392 = 335547392) :
    ∀ x0 s, P s → P (writeCkpt x0 s) := by
  have A := A.mono h
  clear h
  have kModCus := modCus_keeps A rfl
  have kCusCnt := cusCnt_keeps A rfl
  have kMirrorWrite := mirrorWrite_keeps A rfl
  intro x0 s  hs
  unfold writeCkpt
  repeat' first
    | with_reducible first
        | assumption | refine kModCus _ _  ?_ | refine kCusCnt _ _  ?_ | refine kMirrorWrite _ _ _  ?_
        | refine foldl_keeps _ _ (fun _ _ _ => ?_) _ ?_
    | (extract_lets -underBinder +onlyGivenNames x; refine keeps_fact (P := P) (v := x) ?_ ?_; rotate_left; clear_value x; revert x; intro _ _; rotate_left; unfold x; clear x)
    | (extract_lets -underBinder +onlyGivenNames x; clear_value x; revert x; intro _)
    | intro _

theorem checkpoint_keeps (A : Allows P m) (h : m &&& 335547392 = 335547392) :
    ∀ s, P s → P (checkpoint s) := by
  have A := A.mono h
  clear h
  have kWriteCkpt := writeCkpt_keeps A rfl
  intro s  hs
  unfold checkpoint
  repeat' first
    | with_reducible first
        | assumption | refine kWriteCkpt _ _  ?_
    | split

theorem releaseString_keeps (A : Allows P m) (h : m &&& 10603206944 = 10603206944) :
    ∀ x0 s, P s → P (releaseString x0 s) := by
  have A := A.mono h
  clear h
  have kModCus := modCus_keeps A rfl
  have kCusCnt := cusCnt_keeps A rfl
  have kSetCusState := setCusState_keeps A rfl
  have kGuardCheck := guardCheck_keeps A rfl
  have kRaiseSev := raiseSev_keeps A rfl
  intro x0 s  hs
  unfold releaseString
  repeat' first
    | with_reducible first
        | assumption | refine kModCus _ _  ?_ | refine kCusCnt _ _  ?_ | refine kSetCusState _ _ _  ?_
        | refine kGuardCheck _  ?_ | refine kRaiseSev _ _ _ _ _ _ _ _  ?_
    | (extract_lets -underBinder +onlyGivenNames x; refine keeps_fact (P := P) (v := x) ?_ ?_; rotate_left; clear_value x; revert x; intro _ _; rotate_left; unfold x; clear x)
    | (extract_lets -underBinder +onlyGivenNames x; clear_value x; revert x; intro _)
    | intro _
    | split

theorem stringRelease_keeps (A : Allows P m) (h : m &&& 10670316832 = 10670316832) :
    ∀ x0 s, P s → P (stringRelease x0 s) := by
  have A := A.mono h
  clear h
  have kReleaseString := releaseString_keeps A rfl
  have kCheckpoint := checkpoint_keeps A rfl
  intro x0 s  hs
  unfold stringRelease
  repeat' first
    | with_reducible first
        | assumption | refine kReleaseString _ _  ?_ | refine kCheckpoint _  ?_
    | split

theorem watchdogExpiry_keeps (A : Allows P m) (h : m &&& 10603206944 = 10603206944) :
    ∀ s, P s → P (watchdogExpiry s) := by
  have A := A.mono h
  clear h
  have kReleaseString := releaseString_keeps A rfl
  intro s  hs
  unfold watchdogExpiry
  repeat' first
    | with_reducible first
        | assumption | refine kReleaseString _ _  ?_
    | split

theorem selfTestEnd_keeps (A : Allows P m) (h : m &&& 10603206944 = 10603206944) :
    ∀ x0 x1 s, P s → P (selfTestEnd x0 x1 s) := by
  have A := A.mono h
  clear h
  have kSetCusState := setCusState_keeps A rfl
  have kRaise := raise_keeps A rfl
  intro x0 x1 s  hs
  unfold selfTestEnd
  repeat' first
    | with_reducible first
        | assumption | refine kSetCusState _ _ _  ?_ | refine kRaise _ _ _ _ _ _ _  ?_
    | (extract_lets -underBinder +onlyGivenNames x; refine keeps_fact (P := P) (v := x) ?_ ?_; rotate_left; clear_value x; revert x; intro _ _; rotate_left; unfold x; clear x)
    | (extract_lets -underBinder +onlyGivenNames x; clear_value x; revert x; intro _)
    | split

theorem refuseCopies_keeps (A : Allows P m) (h : m &&& 10334771488 = 10334771488) :
    ∀ s, P s → P (refuseCopies s) := by
  have A := A.mono h
  clear h
  have kCntAdd := cntAdd_keeps A rfl
  have kRaise := raise_keeps A rfl
  intro s  hs
  unfold refuseCopies
  repeat' first
    | with_reducible first
        | assumption | refine kCntAdd _ _ _ _ _  ?_ | refine kRaise _ _ _ _ _ _ _  ?_
    | (extract_lets -underBinder +onlyGivenNames x; refine keeps_fact (P := P) (v := x) ?_ ?_; rotate_left; clear_value x; revert x; intro _ _; rotate_left; unfold x; clear x)
    | (extract_lets -underBinder +onlyGivenNames x; clear_value x; revert x; intro _)
    | intro _
    | split

theorem stringTake_keeps (A : Allows P m) (h : m &&& 10670512416 = 10670512416) :
    ∀ x0 s, P s → P (stringTake x0 s) := by
  have A := A.mono h
  clear h
  have kModCus := modCus_keeps A rfl
  have kRefuseCopies := refuseCopies_keeps A rfl
  have kCusCnt := cusCnt_keeps A rfl
  have kSetCusState := setCusState_keeps A rfl
  have kSetPositions := setPositions_keeps A rfl
  have kRaise := raise_keeps A rfl
  intro x0 s  hs
  unfold stringTake
  repeat' first
    | with_reducible first
        | assumption | refine kModCus _ _  ?_ | refine kRefuseCopies _  ?_ | refine kCusCnt _ _  ?_
        | refine kSetCusState _ _ _  ?_ | refine kSetPositions _ _  ?_ | refine kRaise _ _ _ _ _ _ _  ?_
    | (extract_lets -underBinder +onlyGivenNames x; refine keeps_fact (P := P) (v := x) ?_ ?_; rotate_left; clear_value x; revert x; intro _ _; rotate_left; unfold x; clear x)
    | (extract_lets -underBinder +onlyGivenNames x; clear_value x; revert x; intro _)
    | intro _
    | split
    | with_reducible first | refine keeps_pair (by with_reducible assumption) ?_ | refine keeps_triple (by with_reducible assumption) ?_ | refine keeps_pairL (by with_reducible assumption) ?_

theorem bootPreloaded_keeps (A : Allows P m) (h : m &&& 805306368 = 805306368) :
    ∀ s, P s → P (bootPreloaded s) := by
  have A := A.mono h
  clear h
  have kModCus := modCus_keeps A rfl
  have kModFlash := modFlash_keeps A rfl
  intro s  hs
  unfold bootPreloaded
  repeat' first
    | with_reducible first
        | assumption | refine kModCus _ _  ?_ | refine kModFlash _ _  ?_
    | (extract_lets -underBinder +onlyGivenNames x; refine keeps_fact (P := P) (v := x) ?_ ?_; rotate_left; clear_value x; revert x; intro _ _; rotate_left; unfold x; clear x)
    | (extract_lets -underBinder +onlyGivenNames x; clear_value x; revert x; intro _)
    | intro _
    | split

theorem countTakeover_keeps (A : Allows P m) (h : m &&& 2048 = 2048) :
    ∀ s, P s → P (countTakeover s) := by
  have A := A.mono h
  clear h
  have kCntSet := cntSet_keeps A rfl
  intro s  hs
  unfold countTakeover
  repeat' first
    | with_reducible first
        | assumption | refine kCntSet _ _ _ _ _  ?_
    | split

theorem adoption_keeps (A : Allows P m) (h : m &&& 10672413984 = 10672413984) :
    ∀ s, P s → P (adoption s) := by
  have A := A.mono h
  clear h
  have kWriteCkpt := writeCkpt_keeps A rfl
  have kModCus := modCus_keeps A rfl
  have kCountTakeover := countTakeover_keeps A rfl
  have kSetCusState := setCusState_keeps A rfl
  have kRolloutNext := rolloutNext_keeps A rfl
  have kGuardCheck := guardCheck_keeps A rfl
  have kBootPreloaded := bootPreloaded_keeps A rfl
  intro s  hs
  unfold adoption
  repeat' first
    | with_reducible first
        | assumption | refine kWriteCkpt _ _  ?_ | refine kModCus _ _  ?_ | refine kCountTakeover _  ?_
        | refine kSetCusState _ _ _  ?_ | refine kRolloutNext _ _  ?_ | refine kGuardCheck _  ?_
        | refine kBootPreloaded _  ?_
    | (extract_lets -underBinder +onlyGivenNames x; refine keeps_fact (P := P) (v := x) ?_ ?_; rotate_left; clear_value x; revert x; intro _ _; rotate_left; unfold x; clear x)
    | (extract_lets -underBinder +onlyGivenNames x; clear_value x; revert x; intro _)
    | intro _
    | split

theorem actuatorWrite_keeps (A : Allows P m) (h : m &&& 268437504 = 268437504) :
    ∀ x0 x1 x2 s, P s → P (actuatorWrite x0 x1 x2 s) := by
  have A := A.mono h
  clear h
  have kCusCnt := cusCnt_keeps A rfl
  have kModCus := modCus_keeps A rfl
  intro x0 x1 x2 s  hs
  unfold actuatorWrite
  repeat' first
    | with_reducible first
        | assumption | refine kCusCnt _ _  ?_ | refine kModCus _ _  ?_
    | intro _
    | split

theorem copyDisagree_keeps (A : Allows P m) (h : m &&& 10603206944 = 10603206944) :
    ∀ s, P s → P (copyDisagree s) := by
  have A := A.mono h
  clear h
  have kRaise := raise_keeps A rfl
  have kModCus := modCus_keeps A rfl
  intro s  hs
  unfold copyDisagree
  repeat' first
    | with_reducible first
        | assumption | refine kRaise _ _ _ _ _ _ _  ?_ | refine kModCus _ _  ?_
    | intro _
    | split

theorem preload_keeps (A : Allows P m) (h : m &&& 268437504 = 268437504) :
    ∀ s, P s → P (preload s) := by
  have A := A.mono h
  clear h
  have kModCus := modCus_keeps A rfl
  have kSetCusState := setCusState_keeps A rfl
  have kCusCnt := cusCnt_keeps A rfl
  intro s  hs
  unfold preload
  repeat' first
    | with_reducible first
        | assumption | refine kModCus _ _  ?_ | refine kSetCusState _ _ _  ?_ | refine kCusCnt _ _  ?_
    | intro _
    | split

theorem preloadEnd_keeps (A : Allows P m) (h : m &&& 10603206944 = 10603206944) :
    ∀ x0 x1 s, P s → P (preloadEnd x0 x1 s) := by
  have A := A.mono h
  clear h
  have kModCus := modCus_keeps A rfl
  have kSetCusState := setCusState_keeps A rfl
  have kRaise := raise_keeps A rfl
  have kCusCnt := cusCnt_keeps A rfl
  intro x0 x1 s  hs
  unfold preloadEnd
  repeat' first
    | with_reducible first
        | assumption | refine kModCus _ _  ?_ | refine kSetCusState _ _ _  ?_ | refine kRaise _ _ _ _ _ _ _  ?_
        | refine kCusCnt _ _  ?_
    | (extract_lets -underBinder +onlyGivenNames x; refine keeps_fact (P := P) (v := x) ?_ ?_; rotate_left; clear_value x; revert x; intro _ _; rotate_left; unfold x; clear x)
    | (extract_lets -underBinder +onlyGivenNames x; clear_value x; revert x; intro _)
    | intro _
    | split
    | with_reducible first | refine keeps_pair (by with_reducible assumption) ?_ | refine keeps_triple (by with_reducible assumption) ?_ | refine keeps_pairL (by with_reducible assumption) ?_

theorem handover_keeps (A : Allows P m) (h : m &&& 10670316832 = 10670316832) :
    ∀ s, P s → P (handover s) := by
  have A := A.mono h
  clear h
  have kReleaseString := releaseString_keeps A rfl
  have kCheckpoint := checkpoint_keeps A rfl
  have kCusCnt := cusCnt_keeps A rfl
  intro s  hs
  unfold handover
  repeat' first
    | with_reducible first
        | assumption | refine kReleaseString _ _  ?_ | refine kCheckpoint _  ?_ | refine kCusCnt _ _  ?_
    | split

theorem selfTestRetry_keeps (A : Allows P m) (h : m &&& 268435456 = 268435456) :
    ∀ x0 s, P s → P (selfTestRetry x0 s) := by
  have A := A.mono h
  clear h
  have kSetCusState := setCusState_keeps A rfl
  intro x0 s  hs
  unfold selfTestRetry
  repeat' first
    | with_reducible first
        | assumption | refine kSetCusState _ _ _  ?_
    | split

theorem execCusWatchdogExpiry_keeps (A : Allows P m) (h : m &&& 10603206944 = 10603206944) :
    ∀ s, P s → ∀ t, execCusWatchdogExpiry s = .next t → P t := by
  have A := A.mono h
  clear h
  have kWatchdogExpiry := watchdogExpiry_keeps A rfl
  intro s  hs
  intro t e
  cases e
  repeat' first
    | with_reducible first
        | assumption | refine kWatchdogExpiry _  ?_ | refine each_keeps _ _ (fun _ _ _ => ?_) _ ?_
        | refine foldl_keeps _ _ (fun _ _ _ => ?_) _ ?_
    | (extract_lets -underBinder +onlyGivenNames x; refine keeps_fact (P := P) (v := x) ?_ ?_; rotate_left; clear_value x; revert x; intro _ _; rotate_left; unfold x; clear x)
    | (extract_lets -underBinder +onlyGivenNames x; refine keeps_fact2 (P := P) (v := x) ?_ ?_; rotate_left; clear_value x; revert x; intro _ _; rotate_left; unfold x; clear x)
    | (extract_lets -underBinder +onlyGivenNames x; have h := fun a => x a; clear h; unfold x; clear x)
    | (extract_lets -underBinder +onlyGivenNames x; clear_value x; revert x; intro _)
    | intro _
    | split
    | with_reducible first | refine keeps_pair (by with_reducible assumption) ?_ | refine keeps_triple (by with_reducible assumption) ?_ | refine keeps_pairL (by with_reducible assumption) ?_

theorem execStringRelease_keeps (A : Allows P m) (h : m &&& 10670316832 = 10670316832) :
    ∀ x0 s, P s → ∀ t, execStringRelease x0 s = .next t → P t := by
  have A := A.mono h
  clear h
  have kStringRelease := stringRelease_keeps A rfl
  intro x0 s  hs
  intro t e
  cases e
  repeat' first
    | with_reducible first
        | assumption | refine kStringRelease _ _  ?_
    | (extract_lets -underBinder +onlyGivenNames x; refine keeps_fact (P := P) (v := x) ?_ ?_; rotate_left; clear_value x; revert x; intro _ _; rotate_left; unfold x; clear x)
    | (extract_lets -underBinder +onlyGivenNames x; clear_value x; revert x; intro _)
    | intro _
    | split
    | with_reducible first | refine keeps_pair (by with_reducible assumption) ?_ | refine keeps_triple (by with_reducible assumption) ?_ | refine keeps_pairL (by with_reducible assumption) ?_

theorem execSelfTestEnd_keeps (A : Allows P m) (h : m &&& 10603206944 = 10603206944) :
    ∀ x0 x1 s, P s → ∀ t, execSelfTestEnd x0 x1 s = .next t → P t := by
  have A := A.mono h
  clear h
  have kSelfTestEnd := selfTestEnd_keeps A rfl
  intro x0 x1 s  hs
  intro t e
  cases e
  repeat' first
    | with_reducible first
        | assumption | refine kSelfTestEnd _ _ _  ?_
    | (extract_lets -underBinder +onlyGivenNames x; refine keeps_fact (P := P) (v := x) ?_ ?_; rotate_left; clear_value x; revert x; intro _ _; rotate_left; unfold x; clear x)
    | (extract_lets -underBinder +onlyGivenNames x; clear_value x; revert x; intro _)
    | intro _
    | split
    | with_reducible first | refine keeps_pair (by with_reducible assumption) ?_ | refine keeps_triple (by with_reducible assumption) ?_ | refine keeps_pairL (by with_reducible assumption) ?_

theorem execStringTake_keeps (A : Allows P m) (h : m &&& 10670512416 = 10670512416) :
    ∀ x0 s, P s → ∀ t, execStringTake x0 s = .next t → P t := by
  have A := A.mono h
  clear h
  have kStringTake := stringTake_keeps A rfl
  intro x0 s  hs
  intro t e
  cases e
  repeat' first
    | with_reducible first
        | assumption | refine kStringTake _ _  ?_
    | (extract_lets -underBinder +onlyGivenNames x; refine keeps_fact (P := P) (v := x) ?_ ?_; rotate_left; clear_value x; revert x; intro _ _; rotate_left; unfold x; clear x)
    | (extract_lets -underBinder +onlyGivenNames x; clear_value x; revert x; intro _)
    | intro _
    | split
    | with_reducible first | refine keeps_pair (by with_reducible assumption) ?_ | refine keeps_triple (by with_reducible assumption) ?_ | refine keeps_pairL (by with_reducible assumption) ?_

theorem execAdoption_keeps (A : Allows P m) (h : m &&& 10672413984 = 10672413984) :
    ∀ s, P s → ∀ t, execAdoption s = .next t → P t := by
  have A := A.mono h
  clear h
  have kAdoption := adoption_keeps A rfl
  intro s  hs
  intro t e
  cases e
  repeat' first
    | with_reducible first
        | assumption | refine kAdoption _  ?_
    | (extract_lets -underBinder +onlyGivenNames x; refine keeps_fact (P := P) (v := x) ?_ ?_; rotate_left; clear_value x; revert x; intro _ _; rotate_left; unfold x; clear x)
    | (extract_lets -underBinder +onlyGivenNames x; clear_value x; revert x; intro _)
    | intro _
    | split
    | with_reducible first | refine keeps_pair (by with_reducible assumption) ?_ | refine keeps_triple (by with_reducible assumption) ?_ | refine keeps_pairL (by with_reducible assumption) ?_

theorem execCheckpoint_keeps (A : Allows P m) (h : m &&& 335547392 = 335547392) :
    ∀ s, P s → ∀ t, execCheckpoint s = .next t → P t := by
  have A := A.mono h
  clear h
  have kCheckpoint := checkpoint_keeps A rfl
  intro s  hs
  intro t e
  cases e
  repeat' first
    | with_reducible first
        | assumption | refine kCheckpoint _  ?_
    | (extract_lets -underBinder +onlyGivenNames x; refine keeps_fact (P := P) (v := x) ?_ ?_; rotate_left; clear_value x; revert x; intro _ _; rotate_left; unfold x; clear x)
    | (extract_lets -underBinder +onlyGivenNames x; clear_value x; revert x; intro _)
    | intro _
    | split
    | with_reducible first | refine keeps_pair (by with_reducible assumption) ?_ | refine keeps_triple (by with_reducible assumption) ?_ | refine keeps_pairL (by with_reducible assumption) ?_

theorem execCustodianActuatorWrite_keeps (A : Allows P m) (h : m &&& 268437504 = 268437504) :
    ∀ x0 x1 x2 s, P s → ∀ t, execCustodianActuatorWrite x0 x1 x2 s = .next t → P t := by
  have A := A.mono h
  clear h
  have kActuatorWrite := actuatorWrite_keeps A rfl
  intro x0 x1 x2 s  hs
  intro t e
  cases e
  repeat' first
    | with_reducible first
        | assumption | refine kActuatorWrite _ _ _ _  ?_
    | (extract_lets -underBinder +onlyGivenNames x; refine keeps_fact (P := P) (v := x) ?_ ?_; rotate_left; clear_value x; revert x; intro _ _; rotate_left; unfold x; clear x)
    | (extract_lets -underBinder +onlyGivenNames x; clear_value x; revert x; intro _)
    | intro _
    | split
    | with_reducible first | refine keeps_pair (by with_reducible assumption) ?_ | refine keeps_triple (by with_reducible assumption) ?_ | refine keeps_pairL (by with_reducible assumption) ?_

theorem execStringCopyDisagree_keeps (A : Allows P m) (h : m &&& 10603206944 = 10603206944) :
    ∀ s, P s → ∀ t, execStringCopyDisagree s = .next t → P t := by
  have A := A.mono h
  clear h
  have kCopyDisagree := copyDisagree_keeps A rfl
  intro s  hs
  intro t e
  cases e
  repeat' first
    | with_reducible first
        | assumption | refine kCopyDisagree _  ?_
    | (extract_lets -underBinder +onlyGivenNames x; refine keeps_fact (P := P) (v := x) ?_ ?_; rotate_left; clear_value x; revert x; intro _ _; rotate_left; unfold x; clear x)
    | (extract_lets -underBinder +onlyGivenNames x; clear_value x; revert x; intro _)
    | intro _
    | split
    | with_reducible first | refine keeps_pair (by with_reducible assumption) ?_ | refine keeps_triple (by with_reducible assumption) ?_ | refine keeps_pairL (by with_reducible assumption) ?_

theorem execPreloadEnd_keeps (A : Allows P m) (h : m &&& 10603206944 = 10603206944) :
    ∀ x0 x1 s, P s → ∀ t, execPreloadEnd x0 x1 s = .next t → P t := by
  have A := A.mono h
  clear h
  have kPreloadEnd := preloadEnd_keeps A rfl
  intro x0 x1 s  hs
  intro t e
  cases e
  repeat' first
    | with_reducible first
        | assumption | refine kPreloadEnd _ _ _  ?_
    | (extract_lets -underBinder +onlyGivenNames x; refine keeps_fact (P := P) (v := x) ?_ ?_; rotate_left; clear_value x; revert x; intro _ _; rotate_left; unfold x; clear x)
    | (extract_lets -underBinder +onlyGivenNames x; clear_value x; revert x; intro _)
    | intro _
    | split
    | with_reducible first | refine keeps_pair (by with_reducible assumption) ?_ | refine keeps_triple (by with_reducible assumption) ?_ | refine keeps_pairL (by with_reducible assumption) ?_

end Sys2Proof.Laws
end

