-- ==== Sys2Proof/Laws/EgressCmd.lean ====
section
/-! SUPPORT. What each operation of Machine/EgressCmd.lean can change (Laws/Keeps.lean). -/

namespace Sys2Proof.Laws

open Sys2Proof.Machine

variable {P : State → Prop} {m : Nat}

theorem runShaperSet_keeps (A : Allows P m) (h : m &&& 10351548704 = 10351548704) :
    ∀ x0 x1 x2 s, P s → P (runShaperSet x0 x1 x2 s).2 := by
  have A := A.mono h
  clear h
  have kDataCheck := dataCheck_keeps A rfl
  have kModEgs := modEgs_keeps A rfl
  have kModInflight := modInflight_keeps A rfl
  intro x0 x1 x2 s  hs
  unfold runShaperSet
  repeat' first
    | with_reducible first
        | assumption | refine kDataCheck _ _ _ _ _  ?_ | refine kModEgs _ _  ?_ | refine kModInflight _ _ _  ?_
        | refine each_keeps _ _ (fun _ _ _ => ?_) _ ?_
    | (extract_lets -underBinder +onlyGivenNames x; refine keeps_fact (P := P) (v := x) ?_ ?_; rotate_left; clear_value x; revert x; intro _ _; rotate_left; unfold x; clear x)
    | (extract_lets -underBinder +onlyGivenNames x; have h := fun a => x a; clear h; unfold x; clear x)
    | (extract_lets -underBinder +onlyGivenNames x; clear_value x; revert x; intro _)
    | intro _
    | split
    | with_reducible first | refine keeps_pair (by with_reducible assumption) ?_ | refine keeps_triple (by with_reducible assumption) ?_ | refine keeps_pairL (by with_reducible assumption) ?_

theorem shaperUpdate_keeps (A : Allows P m) (h : m &&& 16816400 = 16816400) :
    ∀ s, P s → P (shaperUpdate s) := by
  have A := A.mono h
  clear h
  have kModEgs := modEgs_keeps A rfl
  have kUpdateNode := updateNode_keeps A rfl
  have kFinish := finish_keeps A rfl
  intro s  hs
  unfold shaperUpdate
  repeat' first
    | with_reducible first
        | assumption | refine kModEgs _ _  ?_ | refine kUpdateNode _ _  ?_ | refine kFinish _ _ _ _ _ _  ?_
        | refine each_keeps _ _ (fun _ _ _ => ?_) _ ?_
    | (extract_lets -underBinder +onlyGivenNames x; refine keeps_fact (P := P) (v := x) ?_ ?_; rotate_left; clear_value x; revert x; intro _ _; rotate_left; unfold x; clear x)
    | (extract_lets -underBinder +onlyGivenNames x; clear_value x; revert x; intro _)
    | intro _
    | split

theorem runGateLoad_keeps (A : Allows P m) (h : m &&& 10334771488 = 10334771488) :
    ∀ x0 x1 x2 s, P s → P (runGateLoad x0 x1 x2 s).2 := by
  have A := A.mono h
  clear h
  have kDataCheck := dataCheck_keeps A rfl
  intro x0 x1 x2 s  hs
  unfold runGateLoad
  repeat' first
    | with_reducible first
        | assumption | refine kDataCheck _ _ _ _ _  ?_
    | (extract_lets -underBinder +onlyGivenNames x; refine keeps_fact (P := P) (v := x) ?_ ?_; rotate_left; clear_value x; revert x; intro _ _; rotate_left; unfold x; clear x)
    | (extract_lets -underBinder +onlyGivenNames x; clear_value x; revert x; intro _)
    | split
    | with_reducible first | refine keeps_pair (by with_reducible assumption) ?_ | refine keeps_triple (by with_reducible assumption) ?_ | refine keeps_pairL (by with_reducible assumption) ?_

theorem stepGateLoad_keeps (A : Allows P m) (h : m &&& 16777216 = 16777216) :
    ∀ x0 x1 x2 s, P s → P (stepGateLoad x0 x1 x2 s).2 := by
  have A := A.mono h
  clear h
  have kModGates := modGates_keeps A rfl
  intro x0 x1 x2 s  hs
  unfold stepGateLoad
  repeat' first
    | with_reducible first
        | assumption | refine kModGates _ _ _  ?_ | refine each_keeps _ _ (fun _ _ _ => ?_) _ ?_
    | (extract_lets -underBinder +onlyGivenNames x; refine keeps_fact (P := P) (v := x) ?_ ?_; rotate_left; clear_value x; revert x; intro _ _; rotate_left; unfold x; clear x)
    | (extract_lets -underBinder +onlyGivenNames x; clear_value x; revert x; intro _)
    | intro _
    | split

theorem portDown_keeps (A : Allows P m) (h : m &&& 10389731616 = 10389731616) :
    ∀ x0 s, P s → P (portDown x0 s) := by
  have A := A.mono h
  clear h
  have kModEgs := modEgs_keeps A rfl
  have kModTim := modTim_keeps A rfl
  have kRaise := raise_keeps A rfl
  have kDropPort := dropPort_keeps A rfl
  intro x0 s  hs
  unfold portDown
  repeat' first
    | with_reducible first
        | assumption | refine kModEgs _ _  ?_ | refine kModTim _ _  ?_ | refine kRaise _ _ _ _ _ _ _  ?_
        | refine kDropPort _ _  ?_
    | (extract_lets -underBinder +onlyGivenNames x; refine keeps_fact (P := P) (v := x) ?_ ?_; rotate_left; clear_value x; revert x; intro _ _; rotate_left; unfold x; clear x)
    | (extract_lets -underBinder +onlyGivenNames x; clear_value x; revert x; intro _)
    | intro _
    | split

theorem lanesLock_keeps (A : Allows P m) (h : m &&& 33554432 = 33554432) :
    ∀ x0 s, P s → P (lanesLock x0 s) := by
  have A := A.mono h
  clear h
  have kModTim := modTim_keeps A rfl
  intro x0 s  hs
  unfold lanesLock
  repeat' first
    | with_reducible first
        | assumption | refine kModTim _ _  ?_
    | (extract_lets -underBinder +onlyGivenNames x; refine keeps_fact (P := P) (v := x) ?_ ?_; rotate_left; clear_value x; revert x; intro _ _; rotate_left; unfold x; clear x)
    | (extract_lets -underBinder +onlyGivenNames x; have h := fun a => x a; clear h; unfold x; clear x)
    | (extract_lets -underBinder +onlyGivenNames x; clear_value x; revert x; intro _)
    | intro _
    | split

theorem linkTrainingDone_keeps (A : Allows P m) (h : m &&& 10385103136 = 10385103136) :
    ∀ x0 s, P s → P (linkTrainingDone x0 s) := by
  have A := A.mono h
  clear h
  have kRaise := raise_keeps A rfl
  have kLanesLock := lanesLock_keeps A rfl
  have kModEgs := modEgs_keeps A rfl
  intro x0 s  hs
  unfold linkTrainingDone
  repeat' first
    | with_reducible first
        | assumption | refine kRaise _ _ _ _ _ _ _  ?_ | refine kLanesLock _ _  ?_ | refine kModEgs _ _  ?_
    | intro _
    | split

theorem portCompReady_keeps (A : Allows P m) (h : m &&& 33554432 = 33554432) :
    ∀ x0 x1 x2 s, P s → P (portCompReady x0 x1 x2 s) := by
  have A := A.mono h
  clear h
  have kModTim := modTim_keeps A rfl
  intro x0 x1 x2 s  hs
  unfold portCompReady
  repeat' first
    | with_reducible first
        | assumption | refine kModTim _ _  ?_
    | intro _
    | split

theorem auditStart_keeps (A : Allows P m) (h : m &&& 4194304 = 4194304) :
    ∀ x0 s, P s → P (auditStart x0 s) := by
  have A := A.mono h
  clear h
  have kModBuf := modBuf_keeps A rfl
  intro x0 s  hs
  unfold auditStart
  repeat' first
    | with_reducible first
        | assumption | refine kModBuf _ _  ?_
    | (extract_lets -underBinder +onlyGivenNames x; refine keeps_fact (P := P) (v := x) ?_ ?_; rotate_left; clear_value x; revert x; intro _ _; rotate_left; unfold x; clear x)
    | (extract_lets -underBinder +onlyGivenNames x; clear_value x; revert x; intro _)
    | intro _
    | split
    | with_reducible first | refine keeps_pair (by with_reducible assumption) ?_ | refine keeps_triple (by with_reducible assumption) ?_ | refine keeps_pairL (by with_reducible assumption) ?_

theorem leakCell_keeps (A : Allows P m) (h : m &&& 10338965792 = 10338965792) :
    ∀ x0 x1 x2 s, P s → P (leakCell x0 x1 x2 s) := by
  have A := A.mono h
  clear h
  have kRaise := raise_keeps A rfl
  have kCntInc := cntInc_keeps A rfl
  have kModBuf := modBuf_keeps A rfl
  intro x0 x1 x2 s  hs
  unfold leakCell
  repeat' first
    | with_reducible first
        | assumption | refine kRaise _ _ _ _ _ _ _  ?_ | refine kCntInc _ _ _ _  ?_ | refine kModBuf _ _  ?_
    | (extract_lets -underBinder +onlyGivenNames x; refine keeps_fact (P := P) (v := x) ?_ ?_; rotate_left; clear_value x; revert x; intro _ _; rotate_left; unfold x; clear x)
    | (extract_lets -underBinder +onlyGivenNames x; clear_value x; revert x; intro _)
    | intro _
    | split

theorem auditEnd_keeps (A : Allows P m) (h : m &&& 10338965792 = 10338965792) :
    ∀ x0 s, P s → P (auditEnd x0 s) := by
  have A := A.mono h
  clear h
  have kModBuf := modBuf_keeps A rfl
  have kCntInc := cntInc_keeps A rfl
  have kRaise := raise_keeps A rfl
  have kLeakCell := leakCell_keeps A rfl
  intro x0 s  hs
  unfold auditEnd
  repeat' first
    | with_reducible first
        | assumption | refine kModBuf _ _  ?_ | refine kCntInc _ _ _ _  ?_ | refine kRaise _ _ _ _ _ _ _  ?_
        | refine kLeakCell _ _ _ _  ?_ | refine each_keeps _ _ (fun _ _ _ => ?_) _ ?_
    | (extract_lets -underBinder +onlyGivenNames x; refine keeps_fact (P := P) (v := x) ?_ ?_; rotate_left; clear_value x; revert x; intro _ _; rotate_left; unfold x; clear x)
    | (extract_lets -underBinder +onlyGivenNames x; clear_value x; revert x; intro _)
    | intro _
    | split

theorem execShaperSet_keeps (A : Allows P m) (h : m &&& 10351548720 = 10351548720) :
    ∀ x0 x1 s, P s → ∀ t, execShaperSet x0 x1 s = .next t → P t := by
  have A := A.mono h
  clear h
  have kCommand := command_keeps A rfl
  have kRunShaperSet := runShaperSet_keeps A rfl
  intro x0 x1 s  hs
  intro t e
  cases e
  repeat' first
    | with_reducible first
        | assumption | refine kCommand _ _ _ ?_ ?_ | refine kRunShaperSet _ _ _ _  ?_
        | refine each_keeps _ _ (fun _ _ _ => ?_) _ ?_ | refine foldl_keeps _ _ (fun _ _ _ => ?_) _ ?_
    | (extract_lets -underBinder +onlyGivenNames x; refine keeps_fact (P := P) (v := x) ?_ ?_; rotate_left; clear_value x; revert x; intro _ _; rotate_left; unfold x; clear x)
    | (extract_lets -underBinder +onlyGivenNames x; refine keeps_fact2 (P := P) (v := x) ?_ ?_; rotate_left; clear_value x; revert x; intro _ _; rotate_left; unfold x; clear x)
    | (extract_lets -underBinder +onlyGivenNames x; have h := fun a => x a; clear h; unfold x; clear x)
    | (extract_lets -underBinder +onlyGivenNames x; clear_value x; revert x; intro _)
    | intro _
    | split
    | with_reducible first | refine keeps_pair (by with_reducible assumption) ?_ | refine keeps_triple (by with_reducible assumption) ?_ | refine keeps_pairL (by with_reducible assumption) ?_

theorem execShaperUpdate_keeps (A : Allows P m) (h : m &&& 16816400 = 16816400) :
    ∀ s, P s → ∀ t, execShaperUpdate s = .next t → P t := by
  have A := A.mono h
  clear h
  have kShaperUpdate := shaperUpdate_keeps A rfl
  intro s  hs
  intro t e
  cases e
  repeat' first
    | with_reducible first
        | assumption | refine kShaperUpdate _  ?_
    | (extract_lets -underBinder +onlyGivenNames x; refine keeps_fact (P := P) (v := x) ?_ ?_; rotate_left; clear_value x; revert x; intro _ _; rotate_left; unfold x; clear x)
    | (extract_lets -underBinder +onlyGivenNames x; clear_value x; revert x; intro _)
    | intro _
    | split
    | with_reducible first | refine keeps_pair (by with_reducible assumption) ?_ | refine keeps_triple (by with_reducible assumption) ?_ | refine keeps_pairL (by with_reducible assumption) ?_

theorem execGateLoad_keeps (A : Allows P m) (h : m &&& 10334771504 = 10334771504) :
    ∀ x0 x1 s, P s → ∀ t, execGateLoad x0 x1 s = .next t → P t := by
  have A := A.mono h
  clear h
  have kCommand := command_keeps A rfl
  have kRunGateLoad := runGateLoad_keeps A rfl
  intro x0 x1 s  hs
  intro t e
  cases e
  repeat' first
    | with_reducible first
        | assumption | refine kCommand _ _ _ ?_ ?_ | refine kRunGateLoad _ _ _ _  ?_
    | (extract_lets -underBinder +onlyGivenNames x; refine keeps_fact (P := P) (v := x) ?_ ?_; rotate_left; clear_value x; revert x; intro _ _; rotate_left; unfold x; clear x)
    | (extract_lets -underBinder +onlyGivenNames x; clear_value x; revert x; intro _)
    | intro _
    | split
    | with_reducible first | refine keeps_pair (by with_reducible assumption) ?_ | refine keeps_triple (by with_reducible assumption) ?_ | refine keeps_pairL (by with_reducible assumption) ?_

theorem execLinkTrainingDone_keeps (A : Allows P m) (h : m &&& 10385103136 = 10385103136) :
    ∀ x0 s, P s → ∀ t, execLinkTrainingDone x0 s = .next t → P t := by
  have A := A.mono h
  clear h
  have kLinkTrainingDone := linkTrainingDone_keeps A rfl
  intro x0 s  hs
  intro t e
  cases e
  repeat' first
    | with_reducible first
        | assumption | refine kLinkTrainingDone _ _  ?_
    | (extract_lets -underBinder +onlyGivenNames x; refine keeps_fact (P := P) (v := x) ?_ ?_; rotate_left; clear_value x; revert x; intro _ _; rotate_left; unfold x; clear x)
    | (extract_lets -underBinder +onlyGivenNames x; clear_value x; revert x; intro _)
    | intro _
    | split
    | with_reducible first | refine keeps_pair (by with_reducible assumption) ?_ | refine keeps_triple (by with_reducible assumption) ?_ | refine keeps_pairL (by with_reducible assumption) ?_

theorem execLinkLoss_keeps (A : Allows P m) (h : m &&& 10389731616 = 10389731616) :
    ∀ x0 s, P s → ∀ t, execLinkLoss x0 s = .next t → P t := by
  have A := A.mono h
  clear h
  have kPortDown := portDown_keeps A rfl
  intro x0 s  hs
  intro t e
  cases e
  repeat' first
    | with_reducible first
        | assumption | refine kPortDown _ _  ?_
    | (extract_lets -underBinder +onlyGivenNames x; refine keeps_fact (P := P) (v := x) ?_ ?_; rotate_left; clear_value x; revert x; intro _ _; rotate_left; unfold x; clear x)
    | (extract_lets -underBinder +onlyGivenNames x; clear_value x; revert x; intro _)
    | intro _
    | split
    | with_reducible first | refine keeps_pair (by with_reducible assumption) ?_ | refine keeps_triple (by with_reducible assumption) ?_ | refine keeps_pairL (by with_reducible assumption) ?_

theorem execPortCompReady_keeps (A : Allows P m) (h : m &&& 33554432 = 33554432) :
    ∀ x0 x1 x2 s, P s → ∀ t, execPortCompReady x0 x1 x2 s = .next t → P t := by
  have A := A.mono h
  clear h
  have kPortCompReady := portCompReady_keeps A rfl
  intro x0 x1 x2 s  hs
  intro t e
  cases e
  repeat' first
    | with_reducible first
        | assumption | refine kPortCompReady _ _ _ _  ?_
    | (extract_lets -underBinder +onlyGivenNames x; refine keeps_fact (P := P) (v := x) ?_ ?_; rotate_left; clear_value x; revert x; intro _ _; rotate_left; unfold x; clear x)
    | (extract_lets -underBinder +onlyGivenNames x; clear_value x; revert x; intro _)
    | intro _
    | split
    | with_reducible first | refine keeps_pair (by with_reducible assumption) ?_ | refine keeps_triple (by with_reducible assumption) ?_ | refine keeps_pairL (by with_reducible assumption) ?_

theorem execAuditStart_keeps (A : Allows P m) (h : m &&& 4194304 = 4194304) :
    ∀ x0 s, P s → ∀ t, execAuditStart x0 s = .next t → P t := by
  have A := A.mono h
  clear h
  have kAuditStart := auditStart_keeps A rfl
  intro x0 s  hs
  intro t e
  cases e
  repeat' first
    | with_reducible first
        | assumption | refine kAuditStart _ _  ?_
    | (extract_lets -underBinder +onlyGivenNames x; refine keeps_fact (P := P) (v := x) ?_ ?_; rotate_left; clear_value x; revert x; intro _ _; rotate_left; unfold x; clear x)
    | (extract_lets -underBinder +onlyGivenNames x; clear_value x; revert x; intro _)
    | intro _
    | split
    | with_reducible first | refine keeps_pair (by with_reducible assumption) ?_ | refine keeps_triple (by with_reducible assumption) ?_ | refine keeps_pairL (by with_reducible assumption) ?_

theorem execAuditEnd_keeps (A : Allows P m) (h : m &&& 10338965792 = 10338965792) :
    ∀ x0 s, P s → ∀ t, execAuditEnd x0 s = .next t → P t := by
  have A := A.mono h
  clear h
  have kAuditEnd := auditEnd_keeps A rfl
  intro x0 s  hs
  intro t e
  cases e
  repeat' first
    | with_reducible first
        | assumption | refine kAuditEnd _ _  ?_
    | (extract_lets -underBinder +onlyGivenNames x; refine keeps_fact (P := P) (v := x) ?_ ?_; rotate_left; clear_value x; revert x; intro _ _; rotate_left; unfold x; clear x)
    | (extract_lets -underBinder +onlyGivenNames x; clear_value x; revert x; intro _)
    | intro _
    | split
    | with_reducible first | refine keeps_pair (by with_reducible assumption) ?_ | refine keeps_triple (by with_reducible assumption) ?_ | refine keeps_pairL (by with_reducible assumption) ?_

end Sys2Proof.Laws
end

