-- ==== Sys2Proof/Laws/Flow.lean ====
section
/-! SUPPORT. What each operation of Machine/Flow.lean can change (Laws/Keeps.lean). -/

namespace Sys2Proof.Laws

open Sys2Proof.Machine

variable {P : State → Prop} {m : Nat}

theorem tellPeer_keeps (A : Allows P m) (h : m &&& 131072 = 131072) :
    ∀ x0 s, P s → P (tellPeer x0 s) := by
  have A := A.mono h
  clear h
  have kModSlice := modSlice_keeps A rfl
  intro x0 s  hs
  unfold tellPeer
  repeat' first
    | with_reducible first
        | assumption | refine kModSlice _ _ _  ?_
    | (extract_lets -underBinder +onlyGivenNames x; refine keeps_fact (P := P) (v := x) ?_ ?_; rotate_left; clear_value x; revert x; intro _ _; rotate_left; unfold x; clear x)
    | (extract_lets -underBinder +onlyGivenNames x; clear_value x; revert x; intro _)
    | intro _
    | split
    | with_reducible first | refine keeps_pair (by with_reducible assumption) ?_ | refine keeps_triple (by with_reducible assumption) ?_ | refine keeps_pairL (by with_reducible assumption) ?_

theorem releasePort_keeps (A : Allows P m) (h : m &&& 131072 = 131072) :
    ∀ x0 s, P s → P (releasePort x0 s) := by
  have A := A.mono h
  clear h
  have kModSlice := modSlice_keeps A rfl
  intro x0 s  hs
  unfold releasePort
  repeat' first
    | with_reducible first
        | assumption | refine kModSlice _ _ _  ?_
    | (extract_lets -underBinder +onlyGivenNames x; refine keeps_fact (P := P) (v := x) ?_ ?_; rotate_left; clear_value x; revert x; intro _ _; rotate_left; unfold x; clear x)
    | (extract_lets -underBinder +onlyGivenNames x; clear_value x; revert x; intro _)
    | intro _
    | split

theorem invalFreed_keeps (A : Allows P m) (h : m &&& 131072 = 131072) :
    ∀ x0 x1 s, P s → P (invalFreed x0 x1 s) := by
  have A := A.mono h
  clear h
  have kQueueWrite := queueWrite_keeps A rfl
  have kSendInval := sendInval_keeps A rfl
  intro x0 x1 s  hs
  unfold invalFreed
  repeat' first
    | with_reducible first
        | assumption | refine kQueueWrite _ _ _  ?_ | refine kSendInval _ _ _ _ _  ?_
    | intro _
    | split

theorem dropPulls_keeps (A : Allows P m) (h : m &&& 2230272 = 2230272) :
    ∀ x0 x1 s, P s → P (dropPulls x0 x1 s) := by
  have A := A.mono h
  clear h
  have kReplyCore := replyCore_keeps A rfl
  have kModSlice := modSlice_keeps A rfl
  intro x0 x1 s  hs
  unfold dropPulls
  repeat' first
    | with_reducible first
        | assumption | refine kReplyCore _ _ _ _  ?_ | refine kModSlice _ _ _  ?_
        | refine each_keeps _ _ (fun _ _ _ => ?_) _ ?_
    | (extract_lets -underBinder +onlyGivenNames x; refine keeps_fact (P := P) (v := x) ?_ ?_; rotate_left; clear_value x; revert x; intro _ _; rotate_left; unfold x; clear x)
    | (extract_lets -underBinder +onlyGivenNames x; clear_value x; revert x; intro _)
    | intro _

theorem freeRecord_keeps (A : Allows P m) (h : m &&& 10366663968 = 10366663968) :
    ∀ x0 x1 s, P s → P (freeRecord x0 x1 s) := by
  have A := A.mono h
  clear h
  have kReleasePort := releasePort_keeps A rfl
  have kTellPeer := tellPeer_keeps A rfl
  have kRetryRebinds := retryRebinds_keeps A rfl
  have kCancelRecord := cancelRecord_keeps A rfl
  have kModSlice := modSlice_keeps A rfl
  have kInvalFreed := invalFreed_keeps A rfl
  have kReturnNo := returnNo_keeps A rfl
  have kClearIdx := clearIdx_keeps A rfl
  have kDropHot := dropHot_keeps A rfl
  have kSetEnd := setEnd_keeps A rfl
  have kDropPulls := dropPulls_keeps A rfl
  intro x0 x1 s  hs
  unfold freeRecord
  repeat' first
    | with_reducible first
        | assumption | refine kReleasePort _ _  ?_ | refine kTellPeer _ _  ?_ | refine kRetryRebinds _ _ _  ?_
        | refine kCancelRecord _ _ _  ?_ | refine kModSlice _ _ _  ?_ | refine kInvalFreed _ _ _  ?_
        | refine kReturnNo _ _  ?_ | refine kClearIdx _ _ _ _  ?_ | refine kDropHot _ _ _  ?_
        | refine kSetEnd _ _ _  ?_ | refine kDropPulls _ _ _  ?_
    | (extract_lets -underBinder +onlyGivenNames x; refine keeps_fact (P := P) (v := x) ?_ ?_; rotate_left; clear_value x; revert x; intro _ _; rotate_left; unfold x; clear x)
    | (extract_lets -underBinder +onlyGivenNames x; clear_value x; revert x; intro _)
    | intro _
    | split
    | with_reducible first | refine keeps_pair (by with_reducible assumption) ?_ | refine keeps_triple (by with_reducible assumption) ?_ | refine keeps_pairL (by with_reducible assumption) ?_ | refine A.flow rfl _ _ ?_

theorem endLife_keeps (A : Allows P m) (h : m &&& 1024 = 1024) :
    ∀ x0 x1 x2 s, P s → P (endLife x0 x1 x2 s) := by
  have A := A.mono h
  clear h
  have kSetRec := setRec_keeps A rfl
  intro x0 x1 x2 s  hs
  unfold endLife
  repeat' first
    | with_reducible first
        | assumption | refine kSetRec _ _ _ _ _  ?_
    | (extract_lets -underBinder +onlyGivenNames x; refine keeps_fact (P := P) (v := x) ?_ ?_; rotate_left; clear_value x; revert x; intro _ _; rotate_left; unfold x; clear x)
    | (extract_lets -underBinder +onlyGivenNames x; clear_value x; revert x; intro _)
    | split

theorem endCount_keeps (A : Allows P m) (h : m &&& 133120 = 133120) :
    ∀ x0 x1 x2 x3 s, P s → P (endCount x0 x1 x2 x3 s) := by
  have A := A.mono h
  clear h
  have kFleCnt := fleCnt_keeps A rfl
  have kSetEnd := setEnd_keeps A rfl
  intro x0 x1 x2 x3 s  hs
  unfold endCount
  repeat' first
    | with_reducible first
        | assumption | refine kFleCnt _ _ _  ?_ | refine kSetEnd _ _ _  ?_
    | (extract_lets -underBinder +onlyGivenNames x; refine keeps_fact (P := P) (v := x) ?_ ?_; rotate_left; clear_value x; revert x; intro _ _; rotate_left; unfold x; clear x)
    | (extract_lets -underBinder +onlyGivenNames x; clear_value x; revert x; intro _)
    | split
    | with_reducible first | refine A.flow rfl _ _ ?_

theorem endRecord_keeps (A : Allows P m) (h : m &&& 10366663968 = 10366663968) :
    ∀ x0 x1 x2 x3 x4 s, P s → P (endRecord x0 x1 x2 x3 x4 s) := by
  have A := A.mono h
  clear h
  have kEndCount := endCount_keeps A rfl
  have kEndLife := endLife_keeps A rfl
  have kBump := bump_keeps A rfl
  have kOfferExport := offerExport_keeps A rfl
  have kExportNow := exportNow_keeps A rfl
  have kFreeRecord := freeRecord_keeps A rfl
  intro x0 x1 x2 x3 x4 s  hs
  unfold endRecord
  repeat' first
    | with_reducible first
        | assumption | refine kEndCount _ _ _ _ _  ?_ | refine kEndLife _ _ _ _  ?_ | refine kBump _ _ _ _ _  ?_
        | refine kOfferExport _ _ _ _ _ _ _  ?_ | refine kExportNow _ _  ?_ | refine kFreeRecord _ _ _  ?_
    | (extract_lets -underBinder +onlyGivenNames x; refine keeps_fact (P := P) (v := x) ?_ ?_; rotate_left; clear_value x; revert x; intro _ _; rotate_left; unfold x; clear x)
    | (extract_lets -underBinder +onlyGivenNames x; clear_value x; revert x; intro _)
    | split

theorem sendPull_keeps (A : Allows P m) (h : m &&& 131072 = 131072) :
    ∀ x0 x1 s, P s → P (sendPull x0 x1 s) := by
  have A := A.mono h
  clear h
  have kSendChan := sendChan_keeps A rfl
  intro x0 x1 s  hs
  unfold sendPull
  repeat' first
    | with_reducible first
        | assumption | refine kSendChan _ _ _ _  ?_ | refine each_keeps _ _ (fun _ _ _ => ?_) _ ?_
    | intro _

theorem startPull_keeps (A : Allows P m) (h : m &&& 131072 = 131072) :
    ∀ x0 x1 x2 x3 s, P s → P (startPull x0 x1 x2 x3 s) := by
  have A := A.mono h
  clear h
  have kSendPull := sendPull_keeps A rfl
  have kModSlice := modSlice_keeps A rfl
  intro x0 x1 x2 x3 s  hs
  unfold startPull
  repeat' first
    | with_reducible first
        | assumption | refine kSendPull _ _ _  ?_ | refine kModSlice _ _ _  ?_
    | (extract_lets -underBinder +onlyGivenNames x; refine keeps_fact (P := P) (v := x) ?_ ?_; rotate_left; clear_value x; revert x; intro _ _; rotate_left; unfold x; clear x)
    | (extract_lets -underBinder +onlyGivenNames x; clear_value x; revert x; intro _)
    | intro _
    | split
    | with_reducible first | refine keeps_pair (by with_reducible assumption) ?_ | refine keeps_triple (by with_reducible assumption) ?_ | refine keeps_pairL (by with_reducible assumption) ?_

theorem evict_keeps (A : Allows P m) (h : m &&& 10366663968 = 10366663968) :
    ∀ x0 s, P s → P (evict x0 s).2 := by
  have A := A.mono h
  clear h
  have kStartPull := startPull_keeps A rfl
  have kEndRecord := endRecord_keeps A rfl
  intro x0 s  hs
  unfold evict
  repeat' first
    | with_reducible first
        | assumption | refine kStartPull _ _ _ _ _  ?_ | refine kEndRecord _ _ _ _ _ _  ?_
    | (extract_lets -underBinder +onlyGivenNames x; refine keeps_fact (P := P) (v := x) ?_ ?_; rotate_left; clear_value x; revert x; intro _ _; rotate_left; unfold x; clear x)
    | (extract_lets -underBinder +onlyGivenNames x; clear_value x; revert x; intro _)
    | split

theorem evictOne_keeps (A : Allows P m) (h : m &&& 10366663976 = 10366663976) :
    ∀ x0 x1 x2 x3 s, P s → P (evictOne x0 x1 x2 x3 s).2 := by
  have A := A.mono h
  clear h
  have kEvict := evict_keeps A rfl
  have kUseFree := useFree_keeps A rfl
  intro x0 x1 x2 x3 s  hs
  unfold evictOne
  repeat' first
    | with_reducible first
        | assumption | refine kEvict _ _  ?_ | refine kUseFree _  ?_
        | refine foldl_keeps _ _ (fun _ _ _ => ?_) _ ?_
    | (extract_lets -underBinder +onlyGivenNames x; refine keeps_fact (P := P) (v := x) ?_ ?_; rotate_left; clear_value x; revert x; intro _ _; rotate_left; unfold x; clear x)
    | (extract_lets -underBinder +onlyGivenNames x; clear_value x; revert x; intro _)
    | intro _
    | split
    | with_reducible first | refine keeps_pair (by with_reducible assumption) ?_ | refine keeps_triple (by with_reducible assumption) ?_ | refine keeps_pairL (by with_reducible assumption) ?_

theorem findRoom_keeps (A : Allows P m) (h : m &&& 10366663976 = 10366663976) :
    ∀ x0 x1 x2 x3 x4 x5 s, P s → P (findRoom x0 x1 x2 x3 x4 x5 s).2 := by
  have A := A.mono h
  clear h
  have kEvictOne := evictOne_keeps A rfl
  have kRaise := raise_keeps A rfl
  intro x0 x1 x2 x3 x4 n
  induction n with
  | zero =>
    intro s hs
    unfold findRoom
    repeat' first
      | with_reducible first
          | assumption | refine kEvictOne _ _ _ _ _  ?_ | refine kRaise _ _ _ _ _ _ _  ?_
      | split
      | with_reducible first | refine keeps_pair (by with_reducible assumption) ?_ | refine keeps_triple (by with_reducible assumption) ?_ | refine keeps_pairL (by with_reducible assumption) ?_
  | succ n ih =>
    intro s hs
    unfold findRoom
    repeat' first
      | with_reducible first
          | assumption | refine kEvictOne _ _ _ _ _  ?_ | refine kRaise _ _ _ _ _ _ _  ?_ | refine ih _ ?_
      | split
      | with_reducible first | refine keeps_pair (by with_reducible assumption) ?_ | refine keeps_triple (by with_reducible assumption) ?_ | refine keeps_pairL (by with_reducible assumption) ?_

theorem takeRecord_keeps (A : Allows P m) (h : m &&& 10366663976 = 10366663976) :
    ∀ x0 x1 x2 x3 x4 s, P s → P (takeRecord x0 x1 x2 x3 x4 s).2 := by
  have A := A.mono h
  clear h
  have kFindRoom := findRoom_keeps A rfl
  have kPutIdx := putIdx_keeps A rfl
  have kTakeNo := takeNo_keeps A rfl
  intro x0 x1 x2 x3 x4 s  hs
  unfold takeRecord
  repeat' first
    | with_reducible first
        | assumption | refine kFindRoom _ _ _ _ _ _ _  ?_ | refine kPutIdx _ _ _  ?_ | refine kTakeNo _ _  ?_
    | split
    | with_reducible first | refine keeps_pair (by with_reducible assumption) ?_ | refine keeps_triple (by with_reducible assumption) ?_ | refine keeps_pairL (by with_reducible assumption) ?_

theorem writeRecord_keeps (A : Allows P m) (h : m &&& 67240960 = 67240960) :
    ∀ x0 x1 s, P s → P (writeRecord x0 x1 s) := by
  have A := A.mono h
  clear h
  have kBlockWrite := blockWrite_keeps A rfl
  have kSetEnd := setEnd_keeps A rfl
  intro x0 x1 s  hs
  unfold writeRecord
  repeat' first
    | with_reducible first
        | assumption | refine kBlockWrite _ _ _  ?_ | refine kSetEnd _ _ _  ?_
    | (extract_lets -underBinder +onlyGivenNames x; refine keeps_fact (P := P) (v := x) ?_ ?_; rotate_left; clear_value x; revert x; intro _ _; rotate_left; unfold x; clear x)
    | (extract_lets -underBinder +onlyGivenNames x; clear_value x; revert x; intro _)
    | split
    | with_reducible first | refine keeps_pair (by with_reducible assumption) ?_ | refine keeps_triple (by with_reducible assumption) ?_ | refine keeps_pairL (by with_reducible assumption) ?_

theorem commitLine_keeps (A : Allows P m) (h : m &&& 131072 = 131072) :
    ∀ x0 x1 s, P s → P (commitLine x0 x1 s).2 := by
  have A := A.mono h
  clear h
  have kModHot := modHot_keeps A rfl
  intro x0 x1 s  hs
  unfold commitLine
  repeat' first
    | with_reducible first
        | assumption | refine kModHot _ _ _ _  ?_
    | intro _
    | split
    | with_reducible first | refine keeps_pair (by with_reducible assumption) ?_ | refine keeps_triple (by with_reducible assumption) ?_ | refine keeps_pairL (by with_reducible assumption) ?_

theorem commitNew_keeps (A : Allows P m) (h : m &&& 67243008 = 67243008) :
    ∀ x0 x1 x2 x3 s, P s → P (commitNew x0 x1 x2 x3 s) := by
  have A := A.mono h
  clear h
  have kCommitLine := commitLine_keeps A rfl
  have kWriteRecord := writeRecord_keeps A rfl
  have kBump := bump_keeps A rfl
  have kFleCnt := fleCnt_keeps A rfl
  intro x0 x1 x2 x3 s  hs
  unfold commitNew
  repeat' first
    | with_reducible first
        | assumption | refine kCommitLine _ _ _  ?_ | refine kWriteRecord _ _ _  ?_ | refine kBump _ _ _ _ _  ?_
        | refine kFleCnt _ _ _  ?_
    | (extract_lets -underBinder +onlyGivenNames x; refine keeps_fact (P := P) (v := x) ?_ ?_; rotate_left; clear_value x; revert x; intro _ _; rotate_left; unfold x; clear x)
    | (extract_lets -underBinder +onlyGivenNames x; clear_value x; revert x; intro _)
    | split
    | with_reducible first | refine keeps_pair (by with_reducible assumption) ?_ | refine keeps_triple (by with_reducible assumption) ?_ | refine keeps_pairL (by with_reducible assumption) ?_

theorem commitTemplate_keeps (A : Allows P m) (h : m &&& 67243008 = 67243008) :
    ∀ x0 x1 x2 x3 s, P s → P (commitTemplate x0 x1 x2 x3 s) := by
  have A := A.mono h
  clear h
  have kAnswerInvalid := answerInvalid_keeps A rfl
  have kModHot := modHot_keeps A rfl
  have kRemoveNew := removeNew_keeps A rfl
  have kFleCnt := fleCnt_keeps A rfl
  have kCommitNew := commitNew_keeps A rfl
  intro x0 x1 x2 x3 s  hs
  unfold commitTemplate
  repeat' first
    | with_reducible first
        | assumption | refine kAnswerInvalid _ _ _ _ _  ?_ | refine kModHot _ _ _ _  ?_
        | refine kRemoveNew _ _ _ _  ?_ | refine kFleCnt _ _ _  ?_ | refine kCommitNew _ _ _ _ _  ?_
    | (extract_lets -underBinder +onlyGivenNames x; refine keeps_fact (P := P) (v := x) ?_ ?_; rotate_left; clear_value x; revert x; intro _ _; rotate_left; unfold x; clear x)
    | (extract_lets -underBinder +onlyGivenNames x; have h := fun a => x a; clear h; unfold x; clear x)
    | (extract_lets -underBinder +onlyGivenNames x; clear_value x; revert x; intro _)
    | intro _
    | split
    | with_reducible first | refine keeps_pair (by with_reducible assumption) ?_ | refine keeps_triple (by with_reducible assumption) ?_ | refine keeps_pairL (by with_reducible assumption) ?_

theorem startCreation_keeps (A : Allows P m) (h : m &&& 10408312096 = 10408312096) :
    ∀ x0 x1 x2 x3 s, P s → P (startCreation x0 x1 x2 x3 s) := by
  have A := A.mono h
  clear h
  have kModHot := modHot_keeps A rfl
  have kModPkt := modPkt_keeps A rfl
  have kMakeTask := makeTask_keeps A rfl
  have kCommitTemplate := commitTemplate_keeps A rfl
  have kRemoveNew := removeNew_keeps A rfl
  intro x0 x1 x2 x3 s  hs
  unfold startCreation
  repeat' first
    | with_reducible first
        | assumption | refine kModHot _ _ _ _  ?_ | refine kModPkt _ _ _  ?_ | refine kMakeTask _ _ _  ?_
        | refine kCommitTemplate _ _ _ _ _  ?_ | refine kRemoveNew _ _ _ _  ?_
    | (extract_lets -underBinder +onlyGivenNames x; refine keeps_fact (P := P) (v := x) ?_ ?_; rotate_left; clear_value x; revert x; intro _ _; rotate_left; unfold x; clear x)
    | (extract_lets -underBinder +onlyGivenNames x; clear_value x; revert x; intro _)
    | intro _
    | split
    | with_reducible first | refine keeps_pair (by with_reducible assumption) ?_ | refine keeps_triple (by with_reducible assumption) ?_ | refine keeps_pairL (by with_reducible assumption) ?_

theorem evalNew_keeps (A : Allows P m) (h : m &&& 10408312096 = 10408312096) :
    ∀ x0 x1 s, P s → P (evalNew x0 x1 s) := by
  have A := A.mono h
  clear h
  have kRemoveNew := removeNew_keeps A rfl
  have kStartCreation := startCreation_keeps A rfl
  intro x0 x1 s  hs
  unfold evalNew
  repeat' first
    | with_reducible first
        | assumption | refine kRemoveNew _ _ _ _  ?_ | refine kStartCreation _ _ _ _ _  ?_
    | (extract_lets -underBinder +onlyGivenNames x; refine keeps_fact (P := P) (v := x) ?_ ?_; rotate_left; clear_value x; revert x; intro _ _; rotate_left; unfold x; clear x)
    | (extract_lets -underBinder +onlyGivenNames x; clear_value x; revert x; intro _)
    | intro _
    | split
    | with_reducible first | refine keeps_pair (by with_reducible assumption) ?_ | refine keeps_triple (by with_reducible assumption) ?_ | refine keeps_pairL (by with_reducible assumption) ?_

theorem park_keeps (A : Allows P m) (h : m &&& 10408312096 = 10408312096) :
    ∀ x0 x1 x2 s, P s → P (park x0 x1 x2 s) := by
  have A := A.mono h
  clear h
  have kEvalNew := evalNew_keeps A rfl
  have kModHot := modHot_keeps A rfl
  intro x0 x1 x2 s  hs
  unfold park
  repeat' first
    | with_reducible first
        | assumption | refine kEvalNew _ _ _  ?_ | refine kModHot _ _ _ _  ?_
    | (extract_lets -underBinder +onlyGivenNames x; refine keeps_fact (P := P) (v := x) ?_ ?_; rotate_left; clear_value x; revert x; intro _ _; rotate_left; unfold x; clear x)
    | (extract_lets -underBinder +onlyGivenNames x; clear_value x; revert x; intro _)
    | intro _

theorem answerHeld_keeps (A : Allows P m) (h : m &&& 133120 = 133120) :
    ∀ x0 x1 x2 s, P s → P (answerHeld x0 x1 x2 s) := by
  have A := A.mono h
  clear h
  have kModSlice := modSlice_keeps A rfl
  have kAnswerRec := answerRec_keeps A rfl
  intro x0 x1 x2 s  hs
  unfold answerHeld
  repeat' first
    | with_reducible first
        | assumption | refine kModSlice _ _ _  ?_ | refine kAnswerRec _ _ _ _  ?_
    | intro _
    | split

theorem hotServe_keeps (A : Allows P m) (h : m &&& 10408312096 = 10408312096) :
    ∀ x0 x1 x2 s, P s → P (hotServe x0 x1 x2 s) := by
  have A := A.mono h
  clear h
  have kTouchHot := touchHot_keeps A rfl
  have kPark := park_keeps A rfl
  have kAnswerHeld := answerHeld_keeps A rfl
  intro x0 x1 x2 s  hs
  unfold hotServe
  repeat' first
    | with_reducible first
        | assumption | refine kTouchHot _ _ _  ?_ | refine kPark _ _ _ _  ?_ | refine kAnswerHeld _ _ _ _  ?_
    | (extract_lets -underBinder +onlyGivenNames x; refine keeps_fact (P := P) (v := x) ?_ ?_; rotate_left; clear_value x; revert x; intro _ _; rotate_left; unfold x; clear x)
    | (extract_lets -underBinder +onlyGivenNames x; clear_value x; revert x; intro _)
    | split

theorem flowRequest_keeps (A : Allows P m) (h : m &&& 10408312096 = 10408312096) :
    ∀ x0 s, P s → P (flowRequest x0 s) := by
  have A := A.mono h
  clear h
  have kFleCnt := fleCnt_keeps A rfl
  have kModSlice := modSlice_keeps A rfl
  have kHotServe := hotServe_keeps A rfl
  have kHbmPush := hbmPush_keeps A rfl
  intro x0 s  hs
  unfold flowRequest
  repeat' first
    | with_reducible first
        | assumption | refine kFleCnt _ _ _  ?_ | refine kModSlice _ _ _  ?_ | refine kHotServe _ _ _ _  ?_
        | refine kHbmPush _ _ _  ?_
    | (extract_lets -underBinder +onlyGivenNames x; refine keeps_fact (P := P) (v := x) ?_ ?_; rotate_left; clear_value x; revert x; intro _ _; rotate_left; unfold x; clear x)
    | (extract_lets -underBinder +onlyGivenNames x; have h := fun a => x a; clear h; unfold x; clear x)
    | (extract_lets -underBinder +onlyGivenNames x; clear_value x; revert x; intro _)
    | intro _
    | split
    | with_reducible first | refine keeps_pair (by with_reducible assumption) ?_ | refine keeps_triple (by with_reducible assumption) ?_ | refine keeps_pairL (by with_reducible assumption) ?_

theorem newFlow_keeps (A : Allows P m) (h : m &&& 10433772840 = 10433772840) :
    ∀ x0 x1 s, P s → P (newFlow x0 x1 s).2 := by
  have A := A.mono h
  clear h
  have kAnswerCode := answerCode_keeps A rfl
  have kHotRoom := hotRoom_keeps A rfl
  have kTakeRecord := takeRecord_keeps A rfl
  have kFleCnt := fleCnt_keeps A rfl
  have kPark := park_keeps A rfl
  have kPutHot := putHot_keeps A rfl
  intro x0 x1 s  hs
  unfold newFlow
  repeat' first
    | with_reducible first
        | assumption | refine kAnswerCode _ _ _ _  ?_ | refine kHotRoom _ _ _  ?_
        | refine kTakeRecord _ _ _ _ _ _  ?_ | refine kFleCnt _ _ _  ?_ | refine kPark _ _ _ _  ?_
        | refine kPutHot _ _ _  ?_
    | (extract_lets -underBinder +onlyGivenNames x; refine keeps_fact (P := P) (v := x) ?_ ?_; rotate_left; clear_value x; revert x; intro _ _; rotate_left; unfold x; clear x)
    | (extract_lets -underBinder +onlyGivenNames x; clear_value x; revert x; intro _)
    | split
    | with_reducible first | refine keeps_pair (by with_reducible assumption) ?_ | refine keeps_triple (by with_reducible assumption) ?_ | refine keeps_pairL (by with_reducible assumption) ?_

theorem fetchServe_keeps (A : Allows P m) (h : m &&& 10433772840 = 10433772840) :
    ∀ x0 x1 s, P s → P (fetchServe x0 x1 s).2 := by
  have A := A.mono h
  clear h
  have kHotServe := hotServe_keeps A rfl
  have kNewFlow := newFlow_keeps A rfl
  have kMakeHot := makeHot_keeps A rfl
  have kAnswerHeld := answerHeld_keeps A rfl
  have kAnswerCode := answerCode_keeps A rfl
  intro x0 x1 s  hs
  unfold fetchServe
  repeat' first
    | with_reducible first
        | assumption | refine kHotServe _ _ _ _  ?_ | refine kNewFlow _ _ _  ?_ | refine kMakeHot _ _ _ _  ?_
        | refine kAnswerHeld _ _ _ _  ?_ | refine kAnswerCode _ _ _ _  ?_
    | split
    | with_reducible first | refine keeps_pair (by with_reducible assumption) ?_ | refine keeps_triple (by with_reducible assumption) ?_ | refine keeps_pairL (by with_reducible assumption) ?_

theorem flowFetchDone_keeps (A : Allows P m) (h : m &&& 10433772840 = 10433772840) :
    ∀ x0 s, P s → P (flowFetchDone x0 s) := by
  have A := A.mono h
  clear h
  have kModSlice := modSlice_keeps A rfl
  have kHbmReturned := hbmReturned_keeps A rfl
  have kFetchServe := fetchServe_keeps A rfl
  intro x0 s  hs
  unfold flowFetchDone
  repeat' first
    | with_reducible first
        | assumption | refine kModSlice _ _ _  ?_ | refine kHbmReturned _ _ _  ?_ | refine kFetchServe _ _ _  ?_
    | (extract_lets -underBinder +onlyGivenNames x; refine keeps_fact (P := P) (v := x) ?_ ?_; rotate_left; clear_value x; revert x; intro _ _; rotate_left; unfold x; clear x)
    | (extract_lets -underBinder +onlyGivenNames x; clear_value x; revert x; intro _)
    | intro _
    | split
    | with_reducible first | refine keeps_pair (by with_reducible assumption) ?_ | refine keeps_triple (by with_reducible assumption) ?_ | refine keeps_pairL (by with_reducible assumption) ?_

theorem frameCheckReport_keeps (A : Allows P m) (h : m &&& 10408312096 = 10408312096) :
    ∀ x0 s, P s → P (frameCheckReport x0 s) := by
  have A := A.mono h
  clear h
  have kModSlice := modSlice_keeps A rfl
  have kEvalNew := evalNew_keeps A rfl
  have kModHot := modHot_keeps A rfl
  intro x0 s  hs
  unfold frameCheckReport
  repeat' first
    | with_reducible first
        | assumption | refine kModSlice _ _ _  ?_ | refine kEvalNew _ _ _  ?_ | refine kModHot _ _ _ _  ?_
        | refine each_keeps _ _ (fun _ _ _ => ?_) _ ?_
    | (extract_lets -underBinder +onlyGivenNames x; refine keeps_fact (P := P) (v := x) ?_ ?_; rotate_left; clear_value x; revert x; intro _ _; rotate_left; unfold x; clear x)
    | (extract_lets -underBinder +onlyGivenNames x; clear_value x; revert x; intro _)
    | intro _
    | split
    | with_reducible first | refine keeps_pair (by with_reducible assumption) ?_ | refine keeps_triple (by with_reducible assumption) ?_ | refine keeps_pairL (by with_reducible assumption) ?_

theorem createTmo_keeps (A : Allows P m) (h : m &&& 10366663968 = 10366663968) :
    ∀ x0 x1 s, P s → P (createTmo x0 x1 s) := by
  have A := A.mono h
  clear h
  have kRaise := raise_keeps A rfl
  have kFleCnt := fleCnt_keeps A rfl
  have kModPkt := modPkt_keeps A rfl
  have kModTsk := modTsk_keeps A rfl
  have kRemoveNew := removeNew_keeps A rfl
  have kCancelTask := cancelTask_keeps A rfl
  have kModTask := modTask_keeps A rfl
  intro x0 x1 s  hs
  unfold createTmo
  repeat' first
    | with_reducible first
        | assumption | refine kRaise _ _ _ _ _ _ _  ?_ | refine kFleCnt _ _ _  ?_ | refine kModPkt _ _ _  ?_
        | refine kModTsk _ _  ?_ | refine kRemoveNew _ _ _ _  ?_ | refine kCancelTask _ _ _  ?_
        | refine kModTask _ _ _ _  ?_
    | (extract_lets -underBinder +onlyGivenNames x; refine keeps_fact (P := P) (v := x) ?_ ?_; rotate_left; clear_value x; revert x; intro _ _; rotate_left; unfold x; clear x)
    | (extract_lets -underBinder +onlyGivenNames x; clear_value x; revert x; intro _)
    | intro _
    | split
    | with_reducible first | refine keeps_pair (by with_reducible assumption) ?_ | refine keeps_triple (by with_reducible assumption) ?_ | refine keeps_pairL (by with_reducible assumption) ?_

theorem hbmWriteAccepted_keeps (A : Allows P m) (h : m &&& 69343232 = 69343232) :
    ∀ x0 s, P s → P (hbmWriteAccepted x0 s) := by
  have A := A.mono h
  clear h
  have kModSlice := modSlice_keeps A rfl
  have kHbmPush := hbmPush_keeps A rfl
  have kSendInval := sendInval_keeps A rfl
  have kModInflight := modInflight_keeps A rfl
  have kAnswerRec := answerRec_keeps A rfl
  have kReplyCore := replyCore_keeps A rfl
  intro x0 s  hs
  unfold hbmWriteAccepted
  repeat' first
    | with_reducible first
        | assumption | refine kModSlice _ _ _  ?_ | refine kHbmPush _ _ _  ?_ | refine kSendInval _ _ _ _ _  ?_
        | refine kModInflight _ _ _  ?_ | refine kAnswerRec _ _ _ _  ?_ | refine kReplyCore _ _ _ _  ?_
        | refine each_keeps _ _ (fun _ _ _ => ?_) _ ?_
    | (extract_lets -underBinder +onlyGivenNames x; refine keeps_fact (P := P) (v := x) ?_ ?_; rotate_left; clear_value x; revert x; intro _ _; rotate_left; unfold x; clear x)
    | (extract_lets -underBinder +onlyGivenNames x; clear_value x; revert x; intro _)
    | intro _
    | split
    | with_reducible first | refine keeps_pair (by with_reducible assumption) ?_ | refine keeps_triple (by with_reducible assumption) ?_ | refine keeps_pairL (by with_reducible assumption) ?_

theorem invalidationAck_keeps (A : Allows P m) (h : m &&& 137488 = 137488) :
    ∀ x0 s, P s → P (invalidationAck x0 s) := by
  have A := A.mono h
  clear h
  have kModSlice := modSlice_keeps A rfl
  have kModInflight := modInflight_keeps A rfl
  have kFinish := finish_keeps A rfl
  intro x0 s  hs
  unfold invalidationAck
  repeat' first
    | with_reducible first
        | assumption | refine kModSlice _ _ _  ?_ | refine kModInflight _ _ _  ?_
        | refine kFinish _ _ _ _ _ _  ?_
    | (extract_lets -underBinder +onlyGivenNames x; refine keeps_fact (P := P) (v := x) ?_ ?_; rotate_left; clear_value x; revert x; intro _ _; rotate_left; unfold x; clear x)
    | (extract_lets -underBinder +onlyGivenNames x; clear_value x; revert x; intro _)
    | intro _
    | split
    | with_reducible first | refine keeps_pair (by with_reducible assumption) ?_ | refine keeps_triple (by with_reducible assumption) ?_ | refine keeps_pairL (by with_reducible assumption) ?_

theorem hotWritebackDone_keeps (A : Allows P m) (h : m &&& 134144 = 134144) :
    ∀ x0 x1 s, P s → P (hotWritebackDone x0 x1 s) := by
  have A := A.mono h
  clear h
  have kWriteBack := writeBack_keeps A rfl
  have kDropHot := dropHot_keeps A rfl
  intro x0 x1 s  hs
  unfold hotWritebackDone
  repeat' first
    | with_reducible first
        | assumption | refine kWriteBack _ _ _  ?_ | refine kDropHot _ _ _  ?_
    | split
    | with_reducible first | refine keeps_pair (by with_reducible assumption) ?_ | refine keeps_triple (by with_reducible assumption) ?_ | refine keeps_pairL (by with_reducible assumption) ?_

theorem addDelta_keeps (A : Allows P m) (h : m &&& 134144 = 134144) :
    ∀ x0 x1 s, P s → P (addDelta x0 x1 s) := by
  have A := A.mono h
  clear h
  have kMakeHot := makeHot_keeps A rfl
  have kWriteBack := writeBack_keeps A rfl
  have kModHot := modHot_keeps A rfl
  have kSetRec := setRec_keeps A rfl
  intro x0 x1 s  hs
  unfold addDelta
  repeat' first
    | with_reducible first
        | assumption | refine kMakeHot _ _ _ _  ?_ | refine kWriteBack _ _ _  ?_ | refine kModHot _ _ _ _  ?_
        | refine kSetRec _ _ _ _ _  ?_
    | (extract_lets -underBinder +onlyGivenNames x; refine keeps_fact (P := P) (v := x) ?_ ?_; rotate_left; clear_value x; revert x; intro _ _; rotate_left; unfold x; clear x)
    | (extract_lets -underBinder +onlyGivenNames x; have h := fun a => x a; clear h; unfold x; clear x)
    | (extract_lets -underBinder +onlyGivenNames x; clear_value x; revert x; intro _)
    | intro _
    | split
    | with_reducible first | refine keeps_pair (by with_reducible assumption) ?_ | refine keeps_triple (by with_reducible assumption) ?_ | refine keeps_pairL (by with_reducible assumption) ?_

theorem deltaArrival_keeps (A : Allows P m) (h : m &&& 134144 = 134144) :
    ∀ x0 s, P s → P (deltaArrival x0 s) := by
  have A := A.mono h
  clear h
  have kAddDelta := addDelta_keeps A rfl
  have kModSlice := modSlice_keeps A rfl
  intro x0 s  hs
  unfold deltaArrival
  repeat' first
    | with_reducible first
        | assumption | refine kAddDelta _ _ _  ?_ | refine kModSlice _ _ _  ?_
    | intro _
    | split
    | with_reducible first | refine keeps_pair (by with_reducible assumption) ?_ | refine keeps_triple (by with_reducible assumption) ?_ | refine keeps_pairL (by with_reducible assumption) ?_

theorem setLife_keeps (A : Allows P m) (h : m &&& 132096 = 132096) :
    ∀ x0 x1 s, P s → P (setLife x0 x1 s) := by
  have A := A.mono h
  clear h
  have kSyncHot := syncHot_keeps A rfl
  have kSetRec := setRec_keeps A rfl
  intro x0 x1 s  hs
  unfold setLife
  repeat' first
    | with_reducible first
        | assumption | refine kSyncHot _ _  ?_ | refine kSetRec _ _ _ _ _  ?_
    | (extract_lets -underBinder +onlyGivenNames x; refine keeps_fact (P := P) (v := x) ?_ ?_; rotate_left; clear_value x; revert x; intro _ _; rotate_left; unfold x; clear x)
    | (extract_lets -underBinder +onlyGivenNames x; clear_value x; revert x; intro _)

theorem ctTake_keeps (A : Allows P m) (h : m &&& 10366663968 = 10366663968) :
    ∀ x0 x1 s, P s → P (ctTake x0 x1 s) := by
  have A := A.mono h
  clear h
  have kSyncHot := syncHot_keeps A rfl
  have kSetRec := setRec_keeps A rfl
  have kEndRecord := endRecord_keeps A rfl
  have kSetLife := setLife_keeps A rfl
  have kSetEnd := setEnd_keeps A rfl
  intro x0 x1 s  hs
  unfold ctTake
  repeat' first
    | with_reducible first
        | assumption | refine kSyncHot _ _  ?_ | refine kSetRec _ _ _ _ _  ?_ | refine kEndRecord _ _ _ _ _ _  ?_
        | refine kSetLife _ _ _  ?_ | refine kSetEnd _ _ _  ?_
    | (extract_lets -underBinder +onlyGivenNames x; refine keeps_fact (P := P) (v := x) ?_ ?_; rotate_left; clear_value x; revert x; intro _ _; rotate_left; unfold x; clear x)
    | (extract_lets -underBinder +onlyGivenNames x; clear_value x; revert x; intro _)
    | split
    | with_reducible first | refine A.flow rfl _ _ ?_

theorem ctNotice_keeps (A : Allows P m) (h : m &&& 10366663968 = 10366663968) :
    ∀ x0 s, P s → P (ctNotice x0 s) := by
  have A := A.mono h
  clear h
  have kModSlice := modSlice_keeps A rfl
  have kCtTake := ctTake_keeps A rfl
  intro x0 s  hs
  unfold ctNotice
  repeat' first
    | with_reducible first
        | assumption | refine kModSlice _ _ _  ?_ | refine kCtTake _ _ _  ?_
    | (extract_lets -underBinder +onlyGivenNames x; refine keeps_fact (P := P) (v := x) ?_ ?_; rotate_left; clear_value x; revert x; intro _ _; rotate_left; unfold x; clear x)
    | (extract_lets -underBinder +onlyGivenNames x; clear_value x; revert x; intro _)
    | intro _
    | split
    | with_reducible first | refine keeps_pair (by with_reducible assumption) ?_ | refine keeps_triple (by with_reducible assumption) ?_ | refine keeps_pairL (by with_reducible assumption) ?_

theorem peerEnd_keeps (A : Allows P m) (h : m &&& 10366663968 = 10366663968) :
    ∀ x0 s, P s → P (peerEnd x0 s) := by
  have A := A.mono h
  clear h
  have kEndRecord := endRecord_keeps A rfl
  have kModSlice := modSlice_keeps A rfl
  intro x0 s  hs
  unfold peerEnd
  repeat' first
    | with_reducible first
        | assumption | refine kEndRecord _ _ _ _ _ _  ?_ | refine kModSlice _ _ _  ?_
    | intro _
    | split
    | with_reducible first | refine keeps_pair (by with_reducible assumption) ?_ | refine keeps_triple (by with_reducible assumption) ?_ | refine keeps_pairL (by with_reducible assumption) ?_

theorem portRelease_keeps (A : Allows P m) (h : m &&& 132096 = 132096) :
    ∀ x0 s, P s → P (portRelease x0 s) := by
  have A := A.mono h
  clear h
  have kModSlice := modSlice_keeps A rfl
  have kSetRec := setRec_keeps A rfl
  intro x0 s  hs
  unfold portRelease
  repeat' first
    | with_reducible first
        | assumption | refine kModSlice _ _ _  ?_ | refine kSetRec _ _ _ _ _  ?_
    | (extract_lets -underBinder +onlyGivenNames x; refine keeps_fact (P := P) (v := x) ?_ ?_; rotate_left; clear_value x; revert x; intro _ _; rotate_left; unfold x; clear x)
    | (extract_lets -underBinder +onlyGivenNames x; clear_value x; revert x; intro _)
    | intro _
    | split
    | with_reducible first | refine keeps_pair (by with_reducible assumption) ?_ | refine keeps_triple (by with_reducible assumption) ?_ | refine keeps_pairL (by with_reducible assumption) ?_

theorem natBlockFree_keeps (A : Allows P m) (h : m &&& 131584 = 131584) :
    ∀ x0 s, P s → P (natBlockFree x0 s) := by
  have A := A.mono h
  clear h
  have kModSlice := modSlice_keeps A rfl
  have kSetBlock := setBlock_keeps A rfl
  intro x0 s  hs
  unfold natBlockFree
  repeat' first
    | with_reducible first
        | assumption | refine kModSlice _ _ _  ?_ | refine kSetBlock _ _ _ _ _  ?_
    | (extract_lets -underBinder +onlyGivenNames x; refine keeps_fact (P := P) (v := x) ?_ ?_; rotate_left; clear_value x; revert x; intro _ _; rotate_left; unfold x; clear x)
    | (extract_lets -underBinder +onlyGivenNames x; clear_value x; revert x; intro _)
    | intro _
    | split
    | with_reducible first | refine keeps_pair (by with_reducible assumption) ?_ | refine keeps_triple (by with_reducible assumption) ?_ | refine keeps_pairL (by with_reducible assumption) ?_

theorem makeExpire_keeps (A : Allows P m) (h : m &&& 10341202208 = 10341202208) :
    ∀ x0 x1 x2 x3 s, P s → P (makeExpire x0 x1 x2 x3 s) := by
  have A := A.mono h
  clear h
  have kMakeTask := makeTask_keeps A rfl
  intro x0 x1 x2 x3 s  hs
  unfold makeExpire
  repeat' first
    | with_reducible first
        | assumption | refine kMakeTask _ _ _  ?_
    | (extract_lets -underBinder +onlyGivenNames x; refine keeps_fact (P := P) (v := x) ?_ ?_; rotate_left; clear_value x; revert x; intro _ _; rotate_left; unfold x; clear x)
    | (extract_lets -underBinder +onlyGivenNames x; clear_value x; revert x; intro _)
    | split
    | with_reducible first | refine keeps_pair (by with_reducible assumption) ?_ | refine keeps_triple (by with_reducible assumption) ?_ | refine keeps_pairL (by with_reducible assumption) ?_

theorem visitTimeouts_keeps (A : Allows P m) (h : m &&& 10366663968 = 10366663968) :
    ∀ x0 x1 s, P s → P (visitTimeouts x0 x1 s) := by
  have A := A.mono h
  clear h
  have kEndRecord := endRecord_keeps A rfl
  have kMakeExpire := makeExpire_keeps A rfl
  have kStartPull := startPull_keeps A rfl
  intro x0 x1 s  hs
  unfold visitTimeouts
  repeat' first
    | with_reducible first
        | assumption | refine kEndRecord _ _ _ _ _ _  ?_ | refine kMakeExpire _ _ _ _ _  ?_
        | refine kStartPull _ _ _ _ _  ?_
    | (extract_lets -underBinder +onlyGivenNames x; refine keeps_fact (P := P) (v := x) ?_ ?_; rotate_left; clear_value x; revert x; intro _ _; rotate_left; unfold x; clear x)
    | (extract_lets -underBinder +onlyGivenNames x; clear_value x; revert x; intro _)
    | split

theorem visitExport_keeps (A : Allows P m) (h : m &&& 10334902560 = 10334902560) :
    ∀ x0 x1 s, P s → P (visitExport x0 x1 s) := by
  have A := A.mono h
  clear h
  have kOfferExport := offerExport_keeps A rfl
  intro x0 x1 s  hs
  unfold visitExport
  repeat' first
    | with_reducible first
        | assumption | refine kOfferExport _ _ _ _ _ _ _  ?_
    | (extract_lets -underBinder +onlyGivenNames x; refine keeps_fact (P := P) (v := x) ?_ ?_; rotate_left; clear_value x; revert x; intro _ _; rotate_left; unfold x; clear x)
    | (extract_lets -underBinder +onlyGivenNames x; clear_value x; revert x; intro _)
    | intro _
    | split

theorem visitRecord_keeps (A : Allows P m) (h : m &&& 10366663968 = 10366663968) :
    ∀ x0 x1 s, P s → P (visitRecord x0 x1 s) := by
  have A := A.mono h
  clear h
  have kWriteBack := writeBack_keeps A rfl
  have kPutIdx := putIdx_keeps A rfl
  have kModSlice := modSlice_keeps A rfl
  have kFreeRecord := freeRecord_keeps A rfl
  have kSetRec := setRec_keeps A rfl
  have kVisitTimeouts := visitTimeouts_keeps A rfl
  have kVisitExport := visitExport_keeps A rfl
  intro x0 x1 s  hs
  unfold visitRecord
  repeat' first
    | with_reducible first
        | assumption | refine kWriteBack _ _ _  ?_ | refine kPutIdx _ _ _  ?_ | refine kModSlice _ _ _  ?_
        | refine kFreeRecord _ _ _  ?_ | refine kSetRec _ _ _ _ _  ?_ | refine kVisitTimeouts _ _ _  ?_
        | refine kVisitExport _ _ _  ?_ | refine each_keeps _ _ (fun _ _ _ => ?_) _ ?_
    | (extract_lets -underBinder +onlyGivenNames x; refine keeps_fact (P := P) (v := x) ?_ ?_; rotate_left; clear_value x; revert x; intro _ _; rotate_left; unfold x; clear x)
    | (extract_lets -underBinder +onlyGivenNames x; clear_value x; revert x; intro _)
    | intro _
    | split
    | with_reducible first | refine keeps_pair (by with_reducible assumption) ?_ | refine keeps_triple (by with_reducible assumption) ?_ | refine keeps_pairL (by with_reducible assumption) ?_

theorem freeTombs_keeps (A : Allows P m) (h : m &&& 10366663968 = 10366663968) :
    ∀ x0 s, P s → P (freeTombs x0 s) := by
  have A := A.mono h
  clear h
  have kFreeRecord := freeRecord_keeps A rfl
  have kModSlice := modSlice_keeps A rfl
  intro x0 s  hs
  unfold freeTombs
  repeat' first
    | with_reducible first
        | assumption | refine kFreeRecord _ _ _  ?_ | refine kModSlice _ _ _  ?_
        | refine each_keeps _ _ (fun _ _ _ => ?_) _ ?_
    | intro _

theorem flowSweepVisit_keeps (A : Allows P m) (h : m &&& 10366663968 = 10366663968) :
    ∀ x0 s, P s → P (flowSweepVisit x0 s) := by
  have A := A.mono h
  clear h
  have kVisitRecord := visitRecord_keeps A rfl
  have kModSlice := modSlice_keeps A rfl
  have kFreeTombs := freeTombs_keeps A rfl
  intro x0 s  hs
  unfold flowSweepVisit
  repeat' first
    | with_reducible first
        | assumption | refine kVisitRecord _ _ _  ?_ | refine kModSlice _ _ _  ?_ | refine kFreeTombs _ _  ?_
    | (extract_lets -underBinder +onlyGivenNames x; refine keeps_fact (P := P) (v := x) ?_ ?_; rotate_left; clear_value x; revert x; intro _ _; rotate_left; unfold x; clear x)
    | (extract_lets -underBinder +onlyGivenNames x; clear_value x; revert x; intro _)
    | intro _
    | split
    | with_reducible first | refine keeps_pair (by with_reducible assumption) ?_ | refine keeps_triple (by with_reducible assumption) ?_ | refine keeps_pairL (by with_reducible assumption) ?_

theorem takeDeltas_keeps (A : Allows P m) (h : m &&& 134144 = 134144) :
    ∀ x0 s, P s → P (takeDeltas x0 s) := by
  have A := A.mono h
  clear h
  have kAddDelta := addDelta_keeps A rfl
  have kModSlice := modSlice_keeps A rfl
  intro x0 s  hs
  unfold takeDeltas
  repeat' first
    | with_reducible first
        | assumption | refine kAddDelta _ _ _  ?_ | refine kModSlice _ _ _  ?_
        | refine each_keeps _ _ (fun _ _ _ => ?_) _ ?_
    | (extract_lets -underBinder +onlyGivenNames x; refine keeps_fact (P := P) (v := x) ?_ ?_; rotate_left; clear_value x; revert x; intro _ _; rotate_left; unfold x; clear x)
    | (extract_lets -underBinder +onlyGivenNames x; clear_value x; revert x; intro _)
    | intro _

theorem pullAnswer_keeps (A : Allows P m) (h : m &&& 10366663968 = 10366663968) :
    ∀ x0 x1 s, P s → P (pullAnswer x0 x1 s) := by
  have A := A.mono h
  clear h
  have kModSlice := modSlice_keeps A rfl
  have kTakeDeltas := takeDeltas_keeps A rfl
  have kEndRecord := endRecord_keeps A rfl
  have kReplyCore := replyCore_keeps A rfl
  intro x0 x1 s  hs
  unfold pullAnswer
  repeat' first
    | with_reducible first
        | assumption | refine kModSlice _ _ _  ?_ | refine kTakeDeltas _ _  ?_
        | refine kEndRecord _ _ _ _ _ _  ?_ | refine kReplyCore _ _ _ _  ?_
        | refine each_keeps _ _ (fun _ _ _ => ?_) _ ?_
    | (extract_lets -underBinder +onlyGivenNames x; refine keeps_fact (P := P) (v := x) ?_ ?_; rotate_left; clear_value x; revert x; intro _ _; rotate_left; unfold x; clear x)
    | (extract_lets -underBinder +onlyGivenNames x; have h := fun a => x a; clear h; unfold x; clear x)
    | (extract_lets -underBinder +onlyGivenNames x; clear_value x; revert x; intro _)
    | intro _
    | split
    | with_reducible first | refine keeps_pair (by with_reducible assumption) ?_ | refine keeps_triple (by with_reducible assumption) ?_ | refine keeps_pairL (by with_reducible assumption) ?_

theorem endExported_keeps (A : Allows P m) (h : m &&& 10366663968 = 10366663968) :
    ∀ x0 x1 s, P s → P (endExported x0 x1 s) := by
  have A := A.mono h
  clear h
  have kFreeRecord := freeRecord_keeps A rfl
  intro x0 x1 s  hs
  unfold endExported
  repeat' first
    | with_reducible first
        | assumption | refine kFreeRecord _ _ _  ?_
    | split

theorem takeExport_keeps (A : Allows P m) (h : m &&& 131072 = 131072) :
    ∀ x0 x1 s, P s → P (takeExport x0 x1 s).2 := by
  have A := A.mono h
  clear h
  have kModSlice := modSlice_keeps A rfl
  intro x0 x1 s  hs
  unfold takeExport
  repeat' first
    | with_reducible first
        | assumption | refine kModSlice _ _ _  ?_
    | intro _
    | split
    | with_reducible first | refine keeps_pair (by with_reducible assumption) ?_ | refine keeps_triple (by with_reducible assumption) ?_ | refine keeps_pairL (by with_reducible assumption) ?_

theorem exportRoom_keeps (A : Allows P m) (h : m &&& 10366663968 = 10366663968) :
    ∀ x0 s, P s → P (exportRoom x0 s) := by
  have A := A.mono h
  clear h
  have kTakeExport := takeExport_keeps A rfl
  have kEndExported := endExported_keeps A rfl
  have kWriteExport := writeExport_keeps A rfl
  intro x0 s  hs
  unfold exportRoom
  repeat' first
    | with_reducible first
        | assumption | refine kTakeExport _ _ _  ?_ | refine kEndExported _ _ _  ?_ | refine kWriteExport _ _  ?_
    | split
    | with_reducible first | refine keeps_pair (by with_reducible assumption) ?_ | refine keeps_triple (by with_reducible assumption) ?_ | refine keeps_pairL (by with_reducible assumption) ?_

theorem exportTmo_keeps (A : Allows P m) (h : m &&& 10366663968 = 10366663968) :
    ∀ x0 s, P s → P (exportTmo x0 s) := by
  have A := A.mono h
  clear h
  have kTakeExport := takeExport_keeps A rfl
  have kEndExported := endExported_keeps A rfl
  have kExportLost := exportLost_keeps A rfl
  intro x0 s  hs
  unfold exportTmo
  repeat' first
    | with_reducible first
        | assumption | refine kTakeExport _ _ _  ?_ | refine kEndExported _ _ _  ?_
        | refine kExportLost _ _ _ _  ?_
    | (extract_lets -underBinder +onlyGivenNames x; refine keeps_fact (P := P) (v := x) ?_ ?_; rotate_left; clear_value x; revert x; intro _ _; rotate_left; unfold x; clear x)
    | (extract_lets -underBinder +onlyGivenNames x; clear_value x; revert x; intro _)
    | intro _
    | split
    | with_reducible first | refine keeps_pair (by with_reducible assumption) ?_ | refine keeps_triple (by with_reducible assumption) ?_ | refine keeps_pairL (by with_reducible assumption) ?_

theorem rebindTo_keeps (A : Allows P m) (h : m &&& 134144 = 134144) :
    ∀ x0 x1 x2 x3 x4 s, P s → P (rebindTo x0 x1 x2 x3 x4 s) := by
  have A := A.mono h
  clear h
  have kSetRec := setRec_keeps A rfl
  have kBump := bump_keeps A rfl
  have kFleCnt := fleCnt_keeps A rfl
  intro x0 x1 x2 x3 x4 s  hs
  unfold rebindTo
  repeat' first
    | with_reducible first
        | assumption | refine kSetRec _ _ _ _ _  ?_ | refine kBump _ _ _ _ _  ?_ | refine kFleCnt _ _ _  ?_
    | (extract_lets -underBinder +onlyGivenNames x; refine keeps_fact (P := P) (v := x) ?_ ?_; rotate_left; clear_value x; revert x; intro _ _; rotate_left; unfold x; clear x)
    | (extract_lets -underBinder +onlyGivenNames x; clear_value x; revert x; intro _)

theorem backendRequest_keeps (A : Allows P m) (h : m &&& 10366663968 = 10366663968) :
    ∀ x0 s, P s → P (backendRequest x0 s) := by
  have A := A.mono h
  clear h
  have kModSlice := modSlice_keeps A rfl
  have kAnswerCode := answerCode_keeps A rfl
  have kAnswerHeld := answerHeld_keeps A rfl
  have kEndRecord := endRecord_keeps A rfl
  have kMakeTask := makeTask_keeps A rfl
  have kRebindTo := rebindTo_keeps A rfl
  have kAnswerInvalid := answerInvalid_keeps A rfl
  intro x0 s  hs
  unfold backendRequest
  repeat' first
    | with_reducible first
        | assumption | refine kModSlice _ _ _  ?_ | refine kAnswerCode _ _ _ _  ?_
        | refine kAnswerHeld _ _ _ _  ?_ | refine kEndRecord _ _ _ _ _ _  ?_ | refine kMakeTask _ _ _  ?_
        | refine kRebindTo _ _ _ _ _ _  ?_ | refine kAnswerInvalid _ _ _ _ _  ?_
    | (extract_lets -underBinder +onlyGivenNames x; refine keeps_fact (P := P) (v := x) ?_ ?_; rotate_left; clear_value x; revert x; intro _ _; rotate_left; unfold x; clear x)
    | (extract_lets -underBinder +onlyGivenNames x; clear_value x; revert x; intro _)
    | intro _
    | split
    | with_reducible first | refine keeps_pair (by with_reducible assumption) ?_ | refine keeps_triple (by with_reducible assumption) ?_ | refine keeps_pairL (by with_reducible assumption) ?_

theorem takeWk_keeps (A : Allows P m) (h : m &&& 131072 = 131072) :
    ∀ x0 x1 s, P s → P (takeWk x0 x1 s).2 := by
  have A := A.mono h
  clear h
  have kModSlice := modSlice_keeps A rfl
  intro x0 x1 s  hs
  unfold takeWk
  repeat' first
    | with_reducible first
        | assumption | refine kModSlice _ _ _  ?_
    | intro _
    | split
    | with_reducible first | refine keeps_pair (by with_reducible assumption) ?_ | refine keeps_triple (by with_reducible assumption) ?_ | refine keeps_pairL (by with_reducible assumption) ?_

theorem wkAgain_keeps (A : Allows P m) (h : m &&& 131072 = 131072) :
    ∀ x0 x1 s, P s → P (wkAgain x0 x1 s) := by
  have A := A.mono h
  clear h
  have kModSlice := modSlice_keeps A rfl
  intro x0 x1 s  hs
  unfold wkAgain
  repeat' first
    | with_reducible first
        | assumption | refine kModSlice _ _ _  ?_
    | intro _

theorem wkRow_keeps (A : Allows P m) (h : m &&& 131072 = 131072) :
    ∀ x0 x1 x2 s, (∀ a t, P t → P (x2 a t)) → P s → P (wkRow x0 x1 x2 s) := by
  have A := A.mono h
  clear h
  have kTakeWk := takeWk_keeps A rfl
  intro x0 x1 x2 s k0 hs
  unfold wkRow
  repeat' first
    | with_reducible first
        | assumption | refine kTakeWk _ _ _  ?_ | refine k0 _ _ ?_ | refine k0 _ ?_
    | intro _
    | split
    | with_reducible first | refine keeps_pair (by with_reducible assumption) ?_ | refine keeps_triple (by with_reducible assumption) ?_ | refine keeps_pairL (by with_reducible assumption) ?_

theorem wkOutcome_keeps (A : Allows P m) (h : m &&& 10341497120 = 10341497120) :
    ∀ x0 x1 s, P s → P (wkOutcome x0 x1 s) := by
  have A := A.mono h
  clear h
  have kModPkt := modPkt_keeps A rfl
  have kForgetPasses := forgetPasses_keeps A rfl
  have kLeaveEpoch := leaveEpoch_keeps A rfl
  have kModTask := modTask_keeps A rfl
  intro x0 x1 s  hs
  unfold wkOutcome
  repeat' first
    | with_reducible first
        | assumption | refine kModPkt _ _ _  ?_ | refine kForgetPasses _ _  ?_ | refine kLeaveEpoch _ _  ?_
        | refine kModTask _ _ _ _  ?_
    | (extract_lets -underBinder +onlyGivenNames x; refine keeps_fact (P := P) (v := x) ?_ ?_; rotate_left; clear_value x; revert x; intro _ _; rotate_left; unfold x; clear x)
    | (extract_lets -underBinder +onlyGivenNames x; clear_value x; revert x; intro _)
    | intro _
    | split
    | with_reducible first | refine keeps_pair (by with_reducible assumption) ?_ | refine keeps_triple (by with_reducible assumption) ?_ | refine keeps_pairL (by with_reducible assumption) ?_

theorem insertImage_keeps (A : Allows P m) (h : m &&& 10433772840 = 10433772840) :
    ∀ x0 x1 x2 x3 s, P s → P (insertImage x0 x1 x2 x3 s).2 := by
  have A := A.mono h
  clear h
  have kTakeRecord := takeRecord_keeps A rfl
  have kWriteRecord := writeRecord_keeps A rfl
  intro x0 x1 x2 x3 s  hs
  unfold insertImage
  repeat' first
    | with_reducible first
        | assumption | refine kTakeRecord _ _ _ _ _ _  ?_ | refine kWriteRecord _ _ _  ?_
    | (extract_lets -underBinder +onlyGivenNames x; refine keeps_fact (P := P) (v := x) ?_ ?_; rotate_left; clear_value x; revert x; intro _ _; rotate_left; unfold x; clear x)
    | (extract_lets -underBinder +onlyGivenNames x; clear_value x; revert x; intro _)
    | split
    | with_reducible first | refine keeps_pair (by with_reducible assumption) ?_ | refine keeps_triple (by with_reducible assumption) ?_ | refine keeps_pairL (by with_reducible assumption) ?_

theorem wkCommit_keeps (A : Allows P m) (h : m &&& 10433772840 = 10433772840) :
    ∀ x0 x1 s, P s → P (wkCommit x0 x1 s) := by
  have A := A.mono h
  clear h
  have kReplyCore := replyCore_keeps A rfl
  have kInsertImage := insertImage_keeps A rfl
  have kWkAgain := wkAgain_keeps A rfl
  have kBump := bump_keeps A rfl
  have kSetRec := setRec_keeps A rfl
  have kCommitNew := commitNew_keeps A rfl
  have kWkOutcome := wkOutcome_keeps A rfl
  intro x0 x1 s  hs
  unfold wkCommit
  repeat' first
    | with_reducible first
        | assumption | refine kReplyCore _ _ _ _  ?_ | refine kInsertImage _ _ _ _ _  ?_
        | refine kWkAgain _ _ _  ?_ | refine kBump _ _ _ _ _  ?_ | refine kSetRec _ _ _ _ _  ?_
        | refine kCommitNew _ _ _ _ _  ?_ | refine kWkOutcome _ _ _  ?_
    | (extract_lets -underBinder +onlyGivenNames x; refine keeps_fact (P := P) (v := x) ?_ ?_; rotate_left; clear_value x; revert x; intro _ _; rotate_left; unfold x; clear x)
    | (extract_lets -underBinder +onlyGivenNames x; clear_value x; revert x; intro _)
    | split
    | with_reducible first | refine keeps_pair (by with_reducible assumption) ?_ | refine keeps_triple (by with_reducible assumption) ?_ | refine keeps_pairL (by with_reducible assumption) ?_

theorem wkReject_keeps (A : Allows P m) (h : m &&& 10341498144 = 10341498144) :
    ∀ x0 x1 s, P s → P (wkReject x0 x1 s) := by
  have A := A.mono h
  clear h
  have kReplyCore := replyCore_keeps A rfl
  have kRemoveNew := removeNew_keeps A rfl
  have kWkOutcome := wkOutcome_keeps A rfl
  intro x0 x1 s  hs
  unfold wkReject
  repeat' first
    | with_reducible first
        | assumption | refine kReplyCore _ _ _ _  ?_ | refine kRemoveNew _ _ _ _  ?_
        | refine kWkOutcome _ _ _  ?_
    | split
    | with_reducible first | refine keeps_pair (by with_reducible assumption) ?_ | refine keeps_triple (by with_reducible assumption) ?_ | refine keeps_pairL (by with_reducible assumption) ?_

theorem wkDeny_keeps (A : Allows P m) (h : m &&& 10408607008 = 10408607008) :
    ∀ x0 x1 s, P s → P (wkDeny x0 x1 s) := by
  have A := A.mono h
  clear h
  have kReplyCore := replyCore_keeps A rfl
  have kCommitNew := commitNew_keeps A rfl
  have kWkOutcome := wkOutcome_keeps A rfl
  have kOfferExport := offerExport_keeps A rfl
  intro x0 x1 s  hs
  unfold wkDeny
  repeat' first
    | with_reducible first
        | assumption | refine kReplyCore _ _ _ _  ?_ | refine kCommitNew _ _ _ _ _  ?_
        | refine kWkOutcome _ _ _  ?_ | refine kOfferExport _ _ _ _ _ _ _  ?_
    | (extract_lets -underBinder +onlyGivenNames x; refine keeps_fact (P := P) (v := x) ?_ ?_; rotate_left; clear_value x; revert x; intro _ _; rotate_left; unfold x; clear x)
    | (extract_lets -underBinder +onlyGivenNames x; clear_value x; revert x; intro _)
    | split
    | with_reducible first | refine keeps_pair (by with_reducible assumption) ?_ | refine keeps_triple (by with_reducible assumption) ?_ | refine keeps_pairL (by with_reducible assumption) ?_

theorem onRecord_keeps (A : Allows P m) (h : m &&& 2099200 = 2099200) :
    ∀ x0 x1 x2 s, (∀ a t, P t → P (x2 a t)) → P s → P (onRecord x0 x1 x2 s) := by
  have A := A.mono h
  clear h
  have kReplyCore := replyCore_keeps A rfl
  intro x0 x1 x2 s k0 hs
  unfold onRecord
  repeat' first
    | with_reducible first
        | assumption | refine kReplyCore _ _ _ _  ?_ | refine k0 _ _ ?_ | refine k0 _ ?_
    | intro _
    | split
    | with_reducible first | refine keeps_pair (by with_reducible assumption) ?_ | refine keeps_triple (by with_reducible assumption) ?_ | refine keeps_pairL (by with_reducible assumption) ?_

theorem wkSetAction_keeps (A : Allows P m) (h : m &&& 2231296 = 2231296) :
    ∀ x0 x1 s, P s → P (wkSetAction x0 x1 s) := by
  have A := A.mono h
  clear h
  have kOnRecord := onRecord_keeps A rfl
  have kSetRec := setRec_keeps A rfl
  have kBump := bump_keeps A rfl
  intro x0 x1 s  hs
  unfold wkSetAction
  repeat' first
    | with_reducible first
        | assumption | refine kOnRecord _ _ _ _ ?_ ?_ | refine kSetRec _ _ _ _ _  ?_ | refine kBump _ _ _ _ _  ?_
    | (extract_lets -underBinder +onlyGivenNames x; refine keeps_fact (P := P) (v := x) ?_ ?_; rotate_left; clear_value x; revert x; intro _ _; rotate_left; unfold x; clear x)
    | (extract_lets -underBinder +onlyGivenNames x; clear_value x; revert x; intro _)
    | intro _

theorem wkClose_keeps (A : Allows P m) (h : m &&& 10366663968 = 10366663968) :
    ∀ x0 x1 s, P s → P (wkClose x0 x1 s) := by
  have A := A.mono h
  clear h
  have kOnRecord := onRecord_keeps A rfl
  have kEndRecord := endRecord_keeps A rfl
  have kReplyCore := replyCore_keeps A rfl
  intro x0 x1 s  hs
  unfold wkClose
  repeat' first
    | with_reducible first
        | assumption | refine kOnRecord _ _ _ _ ?_ ?_ | refine kEndRecord _ _ _ _ _ _  ?_
        | refine kReplyCore _ _ _ _  ?_
    | intro _
    | split

theorem wkAge_keeps (A : Allows P m) (h : m &&& 2230272 = 2230272) :
    ∀ x0 x1 s, P s → P (wkAge x0 x1 s) := by
  have A := A.mono h
  clear h
  have kOnRecord := onRecord_keeps A rfl
  have kWkAgain := wkAgain_keeps A rfl
  have kStartPull := startPull_keeps A rfl
  have kReplyCore := replyCore_keeps A rfl
  intro x0 x1 s  hs
  unfold wkAge
  repeat' first
    | with_reducible first
        | assumption | refine kOnRecord _ _ _ _ ?_ ?_ | refine kWkAgain _ _ _  ?_
        | refine kStartPull _ _ _ _ _  ?_ | refine kReplyCore _ _ _ _  ?_
    | intro _
    | split

theorem wkExport_keeps (A : Allows P m) (h : m &&& 10336999712 = 10336999712) :
    ∀ x0 x1 s, P s → P (wkExport x0 x1 s) := by
  have A := A.mono h
  clear h
  have kOnRecord := onRecord_keeps A rfl
  have kReplyCore := replyCore_keeps A rfl
  have kOfferExport := offerExport_keeps A rfl
  intro x0 x1 s  hs
  unfold wkExport
  repeat' first
    | with_reducible first
        | assumption | refine kOnRecord _ _ _ _ ?_ ?_ | refine kReplyCore _ _ _ _  ?_
        | refine kOfferExport _ _ _ _ _ _ _  ?_
    | intro _
    | split

theorem wkRead_keeps (A : Allows P m) (h : m &&& 2099200 = 2099200) :
    ∀ x0 x1 s, P s → P (wkRead x0 x1 s) := by
  have A := A.mono h
  clear h
  have kReplyCore := replyCore_keeps A rfl
  have kModCore := modCore_keeps A rfl
  have kOnRecord := onRecord_keeps A rfl
  intro x0 x1 s  hs
  unfold wkRead
  repeat' first
    | with_reducible first
        | assumption | refine kReplyCore _ _ _ _  ?_ | refine kModCore _ _ _  ?_ | refine kOnRecord _ _ _ _ ?_ ?_
    | (extract_lets -underBinder +onlyGivenNames x; refine keeps_fact (P := P) (v := x) ?_ ?_; rotate_left; clear_value x; revert x; intro _ _; rotate_left; unfold x; clear x)
    | (extract_lets -underBinder +onlyGivenNames x; have h := fun a => x a; clear h; unfold x; clear x)
    | (extract_lets -underBinder +onlyGivenNames x; clear_value x; revert x; intro _)
    | intro _
    | split
    | with_reducible first | refine keeps_pair (by with_reducible assumption) ?_ | refine keeps_triple (by with_reducible assumption) ?_ | refine keeps_pairL (by with_reducible assumption) ?_

theorem wkRebind_keeps (A : Allows P m) (h : m &&& 2231296 = 2231296) :
    ∀ x0 x1 s, P s → P (wkRebind x0 x1 s) := by
  have A := A.mono h
  clear h
  have kOnRecord := onRecord_keeps A rfl
  have kReplyCore := replyCore_keeps A rfl
  have kModSlice := modSlice_keeps A rfl
  have kRebindTo := rebindTo_keeps A rfl
  intro x0 x1 s  hs
  unfold wkRebind
  repeat' first
    | with_reducible first
        | assumption | refine kOnRecord _ _ _ _ ?_ ?_ | refine kReplyCore _ _ _ _  ?_
        | refine kModSlice _ _ _  ?_ | refine kRebindTo _ _ _ _ _ _  ?_
    | (extract_lets -underBinder +onlyGivenNames x; refine keeps_fact (P := P) (v := x) ?_ ?_; rotate_left; clear_value x; revert x; intro _ _; rotate_left; unfold x; clear x)
    | (extract_lets -underBinder +onlyGivenNames x; clear_value x; revert x; intro _)
    | intro _
    | split

theorem wkNatBlock_keeps (A : Allows P m) (h : m &&& 10337000224 = 10337000224) :
    ∀ x0 x1 s, P s → P (wkNatBlock x0 x1 s) := by
  have A := A.mono h
  clear h
  have kNatBlockAlloc := natBlockAlloc_keeps A rfl
  have kReplyCore := replyCore_keeps A rfl
  intro x0 x1 s  hs
  unfold wkNatBlock
  repeat' first
    | with_reducible first
        | assumption | refine kNatBlockAlloc _ _ _ _  ?_ | refine kReplyCore _ _ _ _  ?_
    | split
    | with_reducible first | refine keeps_pair (by with_reducible assumption) ?_ | refine keeps_triple (by with_reducible assumption) ?_ | refine keeps_pairL (by with_reducible assumption) ?_

theorem replyAfter_keeps (A : Allows P m) (h : m &&& 131072 = 131072) :
    ∀ x0 x1 x2 s, P s → P (replyAfter x0 x1 x2 s) := by
  have A := A.mono h
  clear h
  have kQueueWrite := queueWrite_keeps A rfl
  intro x0 x1 x2 s  hs
  unfold replyAfter
  repeat' first
    | with_reducible first
        | assumption | refine kQueueWrite _ _ _  ?_

theorem wkNatPort_keeps (A : Allows P m) (h : m &&& 2231296 = 2231296) :
    ∀ x0 x1 s, P s → P (wkNatPort x0 x1 s) := by
  have A := A.mono h
  clear h
  have kOnRecord := onRecord_keeps A rfl
  have kReplyCore := replyCore_keeps A rfl
  have kSetRec := setRec_keeps A rfl
  have kReplyAfter := replyAfter_keeps A rfl
  intro x0 x1 s  hs
  unfold wkNatPort
  repeat' first
    | with_reducible first
        | assumption | refine kOnRecord _ _ _ _ ?_ ?_ | refine kReplyCore _ _ _ _  ?_
        | refine kSetRec _ _ _ _ _  ?_ | refine kReplyAfter _ _ _ _  ?_
    | (extract_lets -underBinder +onlyGivenNames x; refine keeps_fact (P := P) (v := x) ?_ ?_; rotate_left; clear_value x; revert x; intro _ _; rotate_left; unfold x; clear x)
    | (extract_lets -underBinder +onlyGivenNames x; clear_value x; revert x; intro _)
    | intro _
    | split
    | with_reducible first | refine keeps_pair (by with_reducible assumption) ?_ | refine keeps_triple (by with_reducible assumption) ?_ | refine keeps_pairL (by with_reducible assumption) ?_

theorem wkSetFw_keeps (A : Allows P m) (h : m &&& 2231296 = 2231296) :
    ∀ x0 x1 s, P s → P (wkSetFw x0 x1 s) := by
  have A := A.mono h
  clear h
  have kOnRecord := onRecord_keeps A rfl
  have kReplyAfter := replyAfter_keeps A rfl
  have kSetRec := setRec_keeps A rfl
  intro x0 x1 s  hs
  unfold wkSetFw
  repeat' first
    | with_reducible first
        | assumption | refine kOnRecord _ _ _ _ ?_ ?_ | refine kReplyAfter _ _ _ _  ?_
        | refine kSetRec _ _ _ _ _  ?_
    | intro _

theorem moveHalf_keeps (A : Allows P m) (h : m &&& 10341202208 = 10341202208) :
    ∀ x0 x1 x2 s, P s → P (moveHalf x0 x1 x2 s) := by
  have A := A.mono h
  clear h
  have kModSlice := modSlice_keeps A rfl
  have kModWaitings := modWaitings_keeps A rfl
  have kMakeTask := makeTask_keeps A rfl
  have kModTsk := modTsk_keeps A rfl
  intro x0 x1 x2 s  hs
  unfold moveHalf
  repeat' first
    | with_reducible first
        | assumption | refine kModSlice _ _ _  ?_ | refine kModWaitings _ _ _  ?_ | refine kMakeTask _ _ _  ?_
        | refine kModTsk _ _  ?_ | refine each_keeps _ _ (fun _ _ _ => ?_) _ ?_
    | (extract_lets -underBinder +onlyGivenNames x; refine keeps_fact (P := P) (v := x) ?_ ?_; rotate_left; clear_value x; revert x; intro _ _; rotate_left; unfold x; clear x)
    | (extract_lets -underBinder +onlyGivenNames x; have h := fun a => x a; clear h; unfold x; clear x)
    | (extract_lets -underBinder +onlyGivenNames x; clear_value x; revert x; intro _)
    | intro _
    | split

theorem ownerSwitch_keeps (A : Allows P m) (h : m &&& 10341203232 = 10341203232) :
    ∀ x0 s, P s → P (ownerSwitch x0 s) := by
  have A := A.mono h
  clear h
  have kWriteBack := writeBack_keeps A rfl
  have kModSlice := modSlice_keeps A rfl
  have kSendChan := sendChan_keeps A rfl
  have kMoveHalf := moveHalf_keeps A rfl
  intro x0 s  hs
  unfold ownerSwitch
  repeat' first
    | with_reducible first
        | assumption | refine kWriteBack _ _ _  ?_ | refine kModSlice _ _ _  ?_ | refine kSendChan _ _ _ _  ?_
        | refine kMoveHalf _ _ _ _  ?_ | refine each_keeps _ _ (fun _ _ _ => ?_) _ ?_
    | (extract_lets -underBinder +onlyGivenNames x; refine keeps_fact (P := P) (v := x) ?_ ?_; rotate_left; clear_value x; revert x; intro _ _; rotate_left; unfold x; clear x)
    | (extract_lets -underBinder +onlyGivenNames x; clear_value x; revert x; intro _)
    | intro _
    | split
    | with_reducible first | refine keeps_pair (by with_reducible assumption) ?_ | refine keeps_triple (by with_reducible assumption) ?_ | refine keeps_pairL (by with_reducible assumption) ?_

theorem execFlowRequest_keeps (A : Allows P m) (h : m &&& 10408312096 = 10408312096) :
    ∀ x0 s, P s → ∀ t, execFlowRequest x0 s = .next t → P t := by
  have A := A.mono h
  clear h
  have kFlowRequest := flowRequest_keeps A rfl
  intro x0 s  hs
  intro t e
  cases e
  repeat' first
    | with_reducible first
        | assumption | refine kFlowRequest _ _  ?_

theorem execFlowFetchDone_keeps (A : Allows P m) (h : m &&& 10433772840 = 10433772840) :
    ∀ x0 s, P s → ∀ t, execFlowFetchDone x0 s = .next t → P t := by
  have A := A.mono h
  clear h
  have kFlowFetchDone := flowFetchDone_keeps A rfl
  intro x0 s  hs
  intro t e
  cases e
  repeat' first
    | with_reducible first
        | assumption | refine kFlowFetchDone _ _  ?_
    | (extract_lets -underBinder +onlyGivenNames x; refine keeps_fact (P := P) (v := x) ?_ ?_; rotate_left; clear_value x; revert x; intro _ _; rotate_left; unfold x; clear x)
    | (extract_lets -underBinder +onlyGivenNames x; clear_value x; revert x; intro _)
    | intro _
    | split
    | with_reducible first | refine keeps_pair (by with_reducible assumption) ?_ | refine keeps_triple (by with_reducible assumption) ?_ | refine keeps_pairL (by with_reducible assumption) ?_

theorem execFrameCheckReport_keeps (A : Allows P m) (h : m &&& 10408312096 = 10408312096) :
    ∀ x0 s, P s → ∀ t, execFrameCheckReport x0 s = .next t → P t := by
  have A := A.mono h
  clear h
  have kFrameCheckReport := frameCheckReport_keeps A rfl
  intro x0 s  hs
  intro t e
  cases e
  repeat' first
    | with_reducible first
        | assumption | refine kFrameCheckReport _ _  ?_
    | (extract_lets -underBinder +onlyGivenNames x; refine keeps_fact (P := P) (v := x) ?_ ?_; rotate_left; clear_value x; revert x; intro _ _; rotate_left; unfold x; clear x)
    | (extract_lets -underBinder +onlyGivenNames x; clear_value x; revert x; intro _)
    | intro _
    | split
    | with_reducible first | refine keeps_pair (by with_reducible assumption) ?_ | refine keeps_triple (by with_reducible assumption) ?_ | refine keeps_pairL (by with_reducible assumption) ?_

theorem execHbmWriteAccepted_keeps (A : Allows P m) (h : m &&& 69343232 = 69343232) :
    ∀ x0 s, P s → ∀ t, execHbmWriteAccepted x0 s = .next t → P t := by
  have A := A.mono h
  clear h
  have kHbmWriteAccepted := hbmWriteAccepted_keeps A rfl
  intro x0 s  hs
  intro t e
  cases e
  repeat' first
    | with_reducible first
        | assumption | refine kHbmWriteAccepted _ _  ?_
    | (extract_lets -underBinder +onlyGivenNames x; refine keeps_fact (P := P) (v := x) ?_ ?_; rotate_left; clear_value x; revert x; intro _ _; rotate_left; unfold x; clear x)
    | (extract_lets -underBinder +onlyGivenNames x; clear_value x; revert x; intro _)
    | intro _
    | split
    | with_reducible first | refine keeps_pair (by with_reducible assumption) ?_ | refine keeps_triple (by with_reducible assumption) ?_ | refine keeps_pairL (by with_reducible assumption) ?_

theorem execCreateTmoExpiry_keeps (A : Allows P m) (h : m &&& 10366663968 = 10366663968) :
    ∀ x0 x1 s, P s → ∀ t, execCreateTmoExpiry x0 x1 s = .next t → P t := by
  have A := A.mono h
  clear h
  have kCreateTmo := createTmo_keeps A rfl
  intro x0 x1 s  hs
  intro t e
  cases e
  repeat' first
    | with_reducible first
        | assumption | refine kCreateTmo _ _ _  ?_
    | (extract_lets -underBinder +onlyGivenNames x; refine keeps_fact (P := P) (v := x) ?_ ?_; rotate_left; clear_value x; revert x; intro _ _; rotate_left; unfold x; clear x)
    | (extract_lets -underBinder +onlyGivenNames x; clear_value x; revert x; intro _)
    | intro _
    | split
    | with_reducible first | refine keeps_pair (by with_reducible assumption) ?_ | refine keeps_triple (by with_reducible assumption) ?_ | refine keeps_pairL (by with_reducible assumption) ?_

theorem execBackendRequest_keeps (A : Allows P m) (h : m &&& 10366663968 = 10366663968) :
    ∀ x0 s, P s → ∀ t, execBackendRequest x0 s = .next t → P t := by
  have A := A.mono h
  clear h
  have kBackendRequest := backendRequest_keeps A rfl
  intro x0 s  hs
  intro t e
  cases e
  repeat' first
    | with_reducible first
        | assumption | refine kBackendRequest _ _  ?_
    | (extract_lets -underBinder +onlyGivenNames x; refine keeps_fact (P := P) (v := x) ?_ ?_; rotate_left; clear_value x; revert x; intro _ _; rotate_left; unfold x; clear x)
    | (extract_lets -underBinder +onlyGivenNames x; clear_value x; revert x; intro _)
    | intro _
    | split
    | with_reducible first | refine keeps_pair (by with_reducible assumption) ?_ | refine keeps_triple (by with_reducible assumption) ?_ | refine keeps_pairL (by with_reducible assumption) ?_

theorem execHotLineWritebackDone_keeps (A : Allows P m) (h : m &&& 134144 = 134144) :
    ∀ x0 x1 s, P s → ∀ t, execHotLineWritebackDone x0 x1 s = .next t → P t := by
  have A := A.mono h
  clear h
  have kHotWritebackDone := hotWritebackDone_keeps A rfl
  intro x0 x1 s  hs
  intro t e
  cases e
  repeat' first
    | with_reducible first
        | assumption | refine kHotWritebackDone _ _ _  ?_
    | (extract_lets -underBinder +onlyGivenNames x; refine keeps_fact (P := P) (v := x) ?_ ?_; rotate_left; clear_value x; revert x; intro _ _; rotate_left; unfold x; clear x)
    | (extract_lets -underBinder +onlyGivenNames x; clear_value x; revert x; intro _)
    | intro _
    | split
    | with_reducible first | refine keeps_pair (by with_reducible assumption) ?_ | refine keeps_triple (by with_reducible assumption) ?_ | refine keeps_pairL (by with_reducible assumption) ?_

theorem execFlowSweepVisit_keeps (A : Allows P m) (h : m &&& 10366663968 = 10366663968) :
    ∀ x0 s, P s → ∀ t, execFlowSweepVisit x0 s = .next t → P t := by
  have A := A.mono h
  clear h
  have kFlowSweepVisit := flowSweepVisit_keeps A rfl
  intro x0 s  hs
  intro t e
  cases e
  repeat' first
    | with_reducible first
        | assumption | refine kFlowSweepVisit _ _  ?_
    | (extract_lets -underBinder +onlyGivenNames x; refine keeps_fact (P := P) (v := x) ?_ ?_; rotate_left; clear_value x; revert x; intro _ _; rotate_left; unfold x; clear x)
    | (extract_lets -underBinder +onlyGivenNames x; clear_value x; revert x; intro _)
    | intro _
    | split
    | with_reducible first | refine keeps_pair (by with_reducible assumption) ?_ | refine keeps_triple (by with_reducible assumption) ?_ | refine keeps_pairL (by with_reducible assumption) ?_

theorem execExportRoom_keeps (A : Allows P m) (h : m &&& 10366663968 = 10366663968) :
    ∀ x0 s, P s → ∀ t, execExportRoom x0 s = .next t → P t := by
  have A := A.mono h
  clear h
  have kExportRoom := exportRoom_keeps A rfl
  intro x0 s  hs
  intro t e
  cases e
  repeat' first
    | with_reducible first
        | assumption | refine kExportRoom _ _  ?_
    | (extract_lets -underBinder +onlyGivenNames x; refine keeps_fact (P := P) (v := x) ?_ ?_; rotate_left; clear_value x; revert x; intro _ _; rotate_left; unfold x; clear x)
    | (extract_lets -underBinder +onlyGivenNames x; clear_value x; revert x; intro _)
    | intro _
    | split
    | with_reducible first | refine keeps_pair (by with_reducible assumption) ?_ | refine keeps_triple (by with_reducible assumption) ?_ | refine keeps_pairL (by with_reducible assumption) ?_

theorem execExportTmoExpiry_keeps (A : Allows P m) (h : m &&& 10366663968 = 10366663968) :
    ∀ x0 s, P s → ∀ t, execExportTmoExpiry x0 s = .next t → P t := by
  have A := A.mono h
  clear h
  have kExportTmo := exportTmo_keeps A rfl
  intro x0 s  hs
  intro t e
  cases e
  repeat' first
    | with_reducible first
        | assumption | refine kExportTmo _ _  ?_
    | (extract_lets -underBinder +onlyGivenNames x; refine keeps_fact (P := P) (v := x) ?_ ?_; rotate_left; clear_value x; revert x; intro _ _; rotate_left; unfold x; clear x)
    | (extract_lets -underBinder +onlyGivenNames x; clear_value x; revert x; intro _)
    | intro _
    | split
    | with_reducible first | refine keeps_pair (by with_reducible assumption) ?_ | refine keeps_triple (by with_reducible assumption) ?_ | refine keeps_pairL (by with_reducible assumption) ?_

theorem execPeerEnd_keeps (A : Allows P m) (h : m &&& 10366663968 = 10366663968) :
    ∀ x0 s, P s → ∀ t, execPeerEnd x0 s = .next t → P t := by
  have A := A.mono h
  clear h
  have kPeerEnd := peerEnd_keeps A rfl
  intro x0 s  hs
  intro t e
  cases e
  repeat' first
    | with_reducible first
        | assumption | refine kPeerEnd _ _  ?_
    | (extract_lets -underBinder +onlyGivenNames x; refine keeps_fact (P := P) (v := x) ?_ ?_; rotate_left; clear_value x; revert x; intro _ _; rotate_left; unfold x; clear x)
    | (extract_lets -underBinder +onlyGivenNames x; clear_value x; revert x; intro _)
    | intro _
    | split
    | with_reducible first | refine keeps_pair (by with_reducible assumption) ?_ | refine keeps_triple (by with_reducible assumption) ?_ | refine keeps_pairL (by with_reducible assumption) ?_

theorem execPortRelease_keeps (A : Allows P m) (h : m &&& 132096 = 132096) :
    ∀ x0 s, P s → ∀ t, execPortRelease x0 s = .next t → P t := by
  have A := A.mono h
  clear h
  have kPortRelease := portRelease_keeps A rfl
  intro x0 s  hs
  intro t e
  cases e
  repeat' first
    | with_reducible first
        | assumption | refine kPortRelease _ _  ?_
    | (extract_lets -underBinder +onlyGivenNames x; refine keeps_fact (P := P) (v := x) ?_ ?_; rotate_left; clear_value x; revert x; intro _ _; rotate_left; unfold x; clear x)
    | (extract_lets -underBinder +onlyGivenNames x; clear_value x; revert x; intro _)
    | intro _
    | split
    | with_reducible first | refine keeps_pair (by with_reducible assumption) ?_ | refine keeps_triple (by with_reducible assumption) ?_ | refine keeps_pairL (by with_reducible assumption) ?_

theorem execNatBlockFree_keeps (A : Allows P m) (h : m &&& 131584 = 131584) :
    ∀ x0 s, P s → ∀ t, execNatBlockFree x0 s = .next t → P t := by
  have A := A.mono h
  clear h
  have kNatBlockFree := natBlockFree_keeps A rfl
  intro x0 s  hs
  intro t e
  cases e
  repeat' first
    | with_reducible first
        | assumption | refine kNatBlockFree _ _  ?_
    | (extract_lets -underBinder +onlyGivenNames x; refine keeps_fact (P := P) (v := x) ?_ ?_; rotate_left; clear_value x; revert x; intro _ _; rotate_left; unfold x; clear x)
    | (extract_lets -underBinder +onlyGivenNames x; clear_value x; revert x; intro _)
    | intro _
    | split
    | with_reducible first | refine keeps_pair (by with_reducible assumption) ?_ | refine keeps_triple (by with_reducible assumption) ?_ | refine keeps_pairL (by with_reducible assumption) ?_

theorem execCtNotice_keeps (A : Allows P m) (h : m &&& 10366663968 = 10366663968) :
    ∀ x0 s, P s → ∀ t, execCtNotice x0 s = .next t → P t := by
  have A := A.mono h
  clear h
  have kCtNotice := ctNotice_keeps A rfl
  intro x0 s  hs
  intro t e
  cases e
  repeat' first
    | with_reducible first
        | assumption | refine kCtNotice _ _  ?_
    | (extract_lets -underBinder +onlyGivenNames x; refine keeps_fact (P := P) (v := x) ?_ ?_; rotate_left; clear_value x; revert x; intro _ _; rotate_left; unfold x; clear x)
    | (extract_lets -underBinder +onlyGivenNames x; clear_value x; revert x; intro _)
    | intro _
    | split
    | with_reducible first | refine keeps_pair (by with_reducible assumption) ?_ | refine keeps_triple (by with_reducible assumption) ?_ | refine keeps_pairL (by with_reducible assumption) ?_

theorem execDeltaArrival_keeps (A : Allows P m) (h : m &&& 134144 = 134144) :
    ∀ x0 s, P s → ∀ t, execDeltaArrival x0 s = .next t → P t := by
  have A := A.mono h
  clear h
  have kDeltaArrival := deltaArrival_keeps A rfl
  intro x0 s  hs
  intro t e
  cases e
  repeat' first
    | with_reducible first
        | assumption | refine kDeltaArrival _ _  ?_
    | (extract_lets -underBinder +onlyGivenNames x; refine keeps_fact (P := P) (v := x) ?_ ?_; rotate_left; clear_value x; revert x; intro _ _; rotate_left; unfold x; clear x)
    | (extract_lets -underBinder +onlyGivenNames x; clear_value x; revert x; intro _)
    | intro _
    | split
    | with_reducible first | refine keeps_pair (by with_reducible assumption) ?_ | refine keeps_triple (by with_reducible assumption) ?_ | refine keeps_pairL (by with_reducible assumption) ?_

theorem execPullAnswer_keeps (A : Allows P m) (h : m &&& 10366663968 = 10366663968) :
    ∀ x0 x1 s, P s → ∀ t, execPullAnswer x0 x1 s = .next t → P t := by
  have A := A.mono h
  clear h
  have kPullAnswer := pullAnswer_keeps A rfl
  intro x0 x1 s  hs
  intro t e
  cases e
  repeat' first
    | with_reducible first
        | assumption | refine kPullAnswer _ _ _  ?_
    | (extract_lets -underBinder +onlyGivenNames x; refine keeps_fact (P := P) (v := x) ?_ ?_; rotate_left; clear_value x; revert x; intro _ _; rotate_left; unfold x; clear x)
    | (extract_lets -underBinder +onlyGivenNames x; clear_value x; revert x; intro _)
    | intro _
    | split
    | with_reducible first | refine keeps_pair (by with_reducible assumption) ?_ | refine keeps_triple (by with_reducible assumption) ?_ | refine keeps_pairL (by with_reducible assumption) ?_

theorem execInvalidationAck_keeps (A : Allows P m) (h : m &&& 137488 = 137488) :
    ∀ x0 s, P s → ∀ t, execInvalidationAck x0 s = .next t → P t := by
  have A := A.mono h
  clear h
  have kInvalidationAck := invalidationAck_keeps A rfl
  intro x0 s  hs
  intro t e
  cases e
  repeat' first
    | with_reducible first
        | assumption | refine kInvalidationAck _ _  ?_
    | (extract_lets -underBinder +onlyGivenNames x; refine keeps_fact (P := P) (v := x) ?_ ?_; rotate_left; clear_value x; revert x; intro _ _; rotate_left; unfold x; clear x)
    | (extract_lets -underBinder +onlyGivenNames x; clear_value x; revert x; intro _)
    | intro _
    | split
    | with_reducible first | refine keeps_pair (by with_reducible assumption) ?_ | refine keeps_triple (by with_reducible assumption) ?_ | refine keeps_pairL (by with_reducible assumption) ?_

theorem execCommit_keeps (A : Allows P m) (h : m &&& 10433772840 = 10433772840) :
    ∀ x0 s, P s → ∀ t, execCommit x0 s = .next t → P t := by
  have A := A.mono h
  clear h
  have kWkRow := wkRow_keeps A rfl
  have kWkCommit := wkCommit_keeps A rfl
  intro x0 s  hs
  intro t e
  cases e
  repeat' first
    | with_reducible first
        | assumption | refine kWkRow _ _ _ _ ?_ ?_ | refine kWkCommit _ _ _  ?_
    | (extract_lets -underBinder +onlyGivenNames x; refine keeps_fact (P := P) (v := x) ?_ ?_; rotate_left; clear_value x; revert x; intro _ _; rotate_left; unfold x; clear x)
    | (extract_lets -underBinder +onlyGivenNames x; clear_value x; revert x; intro _)
    | intro _
    | split
    | with_reducible first | refine keeps_pair (by with_reducible assumption) ?_ | refine keeps_triple (by with_reducible assumption) ?_ | refine keeps_pairL (by with_reducible assumption) ?_

theorem execReject_keeps (A : Allows P m) (h : m &&& 10341498144 = 10341498144) :
    ∀ x0 s, P s → ∀ t, execReject x0 s = .next t → P t := by
  have A := A.mono h
  clear h
  have kWkRow := wkRow_keeps A rfl
  have kWkReject := wkReject_keeps A rfl
  intro x0 s  hs
  intro t e
  cases e
  repeat' first
    | with_reducible first
        | assumption | refine kWkRow _ _ _ _ ?_ ?_ | refine kWkReject _ _ _  ?_
    | (extract_lets -underBinder +onlyGivenNames x; refine keeps_fact (P := P) (v := x) ?_ ?_; rotate_left; clear_value x; revert x; intro _ _; rotate_left; unfold x; clear x)
    | (extract_lets -underBinder +onlyGivenNames x; clear_value x; revert x; intro _)
    | intro _
    | split
    | with_reducible first | refine keeps_pair (by with_reducible assumption) ?_ | refine keeps_triple (by with_reducible assumption) ?_ | refine keeps_pairL (by with_reducible assumption) ?_

theorem execDeny_keeps (A : Allows P m) (h : m &&& 10408607008 = 10408607008) :
    ∀ x0 s, P s → ∀ t, execDeny x0 s = .next t → P t := by
  have A := A.mono h
  clear h
  have kWkRow := wkRow_keeps A rfl
  have kWkDeny := wkDeny_keeps A rfl
  intro x0 s  hs
  intro t e
  cases e
  repeat' first
    | with_reducible first
        | assumption | refine kWkRow _ _ _ _ ?_ ?_ | refine kWkDeny _ _ _  ?_
    | (extract_lets -underBinder +onlyGivenNames x; refine keeps_fact (P := P) (v := x) ?_ ?_; rotate_left; clear_value x; revert x; intro _ _; rotate_left; unfold x; clear x)
    | (extract_lets -underBinder +onlyGivenNames x; clear_value x; revert x; intro _)
    | intro _
    | split
    | with_reducible first | refine keeps_pair (by with_reducible assumption) ?_ | refine keeps_triple (by with_reducible assumption) ?_ | refine keeps_pairL (by with_reducible assumption) ?_

theorem execSetAction_keeps (A : Allows P m) (h : m &&& 2231296 = 2231296) :
    ∀ x0 s, P s → ∀ t, execSetAction x0 s = .next t → P t := by
  have A := A.mono h
  clear h
  have kWkRow := wkRow_keeps A rfl
  have kWkSetAction := wkSetAction_keeps A rfl
  intro x0 s  hs
  intro t e
  cases e
  repeat' first
    | with_reducible first
        | assumption | refine kWkRow _ _ _ _ ?_ ?_ | refine kWkSetAction _ _ _  ?_
    | (extract_lets -underBinder +onlyGivenNames x; refine keeps_fact (P := P) (v := x) ?_ ?_; rotate_left; clear_value x; revert x; intro _ _; rotate_left; unfold x; clear x)
    | (extract_lets -underBinder +onlyGivenNames x; clear_value x; revert x; intro _)
    | intro _
    | split
    | with_reducible first | refine keeps_pair (by with_reducible assumption) ?_ | refine keeps_triple (by with_reducible assumption) ?_ | refine keeps_pairL (by with_reducible assumption) ?_

theorem execClose_keeps (A : Allows P m) (h : m &&& 10366663968 = 10366663968) :
    ∀ x0 s, P s → ∀ t, execClose x0 s = .next t → P t := by
  have A := A.mono h
  clear h
  have kWkRow := wkRow_keeps A rfl
  have kWkClose := wkClose_keeps A rfl
  intro x0 s  hs
  intro t e
  cases e
  repeat' first
    | with_reducible first
        | assumption | refine kWkRow _ _ _ _ ?_ ?_ | refine kWkClose _ _ _  ?_
    | (extract_lets -underBinder +onlyGivenNames x; refine keeps_fact (P := P) (v := x) ?_ ?_; rotate_left; clear_value x; revert x; intro _ _; rotate_left; unfold x; clear x)
    | (extract_lets -underBinder +onlyGivenNames x; clear_value x; revert x; intro _)
    | intro _
    | split
    | with_reducible first | refine keeps_pair (by with_reducible assumption) ?_ | refine keeps_triple (by with_reducible assumption) ?_ | refine keeps_pairL (by with_reducible assumption) ?_

theorem execAge_keeps (A : Allows P m) (h : m &&& 2230272 = 2230272) :
    ∀ x0 s, P s → ∀ t, execAge x0 s = .next t → P t := by
  have A := A.mono h
  clear h
  have kWkRow := wkRow_keeps A rfl
  have kWkAge := wkAge_keeps A rfl
  intro x0 s  hs
  intro t e
  cases e
  repeat' first
    | with_reducible first
        | assumption | refine kWkRow _ _ _ _ ?_ ?_ | refine kWkAge _ _ _  ?_
    | (extract_lets -underBinder +onlyGivenNames x; refine keeps_fact (P := P) (v := x) ?_ ?_; rotate_left; clear_value x; revert x; intro _ _; rotate_left; unfold x; clear x)
    | (extract_lets -underBinder +onlyGivenNames x; clear_value x; revert x; intro _)
    | intro _
    | split
    | with_reducible first | refine keeps_pair (by with_reducible assumption) ?_ | refine keeps_triple (by with_reducible assumption) ?_ | refine keeps_pairL (by with_reducible assumption) ?_

theorem execExport_keeps (A : Allows P m) (h : m &&& 10336999712 = 10336999712) :
    ∀ x0 s, P s → ∀ t, execExport x0 s = .next t → P t := by
  have A := A.mono h
  clear h
  have kWkRow := wkRow_keeps A rfl
  have kWkExport := wkExport_keeps A rfl
  intro x0 s  hs
  intro t e
  cases e
  repeat' first
    | with_reducible first
        | assumption | refine kWkRow _ _ _ _ ?_ ?_ | refine kWkExport _ _ _  ?_
    | (extract_lets -underBinder +onlyGivenNames x; refine keeps_fact (P := P) (v := x) ?_ ?_; rotate_left; clear_value x; revert x; intro _ _; rotate_left; unfold x; clear x)
    | (extract_lets -underBinder +onlyGivenNames x; clear_value x; revert x; intro _)
    | intro _
    | split
    | with_reducible first | refine keeps_pair (by with_reducible assumption) ?_ | refine keeps_triple (by with_reducible assumption) ?_ | refine keeps_pairL (by with_reducible assumption) ?_

theorem execRead_keeps (A : Allows P m) (h : m &&& 2230272 = 2230272) :
    ∀ x0 s, P s → ∀ t, execRead x0 s = .next t → P t := by
  have A := A.mono h
  clear h
  have kWkRow := wkRow_keeps A rfl
  have kWkRead := wkRead_keeps A rfl
  intro x0 s  hs
  intro t e
  cases e
  repeat' first
    | with_reducible first
        | assumption | refine kWkRow _ _ _ _ ?_ ?_ | refine kWkRead _ _ _  ?_
    | (extract_lets -underBinder +onlyGivenNames x; refine keeps_fact (P := P) (v := x) ?_ ?_; rotate_left; clear_value x; revert x; intro _ _; rotate_left; unfold x; clear x)
    | (extract_lets -underBinder +onlyGivenNames x; clear_value x; revert x; intro _)
    | intro _
    | split
    | with_reducible first | refine keeps_pair (by with_reducible assumption) ?_ | refine keeps_triple (by with_reducible assumption) ?_ | refine keeps_pairL (by with_reducible assumption) ?_

theorem execRebind_keeps (A : Allows P m) (h : m &&& 2231296 = 2231296) :
    ∀ x0 s, P s → ∀ t, execRebind x0 s = .next t → P t := by
  have A := A.mono h
  clear h
  have kWkRow := wkRow_keeps A rfl
  have kWkRebind := wkRebind_keeps A rfl
  intro x0 s  hs
  intro t e
  cases e
  repeat' first
    | with_reducible first
        | assumption | refine kWkRow _ _ _ _ ?_ ?_ | refine kWkRebind _ _ _  ?_
    | (extract_lets -underBinder +onlyGivenNames x; refine keeps_fact (P := P) (v := x) ?_ ?_; rotate_left; clear_value x; revert x; intro _ _; rotate_left; unfold x; clear x)
    | (extract_lets -underBinder +onlyGivenNames x; clear_value x; revert x; intro _)
    | intro _
    | split
    | with_reducible first | refine keeps_pair (by with_reducible assumption) ?_ | refine keeps_triple (by with_reducible assumption) ?_ | refine keeps_pairL (by with_reducible assumption) ?_

theorem execNatBlock_keeps (A : Allows P m) (h : m &&& 10337000224 = 10337000224) :
    ∀ x0 s, P s → ∀ t, execNatBlock x0 s = .next t → P t := by
  have A := A.mono h
  clear h
  have kWkRow := wkRow_keeps A rfl
  have kWkNatBlock := wkNatBlock_keeps A rfl
  intro x0 s  hs
  intro t e
  cases e
  repeat' first
    | with_reducible first
        | assumption | refine kWkRow _ _ _ _ ?_ ?_ | refine kWkNatBlock _ _ _  ?_
    | (extract_lets -underBinder +onlyGivenNames x; refine keeps_fact (P := P) (v := x) ?_ ?_; rotate_left; clear_value x; revert x; intro _ _; rotate_left; unfold x; clear x)
    | (extract_lets -underBinder +onlyGivenNames x; clear_value x; revert x; intro _)
    | intro _
    | split
    | with_reducible first | refine keeps_pair (by with_reducible assumption) ?_ | refine keeps_triple (by with_reducible assumption) ?_ | refine keeps_pairL (by with_reducible assumption) ?_

theorem execNatPort_keeps (A : Allows P m) (h : m &&& 2231296 = 2231296) :
    ∀ x0 s, P s → ∀ t, execNatPort x0 s = .next t → P t := by
  have A := A.mono h
  clear h
  have kWkRow := wkRow_keeps A rfl
  have kWkNatPort := wkNatPort_keeps A rfl
  intro x0 s  hs
  intro t e
  cases e
  repeat' first
    | with_reducible first
        | assumption | refine kWkRow _ _ _ _ ?_ ?_ | refine kWkNatPort _ _ _  ?_
    | (extract_lets -underBinder +onlyGivenNames x; refine keeps_fact (P := P) (v := x) ?_ ?_; rotate_left; clear_value x; revert x; intro _ _; rotate_left; unfold x; clear x)
    | (extract_lets -underBinder +onlyGivenNames x; clear_value x; revert x; intro _)
    | intro _
    | split
    | with_reducible first | refine keeps_pair (by with_reducible assumption) ?_ | refine keeps_triple (by with_reducible assumption) ?_ | refine keeps_pairL (by with_reducible assumption) ?_

theorem execSetFw_keeps (A : Allows P m) (h : m &&& 2231296 = 2231296) :
    ∀ x0 s, P s → ∀ t, execSetFw x0 s = .next t → P t := by
  have A := A.mono h
  clear h
  have kWkRow := wkRow_keeps A rfl
  have kWkSetFw := wkSetFw_keeps A rfl
  intro x0 s  hs
  intro t e
  cases e
  repeat' first
    | with_reducible first
        | assumption | refine kWkRow _ _ _ _ ?_ ?_ | refine kWkSetFw _ _ _  ?_
    | (extract_lets -underBinder +onlyGivenNames x; refine keeps_fact (P := P) (v := x) ?_ ?_; rotate_left; clear_value x; revert x; intro _ _; rotate_left; unfold x; clear x)
    | (extract_lets -underBinder +onlyGivenNames x; clear_value x; revert x; intro _)
    | intro _
    | split
    | with_reducible first | refine keeps_pair (by with_reducible assumption) ?_ | refine keeps_triple (by with_reducible assumption) ?_ | refine keeps_pairL (by with_reducible assumption) ?_

end Sys2Proof.Laws
end

