-- ==== Sys2Proof/Laws/MatchBanks.lean ====
section
/-! SUPPORT. What each operation of Machine/MatchBanks.lean can change (Laws/Keeps.lean). -/

namespace Sys2Proof.Laws

open Sys2Proof.Machine

variable {P : State → Prop} {m : Nat}

theorem putTcam_keeps (A : Allows P m) (h : m &&& 32768 = 32768) :
    ∀ x0 x1 x2 s, P s → P (putTcam x0 x1 x2 s) := by
  have A := A.mono h
  clear h
  have kModCls := modCls_keeps A rfl
  intro x0 x1 x2 s  hs
  unfold putTcam
  repeat' first
    | with_reducible first
        | assumption | refine kModCls _ _  ?_
    | intro _

theorem markSuspect_keeps (A : Allows P m) (h : m &&& 32768 = 32768) :
    ∀ x0 x1 x2 s, P s → P (markSuspect x0 x1 x2 s) := by
  have A := A.mono h
  clear h
  have kModCls := modCls_keeps A rfl
  intro x0 x1 x2 s  hs
  unfold markSuspect
  repeat' first
    | with_reducible first
        | assumption | refine kModCls _ _  ?_
    | intro _

theorem markFailed_keeps (A : Allows P m) (h : m &&& 32768 = 32768) :
    ∀ x0 x1 x2 s, P s → P (markFailed x0 x1 x2 s) := by
  have A := A.mono h
  clear h
  have kModCls := modCls_keeps A rfl
  intro x0 x1 x2 s  hs
  unfold markFailed
  repeat' first
    | with_reducible first
        | assumption | refine kModCls _ _  ?_
    | intro _

theorem setUpdates_keeps (A : Allows P m) (h : m &&& 32768 = 32768) :
    ∀ x0 x1 x2 s, P s → P (setUpdates x0 x1 x2 s) := by
  have A := A.mono h
  clear h
  have kModCls := modCls_keeps A rfl
  intro x0 x1 x2 s  hs
  unfold setUpdates
  repeat' first
    | with_reducible first
        | assumption | refine kModCls _ _  ?_
    | intro _

theorem unitsDone_keeps (A : Allows P m) (h : m &&& 6416 = 6416) :
    ∀ x0 s, P s → P (unitsDone x0 s) := by
  have A := A.mono h
  clear h
  have kFinish := finish_keeps A rfl
  intro x0 s  hs
  unfold unitsDone
  repeat' first
    | with_reducible first
        | assumption | refine kFinish _ _ _ _ _ _  ?_
    | split
    | with_reducible first | refine keeps_pair (by with_reducible assumption) ?_ | refine keeps_triple (by with_reducible assumption) ?_ | refine keeps_pairL (by with_reducible assumption) ?_

theorem unitWrite_keeps (A : Allows P m) (h : m &&& 39184 = 39184) :
    ∀ x0 x1 x2 s, P s → P (unitWrite x0 x1 x2 s) := by
  have A := A.mono h
  clear h
  have kCntInc := cntInc_keeps A rfl
  have kModCls := modCls_keeps A rfl
  have kMarkFailed := markFailed_keeps A rfl
  have kMarkSuspect := markSuspect_keeps A rfl
  have kPutTcam := putTcam_keeps A rfl
  have kUnitsDone := unitsDone_keeps A rfl
  have kSetUpdates := setUpdates_keeps A rfl
  intro x0 x1 x2 s  hs
  unfold unitWrite
  repeat' first
    | with_reducible first
        | assumption | refine kCntInc _ _ _ _  ?_ | refine kModCls _ _  ?_ | refine kMarkFailed _ _ _ _  ?_
        | refine kMarkSuspect _ _ _ _  ?_ | refine kPutTcam _ _ _ _  ?_ | refine kUnitsDone _ _  ?_
        | refine kSetUpdates _ _ _ _  ?_
    | (extract_lets -underBinder +onlyGivenNames x; refine keeps_fact (P := P) (v := x) ?_ ?_; rotate_left; clear_value x; revert x; intro _ _; rotate_left; unfold x; clear x)
    | (extract_lets -underBinder +onlyGivenNames x; clear_value x; revert x; intro _)
    | intro _
    | split
    | with_reducible first | refine keeps_pair (by with_reducible assumption) ?_ | refine keeps_triple (by with_reducible assumption) ?_ | refine keeps_pairL (by with_reducible assumption) ?_

theorem bankScrub_keeps (A : Allows P m) (h : m &&& 10334804256 = 10334804256) :
    ∀ x0 x1 x2 s, P s → P (bankScrub x0 x1 x2 s) := by
  have A := A.mono h
  clear h
  have kModCls := modCls_keeps A rfl
  have kPutTcam := putTcam_keeps A rfl
  have kMarkSuspect := markSuspect_keeps A rfl
  have kRaise := raise_keeps A rfl
  have kMarkFailed := markFailed_keeps A rfl
  intro x0 x1 x2 s  hs
  unfold bankScrub
  repeat' first
    | with_reducible first
        | assumption | refine kModCls _ _  ?_ | refine kPutTcam _ _ _ _  ?_ | refine kMarkSuspect _ _ _ _  ?_
        | refine kRaise _ _ _ _ _ _ _  ?_ | refine kMarkFailed _ _ _ _  ?_
    | (extract_lets -underBinder +onlyGivenNames x; refine keeps_fact (P := P) (v := x) ?_ ?_; rotate_left; clear_value x; revert x; intro _ _; rotate_left; unfold x; clear x)
    | (extract_lets -underBinder +onlyGivenNames x; clear_value x; revert x; intro _)
    | intro _
    | split

theorem shadowCompare_keeps (A : Allows P m) (h : m &&& 10334837024 = 10334837024) :
    ∀ x0 x1 s, P s → P (shadowCompare x0 x1 s) := by
  have A := A.mono h
  clear h
  have kModCmp := modCmp_keeps A rfl
  have kRaise := raise_keeps A rfl
  intro x0 x1 s  hs
  unfold shadowCompare
  repeat' first
    | with_reducible first
        | assumption | refine kModCmp _ _ _ _  ?_ | refine kRaise _ _ _ _ _ _ _  ?_
    | (extract_lets -underBinder +onlyGivenNames x; refine keeps_fact (P := P) (v := x) ?_ ?_; rotate_left; clear_value x; revert x; intro _ _; rotate_left; unfold x; clear x)
    | (extract_lets -underBinder +onlyGivenNames x; clear_value x; revert x; intro _)
    | intro _
    | split

theorem execMatchBankUnitWrite_keeps (A : Allows P m) (h : m &&& 39184 = 39184) :
    ∀ x0 x1 x2 s, P s → ∀ t, execMatchBankUnitWrite x0 x1 x2 s = .next t → P t := by
  have A := A.mono h
  clear h
  have kUnitWrite := unitWrite_keeps A rfl
  intro x0 x1 x2 s  hs
  intro t e
  cases e
  repeat' first
    | with_reducible first
        | assumption | refine kUnitWrite _ _ _ _  ?_
    | split

theorem execMatchBankScrub_keeps (A : Allows P m) (h : m &&& 10334804256 = 10334804256) :
    ∀ x0 x1 x2 s, P s → ∀ t, execMatchBankScrub x0 x1 x2 s = .next t → P t := by
  have A := A.mono h
  clear h
  have kBankScrub := bankScrub_keeps A rfl
  intro x0 x1 x2 s  hs
  intro t e
  cases e
  repeat' first
    | with_reducible first
        | assumption | refine kBankScrub _ _ _ _  ?_
    | (extract_lets -underBinder +onlyGivenNames x; refine keeps_fact (P := P) (v := x) ?_ ?_; rotate_left; clear_value x; revert x; intro _ _; rotate_left; unfold x; clear x)
    | (extract_lets -underBinder +onlyGivenNames x; clear_value x; revert x; intro _)
    | intro _
    | split
    | with_reducible first | refine keeps_pair (by with_reducible assumption) ?_ | refine keeps_triple (by with_reducible assumption) ?_ | refine keeps_pairL (by with_reducible assumption) ?_

theorem execShadowCompare_keeps (A : Allows P m) (h : m &&& 10334837024 = 10334837024) :
    ∀ x0 x1 s, P s → ∀ t, execShadowCompare x0 x1 s = .next t → P t := by
  have A := A.mono h
  clear h
  have kShadowCompare := shadowCompare_keeps A rfl
  intro x0 x1 s  hs
  intro t e
  cases e
  repeat' first
    | with_reducible first
        | assumption | refine kShadowCompare _ _ _  ?_
    | (extract_lets -underBinder +onlyGivenNames x; refine keeps_fact (P := P) (v := x) ?_ ?_; rotate_left; clear_value x; revert x; intro _ _; rotate_left; unfold x; clear x)
    | (extract_lets -underBinder +onlyGivenNames x; clear_value x; revert x; intro _)
    | intro _
    | split
    | with_reducible first | refine keeps_pair (by with_reducible assumption) ?_ | refine keeps_triple (by with_reducible assumption) ?_ | refine keeps_pairL (by with_reducible assumption) ?_

end Sys2Proof.Laws
end

