-- ==== Sys2Proof/Laws/Classify.lean ====
section
/-! SUPPORT. What each operation of Machine/Classify.lean can change (Laws/Keeps.lean). -/

namespace Sys2Proof.Laws

open Sys2Proof.Machine

variable {P : State → Prop} {m : Nat}

theorem verified_keeps (A : Allows P m) (h : m &&& 10334804256 = 10334804256) :
    ∀ x0 x1 x2 x3 x4 x5 s, P s → P (verified x0 x1 x2 x3 x4 x5 s).2 := by
  have A := A.mono h
  intro p bank mask w k n
  induction n with
  | zero => exact fun s hs => hs
  | succ n ih =>
    intro s hs
    have h1 := fun a => raise_keeps A rfl (clsSrc p 0) evMbFalseHit p a 0 0 _
      (markSuspect_keeps A rfl p a true _ (cntInc_keeps A rfl 0x0182 p 1 s hs))
    unfold verified
    split
    · exact hs
    · split
      · exact hs
      · exact ih _ (ite_keeps (h1 _) (cntInc_keeps A rfl _ _ _ _ (h1 _)))

theorem lookups_keeps (A : Allows P m) (h : m &&& 10334804256 = 10334804256) :
    ∀ x0 x1 x2 x3 x4 s, P s → P (lookups x0 x1 x2 x3 x4 s).2 := by
  have A := A.mono h
  intro p bank prof key l
  induction l with
  | nil => exact fun s hs => hs
  | cons i r ih =>
    intro s hs
    have h1 := fun mask w k n => verified_keeps A rfl p bank mask w k n s hs
    unfold lookups
    dsimp only
    split
    · exact ih _ hs
    · split
      · rename_i e; exact keeps_pair e (h1 _ _ _ _)
      · rename_i e; exact ih _ (keeps_pair e (h1 _ _ _ _))
      · rename_i e; exact ih _ (keeps_pair e (h1 _ _ _ _))

theorem forwardResult_keeps (A : Allows P m) (h : m &&& 2048 = 2048) :
    ∀ x0 x1 x2 x3 x4 s, P s → P (forwardResult x0 x1 x2 x3 x4 s).2 := by
  have A := A.mono h
  clear h
  have kCntAdd := cntAdd_keeps A rfl
  intro x0 x1 x2 x3 x4 s  hs
  unfold forwardResult
  repeat' first
    | with_reducible first
        | assumption | refine kCntAdd _ _ _ _ _  ?_
    | (extract_lets -underBinder +onlyGivenNames x; refine keeps_fact (P := P) (v := x) ?_ ?_; rotate_left; clear_value x; revert x; intro _ _; rotate_left; unfold x; clear x)
    | (extract_lets -underBinder +onlyGivenNames x; clear_value x; revert x; intro _)
    | split
    | with_reducible first | refine keeps_pair (by with_reducible assumption) ?_ | refine keeps_triple (by with_reducible assumption) ?_ | refine keeps_pairL (by with_reducible assumption) ?_

theorem classify_keeps (A : Allows P m) (h : m &&& 10334804256 = 10334804256) :
    ∀ x0 x1 x2 x3 x4 x5 x6 x7 s, P s → P (classify x0 x1 x2 x3 x4 x5 x6 x7 s).2 := by
  have A := A.mono h
  clear h
  have kLookups := lookups_keeps A rfl
  have kForwardResult := forwardResult_keeps A rfl
  intro x0 x1 x2 x3 x4 x5 x6 x7 s  hs
  unfold classify
  repeat' first
    | with_reducible first
        | assumption | refine kLookups _ _ _ _ _ _  ?_ | refine kForwardResult _ _ _ _ _ _  ?_
    | (extract_lets -underBinder +onlyGivenNames x; refine keeps_fact (P := P) (v := x) ?_ ?_; rotate_left; clear_value x; revert x; intro _ _; rotate_left; unfold x; clear x)
    | (extract_lets -underBinder +onlyGivenNames x; have h := fun a => x a; clear h; unfold x; clear x)
    | (extract_lets -underBinder +onlyGivenNames x; clear_value x; revert x; intro _)
    | split
    | with_reducible first | refine keeps_pair (by with_reducible assumption) ?_ | refine keeps_triple (by with_reducible assumption) ?_ | refine keeps_pairL (by with_reducible assumption) ?_

end Sys2Proof.Laws
end

