-- ==== Sys2Proof/Laws/Passes.lean ====
section
/-! SUPPORT. What each operation of Machine/Passes.lean can change (Laws/Keeps.lean). -/

namespace Sys2Proof.Laws

open Sys2Proof.Machine

variable {P : State → Prop} {m : Nat}

theorem intakeFrame_keeps (A : Allows P m) (h : m &&& 10351835424 = 10351835424) :
    ∀ x0 s, P s → P (intakeFrame x0 s) := by
  have A := A.mono h
  clear h
  have kCountRx := countRx_keeps A rfl
  have kRaise := raise_keeps A rfl
  have kCntInc := cntInc_keeps A rfl
  have kNewPkt := newPkt_keeps A rfl
  have kHoldCheck := holdCheck_keeps A rfl
  have kModPipe := modPipe_keeps A rfl
  intro x0 s  hs
  unfold intakeFrame
  repeat' first
    | with_reducible first
        | assumption | refine kCountRx _ _ _ _  ?_ | refine kRaise _ _ _ _ _ _ _  ?_ | refine kCntInc _ _ _ _  ?_
        | refine kNewPkt _ _  ?_ | refine kHoldCheck _ _  ?_ | refine kModPipe _ _ _  ?_
    | (extract_lets -underBinder +onlyGivenNames x; refine keeps_fact (P := P) (v := x) ?_ ?_; rotate_left; clear_value x; revert x; intro _ _; rotate_left; unfold x; clear x)
    | (extract_lets -underBinder +onlyGivenNames x; clear_value x; revert x; intro _)
    | intro _
    | split
    | with_reducible first | refine keeps_pair (by with_reducible assumption) ?_ | refine keeps_triple (by with_reducible assumption) ?_ | refine keeps_pairL (by with_reducible assumption) ?_

theorem frameReceive_keeps (A : Allows P m) (h : m &&& 10351835424 = 10351835424) :
    ∀ x0 x1 s, P s → P (frameReceive x0 x1 s) := by
  have A := A.mono h
  clear h
  have kIntakeFrame := intakeFrame_keeps A rfl
  intro x0 x1 s  hs
  unfold frameReceive
  repeat' first
    | with_reducible first
        | assumption | refine kIntakeFrame _ _  ?_
    | split

theorem replacePasses_keeps (A : Allows P m) (h : m &&& 10366745376 = 10366745376) :
    ∀ x0 x1 s, P s → P (replacePasses x0 x1 s) := by
  have A := A.mono h
  clear h
  have kLeaveEpoch := leaveEpoch_keeps A rfl
  have kForgetPasses := forgetPasses_keeps A rfl
  have kWithdraw := withdraw_keeps A rfl
  have kModPipe := modPipe_keeps A rfl
  have kModPkt := modPkt_keeps A rfl
  have kSettle := settle_keeps A rfl
  have kMergePass := mergePass_keeps A rfl
  intro x0 x1 s  hs
  unfold replacePasses
  repeat' first
    | with_reducible first
        | assumption | refine kLeaveEpoch _ _  ?_ | refine kForgetPasses _ _  ?_ | refine kWithdraw _ _  ?_
        | refine kModPipe _ _ _  ?_ | refine kModPkt _ _ _  ?_ | refine kSettle _ _  ?_
        | refine kMergePass _ _ _ _  ?_
    | (extract_lets -underBinder +onlyGivenNames x; refine keeps_fact (P := P) (v := x) ?_ ?_; rotate_left; clear_value x; revert x; intro _ _; rotate_left; unfold x; clear x)
    | (extract_lets -underBinder +onlyGivenNames x; clear_value x; revert x; intro _)
    | intro _
    | split
    | with_reducible first | refine keeps_pair (by with_reducible assumption) ?_ | refine keeps_triple (by with_reducible assumption) ?_ | refine keeps_pairL (by with_reducible assumption) ?_

theorem deferredFails_keeps (A : Allows P m) (h : m &&& 10366745376 = 10366745376) :
    ∀ x0 x1 s, P s → P (deferredFails x0 x1 s) := by
  have A := A.mono h
  clear h
  have kReplacePasses := replacePasses_keeps A rfl
  have kModPkt := modPkt_keeps A rfl
  intro x0 x1 s  hs
  unfold deferredFails
  repeat' first
    | with_reducible first
        | assumption | refine kReplacePasses _ _ _  ?_ | refine kModPkt _ _ _  ?_
    | (extract_lets -underBinder +onlyGivenNames x; refine keeps_fact (P := P) (v := x) ?_ ?_; rotate_left; clear_value x; revert x; intro _ _; rotate_left; unfold x; clear x)
    | (extract_lets -underBinder +onlyGivenNames x; clear_value x; revert x; intro _)
    | intro _
    | split
    | with_reducible first | refine keeps_pair (by with_reducible assumption) ?_ | refine keeps_triple (by with_reducible assumption) ?_ | refine keeps_pairL (by with_reducible assumption) ?_

theorem flowStage_keeps (A : Allows P m) (h : m &&& 10364565792 = 10364565792) :
    ∀ x0 x1 x2 s, P s → P (flowStage x0 x1 x2 s) := by
  have A := A.mono h
  clear h
  have kJoinWait := joinWait_keeps A rfl
  have kModPass := modPass_keeps A rfl
  have kMergePass := mergePass_keeps A rfl
  have kSyncSpec := syncSpec_keeps A rfl
  have kTouchReplica := touchReplica_keeps A rfl
  intro x0 x1 x2 s  hs
  unfold flowStage
  repeat' first
    | with_reducible first
        | assumption | refine kJoinWait _ _ _ _ _ _  ?_ | refine kModPass _ _ _ _ _  ?_
        | refine kMergePass _ _ _ _  ?_ | refine kSyncSpec _ _  ?_ | refine kTouchReplica _ _ _  ?_
    | (extract_lets -underBinder +onlyGivenNames x; refine keeps_fact (P := P) (v := x) ?_ ?_; rotate_left; clear_value x; revert x; intro _ _; rotate_left; unfold x; clear x)
    | (extract_lets -underBinder +onlyGivenNames x; have h := fun a => x a; clear h; unfold x; clear x)
    | (extract_lets -underBinder +onlyGivenNames x; clear_value x; revert x; intro _)
    | intro _
    | split
    | with_reducible first | refine keeps_pair (by with_reducible assumption) ?_ | refine keeps_triple (by with_reducible assumption) ?_ | refine keeps_pairL (by with_reducible assumption) ?_

theorem beginPass_keeps (A : Allows P m) (h : m &&& 10364565792 = 10364565792) :
    ∀ x0 x1 s, P s → P (beginPass x0 x1 s) := by
  have A := A.mono h
  clear h
  have kModPkt := modPkt_keeps A rfl
  have kMergePass := mergePass_keeps A rfl
  have kModPipe := modPipe_keeps A rfl
  have kClassify := classify_keeps A rfl
  have kFlowStage := flowStage_keeps A rfl
  intro x0 x1 s  hs
  unfold beginPass
  repeat' first
    | with_reducible first
        | assumption | refine kModPkt _ _ _  ?_ | refine kMergePass _ _ _ _  ?_ | refine kModPipe _ _ _  ?_
        | refine kClassify _ _ _ _ _ _ _ _ _  ?_ | refine kFlowStage _ _ _ _  ?_
    | (extract_lets -underBinder +onlyGivenNames x; refine keeps_fact (P := P) (v := x) ?_ ?_; rotate_left; clear_value x; revert x; intro _ _; rotate_left; unfold x; clear x)
    | (extract_lets -underBinder +onlyGivenNames x; clear_value x; revert x; intro _)
    | intro _
    | split
    | with_reducible first | refine keeps_pair (by with_reducible assumption) ?_ | refine keeps_triple (by with_reducible assumption) ?_ | refine keeps_pairL (by with_reducible assumption) ?_

theorem afterPass_keeps (A : Allows P m) (h : m &&& 10366745376 = 10366745376) :
    ∀ x0 x1 s, P s → P (afterPass x0 x1 s) := by
  have A := A.mono h
  clear h
  have kDeferredFails := deferredFails_keeps A rfl
  have kCheckFlow := checkFlow_keeps A rfl
  have kConfirmPasses := confirmPasses_keeps A rfl
  intro x0 x1 s  hs
  unfold afterPass
  repeat' first
    | with_reducible first
        | assumption | refine kDeferredFails _ _ _  ?_ | refine kCheckFlow _ _  ?_
        | refine kConfirmPasses _ _  ?_
    | (extract_lets -underBinder +onlyGivenNames x; refine keeps_fact (P := P) (v := x) ?_ ?_; rotate_left; clear_value x; revert x; intro _ _; rotate_left; unfold x; clear x)
    | (extract_lets -underBinder +onlyGivenNames x; clear_value x; revert x; intro _)
    | split
    | with_reducible first | refine keeps_pair (by with_reducible assumption) ?_ | refine keeps_triple (by with_reducible assumption) ?_ | refine keeps_pairL (by with_reducible assumption) ?_

theorem packetPass_keeps (A : Allows P m) (h : m &&& 10366745376 = 10366745376) :
    ∀ x0 s, P s → P (packetPass x0 s) := by
  have A := A.mono h
  clear h
  have kNoteFull := noteFull_keeps A rfl
  have kAskCells := askCells_keeps A rfl
  have kWriteFrame := writeFrame_keeps A rfl
  have kHoldCheck := holdCheck_keeps A rfl
  have kModPipe := modPipe_keeps A rfl
  have kEpochEnter := epochEnter_keeps A rfl
  have kModPkt := modPkt_keeps A rfl
  have kAfterPass := afterPass_keeps A rfl
  have kBeginPass := beginPass_keeps A rfl
  intro x0 s  hs
  unfold packetPass
  repeat' first
    | with_reducible first
        | assumption | refine kNoteFull _ _  ?_ | refine kAskCells _ _ _  ?_
        | refine kWriteFrame _ _  ?_ _ (by assumption) | refine kHoldCheck _ _  ?_ | refine kModPipe _ _ _  ?_
        | refine kEpochEnter _ _  ?_ | refine kModPkt _ _ _  ?_ | refine kAfterPass _ _ _  ?_
        | refine kBeginPass _ _ _  ?_
    | (extract_lets -underBinder +onlyGivenNames x; refine keeps_fact (P := P) (v := x) ?_ ?_; rotate_left; clear_value x; revert x; intro _ _; rotate_left; unfold x; clear x)
    | (extract_lets -underBinder +onlyGivenNames x; clear_value x; revert x; intro _)
    | intro _
    | split
    | with_reducible first | refine keeps_pair (by with_reducible assumption) ?_ | refine keeps_triple (by with_reducible assumption) ?_ | refine keeps_pairL (by with_reducible assumption) ?_

theorem yoyoTake_keeps (A : Allows P m) (h : m &&& 262144 = 262144) :
    ∀ x0 x1 s, P s → P (yoyoTake x0 x1 s) := by
  have A := A.mono h
  clear h
  have kModPipe := modPipe_keeps A rfl
  intro x0 x1 s  hs
  unfold yoyoTake
  repeat' first
    | with_reducible first
        | assumption | refine kModPipe _ _ _  ?_
    | intro _

theorem recirculation_keeps (A : Allows P m) (h : m &&& 10366745376 = 10366745376) :
    ∀ x0 s, P s → P (recirculation x0 s) := by
  have A := A.mono h
  clear h
  have kAfterPass := afterPass_keeps A rfl
  have kBeginPass := beginPass_keeps A rfl
  have kYoyoTake := yoyoTake_keeps A rfl
  intro x0 s  hs
  unfold recirculation
  repeat' first
    | with_reducible first
        | assumption | refine kAfterPass _ _ _  ?_ | refine kBeginPass _ _ _  ?_ | refine kYoyoTake _ _ _  ?_
    | split
    | with_reducible first | refine keeps_pair (by with_reducible assumption) ?_ | refine keeps_triple (by with_reducible assumption) ?_ | refine keeps_pairL (by with_reducible assumption) ?_

theorem replay_keeps (A : Allows P m) (h : m &&& 10366745376 = 10366745376) :
    ∀ x0 s, P s → P (replay x0 s) := by
  have A := A.mono h
  clear h
  have kConfirmPasses := confirmPasses_keeps A rfl
  have kCheckFlow := checkFlow_keeps A rfl
  have kMergePass := mergePass_keeps A rfl
  have kModPass := modPass_keeps A rfl
  have kYoyoTake := yoyoTake_keeps A rfl
  have kModPipe := modPipe_keeps A rfl
  have kJoinWait := joinWait_keeps A rfl
  intro x0 s  hs
  unfold replay
  repeat' first
    | with_reducible first
        | assumption | refine kConfirmPasses _ _  ?_ | refine kCheckFlow _ _  ?_ | refine kMergePass _ _ _ _  ?_
        | refine kModPass _ _ _ _ _  ?_ | refine kYoyoTake _ _ _  ?_ | refine kModPipe _ _ _  ?_
        | refine kJoinWait _ _ _ _ _ _  ?_
    | (extract_lets -underBinder +onlyGivenNames x; refine keeps_fact (P := P) (v := x) ?_ ?_; rotate_left; clear_value x; revert x; intro _ _; rotate_left; unfold x; clear x)
    | (extract_lets -underBinder +onlyGivenNames x; clear_value x; revert x; intro _)
    | intro _
    | split
    | with_reducible first | refine keeps_pair (by with_reducible assumption) ?_ | refine keeps_triple (by with_reducible assumption) ?_ | refine keeps_pairL (by with_reducible assumption) ?_

theorem reportCheck_keeps (A : Allows P m) (h : m &&& 131072 = 131072) :
    ∀ x0 x1 s, P s → P (reportCheck x0 x1 s) := by
  have A := A.mono h
  clear h
  have kModSlice := modSlice_keeps A rfl
  intro x0 x1 s  hs
  unfold reportCheck
  repeat' first
    | with_reducible first
        | assumption | refine kModSlice _ _ _  ?_ | refine each_keeps _ _ (fun _ _ _ => ?_) _ ?_
    | intro _
    | split
    | with_reducible first | refine keeps_pair (by with_reducible assumption) ?_ | refine keeps_triple (by with_reducible assumption) ?_ | refine keeps_pairL (by with_reducible assumption) ?_

theorem stompFrame_keeps (A : Allows P m) (h : m &&& 10364565792 = 10364565792) :
    ∀ x0 x1 s, P s → P (stompFrame x0 x1 s) := by
  have A := A.mono h
  clear h
  have kCountRx := countRx_keeps A rfl
  have kCountArrival := countArrival_keeps A rfl
  have kSpecCnt := specCnt_keeps A rfl
  have kModPkt := modPkt_keeps A rfl
  have kLeaveEpoch := leaveEpoch_keeps A rfl
  have kForgetPasses := forgetPasses_keeps A rfl
  have kUnref := unref_keeps A rfl
  have kUnlinkPort := unlinkPort_keeps A rfl
  have kModVoq := modVoq_keeps A rfl
  intro x0 x1 s  hs
  unfold stompFrame
  repeat' first
    | with_reducible first
        | assumption | refine kCountRx _ _ _ _  ?_ | refine kCountArrival _ _  ?_ | refine kSpecCnt _ _ _ _  ?_
        | refine kModPkt _ _ _  ?_ | refine kLeaveEpoch _ _  ?_ | refine kForgetPasses _ _  ?_
        | refine kUnref _ _  ?_ | refine kUnlinkPort _ _ _  ?_ | refine kModVoq _ _ _ _ _  ?_
        | refine each_keeps _ _ (fun _ _ _ => ?_) _ ?_
    | (extract_lets -underBinder +onlyGivenNames x; refine keeps_fact (P := P) (v := x) ?_ ?_; rotate_left; clear_value x; revert x; intro _ _; rotate_left; unfold x; clear x)
    | (extract_lets -underBinder +onlyGivenNames x; clear_value x; revert x; intro _)
    | intro _
    | split
    | with_reducible first | refine keeps_pair (by with_reducible assumption) ?_ | refine keeps_triple (by with_reducible assumption) ?_ | refine keeps_pairL (by with_reducible assumption) ?_

theorem checkDrop_keeps (A : Allows P m) (h : m &&& 10364565792 = 10364565792) :
    ∀ x0 s, P s → P (checkDrop x0 s) := by
  have A := A.mono h
  clear h
  have kModPkt := modPkt_keeps A rfl
  have kCountRx := countRx_keeps A rfl
  have kHoldCheck := holdCheck_keeps A rfl
  have kDropEarly := dropEarly_keeps A rfl
  intro x0 s  hs
  unfold checkDrop
  repeat' first
    | with_reducible first
        | assumption | refine kModPkt _ _ _  ?_ | refine kCountRx _ _ _ _  ?_ | refine kHoldCheck _ _  ?_
        | refine kDropEarly _ _ _  ?_
    | (extract_lets -underBinder +onlyGivenNames x; refine keeps_fact (P := P) (v := x) ?_ ?_; rotate_left; clear_value x; revert x; intro _ _; rotate_left; unfold x; clear x)
    | (extract_lets -underBinder +onlyGivenNames x; clear_value x; revert x; intro _)
    | intro _
    | split
    | with_reducible first | refine keeps_pair (by with_reducible assumption) ?_ | refine keeps_triple (by with_reducible assumption) ?_ | refine keeps_pairL (by with_reducible assumption) ?_

theorem noteDepths_keeps (A : Allows P m) (h : m &&& 16777216 = 16777216) :
    ∀ x0 s, P s → P (noteDepths x0 s) := by
  have A := A.mono h
  clear h
  have kNoteDepth := noteDepth_keeps A rfl
  intro x0 s  hs
  unfold noteDepths
  repeat' first
    | with_reducible first
        | assumption | refine kNoteDepth _ _ _  ?_ | refine each_keeps _ _ (fun _ _ _ => ?_) _ ?_
    | intro _

theorem checkPass_keeps (A : Allows P m) (h : m &&& 10366745376 = 10366745376) :
    ∀ x0 s, P s → P (checkPass x0 s) := by
  have A := A.mono h
  clear h
  have kModPkt := modPkt_keeps A rfl
  have kNoteDepths := noteDepths_keeps A rfl
  have kSettle := settle_keeps A rfl
  have kReportCheck := reportCheck_keeps A rfl
  intro x0 s  hs
  unfold checkPass
  repeat' first
    | with_reducible first
        | assumption | refine kModPkt _ _ _  ?_ | refine kNoteDepths _ _  ?_ | refine kSettle _ _  ?_
        | refine kReportCheck _ _ _  ?_
    | (extract_lets -underBinder +onlyGivenNames x; refine keeps_fact (P := P) (v := x) ?_ ?_; rotate_left; clear_value x; revert x; intro _ _; rotate_left; unfold x; clear x)
    | (extract_lets -underBinder +onlyGivenNames x; clear_value x; revert x; intro _)
    | intro _
    | split
    | with_reducible first | refine keeps_pair (by with_reducible assumption) ?_ | refine keeps_triple (by with_reducible assumption) ?_ | refine keeps_pairL (by with_reducible assumption) ?_

theorem frameCheck_keeps (A : Allows P m) (h : m &&& 10366745376 = 10366745376) :
    ∀ x0 x1 s, P s → P (frameCheck x0 x1 s) := by
  have A := A.mono h
  clear h
  have kCheckPass := checkPass_keeps A rfl
  have kReportCheck := reportCheck_keeps A rfl
  have kStompFrame := stompFrame_keeps A rfl
  have kCntInc := cntInc_keeps A rfl
  have kDeferredFails := deferredFails_keeps A rfl
  have kCheckDrop := checkDrop_keeps A rfl
  have kConfirmPasses := confirmPasses_keeps A rfl
  intro x0 x1 s  hs
  unfold frameCheck
  repeat' first
    | with_reducible first
        | assumption | refine kCheckPass _ _  ?_ | refine kReportCheck _ _ _  ?_ | refine kStompFrame _ _ _  ?_
        | refine kCntInc _ _ _ _  ?_ | refine kDeferredFails _ _ _  ?_ | refine kCheckDrop _ _  ?_
        | refine kConfirmPasses _ _  ?_
    | (extract_lets -underBinder +onlyGivenNames x; refine keeps_fact (P := P) (v := x) ?_ ?_; rotate_left; clear_value x; revert x; intro _ _; rotate_left; unfold x; clear x)
    | (extract_lets -underBinder +onlyGivenNames x; clear_value x; revert x; intro _)
    | split
    | with_reducible first | refine keeps_pair (by with_reducible assumption) ?_ | refine keeps_triple (by with_reducible assumption) ?_ | refine keeps_pairL (by with_reducible assumption) ?_

theorem takeChan_keeps (A : Allows P m) (h : m &&& 131072 = 131072) :
    ∀ x0 x1 s, P s → ∀ a t, takeChan x0 x1 s = some (a, t) → P t := by
  have A := A.mono h
  clear h
  have kModChan := modChan_keeps A rfl
  intro x0 x1 s  hs
  intro a t e
  unfold takeChan at e
  repeat' first
    | cases e | split at e | dsimp only at e
    | with_reducible first
        | assumption | refine kModChan _ _ _ _  ?_
    | intro _
    | split
    | with_reducible first | refine keeps_pair (by with_reducible assumption) ?_ | refine keeps_triple (by with_reducible assumption) ?_ | refine keeps_pairL (by with_reducible assumption) ?_

theorem resendReq_keeps (A : Allows P m) (h : m &&& 131072 = 131072) :
    ∀ x0 x1 s, P s → P (resendReq x0 x1 s) := by
  have A := A.mono h
  clear h
  have kPokeWaits := pokeWaits_keeps A rfl
  have kModWait := modWait_keeps A rfl
  intro x0 x1 s  hs
  unfold resendReq
  repeat' first
    | with_reducible first
        | assumption | refine kPokeWaits _ _  ?_ | refine kModWait _ _ _ _ _  ?_
    | intro _

theorem answer_keeps (A : Allows P m) (h : m &&& 10366745376 = 10366745376) :
    ∀ x0 x1 s, P s → P (answer x0 x1 s) := by
  have A := A.mono h
  clear h
  have kTakeChan := takeChan_keeps A rfl
  have kResendReq := resendReq_keeps A rfl
  have kModWait := modWait_keeps A rfl
  have kModWaitings := modWaitings_keeps A rfl
  have kInstall := install_keeps A rfl
  have kModPkt := modPkt_keeps A rfl
  have kModPass := modPass_keeps A rfl
  have kMergePass := mergePass_keeps A rfl
  have kConfirmPasses := confirmPasses_keeps A rfl
  intro x0 x1 s  hs
  unfold answer
  repeat' first
    | with_reducible first
        | assumption | refine kTakeChan _ _ _  ?_ _ _ (by assumption) | refine kResendReq _ _ _  ?_
        | refine kModWait _ _ _ _ _  ?_ | refine kModWaitings _ _ _  ?_ | refine kInstall _ _ _  ?_
        | refine kModPkt _ _ _  ?_ | refine kModPass _ _ _ _ _  ?_ | refine kMergePass _ _ _ _  ?_
        | refine kConfirmPasses _ _  ?_ | refine each_keeps _ _ (fun _ _ _ => ?_) _ ?_
    | (extract_lets -underBinder +onlyGivenNames x; refine keeps_fact (P := P) (v := x) ?_ ?_; rotate_left; clear_value x; revert x; intro _ _; rotate_left; unfold x; clear x)
    | (extract_lets -underBinder +onlyGivenNames x; have h := fun a => x a; clear h; unfold x; clear x)
    | (extract_lets -underBinder +onlyGivenNames x; clear_value x; revert x; intro _)
    | intro _
    | split
    | with_reducible first | refine keeps_pair (by with_reducible assumption) ?_ | refine keeps_triple (by with_reducible assumption) ?_ | refine keeps_pairL (by with_reducible assumption) ?_

theorem missNow_keeps (A : Allows P m) (h : m &&& 10364533024 = 10364533024) :
    ∀ x0 x1 s, P s → P (missNow x0 x1 s) := by
  have A := A.mono h
  clear h
  have kJoinWait := joinWait_keeps A rfl
  have kWithdraw := withdraw_keeps A rfl
  intro x0 x1 s  hs
  unfold missNow
  repeat' first
    | with_reducible first
        | assumption | refine kJoinWait _ _ _ _ _ _  ?_ | refine kWithdraw _ _  ?_

theorem invalidation_keeps (A : Allows P m) (h : m &&& 10366745376 = 10366745376) :
    ∀ x0 x1 s, P s → P (invalidation x0 x1 s) := by
  have A := A.mono h
  clear h
  have kTakeChan := takeChan_keeps A rfl
  have kRemoveReplica := removeReplica_keeps A rfl
  have kMissNow := missNow_keeps A rfl
  have kSquashChain := squashChain_keeps A rfl
  have kNoteInval := noteInval_keeps A rfl
  have kModSlice := modSlice_keeps A rfl
  have kConfirmPasses := confirmPasses_keeps A rfl
  intro x0 x1 s  hs
  unfold invalidation
  repeat' first
    | with_reducible first
        | assumption | refine kTakeChan _ _ _  ?_ _ _ (by assumption) | refine kRemoveReplica _ _ _  ?_
        | refine kMissNow _ _ _  ?_ | refine kSquashChain _ _ _ _ _  ?_ | refine kNoteInval _ _ _  ?_
        | refine kModSlice _ _ _  ?_ | refine kConfirmPasses _ _  ?_
        | refine each_keeps _ _ (fun _ _ _ => ?_) _ ?_
    | (extract_lets -underBinder +onlyGivenNames x; refine keeps_fact (P := P) (v := x) ?_ ?_; rotate_left; clear_value x; revert x; intro _ _; rotate_left; unfold x; clear x)
    | (extract_lets -underBinder +onlyGivenNames x; clear_value x; revert x; intro _)
    | intro _
    | split
    | with_reducible first | refine keeps_pair (by with_reducible assumption) ?_ | refine keeps_triple (by with_reducible assumption) ?_ | refine keeps_pairL (by with_reducible assumption) ?_

theorem stampForm_keeps (A : Allows P m) (h : m &&& 131072 = 131072) :
    ∀ x0 s, P s → P (stampForm x0 s) := by
  have A := A.mono h
  clear h
  have kSendChan := sendChan_keeps A rfl
  have kModSlice := modSlice_keeps A rfl
  intro x0 s  hs
  unfold stampForm
  repeat' first
    | with_reducible first
        | assumption | refine kSendChan _ _ _ _  ?_ | refine kModSlice _ _ _  ?_
        | refine each_keeps _ _ (fun _ _ _ => ?_) _ ?_
    | intro _
    | split

theorem horizonStamp_keeps (A : Allows P m) (h : m &&& 10366745376 = 10366745376) :
    ∀ x0 x1 s, P s → P (horizonStamp x0 x1 s) := by
  have A := A.mono h
  clear h
  have kTakeChan := takeChan_keeps A rfl
  have kConfirmPasses := confirmPasses_keeps A rfl
  have kModPipe := modPipe_keeps A rfl
  intro x0 x1 s  hs
  unfold horizonStamp
  repeat' first
    | with_reducible first
        | assumption | refine kTakeChan _ _ _  ?_ _ _ (by assumption) | refine kConfirmPasses _ _  ?_
        | refine kModPipe _ _ _  ?_
    | intro _
    | split
    | with_reducible first | refine keeps_pair (by with_reducible assumption) ?_ | refine keeps_triple (by with_reducible assumption) ?_ | refine keeps_pairL (by with_reducible assumption) ?_

theorem finalStamp_keeps (A : Allows P m) (h : m &&& 10366745376 = 10366745376) :
    ∀ x0 x1 s, P s → P (finalStamp x0 x1 s) := by
  have A := A.mono h
  clear h
  have kTakeChan := takeChan_keeps A rfl
  have kConfirmPasses := confirmPasses_keeps A rfl
  have kModPipe := modPipe_keeps A rfl
  intro x0 x1 s  hs
  unfold finalStamp
  repeat' first
    | with_reducible first
        | assumption | refine kTakeChan _ _ _  ?_ _ _ (by assumption) | refine kConfirmPasses _ _  ?_
        | refine kModPipe _ _ _  ?_
    | intro _
    | split
    | with_reducible first | refine keeps_pair (by with_reducible assumption) ?_ | refine keeps_triple (by with_reducible assumption) ?_ | refine keeps_pairL (by with_reducible assumption) ?_

theorem flowPull_keeps (A : Allows P m) (h : m &&& 131072 = 131072) :
    ∀ x0 x1 s, P s → P (flowPull x0 x1 s) := by
  have A := A.mono h
  clear h
  have kSendDelta := sendDelta_keeps A rfl
  have kModChan := modChan_keeps A rfl
  have kModSlice := modSlice_keeps A rfl
  intro x0 x1 s  hs
  unfold flowPull
  repeat' first
    | with_reducible first
        | assumption | refine kSendDelta _ _ _  ?_ | refine kModChan _ _ _ _  ?_ | refine kModSlice _ _ _  ?_
    | (extract_lets -underBinder +onlyGivenNames x; refine keeps_fact (P := P) (v := x) ?_ ?_; rotate_left; clear_value x; revert x; intro _ _; rotate_left; unfold x; clear x)
    | (extract_lets -underBinder +onlyGivenNames x; clear_value x; revert x; intro _)
    | intro _
    | split
    | with_reducible first | refine keeps_pair (by with_reducible assumption) ?_ | refine keeps_triple (by with_reducible assumption) ?_ | refine keeps_pairL (by with_reducible assumption) ?_

theorem deltaSend_keeps (A : Allows P m) (h : m &&& 131072 = 131072) :
    ∀ x0 x1 s, P s → P (deltaSend x0 x1 s) := by
  have A := A.mono h
  clear h
  have kSendDelta := sendDelta_keeps A rfl
  intro x0 x1 s  hs
  unfold deltaSend
  repeat' first
    | with_reducible first
        | assumption | refine kSendDelta _ _ _  ?_
    | intro _
    | split
    | with_reducible first | refine keeps_pair (by with_reducible assumption) ?_ | refine keeps_triple (by with_reducible assumption) ?_ | refine keeps_pairL (by with_reducible assumption) ?_

theorem confirmNotice_keeps (A : Allows P m) (h : m &&& 16787456 = 16787456) :
    ∀ x0 s, P s → P (confirmNotice x0 s) := by
  have A := A.mono h
  clear h
  have kCntSet := cntSet_keeps A rfl
  have kNoteDepths := noteDepths_keeps A rfl
  have kModPkt := modPkt_keeps A rfl
  intro x0 s  hs
  unfold confirmNotice
  repeat' first
    | with_reducible first
        | assumption | refine kCntSet _ _ _ _ _  ?_ | refine kNoteDepths _ _  ?_ | refine kModPkt _ _ _  ?_
    | (extract_lets -underBinder +onlyGivenNames x; refine keeps_fact (P := P) (v := x) ?_ ?_; rotate_left; clear_value x; revert x; intro _ _; rotate_left; unfold x; clear x)
    | (extract_lets -underBinder +onlyGivenNames x; clear_value x; revert x; intro _)
    | intro _
    | split
    | with_reducible first | refine keeps_pair (by with_reducible assumption) ?_ | refine keeps_triple (by with_reducible assumption) ?_ | refine keeps_pairL (by with_reducible assumption) ?_

theorem specTimeout_keeps (A : Allows P m) (h : m &&& 10366745376 = 10366745376) :
    ∀ x0 s, P s → P (specTimeout x0 s) := by
  have A := A.mono h
  clear h
  have kConfirmPasses := confirmPasses_keeps A rfl
  have kSquashChain := squashChain_keeps A rfl
  intro x0 s  hs
  unfold specTimeout
  repeat' first
    | with_reducible first
        | assumption | refine kConfirmPasses _ _  ?_ | refine kSquashChain _ _ _ _ _  ?_
    | (extract_lets -underBinder +onlyGivenNames x; refine keeps_fact (P := P) (v := x) ?_ ?_; rotate_left; clear_value x; revert x; intro _ _; rotate_left; unfold x; clear x)
    | (extract_lets -underBinder +onlyGivenNames x; clear_value x; revert x; intro _)
    | intro _
    | split
    | with_reducible first | refine keeps_pair (by with_reducible assumption) ?_ | refine keeps_triple (by with_reducible assumption) ?_ | refine keeps_pairL (by with_reducible assumption) ?_

theorem unstableExpiry_keeps (A : Allows P m) (h : m &&& 262144 = 262144) :
    ∀ x0 x1 s, P s → P (unstableExpiry x0 x1 s) := by
  have A := A.mono h
  clear h
  have kModPipe := modPipe_keeps A rfl
  intro x0 x1 s  hs
  unfold unstableExpiry
  repeat' first
    | with_reducible first
        | assumption | refine kModPipe _ _ _  ?_
    | intro _
    | split
    | with_reducible first | refine keeps_pair (by with_reducible assumption) ?_ | refine keeps_triple (by with_reducible assumption) ?_ | refine keeps_pairL (by with_reducible assumption) ?_

theorem stallExpiry_keeps (A : Allows P m) (h : m &&& 10335033632 = 10335033632) :
    ∀ x0 x1 s, P s → P (stallExpiry x0 x1 s) := by
  have A := A.mono h
  clear h
  have kRaise := raise_keeps A rfl
  have kModPipe := modPipe_keeps A rfl
  intro x0 x1 s  hs
  unfold stallExpiry
  repeat' first
    | with_reducible first
        | assumption | refine kRaise _ _ _ _ _ _ _  ?_ | refine kModPipe _ _ _  ?_
    | (extract_lets -underBinder +onlyGivenNames x; refine keeps_fact (P := P) (v := x) ?_ ?_; rotate_left; clear_value x; revert x; intro _ _; rotate_left; unfold x; clear x)
    | (extract_lets -underBinder +onlyGivenNames x; clear_value x; revert x; intro _)
    | intro _
    | split

theorem inject_keeps (A : Allows P m) (h : m &&& 10334771488 = 10334771488) :
    ∀ x0 x1 x2 s, (∀ a b t, P t → P (x2 a b t).2) → P s → P (inject x0 x1 x2 s) := by
  have A := A.mono h
  intro d op f s k hs
  have kN : ∀ g t, P t → P (pruneFetched g (modRing g (fun r => { r with begun := r.begun + 1 }) t)) :=
    fun g t ht => pruneFetched_keeps A rfl _ _ (modRing_keeps A rfl _ _ _ ht)
  have kC := putCompletion_keeps A rfl
  have kD := fun a b c w x => dmaCheck_keeps A rfl a b c w x s hs
  unfold inject
  dsimp only
  split
  · split
    · exact kC _ _ _ (kN _ _ hs)
    · split
      · exact kC _ _ _ (kN _ _ hs)
      · split
        · exact kC _ _ _ (kN _ _ (kD _ _ _ _ _))
        · split
          · rename_i e
            exact kN _ _ (keeps_pair e (k _ _ _ (kD _ _ _ _ _)))
          · rename_i e
            exact keeps_pair e (k _ _ _ (kD _ _ _ _ _))
  · exact hs

theorem injectPipe_keeps (A : Allows P m) (h : m &&& 10351835424 = 10351835424) :
    ∀ x0 s, P s → P (injectPipe x0 s) := by
  have A := A.mono h
  intro d s hs
  refine inject_keeps A rfl d 0xB1 _ s (fun a bs t ht => ?_) hs
  dsimp only
  exact ite_keeps (intakeFrame_keeps A rfl _ _ ht) (putCompletion_keeps A rfl _ _ _ (intakeFrame_keeps A rfl _ _ ht))

theorem injectPort_keeps (A : Allows P m) (h : m &&& 10347378976 = 10347378976) :
    ∀ x0 s, P s → P (injectPort x0 s) := by
  have A := A.mono h
  intro d s hs
  refine inject_keeps A rfl d 0xB0 _ s (fun a bs t ht => ?_) hs
  dsimp only
  split
  · rename_i e
    exact keeps_pair e (askCells_keeps A rfl _ _ t ht)
  · rename_i e
    have h0 := keeps_pair e (askCells_keeps A rfl _ _ t ht)
    have kN := fun x => newPkt_keeps A rfl x _ h0
    split
    · exact h0
    · rename_i e1
      have h1 := allocChain_keeps A rfl _ _ _ _ _ _ _ (kN _) _ _ e1
      have h2 := fun k f => modPkt_keeps A rfl k f _ h1
      exact queueFrame_keeps A rfl _ _ _ _ _ _ _ (ite_keeps (h2 _ _) (injectDone_keeps A rfl _ _ _ _ _ (h2 _ _)))

theorem serveAll_keeps (A : Allows P m) (h : m &&& 10366662944 = 10366662944) :
    ∀ x0 s, P s → P (serveAll x0 s) := by
  have A := A.mono h
  clear h
  have kServeCopies := serveCopies_keeps A rfl
  intro x0 s  hs
  unfold serveAll
  repeat' first
    | with_reducible first
        | assumption | refine kServeCopies _ _ _  ?_

theorem execFrameReceive_keeps (A : Allows P m) (h : m &&& 10351835424 = 10351835424) :
    ∀ x0 x1 s, P s → ∀ t, execFrameReceive x0 x1 s = .next t → P t := by
  have A := A.mono h
  clear h
  have kFrameReceive := frameReceive_keeps A rfl
  intro x0 x1 s  hs
  intro t e
  cases e
  repeat' first
    | with_reducible first
        | assumption | refine kFrameReceive _ _ _  ?_ | refine each_keeps _ _ (fun _ _ _ => ?_) _ ?_
        | refine foldl_keeps _ _ (fun _ _ _ => ?_) _ ?_
    | (extract_lets -underBinder +onlyGivenNames x; refine keeps_fact (P := P) (v := x) ?_ ?_; rotate_left; clear_value x; revert x; intro _ _; rotate_left; unfold x; clear x)
    | (extract_lets -underBinder +onlyGivenNames x; refine keeps_fact2 (P := P) (v := x) ?_ ?_; rotate_left; clear_value x; revert x; intro _ _; rotate_left; unfold x; clear x)
    | (extract_lets -underBinder +onlyGivenNames x; have h := fun a => x a; clear h; unfold x; clear x)
    | (extract_lets -underBinder +onlyGivenNames x; clear_value x; revert x; intro _)
    | intro _
    | split
    | with_reducible first | refine keeps_pair (by with_reducible assumption) ?_ | refine keeps_triple (by with_reducible assumption) ?_ | refine keeps_pairL (by with_reducible assumption) ?_

theorem execPacketPass_keeps (A : Allows P m) (h : m &&& 10366745376 = 10366745376) :
    ∀ x0 s, P s → ∀ t, execPacketPass x0 s = .next t → P t := by
  have A := A.mono h
  clear h
  have kServeAll := serveAll_keeps A rfl
  have kPacketPass := packetPass_keeps A rfl
  intro x0 s  hs
  intro t e
  cases e
  repeat' first
    | with_reducible first
        | assumption | refine kServeAll _ _  ?_ | refine kPacketPass _ _  ?_
    | (extract_lets -underBinder +onlyGivenNames x; refine keeps_fact (P := P) (v := x) ?_ ?_; rotate_left; clear_value x; revert x; intro _ _; rotate_left; unfold x; clear x)
    | (extract_lets -underBinder +onlyGivenNames x; clear_value x; revert x; intro _)
    | intro _
    | split
    | with_reducible first | refine keeps_pair (by with_reducible assumption) ?_ | refine keeps_triple (by with_reducible assumption) ?_ | refine keeps_pairL (by with_reducible assumption) ?_

theorem execRecirculation_keeps (A : Allows P m) (h : m &&& 10366745376 = 10366745376) :
    ∀ x0 s, P s → ∀ t, execRecirculation x0 s = .next t → P t := by
  have A := A.mono h
  clear h
  have kServeAll := serveAll_keeps A rfl
  have kRecirculation := recirculation_keeps A rfl
  intro x0 s  hs
  intro t e
  cases e
  repeat' first
    | with_reducible first
        | assumption | refine kServeAll _ _  ?_ | refine kRecirculation _ _  ?_
    | (extract_lets -underBinder +onlyGivenNames x; refine keeps_fact (P := P) (v := x) ?_ ?_; rotate_left; clear_value x; revert x; intro _ _; rotate_left; unfold x; clear x)
    | (extract_lets -underBinder +onlyGivenNames x; clear_value x; revert x; intro _)
    | intro _
    | split
    | with_reducible first | refine keeps_pair (by with_reducible assumption) ?_ | refine keeps_triple (by with_reducible assumption) ?_ | refine keeps_pairL (by with_reducible assumption) ?_

theorem execReplay_keeps (A : Allows P m) (h : m &&& 10366745376 = 10366745376) :
    ∀ x0 s, P s → ∀ t, execReplay x0 s = .next t → P t := by
  have A := A.mono h
  clear h
  have kReplay := replay_keeps A rfl
  intro x0 s  hs
  intro t e
  cases e
  repeat' first
    | with_reducible first
        | assumption | refine kReplay _ _  ?_
    | (extract_lets -underBinder +onlyGivenNames x; refine keeps_fact (P := P) (v := x) ?_ ?_; rotate_left; clear_value x; revert x; intro _ _; rotate_left; unfold x; clear x)
    | (extract_lets -underBinder +onlyGivenNames x; clear_value x; revert x; intro _)
    | intro _
    | split
    | with_reducible first | refine keeps_pair (by with_reducible assumption) ?_ | refine keeps_triple (by with_reducible assumption) ?_ | refine keeps_pairL (by with_reducible assumption) ?_

theorem execFrameCheck_keeps (A : Allows P m) (h : m &&& 10366745376 = 10366745376) :
    ∀ x0 x1 s, P s → ∀ t, execFrameCheck x0 x1 s = .next t → P t := by
  have A := A.mono h
  clear h
  have kServeAll := serveAll_keeps A rfl
  have kFrameCheck := frameCheck_keeps A rfl
  intro x0 x1 s  hs
  intro t e
  cases e
  repeat' first
    | with_reducible first
        | assumption | refine kServeAll _ _  ?_ | refine kFrameCheck _ _ _  ?_
        | refine each_keeps _ _ (fun _ _ _ => ?_) _ ?_ | refine foldl_keeps _ _ (fun _ _ _ => ?_) _ ?_
    | (extract_lets -underBinder +onlyGivenNames x; refine keeps_fact (P := P) (v := x) ?_ ?_; rotate_left; clear_value x; revert x; intro _ _; rotate_left; unfold x; clear x)
    | (extract_lets -underBinder +onlyGivenNames x; refine keeps_fact2 (P := P) (v := x) ?_ ?_; rotate_left; clear_value x; revert x; intro _ _; rotate_left; unfold x; clear x)
    | (extract_lets -underBinder +onlyGivenNames x; have h := fun a => x a; clear h; unfold x; clear x)
    | (extract_lets -underBinder +onlyGivenNames x; clear_value x; revert x; intro _)
    | intro _
    | split
    | with_reducible first | refine keeps_pair (by with_reducible assumption) ?_ | refine keeps_triple (by with_reducible assumption) ?_ | refine keeps_pairL (by with_reducible assumption) ?_

theorem execAnswer_keeps (A : Allows P m) (h : m &&& 10366745376 = 10366745376) :
    ∀ x0 x1 s, P s → ∀ t, execAnswer x0 x1 s = .next t → P t := by
  have A := A.mono h
  clear h
  have kAnswer := answer_keeps A rfl
  intro x0 x1 s  hs
  intro t e
  cases e
  repeat' first
    | with_reducible first
        | assumption | refine kAnswer _ _ _  ?_
    | (extract_lets -underBinder +onlyGivenNames x; refine keeps_fact (P := P) (v := x) ?_ ?_; rotate_left; clear_value x; revert x; intro _ _; rotate_left; unfold x; clear x)
    | (extract_lets -underBinder +onlyGivenNames x; clear_value x; revert x; intro _)
    | intro _
    | split
    | with_reducible first | refine keeps_pair (by with_reducible assumption) ?_ | refine keeps_triple (by with_reducible assumption) ?_ | refine keeps_pairL (by with_reducible assumption) ?_

theorem execInvalidation_keeps (A : Allows P m) (h : m &&& 10366745376 = 10366745376) :
    ∀ x0 x1 s, P s → ∀ t, execInvalidation x0 x1 s = .next t → P t := by
  have A := A.mono h
  clear h
  have kInvalidation := invalidation_keeps A rfl
  intro x0 x1 s  hs
  intro t e
  cases e
  repeat' first
    | with_reducible first
        | assumption | refine kInvalidation _ _ _  ?_
    | (extract_lets -underBinder +onlyGivenNames x; refine keeps_fact (P := P) (v := x) ?_ ?_; rotate_left; clear_value x; revert x; intro _ _; rotate_left; unfold x; clear x)
    | (extract_lets -underBinder +onlyGivenNames x; clear_value x; revert x; intro _)
    | intro _
    | split
    | with_reducible first | refine keeps_pair (by with_reducible assumption) ?_ | refine keeps_triple (by with_reducible assumption) ?_ | refine keeps_pairL (by with_reducible assumption) ?_

theorem execHorizonStampForm_keeps (A : Allows P m) (h : m &&& 131072 = 131072) :
    ∀ x0 s, P s → ∀ t, execHorizonStampForm x0 s = .next t → P t := by
  have A := A.mono h
  clear h
  have kStampForm := stampForm_keeps A rfl
  intro x0 s  hs
  intro t e
  cases e
  repeat' first
    | with_reducible first
        | assumption | refine kStampForm _ _  ?_
    | (extract_lets -underBinder +onlyGivenNames x; refine keeps_fact (P := P) (v := x) ?_ ?_; rotate_left; clear_value x; revert x; intro _ _; rotate_left; unfold x; clear x)
    | (extract_lets -underBinder +onlyGivenNames x; clear_value x; revert x; intro _)
    | intro _
    | split
    | with_reducible first | refine keeps_pair (by with_reducible assumption) ?_ | refine keeps_triple (by with_reducible assumption) ?_ | refine keeps_pairL (by with_reducible assumption) ?_

theorem execHorizonStamp_keeps (A : Allows P m) (h : m &&& 10366745376 = 10366745376) :
    ∀ x0 x1 s, P s → ∀ t, execHorizonStamp x0 x1 s = .next t → P t := by
  have A := A.mono h
  clear h
  have kHorizonStamp := horizonStamp_keeps A rfl
  intro x0 x1 s  hs
  intro t e
  cases e
  repeat' first
    | with_reducible first
        | assumption | refine kHorizonStamp _ _ _  ?_
    | (extract_lets -underBinder +onlyGivenNames x; refine keeps_fact (P := P) (v := x) ?_ ?_; rotate_left; clear_value x; revert x; intro _ _; rotate_left; unfold x; clear x)
    | (extract_lets -underBinder +onlyGivenNames x; clear_value x; revert x; intro _)
    | intro _
    | split
    | with_reducible first | refine keeps_pair (by with_reducible assumption) ?_ | refine keeps_triple (by with_reducible assumption) ?_ | refine keeps_pairL (by with_reducible assumption) ?_

theorem execFinalStamp_keeps (A : Allows P m) (h : m &&& 10366745376 = 10366745376) :
    ∀ x0 x1 s, P s → ∀ t, execFinalStamp x0 x1 s = .next t → P t := by
  have A := A.mono h
  clear h
  have kFinalStamp := finalStamp_keeps A rfl
  intro x0 x1 s  hs
  intro t e
  cases e
  repeat' first
    | with_reducible first
        | assumption | refine kFinalStamp _ _ _  ?_
    | (extract_lets -underBinder +onlyGivenNames x; refine keeps_fact (P := P) (v := x) ?_ ?_; rotate_left; clear_value x; revert x; intro _ _; rotate_left; unfold x; clear x)
    | (extract_lets -underBinder +onlyGivenNames x; clear_value x; revert x; intro _)
    | intro _
    | split
    | with_reducible first | refine keeps_pair (by with_reducible assumption) ?_ | refine keeps_triple (by with_reducible assumption) ?_ | refine keeps_pairL (by with_reducible assumption) ?_

theorem execFlowPull_keeps (A : Allows P m) (h : m &&& 131072 = 131072) :
    ∀ x0 x1 s, P s → ∀ t, execFlowPull x0 x1 s = .next t → P t := by
  have A := A.mono h
  clear h
  have kFlowPull := flowPull_keeps A rfl
  intro x0 x1 s  hs
  intro t e
  cases e
  repeat' first
    | with_reducible first
        | assumption | refine kFlowPull _ _ _  ?_
    | (extract_lets -underBinder +onlyGivenNames x; refine keeps_fact (P := P) (v := x) ?_ ?_; rotate_left; clear_value x; revert x; intro _ _; rotate_left; unfold x; clear x)
    | (extract_lets -underBinder +onlyGivenNames x; clear_value x; revert x; intro _)
    | intro _
    | split
    | with_reducible first | refine keeps_pair (by with_reducible assumption) ?_ | refine keeps_triple (by with_reducible assumption) ?_ | refine keeps_pairL (by with_reducible assumption) ?_

theorem execDeltaSend_keeps (A : Allows P m) (h : m &&& 131072 = 131072) :
    ∀ x0 x1 s, P s → ∀ t, execDeltaSend x0 x1 s = .next t → P t := by
  have A := A.mono h
  clear h
  have kDeltaSend := deltaSend_keeps A rfl
  intro x0 x1 s  hs
  intro t e
  cases e
  repeat' first
    | with_reducible first
        | assumption | refine kDeltaSend _ _ _  ?_
    | (extract_lets -underBinder +onlyGivenNames x; refine keeps_fact (P := P) (v := x) ?_ ?_; rotate_left; clear_value x; revert x; intro _ _; rotate_left; unfold x; clear x)
    | (extract_lets -underBinder +onlyGivenNames x; clear_value x; revert x; intro _)
    | intro _
    | split
    | with_reducible first | refine keeps_pair (by with_reducible assumption) ?_ | refine keeps_triple (by with_reducible assumption) ?_ | refine keeps_pairL (by with_reducible assumption) ?_

theorem execConfirmNotice_keeps (A : Allows P m) (h : m &&& 10366662944 = 10366662944) :
    ∀ x0 s, P s → ∀ t, execConfirmNotice x0 s = .next t → P t := by
  have A := A.mono h
  clear h
  have kServeAll := serveAll_keeps A rfl
  have kConfirmNotice := confirmNotice_keeps A rfl
  intro x0 s  hs
  intro t e
  cases e
  repeat' first
    | with_reducible first
        | assumption | refine kServeAll _ _  ?_ | refine kConfirmNotice _ _  ?_
        | refine each_keeps _ _ (fun _ _ _ => ?_) _ ?_ | refine foldl_keeps _ _ (fun _ _ _ => ?_) _ ?_
    | (extract_lets -underBinder +onlyGivenNames x; refine keeps_fact (P := P) (v := x) ?_ ?_; rotate_left; clear_value x; revert x; intro _ _; rotate_left; unfold x; clear x)
    | (extract_lets -underBinder +onlyGivenNames x; refine keeps_fact2 (P := P) (v := x) ?_ ?_; rotate_left; clear_value x; revert x; intro _ _; rotate_left; unfold x; clear x)
    | (extract_lets -underBinder +onlyGivenNames x; have h := fun a => x a; clear h; unfold x; clear x)
    | (extract_lets -underBinder +onlyGivenNames x; clear_value x; revert x; intro _)
    | intro _
    | split
    | with_reducible first | refine keeps_pair (by with_reducible assumption) ?_ | refine keeps_triple (by with_reducible assumption) ?_ | refine keeps_pairL (by with_reducible assumption) ?_

theorem execSpecTimeout_keeps (A : Allows P m) (h : m &&& 10366745376 = 10366745376) :
    ∀ x0 s, P s → ∀ t, execSpecTimeout x0 s = .next t → P t := by
  have A := A.mono h
  clear h
  have kSpecTimeout := specTimeout_keeps A rfl
  intro x0 s  hs
  intro t e
  cases e
  repeat' first
    | with_reducible first
        | assumption | refine kSpecTimeout _ _  ?_
    | (extract_lets -underBinder +onlyGivenNames x; refine keeps_fact (P := P) (v := x) ?_ ?_; rotate_left; clear_value x; revert x; intro _ _; rotate_left; unfold x; clear x)
    | (extract_lets -underBinder +onlyGivenNames x; clear_value x; revert x; intro _)
    | intro _
    | split
    | with_reducible first | refine keeps_pair (by with_reducible assumption) ?_ | refine keeps_triple (by with_reducible assumption) ?_ | refine keeps_pairL (by with_reducible assumption) ?_

theorem execUnstableEntryExpiry_keeps (A : Allows P m) (h : m &&& 262144 = 262144) :
    ∀ x0 x1 s, P s → ∀ t, execUnstableEntryExpiry x0 x1 s = .next t → P t := by
  have A := A.mono h
  clear h
  have kUnstableExpiry := unstableExpiry_keeps A rfl
  intro x0 x1 s  hs
  intro t e
  cases e
  repeat' first
    | with_reducible first
        | assumption | refine kUnstableExpiry _ _ _  ?_
    | (extract_lets -underBinder +onlyGivenNames x; refine keeps_fact (P := P) (v := x) ?_ ?_; rotate_left; clear_value x; revert x; intro _ _; rotate_left; unfold x; clear x)
    | (extract_lets -underBinder +onlyGivenNames x; clear_value x; revert x; intro _)
    | intro _
    | split
    | with_reducible first | refine keeps_pair (by with_reducible assumption) ?_ | refine keeps_triple (by with_reducible assumption) ?_ | refine keeps_pairL (by with_reducible assumption) ?_

theorem execStallNsExpiry_keeps (A : Allows P m) (h : m &&& 10335033632 = 10335033632) :
    ∀ x0 x1 s, P s → ∀ t, execStallNsExpiry x0 x1 s = .next t → P t := by
  have A := A.mono h
  clear h
  have kStallExpiry := stallExpiry_keeps A rfl
  intro x0 x1 s  hs
  intro t e
  cases e
  repeat' first
    | with_reducible first
        | assumption | refine kStallExpiry _ _ _  ?_
    | (extract_lets -underBinder +onlyGivenNames x; refine keeps_fact (P := P) (v := x) ?_ ?_; rotate_left; clear_value x; revert x; intro _ _; rotate_left; unfold x; clear x)
    | (extract_lets -underBinder +onlyGivenNames x; clear_value x; revert x; intro _)
    | intro _
    | split
    | with_reducible first | refine keeps_pair (by with_reducible assumption) ?_ | refine keeps_triple (by with_reducible assumption) ?_ | refine keeps_pairL (by with_reducible assumption) ?_

theorem execInjectPort_keeps (A : Allows P m) (h : m &&& 10347378976 = 10347378976) :
    ∀ x0 s, P s → ∀ t, execInjectPort x0 s = .next t → P t := by
  have A := A.mono h
  clear h
  have kInjectPort := injectPort_keeps A rfl
  intro x0 s  hs
  intro t e
  cases e
  repeat' first
    | with_reducible first
        | assumption | refine kInjectPort _ _  ?_
    | (extract_lets -underBinder +onlyGivenNames x; refine keeps_fact (P := P) (v := x) ?_ ?_; rotate_left; clear_value x; revert x; intro _ _; rotate_left; unfold x; clear x)
    | (extract_lets -underBinder +onlyGivenNames x; clear_value x; revert x; intro _)
    | intro _
    | split
    | with_reducible first | refine keeps_pair (by with_reducible assumption) ?_ | refine keeps_triple (by with_reducible assumption) ?_ | refine keeps_pairL (by with_reducible assumption) ?_

theorem execInjectPipe_keeps (A : Allows P m) (h : m &&& 10351835424 = 10351835424) :
    ∀ x0 s, P s → ∀ t, execInjectPipe x0 s = .next t → P t := by
  have A := A.mono h
  clear h
  have kInjectPipe := injectPipe_keeps A rfl
  intro x0 s  hs
  intro t e
  cases e
  repeat' first
    | with_reducible first
        | assumption | refine kInjectPipe _ _  ?_
    | (extract_lets -underBinder +onlyGivenNames x; refine keeps_fact (P := P) (v := x) ?_ ?_; rotate_left; clear_value x; revert x; intro _ _; rotate_left; unfold x; clear x)
    | (extract_lets -underBinder +onlyGivenNames x; clear_value x; revert x; intro _)
    | intro _
    | split
    | with_reducible first | refine keeps_pair (by with_reducible assumption) ?_ | refine keeps_triple (by with_reducible assumption) ?_ | refine keeps_pairL (by with_reducible assumption) ?_

end Sys2Proof.Laws
end

