-- ==== Sys2Proof/Laws/Domain.lean ====
section
/-! SUPPORT. What each operation of Machine/Domain.lean can change (Laws/Keeps.lean). -/

namespace Sys2Proof.Laws

open Sys2Proof.Machine

variable {P : State → Prop} {m : Nat}

theorem domEvent_keeps (A : Allows P m) (h : m &&& 10334771488 = 10334771488) :
    ∀ x0 x1 x2 s, P s → P (domEvent x0 x1 x2 s) := by
  have A := A.mono h
  clear h
  have kRaise := raise_keeps A rfl
  intro x0 x1 x2 s  hs
  unfold domEvent
  repeat' first
    | with_reducible first
        | assumption | refine kRaise _ _ _ _ _ _ _  ?_

theorem countDiscards_keeps (A : Allows P m) (h : m &&& 2048 = 2048) :
    ∀ x0 s, P s → P (countDiscards x0 s) := by
  have A := A.mono h
  clear h
  have kCntAdd := cntAdd_keeps A rfl
  intro x0 s  hs
  unfold countDiscards
  repeat' first
    | with_reducible first
        | assumption | refine kCntAdd _ _ _ _ _  ?_

theorem dropPunts_keeps (A : Allows P m) (h : m &&& 10355751200 = 10355751200) :
    ∀ x0 s, P s → P (dropPunts x0 s) := by
  have A := A.mono h
  clear h
  have kModHif := modHif_keeps A rfl
  have kPuntAbandon := puntAbandon_keeps A rfl
  have kModPool := modPool_keeps A rfl
  intro x0 s  hs
  unfold dropPunts
  repeat' first
    | with_reducible first
        | assumption | refine kModHif _ _  ?_ | refine kPuntAbandon _ _ _  ?_ | refine kModPool _ _ _  ?_
        | refine each_keeps _ _ (fun _ _ _ => ?_) _ ?_
    | (extract_lets -underBinder +onlyGivenNames x; refine keeps_fact (P := P) (v := x) ?_ ?_; rotate_left; clear_value x; revert x; intro _ _; rotate_left; unfold x; clear x)
    | (extract_lets -underBinder +onlyGivenNames x; clear_value x; revert x; intro _)
    | intro _

theorem faultDrop_keeps (A : Allows P m) (h : m &&& 10364565792 = 10364565792) :
    ∀ x0 s, P s → P (faultDrop x0 s) := by
  have A := A.mono h
  clear h
  have kDropEarly := dropEarly_keeps A rfl
  have kDropPunts := dropPunts_keeps A rfl
  have kCntInc := cntInc_keeps A rfl
  intro x0 s  hs
  unfold faultDrop
  repeat' first
    | with_reducible first
        | assumption | refine kDropEarly _ _ _  ?_ | refine kDropPunts _ _  ?_ | refine kCntInc _ _ _ _  ?_
    | split

theorem clearPipe_keeps (A : Allows P m) (h : m &&& 29858064 = 29858064) :
    ∀ x0 s, P s → P (clearPipe x0 s) := by
  have A := A.mono h
  clear h
  have kModReplicas := modReplicas_keeps A rfl
  have kModWaitings := modWaitings_keeps A rfl
  have kModCls := modCls_keeps A rfl
  have kModFab := modFab_keeps A rfl
  have kModEgs := modEgs_keeps A rfl
  have kModBuf := modBuf_keeps A rfl
  have kModFwd := modFwd_keeps A rfl
  have kFinish := finish_keeps A rfl
  intro x0 s  hs
  unfold clearPipe
  repeat' first
    | with_reducible first
        | assumption | refine kModReplicas _ _ _  ?_ | refine kModWaitings _ _ _  ?_ | refine kModCls _ _  ?_
        | refine kModFab _ _  ?_ | refine kModEgs _ _  ?_ | refine kModBuf _ _  ?_ | refine kModFwd _ _  ?_
        | refine kFinish _ _ _ _ _ _  ?_ | refine each_keeps _ _ (fun _ _ _ => ?_) _ ?_
    | (extract_lets -underBinder +onlyGivenNames x; refine keeps_fact (P := P) (v := x) ?_ ?_; rotate_left; clear_value x; revert x; intro _ _; rotate_left; unfold x; clear x)
    | (extract_lets -underBinder +onlyGivenNames x; have h := fun a => x a; clear h; unfold x; clear x)
    | (extract_lets -underBinder +onlyGivenNames x; clear_value x; revert x; intro _)
    | intro _
    | split
    | with_reducible first | refine A.pipes rfl _ _ ?_

theorem dropPipeFrames_keeps (A : Allows P m) (h : m &&& 10364565792 = 10364565792) :
    ∀ x0 s, P s → P (dropPipeFrames x0 s) := by
  have A := A.mono h
  clear h
  have kFaultDrop := faultDrop_keeps A rfl
  intro x0 s  hs
  unfold dropPipeFrames
  repeat' first
    | with_reducible first
        | assumption | refine kFaultDrop _ _  ?_ | refine each_keeps _ _ (fun _ _ _ => ?_) _ ?_

theorem discardFromPipe_keeps (A : Allows P m) (h : m &&& 133120 = 133120) :
    ∀ x0 s, P s → P (discardFromPipe x0 s) := by
  have A := A.mono h
  clear h
  have kCountDiscards := countDiscards_keeps A rfl
  have kModSlice := modSlice_keeps A rfl
  intro x0 s  hs
  unfold discardFromPipe
  repeat' first
    | with_reducible first
        | assumption | refine kCountDiscards _ _  ?_ | refine kModSlice _ _ _  ?_
        | refine each_keeps _ _ (fun _ _ _ => ?_) _ ?_
    | (extract_lets -underBinder +onlyGivenNames x; refine keeps_fact (P := P) (v := x) ?_ ?_; rotate_left; clear_value x; revert x; intro _ _; rotate_left; unfold x; clear x)
    | (extract_lets -underBinder +onlyGivenNames x; clear_value x; revert x; intro _)
    | intro _

theorem octetDown_keeps (A : Allows P m) (h : m &&& 10389731616 = 10389731616) :
    ∀ x0 s, P s → P (octetDown x0 s) := by
  have A := A.mono h
  clear h
  have kPortDown := portDown_keeps A rfl
  intro x0 s  hs
  unfold octetDown
  repeat' first
    | with_reducible first
        | assumption | refine kPortDown _ _  ?_ | refine each_keeps _ _ (fun _ _ _ => ?_) _ ?_

theorem discardFromOctet_keeps (A : Allows P m) (h : m &&& 67584 = 67584) :
    ∀ x0 s, P s → P (discardFromOctet x0 s) := by
  have A := A.mono h
  clear h
  have kCountDiscards := countDiscards_keeps A rfl
  have kModFwd := modFwd_keeps A rfl
  intro x0 s  hs
  unfold discardFromOctet
  repeat' first
    | with_reducible first
        | assumption | refine kCountDiscards _ _  ?_ | refine kModFwd _ _  ?_
        | refine each_keeps _ _ (fun _ _ _ => ?_) _ ?_
    | (extract_lets -underBinder +onlyGivenNames x; refine keeps_fact (P := P) (v := x) ?_ ?_; rotate_left; clear_value x; revert x; intro _ _; rotate_left; unfold x; clear x)
    | (extract_lets -underBinder +onlyGivenNames x; have h := fun a => x a; clear h; unfold x; clear x)
    | (extract_lets -underBinder +onlyGivenNames x; clear_value x; revert x; intro _)
    | intro _
    | split
    | with_reducible first | refine keeps_pair (by with_reducible assumption) ?_ | refine keeps_triple (by with_reducible assumption) ?_ | refine keeps_pairL (by with_reducible assumption) ?_

theorem clearSlice_keeps (A : Allows P m) (h : m &&& 2293760 = 2293760) :
    ∀ x0 s, P s → P (clearSlice x0 s) := by
  have A := A.mono h
  clear h
  have kModSlice := modSlice_keeps A rfl
  have kModFwd := modFwd_keeps A rfl
  have kModTsk := modTsk_keeps A rfl
  intro x0 s  hs
  unfold clearSlice
  repeat' first
    | with_reducible first
        | assumption | refine kModSlice _ _ _  ?_ | refine kModFwd _ _  ?_ | refine kModTsk _ _  ?_
    | (extract_lets -underBinder +onlyGivenNames x; refine keeps_fact (P := P) (v := x) ?_ ?_; rotate_left; clear_value x; revert x; intro _ _; rotate_left; unfold x; clear x)
    | (extract_lets -underBinder +onlyGivenNames x; clear_value x; revert x; intro _)
    | intro _

theorem discardFromSlice_keeps (A : Allows P m) (h : m &&& 198656 = 198656) :
    ∀ x0 s, P s → P (discardFromSlice x0 s) := by
  have A := A.mono h
  clear h
  have kCountDiscards := countDiscards_keeps A rfl
  have kModChan := modChan_keeps A rfl
  have kModFwd := modFwd_keeps A rfl
  intro x0 s  hs
  unfold discardFromSlice
  repeat' first
    | with_reducible first
        | assumption | refine kCountDiscards _ _  ?_ | refine kModChan _ _ _ _  ?_ | refine kModFwd _ _  ?_
        | refine each_keeps _ _ (fun _ _ _ => ?_) _ ?_
    | (extract_lets -underBinder +onlyGivenNames x; refine keeps_fact (P := P) (v := x) ?_ ?_; rotate_left; clear_value x; revert x; intro _ _; rotate_left; unfold x; clear x)
    | (extract_lets -underBinder +onlyGivenNames x; have h := fun a => x a; clear h; unfold x; clear x)
    | (extract_lets -underBinder +onlyGivenNames x; clear_value x; revert x; intro _)
    | intro _

theorem dropTasks_keeps (A : Allows P m) (h : m &&& 10358274336 = 10358274336) :
    ∀ x0 s, P s → P (dropTasks x0 s) := by
  have A := A.mono h
  clear h
  have kDropTaskPkt := dropTaskPkt_keeps A rfl
  have kTskCnt := tskCnt_keeps A rfl
  have kResetCore := resetCore_keeps A rfl
  have kModCore := modCore_keeps A rfl
  intro x0 s  hs
  unfold dropTasks
  repeat' first
    | with_reducible first
        | assumption | refine kDropTaskPkt _ _  ?_ | refine kTskCnt _ _ _  ?_ | refine kResetCore _ _  ?_
        | refine kModCore _ _ _  ?_ | refine each_keeps _ _ (fun _ _ _ => ?_) _ ?_
    | (extract_lets -underBinder +onlyGivenNames x; refine keeps_fact (P := P) (v := x) ?_ ?_; rotate_left; clear_value x; revert x; intro _ _; rotate_left; unfold x; clear x)
    | (extract_lets -underBinder +onlyGivenNames x; clear_value x; revert x; intro _)
    | intro _
    | split

theorem dropReplicas_keeps (A : Allows P m) (h : m &&& 131072 = 131072) :
    ∀ x0 s, P s → P (dropReplicas x0 s) := by
  have A := A.mono h
  clear h
  have kModReplicas := modReplicas_keeps A rfl
  intro x0 s  hs
  unfold dropReplicas
  repeat' first
    | with_reducible first
        | assumption | refine kModReplicas _ _ _  ?_ | refine each_keeps _ _ (fun _ _ _ => ?_) _ ?_
    | intro _

theorem resendHalf_keeps (A : Allows P m) (h : m &&& 131072 = 131072) :
    ∀ x0 s, P s → P (resendHalf x0 s) := by
  have A := A.mono h
  clear h
  have kResendReq := resendReq_keeps A rfl
  intro x0 s  hs
  unfold resendHalf
  repeat' first
    | with_reducible first
        | assumption | refine kResendReq _ _ _  ?_ | refine each_keeps _ _ (fun _ _ _ => ?_) _ ?_
    | intro _

theorem squashOwner_keeps (A : Allows P m) (h : m &&& 10364565792 = 10364565792) :
    ∀ x0 s, P s → P (squashOwner x0 s) := by
  have A := A.mono h
  clear h
  have kSquashChain := squashChain_keeps A rfl
  intro x0 s  hs
  unfold squashOwner
  repeat' first
    | with_reducible first
        | assumption | refine kSquashChain _ _ _ _ _  ?_ | refine each_keeps _ _ (fun _ _ _ => ?_) _ ?_
    | intro _
    | split
    | with_reducible first | refine keeps_pair (by with_reducible assumption) ?_ | refine keeps_triple (by with_reducible assumption) ?_ | refine keeps_pairL (by with_reducible assumption) ?_

theorem failSliceCmds_keeps (A : Allows P m) (h : m &&& 6416 = 6416) :
    ∀ x0 s, P s → P (failSliceCmds x0 s) := by
  have A := A.mono h
  clear h
  have kFinish := finish_keeps A rfl
  intro x0 s  hs
  unfold failSliceCmds
  repeat' first
    | with_reducible first
        | assumption | refine kFinish _ _ _ _ _ _  ?_ | refine each_keeps _ _ (fun _ _ _ => ?_) _ ?_
    | (extract_lets -underBinder +onlyGivenNames x; refine keeps_fact (P := P) (v := x) ?_ ?_; rotate_left; clear_value x; revert x; intro _ _; rotate_left; unfold x; clear x)
    | (extract_lets -underBinder +onlyGivenNames x; clear_value x; revert x; intro _)
    | intro _

theorem inheritSlice_keeps (A : Allows P m) (h : m &&& 131072 = 131072) :
    ∀ x0 x1 s, P s → P (inheritSlice x0 x1 s) := by
  have A := A.mono h
  clear h
  have kModSlice := modSlice_keeps A rfl
  intro x0 x1 s  hs
  unfold inheritSlice
  repeat' first
    | with_reducible first
        | assumption | refine kModSlice _ _ _  ?_
    | (extract_lets -underBinder +onlyGivenNames x; refine keeps_fact (P := P) (v := x) ?_ ?_; rotate_left; clear_value x; revert x; intro _ _; rotate_left; unfold x; clear x)
    | (extract_lets -underBinder +onlyGivenNames x; clear_value x; revert x; intro _)
    | intro _

theorem loseSlice_keeps (A : Allows P m) (h : m &&& 10366729520 = 10366729520) :
    ∀ x0 s, P s → P (loseSlice x0 s) := by
  have A := A.mono h
  clear h
  have kRemoveNew := removeNew_keeps A rfl
  have kDropTasks := dropTasks_keeps A rfl
  have kInheritSlice := inheritSlice_keeps A rfl
  have kFailSliceCmds := failSliceCmds_keeps A rfl
  have kModSlice := modSlice_keeps A rfl
  have kSquashOwner := squashOwner_keeps A rfl
  have kResendHalf := resendHalf_keeps A rfl
  have kDropReplicas := dropReplicas_keeps A rfl
  have kDiscardFromSlice := discardFromSlice_keeps A rfl
  have kClearSlice := clearSlice_keeps A rfl
  have kRaise := raise_keeps A rfl
  intro x0 s  hs
  unfold loseSlice
  repeat' first
    | with_reducible first
        | assumption | refine kRemoveNew _ _ _ _  ?_ | refine kDropTasks _ _  ?_ | refine kInheritSlice _ _ _  ?_
        | refine kFailSliceCmds _ _  ?_ | refine kModSlice _ _ _  ?_ | refine kSquashOwner _ _  ?_
        | refine kResendHalf _ _  ?_ | refine kDropReplicas _ _  ?_ | refine kDiscardFromSlice _ _  ?_
        | refine kClearSlice _ _  ?_ | refine kRaise _ _ _ _ _ _ _  ?_
        | refine each_keeps _ _ (fun _ _ _ => ?_) _ ?_
    | (extract_lets -underBinder +onlyGivenNames x; refine keeps_fact (P := P) (v := x) ?_ ?_; rotate_left; clear_value x; revert x; intro _ _; rotate_left; unfold x; clear x)
    | (extract_lets -underBinder +onlyGivenNames x; clear_value x; revert x; intro _)
    | intro _
    | split

theorem clearCluster_keeps (A : Allows P m) (h : m &&& 2097152 = 2097152) :
    ∀ x0 s, P s → P (clearCluster x0 s) := by
  have A := A.mono h
  clear h
  have kModCore := modCore_keeps A rfl
  have kModCluster := modCluster_keeps A rfl
  intro x0 s  hs
  unfold clearCluster
  repeat' first
    | with_reducible first
        | assumption | refine kModCore _ _ _  ?_ | refine kModCluster _ _ _  ?_
        | refine each_keeps _ _ (fun _ _ _ => ?_) _ ?_
    | intro _

theorem rolloutPast_keeps (A : Allows P m) (h : m &&& 10336868640 = 10336868640) :
    ∀ x0 s, P s → P (rolloutPast x0 s) := by
  have A := A.mono h
  clear h
  have kRolloutNext := rolloutNext_keeps A rfl
  have kModRoll := modRoll_keeps A rfl
  intro x0 s  hs
  unfold rolloutPast
  repeat' first
    | with_reducible first
        | assumption | refine kRolloutNext _ _  ?_ | refine kModRoll _ _  ?_
    | intro _
    | split

theorem faultCluster_keeps (A : Allows P m) (h : m &&& 10366663968 = 10366663968) :
    ∀ x0 s, P s → P (faultCluster x0 s) := by
  have A := A.mono h
  clear h
  have kFaultOnCore := faultOnCore_keeps A rfl
  intro x0 s  hs
  unfold faultCluster
  repeat' first
    | with_reducible first
        | assumption | refine kFaultOnCore _ _ _  ?_ | refine each_keeps _ _ (fun _ _ _ => ?_) _ ?_
    | (extract_lets -underBinder +onlyGivenNames x; refine keeps_fact (P := P) (v := x) ?_ ?_; rotate_left; clear_value x; revert x; intro _ _; rotate_left; unfold x; clear x)
    | (extract_lets -underBinder +onlyGivenNames x; clear_value x; revert x; intro _)
    | intro _
    | split
    | with_reducible first | refine keeps_pair (by with_reducible assumption) ?_ | refine keeps_triple (by with_reducible assumption) ?_ | refine keeps_pairL (by with_reducible assumption) ?_

theorem clearCounters_keeps (A : Allows P m) (h : m &&& 2048 = 2048) :
    ∀ x0 s, P s → P (clearCounters x0 s) := by
  have A := A.mono h
  clear h
  have kCntClear := cntClear_keeps A rfl
  have kCntSet := cntSet_keeps A rfl
  intro x0 s  hs
  unfold clearCounters
  repeat' first
    | with_reducible first
        | assumption | refine kCntClear _ _  ?_ | refine kCntSet _ _ _ _ _  ?_
        | refine each_keeps _ _ (fun _ _ _ => ?_) _ ?_
    | intro _
    | split
    | with_reducible first | refine keeps_pair (by with_reducible assumption) ?_ | refine keeps_triple (by with_reducible assumption) ?_ | refine keeps_pairL (by with_reducible assumption) ?_

theorem clearDomain_keeps (A : Allows P m) (h : m &&& 10366720304 = 10366720304) :
    ∀ x0 s, P s → P (clearDomain x0 s) := by
  have A := A.mono h
  clear h
  have kDiscardFromOctet := discardFromOctet_keeps A rfl
  have kDiscardFromPipe := discardFromPipe_keeps A rfl
  have kClearPipe := clearPipe_keeps A rfl
  have kDiscardFromSlice := discardFromSlice_keeps A rfl
  have kClearSlice := clearSlice_keeps A rfl
  have kRolloutPast := rolloutPast_keeps A rfl
  have kCheckServed := checkServed_keeps A rfl
  have kClearCluster := clearCluster_keeps A rfl
  intro x0 s  hs
  unfold clearDomain
  repeat' first
    | with_reducible first
        | assumption | refine kDiscardFromOctet _ _  ?_ | refine kDiscardFromPipe _ _  ?_
        | refine kClearPipe _ _  ?_ | refine kDiscardFromSlice _ _  ?_ | refine kClearSlice _ _  ?_
        | refine kRolloutPast _ _  ?_ | refine kCheckServed _ _  ?_ | refine kClearCluster _ _  ?_
    | split
    | with_reducible first | refine keeps_pair (by with_reducible assumption) ?_ | refine keeps_triple (by with_reducible assumption) ?_ | refine keeps_pairL (by with_reducible assumption) ?_

theorem enterQuar_keeps (A : Allows P m) (h : m &&& 14629738784 = 14629738784) :
    ∀ x0 x1 x2 s, P s → P (enterQuar x0 x1 x2 s) := by
  have A := A.mono h
  clear h
  have kModDomain := modDomain_keeps A rfl
  have kDomEvent := domEvent_keeps A rfl
  intro x0 x1 x2 s  hs
  unfold enterQuar
  repeat' first
    | with_reducible first
        | assumption | refine kModDomain _ _ _  ?_ | refine kDomEvent _ _ _ _  ?_
    | (extract_lets -underBinder +onlyGivenNames x; refine keeps_fact (P := P) (v := x) ?_ ?_; rotate_left; clear_value x; revert x; intro _ _; rotate_left; unfold x; clear x)
    | (extract_lets -underBinder +onlyGivenNames x; clear_value x; revert x; intro _)
    | intro _
    | split

theorem powerOff_keeps (A : Allows P m) (h : m &&& 14661687600 = 14661687600) :
    ∀ x0 s, P s → P (powerOff x0 s) := by
  have A := A.mono h
  clear h
  have kModDomain := modDomain_keeps A rfl
  have kDomEvent := domEvent_keeps A rfl
  have kClearDomain := clearDomain_keeps A rfl
  intro x0 s  hs
  unfold powerOff
  repeat' first
    | with_reducible first
        | assumption | refine kModDomain _ _ _  ?_ | refine kDomEvent _ _ _ _  ?_ | refine kClearDomain _ _  ?_
    | (extract_lets -underBinder +onlyGivenNames x; refine keeps_fact (P := P) (v := x) ?_ ?_; rotate_left; clear_value x; revert x; intro _ _; rotate_left; unfold x; clear x)
    | (extract_lets -underBinder +onlyGivenNames x; clear_value x; revert x; intro _)
    | intro _

theorem beginInit_keeps (A : Allows P m) (h : m &&& 4294967296 = 4294967296) :
    ∀ x0 x1 x2 s, P s → P (beginInit x0 x1 x2 s) := by
  have A := A.mono h
  clear h
  have kModDomain := modDomain_keeps A rfl
  intro x0 x1 x2 s  hs
  unfold beginInit
  repeat' first
    | with_reducible first
        | assumption | refine kModDomain _ _ _  ?_
    | intro _

theorem ctlDone_keeps (A : Allows P m) (h : m &&& 2048 = 2048) :
    ∀ x0 x1 s, P s → P (ctlDone x0 x1 s).2 := by
  have A := A.mono h
  clear h
  have kCntInc := cntInc_keeps A rfl
  intro x0 x1 s  hs
  unfold ctlDone
  repeat' first
    | with_reducible first
        | assumption | refine kCntInc _ _ _ _  ?_
    | split

theorem ctlFinish_keeps (A : Allows P m) (h : m &&& 6416 = 6416) :
    ∀ x0 x1 x2 s, P s → P (ctlFinish x0 x1 x2 s) := by
  have A := A.mono h
  clear h
  have kFinish := finish_keeps A rfl
  have kCntInc := cntInc_keeps A rfl
  intro x0 x1 x2 s  hs
  unfold ctlFinish
  repeat' first
    | with_reducible first
        | assumption | refine kFinish _ _ _ _ _ _  ?_ | refine kCntInc _ _ _ _  ?_
    | split

theorem onDomain_keeps (A : Allows P m) (h : m &&& 0 = 0) :
    ∀ x0 x1 s, (∀ a t, P t → P (x1 a t).2) → P s → P (onDomain x0 x1 s).2 := by
  have A := A.mono h
  clear h
  intro x0 x1 s k0 hs
  unfold onDomain
  repeat' first
    | with_reducible first
        | assumption | refine k0 _ _ ?_ | refine k0 _ ?_
    | intro _
    | split
    | with_reducible first | refine keeps_pair (by with_reducible assumption) ?_ | refine keeps_triple (by with_reducible assumption) ?_ | refine keeps_pairL (by with_reducible assumption) ?_

theorem startTransfer_keeps (A : Allows P m) (h : m &&& 131072 = 131072) :
    ∀ x0 s, P s → P (startTransfer x0 s) := by
  have A := A.mono h
  clear h
  have kModSlice := modSlice_keeps A rfl
  intro x0 s  hs
  unfold startTransfer
  repeat' first
    | with_reducible first
        | assumption | refine kModSlice _ _ _  ?_
    | (extract_lets -underBinder +onlyGivenNames x; refine keeps_fact (P := P) (v := x) ?_ ?_; rotate_left; clear_value x; revert x; intro _ _; rotate_left; unfold x; clear x)
    | (extract_lets -underBinder +onlyGivenNames x; clear_value x; revert x; intro _)
    | intro _
    | split

theorem beginStop_keeps (A : Allows P m) (h : m &&& 14686796064 = 14686796064) :
    ∀ x0 s, P s → P (beginStop x0 s) := by
  have A := A.mono h
  clear h
  have kModDomain := modDomain_keeps A rfl
  have kOctetDown := octetDown_keeps A rfl
  have kStartTransfer := startTransfer_keeps A rfl
  have kCheckServed := checkServed_keeps A rfl
  intro x0 s  hs
  unfold beginStop
  repeat' first
    | with_reducible first
        | assumption | refine kModDomain _ _ _  ?_ | refine kOctetDown _ _  ?_ | refine kStartTransfer _ _  ?_
        | refine kCheckServed _ _  ?_
    | (extract_lets -underBinder +onlyGivenNames x; refine keeps_fact (P := P) (v := x) ?_ ?_; rotate_left; clear_value x; revert x; intro _ _; rotate_left; unfold x; clear x)
    | (extract_lets -underBinder +onlyGivenNames x; clear_value x; revert x; intro _)
    | intro _
    | split
    | with_reducible first | refine keeps_pair (by with_reducible assumption) ?_ | refine keeps_triple (by with_reducible assumption) ?_ | refine keeps_pairL (by with_reducible assumption) ?_

theorem runCtlQuery_keeps (A : Allows P m) (h : m &&& 2048 = 2048) :
    ∀ x0 x1 s, P s → P (runCtlQuery x0 x1 s).2 := by
  have A := A.mono h
  clear h
  have kOnDomain := onDomain_keeps A rfl
  have kCtlDone := ctlDone_keeps A rfl
  intro x0 x1 s  hs
  unfold runCtlQuery
  repeat' first
    | with_reducible first
        | assumption | refine kOnDomain _ _ _ ?_ ?_ | refine kCtlDone _ _ _  ?_
    | intro _

theorem runCtlOff_keeps (A : Allows P m) (h : m &&& 14686796064 = 14686796064) :
    ∀ x0 x1 s, P s → P (runCtlOff x0 x1 s).2 := by
  have A := A.mono h
  clear h
  have kOnDomain := onDomain_keeps A rfl
  have kCtlDone := ctlDone_keeps A rfl
  have kBeginStop := beginStop_keeps A rfl
  intro x0 x1 s  hs
  unfold runCtlOff
  repeat' first
    | with_reducible first
        | assumption | refine kOnDomain _ _ _ ?_ ?_ | refine kCtlDone _ _ _  ?_ | refine kBeginStop _ _  ?_
    | intro _
    | split

theorem runCtlOn_keeps (A : Allows P m) (h : m &&& 14629738784 = 14629738784) :
    ∀ x0 x1 s, P s → P (runCtlOn x0 x1 s).2 := by
  have A := A.mono h
  clear h
  have kOnDomain := onDomain_keeps A rfl
  have kCtlDone := ctlDone_keeps A rfl
  have kEnterQuar := enterQuar_keeps A rfl
  intro x0 x1 s  hs
  unfold runCtlOn
  repeat' first
    | with_reducible first
        | assumption | refine kOnDomain _ _ _ ?_ ?_ | refine kCtlDone _ _ _  ?_ | refine kEnterQuar _ _ _ _  ?_
    | intro _
    | split

theorem runCtlReinit_keeps (A : Allows P m) (h : m &&& 4294969344 = 4294969344) :
    ∀ x0 x1 x2 s, P s → P (runCtlReinit x0 x1 x2 s).2 := by
  have A := A.mono h
  clear h
  have kOnDomain := onDomain_keeps A rfl
  have kCtlDone := ctlDone_keeps A rfl
  have kBeginInit := beginInit_keeps A rfl
  intro x0 x1 x2 s  hs
  unfold runCtlReinit
  repeat' first
    | with_reducible first
        | assumption | refine kOnDomain _ _ _ ?_ ?_ | refine kCtlDone _ _ _  ?_ | refine kBeginInit _ _ _ _  ?_
    | intro _
    | split

theorem runCtlRestart_keeps (A : Allows P m) (h : m &&& 14686796064 = 14686796064) :
    ∀ x0 x1 x2 s, P s → P (runCtlRestart x0 x1 x2 s).2 := by
  have A := A.mono h
  clear h
  have kOnDomain := onDomain_keeps A rfl
  have kCtlDone := ctlDone_keeps A rfl
  have kBeginStop := beginStop_keeps A rfl
  intro x0 x1 x2 s  hs
  unfold runCtlRestart
  repeat' first
    | with_reducible first
        | assumption | refine kOnDomain _ _ _ ?_ ?_ | refine kCtlDone _ _ _  ?_ | refine kBeginStop _ _  ?_
    | (extract_lets -underBinder +onlyGivenNames x; refine keeps_fact (P := P) (v := x) ?_ ?_; rotate_left; clear_value x; revert x; intro _ _; rotate_left; unfold x; clear x)
    | (extract_lets -underBinder +onlyGivenNames x; clear_value x; revert x; intro _)
    | intro _
    | split

theorem sliceStops_keeps (A : Allows P m) (h : m &&& 14661631264 = 14661631264) :
    ∀ x0 s, P s → P (sliceStops x0 s) := by
  have A := A.mono h
  clear h
  have kStartTransfer := startTransfer_keeps A rfl
  have kModDomain := modDomain_keeps A rfl
  have kCancelTask := cancelTask_keeps A rfl
  have kMakeTask := makeTask_keeps A rfl
  have kModTsk := modTsk_keeps A rfl
  intro x0 s  hs
  unfold sliceStops
  repeat' first
    | with_reducible first
        | assumption | refine kStartTransfer _ _  ?_ | refine kModDomain _ _ _  ?_ | refine kCancelTask _ _ _  ?_
        | refine kMakeTask _ _ _  ?_ | refine kModTsk _ _  ?_ | refine each_keeps _ _ (fun _ _ _ => ?_) _ ?_
    | (extract_lets -underBinder +onlyGivenNames x; refine keeps_fact (P := P) (v := x) ?_ ?_; rotate_left; clear_value x; revert x; intro _ _; rotate_left; unfold x; clear x)
    | (extract_lets -underBinder +onlyGivenNames x; clear_value x; revert x; intro _)
    | intro _
    | split

theorem restoreDomain_keeps (A : Allows P m) (h : m &&& 14636169504 = 14636169504) :
    ∀ x0 s, P s → P (restoreDomain x0 s) := by
  have A := A.mono h
  clear h
  have kModDomain := modDomain_keeps A rfl
  have kModSlice := modSlice_keeps A rfl
  have kCheckServed := checkServed_keeps A rfl
  have kTakeItems := takeItems_keeps A rfl
  intro x0 s  hs
  unfold restoreDomain
  repeat' first
    | with_reducible first
        | assumption | refine kModDomain _ _ _  ?_ | refine kModSlice _ _ _  ?_ | refine kCheckServed _ _  ?_
        | refine kTakeItems _ _ _  ?_ | refine each_keeps _ _ (fun _ _ _ => ?_) _ ?_
    | (extract_lets -underBinder +onlyGivenNames x; refine keeps_fact (P := P) (v := x) ?_ ?_; rotate_left; clear_value x; revert x; intro _ _; rotate_left; unfold x; clear x)
    | (extract_lets -underBinder +onlyGivenNames x; clear_value x; revert x; intro _)
    | intro _
    | split
    | with_reducible first | refine keeps_pair (by with_reducible assumption) ?_ | refine keeps_triple (by with_reducible assumption) ?_ | refine keeps_pairL (by with_reducible assumption) ?_

theorem stopCommit_keeps (A : Allows P m) (h : m &&& 14661687600 = 14661687600) :
    ∀ x0 s, P s → P (stopCommit x0 s) := by
  have A := A.mono h
  clear h
  have kPowerOff := powerOff_keeps A rfl
  intro x0 s  hs
  unfold stopCommit
  repeat' first
    | with_reducible first
        | assumption | refine kPowerOff _ _  ?_ | refine each_keeps _ _ (fun _ _ _ => ?_) _ ?_
    | intro _
    | split
    | with_reducible first | refine keeps_pair (by with_reducible assumption) ?_ | refine keeps_triple (by with_reducible assumption) ?_ | refine keeps_pairL (by with_reducible assumption) ?_

theorem ctlUndo_keeps (A : Allows P m) (h : m &&& 14636169504 = 14636169504) :
    ∀ x0 x1 s, P s → P (ctlUndo x0 x1 s) := by
  have A := A.mono h
  clear h
  have kModDomain := modDomain_keeps A rfl
  have kRestoreDomain := restoreDomain_keeps A rfl
  intro x0 x1 s  hs
  unfold ctlUndo
  repeat' first
    | with_reducible first
        | assumption | refine kModDomain _ _ _  ?_ | refine kRestoreDomain _ _  ?_
    | intro _
    | split
    | with_reducible first | refine keeps_pair (by with_reducible assumption) ?_ | refine keeps_triple (by with_reducible assumption) ?_ | refine keeps_pairL (by with_reducible assumption) ?_

theorem ctlAbort_keeps (A : Allows P m) (h : m &&& 14636169520 = 14636169520) :
    ∀ x0 x1 s, P s → P (ctlAbort x0 x1 s) := by
  have A := A.mono h
  clear h
  have kCtlFinish := ctlFinish_keeps A rfl
  have kCtlUndo := ctlUndo_keeps A rfl
  intro x0 x1 s  hs
  unfold ctlAbort
  repeat' first
    | with_reducible first
        | assumption | refine kCtlFinish _ _ _ _  ?_ | refine kCtlUndo _ _ _  ?_
    | (extract_lets -underBinder +onlyGivenNames x; refine keeps_fact (P := P) (v := x) ?_ ?_; rotate_left; clear_value x; revert x; intro _ _; rotate_left; unfold x; clear x)
    | (extract_lets -underBinder +onlyGivenNames x; clear_value x; revert x; intro _)
    | split
    | with_reducible first | refine keeps_pair (by with_reducible assumption) ?_ | refine keeps_triple (by with_reducible assumption) ?_ | refine keeps_pairL (by with_reducible assumption) ?_

theorem domainStopDone_keeps (A : Allows P m) (h : m &&& 14661696816 = 14661696816) :
    ∀ x0 s, P s → P (domainStopDone x0 s) := by
  have A := A.mono h
  clear h
  have kAsActor := asActor_keeps A rfl
  have kCtlAbort := ctlAbort_keeps A rfl
  have kSliceStops := sliceStops_keeps A rfl
  have kCtlFinish := ctlFinish_keeps A rfl
  have kStopCommit := stopCommit_keeps A rfl
  have kBeginInit := beginInit_keeps A rfl
  have kEnterQuar := enterQuar_keeps A rfl
  intro x0 s  hs
  unfold domainStopDone
  repeat' first
    | with_reducible first
        | assumption | refine kAsActor _ _ _ ?_ ?_ | refine kCtlAbort _ _ _  ?_ | refine kSliceStops _ _  ?_
        | refine kCtlFinish _ _ _ _  ?_ | refine kStopCommit _ _  ?_ | refine kBeginInit _ _ _ _  ?_
        | refine kEnterQuar _ _ _ _  ?_
    | (extract_lets -underBinder +onlyGivenNames x; refine keeps_fact (P := P) (v := x) ?_ ?_; rotate_left; clear_value x; revert x; intro _ _; rotate_left; unfold x; clear x)
    | (extract_lets -underBinder +onlyGivenNames x; clear_value x; revert x; intro _)
    | intro _
    | split
    | with_reducible first | refine keeps_pair (by with_reducible assumption) ?_ | refine keeps_triple (by with_reducible assumption) ?_ | refine keeps_pairL (by with_reducible assumption) ?_

theorem copyPipe_keeps (A : Allows P m) (h : m &&& 32768 = 32768) :
    ∀ x0 x1 s, P s → P (copyPipe x0 x1 s) := by
  have A := A.mono h
  clear h
  have kModCls := modCls_keeps A rfl
  intro x0 x1 s  hs
  unfold copyPipe
  repeat' first
    | with_reducible first
        | assumption | refine kModCls _ _  ?_ | refine foldl_keeps _ _ (fun _ _ _ => ?_) _ ?_
    | (extract_lets -underBinder +onlyGivenNames x; refine keeps_fact (P := P) (v := x) ?_ ?_; rotate_left; clear_value x; revert x; intro _ _; rotate_left; unfold x; clear x)
    | (extract_lets -underBinder +onlyGivenNames x; clear_value x; revert x; intro _)
    | intro _

theorem finishInit_keeps (A : Allows P m) (h : m &&& 14629738800 = 14629738800) :
    ∀ x0 s, P s → P (finishInit x0 s) := by
  have A := A.mono h
  clear h
  have kModDomain := modDomain_keeps A rfl
  have kDomEvent := domEvent_keeps A rfl
  have kClearCounters := clearCounters_keeps A rfl
  have kCtlFinish := ctlFinish_keeps A rfl
  intro x0 s  hs
  unfold finishInit
  repeat' first
    | with_reducible first
        | assumption | refine kModDomain _ _ _  ?_ | refine kDomEvent _ _ _ _  ?_ | refine kClearCounters _ _  ?_
        | refine kCtlFinish _ _ _ _  ?_
    | (extract_lets -underBinder +onlyGivenNames x; refine keeps_fact (P := P) (v := x) ?_ ?_; rotate_left; clear_value x; revert x; intro _ _; rotate_left; unfold x; clear x)
    | (extract_lets -underBinder +onlyGivenNames x; clear_value x; revert x; intro _)
    | intro _
    | split
    | with_reducible first | refine keeps_pair (by with_reducible assumption) ?_ | refine keeps_triple (by with_reducible assumption) ?_ | refine keeps_pairL (by with_reducible assumption) ?_

theorem takeHalves_keeps (A : Allows P m) (h : m &&& 131072 = 131072) :
    ∀ x0 s, P s → P (takeHalves x0 s) := by
  have A := A.mono h
  clear h
  have kModSlice := modSlice_keeps A rfl
  have kResendHalf := resendHalf_keeps A rfl
  intro x0 s  hs
  unfold takeHalves
  repeat' first
    | with_reducible first
        | assumption | refine kModSlice _ _ _  ?_ | refine kResendHalf _ _  ?_
    | (extract_lets -underBinder +onlyGivenNames x; refine keeps_fact (P := P) (v := x) ?_ ?_; rotate_left; clear_value x; revert x; intro _ _; rotate_left; unfold x; clear x)
    | (extract_lets -underBinder +onlyGivenNames x; clear_value x; revert x; intro _)
    | intro _
    | split

theorem initPassed_keeps (A : Allows P m) (h : m &&& 14648777008 = 14648777008) :
    ∀ x0 s, P s → P (initPassed x0 s) := by
  have A := A.mono h
  clear h
  have kFinishInit := finishInit_keeps A rfl
  have kModEgs := modEgs_keeps A rfl
  have kCopyPipe := copyPipe_keeps A rfl
  have kModSlice := modSlice_keeps A rfl
  have kTakeHalves := takeHalves_keeps A rfl
  have kLoadImage := loadImage_keeps A rfl
  have kCheckServed := checkServed_keeps A rfl
  intro x0 s  hs
  unfold initPassed
  repeat' first
    | with_reducible first
        | assumption | refine kFinishInit _ _  ?_ | refine kModEgs _ _  ?_ | refine kCopyPipe _ _ _  ?_
        | refine kModSlice _ _ _  ?_ | refine kTakeHalves _ _  ?_ | refine kLoadImage _ _ _  ?_
        | refine kCheckServed _ _  ?_
    | (extract_lets -underBinder +onlyGivenNames x; refine keeps_fact (P := P) (v := x) ?_ ?_; rotate_left; clear_value x; revert x; intro _ _; rotate_left; unfold x; clear x)
    | (extract_lets -underBinder +onlyGivenNames x; clear_value x; revert x; intro _)
    | intro _
    | split
    | with_reducible first | refine keeps_pair (by with_reducible assumption) ?_ | refine keeps_triple (by with_reducible assumption) ?_ | refine keeps_pairL (by with_reducible assumption) ?_

theorem domainInitDone_keeps (A : Allows P m) (h : m &&& 14648777008 = 14648777008) :
    ∀ x0 x1 s, P s → P (domainInitDone x0 x1 s) := by
  have A := A.mono h
  clear h
  have kAsActor := asActor_keeps A rfl
  have kInitPassed := initPassed_keeps A rfl
  have kModDomain := modDomain_keeps A rfl
  have kDomEvent := domEvent_keeps A rfl
  have kCntInc := cntInc_keeps A rfl
  have kCtlFinish := ctlFinish_keeps A rfl
  intro x0 x1 s  hs
  unfold domainInitDone
  repeat' first
    | with_reducible first
        | assumption | refine kAsActor _ _ _ ?_ ?_ | refine kInitPassed _ _  ?_ | refine kModDomain _ _ _  ?_
        | refine kDomEvent _ _ _ _  ?_ | refine kCntInc _ _ _ _  ?_ | refine kCtlFinish _ _ _ _  ?_
    | (extract_lets -underBinder +onlyGivenNames x; refine keeps_fact (P := P) (v := x) ?_ ?_; rotate_left; clear_value x; revert x; intro _ _; rotate_left; unfold x; clear x)
    | (extract_lets -underBinder +onlyGivenNames x; have h := fun a => x a; clear h; unfold x; clear x)
    | (extract_lets -underBinder +onlyGivenNames x; clear_value x; revert x; intro _)
    | intro _
    | split
    | with_reducible first | refine keeps_pair (by with_reducible assumption) ?_ | refine keeps_triple (by with_reducible assumption) ?_ | refine keeps_pairL (by with_reducible assumption) ?_
    | dsimp -zeta only

theorem ownerSwitchRow_keeps (A : Allows P m) (h : m &&& 14636170544 = 14636170544) :
    ∀ x0 s, P s → P (ownerSwitchRow x0 s) := by
  have A := A.mono h
  clear h
  have kOwnerSwitch := ownerSwitch_keeps A rfl
  have kFinishInit := finishInit_keeps A rfl
  intro x0 s  hs
  unfold ownerSwitchRow
  repeat' first
    | with_reducible first
        | assumption | refine kOwnerSwitch _ _  ?_ | refine kFinishInit _ _  ?_
    | (extract_lets -underBinder +onlyGivenNames x; refine keeps_fact (P := P) (v := x) ?_ ?_; rotate_left; clear_value x; revert x; intro _ _; rotate_left; unfold x; clear x)
    | (extract_lets -underBinder +onlyGivenNames x; clear_value x; revert x; intro _)
    | split

theorem faultEffects_keeps (A : Allows P m) (h : m &&& 10400283952 = 10400283952) :
    ∀ x0 s, P s → P (faultEffects x0 s) := by
  have A := A.mono h
  clear h
  have kDiscardFromOctet := discardFromOctet_keeps A rfl
  have kOctetDown := octetDown_keeps A rfl
  have kDiscardFromPipe := discardFromPipe_keeps A rfl
  have kClearPipe := clearPipe_keeps A rfl
  have kDropPipeFrames := dropPipeFrames_keeps A rfl
  have kLoseSlice := loseSlice_keeps A rfl
  have kClearCluster := clearCluster_keeps A rfl
  have kFaultCluster := faultCluster_keeps A rfl
  intro x0 s  hs
  unfold faultEffects
  repeat' first
    | with_reducible first
        | assumption | refine kDiscardFromOctet _ _  ?_ | refine kOctetDown _ _  ?_
        | refine kDiscardFromPipe _ _  ?_ | refine kClearPipe _ _  ?_ | refine kDropPipeFrames _ _  ?_
        | refine kLoseSlice _ _  ?_ | refine kClearCluster _ _  ?_ | refine kFaultCluster _ _  ?_
        | refine each_keeps _ _ (fun _ _ _ => ?_) _ ?_
    | (extract_lets -underBinder +onlyGivenNames x; refine keeps_fact (P := P) (v := x) ?_ ?_; rotate_left; clear_value x; revert x; intro _ _; rotate_left; unfold x; clear x)
    | (extract_lets -underBinder +onlyGivenNames x; clear_value x; revert x; intro _)
    | split
    | with_reducible first | refine keeps_pair (by with_reducible assumption) ?_ | refine keeps_triple (by with_reducible assumption) ?_ | refine keeps_pairL (by with_reducible assumption) ?_

theorem domainFault_keeps (A : Allows P m) (h : m &&& 14695251248 = 14695251248) :
    ∀ x0 x1 s, P s → P (domainFault x0 x1 s) := by
  have A := A.mono h
  clear h
  have kCntInc := cntInc_keeps A rfl
  have kFaultEffects := faultEffects_keeps A rfl
  have kDomEvent := domEvent_keeps A rfl
  have kEnterQuar := enterQuar_keeps A rfl
  have kRolloutPast := rolloutPast_keeps A rfl
  have kCheckServed := checkServed_keeps A rfl
  have kCtlFinish := ctlFinish_keeps A rfl
  intro x0 x1 s  hs
  unfold domainFault
  repeat' first
    | with_reducible first
        | assumption | refine kCntInc _ _ _ _  ?_ | refine kFaultEffects _ _  ?_ | refine kDomEvent _ _ _ _  ?_
        | refine kEnterQuar _ _ _ _  ?_ | refine kRolloutPast _ _  ?_ | refine kCheckServed _ _  ?_
        | refine kCtlFinish _ _ _ _  ?_
    | (extract_lets -underBinder +onlyGivenNames x; refine keeps_fact (P := P) (v := x) ?_ ?_; rotate_left; clear_value x; revert x; intro _ _; rotate_left; unfold x; clear x)
    | (extract_lets -underBinder +onlyGivenNames x; clear_value x; revert x; intro _)
    | split
    | with_reducible first | refine keeps_pair (by with_reducible assumption) ?_ | refine keeps_triple (by with_reducible assumption) ?_ | refine keeps_pairL (by with_reducible assumption) ?_

theorem autoRestart_keeps (A : Allows P m) (h : m &&& 4294969344 = 4294969344) :
    ∀ x0 s, P s → P (autoRestart x0 s) := by
  have A := A.mono h
  clear h
  have kCntInc := cntInc_keeps A rfl
  have kBeginInit := beginInit_keeps A rfl
  have kModDomain := modDomain_keeps A rfl
  intro x0 s  hs
  unfold autoRestart
  repeat' first
    | with_reducible first
        | assumption | refine kCntInc _ _ _ _  ?_ | refine kBeginInit _ _ _ _  ?_ | refine kModDomain _ _ _  ?_
    | (extract_lets -underBinder +onlyGivenNames x; refine keeps_fact (P := P) (v := x) ?_ ?_; rotate_left; clear_value x; revert x; intro _ _; rotate_left; unfold x; clear x)
    | (extract_lets -underBinder +onlyGivenNames x; clear_value x; revert x; intro _)
    | intro _
    | split
    | with_reducible first | refine keeps_pair (by with_reducible assumption) ?_ | refine keeps_triple (by with_reducible assumption) ?_ | refine keeps_pairL (by with_reducible assumption) ?_

theorem execOwnerSwitch_keeps (A : Allows P m) (h : m &&& 14636170544 = 14636170544) :
    ∀ x0 s, P s → ∀ t, execOwnerSwitch x0 s = .next t → P t := by
  have A := A.mono h
  clear h
  have kOwnerSwitchRow := ownerSwitchRow_keeps A rfl
  intro x0 s  hs
  intro t e
  cases e
  repeat' first
    | with_reducible first
        | assumption | refine kOwnerSwitchRow _ _  ?_ | refine each_keeps _ _ (fun _ _ _ => ?_) _ ?_
        | refine foldl_keeps _ _ (fun _ _ _ => ?_) _ ?_
    | (extract_lets -underBinder +onlyGivenNames x; refine keeps_fact (P := P) (v := x) ?_ ?_; rotate_left; clear_value x; revert x; intro _ _; rotate_left; unfold x; clear x)
    | (extract_lets -underBinder +onlyGivenNames x; refine keeps_fact2 (P := P) (v := x) ?_ ?_; rotate_left; clear_value x; revert x; intro _ _; rotate_left; unfold x; clear x)
    | (extract_lets -underBinder +onlyGivenNames x; have h := fun a => x a; clear h; unfold x; clear x)
    | (extract_lets -underBinder +onlyGivenNames x; clear_value x; revert x; intro _)
    | intro _
    | split
    | with_reducible first | refine keeps_pair (by with_reducible assumption) ?_ | refine keeps_triple (by with_reducible assumption) ?_ | refine keeps_pairL (by with_reducible assumption) ?_

theorem execDomainCtlQuery_keeps (A : Allows P m) (h : m &&& 6416 = 6416) :
    ∀ x0 s, P s → ∀ t, execDomainCtlQuery x0 s = .next t → P t := by
  have A := A.mono h
  clear h
  have kCommand := command_keeps A rfl
  have kRunCtlQuery := runCtlQuery_keeps A rfl
  intro x0 s  hs
  intro t e
  cases e
  repeat' first
    | with_reducible first
        | assumption | refine kCommand _ _ _ ?_ ?_ | refine kRunCtlQuery _ _ _  ?_
    | (extract_lets -underBinder +onlyGivenNames x; refine keeps_fact (P := P) (v := x) ?_ ?_; rotate_left; clear_value x; revert x; intro _ _; rotate_left; unfold x; clear x)
    | (extract_lets -underBinder +onlyGivenNames x; clear_value x; revert x; intro _)
    | intro _
    | split
    | with_reducible first | refine keeps_pair (by with_reducible assumption) ?_ | refine keeps_triple (by with_reducible assumption) ?_ | refine keeps_pairL (by with_reducible assumption) ?_

theorem execDomainCtlOff_keeps (A : Allows P m) (h : m &&& 14686796080 = 14686796080) :
    ∀ x0 s, P s → ∀ t, execDomainCtlOff x0 s = .next t → P t := by
  have A := A.mono h
  clear h
  have kCommand := command_keeps A rfl
  have kRunCtlOff := runCtlOff_keeps A rfl
  intro x0 s  hs
  intro t e
  cases e
  repeat' first
    | with_reducible first
        | assumption | refine kCommand _ _ _ ?_ ?_ | refine kRunCtlOff _ _ _  ?_
    | (extract_lets -underBinder +onlyGivenNames x; refine keeps_fact (P := P) (v := x) ?_ ?_; rotate_left; clear_value x; revert x; intro _ _; rotate_left; unfold x; clear x)
    | (extract_lets -underBinder +onlyGivenNames x; clear_value x; revert x; intro _)
    | intro _
    | split
    | with_reducible first | refine keeps_pair (by with_reducible assumption) ?_ | refine keeps_triple (by with_reducible assumption) ?_ | refine keeps_pairL (by with_reducible assumption) ?_

theorem execDomainCtlOn_keeps (A : Allows P m) (h : m &&& 14629738800 = 14629738800) :
    ∀ x0 s, P s → ∀ t, execDomainCtlOn x0 s = .next t → P t := by
  have A := A.mono h
  clear h
  have kCommand := command_keeps A rfl
  have kRunCtlOn := runCtlOn_keeps A rfl
  intro x0 s  hs
  intro t e
  cases e
  repeat' first
    | with_reducible first
        | assumption | refine kCommand _ _ _ ?_ ?_ | refine kRunCtlOn _ _ _  ?_
    | (extract_lets -underBinder +onlyGivenNames x; refine keeps_fact (P := P) (v := x) ?_ ?_; rotate_left; clear_value x; revert x; intro _ _; rotate_left; unfold x; clear x)
    | (extract_lets -underBinder +onlyGivenNames x; clear_value x; revert x; intro _)
    | intro _
    | split
    | with_reducible first | refine keeps_pair (by with_reducible assumption) ?_ | refine keeps_triple (by with_reducible assumption) ?_ | refine keeps_pairL (by with_reducible assumption) ?_

theorem execDomainCtlReinit_keeps (A : Allows P m) (h : m &&& 4294973712 = 4294973712) :
    ∀ x0 x1 s, P s → ∀ t, execDomainCtlReinit x0 x1 s = .next t → P t := by
  have A := A.mono h
  clear h
  have kCommand := command_keeps A rfl
  have kRunCtlReinit := runCtlReinit_keeps A rfl
  intro x0 x1 s  hs
  intro t e
  cases e
  repeat' first
    | with_reducible first
        | assumption | refine kCommand _ _ _ ?_ ?_ | refine kRunCtlReinit _ _ _ _  ?_
    | (extract_lets -underBinder +onlyGivenNames x; refine keeps_fact (P := P) (v := x) ?_ ?_; rotate_left; clear_value x; revert x; intro _ _; rotate_left; unfold x; clear x)
    | (extract_lets -underBinder +onlyGivenNames x; clear_value x; revert x; intro _)
    | intro _
    | split
    | with_reducible first | refine keeps_pair (by with_reducible assumption) ?_ | refine keeps_triple (by with_reducible assumption) ?_ | refine keeps_pairL (by with_reducible assumption) ?_

theorem execDomainCtlRestart_keeps (A : Allows P m) (h : m &&& 14686796080 = 14686796080) :
    ∀ x0 x1 s, P s → ∀ t, execDomainCtlRestart x0 x1 s = .next t → P t := by
  have A := A.mono h
  clear h
  have kCommand := command_keeps A rfl
  have kRunCtlRestart := runCtlRestart_keeps A rfl
  intro x0 x1 s  hs
  intro t e
  cases e
  repeat' first
    | with_reducible first
        | assumption | refine kCommand _ _ _ ?_ ?_ | refine kRunCtlRestart _ _ _ _  ?_
    | (extract_lets -underBinder +onlyGivenNames x; refine keeps_fact (P := P) (v := x) ?_ ?_; rotate_left; clear_value x; revert x; intro _ _; rotate_left; unfold x; clear x)
    | (extract_lets -underBinder +onlyGivenNames x; clear_value x; revert x; intro _)
    | intro _
    | split
    | with_reducible first | refine keeps_pair (by with_reducible assumption) ?_ | refine keeps_triple (by with_reducible assumption) ?_ | refine keeps_pairL (by with_reducible assumption) ?_

theorem execDomainStopDone_keeps (A : Allows P m) (h : m &&& 14661696816 = 14661696816) :
    ∀ x0 s, P s → ∀ t, execDomainStopDone x0 s = .next t → P t := by
  have A := A.mono h
  clear h
  have kDomainStopDone := domainStopDone_keeps A rfl
  intro x0 s  hs
  intro t e
  cases e
  repeat' first
    | with_reducible first
        | assumption | refine kDomainStopDone _ _  ?_
    | (extract_lets -underBinder +onlyGivenNames x; refine keeps_fact (P := P) (v := x) ?_ ?_; rotate_left; clear_value x; revert x; intro _ _; rotate_left; unfold x; clear x)
    | (extract_lets -underBinder +onlyGivenNames x; clear_value x; revert x; intro _)
    | intro _
    | split
    | with_reducible first | refine keeps_pair (by with_reducible assumption) ?_ | refine keeps_triple (by with_reducible assumption) ?_ | refine keeps_pairL (by with_reducible assumption) ?_

theorem execDomainInitDone_keeps (A : Allows P m) (h : m &&& 14648777008 = 14648777008) :
    ∀ x0 x1 s, P s → ∀ t, execDomainInitDone x0 x1 s = .next t → P t := by
  have A := A.mono h
  clear h
  have kDomainInitDone := domainInitDone_keeps A rfl
  intro x0 x1 s  hs
  intro t e
  cases e
  repeat' first
    | with_reducible first
        | assumption | refine kDomainInitDone _ _ _  ?_
    | (extract_lets -underBinder +onlyGivenNames x; refine keeps_fact (P := P) (v := x) ?_ ?_; rotate_left; clear_value x; revert x; intro _ _; rotate_left; unfold x; clear x)
    | (extract_lets -underBinder +onlyGivenNames x; clear_value x; revert x; intro _)
    | intro _
    | split
    | with_reducible first | refine keeps_pair (by with_reducible assumption) ?_ | refine keeps_triple (by with_reducible assumption) ?_ | refine keeps_pairL (by with_reducible assumption) ?_

theorem execDomainFault_keeps (A : Allows P m) (h : m &&& 14695251248 = 14695251248) :
    ∀ x0 x1 s, P s → ∀ t, execDomainFault x0 x1 s = .next t → P t := by
  have A := A.mono h
  clear h
  have kDomainFault := domainFault_keeps A rfl
  intro x0 x1 s  hs
  intro t e
  cases e
  repeat' first
    | with_reducible first
        | assumption | refine kDomainFault _ _ _  ?_
    | (extract_lets -underBinder +onlyGivenNames x; refine keeps_fact (P := P) (v := x) ?_ ?_; rotate_left; clear_value x; revert x; intro _ _; rotate_left; unfold x; clear x)
    | (extract_lets -underBinder +onlyGivenNames x; clear_value x; revert x; intro _)
    | intro _
    | split
    | with_reducible first | refine keeps_pair (by with_reducible assumption) ?_ | refine keeps_triple (by with_reducible assumption) ?_ | refine keeps_pairL (by with_reducible assumption) ?_

theorem execAutoRestart_keeps (A : Allows P m) (h : m &&& 4294969344 = 4294969344) :
    ∀ x0 s, P s → ∀ t, execAutoRestart x0 s = .next t → P t := by
  have A := A.mono h
  clear h
  have kAutoRestart := autoRestart_keeps A rfl
  intro x0 s  hs
  intro t e
  cases e
  repeat' first
    | with_reducible first
        | assumption | refine kAutoRestart _ _  ?_
    | (extract_lets -underBinder +onlyGivenNames x; refine keeps_fact (P := P) (v := x) ?_ ?_; rotate_left; clear_value x; revert x; intro _ _; rotate_left; unfold x; clear x)
    | (extract_lets -underBinder +onlyGivenNames x; clear_value x; revert x; intro _)
    | intro _
    | split
    | with_reducible first | refine keeps_pair (by with_reducible assumption) ?_ | refine keeps_triple (by with_reducible assumption) ?_ | refine keeps_pairL (by with_reducible assumption) ?_

end Sys2Proof.Laws
end

