-- ==== Sys2Proof/Laws/FlowCmd.lean ====
section
/-! SUPPORT. What each operation of Machine/FlowCmd.lean can change (Laws/Keeps.lean). -/

namespace Sys2Proof.Laws

open Sys2Proof.Machine

variable {P : State → Prop} {m : Nat}

theorem goAccept_keeps (A : Allows P m) (h : m &&& 4096 = 4096) :
    ∀ x0 x1 x2 s, P s → P (goAccept x0 x1 x2 s).2 := by
  have A := A.mono h
  clear h
  have kModInflight := modInflight_keeps A rfl
  intro x0 x1 x2 s  hs
  unfold goAccept
  repeat' first
    | with_reducible first
        | assumption | refine kModInflight _ _ _  ?_
    | intro _

theorem flowInsert_keeps (A : Allows P m) (h : m &&& 10433772840 = 10433772840) :
    ∀ x0 x1 s, P s → P (flowInsert x0 x1 s).2 := by
  have A := A.mono h
  clear h
  have kTakeRecord := takeRecord_keeps A rfl
  have kUseFree := useFree_keeps A rfl
  have kWriteRecord := writeRecord_keeps A rfl
  have kSetRec := setRec_keeps A rfl
  have kGoAccept := goAccept_keeps A rfl
  have kBump := bump_keeps A rfl
  intro x0 x1 s  hs
  unfold flowInsert
  repeat' first
    | with_reducible first
        | assumption | refine kTakeRecord _ _ _ _ _ _  ?_ | refine kUseFree _  ?_ | refine kWriteRecord _ _ _  ?_
        | refine kSetRec _ _ _ _ _  ?_ | refine kGoAccept _ _ _ _  ?_ | refine kBump _ _ _ _ _  ?_
    | (extract_lets -underBinder +onlyGivenNames x; refine keeps_fact (P := P) (v := x) ?_ ?_; rotate_left; clear_value x; revert x; intro _ _; rotate_left; unfold x; clear x)
    | (extract_lets -underBinder +onlyGivenNames x; clear_value x; revert x; intro _)
    | split
    | with_reducible first | refine keeps_pair (by with_reducible assumption) ?_ | refine keeps_triple (by with_reducible assumption) ?_ | refine keeps_pairL (by with_reducible assumption) ?_

theorem flowUpdate_keeps (A : Allows P m) (h : m &&& 136192 = 136192) :
    ∀ x0 x1 x2 x3 s, P s → P (flowUpdate x0 x1 x2 x3 s).2 := by
  have A := A.mono h
  clear h
  have kSetRec := setRec_keeps A rfl
  have kModHot := modHot_keeps A rfl
  have kGoAccept := goAccept_keeps A rfl
  have kBump := bump_keeps A rfl
  intro x0 x1 x2 x3 s  hs
  unfold flowUpdate
  repeat' first
    | with_reducible first
        | assumption | refine kSetRec _ _ _ _ _  ?_ | refine kModHot _ _ _ _  ?_ | refine kGoAccept _ _ _ _  ?_
        | refine kBump _ _ _ _ _  ?_
    | (extract_lets -underBinder +onlyGivenNames x; refine keeps_fact (P := P) (v := x) ?_ ?_; rotate_left; clear_value x; revert x; intro _ _; rotate_left; unfold x; clear x)
    | (extract_lets -underBinder +onlyGivenNames x; clear_value x; revert x; intro _)
    | intro _
    | split

theorem runFlowWrite_keeps (A : Allows P m) (h : m &&& 10433772840 = 10433772840) :
    ∀ x0 x1 s, P s → P (runFlowWrite x0 x1 s).2 := by
  have A := A.mono h
  clear h
  have kDataCheck := dataCheck_keeps A rfl
  have kFlowUpdate := flowUpdate_keeps A rfl
  have kFlowInsert := flowInsert_keeps A rfl
  intro x0 x1 s  hs
  unfold runFlowWrite
  repeat' first
    | with_reducible first
        | assumption | refine kDataCheck _ _ _ _ _  ?_ | refine kFlowUpdate _ _ _ _ _  ?_
        | refine kFlowInsert _ _ _  ?_
    | (extract_lets -underBinder +onlyGivenNames x; refine keeps_fact (P := P) (v := x) ?_ ?_; rotate_left; clear_value x; revert x; intro _ _; rotate_left; unfold x; clear x)
    | (extract_lets -underBinder +onlyGivenNames x; clear_value x; revert x; intro _)
    | split
    | with_reducible first | refine keeps_pair (by with_reducible assumption) ?_ | refine keeps_triple (by with_reducible assumption) ?_ | refine keeps_pairL (by with_reducible assumption) ?_

theorem flowDelete_keeps (A : Allows P m) (h : m &&& 10366663968 = 10366663968) :
    ∀ x0 x1 x2 s, P s → P (flowDelete x0 x1 x2 s).2 := by
  have A := A.mono h
  clear h
  have kModInflight := modInflight_keeps A rfl
  have kEndRecord := endRecord_keeps A rfl
  have kModSlice := modSlice_keeps A rfl
  have kFreeRecord := freeRecord_keeps A rfl
  intro x0 x1 x2 s  hs
  unfold flowDelete
  repeat' first
    | with_reducible first
        | assumption | refine kModInflight _ _ _  ?_ | refine kEndRecord _ _ _ _ _ _  ?_
        | refine kModSlice _ _ _  ?_ | refine kFreeRecord _ _ _  ?_
    | (extract_lets -underBinder +onlyGivenNames x; refine keeps_fact (P := P) (v := x) ?_ ?_; rotate_left; clear_value x; revert x; intro _ _; rotate_left; unfold x; clear x)
    | (extract_lets -underBinder +onlyGivenNames x; clear_value x; revert x; intro _)
    | intro _
    | split

theorem runFlowDelete_keeps (A : Allows P m) (h : m &&& 10366663968 = 10366663968) :
    ∀ x0 x1 s, P s → P (runFlowDelete x0 x1 s).2 := by
  have A := A.mono h
  clear h
  have kDataCheck := dataCheck_keeps A rfl
  have kFlowDelete := flowDelete_keeps A rfl
  intro x0 x1 s  hs
  unfold runFlowDelete
  repeat' first
    | with_reducible first
        | assumption | refine kDataCheck _ _ _ _ _  ?_ | refine kFlowDelete _ _ _ _  ?_
    | (extract_lets -underBinder +onlyGivenNames x; refine keeps_fact (P := P) (v := x) ?_ ?_; rotate_left; clear_value x; revert x; intro _ _; rotate_left; unfold x; clear x)
    | (extract_lets -underBinder +onlyGivenNames x; clear_value x; revert x; intro _)
    | split
    | with_reducible first | refine keeps_pair (by with_reducible assumption) ?_ | refine keeps_triple (by with_reducible assumption) ?_ | refine keeps_pairL (by with_reducible assumption) ?_

theorem runFlowRead_keeps (A : Allows P m) (h : m &&& 10334771488 = 10334771488) :
    ∀ x0 x1 s, P s → P (runFlowRead x0 x1 s).2 := by
  have A := A.mono h
  clear h
  have kKeyCheck := keyCheck_keeps A rfl
  have kDataCheck := dataCheck_keeps A rfl
  have kHostWr := hostWr_keeps A rfl
  intro x0 x1 s  hs
  unfold runFlowRead
  repeat' first
    | with_reducible first
        | assumption | refine kKeyCheck _ _ ?_ ?_ | refine kDataCheck _ _ _ _ _  ?_ | refine kHostWr _ _ _  ?_
        | refine each_keeps _ _ (fun _ _ _ => ?_) _ ?_ | refine foldl_keeps _ _ (fun _ _ _ => ?_) _ ?_
    | (extract_lets -underBinder +onlyGivenNames x; refine keeps_fact (P := P) (v := x) ?_ ?_; rotate_left; clear_value x; revert x; intro _ _; rotate_left; unfold x; clear x)
    | (extract_lets -underBinder +onlyGivenNames x; refine keeps_fact2 (P := P) (v := x) ?_ ?_; rotate_left; clear_value x; revert x; intro _ _; rotate_left; unfold x; clear x)
    | (extract_lets -underBinder +onlyGivenNames x; have h := fun a => x a; clear h; unfold x; clear x)
    | (extract_lets -underBinder +onlyGivenNames x; clear_value x; revert x; intro _)
    | intro _
    | split
    | with_reducible first | refine keeps_pair (by with_reducible assumption) ?_ | refine keeps_triple (by with_reducible assumption) ?_ | refine keeps_pairL (by with_reducible assumption) ?_

theorem runG3FlowDelete_keeps (A : Allows P m) (h : m &&& 10366663968 = 10366663968) :
    ∀ x0 x1 s, P s → P (runG3FlowDelete x0 x1 s).2 := by
  have A := A.mono h
  clear h
  have kFlowDelete := flowDelete_keeps A rfl
  intro x0 x1 s  hs
  unfold runG3FlowDelete
  repeat' first
    | with_reducible first
        | assumption | refine kFlowDelete _ _ _ _  ?_
    | split
    | with_reducible first | refine keeps_pair (by with_reducible assumption) ?_ | refine keeps_triple (by with_reducible assumption) ?_ | refine keeps_pairL (by with_reducible assumption) ?_

theorem execFlowWrite_keeps (A : Allows P m) (h : m &&& 10433772856 = 10433772856) :
    ∀ x0 x1 s, P s → ∀ t, execFlowWrite x0 x1 s = .next t → P t := by
  have A := A.mono h
  clear h
  have kCommand := command_keeps A rfl
  have kRunFlowWrite := runFlowWrite_keeps A rfl
  intro x0 x1 s  hs
  intro t e
  cases e
  repeat' first
    | with_reducible first
        | assumption | refine kCommand _ _ _ ?_ ?_ | refine kRunFlowWrite _ _ _  ?_
        | refine each_keeps _ _ (fun _ _ _ => ?_) _ ?_ | refine foldl_keeps _ _ (fun _ _ _ => ?_) _ ?_
    | (extract_lets -underBinder +onlyGivenNames x; refine keeps_fact (P := P) (v := x) ?_ ?_; rotate_left; clear_value x; revert x; intro _ _; rotate_left; unfold x; clear x)
    | (extract_lets -underBinder +onlyGivenNames x; refine keeps_fact2 (P := P) (v := x) ?_ ?_; rotate_left; clear_value x; revert x; intro _ _; rotate_left; unfold x; clear x)
    | (extract_lets -underBinder +onlyGivenNames x; have h := fun a => x a; clear h; unfold x; clear x)
    | (extract_lets -underBinder +onlyGivenNames x; clear_value x; revert x; intro _)
    | intro _
    | split
    | with_reducible first | refine keeps_pair (by with_reducible assumption) ?_ | refine keeps_triple (by with_reducible assumption) ?_ | refine keeps_pairL (by with_reducible assumption) ?_

theorem execFlowDelete_keeps (A : Allows P m) (h : m &&& 10366663984 = 10366663984) :
    ∀ x0 x1 s, P s → ∀ t, execFlowDelete x0 x1 s = .next t → P t := by
  have A := A.mono h
  clear h
  have kCommand := command_keeps A rfl
  have kRunFlowDelete := runFlowDelete_keeps A rfl
  intro x0 x1 s  hs
  intro t e
  cases e
  repeat' first
    | with_reducible first
        | assumption | refine kCommand _ _ _ ?_ ?_ | refine kRunFlowDelete _ _ _  ?_
    | (extract_lets -underBinder +onlyGivenNames x; refine keeps_fact (P := P) (v := x) ?_ ?_; rotate_left; clear_value x; revert x; intro _ _; rotate_left; unfold x; clear x)
    | (extract_lets -underBinder +onlyGivenNames x; clear_value x; revert x; intro _)
    | intro _
    | split
    | with_reducible first | refine keeps_pair (by with_reducible assumption) ?_ | refine keeps_triple (by with_reducible assumption) ?_ | refine keeps_pairL (by with_reducible assumption) ?_

theorem execFlowRead_keeps (A : Allows P m) (h : m &&& 10334771504 = 10334771504) :
    ∀ x0 x1 s, P s → ∀ t, execFlowRead x0 x1 s = .next t → P t := by
  have A := A.mono h
  clear h
  have kCommand := command_keeps A rfl
  have kRunFlowRead := runFlowRead_keeps A rfl
  intro x0 x1 s  hs
  intro t e
  cases e
  repeat' first
    | with_reducible first
        | assumption | refine kCommand _ _ _ ?_ ?_ | refine kRunFlowRead _ _ _  ?_
    | (extract_lets -underBinder +onlyGivenNames x; refine keeps_fact (P := P) (v := x) ?_ ?_; rotate_left; clear_value x; revert x; intro _ _; rotate_left; unfold x; clear x)
    | (extract_lets -underBinder +onlyGivenNames x; clear_value x; revert x; intro _)
    | intro _
    | split
    | with_reducible first | refine keeps_pair (by with_reducible assumption) ?_ | refine keeps_triple (by with_reducible assumption) ?_ | refine keeps_pairL (by with_reducible assumption) ?_

theorem execG3FlowDelete_keeps (A : Allows P m) (h : m &&& 10366663984 = 10366663984) :
    ∀ x0 x1 s, P s → ∀ t, execG3FlowDelete x0 x1 s = .next t → P t := by
  have A := A.mono h
  clear h
  have kCommand := command_keeps A rfl
  have kRunG3FlowDelete := runG3FlowDelete_keeps A rfl
  intro x0 x1 s  hs
  intro t e
  cases e
  repeat' first
    | with_reducible first
        | assumption | refine kCommand _ _ _ ?_ ?_ | refine kRunG3FlowDelete _ _ _  ?_
    | (extract_lets -underBinder +onlyGivenNames x; refine keeps_fact (P := P) (v := x) ?_ ?_; rotate_left; clear_value x; revert x; intro _ _; rotate_left; unfold x; clear x)
    | (extract_lets -underBinder +onlyGivenNames x; clear_value x; revert x; intro _)
    | intro _
    | split
    | with_reducible first | refine keeps_pair (by with_reducible assumption) ?_ | refine keeps_triple (by with_reducible assumption) ?_ | refine keeps_pairL (by with_reducible assumption) ?_

end Sys2Proof.Laws
end

