-- ==== Sys2Proof/Laws/Regs.lean ====
section
/-! SUPPORT. What each operation of Machine/Regs.lean can change (Laws/Keeps.lean). -/

namespace Sys2Proof.Laws

open Sys2Proof.Machine

variable {P : State → Prop} {m : Nat}

theorem putReg_keeps (A : Allows P m) (h : m &&& 64 = 64) :
    ∀ x0 x1 s, P s → P (putReg x0 x1 s) := by
  have A := A.mono h
  clear h
  intro x0 x1 s  hs
  unfold putReg
  repeat' first
    | with_reducible first
        | assumption
    | with_reducible first | refine A.regs rfl _ _ ?_

theorem countIgnored_keeps (A : Allows P m) (h : m &&& 6144 = 6144) :
    ∀ x0 s, P s → P (countIgnored x0 s) := by
  have A := A.mono h
  clear h
  have kModHif := modHif_keeps A rfl
  have kCntInc := cntInc_keeps A rfl
  intro x0 s  hs
  unfold countIgnored
  repeat' first
    | with_reducible first
        | assumption | refine kModHif _ _  ?_ | refine kCntInc _ _ _ _  ?_
    | (extract_lets -underBinder +onlyGivenNames x; refine keeps_fact (P := P) (v := x) ?_ ?_; rotate_left; clear_value x; revert x; intro _ _; rotate_left; unfold x; clear x)
    | (extract_lets -underBinder +onlyGivenNames x; clear_value x; revert x; intro _)
    | intro _
    | split
    | with_reducible first | refine keeps_pair (by with_reducible assumption) ?_ | refine keeps_triple (by with_reducible assumption) ?_ | refine keeps_pairL (by with_reducible assumption) ?_

theorem storeWrite_keeps (A : Allows P m) (h : m &&& 64 = 64) :
    ∀ x0 x1 s, P s → P (storeWrite x0 x1 s) := by
  have A := A.mono h
  clear h
  have kPutReg := putReg_keeps A rfl
  intro x0 x1 s  hs
  unfold storeWrite
  repeat' first
    | with_reducible first
        | assumption | refine kPutReg _ _ _  ?_
    | (extract_lets -underBinder +onlyGivenNames x; refine keeps_fact (P := P) (v := x) ?_ ?_; rotate_left; clear_value x; revert x; intro _ _; rotate_left; unfold x; clear x)
    | (extract_lets -underBinder +onlyGivenNames x; clear_value x; revert x; intro _)
    | split

theorem plainWrite_keeps (A : Allows P m) (h : m &&& 6208 = 6208) :
    ∀ x0 x1 x2 s, P s → P (plainWrite x0 x1 x2 s) := by
  have A := A.mono h
  clear h
  have kStoreWrite := storeWrite_keeps A rfl
  have kCountIgnored := countIgnored_keeps A rfl
  intro x0 x1 x2 s  hs
  unfold plainWrite
  repeat' first
    | with_reducible first
        | assumption | refine kStoreWrite _ _ _  ?_ | refine kCountIgnored _ _  ?_
    | (extract_lets -underBinder +onlyGivenNames x; refine keeps_fact (P := P) (v := x) ?_ ?_; rotate_left; clear_value x; revert x; intro _ _; rotate_left; unfold x; clear x)
    | (extract_lets -underBinder +onlyGivenNames x; clear_value x; revert x; intro _)
    | split

end Sys2Proof.Laws
end

