-- ==== Sys2Proof/Laws/Hbm.lean ====
section
/-! SUPPORT. What each operation of Machine/Hbm.lean can change (Laws/Keeps.lean). -/

namespace Sys2Proof.Laws

open Sys2Proof.Machine

variable {P : State → Prop} {m : Nat}

theorem writeTomb_keeps (A : Allows P m) (h : m &&& 67109888 = 67109888) :
    ∀ x0 s, P s → P (writeTomb x0 s) := by
  have A := A.mono h
  clear h
  have kBlockWrite := blockWrite_keeps A rfl
  intro x0 s  hs
  unfold writeTomb
  repeat' first
    | with_reducible first
        | assumption | refine kBlockWrite _ _ _  ?_

theorem tombstone_keeps (A : Allows P m) (h : m &&& 10433772832 = 10433772832) :
    ∀ x0 s, P s → P (tombstone x0 s) := by
  have A := A.mono h
  clear h
  have kWriteTomb := writeTomb_keeps A rfl
  have kRetryRebinds := retryRebinds_keeps A rfl
  have kCancelRecord := cancelRecord_keeps A rfl
  have kReleasePort := releasePort_keeps A rfl
  have kModSlice := modSlice_keeps A rfl
  have kSendInval := sendInval_keeps A rfl
  have kAnswerCode := answerCode_keeps A rfl
  have kDropPulls := dropPulls_keeps A rfl
  have kCntInc := cntInc_keeps A rfl
  have kSetEnd := setEnd_keeps A rfl
  have kDropHot := dropHot_keeps A rfl
  intro x0 s  hs
  unfold tombstone
  repeat' first
    | with_reducible first
        | assumption | refine kWriteTomb _ _  ?_ | refine kRetryRebinds _ _ _  ?_
        | refine kCancelRecord _ _ _  ?_ | refine kReleasePort _ _  ?_ | refine kModSlice _ _ _  ?_
        | refine kSendInval _ _ _ _ _  ?_ | refine kAnswerCode _ _ _ _  ?_ | refine kDropPulls _ _ _  ?_
        | refine kCntInc _ _ _ _  ?_ | refine kSetEnd _ _ _  ?_ | refine kDropHot _ _ _  ?_
        | refine each_keeps _ _ (fun _ _ _ => ?_) _ ?_
    | (extract_lets -underBinder +onlyGivenNames x; refine keeps_fact (P := P) (v := x) ?_ ?_; rotate_left; clear_value x; revert x; intro _ _; rotate_left; unfold x; clear x)
    | (extract_lets -underBinder +onlyGivenNames x; clear_value x; revert x; intro _)
    | intro _
    | split
    | with_reducible first | refine keeps_pair (by with_reducible assumption) ?_ | refine keeps_triple (by with_reducible assumption) ?_ | refine keeps_pairL (by with_reducible assumption) ?_ | refine A.flow rfl _ _ ?_

theorem lostBlock_keeps (A : Allows P m) (h : m &&& 10433772832 = 10433772832) :
    ∀ x0 s, P s → P (lostBlock x0 s) := by
  have A := A.mono h
  clear h
  have kRaise := raise_keeps A rfl
  have kTombstone := tombstone_keeps A rfl
  have kBlockWrite := blockWrite_keeps A rfl
  have kPoisonBlock := poisonBlock_keeps A rfl
  intro x0 s  hs
  unfold lostBlock
  repeat' first
    | with_reducible first
        | assumption | refine kRaise _ _ _ _ _ _ _  ?_ | refine kTombstone _ _  ?_ | refine kBlockWrite _ _ _  ?_
        | refine kPoisonBlock _ _  ?_
    | (extract_lets -underBinder +onlyGivenNames x; refine keeps_fact (P := P) (v := x) ?_ ?_; rotate_left; clear_value x; revert x; intro _ _; rotate_left; unfold x; clear x)
    | (extract_lets -underBinder +onlyGivenNames x; clear_value x; revert x; intro _)
    | split

theorem saveMig_keeps (A : Allows P m) (h : m &&& 536870912 = 536870912) :
    ∀ s, P s → P (saveMig s) := by
  have A := A.mono h
  clear h
  have kModFlash := modFlash_keeps A rfl
  intro s  hs
  unfold saveMig
  repeat' first
    | with_reducible first
        | assumption | refine kModFlash _ _  ?_
    | intro _

theorem startMig_keeps (A : Allows P m) (h : m &&& 10401880352 = 10401880352) :
    ∀ x0 x1 x2 x3 s, P s → P (startMig x0 x1 x2 x3 s) := by
  have A := A.mono h
  clear h
  have kSetRank := setRank_keeps A rfl
  have kModHbm := modHbm_keeps A rfl
  have kGuardCheck := guardCheck_keeps A rfl
  have kRaise := raise_keeps A rfl
  have kSaveMig := saveMig_keeps A rfl
  intro x0 x1 x2 x3 s  hs
  unfold startMig
  repeat' first
    | with_reducible first
        | assumption | refine kSetRank _ _ _  ?_ | refine kModHbm _ _  ?_ | refine kGuardCheck _  ?_
        | refine kRaise _ _ _ _ _ _ _  ?_ | refine kSaveMig _  ?_
    | (extract_lets -underBinder +onlyGivenNames x; refine keeps_fact (P := P) (v := x) ?_ ?_; rotate_left; clear_value x; revert x; intro _ _; rotate_left; unfold x; clear x)
    | (extract_lets -underBinder +onlyGivenNames x; clear_value x; revert x; intro _)
    | intro _

theorem tryMigrate_keeps (A : Allows P m) (h : m &&& 10401880352 = 10401880352) :
    ∀ s, P s → P (tryMigrate s) := by
  have A := A.mono h
  clear h
  have kStartMig := startMig_keeps A rfl
  have kModHbm := modHbm_keeps A rfl
  intro s  hs
  unfold tryMigrate
  repeat' first
    | with_reducible first
        | assumption | refine kStartMig _ _ _ _ _  ?_ | refine kModHbm _ _  ?_
    | (extract_lets -underBinder +onlyGivenNames x; refine keeps_fact (P := P) (v := x) ?_ ?_; rotate_left; clear_value x; revert x; intro _ _; rotate_left; unfold x; clear x)
    | (extract_lets -underBinder +onlyGivenNames x; clear_value x; revert x; intro _)
    | intro _
    | split
    | with_reducible first | refine keeps_pair (by with_reducible assumption) ?_ | refine keeps_triple (by with_reducible assumption) ?_ | refine keeps_pairL (by with_reducible assumption) ?_

theorem wantMig_keeps (A : Allows P m) (h : m &&& 10401880352 = 10401880352) :
    ∀ x0 s, P s → P (wantMig x0 s) := by
  have A := A.mono h
  clear h
  have kTryMigrate := tryMigrate_keeps A rfl
  have kModHbm := modHbm_keeps A rfl
  intro x0 s  hs
  unfold wantMig
  repeat' first
    | with_reducible first
        | assumption | refine kTryMigrate _  ?_ | refine kModHbm _ _  ?_
    | intro _
    | split

theorem endMig_keeps (A : Allows P m) (h : m &&& 603979776 = 603979776) :
    ∀ x0 x1 x2 s, P s → P (endMig x0 x1 x2 s) := by
  have A := A.mono h
  clear h
  have kModStack := modStack_keeps A rfl
  have kSaveMig := saveMig_keeps A rfl
  have kModHbm := modHbm_keeps A rfl
  intro x0 x1 x2 s  hs
  unfold endMig
  repeat' first
    | with_reducible first
        | assumption | refine kModStack _ _ _  ?_ | refine kSaveMig _  ?_ | refine kModHbm _ _  ?_
    | (extract_lets -underBinder +onlyGivenNames x; refine keeps_fact (P := P) (v := x) ?_ ?_; rotate_left; clear_value x; revert x; intro _ _; rotate_left; unfold x; clear x)
    | (extract_lets -underBinder +onlyGivenNames x; clear_value x; revert x; intro _)
    | intro _

theorem migFail_keeps (A : Allows P m) (h : m &&& 10401880352 = 10401880352) :
    ∀ x0 s, P s → P (migFail x0 s) := by
  have A := A.mono h
  clear h
  have kEndMig := endMig_keeps A rfl
  have kSetRank := setRank_keeps A rfl
  have kRaise := raise_keeps A rfl
  intro x0 s  hs
  unfold migFail
  repeat' first
    | with_reducible first
        | assumption | refine kEndMig _ _ _ _  ?_ | refine kSetRank _ _ _  ?_ | refine kRaise _ _ _ _ _ _ _  ?_
    | (extract_lets -underBinder +onlyGivenNames x; refine keeps_fact (P := P) (v := x) ?_ ?_; rotate_left; clear_value x; revert x; intro _ _; rotate_left; unfold x; clear x)
    | (extract_lets -underBinder +onlyGivenNames x; clear_value x; revert x; intro _)
    | split

theorem failRank_keeps (A : Allows P m) (h : m &&& 10401880352 = 10401880352) :
    ∀ x0 s, P s → P (failRank x0 s) := by
  have A := A.mono h
  clear h
  have kRaise := raise_keeps A rfl
  have kGuardCheck := guardCheck_keeps A rfl
  have kSetRank := setRank_keeps A rfl
  have kStartMig := startMig_keeps A rfl
  have kModHbm := modHbm_keeps A rfl
  have kTryMigrate := tryMigrate_keeps A rfl
  have kMigFail := migFail_keeps A rfl
  intro x0 s  hs
  unfold failRank
  repeat' first
    | with_reducible first
        | assumption | refine kRaise _ _ _ _ _ _ _  ?_ | refine kGuardCheck _  ?_ | refine kSetRank _ _ _  ?_
        | refine kStartMig _ _ _ _ _  ?_ | refine kModHbm _ _  ?_ | refine kTryMigrate _  ?_
        | refine kMigFail _ _  ?_ | refine each_keeps _ _ (fun _ _ _ => ?_) _ ?_
        | refine foldl_keeps _ _ (fun _ _ _ => ?_) _ ?_
    | (extract_lets -underBinder +onlyGivenNames x; refine keeps_fact (P := P) (v := x) ?_ ?_; rotate_left; clear_value x; revert x; intro _ _; rotate_left; unfold x; clear x)
    | (extract_lets -underBinder +onlyGivenNames x; refine keeps_fact2 (P := P) (v := x) ?_ ?_; rotate_left; clear_value x; revert x; intro _ _; rotate_left; unfold x; clear x)
    | (extract_lets -underBinder +onlyGivenNames x; have h := fun a => x a; clear h; unfold x; clear x)
    | (extract_lets -underBinder +onlyGivenNames x; clear_value x; revert x; intro _)
    | intro _
    | split
    | with_reducible first | refine keeps_pair (by with_reducible assumption) ?_ | refine keeps_triple (by with_reducible assumption) ?_ | refine keeps_pairL (by with_reducible assumption) ?_

theorem ceCount_keeps (A : Allows P m) (h : m &&& 10401880352 = 10401880352) :
    ∀ x0 s, P s → P (ceCount x0 s) := by
  have A := A.mono h
  clear h
  have kModStack := modStack_keeps A rfl
  have kCntInc := cntInc_keeps A rfl
  have kRaise := raise_keeps A rfl
  have kWantMig := wantMig_keeps A rfl
  intro x0 s  hs
  unfold ceCount
  repeat' first
    | with_reducible first
        | assumption | refine kModStack _ _ _  ?_ | refine kCntInc _ _ _ _  ?_ | refine kRaise _ _ _ _ _ _ _  ?_
        | refine kWantMig _ _  ?_
    | (extract_lets -underBinder +onlyGivenNames x; refine keeps_fact (P := P) (v := x) ?_ ?_; rotate_left; clear_value x; revert x; intro _ _; rotate_left; unfold x; clear x)
    | (extract_lets -underBinder +onlyGivenNames x; clear_value x; revert x; intro _)
    | intro _
    | split
    | with_reducible first | refine keeps_pair (by with_reducible assumption) ?_ | refine keeps_triple (by with_reducible assumption) ?_ | refine keeps_pairL (by with_reducible assumption) ?_

theorem parityError_keeps (A : Allows P m) (h : m &&& 10401880352 = 10401880352) :
    ∀ x0 s, P s → P (parityError x0 s).2 := by
  have A := A.mono h
  clear h
  have kModStack := modStack_keeps A rfl
  have kCntInc := cntInc_keeps A rfl
  have kFailRank := failRank_keeps A rfl
  intro x0 s  hs
  unfold parityError
  repeat' first
    | with_reducible first
        | assumption | refine kModStack _ _ _  ?_ | refine kCntInc _ _ _ _  ?_ | refine kFailRank _ _  ?_
    | (extract_lets -underBinder +onlyGivenNames x; refine keeps_fact (P := P) (v := x) ?_ ?_; rotate_left; clear_value x; revert x; intro _ _; rotate_left; unfold x; clear x)
    | (extract_lets -underBinder +onlyGivenNames x; clear_value x; revert x; intro _)
    | intro _
    | split

theorem readFinds_keeps (A : Allows P m) (h : m &&& 10433772832 = 10433772832) :
    ∀ x0 x1 x2 s, P s → P (readFinds x0 x1 x2 s).2 := by
  have A := A.mono h
  clear h
  have kParityError := parityError_keeps A rfl
  have kModStack := modStack_keeps A rfl
  have kCeCount := ceCount_keeps A rfl
  have kFailRank := failRank_keeps A rfl
  have kCntInc := cntInc_keeps A rfl
  have kMirrorRepair := mirrorRepair_keeps A rfl
  have kLostBlock := lostBlock_keeps A rfl
  intro x0 x1 x2 s  hs
  unfold readFinds
  repeat' first
    | with_reducible first
        | assumption | refine kParityError _ _  ?_ | refine kModStack _ _ _  ?_ | refine kCeCount _ _  ?_
        | refine kFailRank _ _  ?_ | refine kCntInc _ _ _ _  ?_ | refine kMirrorRepair _ _ _  ?_
        | refine kLostBlock _ _  ?_
    | (extract_lets -underBinder +onlyGivenNames x; refine keeps_fact (P := P) (v := x) ?_ ?_; rotate_left; clear_value x; revert x; intro _ _; rotate_left; unfold x; clear x)
    | (extract_lets -underBinder +onlyGivenNames x; clear_value x; revert x; intro _)
    | intro _
    | split
    | with_reducible first | refine keeps_pair (by with_reducible assumption) ?_ | refine keeps_triple (by with_reducible assumption) ?_ | refine keeps_pairL (by with_reducible assumption) ?_

theorem portNext_keeps (A : Allows P m) (h : m &&& 67108864 = 67108864) :
    ∀ x0 s, P s → P (portNext x0 s).2 := by
  have A := A.mono h
  clear h
  have kModStack := modStack_keeps A rfl
  intro x0 s  hs
  unfold portNext
  repeat' first
    | with_reducible first
        | assumption | refine kModStack _ _ _  ?_ | refine foldl_keeps _ _ (fun _ _ _ => ?_) _ ?_
    | (extract_lets -underBinder +onlyGivenNames x; refine keeps_fact (P := P) (v := x) ?_ ?_; rotate_left; clear_value x; revert x; intro _ _; rotate_left; unfold x; clear x)
    | (extract_lets -underBinder +onlyGivenNames x; have h := fun a => x a; clear h; unfold x; clear x)
    | (extract_lets -underBinder +onlyGivenNames x; clear_value x; revert x; intro _)
    | intro _
    | split

theorem popPort_keeps (A : Allows P m) (h : m &&& 67110912 = 67110912) :
    ∀ x0 x1 s, P s → P (popPort x0 x1 s) := by
  have A := A.mono h
  clear h
  have kPanicCheck := panicCheck_keeps A rfl
  have kModStack := modStack_keeps A rfl
  intro x0 x1 s  hs
  unfold popPort
  repeat' first
    | with_reducible first
        | assumption | refine kPanicCheck _ _  ?_ | refine kModStack _ _ _  ?_
    | intro _

theorem hbmAccess_keeps (A : Allows P m) (h : m &&& 10433772840 = 10433772840) :
    ∀ x0 x1 s, P s → P (hbmAccess x0 x1 s) := by
  have A := A.mono h
  clear h
  have kCntInc := cntInc_keeps A rfl
  have kModStack := modStack_keeps A rfl
  have kPortNext := portNext_keeps A rfl
  have kPopPort := popPort_keeps A rfl
  have kUseFree := useFree_keeps A rfl
  have kReadFinds := readFinds_keeps A rfl
  intro x0 x1 s  hs
  unfold hbmAccess
  repeat' first
    | with_reducible first
        | assumption | refine kCntInc _ _ _ _  ?_ | refine kModStack _ _ _  ?_ | refine kPortNext _ _  ?_
        | refine kPopPort _ _ _  ?_ | refine kUseFree _  ?_ | refine kReadFinds _ _ _ _  ?_
    | (extract_lets -underBinder +onlyGivenNames x; refine keeps_fact (P := P) (v := x) ?_ ?_; rotate_left; clear_value x; revert x; intro _ _; rotate_left; unfold x; clear x)
    | (extract_lets -underBinder +onlyGivenNames x; clear_value x; revert x; intro _)
    | intro _
    | split
    | with_reducible first | refine keeps_pair (by with_reducible assumption) ?_ | refine keeps_triple (by with_reducible assumption) ?_ | refine keeps_pairL (by with_reducible assumption) ?_

theorem hbmRefresh_keeps (A : Allows P m) (h : m &&& 67110912 = 67110912) :
    ∀ x0 x1 s, P s → P (hbmRefresh x0 x1 s) := by
  have A := A.mono h
  clear h
  have kModStack := modStack_keeps A rfl
  have kCntInc := cntInc_keeps A rfl
  have kCntAdd := cntAdd_keeps A rfl
  intro x0 x1 s  hs
  unfold hbmRefresh
  repeat' first
    | with_reducible first
        | assumption | refine kModStack _ _ _  ?_ | refine kCntInc _ _ _ _  ?_ | refine kCntAdd _ _ _ _ _  ?_
    | (extract_lets -underBinder +onlyGivenNames x; refine keeps_fact (P := P) (v := x) ?_ ?_; rotate_left; clear_value x; revert x; intro _ _; rotate_left; unfold x; clear x)
    | (extract_lets -underBinder +onlyGivenNames x; clear_value x; revert x; intro _)
    | intro _
    | split

theorem hbmTempRead_keeps (A : Allows P m) (h : m &&& 14696847648 = 14696847648) :
    ∀ x0 x1 s, P s → P (hbmTempRead x0 x1 s) := by
  have A := A.mono h
  clear h
  have kModStack := modStack_keeps A rfl
  have kCountFast := countFast_keeps A rfl
  have kRaise := raise_keeps A rfl
  have kGuardCheck := guardCheck_keeps A rfl
  have kThermCheck := thermCheck_keeps A rfl
  intro x0 x1 s  hs
  unfold hbmTempRead
  repeat' first
    | with_reducible first
        | assumption | refine kModStack _ _ _  ?_ | refine kCountFast _ _  ?_ | refine kRaise _ _ _ _ _ _ _  ?_
        | refine kGuardCheck _  ?_ | refine kThermCheck _ _ _ _  ?_
    | (extract_lets -underBinder +onlyGivenNames x; refine keeps_fact (P := P) (v := x) ?_ ?_; rotate_left; clear_value x; revert x; intro _ _; rotate_left; unfold x; clear x)
    | (extract_lets -underBinder +onlyGivenNames x; clear_value x; revert x; intro _)
    | intro _
    | split
    | with_reducible first | refine keeps_pair (by with_reducible assumption) ?_ | refine keeps_triple (by with_reducible assumption) ?_ | refine keeps_pairL (by with_reducible assumption) ?_

theorem patrolScrub_keeps (A : Allows P m) (h : m &&& 10433772832 = 10433772832) :
    ∀ x0 x1 x2 s, P s → P (patrolScrub x0 x1 x2 s) := by
  have A := A.mono h
  clear h
  have kReadFinds := readFinds_keeps A rfl
  have kModStack := modStack_keeps A rfl
  have kCntInc := cntInc_keeps A rfl
  intro x0 x1 x2 s  hs
  unfold patrolScrub
  repeat' first
    | with_reducible first
        | assumption | refine kReadFinds _ _ _ _  ?_ | refine kModStack _ _ _  ?_ | refine kCntInc _ _ _ _  ?_
    | (extract_lets -underBinder +onlyGivenNames x; refine keeps_fact (P := P) (v := x) ?_ ?_; rotate_left; clear_value x; revert x; intro _ _; rotate_left; unfold x; clear x)
    | (extract_lets -underBinder +onlyGivenNames x; clear_value x; revert x; intro _)
    | intro _
    | split
    | with_reducible first | refine keeps_pair (by with_reducible assumption) ?_ | refine keeps_triple (by with_reducible assumption) ?_ | refine keeps_pairL (by with_reducible assumption) ?_

theorem rankProbe_keeps (A : Allows P m) (h : m &&& 10433772832 = 10433772832) :
    ∀ x0 x1 x2 s, P s → P (rankProbe x0 x1 x2 s) := by
  have A := A.mono h
  clear h
  have kReadFinds := readFinds_keeps A rfl
  have kCntInc := cntInc_keeps A rfl
  have kModStack := modStack_keeps A rfl
  intro x0 x1 x2 s  hs
  unfold rankProbe
  repeat' first
    | with_reducible first
        | assumption | refine kReadFinds _ _ _ _  ?_ | refine kCntInc _ _ _ _  ?_ | refine kModStack _ _ _  ?_
    | (extract_lets -underBinder +onlyGivenNames x; refine keeps_fact (P := P) (v := x) ?_ ?_; rotate_left; clear_value x; revert x; intro _ _; rotate_left; unfold x; clear x)
    | (extract_lets -underBinder +onlyGivenNames x; clear_value x; revert x; intro _)
    | intro _
    | split
    | with_reducible first | refine keeps_pair (by with_reducible assumption) ?_ | refine keeps_triple (by with_reducible assumption) ?_ | refine keeps_pairL (by with_reducible assumption) ?_

theorem badBlock_keeps (A : Allows P m) (h : m &&& 10433772832 = 10433772832) :
    ∀ x0 x1 s, P s → P (badBlock x0 x1 s) := by
  have A := A.mono h
  clear h
  have kFailRank := failRank_keeps A rfl
  have kCntInc := cntInc_keeps A rfl
  have kMirrorRepair := mirrorRepair_keeps A rfl
  have kLostBlock := lostBlock_keeps A rfl
  have kPoisonBlock := poisonBlock_keeps A rfl
  intro x0 x1 s  hs
  unfold badBlock
  repeat' first
    | with_reducible first
        | assumption | refine kFailRank _ _  ?_ | refine kCntInc _ _ _ _  ?_ | refine kMirrorRepair _ _ _  ?_
        | refine kLostBlock _ _  ?_ | refine kPoisonBlock _ _  ?_
    | (extract_lets -underBinder +onlyGivenNames x; refine keeps_fact (P := P) (v := x) ?_ ?_; rotate_left; clear_value x; revert x; intro _ _; rotate_left; unfold x; clear x)
    | (extract_lets -underBinder +onlyGivenNames x; clear_value x; revert x; intro _)
    | split

theorem migrationChunk_keeps (A : Allows P m) (h : m &&& 10433772832 = 10433772832) :
    ∀ x0 x1 s, P s → P (migrationChunk x0 x1 s) := by
  have A := A.mono h
  clear h
  have kFailRank := failRank_keeps A rfl
  have kBadBlock := badBlock_keeps A rfl
  have kCntInc := cntInc_keeps A rfl
  have kSaveMig := saveMig_keeps A rfl
  have kModHbm := modHbm_keeps A rfl
  have kEndMig := endMig_keeps A rfl
  have kSetRank := setRank_keeps A rfl
  have kGuardCheck := guardCheck_keeps A rfl
  have kRaise := raise_keeps A rfl
  have kSetMap := setMap_keeps A rfl
  have kTryMigrate := tryMigrate_keeps A rfl
  intro x0 x1 s  hs
  unfold migrationChunk
  repeat' first
    | with_reducible first
        | assumption | refine kFailRank _ _  ?_ | refine kBadBlock _ _ _  ?_ | refine kCntInc _ _ _ _  ?_
        | refine kSaveMig _  ?_ | refine kModHbm _ _  ?_ | refine kEndMig _ _ _ _  ?_ | refine kSetRank _ _ _  ?_
        | refine kGuardCheck _  ?_ | refine kRaise _ _ _ _ _ _ _  ?_ | refine kSetMap _ _ _  ?_
        | refine kTryMigrate _  ?_ | refine each_keeps _ _ (fun _ _ _ => ?_) _ ?_
    | (extract_lets -underBinder +onlyGivenNames x; refine keeps_fact (P := P) (v := x) ?_ ?_; rotate_left; clear_value x; revert x; intro _ _; rotate_left; unfold x; clear x)
    | (extract_lets -underBinder +onlyGivenNames x; have h := fun a => x a; clear h; unfold x; clear x)
    | (extract_lets -underBinder +onlyGivenNames x; clear_value x; revert x; intro _)
    | intro _
    | split
    | with_reducible first | refine keeps_pair (by with_reducible assumption) ?_ | refine keeps_triple (by with_reducible assumption) ?_ | refine keeps_pairL (by with_reducible assumption) ?_

theorem rankPrepareEnd_keeps (A : Allows P m) (h : m &&& 10401880352 = 10401880352) :
    ∀ x0 x1 x2 s, P s → P (rankPrepareEnd x0 x1 x2 s) := by
  have A := A.mono h
  clear h
  have kGuardCheck := guardCheck_keeps A rfl
  have kTryMigrate := tryMigrate_keeps A rfl
  have kRaise := raise_keeps A rfl
  have kSetRank := setRank_keeps A rfl
  have kFailRank := failRank_keeps A rfl
  have kCntInc := cntInc_keeps A rfl
  intro x0 x1 x2 s  hs
  unfold rankPrepareEnd
  repeat' first
    | with_reducible first
        | assumption | refine kGuardCheck _  ?_ | refine kTryMigrate _  ?_ | refine kRaise _ _ _ _ _ _ _  ?_
        | refine kSetRank _ _ _  ?_ | refine kFailRank _ _  ?_ | refine kCntInc _ _ _ _  ?_
    | (extract_lets -underBinder +onlyGivenNames x; refine keeps_fact (P := P) (v := x) ?_ ?_; rotate_left; clear_value x; revert x; intro _ _; rotate_left; unfold x; clear x)
    | (extract_lets -underBinder +onlyGivenNames x; clear_value x; revert x; intro _)
    | split

theorem migCtrlWrite_keeps (A : Allows P m) (h : m &&& 10401880416 = 10401880416) :
    ∀ x0 x1 s, P s → P (migCtrlWrite x0 x1 s) := by
  have A := A.mono h
  clear h
  have kPutReg := putReg_keeps A rfl
  have kWantMig := wantMig_keeps A rfl
  have kModHbm := modHbm_keeps A rfl
  intro x0 x1 s  hs
  unfold migCtrlWrite
  repeat' first
    | with_reducible first
        | assumption | refine kPutReg _ _ _  ?_ | refine kWantMig _ _  ?_ | refine kModHbm _ _  ?_
    | (extract_lets -underBinder +onlyGivenNames x; refine keeps_fact (P := P) (v := x) ?_ ?_; rotate_left; clear_value x; revert x; intro _ _; rotate_left; unfold x; clear x)
    | (extract_lets -underBinder +onlyGivenNames x; clear_value x; revert x; intro _)
    | intro _
    | split
    | with_reducible first | refine keeps_pair (by with_reducible assumption) ?_ | refine keeps_triple (by with_reducible assumption) ?_ | refine keeps_pairL (by with_reducible assumption) ?_

theorem rankCtrlWrite_keeps (A : Allows P m) (h : m &&& 603979776 = 603979776) :
    ∀ x0 x1 s, P s → P (rankCtrlWrite x0 x1 s) := by
  have A := A.mono h
  clear h
  have kSetRank := setRank_keeps A rfl
  intro x0 x1 s  hs
  unfold rankCtrlWrite
  repeat' first
    | with_reducible first
        | assumption | refine kSetRank _ _ _  ?_ | refine each_keeps _ _ (fun _ _ _ => ?_) _ ?_
    | intro _
    | split

theorem execHbmAccess_keeps (A : Allows P m) (h : m &&& 10433772840 = 10433772840) :
    ∀ x0 x1 s, P s → ∀ t, execHbmAccess x0 x1 s = .next t → P t := by
  have A := A.mono h
  clear h
  have kHbmAccess := hbmAccess_keeps A rfl
  intro x0 x1 s  hs
  intro t e
  cases e
  repeat' first
    | with_reducible first
        | assumption | refine kHbmAccess _ _ _  ?_ | refine each_keeps _ _ (fun _ _ _ => ?_) _ ?_
        | refine foldl_keeps _ _ (fun _ _ _ => ?_) _ ?_
    | (extract_lets -underBinder +onlyGivenNames x; refine keeps_fact (P := P) (v := x) ?_ ?_; rotate_left; clear_value x; revert x; intro _ _; rotate_left; unfold x; clear x)
    | (extract_lets -underBinder +onlyGivenNames x; refine keeps_fact2 (P := P) (v := x) ?_ ?_; rotate_left; clear_value x; revert x; intro _ _; rotate_left; unfold x; clear x)
    | (extract_lets -underBinder +onlyGivenNames x; have h := fun a => x a; clear h; unfold x; clear x)
    | (extract_lets -underBinder +onlyGivenNames x; clear_value x; revert x; intro _)
    | intro _
    | split
    | with_reducible first | refine keeps_pair (by with_reducible assumption) ?_ | refine keeps_triple (by with_reducible assumption) ?_ | refine keeps_pairL (by with_reducible assumption) ?_

theorem execHbmRefresh_keeps (A : Allows P m) (h : m &&& 67110912 = 67110912) :
    ∀ x0 x1 s, P s → ∀ t, execHbmRefresh x0 x1 s = .next t → P t := by
  have A := A.mono h
  clear h
  have kHbmRefresh := hbmRefresh_keeps A rfl
  intro x0 x1 s  hs
  intro t e
  cases e
  repeat' first
    | with_reducible first
        | assumption | refine kHbmRefresh _ _ _  ?_
    | (extract_lets -underBinder +onlyGivenNames x; refine keeps_fact (P := P) (v := x) ?_ ?_; rotate_left; clear_value x; revert x; intro _ _; rotate_left; unfold x; clear x)
    | (extract_lets -underBinder +onlyGivenNames x; clear_value x; revert x; intro _)
    | intro _
    | split
    | with_reducible first | refine keeps_pair (by with_reducible assumption) ?_ | refine keeps_triple (by with_reducible assumption) ?_ | refine keeps_pairL (by with_reducible assumption) ?_

theorem execHbmTempRead_keeps (A : Allows P m) (h : m &&& 14696847648 = 14696847648) :
    ∀ x0 x1 s, P s → ∀ t, execHbmTempRead x0 x1 s = .next t → P t := by
  have A := A.mono h
  clear h
  have kHbmTempRead := hbmTempRead_keeps A rfl
  intro x0 x1 s  hs
  intro t e
  cases e
  repeat' first
    | with_reducible first
        | assumption | refine kHbmTempRead _ _ _  ?_
    | (extract_lets -underBinder +onlyGivenNames x; refine keeps_fact (P := P) (v := x) ?_ ?_; rotate_left; clear_value x; revert x; intro _ _; rotate_left; unfold x; clear x)
    | (extract_lets -underBinder +onlyGivenNames x; clear_value x; revert x; intro _)
    | intro _
    | split
    | with_reducible first | refine keeps_pair (by with_reducible assumption) ?_ | refine keeps_triple (by with_reducible assumption) ?_ | refine keeps_pairL (by with_reducible assumption) ?_

theorem execPatrolScrub_keeps (A : Allows P m) (h : m &&& 10433772832 = 10433772832) :
    ∀ x0 x1 x2 s, P s → ∀ t, execPatrolScrub x0 x1 x2 s = .next t → P t := by
  have A := A.mono h
  clear h
  have kPatrolScrub := patrolScrub_keeps A rfl
  intro x0 x1 x2 s  hs
  intro t e
  cases e
  repeat' first
    | with_reducible first
        | assumption | refine kPatrolScrub _ _ _ _  ?_
    | (extract_lets -underBinder +onlyGivenNames x; refine keeps_fact (P := P) (v := x) ?_ ?_; rotate_left; clear_value x; revert x; intro _ _; rotate_left; unfold x; clear x)
    | (extract_lets -underBinder +onlyGivenNames x; clear_value x; revert x; intro _)
    | intro _
    | split
    | with_reducible first | refine keeps_pair (by with_reducible assumption) ?_ | refine keeps_triple (by with_reducible assumption) ?_ | refine keeps_pairL (by with_reducible assumption) ?_

theorem execRankProbe_keeps (A : Allows P m) (h : m &&& 10433772832 = 10433772832) :
    ∀ x0 x1 x2 s, P s → ∀ t, execRankProbe x0 x1 x2 s = .next t → P t := by
  have A := A.mono h
  clear h
  have kRankProbe := rankProbe_keeps A rfl
  intro x0 x1 x2 s  hs
  intro t e
  cases e
  repeat' first
    | with_reducible first
        | assumption | refine kRankProbe _ _ _ _  ?_
    | (extract_lets -underBinder +onlyGivenNames x; refine keeps_fact (P := P) (v := x) ?_ ?_; rotate_left; clear_value x; revert x; intro _ _; rotate_left; unfold x; clear x)
    | (extract_lets -underBinder +onlyGivenNames x; clear_value x; revert x; intro _)
    | intro _
    | split
    | with_reducible first | refine keeps_pair (by with_reducible assumption) ?_ | refine keeps_triple (by with_reducible assumption) ?_ | refine keeps_pairL (by with_reducible assumption) ?_

theorem execMigrationChunk_keeps (A : Allows P m) (h : m &&& 10433772832 = 10433772832) :
    ∀ x0 x1 s, P s → ∀ t, execMigrationChunk x0 x1 s = .next t → P t := by
  have A := A.mono h
  clear h
  have kMigrationChunk := migrationChunk_keeps A rfl
  intro x0 x1 s  hs
  intro t e
  cases e
  repeat' first
    | with_reducible first
        | assumption | refine kMigrationChunk _ _ _  ?_
    | (extract_lets -underBinder +onlyGivenNames x; refine keeps_fact (P := P) (v := x) ?_ ?_; rotate_left; clear_value x; revert x; intro _ _; rotate_left; unfold x; clear x)
    | (extract_lets -underBinder +onlyGivenNames x; clear_value x; revert x; intro _)
    | intro _
    | split
    | with_reducible first | refine keeps_pair (by with_reducible assumption) ?_ | refine keeps_triple (by with_reducible assumption) ?_ | refine keeps_pairL (by with_reducible assumption) ?_

theorem execRankPrepareEnd_keeps (A : Allows P m) (h : m &&& 10401880352 = 10401880352) :
    ∀ x0 x1 x2 s, P s → ∀ t, execRankPrepareEnd x0 x1 x2 s = .next t → P t := by
  have A := A.mono h
  clear h
  have kRankPrepareEnd := rankPrepareEnd_keeps A rfl
  intro x0 x1 x2 s  hs
  intro t e
  cases e
  repeat' first
    | with_reducible first
        | assumption | refine kRankPrepareEnd _ _ _ _  ?_
    | (extract_lets -underBinder +onlyGivenNames x; refine keeps_fact (P := P) (v := x) ?_ ?_; rotate_left; clear_value x; revert x; intro _ _; rotate_left; unfold x; clear x)
    | (extract_lets -underBinder +onlyGivenNames x; clear_value x; revert x; intro _)
    | intro _
    | split
    | with_reducible first | refine keeps_pair (by with_reducible assumption) ?_ | refine keeps_triple (by with_reducible assumption) ?_ | refine keeps_pairL (by with_reducible assumption) ?_

end Sys2Proof.Laws
end

