-- ==== Sys2Proof/Laws/RingSet.lean ====
section
/-! SUPPORT. What each operation of Machine/RingSet.lean can change (Laws/Keeps.lean). -/

namespace Sys2Proof.Laws

open Sys2Proof.Machine

variable {P : State → Prop} {m : Nat}

theorem dropRingPunts_keeps (A : Allows P m) (h : m &&& 10355751200 = 10355751200) :
    ∀ x0 x1 x2 s, P s → P (dropRingPunts x0 x1 x2 s) := by
  have A := A.mono h
  clear h
  have kPuntAbandon := puntAbandon_keeps A rfl
  have kHifCnt := hifCnt_keeps A rfl
  have kModPool := modPool_keeps A rfl
  intro x0 x1 x2 s  hs
  unfold dropRingPunts
  repeat' first
    | with_reducible first
        | assumption | refine kPuntAbandon _ _ _  ?_ | refine kHifCnt _ _ _  ?_ | refine kModPool _ _ _  ?_
        | refine each_keeps _ _ (fun _ _ _ => ?_) _ ?_
    | (extract_lets -underBinder +onlyGivenNames x; refine keeps_fact (P := P) (v := x) ?_ ?_; rotate_left; clear_value x; revert x; intro _ _; rotate_left; unfold x; clear x)
    | (extract_lets -underBinder +onlyGivenNames x; have h := fun a => x a; clear h; unfold x; clear x)
    | (extract_lets -underBinder +onlyGivenNames x; clear_value x; revert x; intro _)
    | intro _

theorem runRingQuery_keeps (A : Allows P m) (h : m &&& 0 = 0) :
    ∀ x0 x1 s, P s → P (runRingQuery x0 x1 s).2 := by
  have A := A.mono h
  clear h
  intro x0 x1 s  hs
  unfold runRingQuery
  repeat' first
    | with_reducible first
        | assumption
    | split

theorem ringStarts_keeps (A : Allows P m) (h : m &&& 10355751200 = 10355751200) :
    ∀ x0 s, P s → P (ringStarts x0 s) := by
  have A := A.mono h
  clear h
  have kPollRestart := pollRestart_keeps A rfl
  have kRefillCheck := refillCheck_keeps A rfl
  have kRoomIn := roomIn_keeps A rfl
  intro x0 s  hs
  unfold ringStarts
  repeat' first
    | with_reducible first
        | assumption | refine kPollRestart _ _  ?_ | refine kRefillCheck _ _  ?_ | refine kRoomIn _ _  ?_
    | (extract_lets -underBinder +onlyGivenNames x; refine keeps_fact (P := P) (v := x) ?_ ?_; rotate_left; clear_value x; revert x; intro _ _; rotate_left; unfold x; clear x)
    | (extract_lets -underBinder +onlyGivenNames x; clear_value x; revert x; intro _)
    | split

theorem runRingEnable_keeps (A : Allows P m) (h : m &&& 10355751200 = 10355751200) :
    ∀ x0 x1 s, P s → P (runRingEnable x0 x1 s).2 := by
  have A := A.mono h
  clear h
  have kDmaCheck := dmaCheck_keeps A rfl
  have kRingStarts := ringStarts_keeps A rfl
  have kModRing := modRing_keeps A rfl
  intro x0 x1 s  hs
  unfold runRingEnable
  repeat' first
    | with_reducible first
        | assumption | refine kDmaCheck _ _ _ _ _ _  ?_ | refine kRingStarts _ _  ?_ | refine kModRing _ _ _  ?_
    | (extract_lets -underBinder +onlyGivenNames x; refine keeps_fact (P := P) (v := x) ?_ ?_; rotate_left; clear_value x; revert x; intro _ _; rotate_left; unfold x; clear x)
    | (extract_lets -underBinder +onlyGivenNames x; clear_value x; revert x; intro _)
    | intro _
    | split
    | with_reducible first | refine keeps_pair (by with_reducible assumption) ?_ | refine keeps_triple (by with_reducible assumption) ?_ | refine keeps_pairL (by with_reducible assumption) ?_

theorem runRingDisable_keeps (A : Allows P m) (h : m &&& 10355751200 = 10355751200) :
    ∀ x0 x1 s, P s → P (runRingDisable x0 x1 s).2 := by
  have A := A.mono h
  clear h
  have kModRing := modRing_keeps A rfl
  have kRetryPunts := retryPunts_keeps A rfl
  have kDropRingPunts := dropRingPunts_keeps A rfl
  intro x0 x1 s  hs
  unfold runRingDisable
  repeat' first
    | with_reducible first
        | assumption | refine kModRing _ _ _  ?_ | refine kRetryPunts _  ?_ | refine kDropRingPunts _ _ _ _  ?_
    | (extract_lets -underBinder +onlyGivenNames x; refine keeps_fact (P := P) (v := x) ?_ ?_; rotate_left; clear_value x; revert x; intro _ _; rotate_left; unfold x; clear x)
    | (extract_lets -underBinder +onlyGivenNames x; clear_value x; revert x; intro _)
    | intro _
    | split

theorem runRingMove_keeps (A : Allows P m) (h : m &&& 4352 = 4352) :
    ∀ x0 x1 x2 x3 s, P s → P (runRingMove x0 x1 x2 x3 s).2 := by
  have A := A.mono h
  clear h
  have kModRing := modRing_keeps A rfl
  have kStatusWrite := statusWrite_keeps A rfl
  intro x0 x1 x2 x3 s  hs
  unfold runRingMove
  repeat' first
    | with_reducible first
        | assumption | refine kModRing _ _ _  ?_ | refine kStatusWrite _ _ _  ?_
    | (extract_lets -underBinder +onlyGivenNames x; refine keeps_fact (P := P) (v := x) ?_ ?_; rotate_left; clear_value x; revert x; intro _ _; rotate_left; unfold x; clear x)
    | (extract_lets -underBinder +onlyGivenNames x; clear_value x; revert x; intro _)
    | intro _
    | split

theorem runPoolQuery_keeps (A : Allows P m) (h : m &&& 0 = 0) :
    ∀ x0 x1 s, P s → P (runPoolQuery x0 x1 s).2 := by
  have A := A.mono h
  clear h
  intro x0 x1 s  hs
  unfold runPoolQuery
  repeat' first
    | with_reducible first
        | assumption
    | split

theorem runPoolFlush_keeps (A : Allows P m) (h : m &&& 10334771488 = 10334771488) :
    ∀ x0 x1 x2 s, P s → P (runPoolFlush x0 x1 x2 s).2 := by
  have A := A.mono h
  clear h
  have kDmaCheck := dmaCheck_keeps A rfl
  have kHostWr := hostWr_keeps A rfl
  have kModPool := modPool_keeps A rfl
  have kRefillCheck := refillCheck_keeps A rfl
  intro x0 x1 x2 s  hs
  unfold runPoolFlush
  repeat' first
    | with_reducible first
        | assumption | refine kDmaCheck _ _ _ _ _ _  ?_ | refine kHostWr _ _ _  ?_ | refine kModPool _ _ _  ?_
        | refine kRefillCheck _ _  ?_
    | (extract_lets -underBinder +onlyGivenNames x; refine keeps_fact (P := P) (v := x) ?_ ?_; rotate_left; clear_value x; revert x; intro _ _; rotate_left; unfold x; clear x)
    | (extract_lets -underBinder +onlyGivenNames x; clear_value x; revert x; intro _)
    | intro _
    | split
    | with_reducible first | refine keeps_pair (by with_reducible assumption) ?_ | refine keeps_triple (by with_reducible assumption) ?_ | refine keeps_pairL (by with_reducible assumption) ?_

theorem execRingSetQuery_keeps (A : Allows P m) (h : m &&& 6416 = 6416) :
    ∀ x0 x1 s, P s → ∀ t, execRingSetQuery x0 x1 s = .next t → P t := by
  have A := A.mono h
  clear h
  have kCommand := command_keeps A rfl
  have kRunRingQuery := runRingQuery_keeps A rfl
  intro x0 x1 s  hs
  intro t e
  cases e
  repeat' first
    | with_reducible first
        | assumption | refine kCommand _ _ _ ?_ ?_ | refine kRunRingQuery _ _ _  ?_
        | refine each_keeps _ _ (fun _ _ _ => ?_) _ ?_ | refine foldl_keeps _ _ (fun _ _ _ => ?_) _ ?_
    | (extract_lets -underBinder +onlyGivenNames x; refine keeps_fact (P := P) (v := x) ?_ ?_; rotate_left; clear_value x; revert x; intro _ _; rotate_left; unfold x; clear x)
    | (extract_lets -underBinder +onlyGivenNames x; refine keeps_fact2 (P := P) (v := x) ?_ ?_; rotate_left; clear_value x; revert x; intro _ _; rotate_left; unfold x; clear x)
    | (extract_lets -underBinder +onlyGivenNames x; have h := fun a => x a; clear h; unfold x; clear x)
    | (extract_lets -underBinder +onlyGivenNames x; clear_value x; revert x; intro _)
    | intro _
    | split
    | with_reducible first | refine keeps_pair (by with_reducible assumption) ?_ | refine keeps_triple (by with_reducible assumption) ?_ | refine keeps_pairL (by with_reducible assumption) ?_

theorem execRingSetEnable_keeps (A : Allows P m) (h : m &&& 10355751216 = 10355751216) :
    ∀ x0 x1 s, P s → ∀ t, execRingSetEnable x0 x1 s = .next t → P t := by
  have A := A.mono h
  clear h
  have kCommand := command_keeps A rfl
  have kRunRingEnable := runRingEnable_keeps A rfl
  intro x0 x1 s  hs
  intro t e
  cases e
  repeat' first
    | with_reducible first
        | assumption | refine kCommand _ _ _ ?_ ?_ | refine kRunRingEnable _ _ _  ?_
    | (extract_lets -underBinder +onlyGivenNames x; refine keeps_fact (P := P) (v := x) ?_ ?_; rotate_left; clear_value x; revert x; intro _ _; rotate_left; unfold x; clear x)
    | (extract_lets -underBinder +onlyGivenNames x; clear_value x; revert x; intro _)
    | intro _
    | split
    | with_reducible first | refine keeps_pair (by with_reducible assumption) ?_ | refine keeps_triple (by with_reducible assumption) ?_ | refine keeps_pairL (by with_reducible assumption) ?_

theorem execRingSetDisable_keeps (A : Allows P m) (h : m &&& 10355751216 = 10355751216) :
    ∀ x0 x1 s, P s → ∀ t, execRingSetDisable x0 x1 s = .next t → P t := by
  have A := A.mono h
  clear h
  have kCommand := command_keeps A rfl
  have kRunRingDisable := runRingDisable_keeps A rfl
  intro x0 x1 s  hs
  intro t e
  cases e
  repeat' first
    | with_reducible first
        | assumption | refine kCommand _ _ _ ?_ ?_ | refine kRunRingDisable _ _ _  ?_
    | (extract_lets -underBinder +onlyGivenNames x; refine keeps_fact (P := P) (v := x) ?_ ?_; rotate_left; clear_value x; revert x; intro _ _; rotate_left; unfold x; clear x)
    | (extract_lets -underBinder +onlyGivenNames x; clear_value x; revert x; intro _)
    | intro _
    | split
    | with_reducible first | refine keeps_pair (by with_reducible assumption) ?_ | refine keeps_triple (by with_reducible assumption) ?_ | refine keeps_pairL (by with_reducible assumption) ?_

theorem execRingSetMove_keeps (A : Allows P m) (h : m &&& 6416 = 6416) :
    ∀ x0 x1 x2 x3 s, P s → ∀ t, execRingSetMove x0 x1 x2 x3 s = .next t → P t := by
  have A := A.mono h
  clear h
  have kCommand := command_keeps A rfl
  have kRunRingMove := runRingMove_keeps A rfl
  intro x0 x1 x2 x3 s  hs
  intro t e
  cases e
  repeat' first
    | with_reducible first
        | assumption | refine kCommand _ _ _ ?_ ?_ | refine kRunRingMove _ _ _ _ _  ?_
    | (extract_lets -underBinder +onlyGivenNames x; refine keeps_fact (P := P) (v := x) ?_ ?_; rotate_left; clear_value x; revert x; intro _ _; rotate_left; unfold x; clear x)
    | (extract_lets -underBinder +onlyGivenNames x; clear_value x; revert x; intro _)
    | intro _
    | split
    | with_reducible first | refine keeps_pair (by with_reducible assumption) ?_ | refine keeps_triple (by with_reducible assumption) ?_ | refine keeps_pairL (by with_reducible assumption) ?_

theorem execPoolSetQuery_keeps (A : Allows P m) (h : m &&& 6416 = 6416) :
    ∀ x0 x1 s, P s → ∀ t, execPoolSetQuery x0 x1 s = .next t → P t := by
  have A := A.mono h
  clear h
  have kCommand := command_keeps A rfl
  have kRunPoolQuery := runPoolQuery_keeps A rfl
  intro x0 x1 s  hs
  intro t e
  cases e
  repeat' first
    | with_reducible first
        | assumption | refine kCommand _ _ _ ?_ ?_ | refine kRunPoolQuery _ _ _  ?_
    | (extract_lets -underBinder +onlyGivenNames x; refine keeps_fact (P := P) (v := x) ?_ ?_; rotate_left; clear_value x; revert x; intro _ _; rotate_left; unfold x; clear x)
    | (extract_lets -underBinder +onlyGivenNames x; clear_value x; revert x; intro _)
    | intro _
    | split
    | with_reducible first | refine keeps_pair (by with_reducible assumption) ?_ | refine keeps_triple (by with_reducible assumption) ?_ | refine keeps_pairL (by with_reducible assumption) ?_

theorem execPoolSetFlush_keeps (A : Allows P m) (h : m &&& 10334771504 = 10334771504) :
    ∀ x0 x1 x2 s, P s → ∀ t, execPoolSetFlush x0 x1 x2 s = .next t → P t := by
  have A := A.mono h
  clear h
  have kCommand := command_keeps A rfl
  have kRunPoolFlush := runPoolFlush_keeps A rfl
  intro x0 x1 x2 s  hs
  intro t e
  cases e
  repeat' first
    | with_reducible first
        | assumption | refine kCommand _ _ _ ?_ ?_ | refine kRunPoolFlush _ _ _ _  ?_
    | (extract_lets -underBinder +onlyGivenNames x; refine keeps_fact (P := P) (v := x) ?_ ?_; rotate_left; clear_value x; revert x; intro _ _; rotate_left; unfold x; clear x)
    | (extract_lets -underBinder +onlyGivenNames x; clear_value x; revert x; intro _)
    | intro _
    | split
    | with_reducible first | refine keeps_pair (by with_reducible assumption) ?_ | refine keeps_triple (by with_reducible assumption) ?_ | refine keeps_pairL (by with_reducible assumption) ?_

end Sys2Proof.Laws
end

