-- ==== Sys2Proof/Laws/HostReset.lean ====
section
/-! SUPPORT. What each operation of Machine/HostReset.lean can change (Laws/Keeps.lean). -/

namespace Sys2Proof.Laws

open Sys2Proof.Machine

variable {P : State → Prop} {m : Nat}

theorem pageFault_keeps (A : Allows P m) (h : m &&& 10334771488 = 10334771488) :
    ∀ x0 x1 s, P s → P (pageFault x0 x1 s) := by
  have A := A.mono h
  clear h
  have kModHif := modHif_keeps A rfl
  have kRaise := raise_keeps A rfl
  have kHifCnt := hifCnt_keeps A rfl
  intro x0 x1 s  hs
  unfold pageFault
  repeat' first
    | with_reducible first
        | assumption | refine kModHif _ _  ?_ | refine kRaise _ _ _ _ _ _ _  ?_ | refine kHifCnt _ _ _  ?_
    | (extract_lets -underBinder +onlyGivenNames x; refine keeps_fact (P := P) (v := x) ?_ ?_; rotate_left; clear_value x; revert x; intro _ _; rotate_left; unfold x; clear x)
    | (extract_lets -underBinder +onlyGivenNames x; clear_value x; revert x; intro _)
    | intro _

theorem checkPage_keeps (A : Allows P m) (h : m &&& 10334771488 = 10334771488) :
    ∀ x0 x1 s, P s → P (checkPage x0 x1 s) := by
  have A := A.mono h
  clear h
  have kPageFault := pageFault_keeps A rfl
  have kModLink := modLink_keeps A rfl
  intro x0 x1 s  hs
  unfold checkPage
  repeat' first
    | with_reducible first
        | assumption | refine kPageFault _ _ _  ?_ | refine kModLink _ _ _  ?_
    | (extract_lets -underBinder +onlyGivenNames x; refine keeps_fact (P := P) (v := x) ?_ ?_; rotate_left; clear_value x; revert x; intro _ _; rotate_left; unfold x; clear x)
    | (extract_lets -underBinder +onlyGivenNames x; clear_value x; revert x; intro _)
    | intro _
    | split

theorem configRing_keeps (A : Allows P m) (h : m &&& 10355751200 = 10355751200) :
    ∀ x0 s, P s → P (configRing x0 s) := by
  have A := A.mono h
  clear h
  have kModRing := modRing_keeps A rfl
  have kRingStarts := ringStarts_keeps A rfl
  intro x0 s  hs
  unfold configRing
  repeat' first
    | with_reducible first
        | assumption | refine kModRing _ _ _  ?_ | refine kRingStarts _ _  ?_
    | (extract_lets -underBinder +onlyGivenNames x; refine keeps_fact (P := P) (v := x) ?_ ?_; rotate_left; clear_value x; revert x; intro _ _; rotate_left; unfold x; clear x)
    | (extract_lets -underBinder +onlyGivenNames x; clear_value x; revert x; intro _)
    | intro _
    | split

theorem commitRing_keeps (A : Allows P m) (h : m &&& 10355751200 = 10355751200) :
    ∀ x0 s, P s → P (commitRing x0 s) := by
  have A := A.mono h
  clear h
  have kDmaFault := dmaFault_keeps A rfl
  have kConfigRing := configRing_keeps A rfl
  intro x0 s  hs
  unfold commitRing
  repeat' first
    | with_reducible first
        | assumption | refine kDmaFault _ _ _  ?_ | refine kConfigRing _ _  ?_
    | (extract_lets -underBinder +onlyGivenNames x; refine keeps_fact (P := P) (v := x) ?_ ?_; rotate_left; clear_value x; revert x; intro _ _; rotate_left; unfold x; clear x)
    | (extract_lets -underBinder +onlyGivenNames x; clear_value x; revert x; intro _)
    | split

theorem commitLink_keeps (A : Allows P m) (h : m &&& 10355751200 = 10355751200) :
    ∀ x0 s, P s → P (commitLink x0 s) := by
  have A := A.mono h
  clear h
  have kModLink := modLink_keeps A rfl
  have kCheckPage := checkPage_keeps A rfl
  have kCommitRing := commitRing_keeps A rfl
  have kModHif := modHif_keeps A rfl
  intro x0 s  hs
  unfold commitLink
  repeat' first
    | with_reducible first
        | assumption | refine kModLink _ _ _  ?_ | refine kCheckPage _ _ _  ?_ | refine kCommitRing _ _  ?_
        | refine kModHif _ _  ?_ | refine each_keeps _ _ (fun _ _ _ => ?_) _ ?_
    | (extract_lets -underBinder +onlyGivenNames x; refine keeps_fact (P := P) (v := x) ?_ ?_; rotate_left; clear_value x; revert x; intro _ _; rotate_left; unfold x; clear x)
    | (extract_lets -underBinder +onlyGivenNames x; clear_value x; revert x; intro _)
    | intro _
    | split

theorem commitA_keeps (A : Allows P m) (h : m &&& 10355751200 = 10355751200) :
    ∀ s, P s → P (commitA s) := by
  have A := A.mono h
  clear h
  have kCommitLink := commitLink_keeps A rfl
  intro s  hs
  unfold commitA
  repeat' first
    | with_reducible first
        | assumption | refine kCommitLink _ _  ?_
    | split

theorem commitB_keeps (A : Allows P m) (h : m &&& 10355751200 = 10355751200) :
    ∀ x0 s, P s → P (commitB x0 s) := by
  have A := A.mono h
  clear h
  have kCountIgnored := countIgnored_keeps A rfl
  have kCommitLink := commitLink_keeps A rfl
  have kModLink := modLink_keeps A rfl
  intro x0 s  hs
  unfold commitB
  repeat' first
    | with_reducible first
        | assumption | refine kCountIgnored _ _  ?_ | refine kCommitLink _ _  ?_ | refine kModLink _ _ _  ?_
    | intro _
    | split

theorem commitAll_keeps (A : Allows P m) (h : m &&& 14646516000 = 14646516000) :
    ∀ x0 s, P s → P (commitAll x0 s) := by
  have A := A.mono h
  clear h
  have kCountIgnored := countIgnored_keeps A rfl
  have kModEgs := modEgs_keeps A rfl
  have kGuardCheck := guardCheck_keeps A rfl
  have kRaise := raise_keeps A rfl
  have kModPwr := modPwr_keeps A rfl
  intro x0 s  hs
  unfold commitAll
  repeat' first
    | with_reducible first
        | assumption | refine kCountIgnored _ _  ?_ | refine kModEgs _ _  ?_ | refine kGuardCheck _  ?_
        | refine kRaise _ _ _ _ _ _ _  ?_ | refine kModPwr _ _  ?_ | refine each_keeps _ _ (fun _ _ _ => ?_) _ ?_
    | (extract_lets -underBinder +onlyGivenNames x; refine keeps_fact (P := P) (v := x) ?_ ?_; rotate_left; clear_value x; revert x; intro _ _; rotate_left; unfold x; clear x)
    | (extract_lets -underBinder +onlyGivenNames x; clear_value x; revert x; intro _)
    | intro _
    | split

theorem stopCommand_keeps (A : Allows P m) (h : m &&& 14636169520 = 14636169520) :
    ∀ x0 s, P s → P (stopCommand x0 s) := by
  have A := A.mono h
  clear h
  have kDropInflight := dropInflight_keeps A rfl
  have kAsActor := asActor_keeps A rfl
  have kCtlUndo := ctlUndo_keeps A rfl
  intro x0 s  hs
  unfold stopCommand
  repeat' first
    | with_reducible first
        | assumption | refine kDropInflight _ _  ?_ | refine kAsActor _ _ _ ?_ ?_ | refine kCtlUndo _ _ _  ?_
        | refine each_keeps _ _ (fun _ _ _ => ?_) _ ?_ | refine foldl_keeps _ _ (fun _ _ _ => ?_) _ ?_
    | (extract_lets -underBinder +onlyGivenNames x; refine keeps_fact (P := P) (v := x) ?_ ?_; rotate_left; clear_value x; revert x; intro _ _; rotate_left; unfold x; clear x)
    | (extract_lets -underBinder +onlyGivenNames x; refine keeps_fact2 (P := P) (v := x) ?_ ?_; rotate_left; clear_value x; revert x; intro _ _; rotate_left; unfold x; clear x)
    | (extract_lets -underBinder +onlyGivenNames x; have h := fun a => x a; clear h; unfold x; clear x)
    | (extract_lets -underBinder +onlyGivenNames x; clear_value x; revert x; intro _)
    | intro _
    | split
    | with_reducible first | refine keeps_pair (by with_reducible assumption) ?_ | refine keeps_triple (by with_reducible assumption) ?_ | refine keeps_pairL (by with_reducible assumption) ?_

theorem dropLinkPunts_keeps (A : Allows P m) (h : m &&& 10355751200 = 10355751200) :
    ∀ x0 s, P s → P (dropLinkPunts x0 s) := by
  have A := A.mono h
  clear h
  have kModHif := modHif_keeps A rfl
  have kPuntDone := puntDone_keeps A rfl
  have kHifCnt := hifCnt_keeps A rfl
  have kDropRingPunts := dropRingPunts_keeps A rfl
  intro x0 s  hs
  unfold dropLinkPunts
  repeat' first
    | with_reducible first
        | assumption | refine kModHif _ _  ?_ | refine kPuntDone _ _  ?_ | refine kHifCnt _ _ _  ?_
        | refine kDropRingPunts _ _ _ _  ?_ | refine each_keeps _ _ (fun _ _ _ => ?_) _ ?_
    | (extract_lets -underBinder +onlyGivenNames x; refine keeps_fact (P := P) (v := x) ?_ ?_; rotate_left; clear_value x; revert x; intro _ _; rotate_left; unfold x; clear x)
    | (extract_lets -underBinder +onlyGivenNames x; clear_value x; revert x; intro _)
    | intro _
    | split

theorem hostReset_keeps (A : Allows P m) (h : m &&& 14652946736 = 14652946736) :
    ∀ x0 s, P s → P (hostReset x0 s) := by
  have A := A.mono h
  clear h
  have kModRing := modRing_keeps A rfl
  have kStopCommand := stopCommand_keeps A rfl
  have kDropLinkPunts := dropLinkPunts_keeps A rfl
  have kModPool := modPool_keeps A rfl
  have kModHif := modHif_keeps A rfl
  have kModLink := modLink_keeps A rfl
  intro x0 s  hs
  unfold hostReset
  repeat' first
    | with_reducible first
        | assumption | refine kModRing _ _ _  ?_ | refine kStopCommand _ _  ?_ | refine kDropLinkPunts _ _  ?_
        | refine kModPool _ _ _  ?_ | refine kModHif _ _  ?_ | refine kModLink _ _ _  ?_
        | refine each_keeps _ _ (fun _ _ _ => ?_) _ ?_
    | (extract_lets -underBinder +onlyGivenNames x; refine keeps_fact (P := P) (v := x) ?_ ?_; rotate_left; clear_value x; revert x; intro _ _; rotate_left; unfold x; clear x)
    | (extract_lets -underBinder +onlyGivenNames x; clear_value x; revert x; intro _)
    | intro _
    | split
    | with_reducible first | refine keeps_pair (by with_reducible assumption) ?_ | refine keeps_triple (by with_reducible assumption) ?_ | refine keeps_pairL (by with_reducible assumption) ?_ | refine A.pkts rfl _ _ ?_

theorem linkDown_keeps (A : Allows P m) (h : m &&& 4096 = 4096) :
    ∀ x0 s, P s → P (linkDown x0 s) := by
  have A := A.mono h
  clear h
  have kModLink := modLink_keeps A rfl
  intro x0 s  hs
  unfold linkDown
  repeat' first
    | with_reducible first
        | assumption | refine kModLink _ _ _  ?_
    | intro _

theorem resetLink_keeps (A : Allows P m) (h : m &&& 14652946736 = 14652946736) :
    ∀ x0 s, P s → P (resetLink x0 s) := by
  have A := A.mono h
  clear h
  have kHostReset := hostReset_keeps A rfl
  intro x0 s  hs
  unfold resetLink
  repeat' first
    | with_reducible first
        | assumption | refine kHostReset _ _  ?_
    | split

theorem restartLink_keeps (A : Allows P m) (h : m &&& 10355751200 = 10355751200) :
    ∀ x0 s, P s → P (restartLink x0 s) := by
  have A := A.mono h
  clear h
  have kModLink := modLink_keeps A rfl
  have kConfigRing := configRing_keeps A rfl
  have kStatusWrite := statusWrite_keeps A rfl
  intro x0 s  hs
  unfold restartLink
  repeat' first
    | with_reducible first
        | assumption | refine kModLink _ _ _  ?_ | refine kConfigRing _ _  ?_ | refine kStatusWrite _ _ _  ?_
        | refine each_keeps _ _ (fun _ _ _ => ?_) _ ?_
    | (extract_lets -underBinder +onlyGivenNames x; refine keeps_fact (P := P) (v := x) ?_ ?_; rotate_left; clear_value x; revert x; intro _ _; rotate_left; unfold x; clear x)
    | (extract_lets -underBinder +onlyGivenNames x; clear_value x; revert x; intro _)
    | intro _
    | split

theorem perstRelease_keeps (A : Allows P m) (h : m &&& 4096 = 4096) :
    ∀ s, P s → P (perstRelease s) := by
  have A := A.mono h
  clear h
  have kModHif := modHif_keeps A rfl
  intro s  hs
  unfold perstRelease
  repeat' first
    | with_reducible first
        | assumption | refine kModHif _ _  ?_
    | intro _

theorem pcieLinkUp_keeps (A : Allows P m) (h : m &&& 4096 = 4096) :
    ∀ x0 x1 s, P s → P (pcieLinkUp x0 x1 s) := by
  have A := A.mono h
  clear h
  have kModLink := modLink_keeps A rfl
  intro x0 x1 s  hs
  unfold pcieLinkUp
  repeat' first
    | with_reducible first
        | assumption | refine kModLink _ _ _  ?_
    | intro _
    | split

theorem execPePerstRelease_keeps (A : Allows P m) (h : m &&& 4096 = 4096) :
    ∀ s, P s → ∀ t, execPePerstRelease s = .next t → P t := by
  have A := A.mono h
  clear h
  have kPerstRelease := perstRelease_keeps A rfl
  intro s  hs
  intro t e
  cases e
  repeat' first
    | with_reducible first
        | assumption | refine kPerstRelease _  ?_ | refine each_keeps _ _ (fun _ _ _ => ?_) _ ?_
        | refine foldl_keeps _ _ (fun _ _ _ => ?_) _ ?_
    | (extract_lets -underBinder +onlyGivenNames x; refine keeps_fact (P := P) (v := x) ?_ ?_; rotate_left; clear_value x; revert x; intro _ _; rotate_left; unfold x; clear x)
    | (extract_lets -underBinder +onlyGivenNames x; refine keeps_fact2 (P := P) (v := x) ?_ ?_; rotate_left; clear_value x; revert x; intro _ _; rotate_left; unfold x; clear x)
    | (extract_lets -underBinder +onlyGivenNames x; have h := fun a => x a; clear h; unfold x; clear x)
    | (extract_lets -underBinder +onlyGivenNames x; clear_value x; revert x; intro _)
    | intro _
    | split
    | with_reducible first | refine keeps_pair (by with_reducible assumption) ?_ | refine keeps_triple (by with_reducible assumption) ?_ | refine keeps_pairL (by with_reducible assumption) ?_

theorem execPcieLinkUp_keeps (A : Allows P m) (h : m &&& 4096 = 4096) :
    ∀ x0 x1 s, P s → ∀ t, execPcieLinkUp x0 x1 s = .next t → P t := by
  have A := A.mono h
  clear h
  have kPcieLinkUp := pcieLinkUp_keeps A rfl
  intro x0 x1 s  hs
  intro t e
  cases e
  repeat' first
    | with_reducible first
        | assumption | refine kPcieLinkUp _ _ _  ?_
    | (extract_lets -underBinder +onlyGivenNames x; refine keeps_fact (P := P) (v := x) ?_ ?_; rotate_left; clear_value x; revert x; intro _ _; rotate_left; unfold x; clear x)
    | (extract_lets -underBinder +onlyGivenNames x; clear_value x; revert x; intro _)
    | intro _
    | split
    | with_reducible first | refine keeps_pair (by with_reducible assumption) ?_ | refine keeps_triple (by with_reducible assumption) ?_ | refine keeps_pairL (by with_reducible assumption) ?_

end Sys2Proof.Laws
end

