-- ==== Sys2Proof/Laws/Integrity.lean ====
section
/-! SUPPORT. What each operation of Machine/Integrity.lean can change (Laws/Keeps.lean). -/

namespace Sys2Proof.Laws

open Sys2Proof.Machine

variable {P : State → Prop} {m : Nat}

theorem chkCnt_keeps (A : Allows P m) (h : m &&& 2048 = 2048) :
    ∀ x0 s, P s → P (chkCnt x0 s) := by
  have A := A.mono h
  clear h
  have kCntInc := cntInc_keeps A rfl
  intro x0 s  hs
  unfold chkCnt
  repeat' first
    | with_reducible first
        | assumption | refine kCntInc _ _ _ _  ?_

theorem loseTableWord_keeps (A : Allows P m) (h : m &&& 66048 = 66048) :
    ∀ x0 x1 s, P s → P (loseTableWord x0 x1 s) := by
  have A := A.mono h
  clear h
  have kTPut := tPut_keeps A rfl
  have kModCmp := modCmp_keeps A rfl
  intro x0 x1 s  hs
  unfold loseTableWord
  repeat' first
    | with_reducible first
        | assumption | refine kTPut _ _ _ _ _  ?_ | refine kModCmp _ _ _ _  ?_
    | (extract_lets -underBinder +onlyGivenNames x; refine keeps_fact (P := P) (v := x) ?_ ?_; rotate_left; clear_value x; revert x; intro _ _; rotate_left; unfold x; clear x)
    | (extract_lets -underBinder +onlyGivenNames x; clear_value x; revert x; intro _)
    | intro _
    | split
    | with_reducible first | refine keeps_pair (by with_reducible assumption) ?_ | refine keeps_triple (by with_reducible assumption) ?_ | refine keeps_pairL (by with_reducible assumption) ?_

theorem loseCell_keeps (A : Allows P m) (h : m &&& 10364565792 = 10364565792) :
    ∀ x0 s, P s → P (loseCell x0 s) := by
  have A := A.mono h
  clear h
  have kChkCnt := chkCnt_keeps A rfl
  have kStompFrame := stompFrame_keeps A rfl
  have kDropEarly := dropEarly_keeps A rfl
  intro x0 s  hs
  unfold loseCell
  repeat' first
    | with_reducible first
        | assumption | refine kChkCnt _ _  ?_ | refine kStompFrame _ _ _  ?_ | refine kDropEarly _ _ _  ?_
    | (extract_lets -underBinder +onlyGivenNames x; refine keeps_fact (P := P) (v := x) ?_ ?_; rotate_left; clear_value x; revert x; intro _ _; rotate_left; unfold x; clear x)
    | (extract_lets -underBinder +onlyGivenNames x; clear_value x; revert x; intro _)
    | split
    | with_reducible first | refine keeps_pair (by with_reducible assumption) ?_ | refine keeps_triple (by with_reducible assumption) ?_ | refine keeps_pairL (by with_reducible assumption) ?_

theorem loseReplica_keeps (A : Allows P m) (h : m &&& 131072 = 131072) :
    ∀ x0 x1 s, P s → P (loseReplica x0 x1 s) := by
  have A := A.mono h
  clear h
  have kModReplicas := modReplicas_keeps A rfl
  intro x0 x1 s  hs
  unfold loseReplica
  repeat' first
    | with_reducible first
        | assumption | refine kModReplicas _ _ _  ?_
    | intro _

theorem loseHot_keeps (A : Allows P m) (h : m &&& 134144 = 134144) :
    ∀ x0 x1 s, P s → P (loseHot x0 x1 s) := by
  have A := A.mono h
  clear h
  have kChkCnt := chkCnt_keeps A rfl
  have kRemoveNew := removeNew_keeps A rfl
  have kDropHot := dropHot_keeps A rfl
  intro x0 x1 s  hs
  unfold loseHot
  repeat' first
    | with_reducible first
        | assumption | refine kChkCnt _ _  ?_ | refine kRemoveNew _ _ _ _  ?_ | refine kDropHot _ _ _  ?_
    | (extract_lets -underBinder +onlyGivenNames x; refine keeps_fact (P := P) (v := x) ?_ ?_; rotate_left; clear_value x; revert x; intro _ _; rotate_left; unfold x; clear x)
    | (extract_lets -underBinder +onlyGivenNames x; clear_value x; revert x; intro _)
    | split
    | with_reducible first | refine keeps_pair (by with_reducible assumption) ?_ | refine keeps_triple (by with_reducible assumption) ?_ | refine keeps_pairL (by with_reducible assumption) ?_

theorem loseTask_keeps (A : Allows P m) (h : m &&& 10366663968 = 10366663968) :
    ∀ x0 x1 s, P s → P (loseTask x0 x1 s) := by
  have A := A.mono h
  clear h
  have kFaultOnCore := faultOnCore_keeps A rfl
  have kFaultTask := faultTask_keeps A rfl
  intro x0 x1 s  hs
  unfold loseTask
  repeat' first
    | with_reducible first
        | assumption | refine kFaultOnCore _ _ _  ?_ | refine kFaultTask _ _ _  ?_
    | split
    | with_reducible first | refine keeps_pair (by with_reducible assumption) ?_ | refine keeps_triple (by with_reducible assumption) ?_ | refine keeps_pairL (by with_reducible assumption) ?_

theorem sramLost_keeps (A : Allows P m) (h : m &&& 14963687216 = 14963687216) :
    ∀ x0 x1 x2 s, P s → P (sramLost x0 x1 x2 s) := by
  have A := A.mono h
  clear h
  have kLoseCell := loseCell_keeps A rfl
  have kLoseTableWord := loseTableWord_keeps A rfl
  have kMarkSuspect := markSuspect_keeps A rfl
  have kLoseReplica := loseReplica_keeps A rfl
  have kLoseHot := loseHot_keeps A rfl
  have kLoseTask := loseTask_keeps A rfl
  have kReleaseString := releaseString_keeps A rfl
  have kModCmp := modCmp_keeps A rfl
  have kDomainFault := domainFault_keeps A rfl
  intro x0 x1 x2 s  hs
  unfold sramLost
  repeat' first
    | with_reducible first
        | assumption | refine kLoseCell _ _  ?_ | refine kLoseTableWord _ _ _  ?_
        | refine kMarkSuspect _ _ _ _  ?_ | refine kLoseReplica _ _ _  ?_ | refine kLoseHot _ _ _  ?_
        | refine kLoseTask _ _ _  ?_ | refine kReleaseString _ _  ?_ | refine kModCmp _ _ _ _  ?_
        | refine kDomainFault _ _ _  ?_
    | (extract_lets -underBinder +onlyGivenNames x; refine keeps_fact (P := P) (v := x) ?_ ?_; rotate_left; clear_value x; revert x; intro _ _; rotate_left; unfold x; clear x)
    | (extract_lets -underBinder +onlyGivenNames x; clear_value x; revert x; intro _)
    | intro _
    | split
    | with_reducible first | refine keeps_pair (by with_reducible assumption) ?_ | refine keeps_triple (by with_reducible assumption) ?_ | refine keeps_pairL (by with_reducible assumption) ?_

theorem scrubOn_keeps (A : Allows P m) (h : m &&& 134219776 = 134219776) :
    ∀ x0 x1 s, P s → P (scrubOn x0 x1 s) := by
  have A := A.mono h
  clear h
  have kChkCnt := chkCnt_keeps A rfl
  have kModChk := modChk_keeps A rfl
  intro x0 x1 s  hs
  unfold scrubOn
  repeat' first
    | with_reducible first
        | assumption | refine kChkCnt _ _  ?_ | refine kModChk _ _  ?_
    | (extract_lets -underBinder +onlyGivenNames x; refine keeps_fact (P := P) (v := x) ?_ ?_; rotate_left; clear_value x; revert x; intro _ _; rotate_left; unfold x; clear x)
    | (extract_lets -underBinder +onlyGivenNames x; clear_value x; revert x; intro _)
    | intro _
    | split

theorem sramScrub_keeps (A : Allows P m) (h : m &&& 14963687216 = 14963687216) :
    ∀ x0 x1 x2 x3 s, P s → P (sramScrub x0 x1 x2 x3 s) := by
  have A := A.mono h
  clear h
  have kScrubOn := scrubOn_keeps A rfl
  have kChkCnt := chkCnt_keeps A rfl
  have kSramLost := sramLost_keeps A rfl
  have kRaise := raise_keeps A rfl
  intro x0 x1 x2 x3 s  hs
  unfold sramScrub
  repeat' first
    | with_reducible first
        | assumption | refine kScrubOn _ _ _  ?_ | refine kChkCnt _ _  ?_ | refine kSramLost _ _ _ _  ?_
        | refine kRaise _ _ _ _ _ _ _  ?_
    | (extract_lets -underBinder +onlyGivenNames x; refine keeps_fact (P := P) (v := x) ?_ ?_; rotate_left; clear_value x; revert x; intro _ _; rotate_left; unfold x; clear x)
    | (extract_lets -underBinder +onlyGivenNames x; clear_value x; revert x; intro _)
    | split
    | with_reducible first | refine keeps_pair (by with_reducible assumption) ?_ | refine keeps_triple (by with_reducible assumption) ?_ | refine keeps_pairL (by with_reducible assumption) ?_

theorem clockLoss_keeps (A : Allows P m) (h : m &&& 14695251248 = 14695251248) :
    ∀ x0 x1 s, P s → P (clockLoss x0 x1 s) := by
  have A := A.mono h
  clear h
  have kRaise := raise_keeps A rfl
  have kChkCnt := chkCnt_keeps A rfl
  have kLoseTraceable := loseTraceable_keeps A rfl
  have kDomainFault := domainFault_keeps A rfl
  intro x0 x1 s  hs
  unfold clockLoss
  repeat' first
    | with_reducible first
        | assumption | refine kRaise _ _ _ _ _ _ _  ?_ | refine kChkCnt _ _  ?_ | refine kLoseTraceable _  ?_
        | refine kDomainFault _ _ _  ?_ | refine each_keeps _ _ (fun _ _ _ => ?_) _ ?_
    | (extract_lets -underBinder +onlyGivenNames x; refine keeps_fact (P := P) (v := x) ?_ ?_; rotate_left; clear_value x; revert x; intro _ _; rotate_left; unfold x; clear x)
    | (extract_lets -underBinder +onlyGivenNames x; clear_value x; revert x; intro _)
    | intro _
    | split

theorem modFeed_keeps (A : Allows P m) (h : m &&& 134217728 = 134217728) :
    ∀ x0 x1 s, P s → P (modFeed x0 x1 s) := by
  have A := A.mono h
  clear h
  have kModChk := modChk_keeps A rfl
  intro x0 x1 s  hs
  unfold modFeed
  repeat' first
    | with_reducible first
        | assumption | refine kModChk _ _  ?_
    | (extract_lets -underBinder +onlyGivenNames x; refine keeps_fact (P := P) (v := x) ?_ ?_; rotate_left; clear_value x; revert x; intro _ _; rotate_left; unfold x; clear x)
    | (extract_lets -underBinder +onlyGivenNames x; clear_value x; revert x; intro _)
    | intro _
    | split
    | with_reducible first | refine keeps_pair (by with_reducible assumption) ?_ | refine keeps_triple (by with_reducible assumption) ?_ | refine keeps_pairL (by with_reducible assumption) ?_

theorem feedRaw_keeps (A : Allows P m) (h : m &&& 134217728 = 134217728) :
    ∀ x0 x1 s, P s → P (feedRaw x0 x1 s) := by
  have A := A.mono h
  clear h
  have kModFeed := modFeed_keeps A rfl
  intro x0 x1 s  hs
  unfold feedRaw
  repeat' first
    | with_reducible first
        | assumption | refine kModFeed _ _ _  ?_
    | intro _

theorem feedStart_keeps (A : Allows P m) (h : m &&& 134219784 = 134219784) :
    ∀ x0 s, P s → P (feedStart x0 s) := by
  have A := A.mono h
  clear h
  have kChkCnt := chkCnt_keeps A rfl
  have kUseFree := useFree_keeps A rfl
  have kModFeed := modFeed_keeps A rfl
  have kFeedRaw := feedRaw_keeps A rfl
  intro x0 s  hs
  unfold feedStart
  repeat' first
    | with_reducible first
        | assumption | refine kChkCnt _ _  ?_ | refine kUseFree _  ?_ | refine kModFeed _ _ _  ?_
        | refine kFeedRaw _ _ _  ?_
    | (extract_lets -underBinder +onlyGivenNames x; refine keeps_fact (P := P) (v := x) ?_ ?_; rotate_left; clear_value x; revert x; intro _ _; rotate_left; unfold x; clear x)
    | (extract_lets -underBinder +onlyGivenNames x; clear_value x; revert x; intro _)
    | intro _
    | split
    | with_reducible first | refine keeps_pair (by with_reducible assumption) ?_ | refine keeps_triple (by with_reducible assumption) ?_ | refine keeps_pairL (by with_reducible assumption) ?_

theorem feedWrite_keeps (A : Allows P m) (h : m &&& 134219776 = 134219776) :
    ∀ x0 x1 x2 s, P s → P (feedWrite x0 x1 x2 s) := by
  have A := A.mono h
  clear h
  have kChkCnt := chkCnt_keeps A rfl
  have kModFeed := modFeed_keeps A rfl
  have kFeedRaw := feedRaw_keeps A rfl
  intro x0 x1 x2 s  hs
  unfold feedWrite
  repeat' first
    | with_reducible first
        | assumption | refine kChkCnt _ _  ?_ | refine kModFeed _ _ _  ?_ | refine kFeedRaw _ _ _  ?_
    | intro _
    | split

theorem execSramScrub_keeps (A : Allows P m) (h : m &&& 14963687216 = 14963687216) :
    ∀ x0 x1 x2 x3 s, P s → ∀ t, execSramScrub x0 x1 x2 x3 s = .next t → P t := by
  have A := A.mono h
  clear h
  have kSramScrub := sramScrub_keeps A rfl
  intro x0 x1 x2 x3 s  hs
  intro t e
  cases e
  repeat' first
    | with_reducible first
        | assumption | refine kSramScrub _ _ _ _ _  ?_ | refine each_keeps _ _ (fun _ _ _ => ?_) _ ?_
        | refine foldl_keeps _ _ (fun _ _ _ => ?_) _ ?_
    | (extract_lets -underBinder +onlyGivenNames x; refine keeps_fact (P := P) (v := x) ?_ ?_; rotate_left; clear_value x; revert x; intro _ _; rotate_left; unfold x; clear x)
    | (extract_lets -underBinder +onlyGivenNames x; refine keeps_fact2 (P := P) (v := x) ?_ ?_; rotate_left; clear_value x; revert x; intro _ _; rotate_left; unfold x; clear x)
    | (extract_lets -underBinder +onlyGivenNames x; have h := fun a => x a; clear h; unfold x; clear x)
    | (extract_lets -underBinder +onlyGivenNames x; clear_value x; revert x; intro _)
    | intro _
    | split
    | with_reducible first | refine keeps_pair (by with_reducible assumption) ?_ | refine keeps_triple (by with_reducible assumption) ?_ | refine keeps_pairL (by with_reducible assumption) ?_

theorem execClockLoss_keeps (A : Allows P m) (h : m &&& 14695251248 = 14695251248) :
    ∀ x0 x1 s, P s → ∀ t, execClockLoss x0 x1 s = .next t → P t := by
  have A := A.mono h
  clear h
  have kClockLoss := clockLoss_keeps A rfl
  intro x0 x1 s  hs
  intro t e
  cases e
  repeat' first
    | with_reducible first
        | assumption | refine kClockLoss _ _ _  ?_
    | (extract_lets -underBinder +onlyGivenNames x; refine keeps_fact (P := P) (v := x) ?_ ?_; rotate_left; clear_value x; revert x; intro _ _; rotate_left; unfold x; clear x)
    | (extract_lets -underBinder +onlyGivenNames x; clear_value x; revert x; intro _)
    | intro _
    | split
    | with_reducible first | refine keeps_pair (by with_reducible assumption) ?_ | refine keeps_triple (by with_reducible assumption) ?_ | refine keeps_pairL (by with_reducible assumption) ?_

end Sys2Proof.Laws
end

