-- ==== Sys2Proof/Laws/Learn.lean ====
section
/-! SUPPORT. What each operation of Machine/Learn.lean can change (Laws/Keeps.lean). -/

namespace Sys2Proof.Laws

open Sys2Proof.Machine

variable {P : State → Prop} {m : Nat}

theorem learnRequest_keeps (A : Allows P m) (h : m &&& 10334837544 = 10334837544) :
    ∀ x0 s, P s → P (learnRequest x0 s) := by
  have A := A.mono h
  clear h
  have kLearnDecide := learnDecide_keeps A rfl
  have kModFwd := modFwd_keeps A rfl
  intro x0 s  hs
  unfold learnRequest
  repeat' first
    | with_reducible first
        | assumption | refine kLearnDecide _ _ _ _ _  ?_ | refine kModFwd _ _  ?_
    | intro _
    | split
    | with_reducible first | refine keeps_pair (by with_reducible assumption) ?_ | refine keeps_triple (by with_reducible assumption) ?_ | refine keeps_pairL (by with_reducible assumption) ?_

theorem hitNotice_keeps (A : Allows P m) (h : m &&& 10334837544 = 10334837544) :
    ∀ x0 s, P s → P (hitNotice x0 s) := by
  have A := A.mono h
  clear h
  have kHitDecide := hitDecide_keeps A rfl
  have kModFwd := modFwd_keeps A rfl
  intro x0 s  hs
  unfold hitNotice
  repeat' first
    | with_reducible first
        | assumption | refine kHitDecide _ _ _ _ _  ?_ | refine kModFwd _ _  ?_
    | intro _
    | split
    | with_reducible first | refine keeps_pair (by with_reducible assumption) ?_ | refine keeps_triple (by with_reducible assumption) ?_ | refine keeps_pairL (by with_reducible assumption) ?_

theorem l2Broadcast_keeps (A : Allows P m) (h : m &&& 66048 = 66048) :
    ∀ x0 s, P s → P (l2Broadcast x0 s) := by
  have A := A.mono h
  clear h
  have kApplyL2 := applyL2_keeps A rfl
  have kModFwd := modFwd_keeps A rfl
  intro x0 s  hs
  unfold l2Broadcast
  repeat' first
    | with_reducible first
        | assumption | refine kApplyL2 _ _ _  ?_ | refine kModFwd _ _  ?_
    | intro _
    | split
    | with_reducible first | refine keeps_pair (by with_reducible assumption) ?_ | refine keeps_triple (by with_reducible assumption) ?_ | refine keeps_pairL (by with_reducible assumption) ?_

theorem l2DeleteRow_keeps (A : Allows P m) (h : m &&& 68096 = 68096) :
    ∀ x0 s, P s → P (l2DeleteRow x0 s) := by
  have A := A.mono h
  clear h
  have kDeleteAt := deleteAt_keeps A rfl
  have kModFwd := modFwd_keeps A rfl
  intro x0 s  hs
  unfold l2DeleteRow
  repeat' first
    | with_reducible first
        | assumption | refine kDeleteAt _ _ _ _ _  ?_ | refine kModFwd _ _  ?_
    | intro _
    | split
    | with_reducible first | refine keeps_pair (by with_reducible assumption) ?_ | refine keeps_triple (by with_reducible assumption) ?_ | refine keeps_pairL (by with_reducible assumption) ?_

theorem ageVisit_keeps (A : Allows P m) (h : m &&& 68096 = 68096) :
    ∀ x0 x1 s, P s → P (ageVisit x0 x1 s) := by
  have A := A.mono h
  clear h
  have kOwnerPut := ownerPut_keeps A rfl
  have kBroadcast := broadcast_keeps A rfl
  have kLearnCnt := learnCnt_keeps A rfl
  intro x0 x1 s  hs
  unfold ageVisit
  repeat' first
    | with_reducible first
        | assumption | refine kOwnerPut _ _ _ _  ?_ | refine kBroadcast _ _ _  ?_ | refine kLearnCnt _ _ _  ?_
    | (extract_lets -underBinder +onlyGivenNames x; refine keeps_fact (P := P) (v := x) ?_ ?_; rotate_left; clear_value x; revert x; intro _ _; rotate_left; unfold x; clear x)
    | (extract_lets -underBinder +onlyGivenNames x; clear_value x; revert x; intro _)
    | split

theorem l2AgeVisit_keeps (A : Allows P m) (h : m &&& 10334837544 = 10334837544) :
    ∀ x0 s, P s → P (l2AgeVisit x0 s) := by
  have A := A.mono h
  clear h
  have kModFwd := modFwd_keeps A rfl
  have kOwnerSettles := ownerSettles_keeps A rfl
  have kAgeVisit := ageVisit_keeps A rfl
  intro x0 s  hs
  unfold l2AgeVisit
  repeat' first
    | with_reducible first
        | assumption | refine kModFwd _ _  ?_ | refine kOwnerSettles _ _ _ _  ?_ | refine kAgeVisit _ _ _  ?_
    | (extract_lets -underBinder +onlyGivenNames x; refine keeps_fact (P := P) (v := x) ?_ ?_; rotate_left; clear_value x; revert x; intro _ _; rotate_left; unfold x; clear x)
    | (extract_lets -underBinder +onlyGivenNames x; clear_value x; revert x; intro _)
    | intro _
    | split
    | with_reducible first | refine keeps_pair (by with_reducible assumption) ?_ | refine keeps_triple (by with_reducible assumption) ?_ | refine keeps_pairL (by with_reducible assumption) ?_

theorem execLearnRequest_keeps (A : Allows P m) (h : m &&& 10334837544 = 10334837544) :
    ∀ x0 s, P s → ∀ t, execLearnRequest x0 s = .next t → P t := by
  have A := A.mono h
  clear h
  have kLearnRequest := learnRequest_keeps A rfl
  intro x0 s  hs
  intro t e
  cases e
  repeat' first
    | with_reducible first
        | assumption | refine kLearnRequest _ _  ?_ | refine each_keeps _ _ (fun _ _ _ => ?_) _ ?_
        | refine foldl_keeps _ _ (fun _ _ _ => ?_) _ ?_
    | (extract_lets -underBinder +onlyGivenNames x; refine keeps_fact (P := P) (v := x) ?_ ?_; rotate_left; clear_value x; revert x; intro _ _; rotate_left; unfold x; clear x)
    | (extract_lets -underBinder +onlyGivenNames x; refine keeps_fact2 (P := P) (v := x) ?_ ?_; rotate_left; clear_value x; revert x; intro _ _; rotate_left; unfold x; clear x)
    | (extract_lets -underBinder +onlyGivenNames x; have h := fun a => x a; clear h; unfold x; clear x)
    | (extract_lets -underBinder +onlyGivenNames x; clear_value x; revert x; intro _)
    | intro _
    | split
    | with_reducible first | refine keeps_pair (by with_reducible assumption) ?_ | refine keeps_triple (by with_reducible assumption) ?_ | refine keeps_pairL (by with_reducible assumption) ?_

theorem execHitNotice_keeps (A : Allows P m) (h : m &&& 10334837544 = 10334837544) :
    ∀ x0 s, P s → ∀ t, execHitNotice x0 s = .next t → P t := by
  have A := A.mono h
  clear h
  have kHitNotice := hitNotice_keeps A rfl
  intro x0 s  hs
  intro t e
  cases e
  repeat' first
    | with_reducible first
        | assumption | refine kHitNotice _ _  ?_
    | (extract_lets -underBinder +onlyGivenNames x; refine keeps_fact (P := P) (v := x) ?_ ?_; rotate_left; clear_value x; revert x; intro _ _; rotate_left; unfold x; clear x)
    | (extract_lets -underBinder +onlyGivenNames x; clear_value x; revert x; intro _)
    | intro _
    | split
    | with_reducible first | refine keeps_pair (by with_reducible assumption) ?_ | refine keeps_triple (by with_reducible assumption) ?_ | refine keeps_pairL (by with_reducible assumption) ?_

theorem execL2Broadcast_keeps (A : Allows P m) (h : m &&& 66048 = 66048) :
    ∀ x0 s, P s → ∀ t, execL2Broadcast x0 s = .next t → P t := by
  have A := A.mono h
  clear h
  have kL2Broadcast := l2Broadcast_keeps A rfl
  intro x0 s  hs
  intro t e
  cases e
  repeat' first
    | with_reducible first
        | assumption | refine kL2Broadcast _ _  ?_
    | (extract_lets -underBinder +onlyGivenNames x; refine keeps_fact (P := P) (v := x) ?_ ?_; rotate_left; clear_value x; revert x; intro _ _; rotate_left; unfold x; clear x)
    | (extract_lets -underBinder +onlyGivenNames x; clear_value x; revert x; intro _)
    | intro _
    | split
    | with_reducible first | refine keeps_pair (by with_reducible assumption) ?_ | refine keeps_triple (by with_reducible assumption) ?_ | refine keeps_pairL (by with_reducible assumption) ?_

theorem execL2Delete_keeps (A : Allows P m) (h : m &&& 68096 = 68096) :
    ∀ x0 s, P s → ∀ t, execL2Delete x0 s = .next t → P t := by
  have A := A.mono h
  clear h
  have kL2DeleteRow := l2DeleteRow_keeps A rfl
  intro x0 s  hs
  intro t e
  cases e
  repeat' first
    | with_reducible first
        | assumption | refine kL2DeleteRow _ _  ?_
    | (extract_lets -underBinder +onlyGivenNames x; refine keeps_fact (P := P) (v := x) ?_ ?_; rotate_left; clear_value x; revert x; intro _ _; rotate_left; unfold x; clear x)
    | (extract_lets -underBinder +onlyGivenNames x; clear_value x; revert x; intro _)
    | intro _
    | split
    | with_reducible first | refine keeps_pair (by with_reducible assumption) ?_ | refine keeps_triple (by with_reducible assumption) ?_ | refine keeps_pairL (by with_reducible assumption) ?_

theorem execL2AgeVisit_keeps (A : Allows P m) (h : m &&& 10334837544 = 10334837544) :
    ∀ x0 s, P s → ∀ t, execL2AgeVisit x0 s = .next t → P t := by
  have A := A.mono h
  clear h
  have kL2AgeVisit := l2AgeVisit_keeps A rfl
  intro x0 s  hs
  intro t e
  cases e
  repeat' first
    | with_reducible first
        | assumption | refine kL2AgeVisit _ _  ?_
    | (extract_lets -underBinder +onlyGivenNames x; refine keeps_fact (P := P) (v := x) ?_ ?_; rotate_left; clear_value x; revert x; intro _ _; rotate_left; unfold x; clear x)
    | (extract_lets -underBinder +onlyGivenNames x; clear_value x; revert x; intro _)
    | intro _
    | split
    | with_reducible first | refine keeps_pair (by with_reducible assumption) ?_ | refine keeps_triple (by with_reducible assumption) ?_ | refine keeps_pairL (by with_reducible assumption) ?_

end Sys2Proof.Laws
end

