-- ==== Sys2Proof/Laws/MemCmd.lean ====
section
/-! SUPPORT. What each operation of Machine/MemCmd.lean can change (Laws/Keeps.lean). -/

namespace Sys2Proof.Laws

open Sys2Proof.Machine

variable {P : State → Prop} {m : Nat}

theorem askRead_keeps (A : Allows P m) (h : m &&& 67110912 = 67110912) :
    ∀ x0 x1 s, P s → P (askRead x0 x1 s) := by
  have A := A.mono h
  clear h
  have kHbmPush := hbmPush_keeps A rfl
  intro x0 x1 s  hs
  unfold askRead
  repeat' first
    | with_reducible first
        | assumption | refine kHbmPush _ _ _  ?_
    | split
    | with_reducible first | refine keeps_pair (by with_reducible assumption) ?_ | refine keeps_triple (by with_reducible assumption) ?_ | refine keeps_pairL (by with_reducible assumption) ?_

theorem runMemRead_keeps (A : Allows P m) (h : m &&& 10401880352 = 10401880352) :
    ∀ x0 x1 s, P s → P (runMemRead x0 x1 s).2 := by
  have A := A.mono h
  clear h
  have kDmaCheck := dmaCheck_keeps A rfl
  have kAskRead := askRead_keeps A rfl
  intro x0 x1 s  hs
  unfold runMemRead
  repeat' first
    | with_reducible first
        | assumption | refine kDmaCheck _ _ _ _ _ _  ?_ | refine kAskRead _ _ _  ?_
    | (extract_lets -underBinder +onlyGivenNames x; refine keeps_fact (P := P) (v := x) ?_ ?_; rotate_left; clear_value x; revert x; intro _ _; rotate_left; unfold x; clear x)
    | (extract_lets -underBinder +onlyGivenNames x; clear_value x; revert x; intro _)
    | split
    | with_reducible first | refine keeps_pair (by with_reducible assumption) ?_ | refine keeps_triple (by with_reducible assumption) ?_ | refine keeps_pairL (by with_reducible assumption) ?_

theorem stepMemRead_keeps (A : Allows P m) (h : m &&& 67111168 = 67111168) :
    ∀ x0 x1 s, P s → P (stepMemRead x0 x1 s).2 := by
  have A := A.mono h
  clear h
  have kHostWr := hostWr_keeps A rfl
  have kAskRead := askRead_keeps A rfl
  intro x0 x1 s  hs
  unfold stepMemRead
  repeat' first
    | with_reducible first
        | assumption | refine kHostWr _ _ _  ?_ | refine kAskRead _ _ _  ?_
    | (extract_lets -underBinder +onlyGivenNames x; refine keeps_fact (P := P) (v := x) ?_ ?_; rotate_left; clear_value x; revert x; intro _ _; rotate_left; unfold x; clear x)
    | (extract_lets -underBinder +onlyGivenNames x; clear_value x; revert x; intro _)
    | split
    | with_reducible first | refine keeps_pair (by with_reducible assumption) ?_ | refine keeps_triple (by with_reducible assumption) ?_ | refine keeps_pairL (by with_reducible assumption) ?_

theorem runMemWrite_keeps (A : Allows P m) (h : m &&& 10334771488 = 10334771488) :
    ∀ x0 x1 s, P s → P (runMemWrite x0 x1 s).2 := by
  have A := A.mono h
  clear h
  have kDmaCheck := dmaCheck_keeps A rfl
  intro x0 x1 s  hs
  unfold runMemWrite
  repeat' first
    | with_reducible first
        | assumption | refine kDmaCheck _ _ _ _ _ _  ?_
    | (extract_lets -underBinder +onlyGivenNames x; refine keeps_fact (P := P) (v := x) ?_ ?_; rotate_left; clear_value x; revert x; intro _ _; rotate_left; unfold x; clear x)
    | (extract_lets -underBinder +onlyGivenNames x; clear_value x; revert x; intro _)
    | split
    | with_reducible first | refine keeps_pair (by with_reducible assumption) ?_ | refine keeps_triple (by with_reducible assumption) ?_ | refine keeps_pairL (by with_reducible assumption) ?_

theorem stepMemWrite_keeps (A : Allows P m) (h : m &&& 67111936 = 67111936) :
    ∀ x0 x1 s, P s → P (stepMemWrite x0 x1 s).2 := by
  have A := A.mono h
  clear h
  have kHbmPush := hbmPush_keeps A rfl
  have kBlockWrite := blockWrite_keeps A rfl
  intro x0 x1 s  hs
  unfold stepMemWrite
  repeat' first
    | with_reducible first
        | assumption | refine kHbmPush _ _ _  ?_ | refine kBlockWrite _ _ _  ?_
    | (extract_lets -underBinder +onlyGivenNames x; refine keeps_fact (P := P) (v := x) ?_ ?_; rotate_left; clear_value x; revert x; intro _ _; rotate_left; unfold x; clear x)
    | (extract_lets -underBinder +onlyGivenNames x; clear_value x; revert x; intro _)
    | split
    | with_reducible first | refine keeps_pair (by with_reducible assumption) ?_ | refine keeps_triple (by with_reducible assumption) ?_ | refine keeps_pairL (by with_reducible assumption) ?_

theorem runCheckScan_keeps (A : Allows P m) (h : m &&& 10401880352 = 10401880352) :
    ∀ x0 x1 s, P s → P (runCheckScan x0 x1 s).2 := by
  have A := A.mono h
  clear h
  have kDmaCheck := dmaCheck_keeps A rfl
  have kCntInc := cntInc_keeps A rfl
  have kAskRead := askRead_keeps A rfl
  have kModInflight := modInflight_keeps A rfl
  intro x0 x1 s  hs
  unfold runCheckScan
  repeat' first
    | with_reducible first
        | assumption | refine kDmaCheck _ _ _ _ _ _  ?_ | refine kCntInc _ _ _ _  ?_ | refine kAskRead _ _ _  ?_
        | refine kModInflight _ _ _  ?_
    | (extract_lets -underBinder +onlyGivenNames x; refine keeps_fact (P := P) (v := x) ?_ ?_; rotate_left; clear_value x; revert x; intro _ _; rotate_left; unfold x; clear x)
    | (extract_lets -underBinder +onlyGivenNames x; clear_value x; revert x; intro _)
    | intro _
    | split
    | with_reducible first | refine keeps_pair (by with_reducible assumption) ?_ | refine keeps_triple (by with_reducible assumption) ?_ | refine keeps_pairL (by with_reducible assumption) ?_

theorem scanValue_keeps (A : Allows P m) (h : m &&& 10334771488 = 10334771488) :
    ∀ x0 x1 x2 x3 x4 s, P s → P (scanValue x0 x1 x2 x3 x4 s).2 := by
  have A := A.mono h
  clear h
  have kRaise := raise_keeps A rfl
  have kCntInc := cntInc_keeps A rfl
  have kHostWr := hostWr_keeps A rfl
  intro x0 x1 x2 x3 x4 s  hs
  unfold scanValue
  repeat' first
    | with_reducible first
        | assumption | refine kRaise _ _ _ _ _ _ _  ?_ | refine kCntInc _ _ _ _  ?_ | refine kHostWr _ _ _  ?_
    | (extract_lets -underBinder +onlyGivenNames x; refine keeps_fact (P := P) (v := x) ?_ ?_; rotate_left; clear_value x; revert x; intro _ _; rotate_left; unfold x; clear x)
    | (extract_lets -underBinder +onlyGivenNames x; clear_value x; revert x; intro _)
    | split

theorem stepCheckScan_keeps (A : Allows P m) (h : m &&& 10401880352 = 10401880352) :
    ∀ x0 x1 s, P s → P (stepCheckScan x0 x1 s).2 := by
  have A := A.mono h
  clear h
  have kAskRead := askRead_keeps A rfl
  have kScanValue := scanValue_keeps A rfl
  intro x0 x1 s  hs
  unfold stepCheckScan
  repeat' first
    | with_reducible first
        | assumption | refine kAskRead _ _ _  ?_ | refine kScanValue _ _ _ _ _ _  ?_
    | (extract_lets -underBinder +onlyGivenNames x; refine keeps_fact (P := P) (v := x) ?_ ?_; rotate_left; clear_value x; revert x; intro _ _; rotate_left; unfold x; clear x)
    | (extract_lets -underBinder +onlyGivenNames x; clear_value x; revert x; intro _)
    | split
    | with_reducible first | refine keeps_pair (by with_reducible assumption) ?_ | refine keeps_triple (by with_reducible assumption) ?_ | refine keeps_pairL (by with_reducible assumption) ?_

theorem runFlowRestore_keeps (A : Allows P m) (h : m &&& 10334771488 = 10334771488) :
    ∀ x0 x1 x2 s, P s → P (runFlowRestore x0 x1 x2 s).2 := by
  have A := A.mono h
  clear h
  have kDataCheck := dataCheck_keeps A rfl
  intro x0 x1 x2 s  hs
  unfold runFlowRestore
  repeat' first
    | with_reducible first
        | assumption | refine kDataCheck _ _ _ _ _  ?_
    | (extract_lets -underBinder +onlyGivenNames x; refine keeps_fact (P := P) (v := x) ?_ ?_; rotate_left; clear_value x; revert x; intro _ _; rotate_left; unfold x; clear x)
    | (extract_lets -underBinder +onlyGivenNames x; clear_value x; revert x; intro _)
    | split
    | with_reducible first | refine keeps_pair (by with_reducible assumption) ?_ | refine keeps_triple (by with_reducible assumption) ?_ | refine keeps_pairL (by with_reducible assumption) ?_

theorem restoreTomb_keeps (A : Allows P m) (h : m &&& 132096 = 132096) :
    ∀ x0 x1 x2 x3 s, P s → ∀ t, restoreTomb x0 x1 x2 x3 s = some t → P t := by
  have A := A.mono h
  intro r hf h g s hs t e
  unfold restoreTomb at e
  split at e
  · simp only [Option.map_eq_some_iff] at e
    obtain ⟨a, -, rfl⟩ := e
    exact putIdx_keeps A rfl _ _ _ (modSlice_keeps A rfl _ _ _ hs)
  · cases e

theorem restoreEntry_keeps (A : Allows P m) (h : m &&& 10433772840 = 10433772840) :
    ∀ x0 x1 s, P s → P (restoreEntry x0 x1 s).2 := by
  have A := A.mono h
  clear h
  have kRestoreTomb := restoreTomb_keeps A rfl
  have kTakeRecord := takeRecord_keeps A rfl
  have kBlockWrite := blockWrite_keeps A rfl
  have kSetEnd := setEnd_keeps A rfl
  have kBump := bump_keeps A rfl
  intro x0 x1 s  hs
  unfold restoreEntry
  repeat' first
    | with_reducible first
        | assumption | refine kRestoreTomb _ _ _ _ _  ?_ _ (by assumption) | refine kTakeRecord _ _ _ _ _ _  ?_
        | refine kBlockWrite _ _ _  ?_ | refine kSetEnd _ _ _  ?_ | refine kBump _ _ _ _ _  ?_
    | (extract_lets -underBinder +onlyGivenNames x; refine keeps_fact (P := P) (v := x) ?_ ?_; rotate_left; clear_value x; revert x; intro _ _; rotate_left; unfold x; clear x)
    | (extract_lets -underBinder +onlyGivenNames x; clear_value x; revert x; intro _)
    | split
    | with_reducible first | refine keeps_pair (by with_reducible assumption) ?_ | refine keeps_triple (by with_reducible assumption) ?_ | refine keeps_pairL (by with_reducible assumption) ?_

theorem stepFlowRestore_keeps (A : Allows P m) (h : m &&& 10433772840 = 10433772840) :
    ∀ x0 x1 s, P s → P (stepFlowRestore x0 x1 s).2 := by
  have A := A.mono h
  clear h
  have kRestoreEntry := restoreEntry_keeps A rfl
  intro x0 x1 s  hs
  unfold stepFlowRestore
  repeat' first
    | with_reducible first
        | assumption | refine kRestoreEntry _ _ _  ?_
    | (extract_lets -underBinder +onlyGivenNames x; refine keeps_fact (P := P) (v := x) ?_ ?_; rotate_left; clear_value x; revert x; intro _ _; rotate_left; unfold x; clear x)
    | (extract_lets -underBinder +onlyGivenNames x; have h := fun a => x a; clear h; unfold x; clear x)
    | (extract_lets -underBinder +onlyGivenNames x; clear_value x; revert x; intro _)
    | split
    | with_reducible first | refine keeps_pair (by with_reducible assumption) ?_ | refine keeps_triple (by with_reducible assumption) ?_ | refine keeps_pairL (by with_reducible assumption) ?_

theorem execMemRead_keeps (A : Allows P m) (h : m &&& 10401880368 = 10401880368) :
    ∀ x0 x1 s, P s → ∀ t, execMemRead x0 x1 s = .next t → P t := by
  have A := A.mono h
  clear h
  have kCommand := command_keeps A rfl
  have kRunMemRead := runMemRead_keeps A rfl
  intro x0 x1 s  hs
  intro t e
  cases e
  repeat' first
    | with_reducible first
        | assumption | refine kCommand _ _ _ ?_ ?_ | refine kRunMemRead _ _ _  ?_
        | refine each_keeps _ _ (fun _ _ _ => ?_) _ ?_ | refine foldl_keeps _ _ (fun _ _ _ => ?_) _ ?_
    | (extract_lets -underBinder +onlyGivenNames x; refine keeps_fact (P := P) (v := x) ?_ ?_; rotate_left; clear_value x; revert x; intro _ _; rotate_left; unfold x; clear x)
    | (extract_lets -underBinder +onlyGivenNames x; refine keeps_fact2 (P := P) (v := x) ?_ ?_; rotate_left; clear_value x; revert x; intro _ _; rotate_left; unfold x; clear x)
    | (extract_lets -underBinder +onlyGivenNames x; have h := fun a => x a; clear h; unfold x; clear x)
    | (extract_lets -underBinder +onlyGivenNames x; clear_value x; revert x; intro _)
    | intro _
    | split
    | with_reducible first | refine keeps_pair (by with_reducible assumption) ?_ | refine keeps_triple (by with_reducible assumption) ?_ | refine keeps_pairL (by with_reducible assumption) ?_

theorem execMemWrite_keeps (A : Allows P m) (h : m &&& 10334771504 = 10334771504) :
    ∀ x0 x1 s, P s → ∀ t, execMemWrite x0 x1 s = .next t → P t := by
  have A := A.mono h
  clear h
  have kCommand := command_keeps A rfl
  have kRunMemWrite := runMemWrite_keeps A rfl
  intro x0 x1 s  hs
  intro t e
  cases e
  repeat' first
    | with_reducible first
        | assumption | refine kCommand _ _ _ ?_ ?_ | refine kRunMemWrite _ _ _  ?_
    | (extract_lets -underBinder +onlyGivenNames x; refine keeps_fact (P := P) (v := x) ?_ ?_; rotate_left; clear_value x; revert x; intro _ _; rotate_left; unfold x; clear x)
    | (extract_lets -underBinder +onlyGivenNames x; clear_value x; revert x; intro _)
    | intro _
    | split
    | with_reducible first | refine keeps_pair (by with_reducible assumption) ?_ | refine keeps_triple (by with_reducible assumption) ?_ | refine keeps_pairL (by with_reducible assumption) ?_

theorem execCheckScan_keeps (A : Allows P m) (h : m &&& 10401880368 = 10401880368) :
    ∀ x0 x1 s, P s → ∀ t, execCheckScan x0 x1 s = .next t → P t := by
  have A := A.mono h
  clear h
  have kCommand := command_keeps A rfl
  have kRunCheckScan := runCheckScan_keeps A rfl
  intro x0 x1 s  hs
  intro t e
  cases e
  repeat' first
    | with_reducible first
        | assumption | refine kCommand _ _ _ ?_ ?_ | refine kRunCheckScan _ _ _  ?_
    | (extract_lets -underBinder +onlyGivenNames x; refine keeps_fact (P := P) (v := x) ?_ ?_; rotate_left; clear_value x; revert x; intro _ _; rotate_left; unfold x; clear x)
    | (extract_lets -underBinder +onlyGivenNames x; clear_value x; revert x; intro _)
    | intro _
    | split
    | with_reducible first | refine keeps_pair (by with_reducible assumption) ?_ | refine keeps_triple (by with_reducible assumption) ?_ | refine keeps_pairL (by with_reducible assumption) ?_

theorem execFlowRestore_keeps (A : Allows P m) (h : m &&& 10334771504 = 10334771504) :
    ∀ x0 x1 s, P s → ∀ t, execFlowRestore x0 x1 s = .next t → P t := by
  have A := A.mono h
  clear h
  have kCommand := command_keeps A rfl
  have kRunFlowRestore := runFlowRestore_keeps A rfl
  intro x0 x1 s  hs
  intro t e
  cases e
  repeat' first
    | with_reducible first
        | assumption | refine kCommand _ _ _ ?_ ?_ | refine kRunFlowRestore _ _ _ _  ?_
    | (extract_lets -underBinder +onlyGivenNames x; refine keeps_fact (P := P) (v := x) ?_ ?_; rotate_left; clear_value x; revert x; intro _ _; rotate_left; unfold x; clear x)
    | (extract_lets -underBinder +onlyGivenNames x; clear_value x; revert x; intro _)
    | intro _
    | split
    | with_reducible first | refine keeps_pair (by with_reducible assumption) ?_ | refine keeps_triple (by with_reducible assumption) ?_ | refine keeps_pairL (by with_reducible assumption) ?_

end Sys2Proof.Laws
end

