-- ==== Sys2Proof/Laws/LateCmd.lean ====
section
/-! SUPPORT. What each operation of Machine/LateCmd.lean can change (Laws/Keeps.lean). -/

namespace Sys2Proof.Laws

open Sys2Proof.Machine

variable {P : State → Prop} {m : Nat}

theorem abortTest_keeps (A : Allows P m) (h : m &&& 6416 = 6416) :
    ∀ x0 s, P s → P (abortTest x0 s) := by
  have A := A.mono h
  clear h
  have kFinish := finish_keeps A rfl
  intro x0 s  hs
  unfold abortTest
  repeat' first
    | with_reducible first
        | assumption | refine kFinish _ _ _ _ _ _  ?_
    | split
    | with_reducible first | refine keeps_pair (by with_reducible assumption) ?_ | refine keeps_triple (by with_reducible assumption) ?_ | refine keeps_pairL (by with_reducible assumption) ?_

theorem takeStep_keeps (A : Allows P m) (h : m &&& 6416 = 6416) :
    ∀ x0 x1 s, P s → P (takeStep x0 x1 s) := by
  have A := A.mono h
  clear h
  have kAbortTest := abortTest_keeps A rfl
  have kModInflight := modInflight_keeps A rfl
  have kFinish := finish_keeps A rfl
  intro x0 x1 s  hs
  unfold takeStep
  repeat' first
    | with_reducible first
        | assumption | refine kAbortTest _ _  ?_ | refine kModInflight _ _ _  ?_ | refine kFinish _ _ _ _ _ _  ?_
    | intro _
    | split
    | with_reducible first | refine keeps_pair (by with_reducible assumption) ?_ | refine keeps_triple (by with_reducible assumption) ?_ | refine keeps_pairL (by with_reducible assumption) ?_

theorem runStep_keeps (A : Allows P m) (h : m &&& 6416 = 6416) :
    ∀ x0 x1 s, (∀ t, P t → P (x1 t).2) → P s → P (runStep x0 x1 s) := by
  have A := A.mono h
  intro a f s k hs
  have h1 := k _ (A.actor rfl s (some a) hs)
  unfold runStep
  dsimp only
  exact takeStep_keeps A rfl _ _ _ (A.actor rfl _ _ (ite_keeps (modInflight_keeps A rfl _ _ _ h1) h1))

theorem longStep_keeps (A : Allows P m) (h : m &&& 10433838904 = 10433838904) :
    ∀ x0 s, P s → P (longStep x0 s) := by
  have A := A.mono h
  intro a s hs
  have kStep : ∀ e f, stepOf e = some f → ∀ t, P t → P (f t).2 := by
    intro e f he t ht
    unfold stepOf at he
    dsimp only at he
    split at he <;> first | cases he | skip
    · exact stepBulkWrite_keeps A rfl _ _ _ _ _ ht
    · exact stepBulkRead_keeps A rfl _ _ _ ht
    · exact stepTableScan_keeps A rfl _ _ _ ht
    · exact stepFlowRestore_keeps A rfl _ _ _ ht
    · exact stepGateLoad_keeps A rfl _ _ _ _ ht
    · exact stepMemRead_keeps A rfl _ _ _ ht
    · exact stepMemWrite_keeps A rfl _ _ _ ht
    · exact stepCheckScan_keeps A rfl _ _ _ ht
    · exact stepFwStage_keeps A rfl _ _ _ ht
  unfold longStep
  split
  · exact hs
  · split
    · exact hs
    · rename_i he
      dsimp only
      split
      · exact hs
      · split
        · exact finish_keeps A rfl _ _ _ _ _ _ hs
        · exact runStep_keeps A rfl _ _ _ (kStep _ _ he) hs

theorem heldStart_keeps (A : Allows P m) (h : m &&& 14762360632 = 14762360632) :
    ∀ x0 s, P s → P (heldStart x0 s) := by
  have A := A.mono h
  intro a s hs
  have kRun : ∀ i run, runOf i = some run → ∀ b t, P t → P (run b t).2 := by
    intro i run e b t ht
    unfold runOf at e
    split at e <;> first | cases e | skip
    · exact runNop_keeps A rfl _ _ ht
    · exact runFence_keeps A rfl _ _ ht
    · exact runAbort_keeps A rfl _ _ _ _ ht
    · exact runG3Nop_keeps A rfl _ _ ht
    · exact runCounterRead_keeps A rfl _ _ _ _ ht
    · exact runCounterClear_keeps A rfl _ _ _ _ ht
    · exact runG3CounterRead_keeps A rfl _ _ _ _ ht
    · exact runCtlQuery_keeps A rfl _ _ _ ht
    · exact runCtlOff_keeps A rfl _ _ _ ht
    · exact runCtlOn_keeps A rfl _ _ _ ht
    · exact runCtlReinit_keeps A rfl _ _ _ _ ht
    · exact runCtlRestart_keeps A rfl _ _ _ _ ht
    · exact runShaperSet_keeps A rfl _ _ _ _ ht
    · exact runGateLoad_keeps A rfl _ _ _ _ ht
    · exact runFlowWrite_keeps A rfl _ _ _ ht
    · exact runFlowDelete_keeps A rfl _ _ _ ht
    · exact runFlowRead_keeps A rfl _ _ _ ht
    · exact runG3FlowDelete_keeps A rfl _ _ _ ht
    · exact runMemRead_keeps A rfl _ _ _ ht
    · exact runMemWrite_keeps A rfl _ _ _ ht
    · exact runCheckScan_keeps A rfl _ _ _ ht
    · exact runFlowRestore_keeps A rfl _ _ _ _ ht
    · exact runRingQuery_keeps A rfl _ _ _ ht
    · exact runRingEnable_keeps A rfl _ _ _ ht
    · exact runRingDisable_keeps A rfl _ _ _ ht
    · exact runRingMove_keeps A rfl _ _ _ _ _ ht
    · exact runPoolQuery_keeps A rfl _ _ _ ht
    · exact runPoolFlush_keeps A rfl _ _ _ _ ht
    · exact runFwStage_keeps A rfl _ _ _ ht
    · exact runFwSwitch_keeps A rfl _ _ _ _ _ ht
    · exact runTableWrite_keeps A rfl _ _ _ _ ht
    · exact runTableRead_keeps A rfl _ _ _ _ ht
    · exact runBulkWrite_keeps A rfl _ _ _ _ ht
    · exact runBulkRead_keeps A rfl _ _ _ _ ht
    · exact runTableScan_keeps A rfl _ _ _ _ ht
    · exact runDigestSet_keeps A rfl _ _ _ _ ht
    · exact runEpochFlip_keeps A rfl _ _ _ _ ht
    · exact runG3TableWrite_keeps A rfl _ _ _ _ ht
    · exact runG3TableRead_keeps A rfl _ _ _ _ ht
    · exact runTimeRead_keeps A rfl _ _ ht
    · exact runTimeStep_keeps A rfl _ _ _ _ _ ht
    · exact runTimeRate_keeps A rfl _ _ _ ht
    · exact runMarkTraceable_keeps A rfl _ _ ht
    · exact runTout_keeps A rfl _ _ _ ht
    · exact runPeerDelay_keeps A rfl _ _ _ _ ht
    · exact runSynce_keeps A rfl _ _ _ _ _ _ ht
  unfold heldStart
  split
  · exact hs
  · split
    · exact hs
    · split
      · exact modInflight_keeps A rfl _ _ _ hs
      · split
        · rename_i e
          exact startCmd_keeps A rfl _ _ _ _ (kRun _ _ e) hs
        · exact hs

theorem execLongCommandStep_keeps (A : Allows P m) (h : m &&& 10433838904 = 10433838904) :
    ∀ x0 x1 s, P s → ∀ t, execLongCommandStep x0 x1 s = .next t → P t := by
  have A := A.mono h
  clear h
  have kLongStep := longStep_keeps A rfl
  intro x0 x1 s  hs
  intro t e
  cases e
  repeat' first
    | with_reducible first
        | assumption | refine kLongStep _ _  ?_

theorem execHeldCommandStart_keeps (A : Allows P m) (h : m &&& 14762360632 = 14762360632) :
    ∀ x0 x1 s, P s → ∀ t, execHeldCommandStart x0 x1 s = .next t → P t := by
  have A := A.mono h
  clear h
  have kHeldStart := heldStart_keeps A rfl
  intro x0 x1 s  hs
  intro t e
  cases e
  repeat' first
    | with_reducible first
        | assumption | refine kHeldStart _ _  ?_
    | (extract_lets -underBinder +onlyGivenNames x; refine keeps_fact (P := P) (v := x) ?_ ?_; rotate_left; clear_value x; revert x; intro _ _; rotate_left; unfold x; clear x)
    | (extract_lets -underBinder +onlyGivenNames x; clear_value x; revert x; intro _)
    | intro _
    | split
    | with_reducible first | refine keeps_pair (by with_reducible assumption) ?_ | refine keeps_triple (by with_reducible assumption) ?_ | refine keeps_pairL (by with_reducible assumption) ?_

end Sys2Proof.Laws
end

