-- ==== Sys2Proof/Laws/RegGate.lean ====
section
/-! SUPPORT. What each operation of Machine/RegGate.lean can change (Laws/Keeps.lean). -/

namespace Sys2Proof.Laws

open Sys2Proof.Machine

variable {P : State → Prop} {m : Nat}

theorem regWriteGate_keeps (A : Allows P m) (h : m &&& 6144 = 6144) :
    ∀ x0 x1 x2 s, (∀ t, P t → P (x2 t)) → P s → P (regWriteGate x0 x1 x2 s) := by
  have A := A.mono h
  clear h
  have kCountIgnored := countIgnored_keeps A rfl
  intro x0 x1 x2 s k0 hs
  unfold regWriteGate
  repeat' first
    | with_reducible first
        | assumption | refine kCountIgnored _ _  ?_ | refine k0 _ _ ?_ | refine k0 _ ?_
    | intro _
    | split
    | with_reducible first | refine keeps_pair (by with_reducible assumption) ?_ | refine keeps_triple (by with_reducible assumption) ?_ | refine keeps_pairL (by with_reducible assumption) ?_

theorem regReadGate_keeps (A : Allows P m) (h : m &&& 128 = 128) :
    ∀ x0 x1 x2 s, (∀ t, P t → P (x2 t)) → P s → P (regReadGate x0 x1 x2 s) := by
  have A := A.mono h
  clear h
  intro x0 x1 x2 s k0 hs
  unfold regReadGate
  repeat' first
    | with_reducible first
        | assumption | refine k0 _ _ ?_ | refine k0 _ ?_
    | intro _
    | split
    | with_reducible first | refine A.readData rfl _ _ ?_

end Sys2Proof.Laws
end

