-- ==== Sys2Proof/Laws/LifeCycle.lean ====
section
/-! SUPPORT. What each operation of Machine/LifeCycle.lean can change (Laws/Keeps.lean). -/

namespace Sys2Proof.Laws

open Sys2Proof.Machine

variable {P : State → Prop} {m : Nat}

theorem modFuses_keeps (A : Allows P m) (h : m &&& 2147483648 = 2147483648) :
    ∀ x0 s, P s → P (modFuses x0 s) := by
  have A := A.mono h
  clear h
  have kModLcs := modLcs_keeps A rfl
  intro x0 s  hs
  unfold modFuses
  repeat' first
    | with_reducible first
        | assumption | refine kModLcs _ _  ?_
    | intro _

theorem progState_keeps (A : Allows P m) (h : m &&& 2147483648 = 2147483648) :
    ∀ x0 s, P s → P (progState x0 s) := by
  have A := A.mono h
  clear h
  have kModFuses := modFuses_keeps A rfl
  intro x0 s  hs
  unfold progState
  repeat' first
    | with_reducible first
        | assumption | refine kModFuses _ _  ?_
    | intro _

theorem progSlot_keeps (A : Allows P m) (h : m &&& 2147483648 = 2147483648) :
    ∀ x0 x1 x2 s, P s → P (progSlot x0 x1 x2 s) := by
  have A := A.mono h
  clear h
  have kModFuses := modFuses_keeps A rfl
  intro x0 x1 x2 s  hs
  unfold progSlot
  repeat' first
    | with_reducible first
        | assumption | refine kModFuses _ _  ?_
    | (extract_lets -underBinder +onlyGivenNames x; refine keeps_fact (P := P) (v := x) ?_ ?_; rotate_left; clear_value x; revert x; intro _ _; rotate_left; unfold x; clear x)
    | (extract_lets -underBinder +onlyGivenNames x; clear_value x; revert x; intro _)
    | intro _
    | split

theorem jtagInstruction_keeps (A : Allows P m) (h : m &&& 2147483648 = 2147483648) :
    ∀ x0 s, P s → P (jtagInstruction x0 s) := by
  have A := A.mono h
  clear h
  have kModLcs := modLcs_keeps A rfl
  intro x0 s  hs
  unfold jtagInstruction
  repeat' first
    | with_reducible first
        | assumption | refine kModLcs _ _  ?_
    | intro _
    | split

theorem clearBufs_keeps (A : Allows P m) (h : m &&& 64 = 64) :
    ∀ s, P s → P (clearBufs s) := by
  have A := A.mono h
  clear h
  have kPutReg := putReg_keeps A rfl
  intro s  hs
  unfold clearBufs
  repeat' first
    | with_reducible first
        | assumption | refine kPutReg _ _ _  ?_ | refine each_keeps _ _ (fun _ _ _ => ?_) _ ?_
    | intro _

theorem tokenGo_keeps (A : Allows P m) (h : m &&& 2147489856 = 2147489856) :
    ∀ x0 s, P s → P (tokenGo x0 s) := by
  have A := A.mono h
  clear h
  have kCountIgnored := countIgnored_keeps A rfl
  have kModLcs := modLcs_keeps A rfl
  have kClearBufs := clearBufs_keeps A rfl
  intro x0 s  hs
  unfold tokenGo
  repeat' first
    | with_reducible first
        | assumption | refine kCountIgnored _ _  ?_ | refine kModLcs _ _  ?_ | refine kClearBufs _  ?_
    | intro _
    | split

theorem tokenRow_keeps (A : Allows P m) (h : m &&& 2147489856 = 2147489856) :
    ∀ x0 x1 s, P s → P (tokenRow x0 x1 s) := by
  have A := A.mono h
  clear h
  have kRegWriteGate := regWriteGate_keeps A rfl
  have kTokenGo := tokenGo_keeps A rfl
  intro x0 x1 s  hs
  unfold tokenRow
  repeat' first
    | with_reducible first
        | assumption | refine kRegWriteGate _ _ _ _ ?_ ?_ | refine kTokenGo _ _  ?_
    | intro _
    | split

theorem renewNonce_keeps (A : Allows P m) (h : m &&& 2147483656 = 2147483656) :
    ∀ s, P s → P (renewNonce s) := by
  have A := A.mono h
  clear h
  have kUseFree := useFree_keeps A rfl
  have kModLcs := modLcs_keeps A rfl
  intro s  hs
  unfold renewNonce
  repeat' first
    | with_reducible first
        | assumption | refine kUseFree _  ?_ | refine kModLcs _ _  ?_
    | (extract_lets -underBinder +onlyGivenNames x; refine keeps_fact (P := P) (v := x) ?_ ?_; rotate_left; clear_value x; revert x; intro _ _; rotate_left; unfold x; clear x)
    | (extract_lets -underBinder +onlyGivenNames x; clear_value x; revert x; intro _)
    | intro _
    | split
    | with_reducible first | refine keeps_pair (by with_reducible assumption) ?_ | refine keeps_triple (by with_reducible assumption) ?_ | refine keeps_pairL (by with_reducible assumption) ?_

theorem enterState_keeps (A : Allows P m) (h : m &&& 12482255136 = 12482255136) :
    ∀ x0 s, P s → P (enterState x0 s) := by
  have A := A.mono h
  clear h
  have kRaise := raise_keeps A rfl
  have kModLcs := modLcs_keeps A rfl
  intro x0 s  hs
  unfold enterState
  repeat' first
    | with_reducible first
        | assumption | refine kRaise _ _ _ _ _ _ _  ?_ | refine kModLcs _ _  ?_
    | intro _

theorem openDebug_keeps (A : Allows P m) (h : m &&& 12482255136 = 12482255136) :
    ∀ x0 s, P s → P (openDebug x0 s) := by
  have A := A.mono h
  clear h
  have kModLcs := modLcs_keeps A rfl
  have kRaise := raise_keeps A rfl
  intro x0 s  hs
  unfold openDebug
  repeat' first
    | with_reducible first
        | assumption | refine kModLcs _ _  ?_ | refine kRaise _ _ _ _ _ _ _  ?_
    | (extract_lets -underBinder +onlyGivenNames x; refine keeps_fact (P := P) (v := x) ?_ ?_; rotate_left; clear_value x; revert x; intro _ _; rotate_left; unfold x; clear x)
    | (extract_lets -underBinder +onlyGivenNames x; clear_value x; revert x; intro _)
    | intro _
    | split

theorem refuseAll_keeps (A : Allows P m) (h : m &&& 6416 = 6416) :
    ∀ s, P s → P (refuseAll s) := by
  have A := A.mono h
  clear h
  have kFinish := finish_keeps A rfl
  intro s  hs
  unfold refuseAll
  repeat' first
    | with_reducible first
        | assumption | refine kFinish _ _ _ _ _ _  ?_ | refine each_keeps _ _ (fun _ _ _ => ?_) _ ?_
    | intro _

theorem portsDown_keeps (A : Allows P m) (h : m &&& 10389731616 = 10389731616) :
    ∀ s, P s → P (portsDown s) := by
  have A := A.mono h
  clear h
  have kPortDown := portDown_keeps A rfl
  intro s  hs
  unfold portsDown
  repeat' first
    | with_reducible first
        | assumption | refine kPortDown _ _  ?_ | refine each_keeps _ _ (fun _ _ _ => ?_) _ ?_

theorem ringsOff_keeps (A : Allows P m) (h : m &&& 4096 = 4096) :
    ∀ s, P s → P (ringsOff s) := by
  have A := A.mono h
  clear h
  have kModHif := modHif_keeps A rfl
  intro s  hs
  unfold ringsOff
  repeat' first
    | with_reducible first
        | assumption | refine kModHif _ _  ?_ | refine foldl_keeps _ _ (fun _ _ _ => ?_) _ ?_
    | intro _
    | split

theorem beginZeroise_keeps (A : Allows P m) (h : m &&& 12537215280 = 12537215280) :
    ∀ s, P s → P (beginZeroise s) := by
  have A := A.mono h
  clear h
  have kRaise := raise_keeps A rfl
  have kModLcs := modLcs_keeps A rfl
  have kRingsOff := ringsOff_keeps A rfl
  have kPortsDown := portsDown_keeps A rfl
  have kRefuseAll := refuseAll_keeps A rfl
  intro s  hs
  unfold beginZeroise
  repeat' first
    | with_reducible first
        | assumption | refine kRaise _ _ _ _ _ _ _  ?_ | refine kModLcs _ _  ?_ | refine kRingsOff _  ?_
        | refine kPortsDown _  ?_ | refine kRefuseAll _  ?_
    | (extract_lets -underBinder +onlyGivenNames x; refine keeps_fact (P := P) (v := x) ?_ ?_; rotate_left; clear_value x; revert x; intro _ _; rotate_left; unfold x; clear x)
    | (extract_lets -underBinder +onlyGivenNames x; clear_value x; revert x; intro _)
    | intro _

theorem zeroFill_keeps (A : Allows P m) (h : m &&& 904373760 = 904373760) :
    ∀ s, P s → P (zeroFill s) := by
  have A := A.mono h
  intro s hs
  have h1 := modCus_keeps A rfl (fun c => { c with ckpts := [], body := [], image := [], usesPreload := false }) _
    (modHbm_keeps A rfl (fun h => { h with poison := [], mirrorBad := [], mig := none, want := none }) _
      (modFlash_keeps A rfl (fun f => { f with images := [], mig := none }) s hs))
  have h2 := modFab_keeps A rfl (fun f => { f with voq := [], admitted := [], withdrawn := [], reseq := [], seq := [] }) _ h1
  have clear : ∀ t : State, P t → P { t with
      tmem := [], mem := [], pkts := [], pipes := [], cls := {}, fwd := {}, flow := {}, tsk := {}, buf := {}
      egs := { formation := t.egs.formation, wire := t.egs.wire } } := by
    intro t ht
    have a0 : P { t with tmem := [] } := by
      have q := A.tmemDrop rfl t (fun _ => false) ht
      rw [drop_all] at q
      exact q
    have a1 : P { t with tmem := [], mem := [] } := by
      have q := A.memDrop rfl { t with tmem := [] } (fun _ => false) a0
      rw [drop_all] at q
      exact q
    have a2 : P { t with tmem := [], mem := [], pkts := [] } := A.pkts rfl { t with tmem := [], mem := [] } [] a1
    have a3 : P { t with tmem := [], mem := [], pkts := [], pipes := [] } := A.pipes rfl { t with tmem := [], mem := [], pkts := [] } [] a2
    have a4 : P { t with tmem := [], mem := [], pkts := [], pipes := [], cls := {} } := A.cls rfl { t with tmem := [], mem := [], pkts := [], pipes := [] } {} a3
    have a5 : P { t with tmem := [], mem := [], pkts := [], pipes := [], cls := {}, fwd := {} } := A.fwd rfl { t with tmem := [], mem := [], pkts := [], pipes := [], cls := {} } {} a4
    have a6 : P { t with tmem := [], mem := [], pkts := [], pipes := [], cls := {}, fwd := {}, flow := {} } := A.flow rfl { t with tmem := [], mem := [], pkts := [], pipes := [], cls := {}, fwd := {} } {} a5
    have a7 : P { t with tmem := [], mem := [], pkts := [], pipes := [], cls := {}, fwd := {}, flow := {}, tsk := {} } := A.tsk rfl { t with tmem := [], mem := [], pkts := [], pipes := [], cls := {}, fwd := {}, flow := {} } {} a6
    have a8 : P { t with tmem := [], mem := [], pkts := [], pipes := [], cls := {}, fwd := {}, flow := {}, tsk := {}, buf := {} } := A.buf rfl { t with tmem := [], mem := [], pkts := [], pipes := [], cls := {}, fwd := {}, flow := {}, tsk := {} } {} a7
    have a9 : P { t with tmem := [], mem := [], pkts := [], pipes := [], cls := {}, fwd := {}, flow := {}, tsk := {}, buf := {}, egs := { formation := t.egs.formation, wire := t.egs.wire } } := A.egs rfl { t with tmem := [], mem := [], pkts := [], pipes := [], cls := {}, fwd := {}, flow := {}, tsk := {}, buf := {} } { formation := t.egs.formation, wire := t.egs.wire } a8
    exact a9
  exact clear _ h2

theorem spoilSlots_keeps (A : Allows P m) (h : m &&& 2147483648 = 2147483648) :
    ∀ s, P s → P (spoilSlots s) := by
  have A := A.mono h
  clear h
  have kModFuses := modFuses_keeps A rfl
  intro s  hs
  unfold spoilSlots
  repeat' first
    | with_reducible first
        | assumption | refine kModFuses _ _  ?_ | refine foldl_keeps _ _ (fun _ _ _ => ?_) _ ?_
    | (extract_lets -underBinder +onlyGivenNames x; refine keeps_fact (P := P) (v := x) ?_ ?_; rotate_left; clear_value x; revert x; intro _ _; rotate_left; unfold x; clear x)
    | (extract_lets -underBinder +onlyGivenNames x; clear_value x; revert x; intro _)
    | intro _

theorem zeroisationEnd_keeps (A : Allows P m) (h : m &&& 12849757984 = 12849757984) :
    ∀ s, P s → P (zeroisationEnd s) := by
  have A := A.mono h
  clear h
  have kRaise := raise_keeps A rfl
  have kModLcs := modLcs_keeps A rfl
  have kSpoilSlots := spoilSlots_keeps A rfl
  have kZeroFill := zeroFill_keeps A rfl
  intro s  hs
  unfold zeroisationEnd
  repeat' first
    | with_reducible first
        | assumption | refine kRaise _ _ _ _ _ _ _  ?_ | refine kModLcs _ _  ?_ | refine kSpoilSlots _  ?_
        | refine kZeroFill _  ?_
    | intro _
    | split

theorem tokenEffect_keeps (A : Allows P m) (h : m &&& 12537215280 = 12537215280) :
    ∀ x0 x1 s, P s → P (tokenEffect x0 x1 s) := by
  have A := A.mono h
  clear h
  have kEnterState := enterState_keeps A rfl
  have kProgState := progState_keeps A rfl
  have kProgSlot := progSlot_keeps A rfl
  have kOpenDebug := openDebug_keeps A rfl
  have kModLcs := modLcs_keeps A rfl
  have kRaise := raise_keeps A rfl
  have kBeginZeroise := beginZeroise_keeps A rfl
  have kModFuses := modFuses_keeps A rfl
  intro x0 x1 s  hs
  unfold tokenEffect
  repeat' first
    | with_reducible first
        | assumption | refine kEnterState _ _  ?_ | refine kProgState _ _  ?_ | refine kProgSlot _ _ _ _  ?_
        | refine kOpenDebug _ _  ?_ | refine kModLcs _ _  ?_ | refine kRaise _ _ _ _ _ _ _  ?_
        | refine kBeginZeroise _  ?_ | refine kModFuses _ _  ?_
    | (extract_lets -underBinder +onlyGivenNames x; refine keeps_fact (P := P) (v := x) ?_ ?_; rotate_left; clear_value x; revert x; intro _ _; rotate_left; unfold x; clear x)
    | (extract_lets -underBinder +onlyGivenNames x; clear_value x; revert x; intro _)
    | intro _
    | split
    | with_reducible first | refine keeps_pair (by with_reducible assumption) ?_ | refine keeps_triple (by with_reducible assumption) ?_ | refine keeps_pairL (by with_reducible assumption) ?_

theorem tokenSpoils_keeps (A : Allows P m) (h : m &&& 2147483648 = 2147483648) :
    ∀ x0 x1 s, P s → P (tokenSpoils x0 x1 s) := by
  have A := A.mono h
  clear h
  have kProgSlot := progSlot_keeps A rfl
  have kModFuses := modFuses_keeps A rfl
  intro x0 x1 s  hs
  unfold tokenSpoils
  repeat' first
    | with_reducible first
        | assumption | refine kProgSlot _ _ _ _  ?_ | refine kModFuses _ _  ?_
    | intro _
    | split
    | with_reducible first | refine keeps_pair (by with_reducible assumption) ?_ | refine keeps_triple (by with_reducible assumption) ?_ | refine keeps_pairL (by with_reducible assumption) ?_

theorem tokenResult_keeps (A : Allows P m) (h : m &&& 12537215288 = 12537215288) :
    ∀ x0 s, P s → P (tokenResult x0 s) := by
  have A := A.mono h
  clear h
  have kRenewNonce := renewNonce_keeps A rfl
  have kModLcs := modLcs_keeps A rfl
  have kRaise := raise_keeps A rfl
  have kTokenEffect := tokenEffect_keeps A rfl
  have kTokenSpoils := tokenSpoils_keeps A rfl
  intro x0 s  hs
  unfold tokenResult
  repeat' first
    | with_reducible first
        | assumption | refine kRenewNonce _  ?_ | refine kModLcs _ _  ?_ | refine kRaise _ _ _ _ _ _ _  ?_
        | refine kTokenEffect _ _ _  ?_ | refine kTokenSpoils _ _ _  ?_
    | (extract_lets -underBinder +onlyGivenNames x; refine keeps_fact (P := P) (v := x) ?_ ?_; rotate_left; clear_value x; revert x; intro _ _; rotate_left; unfold x; clear x)
    | (extract_lets -underBinder +onlyGivenNames x; clear_value x; revert x; intro _)
    | intro _
    | split

theorem execTestDone_keeps (A : Allows P m) (h : m &&& 2147489856 = 2147489856) :
    ∀ x0 s, P s → ∀ t, execTestDone x0 s = .next t → P t := by
  have A := A.mono h
  clear h
  have kTokenRow := tokenRow_keeps A rfl
  intro x0 s  hs
  intro t e
  cases e
  repeat' first
    | with_reducible first
        | assumption | refine kTokenRow _ _ _  ?_ | refine each_keeps _ _ (fun _ _ _ => ?_) _ ?_
        | refine foldl_keeps _ _ (fun _ _ _ => ?_) _ ?_
    | (extract_lets -underBinder +onlyGivenNames x; refine keeps_fact (P := P) (v := x) ?_ ?_; rotate_left; clear_value x; revert x; intro _ _; rotate_left; unfold x; clear x)
    | (extract_lets -underBinder +onlyGivenNames x; refine keeps_fact2 (P := P) (v := x) ?_ ?_; rotate_left; clear_value x; revert x; intro _ _; rotate_left; unfold x; clear x)
    | (extract_lets -underBinder +onlyGivenNames x; have h := fun a => x a; clear h; unfold x; clear x)
    | (extract_lets -underBinder +onlyGivenNames x; clear_value x; revert x; intro _)
    | intro _
    | split
    | with_reducible first | refine keeps_pair (by with_reducible assumption) ?_ | refine keeps_triple (by with_reducible assumption) ?_ | refine keeps_pairL (by with_reducible assumption) ?_

theorem execSeal_keeps (A : Allows P m) (h : m &&& 2147489856 = 2147489856) :
    ∀ x0 s, P s → ∀ t, execSeal x0 s = .next t → P t := by
  have A := A.mono h
  clear h
  have kTokenRow := tokenRow_keeps A rfl
  intro x0 s  hs
  intro t e
  cases e
  repeat' first
    | with_reducible first
        | assumption | refine kTokenRow _ _ _  ?_
    | (extract_lets -underBinder +onlyGivenNames x; refine keeps_fact (P := P) (v := x) ?_ ?_; rotate_left; clear_value x; revert x; intro _ _; rotate_left; unfold x; clear x)
    | (extract_lets -underBinder +onlyGivenNames x; clear_value x; revert x; intro _)
    | intro _
    | split
    | with_reducible first | refine keeps_pair (by with_reducible assumption) ?_ | refine keeps_triple (by with_reducible assumption) ?_ | refine keeps_pairL (by with_reducible assumption) ?_

theorem execService_keeps (A : Allows P m) (h : m &&& 2147489856 = 2147489856) :
    ∀ x0 s, P s → ∀ t, execService x0 s = .next t → P t := by
  have A := A.mono h
  clear h
  have kTokenRow := tokenRow_keeps A rfl
  intro x0 s  hs
  intro t e
  cases e
  repeat' first
    | with_reducible first
        | assumption | refine kTokenRow _ _ _  ?_
    | (extract_lets -underBinder +onlyGivenNames x; refine keeps_fact (P := P) (v := x) ?_ ?_; rotate_left; clear_value x; revert x; intro _ _; rotate_left; unfold x; clear x)
    | (extract_lets -underBinder +onlyGivenNames x; clear_value x; revert x; intro _)
    | intro _
    | split
    | with_reducible first | refine keeps_pair (by with_reducible assumption) ?_ | refine keeps_triple (by with_reducible assumption) ?_ | refine keeps_pairL (by with_reducible assumption) ?_

theorem execLogClear_keeps (A : Allows P m) (h : m &&& 2147489856 = 2147489856) :
    ∀ x0 s, P s → ∀ t, execLogClear x0 s = .next t → P t := by
  have A := A.mono h
  clear h
  have kTokenRow := tokenRow_keeps A rfl
  intro x0 s  hs
  intro t e
  cases e
  repeat' first
    | with_reducible first
        | assumption | refine kTokenRow _ _ _  ?_
    | (extract_lets -underBinder +onlyGivenNames x; refine keeps_fact (P := P) (v := x) ?_ ?_; rotate_left; clear_value x; revert x; intro _ _; rotate_left; unfold x; clear x)
    | (extract_lets -underBinder +onlyGivenNames x; clear_value x; revert x; intro _)
    | intro _
    | split
    | with_reducible first | refine keeps_pair (by with_reducible assumption) ?_ | refine keeps_triple (by with_reducible assumption) ?_ | refine keeps_pairL (by with_reducible assumption) ?_

theorem execKeyRotate_keeps (A : Allows P m) (h : m &&& 2147489856 = 2147489856) :
    ∀ x0 s, P s → ∀ t, execKeyRotate x0 s = .next t → P t := by
  have A := A.mono h
  clear h
  have kTokenRow := tokenRow_keeps A rfl
  intro x0 s  hs
  intro t e
  cases e
  repeat' first
    | with_reducible first
        | assumption | refine kTokenRow _ _ _  ?_
    | (extract_lets -underBinder +onlyGivenNames x; refine keeps_fact (P := P) (v := x) ?_ ?_; rotate_left; clear_value x; revert x; intro _ _; rotate_left; unfold x; clear x)
    | (extract_lets -underBinder +onlyGivenNames x; clear_value x; revert x; intro _)
    | intro _
    | split
    | with_reducible first | refine keeps_pair (by with_reducible assumption) ?_ | refine keeps_triple (by with_reducible assumption) ?_ | refine keeps_pairL (by with_reducible assumption) ?_

theorem execReturn_keeps (A : Allows P m) (h : m &&& 2147489856 = 2147489856) :
    ∀ x0 s, P s → ∀ t, execReturn x0 s = .next t → P t := by
  have A := A.mono h
  clear h
  have kTokenRow := tokenRow_keeps A rfl
  intro x0 s  hs
  intro t e
  cases e
  repeat' first
    | with_reducible first
        | assumption | refine kTokenRow _ _ _  ?_
    | (extract_lets -underBinder +onlyGivenNames x; refine keeps_fact (P := P) (v := x) ?_ ?_; rotate_left; clear_value x; revert x; intro _ _; rotate_left; unfold x; clear x)
    | (extract_lets -underBinder +onlyGivenNames x; clear_value x; revert x; intro _)
    | intro _
    | split
    | with_reducible first | refine keeps_pair (by with_reducible assumption) ?_ | refine keeps_triple (by with_reducible assumption) ?_ | refine keeps_pairL (by with_reducible assumption) ?_

theorem execVendorDebug_keeps (A : Allows P m) (h : m &&& 2147489856 = 2147489856) :
    ∀ x0 s, P s → ∀ t, execVendorDebug x0 s = .next t → P t := by
  have A := A.mono h
  clear h
  have kTokenRow := tokenRow_keeps A rfl
  intro x0 s  hs
  intro t e
  cases e
  repeat' first
    | with_reducible first
        | assumption | refine kTokenRow _ _ _  ?_
    | (extract_lets -underBinder +onlyGivenNames x; refine keeps_fact (P := P) (v := x) ?_ ?_; rotate_left; clear_value x; revert x; intro _ _; rotate_left; unfold x; clear x)
    | (extract_lets -underBinder +onlyGivenNames x; clear_value x; revert x; intro _)
    | intro _
    | split
    | with_reducible first | refine keeps_pair (by with_reducible assumption) ?_ | refine keeps_triple (by with_reducible assumption) ?_ | refine keeps_pairL (by with_reducible assumption) ?_

theorem execTokenResult_keeps (A : Allows P m) (h : m &&& 12537215288 = 12537215288) :
    ∀ x0 s, P s → ∀ t, execTokenResult x0 s = .next t → P t := by
  have A := A.mono h
  clear h
  have kTokenResult := tokenResult_keeps A rfl
  intro x0 s  hs
  intro t e
  cases e
  repeat' first
    | with_reducible first
        | assumption | refine kTokenResult _ _  ?_
    | (extract_lets -underBinder +onlyGivenNames x; refine keeps_fact (P := P) (v := x) ?_ ?_; rotate_left; clear_value x; revert x; intro _ _; rotate_left; unfold x; clear x)
    | (extract_lets -underBinder +onlyGivenNames x; clear_value x; revert x; intro _)
    | intro _
    | split
    | with_reducible first | refine keeps_pair (by with_reducible assumption) ?_ | refine keeps_triple (by with_reducible assumption) ?_ | refine keeps_pairL (by with_reducible assumption) ?_

theorem execZeroisationEnd_keeps (A : Allows P m) (h : m &&& 12849757984 = 12849757984) :
    ∀ s, P s → ∀ t, execZeroisationEnd s = .next t → P t := by
  have A := A.mono h
  clear h
  have kZeroisationEnd := zeroisationEnd_keeps A rfl
  intro s  hs
  intro t e
  cases e
  repeat' first
    | with_reducible first
        | assumption | refine kZeroisationEnd _  ?_
    | (extract_lets -underBinder +onlyGivenNames x; refine keeps_fact (P := P) (v := x) ?_ ?_; rotate_left; clear_value x; revert x; intro _ _; rotate_left; unfold x; clear x)
    | (extract_lets -underBinder +onlyGivenNames x; clear_value x; revert x; intro _)
    | intro _
    | split
    | with_reducible first | refine keeps_pair (by with_reducible assumption) ?_ | refine keeps_triple (by with_reducible assumption) ?_ | refine keeps_pairL (by with_reducible assumption) ?_

theorem execJtagInstruction_keeps (A : Allows P m) (h : m &&& 2147483648 = 2147483648) :
    ∀ x0 s, P s → ∀ t, execJtagInstruction x0 s = .next t → P t := by
  have A := A.mono h
  clear h
  have kJtagInstruction := jtagInstruction_keeps A rfl
  intro x0 s  hs
  intro t e
  cases e
  repeat' first
    | with_reducible first
        | assumption | refine kJtagInstruction _ _  ?_
    | (extract_lets -underBinder +onlyGivenNames x; refine keeps_fact (P := P) (v := x) ?_ ?_; rotate_left; clear_value x; revert x; intro _ _; rotate_left; unfold x; clear x)
    | (extract_lets -underBinder +onlyGivenNames x; clear_value x; revert x; intro _)
    | intro _
    | split
    | with_reducible first | refine keeps_pair (by with_reducible assumption) ?_ | refine keeps_triple (by with_reducible assumption) ?_ | refine keeps_pairL (by with_reducible assumption) ?_

end Sys2Proof.Laws
end

