-- ==== Sys2Proof/Laws/Logbook.lean ====
section
/-! SUPPORT. What each operation of Machine/Logbook.lean can change (Laws/Keeps.lean). -/

namespace Sys2Proof.Laws

open Sys2Proof.Machine

variable {P : State → Prop} {m : Nat}

theorem logCnt_keeps (A : Allows P m) (h : m &&& 2048 = 2048) :
    ∀ x0 s, P s → P (logCnt x0 s) := by
  have A := A.mono h
  clear h
  have kCntInc := cntInc_keeps A rfl
  intro x0 s  hs
  unfold logCnt
  repeat' first
    | with_reducible first
        | assumption | refine kCntInc _ _ _ _  ?_

theorem eraseOldest_keeps (A : Allows P m) (h : m &&& 536872960 = 536872960) :
    ∀ s, P s → P (eraseOldest s) := by
  have A := A.mono h
  clear h
  have kLogCnt := logCnt_keeps A rfl
  have kModFlash := modFlash_keeps A rfl
  intro s  hs
  unfold eraseOldest
  repeat' first
    | with_reducible first
        | assumption | refine kLogCnt _ _  ?_ | refine kModFlash _ _  ?_
    | (extract_lets -underBinder +onlyGivenNames x; refine keeps_fact (P := P) (v := x) ?_ ?_; rotate_left; clear_value x; revert x; intro _ _; rotate_left; unfold x; clear x)
    | (extract_lets -underBinder +onlyGivenNames x; clear_value x; revert x; intro _)
    | intro _

theorem moveSector_keeps (A : Allows P m) (h : m &&& 536870912 = 536870912) :
    ∀ s, P s → P (moveSector s) := by
  have A := A.mono h
  clear h
  have kModFlash := modFlash_keeps A rfl
  intro s  hs
  unfold moveSector
  repeat' first
    | with_reducible first
        | assumption | refine kModFlash _ _  ?_
    | intro _

theorem persistRec_keeps (A : Allows P m) (h : m &&& 1610614784 = 1610614784) :
    ∀ x0 s, P s → P (persistRec x0 s) := by
  have A := A.mono h
  clear h
  have kModLog := modLog_keeps A rfl
  have kModFlash := modFlash_keeps A rfl
  have kLogCnt := logCnt_keeps A rfl
  have kMoveSector := moveSector_keeps A rfl
  intro x0 s  hs
  unfold persistRec
  repeat' first
    | with_reducible first
        | assumption | refine kModLog _ _  ?_ | refine kModFlash _ _  ?_ | refine kLogCnt _ _  ?_
        | refine kMoveSector _  ?_
    | (extract_lets -underBinder +onlyGivenNames x; refine keeps_fact (P := P) (v := x) ?_ ?_; rotate_left; clear_value x; revert x; intro _ _; rotate_left; unfold x; clear x)
    | (extract_lets -underBinder +onlyGivenNames x; clear_value x; revert x; intro _)
    | intro _
    | split

theorem sectorBad_keeps (A : Allows P m) (h : m &&& 10334771488 = 10334771488) :
    ∀ s, P s → P (sectorBad s) := by
  have A := A.mono h
  clear h
  have kModFlash := modFlash_keeps A rfl
  have kRaise := raise_keeps A rfl
  have kLogCnt := logCnt_keeps A rfl
  have kMoveSector := moveSector_keeps A rfl
  intro s  hs
  unfold sectorBad
  repeat' first
    | with_reducible first
        | assumption | refine kModFlash _ _  ?_ | refine kRaise _ _ _ _ _ _ _  ?_ | refine kLogCnt _ _  ?_
        | refine kMoveSector _  ?_
    | (extract_lets -underBinder +onlyGivenNames x; refine keeps_fact (P := P) (v := x) ?_ ?_; rotate_left; clear_value x; revert x; intro _ _; rotate_left; unfold x; clear x)
    | (extract_lets -underBinder +onlyGivenNames x; clear_value x; revert x; intro _)
    | intro _
    | split

theorem logPersist_keeps (A : Allows P m) (h : m &&& 10334771488 = 10334771488) :
    ∀ x0 s, P s → P (logPersist x0 s) := by
  have A := A.mono h
  clear h
  have kEraseOldest := eraseOldest_keeps A rfl
  have kGuardCheck := guardCheck_keeps A rfl
  have kLogLostRec := logLostRec_keeps A rfl
  have kPersistRec := persistRec_keeps A rfl
  have kSectorBad := sectorBad_keeps A rfl
  intro x0 s  hs
  unfold logPersist
  repeat' first
    | with_reducible first
        | assumption | refine kEraseOldest _  ?_ | refine kGuardCheck _  ?_ | refine kLogLostRec _  ?_
        | refine kPersistRec _ _  ?_ | refine kSectorBad _  ?_
    | (extract_lets -underBinder +onlyGivenNames x; refine keeps_fact (P := P) (v := x) ?_ ?_; rotate_left; clear_value x; revert x; intro _ _; rotate_left; unfold x; clear x)
    | (extract_lets -underBinder +onlyGivenNames x; clear_value x; revert x; intro _)
    | split
    | with_reducible first | refine keeps_pair (by with_reducible assumption) ?_ | refine keeps_triple (by with_reducible assumption) ?_ | refine keeps_pairL (by with_reducible assumption) ?_

theorem modStat_keeps (A : Allows P m) (h : m &&& 1073741824 = 1073741824) :
    ∀ x0 x1 s, P s → P (modStat x0 x1 s) := by
  have A := A.mono h
  clear h
  have kModLog := modLog_keeps A rfl
  intro x0 x1 s  hs
  unfold modStat
  repeat' first
    | with_reducible first
        | assumption | refine kModLog _ _  ?_
    | intro _

theorem statSample_keeps (A : Allows P m) (h : m &&& 1073741824 = 1073741824) :
    ∀ x0 x1 s, P s → P (statSample x0 x1 s) := by
  have A := A.mono h
  clear h
  have kModStat := modStat_keeps A rfl
  have kModLog := modLog_keeps A rfl
  intro x0 x1 s  hs
  unfold statSample
  repeat' first
    | with_reducible first
        | assumption | refine kModStat _ _ _  ?_ | refine kModLog _ _  ?_
    | (extract_lets -underBinder +onlyGivenNames x; refine keeps_fact (P := P) (v := x) ?_ ?_; rotate_left; clear_value x; revert x; intro _ _; rotate_left; unfold x; clear x)
    | (extract_lets -underBinder +onlyGivenNames x; clear_value x; revert x; intro _)
    | intro _
    | split

theorem statSnapshot_keeps (A : Allows P m) (h : m &&& 1610614784 = 1610614784) :
    ∀ s, P s → P (statSnapshot s) := by
  have A := A.mono h
  clear h
  have kLogCnt := logCnt_keeps A rfl
  have kModFlash := modFlash_keeps A rfl
  have kModLog := modLog_keeps A rfl
  intro s  hs
  unfold statSnapshot
  repeat' first
    | with_reducible first
        | assumption | refine kLogCnt _ _  ?_ | refine kModFlash _ _  ?_ | refine kModLog _ _  ?_
    | (extract_lets -underBinder +onlyGivenNames x; refine keeps_fact (P := P) (v := x) ?_ ?_; rotate_left; clear_value x; revert x; intro _ _; rotate_left; unfold x; clear x)
    | (extract_lets -underBinder +onlyGivenNames x; clear_value x; revert x; intro _)
    | intro _
    | split

theorem loadCursor_keeps (A : Allows P m) (h : m &&& 1073741824 = 1073741824) :
    ∀ x0 s, P s → P (loadCursor x0 s) := by
  have A := A.mono h
  clear h
  have kModLog := modLog_keeps A rfl
  intro x0 s  hs
  unfold loadCursor
  repeat' first
    | with_reducible first
        | assumption | refine kModLog _ _  ?_
    | intro _

theorem cursorWrite_keeps (A : Allows P m) (h : m &&& 1073741888 = 1073741888) :
    ∀ x0 s, P s → P (cursorWrite x0 s) := by
  have A := A.mono h
  clear h
  have kPutReg := putReg_keeps A rfl
  have kLoadCursor := loadCursor_keeps A rfl
  intro x0 s  hs
  unfold cursorWrite
  repeat' first
    | with_reducible first
        | assumption | refine kPutReg _ _ _  ?_ | refine kLoadCursor _ _  ?_
    | (extract_lets -underBinder +onlyGivenNames x; refine keeps_fact (P := P) (v := x) ?_ ?_; rotate_left; clear_value x; revert x; intro _ _; rotate_left; unfold x; clear x)
    | (extract_lets -underBinder +onlyGivenNames x; clear_value x; revert x; intro _)

theorem windowReady_keeps (A : Allows P m) (h : m &&& 1073741824 = 1073741824) :
    ∀ s, P s → P (windowReady s) := by
  have A := A.mono h
  clear h
  have kModLog := modLog_keeps A rfl
  intro s  hs
  unfold windowReady
  repeat' first
    | with_reducible first
        | assumption | refine kModLog _ _  ?_
    | (extract_lets -underBinder +onlyGivenNames x; refine keeps_fact (P := P) (v := x) ?_ ?_; rotate_left; clear_value x; revert x; intro _ _; rotate_left; unfold x; clear x)
    | (extract_lets -underBinder +onlyGivenNames x; clear_value x; revert x; intro _)
    | intro _
    | split
    | with_reducible first | refine keeps_pair (by with_reducible assumption) ?_ | refine keeps_triple (by with_reducible assumption) ?_ | refine keeps_pairL (by with_reducible assumption) ?_

theorem win7Read_keeps (A : Allows P m) (h : m &&& 1073742016 = 1073742016) :
    ∀ s, P s → P (win7Read s) := by
  have A := A.mono h
  clear h
  have kLoadCursor := loadCursor_keeps A rfl
  have kPutReg := putReg_keeps A rfl
  intro s  hs
  unfold win7Read
  repeat' first
    | with_reducible first
        | assumption | refine kLoadCursor _ _  ?_ | refine kPutReg _ _ _  ?_
    | (extract_lets -underBinder +onlyGivenNames x; refine keeps_fact (P := P) (v := x) ?_ ?_; rotate_left; clear_value x; revert x; intro _ _; rotate_left; unfold x; clear x)
    | (extract_lets -underBinder +onlyGivenNames x; clear_value x; revert x; intro _)
    | split
    | with_reducible first | refine A.readData rfl _ _ ?_

theorem statSelWrite_keeps (A : Allows P m) (h : m &&& 1073741888 = 1073741888) :
    ∀ x0 s, P s → P (statSelWrite x0 s) := by
  have A := A.mono h
  clear h
  have kModLog := modLog_keeps A rfl
  have kPutReg := putReg_keeps A rfl
  intro x0 s  hs
  unfold statSelWrite
  repeat' first
    | with_reducible first
        | assumption | refine kModLog _ _  ?_ | refine kPutReg _ _ _  ?_
    | (extract_lets -underBinder +onlyGivenNames x; refine keeps_fact (P := P) (v := x) ?_ ?_; rotate_left; clear_value x; revert x; intro _ _; rotate_left; unfold x; clear x)
    | (extract_lets -underBinder +onlyGivenNames x; clear_value x; revert x; intro _)
    | intro _

theorem setFreeze_keeps (A : Allows P m) (h : m &&& 10200553760 = 10200553760) :
    ∀ x0 s, P s → P (setFreeze x0 s) := by
  have A := A.mono h
  clear h
  have kFreezeCheck := freezeCheck_keeps A rfl
  have kModLog := modLog_keeps A rfl
  intro x0 s  hs
  unfold setFreeze
  repeat' first
    | with_reducible first
        | assumption | refine kFreezeCheck _  ?_ | refine kModLog _ _  ?_
    | intro _

theorem clearLog_keeps (A : Allows P m) (h : m &&& 12482255136 = 12482255136) :
    ∀ s, P s → P (clearLog s) := by
  have A := A.mono h
  clear h
  have kModLcs := modLcs_keeps A rfl
  have kModLog := modLog_keeps A rfl
  have kModFlash := modFlash_keeps A rfl
  have kAppendRec := appendRec_keeps A rfl
  have kToRing := toRing_keeps A rfl
  have kGuardCheck := guardCheck_keeps A rfl
  have kLogLostRec := logLostRec_keeps A rfl
  intro s  hs
  unfold clearLog
  repeat' first
    | with_reducible first
        | assumption | refine kModLcs _ _  ?_ | refine kModLog _ _  ?_ | refine kModFlash _ _  ?_
        | refine kAppendRec _ _ _ _ _  ?_ | refine kToRing _ _ _  ?_ | refine kGuardCheck _  ?_
        | refine kLogLostRec _  ?_
    | (extract_lets -underBinder +onlyGivenNames x; refine keeps_fact (P := P) (v := x) ?_ ?_; rotate_left; clear_value x; revert x; intro _ _; rotate_left; unfold x; clear x)
    | (extract_lets -underBinder +onlyGivenNames x; clear_value x; revert x; intro _)
    | intro _
    | split
    | with_reducible first | refine keeps_pair (by with_reducible assumption) ?_ | refine keeps_triple (by with_reducible assumption) ?_ | refine keeps_pairL (by with_reducible assumption) ?_ | refine A.raised rfl _ _ ?_

theorem clearWrite_keeps (A : Allows P m) (h : m &&& 12482255136 = 12482255136) :
    ∀ s, P s → P (clearWrite s) := by
  have A := A.mono h
  clear h
  have kClearLog := clearLog_keeps A rfl
  have kRaise := raise_keeps A rfl
  have kLogCnt := logCnt_keeps A rfl
  intro s  hs
  unfold clearWrite
  repeat' first
    | with_reducible first
        | assumption | refine kClearLog _  ?_ | refine kRaise _ _ _ _ _ _ _  ?_ | refine kLogCnt _ _  ?_
    | split

theorem logCtrlWrite_keeps (A : Allows P m) (h : m &&& 12482255200 = 12482255200) :
    ∀ x0 s, P s → P (logCtrlWrite x0 s) := by
  have A := A.mono h
  clear h
  have kSetFreeze := setFreeze_keeps A rfl
  have kPutReg := putReg_keeps A rfl
  have kClearWrite := clearWrite_keeps A rfl
  intro x0 s  hs
  unfold logCtrlWrite
  repeat' first
    | with_reducible first
        | assumption | refine kSetFreeze _ _  ?_ | refine kPutReg _ _ _  ?_ | refine kClearWrite _  ?_
    | (extract_lets -underBinder +onlyGivenNames x; refine keeps_fact (P := P) (v := x) ?_ ?_; rotate_left; clear_value x; revert x; intro _ _; rotate_left; unfold x; clear x)
    | (extract_lets -underBinder +onlyGivenNames x; clear_value x; revert x; intro _)
    | split

theorem clearEraseEnd_keeps (A : Allows P m) (h : m &&& 1073743872 = 1073743872) :
    ∀ s, P s → P (clearEraseEnd s) := by
  have A := A.mono h
  clear h
  have kCntAdd := cntAdd_keeps A rfl
  have kModLog := modLog_keeps A rfl
  intro s  hs
  unfold clearEraseEnd
  repeat' first
    | with_reducible first
        | assumption | refine kCntAdd _ _ _ _ _  ?_ | refine kModLog _ _  ?_
    | intro _
    | split

theorem logCopyWrite_keeps (A : Allows P m) (h : m &&& 536870912 = 536870912) :
    ∀ x0 s, P s → P (logCopyWrite x0 s) := by
  have A := A.mono h
  clear h
  have kModFlash := modFlash_keeps A rfl
  intro x0 s  hs
  unfold logCopyWrite
  repeat' first
    | with_reducible first
        | assumption | refine kModFlash _ _  ?_
    | intro _

theorem execLogPersist_keeps (A : Allows P m) (h : m &&& 10334771488 = 10334771488) :
    ∀ x0 s, P s → ∀ t, execLogPersist x0 s = .next t → P t := by
  have A := A.mono h
  clear h
  have kLogPersist := logPersist_keeps A rfl
  intro x0 s  hs
  intro t e
  cases e
  repeat' first
    | with_reducible first
        | assumption | refine kLogPersist _ _  ?_ | refine each_keeps _ _ (fun _ _ _ => ?_) _ ?_
        | refine foldl_keeps _ _ (fun _ _ _ => ?_) _ ?_
    | (extract_lets -underBinder +onlyGivenNames x; refine keeps_fact (P := P) (v := x) ?_ ?_; rotate_left; clear_value x; revert x; intro _ _; rotate_left; unfold x; clear x)
    | (extract_lets -underBinder +onlyGivenNames x; refine keeps_fact2 (P := P) (v := x) ?_ ?_; rotate_left; clear_value x; revert x; intro _ _; rotate_left; unfold x; clear x)
    | (extract_lets -underBinder +onlyGivenNames x; have h := fun a => x a; clear h; unfold x; clear x)
    | (extract_lets -underBinder +onlyGivenNames x; clear_value x; revert x; intro _)
    | intro _
    | split
    | with_reducible first | refine keeps_pair (by with_reducible assumption) ?_ | refine keeps_triple (by with_reducible assumption) ?_ | refine keeps_pairL (by with_reducible assumption) ?_

theorem execStatSample_keeps (A : Allows P m) (h : m &&& 1073741824 = 1073741824) :
    ∀ x0 x1 s, P s → ∀ t, execStatSample x0 x1 s = .next t → P t := by
  have A := A.mono h
  clear h
  have kStatSample := statSample_keeps A rfl
  intro x0 x1 s  hs
  intro t e
  cases e
  repeat' first
    | with_reducible first
        | assumption | refine kStatSample _ _ _  ?_
    | (extract_lets -underBinder +onlyGivenNames x; refine keeps_fact (P := P) (v := x) ?_ ?_; rotate_left; clear_value x; revert x; intro _ _; rotate_left; unfold x; clear x)
    | (extract_lets -underBinder +onlyGivenNames x; clear_value x; revert x; intro _)
    | intro _
    | split
    | with_reducible first | refine keeps_pair (by with_reducible assumption) ?_ | refine keeps_triple (by with_reducible assumption) ?_ | refine keeps_pairL (by with_reducible assumption) ?_

theorem execStatSnapshot_keeps (A : Allows P m) (h : m &&& 1610614784 = 1610614784) :
    ∀ s, P s → ∀ t, execStatSnapshot s = .next t → P t := by
  have A := A.mono h
  clear h
  have kStatSnapshot := statSnapshot_keeps A rfl
  intro s  hs
  intro t e
  cases e
  repeat' first
    | with_reducible first
        | assumption | refine kStatSnapshot _  ?_
    | (extract_lets -underBinder +onlyGivenNames x; refine keeps_fact (P := P) (v := x) ?_ ?_; rotate_left; clear_value x; revert x; intro _ _; rotate_left; unfold x; clear x)
    | (extract_lets -underBinder +onlyGivenNames x; clear_value x; revert x; intro _)
    | intro _
    | split
    | with_reducible first | refine keeps_pair (by with_reducible assumption) ?_ | refine keeps_triple (by with_reducible assumption) ?_ | refine keeps_pairL (by with_reducible assumption) ?_

theorem execLogWindowReady_keeps (A : Allows P m) (h : m &&& 1073741824 = 1073741824) :
    ∀ s, P s → ∀ t, execLogWindowReady s = .next t → P t := by
  have A := A.mono h
  clear h
  have kWindowReady := windowReady_keeps A rfl
  intro s  hs
  intro t e
  cases e
  repeat' first
    | with_reducible first
        | assumption | refine kWindowReady _  ?_
    | (extract_lets -underBinder +onlyGivenNames x; refine keeps_fact (P := P) (v := x) ?_ ?_; rotate_left; clear_value x; revert x; intro _ _; rotate_left; unfold x; clear x)
    | (extract_lets -underBinder +onlyGivenNames x; clear_value x; revert x; intro _)
    | intro _
    | split
    | with_reducible first | refine keeps_pair (by with_reducible assumption) ?_ | refine keeps_triple (by with_reducible assumption) ?_ | refine keeps_pairL (by with_reducible assumption) ?_

theorem execLogClearEraseEnd_keeps (A : Allows P m) (h : m &&& 1073743872 = 1073743872) :
    ∀ s, P s → ∀ t, execLogClearEraseEnd s = .next t → P t := by
  have A := A.mono h
  clear h
  have kClearEraseEnd := clearEraseEnd_keeps A rfl
  intro s  hs
  intro t e
  cases e
  repeat' first
    | with_reducible first
        | assumption | refine kClearEraseEnd _  ?_
    | (extract_lets -underBinder +onlyGivenNames x; refine keeps_fact (P := P) (v := x) ?_ ?_; rotate_left; clear_value x; revert x; intro _ _; rotate_left; unfold x; clear x)
    | (extract_lets -underBinder +onlyGivenNames x; clear_value x; revert x; intro _)
    | intro _
    | split
    | with_reducible first | refine keeps_pair (by with_reducible assumption) ?_ | refine keeps_triple (by with_reducible assumption) ?_ | refine keeps_pairL (by with_reducible assumption) ?_

end Sys2Proof.Laws
end

