-- ==== Sys2Proof/Laws/RegRead.lean ====
section
/-! SUPPORT. What each operation of Machine/RegRead.lean can change (Laws/Keeps.lean). -/

namespace Sys2Proof.Laws

open Sys2Proof.Machine

variable {P : State → Prop} {m : Nat}

theorem regRead_keeps (A : Allows P m) (h : m &&& 8 = 8) :
    ∀ x0 s, P s → P (regRead x0 s).2 := by
  have A := A.mono h
  clear h
  have kUseFree := useFree_keeps A rfl
  intro x0 s  hs
  unfold regRead
  repeat' first
    | with_reducible first
        | assumption | refine kUseFree _  ?_
    | (extract_lets -underBinder +onlyGivenNames x; refine keeps_fact (P := P) (v := x) ?_ ?_; rotate_left; clear_value x; revert x; intro _ _; rotate_left; unfold x; clear x)
    | (extract_lets -underBinder +onlyGivenNames x; clear_value x; revert x; intro _)
    | split
    | with_reducible first | refine keeps_pair (by with_reducible assumption) ?_ | refine keeps_triple (by with_reducible assumption) ?_ | refine keeps_pairL (by with_reducible assumption) ?_

end Sys2Proof.Laws
end

