-- ==== Sys2Proof/Laws/Start.lean ====
section
/-! SUPPORT. What each operation of Machine/Start.lean can change (Laws/Keeps.lean). -/

namespace Sys2Proof.Laws

open Sys2Proof.Machine

variable {P : State → Prop} {m : Nat}

theorem resetDevice_keeps (A : Allows P m) (h : m &&& 16642997968 = 16642997968) :
    ∀ x0 x1 s, P s → P (resetDevice x0 x1 s) := by
  have A := A.mono h
  intro kind keeps s hs
  have wipe : ∀ (t : State) fw hb cu lo lc pw, P t → P { t with
      actor := none, regs := [], readData := 0, mem := keptMem t keeps, cnt := [], hif := {}, pkts := [], nextPkt := 0
      cls := {}, fwd := fw, flow := {}, pipes := [], aligned := [], ctimeBase := 0, tsk := {}, buf := {}, fab := {}
      egs := { wire := t.egs.wire }, tim := {}, hbm := hb, chk := {}, cus := cu, log := lo, lcs := lc, pwr := pw
      smb := {} } := by
    intro t fw hb cu lo lc pw ht
    have a0 := A.actor rfl t (none) ht
    have a1 := A.regs rfl _ ([]) a0
    have a2 := A.readData rfl _ (0) a1
    have a3 : P { t with actor := none, regs := [], readData := 0, mem := keptMem t keeps } := A.memDrop rfl { t with actor := none, regs := [], readData := 0 } _ a2
    have a4 : P { t with actor := none, regs := [], readData := 0, mem := keptMem t keeps, cnt := [] } := by
      have q := A.cntDrop rfl { t with actor := none, regs := [], readData := 0, mem := keptMem t keeps } (fun _ => false) a3
      rw [drop_all] at q
      exact q
    have a5 := A.hif rfl _ ({}) a4
    have a6 := A.pkts rfl _ ([]) a5
    have a7 := A.nextPkt rfl _ (0) a6
    have a8 := A.cls rfl _ ({}) a7
    have a9 := A.fwd rfl _ (fw) a8
    have a10 := A.flow rfl _ ({}) a9
    have a11 := A.pipes rfl _ ([]) a10
    have a12 := A.aligned rfl _ ([]) a11
    have a13 := A.ctimeBase rfl _ (0) a12
    have a14 := A.tsk rfl _ ({}) a13
    have a15 := A.buf rfl _ ({}) a14
    have a16 := A.fab rfl _ ({}) a15
    have a17 := A.egs rfl _ ({ wire := t.egs.wire }) a16
    have a18 := A.tim rfl _ ({}) a17
    have a19 := A.hbm rfl _ (hb) a18
    have a20 := A.chk rfl _ ({}) a19
    have a21 := A.cus rfl _ (cu) a20
    have a22 := A.log rfl _ (lo) a21
    have a23 := A.lcs rfl _ (lc) a22
    have a24 := A.pwr rfl _ (pw) a23
    have a25 := A.smb rfl _ ({}) a24
    exact a25
  have drop : P { s with tmem := [] } := by
    have q := A.tmemDrop rfl s (fun _ => false) hs
    rw [drop_all] at q
    exact q
  unfold resetDevice
  dsimp only
  cases mirrorKept s keeps
  · exact wipe _ _ _ _ _ _ _ drop
  · exact wipe _ _ _ _ _ _ _ hs

theorem chipReset_keeps (A : Allows P m) (h : m &&& 16642997968 = 16642997968) :
    ∀ x0 s, P s → P (chipReset x0 s) := by
  have A := A.mono h
  clear h
  have kResetDevice := resetDevice_keeps A rfl
  intro x0 s  hs
  unfold chipReset
  repeat' first
    | with_reducible first
        | assumption | refine kResetDevice _ _ _  ?_
    | split

theorem powerOn_keeps (A : Allows P m) (h : m &&& 16642997968 = 16642997968) :
    ∀ s, P s → P (powerOn s) := by
  have A := A.mono h
  clear h
  have kResetDevice := resetDevice_keeps A rfl
  intro s  hs
  unfold powerOn
  repeat' first
    | with_reducible first
        | assumption | refine kResetDevice _ _ _  ?_
    | intro _

theorem compareCopies_keeps (A : Allows P m) (h : m &&& 12482255136 = 12482255136) :
    ∀ s, P s → P (compareCopies s) := by
  have A := A.mono h
  clear h
  have kModLcs := modLcs_keeps A rfl
  have kRaise := raise_keeps A rfl
  intro s  hs
  unfold compareCopies
  repeat' first
    | with_reducible first
        | assumption | refine kModLcs _ _  ?_ | refine kRaise _ _ _ _ _ _ _  ?_
        | refine each_keeps _ _ (fun _ _ _ => ?_) _ ?_
    | (extract_lets -underBinder +onlyGivenNames x; refine keeps_fact (P := P) (v := x) ?_ ?_; rotate_left; clear_value x; revert x; intro _ _; rotate_left; unfold x; clear x)
    | (extract_lets -underBinder +onlyGivenNames x; have h := fun a => x a; clear h; unfold x; clear x)
    | (extract_lets -underBinder +onlyGivenNames x; clear_value x; revert x; intro _)
    | intro _
    | split

theorem loadMap_keeps (A : Allows P m) (h : m &&& 603979776 = 603979776) :
    ∀ s, P s → P (loadMap s) := by
  have A := A.mono h
  clear h
  have kModHbm := modHbm_keeps A rfl
  have kModFlash := modFlash_keeps A rfl
  intro s  hs
  unfold loadMap
  repeat' first
    | with_reducible first
        | assumption | refine kModHbm _ _  ?_ | refine kModFlash _ _  ?_
    | (extract_lets -underBinder +onlyGivenNames x; refine keeps_fact (P := P) (v := x) ?_ ?_; rotate_left; clear_value x; revert x; intro _ _; rotate_left; unfold x; clear x)
    | (extract_lets -underBinder +onlyGivenNames x; clear_value x; revert x; intro _)
    | intro _
    | split
    | with_reducible first | refine keeps_pair (by with_reducible assumption) ?_ | refine keeps_triple (by with_reducible assumption) ?_ | refine keeps_pairL (by with_reducible assumption) ?_

theorem retainStacks_keeps (A : Allows P m) (h : m &&& 10670317344 = 10670317344) :
    ∀ x0 s, P s → P (retainStacks x0 s) := by
  have A := A.mono h
  intro out s hs
  have kM := modHbm_keeps A rfl
  have kC := modCus_keeps A rfl
  have kS := modStack_keeps A rfl
  have kR := raise_keeps A rfl
  have k : ∀ keep : Nat → Bool, P { s with mem := keptMem s keep, tmem := if mirrorKept s keep then s.tmem else [] } := by
    intro keep
    have h1 : P { s with mem := keptMem s keep } := A.memDrop rfl s _ hs
    cases mirrorKept s keep
    · have q := A.tmemDrop rfl _ (fun _ => false) h1
      rw [drop_all] at q
      exact q
    · exact h1
  unfold retainStacks
  exact each_keeps _ _ (fun d t ht => kR _ _ _ _ _ _ _ ht) _
    (each_keeps _ _ (fun d t ht => kS _ _ _ ht) _ (kC _ _ (kM _ _ (k _))))

theorem resumeMig_keeps (A : Allows P m) (h : m &&& 67108864 = 67108864) :
    ∀ s, P s → P (resumeMig s) := by
  have A := A.mono h
  clear h
  have kModHbm := modHbm_keeps A rfl
  intro s  hs
  unfold resumeMig
  repeat' first
    | with_reducible first
        | assumption | refine kModHbm _ _  ?_
    | (extract_lets -underBinder +onlyGivenNames x; refine keeps_fact (P := P) (v := x) ?_ ?_; rotate_left; clear_value x; revert x; intro _ _; rotate_left; unfold x; clear x)
    | (extract_lets -underBinder +onlyGivenNames x; clear_value x; revert x; intro _)
    | intro _
    | split
    | with_reducible first | refine keeps_pair (by with_reducible assumption) ?_ | refine keeps_triple (by with_reducible assumption) ?_ | refine keeps_pairL (by with_reducible assumption) ?_

theorem trainLinks_keeps (A : Allows P m) (h : m &&& 8388608 = 8388608) :
    ∀ s, P s → P (trainLinks s) := by
  have A := A.mono h
  clear h
  have kModDieLink := modDieLink_keeps A rfl
  intro s  hs
  unfold trainLinks
  repeat' first
    | with_reducible first
        | assumption | refine kModDieLink _ _ _  ?_ | refine each_keeps _ _ (fun _ _ _ => ?_) _ ?_
    | intro _

theorem loadLifetime_keeps (A : Allows P m) (h : m &&& 1073741824 = 1073741824) :
    ∀ s, P s → P (loadLifetime s) := by
  have A := A.mono h
  clear h
  have kModLog := modLog_keeps A rfl
  intro s  hs
  unfold loadLifetime
  repeat' first
    | with_reducible first
        | assumption | refine kModLog _ _  ?_
    | intro _
    | split
    | with_reducible first | refine keeps_pair (by with_reducible assumption) ?_ | refine keeps_triple (by with_reducible assumption) ?_ | refine keeps_pairL (by with_reducible assumption) ?_

theorem bootRecord_keeps (A : Allows P m) (h : m &&& 14629738784 = 14629738784) :
    ∀ s, P s → P (bootRecord s) := by
  have A := A.mono h
  clear h
  have kModPwr := modPwr_keeps A rfl
  have kModFlash := modFlash_keeps A rfl
  have kRaise := raise_keeps A rfl
  have kLogCnt := logCnt_keeps A rfl
  intro s  hs
  unfold bootRecord
  repeat' first
    | with_reducible first
        | assumption | refine kModPwr _ _  ?_ | refine kModFlash _ _  ?_ | refine kRaise _ _ _ _ _ _ _  ?_
        | refine kLogCnt _ _  ?_
    | (extract_lets -underBinder +onlyGivenNames x; refine keeps_fact (P := P) (v := x) ?_ ?_; rotate_left; clear_value x; revert x; intro _ _; rotate_left; unfold x; clear x)
    | (extract_lets -underBinder +onlyGivenNames x; clear_value x; revert x; intro _)
    | intro _
    | split

theorem startUp_keeps (A : Allows P m) (h : m &&& 17177689976 = 17177689976) :
    ∀ x0 x1 x2 x3 s, P s → P (startUp x0 x1 x2 x3 s) := by
  have A := A.mono h
  clear h
  intro bifur flashOk differ out s hs
  have kTwo : ∀ (t : State) x y, P t → P { t with ctimeBase := x, aligned := y } := fun t x y ht =>
    A.aligned rfl { t with ctimeBase := x } y (A.ctimeBase rfl t x ht)
  unfold startUp
  split
  · exact hs
  · extract_lets -underBinder s1 s2 s3 s4 s5 s6 s7 s8 s9 s10
    have h1 : P s1 := modPwr_keeps A rfl _ _ hs
    have h2 : P s2 := modHif_keeps A rfl _ _ h1
    have h3 : P s3 := modLog_keeps A rfl _ _ h2
    have h4 : P s4 := putReg_keeps A rfl _ _ _ h3
    have h5 : P s5 := bootRecord_keeps A rfl _ (loadLifetime_keeps A rfl _ h4)
    have h6 : P s6 := renewNonce_keeps A rfl _ (compareCopies_keeps A rfl _ h5)
    have h7 : P s7 := each_keeps _ _ (fun d t ht => raise_keeps A rfl _ _ _ _ _ _ _ ht) _ h6
    have h8 : P s8 := resumeMig_keeps A rfl _ (retainStacks_keeps A rfl _ _ (loadMap_keeps A rfl _ h7))
    have h9 : P s9 := trainLinks_keeps A rfl _ (kTwo s8 _ _ h8)
    have h10 : P s10 := cntInc_keeps A rfl _ _ _ _ (modChk_keeps A rfl _ _ h9)
    split
    · exact beginZeroise_keeps A rfl _ (guardCheck_keeps A rfl _ h10)
    · exact guardCheck_keeps A rfl _ (setCusState_keeps A rfl _ _ _ (setCusState_keeps A rfl _ _ _ h10))

theorem stackFails_keeps (A : Allows P m) (h : m &&& 10401880352 = 10401880352) :
    ∀ x0 s, P s → P (stackFails x0 s) := by
  have A := A.mono h
  clear h
  have kSetMap := setMap_keeps A rfl
  have kRaise := raise_keeps A rfl
  have kSetRank := setRank_keeps A rfl
  intro x0 s  hs
  unfold stackFails
  repeat' first
    | with_reducible first
        | assumption | refine kSetMap _ _ _  ?_ | refine kRaise _ _ _ _ _ _ _  ?_ | refine kSetRank _ _ _  ?_
        | refine each_keeps _ _ (fun _ _ _ => ?_) _ ?_
    | (extract_lets -underBinder +onlyGivenNames x; refine keeps_fact (P := P) (v := x) ?_ ?_; rotate_left; clear_value x; revert x; intro _ _; rotate_left; unfold x; clear x)
    | (extract_lets -underBinder +onlyGivenNames x; clear_value x; revert x; intro _)
    | intro _
    | split
    | with_reducible first | refine keeps_pair (by with_reducible assumption) ?_ | refine keeps_triple (by with_reducible assumption) ?_ | refine keeps_pairL (by with_reducible assumption) ?_

theorem migStackFails_keeps (A : Allows P m) (h : m &&& 10401880352 = 10401880352) :
    ∀ x0 s, P s → P (migStackFails x0 s) := by
  have A := A.mono h
  clear h
  have kMigFail := migFail_keeps A rfl
  intro x0 s  hs
  unfold migStackFails
  repeat' first
    | with_reducible first
        | assumption | refine kMigFail _ _  ?_
    | split
    | with_reducible first | refine keeps_pair (by with_reducible assumption) ?_ | refine keeps_triple (by with_reducible assumption) ?_ | refine keeps_pairL (by with_reducible assumption) ?_

theorem quarantineDie_keeps (A : Allows P m) (h : m &&& 4294967296 = 4294967296) :
    ∀ x0 s, P s → P (quarantineDie x0 s) := by
  have A := A.mono h
  clear h
  have kModDomain := modDomain_keeps A rfl
  intro x0 s  hs
  unfold quarantineDie
  repeat' first
    | with_reducible first
        | assumption | refine kModDomain _ _ _  ?_ | refine each_keeps _ _ (fun _ _ _ => ?_) _ ?_
    | intro _

theorem freeList_keeps (A : Allows P m) (h : m &&& 131072 = 131072) :
    ∀ x0 x1 s, P s → P (freeList x0 x1 s) := by
  have A := A.mono h
  clear h
  have kModHalf := modHalf_keeps A rfl
  intro x0 x1 s  hs
  unfold freeList
  repeat' first
    | with_reducible first
        | assumption | refine kModHalf _ _ _  ?_ | refine foldl_keeps _ _ (fun _ _ _ => ?_) _ ?_
    | (extract_lets -underBinder +onlyGivenNames x; refine keeps_fact (P := P) (v := x) ?_ ?_; rotate_left; clear_value x; revert x; intro _ _; rotate_left; unfold x; clear x)
    | (extract_lets -underBinder +onlyGivenNames x; clear_value x; revert x; intro _)
    | intro _

theorem rebuildDie_keeps (A : Allows P m) (h : m &&& 132096 = 132096) :
    ∀ x0 s, P s → P (rebuildDie x0 s) := by
  have A := A.mono h
  clear h
  have kPutIdx := putIdx_keeps A rfl
  have kFreeList := freeList_keeps A rfl
  have kSetEnd := setEnd_keeps A rfl
  intro x0 s  hs
  unfold rebuildDie
  repeat' first
    | with_reducible first
        | assumption | refine kPutIdx _ _ _  ?_ | refine kFreeList _ _ _  ?_ | refine kSetEnd _ _ _  ?_
        | refine each_keeps _ _ (fun _ _ _ => ?_) _ ?_
    | (extract_lets -underBinder +onlyGivenNames x; refine keeps_fact (P := P) (v := x) ?_ ?_; rotate_left; clear_value x; revert x; intro _ _; rotate_left; unfold x; clear x)
    | (extract_lets -underBinder +onlyGivenNames x; clear_value x; revert x; intro _)
    | intro _

theorem hbmTrainingEnd_keeps (A : Allows P m) (h : m &&& 14696979744 = 14696979744) :
    ∀ x0 s, P s → P (hbmTrainingEnd x0 s) := by
  have A := A.mono h
  clear h
  have kModPwr := modPwr_keeps A rfl
  have kModStack := modStack_keeps A rfl
  have kStackFails := stackFails_keeps A rfl
  have kMigStackFails := migStackFails_keeps A rfl
  have kQuarantineDie := quarantineDie_keeps A rfl
  have kGuardCheck := guardCheck_keeps A rfl
  have kRebuildDie := rebuildDie_keeps A rfl
  intro x0 s  hs
  unfold hbmTrainingEnd
  repeat' first
    | with_reducible first
        | assumption | refine kModPwr _ _  ?_ | refine kModStack _ _ _  ?_ | refine kStackFails _ _  ?_
        | refine kMigStackFails _ _  ?_ | refine kQuarantineDie _ _  ?_ | refine kGuardCheck _  ?_
        | refine kRebuildDie _ _  ?_ | refine each_keeps _ _ (fun _ _ _ => ?_) _ ?_
    | (extract_lets -underBinder +onlyGivenNames x; refine keeps_fact (P := P) (v := x) ?_ ?_; rotate_left; clear_value x; revert x; intro _ _; rotate_left; unfold x; clear x)
    | (extract_lets -underBinder +onlyGivenNames x; clear_value x; revert x; intro _)
    | intro _
    | split

theorem startupReady_keeps (A : Allows P m) (h : m &&& 14629738784 = 14629738784) :
    ∀ s, P s → P (startupReady s) := by
  have A := A.mono h
  clear h
  have kRaise := raise_keeps A rfl
  have kModPwr := modPwr_keeps A rfl
  intro s  hs
  unfold startupReady
  repeat' first
    | with_reducible first
        | assumption | refine kRaise _ _ _ _ _ _ _  ?_ | refine kModPwr _ _  ?_
    | intro _
    | split

theorem supplyOut_keeps (A : Allows P m) (h : m &&& 10334771488 = 10334771488) :
    ∀ x0 s, P s → P (supplyOut x0 s) := by
  have A := A.mono h
  clear h
  have kModChk := modChk_keeps A rfl
  have kGuardCheck := guardCheck_keeps A rfl
  have kRaise := raise_keeps A rfl
  have kCntInc := cntInc_keeps A rfl
  intro x0 s  hs
  unfold supplyOut
  repeat' first
    | with_reducible first
        | assumption | refine kModChk _ _  ?_ | refine kGuardCheck _  ?_ | refine kRaise _ _ _ _ _ _ _  ?_
        | refine kCntInc _ _ _ _  ?_
    | (extract_lets -underBinder +onlyGivenNames x; refine keeps_fact (P := P) (v := x) ?_ ?_; rotate_left; clear_value x; revert x; intro _ _; rotate_left; unfold x; clear x)
    | (extract_lets -underBinder +onlyGivenNames x; clear_value x; revert x; intro _)
    | intro _
    | split

theorem railBack_keeps (A : Allows P m) (h : m &&& 10334771488 = 10334771488) :
    ∀ x0 s, P s → P (railBack x0 s) := by
  have A := A.mono h
  clear h
  have kGuardCheck := guardCheck_keeps A rfl
  have kModChk := modChk_keeps A rfl
  intro x0 s  hs
  unfold railBack
  repeat' first
    | with_reducible first
        | assumption | refine kGuardCheck _  ?_ | refine kModChk _ _  ?_
    | intro _

theorem dieTemp_keeps (A : Allows P m) (h : m &&& 14629738784 = 14629738784) :
    ∀ x0 x1 s, P s → P (dieTemp x0 x1 s) := by
  have A := A.mono h
  clear h
  have kGuardCheck := guardCheck_keeps A rfl
  have kThermCheck := thermCheck_keeps A rfl
  have kModPwr := modPwr_keeps A rfl
  intro x0 x1 s  hs
  unfold dieTemp
  repeat' first
    | with_reducible first
        | assumption | refine kGuardCheck _  ?_ | refine kThermCheck _ _ _ _  ?_ | refine kModPwr _ _  ?_
    | intro _
    | split

theorem thermtrip_keeps (A : Allows P m) (h : m &&& 16642997968 = 16642997968) :
    ∀ x0 s, P s → P (thermtrip x0 s) := by
  have A := A.mono h
  clear h
  have kModPwr := modPwr_keeps A rfl
  have kResetDevice := resetDevice_keeps A rfl
  intro x0 s  hs
  unfold thermtrip
  repeat' first
    | with_reducible first
        | assumption | refine kModPwr _ _  ?_ | refine kResetDevice _ _ _  ?_
    | intro _
    | split

theorem execPowerOn_keeps (A : Allows P m) (h : m &&& 16642997968 = 16642997968) :
    ∀ s, P s → ∀ t, execPowerOn s = .next t → P t := by
  have A := A.mono h
  clear h
  have kPowerOn := powerOn_keeps A rfl
  intro s  hs
  intro t e
  cases e
  repeat' first
    | with_reducible first
        | assumption | refine kPowerOn _  ?_ | refine each_keeps _ _ (fun _ _ _ => ?_) _ ?_
        | refine foldl_keeps _ _ (fun _ _ _ => ?_) _ ?_
    | (extract_lets -underBinder +onlyGivenNames x; refine keeps_fact (P := P) (v := x) ?_ ?_; rotate_left; clear_value x; revert x; intro _ _; rotate_left; unfold x; clear x)
    | (extract_lets -underBinder +onlyGivenNames x; refine keeps_fact2 (P := P) (v := x) ?_ ?_; rotate_left; clear_value x; revert x; intro _ _; rotate_left; unfold x; clear x)
    | (extract_lets -underBinder +onlyGivenNames x; have h := fun a => x a; clear h; unfold x; clear x)
    | (extract_lets -underBinder +onlyGivenNames x; clear_value x; revert x; intro _)
    | intro _
    | split
    | with_reducible first | refine keeps_pair (by with_reducible assumption) ?_ | refine keeps_triple (by with_reducible assumption) ?_ | refine keeps_pairL (by with_reducible assumption) ?_

theorem execChipResetPin_keeps (A : Allows P m) (h : m &&& 16642997968 = 16642997968) :
    ∀ s, P s → ∀ t, execChipResetPin s = .next t → P t := by
  have A := A.mono h
  clear h
  have kChipReset := chipReset_keeps A rfl
  intro s  hs
  intro t e
  cases e
  repeat' first
    | with_reducible first
        | assumption | refine kChipReset _ _  ?_
    | (extract_lets -underBinder +onlyGivenNames x; refine keeps_fact (P := P) (v := x) ?_ ?_; rotate_left; clear_value x; revert x; intro _ _; rotate_left; unfold x; clear x)
    | (extract_lets -underBinder +onlyGivenNames x; clear_value x; revert x; intro _)
    | intro _
    | split
    | with_reducible first | refine keeps_pair (by with_reducible assumption) ?_ | refine keeps_triple (by with_reducible assumption) ?_ | refine keeps_pairL (by with_reducible assumption) ?_

theorem execStartUp_keeps (A : Allows P m) (h : m &&& 17177689976 = 17177689976) :
    ∀ x0 x1 x2 x3 s, P s → ∀ t, execStartUp x0 x1 x2 x3 s = .next t → P t := by
  have A := A.mono h
  clear h
  have kStartUp := startUp_keeps A rfl
  intro x0 x1 x2 x3 s  hs
  intro t e
  cases e
  repeat' first
    | with_reducible first
        | assumption | refine kStartUp _ _ _ _ _  ?_
    | (extract_lets -underBinder +onlyGivenNames x; refine keeps_fact (P := P) (v := x) ?_ ?_; rotate_left; clear_value x; revert x; intro _ _; rotate_left; unfold x; clear x)
    | (extract_lets -underBinder +onlyGivenNames x; clear_value x; revert x; intro _)
    | intro _
    | split
    | with_reducible first | refine keeps_pair (by with_reducible assumption) ?_ | refine keeps_triple (by with_reducible assumption) ?_ | refine keeps_pairL (by with_reducible assumption) ?_

theorem execHbmTrainingEnd_keeps (A : Allows P m) (h : m &&& 14696979744 = 14696979744) :
    ∀ x0 s, P s → ∀ t, execHbmTrainingEnd x0 s = .next t → P t := by
  have A := A.mono h
  clear h
  have kHbmTrainingEnd := hbmTrainingEnd_keeps A rfl
  intro x0 s  hs
  intro t e
  cases e
  repeat' first
    | with_reducible first
        | assumption | refine kHbmTrainingEnd _ _  ?_
    | (extract_lets -underBinder +onlyGivenNames x; refine keeps_fact (P := P) (v := x) ?_ ?_; rotate_left; clear_value x; revert x; intro _ _; rotate_left; unfold x; clear x)
    | (extract_lets -underBinder +onlyGivenNames x; clear_value x; revert x; intro _)
    | intro _
    | split
    | with_reducible first | refine keeps_pair (by with_reducible assumption) ?_ | refine keeps_triple (by with_reducible assumption) ?_ | refine keeps_pairL (by with_reducible assumption) ?_

theorem execStartupReady_keeps (A : Allows P m) (h : m &&& 14629738784 = 14629738784) :
    ∀ s, P s → ∀ t, execStartupReady s = .next t → P t := by
  have A := A.mono h
  clear h
  have kStartupReady := startupReady_keeps A rfl
  intro s  hs
  intro t e
  cases e
  repeat' first
    | with_reducible first
        | assumption | refine kStartupReady _  ?_
    | (extract_lets -underBinder +onlyGivenNames x; refine keeps_fact (P := P) (v := x) ?_ ?_; rotate_left; clear_value x; revert x; intro _ _; rotate_left; unfold x; clear x)
    | (extract_lets -underBinder +onlyGivenNames x; clear_value x; revert x; intro _)
    | intro _
    | split
    | with_reducible first | refine keeps_pair (by with_reducible assumption) ?_ | refine keeps_triple (by with_reducible assumption) ?_ | refine keeps_pairL (by with_reducible assumption) ?_

theorem execSupplyOutOfRatings_keeps (A : Allows P m) (h : m &&& 10334771488 = 10334771488) :
    ∀ x0 s, P s → ∀ t, execSupplyOutOfRatings x0 s = .next t → P t := by
  have A := A.mono h
  clear h
  have kSupplyOut := supplyOut_keeps A rfl
  intro x0 s  hs
  intro t e
  cases e
  repeat' first
    | with_reducible first
        | assumption | refine kSupplyOut _ _  ?_
    | (extract_lets -underBinder +onlyGivenNames x; refine keeps_fact (P := P) (v := x) ?_ ?_; rotate_left; clear_value x; revert x; intro _ _; rotate_left; unfold x; clear x)
    | (extract_lets -underBinder +onlyGivenNames x; clear_value x; revert x; intro _)
    | intro _
    | split
    | with_reducible first | refine keeps_pair (by with_reducible assumption) ?_ | refine keeps_triple (by with_reducible assumption) ?_ | refine keeps_pairL (by with_reducible assumption) ?_

theorem execRailWithinTolerance_keeps (A : Allows P m) (h : m &&& 10334771488 = 10334771488) :
    ∀ x0 s, P s → ∀ t, execRailWithinTolerance x0 s = .next t → P t := by
  have A := A.mono h
  clear h
  have kRailBack := railBack_keeps A rfl
  intro x0 s  hs
  intro t e
  cases e
  repeat' first
    | with_reducible first
        | assumption | refine kRailBack _ _  ?_
    | (extract_lets -underBinder +onlyGivenNames x; refine keeps_fact (P := P) (v := x) ?_ ?_; rotate_left; clear_value x; revert x; intro _ _; rotate_left; unfold x; clear x)
    | (extract_lets -underBinder +onlyGivenNames x; clear_value x; revert x; intro _)
    | intro _
    | split
    | with_reducible first | refine keeps_pair (by with_reducible assumption) ?_ | refine keeps_triple (by with_reducible assumption) ?_ | refine keeps_pairL (by with_reducible assumption) ?_

theorem execDieTempReading_keeps (A : Allows P m) (h : m &&& 14629738784 = 14629738784) :
    ∀ x0 x1 s, P s → ∀ t, execDieTempReading x0 x1 s = .next t → P t := by
  have A := A.mono h
  clear h
  have kDieTemp := dieTemp_keeps A rfl
  intro x0 x1 s  hs
  intro t e
  cases e
  repeat' first
    | with_reducible first
        | assumption | refine kDieTemp _ _ _  ?_
    | (extract_lets -underBinder +onlyGivenNames x; refine keeps_fact (P := P) (v := x) ?_ ?_; rotate_left; clear_value x; revert x; intro _ _; rotate_left; unfold x; clear x)
    | (extract_lets -underBinder +onlyGivenNames x; clear_value x; revert x; intro _)
    | intro _
    | split
    | with_reducible first | refine keeps_pair (by with_reducible assumption) ?_ | refine keeps_triple (by with_reducible assumption) ?_ | refine keeps_pairL (by with_reducible assumption) ?_

theorem execThermtrip_keeps (A : Allows P m) (h : m &&& 16642997968 = 16642997968) :
    ∀ x0 s, P s → ∀ t, execThermtrip x0 s = .next t → P t := by
  have A := A.mono h
  clear h
  have kThermtrip := thermtrip_keeps A rfl
  intro x0 s  hs
  intro t e
  cases e
  repeat' first
    | with_reducible first
        | assumption | refine kThermtrip _ _  ?_
    | (extract_lets -underBinder +onlyGivenNames x; refine keeps_fact (P := P) (v := x) ?_ ?_; rotate_left; clear_value x; revert x; intro _ _; rotate_left; unfold x; clear x)
    | (extract_lets -underBinder +onlyGivenNames x; clear_value x; revert x; intro _)
    | intro _
    | split
    | with_reducible first | refine keeps_pair (by with_reducible assumption) ?_ | refine keeps_triple (by with_reducible assumption) ?_ | refine keeps_pairL (by with_reducible assumption) ?_

end Sys2Proof.Laws
end

