-- ==== Sys2Proof/Laws/RegRows.lean ====
section
/-! SUPPORT. What each operation of Machine/RegRows.lean can change (Laws/Keeps.lean). -/

namespace Sys2Proof.Laws

open Sys2Proof.Machine

variable {P : State → Prop} {m : Nat}

theorem onBit_keeps (A : Allows P m) (h : m &&& 0 = 0) :
    ∀ x0 x1 x2 s, (∀ t, P t → P (x2 t)) → P s → P (onBit x0 x1 x2 s) := by
  have A := A.mono h
  clear h
  intro x0 x1 x2 s k0 hs
  unfold onBit
  repeat' first
    | with_reducible first
        | assumption | refine k0 _ _ ?_ | refine k0 _ ?_
    | intro _
    | split

theorem hifCtrlWrite_keeps (A : Allows P m) (h : m &&& 14652946736 = 14652946736) :
    ∀ x0 x1 s, P s → P (hifCtrlWrite x0 x1 s) := by
  have A := A.mono h
  clear h
  have kOnBit := onBit_keeps A rfl
  have kCommitB := commitB_keeps A rfl
  have kCommitA := commitA_keeps A rfl
  have kResetLink := resetLink_keeps A rfl
  have kRestartLink := restartLink_keeps A rfl
  intro x0 x1 s  hs
  unfold hifCtrlWrite
  repeat' first
    | with_reducible first
        | assumption | refine kOnBit _ _ _ _ ?_ ?_ | refine kCommitB _ _  ?_ | refine kCommitA _  ?_
        | refine kResetLink _ _  ?_ | refine kRestartLink _ _  ?_ | refine each_keeps _ _ (fun _ _ _ => ?_) _ ?_
        | refine foldl_keeps _ _ (fun _ _ _ => ?_) _ ?_
    | (extract_lets -underBinder +onlyGivenNames x; refine keeps_fact (P := P) (v := x) ?_ ?_; rotate_left; clear_value x; revert x; intro _ _; rotate_left; unfold x; clear x)
    | (extract_lets -underBinder +onlyGivenNames x; refine keeps_fact2 (P := P) (v := x) ?_ ?_; rotate_left; clear_value x; revert x; intro _ _; rotate_left; unfold x; clear x)
    | (extract_lets -underBinder +onlyGivenNames x; have h := fun a => x a; clear h; unfold x; clear x)
    | (extract_lets -underBinder +onlyGivenNames x; clear_value x; revert x; intro _)
    | intro _
    | split
    | with_reducible first | refine keeps_pair (by with_reducible assumption) ?_ | refine keeps_triple (by with_reducible assumption) ?_ | refine keeps_pairL (by with_reducible assumption) ?_

theorem pwrCtrlWrite_keeps (A : Allows P m) (h : m &&& 17179869168 = 17179869168) :
    ∀ x0 x1 s, P s → P (pwrCtrlWrite x0 x1 s) := by
  have A := A.mono h
  clear h
  have kOnBit := onBit_keeps A rfl
  have kChipReset := chipReset_keeps A rfl
  have kCommitAll := commitAll_keeps A rfl
  intro x0 x1 s  hs
  unfold pwrCtrlWrite
  repeat' first
    | with_reducible first
        | assumption | refine kOnBit _ _ _ _ ?_ ?_ | refine kChipReset _ _  ?_ | refine kCommitAll _ _  ?_
        | refine each_keeps _ _ (fun _ _ _ => ?_) _ ?_ | refine foldl_keeps _ _ (fun _ _ _ => ?_) _ ?_
    | (extract_lets -underBinder +onlyGivenNames x; refine keeps_fact (P := P) (v := x) ?_ ?_; rotate_left; clear_value x; revert x; intro _ _; rotate_left; unfold x; clear x)
    | (extract_lets -underBinder +onlyGivenNames x; refine keeps_fact2 (P := P) (v := x) ?_ ?_; rotate_left; clear_value x; revert x; intro _ _; rotate_left; unfold x; clear x)
    | (extract_lets -underBinder +onlyGivenNames x; have h := fun a => x a; clear h; unfold x; clear x)
    | (extract_lets -underBinder +onlyGivenNames x; clear_value x; revert x; intro _)
    | intro _
    | split
    | with_reducible first | refine keeps_pair (by with_reducible assumption) ?_ | refine keeps_triple (by with_reducible assumption) ?_ | refine keeps_pairL (by with_reducible assumption) ?_

theorem infraSelWrite_keeps (A : Allows P m) (h : m &&& 536877120 = 536877120) :
    ∀ x0 x1 s, P s → P (infraSelWrite x0 x1 s) := by
  have A := A.mono h
  clear h
  have kLogCopyWrite := logCopyWrite_keeps A rfl
  have kPlainWrite := plainWrite_keeps A rfl
  intro x0 x1 s  hs
  unfold infraSelWrite
  repeat' first
    | with_reducible first
        | assumption | refine kLogCopyWrite _ _  ?_ | refine kPlainWrite _ _ _ _  ?_

theorem timCtrlWrite_keeps (A : Allows P m) (h : m &&& 10385103136 = 10385103136) :
    ∀ x0 s, P s → P (timCtrlWrite x0 s) := by
  have A := A.mono h
  clear h
  have kOnBit := onBit_keeps A rfl
  have kLatchSnap := latchSnap_keeps A rfl
  have kTimeUnitReset := timeUnitReset_keeps A rfl
  intro x0 s  hs
  unfold timCtrlWrite
  repeat' first
    | with_reducible first
        | assumption | refine kOnBit _ _ _ _ ?_ ?_ | refine kLatchSnap _  ?_ | refine kTimeUnitReset _ _  ?_
        | refine each_keeps _ _ (fun _ _ _ => ?_) _ ?_ | refine foldl_keeps _ _ (fun _ _ _ => ?_) _ ?_
    | (extract_lets -underBinder +onlyGivenNames x; refine keeps_fact (P := P) (v := x) ?_ ?_; rotate_left; clear_value x; revert x; intro _ _; rotate_left; unfold x; clear x)
    | (extract_lets -underBinder +onlyGivenNames x; refine keeps_fact2 (P := P) (v := x) ?_ ?_; rotate_left; clear_value x; revert x; intro _ _; rotate_left; unfold x; clear x)
    | (extract_lets -underBinder +onlyGivenNames x; have h := fun a => x a; clear h; unfold x; clear x)
    | (extract_lets -underBinder +onlyGivenNames x; clear_value x; revert x; intro _)
    | intro _
    | split
    | with_reducible first | refine keeps_pair (by with_reducible assumption) ?_ | refine keeps_triple (by with_reducible assumption) ?_ | refine keeps_pairL (by with_reducible assumption) ?_

theorem cusCtrlWrite_keeps (A : Allows P m) (h : m &&& 10670316832 = 10670316832) :
    ∀ x0 s, P s → P (cusCtrlWrite x0 s) := by
  have A := A.mono h
  clear h
  have kOnBit := onBit_keeps A rfl
  have kSelfTestRetry := selfTestRetry_keeps A rfl
  have kHandover := handover_keeps A rfl
  have kPreload := preload_keeps A rfl
  intro x0 s  hs
  unfold cusCtrlWrite
  repeat' first
    | with_reducible first
        | assumption | refine kOnBit _ _ _ _ ?_ ?_ | refine kSelfTestRetry _ _  ?_ | refine kHandover _  ?_
        | refine kPreload _  ?_ | refine each_keeps _ _ (fun _ _ _ => ?_) _ ?_
        | refine foldl_keeps _ _ (fun _ _ _ => ?_) _ ?_
    | (extract_lets -underBinder +onlyGivenNames x; refine keeps_fact (P := P) (v := x) ?_ ?_; rotate_left; clear_value x; revert x; intro _ _; rotate_left; unfold x; clear x)
    | (extract_lets -underBinder +onlyGivenNames x; refine keeps_fact2 (P := P) (v := x) ?_ ?_; rotate_left; clear_value x; revert x; intro _ _; rotate_left; unfold x; clear x)
    | (extract_lets -underBinder +onlyGivenNames x; have h := fun a => x a; clear h; unfold x; clear x)
    | (extract_lets -underBinder +onlyGivenNames x; clear_value x; revert x; intro _)
    | intro _
    | split
    | with_reducible first | refine keeps_pair (by with_reducible assumption) ?_ | refine keeps_triple (by with_reducible assumption) ?_ | refine keeps_pairL (by with_reducible assumption) ?_

theorem feedCfgWrite_keeps (A : Allows P m) (h : m &&& 134223944 = 134223944) :
    ∀ x0 x1 x2 s, P s → P (feedCfgWrite x0 x1 x2 s) := by
  have A := A.mono h
  clear h
  have kOnBit := onBit_keeps A rfl
  have kFeedStart := feedStart_keeps A rfl
  have kPlainWrite := plainWrite_keeps A rfl
  intro x0 x1 x2 s  hs
  unfold feedCfgWrite
  repeat' first
    | with_reducible first
        | assumption | refine kOnBit _ _ _ _ ?_ ?_ | refine kFeedStart _ _  ?_ | refine kPlainWrite _ _ _ _  ?_
        | refine each_keeps _ _ (fun _ _ _ => ?_) _ ?_ | refine foldl_keeps _ _ (fun _ _ _ => ?_) _ ?_
    | (extract_lets -underBinder +onlyGivenNames x; refine keeps_fact (P := P) (v := x) ?_ ?_; rotate_left; clear_value x; revert x; intro _ _; rotate_left; unfold x; clear x)
    | (extract_lets -underBinder +onlyGivenNames x; refine keeps_fact2 (P := P) (v := x) ?_ ?_; rotate_left; clear_value x; revert x; intro _ _; rotate_left; unfold x; clear x)
    | (extract_lets -underBinder +onlyGivenNames x; have h := fun a => x a; clear h; unfold x; clear x)
    | (extract_lets -underBinder +onlyGivenNames x; clear_value x; revert x; intro _)
    | intro _
    | split
    | with_reducible first | refine keeps_pair (by with_reducible assumption) ?_ | refine keeps_triple (by with_reducible assumption) ?_ | refine keeps_pairL (by with_reducible assumption) ?_

theorem lenWrite_keeps (A : Allows P m) (h : m &&& 71744 = 71744) :
    ∀ x0 x1 x2 x3 x4 s, P s → P (lenWrite x0 x1 x2 x3 x4 s) := by
  have A := A.mono h
  clear h
  have kPlainWrite := plainWrite_keeps A rfl
  have kFilterRelease := filterRelease_keeps A rfl
  intro x0 x1 x2 x3 x4 s  hs
  unfold lenWrite
  repeat' first
    | with_reducible first
        | assumption | refine kPlainWrite _ _ _ _  ?_ | refine kFilterRelease _ _ _ _  ?_
    | (extract_lets -underBinder +onlyGivenNames x; refine keeps_fact (P := P) (v := x) ?_ ?_; rotate_left; clear_value x; revert x; intro _ _; rotate_left; unfold x; clear x)
    | (extract_lets -underBinder +onlyGivenNames x; clear_value x; revert x; intro _)
    | split

theorem busWrite_keeps (A : Allows P m) (h : m &&& 17179869176 = 17179869176) :
    ∀ x0 x1 x2 s, P s → P (busWrite x0 x1 x2 s) := by
  have A := A.mono h
  clear h
  have kHifCtrlWrite := hifCtrlWrite_keeps A rfl
  have kOnBit := onBit_keeps A rfl
  have kModHif := modHif_keeps A rfl
  have kPwrCtrlWrite := pwrCtrlWrite_keeps A rfl
  have kInfraSelWrite := infraSelWrite_keeps A rfl
  have kTimCtrlWrite := timCtrlWrite_keeps A rfl
  have kCusCtrlWrite := cusCtrlWrite_keeps A rfl
  have kLogCtrlWrite := logCtrlWrite_keeps A rfl
  have kCursorWrite := cursorWrite_keeps A rfl
  have kStatSelWrite := statSelWrite_keeps A rfl
  have kFeedCfgWrite := feedCfgWrite_keeps A rfl
  have kFeedWrite := feedWrite_keeps A rfl
  have kMigCtrlWrite := migCtrlWrite_keeps A rfl
  have kRankCtrlWrite := rankCtrlWrite_keeps A rfl
  have kTokenGo := tokenGo_keeps A rfl
  have kModTsk := modTsk_keeps A rfl
  have kCheckServed := checkServed_keeps A rfl
  have kPlainWrite := plainWrite_keeps A rfl
  have kLenWrite := lenWrite_keeps A rfl
  have kGuardCheck := guardCheck_keeps A rfl
  intro x0 x1 x2 s  hs
  unfold busWrite
  repeat' first
    | with_reducible first
        | assumption | refine kHifCtrlWrite _ _ _  ?_ | refine kOnBit _ _ _ _ ?_ ?_ | refine kModHif _ _  ?_
        | refine kPwrCtrlWrite _ _ _  ?_ | refine kInfraSelWrite _ _ _  ?_ | refine kTimCtrlWrite _ _  ?_
        | refine kCusCtrlWrite _ _  ?_ | refine kLogCtrlWrite _ _  ?_ | refine kCursorWrite _ _  ?_
        | refine kStatSelWrite _ _  ?_ | refine kFeedCfgWrite _ _ _ _  ?_ | refine kFeedWrite _ _ _ _  ?_
        | refine kMigCtrlWrite _ _ _  ?_ | refine kRankCtrlWrite _ _ _  ?_ | refine kTokenGo _ _  ?_
        | refine kModTsk _ _  ?_ | refine kCheckServed _ _  ?_ | refine kPlainWrite _ _ _ _  ?_
        | refine kLenWrite _ _ _ _ _ _  ?_ | refine kGuardCheck _  ?_
    | intro _
    | split
    | with_reducible first | refine keeps_pair (by with_reducible assumption) ?_ | refine keeps_triple (by with_reducible assumption) ?_ | refine keeps_pairL (by with_reducible assumption) ?_

theorem regWrite_keeps (A : Allows P m) (h : m &&& 17179869176 = 17179869176) :
    ∀ x0 x1 x2 s, P s → P (regWrite x0 x1 x2 s) := by
  have A := A.mono h
  clear h
  have kRegWriteGate := regWriteGate_keeps A rfl
  have kBusWrite := busWrite_keeps A rfl
  intro x0 x1 x2 s  hs
  unfold regWrite
  repeat' first
    | with_reducible first
        | assumption | refine kRegWriteGate _ _ _ _ ?_ ?_ | refine kBusWrite _ _ _ _  ?_
        | refine each_keeps _ _ (fun _ _ _ => ?_) _ ?_ | refine foldl_keeps _ _ (fun _ _ _ => ?_) _ ?_
    | (extract_lets -underBinder +onlyGivenNames x; refine keeps_fact (P := P) (v := x) ?_ ?_; rotate_left; clear_value x; revert x; intro _ _; rotate_left; unfold x; clear x)
    | (extract_lets -underBinder +onlyGivenNames x; refine keeps_fact2 (P := P) (v := x) ?_ ?_; rotate_left; clear_value x; revert x; intro _ _; rotate_left; unfold x; clear x)
    | (extract_lets -underBinder +onlyGivenNames x; have h := fun a => x a; clear h; unfold x; clear x)
    | (extract_lets -underBinder +onlyGivenNames x; clear_value x; revert x; intro _)
    | intro _
    | split
    | with_reducible first | refine keeps_pair (by with_reducible assumption) ?_ | refine keeps_triple (by with_reducible assumption) ?_ | refine keeps_pairL (by with_reducible assumption) ?_

theorem bar2Write_keeps (A : Allows P m) (h : m &&& 4096 = 4096) :
    ∀ x0 x1 x2 s, P s → P (bar2Write x0 x1 x2 s) := by
  have A := A.mono h
  clear h
  have kModVec := modVec_keeps A rfl
  intro x0 x1 x2 s  hs
  unfold bar2Write
  repeat' first
    | with_reducible first
        | assumption | refine kModVec _ _ _ _  ?_
    | intro _
    | split
    | with_reducible first | refine keeps_pair (by with_reducible assumption) ?_ | refine keeps_triple (by with_reducible assumption) ?_ | refine keeps_pairL (by with_reducible assumption) ?_

theorem addrWrite_keeps (A : Allows P m) (h : m &&& 17179869176 = 17179869176) :
    ∀ x0 x1 x2 s, P s → P (addrWrite x0 x1 x2 s) := by
  have A := A.mono h
  clear h
  have kBar2Write := bar2Write_keeps A rfl
  have kRegWrite := regWrite_keeps A rfl
  intro x0 x1 x2 s  hs
  unfold addrWrite
  repeat' first
    | with_reducible first
        | assumption | refine kBar2Write _ _ _ _  ?_ | refine kRegWrite _ _ _ _  ?_
    | split
    | with_reducible first | refine keeps_pair (by with_reducible assumption) ?_ | refine keeps_triple (by with_reducible assumption) ?_ | refine keeps_pairL (by with_reducible assumption) ?_

theorem execRegisterWrite_keeps (A : Allows P m) (h : m &&& 17179869176 = 17179869176) :
    ∀ x0 x1 x2 s, P s → ∀ t, execRegisterWrite x0 x1 x2 s = .next t → P t := by
  have A := A.mono h
  clear h
  have kAddrWrite := addrWrite_keeps A rfl
  intro x0 x1 x2 s  hs
  intro t e
  cases e
  repeat' first
    | with_reducible first
        | assumption | refine kAddrWrite _ _ _ _  ?_ | refine each_keeps _ _ (fun _ _ _ => ?_) _ ?_
        | refine foldl_keeps _ _ (fun _ _ _ => ?_) _ ?_
    | (extract_lets -underBinder +onlyGivenNames x; refine keeps_fact (P := P) (v := x) ?_ ?_; rotate_left; clear_value x; revert x; intro _ _; rotate_left; unfold x; clear x)
    | (extract_lets -underBinder +onlyGivenNames x; refine keeps_fact2 (P := P) (v := x) ?_ ?_; rotate_left; clear_value x; revert x; intro _ _; rotate_left; unfold x; clear x)
    | (extract_lets -underBinder +onlyGivenNames x; have h := fun a => x a; clear h; unfold x; clear x)
    | (extract_lets -underBinder +onlyGivenNames x; clear_value x; revert x; intro _)
    | intro _
    | split
    | with_reducible first | refine keeps_pair (by with_reducible assumption) ?_ | refine keeps_triple (by with_reducible assumption) ?_ | refine keeps_pairL (by with_reducible assumption) ?_

theorem execCommitA_keeps (A : Allows P m) (h : m &&& 17179869176 = 17179869176) :
    ∀ x0 s, P s → ∀ t, execCommitA x0 s = .next t → P t := by
  have A := A.mono h
  clear h
  have kRegWrite := regWrite_keeps A rfl
  intro x0 s  hs
  intro t e
  cases e
  repeat' first
    | with_reducible first
        | assumption | refine kRegWrite _ _ _ _  ?_
    | (extract_lets -underBinder +onlyGivenNames x; refine keeps_fact (P := P) (v := x) ?_ ?_; rotate_left; clear_value x; revert x; intro _ _; rotate_left; unfold x; clear x)
    | (extract_lets -underBinder +onlyGivenNames x; clear_value x; revert x; intro _)
    | intro _
    | split
    | with_reducible first | refine keeps_pair (by with_reducible assumption) ?_ | refine keeps_triple (by with_reducible assumption) ?_ | refine keeps_pairL (by with_reducible assumption) ?_

theorem execCommitB_keeps (A : Allows P m) (h : m &&& 17179869176 = 17179869176) :
    ∀ x0 s, P s → ∀ t, execCommitB x0 s = .next t → P t := by
  have A := A.mono h
  clear h
  have kRegWrite := regWrite_keeps A rfl
  intro x0 s  hs
  intro t e
  cases e
  repeat' first
    | with_reducible first
        | assumption | refine kRegWrite _ _ _ _  ?_
    | (extract_lets -underBinder +onlyGivenNames x; refine keeps_fact (P := P) (v := x) ?_ ?_; rotate_left; clear_value x; revert x; intro _ _; rotate_left; unfold x; clear x)
    | (extract_lets -underBinder +onlyGivenNames x; clear_value x; revert x; intro _)
    | intro _
    | split
    | with_reducible first | refine keeps_pair (by with_reducible assumption) ?_ | refine keeps_triple (by with_reducible assumption) ?_ | refine keeps_pairL (by with_reducible assumption) ?_

theorem execCommitAll_keeps (A : Allows P m) (h : m &&& 17179869176 = 17179869176) :
    ∀ x0 s, P s → ∀ t, execCommitAll x0 s = .next t → P t := by
  have A := A.mono h
  clear h
  have kRegWrite := regWrite_keeps A rfl
  intro x0 s  hs
  intro t e
  cases e
  repeat' first
    | with_reducible first
        | assumption | refine kRegWrite _ _ _ _  ?_
    | (extract_lets -underBinder +onlyGivenNames x; refine keeps_fact (P := P) (v := x) ?_ ?_; rotate_left; clear_value x; revert x; intro _ _; rotate_left; unfold x; clear x)
    | (extract_lets -underBinder +onlyGivenNames x; clear_value x; revert x; intro _)
    | intro _
    | split
    | with_reducible first | refine keeps_pair (by with_reducible assumption) ?_ | refine keeps_triple (by with_reducible assumption) ?_ | refine keeps_pairL (by with_reducible assumption) ?_

theorem execLogCopySelect_keeps (A : Allows P m) (h : m &&& 17179869176 = 17179869176) :
    ∀ x0 x1 s, P s → ∀ t, execLogCopySelect x0 x1 s = .next t → P t := by
  have A := A.mono h
  clear h
  have kRegWrite := regWrite_keeps A rfl
  intro x0 x1 s  hs
  intro t e
  cases e
  repeat' first
    | with_reducible first
        | assumption | refine kRegWrite _ _ _ _  ?_
    | (extract_lets -underBinder +onlyGivenNames x; refine keeps_fact (P := P) (v := x) ?_ ?_; rotate_left; clear_value x; revert x; intro _ _; rotate_left; unfold x; clear x)
    | (extract_lets -underBinder +onlyGivenNames x; clear_value x; revert x; intro _)
    | intro _
    | split
    | with_reducible first | refine keeps_pair (by with_reducible assumption) ?_ | refine keeps_triple (by with_reducible assumption) ?_ | refine keeps_pairL (by with_reducible assumption) ?_

theorem execChipResetRegister_keeps (A : Allows P m) (h : m &&& 17179869176 = 17179869176) :
    ∀ x0 s, P s → ∀ t, execChipResetRegister x0 s = .next t → P t := by
  have A := A.mono h
  clear h
  have kRegWrite := regWrite_keeps A rfl
  intro x0 s  hs
  intro t e
  cases e
  repeat' first
    | with_reducible first
        | assumption | refine kRegWrite _ _ _ _  ?_
    | (extract_lets -underBinder +onlyGivenNames x; refine keeps_fact (P := P) (v := x) ?_ ?_; rotate_left; clear_value x; revert x; intro _ _; rotate_left; unfold x; clear x)
    | (extract_lets -underBinder +onlyGivenNames x; clear_value x; revert x; intro _)
    | intro _
    | split
    | with_reducible first | refine keeps_pair (by with_reducible assumption) ?_ | refine keeps_triple (by with_reducible assumption) ?_ | refine keeps_pairL (by with_reducible assumption) ?_

theorem hostInterfaceReset_keeps (A : Allows P m) (h : m &&& 17179869176 = 17179869176) :
    ∀ x0 x1 s, P s → P (hostInterfaceReset x0 x1 s) := by
  have A := A.mono h
  clear h
  have kResetLink := resetLink_keeps A rfl
  have kLinkDown := linkDown_keeps A rfl
  have kModHif := modHif_keeps A rfl
  have kRegWrite := regWrite_keeps A rfl
  intro x0 x1 s  hs
  unfold hostInterfaceReset
  repeat' first
    | with_reducible first
        | assumption | refine kResetLink _ _  ?_ | refine kLinkDown _ _  ?_ | refine kModHif _ _  ?_
        | refine kRegWrite _ _ _ _  ?_
    | intro _
    | split

theorem execHostInterfaceReset_keeps (A : Allows P m) (h : m &&& 17179869176 = 17179869176) :
    ∀ x0 x1 s, P s → ∀ t, execHostInterfaceReset x0 x1 s = .next t → P t := by
  have A := A.mono h
  clear h
  have kHostInterfaceReset := hostInterfaceReset_keeps A rfl
  intro x0 x1 s  hs
  intro t e
  cases e
  repeat' first
    | with_reducible first
        | assumption | refine kHostInterfaceReset _ _ _  ?_
    | split

theorem execRingRestart_keeps (A : Allows P m) (h : m &&& 17179869176 = 17179869176) :
    ∀ x0 x1 s, P s → ∀ t, execRingRestart x0 x1 s = .next t → P t := by
  have A := A.mono h
  clear h
  have kRegWrite := regWrite_keeps A rfl
  intro x0 x1 s  hs
  intro t e
  cases e
  repeat' first
    | with_reducible first
        | assumption | refine kRegWrite _ _ _ _  ?_
    | (extract_lets -underBinder +onlyGivenNames x; refine keeps_fact (P := P) (v := x) ?_ ?_; rotate_left; clear_value x; revert x; intro _ _; rotate_left; unfold x; clear x)
    | (extract_lets -underBinder +onlyGivenNames x; clear_value x; revert x; intro _)
    | intro _
    | split
    | with_reducible first | refine keeps_pair (by with_reducible assumption) ?_ | refine keeps_triple (by with_reducible assumption) ?_ | refine keeps_pairL (by with_reducible assumption) ?_

theorem execTimeUnitReset_keeps (A : Allows P m) (h : m &&& 17179869176 = 17179869176) :
    ∀ x0 s, P s → ∀ t, execTimeUnitReset x0 s = .next t → P t := by
  have A := A.mono h
  clear h
  have kRegWrite := regWrite_keeps A rfl
  intro x0 s  hs
  intro t e
  cases e
  repeat' first
    | with_reducible first
        | assumption | refine kRegWrite _ _ _ _  ?_
    | (extract_lets -underBinder +onlyGivenNames x; refine keeps_fact (P := P) (v := x) ?_ ?_; rotate_left; clear_value x; revert x; intro _ _; rotate_left; unfold x; clear x)
    | (extract_lets -underBinder +onlyGivenNames x; clear_value x; revert x; intro _)
    | intro _
    | split
    | with_reducible first | refine keeps_pair (by with_reducible assumption) ?_ | refine keeps_triple (by with_reducible assumption) ?_ | refine keeps_pairL (by with_reducible assumption) ?_

theorem execSnap_keeps (A : Allows P m) (h : m &&& 17179869176 = 17179869176) :
    ∀ x0 s, P s → ∀ t, execSnap x0 s = .next t → P t := by
  have A := A.mono h
  clear h
  have kRegWrite := regWrite_keeps A rfl
  intro x0 s  hs
  intro t e
  cases e
  repeat' first
    | with_reducible first
        | assumption | refine kRegWrite _ _ _ _  ?_
    | (extract_lets -underBinder +onlyGivenNames x; refine keeps_fact (P := P) (v := x) ?_ ?_; rotate_left; clear_value x; revert x; intro _ _; rotate_left; unfold x; clear x)
    | (extract_lets -underBinder +onlyGivenNames x; clear_value x; revert x; intro _)
    | intro _
    | split
    | with_reducible first | refine keeps_pair (by with_reducible assumption) ?_ | refine keeps_triple (by with_reducible assumption) ?_ | refine keeps_pairL (by with_reducible assumption) ?_

theorem execMigStart_keeps (A : Allows P m) (h : m &&& 17179869176 = 17179869176) :
    ∀ x0 x1 x2 s, P s → ∀ t, execMigStart x0 x1 x2 s = .next t → P t := by
  have A := A.mono h
  clear h
  have kRegWrite := regWrite_keeps A rfl
  intro x0 x1 x2 s  hs
  intro t e
  cases e
  repeat' first
    | with_reducible first
        | assumption | refine kRegWrite _ _ _ _  ?_
    | (extract_lets -underBinder +onlyGivenNames x; refine keeps_fact (P := P) (v := x) ?_ ?_; rotate_left; clear_value x; revert x; intro _ _; rotate_left; unfold x; clear x)
    | (extract_lets -underBinder +onlyGivenNames x; clear_value x; revert x; intro _)
    | intro _
    | split
    | with_reducible first | refine keeps_pair (by with_reducible assumption) ?_ | refine keeps_triple (by with_reducible assumption) ?_ | refine keeps_pairL (by with_reducible assumption) ?_

theorem execMigAbort_keeps (A : Allows P m) (h : m &&& 17179869176 = 17179869176) :
    ∀ x0 x1 x2 s, P s → ∀ t, execMigAbort x0 x1 x2 s = .next t → P t := by
  have A := A.mono h
  clear h
  have kRegWrite := regWrite_keeps A rfl
  intro x0 x1 x2 s  hs
  intro t e
  cases e
  repeat' first
    | with_reducible first
        | assumption | refine kRegWrite _ _ _ _  ?_
    | (extract_lets -underBinder +onlyGivenNames x; refine keeps_fact (P := P) (v := x) ?_ ?_; rotate_left; clear_value x; revert x; intro _ _; rotate_left; unfold x; clear x)
    | (extract_lets -underBinder +onlyGivenNames x; clear_value x; revert x; intro _)
    | intro _
    | split
    | with_reducible first | refine keeps_pair (by with_reducible assumption) ?_ | refine keeps_triple (by with_reducible assumption) ?_ | refine keeps_pairL (by with_reducible assumption) ?_

theorem execRankReenable_keeps (A : Allows P m) (h : m &&& 17179869176 = 17179869176) :
    ∀ x0 x1 x2 s, P s → ∀ t, execRankReenable x0 x1 x2 s = .next t → P t := by
  have A := A.mono h
  clear h
  have kRegWrite := regWrite_keeps A rfl
  intro x0 x1 x2 s  hs
  intro t e
  cases e
  repeat' first
    | with_reducible first
        | assumption | refine kRegWrite _ _ _ _  ?_
    | (extract_lets -underBinder +onlyGivenNames x; refine keeps_fact (P := P) (v := x) ?_ ?_; rotate_left; clear_value x; revert x; intro _ _; rotate_left; unfold x; clear x)
    | (extract_lets -underBinder +onlyGivenNames x; clear_value x; revert x; intro _)
    | intro _
    | split
    | with_reducible first | refine keeps_pair (by with_reducible assumption) ?_ | refine keeps_triple (by with_reducible assumption) ?_ | refine keeps_pairL (by with_reducible assumption) ?_

theorem execFeedStart_keeps (A : Allows P m) (h : m &&& 17179869176 = 17179869176) :
    ∀ x0 x1 x2 s, P s → ∀ t, execFeedStart x0 x1 x2 s = .next t → P t := by
  have A := A.mono h
  clear h
  have kRegWrite := regWrite_keeps A rfl
  intro x0 x1 x2 s  hs
  intro t e
  cases e
  repeat' first
    | with_reducible first
        | assumption | refine kRegWrite _ _ _ _  ?_
    | (extract_lets -underBinder +onlyGivenNames x; refine keeps_fact (P := P) (v := x) ?_ ?_; rotate_left; clear_value x; revert x; intro _ _; rotate_left; unfold x; clear x)
    | (extract_lets -underBinder +onlyGivenNames x; clear_value x; revert x; intro _)
    | intro _
    | split
    | with_reducible first | refine keeps_pair (by with_reducible assumption) ?_ | refine keeps_triple (by with_reducible assumption) ?_ | refine keeps_pairL (by with_reducible assumption) ?_

theorem execChkFeedB_keeps (A : Allows P m) (h : m &&& 17179869176 = 17179869176) :
    ∀ x0 x1 x2 s, P s → ∀ t, execChkFeedB x0 x1 x2 s = .next t → P t := by
  have A := A.mono h
  clear h
  have kRegWrite := regWrite_keeps A rfl
  intro x0 x1 x2 s  hs
  intro t e
  cases e
  repeat' first
    | with_reducible first
        | assumption | refine kRegWrite _ _ _ _  ?_
    | (extract_lets -underBinder +onlyGivenNames x; refine keeps_fact (P := P) (v := x) ?_ ?_; rotate_left; clear_value x; revert x; intro _ _; rotate_left; unfold x; clear x)
    | (extract_lets -underBinder +onlyGivenNames x; clear_value x; revert x; intro _)
    | intro _
    | split
    | with_reducible first | refine keeps_pair (by with_reducible assumption) ?_ | refine keeps_triple (by with_reducible assumption) ?_ | refine keeps_pairL (by with_reducible assumption) ?_

theorem execChkFeedH_keeps (A : Allows P m) (h : m &&& 17179869176 = 17179869176) :
    ∀ x0 x1 x2 s, P s → ∀ t, execChkFeedH x0 x1 x2 s = .next t → P t := by
  have A := A.mono h
  clear h
  have kRegWrite := regWrite_keeps A rfl
  intro x0 x1 x2 s  hs
  intro t e
  cases e
  repeat' first
    | with_reducible first
        | assumption | refine kRegWrite _ _ _ _  ?_
    | (extract_lets -underBinder +onlyGivenNames x; refine keeps_fact (P := P) (v := x) ?_ ?_; rotate_left; clear_value x; revert x; intro _ _; rotate_left; unfold x; clear x)
    | (extract_lets -underBinder +onlyGivenNames x; clear_value x; revert x; intro _)
    | intro _
    | split
    | with_reducible first | refine keeps_pair (by with_reducible assumption) ?_ | refine keeps_triple (by with_reducible assumption) ?_ | refine keeps_pairL (by with_reducible assumption) ?_

theorem execChkFeedW_keeps (A : Allows P m) (h : m &&& 17179869176 = 17179869176) :
    ∀ x0 x1 x2 s, P s → ∀ t, execChkFeedW x0 x1 x2 s = .next t → P t := by
  have A := A.mono h
  clear h
  have kRegWrite := regWrite_keeps A rfl
  intro x0 x1 x2 s  hs
  intro t e
  cases e
  repeat' first
    | with_reducible first
        | assumption | refine kRegWrite _ _ _ _  ?_
    | (extract_lets -underBinder +onlyGivenNames x; refine keeps_fact (P := P) (v := x) ?_ ?_; rotate_left; clear_value x; revert x; intro _ _; rotate_left; unfold x; clear x)
    | (extract_lets -underBinder +onlyGivenNames x; clear_value x; revert x; intro _)
    | intro _
    | split
    | with_reducible first | refine keeps_pair (by with_reducible assumption) ?_ | refine keeps_triple (by with_reducible assumption) ?_ | refine keeps_pairL (by with_reducible assumption) ?_

theorem execPreload_keeps (A : Allows P m) (h : m &&& 17179869176 = 17179869176) :
    ∀ x0 s, P s → ∀ t, execPreload x0 s = .next t → P t := by
  have A := A.mono h
  clear h
  have kRegWrite := regWrite_keeps A rfl
  intro x0 s  hs
  intro t e
  cases e
  repeat' first
    | with_reducible first
        | assumption | refine kRegWrite _ _ _ _  ?_
    | (extract_lets -underBinder +onlyGivenNames x; refine keeps_fact (P := P) (v := x) ?_ ?_; rotate_left; clear_value x; revert x; intro _ _; rotate_left; unfold x; clear x)
    | (extract_lets -underBinder +onlyGivenNames x; clear_value x; revert x; intro _)
    | intro _
    | split
    | with_reducible first | refine keeps_pair (by with_reducible assumption) ?_ | refine keeps_triple (by with_reducible assumption) ?_ | refine keeps_pairL (by with_reducible assumption) ?_

theorem execHandover_keeps (A : Allows P m) (h : m &&& 17179869176 = 17179869176) :
    ∀ x0 s, P s → ∀ t, execHandover x0 s = .next t → P t := by
  have A := A.mono h
  clear h
  have kRegWrite := regWrite_keeps A rfl
  intro x0 s  hs
  intro t e
  cases e
  repeat' first
    | with_reducible first
        | assumption | refine kRegWrite _ _ _ _  ?_
    | (extract_lets -underBinder +onlyGivenNames x; refine keeps_fact (P := P) (v := x) ?_ ?_; rotate_left; clear_value x; revert x; intro _ _; rotate_left; unfold x; clear x)
    | (extract_lets -underBinder +onlyGivenNames x; clear_value x; revert x; intro _)
    | intro _
    | split
    | with_reducible first | refine keeps_pair (by with_reducible assumption) ?_ | refine keeps_triple (by with_reducible assumption) ?_ | refine keeps_pairL (by with_reducible assumption) ?_

theorem execSelfTestRetry_keeps (A : Allows P m) (h : m &&& 17179869176 = 17179869176) :
    ∀ x0 x1 s, P s → ∀ t, execSelfTestRetry x0 x1 s = .next t → P t := by
  have A := A.mono h
  clear h
  have kRegWrite := regWrite_keeps A rfl
  intro x0 x1 s  hs
  intro t e
  cases e
  repeat' first
    | with_reducible first
        | assumption | refine kRegWrite _ _ _ _  ?_
    | (extract_lets -underBinder +onlyGivenNames x; refine keeps_fact (P := P) (v := x) ?_ ?_; rotate_left; clear_value x; revert x; intro _ _; rotate_left; unfold x; clear x)
    | (extract_lets -underBinder +onlyGivenNames x; clear_value x; revert x; intro _)
    | intro _
    | split
    | with_reducible first | refine keeps_pair (by with_reducible assumption) ?_ | refine keeps_triple (by with_reducible assumption) ?_ | refine keeps_pairL (by with_reducible assumption) ?_

theorem execLogCursorLoad_keeps (A : Allows P m) (h : m &&& 17179869176 = 17179869176) :
    ∀ x0 x1 s, P s → ∀ t, execLogCursorLoad x0 x1 s = .next t → P t := by
  have A := A.mono h
  clear h
  have kRegWrite := regWrite_keeps A rfl
  intro x0 x1 s  hs
  intro t e
  cases e
  repeat' first
    | with_reducible first
        | assumption | refine kRegWrite _ _ _ _  ?_
    | (extract_lets -underBinder +onlyGivenNames x; refine keeps_fact (P := P) (v := x) ?_ ?_; rotate_left; clear_value x; revert x; intro _ _; rotate_left; unfold x; clear x)
    | (extract_lets -underBinder +onlyGivenNames x; clear_value x; revert x; intro _)
    | intro _
    | split
    | with_reducible first | refine keeps_pair (by with_reducible assumption) ?_ | refine keeps_triple (by with_reducible assumption) ?_ | refine keeps_pairL (by with_reducible assumption) ?_

theorem execLogStatSel_keeps (A : Allows P m) (h : m &&& 17179869176 = 17179869176) :
    ∀ x0 x1 s, P s → ∀ t, execLogStatSel x0 x1 s = .next t → P t := by
  have A := A.mono h
  clear h
  have kRegWrite := regWrite_keeps A rfl
  intro x0 x1 s  hs
  intro t e
  cases e
  repeat' first
    | with_reducible first
        | assumption | refine kRegWrite _ _ _ _  ?_
    | (extract_lets -underBinder +onlyGivenNames x; refine keeps_fact (P := P) (v := x) ?_ ?_; rotate_left; clear_value x; revert x; intro _ _; rotate_left; unfold x; clear x)
    | (extract_lets -underBinder +onlyGivenNames x; clear_value x; revert x; intro _)
    | intro _
    | split
    | with_reducible first | refine keeps_pair (by with_reducible assumption) ?_ | refine keeps_triple (by with_reducible assumption) ?_ | refine keeps_pairL (by with_reducible assumption) ?_

theorem execLogFreeze_keeps (A : Allows P m) (h : m &&& 17179869176 = 17179869176) :
    ∀ x0 s, P s → ∀ t, execLogFreeze x0 s = .next t → P t := by
  have A := A.mono h
  clear h
  have kRegWrite := regWrite_keeps A rfl
  intro x0 s  hs
  intro t e
  cases e
  repeat' first
    | with_reducible first
        | assumption | refine kRegWrite _ _ _ _  ?_
    | (extract_lets -underBinder +onlyGivenNames x; refine keeps_fact (P := P) (v := x) ?_ ?_; rotate_left; clear_value x; revert x; intro _ _; rotate_left; unfold x; clear x)
    | (extract_lets -underBinder +onlyGivenNames x; clear_value x; revert x; intro _)
    | intro _
    | split
    | with_reducible first | refine keeps_pair (by with_reducible assumption) ?_ | refine keeps_triple (by with_reducible assumption) ?_ | refine keeps_pairL (by with_reducible assumption) ?_

theorem execLogCtrlClear_keeps (A : Allows P m) (h : m &&& 17179869176 = 17179869176) :
    ∀ x0 s, P s → ∀ t, execLogCtrlClear x0 s = .next t → P t := by
  have A := A.mono h
  clear h
  have kRegWrite := regWrite_keeps A rfl
  intro x0 s  hs
  intro t e
  cases e
  repeat' first
    | with_reducible first
        | assumption | refine kRegWrite _ _ _ _  ?_
    | (extract_lets -underBinder +onlyGivenNames x; refine keeps_fact (P := P) (v := x) ?_ ?_; rotate_left; clear_value x; revert x; intro _ _; rotate_left; unfold x; clear x)
    | (extract_lets -underBinder +onlyGivenNames x; clear_value x; revert x; intro _)
    | intro _
    | split
    | with_reducible first | refine keeps_pair (by with_reducible assumption) ?_ | refine keeps_triple (by with_reducible assumption) ?_ | refine keeps_pairL (by with_reducible assumption) ?_

theorem busRead_keeps (A : Allows P m) (h : m &&& 1073742024 = 1073742024) :
    ∀ x0 s, P s → P (busRead x0 s) := by
  have A := A.mono h
  clear h
  have kWin7Read := win7Read_keeps A rfl
  have kRegRead := regRead_keeps A rfl
  intro x0 s  hs
  unfold busRead
  repeat' first
    | with_reducible first
        | assumption | refine kWin7Read _  ?_ | refine kRegRead _ _  ?_
    | (extract_lets -underBinder +onlyGivenNames x; refine keeps_fact (P := P) (v := x) ?_ ?_; rotate_left; clear_value x; revert x; intro _ _; rotate_left; unfold x; clear x)
    | (extract_lets -underBinder +onlyGivenNames x; clear_value x; revert x; intro _)
    | split
    | with_reducible first | refine keeps_pair (by with_reducible assumption) ?_ | refine keeps_triple (by with_reducible assumption) ?_ | refine keeps_pairL (by with_reducible assumption) ?_ | refine A.readData rfl _ _ ?_

theorem regReadOn_keeps (A : Allows P m) (h : m &&& 1073742024 = 1073742024) :
    ∀ x0 x1 s, P s → P (regReadOn x0 x1 s) := by
  have A := A.mono h
  clear h
  have kRegReadGate := regReadGate_keeps A rfl
  have kBusRead := busRead_keeps A rfl
  intro x0 x1 s  hs
  unfold regReadOn
  repeat' first
    | with_reducible first
        | assumption | refine kRegReadGate _ _ _ _ ?_ ?_ | refine kBusRead _ _  ?_
        | refine each_keeps _ _ (fun _ _ _ => ?_) _ ?_ | refine foldl_keeps _ _ (fun _ _ _ => ?_) _ ?_
    | (extract_lets -underBinder +onlyGivenNames x; refine keeps_fact (P := P) (v := x) ?_ ?_; rotate_left; clear_value x; revert x; intro _ _; rotate_left; unfold x; clear x)
    | (extract_lets -underBinder +onlyGivenNames x; refine keeps_fact2 (P := P) (v := x) ?_ ?_; rotate_left; clear_value x; revert x; intro _ _; rotate_left; unfold x; clear x)
    | (extract_lets -underBinder +onlyGivenNames x; have h := fun a => x a; clear h; unfold x; clear x)
    | (extract_lets -underBinder +onlyGivenNames x; clear_value x; revert x; intro _)
    | intro _
    | split
    | with_reducible first | refine keeps_pair (by with_reducible assumption) ?_ | refine keeps_triple (by with_reducible assumption) ?_ | refine keeps_pairL (by with_reducible assumption) ?_

theorem execChkFeedResRead_keeps (A : Allows P m) (h : m &&& 1073742024 = 1073742024) :
    ∀ x0 x1 x2 s, P s → ∀ t, execChkFeedResRead x0 x1 x2 s = .next t → P t := by
  have A := A.mono h
  clear h
  have kRegReadOn := regReadOn_keeps A rfl
  intro x0 x1 x2 s  hs
  intro t e
  cases e
  repeat' first
    | with_reducible first
        | assumption | refine kRegReadOn _ _ _  ?_

theorem execLogWin7Read_keeps (A : Allows P m) (h : m &&& 1073742024 = 1073742024) :
    ∀ x0 s, P s → ∀ t, execLogWin7Read x0 s = .next t → P t := by
  have A := A.mono h
  clear h
  have kRegReadOn := regReadOn_keeps A rfl
  intro x0 s  hs
  intro t e
  cases e
  repeat' first
    | with_reducible first
        | assumption | refine kRegReadOn _ _ _  ?_
    | (extract_lets -underBinder +onlyGivenNames x; refine keeps_fact (P := P) (v := x) ?_ ?_; rotate_left; clear_value x; revert x; intro _ _; rotate_left; unfold x; clear x)
    | (extract_lets -underBinder +onlyGivenNames x; clear_value x; revert x; intro _)
    | intro _
    | split
    | with_reducible first | refine keeps_pair (by with_reducible assumption) ?_ | refine keeps_triple (by with_reducible assumption) ?_ | refine keeps_pairL (by with_reducible assumption) ?_

theorem smbNext_keeps (A : Allows P m) (h : m &&& 8589934592 = 8589934592) :
    ∀ s, P s → P (smbNext s) := by
  have A := A.mono h
  clear h
  intro s  hs
  unfold smbNext
  repeat' first
    | with_reducible first
        | assumption
    | with_reducible first | refine A.smb rfl _ _ ?_

theorem execSmbusSetOffset_keeps (A : Allows P m) (h : m &&& 8589934592 = 8589934592) :
    ∀ x0 s, P s → ∀ t, execSmbusSetOffset x0 s = .next t → P t := by
  have A := A.mono h
  clear h
  intro x0 s  hs
  intro t e
  cases e
  repeat' first
    | with_reducible first
        | assumption
    | split
    | with_reducible first | refine A.smb rfl _ _ ?_

theorem execSmbusWrite_keeps (A : Allows P m) (h : m &&& 17179869176 = 17179869176) :
    ∀ x0 x1 s, P s → ∀ t, execSmbusWrite x0 x1 s = .next t → P t := by
  have A := A.mono h
  clear h
  have kSmbNext := smbNext_keeps A rfl
  have kAddrWrite := addrWrite_keeps A rfl
  intro x0 x1 s  hs
  intro t e
  cases e
  repeat' first
    | with_reducible first
        | assumption | refine kSmbNext _  ?_ | refine kAddrWrite _ _ _ _  ?_
    | split

theorem smbRead_keeps (A : Allows P m) (h : m &&& 9663676616 = 9663676616) :
    ∀ s, P s → P (smbRead s) := by
  have A := A.mono h
  clear h
  have kRegReadOn := regReadOn_keeps A rfl
  intro s  hs
  unfold smbRead
  repeat' first
    | with_reducible first
        | assumption | refine kRegReadOn _ _ _  ?_
    | (extract_lets -underBinder +onlyGivenNames x; refine keeps_fact (P := P) (v := x) ?_ ?_; rotate_left; clear_value x; revert x; intro _ _; rotate_left; unfold x; clear x)
    | (extract_lets -underBinder +onlyGivenNames x; clear_value x; revert x; intro _)
    | split
    | with_reducible first | refine keeps_pair (by with_reducible assumption) ?_ | refine keeps_triple (by with_reducible assumption) ?_ | refine keeps_pairL (by with_reducible assumption) ?_ | refine A.readData rfl _ _ ?_ | refine A.smb rfl _ _ ?_

theorem execSmbusRead_keeps (A : Allows P m) (h : m &&& 9663676616 = 9663676616) :
    ∀ x0 s, P s → ∀ t, execSmbusRead x0 s = .next t → P t := by
  have A := A.mono h
  clear h
  have kSmbNext := smbNext_keeps A rfl
  have kSmbRead := smbRead_keeps A rfl
  intro x0 s  hs
  intro t e
  cases e
  repeat' first
    | with_reducible first
        | assumption | refine kSmbNext _  ?_ | refine kSmbRead _  ?_
    | split

end Sys2Proof.Laws
end

