-- ==== Sys2Proof/Laws/Dispatch.lean ====
section
/-! SUPPORT. What a command can change: never the part, the queue or the clock, and the memories, the counters only by single
writes and removals (Laws/Keeps.lean). A command's own lemma (exec<Name>_keeps) names fewer parts. -/

namespace Sys2Proof.Laws

open Sys2Proof.Machine

variable {P : State → Prop}

/-- The parts some command writes. -/
abbrev written : Nat := 17179869176

theorem exec_keeps (A : Allows P written) (i : Instr) (s t : State) (hs : P s) (e : exec i s = .next t) : P t := by
  cases i with
  | registerWrite path addr value => exact execRegisterWrite_keeps A rfl _ _ _ _ hs _ e
  | commitA path => exact execCommitA_keeps A rfl _ _ hs _ e
  | commitB path => exact execCommitB_keeps A rfl _ _ hs _ e
  | commitAll path => exact execCommitAll_keeps A rfl _ _ hs _ e
  | logCopySelect path copy => exact execLogCopySelect_keeps A rfl _ _ _ hs _ e
  | powerOn => exact execPowerOn_keeps A rfl _ hs _ e
  | chipResetPin => exact execChipResetPin_keeps A rfl _ hs _ e
  | chipResetRegister path => exact execChipResetRegister_keeps A rfl _ _ hs _ e
  | startUp bifur flashOk hbmDiffer outOfRatings => exact execStartUp_keeps A rfl _ _ _ _ _ hs _ e
  | hbmTrainingEnd failed => exact execHbmTrainingEnd_keeps A rfl _ _ hs _ e
  | startupReady => exact execStartupReady_keeps A rfl _ hs _ e
  | pePerstRelease => exact execPePerstRelease_keeps A rfl _ hs _ e
  | pcieLinkUp link rate => exact execPcieLinkUp_keeps A rfl _ _ _ hs _ e
  | hostInterfaceReset link cause => exact execHostInterfaceReset_keeps A rfl _ _ _ hs _ e
  | ringRestart path link => exact execRingRestart_keeps A rfl _ _ _ hs _ e
  | heartbeat => exact execHeartbeat_keeps A rfl _ hs _ e
  | pollRead link page block visible => exact execPollRead_keeps A rfl _ _ _ _ _ hs _ e
  | pollData link page block => exact execPollData_keeps A rfl _ _ _ _ hs _ e
  | poolEntryRead pool => exact execPoolEntryRead_keeps A rfl _ _ hs _ e
  | eventProducerWrite ring => exact execEventProducerWrite_keeps A rfl _ _ hs _ e
  | msixMessage link vector unmasked => exact execMsixMessage_keeps A rfl _ _ _ _ hs _ e
  | nop h => exact execNop_keeps A rfl _ _ hs _ e
  | ringSetQuery h ring => exact execRingSetQuery_keeps A rfl _ _ _ hs _ e
  | ringSetEnable h ring => exact execRingSetEnable_keeps A rfl _ _ _ hs _ e
  | ringSetDisable h ring => exact execRingSetDisable_keeps A rfl _ _ _ hs _ e
  | ringSetMove h ring sizeCode base => exact execRingSetMove_keeps A rfl _ _ _ _ _ hs _ e
  | poolSetQuery h pool => exact execPoolSetQuery_keeps A rfl _ _ _ hs _ e
  | poolSetFlush h pool hostAddr => exact execPoolSetFlush_keeps A rfl _ _ _ _ hs _ e
  | abort h ring index => exact execAbort_keeps A rfl _ _ _ _ hs _ e
  | fence h => exact execFence_keeps A rfl _ _ hs _ e
  | tableWrite h t => exact execTableWrite_keeps A rfl _ _ _ hs _ e
  | tableRead h t => exact execTableRead_keeps A rfl _ _ _ hs _ e
  | tableBulkWrite h t => exact execTableBulkWrite_keeps A rfl _ _ _ hs _ e
  | tableBulkRead h t => exact execTableBulkRead_keeps A rfl _ _ _ hs _ e
  | tableScan h t => exact execTableScan_keeps A rfl _ _ _ hs _ e
  | digestSet h t => exact execDigestSet_keeps A rfl _ _ _ hs _ e
  | epochFlip h t => exact execEpochFlip_keeps A rfl _ _ _ hs _ e
  | flowWrite h t => exact execFlowWrite_keeps A rfl _ _ _ hs _ e
  | flowDelete h t => exact execFlowDelete_keeps A rfl _ _ _ hs _ e
  | flowRead h t => exact execFlowRead_keeps A rfl _ _ _ hs _ e
  | flowRestore h t => exact execFlowRestore_keeps A rfl _ _ _ hs _ e
  | counterRead h t => exact execCounterRead_keeps A rfl _ _ _ hs _ e
  | counterClear h t => exact execCounterClear_keeps A rfl _ _ _ hs _ e
  | shaperSet h t => exact execShaperSet_keeps A rfl _ _ _ hs _ e
  | gateLoad h t => exact execGateLoad_keeps A rfl _ _ _ hs _ e
  | memRead h m => exact execMemRead_keeps A rfl _ _ _ hs _ e
  | memWrite h m => exact execMemWrite_keeps A rfl _ _ _ hs _ e
  | checkScan h m => exact execCheckScan_keeps A rfl _ _ _ hs _ e
  | timeSetRead h => exact execTimeSetRead_keeps A rfl _ _ hs _ e
  | timeSetStep h offset time off => exact execTimeSetStep_keeps A rfl _ _ _ _ _ hs _ e
  | timeSetRate h rate => exact execTimeSetRate_keeps A rfl _ _ _ hs _ e
  | timeSetMarkTraceable h => exact execTimeSetMarkTraceable_keeps A rfl _ _ hs _ e
  | timeSetTout h c => exact execTimeSetTout_keeps A rfl _ _ _ hs _ e
  | timeSetPeerDelay h port delay => exact execTimeSetPeerDelay_keeps A rfl _ _ _ _ hs _ e
  | timeSetSynce h output enable lane divider => exact execTimeSetSynce_keeps A rfl _ _ _ _ _ _ hs _ e
  | fwStage h m => exact execFwStage_keeps A rfl _ _ _ hs _ e
  | fwSwitch h slot mask drainUs => exact execFwSwitch_keeps A rfl _ _ _ _ _ hs _ e
  | domainCtlQuery h => exact execDomainCtlQuery_keeps A rfl _ _ hs _ e
  | domainCtlOff h => exact execDomainCtlOff_keeps A rfl _ _ hs _ e
  | domainCtlOn h => exact execDomainCtlOn_keeps A rfl _ _ hs _ e
  | domainCtlReinit h srcPipe => exact execDomainCtlReinit_keeps A rfl _ _ _ hs _ e
  | domainCtlRestart h srcPipe => exact execDomainCtlRestart_keeps A rfl _ _ _ hs _ e
  | g3Nop h => exact execG3Nop_keeps A rfl _ _ hs _ e
  | g3TableWrite h b => exact execG3TableWrite_keeps A rfl _ _ _ hs _ e
  | g3TableRead h b => exact execG3TableRead_keeps A rfl _ _ _ hs _ e
  | g3CounterRead h b => exact execG3CounterRead_keeps A rfl _ _ _ hs _ e
  | g3FlowDelete h record => exact execG3FlowDelete_keeps A rfl _ _ _ hs _ e
  | longCommandStep ring index => exact execLongCommandStep_keeps A rfl _ _ _ hs _ e
  | heldCommandStart ring index => exact execHeldCommandStart_keeps A rfl _ _ _ hs _ e
  | injectPort d => exact execInjectPort_keeps A rfl _ _ hs _ e
  | injectPipe d => exact execInjectPipe_keeps A rfl _ _ hs _ e
  | puntBufferGrant pool => exact execPuntBufferGrant_keeps A rfl _ _ hs _ e
  | puntPoolTimeout pool => exact execPuntPoolTimeout_keeps A rfl _ _ hs _ e
  | frameReceive port bytes => exact execFrameReceive_keeps A rfl _ _ _ hs _ e
  | packetPass pipe => exact execPacketPass_keeps A rfl _ _ hs _ e
  | recirculation pipe => exact execRecirculation_keeps A rfl _ _ hs _ e
  | frameCheck packet fcsOk => exact execFrameCheck_keeps A rfl _ _ _ hs _ e
  | flowRequest slice => exact execFlowRequest_keeps A rfl _ _ hs _ e
  | flowFetchDone slice => exact execFlowFetchDone_keeps A rfl _ _ hs _ e
  | frameCheckReport slice => exact execFrameCheckReport_keeps A rfl _ _ hs _ e
  | hbmWriteAccepted slice => exact execHbmWriteAccepted_keeps A rfl _ _ hs _ e
  | createTmoExpiry slice record => exact execCreateTmoExpiry_keeps A rfl _ _ _ hs _ e
  | backendRequest slice => exact execBackendRequest_keeps A rfl _ _ hs _ e
  | ownerSwitch slice => exact execOwnerSwitch_keeps A rfl _ _ hs _ e
  | hotLineWritebackDone slice record => exact execHotLineWritebackDone_keeps A rfl _ _ _ hs _ e
  | flowSweepVisit slice => exact execFlowSweepVisit_keeps A rfl _ _ hs _ e
  | exportRoom slice => exact execExportRoom_keeps A rfl _ _ hs _ e
  | exportTmoExpiry slice => exact execExportTmoExpiry_keeps A rfl _ _ hs _ e
  | peerEnd slice => exact execPeerEnd_keeps A rfl _ _ hs _ e
  | portRelease slice => exact execPortRelease_keeps A rfl _ _ hs _ e
  | natBlockFree slice => exact execNatBlockFree_keeps A rfl _ _ hs _ e
  | ctNotice slice => exact execCtNotice_keeps A rfl _ _ hs _ e
  | deltaSend pipe record => exact execDeltaSend_keeps A rfl _ _ _ hs _ e
  | deltaArrival slice => exact execDeltaArrival_keeps A rfl _ _ hs _ e
  | flowPull slice pipe => exact execFlowPull_keeps A rfl _ _ _ hs _ e
  | pullAnswer slice record => exact execPullAnswer_keeps A rfl _ _ _ hs _ e
  | answer slice pipe => exact execAnswer_keeps A rfl _ _ _ hs _ e
  | invalidation slice pipe => exact execInvalidation_keeps A rfl _ _ _ hs _ e
  | invalidationAck slice => exact execInvalidationAck_keeps A rfl _ _ hs _ e
  | horizonStampForm slice => exact execHorizonStampForm_keeps A rfl _ _ hs _ e
  | horizonStamp slice pipe => exact execHorizonStamp_keeps A rfl _ _ _ hs _ e
  | finalStamp slice pipe => exact execFinalStamp_keeps A rfl _ _ _ hs _ e
  | confirmNotice packet => exact execConfirmNotice_keeps A rfl _ _ hs _ e
  | specTimeout pipe => exact execSpecTimeout_keeps A rfl _ _ hs _ e
  | replay pipe => exact execReplay_keeps A rfl _ _ hs _ e
  | unstableEntryExpiry pipe record => exact execUnstableEntryExpiry_keeps A rfl _ _ _ hs _ e
  | stallNsExpiry pipe slice => exact execStallNsExpiry_keeps A rfl _ _ _ hs _ e
  | learnRequest slice => exact execLearnRequest_keeps A rfl _ _ hs _ e
  | hitNotice slice => exact execHitNotice_keeps A rfl _ _ hs _ e
  | l2Broadcast die => exact execL2Broadcast_keeps A rfl _ _ hs _ e
  | l2Delete die => exact execL2Delete_keeps A rfl _ _ hs _ e
  | l2AgeVisit slice => exact execL2AgeVisit_keeps A rfl _ _ hs _ e
  | shadowCompare die block => exact execShadowCompare_keeps A rfl _ _ _ hs _ e
  | matchBankUnitWrite pipe bank reserved => exact execMatchBankUnitWrite_keeps A rfl _ _ _ _ hs _ e
  | matchBankScrub pipe bank agrees => exact execMatchBankScrub_keeps A rfl _ _ _ _ hs _ e
  | coreInstruction core => exact execCoreInstruction_keeps A rfl _ _ hs _ e
  | wkGet core rd => exact execWkGet_keeps A rfl _ _ _ hs _ e
  | wkRel core rs1 => exact execWkRel_keeps A rfl _ _ _ hs _ e
  | wkHand core rs1 rs2 => exact execWkHand_keeps A rfl _ _ _ _ hs _ e
  | wkNew core rd rs1 => exact execWkNew_keeps A rfl _ _ _ _ hs _ e
  | wkCancel core rd rs1 => exact execWkCancel_keeps A rfl _ _ _ _ hs _ e
  | wkFlow core rd => exact execWkFlow_keeps A rfl _ _ _ hs _ e
  | wkEvt core rs1 rs2 => exact execWkEvt_keeps A rfl _ _ _ _ hs _ e
  | commit slice => exact execCommit_keeps A rfl _ _ hs _ e
  | reject slice => exact execReject_keeps A rfl _ _ hs _ e
  | deny slice => exact execDeny_keeps A rfl _ _ hs _ e
  | setAction slice => exact execSetAction_keeps A rfl _ _ hs _ e
  | close slice => exact execClose_keeps A rfl _ _ hs _ e
  | age slice => exact execAge_keeps A rfl _ _ hs _ e
  | export_ slice => exact execExport_keeps A rfl _ _ hs _ e
  | read slice => exact execRead_keeps A rfl _ _ hs _ e
  | rebind slice => exact execRebind_keeps A rfl _ _ hs _ e
  | natBlock slice => exact execNatBlock_keeps A rfl _ _ hs _ e
  | natPort slice => exact execNatPort_keeps A rfl _ _ hs _ e
  | setFw slice => exact execSetFw_keeps A rfl _ _ hs _ e
  | wkFlowReply core => exact execWkFlowReply_keeps A rfl _ _ hs _ e
  | timerOperand slice task => exact execTimerOperand_keeps A rfl _ _ _ hs _ e
  | operandArrival slice task operand => exact execOperandArrival_keeps A rfl _ _ _ _ hs _ e
  | taskDispatch slice => exact execTaskDispatch_keeps A rfl _ _ hs _ e
  | runLimitExpiry core => exact execRunLimitExpiry_keeps A rfl _ _ hs _ e
  | holdLimitExpiry slice lock => exact execHoldLimitExpiry_keeps A rfl _ _ _ hs _ e
  | preemption core => exact execPreemption_keeps A rfl _ _ hs _ e
  | rolloutClusterDrained => exact execRolloutClusterDrained_keeps A rfl _ hs _ e
  | drainUsExpiry => exact execDrainUsExpiry_keeps A rfl _ hs _ e
  | rolloutLoadEnd readable => exact execRolloutLoadEnd_keeps A rfl _ _ hs _ e
  | arbiterMatch differ => exact execArbiterMatch_keeps A rfl _ _ hs _ e
  | arbiterSelfCheckEnd q0 q2 => exact execArbiterSelfCheckEnd_keeps A rfl _ _ _ hs _ e
  | failedCopySelfCheck pass => exact execFailedCopySelfCheck_keeps A rfl _ _ hs _ e
  | linkCellReceive link forward lane intact => exact execLinkCellReceive_keeps A rfl _ _ _ _ _ hs _ e
  | linkAck link forward => exact execLinkAck_keeps A rfl _ _ _ hs _ e
  | linkNak link forward => exact execLinkNak_keeps A rfl _ _ _ hs _ e
  | linkResendTimeout link forward => exact execLinkResendTimeout_keeps A rfl _ _ _ hs _ e
  | laneErrorInterval link lane => exact execLaneErrorInterval_keeps A rfl _ _ _ hs _ e
  | reseqGapTimeout src dst => exact execReseqGapTimeout_keeps A rfl _ _ _ hs _ e
  | auditStart die => exact execAuditStart_keeps A rfl _ _ hs _ e
  | auditEnd die => exact execAuditEnd_keeps A rfl _ _ hs _ e
  | pfcXoffRepeat port pri => exact execPfcXoffRepeat_keeps A rfl _ _ _ hs _ e
  | pfcFrameReceive port frame => exact execPfcFrameReceive_keeps A rfl _ _ _ hs _ e
  | pfcPauseExpiry port pri => exact execPfcPauseExpiry_keeps A rfl _ _ _ hs _ e
  | pfcWatchdogExpiry port pri => exact execPfcWatchdogExpiry_keeps A rfl _ _ _ hs _ e
  | pfcWatchdogRestoreTimer port pri => exact execPfcWatchdogRestoreTimer_keeps A rfl _ _ _ hs _ e
  | mcastHoldExpiry packet port => exact execMcastHoldExpiry_keeps A rfl _ _ _ hs _ e
  | schedulerSelect port => exact execSchedulerSelect_keeps A rfl _ _ hs _ e
  | frameTransmitStart port corrupt => exact execFrameTransmitStart_keeps A rfl _ _ _ hs _ e
  | frameTransmitEnd port => exact execFrameTransmitEnd_keeps A rfl _ _ hs _ e
  | shaperUpdate => exact execShaperUpdate_keeps A rfl _ hs _ e
  | gateChange port => exact execGateChange_keeps A rfl _ _ hs _ e
  | gateListStart port => exact execGateListStart_keeps A rfl _ _ hs _ e
  | queueSample die => exact execQueueSample_keeps A rfl _ _ hs _ e
  | linkTrainingDone port => exact execLinkTrainingDone_keeps A rfl _ _ hs _ e
  | linkLoss port => exact execLinkLoss_keeps A rfl _ _ hs _ e
  | portCompReady port rxComp txComp => exact execPortCompReady_keeps A rfl _ _ _ _ hs _ e
  | timeUnitReset path => exact execTimeUnitReset_keeps A rfl _ _ hs _ e
  | snap path => exact execSnap_keeps A rfl _ _ hs _ e
  | trefLoss => exact execTrefLoss_keeps A rfl _ hs _ e
  | trefValid => exact execTrefValid_keeps A rfl _ hs _ e
  | pllLock => exact execPllLock_keeps A rfl _ hs _ e
  | holdoverLimit => exact execHoldoverLimit_keeps A rfl _ hs _ e
  | toutEdge output => exact execToutEdge_keeps A rfl _ _ hs _ e
  | tinEdge input falling => exact execTinEdge_keeps A rfl _ _ _ hs _ e
  | synceLaneLoss output => exact execSynceLaneLoss_keeps A rfl _ _ hs _ e
  | synceUnsquelch output => exact execSynceUnsquelch_keeps A rfl _ _ hs _ e
  | hbmAccess stack ecc => exact execHbmAccess_keeps A rfl _ _ _ hs _ e
  | hbmRefresh stack bank => exact execHbmRefresh_keeps A rfl _ _ _ hs _ e
  | hbmTempRead stack temp => exact execHbmTempRead_keeps A rfl _ _ _ hs _ e
  | patrolScrub stack rank ecc => exact execPatrolScrub_keeps A rfl _ _ _ _ hs _ e
  | rankProbe stack rank ecc => exact execRankProbe_keeps A rfl _ _ _ _ hs _ e
  | migStart path stack value => exact execMigStart_keeps A rfl _ _ _ _ hs _ e
  | migAbort path stack value => exact execMigAbort_keeps A rfl _ _ _ _ hs _ e
  | migrationChunk badBlocks targetFailed => exact execMigrationChunk_keeps A rfl _ _ _ hs _ e
  | rankReenable path stack value => exact execRankReenable_keeps A rfl _ _ _ _ hs _ e
  | rankPrepareEnd stack rank ok => exact execRankPrepareEnd_keeps A rfl _ _ _ _ hs _ e
  | sramScrub die kind address ecc => exact execSramScrub_keeps A rfl _ _ _ _ _ hs _ e
  | clockLoss die dom => exact execClockLoss_keeps A rfl _ _ _ hs _ e
  | feedStart path engine value => exact execFeedStart_keeps A rfl _ _ _ _ hs _ e
  | chkFeedB path engine value => exact execChkFeedB_keeps A rfl _ _ _ _ hs _ e
  | chkFeedH path engine value => exact execChkFeedH_keeps A rfl _ _ _ _ hs _ e
  | chkFeedW path engine value => exact execChkFeedW_keeps A rfl _ _ _ _ hs _ e
  | chkFeedResRead path engine high => exact execChkFeedResRead_keeps A rfl _ _ _ _ hs _ e
  | cusWatchdogExpiry => exact execCusWatchdogExpiry_keeps A rfl _ hs _ e
  | stringRelease cause => exact execStringRelease_keeps A rfl _ _ hs _ e
  | selfTestEnd cusB pass => exact execSelfTestEnd_keeps A rfl _ _ _ hs _ e
  | stringTake cusB => exact execStringTake_keeps A rfl _ _ hs _ e
  | adoption => exact execAdoption_keeps A rfl _ hs _ e
  | checkpoint => exact execCheckpoint_keeps A rfl _ hs _ e
  | custodianActuatorWrite cusB actuator value => exact execCustodianActuatorWrite_keeps A rfl _ _ _ _ hs _ e
  | stringCopyDisagree => exact execStringCopyDisagree_keeps A rfl _ hs _ e
  | preload path => exact execPreload_keeps A rfl _ _ hs _ e
  | preloadEnd crcOk readable => exact execPreloadEnd_keeps A rfl _ _ _ hs _ e
  | handover path => exact execHandover_keeps A rfl _ _ hs _ e
  | selfTestRetry path cusB => exact execSelfTestRetry_keeps A rfl _ _ _ hs _ e
  | logPersist programOk => exact execLogPersist_keeps A rfl _ _ hs _ e
  | statSample source value => exact execStatSample_keeps A rfl _ _ _ hs _ e
  | statSnapshot => exact execStatSnapshot_keeps A rfl _ hs _ e
  | logCursorLoad path value => exact execLogCursorLoad_keeps A rfl _ _ _ hs _ e
  | logWindowReady => exact execLogWindowReady_keeps A rfl _ hs _ e
  | logWin7Read path => exact execLogWin7Read_keeps A rfl _ _ hs _ e
  | logStatSel path value => exact execLogStatSel_keeps A rfl _ _ _ hs _ e
  | logFreeze path => exact execLogFreeze_keeps A rfl _ _ hs _ e
  | logCtrlClear path => exact execLogCtrlClear_keeps A rfl _ _ hs _ e
  | logClearEraseEnd => exact execLogClearEraseEnd_keeps A rfl _ hs _ e
  | testDone path => exact execTestDone_keeps A rfl _ _ hs _ e
  | seal_ path => exact execSeal_keeps A rfl _ _ hs _ e
  | service path => exact execService_keeps A rfl _ _ hs _ e
  | logClear path => exact execLogClear_keeps A rfl _ _ hs _ e
  | keyRotate path => exact execKeyRotate_keeps A rfl _ _ hs _ e
  | return_ path => exact execReturn_keeps A rfl _ _ hs _ e
  | vendorDebug path => exact execVendorDebug_keeps A rfl _ _ hs _ e
  | tokenResult fusesOk => exact execTokenResult_keeps A rfl _ _ hs _ e
  | zeroisationEnd => exact execZeroisationEnd_keeps A rfl _ hs _ e
  | jtagInstruction op => exact execJtagInstruction_keeps A rfl _ _ hs _ e
  | domainStopDone domain => exact execDomainStopDone_keeps A rfl _ _ hs _ e
  | domainInitDone domain pass => exact execDomainInitDone_keeps A rfl _ _ _ hs _ e
  | domainFault domain cause => exact execDomainFault_keeps A rfl _ _ _ hs _ e
  | autoRestart domain => exact execAutoRestart_keeps A rfl _ _ hs _ e
  | supplyOutOfRatings rail => exact execSupplyOutOfRatings_keeps A rfl _ _ hs _ e
  | dieTempReading die temp => exact execDieTempReading_keeps A rfl _ _ _ hs _ e
  | thermtrip die => exact execThermtrip_keeps A rfl _ _ hs _ e
  | smbusSetOffset offset => exact execSmbusSetOffset_keeps A rfl _ _ hs _ e
  | smbusWrite value pecOk => exact execSmbusWrite_keeps A rfl _ _ _ hs _ e
  | smbusRead pecOk => exact execSmbusRead_keeps A rfl _ _ hs _ e
  | railWithinTolerance rail => exact execRailWithinTolerance_keeps A rfl _ _ hs _ e

end Sys2Proof.Laws
end

