-- ==== Sys2Proof/Laws/Frame.lean ====
section
/-! SUPPORT. Frames: what an operation leaves unchanged, from what it can change (Laws/Keeps.lean). -/

namespace Sys2Proof.Laws

open Sys2Proof.Machine

/-- u differs from s in no part whose bit is clear in m. -/
structure Only (m : Nat) (s u : State) : Prop where
  part : m.testBit 0 = false → u.part = s.part
  pending : m.testBit 1 = false → u.pending = s.pending
  now : m.testBit 2 = false → u.now = s.now
  free : m.testBit 3 = false → u.free = s.free
  actor : m.testBit 4 = false → u.actor = s.actor
  raised : m.testBit 5 = false → u.raised = s.raised
  regs : m.testBit 6 = false → u.regs = s.regs
  readData : m.testBit 7 = false → u.readData = s.readData
  host : m.testBit 8 = false → u.host = s.host
  tmem : m.testBit 9 = false → u.tmem = s.tmem
  mem : m.testBit 10 = false → u.mem = s.mem
  cnt : m.testBit 11 = false → u.cnt = s.cnt
  hif : m.testBit 12 = false → u.hif = s.hif
  pkts : m.testBit 13 = false → u.pkts = s.pkts
  nextPkt : m.testBit 14 = false → u.nextPkt = s.nextPkt
  cls : m.testBit 15 = false → u.cls = s.cls
  fwd : m.testBit 16 = false → u.fwd = s.fwd
  flow : m.testBit 17 = false → u.flow = s.flow
  pipes : m.testBit 18 = false → u.pipes = s.pipes
  aligned : m.testBit 19 = false → u.aligned = s.aligned
  ctimeBase : m.testBit 20 = false → u.ctimeBase = s.ctimeBase
  tsk : m.testBit 21 = false → u.tsk = s.tsk
  buf : m.testBit 22 = false → u.buf = s.buf
  fab : m.testBit 23 = false → u.fab = s.fab
  egs : m.testBit 24 = false → u.egs = s.egs
  tim : m.testBit 25 = false → u.tim = s.tim
  hbm : m.testBit 26 = false → u.hbm = s.hbm
  chk : m.testBit 27 = false → u.chk = s.chk
  cus : m.testBit 28 = false → u.cus = s.cus
  flash : m.testBit 29 = false → u.flash = s.flash
  log : m.testBit 30 = false → u.log = s.log
  lcs : m.testBit 31 = false → u.lcs = s.lcs
  pwr : m.testBit 32 = false → u.pwr = s.pwr
  smb : m.testBit 33 = false → u.smb = s.smb

theorem Only.refl (m : Nat) (s : State) : Only m s s := by
  constructor <;> exact fun _ => rfl

theorem clash {P : Prop} {b : Bool} (h : b = true) (k : b = false) : P := by
  simp [h] at k

/-- Changes of the parts of m are changes of no other part. -/
theorem Only.allows (m : Nat) (s : State) : Allows (Only m s) m := by
  constructor <;> intro b u
  · exact fun x h => { h with free := clash b }
  · exact fun x h => { h with actor := clash b }
  · exact fun x h => { h with raised := clash b }
  · exact fun x h => { h with regs := clash b }
  · exact fun x h => { h with readData := clash b }
  · exact fun x y h => { h with host := clash b }
  · exact fun x y h => { h with tmem := clash b }
  · exact fun x h => { h with tmem := clash b }
  · exact fun x y h => { h with mem := clash b }
  · exact fun x h => { h with mem := clash b }
  · exact fun x y h => { h with cnt := clash b }
  · exact fun x h => { h with cnt := clash b }
  · exact fun x h => { h with hif := clash b }
  · exact fun x h => { h with pkts := clash b }
  · exact fun x h => { h with nextPkt := clash b }
  · exact fun x h => { h with cls := clash b }
  · exact fun x h => { h with fwd := clash b }
  · exact fun x h => { h with flow := clash b }
  · exact fun x h => { h with pipes := clash b }
  · exact fun x h => { h with aligned := clash b }
  · exact fun x h => { h with ctimeBase := clash b }
  · exact fun x h => { h with tsk := clash b }
  · exact fun x h => { h with buf := clash b }
  · exact fun x h => { h with fab := clash b }
  · exact fun x h => { h with egs := clash b }
  · exact fun x h => { h with tim := clash b }
  · exact fun x h => { h with hbm := clash b }
  · exact fun x h => { h with chk := clash b }
  · exact fun x h => { h with cus := clash b }
  · exact fun x h => { h with flash := clash b }
  · exact fun x h => { h with log := clash b }
  · exact fun x h => { h with lcs := clash b }
  · exact fun x h => { h with pwr := clash b }
  · exact fun x h => { h with smb := clash b }

theorem bit_mono {m n i : Nat} (h : n &&& m = m) (b : n.testBit i = false) : m.testBit i = false := by
  have e := congrArg (·.testBit i) h
  simp [Nat.testBit_and, b] at e
  exact e

/-- A frame with more parts left open. -/
theorem Only.mono {m n : Nat} {s u : State} (H : Only m s u) (h : n &&& m = m) : Only n s u :=
  ⟨fun b => H.part (bit_mono h b), fun b => H.pending (bit_mono h b), fun b => H.now (bit_mono h b), fun b => H.free (bit_mono h b), fun b => H.actor (bit_mono h b), fun b => H.raised (bit_mono h b), fun b => H.regs (bit_mono h b), fun b => H.readData (bit_mono h b), fun b => H.host (bit_mono h b), fun b => H.tmem (bit_mono h b), fun b => H.mem (bit_mono h b), fun b => H.cnt (bit_mono h b), fun b => H.hif (bit_mono h b), fun b => H.pkts (bit_mono h b), fun b => H.nextPkt (bit_mono h b), fun b => H.cls (bit_mono h b), fun b => H.fwd (bit_mono h b), fun b => H.flow (bit_mono h b), fun b => H.pipes (bit_mono h b), fun b => H.aligned (bit_mono h b), fun b => H.ctimeBase (bit_mono h b), fun b => H.tsk (bit_mono h b), fun b => H.buf (bit_mono h b), fun b => H.fab (bit_mono h b), fun b => H.egs (bit_mono h b), fun b => H.tim (bit_mono h b), fun b => H.hbm (bit_mono h b), fun b => H.chk (bit_mono h b), fun b => H.cus (bit_mono h b), fun b => H.flash (bit_mono h b), fun b => H.log (bit_mono h b), fun b => H.lcs (bit_mono h b), fun b => H.pwr (bit_mono h b), fun b => H.smb (bit_mono h b)⟩

theorem Only.trans {m : Nat} {s u v : State} (H : Only m s u) (K : Only m u v) : Only m s v :=
  ⟨fun b => (K.part b).trans (H.part b), fun b => (K.pending b).trans (H.pending b), fun b => (K.now b).trans (H.now b), fun b => (K.free b).trans (H.free b), fun b => (K.actor b).trans (H.actor b), fun b => (K.raised b).trans (H.raised b), fun b => (K.regs b).trans (H.regs b), fun b => (K.readData b).trans (H.readData b), fun b => (K.host b).trans (H.host b), fun b => (K.tmem b).trans (H.tmem b), fun b => (K.mem b).trans (H.mem b), fun b => (K.cnt b).trans (H.cnt b), fun b => (K.hif b).trans (H.hif b), fun b => (K.pkts b).trans (H.pkts b), fun b => (K.nextPkt b).trans (H.nextPkt b), fun b => (K.cls b).trans (H.cls b), fun b => (K.fwd b).trans (H.fwd b), fun b => (K.flow b).trans (H.flow b), fun b => (K.pipes b).trans (H.pipes b), fun b => (K.aligned b).trans (H.aligned b), fun b => (K.ctimeBase b).trans (H.ctimeBase b), fun b => (K.tsk b).trans (H.tsk b), fun b => (K.buf b).trans (H.buf b), fun b => (K.fab b).trans (H.fab b), fun b => (K.egs b).trans (H.egs b), fun b => (K.tim b).trans (H.tim b), fun b => (K.hbm b).trans (H.hbm b), fun b => (K.chk b).trans (H.chk b), fun b => (K.cus b).trans (H.cus b), fun b => (K.flash b).trans (H.flash b), fun b => (K.log b).trans (H.log b), fun b => (K.lcs b).trans (H.lcs b), fun b => (K.pwr b).trans (H.pwr b), fun b => (K.smb b).trans (H.smb b)⟩

theorem state_ext {u v : State} (_ : u.part = v.part) (_ : u.pending = v.pending) (_ : u.now = v.now) (_ : u.free = v.free) (_ : u.actor = v.actor) (_ : u.raised = v.raised) (_ : u.regs = v.regs) (_ : u.readData = v.readData) (_ : u.host = v.host) (_ : u.tmem = v.tmem) (_ : u.mem = v.mem) (_ : u.cnt = v.cnt) (_ : u.hif = v.hif) (_ : u.pkts = v.pkts) (_ : u.nextPkt = v.nextPkt) (_ : u.cls = v.cls) (_ : u.fwd = v.fwd) (_ : u.flow = v.flow) (_ : u.pipes = v.pipes) (_ : u.aligned = v.aligned) (_ : u.ctimeBase = v.ctimeBase) (_ : u.tsk = v.tsk) (_ : u.buf = v.buf) (_ : u.fab = v.fab) (_ : u.egs = v.egs) (_ : u.tim = v.tim) (_ : u.hbm = v.hbm) (_ : u.chk = v.chk) (_ : u.cus = v.cus) (_ : u.flash = v.flash) (_ : u.log = v.log) (_ : u.lcs = v.lcs) (_ : u.pwr = v.pwr) (_ : u.smb = v.smb) : u = v := by
  cases u
  cases v
  simp_all

end Sys2Proof.Laws
end

