-- ==== Sys2Proof/Laws/Memory.lean ====
section
/-! SUPPORT. Laws of the sparse maps, the byte memories, and the accessors of the state's indexed parts. -/

namespace Sys2Proof.Laws

open Sys2Proof.Machine

variable {V : Type}

/-! ### Reading a map that was written -/

theorem mget_mput (d : V) (m : Map V) (k : Nat) (v : V) (i : Nat) :
    mget d (mput m k v) i = if k = i then v else mget d m i := by
  induction m with
  | nil => simp [mput, mget]
  | cons e r ih =>
    obtain ⟨j, w⟩ := e
    unfold mput
    split
    · simp only [mget, ih]
      split <;> split <;> first | rfl | omega
    · split
      · subst_vars
        simp only [mget]
        split <;> rfl
      · simp only [mget]

theorem mget_filter (d : V) (m : Map V) (k i : Nat) :
    mget d (m.filter fun e => e.1 ≠ k) i = if k = i then d else mget d m i := by
  induction m with
  | nil => simp [mget]
  | cons e r ih =>
    obtain ⟨j, w⟩ := e
    by_cases h : j = k
    · subst h
      simp only [List.filter_cons, ne_eq, not_true_eq_false, decide_false, Bool.false_eq_true, if_false, mget] at ih ⊢
      rw [ih]
      split <;> rfl
    · simp only [List.filter_cons, ne_eq, h, not_false_eq_true, decide_true, if_true, mget] at ih ⊢
      split
      · subst_vars
        simp [Ne.symm h]
      · exact ih

variable [DecidableEq V]

theorem mget_mset (d : V) (m : Map V) (k : Nat) (v : V) (i : Nat) :
    mget d (mset d m k v) i = if k = i then v else mget d m i := by
  unfold mset
  split
  · subst_vars
    exact mget_filter _ m k i
  · exact mget_mput d m k v i

@[simp] theorem mget_mset_same (d : V) (m : Map V) (k : Nat) (v : V) : mget d (mset d m k v) k = v := by
  simp [mget_mset]

theorem mget_mset_ne (d : V) (m : Map V) {k i : Nat} (h : k ≠ i) (v : V) : mget d (mset d m k v) i = mget d m i := by
  simp [mget_mset, h]

/-! ### The canonical form -/

theorem wfFrom_le (d : V) (m : Map V) {a b : Nat} (h : a ≤ b) (w : mwfFrom d b m = true) : mwfFrom d a m = true := by
  cases m with
  | nil => rfl
  | cons e r =>
    simp only [mwfFrom, Bool.and_eq_true, decide_eq_true_eq] at w ⊢
    exact ⟨⟨by omega, w.1.2⟩, w.2⟩

theorem wfFrom_filter (d : V) (p : Nat × V → Bool) (m : Map V) :
    ∀ a, mwfFrom d a m = true → mwfFrom d a (m.filter p) = true := by
  induction m with
  | nil => exact fun a h => h
  | cons e r ih =>
    intro a h
    simp only [mwfFrom, Bool.and_eq_true, decide_eq_true_eq] at h
    rw [List.filter_cons]
    split
    · simp only [mwfFrom, Bool.and_eq_true, decide_eq_true_eq]
      exact ⟨h.1, ih _ h.2⟩
    · exact ih _ (wfFrom_le d r (by omega) h.2)

theorem wfFrom_mput (d : V) {v : V} (hv : v ≠ d) (k : Nat) (m : Map V) :
    ∀ a, a ≤ k → mwfFrom d a m = true → mwfFrom d a (mput m k v) = true := by
  induction m with
  | nil => intro a h _; simp [mput, mwfFrom, h, hv]
  | cons e r ih =>
    obtain ⟨j, w⟩ := e
    intro a h hw
    simp only [mwfFrom, Bool.and_eq_true, decide_eq_true_eq] at hw
    unfold mput
    split
    · simp only [mwfFrom, Bool.and_eq_true, decide_eq_true_eq]
      exact ⟨hw.1, ih _ (by omega) hw.2⟩
    · split
      · subst_vars
        simp only [mwfFrom, Bool.and_eq_true, decide_eq_true_eq]
        exact ⟨⟨h, hv⟩, hw.2⟩
      · simp only [mwfFrom, Bool.and_eq_true, decide_eq_true_eq]
        exact ⟨⟨h, hv⟩, ⟨by omega, hw.1.2⟩, hw.2⟩

/-- A write keeps a map's canonical form. -/
theorem mwf_mset (d : V) (m : Map V) (k : Nat) (v : V) (h : mwf d m = true) : mwf d (mset d m k v) = true := by
  unfold mset mwf
  split
  · exact wfFrom_filter d _ m 0 h
  · exact wfFrom_mput d ‹_› k m 0 (Nat.zero_le k) h

/-- A removal keeps a map's canonical form. -/
theorem mwf_filter (d : V) (p : Nat × V → Bool) (m : Map V) (h : mwf d m = true) : mwf d (m.filter p) = true :=
  wfFrom_filter d p m 0 h

/-! ### Byte memories -/

theorem wf_wr8 (m : List Host.Cell) (a : Nat) (b : Byte) (h : Memory.wf m = true) : Memory.wf (wr8 m a b) = true :=
  mwf_mset 0 m a b h

theorem wf_wrBytes (bs : List Byte) : ∀ (m : List Host.Cell) (a : Nat), Memory.wf m = true → Memory.wf (wrBytes m a bs) = true := by
  induction bs with
  | nil => exact fun m a h => h
  | cons b r ih => exact fun m a h => ih _ _ (wf_wr8 m a b h)

theorem wf_wrN (m : List Host.Cell) (a n v : Nat) (h : Memory.wf m = true) : Memory.wf (wrN m a n v) = true :=
  wf_wrBytes _ m a h

theorem wf_clrRange (m : List Host.Cell) (a b : Nat) (h : Memory.wf m = true) : Memory.wf (clrRange m a b) = true :=
  mwf_filter 0 _ m h

theorem rd8_wr8 (m : List Host.Cell) (a x : Nat) (b : Byte) : rd8 (wr8 m a b) x = if a = x then b else rd8 m x :=
  mget_mset 0 m a b x

/-- A write of bytes leaves every byte outside them. -/
theorem rd8_wrBytes_out (bs : List Byte) : ∀ (m : List Host.Cell) (a x : Nat), x < a ∨ a + bs.length ≤ x →
    rd8 (wrBytes m a bs) x = rd8 m x := by
  induction bs with
  | nil => exact fun m a x _ => rfl
  | cons b r ih =>
    intro m a x h
    simp only [List.length_cons] at h
    simp only [wrBytes]
    rw [ih _ _ _ (by omega), rd8_wr8, if_neg (by omega)]

/-- A write of bytes reads back. -/
theorem rdBytes_wrBytes (bs : List Byte) : ∀ (m : List Host.Cell) (a : Nat), rdBytes (wrBytes m a bs) a bs.length = bs := by
  induction bs with
  | nil => exact fun m a => rfl
  | cons b r ih =>
    intro m a
    simp only [wrBytes, List.length_cons, rdBytes]
    rw [ih, rd8_wrBytes_out _ _ _ _ (by omega), rd8_wr8, if_pos rfl]

theorem rdBytes_congr (m k : List Host.Cell) : ∀ (n a : Nat), (∀ x, a ≤ x → x < a + n → rd8 m x = rd8 k x) →
    rdBytes m a n = rdBytes k a n := by
  intro n
  induction n with
  | zero => exact fun a _ => rfl
  | succ n ih =>
    intro a h
    simp only [rdBytes]
    rw [h a (by omega) (by omega), ih (a + 1) (fun x h1 h2 => h x (by omega) (by omega))]

@[simp] theorem leBytes_length : ∀ n x, (leBytes n x).length = n
  | 0, _ => rfl
  | n + 1, x => by simp [leBytes, leBytes_length n]

theorem ofLe_leBytes : ∀ n x, ofLe (leBytes n x) = x % 256 ^ n
  | 0, x => by simp [leBytes, ofLe, Nat.mod_one]
  | n + 1, x => by
    have h : ofLe (leBytes (n + 1) x) = x % 256 + 256 * (x / 256 % 256 ^ n) := by
      rw [← ofLe_leBytes n]
      simp [leBytes, ofLe]
    rw [h, Nat.pow_succ', Nat.mod_mul]

/-- A number written reads back, modulo its width. -/
theorem rdN_wrN (m : List Host.Cell) (a n v : Nat) : rdN (wrN m a n v) a n = v % 256 ^ n := by
  unfold rdN wrN
  have h := rdBytes_wrBytes (leBytes n v) m a
  rw [leBytes_length] at h
  rw [h, ofLe_leBytes]

/-- A number written leaves a range that it does not touch. -/
theorem rdN_wrN_out (m : List Host.Cell) (a n v b k : Nat) (h : b + k ≤ a ∨ a + n ≤ b) :
    rdN (wrN m a n v) b k = rdN m b k := by
  unfold rdN wrN
  rw [rdBytes_congr _ m k b (fun x h1 h2 => rd8_wrBytes_out _ _ _ _ (by rw [leBytes_length]; omega))]

/-! ### Counters -/

theorem cntGet_cntSet (s : State) (o u e v : Nat) : cntGet (cntSet s o u e v) o u e = v % 2 ^ 64 :=
  mget_mset_same 0 s.cnt _ _

theorem cntGet_cntAdd (s : State) (o u e n : Nat) : cntGet (cntAdd o u e n s) o u e = (cntGet s o u e + n) % 2 ^ 64 :=
  mget_mset_same 0 s.cnt _ _

theorem cntGet_cntAdd_ne (s : State) (o u e n o' u' e' : Nat) (h : cntKey o u e ≠ cntKey o' u' e') :
    cntGet (cntAdd o u e n s) o' u' e' = cntGet s o' u' e' :=
  mget_mset_ne 0 s.cnt h _

/-- A map read at a key other than the one written, whatever the two defaults are. -/
theorem mget_mset_neD (d e : V) (m : Map V) {k i : Nat} (h : k ≠ i) (v : V) :
    mget d (mset e m k v) i = mget d m i := by
  unfold mset
  split
  · induction m with
    | nil => rfl
    | cons x r ih =>
      obtain ⟨j, w⟩ := x
      by_cases hj : j = k
      · subst hj; simp [mget, h]; simpa using ih
      · simp [hj, mget]; split
        · rfl
        · simpa using ih
  · rw [mget_mput]; simp [h]

/-! ### Changes in order -/

@[simp] theorem each_nil {A S : Type} (f : A → S → S) (s : S) : each [] f s = s := rfl

theorem each_cons {A S : Type} (a : A) (r : List A) (f : A → S → S) (s : S) : each (a :: r) f s = each r f (f a s) := rfl

/-! ### The indexed parts -/

@[simp] theorem ring_modRing (g : Nat) (f) (s : State) : ring (modRing g f s) g = f (ring s g) :=
  mget_mset_same _ _ _ _

theorem ring_modRing_ne {g i : Nat} (h : g ≠ i) (f) (s : State) : ring (modRing g f s) i = ring s i :=
  mget_mset_ne _ _ h _

@[simp] theorem pool_modPool (g : Nat) (f) (s : State) : pool (modPool g f s) g = f (pool s g) :=
  mget_mset_same _ _ _ _

theorem pool_modPool_ne {g i : Nat} (h : g ≠ i) (f) (s : State) : pool (modPool g f s) i = pool s i :=
  mget_mset_ne _ _ h _

@[simp] theorem pipe_modPipe (g : Nat) (f) (s : State) : pipe (modPipe g f s) g = f (pipe s g) :=
  mget_mset_same _ _ _ _

theorem pipe_modPipe_ne {g i : Nat} (h : g ≠ i) (f) (s : State) : pipe (modPipe g f s) i = pipe s i :=
  mget_mset_ne _ _ h _

@[simp] theorem slice_modSlice (g : Nat) (f) (s : State) : slice (modSlice g f s) g = f (slice s g) :=
  mget_mset_same _ _ _ _

theorem slice_modSlice_ne {g i : Nat} (h : g ≠ i) (f) (s : State) : slice (modSlice g f s) i = slice s i :=
  mget_mset_ne _ _ h _

@[simp] theorem half_modHalf (g : Nat) (f) (s : State) : half (modHalf g f s) g = f (half s g) :=
  mget_mset_same _ _ _ _

theorem half_modHalf_ne {g i : Nat} (h : g ≠ i) (f) (s : State) : half (modHalf g f s) i = half s i :=
  mget_mset_ne _ _ h _

@[simp] theorem replicas_modReplicas (g : Nat) (f) (s : State) : replicas (modReplicas g f s) g = f (replicas s g) :=
  mget_mset_same _ _ _ _

theorem replicas_modReplicas_ne {g i : Nat} (h : g ≠ i) (f) (s : State) : replicas (modReplicas g f s) i = replicas s i :=
  mget_mset_ne _ _ h _

@[simp] theorem waitings_modWaitings (g : Nat) (f) (s : State) : waitings (modWaitings g f s) g = f (waitings s g) :=
  mget_mset_same _ _ _ _

theorem waitings_modWaitings_ne {g i : Nat} (h : g ≠ i) (f) (s : State) : waitings (modWaitings g f s) i = waitings s i :=
  mget_mset_ne _ _ h _

@[simp] theorem dieLink_modDieLink (g : Nat) (f) (s : State) : dieLink (modDieLink g f s) g = f (dieLink s g) :=
  mget_mset_same _ _ _ _

theorem dieLink_modDieLink_ne {g i : Nat} (h : g ≠ i) (f) (s : State) : dieLink (modDieLink g f s) i = dieLink s i :=
  mget_mset_ne _ _ h _

@[simp] theorem launch_modLaunch (g : Nat) (f) (s : State) : launch (modLaunch g f s) g = f (launch s g) :=
  mget_mset_same _ _ _ _

theorem launch_modLaunch_ne {g i : Nat} (h : g ≠ i) (f) (s : State) : launch (modLaunch g f s) i = launch s i :=
  mget_mset_ne _ _ h _

@[simp] theorem gates_modGates (g : Nat) (f) (s : State) : gates (modGates g f s) g = f (gates s g) :=
  mget_mset_same _ _ _ _

theorem gates_modGates_ne {g i : Nat} (h : g ≠ i) (f) (s : State) : gates (modGates g f s) i = gates s i :=
  mget_mset_ne _ _ h _

@[simp] theorem stack_modStack (g : Nat) (f) (s : State) : stack (modStack g f s) g = f (stack s g) :=
  mget_mset_same _ _ _ _

theorem stack_modStack_ne {g i : Nat} (h : g ≠ i) (f) (s : State) : stack (modStack g f s) i = stack s i :=
  mget_mset_ne _ _ h _

@[simp] theorem domain_modDomain (g : Nat) (f) (s : State) : domain (modDomain g f s) g = f (domain s g) :=
  mget_mset_same _ _ _ _

theorem domain_modDomain_ne {g i : Nat} (h : g ≠ i) (f) (s : State) : domain (modDomain g f s) i = domain s i :=
  mget_mset_ne _ _ h _

@[simp] theorem coreOf_modCore (g : Nat) (f) (s : State) : coreOf (modCore g f s) g = f (coreOf s g) :=
  mget_mset_same _ _ _ _

theorem coreOf_modCore_ne {g i : Nat} (h : g ≠ i) (f) (s : State) : coreOf (modCore g f s) i = coreOf s i :=
  mget_mset_ne _ _ h _

@[simp] theorem cluster_modCluster (g : Nat) (f) (s : State) : cluster (modCluster g f s) g = f (cluster s g) :=
  mget_mset_same _ _ _ _

theorem cluster_modCluster_ne {g i : Nat} (h : g ≠ i) (f) (s : State) : cluster (modCluster g f s) i = cluster s i :=
  mget_mset_ne _ _ h _

@[simp] theorem epochOf_modEpoch (g : Nat) (f) (s : State) : epochOf (modEpoch g f s) g = f (epochOf s g) :=
  mget_mset_same _ _ _ _

theorem epochOf_modEpoch_ne {g i : Nat} (h : g ≠ i) (f) (s : State) : epochOf (modEpoch g f s) i = epochOf s i :=
  mget_mset_ne _ _ h _

@[simp] theorem ring_modPool (p : Nat) (f) (s : State) (g : Nat) : ring (modPool p f s) g = ring s g := rfl
@[simp] theorem pool_modRing (g : Nat) (f) (s : State) (p : Nat) : pool (modRing g f s) p = pool s p := rfl
@[simp] theorem ring_modVec (l : Link) (v : Nat) (f) (s : State) (g : Nat) : ring (modVec l v f s) g = ring s g := rfl
@[simp] theorem ring_modLink (l : Link) (f) (s : State) (g : Nat) : ring (modLink l f s) g = ring s g := by cases l <;> rfl
@[simp] theorem pool_modLink (l : Link) (f) (s : State) (p : Nat) : pool (modLink l f s) p = pool s p := by cases l <;> rfl

@[simp] theorem vec_modVec (l : Link) (v : Nat) (f) (s : State) : vec (modVec l v f s) l v = f (vec s l v) :=
  mget_mset_same _ _ _ _

@[simp] theorem vec_modRing (g : Nat) (f) (s : State) (l : Link) (v : Nat) : vec (modRing g f s) l v = vec s l v := rfl

end Sys2Proof.Laws
end

