-- ==== Sys2Proof/Laws/Raise.lean ====
section
/-! SUPPORT. Raising an event leaves every part but those events are kept in: the rings and host memory, the logbook and its
flash, the counters, the guarantee's status and the service port. -/

namespace Sys2Proof.Laws

open Sys2Proof.Machine

theorem raise_only (src code p0 p1 p2 p3 : Nat) (s : State) : Only 10334771488 s (raise src code p0 p1 p2 p3 s) :=
  raise_keeps (Only.allows _ _) rfl _ _ _ _ _ _ _ (Only.refl _ s)

theorem raiseSev_only (sev src code p0 p1 p2 p3 : Nat) (s : State) : Only 10334771488 s (raiseSev sev src code p0 p1 p2 p3 s) :=
  raiseSev_keeps (Only.allows _ _) rfl _ _ _ _ _ _ _ _ (Only.refl _ s)

@[simp] theorem raise_part (src code p0 p1 p2 p3 : Nat) (s : State) : (raise src code p0 p1 p2 p3 s).part = s.part :=
  (raise_only src code p0 p1 p2 p3 s).part rfl
@[simp] theorem raise_pending (src code p0 p1 p2 p3 : Nat) (s : State) : (raise src code p0 p1 p2 p3 s).pending = s.pending :=
  (raise_only src code p0 p1 p2 p3 s).pending rfl
@[simp] theorem raise_now (src code p0 p1 p2 p3 : Nat) (s : State) : (raise src code p0 p1 p2 p3 s).now = s.now :=
  (raise_only src code p0 p1 p2 p3 s).now rfl
@[simp] theorem raise_free (src code p0 p1 p2 p3 : Nat) (s : State) : (raise src code p0 p1 p2 p3 s).free = s.free :=
  (raise_only src code p0 p1 p2 p3 s).free rfl
@[simp] theorem raise_actor (src code p0 p1 p2 p3 : Nat) (s : State) : (raise src code p0 p1 p2 p3 s).actor = s.actor :=
  (raise_only src code p0 p1 p2 p3 s).actor rfl
@[simp] theorem raise_regs (src code p0 p1 p2 p3 : Nat) (s : State) : (raise src code p0 p1 p2 p3 s).regs = s.regs :=
  (raise_only src code p0 p1 p2 p3 s).regs rfl
@[simp] theorem raise_readData (src code p0 p1 p2 p3 : Nat) (s : State) : (raise src code p0 p1 p2 p3 s).readData = s.readData :=
  (raise_only src code p0 p1 p2 p3 s).readData rfl
@[simp] theorem raise_tmem (src code p0 p1 p2 p3 : Nat) (s : State) : (raise src code p0 p1 p2 p3 s).tmem = s.tmem :=
  (raise_only src code p0 p1 p2 p3 s).tmem rfl
@[simp] theorem raise_mem (src code p0 p1 p2 p3 : Nat) (s : State) : (raise src code p0 p1 p2 p3 s).mem = s.mem :=
  (raise_only src code p0 p1 p2 p3 s).mem rfl
@[simp] theorem raise_pkts (src code p0 p1 p2 p3 : Nat) (s : State) : (raise src code p0 p1 p2 p3 s).pkts = s.pkts :=
  (raise_only src code p0 p1 p2 p3 s).pkts rfl
@[simp] theorem raise_nextPkt (src code p0 p1 p2 p3 : Nat) (s : State) : (raise src code p0 p1 p2 p3 s).nextPkt = s.nextPkt :=
  (raise_only src code p0 p1 p2 p3 s).nextPkt rfl
@[simp] theorem raise_cls (src code p0 p1 p2 p3 : Nat) (s : State) : (raise src code p0 p1 p2 p3 s).cls = s.cls :=
  (raise_only src code p0 p1 p2 p3 s).cls rfl
@[simp] theorem raise_fwd (src code p0 p1 p2 p3 : Nat) (s : State) : (raise src code p0 p1 p2 p3 s).fwd = s.fwd :=
  (raise_only src code p0 p1 p2 p3 s).fwd rfl
@[simp] theorem raise_flow (src code p0 p1 p2 p3 : Nat) (s : State) : (raise src code p0 p1 p2 p3 s).flow = s.flow :=
  (raise_only src code p0 p1 p2 p3 s).flow rfl
@[simp] theorem raise_pipes (src code p0 p1 p2 p3 : Nat) (s : State) : (raise src code p0 p1 p2 p3 s).pipes = s.pipes :=
  (raise_only src code p0 p1 p2 p3 s).pipes rfl
@[simp] theorem raise_aligned (src code p0 p1 p2 p3 : Nat) (s : State) : (raise src code p0 p1 p2 p3 s).aligned = s.aligned :=
  (raise_only src code p0 p1 p2 p3 s).aligned rfl
@[simp] theorem raise_ctimeBase (src code p0 p1 p2 p3 : Nat) (s : State) : (raise src code p0 p1 p2 p3 s).ctimeBase = s.ctimeBase :=
  (raise_only src code p0 p1 p2 p3 s).ctimeBase rfl
@[simp] theorem raise_tsk (src code p0 p1 p2 p3 : Nat) (s : State) : (raise src code p0 p1 p2 p3 s).tsk = s.tsk :=
  (raise_only src code p0 p1 p2 p3 s).tsk rfl
@[simp] theorem raise_buf (src code p0 p1 p2 p3 : Nat) (s : State) : (raise src code p0 p1 p2 p3 s).buf = s.buf :=
  (raise_only src code p0 p1 p2 p3 s).buf rfl
@[simp] theorem raise_fab (src code p0 p1 p2 p3 : Nat) (s : State) : (raise src code p0 p1 p2 p3 s).fab = s.fab :=
  (raise_only src code p0 p1 p2 p3 s).fab rfl
@[simp] theorem raise_egs (src code p0 p1 p2 p3 : Nat) (s : State) : (raise src code p0 p1 p2 p3 s).egs = s.egs :=
  (raise_only src code p0 p1 p2 p3 s).egs rfl
@[simp] theorem raise_tim (src code p0 p1 p2 p3 : Nat) (s : State) : (raise src code p0 p1 p2 p3 s).tim = s.tim :=
  (raise_only src code p0 p1 p2 p3 s).tim rfl
@[simp] theorem raise_hbm (src code p0 p1 p2 p3 : Nat) (s : State) : (raise src code p0 p1 p2 p3 s).hbm = s.hbm :=
  (raise_only src code p0 p1 p2 p3 s).hbm rfl
@[simp] theorem raise_cus (src code p0 p1 p2 p3 : Nat) (s : State) : (raise src code p0 p1 p2 p3 s).cus = s.cus :=
  (raise_only src code p0 p1 p2 p3 s).cus rfl
@[simp] theorem raise_lcs (src code p0 p1 p2 p3 : Nat) (s : State) : (raise src code p0 p1 p2 p3 s).lcs = s.lcs :=
  (raise_only src code p0 p1 p2 p3 s).lcs rfl
@[simp] theorem raise_pwr (src code p0 p1 p2 p3 : Nat) (s : State) : (raise src code p0 p1 p2 p3 s).pwr = s.pwr :=
  (raise_only src code p0 p1 p2 p3 s).pwr rfl
@[simp] theorem raiseSev_part (sev src code p0 p1 p2 p3 : Nat) (s : State) : (raiseSev sev src code p0 p1 p2 p3 s).part = s.part :=
  (raiseSev_only sev src code p0 p1 p2 p3 s).part rfl
@[simp] theorem raiseSev_pending (sev src code p0 p1 p2 p3 : Nat) (s : State) : (raiseSev sev src code p0 p1 p2 p3 s).pending = s.pending :=
  (raiseSev_only sev src code p0 p1 p2 p3 s).pending rfl
@[simp] theorem raiseSev_now (sev src code p0 p1 p2 p3 : Nat) (s : State) : (raiseSev sev src code p0 p1 p2 p3 s).now = s.now :=
  (raiseSev_only sev src code p0 p1 p2 p3 s).now rfl
@[simp] theorem raiseSev_free (sev src code p0 p1 p2 p3 : Nat) (s : State) : (raiseSev sev src code p0 p1 p2 p3 s).free = s.free :=
  (raiseSev_only sev src code p0 p1 p2 p3 s).free rfl
@[simp] theorem raiseSev_actor (sev src code p0 p1 p2 p3 : Nat) (s : State) : (raiseSev sev src code p0 p1 p2 p3 s).actor = s.actor :=
  (raiseSev_only sev src code p0 p1 p2 p3 s).actor rfl
@[simp] theorem raiseSev_regs (sev src code p0 p1 p2 p3 : Nat) (s : State) : (raiseSev sev src code p0 p1 p2 p3 s).regs = s.regs :=
  (raiseSev_only sev src code p0 p1 p2 p3 s).regs rfl
@[simp] theorem raiseSev_readData (sev src code p0 p1 p2 p3 : Nat) (s : State) : (raiseSev sev src code p0 p1 p2 p3 s).readData = s.readData :=
  (raiseSev_only sev src code p0 p1 p2 p3 s).readData rfl
@[simp] theorem raiseSev_tmem (sev src code p0 p1 p2 p3 : Nat) (s : State) : (raiseSev sev src code p0 p1 p2 p3 s).tmem = s.tmem :=
  (raiseSev_only sev src code p0 p1 p2 p3 s).tmem rfl
@[simp] theorem raiseSev_mem (sev src code p0 p1 p2 p3 : Nat) (s : State) : (raiseSev sev src code p0 p1 p2 p3 s).mem = s.mem :=
  (raiseSev_only sev src code p0 p1 p2 p3 s).mem rfl
@[simp] theorem raiseSev_pkts (sev src code p0 p1 p2 p3 : Nat) (s : State) : (raiseSev sev src code p0 p1 p2 p3 s).pkts = s.pkts :=
  (raiseSev_only sev src code p0 p1 p2 p3 s).pkts rfl
@[simp] theorem raiseSev_nextPkt (sev src code p0 p1 p2 p3 : Nat) (s : State) : (raiseSev sev src code p0 p1 p2 p3 s).nextPkt = s.nextPkt :=
  (raiseSev_only sev src code p0 p1 p2 p3 s).nextPkt rfl
@[simp] theorem raiseSev_cls (sev src code p0 p1 p2 p3 : Nat) (s : State) : (raiseSev sev src code p0 p1 p2 p3 s).cls = s.cls :=
  (raiseSev_only sev src code p0 p1 p2 p3 s).cls rfl
@[simp] theorem raiseSev_fwd (sev src code p0 p1 p2 p3 : Nat) (s : State) : (raiseSev sev src code p0 p1 p2 p3 s).fwd = s.fwd :=
  (raiseSev_only sev src code p0 p1 p2 p3 s).fwd rfl
@[simp] theorem raiseSev_flow (sev src code p0 p1 p2 p3 : Nat) (s : State) : (raiseSev sev src code p0 p1 p2 p3 s).flow = s.flow :=
  (raiseSev_only sev src code p0 p1 p2 p3 s).flow rfl
@[simp] theorem raiseSev_pipes (sev src code p0 p1 p2 p3 : Nat) (s : State) : (raiseSev sev src code p0 p1 p2 p3 s).pipes = s.pipes :=
  (raiseSev_only sev src code p0 p1 p2 p3 s).pipes rfl
@[simp] theorem raiseSev_aligned (sev src code p0 p1 p2 p3 : Nat) (s : State) : (raiseSev sev src code p0 p1 p2 p3 s).aligned = s.aligned :=
  (raiseSev_only sev src code p0 p1 p2 p3 s).aligned rfl
@[simp] theorem raiseSev_ctimeBase (sev src code p0 p1 p2 p3 : Nat) (s : State) : (raiseSev sev src code p0 p1 p2 p3 s).ctimeBase = s.ctimeBase :=
  (raiseSev_only sev src code p0 p1 p2 p3 s).ctimeBase rfl
@[simp] theorem raiseSev_tsk (sev src code p0 p1 p2 p3 : Nat) (s : State) : (raiseSev sev src code p0 p1 p2 p3 s).tsk = s.tsk :=
  (raiseSev_only sev src code p0 p1 p2 p3 s).tsk rfl
@[simp] theorem raiseSev_buf (sev src code p0 p1 p2 p3 : Nat) (s : State) : (raiseSev sev src code p0 p1 p2 p3 s).buf = s.buf :=
  (raiseSev_only sev src code p0 p1 p2 p3 s).buf rfl
@[simp] theorem raiseSev_fab (sev src code p0 p1 p2 p3 : Nat) (s : State) : (raiseSev sev src code p0 p1 p2 p3 s).fab = s.fab :=
  (raiseSev_only sev src code p0 p1 p2 p3 s).fab rfl
@[simp] theorem raiseSev_egs (sev src code p0 p1 p2 p3 : Nat) (s : State) : (raiseSev sev src code p0 p1 p2 p3 s).egs = s.egs :=
  (raiseSev_only sev src code p0 p1 p2 p3 s).egs rfl
@[simp] theorem raiseSev_tim (sev src code p0 p1 p2 p3 : Nat) (s : State) : (raiseSev sev src code p0 p1 p2 p3 s).tim = s.tim :=
  (raiseSev_only sev src code p0 p1 p2 p3 s).tim rfl
@[simp] theorem raiseSev_hbm (sev src code p0 p1 p2 p3 : Nat) (s : State) : (raiseSev sev src code p0 p1 p2 p3 s).hbm = s.hbm :=
  (raiseSev_only sev src code p0 p1 p2 p3 s).hbm rfl
@[simp] theorem raiseSev_cus (sev src code p0 p1 p2 p3 : Nat) (s : State) : (raiseSev sev src code p0 p1 p2 p3 s).cus = s.cus :=
  (raiseSev_only sev src code p0 p1 p2 p3 s).cus rfl
@[simp] theorem raiseSev_lcs (sev src code p0 p1 p2 p3 : Nat) (s : State) : (raiseSev sev src code p0 p1 p2 p3 s).lcs = s.lcs :=
  (raiseSev_only sev src code p0 p1 p2 p3 s).lcs rfl
@[simp] theorem raiseSev_pwr (sev src code p0 p1 p2 p3 : Nat) (s : State) : (raiseSev sev src code p0 p1 p2 p3 s).pwr = s.pwr :=
  (raiseSev_only sev src code p0 p1 p2 p3 s).pwr rfl

/-! ### What an event leaves of the host interface and the counters -/

/-- u differs from s, in the host interface, in event rings and vectors only, and in the counters, in those of the host
interface, the check engines and the logbook only. -/
structure EvFrame (s u : State) : Prop where
  hif : u.hif = { s.hif with rings := u.hif.rings, vecs := u.hif.vecs }
  rings : ∀ g, ¬(128 ≤ g ∧ g < 144) → ring u g = ring s g
  cnts : ∀ o a e, a < 2 ^ 12 → e < 2 ^ 28 → o ≠ 0x0381 → o ≠ 0x0C81 → o ≠ 0x0D81 → cntGet u o a e = cntGet s o a e

theorem EvFrame.refl (s : State) : EvFrame s s := ⟨rfl, fun _ _ => rfl, fun _ _ _ _ _ _ _ _ => rfl⟩

theorem EvFrame.trans {s u v : State} (H : EvFrame s u) (K : EvFrame u v) : EvFrame s v :=
  ⟨by rw [K.hif, H.hif], fun g h => (K.rings g h).trans (H.rings g h),
    fun o a e h1 h2 h3 h4 h5 => (K.cnts o a e h1 h2 h3 h4 h5).trans (H.cnts o a e h1 h2 h3 h4 h5)⟩

/-- A change that leaves the host interface and the counters. -/
theorem EvFrame.of {s u v : State} (H : EvFrame s u) (h : v.hif = u.hif) (c : v.cnt = u.cnt) : EvFrame s v := by
  refine H.trans ⟨by rw [h], fun g _ => ?_, fun o a e _ _ _ _ _ => ?_⟩
  · unfold ring; rw [h]
  · unfold cntGet; rw [c]

theorem EvFrame.modRing {s u : State} (H : EvFrame s u) {g : Nat} (h : 128 ≤ g ∧ g < 144) (f : Ring → Ring) :
    EvFrame s (modRing g f u) :=
  H.trans ⟨rfl, fun k hk => ring_modRing_ne (fun e => hk (by rw [← e]; exact h)) f u, fun _ _ _ _ _ _ _ _ => rfl⟩

theorem EvFrame.modVec {s u : State} (H : EvFrame s u) (l : Link) (v : Nat) (f : Vec → Vec) : EvFrame s (modVec l v f u) :=
  H.trans ⟨rfl, fun _ _ => rfl, fun _ _ _ _ _ _ _ _ => rfl⟩

theorem cntKey_ne {o o' a a' e e' : Nat} (h : o ≠ o') (h1 : a < 2 ^ 12) (h2 : e < 2 ^ 28) (h3 : a' < 2 ^ 12) (h4 : e' < 2 ^ 28) :
    cntKey o a e ≠ cntKey o' a' e' := by
  unfold cntKey
  omega

theorem EvFrame.cntInc {s u : State} (H : EvFrame s u) {o e : Nat} (h : o = 0x0381 ∨ o = 0x0C81 ∨ o = 0x0D81) (he : e < 2 ^ 28) :
    EvFrame s (cntInc o 0 e u) := by
  refine H.trans ⟨rfl, fun _ _ => rfl, fun o' a' e' h1 h2 h3 h4 h5 => ?_⟩
  exact cntGet_cntAdd_ne u o 0 e 1 o' a' e' (cntKey_ne (by omega) (by omega) he h1 h2)

theorem EvFrame.hostWr {s u : State} (H : EvFrame s u) (a : Nat) (bs : List Byte) : EvFrame s (hostWr a bs u) := H.of rfl rfl

theorem EvFrame.statusWrite {s u : State} (H : EvFrame s u) (g i : Nat) : EvFrame s (statusWrite g i u) := by
  unfold Machine.statusWrite
  dsimp only
  split
  · exact H.hostWr _ _
  · exact H

theorem EvFrame.publish {s u : State} (H : EvFrame s u) {g : Nat} (h : 128 ≤ g ∧ g < 144) (n : Nat) : EvFrame s (publish g n u) := by
  unfold Machine.publish
  exact (H.statusWrite _ _).modRing h _

theorem EvFrame.publishEvent {s u : State} (H : EvFrame s u) {g : Nat} (h : 128 ≤ g ∧ g < 144) : EvFrame s (publishEvent g u) := by
  unfold Machine.publishEvent
  split
  · exact H
  · dsimp only
    split
    · exact ((H.publish h _).modRing h _).modVec _ _ _
    · exact (H.publish h _).modRing h _

theorem EvFrame.newestDesc {s u : State} (H : EvFrame s u) {g : Nat} (h : 128 ≤ g ∧ g < 144) (bs e f) :
    EvFrame s (newestDesc g bs e f u) := by
  unfold Machine.newestDesc writeDesc
  exact (((H.publishEvent h).hostWr _ _).modRing h _).modRing h _

theorem EvFrame.eventLost {s u : State} (H : EvFrame s u) {g : Nat} (h : 128 ≤ g ∧ g < 144) : EvFrame s (eventLost g u) := by
  unfold Machine.eventLost
  dsimp only
  split
  · split
    · exact H
    · exact (H.newestDesc h _ _ _).modRing h _
  · exact H

theorem EvFrame.toRing {s u : State} (H : EvFrame s u) {g : Nat} (h : 128 ≤ g ∧ g < 144) (e : Ev) : EvFrame s (toRing g e u).2 := by
  unfold Machine.toRing
  extract_lets s1 s2 r fold
  have K : EvFrame s s2 := (H.modRing h _).eventLost h
  clear_value fold r
  split
  · split
    · exact K
    · dsimp only
      split
      · exact ((K.hostWr _ _).modRing h _).publishEvent h
      · exact (K.hostWr _ _).modRing h _
  · split
    · refine (K.modRing h _).cntInc (.inl rfl) ?_
      split <;> decide
    · exact K.newestDesc h _ _ _

theorem EvFrame.appendRec {s u : State} (H : EvFrame s u) (e : Ev) (a b : Nat) (l : Bool) : EvFrame s (appendRec e a b l u) := by
  unfold Machine.appendRec
  refine EvFrame.cntInc ?_ (.inr (.inr rfl)) (by decide)
  exact H.of rfl rfl

theorem EvFrame.logLostRec {s u : State} (H : EvFrame s u) : EvFrame s (logLostRec u) := by
  unfold Machine.logLostRec
  split
  · dsimp only
    refine EvFrame.appendRec ?_ _ _ _ _
    exact H.of rfl rfl
  · exact H

theorem EvFrame.logAccept {s u : State} (H : EvFrame s u) (e : Ev) (l : Bool) : EvFrame s (logAccept e l u) := by
  unfold Machine.logAccept
  dsimp only
  split
  · refine EvFrame.cntInc (e := 1) ?_ (.inr (.inr rfl)) (by decide)
    exact (H.logLostRec).of rfl rfl
  · split
    · refine EvFrame.cntInc (e := 2) ?_ (.inr (.inr rfl)) (by decide)
      exact (H.logLostRec).of rfl rfl
    · exact H.logLostRec.appendRec _ _ _ _

theorem srcMap_range {s : State} {src g v : Nat} (h : srcMap s src = some (g, v)) : 128 ≤ g ∧ g < 144 := by
  unfold srcMap at h
  dsimp only at h
  split at h
  · simp only [Option.some.injEq, Prod.mk.injEq] at h
    have : cfg s (.hifEvsrcMap src) 11 8 < 16 := by
      unfold cfg fld
      omega
    omega
  · cases h

theorem EvFrame.deliver {s u : State} (H : EvFrame s u) (e : Ev) : EvFrame s (deliver e u) := by
  unfold Machine.deliver
  dsimp only
  have K : EvFrame s (if e.sev = 3 then { { u with raised := u.raised + 1 } with smb := { u.smb with fatal := true } }
      else { u with raised := u.raised + 1 }) := by
    split
    · exact H.of rfl rfl
    · exact H.of rfl rfl
  split
  · rename_i h
    exact EvFrame.logAccept (K.toRing (srcMap_range h) _) _ _
  · exact K.logAccept _ _

theorem EvFrame.freezeCheck {s u : State} (H : EvFrame s u) : EvFrame s (freezeCheck u) := by
  unfold Machine.freezeCheck
  split
  · refine EvFrame.deliver ?_ _
    exact H.of rfl rfl
  · exact H

theorem EvFrame.eventsLapse {s u : State} (H : EvFrame s u) : EvFrame s (eventsLapse u) := by
  unfold Machine.eventsLapse
  split
  · refine EvFrame.cntInc (e := 13) ?_ (.inr (.inl rfl)) (by decide)
    refine EvFrame.deliver ?_ _
    exact H.of rfl rfl
  · exact H

theorem EvFrame.raiseSev {s u : State} (H : EvFrame s u) (sev src code p0 p1 p2 p3 : Nat) :
    EvFrame s (raiseSev sev src code p0 p1 p2 p3 u) := by
  unfold Machine.raiseSev
  split
  · exact H
  · refine EvFrame.eventsLapse (EvFrame.freezeCheck (H.deliver _))

theorem EvFrame.raise {s u : State} (H : EvFrame s u) (src code p0 p1 p2 p3 : Nat) : EvFrame s (raise src code p0 p1 p2 p3 u) :=
  H.raiseSev _ _ _ _ _ _ _

/-- An event leaves a ring that is not an event ring. -/
theorem raise_ring (src code p0 p1 p2 p3 : Nat) (s : State) {g : Nat} (h : ¬(128 ≤ g ∧ g < 144)) :
    ring (raise src code p0 p1 p2 p3 s) g = ring s g := ((EvFrame.refl s).raise _ _ _ _ _ _).rings g h

/-- An event leaves the host interface but for event rings and vectors. -/
theorem raise_hif (src code p0 p1 p2 p3 : Nat) (s : State) : (raise src code p0 p1 p2 p3 s).hif
    = { s.hif with rings := (raise src code p0 p1 p2 p3 s).hif.rings, vecs := (raise src code p0 p1 p2 p3 s).hif.vecs } :=
  ((EvFrame.refl s).raise _ _ _ _ _ _).hif

/-! ### Events that no ring takes -/

/-- u has the host memory of s, in which no event source is mapped to a ring, and no ring or source of it is changed. -/
structure Unmapped (s u : State) : Prop where
  none : ∀ src, srcMap s src = none
  regs : u.regs = s.regs
  host : u.host = s.host

theorem Unmapped.map {s u : State} (H : Unmapped s u) (src : Nat) : srcMap u src = Option.none := by
  rw [← H.none src]
  unfold srcMap cfgBit cfg stored
  rw [H.regs]

theorem Unmapped.of {s u v : State} (H : Unmapped s u) (r : v.regs = u.regs) (h : v.host = u.host) : Unmapped s v :=
  ⟨H.none, r.trans H.regs, h.trans H.host⟩

theorem Unmapped.appendRec {s u : State} (H : Unmapped s u) (e : Ev) (a b : Nat) (l : Bool) : Unmapped s (appendRec e a b l u) := by
  unfold Machine.appendRec
  exact H.of rfl rfl

theorem Unmapped.logLostRec {s u : State} (H : Unmapped s u) : Unmapped s (logLostRec u) := by
  unfold Machine.logLostRec
  split
  · dsimp only
    refine Unmapped.appendRec ?_ _ _ _ _
    exact H.of rfl rfl
  · exact H

theorem Unmapped.logAccept {s u : State} (H : Unmapped s u) (e : Ev) (l : Bool) : Unmapped s (logAccept e l u) := by
  unfold Machine.logAccept
  dsimp only
  split
  · exact (H.logLostRec).of rfl rfl
  · split
    · exact (H.logLostRec).of rfl rfl
    · exact H.logLostRec.appendRec _ _ _ _

theorem Unmapped.deliver {s u : State} (H : Unmapped s u) (e : Ev) : Unmapped s (deliver e u) := by
  unfold Machine.deliver
  dsimp only
  have K : Unmapped s (if e.sev = 3 then { { u with raised := u.raised + 1 } with smb := { u.smb with fatal := true } }
      else { u with raised := u.raised + 1 }) := by
    split
    · exact H.of rfl rfl
    · exact H.of rfl rfl
  rw [K.map]
  exact K.logAccept _ _

theorem Unmapped.raise {s u : State} (H : Unmapped s u) (src code p0 p1 p2 p3 : Nat) : Unmapped s (raise src code p0 p1 p2 p3 u) := by
  unfold Machine.raise Machine.raiseSev
  split
  · exact H
  · have F : ∀ v, Unmapped s v → Unmapped s (freezeCheck v) := by
      intro v K
      unfold freezeCheck
      split
      · refine Unmapped.deliver ?_ _
        exact K.of rfl rfl
      · exact K
    have E : ∀ v, Unmapped s v → Unmapped s (eventsLapse v) := by
      intro v K
      unfold eventsLapse
      split
      · refine Unmapped.of (u := Machine.deliver _ _) (Unmapped.deliver (u := modChk (fun c => { c with guard := c.guard - 32 }) v) ?_ _) rfl rfl
        exact K.of rfl rfl
      · exact K
    exact E _ (F _ (H.deliver _))

/-- An event that no ring takes leaves host memory. -/
theorem raise_host (src code p0 p1 p2 p3 : Nat) (s : State) (h : ∀ src, srcMap s src = none) :
    (raise src code p0 p1 p2 p3 s).host = s.host := (Unmapped.raise ⟨h, rfl, rfl⟩ _ _ _ _ _ _).host

end Sys2Proof.Laws
end

