-- ==== Sys2Proof/Laws/Punts.lean ====
section
/-! SUPPORT. What freeing a frame's cells and ending a punt leave of the host interface. -/

namespace Sys2Proof.Laws

open Sys2Proof.Machine

/-- A PFC frame leaves the registers, the host interface and host memory. -/
theorem sendPfc_host (port q quanta : Nat) (s : State) :
    (sendPfc port q quanta s).hif = s.hif ∧ (sendPfc port q quanta s).regs = s.regs ∧ (sendPfc port q quanta s).host = s.host := by
  unfold sendPfc
  split
  · exact ⟨rfl, rfl, rfl⟩
  · split <;> exact ⟨rfl, rfl, rfl⟩

/-- So does taking a cell off an ingress account. -/
theorem unchargeCell_host (port q : Nat) (s : State) :
    (unchargeCell port q s).hif = s.hif ∧ (unchargeCell port q s).regs = s.regs ∧ (unchargeCell port q s).host = s.host := by
  unfold unchargeCell
  dsimp only
  split
  · exact sendPfc_host _ _ _ _
  · exact ⟨rfl, rfl, rfl⟩

/-- u differs from s, in the host interface, in event rings and vectors only. -/
structure HifFrame (s u : State) : Prop where
  hif : u.hif = { s.hif with rings := u.hif.rings, vecs := u.hif.vecs }
  rings : ∀ g, ¬(128 ≤ g ∧ g < 144) → ring u g = ring s g

theorem EvFrame.toHif {s u : State} (H : EvFrame s u) : HifFrame s u := ⟨H.hif, H.rings⟩

theorem HifFrame.refl (s : State) : HifFrame s s := ⟨rfl, fun _ _ => rfl⟩

theorem HifFrame.trans {s u v : State} (H : HifFrame s u) (K : HifFrame u v) : HifFrame s v :=
  ⟨by rw [K.hif, H.hif], fun g h => (K.rings g h).trans (H.rings g h)⟩

/-- A change that leaves the host interface. -/
theorem HifFrame.of {s u v : State} (H : HifFrame s u) (h : v.hif = u.hif) : HifFrame s v := by
  refine H.trans ⟨by rw [h], fun g _ => ?_⟩
  unfold ring; rw [h]

theorem HifFrame.raise {s u : State} (H : HifFrame s u) (src code p0 p1 p2 p3 : Nat) : HifFrame s (raise src code p0 p1 p2 p3 u) :=
  H.trans ((EvFrame.refl u).raise _ _ _ _ _ _).toHif

theorem HifFrame.each {A : Type} {s : State} (l : List A) (f : A → State → State) (k : ∀ a t, HifFrame s t → HifFrame s (f a t)) :
    ∀ u, HifFrame s u → HifFrame s (each l f u) := each_keeps (P := HifFrame s) l f k

theorem HifFrame.badFree {s u : State} (H : HifFrame s u) (b : Bool) (k t : Nat) : HifFrame s (badFree b k t u) := by
  unfold Machine.badFree
  refine HifFrame.raise ?_ _ _ _ _ _ _
  exact H.of rfl

theorem HifFrame.freeCell {s u : State} (H : HifFrame s u) (t k : Nat) : HifFrame s (freeCell t k u) := by
  unfold Machine.freeCell
  split
  · exact H.badFree _ _ _
  · split
    · exact H.badFree _ _ _
    · exact H.of rfl

theorem HifFrame.moveCell {s u : State} (H : HifFrame s u) (p t k : Nat) : HifFrame s (moveCell p t k u) := by
  unfold Machine.moveCell
  split
  · exact H.badFree _ _ _
  · split
    · exact H.badFree _ _ _
    · exact H.of rfl

theorem HifFrame.moveCells {s u : State} (H : HifFrame s u) (ks : List Nat) (t : Nat) : HifFrame s (moveCells ks t u) :=
  HifFrame.each _ _ (fun _ _ h => h.moveCell _ _ _) _ H

theorem HifFrame.retag {s u : State} (H : HifFrame s u) (k t : Nat) : HifFrame s (retag k t u) := by
  unfold Machine.retag
  split
  · exact H
  · exact H.moveCells _ _

theorem HifFrame.freeOwn {s u : State} (H : HifFrame s u) (ks : List Nat) : HifFrame s (freeOwn ks u) :=
  HifFrame.each _ _ (fun _ _ h => h.freeCell _ _) _ H

theorem HifFrame.freeFrame {s u : State} (H : HifFrame s u) (k : Nat) : HifFrame s (freeFrame k u) := by
  have A : HifFrame s (freeIngress k u) := by
    unfold Machine.freeIngress
    split
    · exact H
    · rename_i p _
      have C := HifFrame.each (upTo p.charged) (fun _ t => unchargeCell p.port p.pri t)
        (fun _ t h => h.of (unchargeCell_host _ _ t).1) _ (H.freeOwn p.cells)
      exact C.of rfl
  unfold Machine.freeFrame Machine.freeDest
  split
  · exact A
  · rename_i p _
    exact (A.freeOwn p.dcells).of rfl

theorem HifFrame.puntDone {s u : State} (H : HifFrame s u) (p : Punt) : HifFrame s (puntDone p u) := by
  unfold Machine.puntDone
  exact (H.freeFrame _).of rfl

/-! ### Host memory, when no event source is mapped -/

theorem Unmapped.each {A : Type} {s : State} (l : List A) (f : A → State → State) (k : ∀ a t, Unmapped s t → Unmapped s (f a t)) :
    ∀ u, Unmapped s u → Unmapped s (each l f u) := each_keeps (P := Unmapped s) l f k

theorem Unmapped.badFree {s u : State} (H : Unmapped s u) (b : Bool) (k t : Nat) : Unmapped s (badFree b k t u) := by
  unfold Machine.badFree
  refine Unmapped.raise ?_ _ _ _ _ _ _
  exact H.of rfl rfl

theorem Unmapped.freeCell {s u : State} (H : Unmapped s u) (t k : Nat) : Unmapped s (freeCell t k u) := by
  unfold Machine.freeCell
  split
  · exact H.badFree _ _ _
  · split
    · exact H.badFree _ _ _
    · exact H.of rfl rfl

theorem Unmapped.moveCell {s u : State} (H : Unmapped s u) (p t k : Nat) : Unmapped s (moveCell p t k u) := by
  unfold Machine.moveCell
  split
  · exact H.badFree _ _ _
  · split
    · exact H.badFree _ _ _
    · exact H.of rfl rfl

theorem Unmapped.moveCells {s u : State} (H : Unmapped s u) (ks : List Nat) (t : Nat) : Unmapped s (moveCells ks t u) :=
  Unmapped.each _ _ (fun _ _ h => h.moveCell _ _ _) _ H

theorem Unmapped.retag {s u : State} (H : Unmapped s u) (k t : Nat) : Unmapped s (retag k t u) := by
  unfold Machine.retag
  split
  · exact H
  · exact H.moveCells _ _

theorem Unmapped.freeOwn {s u : State} (H : Unmapped s u) (ks : List Nat) : Unmapped s (freeOwn ks u) :=
  Unmapped.each _ _ (fun _ _ h => h.freeCell _ _) _ H

theorem Unmapped.freeFrame {s u : State} (H : Unmapped s u) (k : Nat) : Unmapped s (freeFrame k u) := by
  have A : Unmapped s (freeIngress k u) := by
    unfold Machine.freeIngress
    split
    · exact H
    · rename_i p _
      have C := Unmapped.each (upTo p.charged) (fun _ t => unchargeCell p.port p.pri t)
        (fun _ t h => h.of (unchargeCell_host _ _ t).2.1 (unchargeCell_host _ _ t).2.2) _ (H.freeOwn p.cells)
      exact C.of rfl rfl
  unfold Machine.freeFrame Machine.freeDest
  split
  · exact A
  · rename_i p _
    exact (A.freeOwn p.dcells).of rfl rfl

theorem Unmapped.puntDone {s u : State} (H : Unmapped s u) (p : Punt) : Unmapped s (puntDone p u) := by
  unfold Machine.puntDone
  exact (H.freeFrame _).of rfl rfl

end Sys2Proof.Laws
end

