-- ==== Sys2Proof/Laws/State.lean ====
section
/-! SUPPORT. One lemma per field per update of the state: what the named updates of Machine/Ops.lean leave, so that no later
proof unfolds a record update. -/

namespace Sys2Proof.Laws

open Sys2Proof.Machine

@[simp] theorem cntSet_part (s : State) x1 x2 x3 x4 : (cntSet s x1 x2 x3 x4).part = s.part := rfl
@[simp] theorem cntSet_pending (s : State) x1 x2 x3 x4 : (cntSet s x1 x2 x3 x4).pending = s.pending := rfl
@[simp] theorem cntSet_now (s : State) x1 x2 x3 x4 : (cntSet s x1 x2 x3 x4).now = s.now := rfl
@[simp] theorem cntSet_free (s : State) x1 x2 x3 x4 : (cntSet s x1 x2 x3 x4).free = s.free := rfl
@[simp] theorem cntSet_actor (s : State) x1 x2 x3 x4 : (cntSet s x1 x2 x3 x4).actor = s.actor := rfl
@[simp] theorem cntSet_raised (s : State) x1 x2 x3 x4 : (cntSet s x1 x2 x3 x4).raised = s.raised := rfl
@[simp] theorem cntSet_regs (s : State) x1 x2 x3 x4 : (cntSet s x1 x2 x3 x4).regs = s.regs := rfl
@[simp] theorem cntSet_readData (s : State) x1 x2 x3 x4 : (cntSet s x1 x2 x3 x4).readData = s.readData := rfl
@[simp] theorem cntSet_host (s : State) x1 x2 x3 x4 : (cntSet s x1 x2 x3 x4).host = s.host := rfl
@[simp] theorem cntSet_tmem (s : State) x1 x2 x3 x4 : (cntSet s x1 x2 x3 x4).tmem = s.tmem := rfl
@[simp] theorem cntSet_mem (s : State) x1 x2 x3 x4 : (cntSet s x1 x2 x3 x4).mem = s.mem := rfl
@[simp] theorem cntSet_hif (s : State) x1 x2 x3 x4 : (cntSet s x1 x2 x3 x4).hif = s.hif := rfl
@[simp] theorem cntSet_pkts (s : State) x1 x2 x3 x4 : (cntSet s x1 x2 x3 x4).pkts = s.pkts := rfl
@[simp] theorem cntSet_nextPkt (s : State) x1 x2 x3 x4 : (cntSet s x1 x2 x3 x4).nextPkt = s.nextPkt := rfl
@[simp] theorem cntSet_cls (s : State) x1 x2 x3 x4 : (cntSet s x1 x2 x3 x4).cls = s.cls := rfl
@[simp] theorem cntSet_fwd (s : State) x1 x2 x3 x4 : (cntSet s x1 x2 x3 x4).fwd = s.fwd := rfl
@[simp] theorem cntSet_flow (s : State) x1 x2 x3 x4 : (cntSet s x1 x2 x3 x4).flow = s.flow := rfl
@[simp] theorem cntSet_pipes (s : State) x1 x2 x3 x4 : (cntSet s x1 x2 x3 x4).pipes = s.pipes := rfl
@[simp] theorem cntSet_aligned (s : State) x1 x2 x3 x4 : (cntSet s x1 x2 x3 x4).aligned = s.aligned := rfl
@[simp] theorem cntSet_ctimeBase (s : State) x1 x2 x3 x4 : (cntSet s x1 x2 x3 x4).ctimeBase = s.ctimeBase := rfl
@[simp] theorem cntSet_tsk (s : State) x1 x2 x3 x4 : (cntSet s x1 x2 x3 x4).tsk = s.tsk := rfl
@[simp] theorem cntSet_buf (s : State) x1 x2 x3 x4 : (cntSet s x1 x2 x3 x4).buf = s.buf := rfl
@[simp] theorem cntSet_fab (s : State) x1 x2 x3 x4 : (cntSet s x1 x2 x3 x4).fab = s.fab := rfl
@[simp] theorem cntSet_egs (s : State) x1 x2 x3 x4 : (cntSet s x1 x2 x3 x4).egs = s.egs := rfl
@[simp] theorem cntSet_tim (s : State) x1 x2 x3 x4 : (cntSet s x1 x2 x3 x4).tim = s.tim := rfl
@[simp] theorem cntSet_hbm (s : State) x1 x2 x3 x4 : (cntSet s x1 x2 x3 x4).hbm = s.hbm := rfl
@[simp] theorem cntSet_chk (s : State) x1 x2 x3 x4 : (cntSet s x1 x2 x3 x4).chk = s.chk := rfl
@[simp] theorem cntSet_cus (s : State) x1 x2 x3 x4 : (cntSet s x1 x2 x3 x4).cus = s.cus := rfl
@[simp] theorem cntSet_flash (s : State) x1 x2 x3 x4 : (cntSet s x1 x2 x3 x4).flash = s.flash := rfl
@[simp] theorem cntSet_log (s : State) x1 x2 x3 x4 : (cntSet s x1 x2 x3 x4).log = s.log := rfl
@[simp] theorem cntSet_lcs (s : State) x1 x2 x3 x4 : (cntSet s x1 x2 x3 x4).lcs = s.lcs := rfl
@[simp] theorem cntSet_pwr (s : State) x1 x2 x3 x4 : (cntSet s x1 x2 x3 x4).pwr = s.pwr := rfl
@[simp] theorem cntSet_smb (s : State) x1 x2 x3 x4 : (cntSet s x1 x2 x3 x4).smb = s.smb := rfl

@[simp] theorem cntAdd_part (s : State) x0 x1 x2 x3 : (cntAdd x0 x1 x2 x3 s).part = s.part := rfl
@[simp] theorem cntAdd_pending (s : State) x0 x1 x2 x3 : (cntAdd x0 x1 x2 x3 s).pending = s.pending := rfl
@[simp] theorem cntAdd_now (s : State) x0 x1 x2 x3 : (cntAdd x0 x1 x2 x3 s).now = s.now := rfl
@[simp] theorem cntAdd_free (s : State) x0 x1 x2 x3 : (cntAdd x0 x1 x2 x3 s).free = s.free := rfl
@[simp] theorem cntAdd_actor (s : State) x0 x1 x2 x3 : (cntAdd x0 x1 x2 x3 s).actor = s.actor := rfl
@[simp] theorem cntAdd_raised (s : State) x0 x1 x2 x3 : (cntAdd x0 x1 x2 x3 s).raised = s.raised := rfl
@[simp] theorem cntAdd_regs (s : State) x0 x1 x2 x3 : (cntAdd x0 x1 x2 x3 s).regs = s.regs := rfl
@[simp] theorem cntAdd_readData (s : State) x0 x1 x2 x3 : (cntAdd x0 x1 x2 x3 s).readData = s.readData := rfl
@[simp] theorem cntAdd_host (s : State) x0 x1 x2 x3 : (cntAdd x0 x1 x2 x3 s).host = s.host := rfl
@[simp] theorem cntAdd_tmem (s : State) x0 x1 x2 x3 : (cntAdd x0 x1 x2 x3 s).tmem = s.tmem := rfl
@[simp] theorem cntAdd_mem (s : State) x0 x1 x2 x3 : (cntAdd x0 x1 x2 x3 s).mem = s.mem := rfl
@[simp] theorem cntAdd_hif (s : State) x0 x1 x2 x3 : (cntAdd x0 x1 x2 x3 s).hif = s.hif := rfl
@[simp] theorem cntAdd_pkts (s : State) x0 x1 x2 x3 : (cntAdd x0 x1 x2 x3 s).pkts = s.pkts := rfl
@[simp] theorem cntAdd_nextPkt (s : State) x0 x1 x2 x3 : (cntAdd x0 x1 x2 x3 s).nextPkt = s.nextPkt := rfl
@[simp] theorem cntAdd_cls (s : State) x0 x1 x2 x3 : (cntAdd x0 x1 x2 x3 s).cls = s.cls := rfl
@[simp] theorem cntAdd_fwd (s : State) x0 x1 x2 x3 : (cntAdd x0 x1 x2 x3 s).fwd = s.fwd := rfl
@[simp] theorem cntAdd_flow (s : State) x0 x1 x2 x3 : (cntAdd x0 x1 x2 x3 s).flow = s.flow := rfl
@[simp] theorem cntAdd_pipes (s : State) x0 x1 x2 x3 : (cntAdd x0 x1 x2 x3 s).pipes = s.pipes := rfl
@[simp] theorem cntAdd_aligned (s : State) x0 x1 x2 x3 : (cntAdd x0 x1 x2 x3 s).aligned = s.aligned := rfl
@[simp] theorem cntAdd_ctimeBase (s : State) x0 x1 x2 x3 : (cntAdd x0 x1 x2 x3 s).ctimeBase = s.ctimeBase := rfl
@[simp] theorem cntAdd_tsk (s : State) x0 x1 x2 x3 : (cntAdd x0 x1 x2 x3 s).tsk = s.tsk := rfl
@[simp] theorem cntAdd_buf (s : State) x0 x1 x2 x3 : (cntAdd x0 x1 x2 x3 s).buf = s.buf := rfl
@[simp] theorem cntAdd_fab (s : State) x0 x1 x2 x3 : (cntAdd x0 x1 x2 x3 s).fab = s.fab := rfl
@[simp] theorem cntAdd_egs (s : State) x0 x1 x2 x3 : (cntAdd x0 x1 x2 x3 s).egs = s.egs := rfl
@[simp] theorem cntAdd_tim (s : State) x0 x1 x2 x3 : (cntAdd x0 x1 x2 x3 s).tim = s.tim := rfl
@[simp] theorem cntAdd_hbm (s : State) x0 x1 x2 x3 : (cntAdd x0 x1 x2 x3 s).hbm = s.hbm := rfl
@[simp] theorem cntAdd_chk (s : State) x0 x1 x2 x3 : (cntAdd x0 x1 x2 x3 s).chk = s.chk := rfl
@[simp] theorem cntAdd_cus (s : State) x0 x1 x2 x3 : (cntAdd x0 x1 x2 x3 s).cus = s.cus := rfl
@[simp] theorem cntAdd_flash (s : State) x0 x1 x2 x3 : (cntAdd x0 x1 x2 x3 s).flash = s.flash := rfl
@[simp] theorem cntAdd_log (s : State) x0 x1 x2 x3 : (cntAdd x0 x1 x2 x3 s).log = s.log := rfl
@[simp] theorem cntAdd_lcs (s : State) x0 x1 x2 x3 : (cntAdd x0 x1 x2 x3 s).lcs = s.lcs := rfl
@[simp] theorem cntAdd_pwr (s : State) x0 x1 x2 x3 : (cntAdd x0 x1 x2 x3 s).pwr = s.pwr := rfl
@[simp] theorem cntAdd_smb (s : State) x0 x1 x2 x3 : (cntAdd x0 x1 x2 x3 s).smb = s.smb := rfl

@[simp] theorem cntInc_part (s : State) x0 x1 x2 : (cntInc x0 x1 x2 s).part = s.part := rfl
@[simp] theorem cntInc_pending (s : State) x0 x1 x2 : (cntInc x0 x1 x2 s).pending = s.pending := rfl
@[simp] theorem cntInc_now (s : State) x0 x1 x2 : (cntInc x0 x1 x2 s).now = s.now := rfl
@[simp] theorem cntInc_free (s : State) x0 x1 x2 : (cntInc x0 x1 x2 s).free = s.free := rfl
@[simp] theorem cntInc_actor (s : State) x0 x1 x2 : (cntInc x0 x1 x2 s).actor = s.actor := rfl
@[simp] theorem cntInc_raised (s : State) x0 x1 x2 : (cntInc x0 x1 x2 s).raised = s.raised := rfl
@[simp] theorem cntInc_regs (s : State) x0 x1 x2 : (cntInc x0 x1 x2 s).regs = s.regs := rfl
@[simp] theorem cntInc_readData (s : State) x0 x1 x2 : (cntInc x0 x1 x2 s).readData = s.readData := rfl
@[simp] theorem cntInc_host (s : State) x0 x1 x2 : (cntInc x0 x1 x2 s).host = s.host := rfl
@[simp] theorem cntInc_tmem (s : State) x0 x1 x2 : (cntInc x0 x1 x2 s).tmem = s.tmem := rfl
@[simp] theorem cntInc_mem (s : State) x0 x1 x2 : (cntInc x0 x1 x2 s).mem = s.mem := rfl
@[simp] theorem cntInc_hif (s : State) x0 x1 x2 : (cntInc x0 x1 x2 s).hif = s.hif := rfl
@[simp] theorem cntInc_pkts (s : State) x0 x1 x2 : (cntInc x0 x1 x2 s).pkts = s.pkts := rfl
@[simp] theorem cntInc_nextPkt (s : State) x0 x1 x2 : (cntInc x0 x1 x2 s).nextPkt = s.nextPkt := rfl
@[simp] theorem cntInc_cls (s : State) x0 x1 x2 : (cntInc x0 x1 x2 s).cls = s.cls := rfl
@[simp] theorem cntInc_fwd (s : State) x0 x1 x2 : (cntInc x0 x1 x2 s).fwd = s.fwd := rfl
@[simp] theorem cntInc_flow (s : State) x0 x1 x2 : (cntInc x0 x1 x2 s).flow = s.flow := rfl
@[simp] theorem cntInc_pipes (s : State) x0 x1 x2 : (cntInc x0 x1 x2 s).pipes = s.pipes := rfl
@[simp] theorem cntInc_aligned (s : State) x0 x1 x2 : (cntInc x0 x1 x2 s).aligned = s.aligned := rfl
@[simp] theorem cntInc_ctimeBase (s : State) x0 x1 x2 : (cntInc x0 x1 x2 s).ctimeBase = s.ctimeBase := rfl
@[simp] theorem cntInc_tsk (s : State) x0 x1 x2 : (cntInc x0 x1 x2 s).tsk = s.tsk := rfl
@[simp] theorem cntInc_buf (s : State) x0 x1 x2 : (cntInc x0 x1 x2 s).buf = s.buf := rfl
@[simp] theorem cntInc_fab (s : State) x0 x1 x2 : (cntInc x0 x1 x2 s).fab = s.fab := rfl
@[simp] theorem cntInc_egs (s : State) x0 x1 x2 : (cntInc x0 x1 x2 s).egs = s.egs := rfl
@[simp] theorem cntInc_tim (s : State) x0 x1 x2 : (cntInc x0 x1 x2 s).tim = s.tim := rfl
@[simp] theorem cntInc_hbm (s : State) x0 x1 x2 : (cntInc x0 x1 x2 s).hbm = s.hbm := rfl
@[simp] theorem cntInc_chk (s : State) x0 x1 x2 : (cntInc x0 x1 x2 s).chk = s.chk := rfl
@[simp] theorem cntInc_cus (s : State) x0 x1 x2 : (cntInc x0 x1 x2 s).cus = s.cus := rfl
@[simp] theorem cntInc_flash (s : State) x0 x1 x2 : (cntInc x0 x1 x2 s).flash = s.flash := rfl
@[simp] theorem cntInc_log (s : State) x0 x1 x2 : (cntInc x0 x1 x2 s).log = s.log := rfl
@[simp] theorem cntInc_lcs (s : State) x0 x1 x2 : (cntInc x0 x1 x2 s).lcs = s.lcs := rfl
@[simp] theorem cntInc_pwr (s : State) x0 x1 x2 : (cntInc x0 x1 x2 s).pwr = s.pwr := rfl
@[simp] theorem cntInc_smb (s : State) x0 x1 x2 : (cntInc x0 x1 x2 s).smb = s.smb := rfl

@[simp] theorem cntClear_part (s : State) x0 : (cntClear x0 s).part = s.part := rfl
@[simp] theorem cntClear_pending (s : State) x0 : (cntClear x0 s).pending = s.pending := rfl
@[simp] theorem cntClear_now (s : State) x0 : (cntClear x0 s).now = s.now := rfl
@[simp] theorem cntClear_free (s : State) x0 : (cntClear x0 s).free = s.free := rfl
@[simp] theorem cntClear_actor (s : State) x0 : (cntClear x0 s).actor = s.actor := rfl
@[simp] theorem cntClear_raised (s : State) x0 : (cntClear x0 s).raised = s.raised := rfl
@[simp] theorem cntClear_regs (s : State) x0 : (cntClear x0 s).regs = s.regs := rfl
@[simp] theorem cntClear_readData (s : State) x0 : (cntClear x0 s).readData = s.readData := rfl
@[simp] theorem cntClear_host (s : State) x0 : (cntClear x0 s).host = s.host := rfl
@[simp] theorem cntClear_tmem (s : State) x0 : (cntClear x0 s).tmem = s.tmem := rfl
@[simp] theorem cntClear_mem (s : State) x0 : (cntClear x0 s).mem = s.mem := rfl
@[simp] theorem cntClear_hif (s : State) x0 : (cntClear x0 s).hif = s.hif := rfl
@[simp] theorem cntClear_pkts (s : State) x0 : (cntClear x0 s).pkts = s.pkts := rfl
@[simp] theorem cntClear_nextPkt (s : State) x0 : (cntClear x0 s).nextPkt = s.nextPkt := rfl
@[simp] theorem cntClear_cls (s : State) x0 : (cntClear x0 s).cls = s.cls := rfl
@[simp] theorem cntClear_fwd (s : State) x0 : (cntClear x0 s).fwd = s.fwd := rfl
@[simp] theorem cntClear_flow (s : State) x0 : (cntClear x0 s).flow = s.flow := rfl
@[simp] theorem cntClear_pipes (s : State) x0 : (cntClear x0 s).pipes = s.pipes := rfl
@[simp] theorem cntClear_aligned (s : State) x0 : (cntClear x0 s).aligned = s.aligned := rfl
@[simp] theorem cntClear_ctimeBase (s : State) x0 : (cntClear x0 s).ctimeBase = s.ctimeBase := rfl
@[simp] theorem cntClear_tsk (s : State) x0 : (cntClear x0 s).tsk = s.tsk := rfl
@[simp] theorem cntClear_buf (s : State) x0 : (cntClear x0 s).buf = s.buf := rfl
@[simp] theorem cntClear_fab (s : State) x0 : (cntClear x0 s).fab = s.fab := rfl
@[simp] theorem cntClear_egs (s : State) x0 : (cntClear x0 s).egs = s.egs := rfl
@[simp] theorem cntClear_tim (s : State) x0 : (cntClear x0 s).tim = s.tim := rfl
@[simp] theorem cntClear_hbm (s : State) x0 : (cntClear x0 s).hbm = s.hbm := rfl
@[simp] theorem cntClear_chk (s : State) x0 : (cntClear x0 s).chk = s.chk := rfl
@[simp] theorem cntClear_cus (s : State) x0 : (cntClear x0 s).cus = s.cus := rfl
@[simp] theorem cntClear_flash (s : State) x0 : (cntClear x0 s).flash = s.flash := rfl
@[simp] theorem cntClear_log (s : State) x0 : (cntClear x0 s).log = s.log := rfl
@[simp] theorem cntClear_lcs (s : State) x0 : (cntClear x0 s).lcs = s.lcs := rfl
@[simp] theorem cntClear_pwr (s : State) x0 : (cntClear x0 s).pwr = s.pwr := rfl
@[simp] theorem cntClear_smb (s : State) x0 : (cntClear x0 s).smb = s.smb := rfl

@[simp] theorem modHif_part (s : State) x0 : (modHif x0 s).part = s.part := rfl
@[simp] theorem modHif_pending (s : State) x0 : (modHif x0 s).pending = s.pending := rfl
@[simp] theorem modHif_now (s : State) x0 : (modHif x0 s).now = s.now := rfl
@[simp] theorem modHif_free (s : State) x0 : (modHif x0 s).free = s.free := rfl
@[simp] theorem modHif_actor (s : State) x0 : (modHif x0 s).actor = s.actor := rfl
@[simp] theorem modHif_raised (s : State) x0 : (modHif x0 s).raised = s.raised := rfl
@[simp] theorem modHif_regs (s : State) x0 : (modHif x0 s).regs = s.regs := rfl
@[simp] theorem modHif_readData (s : State) x0 : (modHif x0 s).readData = s.readData := rfl
@[simp] theorem modHif_host (s : State) x0 : (modHif x0 s).host = s.host := rfl
@[simp] theorem modHif_tmem (s : State) x0 : (modHif x0 s).tmem = s.tmem := rfl
@[simp] theorem modHif_mem (s : State) x0 : (modHif x0 s).mem = s.mem := rfl
@[simp] theorem modHif_cnt (s : State) x0 : (modHif x0 s).cnt = s.cnt := rfl
@[simp] theorem modHif_pkts (s : State) x0 : (modHif x0 s).pkts = s.pkts := rfl
@[simp] theorem modHif_nextPkt (s : State) x0 : (modHif x0 s).nextPkt = s.nextPkt := rfl
@[simp] theorem modHif_cls (s : State) x0 : (modHif x0 s).cls = s.cls := rfl
@[simp] theorem modHif_fwd (s : State) x0 : (modHif x0 s).fwd = s.fwd := rfl
@[simp] theorem modHif_flow (s : State) x0 : (modHif x0 s).flow = s.flow := rfl
@[simp] theorem modHif_pipes (s : State) x0 : (modHif x0 s).pipes = s.pipes := rfl
@[simp] theorem modHif_aligned (s : State) x0 : (modHif x0 s).aligned = s.aligned := rfl
@[simp] theorem modHif_ctimeBase (s : State) x0 : (modHif x0 s).ctimeBase = s.ctimeBase := rfl
@[simp] theorem modHif_tsk (s : State) x0 : (modHif x0 s).tsk = s.tsk := rfl
@[simp] theorem modHif_buf (s : State) x0 : (modHif x0 s).buf = s.buf := rfl
@[simp] theorem modHif_fab (s : State) x0 : (modHif x0 s).fab = s.fab := rfl
@[simp] theorem modHif_egs (s : State) x0 : (modHif x0 s).egs = s.egs := rfl
@[simp] theorem modHif_tim (s : State) x0 : (modHif x0 s).tim = s.tim := rfl
@[simp] theorem modHif_hbm (s : State) x0 : (modHif x0 s).hbm = s.hbm := rfl
@[simp] theorem modHif_chk (s : State) x0 : (modHif x0 s).chk = s.chk := rfl
@[simp] theorem modHif_cus (s : State) x0 : (modHif x0 s).cus = s.cus := rfl
@[simp] theorem modHif_flash (s : State) x0 : (modHif x0 s).flash = s.flash := rfl
@[simp] theorem modHif_log (s : State) x0 : (modHif x0 s).log = s.log := rfl
@[simp] theorem modHif_lcs (s : State) x0 : (modHif x0 s).lcs = s.lcs := rfl
@[simp] theorem modHif_pwr (s : State) x0 : (modHif x0 s).pwr = s.pwr := rfl
@[simp] theorem modHif_smb (s : State) x0 : (modHif x0 s).smb = s.smb := rfl

@[simp] theorem modRing_part (s : State) x0 x1 : (modRing x0 x1 s).part = s.part := rfl
@[simp] theorem modRing_pending (s : State) x0 x1 : (modRing x0 x1 s).pending = s.pending := rfl
@[simp] theorem modRing_now (s : State) x0 x1 : (modRing x0 x1 s).now = s.now := rfl
@[simp] theorem modRing_free (s : State) x0 x1 : (modRing x0 x1 s).free = s.free := rfl
@[simp] theorem modRing_actor (s : State) x0 x1 : (modRing x0 x1 s).actor = s.actor := rfl
@[simp] theorem modRing_raised (s : State) x0 x1 : (modRing x0 x1 s).raised = s.raised := rfl
@[simp] theorem modRing_regs (s : State) x0 x1 : (modRing x0 x1 s).regs = s.regs := rfl
@[simp] theorem modRing_readData (s : State) x0 x1 : (modRing x0 x1 s).readData = s.readData := rfl
@[simp] theorem modRing_host (s : State) x0 x1 : (modRing x0 x1 s).host = s.host := rfl
@[simp] theorem modRing_tmem (s : State) x0 x1 : (modRing x0 x1 s).tmem = s.tmem := rfl
@[simp] theorem modRing_mem (s : State) x0 x1 : (modRing x0 x1 s).mem = s.mem := rfl
@[simp] theorem modRing_cnt (s : State) x0 x1 : (modRing x0 x1 s).cnt = s.cnt := rfl
@[simp] theorem modRing_pkts (s : State) x0 x1 : (modRing x0 x1 s).pkts = s.pkts := rfl
@[simp] theorem modRing_nextPkt (s : State) x0 x1 : (modRing x0 x1 s).nextPkt = s.nextPkt := rfl
@[simp] theorem modRing_cls (s : State) x0 x1 : (modRing x0 x1 s).cls = s.cls := rfl
@[simp] theorem modRing_fwd (s : State) x0 x1 : (modRing x0 x1 s).fwd = s.fwd := rfl
@[simp] theorem modRing_flow (s : State) x0 x1 : (modRing x0 x1 s).flow = s.flow := rfl
@[simp] theorem modRing_pipes (s : State) x0 x1 : (modRing x0 x1 s).pipes = s.pipes := rfl
@[simp] theorem modRing_aligned (s : State) x0 x1 : (modRing x0 x1 s).aligned = s.aligned := rfl
@[simp] theorem modRing_ctimeBase (s : State) x0 x1 : (modRing x0 x1 s).ctimeBase = s.ctimeBase := rfl
@[simp] theorem modRing_tsk (s : State) x0 x1 : (modRing x0 x1 s).tsk = s.tsk := rfl
@[simp] theorem modRing_buf (s : State) x0 x1 : (modRing x0 x1 s).buf = s.buf := rfl
@[simp] theorem modRing_fab (s : State) x0 x1 : (modRing x0 x1 s).fab = s.fab := rfl
@[simp] theorem modRing_egs (s : State) x0 x1 : (modRing x0 x1 s).egs = s.egs := rfl
@[simp] theorem modRing_tim (s : State) x0 x1 : (modRing x0 x1 s).tim = s.tim := rfl
@[simp] theorem modRing_hbm (s : State) x0 x1 : (modRing x0 x1 s).hbm = s.hbm := rfl
@[simp] theorem modRing_chk (s : State) x0 x1 : (modRing x0 x1 s).chk = s.chk := rfl
@[simp] theorem modRing_cus (s : State) x0 x1 : (modRing x0 x1 s).cus = s.cus := rfl
@[simp] theorem modRing_flash (s : State) x0 x1 : (modRing x0 x1 s).flash = s.flash := rfl
@[simp] theorem modRing_log (s : State) x0 x1 : (modRing x0 x1 s).log = s.log := rfl
@[simp] theorem modRing_lcs (s : State) x0 x1 : (modRing x0 x1 s).lcs = s.lcs := rfl
@[simp] theorem modRing_pwr (s : State) x0 x1 : (modRing x0 x1 s).pwr = s.pwr := rfl
@[simp] theorem modRing_smb (s : State) x0 x1 : (modRing x0 x1 s).smb = s.smb := rfl

@[simp] theorem modPool_part (s : State) x0 x1 : (modPool x0 x1 s).part = s.part := rfl
@[simp] theorem modPool_pending (s : State) x0 x1 : (modPool x0 x1 s).pending = s.pending := rfl
@[simp] theorem modPool_now (s : State) x0 x1 : (modPool x0 x1 s).now = s.now := rfl
@[simp] theorem modPool_free (s : State) x0 x1 : (modPool x0 x1 s).free = s.free := rfl
@[simp] theorem modPool_actor (s : State) x0 x1 : (modPool x0 x1 s).actor = s.actor := rfl
@[simp] theorem modPool_raised (s : State) x0 x1 : (modPool x0 x1 s).raised = s.raised := rfl
@[simp] theorem modPool_regs (s : State) x0 x1 : (modPool x0 x1 s).regs = s.regs := rfl
@[simp] theorem modPool_readData (s : State) x0 x1 : (modPool x0 x1 s).readData = s.readData := rfl
@[simp] theorem modPool_host (s : State) x0 x1 : (modPool x0 x1 s).host = s.host := rfl
@[simp] theorem modPool_tmem (s : State) x0 x1 : (modPool x0 x1 s).tmem = s.tmem := rfl
@[simp] theorem modPool_mem (s : State) x0 x1 : (modPool x0 x1 s).mem = s.mem := rfl
@[simp] theorem modPool_cnt (s : State) x0 x1 : (modPool x0 x1 s).cnt = s.cnt := rfl
@[simp] theorem modPool_pkts (s : State) x0 x1 : (modPool x0 x1 s).pkts = s.pkts := rfl
@[simp] theorem modPool_nextPkt (s : State) x0 x1 : (modPool x0 x1 s).nextPkt = s.nextPkt := rfl
@[simp] theorem modPool_cls (s : State) x0 x1 : (modPool x0 x1 s).cls = s.cls := rfl
@[simp] theorem modPool_fwd (s : State) x0 x1 : (modPool x0 x1 s).fwd = s.fwd := rfl
@[simp] theorem modPool_flow (s : State) x0 x1 : (modPool x0 x1 s).flow = s.flow := rfl
@[simp] theorem modPool_pipes (s : State) x0 x1 : (modPool x0 x1 s).pipes = s.pipes := rfl
@[simp] theorem modPool_aligned (s : State) x0 x1 : (modPool x0 x1 s).aligned = s.aligned := rfl
@[simp] theorem modPool_ctimeBase (s : State) x0 x1 : (modPool x0 x1 s).ctimeBase = s.ctimeBase := rfl
@[simp] theorem modPool_tsk (s : State) x0 x1 : (modPool x0 x1 s).tsk = s.tsk := rfl
@[simp] theorem modPool_buf (s : State) x0 x1 : (modPool x0 x1 s).buf = s.buf := rfl
@[simp] theorem modPool_fab (s : State) x0 x1 : (modPool x0 x1 s).fab = s.fab := rfl
@[simp] theorem modPool_egs (s : State) x0 x1 : (modPool x0 x1 s).egs = s.egs := rfl
@[simp] theorem modPool_tim (s : State) x0 x1 : (modPool x0 x1 s).tim = s.tim := rfl
@[simp] theorem modPool_hbm (s : State) x0 x1 : (modPool x0 x1 s).hbm = s.hbm := rfl
@[simp] theorem modPool_chk (s : State) x0 x1 : (modPool x0 x1 s).chk = s.chk := rfl
@[simp] theorem modPool_cus (s : State) x0 x1 : (modPool x0 x1 s).cus = s.cus := rfl
@[simp] theorem modPool_flash (s : State) x0 x1 : (modPool x0 x1 s).flash = s.flash := rfl
@[simp] theorem modPool_log (s : State) x0 x1 : (modPool x0 x1 s).log = s.log := rfl
@[simp] theorem modPool_lcs (s : State) x0 x1 : (modPool x0 x1 s).lcs = s.lcs := rfl
@[simp] theorem modPool_pwr (s : State) x0 x1 : (modPool x0 x1 s).pwr = s.pwr := rfl
@[simp] theorem modPool_smb (s : State) x0 x1 : (modPool x0 x1 s).smb = s.smb := rfl

@[simp] theorem modLink_part (s : State) x0 x1 : (modLink x0 x1 s).part = s.part := by cases x0 <;> rfl
@[simp] theorem modLink_pending (s : State) x0 x1 : (modLink x0 x1 s).pending = s.pending := by cases x0 <;> rfl
@[simp] theorem modLink_now (s : State) x0 x1 : (modLink x0 x1 s).now = s.now := by cases x0 <;> rfl
@[simp] theorem modLink_free (s : State) x0 x1 : (modLink x0 x1 s).free = s.free := by cases x0 <;> rfl
@[simp] theorem modLink_actor (s : State) x0 x1 : (modLink x0 x1 s).actor = s.actor := by cases x0 <;> rfl
@[simp] theorem modLink_raised (s : State) x0 x1 : (modLink x0 x1 s).raised = s.raised := by cases x0 <;> rfl
@[simp] theorem modLink_regs (s : State) x0 x1 : (modLink x0 x1 s).regs = s.regs := by cases x0 <;> rfl
@[simp] theorem modLink_readData (s : State) x0 x1 : (modLink x0 x1 s).readData = s.readData := by cases x0 <;> rfl
@[simp] theorem modLink_host (s : State) x0 x1 : (modLink x0 x1 s).host = s.host := by cases x0 <;> rfl
@[simp] theorem modLink_tmem (s : State) x0 x1 : (modLink x0 x1 s).tmem = s.tmem := by cases x0 <;> rfl
@[simp] theorem modLink_mem (s : State) x0 x1 : (modLink x0 x1 s).mem = s.mem := by cases x0 <;> rfl
@[simp] theorem modLink_cnt (s : State) x0 x1 : (modLink x0 x1 s).cnt = s.cnt := by cases x0 <;> rfl
@[simp] theorem modLink_pkts (s : State) x0 x1 : (modLink x0 x1 s).pkts = s.pkts := by cases x0 <;> rfl
@[simp] theorem modLink_nextPkt (s : State) x0 x1 : (modLink x0 x1 s).nextPkt = s.nextPkt := by cases x0 <;> rfl
@[simp] theorem modLink_cls (s : State) x0 x1 : (modLink x0 x1 s).cls = s.cls := by cases x0 <;> rfl
@[simp] theorem modLink_fwd (s : State) x0 x1 : (modLink x0 x1 s).fwd = s.fwd := by cases x0 <;> rfl
@[simp] theorem modLink_flow (s : State) x0 x1 : (modLink x0 x1 s).flow = s.flow := by cases x0 <;> rfl
@[simp] theorem modLink_pipes (s : State) x0 x1 : (modLink x0 x1 s).pipes = s.pipes := by cases x0 <;> rfl
@[simp] theorem modLink_aligned (s : State) x0 x1 : (modLink x0 x1 s).aligned = s.aligned := by cases x0 <;> rfl
@[simp] theorem modLink_ctimeBase (s : State) x0 x1 : (modLink x0 x1 s).ctimeBase = s.ctimeBase := by cases x0 <;> rfl
@[simp] theorem modLink_tsk (s : State) x0 x1 : (modLink x0 x1 s).tsk = s.tsk := by cases x0 <;> rfl
@[simp] theorem modLink_buf (s : State) x0 x1 : (modLink x0 x1 s).buf = s.buf := by cases x0 <;> rfl
@[simp] theorem modLink_fab (s : State) x0 x1 : (modLink x0 x1 s).fab = s.fab := by cases x0 <;> rfl
@[simp] theorem modLink_egs (s : State) x0 x1 : (modLink x0 x1 s).egs = s.egs := by cases x0 <;> rfl
@[simp] theorem modLink_tim (s : State) x0 x1 : (modLink x0 x1 s).tim = s.tim := by cases x0 <;> rfl
@[simp] theorem modLink_hbm (s : State) x0 x1 : (modLink x0 x1 s).hbm = s.hbm := by cases x0 <;> rfl
@[simp] theorem modLink_chk (s : State) x0 x1 : (modLink x0 x1 s).chk = s.chk := by cases x0 <;> rfl
@[simp] theorem modLink_cus (s : State) x0 x1 : (modLink x0 x1 s).cus = s.cus := by cases x0 <;> rfl
@[simp] theorem modLink_flash (s : State) x0 x1 : (modLink x0 x1 s).flash = s.flash := by cases x0 <;> rfl
@[simp] theorem modLink_log (s : State) x0 x1 : (modLink x0 x1 s).log = s.log := by cases x0 <;> rfl
@[simp] theorem modLink_lcs (s : State) x0 x1 : (modLink x0 x1 s).lcs = s.lcs := by cases x0 <;> rfl
@[simp] theorem modLink_pwr (s : State) x0 x1 : (modLink x0 x1 s).pwr = s.pwr := by cases x0 <;> rfl
@[simp] theorem modLink_smb (s : State) x0 x1 : (modLink x0 x1 s).smb = s.smb := by cases x0 <;> rfl

@[simp] theorem modVec_part (s : State) x0 x1 x2 : (modVec x0 x1 x2 s).part = s.part := rfl
@[simp] theorem modVec_pending (s : State) x0 x1 x2 : (modVec x0 x1 x2 s).pending = s.pending := rfl
@[simp] theorem modVec_now (s : State) x0 x1 x2 : (modVec x0 x1 x2 s).now = s.now := rfl
@[simp] theorem modVec_free (s : State) x0 x1 x2 : (modVec x0 x1 x2 s).free = s.free := rfl
@[simp] theorem modVec_actor (s : State) x0 x1 x2 : (modVec x0 x1 x2 s).actor = s.actor := rfl
@[simp] theorem modVec_raised (s : State) x0 x1 x2 : (modVec x0 x1 x2 s).raised = s.raised := rfl
@[simp] theorem modVec_regs (s : State) x0 x1 x2 : (modVec x0 x1 x2 s).regs = s.regs := rfl
@[simp] theorem modVec_readData (s : State) x0 x1 x2 : (modVec x0 x1 x2 s).readData = s.readData := rfl
@[simp] theorem modVec_host (s : State) x0 x1 x2 : (modVec x0 x1 x2 s).host = s.host := rfl
@[simp] theorem modVec_tmem (s : State) x0 x1 x2 : (modVec x0 x1 x2 s).tmem = s.tmem := rfl
@[simp] theorem modVec_mem (s : State) x0 x1 x2 : (modVec x0 x1 x2 s).mem = s.mem := rfl
@[simp] theorem modVec_cnt (s : State) x0 x1 x2 : (modVec x0 x1 x2 s).cnt = s.cnt := rfl
@[simp] theorem modVec_pkts (s : State) x0 x1 x2 : (modVec x0 x1 x2 s).pkts = s.pkts := rfl
@[simp] theorem modVec_nextPkt (s : State) x0 x1 x2 : (modVec x0 x1 x2 s).nextPkt = s.nextPkt := rfl
@[simp] theorem modVec_cls (s : State) x0 x1 x2 : (modVec x0 x1 x2 s).cls = s.cls := rfl
@[simp] theorem modVec_fwd (s : State) x0 x1 x2 : (modVec x0 x1 x2 s).fwd = s.fwd := rfl
@[simp] theorem modVec_flow (s : State) x0 x1 x2 : (modVec x0 x1 x2 s).flow = s.flow := rfl
@[simp] theorem modVec_pipes (s : State) x0 x1 x2 : (modVec x0 x1 x2 s).pipes = s.pipes := rfl
@[simp] theorem modVec_aligned (s : State) x0 x1 x2 : (modVec x0 x1 x2 s).aligned = s.aligned := rfl
@[simp] theorem modVec_ctimeBase (s : State) x0 x1 x2 : (modVec x0 x1 x2 s).ctimeBase = s.ctimeBase := rfl
@[simp] theorem modVec_tsk (s : State) x0 x1 x2 : (modVec x0 x1 x2 s).tsk = s.tsk := rfl
@[simp] theorem modVec_buf (s : State) x0 x1 x2 : (modVec x0 x1 x2 s).buf = s.buf := rfl
@[simp] theorem modVec_fab (s : State) x0 x1 x2 : (modVec x0 x1 x2 s).fab = s.fab := rfl
@[simp] theorem modVec_egs (s : State) x0 x1 x2 : (modVec x0 x1 x2 s).egs = s.egs := rfl
@[simp] theorem modVec_tim (s : State) x0 x1 x2 : (modVec x0 x1 x2 s).tim = s.tim := rfl
@[simp] theorem modVec_hbm (s : State) x0 x1 x2 : (modVec x0 x1 x2 s).hbm = s.hbm := rfl
@[simp] theorem modVec_chk (s : State) x0 x1 x2 : (modVec x0 x1 x2 s).chk = s.chk := rfl
@[simp] theorem modVec_cus (s : State) x0 x1 x2 : (modVec x0 x1 x2 s).cus = s.cus := rfl
@[simp] theorem modVec_flash (s : State) x0 x1 x2 : (modVec x0 x1 x2 s).flash = s.flash := rfl
@[simp] theorem modVec_log (s : State) x0 x1 x2 : (modVec x0 x1 x2 s).log = s.log := rfl
@[simp] theorem modVec_lcs (s : State) x0 x1 x2 : (modVec x0 x1 x2 s).lcs = s.lcs := rfl
@[simp] theorem modVec_pwr (s : State) x0 x1 x2 : (modVec x0 x1 x2 s).pwr = s.pwr := rfl
@[simp] theorem modVec_smb (s : State) x0 x1 x2 : (modVec x0 x1 x2 s).smb = s.smb := rfl

@[simp] theorem modPkt_part (s : State) x0 x1 : (modPkt x0 x1 s).part = s.part := rfl
@[simp] theorem modPkt_pending (s : State) x0 x1 : (modPkt x0 x1 s).pending = s.pending := rfl
@[simp] theorem modPkt_now (s : State) x0 x1 : (modPkt x0 x1 s).now = s.now := rfl
@[simp] theorem modPkt_free (s : State) x0 x1 : (modPkt x0 x1 s).free = s.free := rfl
@[simp] theorem modPkt_actor (s : State) x0 x1 : (modPkt x0 x1 s).actor = s.actor := rfl
@[simp] theorem modPkt_raised (s : State) x0 x1 : (modPkt x0 x1 s).raised = s.raised := rfl
@[simp] theorem modPkt_regs (s : State) x0 x1 : (modPkt x0 x1 s).regs = s.regs := rfl
@[simp] theorem modPkt_readData (s : State) x0 x1 : (modPkt x0 x1 s).readData = s.readData := rfl
@[simp] theorem modPkt_host (s : State) x0 x1 : (modPkt x0 x1 s).host = s.host := rfl
@[simp] theorem modPkt_tmem (s : State) x0 x1 : (modPkt x0 x1 s).tmem = s.tmem := rfl
@[simp] theorem modPkt_mem (s : State) x0 x1 : (modPkt x0 x1 s).mem = s.mem := rfl
@[simp] theorem modPkt_cnt (s : State) x0 x1 : (modPkt x0 x1 s).cnt = s.cnt := rfl
@[simp] theorem modPkt_hif (s : State) x0 x1 : (modPkt x0 x1 s).hif = s.hif := rfl
@[simp] theorem modPkt_nextPkt (s : State) x0 x1 : (modPkt x0 x1 s).nextPkt = s.nextPkt := rfl
@[simp] theorem modPkt_cls (s : State) x0 x1 : (modPkt x0 x1 s).cls = s.cls := rfl
@[simp] theorem modPkt_fwd (s : State) x0 x1 : (modPkt x0 x1 s).fwd = s.fwd := rfl
@[simp] theorem modPkt_flow (s : State) x0 x1 : (modPkt x0 x1 s).flow = s.flow := rfl
@[simp] theorem modPkt_pipes (s : State) x0 x1 : (modPkt x0 x1 s).pipes = s.pipes := rfl
@[simp] theorem modPkt_aligned (s : State) x0 x1 : (modPkt x0 x1 s).aligned = s.aligned := rfl
@[simp] theorem modPkt_ctimeBase (s : State) x0 x1 : (modPkt x0 x1 s).ctimeBase = s.ctimeBase := rfl
@[simp] theorem modPkt_tsk (s : State) x0 x1 : (modPkt x0 x1 s).tsk = s.tsk := rfl
@[simp] theorem modPkt_buf (s : State) x0 x1 : (modPkt x0 x1 s).buf = s.buf := rfl
@[simp] theorem modPkt_fab (s : State) x0 x1 : (modPkt x0 x1 s).fab = s.fab := rfl
@[simp] theorem modPkt_egs (s : State) x0 x1 : (modPkt x0 x1 s).egs = s.egs := rfl
@[simp] theorem modPkt_tim (s : State) x0 x1 : (modPkt x0 x1 s).tim = s.tim := rfl
@[simp] theorem modPkt_hbm (s : State) x0 x1 : (modPkt x0 x1 s).hbm = s.hbm := rfl
@[simp] theorem modPkt_chk (s : State) x0 x1 : (modPkt x0 x1 s).chk = s.chk := rfl
@[simp] theorem modPkt_cus (s : State) x0 x1 : (modPkt x0 x1 s).cus = s.cus := rfl
@[simp] theorem modPkt_flash (s : State) x0 x1 : (modPkt x0 x1 s).flash = s.flash := rfl
@[simp] theorem modPkt_log (s : State) x0 x1 : (modPkt x0 x1 s).log = s.log := rfl
@[simp] theorem modPkt_lcs (s : State) x0 x1 : (modPkt x0 x1 s).lcs = s.lcs := rfl
@[simp] theorem modPkt_pwr (s : State) x0 x1 : (modPkt x0 x1 s).pwr = s.pwr := rfl
@[simp] theorem modPkt_smb (s : State) x0 x1 : (modPkt x0 x1 s).smb = s.smb := rfl

@[simp] theorem dropPkt_part (s : State) x0 : (dropPkt x0 s).part = s.part := rfl
@[simp] theorem dropPkt_pending (s : State) x0 : (dropPkt x0 s).pending = s.pending := rfl
@[simp] theorem dropPkt_now (s : State) x0 : (dropPkt x0 s).now = s.now := rfl
@[simp] theorem dropPkt_free (s : State) x0 : (dropPkt x0 s).free = s.free := rfl
@[simp] theorem dropPkt_actor (s : State) x0 : (dropPkt x0 s).actor = s.actor := rfl
@[simp] theorem dropPkt_raised (s : State) x0 : (dropPkt x0 s).raised = s.raised := rfl
@[simp] theorem dropPkt_regs (s : State) x0 : (dropPkt x0 s).regs = s.regs := rfl
@[simp] theorem dropPkt_readData (s : State) x0 : (dropPkt x0 s).readData = s.readData := rfl
@[simp] theorem dropPkt_host (s : State) x0 : (dropPkt x0 s).host = s.host := rfl
@[simp] theorem dropPkt_tmem (s : State) x0 : (dropPkt x0 s).tmem = s.tmem := rfl
@[simp] theorem dropPkt_mem (s : State) x0 : (dropPkt x0 s).mem = s.mem := rfl
@[simp] theorem dropPkt_cnt (s : State) x0 : (dropPkt x0 s).cnt = s.cnt := rfl
@[simp] theorem dropPkt_hif (s : State) x0 : (dropPkt x0 s).hif = s.hif := rfl
@[simp] theorem dropPkt_nextPkt (s : State) x0 : (dropPkt x0 s).nextPkt = s.nextPkt := rfl
@[simp] theorem dropPkt_cls (s : State) x0 : (dropPkt x0 s).cls = s.cls := rfl
@[simp] theorem dropPkt_fwd (s : State) x0 : (dropPkt x0 s).fwd = s.fwd := rfl
@[simp] theorem dropPkt_flow (s : State) x0 : (dropPkt x0 s).flow = s.flow := rfl
@[simp] theorem dropPkt_pipes (s : State) x0 : (dropPkt x0 s).pipes = s.pipes := rfl
@[simp] theorem dropPkt_aligned (s : State) x0 : (dropPkt x0 s).aligned = s.aligned := rfl
@[simp] theorem dropPkt_ctimeBase (s : State) x0 : (dropPkt x0 s).ctimeBase = s.ctimeBase := rfl
@[simp] theorem dropPkt_tsk (s : State) x0 : (dropPkt x0 s).tsk = s.tsk := rfl
@[simp] theorem dropPkt_buf (s : State) x0 : (dropPkt x0 s).buf = s.buf := rfl
@[simp] theorem dropPkt_fab (s : State) x0 : (dropPkt x0 s).fab = s.fab := rfl
@[simp] theorem dropPkt_egs (s : State) x0 : (dropPkt x0 s).egs = s.egs := rfl
@[simp] theorem dropPkt_tim (s : State) x0 : (dropPkt x0 s).tim = s.tim := rfl
@[simp] theorem dropPkt_hbm (s : State) x0 : (dropPkt x0 s).hbm = s.hbm := rfl
@[simp] theorem dropPkt_chk (s : State) x0 : (dropPkt x0 s).chk = s.chk := rfl
@[simp] theorem dropPkt_cus (s : State) x0 : (dropPkt x0 s).cus = s.cus := rfl
@[simp] theorem dropPkt_flash (s : State) x0 : (dropPkt x0 s).flash = s.flash := rfl
@[simp] theorem dropPkt_log (s : State) x0 : (dropPkt x0 s).log = s.log := rfl
@[simp] theorem dropPkt_lcs (s : State) x0 : (dropPkt x0 s).lcs = s.lcs := rfl
@[simp] theorem dropPkt_pwr (s : State) x0 : (dropPkt x0 s).pwr = s.pwr := rfl
@[simp] theorem dropPkt_smb (s : State) x0 : (dropPkt x0 s).smb = s.smb := rfl

@[simp] theorem newPkt_part (s : State) x0 : (newPkt x0 s).2.part = s.part := rfl
@[simp] theorem newPkt_pending (s : State) x0 : (newPkt x0 s).2.pending = s.pending := rfl
@[simp] theorem newPkt_now (s : State) x0 : (newPkt x0 s).2.now = s.now := rfl
@[simp] theorem newPkt_free (s : State) x0 : (newPkt x0 s).2.free = s.free := rfl
@[simp] theorem newPkt_actor (s : State) x0 : (newPkt x0 s).2.actor = s.actor := rfl
@[simp] theorem newPkt_raised (s : State) x0 : (newPkt x0 s).2.raised = s.raised := rfl
@[simp] theorem newPkt_regs (s : State) x0 : (newPkt x0 s).2.regs = s.regs := rfl
@[simp] theorem newPkt_readData (s : State) x0 : (newPkt x0 s).2.readData = s.readData := rfl
@[simp] theorem newPkt_host (s : State) x0 : (newPkt x0 s).2.host = s.host := rfl
@[simp] theorem newPkt_tmem (s : State) x0 : (newPkt x0 s).2.tmem = s.tmem := rfl
@[simp] theorem newPkt_mem (s : State) x0 : (newPkt x0 s).2.mem = s.mem := rfl
@[simp] theorem newPkt_cnt (s : State) x0 : (newPkt x0 s).2.cnt = s.cnt := rfl
@[simp] theorem newPkt_hif (s : State) x0 : (newPkt x0 s).2.hif = s.hif := rfl
@[simp] theorem newPkt_cls (s : State) x0 : (newPkt x0 s).2.cls = s.cls := rfl
@[simp] theorem newPkt_fwd (s : State) x0 : (newPkt x0 s).2.fwd = s.fwd := rfl
@[simp] theorem newPkt_flow (s : State) x0 : (newPkt x0 s).2.flow = s.flow := rfl
@[simp] theorem newPkt_pipes (s : State) x0 : (newPkt x0 s).2.pipes = s.pipes := rfl
@[simp] theorem newPkt_aligned (s : State) x0 : (newPkt x0 s).2.aligned = s.aligned := rfl
@[simp] theorem newPkt_ctimeBase (s : State) x0 : (newPkt x0 s).2.ctimeBase = s.ctimeBase := rfl
@[simp] theorem newPkt_tsk (s : State) x0 : (newPkt x0 s).2.tsk = s.tsk := rfl
@[simp] theorem newPkt_buf (s : State) x0 : (newPkt x0 s).2.buf = s.buf := rfl
@[simp] theorem newPkt_fab (s : State) x0 : (newPkt x0 s).2.fab = s.fab := rfl
@[simp] theorem newPkt_egs (s : State) x0 : (newPkt x0 s).2.egs = s.egs := rfl
@[simp] theorem newPkt_tim (s : State) x0 : (newPkt x0 s).2.tim = s.tim := rfl
@[simp] theorem newPkt_hbm (s : State) x0 : (newPkt x0 s).2.hbm = s.hbm := rfl
@[simp] theorem newPkt_chk (s : State) x0 : (newPkt x0 s).2.chk = s.chk := rfl
@[simp] theorem newPkt_cus (s : State) x0 : (newPkt x0 s).2.cus = s.cus := rfl
@[simp] theorem newPkt_flash (s : State) x0 : (newPkt x0 s).2.flash = s.flash := rfl
@[simp] theorem newPkt_log (s : State) x0 : (newPkt x0 s).2.log = s.log := rfl
@[simp] theorem newPkt_lcs (s : State) x0 : (newPkt x0 s).2.lcs = s.lcs := rfl
@[simp] theorem newPkt_pwr (s : State) x0 : (newPkt x0 s).2.pwr = s.pwr := rfl
@[simp] theorem newPkt_smb (s : State) x0 : (newPkt x0 s).2.smb = s.smb := rfl

@[simp] theorem modPipe_part (s : State) x0 x1 : (modPipe x0 x1 s).part = s.part := rfl
@[simp] theorem modPipe_pending (s : State) x0 x1 : (modPipe x0 x1 s).pending = s.pending := rfl
@[simp] theorem modPipe_now (s : State) x0 x1 : (modPipe x0 x1 s).now = s.now := rfl
@[simp] theorem modPipe_free (s : State) x0 x1 : (modPipe x0 x1 s).free = s.free := rfl
@[simp] theorem modPipe_actor (s : State) x0 x1 : (modPipe x0 x1 s).actor = s.actor := rfl
@[simp] theorem modPipe_raised (s : State) x0 x1 : (modPipe x0 x1 s).raised = s.raised := rfl
@[simp] theorem modPipe_regs (s : State) x0 x1 : (modPipe x0 x1 s).regs = s.regs := rfl
@[simp] theorem modPipe_readData (s : State) x0 x1 : (modPipe x0 x1 s).readData = s.readData := rfl
@[simp] theorem modPipe_host (s : State) x0 x1 : (modPipe x0 x1 s).host = s.host := rfl
@[simp] theorem modPipe_tmem (s : State) x0 x1 : (modPipe x0 x1 s).tmem = s.tmem := rfl
@[simp] theorem modPipe_mem (s : State) x0 x1 : (modPipe x0 x1 s).mem = s.mem := rfl
@[simp] theorem modPipe_cnt (s : State) x0 x1 : (modPipe x0 x1 s).cnt = s.cnt := rfl
@[simp] theorem modPipe_hif (s : State) x0 x1 : (modPipe x0 x1 s).hif = s.hif := rfl
@[simp] theorem modPipe_pkts (s : State) x0 x1 : (modPipe x0 x1 s).pkts = s.pkts := rfl
@[simp] theorem modPipe_nextPkt (s : State) x0 x1 : (modPipe x0 x1 s).nextPkt = s.nextPkt := rfl
@[simp] theorem modPipe_cls (s : State) x0 x1 : (modPipe x0 x1 s).cls = s.cls := rfl
@[simp] theorem modPipe_fwd (s : State) x0 x1 : (modPipe x0 x1 s).fwd = s.fwd := rfl
@[simp] theorem modPipe_flow (s : State) x0 x1 : (modPipe x0 x1 s).flow = s.flow := rfl
@[simp] theorem modPipe_aligned (s : State) x0 x1 : (modPipe x0 x1 s).aligned = s.aligned := rfl
@[simp] theorem modPipe_ctimeBase (s : State) x0 x1 : (modPipe x0 x1 s).ctimeBase = s.ctimeBase := rfl
@[simp] theorem modPipe_tsk (s : State) x0 x1 : (modPipe x0 x1 s).tsk = s.tsk := rfl
@[simp] theorem modPipe_buf (s : State) x0 x1 : (modPipe x0 x1 s).buf = s.buf := rfl
@[simp] theorem modPipe_fab (s : State) x0 x1 : (modPipe x0 x1 s).fab = s.fab := rfl
@[simp] theorem modPipe_egs (s : State) x0 x1 : (modPipe x0 x1 s).egs = s.egs := rfl
@[simp] theorem modPipe_tim (s : State) x0 x1 : (modPipe x0 x1 s).tim = s.tim := rfl
@[simp] theorem modPipe_hbm (s : State) x0 x1 : (modPipe x0 x1 s).hbm = s.hbm := rfl
@[simp] theorem modPipe_chk (s : State) x0 x1 : (modPipe x0 x1 s).chk = s.chk := rfl
@[simp] theorem modPipe_cus (s : State) x0 x1 : (modPipe x0 x1 s).cus = s.cus := rfl
@[simp] theorem modPipe_flash (s : State) x0 x1 : (modPipe x0 x1 s).flash = s.flash := rfl
@[simp] theorem modPipe_log (s : State) x0 x1 : (modPipe x0 x1 s).log = s.log := rfl
@[simp] theorem modPipe_lcs (s : State) x0 x1 : (modPipe x0 x1 s).lcs = s.lcs := rfl
@[simp] theorem modPipe_pwr (s : State) x0 x1 : (modPipe x0 x1 s).pwr = s.pwr := rfl
@[simp] theorem modPipe_smb (s : State) x0 x1 : (modPipe x0 x1 s).smb = s.smb := rfl

@[simp] theorem modSlice_part (s : State) x0 x1 : (modSlice x0 x1 s).part = s.part := rfl
@[simp] theorem modSlice_pending (s : State) x0 x1 : (modSlice x0 x1 s).pending = s.pending := rfl
@[simp] theorem modSlice_now (s : State) x0 x1 : (modSlice x0 x1 s).now = s.now := rfl
@[simp] theorem modSlice_free (s : State) x0 x1 : (modSlice x0 x1 s).free = s.free := rfl
@[simp] theorem modSlice_actor (s : State) x0 x1 : (modSlice x0 x1 s).actor = s.actor := rfl
@[simp] theorem modSlice_raised (s : State) x0 x1 : (modSlice x0 x1 s).raised = s.raised := rfl
@[simp] theorem modSlice_regs (s : State) x0 x1 : (modSlice x0 x1 s).regs = s.regs := rfl
@[simp] theorem modSlice_readData (s : State) x0 x1 : (modSlice x0 x1 s).readData = s.readData := rfl
@[simp] theorem modSlice_host (s : State) x0 x1 : (modSlice x0 x1 s).host = s.host := rfl
@[simp] theorem modSlice_tmem (s : State) x0 x1 : (modSlice x0 x1 s).tmem = s.tmem := rfl
@[simp] theorem modSlice_mem (s : State) x0 x1 : (modSlice x0 x1 s).mem = s.mem := rfl
@[simp] theorem modSlice_cnt (s : State) x0 x1 : (modSlice x0 x1 s).cnt = s.cnt := rfl
@[simp] theorem modSlice_hif (s : State) x0 x1 : (modSlice x0 x1 s).hif = s.hif := rfl
@[simp] theorem modSlice_pkts (s : State) x0 x1 : (modSlice x0 x1 s).pkts = s.pkts := rfl
@[simp] theorem modSlice_nextPkt (s : State) x0 x1 : (modSlice x0 x1 s).nextPkt = s.nextPkt := rfl
@[simp] theorem modSlice_cls (s : State) x0 x1 : (modSlice x0 x1 s).cls = s.cls := rfl
@[simp] theorem modSlice_fwd (s : State) x0 x1 : (modSlice x0 x1 s).fwd = s.fwd := rfl
@[simp] theorem modSlice_pipes (s : State) x0 x1 : (modSlice x0 x1 s).pipes = s.pipes := rfl
@[simp] theorem modSlice_aligned (s : State) x0 x1 : (modSlice x0 x1 s).aligned = s.aligned := rfl
@[simp] theorem modSlice_ctimeBase (s : State) x0 x1 : (modSlice x0 x1 s).ctimeBase = s.ctimeBase := rfl
@[simp] theorem modSlice_tsk (s : State) x0 x1 : (modSlice x0 x1 s).tsk = s.tsk := rfl
@[simp] theorem modSlice_buf (s : State) x0 x1 : (modSlice x0 x1 s).buf = s.buf := rfl
@[simp] theorem modSlice_fab (s : State) x0 x1 : (modSlice x0 x1 s).fab = s.fab := rfl
@[simp] theorem modSlice_egs (s : State) x0 x1 : (modSlice x0 x1 s).egs = s.egs := rfl
@[simp] theorem modSlice_tim (s : State) x0 x1 : (modSlice x0 x1 s).tim = s.tim := rfl
@[simp] theorem modSlice_hbm (s : State) x0 x1 : (modSlice x0 x1 s).hbm = s.hbm := rfl
@[simp] theorem modSlice_chk (s : State) x0 x1 : (modSlice x0 x1 s).chk = s.chk := rfl
@[simp] theorem modSlice_cus (s : State) x0 x1 : (modSlice x0 x1 s).cus = s.cus := rfl
@[simp] theorem modSlice_flash (s : State) x0 x1 : (modSlice x0 x1 s).flash = s.flash := rfl
@[simp] theorem modSlice_log (s : State) x0 x1 : (modSlice x0 x1 s).log = s.log := rfl
@[simp] theorem modSlice_lcs (s : State) x0 x1 : (modSlice x0 x1 s).lcs = s.lcs := rfl
@[simp] theorem modSlice_pwr (s : State) x0 x1 : (modSlice x0 x1 s).pwr = s.pwr := rfl
@[simp] theorem modSlice_smb (s : State) x0 x1 : (modSlice x0 x1 s).smb = s.smb := rfl

@[simp] theorem modHalf_part (s : State) x0 x1 : (modHalf x0 x1 s).part = s.part := rfl
@[simp] theorem modHalf_pending (s : State) x0 x1 : (modHalf x0 x1 s).pending = s.pending := rfl
@[simp] theorem modHalf_now (s : State) x0 x1 : (modHalf x0 x1 s).now = s.now := rfl
@[simp] theorem modHalf_free (s : State) x0 x1 : (modHalf x0 x1 s).free = s.free := rfl
@[simp] theorem modHalf_actor (s : State) x0 x1 : (modHalf x0 x1 s).actor = s.actor := rfl
@[simp] theorem modHalf_raised (s : State) x0 x1 : (modHalf x0 x1 s).raised = s.raised := rfl
@[simp] theorem modHalf_regs (s : State) x0 x1 : (modHalf x0 x1 s).regs = s.regs := rfl
@[simp] theorem modHalf_readData (s : State) x0 x1 : (modHalf x0 x1 s).readData = s.readData := rfl
@[simp] theorem modHalf_host (s : State) x0 x1 : (modHalf x0 x1 s).host = s.host := rfl
@[simp] theorem modHalf_tmem (s : State) x0 x1 : (modHalf x0 x1 s).tmem = s.tmem := rfl
@[simp] theorem modHalf_mem (s : State) x0 x1 : (modHalf x0 x1 s).mem = s.mem := rfl
@[simp] theorem modHalf_cnt (s : State) x0 x1 : (modHalf x0 x1 s).cnt = s.cnt := rfl
@[simp] theorem modHalf_hif (s : State) x0 x1 : (modHalf x0 x1 s).hif = s.hif := rfl
@[simp] theorem modHalf_pkts (s : State) x0 x1 : (modHalf x0 x1 s).pkts = s.pkts := rfl
@[simp] theorem modHalf_nextPkt (s : State) x0 x1 : (modHalf x0 x1 s).nextPkt = s.nextPkt := rfl
@[simp] theorem modHalf_cls (s : State) x0 x1 : (modHalf x0 x1 s).cls = s.cls := rfl
@[simp] theorem modHalf_fwd (s : State) x0 x1 : (modHalf x0 x1 s).fwd = s.fwd := rfl
@[simp] theorem modHalf_pipes (s : State) x0 x1 : (modHalf x0 x1 s).pipes = s.pipes := rfl
@[simp] theorem modHalf_aligned (s : State) x0 x1 : (modHalf x0 x1 s).aligned = s.aligned := rfl
@[simp] theorem modHalf_ctimeBase (s : State) x0 x1 : (modHalf x0 x1 s).ctimeBase = s.ctimeBase := rfl
@[simp] theorem modHalf_tsk (s : State) x0 x1 : (modHalf x0 x1 s).tsk = s.tsk := rfl
@[simp] theorem modHalf_buf (s : State) x0 x1 : (modHalf x0 x1 s).buf = s.buf := rfl
@[simp] theorem modHalf_fab (s : State) x0 x1 : (modHalf x0 x1 s).fab = s.fab := rfl
@[simp] theorem modHalf_egs (s : State) x0 x1 : (modHalf x0 x1 s).egs = s.egs := rfl
@[simp] theorem modHalf_tim (s : State) x0 x1 : (modHalf x0 x1 s).tim = s.tim := rfl
@[simp] theorem modHalf_hbm (s : State) x0 x1 : (modHalf x0 x1 s).hbm = s.hbm := rfl
@[simp] theorem modHalf_chk (s : State) x0 x1 : (modHalf x0 x1 s).chk = s.chk := rfl
@[simp] theorem modHalf_cus (s : State) x0 x1 : (modHalf x0 x1 s).cus = s.cus := rfl
@[simp] theorem modHalf_flash (s : State) x0 x1 : (modHalf x0 x1 s).flash = s.flash := rfl
@[simp] theorem modHalf_log (s : State) x0 x1 : (modHalf x0 x1 s).log = s.log := rfl
@[simp] theorem modHalf_lcs (s : State) x0 x1 : (modHalf x0 x1 s).lcs = s.lcs := rfl
@[simp] theorem modHalf_pwr (s : State) x0 x1 : (modHalf x0 x1 s).pwr = s.pwr := rfl
@[simp] theorem modHalf_smb (s : State) x0 x1 : (modHalf x0 x1 s).smb = s.smb := rfl

@[simp] theorem modReplicas_part (s : State) x0 x1 : (modReplicas x0 x1 s).part = s.part := rfl
@[simp] theorem modReplicas_pending (s : State) x0 x1 : (modReplicas x0 x1 s).pending = s.pending := rfl
@[simp] theorem modReplicas_now (s : State) x0 x1 : (modReplicas x0 x1 s).now = s.now := rfl
@[simp] theorem modReplicas_free (s : State) x0 x1 : (modReplicas x0 x1 s).free = s.free := rfl
@[simp] theorem modReplicas_actor (s : State) x0 x1 : (modReplicas x0 x1 s).actor = s.actor := rfl
@[simp] theorem modReplicas_raised (s : State) x0 x1 : (modReplicas x0 x1 s).raised = s.raised := rfl
@[simp] theorem modReplicas_regs (s : State) x0 x1 : (modReplicas x0 x1 s).regs = s.regs := rfl
@[simp] theorem modReplicas_readData (s : State) x0 x1 : (modReplicas x0 x1 s).readData = s.readData := rfl
@[simp] theorem modReplicas_host (s : State) x0 x1 : (modReplicas x0 x1 s).host = s.host := rfl
@[simp] theorem modReplicas_tmem (s : State) x0 x1 : (modReplicas x0 x1 s).tmem = s.tmem := rfl
@[simp] theorem modReplicas_mem (s : State) x0 x1 : (modReplicas x0 x1 s).mem = s.mem := rfl
@[simp] theorem modReplicas_cnt (s : State) x0 x1 : (modReplicas x0 x1 s).cnt = s.cnt := rfl
@[simp] theorem modReplicas_hif (s : State) x0 x1 : (modReplicas x0 x1 s).hif = s.hif := rfl
@[simp] theorem modReplicas_pkts (s : State) x0 x1 : (modReplicas x0 x1 s).pkts = s.pkts := rfl
@[simp] theorem modReplicas_nextPkt (s : State) x0 x1 : (modReplicas x0 x1 s).nextPkt = s.nextPkt := rfl
@[simp] theorem modReplicas_cls (s : State) x0 x1 : (modReplicas x0 x1 s).cls = s.cls := rfl
@[simp] theorem modReplicas_fwd (s : State) x0 x1 : (modReplicas x0 x1 s).fwd = s.fwd := rfl
@[simp] theorem modReplicas_pipes (s : State) x0 x1 : (modReplicas x0 x1 s).pipes = s.pipes := rfl
@[simp] theorem modReplicas_aligned (s : State) x0 x1 : (modReplicas x0 x1 s).aligned = s.aligned := rfl
@[simp] theorem modReplicas_ctimeBase (s : State) x0 x1 : (modReplicas x0 x1 s).ctimeBase = s.ctimeBase := rfl
@[simp] theorem modReplicas_tsk (s : State) x0 x1 : (modReplicas x0 x1 s).tsk = s.tsk := rfl
@[simp] theorem modReplicas_buf (s : State) x0 x1 : (modReplicas x0 x1 s).buf = s.buf := rfl
@[simp] theorem modReplicas_fab (s : State) x0 x1 : (modReplicas x0 x1 s).fab = s.fab := rfl
@[simp] theorem modReplicas_egs (s : State) x0 x1 : (modReplicas x0 x1 s).egs = s.egs := rfl
@[simp] theorem modReplicas_tim (s : State) x0 x1 : (modReplicas x0 x1 s).tim = s.tim := rfl
@[simp] theorem modReplicas_hbm (s : State) x0 x1 : (modReplicas x0 x1 s).hbm = s.hbm := rfl
@[simp] theorem modReplicas_chk (s : State) x0 x1 : (modReplicas x0 x1 s).chk = s.chk := rfl
@[simp] theorem modReplicas_cus (s : State) x0 x1 : (modReplicas x0 x1 s).cus = s.cus := rfl
@[simp] theorem modReplicas_flash (s : State) x0 x1 : (modReplicas x0 x1 s).flash = s.flash := rfl
@[simp] theorem modReplicas_log (s : State) x0 x1 : (modReplicas x0 x1 s).log = s.log := rfl
@[simp] theorem modReplicas_lcs (s : State) x0 x1 : (modReplicas x0 x1 s).lcs = s.lcs := rfl
@[simp] theorem modReplicas_pwr (s : State) x0 x1 : (modReplicas x0 x1 s).pwr = s.pwr := rfl
@[simp] theorem modReplicas_smb (s : State) x0 x1 : (modReplicas x0 x1 s).smb = s.smb := rfl

@[simp] theorem modWaitings_part (s : State) x0 x1 : (modWaitings x0 x1 s).part = s.part := rfl
@[simp] theorem modWaitings_pending (s : State) x0 x1 : (modWaitings x0 x1 s).pending = s.pending := rfl
@[simp] theorem modWaitings_now (s : State) x0 x1 : (modWaitings x0 x1 s).now = s.now := rfl
@[simp] theorem modWaitings_free (s : State) x0 x1 : (modWaitings x0 x1 s).free = s.free := rfl
@[simp] theorem modWaitings_actor (s : State) x0 x1 : (modWaitings x0 x1 s).actor = s.actor := rfl
@[simp] theorem modWaitings_raised (s : State) x0 x1 : (modWaitings x0 x1 s).raised = s.raised := rfl
@[simp] theorem modWaitings_regs (s : State) x0 x1 : (modWaitings x0 x1 s).regs = s.regs := rfl
@[simp] theorem modWaitings_readData (s : State) x0 x1 : (modWaitings x0 x1 s).readData = s.readData := rfl
@[simp] theorem modWaitings_host (s : State) x0 x1 : (modWaitings x0 x1 s).host = s.host := rfl
@[simp] theorem modWaitings_tmem (s : State) x0 x1 : (modWaitings x0 x1 s).tmem = s.tmem := rfl
@[simp] theorem modWaitings_mem (s : State) x0 x1 : (modWaitings x0 x1 s).mem = s.mem := rfl
@[simp] theorem modWaitings_cnt (s : State) x0 x1 : (modWaitings x0 x1 s).cnt = s.cnt := rfl
@[simp] theorem modWaitings_hif (s : State) x0 x1 : (modWaitings x0 x1 s).hif = s.hif := rfl
@[simp] theorem modWaitings_pkts (s : State) x0 x1 : (modWaitings x0 x1 s).pkts = s.pkts := rfl
@[simp] theorem modWaitings_nextPkt (s : State) x0 x1 : (modWaitings x0 x1 s).nextPkt = s.nextPkt := rfl
@[simp] theorem modWaitings_cls (s : State) x0 x1 : (modWaitings x0 x1 s).cls = s.cls := rfl
@[simp] theorem modWaitings_fwd (s : State) x0 x1 : (modWaitings x0 x1 s).fwd = s.fwd := rfl
@[simp] theorem modWaitings_pipes (s : State) x0 x1 : (modWaitings x0 x1 s).pipes = s.pipes := rfl
@[simp] theorem modWaitings_aligned (s : State) x0 x1 : (modWaitings x0 x1 s).aligned = s.aligned := rfl
@[simp] theorem modWaitings_ctimeBase (s : State) x0 x1 : (modWaitings x0 x1 s).ctimeBase = s.ctimeBase := rfl
@[simp] theorem modWaitings_tsk (s : State) x0 x1 : (modWaitings x0 x1 s).tsk = s.tsk := rfl
@[simp] theorem modWaitings_buf (s : State) x0 x1 : (modWaitings x0 x1 s).buf = s.buf := rfl
@[simp] theorem modWaitings_fab (s : State) x0 x1 : (modWaitings x0 x1 s).fab = s.fab := rfl
@[simp] theorem modWaitings_egs (s : State) x0 x1 : (modWaitings x0 x1 s).egs = s.egs := rfl
@[simp] theorem modWaitings_tim (s : State) x0 x1 : (modWaitings x0 x1 s).tim = s.tim := rfl
@[simp] theorem modWaitings_hbm (s : State) x0 x1 : (modWaitings x0 x1 s).hbm = s.hbm := rfl
@[simp] theorem modWaitings_chk (s : State) x0 x1 : (modWaitings x0 x1 s).chk = s.chk := rfl
@[simp] theorem modWaitings_cus (s : State) x0 x1 : (modWaitings x0 x1 s).cus = s.cus := rfl
@[simp] theorem modWaitings_flash (s : State) x0 x1 : (modWaitings x0 x1 s).flash = s.flash := rfl
@[simp] theorem modWaitings_log (s : State) x0 x1 : (modWaitings x0 x1 s).log = s.log := rfl
@[simp] theorem modWaitings_lcs (s : State) x0 x1 : (modWaitings x0 x1 s).lcs = s.lcs := rfl
@[simp] theorem modWaitings_pwr (s : State) x0 x1 : (modWaitings x0 x1 s).pwr = s.pwr := rfl
@[simp] theorem modWaitings_smb (s : State) x0 x1 : (modWaitings x0 x1 s).smb = s.smb := rfl

@[simp] theorem modChan_part (s : State) x0 x1 x2 : (modChan x0 x1 x2 s).part = s.part := rfl
@[simp] theorem modChan_pending (s : State) x0 x1 x2 : (modChan x0 x1 x2 s).pending = s.pending := rfl
@[simp] theorem modChan_now (s : State) x0 x1 x2 : (modChan x0 x1 x2 s).now = s.now := rfl
@[simp] theorem modChan_free (s : State) x0 x1 x2 : (modChan x0 x1 x2 s).free = s.free := rfl
@[simp] theorem modChan_actor (s : State) x0 x1 x2 : (modChan x0 x1 x2 s).actor = s.actor := rfl
@[simp] theorem modChan_raised (s : State) x0 x1 x2 : (modChan x0 x1 x2 s).raised = s.raised := rfl
@[simp] theorem modChan_regs (s : State) x0 x1 x2 : (modChan x0 x1 x2 s).regs = s.regs := rfl
@[simp] theorem modChan_readData (s : State) x0 x1 x2 : (modChan x0 x1 x2 s).readData = s.readData := rfl
@[simp] theorem modChan_host (s : State) x0 x1 x2 : (modChan x0 x1 x2 s).host = s.host := rfl
@[simp] theorem modChan_tmem (s : State) x0 x1 x2 : (modChan x0 x1 x2 s).tmem = s.tmem := rfl
@[simp] theorem modChan_mem (s : State) x0 x1 x2 : (modChan x0 x1 x2 s).mem = s.mem := rfl
@[simp] theorem modChan_cnt (s : State) x0 x1 x2 : (modChan x0 x1 x2 s).cnt = s.cnt := rfl
@[simp] theorem modChan_hif (s : State) x0 x1 x2 : (modChan x0 x1 x2 s).hif = s.hif := rfl
@[simp] theorem modChan_pkts (s : State) x0 x1 x2 : (modChan x0 x1 x2 s).pkts = s.pkts := rfl
@[simp] theorem modChan_nextPkt (s : State) x0 x1 x2 : (modChan x0 x1 x2 s).nextPkt = s.nextPkt := rfl
@[simp] theorem modChan_cls (s : State) x0 x1 x2 : (modChan x0 x1 x2 s).cls = s.cls := rfl
@[simp] theorem modChan_fwd (s : State) x0 x1 x2 : (modChan x0 x1 x2 s).fwd = s.fwd := rfl
@[simp] theorem modChan_pipes (s : State) x0 x1 x2 : (modChan x0 x1 x2 s).pipes = s.pipes := rfl
@[simp] theorem modChan_aligned (s : State) x0 x1 x2 : (modChan x0 x1 x2 s).aligned = s.aligned := rfl
@[simp] theorem modChan_ctimeBase (s : State) x0 x1 x2 : (modChan x0 x1 x2 s).ctimeBase = s.ctimeBase := rfl
@[simp] theorem modChan_tsk (s : State) x0 x1 x2 : (modChan x0 x1 x2 s).tsk = s.tsk := rfl
@[simp] theorem modChan_buf (s : State) x0 x1 x2 : (modChan x0 x1 x2 s).buf = s.buf := rfl
@[simp] theorem modChan_fab (s : State) x0 x1 x2 : (modChan x0 x1 x2 s).fab = s.fab := rfl
@[simp] theorem modChan_egs (s : State) x0 x1 x2 : (modChan x0 x1 x2 s).egs = s.egs := rfl
@[simp] theorem modChan_tim (s : State) x0 x1 x2 : (modChan x0 x1 x2 s).tim = s.tim := rfl
@[simp] theorem modChan_hbm (s : State) x0 x1 x2 : (modChan x0 x1 x2 s).hbm = s.hbm := rfl
@[simp] theorem modChan_chk (s : State) x0 x1 x2 : (modChan x0 x1 x2 s).chk = s.chk := rfl
@[simp] theorem modChan_cus (s : State) x0 x1 x2 : (modChan x0 x1 x2 s).cus = s.cus := rfl
@[simp] theorem modChan_flash (s : State) x0 x1 x2 : (modChan x0 x1 x2 s).flash = s.flash := rfl
@[simp] theorem modChan_log (s : State) x0 x1 x2 : (modChan x0 x1 x2 s).log = s.log := rfl
@[simp] theorem modChan_lcs (s : State) x0 x1 x2 : (modChan x0 x1 x2 s).lcs = s.lcs := rfl
@[simp] theorem modChan_pwr (s : State) x0 x1 x2 : (modChan x0 x1 x2 s).pwr = s.pwr := rfl
@[simp] theorem modChan_smb (s : State) x0 x1 x2 : (modChan x0 x1 x2 s).smb = s.smb := rfl

@[simp] theorem sendChan_part (s : State) x0 x1 x2 : (sendChan x0 x1 x2 s).part = s.part := rfl
@[simp] theorem sendChan_pending (s : State) x0 x1 x2 : (sendChan x0 x1 x2 s).pending = s.pending := rfl
@[simp] theorem sendChan_now (s : State) x0 x1 x2 : (sendChan x0 x1 x2 s).now = s.now := rfl
@[simp] theorem sendChan_free (s : State) x0 x1 x2 : (sendChan x0 x1 x2 s).free = s.free := rfl
@[simp] theorem sendChan_actor (s : State) x0 x1 x2 : (sendChan x0 x1 x2 s).actor = s.actor := rfl
@[simp] theorem sendChan_raised (s : State) x0 x1 x2 : (sendChan x0 x1 x2 s).raised = s.raised := rfl
@[simp] theorem sendChan_regs (s : State) x0 x1 x2 : (sendChan x0 x1 x2 s).regs = s.regs := rfl
@[simp] theorem sendChan_readData (s : State) x0 x1 x2 : (sendChan x0 x1 x2 s).readData = s.readData := rfl
@[simp] theorem sendChan_host (s : State) x0 x1 x2 : (sendChan x0 x1 x2 s).host = s.host := rfl
@[simp] theorem sendChan_tmem (s : State) x0 x1 x2 : (sendChan x0 x1 x2 s).tmem = s.tmem := rfl
@[simp] theorem sendChan_mem (s : State) x0 x1 x2 : (sendChan x0 x1 x2 s).mem = s.mem := rfl
@[simp] theorem sendChan_cnt (s : State) x0 x1 x2 : (sendChan x0 x1 x2 s).cnt = s.cnt := rfl
@[simp] theorem sendChan_hif (s : State) x0 x1 x2 : (sendChan x0 x1 x2 s).hif = s.hif := rfl
@[simp] theorem sendChan_pkts (s : State) x0 x1 x2 : (sendChan x0 x1 x2 s).pkts = s.pkts := rfl
@[simp] theorem sendChan_nextPkt (s : State) x0 x1 x2 : (sendChan x0 x1 x2 s).nextPkt = s.nextPkt := rfl
@[simp] theorem sendChan_cls (s : State) x0 x1 x2 : (sendChan x0 x1 x2 s).cls = s.cls := rfl
@[simp] theorem sendChan_fwd (s : State) x0 x1 x2 : (sendChan x0 x1 x2 s).fwd = s.fwd := rfl
@[simp] theorem sendChan_pipes (s : State) x0 x1 x2 : (sendChan x0 x1 x2 s).pipes = s.pipes := rfl
@[simp] theorem sendChan_aligned (s : State) x0 x1 x2 : (sendChan x0 x1 x2 s).aligned = s.aligned := rfl
@[simp] theorem sendChan_ctimeBase (s : State) x0 x1 x2 : (sendChan x0 x1 x2 s).ctimeBase = s.ctimeBase := rfl
@[simp] theorem sendChan_tsk (s : State) x0 x1 x2 : (sendChan x0 x1 x2 s).tsk = s.tsk := rfl
@[simp] theorem sendChan_buf (s : State) x0 x1 x2 : (sendChan x0 x1 x2 s).buf = s.buf := rfl
@[simp] theorem sendChan_fab (s : State) x0 x1 x2 : (sendChan x0 x1 x2 s).fab = s.fab := rfl
@[simp] theorem sendChan_egs (s : State) x0 x1 x2 : (sendChan x0 x1 x2 s).egs = s.egs := rfl
@[simp] theorem sendChan_tim (s : State) x0 x1 x2 : (sendChan x0 x1 x2 s).tim = s.tim := rfl
@[simp] theorem sendChan_hbm (s : State) x0 x1 x2 : (sendChan x0 x1 x2 s).hbm = s.hbm := rfl
@[simp] theorem sendChan_chk (s : State) x0 x1 x2 : (sendChan x0 x1 x2 s).chk = s.chk := rfl
@[simp] theorem sendChan_cus (s : State) x0 x1 x2 : (sendChan x0 x1 x2 s).cus = s.cus := rfl
@[simp] theorem sendChan_flash (s : State) x0 x1 x2 : (sendChan x0 x1 x2 s).flash = s.flash := rfl
@[simp] theorem sendChan_log (s : State) x0 x1 x2 : (sendChan x0 x1 x2 s).log = s.log := rfl
@[simp] theorem sendChan_lcs (s : State) x0 x1 x2 : (sendChan x0 x1 x2 s).lcs = s.lcs := rfl
@[simp] theorem sendChan_pwr (s : State) x0 x1 x2 : (sendChan x0 x1 x2 s).pwr = s.pwr := rfl
@[simp] theorem sendChan_smb (s : State) x0 x1 x2 : (sendChan x0 x1 x2 s).smb = s.smb := rfl

@[simp] theorem modTsk_part (s : State) x0 : (modTsk x0 s).part = s.part := rfl
@[simp] theorem modTsk_pending (s : State) x0 : (modTsk x0 s).pending = s.pending := rfl
@[simp] theorem modTsk_now (s : State) x0 : (modTsk x0 s).now = s.now := rfl
@[simp] theorem modTsk_free (s : State) x0 : (modTsk x0 s).free = s.free := rfl
@[simp] theorem modTsk_actor (s : State) x0 : (modTsk x0 s).actor = s.actor := rfl
@[simp] theorem modTsk_raised (s : State) x0 : (modTsk x0 s).raised = s.raised := rfl
@[simp] theorem modTsk_regs (s : State) x0 : (modTsk x0 s).regs = s.regs := rfl
@[simp] theorem modTsk_readData (s : State) x0 : (modTsk x0 s).readData = s.readData := rfl
@[simp] theorem modTsk_host (s : State) x0 : (modTsk x0 s).host = s.host := rfl
@[simp] theorem modTsk_tmem (s : State) x0 : (modTsk x0 s).tmem = s.tmem := rfl
@[simp] theorem modTsk_mem (s : State) x0 : (modTsk x0 s).mem = s.mem := rfl
@[simp] theorem modTsk_cnt (s : State) x0 : (modTsk x0 s).cnt = s.cnt := rfl
@[simp] theorem modTsk_hif (s : State) x0 : (modTsk x0 s).hif = s.hif := rfl
@[simp] theorem modTsk_pkts (s : State) x0 : (modTsk x0 s).pkts = s.pkts := rfl
@[simp] theorem modTsk_nextPkt (s : State) x0 : (modTsk x0 s).nextPkt = s.nextPkt := rfl
@[simp] theorem modTsk_cls (s : State) x0 : (modTsk x0 s).cls = s.cls := rfl
@[simp] theorem modTsk_fwd (s : State) x0 : (modTsk x0 s).fwd = s.fwd := rfl
@[simp] theorem modTsk_flow (s : State) x0 : (modTsk x0 s).flow = s.flow := rfl
@[simp] theorem modTsk_pipes (s : State) x0 : (modTsk x0 s).pipes = s.pipes := rfl
@[simp] theorem modTsk_aligned (s : State) x0 : (modTsk x0 s).aligned = s.aligned := rfl
@[simp] theorem modTsk_ctimeBase (s : State) x0 : (modTsk x0 s).ctimeBase = s.ctimeBase := rfl
@[simp] theorem modTsk_buf (s : State) x0 : (modTsk x0 s).buf = s.buf := rfl
@[simp] theorem modTsk_fab (s : State) x0 : (modTsk x0 s).fab = s.fab := rfl
@[simp] theorem modTsk_egs (s : State) x0 : (modTsk x0 s).egs = s.egs := rfl
@[simp] theorem modTsk_tim (s : State) x0 : (modTsk x0 s).tim = s.tim := rfl
@[simp] theorem modTsk_hbm (s : State) x0 : (modTsk x0 s).hbm = s.hbm := rfl
@[simp] theorem modTsk_chk (s : State) x0 : (modTsk x0 s).chk = s.chk := rfl
@[simp] theorem modTsk_cus (s : State) x0 : (modTsk x0 s).cus = s.cus := rfl
@[simp] theorem modTsk_flash (s : State) x0 : (modTsk x0 s).flash = s.flash := rfl
@[simp] theorem modTsk_log (s : State) x0 : (modTsk x0 s).log = s.log := rfl
@[simp] theorem modTsk_lcs (s : State) x0 : (modTsk x0 s).lcs = s.lcs := rfl
@[simp] theorem modTsk_pwr (s : State) x0 : (modTsk x0 s).pwr = s.pwr := rfl
@[simp] theorem modTsk_smb (s : State) x0 : (modTsk x0 s).smb = s.smb := rfl

@[simp] theorem modTask_part (s : State) x0 x1 x2 : (modTask x0 x1 x2 s).part = s.part := rfl
@[simp] theorem modTask_pending (s : State) x0 x1 x2 : (modTask x0 x1 x2 s).pending = s.pending := rfl
@[simp] theorem modTask_now (s : State) x0 x1 x2 : (modTask x0 x1 x2 s).now = s.now := rfl
@[simp] theorem modTask_free (s : State) x0 x1 x2 : (modTask x0 x1 x2 s).free = s.free := rfl
@[simp] theorem modTask_actor (s : State) x0 x1 x2 : (modTask x0 x1 x2 s).actor = s.actor := rfl
@[simp] theorem modTask_raised (s : State) x0 x1 x2 : (modTask x0 x1 x2 s).raised = s.raised := rfl
@[simp] theorem modTask_regs (s : State) x0 x1 x2 : (modTask x0 x1 x2 s).regs = s.regs := rfl
@[simp] theorem modTask_readData (s : State) x0 x1 x2 : (modTask x0 x1 x2 s).readData = s.readData := rfl
@[simp] theorem modTask_host (s : State) x0 x1 x2 : (modTask x0 x1 x2 s).host = s.host := rfl
@[simp] theorem modTask_tmem (s : State) x0 x1 x2 : (modTask x0 x1 x2 s).tmem = s.tmem := rfl
@[simp] theorem modTask_mem (s : State) x0 x1 x2 : (modTask x0 x1 x2 s).mem = s.mem := rfl
@[simp] theorem modTask_cnt (s : State) x0 x1 x2 : (modTask x0 x1 x2 s).cnt = s.cnt := rfl
@[simp] theorem modTask_hif (s : State) x0 x1 x2 : (modTask x0 x1 x2 s).hif = s.hif := rfl
@[simp] theorem modTask_pkts (s : State) x0 x1 x2 : (modTask x0 x1 x2 s).pkts = s.pkts := rfl
@[simp] theorem modTask_nextPkt (s : State) x0 x1 x2 : (modTask x0 x1 x2 s).nextPkt = s.nextPkt := rfl
@[simp] theorem modTask_cls (s : State) x0 x1 x2 : (modTask x0 x1 x2 s).cls = s.cls := rfl
@[simp] theorem modTask_fwd (s : State) x0 x1 x2 : (modTask x0 x1 x2 s).fwd = s.fwd := rfl
@[simp] theorem modTask_flow (s : State) x0 x1 x2 : (modTask x0 x1 x2 s).flow = s.flow := rfl
@[simp] theorem modTask_pipes (s : State) x0 x1 x2 : (modTask x0 x1 x2 s).pipes = s.pipes := rfl
@[simp] theorem modTask_aligned (s : State) x0 x1 x2 : (modTask x0 x1 x2 s).aligned = s.aligned := rfl
@[simp] theorem modTask_ctimeBase (s : State) x0 x1 x2 : (modTask x0 x1 x2 s).ctimeBase = s.ctimeBase := rfl
@[simp] theorem modTask_buf (s : State) x0 x1 x2 : (modTask x0 x1 x2 s).buf = s.buf := rfl
@[simp] theorem modTask_fab (s : State) x0 x1 x2 : (modTask x0 x1 x2 s).fab = s.fab := rfl
@[simp] theorem modTask_egs (s : State) x0 x1 x2 : (modTask x0 x1 x2 s).egs = s.egs := rfl
@[simp] theorem modTask_tim (s : State) x0 x1 x2 : (modTask x0 x1 x2 s).tim = s.tim := rfl
@[simp] theorem modTask_hbm (s : State) x0 x1 x2 : (modTask x0 x1 x2 s).hbm = s.hbm := rfl
@[simp] theorem modTask_chk (s : State) x0 x1 x2 : (modTask x0 x1 x2 s).chk = s.chk := rfl
@[simp] theorem modTask_cus (s : State) x0 x1 x2 : (modTask x0 x1 x2 s).cus = s.cus := rfl
@[simp] theorem modTask_flash (s : State) x0 x1 x2 : (modTask x0 x1 x2 s).flash = s.flash := rfl
@[simp] theorem modTask_log (s : State) x0 x1 x2 : (modTask x0 x1 x2 s).log = s.log := rfl
@[simp] theorem modTask_lcs (s : State) x0 x1 x2 : (modTask x0 x1 x2 s).lcs = s.lcs := rfl
@[simp] theorem modTask_pwr (s : State) x0 x1 x2 : (modTask x0 x1 x2 s).pwr = s.pwr := rfl
@[simp] theorem modTask_smb (s : State) x0 x1 x2 : (modTask x0 x1 x2 s).smb = s.smb := rfl

@[simp] theorem modLock_part (s : State) x0 x1 x2 : (modLock x0 x1 x2 s).part = s.part := rfl
@[simp] theorem modLock_pending (s : State) x0 x1 x2 : (modLock x0 x1 x2 s).pending = s.pending := rfl
@[simp] theorem modLock_now (s : State) x0 x1 x2 : (modLock x0 x1 x2 s).now = s.now := rfl
@[simp] theorem modLock_free (s : State) x0 x1 x2 : (modLock x0 x1 x2 s).free = s.free := rfl
@[simp] theorem modLock_actor (s : State) x0 x1 x2 : (modLock x0 x1 x2 s).actor = s.actor := rfl
@[simp] theorem modLock_raised (s : State) x0 x1 x2 : (modLock x0 x1 x2 s).raised = s.raised := rfl
@[simp] theorem modLock_regs (s : State) x0 x1 x2 : (modLock x0 x1 x2 s).regs = s.regs := rfl
@[simp] theorem modLock_readData (s : State) x0 x1 x2 : (modLock x0 x1 x2 s).readData = s.readData := rfl
@[simp] theorem modLock_host (s : State) x0 x1 x2 : (modLock x0 x1 x2 s).host = s.host := rfl
@[simp] theorem modLock_tmem (s : State) x0 x1 x2 : (modLock x0 x1 x2 s).tmem = s.tmem := rfl
@[simp] theorem modLock_mem (s : State) x0 x1 x2 : (modLock x0 x1 x2 s).mem = s.mem := rfl
@[simp] theorem modLock_cnt (s : State) x0 x1 x2 : (modLock x0 x1 x2 s).cnt = s.cnt := rfl
@[simp] theorem modLock_hif (s : State) x0 x1 x2 : (modLock x0 x1 x2 s).hif = s.hif := rfl
@[simp] theorem modLock_pkts (s : State) x0 x1 x2 : (modLock x0 x1 x2 s).pkts = s.pkts := rfl
@[simp] theorem modLock_nextPkt (s : State) x0 x1 x2 : (modLock x0 x1 x2 s).nextPkt = s.nextPkt := rfl
@[simp] theorem modLock_cls (s : State) x0 x1 x2 : (modLock x0 x1 x2 s).cls = s.cls := rfl
@[simp] theorem modLock_fwd (s : State) x0 x1 x2 : (modLock x0 x1 x2 s).fwd = s.fwd := rfl
@[simp] theorem modLock_flow (s : State) x0 x1 x2 : (modLock x0 x1 x2 s).flow = s.flow := rfl
@[simp] theorem modLock_pipes (s : State) x0 x1 x2 : (modLock x0 x1 x2 s).pipes = s.pipes := rfl
@[simp] theorem modLock_aligned (s : State) x0 x1 x2 : (modLock x0 x1 x2 s).aligned = s.aligned := rfl
@[simp] theorem modLock_ctimeBase (s : State) x0 x1 x2 : (modLock x0 x1 x2 s).ctimeBase = s.ctimeBase := rfl
@[simp] theorem modLock_buf (s : State) x0 x1 x2 : (modLock x0 x1 x2 s).buf = s.buf := rfl
@[simp] theorem modLock_fab (s : State) x0 x1 x2 : (modLock x0 x1 x2 s).fab = s.fab := rfl
@[simp] theorem modLock_egs (s : State) x0 x1 x2 : (modLock x0 x1 x2 s).egs = s.egs := rfl
@[simp] theorem modLock_tim (s : State) x0 x1 x2 : (modLock x0 x1 x2 s).tim = s.tim := rfl
@[simp] theorem modLock_hbm (s : State) x0 x1 x2 : (modLock x0 x1 x2 s).hbm = s.hbm := rfl
@[simp] theorem modLock_chk (s : State) x0 x1 x2 : (modLock x0 x1 x2 s).chk = s.chk := rfl
@[simp] theorem modLock_cus (s : State) x0 x1 x2 : (modLock x0 x1 x2 s).cus = s.cus := rfl
@[simp] theorem modLock_flash (s : State) x0 x1 x2 : (modLock x0 x1 x2 s).flash = s.flash := rfl
@[simp] theorem modLock_log (s : State) x0 x1 x2 : (modLock x0 x1 x2 s).log = s.log := rfl
@[simp] theorem modLock_lcs (s : State) x0 x1 x2 : (modLock x0 x1 x2 s).lcs = s.lcs := rfl
@[simp] theorem modLock_pwr (s : State) x0 x1 x2 : (modLock x0 x1 x2 s).pwr = s.pwr := rfl
@[simp] theorem modLock_smb (s : State) x0 x1 x2 : (modLock x0 x1 x2 s).smb = s.smb := rfl

@[simp] theorem modCore_part (s : State) x0 x1 : (modCore x0 x1 s).part = s.part := rfl
@[simp] theorem modCore_pending (s : State) x0 x1 : (modCore x0 x1 s).pending = s.pending := rfl
@[simp] theorem modCore_now (s : State) x0 x1 : (modCore x0 x1 s).now = s.now := rfl
@[simp] theorem modCore_free (s : State) x0 x1 : (modCore x0 x1 s).free = s.free := rfl
@[simp] theorem modCore_actor (s : State) x0 x1 : (modCore x0 x1 s).actor = s.actor := rfl
@[simp] theorem modCore_raised (s : State) x0 x1 : (modCore x0 x1 s).raised = s.raised := rfl
@[simp] theorem modCore_regs (s : State) x0 x1 : (modCore x0 x1 s).regs = s.regs := rfl
@[simp] theorem modCore_readData (s : State) x0 x1 : (modCore x0 x1 s).readData = s.readData := rfl
@[simp] theorem modCore_host (s : State) x0 x1 : (modCore x0 x1 s).host = s.host := rfl
@[simp] theorem modCore_tmem (s : State) x0 x1 : (modCore x0 x1 s).tmem = s.tmem := rfl
@[simp] theorem modCore_mem (s : State) x0 x1 : (modCore x0 x1 s).mem = s.mem := rfl
@[simp] theorem modCore_cnt (s : State) x0 x1 : (modCore x0 x1 s).cnt = s.cnt := rfl
@[simp] theorem modCore_hif (s : State) x0 x1 : (modCore x0 x1 s).hif = s.hif := rfl
@[simp] theorem modCore_pkts (s : State) x0 x1 : (modCore x0 x1 s).pkts = s.pkts := rfl
@[simp] theorem modCore_nextPkt (s : State) x0 x1 : (modCore x0 x1 s).nextPkt = s.nextPkt := rfl
@[simp] theorem modCore_cls (s : State) x0 x1 : (modCore x0 x1 s).cls = s.cls := rfl
@[simp] theorem modCore_fwd (s : State) x0 x1 : (modCore x0 x1 s).fwd = s.fwd := rfl
@[simp] theorem modCore_flow (s : State) x0 x1 : (modCore x0 x1 s).flow = s.flow := rfl
@[simp] theorem modCore_pipes (s : State) x0 x1 : (modCore x0 x1 s).pipes = s.pipes := rfl
@[simp] theorem modCore_aligned (s : State) x0 x1 : (modCore x0 x1 s).aligned = s.aligned := rfl
@[simp] theorem modCore_ctimeBase (s : State) x0 x1 : (modCore x0 x1 s).ctimeBase = s.ctimeBase := rfl
@[simp] theorem modCore_buf (s : State) x0 x1 : (modCore x0 x1 s).buf = s.buf := rfl
@[simp] theorem modCore_fab (s : State) x0 x1 : (modCore x0 x1 s).fab = s.fab := rfl
@[simp] theorem modCore_egs (s : State) x0 x1 : (modCore x0 x1 s).egs = s.egs := rfl
@[simp] theorem modCore_tim (s : State) x0 x1 : (modCore x0 x1 s).tim = s.tim := rfl
@[simp] theorem modCore_hbm (s : State) x0 x1 : (modCore x0 x1 s).hbm = s.hbm := rfl
@[simp] theorem modCore_chk (s : State) x0 x1 : (modCore x0 x1 s).chk = s.chk := rfl
@[simp] theorem modCore_cus (s : State) x0 x1 : (modCore x0 x1 s).cus = s.cus := rfl
@[simp] theorem modCore_flash (s : State) x0 x1 : (modCore x0 x1 s).flash = s.flash := rfl
@[simp] theorem modCore_log (s : State) x0 x1 : (modCore x0 x1 s).log = s.log := rfl
@[simp] theorem modCore_lcs (s : State) x0 x1 : (modCore x0 x1 s).lcs = s.lcs := rfl
@[simp] theorem modCore_pwr (s : State) x0 x1 : (modCore x0 x1 s).pwr = s.pwr := rfl
@[simp] theorem modCore_smb (s : State) x0 x1 : (modCore x0 x1 s).smb = s.smb := rfl

@[simp] theorem modCluster_part (s : State) x0 x1 : (modCluster x0 x1 s).part = s.part := rfl
@[simp] theorem modCluster_pending (s : State) x0 x1 : (modCluster x0 x1 s).pending = s.pending := rfl
@[simp] theorem modCluster_now (s : State) x0 x1 : (modCluster x0 x1 s).now = s.now := rfl
@[simp] theorem modCluster_free (s : State) x0 x1 : (modCluster x0 x1 s).free = s.free := rfl
@[simp] theorem modCluster_actor (s : State) x0 x1 : (modCluster x0 x1 s).actor = s.actor := rfl
@[simp] theorem modCluster_raised (s : State) x0 x1 : (modCluster x0 x1 s).raised = s.raised := rfl
@[simp] theorem modCluster_regs (s : State) x0 x1 : (modCluster x0 x1 s).regs = s.regs := rfl
@[simp] theorem modCluster_readData (s : State) x0 x1 : (modCluster x0 x1 s).readData = s.readData := rfl
@[simp] theorem modCluster_host (s : State) x0 x1 : (modCluster x0 x1 s).host = s.host := rfl
@[simp] theorem modCluster_tmem (s : State) x0 x1 : (modCluster x0 x1 s).tmem = s.tmem := rfl
@[simp] theorem modCluster_mem (s : State) x0 x1 : (modCluster x0 x1 s).mem = s.mem := rfl
@[simp] theorem modCluster_cnt (s : State) x0 x1 : (modCluster x0 x1 s).cnt = s.cnt := rfl
@[simp] theorem modCluster_hif (s : State) x0 x1 : (modCluster x0 x1 s).hif = s.hif := rfl
@[simp] theorem modCluster_pkts (s : State) x0 x1 : (modCluster x0 x1 s).pkts = s.pkts := rfl
@[simp] theorem modCluster_nextPkt (s : State) x0 x1 : (modCluster x0 x1 s).nextPkt = s.nextPkt := rfl
@[simp] theorem modCluster_cls (s : State) x0 x1 : (modCluster x0 x1 s).cls = s.cls := rfl
@[simp] theorem modCluster_fwd (s : State) x0 x1 : (modCluster x0 x1 s).fwd = s.fwd := rfl
@[simp] theorem modCluster_flow (s : State) x0 x1 : (modCluster x0 x1 s).flow = s.flow := rfl
@[simp] theorem modCluster_pipes (s : State) x0 x1 : (modCluster x0 x1 s).pipes = s.pipes := rfl
@[simp] theorem modCluster_aligned (s : State) x0 x1 : (modCluster x0 x1 s).aligned = s.aligned := rfl
@[simp] theorem modCluster_ctimeBase (s : State) x0 x1 : (modCluster x0 x1 s).ctimeBase = s.ctimeBase := rfl
@[simp] theorem modCluster_buf (s : State) x0 x1 : (modCluster x0 x1 s).buf = s.buf := rfl
@[simp] theorem modCluster_fab (s : State) x0 x1 : (modCluster x0 x1 s).fab = s.fab := rfl
@[simp] theorem modCluster_egs (s : State) x0 x1 : (modCluster x0 x1 s).egs = s.egs := rfl
@[simp] theorem modCluster_tim (s : State) x0 x1 : (modCluster x0 x1 s).tim = s.tim := rfl
@[simp] theorem modCluster_hbm (s : State) x0 x1 : (modCluster x0 x1 s).hbm = s.hbm := rfl
@[simp] theorem modCluster_chk (s : State) x0 x1 : (modCluster x0 x1 s).chk = s.chk := rfl
@[simp] theorem modCluster_cus (s : State) x0 x1 : (modCluster x0 x1 s).cus = s.cus := rfl
@[simp] theorem modCluster_flash (s : State) x0 x1 : (modCluster x0 x1 s).flash = s.flash := rfl
@[simp] theorem modCluster_log (s : State) x0 x1 : (modCluster x0 x1 s).log = s.log := rfl
@[simp] theorem modCluster_lcs (s : State) x0 x1 : (modCluster x0 x1 s).lcs = s.lcs := rfl
@[simp] theorem modCluster_pwr (s : State) x0 x1 : (modCluster x0 x1 s).pwr = s.pwr := rfl
@[simp] theorem modCluster_smb (s : State) x0 x1 : (modCluster x0 x1 s).smb = s.smb := rfl

@[simp] theorem modBuf_part (s : State) x0 : (modBuf x0 s).part = s.part := rfl
@[simp] theorem modBuf_pending (s : State) x0 : (modBuf x0 s).pending = s.pending := rfl
@[simp] theorem modBuf_now (s : State) x0 : (modBuf x0 s).now = s.now := rfl
@[simp] theorem modBuf_free (s : State) x0 : (modBuf x0 s).free = s.free := rfl
@[simp] theorem modBuf_actor (s : State) x0 : (modBuf x0 s).actor = s.actor := rfl
@[simp] theorem modBuf_raised (s : State) x0 : (modBuf x0 s).raised = s.raised := rfl
@[simp] theorem modBuf_regs (s : State) x0 : (modBuf x0 s).regs = s.regs := rfl
@[simp] theorem modBuf_readData (s : State) x0 : (modBuf x0 s).readData = s.readData := rfl
@[simp] theorem modBuf_host (s : State) x0 : (modBuf x0 s).host = s.host := rfl
@[simp] theorem modBuf_tmem (s : State) x0 : (modBuf x0 s).tmem = s.tmem := rfl
@[simp] theorem modBuf_mem (s : State) x0 : (modBuf x0 s).mem = s.mem := rfl
@[simp] theorem modBuf_cnt (s : State) x0 : (modBuf x0 s).cnt = s.cnt := rfl
@[simp] theorem modBuf_hif (s : State) x0 : (modBuf x0 s).hif = s.hif := rfl
@[simp] theorem modBuf_pkts (s : State) x0 : (modBuf x0 s).pkts = s.pkts := rfl
@[simp] theorem modBuf_nextPkt (s : State) x0 : (modBuf x0 s).nextPkt = s.nextPkt := rfl
@[simp] theorem modBuf_cls (s : State) x0 : (modBuf x0 s).cls = s.cls := rfl
@[simp] theorem modBuf_fwd (s : State) x0 : (modBuf x0 s).fwd = s.fwd := rfl
@[simp] theorem modBuf_flow (s : State) x0 : (modBuf x0 s).flow = s.flow := rfl
@[simp] theorem modBuf_pipes (s : State) x0 : (modBuf x0 s).pipes = s.pipes := rfl
@[simp] theorem modBuf_aligned (s : State) x0 : (modBuf x0 s).aligned = s.aligned := rfl
@[simp] theorem modBuf_ctimeBase (s : State) x0 : (modBuf x0 s).ctimeBase = s.ctimeBase := rfl
@[simp] theorem modBuf_tsk (s : State) x0 : (modBuf x0 s).tsk = s.tsk := rfl
@[simp] theorem modBuf_fab (s : State) x0 : (modBuf x0 s).fab = s.fab := rfl
@[simp] theorem modBuf_egs (s : State) x0 : (modBuf x0 s).egs = s.egs := rfl
@[simp] theorem modBuf_tim (s : State) x0 : (modBuf x0 s).tim = s.tim := rfl
@[simp] theorem modBuf_hbm (s : State) x0 : (modBuf x0 s).hbm = s.hbm := rfl
@[simp] theorem modBuf_chk (s : State) x0 : (modBuf x0 s).chk = s.chk := rfl
@[simp] theorem modBuf_cus (s : State) x0 : (modBuf x0 s).cus = s.cus := rfl
@[simp] theorem modBuf_flash (s : State) x0 : (modBuf x0 s).flash = s.flash := rfl
@[simp] theorem modBuf_log (s : State) x0 : (modBuf x0 s).log = s.log := rfl
@[simp] theorem modBuf_lcs (s : State) x0 : (modBuf x0 s).lcs = s.lcs := rfl
@[simp] theorem modBuf_pwr (s : State) x0 : (modBuf x0 s).pwr = s.pwr := rfl
@[simp] theorem modBuf_smb (s : State) x0 : (modBuf x0 s).smb = s.smb := rfl

@[simp] theorem modPause_part (s : State) x0 x1 x2 : (modPause x0 x1 x2 s).part = s.part := rfl
@[simp] theorem modPause_pending (s : State) x0 x1 x2 : (modPause x0 x1 x2 s).pending = s.pending := rfl
@[simp] theorem modPause_now (s : State) x0 x1 x2 : (modPause x0 x1 x2 s).now = s.now := rfl
@[simp] theorem modPause_free (s : State) x0 x1 x2 : (modPause x0 x1 x2 s).free = s.free := rfl
@[simp] theorem modPause_actor (s : State) x0 x1 x2 : (modPause x0 x1 x2 s).actor = s.actor := rfl
@[simp] theorem modPause_raised (s : State) x0 x1 x2 : (modPause x0 x1 x2 s).raised = s.raised := rfl
@[simp] theorem modPause_regs (s : State) x0 x1 x2 : (modPause x0 x1 x2 s).regs = s.regs := rfl
@[simp] theorem modPause_readData (s : State) x0 x1 x2 : (modPause x0 x1 x2 s).readData = s.readData := rfl
@[simp] theorem modPause_host (s : State) x0 x1 x2 : (modPause x0 x1 x2 s).host = s.host := rfl
@[simp] theorem modPause_tmem (s : State) x0 x1 x2 : (modPause x0 x1 x2 s).tmem = s.tmem := rfl
@[simp] theorem modPause_mem (s : State) x0 x1 x2 : (modPause x0 x1 x2 s).mem = s.mem := rfl
@[simp] theorem modPause_cnt (s : State) x0 x1 x2 : (modPause x0 x1 x2 s).cnt = s.cnt := rfl
@[simp] theorem modPause_hif (s : State) x0 x1 x2 : (modPause x0 x1 x2 s).hif = s.hif := rfl
@[simp] theorem modPause_pkts (s : State) x0 x1 x2 : (modPause x0 x1 x2 s).pkts = s.pkts := rfl
@[simp] theorem modPause_nextPkt (s : State) x0 x1 x2 : (modPause x0 x1 x2 s).nextPkt = s.nextPkt := rfl
@[simp] theorem modPause_cls (s : State) x0 x1 x2 : (modPause x0 x1 x2 s).cls = s.cls := rfl
@[simp] theorem modPause_fwd (s : State) x0 x1 x2 : (modPause x0 x1 x2 s).fwd = s.fwd := rfl
@[simp] theorem modPause_flow (s : State) x0 x1 x2 : (modPause x0 x1 x2 s).flow = s.flow := rfl
@[simp] theorem modPause_pipes (s : State) x0 x1 x2 : (modPause x0 x1 x2 s).pipes = s.pipes := rfl
@[simp] theorem modPause_aligned (s : State) x0 x1 x2 : (modPause x0 x1 x2 s).aligned = s.aligned := rfl
@[simp] theorem modPause_ctimeBase (s : State) x0 x1 x2 : (modPause x0 x1 x2 s).ctimeBase = s.ctimeBase := rfl
@[simp] theorem modPause_tsk (s : State) x0 x1 x2 : (modPause x0 x1 x2 s).tsk = s.tsk := rfl
@[simp] theorem modPause_fab (s : State) x0 x1 x2 : (modPause x0 x1 x2 s).fab = s.fab := rfl
@[simp] theorem modPause_egs (s : State) x0 x1 x2 : (modPause x0 x1 x2 s).egs = s.egs := rfl
@[simp] theorem modPause_tim (s : State) x0 x1 x2 : (modPause x0 x1 x2 s).tim = s.tim := rfl
@[simp] theorem modPause_hbm (s : State) x0 x1 x2 : (modPause x0 x1 x2 s).hbm = s.hbm := rfl
@[simp] theorem modPause_chk (s : State) x0 x1 x2 : (modPause x0 x1 x2 s).chk = s.chk := rfl
@[simp] theorem modPause_cus (s : State) x0 x1 x2 : (modPause x0 x1 x2 s).cus = s.cus := rfl
@[simp] theorem modPause_flash (s : State) x0 x1 x2 : (modPause x0 x1 x2 s).flash = s.flash := rfl
@[simp] theorem modPause_log (s : State) x0 x1 x2 : (modPause x0 x1 x2 s).log = s.log := rfl
@[simp] theorem modPause_lcs (s : State) x0 x1 x2 : (modPause x0 x1 x2 s).lcs = s.lcs := rfl
@[simp] theorem modPause_pwr (s : State) x0 x1 x2 : (modPause x0 x1 x2 s).pwr = s.pwr := rfl
@[simp] theorem modPause_smb (s : State) x0 x1 x2 : (modPause x0 x1 x2 s).smb = s.smb := rfl

@[simp] theorem modFab_part (s : State) x0 : (modFab x0 s).part = s.part := rfl
@[simp] theorem modFab_pending (s : State) x0 : (modFab x0 s).pending = s.pending := rfl
@[simp] theorem modFab_now (s : State) x0 : (modFab x0 s).now = s.now := rfl
@[simp] theorem modFab_free (s : State) x0 : (modFab x0 s).free = s.free := rfl
@[simp] theorem modFab_actor (s : State) x0 : (modFab x0 s).actor = s.actor := rfl
@[simp] theorem modFab_raised (s : State) x0 : (modFab x0 s).raised = s.raised := rfl
@[simp] theorem modFab_regs (s : State) x0 : (modFab x0 s).regs = s.regs := rfl
@[simp] theorem modFab_readData (s : State) x0 : (modFab x0 s).readData = s.readData := rfl
@[simp] theorem modFab_host (s : State) x0 : (modFab x0 s).host = s.host := rfl
@[simp] theorem modFab_tmem (s : State) x0 : (modFab x0 s).tmem = s.tmem := rfl
@[simp] theorem modFab_mem (s : State) x0 : (modFab x0 s).mem = s.mem := rfl
@[simp] theorem modFab_cnt (s : State) x0 : (modFab x0 s).cnt = s.cnt := rfl
@[simp] theorem modFab_hif (s : State) x0 : (modFab x0 s).hif = s.hif := rfl
@[simp] theorem modFab_pkts (s : State) x0 : (modFab x0 s).pkts = s.pkts := rfl
@[simp] theorem modFab_nextPkt (s : State) x0 : (modFab x0 s).nextPkt = s.nextPkt := rfl
@[simp] theorem modFab_cls (s : State) x0 : (modFab x0 s).cls = s.cls := rfl
@[simp] theorem modFab_fwd (s : State) x0 : (modFab x0 s).fwd = s.fwd := rfl
@[simp] theorem modFab_flow (s : State) x0 : (modFab x0 s).flow = s.flow := rfl
@[simp] theorem modFab_pipes (s : State) x0 : (modFab x0 s).pipes = s.pipes := rfl
@[simp] theorem modFab_aligned (s : State) x0 : (modFab x0 s).aligned = s.aligned := rfl
@[simp] theorem modFab_ctimeBase (s : State) x0 : (modFab x0 s).ctimeBase = s.ctimeBase := rfl
@[simp] theorem modFab_tsk (s : State) x0 : (modFab x0 s).tsk = s.tsk := rfl
@[simp] theorem modFab_buf (s : State) x0 : (modFab x0 s).buf = s.buf := rfl
@[simp] theorem modFab_egs (s : State) x0 : (modFab x0 s).egs = s.egs := rfl
@[simp] theorem modFab_tim (s : State) x0 : (modFab x0 s).tim = s.tim := rfl
@[simp] theorem modFab_hbm (s : State) x0 : (modFab x0 s).hbm = s.hbm := rfl
@[simp] theorem modFab_chk (s : State) x0 : (modFab x0 s).chk = s.chk := rfl
@[simp] theorem modFab_cus (s : State) x0 : (modFab x0 s).cus = s.cus := rfl
@[simp] theorem modFab_flash (s : State) x0 : (modFab x0 s).flash = s.flash := rfl
@[simp] theorem modFab_log (s : State) x0 : (modFab x0 s).log = s.log := rfl
@[simp] theorem modFab_lcs (s : State) x0 : (modFab x0 s).lcs = s.lcs := rfl
@[simp] theorem modFab_pwr (s : State) x0 : (modFab x0 s).pwr = s.pwr := rfl
@[simp] theorem modFab_smb (s : State) x0 : (modFab x0 s).smb = s.smb := rfl

@[simp] theorem modDieLink_part (s : State) x0 x1 : (modDieLink x0 x1 s).part = s.part := rfl
@[simp] theorem modDieLink_pending (s : State) x0 x1 : (modDieLink x0 x1 s).pending = s.pending := rfl
@[simp] theorem modDieLink_now (s : State) x0 x1 : (modDieLink x0 x1 s).now = s.now := rfl
@[simp] theorem modDieLink_free (s : State) x0 x1 : (modDieLink x0 x1 s).free = s.free := rfl
@[simp] theorem modDieLink_actor (s : State) x0 x1 : (modDieLink x0 x1 s).actor = s.actor := rfl
@[simp] theorem modDieLink_raised (s : State) x0 x1 : (modDieLink x0 x1 s).raised = s.raised := rfl
@[simp] theorem modDieLink_regs (s : State) x0 x1 : (modDieLink x0 x1 s).regs = s.regs := rfl
@[simp] theorem modDieLink_readData (s : State) x0 x1 : (modDieLink x0 x1 s).readData = s.readData := rfl
@[simp] theorem modDieLink_host (s : State) x0 x1 : (modDieLink x0 x1 s).host = s.host := rfl
@[simp] theorem modDieLink_tmem (s : State) x0 x1 : (modDieLink x0 x1 s).tmem = s.tmem := rfl
@[simp] theorem modDieLink_mem (s : State) x0 x1 : (modDieLink x0 x1 s).mem = s.mem := rfl
@[simp] theorem modDieLink_cnt (s : State) x0 x1 : (modDieLink x0 x1 s).cnt = s.cnt := rfl
@[simp] theorem modDieLink_hif (s : State) x0 x1 : (modDieLink x0 x1 s).hif = s.hif := rfl
@[simp] theorem modDieLink_pkts (s : State) x0 x1 : (modDieLink x0 x1 s).pkts = s.pkts := rfl
@[simp] theorem modDieLink_nextPkt (s : State) x0 x1 : (modDieLink x0 x1 s).nextPkt = s.nextPkt := rfl
@[simp] theorem modDieLink_cls (s : State) x0 x1 : (modDieLink x0 x1 s).cls = s.cls := rfl
@[simp] theorem modDieLink_fwd (s : State) x0 x1 : (modDieLink x0 x1 s).fwd = s.fwd := rfl
@[simp] theorem modDieLink_flow (s : State) x0 x1 : (modDieLink x0 x1 s).flow = s.flow := rfl
@[simp] theorem modDieLink_pipes (s : State) x0 x1 : (modDieLink x0 x1 s).pipes = s.pipes := rfl
@[simp] theorem modDieLink_aligned (s : State) x0 x1 : (modDieLink x0 x1 s).aligned = s.aligned := rfl
@[simp] theorem modDieLink_ctimeBase (s : State) x0 x1 : (modDieLink x0 x1 s).ctimeBase = s.ctimeBase := rfl
@[simp] theorem modDieLink_tsk (s : State) x0 x1 : (modDieLink x0 x1 s).tsk = s.tsk := rfl
@[simp] theorem modDieLink_buf (s : State) x0 x1 : (modDieLink x0 x1 s).buf = s.buf := rfl
@[simp] theorem modDieLink_egs (s : State) x0 x1 : (modDieLink x0 x1 s).egs = s.egs := rfl
@[simp] theorem modDieLink_tim (s : State) x0 x1 : (modDieLink x0 x1 s).tim = s.tim := rfl
@[simp] theorem modDieLink_hbm (s : State) x0 x1 : (modDieLink x0 x1 s).hbm = s.hbm := rfl
@[simp] theorem modDieLink_chk (s : State) x0 x1 : (modDieLink x0 x1 s).chk = s.chk := rfl
@[simp] theorem modDieLink_cus (s : State) x0 x1 : (modDieLink x0 x1 s).cus = s.cus := rfl
@[simp] theorem modDieLink_flash (s : State) x0 x1 : (modDieLink x0 x1 s).flash = s.flash := rfl
@[simp] theorem modDieLink_log (s : State) x0 x1 : (modDieLink x0 x1 s).log = s.log := rfl
@[simp] theorem modDieLink_lcs (s : State) x0 x1 : (modDieLink x0 x1 s).lcs = s.lcs := rfl
@[simp] theorem modDieLink_pwr (s : State) x0 x1 : (modDieLink x0 x1 s).pwr = s.pwr := rfl
@[simp] theorem modDieLink_smb (s : State) x0 x1 : (modDieLink x0 x1 s).smb = s.smb := rfl

@[simp] theorem modVoq_part (s : State) x0 x1 x2 x3 : (modVoq x0 x1 x2 x3 s).part = s.part := rfl
@[simp] theorem modVoq_pending (s : State) x0 x1 x2 x3 : (modVoq x0 x1 x2 x3 s).pending = s.pending := rfl
@[simp] theorem modVoq_now (s : State) x0 x1 x2 x3 : (modVoq x0 x1 x2 x3 s).now = s.now := rfl
@[simp] theorem modVoq_free (s : State) x0 x1 x2 x3 : (modVoq x0 x1 x2 x3 s).free = s.free := rfl
@[simp] theorem modVoq_actor (s : State) x0 x1 x2 x3 : (modVoq x0 x1 x2 x3 s).actor = s.actor := rfl
@[simp] theorem modVoq_raised (s : State) x0 x1 x2 x3 : (modVoq x0 x1 x2 x3 s).raised = s.raised := rfl
@[simp] theorem modVoq_regs (s : State) x0 x1 x2 x3 : (modVoq x0 x1 x2 x3 s).regs = s.regs := rfl
@[simp] theorem modVoq_readData (s : State) x0 x1 x2 x3 : (modVoq x0 x1 x2 x3 s).readData = s.readData := rfl
@[simp] theorem modVoq_host (s : State) x0 x1 x2 x3 : (modVoq x0 x1 x2 x3 s).host = s.host := rfl
@[simp] theorem modVoq_tmem (s : State) x0 x1 x2 x3 : (modVoq x0 x1 x2 x3 s).tmem = s.tmem := rfl
@[simp] theorem modVoq_mem (s : State) x0 x1 x2 x3 : (modVoq x0 x1 x2 x3 s).mem = s.mem := rfl
@[simp] theorem modVoq_cnt (s : State) x0 x1 x2 x3 : (modVoq x0 x1 x2 x3 s).cnt = s.cnt := rfl
@[simp] theorem modVoq_hif (s : State) x0 x1 x2 x3 : (modVoq x0 x1 x2 x3 s).hif = s.hif := rfl
@[simp] theorem modVoq_pkts (s : State) x0 x1 x2 x3 : (modVoq x0 x1 x2 x3 s).pkts = s.pkts := rfl
@[simp] theorem modVoq_nextPkt (s : State) x0 x1 x2 x3 : (modVoq x0 x1 x2 x3 s).nextPkt = s.nextPkt := rfl
@[simp] theorem modVoq_cls (s : State) x0 x1 x2 x3 : (modVoq x0 x1 x2 x3 s).cls = s.cls := rfl
@[simp] theorem modVoq_fwd (s : State) x0 x1 x2 x3 : (modVoq x0 x1 x2 x3 s).fwd = s.fwd := rfl
@[simp] theorem modVoq_flow (s : State) x0 x1 x2 x3 : (modVoq x0 x1 x2 x3 s).flow = s.flow := rfl
@[simp] theorem modVoq_pipes (s : State) x0 x1 x2 x3 : (modVoq x0 x1 x2 x3 s).pipes = s.pipes := rfl
@[simp] theorem modVoq_aligned (s : State) x0 x1 x2 x3 : (modVoq x0 x1 x2 x3 s).aligned = s.aligned := rfl
@[simp] theorem modVoq_ctimeBase (s : State) x0 x1 x2 x3 : (modVoq x0 x1 x2 x3 s).ctimeBase = s.ctimeBase := rfl
@[simp] theorem modVoq_tsk (s : State) x0 x1 x2 x3 : (modVoq x0 x1 x2 x3 s).tsk = s.tsk := rfl
@[simp] theorem modVoq_buf (s : State) x0 x1 x2 x3 : (modVoq x0 x1 x2 x3 s).buf = s.buf := rfl
@[simp] theorem modVoq_egs (s : State) x0 x1 x2 x3 : (modVoq x0 x1 x2 x3 s).egs = s.egs := rfl
@[simp] theorem modVoq_tim (s : State) x0 x1 x2 x3 : (modVoq x0 x1 x2 x3 s).tim = s.tim := rfl
@[simp] theorem modVoq_hbm (s : State) x0 x1 x2 x3 : (modVoq x0 x1 x2 x3 s).hbm = s.hbm := rfl
@[simp] theorem modVoq_chk (s : State) x0 x1 x2 x3 : (modVoq x0 x1 x2 x3 s).chk = s.chk := rfl
@[simp] theorem modVoq_cus (s : State) x0 x1 x2 x3 : (modVoq x0 x1 x2 x3 s).cus = s.cus := rfl
@[simp] theorem modVoq_flash (s : State) x0 x1 x2 x3 : (modVoq x0 x1 x2 x3 s).flash = s.flash := rfl
@[simp] theorem modVoq_log (s : State) x0 x1 x2 x3 : (modVoq x0 x1 x2 x3 s).log = s.log := rfl
@[simp] theorem modVoq_lcs (s : State) x0 x1 x2 x3 : (modVoq x0 x1 x2 x3 s).lcs = s.lcs := rfl
@[simp] theorem modVoq_pwr (s : State) x0 x1 x2 x3 : (modVoq x0 x1 x2 x3 s).pwr = s.pwr := rfl
@[simp] theorem modVoq_smb (s : State) x0 x1 x2 x3 : (modVoq x0 x1 x2 x3 s).smb = s.smb := rfl

@[simp] theorem modEgs_part (s : State) x0 : (modEgs x0 s).part = s.part := rfl
@[simp] theorem modEgs_pending (s : State) x0 : (modEgs x0 s).pending = s.pending := rfl
@[simp] theorem modEgs_now (s : State) x0 : (modEgs x0 s).now = s.now := rfl
@[simp] theorem modEgs_free (s : State) x0 : (modEgs x0 s).free = s.free := rfl
@[simp] theorem modEgs_actor (s : State) x0 : (modEgs x0 s).actor = s.actor := rfl
@[simp] theorem modEgs_raised (s : State) x0 : (modEgs x0 s).raised = s.raised := rfl
@[simp] theorem modEgs_regs (s : State) x0 : (modEgs x0 s).regs = s.regs := rfl
@[simp] theorem modEgs_readData (s : State) x0 : (modEgs x0 s).readData = s.readData := rfl
@[simp] theorem modEgs_host (s : State) x0 : (modEgs x0 s).host = s.host := rfl
@[simp] theorem modEgs_tmem (s : State) x0 : (modEgs x0 s).tmem = s.tmem := rfl
@[simp] theorem modEgs_mem (s : State) x0 : (modEgs x0 s).mem = s.mem := rfl
@[simp] theorem modEgs_cnt (s : State) x0 : (modEgs x0 s).cnt = s.cnt := rfl
@[simp] theorem modEgs_hif (s : State) x0 : (modEgs x0 s).hif = s.hif := rfl
@[simp] theorem modEgs_pkts (s : State) x0 : (modEgs x0 s).pkts = s.pkts := rfl
@[simp] theorem modEgs_nextPkt (s : State) x0 : (modEgs x0 s).nextPkt = s.nextPkt := rfl
@[simp] theorem modEgs_cls (s : State) x0 : (modEgs x0 s).cls = s.cls := rfl
@[simp] theorem modEgs_fwd (s : State) x0 : (modEgs x0 s).fwd = s.fwd := rfl
@[simp] theorem modEgs_flow (s : State) x0 : (modEgs x0 s).flow = s.flow := rfl
@[simp] theorem modEgs_pipes (s : State) x0 : (modEgs x0 s).pipes = s.pipes := rfl
@[simp] theorem modEgs_aligned (s : State) x0 : (modEgs x0 s).aligned = s.aligned := rfl
@[simp] theorem modEgs_ctimeBase (s : State) x0 : (modEgs x0 s).ctimeBase = s.ctimeBase := rfl
@[simp] theorem modEgs_tsk (s : State) x0 : (modEgs x0 s).tsk = s.tsk := rfl
@[simp] theorem modEgs_buf (s : State) x0 : (modEgs x0 s).buf = s.buf := rfl
@[simp] theorem modEgs_fab (s : State) x0 : (modEgs x0 s).fab = s.fab := rfl
@[simp] theorem modEgs_tim (s : State) x0 : (modEgs x0 s).tim = s.tim := rfl
@[simp] theorem modEgs_hbm (s : State) x0 : (modEgs x0 s).hbm = s.hbm := rfl
@[simp] theorem modEgs_chk (s : State) x0 : (modEgs x0 s).chk = s.chk := rfl
@[simp] theorem modEgs_cus (s : State) x0 : (modEgs x0 s).cus = s.cus := rfl
@[simp] theorem modEgs_flash (s : State) x0 : (modEgs x0 s).flash = s.flash := rfl
@[simp] theorem modEgs_log (s : State) x0 : (modEgs x0 s).log = s.log := rfl
@[simp] theorem modEgs_lcs (s : State) x0 : (modEgs x0 s).lcs = s.lcs := rfl
@[simp] theorem modEgs_pwr (s : State) x0 : (modEgs x0 s).pwr = s.pwr := rfl
@[simp] theorem modEgs_smb (s : State) x0 : (modEgs x0 s).smb = s.smb := rfl

@[simp] theorem modEgq_part (s : State) x0 x1 x2 : (modEgq x0 x1 x2 s).part = s.part := rfl
@[simp] theorem modEgq_pending (s : State) x0 x1 x2 : (modEgq x0 x1 x2 s).pending = s.pending := rfl
@[simp] theorem modEgq_now (s : State) x0 x1 x2 : (modEgq x0 x1 x2 s).now = s.now := rfl
@[simp] theorem modEgq_free (s : State) x0 x1 x2 : (modEgq x0 x1 x2 s).free = s.free := rfl
@[simp] theorem modEgq_actor (s : State) x0 x1 x2 : (modEgq x0 x1 x2 s).actor = s.actor := rfl
@[simp] theorem modEgq_raised (s : State) x0 x1 x2 : (modEgq x0 x1 x2 s).raised = s.raised := rfl
@[simp] theorem modEgq_regs (s : State) x0 x1 x2 : (modEgq x0 x1 x2 s).regs = s.regs := rfl
@[simp] theorem modEgq_readData (s : State) x0 x1 x2 : (modEgq x0 x1 x2 s).readData = s.readData := rfl
@[simp] theorem modEgq_host (s : State) x0 x1 x2 : (modEgq x0 x1 x2 s).host = s.host := rfl
@[simp] theorem modEgq_tmem (s : State) x0 x1 x2 : (modEgq x0 x1 x2 s).tmem = s.tmem := rfl
@[simp] theorem modEgq_mem (s : State) x0 x1 x2 : (modEgq x0 x1 x2 s).mem = s.mem := rfl
@[simp] theorem modEgq_cnt (s : State) x0 x1 x2 : (modEgq x0 x1 x2 s).cnt = s.cnt := rfl
@[simp] theorem modEgq_hif (s : State) x0 x1 x2 : (modEgq x0 x1 x2 s).hif = s.hif := rfl
@[simp] theorem modEgq_pkts (s : State) x0 x1 x2 : (modEgq x0 x1 x2 s).pkts = s.pkts := rfl
@[simp] theorem modEgq_nextPkt (s : State) x0 x1 x2 : (modEgq x0 x1 x2 s).nextPkt = s.nextPkt := rfl
@[simp] theorem modEgq_cls (s : State) x0 x1 x2 : (modEgq x0 x1 x2 s).cls = s.cls := rfl
@[simp] theorem modEgq_fwd (s : State) x0 x1 x2 : (modEgq x0 x1 x2 s).fwd = s.fwd := rfl
@[simp] theorem modEgq_flow (s : State) x0 x1 x2 : (modEgq x0 x1 x2 s).flow = s.flow := rfl
@[simp] theorem modEgq_pipes (s : State) x0 x1 x2 : (modEgq x0 x1 x2 s).pipes = s.pipes := rfl
@[simp] theorem modEgq_aligned (s : State) x0 x1 x2 : (modEgq x0 x1 x2 s).aligned = s.aligned := rfl
@[simp] theorem modEgq_ctimeBase (s : State) x0 x1 x2 : (modEgq x0 x1 x2 s).ctimeBase = s.ctimeBase := rfl
@[simp] theorem modEgq_tsk (s : State) x0 x1 x2 : (modEgq x0 x1 x2 s).tsk = s.tsk := rfl
@[simp] theorem modEgq_buf (s : State) x0 x1 x2 : (modEgq x0 x1 x2 s).buf = s.buf := rfl
@[simp] theorem modEgq_fab (s : State) x0 x1 x2 : (modEgq x0 x1 x2 s).fab = s.fab := rfl
@[simp] theorem modEgq_tim (s : State) x0 x1 x2 : (modEgq x0 x1 x2 s).tim = s.tim := rfl
@[simp] theorem modEgq_hbm (s : State) x0 x1 x2 : (modEgq x0 x1 x2 s).hbm = s.hbm := rfl
@[simp] theorem modEgq_chk (s : State) x0 x1 x2 : (modEgq x0 x1 x2 s).chk = s.chk := rfl
@[simp] theorem modEgq_cus (s : State) x0 x1 x2 : (modEgq x0 x1 x2 s).cus = s.cus := rfl
@[simp] theorem modEgq_flash (s : State) x0 x1 x2 : (modEgq x0 x1 x2 s).flash = s.flash := rfl
@[simp] theorem modEgq_log (s : State) x0 x1 x2 : (modEgq x0 x1 x2 s).log = s.log := rfl
@[simp] theorem modEgq_lcs (s : State) x0 x1 x2 : (modEgq x0 x1 x2 s).lcs = s.lcs := rfl
@[simp] theorem modEgq_pwr (s : State) x0 x1 x2 : (modEgq x0 x1 x2 s).pwr = s.pwr := rfl
@[simp] theorem modEgq_smb (s : State) x0 x1 x2 : (modEgq x0 x1 x2 s).smb = s.smb := rfl

@[simp] theorem modLaunch_part (s : State) x0 x1 : (modLaunch x0 x1 s).part = s.part := rfl
@[simp] theorem modLaunch_pending (s : State) x0 x1 : (modLaunch x0 x1 s).pending = s.pending := rfl
@[simp] theorem modLaunch_now (s : State) x0 x1 : (modLaunch x0 x1 s).now = s.now := rfl
@[simp] theorem modLaunch_free (s : State) x0 x1 : (modLaunch x0 x1 s).free = s.free := rfl
@[simp] theorem modLaunch_actor (s : State) x0 x1 : (modLaunch x0 x1 s).actor = s.actor := rfl
@[simp] theorem modLaunch_raised (s : State) x0 x1 : (modLaunch x0 x1 s).raised = s.raised := rfl
@[simp] theorem modLaunch_regs (s : State) x0 x1 : (modLaunch x0 x1 s).regs = s.regs := rfl
@[simp] theorem modLaunch_readData (s : State) x0 x1 : (modLaunch x0 x1 s).readData = s.readData := rfl
@[simp] theorem modLaunch_host (s : State) x0 x1 : (modLaunch x0 x1 s).host = s.host := rfl
@[simp] theorem modLaunch_tmem (s : State) x0 x1 : (modLaunch x0 x1 s).tmem = s.tmem := rfl
@[simp] theorem modLaunch_mem (s : State) x0 x1 : (modLaunch x0 x1 s).mem = s.mem := rfl
@[simp] theorem modLaunch_cnt (s : State) x0 x1 : (modLaunch x0 x1 s).cnt = s.cnt := rfl
@[simp] theorem modLaunch_hif (s : State) x0 x1 : (modLaunch x0 x1 s).hif = s.hif := rfl
@[simp] theorem modLaunch_pkts (s : State) x0 x1 : (modLaunch x0 x1 s).pkts = s.pkts := rfl
@[simp] theorem modLaunch_nextPkt (s : State) x0 x1 : (modLaunch x0 x1 s).nextPkt = s.nextPkt := rfl
@[simp] theorem modLaunch_cls (s : State) x0 x1 : (modLaunch x0 x1 s).cls = s.cls := rfl
@[simp] theorem modLaunch_fwd (s : State) x0 x1 : (modLaunch x0 x1 s).fwd = s.fwd := rfl
@[simp] theorem modLaunch_flow (s : State) x0 x1 : (modLaunch x0 x1 s).flow = s.flow := rfl
@[simp] theorem modLaunch_pipes (s : State) x0 x1 : (modLaunch x0 x1 s).pipes = s.pipes := rfl
@[simp] theorem modLaunch_aligned (s : State) x0 x1 : (modLaunch x0 x1 s).aligned = s.aligned := rfl
@[simp] theorem modLaunch_ctimeBase (s : State) x0 x1 : (modLaunch x0 x1 s).ctimeBase = s.ctimeBase := rfl
@[simp] theorem modLaunch_tsk (s : State) x0 x1 : (modLaunch x0 x1 s).tsk = s.tsk := rfl
@[simp] theorem modLaunch_buf (s : State) x0 x1 : (modLaunch x0 x1 s).buf = s.buf := rfl
@[simp] theorem modLaunch_fab (s : State) x0 x1 : (modLaunch x0 x1 s).fab = s.fab := rfl
@[simp] theorem modLaunch_tim (s : State) x0 x1 : (modLaunch x0 x1 s).tim = s.tim := rfl
@[simp] theorem modLaunch_hbm (s : State) x0 x1 : (modLaunch x0 x1 s).hbm = s.hbm := rfl
@[simp] theorem modLaunch_chk (s : State) x0 x1 : (modLaunch x0 x1 s).chk = s.chk := rfl
@[simp] theorem modLaunch_cus (s : State) x0 x1 : (modLaunch x0 x1 s).cus = s.cus := rfl
@[simp] theorem modLaunch_flash (s : State) x0 x1 : (modLaunch x0 x1 s).flash = s.flash := rfl
@[simp] theorem modLaunch_log (s : State) x0 x1 : (modLaunch x0 x1 s).log = s.log := rfl
@[simp] theorem modLaunch_lcs (s : State) x0 x1 : (modLaunch x0 x1 s).lcs = s.lcs := rfl
@[simp] theorem modLaunch_pwr (s : State) x0 x1 : (modLaunch x0 x1 s).pwr = s.pwr := rfl
@[simp] theorem modLaunch_smb (s : State) x0 x1 : (modLaunch x0 x1 s).smb = s.smb := rfl

@[simp] theorem modGates_part (s : State) x0 x1 : (modGates x0 x1 s).part = s.part := rfl
@[simp] theorem modGates_pending (s : State) x0 x1 : (modGates x0 x1 s).pending = s.pending := rfl
@[simp] theorem modGates_now (s : State) x0 x1 : (modGates x0 x1 s).now = s.now := rfl
@[simp] theorem modGates_free (s : State) x0 x1 : (modGates x0 x1 s).free = s.free := rfl
@[simp] theorem modGates_actor (s : State) x0 x1 : (modGates x0 x1 s).actor = s.actor := rfl
@[simp] theorem modGates_raised (s : State) x0 x1 : (modGates x0 x1 s).raised = s.raised := rfl
@[simp] theorem modGates_regs (s : State) x0 x1 : (modGates x0 x1 s).regs = s.regs := rfl
@[simp] theorem modGates_readData (s : State) x0 x1 : (modGates x0 x1 s).readData = s.readData := rfl
@[simp] theorem modGates_host (s : State) x0 x1 : (modGates x0 x1 s).host = s.host := rfl
@[simp] theorem modGates_tmem (s : State) x0 x1 : (modGates x0 x1 s).tmem = s.tmem := rfl
@[simp] theorem modGates_mem (s : State) x0 x1 : (modGates x0 x1 s).mem = s.mem := rfl
@[simp] theorem modGates_cnt (s : State) x0 x1 : (modGates x0 x1 s).cnt = s.cnt := rfl
@[simp] theorem modGates_hif (s : State) x0 x1 : (modGates x0 x1 s).hif = s.hif := rfl
@[simp] theorem modGates_pkts (s : State) x0 x1 : (modGates x0 x1 s).pkts = s.pkts := rfl
@[simp] theorem modGates_nextPkt (s : State) x0 x1 : (modGates x0 x1 s).nextPkt = s.nextPkt := rfl
@[simp] theorem modGates_cls (s : State) x0 x1 : (modGates x0 x1 s).cls = s.cls := rfl
@[simp] theorem modGates_fwd (s : State) x0 x1 : (modGates x0 x1 s).fwd = s.fwd := rfl
@[simp] theorem modGates_flow (s : State) x0 x1 : (modGates x0 x1 s).flow = s.flow := rfl
@[simp] theorem modGates_pipes (s : State) x0 x1 : (modGates x0 x1 s).pipes = s.pipes := rfl
@[simp] theorem modGates_aligned (s : State) x0 x1 : (modGates x0 x1 s).aligned = s.aligned := rfl
@[simp] theorem modGates_ctimeBase (s : State) x0 x1 : (modGates x0 x1 s).ctimeBase = s.ctimeBase := rfl
@[simp] theorem modGates_tsk (s : State) x0 x1 : (modGates x0 x1 s).tsk = s.tsk := rfl
@[simp] theorem modGates_buf (s : State) x0 x1 : (modGates x0 x1 s).buf = s.buf := rfl
@[simp] theorem modGates_fab (s : State) x0 x1 : (modGates x0 x1 s).fab = s.fab := rfl
@[simp] theorem modGates_tim (s : State) x0 x1 : (modGates x0 x1 s).tim = s.tim := rfl
@[simp] theorem modGates_hbm (s : State) x0 x1 : (modGates x0 x1 s).hbm = s.hbm := rfl
@[simp] theorem modGates_chk (s : State) x0 x1 : (modGates x0 x1 s).chk = s.chk := rfl
@[simp] theorem modGates_cus (s : State) x0 x1 : (modGates x0 x1 s).cus = s.cus := rfl
@[simp] theorem modGates_flash (s : State) x0 x1 : (modGates x0 x1 s).flash = s.flash := rfl
@[simp] theorem modGates_log (s : State) x0 x1 : (modGates x0 x1 s).log = s.log := rfl
@[simp] theorem modGates_lcs (s : State) x0 x1 : (modGates x0 x1 s).lcs = s.lcs := rfl
@[simp] theorem modGates_pwr (s : State) x0 x1 : (modGates x0 x1 s).pwr = s.pwr := rfl
@[simp] theorem modGates_smb (s : State) x0 x1 : (modGates x0 x1 s).smb = s.smb := rfl

@[simp] theorem modTim_part (s : State) x0 : (modTim x0 s).part = s.part := rfl
@[simp] theorem modTim_pending (s : State) x0 : (modTim x0 s).pending = s.pending := rfl
@[simp] theorem modTim_now (s : State) x0 : (modTim x0 s).now = s.now := rfl
@[simp] theorem modTim_free (s : State) x0 : (modTim x0 s).free = s.free := rfl
@[simp] theorem modTim_actor (s : State) x0 : (modTim x0 s).actor = s.actor := rfl
@[simp] theorem modTim_raised (s : State) x0 : (modTim x0 s).raised = s.raised := rfl
@[simp] theorem modTim_regs (s : State) x0 : (modTim x0 s).regs = s.regs := rfl
@[simp] theorem modTim_readData (s : State) x0 : (modTim x0 s).readData = s.readData := rfl
@[simp] theorem modTim_host (s : State) x0 : (modTim x0 s).host = s.host := rfl
@[simp] theorem modTim_tmem (s : State) x0 : (modTim x0 s).tmem = s.tmem := rfl
@[simp] theorem modTim_mem (s : State) x0 : (modTim x0 s).mem = s.mem := rfl
@[simp] theorem modTim_cnt (s : State) x0 : (modTim x0 s).cnt = s.cnt := rfl
@[simp] theorem modTim_hif (s : State) x0 : (modTim x0 s).hif = s.hif := rfl
@[simp] theorem modTim_pkts (s : State) x0 : (modTim x0 s).pkts = s.pkts := rfl
@[simp] theorem modTim_nextPkt (s : State) x0 : (modTim x0 s).nextPkt = s.nextPkt := rfl
@[simp] theorem modTim_cls (s : State) x0 : (modTim x0 s).cls = s.cls := rfl
@[simp] theorem modTim_fwd (s : State) x0 : (modTim x0 s).fwd = s.fwd := rfl
@[simp] theorem modTim_flow (s : State) x0 : (modTim x0 s).flow = s.flow := rfl
@[simp] theorem modTim_pipes (s : State) x0 : (modTim x0 s).pipes = s.pipes := rfl
@[simp] theorem modTim_aligned (s : State) x0 : (modTim x0 s).aligned = s.aligned := rfl
@[simp] theorem modTim_ctimeBase (s : State) x0 : (modTim x0 s).ctimeBase = s.ctimeBase := rfl
@[simp] theorem modTim_tsk (s : State) x0 : (modTim x0 s).tsk = s.tsk := rfl
@[simp] theorem modTim_buf (s : State) x0 : (modTim x0 s).buf = s.buf := rfl
@[simp] theorem modTim_fab (s : State) x0 : (modTim x0 s).fab = s.fab := rfl
@[simp] theorem modTim_egs (s : State) x0 : (modTim x0 s).egs = s.egs := rfl
@[simp] theorem modTim_hbm (s : State) x0 : (modTim x0 s).hbm = s.hbm := rfl
@[simp] theorem modTim_chk (s : State) x0 : (modTim x0 s).chk = s.chk := rfl
@[simp] theorem modTim_cus (s : State) x0 : (modTim x0 s).cus = s.cus := rfl
@[simp] theorem modTim_flash (s : State) x0 : (modTim x0 s).flash = s.flash := rfl
@[simp] theorem modTim_log (s : State) x0 : (modTim x0 s).log = s.log := rfl
@[simp] theorem modTim_lcs (s : State) x0 : (modTim x0 s).lcs = s.lcs := rfl
@[simp] theorem modTim_pwr (s : State) x0 : (modTim x0 s).pwr = s.pwr := rfl
@[simp] theorem modTim_smb (s : State) x0 : (modTim x0 s).smb = s.smb := rfl

@[simp] theorem modHbm_part (s : State) x0 : (modHbm x0 s).part = s.part := rfl
@[simp] theorem modHbm_pending (s : State) x0 : (modHbm x0 s).pending = s.pending := rfl
@[simp] theorem modHbm_now (s : State) x0 : (modHbm x0 s).now = s.now := rfl
@[simp] theorem modHbm_free (s : State) x0 : (modHbm x0 s).free = s.free := rfl
@[simp] theorem modHbm_actor (s : State) x0 : (modHbm x0 s).actor = s.actor := rfl
@[simp] theorem modHbm_raised (s : State) x0 : (modHbm x0 s).raised = s.raised := rfl
@[simp] theorem modHbm_regs (s : State) x0 : (modHbm x0 s).regs = s.regs := rfl
@[simp] theorem modHbm_readData (s : State) x0 : (modHbm x0 s).readData = s.readData := rfl
@[simp] theorem modHbm_host (s : State) x0 : (modHbm x0 s).host = s.host := rfl
@[simp] theorem modHbm_tmem (s : State) x0 : (modHbm x0 s).tmem = s.tmem := rfl
@[simp] theorem modHbm_mem (s : State) x0 : (modHbm x0 s).mem = s.mem := rfl
@[simp] theorem modHbm_cnt (s : State) x0 : (modHbm x0 s).cnt = s.cnt := rfl
@[simp] theorem modHbm_hif (s : State) x0 : (modHbm x0 s).hif = s.hif := rfl
@[simp] theorem modHbm_pkts (s : State) x0 : (modHbm x0 s).pkts = s.pkts := rfl
@[simp] theorem modHbm_nextPkt (s : State) x0 : (modHbm x0 s).nextPkt = s.nextPkt := rfl
@[simp] theorem modHbm_cls (s : State) x0 : (modHbm x0 s).cls = s.cls := rfl
@[simp] theorem modHbm_fwd (s : State) x0 : (modHbm x0 s).fwd = s.fwd := rfl
@[simp] theorem modHbm_flow (s : State) x0 : (modHbm x0 s).flow = s.flow := rfl
@[simp] theorem modHbm_pipes (s : State) x0 : (modHbm x0 s).pipes = s.pipes := rfl
@[simp] theorem modHbm_aligned (s : State) x0 : (modHbm x0 s).aligned = s.aligned := rfl
@[simp] theorem modHbm_ctimeBase (s : State) x0 : (modHbm x0 s).ctimeBase = s.ctimeBase := rfl
@[simp] theorem modHbm_tsk (s : State) x0 : (modHbm x0 s).tsk = s.tsk := rfl
@[simp] theorem modHbm_buf (s : State) x0 : (modHbm x0 s).buf = s.buf := rfl
@[simp] theorem modHbm_fab (s : State) x0 : (modHbm x0 s).fab = s.fab := rfl
@[simp] theorem modHbm_egs (s : State) x0 : (modHbm x0 s).egs = s.egs := rfl
@[simp] theorem modHbm_tim (s : State) x0 : (modHbm x0 s).tim = s.tim := rfl
@[simp] theorem modHbm_chk (s : State) x0 : (modHbm x0 s).chk = s.chk := rfl
@[simp] theorem modHbm_cus (s : State) x0 : (modHbm x0 s).cus = s.cus := rfl
@[simp] theorem modHbm_flash (s : State) x0 : (modHbm x0 s).flash = s.flash := rfl
@[simp] theorem modHbm_log (s : State) x0 : (modHbm x0 s).log = s.log := rfl
@[simp] theorem modHbm_lcs (s : State) x0 : (modHbm x0 s).lcs = s.lcs := rfl
@[simp] theorem modHbm_pwr (s : State) x0 : (modHbm x0 s).pwr = s.pwr := rfl
@[simp] theorem modHbm_smb (s : State) x0 : (modHbm x0 s).smb = s.smb := rfl

@[simp] theorem modStack_part (s : State) x0 x1 : (modStack x0 x1 s).part = s.part := rfl
@[simp] theorem modStack_pending (s : State) x0 x1 : (modStack x0 x1 s).pending = s.pending := rfl
@[simp] theorem modStack_now (s : State) x0 x1 : (modStack x0 x1 s).now = s.now := rfl
@[simp] theorem modStack_free (s : State) x0 x1 : (modStack x0 x1 s).free = s.free := rfl
@[simp] theorem modStack_actor (s : State) x0 x1 : (modStack x0 x1 s).actor = s.actor := rfl
@[simp] theorem modStack_raised (s : State) x0 x1 : (modStack x0 x1 s).raised = s.raised := rfl
@[simp] theorem modStack_regs (s : State) x0 x1 : (modStack x0 x1 s).regs = s.regs := rfl
@[simp] theorem modStack_readData (s : State) x0 x1 : (modStack x0 x1 s).readData = s.readData := rfl
@[simp] theorem modStack_host (s : State) x0 x1 : (modStack x0 x1 s).host = s.host := rfl
@[simp] theorem modStack_tmem (s : State) x0 x1 : (modStack x0 x1 s).tmem = s.tmem := rfl
@[simp] theorem modStack_mem (s : State) x0 x1 : (modStack x0 x1 s).mem = s.mem := rfl
@[simp] theorem modStack_cnt (s : State) x0 x1 : (modStack x0 x1 s).cnt = s.cnt := rfl
@[simp] theorem modStack_hif (s : State) x0 x1 : (modStack x0 x1 s).hif = s.hif := rfl
@[simp] theorem modStack_pkts (s : State) x0 x1 : (modStack x0 x1 s).pkts = s.pkts := rfl
@[simp] theorem modStack_nextPkt (s : State) x0 x1 : (modStack x0 x1 s).nextPkt = s.nextPkt := rfl
@[simp] theorem modStack_cls (s : State) x0 x1 : (modStack x0 x1 s).cls = s.cls := rfl
@[simp] theorem modStack_fwd (s : State) x0 x1 : (modStack x0 x1 s).fwd = s.fwd := rfl
@[simp] theorem modStack_flow (s : State) x0 x1 : (modStack x0 x1 s).flow = s.flow := rfl
@[simp] theorem modStack_pipes (s : State) x0 x1 : (modStack x0 x1 s).pipes = s.pipes := rfl
@[simp] theorem modStack_aligned (s : State) x0 x1 : (modStack x0 x1 s).aligned = s.aligned := rfl
@[simp] theorem modStack_ctimeBase (s : State) x0 x1 : (modStack x0 x1 s).ctimeBase = s.ctimeBase := rfl
@[simp] theorem modStack_tsk (s : State) x0 x1 : (modStack x0 x1 s).tsk = s.tsk := rfl
@[simp] theorem modStack_buf (s : State) x0 x1 : (modStack x0 x1 s).buf = s.buf := rfl
@[simp] theorem modStack_fab (s : State) x0 x1 : (modStack x0 x1 s).fab = s.fab := rfl
@[simp] theorem modStack_egs (s : State) x0 x1 : (modStack x0 x1 s).egs = s.egs := rfl
@[simp] theorem modStack_tim (s : State) x0 x1 : (modStack x0 x1 s).tim = s.tim := rfl
@[simp] theorem modStack_chk (s : State) x0 x1 : (modStack x0 x1 s).chk = s.chk := rfl
@[simp] theorem modStack_cus (s : State) x0 x1 : (modStack x0 x1 s).cus = s.cus := rfl
@[simp] theorem modStack_flash (s : State) x0 x1 : (modStack x0 x1 s).flash = s.flash := rfl
@[simp] theorem modStack_log (s : State) x0 x1 : (modStack x0 x1 s).log = s.log := rfl
@[simp] theorem modStack_lcs (s : State) x0 x1 : (modStack x0 x1 s).lcs = s.lcs := rfl
@[simp] theorem modStack_pwr (s : State) x0 x1 : (modStack x0 x1 s).pwr = s.pwr := rfl
@[simp] theorem modStack_smb (s : State) x0 x1 : (modStack x0 x1 s).smb = s.smb := rfl

@[simp] theorem modChk_part (s : State) x0 : (modChk x0 s).part = s.part := rfl
@[simp] theorem modChk_pending (s : State) x0 : (modChk x0 s).pending = s.pending := rfl
@[simp] theorem modChk_now (s : State) x0 : (modChk x0 s).now = s.now := rfl
@[simp] theorem modChk_free (s : State) x0 : (modChk x0 s).free = s.free := rfl
@[simp] theorem modChk_actor (s : State) x0 : (modChk x0 s).actor = s.actor := rfl
@[simp] theorem modChk_raised (s : State) x0 : (modChk x0 s).raised = s.raised := rfl
@[simp] theorem modChk_regs (s : State) x0 : (modChk x0 s).regs = s.regs := rfl
@[simp] theorem modChk_readData (s : State) x0 : (modChk x0 s).readData = s.readData := rfl
@[simp] theorem modChk_host (s : State) x0 : (modChk x0 s).host = s.host := rfl
@[simp] theorem modChk_tmem (s : State) x0 : (modChk x0 s).tmem = s.tmem := rfl
@[simp] theorem modChk_mem (s : State) x0 : (modChk x0 s).mem = s.mem := rfl
@[simp] theorem modChk_cnt (s : State) x0 : (modChk x0 s).cnt = s.cnt := rfl
@[simp] theorem modChk_hif (s : State) x0 : (modChk x0 s).hif = s.hif := rfl
@[simp] theorem modChk_pkts (s : State) x0 : (modChk x0 s).pkts = s.pkts := rfl
@[simp] theorem modChk_nextPkt (s : State) x0 : (modChk x0 s).nextPkt = s.nextPkt := rfl
@[simp] theorem modChk_cls (s : State) x0 : (modChk x0 s).cls = s.cls := rfl
@[simp] theorem modChk_fwd (s : State) x0 : (modChk x0 s).fwd = s.fwd := rfl
@[simp] theorem modChk_flow (s : State) x0 : (modChk x0 s).flow = s.flow := rfl
@[simp] theorem modChk_pipes (s : State) x0 : (modChk x0 s).pipes = s.pipes := rfl
@[simp] theorem modChk_aligned (s : State) x0 : (modChk x0 s).aligned = s.aligned := rfl
@[simp] theorem modChk_ctimeBase (s : State) x0 : (modChk x0 s).ctimeBase = s.ctimeBase := rfl
@[simp] theorem modChk_tsk (s : State) x0 : (modChk x0 s).tsk = s.tsk := rfl
@[simp] theorem modChk_buf (s : State) x0 : (modChk x0 s).buf = s.buf := rfl
@[simp] theorem modChk_fab (s : State) x0 : (modChk x0 s).fab = s.fab := rfl
@[simp] theorem modChk_egs (s : State) x0 : (modChk x0 s).egs = s.egs := rfl
@[simp] theorem modChk_tim (s : State) x0 : (modChk x0 s).tim = s.tim := rfl
@[simp] theorem modChk_hbm (s : State) x0 : (modChk x0 s).hbm = s.hbm := rfl
@[simp] theorem modChk_cus (s : State) x0 : (modChk x0 s).cus = s.cus := rfl
@[simp] theorem modChk_flash (s : State) x0 : (modChk x0 s).flash = s.flash := rfl
@[simp] theorem modChk_log (s : State) x0 : (modChk x0 s).log = s.log := rfl
@[simp] theorem modChk_lcs (s : State) x0 : (modChk x0 s).lcs = s.lcs := rfl
@[simp] theorem modChk_pwr (s : State) x0 : (modChk x0 s).pwr = s.pwr := rfl
@[simp] theorem modChk_smb (s : State) x0 : (modChk x0 s).smb = s.smb := rfl

@[simp] theorem modCus_part (s : State) x0 : (modCus x0 s).part = s.part := rfl
@[simp] theorem modCus_pending (s : State) x0 : (modCus x0 s).pending = s.pending := rfl
@[simp] theorem modCus_now (s : State) x0 : (modCus x0 s).now = s.now := rfl
@[simp] theorem modCus_free (s : State) x0 : (modCus x0 s).free = s.free := rfl
@[simp] theorem modCus_actor (s : State) x0 : (modCus x0 s).actor = s.actor := rfl
@[simp] theorem modCus_raised (s : State) x0 : (modCus x0 s).raised = s.raised := rfl
@[simp] theorem modCus_regs (s : State) x0 : (modCus x0 s).regs = s.regs := rfl
@[simp] theorem modCus_readData (s : State) x0 : (modCus x0 s).readData = s.readData := rfl
@[simp] theorem modCus_host (s : State) x0 : (modCus x0 s).host = s.host := rfl
@[simp] theorem modCus_tmem (s : State) x0 : (modCus x0 s).tmem = s.tmem := rfl
@[simp] theorem modCus_mem (s : State) x0 : (modCus x0 s).mem = s.mem := rfl
@[simp] theorem modCus_cnt (s : State) x0 : (modCus x0 s).cnt = s.cnt := rfl
@[simp] theorem modCus_hif (s : State) x0 : (modCus x0 s).hif = s.hif := rfl
@[simp] theorem modCus_pkts (s : State) x0 : (modCus x0 s).pkts = s.pkts := rfl
@[simp] theorem modCus_nextPkt (s : State) x0 : (modCus x0 s).nextPkt = s.nextPkt := rfl
@[simp] theorem modCus_cls (s : State) x0 : (modCus x0 s).cls = s.cls := rfl
@[simp] theorem modCus_fwd (s : State) x0 : (modCus x0 s).fwd = s.fwd := rfl
@[simp] theorem modCus_flow (s : State) x0 : (modCus x0 s).flow = s.flow := rfl
@[simp] theorem modCus_pipes (s : State) x0 : (modCus x0 s).pipes = s.pipes := rfl
@[simp] theorem modCus_aligned (s : State) x0 : (modCus x0 s).aligned = s.aligned := rfl
@[simp] theorem modCus_ctimeBase (s : State) x0 : (modCus x0 s).ctimeBase = s.ctimeBase := rfl
@[simp] theorem modCus_tsk (s : State) x0 : (modCus x0 s).tsk = s.tsk := rfl
@[simp] theorem modCus_buf (s : State) x0 : (modCus x0 s).buf = s.buf := rfl
@[simp] theorem modCus_fab (s : State) x0 : (modCus x0 s).fab = s.fab := rfl
@[simp] theorem modCus_egs (s : State) x0 : (modCus x0 s).egs = s.egs := rfl
@[simp] theorem modCus_tim (s : State) x0 : (modCus x0 s).tim = s.tim := rfl
@[simp] theorem modCus_hbm (s : State) x0 : (modCus x0 s).hbm = s.hbm := rfl
@[simp] theorem modCus_chk (s : State) x0 : (modCus x0 s).chk = s.chk := rfl
@[simp] theorem modCus_flash (s : State) x0 : (modCus x0 s).flash = s.flash := rfl
@[simp] theorem modCus_log (s : State) x0 : (modCus x0 s).log = s.log := rfl
@[simp] theorem modCus_lcs (s : State) x0 : (modCus x0 s).lcs = s.lcs := rfl
@[simp] theorem modCus_pwr (s : State) x0 : (modCus x0 s).pwr = s.pwr := rfl
@[simp] theorem modCus_smb (s : State) x0 : (modCus x0 s).smb = s.smb := rfl

@[simp] theorem modLog_part (s : State) x0 : (modLog x0 s).part = s.part := rfl
@[simp] theorem modLog_pending (s : State) x0 : (modLog x0 s).pending = s.pending := rfl
@[simp] theorem modLog_now (s : State) x0 : (modLog x0 s).now = s.now := rfl
@[simp] theorem modLog_free (s : State) x0 : (modLog x0 s).free = s.free := rfl
@[simp] theorem modLog_actor (s : State) x0 : (modLog x0 s).actor = s.actor := rfl
@[simp] theorem modLog_raised (s : State) x0 : (modLog x0 s).raised = s.raised := rfl
@[simp] theorem modLog_regs (s : State) x0 : (modLog x0 s).regs = s.regs := rfl
@[simp] theorem modLog_readData (s : State) x0 : (modLog x0 s).readData = s.readData := rfl
@[simp] theorem modLog_host (s : State) x0 : (modLog x0 s).host = s.host := rfl
@[simp] theorem modLog_tmem (s : State) x0 : (modLog x0 s).tmem = s.tmem := rfl
@[simp] theorem modLog_mem (s : State) x0 : (modLog x0 s).mem = s.mem := rfl
@[simp] theorem modLog_cnt (s : State) x0 : (modLog x0 s).cnt = s.cnt := rfl
@[simp] theorem modLog_hif (s : State) x0 : (modLog x0 s).hif = s.hif := rfl
@[simp] theorem modLog_pkts (s : State) x0 : (modLog x0 s).pkts = s.pkts := rfl
@[simp] theorem modLog_nextPkt (s : State) x0 : (modLog x0 s).nextPkt = s.nextPkt := rfl
@[simp] theorem modLog_cls (s : State) x0 : (modLog x0 s).cls = s.cls := rfl
@[simp] theorem modLog_fwd (s : State) x0 : (modLog x0 s).fwd = s.fwd := rfl
@[simp] theorem modLog_flow (s : State) x0 : (modLog x0 s).flow = s.flow := rfl
@[simp] theorem modLog_pipes (s : State) x0 : (modLog x0 s).pipes = s.pipes := rfl
@[simp] theorem modLog_aligned (s : State) x0 : (modLog x0 s).aligned = s.aligned := rfl
@[simp] theorem modLog_ctimeBase (s : State) x0 : (modLog x0 s).ctimeBase = s.ctimeBase := rfl
@[simp] theorem modLog_tsk (s : State) x0 : (modLog x0 s).tsk = s.tsk := rfl
@[simp] theorem modLog_buf (s : State) x0 : (modLog x0 s).buf = s.buf := rfl
@[simp] theorem modLog_fab (s : State) x0 : (modLog x0 s).fab = s.fab := rfl
@[simp] theorem modLog_egs (s : State) x0 : (modLog x0 s).egs = s.egs := rfl
@[simp] theorem modLog_tim (s : State) x0 : (modLog x0 s).tim = s.tim := rfl
@[simp] theorem modLog_hbm (s : State) x0 : (modLog x0 s).hbm = s.hbm := rfl
@[simp] theorem modLog_chk (s : State) x0 : (modLog x0 s).chk = s.chk := rfl
@[simp] theorem modLog_cus (s : State) x0 : (modLog x0 s).cus = s.cus := rfl
@[simp] theorem modLog_flash (s : State) x0 : (modLog x0 s).flash = s.flash := rfl
@[simp] theorem modLog_lcs (s : State) x0 : (modLog x0 s).lcs = s.lcs := rfl
@[simp] theorem modLog_pwr (s : State) x0 : (modLog x0 s).pwr = s.pwr := rfl
@[simp] theorem modLog_smb (s : State) x0 : (modLog x0 s).smb = s.smb := rfl

@[simp] theorem modFlash_part (s : State) x0 : (modFlash x0 s).part = s.part := rfl
@[simp] theorem modFlash_pending (s : State) x0 : (modFlash x0 s).pending = s.pending := rfl
@[simp] theorem modFlash_now (s : State) x0 : (modFlash x0 s).now = s.now := rfl
@[simp] theorem modFlash_free (s : State) x0 : (modFlash x0 s).free = s.free := rfl
@[simp] theorem modFlash_actor (s : State) x0 : (modFlash x0 s).actor = s.actor := rfl
@[simp] theorem modFlash_raised (s : State) x0 : (modFlash x0 s).raised = s.raised := rfl
@[simp] theorem modFlash_regs (s : State) x0 : (modFlash x0 s).regs = s.regs := rfl
@[simp] theorem modFlash_readData (s : State) x0 : (modFlash x0 s).readData = s.readData := rfl
@[simp] theorem modFlash_host (s : State) x0 : (modFlash x0 s).host = s.host := rfl
@[simp] theorem modFlash_tmem (s : State) x0 : (modFlash x0 s).tmem = s.tmem := rfl
@[simp] theorem modFlash_mem (s : State) x0 : (modFlash x0 s).mem = s.mem := rfl
@[simp] theorem modFlash_cnt (s : State) x0 : (modFlash x0 s).cnt = s.cnt := rfl
@[simp] theorem modFlash_hif (s : State) x0 : (modFlash x0 s).hif = s.hif := rfl
@[simp] theorem modFlash_pkts (s : State) x0 : (modFlash x0 s).pkts = s.pkts := rfl
@[simp] theorem modFlash_nextPkt (s : State) x0 : (modFlash x0 s).nextPkt = s.nextPkt := rfl
@[simp] theorem modFlash_cls (s : State) x0 : (modFlash x0 s).cls = s.cls := rfl
@[simp] theorem modFlash_fwd (s : State) x0 : (modFlash x0 s).fwd = s.fwd := rfl
@[simp] theorem modFlash_flow (s : State) x0 : (modFlash x0 s).flow = s.flow := rfl
@[simp] theorem modFlash_pipes (s : State) x0 : (modFlash x0 s).pipes = s.pipes := rfl
@[simp] theorem modFlash_aligned (s : State) x0 : (modFlash x0 s).aligned = s.aligned := rfl
@[simp] theorem modFlash_ctimeBase (s : State) x0 : (modFlash x0 s).ctimeBase = s.ctimeBase := rfl
@[simp] theorem modFlash_tsk (s : State) x0 : (modFlash x0 s).tsk = s.tsk := rfl
@[simp] theorem modFlash_buf (s : State) x0 : (modFlash x0 s).buf = s.buf := rfl
@[simp] theorem modFlash_fab (s : State) x0 : (modFlash x0 s).fab = s.fab := rfl
@[simp] theorem modFlash_egs (s : State) x0 : (modFlash x0 s).egs = s.egs := rfl
@[simp] theorem modFlash_tim (s : State) x0 : (modFlash x0 s).tim = s.tim := rfl
@[simp] theorem modFlash_hbm (s : State) x0 : (modFlash x0 s).hbm = s.hbm := rfl
@[simp] theorem modFlash_chk (s : State) x0 : (modFlash x0 s).chk = s.chk := rfl
@[simp] theorem modFlash_cus (s : State) x0 : (modFlash x0 s).cus = s.cus := rfl
@[simp] theorem modFlash_log (s : State) x0 : (modFlash x0 s).log = s.log := rfl
@[simp] theorem modFlash_lcs (s : State) x0 : (modFlash x0 s).lcs = s.lcs := rfl
@[simp] theorem modFlash_pwr (s : State) x0 : (modFlash x0 s).pwr = s.pwr := rfl
@[simp] theorem modFlash_smb (s : State) x0 : (modFlash x0 s).smb = s.smb := rfl

@[simp] theorem modLcs_part (s : State) x0 : (modLcs x0 s).part = s.part := rfl
@[simp] theorem modLcs_pending (s : State) x0 : (modLcs x0 s).pending = s.pending := rfl
@[simp] theorem modLcs_now (s : State) x0 : (modLcs x0 s).now = s.now := rfl
@[simp] theorem modLcs_free (s : State) x0 : (modLcs x0 s).free = s.free := rfl
@[simp] theorem modLcs_actor (s : State) x0 : (modLcs x0 s).actor = s.actor := rfl
@[simp] theorem modLcs_raised (s : State) x0 : (modLcs x0 s).raised = s.raised := rfl
@[simp] theorem modLcs_regs (s : State) x0 : (modLcs x0 s).regs = s.regs := rfl
@[simp] theorem modLcs_readData (s : State) x0 : (modLcs x0 s).readData = s.readData := rfl
@[simp] theorem modLcs_host (s : State) x0 : (modLcs x0 s).host = s.host := rfl
@[simp] theorem modLcs_tmem (s : State) x0 : (modLcs x0 s).tmem = s.tmem := rfl
@[simp] theorem modLcs_mem (s : State) x0 : (modLcs x0 s).mem = s.mem := rfl
@[simp] theorem modLcs_cnt (s : State) x0 : (modLcs x0 s).cnt = s.cnt := rfl
@[simp] theorem modLcs_hif (s : State) x0 : (modLcs x0 s).hif = s.hif := rfl
@[simp] theorem modLcs_pkts (s : State) x0 : (modLcs x0 s).pkts = s.pkts := rfl
@[simp] theorem modLcs_nextPkt (s : State) x0 : (modLcs x0 s).nextPkt = s.nextPkt := rfl
@[simp] theorem modLcs_cls (s : State) x0 : (modLcs x0 s).cls = s.cls := rfl
@[simp] theorem modLcs_fwd (s : State) x0 : (modLcs x0 s).fwd = s.fwd := rfl
@[simp] theorem modLcs_flow (s : State) x0 : (modLcs x0 s).flow = s.flow := rfl
@[simp] theorem modLcs_pipes (s : State) x0 : (modLcs x0 s).pipes = s.pipes := rfl
@[simp] theorem modLcs_aligned (s : State) x0 : (modLcs x0 s).aligned = s.aligned := rfl
@[simp] theorem modLcs_ctimeBase (s : State) x0 : (modLcs x0 s).ctimeBase = s.ctimeBase := rfl
@[simp] theorem modLcs_tsk (s : State) x0 : (modLcs x0 s).tsk = s.tsk := rfl
@[simp] theorem modLcs_buf (s : State) x0 : (modLcs x0 s).buf = s.buf := rfl
@[simp] theorem modLcs_fab (s : State) x0 : (modLcs x0 s).fab = s.fab := rfl
@[simp] theorem modLcs_egs (s : State) x0 : (modLcs x0 s).egs = s.egs := rfl
@[simp] theorem modLcs_tim (s : State) x0 : (modLcs x0 s).tim = s.tim := rfl
@[simp] theorem modLcs_hbm (s : State) x0 : (modLcs x0 s).hbm = s.hbm := rfl
@[simp] theorem modLcs_chk (s : State) x0 : (modLcs x0 s).chk = s.chk := rfl
@[simp] theorem modLcs_cus (s : State) x0 : (modLcs x0 s).cus = s.cus := rfl
@[simp] theorem modLcs_flash (s : State) x0 : (modLcs x0 s).flash = s.flash := rfl
@[simp] theorem modLcs_log (s : State) x0 : (modLcs x0 s).log = s.log := rfl
@[simp] theorem modLcs_pwr (s : State) x0 : (modLcs x0 s).pwr = s.pwr := rfl
@[simp] theorem modLcs_smb (s : State) x0 : (modLcs x0 s).smb = s.smb := rfl

@[simp] theorem modPwr_part (s : State) x0 : (modPwr x0 s).part = s.part := rfl
@[simp] theorem modPwr_pending (s : State) x0 : (modPwr x0 s).pending = s.pending := rfl
@[simp] theorem modPwr_now (s : State) x0 : (modPwr x0 s).now = s.now := rfl
@[simp] theorem modPwr_free (s : State) x0 : (modPwr x0 s).free = s.free := rfl
@[simp] theorem modPwr_actor (s : State) x0 : (modPwr x0 s).actor = s.actor := rfl
@[simp] theorem modPwr_raised (s : State) x0 : (modPwr x0 s).raised = s.raised := rfl
@[simp] theorem modPwr_regs (s : State) x0 : (modPwr x0 s).regs = s.regs := rfl
@[simp] theorem modPwr_readData (s : State) x0 : (modPwr x0 s).readData = s.readData := rfl
@[simp] theorem modPwr_host (s : State) x0 : (modPwr x0 s).host = s.host := rfl
@[simp] theorem modPwr_tmem (s : State) x0 : (modPwr x0 s).tmem = s.tmem := rfl
@[simp] theorem modPwr_mem (s : State) x0 : (modPwr x0 s).mem = s.mem := rfl
@[simp] theorem modPwr_cnt (s : State) x0 : (modPwr x0 s).cnt = s.cnt := rfl
@[simp] theorem modPwr_hif (s : State) x0 : (modPwr x0 s).hif = s.hif := rfl
@[simp] theorem modPwr_pkts (s : State) x0 : (modPwr x0 s).pkts = s.pkts := rfl
@[simp] theorem modPwr_nextPkt (s : State) x0 : (modPwr x0 s).nextPkt = s.nextPkt := rfl
@[simp] theorem modPwr_cls (s : State) x0 : (modPwr x0 s).cls = s.cls := rfl
@[simp] theorem modPwr_fwd (s : State) x0 : (modPwr x0 s).fwd = s.fwd := rfl
@[simp] theorem modPwr_flow (s : State) x0 : (modPwr x0 s).flow = s.flow := rfl
@[simp] theorem modPwr_pipes (s : State) x0 : (modPwr x0 s).pipes = s.pipes := rfl
@[simp] theorem modPwr_aligned (s : State) x0 : (modPwr x0 s).aligned = s.aligned := rfl
@[simp] theorem modPwr_ctimeBase (s : State) x0 : (modPwr x0 s).ctimeBase = s.ctimeBase := rfl
@[simp] theorem modPwr_tsk (s : State) x0 : (modPwr x0 s).tsk = s.tsk := rfl
@[simp] theorem modPwr_buf (s : State) x0 : (modPwr x0 s).buf = s.buf := rfl
@[simp] theorem modPwr_fab (s : State) x0 : (modPwr x0 s).fab = s.fab := rfl
@[simp] theorem modPwr_egs (s : State) x0 : (modPwr x0 s).egs = s.egs := rfl
@[simp] theorem modPwr_tim (s : State) x0 : (modPwr x0 s).tim = s.tim := rfl
@[simp] theorem modPwr_hbm (s : State) x0 : (modPwr x0 s).hbm = s.hbm := rfl
@[simp] theorem modPwr_chk (s : State) x0 : (modPwr x0 s).chk = s.chk := rfl
@[simp] theorem modPwr_cus (s : State) x0 : (modPwr x0 s).cus = s.cus := rfl
@[simp] theorem modPwr_flash (s : State) x0 : (modPwr x0 s).flash = s.flash := rfl
@[simp] theorem modPwr_log (s : State) x0 : (modPwr x0 s).log = s.log := rfl
@[simp] theorem modPwr_lcs (s : State) x0 : (modPwr x0 s).lcs = s.lcs := rfl
@[simp] theorem modPwr_smb (s : State) x0 : (modPwr x0 s).smb = s.smb := rfl

@[simp] theorem modDomain_part (s : State) x0 x1 : (modDomain x0 x1 s).part = s.part := rfl
@[simp] theorem modDomain_pending (s : State) x0 x1 : (modDomain x0 x1 s).pending = s.pending := rfl
@[simp] theorem modDomain_now (s : State) x0 x1 : (modDomain x0 x1 s).now = s.now := rfl
@[simp] theorem modDomain_free (s : State) x0 x1 : (modDomain x0 x1 s).free = s.free := rfl
@[simp] theorem modDomain_actor (s : State) x0 x1 : (modDomain x0 x1 s).actor = s.actor := rfl
@[simp] theorem modDomain_raised (s : State) x0 x1 : (modDomain x0 x1 s).raised = s.raised := rfl
@[simp] theorem modDomain_regs (s : State) x0 x1 : (modDomain x0 x1 s).regs = s.regs := rfl
@[simp] theorem modDomain_readData (s : State) x0 x1 : (modDomain x0 x1 s).readData = s.readData := rfl
@[simp] theorem modDomain_host (s : State) x0 x1 : (modDomain x0 x1 s).host = s.host := rfl
@[simp] theorem modDomain_tmem (s : State) x0 x1 : (modDomain x0 x1 s).tmem = s.tmem := rfl
@[simp] theorem modDomain_mem (s : State) x0 x1 : (modDomain x0 x1 s).mem = s.mem := rfl
@[simp] theorem modDomain_cnt (s : State) x0 x1 : (modDomain x0 x1 s).cnt = s.cnt := rfl
@[simp] theorem modDomain_hif (s : State) x0 x1 : (modDomain x0 x1 s).hif = s.hif := rfl
@[simp] theorem modDomain_pkts (s : State) x0 x1 : (modDomain x0 x1 s).pkts = s.pkts := rfl
@[simp] theorem modDomain_nextPkt (s : State) x0 x1 : (modDomain x0 x1 s).nextPkt = s.nextPkt := rfl
@[simp] theorem modDomain_cls (s : State) x0 x1 : (modDomain x0 x1 s).cls = s.cls := rfl
@[simp] theorem modDomain_fwd (s : State) x0 x1 : (modDomain x0 x1 s).fwd = s.fwd := rfl
@[simp] theorem modDomain_flow (s : State) x0 x1 : (modDomain x0 x1 s).flow = s.flow := rfl
@[simp] theorem modDomain_pipes (s : State) x0 x1 : (modDomain x0 x1 s).pipes = s.pipes := rfl
@[simp] theorem modDomain_aligned (s : State) x0 x1 : (modDomain x0 x1 s).aligned = s.aligned := rfl
@[simp] theorem modDomain_ctimeBase (s : State) x0 x1 : (modDomain x0 x1 s).ctimeBase = s.ctimeBase := rfl
@[simp] theorem modDomain_tsk (s : State) x0 x1 : (modDomain x0 x1 s).tsk = s.tsk := rfl
@[simp] theorem modDomain_buf (s : State) x0 x1 : (modDomain x0 x1 s).buf = s.buf := rfl
@[simp] theorem modDomain_fab (s : State) x0 x1 : (modDomain x0 x1 s).fab = s.fab := rfl
@[simp] theorem modDomain_egs (s : State) x0 x1 : (modDomain x0 x1 s).egs = s.egs := rfl
@[simp] theorem modDomain_tim (s : State) x0 x1 : (modDomain x0 x1 s).tim = s.tim := rfl
@[simp] theorem modDomain_hbm (s : State) x0 x1 : (modDomain x0 x1 s).hbm = s.hbm := rfl
@[simp] theorem modDomain_chk (s : State) x0 x1 : (modDomain x0 x1 s).chk = s.chk := rfl
@[simp] theorem modDomain_cus (s : State) x0 x1 : (modDomain x0 x1 s).cus = s.cus := rfl
@[simp] theorem modDomain_flash (s : State) x0 x1 : (modDomain x0 x1 s).flash = s.flash := rfl
@[simp] theorem modDomain_log (s : State) x0 x1 : (modDomain x0 x1 s).log = s.log := rfl
@[simp] theorem modDomain_lcs (s : State) x0 x1 : (modDomain x0 x1 s).lcs = s.lcs := rfl
@[simp] theorem modDomain_smb (s : State) x0 x1 : (modDomain x0 x1 s).smb = s.smb := rfl

@[simp] theorem modCls_part (s : State) x0 : (modCls x0 s).part = s.part := rfl
@[simp] theorem modCls_pending (s : State) x0 : (modCls x0 s).pending = s.pending := rfl
@[simp] theorem modCls_now (s : State) x0 : (modCls x0 s).now = s.now := rfl
@[simp] theorem modCls_free (s : State) x0 : (modCls x0 s).free = s.free := rfl
@[simp] theorem modCls_actor (s : State) x0 : (modCls x0 s).actor = s.actor := rfl
@[simp] theorem modCls_raised (s : State) x0 : (modCls x0 s).raised = s.raised := rfl
@[simp] theorem modCls_regs (s : State) x0 : (modCls x0 s).regs = s.regs := rfl
@[simp] theorem modCls_readData (s : State) x0 : (modCls x0 s).readData = s.readData := rfl
@[simp] theorem modCls_host (s : State) x0 : (modCls x0 s).host = s.host := rfl
@[simp] theorem modCls_tmem (s : State) x0 : (modCls x0 s).tmem = s.tmem := rfl
@[simp] theorem modCls_mem (s : State) x0 : (modCls x0 s).mem = s.mem := rfl
@[simp] theorem modCls_cnt (s : State) x0 : (modCls x0 s).cnt = s.cnt := rfl
@[simp] theorem modCls_hif (s : State) x0 : (modCls x0 s).hif = s.hif := rfl
@[simp] theorem modCls_pkts (s : State) x0 : (modCls x0 s).pkts = s.pkts := rfl
@[simp] theorem modCls_nextPkt (s : State) x0 : (modCls x0 s).nextPkt = s.nextPkt := rfl
@[simp] theorem modCls_fwd (s : State) x0 : (modCls x0 s).fwd = s.fwd := rfl
@[simp] theorem modCls_flow (s : State) x0 : (modCls x0 s).flow = s.flow := rfl
@[simp] theorem modCls_pipes (s : State) x0 : (modCls x0 s).pipes = s.pipes := rfl
@[simp] theorem modCls_aligned (s : State) x0 : (modCls x0 s).aligned = s.aligned := rfl
@[simp] theorem modCls_ctimeBase (s : State) x0 : (modCls x0 s).ctimeBase = s.ctimeBase := rfl
@[simp] theorem modCls_tsk (s : State) x0 : (modCls x0 s).tsk = s.tsk := rfl
@[simp] theorem modCls_buf (s : State) x0 : (modCls x0 s).buf = s.buf := rfl
@[simp] theorem modCls_fab (s : State) x0 : (modCls x0 s).fab = s.fab := rfl
@[simp] theorem modCls_egs (s : State) x0 : (modCls x0 s).egs = s.egs := rfl
@[simp] theorem modCls_tim (s : State) x0 : (modCls x0 s).tim = s.tim := rfl
@[simp] theorem modCls_hbm (s : State) x0 : (modCls x0 s).hbm = s.hbm := rfl
@[simp] theorem modCls_chk (s : State) x0 : (modCls x0 s).chk = s.chk := rfl
@[simp] theorem modCls_cus (s : State) x0 : (modCls x0 s).cus = s.cus := rfl
@[simp] theorem modCls_flash (s : State) x0 : (modCls x0 s).flash = s.flash := rfl
@[simp] theorem modCls_log (s : State) x0 : (modCls x0 s).log = s.log := rfl
@[simp] theorem modCls_lcs (s : State) x0 : (modCls x0 s).lcs = s.lcs := rfl
@[simp] theorem modCls_pwr (s : State) x0 : (modCls x0 s).pwr = s.pwr := rfl
@[simp] theorem modCls_smb (s : State) x0 : (modCls x0 s).smb = s.smb := rfl

@[simp] theorem modFwd_part (s : State) x0 : (modFwd x0 s).part = s.part := rfl
@[simp] theorem modFwd_pending (s : State) x0 : (modFwd x0 s).pending = s.pending := rfl
@[simp] theorem modFwd_now (s : State) x0 : (modFwd x0 s).now = s.now := rfl
@[simp] theorem modFwd_free (s : State) x0 : (modFwd x0 s).free = s.free := rfl
@[simp] theorem modFwd_actor (s : State) x0 : (modFwd x0 s).actor = s.actor := rfl
@[simp] theorem modFwd_raised (s : State) x0 : (modFwd x0 s).raised = s.raised := rfl
@[simp] theorem modFwd_regs (s : State) x0 : (modFwd x0 s).regs = s.regs := rfl
@[simp] theorem modFwd_readData (s : State) x0 : (modFwd x0 s).readData = s.readData := rfl
@[simp] theorem modFwd_host (s : State) x0 : (modFwd x0 s).host = s.host := rfl
@[simp] theorem modFwd_tmem (s : State) x0 : (modFwd x0 s).tmem = s.tmem := rfl
@[simp] theorem modFwd_mem (s : State) x0 : (modFwd x0 s).mem = s.mem := rfl
@[simp] theorem modFwd_cnt (s : State) x0 : (modFwd x0 s).cnt = s.cnt := rfl
@[simp] theorem modFwd_hif (s : State) x0 : (modFwd x0 s).hif = s.hif := rfl
@[simp] theorem modFwd_pkts (s : State) x0 : (modFwd x0 s).pkts = s.pkts := rfl
@[simp] theorem modFwd_nextPkt (s : State) x0 : (modFwd x0 s).nextPkt = s.nextPkt := rfl
@[simp] theorem modFwd_cls (s : State) x0 : (modFwd x0 s).cls = s.cls := rfl
@[simp] theorem modFwd_flow (s : State) x0 : (modFwd x0 s).flow = s.flow := rfl
@[simp] theorem modFwd_pipes (s : State) x0 : (modFwd x0 s).pipes = s.pipes := rfl
@[simp] theorem modFwd_aligned (s : State) x0 : (modFwd x0 s).aligned = s.aligned := rfl
@[simp] theorem modFwd_ctimeBase (s : State) x0 : (modFwd x0 s).ctimeBase = s.ctimeBase := rfl
@[simp] theorem modFwd_tsk (s : State) x0 : (modFwd x0 s).tsk = s.tsk := rfl
@[simp] theorem modFwd_buf (s : State) x0 : (modFwd x0 s).buf = s.buf := rfl
@[simp] theorem modFwd_fab (s : State) x0 : (modFwd x0 s).fab = s.fab := rfl
@[simp] theorem modFwd_egs (s : State) x0 : (modFwd x0 s).egs = s.egs := rfl
@[simp] theorem modFwd_tim (s : State) x0 : (modFwd x0 s).tim = s.tim := rfl
@[simp] theorem modFwd_hbm (s : State) x0 : (modFwd x0 s).hbm = s.hbm := rfl
@[simp] theorem modFwd_chk (s : State) x0 : (modFwd x0 s).chk = s.chk := rfl
@[simp] theorem modFwd_cus (s : State) x0 : (modFwd x0 s).cus = s.cus := rfl
@[simp] theorem modFwd_flash (s : State) x0 : (modFwd x0 s).flash = s.flash := rfl
@[simp] theorem modFwd_log (s : State) x0 : (modFwd x0 s).log = s.log := rfl
@[simp] theorem modFwd_lcs (s : State) x0 : (modFwd x0 s).lcs = s.lcs := rfl
@[simp] theorem modFwd_pwr (s : State) x0 : (modFwd x0 s).pwr = s.pwr := rfl
@[simp] theorem modFwd_smb (s : State) x0 : (modFwd x0 s).smb = s.smb := rfl

@[simp] theorem modCmp_part (s : State) x0 x1 x2 : (modCmp x0 x1 x2 s).part = s.part := rfl
@[simp] theorem modCmp_pending (s : State) x0 x1 x2 : (modCmp x0 x1 x2 s).pending = s.pending := rfl
@[simp] theorem modCmp_now (s : State) x0 x1 x2 : (modCmp x0 x1 x2 s).now = s.now := rfl
@[simp] theorem modCmp_free (s : State) x0 x1 x2 : (modCmp x0 x1 x2 s).free = s.free := rfl
@[simp] theorem modCmp_actor (s : State) x0 x1 x2 : (modCmp x0 x1 x2 s).actor = s.actor := rfl
@[simp] theorem modCmp_raised (s : State) x0 x1 x2 : (modCmp x0 x1 x2 s).raised = s.raised := rfl
@[simp] theorem modCmp_regs (s : State) x0 x1 x2 : (modCmp x0 x1 x2 s).regs = s.regs := rfl
@[simp] theorem modCmp_readData (s : State) x0 x1 x2 : (modCmp x0 x1 x2 s).readData = s.readData := rfl
@[simp] theorem modCmp_host (s : State) x0 x1 x2 : (modCmp x0 x1 x2 s).host = s.host := rfl
@[simp] theorem modCmp_tmem (s : State) x0 x1 x2 : (modCmp x0 x1 x2 s).tmem = s.tmem := rfl
@[simp] theorem modCmp_mem (s : State) x0 x1 x2 : (modCmp x0 x1 x2 s).mem = s.mem := rfl
@[simp] theorem modCmp_cnt (s : State) x0 x1 x2 : (modCmp x0 x1 x2 s).cnt = s.cnt := rfl
@[simp] theorem modCmp_hif (s : State) x0 x1 x2 : (modCmp x0 x1 x2 s).hif = s.hif := rfl
@[simp] theorem modCmp_pkts (s : State) x0 x1 x2 : (modCmp x0 x1 x2 s).pkts = s.pkts := rfl
@[simp] theorem modCmp_nextPkt (s : State) x0 x1 x2 : (modCmp x0 x1 x2 s).nextPkt = s.nextPkt := rfl
@[simp] theorem modCmp_cls (s : State) x0 x1 x2 : (modCmp x0 x1 x2 s).cls = s.cls := rfl
@[simp] theorem modCmp_flow (s : State) x0 x1 x2 : (modCmp x0 x1 x2 s).flow = s.flow := rfl
@[simp] theorem modCmp_pipes (s : State) x0 x1 x2 : (modCmp x0 x1 x2 s).pipes = s.pipes := rfl
@[simp] theorem modCmp_aligned (s : State) x0 x1 x2 : (modCmp x0 x1 x2 s).aligned = s.aligned := rfl
@[simp] theorem modCmp_ctimeBase (s : State) x0 x1 x2 : (modCmp x0 x1 x2 s).ctimeBase = s.ctimeBase := rfl
@[simp] theorem modCmp_tsk (s : State) x0 x1 x2 : (modCmp x0 x1 x2 s).tsk = s.tsk := rfl
@[simp] theorem modCmp_buf (s : State) x0 x1 x2 : (modCmp x0 x1 x2 s).buf = s.buf := rfl
@[simp] theorem modCmp_fab (s : State) x0 x1 x2 : (modCmp x0 x1 x2 s).fab = s.fab := rfl
@[simp] theorem modCmp_egs (s : State) x0 x1 x2 : (modCmp x0 x1 x2 s).egs = s.egs := rfl
@[simp] theorem modCmp_tim (s : State) x0 x1 x2 : (modCmp x0 x1 x2 s).tim = s.tim := rfl
@[simp] theorem modCmp_hbm (s : State) x0 x1 x2 : (modCmp x0 x1 x2 s).hbm = s.hbm := rfl
@[simp] theorem modCmp_chk (s : State) x0 x1 x2 : (modCmp x0 x1 x2 s).chk = s.chk := rfl
@[simp] theorem modCmp_cus (s : State) x0 x1 x2 : (modCmp x0 x1 x2 s).cus = s.cus := rfl
@[simp] theorem modCmp_flash (s : State) x0 x1 x2 : (modCmp x0 x1 x2 s).flash = s.flash := rfl
@[simp] theorem modCmp_log (s : State) x0 x1 x2 : (modCmp x0 x1 x2 s).log = s.log := rfl
@[simp] theorem modCmp_lcs (s : State) x0 x1 x2 : (modCmp x0 x1 x2 s).lcs = s.lcs := rfl
@[simp] theorem modCmp_pwr (s : State) x0 x1 x2 : (modCmp x0 x1 x2 s).pwr = s.pwr := rfl
@[simp] theorem modCmp_smb (s : State) x0 x1 x2 : (modCmp x0 x1 x2 s).smb = s.smb := rfl

@[simp] theorem modEpoch_part (s : State) x0 x1 : (modEpoch x0 x1 s).part = s.part := rfl
@[simp] theorem modEpoch_pending (s : State) x0 x1 : (modEpoch x0 x1 s).pending = s.pending := rfl
@[simp] theorem modEpoch_now (s : State) x0 x1 : (modEpoch x0 x1 s).now = s.now := rfl
@[simp] theorem modEpoch_free (s : State) x0 x1 : (modEpoch x0 x1 s).free = s.free := rfl
@[simp] theorem modEpoch_actor (s : State) x0 x1 : (modEpoch x0 x1 s).actor = s.actor := rfl
@[simp] theorem modEpoch_raised (s : State) x0 x1 : (modEpoch x0 x1 s).raised = s.raised := rfl
@[simp] theorem modEpoch_regs (s : State) x0 x1 : (modEpoch x0 x1 s).regs = s.regs := rfl
@[simp] theorem modEpoch_readData (s : State) x0 x1 : (modEpoch x0 x1 s).readData = s.readData := rfl
@[simp] theorem modEpoch_host (s : State) x0 x1 : (modEpoch x0 x1 s).host = s.host := rfl
@[simp] theorem modEpoch_tmem (s : State) x0 x1 : (modEpoch x0 x1 s).tmem = s.tmem := rfl
@[simp] theorem modEpoch_mem (s : State) x0 x1 : (modEpoch x0 x1 s).mem = s.mem := rfl
@[simp] theorem modEpoch_cnt (s : State) x0 x1 : (modEpoch x0 x1 s).cnt = s.cnt := rfl
@[simp] theorem modEpoch_hif (s : State) x0 x1 : (modEpoch x0 x1 s).hif = s.hif := rfl
@[simp] theorem modEpoch_pkts (s : State) x0 x1 : (modEpoch x0 x1 s).pkts = s.pkts := rfl
@[simp] theorem modEpoch_nextPkt (s : State) x0 x1 : (modEpoch x0 x1 s).nextPkt = s.nextPkt := rfl
@[simp] theorem modEpoch_fwd (s : State) x0 x1 : (modEpoch x0 x1 s).fwd = s.fwd := rfl
@[simp] theorem modEpoch_flow (s : State) x0 x1 : (modEpoch x0 x1 s).flow = s.flow := rfl
@[simp] theorem modEpoch_pipes (s : State) x0 x1 : (modEpoch x0 x1 s).pipes = s.pipes := rfl
@[simp] theorem modEpoch_aligned (s : State) x0 x1 : (modEpoch x0 x1 s).aligned = s.aligned := rfl
@[simp] theorem modEpoch_ctimeBase (s : State) x0 x1 : (modEpoch x0 x1 s).ctimeBase = s.ctimeBase := rfl
@[simp] theorem modEpoch_tsk (s : State) x0 x1 : (modEpoch x0 x1 s).tsk = s.tsk := rfl
@[simp] theorem modEpoch_buf (s : State) x0 x1 : (modEpoch x0 x1 s).buf = s.buf := rfl
@[simp] theorem modEpoch_fab (s : State) x0 x1 : (modEpoch x0 x1 s).fab = s.fab := rfl
@[simp] theorem modEpoch_egs (s : State) x0 x1 : (modEpoch x0 x1 s).egs = s.egs := rfl
@[simp] theorem modEpoch_tim (s : State) x0 x1 : (modEpoch x0 x1 s).tim = s.tim := rfl
@[simp] theorem modEpoch_hbm (s : State) x0 x1 : (modEpoch x0 x1 s).hbm = s.hbm := rfl
@[simp] theorem modEpoch_chk (s : State) x0 x1 : (modEpoch x0 x1 s).chk = s.chk := rfl
@[simp] theorem modEpoch_cus (s : State) x0 x1 : (modEpoch x0 x1 s).cus = s.cus := rfl
@[simp] theorem modEpoch_flash (s : State) x0 x1 : (modEpoch x0 x1 s).flash = s.flash := rfl
@[simp] theorem modEpoch_log (s : State) x0 x1 : (modEpoch x0 x1 s).log = s.log := rfl
@[simp] theorem modEpoch_lcs (s : State) x0 x1 : (modEpoch x0 x1 s).lcs = s.lcs := rfl
@[simp] theorem modEpoch_pwr (s : State) x0 x1 : (modEpoch x0 x1 s).pwr = s.pwr := rfl
@[simp] theorem modEpoch_smb (s : State) x0 x1 : (modEpoch x0 x1 s).smb = s.smb := rfl

@[simp] theorem useFree_part (s : State)  : (useFree s).2.part = s.part := rfl
@[simp] theorem useFree_pending (s : State)  : (useFree s).2.pending = s.pending := rfl
@[simp] theorem useFree_now (s : State)  : (useFree s).2.now = s.now := rfl
@[simp] theorem useFree_actor (s : State)  : (useFree s).2.actor = s.actor := rfl
@[simp] theorem useFree_raised (s : State)  : (useFree s).2.raised = s.raised := rfl
@[simp] theorem useFree_regs (s : State)  : (useFree s).2.regs = s.regs := rfl
@[simp] theorem useFree_readData (s : State)  : (useFree s).2.readData = s.readData := rfl
@[simp] theorem useFree_host (s : State)  : (useFree s).2.host = s.host := rfl
@[simp] theorem useFree_tmem (s : State)  : (useFree s).2.tmem = s.tmem := rfl
@[simp] theorem useFree_mem (s : State)  : (useFree s).2.mem = s.mem := rfl
@[simp] theorem useFree_cnt (s : State)  : (useFree s).2.cnt = s.cnt := rfl
@[simp] theorem useFree_hif (s : State)  : (useFree s).2.hif = s.hif := rfl
@[simp] theorem useFree_pkts (s : State)  : (useFree s).2.pkts = s.pkts := rfl
@[simp] theorem useFree_nextPkt (s : State)  : (useFree s).2.nextPkt = s.nextPkt := rfl
@[simp] theorem useFree_cls (s : State)  : (useFree s).2.cls = s.cls := rfl
@[simp] theorem useFree_fwd (s : State)  : (useFree s).2.fwd = s.fwd := rfl
@[simp] theorem useFree_flow (s : State)  : (useFree s).2.flow = s.flow := rfl
@[simp] theorem useFree_pipes (s : State)  : (useFree s).2.pipes = s.pipes := rfl
@[simp] theorem useFree_aligned (s : State)  : (useFree s).2.aligned = s.aligned := rfl
@[simp] theorem useFree_ctimeBase (s : State)  : (useFree s).2.ctimeBase = s.ctimeBase := rfl
@[simp] theorem useFree_tsk (s : State)  : (useFree s).2.tsk = s.tsk := rfl
@[simp] theorem useFree_buf (s : State)  : (useFree s).2.buf = s.buf := rfl
@[simp] theorem useFree_fab (s : State)  : (useFree s).2.fab = s.fab := rfl
@[simp] theorem useFree_egs (s : State)  : (useFree s).2.egs = s.egs := rfl
@[simp] theorem useFree_tim (s : State)  : (useFree s).2.tim = s.tim := rfl
@[simp] theorem useFree_hbm (s : State)  : (useFree s).2.hbm = s.hbm := rfl
@[simp] theorem useFree_chk (s : State)  : (useFree s).2.chk = s.chk := rfl
@[simp] theorem useFree_cus (s : State)  : (useFree s).2.cus = s.cus := rfl
@[simp] theorem useFree_flash (s : State)  : (useFree s).2.flash = s.flash := rfl
@[simp] theorem useFree_log (s : State)  : (useFree s).2.log = s.log := rfl
@[simp] theorem useFree_lcs (s : State)  : (useFree s).2.lcs = s.lcs := rfl
@[simp] theorem useFree_pwr (s : State)  : (useFree s).2.pwr = s.pwr := rfl
@[simp] theorem useFree_smb (s : State)  : (useFree s).2.smb = s.smb := rfl

/-! ### The updated parts -/

@[simp] theorem modHif_own (s : State) (f) : (modHif f s).hif = f s.hif := rfl
@[simp] theorem modTsk_own (s : State) (f) : (modTsk f s).tsk = f s.tsk := rfl
@[simp] theorem modBuf_own (s : State) (f) : (modBuf f s).buf = f s.buf := rfl
@[simp] theorem modFab_own (s : State) (f) : (modFab f s).fab = f s.fab := rfl
@[simp] theorem modEgs_own (s : State) (f) : (modEgs f s).egs = f s.egs := rfl
@[simp] theorem modTim_own (s : State) (f) : (modTim f s).tim = f s.tim := rfl
@[simp] theorem modHbm_own (s : State) (f) : (modHbm f s).hbm = f s.hbm := rfl
@[simp] theorem modChk_own (s : State) (f) : (modChk f s).chk = f s.chk := rfl
@[simp] theorem modCus_own (s : State) (f) : (modCus f s).cus = f s.cus := rfl
@[simp] theorem modLog_own (s : State) (f) : (modLog f s).log = f s.log := rfl
@[simp] theorem modFlash_own (s : State) (f) : (modFlash f s).flash = f s.flash := rfl
@[simp] theorem modLcs_own (s : State) (f) : (modLcs f s).lcs = f s.lcs := rfl
@[simp] theorem modPwr_own (s : State) (f) : (modPwr f s).pwr = f s.pwr := rfl
@[simp] theorem modCls_own (s : State) (f) : (modCls f s).cls = f s.cls := rfl
@[simp] theorem modFwd_own (s : State) (f) : (modFwd f s).fwd = f s.fwd := rfl

end Sys2Proof.Laws
end

