-- ==== Sys2Proof/Laws/Begin.lean ====
section
/-! SUPPORT. A command that begins runs at once, in a state that differs from the one before in the host interface only. -/

namespace Sys2Proof.Laws

open Sys2Proof.Machine

/-- What follows the run. -/
def afterRun (a : Nat × Nat) (n : Nat) (x : CmdOut × State) : State :=
  takeOut a x.1 { (if n < x.2.raised then modInflight a (fun e => { e with evt := true }) x.2 else x.2) with actor := none }

theorem beginState_only (s : State) (i : Instr) (g : Nat) : Only 4112 s (beginState s i g) := by
  have A := Only.allows 4112 s
  exact A.actor rfl _ _ (modHif_keeps A rfl _ _ (pruneFetched_keeps A rfl _ _ (modHif_keeps A rfl _ _
    (modRing_keeps A rfl _ _ _ (Only.refl _ s)))))

theorem beginState_inflight (s : State) (i : Instr) (g : Nat) (h : s.hif.inflight = []) :
    (beginState s i g).hif.inflight = [newInflight i g (ring s g).begun (fetchOrder s g (ring s g).begun)] := by
  simp [beginState, pruneFetched, modHif, modRing, h]

/-- What beginning changes: the command's ring counts it, it is in flight, and its fetch and its latch are taken up. -/
theorem beginState_form (s : State) (i : Instr) (g : Nat) : ∃ I F A, beginState s i g
    = { s with actor := some (g, (ring s g).begun), hif := { s.hif with rings := mset {} s.hif.rings g { ring s g with begun := (ring s g).begun + 1 }, inflight := I, fetched := F, aborts := A } } := by
  unfold beginState pruneFetched modHif modRing
  exact ⟨_, _, _, rfl⟩

/-- A command that begins is counted on its ring, and no ring changes otherwise. -/
theorem beginState_ring (s : State) (i : Instr) (g k : Nat) : ring (beginState s i g) k
    = if k = g then { ring s k with begun := (ring s k).begun + 1 } else ring s k := by
  obtain ⟨I, F, A, e⟩ := beginState_form s i g
  rw [e]
  unfold ring
  dsimp only
  split
  · rename_i h; subst h; rw [mget_mset_same]
  · rename_i h; rw [mget_mset_ne _ _ (Ne.symm h)]

/-- What beginning leaves of the host interface. -/
theorem beginState_hif (s : State) (i : Instr) (g : Nat) : ∃ R I F A, (beginState s i g).hif = { s.hif with
    rings := R, inflight := I, fetched := F, aborts := A } := by
  obtain ⟨I, F, A, e⟩ := beginState_form s i g
  rw [e]
  exact ⟨_, _, _, _, rfl⟩

theorem beginState_aborts (s : State) (i : Instr) (g : Nat) (h : s.hif.aborts = []) : (beginState s i g).hif.aborts = [] := by
  unfold beginState pruneFetched modHif modRing
  dsimp only
  rw [h]
  rfl

theorem targetAbsent_congr {s u : State} (h : u.part = s.part) (k n : Nat) : targetAbsent u k n = targetAbsent s k n := by
  unfold targetAbsent unitsOfKind
  rw [h]

theorem targetDown_congr {s u : State} (h : u.part = s.part) (p : u.pwr = s.pwr) (k n : Nat) :
    targetDown u k n = targetDown s k n := by
  unfold targetDown domain
  rw [h, p]

theorem command_begins {s : State} {i : Instr} {g : Nat} (b : begins s i g) (run : Nat × Nat → State → CmdOut × State) :
    command i run s = afterRun (g, (ring s g).begun) s.raised (run (g, (ring s g).begun) (beginState s i g)) := by
  unfold command
  rw [b.ring]
  dsimp only
  rw [if_pos ⟨b.fetched, b.isCmd⟩]
  have hw : mustWait (modHif (fun h => { h with aborts := h.aborts.filter (· ≠ (g, (ring s g).begun)) })
      (pruneFetched g (modHif (fun h => { h with
        inflight := h.inflight ++ [newInflight i g (ring s g).begun (fetchOrder s g (ring s g).begun)] })
        (modRing g (fun r => { r with begun := r.begun + 1 }) s))))
      (newInflight i g (ring s g).begun (fetchOrder s g (ring s g).begun)) = none := by
    have hf : isFence i = true → fetchedBefore (modHif (fun h => { h with aborts := h.aborts.filter (· ≠ (g, (ring s g).begun)) })
      (pruneFetched g (modHif (fun h => { h with
        inflight := h.inflight ++ [newInflight i g (ring s g).begun (fetchOrder s g (ring s g).begun)] })
        (modRing g (fun r => { r with begun := r.begun + 1 }) s)))) = fun _ _ => false := by
      intro k
      funext l o
      simp [fetchedBefore, pruneFetched, modHif, modRing, b.first k]
    by_cases k : isFence i = true
    · unfold mustWait
      rw [hf k]
      simp [pruneFetched, modHif, modRing, b.alone, newInflight]
      split <;> rfl
    · unfold mustWait
      simp [pruneFetched, modHif, modRing, b.alone, newInflight, k]
      split <;> rfl
  rw [hw]
  have hl : (pruneFetched g (modHif (fun h => { h with
        inflight := h.inflight ++ [newInflight i g (ring s g).begun (fetchOrder s g (ring s g).begun)] })
        (modRing g (fun r => { r with begun := r.begun + 1 }) s))).hif.aborts.contains (g, (ring s g).begun) = false := by
    simp [pruneFetched, modHif, modRing, b.noAbort]
  rw [hl]
  simp only [Bool.false_and, Bool.false_eq_true, if_false]
  have hB := beginState_only s i g
  unfold startCmd
  generalize hu : modHif (fun h => { h with aborts := h.aborts.filter (· ≠ (g, (ring s g).begun)) })
      (pruneFetched g (modHif (fun h => { h with
        inflight := h.inflight ++ [newInflight i g (ring s g).begun (fetchOrder s g (ring s g).begun)] })
        (modRing g (fun r => { r with begun := r.begun + 1 }) s))) = u
  have hbs : beginState s i g = { u with actor := some (g, (ring s g).begun) } := by
    rw [← hu]; rfl
  rw [hbs] at hB ⊢
  have hz : u.lcs = s.lcs := hB.lcs rfl
  have hp : u.part = s.part := hB.part rfl
  have hw : u.pwr = s.pwr := hB.pwr rfl
  have hr : u.raised = s.raised := hB.raised rfl
  dsimp only
  rw [hz, b.awake, targetAbsent_congr hp, targetDown_congr hp hw, hr]
  rcases b.target with c | ⟨c, d⟩
  · simp only [c, Bool.not_true, Bool.false_and, Bool.false_eq_true, if_false]
    rfl
  · simp only [c, d, Bool.and_false, Bool.false_eq_true, if_false]
    rfl

/-- What a command leaves beside its own run: only the host interface, the completion's place in host memory, and the
completion's counter. -/
theorem afterRun_only (a : Nat × Nat) (n : Nat) (x : CmdOut × State) : Only 6416 x.2 (afterRun a n x) := by
  have A := Only.allows 6416 x.2
  exact takeOut_keeps A rfl _ _ _ (A.actor rfl _ _ (ite_keeps (modInflight_keeps A rfl _ _ _ (Only.refl _ _)) (Only.refl _ _)))

/-- A command that begins leaves what its run and its completion leave. -/
theorem command_only {s : State} {i : Instr} {g k : Nat} (b : begins s i g) {run : Nat × Nat → State → CmdOut × State}
    (h : k &&& 6416 = 6416) (O : Only k s (run (g, (ring s g).begun) (beginState s i g)).2) :
    Only k s (command i run s) := by
  rw [command_begins b]
  exact O.trans ((afterRun_only _ _ _).mono h)

theorem finish_actor (a : Nat × Nat) (st p r0 r1 : Nat) (s : State) (h : s.actor = none) : (finish a st p r0 r1 s).actor = none := by
  unfold finish
  split
  · exact h
  · rfl

theorem takeOut_actor (a : Nat × Nat) (x : CmdOut) (s : State) (h : s.actor = none) : (takeOut a x s).actor = none := by
  cases x
  · exact finish_actor _ _ _ _ _ _ h
  · exact h
  · exact h

/-- After a command that begins, no command is under way. -/
theorem command_actor {s : State} {i : Instr} {g : Nat} (b : begins s i g) {run : Nat × Nat → State → CmdOut × State} :
    (command i run s).actor = none := by
  rw [command_begins b]
  exact takeOut_actor _ _ _ rfl

/-- A command whose run is done at once, raises no event and leaves the host interface to its completion. -/
theorem command_done {s : State} {i : Instr} {g : Nat} (b : begins s i g) {run : Nat × Nat → State → CmdOut × State}
    {st p r0 r1 : Nat} {u : State} (h : run (g, (ring s g).begun) (beginState s i g) = (.done st p r0 r1, u))
    (q : u.raised = s.raised) : command i run s = finish (g, (ring s g).begun) st p r0 r1 { u with actor := none } := by
  rw [command_begins b, h]
  unfold afterRun takeOut
  simp [q]

/-- The same, from the state it is run in. -/
theorem command_done_of {s v : State} {i : Instr} {g : Nat} (b : begins s i g) (hv : beginState s i g = v)
    {run : Nat × Nat → State → CmdOut × State} {st p r0 r1 : Nat} {u : State}
    (h : run (g, (ring s g).begun) v = (.done st p r0 r1, u)) (q : u.raised = s.raised) :
    command i run s = finish (g, (ring s g).begun) st p r0 r1 { u with actor := none } :=
  command_done b (by rw [hv]; exact h) q

/-- A write that reaches its register does what the register does. -/
theorem regWriteGate_writable {s : State} {path : Path} {r : Reg} (w : writable s path r) (f : State → State) :
    regWriteGate path r f s = f s := by
  unfold regWriteGate
  rw [w.1, w.2.1]
  cases path
  · rfl
  · simp [w.2.2.1 rfl]
  · simp [w.2.2.2 rfl]

/-- A read that reaches its register does what the register does. -/
theorem regReadGate_readable {s : State} {path : Path} {r : Reg} (w : readable s path r) (f : State → State) :
    regReadGate path r f s = f s := by
  unfold regReadGate
  rw [w.1, w.2.1]
  cases path
  · rfl
  · rfl
  · simp [w.2.2 rfl]

end Sys2Proof.Laws
end

