-- ==== Sys2Proof/Laws/Descriptors.lean ====
section
/-! SUPPORT. Reading the fields of a packed image, and the two's complement, for claims about descriptors (R54–R58). -/

namespace Sys2Proof.Laws

open Sys2Proof

/-- The first field, or its low bits. -/
theorem fld_pack_first {w v hi : Nat} (r : List (Nat × Nat)) (h : hi + 1 ≤ w) : fld (pack ((w, v) :: r)) hi 0 = v % 2 ^ (hi + 1) := by
  unfold fld
  show (v % 2 ^ w + pack r <<< w) >>> 0 % 2 ^ (hi + 1 - 0) = _
  rw [Nat.shiftRight_zero, Nat.sub_zero, Nat.shiftLeft_eq]
  obtain ⟨k, rfl⟩ := Nat.exists_eq_add_of_le h
  rw [Nat.pow_add, ← Nat.mul_assoc, Nat.mul_right_comm, Nat.add_mul_mod_self_right, Nat.mod_mul_right_mod]

/-- A field behind the first is the rest's. -/
theorem fld_pack_rest {w v hi lo : Nat} (r : List (Nat × Nat)) (h : w ≤ lo) (h2 : w ≤ hi) : fld (pack ((w, v) :: r)) hi lo = fld (pack r) (hi - w) (lo - w) := by
  unfold fld
  show (v % 2 ^ w + pack r <<< w) >>> lo % _ = _
  obtain ⟨k, rfl⟩ := Nat.exists_eq_add_of_le h
  have e : (v % 2 ^ w + pack r <<< w) >>> (w + k) = pack r >>> k := by
    rw [Nat.shiftRight_add, Nat.shiftLeft_eq, Nat.shiftRight_eq_div_pow _ w, Nat.add_mul_div_right _ _ (Nat.two_pow_pos w),
      Nat.div_eq_of_lt (Nat.mod_lt _ (Nat.two_pow_pos w)), Nat.zero_add]
  rw [e, Nat.add_sub_cancel_left]
  congr 2
  omega

/-- A bit of the first field. -/
theorem bit_pack_first {w v n : Nat} (r : List (Nat × Nat)) (h : n < w) : bit (pack ((w, v) :: r)) n = bit v n := by
  unfold bit
  show (v % 2 ^ w + pack r <<< w).testBit n = _
  rw [Nat.shiftLeft_eq, Nat.add_comm, Nat.mul_comm, Nat.testBit_two_pow_mul_add _ (Nat.mod_lt _ (Nat.two_pow_pos w)), if_pos h,
    Nat.testBit_mod_two_pow]
  simp [h]

/-- A bit behind the first field is the rest's. -/
theorem bit_pack_rest {w v n : Nat} (r : List (Nat × Nat)) (h : w ≤ n) : bit (pack ((w, v) :: r)) n = bit (pack r) (n - w) := by
  unfold bit
  show (v % 2 ^ w + pack r <<< w).testBit n = _
  rw [Nat.shiftLeft_eq, Nat.add_comm, Nat.mul_comm, Nat.testBit_two_pow_mul_add _ (Nat.mod_lt _ (Nat.two_pow_pos w)), if_neg (by omega)]

/-- An integer of w bits is read back from its two's complement. -/
theorem toSigned_ofSigned {w : Nat} {x : Int} (hw : 0 < w) (h : -(2 ^ (w - 1) : Int) ≤ x ∧ x < (2 ^ (w - 1) : Int)) :
    toSigned w (ofSigned w x) = x := by
  obtain ⟨k, rfl⟩ : ∃ k, w = k + 1 := ⟨w - 1, by omega⟩
  unfold toSigned ofSigned
  simp only [Nat.add_sub_cancel] at h ⊢
  have p : (0 : Int) < 2 ^ k := by positivity
  have e : (2 : Int) ^ (k + 1) = 2 ^ k + 2 ^ k := by ring
  have en : (2 : Nat) ^ (k + 1) = 2 ^ k + 2 ^ k := by ring
  have q : ((2 ^ k : Nat) : Int) = 2 ^ k := by push_cast; rfl
  rw [e, en]
  by_cases n : 0 ≤ x
  · rw [Int.emod_eq_of_lt n (by omega)]
    have : x.toNat < 2 ^ k := by omega
    rw [Nat.mod_eq_of_lt (by omega), if_pos this]
    simpa using n
  · have m : x % (2 ^ k + 2 ^ k) = x + (2 ^ k + 2 ^ k) := by
      rw [← Int.add_emod_right, Int.emod_eq_of_lt (by omega) (by omega)]
    rw [m]
    have : (x + (2 ^ k + 2 ^ k)).toNat < 2 ^ k + 2 ^ k := by omega
    rw [Nat.mod_eq_of_lt this, if_neg (by omega)]
    simp only [Int.ofNat_eq_natCast]
    omega

theorem ofSigned_lt {w : Nat} (x : Int) : ofSigned w x < 2 ^ w := by
  unfold ofSigned
  have p : (0 : Int) < 2 ^ w := by positivity
  have a := Int.emod_nonneg x (ne_of_gt p)
  have b := Int.emod_lt_of_pos x p
  have q : ((2 ^ w : Nat) : Int) = 2 ^ w := by push_cast; rfl
  omega

/-- Two flags packed in a byte. -/
theorem bits_two (a b : Bool) : bit (b2n a + 2 * b2n b) 0 = a ∧ bit (b2n a + 2 * b2n b) 1 = b := by
  cases a <;> cases b <;> decide

/-- Three flags packed in a byte. -/
theorem bits_three (a b c : Bool) : bit (b2n a + 2 * b2n b + 4 * b2n c) 0 = a ∧ bit (b2n a + 2 * b2n b + 4 * b2n c) 1 = b
    ∧ bit (b2n a + 2 * b2n b + 4 * b2n c) 2 = c := by
  cases a <;> cases b <;> cases c <;> decide

/-- The header of a descriptor is read back (R54). -/
theorem decHdr_pack (op : Nat) (h : Hdr) (r : List (Nat × Nat)) (w : h.wf = true) : decHdr h.ring (pack (encHdr op h ++ r)) = h := by
  simp only [Hdr.wf, fitsW, Bool.and_eq_true, decide_eq_true_eq] at w
  unfold decHdr
  simp (disch := omega) only [encHdr, List.cons_append, List.nil_append, fld_pack_rest, fld_pack_first, bit_pack_rest, bit_pack_first,
    bits_two, Nat.reduceSub, Nat.reducePow, Nat.reduceAdd, Nat.reduceMod, Nat.sub_self, Nat.sub_zero, Nat.mod_eq_of_lt]

/-- Byte 0 is the opcode. -/
theorem opcode_pack (op : Nat) (h : Hdr) (r : List (Nat × Nat)) : fld (pack (encHdr op h ++ r)) 7 0 = op % 256 := by
  simp (disch := omega) only [encHdr, List.cons_append, List.nil_append, fld_pack_rest, fld_pack_first, bit_pack_rest, bit_pack_first,
    bits_two, Nat.reduceSub, Nat.reducePow, Nat.reduceAdd, Nat.reduceMod, Nat.sub_self, Nat.sub_zero, Nat.mod_eq_of_lt]

/-- The fields behind the header are the body's. -/
theorem body_pack (op : Nat) (h : Hdr) (r : List (Nat × Nat)) (hi lo : Nat) (a : 64 ≤ lo) (b : 64 ≤ hi) :
    fld (pack (encHdr op h ++ r)) hi lo = fld (pack r) (hi - 64) (lo - 64) := by
  unfold encHdr
  rw [List.cons_append, List.cons_append, List.cons_append, List.cons_append, List.cons_append, List.nil_append,
    fld_pack_rest _ (by omega) (by omega), fld_pack_rest _ (by omega) (by omega), fld_pack_rest _ (by omega) (by omega),
    fld_pack_rest _ (by omega) (by omega), fld_pack_rest _ (by omega) (by omega)]
  congr 1 <;> omega

theorem wf_ring {h : Hdr} (w : h.wf = true) : h.ring < 64 := by
  simp only [Hdr.wf, fitsW, Bool.and_eq_true, decide_eq_true_eq] at w
  exact w.1.1.1

theorem decodeCmd_ring {g x : Nat} (e : fld x 7 0 = 0x01) : decodeCmd g x = decRingSet (decHdr g x) x := by
  simp only [decodeCmd, e]
theorem decodeCmd_pool {g x : Nat} (e : fld x 7 0 = 0x02) : decodeCmd g x = decPoolSet (decHdr g x) x := by
  simp only [decodeCmd, e]
theorem decodeCmd_time {g x : Nat} (e : fld x 7 0 = 0x48) : decodeCmd g x = decTimeSet (decHdr g x) x := by
  simp only [decodeCmd, e]
theorem decodeCmd_domain {g x : Nat} (e : fld x 7 0 = 0x60) : decodeCmd g x = decDomainCtl (decHdr g x) x := by
  simp only [decodeCmd, e]

end Sys2Proof.Laws
end

