-- ==== Sys2Proof/Laws/Entries.lean ====
section
/-! SUPPORT. What a command that begins finds of the host interface, how it stays in flight, and that an entry written on
every unit of a list reads back on each. -/

namespace Sys2Proof.Laws

open Sys2Proof.Machine

theorem inflight_begin (s : State) (i : Instr) (g : Nat) (h : s.hif.inflight = []) :
    inflight (beginState s i g) (g, (ring s g).begun)
      = some (newInflight i g (ring s g).begun (fetchOrder s g (ring s g).begun)) := by
  unfold inflight
  rw [beginState_inflight s i g h]
  simp [newInflight]

theorem inflight_modInflight (a : Nat × Nat) (f : InFlight → InFlight) (s : State) {e : InFlight} (h : inflight s a = some e)
    (k : ∀ x, (f x).ring = x.ring ∧ (f x).index = x.index) : inflight (modInflight a f s) a = some (f e) := by
  unfold inflight at h ⊢
  unfold modInflight modHif
  dsimp only
  generalize s.hif.inflight = l at h ⊢
  induction l with
  | nil => cases h
  | cons x r ih =>
    rw [List.find?_cons] at h
    rw [List.map_cons, List.find?_cons]
    by_cases c : x.ring = a.1 ∧ x.index = a.2
    · rw [decide_eq_true c] at h
      rw [if_pos c, decide_eq_true ⟨(k x).1.trans c.1, (k x).2.trans c.2⟩]
      cases h
      rfl
    · rw [decide_eq_false c] at h
      rw [if_neg c, decide_eq_false c]
      exact ih h

/-- A command whose run goes on for later rows stays in flight, waiting for what it names. -/
theorem command_go {s : State} {i : Instr} {g : Nat} (b : begins s i g) {run : Nat × Nat → State → CmdOut × State}
    {w : WaitFor} {u : State} (h : run (g, (ring s g).begun) (beginState s i g) = (.go w, u)) (q : u.raised = s.raised) :
    command i run s = modInflight (g, (ring s g).begun) (fun e => { e with wait := w, stepping := true }) { u with actor := none } := by
  rw [command_begins b, h]
  unfold afterRun takeOut
  simp [q]

/-- A command that must wait stays in flight, not begun. -/
theorem command_wait {s : State} {i : Instr} {g : Nat} (b : begins s i g) {run : Nat × Nat → State → CmdOut × State}
    {w : WaitFor} {u : State} (h : run (g, (ring s g).begun) (beginState s i g) = (.wait w, u)) (q : u.raised = s.raised) :
    command i run s = modInflight (g, (ring s g).begun) (fun e => { e with wait := w, stepping := false }) { u with actor := none } := by
  rw [command_begins b, h]
  unfold afterRun takeOut
  simp [q]

theorem beginState_ringLink (s : State) (i : Instr) (g r : Nat) : ringLink (beginState s i g) r = ringLink s r := by
  obtain ⟨I, F, A, e⟩ := beginState_form s i g
  rw [e]
  unfold ringLink cfgBit stored
  rfl

theorem beginState_addrStatus (s : State) (i : Instr) (g : Nat) (l : Link) (a n k : Nat) (w : Bool) :
    addrStatus (beginState s i g) l a n k w = addrStatus s l a n k w := by
  obtain ⟨I, F, A, e⟩ := beginState_form s i g
  rw [e]
  unfold addrStatus inWindow winCovers winLink cfgBit cfg stored
  rfl

/-- A transfer that passes its checks is made. -/
theorem beginState_dmaCheck {s : State} {r a n k : Nat} {w : Bool} (h : addrStatus s (ringLink s r) a n k w = 0) (i : Instr) (g : Nat) :
    dmaCheck r a n k w (beginState s i g) = (0, beginState s i g) := by
  unfold dmaCheck
  rw [beginState_ringLink, beginState_addrStatus, h]
  rfl

theorem beginState_dataCheck {s : State} {r n : Nat} {t : FormT} {w : Bool}
    (h : addrStatus s (ringLink s r) t.hostAddr (Nat.max t.hostLen n) 64 w = 0)
    (i : Instr) (g : Nat) : dataCheck r t n w (beginState s i g) = (0, beginState s i g) :=
  beginState_dmaCheck h i g

/-- A command whose run goes on keeps its entry in flight, and leaves what its run leaves. -/
theorem command_goes {s : State} {i : Instr} {g : Nat} (b : begins s i g) {run : Nat × Nat → State → CmdOut × State}
    {w : WaitFor} {u : State} (h : run (g, (ring s g).begun) (beginState s i g) = (.go w, u)) (q : u.raised = s.raised)
    {e : InFlight} (k : inflight u (g, (ring s g).begun) = some e) :
    inflight (command i run s) (g, (ring s g).begun) = some { e with wait := w, stepping := true }
      ∧ command i run s = { u with hif := (command i run s).hif, actor := none } := by
  rw [command_go b h q]
  exact ⟨inflight_modInflight _ _ _ k (fun _ => ⟨rfl, rfl⟩), rfl⟩

/-- A command whose run only notes something in its entry in flight, and goes on. -/
theorem command_starts {s : State} {i : Instr} {g : Nat} (b : begins s i g) {run : Nat × Nat → State → CmdOut × State}
    {w : WaitFor} {f : InFlight → InFlight}
    (h : run (g, (ring s g).begun) (beginState s i g) = (.go w, modInflight (g, (ring s g).begun) f (beginState s i g)))
    (k : ∀ x, (f x).ring = x.ring ∧ (f x).index = x.index) :
    inflight (command i run s) (g, (ring s g).begun)
        = some { f (newInflight i g (ring s g).begun (fetchOrder s g (ring s g).begun)) with wait := w, stepping := true }
      ∧ command i run s = { s with hif := (command i run s).hif, actor := none } := by
  have q : (modInflight (g, (ring s g).begun) f (beginState s i g)).raised = s.raised := (beginState_only s i g).raised rfl
  rw [command_go b h q]
  constructor
  · exact inflight_modInflight _ _ _ (inflight_modInflight _ _ _ (inflight_begin s i g b.alone) k) (fun _ => ⟨rfl, rfl⟩)
  · obtain ⟨I, F, A, e⟩ := beginState_form s i g
    rw [e]
    rfl

/-- What a step over a list makes so, and keeps so, is so at the end for each element. -/
theorem each_each {A : Type} (f : A → State → State) (P : A → State → Prop) (l : List A) :
    ∀ s, (∀ a ∈ l, ∀ t, P a (f a t)) → (∀ a ∈ l, ∀ b ∈ l, ∀ t, P a t → P a (f b t)) → ∀ a ∈ l, P a (each l f s) := by
  have keep : ∀ (r : List A) (a : A) (t : State), (∀ b ∈ r, ∀ t, P a t → P a (f b t)) → P a t → P a (each r f t) := by
    intro r
    induction r with
    | nil => intro a t _ h; exact h
    | cons b r ih =>
      intro a t k h
      rw [each_cons]
      exact ih a _ (fun c hc => k c (List.mem_cons_of_mem _ hc)) (k b List.mem_cons_self t h)
  induction l with
  | nil => intro s _ _ a h; cases h
  | cons b r ih =>
    intro s m k a h
    rw [each_cons]
    rcases List.mem_cons.mp h with e | h
    · subst e
      exact keep r a _ (fun c hc => k a List.mem_cons_self c (List.mem_cons_of_mem _ hc)) (m a List.mem_cons_self s)
    · exact ih _ (fun c hc => m c (List.mem_cons_of_mem _ hc))
        (fun c hc d hd => k c (List.mem_cons_of_mem _ hc) d (List.mem_cons_of_mem _ hd)) a h

/-- What every step over a list keeps, the whole keeps. -/
theorem each_inv {A : Type} (f : A → State → State) (P : State → Prop) (l : List A) :
    ∀ s, (∀ b ∈ l, ∀ t, P t → P (f b t)) → P s → P (each l f s) := by
  induction l with
  | nil => intro s _ h; exact h
  | cons b r ih =>
    intro s k h
    rw [each_cons]
    exact ih _ (fun c hc => k c (List.mem_cons_of_mem _ hc)) (k b List.mem_cons_self s h)

theorem takeBytes_all (l : List Byte) : takeBytes l 0 l.length = l := by
  unfold takeBytes
  simp

theorem takeBytes_leBytes (n x : Nat) : takeBytes (leBytes n x) 0 n = leBytes n x := by
  have := takeBytes_all (leBytes n x)
  rwa [leBytes_length] at this

/-! ### Maps of the state -/

theorem mem_of_mget {V : Type} (d : V) (k : Nat) : ∀ (m : Map V), mget d m k ≠ d → ∃ a ∈ m, a.1 = k := by
  intro m
  induction m with
  | nil => intro h; exact absurd rfl h
  | cons a r ih =>
    intro h
    obtain ⟨j, v⟩ := a
    unfold mget at h
    by_cases c : j = k
    · exact ⟨(j, v), List.mem_cons_self, c⟩
    · rw [if_neg c] at h
      obtain ⟨b, hb, e⟩ := ih h
      exact ⟨b, List.mem_cons_of_mem _ hb, e⟩

theorem egq_modEgq (p q : Nat) (f : List QEnt → List QEnt) (s : State) : egq (modEgq p q f s) p q = f (egq s p q) := by
  unfold egq modEgq
  exact mget_mset_same _ _ _ _

theorem egq_modEgq_ne {p q p' q' : Nat} (h : 16 * p + q ≠ 16 * p' + q') (f : List QEnt → List QEnt) (s : State) :
    egq (modEgq p q f s) p' q' = egq s p' q' := by
  unfold egq modEgq
  exact mget_mset_ne _ _ h _

theorem pauseSt_modPause (p q : Nat) (f : PauseSt → PauseSt) (s : State) : pauseSt (modPause p q f s) p q = f (pauseSt s p q) := by
  unfold pauseSt modPause
  exact mget_mset_same _ _ _ _

theorem pauseSt_modPause_ne {p q p' q' : Nat} (h : 8 * p + q ≠ 8 * p' + q') (f : PauseSt → PauseSt) (s : State) :
    pauseSt (modPause p q f s) p' q' = pauseSt s p' q' := by
  unfold pauseSt modPause
  exact mget_mset_ne _ _ h _

/-! ### Entries -/

theorem objGet_objPut (o unit bank idx v : Nat) (s : State) : objGet (objPut o unit bank idx v s) o unit bank idx = v := by
  unfold objGet objPut
  dsimp only
  exact mget_mset_same _ _ _ _

theorem objGet_objPut_keep (o u b u' b' idx v : Nat) (s : State) (h : objGet s o u b idx = v) :
    objGet (objPut o u' b' idx v s) o u b idx = v := by
  unfold objGet objPut at *
  dsimp only
  rw [mget_mset]
  split
  · rfl
  · exact h

@[simp] theorem objPut_updates (o u b i v : Nat) (s : State) : (objPut o u b i v s).cls.updates = s.cls.updates := rfl
@[simp] theorem epochOf_objPut (o u b i v : Nat) (s : State) (p : Nat) : epochOf (objPut o u b i v s) p = epochOf s p := rfl
@[simp] theorem unitDown_objPut (o u b i v : Nat) (s : State) (k p : Nat) : unitDown (objPut o u b i v s) k p = unitDown s k p := by
  unfold unitDown targetDown domain objPut
  rfl

/-- An entry lies within its die's table memory. -/
def tFits (o idx : Nat) : Prop := tOff o idx + slotSize o ≤ 2 ^ 26

theorem tEntry_tPut (d o idx v : Nat) (s : State) : tEntry (tPut d o idx v s) d o idx = v % 256 ^ slotSize o := by
  unfold tEntry tPut tWrite tRead
  exact rdN_wrN _ _ _ _

theorem tEntry_tPut_keep (d e o idx v : Nat) (s : State) (f : tFits o idx) (h : tEntry s d o idx = v % 256 ^ slotSize o) :
    tEntry (tPut e o idx v s) d o idx = v % 256 ^ slotSize o := by
  by_cases c : e = d
  · subst c; exact tEntry_tPut e o idx v s
  · rw [← h]
    unfold tFits at f
    unfold tEntry tPut tWrite tRead tAddr
    dsimp only
    refine rdN_wrN_out _ _ _ _ _ _ ?_
    have hs : 0 < slotSize o ∨ slotSize o = 0 := by omega
    by_cases z : slotSize o = 0
    · rcases Nat.lt_or_gt_of_ne c with c | c <;> · rw [z]; omega
    · have : tOff o idx % 2 ^ 26 = tOff o idx := Nat.mod_eq_of_lt (by omega)
      rw [this]
      rcases Nat.lt_or_gt_of_ne c with c | c
      · right
        have : (e + 1) * 2 ^ 26 ≤ d * 2 ^ 26 := Nat.mul_le_mul_right _ c
        omega
      · left
        have : (d + 1) * 2 ^ 26 ≤ e * 2 ^ 26 := Nat.mul_le_mul_right _ c
        omega

theorem tEntry_congr {s t : State} (h : t.tmem = s.tmem) (d o idx : Nat) : tEntry t d o idx = tEntry s d o idx := by
  unfold tEntry tRead
  rw [h]

theorem tEntry_drvPut (d o idx v : Nat) (s : State) : tEntry (drvPut d o idx v s) d o idx = v % 256 ^ slotSize o := by
  rw [← tEntry_tPut d o idx v s]
  exact tEntry_congr rfl _ _ _

theorem tEntry_drvPut_keep (d e o idx v : Nat) (s : State) (f : tFits o idx) (h : tEntry s d o idx = v % 256 ^ slotSize o) :
    tEntry (drvPut e o idx v s) d o idx = v % 256 ^ slotSize o := by
  rw [← tEntry_tPut_keep d e o idx v s f h]
  exact tEntry_congr rfl _ _ _

/-- A driver's write of a slot on a list of dies reads back on each of them. -/
theorem tEntry_tableWriteOn (ds : List Nat) (o idx v : Nat) (f : tFits o idx) (s : State) :
    ∀ d ∈ ds, tEntry (tableWriteOn ds o idx v s) d o idx = v % 256 ^ slotSize o := by
  unfold tableWriteOn
  refine each_each _ (fun d t => tEntry t d o idx = v % 256 ^ slotSize o) ds s ?_ ?_
  · intro d _ t
    rw [← tEntry_drvPut d o idx v t]
    exact tEntry_congr rfl _ _ _
  · intro d _ e _ t h
    rw [← tEntry_drvPut_keep d e o idx v t f h]
    exact tEntry_congr rfl _ _ _

end Sys2Proof.Laws
end

