-- ==== Sys2Proof/Laws/Queues.lean ====
section
/-! SUPPORT. What ending a frame leaves of the egress part: everything but the frames on the wire and the receive counts. -/

namespace Sys2Proof.Laws

open Sys2Proof.Machine

/-- u differs from s, in the egress part, in frames sent after those of s and in the frames counted as received only. -/
structure EgsFrame (s u : State) : Prop where
  egs : u.egs = { s.egs with wire := u.egs.wire, rx := u.egs.rx }
  wire : s.egs.wire <+: u.egs.wire

theorem EgsFrame.refl (s : State) : EgsFrame s s := ⟨rfl, List.prefix_refl _⟩

theorem EgsFrame.trans {s u v : State} (H : EgsFrame s u) (K : EgsFrame u v) : EgsFrame s v :=
  ⟨by rw [K.egs, H.egs], H.wire.trans K.wire⟩

/-- A change that leaves the egress part. -/
theorem EgsFrame.of {s u v : State} (H : EgsFrame s u) (h : v.egs = u.egs) : EgsFrame s v :=
  ⟨by rw [h]; exact H.egs, by rw [h]; exact H.wire⟩

theorem EgsFrame.each {A : Type} {s : State} (l : List A) (f : A → State → State) (k : ∀ a t, EgsFrame s t → EgsFrame s (f a t)) :
    ∀ u, EgsFrame s u → EgsFrame s (each l f u) := each_keeps (P := EgsFrame s) l f k

theorem EgsFrame.sendPfc {s u : State} (H : EgsFrame s u) (port q quanta : Nat) : EgsFrame s (sendPfc port q quanta u) := by
  refine H.trans ?_
  unfold Machine.sendPfc
  split
  · exact EgsFrame.refl _
  · dsimp only
    split <;> exact ⟨rfl, List.prefix_append _ _⟩

theorem EgsFrame.unchargeCell {s u : State} (H : EgsFrame s u) (port q : Nat) : EgsFrame s (unchargeCell port q u) := by
  unfold Machine.unchargeCell
  dsimp only
  split
  · unfold Machine.sendXon
    refine EgsFrame.sendPfc ?_ _ _ _
    exact H.of rfl
  · exact H.of rfl

theorem EgsFrame.freeOwn {s u : State} (H : EgsFrame s u) (l : List Nat) : EgsFrame s (freeOwn l u) :=
  H.of ((freeOwn_keeps (Only.allows 17163091967 u) rfl _ _ (Only.refl _ u)).egs rfl)

theorem EgsFrame.freeIngress {s u : State} (H : EgsFrame s u) (k : Nat) : EgsFrame s (freeIngress k u) := by
  unfold Machine.freeIngress
  split
  · exact H
  · rename_i p _
    exact (EgsFrame.each (upTo p.charged) (fun _ t => Machine.unchargeCell p.port p.pri t) (fun _ t h => h.unchargeCell _ _) _ (H.freeOwn p.cells)).of rfl

theorem EgsFrame.freeFrame {s u : State} (H : EgsFrame s u) (k : Nat) : EgsFrame s (freeFrame k u) := by
  unfold Machine.freeFrame Machine.freeDest
  split
  · exact H.freeIngress k
  · rename_i p _
    exact ((H.freeIngress k).freeOwn p.dcells).of rfl

theorem EgsFrame.countArrival {s u : State} (H : EgsFrame s u) (k : Nat) : EgsFrame s (countArrival k u) := by
  refine H.trans ?_
  unfold Machine.countArrival
  split
  · split
    · exact EgsFrame.refl _
    · exact ⟨rfl, List.prefix_refl _⟩
  · exact EgsFrame.refl _

theorem EgsFrame.stageFree {s u : State} (H : EgsFrame s u) (k : Nat) : EgsFrame s (stageFree k u) := by
  unfold Machine.stageFree
  split
  · exact H
  · rename_i x _
    have key : ∀ v, EgsFrame s v → EgsFrame s
        (if (decide (x.cells = []) || ((voqsOf v k).any fun w => decide (dieOfPipe w.1 = dieOfPipe x.pipe))
            || ((unackedOf v k).any fun c => decide (dieOfPipe c.src = dieOfPipe x.pipe))) = true then v
        else match ((upTo 4).map (4 * dieOfPipe x.pipe + ·)).find? (stageBusy v k) with
          | some p => moveCells (x.cells.filter fun c => heldTag v c ≠ ownerTag 4 (p % 4)) (ownerTag 4 (p % 4)) v
          | none => Machine.freeIngress k v) := by
      intro v A
      split
      · exact A
      · split
        · exact A.of ((moveCells_keeps (Only.allows 17163091967 v) rfl _ _ _ (Only.refl _ v)).egs rfl)
        · exact A.freeIngress k
    refine key _ ?_
    split
    · exact H
    · exact EgsFrame.of (EgsFrame.freeOwn H _) rfl

theorem EgsFrame.endPkt {s u : State} (H : EgsFrame s u) (k : Nat) : EgsFrame s (endPkt k u) := by
  unfold Machine.endPkt
  split
  · exact H
  · rename_i p _
    dsimp only
    have a := (H.countArrival k).of ((countSquashes_keeps (Only.allows 17163091967 (Machine.countArrival k u)) rfl k _ (Only.refl _ _)).egs rfl)
    have b := a.freeFrame k
    generalize Machine.freeFrame k (countSquashes k (Machine.countArrival k u)) = v at b
    have c := b.of ((leaveEpoch_keeps (Only.allows 17163091967 v) rfl k _ (Only.refl _ _)).egs rfl)
    generalize leaveEpoch k v = w at c
    have d := c.of ((forgetPasses_keeps (Only.allows 17163091967 w) rfl k _ (Only.refl _ _)).egs rfl)
    generalize forgetPasses k w = x at d
    have e : EgsFrame s (if p.stampReq = true then injectDone p 0 ⟨0, 0, 0⟩ false x else x) := by
      split
      · exact d.of ((injectDone_keeps (Only.allows 17163091967 x) rfl _ _ _ _ _ (Only.refl _ _)).egs rfl)
      · exact d
    exact e.of rfl

theorem EgsFrame.unref {s u : State} (H : EgsFrame s u) (k : Nat) : EgsFrame s (unref k u) := by
  unfold Machine.unref
  split
  · exact H
  · split
    · exact H.endPkt k
    · refine EgsFrame.stageFree ?_ k
      exact H.of rfl

/-- Dropping an entry leaves every queue, launch list, gate and schedule. -/
theorem EgsFrame.dropEnt {s u : State} (H : EgsFrame s u) (e : QEnt) (c : Nat × Nat × Nat × Nat) : EgsFrame s (dropEnt e c u) := by
  unfold Machine.dropEnt Machine.dropUse
  split
  · exact H
  · split
    · refine EgsFrame.unref (EgsFrame.of H ?_) _
      exact (payOwed_keeps (Only.allows 17163091967 u) rfl _ _ (Only.refl _ u)).egs rfl
    · refine EgsFrame.unref (EgsFrame.of H ?_) _
      exact (owe_keeps (Only.allows 17163091967 u) rfl _ _ _ (Only.refl _ u)).egs rfl

theorem EgsFrame.reads {s u : State} (H : EgsFrame s u) : u.egs.up = s.egs.up ∧ (∀ p, launch u p = launch s p) ∧ (∀ p q, egq u p q = egq s p q) := by
  unfold launch egq
  rw [H.egs]
  exact ⟨rfl, fun _ => rfl, fun _ _ => rfl⟩

end Sys2Proof.Laws
end

