-- ==== Sys2Proof/Laws/Records.lean ====
section
/-! SUPPORT. Fields of flow records in HBM: a field reads as it was last written, and a write leaves the fields beside it. -/

namespace Sys2Proof.Laws

open Sys2Proof.Machine

theorem recN_setRec (r off n v : Nat) (s : State) : recN (setRec r off n v s) r off n = v % 256 ^ n := by
  unfold recN setRec
  exact rdN_wrN _ _ _ _

theorem recN_setRec_out (r off n v o k : Nat) (s : State) (h : o + k ≤ off ∨ off + n ≤ o) :
    recN (setRec r off n v s) r o k = recN s r o k := by
  unfold recN setRec
  refine rdN_wrN_out _ _ _ _ _ _ ?_
  omega

theorem recN_congr {s t : State} (h : t.mem = s.mem) (r o k : Nat) : recN t r o k = recN s r o k := by
  unfold recN
  rw [h]

theorem rdN_lt (m : List Host.Cell) (a n : Nat) : rdN m a n < 256 ^ n := by
  unfold rdN
  have key : ∀ l : List Byte, ofLe l < 256 ^ l.length := by
    intro l
    induction l with
    | nil => decide
    | cons c r ih =>
      unfold ofLe
      rw [List.length_cons, Nat.pow_succ]
      have := c.isLt
      omega
  have len : ∀ (k : Nat) (b : Nat), (rdBytes m b k).length = k := by
    intro k
    induction k with
    | zero => intro b; rfl
    | succ k ih => intro b; unfold rdBytes; rw [List.length_cons, ih]
  have := key (rdBytes m a n)
  rwa [len] at this

theorem recN_lt (s : State) (r o n : Nat) : recN s r o n < 256 ^ n := rdN_lt _ _ _

/-- A version change writes the version and nothing else of the record. -/
theorem recN_bump (r : Nat) (c a p) (s : State) : recN (bump r c a p s) r 44 4 = (recVer s r + 1) % 2 ^ 32 := by
  have h : (bump r c a p s).mem = (setRec r 44 4 ((recVer s r + 1) % 2 ^ 32) s).mem := rfl
  rw [recN_congr h, recN_setRec]
  have : (256 : Nat) ^ 4 = 2 ^ 32 := by decide
  rw [this, Nat.mod_mod]

theorem recN_bump_out (r : Nat) (c a p) (o k : Nat) (s : State) (h : o + k ≤ 44 ∨ 48 ≤ o) :
    recN (bump r c a p s) r o k = recN s r o k := by
  have e : (bump r c a p s).mem = (setRec r 44 4 ((recVer s r + 1) % 2 ^ 32) s).mem := rfl
  rw [recN_congr e]
  exact recN_setRec_out _ _ _ _ _ _ _ h

/-! ### A record that ends -/

theorem endCount_mem (sl r life reason : Nat) (s : State) : (endCount sl r life reason s).mem = s.mem := rfl

theorem recEnds_open {s : State} {r : Nat} (h : recOpen s r = true) (reason : Nat) : recEnds s r reason = true := by
  unfold recEnds
  rw [h]
  rfl

/-- Offering an export record leaves HBM. -/
theorem offerExport_mem (sl r reason : Nat) (a b c : Bool) (s : State) : (offerExport sl r reason a b c s).mem = s.mem :=
  (offerExport_keeps (Only.allows 10334902560 s) rfl _ _ _ _ _ _ _ (Only.refl _ s)).mem rfl

theorem endLife_life (sl r life : Nat) (h : life < 8) (s : State) : recLife (endLife sl r life s) r = life := by
  have k : recN (endLife sl r life s) r 42 1 = (recN s r 42 1 - recN s r 42 1 % 8 + life) % 256 := by
    unfold endLife
    dsimp only
    split
    · rw [recN_setRec_out _ _ _ _ _ _ _ (by omega), recN_setRec] <;> rfl
    · rw [recN_setRec] <;> rfl
  unfold recLife
  rw [k]
  have := recN_lt s r 42 1
  omega

theorem endLife_out (sl r life o k : Nat) (h : o + k ≤ 42 ∨ (43 ≤ o ∧ (o + k ≤ 64 ∨ 68 ≤ o))) (s : State) :
    recN (endLife sl r life s) r o k = recN s r o k := by
  unfold endLife
  dsimp only
  split
  · rw [recN_setRec_out _ _ _ _ _ _ _ (by omega), recN_setRec_out _ _ _ _ _ _ _ (by omega)]
  · rw [recN_setRec_out _ _ _ _ _ _ _ (by omega)]

/-- A record that ends in CLOSED and is not freed is closed, its version one higher, the rest of it as it was but fdisp. -/
theorem endRecord_closed' (sl r reason : Nat) (c : EndOpts) (hc : c.free = false) (s : State) (h : recOpen s r = true) :
    recLife (endRecord sl r lifeClosed reason c s) r = lifeClosed
      ∧ recVer (endRecord sl r lifeClosed reason c s) r = (recVer s r + 1) % 2 ^ 32
      ∧ ∀ o k, (o + k ≤ 42 ∨ (48 ≤ o ∧ (o + k ≤ 64 ∨ 68 ≤ o))) →
          recN (endRecord sl r lifeClosed reason c s) r o k = recN s r o k := by
  have E : (endRecord sl r lifeClosed reason c s).mem
      = (bump r c.cmd c.answer c.reply (endCount sl r lifeClosed reason (endLife sl r lifeClosed s))).mem := by
    unfold endRecord
    rw [recEnds_open h, hc]
    simp only [Bool.not_true, Bool.false_eq_true, if_false, Bool.false_or]
    rw [decide_eq_false (by decide : ¬lifeClosed = lifeAged), Bool.false_and, if_neg Bool.false_ne_true]
    split
    · exact offerExport_mem _ _ _ _ _ _ _
    · rfl
  have m1 : (endCount sl r lifeClosed reason (endLife sl r lifeClosed s)).mem = (endLife sl r lifeClosed s).mem := rfl
  refine ⟨?_, ?_, ?_⟩
  · have := endLife_life sl r lifeClosed (by decide) s
    unfold recLife at this ⊢
    rw [recN_congr E, recN_bump_out _ _ _ _ _ _ _ (by omega), recN_congr m1]
    exact this
  · unfold recVer
    rw [recN_congr E, recN_bump]
    unfold recVer
    rw [recN_congr m1, endLife_out _ _ _ _ _ (by omega)]
  · intro o k hk
    rw [recN_congr E, recN_bump_out _ _ _ _ _ _ _ (by omega), recN_congr m1, endLife_out _ _ _ _ _ (by omega)]

theorem endRecord_closed (sl r reason : Nat) (c : Option (Nat × Nat)) (s : State) (h : recOpen s r = true) :
    recLife (endRecord sl r lifeClosed reason { cmd := c } s) r = lifeClosed
      ∧ recVer (endRecord sl r lifeClosed reason { cmd := c } s) r = (recVer s r + 1) % 2 ^ 32
      ∧ ∀ o k, (o + k ≤ 42 ∨ (48 ≤ o ∧ (o + k ≤ 64 ∨ 68 ≤ o))) →
          recN (endRecord sl r lifeClosed reason { cmd := c } s) r o k = recN s r o k :=
  endRecord_closed' sl r reason { cmd := c } rfl s h

end Sys2Proof.Laws
end

