-- ==== Sys2Proof/Laws/Slices.lean ====
section
/-! SUPPORT. What the operations of an owner slice leave in its queues, its lines and its channels. -/

namespace Sys2Proof.Laws

open Sys2Proof.Machine

/-! ### Channels -/

@[simp] theorem chan_sendChan (sl p : Nat) (m : ChanMsg) (s : State) : chan (sendChan sl p m s) sl p = chan s sl p ++ [m] :=
  mget_mset_same _ _ _ _
theorem chan_sendChan_ne {sl p sl' p' : Nat} (h : 16 * sl + p ≠ 16 * sl' + p') (m : ChanMsg) (s : State) :
    chan (sendChan sl p m s) sl' p' = chan s sl' p' := mget_mset_ne _ _ h _
@[simp] theorem slice_sendChan (sl p : Nat) (m : ChanMsg) (s : State) (n : Nat) : slice (sendChan sl p m s) n = slice s n := rfl

@[simp] theorem chan_modSlice (n : Nat) (f) (s : State) (sl p : Nat) : chan (modSlice n f s) sl p = chan s sl p := rfl
@[simp] theorem chan_cntInc (o u e : Nat) (s : State) (sl p : Nat) : chan (cntInc o u e s) sl p = chan s sl p := rfl
@[simp] theorem chan_touchHot (n r : Nat) (s : State) (sl p : Nat) : chan (touchHot n r s) sl p = chan s sl p := by
  unfold touchHot modHot; dsimp only; rw [chan_modSlice, chan_modSlice]
@[simp] theorem touchHot_mem (n r : Nat) (s : State) : (touchHot n r s).mem = s.mem := by
  unfold touchHot modHot; dsimp only; rw [modSlice_mem, modSlice_mem]

/-! ### Slices -/

@[simp] theorem slice_cntInc (o u e : Nat) (s : State) (n : Nat) : slice (cntInc o u e s) n = slice s n := rfl

theorem slice_congr {s t : State} (h : t.flow = s.flow) (n : Nat) : slice t n = slice s n := by
  unfold slice; rw [h]

theorem slice_hbmPush (p : Nat) (q : HbmReq) (s : State) (n : Nat) : slice (hbmPush p q s) n = slice s n :=
  slice_congr ((hbmPush_keeps (Only.allows 10401880096 s) rfl p q _ (Only.refl _ s)).flow rfl) n

theorem cntGet_cntInc_ne {o u e o' u' e' : Nat} (h : cntKey o u e ≠ cntKey o' u' e') (s : State) :
    cntGet (cntInc o u e s) o' u' e' = cntGet s o' u' e' := cntGet_cntAdd_ne s _ _ _ _ _ _ _ h

/-- Pushing a request moves no counter but the panic cycles of HBM_CNT. -/
theorem cntGet_hbmPush (p : Nat) (q : HbmReq) (s : State) {o u e : Nat} (h : e % 2 ^ 28 ≠ 7) :
    cntGet (hbmPush p q s) o u e = cntGet s o u e := by
  have K : ∀ d, cntKey 0x0B81 d 7 ≠ cntKey o u e := by intro d; unfold cntKey; omega
  have C : ∀ (d : Nat) (f : Stack → Stack) (t : State), cntGet (modStack d f t) o u e = cntGet t o u e := fun _ _ _ => rfl
  have A : ∀ (d : Nat) (t : State), cntGet (panicCheck d t) o u e = cntGet t o u e := by
    intro d t
    unfold panicCheck; dsimp only
    split
    · rw [C]
    · split
      · rw [C]; unfold countPanic; dsimp only
        split
        · rw [C]; exact cntGet_cntAdd_ne _ _ _ _ _ _ _ _ (K d)
        · rfl
      · rfl
  unfold hbmPush
  exact each_inv _ (fun t => cntGet t o u e = cntGet s o u e) _ _ (fun d _ t ht => by rw [A, C]; exact ht) rfl

/-! ### Lines -/

theorem hotOf_dropHot (sl r : Nat) (s : State) : hotOf (dropHot sl r s) sl r = none := by
  unfold hotOf dropHot
  rw [slice_modSlice]
  dsimp only
  refine List.find?_eq_none.mpr ?_
  intro x hx
  have := (List.mem_filter.mp hx).2
  simpa using this

/-- A placeholder that is removed has no line. -/
theorem hotOf_removeNew {sl r : Nat} {l : Hot} {s : State} (h : hotOf s sl r = some l) (hl : l.life = lifeNew) (code : Nat) :
    hotOf (removeNew sl r code s) sl r = none := by
  have A : ∀ (t : State) (q : Req), slice (answerCode sl code q t) sl = slice t sl := by
    intro t q; unfold answerCode; dsimp only; rw [slice_sendChan]; split <;> rfl
  have C : ∀ (a b : Nat) (t : State), slice (clearIdx r a b t) sl = slice t sl := by
    intro a b t; unfold clearIdx; dsimp only
    exact each_inv _ (fun u => slice u sl = slice t sl) _ _ (fun _ _ _ h => h) rfl
  have R : ∀ (t : State), slice (returnNo r t) sl = slice t sl := fun _ => rfl
  unfold removeNew
  rw [h]
  dsimp only
  rw [if_neg (fun k => k hl)]
  unfold hotOf
  have : ∀ l u, slice (each l (answerCode sl code) u) sl = slice u sl := by
    intro l u
    exact each_inv _ (fun t => slice t sl = slice u sl) _ _ (fun q _ t ht => (A t q).trans ht) rfl
  rw [this, R, C]
  exact hotOf_dropHot sl r s

/-- Whether a record is committed depends on its half's numbers, on who serves it, and on its line's record and life. -/
theorem recLive_modSlice (sl : Nat) (f : Slice → Slice) (s : State) (r : Nat)
    (h : ∀ x, (f x).servesOwn = x.servesOwn ∧ (f x).hot = x.hot ∧ (f x).servesPartner = x.servesPartner) :
    recLive (modSlice sl f s) r = recLive s r := by
  have S : ∀ n, (slice (modSlice sl f s) n).servesOwn = (slice s n).servesOwn ∧ (slice (modSlice sl f s) n).hot = (slice s n).hot := by
    intro n
    by_cases e : sl = n
    · subst e; rw [slice_modSlice]; exact ⟨(h _).1, (h _).2.1⟩
    · rw [slice_modSlice_ne e]; exact ⟨rfl, rfl⟩
  unfold recLive recUsed recNew recOwner halfOwner
  have H : ∀ n, hotOf (modSlice sl f s) n r = hotOf s n r := by intro n; unfold hotOf; rw [(S n).2]
  rw [(S _).1]
  have : ∀ n, half (modSlice sl f s) n = half s n := fun _ => rfl
  rw [this]
  simp only [H]
  rfl

/-- Who owns a record depends on who serves its half. -/
theorem recOwner_modSlice (sl : Nat) (f : Slice → Slice) (s : State) (r : Nat) (h : ∀ x, (f x).servesOwn = x.servesOwn) :
    recOwner (modSlice sl f s) r = recOwner s r := by
  unfold recOwner halfOwner
  by_cases e : sl = recHalf r
  · subst e; rw [slice_modSlice, h]
  · rw [slice_modSlice_ne e]

theorem recNew_eq (s : State) (r : Nat) :
    recNew s r = (hotOf s (recOwner s r) r).any (fun x => decide (x.life = lifeNew)) := by
  unfold recNew
  cases hotOf s (recOwner s r) r <;> rfl

/-- A line's use mark changes nothing of whether a record is committed. -/
theorem recNew_modHot (sl k : Nat) (f : Hot → Hot) (s : State) (r : Nat) (h : ∀ l, (f l).life = l.life ∧ (f l).record = l.record) :
    recLive (modHot sl k f s) r = recLive s r := by
  have S : ∀ n, (slice (modHot sl k f s) n).servesOwn = (slice s n).servesOwn := by
    intro n; unfold modHot
    by_cases e : sl = n
    · subst e; rw [slice_modSlice]
    · rw [slice_modSlice_ne e]
  have F : ∀ (l : List Hot), ((l.map fun x => if x.record = k then f x else x).find? (fun x => decide (x.record = r))).any
      (fun x => decide (x.life = lifeNew)) = (l.find? (fun x => decide (x.record = r))).any (fun x => decide (x.life = lifeNew)) := by
    intro l
    induction l with
    | nil => rfl
    | cons a t ih =>
      have e1 : (if a.record = k then f a else a).record = a.record := by split; exact (h a).2; rfl
      have e2 : (if a.record = k then f a else a).life = a.life := by split; exact (h a).1; rfl
      rw [List.map_cons, List.find?_cons, List.find?_cons, e1]
      by_cases c : a.record = r
      · rw [decide_eq_true c]; dsimp only; rw [Option.any_some, Option.any_some, e2]
      · rw [decide_eq_false c]; exact ih
  have N : ∀ n, (hotOf (modHot sl k f s) n r).any (fun x => decide (x.life = lifeNew))
      = (hotOf s n r).any (fun x => decide (x.life = lifeNew)) := by
    intro n
    unfold hotOf modHot
    by_cases e : sl = n
    · subst e; rw [slice_modSlice]; exact F _
    · rw [slice_modSlice_ne e]
  have O : recOwner (modHot sl k f s) r = recOwner s r := by unfold recOwner halfOwner; rw [S]
  unfold recLive
  rw [recNew_eq, recNew_eq, O, N]
  rfl

theorem recLive_touch (sl k r : Nat) (s : State) :
    recLive (touchHot sl k s) r = recLive s r := by
  unfold touchHot
  dsimp only
  refine (recNew_modHot _ _ _ _ _ ?_).trans ?_
  · intro l; exact ⟨rfl, rfl⟩
  exact recLive_modSlice _ _ _ _ (fun x => ⟨rfl, rfl, rfl⟩)

theorem recLive_congr {s t : State} (hf : t.flow = s.flow) (hp : t.part = s.part) (r : Nat) : recLive t r = recLive s r := by
  unfold recLive recUsed recNew hotOf recOwner halfOwner slice half
  rw [hf, hp]

/-- Bringing a line into step changes nothing of whether a record is committed but the line's own life. -/
theorem syncHot_mem (r : Nat) (s : State) : (syncHot r s).mem = s.mem := by
  unfold syncHot modHot; rw [modSlice_mem]

/-- The line of a record after a change of it that keeps the record. -/
theorem hotOf_modHot (sl r : Nat) (f : Hot → Hot) (s : State) (h : ∀ l, (f l).record = l.record) :
    hotOf (modHot sl r f s) sl r = (hotOf s sl r).map f := by
  unfold hotOf modHot
  rw [slice_modSlice]
  dsimp only
  induction (slice s sl).hot with
  | nil => rfl
  | cons a t ih =>
    rw [List.map_cons, List.find?_cons, List.find?_cons]
    by_cases c : a.record = r
    · rw [if_pos c, h a, decide_eq_true c]; rfl
    · rw [if_neg c, decide_eq_false c]; exact ih

/-- Ending a record's pulls leaves the flow part but the pulls. -/
theorem dropPulls_flow (sl r : Nat) (s : State) :
    (dropPulls sl r s).flow = (modSlice sl (fun x => { x with pulls := x.pulls.filter fun p => p.record ≠ r }) s).flow := by
  unfold dropPulls
  dsimp only
  exact each_inv _ (fun t => t.flow = _) _ _
    (fun q _ t h => ((replyCore_keeps (Only.allows 2099200 t) rfl _ _ _ t (Only.refl _ t)).flow rfl).trans h) rfl

/-- A freed record is not committed. -/
theorem freeRecord_dead {sl r : Nat} {s : State} (h : recLive s r = true) : recLive (freeRecord sl r s) r = false := by
  unfold freeRecord
  rw [h]
  dsimp only
  rw [if_neg (by decide)]
  generalize clearIdx r _ _ _ = u
  have H : ∀ (v : Nat) (w : State), half (setEnd r v (dropPulls sl r w)) (recHalf r) = half w (recHalf r) := by
    intro v w
    unfold half setEnd
    rw [dropPulls_flow]
    rfl
  have G : ∀ (f : Slice → Slice) (w : State) (a b c), half { (modSlice sl f w) with
      flow := { (modSlice sl f w).flow with finReply := a, endWhy := b, bindExport := c } } (recHalf r) = half w (recHalf r) :=
    fun _ _ _ _ _ => rfl
  have M : ∀ (n : Nat) (l : List Nat), (insNo n l).contains n = true := by
    intro n l
    induction l with
    | nil => simp [insNo]
    | cons a t ih =>
      unfold insNo
      split
      · rw [List.contains_cons, ih, Bool.or_true]
      · split
        · rename_i e; simp [e]
        · simp
  unfold recLive recUsed
  dsimp only
  rw [H, G]
  unfold returnNo
  rw [half_modHalf]
  dsimp only
  rw [M]
  simp

/-- A number written with a field of one bit cleared has that bit clear, in as many bytes as hold it. -/
theorem bit_setFld_zero (x i n : Nat) (h : i < 8 * n) : bit (setFld x i i 0 % 256 ^ n) i = false := by
  have e : (256 : Nat) ^ n = 2 ^ (8 * n) := by rw [show (256 : Nat) = 2 ^ 8 from rfl, ← Nat.pow_mul]
  have c : (setFld x i i 0).testBit i = false := by
    have hr : x % 2 ^ i < 2 ^ i := Nat.mod_lt _ (Nat.two_pow_pos i)
    have k : setFld x i i 0 = 2 ^ i * (2 * (x >>> (i + 1))) + x % 2 ^ i := by
      unfold setFld
      rw [Nat.shiftLeft_eq, Nat.zero_mod, Nat.zero_shiftLeft, Nat.add_zero, Nat.pow_succ]
      generalize x >>> (i + 1) = q
      rw [Nat.mul_comm q, Nat.mul_assoc]
    rw [k, Nat.testBit_eq_decide_div_mod_eq, Nat.mul_add_div (Nat.two_pow_pos i), Nat.div_eq_of_lt hr, Nat.add_zero,
      Nat.mul_mod_right]
    rfl
  rw [e]
  unfold bit
  rw [Nat.testBit_mod_two_pow, c, Bool.and_false]

theorem ctNext_lt {st : Nat} {r : Bool} {f : Option Nat} (h : st < 16) : ctNext st r f < 16 := by
  unfold ctNext
  dsimp only
  repeat' split
  all_goals omega

/-- The age of a record over a change of a slice that keeps who serves what and the lines. -/
theorem ageSeen_modSlice (sl : Nat) (f : Slice → Slice) (s : State) (r : Nat)
    (h : ∀ x, (f x).servesOwn = x.servesOwn ∧ (f x).hot = x.hot ∧ (f x).servesPartner = x.servesPartner) :
    ageSeen (modSlice sl f s) r = ageSeen s r := by
  have S : ∀ n, (slice (modSlice sl f s) n).servesOwn = (slice s n).servesOwn ∧ (slice (modSlice sl f s) n).hot = (slice s n).hot := by
    intro n
    by_cases e : sl = n
    · subst e; rw [slice_modSlice]; exact ⟨(h _).1, (h _).2.1⟩
    · rw [slice_modSlice_ne e]; exact ⟨rfl, rfl⟩
  have O : ∀ q, recOwner (modSlice sl f s) q = recOwner s q := by intro q; unfold recOwner halfOwner; rw [(S _).1]
  have H : ∀ n q, hotOf (modSlice sl f s) n q = hotOf s n q := by intro n q; unfold hotOf; rw [(S _).2]
  have N : ∀ q, seenOf (modSlice sl f s) q = seenOf s q := by
    intro q; unfold seenOf; rw [O, H]; rfl
  have P : peerOf (modSlice sl f s) r = peerOf s r := by
    unfold peerOf; dsimp only
    rw [recLive_modSlice sl f s _ h]; rfl
  unfold ageSeen
  simp only [N, P]
  rfl

/-- A task made leaves who serves what, and the channels. -/
theorem makeTask_serves (n : Nat) (k : Task) (s : State) :
    (∀ a, (slice (makeTask n k s) a).transfer = (slice s a).transfer ∧ (slice (makeTask n k s) a).servesOwn = (slice s a).servesOwn
      ∧ (slice (makeTask n k s) a).servesPartner = (slice s a).servesPartner) ∧ ∀ a p, chan (makeTask n k s) a p = chan s a p := by
  have F : ∀ u v : State, u.flow = v.flow → (∀ a, slice u a = slice v a) ∧ ∀ a p, chan u a p = chan v a p :=
    fun u v h => ⟨slice_congr h, fun a p => by unfold chan; rw [h]⟩
  unfold makeTask
  dsimp only
  split
  · unfold placeTask
    dsimp only
    generalize (if true = true then renewOperand n k s else k) = q
    rename_i m _
    have A : ∀ u : State, (noteClass n q.cls (joinLock n m u)).flow = u.flow := fun u =>
      ((noteClass_keeps (Only.allows 2048 _) rfl _ _ _ (Only.refl _ _)).flow rfl).trans
        ((joinLock_keeps (Only.allows 2099200 u) rfl _ _ u (Only.refl _ u)).flow rfl)
    have B : ∀ u : State, (match q.pkt with
        | some p => retag p (ownerTag 9 (n % 2)) (modPkt p (fun x => { x with task := true }) u)
        | none => u).flow = u.flow := by
      intro u
      split
      · exact (retag_keeps (Only.allows 10338965792 _) rfl _ _ _ (Only.refl _ _)).flow rfl
      · rfl
    have C : ∀ u : State, u.flow = s.flow →
        (∀ a, (slice (if q.kind = 1 then modSlice n (fun x => { x with
            hot := x.hot.map fun l => if l.record = q.record then { l with task := some m } else l }) u else u) a).transfer
            = (slice s a).transfer
          ∧ (slice (if q.kind = 1 then modSlice n (fun x => { x with
            hot := x.hot.map fun l => if l.record = q.record then { l with task := some m } else l }) u else u) a).servesOwn
            = (slice s a).servesOwn
          ∧ (slice (if q.kind = 1 then modSlice n (fun x => { x with
            hot := x.hot.map fun l => if l.record = q.record then { l with task := some m } else l }) u else u) a).servesPartner
            = (slice s a).servesPartner)
        ∧ ∀ a p, chan (if q.kind = 1 then modSlice n (fun x => { x with
            hot := x.hot.map fun l => if l.record = q.record then { l with task := some m } else l }) u else u) a p = chan s a p := by
      intro u h
      obtain ⟨h1, h2⟩ := F u s h
      split
      · refine ⟨fun a => ?_, fun a p => (chan_modSlice _ _ _ _ _).trans (h2 a p)⟩
        by_cases e : n = a
        · subst e
          rw [slice_modSlice, h1]
          exact ⟨rfl, rfl, rfl⟩
        · rw [slice_modSlice_ne e, h1]
          exact ⟨rfl, rfl, rfl⟩
      · exact ⟨fun a => by rw [h1]; exact ⟨rfl, rfl, rfl⟩, h2⟩
    obtain ⟨c1, c2⟩ := C _ (B (tskCnt n (if true = true then 0 else 1)
      (modTask n m (fun _ => { q with state := tskWaiting, made := s.now, stamp := stampNow s }) s)))
    obtain ⟨a1, a2⟩ := F _ _ (A _)
    exact ⟨fun a => by rw [a1]; exact c1 a, fun a p => by rw [a2]; exact c2 a p⟩
  · exact ⟨fun a => ⟨rfl, rfl, rfl⟩, fun a p => rfl⟩

/-- Moving a half's work over leaves who serves what, and the channels. -/
theorem moveHalf_ok {src dst : Nat} (h : dst ≠ src) (hf : Nat) (s : State) :
    ((slice (moveHalf src dst hf s) src).transfer = (slice s src).transfer
      ∧ (slice (moveHalf src dst hf s) src).servesOwn = (slice s src).servesOwn
      ∧ (slice (moveHalf src dst hf s) src).servesPartner = (slice s src).servesPartner)
    ∧ ((slice (moveHalf src dst hf s) dst).servesOwn = (slice s dst).servesOwn
      ∧ (slice (moveHalf src dst hf s) dst).servesPartner = (slice s dst).servesPartner)
    ∧ ∀ p, chan (moveHalf src dst hf s) src p = chan s src p := by
  have W : ∀ (l : List Nat) (f : List Waiting → List Waiting) (u : State),
      (∀ n, slice (each l (fun p t => modWaitings p f t) u) n = slice u n)
      ∧ ∀ p, chan (each l (fun p t => modWaitings p f t) u) src p = chan u src p := by
    intro l f u
    exact ⟨fun n => each_inv _ (fun t => slice t n = slice u n) _ _ (fun _ _ _ k => k) rfl,
      fun p => each_inv _ (fun t => chan t src p = chan u src p) _ _ (fun _ _ _ k => k) rfl⟩
  have T : ∀ (l : List Task) (u : State),
      (∀ a, (slice (each l (makeTask dst) u) a).transfer = (slice u a).transfer
        ∧ (slice (each l (makeTask dst) u) a).servesOwn = (slice u a).servesOwn
        ∧ (slice (each l (makeTask dst) u) a).servesPartner = (slice u a).servesPartner)
      ∧ ∀ a p, chan (each l (makeTask dst) u) a p = chan u a p := by
    intro l u
    refine each_inv (makeTask dst) (fun t => (∀ a, (slice t a).transfer = (slice u a).transfer
        ∧ (slice t a).servesOwn = (slice u a).servesOwn ∧ (slice t a).servesPartner = (slice u a).servesPartner)
      ∧ ∀ a p, chan t a p = chan u a p) l u (fun k _ t h => ?_) ⟨fun _ => ⟨rfl, rfl, rfl⟩, fun _ _ => rfl⟩
    obtain ⟨m1, m2⟩ := makeTask_serves dst k t
    exact ⟨fun a => ⟨(m1 a).1.trans (h.1 a).1, (m1 a).2.1.trans (h.1 a).2.1, (m1 a).2.2.trans (h.1 a).2.2⟩,
      fun a p => (m2 a p).trans (h.2 a p)⟩
  unfold moveHalf
  dsimp only
  generalize hv : modTsk _ _ = v
  rw [((T _ v).1 src).1, ((T _ v).1 src).2.1, ((T _ v).1 src).2.2, ((T _ v).1 dst).2.1, ((T _ v).1 dst).2.2]
  have V : ∀ p, chan v src p = chan s src p := by
    intro p
    subst hv
    exact (W _ _ _).2 p
  have V2 : ∀ u : State, ∀ f n, slice (modTsk f u) n = slice u n := fun _ _ _ => rfl
  refine ⟨?_, ?_, fun p => ((T _ v).2 src p).trans (V p)⟩
  all_goals subst hv; rw [V2]
  · rw [(W _ _ _).1, slice_modSlice_ne h, slice_modSlice]
    exact ⟨rfl, rfl, rfl⟩
  · rw [(W _ _ _).1, slice_modSlice, slice_modSlice_ne (Ne.symm h)]
    exact ⟨rfl, rfl⟩

/-- A committed record is committed still after its line was brought into step, where its life is not NEW. -/
theorem recLive_syncHot {r : Nat} {s : State} (h : recLive s r = true) (hl : recLife s r ≠ lifeNew) :
    recLive (syncHot r s) r = true := by
  have O : recOwner (syncHot r s) r = recOwner s r := by
    unfold recOwner halfOwner
    have : (slice (syncHot r s) (recHalf r)).servesOwn = (slice s (recHalf r)).servesOwn := by
      unfold syncHot modHot
      by_cases e : recOwner s r = recHalf r
      · rw [e, slice_modSlice]
      · rw [slice_modSlice_ne e]
    rw [this]
  have U : recUsed (syncHot r s) r = recUsed s r := rfl
  unfold recLive at h ⊢
  rw [recNew_eq] at h ⊢
  rw [O, U]
  unfold syncHot
  rw [hotOf_modHot]
  · revert h
    cases hotOf s (recOwner s r) r with
    | none => exact id
    | some l =>
      intro h
      rw [Option.any_some] at h
      rw [Option.map_some, Option.any_some]
      by_cases e : l.life = lifeNew
      · rw [decide_eq_true e] at h; simp at h
      · rw [if_neg e]
        dsimp only
        rw [decide_eq_false hl]
        rw [decide_eq_false e] at h
        exact h
  · intro l; split <;> rfl

/-! ### Requests of firmware -/

@[simp] theorem coreOf_modSl (sl : Nat) (f) (s : State) (c : Nat) : coreOf (modSlice sl f s) c = coreOf s c := rfl

/-- A working owner takes the request at the front of its queue, when the row is that request's. -/
theorem wkRow_takes {sl op : Nat} {q : WkReq} {rest : List WkReq} {s : State} (hs : sliceOn s sl = true)
    (hw : (slice s sl).wk = q :: rest) (ho : fld q.req 7 0 = op) (f : WkReq → State → State) :
    wkRow sl op f s = f q (modSlice sl (fun x => { x with wk := rest }) s) := by
  unfold wkRow takeWk
  rw [hw]
  dsimp only
  rw [if_pos ⟨ho, hs⟩]

theorem hotOf_rest (sl : Nat) (rest : List WkReq) (s : State) (n r : Nat) :
    hotOf (modSlice sl (fun x => { x with wk := rest }) s) n r = hotOf s n r := by
  unfold hotOf
  by_cases e : sl = n
  · rw [e, slice_modSlice]
  · rw [slice_modSlice_ne e]

theorem wkPlaceholder_rest (sl n : Nat) (rest : List WkReq) (q : WkReq) (s : State) :
    wkPlaceholder n q (modSlice sl (fun x => { x with wk := rest }) s) = wkPlaceholder n q s := by
  have T : wkTask (modSlice sl (fun x => { x with wk := rest }) s) q = wkTask s q := rfl
  unfold wkPlaceholder
  dsimp only
  rw [T, hotOf_rest]

theorem wkRecord_rest (sl : Nat) (rest : List WkReq) (q : WkReq) (b : Bool) (s : State) :
    wkRecord q b (modSlice sl (fun x => { x with wk := rest }) s) = wkRecord q b s := by
  have T : wkTask (modSlice sl (fun x => { x with wk := rest }) s) q = wkTask s q := rfl
  have K : ∀ r, recKeyLen (modSlice sl (fun x => { x with wk := rest }) s) r = recKeyLen s r := fun _ => rfl
  unfold wkRecord
  dsimp only
  rw [T, K, recLive_modSlice sl (fun x => { x with wk := rest }) s _ (fun x => ⟨rfl, rfl, rfl⟩)]

/-- What a placeholder a request may act on is: the NEW line of its task's record. -/
theorem wkPlaceholder_line {sl : Nat} {q : WkReq} {l : Hot} {s : State} (h : wkPlaceholder sl q s = .ok l) :
    hotOf s sl l.record = some l ∧ l.life = lifeNew := by
  unfold wkPlaceholder at h
  dsimp only at h
  split at h
  · cases h
  · split at h
    · cases h
    · split at h
      · rename_i m hm
        split at h
        · rename_i c
          cases h
          have : l.record = (wkTask s q).record := by
            have := List.find?_some hm
            simpa using this
          rw [this]
          exact ⟨hm, c.1⟩
        · cases h
      · cases h

theorem wkRecord_live {q : WkReq} {b : Bool} {r : Nat} {s : State} (h : wkRecord q b s = .ok r) : recLive s r = true := by
  unfold wkRecord at h
  dsimp only at h
  split at h
  · cases h
  · split at h
    · rename_i c; cases h; exact c.2.1
    · cases h

theorem forgetPasses_slice (k : Nat) (s : State) (n : Nat) : slice (forgetPasses k s) n = slice s n := by
  have D : ∀ t : State, (dropWaiters k t).flow = t.flow := fun t =>
    (dropWaiters_keeps (Only.allows 4196352 t) rfl k t (Only.refl _ t)).flow rfl
  have Y : ∀ (p : Nat) (t : State), slice (syncSpec p t) n = slice t n := fun _ _ => rfl
  unfold forgetPasses
  split
  · rfl
  · dsimp only
    rw [Y, slice_congr (D _)]
    rfl

theorem wkOutcome_mem (q : WkReq) (b : Bool) (s : State) : (wkOutcome q b s).mem = s.mem :=
  (wkOutcome_keeps (Only.allows 10341497120 s) rfl q b s (Only.refl _ s)).mem rfl

theorem hotOf_wkOutcome (q : WkReq) (b : Bool) (s : State) (sl r : Nat) : hotOf (wkOutcome q b s) sl r = hotOf s sl r := by
  have L : ∀ p t, slice (leaveEpoch p t) sl = slice t sl := fun p t =>
    slice_congr ((leaveEpoch_keeps (Only.allows 10334812448 t) rfl p t (Only.refl _ t)).flow rfl) sl
  unfold hotOf
  have : slice (wkOutcome q b s) sl = slice s sl := by
    unfold wkOutcome
    dsimp only
    have T : ∀ x y f t, slice (modTask x y f t) sl = slice t sl := fun _ _ _ _ => rfl
    rw [T]
    split
    · split
      · rfl
      · rw [forgetPasses_slice, L]
    · rfl
  rw [this]

theorem coreOf_wkOutcome (q : WkReq) (b : Bool) (s : State) (c : Nat) : coreOf (wkOutcome q b s) c = coreOf s c := by
  have L : ∀ p t, coreOf (forgetPasses p (leaveEpoch p t)) c = coreOf t c := by
    intro p t
    have a : (forgetPasses p (leaveEpoch p t)).tsk = (leaveEpoch p t).tsk :=
      (forgetPasses_keeps (Only.allows 4589568 (leaveEpoch p t)) rfl p _ (Only.refl _ _)).tsk rfl
    have b : (leaveEpoch p t).tsk = t.tsk := (leaveEpoch_keeps (Only.allows 10334812448 t) rfl p t (Only.refl _ t)).tsk rfl
    unfold coreOf
    rw [a, b]
  unfold wkOutcome
  dsimp only
  have T : ∀ x y f t, coreOf (modTask x y f t) c = coreOf t c := fun _ _ _ _ => rfl
  rw [T]
  split
  · split
    · rfl
    · rw [L]
  · rfl

theorem recImage_modSlice (sl : Nat) (f : Slice → Slice) (s : State) (r : Nat)
    (h : ∀ x, (f x).servesOwn = x.servesOwn ∧ (f x).hot = x.hot ∧ (f x).servesPartner = x.servesPartner) :
    recImage (modSlice sl f s) r = recImage s r := by
  have S : ∀ n, (slice (modSlice sl f s) n).servesOwn = (slice s n).servesOwn ∧ (slice (modSlice sl f s) n).hot = (slice s n).hot := by
    intro n
    by_cases e : sl = n
    · subst e; rw [slice_modSlice]; exact ⟨(h _).1, (h _).2.1⟩
    · rw [slice_modSlice_ne e]; exact ⟨rfl, rfl⟩
  have O : recOwner (modSlice sl f s) r = recOwner s r := by unfold recOwner halfOwner; rw [(S _).1]
  have H : ∀ n, hotOf (modSlice sl f s) n r = hotOf s n r := by intro n; unfold hotOf; rw [(S _).2]
  unfold recImage
  dsimp only
  rw [O, H]
  rfl

/-! ### Bytes of a record written whole -/

/-- A field as wide as the bytes it is stored in. -/
theorem fld_mod_bytes (x hi lo n : Nat) (h : hi + 1 - lo = 8 * n) : fld x hi lo % 256 ^ n = fld x hi lo := by
  refine Nat.mod_eq_of_lt ?_
  unfold fld
  rw [h, show (256 : Nat) = 2 ^ 8 from rfl, ← Nat.pow_mul]
  exact Nat.mod_lt _ (Nat.two_pow_pos _)
theorem fld_mod_pow (x hi lo n : Nat) (h : hi + 1 - lo = n) : fld x hi lo % 2 ^ n = fld x hi lo := by
  subst h
  exact Nat.mod_mod _ _

theorem wrBytes_append (x y : List Byte) : ∀ (m : List Host.Cell) (a : Nat), wrBytes m a (x ++ y) = wrBytes (wrBytes m a x) (a + x.length) y := by
  induction x with
  | nil => intro m a; rfl
  | cons b r ih =>
    intro m a
    show wrBytes (wr8 m a b) (a + 1) (r ++ y) = wrBytes (wrBytes (wr8 m a b) (a + 1) r) (a + (r.length + 1)) y
    rw [ih, Nat.add_assoc, Nat.add_comm 1]

/-- A field among bytes written reads as written. -/
theorem rdN_field (m : List Host.Cell) (a n v : Nat) (x y : List Byte) :
    rdN (wrBytes m a (x ++ (leBytes n v ++ y))) (a + x.length) n = v % 256 ^ n := by
  rw [wrBytes_append, wrBytes_append, leBytes_length]
  have o : rdN (wrBytes (wrBytes (wrBytes m a x) (a + x.length) (leBytes n v)) (a + x.length + n) y) (a + x.length) n
      = rdN (wrBytes (wrBytes m a x) (a + x.length) (leBytes n v)) (a + x.length) n := by
    unfold rdN
    rw [rdBytes_congr]
    intro z h1 h2
    exact rd8_wrBytes_out _ _ _ _ (Or.inl (by omega))
  rw [o]
  exact rdN_wrN _ _ _ _

@[simp] theorem takeBytes_length (l : List Byte) (i n : Nat) : (takeBytes l i n).length = n := by
  unfold takeBytes
  dsimp only
  rw [List.length_append, List.length_replicate, List.length_take]
  omega

theorem rdBytes_first (m : List Host.Cell) (a : Nat) (x y : List Byte) : rdBytes (wrBytes m a (x ++ y)) a x.length = x := by
  rw [wrBytes_append]
  have o : rdBytes (wrBytes (wrBytes m a x) (a + x.length) y) a x.length = rdBytes (wrBytes m a x) a x.length := by
    rw [rdBytes_congr]
    intro z h1 h2
    exact rd8_wrBytes_out _ _ _ _ (Or.inl (by omega))
  rw [o]
  exact rdBytes_wrBytes _ _ _

/-- What committing a placeholder leaves of its record. -/
theorem commitNew_ok (sl r : Nat) (n : NewRec) (rp : Option (Nat × Nat × List (Nat × Nat))) (s : State) :
    recAction (commitNew sl r n rp s) r = n.action % 2 ^ 256
    ∧ recFlags48 (commitNew sl r n rp s) r % 32 = n.flags % 32
    ∧ recVer (commitNew sl r n rp s) r = (recVer s r + 1) % 2 ^ 32
    ∧ recKey (commitNew sl r n rp s) r = takeBytes n.key 0 40
    ∧ recProf (commitNew sl r n rp s) r = n.prof % 16
    ∧ recN (commitNew sl r n rp s) r 144 48 = n.fw % 256 ^ 48
    ∧ (∀ l, n.life = some l → l < 8 → recLife (commitNew sl r n rp s) r = l) := by
  have CM : ∃ q u, commitNew sl r n rp s = bump r none q rp u ∧ u.mem = (writeRecord r n s).mem := by
    unfold commitNew commitLine
    dsimp only
    split
    · exact ⟨_, _, rfl, cntInc_mem _ _ _ _⟩
    · exact ⟨_, _, rfl, (cntInc_mem _ _ _ _).trans (modSlice_mem _ _ _)⟩
  obtain ⟨q, u, E, M⟩ := CM
  rw [E]
  have WM : ∃ life ct fl, (writeRecord r n s).mem = wrBytes s.mem (recAddr r) (takeBytes n.key 0 40 ++ leBytes 1 (n.prof % 16 + n.kind % 4 * 16)
      ++ leBytes 1 n.keyLen ++ leBytes 1 (life + b2n n.dir * 8 + n.ctProf % 16 * 16) ++ leBytes 1 ct ++ leBytes 4 (recVer s r) ++ leBytes 4 fl
      ++ leBytes 4 n.peer ++ leBytes 4 (msNow s) ++ leBytes 4 (msNow s) ++ leBytes 32 n.action ++ leBytes 32 0 ++ leBytes 2 n.bgen
      ++ leBytes 2 (n.bgrp % 8192) ++ leBytes 4 n.binding ++ leBytes 4 0 ++ leBytes 4 0 ++ leBytes 48 n.fw ++ leBytes 64 n.area2)
      ∧ fl % 32 = n.flags % 32 ∧ ∀ l, n.life = some l → life = l := by
    have fl32 : ∀ b : Bool, (if b then Nat.lor n.flags 32 else n.flags) % 32 = n.flags % 32 := by
      intro b
      cases b
      · rfl
      · show (n.flags ||| 32) % 2 ^ 5 = n.flags % 2 ^ 5
        rw [Nat.or_mod_two_pow]
        simp
    have gl : ∀ d l, n.life = some l → n.life.getD d = l := by intro d l h; rw [h]; rfl
    have se : ∀ v w, (setEnd r v w).mem = w.mem := fun _ _ => rfl
    have bw : ∀ a l w, (blockWrite a l w).mem = wrBytes w.mem a l := fun _ _ _ => rfl
    unfold writeRecord
    dsimp only
    rw [se, bw]
    exact ⟨_, _, _, rfl, fl32 _, gl _⟩
  obtain ⟨life, ct, fl, WM, F, L⟩ := WM
  have V44 : recVer u r = recVer s r := by
    unfold recVer recN
    rw [M, WM]
    have := rdN_field s.mem (recAddr r) 4 (recVer s r) (takeBytes n.key 0 40 ++ leBytes 1 (n.prof % 16 + n.kind % 4 * 16)
      ++ leBytes 1 n.keyLen ++ leBytes 1 (life + b2n n.dir * 8 + n.ctProf % 16 * 16) ++ leBytes 1 ct) (leBytes 4 fl
      ++ leBytes 4 n.peer ++ leBytes 4 (msNow s) ++ leBytes 4 (msNow s) ++ leBytes 32 n.action ++ leBytes 32 0 ++ leBytes 2 n.bgen
      ++ leBytes 2 (n.bgrp % 8192) ++ leBytes 4 n.binding ++ leBytes 4 0 ++ leBytes 4 0 ++ leBytes 48 n.fw ++ leBytes 64 n.area2)
    simp only [List.length_append, leBytes_length, takeBytes_length, List.append_assoc] at this ⊢
    rw [this]
    exact Nat.mod_eq_of_lt (recN_lt s r 44 4)
  refine ⟨?_, ?_, ?_, ?_, ?_, ?_, fun l hl h8 => ?_⟩
  · unfold recAction
    rw [recN_bump_out _ _ _ _ _ _ _ (by omega)]
    unfold recN
    rw [M, WM]
    have := rdN_field s.mem (recAddr r) 32 n.action (takeBytes n.key 0 40 ++ leBytes 1 (n.prof % 16 + n.kind % 4 * 16)
      ++ leBytes 1 n.keyLen ++ leBytes 1 (life + b2n n.dir * 8 + n.ctProf % 16 * 16) ++ leBytes 1 ct ++ leBytes 4 (recVer s r) ++ leBytes 4 fl
      ++ leBytes 4 n.peer ++ leBytes 4 (msNow s) ++ leBytes 4 (msNow s)) (leBytes 32 0 ++ leBytes 2 n.bgen
      ++ leBytes 2 (n.bgrp % 8192) ++ leBytes 4 n.binding ++ leBytes 4 0 ++ leBytes 4 0 ++ leBytes 48 n.fw ++ leBytes 64 n.area2)
    simp only [List.length_append, leBytes_length, takeBytes_length, List.append_assoc] at this ⊢
    rw [this, show (256 : Nat) = 2 ^ 8 from rfl, ← Nat.pow_mul] <;> rfl
  · unfold recFlags48
    rw [recN_bump_out _ _ _ _ _ _ _ (by omega)]
    unfold recN
    rw [M, WM]
    have := rdN_field s.mem (recAddr r) 4 fl (takeBytes n.key 0 40 ++ leBytes 1 (n.prof % 16 + n.kind % 4 * 16)
      ++ leBytes 1 n.keyLen ++ leBytes 1 (life + b2n n.dir * 8 + n.ctProf % 16 * 16) ++ leBytes 1 ct ++ leBytes 4 (recVer s r)) (leBytes 4 n.peer
      ++ leBytes 4 (msNow s) ++ leBytes 4 (msNow s) ++ leBytes 32 n.action ++ leBytes 32 0 ++ leBytes 2 n.bgen
      ++ leBytes 2 (n.bgrp % 8192) ++ leBytes 4 n.binding ++ leBytes 4 0 ++ leBytes 4 0 ++ leBytes 48 n.fw ++ leBytes 64 n.area2)
    simp only [List.length_append, leBytes_length, takeBytes_length, List.append_assoc] at this ⊢
    rw [this, ← F]
    omega
  · have := recN_bump r none q rp u
    unfold recVer at this ⊢ V44
    rw [this, V44]
  · unfold recKey
    have B : rdBytes (bump r none q rp u).mem (recAddr r) 40 = rdBytes u.mem (recAddr r) 40 := by
      have e : (bump r none q rp u).mem = (setRec r 44 4 ((recVer u r + 1) % 2 ^ 32) u).mem := rfl
      rw [e]
      refine rdBytes_congr _ _ _ _ (fun z h1 h2 => ?_)
      unfold setRec wrN
      exact rd8_wrBytes_out _ _ _ _ (Or.inl (by omega))
    rw [B, M, WM]
    simp only [List.append_assoc]
    have := rdBytes_first s.mem (recAddr r) (takeBytes n.key 0 40)
    rw [takeBytes_length] at this
    exact this _
  · unfold recProf
    rw [recN_bump_out _ _ _ _ _ _ _ (by omega)]
    unfold recN
    rw [M, WM]
    have := rdN_field s.mem (recAddr r) 1 (n.prof % 16 + n.kind % 4 * 16) (takeBytes n.key 0 40) (leBytes 1 n.keyLen
      ++ leBytes 1 (life + b2n n.dir * 8 + n.ctProf % 16 * 16) ++ leBytes 1 ct ++ leBytes 4 (recVer s r) ++ leBytes 4 fl ++ leBytes 4 n.peer
      ++ leBytes 4 (msNow s) ++ leBytes 4 (msNow s) ++ leBytes 32 n.action ++ leBytes 32 0 ++ leBytes 2 n.bgen
      ++ leBytes 2 (n.bgrp % 8192) ++ leBytes 4 n.binding ++ leBytes 4 0 ++ leBytes 4 0 ++ leBytes 48 n.fw ++ leBytes 64 n.area2)
    simp only [List.length_append, leBytes_length, takeBytes_length, List.append_assoc] at this ⊢
    rw [this]
    omega
  · rw [recN_bump_out _ _ _ _ _ _ _ (by omega)]
    unfold recN
    rw [M, WM]
    have := rdN_field s.mem (recAddr r) 48 n.fw (takeBytes n.key 0 40 ++ leBytes 1 (n.prof % 16 + n.kind % 4 * 16)
      ++ leBytes 1 n.keyLen ++ leBytes 1 (life + b2n n.dir * 8 + n.ctProf % 16 * 16) ++ leBytes 1 ct ++ leBytes 4 (recVer s r) ++ leBytes 4 fl
      ++ leBytes 4 n.peer ++ leBytes 4 (msNow s) ++ leBytes 4 (msNow s) ++ leBytes 32 n.action ++ leBytes 32 0 ++ leBytes 2 n.bgen
      ++ leBytes 2 (n.bgrp % 8192) ++ leBytes 4 n.binding ++ leBytes 4 0 ++ leBytes 4 0) (leBytes 64 n.area2)
    simp only [List.length_append, leBytes_length, takeBytes_length, List.append_assoc] at this ⊢
    rw [this]
  · have hl' := L l hl
    unfold recLife
    rw [recN_bump_out _ _ _ _ _ _ _ (by omega)]
    unfold recN
    rw [M, WM]
    have := rdN_field s.mem (recAddr r) 1 (life + b2n n.dir * 8 + n.ctProf % 16 * 16) (takeBytes n.key 0 40 ++ leBytes 1 (n.prof % 16 + n.kind % 4 * 16)
      ++ leBytes 1 n.keyLen) (leBytes 1 ct ++ leBytes 4 (recVer s r) ++ leBytes 4 fl ++ leBytes 4 n.peer
      ++ leBytes 4 (msNow s) ++ leBytes 4 (msNow s) ++ leBytes 32 n.action ++ leBytes 32 0 ++ leBytes 2 n.bgen
      ++ leBytes 2 (n.bgrp % 8192) ++ leBytes 4 n.binding ++ leBytes 4 0 ++ leBytes 4 0 ++ leBytes 48 n.fw ++ leBytes 64 n.area2)
    simp only [List.length_append, leBytes_length, takeBytes_length, List.append_assoc] at this ⊢
    rw [this]
    omega

/-! ### A record that ages -/

/-- A record without export, no end record of which waits, is freed at once when it ages. -/
theorem endRecord_aged (sl r reason : Nat) (o : EndOpts) (ho : o.free = false) (s : State) (h : recOpen s r = true)
    (hq : endWaits s sl r = false) (hx : bit (recFlags48 s r) 1 = false) : recLive (endRecord sl r lifeAged reason o s) r = false := by
  have hl : recLive s r = true := by unfold recOpen at h; rw [Bool.and_eq_true] at h; exact h.1
  generalize hw : endCount sl r lifeAged reason (endLife sl r lifeAged s) = w
  have WM : w.mem = (endLife sl r lifeAged s).mem := by rw [← hw]; exact endCount_mem _ _ _ _ _
  have WL : recLive w r = true := by
    rw [← hl, ← hw]
    have a : recLive (endCount sl r lifeAged reason (endLife sl r lifeAged s)) r = recLive (endLife sl r lifeAged s) r := rfl
    have b : recLive (endLife sl r lifeAged s) r = recLive s r := by
      refine recLive_congr ?_ ?_ r
      · unfold endLife; dsimp only; split <;> rfl
      · unfold endLife; dsimp only; split <;> rfl
    rw [a, b]
  have WA : recLife w r = lifeAged := by
    have := endLife_life sl r lifeAged (by decide) s
    unfold recLife at this ⊢
    rw [recN_congr WM]; exact this
  generalize hy : setRec r 44 4 ((recVer w r + 1) % 2 ^ 32) w = y
  have YL : recLive y r = true := by rw [← WL, ← hy]; exact recLive_congr rfl rfl r
  have YA : recLife y r = lifeAged := by
    rw [← WA, ← hy]; unfold recLife; rw [recN_setRec_out _ _ _ _ _ _ _ (by omega)]
  have SL : recLive (syncHot r y) r = true := recLive_syncHot YL (by rw [YA]; decide)
  have BL : recLive (bump r o.cmd o.answer o.reply w) r = true := by
    rw [← SL]
    have e : ∃ n wr, bump r o.cmd o.answer o.reply w = modSlice n (fun x => { x with writes := x.writes ++ [wr] }) (syncHot r y) := by
      rw [← hy]; exact ⟨_, _, rfl⟩
    obtain ⟨n, wr, e⟩ := e
    rw [e]
    exact recLive_modSlice n (fun x => { x with writes := x.writes ++ [wr] }) _ r (fun x => ⟨rfl, rfl, rfl⟩)
  have BX : bit (recFlags48 (bump r o.cmd o.answer o.reply w) r) 1 = false := by
    rw [← hx]; unfold recFlags48
    rw [recN_bump_out _ _ _ _ _ _ _ (by omega), recN_congr WM, endLife_out _ _ _ _ _ (by omega)]
  have BE : endWaits (bump r o.cmd o.answer o.reply w) sl r = false := by
    have e : ∀ n, (slice (bump r o.cmd o.answer o.reply w) n).exports = (slice s n).exports := by
      intro n
      have f : ∀ (k : Nat) (g : Slice → Slice) (t : State), (∀ x, (g x).exports = x.exports) →
          (slice (modSlice k g t) n).exports = (slice t n).exports := by
        intro k g t hg
        by_cases c : k = n
        · subst c; rw [slice_modSlice]; exact hg _
        · rw [slice_modSlice_ne c]
      unfold bump queueWrite
      dsimp only
      refine (f _ (fun x => { x with writes := x.writes ++ [_] }) _ (fun _ => rfl)).trans ?_
      unfold syncHot modHot
      refine (f _ (fun x => { x with hot := x.hot.map _ }) _ (fun _ => rfl)).trans ?_
      rw [← hw]
      unfold endCount setEnd endLife
      dsimp only
      split <;> rfl
    unfold endWaits at hq ⊢
    rw [e]
    exact hq
  unfold endRecord
  rw [recEnds_open h]
  dsimp only
  rw [if_neg (by decide), hw, BX, if_neg Bool.false_ne_true, ho, if_neg Bool.false_ne_true, BE]
  rw [if_pos (by decide)]
  exact freeRecord_dead BL

theorem bit_setFld_one (x i n : Nat) (h : i < 8 * n) : bit (setFld x i i 1 % 256 ^ n) i = true := by
  have e : (256 : Nat) ^ n = 2 ^ (8 * n) := by rw [show (256 : Nat) = 2 ^ 8 from rfl, ← Nat.pow_mul]
  have c : (setFld x i i 1).testBit i = true := by
    have hr : x % 2 ^ i < 2 ^ i := Nat.mod_lt _ (Nat.two_pow_pos i)
    have k : setFld x i i 1 = 2 ^ i * (2 * (x >>> (i + 1)) + 1) + x % 2 ^ i := by
      unfold setFld
      have : 1 % 2 ^ (i + 1 - i) = 1 := by rw [Nat.add_sub_cancel_left] <;> rfl
      rw [this, Nat.shiftLeft_eq, Nat.shiftLeft_eq, Nat.one_mul, Nat.pow_succ]
      generalize x >>> (i + 1) = q
      rw [Nat.mul_comm q, Nat.mul_assoc, Nat.mul_add, Nat.mul_one]
    rw [k, Nat.testBit_eq_decide_div_mod_eq, Nat.mul_add_div (Nat.two_pow_pos i), Nat.div_eq_of_lt hr, Nat.add_zero]
    have : (2 * (x >>> (i + 1)) + 1) % 2 = 1 := by omega
    rw [this]; rfl
  rw [e]
  unfold bit
  rw [Nat.testBit_mod_two_pow, c, Bool.and_true]
  exact decide_eq_true h

end Sys2Proof.Laws
end

