-- ==== Sys2Proof/Laws/Slots.lean ====
section
/-! SUPPORT. What the operations on cores, tasks and locks leave in them. -/

namespace Sys2Proof.Laws

open Machine

/-! ### Bit fields -/

theorem fld_lt_pow (x hi lo n : Nat) (h : hi + 1 - lo = n) : fld x hi lo < 2 ^ n := by
  subst h; exact Nat.mod_lt _ (Nat.two_pow_pos _)

/-! ### Tasks and locks -/

@[simp] theorem task_modTask (sl n : Nat) (f) (s : State) : task (modTask sl n f s) sl n = f (task s sl n) :=
  mget_mset_same _ _ _ _

theorem task_modTask_ne {sl n sl' n' : Nat} (h : 65536 * sl + n ≠ 65536 * sl' + n') (f) (s : State) :
    task (modTask sl n f s) sl' n' = task s sl' n' := mget_mset_ne _ _ h _

@[simp] theorem task_modLock (sl l : Nat) (f) (s : State) (sl' n : Nat) : task (modLock sl l f s) sl' n = task s sl' n := rfl
@[simp] theorem task_modCore (c : Nat) (f) (s : State) (sl' n : Nat) : task (modCore c f s) sl' n = task s sl' n := rfl
@[simp] theorem task_tskCnt (sl i : Nat) (s : State) (sl' n : Nat) : task (tskCnt sl i s) sl' n = task s sl' n := rfl
@[simp] theorem lock_modLock (sl l : Nat) (f) (s : State) : lock (modLock sl l f s) sl l = f (lock s sl l) :=
  mget_mset_same _ _ _ _
@[simp] theorem lock_modTask (sl n : Nat) (f) (s : State) (sl' l : Nat) : lock (modTask sl n f s) sl' l = lock s sl' l := rfl
@[simp] theorem lock_modCore (c : Nat) (f) (s : State) (sl' l : Nat) : lock (modCore c f s) sl' l = lock s sl' l := rfl
@[simp] theorem lock_tskCnt (sl i : Nat) (s : State) (sl' l : Nat) : lock (tskCnt sl i s) sl' l = lock s sl' l := rfl
@[simp] theorem coreOf_modTask (sl n : Nat) (f) (s : State) (c : Nat) : coreOf (modTask sl n f s) c = coreOf s c := rfl
@[simp] theorem coreOf_modLock (sl l : Nat) (f) (s : State) (c : Nat) : coreOf (modLock sl l f s) c = coreOf s c := rfl
@[simp] theorem coreOf_tskCnt (sl i : Nat) (s : State) (c : Nat) : coreOf (tskCnt sl i s) c = coreOf s c := rfl

/-! ### Counters -/

/-- Counters depend on the counter map alone. -/
theorem cntGet_congr {s t : State} (h : t.cnt = s.cnt) (o u e : Nat) : cntGet t o u e = cntGet s o u e := by
  unfold cntGet; rw [h]

/-- A task counter after its count. -/
theorem cntGet_tskCnt (sl i : Nat) (s : State) : cntGet (tskCnt sl i s) 0x0701 sl i = (cntGet s 0x0701 sl i + 1) % 2 ^ 64 :=
  cntGet_cntAdd s _ _ _ _

theorem setCoreReg_cnt (c r v : Nat) (s : State) : (setCoreReg c r v s).cnt = s.cnt := by
  unfold setCoreReg; split <;> rfl

@[simp] theorem coreOf_modSlice (sl : Nat) (f) (s : State) (c : Nat) : coreOf (modSlice sl f s) c = coreOf s c := rfl

/-! ### Core registers -/

@[simp] theorem coreNext_pc (c n : Nat) (s : State) : (coreOf (coreNext c n s) c).pc = ((coreOf s c).pc + n) % 2 ^ 64 := by
  unfold coreNext; rw [coreOf_modCore]

@[simp] theorem coreNext_task (c n : Nat) (s : State) : (coreOf (coreNext c n s) c).task = (coreOf s c).task := by
  unfold coreNext; rw [coreOf_modCore]

@[simp] theorem coreNext_preempted (c n : Nat) (s : State) : (coreOf (coreNext c n s) c).preempted = (coreOf s c).preempted := by
  unfold coreNext; rw [coreOf_modCore]

@[simp] theorem coreReg_coreNext (c n k : Nat) (s : State) : coreReg (coreNext c n s) c k = coreReg s c k := by
  unfold coreReg coreNext; rw [coreOf_modCore]

theorem coreReg_setCoreReg (c r v k : Nat) (s : State) :
    coreReg (setCoreReg c r v s) c k = if r % 32 ≠ 0 ∧ k % 32 = r % 32 then v % 2 ^ 64 else coreReg s c k := by
  unfold setCoreReg
  split
  · rename_i h; rw [if_neg (fun k => k.1 h)]
  · rename_i h
    unfold coreReg
    rw [coreOf_modCore]
    dsimp only
    rw [mget_mset]
    by_cases e : k % 32 = r % 32
    · rw [if_neg (by omega), if_pos e.symm, if_pos ⟨h, e⟩]
    · have e2 : ¬(r % 32 = k % 32) := fun h => e h.symm
      have e3 : ¬(r % 32 ≠ 0 ∧ k % 32 = r % 32) := fun h => e h.2
      rw [if_neg e2, if_neg e3]

@[simp] theorem setCoreReg_pc (c r v : Nat) (s : State) : (coreOf (setCoreReg c r v s) c).pc = (coreOf s c).pc := by
  unfold setCoreReg; split
  · rfl
  · rw [coreOf_modCore]

@[simp] theorem setCoreReg_task (c r v : Nat) (s : State) : (coreOf (setCoreReg c r v s) c).task = (coreOf s c).task := by
  unfold setCoreReg; split
  · rfl
  · rw [coreOf_modCore]

@[simp] theorem csr_setCoreReg (c r v n : Nat) (s : State) : csrRaw (setCoreReg c r v s) c n = csrRaw s c n := by
  unfold setCoreReg csrRaw; split
  · rfl
  · rw [coreOf_modCore]

@[simp] theorem task_setCoreReg (c r v : Nat) (s : State) (sl n : Nat) : task (setCoreReg c r v s) sl n = task s sl n := by
  unfold setCoreReg; split <;> rfl

theorem csr_coreNext (c n : Nat) (s : State) (h : bit (csrRaw s c 0x320) 2 = false) :
    csrRaw (coreNext c n s) c 0xB02 = (csrRaw s c 0xB02 + 1) % 2 ^ 64 := by
  unfold csrRaw at h
  unfold coreNext csrRaw
  rw [coreOf_modCore, h]
  exact mget_mset_same _ _ _ _

theorem csr_setCsr (c n v : Nat) (s : State) : csrRaw (setCsr c n v s) c n = v % 2 ^ 64 := by
  unfold setCsr csrRaw; rw [coreOf_modCore]; exact mget_mset_same _ _ _ _

theorem csr_setCsr_ne (c : Nat) {n k : Nat} (v : Nat) (h : n ≠ k) (s : State) : csrRaw (setCsr c n v s) c k = csrRaw s c k := by
  unfold setCsr csrRaw; rw [coreOf_modCore]; exact mget_mset_ne _ _ h _

@[simp] theorem setCsr_pc (c n v : Nat) (s : State) : (coreOf (setCsr c n v s) c).pc = (coreOf s c).pc := by
  unfold setCsr; rw [coreOf_modCore]

@[simp] theorem setCsr_task (c n v : Nat) (s : State) : (coreOf (setCsr c n v s) c).task = (coreOf s c).task := by
  unfold setCsr; rw [coreOf_modCore]

@[simp] theorem coreReg_setCsr (c n v k : Nat) (s : State) : coreReg (setCsr c n v s) c k = coreReg s c k := by
  unfold coreReg setCsr; rw [coreOf_modCore]

/-- What taking a trap leaves: the registers, and the trap's CSRs. -/
theorem trap_ok (c : Nat) (i : Bool) (cause tval : Nat) (s : State) :
    (∀ n, coreReg (coreTrap c i cause tval s) c n = coreReg s c n)
    ∧ csrRaw (coreTrap c i cause tval s) c 0x342 = (cause + b2n i * 2 ^ 63) % 2 ^ 64
    ∧ csrRaw (coreTrap c i cause tval s) c 0x343 = tval % 2 ^ 64
    ∧ csrRaw (coreTrap c i cause tval s) c 0x341 = (coreOf s c).pc % 2 ^ 64
    ∧ csrRaw (coreTrap c i cause tval s) c 0x300 = b2n (bit (csrRaw s c 0x300) 3) * 128
    ∧ (coreOf (coreTrap c i cause tval s) c).pc
      = (if i && csrRaw s c 0x305 % 4 = 1 then csrRaw s c 0x305 - csrRaw s c 0x305 % 4 + 4 * cause
         else csrRaw s c 0x305 - csrRaw s c 0x305 % 4)
    ∧ (∀ n, n ≠ 0x341 → n ≠ 0x342 → n ≠ 0x343 → n ≠ 0x300 → csrRaw (coreTrap c i cause tval s) c n = csrRaw s c n) := by
  have C : ∀ (u : State) (p : Nat) n, csrRaw (modCore c (fun x => { x with pc := p, wfi := false }) u) c n = csrRaw u c n := by
    intro u p n; unfold csrRaw; rw [coreOf_modCore]
  unfold coreTrap
  refine ⟨fun n => ?_, ?_, ?_, ?_, ?_, ?_, fun n h1 h2 h3 h4 => ?_⟩
  · unfold coreReg; rw [coreOf_modCore]
    have := coreReg_setCsr c
    unfold coreReg at this
    dsimp only
    rw [this, this, this, this]
  · rw [C, csr_setCsr_ne _ _ (by decide), csr_setCsr_ne _ _ (by decide), csr_setCsr]
  · rw [C, csr_setCsr_ne _ _ (by decide), csr_setCsr]
  · rw [C, csr_setCsr_ne _ _ (by decide), csr_setCsr_ne _ _ (by decide), csr_setCsr_ne _ _ (by decide), csr_setCsr]
  · rw [C, csr_setCsr]
    cases bit (csrRaw s c 0x300) 3 <;> rfl
  · rw [coreOf_modCore]
  · rw [C, csr_setCsr_ne _ _ h4.symm, csr_setCsr_ne _ _ h3.symm, csr_setCsr_ne _ _ h2.symm, csr_setCsr_ne _ _ h1.symm]

@[simp] theorem task_setCsr (c n v : Nat) (s : State) (sl m : Nat) : task (setCsr c n v s) sl m = task s sl m := rfl
@[simp] theorem task_coreTrap (c : Nat) (i : Bool) (cause tval : Nat) (s : State) (sl m : Nat) :
    task (coreTrap c i cause tval s) sl m = task s sl m := by
  unfold coreTrap; simp only [task_modCore, task_setCsr]

/-- The four-byte instruction at the pc of a core that runs, with nothing to interrupt it, is what CORE_INSTRUCTION runs. -/
theorem instr_at {c i : Nat} {s : State} (hr : coreRuns s c = true) (hp : bit (csrRaw s c 0x344) 16 = false)
    (hw : (coreOf s c).wfi = false) (hpc : (coreOf s c).pc + 4 ≤ 0x80000)
    (hi : rdN (cluster s (clusterOfCore c)).isram (coreOf s c).pc 4 = i)
    (h3 : rdN (cluster s (clusterOfCore c)).isram (coreOf s c).pc 2 % 4 = 3) :
    coreStep c s = coreExec c i 4 (modCore c (fun x => { x with wfi := false }) s) := by
  have P : (coreOf (modCore c (fun x => { x with wfi := false }) s) c).pc = (coreOf s c).pc := by rw [coreOf_modCore]
  have M : ∀ k, cluster (modCore c (fun x => { x with wfi := false }) s) k = cluster s k := fun _ => rfl
  have A : ¬(0x80000 < (coreOf s c).pc + 2) := by omega
  have B : ¬(0x80000 < (coreOf s c).pc + 4) := by omega
  unfold coreStep
  dsimp only
  rw [P, M, h3, hi, hr, hp, hw, if_neg A, if_neg B]
  rfl

/-- A core to which no pre-emptive dispatch is coming has none withdrawn: CORE_INSTRUCTION is its step. -/
theorem instr_eq {c : Nat} {s : State} (h : (coreOf (coreStep c s) c).coming = none) : coreInstruction c s = coreStep c s := by
  unfold coreInstruction withdrawDispatch
  rw [h]

/-! ### READY, locks and slots -/

theorem task_modTsk (f : Tsk → Tsk) (h : ∀ x, (f x).slots = x.slots) (s : State) (sl n : Nat) : task (modTsk f s) sl n = task s sl n := by
  unfold task modTsk; dsimp only; rw [h]

/-- What tryReady leaves of a task: all but its state, tag and order; and its state where operands are missing. -/
theorem tryReady_task (sl u : Nat) (s : State) (sl' n : Nat) : ∃ st tg no, task (tryReady sl u s) sl' n
      = { task s sl' n with state := st, tag := tg, readyNo := no }
    ∧ ((task s sl' n).present ≠ (task s sl' n).expect → st = (task s sl' n).state) := by
  unfold tryReady
  dsimp only
  split
  · rename_i h
    have F : ∀ (v : State) (k : Task) (b : Bool), (v.tsk.slots = s.tsk.slots → True) →
        task (if b then v else tskCnt sl 14 v) sl' n = task v sl' n := by
      intro v k b _; split <;> rfl
    by_cases e : 65536 * sl + u = 65536 * sl' + n
    · have E : task s sl u = task s sl' n := by unfold task; rw [e]
      refine ⟨tskReady, (maxTag (mget 0 s.tsk.vtime sl) (mget 0 s.tsk.last (64 * sl + (task s sl u).cls)) + cfg1 s (classCfg sl (task s sl u).cls) 15 0) % 2 ^ 32, mget 0 s.tsk.readyCount sl, ?_, fun hne => absurd (E ▸ h.2.1) hne⟩
      rw [← E]
      generalize classServed _ _ _ = b
      rw [F _ (task s sl u) b (fun _ => trivial)]
      have : ∀ v f, task (modTsk f v) sl' n = mget {} (f v.tsk).slots (65536 * sl' + n) := fun _ _ => rfl
      rw [this]; dsimp only
      show task (modTask sl u _ s) sl' n = _
      unfold task at *
      rw [← e]
      exact mget_mset_same _ _ _ _
    · refine ⟨(task s sl' n).state, (task s sl' n).tag, (task s sl' n).readyNo, ?_, fun _ => rfl⟩
      generalize classServed _ _ _ = b
      rw [F _ (task s sl u) b (fun _ => trivial)]
      refine (task_modTsk _ ?_ _ _ _).trans (task_modTask_ne e _ _)
      intro x; rfl
  · exact ⟨(task s sl' n).state, (task s sl' n).tag, (task s sl' n).readyNo, rfl, fun _ => rfl⟩

/-- What tryReady leaves in the cores. -/
@[simp] theorem coreOf_tryReady (sl u : Nat) (s : State) (c : Nat) : coreOf (tryReady sl u s) c = coreOf s c := by
  unfold tryReady; dsimp only; split
  · split <;> rfl
  · rfl

/-- A task that lacks an operand keeps all of itself over tryReady. -/
theorem tryReady_waits (sl u sl' n : Nat) (s : State) (h : (task s sl' n).present ≠ (task s sl' n).expect) :
    ∃ tg no, task (tryReady sl u s) sl' n = { task s sl' n with tag := tg, readyNo := no } := by
  obtain ⟨st, tg, no, E, F⟩ := tryReady_task sl u s sl' n
  exact ⟨tg, no, by rw [E, F h]⟩

/-- A granted lock leaves of a task all but its grant, its tag and its order, where it lacks an operand. -/
theorem grantLock_waits (sl l sl' n : Nat) (s : State) (h : (task s sl' n).present ≠ (task s sl' n).expect) :
    ∃ g tg no, task (grantLock sl l s) sl' n = { task s sl' n with granted := g, tag := tg, readyNo := no } := by
  unfold grantLock
  dsimp only
  split
  · rename_i u r hh hq
    generalize hv : modLock sl l (fun x => { x with holder := some u, queue := r, since := s.now, told := false }) s = v
    have V : task v sl' n = task s sl' n := by subst hv; rfl
    have W : ∃ g, task (modTask sl u (fun x => { x with granted := true }) v) sl' n = { task s sl' n with granted := g } := by
      by_cases e : 65536 * sl + u = 65536 * sl' + n
      · refine ⟨true, ?_⟩
        rw [← V]
        unfold task at *
        rw [← e]
        exact mget_mset_same _ _ _ _
      · exact ⟨(task s sl' n).granted, by rw [task_modTask_ne e, V]⟩
    obtain ⟨g, W⟩ := W
    obtain ⟨tg, no, E⟩ := tryReady_waits sl u sl' n _ (by rw [W]; exact h)
    exact ⟨g, tg, no, by rw [E, W]⟩
  · exact ⟨_, _, _, rfl⟩

@[simp] theorem coreOf_grantLock (sl l : Nat) (s : State) (c : Nat) : coreOf (grantLock sl l s) c = coreOf s c := by
  unfold grantLock; dsimp only; split
  · rw [coreOf_tryReady]; rfl
  · rfl

@[simp] theorem coreOf_joinLock (sl t : Nat) (s : State) (c : Nat) : coreOf (joinLock sl t s) c = coreOf s c := by
  have I : ∀ (b : Bool) (x : State) i, coreOf (if b then x else tskCnt sl i x) c = coreOf x c := by
    intro b x i; cases b <;> rfl
  unfold joinLock; dsimp only; split
  · split
    · rw [I, coreOf_grantLock]; rfl
    · rfl
  · rfl

/-- What joining its lock entry leaves of a task that lacks an operand. -/
theorem joinLock_waits (sl n : Nat) (s : State) (h : (task s sl n).present ≠ (task s sl n).expect) :
    ∃ m g tk tt tg no, task (joinLock sl n s) sl n
      = { task s sl n with mode := m, granted := g, ticketed := tk, ticket := tt, tag := tg, readyNo := no } := by
  unfold joinLock
  dsimp only
  generalize classMode s sl (task s sl n).cls = md
  generalize (lock s sl (task s sl n).lock).next = nx
  have I : ∀ (b : Bool) (x : State) i, task (if b then x else tskCnt sl i x) sl n = task x sl n := by
    intro b x i; cases b <;> rfl
  split
  · split
    · rw [I]
      generalize hv : modLock sl (task s sl n).lock (fun x => { x with queue := x.queue ++ [n] }) (modLock sl (task s sl n).lock (fun x => { x with next := (x.next + 1) % 65536 })
        (modTask sl n (fun x => { x with mode := md, granted := false, ticketed := decide (md = 1 ∨ md = 2), ticket := nx }) s)) = v
      have V : task v sl n = { task s sl n with mode := md, granted := false, ticketed := decide (md = 1 ∨ md = 2), ticket := nx } := by
        subst hv; rw [task_modLock, task_modLock, task_modTask]
      obtain ⟨g, tg, no, E⟩ := grantLock_waits sl (task s sl n).lock sl n v (by rw [V]; exact h)
      exact ⟨md, g, decide (md = 1 ∨ md = 2), nx, tg, no, by rw [E, V]⟩
    · exact ⟨md, false, decide (md = 1 ∨ md = 2), nx, (task s sl n).tag, (task s sl n).readyNo, by rw [task_modLock, task_modTask]⟩
  · refine ⟨md, false, decide (md = 1 ∨ md = 2), 0, (task s sl n).tag, (task s sl n).readyNo, ?_⟩
    rw [task_modTask, task_modTask]

/-- noteClass writes counters only. -/
theorem task_noteClass (sl c : Nat) (s : State) (sl' n : Nat) : task (noteClass sl c s) sl' n = task s sl' n := by
  unfold noteClass; dsimp only; split <;> rfl
theorem coreOf_noteClass (sl c : Nat) (s : State) (n : Nat) : coreOf (noteClass sl c s) n = coreOf s n := by
  unfold noteClass; dsimp only; split <;> rfl

/-- Renewing a task's record operand leaves all of it but the operand and the version. -/
theorem renewOperand_ok (sl : Nat) (k : Task) (s : State) : ∃ o v, renewOperand sl k s = { k with recOp := o, version := v } := by
  unfold renewOperand
  split
  · split <;> exact ⟨_, _, rfl⟩
  · split <;> exact ⟨_, _, rfl⟩

/-- A FIRMWARE task placed in a slot waits there as it was made, and leaves the cores as they were. -/
theorem placeTask_ok (sl n : Nat) (hw : Bool) (k : Task) (s : State) (hk : k.kind = 6) (hp : k.pkt = none) (he : k.present ≠ k.expect) :
    (task (placeTask sl n hw k s) sl n).kind = 6 ∧ (task (placeTask sl n hw k s) sl n).cls = k.cls
    ∧ (task (placeTask sl n hw k s) sl n).lock = k.lock ∧ (task (placeTask sl n hw k s) sl n).timer = k.timer
    ∧ (task (placeTask sl n hw k s) sl n).due = k.due ∧ (task (placeTask sl n hw k s) sl n).state = tskWaiting
    ∧ ∀ c, coreOf (placeTask sl n hw k s) c = coreOf s c := by
  obtain ⟨o, w, R⟩ : ∃ o w, (if hw then renewOperand sl k s else k) = { k with recOp := o, version := w } := by
    split
    · exact renewOperand_ok sl k s
    · exact ⟨k.recOp, k.version, rfl⟩
  generalize hq : ({ k with recOp := o, version := w } : Task) = q at R
  have q1 : q.kind = 6 := by subst hq; exact hk
  have q2 : q.pkt = none := by subst hq; exact hp
  have q3 : q.present ≠ q.expect := by subst hq; exact he
  have E : placeTask sl n hw k s = noteClass sl q.cls (joinLock sl n (tskCnt sl (if hw then 0 else 1)
      (modTask sl n (fun _ => { q with state := tskWaiting, made := s.now, stamp := stampNow s }) s))) := by
    unfold placeTask
    dsimp only
    rw [R, q2, q1]
    rfl
  rw [E]
  generalize hv : tskCnt sl (if hw then 0 else 1) (modTask sl n (fun _ => { q with state := tskWaiting, made := s.now, stamp := stampNow s }) s) = v
  have V : task v sl n = { q with state := tskWaiting, made := s.now, stamp := stampNow s } := by
    subst hv; rw [task_tskCnt, task_modTask]
  have C : ∀ c, coreOf v c = coreOf s c := by subst hv; intro c; rfl
  obtain ⟨m, g, tk, tt, tg, no, J⟩ := joinLock_waits sl n v (by rw [V]; exact q3)
  rw [task_noteClass, J, V]
  refine ⟨q1, ?_, ?_, ?_, ?_, rfl, fun c => by rw [coreOf_noteClass, coreOf_joinLock, C]⟩ <;> (subst hq; rfl)

/-- Leaving a lock entry that the task does not hold. -/
theorem leaveLock_not {sl n : Nat} {s : State} (h : (lock s sl (task s sl n).lock).holder ≠ some n) :
    leaveLock sl n s = modLock sl (task s sl n).lock (fun x => { x with queue := x.queue.filter (· ≠ n) }) s := by
  unfold leaveLock; dsimp only; rw [if_neg h]

/-- A slot freed while no item waits for one. -/
theorem clearSlot_none {sl n : Nat} {s : State} (hk : (task s sl n).kind ≠ 5) (hi : mget [] s.tsk.items sl = []) :
    clearSlot sl n s = modTask sl n (fun _ => {}) s := by
  have H : mget [] (modTask sl n (fun _ => {}) s).tsk.items sl = [] := hi
  unfold clearSlot; dsimp only; rw [if_neg hk]
  unfold takeItems; rw [H]

/-- Retiring a ticket a task does not have. -/
theorem retireTicket_none {sl n : Nat} {s : State} (h : (task s sl n).ticketed = false) : retireTicket sl n s = s := by
  unfold retireTicket; dsimp only; rw [h]; rfl

/-- Cancelling a WAITING task without ticket and packet frees its slot. -/
theorem cancel_waiting {sl n : Nat} {s : State} (hst : (task s sl n).state = tskWaiting) (hk : (task s sl n).kind = 6)
    (htk : (task s sl n).ticketed = false) (hp : (task s sl n).pkt = none)
    (hl : (lock s sl (task s sl n).lock).holder ≠ some n) (hi : mget [] s.tsk.items sl = []) :
    cancelTask sl n s = (0, modTask sl n (fun _ => {}) (modTask sl n (fun x => { x with state := tskWaiting })
      (modLock sl (task s sl n).lock (fun x => { x with queue := x.queue.filter (· ≠ n) }) (tskCnt sl 4 s)))) := by
  have R : rejectNew sl n (task s sl n) (tskCnt sl 4 s) = tskCnt sl 4 s := by
    unfold rejectNew; rw [if_neg (by rw [hk]; simp)]
  have D : ∀ u, dropTaskPkt (task s sl n) u = u := fun u => by unfold dropTaskPkt; rw [hp]
  have L : leaveLock sl n (tskCnt sl 4 s) = modLock sl (task s sl n).lock (fun x => { x with queue := x.queue.filter (· ≠ n) }) (tskCnt sl 4 s) :=
    leaveLock_not (s := tskCnt sl 4 s) hl
  unfold cancelTask
  dsimp only
  rw [if_neg (by rw [hst]; decide), if_neg (by rw [hst]; decide), if_pos (Or.inl hst), R, L, D]
  generalize hv : modTask sl n (fun x => { x with state := tskWaiting }) (modLock sl (task s sl n).lock (fun x => { x with queue := x.queue.filter (· ≠ n) }) (tskCnt sl 4 s)) = v
  have V : task v sl n = { task s sl n with state := tskWaiting } := by subst hv; exact task_modTask _ _ _ _
  rw [retireTicket_none (by rw [V]; exact htk), clearSlot_none (by rw [V]; show (task s sl n).kind ≠ 5; rw [hk]; decide) (by subst hv; exact hi)]

/-- A core without a pre-empted task gives its task up. -/
theorem leaveCore_plain {c n : Nat} {s : State} (ht : (coreOf s c).task = some n) (hp : (coreOf s c).preempted = none) :
    ∃ k, leaveCore c s = modCore c (fun x => { x with task := none, window := [] }) (coreCnt c 0 k s) := by
  refine ⟨ranFor s (task s (sliceOfCore c) n) / 500, ?_⟩
  unfold leaveCore; dsimp only; rw [ht, hp]

theorem task_coreCnt (c k i : Nat) (s : State) (sl n : Nat) : task (coreCnt c k i s) sl n = task s sl n := rfl
theorem lock_coreCnt (c k i : Nat) (s : State) (sl l : Nat) : lock (coreCnt c k i s) sl l = lock s sl l := rfl
theorem coreOf_coreCnt (c k i : Nat) (s : State) (d : Nat) : coreOf (coreCnt c k i s) d = coreOf s d := rfl

/-- An ordered release not at the head of its lock entry waits there. -/
theorem release_waits {c n w : Nat} {s : State} (hk : (task s (sliceOfCore c) n).kind ≠ 1)
    (htk : (task s (sliceOfCore c) n).ticketed = true) (hc : (task s (sliceOfCore c) n).cancelled = false) (hb : bit w 4 = true)
    (ht : (coreOf s c).task = some n) (hp : (coreOf s c).preempted = none)
    (hl : (lock s (sliceOfCore c) (task s (sliceOfCore c) n).lock).holder ≠ some n)
    (he : (lock s (sliceOfCore c) (task s (sliceOfCore c) n).lock).emit ≠ (task s (sliceOfCore c) n).ticket) :
    (task (releaseTask c n w s) (sliceOfCore c) n).state = tskReleased ∧ (task (releaseTask c n w s) (sliceOfCore c) n).word = w
    ∧ (coreOf (releaseTask c n w s) c).task = none ∧ (coreOf (releaseTask c n w s) c).pc = (coreOf s c).pc := by
  generalize hsl : sliceOfCore c = sl at *
  generalize hK : ({ task s sl n with word := w, header := windowHeader s c (task s sl n) } : Task) = K
  have K1 : K.kind = (task s sl n).kind := by subst hK; rfl
  have K2 : K.ticketed = true := by subst hK; exact htk
  have K3 : K.cancelled = false := by subst hK; exact hc
  have K4 : K.lock = (task s sl n).lock := by subst hK; rfl
  have K5 : K.ticket = (task s sl n).ticket := by subst hK; rfl
  have K6 : K.word = w := by subst hK; rfl
  generalize hu : coreCnt c 1 1 (tskCnt sl 3 (modTask sl n (fun _ => K) s)) = u
  have U1 : task u sl n = K := by subst hu; rw [task_coreCnt, task_tskCnt, task_modTask]
  have U2 : ∀ l, lock u sl l = lock s sl l := by subst hu; intro l; rfl
  have U3 : coreOf u c = coreOf s c := by subst hu; rfl
  obtain ⟨k, L⟩ := leaveCore_plain (c := c) (n := n) (s := u) (by rw [U3]; exact ht) (by rw [U3]; exact hp)
  generalize hv : leaveCore c u = v at *
  have V1 : task v sl n = K := by rw [L]; exact U1
  have V2 : ∀ l, lock v sl l = lock s sl l := by rw [L]; exact U2
  have V3 : (coreOf v c).task = none ∧ (coreOf v c).pc = (coreOf s c).pc := by
    rw [L, coreOf_modCore]; exact ⟨rfl, by rw [coreOf_coreCnt, U3]⟩
  have X : leaveLock sl n v = modLock sl K.lock (fun x => { x with queue := x.queue.filter (· ≠ n) }) v := by
    have := leaveLock_not (sl := sl) (n := n) (s := v) (by rw [V1, V2, K4]; exact hl)
    rw [this, V1]
  have E : releaseTask c n w s = modTask sl n (fun x => { x with state := tskReleased })
      (modLock sl K.lock (fun x => { x with queue := x.queue.filter (· ≠ n) }) v) := by
    unfold releaseTask
    dsimp only
    have F1 : ¬((task s sl n).kind = 1 ∧ (!(task s sl n).outcome) = true) := fun h => hk h.1
    have F2 : ¬((task s sl n).cancelled = true) := by rw [hc]; decide
    rw [hsl, if_neg F1, if_neg F2, if_pos ⟨hb, htk⟩]
    simp only [hK]
    rw [hu, hv, X, if_neg]
    rw [← K4, lock_modLock]
    show (lock v sl K.lock).emit ≠ _
    rw [V2, K4]; exact he
  rw [E]
  refine ⟨?_, ?_, V3.1, V3.2⟩
  · rw [task_modTask]
  · rw [task_modTask, task_modLock, V1, K6]

/-- A release of a task without ticket and packet frees its slot. -/
theorem release_frees {c n w : Nat} {s : State} (hk : (task s (sliceOfCore c) n).kind = 6)
    (htk : (task s (sliceOfCore c) n).ticketed = false) (hpk : (task s (sliceOfCore c) n).pkt = none)
    (ht : (coreOf s c).task = some n) (hp : (coreOf s c).preempted = none)
    (hl : (lock s (sliceOfCore c) (task s (sliceOfCore c) n).lock).holder ≠ some n)
    (hi : mget [] s.tsk.items (sliceOfCore c) = []) :
    task (releaseTask c n w s) (sliceOfCore c) n = {}
    ∧ (coreOf (releaseTask c n w s) c).task = none ∧ (coreOf (releaseTask c n w s) c).pc = (coreOf s c).pc := by
  generalize hsl : sliceOfCore c = sl at *
  generalize hK : ({ task s sl n with word := w, header := windowHeader s c (task s sl n) } : Task) = K
  have K1 : K.kind = 6 := by subst hK; exact hk
  have K2 : K.ticketed = false := by subst hK; exact htk
  have K4 : K.lock = (task s sl n).lock := by subst hK; rfl
  have K6 : K.pkt = none := by subst hK; exact hpk
  generalize hu : coreCnt c 1 1 (tskCnt sl 3 (modTask sl n (fun _ => K) s)) = u
  have U1 : task u sl n = K := by subst hu; rw [task_coreCnt, task_tskCnt, task_modTask]
  have U2 : ∀ l, lock u sl l = lock s sl l := by subst hu; intro l; rfl
  have U3 : coreOf u c = coreOf s c := by subst hu; rfl
  have U4 : u.tsk.items = s.tsk.items := by subst hu; rfl
  obtain ⟨k, L⟩ := leaveCore_plain (c := c) (n := n) (s := u) (by rw [U3]; exact ht) (by rw [U3]; exact hp)
  generalize hv : leaveCore c u = v at *
  have V1 : task v sl n = K := by rw [L]; exact U1
  have V2 : ∀ l, lock v sl l = lock s sl l := by rw [L]; exact U2
  have V3 : (coreOf v c).task = none ∧ (coreOf v c).pc = (coreOf s c).pc := by
    rw [L, coreOf_modCore]; exact ⟨rfl, by rw [coreOf_coreCnt, U3]⟩
  have V4 : v.tsk.items = s.tsk.items := by rw [L]; exact U4
  have X : leaveLock sl n v = modLock sl K.lock (fun x => { x with queue := x.queue.filter (· ≠ n) }) v := by
    have := leaveLock_not (sl := sl) (n := n) (s := v) (by rw [V1, V2, K4]; exact hl)
    rw [this, V1]
  generalize hx : modLock sl K.lock (fun x => { x with queue := x.queue.filter (· ≠ n) }) v = x at *
  have X1 : task x sl n = K := by subst hx; exact V1
  have X2 : coreOf x c = coreOf v c := by subst hx; rfl
  have X4 : x.tsk.items = s.tsk.items := by subst hx; exact V4
  generalize hy : modTask sl n (fun z => { z with state := tskWaiting }) x = y
  have Y1 : task y sl n = { K with state := tskWaiting } := by subst hy; rw [task_modTask, X1]
  have Y2 : coreOf y c = coreOf v c := by subst hy; exact X2
  have Y4 : mget [] y.tsk.items sl = [] := by subst hy; show mget [] x.tsk.items sl = []; rw [X4]; exact hi
  have D : ∀ z, dropTaskPkt K z = z := fun z => by unfold dropTaskPkt; rw [K6]
  have M : ∀ z, emitWord sl K z = z := fun z => by unfold emitWord; rw [K6]
  have C : clearSlot sl n y = modTask sl n (fun _ => {}) y :=
    clearSlot_none (by rw [Y1]; show K.kind ≠ 5; rw [K1]; decide) Y4
  have R : retireTicket sl n y = y := retireTicket_none (by rw [Y1]; exact K2)
  have E : releaseTask c n w s = modTask sl n (fun _ => {}) y := by
    unfold releaseTask
    dsimp only
    have F : ¬(bit w 4 = true ∧ (task s sl n).ticketed = true) := by rw [htk]; simp
    have F1 : ¬((task s sl n).kind = 1 ∧ (!(task s sl n).outcome) = true) := fun h => absurd h.1 (by rw [hk]; decide)
    rw [hsl, if_neg F1, if_neg F]
    simp only [hK]
    rw [hu, hv, X, hy, M, hy, R, D, C]
    split <;> rfl
  rw [E]
  exact ⟨task_modTask _ _ _ _, by rw [coreOf_modTask, Y2]; exact V3.1, by rw [coreOf_modTask, Y2]; exact V3.2⟩

/-- Joining a lock entry in PARALLEL mode. -/
theorem joinLock_parallel {sl n : Nat} {s : State} (hm : classMode s sl (task s sl n).cls = 0) :
    ∃ tt, task (joinLock sl n s) sl n = { task s sl n with mode := 0, granted := false, ticketed := false, ticket := tt } := by
  refine ⟨0, ?_⟩
  unfold joinLock; dsimp only; rw [hm, if_neg (by decide), task_modTask, task_modTask]; rfl

/-- A WAITING task whose operands are all there and which waits for no lock becomes READY. -/
theorem tryReady_ready {sl n : Nat} {s : State} (hs : (task s sl n).state = tskWaiting) (hp : (task s sl n).present = (task s sl n).expect)
    (hm : (task s sl n).mode ≠ 2 ∨ (task s sl n).granted = true) :
    ∃ tg no, task (tryReady sl n s) sl n = { task s sl n with state := tskReady, tag := tg, readyNo := no } := by
  unfold tryReady
  dsimp only
  rw [if_pos ⟨hs, hp, hm⟩]
  generalize classServed _ _ _ = b
  have F : ∀ (v : State), task (if b then v else tskCnt sl 14 v) sl n = task v sl n := by intro v; cases b <;> rfl
  rw [F]
  refine ⟨_, _, (task_modTsk _ ?_ _ _ _).trans (task_modTask _ _ _ _)⟩
  intro x; rfl

/-- A task handed on into a PARALLEL class, its operands present, is READY there. -/
theorem hand_ok {c n l k : Nat} {s : State} (hl16 : l < 16384) (hk64 : k < 64) (hh : (task s (sliceOfCore c) n).hands < 65535)
    (htk : (task s (sliceOfCore c) n).ticketed = false) (ht : (coreOf s c).task = some n) (hp : (coreOf s c).preempted = none)
    (hl : (lock s (sliceOfCore c) (task s (sliceOfCore c) n).lock).holder ≠ some n) (hm : classMode s (sliceOfCore c) k = 0)
    (he : (task s (sliceOfCore c) n).present = (task s (sliceOfCore c) n).expect) :
    (coreOf (handTask c n l k s) c).task = none ∧ (coreOf (handTask c n l k s) c).pc = (coreOf s c).pc
    ∧ (task (handTask c n l k s) (sliceOfCore c) n).state = tskReady ∧ (task (handTask c n l k s) (sliceOfCore c) n).lock = l
    ∧ (task (handTask c n l k s) (sliceOfCore c) n).cls = k
    ∧ (task (handTask c n l k s) (sliceOfCore c) n).hands = (task s (sliceOfCore c) n).hands + 1
    ∧ (task (handTask c n l k s) (sliceOfCore c) n).window = (coreOf s c).window := by
  generalize hsl : sliceOfCore c = sl at *
  generalize hu : tskCnt sl 6 s = u
  have U1 : task u sl n = task s sl n := by subst hu; rfl
  have U2 : ∀ l, lock u sl l = lock s sl l := by subst hu; intro l; rfl
  have U3 : coreOf u c = coreOf s c := by subst hu; rfl
  have U5 : u.regs = s.regs := by subst hu; rfl
  obtain ⟨i, L⟩ := leaveCore_plain (c := c) (n := n) (s := u) (by rw [U3]; exact ht) (by rw [U3]; exact hp)
  generalize hv : leaveCore c u = v at *
  have V1 : task v sl n = task s sl n := by rw [L]; exact U1
  have V2 : ∀ l, lock v sl l = lock s sl l := by rw [L]; exact U2
  have V3 : (coreOf v c).task = none ∧ (coreOf v c).pc = (coreOf s c).pc := by
    rw [L, coreOf_modCore]; exact ⟨rfl, by rw [coreOf_coreCnt, U3]⟩
  have V5 : v.regs = s.regs := by rw [L]; exact U5
  have X : leaveLock sl n v = modLock sl (task s sl n).lock (fun x => { x with queue := x.queue.filter (· ≠ n) }) v := by
    have := leaveLock_not (sl := sl) (n := n) (s := v) (by rw [V1, V2]; exact hl)
    rw [this, V1]
  generalize hx : modLock sl (task s sl n).lock (fun x => { x with queue := x.queue.filter (· ≠ n) }) v = x at *
  have X1 : task x sl n = task s sl n := by subst hx; exact V1
  have X2 : coreOf x c = coreOf v c := by subst hx; rfl
  have X5 : x.regs = s.regs := by subst hx; exact V5
  generalize hy : modTask sl n (fun z => { z with state := tskWaiting }) x = y
  have Y1 : task y sl n = { task s sl n with state := tskWaiting } := by subst hy; rw [task_modTask, X1]
  have Y2 : coreOf y c = coreOf v c := by subst hy; exact X2
  have Y5 : y.regs = s.regs := by subst hy; exact X5
  have R : retireTicket sl n y = y := retireTicket_none (by rw [Y1]; exact htk)
  generalize hz : modTask sl n (fun x => { x with
      lock := l % 16384, cls := k % 64, window := (coreOf s c).window, hands := x.hands + 1, ran := 0 }) y = z
  have Z1 : task z sl n = { task s sl n with
      state := tskWaiting, lock := l, cls := k, window := (coreOf s c).window, hands := (task s sl n).hands + 1, ran := 0 } := by
    subst hz; rw [task_modTask, Y1, Nat.mod_eq_of_lt hl16, Nat.mod_eq_of_lt hk64]
  have Z2 : coreOf z c = coreOf v c := by subst hz; exact Y2
  have Z5 : z.regs = s.regs := by subst hz; exact Y5
  have cm : classMode z sl k = 0 := by
    have : classMode z sl k = classMode s sl k := by unfold classMode cfg stored; rw [Z5]
    rw [this]; exact hm
  obtain ⟨tt, J⟩ := joinLock_parallel (sl := sl) (n := n) (s := z) (by rw [Z1]; exact cm)
  generalize hw : noteClass sl (k % 64) (joinLock sl n z) = w
  have W1 : task w sl n = { task z sl n with mode := 0, granted := false, ticketed := false, ticket := tt } := by
    subst hw; rw [task_noteClass, J]
  have W2 : coreOf w c = coreOf v c := by subst hw; rw [coreOf_noteClass, coreOf_joinLock, Z2]
  obtain ⟨tg, no, T⟩ := tryReady_ready (sl := sl) (n := n) (s := w) (by rw [W1, Z1]) (by rw [W1, Z1]; exact he) (Or.inl (by rw [W1]; simp))
  have E : handTask c n l k s = tryReady sl n w := by
    unfold handTask
    dsimp only
    rw [hsl, if_neg (by omega), hu, hv, X, hy, R, hz, hw]
  rw [E, T, W1, Z1, coreOf_tryReady, W2]
  exact ⟨V3.1, V3.2, rfl, rfl, rfl, rfl, rfl⟩

/-- An operand made present in a WAITING task. -/
theorem present_ok {sl n : Nat} {s : State} (hs : (task s sl n).state = tskWaiting) (v : Nat) :
    (task (tryReady sl n (modTask sl n (fun x => { x with present := x.present + v }) s)) sl n).present = (task s sl n).present + v
    ∧ ((task s sl n).present + v = (task s sl n).expect → (task s sl n).mode ≠ 2 ∨ (task s sl n).granted = true →
      (task (tryReady sl n (modTask sl n (fun x => { x with present := x.present + v }) s)) sl n).state = tskReady)
    ∧ ((task s sl n).present + v ≠ (task s sl n).expect →
      (task (tryReady sl n (modTask sl n (fun x => { x with present := x.present + v }) s)) sl n).state = tskWaiting) := by
  generalize hu : modTask sl n (fun x => { x with present := x.present + v }) s = u
  have U : task u sl n = { task s sl n with present := (task s sl n).present + v } := by subst hu; rw [task_modTask]
  refine ⟨?_, fun h m => ?_, fun h => ?_⟩
  · obtain ⟨st, tg, no, E, -⟩ := tryReady_task sl n u sl n
    rw [E, U]
  · obtain ⟨tg, no, E⟩ := tryReady_ready (sl := sl) (n := n) (s := u) (by rw [U]; exact hs) (by rw [U]; exact h) (by rw [U]; exact m)
    rw [E]
  · obtain ⟨tg, no, E⟩ := tryReady_waits sl n sl n u (by rw [U]; exact h)
    rw [E, U]; exact hs

theorem task_countWait (sl : Nat) (k : Task) (s : State) (sl' n : Nat) : task (countWait sl k s) sl' n = task s sl' n := by
  have A : ∀ (c : Prop) [Decidable c] (a u e v : Nat) (s : State), task (if c then cntSet s a u e v else s) sl' n = task s sl' n := by
    intro c _ a u e v s; split <;> rfl
  unfold countWait; dsimp only; split
  · rfl
  · rw [A, A]; rfl
theorem coreOf_countWait (sl : Nat) (k : Task) (s : State) (c : Nat) : coreOf (countWait sl k s) c = coreOf s c := by
  have A : ∀ (p : Prop) [Decidable p] (a u e v : Nat) (s : State), coreOf (if p then cntSet s a u e v else s) c = coreOf s c := by
    intro p _ a u e v s; split <;> rfl
  unfold countWait; dsimp only; split
  · rfl
  · rw [A, A]; rfl

/-- What dispatching a task leaves. -/
theorem dispatchTask_ok (sl n : Nat) (s : State) :
    (task (dispatchTask sl n s) sl n).state = tskRunning ∧ (dispatchTask sl n s).now = s.now
    ∧ (∀ c, coreOf (dispatchTask sl n s) c = coreOf s c)
    ∧ ∀ m, n ≠ m → task (dispatchTask sl n s) sl m = task s sl m := by
  unfold dispatchTask
  dsimp only
  generalize task s sl n = k
  generalize hu : countWait sl k (cntInc 0x0702 sl (32 * k.cls + 20) (tskCnt sl 2 s)) = u
  have U1 : ∀ m, task u sl m = task s sl m := by subst hu; intro m; rw [task_countWait]; rfl
  have U2 : ∀ c, coreOf u c = coreOf s c := by subst hu; intro c; rw [coreOf_countWait]; rfl
  have U3 : u.now = s.now := by
    subst hu
    have A : ∀ (p : Prop) [Decidable p] (a i e v : Nat) (s : State), (if p then cntSet s a i e v else s).now = s.now := by
      intro p _ a i e v s; split <;> rfl
    unfold countWait; dsimp only; split
    · rfl
    · rw [A, A]; rfl
  generalize hv : modTsk (fun x => { x with vtime := mset 0 x.vtime sl k.tag }) u = v
  have V1 : ∀ m, task v sl m = task s sl m := by subst hv; intro m; exact U1 m
  refine ⟨?_, ?_, fun c => ?_, fun m hm => ?_⟩
  · rw [task_modTask]
  · subst hv; exact U3
  · rw [coreOf_modTask]; subst hv; exact U2 c
  · rw [task_modTask_ne (by omega), V1]

/-- What giving a task to a core leaves. -/
theorem giveTask_ok (c n : Nat) (s : State) :
    (task (enterTask c n (dispatchTask (sliceOfCore c) n s)) (sliceOfCore c) n).state = tskRunning
    ∧ (task (enterTask c n (dispatchTask (sliceOfCore c) n s)) (sliceOfCore c) n).runAt = s.now
    ∧ (coreOf (enterTask c n (dispatchTask (sliceOfCore c) n s)) c).task = some n
    ∧ (coreOf (enterTask c n (dispatchTask (sliceOfCore c) n s)) c).pc = (coreOf s c).pc
    ∧ (coreOf (enterTask c n (dispatchTask (sliceOfCore c) n s)) c).csr = (coreOf s c).csr
    ∧ (coreOf (enterTask c n (dispatchTask (sliceOfCore c) n s)) c).preempted = (coreOf s c).preempted
    ∧ (coreOf (enterTask c n (dispatchTask (sliceOfCore c) n s)) c).savedWindow = (coreOf s c).savedWindow
    ∧ ∀ m, n ≠ m → task (enterTask c n (dispatchTask (sliceOfCore c) n s)) (sliceOfCore c) m = task s (sliceOfCore c) m := by
  obtain ⟨D1, D2, D3, D4⟩ := dispatchTask_ok (sliceOfCore c) n s
  generalize dispatchTask (sliceOfCore c) n s = v at *
  unfold enterTask
  dsimp only
  generalize sliceOfCore c = sl at *
  generalize taskWindow _ _ _ = w
  rw [coreOf_modCore, coreOf_modTask, D3]
  refine ⟨?_, ?_, rfl, rfl, rfl, rfl, rfl, fun m hm => ?_⟩
  · rw [task_modCore, task_modTask]; exact D1
  · rw [task_modCore, task_modTask]; exact D2
  · rw [task_modCore, task_modTask_ne (by omega), D4 m hm]

end Sys2Proof.Laws
end

