-- ==== Sys2Proof/Tests/Slice0.lean ====
section
/-! SUPPORT. Tests. -/

namespace Sys2Proof.Tests
set_option Elab.async false
open Sys2Proof Sys2Proof.Machine

/-- A command begins when these facts, each decidable, hold. -/
theorem begins_of {s : State} {i : Instr} {g : Nat} (h : ringOf i = some g ∧ g < 64 ∧ (ring s g).begun < (ring s g).cons
    ∧ s.hif.inflight = [] ∧ s.hif.fetched = [] ∧ s.hif.aborts = [] ∧ s.lcs.zeroising = false
    ∧ (isDomainCtl i = true ∨ targetAbsent s (cmdTarget i).1 (cmdTarget i).2 = false
      ∧ targetDown s (cmdTarget i).1 (cmdTarget i).2 = false)) : begins s i g :=
  ⟨h.1, h.2.1, h.2.2.1, h.2.2.2.1, fun _ => h.2.2.2.2.1, h.2.2.2.2.2.1, h.2.2.2.2.2.2.1, h.2.2.2.2.2.2.2⟩

/-- A device in operation: started, committed, link A up, CUS-A in office, one descriptor fetched on command ring 0, window
0 over all host memory below 2^40 − 4,096, and 1,000 s passed. -/
def on : State := { State.reset with
  now := 10 ^ 15
  regs := [(regAddr (.hifWinLo 0), 7), (regAddr (.hifWinSize 0), 0x0FFFFFFF)]
  hif := { a := { up := true, committed := true, dbOk := true, consOk := true, statOk := true }, perst := true
           rings := [(0, { enabled := true, cons := 1, prod := 1 })] }
  cus := { holder := 1, adopted := true, aState := 2, bState := 0 }
  pwr := { phase := .ready, committed := true, inReset := false } }

/-- A command header on ring 0 with a target. -/
def hd (kind unit : Nat) : Hdr := ⟨0, false, false, kind, unit, 7⟩

/-- A Form T body of one entry. -/
def ft (object first hostAddr : Nat) : FormT := ⟨object, 1, first, hostAddr, 64, 0, 5⟩

/-- A frame of 64 zero bytes received on port 0. -/
def pk : Pkt := { bytes := List.replicate 64 0, port := 0, pipe := 0, stamp := ⟨0, 0, 0⟩, stampOk := true, gen := 0 }

/-- A punt of 64 bytes that waits for a buffer since the start of the run. -/
def pu : Punt := ⟨0, 1, 0, 64, ⟨0, 0, 0⟩, 0, 0, 0, 0, List.replicate 64 0, 0, 0, 1, 0, []⟩

/-- A command in flight at index 0 of ring 0, its step running. -/
def fl (c : Instr) : InFlight := ⟨c, 0, 0, 0, .nothing, true, false, 0, 0, 0, [], 0, false, []⟩

theorem mget_off {V : Type} (d : V) (k : Nat) : ∀ m : Map V, (∀ p ∈ m, p.1 ≠ k) → mget d m k = d
  | [], _ => rfl
  | (j, v) :: r, h => by
    unfold mget
    rw [if_neg (h (j, v) List.mem_cons_self)]
    exact mget_off d k r fun p q => h p (List.mem_cons_of_mem _ q)

theorem rings_off {s : State} (h : s.regs.all (fun p => decide (p.1 < 0x84008)) = true) (g : Nat) :
    cfgBit s (.hifRingCfg g) 31 = false := by
  have k : ∀ p ∈ s.regs, p.1 ≠ regAddr (.hifRingCfg g) := by
    intro p hp e
    have := List.all_eq_true.mp h p hp
    have a : regAddr (.hifRingCfg g) = 0x84008 + 0x10 * g := rfl
    simp only [decide_eq_true_eq] at this
    omega
  unfold cfgBit stored
  rw [mget_off _ _ _ k]
  have : resetOf (.hifRingCfg g) = resetOf (.hifRingCfg 0) := rfl
  rw [this]
  decide

theorem sources_off {s : State} (h : s.regs.all (fun p => decide (p.1 < 0x88000)) = true) (x : Nat) : srcMap s x = none := by
  have k : ∀ p ∈ s.regs, p.1 ≠ regAddr (.hifEvsrcMap x) := by
    intro p hp e
    have := List.all_eq_true.mp h p hp
    have a : regAddr (.hifEvsrcMap x) = 0x88000 + 4 * x := rfl
    simp only [decide_eq_true_eq] at this
    omega
  unfold srcMap cfgBit stored
  dsimp only
  rw [mget_off _ _ _ k]
  have : resetOf (.hifEvsrcMap x) = resetOf (.hifEvsrcMap 0) := rfl
  rw [this, if_neg (by decide)]

/-- The operating device with a domain in a state. -/
def dm (n : Nat) (d : Domain) : State := { on with pwr := { on.pwr with domains := [(n, d)] } }

/-- Logical ranks 0.0 and 0.2 on physical ranks 0 and 2. -/
def mapped0 : Hbm := { map := [(0, 1), (2, 3)] }

/-- A gate list of one entry that begins at once. -/
def gl : GateList := ⟨⟨0, 0, 0⟩, 1000, 0, false, [⟨1000, 0xFFFF⟩], 0, []⟩

/-- A queued frame. -/
def qe : QEnt := ⟨0, 15, none, false, 0, 0, 2, 0, 88, 7, true, true, true, false, false⟩

theorem old_version (k : Nat) : (mget ({} : Cluster) [(0, { fw := 0 })] k).minVersion = 0 := by
  unfold mget mget
  split <;> rfl

/-- The first cell of a frame on lane 15 of a die link, sent at the start of the run. -/
def lc : LinkCell := ⟨0, 0, 15, 0, true, true, 0, 15, ⟨0, [(0, none)], 0, 0, false, 0⟩, 0, 0, true, 64, false, 0, 0, 0⟩

/-- Slice 0 with its first core in a state, its first cluster on, and a task in slot 0. -/
def ct (x : Core) (k : Task) : State := { on with tsk := { cores := [(0, x)], clusters := [(0, { fw := 0 })], slots := [(0, k)] } }

/-- Slice 0 in a state, over one committed record, number 0 of half 0, in life ACTIVE with a key of 5 bytes of zeros. -/
def s0 (x : Slice) : State := { on with
  flow := { slices := [(0, x)], halves := [(0, { fresh := 1 })] }, mem := [(recAddr 0 + 41, 5), (recAddr 0 + 42, 2)] }

/-- A request of pipeline 0 for that record's key. -/
def rq : Req := ⟨0, List.replicate 40 0, 0, 0, 0, 5, false, 0, 0, false, none, none, [0]⟩

/-- The hot line of that record. -/
def hl : Hot := ⟨0, 0, 2, 0, false, false, 0, 0, 0, 0, 0, 0, 0, 0, List.replicate 40 0, 0, 0, false, 0, 0, 0, [], 0, false, [], none, none⟩

theorem ok_of {A : Type} {x : Except Nat A} {r : A} (h : x.toOption = some r) : x = .ok r := by
  cases x with
  | error _ => cases h
  | ok a => exact congrArg Except.ok (Option.some.inj h)

theorem error_of {A : Type} {x : Except Nat A} {e : Nat} (h : (match x with | .error n => some n | .ok _ => none) = some e) :
    x = .error e := by
  cases x with
  | error _ => exact congrArg Except.error (Option.some.inj h)
  | ok _ => cases h

theorem pair_of {A B : Type} {x : A × B} {a : A} (h : x.1 = a) : x = (a, x.2) := by
  rw [← h]

/-- Slice 0 with a NAT_BLOCK request, and NAT pool 0 in use with one address. -/
def poolS : State := { s0 { wk := [⟨0, 0, 10, 0, 0⟩] } with tmem := wrN [] (tAddr 0 (tOff 0x0504 0)) 16 (2 ^ 64 + 2 ^ 15) }

theorem some_of {A : Type} (d : A) {x : Option A} (h : x.isSome = true) : x = some (x.getD d) := by
  cases x with
  | none => cases h
  | some _ => rfl

theorem compareValue_fwd (s : State) (f : Fwd) (d b : Nat) : compareValue { s with fwd := f } d b = compareValue s d b := rfl

/-- Pipeline 0 with a message from slice 0, and what it holds. -/
def ch (m : ChanMsg) (x : Pipe) (ws : List Waiting) : State := { on with
  flow := { chan := [(0, [m])], waiting := [(0, ws)] }, pipes := [(0, x)], pkts := [(0, pk)] }

theorem take_ch (m : ChanMsg) (x : Pipe) (ws : List Waiting) (h : isPull m = false) :
    takeChan 0 0 (ch m x ws) = some (m, modChan 0 0 (fun _ => []) (ch m x ws)) := by
  have : takeFirst (fun m => !isPull m) (chan (ch m x ws) 0 0) = some (m, []) := by
    have : chan (ch m x ws) 0 0 = [m] := rfl
    rw [this]
    unfold takeFirst
    simp [h]
  unfold takeChan
  rw [this]

/-- A speculative pass of frame 0 under record 0 of slice 0, looked up at confirm time 0. -/
def ps : Pass := ⟨0, 0, some 0, 0, 0, 0, 0, false, .spec, false, false, 0, 0, 0, {}, 0⟩

/-- A waiting list entry for the key of zeros. -/
def wt : Waiting := ⟨List.replicate 40 0, 0, 0, rq, [], true, []⟩

/-- Die 2 with L2 slots written, and slice 5, which owns forwarding domain 1's address 2, with requests. -/
def l2 (es : List (Nat × Nat)) (q : List LearnMsg) (b : List L2Msg) : State := { on with
  tmem := es.foldl (fun m e => wrN m (tAddr 2 (tOff 0x0201 e.1)) 16 e.2) [], now := 0
  fwd := { learnQ := [(5, q)], bcast := [(2, b)] } }

/-- The L2 entry of that address, learned toward port 7. -/
def le7 : Nat := (3 * 2 ^ 17 + 7) * 2 ^ 64 + 2 ^ 48 + 2

/-- Port 0 up, with nothing more. -/
def p0up : State := { on with egs := { up := [(0, true)] } }

/-- Pipeline 0 with frame 0 waiting to enter. -/
def in0 : State := { on with pkts := [(0, pk)], pipes := [(0, { intake := [0] })] }

/-- Inject ring 0 with one descriptor fetched. -/
def inj (p : Pwr) : State := { on with hif := { on.hif with rings := [(400, { enabled := true, cons := 1 })] }, pwr := p }

/-- An inject of 64 bytes to port 508, the last of a part whose octets are in four ports of two lanes. -/
def dj (port buffer : Nat) : Inject := ⟨0, false, false, false, 64, 7, buffer, port, 15⟩

/-- Pipeline 0 whose holding buffer has 98,304 bytes, 96 KiB, with port 0 up. -/
def full : State := { p0up with
  pkts := [(0, { pk with bytes := List.replicate 98300 0 })], pipes := [(0, { intake := [0] })] }

/-- The same with every priority of port 0 lossless. -/
def fullL : State := { full with regs := [(regAddr (.bufPortCfg 0), 0x2FFFF)] }


/-- An inject ring's state where its port's pipeline works. -/
def injS : State := inj on.pwr

/-- What takes the inject's cells, and its frame. -/
def injW : Waiter := ⟨12 + 15 % 4, 2 ^ 32 * (400 + 0) + (ring injS (400 + 0)).begun % 2 ^ 32, cellsFor (rdBytes injS.host 4096 64).length, false⟩
def injV : State := (askCells (dieOfPipe 15) injW injS).2
def injX : Pkt := { portFrame injV 508 (rdBytes injS.host 4096 64) (stampNow injV) with
        epoch := (epochOf injV 15).cur, tc := 15 % 16, check := some true, flowOk := true, noticed := true, noticeAt := injV.now, settled := true
        inj := some (400 + 0, (ring injS (400 + 0)).begun), oneStep := false, stampReq := false, nocomp := false, cookie := 7
        snap := { hdrs := (parse injV 15 (epochOf injV 15).cur (cfg injV (.prsLaneCfg 508) 3 0) (rdBytes injS.host 4096 64)).hdrs } }
def injC : Option (List Nat × State) := allocChain (dieOfPipe 15) (12 + 15 % 4) (ownerTag 1 (15 % 4)) injV.nextPkt 0
  (payloads ((rdBytes injS.host 4096 64).length + 4) (withFcs (rdBytes injS.host 4096 64))) (newPkt injX injV).2

theorem dma_ok {g a len al : Nat} {wr : Bool} {s : State} (h : addrStatus s (ringLink s g) a len al wr = 0) :
    dmaCheck g a len al wr s = (0, s) := by
  unfold dmaCheck
  dsimp only
  rw [h, if_pos rfl]

theorem table_full (s : State) : 8192 ≤ tableCount { s with pipes := [(0, { intake := [0], passes := List.replicate 8192 ps, fullAt := some 0 })] } 0 := by
  have e : tableCount { s with pipes := [(0, { intake := [0], passes := List.replicate 8192 ps, fullAt := some 0 })] } 0
      = ((List.replicate 8192 ps).filter unconfirmed).length := rfl
  have f : ((List.replicate 8192 ps).filter unconfirmed).length = 8192 := by
    rw [List.filter_replicate, if_pos (by decide), List.length_replicate]
  exact Nat.le_of_eq (e.trans f).symm

/-- The operating device's port 0 with no lossless priority and a full holding buffer. -/
def fullD : State := { full with regs := (regAddr (.bufPortCfg 0), 0) :: on.regs }

/-- The front frame of pipeline 0's intake, its cells asked for. -/
def in0R : State := (askCells (dieOfPipe 0) (frameWaiter in0 0) (noteFull 0 in0)).2
def in0V : State := holdCheck 0 (modPipe 0 (fun y => { y with intake := [] }) ((writeFrame 0 in0R).getD in0R))
/-- The same where no cell of the shared pool is free. -/
def inFull : State := { in0 with pkts := [(0, { pk with bytes := List.replicate 640 0 })], regs := (regAddr (.bufPortCfg 0), 0) :: (regAddr (.bufPoolCfg 0), 0xFFFFFFFF) :: on.regs }

/-- CUS-B loads an image of 320 bytes at the start of HBM, its trailer with one entry signed by the vendor key. -/
def preS : State := { on with
  regs := [(regAddr .cusPreloadLen, 320)], hbm := mapped0, mem := [(64, 1)], cus := { on.cus with aState := 5, bState := 2 } }
def preImg : List Byte := rdBytes preS.mem 0 320

/-- The premises of the preload's clause, where the free signature check accepts the image. -/
theorem witness_CustodiansAndTheString_15 (h : Config.ecdsaByHash Config.vendorKeyHash (signedPart preImg) (List.replicate 96 0) = true) :
    (([1, 2].find? fun w => decide (cusState preS w = csLoading)) = some 2) ∧ preloadCause true true preS = 0 := by
  refine ⟨by decide +kernel, ?_⟩
  have a : preloadRange preS = some 0 := by decide +kernel
  have b : (firstPoison preS 0 (preloadLen preS)).isSome = false := by decide +kernel
  have c : sigEntries preImg = [(0, List.replicate 96 0)] := by decide +kernel
  have d : preImg.length = 320 := by decide +kernel
  have e : signerHash preS.lcs 0 = some Config.vendorKeyHash := rfl
  have f : rdBytes preS.mem 0 (preloadLen preS) = preImg := rfl
  unfold preloadCause
  rw [a]
  dsimp only
  rw [b, f]
  unfold imageCheck
  rw [c, d]
  simp only [List.filterMap, e, Option.map, List.any, h, Bool.or_false]
  rfl

/-- The same inject where no cell of its die's shared pool is free. -/
def injNC : State := { injS with regs := (regAddr (.bufPoolCfg 3), 0xFFFFFFFF) :: on.regs }

/-- An inject of 640 bytes. -/
def dj2 : Inject := ⟨0, false, false, false, 640, 7, 4096, 508, 15⟩
def injW2 : Waiter := ⟨12 + 15 % 4, 2 ^ 32 * (400 + 0) + (ring injS (400 + 0)).begun % 2 ^ 32, cellsFor (rdBytes injS.host 4096 640).length, false⟩

theorem cmp_at (c : _) : cmpOf { on with fwd := { cmp := [(4095, c)] } } 3 1023 = c := rfl

theorem cmp_eq (f : Fwd) : compareValue { on with fwd := f } 3 1023 = ({ stale := false, digest := compareValue on 3 1023 } : Cmp).digest := by
  rw [compareValue_fwd]
/-- A number other than the one given. -/
def other (n : Nat) : Nat := if n = 0 then 1 else 0
theorem ne_other (n : Nat) : n ≠ other n := by
  unfold other
  split <;> omega
theorem cmp_ne (f : Fwd) : compareValue { on with fwd := f } 3 1023 ≠ ({ stale := false, digest := other (compareValue on 3 1023) } : Cmp).digest := by
  rw [compareValue_fwd]
  generalize compareValue on 3 1023 = n
  exact ne_other n

/-! ### Well-formedness: for each check a term it refuses -/

theorem test_wf_accepts : [Instr.registerWrite .linkA 0x0080050 5, .nop (hd 15 4095), .tableWrite (hd 1 3) (ft 0x0205 4095 4096),
    .memRead (hd 2 15) ⟨2 ^ 64 - 1, 0, 64, 0⟩, .injectPort ⟨255, true, true, true, 65535, 0, 0, 511, 15⟩].all Instr.wf = true := by decide

theorem test_wf_refuses_address_not_aligned : (Instr.registerWrite .linkA 0x80051 0).wf = false := by decide
theorem test_wf_refuses_address_past_bar2 : (Instr.registerWrite .linkA (2 ^ 24 + 2 ^ 16) 0).wf = false := by decide
theorem test_wf_refuses_page_block : (Instr.pollRead .a .doorbell 8 []).wf = false := by decide
theorem test_wf_refuses_polled_value : (Instr.pollRead .a .doorbell 0 [(2 ^ 64, 0)]).wf = false := by decide
theorem test_wf_refuses_polled_block : (Instr.pollData .a .doorbell 8).wf = false := by decide
theorem test_wf_refuses_pool : (Instr.poolEntryRead 64).wf = false := by decide
theorem test_wf_refuses_event_ring : (Instr.eventProducerWrite 127).wf = false := by decide
theorem test_wf_refuses_vector : (Instr.msixMessage .a 256 false).wf = false := by decide
theorem test_wf_refuses_training_die : (Instr.hbmTrainingEnd [4]).wf = false := by decide
theorem test_wf_refuses_command_ring : (Instr.nop ⟨64, false, false, 0, 0, 0⟩).wf = false := by decide
theorem test_wf_refuses_unit : (Instr.nop (hd 0 4096)).wf = false := by decide
theorem test_wf_refuses_kind : (Instr.fence (hd 16 0)).wf = false := by decide
theorem test_wf_refuses_ring_number : (Instr.ringSetQuery (hd 0 0) 65536).wf = false := by decide
theorem test_wf_refuses_size_code : (Instr.ringSetMove (hd 0 0) 0 256 0).wf = false := by decide
theorem test_wf_refuses_pool_number : (Instr.poolSetFlush (hd 0 0) 256 0).wf = false := by decide
theorem test_wf_refuses_abort_index : (Instr.abort (hd 0 0) 0 (2 ^ 64)).wf = false := by decide
theorem test_wf_refuses_object : (Instr.tableRead (hd 1 3) (ft 65536 0 0)).wf = false := by decide
theorem test_wf_refuses_length : (Instr.memWrite (hd 2 0) ⟨0, 0, 2 ^ 64, 0⟩).wf = false := by decide
theorem test_wf_refuses_step : (Instr.timeSetStep (hd 0 0) false ⟨0, 10 ^ 9, 0⟩ 0).wf = false := by decide
theorem test_wf_refuses_rate : (Instr.timeSetRate (hd 0 0) (2 ^ 31)).wf = false := by decide
theorem test_wf_refuses_output : (Instr.timeSetTout (hd 0 0) ⟨8, true, false, false, ⟨0, 0, 0⟩, 0, 0, 0⟩).wf = false := by decide
theorem test_wf_refuses_peer_delay : (Instr.timeSetPeerDelay (hd 0 0) 512 0).wf = false := by decide
theorem test_wf_refuses_synce : (Instr.timeSetSynce (hd 0 0) 2 true 0 1).wf = false := by decide
theorem test_wf_refuses_drain : (Instr.fwSwitch (hd 0 0) 0 0 65536).wf = false := by decide
theorem test_wf_refuses_reinit : (Instr.domainCtlReinit (hd 0 0) 256).wf = false := by decide
theorem test_wf_refuses_g3_table : (Instr.g3TableRead ⟨0, false, false, 256, 0⟩ ⟨0, 1, 0⟩).wf = false := by decide
theorem test_wf_refuses_g3_count : (Instr.g3TableWrite ⟨0, false, false, 0, 0⟩ ⟨0, 65536, 0⟩).wf = false := by decide
theorem test_wf_refuses_g3_record : (Instr.g3FlowDelete ⟨0, false, false, 0, 0⟩ (2 ^ 32)).wf = false := by decide
theorem test_wf_refuses_step_index : (Instr.longCommandStep 0 (2 ^ 64)).wf = false := by decide
theorem test_wf_refuses_inject_port : (Instr.injectPort (dj 512 0)).wf = false := by decide
theorem test_wf_refuses_grant_pool : (Instr.puntBufferGrant 64).wf = false := by decide
theorem test_wf_refuses_frame_port : (Instr.frameReceive 512 []).wf = false := by decide

/-! ### Words: the table gives no row any bits; descriptors written out from R54, R58 and R95 -/

theorem test_no_word_spells_a_command (nbits w : Nat) : decodeTableWord nbits w = none := rfl
/-- NOP with ORDER, cookie 0x01020304: opcode in byte 0, flags in byte 1, target in bytes 3–2, cookie in bytes 7–4 (R54). -/
theorem test_desc_nop : decodeDesc 5 0x0102030400000100 = some (.nop ⟨5, true, false, 0, 0, 0x01020304⟩) := by decide +kernel
/-- RING_SET MOVE of ring 0x28F to size code 3 and base 0x1122334455667740 (R58). -/
theorem test_desc_ring_move : decodeDesc 0 0x1122334455667740000000000303028F0000000700000001
    = some (.ringSetMove ⟨0, false, false, 0, 0, 7⟩ 0x28F 3 0x1122334455667740) := by decide +kernel
/-- TABLE_READ at port 300 (kind 4) of object 0x0205, count 2 from 9 (R54, R56). -/
theorem test_desc_table_read : decodeDesc 0 0x000000000000000900000002000002050000000A412C0011
    = some (.tableRead ⟨0, false, false, 4, 300, 10⟩ ⟨0x0205, 2, 9, 0, 0, 0, 0⟩) := by decide +kernel
/-- A reserved action of RING_SET, and an opcode no table lists, spell no command. -/
theorem test_desc_reserved : decodeDesc 0 0x0400010000000000000001 = none ∧ decodeDesc 0 0x05 = none := by decide +kernel

/-! ### The register map's example of R535 -/

theorem test_regs_of_the_example : regAt 0xC00150 = some (.phyOctetCfg 37) ∧ regAt 0xCC00B0 = some (.fwdPortCfg 300)
    ∧ regAt 0xD40124 = some (.tskClassCfg 5 9) ∧ regAt 0x4304B0 = some (.bufPortCfg 300)
    ∧ regAt 0xAC0164 = some (.fwdPortCfg 217) := by decide +kernel
theorem test_reg_of_an_absent_unit : regPresent .lhx9406 (.fwdPortCfg 217) = false := by decide

/-! ### Worked examples of the spec, each one operation or one step -/

/-- CRC-32C of "123456789" (R442, R443): the feed engine's result. -/
theorem test_crc_of_the_example : crcOf 1 [0x31, 0x32, 0x33, 0x34, 0x35, 0x36, 0x37, 0x38, 0x39] = 0xE3069283 := by decide +kernel

/-- A queue at −800 bytes whose new entry has 16,000,000 kb/s and 1,500 bytes (R338). -/
def inDebt (forgive : Bool) : State := { on with egs := {
  peak := [(0, -800 * 65536)], newShaper := [(0, some (1500 * 2 ^ 96 + 16000000 * 2 ^ 64, forgive))] } }

theorem test_shaper_repays_at_the_new_rate : peakOf (updateNode 0 (inDebt false)) 0 = -672 * 65536 := by decide +kernel
theorem test_shaper_forgives : peakOf (updateNode 0 (inDebt true)) 0 = 0 := by decide +kernel

/-- The lane of the numbering example: L300 is in O37, on P9 and die Q2 (R9). -/
theorem test_lane_of_the_example : octOfLane 300 = 37 ∧ pipeOfLane 300 = 9 ∧ dieOfLane 300 = 2 := by decide

/-- A register that locks at the commit takes a write before it and keeps its value after it (R12, R541). -/
theorem test_write_before_commit : stored (addrWrite .linkA (regAddr .hifPollCfg) 5 { on with hif := {} }) .hifPollCfg = 5 := by
  decide +kernel
theorem test_write_after_commit : stored (addrWrite .linkA (regAddr (.fwdAgeCfg 0)) 5 on) (.fwdAgeCfg 0) = 0x800A7530 := by decide +kernel
/-- A write of a reserved offset changes nothing (R538). -/
theorem test_reserved_offset : addrWrite .linkA 0x3FFFC 5 on = on := by decide +kernel

/-- HBM and table memory: a byte written is read back, and writing a zero lists nothing. -/
theorem test_memory_byte : rd8 (wr8 [] 5 7) 5 = 7 ∧ rd8 (wr8 [] 5 7) 6 = 0 ∧ wr8 (wr8 [] 5 7) 5 0 = [] := by decide

/-- NOP completes at once (R55): the step after it leaves no command in flight and the queue empty. -/
theorem test_step_of_nop : (match step { on with pending := [.nop (hd 0 0)] } with
    | .next t => t.hif.inflight.isEmpty && t.pending.isEmpty && (ring t 0).begun = 1 | _ => false) = true := by decide +kernel
/-- A word that spells no command puts none in the queue. -/
theorem test_with_fetch_word (s : State) (n w : Nat) : s.withFetchWord n w = s := rfl

/-! ### A state that meets the premises of each statement, clause by clause -/

/-! #### TimeSetActions -/

theorem witness_TimeSetActions_0 : ∃ (h : _) (s : State), (begins s (.timeSetRead h) h.ring) :=
  ⟨hd 0 0, on, begins_of (by decide +kernel)⟩

theorem witness_TimeSetActions_1 : ∃ (h : _) (rate : _) (s : State), (begins s (.timeSetRate h rate) h.ring) ∧ (fitsI 32 rate = true) :=
  ⟨hd 0 0, -(2 ^ 31), on, begins_of (by decide +kernel), (by decide +kernel)⟩

theorem witness_TimeSetActions_2 : ∃ (h : _) (time : _) (off : _) (s : State), (begins s (.timeSetStep h false time off) h.ring) ∧ (s.tim.stepDone = false) ∧ (time.wf = true) :=
  ⟨hd 0 0, ⟨2 ^ 48 - 1, 999999999, 0xFFFF⟩, 0, on, begins_of (by decide +kernel), (by decide +kernel), (by decide +kernel)⟩

theorem witness_TimeSetActions_3 : ∃ (h : _) (s : State), (begins s (.timeSetMarkTraceable h) h.ring) ∧ (s.tim.stepDone = true) ∧ (s.tim.holdover = false) :=
  ⟨hd 0 0, { on with tim := { stepDone := true } }, begins_of (by decide +kernel), (by decide +kernel), (by decide +kernel)⟩

theorem witness_TimeSetActions_4 : ∃ (h : _) (c : _) (s : State), (begins s (.timeSetTout h c) h.ring) ∧ (c.output < 8) ∧ (c.enable = true) ∧ (c.periodic = false) ∧ (toutLimits c = true) ∧ (fxNow s + fxUs ≤ stampFx c.start) :=
  ⟨hd 0 0, ⟨7, true, false, false, ⟨10, 0, 0⟩, 0, 0, 1000⟩, on, begins_of (by decide +kernel), (by decide +kernel), (by decide +kernel), (by decide +kernel), (by decide +kernel), (by decide +kernel)⟩

theorem witness_TimeSetActions_5 : ∃ (h : _) (port : _) (delay : _) (s : State), (begins s (.timeSetPeerDelay h port delay) h.ring) ∧ (port < 512) ∧ (hasLane s.part port = true) ∧ (delay < 2 ^ 32) :=
  ⟨hd 0 0, 511, 2 ^ 32 - 1, on, begins_of (by decide +kernel), (by decide +kernel), (by decide +kernel), (by decide +kernel)⟩

theorem witness_TimeSetActions_6 : ∃ (h : _) (o : _) (lane : _) (divider : _) (s : State), (begins s (.timeSetSynce h o true lane divider) h.ring) ∧ (o < 2) ∧ (4 ≤ divider) ∧ (divider ≤ 4095) ∧ (lane < 512) ∧ (hasLane s.part lane = true) ∧ (laneLocked s lane = true) :=
  ⟨hd 0 0, 1, 0, 4095, { on with egs := { up := [(0, true)] } }, begins_of (by decide +kernel), (by decide +kernel), (by decide +kernel), (by decide +kernel), (by decide +kernel), (by decide +kernel), (by decide +kernel)⟩

/-! #### TimeUnitEvents -/

theorem witness_TimeUnitEvents_0 : ∃ (s : State), (s.tim.trefOk = true) :=
  ⟨{ on with tim := { trefOk := true } }, (by decide +kernel)⟩

theorem witness_TimeUnitEvents_2 : ∃ (s : State), (s.tim.trefOk = true) ∧ (s.tim.locked = false) ∧ (s.tim.holdover = true) :=
  ⟨{ on with tim := { trefOk := true, holdover := true } }, (by decide +kernel), (by decide +kernel), (by decide +kernel)⟩

theorem witness_TimeUnitEvents_3 : ∃ (s : State), (s.tim.holdover = true) ∧ (cfg s .timCfg 31 16 ≠ 0) ∧ (s.tim.holdAt + cfg s .timCfg 31 16 * 10 ^ 12 ≤ s.now) ∧ (s.tim.traceable = true) :=
  ⟨{ on with regs := [(regAddr .timCfg, 0x00010000)], tim := { holdover := true, traceable := true, holdAt := 10 ^ 15 - 10 ^ 12 } }, (by decide +kernel), (by decide +kernel), (by decide +kernel), (by decide +kernel)⟩

theorem witness_TimeUnitEvents_4 : ∃ (s : State) (o : _) (p : _), (o < 8) ∧ (toutOf s o = some p) ∧ (toutNewOf s o = none) ∧ (p.next ≤ fxNow s) ∧ (p.leading = true) :=
  ⟨{ on with tim := { tout := [(7, some ⟨⟨0, 0, 0⟩, 0, 5, false, 0, true, false, false⟩)] } }, 7, ⟨⟨0, 0, 0⟩, 0, 5, false, 0, true, false, false⟩, (by decide +kernel), (by decide +kernel), (by decide +kernel), (by decide +kernel), (by decide +kernel)⟩

theorem witness_TimeUnitEvents_5 : ∃ (s : State) (i : _) (f : _) (t0 : _), (i < 4) ∧ (bit (cfg s .timTinCfg (2 * i + 1) (2 * i)) (b2n f) = true) ∧ (mget none s.tim.tin i = some t0) ∧ (t0 + 100000 ≤ s.now) :=
  ⟨{ on with regs := [(regAddr .timTinCfg, 0xFF)], tim := { tin := [(3, some (10 ^ 15 - 100000))] } }, 3, false, 10 ^ 15 - 100000, (by decide +kernel), (by decide +kernel), (by decide +kernel), (by decide +kernel)⟩

theorem witness_TimeUnitEvents_6 : ∃ (s : State) (o : _), ((synceOf s o).enabled = true) ∧ ((synceOf s o).squelched = false) :=
  ⟨{ on with tim := { synce := [(1, { enabled := true })] } }, 1, (by decide +kernel), (by decide +kernel)⟩

theorem witness_TimeUnitEvents_7 : ∃ (s : State) (o : _), ((synceOf s o).enabled = true) ∧ ((synceOf s o).squelched = true) ∧ (laneLocked s (synceOf s o).lane = true) ∧ ((synceOf s o).since + 10 ^ 11 ≤ s.now) :=
  ⟨{ on with egs := { up := [(0, true)] }, tim := { synce := [(1, { enabled := true, squelched := true, since := 10 ^ 15 - 10 ^ 11 })] } }, 1, (by decide +kernel), (by decide +kernel), (by decide +kernel), (by decide +kernel)⟩

/-! #### RegisterWriteStores -/

theorem witness_RegisterWriteStores_0 : ∃ (path : Path) (a : _) (r : _) (s : State), (a < bar2Base) ∧ (regAt a = some r) ∧ (plainReg r = true) ∧ (writable s path r) :=
  ⟨.linkA, 0x80050, .hifPollCfg, { on with hif := {} }, (by decide +kernel), (by decide +kernel), (by decide +kernel), (by unfold writable; decide +kernel)⟩

theorem witness_RegisterWriteStores_1 : ∃ (a : _), (a < bar2Base) ∧ (regAt a = none) :=
  ⟨2, (by decide +kernel), (by decide +kernel)⟩

theorem witness_RegisterWriteStores_2 : ∃ (a : _) (r : _) (s : State), (a < bar2Base) ∧ (regAt a = some r) ∧ (regPresent s.part r = false) :=
  ⟨regAddr (.hbmTempCfg 1), .hbmTempCfg 1, { on with part := .lhx9406 }, (by decide +kernel), (by decide +kernel), (by decide +kernel)⟩

theorem witness_RegisterWriteStores_3 : ∃ (a : _) (r : _) (s : State), (a < bar2Base) ∧ (regAt a = some r) ∧ (pathOpen s .linkB = true) ∧ (regExists s r = true) ∧ (linkBMayWrite s r = false) :=
  ⟨0x80050, .hifPollCfg, { on with hif := { bifurcated := true } }, (by decide +kernel), (by decide +kernel), (by decide +kernel), (by decide +kernel), (by decide +kernel)⟩

theorem witness_RegisterWriteStores_4 : ∃ (a : _) (s : State), (bar2Base ≤ a) ∧ (a < bar2Base + 4096) ∧ (a % 16 = 12) ∧ (pathOpen s .linkA = true) :=
  ⟨bar2Base + 12, on, (by decide +kernel), (by decide +kernel), (by decide +kernel), (by decide +kernel)⟩

/-! #### CommitsAndSelects -/

theorem witness_CommitsAndSelects_0 : ∃ (path : Path) (s : State), (writable s path .hifCtrl) ∧ (path ≠ .linkB) ∧ (s.hif.a.committed = false) ∧ (pagePasses s .a 0 = true) ∧ (pagePasses s .a 1 = true) ∧ (pagePasses s .a 2 = true) ∧ ((∀ g, cfgBit s (.hifRingCfg g) 31 = false)) :=
  ⟨.linkA, { on with hif := { on.hif with a := { up := true } } }, (by unfold writable; decide +kernel), (by decide +kernel), (by decide +kernel), (by decide +kernel), (by decide +kernel), (by decide +kernel), (rings_off (by decide +kernel))⟩

theorem witness_CommitsAndSelects_1 : ∃ (path : Path) (s : State), (writable s path .hifCtrl) ∧ (s.hif.a.committed = true) ∧ (s.hif.b.committed = false) ∧ (s.hif.bifurcated = true) ∧ (pagePasses s .b 0 = true) ∧ (pagePasses s .b 1 = true) ∧ (pagePasses s .b 2 = true) ∧ ((∀ g, cfgBit s (.hifRingCfg g) 31 = false)) :=
  ⟨.linkB, { on with regs := (regAddr (.hifWinOwn 0), 1) :: on.regs, hif := { on.hif with bifurcated := true } }, (by unfold writable; decide +kernel), (by decide +kernel), (by decide +kernel), (by decide +kernel), (by decide +kernel), (by decide +kernel), (by decide +kernel), (rings_off (by decide +kernel))⟩

theorem witness_CommitsAndSelects_2 : ∃ (path : Path) (s : State), (writable s path .hifCtrl) ∧ (path ≠ .linkB) ∧ (s.hif.a.committed = false) :=
  ⟨.linkA, { on with hif := {} }, (by unfold writable; decide +kernel), (by decide +kernel), (by decide +kernel)⟩

theorem witness_CommitsAndSelects_3 : ∃ (path : Path) (s : State), (writable s path .hifCtrl) ∧ (s.hif.a.committed = true) ∧ (s.hif.b.committed = false) ∧ (s.hif.bifurcated = true) :=
  ⟨.linkA, { on with hif := { on.hif with bifurcated := true } }, (by unfold writable; decide +kernel), (by decide +kernel), (by decide +kernel), (by decide +kernel)⟩

theorem witness_CommitsAndSelects_4 : ∃ (path : Path) (s : State), (writable s path .hifCtrl) ∧ (s.hif.a.committed = false) :=
  ⟨.linkA, { on with hif := {} }, (by unfold writable; decide +kernel), (by decide +kernel)⟩

theorem witness_CommitsAndSelects_5 : ∃ (path : Path) (s : State), (writable s path .pwrCtrl) ∧ (s.hif.a.committed = true) ∧ (s.pwr.committed = false) :=
  ⟨.linkA, { on with pwr := { phase := .ready } }, (by unfold writable; decide +kernel), (by decide +kernel), (by decide +kernel)⟩

theorem witness_CommitsAndSelects_6 : ∃ (path : Path) (s : State), (writable s path .hifCtrl) ∧ (path ≠ .linkB) ∧ (s.hif.a.committed = true) :=
  ⟨.linkA, on, (by unfold writable; decide +kernel), (by decide +kernel), (by decide +kernel)⟩

theorem witness_CommitsAndSelects_7 : ∃ (path : Path) (s : State), (writable s path .pwrCtrl) ∧ (s.hif.a.committed = true) ∧ (s.pwr.committed = true) :=
  ⟨.linkA, on, (by unfold writable; decide +kernel), (by decide +kernel), (by decide +kernel)⟩

theorem witness_CommitsAndSelects_8 : ∃ (path : Path) (s : State), (writable s path .pwrInfraSel) :=
  ⟨.linkA, on, (by unfold writable; decide +kernel)⟩

/-! #### ResetsAndStartUp -/

theorem witness_ResetsAndStartUp_1 : ∃ (s : State), (s.pwr.thermtrip = false) :=
  ⟨on, (by decide +kernel)⟩

theorem witness_ResetsAndStartUp_2 : ∃ (path : Path) (s : State), (writable s path .pwrCtrl) ∧ (s.pwr.thermtrip = false) :=
  ⟨.linkA, on, (by unfold writable; decide +kernel), (by decide +kernel)⟩

theorem witness_ResetsAndStartUp_3 : ∃ (s : State), (s.pwr.phase = .reset) ∧ (s.pwr.inReset = true) :=
  ⟨State.reset, (by decide +kernel), (by decide +kernel)⟩

theorem witness_ResetsAndStartUp_4 : ∃ (s : State), (s.pwr.phase = .started) :=
  ⟨{ on with pwr := { phase := .started } }, (by decide +kernel)⟩

theorem witness_ResetsAndStartUp_5 : ∃ (s : State), (s.pwr.phase = .trained) ∧ (s.lcs.zeroising = false) ∧ (holdAdopted s = true) :=
  ⟨{ on with pwr := { phase := .trained } }, (by decide +kernel), (by decide +kernel), (by decide +kernel)⟩

theorem witness_ResetsAndStartUp_6 : ∃ (d : _) (s : State), (hasDie s.part d = true) ∧ (120 ≤ mget 0 s.pwr.temps d) ∧ (s.pwr.thermtrip = false) :=
  ⟨3, { on with pwr := { phase := .ready, temps := [(3, 120)] } }, (by decide +kernel), (by decide +kernel), (by decide +kernel)⟩

/-! #### HostLinkRows -/

theorem witness_HostLinkRows_1 : ∃ (l : Link) (rate : _) (s : State), (s.hif.perst = true) ∧ (s.pwr.phase ≠ .reset) ∧ ((l = .a ∨ s.hif.bifurcated = true)) ∧ (rate < 3) :=
  ⟨.a, 2, on, (by decide +kernel), (by decide +kernel), (by decide +kernel), (by decide +kernel)⟩

theorem witness_HostLinkRows_2 : ∃ (l : Link) (cause : HirCause) (s : State), (cause = .flr ∨ cause = .hotReset ∨ (∃ path, cause = .resetBit path ∧ writable s path .hifCtrl ∧ (path = .linkB → l = .b))) ∧ ((l = .a ∨ s.hif.bifurcated = true)) :=
  ⟨.b, .resetBit .linkB, { on with hif := { bifurcated := true } }, Or.inr (Or.inr ⟨.linkB, rfl, by unfold writable; decide, by decide⟩), (by decide +kernel)⟩

theorem witness_HostLinkRows_3 : ∃ (path : Path) (l : _) (s : State), (writable s path .hifCtrl) ∧ ((path = .linkB → l = .b)) ∧ ((l = .a ∨ s.hif.bifurcated = true)) ∧ ((linkSt s l).stopped = true) ∧ ((linkSt s l).committed = true) ∧ (ringsHeld s = false) ∧ ((∀ g, cfgBit s (.hifRingCfg g) 31 = false)) :=
  ⟨.linkA, .a, { on with hif := { on.hif with a := { up := true, committed := true, stopped := true } } }, (by unfold writable; decide +kernel), (by decide +kernel), (by decide +kernel), (by decide +kernel), (by decide +kernel), (by decide +kernel), (rings_off (by decide +kernel))⟩

theorem witness_HostLinkRows_4 : ∃ (path : Path) (l : _) (s : State), (writable s path .hifCtrl) ∧ ((linkSt s l).stopped = false) :=
  ⟨.linkA, .a, on, (by unfold writable; decide +kernel), (by decide +kernel)⟩

/-! #### PollingAndHeartbeat -/

theorem witness_PollingAndHeartbeat_0 : ∃ (s : State), (s.hif.a.committed = true) ∧ (s.hif.a.statOk = true) ∧ (s.hif.a.up = true) ∧ (s.hif.a.beat + 99 * 10 ^ 7 ≤ s.now) ∧ (s.hif.b.up = false) :=
  ⟨on, (by decide +kernel), (by decide +kernel), (by decide +kernel), (by decide +kernel), (by decide +kernel)⟩

theorem witness_PollingAndHeartbeat_1 : ∃ (l : Link) (pg : _) (b : _) (s : State), ((pg = .doorbell → (linkSt s l).dbOk = true)) ∧ ((pg = .consumer → (linkSt s l).consOk = true)) ∧ ((linkSt s l).up = true) ∧ (blockRings s l pg b ≠ []) ∧ ((∀ u i, (pollBlock s l pg b).last = some (u, i) → u + i ≤ s.now)) :=
  ⟨.a, .doorbell, 0, on, (by decide +kernel), (by decide +kernel), (by decide +kernel), (by decide +kernel), (by intro u i h; cases h)⟩

theorem witness_PollingAndHeartbeat_2 : ∃ (l : _) (b : _) (data : _) (rest : _) (i : _) (g : _) (s : State), ((pollBlock s l .doorbell b).out = data :: rest) ∧ (blockRings s l .doorbell b = [(i, g)]) ∧ (g < 64) ∧ (nth 0 data i ≠ nth 0 (pollBlock s l .doorbell b).seen i) ∧ ((ring s g).cons < nth 0 data i) ∧ ((ring s g).enabled = true) ∧ ((ring s (pairOf s g)).held = []) :=
  ⟨.a, 0, [2], [], 0, 0, { on with hif := { on.hif with poll := [(0, { out := [[2]], seen := [1] })] } }, (by decide +kernel), (by decide +kernel), (by decide +kernel), (by decide +kernel), (by decide +kernel), (by decide +kernel), (by decide +kernel)⟩

theorem witness_PollingAndHeartbeat_3 : ∃ (p : _) (s : State), ((ring s (688 + p)).enabled = true) ∧ ((ring s (688 + p)).cons < (ring s (688 + p)).prod) ∧ ((pool s p).cache.length < 128) ∧ ((pool s p).flushing = false) :=
  ⟨63, { on with hif := { on.hif with rings := [(751, { enabled := true, prod := 1 })] } }, (by decide +kernel), (by decide +kernel), (by decide +kernel), (by decide +kernel)⟩

/-! #### EventsAndPunts -/

theorem witness_EventsAndPunts_0 : ∃ (g : _) (n : _) (s : State), ((ring s g).newest = some n) ∧ (n.at_ + 10 ^ 6 ≤ s.now) :=
  ⟨143, ⟨0, ⟨0, 0, 0, 0, 0, 0, 0⟩, 0, 10 ^ 15 - 10 ^ 6, [], true⟩, { on with hif := { rings := [(143, { newest := some ⟨0, ⟨0, 0, 0, 0, 0, 0, 0⟩, 0, 10 ^ 15 - 10 ^ 6, [], true⟩ })] } }, (by decide +kernel), (by decide +kernel)⟩

theorem witness_EventsAndPunts_1 : ∃ (l : _) (v : _) (s : State), ((linkSt s l).up = true) ∧ ((vec s l v).cause = true) ∧ ((vec s l v).masked = false) ∧ ((∀ u, (vec s l v).last = some u → u + holdoff s v ≤ s.now)) :=
  ⟨.a, 255, { on with hif := { on.hif with vecs := [(255, { cause := true, masked := false })] } }, (by decide +kernel), (by decide +kernel), (by decide +kernel), (by intro _ h; cases h)⟩

theorem witness_EventsAndPunts_2 : ∃ (l : _) (v : _) (um : _) (s : State), ((linkSt s l).up = true) ∧ ((vec s l v).cause = true) ∧ ((um = false ∨ (vec s l v).masked = true)) ∧ ((∀ u, (vec s l v).last = some u → u + holdoff s v ≤ s.now)) :=
  ⟨.a, 255, false, { on with hif := { on.hif with vecs := [(255, { cause := true, masked := false })] } }, (by decide +kernel), (by decide +kernel), (by decide +kernel), (by intro _ h; cases h)⟩

theorem witness_EventsAndPunts_3 : ∃ (p : _) (u : _) (rest : _) (a : _) (c : _) (s : State), ((pool s p).wait = u :: rest) ∧ ((pool s p).cache = a :: c) ∧ (u.drawn = []) ∧ (u.ring < 256) ∧ ((ring s (144 + u.ring)).enabled = true) ∧ (u.data.length ≤ poolBufSize s p) ∧ (addrStatus s (poolLink s p) a (poolBufSize s p) 64 true = 0) ∧ (s.hif.heldPunts = []) ∧ ((∀ src, srcMap s src = none)) ∧ ((linkSt s (ringLink s (144 + u.ring))).statOk = true) :=
  ⟨63, pu, [], 4096, [], { on with hif := { on.hif with rings := [(144, { enabled := true })], pools := [(63, { cache := [4096], wait := [pu] })] } }, (by decide +kernel), (by decide +kernel), (by decide +kernel), (by decide +kernel), (by decide +kernel), (by decide +kernel), (by decide +kernel), (by decide +kernel), (sources_off (by decide +kernel)), (by decide +kernel)⟩

theorem witness_EventsAndPunts_4 : ∃ (p : _) (u : _) (rest : _) (s : State), ((pool s p).wait = u :: rest) ∧ (cfgBit s (.hifPoolTmo p) 31 = true) ∧ (u.ring < 256) ∧ (u.since + cfg s (.hifPoolTmo p) 19 0 * 10 ^ 6 < s.now) ∧ ((ring s (144 + u.ring)).enabled = true) ∧ (s.hif.heldPunts = []) ∧ (bit u.flags 1 = false) ∧ ((∀ src, srcMap s src = none)) ∧ ((linkSt s (ringLink s (144 + u.ring))).statOk = true) :=
  ⟨63, pu, [], { on with regs := [(regAddr (.hifPoolTmo 63), 0x80000001)], hif := { on.hif with rings := [(144, { enabled := true })], pools := [(63, { wait := [pu] })] } }, (by decide +kernel), (by decide +kernel), (by decide +kernel), (by decide +kernel), (by decide +kernel), (by decide +kernel), (by decide +kernel), (sources_off (by decide +kernel)), (by decide +kernel)⟩

/-! #### CompletionWritten -/

theorem witness_CompletionWritten_0 : ∃ (g : _) (i : _) (e : _) (s : State), (inflight s (g, i) = some e) ∧ ((ring s g).pair < 64) ∧ ((cmdFlags e.cmd).2.1 = false) ∧ ((∀ k, k < 16 → (ring s (128 + k)).newest = none)) ∧ ((ring s (pairOf s g)).enabled = true) ∧ (ringFull (ring s (pairOf s g)) = false) ∧ ((ring s (pairOf s g)).held = []) ∧ ((linkSt s (ringLink s (pairOf s g))).statOk = true) :=
  ⟨0, 0, fl (.nop (hd 0 0)), { on with hif := { on.hif with rings := [(64, { enabled := true })], inflight := [fl (.nop (hd 0 0))] } }, (by decide +kernel), (by decide +kernel), (by decide +kernel), (by decide +kernel), (by decide +kernel), (by decide +kernel), (by decide +kernel), (by decide +kernel)⟩

theorem witness_CompletionWritten_1 : ∃ (g : _) (i : _) (e : _) (s : State), (inflight s (g, i) = some e) ∧ ((cmdFlags e.cmd).2.1 = true) :=
  ⟨0, 0, fl (.nop ⟨0, false, true, 0, 0, 7⟩), { on with hif := { on.hif with inflight := [fl (.nop ⟨0, false, true, 0, 0, 7⟩)] } }, (by decide +kernel), (by decide +kernel)⟩

/-! #### BasicRingCommands -/

theorem witness_BasicRingCommands_0 : ∃ (h : _) (s : State), (begins s (.nop h) h.ring) :=
  ⟨hd 0 0, on, begins_of (by decide +kernel)⟩

theorem witness_BasicRingCommands_1 : ∃ (h : _) (s : State), (begins s (.fence h) h.ring) :=
  ⟨hd 0 0, on, begins_of (by decide +kernel)⟩

theorem witness_BasicRingCommands_2 : ∃ (h : _) (s : State), (begins s (.g3Nop h) h.ring) :=
  ⟨⟨0, false, false, 0, 7⟩, on, begins_of (by decide +kernel)⟩

theorem witness_BasicRingCommands_3 : ∃ (h : _) (g : _) (i : _) (s : State), (begins s (.abort h g i) h.ring) ∧ (g < 64) ∧ ((ring s g).begun ≤ i) ∧ ((g = h.ring → (ring s g).begun < i)) ∧ (i < (ring s g).cons) :=
  ⟨hd 0 0, 63, 0, { on with hif := { on.hif with rings := [(0, { cons := 1 }), (63, { cons := 1 })] } }, begins_of (by decide +kernel), (by decide +kernel), (by decide +kernel), (by decide +kernel), (by decide +kernel)⟩

theorem witness_BasicRingCommands_4 : ∃ (h : _) (g : _) (s : State), (begins s (.ringSetQuery h g) h.ring) ∧ (g < 752) :=
  ⟨hd 0 0, 751, on, begins_of (by decide +kernel), (by decide +kernel)⟩

theorem witness_BasicRingCommands_5 : ∃ (h : _) (g : _) (s : State), (begins s (.ringSetEnable h g) h.ring) ∧ (g < 752) ∧ (driverWritten g = true) ∧ ((linkSt s (ringLink s g)).committed = true) ∧ ((linkSt s (ringLink s g)).stopped = false) ∧ (pagesOk s g = true) ∧ (addrStatus s (ringLink s g) (ring s g).base (64 * ringSize (ring s g)) 4096 false = 0) :=
  ⟨hd 0 0, 63, { on with hif := { on.hif with rings := [(0, { cons := 1 })] } }, begins_of (by decide +kernel), (by decide +kernel), (by decide +kernel), (by decide +kernel), (by decide +kernel), (by decide +kernel), (by decide +kernel)⟩

theorem witness_BasicRingCommands_6 : ∃ (h : _) (g : _) (s : State), (begins s (.ringSetEnable h g) h.ring) ∧ (g < 752) ∧ ((linkSt s (ringLink s g)).committed = false) :=
  ⟨hd 0 0, 0, { on with hif := { on.hif with a := {} } }, begins_of (by decide +kernel), (by decide +kernel), (by decide +kernel)⟩

theorem witness_BasicRingCommands_7 : ∃ (h : _) (g : _) (s : State), (begins s (.ringSetDisable h g) h.ring) ∧ (g < 752) ∧ (s.hif.heldPunts = []) ∧ ((ring s g).newest = none) ∧ ((∀ p, p < 64 → (pool s p).wait = [])) ∧ ((∀ k, k ∈ s.pkts → ∀ i, k.2.inj ≠ some (g, i))) ∧ ((g < 64 ∨ (400 ≤ g ∧ g < 656) → (ring (beginState s (.ringSetDisable h g) h.ring) g).begun = (ring s g).cons)) :=
  ⟨hd 0 0, 128, on, begins_of (by decide +kernel), (by decide +kernel), (by decide +kernel), (by decide +kernel), (by decide +kernel), (by intro k h; exact absurd h List.not_mem_nil), (by decide)⟩

theorem witness_BasicRingCommands_8 : ∃ (h : _) (g : _) (sz : _) (base : _) (s : State), (begins s (.ringSetMove h g sz base) h.ring) ∧ (g < 752) ∧ ((ring s g).enabled = false) ∧ (sz ≤ 10) ∧ (base < 2 ^ 64) :=
  ⟨hd 0 0, 751, 10, 2 ^ 64 - 1, on, begins_of (by decide +kernel), (by decide +kernel), (by decide +kernel), (by decide +kernel), (by decide +kernel)⟩

theorem witness_BasicRingCommands_9 : ∃ (h : _) (p : _) (s : State), (begins s (.poolSetQuery h p) h.ring) ∧ (p < 64) :=
  ⟨hd 0 0, 63, on, begins_of (by decide +kernel), (by decide +kernel)⟩

theorem witness_BasicRingCommands_10 : ∃ (h : _) (p : _) (a : _) (s : State), (begins s (.poolSetFlush h p a) h.ring) ∧ (p < 64) ∧ (addrStatus s (ringLink s h.ring) a 2048 64 true = 0) :=
  ⟨hd 0 0, 63, 4096, on, begins_of (by decide +kernel), (by decide +kernel), (by decide +kernel)⟩

theorem witness_BasicRingCommands_11 : ∃ (g : _) (i : _) (h : _) (e : _) (s : State), (inflight s (g, i) = some e) ∧ (e.cmd = .nop h) ∧ (e.stepping = false) ∧ (e.wait ≠ .nothing) ∧ (mustWait s e = none) ∧ (s.lcs.zeroising = false) ∧ (targetAbsent s (cmdTarget e.cmd).1 (cmdTarget e.cmd).2 = false) ∧ (targetDown s (cmdTarget e.cmd).1 (cmdTarget e.cmd).2 = false) :=
  ⟨0, 0, hd 0 0, { fl (.nop (hd 0 0)) with wait := .order, stepping := false }, { on with hif := { on.hif with inflight := [{ fl (.nop (hd 0 0)) with wait := .order, stepping := false }] } }, (by decide +kernel), (by decide +kernel), (by decide +kernel), (by decide +kernel), (by decide +kernel), (by decide +kernel), (by decide +kernel), (by decide +kernel)⟩

theorem witness_BasicRingCommands_12 : ∃ (g : _) (i : _) (e : _) (s : State), (inflight s (g, i) = some e) ∧ ((stepOf e).isSome = true) ∧ (e.stepping = true) ∧ (targetDown s (cmdTarget e.cmd).1 (cmdTarget e.cmd).2 = true) :=
  ⟨0, 0, fl (.memRead (hd 2 15) ⟨0, 0, 64, 0⟩), { on with hif := { on.hif with inflight := [fl (.memRead (hd 2 15) ⟨0, 0, 64, 0⟩)] }, pwr := { on.pwr with domains := [(domPipe 15, { state := 3 })] } }, (by decide +kernel), (by decide +kernel), (by decide +kernel), (by decide +kernel)⟩

/-! #### TableCommands -/

theorem witness_TableCommands_0 : ∃ (h : _) (t : _) (s : State), (begins s (.tableWrite h t) h.ring) ∧ (objKind t.object = .table) ∧ (keyed t.object = false) ∧ (t.object ≠ 0x0507) ∧ (t.hostAddr = 0) ∧ (t.count = 1) ∧ (t.first < entryCount t.object) ∧ (targetUnits s h.kind h.unit 1 ≠ []) ∧ (blockHeld s t.object t.first = false) ∧ (unitsPending s (h.ring, (ring s h.ring).begun) = false) :=
  ⟨hd 1 3, ft 0x0205 4095 0, on, begins_of (by decide +kernel), (by decide +kernel), (by decide +kernel), (by decide +kernel), (by decide +kernel), (by decide +kernel), (by decide +kernel), (by decide +kernel), (by decide +kernel), (by decide +kernel)⟩

theorem witness_TableCommands_1 : ∃ (h : _) (t : _) (d : _) (s : State), (begins s (.tableRead h t) h.ring) ∧ (objKind t.object = .table) ∧ (keyed t.object = false) ∧ (t.count = 1) ∧ (t.first < entryCount t.object) ∧ (targetUnits s h.kind h.unit 1 = [d]) ∧ (meetsAbsent s d (tOff t.object t.first) (slotSize t.object) = false) ∧ ((cmpOf s d (tOff t.object t.first / 65536)).suspect = false) ∧ (addrStatus s (ringLink s h.ring) t.hostAddr (Nat.max t.hostLen (slotSize t.object)) 64 true = 0) :=
  ⟨hd 1 3, ft 0x0205 4095 4096, 3, on, begins_of (by decide +kernel), (by decide +kernel), (by decide +kernel), (by decide +kernel), (by decide +kernel), (by decide +kernel), (by decide +kernel), (by decide +kernel), (by decide +kernel)⟩

theorem witness_TableCommands_2 : ∃ (h : _) (t : _) (s : State), (begins s (.tableBulkWrite h t) h.ring) ∧ (tableObj t.object = true) ∧ (targetUnits s h.kind h.unit (objUnitKind t.object) ≠ []) ∧ (addrStatus s (ringLink s h.ring) t.hostAddr (Nat.max t.hostLen (dataLen s t (sizeUnit (targetUnits s h.kind h.unit (objUnitKind t.object))) (clampCount (2 ^ 24) t.count))) 64 false = 0) :=
  ⟨hd 1 3, ft 0x0205 4095 4096, on, begins_of (by decide +kernel), (by decide +kernel), (by decide +kernel), (by decide +kernel)⟩

theorem witness_TableCommands_3 : ∃ (h : _) (t : _) (d : _) (s : State), (begins s (.tableBulkRead h t) h.ring) ∧ (tableObj t.object = true) ∧ (byKey t = false) ∧ (targetUnits s h.kind h.unit (objUnitKind t.object) = [d]) ∧ (addrStatus s (ringLink s h.ring) t.hostAddr (Nat.max t.hostLen (dataLen s t d (clampCount (2 ^ 24) t.count))) 64 true = 0) :=
  ⟨hd 1 3, ft 0x0205 4095 4096, 3, on, begins_of (by decide +kernel), (by decide +kernel), (by decide +kernel), (by decide +kernel), (by decide +kernel)⟩

theorem witness_TableCommands_4 : ∃ (h : _) (t : _) (d : _) (s : State), (begins s (.tableScan h t) h.ring) ∧ (t.object = 0x0201) ∧ (targetUnits s h.kind h.unit 1 = [d]) ∧ (addrStatus s (ringLink s h.ring) t.hostAddr (Nat.max t.hostLen (16 * clampCount (2 ^ 24) t.count)) 64 true = 0) :=
  ⟨hd 1 3, ft 0x0201 0 4096, 3, on, begins_of (by decide +kernel), (by decide +kernel), (by decide +kernel), (by decide +kernel)⟩

theorem witness_TableCommands_5 : ∃ (h : _) (t : _) (s : State), (begins s (.digestSet h t) h.ring) ∧ (t.object = 0x0290) ∧ (t.hostAddr = 0) ∧ (t.count = 1) ∧ (t.first < 1024) ∧ (targetUnits s h.kind h.unit 1 ≠ []) :=
  ⟨hd 1 3, ft 0x0290 1023 0, on, begins_of (by decide +kernel), (by decide +kernel), (by decide +kernel), (by decide +kernel), (by decide +kernel), (by decide +kernel)⟩

theorem witness_TableCommands_6 : ∃ (h : _) (t : _) (s : State), (begins s (.epochFlip h t) h.ring) ∧ (h.kind = 0) ∧ ((∀ p ∈ pipelines s.part, unitDown s 2 p = false ∧ (epochOf s p).draining = false ∧ inBank (epochOf s p) (epochOf s p).cur ≠ 0)) :=
  ⟨hd 0 0, ft 0x0107 0 0, { on with part := .lhx9406, cls := { epoch := (pipelines .lhx9406).map fun p => (p, { inA := 1 }) } }, begins_of (by decide +kernel), (by decide +kernel), (by decide +kernel)⟩

theorem witness_TableCommands_7 : ∃ (h : _) (b : _) (s : State), (begins s (.g3TableWrite h b) h.ring) ∧ (h.table = 0x11) ∧ (b.count = 1) ∧ (b.first < 8192) ∧ (addrStatus s (ringLink s h.ring) b.hostAddr 64 64 false = 0) ∧ (unitsPending s (h.ring, (ring s h.ring).begun) = false) :=
  ⟨⟨0, false, false, 0x11, 7⟩, ⟨8191, 1, 4096⟩, on, begins_of (by decide +kernel), (by decide +kernel), (by decide +kernel), (by decide +kernel), (by decide +kernel), (by decide +kernel)⟩

theorem witness_TableCommands_8 : ∃ (h : _) (b : _) (s : State), (begins s (.g3TableRead h b) h.ring) ∧ (h.table = 0x05) ∧ (b.count = 1) ∧ (b.first < 4096) ∧ (addrStatus s (ringLink s h.ring) b.hostAddr 64 64 true = 0) ∧ ((∀ d, meetsAbsent s d (tOff 0x0205 b.first) 8 = false ∧ (cmpOf s d (tOff 0x0205 b.first / 65536)).suspect = false)) :=
  ⟨⟨0, false, false, 0x05, 7⟩, ⟨4095, 1, 4096⟩, on, begins_of (by decide +kernel), (by decide +kernel), (by decide +kernel), (by decide +kernel), (by decide +kernel), (fun _ => ⟨rfl, rfl⟩)⟩

/-! #### FlowCommands -/

theorem witness_FlowCommands_0 : ∃ (h : _) (t : _) (r : _) (s : State), (begins s (.flowWrite h t) h.ring) ∧ (t.object = 0x0501) ∧ (t.hostAddr = 0) ∧ (bit t.first 63 = false) ∧ (nameIdx s (t.first % 2 ^ 63) = .found r) :=
  ⟨hd 0 0, ft 0x0501 0 0, 0, { on with flow := { halves := [(0, { fresh := 1 })] }, mem := [(recAddr 0 + 41, 5), (recAddr 0 + 42, 2)] }, begins_of (by decide +kernel), (by decide +kernel), (by decide +kernel), (by decide +kernel), (by decide +kernel)⟩

theorem witness_FlowCommands_1 : ∃ (h : _) (t : _) (r : _) (s : State), (begins s (.flowDelete h t) h.ring) ∧ (t.object = 0x0501) ∧ (bit t.first 63 = false) ∧ (bit t.opFlags 2 = false) ∧ (nameIdx s (t.first % 2 ^ 63) = .found r) ∧ (recOpen s r = true) :=
  ⟨hd 0 0, ft 0x0501 0 0, 0, { on with flow := { halves := [(0, { fresh := 1 })] }, mem := [(recAddr 0 + 41, 5), (recAddr 0 + 42, 2)] }, begins_of (by decide +kernel), (by decide +kernel), (by decide +kernel), (by decide +kernel), (by decide +kernel), (by decide +kernel)⟩

theorem witness_FlowCommands_2 : ∃ (h : _) (rec : _) (r : _) (s : State), (begins s (.g3FlowDelete h rec) h.ring) ∧ (nameIdx s rec = .found r) ∧ (recOpen s r = true) :=
  ⟨⟨0, false, false, 0x91, 7⟩, 0, 0, { on with flow := { halves := [(0, { fresh := 1 })] }, mem := [(recAddr 0 + 41, 5), (recAddr 0 + 42, 2)] }, begins_of (by decide +kernel), (by decide +kernel), (by decide +kernel)⟩

theorem witness_FlowCommands_3 : ∃ (h : _) (t : _) (r : _) (s : State), (begins s (.flowRead h t) h.ring) ∧ (t.object = 0x0501) ∧ (bit t.first 63 = false) ∧ (nameIdx s (t.first % 2 ^ 63) = .found r) ∧ (addrStatus s (ringLink s h.ring) t.hostAddr (Nat.max t.hostLen 256) 64 true = 0) :=
  ⟨hd 0 0, ft 0x0501 0 4096, 0, { on with flow := { halves := [(0, { fresh := 1 })] }, mem := [(recAddr 0 + 41, 5), (recAddr 0 + 42, 2)] }, begins_of (by decide +kernel), (by decide +kernel), (by decide +kernel), (by decide +kernel), (by decide +kernel)⟩

/-! #### CounterCommands -/

theorem witness_CounterCommands_0 : ∃ (h : _) (t : _) (d : _) (s : State), (begins s (.counterRead h t) h.ring) ∧ (t.object ∈ [0x0181, 0x0281, 0x0882, 0x0981, 0x0C81, 0x0C82, 0x0D81, 0x0D82]) ∧ (t.count = 1) ∧ (t.first < entryCount t.object) ∧ (targetUnits s h.kind h.unit (objUnitKind t.object) = [d]) ∧ (unitDown s (objUnitKind t.object) d = false) ∧ (addrStatus s (ringLink s h.ring) t.hostAddr (Nat.max t.hostLen 8) 64 true = 0) :=
  ⟨hd 1 3, ft 0x0281 15 4096, 3, on, begins_of (by decide +kernel), (by decide +kernel), (by decide +kernel), (by decide +kernel), (by decide +kernel), (by decide +kernel), (by decide +kernel)⟩

theorem witness_CounterCommands_1 : ∃ (h : _) (t : _) (d : _) (s : State), (begins s (.counterClear h t) h.ring) ∧ (t.object ∈ [0x0181, 0x0281, 0x0882, 0x0981, 0x0C81, 0x0C82, 0x0D81, 0x0D82]) ∧ (t.count = 1) ∧ (t.first < entryCount t.object) ∧ (targetUnits s h.kind h.unit (objUnitKind t.object) = [d]) :=
  ⟨hd 1 3, ft 0x0281 15 4096, 3, on, begins_of (by decide +kernel), (by decide +kernel), (by decide +kernel), (by decide +kernel), (by decide +kernel)⟩

theorem witness_CounterCommands_2 : ∃ (h : _) (b : _) (s : State), (begins s (.g3CounterRead h b) h.ring) ∧ (h.table = 0x82) ∧ (b.count = 1) ∧ (b.first < 16) ∧ (addrStatus s (ringLink s h.ring) b.hostAddr 64 64 true = 0) :=
  ⟨⟨0, false, false, 0x82, 7⟩, ⟨15, 1, 4096⟩, on, begins_of (by decide +kernel), (by decide +kernel), (by decide +kernel), (by decide +kernel), (by decide +kernel)⟩

/-! #### LongCommandsBegin -/

theorem witness_LongCommandsBegin_0 : ∃ (h : _) (t : _) (d : _) (s : State), (begins s (.shaperSet h t) h.ring) ∧ (t.object = 0x0902) ∧ (targetUnits s h.kind h.unit 1 = [d]) ∧ (t.count = 1) ∧ (t.first < 3200) :=
  ⟨hd 1 3, ft 0x0902 3199 0, 3, on, begins_of (by decide +kernel), (by decide +kernel), (by decide +kernel), (by decide +kernel), (by decide +kernel)⟩

theorem witness_LongCommandsBegin_1 : ∃ (h : _) (t : _) (s : State), (begins s (.gateLoad h t) h.ring) ∧ (gatePorts h s ≠ []) ∧ (t.object = 0x0903) ∧ (addrStatus s (ringLink s h.ring) t.hostAddr (Nat.max t.hostLen (ceilDiv (32 + 8 * gateCount t) 64 * 64)) 64 false = 0) :=
  ⟨hd 5 511, ft 0x0903 0 4096, on, begins_of (by decide +kernel), (by decide +kernel), (by decide +kernel), (by decide +kernel)⟩

theorem witness_LongCommandsBegin_2 : ∃ (g : _) (i : _) (h : _) (t : _) (e : _) (s : State), (inflight s (g, i) = some e) ∧ (e.cmd = .gateLoad h t) ∧ (e.stepping = true) ∧ (e.progress + 1 = gateCount t) ∧ (targetDown s (cmdTarget e.cmd).1 (cmdTarget e.cmd).2 = false) :=
  ⟨0, 0, hd 5 511, ft 0x0903 0 4096, fl (.gateLoad (hd 5 511) (ft 0x0903 0 4096)), { on with hif := { on.hif with inflight := [fl (.gateLoad (hd 5 511) (ft 0x0903 0 4096))] } }, (by decide +kernel), (by decide +kernel), (by decide +kernel), (by decide +kernel), (by decide +kernel)⟩

theorem witness_LongCommandsBegin_3 : ∃ (h : _) (t : _) (s : State), (begins s (.flowRestore h t) h.ring) ∧ (h.kind = 0) ∧ (t.object = 0x0501) ∧ (addrStatus s (ringLink s h.ring) t.hostAddr (Nat.max t.hostLen (320 * restoreCount t)) 64 false = 0) :=
  ⟨hd 0 0, ft 0x0501 0 4096, on, begins_of (by decide +kernel), (by decide +kernel), (by decide +kernel), (by decide +kernel)⟩

theorem witness_LongCommandsBegin_4 : ∃ (h : _) (m : _) (r : _) (s : State), (begins s (.memRead h m) h.ring) ∧ (m.length ≠ 0) ∧ (devRange s m.devAddr m.length = some r) ∧ (addrStatus s (ringLink s h.ring) m.hostAddr m.length 64 true = 0) :=
  ⟨hd 0 0, ⟨0, 4096, 64, 0⟩, .hbm 0, { on with hbm := mapped0 }, begins_of (by decide +kernel), (by decide +kernel), (by decide +kernel), (by decide +kernel)⟩

theorem witness_LongCommandsBegin_5 : ∃ (h : _) (m : _) (x : _) (s : State), (begins s (.memWrite h m) h.ring) ∧ (m.length ≠ 0) ∧ (devRange s m.devAddr m.length = some (.hbm x)) ∧ (3 ≤ regionOf (x % 2 ^ 35)) ∧ (addrStatus s (ringLink s h.ring) m.hostAddr m.length 64 false = 0) :=
  ⟨hd 0 0, ⟨2 ^ 34, 4096, 64, 0⟩, 2 ^ 34, { on with hbm := mapped0 }, begins_of (by decide +kernel), (by decide +kernel), (by decide +kernel), (by decide +kernel), (by decide +kernel)⟩

theorem witness_LongCommandsBegin_6 : ∃ (h : _) (m : _) (r : _) (s : State), (begins s (.checkScan h m) h.ring) ∧ (scanFields m = true) ∧ (devRange s m.devAddr m.length = some r) ∧ (addrStatus s (ringLink s h.ring) m.hostAddr (scanHost m) 64 (!bit m.opFlags 4) = 0) :=
  ⟨hd 0 0, ⟨0, 4096, 64, 1⟩, .hbm 0, { on with hbm := mapped0 }, begins_of (by decide +kernel), (by decide +kernel), (by decide +kernel), (by decide +kernel)⟩

theorem witness_LongCommandsBegin_7 : ∃ (h : _) (m : _) (s : State), (begins s (.fwStage h m) h.ring) ∧ (m.devAddr % 64 = 0) ∧ (m.devAddr + m.length ≤ imageMax) ∧ (m.length ≠ 0) ∧ (slotInUse s (m.opFlags % 2) = false) ∧ (addrStatus s (ringLink s h.ring) m.hostAddr m.length 64 false = 0) :=
  ⟨hd 0 0, ⟨0, 4096, 64, 1⟩, on, begins_of (by decide +kernel), (by decide +kernel), (by decide +kernel), (by decide +kernel), (by decide +kernel), (by decide +kernel)⟩

/-! #### FirmwareRollout -/

theorem witness_FirmwareRollout_0 : ∃ (h : _) (slot : _) (mask : _) (us : _) (sl : _) (s : State), (begins s (.fwSwitch h slot mask us) h.ring) ∧ (slot < 2) ∧ ((∀ x ∈ maskSlices mask, hasSlice s.part x = true)) ∧ (mget false s.tsk.slotValid slot = true) ∧ (s.tsk.rollout.running = false) ∧ ((∀ k, (cluster s k).fw ≤ 2 → imageHdr s slot 12 4 ≤ (cluster s k).version ∧ (cluster s k).minVersion ≤ imageHdr s slot 8 4)) ∧ (holdAdopted s = true) ∧ ((upTo 8).find? (fun x => bit (mask % 256) x) = some sl) ∧ (domOn s (domCluster (3 * sl)) = true) ∧ ((cluster s (3 * sl)).fw ≠ 5) :=
  ⟨hd 0 0, 1, 1, 5, 0, { on with tsk := { slotValid := [(1, true)], clusters := [(0, { fw := 0 })] } }, begins_of (by decide +kernel), (by decide +kernel), (by decide +kernel), (by decide +kernel), (by decide +kernel), (by intro k hk; exact ⟨Nat.zero_le _, Nat.le_trans (Nat.le_of_eq (old_version k)) (Nat.zero_le _)⟩), (by decide +kernel), (by decide +kernel), (by decide +kernel), (by decide +kernel)⟩

theorem witness_FirmwareRollout_1 : ∃ (k : _) (s : State), (s.tsk.rollout.at_ = some k) ∧ (s.tsk.rollout.running = true) ∧ ((cluster s k).fw = 1) ∧ (clusterIdle s k = true) ∧ (holdAdopted s = true) :=
  ⟨23, { on with tsk := { clusters := [(23, { fw := 1 })], rollout := { running := true, at_ := some 23 } } }, (by decide +kernel), (by decide +kernel), (by decide +kernel), (by decide +kernel), (by decide +kernel)⟩

theorem witness_FirmwareRollout_2 : ∃ (k : _) (s : State), (s.tsk.rollout.at_ = some k) ∧ (s.tsk.rollout.running = true) ∧ ((cluster s k).fw = 1) ∧ (clusterIdle s k = false) ∧ (holdAdopted s = true) ∧ (s.tsk.rollout.since + s.tsk.rollout.drainUs * 10 ^ 6 ≤ s.now) :=
  ⟨0, { on with tsk := { clusters := [(0, { fw := 1 })], cores := [(0, { task := some 0 })], rollout := { running := true, at_ := some 0, drainUs := 1 } } }, (by decide +kernel), (by decide +kernel), (by decide +kernel), (by decide +kernel), (by decide +kernel), (by decide +kernel)⟩

theorem witness_FirmwareRollout_3 : ∃ (k : _) (s : State), (s.tsk.rollout.at_ = some k) ∧ (s.tsk.rollout.running = true) ∧ ((cluster s k).fw = 2) ∧ (holdAdopted s = true) :=
  ⟨0, { on with tsk := { clusters := [(0, { fw := 2 })], rollout := { running := true, at_ := some 0 } } }, (by decide +kernel), (by decide +kernel), (by decide +kernel), (by decide +kernel)⟩

theorem witness_FirmwareRollout_4 : ∃ (k : _) (s : State), (s.tsk.rollout.at_ = some k) ∧ (s.tsk.rollout.running = true) ∧ ((cluster s k).fw = 2) ∧ (holdAdopted s = true) ∧ ((∀ x, x < 8 → bit s.tsk.rollout.selected x = true → bit s.tsk.rollout.done x = true)) ∧ (mirrorLost s (imageSlot s.tsk.rollout.slot + 64) (imageHdr s s.tsk.rollout.slot 0 4) = false) :=
  ⟨0, { on with tsk := { clusters := [(0, { fw := 2 })], rollout := { running := true, at_ := some 0, selected := 1, done := 1 } } }, (by decide +kernel), (by decide +kernel), (by decide +kernel), (by decide +kernel), (by decide +kernel), (by decide +kernel)⟩

/-! #### PowerDomains -/

theorem witness_PowerDomains_0 : ∃ (h : _) (n : _) (s : State), (begins s (.domainCtlQuery h) h.ring) ∧ (ctlDomain s h = some n) :=
  ⟨hd 2 15, domPipe 15, on, begins_of (by decide +kernel), (by decide +kernel)⟩

theorem witness_PowerDomains_1 : ∃ (h : _) (n : _) (s : State), (begins s (.domainCtlOff h) h.ring) ∧ (ctlDomain s h = some n) ∧ ((domain s n).state = dsOn) ∧ (offRefused s n = false) :=
  ⟨hd 7 23, domCluster 23, on, begins_of (by decide +kernel), (by decide +kernel), (by decide +kernel), (by decide +kernel)⟩

theorem witness_PowerDomains_2 : ∃ (h : _) (n : _) (s : State), (begins s (.domainCtlOn h) h.ring) ∧ (ctlDomain s h = some n) ∧ ((domain s n).state = dsOff) ∧ (onRefused s n = false) :=
  ⟨hd 2 15, domPipe 15, dm (domPipe 15) { state := 2 }, begins_of (by decide +kernel), (by decide +kernel), (by decide +kernel), (by decide +kernel)⟩

theorem witness_PowerDomains_3 : ∃ (h : _) (src : _) (n : _) (s : State), (begins s (.domainCtlReinit h src) h.ring) ∧ (ctlDomain s h = some n) ∧ ((domain s n).state = dsQuar) ∧ (onRefused s n = false) ∧ (srcRefused s n src = false) :=
  ⟨hd 2 15, 0xFF, domPipe 15, dm (domPipe 15) { state := 3 }, begins_of (by decide +kernel), (by decide +kernel), (by decide +kernel), (by decide +kernel), (by decide +kernel)⟩

theorem witness_PowerDomains_4 : ∃ (h : _) (src : _) (n : _) (s : State), (begins s (.domainCtlRestart h src) h.ring) ∧ (ctlDomain s h = some n) ∧ ((domain s n).state = dsOn) ∧ (offRefused s n = false) ∧ (srcRefused s n src = false) :=
  ⟨hd 7 23, 0xFF, domCluster 23, on, begins_of (by decide +kernel), (by decide +kernel), (by decide +kernel), (by decide +kernel), (by decide +kernel)⟩

theorem witness_PowerDomains_5 : ∃ (h : _) (src : _) (n : _) (s : State), (begins s (.domainCtlRestart h src) h.ring) ∧ (ctlDomain s h = some n) ∧ ((domain s n).state = dsQuar) ∧ (offRefused s n = false) ∧ (srcRefused s n src = false) :=
  ⟨hd 7 23, 0xFF, domCluster 23, dm (domCluster 23) { state := 3 }, begins_of (by decide +kernel), (by decide +kernel), (by decide +kernel), (by decide +kernel), (by decide +kernel)⟩

theorem witness_PowerDomains_6 : ∃ (n : _) (h : _) (e : _) (s : State), (hasDomain s.part n = true) ∧ ((∀ sl, domKind n ≠ .slice sl)) ∧ (ctlOn s n = some e) ∧ (e.cmd = .domainCtlOff h) ∧ (e.abort = false) ∧ ((domain s n).state = dsStopping) ∧ (stopReady s n = true) :=
  ⟨domPipe 15, hd 2 15, { fl (.domainCtlOff (hd 2 15)) with wait := .domain }, { dm (domPipe 15) { state := 1 } with hif := { on.hif with inflight := [{ fl (.domainCtlOff (hd 2 15)) with wait := .domain }] } }, (by decide +kernel), (by intro sl; revert sl; intro sl h; cases h), (by decide +kernel), (by decide +kernel), (by decide +kernel), (by decide +kernel), (by decide +kernel)⟩

theorem witness_PowerDomains_7 : ∃ (n : _) (k : _) (s : State), (hasDomain s.part n = true) ∧ (domKind n = .octet k) ∧ ((domain s n).state = dsInit) :=
  ⟨63, 63, dm 63 { state := 4 }, (by decide +kernel), (by decide +kernel), (by decide +kernel)⟩

theorem witness_PowerDomains_8 : ∃ (n : _) (s : State), (hasDomain s.part n = true) ∧ ((domain s n).state = dsInit) :=
  ⟨111, dm 111 { state := 4 }, (by decide +kernel), (by decide +kernel)⟩

theorem witness_PowerDomains_9 : ∃ (n : _) (s : State), (hasDomain s.part n = true) ∧ ((domain s n).state ≠ dsOff) :=
  ⟨111, on, (by decide +kernel), (by decide +kernel)⟩

theorem witness_PowerDomains_10 : ∃ (n : _) (s : State), (hasDomain s.part n = true) ∧ ((domain s n).state = dsQuar) ∧ ((domain s n).fault = true) ∧ (autoOn s n = true) ∧ ((∀ t, (domain s n).autoAt = some t → t + 10 ^ 13 ≤ s.now)) ∧ (ctlOn s n = none) ∧ (onRefused s n = false) :=
  ⟨domPipe 15, { dm (domPipe 15) { state := 3, fault := true } with regs := [(regAddr .pwrAutoCfg, 0xF)] }, (by decide +kernel), (by decide +kernel), (by decide +kernel), (by decide +kernel), (by intro t h; cases h), (by decide +kernel), (by decide +kernel)⟩

/-! #### PortsGatesAndShapers -/

theorem witness_PortsGatesAndShapers_0 : ∃ (p : _) (s : State), ((allPorts s).contains p = true) ∧ (s.pwr.committed = true) ∧ (domOn s (octOfLane p) = true) ∧ (domWorks s (domPipe (pipeOfLane p)) = true) ∧ (noTraffic s = false) ∧ (portUp s p = false) :=
  ⟨508, on, (by decide +kernel), (by decide +kernel), (by decide +kernel), (by decide +kernel), (by decide +kernel), (by decide +kernel)⟩

theorem witness_PortsGatesAndShapers_1 : ∃ (p : _) (s : State), (portUp s p = true) :=
  ⟨0, { on with egs := { up := [(0, true)] } }, (by decide +kernel)⟩

theorem witness_PortsGatesAndShapers_2 : ∃ (p : _) (s : State), (portUp s p = true) :=
  ⟨0, { on with egs := { up := [(0, true)] } }, (by decide +kernel)⟩

theorem witness_PortsGatesAndShapers_3 : ∃ (p : _) (l : _) (s : State), ((gates s p).running = some l) ∧ (l.open_ = false) ∧ ((gates s p).stretched = false) ∧ ((gates s p).held = false) ∧ ((gates s p).next ≤ timeFx s) :=
  ⟨0, gl, { on with egs := { gates := [(0, { running := some gl })] } }, (by decide +kernel), (by decide +kernel), (by decide +kernel), (by decide +kernel), (by decide +kernel)⟩

theorem witness_PortsGatesAndShapers_4 : ∃ (p : _) (l : _) (s : State), ((gates s p).held = false) ∧ ((gates s p).pending = some l) ∧ (l.start ≤ timeFx s) :=
  ⟨0, gl, { on with egs := { gates := [(0, { pending := some gl })] } }, (by decide +kernel), (by decide +kernel), (by decide +kernel)⟩

theorem witness_PortsGatesAndShapers_5 : ∃ (s : State), (s.now < s.egs.shaperAt + 64000) :=
  ⟨State.reset, (by decide +kernel)⟩

theorem witness_PortsGatesAndShapers_6 : ∃ (d : _) (s : State), (s.now < mget 0 s.egs.sampleAt d + Nat.max 10 (cfg s (.egsSampleCfg d) 15 0) * 10 ^ 6) :=
  ⟨0, State.reset, (by decide +kernel)⟩

theorem witness_PortsGatesAndShapers_7 : ∃ (key : _) (img : _) (f : _) (s : State), (mget none s.egs.newShaper key = some (img, f)) ∧ (s.egs.shaperAt + 64000 ≤ s.now) :=
  ⟨4096 * 3 + 3199, 5, true, { on with egs := { newShaper := [(4096 * 3 + 3199, some (5, true))] } }, (by decide +kernel), (by decide +kernel)⟩

theorem witness_PortsGatesAndShapers_8 : ∃ (d : _) (p : _) (q : _) (s : State), (hasDie s.part d = true) ∧ (cfgBit s (.egsSampleCfg d) 31 = true) ∧ (s.pwr.committed = true) ∧ (mget 0 s.egs.sampleAt d + sampleUs s d * 10 ^ 6 ≤ s.now) ∧ (((portsOfDie s d).flatMap fun port => ((upTo 16).filter fun q => cfgBit s (.egsSampleMask port) q).map fun q => (port, q)) = [(p, q)]) ∧ ((ring s (656 + cfg s (.egsSampleCfg d) 20 16)).enabled = false) :=
  ⟨0, 0, 15, { on with regs := [(regAddr (.egsSampleCfg 0), 0x80000000), (regAddr (.egsSampleMask 0), 0x8000)] }, (by decide +kernel), (by decide +kernel), (by decide +kernel), (by decide +kernel), (by decide +kernel), (by decide +kernel)⟩

theorem witness_PortsGatesAndShapers_9 : ∃ (path : Path) (s : State), (writable s path .timCtrl) :=
  ⟨.linkA, on, (by unfold writable; decide +kernel)⟩

theorem witness_PortsGatesAndShapers_10 : ∃ (path : Path) (s : State), (writable s path .timCtrl) :=
  ⟨.linkA, on, (by unfold writable; decide +kernel)⟩

/-! #### EgressFrames -/

theorem witness_EgressFrames_0 : ∃ (p : _) (g : _) (q : _) (h : _) (r : _) (s : State), ((launch s p).length < 8) ∧ (portUp s p = true) ∧ (portChoice (formTags p s) p = some (g, q)) ∧ (egq (formTags p s) p q = h :: r) :=
  ⟨0, 7, 15, qe, [], { on with egs := { up := [(0, true)], queues := [(15, [qe])] }, pkts := [(0, pk)] }, (by decide +kernel), (by decide +kernel), (by decide +kernel), (by decide +kernel)⟩

theorem witness_EgressFrames_1 : ∃ (p : _) (s : State), (8 ≤ (launch s p).length) :=
  ⟨0, { on with egs := { launch := [(0, List.replicate 8 qe)] } }, (by decide +kernel)⟩

theorem witness_EgressFrames_2 : ∃ (p : _) (e : _) (k : _) (bs : _) (s : State), (portUp s p = true) ∧ (mget none s.egs.sending p = none) ∧ (startable s p = some e) ∧ (pktOf s e.pkt = some k) ∧ ((edit (modLaunch p (removeFirst e) s) k k.copy p e.vid (txStamp (modLaunch p (removeFirst e) s) p) (compReady (modLaunch p (removeFirst e) s) p)).bytes = some bs) :=
  ⟨0, qe, { pk with noticed := true, check := some true }, (edit (modLaunch 0 (removeFirst qe) ({ on with egs := { up := [(0, true)], launch := [(0, [qe])] }, pkts := [(0, { pk with noticed := true, check := some true })] })) { pk with noticed := true, check := some true } false 0 none (txStamp (modLaunch 0 (removeFirst qe) ({ on with egs := { up := [(0, true)], launch := [(0, [qe])] }, pkts := [(0, { pk with noticed := true, check := some true })] })) 0) (compReady (modLaunch 0 (removeFirst qe) ({ on with egs := { up := [(0, true)], launch := [(0, [qe])] }, pkts := [(0, { pk with noticed := true, check := some true })] })) 0)).bytes.getD [], { on with egs := { up := [(0, true)], launch := [(0, [qe])] }, pkts := [(0, { pk with noticed := true, check := some true })] }, (by decide +kernel), (by decide +kernel), (by decide +kernel), (by decide +kernel), (some_of _ (by decide +kernel))⟩

theorem witness_EgressFrames_3 : ∃ (p : _) (d : _) (k : _) (s : State), (mget none s.egs.sending p = some d) ∧ (pktOf s d.ent.pkt = some k) ∧ (k.check.isSome = true) :=
  ⟨0, ⟨qe, ⟨0, 0, 0⟩, [], false, true⟩, { pk with check := some true }, { on with pkts := [(0, { pk with check := some true })], egs := { sending := [(0, some ⟨qe, ⟨0, 0, 0⟩, [], false, true⟩)] } }, (by decide +kernel), (by decide +kernel), (by decide +kernel)⟩

theorem witness_EgressFrames_4 : ∃ (k : _) (p : _) (x : _) (e : _) (n : _) (s : State), (pktOf s k = some x) ∧ (((upTo 16).flatMap (egq s p ·) ++ launch s p).find? (fun e => e.pkt = k ∧ e.copy) = some e) ∧ (eligFrom x e.ct = some n) ∧ (0 < e.hold) ∧ (n + e.hold * 10 ^ 6 ≤ s.now) :=
  ⟨0, 0, { pk with noticed := true, check := some true }, { qe with copy := true, hold := 1 }, 0, { on with pkts := [(0, { pk with noticed := true, check := some true })], egs := { launch := [(0, [{ qe with copy := true, hold := 1 }])] } }, (by decide +kernel), (by decide +kernel), (by decide +kernel), (by decide +kernel), (by decide +kernel)⟩

theorem witness_EgressFrames_5 : ∃ (p : _) (q : _) (t : _) (s : State), ((pauseSt s p q).sent = some t) ∧ (portUp s p = true) ∧ ((pfcProf s p).2.1 < (pauseSt s p q).account) ∧ (t + 0xFFFF * 512 * 1000 / Nat.max 1 (portRate s p) / 2 ≤ s.now) :=
  ⟨0, 7, 0, { on with egs := { up := [(0, true)] }, buf := { pause := [(7, { sent := some 0, account := 2 ^ 20 })] } }, (by decide +kernel), (by decide +kernel), (by decide +kernel), (by decide +kernel)⟩

theorem witness_EgressFrames_6 : ∃ (q : _), (q < 8) :=
  ⟨7, (by decide +kernel)⟩

theorem witness_EgressFrames_7 : ∃ (p : _) (q : _) (n : _) (s : State), (cfgBit s (.bufPortCfg p) q = true) ∧ (0 < n) ∧ ((pauseSt s p q).tripped = false) :=
  ⟨0, 7, 1, { on with regs := [(regAddr (.bufPortCfg 0), 0x200FF)] }, (by decide +kernel), (by decide +kernel), (by decide +kernel)⟩

theorem witness_EgressFrames_8 : ∃ (p : _) (q : _) (s : State), (cfgBit s (.bufPortCfg p) q = true) ∧ ((pauseSt s p q).tripped = false) :=
  ⟨0, 7, { on with regs := [(regAddr (.bufPortCfg 0), 0x200FF)] }, (by decide +kernel), (by decide +kernel)⟩

theorem witness_EgressFrames_9 : ∃ (p : _) (q : _) (s : State), (cfgBit s (.bufPortCfg p) q = false) :=
  ⟨0, 7, { on with regs := [(regAddr (.bufPortCfg 0), 0)] }, (by decide +kernel)⟩

theorem witness_EgressFrames_10 : ∃ (p : _) (q : _) (t : _) (s : State), ((pauseSt s p q).until_ = some t) ∧ (t ≤ s.now) :=
  ⟨0, 7, 10 ^ 15, { on with buf := { pause := [(7, { until_ := some (10 ^ 15) })] } }, (by decide +kernel), (by decide +kernel)⟩

theorem witness_EgressFrames_11 : ∃ (p : _) (q : _) (t : _) (s : State), (cfgBit s (.bufPortCfg p) 17 = true) ∧ (lossless s p q = true) ∧ (pausedNow s p q = true) ∧ (0 < queueCells s p q) ∧ ((pauseSt s p q).heldSince = some t) ∧ (t + cfg1 s (.bufWdCfg (dieOfLane p)) 15 0 * 10 ^ 9 ≤ s.now) :=
  ⟨0, 7, 0, { on with regs := [(regAddr (.bufPortCfg 0), 0x2FFFF)], buf := { pause := [(7, { heldSince := some 0, until_ := some (2 * 10 ^ 15) })] }, egs := { queues := [(7, [{ qe with queue := 7 }])] }, pkts := [(0, pk)] }, (by decide +kernel), (by decide +kernel), (by decide +kernel), (by decide +kernel), (by decide +kernel), (by decide +kernel)⟩

theorem witness_EgressFrames_12 : ∃ (p : _) (q : _) (s : State), ((pauseSt s p q).tripped = true) ∧ ((pauseSt s p q).lastXoff + cfg s (.bufWdCfg (dieOfLane p)) 31 16 * 10 ^ 9 ≤ s.now) :=
  ⟨0, 7, { on with buf := { pause := [(7, { tripped := true })] } }, (by decide +kernel), (by decide +kernel)⟩

theorem witness_EgressFrames_13 : ∃ (d : _) (s : State), (hasDie s.part d = true) ∧ (s.pwr.committed = true) ∧ (holdAdopted s = true) ∧ (mget false s.buf.auditing d = false) ∧ ((∀ t, mget none s.buf.auditAt d = some t → t + Nat.max 10 (cfg s (.bufAuditCfg d) 15 0) * 10 ^ 9 ≤ s.now)) :=
  ⟨3, on, (by decide +kernel), (by decide +kernel), (by decide +kernel), (by decide +kernel), (by decide +kernel)⟩

theorem witness_EgressFrames_14 : ∃ (d : _) (s : State), (mget false s.buf.auditing d = true) :=
  ⟨3, { on with buf := { auditing := [(3, true)] } }, (by decide +kernel)⟩

/-! #### FabricArbitersAndLinks -/

theorem witness_FabricArbitersAndLinks_0 : ∃ (s : State), (s.fab.checking = false) ∧ (s.fab.compare = true) :=
  ⟨on, (by decide +kernel), (by decide +kernel)⟩

theorem witness_FabricArbitersAndLinks_1 : ∃ (s : State), (s.fab.checking = true) :=
  ⟨{ on with fab := { checking := true } }, (by decide +kernel)⟩

theorem witness_FabricArbitersAndLinks_2 : ∃ (i : _) (j : _) (c : _) (e : _) (s : State), (s.fab.checking = false) ∧ (i < 16) ∧ (j < 16) ∧ (c < 16) ∧ ((each (pipelines s.part) refreshAdmit s).fab.withdrawn = []) ∧ (pairLink i j = none) ∧ (matchRound (each (pipelines s.part) refreshAdmit s) (b2n (!(each (pipelines s.part) refreshAdmit s).fab.compare && (each (pipelines s.part) refreshAdmit s).fab.active)) [] = [(i, j)]) ∧ (matchRound (each (pipelines s.part) refreshAdmit s) (b2n (!(each (pipelines s.part) refreshAdmit s).fab.compare && (each (pipelines s.part) refreshAdmit s).fab.active)) [(i, j)] = []) ∧ (nextClass (spinOn [(i, j)] (each (pipelines s.part) refreshAdmit s)) i j = some c) ∧ (voq s i j c = [e]) ∧ ((pktOf s e.pkt).isSome = true) ∧ (pktCells s e.pkt ≤ e.sent + 8) :=
  ⟨0, 0, 15, ⟨0, [(0, none)], 0, 0, false, 0⟩, { on with pkts := [(0, pk)], buf := { cells := [] }, fab := { voq := [(voqKey 0 0 15, [⟨0, [(0, none)], 0, 0, false, 0⟩])] } }, (by decide +kernel), (by decide +kernel), (by decide +kernel), (by decide +kernel), (by decide +kernel), (by decide +kernel), (by decide +kernel), (by decide +kernel), (by decide +kernel), (by decide +kernel), (by decide +kernel), (by decide +kernel)⟩

theorem witness_FabricArbitersAndLinks_4 : ∃ (s : State), (s.fab.checking = true) :=
  ⟨{ on with fab := { checking := true } }, (by decide +kernel)⟩

theorem witness_FabricArbitersAndLinks_5 : ∃ (a : _) (b : _) (s : State), (s.fab.checking = true) ∧ ((a && b) = false) :=
  ⟨true, false, { on with fab := { checking := true } }, (by decide +kernel), (by decide +kernel)⟩

theorem witness_FabricArbitersAndLinks_6 : ∃ (s : State), (s.fab.checking = false) ∧ (s.fab.q0ok = true) ∧ (s.fab.q2ok = false) ∧ (s.fab.checkAt + 10 ^ 12 ≤ s.now) :=
  ⟨{ on with fab := { q2ok := false } }, (by decide +kernel), (by decide +kernel), (by decide +kernel), (by decide +kernel)⟩

theorem witness_FabricArbitersAndLinks_7 : ∃ (s : State), (s.fab.checking = false) ∧ (s.fab.q0ok = false) ∧ (s.fab.checkAt + 10 ^ 12 ≤ s.now) :=
  ⟨{ on with fab := { q0ok := false } }, (by decide +kernel), (by decide +kernel), (by decide +kernel)⟩

theorem witness_FabricArbitersAndLinks_8 : ∃ (x : _) (f : _) (l : _) (c : _) (s : State), (wireCell s x f l = some c) :=
  ⟨5, false, 15, lc, { on with fab := { links := [(5, { up := true, bwd := { unacked := [lc] } })] } }, (by decide +kernel)⟩

theorem witness_FabricArbitersAndLinks_9 : ∃ (x : _) (f : _) (l : _) (c : _) (s : State), (wireCell s x f l = some c) ∧ (pktOf s c.ent.pkt = none) ∧ (wrapGe 32 c.lseq (linkDir s x f).got = true) ∧ ((linkDir s x f).ahead.contains c.lseq = false) :=
  ⟨5, false, 15, lc, { on with fab := { links := [(5, { up := true, bwd := { unacked := [lc] } })] } }, (by decide +kernel), (by decide +kernel), (by decide +kernel), (by decide +kernel)⟩

theorem witness_FabricArbitersAndLinks_10 : ∃ (x : _) (f : _) (v : _) (r : _) (s : State), ((linkDir s x f).acks = v :: r) :=
  ⟨5, true, 2 ^ 32 - 1, [], { on with fab := { links := [(5, { fwd := { acks := [2 ^ 32 - 1] } })] } }, (by decide +kernel)⟩

theorem witness_FabricArbitersAndLinks_11 : ∃ (x : _) (f : _) (v : _) (r : _) (c : _) (s : State), ((linkDir s x f).naks = v :: r) ∧ ((linkDir s x f).unacked.find? (fun c => c.lseq = v) = some c) :=
  ⟨5, true, 0, [], lc, { on with fab := { links := [(5, { fwd := { naks := [0], unacked := [lc] } })] } }, (by decide +kernel), (by decide +kernel)⟩

theorem witness_FabricArbitersAndLinks_12 : ∃ (x : _) (f : _) (c : _) (s : State), ((linkDir s x f).unacked.find? (fun c => decide (c.at_ + 200000 ≤ s.now)) = some c) :=
  ⟨5, true, lc, { on with fab := { links := [(5, { fwd := { unacked := [lc] } })] } }, (by decide +kernel)⟩

theorem witness_FabricArbitersAndLinks_14 : ∃ (i : _) (j : _) (a : _) (s : State), ((reseqOf s i j).gap = some a) ∧ (a + cfg1 s .fabReseqCfg 7 0 * 10 ^ 6 ≤ s.now) ∧ ((reseqOf s i j).held ≠ []) :=
  ⟨0, 15, 0, { on with fab := { reseq := [(reseqKey 0 15, { gap := some 0, held := [lc] })] } }, (by decide +kernel), (by decide +kernel), (by decide +kernel)⟩

/-! #### HbmControllers -/

theorem witness_HbmControllers_0 : ∃ (d : _) (b : _) (s : State), (hasDie s.part d = true) ∧ ((stack s d).postponed.find? (fun b => 8 ≤ b.2) = some b) :=
  ⟨3, (5, 8), { on with hbm := { hbms := [(3, { postponed := [(5, 8)] })] } }, (by decide +kernel), (by decide +kernel)⟩

theorem witness_HbmControllers_1 : ∃ (d : _) (p : _) (q : _) (r : _) (f : _) (u : _) (s : State), (hasDie s.part d = true) ∧ ((stack s d).postponed.find? (fun b => 8 ≤ b.2) = none) ∧ (portNext d s = (some p, u)) ∧ (mget [] (stack u d).ports p = q :: r) ∧ (reqRankAt u d q = some f) :=
  ⟨0, 1, ⟨0, none, 64, none⟩, [], 0, (portNext 0 { on with hbm := { mapped0 with hbms := [(0, { ports := [(1, [⟨0, none, 64, none⟩])] })] } }).2, { on with hbm := { mapped0 with hbms := [(0, { ports := [(1, [⟨0, none, 64, none⟩])] })] } }, (by decide +kernel), (by decide +kernel), rfl, (by decide +kernel), (by decide +kernel)⟩

theorem witness_HbmControllers_2 : ∃ (d : _) (b : _) (s : State), (hasDie s.part d = true) ∧ (mget 0 (stack s d).refAt b + refreshPs (stack s d) ≤ s.now) ∧ ((stack s d).panic = false) :=
  ⟨3, 0, on, (by decide +kernel), (by decide +kernel), (by decide +kernel)⟩

theorem witness_HbmControllers_3 : ∃ (d : _) (b : _) (s : State), (hasDie s.part d = true) ∧ (mget 0 (stack s d).refAt b + refreshPs (stack s d) ≤ s.now) ∧ ((stack s d).panic = true) ∧ (mget 0 (stack s d).postponed b < 8) :=
  ⟨3, 0, { on with hbm := { hbms := [(3, { panic := true, postponed := [(0, 7)] })] } }, (by decide +kernel), (by decide +kernel), (by decide +kernel), (by decide +kernel)⟩

theorem witness_HbmControllers_4 : ∃ (d : _) (b : _) (s : State), (s.now < mget 0 (stack s d).refAt b + (if (stack s d).refresh2x then 1950000 else 3900000)) :=
  ⟨3, 0, State.reset, (by decide +kernel)⟩

theorem witness_HbmControllers_5 : ∃ (d : _) (s : State), (s.now < (stack s d).tempAt + 10 ^ 9) :=
  ⟨3, State.reset, (by decide +kernel)⟩

theorem witness_HbmControllers_6 : ∃ (d : _) (k : _) (s : State), (s.now < mget 0 (stack s d).scrubAt k + cfg1 s (.hbmScrubCfg d) 7 0 * (3600 * 10 ^ 12) / rankBlocks) :=
  ⟨3, 2, State.reset, (by decide +kernel)⟩

theorem witness_HbmControllers_7 : ∃ (d : _) (k : _) (s : State), (s.now < mget 0 (stack s d).probeAt k + 10 ^ 12) :=
  ⟨3, 2, State.reset, (by decide +kernel)⟩

theorem witness_HbmControllers_8 : ∃ (d : _) (s : State), (hasDie s.part d = true) ∧ ((stack s d).tempAt + 10 ^ 9 ≤ s.now) :=
  ⟨3, on, (by decide +kernel), (by decide +kernel)⟩

theorem witness_HbmControllers_9 : ∃ (d : _) (k : _) (s : State), (hasDie s.part d = true) ∧ (k < 3) ∧ (holdAdopted s = true) ∧ ((stack s d).panic = false) ∧ (rankSt s (3 * d + k) ∈ [0, 1, 2, 6]) ∧ (mget 0 (stack s d).scrubAt k + patrolPs s d ≤ s.now) :=
  ⟨3, 2, { on with hbm := { rank := [(11, 6)] } }, (by decide +kernel), (by decide +kernel), (by decide +kernel), (by decide +kernel), (by decide +kernel), (by decide +kernel)⟩

theorem witness_HbmControllers_10 : ∃ (d : _) (k : _) (s : State), (hasDie s.part d = true) ∧ (k < 3) ∧ (rankSt s (3 * d + k) ≠ 4) ∧ (rankSt s (3 * d + k) ≠ 7) ∧ (mget 0 (stack s d).probeAt k + 10 ^ 12 ≤ s.now) :=
  ⟨3, 2, { on with hbm := { rank := [(11, 6)] } }, (by decide +kernel), (by decide +kernel), (by decide +kernel), (by decide +kernel), (by decide +kernel)⟩

theorem witness_HbmControllers_11 : ∃ (path : Path) (d : _) (v : Word) (f : _) (sp : _) (s : State), (writable s path (.hbmMigCtrl d)) ∧ (v &&& 3 ≠ 3) ∧ (s.hbm.mig = none) ∧ (rankOf s (3 * d + (v &&& 3).toNat) = some f) ∧ (rankSt s f = 0) ∧ (((upTo 12).find? fun f => decide (rankSt s f = 6) && (heldBy s f).isSome) = none) ∧ (spareRank s = some sp) :=
  ⟨.linkA, 0, 2, 2, 1, { on with hbm := { mapped0 with rank := [(0, 0), (1, 1), (2, 0)] } }, (by unfold writable; decide +kernel), (by decide +kernel), (by decide +kernel), (by decide +kernel), (by decide +kernel), (by decide +kernel), (by decide +kernel)⟩

theorem witness_HbmControllers_12 : ∃ (path : Path) (d : _) (g : _) (s : State), (writable s path (.hbmMigCtrl d)) ∧ (s.hbm.mig = some g) ∧ (g.m / 3 = d) ∧ (g.failure = false) :=
  ⟨.linkA, 0, ⟨2, 2, 1, 5, false, false, false, 0⟩, { on with hbm := { mig := some ⟨2, 2, 1, 5, false, false, false, 0⟩ } }, (by unfold writable; decide +kernel), (by decide +kernel), (by decide +kernel), (by decide +kernel)⟩

theorem witness_HbmControllers_13 : ∃ (g : _) (s : State), (s.hbm.mig = some g) ∧ (holdAdopted s = true) ∧ (g.at_ + chunkPs s g ≤ s.now) ∧ (g.n < 127) ∧ ((g.abort && !g.failure) = false) :=
  ⟨⟨2, 2, 1, 5, false, false, false, 0⟩, { on with hbm := { mig := some ⟨2, 2, 1, 5, false, false, false, 0⟩ } }, (by decide +kernel), (by decide +kernel), (by decide +kernel), (by decide +kernel), (by decide +kernel)⟩

theorem witness_HbmControllers_14 : ∃ (path : Path) (d : _) (v : Word) (k : _) (s : State), (writable s path (.hbmRankCtrl d)) ∧ (k < 3) ∧ (v.getLsbD k = true) ∧ (rankSt s (3 * d + k) = 4) :=
  ⟨.linkA, 3, 4, 2, { on with hbm := { rank := [(11, 4)] } }, (by unfold writable; decide +kernel), (by decide +kernel), (by decide +kernel), (by decide +kernel)⟩

theorem witness_HbmControllers_15 : ∃ (d : _) (k : _) (s : State), (hasDie s.part d = true) ∧ (k < 3) ∧ (rankSt s (3 * d + k) = 5) ∧ (s.hbm.mig.isSome = true) :=
  ⟨3, 2, { on with hbm := { rank := [(11, 5)], mig := some ⟨2, 2, 1, 5, false, false, false, 0⟩ } }, (by decide +kernel), (by decide +kernel), (by decide +kernel), (by decide +kernel)⟩

theorem witness_HbmControllers_16 : ∃ (d : _) (k : _) (s : State), (hasDie s.part d = true) ∧ (k < 3) ∧ (rankSt s (3 * d + k) = 5) :=
  ⟨3, 2, { on with hbm := { rank := [(11, 5)] } }, (by decide +kernel), (by decide +kernel), (by decide +kernel)⟩

/-! #### ScrubClocksAndFeeds -/

theorem witness_ScrubClocksAndFeeds_0 : ∃ (d : _) (k : _) (a : _) (s : State), (sramRead s d k a = false) :=
  ⟨0, .hotLine, 0, { on with pwr := { on.pwr with domains := [(domSlice 0, { state := 2 })] } }, (by decide +kernel)⟩

theorem witness_ScrubClocksAndFeeds_1 : ∃ (d : _) (k : _) (a : _) (s : State), (hasDie s.part d = true) ∧ (sramRead s d k a = true) :=
  ⟨3, .hotLine, 0, on, (by decide +kernel), (by decide +kernel)⟩

theorem witness_ScrubClocksAndFeeds_2 : ∃ (d : _) (k : SramKind) (a : _) (s : State), (hasDie s.part d = true) ∧ (sramRead s d k a = true) ∧ (k ≠ .checkValue) :=
  ⟨3, .hotLine, 0, on, (by decide +kernel), (by decide +kernel), (by decide +kernel)⟩

theorem witness_ScrubClocksAndFeeds_3 : ∃ (d : _) (s : State), (hasDie s.part d = true) :=
  ⟨3, on, (by decide +kernel)⟩

theorem witness_ScrubClocksAndFeeds_4 : ∃ (d : _) (a : _) (s : State), (hasDie s.part d = true) ∧ (s.buf.cells.lookup (2 ^ 19 * d + a) = none) :=
  ⟨3, 2 ^ 19 - 1, on, (by decide +kernel), (by decide +kernel)⟩

theorem witness_ScrubClocksAndFeeds_5 : ∃ (d : _) (c : ClockDom) (s : State), (hasDie s.part d = true) ∧ (c ≠ .time) :=
  ⟨3, .link 5, on, (by decide +kernel), (by decide +kernel)⟩

theorem witness_ScrubClocksAndFeeds_6 : ∃ (path : Path) (e : _) (v : _) (p : _) (s : State), (writable s path (.chkFeedCfg e)) ∧ (feedOwned (plainWrite path (.chkFeedCfg e) (v ||| 0x80000000) s) e = true) ∧ (cfg (plainWrite path (.chkFeedCfg e) (v ||| 0x80000000) s) (.chkFeedCfg e) 1 0 = p) ∧ (p ≠ 3) ∧ (cfgBit (plainWrite path (.chkFeedCfg e) (v ||| 0x80000000) s) (.chkFeedCfg e) 2 = false) :=
  ⟨.linkA, 15, 1, 1, on, (by unfold writable; decide +kernel), (by decide +kernel), (by decide +kernel), (by decide +kernel), (by decide +kernel)⟩

theorem witness_ScrubClocksAndFeeds_7 : ∃ (path : Path) (e : _) (s : State), (writable s path (.chkFeedB e)) ∧ (feedOwned s e = true) :=
  ⟨.linkA, 15, on, (by unfold writable; decide +kernel), (by decide +kernel)⟩

theorem witness_ScrubClocksAndFeeds_8 : ∃ (path : Path) (e : _) (s : State), (writable s path (.chkFeedH e)) ∧ (feedOwned s e = true) :=
  ⟨.linkA, 15, on, (by unfold writable; decide +kernel), (by decide +kernel)⟩

theorem witness_ScrubClocksAndFeeds_9 : ∃ (path : Path) (e : _) (s : State), (writable s path (.chkFeedW e)) ∧ (feedOwned s e = true) :=
  ⟨.linkA, 15, on, (by unfold writable; decide +kernel), (by decide +kernel)⟩

theorem witness_ScrubClocksAndFeeds_10 : ∃ (path : Path) (e : _) (s : State), (writable s path (.chkFeedB e)) ∧ (feedOwned s e = false) :=
  ⟨.linkA, 15, { on with regs := [(regAddr (.chkFeedCfg 15), 0x40000000)] }, (by unfold writable; decide +kernel), (by decide +kernel)⟩

theorem witness_ScrubClocksAndFeeds_11 : ∃ (path : Path) (e : _) (h : _) (s : State), (readable s path (.chkFeedRes e h)) :=
  ⟨.linkA, 15, true, on, (by unfold readable; decide +kernel)⟩

/-! #### CustodiansAndTheString -/

theorem witness_CustodiansAndTheString_0 : ∃ (c : _) (s : State), (s.cus.holder ≠ 0) ∧ (c = 1 ∨ c = 3 ∨ c = 4) :=
  ⟨4, on, (by decide +kernel), (by decide +kernel)⟩

theorem witness_CustodiansAndTheString_1 : ∃ (c : _) (s : State), (s.cus.holder = 0) ∧ (c ≠ 5) :=
  ⟨4, { on with cus := {} }, (by decide +kernel), (by decide +kernel)⟩

theorem witness_CustodiansAndTheString_2 : ∃ (s : State), (s.cus.holder ≠ 0) ∧ (s.cus.kick + cfg1 s .cusCfg 7 0 * 10 ^ 9 ≤ s.now) :=
  ⟨on, (by decide +kernel), (by decide +kernel)⟩

theorem witness_CustodiansAndTheString_3 : ∃ (s : State), (s.now < s.cus.kick + cfg1 s .cusCfg 7 0 * 10 ^ 9) :=
  ⟨{ on with cus := { on.cus with kick := 10 ^ 15 } }, (by decide +kernel)⟩

theorem witness_CustodiansAndTheString_4 : ∃ (b : _) (s : State), (cusState s (cusNo b) = csSelf) :=
  ⟨true, { on with cus := { bState := 1 } }, (by decide +kernel)⟩

theorem witness_CustodiansAndTheString_5 : ∃ (b : _) (s : State), (s.cus.holder = 0) ∧ (s.cus.fault = false) ∧ (s.lcs.zeroising = false) ∧ (canTake s (cusNo b) = true) ∧ (takesFirst s (cusNo b) = true) ∧ (imageRuns s (cusNo b) = true) :=
  ⟨false, { on with cus := {} }, (by decide +kernel), (by decide +kernel), (by decide +kernel), (by decide +kernel), (by decide +kernel), (by decide +kernel)⟩

theorem witness_CustodiansAndTheString_6 : ∃ (s : State), (s.cus.holder ≠ 0) :=
  ⟨on, (by decide +kernel)⟩

theorem witness_CustodiansAndTheString_7 : ∃ (s : State), (s.cus.holder ≠ 0) ∧ (s.cus.adopted = false) :=
  ⟨{ on with cus := { holder := 2 } }, (by decide +kernel), (by decide +kernel)⟩

theorem witness_CustodiansAndTheString_8 : ∃ (s : State), (holdAdopted s = true) :=
  ⟨on, (by decide +kernel)⟩

theorem witness_CustodiansAndTheString_9 : ∃ (b : _) (s : State), (s.cus.holder ≠ cusNo b) :=
  ⟨true, on, (by decide +kernel)⟩

theorem witness_CustodiansAndTheString_10 : ∃ (b : _) (s : State), (s.cus.holder = cusNo b) ∧ (s.cus.adopted = false) :=
  ⟨true, { on with cus := { holder := 2 } }, (by decide +kernel), (by decide +kernel)⟩

theorem witness_CustodiansAndTheString_11 : ∃ (b : _) (s : State), (s.cus.holder = cusNo b) ∧ (s.cus.adopted = true) :=
  ⟨false, on, (by decide +kernel), (by decide +kernel)⟩

theorem witness_CustodiansAndTheString_12 : ∃ (s : State), (s.cus.fault = false) :=
  ⟨on, (by decide +kernel)⟩

theorem witness_CustodiansAndTheString_13 : ∃ (path : Path) (s : State), (writable s path .cusCtrl) ∧ (s.cus.holder = 1 ∨ s.cus.holder = 2) ∧ (cusState s (standby s) = csCold) :=
  ⟨.linkA, on, (by unfold writable; decide +kernel), (by decide +kernel), (by decide +kernel)⟩

theorem witness_CustodiansAndTheString_14 : ∃ (a : _) (r : _) (w : _) (s : State), (([1, 2].find? fun w => decide (cusState s w = csLoading)) = some w) ∧ (preloadCause a r s ≠ 0) :=
  ⟨true, true, 2, { on with cus := { holder := 1, aState := 5, bState := 2 } }, (by decide +kernel), (by decide +kernel)⟩

theorem witness_CustodiansAndTheString_16 : ∃ (path : Path) (s : State), (writable s path .cusCtrl) ∧ (holdAdopted s = true) ∧ (canTake s (standby s) = true) :=
  ⟨.linkA, on, (by unfold writable; decide +kernel), (by decide +kernel), (by decide +kernel)⟩

theorem witness_CustodiansAndTheString_17 : ∃ (path : Path) (s : State), (writable s path .cusCtrl) ∧ (holdAdopted s = false) :=
  ⟨.linkA, { on with cus := {} }, (by unfold writable; decide +kernel), (by decide +kernel)⟩

theorem witness_CustodiansAndTheString_18 : ∃ (path : Path) (b : _) (s : State), (writable s path .cusCtrl) ∧ (cusState s (cusNo b) = csFailed) :=
  ⟨.linkA, true, { on with cus := { on.cus with bState := 6 } }, (by unfold writable; decide +kernel), (by decide +kernel)⟩

/-! #### LogbookRows -/

theorem witness_LogbookRows_0 : ∃ (r : _) (l : _) (s : State), (s.log.staged = r :: l) ∧ (holdAdopted s = true) ∧ (s.log.flashOk = true) ∧ (persistDue s r = true) ∧ (s.flash.events.length < eventRoom s) :=
  ⟨⟨0, ⟨0, 0, 0, 0, 0, 0, 0⟩, 0, 0, 0, 0, 0, 0x5A⟩, [], { on with log := { staged := [⟨0, ⟨0, 0, 0, 0, 0, 0, 0⟩, 0, 0, 0, 0, 0, 0x5A⟩], flashOk := true } }, (by decide +kernel), (by decide +kernel), (by decide +kernel), (by decide +kernel), (by decide +kernel)⟩

theorem witness_LogbookRows_1 : ∃ (r : _) (l : _) (s : State), (s.log.staged = r :: l) ∧ (persistDue s r = false) :=
  ⟨⟨0, ⟨0, 0, 0, 0, 0, 0, 0⟩, 0, 0, 0, 0, 10 ^ 15, 0x5A⟩, [], { on with log := { staged := [⟨0, ⟨0, 0, 0, 0, 0, 0, 0⟩, 0, 0, 0, 0, 10 ^ 15, 0x5A⟩], flashOk := true } }, (by decide +kernel), (by decide +kernel)⟩

theorem witness_LogbookRows_2 : ∃ (src : _) (s : State), (s.now < mget 0 s.log.sampleAt src + samplePs src) :=
  ⟨8, State.reset, (by decide +kernel)⟩

theorem witness_LogbookRows_3 : ∃ (src : _) (s : State), (statPresent s.part src = true) ∧ (mget 0 s.log.sampleAt src + samplePs src ≤ s.now) :=
  ⟨36, on, (by decide +kernel), (by decide +kernel)⟩

theorem witness_LogbookRows_4 : ∃ (src : _) (s : State), (statPresent s.part src = false) :=
  ⟨37, on, (by decide +kernel)⟩

theorem witness_LogbookRows_5 : ∃ (s : State), (holdAdopted s = true) ∧ (s.log.flashOk = true) ∧ (s.log.snapAt + statPeriod s ≤ s.now) ∧ (s.flash.snaps.length < snapSlots s.part) :=
  ⟨{ on with log := { flashOk := true }, now := 60 * 65535 * 10 ^ 12 }, (by decide +kernel), (by decide +kernel), (by decide +kernel), (by decide +kernel)⟩

theorem witness_LogbookRows_6 : ∃ (path : Path) (s : State), (writable s path (.logCursor false)) :=
  ⟨.linkA, on, (by unfold writable; decide +kernel)⟩

theorem witness_LogbookRows_7 : ∃ (r : _) (s : State), (s.log.loading = true) ∧ (s.flash.oldest ≤ s.log.cursor) ∧ (s.log.cursor < s.log.next) ∧ (((s.log.staged ++ s.flash.events).find? fun r => decide (r.serial = s.log.cursor) && decide (r.valid = 0x5A)) = some r) :=
  ⟨⟨0, ⟨0, 0, 0, 0, 0, 0, 0⟩, 0, 0, 0, 0, 0, 0x5A⟩, { on with log := { loading := true, next := 1, staged := [⟨0, ⟨0, 0, 0, 0, 0, 0, 0⟩, 0, 0, 0, 0, 0, 0x5A⟩] } }, (by decide +kernel), (by decide +kernel), (by decide +kernel), (by decide +kernel)⟩

theorem witness_LogbookRows_8 : ∃ (s : State), (s.log.loading = true) ∧ (s.log.cursor < s.flash.oldest ∨ s.log.next ≤ s.log.cursor) :=
  ⟨{ on with log := { loading := true, next := 1, cursor := 1 } }, (by decide +kernel), (by decide +kernel)⟩

theorem witness_LogbookRows_9 : ∃ (path : Path) (s : State), (readable s path (.logWin 7)) :=
  ⟨.linkA, on, (by unfold readable; decide +kernel)⟩

theorem witness_LogbookRows_10 : ∃ (path : Path) (s : State), (writable s path .logStatSel) :=
  ⟨.linkA, on, (by unfold writable; decide +kernel)⟩

theorem witness_LogbookRows_11 : ∃ (path : Path) (s : State), (writable s path .logCtrl) :=
  ⟨.linkA, on, (by unfold writable; decide +kernel)⟩

theorem witness_LogbookRows_12 : ∃ (path : Path) (s : State), (writable s path .logCtrl) ∧ (s.lcs.logClear = false) :=
  ⟨.linkA, on, (by unfold writable; decide +kernel), (by decide +kernel)⟩

theorem witness_LogbookRows_13 : ∃ (path : Path) (s : State), (writable s path .logCtrl) ∧ (s.lcs.logClear = true) :=
  ⟨.linkA, { on with lcs := { on.lcs with logClear := true } }, (by unfold writable; decide +kernel), (by decide +kernel)⟩

theorem witness_LogbookRows_14 : ∃ (s : State), (s.log.clearing = true) :=
  ⟨{ on with log := { clearing := true } }, (by decide +kernel)⟩

/-! #### LifeCycleTokens -/

theorem witness_LifeCycleTokens_0 : ∃ (path : Path) (c : _) (k : _) (s : State), ((c, k) ∈ [(Instr.testDone path, 1), (.seal_ path, 2), (.service path, 3), (.logClear path, 4), (.keyRotate path, 5), (.return_ path, 6), (.vendorDebug path, 7)]) ∧ (writable s path .lcsTokenCtrl) ∧ (ofLe (takeBytes (tokenBuf s) 0 1) = k) ∧ (s.lcs.busy = false) :=
  ⟨.smbus, .vendorDebug .smbus, 7, { on with regs := [(regAddr (.lcsTokenBuf 0), 7)] }, (by decide +kernel), (by unfold writable; decide +kernel), (by decide +kernel), (by decide +kernel)⟩

theorem witness_LifeCycleTokens_1 : ∃ (path : Path) (c : _) (k : _) (s : State), ((c, k) ∈ [(Instr.testDone path, 1), (.seal_ path, 2), (.service path, 3), (.logClear path, 4), (.keyRotate path, 5), (.return_ path, 6), (.vendorDebug path, 7)]) ∧ (writable s path .lcsTokenCtrl) ∧ (ofLe (takeBytes (tokenBuf s) 0 1) ≠ k) :=
  ⟨.smbus, .testDone .smbus, 1, { on with regs := [(regAddr (.lcsTokenBuf 0), 7)] }, (by decide +kernel), (by unfold writable; decide +kernel), (by decide +kernel)⟩

theorem witness_LifeCycleTokens_2 : ∃ (path : Path) (c : _) (k : _) (s : State), ((c, k) ∈ [(Instr.testDone path, 1), (.seal_ path, 2), (.service path, 3), (.logClear path, 4), (.keyRotate path, 5), (.return_ path, 6), (.vendorDebug path, 7)]) ∧ (writable s path .lcsTokenCtrl) ∧ (ofLe (takeBytes (tokenBuf s) 0 1) = k) ∧ (s.lcs.busy = true) :=
  ⟨.smbus, .vendorDebug .smbus, 7, { on with regs := [(regAddr (.lcsTokenBuf 0), 7)], lcs := { on.lcs with busy := true } }, (by decide +kernel), (by unfold writable; decide +kernel), (by decide +kernel), (by decide +kernel)⟩

theorem witness_LifeCycleTokens_3 : ∃ (s : State), (s.lcs.busy = true) :=
  ⟨{ on with lcs := { busy := true } }, (by decide +kernel)⟩

theorem witness_LifeCycleTokens_4 : ∃ (s : State), (s.lcs.busy = false) :=
  ⟨on, (by decide +kernel)⟩

theorem witness_LifeCycleTokens_5 : ∃ (s : State), (s.pwr.phase = .started) :=
  ⟨{ on with pwr := { on.pwr with phase := .started } }, (by decide +kernel)⟩

theorem witness_LifeCycleTokens_6 : ∃ (s : State), (s.lcs.zeroising = true) ∧ (s.pwr.phase ≠ .started) :=
  ⟨{ on with lcs := { zeroising := true } }, (by decide +kernel), (by decide +kernel)⟩

/-! #### SuppliesHeatAndServicePort -/

theorem witness_SuppliesHeatAndServicePort_0 : ∃ (r : _) (s : State), (s.chk.badRails.contains r = false) :=
  ⟨0, on, (by decide +kernel)⟩

theorem witness_SuppliesHeatAndServicePort_1 : ∃ (r : _) (s : State), (s.chk.badRails.contains r = true) :=
  ⟨0, { on with chk := { badRails := [0] } }, (by decide +kernel)⟩

theorem witness_SuppliesHeatAndServicePort_3 : ∃ (d : _) (s : State), (hasDie s.part d = true) :=
  ⟨3, on, (by decide +kernel)⟩

theorem witness_SuppliesHeatAndServicePort_4 : ∃ (s : State), (answering s = true) :=
  ⟨on, (by decide +kernel)⟩

theorem witness_SuppliesHeatAndServicePort_5 : ∃ (s : State), (answering s = true) :=
  ⟨on, (by decide +kernel)⟩

theorem witness_SuppliesHeatAndServicePort_7 : ∃ (r : _) (s : State), (answering s = true) ∧ (regAt s.smb.offset = some r) ∧ (r ≠ .pwrStatus) :=
  ⟨.hifPollCfg, { on with smb := { offset := 0x80050 } }, (by decide +kernel), (by decide +kernel), (by decide +kernel)⟩

theorem witness_SuppliesHeatAndServicePort_8 : ∃ (s : State), (answering s = true) ∧ (regAt s.smb.offset = some .pwrStatus) :=
  ⟨{ on with smb := { offset := regAddr .pwrStatus } }, (by decide +kernel), (by decide +kernel)⟩

theorem witness_SuppliesHeatAndServicePort_9 : ∃ (s : State), (answering s = true) ∧ (regAt s.smb.offset = none) :=
  ⟨{ on with smb := { offset := 2 } }, (by decide +kernel), (by decide +kernel)⟩

theorem witness_SuppliesHeatAndServicePort_11 : ∃ (s : State), (answering s = false) :=
  ⟨State.reset, (by decide +kernel)⟩

/-! #### FlowCores -/

theorem witness_FlowCores_0 : ∃ (c : _) (s : State), (coreRuns s c = false) ∧ ((coreOf s c).coming = none) :=
  ⟨0, on, (by decide +kernel), (by decide +kernel)⟩

theorem witness_FlowCores_1 : ∃ (c : _) (i : _) (v : _) (s : State), (coreRuns s c = true) ∧ ((coreOf s c).coming = none) ∧ (bit (csrRaw s c 0x344) 16 = false) ∧ ((coreOf s c).wfi = false) ∧ ((coreOf s c).pc + 4 ≤ 0x80000) ∧ (rdN (cluster s (clusterOfCore c)).isram (coreOf s c).pc 4 = i) ∧ (rdN (cluster s (clusterOfCore c)).isram (coreOf s c).pc 2 % 4 = 3) ∧ (fld i 6 0 = 0x13) ∧ (aluImm (fld i 14 12) (fld i 31 20) (coreReg s c (fld i 19 15)) = some v) :=
  ⟨0, 5243027, 5, { on with tsk := { clusters := [(0, { fw := 0, isram := [(0, 147), (2, 80)] })] } }, (by decide +kernel), (by decide +kernel), (by decide +kernel), (by decide +kernel), (by decide +kernel), (by decide +kernel), (by decide +kernel), (by decide +kernel), (by decide +kernel)⟩

theorem witness_FlowCores_2 : ∃ (c : _) (i : _) (s : State), (coreRuns s c = true) ∧ ((coreOf s c).coming = none) ∧ (bit (csrRaw s c 0x344) 16 = false) ∧ ((coreOf s c).wfi = false) ∧ ((coreOf s c).pc + 4 ≤ 0x80000) ∧ (rdN (cluster s (clusterOfCore c)).isram (coreOf s c).pc 4 = i) ∧ (rdN (cluster s (clusterOfCore c)).isram (coreOf s c).pc 2 % 4 = 3) ∧ (fld i 6 0 = 0x63) ∧ (branchTaken (fld i 14 12) (coreReg s c (fld i 19 15)) (coreReg s c (fld i 24 20)) = some true) :=
  ⟨0, 99, { on with tsk := { clusters := [(0, { fw := 0, isram := [(0, 99)] })] } }, (by decide +kernel), (by decide +kernel), (by decide +kernel), (by decide +kernel), (by decide +kernel), (by decide +kernel), (by decide +kernel), (by decide +kernel), (by decide +kernel)⟩

theorem witness_FlowCores_3 : ∃ (c : _) (i : _) (s : State), (coreRuns s c = true) ∧ ((coreOf s c).coming = none) ∧ (bit (csrRaw s c 0x344) 16 = false) ∧ ((coreOf s c).wfi = false) ∧ ((coreOf s c).pc + 4 ≤ 0x80000) ∧ (rdN (cluster s (clusterOfCore c)).isram (coreOf s c).pc 4 = i) ∧ (rdN (cluster s (clusterOfCore c)).isram (coreOf s c).pc 2 % 4 = 3) ∧ (fld i 6 0 = 0x0B) ∧ (fld i 31 25 ≠ 0) :=
  ⟨0, 33554443, { on with tsk := { clusters := [(0, { fw := 0, isram := [(0, 11), (3, 2)] })] } }, (by decide +kernel), (by decide +kernel), (by decide +kernel), (by decide +kernel), (by decide +kernel), (by decide +kernel), (by decide +kernel), (by decide +kernel), (by decide +kernel)⟩

theorem witness_FlowCores_4 : ∃ (c : _) (s : State), (coreRuns s c = true) ∧ ((coreOf s c).coming = none) ∧ (bit (csrRaw s c 0x344) 16 = true) ∧ (workIrqOn s c = true) :=
  ⟨0, ct { csr := [(0x300, 8), (0x304, 0x10000), (0x344, 0x10000)] } {}, (by decide +kernel), (by decide +kernel), (by decide +kernel), (by decide +kernel)⟩

theorem witness_FlowCores_5 : ∃ (c : _) (s : State), (coreRuns s c = true) ∧ (compat s (clusterOfCore c) = false) ∧ ((coreOf s c).task = none) :=
  ⟨0, ct {} {}, (by decide +kernel), (by decide +kernel), (by decide +kernel)⟩

theorem witness_FlowCores_6 : ∃ (c : _) (rs1 : _) (b : _) (n : _) (s : State), (coreRuns s c = true) ∧ (coreRd s c (coreReg s c rs1) 64 = some b) ∧ (bit (fld b 15 8) 0 = false) ∧ (hasSlice s.part (sliceOfCore c) = true) ∧ (domOn s (domSlice (sliceOfCore c)) = true) ∧ (freeSlot s (sliceOfCore c) = some n) :=
  ⟨0, 0, 0, 0, ct {} {}, (by decide +kernel), (by decide +kernel), (by decide +kernel), (by decide +kernel), (by decide +kernel), (by decide +kernel)⟩

theorem witness_FlowCores_7 : ∃ (c : _) (rs1 : _) (sl : _) (n : _) (s : State), (coreRuns s c = true) ∧ (coreReg s c rs1 = sl * 65536 + n) ∧ (n < 65536) ∧ (sl < 8) ∧ (hasSlice s.part sl = true) ∧ ((task s sl n).state = tskWaiting) ∧ ((task s sl n).kind = 6) ∧ ((task s sl n).ticketed = false) ∧ ((task s sl n).pkt = none) ∧ ((lock s sl (task s sl n).lock).holder ≠ some n) ∧ (mget [] s.tsk.items sl = []) :=
  ⟨0, 1, 0, 0, ct { x := [(1, 0)] } { state := 1, kind := 6 }, (by decide +kernel), (by decide +kernel), (by decide +kernel), (by decide +kernel), (by decide +kernel), (by decide +kernel), (by decide +kernel), (by decide +kernel), (by decide +kernel), (by decide +kernel), (by decide +kernel)⟩

theorem witness_FlowCores_8 : ∃ (c : _) (rs1 : _) (n : _) (s : State), (coreRuns s c = true) ∧ ((coreOf s c).task = some n) ∧ ((task s (sliceOfCore c) n).kind ≠ 1) ∧ ((task s (sliceOfCore c) n).ticketed = true) ∧ ((task s (sliceOfCore c) n).cancelled = false) ∧ (bit (coreReg s c rs1) 4 = true) ∧ ((coreOf s c).preempted = none) ∧ ((lock s (sliceOfCore c) (task s (sliceOfCore c) n).lock).holder ≠ some n) ∧ ((lock s (sliceOfCore c) (task s (sliceOfCore c) n).lock).emit ≠ (task s (sliceOfCore c) n).ticket) :=
  ⟨0, 1, 0, ct { x := [(1, 16)], task := some 0 } { state := 3, ticketed := true, ticket := 1 }, (by decide +kernel), (by decide +kernel), (by decide +kernel), (by decide +kernel), (by decide +kernel), (by decide +kernel), (by decide +kernel), (by decide +kernel), (by decide +kernel)⟩

theorem witness_FlowCores_9 : ∃ (c : _) (n : _) (s : State), (coreRuns s c = true) ∧ ((coreOf s c).task = some n) ∧ ((task s (sliceOfCore c) n).kind = 6) ∧ ((task s (sliceOfCore c) n).ticketed = false) ∧ ((task s (sliceOfCore c) n).pkt = none) ∧ ((coreOf s c).preempted = none) ∧ ((lock s (sliceOfCore c) (task s (sliceOfCore c) n).lock).holder ≠ some n) ∧ (mget [] s.tsk.items (sliceOfCore c) = []) :=
  ⟨0, 0, ct { task := some 0 } { state := 3, kind := 6 }, (by decide +kernel), (by decide +kernel), (by decide +kernel), (by decide +kernel), (by decide +kernel), (by decide +kernel), (by decide +kernel), (by decide +kernel)⟩

theorem witness_FlowCores_10 : ∃ (c : _) (rs2 : _) (n : _) (s : State), (coreRuns s c = true) ∧ ((coreOf s c).task = some n) ∧ ((task s (sliceOfCore c) n).hands < 65535) ∧ ((task s (sliceOfCore c) n).ticketed = false) ∧ ((coreOf s c).preempted = none) ∧ ((lock s (sliceOfCore c) (task s (sliceOfCore c) n).lock).holder ≠ some n) ∧ (classMode s (sliceOfCore c) (coreReg s c rs2 % 64) = 0) ∧ ((task s (sliceOfCore c) n).present = (task s (sliceOfCore c) n).expect) :=
  ⟨0, 0, 0, { ct { task := some 0 } { state := 3, hands := 65534 } with regs := [(regAddr (classCfg 0 0), 0)] }, (by decide +kernel), (by decide +kernel), (by decide +kernel), (by decide +kernel), (by decide +kernel), (by decide +kernel), (by decide +kernel), (by decide +kernel)⟩

theorem witness_FlowCores_11 : ∃ (c : _) (n : _) (o : _) (s : State), (coreRuns s c = true) ∧ ((coreOf s c).task = some n) ∧ (fld (rdN (coreOf s c).window 0x2C0 64) 7 0 ≠ 0) ∧ (fld (rdN (coreOf s c).window 0x2C0 64) 7 0 ≤ 0x0C) ∧ (wkTarget s c (task s (sliceOfCore c) n) (rdN (coreOf s c).window 0x2C0 64) (rdN (coreOf s c).window 0x400 256) = some o) :=
  ⟨0, 0, 0, ct { task := some 0, window := [(0x2C0, 0x0A)] } {}, (by decide +kernel), (by decide +kernel), (by decide +kernel), (by decide +kernel), (by decide +kernel)⟩

theorem witness_FlowCores_12 : ∃ (c : _) (rs2 : _) (p : _) (s : State), (coreRuns s c = true) ∧ (coreRd s c (coreReg s c rs2) 16 = some p) :=
  ⟨0, 0, 0, ct {} {}, (by decide +kernel), (by decide +kernel)⟩

theorem witness_FlowCores_13 : ∃ (c : _) (op : _) (st : _) (words : _) (rd : _) (s : State), ((coreOf s c).reply = some (op, st, words)) ∧ ((coreOf s c).flowing = some rd) :=
  ⟨0, 1, 0, [], 31, ct { reply := some (1, 0, []), flowing := some 31 } {}, (by decide +kernel), (by decide +kernel)⟩

/-! #### TaskEvents -/

theorem witness_TaskEvents_0 : ∃ (sl : _) (n : _) (k : _) (s : State), ((task s sl n).state = tskWaiting) ∧ (k < 4) ∧ (bit (task s sl n).expect k = true) ∧ (bit (task s sl n).present k = false) ∧ ((k ≠ 3 ∨ (task s sl n).due = 0)) :=
  ⟨0, 0, 3, ct {} { state := 1, expect := 8 }, (by decide +kernel), (by decide +kernel), (by decide +kernel), (by decide +kernel), (by decide +kernel)⟩

theorem witness_TaskEvents_1 : ∃ (sl : _) (n : _) (s : State), ((task s sl n).state = tskWaiting) ∧ ((task s sl n).due ≠ 0) ∧ ((task s sl n).due ≤ s.now) ∧ (bit (task s sl n).expect 3 = true) ∧ (bit (task s sl n).present 3 = false) :=
  ⟨0, 0, ct {} { state := 1, expect := 8, due := 10 ^ 15 }, (by decide +kernel), (by decide +kernel), (by decide +kernel), (by decide +kernel), (by decide +kernel)⟩

theorem witness_TaskEvents_2 : ∃ (sl : _) (n : _) (s : State), (s.now < (task s sl n).due) :=
  ⟨0, 0, ct {} { due := 10 ^ 15 + 1 }, (by decide +kernel)⟩

theorem witness_TaskEvents_3 : ∃ (sl : _) (s : State), (coreServed s sl = none) :=
  ⟨0, on, (by decide +kernel)⟩

theorem witness_TaskEvents_4 : ∃ (sl : _) (c : _) (n : _) (x : _) (since : _) (rd : _) (s : State), (coreServed s sl = some c) ∧ (nextTask s (clusterOfCore c) = some (n, x)) ∧ (sliceOfCore c = sl) ∧ ((coreOf s c).getting = some (since, rd)) :=
  ⟨0, 0, 0, { state := 2 }, 5, 31, { ct { getting := some (5, 31) } { state := 2 } with regs := [(regAddr (.tskClusterMaskLo 0), 1)] }, (by decide +kernel), (by decide +kernel), (by decide +kernel), (by decide +kernel)⟩

theorem witness_TaskEvents_5 : ∃ (sl : _) (c : _) (n : _) (x : _) (s : State), (coreServed s sl = some c) ∧ (nextTask s (clusterOfCore c) = some (n, x)) ∧ (sliceOfCore c = sl) ∧ ((coreOf s c).getting = none) :=
  ⟨0, 0, 0, { state := 2 }, { ct { avail := true } { state := 2 } with regs := [(regAddr (.tskClusterMode 0), 1), (regAddr (.tskClusterMaskLo 0), 1)] }, (by decide +kernel), (by decide +kernel), (by decide +kernel), (by decide +kernel)⟩

theorem witness_TaskEvents_6 : ∃ (c : _) (n : _) (s : State), ((coreOf s c).task = some n) ∧ ((task s (sliceOfCore c) n).state = tskRunning) ∧ (cfg1 s (.tskLimitCfg (sliceOfCore c)) 31 16 * 1000000 ≤ ranFor s (task s (sliceOfCore c) n)) :=
  ⟨0, 0, ct { task := some 0 } { state := 3 }, (by decide +kernel), (by decide +kernel), (by decide +kernel)⟩

theorem witness_TaskEvents_7 : ∃ (c : _) (n : _) (s : State), ((coreOf s c).task = some n) ∧ (ranFor s (task s (sliceOfCore c) n) < cfg1 s (.tskLimitCfg (sliceOfCore c)) 31 16 * 1000000) :=
  ⟨0, 0, { ct { task := some 0 } { state := 3, runAt := 10 ^ 15 } with regs := [] }, (by decide +kernel), (by decide +kernel)⟩

theorem witness_TaskEvents_8 : ∃ (sl : _) (l : _) (s : State), ((lock s sl l).holder.isSome = true) ∧ ((lock s sl l).told = false) ∧ (cfg1 s (.tskLimitCfg sl) 15 0 * 1000000 < s.now - (lock s sl l).since) :=
  ⟨7, 16383, { on with tsk := { locks := [(16384 * 7 + 16383, { holder := some 0 })] } }, (by decide +kernel), (by decide +kernel), (by decide +kernel)⟩

theorem witness_TaskEvents_9 : ∃ (sl : _) (l : _) (s : State), ((lock s sl l).told = true) :=
  ⟨7, 16383, { on with tsk := { locks := [(16384 * 7 + 16383, { told := true })] } }, (by decide +kernel)⟩

theorem witness_TaskEvents_10 : ∃ (c : _) (n : _) (x : _) (s : State), ((coreOf s c).coming = none) ∧ (hasCore s.part c = true) ∧ (compat s (clusterOfCore c) = true) ∧ (cfgBit s (.tskClusterMode (clusterOfCore c)) 1 = true) ∧ (clusterOn s (clusterOfCore c) = true) ∧ (((upTo 8).any fun i => (coreAsks s (8 * clusterOfCore c + i)).isSome) = false) ∧ (nextTask s (clusterOfCore c) = some (n, x)) ∧ (preemptCore s (clusterOfCore c) (classPrio s (sliceOfCore c) x.cls) = some c) :=
  ⟨0, 1, { state := 2, cls := 1 }, { on with regs := [(regAddr (.tskClusterMode 0), 3), (regAddr (.tskClusterMaskLo 0), 2), (regAddr (classCfg 0 0), 0), (regAddr (classCfg 0 1), 0x38000000)], tsk := { cores := [(0, { csr := [(0x300, 8), (0x304, 0x10000)], task := some 0 })], clusters := [(0, { fw := 0 })], slots := [(0, { state := 3 }), (1, { state := 2, cls := 1 })] } }, (by decide +kernel), (by decide +kernel), (by decide +kernel), (by decide +kernel), (by decide +kernel), (by decide +kernel), (by decide +kernel), (by decide +kernel)⟩

theorem witness_TaskEvents_11 : ∃ (c : _) (n : _) (old : _) (s : State), ((coreOf s c).coming = some n) ∧ (workIrqOn s c = true) ∧ ((coreOf s c).flowing = none) ∧ ((coreOf s c).task = some old) ∧ (n ≠ old) :=
  ⟨0, 1, 0, { on with tsk := { cores := [(0, { csr := [(0x300, 8), (0x304, 0x10000)], task := some 0, coming := some 1 })] } }, (by decide +kernel), (by decide +kernel), (by decide +kernel), (by decide +kernel), (by decide +kernel)⟩

/-! #### FlowRequests -/

theorem witness_FlowRequests_0 : ∃ (sl : _) (s : State), (sliceOn s sl = false) :=
  ⟨0, { on with pwr := { on.pwr with domains := [(domSlice 0, { state := 2 })] } }, (by decide +kernel)⟩

theorem witness_FlowRequests_1 : ∃ (sl : _) (q : _) (rest : _) (s : State), (sliceOn s sl = true) ∧ (takeFirst (fun q => !halfLeaving s (reqHalf s q)) (slice s sl).reqs = some (q, rest)) ∧ (hotKey s sl q.key q.prof = none) :=
  ⟨0, rq, [], s0 { reqs := [rq] }, (by decide +kernel), (by decide +kernel), (by decide +kernel)⟩

theorem witness_FlowRequests_2 : ∃ (sl : _) (q : _) (rest : _) (l : _) (s : State), (sliceOn s sl = true) ∧ (takeFirst (fun q => !halfLeaving s (reqHalf s q)) (slice s sl).reqs = some (q, rest)) ∧ (hotKey s sl q.key q.prof = some l) ∧ (l.life ≠ lifeNew) ∧ (writePending s sl l.record = false) ∧ (recLive s l.record = true) ∧ (recKey s l.record = takeBytes q.key 0 40) ∧ (recProf s l.record = q.prof) :=
  ⟨0, rq, [], hl, s0 { reqs := [rq], hot := [hl] }, (by decide +kernel), (by decide +kernel), (by decide +kernel), (by decide +kernel), (by decide +kernel), (by decide +kernel), (by decide +kernel), (by decide +kernel)⟩

theorem witness_FlowRequests_3 : ∃ (sl : _) (q : _) (rest : _) (s : State), (sliceOn s sl = true) ∧ ((slice s sl).fetches = q :: rest) ∧ (hotKey s sl q.key q.prof = none) ∧ (idxFind s q.h q.g q.key q.prof = none) ∧ ((profMode (profEntry s (dieOfSlice sl) q.prof) = 0 ∨ profMode (profEntry s (dieOfSlice sl) q.prof) = 3)) :=
  ⟨0, rq, [], s0 { fetches := [rq] }, (by decide +kernel), (by decide +kernel), (by decide +kernel), (by decide +kernel), (by decide +kernel)⟩

theorem witness_FlowRequests_4 : ∃ (sl : _) (k : _) (ok : _) (rest : _) (s : State), (sliceOn s sl = true) ∧ ((slice s sl).reports = (k, ok) :: rest) ∧ ((∀ l ∈ (slice s sl).hot, l.life ≠ lifeNew)) :=
  ⟨0, 0, true, [], s0 { reports := [(0, true)], hot := [hl] }, (by decide +kernel), (by decide +kernel), (by decide +kernel)⟩

theorem witness_FlowRequests_5 : ∃ (sl : _) (k : _) (ok : _) (rest : _) (l : _) (s : State), (sliceOn s sl = true) ∧ ((slice s sl).reports = (k, ok) :: rest) ∧ ((slice s sl).hot = [l]) ∧ (l.life = lifeNew) ∧ (l.trig = some k) ∧ (l.creating = true) :=
  ⟨0, 0, true, [], { hl with life := 0, trig := some 0, creating := true }, s0 { reports := [(0, true)], hot := [{ hl with life := 0, trig := some 0, creating := true }] }, (by decide +kernel), (by decide +kernel), (by decide +kernel), (by decide +kernel), (by decide +kernel), (by decide +kernel)⟩

theorem witness_FlowRequests_6 : ∃ (sl : _) (r : _) (l : _) (s : State), (hotOf s sl r = some l) ∧ (sliceOn s sl = true) ∧ (l.life = lifeNew) ∧ (l.newAt + cfg1 s (.fleCreateCfg (dieOfSlice sl)) 31 16 * 1000000 ≤ s.now) ∧ (l.task = none) ∧ (l.trig = none) :=
  ⟨0, 0, { hl with life := 0 }, s0 { hot := [{ hl with life := 0 }] }, (by decide +kernel), (by decide +kernel), (by decide +kernel), (by decide +kernel), (by decide +kernel), (by decide +kernel)⟩

theorem witness_FlowRequests_7 : ∃ (sl : _) (r : _) (l : _) (s : State), (hotOf s sl r = some l) ∧ (s.now < l.newAt + cfg1 s (.fleCreateCfg (dieOfSlice sl)) 31 16 * 1000000) :=
  ⟨0, 0, { hl with newAt := 10 ^ 15 }, s0 { hot := [{ hl with newAt := 10 ^ 15 }] }, (by decide +kernel), (by decide +kernel)⟩

theorem witness_FlowRequests_8 : ∃ (sl : _) (w : _) (rest : _) (s : State), ((slice s sl).writes = w :: rest) ∧ (w.cmd = none) ∧ (w.answer = []) ∧ (w.reply = none) ∧ (w.inval = true) :=
  ⟨0, ⟨0, 0, true, none, [], none, 0⟩, [], s0 { writes := [⟨0, 0, true, none, [], none, 0⟩] }, (by decide +kernel), (by decide +kernel), (by decide +kernel), (by decide +kernel), (by decide +kernel)⟩

theorem witness_FlowRequests_9 : ∃ (sl : _) (p : _) (g : _) (i : _) (rest : _) (e : _) (s : State), ((slice s sl).acks = (p, g, i) :: rest) ∧ (inflight s (g, i) = some e) ∧ (e.acks.filter (· ≠ p) ≠ []) :=
  ⟨0, 0, 0, 0, [], { fl (.nop (hd 0 0)) with acks := [0, 1] }, { s0 { acks := [(0, 0, 0)] } with hif := { on.hif with inflight := [{ fl (.nop (hd 0 0)) with acks := [0, 1] }] } }, (by decide +kernel), (by decide +kernel), (by decide +kernel)⟩

theorem witness_FlowRequests_10 : ∃ (sl : _) (r : _) (l : _) (s : State), (hotOf s sl r = some l) ∧ (l.evicting = true) ∧ (l.dirty = false) :=
  ⟨0, 0, { hl with evicting := true }, s0 { hot := [{ hl with evicting := true }] }, (by decide +kernel), (by decide +kernel), (by decide +kernel)⟩

theorem witness_FlowRequests_11 : ∃ (sl : _) (r : _) (l : _) (s : State), (hotOf s sl r = some l) ∧ (l.evicting = false) :=
  ⟨0, 0, hl, s0 { hot := [hl] }, (by decide +kernel), (by decide +kernel)⟩

theorem witness_FlowRequests_12 : ∃ (sl : _) (q : _) (rest : _) (r : _) (s : State), (sliceOn s sl = true) ∧ (takeFirst (fun q => !halfLeaving s (reqHalf s q)) (slice s sl).backends = some (q, rest)) ∧ (q.backend = some r) ∧ (recLive s r = true) ∧ (recKey s r = takeBytes q.key 0 40) ∧ (recProf s r = q.prof) ∧ (writePending s sl r = false) ∧ (backendOk s (dieOfSlice sl) (recAction s r) (recBackGen s r) = true) :=
  ⟨0, { rq with backend := some 0 }, [], 0, s0 { backends := [{ rq with backend := some 0 }] }, (by decide +kernel), (by decide +kernel), (by decide +kernel), (by decide +kernel), (by decide +kernel), (by decide +kernel), (by decide +kernel), (by decide +kernel)⟩

/-! #### FlowUpkeep -/

theorem witness_FlowUpkeep_0 : ∃ (sl : _) (s : State), (sliceOn s sl = false) :=
  ⟨0, { on with pwr := { on.pwr with domains := [(domSlice 0, { state := 2 })] } }, (by decide +kernel)⟩

theorem witness_FlowUpkeep_1 : ∃ (sl : _) (s : State), (sliceOn s sl = true) ∧ (s.pwr.committed = true) ∧ (sweepNext s sl (slice s sl).sweepPos = none) ∧ ((slice s sl).tombs = []) ∧ ((slice s sl).sweepAt + sweepPeriod s sl ≤ s.now) :=
  ⟨7, on, (by decide +kernel), (by decide +kernel), (by decide +kernel), (by decide +kernel), (by decide +kernel)⟩

theorem witness_FlowUpkeep_2 : ∃ (sl : _) (s : State), (sweepNext s sl (slice s sl).sweepPos = none) ∧ (s.now < (slice s sl).sweepAt + cfg1 s (.fleSweepCfg (dieOfSlice sl)) 15 0 * 10 ^ 9) :=
  ⟨7, State.reset, (by decide +kernel), (by decide +kernel)⟩

theorem witness_FlowUpkeep_3 : ∃ (sl : _) (i : _) (s : State), (sliceOn s sl = true) ∧ (s.pwr.committed = true) ∧ (sweepNext s sl (slice s sl).sweepPos = some i) ∧ (recLive s (sweepRec sl i) = true) ∧ (hotOf s sl (sweepRec sl i) = none) ∧ (recLife s (sweepRec sl i) = lifeClosed) ∧ (endWaits s sl (sweepRec sl i) = false) ∧ ((slice s sl).sweepAt + sweepPeriod s sl * i / 2 ^ 24 ≤ s.now) ∧ (fld (ctEntry s (dieOfSlice sl) (recCtProf s (sweepRec sl i))) 63 48 ≤ msSince s (mget 0 s.flow.endAt (sweepRec sl i) + 2 ^ 32 - 1)) :=
  ⟨0, 0, { s0 {} with mem := [(recAddr 0 + 41, 5), (recAddr 0 + 42, 4)] }, (by decide +kernel), (by decide +kernel), (by decide +kernel), (by decide +kernel), (by decide +kernel), (by decide +kernel), (by decide +kernel), (by decide +kernel), (by decide +kernel)⟩

theorem witness_FlowUpkeep_4 : ∃ (sl : _) (x : _) (rest : _) (s : State), (takeFirst (exportReady s) (slice s sl).exports = some (x, rest)) ∧ (x.endRec = false) ∧ ((ring s (656 + x.ring)).enabled = true) :=
  ⟨0, ⟨0, 1, 0, 0, 0, false, false, 0⟩, [], { s0 { exports := [⟨0, 1, 0, 0, 0, false, false, 0⟩] } with hif := { rings := [(656, { enabled := true })] } }, (by decide +kernel), (by decide +kernel), (by decide +kernel)⟩

theorem witness_FlowUpkeep_5 : ∃ (sl : _) (x : _) (rest : _) (s : State), (takeFirst (exportReady s) (slice s sl).exports = some (x, rest)) ∧ (x.endRec = false) ∧ ((ring s (656 + x.ring)).enabled = false) :=
  ⟨0, ⟨0, 1, 0, 0, 0, false, false, 0⟩, [], s0 { exports := [⟨0, 1, 0, 0, 0, false, false, 0⟩] }, (by decide +kernel), (by decide +kernel), (by decide +kernel)⟩

theorem witness_FlowUpkeep_6 : ∃ (sl : _) (x : _) (rest : _) (s : State), (takeFirst (fun x => x.endRec && decide (x.since + cfg1 s (.fleExportCfg (dieOfSlice sl)) 15 0 * 1000000000 ≤ s.now)) (slice s sl).exports = some (x, rest)) ∧ (recLive s x.record = false) :=
  ⟨0, ⟨0, 1, 5, 0, 0, true, false, 0⟩, [], s0 { exports := [⟨0, 1, 5, 0, 0, true, false, 0⟩] }, (by decide +kernel), (by decide +kernel)⟩

theorem witness_FlowUpkeep_7 : ∃ (sl : _) (r : _) (reason : _) (rest : _) (s : State), (sliceOn s sl = true) ∧ ((slice s sl).peers = (r, lifeClosed, reason) :: rest) ∧ (recOpen s r = true) :=
  ⟨0, 0, 1, [], s0 { peers := [(0, lifeClosed, 1)] }, (by decide +kernel), (by decide +kernel), (by decide +kernel)⟩

theorem witness_FlowUpkeep_8 : ∃ (sl : _) (b : _) (port : _) (rest : _) (s : State), (sliceOn s sl = true) ∧ ((slice s sl).releases = (b, port) :: rest) ∧ (recLive s b = true) ∧ (recKind s b = 3) ∧ (fld (recAction s b) 56 41 ≤ port) ∧ (port - fld (recAction s b) 56 41 < 512) ∧ (0 < recRefs s b) :=
  ⟨0, 0, 511, [], { s0 { releases := [(0, 511)] } with mem := [(recAddr 0 + 40, 0x30), (recAddr 0 + 41, 5), (recAddr 0 + 42, 2), (recAddr 0 + 136, 1), (recAddr 0 + 138, 1), (recAddr 0 + 140, 1)] }, (by decide +kernel), (by decide +kernel), (by decide +kernel), (by decide +kernel), (by decide +kernel), (by decide +kernel), (by decide +kernel)⟩

theorem witness_FlowUpkeep_9 : ∃ (sl : _) (p : _) (addr : _) (port : _) (rest : _) (s : State), (sliceOn s sl = true) ∧ ((slice s sl).blockFrees = (p, addr, port) :: rest) ∧ (port < 65536) :=
  ⟨0, 0, 0, 65535, [], s0 { blockFrees := [(0, 0, 65535)] }, (by decide +kernel), (by decide +kernel), (by decide +kernel)⟩

theorem witness_FlowUpkeep_10 : ∃ (sl : _) (n : _) (rest : _) (f : _) (s : State), (sliceOn s sl = true) ∧ ((slice s sl).cts = n :: rest) ∧ (recKind s n.record ≠ 2) ∧ (recOpen s n.record = true) ∧ (bit (recFlags48 s n.record) 2 = true) ∧ (n.tcp = some f) ∧ (bit f 2 = false) ∧ (bit f 0 = false) ∧ (recLife s n.record = lifeAct) :=
  ⟨0, ⟨0, some 0x10, false⟩, [], 0x10, { s0 { cts := [⟨0, some 0x10, false⟩] } with mem := [(recAddr 0 + 41, 5), (recAddr 0 + 42, 2), (recAddr 0 + 48, 4)] }, (by decide +kernel), (by decide +kernel), (by decide +kernel), (by decide +kernel), (by decide +kernel), (by decide +kernel), (by decide +kernel), (by decide +kernel), (by decide +kernel)⟩

theorem witness_FlowUpkeep_11 : ∃ (sl : _) (n : _) (rest : _) (f : _) (s : State), (sliceOn s sl = true) ∧ ((slice s sl).cts = n :: rest) ∧ (recKind s n.record ≠ 2) ∧ (recOpen s n.record = true) ∧ (bit (recFlags48 s n.record) 2 = true) ∧ (recLife s n.record ≠ lifeNew) ∧ (n.tcp = some f) ∧ (bit f 2 = true) :=
  ⟨0, ⟨0, some 4, false⟩, [], 4, { s0 { cts := [⟨0, some 4, false⟩] } with mem := [(recAddr 0 + 41, 5), (recAddr 0 + 42, 2), (recAddr 0 + 48, 4)] }, (by decide +kernel), (by decide +kernel), (by decide +kernel), (by decide +kernel), (by decide +kernel), (by decide +kernel), (by decide +kernel), (by decide +kernel)⟩

theorem witness_FlowUpkeep_12 : ∃ (sl : _) (n : _) (rest : _) (p : _) (s : State), (sliceOn s sl = true) ∧ ((slice s sl).cts = n :: rest) ∧ (recLive s n.record = true) ∧ (recKind s n.record = 2) ∧ (peerOf s n.record = some p) ∧ (recOwner s p ≠ sl) :=
  ⟨0, ⟨0, some 4, false⟩, [], 2 ^ 23, { s0 { cts := [⟨0, some 4, false⟩] } with flow := { slices := [(0, { cts := [⟨0, some 4, false⟩] })], halves := [(0, { fresh := 1 }), (1, { fresh := 1 })] }, mem := [(recAddr 0 + 40, 0x20), (recAddr 0 + 41, 5), (recAddr 0 + 42, 2), (recAddr 0 + 54, 0x80)] }, (by decide +kernel), (by decide +kernel), (by decide +kernel), (by decide +kernel), (by decide +kernel), (by decide +kernel)⟩

theorem witness_FlowUpkeep_13 : ∃ (sl : _) (d : _) (rest : _) (l : _) (s : State), (sliceOn s sl = true) ∧ ((slice s sl).deltas = d :: rest) ∧ (recLive s d.record = true) ∧ (hotOf s sl d.record = some l) ∧ (l.dPktsO + d.po < 2 ^ 32) ∧ (l.dPktsR + d.pr < 2 ^ 32) ∧ (l.dBytesO + d.bo < 2 ^ 32) ∧ (l.dBytesR + d.br < 2 ^ 32) :=
  ⟨0, ⟨0, 1, 0, 64, 0, 0⟩, [], hl, s0 { deltas := [⟨0, 1, 0, 64, 0, 0⟩], hot := [hl] }, (by decide +kernel), (by decide +kernel), (by decide +kernel), (by decide +kernel), (by decide +kernel), (by decide +kernel), (by decide +kernel), (by decide +kernel)⟩

theorem witness_FlowUpkeep_14 : ∃ (sl : _) (r : _) (p : _) (s : State), ((slice s sl).pulls = [p]) ∧ (p.record = r) ∧ (p.ask = none) ∧ (recOwner s r = sl) ∧ (((slice s sl).deltas.filter fun d => d.record = r) = []) ∧ (peerOf s r = none) ∧ (((p.due.filter fun d => !((((slice s sl).pullAns.filter fun e => decide (e.1 = r) || decide (some e.1 = peerOf s r)).map fun e => if e.1 = r then e.2 else 16 + e.2)).contains d).filter (· < 16)) = []) :=
  ⟨0, 0, ⟨0, 0, [], 1, none⟩, s0 { pulls := [⟨0, 0, [], 1, none⟩] }, (by decide +kernel), (by decide +kernel), (by decide +kernel), (by decide +kernel), (by decide +kernel), (by decide +kernel), (by decide +kernel)⟩

theorem witness_FlowUpkeep_15 : ∃ (sl : _) (hf : _) (s : State), (leavingHalf s sl = some hf) ∧ (halfDrained s sl hf = true) ∧ ((∀ l ∈ (slice s sl).hot, l.dirty = false)) ∧ (partner sl ≠ sl) ∧ ((domain s (domSlice (partner sl))).state ≠ dsInit) :=
  ⟨0, 0, s0 { transfer := .leaving true }, (by decide +kernel), (by decide +kernel), (by decide +kernel), (by decide +kernel), (by decide +kernel)⟩

theorem witness_FlowUpkeep_16 : ∃ (sl : _) (s : State), (leavingHalf s sl = none) ∧ ((domain s (domSlice (partner sl))).state ≠ dsInit) :=
  ⟨0, on, (by decide +kernel), (by decide +kernel)⟩

/-! #### FirmwareRequests -/

theorem witness_FirmwareRequests_0 : ∃ (sl : _) (q : _) (rest : _) (st : _) (s : State), (sliceOn s sl = true) ∧ ((slice s sl).wk = q :: rest) ∧ (fld q.req 7 0 = 1) ∧ (wkPlaceholder sl q s = .error st) :=
  ⟨0, ⟨0, 0, 1, 0, 0⟩, [], 4, { s0 { wk := [⟨0, 0, 1, 0, 0⟩], hot := [] } with tsk := { slots := [(0, {})] } }, (by decide +kernel), (by decide +kernel), (by decide +kernel), (error_of (by decide +kernel))⟩

theorem witness_FirmwareRequests_1 : ∃ (sl : _) (q : _) (rest : _) (st : _) (s : State), (sliceOn s sl = true) ∧ ((slice s sl).wk = q :: rest) ∧ (fld q.req 7 0 = 4) ∧ (wkRecord q true s = .error st) :=
  ⟨0, ⟨0, 0, 4 + 5 * 2 ^ 32, 0, 0⟩, [], 2, { s0 { wk := [⟨0, 0, 4 + 5 * 2 ^ 32, 0, 0⟩], hot := [] } with tsk := { slots := [(0, {})] } }, (by decide +kernel), (by decide +kernel), (by decide +kernel), (error_of (by decide +kernel))⟩

theorem witness_FirmwareRequests_2 : ∃ (sl : _) (q : _) (rest : _) (s : State), ((slice s sl).wk = q :: rest) :=
  ⟨0, ⟨0, 0, 1, 0, 0⟩, [], { s0 { wk := [⟨0, 0, 1, 0, 0⟩], hot := [] } with tsk := { slots := [(0, {})] } }, (by decide +kernel)⟩

theorem witness_FirmwareRequests_3 : ∃ (sl : _) (q : _) (rest : _) (l : _) (s : State), (sliceOn s sl = true) ∧ ((slice s sl).wk = q :: rest) ∧ (fld q.req 7 0 = 1) ∧ (wkPlaceholder sl q s = .ok l) ∧ (bit q.req 8 = false) :=
  ⟨0, ⟨0, 0, 1, 0, 0⟩, [], { hl with life := 0, task := some 0 }, { s0 { wk := [⟨0, 0, 1, 0, 0⟩], hot := [{ hl with life := 0, task := some 0 }] } with tsk := { slots := [(0, { kind := 1, record := 0 })] } }, (by decide +kernel), (by decide +kernel), (by decide +kernel), (ok_of (by decide +kernel)), (by decide +kernel)⟩

theorem witness_FirmwareRequests_4 : ∃ (sl : _) (q : _) (rest : _) (l : _) (s : State), (sliceOn s sl = true) ∧ ((slice s sl).wk = q :: rest) ∧ (fld q.req 7 0 = 3) ∧ (wkPlaceholder sl q s = .ok l) :=
  ⟨0, ⟨0, 0, 3, 0, 0⟩, [], { hl with life := 0, task := some 0 }, { s0 { wk := [⟨0, 0, 3, 0, 0⟩], hot := [{ hl with life := 0, task := some 0 }] } with tsk := { slots := [(0, { kind := 1, record := 0 })] } }, (by decide +kernel), (by decide +kernel), (by decide +kernel), (ok_of (by decide +kernel))⟩

theorem witness_FirmwareRequests_5 : ∃ (sl : _) (q : _) (rest : _) (l : _) (s : State), (sliceOn s sl = true) ∧ ((slice s sl).wk = q :: rest) ∧ (fld q.req 7 0 = 2) ∧ (wkPlaceholder sl q s = .ok l) :=
  ⟨0, ⟨0, 0, 2, 0, 0⟩, [], { hl with life := 0, task := some 0 }, { s0 { wk := [⟨0, 0, 2, 0, 0⟩], hot := [{ hl with life := 0, task := some 0 }] } with tsk := { slots := [(0, { kind := 1, record := 0 })] } }, (by decide +kernel), (by decide +kernel), (by decide +kernel), (ok_of (by decide +kernel))⟩

theorem witness_FirmwareRequests_6 : ∃ (sl : _) (q : _) (rest : _) (r : _) (s : State), (sliceOn s sl = true) ∧ ((slice s sl).wk = q :: rest) ∧ (fld q.req 7 0 = 4) ∧ (wkRecord q true s = .ok r) :=
  ⟨0, ⟨0, 0, 4, 0, 0⟩, [], 0, { s0 { wk := [⟨0, 0, 4, 0, 0⟩], hot := [] } with tsk := { slots := [(0, {})] } }, (by decide +kernel), (by decide +kernel), (by decide +kernel), (ok_of (by decide +kernel))⟩

theorem witness_FirmwareRequests_7 : ∃ (sl : _) (q : _) (rest : _) (r : _) (s : State), (sliceOn s sl = true) ∧ ((slice s sl).wk = q :: rest) ∧ (fld q.req 7 0 = 5) ∧ (wkRecord q true s = .ok r) ∧ (recOpen s r = true) :=
  ⟨0, ⟨0, 0, 5, 0, 0⟩, [], 0, { s0 { wk := [⟨0, 0, 5, 0, 0⟩], hot := [] } with tsk := { slots := [(0, {})] } }, (by decide +kernel), (by decide +kernel), (by decide +kernel), (ok_of (by decide +kernel)), (by decide +kernel)⟩

theorem witness_FirmwareRequests_8 : ∃ (sl : _) (q : _) (rest : _) (r : _) (s : State), (sliceOn s sl = true) ∧ ((slice s sl).wk = q :: rest) ∧ (fld q.req 7 0 = 6) ∧ (wkRecord q true s = .ok r) ∧ ((recLife s r = lifeEst ∨ recLife s r = lifeAct)) ∧ (recKind s r ≠ 1) ∧ (pulling s r = false) :=
  ⟨0, ⟨0, 0, 6, 0, 0⟩, [], 0, { s0 { wk := [⟨0, 0, 6, 0, 0⟩], hot := [] } with tsk := { slots := [(0, {})] } }, (by decide +kernel), (by decide +kernel), (by decide +kernel), (ok_of (by decide +kernel)), (by decide +kernel), (by decide +kernel), (by decide +kernel)⟩

theorem witness_FirmwareRequests_9 : ∃ (sl : _) (q : _) (rest : _) (r : _) (s : State), (sliceOn s sl = true) ∧ ((slice s sl).wk = q :: rest) ∧ (fld q.req 7 0 = 7) ∧ (wkRecord q false s = .ok r) ∧ (bit (recFlags48 s r) 1 = true) ∧ ((ring s (656 + profRing (profEntry s (dieOfSlice sl) (recProf s r)))).enabled = true) ∧ ((slice s sl).exports.length < 4096) :=
  ⟨0, ⟨0, 0, 7, 0, 0⟩, [], 0, { s0 { wk := [⟨0, 0, 7, 0, 0⟩], hot := [] } with tsk := { slots := [(0, {})] }, hif := { rings := [(656, { enabled := true })] }, mem := [(recAddr 0 + 41, 5), (recAddr 0 + 42, 2), (recAddr 0 + 48, 2)] }, (by decide +kernel), (by decide +kernel), (by decide +kernel), (ok_of (by decide +kernel)), (by decide +kernel), (by decide +kernel), (by decide +kernel)⟩

theorem witness_FirmwareRequests_10 : ∃ (sl : _) (q : _) (rest : _) (r : _) (s : State), (sliceOn s sl = true) ∧ ((slice s sl).wk = q :: rest) ∧ (fld q.req 7 0 = 8) ∧ (bit q.req 9 = false) ∧ (wkRecord q false s = .ok r) :=
  ⟨0, ⟨0, 0, 8, 0, 0⟩, [], 0, { s0 { wk := [⟨0, 0, 8, 0, 0⟩], hot := [] } with tsk := { slots := [(0, {})] } }, (by decide +kernel), (by decide +kernel), (by decide +kernel), (by decide +kernel), (ok_of (by decide +kernel))⟩

theorem witness_FirmwareRequests_11 : ∃ (sl : _) (q : _) (rest : _) (r : _) (s : State), (sliceOn s sl = true) ∧ ((slice s sl).wk = q :: rest) ∧ (fld q.req 7 0 = 9) ∧ (wkRecord q true s = .ok r) ∧ (recOpen s r = true) :=
  ⟨0, ⟨0, 0, 9, 0, 0⟩, [], 0, { s0 { wk := [⟨0, 0, 9, 0, 0⟩], hot := [] } with tsk := { slots := [(0, {})] } }, (by decide +kernel), (by decide +kernel), (by decide +kernel), (ok_of (by decide +kernel)), (by decide +kernel)⟩

theorem witness_FirmwareRequests_12 : ∃ (sl : _) (q : _) (rest : _) (a : _) (p : _) (u : _) (s : State), (sliceOn s sl = true) ∧ ((slice s sl).wk = q :: rest) ∧ (fld q.req 7 0 = 0x0A) ∧ (natBlockAlloc sl (fld q.req 71 64) (fld q.req 127 96) (modSlice sl (fun x => { x with wk := rest }) s) = (some (a, p), u)) :=
  ⟨0, (⟨0, 0, 10, 0, 0⟩ : WkReq), [], 0, 0, (natBlockAlloc 0 (fld (⟨0, 0, 10, 0, 0⟩ : WkReq).req 71 64) (fld (⟨0, 0, 10, 0, 0⟩ : WkReq).req 127 96) (modSlice 0 (fun x => { x with wk := [] }) poolS)).2, poolS, (by decide +kernel), (by decide +kernel), (by decide +kernel), (pair_of (by decide +kernel))⟩

theorem witness_FirmwareRequests_13 : ∃ (sl : _) (q : _) (rest : _) (r : _) (p : _) (i : _) (s : State), (sliceOn s sl = true) ∧ ((slice s sl).wk = q :: rest) ∧ (fld q.req 7 0 = 0x0B) ∧ (wkRecord q false s = .ok r) ∧ (recKind s r = 3) ∧ (recOpen s r = true) ∧ (poolOfAddr s (dieOfSlice sl) (fld (recAction s r) 40 27) = some p) ∧ (natPortAlloc s r (2 ^ poolLog2 (poolEntry s (dieOfSlice sl) p)) = some i) ∧ (i < 512) :=
  ⟨0, ⟨0, 0, 0x0B, 0, 0⟩, [], 0, 0, 0, { { s0 { wk := [⟨0, 0, 0x0B, 0, 0⟩], hot := [] } with tsk := { slots := [(0, {})] }, mem := [(recAddr 0 + 40, 0x30), (recAddr 0 + 41, 5), (recAddr 0 + 42, 2)] } with tmem := wrN [] (tAddr 0 (tOff 0x0504 0)) 16 (2 ^ 64 + 2 ^ 15) }, (by decide +kernel), (by decide +kernel), (by decide +kernel), (ok_of (by decide +kernel)), (by decide +kernel), (by decide +kernel), (by decide +kernel), (by decide +kernel), (by decide +kernel)⟩

theorem witness_FirmwareRequests_14 : ∃ (sl : _) (q : _) (rest : _) (r : _) (s : State), (sliceOn s sl = true) ∧ ((slice s sl).wk = q :: rest) ∧ (fld q.req 7 0 = 0x0C) ∧ (wkRecord q false s = .ok r) :=
  ⟨0, ⟨0, 0, 0x0C, 0, 0⟩, [], 0, { s0 { wk := [⟨0, 0, 0x0C, 0, 0⟩], hot := [] } with tsk := { slots := [(0, {})] } }, (by decide +kernel), (by decide +kernel), (by decide +kernel), (ok_of (by decide +kernel))⟩

/-! #### SpeculationMessages -/

theorem witness_SpeculationMessages_0 : ∃ (p : _) (r : _) (x : _) (w : _) (s : State), ((replicas s p).find? (fun x => x.record = r) = some x) ∧ (x.since = some w) ∧ (w + 10000000 ≤ s.now) :=
  ⟨15, 5, ⟨[], 0, 0, 5, 0, false, 0, 0, 0, 0, 0, 0, 0, 0, some 0, false, 0, 0⟩, 0, { on with flow := { replicas := [(15, [⟨[], 0, 0, 5, 0, false, 0, 0, 0, 0, 0, 0, 0, 0, some 0, false, 0, 0⟩])] } }, (by decide +kernel), (by decide +kernel), (by decide +kernel)⟩

theorem witness_SpeculationMessages_1 : ∃ (p : _) (r : _) (x : _) (w : _) (s : State), ((replicas s p).find? (fun x => x.record = r) = some x) ∧ (x.since = some w) ∧ (s.now < w + 10000000) :=
  ⟨15, 5, ⟨[], 0, 0, 5, 0, false, 0, 0, 0, 0, 0, 0, 0, 0, some 0, false, 0, 0⟩, 0, { on with now := 0, flow := { replicas := [(15, [⟨[], 0, 0, 5, 0, false, 0, 0, 0, 0, 0, 0, 0, 0, some 0, false, 0, 0⟩])] } }, (by decide +kernel), (by decide +kernel), (by decide +kernel)⟩

theorem witness_SpeculationMessages_2 : ∃ (sl : _) (p : _) (r : _) (rest : _) (s : State), (chan s sl p = .pull r :: rest) ∧ ((∀ q ∈ (pipe s p).passes, q.record = some r → q.st ≠ .spec ∧ q.st ≠ .squashed)) :=
  ⟨0, 0, 5, [], ch (.pull 5) {} [], (by decide +kernel), (by decide +kernel)⟩

theorem witness_SpeculationMessages_3 : ∃ (sl : _) (p : _) (r : _) (rest : _) (q : _) (s : State), (chan s sl p = .pull r :: rest) ∧ (q ∈ (pipe s p).passes) ∧ (q.record = some r) ∧ (q.st = .spec) :=
  ⟨0, 0, 0, [], ps, ch (.pull 0) { passes := [ps] } [], (by decide +kernel), (by decide +kernel), (by decide +kernel), (by decide +kernel)⟩

theorem witness_SpeculationMessages_4 : ∃ (sl : _) (p : _) (key : _) (prof : _) (rec : _) (ver : _) (fl : _) (act : _) (bg : _) (dir : _) (w : _) (u : _) (s : State), (takeChan sl p s = some (.answer key prof rec ver fl act bg dir 1, u)) ∧ ((waitings u p).find? (fun w => w.key = key ∧ w.prof = prof) = some w) ∧ (w.who = []) ∧ (w.late = []) ∧ ((∀ v ∈ waitings u p, v.sent = true)) ∧ ((∀ q ∈ (pipe u p).passes, q.st ≠ .spec)) ∧ ((∀ x ∈ replicas u p, ¬(x.key = key ∧ x.prof = prof))) ∧ (((replicas u p).filter fun x => replicaSet x.h = replicaSet w.req.h).length < 8) :=
  ⟨0, 0, List.replicate 40 0, 0, 0, 0, 0, 0, 0, false, wt, modChan 0 0 (fun _ => []) (ch (.answer (List.replicate 40 0) 0 0 0 0 0 0 false 1) {} [wt]), ch (.answer (List.replicate 40 0) 0 0 0 0 0 0 false 1) {} [wt], (take_ch _ _ _ rfl), (by decide +kernel), (by decide +kernel), (by decide +kernel), (by decide +kernel), (by decide +kernel), (by decide +kernel), (by decide +kernel)⟩

theorem witness_SpeculationMessages_5 : ∃ (sl : _) (p : _) (key : _) (prof : _) (rec : _) (ver : _) (fl : _) (act : _) (bg : _) (dir : _) (w : _) (u : _) (s : State), (takeChan sl p s = some (.answer key prof rec ver fl act bg dir 2, u)) ∧ ((waitings u p).find? (fun w => w.key = key ∧ w.prof = prof) = some w) :=
  ⟨0, 0, List.replicate 40 0, 0, 0, 0, 0, 0, 0, false, wt, modChan 0 0 (fun _ => []) (ch (.answer (List.replicate 40 0) 0 0 0 0 0 0 false 2) {} [wt]), ch (.answer (List.replicate 40 0) 0 0 0 0 0 0 false 2) {} [wt], (take_ch _ _ _ rfl), (by decide +kernel)⟩

theorem witness_SpeculationMessages_6 : ∃ (sl : _) (p : _) (r : _) (v : _) (tm : _) (g : _) (i : _) (u : _) (s : State), (takeChan sl p s = some (.inval r v tm (some (g, i)), u)) ∧ ((∀ w ∈ waitings u p, w.sent = true)) ∧ ((∀ q ∈ (pipe u p).passes, q.st ≠ .spec)) :=
  ⟨0, 0, 5, 1, 0, 0, 0, modChan 0 0 (fun _ => []) (ch (.inval 5 1 0 (some (0, 0))) {} []), ch (.inval 5 1 0 (some (0, 0))) {} [], (take_ch _ _ _ rfl), (by decide +kernel), (by decide +kernel)⟩

theorem witness_SpeculationMessages_7 : ∃ (sl : _) (p : _) (r : _) (v : _) (tm : _) (q : _) (u : _) (s : State), (takeChan sl p s = some (.inval r v tm none, u)) ∧ ((∀ q ∈ (pipe u p).passes, q.record = some r → q.lookup ≠ ctime u)) ∧ ((pipe u p).passes.find? (fun q => decide (q.st = .spec) && !q.auth && decide (q.record = some r) && !wrapGe 48 tm (q.lookup + 4)) = some q) :=
  ⟨0, 0, 0, 1, 3, ps, modChan 0 0 (fun _ => []) (ch (.inval 0 1 3 none) { passes := [ps] } []), ch (.inval 0 1 3 none) { passes := [ps] } [], (take_ch _ _ _ rfl), (by decide +kernel), (by decide +kernel)⟩

theorem witness_SpeculationMessages_8 : ∃ (sl : _) (s : State), (sliceOn s sl = true) ∧ (ctime s % 16 = 0) ∧ ((slice s sl).stampAt + 16 * 625 ≤ s.now) :=
  ⟨0, { on with now := 625 * 16 }, (by decide +kernel), (by decide +kernel), (by decide +kernel)⟩

theorem witness_SpeculationMessages_9 : ∃ (s : State), (ctime s % 16 ≠ 0) :=
  ⟨{ on with now := 625 }, (by decide +kernel)⟩

theorem witness_SpeculationMessages_10 : ∃ (sl : _) (p : _) (v : _) (u : _) (s : State), (takeChan sl p s = some (.stamp v, u)) ∧ ((∀ w ∈ waitings u p, w.sent = true)) ∧ ((∀ q ∈ (pipe u p).passes, q.st ≠ .spec)) :=
  ⟨0, 0, 5, modChan 0 0 (fun _ => []) (ch (.stamp 5) {} []), ch (.stamp 5) {} [], (take_ch _ _ _ rfl), (by decide +kernel), (by decide +kernel)⟩

theorem witness_SpeculationMessages_11 : ∃ (sl : _) (p : _) (v : _) (q : _) (x : _) (u : _) (s : State), (takeChan sl p s = some (.stamp v, u)) ∧ ((∀ w ∈ waitings u p, w.sent = true)) ∧ ((pipe u p).passes = [q]) ∧ (q.st = .spec) ∧ (q.owner = sl) ∧ (wrapGe 48 v (q.lookup + 4) = true) ∧ (pktOf u q.pkt = some x) ∧ (x.pipe = p) ∧ (x.check = none) ∧ (x.flowOk = false) ∧ (x.task = false) ∧ ((∀ y ∈ (pipe u p).yoyo, y.pkt ≠ q.pkt)) :=
  ⟨0, 0, 4, ps, pk, modChan 0 0 (fun _ => []) (ch (.stamp 4) { passes := [ps] } []), ch (.stamp 4) { passes := [ps] } [], (take_ch _ _ _ rfl), (by decide +kernel), (by decide +kernel), (by decide +kernel), (by decide +kernel), (by decide +kernel), (by decide +kernel), (by decide +kernel), (by decide +kernel), (by decide +kernel), (by decide +kernel), (by decide +kernel)⟩

theorem witness_SpeculationMessages_12 : ∃ (sl : _) (p : _) (hf : _) (u : _) (s : State), (takeChan sl p s = some (.finalStamp hf, u)) :=
  ⟨0, 0, 0, modChan 0 0 (fun _ => []) (ch (.finalStamp 0) {} []), ch (.finalStamp 0) {} [], (take_ch _ _ _ rfl)⟩

theorem witness_SpeculationMessages_13 : ∃ (k : _) (x : _) (s : State), (pktOf s k = some x) ∧ (x.flowOk = true) ∧ (x.noticed = false) ∧ (x.copy = false) ∧ (s.buf.copies = []) :=
  ⟨0, { pk with flowOk := true }, { on with pkts := [(0, { pk with flowOk := true })] }, (by decide +kernel), (by decide +kernel), (by decide +kernel), (by decide +kernel), (by decide +kernel)⟩

theorem witness_SpeculationMessages_14 : ∃ (k : _) (x : _) (s : State), (pktOf s k = some x) ∧ (x.flowOk = false) ∧ (s.buf.copies = []) :=
  ⟨0, pk, { on with pkts := [(0, pk)] }, (by decide +kernel), (by decide +kernel), (by decide +kernel)⟩

theorem witness_SpeculationMessages_15 : ∃ (p : _) (q : _) (u : _) (s : State), (confirmPasses p s = u) ∧ ((pipe u p).passes.find? (fun q => decide (q.st = .spec) && !q.auth && wrapGe 48 (ctime u) (q.lookup + 3200)) = some q) :=
  ⟨0, ps, confirmPasses 0 ({ on with now := 625 * 3200, pipes := [(0, { passes := [ps] })] }), { on with now := 625 * 3200, pipes := [(0, { passes := [ps] })] }, rfl, (by decide +kernel)⟩

theorem witness_SpeculationMessages_16 : ∃ (p : _) (u : _) (s : State), (confirmPasses p s = u) ∧ ((∀ q ∈ (pipe u p).passes, q.st = .spec → q.auth = true ∨ wrapGe 48 (ctime u) (q.lookup + 3200) = false)) :=
  ⟨0, confirmPasses 0 ({ on with now := 625 * 3199, pipes := [(0, { passes := [ps] })] }), { on with now := 625 * 3199, pipes := [(0, { passes := [ps] })] }, rfl, (by decide +kernel)⟩

theorem witness_SpeculationMessages_17 : ∃ (p : _) (y : _) (x : _) (q : _) (s : State), (yoyoDue s p true = some y) ∧ (pktOf s y.pkt = some x) ∧ (passOf s p y.pkt (y.pass.getD 0) = some q) ∧ (domWorks s (domPipe p) = true) ∧ (waitCount s p < 4096) ∧ ((∀ w ∈ waitings s p, ¬(w.key = q.snap.key ∧ w.prof = q.snap.prof))) ∧ (q.cause ≠ 3) ∧ (q.snap.skip = false) :=
  ⟨0, ⟨0, some 0, 0⟩, pk, { ps with st := .squashed, snap := { skip := false } }, { on with pkts := [(0, pk)], pipes := [(0, { passes := [{ ps with st := .squashed, snap := { skip := false } }], yoyo := [⟨0, some 0, 0⟩] })] }, (by decide +kernel), (by decide +kernel), (by decide +kernel), (by decide +kernel), (by decide +kernel), (by decide +kernel), (by decide +kernel), (by decide +kernel)⟩

theorem witness_SpeculationMessages_18 : ∃ (p : _) (r : _) (w : _) (s : State), (unstableOf s p r = some w) ∧ (w.lastInv + cfg1 s (.fleSpecCfg p) 19 0 * 1000000 ≤ s.now) :=
  ⟨0, 5, ⟨5, 1, 0, true⟩, { on with pipes := [(0, { unstable := [⟨5, 1, 0, true⟩] })] }, (by decide +kernel), (by decide +kernel)⟩

theorem witness_SpeculationMessages_19 : ∃ (p : _) (r : _) (w : _) (s : State), (unstableOf s p r = some w) ∧ (s.now < w.lastInv + cfg1 s (.fleSpecCfg p) 19 0 * 1000000) :=
  ⟨0, 5, ⟨5, 1, 10 ^ 15, true⟩, { on with pipes := [(0, { unstable := [⟨5, 1, 10 ^ 15, true⟩] })] }, (by decide +kernel), (by decide +kernel)⟩

theorem witness_SpeculationMessages_20 : ∃ (p : _) (sl : _) (s : State), (hasPipe s.part p = true) ∧ (hasSlice s.part sl = true) ∧ ((slice s sl).servesOwn = true) ∧ (bit (pipe s p).stalled sl = false) ∧ (mget 0 (pipe s p).advanced sl + Nat.max 100 (cfg s (.fleHorizonCfg (dieOfPipe p)) 11 0) * 1000 ≤ s.now) :=
  ⟨15, 7, on, (by decide +kernel), (by decide +kernel), (by decide +kernel), (by decide +kernel), (by decide +kernel)⟩

theorem witness_SpeculationMessages_21 : ∃ (p : _) (sl : _) (s : State), (bit (pipe s p).stalled sl = true) :=
  ⟨15, 7, { on with pipes := [(15, { stalled := 128 })] }, (by decide +kernel)⟩

/-! #### LearningDecisions -/

theorem witness_LearningDecisions_0 : ∃ (sl : _) (f : _) (m : _) (tgt : _) (rest : _) (i : _) (e : _) (s : State), (mget [] s.fwd.learnQ sl = .req f m tgt :: rest) ∧ (sliceOn s sl = true) ∧ (l2Find s (dieOfSlice sl) f m = some i) ∧ (l2Get s (dieOfSlice sl) i = e) ∧ (unfreeze s (dieOfSlice sl) e = e) ∧ (l2Pinned e = false) ∧ (l2Dest e = tgt) :=
  ⟨5, 1, 2, (3 * 2 ^ 17 + 7), [], 244436, le7, l2 [(244436, le7)] [.req 1 2 (3 * 2 ^ 17 + 7)] [], (by decide +kernel), (by decide +kernel), (by decide +kernel), (by decide +kernel), (by decide +kernel), (by decide +kernel), (by decide +kernel)⟩

theorem witness_LearningDecisions_1 : ∃ (sl : _) (f : _) (m : _) (tgt : _) (rest : _) (i : _) (e : _) (s : State), (mget [] s.fwd.learnQ sl = .req f m tgt :: rest) ∧ (sliceOn s sl = true) ∧ (l2Find s (dieOfSlice sl) f m = some i) ∧ (l2Get s (dieOfSlice sl) i = e) ∧ (l2Pinned (unfreeze s (dieOfSlice sl) e) = true) ∧ (l2Dest (unfreeze s (dieOfSlice sl) e) ≠ tgt) :=
  ⟨5, 1, 2, (3 * 2 ^ 17 + 8), [], 244436, (le7 + 2 ^ 84), l2 [(244436, (le7 + 2 ^ 84))] [.req 1 2 (3 * 2 ^ 17 + 8)] [], (by decide +kernel), (by decide +kernel), (by decide +kernel), (by decide +kernel), (by decide +kernel), (by decide +kernel)⟩

theorem witness_LearningDecisions_2 : ∃ (sl : _) (f : _) (m : _) (tgt : _) (rest : _) (i : _) (e : _) (s : State), (mget [] s.fwd.learnQ sl = .req f m tgt :: rest) ∧ (sliceOn s sl = true) ∧ (l2Find s (dieOfSlice sl) f m = some i) ∧ (l2Get s (dieOfSlice sl) i = e) ∧ (unfreeze s (dieOfSlice sl) e = e) ∧ (l2Pinned e = false) ∧ (l2Dest e ≠ tgt) ∧ (l2Frozen e = true) :=
  ⟨5, 1, 2, (3 * 2 ^ 17 + 8), [], 244436, (le7 + 2 ^ 86), l2 [(244436, (le7 + 2 ^ 86))] [.req 1 2 (3 * 2 ^ 17 + 8)] [], (by decide +kernel), (by decide +kernel), (by decide +kernel), (by decide +kernel), (by decide +kernel), (by decide +kernel), (by decide +kernel), (by decide +kernel)⟩

theorem witness_LearningDecisions_3 : ∃ (sl : _) (f : _) (m : _) (tgt : _) (rest : _) (i : _) (e : _) (s : State), (mget [] s.fwd.learnQ sl = .req f m tgt :: rest) ∧ (sliceOn s sl = true) ∧ (l2Find s (dieOfSlice sl) f m = some i) ∧ (l2Get s (dieOfSlice sl) i = e) ∧ (unfreeze s (dieOfSlice sl) e = e) ∧ (l2Pinned e = false) ∧ (l2Dest e ≠ tgt) ∧ (l2Frozen e = false) ∧ (msSinceStamp s e < cfg1 s (.fwdLearnCfg (dieOfSlice sl)) 14 0) ∧ (l2Moves e + 1 ≤ cfg s (.fwdLearnCfg (dieOfSlice sl)) 19 16) :=
  ⟨5, 1, 2, (3 * 2 ^ 17 + 8), [], 244436, (le7 + 2 * 2 ^ 92), l2 [(244436, (le7 + 2 * 2 ^ 92))] [.req 1 2 (3 * 2 ^ 17 + 8)] [], (by decide +kernel), (by decide +kernel), (by decide +kernel), (by decide +kernel), (by decide +kernel), (by decide +kernel), (by decide +kernel), (by decide +kernel), (by decide +kernel), (by decide +kernel)⟩

theorem witness_LearningDecisions_4 : ∃ (sl : _) (f : _) (m : _) (tgt : _) (rest : _) (i : _) (e : _) (s : State), (mget [] s.fwd.learnQ sl = .req f m tgt :: rest) ∧ (sliceOn s sl = true) ∧ (l2Find s (dieOfSlice sl) f m = some i) ∧ (l2Get s (dieOfSlice sl) i = e) ∧ (unfreeze s (dieOfSlice sl) e = e) ∧ (l2Pinned e = false) ∧ (l2Dest e ≠ tgt) ∧ (l2Frozen e = false) ∧ (msSinceStamp s e < cfg1 s (.fwdLearnCfg (dieOfSlice sl)) 14 0) ∧ (cfg s (.fwdLearnCfg (dieOfSlice sl)) 19 16 < l2Moves e + 1) :=
  ⟨5, 1, 2, (3 * 2 ^ 17 + 8), [], 244436, (le7 + 3 * 2 ^ 92), l2 [(244436, (le7 + 3 * 2 ^ 92))] [.req 1 2 (3 * 2 ^ 17 + 8)] [], (by decide +kernel), (by decide +kernel), (by decide +kernel), (by decide +kernel), (by decide +kernel), (by decide +kernel), (by decide +kernel), (by decide +kernel), (by decide +kernel), (by decide +kernel)⟩

theorem witness_LearningDecisions_5 : ∃ (sl : _) (f : _) (m : _) (tgt : _) (rest : _) (i : _) (s : State), (mget [] s.fwd.learnQ sl = .req f m tgt :: rest) ∧ (sliceOn s sl = true) ∧ (l2Find s (dieOfSlice sl) f m = none) ∧ (l2FreeSlot s (dieOfSlice sl) f m = some i) :=
  ⟨5, 1, 2, (3 * 2 ^ 17 + 7), [], 244436, l2 [] [.req 1 2 (3 * 2 ^ 17 + 7)] [], (by decide +kernel), (by decide +kernel), (by decide +kernel), (by decide +kernel)⟩

theorem witness_LearningDecisions_6 : ∃ (sl : _) (f : _) (m : _) (tgt : _) (rest : _) (s : State), (mget [] s.fwd.learnQ sl = .req f m tgt :: rest) ∧ (sliceOn s sl = true) ∧ (l2Find s (dieOfSlice sl) f m = none) ∧ (l2FreeSlot s (dieOfSlice sl) f m = none) ∧ ((∀ i ∈ l2Cands s (dieOfSlice sl) f m, l2Pinned (l2Get s (dieOfSlice sl) i) = true)) :=
  ⟨5, 1, 2, (3 * 2 ^ 17 + 7), [], l2 ([244436, 244437, 244438, 244439, 954112, 954113, 954114, 954115].map fun i => (i, le7 + 2 ^ 84 + 1)) [.req 1 2 (3 * 2 ^ 17 + 7)] [], (by decide +kernel), (by decide +kernel), (by decide +kernel), (by decide +kernel), (by decide +kernel)⟩

theorem witness_LearningDecisions_7 : ∃ (sl : _) (s : State), (sliceOn s sl = false) :=
  ⟨5, { on with pwr := { on.pwr with domains := [(domSlice 5, { state := 2 })] } }, (by decide +kernel)⟩

theorem witness_LearningDecisions_8 : ∃ (sl : _) (f : _) (m : _) (d : _) (rest : _) (i : _) (s : State), (mget [] s.fwd.learnQ sl = .hit f m d :: rest) ∧ (sliceOn s sl = true) ∧ (l2Find s (dieOfSlice sl) f m = some i) :=
  ⟨5, 1, 2, (3 * 2 ^ 17 + 7), [], 244436, l2 [(244436, le7)] [.hit 1 2 (3 * 2 ^ 17 + 7)] [], (by decide +kernel), (by decide +kernel), (by decide +kernel)⟩

theorem witness_LearningDecisions_9 : ∃ (sl : _) (f : _) (m : _) (d : _) (rest : _) (i : _) (s : State), (mget [] s.fwd.learnQ sl = .hit f m d :: rest) ∧ (sliceOn s sl = true) ∧ (l2Find s (dieOfSlice sl) f m = none) ∧ (l2FreeSlot s (dieOfSlice sl) f m = some i) :=
  ⟨5, 1, 2, (3 * 2 ^ 17 + 7), [], 244436, l2 [] [.hit 1 2 (3 * 2 ^ 17 + 7)] [], (by decide +kernel), (by decide +kernel), (by decide +kernel), (by decide +kernel)⟩

theorem witness_LearningDecisions_10 : ∃ (die : _) (i : _) (img : _) (rest : _) (s : State), (mget [] s.fwd.bcast die = .put i img :: rest) :=
  ⟨2, 244436, le7, [], l2 [] [] [.put 244436 le7], (by decide +kernel)⟩

theorem witness_LearningDecisions_11 : ∃ (die : _) (i : _) (f : _) (m : _) (rest : _) (s : State), (mget [] s.fwd.bcast die = .delete i f m :: rest) :=
  ⟨2, 244436, 1, 2, [], l2 [] [] [.delete 244436 1 2], (by decide +kernel)⟩

theorem witness_LearningDecisions_12 : ∃ (die : _) (i : _) (f : _) (m : _) (rest : _) (s : State), (mget [] s.fwd.bcast die = .delete i f m :: rest) ∧ (l2Holds s die i f m = true) ∧ (l2Hit (l2Get s die i) = true) :=
  ⟨2, 244436, 1, 2, [], l2 [(244436, le7 + 2 ^ 87)] [] [.delete 244436 1 2], (by decide +kernel), (by decide +kernel), (by decide +kernel)⟩

theorem witness_LearningDecisions_13 : ∃ (die : _) (i : _) (f : _) (m : _) (rest : _) (s : State), (mget [] s.fwd.bcast die = .delete i f m :: rest) ∧ (l2Hit (l2Get s die i) = false) :=
  ⟨2, 244436, 1, 2, [], l2 [(244436, le7)] [] [.delete 244436 1 2], (by decide +kernel), (by decide +kernel)⟩

theorem witness_LearningDecisions_14 : ∃ (sl : _) (s : State), (cfgBit s (.fwdAgeCfg (dieOfSlice sl)) 31 = false) :=
  ⟨5, { on with regs := [(regAddr (.fwdAgeCfg 2), 0)] }, (by decide +kernel)⟩

theorem witness_LearningDecisions_15 : ∃ (sl : _) (i : _) (e : _) (s : State), (sliceOn s sl = true) ∧ (cfgBit s (.fwdAgeCfg (dieOfSlice sl)) 31 = true) ∧ (s.pwr.committed = true) ∧ (ageNext s sl (mget 0 s.fwd.agePos sl) = some i) ∧ (mget [] s.fwd.learnQ sl = []) ∧ (mget 0 s.fwd.ageAt sl + agePeriod s sl * i / 2 ^ 20 ≤ s.now) ∧ (ageable s sl i = true) ∧ (l2Get s (dieOfSlice sl) i = e) ∧ (l2Frozen e = false) ∧ (l2Moves e = 0) :=
  ⟨5, 244436, le7, { l2 [(244436, le7)] [] [] with regs := [], now := 10 ^ 15 }, (by decide +kernel), (by decide +kernel), (by decide +kernel), (by decide +kernel), (by decide +kernel), (by decide +kernel), (by decide +kernel), (by decide +kernel), (by decide +kernel), (by decide +kernel)⟩

/-! #### MatchBankRows -/

theorem witness_MatchBankRows_0 : ∃ (p : _) (b : _) (s : State), (hasPipe s.part p = true) ∧ (b < 8) ∧ (bankUpdates s p b = []) :=
  ⟨15, 7, on, (by decide +kernel), (by decide +kernel), (by decide +kernel)⟩

theorem witness_MatchBankRows_1 : ∃ (p : _) (b : _) (u : _) (rest : _) (s : State), (hasPipe s.part p = true) ∧ (b < 8) ∧ (bankUpdates s p b = u :: rest) ∧ (u.cmd = none) ∧ (u.done + 1 = (if u.width = 1 then 1 else u.width + 1)) :=
  ⟨15, 7, ⟨2047, 4, 5, 4, none⟩, [], { on with cls := { updates := [(127, [⟨2047, 4, 5, 4, none⟩])] } }, (by decide +kernel), (by decide +kernel), (by decide +kernel), (by decide +kernel), (by decide +kernel)⟩

theorem witness_MatchBankRows_2 : ∃ (p : _) (b : _) (u : _) (rest : _) (s : State), (hasPipe s.part p = true) ∧ (b < 8) ∧ (bankUpdates s p b = u :: rest) ∧ (u.done = 0) ∧ (u.width ≠ 1) ∧ (u.width ≠ 0) :=
  ⟨15, 7, ⟨2047, 4, 5, 0, none⟩, [], { on with cls := { updates := [(127, [⟨2047, 4, 5, 0, none⟩])] } }, (by decide +kernel), (by decide +kernel), (by decide +kernel), (by decide +kernel), (by decide +kernel), (by decide +kernel)⟩

theorem witness_MatchBankRows_3 : ∃ (p : _) (b : _) (u : _) (rest : _) (s : State), (hasPipe s.part p = true) ∧ (b < 8) ∧ (bankUpdates s p b = u :: rest) ∧ (u.done ≠ 0) ∧ (u.done < u.width) :=
  ⟨15, 7, ⟨2047, 4, 5, 1, none⟩, [], { on with cls := { updates := [(127, [⟨2047, 4, 5, 1, none⟩])] } }, (by decide +kernel), (by decide +kernel), (by decide +kernel), (by decide +kernel), (by decide +kernel)⟩

theorem witness_MatchBankRows_4 : ∃ (p : _) (b : _) (u : _) (rest : _) (s : State), (hasPipe s.part p = true) ∧ (b < 8) ∧ (bankUpdates s p b = u :: rest) ∧ (u.cmd = none) :=
  ⟨15, 7, ⟨2047, 4, 5, 0, none⟩, [], { on with cls := { updates := [(127, [⟨2047, 4, 5, 0, none⟩])] } }, (by decide +kernel), (by decide +kernel), (by decide +kernel), (by decide +kernel)⟩

theorem witness_MatchBankRows_5 : ∃ (p : _) (b : _) (w : _) (k : _) (s : State), (hasPipe s.part p = true) ∧ (b < 8) ∧ (mget 0 s.cls.scrub (8 * p + b) = k) ∧ (bankWidth s p b = w) ∧ (tcamEntry s p (2048 * b + (k - k % w)) = sramEntry s p (2048 * b + (k - k % w))) :=
  ⟨15, 7, 1, 2047, { on with cls := { scrub := [(127, 2047)] } }, (by decide +kernel), (by decide +kernel), (by decide +kernel), (by decide +kernel), (by decide +kernel)⟩

theorem witness_MatchBankRows_6 : ∃ (p : _) (b : _) (w : _) (k : _) (e : _) (s : State), (hasPipe s.part p = true) ∧ (b < 8) ∧ (mget 0 s.cls.scrub (8 * p + b) = k) ∧ (bankWidth s p b = w) ∧ (e = 2048 * b + (k - k % w)) ∧ (tcamEntry s p e ≠ sramEntry s p e) ∧ (bankUpdates s p b = []) :=
  ⟨15, 7, 1, 2047, 16383, { on with cls := { scrub := [(127, 2047)], sram := [(unitKey 15 16383, 5)] } }, (by decide +kernel), (by decide +kernel), (by decide +kernel), (by decide +kernel), (by decide +kernel), (by decide +kernel), (by decide +kernel)⟩

theorem witness_MatchBankRows_7 : ∃ (p : _) (b : _) (w : _) (k : _) (e : _) (s : State), (hasPipe s.part p = true) ∧ (b < 8) ∧ (mget 0 s.cls.scrub (8 * p + b) = k) ∧ (bankWidth s p b = w) ∧ (e = 2048 * b + (k - k % w)) ∧ (tcamEntry s p e ≠ sramEntry s p e) ∧ (bankUpdates s p b = []) :=
  ⟨15, 7, 1, 2047, 16383, { on with cls := { scrub := [(127, 2047)], sram := [(unitKey 15 16383, 5)] } }, (by decide +kernel), (by decide +kernel), (by decide +kernel), (by decide +kernel), (by decide +kernel), (by decide +kernel), (by decide +kernel)⟩

theorem witness_MatchBankRows_8 : ∃ (d : _) (b : _) (s : State), (cfgBit s (.fwdCmpCfg d) 31 = false ∨ s.now < (cmpOf s d b).at_ + cfg1 s (.fwdCmpCfg d) 11 0 * 10 ^ 12) :=
  ⟨3, 1023, { on with regs := [(regAddr (.fwdCmpCfg 3), 0)] }, (by decide +kernel)⟩

theorem witness_MatchBankRows_9 : ∃ (d : _) (b : _) (c : _) (s : State), (hasDie s.part d = true) ∧ (b < 1024) ∧ (cfgBit s (.fwdCmpCfg d) 31 = true) ∧ (cmpOf s d b = c) ∧ (c.at_ + cfg1 s (.fwdCmpCfg d) 11 0 * 10 ^ 12 ≤ s.now) ∧ (c.stale = true) ∧ (c.cycles = 0) :=
  ⟨3, 1023, {}, { on with fwd := { cmp := [(4095, {})] } }, (by decide +kernel), (by decide +kernel), (by decide +kernel), (by decide +kernel), (by decide +kernel), (by decide +kernel), (by decide +kernel)⟩

theorem witness_MatchBankRows_10 : ∃ (d : _) (b : _) (c : _) (s : State), (hasDie s.part d = true) ∧ (b < 1024) ∧ (cfgBit s (.fwdCmpCfg d) 31 = true) ∧ (cmpOf s d b = c) ∧ (c.at_ + cfg1 s (.fwdCmpCfg d) 11 0 * 10 ^ 12 ≤ s.now) ∧ (c.stale = true) ∧ (c.cycles ≠ 0) ∧ (c.told = false) :=
  ⟨3, 1023, { cycles := 1 }, { on with fwd := { cmp := [(4095, { cycles := 1 })] } }, (by decide +kernel), (by decide +kernel), (by decide +kernel), (by decide +kernel), (by decide +kernel), (by decide +kernel), (by decide +kernel), (by decide +kernel)⟩

theorem witness_MatchBankRows_11 : ∃ (d : _) (b : _) (c : _) (s : State), (hasDie s.part d = true) ∧ (b < 1024) ∧ (cfgBit s (.fwdCmpCfg d) 31 = true) ∧ (cmpOf s d b = c) ∧ (c.at_ + cfg1 s (.fwdCmpCfg d) 11 0 * 10 ^ 12 ≤ s.now) ∧ (c.stale = false) ∧ (c.dirty = true) ∧ (c.abandoned < 4) :=
  ⟨3, 1023, { stale := false, dirty := true, abandoned := 3 }, { on with fwd := { cmp := [(4095, { stale := false, dirty := true, abandoned := 3 })] } }, (by decide +kernel), (by decide +kernel), (by decide +kernel), (by decide +kernel), (by decide +kernel), (by decide +kernel), (by decide +kernel), (by decide +kernel)⟩

theorem witness_MatchBankRows_12 : ∃ (d : _) (b : _) (c : _) (s : State), (hasDie s.part d = true) ∧ (b < 1024) ∧ (cfgBit s (.fwdCmpCfg d) 31 = true) ∧ (cmpOf s d b = c) ∧ (c.at_ + cfg1 s (.fwdCmpCfg d) 11 0 * 10 ^ 12 ≤ s.now) ∧ (c.stale = false) ∧ ((c.dirty = false ∨ 4 ≤ c.abandoned)) ∧ (compareValue s d b = c.digest) :=
  ⟨3, 1023, { stale := false, digest := compareValue on 3 1023 }, { on with fwd := { cmp := [(4095, { stale := false, digest := compareValue on 3 1023 })] } }, (by decide +kernel), (by decide +kernel), (by decide +kernel), (cmp_at _), (by decide +kernel), rfl, (Or.inl rfl), (cmp_eq _)⟩

theorem witness_MatchBankRows_13 : ∃ (d : _) (b : _) (c : _) (s : State), (hasDie s.part d = true) ∧ (b < 1024) ∧ (cfgBit s (.fwdCmpCfg d) 31 = true) ∧ (cmpOf s d b = c) ∧ (c.at_ + cfg1 s (.fwdCmpCfg d) 11 0 * 10 ^ 12 ≤ s.now) ∧ (c.stale = false) ∧ ((c.dirty = false ∨ 4 ≤ c.abandoned)) ∧ (compareValue s d b ≠ c.digest) :=
  ⟨3, 1023, { stale := false, digest := other (compareValue on 3 1023) }, { on with fwd := { cmp := [(4095, { stale := false, digest := other (compareValue on 3 1023) })] } }, (by decide +kernel), (by decide +kernel), (by decide +kernel), (cmp_at _), (by decide +kernel), rfl, (Or.inl rfl), (cmp_ne _)⟩

/-! #### FramesAndPasses -/

theorem witness_FramesAndPasses_0 : ∃ (port : _) (s : State), (portUp s port = false ∨ domWorks s (domPipe (pipeOfLane port)) = false) :=
  ⟨0, on, (by decide +kernel)⟩

theorem witness_FramesAndPasses_1 : ∃ (port : _) (bs : _) (x : _) (s : State), (portUp s port = true) ∧ (domWorks s (domPipe (pipeOfLane port)) = true) ∧ (portFrame s port bs (rxStamp s port) = x) ∧ (holdMax < heldBytes s x.pipe + bs.length + 4) ∧ (lossless s port x.pri = false) :=
  ⟨0, List.replicate 60 0, portFrame fullD 0 (List.replicate 60 0) (rxStamp fullD 0), fullD, (by decide +kernel), (by decide +kernel), rfl, (by decide +kernel), (by decide +kernel)⟩

theorem witness_FramesAndPasses_2 : ∃ (port : _) (bs : _) (x : _) (s : State), (portUp s port = true) ∧ (domWorks s (domPipe (pipeOfLane port)) = true) ∧ (portFrame s port bs (rxStamp s port) = x) ∧ (holdMax < heldBytes s x.pipe + bs.length + 4) ∧ (lossless s port x.pri = true) :=
  ⟨0, List.replicate 60 0, portFrame fullL 0 (List.replicate 60 0) (rxStamp fullL 0), fullL, (by decide +kernel), (by decide +kernel), rfl, (by decide +kernel), (by decide +kernel)⟩

theorem witness_FramesAndPasses_3 : ∃ (port : _) (bs : _) (x : _) (s : State), (portUp s port = true) ∧ (domWorks s (domPipe (pipeOfLane port)) = true) ∧ (portFrame s port bs (rxStamp s port) = x) ∧ (heldBytes s x.pipe + bs.length + 4 ≤ holdMax) :=
  ⟨0, List.replicate 60 0, portFrame p0up 0 (List.replicate 60 0) (rxStamp p0up 0), p0up, (by decide +kernel), (by decide +kernel), rfl, (by decide +kernel)⟩

theorem witness_FramesAndPasses_4 : ∃ (p : _) (s : State), ((pipe s p).intake = [] ∨ domWorks s (domPipe p) = false) :=
  ⟨0, on, (by decide +kernel)⟩

theorem witness_FramesAndPasses_5 : ∃ (p : _) (k : _) (rest : _) (s : State), ((pipe s p).intake = k :: rest) ∧ (domWorks s (domPipe p) = true) ∧ (8192 ≤ tableCount s p ∨ 4096 ≤ waitCount s p ∨ itemHeld s p = true) :=
  ⟨0, 0, [], { on with tsk := { items := [(0, [{ src := some 0 }])] }, pipes := [(0, { intake := [0] })] }, (by decide +kernel), (by decide +kernel), (Or.inr (Or.inr (by decide +kernel)))⟩

theorem witness_FramesAndPasses_6 : ∃ (p : _) (t : _) (n : _) (s : State), (8192 ≤ tableCount s p) ∧ ((pipe s p).fullAt = some t) ∧ (n = (s.now - t) / 625) ∧ (n ≠ 0) :=
  ⟨0, 0, 10 ^ 15 / 625, { on with pipes := [(0, { intake := [0], passes := List.replicate 8192 ps, fullAt := some 0 })] }, (table_full on), rfl, (by decide +kernel), (by decide +kernel)⟩

theorem witness_FramesAndPasses_7 : ∃ (p : _) (k : _) (rest : _) (u : _) (s : State), ((pipe s p).intake = k :: rest) ∧ (domWorks s (domPipe p) = true) ∧ (stageOpen s p = true) ∧ (itemHeld s p = false) ∧ (askCells (dieOfPipe p) (frameWaiter s k) (noteFull p s) = (false, u)) :=
  ⟨0, 0, [], (askCells (dieOfPipe 0) (frameWaiter inFull 0) (noteFull 0 inFull)).2, inFull, (by decide +kernel), (by decide +kernel), (by decide +kernel), (by decide +kernel), (pair_of (by decide +kernel))⟩

theorem witness_FramesAndPasses_8 : ∃ (p : _) (k : _) (rest : _) (r : _) (u : _) (v : _) (w : _) (c : _) (s : State), ((pipe s p).intake = k :: rest) ∧ (domWorks s (domPipe p) = true) ∧ (stageOpen s p = true) ∧ (itemHeld s p = false) ∧ (askCells (dieOfPipe p) (frameWaiter s k) (noteFull p s) = (true, r)) ∧ (writeFrame k r = some u) ∧ (v = holdCheck p (modPipe p (fun y => { y with intake := rest }) u)) ∧ (epochEnter p v = (c, w)) :=
  ⟨0, 0, [], in0R, (writeFrame 0 in0R).getD in0R, in0V, (epochEnter 0 in0V).2, (epochEnter 0 in0V).1, in0, (by decide +kernel), (by decide +kernel), (by decide +kernel), (by decide +kernel), (pair_of (by decide +kernel)), (some_of _ (by decide +kernel)), rfl, rfl⟩

theorem witness_FramesAndPasses_9 : ∃ (p : _) (y : _) (s : State), (yoyoDue s p true = none) ∧ (yoyoDue s p false = some y) ∧ (domWorks s (domPipe p) = true) ∧ (stageOpen s p = true) :=
  ⟨0, ⟨0, none, 0⟩, { on with pipes := [(0, { yoyo := [⟨0, none, 0⟩] })] }, (by decide +kernel), (by decide +kernel), (by decide +kernel), (by decide +kernel)⟩

theorem witness_FramesAndPasses_10 : ∃ (p : _) (y : _) (s : State), (yoyoDue s p true = some y) :=
  ⟨0, ⟨0, some 0, 0⟩, { on with pipes := [(0, { yoyo := [⟨0, some 0, 0⟩] })] }, (by decide +kernel)⟩

theorem witness_FramesAndPasses_11 : ∃ (k : _) (x : _) (s : State), (pktOf s k = some x) ∧ (x.check ≠ none) :=
  ⟨0, { pk with check := some true }, { on with pkts := [(0, { pk with check := some true })] }, (by decide +kernel), (by decide +kernel)⟩

theorem witness_FramesAndPasses_12 : ∃ (k : _) (x : _) (s : State), (pktOf s k = some x) ∧ (x.check = none) ∧ (x.deferred = []) :=
  ⟨0, pk, { on with pkts := [(0, pk)] }, (by decide +kernel), (by decide +kernel), (by decide +kernel)⟩

theorem witness_FramesAndPasses_13 : ∃ (k : _) (x : _) (s : State), (pktOf s k = some x) ∧ (x.check = none) ∧ (x.started = true) :=
  ⟨0, { pk with started := true }, { on with pkts := [(0, { pk with started := true })] }, (by decide +kernel), (by decide +kernel), (by decide +kernel)⟩

theorem witness_FramesAndPasses_14 : ∃ (k : _) (x : _) (s : State), (pktOf s k = some x) ∧ (x.check = none) ∧ (x.started = false) :=
  ⟨0, pk, { on with pkts := [(0, pk)] }, (by decide +kernel), (by decide +kernel), (by decide +kernel)⟩

theorem witness_FramesAndPasses_15 : ∃ (k : _) (x : _) (c : _) (l : _) (s : State), (pktOf s k = some x) ∧ (x.check = none) ∧ (x.deferred = c :: l) :=
  ⟨0, { pk with deferred := [3] }, 3, [], { on with pkts := [(0, { pk with deferred := [3] })] }, (by decide +kernel), (by decide +kernel), (by decide +kernel)⟩

/-! #### InjectedFrames -/

theorem witness_InjectedFrames_0 : ∃ (d : Inject) (s : State), (256 ≤ d.ring ∨ (ring s (400 + d.ring)).cons ≤ (ring s (400 + d.ring)).begun) :=
  ⟨dj 508 4096, on, (by decide +kernel)⟩

theorem witness_InjectedFrames_1 : ∃ (d : Inject) (s : State), (d.ring < 256) ∧ ((ring s (400 + d.ring)).begun < (ring s (400 + d.ring)).cons) ∧ ((allPorts s).contains d.port = false) :=
  ⟨dj 512 4096, inj on.pwr, (by decide +kernel), (by decide +kernel), (by decide +kernel)⟩

theorem witness_InjectedFrames_2 : ∃ (d : Inject) (s : State), (d.ring < 256) ∧ ((ring s (400 + d.ring)).begun < (ring s (400 + d.ring)).cons) ∧ ((allPorts s).contains d.port = true) ∧ (domWorks s (domPipe (pipeOfLane d.port)) = false) :=
  ⟨dj 508 4096, inj { on.pwr with domains := [(domPipe 15, { state := 2 })] }, (by decide +kernel), (by decide +kernel), (by decide +kernel), (by decide +kernel)⟩

theorem witness_InjectedFrames_3 : ∃ (d : Inject) (st : _) (u : _) (s : State), (d.ring < 256) ∧ ((ring s (400 + d.ring)).begun < (ring s (400 + d.ring)).cons) ∧ ((allPorts s).contains d.port = true) ∧ (domWorks s (domPipe (pipeOfLane d.port)) = true) ∧ (dmaCheck (400 + d.ring) d.buffer (64 * ceilDiv d.length 64) 64 false s = (st, u)) ∧ (st ≠ 0) :=
  ⟨dj 508 1, 3, (dmaCheck 400 1 (64 * ceilDiv 64 64) 64 false (inj on.pwr)).2, inj on.pwr, (by decide +kernel), (by decide +kernel), (by decide +kernel), (by decide +kernel), (pair_of (by decide +kernel)), (by decide +kernel)⟩

theorem witness_InjectedFrames_4 : ∃ (d : Inject) (s : State), (d.ring < 256) ∧ ((ring s (400 + d.ring)).begun < (ring s (400 + d.ring)).cons) ∧ ((allPorts s).contains d.port = true) ∧ (domWorks s (domPipe (pipeOfLane d.port)) = true) ∧ (dmaCheck (400 + d.ring) d.buffer (64 * ceilDiv d.length 64) 64 false s = (0, s)) :=
  ⟨dj 508 4096, injS, (by decide +kernel), (by decide +kernel), (by decide +kernel), (by decide +kernel), (dma_ok (by decide +kernel))⟩

theorem witness_InjectedFrames_5 : ∃ (d : Inject) (p : _) (bs : _) (u : _) (s : State), (d.ring < 256) ∧ ((ring s (400 + d.ring)).begun < (ring s (400 + d.ring)).cons) ∧ ((allPorts s).contains d.port = true) ∧ (domWorks s (domPipe (pipeOfLane d.port)) = true) ∧ (dmaCheck (400 + d.ring) d.buffer (64 * ceilDiv d.length 64) 64 false s = (0, s)) ∧ (bs = rdBytes s.host d.buffer d.length) ∧ (p = pipeOfLane d.port) ∧ (askCells (dieOfPipe p) ⟨12 + p % 4, 2 ^ 32 * (400 + d.ring) + (ring s (400 + d.ring)).begun % 2 ^ 32, cellsFor bs.length, false⟩ s = (false, u)) :=
  ⟨dj2, 15, rdBytes injNC.host 4096 640, (askCells (dieOfPipe 15) injW2 injNC).2, injNC, (by decide +kernel), (by decide +kernel), (by decide +kernel), (by decide +kernel), (dma_ok (by decide +kernel)), rfl, (by decide +kernel), (pair_of (by decide +kernel))⟩

theorem witness_InjectedFrames_6 : ∃ (d : Inject) (x : _) (bs : _) (p : _) (ks : _) (u : _) (v : _) (s : State), (d.ring < 256) ∧ ((ring s (400 + d.ring)).begun < (ring s (400 + d.ring)).cons) ∧ ((allPorts s).contains d.port = true) ∧ (domWorks s (domPipe (pipeOfLane d.port)) = true) ∧ (dmaCheck (400 + d.ring) d.buffer (64 * ceilDiv d.length 64) 64 false s = (0, s)) ∧ (bs = rdBytes s.host d.buffer d.length) ∧ (p = pipeOfLane d.port) ∧ (askCells (dieOfPipe p) ⟨12 + p % 4, 2 ^ 32 * (400 + d.ring) + (ring s (400 + d.ring)).begun % 2 ^ 32, cellsFor bs.length, false⟩ s = (true, v)) ∧ (x = { portFrame v d.port bs (stampNow v) with epoch := (epochOf v p).cur, tc := d.queue % 16, check := some true, flowOk := true, noticed := true, noticeAt := v.now, settled := true, inj := some (400 + d.ring, (ring s (400 + d.ring)).begun), oneStep := d.oneStep, stampReq := d.stampReq, nocomp := d.nocomp, cookie := d.cookie, snap := { hdrs := (parse v p (epochOf v p).cur (cfg v (.prsLaneCfg d.port) 3 0) bs).hdrs } }) ∧ (allocChain (dieOfPipe p) (12 + p % 4) (ownerTag 1 (p % 4)) v.nextPkt 0 (payloads (bs.length + 4) (withFcs bs)) (newPkt x v).2 = some (ks, u)) :=
  ⟨dj 508 4096, injX, rdBytes injS.host 4096 64, 15, (injC.getD ([], injV)).1, (injC.getD ([], injV)).2, injV, injS, (by decide +kernel), (by decide +kernel), (by decide +kernel), (by decide +kernel), (dma_ok (by decide +kernel)), rfl, (by decide +kernel), (pair_of (by decide +kernel)), rfl, (some_of ([], injV) (by decide +kernel))⟩

/-! #### StepRunsTheFrontCommand -/

theorem witness_StepRunsTheFrontCommand_0 : ∃ (c : _) (rest : _) (s : State), (s.pending = c :: rest) :=
  ⟨.powerOn, [], { on with pending := [.powerOn] }, (by decide +kernel)⟩

/-! #### EmptyQueueTicks -/

theorem witness_EmptyQueueTicks_0 : ∃ (s : State), (s.pending = []) :=
  ⟨on, (by decide +kernel)⟩

/-! #### TimeCounterAdvance -/

theorem witness_TimeCounterAdvance_0 : ∃ (t : Tim), (t.ns < 10 ^ 9) ∧ (t.frac < 2 ^ 44) ∧ (t.sec + 1 < 2 ^ 64) ∧ (fitsI 32 t.rate = true) :=
  ⟨{ sec := 2 ^ 64 - 2, ns := 999999999, frac := 2 ^ 44 - 1, rate := -(2 ^ 31) }, (by decide +kernel), (by decide +kernel), (by decide +kernel), (by decide +kernel)⟩

theorem witness_TimeCounterAdvance_3 : ∃ (h : _) (rate : _) (s : State), (begins s (.timeSetRate h rate) h.ring) ∧ (fitsI 32 rate = true) :=
  ⟨hd 0 0, 2 ^ 31 - 1, on, begins_of (by decide +kernel), (by decide +kernel)⟩

/-! #### EveryStepKeepsMemoriesCanonical -/

theorem witness_EveryStepKeepsMemoriesCanonical_0 : ∃ (s : State) (t : _), (Canonical s) ∧ (step s = .next t) :=
  ⟨on, tick on, ⟨by decide +kernel, by decide +kernel, by decide +kernel, by decide +kernel⟩, rfl⟩

/-! #### DescriptorDecodesToItsCommand -/

theorem witness_DescriptorDecodesToItsCommand_0 : ∃ (i : _) (g : _), (ringOf i = some g) ∧ (i.wf = true) :=
  ⟨.ringSetMove (hd 0 0) 751 255 (2 ^ 64 - 1), 0, (by decide +kernel), (by decide +kernel)⟩

theorem witness_DescriptorDecodesToItsCommand_1 : ∃ (i : _) (op : _), (opcodeOf i = some op) :=
  ⟨.fence (hd 0 0), 0x04, (by decide +kernel)⟩

/-! #### RegisterMapHasOneAddress -/

theorem witness_RegisterMapHasOneAddress_0 : ∃ (a : _) (r : _), (regAt a = some r) :=
  ⟨0x80050, .hifPollCfg, (by decide +kernel)⟩

theorem witness_RegisterMapHasOneAddress_1 : ∃ (a : _) (b : _) (r : _), (regAt a = some r) ∧ (regAt b = some r) :=
  ⟨0x80050, 0x80050, .hifPollCfg, (by decide +kernel), (by decide +kernel)⟩

/-! #### StampLayout -/

theorem witness_StampLayout_2 : ∃ (s : State), (s.tim.ns < 10 ^ 9) :=
  ⟨{ on with tim := { ns := 999999999 } }, (by decide +kernel)⟩

/-! #### RecirculationLimitRegister -/

theorem witness_RecirculationLimitRegister_2 : ∃ (path : Path) (p : _) (s : State), (writable s path (.clsRecircCfg p)) :=
  ⟨.linkA, 15, on, (by unfold writable; decide +kernel)⟩

theorem witness_RecirculationLimitRegister_3 : ∃ (p : _) (x : Pkt) (s : State), (x.passes ≤ cfg s (.clsRecircCfg p) 2 0) :=
  ⟨0, { pk with passes := 3 }, on, (by decide +kernel)⟩

theorem witness_RecirculationLimitRegister_4 : ∃ (p : _) (k : _) (x : Pkt) (y : _) (s : State), (cfg s (.clsRecircCfg p) 2 0 < x.passes) ∧ (pktOf s k = some y) :=
  ⟨0, 0, { pk with passes := 4 }, pk, { on with pkts := [(0, pk)] }, (by decide +kernel), (by decide +kernel)⟩

/-! #### LearnRequestsSuppressed -/

theorem witness_LearnRequestsSuppressed_0 : ∃ (k : _) (q : Pass) (x : Pkt) (t0 : _) (s : State), (pktOf s k = some x) ∧ (q.snap.learn = true) ∧ (q.snap.srcHit = 2) ∧ ((q.snap.fid, q.snap.srcMac, ingressTarget s x.port, t0) ∈ mget [] s.fwd.sent x.pipe) ∧ (s.now < t0 + 8000000) :=
  ⟨0, { ps with snap := { learn := true, srcHit := 2, fid := 1, srcMac := 2 } }, pk, 0, { on with pkts := [(0, pk)], now := 7999999, fwd := { sent := [(0, [(1, 2, ingressTarget on 0, 0)])] } }, (by decide +kernel), (by decide +kernel), (by decide +kernel), (by decide +kernel), (by decide +kernel)⟩

theorem witness_LearnRequestsSuppressed_1 : ∃ (k : _) (q : Pass) (x : Pkt) (t0 : _) (s : State), (pktOf s k = some x) ∧ (q.snap.learn = true) ∧ (q.snap.srcHit = 1) ∧ ((q.snap.fid, q.snap.srcMac, ingressTarget s x.port, t0) ∈ mget [] s.fwd.sent x.pipe) ∧ (s.now < t0 + 8000000) :=
  ⟨0, { ps with snap := { learn := true, srcHit := 1, fid := 1, srcMac := 2 } }, pk, 0, { on with pkts := [(0, pk)], now := 7999999, fwd := { sent := [(0, [(1, 2, ingressTarget on 0, 0)])] } }, (by decide +kernel), (by decide +kernel), (by decide +kernel), (by decide +kernel), (by decide +kernel)⟩

theorem witness_LearnRequestsSuppressed_2 : ∃ (k : _) (q : Pass) (x : Pkt) (s : State), (pktOf s k = some x) ∧ (q.snap.learn = true) ∧ (q.snap.srcHit = 2) ∧ (cfg s (.fwdPortCfg x.port) 31 30 ≠ 2) ∧ ((∀ t0, (q.snap.fid, q.snap.srcMac, ingressTarget s x.port, t0) ∈ mget [] s.fwd.sent x.pipe → t0 + 8000000 ≤ s.now)) :=
  ⟨0, { ps with snap := { learn := true, srcHit := 2, fid := 1, srcMac := 2 } }, pk, { on with pkts := [(0, pk)] }, (by decide +kernel), (by decide +kernel), (by decide +kernel), (by decide +kernel), (by intro t h; cases h)⟩

/-! #### OnlyAccessesAndResetsWriteSetUp -/

theorem witness_OnlyAccessesAndResetsWriteSetUp_0 : ∃ (c : _) (s : State) (t : _), (isAccess c = false) ∧ (isReset c = false) ∧ (exec c s = .next t) :=
  ⟨.packetPass 0, on, serveAll 0 (packetPass 0 on), (by decide +kernel), (by decide +kernel), rfl⟩

end Sys2Proof.Tests
end

section
/-! Claims about every command at once: what one step of the machine is, that every command answers a next state, what none of
them changes, and what all of them keep. The parts a command can write are read off its own lemma (exec<Name>_keeps). -/

namespace Sys2Proof.Proofs

open Sys2Proof.Machine Sys2Proof.Laws

/-- Settles O36: it is how a step is defined on a queue that is not empty. -/
theorem stepRunsTheFrontCommand : Obligations.StepRunsTheFrontCommand := by
  intro c rest s h
  unfold step
  rw [h]

/-! ### Every command answers a next state -/

theorem exec_next (i : Instr) (s : State) : ∃ t, exec i s = .next t := by
  cases i <;> exact ⟨_, rfl⟩

/-- A command changes none of the parts that no command writes. -/
theorem exec_only {i : Instr} {s t : State} (e : exec i s = .next t) : Only written s t :=
  exec_keeps (Only.allows written s) i s t (Only.refl written s) e

/-- Settles O41: the part number, the queue and the clock are parts that no command writes. -/
theorem commandsLeavePartClockAndQueue : Obligations.CommandsLeavePartClockAndQueue := by
  intro c s
  obtain ⟨t, e⟩ := exec_next c s
  have o := exec_only e
  exact ⟨t, e, o.part rfl, o.pending rfl, o.now rfl⟩

/-! ### The canonical form of the memories -/

/-- Any change of a part that is no memory, and single writes and removals in the memories and the counters, keep the canonical
form. -/
theorem canonical_allows (m : Nat) : Allows Canonical m := by
  constructor
  case host => exact fun _ s a b h => { h with host := wf_wr8 s.host a b h.host }
  case tmem => exact fun _ s a b h => { h with tmem := wf_wr8 s.tmem a b h.tmem }
  case tmemDrop => exact fun _ s p h => { h with tmem := mwf_filter 0 p s.tmem h.tmem }
  case mem => exact fun _ s a b h => { h with mem := wf_wr8 s.mem a b h.mem }
  case memDrop => exact fun _ s p h => { h with mem := mwf_filter 0 p s.mem h.mem }
  case cnt => exact fun _ s k v h => { h with cnt := mwf_mset 0 s.cnt k v h.cnt }
  case cntDrop => exact fun _ s p h => { h with cnt := mwf_filter 0 p s.cnt h.cnt }
  all_goals exact fun _ _ _ h => { h with }

theorem exec_canonical {i : Instr} {s t : State} (h : Canonical s) (e : exec i s = .next t) : Canonical t :=
  exec_keeps (canonical_allows written) i s t h e

/-- Settles O40: a TIME cycle writes no memory, and a command writes them only byte by byte, counter by counter and by removals. -/
theorem everyStepKeepsMemoriesCanonical : Obligations.EveryStepKeepsMemoriesCanonical := by
  intro s t h e
  unfold step at e
  split at e
  next =>
    cases e
    exact { h with }
  next c rest _ => exact exec_canonical (s := { s with pending := rest }) { h with } e

/-! ### The set-up registers -/

/-- The parts some command writes, without the set-up registers. -/
abbrev writtenBesideSetUp : Nat := 17179869112

/-- No descriptor, frame, message, instruction of a core, domain operation, handover or scrub writes a set-up register. -/
theorem exec_keeps_setUp {P : State → Prop} (A : Allows P writtenBesideSetUp) (i : Instr) (s t : State)
    (ha : isAccess i = false) (hr : isReset i = false) (hs : P s) (e : exec i s = .next t) : P t := by
  cases i with
  | hbmTrainingEnd failed => exact execHbmTrainingEnd_keeps A rfl _ _ hs _ e
  | startupReady => exact execStartupReady_keeps A rfl _ hs _ e
  | pePerstRelease => exact execPePerstRelease_keeps A rfl _ hs _ e
  | pcieLinkUp link rate => exact execPcieLinkUp_keeps A rfl _ _ _ hs _ e
  | heartbeat => exact execHeartbeat_keeps A rfl _ hs _ e
  | pollRead link page block visible => exact execPollRead_keeps A rfl _ _ _ _ _ hs _ e
  | pollData link page block => exact execPollData_keeps A rfl _ _ _ _ hs _ e
  | poolEntryRead pool => exact execPoolEntryRead_keeps A rfl _ _ hs _ e
  | eventProducerWrite ring => exact execEventProducerWrite_keeps A rfl _ _ hs _ e
  | msixMessage link vector unmasked => exact execMsixMessage_keeps A rfl _ _ _ _ hs _ e
  | nop h => exact execNop_keeps A rfl _ _ hs _ e
  | ringSetQuery h ring => exact execRingSetQuery_keeps A rfl _ _ _ hs _ e
  | ringSetEnable h ring => exact execRingSetEnable_keeps A rfl _ _ _ hs _ e
  | ringSetDisable h ring => exact execRingSetDisable_keeps A rfl _ _ _ hs _ e
  | ringSetMove h ring sizeCode base => exact execRingSetMove_keeps A rfl _ _ _ _ _ hs _ e
  | poolSetQuery h pool => exact execPoolSetQuery_keeps A rfl _ _ _ hs _ e
  | poolSetFlush h pool hostAddr => exact execPoolSetFlush_keeps A rfl _ _ _ _ hs _ e
  | abort h ring index => exact execAbort_keeps A rfl _ _ _ _ hs _ e
  | fence h => exact execFence_keeps A rfl _ _ hs _ e
  | tableWrite h t => exact execTableWrite_keeps A rfl _ _ _ hs _ e
  | tableRead h t => exact execTableRead_keeps A rfl _ _ _ hs _ e
  | tableBulkWrite h t => exact execTableBulkWrite_keeps A rfl _ _ _ hs _ e
  | tableBulkRead h t => exact execTableBulkRead_keeps A rfl _ _ _ hs _ e
  | tableScan h t => exact execTableScan_keeps A rfl _ _ _ hs _ e
  | digestSet h t => exact execDigestSet_keeps A rfl _ _ _ hs _ e
  | epochFlip h t => exact execEpochFlip_keeps A rfl _ _ _ hs _ e
  | flowWrite h t => exact execFlowWrite_keeps A rfl _ _ _ hs _ e
  | flowDelete h t => exact execFlowDelete_keeps A rfl _ _ _ hs _ e
  | flowRead h t => exact execFlowRead_keeps A rfl _ _ _ hs _ e
  | flowRestore h t => exact execFlowRestore_keeps A rfl _ _ _ hs _ e
  | counterRead h t => exact execCounterRead_keeps A rfl _ _ _ hs _ e
  | counterClear h t => exact execCounterClear_keeps A rfl _ _ _ hs _ e
  | shaperSet h t => exact execShaperSet_keeps A rfl _ _ _ hs _ e
  | gateLoad h t => exact execGateLoad_keeps A rfl _ _ _ hs _ e
  | memRead h m => exact execMemRead_keeps A rfl _ _ _ hs _ e
  | memWrite h m => exact execMemWrite_keeps A rfl _ _ _ hs _ e
  | checkScan h m => exact execCheckScan_keeps A rfl _ _ _ hs _ e
  | timeSetRead h => exact execTimeSetRead_keeps A rfl _ _ hs _ e
  | timeSetStep h offset time off => exact execTimeSetStep_keeps A rfl _ _ _ _ _ hs _ e
  | timeSetRate h rate => exact execTimeSetRate_keeps A rfl _ _ _ hs _ e
  | timeSetMarkTraceable h => exact execTimeSetMarkTraceable_keeps A rfl _ _ hs _ e
  | timeSetTout h c => exact execTimeSetTout_keeps A rfl _ _ _ hs _ e
  | timeSetPeerDelay h port delay => exact execTimeSetPeerDelay_keeps A rfl _ _ _ _ hs _ e
  | timeSetSynce h output enable lane divider => exact execTimeSetSynce_keeps A rfl _ _ _ _ _ _ hs _ e
  | fwStage h m => exact execFwStage_keeps A rfl _ _ _ hs _ e
  | fwSwitch h slot mask drainUs => exact execFwSwitch_keeps A rfl _ _ _ _ _ hs _ e
  | domainCtlQuery h => exact execDomainCtlQuery_keeps A rfl _ _ hs _ e
  | domainCtlOff h => exact execDomainCtlOff_keeps A rfl _ _ hs _ e
  | domainCtlOn h => exact execDomainCtlOn_keeps A rfl _ _ hs _ e
  | domainCtlReinit h srcPipe => exact execDomainCtlReinit_keeps A rfl _ _ _ hs _ e
  | domainCtlRestart h srcPipe => exact execDomainCtlRestart_keeps A rfl _ _ _ hs _ e
  | g3Nop h => exact execG3Nop_keeps A rfl _ _ hs _ e
  | g3TableWrite h b => exact execG3TableWrite_keeps A rfl _ _ _ hs _ e
  | g3TableRead h b => exact execG3TableRead_keeps A rfl _ _ _ hs _ e
  | g3CounterRead h b => exact execG3CounterRead_keeps A rfl _ _ _ hs _ e
  | g3FlowDelete h record => exact execG3FlowDelete_keeps A rfl _ _ _ hs _ e
  | longCommandStep ring index => exact execLongCommandStep_keeps A rfl _ _ _ hs _ e
  | heldCommandStart ring index => exact execHeldCommandStart_keeps A rfl _ _ _ hs _ e
  | injectPort d => exact execInjectPort_keeps A rfl _ _ hs _ e
  | injectPipe d => exact execInjectPipe_keeps A rfl _ _ hs _ e
  | puntBufferGrant pool => exact execPuntBufferGrant_keeps A rfl _ _ hs _ e
  | puntPoolTimeout pool => exact execPuntPoolTimeout_keeps A rfl _ _ hs _ e
  | frameReceive port bytes => exact execFrameReceive_keeps A rfl _ _ _ hs _ e
  | packetPass pipe => exact execPacketPass_keeps A rfl _ _ hs _ e
  | recirculation pipe => exact execRecirculation_keeps A rfl _ _ hs _ e
  | frameCheck packet fcsOk => exact execFrameCheck_keeps A rfl _ _ _ hs _ e
  | flowRequest slice => exact execFlowRequest_keeps A rfl _ _ hs _ e
  | flowFetchDone slice => exact execFlowFetchDone_keeps A rfl _ _ hs _ e
  | frameCheckReport slice => exact execFrameCheckReport_keeps A rfl _ _ hs _ e
  | hbmWriteAccepted slice => exact execHbmWriteAccepted_keeps A rfl _ _ hs _ e
  | createTmoExpiry slice record => exact execCreateTmoExpiry_keeps A rfl _ _ _ hs _ e
  | backendRequest slice => exact execBackendRequest_keeps A rfl _ _ hs _ e
  | ownerSwitch slice => exact execOwnerSwitch_keeps A rfl _ _ hs _ e
  | hotLineWritebackDone slice record => exact execHotLineWritebackDone_keeps A rfl _ _ _ hs _ e
  | flowSweepVisit slice => exact execFlowSweepVisit_keeps A rfl _ _ hs _ e
  | exportRoom slice => exact execExportRoom_keeps A rfl _ _ hs _ e
  | exportTmoExpiry slice => exact execExportTmoExpiry_keeps A rfl _ _ hs _ e
  | peerEnd slice => exact execPeerEnd_keeps A rfl _ _ hs _ e
  | portRelease slice => exact execPortRelease_keeps A rfl _ _ hs _ e
  | natBlockFree slice => exact execNatBlockFree_keeps A rfl _ _ hs _ e
  | ctNotice slice => exact execCtNotice_keeps A rfl _ _ hs _ e
  | deltaSend pipe record => exact execDeltaSend_keeps A rfl _ _ _ hs _ e
  | deltaArrival slice => exact execDeltaArrival_keeps A rfl _ _ hs _ e
  | flowPull slice pipe => exact execFlowPull_keeps A rfl _ _ _ hs _ e
  | pullAnswer slice record => exact execPullAnswer_keeps A rfl _ _ _ hs _ e
  | answer slice pipe => exact execAnswer_keeps A rfl _ _ _ hs _ e
  | invalidation slice pipe => exact execInvalidation_keeps A rfl _ _ _ hs _ e
  | invalidationAck slice => exact execInvalidationAck_keeps A rfl _ _ hs _ e
  | horizonStampForm slice => exact execHorizonStampForm_keeps A rfl _ _ hs _ e
  | horizonStamp slice pipe => exact execHorizonStamp_keeps A rfl _ _ _ hs _ e
  | finalStamp slice pipe => exact execFinalStamp_keeps A rfl _ _ _ hs _ e
  | confirmNotice packet => exact execConfirmNotice_keeps A rfl _ _ hs _ e
  | specTimeout pipe => exact execSpecTimeout_keeps A rfl _ _ hs _ e
  | replay pipe => exact execReplay_keeps A rfl _ _ hs _ e
  | unstableEntryExpiry pipe record => exact execUnstableEntryExpiry_keeps A rfl _ _ _ hs _ e
  | stallNsExpiry pipe slice => exact execStallNsExpiry_keeps A rfl _ _ _ hs _ e
  | learnRequest slice => exact execLearnRequest_keeps A rfl _ _ hs _ e
  | hitNotice slice => exact execHitNotice_keeps A rfl _ _ hs _ e
  | l2Broadcast die => exact execL2Broadcast_keeps A rfl _ _ hs _ e
  | l2Delete die => exact execL2Delete_keeps A rfl _ _ hs _ e
  | l2AgeVisit slice => exact execL2AgeVisit_keeps A rfl _ _ hs _ e
  | shadowCompare die block => exact execShadowCompare_keeps A rfl _ _ _ hs _ e
  | matchBankUnitWrite pipe bank reserved => exact execMatchBankUnitWrite_keeps A rfl _ _ _ _ hs _ e
  | matchBankScrub pipe bank agrees => exact execMatchBankScrub_keeps A rfl _ _ _ _ hs _ e
  | coreInstruction core => exact execCoreInstruction_keeps A rfl _ _ hs _ e
  | wkGet core rd => exact execWkGet_keeps A rfl _ _ _ hs _ e
  | wkRel core rs1 => exact execWkRel_keeps A rfl _ _ _ hs _ e
  | wkHand core rs1 rs2 => exact execWkHand_keeps A rfl _ _ _ _ hs _ e
  | wkNew core rd rs1 => exact execWkNew_keeps A rfl _ _ _ _ hs _ e
  | wkCancel core rd rs1 => exact execWkCancel_keeps A rfl _ _ _ _ hs _ e
  | wkFlow core rd => exact execWkFlow_keeps A rfl _ _ _ hs _ e
  | wkEvt core rs1 rs2 => exact execWkEvt_keeps A rfl _ _ _ _ hs _ e
  | commit slice => exact execCommit_keeps A rfl _ _ hs _ e
  | reject slice => exact execReject_keeps A rfl _ _ hs _ e
  | deny slice => exact execDeny_keeps A rfl _ _ hs _ e
  | setAction slice => exact execSetAction_keeps A rfl _ _ hs _ e
  | close slice => exact execClose_keeps A rfl _ _ hs _ e
  | age slice => exact execAge_keeps A rfl _ _ hs _ e
  | export_ slice => exact execExport_keeps A rfl _ _ hs _ e
  | read slice => exact execRead_keeps A rfl _ _ hs _ e
  | rebind slice => exact execRebind_keeps A rfl _ _ hs _ e
  | natBlock slice => exact execNatBlock_keeps A rfl _ _ hs _ e
  | natPort slice => exact execNatPort_keeps A rfl _ _ hs _ e
  | setFw slice => exact execSetFw_keeps A rfl _ _ hs _ e
  | wkFlowReply core => exact execWkFlowReply_keeps A rfl _ _ hs _ e
  | timerOperand slice task => exact execTimerOperand_keeps A rfl _ _ _ hs _ e
  | operandArrival slice task operand => exact execOperandArrival_keeps A rfl _ _ _ _ hs _ e
  | taskDispatch slice => exact execTaskDispatch_keeps A rfl _ _ hs _ e
  | runLimitExpiry core => exact execRunLimitExpiry_keeps A rfl _ _ hs _ e
  | holdLimitExpiry slice lock => exact execHoldLimitExpiry_keeps A rfl _ _ _ hs _ e
  | preemption core => exact execPreemption_keeps A rfl _ _ hs _ e
  | rolloutClusterDrained => exact execRolloutClusterDrained_keeps A rfl _ hs _ e
  | drainUsExpiry => exact execDrainUsExpiry_keeps A rfl _ hs _ e
  | rolloutLoadEnd readable => exact execRolloutLoadEnd_keeps A rfl _ _ hs _ e
  | arbiterMatch differ => exact execArbiterMatch_keeps A rfl _ _ hs _ e
  | arbiterSelfCheckEnd q0 q2 => exact execArbiterSelfCheckEnd_keeps A rfl _ _ _ hs _ e
  | failedCopySelfCheck pass => exact execFailedCopySelfCheck_keeps A rfl _ _ hs _ e
  | linkCellReceive link forward lane intact => exact execLinkCellReceive_keeps A rfl _ _ _ _ _ hs _ e
  | linkAck link forward => exact execLinkAck_keeps A rfl _ _ _ hs _ e
  | linkNak link forward => exact execLinkNak_keeps A rfl _ _ _ hs _ e
  | linkResendTimeout link forward => exact execLinkResendTimeout_keeps A rfl _ _ _ hs _ e
  | laneErrorInterval link lane => exact execLaneErrorInterval_keeps A rfl _ _ _ hs _ e
  | reseqGapTimeout src dst => exact execReseqGapTimeout_keeps A rfl _ _ _ hs _ e
  | auditStart die => exact execAuditStart_keeps A rfl _ _ hs _ e
  | auditEnd die => exact execAuditEnd_keeps A rfl _ _ hs _ e
  | pfcXoffRepeat port pri => exact execPfcXoffRepeat_keeps A rfl _ _ _ hs _ e
  | pfcFrameReceive port frame => exact execPfcFrameReceive_keeps A rfl _ _ _ hs _ e
  | pfcPauseExpiry port pri => exact execPfcPauseExpiry_keeps A rfl _ _ _ hs _ e
  | pfcWatchdogExpiry port pri => exact execPfcWatchdogExpiry_keeps A rfl _ _ _ hs _ e
  | pfcWatchdogRestoreTimer port pri => exact execPfcWatchdogRestoreTimer_keeps A rfl _ _ _ hs _ e
  | mcastHoldExpiry packet port => exact execMcastHoldExpiry_keeps A rfl _ _ _ hs _ e
  | schedulerSelect port => exact execSchedulerSelect_keeps A rfl _ _ hs _ e
  | frameTransmitStart port corrupt => exact execFrameTransmitStart_keeps A rfl _ _ _ hs _ e
  | frameTransmitEnd port => exact execFrameTransmitEnd_keeps A rfl _ _ hs _ e
  | shaperUpdate => exact execShaperUpdate_keeps A rfl _ hs _ e
  | gateChange port => exact execGateChange_keeps A rfl _ _ hs _ e
  | gateListStart port => exact execGateListStart_keeps A rfl _ _ hs _ e
  | queueSample die => exact execQueueSample_keeps A rfl _ _ hs _ e
  | linkTrainingDone port => exact execLinkTrainingDone_keeps A rfl _ _ hs _ e
  | linkLoss port => exact execLinkLoss_keeps A rfl _ _ hs _ e
  | portCompReady port rxComp txComp => exact execPortCompReady_keeps A rfl _ _ _ _ hs _ e
  | trefLoss => exact execTrefLoss_keeps A rfl _ hs _ e
  | trefValid => exact execTrefValid_keeps A rfl _ hs _ e
  | pllLock => exact execPllLock_keeps A rfl _ hs _ e
  | holdoverLimit => exact execHoldoverLimit_keeps A rfl _ hs _ e
  | toutEdge output => exact execToutEdge_keeps A rfl _ _ hs _ e
  | tinEdge input falling => exact execTinEdge_keeps A rfl _ _ _ hs _ e
  | synceLaneLoss output => exact execSynceLaneLoss_keeps A rfl _ _ hs _ e
  | synceUnsquelch output => exact execSynceUnsquelch_keeps A rfl _ _ hs _ e
  | hbmAccess stack ecc => exact execHbmAccess_keeps A rfl _ _ _ hs _ e
  | hbmRefresh stack bank => exact execHbmRefresh_keeps A rfl _ _ _ hs _ e
  | hbmTempRead stack temp => exact execHbmTempRead_keeps A rfl _ _ _ hs _ e
  | patrolScrub stack rank ecc => exact execPatrolScrub_keeps A rfl _ _ _ _ hs _ e
  | rankProbe stack rank ecc => exact execRankProbe_keeps A rfl _ _ _ _ hs _ e
  | migrationChunk badBlocks targetFailed => exact execMigrationChunk_keeps A rfl _ _ _ hs _ e
  | rankPrepareEnd stack rank ok => exact execRankPrepareEnd_keeps A rfl _ _ _ _ hs _ e
  | sramScrub die kind address ecc => exact execSramScrub_keeps A rfl _ _ _ _ _ hs _ e
  | clockLoss die dom => exact execClockLoss_keeps A rfl _ _ _ hs _ e
  | cusWatchdogExpiry => exact execCusWatchdogExpiry_keeps A rfl _ hs _ e
  | stringRelease cause => exact execStringRelease_keeps A rfl _ _ hs _ e
  | selfTestEnd cusB pass => exact execSelfTestEnd_keeps A rfl _ _ _ hs _ e
  | stringTake cusB => exact execStringTake_keeps A rfl _ _ hs _ e
  | adoption => exact execAdoption_keeps A rfl _ hs _ e
  | checkpoint => exact execCheckpoint_keeps A rfl _ hs _ e
  | custodianActuatorWrite cusB actuator value => exact execCustodianActuatorWrite_keeps A rfl _ _ _ _ hs _ e
  | stringCopyDisagree => exact execStringCopyDisagree_keeps A rfl _ hs _ e
  | preloadEnd crcOk readable => exact execPreloadEnd_keeps A rfl _ _ _ hs _ e
  | logPersist programOk => exact execLogPersist_keeps A rfl _ _ hs _ e
  | statSample source value => exact execStatSample_keeps A rfl _ _ _ hs _ e
  | statSnapshot => exact execStatSnapshot_keeps A rfl _ hs _ e
  | logWindowReady => exact execLogWindowReady_keeps A rfl _ hs _ e
  | logClearEraseEnd => exact execLogClearEraseEnd_keeps A rfl _ hs _ e
  | tokenResult fusesOk => exact execTokenResult_keeps A rfl _ _ hs _ e
  | zeroisationEnd => exact execZeroisationEnd_keeps A rfl _ hs _ e
  | jtagInstruction op => exact execJtagInstruction_keeps A rfl _ _ hs _ e
  | domainStopDone domain => exact execDomainStopDone_keeps A rfl _ _ hs _ e
  | domainInitDone domain pass => exact execDomainInitDone_keeps A rfl _ _ _ hs _ e
  | domainFault domain cause => exact execDomainFault_keeps A rfl _ _ _ hs _ e
  | autoRestart domain => exact execAutoRestart_keeps A rfl _ _ hs _ e
  | supplyOutOfRatings rail => exact execSupplyOutOfRatings_keeps A rfl _ _ hs _ e
  | dieTempReading die temp => exact execDieTempReading_keeps A rfl _ _ _ hs _ e
  | smbusSetOffset offset => exact execSmbusSetOffset_keeps A rfl _ _ hs _ e
  | railWithinTolerance rail => exact execRailWithinTolerance_keeps A rfl _ _ hs _ e
  | _ => simp [isAccess, isReset] at ha hr

/-- Settles O47: every command but the accesses and the resets keeps whatever does not depend on the other parts. -/
theorem onlyAccessesAndResetsWriteSetUp : Obligations.OnlyAccessesAndResetsWriteSetUp := by
  intro c s t ha hr e
  exact (exec_keeps_setUp (Only.allows writtenBesideSetUp s) c s t ha hr (Only.refl writtenBesideSetUp s) e).regs rfl

end Sys2Proof.Proofs
end

section
/-! From the parts an operation can write (Only, Laws/Frame.lean) to its frame, an equation between states. -/

namespace Sys2Proof.Proofs

open Sys2Proof.Machine Sys2Proof.Laws

variable {m : Nat} {s t : State}

/-- s, with the parts whose bits are set in m taken from t: State's fields, counted from 0 in their order. -/
def mix (m : Nat) (s t : State) : State where
  part := if m.testBit 0 then t.part else s.part
  pending := if m.testBit 1 then t.pending else s.pending
  now := if m.testBit 2 then t.now else s.now
  free := if m.testBit 3 then t.free else s.free
  actor := if m.testBit 4 then t.actor else s.actor
  raised := if m.testBit 5 then t.raised else s.raised
  regs := if m.testBit 6 then t.regs else s.regs
  readData := if m.testBit 7 then t.readData else s.readData
  host := if m.testBit 8 then t.host else s.host
  tmem := if m.testBit 9 then t.tmem else s.tmem
  mem := if m.testBit 10 then t.mem else s.mem
  cnt := if m.testBit 11 then t.cnt else s.cnt
  hif := if m.testBit 12 then t.hif else s.hif
  pkts := if m.testBit 13 then t.pkts else s.pkts
  nextPkt := if m.testBit 14 then t.nextPkt else s.nextPkt
  cls := if m.testBit 15 then t.cls else s.cls
  fwd := if m.testBit 16 then t.fwd else s.fwd
  flow := if m.testBit 17 then t.flow else s.flow
  pipes := if m.testBit 18 then t.pipes else s.pipes
  aligned := if m.testBit 19 then t.aligned else s.aligned
  ctimeBase := if m.testBit 20 then t.ctimeBase else s.ctimeBase
  tsk := if m.testBit 21 then t.tsk else s.tsk
  buf := if m.testBit 22 then t.buf else s.buf
  fab := if m.testBit 23 then t.fab else s.fab
  egs := if m.testBit 24 then t.egs else s.egs
  tim := if m.testBit 25 then t.tim else s.tim
  hbm := if m.testBit 26 then t.hbm else s.hbm
  chk := if m.testBit 27 then t.chk else s.chk
  cus := if m.testBit 28 then t.cus else s.cus
  flash := if m.testBit 29 then t.flash else s.flash
  log := if m.testBit 30 then t.log else s.log
  lcs := if m.testBit 31 then t.lcs else s.lcs
  pwr := if m.testBit 32 then t.pwr else s.pwr
  smb := if m.testBit 33 then t.smb else s.smb

theorem eq_pick {α : Type} {b : Bool} {x y : α} (h : b = false → x = y) : x = if b then x else y := by
  cases b with
  | true => rfl
  | false => exact h rfl

theorem eq_mix_of_only (H : Only m s t) : t = mix m s t :=
  state_ext
    (eq_pick H.part) (eq_pick H.pending) (eq_pick H.now) (eq_pick H.free) (eq_pick H.actor) (eq_pick H.raised)
    (eq_pick H.regs) (eq_pick H.readData) (eq_pick H.host) (eq_pick H.tmem) (eq_pick H.mem) (eq_pick H.cnt)
    (eq_pick H.hif) (eq_pick H.pkts) (eq_pick H.nextPkt) (eq_pick H.cls) (eq_pick H.fwd) (eq_pick H.flow)
    (eq_pick H.pipes) (eq_pick H.aligned) (eq_pick H.ctimeBase) (eq_pick H.tsk) (eq_pick H.buf) (eq_pick H.fab)
    (eq_pick H.egs) (eq_pick H.tim) (eq_pick H.hbm) (eq_pick H.chk) (eq_pick H.cus) (eq_pick H.flash) (eq_pick H.log)
    (eq_pick H.lcs) (eq_pick H.pwr) (eq_pick H.smb)

/-- The frame of a state that differs in the parts of m only, in the words of a statement: f takes just those parts of its second
argument, which computes. -/
theorem frame_of_only {f : State → State → State} (H : Only m s t) (hf : mix m s t = f s t) : t = f s t :=
  (eq_mix_of_only H).trans hf

/-- A command whose step keeps every property that allows changes of the parts of m leaves all other parts. -/
theorem leaves_of_keeps {i : Instr} {f : State → State → State} (m : Nat) (hf : ∀ s t, mix m s t = f s t)
    (k : ∀ s t, exec i s = .next t → Only m s t) : leaves i f := by
  intro s
  obtain ⟨t, e⟩ := exec_next i s
  exact ⟨t, e, frame_of_only (k s t e) (hf s t)⟩

end Sys2Proof.Proofs
end

section
/-! REGISTER_WRITE: where an access reaches its register, what a write of a storing register leaves, and which writes are turned
away (R12, R82, R84, R89, R538, R541). -/

namespace Sys2Proof.Proofs

open Sys2Proof.Machine Sys2Proof.Laws

/-! ### From the address to the register -/

theorem execRegisterWrite_next (path : Path) (a : Nat) (v : Word) (s : State) :
    exec (.registerWrite path a v) s = .next (addrWrite path a v s) := rfl

theorem addrWrite_reserved (path : Path) {a : Nat} (v : Word) (s : State) (ha : a < bar2Base) (hr : regAt a = none) :
    addrWrite path a v s = s := by
  unfold addrWrite
  rw [if_neg (Nat.not_le.mpr ha), hr]

theorem addrWrite_reg (path : Path) {a : Nat} {r : Reg} (v : Word) (s : State) (ha : a < bar2Base) (hr : regAt a = some r) :
    addrWrite path a v s = regWrite path r v s := by
  unfold addrWrite
  rw [if_neg (Nat.not_le.mpr ha), hr]

theorem addrWrite_bar2 {a : Nat} (v : Word) {s : State} (ha : bar2Base ≤ a) (ho : pathOpen s .linkA = true) :
    addrWrite .linkA a v s = bar2Write .a (a - bar2Base) v s := by
  unfold addrWrite
  rw [if_pos ha, if_pos ho]

/-! ### The gate -/

theorem regWrite_writable {path : Path} {r : Reg} {s : State} (v : Word) (w : writable s path r) :
    regWrite path r v s = busWrite path r v s :=
  regWriteGate_writable w (busWrite path r v)

/-- A write of an absent unit's register is ignored and not counted (R3, R538). -/
theorem regWrite_absent (path : Path) {r : Reg} (v : Word) {s : State} (h : regPresent s.part r = false) :
    regWrite path r v s = s := by
  unfold regWrite regWriteGate regExists
  simp [h]

/-- A write through link B of a register that is not link B's is counted (R89). -/
theorem regWrite_notLinkB {r : Reg} (v : Word) {s : State} (ho : pathOpen s .linkB = true) (he : regExists s r = true)
    (hb : linkBMayWrite s r = false) : regWrite .linkB r v s = countIgnored .linkB s := by
  unfold regWrite regWriteGate
  simp [ho, he, hb]

/-! ### Ignored writes -/

@[simp] theorem countIgnored_hif (path : Path) (s : State) :
    (countIgnored path s).hif = { s.hif with ignored := satInc 255 s.hif.ignored } := by
  cases path <;> rfl

@[simp] theorem countIgnored_regs (path : Path) (s : State) : (countIgnored path s).regs = s.regs := by
  cases path <;> rfl

theorem countIgnored_frame (path : Path) (s : State) :
    countIgnored path s = { s with hif := (countIgnored path s).hif, cnt := (countIgnored path s).cnt } :=
  frame_of_only (f := fun s t => { s with hif := t.hif, cnt := t.cnt })
    (countIgnored_keeps (Only.allows 6144 s) rfl path s (Only.refl 6144 s)) rfl

/-! ### Storing -/

theorem busWrite_plain (path : Path) {r : Reg} (v : Word) (s : State) (h : plainReg r = true) :
    busWrite path r v s = plainWrite path r v s := by
  cases r with
  | hifCtrl | hifStatus | pwrCtrl | pwrInfraSel | timCtrl | cusCtrl | logCtrl | logCursor | logStatSel | chkFeedCfg
  | chkFeedB | chkFeedH | chkFeedW | hbmMigCtrl | hbmRankCtrl | lcsTokenCtrl | tskRollout | tskClusterMaskLo
  | tskClusterMaskHi | tskClusterMode | chkScrubCfg | hbmScrubCfg | fwdCmpCfg | fwdLpm4Len | fwdLpm6Len => cases h
  | _ => rfl

/-- The bits of a register that a write stores: its RW fields always, its LCK fields until their commit (R12). -/
theorem stored_storeWrite (r : Reg) (v : Word) (s : State) :
    stored (storeWrite r v s) r = maskedWrite (stored s r) (if lockedReg s r then accMask r .rw else storedMask r) v :=
  mget_mset_same (resetOf r) s.regs _ _

theorem stored_storeWrite_ne {q r : Reg} (v : Word) (s : State) (h : regAddr q ≠ regAddr r) :
    stored (storeWrite r v s) q = stored s q :=
  mget_mset_neD (resetOf q) (resetOf r) s.regs (Ne.symm h) _

theorem stored_congr {s t : State} (h : t.regs = s.regs) (r : Reg) : stored t r = stored s r := by
  unfold stored
  rw [h]

/-- R541's counting leaves the registers as the store has them. -/
theorem plainWrite_regs (path : Path) (r : Reg) (v : Word) (s : State) :
    (plainWrite path r v s).regs = (storeWrite r v s).regs := by
  unfold plainWrite
  dsimp only
  split
  · exact countIgnored_regs _ _
  · rfl

theorem lockDiffers_iff (s : State) (r : Reg) (v : Word) :
    lockDiffers s r v = true ↔ lockedReg s r = true ∧ (v &&& accMask r .lck) ≠ (stored s r &&& accMask r .lck) := by
  unfold lockDiffers
  simp

theorem plainWrite_hif (path : Path) (r : Reg) (v : Word) (s : State) :
    (plainWrite path r v s).hif = (if lockedReg s r = true ∧ (v &&& accMask r .lck) ≠ (stored s r &&& accMask r .lck)
      then { s.hif with ignored := satInc 255 s.hif.ignored } else s.hif) := by
  rw [← if_congr (lockDiffers_iff s r v) rfl rfl]
  unfold plainWrite
  split
  · exact countIgnored_hif _ _
  · rfl

theorem plainWrite_frame (path : Path) (r : Reg) (v : Word) (s : State) :
    plainWrite path r v s = { s with regs := (plainWrite path r v s).regs, hif := (plainWrite path r v s).hif,
                                     cnt := (plainWrite path r v s).cnt } :=
  frame_of_only (f := fun s t => { s with regs := t.regs, hif := t.hif, cnt := t.cnt })
    (plainWrite_keeps (Only.allows 6208 s) rfl path r v s (Only.refl 6208 s)) rfl

/-! ### The MSI-X table -/

theorem vec_modVec_ne {l k : Link} {v u : Nat} (hv : v < 256) (hu : u < 256) (h : (k, u) ≠ (l, v)) (f) (s : State) :
    vec (modVec l v f s) k u = vec s k u := by
  refine mget_mset_ne _ _ (fun e => h ?_) _
  cases l <;> cases k <;> simp only [linkNo] at e <;> simp <;> omega

/-- The fourth word of an entry holds the mask (log 100). -/
theorem bar2Write_mask (l : Link) {off : Nat} (v : Word) (s : State) (hlt : off < 4096) (hoff : off % 16 = 12) :
    bar2Write l off v s = modVec l (off / 16) (fun x => { x with masked := v.getLsbD 0 }) s := by
  have hword : off / 4 % 4 = 3 := by omega
  unfold bar2Write
  rw [if_neg (by omega), hword]
  rfl

/-! ### The claim -/

/-- Settles O3: by the gate a write reaches the bus, is counted or is dropped; a register without behaviour stores. -/
theorem registerWriteStores : Obligations.RegisterWriteStores := by
  refine ⟨fun path a r v s ha hr hp w => ?_, fun path a v s ha hr => ?_, fun a r v s ha hr hn => ?_,
    fun a r v s ha hr ho he hb => ?_, fun a v s hlo hhi hoff ho => ?_⟩
  · refine ⟨plainWrite path r v s, ?_, ?_, fun q hq => ?_, plainWrite_hif path r v s, plainWrite_frame path r v s⟩
    · rw [execRegisterWrite_next, addrWrite_reg path v s ha hr, regWrite_writable v w, busWrite_plain path v s hp]
    · rw [stored_congr (plainWrite_regs path r v s), stored_storeWrite, maskedWrite]
    · rw [stored_congr (plainWrite_regs path r v s), stored_storeWrite_ne v s hq]
  · rw [execRegisterWrite_next, addrWrite_reserved path v s ha hr]
  · rw [execRegisterWrite_next, addrWrite_reg .linkA v s ha hr, regWrite_absent .linkA v hn]
  · refine ⟨countIgnored .linkB s, ?_, countIgnored_hif .linkB s, countIgnored_frame .linkB s⟩
    rw [execRegisterWrite_next, addrWrite_reg .linkB v s ha hr, regWrite_notLinkB v ho he hb]
  · refine ⟨modVec .a ((a - bar2Base) / 16) (fun x => { x with masked := v.getLsbD 0 }) s, ?_, ?_, fun l k hk hne => ?_, rfl⟩
    · have hmod : (a - bar2Base) % 16 = 12 := by unfold bar2Base at *; omega
      rw [execRegisterWrite_next, addrWrite_bar2 v hlo ho, bar2Write_mask .a v s (by omega) hmod]
    · rw [vec_modVec]
    · exact vec_modVec_ne (by omega) hk hne _ s

end Sys2Proof.Proofs
end

section
/-! Frames of the rows that are one access of a register or a chip reset: the gate counts a write it turns away, and a write it lets
through does what the register's behaviour does (R12, R94, R497, R498, R513, R541). -/

namespace Sys2Proof.Proofs

open Sys2Proof.Machine Sys2Proof.Laws

/-- A row that is one write of register r leaves the parts that neither r's behaviour nor the gate's count of ignored writes (the
counters and the host interface) writes. -/
theorem leaves_of_regWrite {i : Instr} {f : State → State → State} {path : Path} {r : Reg} (m : Nat) (v : State → Word)
    (e : ∀ s, exec i s = .next (regWrite path r (v s) s)) (hm : m &&& 6144 = 6144)
    (k : ∀ s t, Only m s t → Only m s (busWrite path r (v s) t)) (hf : ∀ s t, mix m s t = f s t) : leaves i f := by
  refine leaves_of_keeps m hf fun s t h => ?_
  cases (e s).symm.trans h
  exact regWriteGate_keeps (Only.allows m s) hm path r (busWrite path r (v s)) s (k s) (Only.refl m s)

/-! ### One bit of a control register written alone -/

theorem busWrite_commitAll (path : Path) (s : State) : busWrite path .pwrCtrl 2 s = commitAll path s := by
  simp [busWrite, pwrCtrlWrite, onBit]

theorem busWrite_chipReset (path : Path) (s : State) : busWrite path .pwrCtrl 1 s = chipReset 2 s := by
  simp [busWrite, pwrCtrlWrite, onBit]

theorem busWrite_snap (path : Path) (s : State) : busWrite path .timCtrl 2 s = latchSnap s := by
  simp [busWrite, timCtrlWrite, onBit]

/-! ### The parts the behaviours write -/

/-- The parts a commit, a reset or a restart of a link writes. -/
abbrev linkParts : Nat := 14652946736

/-- The parts a commit_all writes. -/
abbrev commitAllParts : Nat := 14646516000

/-- The parts a write of PWR_INFRA_SEL writes. -/
abbrev infraSelParts : Nat := 536877120

/-- The parts a time-unit reset writes. -/
abbrev timeUnitParts : Nat := 10385103136

/-- The parts a snap writes, and the counts of a write turned away. -/
abbrev snapParts : Nat := 33560576

/-- The parts a write of HBM_MIG_CTRL writes. -/
abbrev migParts : Nat := 10401880416

/-- The parts a write of HBM_RANK_CTRL writes, and the counts of a write turned away. -/
abbrev rankParts : Nat := 603985920

/-- The parts a write of CHK_FEED_CFG writes. -/
abbrev feedCfgParts : Nat := 134223944

/-- The parts a write of a feed register writes, and the counts of a write turned away. -/
abbrev feedParts : Nat := 134223872

/-- The parts a write of CUS_CTRL writes. -/
abbrev cusParts : Nat := 10670316832

/-- The parts a write of LOG_CURSOR_LO or LOG_STAT_SEL writes, and the counts of a write turned away. -/
abbrev logWindowParts : Nat := 1073748032

/-- The parts a write of LOG_CTRL writes. -/
abbrev logCtrlParts : Nat := 12482255200

/-- The parts a chip reset writes. -/
abbrev resetParts : Nat := 16642997968

theorem hostInterfaceReset_only (l : Link) (cause : HirCause) (s : State) :
    Only linkParts s (hostInterfaceReset l cause s) := by
  have A := Only.allows linkParts s
  have hs := Only.refl linkParts s
  have reset := fun l t => resetLink_keeps A rfl l t
  have down := fun l t => linkDown_keeps A rfl l t
  unfold hostInterfaceReset
  split
  case h_1 | h_2 => exact reset l _ hs
  case h_3 =>
    split
    · exact down l _ (reset l _ hs)
    · exact hs
  case h_4 => exact modHif_keeps A rfl _ _ (down .a _ (down .b _ (reset .a _ (reset .b _ hs))))
  case h_5 _ path => exact regWriteGate_keeps A rfl path .hifCtrl _ _ (hifCtrlWrite_keeps A rfl path _) hs

/-! ### The rows -/

section Rows

variable {f : State → State → State} (path : Path)

theorem leaves_hifCtrl {i : Instr} (v : Word) (e : ∀ s, exec i s = .next (regWrite path .hifCtrl v s))
    (hf : ∀ s t, mix linkParts s t = f s t) : leaves i f :=
  leaves_of_regWrite linkParts (fun _ => v) e rfl (fun s => hifCtrlWrite_keeps (Only.allows _ s) rfl path v) hf

theorem leaves_hostInterfaceReset (l : Link) (cause : HirCause) (hf : ∀ s t, mix linkParts s t = f s t) :
    leaves (.hostInterfaceReset l cause) f := by
  refine leaves_of_keeps linkParts hf fun s t e => ?_
  cases e
  exact hostInterfaceReset_only l cause s

theorem leaves_migCtrl {i : Instr} (stack : Nat) (v : Word) (e : ∀ s, exec i s = .next (regWrite path (.hbmMigCtrl stack) v s))
    (hf : ∀ s t, mix migParts s t = f s t) : leaves i f :=
  leaves_of_regWrite migParts (fun _ => v) e rfl (fun s => migCtrlWrite_keeps (Only.allows _ s) rfl stack v) hf

/-- The three feed registers differ in how many bytes of the value they take, n. -/
theorem leaves_feed {i : Instr} {r : Reg} (engine n : Nat) (v : Word) (e : ∀ s, exec i s = .next (regWrite path r v s))
    (hb : ∀ s, busWrite path r v s = feedWrite engine n v s) (hf : ∀ s t, mix feedParts s t = f s t) : leaves i f :=
  leaves_of_regWrite feedParts (fun _ => v) e rfl
    (fun s t h => hb t ▸ feedWrite_keeps (Only.allows _ s) rfl engine n v t h) hf

theorem leaves_cusCtrl {i : Instr} (v : Word) (e : ∀ s, exec i s = .next (regWrite path .cusCtrl v s))
    (hf : ∀ s t, mix cusParts s t = f s t) : leaves i f :=
  leaves_of_regWrite cusParts (fun _ => v) e rfl (fun s => cusCtrlWrite_keeps (Only.allows _ s) rfl v) hf

theorem leaves_logCtrl {i : Instr} (v : State → Word) (e : ∀ s, exec i s = .next (regWrite path .logCtrl (v s) s))
    (hf : ∀ s t, mix logCtrlParts s t = f s t) : leaves i f :=
  leaves_of_regWrite logCtrlParts v e rfl (fun s => logCtrlWrite_keeps (Only.allows _ s) rfl (v s)) hf

end Rows

/-- Settles O54: what each row's register does, with the counts of a write that is turned away. -/
theorem frameAccesses : Obligations.FrameAccesses := by
  refine ⟨⟨?commitA, ?commitB, ?ringRestart, ?hostInterfaceReset⟩, ?commitAll, ?logCopySelect, ?timeUnitReset, ?snap,
    ⟨?migStart, ?migAbort⟩, ?rankReenable, ?feedStart, ⟨?chkFeedB, ?chkFeedH, ?chkFeedW⟩,
    ⟨?preload, ?handover, ?selfTestRetry⟩, ⟨?logCursorLoad, ?logStatSel⟩, ⟨?logFreeze, ?logCtrlClear⟩,
    ?powerOn, ?chipResetPin, ?thermtrip, ?chipResetRegister⟩
  case commitA | commitB => exact fun path => leaves_hifCtrl path _ (fun _ => rfl) fun _ _ => rfl
  case ringRestart => exact fun path _ => leaves_hifCtrl path _ (fun _ => rfl) fun _ _ => rfl
  case hostInterfaceReset => exact fun link cause => leaves_hostInterfaceReset link cause fun _ _ => rfl
  case commitAll =>
    exact fun path => leaves_of_regWrite commitAllParts _ (fun _ => rfl) rfl
      (fun s t h => busWrite_commitAll path t ▸ commitAll_keeps (Only.allows _ s) rfl path t h) fun _ _ => rfl
  case logCopySelect =>
    exact fun path _ => leaves_of_regWrite infraSelParts _ (fun _ => rfl) rfl
      (fun s => infraSelWrite_keeps (Only.allows _ s) rfl path _) fun _ _ => rfl
  case timeUnitReset =>
    exact fun _ => leaves_of_regWrite timeUnitParts _ (fun _ => rfl) rfl
      (fun s => timCtrlWrite_keeps (Only.allows _ s) rfl _) fun _ _ => rfl
  case snap =>
    exact fun path => leaves_of_regWrite snapParts _ (fun _ => rfl) rfl
      (fun s t h => busWrite_snap path t ▸ latchSnap_keeps (Only.allows _ s) rfl t h) fun _ _ => rfl
  case migStart | migAbort => exact fun path stack _ => leaves_migCtrl path stack _ (fun _ => rfl) fun _ _ => rfl
  case rankReenable =>
    exact fun _ stack v => leaves_of_regWrite rankParts _ (fun _ => rfl) rfl
      (fun s => rankCtrlWrite_keeps (Only.allows _ s) rfl stack v) fun _ _ => rfl
  case feedStart =>
    exact fun path engine _ => leaves_of_regWrite feedCfgParts _ (fun _ => rfl) rfl
      (fun s => feedCfgWrite_keeps (Only.allows _ s) rfl path engine _) fun _ _ => rfl
  case chkFeedB => exact fun path engine v => leaves_feed path engine 1 v (fun _ => rfl) (fun _ => rfl) fun _ _ => rfl
  case chkFeedH => exact fun path engine v => leaves_feed path engine 2 v (fun _ => rfl) (fun _ => rfl) fun _ _ => rfl
  case chkFeedW => exact fun path engine v => leaves_feed path engine 4 v (fun _ => rfl) (fun _ => rfl) fun _ _ => rfl
  case preload | handover => exact fun path => leaves_cusCtrl path _ (fun _ => rfl) fun _ _ => rfl
  case selfTestRetry => exact fun path _ => leaves_cusCtrl path _ (fun _ => rfl) fun _ _ => rfl
  case logCursorLoad =>
    exact fun _ v => leaves_of_regWrite logWindowParts _ (fun _ => rfl) rfl
      (fun s => cursorWrite_keeps (Only.allows _ s) rfl v) fun _ _ => rfl
  case logStatSel =>
    exact fun _ v => leaves_of_regWrite logWindowParts _ (fun _ => rfl) rfl
      (fun s => statSelWrite_keeps (Only.allows _ s) rfl v) fun _ _ => rfl
  case logFreeze | logCtrlClear => exact fun path => leaves_logCtrl path _ (fun _ => rfl) fun _ _ => rfl
  case powerOn =>
    exact leaves_of_keeps resetParts (fun _ _ => rfl)
      fun s t e => execPowerOn_keeps (Only.allows _ s) rfl s (Only.refl _ s) t e
  case chipResetPin =>
    exact leaves_of_keeps resetParts (fun _ _ => rfl)
      fun s t e => execChipResetPin_keeps (Only.allows _ s) rfl s (Only.refl _ s) t e
  case thermtrip =>
    exact fun die => leaves_of_keeps resetParts (fun _ _ => rfl)
      fun s t e => execThermtrip_keeps (Only.allows _ s) rfl die s (Only.refl _ s) t e
  case chipResetRegister =>
    exact fun path => leaves_of_regWrite resetParts _ (fun _ => rfl) rfl
      (fun s t h => busWrite_chipReset path t ▸ chipReset_keeps (Only.allows _ s) rfl 2 t h) fun _ _ => rfl

end Sys2Proof.Proofs
end

section
/-! The descriptor of every ring command decodes to that command: each part of a descriptor (header, body, action) is read back
from the packed image, and the opcode and the action byte choose the decoder (R45, R54–R58, R63, R74, R95, R364, R503). -/

namespace Sys2Proof.Proofs

open Sys2Proof.Laws

section Native

variable {h : Hdr} {op : Nat}

/-! ### Native descriptors: the header, then a body or an action -/

theorem bit_body_pack (r : List (Nat × Nat)) (n : Nat) (a : 64 ≤ n) :
    bit (pack (encHdr op h ++ r)) n = bit (pack r) (n - 64) := by
  unfold encHdr
  simp (disch := omega) only [List.cons_append, List.nil_append, bit_pack_rest, Nat.sub_sub, Nat.reduceAdd]

theorem decodeDesc_native (w : h.wf = true) {D : Hdr → Nat → Option Instr} (r : List (Nat × Nat))
    (hD : ∀ g x, fld x 7 0 = op → decodeCmd g x = D (decHdr g x) x) (hop : op % 256 = op := by rfl) :
    decodeDesc h.ring (pack (encHdr op h ++ r)) = D h (pack (encHdr op h ++ r)) := by
  unfold decodeDesc
  rw [if_pos (wf_ring w), hD _ _ ((opcode_pack op h r).trans hop), decHdr_pack op h r w]

/-- A command that is its header only. -/
theorem decodeDesc_header (w : h.wf = true) {C : Hdr → Instr}
    (hC : ∀ g x, fld x 7 0 = op → decodeCmd g x = some (C (decHdr g x))) (hop : op % 256 = op := by rfl) :
    decodeDesc h.ring (pack (encHdr op h)) = some (C h) := by
  have e := decodeDesc_native w (D := fun h _ => some (C h)) [] hC hop
  rwa [List.append_nil] at e

/-- A Form T body is read back (R56). -/
theorem decT_pack {t : FormT} (w : t.wf = true) : decT (pack (encHdr op h ++ encT t)) = t := by
  simp only [FormT.wf, fitsW, Bool.and_eq_true, decide_eq_true_eq] at w
  unfold decT encT
  simp (disch := omega) only [body_pack, fld_pack_rest, fld_pack_first, Nat.reduceSub, Nat.reduceAdd, Nat.mod_eq_of_lt]

theorem decodeDesc_formT {t : FormT} (w : (h.wf && t.wf) = true) {C : Hdr → FormT → Instr}
    (hC : ∀ g x, fld x 7 0 = op → decodeCmd g x = some (C (decHdr g x) (decT x))) (hop : op % 256 = op := by rfl) :
    decodeDesc h.ring (pack (encHdr op h ++ encT t)) = some (C h t) := by
  obtain ⟨wh, wt⟩ := Bool.and_eq_true_iff.mp w
  rw [decodeDesc_native wh (D := fun h x => some (C h (decT x))) _ hC hop, decT_pack wt]

/-- A Form M body is read back (R57). -/
theorem decM_pack {m : FormM} (w : m.wf = true) : decM (pack (encHdr op h ++ encM m)) = m := by
  simp only [FormM.wf, fitsW, Bool.and_eq_true, decide_eq_true_eq] at w
  unfold decM encM
  simp (disch := omega) only [body_pack, fld_pack_rest, fld_pack_first, Nat.reduceSub, Nat.reduceAdd, Nat.mod_eq_of_lt]

theorem decodeDesc_formM {m : FormM} (w : (h.wf && m.wf) = true) {C : Hdr → FormM → Instr}
    (hC : ∀ g x, fld x 7 0 = op → decodeCmd g x = some (C (decHdr g x) (decM x))) (hop : op % 256 = op := by rfl) :
    decodeDesc h.ring (pack (encHdr op h ++ encM m)) = some (C h m) := by
  obtain ⟨wh, wm⟩ := Bool.and_eq_true_iff.mp w
  rw [decodeDesc_native wh (D := fun h x => some (C h (decM x))) _ hC hop, decM_pack wm]

/-- ABORT's ring and index are read back (R58). -/
theorem decodeDesc_abort (w : h.wf = true) {g n : Nat} (hg : g < 2 ^ 16) (hn : n < 2 ^ 64) :
    decodeDesc h.ring (pack (encHdr 0x03 h ++ [(16, g), (48, 0), (64, n)])) = some (.abort h g n) := by
  rw [decodeDesc_native w (D := fun h x => some (.abort h (fld x 79 64) (fld x 191 128))) _
    fun _ _ e => by simp only [decodeCmd, e]]
  simp (disch := omega) only [body_pack, fld_pack_rest, fld_pack_first, Nat.reduceSub, Nat.reduceAdd, Nat.mod_eq_of_lt]

/-- FW_SWITCH's slot, mask and drain time are read back (R280). -/
theorem decodeDesc_fwSwitch (w : h.wf = true) {sl k d : Nat} (hs : sl < 2 ^ 8) (hk : k < 2 ^ 8) (hd : d < 2 ^ 16) :
    decodeDesc h.ring (pack (encHdr 0x51 h ++ [(8, sl), (8, k), (16, 0), (16, d)])) = some (.fwSwitch h sl k d) := by
  rw [decodeDesc_native w (D := fun h x => some (.fwSwitch h (fld x 71 64) (fld x 79 72) (fld x 111 96))) _
    fun _ _ e => by simp only [decodeCmd, e]]
  simp (disch := omega) only [body_pack, fld_pack_rest, fld_pack_first, Nat.reduceSub, Nat.reduceAdd, Nat.mod_eq_of_lt]

/-! ### RING_SET and POOL_SET (R58) -/

/-- RING_SET's ring and action are read back, whatever follows. -/
theorem ringSet_fields {g a : Nat} (hg : g < 2 ^ 16) (ha : a < 256) (r : List (Nat × Nat)) :
    fld (pack (encHdr op h ++ (16, g) :: (8, a) :: r)) 79 64 = g ∧ fld (pack (encHdr op h ++ (16, g) :: (8, a) :: r)) 87 80 = a := by
  simp (disch := omega) only [body_pack, fld_pack_rest, fld_pack_first, Nat.reduceSub, Nat.reduceAdd, Nat.mod_eq_of_lt, and_self]

theorem decRingSet_query {g : Nat} (hg : g < 2 ^ 16) :
    decRingSet h (pack (encHdr op h ++ [(16, g), (8, 0)])) = some (.ringSetQuery h g) := by
  obtain ⟨hring, hact⟩ := ringSet_fields (op := op) (h := h) hg (a := 0) (by omega) []
  simp only [decRingSet, hring, hact]

theorem decRingSet_enable {g : Nat} (hg : g < 2 ^ 16) :
    decRingSet h (pack (encHdr op h ++ [(16, g), (8, 1)])) = some (.ringSetEnable h g) := by
  obtain ⟨hring, hact⟩ := ringSet_fields (op := op) (h := h) hg (a := 1) (by omega) []
  simp only [decRingSet, hring, hact]

theorem decRingSet_disable {g : Nat} (hg : g < 2 ^ 16) :
    decRingSet h (pack (encHdr op h ++ [(16, g), (8, 2)])) = some (.ringSetDisable h g) := by
  obtain ⟨hring, hact⟩ := ringSet_fields (op := op) (h := h) hg (a := 2) (by omega) []
  simp only [decRingSet, hring, hact]

theorem decRingSet_move {g n b : Nat} (hg : g < 2 ^ 16) (hn : n < 2 ^ 8) (hb : b < 2 ^ 64) :
    decRingSet h (pack (encHdr op h ++ [(16, g), (8, 3), (8, n), (32, 0), (64, b)])) = some (.ringSetMove h g n b) := by
  obtain ⟨hring, hact⟩ := ringSet_fields (op := op) (h := h) hg (a := 3) (by omega) [(8, n), (32, 0), (64, b)]
  simp only [decRingSet, hring, hact]
  simp (disch := omega) only [body_pack, fld_pack_rest, fld_pack_first, Nat.reduceSub, Nat.reduceAdd, Nat.mod_eq_of_lt]

/-- The first two bytes behind the header are read back, whatever follows. -/
theorem twoBytes_fields {p a : Nat} (hp : p < 256) (ha : a < 256) (r : List (Nat × Nat)) :
    fld (pack (encHdr op h ++ (8, p) :: (8, a) :: r)) 71 64 = p ∧ fld (pack (encHdr op h ++ (8, p) :: (8, a) :: r)) 79 72 = a := by
  simp (disch := omega) only [body_pack, fld_pack_rest, fld_pack_first, Nat.reduceSub, Nat.reduceAdd, Nat.mod_eq_of_lt, and_self]

theorem decPoolSet_query {p : Nat} (hp : p < 2 ^ 8) :
    decPoolSet h (pack (encHdr op h ++ [(8, p), (8, 0)])) = some (.poolSetQuery h p) := by
  obtain ⟨hpool, hact⟩ := twoBytes_fields (op := op) (h := h) hp (a := 0) (by omega) []
  simp only [decPoolSet, hpool, hact]

theorem decPoolSet_flush {p b : Nat} (hp : p < 2 ^ 8) (hb : b < 2 ^ 64) :
    decPoolSet h (pack (encHdr op h ++ [(8, p), (8, 1), (48, 0), (64, b)])) = some (.poolSetFlush h p b) := by
  obtain ⟨hpool, hact⟩ := twoBytes_fields (op := op) (h := h) hp (a := 1) (by omega) [(48, 0), (64, b)]
  simp only [decPoolSet, hpool, hact]
  simp (disch := omega) only [body_pack, fld_pack_rest, fld_pack_first, Nat.reduceSub, Nat.reduceAdd, Nat.mod_eq_of_lt]

/-! ### TIME_SET (R364) -/

/-- The first byte behind the header, the action of TIME_SET and of DOMAIN_CTL. -/
theorem firstByte_pack {a : Nat} (ha : a < 256) (r : List (Nat × Nat)) : fld (pack (encHdr op h ++ (8, a) :: r)) 71 64 = a := by
  simp (disch := omega) only [body_pack, fld_pack_first, Nat.reduceSub, Nat.reduceAdd, Nat.mod_eq_of_lt]

/-- A stamp that stands at byte 12 is read back, whatever stands before and behind it (R63). -/
theorem decStamp_at {t : Stamp} (w : t.wf = true) {x : Nat} (r : List (Nat × Nat))
    (hx : ∀ hi lo, 96 ≤ lo → 96 ≤ hi → fld x hi lo = fld (pack (encStamp t ++ r)) (hi - 96) (lo - 96)) : decStamp x 12 = t := by
  simp only [Stamp.wf, fitsW, Bool.and_eq_true, decide_eq_true_eq] at w
  unfold decStamp
  simp (disch := omega) only [hx, encStamp, List.cons_append, List.nil_append, fld_pack_rest, fld_pack_first, Nat.reduceMul,
    Nat.reduceSub, Nat.reduceAdd, Nat.mod_eq_of_lt]

theorem decTimeSet_read : decTimeSet h (pack (encHdr op h ++ [(8, 0)])) = some (.timeSetRead h) := by
  simp only [decTimeSet, firstByte_pack (op := op) (h := h) (a := 0) (by omega) []]

theorem decTimeSet_stepTo {t : Stamp} (w : t.wf = true) :
    decTimeSet h (pack (encHdr op h ++ (8, 1) :: (8, 0) :: (16, 0) :: encStamp t)) = some (.timeSetStep h false t 0) := by
  obtain ⟨hact, hoff⟩ := twoBytes_fields (op := op) (h := h) (p := 1) (a := 0) (by omega) (by omega) ((16, 0) :: encStamp t)
  have hstamp : decStamp (pack (encHdr op h ++ (8, 1) :: (8, 0) :: (16, 0) :: encStamp t)) 12 = t :=
    decStamp_at w [] fun hi lo hl hh => by
      simp (disch := omega) only [body_pack, fld_pack_rest, Nat.sub_sub, Nat.reduceAdd, List.append_nil]
  simp only [decTimeSet, hact, hoff, hstamp]

theorem decTimeSet_stepBy {off : Int} (hoff : fitsI 64 off = true) :
    decTimeSet h (pack (encHdr op h ++ [(8, 1), (8, 1), (16, 0), (64, ofSigned 64 off)]))
      = some (.timeSetStep h true ⟨0, 0, 0⟩ off) := by
  simp only [fitsI, Bool.and_eq_true, decide_eq_true_eq] at hoff
  obtain ⟨hact, hrel⟩ :=
    twoBytes_fields (op := op) (h := h) (p := 1) (a := 1) (by omega) (by omega) [(16, 0), (64, ofSigned 64 off)]
  have hval : fld (pack (encHdr op h ++ [(8, 1), (8, 1), (16, 0), (64, ofSigned 64 off)])) 159 96 = ofSigned 64 off := by
    simp (disch := omega) only [body_pack, fld_pack_rest, fld_pack_first, Nat.reduceSub, Nat.reduceAdd]
    exact Nat.mod_eq_of_lt (ofSigned_lt off)
  simp only [decTimeSet, hact, hrel, hval, toSigned_ofSigned (w := 64) (by omega) hoff]

/-- TIME_SET STEP has two forms: to a time, with no offset, and by an offset, with no time. -/
theorem decodeDesc_timeSetStep {o : Bool} {t : Stamp} {off : Int} {g : Nat} (hg : ringOf (.timeSetStep h o t off) = some g)
    (w : (Instr.timeSetStep h o t off).wf = true) :
    decodeDesc g (encodeDesc (.timeSetStep h o t off)) = some (.timeSetStep h o t off) := by
  cases hg
  obtain ⟨wh, wo⟩ := Bool.and_eq_true_iff.mp w
  cases o with
  | false =>
    obtain ⟨wt, hoff⟩ := Bool.and_eq_true_iff.mp wo
    cases of_decide_eq_true hoff
    exact (decodeDesc_native wh _ fun _ _ e => decodeCmd_time e).trans (decTimeSet_stepTo wt)
  | true =>
    obtain ⟨wf, ht⟩ := Bool.and_eq_true_iff.mp wo
    cases of_decide_eq_true ht
    exact (decodeDesc_native wh _ fun _ _ e => decodeCmd_time e).trans (decTimeSet_stepBy wf)

theorem decTimeSet_rate {r : Int} (hr : fitsI 32 r = true) :
    decTimeSet h (pack (encHdr op h ++ [(8, 2), (120, 0), (32, ofSigned 32 r)])) = some (.timeSetRate h r) := by
  simp only [fitsI, Bool.and_eq_true, decide_eq_true_eq] at hr
  have hval : fld (pack (encHdr op h ++ [(8, 2), (120, 0), (32, ofSigned 32 r)])) 223 192 = ofSigned 32 r := by
    simp (disch := omega) only [body_pack, fld_pack_rest, fld_pack_first, Nat.reduceSub, Nat.reduceAdd]
    exact Nat.mod_eq_of_lt (ofSigned_lt r)
  simp only [decTimeSet, firstByte_pack (op := op) (h := h) (a := 2) (by omega) [(120, 0), (32, ofSigned 32 r)], hval,
    toSigned_ofSigned (w := 32) (by omega) hr]

theorem decTimeSet_markTraceable : decTimeSet h (pack (encHdr op h ++ [(8, 3)])) = some (.timeSetMarkTraceable h) := by
  simp only [decTimeSet, firstByte_pack (op := op) (h := h) (a := 3) (by omega) []]

theorem decTimeSet_tout {c : ToutCmd} (w : c.wf = true) :
    decTimeSet h (pack (encHdr op h ++ (8, 4) :: (8, c.output)
        :: (8, b2n c.enable + 2 * b2n c.periodic + 4 * b2n c.activeLow) :: (8, 0)
        :: (encStamp c.start ++ [(32, c.periodNs), (16, c.periodFrac), (16, 0), (32, c.widthNs)])))
      = some (.timeSetTout h c) := by
  simp only [ToutCmd.wf, fitsW, Bool.and_eq_true, decide_eq_true_eq] at w
  obtain ⟨⟨⟨⟨hout, hstart⟩, hns⟩, hfrac⟩, hwidth⟩ := w
  obtain ⟨hact, houtput⟩ := twoBytes_fields (op := op) (h := h) (p := 4) (a := c.output) (by omega) (by omega)
    ((8, b2n c.enable + 2 * b2n c.periodic + 4 * b2n c.activeLow) :: (8, 0)
      :: (encStamp c.start ++ [(32, c.periodNs), (16, c.periodFrac), (16, 0), (32, c.widthNs)]))
  have hstamp := decStamp_at hstart (x := pack (encHdr op h ++ (8, 4) :: (8, c.output)
        :: (8, b2n c.enable + 2 * b2n c.periodic + 4 * b2n c.activeLow) :: (8, 0)
        :: (encStamp c.start ++ [(32, c.periodNs), (16, c.periodFrac), (16, 0), (32, c.widthNs)])))
    [(32, c.periodNs), (16, c.periodFrac), (16, 0), (32, c.widthNs)] fun hi lo hl hh => by
      simp (disch := omega) only [body_pack, fld_pack_rest, Nat.sub_sub, Nat.reduceAdd]
  simp only [decTimeSet, hact, houtput, hstamp, if_pos (show c.output < 8 by omega)]
  simp (disch := omega) only [body_pack, bit_body_pack, encStamp, List.cons_append, List.nil_append, fld_pack_rest,
    fld_pack_first, bit_pack_rest, bit_pack_first, bits_three, Nat.reduceSub, Nat.reduceAdd, Nat.mod_eq_of_lt]

theorem decTimeSet_peerDelay {p d : Nat} (hp : p < 2 ^ 9) (hd : d < 2 ^ 32) :
    decTimeSet h (pack (encHdr op h ++ [(8, 5), (8, 0), (16, p), (32, d)])) = some (.timeSetPeerDelay h p d) := by
  simp only [decTimeSet, firstByte_pack (op := op) (h := h) (a := 5) (by omega) [(8, 0), (16, p), (32, d)]]
  simp (disch := omega) only [body_pack, fld_pack_rest, fld_pack_first, Nat.reduceSub, Nat.reduceAdd, Nat.mod_eq_of_lt]

theorem bit_b2n (b : Bool) : bit (b2n b) 0 = b := by
  cases b <;> rfl

theorem decTimeSet_synce {o l d : Nat} (e : Bool) (ho : o < 2 ^ 1) (hl : l < 2 ^ 9) (hd : d < 2 ^ 12) :
    decTimeSet h (pack (encHdr op h ++ [(8, 6), (8, o), (8, b2n e), (8, 0), (16, l), (16, 0), (16, d)]))
      = some (.timeSetSynce h o e l d) := by
  obtain ⟨hact, hout⟩ := twoBytes_fields (op := op) (h := h) (p := 6) (a := o) (by omega) (by omega)
    [(8, b2n e), (8, 0), (16, l), (16, 0), (16, d)]
  simp only [decTimeSet, hact, hout, if_pos (show o < 2 by omega)]
  simp (disch := omega) only [body_pack, bit_body_pack, fld_pack_rest, fld_pack_first, bit_pack_rest, bit_pack_first, bit_b2n,
    Nat.reduceSub, Nat.reduceAdd, Nat.mod_eq_of_lt]

/-! ### DOMAIN_CTL (R503) -/

theorem decDomainCtl_query : decDomainCtl h (pack (encHdr op h ++ [(8, 0)])) = some (.domainCtlQuery h) := by
  simp only [decDomainCtl, firstByte_pack (op := op) (h := h) (a := 0) (by omega) []]

theorem decDomainCtl_off : decDomainCtl h (pack (encHdr op h ++ [(8, 1)])) = some (.domainCtlOff h) := by
  simp only [decDomainCtl, firstByte_pack (op := op) (h := h) (a := 1) (by omega) []]

theorem decDomainCtl_on : decDomainCtl h (pack (encHdr op h ++ [(8, 2)])) = some (.domainCtlOn h) := by
  simp only [decDomainCtl, firstByte_pack (op := op) (h := h) (a := 2) (by omega) []]

theorem decDomainCtl_reinit {p : Nat} (hp : p < 2 ^ 8) :
    decDomainCtl h (pack (encHdr op h ++ [(8, 3), (8, p)])) = some (.domainCtlReinit h p) := by
  obtain ⟨hact, hsrc⟩ := twoBytes_fields (op := op) (h := h) (p := 3) (a := p) (by omega) hp []
  simp only [decDomainCtl, hact, hsrc]

theorem decDomainCtl_restart {p : Nat} (hp : p < 2 ^ 8) :
    decDomainCtl h (pack (encHdr op h ++ [(8, 4), (8, p)])) = some (.domainCtlRestart h p) := by
  obtain ⟨hact, hsrc⟩ := twoBytes_fields (op := op) (h := h) (p := 4) (a := p) (by omega) hp []
  simp only [decDomainCtl, hact, hsrc]

end Native

/-! ### LHX-7408 descriptors (R95) -/

section Gen3

variable {h : G3Hdr} {op : Nat}

theorem decG3_pack (w : h.wf = true) (r : List (Nat × Nat)) : decG3 h.ring (pack (encG3 op h ++ r)) = h := by
  simp only [G3Hdr.wf, fitsW, Bool.and_eq_true, decide_eq_true_eq] at w
  unfold decG3
  simp (disch := omega) only [encG3, List.cons_append, List.nil_append, fld_pack_rest, fld_pack_first, bit_pack_rest,
    bit_pack_first, bits_two, Nat.reduceSub, Nat.reduceAdd, Nat.mod_eq_of_lt]

theorem g3_opcode_pack (r : List (Nat × Nat)) : fld (pack (encG3 op h ++ r)) 7 0 = op % 256 :=
  fld_pack_first _ (by omega)

theorem decG3Body_pack {b : G3Body} (w : b.wf = true) : decG3Body (pack (encG3 op h ++ encG3Body b)) = b := by
  simp only [G3Body.wf, fitsW, Bool.and_eq_true, decide_eq_true_eq] at w
  unfold decG3Body
  simp (disch := omega) only [encG3, encG3Body, List.cons_append, List.nil_append, fld_pack_rest, fld_pack_first,
    Nat.reduceSub, Nat.reduceAdd, Nat.mod_eq_of_lt]

theorem decodeDesc_g3 (w : h.wf = true) {D : G3Hdr → Nat → Instr} (r : List (Nat × Nat))
    (hD : ∀ g x, fld x 7 0 = op → decodeCmd g x = some (D (decG3 g x) x)) (hop : op % 256 = op := by rfl) :
    decodeDesc h.ring (pack (encG3 op h ++ r)) = some (D h (pack (encG3 op h ++ r))) := by
  have hring : h.ring < 64 := by
    simp only [G3Hdr.wf, Bool.and_eq_true, decide_eq_true_eq] at w
    exact w.1.1
  unfold decodeDesc
  rw [if_pos hring, hD _ _ ((g3_opcode_pack r).trans hop), decG3_pack w r]

theorem decodeDesc_g3Body {b : G3Body} (w : (h.wf && b.wf) = true) {C : G3Hdr → G3Body → Instr}
    (hC : ∀ g x, fld x 7 0 = op → decodeCmd g x = some (C (decG3 g x) (decG3Body x))) (hop : op % 256 = op := by rfl) :
    decodeDesc h.ring (pack (encG3 op h ++ encG3Body b)) = some (C h b) := by
  obtain ⟨wh, wb⟩ := Bool.and_eq_true_iff.mp w
  rw [decodeDesc_g3 wh (D := fun h x => C h (decG3Body x)) _ hC hop, decG3Body_pack wb]

theorem decodeDesc_g3Header (w : h.wf = true) {C : G3Hdr → Instr}
    (hC : ∀ g x, fld x 7 0 = op → decodeCmd g x = some (C (decG3 g x))) (hop : op % 256 = op := by rfl) :
    decodeDesc h.ring (pack (encG3 op h)) = some (C h) := by
  have e := decodeDesc_g3 w (D := fun h _ => C h) [] hC hop
  rwa [List.append_nil] at e

/-- G3_FLOW_DELETE's record is read back. -/
theorem decodeDesc_g3Record (w : h.wf = true) {r : Nat} (hr : r < 2 ^ 32) :
    decodeDesc h.ring (pack (encG3 0x84 h ++ [(32, r)])) = some (.g3FlowDelete h r) := by
  rw [decodeDesc_g3 w (D := fun h x => .g3FlowDelete h (fld x 95 64)) _ fun _ _ e => by simp only [decodeCmd, e]]
  simp (disch := omega) only [encG3, List.cons_append, List.nil_append, fld_pack_rest, fld_pack_first, Nat.reduceSub,
    Nat.reduceAdd, Nat.mod_eq_of_lt]

end Gen3

/-! ### Inject descriptors (R74) -/

theorem decInj_pack {d : Inject} {op : Nat} (w : d.wf = true) : decInj d.ring (pack (encInj op d)) = d := by
  simp only [Inject.wf, fitsW, Bool.and_eq_true, decide_eq_true_eq] at w
  unfold decInj
  simp (disch := omega) only [encInj, fld_pack_rest, fld_pack_first, bit_pack_rest, bit_pack_first, bits_three,
    Nat.reduceSub, Nat.reduceAdd, Nat.mod_eq_of_lt]

theorem inj_opcode_pack {d : Inject} {op : Nat} : fld (pack (encInj op d)) 7 0 = op % 256 :=
  fld_pack_first _ (by omega)

theorem decodeDesc_inj {d : Inject} {op : Nat} (w : d.wf = true) {C : Inject → Instr}
    (hC : ∀ n x, fld x 7 0 = op → decodeInj n x = some (C (decInj n x))) (hop : op % 256 = op := by rfl) :
    decodeDesc (400 + d.ring) (pack (encInj op d)) = some (C d) := by
  have hring : d.ring < 256 := by
    simp only [Inject.wf, Bool.and_eq_true, decide_eq_true_eq] at w
    exact w.1.1.1.1.1
  unfold decodeDesc
  rw [if_neg (by omega), if_pos ⟨by omega, by omega⟩, Nat.add_sub_cancel_left, hC _ _ (inj_opcode_pack.trans hop), decInj_pack w]

/-! ### The commands -/

/-- No bit of a well-formed ring command is lost in its descriptor. -/
theorem decodeDesc_encodeDesc {i : Instr} {g : Nat} (hg : ringOf i = some g) (w : i.wf = true) :
    decodeDesc g (encodeDesc i) = some i := by
  cases i with
  | nop h | fence h =>
    cases hg
    exact decodeDesc_header w fun _ _ e => by simp only [decodeCmd, e]
  | tableWrite h t | tableRead h t | tableBulkWrite h t | tableBulkRead h t | tableScan h t | digestSet h t | epochFlip h t
  | flowWrite h t | flowDelete h t | flowRead h t | flowRestore h t | counterRead h t | counterClear h t | shaperSet h t
  | gateLoad h t =>
    cases hg
    exact decodeDesc_formT w fun _ _ e => by simp only [decodeCmd, e]
  | memRead h m | memWrite h m | checkScan h m | fwStage h m =>
    cases hg
    exact decodeDesc_formM w fun _ _ e => by simp only [decodeCmd, e]
  | ringSetQuery h g =>
    cases hg
    simp only [Instr.wf, fitsW, Bool.and_eq_true, decide_eq_true_eq] at w
    exact (decodeDesc_native w.1 _ fun _ _ e => decodeCmd_ring e).trans (decRingSet_query w.2)
  | ringSetEnable h g =>
    cases hg
    simp only [Instr.wf, fitsW, Bool.and_eq_true, decide_eq_true_eq] at w
    exact (decodeDesc_native w.1 _ fun _ _ e => decodeCmd_ring e).trans (decRingSet_enable w.2)
  | ringSetDisable h g =>
    cases hg
    simp only [Instr.wf, fitsW, Bool.and_eq_true, decide_eq_true_eq] at w
    exact (decodeDesc_native w.1 _ fun _ _ e => decodeCmd_ring e).trans (decRingSet_disable w.2)
  | ringSetMove h g n b =>
    cases hg
    simp only [Instr.wf, fitsW, Bool.and_eq_true, decide_eq_true_eq] at w
    obtain ⟨⟨⟨wh, wg⟩, wn⟩, wb⟩ := w
    exact (decodeDesc_native wh _ fun _ _ e => decodeCmd_ring e).trans (decRingSet_move wg wn wb)
  | poolSetQuery h p =>
    cases hg
    simp only [Instr.wf, fitsW, Bool.and_eq_true, decide_eq_true_eq] at w
    exact (decodeDesc_native w.1 _ fun _ _ e => decodeCmd_pool e).trans (decPoolSet_query w.2)
  | poolSetFlush h p b =>
    cases hg
    simp only [Instr.wf, fitsW, Bool.and_eq_true, decide_eq_true_eq] at w
    obtain ⟨⟨wh, wp⟩, wb⟩ := w
    exact (decodeDesc_native wh _ fun _ _ e => decodeCmd_pool e).trans (decPoolSet_flush wp wb)
  | abort h g n =>
    cases hg
    simp only [Instr.wf, fitsW, Bool.and_eq_true, decide_eq_true_eq] at w
    obtain ⟨⟨wh, wg⟩, wn⟩ := w
    exact decodeDesc_abort wh wg wn
  | timeSetRead h =>
    cases hg
    exact (decodeDesc_native w _ fun _ _ e => decodeCmd_time e).trans decTimeSet_read
  | timeSetStep h o t off => exact decodeDesc_timeSetStep hg w
  | timeSetRate h r =>
    cases hg
    obtain ⟨wh, wr⟩ := Bool.and_eq_true_iff.mp w
    exact (decodeDesc_native wh _ fun _ _ e => decodeCmd_time e).trans (decTimeSet_rate wr)
  | timeSetMarkTraceable h =>
    cases hg
    exact (decodeDesc_native w _ fun _ _ e => decodeCmd_time e).trans decTimeSet_markTraceable
  | timeSetTout h c =>
    cases hg
    obtain ⟨wh, wc⟩ := Bool.and_eq_true_iff.mp w
    exact (decodeDesc_native wh _ fun _ _ e => decodeCmd_time e).trans (decTimeSet_tout wc)
  | timeSetPeerDelay h p d =>
    cases hg
    simp only [Instr.wf, fitsW, Bool.and_eq_true, decide_eq_true_eq] at w
    obtain ⟨⟨wh, wp⟩, wd⟩ := w
    exact (decodeDesc_native wh _ fun _ _ e => decodeCmd_time e).trans (decTimeSet_peerDelay wp wd)
  | timeSetSynce h o en l d =>
    cases hg
    simp only [Instr.wf, fitsW, Bool.and_eq_true, decide_eq_true_eq] at w
    obtain ⟨⟨⟨wh, wo⟩, wl⟩, wd⟩ := w
    exact (decodeDesc_native wh _ fun _ _ e => decodeCmd_time e).trans (decTimeSet_synce en wo wl wd)
  | fwSwitch h sl k d =>
    cases hg
    simp only [Instr.wf, fitsW, Bool.and_eq_true, decide_eq_true_eq] at w
    obtain ⟨⟨⟨wh, wsl⟩, wk⟩, wd⟩ := w
    exact decodeDesc_fwSwitch wh wsl wk wd
  | domainCtlQuery h =>
    cases hg
    exact (decodeDesc_native w _ fun _ _ e => decodeCmd_domain e).trans decDomainCtl_query
  | domainCtlOff h =>
    cases hg
    exact (decodeDesc_native w _ fun _ _ e => decodeCmd_domain e).trans decDomainCtl_off
  | domainCtlOn h =>
    cases hg
    exact (decodeDesc_native w _ fun _ _ e => decodeCmd_domain e).trans decDomainCtl_on
  | domainCtlReinit h p =>
    cases hg
    simp only [Instr.wf, fitsW, Bool.and_eq_true, decide_eq_true_eq] at w
    exact (decodeDesc_native w.1 _ fun _ _ e => decodeCmd_domain e).trans (decDomainCtl_reinit w.2)
  | domainCtlRestart h p =>
    cases hg
    simp only [Instr.wf, fitsW, Bool.and_eq_true, decide_eq_true_eq] at w
    exact (decodeDesc_native w.1 _ fun _ _ e => decodeCmd_domain e).trans (decDomainCtl_restart w.2)
  | g3Nop h =>
    cases hg
    exact decodeDesc_g3Header w fun _ _ e => by simp only [decodeCmd, e]
  | g3TableWrite h b | g3TableRead h b | g3CounterRead h b =>
    cases hg
    exact decodeDesc_g3Body w fun _ _ e => by simp only [decodeCmd, e]
  | g3FlowDelete h r =>
    cases hg
    simp only [Instr.wf, fitsW, Bool.and_eq_true, decide_eq_true_eq] at w
    exact decodeDesc_g3Record w.1 w.2
  | injectPort d | injectPipe d =>
    cases hg
    exact decodeDesc_inj w fun _ _ e => by simp only [decodeInj, e]
  | _ => cases hg

/-- Byte 0 of every ring command's descriptor is its first field, the opcode. -/
theorem descFields_opcode {i : Instr} {op : Nat} (e : opcodeOf i = some op) : ∃ r, descFields i = (8, op) :: r ∧ op < 256 := by
  cases i <;> cases e
  case timeSetStep h o t off => cases o <;> exact ⟨_, rfl, by decide⟩
  all_goals exact ⟨_, rfl, by decide⟩

theorem opcode_encodeDesc {i : Instr} {op : Nat} (e : opcodeOf i = some op) : fld (encodeDesc i) 7 0 = op := by
  obtain ⟨r, hr, hop⟩ := descFields_opcode e
  unfold encodeDesc
  rw [hr, fld_pack_first r (by omega)]
  exact Nat.mod_eq_of_lt hop

/-- Settles O42: what is encoded is decoded, and the first field of a descriptor is the opcode. -/
theorem descriptorDecodesToItsCommand : Obligations.DescriptorDecodesToItsCommand :=
  ⟨fun _ _ => decodeDesc_encodeDesc, fun _ _ => opcode_encodeDesc⟩

end Sys2Proof.Proofs
end

section
/-! The commits (R83, R94, R513, R541) and log_copy (R18): what a commit of a link leaves when its pages pass and no ring of
the set-up is enabled, which formation the ports take, and what the selection stores. -/

namespace Sys2Proof.Proofs

open Sys2Proof.Machine Sys2Proof.Laws

/-! ### Which behaviour a write of one bit reaches -/

theorem busWrite_commitA {path : Path} (h : path ≠ .linkB) (s : State) : busWrite path .hifCtrl 1 s = commitA s := by
  simp [busWrite, hifCtrlWrite, onBit, h]

theorem busWrite_commitB (path : Path) (s : State) : busWrite path .hifCtrl 2 s = commitB path s := by
  cases path <;> simp [busWrite, hifCtrlWrite, onBit]

theorem exec_commitA {path : Path} {s : State} (w : writable s path .hifCtrl) (h : path ≠ .linkB) :
    exec (.commitA path) s = .next (commitA s) :=
  congrArg _ ((regWrite_writable 1 w).trans (busWrite_commitA h s))

theorem exec_commitB {path : Path} {s : State} (w : writable s path .hifCtrl) :
    exec (.commitB path) s = .next (commitB path s) :=
  congrArg _ ((regWrite_writable 2 w).trans (busWrite_commitB path s))

theorem exec_commitAll {path : Path} {s : State} (w : writable s path .pwrCtrl) :
    exec (.commitAll path) s = .next (commitAll path s) :=
  congrArg _ ((regWrite_writable 2 w).trans (busWrite_commitAll path s))

/-! ### What a commit does, by what is committed already (R541) -/

theorem commitA_first {s : State} (h : s.hif.a.committed = false) : commitA s = commitLink .a s := by
  simp [commitA, h]

theorem commitA_again {s : State} (h : s.hif.a.committed = true) : commitA s = s := by
  simp [commitA, h]

theorem commitB_early (path : Path) {s : State} (h : s.hif.a.committed = false) : commitB path s = countIgnored path s := by
  simp [commitB, h]

theorem commitB_first (path : Path) {s : State} (ha : s.hif.a.committed = true) (hb : s.hif.b.committed = false)
    (h2 : s.hif.bifurcated = true) : commitB path s = commitLink .b s := by
  simp [commitB, ha, hb, h2]

theorem commitAll_again (path : Path) {s : State} (ha : s.hif.a.committed = true) (hp : s.pwr.committed = true) :
    commitAll path s = s := by
  simp [commitAll, ha, hp]

/-! ### The pages of a link (R94) -/

/-- A link after its commit, when its three pages pass. -/
def linkCommitted (x : LinkState) : LinkState :=
  { x with committed := true, stopped := false, dbOk := true, consOk := true, statOk := true }

theorem cfg_congr {s t : State} (h : t.regs = s.regs) (r : Reg) (hi lo : Nat) : cfg t r hi lo = cfg s r hi lo := by
  unfold cfg
  rw [stored_congr h]

theorem cfgBit_congr {s t : State} (h : t.regs = s.regs) (r : Reg) (n : Nat) : cfgBit t r n = cfgBit s r n := by
  unfold cfgBit
  rw [stored_congr h]

theorem winLink_congr {s t : State} (h : t.regs = s.regs) (h2 : t.hif.bifurcated = s.hif.bifurcated) (w : Nat) :
    winLink t w = winLink s w := by
  unfold winLink
  rw [h2, cfgBit_congr h]

theorem ringLink_congr {s t : State} (h : t.regs = s.regs) (h2 : t.hif.bifurcated = s.hif.bifurcated) (g : Nat) :
    ringLink t g = ringLink s g := by
  unfold ringLink
  rw [h2, cfgBit_congr h]

/-- Which windows cover a transfer depends on the set-up and on the two-link configuration only (R42). -/
theorem winCovers_congr {s t : State} (h : t.regs = s.regs) (h2 : t.hif.bifurcated = s.hif.bifurcated) :
    winCovers t = winCovers s := by
  funext l a len wr w
  simp only [winCovers, winLink_congr h h2, stored_congr h, cfg_congr h]

theorem addrStatus_congr {s t : State} (h : t.regs = s.regs) (h2 : t.hif.bifurcated = s.hif.bifurcated) :
    addrStatus t = addrStatus s := by
  funext l a len align wr
  unfold addrStatus inWindow
  rw [winCovers_congr h h2]

theorem pageAddr_congr {s t : State} (h : t.regs = s.regs) (l : Link) (which : Nat) :
    pageAddr t l which = pageAddr s l which := by
  simp only [pageAddr, stored_congr h]

theorem pagePasses_congr {s t : State} (h : t.regs = s.regs) (h2 : t.hif.bifurcated = s.hif.bifurcated) (l : Link)
    (which : Nat) : pagePasses t l which = pagePasses s l which := by
  unfold pagePasses
  rw [addrStatus_congr h h2, pageAddr_congr h]

theorem modLink_bifurcated (l : Link) (f : LinkState → LinkState) (s : State) :
    (modLink l f s).hif.bifurcated = s.hif.bifurcated := by
  cases l <;> rfl

theorem pagePasses_modLink (l : Link) (f : LinkState → LinkState) (s : State) (k : Link) (which : Nat) :
    pagePasses (modLink l f s) k which = pagePasses s k which :=
  pagePasses_congr (modLink_regs s l f) (modLink_bifurcated l f s) k which

theorem modLink_modLink (l : Link) (f g : LinkState → LinkState) (s : State) :
    modLink l g (modLink l f s) = modLink l (fun x => g (f x)) s := by
  cases l <;> rfl

/-- A page that passes leaves its mark in the link and nothing else. -/
theorem checkPage_of_passes {s : State} {l : Link} {which : Nat} (h : pagePasses s l which = true) :
    checkPage l which s = modLink l (fun x => if which = 0 then { x with dbOk := true }
      else if which = 1 then { x with consOk := true } else { x with statOk := true }) s := by
  simp [checkPage, h]

theorem checkPages_of_passes {s : State} {l : Link} (h0 : pagePasses s l 0 = true) (h1 : pagePasses s l 1 = true)
    (h2 : pagePasses s l 2 = true) :
    each [0, 1, 2] (checkPage l) (modLink l (fun x => { x with committed := true, stopped := false }) s)
      = modLink l linkCommitted s := by
  simp only [each_cons, each_nil]
  rw [checkPage_of_passes ((pagePasses_modLink l _ s l 0).trans h0), modLink_modLink,
    checkPage_of_passes ((pagePasses_modLink l _ s l 1).trans h1), modLink_modLink,
    checkPage_of_passes ((pagePasses_modLink l _ s l 2).trans h2), modLink_modLink]
  rfl

/-! ### The rings of a link (R94, log 101) -/

theorem ringKept_ringKept (r q : Ring) : ringKept (ringKept r q) q = ringKept r q := rfl

theorem ringConfig_congr {s t : State} (h : t.regs = s.regs) (g : Nat) : ringConfig t g = ringConfig s g := by
  simp only [ringConfig, stored_congr h, cfg_congr h, cfgBit_congr h]

theorem ringConfig_disabled (s : State) (g : Nat) : { ringConfig s g with enabled := false } = ringConfig s g := rfl

/-- A ring that is not enabled in the set-up comes to its committed configuration, and nothing else happens. -/
theorem commitRing_disabled {s : State} {g : Nat} (h : cfgBit s (.hifRingCfg g) 31 = false) :
    commitRing g s = modRing g (fun r => ringKept r (ringConfig s g)) s := by
  simp only [commitRing, configRing, h, Bool.false_and, Bool.false_eq_true, if_false, ringConfig_disabled]

/-- Rings written whole take the place of a ring written before. -/
theorem setRings_modRing (m : Map Ring) (g : Nat) (f : Ring → Ring) (s : State) :
    modHif (fun h => { h with rings := m }) (modRing g f s) = modHif (fun h => { h with rings := m }) s := rfl

/-- With no ring enabled in the set-up, a list of rings comes to its configuration, and only rings change. -/
theorem commitRings_disabled (l : List Nat) : ∀ s : State, (∀ g, cfgBit s (.hifRingCfg g) 31 = false) →
    ∃ m, each l commitRing s = modHif (fun h => { h with rings := m }) s
      ∧ ∀ g, mget {} m g = if g ∈ l then ringKept (ring s g) (ringConfig s g) else ring s g := by
  induction l with
  | nil => exact fun s _ => ⟨s.hif.rings, rfl, fun g => by simp [ring]⟩
  | cons a r ih =>
    intro s h
    have hr := modRing_regs s a (fun r => ringKept r (ringConfig s a))
    obtain ⟨m, e, hm⟩ := ih (modRing a (fun r => ringKept r (ringConfig s a)) s) fun g => (cfgBit_congr hr _ _).trans (h g)
    refine ⟨m, by rw [each_cons, commitRing_disabled (h a), e, setRings_modRing], fun g => ?_⟩
    rw [hm, ringConfig_congr hr]
    by_cases ha : a = g
    · subst ha
      rw [ring_modRing, ringKept_ringKept, ite_self, if_pos List.mem_cons_self]
    · rw [ring_modRing_ne ha]
      simp [Ne.symm ha]

theorem ringsLeft_disabled {s t : State} (h : ∀ g, cfgBit s (.hifRingCfg g) 31 = false) (l : List Nat) (ht : t.regs = s.regs) :
    ringsLeft t l = [] := by
  simp [ringsLeft, cfgBit_congr ht, h]

theorem linkRings_modLink (k l : Link) (f : LinkState → LinkState) (s : State) :
    linkRings (modLink l f s) k = linkRings s k := by
  simp only [linkRings, ringLink_congr (modLink_regs s l f) (modLink_bifurcated l f s)]

theorem mem_linkRings {s : State} {l : Link} {g : Nat} (h : g < 752) : g ∈ linkRings s l ↔ ringLink s g = l := by
  simp [linkRings, upTo, h]

/-- The commit of a link whose pages pass, with no ring enabled in the set-up: the link's state, its rings and the
first-ring field are all it writes. -/
theorem commitLink_disabled {s : State} {l : Link} (h0 : pagePasses s l 0 = true) (h1 : pagePasses s l 1 = true)
    (h2 : pagePasses s l 2 = true) (hc : ∀ g, cfgBit s (.hifRingCfg g) 31 = false) :
    ∃ m, commitLink l s = modHif (fun h => { h with rings := m, firstRing := 0x3FF }) (modLink l linkCommitted s)
      ∧ ∀ g, g < 752 → mget {} m g = if ringLink s g = l then ringKept (ring s g) (ringConfig s g) else ring s g := by
  have hr := modLink_regs s l linkCommitted
  obtain ⟨m, e, hm⟩ := commitRings_disabled (linkRings s l) (modLink l linkCommitted s)
    fun g => (cfgBit_congr hr _ _).trans (hc g)
  refine ⟨m, ?_, fun g hg => ?_⟩
  · unfold commitLink
    dsimp only
    rw [checkPages_of_passes h0 h1 h2, linkRings_modLink, e, ringsLeft_disabled hc _ (by simp)]
    simp [modHif]
  · simp only [hm, ringConfig_congr hr, ring_modLink, mem_linkRings hg]

/-! ### The ports' formation (R24, R513) -/

/-- An octet takes the formation of its register. -/
def takeFormation (k : Nat) (t : State) : State :=
  modEgs (fun e => { e with formation := mset 0 e.formation k (cfg t (.phyOctetCfg k) 6 0) }) t

theorem takeFormations (l : List Nat) : ∀ s : State, ∃ m, each l takeFormation s = modEgs (fun e => { e with formation := m }) s
    ∧ ∀ k, mget 0 m k = if k ∈ l then cfg s (.phyOctetCfg k) 6 0 else mget 0 s.egs.formation k := by
  induction l with
  | nil => exact fun s => ⟨s.egs.formation, rfl, fun k => rfl⟩
  | cons a r ih =>
    intro s
    obtain ⟨m, e, hm⟩ := ih (takeFormation a s)
    refine ⟨m, by rw [each_cons, e]; rfl, fun k => ?_⟩
    have hc : cfg (takeFormation a s) (.phyOctetCfg k) 6 0 = cfg s (.phyOctetCfg k) 6 0 := rfl
    have hf : mget 0 (takeFormation a s).egs.formation k
        = if a = k then cfg s (.phyOctetCfg a) 6 0 else mget 0 s.egs.formation k :=
      mget_mset _ _ _ _ _
    rw [hm, hc, hf]
    by_cases ha : a = k
    · subst ha
      simp
    · simp [ha, Ne.symm ha]

theorem commitAll_first (path : Path) {s : State} (ha : s.hif.a.committed = true) (hp : s.pwr.committed = false) :
    commitAll path s = guardCheck (raise 0x010 evPwrCommitted 0 0 0 0
      (modPwr (fun p => { p with committed := true }) (each ((octetsOf s.part).filter (domOn s)) takeFormation s))) := by
  simp only [commitAll, ha, hp]
  rfl

/-- Raising an event and checking the guarantee write the parts that events are kept in. -/
theorem guardCheck_raise_only (src code p0 p1 p2 p3 : Nat) (u : State) :
    Only 10334771488 u (guardCheck (raise src code p0 p1 p2 p3 u)) :=
  guardCheck_keeps (Only.allows _ u) rfl _ (raise_only src code p0 p1 p2 p3 u)

theorem guardCheck_raise_frame (src code p0 p1 p2 p3 : Nat) (u : State) :
    guardCheck (raise src code p0 p1 p2 p3 u) = u.eventsOf (guardCheck (raise src code p0 p1 p2 p3 u)) :=
  frame_of_only (f := State.eventsOf) (guardCheck_raise_only src code p0 p1 p2 p3 u) rfl

/-- The ports committed, with their formation, before the event is raised. -/
def portsCommitted (m : Map Nat) (s : State) : State :=
  modPwr (fun p => { p with committed := true }) (modEgs (fun e => { e with formation := m }) s)

/-- Of a state that differs from the committed ports in the parts of events only. -/
theorem portsCommitted_frame {m : Map Nat} {s t : State} (h : t = (portsCommitted m s).eventsOf t) :
    t.pwr = { s.pwr with committed := true } ∧ t.egs.formation = m
      ∧ t = { s.eventsOf t with pwr := t.pwr, egs := { s.egs with formation := t.egs.formation } } := by
  have hpwr := congrArg State.pwr h
  have hegs := congrArg State.egs h
  refine ⟨hpwr, congrArg Egs.formation hegs, ?_⟩
  rw [hpwr, hegs]
  exact h

/-! ### log_copy (R18) -/

/-- The value LOG_COPY_SELECT writes: tim_copy as it stands, and the selection. -/
def logCopyWord (old : Word) (copy : Bool) : Word := (old &&& 1) + if copy then 2 else 0

theorem logCopyWord_eq_or (old : Word) (copy : Bool) : logCopyWord old copy = (old &&& 1#32) ||| if copy then 2#32 else 0#32 := by
  refine BitVec.add_eq_or_of_and_eq_zero _ _ ?_
  rw [BitVec.and_assoc]
  cases copy <;> simp

theorem logCopyWord_bit0 (old : Word) (copy : Bool) : (logCopyWord old copy).getLsbD 0 = old.getLsbD 0 := by
  rw [logCopyWord_eq_or]
  cases copy <;> simp

theorem logCopyWord_bit1 (old : Word) (copy : Bool) : (logCopyWord old copy).getLsbD 1 = copy := by
  rw [logCopyWord_eq_or]
  cases copy <;> simp

theorem logCopyWord_and_one (old : Word) (copy : Bool) : logCopyWord old copy &&& 1#32 = old &&& 1#32 := by
  rw [logCopyWord_eq_or]
  cases copy <;> simp [BitVec.and_or_distrib_right, BitVec.and_assoc]

/-- tim_copy is a field that locks with commit_all, log_copy one that software always writes (R18). -/
theorem accMask_pwrInfraSel : accMask .pwrInfraSel .lck = 1#32 ∧ accMask .pwrInfraSel .rw = 2#32 := by decide

theorem lockDiffers_logCopyWord (copy : Bool) (s : State) :
    lockDiffers s .pwrInfraSel (logCopyWord (stored s .pwrInfraSel) copy) = false := by
  simp [lockDiffers, accMask_pwrInfraSel.1, logCopyWord_and_one]

theorem exec_logCopySelect {path : Path} (copy : Bool) {s : State} (w : writable s path .pwrInfraSel) :
    exec (.logCopySelect path copy) s
      = .next (logCopyWrite copy (storeWrite .pwrInfraSel (logCopyWord (stored s .pwrInfraSel) copy) s)) := by
  refine congrArg _ ((regWrite_writable _ w).trans ?_)
  show infraSelWrite path (logCopyWord (stored s .pwrInfraSel) copy) s = _
  rw [infraSelWrite, plainWrite, lockDiffers_logCopyWord, logCopyWord_bit1]
  rfl

theorem maskedWrite_getLsbD (old mask v : Word) {n : Nat} (h : n < 32) :
    (maskedWrite old mask v).getLsbD n = if mask.getLsbD n then v.getLsbD n else old.getLsbD n := by
  unfold maskedWrite
  rw [BitVec.getLsbD_or, BitVec.getLsbD_and, BitVec.getLsbD_and, BitVec.getLsbD_not, decide_eq_true h]
  cases mask.getLsbD n <;> simp

/-- The bits a write of the selection stores: log_copy always, and tim_copy as it stands. -/
theorem stored_logCopyWord_bits (copy : Bool) (s : State) :
    cfgBit (storeWrite .pwrInfraSel (logCopyWord (stored s .pwrInfraSel) copy) s) .pwrInfraSel 0 = cfgBit s .pwrInfraSel 0
      ∧ cfgBit (storeWrite .pwrInfraSel (logCopyWord (stored s .pwrInfraSel) copy) s) .pwrInfraSel 1 = copy := by
  unfold cfgBit
  rw [stored_storeWrite, maskedWrite_getLsbD _ _ _ (by decide), maskedWrite_getLsbD _ _ _ (by decide), logCopyWord_bit0,
    logCopyWord_bit1, ite_self, storedMask, accMask_pwrInfraSel.1, accMask_pwrInfraSel.2]
  cases lockedReg s .pwrInfraSel <;> exact ⟨rfl, rfl⟩

/-! ### The claim -/

/-- Settles O4: with no ring enabled a commit writes the link, its rings and the first-ring field; the ports' formation is
their registers' fields; a repeated commit finds its bit set. -/
theorem commitsAndSelects : Obligations.CommitsAndSelects := by
  refine ⟨fun path s w hp ha h0 h1 h2 hc => ?_, fun path s w ha hb h2 p0 p1 p2 hc => ?_,
    fun path s w hp ha => by rw [exec_commitA w hp, commitA_first ha],
    fun path s w ha hb h2 => by rw [exec_commitB w, commitB_first path ha hb h2],
    fun path s w ha => by rw [exec_commitB w, commitB_early path ha], fun path s w ha hp => ?_,
    fun path s w hp ha => by rw [exec_commitA w hp, commitA_again ha],
    fun path s w ha hp => by rw [exec_commitAll w, commitAll_again path ha hp], fun path copy s w => ?_⟩
  · obtain ⟨m, e, hm⟩ := commitLink_disabled h0 h1 h2 hc
    exact ⟨_, (exec_commitA w hp).trans (congrArg Host.Outcome.next ((commitA_first ha).trans e)),
      rfl, rfl, rfl, rfl, hm, rfl⟩
  · obtain ⟨m, e, hm⟩ := commitLink_disabled p0 p1 p2 hc
    exact ⟨_, (exec_commitB w).trans (congrArg Host.Outcome.next ((commitB_first path ha hb h2).trans e)),
      rfl, rfl, rfl, rfl, hm, rfl⟩
  · obtain ⟨m, e, hm⟩ := takeFormations ((octetsOf s.part).filter (domOn s)) s
    obtain ⟨hpwr, hform, hframe⟩ :=
      portsCommitted_frame (guardCheck_raise_frame 0x010 evPwrCommitted 0 0 0 0 (portsCommitted m s))
    refine ⟨_, portsCommitted m s, by rw [exec_commitAll w, commitAll_first path ha hp, e]; rfl, rfl, hpwr, fun k hk hon => ?_,
      hframe⟩
    rw [hform, hm, if_pos (List.mem_filter.mpr ⟨hk, hon⟩)]
  · obtain ⟨h0, h1⟩ := stored_logCopyWord_bits copy s
    exact ⟨_, exec_logCopySelect copy w, rfl, h0, h1, fun q hq => stored_storeWrite_ne _ s hq, rfl⟩

end Sys2Proof.Proofs
end

section
/-! A frame from its receipt to its check (R25, R32, R123, R186, R230, R231, R294, R297, R298): what each of the four rows does,
branch by branch, and what the holding buffer's check, the count of a full table and a request for cells leave. -/

namespace Sys2Proof.Proofs

open Sys2Proof.Machine Sys2Proof.Laws

/-! ### The holding buffer (R32, R298) -/

/-- The check of the holding buffer sends PFC frames and notes that it did: packets and intakes stay. -/
theorem holdCheck_pkts (p : Nat) (s : State) : (holdCheck p s).pkts = s.pkts :=
  (holdCheck_keeps (Only.allows 17041408 s) rfl p s (Only.refl _ s)).pkts rfl

/-- PFC frames sent over a pipeline's ports leave the pipelines. -/
theorem eachPfc_pipes (ports : List Nat) (f : Nat → Nat → State → State)
    (h : ∀ n q s t, Only 16779264 s t → Only 16779264 s (f n q t)) (s : State) :
    (each ports (fun n t => each (upTo 8) (f n) t) s).pipes = s.pipes :=
  (each_keeps (P := Only 16779264 s) ports _
    (fun n t ht => each_keeps (P := Only 16779264 s) (upTo 8) _ (fun q u hu => h n q s u hu) t ht) s (Only.refl _ s)).pipes rfl

theorem pipe_congr {s t : State} (h : t.pipes = s.pipes) (p : Nat) : pipe t p = pipe s p := by
  unfold pipe
  rw [h]

theorem modPipe_holdXoff_intake (b : Bool) (p q : Nat) (s : State) :
    (pipe (modPipe p (fun y => { y with holdXoff := b }) s) q).intake = (pipe s q).intake := by
  by_cases h : p = q
  · subst h
    rw [pipe_modPipe]
  · rw [pipe_modPipe_ne h]

theorem holdCheck_intake (p q : Nat) (s : State) : (pipe (holdCheck p s) q).intake = (pipe s q).intake := by
  unfold holdCheck
  dsimp only
  split
  · rw [pipe_congr (eachPfc_pipes _ _ (fun n i s t ht => ?_) _), modPipe_holdXoff_intake]
    exact ite_keeps (sendXoff_keeps (Only.allows _ s) rfl n i t ht) ht
  · split
    · rw [pipe_congr (eachPfc_pipes _ _ (fun n i s t ht => ?_) _), modPipe_holdXoff_intake]
      exact ite_keeps (sendXon_keeps (Only.allows _ s) rfl n i t ht) ht
    · rfl

/-! ### FRAME_RECEIVE -/

theorem frameReceive_lost {port : Nat} (bs : List Byte) {s : State}
    (h : portUp s port = false ∨ domWorks s (domPipe (pipeOfLane port)) = false) : frameReceive port bs s = s := by
  unfold frameReceive
  rcases h with h | h <;> simp [h]

theorem frameReceive_intake {port : Nat} (bs : List Byte) {s : State} (hu : portUp s port = true)
    (hd : domWorks s (domPipe (pipeOfLane port)) = true) :
    frameReceive port bs s = intakeFrame (portFrame s port bs (rxStamp s port)) s := by
  simp [frameReceive, hu, hd]

/-- Counting a received frame does not change which priorities are lossless. -/
theorem lossless_countRx (port bytes : Nat) (bad : Bool) (s : State) : lossless (countRx port bytes bad s) = lossless s := rfl

/-- A frame of a port that the holding buffer has no room for. -/
theorem intakeFrame_dropped {x : Pkt} {s : State} (hi : x.inj = none)
    (h : holdMax < heldBytes s x.pipe + x.bytes.length + 4) :
    intakeFrame x s = if lossless s x.port x.pri = true then
        raise (bufSrc (dieOfPipe x.pipe) (1 + x.pipe % 4)) evBufLosslessOverrun 0 0 0 0
          (cntInc 0x0881 (dieOfPipe x.pipe) 8 (countRx x.port (x.bytes.length + 4) false s))
      else cntInc 0x0881 (dieOfPipe x.pipe) 7 (countRx x.port (x.bytes.length + 4) false s) := by
  unfold intakeFrame
  simp [hi, h, lossless_countRx]

theorem intakeFrame_taken {x : Pkt} {s : State} (h : heldBytes s x.pipe + x.bytes.length + 4 ≤ holdMax) :
    intakeFrame x s
      = holdCheck x.pipe (modPipe x.pipe (fun y => { y with intake := y.intake ++ [s.nextPkt] }) (newPkt x s).2) := by
  unfold intakeFrame
  rw [if_neg (Nat.not_lt.mpr h)]
  rfl

/-! ### PACKET_PASS -/

theorem packetPass_idle {p : Nat} {s : State} (h : (pipe s p).intake = [] ∨ domWorks s (domPipe p) = false) :
    packetPass p s = s := by
  unfold packetPass
  rcases h with h | h
  · rw [h]
  · split
    · rfl
    · rw [if_pos (by simp [h])]

/-- The head of the intake waits while the speculation table or the waiting places are full or an item is held (R186, R245). -/
theorem passHeld_iff (s : State) (p : Nat) : (!stageOpen s p || itemHeld s p) = true
    ↔ 8192 ≤ tableCount s p ∨ 4096 ≤ waitCount s p ∨ itemHeld s p = true := by
  simp only [stageOpen, Bool.or_eq_true, Bool.not_eq_true', Bool.and_eq_false_iff, decide_eq_false_iff_not, Nat.not_lt,
    or_assoc]

theorem packetPass_closed {p k : Nat} {rest : List Nat} {s : State} (hi : (pipe s p).intake = k :: rest)
    (hd : domWorks s (domPipe p) = true) (h : (!stageOpen s p || itemHeld s p) = true) : packetPass p s = noteFull p s := by
  unfold packetPass
  rw [hi]
  simp only [hd, h, Bool.not_true, Bool.false_eq_true, if_false, if_true]

theorem packetPass_waits {p k : Nat} {rest : List Nat} {u s : State} (hi : (pipe s p).intake = k :: rest)
    (hd : domWorks s (domPipe p) = true) (ho : stageOpen s p = true) (hh : itemHeld s p = false)
    (ha : askCells (dieOfPipe p) (frameWaiter s k) (noteFull p s) = (false, u)) : packetPass p s = u := by
  unfold packetPass
  rw [hi]
  simp only [hd, ho, hh, ha, Bool.not_true, Bool.or_self, Bool.false_eq_true, if_false]

/-- The packet whose cells are granted and written leaves the intake and begins its first pass in the current epoch. -/
theorem packetPass_begins {p k : Nat} {c : Bool} {rest : List Nat} {r u w s : State} (hi : (pipe s p).intake = k :: rest)
    (hd : domWorks s (domPipe p) = true) (ho : stageOpen s p = true) (hh : itemHeld s p = false)
    (ha : askCells (dieOfPipe p) (frameWaiter s k) (noteFull p s) = (true, r)) (hw : writeFrame k r = some u)
    (he : epochEnter p (holdCheck p (modPipe p (fun y => { y with intake := rest }) u)) = (c, w)) :
    packetPass p s = afterPass p k (beginPass p k (modPkt k (fun y => { y with
      epoch := c, inEpoch := true, tc := y.pri, prof := cfg w (.prsLaneCfg y.port) 3 0 }) w)) := by
  unfold packetPass
  rw [hi]
  simp only [hd, ho, hh, ha, hw, he, Bool.not_true, Bool.or_self, Bool.false_eq_true, if_false]

/-! ### The count of a full table (R186) -/

theorem noteFull_counts {p t n : Nat} {s : State} (hf : 8192 ≤ tableCount s p) (ht : (pipe s p).fullAt = some t)
    (hn : n = (s.now - t) / 625) (h0 : n ≠ 0) :
    noteFull p s = modPipe p (fun x => { x with fullAt := some (t + n * 625) }) (specCnt p 13 n s) := by
  unfold noteFull
  simp [hf, ht, ← hn, h0]

/-! ### Requests for cells (R294) -/

theorem waiters_setWaiters (d : Nat) (l : List Waiter) (s : State) : waiters (setWaiters d l s) d = l := by
  unfold setWaiters waiters
  exact mget_mset_same _ _ _ _

theorem askCells_pipes (d : Nat) (w : Waiter) (s : State) : (askCells d w s).2.pipes = s.pipes :=
  (askCells_keeps (Only.allows 4196352 s) rfl d w s (Only.refl _ s)).pipes rfl

/-- A request that is not granted stands among those that wait. -/
theorem mem_waiters_of_notGranted {d : Nat} {w : Waiter} {s u : State} (h : askCells d w s = (false, u)) : w ∈ waiters u d := by
  unfold askCells at h
  dsimp only at h
  by_cases hg : arbNext s d (if (waiters s d).contains w then waiters s d else waiters s d ++ [w]) = some w
  · rw [if_pos hg] at h
    cases h
  · rw [if_neg hg] at h
    cases h
    by_cases hw : (waiters s d).contains w = true
    · rw [if_pos hw]
      exact List.contains_iff_mem.mp hw
    · rw [if_neg hw, if_neg hw, waiters_setWaiters]
      exact List.mem_append_right _ List.mem_cons_self

/-! ### RECIRCULATION (R123, R235) -/

theorem recirculation_due {p : Nat} {y : YoYo} {s : State} (hr : yoyoDue s p true = none) (hy : yoyoDue s p false = some y)
    (hd : domWorks s (domPipe p) = true) (ho : stageOpen s p = true) :
    recirculation p s = afterPass p y.pkt (beginPass p y.pkt (yoyoTake p y s)) := by
  simp [recirculation, hr, hy, hd, ho]

theorem recirculation_replayFirst {p : Nat} {y : YoYo} {s : State} (hr : yoyoDue s p true = some y) : recirculation p s = s := by
  simp [recirculation, hr]

/-! ### FRAME_CHECK (R106, R230, R231) -/

theorem frameCheck_again {k : Nat} (ok : Bool) {x : Pkt} {s : State} (hx : pktOf s k = some x) (hc : x.check ≠ none) :
    frameCheck k ok s = s := by
  unfold frameCheck
  rw [hx]
  simp [Option.isSome_iff_ne_none.mpr hc]

theorem frameCheck_good {k : Nat} {x : Pkt} {s : State} (hx : pktOf s k = some x) (hc : x.check = none)
    (hl : x.deferred = []) : frameCheck k true s = confirmPasses x.pipe (checkPass k s) := by
  unfold frameCheck
  rw [hx]
  simp [hc, hl]

/-- A good FCS with a deferred comparison that failed: the frame is stomped or its cause's action applies (R106). -/
theorem frameCheck_deferred {k c : Nat} {l : List Nat} {x : Pkt} {s : State} (hx : pktOf s k = some x) (hc : x.check = none)
    (hl : x.deferred = c :: l) :
    frameCheck k true s = confirmPasses x.pipe
      (if x.started then stompFrame k false (cntInc 0x0181 x.pipe c (reportCheck k false s))
        else deferredFails k c (reportCheck k false s)) := by
  unfold frameCheck
  rw [hx]
  simp [hc, hl]

theorem frameCheck_bad {k : Nat} {x : Pkt} {s : State} (hx : pktOf s k = some x) (hc : x.check = none) :
    frameCheck k false s = confirmPasses x.pipe
      (if x.started then stompFrame k true (reportCheck k false s) else checkDrop k (reportCheck k false s)) := by
  unfold frameCheck
  rw [hx]
  simp [hc]

/-! ### The rows: each operation, then the service of waiting copies (R294) -/

theorem exec_packetPass {p : Nat} {s t : State} (h : packetPass p s = t) : exec (.packetPass p) s = .next (serveAll p t) := by
  subst h
  rfl

theorem exec_recirculation {p : Nat} {s t : State} (h : recirculation p s = t) :
    exec (.recirculation p) s = .next (serveAll p t) := by
  subst h
  rfl

theorem exec_frameCheck {k : Nat} {ok : Bool} {s t : State} (h : frameCheck k ok s = t) :
    exec (.frameCheck k ok) s = .next (each (pipelines s.part) serveAll t) := by
  subst h
  rfl

/-! ### The claim -/

/-- Settles O34: each row is its operation, by the branch its clause names; the holding buffer's check leaves packets and
intakes. -/
theorem framesAndPasses : Obligations.FramesAndPasses := by
  refine ⟨fun port bs s h => congrArg _ (frameReceive_lost bs h), fun port bs x s hu hd hx hb hl => ?_,
    fun port bs x s hu hd hx hb hl => ?_, fun port bs x s hu hd hx hb => ?_,
    fun p s h => exec_packetPass (packetPass_idle h),
    fun p k rest s hi hd h => exec_packetPass (packetPass_closed hi hd ((passHeld_iff s p).mpr h)),
    fun p t n s hf ht hn h0 => ?_, fun p k rest u s hi hd ho hh ha => ⟨exec_packetPass (packetPass_waits hi hd ho hh ha),
      mem_waiters_of_notGranted ha, ?_⟩,
    fun p k rest r u v w c s hi hd ho hh ha hw hv he => exec_packetPass (packetPass_begins hi hd ho hh ha hw (hv ▸ he)),
    fun p y s hr hy hd ho => exec_recirculation (recirculation_due hr hy hd ho),
    fun p y s hr => exec_recirculation (recirculation_replayFirst hr),
    fun k ok x s hx hc => exec_frameCheck (frameCheck_again ok hx hc),
    fun k x s hx hc hl => exec_frameCheck (frameCheck_good hx hc hl),
    fun k x s hx hc hs => exec_frameCheck ((frameCheck_bad hx hc).trans (by rw [if_pos hs])),
    fun k x s hx hc hs => exec_frameCheck ((frameCheck_bad hx hc).trans (by rw [if_neg (by simp [hs])])),
    fun k x c l s hx hc hl => exec_frameCheck (frameCheck_deferred hx hc hl)⟩
  · subst hx
    refine congrArg _ ((frameReceive_intake bs hu hd).trans ((intakeFrame_dropped rfl hb).trans ?_))
    exact if_neg (Bool.eq_false_iff.mp hl)
  · subst hx
    exact congrArg _ ((frameReceive_intake bs hu hd).trans ((intakeFrame_dropped rfl hb).trans (if_pos hl)))
  · subst hx
    refine ⟨_, congrArg Host.Outcome.next ((frameReceive_intake bs hu hd).trans (intakeFrame_taken hb)), ?_, ?_, rfl, rfl, rfl⟩
    · rw [holdCheck_pkts]
      rfl
    · rw [holdCheck_intake, pipe_modPipe]
      rfl
  · rw [noteFull_counts hf ht hn h0, pipe_modPipe]
    exact ⟨rfl, rfl⟩
  · exact (congrArg (fun r => r.2.pipes) ha).symm.trans (askCells_pipes _ _ _)

end Sys2Proof.Proofs
end

section
/-! The bytes of a time stamp in a descriptor (R63). -/

namespace Sys2Proof.Proofs

open Sys2Proof.Machine Sys2Proof.Laws

/-- A little-endian number between other bytes is read back where it stands. -/
theorem ofLe_takeBytes_middle (a c : List Byte) (n x : Nat) :
    ofLe (takeBytes (a ++ leBytes n x ++ c) a.length n) = x % 2 ^ (8 * n) := by
  have h : takeBytes (a ++ leBytes n x ++ c) a.length n = leBytes n x := by simp [takeBytes]
  rw [h, ofLe_leBytes, Nat.pow_mul]

/-- Settles O44: the three numbers stand one after another, each little-endian; the stamp's nanoseconds are the counter's. -/
theorem stampLayout : Obligations.StampLayout :=
  ⟨fun _ => rfl, fun t => ⟨ofLe_takeBytes_middle [] (leBytes 4 t.ns ++ leBytes 6 t.sec) 2 t.frac,
    ofLe_takeBytes_middle (leBytes 2 t.frac) (leBytes 6 t.sec) 4 t.ns,
    ofLe_takeBytes_middle (leBytes 2 t.frac ++ leBytes 4 t.ns) [] 6 t.sec⟩, fun _ h => h⟩

end Sys2Proof.Proofs
end

section
/-! What the device writes on a ring, and how a command completes (R46, R48, R53, R54, R61). -/

namespace Sys2Proof.Proofs

open Sys2Proof.Machine Sys2Proof.Laws

/-! ### The host interface's indexed parts depend on their maps alone -/

theorem ring_congr {s t : State} (h : t.hif.rings = s.hif.rings) (g : Nat) : ring t g = ring s g := by
  unfold ring
  rw [h]

theorem pairOf_congr {s t : State} (h : t.hif.rings = s.hif.rings) (g : Nat) : pairOf t g = pairOf s g := by
  unfold pairOf
  rw [ring_congr h]

theorem linkSt_congr {s t : State} (ha : t.hif.a = s.hif.a) (hb : t.hif.b = s.hif.b) (l : Link) : linkSt t l = linkSt s l := by
  cases l
  · exact ha
  · exact hb

/-! ### A descriptor and the producer index that covers it (R46, R48, R53) -/

/-- The place of a device-written ring's index in its link's status page (R48). -/
def statusSlot (s : State) (g : Nat) : Nat := pageAddr s (ringLink s g) 2 + 4096 + 8 * ringSlot g

theorem statusSlot_congr {s t : State} (h : t.regs = s.regs) (h2 : t.hif.bifurcated = s.hif.bifurcated) (g : Nat) :
    statusSlot t g = statusSlot s g := by
  unfold statusSlot
  rw [ringLink_congr h h2, pageAddr_congr h]

theorem statusWrite_device {g : Nat} (idx : Nat) {s : State} (hd : driverWritten g = false)
    (ho : (linkSt s (ringLink s g)).statOk = true) : statusWrite g idx s = hostWr (statusSlot s g) (leBytes 8 idx) s := by
  simp [statusWrite, ho, hd, statusSlot]

/-- The index of a ring is written in host memory, or not at all. -/
theorem statusWrite_frame (g idx : Nat) (s : State) : statusWrite g idx s = { s with host := (statusWrite g idx s).host } := by
  unfold statusWrite
  dsimp only
  split <;> rfl

@[simp] theorem statusWrite_hif (g idx : Nat) (s : State) : (statusWrite g idx s).hif = s.hif := by
  rw [statusWrite_frame]

theorem writeDesc_ring (g : Nat) (bs : List Byte) (s : State) :
    ring (writeDesc g bs s) g = { ring s g with prod := (ring s g).prod + 1 } := ring_modRing _ _ _

theorem devWrite_ring (g : Nat) (bs : List Byte) (s : State) :
    ∃ u v, ring (devWrite g bs s) g = { ring s g with prod := (ring s g).prod + 1, unsig := u, unsigSince := v } := by
  unfold devWrite publish
  dsimp only
  rw [ring_modRing, ring_congr (congrArg Hif.rings (statusWrite_hif g _ _)), writeDesc_ring]
  exact ⟨_, _, rfl⟩

theorem devWrite_ring_ne {g k : Nat} (h : k ≠ g) (bs : List Byte) (s : State) : ring (devWrite g bs s) k = ring s k := by
  unfold devWrite publish
  dsimp only
  rw [ring_modRing_ne h.symm, ring_congr (congrArg Hif.rings (statusWrite_hif g _ _)), writeDesc, ring_modRing_ne h.symm]
  rfl

/-- The descriptor is written first, then the index that covers it. -/
theorem devWrite_host {g : Nat} (bs : List Byte) {s : State} (hd : driverWritten g = false)
    (ho : (linkSt s (ringLink s g)).statOk = true) : (devWrite g bs s).host
      = wrBytes (wrBytes s.host (entryAddr (ring s g) (ring s g).prod) (takeBytes bs 0 64)) (statusSlot s g)
          (leBytes 8 ((ring s g).prod + 1)) := by
  have hl : ringLink (writeDesc g bs s) g = ringLink s g := ringLink_congr rfl rfl g
  have hs : linkSt (writeDesc g bs s) (ringLink s g) = linkSt s (ringLink s g) := linkSt_congr rfl rfl _
  have hp : statusSlot (writeDesc g bs s) g = statusSlot s g := statusSlot_congr rfl rfl g
  unfold devWrite publish
  dsimp only
  rw [modRing_host, statusWrite_device _ hd (by rw [hl, hs, ho]), hp, writeDesc_ring]
  rfl

theorem devWrite_frame (g : Nat) (bs : List Byte) (s : State) : devWrite g bs s
    = { s with host := (devWrite g bs s).host, hif := { s.hif with rings := (devWrite g bs s).hif.rings } } := by
  unfold devWrite publish
  dsimp only
  rw [statusWrite_frame]
  rfl

/-! ### Completions (R47, R54, R61) -/

/-- The ring that a command ring's completions go to is a completion ring. -/
theorem pairOf_kind {s : State} {g : Nat} (h : (ring s g).pair < 64) : ringKind (pairOf s g) = .cpl := by
  unfold ringKind pairOf
  rw [if_neg (by omega), if_pos (by omega)]

/-- No event ring's newest descriptor waits for its producer index, so a completion has none to write before it. -/
theorem publishOf_none {s : State} (h : ∀ k, k < 16 → (ring s (128 + k)).newest = none) (a : Nat × Nat) : publishOf a s = s := by
  unfold publishOf
  refine each_inv _ (fun t => t = s) _ s (fun k hk t ht => ?_) rfl
  subst ht
  rw [h k (List.mem_range.mp hk)]

theorem putCompletion_written {c : Nat} {s : State} (he : (ring s c).enabled = true) (hf : ringFull (ring s c) = false)
    (hh : (ring s c).held = []) (hn : ∀ k, k < 16 → (ring s (128 + k)).newest = none) (bs : List Byte) :
    putCompletion c bs s = devWrite c bs s := by
  simp [putCompletion, he, hf, hh, cplWrite, publishOf_none hn]

/-- A command leaves flight, and the end of a long one is counted as aborted or as too late to abort (R444). -/
def leaveFlight (a : Nat × Nat) (e : InFlight) (status : Nat) (s : State) : State :=
  let s := dropInflight a s
  if cmdLong e.cmd then
    (if status = 1 then cntInc 0x0C81 0 14 s
     else if e.abort && cmdLong e.cmd && decide (status = 0) then cntInc 0x0C81 0 15 s else s)
  else s

theorem leaveFlight_frame (a : Nat × Nat) (e : InFlight) (status : Nat) (s : State) :
    leaveFlight a e status s = { s with hif := (dropInflight a s).hif, cnt := (leaveFlight a e status s).cnt } := by
  unfold leaveFlight
  dsimp only
  split
  · split
    · rfl
    · split <;> rfl
  · rfl

theorem leaveFlight_host (a : Nat × Nat) (e : InFlight) (status : Nat) (s : State) : (leaveFlight a e status s).host = s.host := by
  rw [leaveFlight_frame]

theorem leaveFlight_rings (a : Nat × Nat) (e : InFlight) (status : Nat) (s : State) :
    (leaveFlight a e status s).hif.rings = s.hif.rings := by
  rw [leaveFlight_frame]
  rfl

theorem inflight_dropInflight (a : Nat × Nat) (s : State) : inflight (dropInflight a s) a = none := by
  unfold inflight dropInflight modHif
  simp [List.find?_eq_none, imp_iff_not_or]

/-- A completion descriptor's bytes of a command that ends (R61). -/
def completionOf (a : Nat × Nat) (e : InFlight) (status progress res0 res1 : Nat) (s : State) : List Byte :=
  cplDesc ((opcodeOf e.cmd).getD 0) status (b2n (e.abort && cmdLong e.cmd && decide (status = 0)) + 2 * b2n e.evt + 4)
    (cmdFlags e.cmd).2.2 a.1 a.2 progress (stampNow s) (res0 % 2 ^ 64 + res1 % 2 ^ 64 * 2 ^ 64)

theorem finish_eq {a : Nat × Nat} {e : InFlight} {s : State} (h : inflight s a = some e) (st p r0 r1 : Nat) :
    finish a st p r0 r1 s = { (if (cmdFlags e.cmd).2.1 && decide (st = 0) then leaveFlight a e st s
      else putCompletion (pairOf (leaveFlight a e st s) a.1) (completionOf a e st p r0 r1 (leaveFlight a e st s))
        (leaveFlight a e st s)) with actor := none } := by
  unfold finish
  rw [h]
  rfl

/-- What of the state beside the command's flight its completion reads, leaving flight keeps. -/
theorem leaveFlight_linkSt (a : Nat × Nat) (e : InFlight) (st : Nat) (s : State) (l : Link) :
    linkSt (leaveFlight a e st s) l = linkSt s l := by
  rw [leaveFlight_frame]
  cases l <;> rfl

theorem leaveFlight_ring (a : Nat × Nat) (e : InFlight) (st : Nat) (s : State) (g : Nat) :
    ring (leaveFlight a e st s) g = ring s g := ring_congr (leaveFlight_rings a e st s) g

theorem leaveFlight_inflight (a : Nat × Nat) (e : InFlight) (st : Nat) (s : State) : inflight (leaveFlight a e st s) a = none := by
  rw [leaveFlight_frame]
  exact inflight_dropInflight a s

/-- A completion that its ring can take is written on it. -/
theorem finish_written {g i : Nat} {e : InFlight} {s : State} (h : inflight s (g, i) = some e) (hc : (cmdFlags e.cmd).2.1 = false)
    (hn : ∀ k, k < 16 → (ring s (128 + k)).newest = none) (he : (ring s (pairOf s g)).enabled = true)
    (hf : ringFull (ring s (pairOf s g)) = false) (hh : (ring s (pairOf s g)).held = []) (st p r0 r1 : Nat) :
    finish (g, i) st p r0 r1 s = { devWrite (pairOf s g) (completionOf (g, i) e st p r0 r1 s) (leaveFlight (g, i) e st s) with
      actor := none } := by
  have hr := leaveFlight_ring (g, i) e st s
  have hp : pairOf (leaveFlight (g, i) e st s) g = pairOf s g := pairOf_congr (leaveFlight_rings _ _ _ _) g
  have hs : completionOf (g, i) e st p r0 r1 (leaveFlight (g, i) e st s) = completionOf (g, i) e st p r0 r1 s := by
    rw [leaveFlight_frame]
    rfl
  rw [finish_eq h, hc, Bool.false_and, if_neg Bool.false_ne_true, hp, hs,
    putCompletion_written (by rw [hr, he]) (by rw [hr, hf]) (by rw [hr, hh]) (fun k hk => by rw [hr, hn k hk])]

theorem finish_silent {g i : Nat} {e : InFlight} {s : State} (h : inflight s (g, i) = some e) (hc : (cmdFlags e.cmd).2.1 = true)
    (p r0 r1 : Nat) : finish (g, i) 0 p r0 r1 s = { leaveFlight (g, i) e 0 s with actor := none } := by
  rw [finish_eq h, hc]
  rfl

/-- Settles O9: the command leaves flight, and its completion is a descriptor that the device writes. -/
theorem completionWritten : Obligations.CompletionWritten := by
  refine ⟨fun g i st p r0 r1 e s h hp hc hn he hf hh ho => ?_, fun g i p r0 r1 e s h hc => ?_⟩
  · have hd : driverWritten (pairOf s g) = false := by
      unfold driverWritten
      rw [pairOf_kind hp]
    have hfr := leaveFlight_frame (g, i) e st s
    have hl : ringLink (leaveFlight (g, i) e st s) (pairOf s g) = ringLink s (pairOf s g) := by
      rw [hfr]
      exact ringLink_congr rfl rfl _
    have hs : statusSlot (leaveFlight (g, i) e st s) (pairOf s g) = statusSlot s (pairOf s g) := by
      rw [hfr]
      exact statusSlot_congr rfl rfl _
    rw [finish_written h hc hn he hf hh]
    refine ⟨?_, ?_, fun k hk => ?_, ?_, ?_⟩
    · refine (devWrite_host _ hd (by rw [hl, leaveFlight_linkSt, ho])).trans ?_
      rw [leaveFlight_ring, hs, leaveFlight_host]
      rfl
    · obtain ⟨u, v, hw⟩ := devWrite_ring (pairOf s g) (completionOf (g, i) e st p r0 r1 s) (leaveFlight (g, i) e st s)
      exact (congrArg Ring.prod hw).trans (congrArg (·.prod + 1) (leaveFlight_ring ..))
    · exact (devWrite_ring_ne hk _ _).trans (leaveFlight_ring ..)
    · rw [devWrite_frame]
      exact leaveFlight_inflight (g, i) e st s
    · rw [devWrite_frame, hfr]
  · rw [finish_silent h hc]
    exact ⟨leaveFlight_host _ _ _ _, leaveFlight_ring _ _ _ _, leaveFlight_inflight _ _ _ _⟩

end Sys2Proof.Proofs
end

section
/-! Frames of the host-ring rows, the ring, pool, table and counter commands and the forwarding rows: the parts each row can write
are read off its own lemma (exec<Name>_keeps). -/

namespace Sys2Proof.Proofs

open Sys2Proof.Machine Sys2Proof.Laws

/-- A row whose own lemma (exec<Name>_keeps) lets it write the parts of m leaves all others. -/
theorem leaves_of_execKeeps {i : Instr} {f : State → State → State} (m : Nat) (hf : ∀ s t, mix m s t = f s t)
    (k : ∀ {P : State → Prop}, Allows P m → ∀ s, P s → ∀ t, exec i s = .next t → P t) : leaves i f :=
  leaves_of_keeps m hf fun s t e => k (Only.allows m s) s (Only.refl m s) t e

/-- The parts a command's completion can write. -/
abbrev completionParts : Nat := 6416

/-- The parts the end of a punted frame can write beside an event's. -/
abbrev puntParts : Nat := 10355751200

/-- The parts a command that may raise an event can write. -/
abbrev commandParts : Nat := 10334771504

/-- The parts a read of a table can write. -/
abbrev tableReadParts : Nat := 10334771512

/-- The parts a write of a table can write. -/
abbrev tableWriteParts : Nat := 10355841848

/-- The parts a decision about an L2 entry can write. -/
abbrev l2Parts : Nat := 10334837544

/-- The parts a read of device memory can write. -/
abbrev memReadParts : Nat := 10401880368

/-- Settles O48: what each row's own lemma says it can write. -/
theorem frameHostRings : Obligations.FrameHostRings := by
  refine ⟨⟨?heartbeat, ?pollRead, ?poolEntryRead, ?eventProducerWrite⟩, ⟨?pollData, ?puntBufferGrant, ?puntPoolTimeout⟩,
    ⟨?msixMessage, ?pePerstRelease, ?pcieLinkUp⟩, ⟨?nop, ?ringSetQuery, ?ringSetMove, ?poolSetQuery, ?abort, ?fence⟩,
    ⟨?ringSetEnable, ?ringSetDisable⟩, ⟨?poolSetFlush, ?memWrite⟩, ⟨?memRead, ?checkScan⟩, ?longCommandStep, ?heldCommandStart,
    ?injectPort, ?injectPipe⟩
  case heartbeat => exact leaves_of_execKeeps 4352 (fun _ _ => rfl) fun A => execHeartbeat_keeps A rfl
  case pollRead => exact fun l p b v => leaves_of_execKeeps 4352 (fun _ _ => rfl) fun A => execPollRead_keeps A rfl l p b v
  case poolEntryRead => exact fun p => leaves_of_execKeeps 4352 (fun _ _ => rfl) fun A => execPoolEntryRead_keeps A rfl p
  case eventProducerWrite => exact fun g => leaves_of_execKeeps 4352 (fun _ _ => rfl) fun A => execEventProducerWrite_keeps A rfl g
  case pollData => exact fun l p b => leaves_of_execKeeps puntParts (fun _ _ => rfl) fun A => execPollData_keeps A rfl l p b
  case puntBufferGrant => exact fun p => leaves_of_execKeeps puntParts (fun _ _ => rfl) fun A => execPuntBufferGrant_keeps A rfl p
  case puntPoolTimeout => exact fun p => leaves_of_execKeeps puntParts (fun _ _ => rfl) fun A => execPuntPoolTimeout_keeps A rfl p
  case msixMessage => exact fun l v u => leaves_of_execKeeps 4096 (fun _ _ => rfl) fun A => execMsixMessage_keeps A rfl l v u
  case pePerstRelease => exact leaves_of_execKeeps 4096 (fun _ _ => rfl) fun A => execPePerstRelease_keeps A rfl
  case pcieLinkUp => exact fun l r => leaves_of_execKeeps 4096 (fun _ _ => rfl) fun A => execPcieLinkUp_keeps A rfl l r
  case nop => exact fun h => leaves_of_execKeeps completionParts (fun _ _ => rfl) fun A => execNop_keeps A rfl h
  case ringSetQuery =>
    exact fun h g => leaves_of_execKeeps completionParts (fun _ _ => rfl) fun A => execRingSetQuery_keeps A rfl h g
  case ringSetMove =>
    exact fun h g n b => leaves_of_execKeeps completionParts (fun _ _ => rfl) fun A => execRingSetMove_keeps A rfl h g n b
  case poolSetQuery =>
    exact fun h p => leaves_of_execKeeps completionParts (fun _ _ => rfl) fun A => execPoolSetQuery_keeps A rfl h p
  case abort => exact fun h g i => leaves_of_execKeeps completionParts (fun _ _ => rfl) fun A => execAbort_keeps A rfl h g i
  case fence => exact fun h => leaves_of_execKeeps completionParts (fun _ _ => rfl) fun A => execFence_keeps A rfl h
  case ringSetEnable =>
    exact fun h g => leaves_of_execKeeps (puntParts + 16) (fun _ _ => rfl) fun A => execRingSetEnable_keeps A rfl h g
  case ringSetDisable =>
    exact fun h g => leaves_of_execKeeps (puntParts + 16) (fun _ _ => rfl) fun A => execRingSetDisable_keeps A rfl h g
  case poolSetFlush =>
    exact fun h p a => leaves_of_execKeeps commandParts (fun _ _ => rfl) fun A => execPoolSetFlush_keeps A rfl h p a
  case memWrite => exact fun h m => leaves_of_execKeeps commandParts (fun _ _ => rfl) fun A => execMemWrite_keeps A rfl h m
  case memRead => exact fun h m => leaves_of_execKeeps memReadParts (fun _ _ => rfl) fun A => execMemRead_keeps A rfl h m
  case checkScan => exact fun h m => leaves_of_execKeeps memReadParts (fun _ _ => rfl) fun A => execCheckScan_keeps A rfl h m
  case longCommandStep =>
    exact fun g i => leaves_of_execKeeps 10433838904 (fun _ _ => rfl) fun A => execLongCommandStep_keeps A rfl g i
  case heldCommandStart =>
    exact fun g i => leaves_of_execKeeps 14762360632 (fun _ _ => rfl) fun A => execHeldCommandStart_keeps A rfl g i
  case injectPort => exact fun d => leaves_of_execKeeps 10347378976 (fun _ _ => rfl) fun A => execInjectPort_keeps A rfl d
  case injectPipe => exact fun d => leaves_of_execKeeps 10351835424 (fun _ _ => rfl) fun A => execInjectPipe_keeps A rfl d

/-- Settles O49: what each row's own lemma says it can write. -/
theorem frameTables : Obligations.FrameTables := by
  refine ⟨⟨?tableWrite, ?digestSet, ?g3TableWrite⟩, ⟨?tableRead, ?tableBulkRead, ?tableScan, ?g3TableRead⟩,
    ⟨?tableBulkWrite, ?g3CounterRead⟩, ?epochFlip, ?counterRead, ?counterClear, ?g3Nop, ⟨?learnRequest, ?hitNotice, ?l2AgeVisit⟩,
    ?l2Broadcast, ?l2Delete, ?shadowCompare, ?matchBankUnitWrite, ?matchBankScrub⟩
  case tableWrite => exact fun h t => leaves_of_execKeeps tableWriteParts (fun _ _ => rfl) fun A => execTableWrite_keeps A rfl h t
  case digestSet => exact fun h t => leaves_of_execKeeps tableWriteParts (fun _ _ => rfl) fun A => execDigestSet_keeps A rfl h t
  case g3TableWrite =>
    exact fun h b => leaves_of_execKeeps tableWriteParts (fun _ _ => rfl) fun A => execG3TableWrite_keeps A rfl h b
  case tableRead => exact fun h t => leaves_of_execKeeps tableReadParts (fun _ _ => rfl) fun A => execTableRead_keeps A rfl h t
  case tableBulkRead =>
    exact fun h t => leaves_of_execKeeps tableReadParts (fun _ _ => rfl) fun A => execTableBulkRead_keeps A rfl h t
  case tableScan => exact fun h t => leaves_of_execKeeps tableReadParts (fun _ _ => rfl) fun A => execTableScan_keeps A rfl h t
  case g3TableRead => exact fun h b => leaves_of_execKeeps tableReadParts (fun _ _ => rfl) fun A => execG3TableRead_keeps A rfl h b
  case tableBulkWrite =>
    exact fun h t => leaves_of_execKeeps commandParts (fun _ _ => rfl) fun A => execTableBulkWrite_keeps A rfl h t
  case g3CounterRead =>
    exact fun h b => leaves_of_execKeeps commandParts (fun _ _ => rfl) fun A => execG3CounterRead_keeps A rfl h b
  case epochFlip => exact fun h t => leaves_of_execKeeps 10334804272 (fun _ _ => rfl) fun A => execEpochFlip_keeps A rfl h t
  case counterRead => exact fun h t => leaves_of_execKeeps 10439891256 (fun _ _ => rfl) fun A => execCounterRead_keeps A rfl h t
  case counterClear => exact fun h t => leaves_of_execKeeps 105126160 (fun _ _ => rfl) fun A => execCounterClear_keeps A rfl h t
  case g3Nop => exact fun h => leaves_of_execKeeps completionParts (fun _ _ => rfl) fun A => execG3Nop_keeps A rfl h
  case learnRequest => exact fun n => leaves_of_execKeeps l2Parts (fun _ _ => rfl) fun A => execLearnRequest_keeps A rfl n
  case hitNotice => exact fun n => leaves_of_execKeeps l2Parts (fun _ _ => rfl) fun A => execHitNotice_keeps A rfl n
  case l2AgeVisit => exact fun n => leaves_of_execKeeps l2Parts (fun _ _ => rfl) fun A => execL2AgeVisit_keeps A rfl n
  case l2Broadcast => exact fun d => leaves_of_execKeeps 66048 (fun _ _ => rfl) fun A => execL2Broadcast_keeps A rfl d
  case l2Delete => exact fun d => leaves_of_execKeeps 68096 (fun _ _ => rfl) fun A => execL2Delete_keeps A rfl d
  case shadowCompare =>
    exact fun d b => leaves_of_execKeeps 10334837024 (fun _ _ => rfl) fun A => execShadowCompare_keeps A rfl d b
  case matchBankUnitWrite =>
    exact fun p b r => leaves_of_execKeeps 39184 (fun _ _ => rfl) fun A => execMatchBankUnitWrite_keeps A rfl p b r
  case matchBankScrub =>
    exact fun p b a => leaves_of_execKeeps 10334804256 (fun _ _ => rfl) fun A => execMatchBankScrub_keeps A rfl p b a

end Sys2Proof.Proofs
end

section
/-! The PCIe function's release and training, the host-interface reset and the restart of a link (R38, R80, R81, R510). -/

namespace Sys2Proof.Proofs

open Sys2Proof.Machine Sys2Proof.Laws

/-! ### Training (R38, R510) -/

theorem linkExists_iff (s : State) (l : Link) : linkExists s l = true ↔ l = .a ∨ s.hif.bifurcated = true := by
  simp [linkExists]

theorem pcieLinkUp_trains {l : Link} {rate : Nat} {s : State} (hp : s.hif.perst = true) (hr : s.pwr.phase ≠ .reset)
    (he : l = .a ∨ s.hif.bifurcated = true) (hn : rate < 3) :
    pcieLinkUp l rate s = modLink l (fun x => { x with up := true, rate := rate }) s := by
  have hm : Nat.min 2 rate = rate := Nat.min_eq_right (by omega)
  simp [pcieLinkUp, hp, hr, (linkExists_iff s l).mpr he, hm]

theorem linkSt_modLink (l : Link) (f : LinkState → LinkState) (s : State) : linkSt (modLink l f s) l = f (linkSt s l) := by
  cases l <;> rfl

theorem linkSt_modLink_ne {k l : Link} (h : k ≠ l) (f : LinkState → LinkState) (s : State) :
    linkSt (modLink l f s) k = linkSt s k := by
  match k, l, h with
  | .a, .b, _ => rfl
  | .b, .a, _ => rfl

theorem modLink_frame (l : Link) (f : LinkState → LinkState) (s : State) :
    modLink l f s = { s with hif := { s.hif with a := (modLink l f s).hif.a, b := (modLink l f s).hif.b } } := by
  cases l <;> rfl

/-! ### HIF_CTRL, one bit of a link written (R80, R81, R89) -/

/-- The bit of HIF_CTRL that resets a link. -/
def resetBit (l : Link) : Word := if l = .a then 4 else 8

/-- The bit of HIF_CTRL that restarts a link. -/
def restartBit (l : Link) : Word := if l = .a then 16 else 32

theorem busWrite_resetBit {path : Path} {l : Link} (h : path = .linkB → l = .b) (s : State) :
    busWrite path .hifCtrl (resetBit l) s = resetLink l s := by
  cases l with
  | a => simp [busWrite, hifCtrlWrite, onBit, resetBit, show path ≠ .linkB from fun e => nomatch h e]
  | b => cases path <;> simp [busWrite, hifCtrlWrite, onBit, resetBit]

theorem busWrite_restartBit {path : Path} {l : Link} (h : path = .linkB → l = .b) (s : State) :
    busWrite path .hifCtrl (restartBit l) s = restartLink l s := by
  cases l with
  | a => simp [busWrite, hifCtrlWrite, onBit, restartBit, show path ≠ .linkB from fun e => nomatch h e]
  | b => cases path <;> simp [busWrite, hifCtrlWrite, onBit, restartBit]

/-- Through link B the restart bit of link A does nothing (R89). -/
theorem busWrite_restartBit_linkB (s : State) : busWrite .linkB .hifCtrl (restartBit .a) s = s := by
  simp [busWrite, hifCtrlWrite, onBit, restartBit]

/-! ### The reset (R80) -/

/-- A ring that does not run: disabled, with both indices at 0 and nothing held back. -/
structure RingStopped (r : Ring) : Prop where
  enabled : r.enabled = false
  prod : r.prod = 0
  cons : r.cons = 0
  held : r.held = []

/-- Changes of rings one by one that each leave their ring stopped leave them all so. -/
theorem each_modRing_stopped (l : List Nat) {f : Ring → Ring} (hf : ∀ r, RingStopped (f r)) (s : State) :
    ∀ g ∈ l, RingStopped (ring (each l (fun g t => modRing g f t) s) g) := by
  refine each_each _ (fun g t => RingStopped (ring t g)) l s (fun g _ t => ?_) (fun g _ k _ t ht => ?_)
  · rw [ring_modRing]
    exact hf _
  · by_cases h : k = g
    · rw [h, ring_modRing]
      exact hf _
    · rw [ring_modRing_ne h]
      exact ht

theorem hostReset_rings (l : Link) (s : State) : ∀ g ∈ linkRings s l, RingStopped (ring (hostReset l s) g) := by
  intro g hg
  unfold hostReset
  dsimp only
  rw [ring_modLink]
  exact each_modRing_stopped _ (fun r => ⟨rfl, rfl, rfl, rfl⟩) _ g hg

theorem hostReset_stopped (l : Link) (s : State) : (linkSt (hostReset l s) l).stopped = true := by
  unfold hostReset
  dsimp only
  rw [linkSt_modLink]

/-- A reset of a link that exists, by a Function Level Reset, a hot reset or its reset bit, is its host-interface reset. -/
theorem hostInterfaceReset_eq {l : Link} {cause : HirCause} {s : State} (he : l = .a ∨ s.hif.bifurcated = true)
    (h : cause = .flr ∨ cause = .hotReset
      ∨ ∃ path, cause = .resetBit path ∧ writable s path .hifCtrl ∧ (path = .linkB → l = .b)) :
    hostInterfaceReset l cause s = hostReset l s := by
  have hl : resetLink l s = hostReset l s := if_pos ((linkExists_iff s l).mpr he)
  rcases h with rfl | rfl | ⟨path, rfl, w, hb⟩
  · exact hl
  · exact hl
  · exact (regWrite_writable _ w).trans ((busWrite_resetBit hb s).trans hl)

/-! ### The restart (R81, log 101) -/

/-- A ring's slot of the status page is cleared, and the ring comes to its committed configuration. -/
def restartRing (g : Nat) (s : State) : State := configRing g (statusWrite g 0 s)

theorem configRing_disabled {s : State} {g : Nat} (h : cfgBit s (.hifRingCfg g) 31 = false) :
    configRing g s = modRing g (fun r => ringKept r (ringConfig s g)) s := by
  simp only [configRing, h, Bool.false_and, Bool.false_eq_true, if_false, ringConfig_disabled]

theorem restartRing_disabled {s : State} {g : Nat} (h : cfgBit s (.hifRingCfg g) 31 = false) :
    ∃ x, restartRing g s = modRing g (fun r => ringKept r (ringConfig s g)) { s with host := x } := by
  unfold restartRing
  rw [statusWrite_frame]
  generalize (statusWrite g 0 s).host = x
  exact ⟨x, configRing_disabled h⟩

/-- Rings and host memory written whole take the place of what was written before. -/
theorem setHostRings_modRing (h k : List Host.Cell) (m : Map Ring) (g : Nat) (f : Ring → Ring) (s : State) :
    { modRing g f { s with host := h } with host := k, hif := { (modRing g f { s with host := h }).hif with rings := m } }
      = { s with host := k, hif := { s.hif with rings := m } } := rfl

/-- With no ring enabled in the set-up, rings that restart come to their configuration; beside them only host memory changes. -/
theorem restartRings_disabled (l : List Nat) : ∀ s : State, (∀ g, cfgBit s (.hifRingCfg g) 31 = false) →
    ∃ m h, each l restartRing s = { s with host := h, hif := { s.hif with rings := m } }
      ∧ ∀ g, mget {} m g = if g ∈ l then ringKept (ring s g) (ringConfig s g) else ring s g := by
  induction l with
  | nil => exact fun s _ => ⟨s.hif.rings, s.host, rfl, fun g => by simp [ring]⟩
  | cons a r ih =>
    intro s h
    obtain ⟨x, ea⟩ := restartRing_disabled (h a)
    have hr : (restartRing a s).regs = s.regs := by rw [ea]; rfl
    have hg : ∀ g, ring (restartRing a s) g = ring (modRing a (fun r => ringKept r (ringConfig s a)) s) g :=
      ring_congr (by rw [ea]; rfl)
    obtain ⟨m, k, e, hm⟩ := ih (restartRing a s) fun g => (cfgBit_congr hr _ _).trans (h g)
    refine ⟨m, k, by rw [each_cons, e, ea, setHostRings_modRing], fun g => ?_⟩
    rw [hm, ringConfig_congr hr, hg]
    by_cases ha : a = g
    · subst ha
      rw [ring_modRing, ringKept_ringKept, ite_self, if_pos List.mem_cons_self]
    · rw [ring_modRing_ne ha]
      simp [Ne.symm ha]

theorem restartLink_running {l : Link} {s : State} (h : (linkSt s l).stopped = false) : restartLink l s = s := by
  simp [restartLink, h]

theorem restartLink_disabled {l : Link} {s : State} (he : l = .a ∨ s.hif.bifurcated = true) (hs : (linkSt s l).stopped = true)
    (hc : (linkSt s l).committed = true) (hh : ringsHeld s = false) (h : ∀ g, cfgBit s (.hifRingCfg g) 31 = false) :
    ∃ m k, restartLink l s = { modLink l (fun x => { x with stopped := false }) s with
        host := k, hif := { (modLink l (fun x => { x with stopped := false }) s).hif with rings := m } }
      ∧ ∀ g, g < 752 → mget {} m g = if ringLink s g = l then ringKept (ring s g) (ringConfig s g) else ring s g := by
  have hr := modLink_regs s l (fun x => { x with stopped := false })
  obtain ⟨m, k, e, hm⟩ := restartRings_disabled (linkRings s l) (modLink l (fun x => { x with stopped := false }) s)
    fun g => (cfgBit_congr hr _ _).trans (h g)
  refine ⟨m, k, ?_, fun g hg => ?_⟩
  · unfold restartLink
    rw [hs, (linkExists_iff s l).mpr he, hh]
    simp only [Bool.true_and, Bool.not_false, if_true, linkSt_modLink, hc, linkRings_modLink]
    exact e
  · simp only [hm, ringConfig_congr hr, ring_modLink, mem_linkRings hg]

/-! ### The claim -/

/-- Settles O6: a reset leaves what its parts leave and stops every ring; a restart configures each ring of the link. -/
theorem hostLinkRows : Obligations.HostLinkRows := by
  refine ⟨fun s => rfl, fun l rate s hp hr he hn => ?_, fun l cause s h he => ?_, fun path l s w hb he hs hc hh h => ?_,
    fun path l s w hs => ?_⟩
  · refine ⟨_, congrArg Host.Outcome.next (pcieLinkUp_trains hp hr he hn), linkSt_modLink _ _ _, fun k hk => linkSt_modLink_ne hk _ _,
      modLink_frame _ _ _⟩
  · have o := hostInterfaceReset_only l cause s
    have e := hostInterfaceReset_eq he h
    refine ⟨hostInterfaceReset l cause s, rfl, e ▸ hostReset_stopped l s, o.regs rfl, o.tmem rfl, o.tim rfl, o.fab rfl, o.lcs rfl,
      o.mem rfl, o.fwd rfl, o.cls rfl, fun g hg hl => ?_⟩
    obtain ⟨he, hp, hc, hd⟩ := hostReset_rings l s g ((mem_linkRings hg).mpr hl)
    rw [e]
    exact ⟨he, hp, hc, hd⟩
  · obtain ⟨m, k, e, hm⟩ := restartLink_disabled he hs hc hh h
    have x : exec (.ringRestart path l) s = .next (restartLink l s) :=
      congrArg _ ((regWrite_writable _ w).trans (busWrite_restartBit hb s))
    refine ⟨_, x, ?_, fun g hg => ?_, ?_⟩ <;> rw [e]
    · cases l <;> rfl
    · exact hm g hg
    · cases l <;> rfl
  · refine congrArg Host.Outcome.next ((regWrite_writable _ w).trans ?_)
    by_cases hb : path = .linkB → l = .b
    · exact (busWrite_restartBit hb s).trans (restartLink_running hs)
    · obtain ⟨rfl, hl⟩ := Classical.not_imp.mp hb
      cases l with
      | a => exact busWrite_restartBit_linkB s
      | b => exact absurd rfl hl

end Sys2Proof.Proofs
end

section
/-! Event producer writes and MSI-X messages (R70, R72, R93), and the punts a pool grants or that time out (R73, R77). -/

namespace Sys2Proof.Proofs

open Sys2Proof.Machine Sys2Proof.Laws

/-! ### Changes of several rings -/

/-- A change of rings one by one, twice of a ring being as once, changes the rings of the list and nothing else. -/
theorem each_modRing {f : Ring → Ring} (hf : ∀ r, f (f r) = f r) (l : List Nat) :
    ∀ s : State, ∃ m, each l (fun g t => modRing g f t) s = modHif (fun h => { h with rings := m }) s
      ∧ ∀ g, mget {} m g = if g ∈ l then f (ring s g) else ring s g := by
  induction l with
  | nil => exact fun s => ⟨s.hif.rings, rfl, fun g => by simp [ring]⟩
  | cons a r ih =>
    intro s
    obtain ⟨m, e, hm⟩ := ih (modRing a f s)
    refine ⟨m, by rw [each_cons, e, setRings_modRing], fun g => ?_⟩
    rw [hm]
    by_cases ha : a = g
    · subst ha
      rw [ring_modRing, hf, ite_self, if_pos List.mem_cons_self]
    · rw [ring_modRing_ne ha]
      simp [Ne.symm ha]

/-! ### The producer index of an event ring (R68, R70) -/

theorem srcMap_congr {s t : State} (h : t.regs = s.regs) (src : Nat) : srcMap t src = srcMap s src := by
  unfold srcMap
  simp only [cfgBit_congr h, cfg_congr h]

theorem vec_congr {s t : State} (h : t.hif.vecs = s.hif.vecs) (l : Link) (v : Nat) : vec t l v = vec s l v := by
  unfold vec
  rw [h]

/-- A ring whose newest event descriptor is covered by its producer index, one entry more being not yet signalled. -/
def eventCovered (now : Nat) (r : Ring) : Ring :=
  { r with newest := none, unsig := r.unsig + 1, unsigSince := if r.unsig = 0 then now else r.unsigSince }

/-- The index is written and the ring's newest descriptor is covered, whatever vector its source names. -/
def eventPublished (g : Nat) (s : State) : State :=
  modRing g (fun r => { r with newest := none }) (publish g 1 s)

theorem eventPublished_ring (g : Nat) (s : State) : ring (eventPublished g s) g = eventCovered s.now (ring s g) := by
  unfold eventPublished publish
  rw [ring_modRing, ring_modRing, ring_congr (congrArg Hif.rings (statusWrite_hif g _ s)), statusWrite_frame]
  rfl

theorem eventPublished_ring_ne {g k : Nat} (h : k ≠ g) (s : State) : ring (eventPublished g s) k = ring s k := by
  unfold eventPublished publish
  rw [ring_modRing_ne h.symm, ring_modRing_ne h.symm, ring_congr (congrArg Hif.rings (statusWrite_hif g _ s))]

theorem eventPublished_frame (g : Nat) (s : State) : eventPublished g s = { s with
    host := (statusWrite g (ring s g).prod s).host, hif := { s.hif with rings := (eventPublished g s).hif.rings } } := by
  unfold eventPublished publish
  rw [statusWrite_frame]
  rfl

theorem publishEvent_eq {g : Nat} {n : Newest} {s : State} (h : (ring s g).newest = some n) : publishEvent g s
    = match srcMap s n.ev.source with
      | some (_, v) => modVec (ringLink s g) v (fun x => { x with cause := true }) (eventPublished g s)
      | none => eventPublished g s := by
  have hr : (eventPublished g s).regs = s.regs := by rw [eventPublished_frame]
  have hb : (eventPublished g s).hif.bifurcated = s.hif.bifurcated := by rw [eventPublished_frame]
  unfold publishEvent
  rw [h, ← srcMap_congr hr, ← ringLink_congr hr hb]
  rfl

theorem publishEvent_ring {g : Nat} {n : Newest} {s : State} (h : (ring s g).newest = some n) (k : Nat) :
    ring (publishEvent g s) k = ring (eventPublished g s) k := by
  rw [publishEvent_eq h]
  split <;> rfl

/-- The vector that the source names is the only one that changes: its cause is pending. -/
theorem publishEvent_cause {g r v : Nat} {n : Newest} {s : State} (h : (ring s g).newest = some n)
    (hm : srcMap s n.ev.source = some (r, v)) : (vec (publishEvent g s) (ringLink s g) v).cause = true := by
  rw [publishEvent_eq h, hm]
  exact congrArg Vec.cause (vec_modVec _ _ _ _)

theorem publishEvent_frame {g : Nat} {n : Newest} {s : State} (h : (ring s g).newest = some n) : publishEvent g s = { s with
    host := (statusWrite g (ring s g).prod s).host
    hif := { s.hif with rings := (publishEvent g s).hif.rings, vecs := (publishEvent g s).hif.vecs } } := by
  rw [publishEvent_eq h]
  split
  · rw [eventPublished_frame]
    rfl
  · rw [eventPublished_frame]

theorem execEventProducerWrite_due {g : Nat} {n : Newest} {s : State} (h : (ring s g).newest = some n)
    (ht : n.at_ + 10 ^ 6 ≤ s.now) : exec (.eventProducerWrite g) s = .next (publishEvent g s) := by
  have e : execEventProducerWrite g s = .next (publishEvent g s) := by
    unfold execEventProducerWrite
    rw [h]
    exact congrArg _ (if_pos ht)
  exact e

/-! ### MSI-X messages (R39, R72, R93) -/

/-- A vector is past its holdoff (R93). -/
def pastHoldoff (s : State) (l : Link) (v : Nat) : Bool :=
  match (vec s l v).last with
  | some t => decide (t + holdoff s v ≤ s.now)
  | none => true

theorem pastHoldoff_of {s : State} {l : Link} {v : Nat} (h : ∀ u, (vec s l v).last = some u → u + holdoff s v ≤ s.now) :
    pastHoldoff s l v = true := by
  unfold pastHoldoff
  split
  · exact decide_eq_true (h _ ‹_›)
  · rfl

theorem sendMsix_vec (l : Link) (v : Nat) (s : State) : vec (sendMsix l v s) l v
    = { vec s l v with cause := false, pending := false, last := some s.now, sent := (vec s l v).sent + 1 } := vec_modVec _ _ _ _

/-- A vector with a pending cause, unmasked and past its holdoff, on a link that is up: its message, or its pending bit. -/
theorem msixMessage_eq (l : Link) (v : Nat) (um : Bool) (s : State) : msixMessage l v um s
    = if pastHoldoff s l v && ((vec s l v).cause || (vecRings s l v).any fun g => ringCause s g v) && (linkSt s l).up then
        (if um && !(vec s l v).masked then
          each (vecRings s l v) (fun g t => modRing g (fun r => { r with unsig := 0 }) t) (sendMsix l v s)
        else modVec l v (fun x => { x with pending := true }) s)
      else s := rfl

theorem msixMessage_sent {l : Link} {v : Nat} {s : State} (hu : (linkSt s l).up = true) (hc : (vec s l v).cause = true)
    (hm : (vec s l v).masked = false) (h : ∀ u, (vec s l v).last = some u → u + holdoff s v ≤ s.now) :
    msixMessage l v true s = each (vecRings s l v) (fun g t => modRing g (fun r => { r with unsig := 0 }) t) (sendMsix l v s) := by
  simp [msixMessage_eq, pastHoldoff_of h, hc, hu, hm]

theorem msixMessage_masked {l : Link} {v : Nat} {um : Bool} {s : State} (hu : (linkSt s l).up = true)
    (hc : (vec s l v).cause = true) (hm : um = false ∨ (vec s l v).masked = true)
    (h : ∀ u, (vec s l v).last = some u → u + holdoff s v ≤ s.now) :
    msixMessage l v um s = modVec l v (fun x => { x with pending := true }) s := by
  rcases hm with hm | hm <;> simp [msixMessage_eq, pastHoldoff_of h, hc, hu, hm]

/-! ### Punts (R73, R76, R77, R78) -/

theorem poolBufSize_congr {s t : State} (h : t.regs = s.regs) (p : Nat) : poolBufSize t p = poolBufSize s p := by
  unfold poolBufSize
  rw [cfg_congr h]

/-- One buffer is drawn when the oldest cached one passes its check. -/
theorem drawBufs_one {p a : Nat} {c : List Nat} {s : State} (hc : (pool s p).cache = a :: c)
    (ha : addrStatus s (poolLink s p) a (poolBufSize s p) 64 true = 0) :
    drawBufs p 1 (c.length + 1) [] s = ([a], modPool p (fun q => { q with cache := c }) s) := by
  have hs : addrStatus (modPool p (fun q => { q with cache := c }) s) (poolLink (modPool p (fun q => { q with cache := c }) s) p) a
      (poolBufSize (modPool p (fun q => { q with cache := c }) s) p) 64 true = 0 := by
    rw [addrStatus_congr rfl rfl, poolLink, ringLink_congr rfl rfl, poolBufSize_congr rfl]
    exact ha
  have hd : ∀ n u, drawBufs p 1 n [a] u = ([a], u) := by
    intro n u
    cases n <;> rfl
  unfold drawBufs drawBufs.pool'
  simp [hc, hs, hd]

/-- With no punt held, trying the held punts again does nothing. -/
theorem retryPunts_none {s : State} (h : s.hif.heldPunts = []) : retryPunts s = s := by
  have e : modHif (fun k => { k with heldPunts := [] }) s = s := by
    unfold modHif
    rw [← h]
  unfold retryPunts
  rw [h]
  exact e

/-- A place reserved on a ring is given back, as its descriptor is written. -/
def unreserve (r : Ring) : Ring := { r with reserved := r.reserved - 1 }

theorem puntWrite_one {p a : Nat} {u : Punt} {s : State} (h : u.data.length ≤ poolBufSize s p) : puntWrite p u [a] s
    = puntDone u (devWrite (144 + u.ring) (puntDesc u u.data.length u.flags p a 0)
        (modRing (144 + u.ring) unreserve (hostWr a u.data s))) := by
  have hm : Nat.min u.data.length (poolBufSize s p) = u.data.length := Nat.min_eq_left h
  have ht : u.data.take u.data.length = u.data := List.take_length
  simp [puntWrite, puntFlags, hm, ht, nth]
  rfl

/-- A punt's descriptor is written in the place reserved for it, as the ring's next entry. What ends the punt, with events that
no ring takes, leaves the ring, the pools and host memory. -/
theorem punt_written {g : Nat} (bs : List Byte) {s t : State} {ends : State → State} (hk : ¬(128 ≤ g ∧ g < 144))
    (hd : driverWritten g = false) (ho : (linkSt s (ringLink s g)).statOk = true) (hs : ∀ src, srcMap s src = none)
    (hh : s.hif.heldPunts = []) (hr : t.regs = s.regs) (hf : t.hif = { s.hif with rings := t.hif.rings, pools := t.hif.pools })
    (hg : ring t g = ring s g) (he : ∀ d, (∀ src, srcMap d src = none) → HifFrame d (ends d) ∧ Unmapped d (ends d)) :
    let e := ends (devWrite g bs (modRing g unreserve t))
    e.hif.heldPunts = []
      ∧ e.host = wrBytes (wrBytes t.host (entryAddr (ring s g) (ring s g).prod) (takeBytes bs 0 64)) (statusSlot s g)
          (leBytes 8 ((ring s g).prod + 1))
      ∧ (ring e g).prod = (ring s g).prod + 1 ∧ ∀ p, pool e p = pool t p := by
  have hb : t.hif.bifurcated = s.hif.bifurcated := by rw [hf]
  have hl : linkSt (modRing g unreserve t) (ringLink (modRing g unreserve t) g) = linkSt s (ringLink s g) := by
    rw [ringLink_congr (s := s) (t := modRing g unreserve t) hr hb]
    exact linkSt_congr (show t.hif.a = _ by rw [hf]) (show t.hif.b = _ by rw [hf]) _
  have hw := devWrite_frame g bs (modRing g unreserve t)
  obtain ⟨H, K⟩ := he (devWrite g bs (modRing g unreserve t)) fun src => (srcMap_congr (by rw [hw]; exact hr) src).trans (hs src)
  refine ⟨?_, K.host.trans ?_, ?_, fun p => ?_⟩
  · rw [H.hif, hw]
    show t.hif.heldPunts = []
    rw [hf, hh]
  · rw [devWrite_host bs hd (hl ▸ ho), ring_modRing, statusSlot_congr (s := s) (t := modRing g unreserve t) hr hb, hg]
    rfl
  · obtain ⟨u, v, e⟩ := devWrite_ring g bs (modRing g unreserve t)
    rw [H.rings g hk, e, ring_modRing, hg]
    rfl
  · unfold pool
    rw [H.hif, hw]
    rfl

theorem refillCheck_pool (p : Nat) (s : State) : ∃ b, pool (refillCheck p s) p = { pool s p with refill := b } :=
  ⟨_, pool_modPool _ _ _⟩

theorem popPunt_modPool_frame (p : Nat) (f : Pool → Pool) (s : State) : popPunt p (modPool p f s)
    = { s with hif := { s.hif with pools := (popPunt p (modPool p f s)).hif.pools } } := rfl

theorem modPool_popPunt_frame (p : Nat) (f : Pool → Pool) (s : State) : modPool p f (popPunt p s)
    = { s with hif := { s.hif with pools := (modPool p f (popPunt p s)).hif.pools } } := rfl

theorem puntRing_kind {k : Nat} (h : k < 256) : ringKind (144 + k) = .pnt := by
  unfold ringKind
  rw [if_neg (by omega), if_neg (by omega), if_neg (by omega), if_pos (by omega)]

theorem puntRing_device {k : Nat} (h : k < 256) : driverWritten (144 + k) = false := by
  unfold driverWritten
  rw [puntRing_kind h]

theorem puntBufferGrant_one {p a : Nat} {u : Punt} {rest : List Punt} {c : List Nat} {s : State}
    (hw : (pool s p).wait = u :: rest) (hc : (pool s p).cache = a :: c) (hd : u.drawn = [])
    (he : (ring s (144 + u.ring)).enabled = true) (hl : u.data.length ≤ poolBufSize s p)
    (ha : addrStatus s (poolLink s p) a (poolBufSize s p) 64 true = 0) : puntBufferGrant p s
      = retryPunts (refillCheck p (puntWrite p u [a] (popPunt p (modPool p (fun q => { q with cache := c }) s)))) := by
  have hb : bufsNeeded s p u = 1 := if_neg (Nat.not_lt.mpr hl)
  have hdraw := drawBufs_one hc ha
  unfold puntBufferGrant
  simp only [hw, he, hb, hc, hd, List.length_cons, List.length_nil, hdraw]
  simp

/-- A punt that timed out is counted and reported, and ends (R77). -/
def puntTimedOut (p g : Nat) (l : Link) (u : Punt) (s : State) : State :=
  puntDone u (raise (hifSrc l) evHifPoolTimeout p g 0 0 (hifCnt l 3 s))

theorem puntTimedOut_leaves (p g : Nat) (l : Link) (u : Punt) {d : State} (h : ∀ src, srcMap d src = none) :
    HifFrame d (puntTimedOut p g l u d) ∧ Unmapped d (puntTimedOut p g l u d) := by
  have H : HifFrame d (hifCnt l 3 d) := (HifFrame.refl d).of rfl
  have K : Unmapped d (hifCnt l 3 d) := ⟨h, rfl, rfl⟩
  exact ⟨(H.raise _ _ _ _ _ _).puntDone u, (K.raise _ _ _ _ _ _).puntDone u⟩

/-- The timeout of a punt of an enabled ring, which has no NOBUF flag yet. -/
theorem puntPoolTimeout_over {p : Nat} {u : Punt} {rest : List Punt} {s : State} (hw : (pool s p).wait = u :: rest)
    (hc : cfgBit s (.hifPoolTmo p) 31 = true) (ht : u.since + cfg s (.hifPoolTmo p) 19 0 * 10 ^ 6 < s.now)
    (he : (ring s (144 + u.ring)).enabled = true) (hf : bit u.flags 1 = false) : puntPoolTimeout p s
      = retryPunts (puntTimedOut p (144 + u.ring) (ringLink s (144 + u.ring)) u
          (devWrite (144 + u.ring) (puntDesc u 0 (u.flags + 2) p 0 0)
            (modRing (144 + u.ring) unreserve (modPool p (fun q => { q with cache := q.cache ++ u.drawn }) (popPunt p s))))) := by
  unfold puntPoolTimeout
  simp only [hw, hc, ht, he, hf, decide_true, Bool.and_true, if_true, Bool.false_eq_true, if_false]
  rfl

/-! ### The claim -/

/-- Settles O8: a punt is written by one descriptor, and what ends it leaves its ring, its pool and host memory. -/
theorem eventsAndPunts : Obligations.EventsAndPunts := by
  refine ⟨fun g n s h ht => ?_, fun l v s hu hc hm h => ?_, fun l v um s hu hc hm h => ?_,
    fun p u rest a c s hw hc hd hr he hl ha hh hs ho => ?_, fun p u rest s hw hc hr ht he hh hf hs ho => ?_⟩
  · refine ⟨_, execEventProducerWrite_due h ht, ?_, ?_, ?_, fun k hk => ?_, ?_, fun r v hm => publishEvent_cause h hm,
      ?_⟩
    · rw [publishEvent_ring h, eventPublished_ring]
      rfl
    · rw [publishEvent_ring h, eventPublished_ring]
      rfl
    · rw [publishEvent_ring h, eventPublished_ring]
      rfl
    · rw [publishEvent_ring h, eventPublished_ring_ne hk]
    · rw [publishEvent_frame h]
    · exact (publishEvent_frame h).trans (by rw [publishEvent_frame h])
  · obtain ⟨m, e, hr⟩ := each_modRing (f := fun r => { r with unsig := 0 }) (fun _ => rfl) (vecRings s l v) (sendMsix l v s)
    have hx := (msixMessage_sent hu hc hm h).trans e
    refine ⟨_, congrArg Host.Outcome.next hx, (vec_congr rfl l v).trans (sendMsix_vec l v s), rfl,
      fun g hg => ?_, fun g hg => ?_, rfl⟩
    · exact (congrArg Ring.unsig ((hr g).trans (if_pos hg)))
    · exact (hr g).trans (if_neg hg)
  · exact congrArg Host.Outcome.next (msixMessage_masked hu hc hm h)
  · have hx := puntBufferGrant_one hw hc hd he hl ha
    rw [puntWrite_one (show u.data.length ≤ poolBufSize (popPunt p (modPool p _ s)) p from hl)] at hx
    have hp : pool (popPunt p (modPool p (fun q => { q with cache := c }) s)) p = { pool s p with wait := rest, cache := c } := by
      simp [popPunt, hw]
    have ht := popPunt_modPool_frame p (fun q => { q with cache := c }) s
    generalize popPunt p (modPool p (fun q => { q with cache := c }) s) = t at hx hp ht
    obtain ⟨lh, lm, lr, lp⟩ := punt_written (puntDesc u u.data.length u.flags p a 0) (ends := puntDone u) (t := hostWr a u.data t)
      (by omega) (puntRing_device hr) ho hs hh (by rw [ht]; rfl) (by rw [ht]; rfl) (by rw [ht]; rfl)
      fun d h => ⟨(HifFrame.refl d).puntDone u, Unmapped.puntDone ⟨h, rfl, rfl⟩ u⟩
    generalize puntDone u (devWrite (144 + u.ring) (puntDesc u u.data.length u.flags p a 0)
      (modRing (144 + u.ring) unreserve (hostWr a u.data t))) = e at hx lh lm lr lp
    obtain ⟨b, hq⟩ := refillCheck_pool p e
    rw [lp, show pool (hostWr a u.data t) p = pool t p from rfl, hp] at hq
    rw [retryPunts_none (s := refillCheck p e) lh] at hx
    refine ⟨_, congrArg Host.Outcome.next hx, congrArg Pool.wait hq, congrArg Pool.cache hq, lr, lm.trans ?_⟩
    rw [ht]
    rfl
  · have hx := puntPoolTimeout_over hw hc ht he hf
    have hp : pool (modPool p (fun q => { q with cache := q.cache ++ u.drawn }) (popPunt p s)) p
        = { pool s p with wait := rest, cache := (pool s p).cache ++ u.drawn } := by
      simp [popPunt, hw]
    have ht := modPool_popPunt_frame p (fun q => { q with cache := q.cache ++ u.drawn }) s
    generalize modPool p (fun q => { q with cache := q.cache ++ u.drawn }) (popPunt p s) = t at hx hp ht
    obtain ⟨lh, lm, lr, lp⟩ := punt_written (puntDesc u 0 (u.flags + 2) p 0 0) (t := t)
      (ends := puntTimedOut p (144 + u.ring) (ringLink s (144 + u.ring)) u) (by omega) (puntRing_device hr) ho hs hh
      (by rw [ht]) (by rw [ht]) (by rw [ht]; rfl) fun d => puntTimedOut_leaves p _ _ u
    rw [retryPunts_none lh] at hx
    refine ⟨_, congrArg Host.Outcome.next hx, congrArg Pool.wait ((lp p).trans hp), congrArg Pool.cache ((lp p).trans hp), lr,
      lm.trans ?_⟩
    rw [ht]
    rfl

end Sys2Proof.Proofs
end

section
/-! The basic commands, RING_SET and POOL_SET, and the later moments of a command (R54, R55, R59, R60, R64, R79, R444). -/

namespace Sys2Proof.Proofs

open Sys2Proof.Machine Sys2Proof.Laws

/-! ### A command that is done at once -/

/-- A command whose run changes nothing leaves its completion only. -/
theorem command_doneAt {s : State} {i : Instr} {g : Nat} (b : begins s i g) {run : Nat × Nat → State → CmdOut × State}
    {st p r0 r1 : Nat} (h : run (g, (ring s g).begun) (beginState s i g) = (.done st p r0 r1, beginState s i g)) :
    command i run s = doneAt s i g st p r0 r1 :=
  command_done b h ((beginState_only s i g).raised rfl)

/-- A command that is done at once and raises no event. -/
theorem command_done_quiet {s u : State} {i : Instr} {g : Nat} (b : begins s i g) {run : Nat × Nat → State → CmdOut × State}
    {st p r0 r1 : Nat} (h : run (g, (ring s g).begun) (beginState s i g) = (.done st p r0 r1, u))
    (q : u.raised = (beginState s i g).raised) : command i run s = finish (g, (ring s g).begun) st p r0 r1 { u with actor := none } :=
  command_done b h (q.trans ((beginState_only s i g).raised rfl))

/-! ### What a command that begins leaves of the host interface -/

theorem beginState_linkSt (s : State) (i : Instr) (g : Nat) (l : Link) : linkSt (beginState s i g) l = linkSt s l := by
  obtain ⟨R, I, F, A, e⟩ := beginState_hif s i g
  exact linkSt_congr (by rw [e]) (by rw [e]) l

theorem pool_congr {s t : State} (h : t.hif.pools = s.hif.pools) (p : Nat) : pool t p = pool s p := by
  unfold pool
  rw [h]

theorem beginState_pool (s : State) (i : Instr) (g p : Nat) : pool (beginState s i g) p = pool s p := by
  obtain ⟨R, I, F, A, e⟩ := beginState_hif s i g
  exact pool_congr (by rw [e]) p

theorem beginState_heldPunts (s : State) (i : Instr) (g : Nat) : (beginState s i g).hif.heldPunts = s.hif.heldPunts := by
  obtain ⟨R, I, F, A, e⟩ := beginState_hif s i g
  rw [e]

/-- A ring's configuration, indices of the driver and newest descriptor: what beginning a command leaves of it. -/
theorem beginState_ring_keeps (s : State) (i : Instr) (g k : Nat) :
    ∃ b, ring (beginState s i g) k = { ring s k with begun := b } := by
  rw [beginState_ring]
  split
  · exact ⟨_, rfl⟩
  · exact ⟨_, rfl⟩

theorem inflight_begin_other {s : State} {i : Instr} {g : Nat} (h : s.hif.inflight = []) {a : Nat × Nat}
    (ha : a ≠ (g, (ring s g).begun)) : inflight (beginState s i g) a = none := by
  unfold inflight
  rw [beginState_inflight s i g h, List.find?_singleton, if_neg]
  exact fun e => ha (Prod.ext (of_decide_eq_true e).1.symm (of_decide_eq_true e).2.symm)

/-! ### ABORT (R64) -/

/-- A request to abort a fetched command that has not begun is latched. -/
theorem runAbort_latches {g i : Nat} {s : State} (hf : inflight s (g, i) = none) (ha : s.hif.aborts = []) (hg : g < 64)
    (hb : (ring s g).begun ≤ i) (hc : i < (ring s g).cons) (a : Nat × Nat) :
    runAbort g i a s = (.ok, { s with hif := { s.hif with aborts := [(g, i)] } }) := by
  unfold runAbort
  rw [hf]
  dsimp only
  rw [if_pos ⟨hg, hb, hc⟩, modHif, ha]
  rfl

theorem abort_latched {h : Hdr} {g i : Nat} {s : State} (b : begins s (.abort h g i) h.ring) (hg : g < 64)
    (hb : (ring s g).begun ≤ i) (ho : g = h.ring → (ring s g).begun < i) (hc : i < (ring s g).cons) :
    runAbort g i (h.ring, (ring s h.ring).begun) (beginState s (.abort h g i) h.ring)
      = (.ok, { beginState s (.abort h g i) h.ring with
          hif := { (beginState s (.abort h g i) h.ring).hif with aborts := [(g, i)] } }) := by
  refine runAbort_latches (inflight_begin_other b.alone ?_) (beginState_aborts _ _ _ b.noAbort) hg ?_ ?_ _
  · rintro e
    obtain ⟨rfl, hi⟩ := Prod.mk.inj e
    exact absurd (ho rfl) (by omega)
  · rw [beginState_ring]
    split
    · exact ho ‹_›
    · exact hb
  · obtain ⟨n, e⟩ := beginState_ring_keeps s (.abort h g i) h.ring g
    rw [e]
    exact hc

/-! ### RING_SET (R59) -/

theorem ringOk_of {g : Nat} (h : g < 752) : ringOk g = true := decide_eq_true h

/-- A ring in service. -/
def enabledRing (r : Ring) : Ring := { r with enabled := true }

/-- A driver-written ring of a committed, running link, whose pages and base pass, starts. -/
theorem runRingEnable_starts {g : Nat} {s : State} (hg : g < 752) (hd : driverWritten g = true)
    (hc : (linkSt s (ringLink s g)).committed = true) (hs : (linkSt s (ringLink s g)).stopped = false) (hp : pagesOk s g = true)
    (ha : addrStatus s (ringLink s g) (ring s g).base (64 * ringSize (ring s g)) 4096 false = 0) (a : Nat × Nat) :
    runRingEnable g a s = (.ok, ringStarts g (modRing g enabledRing s)) := by
  have hm : dmaCheck g (ring s g).base (64 * ringSize (ring s g)) 4096 (!driverWritten g) s = (0, s) := by
    rw [dmaCheck, hd, Bool.not_true, ha]
    rfl
  unfold runRingEnable
  simp only [ringOk_of hg, hc, hs, hp, hm]
  rfl

/-- Starting a driver-written ring restarts its polling, and the refill of a pool's cache: no ring changes. -/
theorem ringStarts_driver {g : Nat} (hd : driverWritten g = true) (s : State) : ∃ p q,
    ringStarts g s = { s with hif := { s.hif with poll := p, pools := q } } := by
  unfold ringStarts
  rw [hd]
  simp only [if_true]
  split
  · exact ⟨_, _, rfl⟩
  · exact ⟨_, _, rfl⟩

/-- A punt of a ring waits in no pool, so none is dropped. -/
theorem dropRingPunts_none {s : State} (h : ∀ p, p < 64 → (pool s p).wait = []) (g : Nat) (l : Link) (i : Nat) :
    ∃ m, dropRingPunts g l i s = modHif (fun k => { k with pools := m }) s := by
  have hp : (∃ m, dropRingPunts g l i s = modHif (fun k => { k with pools := m }) s)
      ∧ ∀ p, p < 64 → (pool (dropRingPunts g l i s) p).wait = [] := by
    unfold dropRingPunts
    refine each_inv _ (fun t => (∃ m, t = modHif (fun k => { k with pools := m }) s) ∧ ∀ p, p < 64 → (pool t p).wait = []) _ s
      (fun p hp t ht => ?_) ⟨⟨_, rfl⟩, h⟩
    obtain ⟨⟨m, e⟩, hw⟩ := ht
    rw [hw p (List.mem_range.mp hp)]
    refine ⟨⟨_, by rw [e]; rfl⟩, fun q hq => ?_⟩
    rw [List.filter_nil, each_nil]
    by_cases hqp : p = q
    · subst hqp
      rw [pool_modPool, hw p hq]
      rfl
    · rw [pool_modPool_ne hqp, hw q hq]
  exact hp.1

/-- A ring is quiet when all it fetched has begun, its commands and frames have ended, and its newest event is published. -/
theorem quiet_of {s : State} {g : Nat} {a : Nat × Nat} (hb : g < 64 ∨ (400 ≤ g ∧ g < 656) → (ring s g).begun = (ring s g).cons)
    (hf : ∀ e ∈ s.hif.inflight, e.ring = a.1 ∧ e.index = a.2) (hn : (ring s g).newest = none)
    (hp : ∀ k, k ∈ s.pkts → ∀ i, k.2.inj ≠ some (g, i)) : quiet s g a = true := by
  unfold quiet
  cases hk : ringKind g
  case cmd =>
    have hg : g < 64 := by
      by_contra h
      unfold ringKind at hk
      revert hk
      split_ifs <;> simp [*]
    have hi : ∀ e ∈ s.hif.inflight, (decide (e.ring = g) && !(decide (e.ring = a.1) && decide (e.index = a.2))) = false := by
      intro e he
      simp [hf e he]
    simp only [hb (Or.inl hg), decide_true, Bool.true_and, Bool.not_eq_true']
    exact List.any_eq_false.mpr fun e he => Bool.eq_false_iff.mp (hi e he)
  case inj =>
    have hg : 400 ≤ g ∧ g < 656 := by
      unfold ringKind at hk
      revert hk
      split_ifs <;> simp
      omega
    have hi : ∀ k ∈ s.pkts, (match k.2.inj with
      | some (h, _) => decide (h = g)
      | none => false) = false := by
      intro k hk
      split
      · rename_i r i e
        exact decide_eq_false fun c => hp k hk i (by rw [e, c])
      · rfl
    simp only [hb (Or.inr hg), decide_true, Bool.true_and, Bool.not_eq_true']
    exact List.any_eq_false.mpr fun k hk => Bool.eq_false_iff.mp (hi k hk)
  case evt => exact decide_eq_true hn
  all_goals rfl

/-- A ring out of service. -/
def disabledRing (r : Ring) : Ring := { r with enabled := false }

/-- A ring stops: a punt ring drops the punts that wait for it. -/
def ringStops (g : Nat) (s : State) : State :=
  let t := modRing g disabledRing s
  if ringKind g = .pnt then retryPunts (dropRingPunts g (ringLink t g) 0 t) else t

theorem runRingDisable_eq {g : Nat} (hg : g < 752) (a : Nat × Nat) (s : State) : runRingDisable g a s
    = (if quiet (ringStops g s) g a then .ok else .wait .order, ringStops g s) := by
  unfold runRingDisable
  rw [ringOk_of hg]
  rfl

/-- With no punt held and none waiting, a ring that stops changes nothing else but how the pools are listed. -/
theorem ringStops_eq {g : Nat} {s : State} (hh : s.hif.heldPunts = []) (hw : ∀ p, p < 64 → (pool s p).wait = []) :
    ∃ m, ringStops g s = modHif (fun k => { k with pools := m }) (modRing g disabledRing s) := by
  unfold ringStops
  dsimp only
  split
  · obtain ⟨m, e⟩ := dropRingPunts_none (s := modRing g disabledRing s) hw g (ringLink (modRing g disabledRing s) g) 0
    exact ⟨m, (congrArg retryPunts e).trans (retryPunts_none hh)⟩
  · exact ⟨s.hif.pools, rfl⟩

theorem setPools_modRing (m : Map Pool) (g : Nat) (f : Ring → Ring) (s : State) : modHif (fun k => { k with pools := m }) (modRing g f s)
    = { s with hif := { s.hif with rings := mset {} s.hif.rings g (f (ring s g)), pools := m } } := rfl

/-- A quiet ring's DISABLE is done at once. -/
theorem runRingDisable_quiet {g : Nat} {a : Nat × Nat} {s : State} (hg : g < 752) (hh : s.hif.heldPunts = [])
    (hw : ∀ p, p < 64 → (pool s p).wait = []) (hb : g < 64 ∨ (400 ≤ g ∧ g < 656) → (ring s g).begun = (ring s g).cons)
    (hf : ∀ e ∈ s.hif.inflight, e.ring = a.1 ∧ e.index = a.2) (hn : (ring s g).newest = none)
    (hp : ∀ k, k ∈ s.pkts → ∀ i, k.2.inj ≠ some (g, i)) :
    ∃ m, runRingDisable g a s
      = (.ok, { s with hif := { s.hif with rings := mset {} s.hif.rings g (disabledRing (ring s g)), pools := m } }) := by
  obtain ⟨m, e⟩ := ringStops_eq (g := g) hh hw
  have hr : ring (modHif (fun k => { k with pools := m }) (modRing g disabledRing s)) g = disabledRing (ring s g) :=
    ring_modRing g disabledRing s
  have hq : quiet (modHif (fun k => { k with pools := m }) (modRing g disabledRing s)) g a = true :=
    quiet_of (by rw [hr]; exact hb) hf (by rw [hr]; exact hn) hp
  exact ⟨m, by rw [runRingDisable_eq hg, e, hq, setPools_modRing]; rfl⟩

/-- The configuration of a disabled ring is moved, and its indices are 0. -/
def ringMoved (sz base : Nat) (r : Ring) : Ring :=
  { r with base := base % 2 ^ 64, size := Nat.min 10 sz, prod := 0, cons := 0, begun := 0, newest := none, unsig := 0 }

theorem statusWrite_modRing (g n : Nat) (f : Ring → Ring) (s : State) : ∃ m, statusWrite g n (modRing g f s)
    = { s with host := m, hif := { s.hif with rings := mset {} s.hif.rings g (f (ring s g)) } } := by
  rw [statusWrite_frame]
  exact ⟨_, rfl⟩

theorem runRingMove_disabled {g sz base : Nat} {s : State} (hg : g < 752) (he : (ring s g).enabled = false) (a : Nat × Nat) :
    ∃ m, runRingMove g sz base a s
      = (.ok, { s with host := m, hif := { s.hif with rings := mset {} s.hif.rings g (ringMoved sz base (ring s g)) } }) := by
  obtain ⟨m, e⟩ := statusWrite_modRing g 0 (ringMoved sz base) s
  refine ⟨m, e ▸ ?_⟩
  unfold runRingMove
  rw [ringOk_of hg, he]
  rfl

/-- The pages of a ring pass their checks as before. -/
theorem beginState_pagesOk (s : State) (i : Instr) (g k : Nat) : pagesOk (beginState s i g) k = pagesOk s k := by
  unfold pagesOk
  rw [beginState_ringLink, beginState_linkSt]

theorem beginState_host (s : State) (i : Instr) (g : Nat) : (beginState s i g).host = s.host :=
  (beginState_only s i g).host rfl

/-- Every cached address is written to host memory, and the cache is empty. -/
theorem runPoolFlush_writes {p a : Nat} {c : Nat × Nat} {s : State} (hp : p < 64)
    (hc : dmaCheck c.1 a 2048 64 true s = (0, s)) : runPoolFlush p a c s
      = (.done 0 0 (pool s p).cache.length 0,
          refillCheck p (modPool p (fun q => { q with cache := [] }) (hostWr a ((pool s p).cache.flatMap (leBytes 8)) s))) := by
  unfold runPoolFlush
  rw [if_neg (Nat.not_le.mpr hp), hc]
  rfl

theorem poolFlush_raised (p a : Nat) (bs : List Byte) (s : State) :
    (refillCheck p (modPool p (fun q => { q with cache := [] }) (hostWr a bs s))).raised = s.raised := rfl

/-! ### Commands that waited, and steps of long ones (R79, R444) -/

theorem startCmd_done {a : Nat × Nat} {i : Instr} {run : Nat × Nat → State → CmdOut × State} {s u : State} {st p r0 r1 : Nat}
    (hz : s.lcs.zeroising = false) (ha : targetAbsent s (cmdTarget i).1 (cmdTarget i).2 = false)
    (hd : targetDown s (cmdTarget i).1 (cmdTarget i).2 = false) (h : run a { s with actor := some a } = (.done st p r0 r1, u))
    (q : u.raised = s.raised) : startCmd a i run s = finish a st p r0 r1 { u with actor := none } := by
  unfold startCmd
  simp [hz, ha, hd, h, q, takeOut]

theorem heldStart_starts {a : Nat × Nat} {e : InFlight} {s : State} (h : inflight s a = some e) (hs : e.stepping = false)
    (hw : e.wait ≠ .nothing) (hm : mustWait s e = none) {run : Nat × Nat → State → CmdOut × State} (hr : runOf e.cmd = some run) :
    heldStart a s = startCmd a e.cmd run s := by
  unfold heldStart
  simp [h, hs, hw, hm, hr]

theorem longStep_down {a : Nat × Nat} {e : InFlight} {s : State} (h : inflight s a = some e) (hi : (stepOf e).isSome = true)
    (hs : e.stepping = true) (hd : targetDown s (cmdTarget e.cmd).1 (cmdTarget e.cmd).2 = true) :
    longStep a s = finish a 9 e.progress e.res0 e.res1 s := by
  obtain ⟨f, hf⟩ := Option.isSome_iff_exists.mp hi
  unfold longStep
  simp [h, hf, hs, hd]

/-! ### The claim -/

/-- Settles O10: each command begins at once, and its run is one of the changes above. -/
theorem basicRingCommands : Obligations.BasicRingCommands := by
  refine ⟨fun h s b => congrArg Host.Outcome.next (command_doneAt b rfl), fun h s b => congrArg Host.Outcome.next (command_doneAt b rfl),
    fun h s b => congrArg Host.Outcome.next (command_doneAt b rfl), fun h g i s b hg hb ho hc => ?_, fun h g s b hg => ?_,
    fun h g s b hg hd hc hs hp ha => ?_, fun h g s b hg hc => ?_, fun h g s b hg hh hn hw hk hb => ?_,
    fun h g sz base s b hg he hs hb => ?_, fun h p s b hp => ?_, fun h p a s b hp ha => ?_,
    fun g i h e s hf hc hs hw hm hz ha hd => ?_, fun g i e s hf hi hs hd => ?_⟩
  · have hx := command_done_quiet (run := runAbort g i) b (abort_latched b hg hb ho hc) rfl
    exact ⟨_, congrArg Host.Outcome.next hx, rfl, rfl⟩
  · refine congrArg Host.Outcome.next (command_doneAt b ?_)
    obtain ⟨n, e⟩ := beginState_ring_keeps s (.ringSetQuery h g) h.ring g
    simp only [runRingQuery, ringOk_of hg, e]
    rfl
  · obtain ⟨n, e⟩ := beginState_ring_keeps s (.ringSetEnable h g) h.ring g
    have hx := runRingEnable_starts (s := beginState s (.ringSetEnable h g) h.ring) hg hd
      (by rw [beginState_ringLink, beginState_linkSt, hc]) (by rw [beginState_ringLink, beginState_linkSt, hs])
      (by rw [beginState_pagesOk, hp]) (by rw [beginState_ringLink, beginState_addrStatus, e]; exact ha)
      (h.ring, (ring s h.ring).begun)
    obtain ⟨p, q, hq⟩ := ringStarts_driver hd (modRing g enabledRing (beginState s (.ringSetEnable h g) h.ring))
    rw [hq] at hx
    have hy := command_done_quiet b hx rfl
    generalize beginState s (.ringSetEnable h g) h.ring = v at hy ⊢
    refine ⟨_, congrArg Host.Outcome.next hy, ?_, fun k hk => ?_, rfl⟩
    · exact congrArg Ring.enabled (ring_modRing g enabledRing _)
    · exact ring_modRing_ne hk.symm enabledRing _
  · refine congrArg Host.Outcome.next (command_doneAt b ?_)
    simp only [runRingEnable, ringOk_of hg, beginState_ringLink, beginState_linkSt, hc]
    rfl
  · obtain ⟨n, e⟩ := beginState_ring_keeps s (.ringSetDisable h g) h.ring g
    obtain ⟨m, hx⟩ := runRingDisable_quiet (s := beginState s (.ringSetDisable h g) h.ring) (a := (h.ring, (ring s h.ring).begun)) hg
      ((beginState_heldPunts ..).trans hh) (fun p hp => by rw [beginState_pool, hw p hp])
      (fun c => (hb c).trans (congrArg Ring.cons e).symm)
      (fun x hx => by
        rw [beginState_inflight _ _ _ b.alone, List.mem_singleton] at hx
        rw [hx]
        exact ⟨rfl, rfl⟩)
      ((congrArg Ring.newest e).trans hn) (by rw [(beginState_only s _ _).pkts rfl]; exact hk)
    have hy := command_done_quiet b hx rfl
    generalize beginState s (.ringSetDisable h g) h.ring = v at hy ⊢
    refine ⟨_, congrArg Host.Outcome.next hy, ?_, fun k hk => ?_, rfl⟩
    · exact congrArg Ring.enabled (ring_modRing g disabledRing _)
    · exact ring_modRing_ne hk.symm disabledRing _
  · obtain ⟨n, e⟩ := beginState_ring_keeps s (.ringSetMove h g sz base) h.ring g
    obtain ⟨m, hx⟩ := runRingMove_disabled (base := base) (sz := sz) (s := beginState s (.ringSetMove h g sz base) h.ring) hg
      (by rw [e]; exact he) (h.ring, (ring s h.ring).begun)
    have hr := (ring_modRing g (ringMoved sz base) (beginState s (.ringSetMove h g sz base) h.ring)).trans
      (congrArg (ringMoved sz base) e)
    have hy := command_done_quiet b hx rfl
    generalize beginState s (.ringSetMove h g sz base) h.ring = v at hy hr ⊢
    refine ⟨_, congrArg Host.Outcome.next hy, ?_, ?_, ?_, ?_, ?_, ?_, fun k hk => ?_, rfl⟩
    · exact (congrArg Ring.base hr).trans (Nat.mod_eq_of_lt hb)
    · exact (congrArg Ring.size hr).trans (Nat.min_eq_right hs)
    · exact congrArg Ring.prod hr
    · exact congrArg Ring.cons hr
    · exact congrArg Ring.begun hr
    · exact (congrArg Ring.enabled hr).trans he
    · exact ring_modRing_ne hk.symm (ringMoved sz base) _
  · refine congrArg Host.Outcome.next (command_doneAt b ?_)
    simp only [runPoolQuery, beginState_pool, if_neg (Nat.not_le.mpr hp)]
  · have hx := runPoolFlush_writes hp (beginState_dmaCheck ha (.poolSetFlush h p a) h.ring) (c := (h.ring, (ring s h.ring).begun))
    obtain ⟨r, hr⟩ := refillCheck_pool p (modPool p (fun q => { q with cache := [] }) (hostWr a
      ((pool (beginState s (.poolSetFlush h p a) h.ring) p).cache.flatMap (leBytes 8)) (beginState s (.poolSetFlush h p a) h.ring)))
    rw [pool_modPool] at hr
    rw [beginState_pool] at hx hr
    have hy := command_done_quiet b hx (poolFlush_raised ..)
    have hm := beginState_host s (.poolSetFlush h p a) h.ring
    generalize beginState s (.poolSetFlush h p a) h.ring = v at hy hr hm ⊢
    exact ⟨_, congrArg Host.Outcome.next hy, congrArg Pool.cache hr, congrArg (wrBytes · a _) hm, rfl⟩
  · have hr : runOf e.cmd = some runNop := by rw [hc]; rfl
    have hx := (heldStart_starts hf hs hw hm hr).trans (startCmd_done (u := { s with actor := some (g, i) }) hz ha hd rfl rfl)
    exact congrArg Host.Outcome.next hx
  · have hx := longStep_down hf hi hs hd
    exact congrArg Host.Outcome.next hx

end Sys2Proof.Proofs
end

section
/-! What a command that begins reads: all of the state but its ring, its entry in flight and its latch (R54, R79). -/

namespace Sys2Proof.Proofs

open Sys2Proof.Machine Sys2Proof.Laws

@[simp] theorem beginState_part (s : State) (i : Instr) (g : Nat) : (beginState s i g).part = s.part :=
  (beginState_only s i g).part rfl
@[simp] theorem beginState_regs (s : State) (i : Instr) (g : Nat) : (beginState s i g).regs = s.regs :=
  (beginState_only s i g).regs rfl
@[simp] theorem beginState_tmem (s : State) (i : Instr) (g : Nat) : (beginState s i g).tmem = s.tmem :=
  (beginState_only s i g).tmem rfl
@[simp] theorem beginState_cnt (s : State) (i : Instr) (g : Nat) : (beginState s i g).cnt = s.cnt :=
  (beginState_only s i g).cnt rfl
@[simp] theorem beginState_cls (s : State) (i : Instr) (g : Nat) : (beginState s i g).cls = s.cls :=
  (beginState_only s i g).cls rfl
@[simp] theorem beginState_fwd (s : State) (i : Instr) (g : Nat) : (beginState s i g).fwd = s.fwd :=
  (beginState_only s i g).fwd rfl
@[simp] theorem beginState_pwr (s : State) (i : Instr) (g : Nat) : (beginState s i g).pwr = s.pwr :=
  (beginState_only s i g).pwr rfl

theorem targetUnits_congr {s t : State} (h : t.part = s.part) (k u o : Nat) : targetUnits t k u o = targetUnits s k u o := by
  have e : unitsOfKind t = unitsOfKind s := by
    funext k
    unfold unitsOfKind
    rw [h]
  unfold targetUnits
  rw [e]

theorem epochOf_congr {s t : State} (h : t.cls = s.cls) (p : Nat) : epochOf t p = epochOf s p := by
  unfold epochOf
  rw [h]

theorem cmpOf_congr {s t : State} (h : t.fwd = s.fwd) (d b : Nat) : cmpOf t d b = cmpOf s d b := by
  unfold cmpOf
  rw [h]

theorem meetsAbsent_congr {s t : State} (h : t.fwd = s.fwd) (d o n : Nat) : meetsAbsent t d o n = meetsAbsent s d o n := by
  unfold meetsAbsent
  rw [cmpOf_congr h]

theorem blockHeld_congr {s t : State} (h : t.part = s.part) (h2 : t.fwd = s.fwd) (o i : Nat) : blockHeld t o i = blockHeld s o i := by
  unfold blockHeld
  simp only [h, cmpOf_congr h2]

theorem unitsPending_congr {s t : State} (h : t.cls = s.cls) (a : Nat × Nat) : unitsPending t a = unitsPending s a := by
  unfold unitsPending
  rw [h]

theorem dataLen_congr {s t : State} (h : t.regs = s.regs) (x : FormT) (u n : Nat) : dataLen t x u n = dataLen s x u n := by
  unfold dataLen hostSize bankWidth
  simp only [cfg_congr h]

@[simp] theorem beginState_targetUnits (s : State) (i : Instr) (g k u o : Nat) : targetUnits (beginState s i g) k u o = targetUnits s k u o :=
  targetUnits_congr (beginState_part ..) k u o
@[simp] theorem beginState_unitDown (s : State) (i : Instr) (g k u : Nat) : unitDown (beginState s i g) k u = unitDown s k u :=
  targetDown_congr (beginState_part ..) (beginState_pwr ..) k u
@[simp] theorem beginState_epochOf (s : State) (i : Instr) (g p : Nat) : epochOf (beginState s i g) p = epochOf s p :=
  epochOf_congr (beginState_cls ..) p
@[simp] theorem beginState_cmpOf (s : State) (i : Instr) (g d b : Nat) : cmpOf (beginState s i g) d b = cmpOf s d b :=
  cmpOf_congr (beginState_fwd ..) d b
@[simp] theorem beginState_meetsAbsent (s : State) (i : Instr) (g d o n : Nat) :
    meetsAbsent (beginState s i g) d o n = meetsAbsent s d o n := meetsAbsent_congr (beginState_fwd ..) d o n
@[simp] theorem beginState_blockHeld (s : State) (i : Instr) (g o n : Nat) : blockHeld (beginState s i g) o n = blockHeld s o n :=
  blockHeld_congr (beginState_part ..) (beginState_fwd ..) o n
@[simp] theorem beginState_unitsPending (s : State) (i : Instr) (g : Nat) (a : Nat × Nat) :
    unitsPending (beginState s i g) a = unitsPending s a := unitsPending_congr (beginState_cls ..) a
@[simp] theorem beginState_dataLen (s : State) (i : Instr) (g : Nat) (t : FormT) (u n : Nat) :
    dataLen (beginState s i g) t u n = dataLen s t u n := dataLen_congr (beginState_regs ..) t u n
@[simp] theorem beginState_tEntry (s : State) (i : Instr) (g d o n : Nat) : tEntry (beginState s i g) d o n = tEntry s d o n :=
  tEntry_congr (beginState_tmem ..) d o n

/-- A transfer that passes its checks, of the length a G3 command's data takes (R96). -/
theorem g3Check_of {s : State} {r a n m : Nat} {w : Bool} (h : addrStatus s (ringLink s r) a m 64 w = 0)
    (hn : ceilDiv n 64 * 64 = m) : g3Check r a n w s = (0, s) := by
  subst hn
  unfold g3Check dmaCheck
  rw [h]
  rfl

theorem beginState_g3Check {s : State} {r a n m : Nat} {w : Bool} (h : addrStatus s (ringLink s r) a m 64 w = 0)
    (hn : ceilDiv n 64 * 64 = m) (i : Instr) (g : Nat) : g3Check r a n w (beginState s i g) = (0, beginState s i g) :=
  g3Check_of (by rw [beginState_ringLink, beginState_addrStatus, h]) hn

end Sys2Proof.Proofs
end

section
/-! Table commands of one entry, and the beginnings of the bulk forms (R55, R56, R96, R99, R127, R138, R139, R165, R167). -/

namespace Sys2Proof.Proofs

open Sys2Proof.Machine Sys2Proof.Laws

/-! ### The objects -/

theorem entryCount_lt (o : Nat) : entryCount o < 2 ^ 63 := by
  unfold entryCount
  split <;> decide

/-- The first index of a command within its object is the index itself. -/
theorem firstIdx_of_lt {t : FormT} {o : Nat} (h : t.first < entryCount o) : firstIdx t = t.first :=
  Nat.mod_eq_of_lt (h.trans (entryCount_lt o))

/-- The table-memory objects whose entries are named by their index only (R138). -/
def indexedTables : List Nat := [0x0204, 0x0205, 0x0206, 0x0502, 0x0503, 0x0504, 0x0505, 0x0506, 0x0507]

theorem mem_indexedTables {o : Nat} (h : objKind o = .table) (hk : keyed o = false) : o ∈ indexedTables := by
  have hm : o ∈ [0x0201, 0x0202, 0x0203, 0x0204, 0x0205, 0x0206, 0x0502, 0x0503, 0x0504, 0x0505, 0x0506, 0x0507] := by
    unfold objKind at h
    by_contra hm
    rw [← List.contains_iff_mem, Bool.not_eq_true] at hm
    rw [hm, if_neg (c := false = true) Bool.false_ne_true] at h
    revert h
    split_ifs <;> exact fun h => nomatch h
  simp only [keyed, Bool.or_eq_false_iff, decide_eq_false_iff_not] at hk
  simp only [List.mem_cons] at hm
  simp only [indexedTables, List.mem_cons]
  tauto

theorem indexedTable_facts : ∀ o ∈ indexedTables, objUnitKind o = 1 ∧ o ≠ 0x0105 ∧ o ≠ 0x0203 ∧ o ≠ 0x0903
    ∧ tableBase o + slotSize o * entryCount o ≤ 2 ^ 26 := by decide

/-- An entry within its object lies within table memory. -/
theorem tFits_of_lt {o i : Nat} (h : tableBase o + slotSize o * entryCount o ≤ 2 ^ 26) (hi : i < entryCount o) : tFits o i := by
  have hm : slotSize o * (i + 1) ≤ slotSize o * entryCount o := Nat.mul_le_mul_left _ hi
  unfold tFits tOff
  rw [Nat.mul_add, Nat.mul_one] at hm
  omega

theorem hostSize_of_ne {o : Nat} (h : o ≠ 0x0105) (s : State) (u i : Nat) : hostSize s o u i = entrySize o := if_neg h

/-! ### One entry -/

/-- A single entry's job is written, or fails. -/
theorem writeAll_one {one : Nat → Nat → State → (Nat × Nat) × State} {i v sl : Nat} {s u : State} (h : one i v s = ((0, sl), u)) :
    writeAll one [(i, v)] 0 0 s = ((0, 1, sl), u) := by
  unfold writeAll
  rw [h]
  rfl

/-- The image of one inline entry of an object that is no IPv6 route. -/
theorem splitImages_inline {s : State} {t : FormT} {u i n : Nat} (h : t.object ≠ 0x0203) (ha : t.hostAddr = 0)
    (hn : hostSize s t.object u i = n) :
    splitImages s t.object u 1 i (formTBytes s t n) = [t.inline % 2 ^ 192 % 256 ^ n] := by
  unfold splitImages imageSize formTBytes
  rw [if_neg h, if_pos ha, hn]
  dsimp only
  rw [takeBytes_leBytes, ofLe_leBytes]
  rfl

/-- A driver's write of a slot changes table memory and the compare's part only. -/
theorem tableWriteOn_frame (ds : List Nat) (o i v : Nat) (s : State) : tableWriteOn ds o i v s
    = { s with tmem := (tableWriteOn ds o i v s).tmem, fwd := (tableWriteOn ds o i v s).fwd } :=
  frame_of_only (f := fun s t => { s with tmem := t.tmem, fwd := t.fwd })
    (tableWriteOn_keeps (Only.allows 66048 s) rfl ds o i v _ (Only.refl _ s)) rfl

theorem clampCount_one {hi : Nat} (h : 1 ≤ hi) : clampCount hi 1 = 1 := by
  unfold clampCount
  rw [show Nat.min hi 1 = 1 from Nat.min_eq_right h]
  rfl

theorem byKey_of_not_keyed {t : FormT} (h : keyed t.object = false) : byKey t = false := by
  unfold byKey
  rw [h, Bool.and_false]

/-- TABLE_WRITE of one inline entry of an indexed table is done with one unit. -/
theorem runTableWrite_one {h : Hdr} {t : FormT} {a : Nat × Nat} {s : State} (ho : objKind t.object = .table)
    (hk : keyed t.object = false) (hx : t.object ≠ 0x0507) (ha : t.hostAddr = 0) (hc : t.count = 1) (hf : t.first < entryCount t.object)
    (hu : targetUnits s h.kind h.unit 1 ≠ []) (hb : blockHeld s t.object t.first = false) (hp : unitsPending s a = false) :
    runTableWrite h t a s = (.done 0 1 0 0,
      tableWriteOn (dies s.part) t.object t.first (t.inline % 2 ^ 192 % 256 ^ slotSize t.object) s) := by
  show _ = (_, tableWriteOn (dies s.part) t.object t.first (t.inline % 2 ^ 192 % 256 ^ entrySize t.object) s)
  obtain ⟨hu1, h105, h203, h903, -⟩ := indexedTable_facts _ (mem_indexedTables ho hk)
  have hto : tableObj t.object = true := by
    unfold tableObj
    rw [ho]
  have hfi := firstIdx_of_lt hf
  have hlen : dataLen s t (sizeUnit (targetUnits s h.kind h.unit 1)) 1 = entrySize t.object := by
    simp [dataLen, h203, hostSize_of_ne h105]
  have himg := splitImages_inline (s := s) (u := sizeUnit (targetUnits s h.kind h.unit 1)) (i := t.first) h203 ha
    (hostSize_of_ne h105 s _ t.first)
  generalize t.inline % 2 ^ 192 % 256 ^ entrySize t.object = v at himg ⊢
  have hw : writeEntry a t.object t.opFlags (targetUnits s h.kind h.unit 1) false t.first t.first v s = ((0, t.first),
        tableWriteOn (dies s.part) t.object t.first v s) := by
    simp [writeEntry, Nat.not_le.mpr hf, ho, hk, tableDies, hx]
  have hall := writeAll_one hw
  have hpend : unitsPending (tableWriteOn (dies s.part) t.object t.first v s) a = false :=
    (unitsPending_congr (by rw [tableWriteOn_frame]) a).trans hp
  unfold runTableWrite
  simp only [hu1, hto, hc, clampCount_one (by decide : 1 ≤ 4), hfi, hlen, byKey_of_not_keyed hk, ha, idxList]
  simp [hu, himg, writeWaits, ho, hk, hb, hall, afterWrite, hpend]

theorem tableObj_of_table {o : Nat} (h : objKind o = .table) : tableObj o = true := by
  unfold tableObj
  rw [h]

theorem readUnit_one {s : State} {o k u d : Nat} (h : targetUnits s k u (objUnitKind o) = [d]) : readUnit s o k u = (some d, s) := by
  unfold readUnit
  rw [h]

theorem readAll_one {s : State} {o f u i e : Nat} (h : readEntry o f u i s = (0, e)) : readAll s o f u [i] 0 [] = (0, [e]) := by
  unfold readAll
  rw [h]
  rfl

/-- An entry of table memory that no word is absent from, in no suspect block, is read (R431, R166). -/
theorem readEntry_table {s : State} {o f d i : Nat} (ho : objKind o = .table) (hi : i < entryCount o)
    (ha : meetsAbsent s d (tOff o i) (slotSize o) = false) (hs : (cmpOf s d (tOff o i / 65536)).suspect = false) :
    readEntry o f d i s = (0, tEntry s d o i) := by
  simp [readEntry, Nat.not_le.mpr hi, ho, ha, hs]

/-- TABLE_READ of one entry of an indexed table writes it to host memory. -/
theorem runTableRead_one {h : Hdr} {t : FormT} {d : Nat} {a : Nat × Nat} {s : State} (ho : objKind t.object = .table)
    (hk : keyed t.object = false) (hc : t.count = 1) (hf : t.first < entryCount t.object) (hu : targetUnits s h.kind h.unit 1 = [d])
    (ha : meetsAbsent s d (tOff t.object t.first) (slotSize t.object) = false)
    (hs : (cmpOf s d (tOff t.object t.first / 65536)).suspect = false)
    (hd : dataCheck a.1 t (slotSize t.object) true s = (0, s)) : runTableRead h t a s
      = (.done 0 1 1 0, hostWr t.hostAddr (leBytes (slotSize t.object) (tEntry s d t.object t.first)) s) := by
  obtain ⟨hu1, h105, h203, h903, -⟩ := indexedTable_facts _ (mem_indexedTables ho hk)
  have hru : readUnit s t.object h.kind h.unit = (some d, s) := readUnit_one (by rw [hu1, hu])
  have hall := readAll_one (readEntry_table (f := t.opFlags) ho hf ha hs)
  have hlen : dataLen s t d 1 = slotSize t.object := by
    simp [dataLen, h203, hostSize_of_ne h105, slotSize]
  have hb : readBytes s t.object d t.first [tEntry s d t.object t.first]
      = leBytes (slotSize t.object) (tEntry s d t.object t.first) := by
    simp [readBytes, idxList, hostSize_of_ne h105, slotSize]
  unfold runTableRead
  simp only [h903, if_false, tableObj_of_table ho, hru, hc, clampCount_one (by decide : 1 ≤ 4), hlen, byKey_of_not_keyed hk, hd,
    firstIdx_of_lt hf, idxList, hall, hb]
  rfl

/-! ### The bulk forms begin (R444) -/

theorem runBulkWrite_begins {h : Hdr} {t : FormT} {a : Nat × Nat} {s : State} (ho : tableObj t.object = true)
    (hu : targetUnits s h.kind h.unit (objUnitKind t.object) ≠ [])
    (hd : dataCheck a.1 t (dataLen s t (sizeUnit (targetUnits s h.kind h.unit (objUnitKind t.object))) (clampCount (2 ^ 24) t.count))
      false s = (0, s)) :
    runBulkWrite h t a s = (.go .nothing, modInflight a (fun e => { e with acc := [0, 0, firstIdx t] }) s) := by
  unfold runBulkWrite
  simp only [ho, hu, hd]
  rfl

theorem runBulkRead_begins {h : Hdr} {t : FormT} {d : Nat} {a : Nat × Nat} {s : State} (ho : tableObj t.object = true)
    (hk : byKey t = false) (hu : targetUnits s h.kind h.unit (objUnitKind t.object) = [d])
    (hd : dataCheck a.1 t (dataLen s t d (clampCount (2 ^ 24) t.count)) true s = (0, s)) : runBulkRead h t a s
      = (.go .nothing, modInflight a (fun e => { e with acc := [d, 0, firstIdx t], res0 := 0 }) s) := by
  unfold runBulkRead
  simp only [ho, readUnit_one hu, hk, hd]
  rfl

theorem runTableScan_begins {h : Hdr} {t : FormT} {d : Nat} {a : Nat × Nat} {s : State} (ho : t.object = 0x0201)
    (hu : targetUnits s h.kind h.unit 1 = [d]) (hd : dataCheck a.1 t (16 * clampCount (2 ^ 24) t.count) true s = (0, s)) :
    runTableScan h t a s = (.go .nothing, modInflight a (fun e => { e with acc := [d] }) s) := by
  have hru : readUnit s t.object h.kind h.unit = (some d, s) := readUnit_one (by rw [ho]; exact hu)
  unfold runTableScan
  simp only [ho] at hru ⊢
  simp only [hru, hd]
  rfl

/-! ### DIGEST_SET (R165) -/

/-- A digest is loaded, and its block's marks are cleared. -/
def digestLoaded (v : Nat) (c : Cmp) : Cmp :=
  { c with digest := v % 2 ^ 64, stale := false, told := false, dirty := false, cycles := 0 }

/-- The inline data's low 64 bits. -/
theorem inline_low (x : Nat) : x % 2 ^ 192 % 256 ^ 8 % 2 ^ 64 = x % 2 ^ 64 := by omega

theorem each_modCmp_frame (l : List Nat) (b : Nat) (f : Cmp → Cmp) (s : State) :
    each l (fun d t => modCmp d b f t) s = { s with fwd := (each l (fun d t => modCmp d b f t) s).fwd } :=
  each_inv _ (fun t => t = { s with fwd := t.fwd }) l s (fun d _ t ht => by rw [ht]; rfl) rfl

theorem cmpOf_modCmp (d b : Nat) (f : Cmp → Cmp) (s : State) : cmpOf (modCmp d b f s) d b = f (cmpOf s d b) :=
  mget_mset_same _ _ _ _

theorem cmpOf_modCmp_ne {d b d' b' : Nat} (h : 1024 * d + b ≠ 1024 * d' + b') (f : Cmp → Cmp) (s : State) :
    cmpOf (modCmp d b f s) d' b' = cmpOf s d' b' := mget_mset_ne _ _ h _

theorem cmpOf_each_modCmp {l : List Nat} {b : Nat} {f : Cmp → Cmp} {P : Cmp → Prop} (hf : ∀ c, P (f c)) (s : State) :
    ∀ d ∈ l, P (cmpOf (each l (fun d t => modCmp d b f t) s) d b) := by
  refine each_each _ (fun d t => P (cmpOf t d b)) l s (fun d _ t => ?_) (fun d _ e _ t h => ?_)
  · rw [cmpOf_modCmp]
    exact hf _
  · by_cases c : 1024 * e + b = 1024 * d + b
    · obtain rfl : e = d := by omega
      rw [cmpOf_modCmp]
      exact hf _
    · rw [cmpOf_modCmp_ne c]
      exact h

theorem runDigestSet_one {h : Hdr} {t : FormT} {a : Nat × Nat} {s : State} (ho : t.object = 0x0290) (ha : t.hostAddr = 0)
    (hc : t.count = 1) (hf : t.first < 1024) (hu : targetUnits s h.kind h.unit 1 ≠ []) : runDigestSet h t a s
      = (.done 0 1 0 0, each (targetUnits s h.kind h.unit 1)
          (fun d u => modCmp d t.first (digestLoaded (t.inline % 2 ^ 192 % 256 ^ 8)) u) s) := by
  have hfi : firstIdx t = t.first := firstIdx_of_lt (o := 0x0290) hf
  have he : entryAt (formTBytes s t (8 * 1)) 8 0 = t.inline % 2 ^ 192 % 256 ^ 8 := by
    unfold formTBytes entryAt
    rw [if_pos ha, takeBytes_leBytes, ofLe_leBytes]
  generalize t.inline % 2 ^ 192 % 256 ^ 8 = v at he ⊢
  have hk : objKind 0x0290 = .digest := rfl
  have hn : ¬entryCount 0x0290 ≤ t.first := Nat.not_le.mpr hf
  have hw : writeEntry a 0x0290 0 (targetUnits s h.kind h.unit 1) false t.first t.first v s
      = ((0, t.first), each (targetUnits s h.kind h.unit 1) (fun d u => modCmp d t.first (digestLoaded v) u) s) := by
    simp only [writeEntry, hn, hk, decide_false, Bool.and_false, Bool.false_eq_true, if_false]
    rfl
  have hall := writeAll_one hw
  have hj : (upTo 1).map (fun i => (t.first + i, entryAt (formTBytes s t (8 * 1)) 8 i)) = [(t.first, v)] := by
    simp [upTo, he]
  unfold runDigestSet
  simp only [ho, hu, ha, hc, clampCount_one (by decide : 1 ≤ 4), hfi, ne_eq, not_true, or_self, if_false, if_true]
  rw [hj, hall]

/-! ### EPOCH_FLIP (R126, R127) -/

theorem pipelines_nodup (p : Part) : (pipelines p).Nodup := by
  cases p <;> decide

/-- A pipeline's current bank changes, and the other drains. -/
def epochFlipped (e : Epoch) : Epoch := { e with cur := !e.cur, draining := true }

/-- A pipeline whose packets carry the current epoch switches its bank, and the old one drains. -/
theorem flipPipe_draining {p : Nat} {s : State} (h : inBank (epochOf s p) (epochOf s p).cur ≠ 0) :
    flipPipe p s = modEpoch p epochFlipped s := by
  simp [flipPipe, h, modEpoch, epochFlipped]

theorem flipPipes (l : List Nat) : ∀ s : State, l.Nodup → (∀ p ∈ l, inBank (epochOf s p) (epochOf s p).cur ≠ 0) →
    ∃ m, each l flipPipe s = { s with cls := { s.cls with epoch := m } }
      ∧ ∀ p, mget {} m p = if p ∈ l then epochFlipped (epochOf s p) else epochOf s p := by
  induction l with
  | nil => exact fun s _ _ => ⟨s.cls.epoch, rfl, fun p => by simp [epochOf]⟩
  | cons a r ih =>
    intro s hn h
    obtain ⟨ha, hr⟩ := List.nodup_cons.mp hn
    have hne : ∀ p ∈ r, a ≠ p := fun p hp e => ha (e ▸ hp)
    obtain ⟨m, e, hm⟩ := ih (modEpoch a epochFlipped s) hr fun p hp => by
      rw [epochOf_modEpoch_ne (hne p hp)]
      exact h p (List.mem_cons_of_mem _ hp)
    refine ⟨m, by rw [each_cons, flipPipe_draining (h a List.mem_cons_self), e]; rfl, fun p => ?_⟩
    rw [hm]
    by_cases c : a = p
    · subst c
      rw [if_neg ha, if_pos List.mem_cons_self, epochOf_modEpoch]
    · rw [epochOf_modEpoch_ne c]
      simp [Ne.symm c]

theorem runEpochFlip_all {h : Hdr} {t : FormT} {a : Nat × Nat} {s : State} (hk : h.kind = 0)
    (hp : ∀ p ∈ pipelines s.part, unitDown s 2 p = false ∧ (epochOf s p).draining = false) :
    runEpochFlip h t a s = (.done 0 1 0 0, each (pipelines s.part) flipPipe s) := by
  have hu : targetUnits s h.kind h.unit 2 = pipelines s.part := by
    simp [targetUnits, hk, unitsOfKind]
  have hf : (pipelines s.part).filter (fun p => !unitDown s 2 p) = pipelines s.part :=
    List.filter_eq_self.mpr fun p hm => by simp [(hp p hm).1]
  have hd : ((pipelines s.part).any fun p => (epochOf s p).draining) = false :=
    List.any_eq_false.mpr fun p hm => by simp [(hp p hm).2]
  unfold runEpochFlip
  simp only [hu, hf, hd]
  simp [hk]

/-! ### The G3 forms (R95, R96) -/

theorem g3Len_one {s : State} {o u i : Nat} (h5 : o ≠ 0x0105) (h3 : o ≠ 0x0203) : g3Len s o u i 1 = entrySize o := by
  simp [g3Len, idxList, g3Size, h3, hostSize_of_ne h5, sumL]

/-- A write of a group entry reaches the current bank of every pipeline that is not down (R96, R99). -/
def groupWritten (ps : List Nat) (i v : Nat) (s : State) : State :=
  each ps (fun p t => if unitDown t 2 p then t else objPut 0x0106 p (bankNo (epochOf t p).cur) i (v % 2 ^ 64) t) s

theorem groupWritten_frame (ps : List Nat) (i v : Nat) (s : State) : groupWritten ps i v s
    = { s with cls := { s.cls with objs := (groupWritten ps i v s).cls.objs } } := by
  refine each_inv _ (fun t => t = { s with cls := { s.cls with objs := t.cls.objs } }) ps s (fun p _ t ht => ?_) rfl
  split
  · exact ht
  · rw [ht]
    rfl

theorem groupWritten_reads (ps : List Nat) (i v : Nat) (s : State) : ∀ p ∈ ps, unitDown s 2 p = false →
    objGet (groupWritten ps i v s) 0x0106 p (bankNo (epochOf s p).cur) i = v % 2 ^ 64 := by
  have hw := each_each (fun p t => if unitDown t 2 p then t else objPut 0x0106 p (bankNo (epochOf t p).cur) i (v % 2 ^ 64) t)
    (fun p t => unitDown t 2 p = false → objGet t 0x0106 p (bankNo (epochOf t p).cur) i = v % 2 ^ 64) ps s
    (fun p _ t hd => ?_) (fun p _ q _ t h hd => ?_)
  · intro p hp hd
    have hg := groupWritten_frame ps i v s
    have hu : unitDown (groupWritten ps i v s) 2 p = unitDown s 2 p := by
      rw [hg]
      rfl
    have he : epochOf (groupWritten ps i v s) p = epochOf s p := by
      rw [hg]
      rfl
    rw [← he]
    exact hw p hp (hu.trans hd)
  · split at hd
    · rename_i c
      exact absurd (hd.symm.trans c) Bool.false_ne_true
    · rename_i c
      rw [if_neg c, epochOf_objPut, objGet_objPut]
  · split
    · rename_i c
      rw [if_pos c] at hd
      exact h hd
    · rename_i c
      rw [if_neg c, unitDown_objPut] at hd
      rw [epochOf_objPut]
      exact objGet_objPut_keep _ _ _ _ _ _ _ _ (h hd)

theorem runG3TableWrite_group {h : G3Hdr} {b : G3Body} {a : Nat × Nat} {s : State} (ht : h.table = 0x11) (hc : b.count = 1)
    (hf : b.first < 8192) (hd : g3Check a.1 b.hostAddr 8 false s = (0, s)) (hp : unitsPending s a = false) :
    runG3TableWrite h b a s = (.done 0 1 0 0, groupWritten (pipelines s.part) b.first (rdN s.host b.hostAddr 8) s) := by
  have ho : g3Object h.table = some 0x0106 := by
    rw [ht]
    rfl
  have hlen : g3Len s 0x0106 (sizeUnit (pipelines s.part)) b.first 1 = 8 := g3Len_one (by decide) (by decide)
  have hu : targetUnits s 0 0 (objUnitKind 0x0106) = pipelines s.part := rfl
  have himg : g3Images s 0x0106 (sizeUnit (pipelines s.part)) 1 b.first (rdBytes s.host b.hostAddr 8) = [rdN s.host b.hostAddr 8] := by
    simp only [g3Images, g3Size, hostSize_of_ne (by decide : 0x0106 ≠ 0x0105)]
    rfl
  have hw : writeCurrent 0x0106 (pipelines s.part) b.first (rdN s.host b.hostAddr 8) s
      = ((0, b.first), groupWritten (pipelines s.part) b.first (rdN s.host b.hostAddr 8) s) := by
    unfold writeCurrent
    rw [if_neg (show ¬entryCount 0x0106 ≤ b.first from Nat.not_le.mpr hf)]
    rfl
  have hall := writeAll_one hw
  have hpend : unitsPending (groupWritten (pipelines s.part) b.first (rdN s.host b.hostAddr 8) s) a = false := by
    rw [groupWritten_frame]
    exact hp
  unfold runG3TableWrite
  rw [ho]
  simp only [hc, clampCount_one (by decide : 1 ≤ 64), hu, hlen, hd, himg, idxList]
  simp [hall, afterWrite, hpend, keyed]

/-- Of the units an object is read from, a free value chooses one (log 20). -/
theorem readUnit_some {s : State} {o k u : Nat} (h : targetUnits s k u (objUnitKind o) ≠ []) :
    ∃ d t, readUnit s o k u = (some d, t) ∧ t = { s with free := t.free } ∧ d ∈ targetUnits s k u (objUnitKind o) := by
  unfold readUnit
  split
  · contradiction
  · rename_i d e
    exact ⟨d, s, rfl, rfl, e ▸ List.mem_singleton_self d⟩
  · rename_i d r _ e
    refine ⟨_, _, rfl, rfl, ?_⟩
    have hlt : Config.freeValue (useFree s).1 % (r.length + 1) < (d :: r).length := Nat.mod_lt _ (Nat.succ_pos _)
    rw [e]
    have hm := List.getElem_mem hlt
    rw [← List.getD_eq_getElem (d :: r) d hlt] at hm
    exact hm

theorem runG3TableRead_one {h : G3Hdr} {b : G3Body} {a : Nat × Nat} {s : State} (ht : h.table = 0x05) (hc : b.count = 1)
    (hf : b.first < 4096) (hd : addrStatus s (ringLink s a.1) b.hostAddr 64 64 true = 0)
    (ha : ∀ d, meetsAbsent s d (tOff 0x0205 b.first) 8 = false ∧ (cmpOf s d (tOff 0x0205 b.first / 65536)).suspect = false) :
    ∃ d u, runG3TableRead h b a s = (.done 0 1 1 0, hostWr b.hostAddr (leBytes 8 (tEntry s d 0x0205 b.first)) u)
      ∧ u = { s with free := u.free } ∧ d ∈ dies s.part := by
  have hn : targetUnits s 0 0 (objUnitKind 0x0205) ≠ [] := by
    show dies s.part ≠ []
    cases s.part <;> decide
  obtain ⟨d, u, hr, hu, hm⟩ := readUnit_some hn
  have hfwd : u.fwd = s.fwd := by rw [hu]
  have ho : g3Object h.table = some 0x0205 := by
    rw [ht]
    rfl
  have hlen : g3Len u 0x0205 d b.first 1 = 8 := g3Len_one (by decide) (by decide)
  have hck : g3Check a.1 b.hostAddr 8 true u = (0, u) := by
    have hregs : u.regs = s.regs := by rw [hu]
    have hbif : u.hif.bifurcated = s.hif.bifurcated := by rw [hu]
    exact g3Check_of (m := 64) (by rw [addrStatus_congr hregs hbif, ringLink_congr hregs hbif, hd]) rfl
  have hall := readAll_one (readEntry_table (s := u) (f := 0) (d := d) rfl hf ((meetsAbsent_congr hfwd ..).trans (ha d).1)
    ((congrArg Cmp.suspect (cmpOf_congr hfwd ..)).trans (ha d).2))
  rw [tEntry_congr (show u.tmem = s.tmem by rw [hu])] at hall
  have hb : readBytes u 0x0205 d b.first [tEntry s d 0x0205 b.first] = leBytes 8 (tEntry s d 0x0205 b.first) := by
    simp [readBytes, idxList, hostSize, entrySize]
  have hcf : currentFlags u 0x0205 d = 0 := rfl
  have hk : keyed 0x0205 = false := rfl
  refine ⟨d, u, ?_, hu, hm⟩
  unfold runG3TableRead
  rw [ho]
  simp only [hr, hc, clampCount_one (by decide : 1 ≤ 64), hlen, hck, idxList, hcf, hk, hall, hb]
  rfl

/-! ### The claim -/

/-- Settles O11: each command begins at once, and its run is one of those above. -/
theorem tableCommands : Obligations.TableCommands := by
  refine ⟨fun h t s b ho hk hx ha hc hf hu hb hp => ?_, fun h t d s b ho hk hc hf hu ha hs hd => ?_, fun h t s b ho hu hd => ?_,
    fun h t d s b ho hk hu hd => ?_, fun h t d s b ho hu hd => ?_, fun h t s b ho ha hc hf hu => ?_, fun h t s b hk hp => ?_,
    fun h x s b ht hc hf hd hp => ?_, fun h x s b ht hc hf hd ha => ?_⟩
  · have hr := runTableWrite_one (s := beginState s (.tableWrite h t) h.ring) (a := (h.ring, (ring s h.ring).begun)) ho hk hx ha hc hf
      (by simpa using hu) (by simpa using hb) (by simpa using hp)
    rw [beginState_part] at hr
    have hfr := tableWriteOn_frame (dies s.part) t.object t.first (t.inline % 2 ^ 192 % 256 ^ slotSize t.object)
      (beginState s (.tableWrite h t) h.ring)
    have hfit := tFits_of_lt (indexedTable_facts _ (mem_indexedTables ho hk)).2.2.2.2 hf
    have he := tEntry_tableWriteOn (dies s.part) t.object t.first (t.inline % 2 ^ 192 % 256 ^ slotSize t.object) hfit
      (beginState s (.tableWrite h t) h.ring)
    generalize tableWriteOn (dies s.part) t.object t.first (t.inline % 2 ^ 192 % 256 ^ slotSize t.object)
      (beginState s (.tableWrite h t) h.ring) = w at hr hfr he
    have hy := command_done_quiet b hr (by rw [hfr])
    refine ⟨_, congrArg Host.Outcome.next hy, fun d hd => ?_, ?_⟩
    · exact (tEntry_congr rfl ..).trans ((he d hd).trans (Nat.mod_mod _ _))
    · rw [hfr]
  · have hr := runTableRead_one (s := beginState s (.tableRead h t) h.ring) (a := (h.ring, (ring s h.ring).begun)) ho hk hc hf
      ((beginState_targetUnits ..).trans hu) ((beginState_meetsAbsent ..).trans ha)
      ((congrArg Cmp.suspect (beginState_cmpOf ..)).trans hs) (beginState_dataCheck hd _ _)
    rw [beginState_tEntry] at hr
    have hy := command_done_quiet b hr rfl
    rw [hostWr, beginState_host] at hy
    generalize beginState s (.tableRead h t) h.ring = v at hy ⊢
    exact congrArg Host.Outcome.next hy
  · have hr := runBulkWrite_begins (s := beginState s (.tableBulkWrite h t) h.ring) (a := (h.ring, (ring s h.ring).begun)) ho
      (by rw [beginState_targetUnits]; exact hu)
      (beginState_dataCheck (by rw [beginState_targetUnits, beginState_dataLen]; exact hd) _ _)
    obtain ⟨he, hfr⟩ := command_starts b hr fun _ => ⟨rfl, rfl⟩
    exact ⟨_, _, rfl, he, rfl, rfl, rfl, rfl, hfr⟩
  · have hr := runBulkRead_begins (s := beginState s (.tableBulkRead h t) h.ring) (a := (h.ring, (ring s h.ring).begun)) ho hk
      ((beginState_targetUnits ..).trans hu) (beginState_dataCheck (by rw [beginState_dataLen]; exact hd) _ _)
    obtain ⟨he, hfr⟩ := command_starts b hr fun _ => ⟨rfl, rfl⟩
    exact ⟨_, _, rfl, he, rfl, rfl, rfl, rfl, hfr⟩
  · have hr := runTableScan_begins (s := beginState s (.tableScan h t) h.ring) (a := (h.ring, (ring s h.ring).begun)) ho
      ((beginState_targetUnits ..).trans hu) (beginState_dataCheck hd _ _)
    obtain ⟨he, hfr⟩ := command_starts b hr fun _ => ⟨rfl, rfl⟩
    exact ⟨_, _, rfl, he, rfl, rfl, rfl, rfl, hfr⟩
  · have hr := runDigestSet_one (s := beginState s (.digestSet h t) h.ring) (a := (h.ring, (ring s h.ring).begun)) ho ha hc hf
      (by rw [beginState_targetUnits]; exact hu)
    rw [beginState_targetUnits] at hr
    have hfr := each_modCmp_frame (targetUnits s h.kind h.unit 1) t.first (digestLoaded (t.inline % 2 ^ 192 % 256 ^ 8))
      (beginState s (.digestSet h t) h.ring)
    have hm := cmpOf_each_modCmp (l := targetUnits s h.kind h.unit 1) (b := t.first) (f := digestLoaded (t.inline % 2 ^ 192 % 256 ^ 8))
      (P := fun c => c.digest = t.inline % 2 ^ 64 ∧ c.stale = false)
      (fun c => ⟨inline_low t.inline, rfl⟩) (beginState s (.digestSet h t) h.ring)
    generalize each (targetUnits s h.kind h.unit 1) (fun d u => modCmp d t.first (digestLoaded (t.inline % 2 ^ 192 % 256 ^ 8)) u)
      (beginState s (.digestSet h t) h.ring) = w at hr hfr hm
    have hy := command_done_quiet b hr (by rw [hfr])
    exact ⟨_, congrArg Host.Outcome.next hy, hm, by rw [hfr]⟩
  · have hr := runEpochFlip_all (t := t) (s := beginState s (.epochFlip h t) h.ring) (a := (h.ring, (ring s h.ring).begun)) hk fun p hm => by
      rw [beginState_part] at hm
      rw [beginState_unitDown, beginState_epochOf]
      exact ⟨(hp p hm).1, (hp p hm).2.1⟩
    rw [beginState_part] at hr
    obtain ⟨m, e, hm⟩ := flipPipes (pipelines s.part) (beginState s (.epochFlip h t) h.ring) (pipelines_nodup _) fun p hm => by
      rw [beginState_epochOf]
      exact (hp p hm).2.2
    rw [e] at hr
    have hy := command_done_quiet b hr rfl
    refine ⟨_, congrArg Host.Outcome.next hy, fun p hp => ?_, rfl⟩
    have he := (hm p).trans (if_pos hp)
    rw [beginState_epochOf] at he
    exact ⟨congrArg Epoch.cur he, congrArg Epoch.draining he⟩
  · have hr := runG3TableWrite_group (s := beginState s (.g3TableWrite h x) h.ring) (a := (h.ring, (ring s h.ring).begun)) ht hc hf
      (beginState_g3Check hd rfl _ _) ((beginState_unitsPending ..).trans hp)
    rw [beginState_part, beginState_host] at hr
    have hfr := groupWritten_frame (pipelines s.part) x.first (rdN s.host x.hostAddr 8) (beginState s (.g3TableWrite h x) h.ring)
    have hm := groupWritten_reads (pipelines s.part) x.first (rdN s.host x.hostAddr 8) (beginState s (.g3TableWrite h x) h.ring)
    generalize groupWritten (pipelines s.part) x.first (rdN s.host x.hostAddr 8) (beginState s (.g3TableWrite h x) h.ring) = w
      at hr hfr hm
    have hy := command_done_quiet b hr (by rw [hfr])
    refine ⟨_, congrArg Host.Outcome.next hy, fun p hp hu => ?_, by rw [hfr]⟩
    have ho := hm p hp ((beginState_unitDown ..).trans hu)
    rw [beginState_epochOf, show (2 : Nat) ^ 64 = 256 ^ 8 by decide, Nat.mod_eq_of_lt (rdN_lt s.host x.hostAddr 8)] at ho
    exact ho
  · obtain ⟨d, w, hr, hw, hm⟩ := runG3TableRead_one (s := beginState s (.g3TableRead h x) h.ring) (a := (h.ring, (ring s h.ring).begun)) ht
      hc hf (by rw [beginState_ringLink, beginState_addrStatus, hd])
      fun d => ⟨(beginState_meetsAbsent ..).trans (ha d).1, (congrArg Cmp.suspect (beginState_cmpOf ..)).trans (ha d).2⟩
    rw [beginState_tEntry] at hr
    rw [beginState_part] at hm
    have hh : w.host = s.host := by rw [hw, beginState_host]
    have hy := command_done_quiet b hr (by rw [hw]; rfl)
    generalize beginState s (.g3TableRead h x) h.ring = v at hw ⊢
    refine ⟨_, d, congrArg Host.Outcome.next hy, hm, ?_, ?_⟩
    · exact congrArg (fun m => wrBytes m x.hostAddr (leBytes 8 (tEntry s d 0x0205 x.first))) hh
    · rw [hw]
      rfl

end Sys2Proof.Proofs
end

section
/-! Counter commands of one entry (R96, R169, R502). -/

namespace Sys2Proof.Proofs

open Sys2Proof.Machine Sys2Proof.Laws

/-- The counter objects whose entries are plain 64-bit counts: no gauge, none that grows with time, none of the links. -/
def plainCounters : List Nat := [0x0181, 0x0281, 0x0882, 0x0981, 0x0C81, 0x0C82, 0x0D81, 0x0D82]

theorem plainCounter_facts : ∀ o ∈ plainCounters, objKind o = .counter ∧ entrySize o = 8 ∧ o ≠ 0x0183 ∧ o ≠ 0x0703 ∧ o ≠ 0x0881 := by
  decide

theorem gaugeOf_plain {o : Nat} (h : o ∈ plainCounters) (s : State) (u i : Nat) : gaugeOf s o u i = none := by
  simp only [plainCounters, List.mem_cons, List.not_mem_nil, or_false] at h
  rcases h with rfl | rfl | rfl | rfl | rfl | rfl | rfl | rfl <;> rfl

theorem settleCounts_plain {o : Nat} (h : o ∈ plainCounters) (l : List Nat) (s : State) : settleCounts o l s = s := by
  simp only [plainCounters, List.mem_cons, List.not_mem_nil, or_false] at h
  rcases h with rfl | rfl | rfl | rfl | rfl | rfl | rfl | rfl <;> rfl

theorem countOf_plain {o : Nat} (h : o ∈ plainCounters) (s : State) (u i : Nat) : countOf s o u i = cntGet s o u i := by
  simp only [plainCounters, List.mem_cons, List.not_mem_nil, or_false] at h
  rcases h with rfl | rfl | rfl | rfl | rfl | rfl | rfl | rfl <;> rfl

theorem countImage_plain {o u i : Nat} {s : State} (h : o ∈ plainCounters) (hi : i < entryCount o)
    (hd : unitDown s (objUnitKind o) u = false) : countImage s o u i = cntGet s o u i := by
  obtain ⟨-, -, h183, -, -⟩ := plainCounter_facts o h
  simp [countImage, Nat.not_le.mpr hi, hd, gaugeOf_plain h, h183, countOf_plain h]

theorem countClear_plain {o u i : Nat} {s : State} (h : o ∈ plainCounters) (hi : i < entryCount o) :
    countClear o u i s = cntSet s o u i 0 := by
  obtain ⟨-, -, h183, h703, h881⟩ := plainCounter_facts o h
  simp [countClear, Nat.not_le.mpr hi, gaugeOf_plain h, h183, h703, h881]

theorem countIdx_one {t : FormT} (hc : t.count = 1) (hf : t.first < entryCount t.object) : countIdx t = [t.first] := by
  simp [countIdx, hc, clampCount_one (by decide : 1 ≤ 4), firstIdx_of_lt hf, upTo]

theorem entriesBytes_one (n e : Nat) : entriesBytes n [e] = leBytes n e := by
  simp [entriesBytes]

theorem runCounterRead_one {h : Hdr} {t : FormT} {d : Nat} {a : Nat × Nat} {s : State} (ho : t.object ∈ plainCounters)
    (hc : t.count = 1) (hf : t.first < entryCount t.object) (hu : targetUnits s h.kind h.unit (objUnitKind t.object) = [d])
    (hw : unitDown s (objUnitKind t.object) d = false) (hd : dataCheck a.1 t 8 true s = (0, s)) :
    runCounterRead h t a s = (.done 0 1 1 0, hostWr t.hostAddr (leBytes 8 (cntGet s t.object d t.first)) s) := by
  obtain ⟨hk, hs, -⟩ := plainCounter_facts _ ho
  unfold runCounterRead
  simp only [hk, readUnit_one hu, countIdx_one hc hf, hs, List.length_singleton, Nat.mul_one, hd, settleCounts_plain ho,
    List.map_singleton, countImage_plain ho hf hw, entriesBytes_one]
  rfl

theorem runCounterClear_one {h : Hdr} {t : FormT} {d : Nat} {a : Nat × Nat} {s : State} (ho : t.object ∈ plainCounters)
    (hc : t.count = 1) (hf : t.first < entryCount t.object) (hu : targetUnits s h.kind h.unit (objUnitKind t.object) = [d]) :
    runCounterClear h t a s = (.done 0 1 0 0, cntSet s t.object d t.first 0) := by
  obtain ⟨hk, -⟩ := plainCounter_facts _ ho
  unfold runCounterClear
  simp only [hk, hu, countIdx_one hc hf, settleCounts_plain ho, each_cons, each_nil, countClear_plain ho hf]
  rfl

theorem cntGet_cntSet_ne (s : State) {o u e o' u' e' : Nat} (v : Nat) (h : cntKey o u e ≠ cntKey o' u' e') :
    cntGet (cntSet s o u e v) o' u' e' = cntGet s o' u' e' := mget_mset_ne _ _ h _

/-! ### A count summed over the dies (R96, R169) -/

/-- A die has no power domain of its own. -/
theorem unitDown_die (s : State) (d : Nat) : unitDown s 1 d = false := by
  have h : targetDomain 1 d = none := by
    unfold targetDomain
    split <;> rfl
  unfold unitDown targetDown
  rw [h]

theorem addImages_eight (n c : Nat) : addImages 8 n c = (n + c) % 2 ^ 64 := by
  simp [addImages, Nat.add_mod]

theorem countSum_bridging {s : State} {i : Nat} (hi : i < 16) :
    countSum s 0x0281 i = (dies s.part).foldl (fun n d => (n + cntGet s 0x0281 d i) % 2 ^ 64) 0 := by
  have hf : (fun n d => addImages (entrySize 0x0281) n (countImage s 0x0281 d i)) = fun n d => (n + cntGet s 0x0281 d i) % 2 ^ 64 := by
    funext n d
    rw [countImage_plain (by decide) hi (unitDown_die s d)]
    exact addImages_eight n _
  unfold countSum
  rw [hf]
  rfl

theorem runG3CounterRead_one {h : G3Hdr} {b : G3Body} {a : Nat × Nat} {s : State} (ht : h.table = 0x82) (hc : b.count = 1)
    (hf : b.first < 16) (hd : g3Check a.1 b.hostAddr 8 true s = (0, s)) : runG3CounterRead h b a s
      = (.done 0 1 1 0, hostWr b.hostAddr (leBytes 8 ((dies s.part).foldl (fun n d => (n + cntGet s 0x0281 d b.first) % 2 ^ 64) 0)) s) := by
  have ho : g3Counter h.table = some 0x0281 := by
    rw [ht]
    rfl
  have hl : (upTo (clampCount 64 b.count)).map (b.first + ·) = [b.first] := by
    simp [hc, clampCount_one (by decide : 1 ≤ 64), upTo]
  unfold runG3CounterRead
  rw [ho]
  simp only [hl, List.length_singleton, Nat.mul_one, show entrySize 0x0281 = 8 from rfl, hd, List.map_singleton, countSum_bridging hf,
    entriesBytes_one]
  rfl

/-- Settles O13: the objects named are plain counts, so that each command is one read or one write of the count. -/
theorem counterCommands : Obligations.CounterCommands := by
  refine ⟨fun h t d s b ho hc hf hu hw hd => ?_, fun h t d s b ho hc hf hu => ?_, fun h x s b ht hc hf hd => ?_⟩
  · have hr := runCounterRead_one (s := beginState s (.counterRead h t) h.ring) (a := (h.ring, (ring s h.ring).begun)) ho hc hf
      ((beginState_targetUnits ..).trans hu) ((beginState_unitDown ..).trans hw) (beginState_dataCheck hd _ _)
    have hy := command_done_quiet b hr rfl
    rw [hostWr, beginState_host, cntGet_congr (beginState_cnt ..)] at hy
    generalize beginState s (.counterRead h t) h.ring = v at hy ⊢
    exact congrArg Host.Outcome.next hy
  · have hr := runCounterClear_one (s := beginState s (.counterClear h t) h.ring) (a := (h.ring, (ring s h.ring).begun)) ho hc hf
      ((beginState_targetUnits ..).trans hu)
    have hv := beginState_cnt s (.counterClear h t) h.ring
    have hy := command_done_quiet b hr rfl
    generalize beginState s (.counterClear h t) h.ring = v at hv hy ⊢
    refine ⟨_, congrArg Host.Outcome.next hy, ?_, fun o k i hk => ?_, rfl⟩
    · exact cntGet_cntSet v t.object d t.first 0
    · exact (cntGet_cntSet_ne v 0 hk.symm).trans (cntGet_congr hv o k i)
  · have hr := runG3CounterRead_one (s := beginState s (.g3CounterRead h x) h.ring) (a := (h.ring, (ring s h.ring).begun)) ht hc hf
      (beginState_g3Check hd rfl _ _)
    have hv := beginState_cnt s (.g3CounterRead h x) h.ring
    simp only [beginState_part, cntGet_congr hv] at hr
    have hy := command_done_quiet b hr rfl
    rw [hostWr, beginState_host] at hy
    generalize beginState s (.g3CounterRead h x) h.ring = v at hy ⊢
    exact congrArg Host.Outcome.next hy

end Sys2Proof.Proofs
end

section
/-! The beginnings of the long commands, and the commit of a gate list (R57, R207, R279, R338, R340, R398, R438, R444). -/

namespace Sys2Proof.Proofs

open Sys2Proof.Machine Sys2Proof.Laws

/-! ### A command that goes on -/

/-- A command whose run goes on, from a state with the host interface as it began and no event raised. -/
theorem command_goes_quiet {s u : State} {i : Instr} {g : Nat} (b : begins s i g) {run : Nat × Nat → State → CmdOut × State}
    {w : WaitFor} (h : run (g, (ring s g).begun) (beginState s i g) = (.go w, u)) (hh : u.hif = (beginState s i g).hif)
    (hq : u.raised = (beginState s i g).raised) :
    inflight (command i run s) (g, (ring s g).begun)
        = some { newInflight i g (ring s g).begun (fetchOrder s g (ring s g).begun) with wait := w, stepping := true }
      ∧ command i run s = { u with hif := (command i run s).hif, actor := none } := by
  refine command_goes b h (hq.trans ((beginState_only s i g).raised rfl)) ?_
  rw [← inflight_begin s i g b.alone]
  unfold inflight
  rw [hh]

/-- The same, when the run also notes something in the command's entry. -/
theorem command_goes_noting {s v : State} {i : Instr} {g : Nat} (b : begins s i g) {run : Nat × Nat → State → CmdOut × State}
    {w : WaitFor} {f : InFlight → InFlight}
    (h : run (g, (ring s g).begun) (beginState s i g) = (.go w, modInflight (g, (ring s g).begun) f v))
    (hh : v.hif = (beginState s i g).hif) (hq : v.raised = (beginState s i g).raised)
    (k : ∀ x, (f x).ring = x.ring ∧ (f x).index = x.index) :
    inflight (command i run s) (g, (ring s g).begun)
        = some { f (newInflight i g (ring s g).begun (fetchOrder s g (ring s g).begun)) with wait := w, stepping := true }
      ∧ command i run s = { v with hif := (command i run s).hif, actor := none } := by
  refine command_goes b h (hq.trans ((beginState_only s i g).raised rfl)) (inflight_modInflight _ _ _ ?_ k)
  rw [← inflight_begin s i g b.alone]
  unfold inflight
  rw [hh]

theorem beginState_frame (s : State) (i : Instr) (g : Nat) (h : Hif) :
    { beginState s i g with hif := h, actor := none } = { s with hif := h, actor := none } := by
  obtain ⟨I, F, A, e⟩ := beginState_form s i g
  rw [e]

@[simp] theorem beginState_egs (s : State) (i : Instr) (g : Nat) : (beginState s i g).egs = s.egs :=
  (beginState_only s i g).egs rfl
@[simp] theorem beginState_hbm (s : State) (i : Instr) (g : Nat) : (beginState s i g).hbm = s.hbm :=
  (beginState_only s i g).hbm rfl
@[simp] theorem beginState_tsk (s : State) (i : Instr) (g : Nat) : (beginState s i g).tsk = s.tsk :=
  (beginState_only s i g).tsk rfl

/-! ### SHAPER_SET (R57, R338) -/

theorem leBytes_add (n m x : Nat) : leBytes (n + m) x = leBytes n x ++ leBytes m (x / 256 ^ n) := by
  induction n generalizing x with
  | zero => simp [leBytes]
  | succ n ih =>
    rw [Nat.succ_add, leBytes, leBytes, List.cons_append, ih, Nat.div_div_eq_div_mul, Nat.pow_succ, Nat.mul_comm (256 ^ n)]

/-- The first entry of the inline words. -/
theorem entryAt_inline (x : Nat) : entryAt (leBytes 24 x) 16 0 = x % 2 ^ 128 := by
  rw [show (24 : Nat) = 16 + 8 from rfl, leBytes_add]
  exact ofLe_takeBytes_middle [] _ 16 x

theorem newShaper_set (k : Nat) (v : Option (Nat × Bool)) (s : State) :
    mget none (modEgs (fun e => { e with newShaper := mset none e.newShaper k v }) s).egs.newShaper k = v := mget_mset_same _ _ _ _

theorem runShaperSet_one {h : Hdr} {t : FormT} {d : Nat} {a : Nat × Nat} {s : State} (ho : t.object = 0x0902)
    (hu : targetUnits s h.kind h.unit 1 = [d]) (hc : t.count = 1) (hf : t.first < 3200) : ∃ f, (bit t.opFlags 0 = true → f = true) ∧
      runShaperSet h t a s = (.go .shaper, modInflight a (fun e => { e with progress := 1 }) (modEgs (fun e => { e with
        newShaper := mset none e.newShaper (4096 * d + t.first) (some (t.inline % 2 ^ 128, f)) }) s)) := by
  have hfi : firstIdx t = t.first := firstIdx_of_lt (o := 0x0902) hf
  have hn : ¬3200 < t.first + 1 := by omega
  unfold runShaperSet
  simp only [ho, hu, hc, clampCount_one (by decide : 1 ≤ 4), hfi, hn, ne_eq, not_true, or_self, List.cons_ne_nil, if_false, if_true,
    each_cons, each_nil, entryAt_inline, show upTo 1 = [0] from rfl, Nat.add_zero]
  exact ⟨_, fun hb => by rw [hb, Bool.or_true], rfl⟩

/-! ### GATE_LOAD (R339, R340) -/

theorem gatePorts_congr {s t : State} (h : t.part = s.part) (h2 : t.egs = s.egs) (x : Hdr) : gatePorts x t = gatePorts x s := by
  unfold gatePorts allPorts portsOfDie portsOfOctet formation
  rw [h, h2]

theorem runGateLoad_begins {h : Hdr} {t : FormT} {a : Nat × Nat} {s : State} (hp : gatePorts h s ≠ []) (ho : t.object = 0x0903)
    (hd : dataCheck a.1 t (ceilDiv (32 + 8 * gateCount t) 64 * 64) false s = (0, s)) : runGateLoad h t a s = (.go .nothing, s) := by
  unfold runGateLoad
  simp only [hp, ho, hd]
  rfl

/-- The list becomes the pending list of a port. -/
def gatePending (l : GateList) (g : Gates) : Gates := { g with pending := some l }

theorem gates_modGates (p : Nat) (f : Gates → Gates) (s : State) : gates (modGates p f s) p = f (gates s p) :=
  mget_mset_same _ _ _ _

theorem gates_modGates_ne {p q : Nat} (h : p ≠ q) (f : Gates → Gates) (s : State) : gates (modGates p f s) q = gates s q :=
  mget_mset_ne _ _ h _

theorem gatesPending (ps : List Nat) (l : GateList) (s : State) : ∀ p ∈ ps,
    (gates (each ps (fun q t => modGates q (gatePending l) t) s) p).pending = some l := by
  refine each_each _ (fun p t => (gates t p).pending = some l) ps s (fun p _ t => ?_) (fun p _ q _ t h => ?_)
  · rw [gates_modGates]
    rfl
  · by_cases c : q = p
    · subst c
      rw [gates_modGates]
      rfl
    · rw [gates_modGates_ne c]
      exact h

/-- The list a GATE_LOAD commits, with its start (R340). -/
def gateCommitted (t : FormT) (s : State) : GateList :=
  let l := gateListOf (rdBytes s.host t.hostAddr (32 + 8 * gateCount t)) (gateCount t)
  { l with start := gateStartTime l (timeFxUp s) }

theorem stepGateLoad_commits {h : Hdr} {t : FormT} {e : InFlight} (he : e.progress + 1 = gateCount t) (s : State) :
    ∃ r0 r1, stepGateLoad h t e s = (.done 0 (gateCount t) r0 r1,
      each (gatePorts h s) (fun q u => modGates q (gatePending (gateCommitted t s)) u) s) := by
  unfold stepGateLoad
  rw [if_neg (Nat.not_lt.mpr he.ge)]
  exact ⟨_, _, rfl⟩

/-- The step of a long command that completes it, with no event raised. -/
theorem longStep_done {a : Nat × Nat} {e : InFlight} {s u : State} {f : State → StepOut × State} {st p r0 r1 : Nat}
    (h : inflight s a = some e) (hf : stepOf e = some f) (hs : e.stepping = true)
    (hd : targetDown s (cmdTarget e.cmd).1 (cmdTarget e.cmd).2 = false) (hx : f { s with actor := some a } = (.done st p r0 r1, u))
    (hq : u.raised = s.raised) : longStep a s = finish a st p r0 r1 { u with actor := none } := by
  unfold longStep runStep
  simp [h, hf, hs, hd, hx, hq, takeStep]

theorem finish_egs (a : Nat × Nat) (st p r0 r1 : Nat) (s : State) : (finish a st p r0 r1 s).egs = s.egs :=
  (finish_keeps (Only.allows 6416 s) rfl a st p r0 r1 _ (Only.refl _ s)).egs rfl

theorem each_modGates_frame (ps : List Nat) (f : Gates → Gates) (s : State) :
    each ps (fun q t => modGates q f t) s = { s with egs := (each ps (fun q t => modGates q f t) s).egs } :=
  each_inv _ (fun t => t = { s with egs := t.egs }) ps s (fun q _ t ht => by rw [ht]; rfl) rfl

/-- The commit of a gate list leaves it pending at each port of the command. -/
theorem longStep_gateLoad {a : Nat × Nat} {h : Hdr} {t : FormT} {e : InFlight} {s : State} (hi : inflight s a = some e)
    (hc : e.cmd = .gateLoad h t) (hs : e.stepping = true) (hp : e.progress + 1 = gateCount t)
    (hd : targetDown s (cmdTarget e.cmd).1 (cmdTarget e.cmd).2 = false) :
    ∀ p ∈ gatePorts h s, (gates (longStep a s) p).pending = some (gateCommitted t s) := by
  have hf : stepOf e = some (stepGateLoad h t e) := by
    unfold stepOf
    rw [hc]
  obtain ⟨r0, r1, hx⟩ := stepGateLoad_commits (h := h) hp { s with actor := some a }
  rw [gatePorts_congr (s := s) (t := { s with actor := some a }) rfl rfl,
    show gateCommitted t { s with actor := some a } = gateCommitted t s from rfl] at hx
  have hfr := each_modGates_frame (gatePorts h s) (gatePending (gateCommitted t s)) { s with actor := some a }
  have hg := gatesPending (gatePorts h s) (gateCommitted t s) { s with actor := some a }
  have hq := congrArg State.raised hfr
  have hl := longStep_done hi hf hs hd hx hq
  intro p hm
  refine Eq.trans ?_ (hg p hm)
  rw [hl]
  unfold gates
  rw [finish_egs]

/-! ### FLOW_RESTORE, MEM_READ, MEM_WRITE, CHECK_SCAN and FW_STAGE (R207, R279, R398, R438) -/

theorem runFlowRestore_begins {h : Hdr} {t : FormT} {a : Nat × Nat} {s : State} (hk : h.kind = 0) (ho : t.object = 0x0501)
    (hd : dataCheck a.1 t (320 * restoreCount t) false s = (0, s)) : runFlowRestore h t a s = (.go .nothing, s) := by
  unfold runFlowRestore
  simp only [hk, ho, hd]
  rfl

theorem devRange_congr {s t : State} (h : t.part = s.part) (h2 : t.hbm = s.hbm) (d n : Nat) : devRange t d n = devRange s d n := by
  have hm : mapped t = mapped s := by
    funext a
    unfold mapped rankOf
    rw [h2]
  unfold devRange
  rw [h, hm]

theorem panicCheck_frame (d : Nat) (s : State) :
    panicCheck d s = { s with cnt := (panicCheck d s).cnt, hbm := (panicCheck d s).hbm } := by
  unfold panicCheck countPanic
  dsimp only
  split
  · rfl
  · split
    · split <;> rfl
    · rfl

/-- A request joins its controllers, which may start or end a panic: counters and HBM change only. -/
theorem hbmPush_frame (p : Nat) (q : HbmReq) (s : State) :
    hbmPush p q s = { s with cnt := (hbmPush p q s).cnt, hbm := (hbmPush p q s).hbm } := by
  refine each_inv _ (fun t => t = { s with cnt := t.cnt, hbm := t.hbm }) _ s (fun d _ t ht => ?_) rfl
  rw [panicCheck_frame, ht]
  rfl

theorem askRead_frame (r : DevRange) (n : Nat) (s : State) :
    askRead r n s = { s with cnt := (askRead r n s).cnt, hbm := (askRead r n s).hbm } := by
  cases r
  · exact hbmPush_frame ..
  · rfl

theorem runMemRead_begins {m : FormM} {a : Nat × Nat} {r : DevRange} {s : State} (hl : m.length ≠ 0)
    (hr : devRange s m.devAddr m.length = some r) (hd : dmaCheck a.1 m.hostAddr m.length 64 true s = (0, s)) :
    runMemRead m a s = (.go .nothing, askRead r (stepBytes m 0) s) := by
  unfold runMemRead
  rw [hd]
  dsimp only
  rw [hr]
  simp [hl]

theorem runMemWrite_begins {m : FormM} {a : Nat × Nat} {x : Nat} {s : State} (hl : m.length ≠ 0)
    (hr : devRange s m.devAddr m.length = some (.hbm x)) (hx : 3 ≤ regionOf (x % 2 ^ 35))
    (hd : dmaCheck a.1 m.hostAddr m.length 64 false s = (0, s)) : runMemWrite m a s = (.go .nothing, s) := by
  unfold runMemWrite
  rw [hd]
  dsimp only
  rw [hr]
  rw [if_neg (not_not.mpr rfl)]
  dsimp only
  rw [if_neg (Nat.not_lt.mpr hx), if_neg hl]

/-- The only command in flight, not yet begun, finds an engine free. -/
theorem enginesBusy_alone {s : State} {a : Nat × Nat} {e : InFlight} (h : s.hif.inflight = [e]) (hs : e.stepping = false)
    (hw : e.wait = .nothing) (d : Nat) : enginesBusy s a d = false := by
  have hn : scanEngines s d ≠ 0 := by
    unfold scanEngines
    split <;> decide
  unfold enginesBusy
  rw [h]
  by_cases c : scanOn s e = some d <;> simp [c, hs, hw, hn]

theorem runCheckScan_begins {m : FormM} {a : Nat × Nat} {r : DevRange} {s : State} (hf : scanFields m = true)
    (hr : devRange s m.devAddr m.length = some r) (hb : enginesBusy s a (scanDie r) = false)
    (hd : dmaCheck a.1 m.hostAddr (scanHost m) 64 (!bit m.opFlags 4) s = (0, s)) : runCheckScan m a s
      = (.go .nothing, modInflight a (fun e => { e with acc := [scanStart m 0, 0, 0] })
          (cntInc 0x0C81 0 8 (askRead r (scanBytes m 0) s))) := by
  unfold runCheckScan
  simp only [hf, hr, hb, hd, ite_self]
  rfl

theorem slotInUse_congr {s t : State} (h : t.part = s.part) (h2 : t.tsk = s.tsk) (n : Nat) : slotInUse t n = slotInUse s n := by
  unfold slotInUse cluster
  rw [h, h2]

theorem slotValid_setValid (n : Nat) (v : Bool) (s : State) : mget false (setValid n v s).tsk.slotValid n = v := mget_mset_same _ _ _ _

theorem runFwStage_begins {m : FormM} {a : Nat × Nat} {s : State} (h64 : m.devAddr % 64 = 0) (hm : m.devAddr + m.length ≤ imageMax)
    (hl : m.length ≠ 0) (hs : slotInUse s (m.opFlags % 2) = false) (hd : dmaCheck a.1 m.hostAddr m.length 64 false s = (0, s)) :
    runFwStage m a s = (.go .nothing, setValid (m.opFlags % 2) false s) := by
  unfold runFwStage
  simp only [h64, Nat.not_lt.mpr hm, hs, hd, hl]
  rfl

/-! ### The claim -/

/-- Settles O14: each run goes on at once; the step of a gate list's last entry commits it. -/
theorem longCommandsBegin : Obligations.LongCommandsBegin := by
  refine ⟨fun h t d s b ho hu hc hf => ?_, fun h t s b hp ho hd => ?_, fun g i h t e s hi hc hs hp hd => ?_,
    fun h t s b hk ho hd => ?_, fun h m r s b hl hr hd => ?_, fun h m x s b hl hr hx hd => ?_, fun h m r s b hf hr hd => ?_,
    fun h m s b h64 hm hl hs hd => ?_⟩
  · obtain ⟨f, hb, hr⟩ := runShaperSet_one (s := beginState s (.shaperSet h t) h.ring) (a := (h.ring, (ring s h.ring).begun)) ho
      ((beginState_targetUnits ..).trans hu) hc hf
    obtain ⟨he, hfr⟩ := command_goes_noting b hr rfl rfl fun _ => ⟨rfl, rfl⟩
    refine ⟨_, _, f, rfl, ?_, hb, he, rfl, rfl, rfl⟩
    have hg := congrArg (fun x => mget none (Egs.newShaper x) (4096 * d + t.first)) (congrArg State.egs hfr)
    exact hg.trans (newShaper_set _ _ _)
  · have hr := runGateLoad_begins (s := beginState s (.gateLoad h t) h.ring) (t := t) (a := (h.ring, (ring s h.ring).begun))
      (by rw [gatePorts_congr (beginState_part ..) (beginState_egs ..)]; exact hp) ho (beginState_dataCheck hd _ _)
    obtain ⟨he, hfr⟩ := command_goes_quiet b hr rfl rfl
    exact ⟨_, _, rfl, he, rfl, rfl, rfl, hfr.trans (beginState_frame ..)⟩
  · exact ⟨_, rfl, longStep_gateLoad hi hc hs hp hd⟩
  · have hr := runFlowRestore_begins (s := beginState s (.flowRestore h t) h.ring) (t := t) (a := (h.ring, (ring s h.ring).begun)) hk ho
      (beginState_dataCheck hd _ _)
    obtain ⟨he, hfr⟩ := command_goes_quiet b hr rfl rfl
    exact ⟨_, _, rfl, he, rfl, rfl, rfl, hfr.trans (beginState_frame ..)⟩
  · have hx := runMemRead_begins (s := beginState s (.memRead h m) h.ring) (a := (h.ring, (ring s h.ring).begun)) hl
      ((devRange_congr (beginState_part ..) (beginState_hbm ..) ..).trans hr) (beginState_dmaCheck hd _ _)
    have hk := askRead_frame r (stepBytes m 0) (beginState s (.memRead h m) h.ring)
    obtain ⟨he, -⟩ := command_goes_quiet b hx (by rw [hk]) (by rw [hk])
    exact ⟨_, _, rfl, he, rfl, rfl, rfl⟩
  · have hy := runMemWrite_begins (s := beginState s (.memWrite h m) h.ring) (a := (h.ring, (ring s h.ring).begun)) hl
      ((devRange_congr (beginState_part ..) (beginState_hbm ..) ..).trans hr) hx (beginState_dmaCheck hd _ _)
    obtain ⟨he, hfr⟩ := command_goes_quiet b hy rfl rfl
    exact ⟨_, _, rfl, he, rfl, rfl, rfl, hfr.trans (beginState_frame ..)⟩
  · have hx := runCheckScan_begins (s := beginState s (.checkScan h m) h.ring) (a := (h.ring, (ring s h.ring).begun)) hf
      ((devRange_congr (beginState_part ..) (beginState_hbm ..) ..).trans hr)
      (enginesBusy_alone (beginState_inflight _ _ _ b.alone) rfl rfl _) (beginState_dmaCheck hd _ _)
    have hk := askRead_frame r (scanBytes m 0) (beginState s (.checkScan h m) h.ring)
    obtain ⟨he, -⟩ := command_goes_noting b hx (by rw [hk]; rfl) (by rw [hk]; rfl) fun _ => ⟨rfl, rfl⟩
    exact ⟨_, _, rfl, he, rfl, rfl, rfl, rfl⟩
  · have hx := runFwStage_begins (s := beginState s (.fwStage h m) h.ring) (a := (h.ring, (ring s h.ring).begun)) h64 hm hl
      ((slotInUse_congr (beginState_part ..) (beginState_tsk ..) _).trans hs) (beginState_dmaCheck hd _ _)
    obtain ⟨he, hfr⟩ := command_goes_quiet b hx rfl rfl
    refine ⟨_, _, rfl, he, rfl, rfl, rfl, ?_⟩
    have hg := congrArg (fun x => mget false (Tsk.slotValid x) (m.opFlags % 2)) (congrArg State.tsk hfr)
    exact hg.trans (slotValid_setValid _ _ _)

end Sys2Proof.Proofs
end

section
/-! The descriptors of an inject ring (R74, R294, R369). -/

namespace Sys2Proof.Proofs

open Sys2Proof.Machine Sys2Proof.Laws

/-! ### The next descriptor of an inject ring -/

/-- The next descriptor of a ring begins. -/
def begunNext (g : Nat) (s : State) : State := pruneFetched g (modRing g (fun r => { r with begun := r.begun + 1 }) s)

/-- The next descriptor of an inject ring begins, and ends with a status. -/
def injectEnds (d : Inject) (op i st : Nat) (s : State) : State :=
  putCompletion (pairOf (begunNext (400 + d.ring) s) (400 + d.ring)) (cplDesc op st 0 d.cookie (400 + d.ring) i 0 ⟨0, 0, 0⟩ 0)
    (begunNext (400 + d.ring) s)

section
variable {d : Inject} {op : Nat} {f : Nat × Nat → List Byte → State → Bool × State} {s : State}

theorem inject_idle (h : 256 ≤ d.ring ∨ (ring s (400 + d.ring)).cons ≤ (ring s (400 + d.ring)).begun) : inject d op f s = s := by
  unfold inject
  exact if_neg (by omega)

theorem inject_absent (hr : d.ring < 256) (hc : (ring s (400 + d.ring)).begun < (ring s (400 + d.ring)).cons)
    (hp : (allPorts s).contains d.port = false) :
    inject d op f s = injectEnds d op (ring s (400 + d.ring)).begun 4 s := by
  unfold inject
  dsimp only
  rw [if_pos ⟨hr, hc⟩, hp]
  rfl

theorem inject_down (hr : d.ring < 256) (hc : (ring s (400 + d.ring)).begun < (ring s (400 + d.ring)).cons)
    (hp : (allPorts s).contains d.port = true) (hw : domWorks s (domPipe (pipeOfLane d.port)) = false) :
    inject d op f s = injectEnds d op (ring s (400 + d.ring)).begun 9 s := by
  unfold inject
  dsimp only
  rw [if_pos ⟨hr, hc⟩, hp, hw]
  rfl

/-- A buffer that passes or fails its check. -/
theorem inject_checked {st : Nat} {u : State} (hr : d.ring < 256) (hc : (ring s (400 + d.ring)).begun < (ring s (400 + d.ring)).cons)
    (hp : (allPorts s).contains d.port = true) (hw : domWorks s (domPipe (pipeOfLane d.port)) = true)
    (hd : dmaCheck (400 + d.ring) d.buffer (64 * ceilDiv d.length 64) 64 false s = (st, u)) :
    inject d op f s = if st ≠ 0 then injectEnds d op (ring s (400 + d.ring)).begun st u
      else bif (f (400 + d.ring, (ring s (400 + d.ring)).begun) (rdBytes u.host d.buffer d.length) u).1
        then begunNext (400 + d.ring) (f (400 + d.ring, (ring s (400 + d.ring)).begun) (rdBytes u.host d.buffer d.length) u).2
        else (f (400 + d.ring, (ring s (400 + d.ring)).begun) (rdBytes u.host d.buffer d.length) u).2 := by
  unfold inject
  dsimp only
  rw [if_pos ⟨hr, hc⟩, hp, hw, hd]
  dsimp only
  generalize f (400 + d.ring, (ring s (400 + d.ring)).begun) (rdBytes u.host d.buffer d.length) u = x
  obtain ⟨b, t⟩ := x
  cases b <;> rfl

theorem inject_refused {st : Nat} {u : State} (hr : d.ring < 256) (hc : (ring s (400 + d.ring)).begun < (ring s (400 + d.ring)).cons)
    (hp : (allPorts s).contains d.port = true) (hw : domWorks s (domPipe (pipeOfLane d.port)) = true)
    (hd : dmaCheck (400 + d.ring) d.buffer (64 * ceilDiv d.length 64) 64 false s = (st, u)) (hs : st ≠ 0) :
    inject d op f s = injectEnds d op (ring s (400 + d.ring)).begun st u :=
  (inject_checked hr hc hp hw hd).trans (if_pos hs)

theorem inject_runs {b : Bool} {t : State} (hr : d.ring < 256) (hc : (ring s (400 + d.ring)).begun < (ring s (400 + d.ring)).cons)
    (hp : (allPorts s).contains d.port = true) (hw : domWorks s (domPipe (pipeOfLane d.port)) = true)
    (hd : dmaCheck (400 + d.ring) d.buffer (64 * ceilDiv d.length 64) 64 false s = (0, s))
    (hf : f (400 + d.ring, (ring s (400 + d.ring)).begun) (rdBytes s.host d.buffer d.length) s = (b, t)) :
    inject d op f s = bif b then begunNext (400 + d.ring) t else t := by
  rw [inject_checked hr hc hp hw hd, if_neg (not_not.mpr rfl), hf]

end

/-! ### A frame's request for cells (R294) -/

theorem countWaits_keeps_cells (d : Nat) (s : State) : (countWaits d s).pkts = s.pkts ∧ (countWaits d s).buf.cells = s.buf.cells := by
  unfold countWaits
  dsimp only
  split
  · exact ⟨rfl, rfl⟩
  · split <;> exact ⟨rfl, rfl⟩

theorem setWaiters_keeps_cells (d : Nat) (l : List Waiter) (s : State) :
    (setWaiters d l s).pkts = s.pkts ∧ (setWaiters d l s).buf.cells = s.buf.cells := by
  unfold setWaiters
  dsimp only
  split
  · exact ⟨rfl, rfl⟩
  · exact countWaits_keeps_cells d s

/-- A request that is not granted waits: no frame and no cell changes. -/
theorem askCells_waits {d : Nat} {w : Waiter} {s u : State} (h : askCells d w s = (false, u)) :
    u.pkts = s.pkts ∧ u.buf.cells = s.buf.cells := by
  unfold askCells at h
  dsimp only at h
  by_cases c : arbNext s d (if (waiters s d).contains w then waiters s d else waiters s d ++ [w]) = some w
  · rw [if_pos c] at h
    exact absurd (show true = false from congrArg Prod.fst h) (by decide)
  · rw [if_neg c] at h
    rw [← show _ = u from congrArg Prod.snd h]
    dsimp only
    split
    · exact ⟨rfl, rfl⟩
    · exact setWaiters_keeps_cells d _ s

/-! ### The claim -/

/-- Settles O35: a descriptor that is no begun frame ends with its status, and one that is runs its row's part. -/
theorem injectedFrames : Obligations.InjectedFrames := by
  refine ⟨fun d s h => ⟨congrArg Host.Outcome.next (inject_idle h), congrArg Host.Outcome.next (inject_idle h)⟩,
    fun d s hr hc hp => ⟨congrArg Host.Outcome.next (inject_absent hr hc hp), congrArg Host.Outcome.next (inject_absent hr hc hp)⟩,
    fun d s hr hc hp hw => ⟨congrArg Host.Outcome.next (inject_down hr hc hp hw), congrArg Host.Outcome.next (inject_down hr hc hp hw)⟩,
    fun d st u s hr hc hp hw hd hs =>
      ⟨congrArg Host.Outcome.next (inject_refused hr hc hp hw hd hs), congrArg Host.Outcome.next (inject_refused hr hc hp hw hd hs)⟩,
    fun d s hr hc hp hw hd => ?_, fun d p bs u s hr hc hp hw hd hb hq ha => ?_,
    fun d x bs p ks u v s hr hc hp hw hd hb hq ha hx hk => ?_⟩
  · have hi : injectPipe d s = _ := inject_runs hr hc hp hw hd rfl
    exact congrArg Host.Outcome.next hi
  · have hi : injectPort d s = u := by
      refine inject_runs (b := false) hr hc hp hw hd ?_
      subst hb hq
      dsimp only
      rw [ha]
    exact ⟨congrArg Host.Outcome.next hi, askCells_waits ha⟩
  · have hi : injectPort d s = begunNext (400 + d.ring) (queueFrame v.nextPkt p (d.queue % 16) [(d.port, none)] false 0
        (if d.stampReq then modPkt v.nextPkt (fun y => { y with cells := ks }) u
          else injectDone x 0 ⟨0, 0, 0⟩ false (modPkt v.nextPkt (fun y => { y with cells := ks }) u))) := by
      refine inject_runs (b := true) hr hc hp hw hd ?_
      subst hb hq hx
      dsimp only
      rw [ha]
      dsimp only
      rw [show newPkt _ v = (v.nextPkt, (newPkt _ v).2) from rfl]
      dsimp only
      rw [hk]
    exact congrArg Host.Outcome.next hi

end Sys2Proof.Proofs
end

section
/-! The recirculation limit (R123, R134): CLS_RECIRC_CFG's place, field and reset value, and its use when a pass recirculates. -/

namespace Sys2Proof.Proofs

open Sys2Proof.Machine Sys2Proof.Laws

/-! ### The register -/

theorem regAddr_clsRecircCfg (p : Nat) : regAddr (.clsRecircCfg p) = dieBase (p / 4) + 0x80000 + 0x0080 + 4 * (p % 4) := by
  have h : regAddr (.clsRecircCfg p) = dieBase (p / 4) + 0x80080 + 4 * (p % 4) := rfl
  omega

theorem regAddr_clsRecircCfg_lt {part : Part} {p : Nat} (h : hasPipe part p = true) : regAddr (.clsRecircCfg p) < bar2Base := by
  have hd : p / 4 ≤ 3 := by
    cases part <;> simp [hasPipe, hasDie, dies] at h <;> omega
  rw [regAddr_clsRecircCfg]
  unfold dieBase bar2Base
  omega

theorem lckMask_clsRecircCfg (p : Nat) : accMask (.clsRecircCfg p) .lck = 7#32 := rfl

theorem rwMask_clsRecircCfg (p : Nat) : accMask (.clsRecircCfg p) .rw = 0#32 := rfl

theorem storedMask_clsRecircCfg (p : Nat) : storedMask (.clsRecircCfg p) = 7#32 := by
  unfold storedMask
  rw [rwMask_clsRecircCfg, lckMask_clsRecircCfg, BitVec.zero_or]

theorem stored_reset_clsRecircCfg (p : Nat) : stored State.reset (.clsRecircCfg p) = 3#32 := rfl

theorem maskedWrite_zero (old v : Word) : (old &&& ~~~0#32) ||| (v &&& 0#32) = old := by
  rw [BitVec.not_zero, BitVec.and_allOnes, BitVec.and_zero, BitVec.or_zero]

/-- The register's bits after a write are max_recirc's, and are the old ones once the commit has locked them. -/
theorem clsRecircCfg_write {path : Path} {p : Nat} (v : Word) {s : State} (w : writable s path (.clsRecircCfg p)) :
    ∃ t, exec (.registerWrite path (regAddr (.clsRecircCfg p)) v) s = .next t
      ∧ stored t (.clsRecircCfg p) = if lockedReg s (.clsRecircCfg p) then stored s (.clsRecircCfg p)
          else (stored s (.clsRecircCfg p) &&& ~~~7#32) ||| (v &&& 7#32) := by
  obtain ⟨hreg, hpipe⟩ : regAt (regAddr (.clsRecircCfg p)) = some (.clsRecircCfg p) ∧ hasPipe s.part p = true := by
    obtain ⟨-, hexists, -, -⟩ := w
    simpa [regExists, regPresent] using hexists
  obtain ⟨hwrite, -⟩ := registerWriteStores
  obtain ⟨t, hexec, hstored, -⟩ := hwrite path _ _ v s (regAddr_clsRecircCfg_lt hpipe) hreg rfl w
  rw [rwMask_clsRecircCfg, storedMask_clsRecircCfg] at hstored
  refine ⟨t, hexec, hstored.trans ?_⟩
  cases lockedReg s (.clsRecircCfg p) with
  | true => exact maskedWrite_zero _ v
  | false => rfl

/-! ### A changed packet -/

theorem lookup_modified {V : Type} (k : Nat) (f : V → V) (l : List (Nat × V)) :
    (l.map fun e => if e.1 = k then (e.1, f e.2) else e).lookup k = (l.lookup k).map f := by
  induction l with
  | nil => rfl
  | cons e r ih =>
    obtain ⟨j, v⟩ := e
    by_cases h : j = k
    · subst h
      simp
    · have hk : (k == j) = false := beq_false_of_ne (Ne.symm h)
      simp [List.lookup_cons, h, hk, ih]

theorem pktOf_modPkt (k : Nat) (f : Pkt → Pkt) (s : State) : pktOf (modPkt k f s) k = (pktOf s k).map f :=
  lookup_modified k f s.pkts

/-! ### RECIRCULATE at the end of a pass -/

theorem recirculate_beyond {p : Nat} {x : Pkt} {s : State} (k : Nat) (sn : Snap) (h : cfg s (.clsRecircCfg p) 2 0 < x.passes) :
    recirculate p k x sn s = modPkt k (fun y => { y with snap := dropSnap sn (some (0x0182, p, 4)) }) s :=
  if_pos h

theorem recirculate_within {p : Nat} {x : Pkt} {s : State} (k : Nat) (sn : Snap) (h : x.passes ≤ cfg s (.clsRecircCfg p) 2 0) :
    recirculate p k x sn s = retagYoyo k (modPipe p (fun z => { z with yoyo := z.yoyo ++ [⟨k, none, s.now + 32000⟩] })
      (modPkt k (fun y => { y with snap := sn, strip := sn.strip + stripBytes sn, prof := fld sn.reTarget 3 0 }) s)) :=
  if_neg (Nat.not_lt.mpr h)

/-! ### The claim -/

/-- Settles O45: the write is that of a storing register, and the limit's comparison is the branch of `recirculate`. -/
theorem recirculationLimitRegister : Obligations.RecirculationLimitRegister := by
  refine ⟨regAddr_clsRecircCfg,
    fun p => ⟨lckMask_clsRecircCfg p, storedMask_clsRecircCfg p, stored_reset_clsRecircCfg p⟩,
    fun _ _ v _ w => clsRecircCfg_write v w, fun p k x sn s h => ?_, fun p k x y sn s h hy => ?_⟩
  · exact ⟨_, recirculate_within k sn h, congrArg Pipe.yoyo (pipe_modPipe p _ _)⟩
  · refine ⟨_, recirculate_beyond k sn h, ?_, modPkt_pipes ..⟩
    rw [pktOf_modPkt, hy]
    rfl

end Sys2Proof.Proofs
end

section
/-! The match banks' unit writes (R115) and scrub (R116), and the shadow compare of table memory (R164–R166). -/

namespace Sys2Proof.Proofs

open Sys2Proof.Machine Sys2Proof.Laws

/-! ### The rows of present units -/

theorem execMatchBankUnitWrite_present {p b : Nat} (r : Bool) {s : State} (hp : hasPipe s.part p = true) (hb : b < 8) :
    exec (.matchBankUnitWrite p b r) s = .next (unitWrite p b r s) :=
  congrArg Host.Outcome.next (if_pos ⟨hp, hb⟩)

theorem execMatchBankScrub_present {p b : Nat} (a : Bool) {s : State} (hp : hasPipe s.part p = true) (hb : b < 8) :
    exec (.matchBankScrub p b a) s = .next (bankScrub p b a s) :=
  congrArg Host.Outcome.next (if_pos ⟨hp, hb⟩)

theorem execShadowCompare_present {d b : Nat} {s : State} (hd : hasDie s.part d = true) (hb : b < 1024) :
    exec (.shadowCompare d b) s = .next (shadowCompare d b s) :=
  congrArg Host.Outcome.next (if_pos ⟨hd, hb⟩)

/-! ### What the banks hold after a change (R112, R116) -/

theorem bankUpdates_setUpdates (p b : Nat) (l : List UnitUpd) (s : State) : bankUpdates (setUpdates p b l s) p b = l :=
  mget_mset_same _ _ _ _

theorem tcamEntry_putTcam (p e img : Nat) (s : State) : tcamEntry (putTcam p e img s) p e = img :=
  mget_mset_same _ _ _ _

@[simp] theorem putTcam_sram (p e img : Nat) (s : State) : (putTcam p e img s).cls.sram = s.cls.sram := rfl

@[simp] theorem putTcam_cnt (p e img : Nat) (s : State) : (putTcam p e img s).cnt = s.cnt := modCls_cnt ..

theorem suspect_markSuspect (p e : Nat) (m : Bool) (s : State) :
    mget false (markSuspect p e m s).cls.suspect (unitKey p e) = m :=
  mget_mset_same _ _ _ _

theorem failed_markFailed (p e : Nat) (m : Bool) (s : State) : mget false (markFailed p e m s).cls.failed (unitKey p e) = m :=
  mget_mset_same _ _ _ _

/-! ### Unit writes (R115) -/

/-- The unit writes an update takes: one, or one more than its units, the first of which clears valid. -/
def unitWrites (u : UnitUpd) : Nat := if u.width = 1 then 1 else u.width + 1

/-- A unit write outside the reserved slots counts a bubble. -/
def countBubble (p : Nat) (reserved : Bool) (s : State) : State := if reserved then s else cntInc 0x0182 p 0 s

@[simp] theorem countBubble_cls (p : Nat) (r : Bool) (s : State) : (countBubble p r s).cls = s.cls := by
  cases r <;> rfl

/-- The last unit write of an update: the whole image in both copies, with neither mark. -/
def updateEnds (p b : Nat) (u : UnitUpd) (rest : List UnitUpd) (s : State) : State :=
  setUpdates p b rest (markFailed p u.addr false (markSuspect p u.addr false (putTcam p u.addr u.image
    (modCls (fun c => { c with sram := mset 0 c.sram (unitKey p u.addr) u.image }) s))))

/-- One more unit write of an update is done. -/
def updateGoesOn (p b : Nat) (u : UnitUpd) (rest : List UnitUpd) (s : State) : State :=
  setUpdates p b ({ u with done := u.done + 1 } :: rest) s

section
variable {p b : Nat} {r : Bool} {u : UnitUpd} {rest : List UnitUpd} {s : State}

/-- The update is gone, both copies hold its image, and its entry is not suspect. -/
theorem updateEnds_copies : bankUpdates (updateEnds p b u rest s) p b = rest
    ∧ tcamEntry (updateEnds p b u rest s) p u.addr = u.image
    ∧ mget 0 (updateEnds p b u rest s).cls.sram (unitKey p u.addr) = u.image
    ∧ mget false (updateEnds p b u rest s).cls.suspect (unitKey p u.addr) = false :=
  ⟨mget_mset_same [] _ _ _, mget_mset_same 0 _ _ _, mget_mset_same 0 _ _ _,
    suspect_markSuspect p u.addr false (putTcam p u.addr u.image s)⟩

@[simp] theorem updateEnds_cnt : (updateEnds p b u rest s).cnt = s.cnt := by
  simp only [updateEnds, setUpdates, markFailed, markSuspect, putTcam, modCls_cnt]

theorem updateGoesOn_updates : bankUpdates (updateGoesOn p b u rest s) p b = { u with done := u.done + 1 } :: rest :=
  bankUpdates_setUpdates p b _ s

@[simp] theorem updateGoesOn_tcam : (updateGoesOn p b u rest s).cls.tcam = s.cls.tcam := rfl

@[simp] theorem updateGoesOn_sram : (updateGoesOn p b u rest s).cls.sram = s.cls.sram := rfl

@[simp] theorem updateGoesOn_cnt : (updateGoesOn p b u rest s).cnt = s.cnt := modCls_cnt ..

theorem unitWrite_idle (hu : bankUpdates s p b = []) : unitWrite p b r s = s := by
  unfold unitWrite
  rw [hu]

theorem unitWrite_last (hu : bankUpdates s p b = u :: rest) (hc : u.cmd = none) (ht : u.done + 1 = unitWrites u) :
    unitWrite p b r s = updateEnds p b u rest (countBubble p r s) := by
  unfold unitWrite
  rw [hu]
  exact (if_pos ht).trans (by rw [hc]; rfl)

theorem unitWrite_first (hu : bankUpdates s p b = u :: rest) (ht : u.done + 1 ≠ unitWrites u) (h0 : u.done = 0) :
    unitWrite p b r s = updateGoesOn p b u rest
      (putTcam p u.addr (clearValid u.width (tcamEntry (countBubble p r s) p u.addr)) (countBubble p r s)) := by
  unfold unitWrite
  rw [hu]
  exact (if_neg ht).trans (by rw [if_pos h0]; rfl)

theorem unitWrite_middle (hu : bankUpdates s p b = u :: rest) (ht : u.done + 1 ≠ unitWrites u) (h0 : u.done ≠ 0) :
    unitWrite p b r s = updateGoesOn p b u rest (countBubble p r s) := by
  unfold unitWrite
  rw [hu]
  exact (if_neg ht).trans (by rw [if_neg h0]; rfl)

/-- Whichever write of an update it is, the count is the bubble's alone. -/
theorem unitWrite_cnt (hu : bankUpdates s p b = u :: rest) (hc : u.cmd = none) :
    (unitWrite p b r s).cnt = (countBubble p r s).cnt := by
  by_cases ht : u.done + 1 = unitWrites u
  · rw [unitWrite_last hu hc ht, updateEnds_cnt]
  · by_cases h0 : u.done = 0
    · rw [unitWrite_first hu ht h0, updateGoesOn_cnt, putTcam_cnt]
    · rw [unitWrite_middle hu ht h0, updateGoesOn_cnt]

end

/-! ### Scrub visits (R116) -/

/-- The entry of the unit that a scrub visits next. -/
def scrubAddr (s : State) (p b : Nat) : Nat :=
  2048 * b + (mget 0 s.cls.scrub (8 * p + b) - mget 0 s.cls.scrub (8 * p + b) % bankWidth s p b)

/-- The scrub of a bank moves on to the next unit. -/
def scrubMovesOn (p b : Nat) (s : State) : State :=
  modCls (fun c => { c with scrub := mset 0 c.scrub (8 * p + b) ((mget 0 s.cls.scrub (8 * p + b) + 1) % 2048) }) s

theorem scrub_scrubMovesOn (p b : Nat) (s : State) :
    mget 0 (scrubMovesOn p b s).cls.scrub (8 * p + b) = (mget 0 s.cls.scrub (8 * p + b) + 1) % 2048 :=
  mget_mset_same _ _ _ _

/-- A difference is rewritten from the SRAM copy; the mark stays on an entry whose read-back failed before. -/
def scrubRewrites (p b : Nat) (s : State) : State :=
  let t := putTcam p (scrubAddr s p b) (sramEntry s p (scrubAddr s p b)) (scrubMovesOn p b s)
  if mget false s.cls.failed (unitKey p (scrubAddr s p b)) then t else markSuspect p (scrubAddr s p b) false t

/-- A rewrite that does not read back marks its entry until the driver writes it. -/
def scrubFails (p b : Nat) (s : State) : State :=
  markFailed p (scrubAddr s p b) true (markSuspect p (scrubAddr s p b) true (scrubMovesOn p b s))

section
variable {p b : Nat} {s : State}

theorem bankScrub_equal (a : Bool) (h : tcamEntry s p (scrubAddr s p b) = sramEntry s p (scrubAddr s p b)) :
    bankScrub p b a s = scrubMovesOn p b s :=
  if_pos (Or.inl h)

/-- A difference at an entry of a bank with no update pending is no update's own. -/
theorem bankScrub_differs (a : Bool) (h : tcamEntry s p (scrubAddr s p b) ≠ sramEntry s p (scrubAddr s p b))
    (hu : bankUpdates s p b = []) :
    bankScrub p b a s = if a then scrubRewrites p b s else raise (clsSrc p 1) evMbUnitFault 0 0 0 0 (scrubFails p b s) := by
  refine if_neg fun hor => hor.elim h fun hmoving => ?_
  have hnone : ((bankUpdates s p b).any fun x => decide (x.addr = scrubAddr s p b) && decide (0 < x.done)) = true := hmoving
  rw [hu] at hnone
  cases hnone

theorem scrubRewrites_cls (s : State) :
    tcamEntry (scrubRewrites p b s) p (scrubAddr s p b) = sramEntry s p (scrubAddr s p b)
      ∧ mget 0 (scrubRewrites p b s).cls.scrub (8 * p + b) = (mget 0 s.cls.scrub (8 * p + b) + 1) % 2048
      ∧ mget false (scrubRewrites p b s).cls.suspect (unitKey p (scrubAddr s p b))
        = (mget false s.cls.failed (unitKey p (scrubAddr s p b)) && mget false s.cls.suspect (unitKey p (scrubAddr s p b))) := by
  unfold scrubRewrites
  cases mget false s.cls.failed (unitKey p (scrubAddr s p b)) with
  | true => exact ⟨tcamEntry_putTcam .., scrub_scrubMovesOn p b s, (Bool.true_and _).symm⟩
  | false => exact ⟨tcamEntry_putTcam .., scrub_scrubMovesOn p b s, suspect_markSuspect ..⟩

end

/-! ### Shadow compares (R164–R166) -/

section
variable {d b : Nat} {s : State}

theorem shadowCompare_off
    (h : cfgBit s (.fwdCmpCfg d) 31 = false ∨ s.now < (cmpOf s d b).at_ + cfg1 s (.fwdCmpCfg d) 11 0 * 10 ^ 12) :
    shadowCompare d b s = s :=
  if_pos (by simpa using h)

variable (hon : cfgBit s (.fwdCmpCfg d) 31 = true) (hdue : (cmpOf s d b).at_ + cfg1 s (.fwdCmpCfg d) 11 0 * 10 ^ 12 ≤ s.now)
include hon hdue

/-- The compares are on and the block's is due. -/
theorem compare_due :
    ¬ (!cfgBit s (.fwdCmpCfg d) 31 || decide (s.now < (cmpOf s d b).at_ + cfg1 s (.fwdCmpCfg d) 11 0 * 10 ^ 12)) = true := by
  simpa [hon] using hdue

theorem shadowCompare_stale_first (hs : (cmpOf s d b).stale = true) (h0 : (cmpOf s d b).cycles = 0) :
    shadowCompare d b s = modCmp d b (fun c => { c with cycles := c.cycles + 1, at_ := s.now }) s := by
  unfold shadowCompare
  dsimp only
  rw [if_neg (compare_due hon hdue), if_pos hs, if_neg (by omega)]

theorem shadowCompare_stale_again (hs : (cmpOf s d b).stale = true) (h0 : (cmpOf s d b).cycles ≠ 0)
    (ht : (cmpOf s d b).told = false) :
    shadowCompare d b s = raise (fwdSrc d 2) evTblDigestStale d b 0 0 (modCmp d b (fun c => { c with told := true })
      (modCmp d b (fun c => { c with cycles := c.cycles + 1, at_ := s.now }) s)) := by
  unfold shadowCompare
  dsimp only
  rw [if_neg (compare_due hon hdue), if_pos hs, if_pos ⟨Nat.one_le_iff_ne_zero.mpr h0, by rw [ht]; rfl⟩]

theorem shadowCompare_abandoned (hs : (cmpOf s d b).stale = false) (hd : (cmpOf s d b).dirty = true)
    (ha : (cmpOf s d b).abandoned < 4) :
    shadowCompare d b s = modCmp d b (fun c => { c with dirty := false, abandoned := c.abandoned + 1 }) s := by
  unfold shadowCompare
  dsimp only
  rw [if_neg (compare_due hon hdue), if_neg (by simp [hs]), if_pos (by simp [hd, ha])]

/-- The block's value is compared: the mark is whether it differs, and a difference is an event. -/
theorem shadowCompare_compares (hs : (cmpOf s d b).stale = false)
    (hd : (cmpOf s d b).dirty = false ∨ 4 ≤ (cmpOf s d b).abandoned) :
    shadowCompare d b s =
      let t := modCmp d b (fun x => { x with
        suspect := decide (compareValue s d b ≠ (cmpOf s d b).digest), abandoned := 0, dirty := false, at_ := s.now }) s
      if compareValue s d b ≠ (cmpOf s d b).digest
        then raise (fwdSrc d 3) evTblDigestMismatch d b (compareValue s d b) (cmpOf s d b).digest t else t := by
  have hgo : ¬ ((cmpOf s d b).dirty && decide ((cmpOf s d b).abandoned < 4)) = true := by
    simpa [Classical.or_iff_not_imp_left] using hd
  unfold shadowCompare
  dsimp only
  rw [if_neg (compare_due hon hdue), if_neg (by simp [hs]), if_neg hgo]

end

/-! ### The claim -/

/-- Settles O33: each clause is the branch of its row's operation that the clause's conditions choose. -/
theorem matchBankRows : Obligations.MatchBankRows := by
  refine ⟨fun p b r s hp hb hu => ?_, fun p b r u rest s hp hb hu hc ht => ?_, fun p b r u rest s hp hb hu h0 h1 hw => ?_,
    fun p b r u rest s hp hb hu h0 hw => ?_, fun p b u rest s hp hb hu hc => ?_, fun p b a w k s hp hb hk hw he => ?_,
    fun p b w k e s hp hb hk hw he hne hu => ?_, fun p b w k e s hp hb hk hw he hne hu => ?_, fun d b s h => ?_,
    fun d b c s hd hb hon hc hdue hs h0 => ?_, fun d b c s hd hb hon hc hdue hs h0 ht => ?_,
    fun d b c s hd hb hon hc hdue hs hw ha => ?_, fun d b c s hd hb hon hc hdue hs hw hv => ?_,
    fun d b c s hd hb hon hc hdue hs hw hv => ?_⟩
  · rw [execMatchBankUnitWrite_present r hp hb, unitWrite_idle hu]
  · exact ⟨_, (execMatchBankUnitWrite_present r hp hb).trans (congrArg Host.Outcome.next (unitWrite_last hu hc ht)),
      updateEnds_copies⟩
  · have ht : u.done + 1 ≠ unitWrites u := by
      unfold unitWrites
      rw [if_neg h1]
      omega
    refine ⟨_, (execMatchBankUnitWrite_present r hp hb).trans (congrArg Host.Outcome.next (unitWrite_first hu ht h0)), ?_, ?_, ?_⟩
    · rw [updateGoesOn_updates, h0]
    · exact (tcamEntry_putTcam p u.addr _ _).trans (by unfold tcamEntry; rw [countBubble_cls])
    · rw [updateGoesOn_sram, putTcam_sram, countBubble_cls]
  · have ht : u.done + 1 ≠ unitWrites u := by
      unfold unitWrites
      split <;> omega
    exact ⟨_, (execMatchBankUnitWrite_present r hp hb).trans (congrArg Host.Outcome.next (unitWrite_middle hu ht h0)),
      updateGoesOn_updates, by rw [updateGoesOn_tcam, countBubble_cls], by rw [updateGoesOn_sram, countBubble_cls]⟩
  · exact ⟨_, execMatchBankUnitWrite_present false hp hb, unitWrite_cnt hu hc⟩
  · subst hk hw
    exact (execMatchBankScrub_present a hp hb).trans (congrArg Host.Outcome.next (bankScrub_equal a he))
  · subst hk hw he
    exact ⟨_, (execMatchBankScrub_present true hp hb).trans (congrArg Host.Outcome.next (bankScrub_differs true hne hu)),
      scrubRewrites_cls s⟩
  · subst hk hw he
    exact ⟨_, (execMatchBankScrub_present false hp hb).trans (congrArg Host.Outcome.next (bankScrub_differs false hne hu)), rfl,
      suspect_markSuspect p (scrubAddr s p b) true (scrubMovesOn p b s), failed_markFailed ..⟩
  · exact congrArg Host.Outcome.next (ite_eq_right_iff.mpr fun _ => shadowCompare_off h)
  · subst hc
    exact ⟨_, (execShadowCompare_present hd hb).trans (congrArg Host.Outcome.next (shadowCompare_stale_first hon hdue hs h0)),
      (cmpOf_modCmp ..).trans (by rw [h0])⟩
  · subst hc
    exact ⟨_, (execShadowCompare_present hd hb).trans (congrArg Host.Outcome.next (shadowCompare_stale_again hon hdue hs h0 ht)),
      by rw [cmpOf_modCmp, cmpOf_modCmp]⟩
  · subst hc
    exact ⟨_, (execShadowCompare_present hd hb).trans (congrArg Host.Outcome.next (shadowCompare_abandoned hon hdue hs hw ha)),
      cmpOf_modCmp ..⟩
  · subst hc
    refine ⟨_, (execShadowCompare_present hd hb).trans (congrArg Host.Outcome.next
      ((shadowCompare_compares hon hdue hs hw).trans (if_neg (not_not.mpr hv)))), (cmpOf_modCmp ..).trans ?_⟩
    rw [hv]
    simp
  · subst hc
    refine ⟨_, (execShadowCompare_present hd hb).trans (congrArg Host.Outcome.next
      ((shadowCompare_compares hon hdue hs hw).trans (if_pos hv))), (cmpOf_modCmp ..).trans ?_⟩
    rw [decide_eq_true hv]

end Sys2Proof.Proofs
end

section
/-! Learning of L2 addresses: what the owner slice decides, what a die applies, what an ageing visit does (R146–R154), and which
requests a pipeline sends (R148). -/

namespace Sys2Proof.Proofs

open Sys2Proof.Machine Sys2Proof.Laws

/-! ### The owner's decision of a request (R150, R151) -/

section
variable {sl f m tgt i e : Nat} {s : State}

theorem learnInsert_free (hfree : l2FreeSlot s (dieOfSlice sl) f m = some i) :
    learnInsert sl f m tgt s = (true, ownerPut sl i (l2New f m tgt (msStamp s)) s) := by
  unfold learnInsert
  simp only [hfree]

theorem l2Victim_none (die : Nat) (hpin : ∀ j ∈ l2Cands s die f m, l2Pinned (l2Get s die j) = true) :
    l2Victim s die f m = (none, s) := by
  have hnil : ((l2Cands s die f m).filter fun j => !l2Pinned (l2Get s die j)) = [] :=
    List.filter_eq_nil_iff.mpr fun j hj => by simp [hpin j hj]
  unfold l2Victim
  simp only [hnil]

theorem learnInsert_full (hfree : l2FreeSlot s (dieOfSlice sl) f m = none)
    (hpin : ∀ j ∈ l2Cands s (dieOfSlice sl) f m, l2Pinned (l2Get s (dieOfSlice sl) j) = true) :
    learnInsert sl f m tgt s = (false, raise (fwdSrc (dieOfSlice sl) 1) evL2LearnFull (keyParams f m).1 (keyParams f m).2 tgt 0
      (learnCnt sl 9 s)) := by
  unfold learnInsert
  simp only [hfree, l2Victim_none _ hpin]

theorem learnDecide_new (hfind : l2Find s (dieOfSlice sl) f m = none) (hfree : l2FreeSlot s (dieOfSlice sl) f m = some i) :
    learnDecide sl f m tgt s = learnCnt sl 4 (ownerPut sl i (l2New f m tgt (msStamp s)) s) := by
  unfold learnDecide
  simp only [hfind, learnInsert_free hfree, if_true]

theorem learnDecide_full (hfind : l2Find s (dieOfSlice sl) f m = none) (hfree : l2FreeSlot s (dieOfSlice sl) f m = none)
    (hpin : ∀ j ∈ l2Cands s (dieOfSlice sl) f m, l2Pinned (l2Get s (dieOfSlice sl) j) = true) :
    learnDecide sl f m tgt s = raise (fwdSrc (dieOfSlice sl) 1) evL2LearnFull (keyParams f m).1 (keyParams f m).2 tgt 0
      (learnCnt sl 9 s) := by
  unfold learnDecide
  simp only [hfind, learnInsert_full hfree hpin, Bool.false_eq_true, if_false]

theorem learnDecide_pinned (hfind : l2Find s (dieOfSlice sl) f m = some i)
    (hpin : l2Pinned (unfreeze s (dieOfSlice sl) (l2Get s (dieOfSlice sl) i)) = true) :
    learnDecide sl f m tgt s
      = if l2Dest (unfreeze s (dieOfSlice sl) (l2Get s (dieOfSlice sl) i)) ≠ tgt then learnCnt sl 8 s else s := by
  unfold learnDecide
  simp only [hfind, hpin, if_true]

/-! An entry that is neither pinned nor due to be thawed. -/

section
variable (hfind : l2Find s (dieOfSlice sl) f m = some i) (hget : l2Get s (dieOfSlice sl) i = e)
  (hthaw : unfreeze s (dieOfSlice sl) e = e) (hpin : l2Pinned e = false)
include hfind hget hthaw hpin

theorem learnDecide_unmoved (hdest : l2Dest e = tgt) :
    learnDecide sl f m tgt s = if l2Hit e then s
      else broadcast sl (.put i (setFld e 87 87 1)) (tPut (dieOfSlice sl) 0x0201 i (setFld e 87 87 1) s) := by
  unfold learnDecide
  simp only [hfind, hget, hthaw, hpin, hdest, Bool.false_eq_true, if_false, if_true]

theorem learnDecide_frozen (hdest : l2Dest e ≠ tgt) (hfroz : l2Frozen e = true) :
    learnDecide sl f m tgt s = learnCnt sl 7 s := by
  unfold learnDecide
  simp only [hfind, hget, hthaw, hpin, hdest, hfroz, Bool.false_eq_true, if_false, if_true]

/-- A move whose interval has not passed counts with those before it: it is made, or freezes the entry. -/
theorem learnDecide_moved (hdest : l2Dest e ≠ tgt) (hfroz : l2Frozen e = false)
    (hms : msSinceStamp s e < cfg1 s (.fwdLearnCfg (dieOfSlice sl)) 14 0) :
    learnDecide sl f m tgt s = if cfg s (.fwdLearnCfg (dieOfSlice sl)) 19 16 < l2Moves e + 1 then
        raise (fwdSrc (dieOfSlice sl) 0) evMacFlap (keyParams f m).1 (keyParams f m).2 (l2Dest e) tgt
          (ownerPut sl i (setFld (setFld e 86 86 1) 111 96 (msStamp s)) (learnCnt sl 6 s))
      else ownerPut sl i (setFld (setFld e 83 64 tgt) 95 92 (l2Moves e + 1)) (learnCnt sl 5 s) := by
  unfold learnDecide
  simp only [hfind, hget, hthaw, hpin, hdest, hfroz, Nat.not_le.mpr hms, Bool.false_eq_true, if_false, if_true]

end

/-! ### A hit notice and a delete (R153) -/

theorem hitDecide_known (hfind : l2Find s (dieOfSlice sl) f m = some i) :
    hitDecide sl f m tgt s = tPut (dieOfSlice sl) 0x0201 i (setFld (l2Get s (dieOfSlice sl) i) 87 87 1) s := by
  unfold hitDecide
  simp only [hfind]

theorem hitDecide_deleted (hfind : l2Find s (dieOfSlice sl) f m = none) (hfree : l2FreeSlot s (dieOfSlice sl) f m = some i) :
    hitDecide sl f m tgt s = learnCnt sl 12 (ownerPut sl i (l2New f m tgt (msStamp s)) s) := by
  unfold hitDecide
  simp only [hfind, learnInsert_free hfree, if_true]

end

theorem deleteAt_hit {die i f m : Nat} {s : State} (hholds : l2Holds s die i f m = true) (hhit : l2Hit (l2Get s die i) = true) :
    deleteAt die i f m s = sendLearn (l2Owner s f m) (.hit f m (l2Dest (l2Get s die i))) s :=
  if_pos (by rw [hholds, hhit]; rfl)

theorem deleteAt_unhit {die i f m : Nat} {s : State} (hhit : l2Hit (l2Get s die i) = false) :
    deleteAt die i f m s = applyL2 die (.delete i f m) s :=
  if_neg (by rw [hhit, Bool.and_false]; exact Bool.false_ne_true)

/-! ### The rows at the heads of their queues -/

/-- The messages an owner slice has still to take. -/
def keepLearn (sl : Nat) (rest : List LearnMsg) (s : State) : State :=
  modFwd (fun f => { f with learnQ := mset [] f.learnQ sl rest }) s

/-- The decisions a die has still to apply. -/
def keepBcast (die : Nat) (rest : List L2Msg) (s : State) : State :=
  modFwd (fun f => { f with bcast := mset [] f.bcast die rest }) s

theorem execLearnRequest_head {sl f m tgt : Nat} {rest : List LearnMsg} {s t : State}
    (hq : mget [] s.fwd.learnQ sl = .req f m tgt :: rest) (hon : sliceOn s sl = true)
    (hdec : learnDecide sl f m tgt (keepLearn sl rest s) = t) : exec (.learnRequest sl) s = .next t := by
  show Host.Outcome.next (learnRequest sl s) = _
  unfold learnRequest
  rw [hq]
  exact congrArg Host.Outcome.next ((if_pos hon).trans hdec)

theorem execHitNotice_head {sl f m d : Nat} {rest : List LearnMsg} {s t : State}
    (hq : mget [] s.fwd.learnQ sl = .hit f m d :: rest) (hon : sliceOn s sl = true)
    (hdec : hitDecide sl f m d (keepLearn sl rest s) = t) : exec (.hitNotice sl) s = .next t := by
  show Host.Outcome.next (hitNotice sl s) = _
  unfold hitNotice
  rw [hq]
  exact congrArg Host.Outcome.next ((if_pos hon).trans hdec)

/-- An owner whose domain is not ON takes no request. -/
theorem learnRequest_off {sl : Nat} {s : State} (hoff : sliceOn s sl = false) : learnRequest sl s = s := by
  unfold learnRequest
  simp only [hoff, Bool.false_eq_true, if_false]
  split <;> rfl

theorem hitNotice_off {sl : Nat} {s : State} (hoff : sliceOn s sl = false) : hitNotice sl s = s := by
  unfold hitNotice
  simp only [hoff, Bool.false_eq_true, if_false]
  split <;> rfl

section
variable {die i f m img : Nat} {rest : List L2Msg} {s : State}

theorem l2Broadcast_put (hq : mget [] s.fwd.bcast die = .put i img :: rest) :
    l2Broadcast die s = applyL2 die (.put i img) (keepBcast die rest s) := by
  unfold l2Broadcast
  rw [hq]
  rfl

theorem l2DeleteRow_put (hq : mget [] s.fwd.bcast die = .put i img :: rest) : l2DeleteRow die s = s := by
  unfold l2DeleteRow
  rw [hq]

theorem l2Broadcast_delete (hq : mget [] s.fwd.bcast die = .delete i f m :: rest) : l2Broadcast die s = s := by
  unfold l2Broadcast
  rw [hq]

theorem l2DeleteRow_delete (hq : mget [] s.fwd.bcast die = .delete i f m :: rest) :
    l2DeleteRow die s = deleteAt die i f m (keepBcast die rest s) := by
  unfold l2DeleteRow
  rw [hq]
  rfl

end

/-! ### Ageing visits (R151, R152) -/

section
variable {sl i e : Nat} {s : State}

theorem l2AgeVisit_off (h : cfgBit s (.fwdAgeCfg (dieOfSlice sl)) 31 = false) : l2AgeVisit sl s = s :=
  if_pos (by simp [h])

theorem ownerSettles_idle {f m : Nat} (hq : mget [] s.fwd.learnQ sl = []) : ownerSettles sl f m s = keepLearn sl [] s := by
  unfold ownerSettles
  rw [hq]
  rfl

/-- The sweep has moved past a slot of an owner that has no message to take first. -/
def sweepPasses (sl i : Nat) (s : State) : State :=
  keepLearn sl [] (modFwd (fun f => { f with agePos := mset 0 f.agePos sl (i + 1) }) s)

theorem l2AgeVisit_due (hon : sliceOn s sl = true) (hage : cfgBit s (.fwdAgeCfg (dieOfSlice sl)) 31 = true)
    (hcom : s.pwr.committed = true) (hnext : ageNext s sl (mget 0 s.fwd.agePos sl) = some i)
    (hq : mget [] s.fwd.learnQ sl = []) (hdue : mget 0 s.fwd.ageAt sl + agePeriod s sl * i / 2 ^ 20 ≤ s.now)
    (hable : ageable s sl i = true) :
    l2AgeVisit sl s = ageVisit sl i (sweepPasses sl i s) := by
  have hgo : ¬ (!sliceOn s sl || !cfgBit s (.fwdAgeCfg (dieOfSlice sl)) 31 || !s.pwr.committed) = true := by
    simp [hon, hage, hcom]
  have hsettle : ∀ f m, ownerSettles sl f m (modFwd (fun f => { f with agePos := mset 0 f.agePos sl (i + 1) }) s)
      = sweepPasses sl i s := fun _ _ => ownerSettles_idle hq
  have hable' : ageable (sweepPasses sl i s) sl i = true := hable
  unfold l2AgeVisit
  dsimp only
  rw [if_neg hgo, hnext]
  dsimp only
  rw [if_pos hdue, hsettle, if_pos hable']

/-- A visit of an entry with neither a freeze nor moves on it. -/
theorem ageVisit_settled (hget : l2Get s (dieOfSlice sl) i = e) (hfroz : l2Frozen e = false) (hmoves : l2Moves e = 0) :
    ageVisit sl i s =
      if l2Hit e then broadcast sl (.hitClear i (l2Fid e) (l2Mac e)) (ownerPut sl i (setFld (setFld e 91 88 0) 87 87 0) s)
      else if cfg1 s (.fwdAgeCfg (dieOfSlice sl)) 19 16 ≤ l2Age e + 1 then
        broadcast sl (.delete i (l2Fid e) (l2Mac e)) (learnCnt sl 11 s)
      else ownerPut sl i (setFld e 91 88 (l2Age e + 1)) s := by
  unfold ageVisit
  simp only [hget, hfroz, hmoves, ne_eq, not_true_eq_false, decide_false, Bool.and_false, Bool.false_eq_true, if_false]

end

/-! ### Learning is decided at the owner -/

/-- Settles O32: each row takes the message at the head of its queue, and its decision is the branch of its clause. -/
theorem learningDecisions : Obligations.LearningDecisions := by
  refine ⟨fun sl f m tgt rest i e s hq hon hfind hget hthaw hpin hdest => ?_,
    fun sl f m tgt rest i e s hq hon hfind hget hpin hdest => ?_,
    fun sl f m tgt rest i e s hq hon hfind hget hthaw hpin hdest hfroz => ?_,
    fun sl f m tgt rest i e s hq hon hfind hget hthaw hpin hdest hfroz hms hlim => ?_,
    fun sl f m tgt rest i e s hq hon hfind hget hthaw hpin hdest hfroz hms hlim => ?_,
    fun sl f m tgt rest i s hq hon hfind hfree => ?_,
    fun sl f m tgt rest s hq hon hfind hfree hpin => ?_,
    fun sl s hoff => ⟨congrArg Host.Outcome.next (learnRequest_off hoff), congrArg Host.Outcome.next (hitNotice_off hoff)⟩,
    fun sl f m d rest i s hq hon hfind => ?_,
    fun sl f m d rest i s hq hon hfind hfree => ?_,
    fun die i img rest s hq => ⟨congrArg Host.Outcome.next (l2Broadcast_put hq), congrArg Host.Outcome.next (l2DeleteRow_put hq)⟩,
    fun die i f m rest s hq => congrArg Host.Outcome.next (l2Broadcast_delete hq),
    fun die i f m rest s hq hholds hhit => ?_,
    fun die i f m rest s hq hhit => ?_,
    fun sl s h => congrArg Host.Outcome.next (l2AgeVisit_off h),
    fun sl i e s hon hage hcom hnext hq hdue hable hget hfroz hmoves => ?_⟩
  · exact execLearnRequest_head hq hon (learnDecide_unmoved hfind hget hthaw hpin hdest)
  · subst hget
    exact execLearnRequest_head hq hon ((learnDecide_pinned (s := keepLearn sl rest s) hfind hpin).trans (if_pos hdest))
  · exact execLearnRequest_head hq hon (learnDecide_frozen hfind hget hthaw hpin hdest hfroz)
  · exact execLearnRequest_head hq hon ((learnDecide_moved (s := keepLearn sl rest s) hfind hget hthaw hpin hdest hfroz hms).trans
      (if_neg (Nat.not_lt.mpr hlim)))
  · exact execLearnRequest_head hq hon ((learnDecide_moved (s := keepLearn sl rest s) hfind hget hthaw hpin hdest hfroz hms).trans
      (if_pos hlim))
  · exact execLearnRequest_head hq hon (learnDecide_new hfind hfree)
  · exact execLearnRequest_head hq hon (learnDecide_full hfind hfree hpin)
  · exact execHitNotice_head hq hon (hitDecide_known hfind)
  · exact execHitNotice_head hq hon (hitDecide_deleted hfind hfree)
  · exact congrArg Host.Outcome.next ((l2DeleteRow_delete hq).trans (deleteAt_hit hholds hhit))
  · exact congrArg Host.Outcome.next ((l2DeleteRow_delete hq).trans (deleteAt_unhit hhit))
  · exact congrArg Host.Outcome.next
      ((l2AgeVisit_due hon hage hcom hnext hq hdue hable).trans (ageVisit_settled hget hfroz hmoves))

/-! ### Which requests a pipeline sends (R148) -/

section
variable {p f m tgt t0 : Nat} {s : State}

theorem learnRecent_of_mem (hmem : (f, m, tgt, t0) ∈ mget [] s.fwd.sent p) (hlt : s.now < t0 + 8000000) :
    learnRecent s p f m tgt = true :=
  List.any_eq_true.mpr ⟨_, hmem, by simpa using hlt⟩

/-- No identical request of the last 8 µs is remembered. -/
theorem learnRecent_eq_false (hold : ∀ t0, (f, m, tgt, t0) ∈ mget [] s.fwd.sent p → t0 + 8000000 ≤ s.now) :
    learnRecent s p f m tgt = false := by
  refine List.any_eq_false.mpr fun ⟨f', m', tgt', t0⟩ hmem hrec => ?_
  simp only [Bool.and_eq_true, decide_eq_true_eq] at hrec
  obtain ⟨⟨⟨rfl, rfl⟩, rfl⟩, hlt⟩ := hrec
  exact Nat.not_lt.mpr (hold t0 hmem) hlt

/-- What a pipeline remembers once it has noted a request: the last 64. -/
theorem sent_noteLearn (p f m tgt : Nat) (s : State) : mget [] (noteLearn p f m tgt s).fwd.sent p
    = (mget [] s.fwd.sent p ++ [(f, m, tgt, s.now)]).drop ((mget [] s.fwd.sent p).length + 1 - 64) :=
  (mget_mset_same _ _ _ _).trans (by rw [List.length_append, List.length_singleton])

end

/-- A source lookup that missed is counted on the die of the owner (R169). -/
def countSourceMiss (q : Pass) (s : State) : State :=
  if q.snap.srcHit = 1 then cntInc 0x0281 (dieOfSlice (l2Owner s q.snap.fid q.snap.srcMac)) 0 s else s

@[simp] theorem countSourceMiss_fwd (q : Pass) (s : State) : (countSourceMiss q s).fwd = s.fwd := by
  unfold countSourceMiss
  split <;> rfl

@[simp] theorem countSourceMiss_now (q : Pass) (s : State) : (countSourceMiss q s).now = s.now := by
  unfold countSourceMiss
  split <;> rfl

@[simp] theorem learnRecent_countSourceMiss (q : Pass) (s : State) (p f m tgt : Nat) :
    learnRecent (countSourceMiss q s) p f m tgt = learnRecent s p f m tgt := by
  simp only [learnRecent, countSourceMiss_fwd, countSourceMiss_now]

section
variable {k : Nat} {q : Pass} {x : Pkt} {s : State} (hx : pktOf s k = some x) (hl : q.snap.learn = true)
include hx hl

/-- A pass with a request to send counts it as suppressed, or sends or punts it. -/
theorem learnPass_request (hsrc : q.snap.srcHit = 1 ∨ q.snap.srcHit = 2) :
    learnPass k q s =
      if learnRecent s x.pipe q.snap.fid q.snap.srcMac (ingressTarget s x.port) then
        cntInc 0x0281 (dieOfSlice (l2Owner s q.snap.fid q.snap.srcMac)) 2 (countSourceMiss q s)
      else
        let t := noteLearn x.pipe q.snap.fid q.snap.srcMac (ingressTarget s x.port) (countSourceMiss q s)
        if cfg t (.fwdPortCfg x.port) 31 30 = 2 then
          puntCopy k (cfg t (.fwdPuntCfg (dieOfPipe x.pipe)) 15 8) 7 0 x.bytes.length false t
        else sendLearn (l2Owner s q.snap.fid q.snap.srcMac) (.req q.snap.fid q.snap.srcMac (ingressTarget s x.port))
          (cntInc 0x0281 (dieOfSlice (l2Owner s q.snap.fid q.snap.srcMac)) 1 t) := by
  rw [← learnRecent_countSourceMiss q]
  unfold learnPass
  simp only [hx, hl, hsrc, Bool.not_true, Bool.false_eq_true, if_false, if_true]
  rfl

theorem learnPass_sends (hsrc : q.snap.srcHit = 2)
    (hnew : learnRecent s x.pipe q.snap.fid q.snap.srcMac (ingressTarget s x.port) = false)
    (hmode : cfg s (.fwdPortCfg x.port) 31 30 ≠ 2) :
    learnPass k q s = sendLearn (l2Owner s q.snap.fid q.snap.srcMac) (.req q.snap.fid q.snap.srcMac (ingressTarget s x.port))
      (cntInc 0x0281 (dieOfSlice (l2Owner s q.snap.fid q.snap.srcMac)) 1
        (noteLearn x.pipe q.snap.fid q.snap.srcMac (ingressTarget s x.port) s)) := by
  rw [learnPass_request hx hl (.inr hsrc), hnew, countSourceMiss, if_neg (by omega : ¬q.snap.srcHit = 1)]
  exact (if_neg Bool.false_ne_true).trans (if_neg hmode)

end

/-! ### A pipeline does not send the same request again -/

/-- Settles O46: what a pass sends turns on the requests its pipeline remembers, and noting one keeps the last 64. -/
theorem learnRequestsSuppressed : Obligations.LearnRequestsSuppressed := by
  refine ⟨fun k q x t0 s hx hl hsrc hmem hlt => ?_, fun k q x t0 s hx hl hsrc hmem hlt => ?_,
    fun k q x s hx hl hsrc hmode hold => ?_, fun p f m g s => ?_⟩
  · rw [learnPass_request hx hl (.inr hsrc), if_pos (learnRecent_of_mem hmem hlt), countSourceMiss, if_neg (by omega)]
  · rw [learnPass_request hx hl (.inl hsrc), if_pos (learnRecent_of_mem hmem hlt), countSourceMiss, if_pos hsrc]
  · exact ⟨_, learnPass_sends hx hl hsrc (learnRecent_eq_false hold) hmode,
      sent_noteLearn x.pipe q.snap.fid q.snap.srcMac (ingressTarget s x.port) s⟩
  · rw [sent_noteLearn, List.length_drop, List.length_append, List.length_singleton]
    omega

end Sys2Proof.Proofs
end

section
/-! Frames of the core, task and firmware rows (R253 to R259, R263, R268, R276, R280): the parts each row can write are read off
its own lemma (exec<Name>_keeps). A set of parts is a number whose bits are State's fields, counted from 0 in their order. -/

namespace Sys2Proof.Proofs

open Sys2Proof.Machine Sys2Proof.Laws

/-- The parts an event or a count can write: those of `State.eventsOf`. -/
abbrev eventParts : Nat := 2 ^ 5 + 2 ^ 8 + 2 ^ 11 + 2 ^ 12 + 2 ^ 27 + 2 ^ 29 + 2 ^ 30 + 2 ^ 33

/-- The cores and tasks, and an event's. -/
abbrev taskEventParts : Nat := eventParts + 2 ^ 21

/-- The cores and tasks, the flow state and an event's. -/
abbrev flowTaskEventParts : Nat := taskEventParts + 2 ^ 17

/-- The cores and tasks, and the counters. -/
abbrev taskCountParts : Nat := 2 ^ 21 + 2 ^ 11

/-- The cores and tasks, the flow state and the counters. -/
abbrev flowTaskCountParts : Nat := taskCountParts + 2 ^ 17

/-- The HBM's contents, frames, parsers, pipelines and cell buffers, beside the cores and tasks, the flow state and an event's. -/
abbrev frameTaskParts : Nat := flowTaskEventParts + 2 ^ 10 + 2 ^ 13 + 2 ^ 15 + 2 ^ 18 + 2 ^ 22

/-- Those of `frameTaskParts`, the fabric and egress. -/
abbrev frameEgressParts : Nat := frameTaskParts + 2 ^ 23 + 2 ^ 24

/-- Settles O51: what each row's own lemma says it can write. -/
theorem frameCores : Obligations.FrameCores := by
  refine ⟨⟨?coreInstruction, ?wkRel, ?wkHand, ?wkCancel, ?close, ?runLimitExpiry⟩, ⟨?wkGet, ?wkFlowReply⟩, ?wkNew,
    ⟨?wkFlow, ?age, ?read⟩, ⟨?wkEvt, ?holdLimitExpiry, ?drainUsExpiry, ?rolloutLoadEnd⟩, ?commit, ?reject, ?deny,
    ⟨?setAction, ?rebind, ?natPort, ?setFw⟩, ?export_, ?natBlock,
    ⟨?timerOperand, ?operandArrival, ?taskDispatch, ?preemption, ?rolloutClusterDrained⟩, ⟨?fwStage, ?fwSwitch⟩⟩
  case coreInstruction =>
    exact fun c => leaves_of_execKeeps frameEgressParts (fun _ _ => rfl) fun A => execCoreInstruction_keeps A rfl c
  case wkRel => exact fun c r => leaves_of_execKeeps frameEgressParts (fun _ _ => rfl) fun A => execWkRel_keeps A rfl c r
  case wkHand =>
    exact fun c r q => leaves_of_execKeeps frameEgressParts (fun _ _ => rfl) fun A => execWkHand_keeps A rfl c r q
  case wkCancel =>
    exact fun c d r => leaves_of_execKeeps frameEgressParts (fun _ _ => rfl) fun A => execWkCancel_keeps A rfl c d r
  case close => exact fun n => leaves_of_execKeeps frameEgressParts (fun _ _ => rfl) fun A => execClose_keeps A rfl n
  case runLimitExpiry =>
    exact fun c => leaves_of_execKeeps frameEgressParts (fun _ _ => rfl) fun A => execRunLimitExpiry_keeps A rfl c
  case wkGet => exact fun c d => leaves_of_execKeeps (2 ^ 21) (fun _ _ => rfl) fun A => execWkGet_keeps A rfl c d
  case wkFlowReply => exact fun c => leaves_of_execKeeps (2 ^ 21) (fun _ _ => rfl) fun A => execWkFlowReply_keeps A rfl c
  case wkNew =>
    exact fun c d r => leaves_of_execKeeps (flowTaskEventParts + 2 ^ 13 + 2 ^ 22) (fun _ _ => rfl) fun A =>
      execWkNew_keeps A rfl c d r
  case wkFlow => exact fun c d => leaves_of_execKeeps flowTaskCountParts (fun _ _ => rfl) fun A => execWkFlow_keeps A rfl c d
  case age => exact fun n => leaves_of_execKeeps flowTaskCountParts (fun _ _ => rfl) fun A => execAge_keeps A rfl n
  case read => exact fun n => leaves_of_execKeeps flowTaskCountParts (fun _ _ => rfl) fun A => execRead_keeps A rfl n
  case wkEvt => exact fun c r q => leaves_of_execKeeps taskEventParts (fun _ _ => rfl) fun A => execWkEvt_keeps A rfl c r q
  case holdLimitExpiry =>
    exact fun n l => leaves_of_execKeeps taskEventParts (fun _ _ => rfl) fun A => execHoldLimitExpiry_keeps A rfl n l
  case drainUsExpiry => exact leaves_of_execKeeps taskEventParts (fun _ _ => rfl) fun A => execDrainUsExpiry_keeps A rfl
  case rolloutLoadEnd =>
    exact fun b => leaves_of_execKeeps taskEventParts (fun _ _ => rfl) fun A => execRolloutLoadEnd_keeps A rfl b
  case commit =>
    exact fun n => leaves_of_execKeeps (frameEgressParts + 2 ^ 3 + 2 ^ 26) (fun _ _ => rfl) fun A => execCommit_keeps A rfl n
  case reject => exact fun n => leaves_of_execKeeps frameTaskParts (fun _ _ => rfl) fun A => execReject_keeps A rfl n
  case deny => exact fun n => leaves_of_execKeeps (frameTaskParts + 2 ^ 26) (fun _ _ => rfl) fun A => execDeny_keeps A rfl n
  case setAction =>
    exact fun n => leaves_of_execKeeps (flowTaskCountParts + 2 ^ 10) (fun _ _ => rfl) fun A => execSetAction_keeps A rfl n
  case rebind =>
    exact fun n => leaves_of_execKeeps (flowTaskCountParts + 2 ^ 10) (fun _ _ => rfl) fun A => execRebind_keeps A rfl n
  case natPort =>
    exact fun n => leaves_of_execKeeps (flowTaskCountParts + 2 ^ 10) (fun _ _ => rfl) fun A => execNatPort_keeps A rfl n
  case setFw =>
    exact fun n => leaves_of_execKeeps (flowTaskCountParts + 2 ^ 10) (fun _ _ => rfl) fun A => execSetFw_keeps A rfl n
  case export_ => exact fun n => leaves_of_execKeeps flowTaskEventParts (fun _ _ => rfl) fun A => execExport_keeps A rfl n
  case natBlock =>
    exact fun n => leaves_of_execKeeps (flowTaskEventParts + 2 ^ 9) (fun _ _ => rfl) fun A => execNatBlock_keeps A rfl n
  case timerOperand =>
    exact fun n k => leaves_of_execKeeps taskCountParts (fun _ _ => rfl) fun A => execTimerOperand_keeps A rfl n k
  case operandArrival =>
    exact fun n k o => leaves_of_execKeeps taskCountParts (fun _ _ => rfl) fun A => execOperandArrival_keeps A rfl n k o
  case taskDispatch => exact fun n => leaves_of_execKeeps taskCountParts (fun _ _ => rfl) fun A => execTaskDispatch_keeps A rfl n
  case preemption => exact fun c => leaves_of_execKeeps taskCountParts (fun _ _ => rfl) fun A => execPreemption_keeps A rfl c
  case rolloutClusterDrained =>
    exact leaves_of_execKeeps taskCountParts (fun _ _ => rfl) fun A => execRolloutClusterDrained_keeps A rfl
  case fwStage =>
    exact fun h m => leaves_of_execKeeps (taskEventParts + 2 ^ 4) (fun _ _ => rfl) fun A => execFwStage_keeps A rfl h m
  case fwSwitch =>
    exact fun h n k d => leaves_of_execKeeps (taskEventParts + 2 ^ 4) (fun _ _ => rfl) fun A => execFwSwitch_keeps A rfl h n k d

end Sys2Proof.Proofs
end

section
/-! Frames of the frame, fabric, buffer and egress rows (R294, R300, R312, R329, R335): the parts each row can write are read off
its own lemma (exec<Name>_keeps). A set of parts is a number whose bits are State's fields, counted from 0 in their order. -/

namespace Sys2Proof.Proofs

open Sys2Proof.Machine Sys2Proof.Laws

/-- Egress, and an event's. -/
abbrev egressEventParts : Nat := eventParts + 2 ^ 24

/-- What a frame that ends at a port can write: frames, parsers, the flow state, pipelines and cell buffers, beside those of
`egressEventParts`. -/
abbrev frameEndParts : Nat := egressEventParts + 2 ^ 13 + 2 ^ 15 + 2 ^ 17 + 2 ^ 18 + 2 ^ 22

/-- Those of `frameEndParts`, and the fabric. -/
abbrev frameFabricParts : Nat := frameEndParts + 2 ^ 23

/-- Settles O52: what each row's own lemma says it can write. -/
theorem frameFabric : Obligations.FrameFabric := by
  refine ⟨⟨?arbiterMatch, ?linkCellReceive, ?reseqGapTimeout, ?mcastHoldExpiry⟩, ?arbiterSelfCheckEnd,
    ⟨?failedCopySelfCheck, ?linkNak, ?linkResendTimeout⟩, ?linkAck, ?laneErrorInterval, ⟨?auditStart, ?pfcPauseExpiry⟩,
    ⟨?auditEnd, ?pfcWatchdogRestoreTimer⟩, ?pfcXoffRepeat, ?pfcFrameReceive, ⟨?pfcWatchdogExpiry, ?frameTransmitEnd⟩,
    ⟨?schedulerSelect, ?gateChange⟩, ?frameTransmitStart, ?shaperUpdate, ?gateListStart, ?queueSample, ?linkTrainingDone,
    ?linkLoss, ?portCompReady, ?shaperSet, ?gateLoad, ?frameReceive, ⟨?packetPass, ?recirculation, ?frameCheck⟩⟩
  case arbiterMatch =>
    exact fun d => leaves_of_execKeeps frameFabricParts (fun _ _ => rfl) fun A => execArbiterMatch_keeps A rfl d
  case linkCellReceive =>
    exact fun l f n b => leaves_of_execKeeps frameFabricParts (fun _ _ => rfl) fun A => execLinkCellReceive_keeps A rfl l f n b
  case reseqGapTimeout =>
    exact fun a b => leaves_of_execKeeps frameFabricParts (fun _ _ => rfl) fun A => execReseqGapTimeout_keeps A rfl a b
  case mcastHoldExpiry =>
    exact fun k p => leaves_of_execKeeps frameFabricParts (fun _ _ => rfl) fun A => execMcastHoldExpiry_keeps A rfl k p
  case arbiterSelfCheckEnd =>
    exact fun a b => leaves_of_execKeeps (eventParts + 2 ^ 23) (fun _ _ => rfl) fun A => execArbiterSelfCheckEnd_keeps A rfl a b
  case failedCopySelfCheck =>
    exact fun b => leaves_of_execKeeps (2 ^ 11 + 2 ^ 23) (fun _ _ => rfl) fun A => execFailedCopySelfCheck_keeps A rfl b
  case linkNak => exact fun l f => leaves_of_execKeeps (2 ^ 11 + 2 ^ 23) (fun _ _ => rfl) fun A => execLinkNak_keeps A rfl l f
  case linkResendTimeout =>
    exact fun l f => leaves_of_execKeeps (2 ^ 11 + 2 ^ 23) (fun _ _ => rfl) fun A => execLinkResendTimeout_keeps A rfl l f
  case linkAck =>
    exact fun l f => leaves_of_execKeeps (eventParts + 2 ^ 13 + 2 ^ 22 + 2 ^ 23 + 2 ^ 24) (fun _ _ => rfl) fun A =>
      execLinkAck_keeps A rfl l f
  case laneErrorInterval =>
    exact fun l n => leaves_of_execKeeps (eventParts + 2 ^ 19 + 2 ^ 23) (fun _ _ => rfl) fun A =>
      execLaneErrorInterval_keeps A rfl l n
  case auditStart => exact fun d => leaves_of_execKeeps (2 ^ 22) (fun _ _ => rfl) fun A => execAuditStart_keeps A rfl d
  case pfcPauseExpiry =>
    exact fun p i => leaves_of_execKeeps (2 ^ 22) (fun _ _ => rfl) fun A => execPfcPauseExpiry_keeps A rfl p i
  case auditEnd => exact fun d => leaves_of_execKeeps (eventParts + 2 ^ 22) (fun _ _ => rfl) fun A => execAuditEnd_keeps A rfl d
  case pfcWatchdogRestoreTimer =>
    exact fun p i => leaves_of_execKeeps (eventParts + 2 ^ 22) (fun _ _ => rfl) fun A =>
      execPfcWatchdogRestoreTimer_keeps A rfl p i
  case pfcXoffRepeat =>
    exact fun p i => leaves_of_execKeeps (2 ^ 11 + 2 ^ 22 + 2 ^ 24) (fun _ _ => rfl) fun A => execPfcXoffRepeat_keeps A rfl p i
  case pfcFrameReceive =>
    exact fun p f => leaves_of_execKeeps (2 ^ 11 + 2 ^ 22) (fun _ _ => rfl) fun A => execPfcFrameReceive_keeps A rfl p f
  case pfcWatchdogExpiry =>
    exact fun p i => leaves_of_execKeeps frameEndParts (fun _ _ => rfl) fun A => execPfcWatchdogExpiry_keeps A rfl p i
  case frameTransmitEnd =>
    exact fun p => leaves_of_execKeeps frameEndParts (fun _ _ => rfl) fun A => execFrameTransmitEnd_keeps A rfl p
  case schedulerSelect =>
    exact fun p => leaves_of_execKeeps (2 ^ 11 + 2 ^ 13 + 2 ^ 24) (fun _ _ => rfl) fun A => execSchedulerSelect_keeps A rfl p
  case gateChange =>
    exact fun p => leaves_of_execKeeps (2 ^ 11 + 2 ^ 13 + 2 ^ 24) (fun _ _ => rfl) fun A => execGateChange_keeps A rfl p
  case frameTransmitStart =>
    exact fun p b => leaves_of_execKeeps (frameEndParts + 2 ^ 3) (fun _ _ => rfl) fun A => execFrameTransmitStart_keeps A rfl p b
  case shaperUpdate =>
    exact leaves_of_execKeeps (2 ^ 4 + 2 ^ 8 + 2 ^ 11 + 2 ^ 12 + 2 ^ 15 + 2 ^ 24) (fun _ _ => rfl) fun A =>
      execShaperUpdate_keeps A rfl
  case gateListStart =>
    exact fun p => leaves_of_execKeeps (egressEventParts + 2 ^ 13) (fun _ _ => rfl) fun A => execGateListStart_keeps A rfl p
  case queueSample => exact fun d => leaves_of_execKeeps egressEventParts (fun _ _ => rfl) fun A => execQueueSample_keeps A rfl d
  case linkTrainingDone =>
    exact fun p => leaves_of_execKeeps (egressEventParts + 2 ^ 25) (fun _ _ => rfl) fun A => execLinkTrainingDone_keeps A rfl p
  case linkLoss =>
    exact fun p => leaves_of_execKeeps (frameEndParts + 2 ^ 25) (fun _ _ => rfl) fun A => execLinkLoss_keeps A rfl p
  case portCompReady =>
    exact fun p r q => leaves_of_execKeeps (2 ^ 25) (fun _ _ => rfl) fun A => execPortCompReady_keeps A rfl p r q
  case shaperSet =>
    exact fun h t => leaves_of_execKeeps (egressEventParts + 2 ^ 4) (fun _ _ => rfl) fun A => execShaperSet_keeps A rfl h t
  case gateLoad =>
    exact fun h t => leaves_of_execKeeps (eventParts + 2 ^ 4) (fun _ _ => rfl) fun A => execGateLoad_keeps A rfl h t
  case frameReceive =>
    exact fun p b => leaves_of_execKeeps (egressEventParts + 2 ^ 13 + 2 ^ 14 + 2 ^ 18) (fun _ _ => rfl) fun A =>
      execFrameReceive_keeps A rfl p b
  case packetPass =>
    exact fun p => leaves_of_execKeeps (frameFabricParts + 2 ^ 9 + 2 ^ 14 + 2 ^ 16 + 2 ^ 21) (fun _ _ => rfl) fun A =>
      execPacketPass_keeps A rfl p
  case recirculation =>
    exact fun p => leaves_of_execKeeps (frameFabricParts + 2 ^ 9 + 2 ^ 14 + 2 ^ 16 + 2 ^ 21) (fun _ _ => rfl) fun A =>
      execRecirculation_keeps A rfl p
  case frameCheck =>
    exact fun k b => leaves_of_execKeeps (frameFabricParts + 2 ^ 9 + 2 ^ 14 + 2 ^ 16 + 2 ^ 21) (fun _ _ => rfl) fun A =>
      execFrameCheck_keeps A rfl k b

end Sys2Proof.Proofs
end

section
/-! The parts of the cores and tasks (R250 to R289): each map of them read on its own, the rest of a core after a change of its
registers, its pc or its CSRs, and a cluster after an event. Beside Laws/Slots.lean. -/

namespace Sys2Proof.Proofs

open Sys2Proof.Machine Sys2Proof.Laws

/-! ### Each reads its own map -/

theorem cluster_congr {s t : State} (h : t.tsk.clusters = s.tsk.clusters) (k : Nat) : cluster t k = cluster s k := by
  unfold cluster
  rw [h]

theorem coreReg_congr {s t : State} {c : Nat} (h : (coreOf t c).x = (coreOf s c).x) (n : Nat) : coreReg t c n = coreReg s c n := by
  unfold coreReg
  rw [h]

theorem csrRaw_congr {s t : State} {c : Nat} (h : (coreOf t c).csr = (coreOf s c).csr) (n : Nat) : csrRaw t c n = csrRaw s c n := by
  unfold csrRaw
  rw [h]

@[simp] theorem cluster_modCore (c : Nat) (f : Core → Core) (s : State) (k : Nat) : cluster (modCore c f s) k = cluster s k := rfl
@[simp] theorem cluster_modTask (sl n : Nat) (f : Task → Task) (s : State) (k : Nat) : cluster (modTask sl n f s) k = cluster s k := rfl
@[simp] theorem cluster_setCsr (c n v : Nat) (s : State) (k : Nat) : cluster (setCsr c n v s) k = cluster s k := rfl
@[simp] theorem task_coreNext (c n : Nat) (s : State) (sl k : Nat) : task (coreNext c n s) sl k = task s sl k := rfl

@[simp] theorem cluster_raise (src code a b c d : Nat) (s : State) (k : Nat) : cluster (raise src code a b c d s) k = cluster s k :=
  cluster_congr (by rw [raise_tsk]) k

/-! ### The rest of a core (R250) -/

@[simp] theorem coreOf_setCsr (c n v : Nat) (s : State) :
    coreOf (setCsr c n v s) c = { coreOf s c with csr := mset 0 (coreOf s c).csr n (v % 2 ^ 64) } := coreOf_modCore ..

/-- A write of a register changes a core's registers only. -/
theorem coreOf_setCoreReg (c n v : Nat) (s : State) :
    coreOf (setCoreReg c n v s) c = { coreOf s c with x := (coreOf (setCoreReg c n v s) c).x } := by
  unfold setCoreReg
  split
  · rfl
  · rw [coreOf_modCore]

/-- A retired instruction changes the pc and the CSRs only. -/
theorem coreOf_coreNext (c n : Nat) (s : State) : coreOf (coreNext c n s) c
    = { coreOf s c with pc := (coreOf (coreNext c n s) c).pc, csr := (coreOf (coreNext c n s) c).csr } := by
  unfold coreNext
  rw [coreOf_modCore]

/-- A trap changes the pc and the CSRs, and ends a wfi. -/
theorem coreOf_coreTrap (c : Nat) (i : Bool) (cause tval : Nat) (s : State) : coreOf (coreTrap c i cause tval s) c
    = { coreOf s c with
        pc := (coreOf (coreTrap c i cause tval s) c).pc, csr := (coreOf (coreTrap c i cause tval s) c).csr, wfi := false } := by
  unfold coreTrap
  simp only [coreOf_modCore, coreOf_setCsr]

/-- x0 stays 0. -/
theorem coreReg_zero {c r : Nat} (h : r % 32 = 0) (s : State) : coreReg s c r = 0 := if_pos h

/-- A register read after it was written. -/
theorem coreReg_setCoreReg_same (c r v : Nat) (s : State) :
    coreReg (setCoreReg c r v s) c r = if r % 32 = 0 then 0 else v % 2 ^ 64 := by
  rw [coreReg_setCoreReg]
  by_cases h : r % 32 = 0
  · rw [if_pos h, if_neg fun k => k.1 h, coreReg_zero h]
  · rw [if_neg h, if_pos ⟨h, rfl⟩]

end Sys2Proof.Proofs
end

section
/-! FW_SWITCH and the rollout it starts (R280, R281, R284, R450): the walk to the next cluster, what a drained cluster, a failed and
a loaded one are left as. -/

namespace Sys2Proof.Proofs

open Sys2Proof.Machine Sys2Proof.Laws

/-! ### The served classes -/

/-- Noting which classes are served changes that note and events only. -/
theorem checkServed_tsk (sl : Nat) (s : State) :
    (checkServed sl s).tsk = { s.tsk with served := (checkServed sl s).tsk.served } := by
  unfold checkServed
  refine each_keeps (P := fun u => u.tsk = { s.tsk with served := u.tsk.served }) _ _ (fun c t h => ?_) s rfl
  dsimp only
  split
  · rw [raise_tsk]
    exact congrArg (fun k : Tsk => { k with served := mset false t.tsk.served (64 * sl + c) (classServed t sl c) }) h
  · exact congrArg (fun k : Tsk => { k with served := mset false t.tsk.served (64 * sl + c) (classServed t sl c) }) h

@[simp] theorem checkServed_rollout (sl : Nat) (s : State) : (checkServed sl s).tsk.rollout = s.tsk.rollout := by
  rw [checkServed_tsk]

@[simp] theorem cluster_checkServed (sl : Nat) (s : State) (k : Nat) : cluster (checkServed sl s) k = cluster s k :=
  cluster_congr (by rw [checkServed_tsk]) k

/-! ### Cores put back at the entry point -/

/-- Putting a core back changes that core and a count only. -/
theorem resetCore_tsk (c : Nat) (s : State) : (resetCore c s).tsk = { s.tsk with cores := (resetCore c s).tsk.cores } := by
  unfold resetCore
  split <;> rfl

@[simp] theorem cluster_resetCore (c : Nat) (s : State) (k : Nat) : cluster (resetCore c s) k = cluster s k :=
  cluster_congr (by rw [resetCore_tsk]) k

/-- What a core is after it was put back: registers, CSRs and scratch zero, blocked in nothing (R253). -/
structure CoreReset (k : Core) : Prop where
  x : k.x = []
  csr : k.csr = []
  scratch : k.scratch = []
  getting : k.getting = none
  flowing : k.flowing = none

theorem resetCore_resets (c : Nat) (s : State) : CoreReset (coreOf (resetCore c s) c) := by
  unfold resetCore
  rw [coreOf_modCore]
  exact ⟨rfl, rfl, rfl, rfl, rfl⟩

theorem resetCore_entry (c : Nat) (s : State) :
    (coreOf (resetCore c s) c).pc = (cluster s (clusterOfCore c)).entry := by
  unfold resetCore
  rw [coreOf_modCore]
  dsimp only
  split <;> rfl

theorem resetCore_ne {c d : Nat} (h : c ≠ d) (s : State) : coreOf (resetCore c s) d = coreOf s d := by
  unfold resetCore
  rw [coreOf_modCore_ne h]
  split <;> rfl

/-- The cores of a cluster are all put back, and of the cores and tasks nothing else changes. -/
theorem eachResetCore_tsk (l : List Nat) (s : State) :
    (each l resetCore s).tsk = { s.tsk with cores := (each l resetCore s).tsk.cores } := by
  refine each_keeps (P := fun u => u.tsk = { s.tsk with cores := u.tsk.cores }) _ _ (fun c t h => ?_) s rfl
  rw [resetCore_tsk, h]

theorem eachResetCore_resets {l : List Nat} {c : Nat} (h : c ∈ l) (s : State) : CoreReset (coreOf (each l resetCore s) c) := by
  refine each_each _ (fun c t => CoreReset (coreOf t c)) l s (fun c _ t => resetCore_resets c t) (fun c _ d _ t k => ?_) c h
  by_cases e : d = c
  · exact e ▸ resetCore_resets d t
  · rwa [resetCore_ne e]

@[simp] theorem cluster_eachResetCore (l : List Nat) (s : State) (k : Nat) : cluster (each l resetCore s) k = cluster s k :=
  cluster_congr (by rw [eachResetCore_tsk]) k

@[simp] theorem eachResetCore_rollout (l : List Nat) (s : State) : (each l resetCore s).tsk.rollout = s.tsk.rollout := by
  rw [eachResetCore_tsk]

/-! ### The walk of the rollout (R280) -/

@[simp] theorem modRoll_rollout (f : Rollout → Rollout) (s : State) : (modRoll f s).tsk.rollout = f s.tsk.rollout := rfl
@[simp] theorem holdAdopted_modRoll (f : Rollout → Rollout) (s : State) : holdAdopted (modRoll f s) = holdAdopted s := rfl
@[simp] theorem holdAdopted_modCluster (k : Nat) (f : Cluster → Cluster) (s : State) :
    holdAdopted (modCluster k f s) = holdAdopted s := rfl
@[simp] theorem cluster_modRoll (f : Rollout → Rollout) (s : State) (k : Nat) : cluster (modRoll f s) k = cluster s k := rfl
@[simp] theorem modCluster_rollout (k : Nat) (f : Cluster → Cluster) (s : State) :
    (modCluster k f s).tsk.rollout = s.tsk.rollout := rfl

/-- A cluster that the walk reaches drains, or loads when it is empty. -/
def reachCluster (k : Nat) (s : State) : State :=
  modCluster k (fun c => { c with fw := if c.fw = 5 then 2 else 1 }) (modRoll (fun r => { r with at_ := some k, since := s.now }) s)

theorem rolloutNext_reaches {sl k n : Nat} {s : State} (hr : s.tsk.rollout.running = true) (ha : s.tsk.rollout.at_ = none)
    (hh : holdAdopted s = true)
    (hs : (upTo 8).find? (fun x => bit s.tsk.rollout.selected x && !bit s.tsk.rollout.done x) = some sl)
    (hk : ((upTo 3).map (3 * sl + ·)).find? (fun x => !bit s.tsk.rollout.clusters x) = some k)
    (hp : domOn s (domCluster k) = true) : rolloutNext (n + 1) s = checkServed sl (reachCluster k s) := by
  have h : (!s.tsk.rollout.running || s.tsk.rollout.at_.isSome || !holdAdopted s) = false := by simp [hr, ha, hh]
  have hq : passedOver s k = false := by simp [passedOver, hp]
  simp only [rolloutNext, h, hs, hk, hq]
  rfl

theorem rolloutNext_ends {n : Nat} {s : State} (hr : s.tsk.rollout.running = true) (ha : s.tsk.rollout.at_ = none)
    (hh : holdAdopted s = true)
    (hs : (upTo 8).find? (fun x => bit s.tsk.rollout.selected x && !bit s.tsk.rollout.done x) = none) :
    rolloutNext (n + 1) s = modRoll (fun r => { r with running := false }) s := by
  have h : (!s.tsk.rollout.running || s.tsk.rollout.at_.isSome || !holdAdopted s) = false := by simp [hr, ha, hh]
  simp only [rolloutNext, h, hs]
  rfl

/-! ### FW_SWITCH -/

/-- The rollout that FW_SWITCH starts. -/
def rolloutOf (slot mask us : Nat) : Rollout :=
  { running := true, selected := mask % 256, slot := slot, drainUs := if us = 0 then 1000 else us }

theorem imageHdr_congr {s t : State} (h : t.mem = s.mem) (slot i n : Nat) : imageHdr t slot i n = imageHdr s slot i n := by
  unfold imageHdr mirrorRead
  rw [h]

/-- A switch that no test refuses starts the walk. -/
theorem runFwSwitch_starts {slot mask us : Nat} {a : Nat × Nat} {s : State} (h2 : slot < 2)
    (hm : ∀ x ∈ maskSlices mask, hasSlice s.part x = true) (hv : mget false s.tsk.slotValid slot = true)
    (hr : s.tsk.rollout.running = false)
    (hk : ∀ k, (cluster s k).fw ≤ 2 →
      imageHdr s slot 12 4 ≤ (cluster s k).version ∧ (cluster s k).minVersion ≤ imageHdr s slot 8 4) :
    runFwSwitch slot mask us a s = (.ok, rolloutNext rollSteps (modRoll (fun _ => rolloutOf slot mask us) s)) := by
  have hms : ((maskSlices mask).any fun sl => !hasSlice s.part sl) = false := by
    simpa [List.any_eq_false] using hm
  have hks : ((((maskSlices mask).flatMap fun sl => (upTo 3).map (3 * sl + ·)).filter fun k => (cluster s k).fw ≤ 2).any fun k =>
      decide ((cluster s k).version < imageHdr s slot 12 4) || decide (imageHdr s slot 8 4 < (cluster s k).minVersion)) = false := by
    simp only [List.any_eq_false, List.mem_filter, decide_eq_true_eq, Bool.or_eq_true, not_or, Nat.not_lt, and_imp]
    exact fun k _ hf => hk k hf
  unfold runFwSwitch
  simp only [hms, hks, hv, hr, Nat.not_le.mpr h2, Bool.false_eq_true, Bool.not_true, or_self, if_false]
  rfl

/-- The completion of a command leaves the cores and tasks. -/
theorem afterRun_tsk (a : Nat × Nat) (n : Nat) (x : CmdOut × State) : (afterRun a n x).tsk = x.2.tsk := (afterRun_only a n x).tsk rfl

/-- FW_SWITCH starts the rollout at the first cluster of the first slice selected. -/
theorem fwSwitch_drains {h : Hdr} {slot mask us sl : Nat} {s : State} (b : begins s (.fwSwitch h slot mask us) h.ring)
    (h2 : slot < 2) (hm : ∀ x ∈ maskSlices mask, hasSlice s.part x = true) (hv : mget false s.tsk.slotValid slot = true)
    (hr : s.tsk.rollout.running = false)
    (hk : ∀ k, (cluster s k).fw ≤ 2 →
      imageHdr s slot 12 4 ≤ (cluster s k).version ∧ (cluster s k).minVersion ≤ imageHdr s slot 8 4)
    (hh : holdAdopted s = true) (hs : (upTo 8).find? (fun x => bit (mask % 256) x) = some sl)
    (hp : domOn s (domCluster (3 * sl)) = true) (hf : (cluster s (3 * sl)).fw ≠ 5) :
    ∃ t, exec (.fwSwitch h slot mask us) s = .next t
      ∧ t.tsk.rollout = { rolloutOf slot mask us with at_ := some (3 * sl), since := s.now } ∧ (cluster t (3 * sl)).fw = 1 := by
  generalize hv' : beginState s (.fwSwitch h slot mask us) h.ring = v
  have B : Only 4112 s v := hv' ▸ beginState_only s _ _
  have hc : ∀ k, cluster v k = cluster s k := cluster_congr (by rw [B.tsk rfl])
  have hi : ∀ i n, imageHdr v slot i n = imageHdr s slot i n := imageHdr_congr (B.mem rfl) slot
  have hrun := runFwSwitch_starts (us := us) (a := (h.ring, (ring s h.ring).begun)) (s := v) h2 (by rwa [B.part rfl])
    (by rwa [B.tsk rfl]) (by rwa [B.tsk rfl]) (by simpa only [hc, hi] using hk)
  have hwalk := rolloutNext_reaches (sl := sl) (k := 3 * sl) (n := 39) (s := modRoll (fun _ => rolloutOf slot mask us) v) rfl rfl
    (by unfold holdAdopted; exact (congrArg (fun c => decide (Cus.holder c ≠ 0) && c.adopted) (B.cus rfl)).trans hh)
    (by simpa [rolloutOf, bit] using hs) (by simp [rolloutOf, bit, upTo])
    (by unfold domOn domain; exact (congrArg (fun w => decide ((mget {} (Pwr.domains w) (domCluster (3 * sl))).state = 0))
      (B.pwr rfl)).trans hp)
  refine ⟨_, rfl, ?_, ?_⟩
  · rw [command_begins b, hv', afterRun_tsk, hrun]
    show (rolloutNext (39 + 1) _).tsk.rollout = _
    rw [hwalk, checkServed_rollout]
    exact congrArg (fun n => { rolloutOf slot mask us with at_ := some (3 * sl), since := n }) (B.now rfl)
  · rw [command_begins b, hv', cluster_congr (congrArg Tsk.clusters (afterRun_tsk ..)), hrun]
    show (cluster (rolloutNext (39 + 1) _) _).fw = _
    rw [hwalk, cluster_checkServed, reachCluster, cluster_modCluster, cluster_modRoll, cluster_modRoll, hc]
    exact if_neg hf

/-! ### ROLLOUT_CLUSTER_DRAINED, DRAIN_US_EXPIRY and ROLLOUT_LOAD_END -/

section Steps

variable {k : Nat} {s : State} (ha : s.tsk.rollout.at_ = some k) (hr : s.tsk.rollout.running = true) (hh : holdAdopted s = true)
include ha hr hh

theorem clusterDrained_loads (hf : (cluster s k).fw = 1) (hi : clusterIdle s k = true) : clusterDrained s
    = each ((upTo 8).map (8 * k + ·)) resetCore (modCluster k (fun c => { c with fw := 2, shared := [] }) s) := by
  unfold clusterDrained
  simp [ha, hr, hh, hf, hi]

theorem drainExpiry_fails (hf : (cluster s k).fw = 1) (hi : clusterIdle s k = false)
    (ht : s.tsk.rollout.since + s.tsk.rollout.drainUs * 10 ^ 6 ≤ s.now) : drainExpiry s = rolloutFail k s := by
  unfold drainExpiry
  have hd : decide (s.tsk.rollout.since + s.tsk.rollout.drainUs * 10 ^ 6 ≤ s.now) = true := decide_eq_true ht
  simp only [ha, hr, hh, hf, hi, hd]
  rfl

theorem rolloutLoadEnd_fails (hf : (cluster s k).fw = 2) : rolloutLoadEnd false s = rolloutFail k s := by
  unfold rolloutLoadEnd
  simp [ha, hr, hh, hf]

theorem rolloutLoadEnd_loads (hf : (cluster s k).fw = 2)
    (hl : mirrorLost s (imageSlot s.tsk.rollout.slot + 64) (imageHdr s s.tsk.rollout.slot 0 4) = false) :
    rolloutLoadEnd true s = rolloutNext rollSteps (modRoll (fun r => { r with at_ := none, clusters := r.clusters + 2 ^ k })
      (loadImage k s.tsk.rollout.slot (modCluster k (fun c => { c with shared := [] }) s))) := by
  unfold rolloutLoadEnd
  simp [ha, hr, hh, hf, hl]

end Steps

/-- A cluster at which the rollout stops keeps its image. -/
theorem rolloutFail_stops (k : Nat) (s : State) : (rolloutFail k s).tsk.rollout.running = false
    ∧ (rolloutFail k s).tsk.rollout.failed = true ∧ (rolloutFail k s).tsk.rollout.at_ = none
    ∧ cluster (rolloutFail k s) k = { cluster s k with fw := if (cluster s k).isram = [] then 5 else 0 } := by
  unfold rolloutFail
  simp

/-- An image loaded into a cluster (R281). -/
theorem loadImage_cluster (k slot : Nat) (s : State) : cluster (loadImage k slot s) k = { cluster s k with
    fw := 0, slot := slot, version := imageHdr s slot 8 4, minVersion := imageHdr s slot 12 4, entry := imageHdr s slot 4 4
    isram := wrBytes [] 0 (mirrorRead s (k / 6) (imageSlot slot + 64) (imageHdr s slot 0 4)) } := by
  unfold loadImage
  simp

@[simp] theorem loadImage_rollout (k slot : Nat) (s : State) : (loadImage k slot s).tsk.rollout = s.tsk.rollout := by
  unfold loadImage
  simp

@[simp] theorem holdAdopted_loadImage (k slot : Nat) (s : State) : holdAdopted (loadImage k slot s) = holdAdopted s := by
  unfold holdAdopted
  rw [(loadImage_keeps (Only.allows 10336868640 s) rfl k slot s (Only.refl _ s)).cus rfl]

/-! ### The claim -/

/-- Settles O15: the switch begins the walk, and each later row is its operation by the branch its clause names. -/
theorem firmwareRollout : Obligations.FirmwareRollout := by
  refine ⟨fun h slot mask us sl s b h2 hm hv hr hk hh hs hp hf => ?_, fun k s ha hr hf hi hh => ?_, fun k s ha hr hf hi hh ht => ?_,
    fun k s ha hr hf hh => ?_, fun k s ha hr hf hh hd hl => ?_⟩
  · obtain ⟨t, ht, hroll, hfw⟩ := fwSwitch_drains b h2 hm hv hr hk hh hs hp hf
    exact ⟨t, ht, by rw [hroll]; rfl, by rw [hroll]; rfl, by rw [hroll]; rfl, by rw [hroll]; rfl, by rw [hroll], by rw [hroll], hfw⟩
  · obtain ⟨t, ht, hframe⟩ := (leaves_of_execKeeps taskCountParts (fun _ _ => rfl) fun A => execRolloutClusterDrained_keeps A rfl :
      leaves .rolloutClusterDrained fun s t => { s with cnt := t.cnt, tsk := t.tsk }) s
    have he : t = _ := (Host.Outcome.next.inj ht).symm.trans (clusterDrained_loads ha hr hh hf hi)
    have hc : cluster t k = { cluster s k with fw := 2, shared := [] } := by rw [he]; simp
    have hx : ∀ i, i < 8 → CoreReset (coreOf t (8 * k + i)) := fun i hlt => by
      rw [he]
      exact eachResetCore_resets (List.mem_map_of_mem (List.mem_range.mpr hlt)) _
    exact ⟨t, ht, by rw [hc], by rw [hc], fun i hlt => ⟨(hx i hlt).x, (hx i hlt).scratch⟩, hframe⟩
  · exact ⟨_, congrArg Host.Outcome.next (drainExpiry_fails ha hr hh hf hi ht), rolloutFail_stops k s⟩
  · exact ⟨_, congrArg Host.Outcome.next (rolloutLoadEnd_fails ha hr hh hf), rolloutFail_stops k s⟩
  · generalize hw : modRoll (fun r => { r with at_ := none, clusters := r.clusters + 2 ^ k })
      (loadImage k s.tsk.rollout.slot (modCluster k (fun c => { c with shared := [] }) s)) = w
    have hroll : w.tsk.rollout = { s.tsk.rollout with at_ := none, clusters := s.tsk.rollout.clusters + 2 ^ k } := by
      rw [← hw]; simp
    have hend : rolloutNext rollSteps w = modRoll (fun r => { r with running := false }) w := by
      refine rolloutNext_ends (by rw [hroll]; exact hr) (by rw [hroll]) ?_ ?_
      · rw [← hw, holdAdopted_modRoll, holdAdopted_loadImage, holdAdopted_modCluster, hh]
      · rw [hroll]
        simp only [List.find?_eq_none, upTo, List.mem_range, Bool.and_eq_true, Bool.not_eq_true', not_and, Bool.not_eq_false]
        exact fun x hx => hd x hx
    refine ⟨_, congrArg Host.Outcome.next ((rolloutLoadEnd_loads ha hr hh hf hl).trans (by rw [hw, hend])), rfl, by simp [hroll], ?_⟩
    have hc := loadImage_cluster k s.tsk.rollout.slot (modCluster k (fun c => { c with shared := [] }) s)
    rw [cluster_modRoll, ← hw, cluster_modRoll, hc]
    exact ⟨rfl, rfl, rfl, rfl⟩

end Sys2Proof.Proofs
end

section
/-! Operands, dispatch, pre-emption and the limits of tasks (R253, R260, R262, R263, R266, R272, R273, R275 to R277). -/

namespace Sys2Proof.Proofs

open Sys2Proof.Machine Sys2Proof.Laws

/-! ### Operands (R260, R264) -/

theorem operandArrival_arrives {sl n k : Nat} {s : State} (hw : (task s sl n).state = tskWaiting) (hk : k < 4)
    (he : bit (task s sl n).expect k = true) (hp : bit (task s sl n).present k = false) (hd : k ≠ 3 ∨ (task s sl n).due = 0) :
    operandArrival sl n k s = tryReady sl n (modTask sl n (fun x => { x with present := x.present + 2 ^ k }) s) :=
  if_pos ⟨hw, hk, he, by rw [hp]; rfl, hd⟩

theorem timerOperand_arrives {sl n : Nat} {s : State} (hw : (task s sl n).state = tskWaiting) (h0 : (task s sl n).due ≠ 0)
    (hd : (task s sl n).due ≤ s.now) (he : bit (task s sl n).expect 3 = true) (hp : bit (task s sl n).present 3 = false) :
    timerOperand sl n s = tryReady sl n (modTask sl n (fun x => { x with present := x.present + 8 }) s) :=
  if_pos ⟨hw, h0, hd, he, by rw [hp]; rfl⟩

theorem timerOperand_early {sl n : Nat} {s : State} (h : s.now < (task s sl n).due) : timerOperand sl n s = s :=
  if_neg fun k => Nat.not_le.mpr h k.2.2.1

/-! ### A dispatch (R272, R273) -/

/-- A task begins on a core: the core holds it, with its operands in the window. -/
theorem coreOf_enterTask (c n : Nat) (s : State) :
    ∃ w, coreOf (enterTask c n s) c = { coreOf s c with task := some n, window := w } :=
  ⟨_, coreOf_modCore ..⟩

theorem task_enterTask (c n : Nat) (s : State) :
    task (enterTask c n s) (sliceOfCore c) n = { task s (sliceOfCore c) n with runAt := s.now } := by
  unfold enterTask
  rw [task_modCore, task_modTask]

theorem task_enterTask_ne {n m : Nat} (h : n ≠ m) (c : Nat) (s : State) :
    task (enterTask c n s) (sliceOfCore c) m = task s (sliceOfCore c) m := by
  unfold enterTask
  rw [task_modCore, task_modTask_ne (by omega)]

section Dispatch

variable {c n : Nat} {x : Task} {s : State} (hs : coreServed s (sliceOfCore c) = some c)
  (hn : nextTask s (clusterOfCore c) = some (n, x))
include hs hn

/-- A core in wk.get gets the task's handle and goes on. -/
theorem taskDispatch_getting {since rd : Nat} (hg : (coreOf s c).getting = some (since, rd)) : taskDispatch (sliceOfCore c) s
    = coreNext c 4 (setCoreReg c rd (sliceOfCore c * 65536 + n) (modCore c (fun x => { x with getting := none })
        (coreCnt c 3 (((enterTask c n (dispatchTask (sliceOfCore c) n s)).now - since) / 500)
          (enterTask c n (dispatchTask (sliceOfCore c) n s))))) := by
  unfold taskDispatch
  simp only [hs, hn, hg]

/-- A core in compatibility mode gets the work interrupt pending. -/
theorem taskDispatch_interrupts (hg : (coreOf s c).getting = none) : ∃ u, taskDispatch (sliceOfCore c) s
      = setCsr c 0x344 (csrRaw u c 0x344 - csrRaw u c 0x344 / 65536 % 2 * 65536 + 65536) u
    ∧ u = modCore c (fun x => { x with avail := false, wfi := false }) (enterTask c n (dispatchTask (sliceOfCore c) n s)) := by
  unfold taskDispatch
  simp only [hs, hn, hg]
  exact ⟨_, rfl, rfl⟩

end Dispatch

/-- The work interrupt becomes pending beside the lower bits. -/
theorem pendingBit_set {v : Nat} (h : v < 2 ^ 16) : (v - v / 65536 % 2 * 65536 + 65536) % 2 ^ 64 = v + 65536 := by omega

/-! ### Pre-emption (R276, R277) -/

theorem preemptDispatch_dispatches {c n : Nat} {x : Task} {s : State} (hc : hasCore s.part c = true)
    (hm : compat s (clusterOfCore c) = true) (hb : cfgBit s (.tskClusterMode (clusterOfCore c)) 1 = true)
    (ho : clusterOn s (clusterOfCore c) = true) (ha : ((upTo 8).any fun i => (coreAsks s (8 * clusterOfCore c + i)).isSome) = false)
    (hn : nextTask s (clusterOfCore c) = some (n, x))
    (hp : preemptCore s (clusterOfCore c) (classPrio s (sliceOfCore c) x.cls) = some c) : preemptDispatch c s
      = setCsr c 0x344 65536 (modCore c (fun y => { y with coming := some n, avail := false }) (dispatchTask (sliceOfCore c) n s)) := by
  unfold preemptDispatch
  simp only [hc, hm, hb, ho, ha, hn, hp]
  rfl

/-- The core whose task becomes PREEMPTED, with its window saved. -/
def suspended (old : Nat) (k : Core) : Core := { k with preempted := some old, savedWindow := k.window }

/-- What the trap of a pre-empting task leaves of the old task and its core, before the new one enters. -/
def taskSuspended (c old : Nat) (s : State) : State :=
  modCore c (suspended old) (modTask (sliceOfCore c) old
    (fun y => { y with state := tskPreempted, ran := ranFor s (task s (sliceOfCore c) old) }) (tskCnt (sliceOfCore c) 7 s))

theorem preemptTrap_switches {c n old : Nat} {s : State} (hf : (coreOf s c).flowing = none) (ht : (coreOf s c).task = some old) :
    preemptTrap c n s = coreTrap c true 16 0 (setCsr c 0x344 0
      (enterTask c n (modCore c (fun y => { y with coming := none }) (taskSuspended c old s)))) := by
  unfold preemptTrap
  simp only [hf, ht]
  rfl

/-! ### The limits (R253, R266) -/

/-- A core that was put back has no interrupt enabled, so that what comes to it is withdrawn. -/
theorem withdrawDispatch_reset {c : Nat} {s : State} (h : CoreReset (coreOf s c)) :
    CoreReset (coreOf (withdrawDispatch c s) c) ∧ (coreOf (withdrawDispatch c s) c).pc = (coreOf s c).pc
      ∧ ∀ k, cluster (withdrawDispatch c s) k = cluster s k := by
  have hirq : workIrqOn s c = false := by
    unfold workIrqOn csrRaw
    rw [h.csr]
    rfl
  unfold withdrawDispatch
  split
  · exact ⟨h, rfl, fun _ => rfl⟩
  · simp only [hirq, Bool.false_eq_true, if_false, coreOf_setCsr, coreOf_modCore, coreOf_modTask, cluster_setCsr, cluster_modCore,
      cluster_modTask, implies_true, and_self, and_true]
    exact ⟨h.x, by rw [h.csr]; rfl, h.scratch, h.getting, h.flowing⟩

theorem runLimitExpiry_over {c n : Nat} {s : State} (ht : (coreOf s c).task = some n)
    (hr : (task s (sliceOfCore c) n).state = tskRunning)
    (hl : cfg1 s (.tskLimitCfg (sliceOfCore c)) 31 16 * 1000000 ≤ ranFor s (task s (sliceOfCore c) n)) :
    runLimitExpiry c s = withdrawDispatch c (resetCore c (faultOnCore c n
      (raise (tskSrc (sliceOfCore c) 0) evTskCoreStuck c n (task s (sliceOfCore c) n).cls 0 s))) := by
  unfold runLimitExpiry
  simp only [ht]
  exact if_pos ⟨hr, hl⟩

theorem runLimitExpiry_within {c n : Nat} {s : State} (ht : (coreOf s c).task = some n)
    (hl : ranFor s (task s (sliceOfCore c) n) < cfg1 s (.tskLimitCfg (sliceOfCore c)) 31 16 * 1000000) : runLimitExpiry c s = s := by
  unfold runLimitExpiry
  simp only [ht]
  exact if_neg fun h => Nat.not_le.mpr hl h.2

/-! ### The claim -/

/-- Settles O27: each row is its operation, by the branch its clause names. -/
theorem taskEvents : Obligations.TaskEvents := by
  refine ⟨fun sl n k s hw hk he hp hd => ?_, fun sl n s hw h0 hd he hp => ?_, fun sl n s h => ?_, fun sl s h => ?_,
    fun sl c n x since rd s hs hn hsl hg => ?_, fun sl c n x s hs hn hsl hg => ?_, fun c n s ht hr hl => ?_,
    fun c n s ht hl => ?_, fun sl l s hh ht hl => ?_, fun sl l s ht => ?_, fun c n x s hco hc hm hb ho ha hn hp => ?_,
    fun c n old s hco hi hf ht hne => ?_⟩
  case refine_1 => exact ⟨_, congrArg Host.Outcome.next (operandArrival_arrives hw hk he hp hd), present_ok hw _⟩
  case refine_2 =>
    obtain ⟨hpres, hready, -⟩ := present_ok hw 8
    exact ⟨_, congrArg Host.Outcome.next (timerOperand_arrives hw h0 hd he hp), hpres, hready⟩
  case refine_3 => exact congrArg Host.Outcome.next (timerOperand_early h)
  case refine_4 => exact congrArg Host.Outcome.next (by unfold taskDispatch; rw [h])
  case refine_5 =>
    subst hsl
    obtain ⟨hrun, hat, htask, hpc, -⟩ := giveTask_ok c n s
    refine ⟨_, congrArg Host.Outcome.next (taskDispatch_getting hs hn hg), ?_, ?_, ?_, ?_, ?_, ?_⟩
    · rw [task_coreNext, task_setCoreReg, task_modCore, task_coreCnt, hrun]
    · rw [task_coreNext, task_setCoreReg, task_modCore, task_coreCnt, hat]
    · rw [coreNext_task, setCoreReg_task, coreOf_modCore, coreOf_coreCnt]
      exact htask
    · rw [coreOf_coreNext, coreOf_setCoreReg, coreOf_modCore]
    · rw [coreReg_coreNext, coreReg_setCoreReg_same]
    · rw [coreNext_pc, setCoreReg_pc, coreOf_modCore, coreOf_coreCnt]
      exact congrArg (fun p => (p + 4) % 2 ^ 64) hpc
  case refine_6 =>
    subst hsl
    obtain ⟨hrun, -, htask, hpc, hcsr, -⟩ := giveTask_ok c n s
    obtain ⟨u, hu, hdef⟩ := taskDispatch_interrupts hs hn hg
    have hcore : coreOf u c = { coreOf (enterTask c n (dispatchTask (sliceOfCore c) n s)) c with avail := false, wfi := false } := by
      rw [hdef, coreOf_modCore]
    refine ⟨_, congrArg Host.Outcome.next hu, ?_, ?_, ?_, ?_, fun hlt => ?_, ?_⟩
    · rw [task_setCsr, hdef, task_modCore, hrun]
    · rw [setCsr_task, hcore]
      exact htask
    · rw [coreOf_setCsr, hcore]
    · rw [coreOf_setCsr, hcore]
    · have hraw : csrRaw u c 0x344 = csrRaw s c 0x344 := csrRaw_congr (by rw [hcore]; exact hcsr) _
      rw [csr_setCsr, hraw, pendingBit_set hlt]
    · rw [setCsr_pc, hcore]
      exact hpc
  case refine_7 =>
    have hreset := resetCore_resets c (faultOnCore c n
      (raise (tskSrc (sliceOfCore c) 0) evTskCoreStuck c n (task s (sliceOfCore c) n).cls 0 s))
    obtain ⟨hr', hpc, hcl⟩ := withdrawDispatch_reset hreset
    refine ⟨_, congrArg Host.Outcome.next (runLimitExpiry_over ht hr hl), hr'.x, hr'.csr, hr'.scratch, hr'.getting, hr'.flowing, ?_, rfl⟩
    rw [hpc, resetCore_entry, hcl, cluster_resetCore]
  case refine_8 => exact congrArg Host.Outcome.next (runLimitExpiry_within ht hl)
  case refine_9 => exact congrArg Host.Outcome.next (if_pos ⟨hh, by rw [ht]; rfl, hl⟩)
  case refine_10 => exact congrArg Host.Outcome.next (if_neg fun h => by rw [ht] at h; exact absurd h.2.1 (by decide))
  case refine_11 =>
    have hrow : preemption c s = preemptDispatch c s := by unfold preemption; rw [hco]
    obtain ⟨hrun, -, hcore, -⟩ := dispatchTask_ok (sliceOfCore c) n s
    refine ⟨_, congrArg Host.Outcome.next (hrow.trans (preemptDispatch_dispatches hc hm hb ho ha hn hp)), ?_, ?_, ?_,
      (csr_setCsr ..).trans (by decide), ?_, ?_⟩
    · rw [task_setCsr, task_modCore, hrun]
    all_goals rw [coreOf_setCsr, coreOf_modCore]
    all_goals rw [hcore]
  case refine_12 =>
    have hrow : preemption c s = preemptTrap c n s := by
      unfold preemption
      simp only [hco, hi, if_true]
    generalize hv : taskSuspended c old s = v at *
    have hold : (task v (sliceOfCore c) old).state = tskPreempted := by
      rw [← hv, taskSuspended, task_modCore, task_modTask]
    have hnew : task v (sliceOfCore c) n = task s (sliceOfCore c) n := by
      rw [← hv, taskSuspended, task_modCore, task_modTask_ne (by omega), task_tskCnt]
    obtain ⟨w, hw⟩ := coreOf_enterTask c n (modCore c (fun y => { y with coming := none }) v)
    have hcore : coreOf (enterTask c n (modCore c (fun y => { y with coming := none }) v)) c
        = { suspended old (coreOf s c) with coming := none, task := some n, window := w } := by
      rw [hw, coreOf_modCore, ← hv, taskSuspended, coreOf_modCore, coreOf_modTask, coreOf_tskCnt]
    obtain ⟨-, hcause, -, hepc, -, -, hcsr⟩ := trap_ok c true 16 0 (setCsr c 0x344 0
      (enterTask c n (modCore c (fun y => { y with coming := none }) v)))
    have hrun := hrow.trans (preemptTrap_switches hf ht)
    rw [hv] at hrun
    refine ⟨_, congrArg Host.Outcome.next hrun, ?_, ?_, ?_, ?_, ?_, ?_, hcause.trans (by decide), hepc.trans ?_, ?_⟩
    · rw [task_coreTrap, task_setCsr, task_enterTask_ne hne, task_modCore, hold]
    · rw [task_coreTrap, task_setCsr, task_enterTask, task_modCore, hnew]
    · rw [coreOf_coreTrap, coreOf_setCsr, hcore]
    · rw [coreOf_coreTrap, coreOf_setCsr, hcore]
    · rw [coreOf_coreTrap, coreOf_setCsr, hcore]; rfl
    · rw [coreOf_coreTrap, coreOf_setCsr, hcore]; rfl
    · rw [setCsr_pc, hcore]
      rfl
    · rw [hcsr _ (by decide) (by decide) (by decide) (by decide), csr_setCsr, Nat.zero_mod]

end Sys2Proof.Proofs
end

section
/-! Flow cores: instructions retired, traps, the work interrupt and the work extension (R250, R254 to R259, R267, R268, R271, R275). -/

namespace Sys2Proof.Proofs

open Sys2Proof.Machine Sys2Proof.Laws

/-! ### One step of a core (R250, R275) -/

/-- A core that does not wait in wfi. -/
def awake (c : Nat) (s : State) : State := modCore c (fun x => { x with wfi := false }) s

@[simp] theorem coreReg_awake (c : Nat) (s : State) (n : Nat) : coreReg (awake c s) c n = coreReg s c n :=
  coreReg_congr (by rw [awake, coreOf_modCore]) n

@[simp] theorem csrRaw_awake (c : Nat) (s : State) (n : Nat) : csrRaw (awake c s) c n = csrRaw s c n :=
  csrRaw_congr (by rw [awake, coreOf_modCore]) n

theorem coreOf_awake (c : Nat) (s : State) : coreOf (awake c s) c = { coreOf s c with wfi := false } := coreOf_modCore ..

/-- A core with the four-byte instruction i at its pc, and nothing that keeps it from retiring it. -/
structure Retires (s : State) (c i : Nat) : Prop where
  runs : coreRuns s c = true
  coming : (coreOf s c).coming = none
  pending : bit (csrRaw s c 0x344) 16 = false
  wfi : (coreOf s c).wfi = false
  inside : (coreOf s c).pc + 4 ≤ 0x80000
  fetched : rdN (cluster s (clusterOfCore c)).isram (coreOf s c).pc 4 = i
  wide : rdN (cluster s (clusterOfCore c)).isram (coreOf s c).pc 2 % 4 = 3

/-- What an instruction leaves, when it leaves nothing on its way to the core. -/
theorem coreInstruction_retires {s u : State} {c i : Nat} (h : Retires s c i) (hu : coreExec c i 4 (awake c s) = u)
    (hc : (coreOf u c).coming = none) : exec (.coreInstruction c) s = .next u := by
  have hstep : coreStep c s = u := (instr_at h.runs h.pending h.wfi h.inside h.fetched h.wide).trans hu
  exact congrArg Host.Outcome.next ((instr_eq (by rw [hstep]; exact hc)).trans hstep)

theorem coreStep_stopped {s : State} {c : Nat} (h : coreRuns s c = false) : coreStep c s = s := by
  unfold coreStep
  rw [h]
  rfl

theorem coreStep_interrupted {s : State} {c : Nat} (hr : coreRuns s c = true) (hc : (coreOf s c).coming = none)
    (hp : bit (csrRaw s c 0x344) 16 = true) (hi : workIrqOn s c = true) :
    coreStep c s = coreTrap c true 16 0 (setCsr c 0x344 0 s) := by
  unfold coreStep
  simp only [hr, hp, hi, hc]
  rfl

/-! ### The instructions -/

theorem coreExec_opImm {c i len v : Nat} {s : State} (h : fld i 6 0 = 0x13)
    (hv : aluImm (fld i 14 12) (fld i 31 20) (coreReg s c (fld i 19 15)) = some v) :
    coreExec c i len s = coreNext c len (setCoreReg c (fld i 11 7) v s) := by
  simp only [coreExec, h, hv, coreResult]

theorem coreExec_branch {c i len : Nat} {s : State} (h : fld i 6 0 = 0x63)
    (hb : branchTaken (fld i 14 12) (coreReg s c (fld i 19 15)) (coreReg s c (fld i 24 20)) = some true) : coreExec c i len s
    = modCore c (fun x => { x with pc := ((coreOf s c).pc
        + sx 13 (pack [(1, 0), (4, fld i 11 8), (6, fld i 30 25), (1, fld i 7 7), (1, fld i 31 31)])) % 2 ^ 64 })
      (coreNext c len s) := by
  simp only [coreExec, h, hb]
  rfl

theorem coreExec_unknownWork {c i len : Nat} (s : State) (h : fld i 6 0 = 0x0B) (h7 : fld i 31 25 ≠ 0) :
    coreExec c i len s = coreTrap c false 2 0 s := by
  simp only [coreExec, h, if_pos h7, coreIllegal]

/-- A register written, as a whole register file. -/
theorem coreReg_written {c rd v n : Nat} (s : State) (hrd : rd < 32) (hn : n < 32) :
    coreReg (setCoreReg c rd v s) c n = if n = 0 then 0 else if n = rd then v % 2 ^ 64 else coreReg s c n := by
  rw [coreReg_setCoreReg, Nat.mod_eq_of_lt hn, Nat.mod_eq_of_lt hrd]
  by_cases h0 : n = 0
  · rw [if_pos h0, if_neg (by omega), coreReg_zero (by omega)]
  · simp only [if_neg h0]
    exact if_congr (by omega) rfl rfl

/-! ### wk.new (R259) -/

theorem onCore_runs {c : Nat} {s : State} (h : coreRuns s c = true) (f : State → State) : onCore c f s = f s := if_pos h

/-- The task that an argument block describes. -/
def newTask (s : State) (b : Nat) : Task :=
  { kind := 6, cls := fld b 7 0 % 64, lock := fld b 47 32 % 16384, expect := 8, record := fld b 127 96
    version := if recLive s (fld b 127 96 % 2 ^ 26) && decide (fld b 127 96 < 2 ^ 26) then recVer s (fld b 127 96) else 0
    timer := fld b 511 128, due := if bit (fld b 15 8) 1 then s.now + Nat.max 1 (fld b 95 64 % 2 ^ 20) * 1000000 else 0 }

theorem wkNew_places {c rd rs1 b n : Nat} {s : State} (hb : coreRd s c (coreReg s c rs1) 64 = some b)
    (hf : bit (fld b 15 8) 0 = false) (hs : hasSlice s.part (sliceOfCore c) = true) (hd : domOn s (domSlice (sliceOfCore c)) = true)
    (hn : freeSlot s (sliceOfCore c) = some n) : wkNew c rd rs1 s = setCoreReg c rd (sliceOfCore c * 65536 + n)
      (placeTask (sliceOfCore c) n false (newTask (coreNext c 4 s) b) (coreNext c 4 s)) := by
  have hs' : hasSlice (coreNext c 4 s).part (sliceOfCore c) = true := hs
  have hd' : domOn (coreNext c 4 s) (domSlice (sliceOfCore c)) = true := hd
  have hn' : freeSlot (coreNext c 4 s) (sliceOfCore c) = some n := hn
  unfold wkNew
  simp only [hb, hf, hs', hd', hn', Bool.not_true, Bool.or_self, Bool.false_eq_true, if_false]
  rfl

/-! ### wk.cancel (R271) -/

theorem coreNext_cnt (c n : Nat) (s : State) : (coreNext c n s).cnt = s.cnt := rfl

/-- wk.cancel gives what the cancellation of the task of the handle gives. -/
theorem wkCancel_cancels {c rd rs1 sl n st : Nat} {s u : State} (hr : coreReg s c rs1 = sl * 65536 + n) (hn : n < 65536)
    (hsl : sl < 8) (hs : hasSlice s.part sl = true) (hu : cancelTask sl n (coreNext c 4 s) = (st, u)) :
    wkCancel c rd rs1 s = setCoreReg c rd st u := by
  have hdiv : (sl * 65536 + n) / 65536 = sl := by omega
  have hmod : (sl * 65536 + n) % 65536 = n := by omega
  have hlt : ¬2 ^ 19 ≤ sl * 65536 + n := by omega
  have hs' : hasSlice (coreNext c 4 s).part sl = true := hs
  unfold wkCancel
  simp only [hr, hdiv, hmod, hlt, hs', hu, Bool.not_true, Bool.false_eq_true, or_self, if_false]

/-! ### wk.rel and wk.hand (R255, R267, R268) -/

theorem wkRel_releases {c rs1 n : Nat} {s : State} (h : (coreOf s c).task = some n) :
    wkRel c rs1 s = releaseTask c n (coreReg s c rs1) (coreNext c 4 s) := by
  unfold wkRel
  rw [h]

theorem wkHand_hands {c rs1 rs2 n : Nat} {s : State} (h : (coreOf s c).task = some n) :
    wkHand c rs1 rs2 s = handTask c n (coreReg s c rs1 % 16384) (coreReg s c rs2 % 64) (coreNext c 4 s) := by
  unfold wkHand
  rw [h]

/-! ### wk.flow and its reply (R256, R258) -/

/-- A core blocked in wk.flow. -/
def flows (rd : Nat) (k : Core) : Core := { k with flowing := some (rd % 32) }

/-- A request that names a target goes to it, and blocks the core. -/
theorem wkFlow_sends {c rd n o : Nat} {s : State} (ht : (coreOf s c).task = some n)
    (h0 : fld (rdN (coreOf s c).window 0x2C0 64) 7 0 ≠ 0) (h1 : fld (rdN (coreOf s c).window 0x2C0 64) 7 0 ≤ 0x0C)
    (ho : wkTarget s c (task s (sliceOfCore c) n) (rdN (coreOf s c).window 0x2C0 64) (rdN (coreOf s c).window 0x400 256) = some o) :
    wkFlow c rd s = modSlice o (fun x => { x with wk := x.wk
      ++ [⟨c, n, rdN (coreOf s c).window 0x2C0 64, rdN (coreOf s c).window 0x100 256, rdN (coreOf s c).window 0x400 256⟩] })
      (tskCnt (sliceOfCore c) 11 (modCore c (flows rd) s)) := by
  have ho' : wkTarget (tskCnt (sliceOfCore c) 11 (modCore c (flows rd) s)) c (task s (sliceOfCore c) n)
      (rdN (coreOf s c).window 0x2C0 64) (rdN (coreOf s c).window 0x400 256) = some o := ho
  unfold flows at ho'
  have hop : ¬(fld (rdN (coreOf s c).window 0x2C0 64) 7 0 = 0 ∨ 0x0C < fld (rdN (coreOf s c).window 0x2C0 64) 7 0) := by omega
  unfold wkFlow
  simp only [coreOf_modCore, ht, if_neg hop, task_tskCnt, task_modCore, ho']
  rfl

/-- A core that gets its reply. -/
def replied (w : List Host.Cell) (k : Core) : Core := { k with reply := none, replyImage := none, flowing := none, window := w }

theorem wkFlowReply_resumes {c op st rd : Nat} {words : List (Nat × Nat)} {s : State}
    (hr : (coreOf s c).reply = some (op, st, words)) (hf : (coreOf s c).flowing = some rd) :
    ∃ w, wkFlowReply c s = coreNext c 4 (setCoreReg c rd st (modCore c (replied w) s)) := by
  unfold wkFlowReply
  simp only [hr, hf]
  exact ⟨_, rfl⟩

/-! ### wk.evt (R254, R462) -/

theorem wkEvt_raises {c rs2 p : Nat} {s : State} (rs1 : Nat) (h : coreRd s c (coreReg s c rs2) 16 = some p) : wkEvt c rs1 rs2 s
    = raiseSev (fld (coreReg s c rs1) 17 16) (tskSrc (sliceOfCore c) (32 + c % 24)) (Nat.lor (coreReg s c rs1 % 65536) 0x8000)
        (fld p 31 0) (fld p 63 32) (fld p 95 64) (fld p 127 96) (coreNext c 4 s) := by
  unfold wkEvt
  simp only [h]

/-! ### The claim -/

/-- Settles O26: a step of a core by the instruction it fetches, and each row of the work extension by what its operation does to the
task, the core and the counts. -/
theorem flowCores : Obligations.FlowCores := by
  refine ⟨fun c s hr hc => ?stopped, fun c i v s hr hc hp hw hpc hi h3 hop hv => ?opImm,
    fun c i s hr hc hp hw hpc hi h3 hop hb => ?branch, fun c i s hr hc hp hw hpc hi h3 hop h7 => ?unknown,
    fun c s hr hc hp hi => ?interrupt, fun c rd s hr hm ht => ?get, fun c rd rs1 b n s hr hb hf hs hd hn => ?new,
    fun c rd rs1 sl n s hr hh hn hsl hs hst hk hti hpk hl hi => ?cancel, fun c rs1 n s hr ht hk hti hca hw hp hl he => ?waits,
    fun c rs1 n s hr ht hk hti hpk hp hl hi => ?frees, fun c rs1 rs2 n s hr ht hh hti hp hl hm he => ?hand,
    fun c rd n o s hr ht h0 h1 ho => ?flow, fun c rs1 rs2 p s hr hp => ?evt, fun c op st words rd s hre hf => ?reply⟩
  case stopped =>
    have hstep := coreStep_stopped hr
    exact congrArg Host.Outcome.next ((instr_eq (by rw [hstep]; exact hc)).trans hstep)
  case opImm =>
    have hx := coreExec_opImm (c := c) (len := 4) (s := awake c s) hop (by rwa [coreReg_awake])
    refine ⟨_, coreInstruction_retires ⟨hr, hc, hp, hw, hpc, hi, h3⟩ hx ?_, fun n hn => ?_, ?_, fun hin => ?_, ?_⟩
    · rw [coreOf_coreNext, coreOf_setCoreReg, coreOf_awake]
      exact hc
    · rw [coreReg_coreNext, coreReg_written _ (fld_lt_pow i 11 7 5 rfl) hn, coreReg_awake]
    · rw [coreNext_pc, setCoreReg_pc, coreOf_awake]
    · rw [csr_coreNext _ _ _ (by rw [csr_setCoreReg, csrRaw_awake]; exact hin), csr_setCoreReg, csrRaw_awake]
    · rw [coreNext_task, setCoreReg_task, coreOf_awake]
  case branch =>
    have hx := coreExec_branch (c := c) (len := 4) (s := awake c s) hop (by rwa [coreReg_awake, coreReg_awake])
    refine ⟨_, coreInstruction_retires ⟨hr, hc, hp, hw, hpc, hi, h3⟩ hx ?_, fun n => ?_, ?_⟩
    · rw [coreOf_modCore, coreOf_coreNext, coreOf_awake]
      exact hc
    · exact (coreReg_congr (by rw [coreOf_modCore]) n).trans ((coreReg_coreNext ..).trans (coreReg_awake ..))
    · rw [coreOf_modCore, coreOf_awake]
  case unknown =>
    have hx := coreExec_unknownWork (c := c) (len := 4) (awake c s) hop h7
    obtain ⟨hreg, hcause, htval, hepc, hstatus, hbase, -⟩ := trap_ok c false 2 0 (awake c s)
    refine ⟨_, coreInstruction_retires ⟨hr, hc, hp, hw, hpc, hi, h3⟩ hx ?_, fun n => ?_, hcause, ?_, htval, ?_, ?_⟩
    · rw [coreOf_coreTrap, coreOf_awake]
      exact hc
    · rw [hreg, coreReg_awake]
    · rw [hepc, coreOf_awake]
    · rw [hstatus, csrRaw_awake]
    · rw [hbase, csrRaw_awake]
      rfl
  case interrupt =>
    have hstep := coreStep_interrupted hr hc hp hi
    obtain ⟨hreg, hcause, -, hepc, hstatus, -, hcsr⟩ := trap_ok c true 16 0 (setCsr c 0x344 0 s)
    have hon : bit (csrRaw s c 0x300) 3 = true := (Bool.and_eq_true_iff.mp hi).1
    refine ⟨_, congrArg Host.Outcome.next ((instr_eq ?_).trans hstep), hcause.trans (by decide), ?_, ?_, ?_, fun n => ?_⟩
    · rw [hstep, coreOf_coreTrap, coreOf_setCsr]
      exact hc
    · rw [hepc, setCsr_pc]
    · rw [hcsr _ (by decide) (by decide) (by decide) (by decide), csr_setCsr, Nat.zero_mod]
    · rw [hstatus, csr_setCsr_ne _ _ (by decide), hon]
      rfl
    · rw [hreg, coreReg_setCsr]
  case get =>
    have hg : wkGet c rd s = modCore c (fun x => { x with getting := some (s.now, rd % 32) }) s := if_neg (by rw [hm, ht]; decide)
    exact congrArg Host.Outcome.next ((onCore_runs hr _).trans hg)
  case new =>
    obtain ⟨hkind, hcls, hlock, htimer, hdue, hstate, hcore⟩ :=
      placeTask_ok (sliceOfCore c) n false (newTask (coreNext c 4 s) b) (coreNext c 4 s) rfl rfl (by exact (by decide : (0 : Nat) ≠ 8))
    refine ⟨_, congrArg Host.Outcome.next ((onCore_runs hr _).trans (wkNew_places hb hf hs hd hn)), coreReg_setCoreReg_same ..,
      ?_, ?_⟩
    · rw [setCoreReg_pc, hcore, coreNext_pc]
    · rw [task_setCoreReg]
      exact ⟨hkind, hcls, hlock, htimer, hstate, hdue⟩
  case cancel =>
    have hc := cancel_waiting (s := coreNext c 4 s) hst hk hti hpk hl hi
    refine ⟨_, congrArg Host.Outcome.next ((onCore_runs hr _).trans (wkCancel_cancels hh hn hsl hs hc)), ?_, ?_, ?_, ?_⟩
    · rw [coreReg_setCoreReg_same, Nat.zero_mod, ite_self]
    · rw [task_setCoreReg, task_modTask]
    · rw [setCoreReg_pc, coreOf_modTask, coreOf_modTask, coreOf_modLock, coreOf_tskCnt, coreNext_pc]
    · rw [cntGet_congr (setCoreReg_cnt ..), cntGet_congr (modTask_cnt ..), cntGet_congr (modTask_cnt ..), cntGet_congr (modLock_cnt ..),
        cntGet_tskCnt, cntGet_congr (coreNext_cnt ..)]
  case waits =>
    obtain ⟨hstate, hword, htask, hpc⟩ := release_waits (s := coreNext c 4 s) hk hti hca hw (by rw [coreNext_task]; exact ht)
      (by rw [coreNext_preempted]; exact hp) hl he
    exact ⟨_, congrArg Host.Outcome.next ((onCore_runs hr _).trans (wkRel_releases ht)), hstate, hword, htask, by rw [hpc, coreNext_pc]⟩
  case frees =>
    obtain ⟨hslot, htask, hpc⟩ := release_frees (w := coreReg s c rs1) (s := coreNext c 4 s) hk hti hpk (by rw [coreNext_task]; exact ht)
      (by rw [coreNext_preempted]; exact hp) hl hi
    exact ⟨_, congrArg Host.Outcome.next ((onCore_runs hr _).trans (wkRel_releases ht)), hslot, htask, by rw [hpc, coreNext_pc]⟩
  case hand =>
    obtain ⟨htask, hpc, hstate, hlock, hcls, hhands, hwin⟩ := hand_ok (l := coreReg s c rs1 % 16384) (k := coreReg s c rs2 % 64)
      (s := coreNext c 4 s) (Nat.mod_lt _ (by decide)) (Nat.mod_lt _ (by decide)) hh hti (by rw [coreNext_task]; exact ht)
      (by rw [coreNext_preempted]; exact hp) hl hm he
    exact ⟨_, congrArg Host.Outcome.next ((onCore_runs hr _).trans (wkHand_hands ht)), htask, by rw [hpc, coreNext_pc], hstate, hlock,
      hcls, hhands, by rw [hwin, coreOf_coreNext]⟩
  case flow =>
    refine ⟨_, congrArg Host.Outcome.next ((onCore_runs hr _).trans (wkFlow_sends ht h0 h1 ho)), ?_, ?_, ?_, ?_⟩
    · rw [coreOf_modSlice, coreOf_tskCnt, coreOf_modCore]
      rfl
    · rw [coreOf_modSlice, coreOf_tskCnt, coreOf_modCore]
      rfl
    · exact cntGet_tskCnt (sliceOfCore c) 11 (modCore c (flows rd) s)
    · rw [slice_modSlice]
      rfl
  case evt =>
    exact congrArg Host.Outcome.next ((onCore_runs hr _).trans (wkEvt_raises rs1 hp))
  case reply =>
    obtain ⟨w, hw⟩ := wkFlowReply_resumes hre hf
    refine ⟨_, congrArg Host.Outcome.next hw, ?_, ?_, ?_, ?_⟩
    · rw [coreReg_coreNext, coreReg_setCoreReg_same]
    · rw [coreOf_coreNext, coreOf_setCoreReg, coreOf_modCore]
      rfl
    · rw [coreOf_coreNext, coreOf_setCoreReg, coreOf_modCore]
      rfl
    · rw [coreNext_pc, setCoreReg_pc, coreOf_modCore]
      rfl

end Sys2Proof.Proofs
end

section
/-! DOMAIN_CTL and the moments of a power domain (R284, R500, R502 to R507, R515). What the traffic, the cores and the commands do at a
change of power leaves the power domains; so each row's effect on them is one change of one domain. -/

namespace Sys2Proof.Proofs

open Sys2Proof.Machine Sys2Proof.Laws

/-! ### What reads the domains alone -/

theorem domain_congr {s t : State} (h : t.pwr = s.pwr) (k : Nat) : domain t k = domain s k := by
  unfold domain
  rw [h]

theorem modDomain_pwr_congr {s t : State} (h : t.pwr = s.pwr) (n : Nat) (f : Domain → Domain) :
    (modDomain n f t).pwr = (modDomain n f s).pwr := by
  unfold modDomain
  rw [domain_congr h, h]

theorem ctlDomain_congr {s t : State} (h : t.part = s.part) (x : Hdr) : ctlDomain t x = ctlDomain s x := by
  unfold ctlDomain
  rw [h]

theorem ctlWord_congr {s t : State} (h : t.pwr = s.pwr) (n : Nat) : ctlWord t n = ctlWord s n := by
  unfold ctlWord
  rw [domain_congr h]

theorem onRefused_congr {s t : State} (h : t.pwr = s.pwr) (n : Nat) : onRefused t n = onRefused s n := by
  unfold onRefused
  simp only [domain_congr h]

theorem offRefused_congr {s t : State} (h : t.pwr = s.pwr) (n : Nat) : offRefused t n = offRefused s n := by
  unfold offRefused domOn
  simp only [domain_congr h]

theorem srcRefused_congr {s t : State} (h : t.pwr = s.pwr) (p : t.part = s.part) (n src : Nat) :
    srcRefused t n src = srcRefused s n src := by
  unfold srcRefused domOn
  simp only [domain_congr h, p]

section

variable (s : State) (i : Instr) (g : Nat)

@[simp] theorem beginState_domain (n : Nat) : domain (beginState s i g) n = domain s n := domain_congr (beginState_pwr ..) n
@[simp] theorem beginState_ctlDomain (x : Hdr) : ctlDomain (beginState s i g) x = ctlDomain s x := ctlDomain_congr (beginState_part ..) x
@[simp] theorem beginState_ctlWord (n : Nat) : ctlWord (beginState s i g) n = ctlWord s n := ctlWord_congr (beginState_pwr ..) n
@[simp] theorem beginState_onRefused (n : Nat) : onRefused (beginState s i g) n = onRefused s n := onRefused_congr (beginState_pwr ..) n
@[simp] theorem beginState_offRefused (n : Nat) : offRefused (beginState s i g) n = offRefused s n :=
  offRefused_congr (beginState_pwr ..) n
@[simp] theorem beginState_srcRefused (n src : Nat) : srcRefused (beginState s i g) n src = srcRefused s n src :=
  srcRefused_congr (beginState_pwr ..) (beginState_part ..) n src

end

/-- t's power domains are s's, but for one changed by f. -/
def ChangesDomain (n : Nat) (f : Domain → Domain) (s t : State) : Prop := t.pwr = (modDomain n f s).pwr

theorem ChangesDomain.same {n : Nat} {f : Domain → Domain} {s t : State} (h : ChangesDomain n f s t) :
    domain t n = f (domain s n) :=
  (domain_congr h n).trans (domain_modDomain n f s)

theorem ChangesDomain.other {n : Nat} {f : Domain → Domain} {s t : State} (h : ChangesDomain n f s t) (k : Nat) (hk : k ≠ n) :
    domain t k = domain s k :=
  (domain_congr h k).trans (domain_modDomain_ne hk.symm f s)

/-- What leaves the domains may come before the change and after it. -/
theorem ChangesDomain.between {n : Nat} {f : Domain → Domain} {s u v t : State} (h : ChangesDomain n f u v) (hu : u.pwr = s.pwr)
    (ht : t.pwr = v.pwr) : ChangesDomain n f s t :=
  ht.trans (h.trans (modDomain_pwr_congr hu n f))

/-! ### What leaves the domains -/

@[simp] theorem octetDown_pwr (k : Nat) (s : State) : (octetDown k s).pwr = s.pwr :=
  (octetDown_keeps (Only.allows 10389731616 s) rfl k s (Only.refl _ s)).pwr rfl
@[simp] theorem startTransfer_pwr (sl : Nat) (s : State) : (startTransfer sl s).pwr = s.pwr :=
  (startTransfer_keeps (Only.allows 131072 s) rfl sl s (Only.refl _ s)).pwr rfl
@[simp] theorem checkServed_pwr (sl : Nat) (s : State) : (checkServed sl s).pwr = s.pwr :=
  (checkServed_keeps (Only.allows 10336868640 s) rfl sl s (Only.refl _ s)).pwr rfl
@[simp] theorem rolloutPast_pwr (c : Nat) (s : State) : (rolloutPast c s).pwr = s.pwr :=
  (rolloutPast_keeps (Only.allows 10336868640 s) rfl c s (Only.refl _ s)).pwr rfl
@[simp] theorem clearDomain_pwr (n : Nat) (s : State) : (clearDomain n s).pwr = s.pwr :=
  (clearDomain_keeps (Only.allows 10366720304 s) rfl n s (Only.refl _ s)).pwr rfl
@[simp] theorem clearCounters_pwr (n : Nat) (s : State) : (clearCounters n s).pwr = s.pwr :=
  (clearCounters_keeps (Only.allows 2048 s) rfl n s (Only.refl _ s)).pwr rfl
@[simp] theorem faultEffects_pwr (n : Nat) (s : State) : (faultEffects n s).pwr = s.pwr :=
  (faultEffects_keeps (Only.allows 10400283952 s) rfl n s (Only.refl _ s)).pwr rfl
@[simp] theorem ctlFinish_pwr (n st : Nat) (e : InFlight) (s : State) : (ctlFinish n st e s).pwr = s.pwr :=
  (ctlFinish_keeps (Only.allows 6416 s) rfl n st e s (Only.refl _ s)).pwr rfl
@[simp] theorem domEvent_pwr (n code cause : Nat) (s : State) : (domEvent n code cause s).pwr = s.pwr := raise_pwr ..

theorem asActor_pwr (a : Nat × Nat) (f : State → State) (s : State) : (asActor a f s).pwr = (f { s with actor := some a }).pwr := by
  unfold asActor
  dsimp only
  split <;> rfl

/-- A command that begins leaves of the domains what its run leaves. -/
theorem command_pwr {s : State} {i : Instr} {g : Nat} (b : begins s i g) (run : Nat × Nat → State → CmdOut × State) :
    (command i run s).pwr = (run (g, (ring s g).begun) (beginState s i g)).2.pwr := by
  rw [command_begins b]
  exact (afterRun_only ..).pwr rfl

/-! ### The changes (R500, R502, R504, R505) -/

/-- A domain that begins to stop. -/
def stopping (d : Domain) : Domain := { d with state := dsStopping }

/-- A domain without power. -/
def unpowered (d : Domain) : Domain := { d with state := dsOff, fault := false, auto := false }

/-- A domain in QUARANTINE, with or without a fault of a cause. -/
def quarantined (cause : Nat) (fault : Bool) (d : Domain) : Domain :=
  { d with state := dsQuar, gen := (d.gen + 1) % 256, fault := fault, cause := if fault then cause else d.cause, auto := false }

/-- A domain whose re-initialisation has passed. -/
def returned (d : Domain) : Domain := { d with state := dsOn, fault := false, src := 0xFF, auto := false }

/-- A domain whose re-initialisation has failed. -/
def notReturned (d : Domain) : Domain := { d with state := dsQuar, fault := true, cause := 4, auto := false }

theorem beginStop_changes (n : Nat) (s : State) : ChangesDomain n stopping s (beginStop n s) := by
  unfold beginStop ChangesDomain
  dsimp only
  split
  · exact octetDown_pwr ..
  · rfl
  · exact startTransfer_pwr ..
  · exact checkServed_pwr ..

theorem enterQuar_changes (n cause : Nat) (fault : Bool) (s : State) :
    ChangesDomain n (quarantined cause fault) s (enterQuar n cause fault s) :=
  domEvent_pwr ..

theorem powerOff_changes (n : Nat) (s : State) : ChangesDomain n unpowered s (powerOff n s) :=
  (domEvent_pwr ..).trans (clearDomain_pwr ..)

theorem finishInit_changes (n : Nat) (s : State) : ChangesDomain n returned s (finishInit n s) := by
  unfold finishInit ChangesDomain
  dsimp only
  split
  · rw [ctlFinish_pwr, domEvent_pwr, clearCounters_pwr]
    rfl
  · rw [domEvent_pwr, clearCounters_pwr]
    rfl

/-! ### The actions of DOMAIN_CTL (R503, R504) -/

section Actions

variable {h : Hdr} {n : Nat} {s : State} (hd : ctlDomain s h = some n) (a : Nat × Nat)
include hd

theorem runCtlQuery_answers : runCtlQuery h a s = (.done 0 0 (ctlWord s n) 0, cntInc 0x0D82 0 2 s) := by
  unfold runCtlQuery onDomain
  rw [hd]
  rfl

theorem runCtlOff_stops (hs : (domain s n).state = dsOn) (hr : offRefused s n = false) :
    runCtlOff h a s = (.go .domain, beginStop n s) := by
  unfold runCtlOff onDomain
  simp [hd, hs, hr]

theorem runCtlOn_quarantines (hs : (domain s n).state = dsOff) (hr : onRefused s n = false) :
    (runCtlOn h a s).2 = cntInc 0x0D82 0 2 (enterQuar n 0 false s) := by
  unfold runCtlOn onDomain
  simp [hd, hs, hr, ctlDone]

theorem runCtlReinit_begins {src : Nat} (hs : (domain s n).state = dsQuar) (hr : onRefused s n = false)
    (hc : srcRefused s n src = false) : runCtlReinit h src a s = (.go .domain, beginInit n src false s) := by
  unfold runCtlReinit onDomain
  simp [hd, hs, hr, hc]

theorem runCtlRestart_stops {src : Nat} (hs : (domain s n).state = dsOn) (hr : offRefused s n = false)
    (hc : srcRefused s n src = false) : runCtlRestart h src a s = (.go .domain, beginStop n s) := by
  unfold runCtlRestart onDomain
  simp [hd, hs, hr, hc]

theorem runCtlRestart_goesOn {src : Nat} (hs : (domain s n).state = dsQuar) (hr : offRefused s n = false)
    (hc : srcRefused s n src = false) : runCtlRestart h src a s = (.go .domain, s) := by
  unfold runCtlRestart onDomain
  simp [hd, hs, hr, hc, dsQuar, dsOn]

end Actions

/-! ### DOMAIN_STOP_DONE and DOMAIN_INIT_DONE (R504, R505) -/

/-- The power of a domain other than a slice goes when its preconditions are met. -/
theorem domainStopDone_off {n : Nat} {h : Hdr} {e : InFlight} {s : State} (hd : hasDomain s.part n = true)
    (hk : ∀ sl, domKind n ≠ .slice sl) (he : ctlOn s n = some e) (hc : e.cmd = .domainCtlOff h) (ha : e.abort = false)
    (hs : (domain s n).state = dsStopping) (hr : stopReady s n = true) :
    domainStopDone n s = asActor (e.ring, e.index) (fun u => ctlFinish n 0 e (powerOff n u)) s := by
  have hcommit : ∀ u, stopCommit n u = powerOff n u := by
    intro u
    unfold stopCommit
    split
    next sl hsl => exact absurd hsl (hk sl)
    next => rfl
  unfold domainStopDone
  simp only [hd, he, hs, ha, hc, hcommit]
  rw [hr]
  rfl

theorem domainStopDone_changes {n : Nat} {h : Hdr} {e : InFlight} {s : State} (hd : hasDomain s.part n = true)
    (hk : ∀ sl, domKind n ≠ .slice sl) (he : ctlOn s n = some e) (hc : e.cmd = .domainCtlOff h) (ha : e.abort = false)
    (hs : (domain s n).state = dsStopping) (hr : stopReady s n = true) : ChangesDomain n unpowered s (domainStopDone n s) := by
  rw [domainStopDone_off hd hk he hc ha hs hr]
  exact (powerOff_changes n { s with actor := some (e.ring, e.index) }).between rfl ((asActor_pwr ..).trans (ctlFinish_pwr ..))

theorem initPassed_changes {n k : Nat} (hk : domKind n = .octet k) (s : State) : ChangesDomain n returned s (initPassed n s) := by
  unfold initPassed
  simp only [hk]
  exact (finishInit_changes ..).between (modEgs_pwr ..) rfl

theorem domainInitDone_passes {n k : Nat} {s : State} (hd : hasDomain s.part n = true) (hi : (domain s n).state = dsInit)
    (hk : domKind n = .octet k) : ChangesDomain n returned s (domainInitDone n true s) := by
  unfold domainInitDone
  rw [if_neg (by simp [hd, hi])]
  simp only [if_true]
  split
  next e _ => exact (initPassed_changes hk { s with actor := some (e.ring, e.index) }).between rfl (asActor_pwr ..)
  next => exact initPassed_changes hk s

/-- The end of a re-initialisation whose self-test failed. -/
def initFails (n : Nat) (s : State) : State :=
  let s := modDomain n notReturned s
  let s := domEvent n evPwrDomainFault 4 (cntInc 0x0D82 0 6 s)
  match ctlOn s n with
  | some e => ctlFinish n 9 e s
  | none => s

theorem initFails_changes (n : Nat) (s : State) : ChangesDomain n notReturned s (initFails n s) := by
  unfold initFails ChangesDomain
  dsimp only
  split
  · rw [ctlFinish_pwr, domEvent_pwr, cntInc_pwr]
  · rw [domEvent_pwr, cntInc_pwr]

theorem domainInitDone_fails {n : Nat} {s : State} (hd : hasDomain s.part n = true) (hi : (domain s n).state = dsInit) :
    ChangesDomain n notReturned s (domainInitDone n false s) := by
  unfold domainInitDone
  rw [if_neg (by simp [hd, hi])]
  simp only [Bool.false_eq_true, if_false]
  split
  next e _ => exact (initFails_changes n { s with actor := some (e.ring, e.index) }).between rfl (asActor_pwr ..)
  next => exact initFails_changes n s

/-! ### DOMAIN_FAULT and AUTO_RESTART (R506, R507) -/

/-- A fault, but for the command that a re-initialisation was for. -/
def faults (n cause : Nat) (s : State) : State :=
  let s := enterQuar n cause true (domEvent n evPwrDomainFault cause (cntInc 0x0D82 0 0 (faultEffects n s)))
  match domKind n with
  | .cluster c => rolloutPast c (checkServed (c / 3) s)
  | _ => s

theorem faults_changes (n cause : Nat) (s : State) : ChangesDomain n (quarantined cause true) s (faults n cause s) := by
  have h := (enterQuar_changes n cause true (domEvent n evPwrDomainFault cause (cntInc 0x0D82 0 0 (faultEffects n s)))).between
    (s := s) (by rw [domEvent_pwr, cntInc_pwr, faultEffects_pwr]) rfl
  unfold faults
  dsimp only
  split
  · exact ((rolloutPast_pwr ..).trans (checkServed_pwr ..)).trans h
  · exact h

theorem domainFault_changes {n cause : Nat} {s : State} (hd : hasDomain s.part n = true) (ho : (domain s n).state ≠ dsOff) :
    ChangesDomain n (quarantined (cause % 16) true) s (domainFault n cause s) := by
  have h : domainFault n cause s = if (domain s n).state = dsInit then
      (match ctlOn (faults n (cause % 16) s) n with
        | some e => ctlFinish n 9 e (faults n (cause % 16) s)
        | none => faults n (cause % 16) s)
      else faults n (cause % 16) s := if_neg (by simp [hd, ho])
  rw [h]
  split
  · split
    · exact (ctlFinish_pwr ..).trans (faults_changes ..)
    · exact faults_changes ..
  · exact faults_changes ..

theorem autoRestart_begins {n : Nat} {s : State} (hd : hasDomain s.part n = true) (hs : (domain s n).state = dsQuar)
    (hf : (domain s n).fault = true) (ha : autoOn s n = true) (ht : ∀ t, (domain s n).autoAt = some t → t + 10 ^ 13 ≤ s.now)
    (hc : ctlOn s n = none) (hr : onRefused s n = false) : autoRestart n s
      = cntInc 0x0D82 0 1 (beginInit n 0xFF true (modDomain n (fun d => { d with autoAt := some s.now }) s)) := by
  unfold autoRestart
  dsimp only
  refine if_pos ?_
  split
  next t he =>
    have hdue : decide (t + 10 ^ 13 ≤ s.now) = true := decide_eq_true (ht t he)
    simp only [hd, hs, hf, ha, hc, hr, hdue]
    rfl
  next =>
    simp only [hd, hs, hf, ha, hc, hr]
    rfl

/-! ### The claim -/

/-- A command whose run changes one domain, as the state before it stood. -/
theorem command_changes {s : State} {i : Instr} {g n : Nat} (b : begins s i g) {run : Nat × Nat → State → CmdOut × State}
    {f : Domain → Domain} {u : State} (hr : (run (g, (ring s g).begun) (beginState s i g)).2 = u)
    (hu : ChangesDomain n f (beginState s i g) u) : ChangesDomain n f s (command i run s) :=
  hu.between (beginState_pwr ..) ((command_pwr b run).trans (by rw [hr]))

/-- Settles O16: each row's effect on the domains is one change of the domain it names. -/
theorem powerDomains : Obligations.PowerDomains := by
  refine ⟨fun h n s b hd => ?query, fun h n s b hd hs hr => ?off, fun h n s b hd hs hr => ?on, fun h src n s b hd hs hr hc => ?reinit,
    fun h src n s b hd hs hr hc => ?restart, fun h src n s b hd hs hr hc => ?restartOn, fun n h e s hd hk he hc ha hs hr => ?stop,
    fun n k s hd hk hi => ?pass, fun n s hd hi => ?fail, fun n c s hd ho => ?fault, fun n s hd hs hf ha ht hc hr => ?auto⟩
  case query =>
    have hrun := runCtlQuery_answers (s := beginState s (.domainCtlQuery h) h.ring) (by simpa) (h.ring, (ring s h.ring).begun)
    rw [beginState_ctlWord] at hrun
    exact congrArg Host.Outcome.next (command_done b hrun ((cntInc_raised ..).trans ((beginState_only ..).raised rfl)))
  case off =>
    have hrun := runCtlOff_stops (s := beginState s (.domainCtlOff h) h.ring) (by simpa) (h.ring, (ring s h.ring).begun)
      (by simpa) (by simpa)
    have ht := command_changes b (congrArg Prod.snd hrun) (beginStop_changes ..)
    exact ⟨_, rfl, ht.same, ht.other⟩
  case on =>
    have hrun := runCtlOn_quarantines (s := beginState s (.domainCtlOn h) h.ring) (by simpa) (h.ring, (ring s h.ring).begun)
      (by simpa) (by simpa)
    have ht := command_changes b hrun ((enterQuar_changes ..).between rfl (cntInc_pwr ..))
    exact ⟨_, rfl, by rw [ht.same]; rfl, by rw [ht.same]; rfl, by rw [ht.same]; rfl, ht.other⟩
  case reinit =>
    have hrun := runCtlReinit_begins (s := beginState s (.domainCtlReinit h src) h.ring) (src := src) (by simpa)
      (h.ring, (ring s h.ring).begun) (by simpa) (by simpa) (by simpa)
    have ht := command_changes b (congrArg Prod.snd hrun) rfl
    exact ⟨_, _, rfl, by rw [ht.same], by rw [ht.same], ht.other, (command_goes_quiet b hrun rfl rfl).1, rfl, rfl⟩
  case restart =>
    have hrun := runCtlRestart_stops (s := beginState s (.domainCtlRestart h src) h.ring) (src := src) (by simpa)
      (h.ring, (ring s h.ring).begun) (by simpa) (by simpa) (by simpa)
    have ht := command_changes b (congrArg Prod.snd hrun) (beginStop_changes ..)
    exact ⟨_, rfl, ht.same, ht.other⟩
  case restartOn =>
    have hrun := runCtlRestart_goesOn (s := beginState s (.domainCtlRestart h src) h.ring) (src := src) (by simpa)
      (h.ring, (ring s h.ring).begun) (by simpa) (by simpa) (by simpa)
    have hp := (command_pwr b _).trans ((congrArg (fun x => x.2.pwr) hrun).trans (beginState_pwr ..))
    exact ⟨_, _, rfl, domain_congr hp, (command_goes_quiet b hrun rfl rfl).1, rfl, rfl⟩
  case stop =>
    have ht := domainStopDone_changes hd hk he hc ha hs hr
    exact ⟨_, rfl, by rw [ht.same]; rfl, by rw [ht.same]; rfl, ht.other⟩
  case pass =>
    have ht := domainInitDone_passes hd hi hk
    exact ⟨_, rfl, by rw [ht.same]; rfl, by rw [ht.same]; rfl, ht.other⟩
  case fail =>
    have ht := domainInitDone_fails hd hi
    exact ⟨_, rfl, by rw [ht.same]; rfl, by rw [ht.same]; rfl, by rw [ht.same]; rfl, ht.other⟩
  case fault =>
    have ht := domainFault_changes (cause := c) hd ho
    exact ⟨_, rfl, by rw [ht.same]; rfl, by rw [ht.same]; rfl, by rw [ht.same]; rfl, by rw [ht.same]; rfl, ht.other⟩
  case auto =>
    refine ⟨_, congrArg Host.Outcome.next (autoRestart_begins hd hs hf ha ht hc hr), ?_, ?_, fun j hj => ?_⟩
    all_goals rw [domain_congr (cntInc_pwr ..), beginInit]
    · rw [domain_modDomain]
    · rw [domain_modDomain, domain_modDomain]
    · rw [domain_modDomain_ne hj.symm, domain_modDomain_ne hj.symm]

end Sys2Proof.Proofs
end

section
/-! Egress: selection, transmission, the hold time of copies, received pause and its watchdog, and the audits of the cells (R295,
R296, R301, R303, R315, R327, R328, R330, R331). -/

namespace Sys2Proof.Proofs

open Sys2Proof.Machine Sys2Proof.Laws

/-! ### Queues and launch lists (R327, R330) -/

theorem launch_congr {s t : State} (h : t.egs.launch = s.egs.launch) (p : Nat) : launch t p = launch s p := by
  unfold launch
  rw [h]

theorem egq_congr {s t : State} (h : t.egs.queues = s.egs.queues) (p q : Nat) : egq t p q = egq s p q := by
  unfold egq
  rw [h]

theorem egq_modEgs {f : Egs → Egs} (h : ∀ g, (f g).queues = g.queues) (s : State) (p q : Nat) :
    egq (modEgs f s) p q = egq s p q :=
  egq_congr (h s.egs) p q

theorem launch_modEgs {f : Egs → Egs} (h : ∀ g, (f g).launch = g.launch) (s : State) (p : Nat) :
    launch (modEgs f s) p = launch s p :=
  launch_congr (h s.egs) p

theorem egq_modLaunch (p : Nat) (f : List QEnt → List QEnt) (s : State) (n q : Nat) :
    egq (modLaunch p f s) n q = egq s n q := rfl

theorem launch_modEgq (p q : Nat) (f : List QEnt → List QEnt) (s : State) (n : Nat) :
    launch (modEgq p q f s) n = launch s n := rfl

theorem launch_chargePeak (key c : Nat) (s : State) : (chargePeak key c s).egs.launch = s.egs.launch := by
  unfold chargePeak
  split <;> rfl

theorem launch_ite {b : Bool} {t u : State} (h : t.egs.launch = u.egs.launch) :
    (if b then t else u).egs.launch = u.egs.launch := by
  split
  · exact h
  · rfl

/-- A selection is charged to its entry and to the buckets; the launch lists stay as they are. -/
theorem launch_chargeSelection (p q g : Nat) (h : QEnt) (s : State) :
    (chargeSelection p q g h s).2.egs.launch = s.egs.launch := by
  unfold chargeSelection
  extract_lets _ _ cq cg c s1 s2 s3 vq vg s4
  calc s3.egs.launch = s2.egs.launch := launch_ite rfl
    _ = s1.egs.launch := launch_ite rfl
    _ = s.egs.launch := by simp only [s1, launch_chargePeak]

theorem chargeSelection_ent (p q g : Nat) (h : QEnt) (s : State) :
    (chargeSelection p q g h s).1.pkt = h.pkt ∧ (chargeSelection p q g h s).1.queue = h.queue := ⟨rfl, rfl⟩

/-- Every part but egress. -/
abbrev notEgress : Nat := 2 ^ 34 - 1 - 2 ^ 24

theorem owe_egs (k : Nat) (c : Nat × Nat × Nat × Nat) (s : State) : (owe k c s).egs = s.egs :=
  (owe_keeps (Only.allows notEgress s) rfl k c s (Only.refl _ s)).egs rfl

theorem formQueueTag_launch (p q : Nat) (s : State) (n : Nat) : launch (formQueueTag p q s) n = launch s n := by
  unfold formQueueTag
  extract_lets key
  split
  · rfl
  · extract_lets formed
    clear_value formed
    split
    · rfl
    · split <;> rfl

/-- Forming a queue's tag charges its head: the frames that wait in it stay, in their order. -/
theorem formQueueTag_frames (p q : Nat) (s : State) : (egq (formQueueTag p q s) p q).map (·.pkt) = (egq s p q).map (·.pkt) := by
  unfold formQueueTag
  extract_lets key
  split
  · rfl
  · rename_i h r e
    extract_lets formed
    clear_value formed
    split
    · rfl
    · split
      · rfl
      · dsimp only
        rw [egq_modEgs, egq_modEgq, e]
        · rfl
        · exact fun _ => rfl

theorem schedulerSelect_full {p : Nat} {s : State} (h : 8 ≤ (launch s p).length) : schedulerSelect p s = s := by
  unfold schedulerSelect
  rw [if_pos (.inl h)]

/-- The chosen queue's head is charged, owed a selection unless its frame is confirmed, and moved to the launch list. -/
theorem schedulerSelect_moves {p g q : Nat} {h : QEnt} {r : List QEnt} {s : State} (hl : (launch s p).length < 8)
    (hu : portUp s p = true) (hc : portChoice (formTags p s) p = some (g, q)) (hq : egq (formTags p s) p q = h :: r) :
    ∃ u, u.egs.launch = (formTags p s).egs.launch ∧ schedulerSelect p s = formQueueTag p q
      (modLaunch p (· ++ [(chargeSelection p q g h (formTags p s)).1]) (modEgq p q (fun _ => r) u)) := by
  have hlists := launch_chargeSelection p q g h (formTags p s)
  unfold schedulerSelect
  rw [if_neg (not_or.mpr ⟨Nat.not_le.mpr hl, by simp [hu]⟩)]
  simp only [hc, hq]
  refine ⟨_, ?_, rfl⟩
  split
  · exact hlists
  · rw [owe_egs]
    exact hlists

/-! ### Transmission (R328, R344) -/

theorem timCounts_egs (l : List Nat) (s : State) : (timCounts l s).egs = s.egs :=
  (timCounts_keeps (Only.allows notEgress s) rfl l s (Only.refl _ s)).egs rfl

theorem datapathErr_egs (p : Nat) (s : State) : (datapathErr p s).egs = s.egs :=
  (datapathErr_keeps (Only.allows notEgress s) rfl p s (Only.refl _ s)).egs rfl

theorem launch_sampleStart (p : Nat) (e : QEnt) (s : State) (n : Nat) : launch (sampleStart p e s) n = launch s n := rfl

theorem sending_modEgs (p : Nat) (v : Option Sending) (s : State) :
    mget none (modEgs (fun g => { g with sending := mset none g.sending p v }) s).egs.sending p = v :=
  mget_mset_same none s.egs.sending p v

/-- The entry that may start leaves the launch list, and its edited frame is on its way out. -/
theorem transmitStart_starts {p : Nat} {x : Bool} {e : QEnt} {k : Pkt} {bs : List Byte} {s : State} (hu : portUp s p = true)
    (hs : mget none s.egs.sending p = none) (he : startable s p = some e) (hk : pktOf s e.pkt = some k)
    (hb : (edit (modLaunch p (removeFirst e) s) k k.copy p e.vid (txStamp (modLaunch p (removeFirst e) s) p)
      (compReady (modLaunch p (removeFirst e) s) p)).bytes = some bs) :
    ∃ u d, u.egs = (modLaunch p (removeFirst e) s).egs ∧ d.ent = e ∧ d.bytes = bs ∧ d.stomp = x ∧
      transmitStart p x s = modEgs (fun g => { g with sending := mset none g.sending p (some d) })
        (sampleStart p e (modPkt e.pkt (fun y => { y with started := true }) u)) := by
  unfold transmitStart
  simp only [hu, hs, he, hk, hb]
  refine ⟨_, _, ?_, ?_, ?_, ?_, rfl⟩
  rotate_left
  · rfl
  · rfl
  · rfl
  · split
    · rw [datapathErr_egs, timCounts_egs]
    · rw [timCounts_egs]

theorem injectDone_egs (k : Pkt) (n : Nat) (t : Stamp) (b : Bool) (s : State) : (injectDone k n t b s).egs = s.egs :=
  (injectDone_keeps (Only.allows notEgress s) rfl k n t b s (Only.refl _ s)).egs rfl

/-- The frame that has its check is on the wire with its FCS, inverted when stomped, and then ends. -/
theorem transmitEnd_sends {p : Nat} {d : Sending} {k : Pkt} {s : State} (hd : mget none s.egs.sending p = some d)
    (hk : pktOf s d.ent.pkt = some k) (hc : k.check.isSome = true) :
    ∃ u, u.egs.sending = mset none s.egs.sending p none ∧ u.egs.wire = s.egs.wire ++ [(p, d.bytes ++ leBytes 4
        (if d.stomp || k.stomp then Nat.xor (crcOf 2 d.bytes) 0xFFFFFFFF else crcOf 2 d.bytes), d.stomp || k.stomp)] ∧
      transmitEnd p s = unref d.ent.pkt u := by
  unfold transmitEnd
  simp only [hd, hk, hc]
  have hk' : pktOf (modEgs (fun g => { g with sending := mset none g.sending p none }) s) d.ent.pkt = some k := hk
  simp only [hk']
  refine ⟨_, ?_, ?_, rfl⟩
  all_goals
    simp only [apply_ite State.egs, modPkt_egs, injectDone_egs, cntInc_egs, cntAdd_egs, ite_self]
    rfl

/-! ### The hold time of copies (R240, R316) -/

/-- A frame is taken out of a queue of a port and out of its launch list, and the queue's new head forms its tag. -/
def takenOut (k p q : Nat) (s : State) : State :=
  formQueueTag p q (modLaunch p (·.filter fun a => a.pkt ≠ k) (modEgq p q (·.filter fun a => a.pkt ≠ k) s))

theorem takenOut_gone {k p q : Nat} {s : State} {a : QEnt}
    (ha : a ∈ egq (takenOut k p q s) p q ++ launch (takenOut k p q s) p) : a.pkt ≠ k := by
  unfold takenOut at ha
  rcases List.mem_append.mp ha with h | h
  · have hf := List.mem_map_of_mem (f := (·.pkt)) h
    rw [formQueueTag_frames, egq_modLaunch, egq_modEgq] at hf
    obtain ⟨b, hb, e⟩ := List.mem_map.mp hf
    rw [← e]
    exact of_decide_eq_true (List.mem_filter.mp hb).2
  · rw [formQueueTag_launch, launch_modLaunch] at h
    exact of_decide_eq_true (List.mem_filter.mp h).2

/-- A copy past its hold time is taken out, and each of its entries is dropped. -/
theorem mcastHoldExpiry_late {k p n : Nat} {x : Pkt} {e : QEnt} {s : State} (hx : pktOf s k = some x)
    (he : ((upTo 16).flatMap (egq s p ·) ++ launch s p).find? (fun e => e.pkt = k ∧ e.copy) = some e)
    (hn : eligFrom x e.ct = some n) (h0 : 0 < e.hold) (ht : n + e.hold * 10 ^ 6 ≤ s.now) :
    EgsFrame (takenOut k p e.queue s) (mcastHoldExpiry k p s) := by
  unfold mcastHoldExpiry
  simp only [hx, he, hn, h0, ht]
  exact EgsFrame.each _ _ (fun a t h => h.dropEnt a _) _ (EgsFrame.refl _)

/-! ### Pause (R300, R301) -/

theorem pfcXoffRepeat_due {p q t : Nat} {s : State} (hs : (pauseSt s p q).sent = some t) (hu : portUp s p = true)
    (ha : (pfcProf s p).2.1 < (pauseSt s p q).account)
    (ht : t + 0xFFFF * 512 * 1000 / Nat.max 1 (portRate s p) / 2 ≤ s.now) :
    pfcXoffRepeat p q s = sendXoff p q (modPause p q (fun x => { x with sent := some s.now }) s) := by
  unfold pfcXoffRepeat
  simp only [hs, hu, ha, ht, decide_true, Bool.and_self, if_true]

theorem filter_bit_two_pow : ∀ q < 8, (upTo 8).filter (bit (2 ^ q) ·) = [q] := by
  decide

theorem pfcFrameReceive_one {q : Nat} (h : q < 8) (p : Nat) (l : List Nat) (s : State) :
    pfcFrameReceive p (.pfc (2 ^ q) l) s = pauseOne p q (nth 0 l q % 65536) (pfcCnt p (8 + q) s) := by
  unfold pfcFrameReceive
  dsimp only
  rw [filter_bit_two_pow q h]
  rfl

theorem pauseOne_disabled {p q : Nat} (n : Nat) {s : State} (h : cfgBit s (.bufPortCfg p) q = false) : pauseOne p q n s = s := by
  unfold pauseOne
  rw [h]
  rfl

theorem pauseOne_until {p q : Nat} (n : Nat) {s : State} (h : cfgBit s (.bufPortCfg p) q = true)
    (ht : (pauseSt s p q).tripped = false) : (pauseSt (pauseOne p q n s) p q).until_
      = if n = 0 then none else some (s.now + n * 512 * 1000 / Nat.max 1 (portRate s p)) := by
  unfold pauseOne
  simp only [h, Bool.not_true, Bool.false_eq_true, if_false, pauseSt_modPause]
  rcases Nat.eq_zero_or_pos n with hn | hn
  · simp [hn, ht]
  · simp [hn, Nat.ne_of_gt hn, ht]

theorem pfcPauseExpiry_due {p q t : Nat} {s : State} (hu : (pauseSt s p q).until_ = some t) (ht : t ≤ s.now) :
    pfcPauseExpiry p q s = modPause p q (fun x => { x with until_ := none, heldSince := none }) s := by
  unfold pfcPauseExpiry
  rw [hu]
  exact if_pos ht

/-! ### The watchdog (R303) -/

theorem pfcWatchdogExpiry_trips {p q t : Nat} {s : State} (hc : cfgBit s (.bufPortCfg p) 17 = true)
    (hl : lossless s p q = true) (hp : pausedNow s p q = true) (hq : 0 < queueCells s p q)
    (hh : (pauseSt s p q).heldSince = some t) (ht : t + cfg1 s (.bufWdCfg (dieOfLane p)) 15 0 * 10 ^ 9 ≤ s.now) :
    ∃ v u, EgsFrame (modEgq p q (fun _ => []) v) u ∧
      pfcWatchdogExpiry p q s = raise (bufSrc (dieOfLane p) (16 + p / 8 % 16)) evPfcWdTrip 0 0 0 0 u := by
  unfold pfcWatchdogExpiry
  simp only [hc, hl, hp, hq, hh, ht, decide_true, Bool.and_self, if_true]
  exact ⟨_, _, EgsFrame.each _ _ (fun a t h => h.dropEnt a _) _ (EgsFrame.refl _), rfl⟩

theorem pauseSt_congr {s t : State} (h : t.buf = s.buf) (p q : Nat) : pauseSt t p q = pauseSt s p q := by
  unfold pauseSt
  rw [h]

theorem pfcWatchdogRestore_restores {p q : Nat} {s : State} (ht : (pauseSt s p q).tripped = true)
    (h : (pauseSt s p q).lastXoff + cfg s (.bufWdCfg (dieOfLane p)) 31 16 * 10 ^ 9 ≤ s.now) :
    (pauseSt (pfcWatchdogRestore p q s) p q).tripped = false := by
  unfold pfcWatchdogRestore
  simp only [ht, h, decide_true, Bool.and_self, if_true]
  rw [pauseSt_congr (raise_buf ..), pauseSt_modPause]

/-! ### The audits of the cells (R295, R296) -/

theorem auditStart_due {d : Nat} {s : State} (hd : hasDie s.part d = true) (hc : s.pwr.committed = true)
    (hh : holdAdopted s = true) (ha : mget false s.buf.auditing d = false)
    (ht : ∀ t, mget none s.buf.auditAt d = some t → t + Nat.max 10 (cfg s (.bufAuditCfg d) 15 0) * 10 ^ 9 ≤ s.now) :
    auditStart d s = { s with buf := { s.buf with
      auditAt := mset none s.buf.auditAt d (some s.now)
      auditing := mset false s.buf.auditing d true
      cells := s.buf.cells.map fun c =>
        if cellDie c.1 = d then (c.1, { c.2 with seen := (heldCells s d).contains c.1 }) else c } } := by
  unfold auditStart
  simp only [hd, hc, hh, ha, Bool.not_false, Bool.and_true, Bool.true_and]
  refine if_pos ?_
  split
  · rfl
  · exact decide_eq_true (ht _ ‹_›)

/-- Which dies an audit runs on, and how many leaks the last one of each found. -/
def auditMarks (s : State) : Map Bool × Map Nat := (s.buf.auditing, s.buf.leakedLast)

theorem auditMarks_congr {s t : State} (h : t.buf = s.buf) : auditMarks t = auditMarks s := by
  unfold auditMarks
  rw [h]

/-- A leaked cell is reported and reclaimed: the audit's own state stays. -/
theorem auditMarks_leakCell (d k tag : Nat) (s : State) : auditMarks (leakCell d k tag s) = auditMarks s := by
  unfold leakCell
  extract_lets t
  have h : auditMarks t = auditMarks s := auditMarks_congr (raise_buf ..)
  split
  · exact h
  · exact h

theorem auditMarks_leaks (d : Nat) (l : Map CellRec) (s : State) :
    auditMarks (each l (fun c t => leakCell d c.1 c.2.tag t) s) = auditMarks s :=
  each_keeps (P := fun t => auditMarks t = auditMarks s) l _ (fun c t h => (auditMarks_leakCell d c.1 c.2.tag t).trans h) s rfl

/-- The unseen cells that were suspect before are the leaks an audit counts. -/
theorem auditEnd_marks {d : Nat} {s : State} (h : mget false s.buf.auditing d = true) :
    auditMarks (auditEnd d s) = (mset false s.buf.auditing d false, mset 0 s.buf.leakedLast d
      (Nat.min 8191 (s.buf.cells.filter fun c => decide (cellDie c.1 = d) && !c.2.seen && c.2.suspect).length)) := by
  have e : ((s.buf.cells.filter fun c => decide (cellDie c.1 = d)).filter fun c => !c.2.seen).filter (fun c => c.2.suspect)
      = s.buf.cells.filter fun c => decide (cellDie c.1 = d) && !c.2.seen && c.2.suspect := by
    rw [List.filter_filter, List.filter_filter]
    exact List.filter_congr fun c _ => by simp only [Bool.and_comm, Bool.and_assoc]
  unfold auditEnd
  rw [if_neg (by simp [h])]
  extract_lets mine lost leaked s1 s2 s3
  have h3 : s3.buf = s1.buf := by
    simp only [s3, s2, apply_ite State.buf, raise_buf, cntInc_buf, ite_self]
  rw [auditMarks_leaks, auditMarks_congr h3, ← e]
  rfl

/-! ### The claim -/

/-- Settles O18: each row is its operation, by the branch its clause names; what ends or drops a frame leaves every queue, launch
list and frame on its way out. -/
theorem egressFrames : Obligations.EgressFrames := by
  refine ⟨?select, fun p s h => congrArg _ (schedulerSelect_full h), ?start, ?finish, ?hold,
    fun p q t s hs hu ha ht => congrArg _ (pfcXoffRepeat_due hs hu ha ht),
    fun p q l s h => congrArg _ (pfcFrameReceive_one h p l s),
    fun p q n s h hn ht => (pauseOne_until n h ht).trans (if_neg (Nat.ne_of_gt hn)),
    fun p q s h ht => (pauseOne_until 0 h ht).trans (if_pos rfl), fun p q n s h => pauseOne_disabled n h,
    fun p q t s hu ht => congrArg _ (pfcPauseExpiry_due hu ht), ?trip,
    fun p q s ht h => ⟨_, rfl, pfcWatchdogRestore_restores ht h⟩,
    fun d s hd hc hh ha ht => congrArg _ (auditStart_due hd hc hh ha ht), ?audited⟩
  case select =>
    intro p g q h r s hl hu hc hq
    obtain ⟨u, hlists, e⟩ := schedulerSelect_moves hl hu hc hq
    refine ⟨_, congrArg Host.Outcome.next e, ⟨(chargeSelection p q g h (formTags p s)).1, ?_, chargeSelection_ent ..⟩, ?_⟩
    · rw [formQueueTag_launch, launch_modLaunch, launch_modEgq, launch_congr hlists]
    · rw [formQueueTag_frames, egq_modLaunch, egq_modEgq]
  case start =>
    intro p x e k bs s hu hs he hk hb
    obtain ⟨u, d, hegs, hent, hbytes, hstomp, ht⟩ := transmitStart_starts (x := x) hu hs he hk hb
    refine ⟨_, congrArg Host.Outcome.next ht, ?_, d, ?_, hent, hbytes, hstomp⟩
    · calc launch _ p = launch (sampleStart p e _) p := launch_modEgs (fun _ => rfl) _ p
        _ = launch u p := launch_sampleStart ..
        _ = removeFirst e (launch s p) := (launch_congr (congrArg Egs.launch hegs) p).trans (launch_modLaunch ..)
    · exact sending_modEgs ..
  case finish =>
    intro p d k s hd hk hc
    obtain ⟨u, hsending, hwire, ht⟩ := transmitEnd_sends hd hk hc
    have H := (EgsFrame.refl u).unref d.ent.pkt
    refine ⟨_, congrArg Host.Outcome.next ht, ?_, ?_⟩
    · rw [H.egs]
      exact (congrArg (mget none · p) hsending).trans (mget_mset_same ..)
    · rw [← hwire]
      exact H.wire
  case hold =>
    intro k p x e n s hx he hn h0 ht
    obtain ⟨-, hlaunch, hegq⟩ := (mcastHoldExpiry_late hx he hn h0 ht).reads
    refine ⟨_, rfl, ?_⟩
    rw [hlaunch, hegq]
    exact fun a ha => takenOut_gone ha
  case trip =>
    intro p q t s hc hl hp hq hh ht
    obtain ⟨v, u, H, e⟩ := pfcWatchdogExpiry_trips hc hl hp hq hh ht
    obtain ⟨-, -, hegq⟩ := H.reads
    exact ⟨u, congrArg Host.Outcome.next e, (hegq p q).trans (egq_modEgq ..)⟩
  case audited =>
    intro d s h
    have hauditing : (auditEnd d s).buf.auditing = _ := congrArg Prod.fst (auditEnd_marks h)
    have hleaked : (auditEnd d s).buf.leakedLast = _ := congrArg Prod.snd (auditEnd_marks h)
    refine ⟨_, rfl, ?_, ?_⟩
    · rw [hauditing]
      dsimp only
      exact mget_mset_same ..
    · rw [hleaked]
      dsimp only
      exact mget_mset_same ..

end Sys2Proof.Proofs
end

section
/-! The arbiter's match and its self-checks (R305 to R307). -/

namespace Sys2Proof.Proofs

open Sys2Proof.Machine Sys2Proof.Laws

/-! ### What arrivals leave of the fabric (R302, R305) -/

/-- u differs from s, in the fabric, in the admission counts and the withdrawn classes only. -/
structure AdmitFrame (s u : State) : Prop where
  fab : u.fab = { s.fab with admitted := u.fab.admitted, withdrawn := u.fab.withdrawn }

theorem AdmitFrame.refl (s : State) : AdmitFrame s s := ⟨rfl⟩

theorem AdmitFrame.trans {s u v : State} (H : AdmitFrame s u) (K : AdmitFrame u v) : AdmitFrame s v :=
  ⟨by rw [K.fab, H.fab]⟩

/-- A change that leaves the fabric. -/
theorem AdmitFrame.of {s u v : State} (H : AdmitFrame s u) (h : v.fab = u.fab) : AdmitFrame s v :=
  H.trans ⟨by rw [h]⟩

theorem AdmitFrame.each {A : Type} {s : State} (l : List A) (f : A → State → State)
    (k : ∀ a t, AdmitFrame s t → AdmitFrame s (f a t)) : ∀ u, AdmitFrame s u → AdmitFrame s (each l f u) :=
  each_keeps (P := AdmitFrame s) l f k

theorem AdmitFrame.voq {s u : State} (H : AdmitFrame s u) (i j c : Nat) : voq u i j c = voq s i j c := by
  unfold Machine.voq
  rw [H.fab]

theorem AdmitFrame.reseqOf {s u : State} (H : AdmitFrame s u) (i j : Nat) : reseqOf u i j = reseqOf s i j := by
  unfold Machine.reseqOf
  rw [H.fab]

theorem AdmitFrame.links {s u : State} (H : AdmitFrame s u) : u.fab.links = s.fab.links := by
  rw [H.fab]

theorem AdmitFrame.refreshAdmit {s u : State} (H : AdmitFrame s u) (dst : Nat) : AdmitFrame s (refreshAdmit dst u) := by
  unfold Machine.refreshAdmit
  refine AdmitFrame.each _ _ (fun c t h => ?_) _ H
  extract_lets n k w w'
  clear_value n w'
  exact h.trans ⟨rfl⟩

/-- Every part but the fabric. -/
abbrev notFabric : Nat := 2 ^ 34 - 1 - 2 ^ 23

theorem AdmitFrame.arriveFirst {s u : State} (H : AdmitFrame s u) (src dst : Nat) (e : VoqE) (w : Bool) :
    AdmitFrame s (arriveFirst src dst e w u) := by
  unfold Machine.arriveFirst
  refine (AdmitFrame.each _ _ (fun _ t h => ?_) _ (H.refreshAdmit dst)).refreshAdmit dst
  exact h.of ((enqueue_keeps (Only.allows notFabric t) rfl _ _ _ (Only.refl _ t)).fab rfl)

theorem AdmitFrame.moveCell {s u : State} (H : AdmitFrame s u) (pres tag k : Nat) : AdmitFrame s (moveCell pres tag k u) :=
  H.of ((moveCell_keeps (Only.allows notFabric u) rfl _ _ _ _ (Only.refl _ u)).fab rfl)

/-- The end of a frame's arrival at an egress pipeline. -/
theorem AdmitFrame.arrived {s u : State} (H : AdmitFrame s u) (k dst : Nat) :
    AdmitFrame s (stageFree k (arriveLast k dst u)) :=
  (H.of ((arriveLast_keeps (Only.allows notFabric u) rfl k dst u (Only.refl _ u)).fab rfl)).of
    ((stageFree_keeps (Only.allows notFabric (arriveLast k dst u)) rfl k _ (Only.refl _ _)).fab rfl)

/-! ### A burst that holds its frame whole (R305, R306) -/

theorem voq_modVoq (i j c : Nat) (f : List VoqE → List VoqE) (s : State) : voq (modVoq i j c f s) i j c = f (voq s i j c) :=
  mget_mset_same _ _ _ _

theorem moveBurst_empty {i j c : Nat} {s : State} (h : voq s i j c = []) (fuel n : Nat) : moveBurst i j c fuel n s = s := by
  cases fuel with
  | zero => rfl
  | succ fuel =>
    unfold moveBurst
    rw [h]

/-- What is left of a frame after the cells a burst moves. -/
theorem burst_holds {total sent n : Nat} (h : total ≤ sent + n) : total ≤ sent + Nat.min n (total - sent) := by
  show total ≤ sent + min n (total - sent)
  omega

theorem moveBurst_last {i j c n : Nat} {e : VoqE} {s : State} (hp : pairLink i j = none) (hv : voq s i j c = [e])
    (hk : (pktOf s e.pkt).isSome = true) (hn : n ≠ 0) (ht : pktCells s e.pkt ≤ e.sent + n) (fuel : Nat) :
    voq (moveBurst i j c (fuel + 1) n s) i j c = [] := by
  obtain ⟨x, hx⟩ := Option.isSome_iff_exists.mp hk
  have hd := burst_holds ht
  unfold moveBurst
  simp only [hv, hx, hp, hd, if_neg hn, decide_true, if_true]
  have E : voq (modVoq i j c (fun _ => []) s) i j c = [] := voq_modVoq _ _ _ _ _
  generalize modVoq i j c (fun _ => []) s = u at E
  rw [moveBurst_empty]
  all_goals
    rw [AdmitFrame.voq (s := u), E]
    refine AdmitFrame.arrived (AdmitFrame.each _ _ (fun a t h => ?_) _ ?_) _ _
    · split
      · exact ite_keeps h (h.moveCell _ _ _)
      · exact h
    · exact ite_keeps ((AdmitFrame.refl u).arriveFirst _ _ _ _) (AdmitFrame.refl u)

/-! ### One slot (R306, R307) -/

theorem arbiterMatch_differ {s : State} (hk : s.fab.checking = false) (hc : s.fab.compare = true) :
    arbiterMatch true s = raise 0x100 evFabArbMismatch 0 0 0 0
      (modFab (fun f => { f with checking := true }) (cntInc 0x0882 0 1 (cntInc 0x0882 0 0 s))) := by
  unfold arbiterMatch
  rw [if_neg (by simp [hk]), if_pos (by simp [hc])]

theorem arbiterMatch_checking (d : Bool) {s : State} (h : s.fab.checking = true) : arbiterMatch d s = s := by
  unfold arbiterMatch
  rw [if_pos h]

/-- The copy whose match counts. -/
abbrev matchCopy (s : State) : Nat := b2n (!s.fab.compare && s.fab.active)

theorem arbiterMatch_onePair {i j : Nat} {s u : State} (hk : s.fab.checking = false)
    (hu : each (pipelines s.part) refreshAdmit s = u) (hw : u.fab.withdrawn = [])
    (h1 : matchRound u (matchCopy u) [] = [(i, j)]) (h2 : matchRound u (matchCopy u) [(i, j)] = []) :
    arbiterMatch false s = movePair i j (spinOn [(i, j)] u) := by
  unfold arbiterMatch
  rw [if_neg (by simp [hk]), if_neg (by simp)]
  simp only [hu, hw, h1, h2, List.filter_nil, if_true, List.append_nil]
  rfl

/-- Moving the spinners leaves the queues and the frames. -/
theorem spinOn_queues (m : List (Nat × Nat)) (s : State) :
    (spinOn m s).fab.voq = s.fab.voq ∧ (spinOn m s).pkts = s.pkts := by
  refine each_keeps (P := fun t => t.fab.voq = s.fab.voq ∧ t.pkts = s.pkts) _ _ (fun c t h => ?_) s ⟨rfl, rfl⟩
  refine each_keeps (P := fun t => t.fab.voq = s.fab.voq ∧ t.pkts = s.pkts) _ _ (fun a u hu => ?_) t h
  exact hu

theorem voq_congr {s t : State} (h : t.fab.voq = s.fab.voq) (i j c : Nat) : voq t i j c = voq s i j c := by
  unfold voq
  rw [h]

theorem pktOf_congr {s t : State} (h : t.pkts = s.pkts) (k : Nat) : pktOf t k = pktOf s k := by
  unfold pktOf
  rw [h]

theorem pktCells_congr {s t : State} (h : t.pkts = s.pkts) (k : Nat) : pktCells t k = pktCells s k := by
  unfold pktCells
  rw [pktOf_congr h]

theorem movePair_last {i j c : Nat} {e : VoqE} {s : State} (hp : pairLink i j = none) (hn : nextClass s i j = some c)
    (hv : voq s i j c = [e]) (hk : (pktOf s e.pkt).isSome = true) (ht : pktCells s e.pkt ≤ e.sent + 8) :
    voq (movePair i j s) i j c = [] := by
  unfold movePair
  rw [hn]
  refine moveBurst_last (e := e) hp ?_ ?_ (by decide) ?_ _
  · exact hv
  · exact hk
  · exact ht

/-! ### A round matches no pipeline twice (R306) -/

theorem mem_of_spin {l : List Nat} {p i : Nat} (h : spin l p = some i) : i ∈ l := by
  unfold spin at h
  split at h
  · cases h
    exact List.mem_of_find?_eq_some ‹_›
  · exact List.mem_of_mem_head? h

/-- Each source accepts for itself, and each destination grants to one source. -/
theorem matchRound_nodup (s : State) (c : Nat) (pairs : List (Nat × Nat)) :
    ((matchRound s c pairs).map (·.1)).Nodup ∧ ((matchRound s c pairs).map (·.2)).Nodup := by
  unfold matchRound
  extract_lets ps srcs dsts grants
  have hsrcs : srcs.Nodup := ((pipelines_nodup s.part).filter _).filter _
  have hgrants {i i' j : Nat} (h : (i, j) ∈ grants) (h' : (i', j) ∈ grants) : i = i' := by
    simp only [grants, List.mem_filterMap, Option.map_eq_some_iff, Prod.mk.injEq] at h h'
    obtain ⟨k, -, a, ha, rfl, rfl⟩ := h
    obtain ⟨k', -, a', ha', rfl, rfl⟩ := h'
    exact Option.some.inj (ha.symm.trans ha')
  simp only [List.map_filterMap, Option.map_map]
  constructor
  · refine hsrcs.filterMap fun a a' b h h' => ?_
    simp only [Option.mem_def, Option.map_eq_some_iff, Function.comp_apply] at h h'
    obtain ⟨_, -, rfl⟩ := h
    obtain ⟨_, -, e⟩ := h'
    exact e.symm
  · refine hsrcs.filterMap fun a a' b h h' => ?_
    have accepted {a : Nat} (h : spin ((grants.filter fun g => g.1 = a).map (·.2)) (mget 0 s.fab.accept (16 * c + a)) = some b) :
        (a, b) ∈ grants := by
      obtain ⟨g, hg, rfl⟩ := List.mem_map.mp (mem_of_spin h)
      obtain ⟨hm, he⟩ := List.mem_filter.mp hg
      rw [← of_decide_eq_true he]
      exact hm
    simp only [Option.mem_def, Option.map_eq_some_iff, Function.comp_apply, exists_eq_right] at h h'
    exact hgrants (accepted h) (accepted h')

/-! ### Self-checks (R307) -/

/-- Copying the pointers leaves the rest of the fabric. -/
theorem loadPointers_fab (a b : Nat) (s : State) : (loadPointers a b s).fab
    = { s.fab with grant := (loadPointers a b s).fab.grant, accept := (loadPointers a b s).fab.accept } :=
  each_keeps (P := fun t => t.fab = { s.fab with grant := t.fab.grant, accept := t.fab.accept }) (upTo 16) _
    (fun i t h => by
      unfold modFab
      dsimp only
      rw [h]) s rfl

/-- A map whose entries 0 to 15 are copied one by one to 16 to 31. -/
theorem each_copies (g : State → Map Nat) (f : Nat → State → State)
    (hf : ∀ i t, g (f i t) = mset 0 (g t) (16 + i) (mget 0 (g t) i)) (s : State) (n : Nat) (hn : n ≤ 16) :
    (∀ i, i < 16 → mget 0 (g (each (upTo n) f s)) i = mget 0 (g s) i)
      ∧ ∀ i, i < n → mget 0 (g (each (upTo n) f s)) (16 + i) = mget 0 (g s) i := by
  induction n with
  | zero => exact ⟨fun _ _ => rfl, fun _ h => absurd h (Nat.not_lt_zero _)⟩
  | succ n ih =>
    obtain ⟨low, high⟩ := ih (Nat.le_of_succ_le hn)
    have e : each (upTo (n + 1)) f s = f n (each (upTo n) f s) := by
      unfold each upTo
      rw [List.range_succ, List.foldl_append]
      rfl
    rw [e, hf]
    refine ⟨fun i hi => (mget_mset_ne _ _ (by omega) _).trans (low i hi), fun i hi => ?_⟩
    rcases Nat.lt_succ_iff_lt_or_eq.mp hi with h | rfl
    · exact (mget_mset_ne _ _ (by omega) _).trans (high i h)
    · exact (mget_mset_same ..).trans (low i hn)

theorem loadPointers_copied (s : State) (i : Nat) (hi : i < 16) :
    mget 0 (loadPointers 0 1 s).fab.grant (16 + i) = mget 0 s.fab.grant i
      ∧ mget 0 (loadPointers 0 1 s).fab.accept (16 + i) = mget 0 s.fab.accept i := by
  constructor
  · exact (each_copies (·.fab.grant) _ (fun j t => by simp [modFab]) s 16 (Nat.le_refl _)).2 i hi
  · exact (each_copies (·.fab.accept) _ (fun j t => by simp [modFab]) s 16 (Nat.le_refl _)).2 i hi

theorem selfCheckEnd_pass {s : State} (h : s.fab.checking = true) :
    selfCheckEnd true true s = loadPointers 0 1 (modFab (fun f => { f with compare := true })
      (modFab (fun f => { f with checking := false, q0ok := true, q2ok := true, checkAt := s.now }) s)) := by
  unfold selfCheckEnd
  simp [h]

theorem selfCheckEnd_fail {a b : Bool} {s : State} (h : s.fab.checking = true) (hab : (a && b) = false) :
    (selfCheckEnd a b s).fab
      = { s.fab with checking := false, q0ok := a, q2ok := b, checkAt := s.now, compare := false, active := !a && b } := by
  unfold selfCheckEnd
  simp only [h, hab, Bool.not_true, Bool.false_eq_true, if_false, raiseSev_fab]
  rfl

/-- Q2, the only copy that failed, passes: it loads the pointers of the active one, and comparison resumes. -/
theorem failedCopyCheck_q2 {s : State} (hk : s.fab.checking = false) (h0 : s.fab.q0ok = true) (h2 : s.fab.q2ok = false)
    (ht : s.fab.checkAt + 10 ^ 12 ≤ s.now) :
    (failedCopyCheck true s).fab.q2ok = true ∧ (failedCopyCheck true s).fab.compare = true := by
  unfold failedCopyCheck
  rw [if_neg (by simp [hk, h2]; omega)]
  extract_lets s1 two s2 a
  have htwo : two = true := by
    show (!s.fab.q2ok && (!s.fab.active || s.fab.q0ok)) = true
    simp [h0, h2]
  have hf : s2.fab = { s1.fab with q2ok := true } := if_pos htwo
  have h0' : s2.fab.q0ok = true := (congrArg Fab.q0ok hf).trans h0
  have h2' : s2.fab.q2ok = true := congrArg Fab.q2ok hf
  clear_value s2 a
  rw [if_neg (by simp), if_neg (by simp [h0', h2'])]
  have hp := loadPointers_fab a (1 - a) s2
  generalize loadPointers a (1 - a) s2 = u at hp
  exact ⟨(congrArg Fab.q2ok hp).trans h2', rfl⟩

theorem failedCopyCheck_fail {s : State} (hk : s.fab.checking = false) (h0 : s.fab.q0ok = false)
    (ht : s.fab.checkAt + 10 ^ 12 ≤ s.now) :
    failedCopyCheck false s = modFab (fun f => { f with checkAt := s.now }) (cntInc 0x0882 0 1 s) := by
  unfold failedCopyCheck
  rw [if_neg (by simp [hk, h0]; omega)]
  rfl

end Sys2Proof.Proofs
end

section
/-! Die links, their lanes and the resequencers (R308 to R312), and the claim about them and the arbiter. -/

namespace Sys2Proof.Proofs

open Sys2Proof.Machine Sys2Proof.Laws

/-! ### One direction of a link -/

theorem linkDir_modDir (x : Nat) (f : Bool) (g : LinkDir → LinkDir) (s : State) :
    linkDir (modDir x f g s) x f = g (linkDir s x f) := by
  unfold linkDir modDir
  cases f <;> simp

theorem linkDir_modDir_back (x : Nat) (f : Bool) (g : LinkDir → LinkDir) (s : State) :
    linkDir (modDir x f g s) x (!f) = linkDir s x (!f) := by
  unfold linkDir modDir
  cases f <;> simp

theorem dieLink_congr {s t : State} (h : t.fab.links = s.fab.links) (x : Nat) : dieLink t x = dieLink s x := by
  unfold dieLink
  rw [h]

theorem linkDir_congr {s t : State} (h : t.fab.links = s.fab.links) (x : Nat) (f : Bool) : linkDir t x f = linkDir s x f := by
  unfold linkDir
  rw [dieLink_congr h]

theorem laneOk_modDir (x : Nat) (f : Bool) (g : LinkDir → LinkDir) (s : State) :
    (dieLink (modDir x f g s) x).laneOk = (dieLink s x).laneOk := by
  unfold modDir
  rw [dieLink_modDieLink]
  cases f <;> rfl

theorem nextLane_congr {a b : DieLink} (h : a.laneOk = b.laneOk) (n : Nat) : nextLane a n = nextLane b n := by
  unfold nextLane workingLanes
  rw [h]

/-! ### Resequencing (R311, R312) -/

theorem AdmitFrame.releaseCell {s u : State} (H : AdmitFrame s u) (c : LinkCell) : AdmitFrame s (releaseCell c u) := by
  unfold Machine.releaseCell
  split
  · exact H
  · extract_lets v w
    have hv : AdmitFrame s v := ite_keeps (H.arriveFirst ..) H
    clear_value v
    have hw : AdmitFrame s w := by
      unfold w
      split
      · exact hv.moveCell ..
      · exact hv
    exact ite_keeps (hw.arrived ..) hw

theorem reseqOf_congr {s t : State} (h : t.fab = s.fab) (i j : Nat) : reseqOf t i j = reseqOf s i j := by
  unfold reseqOf
  rw [h]

theorem reseqOf_modReseq (i j : Nat) (f : Reseq → Reseq) (s : State) : reseqOf (modReseq i j f s) i j = f (reseqOf s i j) :=
  mget_mset_same ..

/-- Releasing held cells in order leaves the links, and holds no cell that was not held. -/
theorem releaseRun_held (i j n : Nat) (s : State) : (releaseRun i j n s).fab.links = s.fab.links
    ∧ (reseqOf (releaseRun i j n s) i j).held ⊆ (reseqOf s i j).held := by
  induction n generalizing s with
  | zero => exact ⟨rfl, List.Subset.refl _⟩
  | succ n ih =>
    unfold releaseRun
    dsimp only
    split
    · exact ⟨rfl, List.Subset.refl _⟩
    · rename_i c _
      have H := (AdmitFrame.refl (modReseq i j (fun r => { r with
        e := (r.e + 1) % 65536, held := r.held.filter fun y => y.seq ≠ c.seq }) s)).releaseCell c
      obtain ⟨hl, hh⟩ := ih (releaseCell c (modReseq i j (fun r => { r with
        e := (r.e + 1) % 65536, held := r.held.filter fun y => y.seq ≠ c.seq }) s))
      rw [H.reseqOf, reseqOf_modReseq] at hh
      exact ⟨hl.trans H.links, List.Subset.trans hh fun _ h => (List.mem_filter.mp h).1⟩

theorem gapTimer_held (i j : Nat) (s : State) : (gapTimer i j s).fab.links = s.fab.links
    ∧ (reseqOf (gapTimer i j s) i j).held = (reseqOf s i j).held := by
  unfold gapTimer
  rw [reseqOf_modReseq]
  exact ⟨rfl, rfl⟩

theorem freeLinkCell_fab (c : LinkCell) (s : State) : (freeLinkCell c s).fab = s.fab :=
  (freeLinkCell_keeps (Only.allows notFabric s) rfl c s (Only.refl _ s)).fab rfl

theorem loseFrame_fab (e : VoqE) (s : State) : (loseFrame e s).fab = s.fab :=
  (loseFrame_keeps (Only.allows notFabric s) rfl e s (Only.refl _ s)).fab rfl

theorem each_freeLinkCell_fab (l : List LinkCell) (s : State) : (each l freeLinkCell s).fab = s.fab :=
  each_keeps (P := fun t => t.fab = s.fab) l _ (fun c t h => (freeLinkCell_fab c t).trans h) s rfl

theorem each_loseFrame_fab (l : List VoqE) (o d n : Nat) (s : State) :
    (each l (fun e t => loseFrame e (cntInc o d n t)) s).fab = s.fab := by
  refine each_keeps (P := fun t => t.fab = s.fab) l _ (fun e t h => ?_) s rfl
  exact (loseFrame_fab e _).trans h

/-- A cell that reaches its resequencer changes nothing of the links. -/
theorem reseqCell_links (c : LinkCell) (s : State) : (reseqCell c s).fab.links = s.fab.links := by
  unfold reseqCell
  dsimp only
  split
  · rw [freeLinkCell_fab]
    rfl
  · split
    · rw [(gapTimer_held ..).1, (releaseRun_held ..).1, ((AdmitFrame.refl _).releaseCell c).links]
      split <;> rfl
    · rfl

theorem mem_foldl_min (l : List Nat) (a : Nat) : l.foldl Nat.min a ∈ a :: l := by
  induction l generalizing a with
  | nil => exact List.mem_cons_self
  | cons b r ih =>
    rcases List.mem_cons.mp (ih (Nat.min a b)) with h | h
    · rw [List.foldl_cons, h]
      rcases Nat.le_total a b with m | m
      · rw [show Nat.min a b = a from Nat.min_eq_left m]
        exact List.mem_cons_self
      · rw [show Nat.min a b = b from Nat.min_eq_right m]
        exact List.mem_cons_of_mem _ List.mem_cons_self
    · exact List.mem_cons_of_mem _ (List.mem_cons_of_mem _ h)

theorem minL_mem {l : List Nat} (h : l ≠ []) : minL l ∈ l := by
  cases l with
  | nil => exact absurd rfl h
  | cons a r => exact mem_foldl_min r a

/-- Where the next frame begins, past the gap: its first cell's distance, else one past every held cell. -/
def gapNext (r : Reseq) : Nat :=
  let ahead (c : LinkCell) : Nat := seqAhead r.e c.seq
  let starts := (r.held.filter (·.first)).map ahead
  if starts = [] then (r.held.map ahead).foldl Nat.max 0 + 1 else minL starts

/-- Where a first cell is held, the next frame begins at one. -/
theorem gapNext_first {r : Reseq} (h : ∃ b ∈ r.held, b.first = true) :
    ∃ b ∈ r.held, b.first = true ∧ seqAhead r.e b.seq = gapNext r := by
  obtain ⟨a, ha, hf⟩ := h
  have hs : (r.held.filter (·.first)).map (fun c => seqAhead r.e c.seq) ≠ [] :=
    List.ne_nil_of_mem (List.mem_map_of_mem (List.mem_filter.mpr ⟨ha, hf⟩))
  obtain ⟨b, hb, e⟩ := List.mem_map.mp (minL_mem hs)
  obtain ⟨hm, hbf⟩ := List.mem_filter.mp hb
  exact ⟨b, hm, hbf, e.trans (if_neg hs).symm⟩

/-- At the end of the gap's time no held cell before the next frame's first stays. -/
theorem reseqGapTimeout_held {i j a : Nat} {s : State} (hg : (reseqOf s i j).gap = some a)
    (ht : a + cfg1 s .fabReseqCfg 7 0 * 10 ^ 6 ≤ s.now) (hh : (reseqOf s i j).held ≠ []) :
    (reseqOf (reseqGapTimeout i j s) i j).held ⊆ (reseqOf s i j).held.filter
      fun c => gapNext (reseqOf s i j) ≤ seqAhead (reseqOf s i j).e c.seq := by
  unfold reseqGapTimeout
  simp only [hg]
  rw [if_neg (by simp [hh]; omega)]
  rw [(gapTimer_held ..).2]
  refine List.Subset.trans (releaseRun_held ..).2 ?_
  rw [reseqOf_congr (each_loseFrame_fab ..), reseqOf_congr (each_freeLinkCell_fab ..), reseqOf_modReseq,
    reseqOf_congr ((raise_fab ..).trans (cntInc_fab ..))]
  exact List.Subset.refl _

/-! ### Cells received (R309) -/

/-- A cell that arrived is on the wire no more. -/
def offWire (x : Nat) (f : Bool) (n : Nat) (s : State) : State :=
  modDir x f (fun d => { d with unacked := d.unacked.map fun y => if y.lseq = n then { y with wire := false } else y }) s

theorem linkCellReceive_damaged {x l : Nat} {f : Bool} {c : LinkCell} {s : State} (hw : wireCell s x f l = some c) :
    linkCellReceive x f l false s = cntInc 0x0882 (dirDst x f) 2 (modDir x f
      (fun d => { d with naks := d.naks ++ [c.lseq], errs := mset 0 d.errs l (mget 0 d.errs l + 1) })
      (offWire x f c.lseq s)) := by
  unfold linkCellReceive
  simp only [hw]
  rfl

/-- An intact cell not accepted before, of a frame that is lost, is counted and goes on to its resequencer. -/
theorem linkCellReceive_lost {x l : Nat} {f : Bool} {c : LinkCell} {s : State} (hw : wireCell s x f l = some c)
    (hp : pktOf s c.ent.pkt = none) (hg : wrapGe 32 c.lseq (linkDir s x f).got = true)
    (ha : (linkDir s x f).ahead.contains c.lseq = false) :
    linkCellReceive x f l true s
      = reseqCell c (cntInc 0x0882 (dirDst x f) 10 (modDir x f (acceptSeq · c.lseq) (offWire x f c.lseq s))) := by
  unfold linkCellReceive
  simp only [hw, hp, hg, ha, Bool.not_true, Bool.or_self, Bool.false_eq_true, if_false, Option.isNone_none, Bool.or_true, if_true]
  rfl

/-- The number a receiver has reached does not depend on the cells its sender keeps. -/
theorem acceptSeq_got_unacked (d : LinkDir) (l : List LinkCell) (n : Nat) :
    (acceptSeq { d with unacked := l } n).got = (acceptSeq d n).got := rfl

/-! ### Acknowledgements and resends (R309) -/

theorem freeAcked_fab (x : Nat) (c : LinkCell) (s : State) : (freeAcked x c s).fab = s.fab :=
  (freeAcked_keeps (Only.allows notFabric s) rfl x c s (Only.refl _ s)).fab rfl

theorem each_freeAcked_fab (x : Nat) (l : List LinkCell) (s : State) : (each l (freeAcked x) s).fab = s.fab :=
  each_keeps (P := fun t => t.fab = s.fab) l _ (fun c t h => (freeAcked_fab x c t).trans h) s rfl

theorem linkAck_covers {x v : Nat} {f : Bool} {r : List Nat} {s : State} (h : (linkDir s x f).acks = v :: r) :
    linkDir (linkAck x f s) x f
      = { linkDir s x f with acks := r, unacked := (linkDir s x f).unacked.filter fun c => !wrapGe 32 v c.lseq } := by
  unfold linkAck
  simp only [h]
  rw [linkDir_congr (congrArg Fab.links (each_freeAcked_fab ..)), linkDir_modDir]

/-- A cell as it is sent again: on the next lane, with a new lcrc. -/
def resent (s : State) (x : Nat) (f : Bool) (c y : LinkCell) : LinkCell :=
  sealCell s { y with lane := nextLane (dieLink s x) c.lane, wire := true, at_ := s.now
                      ack := ((linkDir s x (!f)).got + 2 ^ 32 - 1) % 2 ^ 32 }

theorem resend_found {x v : Nat} {f : Bool} {c : LinkCell} {s : State}
    (h : (linkDir s x f).unacked.find? (fun c => c.lseq = v) = some c) :
    resend x f v s = cntInc 0x0882 (dirSrc x f) 3 (modDir x f (fun d => { d with
      unacked := d.unacked.map fun y => if y.lseq = v then resent s x f c y else y }) s) := by
  unfold resend
  rw [h]
  rfl

theorem resent_modDir (x : Nat) (f : Bool) (g : LinkDir → LinkDir) (c y : LinkCell) (s : State) :
    resent (modDir x f g s) x f c y = resent s x f c y := by
  unfold resent
  rw [nextLane_congr (laneOk_modDir x f g s), linkDir_modDir_back]
  rfl

theorem linkNak_resends {x v : Nat} {f : Bool} {r : List Nat} {c : LinkCell} {s : State} (h : (linkDir s x f).naks = v :: r)
    (hc : (linkDir s x f).unacked.find? (fun c => c.lseq = v) = some c) :
    linkDir (linkNak x f s) x f = { linkDir s x f with
      naks := r, unacked := (linkDir s x f).unacked.map fun y => if y.lseq = v then resent s x f c y else y } := by
  unfold linkNak
  simp only [h]
  rw [resend_found (c := c) (by rw [linkDir_modDir]; exact hc), linkDir_congr (congrArg Fab.links (cntInc_fab ..)),
    linkDir_modDir, linkDir_modDir]
  simp only [resent_modDir]

theorem linkResend_due {x : Nat} {f : Bool} {c : LinkCell} {s : State}
    (h : (linkDir s x f).unacked.find? (fun c => decide (c.at_ + 200000 ≤ s.now)) = some c) :
    linkResend x f s = resend x f c.lseq s := by
  unfold linkResend
  rw [h]

/-! ### Lanes (R310) -/

/-- A link's working lanes and the error counts of its lanes. -/
def laneMarks (s : State) (x : Nat) : Nat × Map Nat × Map Nat :=
  ((dieLink s x).laneOk, (dieLink s x).fwd.errs, (dieLink s x).bwd.errs)

theorem laneMarks_congr {s t : State} (h : t.fab.links = s.fab.links) (x : Nat) : laneMarks t x = laneMarks s x := by
  unfold laneMarks
  rw [dieLink_congr h]

theorem laneMarks_resend (x v : Nat) (f : Bool) (s : State) : laneMarks (resend x f v s) x = laneMarks s x := by
  unfold resend
  split
  · rfl
  · extract_lets lane t
    have h : laneMarks t x = laneMarks s x := by
      unfold laneMarks t modDir
      rw [dieLink_modDieLink]
      cases f <;> rfl
    exact h

theorem laneMarks_nextInterval (x l : Nat) (s : State) : laneMarks (nextInterval x l s) x
    = ((dieLink s x).laneOk, mset 0 (dieLink s x).fwd.errs l 0, mset 0 (dieLink s x).bwd.errs l 0) := by
  unfold laneMarks nextInterval modDir
  simp only [dieLink_modDieLink, if_true, Bool.false_eq_true, if_false]

theorem checkAlign_fab (s : State) : (checkAlign s).fab = s.fab :=
  (checkAlign_keeps (Only.allows notFabric s) rfl s (Only.refl _ s)).fab rfl

theorem bit_sub_two_pow {n l : Nat} (h : bit n l = true) : bit (n - 2 ^ l) l = false := by
  unfold bit at *
  rw [Nat.testBit_eq_decide_div_mod_eq] at *
  have hd : n / 2 ^ l % 2 = 1 := of_decide_eq_true h
  have e : (n - 2 ^ l * 1) / 2 ^ l = n / 2 ^ l - 1 := Nat.sub_mul_div ..
  rw [Nat.mul_one] at e
  rw [e]
  exact decide_eq_false (by omega)

/-- The retired lane works no more; the error counts stay. -/
theorem laneMarks_retireLane {x l : Nat} {s : State} (h : bit (dieLink s x).laneOk l = true) :
    laneMarks (retireLane x l s) x = ((dieLink s x).laneOk - 2 ^ l, (dieLink s x).fwd.errs, (dieLink s x).bwd.errs) := by
  unfold retireLane
  extract_lets k spare s1 s2 s3
  have h1 : laneMarks s1 x = ((dieLink s x).laneOk - 2 ^ l, (dieLink s x).fwd.errs, (dieLink s x).bwd.errs) := by
    simp only [laneMarks, s1, dieLink_modDieLink, h, if_true]
  have h3 : laneMarks s3 x = laneMarks s1 x :=
    each_keeps (P := fun t => laneMarks t x = laneMarks s1 x) _ _ (fun f t ht =>
      each_keeps (P := fun t => laneMarks t x = laneMarks s1 x) _ _
        (fun q u hu => (laneMarks_resend x q f u).trans hu) t ht) s2 rfl
  rw [← h1, ← h3]
  split
  · exact laneMarks_congr (congrArg Fab.links ((checkAlign_fab _).trans (raise_fab ..))) x
  · exact laneMarks_congr (congrArg Fab.links (raise_fab ..)) x

/-- A lane that works has more errors in this interval than its limit. -/
def laneOver (s : State) (x l : Nat) : Prop :=
  cfg s (.fabDlCfg x) 15 0 < Nat.max (mget 0 (dieLink s x).fwd.errs l) (mget 0 (dieLink s x).bwd.errs l)
    ∧ bit (dieLink s x).laneOk l = true

theorem laneErrorInterval_over {x l : Nat} {s : State} (h : laneOver s x l) : laneMarks (laneErrorInterval x l s) x
    = ((dieLink s x).laneOk - 2 ^ l, mset 0 (dieLink s x).fwd.errs l 0, mset 0 (dieLink s x).bwd.errs l 0) := by
  have hn := laneMarks_nextInterval x l s
  simp only [laneMarks, Prod.mk.injEq] at hn
  obtain ⟨hok, hfwd, hbwd⟩ := hn
  have e : laneErrorInterval x l s = retireLane x l (nextInterval x l s) := if_pos h
  rw [e, laneMarks_retireLane (by rw [hok]; exact h.2), hok, hfwd, hbwd]

theorem cleared_of_laneMarks {x l n : Nat} {a b : Map Nat} {s : State} (h : laneMarks s x = (n, mset 0 a l 0, mset 0 b l 0)) :
    (dieLink s x).laneOk = n ∧ mget 0 (dieLink s x).fwd.errs l = 0 ∧ mget 0 (dieLink s x).bwd.errs l = 0 := by
  simp only [laneMarks, Prod.mk.injEq] at h
  obtain ⟨hok, hfwd, hbwd⟩ := h
  rw [hfwd, hbwd]
  exact ⟨hok, mget_mset_same .., mget_mset_same ..⟩

theorem laneErrorInterval_ended {x l : Nat} {s : State} (h : ¬laneOver s x l)
    (ht : mget 0 (dieLink s x).fwd.since l + 10 ^ 9 ≤ s.now) : laneErrorInterval x l s = nextInterval x l s :=
  (if_neg h).trans (if_pos ht)

theorem laneErrorInterval_early {x l : Nat} {s : State} (h : ¬laneOver s x l)
    (ht : ¬mget 0 (dieLink s x).fwd.since l + 10 ^ 9 ≤ s.now) : laneErrorInterval x l s = s :=
  (if_neg h).trans (if_neg ht)

/-! ### The claim -/

/-- Settles O19: each row is its operation, by the branch its clause names; what arrives, is freed or is lost leaves the links,
and the queues and resequencers but for what its row takes from them. -/
theorem fabricArbitersAndLinks : Obligations.FabricArbitersAndLinks := by
  refine ⟨fun s hk hc => congrArg _ (arbiterMatch_differ hk hc), fun d s h => congrArg _ (arbiterMatch_checking d h), ?onePair,
    fun s c => matchRound_nodup s c [], ?passed, ?failed,
    fun s hk h0 h2 ht => ⟨_, rfl, failedCopyCheck_q2 hk h0 h2 ht⟩,
    fun s hk h0 ht => congrArg _ (failedCopyCheck_fail hk h0 ht), ?damaged, ?intact, ?ack, ?nak,
    fun x f c s h => congrArg _ (linkResend_due h), ?lane, ?gap⟩
  case onePair =>
    intro i j c e s hk _ _ _ hw hp h1 h2 hn hv hs ht
    obtain ⟨u, hu⟩ : ∃ u, each (pipelines s.part) refreshAdmit s = u := ⟨_, rfl⟩
    have H : AdmitFrame s u := hu ▸ AdmitFrame.each _ _ (fun d t h => h.refreshAdmit d) _ (AdmitFrame.refl s)
    have hpkts : u.pkts = s.pkts := hu ▸ (each_keeps (P := Only 8388608 s) _ _
      (fun d t h => refreshAdmit_keeps (Only.allows _ s) rfl d t h) _ (Only.refl _ s)).pkts rfl
    rw [hu] at hw h1 h2 hn
    obtain ⟨qv, qp⟩ := spinOn_queues [(i, j)] u
    refine ⟨_, congrArg Host.Outcome.next (arbiterMatch_onePair hk hu hw h1 h2), movePair_last (e := e) hp hn ?_ ?_ ?_⟩
    · rw [voq_congr qv, H.voq, hv]
    · rw [pktOf_congr (qp.trans hpkts), hs]
    · rw [pktCells_congr (qp.trans hpkts)]
      exact ht
  case passed =>
    intro s h
    refine ⟨_, congrArg Host.Outcome.next (selfCheckEnd_pass h), ?_, ?_, fun i hi => loadPointers_copied _ i hi⟩
    · rw [loadPointers_fab]
      rfl
    · rw [loadPointers_fab]
      rfl
  case failed =>
    intro a b s h hab
    have e := selfCheckEnd_fail h hab
    exact ⟨_, rfl, congrArg Fab.checking e, congrArg Fab.compare e, congrArg Fab.active e⟩
  case damaged =>
    intro x f l c s hw
    refine ⟨_, congrArg Host.Outcome.next (linkCellReceive_damaged hw), ?_⟩
    rw [linkDir_congr (congrArg Fab.links (cntInc_fab ..)), linkDir_modDir, offWire, linkDir_modDir]
    dsimp only
    exact ⟨rfl, mget_mset_same .., rfl⟩
  case intact =>
    intro x f l c s hw hp hg ha
    refine ⟨_, congrArg Host.Outcome.next (linkCellReceive_lost hw hp hg ha), ?_⟩
    rw [linkDir_congr (reseqCell_links ..), linkDir_congr (congrArg Fab.links (cntInc_fab ..)), linkDir_modDir, offWire,
      linkDir_modDir, acceptSeq_got_unacked]
  case ack =>
    intro x f v r s h
    have e := linkAck_covers h
    exact ⟨_, rfl, congrArg LinkDir.acks e, congrArg LinkDir.unacked e⟩
  case nak =>
    intro x f v r c s h hc
    have e := linkNak_resends h hc
    exact ⟨_, rfl, congrArg LinkDir.naks e, congrArg LinkDir.unacked e⟩
  case lane =>
    intro x l s
    refine ⟨_, rfl, ?_⟩
    by_cases ho : laneOver s x l
    · obtain ⟨hok, hcleared⟩ := cleared_of_laneMarks (laneErrorInterval_over ho)
      exact ⟨fun _ => hok ▸ bit_sub_two_pow ho.2, fun _ => hcleared⟩
    · have dead : cfg s (.fabDlCfg x) 15 0 < Nat.max (mget 0 (dieLink s x).fwd.errs l) (mget 0 (dieLink s x).bwd.errs l) →
          bit (dieLink s x).laneOk l = false := fun h => Bool.eq_false_iff.mpr fun k => ho ⟨h, k⟩
      by_cases ht : mget 0 (dieLink s x).fwd.since l + 10 ^ 9 ≤ s.now
      · rw [laneErrorInterval_ended ho ht]
        obtain ⟨hok, hcleared⟩ := cleared_of_laneMarks (laneMarks_nextInterval x l s)
        exact ⟨hok ▸ dead, fun _ => hcleared⟩
      · rw [laneErrorInterval_early ho ht]
        exact ⟨dead, fun h => absurd h (not_or.mpr ⟨ht, ho⟩)⟩
  case gap =>
    intro i j a s hg ht hh
    refine ⟨_, rfl, fun c hc => ?_⟩
    obtain ⟨hm, hn⟩ := List.mem_filter.mp (reseqGapTimeout_held hg ht hh hc)
    refine ⟨hm, fun hf => ?_⟩
    obtain ⟨b, hb, hbf, e⟩ := gapNext_first hf
    exact ⟨b, hb, hbf, e.trans_le (of_decide_eq_true hn)⟩

end Sys2Proof.Proofs
end

section
/-! Ports that come up and go down, gates, shaper updates, queue samples and the time unit's register bits (R329, R333, R338,
R340, R341, R346, R347, R360, R367, R384, R461). -/

namespace Sys2Proof.Proofs

open Sys2Proof.Machine Sys2Proof.Laws

/-! ### Ports (R329, R367, R461) -/

theorem linkTrainingDone_up {p : Nat} {s : State} (hp : (allPorts s).contains p = true) (hc : s.pwr.committed = true)
    (ho : domOn s (octOfLane p) = true) (hw : domWorks s (domPipe (pipeOfLane p)) = true) (ht : noTraffic s = false)
    (hd : portUp s p = false) : linkTrainingDone p s
      = raise (phySrc p) evPhyLinkUp p 0 0 0 (lanesLock p (modEgs (fun e => { e with up := mset false e.up p true }) s)) := by
  unfold linkTrainingDone
  rw [if_pos (by simp only [hp, hc, ho, hw, ht, hd, Bool.not_false, Bool.and_self])]

theorem portCompReady_up {p : Nat} {s : State} (h : portUp s p = true) (rx tx : Nat) : portCompReady p rx tx s
    = modTim (fun x => { x with comp := mset (false, 0, 0) x.comp p (true, rx % 2 ^ 15, tx % 2 ^ 15) }) s := if_pos h

/-- An entry that a port's loss of its link drops, and what it is counted as. -/
def lossDrop (port : Nat) (e : QEnt) (s : State) : State :=
  dropEnt e (if e.copy && !mirrorEnt s e then (0x0881, dieOfLane port, 11, 1) else (0x0981, pipeOfLane port, 9, 1)) s

/-- A queue of a port that has lost its link: emptied, and each of its entries dropped. -/
def lossQueue (port q : Nat) (s : State) : State := each (egq s port q) (lossDrop port) (modEgq port q (fun _ => []) s)

theorem dropPort_eq (port : Nat) (s : State) : dropPort port s
    = each (upTo 16) (lossQueue port) (each (launch s port) (lossDrop port) (modLaunch port (fun _ => []) s)) := rfl

theorem lossDrops_frame (port : Nat) (l : List QEnt) (s : State) : EgsFrame s (each l (lossDrop port) s) :=
  EgsFrame.each l _ (fun e _ h => h.dropEnt e _) s (EgsFrame.refl s)

theorem lossQueue_egq (port q n : Nat) (s : State) :
    egq (lossQueue port q s) port n = if q = n then [] else egq s port n := by
  obtain ⟨-, -, hq⟩ := (lossDrops_frame port (egq s port q) (modEgq port q (fun _ => []) s)).reads
  unfold lossQueue
  rw [hq]
  split
  · next e => rw [← e, egq_modEgq]
  · next e => exact egq_modEgq_ne (by omega) ..

theorem lossQueue_up_launch (port q : Nat) (s : State) :
    (lossQueue port q s).egs.up = s.egs.up ∧ launch (lossQueue port q s) port = launch s port := by
  obtain ⟨hu, hl, -⟩ := (lossDrops_frame port (egq s port q) (modEgq port q (fun _ => []) s)).reads
  exact ⟨hu, hl port⟩

theorem dropPort_egq (port : Nat) (s : State) : ∀ q < 16, egq (dropPort port s) port q = [] := by
  intro q hq
  rw [dropPort_eq]
  refine each_each (lossQueue port) (fun q t => egq t port q = []) (upTo 16) _ (fun a _ t => ?_) (fun a _ b _ t h => ?_) q
    (List.mem_range.mpr hq)
  · rw [lossQueue_egq, if_pos rfl]
  · rw [lossQueue_egq, h, ite_self]

theorem dropPort_up_launch (port : Nat) (s : State) :
    (dropPort port s).egs.up = s.egs.up ∧ launch (dropPort port s) port = [] := by
  rw [dropPort_eq]
  refine each_inv _ (fun t => t.egs.up = s.egs.up ∧ launch t port = []) _ _ (fun q _ t h => ?_) ?_
  · obtain ⟨hup, hlaunch⟩ := h
    obtain ⟨hu, hl⟩ := lossQueue_up_launch port q t
    exact ⟨hu.trans hup, hl.trans hlaunch⟩
  · obtain ⟨hu, hl, -⟩ := (lossDrops_frame port (launch s port) (modLaunch port (fun _ => []) s)).reads
    exact ⟨hu, (hl port).trans (launch_modLaunch ..)⟩

theorem dropPort_tim (port : Nat) (s : State) : (dropPort port s).tim = s.tim :=
  (dropPort_keeps (Only.allows 10356177184 s) rfl port s (Only.refl _ s)).tim rfl

theorem portDown_up {p : Nat} {s : State} (h : portUp s p = true) : portDown p s
    = raise (phySrc p) evPhyLinkDown p 0 0 0 (dropPort p (modTim (fun x => { x with comp := mset (false, 0, 0) x.comp p (false, 0, 0) })
        (modEgs (fun e => { e with up := mset false e.up p false }) s))) := by
  unfold portDown
  rw [h]
  rfl

/-- What a port's loss of its link leaves of the ports, the compensations and the port's queues. -/
theorem portDown_reads {p : Nat} {s : State} (h : portUp s p = true) : (portDown p s).egs.up = mset false s.egs.up p false
    ∧ (portDown p s).tim.comp = mset (false, 0, 0) s.tim.comp p (false, 0, 0)
    ∧ launch (portDown p s) p = [] ∧ ∀ q < 16, egq (portDown p s) p q = [] := by
  rw [portDown_up h]
  generalize hs : modTim _ _ = t
  obtain ⟨hu, hl⟩ := dropPort_up_launch p t
  refine ⟨?_, ?_, ?_, fun q hq => ?_⟩
  · rw [raise_egs, hu, ← hs]
    rfl
  · rw [raise_tim, dropPort_tim, ← hs]
    rfl
  · exact (launch_congr (by rw [raise_egs]) p).trans hl
  · exact (egq_congr (by rw [raise_egs]) p q).trans (dropPort_egq p t q hq)

/-! ### Gates (R340, R341) -/

theorem gateChange_due {p : Nat} {l : GateList} {s : State} (hr : (gates s p).running = some l) (ho : l.open_ = false)
    (hs : (gates s p).stretched = false) (hh : (gates s p).held = false) (ht : (gates s p).next ≤ timeFx s) :
    gateChange p s = noteWaits p (modGates p advanceGates s) := by
  unfold gateChange
  simp only [hr, ho, hs, hh, ht, Bool.not_false, decide_true, Bool.and_self, if_true]

theorem gateListStart_due {p : Nat} {l : GateList} {s : State} (hh : (gates s p).held = false)
    (hp : (gates s p).pending = some l) (ht : l.start ≤ timeFx s) : gateListStart p s
      = raise (egsSrc p) evGateStart 0 0 0 0 (noteWaits p (modGates p (fun g => beginList l { g with pending := none }) s)) := by
  unfold gateListStart
  simp only [hh, hp, ht, Bool.false_eq_true, if_false, if_true]

/-! ### Shapers (R333, R338) -/

theorem shaperUpdate_early {s : State} (h : s.now < s.egs.shaperAt + 64000) : shaperUpdate s = s := if_pos h

/-- The object key of a shaper entry tells nodes apart. -/
theorem shaperKey_ne {k n : Nat} (h : k ≠ n) :
    objKey 0x0902 (k / 4096) 0 (k % 4096) ≠ objKey 0x0902 (n / 4096) 0 (n % 4096) := by
  unfold objKey
  omega

theorem shaperOf_congr {s t : State} (h : t.cls = s.cls) (key : Nat) : shaperOf t key = shaperOf s key := by
  unfold shaperOf objGet
  rw [h]

theorem shaperOf_objPut (k v key : Nat) (s : State) :
    shaperOf (objPut 0x0902 (k / 4096) 0 (k % 4096) v s) key = if k = key then v else shaperOf s key := by
  split
  · next e => exact e ▸ objGet_objPut ..
  · next e => exact mget_mset_neD _ _ _ (shaperKey_ne e) v

/-- The update of a node takes its new entry. -/
theorem updateNode_new {k img : Nat} {f : Bool} {s : State} (h : mget none s.egs.newShaper k = some (img, f)) :
    (updateNode k s).cls = (objPut 0x0902 (k / 4096) 0 (k % 4096) img s).cls
      ∧ (updateNode k s).egs.newShaper = mset none s.egs.newShaper k none := by
  unfold updateNode
  simp only [h]
  split <;> exact ⟨rfl, rfl⟩

/-- The update of a node without a new entry moves its levels only. -/
theorem updateNode_levels {k : Nat} {s : State} (h : mget none s.egs.newShaper k = none) :
    (updateNode k s).cls = s.cls ∧ (updateNode k s).egs.newShaper = s.egs.newShaper := by
  unfold updateNode
  simp only [h]
  split <;> exact ⟨rfl, rfl⟩

/-- A node's new shaper entry has taken effect, and none waits. -/
def ShaperTaken (key img : Nat) (s : State) : Prop := shaperOf s key = img ∧ mget none s.egs.newShaper key = none

theorem ShaperTaken.of {key img : Nat} {s t : State} (h : ShaperTaken key img s) (hc : t.cls = s.cls)
    (hn : t.egs.newShaper = s.egs.newShaper) : ShaperTaken key img t :=
  ⟨(shaperOf_congr hc key).trans h.1, hn ▸ h.2⟩

theorem shaperTaken_updateNode {key img : Nat} {f : Bool} {s : State} (h : mget none s.egs.newShaper key = some (img, f)) :
    ShaperTaken key img (updateNode key s) := by
  obtain ⟨hc, hn⟩ := updateNode_new h
  refine ⟨?_, hn ▸ mget_mset_same ..⟩
  rw [shaperOf_congr hc, shaperOf_objPut, if_pos rfl]

/-- The update of another node leaves a node's entry, and the new one that waits for it. -/
theorem updateNode_other {k key : Nat} (hk : k ≠ key) (s : State) :
    shaperOf (updateNode k s) key = shaperOf s key
      ∧ mget none (updateNode k s).egs.newShaper key = mget none s.egs.newShaper key := by
  match h : mget none s.egs.newShaper k with
  | none =>
    obtain ⟨hc, hn⟩ := updateNode_levels h
    exact ⟨shaperOf_congr hc key, by rw [hn]⟩
  | some (img, f) =>
    obtain ⟨hc, hn⟩ := updateNode_new h
    refine ⟨?_, hn ▸ mget_mset_ne _ _ hk _⟩
    rw [shaperOf_congr hc, shaperOf_objPut, if_neg hk]

theorem ShaperTaken.updateNode {key img : Nat} {s : State} (h : ShaperTaken key img s) (k : Nat) :
    ShaperTaken key img (updateNode k s) := by
  by_cases hk : k = key
  · subst hk
    obtain ⟨hc, hn⟩ := updateNode_levels h.2
    exact h.of hc hn
  · obtain ⟨ho, hn⟩ := updateNode_other hk s
    exact ⟨ho.trans h.1, hn.trans h.2⟩

/-- Among the nodes that are updated, the one for which a new entry waits takes it at its first turn. -/
theorem shaperTaken_each {key img : Nat} {f : Bool} : ∀ (l : List Nat) (s : State), key ∈ l →
    mget none s.egs.newShaper key = some (img, f) → ShaperTaken key img (each l updateNode s) := by
  intro l
  induction l with
  | nil => exact fun s h => absurd h List.not_mem_nil
  | cons k r ih =>
    intro s hm h
    rw [each_cons]
    by_cases hk : k = key
    · subst hk
      exact each_inv _ (ShaperTaken k img) r _ (fun b _ t ht => ht.updateNode b) (shaperTaken_updateNode h)
    · have hr : key ∈ r := (List.mem_cons.mp hm).resolve_left (Ne.symm hk)
      exact ih _ hr ((updateNode_other hk s).2.trans h)

theorem mem_shaperNodes {key : Nat} {s : State} (h : mget none s.egs.newShaper key ≠ none) : key ∈ shaperNodes s := by
  obtain ⟨a, ha, e⟩ := mem_of_mget none key _ h
  unfold shaperNodes
  rw [List.mem_eraseDups]
  exact List.mem_append_right _ (e ▸ List.mem_map_of_mem ha)

theorem shaperUpdate_takes {key img : Nat} {f : Bool} {s : State} (h : mget none s.egs.newShaper key = some (img, f))
    (ht : s.egs.shaperAt + 64000 ≤ s.now) : ShaperTaken key img (shaperUpdate s) := by
  unfold shaperUpdate
  rw [if_neg (Nat.not_lt.mpr ht)]
  extract_lets s1 s2
  have hm : key ∈ shaperNodes s1 := mem_shaperNodes (s := s1) (by rw [show mget none s1.egs.newShaper key = _ from h]; simp)
  refine each_inv _ (ShaperTaken key img) _ _ (fun e _ t ht => ht.of ?_ ?_) (shaperTaken_each _ s1 hm h)
  · exact (finish_keeps (Only.allows 6416 t) rfl _ _ _ _ _ _ (Only.refl _ t)).cls rfl
  · rw [finish_egs]

/-! ### Queue samples (R346, R347) -/

theorem queueSample_early {d : Nat} {s : State} (h : s.now < mget 0 s.egs.sampleAt d + sampleUs s d * 10 ^ 6) :
    queueSample d s = s := by
  unfold queueSample
  rw [decide_eq_false (Nat.not_le.mpr h), Bool.and_false, if_neg Bool.false_ne_true]

/-- The queues that a die's sampler selects. -/
def sampledQueues (s : State) (d : Nat) : List (Nat × Nat) :=
  (portsOfDie s d).flatMap fun port => ((upTo 16).filter fun q => cfgBit s (.egsSampleMask port) q).map fun q => (port, q)

/-- A sample of one queue is one of the records that the interval has room for. -/
theorem queueSample_one {d p q : Nat} {s : State} (hd : hasDie s.part d = true) (he : cfgBit s (.egsSampleCfg d) 31 = true)
    (hc : s.pwr.committed = true) (ht : mget 0 s.egs.sampleAt d + sampleUs s d * 10 ^ 6 ≤ s.now)
    (hl : sampledQueues s d = [(p, q)]) : queueSample d s
      = queueSample1 d p q false (modEgs (fun e => { e with sampleAt := mset 0 e.sampleAt d s.now }) s) := by
  obtain ⟨n, hn⟩ : ∃ n, 16 * sampleUs s d = n + 1 := ⟨16 * sampleUs s d - 1, by
    have : 10 ≤ sampleUs s d := Nat.le_max_left ..
    omega⟩
  unfold queueSample
  rw [if_pos (by simp only [hd, he, hc, ht, decide_true, Bool.and_self])]
  extract_lets most s1 l s2
  have h1 : l = [(p, q)] := hl
  have h2 : most = n + 1 := hn
  simp only [s1, s2, h1, h2, List.take_succ_cons, List.take_nil, List.drop_succ_cons, List.drop_nil, each_cons, each_nil]

/-- A record for a ring that is not enabled is offered and discarded. -/
theorem queueSample1_disabled {d p q : Nat} {b : Bool} {s : State} {g : Nat} (hg : 656 + cfg s (.egsSampleCfg d) 20 16 = g)
    (h : (ring s g).enabled = false) : ring (queueSample1 d p q b s) g
      = { ring s g with offered := (ring s g).offered + 1, discarded := (ring s g).discarded + 1 } := by
  unfold queueSample1
  rw [hg]
  extract_lets j l cells bytes x s1 r s2 s3
  have h1 : r = { ring s g with offered := (ring s g).offered + 1 } := ring_modRing ..
  have hr : r.enabled = false := by rw [h1]; exact h
  rw [if_pos (by simp [hr]), raise_ring _ _ _ _ _ _ _ (by omega)]
  calc ring s3 g = ring s2 g := by simp only [s3, hr, Bool.false_eq_true, if_false]; rfl
    _ = _ := by
      rw [ring_modRing, show ring s1 g = _ from h1]

/-! ### The time unit (R360, R384) -/

theorem busWrite_timeUnitReset (path : Path) (s : State) : busWrite path .timCtrl 1 s = timeUnitReset false s := by
  simp [busWrite, timCtrlWrite, onBit]

theorem loseTraceable_gen (s : State) : (loseTraceable s).tim.gen = s.tim.gen := by
  unfold loseTraceable
  split
  · rw [raise_tim]
    rfl
  · rfl

theorem stopTouts_gen (s : State) : (stopTouts s).tim.gen = s.tim.gen := by
  unfold stopTouts
  extract_lets u
  have hu : u.tim.gen = s.tim.gen := by
    refine each_inv _ (fun t => t.tim.gen = s.tim.gen) (upTo 8) s (fun o _ t h => ?_) rfl
    split
    · exact h
    · exact h
  clear_value u
  exact hu

theorem stopTouts_regs (s : State) : (stopTouts s).regs = s.regs :=
  (stopTouts_keeps (Only.allows 33554432 s) rfl s (Only.refl _ s)).regs rfl

theorem loseTraceable_regs (s : State) : (loseTraceable s).regs = s.regs :=
  (loseTraceable_keeps (Only.allows 10368325920 s) rfl s (Only.refl _ s)).regs rfl

/-- The counter, its rate and the time generation. -/
def counterOf (s : State) : Nat × Nat × Nat × Int × Nat := (s.tim.sec, s.tim.ns, s.tim.frac, s.tim.rate, s.tim.gen)

theorem endHoldover_counter (s : State) : counterOf (endHoldover s) = counterOf s := by
  unfold endHoldover countHoldover
  split <;> rfl

/-- A reset of the time unit by its bit ends at the counter's zero, one generation on, with the copy that is selected. -/
theorem timeUnitReset_counter (s : State) : counterOf (timeUnitReset false s) = (0, 0, 0, 0, (s.tim.gen + 1) % 256)
    ∧ (timeUnitReset false s).tim.copy = cfgBit s .pwrInfraSel 0 := by
  unfold timeUnitReset
  extract_lets s1 s2 s3 s4 copy
  have hg : s2.tim.gen = s.tim.gen := (stopTouts_gen s1).trans (loseTraceable_gen s)
  have hr : s2.regs = s.regs := (stopTouts_regs s1).trans (loseTraceable_regs s)
  clear_value s2
  have hc : copy = cfgBit s .pwrInfraSel 0 := cfgBit_congr (s := s) (t := s4) hr .pwrInfraSel 0
  have h4 : counterOf s4 = (0, 0, 0, 0, (s.tim.gen + 1) % 256) := by
    rw [← hg]
    rfl
  split
  · next e => exact ⟨h4, e.symm.trans hc⟩
  · exact ⟨(endHoldover_counter s4).trans h4, hc⟩

/-! ### The claim -/

/-- Settles O17: each row is its operation, by the branch its clause names; what a lost link drops leaves the port's other queues,
and of the nodes that are updated only its own takes a new shaper entry. -/
theorem portsGatesAndShapers : Obligations.PortsGatesAndShapers := by
  refine ⟨fun p s hp hc ho hw ht hd => congrArg _ (linkTrainingDone_up hp hc ho hw ht hd), ?loss,
    fun p rx tx s h => congrArg _ (portCompReady_up h rx tx),
    fun p l s hr ho hs hh ht => congrArg _ (gateChange_due hr ho hs hh ht),
    fun p l s hh hp ht => congrArg _ (gateListStart_due hh hp ht),
    fun s h => congrArg _ (shaperUpdate_early h), fun d s h => congrArg _ (queueSample_early h), ?shaper, ?sample, ?reset,
    fun path s w => congrArg _ ((regWrite_writable 2 w).trans (busWrite_snap path s))⟩
  case loss =>
    intro p s h
    obtain ⟨hup, hcomp, hl, hq⟩ := portDown_reads h
    refine ⟨_, rfl, ?_, hcomp ▸ mget_mset_same .., fun k hk => ?_, hl, hq⟩
    · unfold portUp
      rw [hup, mget_mset_same]
    · unfold portUp
      rw [hup, mget_mset_ne _ _ hk.symm]
  case shaper =>
    intro key img f s h ht
    exact ⟨_, rfl, shaperUpdate_takes h ht⟩
  case sample =>
    intro d p q s hd he hc ht hl hr
    refine ⟨_, congrArg Host.Outcome.next (queueSample_one hd he hc ht hl), ?_⟩
    have e := queueSample1_disabled (d := d) (p := p) (q := q) (b := false)
      (s := modEgs (fun e => { e with sampleAt := mset 0 e.sampleAt d s.now }) s) rfl hr
    exact ⟨congrArg Ring.offered e, congrArg Ring.discarded e⟩
  case reset =>
    intro path s w
    have e : exec (.timeUnitReset path) s = .next (timeUnitReset false s) :=
      congrArg _ ((regWrite_writable 1 w).trans (busWrite_timeUnitReset path s))
    obtain ⟨hcounter, hcopy⟩ := timeUnitReset_counter s
    simp only [counterOf, Prod.mk.injEq] at hcounter
    obtain ⟨hsec, hns, hfrac, hrate, hgen⟩ := hcounter
    exact ⟨_, e, hsec, hns, hfrac, hrate, hcopy, hgen⟩

end Sys2Proof.Proofs
end

section
/-! Frames of the time, HBM, integrity, custodian, logbook, life-cycle and power rows (R357, R411, R440, R446, R457, R477, R500):
the parts each row can write are read off its own lemma (exec<Name>_keeps). A set of parts is a number whose bits are State's
fields, counted from 0 in their order. -/

namespace Sys2Proof.Proofs

open Sys2Proof.Machine Sys2Proof.Laws

/-- The time unit, and an event's. -/
abbrev timeEventParts : Nat := eventParts + 2 ^ 25

/-- The custodians, and an event's. -/
abbrev custodianParts : Nat := eventParts + 2 ^ 28

/-- What the loss of an HBM block can write: those of the frames it ends, and the HBM's state. -/
abbrev hbmLossParts : Nat := frameEgressParts + 2 ^ 26

/-- What ports that go down can write for a command: the frames that end there, the time unit and the command under way. -/
abbrev portsDownParts : Nat := frameEndParts + 2 ^ 4 + 2 ^ 25

/-- What a domain that loses its power can write: the frames that end there, the forwarding state, the command under way and the
domains. -/
abbrev domainParts : Nat := frameEgressParts + 2 ^ 4 + 2 ^ 16 + 2 ^ 32

/-- Those of `domainParts` and the time unit, for the ports of a domain that faults. -/
abbrev domainFaultParts : Nat := domainParts + 2 ^ 25

/-- What a read of a register can write: a free value, the registers, the value read and the logbook's window. -/
abbrev readParts : Nat := 2 ^ 3 + 2 ^ 6 + 2 ^ 7 + 2 ^ 30

/-- What the go of the token block can write: the registers, the counts of a write that is turned away and the life cycle. -/
abbrev tokenParts : Nat := 2 ^ 6 + 2 ^ 11 + 2 ^ 12 + 2 ^ 31

/-- Settles O53: what each row's own lemma says it can write. -/
theorem frameUnits : Obligations.FrameUnits := by
  refine ⟨⟨?trefLoss, ?pllLock, ?holdoverLimit, ?toutEdge, ?tinEdge, ?synceLaneLoss⟩, ⟨?trefValid, ?synceUnsquelch⟩,
    ?hbmAccess, ?hbmRefresh, ?hbmTempRead, ⟨?patrolScrub, ?rankProbe, ?migrationChunk⟩, ?rankPrepareEnd, ?sramScrub,
    ⟨?clockLoss, ?domainFault⟩, ⟨?chkFeedResRead, ?logWin7Read⟩,
    ⟨?cusWatchdogExpiry, ?selfTestEnd, ?stringCopyDisagree, ?preloadEnd⟩, ?stringRelease, ?stringTake, ?adoption,
    ?checkpoint, ?custodianActuatorWrite, ⟨?logPersist, ?supplyOutOfRatings, ?railWithinTolerance⟩,
    ⟨?statSample, ?logWindowReady⟩, ?statSnapshot, ?logClearEraseEnd,
    ⟨?testDone, ?seal_, ?service, ?logClear, ?keyRotate, ?return_, ?vendorDebug⟩, ?tokenResult, ?zeroisationEnd,
    ?jtagInstruction, ?domainStopDone, ?domainInitDone, ?autoRestart, ⟨?dieTempReading, ?startupReady⟩, ?smbusSetOffset,
    ?smbusRead, ?hbmTrainingEnd, ⟨?timeSetRead, ?domainCtlQuery⟩, ?timeSetStep,
    ⟨?timeSetRate, ?timeSetTout, ?timeSetPeerDelay⟩, ⟨?timeSetMarkTraceable, ?timeSetSynce⟩,
    ⟨?domainCtlOff, ?domainCtlRestart⟩, ?domainCtlOn, ?domainCtlReinit⟩
  case trefLoss => exact leaves_of_execKeeps timeEventParts (fun _ _ => rfl) fun A => execTrefLoss_keeps A rfl
  case pllLock => exact leaves_of_execKeeps timeEventParts (fun _ _ => rfl) fun A => execPllLock_keeps A rfl
  case holdoverLimit => exact leaves_of_execKeeps timeEventParts (fun _ _ => rfl) fun A => execHoldoverLimit_keeps A rfl
  case toutEdge => exact fun o => leaves_of_execKeeps timeEventParts (fun _ _ => rfl) fun A => execToutEdge_keeps A rfl o
  case tinEdge => exact fun n f => leaves_of_execKeeps timeEventParts (fun _ _ => rfl) fun A => execTinEdge_keeps A rfl n f
  case synceLaneLoss =>
    exact fun o => leaves_of_execKeeps timeEventParts (fun _ _ => rfl) fun A => execSynceLaneLoss_keeps A rfl o
  case trefValid => exact leaves_of_execKeeps (2 ^ 25) (fun _ _ => rfl) fun A => execTrefValid_keeps A rfl
  case synceUnsquelch => exact fun o => leaves_of_execKeeps (2 ^ 25) (fun _ _ => rfl) fun A => execSynceUnsquelch_keeps A rfl o
  case hbmAccess =>
    exact fun n e => leaves_of_execKeeps (hbmLossParts + 2 ^ 3) (fun _ _ => rfl) fun A => execHbmAccess_keeps A rfl n e
  case hbmRefresh =>
    exact fun n b => leaves_of_execKeeps (2 ^ 11 + 2 ^ 26) (fun _ _ => rfl) fun A => execHbmRefresh_keeps A rfl n b
  case hbmTempRead =>
    exact fun n c => leaves_of_execKeeps (eventParts + 2 ^ 26 + 2 ^ 32) (fun _ _ => rfl) fun A =>
      execHbmTempRead_keeps A rfl n c
  case patrolScrub =>
    exact fun n r e => leaves_of_execKeeps hbmLossParts (fun _ _ => rfl) fun A => execPatrolScrub_keeps A rfl n r e
  case rankProbe =>
    exact fun n r e => leaves_of_execKeeps hbmLossParts (fun _ _ => rfl) fun A => execRankProbe_keeps A rfl n r e
  case migrationChunk =>
    exact fun b f => leaves_of_execKeeps hbmLossParts (fun _ _ => rfl) fun A => execMigrationChunk_keeps A rfl b f
  case rankPrepareEnd =>
    exact fun n r b => leaves_of_execKeeps (eventParts + 2 ^ 26) (fun _ _ => rfl) fun A => execRankPrepareEnd_keeps A rfl n r b
  case sramScrub =>
    exact fun d k a e => leaves_of_execKeeps (domainFaultParts + 2 ^ 9 + 2 ^ 28) (fun _ _ => rfl) fun A =>
      execSramScrub_keeps A rfl d k a e
  case clockLoss =>
    exact fun d c => leaves_of_execKeeps domainFaultParts (fun _ _ => rfl) fun A => execClockLoss_keeps A rfl d c
  case domainFault =>
    exact fun d c => leaves_of_execKeeps domainFaultParts (fun _ _ => rfl) fun A => execDomainFault_keeps A rfl d c
  case chkFeedResRead =>
    exact fun p e b => leaves_of_execKeeps readParts (fun _ _ => rfl) fun A => execChkFeedResRead_keeps A rfl p e b
  case logWin7Read => exact fun p => leaves_of_execKeeps readParts (fun _ _ => rfl) fun A => execLogWin7Read_keeps A rfl p
  case cusWatchdogExpiry => exact leaves_of_execKeeps custodianParts (fun _ _ => rfl) fun A => execCusWatchdogExpiry_keeps A rfl
  case selfTestEnd =>
    exact fun b r => leaves_of_execKeeps custodianParts (fun _ _ => rfl) fun A => execSelfTestEnd_keeps A rfl b r
  case stringCopyDisagree =>
    exact leaves_of_execKeeps custodianParts (fun _ _ => rfl) fun A => execStringCopyDisagree_keeps A rfl
  case preloadEnd =>
    exact fun b r => leaves_of_execKeeps custodianParts (fun _ _ => rfl) fun A => execPreloadEnd_keeps A rfl b r
  case stringRelease =>
    exact fun c => leaves_of_execKeeps (custodianParts + 2 ^ 10 + 2 ^ 26) (fun _ _ => rfl) fun A =>
      execStringRelease_keeps A rfl c
  case stringTake =>
    exact fun b => leaves_of_execKeeps (custodianParts + 2 ^ 16 + 2 ^ 17 + 2 ^ 26) (fun _ _ => rfl) fun A =>
      execStringTake_keeps A rfl b
  case adoption =>
    exact leaves_of_execKeeps (custodianParts + 2 ^ 10 + 2 ^ 21 + 2 ^ 26) (fun _ _ => rfl) fun A => execAdoption_keeps A rfl
  case checkpoint =>
    exact leaves_of_execKeeps (2 ^ 10 + 2 ^ 11 + 2 ^ 26 + 2 ^ 28) (fun _ _ => rfl) fun A => execCheckpoint_keeps A rfl
  case custodianActuatorWrite =>
    exact fun b a v => leaves_of_execKeeps (2 ^ 11 + 2 ^ 28) (fun _ _ => rfl) fun A =>
      execCustodianActuatorWrite_keeps A rfl b a v
  case logPersist => exact fun b => leaves_of_execKeeps eventParts (fun _ _ => rfl) fun A => execLogPersist_keeps A rfl b
  case supplyOutOfRatings =>
    exact fun r => leaves_of_execKeeps eventParts (fun _ _ => rfl) fun A => execSupplyOutOfRatings_keeps A rfl r
  case railWithinTolerance =>
    exact fun r => leaves_of_execKeeps eventParts (fun _ _ => rfl) fun A => execRailWithinTolerance_keeps A rfl r
  case statSample => exact fun n v => leaves_of_execKeeps (2 ^ 30) (fun _ _ => rfl) fun A => execStatSample_keeps A rfl n v
  case logWindowReady => exact leaves_of_execKeeps (2 ^ 30) (fun _ _ => rfl) fun A => execLogWindowReady_keeps A rfl
  case statSnapshot =>
    exact leaves_of_execKeeps (2 ^ 11 + 2 ^ 29 + 2 ^ 30) (fun _ _ => rfl) fun A => execStatSnapshot_keeps A rfl
  case logClearEraseEnd =>
    exact leaves_of_execKeeps (2 ^ 11 + 2 ^ 30) (fun _ _ => rfl) fun A => execLogClearEraseEnd_keeps A rfl
  case testDone => exact fun p => leaves_of_execKeeps tokenParts (fun _ _ => rfl) fun A => execTestDone_keeps A rfl p
  case seal_ => exact fun p => leaves_of_execKeeps tokenParts (fun _ _ => rfl) fun A => execSeal_keeps A rfl p
  case service => exact fun p => leaves_of_execKeeps tokenParts (fun _ _ => rfl) fun A => execService_keeps A rfl p
  case logClear => exact fun p => leaves_of_execKeeps tokenParts (fun _ _ => rfl) fun A => execLogClear_keeps A rfl p
  case keyRotate => exact fun p => leaves_of_execKeeps tokenParts (fun _ _ => rfl) fun A => execKeyRotate_keeps A rfl p
  case return_ => exact fun p => leaves_of_execKeeps tokenParts (fun _ _ => rfl) fun A => execReturn_keeps A rfl p
  case vendorDebug => exact fun p => leaves_of_execKeeps tokenParts (fun _ _ => rfl) fun A => execVendorDebug_keeps A rfl p
  case tokenResult =>
    exact fun b => leaves_of_execKeeps (portsDownParts + 2 ^ 3 + 2 ^ 31) (fun _ _ => rfl) fun A => execTokenResult_keeps A rfl b
  case zeroisationEnd =>
    exact leaves_of_execKeeps (hbmLossParts + 2 ^ 9 + 2 ^ 16 + 2 ^ 28 + 2 ^ 31) (fun _ _ => rfl) fun A =>
      execZeroisationEnd_keeps A rfl
  case jtagInstruction =>
    exact fun o => leaves_of_execKeeps (2 ^ 31) (fun _ _ => rfl) fun A => execJtagInstruction_keeps A rfl o
  case domainStopDone =>
    exact fun n => leaves_of_execKeeps domainParts (fun _ _ => rfl) fun A => execDomainStopDone_keeps A rfl n
  case domainInitDone =>
    exact fun n b => leaves_of_execKeeps (eventParts + 2 ^ 4 + 2 ^ 15 + 2 ^ 17 + 2 ^ 21 + 2 ^ 24 + 2 ^ 32) (fun _ _ => rfl) fun A =>
      execDomainInitDone_keeps A rfl n b
  case autoRestart =>
    exact fun n => leaves_of_execKeeps (2 ^ 11 + 2 ^ 32) (fun _ _ => rfl) fun A => execAutoRestart_keeps A rfl n
  case dieTempReading =>
    exact fun d c => leaves_of_execKeeps (eventParts + 2 ^ 32) (fun _ _ => rfl) fun A => execDieTempReading_keeps A rfl d c
  case startupReady => exact leaves_of_execKeeps (eventParts + 2 ^ 32) (fun _ _ => rfl) fun A => execStartupReady_keeps A rfl
  case smbusSetOffset => exact fun o => leaves_of_execKeeps (2 ^ 33) (fun _ _ => rfl) fun A => execSmbusSetOffset_keeps A rfl o
  case smbusRead =>
    exact fun b => leaves_of_execKeeps (readParts + 2 ^ 33) (fun _ _ => rfl) fun A => execSmbusRead_keeps A rfl b
  case hbmTrainingEnd =>
    exact fun f => leaves_of_execKeeps (eventParts + 2 ^ 10 + 2 ^ 17 + 2 ^ 26 + 2 ^ 32) (fun _ _ => rfl) fun A =>
      execHbmTrainingEnd_keeps A rfl f
  case timeSetRead => exact fun h => leaves_of_execKeeps completionParts (fun _ _ => rfl) fun A => execTimeSetRead_keeps A rfl h
  case domainCtlQuery =>
    exact fun h => leaves_of_execKeeps completionParts (fun _ _ => rfl) fun A => execDomainCtlQuery_keeps A rfl h
  case timeSetStep =>
    exact fun h b t o => leaves_of_execKeeps (timeEventParts + 2 ^ 4 + 2 ^ 24) (fun _ _ => rfl) fun A =>
      execTimeSetStep_keeps A rfl h b t o
  case timeSetRate =>
    exact fun h r => leaves_of_execKeeps (completionParts + 2 ^ 25) (fun _ _ => rfl) fun A => execTimeSetRate_keeps A rfl h r
  case timeSetTout =>
    exact fun h c => leaves_of_execKeeps (completionParts + 2 ^ 25) (fun _ _ => rfl) fun A => execTimeSetTout_keeps A rfl h c
  case timeSetPeerDelay =>
    exact fun h p d => leaves_of_execKeeps (completionParts + 2 ^ 25) (fun _ _ => rfl) fun A =>
      execTimeSetPeerDelay_keeps A rfl h p d
  case timeSetMarkTraceable =>
    exact fun h => leaves_of_execKeeps (timeEventParts + 2 ^ 4) (fun _ _ => rfl) fun A => execTimeSetMarkTraceable_keeps A rfl h
  case timeSetSynce =>
    exact fun h o b l d => leaves_of_execKeeps (timeEventParts + 2 ^ 4) (fun _ _ => rfl) fun A =>
      execTimeSetSynce_keeps A rfl h o b l d
  case domainCtlOff =>
    exact fun h => leaves_of_execKeeps (portsDownParts + 2 ^ 21 + 2 ^ 32) (fun _ _ => rfl) fun A =>
      execDomainCtlOff_keeps A rfl h
  case domainCtlRestart =>
    exact fun h p => leaves_of_execKeeps (portsDownParts + 2 ^ 21 + 2 ^ 32) (fun _ _ => rfl) fun A =>
      execDomainCtlRestart_keeps A rfl h p
  case domainCtlOn =>
    exact fun h => leaves_of_execKeeps (eventParts + 2 ^ 4 + 2 ^ 32) (fun _ _ => rfl) fun A => execDomainCtlOn_keeps A rfl h
  case domainCtlReinit =>
    exact fun h p => leaves_of_execKeeps (completionParts + 2 ^ 32) (fun _ _ => rfl) fun A =>
      execDomainCtlReinit_keeps A rfl h p

end Sys2Proof.Proofs
end

section
/-! The time counter: a step on an empty queue is one TIME cycle, and what the counter reads after it (R353, R354). -/

namespace Sys2Proof.Proofs

open Sys2Proof.Machine Sys2Proof.Laws

/-! ### The counter -/

theorem step_empty {s : State} (h : s.pending = []) : step s = .next (tick s) := by
  unfold step
  rw [h]

/-- The counter in units of 2^-44 ns. -/
def counterFx (t : Tim) : Nat := (t.sec * 10 ^ 9 + t.ns) * 2 ^ 44 + t.frac

/-- A count below 2^64 seconds is split into seconds, nanoseconds and fraction without loss. -/
theorem counterFx_setCounter {x : Nat} (h : x / 2 ^ 44 / 10 ^ 9 < 2 ^ 64) (t : Tim) : counterFx (setCounter x t) = x := by
  simp only [counterFx, setCounter, Nat.mod_eq_of_lt h, Nat.div_add_mod']

theorem setCounter_ns_lt (x : Nat) (t : Tim) : (setCounter x t).ns < 10 ^ 9 := Nat.mod_lt _ (by decide)

theorem setCounter_frac_lt (x : Nat) (t : Tim) : (setCounter x t).frac < 2 ^ 44 := Nat.mod_lt _ (by decide)

/-- Set to a time whose parts are in range, the counter holds those parts. -/
theorem setCounter_parts {sec ns frac : Nat} (hs : sec < 2 ^ 64) (hn : ns < 10 ^ 9) (hf : frac < 2 ^ 44) (t : Tim) :
    setCounter ((sec * 10 ^ 9 + ns) * 2 ^ 44 + frac) t = { t with sec := sec, ns := ns, frac := frac } := by
  have hx : ((sec * 10 ^ 9 + ns) * 2 ^ 44 + frac) / 2 ^ 44 = sec * 10 ^ 9 + ns := by omega
  have hd : (sec * 10 ^ 9 + ns) / 10 ^ 9 % 2 ^ 64 = sec := by omega
  have hm : (sec * 10 ^ 9 + ns) % 10 ^ 9 = ns := by omega
  have hr : ((sec * 10 ^ 9 + ns) * 2 ^ 44 + frac) % 2 ^ 44 = frac := by
    rw [Nat.mul_add_mod', Nat.mod_eq_of_lt hf]
  rw [setCounter, hx, hd, hm, hr]

/-- A TIME cycle sets the counter 2^44 + r units on. -/
theorem countOn_eq_setCounter (t : Tim) : countOn t = setCounter ((counterFx t : Int) + (2 ^ 44 + t.rate)).toNat t := by
  simp only [countOn, addFrac, setCounter, counterFx, Int.ofNat_eq_natCast]

theorem fitsI32_iff (r : Int) : fitsI 32 r = true ↔ -(2 ^ 31) ≤ r ∧ r < 2 ^ 31 := by
  simp [fitsI]

/-- A rate of 32 bits is far below a nanosecond's 2^44 units, so a TIME cycle takes the counter on by less than two nanoseconds and
by no less than none: at most the next second is entered. -/
theorem counterFx_countOn {t : Tim} (hn : t.ns < 10 ^ 9) (hf : t.frac < 2 ^ 44) (hs : t.sec + 1 < 2 ^ 64)
    (hr : fitsI 32 t.rate = true) : (counterFx (countOn t) : Int) = (counterFx t : Int) + (2 ^ 44 + t.rate) := by
  obtain ⟨hlo, hhi⟩ := (fitsI32_iff _).mp hr
  have hx : counterFx t < (t.sec + 1) * 10 ^ 9 * 2 ^ 44 := by
    unfold counterFx
    omega
  rw [countOn_eq_setCounter, counterFx_setCounter]
  · omega
  · omega

/-- Settles O37: it is how a step is defined on an empty queue. -/
theorem emptyQueueTicks : Obligations.EmptyQueueTicks := fun _ h => step_empty h

/-! ### A command's effect on the time unit -/

@[simp] theorem beginState_tim (s : State) (i : Instr) (g : Nat) : (beginState s i g).tim = s.tim :=
  (beginState_only s i g).tim rfl

@[simp] theorem beginState_now (s : State) (i : Instr) (g : Nat) : (beginState s i g).now = s.now :=
  (beginState_only s i g).now rfl

/-- A command that begins leaves of the time unit what its run leaves. -/
theorem command_tim {s : State} {i : Instr} {g : Nat} (b : begins s i g) (run : Nat × Nat → State → CmdOut × State) :
    (command i run s).tim = (run (g, (ring s g).begun) (beginState s i g)).2.tim := by
  rw [command_begins b]
  exact (afterRun_only ..).tim rfl

theorem toInt_ofInt_of_fits {r : Int} (h : fitsI 32 r = true) : (BitVec.ofInt 32 r).toInt = r := by
  obtain ⟨hlo, hhi⟩ := (fitsI32_iff _).mp h
  rw [BitVec.toInt_ofInt]
  exact Int.bmod_eq_of_le (by omega) (by omega)

theorem timeSetRate_tim {h : Hdr} {rate : Int} {s : State} (b : begins s (.timeSetRate h rate) h.ring)
    (hr : fitsI 32 rate = true) :
    (command (.timeSetRate h rate) (runTimeRate rate) s).tim = { s.tim with rate := rate } := by
  rw [command_tim b, runTimeRate, modTim_own, beginState_tim, toInt_ofInt_of_fits hr]

/-- Settles O38: the count of 2^-44 ns is kept by the split into seconds, nanoseconds and fraction. -/
theorem timeCounterAdvance : Obligations.TimeCounterAdvance := by
  refine ⟨fun t hn hf hs hr => ⟨?_, setCounter_ns_lt .., setCounter_frac_lt .., rfl⟩, fitsI32_iff,
    fun s => ⟨rfl, rfl, rfl⟩, fun h rate s b hr => ⟨_, rfl, timeSetRate_tim b hr⟩⟩
  exact (counterFx_countOn hn hf hs hr).trans (Int.add_assoc ..).symm

end Sys2Proof.Proofs
end

section
/-! TIME_SET: what each action leaves of the time unit, and that it leaves nothing else but its completion (R361–R365, R378,
R381). -/

namespace Sys2Proof.Proofs

open Sys2Proof.Machine Sys2Proof.Laws

/-! ### Frames -/

/-- After a command that begins none is under way, and the rest is as its frame says. -/
theorem command_frame {s : State} {i : Instr} {g m : Nat} (b : begins s i g) {run : Nat × Nat → State → CmdOut × State}
    (H : Only m s (command i run s)) : command i run s = mix m s { command i run s with actor := none } := by
  have e : { command i run s with actor := none } = command i run s := by rw [← command_actor b]
  rw [e]
  exact eq_mix_of_only H

/-- A command whose run writes the time unit only leaves that and its completion. -/
theorem command_timFrame {s t : State} {i : Instr} {g : Nat} (b : begins s i g) {run : Nat × Nat → State → CmdOut × State}
    (O : Only (2 ^ 25) (beginState s i g) (run (g, (ring s g).begun) (beginState s i g)).2) (ht : command i run s = t) :
    t = { s with actor := none, host := t.host, cnt := t.cnt, hif := t.hif, tim := t.tim } := by
  have B : Only (completionParts + 2 ^ 25) s (beginState s i g) := (beginState_only s i g).mono rfl
  have F := command_frame b (command_only b rfl (B.trans (O.mono rfl)))
  rw [ht] at F
  exact F

/-! ### STEP -/

/-- t's time unit is s's, but for the programs and levels of the outputs. -/
def SameButTouts (s t : State) : Prop :=
  t.tim = { s.tim with tout := t.tim.tout, toutNew := t.tim.toutNew, toutLevel := t.tim.toutLevel }

theorem SameButTouts.of_eq {s t : State} (h : t.tim = s.tim) : SameButTouts s t := by
  unfold SameButTouts
  rw [h]

theorem SameButTouts.trans {s t u : State} (h : SameButTouts s t) (k : SameButTouts t u) : SameButTouts s u := by
  unfold SameButTouts at *
  rw [h] at k
  exact k

theorem stepTout_sameButTouts (now : Nat) (d : Int) (o : Nat) (s : State) : SameButTouts s (stepTout now d o s) := by
  unfold stepTout
  extract_lets u
  have hu : SameButTouts s u := by
    unfold u
    split
    · extract_lets q v
      split <;> rfl
    · rfl
  clear_value u
  split
  · exact hu.trans rfl
  · exact hu

@[simp] theorem restartGates_tim (s : State) : (restartGates s).tim = s.tim :=
  (restartGates_keeps (Only.allows egressEventParts s) rfl s (Only.refl _ s)).tim rfl

/-- Set to a stamp, the counter shows the stamp. -/
theorem setCounter_stampFx {time : Stamp} (h : time.wf = true) (t : Tim) :
    setCounter (stampFx ⟨time.sec % 2 ^ 48, time.ns, time.frac % 2 ^ 16⟩ * 2 ^ 28) t
      = { t with sec := time.sec, ns := time.ns, frac := time.frac * 2 ^ 28 } := by
  simp only [Stamp.wf, fitsW, Bool.and_eq_true, decide_eq_true_eq] at h
  obtain ⟨⟨hs, hn⟩, hf⟩ := h
  have hx : stampFx ⟨time.sec % 2 ^ 48, time.ns, time.frac % 2 ^ 16⟩ * 2 ^ 28
      = (time.sec * 10 ^ 9 + time.ns) * 2 ^ 44 + time.frac * 2 ^ 28 := by
    simp only [stampFx, Nat.mod_eq_of_lt hs, Nat.mod_eq_of_lt hf]
    omega
  rw [hx]
  exact setCounter_parts (by omega) hn (by omega) t

/-- The time unit of an accepted absolute step, but for its outputs. -/
def stepped (time : Stamp) (t : Tim) : Tim :=
  { t with sec := time.sec, ns := time.ns, frac := time.frac * 2 ^ 28, stepDone := true, gen := (t.gen + 1) % 256 }

theorem runTimeStep_accepted {time : Stamp} (off : Int) (a : Nat × Nat) {s : State} (hd : s.tim.stepDone = false)
    (ht : time.wf = true) : SameButTouts (modTim (stepped time) s) (runTimeStep false time off a s).2 := by
  unfold runTimeStep
  extract_lets old new gen before u d
  have hnew : new = Int.ofNat (stampFx ⟨time.sec % 2 ^ 48, time.ns, time.frac % 2 ^ 16⟩ * 2 ^ 28) := rfl
  have hu : u = modTim (stepped time) s := by
    simp only [u, hnew, Int.ofNat_eq_natCast, Int.toNat_natCast, setCounter_stampFx ht]
    rfl
  rw [if_neg (by simp [hd, hnew])]
  clear_value u d
  subst hu
  refine SameButTouts.trans ?_ (.of_eq (restartGates_tim _))
  refine each_inv _ (SameButTouts (modTim (stepped time) s)) _ _ (fun o _ t h => h.trans (stepTout_sameButTouts ..)) ?_
  exact .of_eq (raise_tim ..)

/-! ### The outputs, the lanes -/

theorem toutOf_congr {s t : State} (h : t.tim = s.tim) (o : Nat) : toutOf t o = toutOf s o := by
  unfold toutOf
  rw [h]

theorem toutNewOf_congr {s t : State} (h : t.tim = s.tim) (o : Nat) : toutNewOf t o = toutNewOf s o := by
  unfold toutNewOf
  rw [h]

theorem synceOf_congr {s t : State} (h : t.tim = s.tim) (o : Nat) : synceOf t o = synceOf s o := by
  unfold synceOf
  rw [h]

theorem fxNow_congr {s t : State} (h : t.tim = s.tim) : fxNow t = fxNow s := by
  unfold fxNow
  rw [h]

theorem timWord_congr {s t : State} (h : t.tim = s.tim) : timWord t = timWord s := by
  unfold timWord
  rw [h]

theorem laneLocked_congr {s t : State} (h : t.egs = s.egs) (lane : Nat) : laneLocked t lane = laneLocked s lane := by
  unfold laneLocked portsOfOctet portLanes portUp formation
  rw [h]

@[simp] theorem toutOf_setTout_same (o : Nat) (p : Option Tout) (s : State) : toutOf (setTout o p s) o = p := mget_mset_same ..

@[simp] theorem toutNewOf_setToutNew_same (o : Nat) (p : Option Tout) (s : State) : toutNewOf (setToutNew o p s) o = p :=
  mget_mset_same ..

@[simp] theorem synceOf_setSynce_same (o : Nat) (x : SyncE) (s : State) : synceOf (setSynce o x s) o = x := mget_mset_same ..

theorem synceOf_setSynce_ne {o p : Nat} (h : p ≠ o) (x : SyncE) (s : State) : synceOf (setSynce o x s) p = synceOf s p :=
  mget_mset_ne _ _ h.symm x

/-! ### The other actions -/

/-- A one-shot that waits for its first edge; an output that nothing drives takes its inactive level. -/
def armed (c : ToutCmd) (s : State) : State :=
  setToutNew c.output (some ⟨c.start, 0, c.widthNs, c.activeLow, stampFx c.start, true, false, false⟩)
    (if (toutOf s c.output).isNone then drive c.output c.activeLow false s else s)

theorem toutOf_armed (c : ToutCmd) (s : State) (o : Nat) : toutOf (armed c s) o = toutOf s o := by
  unfold armed
  split <;> rfl

theorem runTout_oneShot {c : ToutCmd} {s : State} (ho : c.output < 8) (he : c.enable = true) (hp : c.periodic = false)
    (hl : toutLimits c = true) (hs : fxNow s + fxUs ≤ stampFx c.start) (a : Nat × Nat) : (runTout c a s).2 = armed c s := by
  unfold runTout
  simp [Nat.not_le.mpr ho, Nat.not_lt.mpr hs, he, hp, hl, armed]

theorem runMarkTraceable_tim {s : State} (hd : s.tim.stepDone = true) (hh : s.tim.holdover = false) (a : Nat × Nat) :
    (runMarkTraceable a s).2.tim = { s.tim with traceable := true } := by
  unfold runMarkTraceable
  rw [if_pos (by simp [hd, hh])]
  dsimp only
  split
  · next h => rw [← h]
  · rw [raise_tim, modTim_own]

theorem runPeerDelay_stores {port delay : Nat} {s : State} (hp : port < 512) (hl : hasLane s.part port = true)
    (hd : delay < 2 ^ 32) (a : Nat × Nat) :
    (runPeerDelay port delay a s).2 = modTim (fun t => { t with peer := mset 0 t.peer port delay }) s := by
  unfold runPeerDelay
  rw [if_pos ⟨hp, hl⟩, Nat.mod_eq_of_lt hd]

theorem runSynce_locked {o lane divider : Nat} {s : State} (ho : o < 2) (h4 : 4 ≤ divider) (hd : divider ≤ 4095)
    (hl : lane < 512) (hp : hasLane s.part lane = true) (hk : laneLocked s lane = true) (a : Nat × Nat) :
    (runSynce o true lane divider a s).2 = setSynce o ⟨true, lane, divider, false, s.now⟩ s := by
  have hk' : laneLocked (setSynce o ⟨true, lane, divider, false, s.now⟩ s) lane = true := (laneLocked_congr rfl lane).trans hk
  unfold runSynce
  simp [Nat.not_le.mpr ho, Nat.not_lt.mpr h4, Nat.not_lt.mpr hd, Nat.not_le.mpr hl, hp, hk']

/-! ### The claim -/

/-- Settles O1: each action's run is the branch that its clause names, and beside it only the completion is written. -/
theorem timeSetActions : Obligations.TimeSetActions := by
  refine ⟨?read, ?rate, ?step, ?mark, ?tout, ?peer, ?synce⟩
  case read =>
    intro h s b
    refine congrArg Host.Outcome.next ((command_doneAt b rfl).trans ?_)
    rw [doneAt, timWord_congr (beginState_tim ..), beginState_tim]
  case rate =>
    intro h rate s b hr
    exact ⟨_, rfl, timeSetRate_tim b hr,
      command_timFrame b (runTimeRate_keeps (Only.allows _ _) rfl rate _ _ (Only.refl _ _)) rfl⟩
  case step =>
    intro h time off s b hd ht
    have e := (command_tim b (runTimeStep false time off)).trans
      (runTimeStep_accepted off _ (by rwa [beginState_tim]) ht)
    rw [modTim_own, beginState_tim] at e
    have F := command_frame b (execTimeSetStep_keeps (Only.allows (timeEventParts + 2 ^ 4 + 2 ^ 24) s) rfl h false time off s
      (Only.refl _ s) _ rfl)
    refine ⟨_, rfl, ?_, ?_, ?_, ?_, ?_, F⟩
    all_goals rw [e]; rfl
  case mark =>
    intro h s b hd hh
    have F := command_frame b (execTimeSetMarkTraceable_keeps (Only.allows (timeEventParts + 2 ^ 4) s) rfl h s
      (Only.refl _ s) _ rfl)
    refine ⟨_, rfl, ?_, F⟩
    rw [command_tim b, runMarkTraceable_tim (by rwa [beginState_tim]) (by rwa [beginState_tim]), beginState_tim]
  case tout =>
    intro h c s b ho he hp hl hs
    have hr := runTout_oneShot (s := beginState s (.timeSetTout h c) h.ring) ho he hp hl
      (by rwa [fxNow_congr (beginState_tim ..)]) (h.ring, (ring s h.ring).begun)
    have ht := (command_tim b (runTout c)).trans (congrArg State.tim hr)
    refine ⟨_, rfl, (toutNewOf_congr ht _).trans (toutNewOf_setToutNew_same ..), ?_,
      command_timFrame b (runTout_keeps (Only.allows _ _) rfl c _ _ (Only.refl _ _)) rfl⟩
    exact (toutOf_congr ht _).trans ((toutOf_armed ..).trans (toutOf_congr (beginState_tim ..) _))
  case peer =>
    intro h port delay s b hp hl hd
    have hr := runPeerDelay_stores (s := beginState s (.timeSetPeerDelay h port delay) h.ring) hp (by rwa [beginState_part]) hd
      (h.ring, (ring s h.ring).begun)
    have ht := (command_tim b (runPeerDelay port delay)).trans (congrArg State.tim hr)
    rw [modTim_own, beginState_tim] at ht
    have F := command_timFrame b (runPeerDelay_keeps (Only.allows _ _) rfl port delay _ _ (Only.refl _ _)) rfl
    refine ⟨_, rfl, ?_, fun p hne => ?_, F.trans (by rw [ht])⟩
    · rw [ht, mget_mset_same]
    · rw [ht, mget_mset_ne _ _ hne.symm]
  case synce =>
    intro h o lane divider s b ho h4 hd hl hp hk
    have hr := runSynce_locked (s := beginState s (.timeSetSynce h o true lane divider) h.ring) ho h4 hd hl
      (by rwa [beginState_part]) (by rwa [laneLocked_congr (beginState_egs ..)]) (h.ring, (ring s h.ring).begun)
    rw [beginState_now] at hr
    have ht := (command_tim b (runSynce o true lane divider)).trans (congrArg State.tim hr)
    have F := command_timFrame b (run := runSynce o true lane divider)
      (hr ▸ setSynce_keeps (Only.allows _ _) rfl o _ _ (Only.refl _ _)) rfl
    refine ⟨_, rfl, (synceOf_congr ht o).trans (synceOf_setSynce_same ..), fun p hne => ?_, F.trans ?_⟩
    · exact (synceOf_congr ht p).trans ((synceOf_setSynce_ne hne ..).trans (synceOf_congr (beginState_tim ..) p))
    · rw [setSynce, modTim_own, beginState_tim] at ht
      rw [ht]

end Sys2Proof.Proofs
end

section
/-! The time unit's events: TREF and holdover, the edges of TOUT and TIN, the SyncE outputs (R357–R359, R378, R380, R381). -/

namespace Sys2Proof.Proofs

open Sys2Proof.Machine Sys2Proof.Laws

/-! ### TREF and holdover (R357–R359) -/

theorem trefLoss_ok {s : State} (h : s.tim.trefOk = true) : trefLoss s = raise 0x030 evTimTrefLost 0 0 0 0 (cntInc 0x0A81 0 11
    (modTim (fun t => { t with
      trefOk := false, locked := false, holdover := true, holdAt := if t.holdover then t.holdAt else s.now }) s)) :=
  if_neg (by simp [h])

/-- Lock reached in holdover: the state before the event is raised. -/
def relocked (s : State) : State := modTim (fun t => { t with locked := true }) (endHoldover s)

theorem pllLock_relocks {s : State} (hr : s.tim.trefOk = true) (hl : s.tim.locked = false) (hh : s.tim.holdover = true) :
    pllLock s = raise 0x030 evTimHoldoverExit 0 0 0 0 (relocked s) := by
  unfold pllLock
  simp only [hr, hl, hh, Bool.not_true, Bool.or_false, Bool.false_eq_true, if_false, if_true]
  rfl

theorem relocked_tim {s : State} (hh : s.tim.holdover = true) :
    (relocked s).tim = { s.tim with locked := true, holdover := false, holdMs := 0 } := by
  rw [relocked, endHoldover, modTim_own, modTim_own, countHoldover, if_pos hh, cntAdd_tim, modTim_own]

theorem relocked_frame (s : State) : relocked s = { s with tim := (relocked s).tim, cnt := (relocked s).cnt } := by
  have H : Only (2 ^ 11 + 2 ^ 25) s (relocked s) :=
    modTim_keeps (Only.allows _ s) rfl _ _ (endHoldover_keeps (Only.allows _ s) rfl s (Only.refl _ s))
  exact eq_mix_of_only H

theorem loseTraceable_traceable {s : State} (h : s.tim.traceable = true) : loseTraceable s
    = raise 0x030 evTimTraceableLost 0 0 0 0 (modTim (fun t => { t with traceable := false }) s) := if_pos h

theorem holdoverLimit_due {s : State} (hh : s.tim.holdover = true) (hl : cfg s .timCfg 31 16 ≠ 0)
    (hd : s.tim.holdAt + cfg s .timCfg 31 16 * 10 ^ 12 ≤ s.now) : holdoverLimit s = loseTraceable s := if_pos ⟨hh, hl, hd⟩

/-! ### TOUT edges (R378) -/

/-- An output of the eight is driven to the level that its polarity gives. -/
theorem drive_level {o : Nat} (h : o < 8) (low active : Bool) (s : State) :
    (drive o low active s).tim.toutLevel.testBit o = (active != low) := by
  have hm : (0xFF : Nat).testBit o = true := by
    rw [show (0xFF : Nat) = 2 ^ 8 - 1 from rfl, Nat.testBit_two_pow_sub_one, decide_eq_true h]
  unfold drive
  extract_lets level
  rw [modTim_own]
  dsimp only
  split
  · next e => rw [Nat.testBit_or, Nat.testBit_two_pow_self, Bool.or_true, ← e]
  · next e => rw [Nat.testBit_and, Nat.testBit_xor, hm, Nat.testBit_two_pow_self, Bool.xor_self, Bool.and_false,
      ← Bool.eq_false_of_not_eq_true e]

/-- A leading edge: the output is driven active, and its trailing edge is due after its width. -/
def pulseBegun (o : Nat) (p : Tout) (s : State) : State :=
  setTout o (some { p with leading := false, started := true, next := p.next + p.width * 2 ^ 16 }) (drive o p.low true s)

theorem toutDrive_leading {o : Nat} {p : Tout} (h : p.leading = true) (s : State) : toutDrive o p s
    = if p.started then pulseBegun o p s else raise 0x031 evTimToutStart o 0 0 0 (pulseBegun o p s) := if_pos h

theorem toutDrive_leading_tim {o : Nat} {p : Tout} (h : p.leading = true) (s : State) :
    (toutDrive o p s).tim = (pulseBegun o p s).tim := by
  rw [toutDrive_leading h]
  split
  · rfl
  · exact raise_tim ..

theorem toutEdge_due {o : Nat} {p : Tout} {s : State} (h : toutOf s o = some p) (hn : toutNewOf s o = none)
    (hd : p.next ≤ fxNow s) : toutEdge o s = toutDrive o p s := by
  unfold toutEdge
  simp [h, hn, Option.filter, hd]

/-! ### TIN edges (R380) -/

/-- A capture: its time is kept, and the input's captures are counted. -/
def captured (i : Nat) (s : State) : State :=
  cntInc 0x0A81 0 9 (modTim (fun t => { t with
    tin := mset none t.tin i (some s.now), tinSeq := mset 0 t.tinSeq i ((mget 0 s.tim.tinSeq i + 1) % 2 ^ 16) }) s)

theorem captured_tin (i : Nat) (s : State) : mget none (captured i s).tim.tin i = some s.now := by
  rw [captured, cntInc_tim, modTim_own, mget_mset_same]

theorem captured_tinSeq (i : Nat) (s : State) :
    mget 0 (captured i s).tim.tinSeq i = (mget 0 s.tim.tinSeq i + 1) % 2 ^ 16 := by
  rw [captured, cntInc_tim, modTim_own, mget_mset_same]

theorem tinEdge_captures {i : Nat} {f : Bool} {t0 : Nat} {s : State} (hi : i < 4)
    (hs : bit (cfg s .timTinCfg (2 * i + 1) (2 * i)) (b2n f) = true) (h0 : mget none s.tim.tin i = some t0)
    (ht : t0 + 100000 ≤ s.now) : tinEdge i f s
      = raise (0x034 + i) evTimCapture (stampParams (stampNow s)).1 (stampParams (stampNow s)).2.1 (stampParams (stampNow s)).2.2
          (i + 16 * b2n f + mget 0 s.tim.tinSeq i * 2 ^ 16) (captured i s) := by
  have hs' : bit (cfg s .timTinCfg (2 * i + 1) (2 * i)) (if f then 1 else 0) = true := hs
  unfold tinEdge
  rw [if_neg (Nat.not_le.mpr hi)]
  extract_lets sel late sq u
  have hl : late = true := by simp only [late, h0, ht, decide_true]
  rw [if_neg (by simp [sel, hs']), if_neg (by simp [hl])]
  rfl

/-! ### SyncE outputs (R381) -/

theorem synceLaneLoss_squelches {o : Nat} {s : State} (he : (synceOf s o).enabled = true) (hs : (synceOf s o).squelched = false) :
    synceLaneLoss o s = squelch o s := by
  unfold synceLaneLoss
  simp only [he, hs, Bool.not_true, Bool.false_eq_true, if_false]

theorem synceUnsquelch_ends {o : Nat} {s : State} (he : (synceOf s o).enabled = true) (hs : (synceOf s o).squelched = true)
    (hl : laneLocked s (synceOf s o).lane = true) (ht : (synceOf s o).since + 10 ^ 11 ≤ s.now) :
    synceUnsquelch o s = setSynce o { synceOf s o with squelched := false } s :=
  if_pos (by simp only [he, hs, hl, ht, decide_true, Bool.and_self])

/-! ### The claim -/

/-- Settles O2: each row is the branch of its operation that its clause names. -/
theorem timeUnitEvents : Obligations.TimeUnitEvents := by
  refine ⟨fun s h => congrArg _ (trefLoss_ok h), fun s => rfl, ?lock,
    fun s hh hl hd ht => congrArg _ ((holdoverLimit_due hh hl hd).trans (loseTraceable_traceable ht)),
    ?tout, ?tin, ?loss, ?unsquelch⟩
  case lock =>
    intro s hr hl hh
    exact ⟨relocked s, congrArg _ (pllLock_relocks hr hl hh), relocked_tim hh, relocked_frame s⟩
  case tout =>
    intro s o p ho h hn hd hl
    have hbegun := (congrArg State.tim (toutEdge_due h hn hd)).trans (toutDrive_leading_tim hl s)
    have F : toutEdge o s = { s.eventsOf (toutEdge o s) with tim := (toutEdge o s).tim } :=
      eq_mix_of_only (toutEdge_keeps (Only.allows timeEventParts s) rfl o s (Only.refl _ s))
    refine ⟨_, rfl, ?_, (toutOf_congr hbegun o).trans (toutOf_setTout_same ..), F.trans (by rw [hbegun]; rfl)⟩
    rw [hbegun]
    exact (drive_level ho p.low true s).trans (Bool.true_xor p.low)
  case tin =>
    intro s i f t0 hi hs h0 ht
    exact ⟨captured i s, congrArg _ (tinEdge_captures hi hs h0 ht), captured_tin i s, captured_tinSeq i s, rfl⟩
  case loss =>
    intro s o he hs
    exact ⟨_, congrArg Host.Outcome.next (synceLaneLoss_squelches he hs), synceOf_setSynce_same .., rfl⟩
  case unsquelch =>
    intro s o he hs hl ht
    exact ⟨_, congrArg Host.Outcome.next (synceUnsquelch_ends he hs hl ht), synceOf_setSynce_same .., rfl⟩

end Sys2Proof.Proofs
end

section
/-! What a check of the single-fault guarantee leaves (R430): it writes the parts that events are kept in. And what a register
holds after the device writes one. -/

namespace Sys2Proof.Proofs

open Sys2Proof.Machine Sys2Proof.Laws

theorem guardCheck_only (s : State) : Only eventParts s (guardCheck s) :=
  guardCheck_keeps (Only.allows eventParts s) rfl s (Only.refl _ s)

@[simp] theorem guardCheck_part (s : State) : (guardCheck s).part = s.part := (guardCheck_only s).part rfl
@[simp] theorem guardCheck_now (s : State) : (guardCheck s).now = s.now := (guardCheck_only s).now rfl
@[simp] theorem guardCheck_regs (s : State) : (guardCheck s).regs = s.regs := (guardCheck_only s).regs rfl
@[simp] theorem guardCheck_hbm (s : State) : (guardCheck s).hbm = s.hbm := (guardCheck_only s).hbm rfl
@[simp] theorem guardCheck_cus (s : State) : (guardCheck s).cus = s.cus := (guardCheck_only s).cus rfl
@[simp] theorem guardCheck_lcs (s : State) : (guardCheck s).lcs = s.lcs := (guardCheck_only s).lcs rfl
@[simp] theorem guardCheck_pwr (s : State) : (guardCheck s).pwr = s.pwr := (guardCheck_only s).pwr rfl

/-- A register read back after the device writes one of the same reset value. -/
theorem stored_putReg {q r : Reg} (h : resetOf q = resetOf r) (v : Word) (s : State) :
    stored (putReg r v s) q = if regAddr r = regAddr q then v else stored s q := by
  unfold stored putReg
  rw [h]
  exact mget_mset ..

end Sys2Proof.Proofs
end

section
/-! The register map (R535 to R538): each array of registers stands where its registers' addresses say. -/

namespace Sys2Proof.Proofs

open Sys2Proof.Machine

/-- An array of registers stands at the addresses of its registers. -/
def Placed (e : Nat × Nat × Nat × (Nat → Reg)) : Prop := ∀ i < e.2.2.1, regAddr (e.2.2.2 i) = e.1 + e.2.1 * i

theorem placed_one {a : Nat} {r : Reg} (h : regAddr r = a) : Placed (one a r) := by
  intro i hi
  rw [Nat.lt_one_iff.mp hi]
  exact h

theorem regAddr_of_inArr {a b st n i : Nat} {f : Nat → Reg} (hp : Placed (b, st, n, f)) (h : inArr a b st n = some i) :
    regAddr (f i) = a := by
  unfold inArr at h
  split at h
  · next hc =>
    obtain ⟨hle, hmod, hlt⟩ := hc
    cases h
    have hdiv := Nat.div_add_mod (a - b) st
    rw [hp _ hlt]
    dsimp only
    omega
  · cases h

theorem regAddr_of_pickArr {a : Nat} {r : Reg} : ∀ {l : List (Nat × Nat × Nat × (Nat → Reg))}, (∀ e ∈ l, Placed e) →
    pickArr a l = some r → regAddr r = a := by
  intro l hl h
  induction l with
  | nil => cases h
  | cons e l ih =>
    obtain ⟨b, st, n, f⟩ := e
    rw [List.forall_mem_cons] at hl
    unfold pickArr at h
    split at h
    · next i hi =>
      cases h
      exact regAddr_of_inArr hl.1 hi
    · exact ih hl.2 h

/-! ### The blocks -/

theorem hi4_false : hi4 false = 0 := rfl

theorem hi4_true : hi4 true = 4 := rfl

theorem blockRegs_placed : ∀ e ∈ lcsRegs ++ pwrRegs ++ hifRegs ++ midRegs ++ memRegs, Placed e := by
  simp only [lcsRegs, pwrRegs, hifRegs, midRegs, memRegs, List.forall_mem_append, List.forall_mem_flatMap,
    List.forall_mem_cons, List.not_mem_nil, IsEmpty.forall_iff, implies_true, and_true]
  repeat' first
    | refine And.intro ?_ ?_
    | intro i hi
  all_goals
    unfold regAddr
    dsimp only [one, hi4_false, hi4_true, linkNo] at hi ⊢ <;> omega

theorem dieRegs_placed (d : Nat) : ∀ e ∈ dieRegs d, Placed e := by
  have hmaster : ∀ e ∈ (if d = 0 then [one (dieBase d + 0x140360) .tskRollout, one (dieBase d + 0x140364) .tskRolloutCl]
      else []),
      Placed e := by
    split
    · next hd =>
      subst hd
      simp only [List.forall_mem_cons, List.not_mem_nil, IsEmpty.forall_iff, implies_true, and_true]
      exact ⟨placed_one rfl, placed_one rfl⟩
    · exact List.forall_mem_nil _
  simp only [dieRegs, upTo, List.forall_mem_append, List.forall_mem_map, List.mem_range, List.forall_mem_cons,
    List.not_mem_nil, IsEmpty.forall_iff, implies_true, and_true]
  refine ⟨?_, hmaster⟩
  repeat' first
    | refine And.intro ?_ ?_
    | intro i hi
  all_goals
    unfold regAddr
    unfold dieBase
    dsimp only [one] at hi ⊢ <;> omega

/-! ### The claim -/

theorem regAddr_of_regAt {a : Nat} {r : Reg} (h : regAt a = some r) : regAddr r = a := by
  have hb := blockRegs_placed
  simp only [List.forall_mem_append] at hb
  obtain ⟨⟨⟨⟨hlcs, hpwr⟩, hhif⟩, hmid⟩, hmem⟩ := hb
  simp only [regAt] at h
  split_ifs at h
  · exact regAddr_of_pickArr hlcs h
  · exact regAddr_of_pickArr hpwr h
  · exact regAddr_of_pickArr hhif h
  · exact regAddr_of_pickArr hmid h
  · exact regAddr_of_pickArr hmem h
  · exact regAddr_of_pickArr (dieRegs_placed _) h

theorem word_aligned_of_regAt {a : Nat} {r : Reg} (h : regAt a = some r) : a % 4 = 0 := by
  by_contra hn
  rw [regAt, if_pos hn] at h
  cases h

/-- Settles O43: every array of the map stands where its registers' addresses say, so that an address is that of the register it
reaches, and a register's address is one. -/
theorem registerMapHasOneAddress : Obligations.RegisterMapHasOneAddress :=
  ⟨fun _ _ h => ⟨regAddr_of_regAt h, word_aligned_of_regAt h⟩,
    fun _ _ _ ha hb => (regAddr_of_regAt ha).symm.trans (regAddr_of_regAt hb)⟩

end Sys2Proof.Proofs
end

section
/-! Resets and start-up (R390, R423, R436, R497 to R499, R509, R511, R512, R531): what a reset leaves, and what the release of
reset, the end of training and readiness do. -/

namespace Sys2Proof.Proofs

open Sys2Proof.Machine Sys2Proof.Laws

/-! ### The reset state (R436, R497) -/

/-- Settles O39: at reset each of the four lists nothing, and the empty list is canonical. -/
theorem resetMemoriesCanonical : Obligations.ResetMemoriesCanonical :=
  ⟨⟨rfl, rfl, rfl, rfl⟩, rfl, rfl, rfl, rfl⟩

/-! ### Resets (R423, R497 to R499) -/

theorem keptMem_none (s : State) : keptMem s (fun _ => false) = [] := by
  unfold keptMem
  rw [← drop_all s.mem]
  congr 1
  funext c
  cases (logicalRank c.1).bind (rankOf s) <;> rfl

theorem mirrorKept_none (s : State) : mirrorKept s (fun _ => false) = false := by
  unfold mirrorKept
  rw [List.any_eq_false]
  intro m _
  cases rankOf s m <;> simp

theorem chipReset_resets (kind : Nat) {s : State} (h : s.pwr.thermtrip = false) :
    chipReset kind s = resetDevice kind (retains s) s := by
  unfold chipReset
  rw [h]
  rfl

theorem chipReset_stopped (kind : Nat) {s : State} (h : s.pwr.thermtrip = true) : chipReset kind s = s := if_pos h

/-! ### Start-up (R509) -/

theorem bootRecord_pwr (s : State) : (bootRecord s).pwr = { s.pwr with boots := s.flash.boots + 1 } := by
  unfold bootRecord
  extract_lets s1 s2 s3
  have h1 : s3.pwr = s1.pwr := by
    simp only [s3, raise_pwr, s2]
    split <;> rfl
  split
  · exact h1
  · rw [raise_pwr]
    exact h1

theorem dieLink_trainLinks {x : Nat} {s : State} (h : x ∈ linksOf s.part) : (dieLink (trainLinks s) x).up = true
    ∧ (dieLink (trainLinks s) x).laneOk = 2 ^ 17 - 1 ∧ (dieLink (trainLinks s) x).inUse = 16 := by
  unfold trainLinks
  refine each_each (fun x => modDieLink x fun l => { l with laneOk := 2 ^ 17 - 1, inUse := 16, up := true })
    (fun x t => (dieLink t x).up = true ∧ (dieLink t x).laneOk = 2 ^ 17 - 1 ∧ (dieLink t x).inUse = 16) _ _ (fun a _ t => ?_)
    (fun a _ b _ t h => ?_) x h
  · rw [dieLink_modDieLink]
    exact ⟨rfl, rfl, rfl⟩
  · by_cases e : b = a
    · subst e
      rw [dieLink_modDieLink]
      exact ⟨rfl, rfl, rfl⟩
    · rw [dieLink_modDieLink_ne e]
      exact h

/-- The parts that start-up writes between the boot record and its end. -/
abbrev loadParts : Nat := eventParts + 2 ^ 3 + 2 ^ 9 + 2 ^ 10 + 2 ^ 26 + 2 ^ 28 + 2 ^ 31

/-- The parts that the end of start-up writes: the custodians' self-test begins, or zeroisation does. -/
abbrev startEndParts : Nat := 12537215280 + 2 ^ 28

/-- s, out of reset and started, with a boot counted above n. -/
def bootedAt (n : Nat) (s : State) : State :=
  modPwr (fun p => { p with inReset := false, phase := .started, startAt := s.now, boots := n + 1 }) s

/-- Start-up trains the links of a state u whose boot is recorded and whose confirm time starts, and ends as its parts say. -/
theorem startUp_starts {bifur flashOk : Bool} {differ out : List Nat} {s : State} (hp : s.pwr.phase = .reset)
    (hr : s.pwr.inReset = true) : ∃ u : State, u.part = s.part ∧ u.ctimeBase = s.now
      ∧ u.pwr = (bootedAt s.flash.boots s).pwr
      ∧ Only startEndParts (trainLinks u) (startUp bifur flashOk differ out s) := by
  unfold startUp
  rw [if_neg (by simp [hp, hr])]
  extract_lets s1 s2 s3 s4 s5 s6 s7 s8 s9 s10
  have h4 : Only 1073741824 s4 (loadLifetime s4) :=
    loadLifetime_keeps (Only.allows 1073741824 s4) rfl s4 (Only.refl _ s4)
  have h5 : Only 14629738784 (loadLifetime s4) s5 :=
    bootRecord_keeps (Only.allows 14629738784 (loadLifetime s4)) rfl _ (Only.refl _ _)
  have hpwr : s5.pwr = (bootedAt s.flash.boots s).pwr := by
    rw [show s5 = bootRecord (loadLifetime s4) from rfl, bootRecord_pwr, h4.pwr rfl, h4.flash rfl]
    rfl
  have h8 : Only loadParts s5 s8 := by
    have A := Only.allows loadParts s5
    refine resumeMig_keeps A rfl _ (retainStacks_keeps A rfl out _ (loadMap_keeps A rfl s7 ?_))
    refine each_keeps _ _ (fun d t h => raise_keeps A rfl _ _ _ _ _ _ t h) s6 ?_
    exact renewNonce_keeps A rfl _ (compareCopies_keeps A rfl s5 (Only.refl _ s5))
  refine ⟨{ s8 with ctimeBase := s8.now, aligned := (dies s8.part).map fun d => (d, true) }, ?part, ?time, ?pwr, ?only⟩
  case only =>
    have A := Only.allows startEndParts s9
    have h10 : Only startEndParts s9 s10 := cntInc_keeps A rfl _ _ _ _ (modChk_keeps A rfl _ s9 (Only.refl _ s9))
    refine ite_keeps (beginZeroise_keeps A rfl _ (guardCheck_keeps A rfl s10 h10)) ?_
    exact guardCheck_keeps A rfl _ (setCusState_keeps A rfl _ _ _ (setCusState_keeps A rfl _ _ _ h10))
  case part => exact (h8.part rfl).trans ((h5.part rfl).trans (h4.part rfl))
  case time => exact (h8.now rfl).trans ((h5.now rfl).trans (h4.now rfl))
  case pwr => exact (h8.pwr rfl).trans hpwr

/-! ### The end of training (R511, R512) -/

/-- Every stack of l is trained. -/
def Trained (l : List Nat) (s : State) : Prop := ∀ d ∈ l, (stack s d).trained = true

theorem Trained.of {l : List Nat} {s t : State} (h : Trained l s) (e : t.hbm.hbms = s.hbm.hbms) : Trained l t := by
  intro d hd
  have := h d hd
  unfold stack at this ⊢
  rwa [e]

theorem Trained.modStack {l : List Nat} {s : State} (h : Trained l s) (d : Nat) {f : Stack → Stack}
    (k : ∀ x, (f x).trained = x.trained) : Trained l (modStack d f s) := by
  intro e he
  by_cases hde : d = e
  · subst hde
    rw [stack_modStack, k]
    exact h d he
  · rw [stack_modStack_ne hde]
    exact h e he

theorem trained_each_modStack (l : List Nat) (s : State) :
    Trained l (each l (fun d => modStack d fun k => { k with trained := true }) s) := by
  refine each_each _ (fun d t => (stack t d).trained = true) l s (fun a _ t => ?_) (fun a _ b _ t h => ?_)
  · rw [stack_modStack]
  · by_cases e : b = a
    · subst e
      rw [stack_modStack]
    · rw [stack_modStack_ne e]
      exact h

theorem Trained.migStackFails {l : List Nat} {s : State} (h : Trained l s) (d : Nat) : Trained l (migStackFails d s) := by
  unfold Machine.migStackFails
  split
  · next g _ =>
    split
    · unfold migFail endMig
      refine ((h.modStack (g.m / 3) (f := fun k => { k with outcome := 3, chunks := g.n, migF := g.f, migS := g.s })
        fun _ => rfl)).of ?_
      rw [raise_hbm]
      rfl
    · exact h
  · exact h

theorem Trained.stackFails {l : List Nat} {s : State} (h : Trained l s) (d : Nat) : Trained l (stackFails d s) := by
  unfold Machine.stackFails
  refine each_inv _ (Trained l) _ s (fun f _ t ht => ?_) h
  extract_lets u
  have hu : Trained l u := by
    simp only [u]
    split
    · exact ht.of rfl
    · exact ht
  split
  · exact hu
  · refine hu.of ?_
    rw [raise_hbm]
    rfl

/-- The phase and the warmth of a start. -/
def startOf (s : State) : Phase × Bool := (s.pwr.phase, s.pwr.warm)

theorem startOf_congr {s t : State} (h : t.pwr = s.pwr) : startOf t = startOf s := by
  unfold startOf
  rw [h]

theorem startOf_quarantineDie (d : Nat) (s : State) : startOf (quarantineDie d s) = startOf s := by
  unfold quarantineDie
  exact each_inv _ (fun t => startOf t = startOf s) _ s (fun _ _ _ h => h) rfl

theorem hbmTrainingEnd_trains {bad : List Nat} {s : State} (hp : s.pwr.phase = .started) :
    startOf (hbmTrainingEnd bad s) = (.trained, ((dies s.part).filter fun d => !bad.contains d).any fun d => (stack s d).retained)
      ∧ Trained ((dies s.part).filter fun d => !bad.contains d) (hbmTrainingEnd bad s) := by
  unfold hbmTrainingEnd
  rw [if_neg (by simp [hp])]
  extract_lets failed good s1 s2 s3 s4
  have h3 : Only (eventParts + 2 ^ 26) s1 s3 := by
    have A := Only.allows (eventParts + 2 ^ 26) s1
    refine each_keeps _ _ (fun d t h => ?_) s2 (each_keeps _ _ (fun d t h => modStack_keeps A rfl d _ t h) s1 (Only.refl _ s1))
    exact stackFails_keeps A rfl d _ (migStackFails_keeps A rfl d _ (modStack_keeps A rfl d _ t h))
  have hrebuild : ∀ l t, Only 132096 t (each l rebuildDie t) := fun l t =>
    each_keeps _ _ (fun d u h => rebuildDie_keeps (Only.allows 132096 t) rfl d u h) t (Only.refl _ t)
  constructor
  · have h4 : startOf s4 = startOf s3 := each_inv _ (fun t => startOf t = startOf s3) _ s3
      (fun d _ t ht => (startOf_quarantineDie d t).trans ht) rfl
    rw [startOf_congr (guardCheck_pwr _), startOf_congr ((hrebuild _ s4).pwr rfl), h4, startOf_congr (h3.pwr rfl)]
    rfl
  · have hs3 : Trained good s3 := by
      refine each_inv _ (Trained good) failed s2 (fun d _ t h => ?_) (trained_each_modStack good s1)
      have hlost := h.modStack d (f := fun k => { k with retained := false }) fun _ => rfl
      exact (hlost.migStackFails d).stackFails d
    have h4 : s4.hbm = s3.hbm :=
      (each_keeps _ _ (fun d t h => quarantineDie_keeps (Only.allows 4294967296 s3) rfl d t h) s3 (Only.refl _ s3)).hbm rfl
    refine hs3.of ?_
    rw [guardCheck_hbm, (hrebuild _ s4).hbm rfl, h4]

/-! ### Readiness and heat (R511, R531) -/

theorem startupReady_adopted {s : State} (hp : s.pwr.phase = .trained) (hz : s.lcs.zeroising = false) (ha : holdAdopted s = true) :
    startupReady s = raise 0x010 evPwrReady 0 0 0 0 (modPwr (fun p => { p with phase := .ready, readyMs := sinceStart s }) s) :=
  if_pos (by simp [hp, hz, ha])

theorem thermtrip_trips {d : Nat} {s : State} (hd : hasDie s.part d = true) (ht : 120 ≤ mget 0 s.pwr.temps d)
    (hn : s.pwr.thermtrip = false) : thermtrip d s
      = modPwr (fun p => { p with thermtrip := true, phase := .tripped }) (resetDevice 1 (fun _ => false) s) :=
  if_pos (by simp [hd, ht, hn])

/-! ### The claim -/

/-- Settles O5: a reset is the one state that resetDevice writes out; start-up, the end of training and readiness are followed
through their steps. -/
theorem resetsAndStartUp : Obligations.ResetsAndStartUp := by
  refine ⟨fun s => ?on, fun s h => ?pin, fun path s w h => ?reg, fun bifur flashOk differ out s hp hr => ?start,
    fun bad s hp => ?train,
    fun s hp hz ha => congrArg _ (startupReady_adopted hp hz ha), fun d s hd ht hn => ?trip⟩
  case on =>
    exact ⟨_, rfl, fun _ => rfl, fun _ _ _ => rfl, keptMem_none s, by simp [powerOn, resetDevice, mirrorKept_none],
      rfl, rfl, rfl, rfl,
      rfl, rfl, rfl, rfl, rfl, rfl, rfl⟩
  case pin =>
    exact ⟨_, congrArg Host.Outcome.next (chipReset_resets 1 h),
      fun _ => rfl, fun _ _ _ => rfl, rfl, rfl, rfl, rfl, rfl, rfl, rfl, rfl, rfl, rfl, rfl, rfl,
      rfl⟩
  case reg =>
    have e : exec (.chipResetRegister path) s = .next (resetDevice 2 (retains s) s) := by
      refine congrArg _ ((regWrite_writable 1 w).trans ?_)
      rw [busWrite_chipReset, chipReset_resets 2 h]
    exact ⟨_, e, fun _ => rfl, fun _ _ _ => rfl, rfl, rfl, rfl, rfl, rfl, rfl, rfl, rfl, rfl, rfl, rfl, rfl, rfl⟩
  case start =>
    obtain ⟨u, hpart, htime, hpwr, o⟩ :=
      startUp_starts (bifur := bifur) (flashOk := flashOk) (differ := differ) (out := out) hp hr
    have hlinks := trainLinks_keeps (Only.allows 8388608 u) rfl u (Only.refl _ u)
    have hpwr' := (o.pwr rfl).trans ((hlinks.pwr rfl).trans hpwr)
    refine ⟨_, rfl, ?_, ?_, ?_, ?_, (o.ctimeBase rfl).trans ((hlinks.ctimeBase rfl).trans htime), fun x hx => ?_⟩
    case refine_5 =>
      have := dieLink_trainLinks (x := x) (s := u) (by rwa [hpart])
      unfold dieLink at this ⊢
      rwa [o.fab rfl]
    all_goals
      rw [hpwr']
      rfl
  case train =>
    obtain ⟨hstart, htrained⟩ := hbmTrainingEnd_trains (bad := bad) hp
    refine ⟨_, rfl, congrArg Prod.fst hstart, fun d hd hb => htrained d (List.mem_filter.mpr ⟨hd, by rw [hb]; rfl⟩),
      congrArg Prod.snd hstart⟩
  case trip =>
    exact ⟨_, congrArg Host.Outcome.next (thermtrip_trips hd ht hn), rfl, rfl, keptMem_none s, fun _ => rfl, rfl,
      congrArg _ (chipReset_stopped 1 rfl)⟩

end Sys2Proof.Proofs
end

section
/-! The HBM controllers: accesses, refresh, temperature, scrub and probe, and the migration and preparation of ranks
(R401, R402, R404, R408, R411, R412, R415, R417, R432, R531). -/

namespace Sys2Proof.Proofs

open Sys2Proof.Machine Sys2Proof.Laws

/-! ### Stacks and ranks -/

theorem stack_congr {s t : State} (h : t.hbm = s.hbm) (d : Nat) : stack t d = stack s d := by
  unfold stack
  rw [h]

theorem stack_cntInc (o u e : Nat) (s : State) (d : Nat) : stack (cntInc o u e s) d = stack s d := rfl

theorem rankSt_congr {s t : State} (h : t.hbm = s.hbm) (f : Nat) : rankSt t f = rankSt s f := by
  unfold rankSt
  rw [h]

theorem rankSt_setRank (f st : Nat) (s : State) : rankSt (setRank f st s) f = st := mget_mset_same ..

theorem rankSt_setRank_ne {f g : Nat} (h : f ≠ g) (st : Nat) (s : State) : rankSt (setRank f st s) g = rankSt s g :=
  mget_mset_ne _ _ h _

/-! ### Accesses (R404) -/

theorem hbmAccess_refresh {d : Nat} {b : Nat × Nat} {s : State} (e : Ecc) (hd : hasDie s.part d = true)
    (hb : (stack s d).postponed.find? (fun b => 8 ≤ b.2) = some b) : hbmAccess d e s
      = cntInc 0x0B81 d 5 (modStack d (fun k => { k with postponed := mset 0 k.postponed b.1 (b.2 - 1) }) s) := by
  unfold hbmAccess
  rw [if_neg (by simp [hd]), hb]

/-- An access whose read is clean: its request leaves the port. -/
theorem hbmAccess_clean {d p f : Nat} {q : HbmReq} {r : List HbmReq} {s u : State} (hd : hasDie s.part d = true)
    (hb : (stack s d).postponed.find? (fun b => 8 ≤ b.2) = none) (hn : portNext d s = (some p, u))
    (hq : mget [] (stack u d).ports p = q :: r) (hf : reqRankAt u d q = some f) : hbmAccess d .clean s
      = popPort d p (modStack (f / 3) (fun k => { k with retries := 0 })
          (modStack d (fun k => { k with sent := some (dramAt u f q.addr) }) u)) := by
  unfold hbmAccess
  rw [if_neg (by simp [hd]), hb]
  simp [hn, hq, hf, readFinds]

theorem ports_countPanic (d : Nat) (s : State) : (stack (countPanic d s) d).ports = (stack s d).ports := by
  unfold countPanic
  dsimp only
  split
  · rw [stack_modStack]
    rfl
  · rfl

theorem ports_panicCheck (d : Nat) (s : State) : (stack (panicCheck d s) d).ports = (stack s d).ports := by
  unfold panicCheck
  dsimp only
  split
  · rw [stack_modStack]
  · split
    · rw [stack_modStack]
      exact ports_countPanic d s
    · rfl

theorem ports_popPort (d p : Nat) (s : State) :
    mget [] (stack (popPort d p s) d).ports p = (mget [] (stack s d).ports p).drop 1 := by
  unfold popPort
  rw [ports_panicCheck, stack_modStack]
  exact mget_mset_same ..

theorem div_of_reqRankAt {s : State} {d f : Nat} {q : HbmReq} (h : reqRankAt s d q = some f) : f / 3 = d := by
  have := List.find?_some h
  simpa using this

/-! ### Refresh (R401, R402) -/

theorem hbmRefresh_due {d b : Nat} {s : State} (hd : hasDie s.part d = true)
    (ht : mget 0 (stack s d).refAt b + refreshPs (stack s d) ≤ s.now) (hp : (stack s d).panic = false) :
    hbmRefresh d b s = cntAdd 0x0B81 d 5 (mget 0 (stack s d).postponed b + 1)
      (modStack d (fun k => { k with postponed := mset 0 k.postponed b 0 })
        (modStack d (fun k => { k with refAt := mset 0 k.refAt b s.now }) s)) := by
  unfold hbmRefresh
  rw [if_neg (by simp [hd, ht])]
  simp [hp]

theorem hbmRefresh_postponed {d b : Nat} {s : State} (hd : hasDie s.part d = true)
    (ht : mget 0 (stack s d).refAt b + refreshPs (stack s d) ≤ s.now) (hp : (stack s d).panic = true)
    (hn : mget 0 (stack s d).postponed b < 8) : hbmRefresh d b s
      = cntInc 0x0B81 d 6 (modStack d (fun k => { k with postponed := mset 0 k.postponed b (mget 0 (stack s d).postponed b + 1) })
        (modStack d (fun k => { k with refAt := mset 0 k.refAt b s.now }) s)) := by
  unfold hbmRefresh
  rw [if_neg (by simp [hd, ht])]
  simp [hp, hn]

theorem hbmRefresh_early {d b : Nat} {s : State} (h : s.now < mget 0 (stack s d).refAt b + refreshPs (stack s d)) :
    hbmRefresh d b s = s := if_pos (by simp [h])

/-! ### Temperature (R401, R531) -/

theorem hbmTempRead_early {d x : Nat} {s : State} (h : s.now < (stack s d).tempAt + 10 ^ 9) : hbmTempRead d x s = s :=
  if_pos (by rw [decide_eq_true h, Bool.or_true])

theorem hbm_thermCheck (w : Nat) (r h : Int) (s : State) : (thermCheck w r h s).hbm = s.hbm := rfl

theorem countFast_temp (d : Nat) (s : State) : (stack (countFast d s) d).temp = (stack s d).temp := by
  unfold countFast
  dsimp only
  split
  · rw [stack_modStack]
    rfl
  · rfl

theorem countFast_regs (d : Nat) (s : State) : (countFast d s).regs = s.regs :=
  (countFast_keeps (Only.allows 67110912 s) rfl d s (Only.refl _ s)).regs rfl

/-- What a reading leaves of a stack: the reading, whether it is above the alarm, and above 85 the doubled refresh. -/
theorem hbmTempRead_reads {d x : Nat} {s : State} (hd : hasDie s.part d = true) (ht : (stack s d).tempAt + 10 ^ 9 ≤ s.now) :
    (stack (hbmTempRead d x s) d).temp = x % 256
      ∧ (stack (hbmTempRead d x s) d).hot = decide (cfg s (.hbmTempCfg d) 7 0 < x % 256)
      ∧ (85 < x % 256 → (stack (hbmTempRead d x s) d).refresh2x = true) := by
  unfold hbmTempRead
  rw [if_neg (by simpa [hd] using ht)]
  extract_lets t s1 s2 alarm was s3 s4
  have h1 : (stack s1 d).temp = t ∧ s1.regs = s.regs := ⟨by rw [stack_modStack], rfl⟩
  have h2 : ((stack s2 d).temp = t ∧ s2.regs = s.regs) ∧ (85 < t → (stack s2 d).refresh2x = true) := by
    clear_value s1
    simp only [s2]
    split
    · split
      · next hr => exact ⟨by rwa [stack_modStack], fun _ => by rwa [stack_modStack]⟩
      · exact ⟨by rwa [stack_modStack], fun _ => by rw [stack_modStack]⟩
    · next hcool =>
      refine ⟨?_, fun h => absurd h hcool⟩
      split
      · split
        · rwa [stack_modStack]
        · split
          · rw [stack_modStack]
            exact ⟨(countFast_temp d s1).trans h1.1, (countFast_regs d s1).trans h1.2⟩
          · exact h1
      · rwa [stack_modStack]
  obtain ⟨⟨htemp, hregs⟩, hfast⟩ := h2
  have h4 : (stack (guardCheck (thermCheck (4 + d) (Int.ofNat t) (Int.ofNat alarm) s4)) d)
      = { stack s2 d with hot := decide (alarm < t) } := by
    have h : s4.hbm = s3.hbm := by
      simp only [s4]
      split
      · exact raise_hbm ..
      · rfl
    rw [stack_congr (guardCheck_hbm _), stack_congr (hbm_thermCheck ..), stack_congr h, stack_modStack]
  rw [h4, show cfg s (.hbmTempCfg d) 7 0 = alarm from (cfg_congr hregs ..).symm]
  exact ⟨htemp, rfl, hfast⟩

/-! ### Scrub and probe (R408, R432) -/

theorem patrolScrub_early {d k : Nat} {e : Ecc} {s : State} (h : s.now < mget 0 (stack s d).scrubAt k + patrolPs s d) :
    patrolScrub d k e s = s :=
  if_neg (by rw [decide_eq_false (Nat.not_le.mpr h), Bool.and_false]; exact Bool.false_ne_true)

theorem rankProbe_early {d k : Nat} {e : Ecc} {s : State} (h : s.now < mget 0 (stack s d).probeAt k + 10 ^ 12) :
    rankProbe d k e s = s :=
  if_neg (by rw [decide_eq_false (Nat.not_le.mpr h), Bool.and_false]; exact Bool.false_ne_true)

theorem patrolScrub_clean {d k : Nat} {s : State} (hd : hasDie s.part d = true) (hk : k < 3) (ha : holdAdopted s = true)
    (hp : (stack s d).panic = false) (hr : rankSt s (3 * d + k) ∈ [0, 1, 2, 6])
    (ht : mget 0 (stack s d).scrubAt k + patrolPs s d ≤ s.now) :
    mget 0 (stack (patrolScrub d k .clean s) d).scrub k = (mget 0 (stack s d).scrub k + 1) % rankBlocks := by
  unfold patrolScrub
  extract_lets f st
  have hst : (decide (st = 0) || decide (st = 1) || decide (st = 2) || decide (st = 6)) = true := by
    simpa [or_assoc] using hr
  rw [if_pos (by simp only [hd, hk, ha, hp, hst, ht, decide_true, Bool.not_false, Bool.and_self])]
  simp only [readFinds, Bool.not_true, Bool.false_eq_true, if_false]
  split
  · rw [stack_cntInc, stack_modStack]
    exact mget_mset_same ..
  · rw [stack_modStack]
    exact mget_mset_same ..

theorem rankProbe_clean {d k : Nat} {s : State} (hd : hasDie s.part d = true) (hk : k < 3) (h4 : rankSt s (3 * d + k) ≠ 4)
    (h7 : rankSt s (3 * d + k) ≠ 7) (ht : mget 0 (stack s d).probeAt k + 10 ^ 12 ≤ s.now) :
    mget 0 (stack (rankProbe d k .clean s) d).probe k = (mget 0 (stack s d).probe k + 1) % rankBlocks := by
  unfold rankProbe
  extract_lets f st
  have hst : (!(decide (st = 4) || decide (st = 7))) = true := by simp [st, f, h4, h7]
  rw [if_pos (by simp only [hd, hk, hst, ht, decide_true, Bool.and_self])]
  simp only [readFinds, if_true]
  rw [stack_modStack]
  exact mget_mset_same ..

/-! ### Migration (R411, R412, R415) -/

theorem startMig_mig (m f sp : Nat) (failure : Bool) (s : State) :
    (startMig m f sp failure s).hbm.mig = some ⟨m, f, sp, 0, failure, false, false, s.now⟩ := by
  unfold startMig
  rw [guardCheck_hbm, raise_hbm]
  rfl

theorem tryMigrate_running {s : State} (h : s.hbm.mig.isSome = true) : tryMigrate s = s := if_pos h

theorem tryMigrate_asked {m f sp : Nat} {s : State} (hm : s.hbm.mig = none) (hs : spareRank s = some sp)
    (hn : ((upTo 12).find? fun f => decide (rankSt s f = 6) && (heldBy s f).isSome) = none) (hw : s.hbm.want = some m)
    (hf : rankOf s m = some f) (hr : rankSt s f = 0) :
    tryMigrate s = startMig m f sp false (modHbm (fun h => { h with want := none }) s) := by
  have hf' : rankOf (modHbm (fun h => { h with want := none }) s) m = some f := hf
  have hr' : rankSt (modHbm (fun h => { h with want := none }) s) f = 0 := hr
  unfold tryMigrate
  simp only [hm, hs, hn, hw, hf', hr', Option.isSome_none, Bool.false_eq_true, if_false, if_true]

/-- A request of a migration that nothing holds back starts it. -/
theorem wantMig_starts {m f sp : Nat} {s : State} (hm : s.hbm.mig = none) (hf : rankOf s m = some f) (hr : rankSt s f = 0)
    (hn : ((upTo 12).find? fun f => decide (rankSt s f = 6) && (heldBy s f).isSome) = none) (hs : spareRank s = some sp) :
    (wantMig m s).hbm.mig = some ⟨m, f, sp, 0, false, false, false, s.now⟩ := by
  unfold wantMig
  rw [if_neg (by simp [hm, hf]),
    tryMigrate_asked (s := modHbm (fun h => { h with want := some m }) s) (m := m) hm hs hn rfl hf hr, startMig_mig]
  rfl

theorem wantMig_running {m : Nat} {s : State} (h : s.hbm.mig.isSome = true) : wantMig m s = s := if_pos (.inl h)

theorem or_and_three {v c : Word} (h : c &&& 3 = 0) : (v ||| c) &&& 3 = v &&& 3 := by
  rw [BitVec.and_or_distrib_right, h]
  exact BitVec.or_zero

theorem busWrite_migStart {path : Path} {d f sp : Nat} {v : Word} {s : State} (hv : v &&& 3 ≠ 3) (hm : s.hbm.mig = none)
    (hf : rankOf s (3 * d + (v &&& 3).toNat) = some f) (hr : rankSt s f = 0)
    (hn : ((upTo 12).find? fun f => decide (rankSt s f = 6) && (heldBy s f).isSome) = none) (hs : spareRank s = some sp) :
    ∃ g, (busWrite path (.hbmMigCtrl d) (v ||| 0x80000000) s).hbm.mig = some g
      ∧ g.m = 3 * d + (v &&& 3).toNat ∧ g.f = f ∧ g.s = sp
      ∧ g.n = 0 := by
  have h3 : (v ||| 0x80000000) &&& 3 = v &&& 3 := or_and_three (by decide)
  have h31 : (v ||| 0x80000000).getLsbD 31 = true := by
    rw [BitVec.getLsbD_or]
    exact Bool.or_true _
  have hw := wantMig_starts (s := putReg (.hbmMigCtrl d) (v &&& 3) s) hm hf hr hn hs
  simp only [busWrite, migCtrlWrite, h3, h31, hv, ne_eq, not_false_eq_true, and_self, if_true]
  split
  · rw [hw]
    dsimp only
    split
    · exact ⟨_, rfl, rfl, rfl, rfl, rfl⟩
    · exact ⟨_, hw, rfl, rfl, rfl, rfl⟩
  · exact ⟨_, hw, rfl, rfl, rfl, rfl⟩

theorem busWrite_migAbort {path : Path} {d : Nat} {v : Word} {g : Mig} {s : State} (hm : s.hbm.mig = some g) (hd : g.m / 3 = d)
    (hf : g.failure = false) :
    (busWrite path (.hbmMigCtrl d) (v ||| 0x40000000) s).hbm.mig = some { g with abort := true } := by
  have h30 : (v ||| 0x40000000).getLsbD 30 = true := by
    rw [BitVec.getLsbD_or]
    exact Bool.or_true _
  have hw : ∀ m, wantMig m (putReg (.hbmMigCtrl d) ((v ||| 0x40000000) &&& 3) s)
      = putReg (.hbmMigCtrl d) ((v ||| 0x40000000) &&& 3) s :=
    fun m => wantMig_running (by rw [show (putReg _ _ s).hbm.mig = some g from hm]; rfl)
  have hm' : (putReg (.hbmMigCtrl d) ((v ||| 0x40000000) &&& 3) s).hbm.mig = some g := hm
  simp only [busWrite, migCtrlWrite, hw, ite_self, h30, hm', hd, hf, Bool.not_false, and_self, if_true]
  rfl

theorem migrationChunk_copies {g : Mig} {s : State} (hm : s.hbm.mig = some g) (ha : holdAdopted s = true)
    (ht : g.at_ + chunkPs s g ≤ s.now) (hn : g.n < 127) (hb : (g.abort && !g.failure) = false) :
    (migrationChunk [] false s).hbm.mig = some { g with n := g.n + 1, at_ := s.now } := by
  unfold migrationChunk
  simp only [hm, ha, Bool.not_true, Bool.false_eq_true, if_false, Nat.not_lt.mpr ht, List.filter_nil, ite_self, each_nil, hb,
    show g.n + 1 ≠ 128 by omega]
  rfl

/-! ### Failed and prepared ranks (R417) -/

/-- What a write of HBM_RANK_CTRL does for one rank. -/
def reenable (d : Nat) (v : Word) (k : Nat) (s : State) : State :=
  if v.getLsbD k ∧ rankSt s (3 * d + k) = 4 then setRank (3 * d + k) 5 s else s

theorem rankSt_reenable (d : Nat) {v : Word} {k : Nat} (hv : v.getLsbD k = true) (j : Nat) (s : State) :
    rankSt (reenable d v j s) (3 * d + k) = if j = k ∧ rankSt s (3 * d + k) = 4 then 5 else rankSt s (3 * d + k) := by
  unfold reenable
  by_cases e : j = k
  · subst e
    simp only [hv, true_and]
    split
    · exact rankSt_setRank ..
    · rfl
  · rw [if_neg (fun h : j = k ∧ _ => e h.1)]
    split
    · exact rankSt_setRank_ne (by omega) ..
    · rfl

theorem rankCtrlWrite_reenables {d k : Nat} {v : Word} {s : State} (hk : k < 3) (hv : v.getLsbD k = true)
    (hr : rankSt s (3 * d + k) = 4) : rankSt (rankCtrlWrite d v s) (3 * d + k) = 5 := by
  have e : rankCtrlWrite d v s = reenable d v 2 (reenable d v 1 (reenable d v 0 s)) := rfl
  have hcases : k = 0 ∨ k = 1 ∨ k = 2 := by omega
  rw [e]
  simp only [rankSt_reenable d hv]
  rcases hcases with rfl | rfl | rfl <;> simp only [hr] <;> rfl

theorem rankPrepareEnd_ok {d k : Nat} {s : State} (hd : hasDie s.part d = true) (hk : k < 3) (hr : rankSt s (3 * d + k) = 5)
    (hm : s.hbm.mig.isSome = true) : rankSt (rankPrepareEnd d k true s) (3 * d + k) = 1 := by
  unfold rankPrepareEnd
  rw [if_pos (by simp [hd, hk, hr]), if_pos rfl, rankSt_congr (guardCheck_hbm _),
    tryMigrate_running (by rw [raise_hbm]; exact hm), rankSt_congr (raise_hbm ..), rankSt_setRank]

theorem rankPrepareEnd_failed {d k : Nat} {s : State} (hd : hasDie s.part d = true) (hk : k < 3) (hr : rankSt s (3 * d + k) = 5) :
    rankSt (rankPrepareEnd d k false s) (3 * d + k) = 4 := by
  have hr' : rankSt (cntInc 0x0B81 d 1 s) (3 * d + k) = 5 := hr
  unfold rankPrepareEnd
  rw [if_pos (by simp [hd, hk, hr]), if_neg Bool.false_ne_true]
  simp only [failRank, hr']
  rw [rankSt_congr (guardCheck_hbm _), rankSt_setRank]

/-! ### The claim -/

/-- Settles O20: each row is its operation, by the branch its clause names. -/
theorem hbmControllers : Obligations.HbmControllers := by
  refine ⟨fun d e b s hd hb => congrArg _ (hbmAccess_refresh e hd hb), ?access,
    fun d b s hd ht hp => congrArg _ (hbmRefresh_due hd ht hp),
    fun d b s hd ht hp hn => congrArg _ (hbmRefresh_postponed hd ht hp hn), fun d b s h => congrArg _ (hbmRefresh_early h),
    fun d x s h => congrArg _ (hbmTempRead_early h), fun d k e s h => congrArg _ (patrolScrub_early h),
    fun d k e s h => congrArg _ (rankProbe_early h), fun d x s hd ht => ⟨_, rfl, hbmTempRead_reads hd ht⟩,
    fun d k s hd hk ha hp hr ht => ⟨_, rfl, patrolScrub_clean hd hk ha hp hr ht⟩,
    fun d k s hd hk h4 h7 ht => ⟨_, rfl, rankProbe_clean hd hk h4 h7 ht⟩, ?start, ?abort,
    fun g s hm ha ht hn hb => ⟨_, rfl, migrationChunk_copies hm ha ht hn hb⟩, ?reenable,
    fun d k s hd hk hr hm => ⟨_, rfl, rankPrepareEnd_ok hd hk hr hm⟩,
    fun d k s hd hk hr => ⟨_, rfl, rankPrepareEnd_failed hd hk hr⟩⟩
  case access =>
    intro d p q r f u s hd hb hn hq hf
    refine ⟨_, congrArg Host.Outcome.next (hbmAccess_clean hd hb hn hq hf), ?_⟩
    rw [ports_popPort, div_of_reqRankAt hf, stack_modStack, stack_modStack]
    exact congrArg (List.drop 1) hq
  case start =>
    intro path d v f sp s w hv hm hf hr hn hs
    obtain ⟨g, hg⟩ := busWrite_migStart (path := path) hv hm hf hr hn hs
    exact ⟨_, g, congrArg Host.Outcome.next (regWrite_writable _ w), hg⟩
  case abort =>
    intro path d v g s w hm hd hf
    exact ⟨_, congrArg Host.Outcome.next (regWrite_writable _ w), busWrite_migAbort hm hd hf⟩
  case reenable =>
    intro path d v k s w hk hv hr
    exact ⟨_, congrArg Host.Outcome.next (regWrite_writable _ w), rankCtrlWrite_reenables hk hv hr⟩

end Sys2Proof.Proofs
end

section
/-! The SRAM scrub, the loss of a clock and the feed engines (R431, R433, R442, R443). -/

namespace Sys2Proof.Proofs

open Sys2Proof.Machine Sys2Proof.Laws

/-! ### The SRAM scrub (R431) -/

section Scrub

variable {d a : Nat} {k : SramKind} {s : State}

theorem sramScrub_unread {e : Ecc} (h : sramRead s d k a = false) : sramScrub d k a e s = s := if_pos (by simp [h])

theorem sramScrub_clean (hd : hasDie s.part d = true) (h : sramRead s d k a = true) :
    sramScrub d k a .clean s = scrubOn d a s := if_neg (by simp [hd, h])

theorem sramScrub_corrected (hd : hasDie s.part d = true) (h : sramRead s d k a = true) (hk : k ≠ .checkValue) :
    sramScrub d k a .corrected s = chkCnt 0 (scrubOn d a s) := by
  unfold sramScrub
  rw [if_neg (by simp [hd, h])]
  dsimp only
  rw [if_neg hk]

/-- An uncorrectable word that holds no check value is counted and told, and its structure loses it. -/
theorem sramScrub_lost (hd : hasDie s.part d = true) (h : sramRead s d k a = true) (hk : k ≠ .checkValue) :
    sramScrub d k a .uncorrectable s
      = sramLost d k a (raise 0x04A evChkSramUe d (sramNo k) a 0 (chkCnt 1 (scrubOn d a s))) := by
  unfold sramScrub
  rw [if_neg (by simp [hd, h])]
  dsimp only
  rw [if_neg hk]

theorem loseCell_free {cell : Nat} (h : s.buf.cells.lookup cell = none) : loseCell cell s = s := by
  unfold loseCell
  rw [h]

theorem sramScrub_freeCell (hd : hasDie s.part d = true) (h : s.buf.cells.lookup (2 ^ 19 * d + a) = none) :
    sramScrub d .cellPayload a .uncorrectable s = raise 0x04A evChkSramUe d 0 a 0 (cntInc 0x0C81 0 1 (scrubOn d a s)) := by
  have hbuf : (scrubOn d a s).buf = s.buf := by
    unfold scrubOn
    dsimp only
    split <;> rfl
  refine (sramScrub_lost hd rfl (by decide)).trans (loseCell_free ?_)
  rw [raise_buf]
  exact (congrArg (fun b : Buf => b.cells.lookup (2 ^ 19 * d + a)) hbuf).trans h

theorem sramScrub_checkValue (hd : hasDie s.part d = true) :
    (cmpOf (sramScrub d .checkValue a .uncorrectable s) d (a % 1024)).stale = true := by
  unfold sramScrub
  rw [if_neg (by simp [hd, sramRead, sramDomain])]
  exact congrArg Cmp.stale (mget_mset_same ..)

end Scrub

/-! ### Clocks (R433) -/

theorem clockLoss_faults {d : Nat} {c : ClockDom} {s : State} (hd : hasDie s.part d = true) (hc : c ≠ .time) : clockLoss d c s
      = each (clockDomains d c) (fun n => domainFault n 2)
        (raise 0x04C evChkClockLost d (clockNo c) 0 0 (cntInc 0x0C81 0 7 s)) := by
  unfold clockLoss
  rw [if_neg (by simp [hd])]
  dsimp only
  rw [if_neg fun h => hc h.1]
  rfl

/-! ### Feed engines (R442, R443) -/

section Feeds

variable {e n : Nat} {v : Word} {s : State}

theorem feed_modFeed (e : Nat) (f : Feed → Feed) (s : State) : feed (modFeed e f s) e = f (feed s e) := mget_mset_same ..

theorem feedStart_begins {p : Nat} (ho : feedOwned s e = true) (hp : cfg s (.chkFeedCfg e) 1 0 = p) (h3 : p ≠ 3)
    (hf : cfgBit s (.chkFeedCfg e) 2 = false) : feed (feedStart e s) e = ⟨crcInit p, p, 0⟩ := by
  have hf' : ∀ f, cfgBit (modFeed e f (useFree s).2) (.chkFeedCfg e) 2 = false := fun _ => hf
  unfold feedStart
  simp only [ho, hp, h3, hf', Bool.not_true, Bool.false_eq_true, if_false]
  exact feed_modFeed ..

theorem busWrite_feedStart {path : Path} : busWrite path (.chkFeedCfg e) (v ||| 0x80000000) s
    = feedStart e (plainWrite path (.chkFeedCfg e) (v ||| 0x80000000) s) := by
  have h : (v ||| 0x80000000).getLsbD 31 = true := by
    rw [BitVec.getLsbD_or]
    exact Bool.or_true _
  exact if_pos h

theorem feedWrite_owned (ho : feedOwned s e = true) : feed (feedWrite e n v s) e
    = ⟨crcFeed (feed s e).poly (feed s e).crc (leBytes n v.toNat), (feed s e).poly,
        Nat.min (2 ^ 32 - 1) ((feed s e).count + n)⟩ := by
  unfold feedWrite feedRaw
  rw [if_neg (by simp [ho]), feed_modFeed, feed_modFeed]

theorem feedWrite_ignored (ho : feedOwned s e = false) : feedWrite e n v s = cntInc 0x0C81 0 12 s := if_pos (by simp [ho])

theorem busRead_feedRes (h : Bool) : busRead (.chkFeedRes e h) s
    = { s with readData := BitVec.ofNat 32 (halfWord (feedResult s e) h) } := by
  unfold busRead regRead
  rw [if_neg (by simp), if_neg (by simp)]
  rfl

end Feeds

/-! ### The claim -/

/-- Settles O21: each row is its operation, by the branch its clause names. -/
theorem scrubClocksAndFeeds : Obligations.ScrubClocksAndFeeds := by
  refine ⟨fun d k a s h => congrArg _ (sramScrub_unread h), fun d k a s hd h => congrArg _ (sramScrub_clean hd h),
    fun d k a s hd h hk => congrArg _ (sramScrub_corrected hd h hk), fun d a s hd => ⟨_, rfl, sramScrub_checkValue hd⟩,
    fun d a s hd h => congrArg _ (sramScrub_freeCell hd h),
    fun d c s hd hc => congrArg _ (clockLoss_faults hd hc), ?start, ?byte, ?half,
    ?word, fun path e v s w ho => congrArg _ ((regWrite_writable v w).trans (feedWrite_ignored ho)),
    fun path e h s w => congrArg _ ((regReadGate_readable w _).trans (busRead_feedRes h))⟩
  case start =>
    intro path e v p s w ho hp h3 hf
    exact ⟨_, congrArg Host.Outcome.next ((regWrite_writable _ w).trans busWrite_feedStart), feedStart_begins ho hp h3 hf⟩
  case byte | half | word =>
    intro path e v s w ho
    exact ⟨_, congrArg Host.Outcome.next (regWrite_writable v w), feedWrite_owned ho⟩

end Sys2Proof.Proofs
end

section
/-! The custodians and the string (R446 to R450, R452, R456): what each operation leaves of the custodians' state. -/

namespace Sys2Proof.Proofs

open Sys2Proof.Machine Sys2Proof.Laws

/-! ### A custodian's state -/

section States

variable {who : Nat} {s : State}

theorem cusState_congr {t : State} (h : t.cus = s.cus) (w : Nat) : cusState t w = cusState s w := by
  unfold cusState
  rw [h]

theorem cusState_setCusState_same (who v : Nat) (s : State) : cusState (setCusState who v s) who = v := by
  by_cases h : who = 1 <;> simp [cusState, setCusState, h]

@[simp] theorem cusCnt_cus (i : Nat) (s : State) : (cusCnt i s).cus = s.cus := rfl

/-- Writing a state of a custodian leaves the rest of the string. -/
theorem setCusState_string (who v : Nat) (s : State) :
    (setCusState who v s).cus
      = { s.cus with aState := (setCusState who v s).cus.aState, bState := (setCusState who v s).cus.bState } := by
  by_cases h : who = 1 <;> simp [setCusState, h]

/-! ### Checkpoints (R448) -/

/-- A checkpoint: its number, its moment and its place, and the watchdog kicked. -/
theorem writeCkpt_marks (gen : Nat) (s : State) : (writeCkpt gen s).cus = { s.cus with
    ckpts := (writeCkpt gen s).cus.ckpts, seq := s.cus.seq + 1, ckptAt := some s.now, slot := 1 - s.cus.slot % 2, kick := s.now } :=
  rfl

/-- The checkpoint that is written. -/
def nextCkpt (gen : Nat) (s : State) : Ckpt :=
  ⟨(bodyBytes (positions s)).length, gen, s.cus.seq + 1, stampNow s, s.cus.version,
    ckptCrc (s.cus.seq + 1) (positions s), 0xA5, positions s⟩

theorem writeCkpt_ckpts (gen : Nat) (s : State) : (writeCkpt gen s).cus.ckpts
    = [0, 1, 2].foldl (fun m p => mset none m (2 * p + s.cus.slot % 2) (some (nextCkpt gen s))) s.cus.ckpts := rfl

/-- The copy in the first of the three places: those of the other two have places of their own. -/
theorem writeCkpt_copy (gen : Nat) (s : State) :
    mget none (writeCkpt gen s).cus.ckpts (s.cus.slot % 2) = some (nextCkpt gen s) := by
  have h4 : 2 * 2 + s.cus.slot % 2 ≠ s.cus.slot % 2 := by omega
  have h2 : 2 * 1 + s.cus.slot % 2 ≠ s.cus.slot % 2 := by omega
  have h0 : 2 * 0 + s.cus.slot % 2 = s.cus.slot % 2 := Nat.zero_add _
  rw [writeCkpt_ckpts, List.foldl_cons, List.foldl_cons, List.foldl_cons, List.foldl_nil, mget_mset_ne _ _ h4,
    mget_mset_ne _ _ h2, h0, mget_mset_same]

theorem checkpoint_adopted (h : holdAdopted s = true) : checkpoint s = writeCkpt s.cus.gen s := if_pos h

/-! ### Release (R447) -/

theorem releaseString_held {cause : Nat} (h : s.cus.holder ≠ 0) : (releaseString cause s).cus = (setCusState s.cus.holder csSelf
    (modCus (fun c => { c with holder := 0, adopted := false, usesPreload := false, releasedAt := s.now }) s)).cus := by
  unfold releaseString
  dsimp only
  rw [if_neg h, guardCheck_cus, raiseSev_cus, cusCnt_cus]

/-- A release frees the string and sends its holder to its self-test. -/
theorem releaseString_frees {cause : Nat} (h : s.cus.holder ≠ 0) : (releaseString cause s).cus.holder = 0
    ∧ (releaseString cause s).cus.adopted = false ∧ cusState (releaseString cause s) s.cus.holder = csSelf
    ∧ (releaseString cause s).cus.releasedAt = s.now ∧ (releaseString cause s).cus.seq = s.cus.seq := by
  rw [cusState_congr (releaseString_held h), cusState_setCusState_same, releaseString_held h, setCusState_string]
  exact ⟨rfl, rfl, rfl, rfl, rfl⟩

theorem releaseString_free {cause : Nat} (h : s.cus.holder = 0) : releaseString cause s = s := if_pos h

theorem stringRelease_release {c : Nat} (hc : c = 1 ∨ c = 3 ∨ c = 4) : stringRelease c s = releaseString c s := by
  unfold stringRelease
  rw [if_pos (by omega), if_neg (by omega)]

/-- With no holder the only release to act could be a handover's. -/
theorem stringRelease_free {c : Nat} (h : s.cus.holder = 0) (hc : c ≠ 5) : stringRelease c s = s := by
  unfold stringRelease
  rw [if_neg hc]
  split
  · exact releaseString_free h
  · rfl

theorem watchdogExpiry_due (h : s.cus.holder ≠ 0) (hk : s.cus.kick + cfg1 s .cusCfg 7 0 * 10 ^ 9 ≤ s.now) :
    watchdogExpiry s = releaseString 2 s := if_pos ⟨h, hk⟩

theorem watchdogExpiry_kicked (hk : s.now < s.cus.kick + cfg1 s .cusCfg 7 0 * 10 ^ 9) : watchdogExpiry s = s :=
  if_neg fun h => Nat.not_le_of_lt hk h.2

/-! ### Self-tests (R447, R456) -/

theorem selfTestEnd_state {p : Bool} (h : cusState s who = csSelf) :
    cusState (selfTestEnd who p s) who = if p then csCold else csFailed := by
  have hc : (selfTestEnd who p s).cus = (setCusState who (if p then csCold else csFailed) s).cus := by
    unfold selfTestEnd
    rw [if_pos h]
    extract_lets t
    split
    · exact raise_cus ..
    · rfl
  rw [cusState_congr hc, cusState_setCusState_same]

theorem selfTestRetry_failed (h : cusState s who = csFailed) : cusState (selfTestRetry who s) who = csSelf := by
  unfold selfTestRetry
  rw [if_pos h, cusState_setCusState_same]

/-! ### Take and adoption (R446, R449) -/

theorem refuseCopies_cus (s : State) : (refuseCopies s).cus = s.cus :=
  (refuseCopies_keeps (Only.allows 10334771488 s) rfl s (Only.refl _ s)).cus rfl

theorem setPositions_cus (body : List Nat) (s : State) : (setPositions body s).cus = s.cus :=
  (setPositions_keeps (Only.allows 67305472 s) rfl body s (Only.refl _ s)).cus rfl

/-- What a take leaves of the string beside the checkpoint that it loads. -/
theorem stringTake_takes (hh : s.cus.holder = 0) (hf : s.cus.fault = false) (hz : s.lcs.zeroising = false)
    (hc : canTake s who = true) (ht : takesFirst s who = true) (hi : imageRuns s who = true) :
    (stringTake who s).cus.holder = who ∧ (stringTake who s).cus.adopted = false
      ∧ (stringTake who s).cus.prov = (s.cus.gen + 1) % 2 ^ 32 ∧ (stringTake who s).cus.gen = s.cus.gen
      ∧ cusState (stringTake who s) who = csTaking := by
  unfold stringTake
  rw [if_pos (by simp [hh, hf, hz, hc, ht, hi])]
  extract_lets pre img s1 s2
  have h2 : s2.cus = (setCusState who csTaking s1).cus := refuseCopies_cus _
  have hstate : cusState s2 who = csTaking := (cusState_congr h2 who).trans (cusState_setCusState_same ..)
  rw [setCusState_string] at h2
  have hholder : s2.cus.holder = who := by rw [h2]; rfl
  have hadopted : s2.cus.adopted = false := by rw [h2]; rfl
  have hprov : s2.cus.prov = (s.cus.gen + 1) % 2 ^ 32 := by rw [h2]; rfl
  have hgen : s2.cus.gen = s.cus.gen := by rw [h2]; rfl
  split
  next c _ =>
    rw [cusState_congr (setPositions_cus ..), setPositions_cus]
    exact ⟨hholder, hadopted, hprov, hgen, hstate⟩
  next =>
    rw [cusState_congr (setPositions_cus ..), setPositions_cus]
    simp only [modCus_own, raise_cus, cusCnt_cus]
    refine ⟨hholder, hadopted, hprov, hgen, ?_⟩
    rw [← hstate]
    unfold cusState
    simp only [modCus_own, raise_cus, cusCnt_cus]

theorem stringTake_held (h : s.cus.holder ≠ 0) : stringTake who s = s := if_neg fun c => h c.1

theorem stringTake_barred (h : s.cus.fault = true) : stringTake who s = s := if_neg (by simp [h])

theorem rolloutNext_cus (n : Nat) (s : State) : (rolloutNext n s).cus = s.cus :=
  (rolloutNext_keeps (Only.allows 10336868640 s) rfl n s (Only.refl _ s)).cus rfl

theorem countTakeover_cus (s : State) : (countTakeover s).cus = s.cus :=
  (countTakeover_keeps (Only.allows 2048 s) rfl s (Only.refl _ s)).cus rfl

/-- Booting the image a takeover used keeps the string's holder, adoption and generation. -/
theorem bootPreloaded_string (s : State) : (bootPreloaded s).cus.holder = s.cus.holder
    ∧ (bootPreloaded s).cus.adopted = s.cus.adopted ∧ (bootPreloaded s).cus.gen = s.cus.gen := by
  unfold bootPreloaded
  split <;> exact ⟨rfl, rfl, rfl⟩

theorem adoption_adopts (h : s.cus.holder ≠ 0) (ha : s.cus.adopted = false) :
    (adoption s).cus.adopted = true ∧ (adoption s).cus.gen = s.cus.prov ∧ (adoption s).cus.holder = s.cus.holder := by
  unfold adoption
  rw [if_pos (by simp [h, ha])]
  extract_lets s1 s2 s3
  have h3 : s3.cus = (setCusState s2.cus.holder csHolder s2).cus := countTakeover_cus _
  rw [setCusState_string] at h3
  obtain ⟨hholder, hadopted, hgen⟩ := bootPreloaded_string s3
  rw [rolloutNext_cus, guardCheck_cus, hholder, hadopted, hgen, h3]
  exact ⟨rfl, rfl, rfl⟩

/-! ### Actuators (R446) -/

theorem actuatorWrite_other {a : Actuator} {v : Nat} (h : s.cus.holder ≠ who) : actuatorWrite who a v s = cusCnt 10 s := if_pos h

theorem actuatorWrite_unadopted {a : Actuator} {v : Nat} (h : s.cus.holder = who) (ha : s.cus.adopted = false) :
    actuatorWrite who a v s = cusCnt 11 s := by
  unfold actuatorWrite
  rw [if_neg (not_not_intro h), if_pos (by simp [ha])]

theorem actuatorWrite_adopted {a : Actuator} {v : Nat} (h : s.cus.holder = who) (ha : s.cus.adopted = true) :
    actuatorWrite who a v s
      = modCus (fun c => { c with actuators := mset 0 c.actuators (actuatorNo a) v, kick := s.now }) s := by
  unfold actuatorWrite
  rw [if_neg (not_not_intro h), if_neg (by simp [ha])]

theorem copyDisagree_cus (h : s.cus.fault = false) : (copyDisagree s).cus = { s.cus with fault := true } := by
  unfold copyDisagree
  rw [if_neg (by simp [h]), raise_cus]
  rfl

/-! ### Preload and handover (R452) -/

theorem preload_loads (h : s.cus.holder ≠ 0) (hc : cusState s (standby s) = csCold) :
    cusState (preload s) (standby s) = csLoading ∧ (preload s).cus.preload = 1 := by
  unfold preload
  rw [if_pos ⟨h, hc⟩]
  exact ⟨cusState_setCusState_same (standby s) csLoading s, rfl⟩

section Preload

variable {crc r : Bool} {w : Nat} (hw : ([1, 2].find? fun w => decide (cusState s w = csLoading)) = some w)
include hw

theorem preloadEnd_discards (hc : preloadCause crc r s ≠ 0) :
    cusState (preloadEnd crc r s) w = csCold ∧ (preloadEnd crc r s).cus.preload = 3
      ∧ (preloadEnd crc r s).cus.cause = preloadCause crc r s ∧ (preloadEnd crc r s).cus.image = [] := by
  unfold preloadEnd
  rw [hw]
  dsimp only
  rw [if_neg hc]
  exact ⟨cusState_setCusState_same w csCold s, rfl, rfl, rfl⟩

theorem preloadEnd_readies (hc : preloadCause crc r s = 0) :
    cusState (preloadEnd crc r s) w = csReady ∧ (preloadEnd crc r s).cus.preload = 2 := by
  unfold preloadEnd
  rw [hw]
  dsimp only
  rw [if_pos hc, cusState_congr (raise_cus ..), raise_cus]
  exact ⟨cusState_setCusState_same w csReady s, rfl⟩

end Preload

theorem holdAdopted_holder (h : holdAdopted s = true) : s.cus.holder ≠ 0 := by
  unfold holdAdopted at h
  rw [Bool.and_eq_true, decide_eq_true_eq] at h
  exact h.1

/-- A handover writes its last checkpoint under the hold that it then gives up. -/
theorem handover_releases (h : holdAdopted s = true) (hc : canTake s (standby s) = true) :
    (handover s).cus.holder = 0 ∧ (handover s).cus.seq = s.cus.seq + 1 := by
  unfold handover
  rw [if_pos ⟨h, hc⟩, checkpoint_adopted h]
  obtain ⟨hfree, -, -, -, hseq⟩ := releaseString_frees (cause := 5) (s := writeCkpt s.cus.gen s) (holdAdopted_holder h)
  exact ⟨hfree, hseq⟩

theorem handover_counted (h : holdAdopted s = false) : handover s = cusCnt 14 s := if_neg (by simp [h])

/-! ### The commands of CUS_CTRL -/

theorem busWrite_preload {path : Path} : busWrite path .cusCtrl 1 s = preload s := by
  simp [busWrite, cusCtrlWrite, onBit]

theorem busWrite_handover {path : Path} : busWrite path .cusCtrl 2 s = handover s := by
  simp [busWrite, cusCtrlWrite, onBit]

theorem busWrite_selfTestRetry {path : Path} (b : Bool) :
    busWrite path .cusCtrl (if b then 8 else 4) s = selfTestRetry (cusNo b) s := by
  cases b <;> simp [busWrite, cusCtrlWrite, onBit, cusNo]

end States

/-! ### The claim -/

/-- Settles O22: each row is its operation, by the branch its clause names; events, counts, rollouts and the positions loaded
keep the custodians' state. -/
theorem custodiansAndTheString : Obligations.CustodiansAndTheString := by
  refine ⟨?release, fun c s h hc => congrArg _ (stringRelease_free h hc), ?watchdog,
    fun s h => congrArg _ (watchdogExpiry_kicked h), fun b p s h => ⟨_, rfl, selfTestEnd_state h⟩,
    fun b s hh hf hz hc ht hi => ⟨_, rfl, stringTake_takes hh hf hz hc ht hi⟩, fun b s h => congrArg _ (stringTake_held h),
    fun s h ha => ⟨_, rfl, adoption_adopts h ha⟩, ?checkpoint, fun b a v s h => congrArg _ (actuatorWrite_other h),
    fun b a v s h ha => congrArg _ (actuatorWrite_unadopted h ha),
    fun b a v s h ha => congrArg _ (actuatorWrite_adopted h ha), ?disagree, ?preload,
    fun a r w s hw hc => ⟨_, rfl, preloadEnd_discards hw hc⟩,
    fun a r w s hw hc => ⟨_, rfl, preloadEnd_readies hw hc⟩, ?handover,
    fun path s w h => congrArg _ ((regWrite_writable 2 w).trans (busWrite_handover.trans (handover_counted h))), ?retry⟩
  case release =>
    intro c s h hc
    obtain ⟨hfree, hadopted, hself, hat, -⟩ := releaseString_frees (cause := c) h
    exact ⟨_, congrArg Host.Outcome.next (stringRelease_release hc), hfree, hadopted, hself, hat⟩
  case watchdog =>
    intro s h hk
    obtain ⟨hfree, hadopted, hself, -, -⟩ := releaseString_frees (cause := 2) h
    exact ⟨_, congrArg Host.Outcome.next (watchdogExpiry_due h hk), hfree, hadopted, hself⟩
  case checkpoint =>
    intro s h
    exact ⟨_, congrArg Host.Outcome.next (checkpoint_adopted h), rfl, rfl, rfl, _, writeCkpt_copy s.cus.gen s, rfl, rfl, rfl⟩
  case disagree =>
    intro s h
    refine ⟨_, rfl, copyDisagree_cus h, fun b => congrArg _ (stringTake_barred ?_)⟩
    rw [copyDisagree_cus h]
  case preload =>
    intro path s w h hc
    have hh : s.cus.holder ≠ 0 := by omega
    exact ⟨_, congrArg Host.Outcome.next ((regWrite_writable 1 w).trans busWrite_preload), preload_loads hh hc⟩
  case handover =>
    intro path s w h hc
    exact ⟨_, congrArg Host.Outcome.next ((regWrite_writable 2 w).trans busWrite_handover), handover_releases h hc⟩
  case retry =>
    intro path b s w h
    exact ⟨_, congrArg Host.Outcome.next ((regWrite_writable _ w).trans (busWrite_selfTestRetry b)), selfTestRetry_failed h⟩

end Sys2Proof.Proofs
end

section
/-! The logbook (R464, R468 to R474): persistence, statistics, reading, freezing and clearing. -/

namespace Sys2Proof.Proofs

open Sys2Proof.Machine Sys2Proof.Laws

section Logbook

variable {s : State}

/-! ### Persistence (R464, R468) -/

section Persist

variable {r : LogRec} {l : List LogRec} (hs : s.log.staged = r :: l)
include hs

theorem logPersist_due {ok : Bool} (ha : holdAdopted s = true) (hf : s.log.flashOk = true) (hd : persistDue s r = true)
    (hr : s.flash.events.length < eventRoom s) :
    logPersist ok s = if ok then guardCheck (logLostRec (persistRec r s)) else sectorBad s := by
  unfold logPersist
  rw [hs]
  dsimp only
  rw [if_pos (by rw [ha, hf, hd]; rfl), decide_eq_false (Nat.not_le_of_lt hr)]
  rfl

theorem logPersist_early {ok : Bool} (hd : persistDue s r = false) : logPersist ok s = s := by
  unfold logPersist
  rw [hs]
  exact if_neg (by simp [hd])

/-- Persisting a record takes it out of staging and puts it behind those of the flash. -/
theorem persistRec_moves : (persistRec r s).log.staged = l ∧ (persistRec r s).flash.events = s.flash.events ++ [r] := by
  have h : (modLog (fun l => { l with staged := l.staged.drop 1 }) s).log.staged = l := congrArg (List.drop 1) hs
  unfold persistRec
  split <;> exact ⟨h, rfl⟩

end Persist

/-! ### Statistics (R469, R470) -/

theorem statSample_early {src : Nat} (v : Int) (h : s.now < mget 0 s.log.sampleAt src + samplePs src) : statSample src v s = s :=
  if_pos (by rw [decide_eq_true h, Bool.or_true])

theorem statSample_absent {src : Nat} (v : Int) (h : statPresent s.part src = false) : statSample src v s = s :=
  if_pos (by rw [h]; rfl)

/-- The entry that a sample which enters leaves. -/
theorem statSample_entry {src : Nat} {v : Int} (hp : statPresent s.part src = true)
    (h : mget 0 s.log.sampleAt src + samplePs src ≤ s.now) : ∃ x, mget {} (statSample src v s).log.stats src = x
      ∧ x.count = (mget {} s.log.stats src).count + 1 ∧ x.isum = (mget {} s.log.stats src).isum + v
      ∧ mget 0 x.buckets (statBucket src v)
        = satInc (2 ^ 32 - 1) (mget 0 (mget {} s.log.stats src).buckets (statBucket src v)) := by
  unfold statSample
  rw [if_neg (by simp [hp, h])]
  exact ⟨_, mget_mset_same .., rfl, rfl, mget_mset_same ..⟩

@[simp] theorem logCnt_log (i : Nat) (s : State) : (logCnt i s).log = s.log := rfl

/-- The snapshot that falls due with room for it. -/
theorem statSnapshot_adds (ha : holdAdopted s = true) (hf : s.log.flashOk = true) (hd : s.log.snapAt + statPeriod s ≤ s.now)
    (hr : s.flash.snaps.length < snapSlots s.part) : ∃ n, (statSnapshot s).flash.snaps = s.flash.snaps ++ [n]
      ∧ n.entries = s.log.stats ∧ (statSnapshot s).log.snapAt = s.now
      ∧ (statSnapshot s).log.stats = allStats restartInterval s.log.stats := by
  unfold statSnapshot
  rw [if_pos (by rw [ha, hf, decide_eq_true hd]; rfl), decide_eq_false (Nat.not_le_of_lt hr)]
  simp only [Bool.false_eq_true, if_false, logCnt_log, modLog_own, modFlash_log]
  exact ⟨_, rfl, rfl, rfl, trivial⟩

/-! ### Reading (R471, R472) -/

theorem windowReady_inside {r : LogRec} (hl : s.log.loading = true) (ho : s.flash.oldest ≤ s.log.cursor)
    (hn : s.log.cursor < s.log.next)
    (hr : ((s.log.staged ++ s.flash.events).find? fun r => decide (r.serial = s.log.cursor) && decide (r.valid = 0x5A)) = some r) :
    windowReady s = modLog (fun l => { l with
      loading := false, ready := true, outside := false, torn := false, win := logRecImage r }) s := by
  unfold windowReady
  rw [if_pos hl]
  dsimp only
  rw [hr, decide_eq_false (Nat.not_lt_of_le ho), decide_eq_false (Nat.not_le_of_lt hn)]
  rfl

theorem windowReady_outside (hl : s.log.loading = true) (ho : s.log.cursor < s.flash.oldest ∨ s.log.next ≤ s.log.cursor) :
    windowReady s = modLog (fun l => { l with loading := false, ready := true, outside := true, torn := false, win := 0 }) s := by
  have hout : (decide (s.log.cursor < s.flash.oldest) || decide (s.log.next ≤ s.log.cursor)) = true := by simpa using ho
  unfold windowReady
  rw [if_pos hl]
  dsimp only
  rw [hout]
  rfl

theorem win7Read_data (s : State) : (win7Read s).readData = BitVec.ofNat 32 (fld s.log.win 255 224) := by
  unfold win7Read
  extract_lets t c
  split <;> rfl

theorem win7Read_stays (h : cfgBit s .logCtrl 1 = false) : (win7Read s).log = s.log := by
  have h' : ∀ w, cfgBit { s with readData := w } .logCtrl 1 = false := fun _ => h
  unfold win7Read
  rw [if_neg (by rw [h']; exact Bool.false_ne_true)]

theorem win7Read_advances (h : cfgBit s .logCtrl 1 = true) :
    (win7Read s).log = { s.log with cursor := (s.log.cursor + 1) % 2 ^ 48, loading := true, ready := false } := by
  have h' : ∀ w, cfgBit { s with readData := w } .logCtrl 1 = true := fun _ => h
  unfold win7Read
  rw [if_pos (h' _)]
  unfold loadCursor
  rw [modLog_own, Nat.mod_mod]
  rfl

@[simp] theorem putReg_log (r : Reg) (v : Word) (s : State) : (putReg r v s).log = s.log := rfl

/-- The cursor takes the low word written and the upper half as it stands. -/
theorem cursorWrite_log (v : Word) (s : State) : (cursorWrite v s).log = { s.log with
    cursor := ((stored s (.logCursor true)).toNat % 65536 * 2 ^ 32 + v.toNat) % 2 ^ 48, loading := true, ready := false } := by
  have h : stored (putReg (.logCursor false) v s) (.logCursor true) = stored s (.logCursor true) := by
    have hr : resetOf (.logCursor true) = resetOf (.logCursor false) := rfl
    rw [stored_putReg hr, if_neg (by decide)]
  unfold cursorWrite loadCursor
  rw [modLog_own, putReg_log, h]

theorem statSelWrite_log (v : Word) (s : State) : (statSelWrite v s).log
    = { s.log with statWin := statImage (v.toNat % 256) (mget {} s.log.stats (v.toNat % 256)) } := by
  unfold statSelWrite
  rw [modLog_own, putReg_log]

/-! ### Freezing and clearing (R473, R474) -/

theorem logCtrlWrite_freeze (w : Word) :
    logCtrlWrite ((w &&& 2) ||| 1) s = setFreeze true (putReg .logCtrl (((w &&& 2) ||| 1) &&& 2) s) := by
  unfold logCtrlWrite
  rw [if_neg (by simp)]
  congr 1
  simp

/-- Writing clear writes the freeze bit as it stands and then clears. -/
theorem logCtrlWrite_clear (w : Word) (f : Bool) : logCtrlWrite ((w &&& 2) ||| (if f then 5 else 4)) s
    = clearWrite (setFreeze f (putReg .logCtrl (((w &&& 2) ||| (if f then 5 else 4)) &&& 2) s)) := by
  unfold logCtrlWrite
  cases f
  · rw [if_pos (by simp)]
    congr 2
    simp
  · rw [if_pos (by simp)]
    congr 2
    simp

theorem setFreeze_lcs (b : Bool) (s : State) : (setFreeze b s).lcs = s.lcs :=
  (setFreeze_keeps (Only.allows 10200553760 s) rfl b s (Only.refl _ s)).lcs rfl

theorem clearWrite_refused (h : s.lcs.logClear = false) : clearWrite s = raise 0x050 evLogClearRefused 0 0 0 0 (logCnt 6 s) :=
  if_neg (by rw [h]; exact Bool.false_ne_true)

theorem logLostRec_lcs (s : State) : (logLostRec s).lcs = s.lcs :=
  (logLostRec_keeps (Only.allows 1610614784 s) rfl s (Only.refl _ s)).lcs rfl

theorem toRing_lcs (g : Nat) (e : Ev) (s : State) : (toRing g e s).2.lcs = s.lcs :=
  (toRing_keeps (Only.allows 6400 s) rfl g e s (Only.refl _ s)).lcs rfl

/-- An accepted clear uses up its authorisation. -/
theorem clearWrite_lcs (h : s.lcs.logClear = true) : (clearWrite s).lcs = { s.lcs with logClear := false } := by
  unfold clearWrite clearLog
  rw [if_pos h, guardCheck_lcs, logLostRec_lcs]
  split
  · rw [toRing_lcs]
    rfl
  · rfl

theorem clearEraseEnd_ends (h : s.log.clearing = true) : clearEraseEnd s
    = cntAdd 0x0D81 0 4 s.log.clearAt (modLog (fun l => { l with clearing := false, clearAt := 0 }) s) := if_pos h

end Logbook

/-! ### The claim -/

/-- Settles O23: each row is its operation, by the branch its clause names. -/
theorem logbookRows : Obligations.LogbookRows := by
  refine ⟨?persist, fun ok r l s hs hd => congrArg _ (logPersist_early hs hd), fun src v s h => congrArg _ (statSample_early v h),
    ?sample, fun src v s h => congrArg _ (statSample_absent v h), ?snapshot,
    ?cursor,
    fun r s hl ho hn hr => congrArg _ (windowReady_inside hl ho hn hr), fun s hl ho => congrArg _ (windowReady_outside hl ho),
    fun path s w => ⟨_, congrArg Host.Outcome.next (regReadGate_readable w _), win7Read_data s, win7Read_stays,
      win7Read_advances⟩,
    fun path v s w => ⟨_, congrArg Host.Outcome.next (regWrite_writable v w), statSelWrite_log v s⟩,
    fun path s w => congrArg _ ((regWrite_writable _ w).trans (logCtrlWrite_freeze _)), ?refuse, ?clear,
    fun s h => congrArg _ (clearEraseEnd_ends h)⟩
  case persist =>
    intro r l s hs ha hf hd hr
    exact ⟨congrArg _ (logPersist_due hs ha hf hd hr), congrArg _ (logPersist_due hs ha hf hd hr), persistRec_moves hs⟩
  case sample =>
    intro src v s hp h
    obtain ⟨x, hx, hfields⟩ := statSample_entry (v := v) hp h
    exact ⟨_, rfl, hx ▸ hfields⟩
  case snapshot =>
    intro s ha hf hd hr
    obtain ⟨n, hn⟩ := statSnapshot_adds ha hf hd hr
    exact ⟨_, n, rfl, hn⟩
  case cursor =>
    intro path v s w
    have h : (busWrite path (.logCursor false) v s).log = _ := cursorWrite_log v s
    exact ⟨_, congrArg Host.Outcome.next (regWrite_writable v w), by rw [h], by rw [h], by rw [h]⟩
  case refuse =>
    intro path s w h
    refine ⟨_, congrArg Host.Outcome.next
      ((regWrite_writable _ w).trans ((logCtrlWrite_clear _ _).trans (clearWrite_refused ?_))), setFreeze_lcs ..⟩
    rw [setFreeze_lcs]
    exact h
  case clear =>
    intro path s w h
    refine ⟨_, congrArg Host.Outcome.next ((regWrite_writable _ w).trans (logCtrlWrite_clear _ _)), ?_⟩
    rw [clearWrite_lcs (by rw [setFreeze_lcs]; exact h), setFreeze_lcs]
    rfl

end Sys2Proof.Proofs
end

section
/-! Life-cycle tokens, zeroisation and JTAG instructions (R480, R482 to R484, R487, R490, R496). -/

namespace Sys2Proof.Proofs

open Sys2Proof.Machine Sys2Proof.Laws

section LifeCycle

variable {s : State}

/-! ### The rows of the tokens (R480, R496) -/

/-- The row of each token, with the token's code. -/
def tokenRows (path : Path) : List (Instr × Nat) :=
  [(.testDone path, 1), (.seal_ path, 2), (.service path, 3), (.logClear path, 4), (.keyRotate path, 5), (.return_ path, 6),
    (.vendorDebug path, 7)]

section Rows

variable {path : Path} {c : Instr} {k : Nat}

theorem exec_tokenRow (h : (c, k) ∈ tokenRows path) (s : State) : exec c s = .next (tokenRow k path s) := by
  simp only [tokenRows, List.mem_cons, Prod.mk.injEq, List.not_mem_nil, or_false] at h
  rcases h with ⟨rfl, rfl⟩ | ⟨rfl, rfl⟩ | ⟨rfl, rfl⟩ | ⟨rfl, rfl⟩ | ⟨rfl, rfl⟩ | ⟨rfl, rfl⟩ | ⟨rfl, rfl⟩
  all_goals rfl

theorem tokenRow_code (w : writable s path .lcsTokenCtrl) (h : ofLe (takeBytes (tokenBuf s) 0 1) = k) :
    tokenRow k path s = tokenGo path s := (regWriteGate_writable w _).trans (if_pos h)

theorem tokenRow_otherCode (w : writable s path .lcsTokenCtrl) (h : ofLe (takeBytes (tokenBuf s) 0 1) ≠ k) :
    tokenRow k path s = s := (regWriteGate_writable w _).trans (if_neg h)

end Rows

/-- A register that holds zero holds it after a register of the same reset value is written zero. -/
theorem stored_putReg_zero {q r : Reg} (h : resetOf q = resetOf r) (hq : stored s q = 0) : stored (putReg r 0 s) q = 0 := by
  rw [stored_putReg h, hq, ite_self]

theorem stored_putReg_self (r : Reg) (v : Word) (s : State) : stored (putReg r v s) r = v := by
  rw [stored_putReg rfl, if_pos rfl]

theorem clearBufs_key (s : State) : ∀ i, i < 24 → stored (clearBufs s) (.lcsKeyBuf i) = 0 := fun i hi =>
  each_each _ (fun i t => stored t (.lcsKeyBuf i) = 0) _ _ (fun _ _ t => stored_putReg_self _ 0 t)
    (fun _ _ _ _ _ h => stored_putReg_zero rfl h) i (List.mem_range.mpr hi)

theorem clearBufs_token (s : State) : ∀ i, i < 64 → stored (clearBufs s) (.lcsTokenBuf i) = 0 := fun i hi =>
  each_inv _ (fun t => stored t (.lcsTokenBuf i) = 0) _ _ (fun _ _ _ h => stored_putReg_zero rfl h)
    (each_each _ (fun i t => stored t (.lcsTokenBuf i) = 0) _ _ (fun _ _ t => stored_putReg_self _ 0 t)
      (fun _ _ _ _ _ h => stored_putReg_zero rfl h) i (List.mem_range.mpr hi))

theorem clearBufs_lcs (s : State) : (clearBufs s).lcs = s.lcs :=
  (clearBufs_keeps (Only.allows 64 s) rfl s (Only.refl _ s)).lcs rfl

theorem tokenGo_idle (path : Path) (h : s.lcs.busy = false) : tokenGo path s
    = clearBufs (modLcs (fun l => { l with busy := true, token := tokenBuf s, key := keyBuf s }) s) :=
  if_neg (by rw [h]; exact Bool.false_ne_true)

theorem tokenGo_busy (path : Path) (h : s.lcs.busy = true) :
    (tokenGo path s).lcs = { s.lcs with goIgnored := s.lcs.goIgnored + 1 } := by
  unfold tokenGo
  rw [if_pos h, countIgnored_frame]
  rfl

/-! ### What the operations leave of the life-cycle block -/

@[simp] theorem modFuses_lcs (f : Fuses → Fuses) (s : State) :
    (modFuses f s).lcs = { s.lcs with q0 := f s.lcs.q0, q2 := f s.lcs.q2 } := rfl

@[simp] theorem enterState_lcs (v : Nat) (s : State) : (enterState v s).lcs = { s.lcs with state := v } := raise_lcs ..

@[simp] theorem openDebug_lcs (mask : Nat) (s : State) :
    (openDebug mask s).lcs = { s.lcs with open_ := s.lcs.open_ ||| mask % 8 } := by
  unfold openDebug
  extract_lets t
  split
  · rfl
  · exact raise_lcs ..

theorem refuseAll_lcs (s : State) : (refuseAll s).lcs = s.lcs :=
  (refuseAll_keeps (Only.allows 6416 s) rfl s (Only.refl _ s)).lcs rfl

theorem portsDown_lcs (s : State) : (portsDown s).lcs = s.lcs :=
  (portsDown_keeps (Only.allows 10389731616 s) rfl s (Only.refl _ s)).lcs rfl

@[simp] theorem ringsOff_lcs (s : State) : (ringsOff s).lcs = s.lcs :=
  (ringsOff_keeps (Only.allows 4096 s) rfl s (Only.refl _ s)).lcs rfl

@[simp] theorem beginZeroise_lcs (s : State) : (beginZeroise s).lcs = { s.lcs with zeroising := true } := by
  unfold beginZeroise
  rw [ringsOff_lcs, portsDown_lcs, refuseAll_lcs, raise_lcs]
  rfl

/-! ### The result of a token (R482, R483, R487, R490) -/

/-- An accepted token leaves its result, and that the block is idle. -/
theorem tokenEffect_result (c : Nat) (t : List Byte) (s : State) :
    (tokenEffect c t s).lcs.busy = s.lcs.busy ∧ (tokenEffect c t s).lcs.result = s.lcs.result := by
  unfold tokenEffect
  split
  case h_2 | h_5 =>
    split
    · simp [progState, progSlot]
    · exact ⟨rfl, rfl⟩
  all_goals simp [progState]

theorem tokenSpoils_lcs (c : Nat) (t : List Byte) (s : State) : (tokenSpoils c t s).lcs
    = { s.lcs with q0 := (tokenSpoils c t s).lcs.q0, q2 := (tokenSpoils c t s).lcs.q2 } := by
  unfold tokenSpoils
  split
  · split <;> rfl
  · split <;> rfl
  · rfl
  · rfl

/-- The result of a token whose programming ends as `ok` says. -/
def tokenOutcome (ok : Bool) (s : State) : Nat :=
  if tokenChecks s = 1 ∧ programs (ofLe (takeBytes s.lcs.token 0 1)) = true ∧ ok = false then 9 else tokenChecks s

/-- The block once its token is judged and the nonce is renewed, before the token acts. -/
def tokenJudged (ok : Bool) (s : State) : State :=
  raise 0x000 (if tokenOutcome ok s = 1 then evLcsTokenAccepted else evLcsTokenRefused) (ofLe (takeBytes s.lcs.token 0 1))
    (tokenOutcome ok s) 0 0
    (renewNonce (modLcs (fun l => { l with busy := false, result := tokenOutcome ok s, token := [], key := [] }) s))

theorem tokenJudged_lcs (ok : Bool) (s : State) : (tokenJudged ok s).lcs = { s.lcs with
    busy := false, result := tokenOutcome ok s, token := [], key := [], nonce := (tokenJudged ok s).lcs.nonce } := by
  unfold tokenJudged
  rw [raise_lcs]
  rfl

theorem tokenResult_busy {ok : Bool} (h : s.lcs.busy = true) : tokenResult ok s
    = if tokenOutcome ok s = 1 then tokenEffect (ofLe (takeBytes s.lcs.token 0 1)) s.lcs.token (tokenJudged ok s)
      else if tokenOutcome ok s = 9 then tokenSpoils (ofLe (takeBytes s.lcs.token 0 1)) s.lcs.token (tokenJudged ok s)
      else tokenJudged ok s := by
  have hr : (if tokenChecks s = 1 ∧ programs (ofLe (takeBytes s.lcs.token 0 1)) = true ∧ (!ok) = true then 9 else tokenChecks s)
      = tokenOutcome ok s := by
    unfold tokenOutcome
    simp only [Bool.not_eq_true']
  unfold tokenResult
  rw [if_pos h]
  dsimp only
  rw [hr]
  rfl

/-- A token that is not accepted changes fuses at most, beside what is kept of the judgement. -/
theorem tokenResult_refused {ok : Bool} (h : s.lcs.busy = true) (hr : tokenOutcome ok s ≠ 1) :
    (tokenResult ok s).lcs.busy = false ∧ (tokenResult ok s).lcs.result = tokenOutcome ok s
      ∧ (tokenResult ok s).lcs.state = s.lcs.state := by
  rw [tokenResult_busy h, if_neg hr]
  split
  · rw [tokenSpoils_lcs, tokenJudged_lcs]
    exact ⟨rfl, rfl, rfl⟩
  · rw [tokenJudged_lcs]
    exact ⟨rfl, rfl, rfl⟩

theorem tokenResult_accepted {ok : Bool} (h : s.lcs.busy = true) (hr : tokenOutcome ok s = 1) :
    tokenResult ok s = tokenEffect (ofLe (takeBytes s.lcs.token 0 1)) s.lcs.token (tokenJudged ok s) := by
  rw [tokenResult_busy h, if_pos hr]

/-- TOKEN_RESULT ends busy and keeps the result. -/
theorem tokenResult_reads {ok : Bool} (h : s.lcs.busy = true) :
    (tokenResult ok s).lcs.busy = false ∧ (tokenResult ok s).lcs.result = tokenOutcome ok s := by
  by_cases hr : tokenOutcome ok s = 1
  · obtain ⟨hb, hres⟩ := tokenEffect_result (ofLe (takeBytes s.lcs.token 0 1)) s.lcs.token (tokenJudged ok s)
    rw [tokenResult_accepted h hr, hb, hres, tokenJudged_lcs]
    exact ⟨rfl, rfl⟩
  · obtain ⟨hb, hres, -⟩ := tokenResult_refused h hr
    exact ⟨hb, hres⟩

theorem tokenOutcome_refused {ok : Bool} (h : tokenChecks s ≠ 1) : tokenOutcome ok s ≠ 1 := by
  unfold tokenOutcome
  rw [if_neg fun c => h c.1]
  exact h

theorem tokenOutcome_programmed (h : tokenChecks s = 1) : tokenOutcome true s = 1 := by
  unfold tokenOutcome
  rw [if_neg (by simp), h]

theorem tokenEffect_testDone (t : List Byte) (s : State) : (tokenEffect 1 t s).lcs.state = 1 :=
  congrArg Lcs.state (enterState_lcs ..)

theorem tokenEffect_service (t : List Byte) (s : State) : (tokenEffect 3 t s).lcs.state = 3 :=
  (congrArg Lcs.state (openDebug_lcs ..)).trans (congrArg Lcs.state (enterState_lcs ..))

theorem tokenEffect_return (t : List Byte) (s : State) :
    (tokenEffect 6 t s).lcs.state = 4 ∧ (tokenEffect 6 t s).lcs.zeroising = true := by
  change (beginZeroise (enterState 4 _)).lcs.state = 4 ∧ _
  rw [beginZeroise_lcs, enterState_lcs]
  exact ⟨rfl, congrArg Lcs.zeroising (beginZeroise_lcs ..)⟩

/-! ### Zeroisation (R490) -/

theorem mget_foldl_mset {V : Type} [DecidableEq V] (d v : V) (l : List Nat) (k : Nat) : ∀ m : Map V,
    mget d (l.foldl (fun m j => mset d m j v) m) k = if k ∈ l then v else mget d m k := by
  induction l with
  | nil => exact fun m => rfl
  | cons j l ih =>
    intro m
    rw [List.foldl_cons, ih, mget_mset]
    by_cases hl : k ∈ l
    · rw [if_pos hl, if_pos (List.mem_cons_of_mem j hl)]
    · simp [hl, eq_comm]

/-- A key slot whose every bit is programmed. -/
def spoiledSlot : KeySlot := ⟨⟨2 ^ 384 - 1, 2 ^ 384 - 1, 2 ^ 384 - 1⟩, ⟨3, 3, 3⟩, true⟩

/-- Every owner key slot is spoiled, in each copy of the fuses. -/
theorem spoilSlots_slot {k : Nat} (h : k < 4) (s : State) :
    slotOf (spoilSlots s).lcs.q0 k = spoiledSlot := by
  unfold slotOf spoilSlots
  extract_lets all
  rw [modFuses_lcs, mget_foldl_mset, if_pos (show k ∈ upTo 4 from List.mem_range.mpr h)]
  rfl

/-- The end of a zeroisation leaves the device's memories empty, the key slots spoiled and the state as it was. -/
theorem zeroisationEnd_ends (hz : s.lcs.zeroising = true) (hp : s.pwr.phase ≠ .started) :
    (zeroisationEnd s).lcs.zeroising = false ∧ (zeroisationEnd s).mem = [] ∧ (zeroisationEnd s).tmem = []
      ∧ (zeroisationEnd s).pkts = [] ∧ (zeroisationEnd s).lcs.state = s.lcs.state
      ∧ ∀ k, k < 4 → slotOf (zeroisationEnd s).lcs.q0 k = spoiledSlot := by
  unfold zeroisationEnd
  rw [if_pos (by rw [hz, decide_eq_true hp]; rfl), raise_lcs, raise_mem, raise_tmem, raise_pkts]
  exact ⟨rfl, rfl, rfl, rfl, rfl, fun k h => spoilSlots_slot h (zeroFill s)⟩

theorem zeroisationEnd_started (h : s.pwr.phase = .started) : zeroisationEnd s = s :=
  if_neg (by rw [h]; simp)

end LifeCycle

/-! ### The claim -/

/-- Settles O24: a token row is the go of its token; the result acts on the fuses and the state as it is judged. -/
theorem lifeCycleTokens : Obligations.LifeCycleTokens := by
  refine ⟨?go, fun path c k s hc w hk => (exec_tokenRow hc s).trans (congrArg _ (tokenRow_otherCode w hk)), ?busy, ?result,
    fun ok s h => congrArg _ (if_neg (by rw [h]; exact Bool.false_ne_true)), fun s h => congrArg _ (zeroisationEnd_started h),
    fun s hz hp => ⟨_, rfl, zeroisationEnd_ends hz hp⟩, fun op s => rfl⟩
  case go =>
    intro path c k s hc w hk hb
    exact ⟨_, (exec_tokenRow hc s).trans (congrArg _ ((tokenRow_code w hk).trans (tokenGo_idle path hb))), clearBufs_lcs _,
      clearBufs_token _, clearBufs_key _⟩
  case busy =>
    intro path c k s hc w hk hb
    exact ⟨_, (exec_tokenRow hc s).trans (congrArg _ (tokenRow_code w hk)), tokenGo_busy path hb⟩
  case result =>
    intro ok s h
    obtain ⟨hb, hr⟩ := tokenResult_reads (ok := ok) h
    refine ⟨_, rfl, hb, hr, fun hc => (tokenResult_refused h (tokenOutcome_refused hc)).2.2, ?_, ?_, ?_⟩
    all_goals
      rintro hc rfl ht
      rw [tokenResult_accepted h (tokenOutcome_programmed hc), ht]
    · exact tokenEffect_testDone ..
    · exact tokenEffect_service ..
    · exact tokenEffect_return ..

end Sys2Proof.Proofs
end

section
/-! Supplies, die temperatures and the service port (R430, R522, R528, R531). -/

namespace Sys2Proof.Proofs

open Sys2Proof.Machine Sys2Proof.Laws

/-! ### Supplies (R430, R522) -/

theorem deliver_chk (e : Ev) (s : State) : (deliver e s).chk = s.chk :=
  (deliver_keeps (Only.allows 10200553760 s) rfl e s (Only.refl _ s)).chk rfl

theorem freezeCheck_chk (s : State) : (freezeCheck s).chk = s.chk :=
  (freezeCheck_keeps (Only.allows 10200553760 s) rfl s (Only.refl _ s)).chk rfl

theorem eventsLapse_badRails (s : State) : (eventsLapse s).chk.badRails = s.chk.badRails := by
  unfold eventsLapse
  split
  · rw [cntInc_chk, deliver_chk]
    rfl
  · rfl

/-- Raising an event writes of the check engines the guarantee's status only. -/
theorem raise_badRails (src code p0 p1 p2 p3 : Nat) (s : State) :
    (raise src code p0 p1 p2 p3 s).chk.badRails = s.chk.badRails := by
  unfold raise raiseSev
  split
  · rfl
  · rw [eventsLapse_badRails, freezeCheck_chk, deliver_chk]

theorem guardCheck_badRails (s : State) : (guardCheck s).chk.badRails = s.chk.badRails := by
  unfold guardCheck
  extract_lets old new s1 lost got s2
  have h2 : s2.chk.badRails = s.chk.badRails := by
    simp only [s2]
    split
    · exact raise_badRails ..
    · rfl
  split
  · rfl
  · split
    · exact (raise_badRails ..).trans h2
    · exact h2

theorem supplyOut_new {r : Nat} {s : State} (h : s.chk.badRails.contains r = false) :
    (supplyOut r s).chk.badRails = s.chk.badRails ++ [r] := by
  unfold supplyOut
  rw [if_neg (by rw [h]; exact Bool.false_ne_true), guardCheck_badRails, raise_badRails]
  rfl

theorem supplyOut_known {r : Nat} {s : State} (h : s.chk.badRails.contains r = true) : supplyOut r s = s := if_pos h

theorem railBack_badRails (r : Nat) (s : State) : (railBack r s).chk.badRails = s.chk.badRails.filter (· ≠ r) :=
  guardCheck_badRails _

/-! ### Heat (R531) -/

theorem thermCheck_hot {who : Nat} {reading threshold : Int} (h : threshold < reading) (s : State) :
    (thermCheck who reading threshold s).pwr.alert = true := by
  unfold thermCheck
  simp [h]

theorem dieTemp_reads {d : Nat} {x : Int} {s : State} (hd : hasDie s.part d = true) :
    mget 0 (dieTemp d x s).pwr.temps d = x ∧ ((alertC s : Int) < x → (dieTemp d x s).pwr.alert = true) := by
  unfold dieTemp
  rw [if_pos hd, guardCheck_pwr]
  exact ⟨mget_mset_same .., fun h => thermCheck_hot h _⟩

/-! ### The service port (R528) -/

section Port

variable {s : State}

theorem smbusSetOffset_answered (o : Nat) (h : answering s = true) :
    exec (.smbusSetOffset o) s = .next { s with smb := { s.smb with offset := o % 2 ^ 32 } } := congrArg _ (if_pos h)

theorem smbusWrite_answered (v : Word) (h : answering s = true) :
    exec (.smbusWrite v true) s = .next (smbNext (addrWrite .smbus s.smb.offset v s)) := congrArg _ (if_pos (by rw [h]; rfl))

theorem smbusRead_answered (h : answering s = true) : exec (.smbusRead true) s = .next (smbNext (smbRead s)) :=
  congrArg _ (if_pos (by rw [h]; rfl))

theorem smbusWrite_unanswered (v : Word) {p : Bool} (h : (answering s && p) = false) : exec (.smbusWrite v p) s = .next s :=
  congrArg _ (if_neg (by rw [h]; exact Bool.false_ne_true))

theorem smbusRead_unanswered {p : Bool} (h : (answering s && p) = false) : exec (.smbusRead p) s = .next s :=
  congrArg _ (if_neg (by rw [h]; exact Bool.false_ne_true))

theorem smbusSetOffset_unanswered (o : Nat) (h : answering s = false) : exec (.smbusSetOffset o) s = .next s :=
  congrArg _ (if_neg (by rw [h]; exact Bool.false_ne_true))

theorem smbRead_reg {r : Reg} (h : regAt s.smb.offset = some r) (hr : r ≠ .pwrStatus) : smbRead s = regReadOn .smbus r s := by
  unfold smbRead
  rw [h]
  exact if_neg hr

theorem smbRead_pwrStatus (h : regAt s.smb.offset = some .pwrStatus) : (smbRead s).smb.fatal = false := by
  unfold smbRead
  rw [h]
  dsimp only
  rw [if_pos rfl]

theorem smbRead_reserved (h : regAt s.smb.offset = none) : smbRead s = { s with readData := 0 } := by
  unfold smbRead
  rw [h]

end Port

/-! ### The claim -/

/-- Settles O25: each row is its operation, by the branch its clause names; events and the guarantee's check keep the rails. -/
theorem suppliesHeatAndServicePort : Obligations.SuppliesHeatAndServicePort :=
  ⟨fun _ _ h => ⟨_, rfl, supplyOut_new h⟩, fun _ _ h => congrArg _ (supplyOut_known h),
    fun r s => ⟨_, rfl, railBack_badRails r s⟩,
    fun _ _ _ hd => ⟨_, rfl, dieTemp_reads hd⟩, fun o _ h => smbusSetOffset_answered o h, fun v _ h => smbusWrite_answered v h,
    fun v _ => smbusWrite_unanswered v (Bool.and_false _),
    fun _ _ h hr hn => (smbusRead_answered h).trans (by rw [smbRead_reg hr hn]),
    fun _ h hr => ⟨_, smbusRead_answered h, smbRead_pwrStatus hr⟩,
    fun _ h hr => (smbusRead_answered h).trans (by rw [smbRead_reserved hr]; rfl),
    fun _ => smbusRead_unanswered (Bool.and_false _),
    fun o v _ _ h => ⟨smbusSetOffset_unanswered o h, smbusWrite_unanswered v (by rw [h]; rfl),
      smbusRead_unanswered (by rw [h]; rfl)⟩⟩

end Sys2Proof.Proofs
end

section
/-! Frames of the flow rows and the flow commands (R178, R186, R211, R224): the parts each row can write are read off its own
lemma (exec<Name>_keeps). A set of parts is a number whose bits are State's fields, counted from 0 in their order. -/

namespace Sys2Proof.Proofs

open Sys2Proof.Machine Sys2Proof.Laws

/-- What an owner's answer to a request or a report can write: the HBM's contents, frames and cell buffers, beside the cores and
tasks, the flow state and an event's. -/
abbrev ownerParts : Nat := flowTaskEventParts + 2 ^ 10 + 2 ^ 13 + 2 ^ 22

/-- What a frame that is confirmed can write: frames, parsers, pipelines, cell buffers, the fabric and egress, beside the cores and
tasks, the flow state and an event's. -/
abbrev confirmParts : Nat := flowTaskEventParts + 2 ^ 13 + 2 ^ 15 + 2 ^ 18 + 2 ^ 22 + 2 ^ 23 + 2 ^ 24

/-- Those of `confirmParts`, and what a pass that is made again can write: the tables, the next packet and the forwarding state. -/
abbrev passParts : Nat := confirmParts + 2 ^ 9 + 2 ^ 14 + 2 ^ 16

/-- Settles O50: what each row's own lemma says it can write. -/
theorem frameFlow : Obligations.FrameFlow := by
  refine ⟨⟨?flowRequest, ?frameCheckReport⟩, ?flowFetchDone, ?hbmWriteAccepted,
    ⟨?createTmoExpiry, ?backendRequest, ?flowSweepVisit, ?exportRoom, ?exportTmoExpiry, ?peerEnd, ?ctNotice, ?pullAnswer⟩,
    ?ownerSwitch, ⟨?hotLineWritebackDone, ?deltaArrival⟩, ?portRelease, ?natBlockFree,
    ⟨?deltaSend, ?flowPull, ?horizonStampForm⟩,
    ⟨?answer, ?invalidation, ?horizonStamp, ?finalStamp, ?specTimeout, ?replay⟩, ?invalidationAck, ?confirmNotice,
    ?unstableEntryExpiry, ?stallNsExpiry, ?flowWrite, ⟨?flowDelete, ?g3FlowDelete⟩, ⟨?flowRead, ?flowRestore⟩⟩
  case flowRequest =>
    exact fun n => leaves_of_execKeeps (ownerParts + 2 ^ 26) (fun _ _ => rfl) fun A => execFlowRequest_keeps A rfl n
  case frameCheckReport =>
    exact fun n => leaves_of_execKeeps (ownerParts + 2 ^ 26) (fun _ _ => rfl) fun A => execFrameCheckReport_keeps A rfl n
  case flowFetchDone =>
    exact fun n => leaves_of_execKeeps (frameEgressParts + 2 ^ 3 + 2 ^ 26) (fun _ _ => rfl) fun A =>
      execFlowFetchDone_keeps A rfl n
  case hbmWriteAccepted =>
    exact fun n => leaves_of_execKeeps (flowTaskCountParts + 2 ^ 12 + 2 ^ 26) (fun _ _ => rfl) fun A =>
      execHbmWriteAccepted_keeps A rfl n
  case createTmoExpiry =>
    exact fun n r => leaves_of_execKeeps frameEgressParts (fun _ _ => rfl) fun A => execCreateTmoExpiry_keeps A rfl n r
  case backendRequest =>
    exact fun n => leaves_of_execKeeps frameEgressParts (fun _ _ => rfl) fun A => execBackendRequest_keeps A rfl n
  case flowSweepVisit =>
    exact fun n => leaves_of_execKeeps frameEgressParts (fun _ _ => rfl) fun A => execFlowSweepVisit_keeps A rfl n
  case exportRoom => exact fun n => leaves_of_execKeeps frameEgressParts (fun _ _ => rfl) fun A => execExportRoom_keeps A rfl n
  case exportTmoExpiry =>
    exact fun n => leaves_of_execKeeps frameEgressParts (fun _ _ => rfl) fun A => execExportTmoExpiry_keeps A rfl n
  case peerEnd => exact fun n => leaves_of_execKeeps frameEgressParts (fun _ _ => rfl) fun A => execPeerEnd_keeps A rfl n
  case ctNotice => exact fun n => leaves_of_execKeeps frameEgressParts (fun _ _ => rfl) fun A => execCtNotice_keeps A rfl n
  case pullAnswer =>
    exact fun n r => leaves_of_execKeeps frameEgressParts (fun _ _ => rfl) fun A => execPullAnswer_keeps A rfl n r
  case ownerSwitch =>
    exact fun n => leaves_of_execKeeps (ownerParts + 2 ^ 4 + 2 ^ 32) (fun _ _ => rfl) fun A => execOwnerSwitch_keeps A rfl n
  case hotLineWritebackDone =>
    exact fun n r => leaves_of_execKeeps (2 ^ 10 + 2 ^ 11 + 2 ^ 17) (fun _ _ => rfl) fun A =>
      execHotLineWritebackDone_keeps A rfl n r
  case deltaArrival =>
    exact fun n => leaves_of_execKeeps (2 ^ 10 + 2 ^ 11 + 2 ^ 17) (fun _ _ => rfl) fun A => execDeltaArrival_keeps A rfl n
  case portRelease =>
    exact fun n => leaves_of_execKeeps (2 ^ 10 + 2 ^ 17) (fun _ _ => rfl) fun A => execPortRelease_keeps A rfl n
  case natBlockFree =>
    exact fun n => leaves_of_execKeeps (2 ^ 9 + 2 ^ 17) (fun _ _ => rfl) fun A => execNatBlockFree_keeps A rfl n
  case deltaSend => exact fun p r => leaves_of_execKeeps (2 ^ 17) (fun _ _ => rfl) fun A => execDeltaSend_keeps A rfl p r
  case flowPull => exact fun n p => leaves_of_execKeeps (2 ^ 17) (fun _ _ => rfl) fun A => execFlowPull_keeps A rfl n p
  case horizonStampForm =>
    exact fun n => leaves_of_execKeeps (2 ^ 17) (fun _ _ => rfl) fun A => execHorizonStampForm_keeps A rfl n
  case answer => exact fun n p => leaves_of_execKeeps passParts (fun _ _ => rfl) fun A => execAnswer_keeps A rfl n p
  case invalidation =>
    exact fun n p => leaves_of_execKeeps passParts (fun _ _ => rfl) fun A => execInvalidation_keeps A rfl n p
  case horizonStamp =>
    exact fun n p => leaves_of_execKeeps passParts (fun _ _ => rfl) fun A => execHorizonStamp_keeps A rfl n p
  case finalStamp => exact fun n p => leaves_of_execKeeps passParts (fun _ _ => rfl) fun A => execFinalStamp_keeps A rfl n p
  case specTimeout => exact fun p => leaves_of_execKeeps passParts (fun _ _ => rfl) fun A => execSpecTimeout_keeps A rfl p
  case replay => exact fun p => leaves_of_execKeeps passParts (fun _ _ => rfl) fun A => execReplay_keeps A rfl p
  case invalidationAck =>
    exact fun n => leaves_of_execKeeps (2 ^ 4 + 2 ^ 8 + 2 ^ 11 + 2 ^ 12 + 2 ^ 17) (fun _ _ => rfl) fun A =>
      execInvalidationAck_keeps A rfl n
  case confirmNotice =>
    exact fun k => leaves_of_execKeeps confirmParts (fun _ _ => rfl) fun A => execConfirmNotice_keeps A rfl k
  case unstableEntryExpiry =>
    exact fun p r => leaves_of_execKeeps (2 ^ 18) (fun _ _ => rfl) fun A => execUnstableEntryExpiry_keeps A rfl p r
  case stallNsExpiry =>
    exact fun p n => leaves_of_execKeeps (eventParts + 2 ^ 18) (fun _ _ => rfl) fun A => execStallNsExpiry_keeps A rfl p n
  case flowWrite =>
    exact fun h t => leaves_of_execKeeps (frameEgressParts + 2 ^ 3 + 2 ^ 4 + 2 ^ 26) (fun _ _ => rfl) fun A =>
      execFlowWrite_keeps A rfl h t
  case flowDelete =>
    exact fun h t => leaves_of_execKeeps (frameEgressParts + 2 ^ 4) (fun _ _ => rfl) fun A => execFlowDelete_keeps A rfl h t
  case g3FlowDelete =>
    exact fun h r => leaves_of_execKeeps (frameEgressParts + 2 ^ 4) (fun _ _ => rfl) fun A => execG3FlowDelete_keeps A rfl h r
  case flowRead =>
    exact fun h t => leaves_of_execKeeps (eventParts + 2 ^ 4) (fun _ _ => rfl) fun A => execFlowRead_keeps A rfl h t
  case flowRestore =>
    exact fun h t => leaves_of_execKeeps (eventParts + 2 ^ 4) (fun _ _ => rfl) fun A => execFlowRestore_keeps A rfl h t

end Sys2Proof.Proofs
end

section
/-! Flow records seen over changes of an owner's queues: what reading a record depends on (R180, R183, R184), and what the rows'
shared operations leave of it. -/

namespace Sys2Proof.Proofs

open Sys2Proof.Machine Sys2Proof.Laws

variable {s t u : State}

/-- t has the records of s: the same HBM and numbers, and owners that serve the same halves with the same lines. -/
structure SameRecords (s t : State) : Prop where
  samePart : t.part = s.part
  sameMem : t.mem = s.mem
  sameHalf : ∀ n, half t n = half s n
  sameServes : ∀ n, (slice t n).servesOwn = (slice s n).servesOwn
  sameHot : ∀ n, (slice t n).hot = (slice s n).hot

theorem SameRecords.refl (s : State) : SameRecords s s := ⟨rfl, rfl, fun _ => rfl, fun _ => rfl, fun _ => rfl⟩

theorem SameRecords.trans (H : SameRecords s t) (K : SameRecords t u) : SameRecords s u :=
  ⟨K.samePart.trans H.samePart, K.sameMem.trans H.sameMem, fun n => (K.sameHalf n).trans (H.sameHalf n),
    fun n => (K.sameServes n).trans (H.sameServes n), fun n => (K.sameHot n).trans (H.sameHot n)⟩

/-- A change outside the flow part and HBM leaves the records. -/
theorem SameRecords.of_flow (hf : t.flow = s.flow) (hp : t.part = s.part) (hm : t.mem = s.mem) : SameRecords s t :=
  ⟨hp, hm, fun n => by unfold half; rw [hf], fun n => by rw [slice_congr hf], fun n => by rw [slice_congr hf]⟩

/-- A field of a slice that a change of one slice keeps is kept in every slice. -/
theorem slice_modSlice_field {α : Type} (g : Slice → α) {f : Slice → Slice} (h : ∀ x, g (f x) = g x) (k : Nat) (s : State) (n : Nat) :
    g (slice (modSlice k f s) n) = g (slice s n) := by
  by_cases e : k = n
  · rw [e, slice_modSlice, h]
  · rw [slice_modSlice_ne e]

/-- A change of an owner's queues leaves the records. -/
theorem SameRecords.of_modSlice (k : Nat) {f : Slice → Slice} (hs : ∀ x, (f x).servesOwn = x.servesOwn) (hh : ∀ x, (f x).hot = x.hot)
    (s : State) : SameRecords s (modSlice k f s) :=
  ⟨rfl, rfl, fun _ => rfl, slice_modSlice_field _ hs k s, slice_modSlice_field _ hh k s⟩

theorem SameRecords.of_sendChan (k p : Nat) (m : ChanMsg) (s : State) : SameRecords s (sendChan k p m s) :=
  ⟨rfl, rfl, fun _ => rfl, fun _ => rfl, fun _ => rfl⟩

theorem SameRecords.of_fleCnt (k i : Nat) (s : State) : SameRecords s (fleCnt k i s) :=
  .of_flow (cntInc_flow ..) (cntInc_part ..) (cntInc_mem ..)

section Reads

variable (H : SameRecords s t)
include H

theorem SameRecords.hotOf_eq (n r : Nat) : hotOf t n r = hotOf s n r := by unfold hotOf; rw [H.sameHot]

theorem SameRecords.hotKey_eq (n : Nat) (key : List Byte) (prof : Nat) : hotKey t n key prof = hotKey s n key prof := by
  unfold hotKey; rw [H.sameHot]

theorem SameRecords.halfOwner_eq (n : Nat) : halfOwner t n = halfOwner s n := by unfold halfOwner; rw [H.sameServes]

theorem SameRecords.recOwner_eq (r : Nat) : recOwner t r = recOwner s r := H.halfOwner_eq _

theorem SameRecords.homeHalf_eq (h : Nat) : homeHalf t h = homeHalf s h := by unfold homeHalf; rw [H.samePart]

theorem SameRecords.recLive_eq (r : Nat) : recLive t r = recLive s r := by
  unfold recLive recUsed recNew
  rw [H.recOwner_eq, H.hotOf_eq, H.sameHalf, H.samePart]

theorem SameRecords.recN_eq (r o k : Nat) : recN t r o k = recN s r o k := recN_congr H.sameMem r o k

theorem SameRecords.recKey_eq (r : Nat) : recKey t r = recKey s r := by unfold recKey; rw [H.sameMem]

theorem SameRecords.recProf_eq (r : Nat) : recProf t r = recProf s r := by unfold recProf; rw [H.recN_eq]

theorem SameRecords.recKind_eq (r : Nat) : recKind t r = recKind s r := by unfold recKind; rw [H.recN_eq]

theorem SameRecords.recLife_eq (r : Nat) : recLife t r = recLife s r := by unfold recLife; rw [H.recN_eq]

theorem SameRecords.recOpen_eq (r : Nat) : recOpen t r = recOpen s r := by unfold recOpen; rw [H.recLive_eq, H.recLife_eq]

theorem SameRecords.peerOf_eq (r : Nat) : peerOf t r = peerOf s r := by
  have hp : recPeer t r = recPeer s r := H.recN_eq r 52 4
  unfold peerOf
  dsimp only
  rw [H.recKind_eq, hp, H.recLive_eq]

theorem SameRecords.idxFind_eq (h g : Nat) (key : List Byte) (prof : Nat) : idxFind t h g key prof = idxFind s h g key prof := by
  have he : idxEntry t = idxEntry s := by funext a; unfold idxEntry; rw [H.sameMem]
  have hl : ∀ r, recKeyLen t r = recKeyLen s r := fun r => H.recN_eq r 41 1
  unfold idxFind
  rw [H.homeHalf_eq, he]
  simp only [H.recLive_eq, hl, H.recProf_eq, H.recKey_eq]

end Reads

/-! ### Channels -/

/-- A message sent is in its channel, and stays there while others are sent. -/
theorem mem_chan_sendChan {m m' : ChanMsg} {n k p q : Nat} (h : m ∈ chan s n p) : m ∈ chan (sendChan k q m' s) n p := by
  unfold sendChan modChan chan at *
  rw [mget_mset]
  split
  · rename_i e
    rw [e]
    exact List.mem_append_left _ h
  · exact h

/-- A message sent to every pipeline of a list is in the channel of each. -/
theorem mem_chan_each_sendChan (sl : Nat) (m : ChanMsg) {l : List Nat} {p : Nat} (hp : p ∈ l) (s : State) :
    m ∈ chan (each l (fun p u => sendChan sl p m u) s) sl p := by
  induction l generalizing s with
  | nil => exact absurd hp (List.not_mem_nil)
  | cons a r ih =>
    rw [each_cons]
    by_cases hr : p ∈ r
    · exact ih hr _
    · have e : p = a := by simpa [hr] using hp
      subst e
      exact each_inv _ (fun t => m ∈ chan t sl p) r _ (fun _ _ _ h => mem_chan_sendChan h)
        (by rw [chan_sendChan]; exact List.mem_append_right _ (List.mem_singleton.mpr rfl))

theorem slice_each_sendChan (sl : Nat) (m : ChanMsg) (l : List Nat) (s : State) (n : Nat) :
    slice (each l (fun p u => sendChan sl p m u) s) n = slice s n :=
  each_inv _ (fun t => slice t n = slice s n) l s (fun _ _ _ h => h) rfl

/-- A change of a slice that sets what stands there already, or two changes that agree on it. -/
theorem modSlice_congr {n : Nat} {f g : Slice → Slice} (h : f (slice s n) = g (slice s n)) : modSlice n f s = modSlice n g s := by
  unfold modSlice; rw [h]

end Sys2Proof.Proofs
end

section
/-! The rows of flow requests (R182, R183, R185, R187, R188, R192, R203, R214): what each leaves, by the branch of its operation that
the conditions of its clause choose. -/

namespace Sys2Proof.Proofs

open Sys2Proof.Machine Sys2Proof.Laws

variable {sl : Nat} {s : State}

/-! ### Answers -/

/-- The answer that carries a record. -/
def recAnswer (s : State) (r : Nat) (q : Req) : ChanMsg :=
  .answer q.key q.prof r (recVer s r) (recFlags48 s r) (recAction s r) (recBackGen s r) (recDir s r) 1

theorem recAnswer_congr {t : State} (h : t.mem = s.mem) (r : Nat) (q : Req) : recAnswer t r q = recAnswer s r q := by
  unfold recAnswer recVer recFlags48 recAction recBackGen recDir
  simp only [recN_congr h]

/-- A request is answered with a record that is committed and has its key, when no write of the record is on its way. -/
theorem answerHeld_gives {r : Nat} {q : Req} (hw : writePending s sl r = false) (hl : recLive s r = true)
    (hk : recKey s r = takeBytes q.key 0 40) (hp : recProf s r = q.prof) :
    answerHeld sl r q s = sendChan sl q.pipe (recAnswer s r q) s := by
  unfold answerHeld answerRec
  rw [hw, hl, decide_eq_true hk, decide_eq_true hp]
  rfl

theorem answerCode_follow (q : Req) (s : State) :
    answerCode sl 0 q s = sendChan sl q.pipe (.answer q.key q.prof 0 0 0 0 0 false 0) s := rfl

theorem writePending_modSlice {f : Slice → Slice} (h : ∀ x, (f x).writes = x.writes) (k n r : Nat) (s : State) :
    writePending (modSlice k f s) n r = writePending s n r := by
  unfold writePending
  rw [slice_modSlice_field _ h]

/-! ### FLOW_REQUEST -/

/-- A request leaves the queue and is counted. -/
def takenReq (sl : Nat) (rest : List Req) (s : State) : State := fleCnt sl 0 (modSlice sl (fun x => { x with reqs := rest }) s)

theorem sameRecords_takenReq (sl : Nat) (rest : List Req) (s : State) : SameRecords s (takenReq sl rest s) :=
  (SameRecords.of_modSlice sl (f := fun x => { x with reqs := rest }) (fun _ => rfl) (fun _ => rfl) s).trans (.of_fleCnt ..)

theorem flowRequest_off (h : sliceOn s sl = false) : flowRequest sl s = s := by
  unfold flowRequest
  rw [h]
  rfl

section Taken

variable {q : Req} {rest : List Req} (hon : sliceOn s sl = true)
  (ht : takeFirst (fun q => !halfLeaving s (reqHalf s q)) (slice s sl).reqs = some (q, rest))
include hon ht

/-- A request whose key is not hot reads both candidate buckets and is kept as a fetch. -/
theorem flowRequest_fetches (hk : hotKey s sl q.key q.prof = none) : ∃ a b, flowRequest sl s
    = modSlice sl (fun x => { x with fetches := x.fetches ++ [q] })
        (hbmPush 0 a (hbmPush 0 b (fleCnt sl 2 (takenReq sl rest s)))) := by
  have hk' : hotKey (takenReq sl rest s) sl q.key q.prof = none := by rw [(sameRecords_takenReq sl rest s).hotKey_eq, hk]
  unfold takenReq at hk'
  unfold flowRequest
  simp only [hon, Bool.not_true, Bool.false_eq_true, if_false, ht, hk']
  exact ⟨_, _, rfl⟩

theorem flowRequest_hot {l : Hot} (hk : hotKey s sl q.key q.prof = some l) :
    flowRequest sl s = hotServe sl l q (fleCnt sl 1 (takenReq sl rest s)) := by
  have hk' : hotKey (takenReq sl rest s) sl q.key q.prof = some l := by rw [(sameRecords_takenReq sl rest s).hotKey_eq, hk]
  unfold takenReq at hk'
  unfold flowRequest
  simp only [hon, Bool.not_true, Bool.false_eq_true, if_false, ht, hk']
  rfl

end Taken

theorem hbmPush_only (p : Nat) (q : HbmReq) (s : State) : Only 67110912 s (hbmPush p q s) :=
  hbmPush_keeps (Only.allows 67110912 s) rfl p q s (Only.refl _ s)

/-- A change of lines leaves a slice's other fields. -/
theorem slice_modHot_field {α : Type} (g : Slice → α) (h : ∀ x l, g { x with hot := l } = g x) (n r : Nat) (f : Hot → Hot) (s : State)
    (k : Nat) : g (slice (modHot n r f s) k) = g (slice s k) :=
  slice_modSlice_field g (fun x => h x _) n s k

/-- A use of a line leaves a slice's fields but the lines and their clock. -/
theorem slice_touchHot_field {α : Type} (g : Slice → α) (hl : ∀ x l, g { x with hot := l } = g x) (hc : ∀ x c, g { x with clock := c } = g x)
    (n r : Nat) (s : State) (k : Nat) : g (slice (touchHot n r s) k) = g (slice s k) :=
  (slice_modHot_field g hl n r _ _ k).trans (slice_modSlice_field g (fun x => hc x _) n s k)

/-- Counters of FLE_CNT with different numbers are different counters. -/
theorem cntGet_fleCnt_ne {i j : Nat} (h : i ≠ j) (s : State) : cntGet (fleCnt sl i s) 0x0581 sl j = cntGet s 0x0581 sl j :=
  cntGet_cntInc_ne (by unfold cntKey; omega) s

@[simp] theorem slice_fleCnt (k i : Nat) (s : State) (n : Nat) : slice (fleCnt k i s) n = slice s n := rfl

@[simp] theorem chan_fleCnt (k i : Nat) (s : State) (n p : Nat) : chan (fleCnt k i s) n p = chan s n p := rfl

theorem slice_takenReq (sl : Nat) (rest : List Req) (s : State) : slice (takenReq sl rest s) sl = { slice s sl with reqs := rest } := by
  unfold takenReq
  rw [slice_fleCnt, slice_modSlice]

theorem chan_takenReq (sl : Nat) (rest : List Req) (s : State) (n p : Nat) : chan (takenReq sl rest s) n p = chan s n p := by
  unfold takenReq
  rw [chan_fleCnt, chan_modSlice]

theorem cntGet_fleCnt (i : Nat) (s : State) : cntGet (fleCnt sl i s) 0x0581 sl i = (cntGet s 0x0581 sl i + 1) % 2 ^ 64 :=
  cntGet_cntAdd s _ _ _ _

/-- A line that is not NEW answers with its record, when no write of it is on its way. -/
theorem hotServe_gives {l : Hot} {q : Req} (hl : l.life ≠ lifeNew) (hw : writePending s sl l.record = false)
    (hr : recLive s l.record = true) (hk : recKey s l.record = takeBytes q.key 0 40) (hp : recProf s l.record = q.prof) :
    hotServe sl l q s = sendChan sl q.pipe (recAnswer s l.record q) (touchHot sl l.record s) := by
  have hm : (touchHot sl l.record s).mem = s.mem := touchHot_mem sl l.record s
  have hw' : writePending (touchHot sl l.record s) sl l.record = false := by
    unfold writePending at hw ⊢
    rw [slice_touchHot_field Slice.writes (fun _ _ => rfl) (fun _ _ => rfl), hw]
  have hk' : recKey (touchHot sl l.record s) l.record = takeBytes q.key 0 40 := by
    unfold recKey at hk ⊢; rw [hm, hk]
  have hp' : recProf (touchHot sl l.record s) l.record = q.prof := by
    unfold recProf at hp ⊢; rw [recN_congr hm, hp]
  unfold hotServe
  rw [if_neg hl, answerHeld_gives hw' ((recLive_touch sl l.record l.record s).trans hr) hk' hp', recAnswer_congr hm]

section FlowRequest

variable {q : Req} {rest : List Req} (hon : sliceOn s sl = true)
  (ht : takeFirst (fun q => !halfLeaving s (reqHalf s q)) (slice s sl).reqs = some (q, rest))
include hon ht

theorem flowRequest_keepsFetch (hk : hotKey s sl q.key q.prof = none) :
    (slice (flowRequest sl s) sl).reqs = rest ∧ (slice (flowRequest sl s) sl).fetches = (slice s sl).fetches ++ [q]
      ∧ (slice (flowRequest sl s) sl).hot = (slice s sl).hot
      ∧ cntGet (flowRequest sl s) 0x0581 sl 0 = (cntGet s 0x0581 sl 0 + 1) % 2 ^ 64 ∧ (flowRequest sl s).mem = s.mem := by
  obtain ⟨a, b, e⟩ := flowRequest_fetches hon ht hk
  have hx : slice (hbmPush 0 a (hbmPush 0 b (fleCnt sl 2 (takenReq sl rest s)))) sl = { slice s sl with reqs := rest } := by
    rw [slice_hbmPush, slice_hbmPush, slice_fleCnt, slice_takenReq]
  have hc : cntGet (hbmPush 0 a (hbmPush 0 b (fleCnt sl 2 (takenReq sl rest s)))) 0x0581 sl 0 = (cntGet s 0x0581 sl 0 + 1) % 2 ^ 64 := by
    rw [cntGet_hbmPush _ _ _ (by decide), cntGet_hbmPush _ _ _ (by decide), cntGet_fleCnt_ne (by decide)]
    exact cntGet_fleCnt 0 _
  have hm : (hbmPush 0 a (hbmPush 0 b (fleCnt sl 2 (takenReq sl rest s)))).mem = s.mem :=
    ((hbmPush_only ..).mem rfl).trans ((hbmPush_only ..).mem rfl)
  rw [e, slice_modSlice, hx]
  exact ⟨rfl, rfl, rfl, hc, hm⟩

theorem flowRequest_answers {l : Hot} (hk : hotKey s sl q.key q.prof = some l) (hn : l.life ≠ lifeNew)
    (hw : writePending s sl l.record = false) (hl : recLive s l.record = true)
    (hkey : recKey s l.record = takeBytes q.key 0 40) (hp : recProf s l.record = q.prof) :
    (slice (flowRequest sl s) sl).reqs = rest
      ∧ chan (flowRequest sl s) sl q.pipe = chan s sl q.pipe ++ [recAnswer s l.record q] ∧ (flowRequest sl s).mem = s.mem := by
  have R : SameRecords s (fleCnt sl 1 (takenReq sl rest s)) := (sameRecords_takenReq sl rest s).trans (.of_fleCnt ..)
  have hw' : writePending (fleCnt sl 1 (takenReq sl rest s)) sl l.record = false := by
    unfold writePending at hw ⊢
    rw [slice_fleCnt, slice_takenReq, hw]
  rw [flowRequest_hot hon ht hk, hotServe_gives hn hw' ((R.recLive_eq _).trans hl) ((R.recKey_eq _).trans hkey)
    ((R.recProf_eq _).trans hp), recAnswer_congr R.sameMem, slice_sendChan, chan_sendChan, chan_touchHot,
    slice_touchHot_field Slice.reqs (fun _ _ => rfl) (fun _ _ => rfl), chan_fleCnt, chan_takenReq, slice_fleCnt, slice_takenReq,
    sendChan_mem, touchHot_mem]
  exact ⟨rfl, rfl, R.sameMem⟩

end FlowRequest

/-! ### FLOW_FETCH_DONE -/

theorem hbmReturned_only (p a : Nat) (s : State) : Only 67110912 s (hbmReturned p a s) :=
  hbmReturned_keeps (Only.allows 67110912 s) rfl p a s (Only.refl _ s)

theorem flowFetchDone_off (h : sliceOn s sl = false) : flowFetchDone sl s = s := by
  unfold flowFetchDone
  rw [h]
  rfl

/-- The oldest fetch has returned: it is taken off its slice's list, and its reads off HBM's. -/
def returnedFetch (sl : Nat) (q : Req) (rest : List Req) (s : State) : State :=
  hbmReturned 0 (mAddr (dieOfSlice sl) (0x100000000 + 64 * (q.g % 2 ^ 22)))
    (hbmReturned 0 (mAddr (dieOfSlice sl) (0x100000000 + 64 * (q.h % 2 ^ 22))) (modSlice sl (fun x => { x with fetches := rest }) s))

theorem returnedFetch_only (sl : Nat) (q : Req) (rest : List Req) (s : State) :
    Only 67110912 (modSlice sl (fun x => { x with fetches := rest }) s) (returnedFetch sl q rest s) :=
  (hbmReturned_only ..).trans (hbmReturned_only ..)

theorem sameRecords_returnedFetch (sl : Nat) (q : Req) (rest : List Req) (s : State) : SameRecords s (returnedFetch sl q rest s) := by
  have O := returnedFetch_only sl q rest s
  exact (SameRecords.of_modSlice sl (f := fun x => { x with fetches := rest }) (fun _ => rfl) (fun _ => rfl) s).trans
    (.of_flow (O.flow rfl) (O.part rfl) (O.mem rfl))

/-- A fetch that finds neither a line nor a record of a profile that makes none is answered FOLLOW. -/
theorem fetchServe_follows {q : Req} (hk : hotKey s sl q.key q.prof = none) (hi : idxFind s q.h q.g q.key q.prof = none)
    (hm : profMode (profEntry s (dieOfSlice sl) q.prof) = 0 ∨ profMode (profEntry s (dieOfSlice sl) q.prof) = 3) :
    fetchServe sl q s = (true, answerCode sl 0 q s) := by
  unfold fetchServe newFlow
  rw [hk, hi]
  exact if_pos hm

theorem flowFetchDone_follows {q : Req} {rest : List Req} (hon : sliceOn s sl = true) (hf : (slice s sl).fetches = q :: rest)
    (hk : hotKey s sl q.key q.prof = none) (hi : idxFind s q.h q.g q.key q.prof = none)
    (hm : profMode (profEntry s (dieOfSlice sl) q.prof) = 0 ∨ profMode (profEntry s (dieOfSlice sl) q.prof) = 3) :
    flowFetchDone sl s = answerCode sl 0 q (returnedFetch sl q rest s) := by
  have R := sameRecords_returnedFetch sl q rest s
  have hp : profEntry (returnedFetch sl q rest s) = profEntry s := by
    funext d p
    unfold profEntry tEntry tRead
    rw [(returnedFetch_only sl q rest s).tmem rfl]
    rfl
  have e := fetchServe_follows (sl := sl) (s := returnedFetch sl q rest s) (q := q) (by rw [R.hotKey_eq, hk]) (by rw [R.idxFind_eq, hi])
    (by rw [hp]; exact hm)
  unfold returnedFetch at e ⊢
  unfold flowFetchDone
  simp only [hon, Bool.not_true, Bool.false_eq_true, if_false, hf, e]

theorem flowFetchDone_answers {q : Req} {rest : List Req} (hon : sliceOn s sl = true) (hf : (slice s sl).fetches = q :: rest)
    (hk : hotKey s sl q.key q.prof = none) (hi : idxFind s q.h q.g q.key q.prof = none)
    (hm : profMode (profEntry s (dieOfSlice sl) q.prof) = 0 ∨ profMode (profEntry s (dieOfSlice sl) q.prof) = 3) :
    (slice (flowFetchDone sl s) sl).fetches = rest
      ∧ chan (flowFetchDone sl s) sl q.pipe = chan s sl q.pipe ++ [.answer q.key q.prof 0 0 0 0 0 false 0]
      ∧ (flowFetchDone sl s).mem = s.mem := by
  have O := returnedFetch_only sl q rest s
  have hc : chan (returnedFetch sl q rest s) sl q.pipe = chan s sl q.pipe := by unfold chan; rw [O.flow rfl]; rfl
  rw [flowFetchDone_follows hon hf hk hi hm, answerCode_follow, slice_sendChan, chan_sendChan, hc, slice_congr (O.flow rfl),
    slice_modSlice, sendChan_mem, (sameRecords_returnedFetch sl q rest s).sameMem]
  exact ⟨rfl, rfl, rfl⟩

/-! ### FRAME_CHECK_REPORT -/

theorem frameCheckReport_off (h : sliceOn s sl = false) : frameCheckReport sl s = s := by
  unfold frameCheckReport
  rw [h]
  rfl

/-- The lines a report is for: placeholders that park its packet or have it as their trigger. -/
def reportLines (s : State) (sl k : Nat) : List Hot :=
  (slice s sl).hot.filter fun l => decide (l.life = lifeNew) && ((parkedPkts s l).contains k || decide (l.trig = some k))

theorem frameCheckReport_reaches {k : Nat} {ok : Bool} {rest : List (Nat × Bool)} (hon : sliceOn s sl = true)
    (hr : (slice s sl).reports = (k, ok) :: rest) {ls : List Hot}
    (hl : reportLines (modSlice sl (fun x => { x with reports := rest }) s) sl k = ls) : frameCheckReport sl s
      = each ls (fun l t => evalNew sl l.record (modHot sl l.record (fun x => { x with checks := x.checks ++ [(k, ok)] }) t))
          (modSlice sl (fun x => { x with reports := rest }) s) := by
  subst hl
  unfold frameCheckReport reportLines
  simp only [hon, Bool.not_true, Bool.false_eq_true, if_false, hr]

/-- A report that no placeholder stands for is dropped. -/
theorem frameCheckReport_drops {k : Nat} {ok : Bool} {rest : List (Nat × Bool)} (hon : sliceOn s sl = true)
    (hr : (slice s sl).reports = (k, ok) :: rest) (hn : ∀ l ∈ (slice s sl).hot, l.life ≠ lifeNew) :
    frameCheckReport sl s = modSlice sl (fun x => { x with reports := rest }) s := by
  have hl : reportLines (modSlice sl (fun x => { x with reports := rest }) s) sl k = [] := by
    unfold reportLines
    rw [slice_modSlice]
    refine List.filter_eq_nil_iff.mpr fun l h => ?_
    rw [decide_eq_false (hn l h)]
    exact Bool.false_ne_true
  rw [frameCheckReport_reaches hon hr hl, each_nil]

/-- A placeholder whose record is being made is only told of a check. -/
theorem evalNew_creating {r : Nat} {l : Hot} (h : hotOf s sl r = some l) (hc : l.creating = true) : evalNew sl r s = s := by
  unfold evalNew
  rw [h]
  exact if_pos (.inl hc)

/-- The report of its trigger reaches the one placeholder there is, while its record is being made. -/
theorem frameCheckReport_told {k : Nat} {ok : Bool} {rest : List (Nat × Bool)} {l : Hot} (hon : sliceOn s sl = true)
    (hr : (slice s sl).reports = (k, ok) :: rest) (hh : (slice s sl).hot = [l]) (hn : l.life = lifeNew) (ht : l.trig = some k)
    (hc : l.creating = true) : (slice (frameCheckReport sl s) sl).reports = rest
      ∧ (slice (frameCheckReport sl s) sl).hot = [{ l with checks := l.checks ++ [(k, ok)] }] := by
  have hl : reportLines (modSlice sl (fun x => { x with reports := rest }) s) sl k = [l] := by
    unfold reportLines
    rw [slice_modSlice]
    simp [hh, hn, ht]
  have hx : slice (modHot sl l.record (fun x => { x with checks := x.checks ++ [(k, ok)] }) (modSlice sl (fun x => { x with reports := rest }) s)) sl
      = { slice s sl with reports := rest, hot := [{ l with checks := l.checks ++ [(k, ok)] }] } := by
    unfold modHot
    rw [slice_modSlice, slice_modSlice, hh]
    simp
  have ho : hotOf (modHot sl l.record (fun x => { x with checks := x.checks ++ [(k, ok)] }) (modSlice sl (fun x => { x with reports := rest }) s))
      sl l.record = some { l with checks := l.checks ++ [(k, ok)] } := by
    unfold hotOf
    rw [hx]
    simp
  rw [frameCheckReport_reaches hon hr hl, each_cons, each_nil, evalNew_creating ho hc, hx]
  exact ⟨rfl, rfl⟩

/-! ### CREATE_TMO_EXPIRY -/

/-- When a placeholder's creation is over its time. -/
def createDue (s : State) (sl : Nat) (l : Hot) : Nat := l.newAt + cfg1 s (.fleCreateCfg (dieOfSlice sl)) 31 16 * 1000000

theorem createTmo_waits {r : Nat} {l : Hot} (h : hotOf s sl r = some l) (hn : s.now < createDue s sl l) : createTmo sl r s = s := by
  unfold createDue at hn
  unfold createTmo
  rw [h]
  exact if_neg fun k => absurd k.2.2 (by omega)

/-- A placeholder that no task holds and that no packet has triggered goes at its time, with the event. -/
theorem createTmo_ends {r : Nat} {l : Hot} (h : hotOf s sl r = some l) (hon : sliceOn s sl = true) (hl : l.life = lifeNew)
    (hn : createDue s sl l ≤ s.now) (ht : l.task = none) (hg : l.trig = none) : ∃ f c, createTmo sl r s
      = removeNew sl r c (modTsk f (raise (fleSrc sl 1) evFlowCreateTimeout r l.prof (parkedPkts s l).length 0 (fleCnt sl 6 s))) := by
  unfold createDue at hn
  unfold createTmo
  rw [h]
  dsimp only
  rw [if_pos ⟨hon, hl, hn⟩, ht, hg]
  exact ⟨_, _, rfl⟩

theorem createTmo_gone {r : Nat} {l : Hot} (h : hotOf s sl r = some l) (hon : sliceOn s sl = true) (hl : l.life = lifeNew)
    (hn : createDue s sl l ≤ s.now) (ht : l.task = none) (hg : l.trig = none) : hotOf (createTmo sl r s) sl r = none
      ∧ (createTmo sl r s).raised = (raise (fleSrc sl 1) evFlowCreateTimeout r l.prof (parkedPkts s l).length 0 (fleCnt sl 6 s)).raised := by
  obtain ⟨f, c, e⟩ := createTmo_ends h hon hl hn ht hg
  rw [e]
  refine ⟨hotOf_removeNew (l := l) ?_ hl c, ((removeNew_keeps (Only.allows 134144 _) rfl sl r c _ (Only.refl _ _)).raised rfl)⟩
  unfold hotOf at h ⊢
  rw [← h, slice_congr (s := s) (by rw [modTsk_flow, raise_flow]; rfl)]

/-! ### HBM_WRITE_ACCEPTED, INVALIDATION_ACK and HOT_LINE_WRITEBACK_DONE -/

/-- A write that only invalidates: its invalidation goes to every pipeline. -/
theorem hbmWriteAccepted_invalidates {w : HbmWrite} {rest : List HbmWrite} (hw : (slice s sl).writes = w :: rest) (hc : w.cmd = none)
    (ha : w.answer = []) (hr : w.reply = none) (hi : w.inval = true) : ∃ a, hbmWriteAccepted sl s
      = sendInval sl w.record w.version none (hbmPush 0 a (modSlice sl (fun x => { x with writes := rest }) s)) := by
  unfold hbmWriteAccepted
  split
  · rename_i e
    rw [hw] at e
    cases e
  · rename_i w' rest' e
    rw [hw] at e
    obtain ⟨rfl, rfl⟩ := List.cons.inj e
    dsimp only
    generalize hu : hbmPush _ _ _ = u
    rw [hi, if_pos rfl, ha, each_nil, hr, hc]
    exact ⟨_, congrArg (sendInval sl w.record w.version none) hu.symm⟩

theorem hbmWriteAccepted_sends {w : HbmWrite} {rest : List HbmWrite} (hw : (slice s sl).writes = w :: rest) (hc : w.cmd = none)
    (ha : w.answer = []) (hr : w.reply = none) (hi : w.inval = true) : (slice (hbmWriteAccepted sl s) sl).writes = rest
      ∧ (hbmWriteAccepted sl s).mem = s.mem
      ∧ ∀ p ∈ pipelines s.part, .inval w.record w.version (ctime s) none ∈ chan (hbmWriteAccepted sl s) sl p := by
  obtain ⟨a, e⟩ := hbmWriteAccepted_invalidates hw hc ha hr hi
  have O := hbmPush_only 0 a (modSlice sl (fun x => { x with writes := rest }) s)
  have hp : (hbmPush 0 a (modSlice sl (fun x => { x with writes := rest }) s)).part = s.part := O.part rfl
  have ht : ctime (hbmPush 0 a (modSlice sl (fun x => { x with writes := rest }) s)) = ctime s := by
    unfold ctime; rw [O.now rfl, O.ctimeBase rfl]; rfl
  rw [e]
  refine ⟨?_, ((sendInval_keeps (Only.allows 131072 _) rfl _ _ _ _ _ (Only.refl _ _)).mem rfl).trans (O.mem rfl), fun p h => ?_⟩
  · unfold sendInval
    dsimp only
    rw [slice_each_sendChan, slice_hbmPush, slice_modSlice]
  · unfold sendInval
    dsimp only
    rw [ht, hp]
    exact mem_chan_each_sendChan sl _ h _

theorem invalidationAck_waits {p g i : Nat} {rest : List (Nat × Nat × Nat)} {e : InFlight} (ha : (slice s sl).acks = (p, g, i) :: rest)
    (hf : inflight s (g, i) = some e) (hl : e.acks.filter (· ≠ p) ≠ []) : invalidationAck sl s
      = modInflight (g, i) (fun x => { x with acks := e.acks.filter (· ≠ p) }) (modSlice sl (fun x => { x with acks := rest }) s) := by
  have hf' : inflight (modSlice sl (fun x => { x with acks := rest }) s) (g, i) = some e := hf
  unfold invalidationAck
  rw [ha]
  dsimp only
  rw [hf']
  exact if_neg fun k => hl k.2.1

theorem hotWritebackDone_clean {r : Nat} {l : Hot} (h : hotOf s sl r = some l) (he : l.evicting = true) (hd : l.dirty = false) :
    hotWritebackDone sl r s = dropHot sl r s := by
  unfold hotWritebackDone
  rw [h]
  dsimp only
  rw [he, hd]
  rfl

theorem hotWritebackDone_kept {r : Nat} {l : Hot} (h : hotOf s sl r = some l) (he : l.evicting = false) : hotWritebackDone sl r s = s := by
  unfold hotWritebackDone
  rw [h]
  dsimp only
  rw [he]
  rfl

/-! ### BACKEND_REQUEST -/

theorem backendRequest_off (h : sliceOn s sl = false) : backendRequest sl s = s := by
  unfold backendRequest
  rw [h]
  rfl

theorem backendRequest_answers {q : Req} {rest : List Req} {r : Nat} (hon : sliceOn s sl = true)
    (ht : takeFirst (fun q => !halfLeaving s (reqHalf s q)) (slice s sl).backends = some (q, rest)) (hb : q.backend = some r)
    (hl : recLive s r = true) (hk : recKey s r = takeBytes q.key 0 40) (hp : recProf s r = q.prof) (hw : writePending s sl r = false)
    (ho : backendOk s (dieOfSlice sl) (recAction s r) (recBackGen s r) = true) : backendRequest sl s
      = sendChan sl q.pipe (recAnswer s r q) (modSlice sl (fun x => { x with backends := rest }) s) := by
  have R := SameRecords.of_modSlice sl (f := fun x => { x with backends := rest }) (fun _ => rfl) (fun _ => rfl) s
  have hl' := (R.recLive_eq r).trans hl
  have hk' := (R.recKey_eq r).trans hk
  have hp' := (R.recProf_eq r).trans hp
  have ho' : backendOk (modSlice sl (fun x => { x with backends := rest }) s) (dieOfSlice sl)
      (recAction (modSlice sl (fun x => { x with backends := rest }) s) r)
      (recBackGen (modSlice sl (fun x => { x with backends := rest }) s) r) = true := ho
  have hw' := (writePending_modSlice (f := fun x => { x with backends := rest }) (fun _ => rfl) sl sl r s).trans hw
  unfold backendRequest
  simp only [hon, Bool.not_true, Bool.false_eq_true, if_false, ht, hb, hl', hk', hp', ho', ne_eq, not_true_eq_false, or_false, or_true,
    if_true]
  rw [answerHeld_gives hw' hl' hk' hp', recAnswer_congr R.sameMem]

/-- Settles O28: each row is its operation, by the branch its clause names. -/
theorem flowRequests : Obligations.FlowRequests := by
  refine ⟨fun sl s h => ⟨congrArg _ (flowRequest_off h), congrArg _ (flowFetchDone_off h), congrArg _ (frameCheckReport_off h),
      congrArg _ (backendRequest_off h)⟩,
    fun sl q rest s hon ht hk => ⟨_, rfl, flowRequest_keepsFetch hon ht hk⟩,
    fun sl q rest l s hon ht hk hn hw hl hkey hp => ⟨_, rfl, flowRequest_answers hon ht hk hn hw hl hkey hp⟩,
    fun sl q rest s hon hf hk hi hm => ⟨_, rfl, flowFetchDone_answers hon hf hk hi hm⟩,
    fun sl k ok rest s hon hr hn => congrArg _ (frameCheckReport_drops hon hr hn),
    fun sl k ok rest l s hon hr hh hn ht hc => ⟨_, rfl, frameCheckReport_told hon hr hh hn ht hc⟩,
    fun sl r l s h hon hl hn ht hg => ⟨_, rfl, createTmo_gone h hon hl hn ht hg⟩,
    fun sl r l s h hn => congrArg _ (createTmo_waits h hn),
    fun sl w rest s hw hc ha hr hi => ⟨_, rfl, hbmWriteAccepted_sends hw hc ha hr hi⟩,
    fun sl p g i rest e s ha hf hl => congrArg _ (invalidationAck_waits ha hf hl),
    fun sl r l s h he hd => ⟨congrArg _ (hotWritebackDone_clean h he hd), hotOf_dropHot sl r s⟩,
    fun sl r l s h he => congrArg _ (hotWritebackDone_kept h he), ?backend⟩
  case backend =>
    intro sl q rest r s hon ht hb hl hk hp hw ho
    refine ⟨_, congrArg Host.Outcome.next (backendRequest_answers hon ht hb hl hk hp hw ho), ?_, ?_, rfl⟩
    · rw [slice_sendChan, slice_modSlice]
    · rw [chan_sendChan, chan_modSlice]
      rfl

end Sys2Proof.Proofs
end

section
/-! The rows of a record's upkeep (R178, R184, R188, R191, R193 to R196, R200, R204, R205, R219): what each leaves, by the branch of
its operation that the conditions of its clause choose. -/

namespace Sys2Proof.Proofs

open Sys2Proof.Machine Sys2Proof.Laws

variable {sl : Nat} {s : State}

/-! ### FLOW_SWEEP_VISIT -/

theorem flowSweepVisit_off (h : sliceOn s sl = false) : flowSweepVisit sl s = s := by
  unfold flowSweepVisit
  rw [h]
  rfl

theorem flowSweepVisit_ends (hon : sliceOn s sl = true) (hc : s.pwr.committed = true)
    (hn : sweepNext s sl (slice s sl).sweepPos = none) (hd : (slice s sl).sweepAt + sweepPeriod s sl ≤ s.now) : flowSweepVisit sl s
      = freeTombs sl (modSlice sl (fun x => { x with sweepPos := 0, sweeps := x.sweeps + 1, sweepAt := s.now }) s) := by
  unfold flowSweepVisit
  simp only [hon, hc, hn, hd, Bool.not_true, Bool.or_self, Bool.false_eq_true, if_false, if_true]

theorem freeTombs_none (h : (slice s sl).tombs = []) : freeTombs sl s = s := by
  unfold freeTombs
  rw [h]
  rfl

/-- A sweep begins no sooner than its period after the one before. -/
theorem flowSweepVisit_early (hn : sweepNext s sl (slice s sl).sweepPos = none)
    (hd : s.now < (slice s sl).sweepAt + sweepPeriod s sl) : flowSweepVisit sl s = s := by
  unfold flowSweepVisit
  dsimp only
  split
  · rfl
  · rw [hn]
    exact if_neg (by omega)

theorem flowSweepVisit_visits {i : Nat} (hon : sliceOn s sl = true) (hc : s.pwr.committed = true)
    (hn : sweepNext s sl (slice s sl).sweepPos = some i) (hd : (slice s sl).sweepAt + sweepPeriod s sl * i / 2 ^ 24 ≤ s.now) :
    flowSweepVisit sl s = visitRecord sl (sweepRec sl i) (modSlice sl (fun x => { x with sweepPos := i + 1 }) s) := by
  unfold flowSweepVisit
  simp only [hon, hc, hn, hd, Bool.not_true, Bool.or_self, Bool.false_eq_true, if_false, if_true]

/-- A record in CLOSED that is not hot is freed at the visit that finds its time over and no end record of it waiting. -/
theorem visitRecord_closed {r : Nat} (hh : hotOf s sl r = none) (hl : recLife s r = lifeClosed) (hw : endWaits s sl r = false)
    (ht : fld (ctEntry s (dieOfSlice sl) (recCtProf s r)) 63 48 ≤ msSince s (mget 0 s.flow.endAt r + 2 ^ 32 - 1)) :
    visitRecord sl r s = freeRecord sl r s := by
  have ha : recLife s r ≠ lifeAged := by rw [hl]; decide
  have hu : unnamed s r = false := by
    unfold unnamed
    rw [hl]
    rfl
  unfold visitRecord
  rw [hh]
  dsimp only
  rw [if_neg fun k => ha k.1, hu, if_neg Bool.false_ne_true, if_pos hl, hw, if_pos ⟨ht, rfl⟩]

theorem flowSweepVisit_frees {i : Nat} (hon : sliceOn s sl = true) (hc : s.pwr.committed = true)
    (hn : sweepNext s sl (slice s sl).sweepPos = some i) (hlive : recLive s (sweepRec sl i) = true)
    (hh : hotOf s sl (sweepRec sl i) = none) (hl : recLife s (sweepRec sl i) = lifeClosed)
    (hw : endWaits s sl (sweepRec sl i) = false) (hd : (slice s sl).sweepAt + sweepPeriod s sl * i / 2 ^ 24 ≤ s.now)
    (ht : fld (ctEntry s (dieOfSlice sl) (recCtProf s (sweepRec sl i))) 63 48
      ≤ msSince s (mget 0 s.flow.endAt (sweepRec sl i) + 2 ^ 32 - 1)) :
    recLive (flowSweepVisit sl s) (sweepRec sl i) = false := by
  have R := SameRecords.of_modSlice sl (f := fun x => { x with sweepPos := i + 1 }) (fun _ => rfl) (fun _ => rfl) s
  have hw' : endWaits (modSlice sl (fun x => { x with sweepPos := i + 1 }) s) sl (sweepRec sl i) = false := by
    unfold endWaits at hw ⊢
    rw [slice_modSlice, hw]
  rw [flowSweepVisit_visits hon hc hn hd, visitRecord_closed ((R.hotOf_eq _ _).trans hh) ((R.recLife_eq _).trans hl) hw' ht]
  exact freeRecord_dead ((R.recLive_eq _).trans hlive)

/-! ### EXPORT_ROOM and EXPORT_TMO_EXPIRY -/

theorem takeExport_takes {p : ExportRec → Bool} {x : ExportRec} {rest : List ExportRec}
    (h : takeFirst p (slice s sl).exports = some (x, rest)) :
    takeExport sl p s = (some x, modSlice sl (fun y => { y with exports := rest }) s) := by
  unfold takeExport
  rw [h]

theorem exportRoom_takes {x : ExportRec} {rest : List ExportRec} (h : takeFirst (exportReady s) (slice s sl).exports = some (x, rest)) :
    exportRoom sl s = endExported sl x (writeExport x (modSlice sl (fun y => { y with exports := rest }) s)) := by
  unfold exportRoom
  rw [takeExport_takes h]

theorem endExported_other {x : ExportRec} (h : x.endRec = false) (s : State) : endExported sl x s = s := by
  unfold endExported
  rw [h]
  exact if_neg fun k => absurd k.1 Bool.false_ne_true

/-- Both descriptors of an exported record are written and made visible, and its ring's count of lost records begins again. -/
def exportWritten (x : ExportRec) (s : State) : State :=
  modRing (656 + x.ring) (fun r => { r with discarded := 0 }) (publish (656 + x.ring) 2
    (writeDesc (656 + x.ring) (exportParts x (ring s (656 + x.ring)).discarded).2
      (writeDesc (656 + x.ring) (exportParts x (ring s (656 + x.ring)).discarded).1 s)))

section Writes

variable {x : ExportRec} (he : (ring s (656 + x.ring)).enabled = true)
include he

theorem writeExport_gone (hh : exportHere (exportWritten x s) x = false) : writeExport x s = exportWritten x s := by
  unfold exportWritten at hh ⊢
  unfold writeExport
  dsimp only
  rw [if_pos he, hh]
  rfl

theorem writeExport_timed (hh : exportHere (exportWritten x s) x = true) (hk : recKind (exportWritten x s) x.record ≠ 3) :
    writeExport x s = setRec x.record 136 4 (msNow (exportWritten x s)) (exportWritten x s) := by
  unfold exportWritten at hh hk ⊢
  unfold writeExport
  dsimp only
  rw [if_pos he, hh, if_neg (by decide), if_neg hk]

end Writes

theorem writeExport_disabled {x : ExportRec} (he : (ring s (656 + x.ring)).enabled = false) : ∃ n, writeExport x s
    = modRing (656 + x.ring) (fun r => { r with discarded := r.discarded + 1 }) (cntInc 0x0381 0 n s) := by
  unfold writeExport
  dsimp only
  rw [he, if_neg Bool.false_ne_true]
  exact ⟨_, rfl⟩

theorem exportRoom_drops {x : ExportRec} {rest : List ExportRec} (h : takeFirst (exportReady s) (slice s sl).exports = some (x, rest))
    (hr : x.endRec = false) (he : (ring s (656 + x.ring)).enabled = false) : (slice (exportRoom sl s) sl).exports = rest
      ∧ (ring (exportRoom sl s) (656 + x.ring)).discarded = (ring s (656 + x.ring)).discarded + 1 ∧ (exportRoom sl s).host = s.host := by
  obtain ⟨n, e⟩ := writeExport_disabled (s := modSlice sl (fun y => { y with exports := rest }) s) (x := x) he
  rw [exportRoom_takes h, endExported_other hr, e, ring_modRing, slice_congr (modRing_flow ..), slice_cntInc, slice_modSlice, modRing_host,
    cntInc_host, modSlice_host]
  exact ⟨rfl, rfl, rfl⟩

theorem exportLost_only (sl g reason : Nat) (s : State) : Only 10334771488 s (exportLost sl g reason s) :=
  exportLost_keeps (Only.allows 10334771488 s) rfl sl g reason s (Only.refl _ s)

theorem endExported_freed {x : ExportRec} (h : recLive s x.record = false) : endExported sl x s = s := by
  unfold endExported
  rw [h]
  exact if_neg fun k => absurd k.2.1 Bool.false_ne_true

theorem exportTmo_discards {x : ExportRec} {rest : List ExportRec}
    (h : takeFirst (fun x => x.endRec && decide (x.since + cfg1 s (.fleExportCfg (dieOfSlice sl)) 15 0 * 1000000000 ≤ s.now))
      (slice s sl).exports = some (x, rest)) (hl : recLive s x.record = false) :
    exportTmo sl s = exportLost sl x.ring x.reason (modSlice sl (fun y => { y with exports := rest }) s) := by
  have R := SameRecords.of_modSlice sl (f := fun y => { y with exports := rest }) (fun _ => rfl) (fun _ => rfl) s
  have O := exportLost_only sl x.ring x.reason (modSlice sl (fun y => { y with exports := rest }) s)
  have hl' : recLive (exportLost sl x.ring x.reason (modSlice sl (fun y => { y with exports := rest }) s)) x.record = false :=
    (recLive_congr (O.flow rfl) (O.part rfl) _).trans ((R.recLive_eq _).trans hl)
  unfold exportTmo
  dsimp only
  rw [takeExport_takes h]
  exact endExported_freed hl'

/-! ### PEER_END, PORT_RELEASE and NAT_BLOCK_FREE -/

theorem peerEnd_off (h : sliceOn s sl = false) : peerEnd sl s = s := by
  unfold peerEnd
  rw [h]
  split <;> rfl

theorem peerEnd_ends {r life reason : Nat} {rest : List (Nat × Nat × Nat)} (hon : sliceOn s sl = true)
    (hp : (slice s sl).peers = (r, life, reason) :: rest) :
    peerEnd sl s = endRecord sl r life reason {} (modSlice sl (fun x => { x with peers := rest }) s) := by
  unfold peerEnd
  rw [hp]
  exact if_pos hon

theorem portRelease_off (h : sliceOn s sl = false) : portRelease sl s = s := by
  unfold portRelease
  rw [h]
  split <;> rfl

/-- A binding's port is free and its refcount one lower. -/
def portFreed (b i : Nat) (s : State) : State :=
  let u := setRec b 192 64 (setFld (portBits s b) i i 0) s
  setRec b 140 4 (recRefs u b - 1) u

theorem portRelease_frees {b port : Nat} {rest : List (Nat × Nat)} (hon : sliceOn s sl = true)
    (hr : (slice s sl).releases = (b, port) :: rest) (hl : recLive s b = true) (hk : recKind s b = 3)
    (hi : port - fld (recAction s b) 56 41 < 512) : portRelease sl s
      = portFreed b (port - fld (recAction s b) 56 41) (modSlice sl (fun x => { x with releases := rest }) s) := by
  have R := SameRecords.of_modSlice sl (f := fun x => { x with releases := rest }) (fun _ => rfl) (fun _ => rfl) s
  have ha : recAction (modSlice sl (fun x => { x with releases := rest }) s) b = recAction s b := R.recN_eq b 64 32
  unfold portRelease portFreed
  rw [hr]
  dsimp only
  rw [hon, if_neg (by decide), if_pos ⟨(R.recLive_eq b).trans hl, (R.recKind_eq b).trans hk⟩, ha, if_pos hi]

theorem recRefs_portFreed (b i : Nat) (s : State) : recRefs (portFreed b i s) b = recRefs s b - 1 := by
  have e : recRefs (setRec b 192 64 (setFld (portBits s b) i i 0) s) b = recRefs s b := recN_setRec_out _ _ _ _ _ _ _ (by omega)
  have h : recRefs s b < 256 ^ 4 := recN_lt s b 140 4
  unfold portFreed
  dsimp only
  rw [e]
  exact (recN_setRec _ _ _ _ _).trans (Nat.mod_eq_of_lt (by omega))

theorem portBits_portFreed (b : Nat) {i : Nat} (hi : i < 512) (s : State) : bit (portBits (portFreed b i s) b) i = false := by
  have e : portBits (portFreed b i s) b = setFld (portBits s b) i i 0 % 256 ^ 64 :=
    (recN_setRec_out _ _ _ _ _ _ _ (by omega)).trans (recN_setRec _ _ _ _ _)
  rw [e]
  exact bit_setFld_zero _ _ _ (by omega)

theorem natBlockFree_off (h : sliceOn s sl = false) : natBlockFree sl s = s := by
  unfold natBlockFree
  rw [h]
  split <;> rfl

theorem natBlockFree_clears {p addr port : Nat} {rest : List (Nat × Nat × Nat)} (hon : sliceOn s sl = true)
    (hb : (slice s sl).blockFrees = (p, addr, port) :: rest) : natBlockFree sl s
      = setBlock (dieOfSlice sl) addr (port / 2 ^ poolLog2 (poolEntry s (dieOfSlice sl) p)) false
          (modSlice sl (fun x => { x with blockFrees := rest }) s) := by
  unfold natBlockFree
  rw [hb]
  dsimp only
  rw [hon]
  rfl

theorem blockBit_setBlock (die addr : Nat) {b : Nat} (hb : b < 1024) (s : State) : blockBit (setBlock die addr b false s) die addr b = false := by
  have e : tEntry (setBlock die addr b false s) die 0x0507 addr = setFld (tEntry s die 0x0507 addr) b b 0 % 256 ^ 128 := rdN_wrN ..
  unfold blockBit
  rw [e]
  exact bit_setFld_zero _ _ _ (by omega)

/-- A port is in one of at most 1,024 blocks. -/
theorem block_lt {port : Nat} (h : port < 65536) (e : Nat) : port / 2 ^ poolLog2 e < 1024 := by
  have h6 : 2 ^ 6 ≤ 2 ^ poolLog2 e := Nat.pow_le_pow_right (by decide) (Nat.le_max_left ..)
  calc port / 2 ^ poolLog2 e ≤ port / 2 ^ 6 := Nat.div_le_div_left h6 (by decide)
    _ < 1024 := by omega

/-! ### CT_NOTICE -/

theorem ctNotice_off (h : sliceOn s sl = false) : ctNotice sl s = s := by
  unfold ctNotice
  rw [h]
  split <;> rfl

theorem ctNotice_takes {n : CtMsg} {rest : List CtMsg} (hon : sliceOn s sl = true) (hc : (slice s sl).cts = n :: rest)
    (hk : recKind s n.record ≠ 2) : ctNotice sl s = ctTake sl n (modSlice sl (fun x => { x with cts := rest }) s) := by
  have R := SameRecords.of_modSlice sl (f := fun x => { x with cts := rest }) (fun _ => rfl) (fun _ => rfl) s
  unfold ctNotice
  rw [hc]
  dsimp only
  rw [hon, if_neg (by decide), if_neg fun k => hk ((R.recKind_eq _).symm.trans k.2)]

/-- A REPLY's notice goes, reversed, to the owner of its PRIMARY. -/
theorem ctNotice_forwards {n : CtMsg} {rest : List CtMsg} {p : Nat} (hon : sliceOn s sl = true) (hc : (slice s sl).cts = n :: rest)
    (hl : recLive s n.record = true) (hk : recKind s n.record = 2) (hp : peerOf s n.record = some p) : ctNotice sl s
      = modSlice (recOwner s p) (fun x => { x with cts := x.cts ++ [⟨p, n.tcp, !n.reply⟩] })
          (modSlice sl (fun x => { x with cts := rest }) s) := by
  have R := SameRecords.of_modSlice sl (f := fun x => { x with cts := rest }) (fun _ => rfl) (fun _ => rfl) s
  unfold ctNotice
  rw [hc]
  dsimp only
  rw [hon, if_neg (by decide), if_pos ⟨(R.recLive_eq _).trans hl, (R.recKind_eq _).trans hk⟩, (R.peerOf_eq _).trans hp]
  dsimp only
  rw [R.recOwner_eq]

/-- A record with its ct_state moved on by a notice. -/
def ctMoved (n : CtMsg) (s : State) : State :=
  syncHot n.record (setRec n.record 43 1 (ctNext (recCt s n.record) n.reply n.tcp) s)

theorem ctMoved_mem (n : CtMsg) (s : State) :
    (ctMoved n s).mem = (setRec n.record 43 1 (ctNext (recCt s n.record) n.reply n.tcp) s).mem := syncHot_mem _ _

theorem recCt_ctMoved (n : CtMsg) (s : State) : recCt (ctMoved n s) n.record = ctNext (recCt s n.record) n.reply n.tcp := by
  have h : ctNext (recCt s n.record) n.reply n.tcp < 16 := ctNext_lt (Nat.mod_lt _ (by decide))
  unfold recCt at h ⊢
  rw [recN_congr (ctMoved_mem n s), recN_setRec]
  unfold recCt
  omega

theorem recN_ctMoved_out (n : CtMsg) {o k : Nat} (h : o + k ≤ 43 ∨ 44 ≤ o) (s : State) :
    recN (ctMoved n s) n.record o k = recN s n.record o k := by
  rw [recN_congr (ctMoved_mem n s), recN_setRec_out _ _ _ _ _ _ _ h]

theorem recLife_ctMoved (n : CtMsg) (s : State) : recLife (ctMoved n s) n.record = recLife s n.record := by
  unfold recLife
  rw [recN_ctMoved_out n (by omega)]

theorem recOpen_ctMoved {n : CtMsg} (h : recOpen s n.record = true) (hl : recLife s n.record ≠ lifeNew) :
    recOpen (ctMoved n s) n.record = true := by
  unfold recOpen at h ⊢
  rw [Bool.and_eq_true] at h ⊢
  rw [recLife_ctMoved]
  refine ⟨recLive_syncHot ?_ ?_, h.2⟩
  · exact (recLive_congr rfl rfl _).trans h.1
  · unfold recLife at hl ⊢
    rw [recN_setRec_out _ _ _ _ _ _ _ (by omega)]
    exact hl

section Tracked

variable {n : CtMsg} {f : Nat} (ho : recOpen s n.record = true) (hc : bit (recFlags48 s n.record) 2 = true) (ht : n.tcp = some f)
include ho hc ht

/-- A notice without RST and FIN moves no more than the ct_state of a record in ACTIVE. -/
theorem ctTake_moves (hr : bit f 2 = false) (hf : bit f 0 = false) (hl : recLife s n.record = lifeAct) :
    ctTake sl n s = ctMoved n s := by
  have hl' : recLife (ctMoved n s) n.record ≠ lifeEst := by rw [recLife_ctMoved, hl]; decide
  unfold ctMoved at hl' ⊢
  unfold ctTake
  simp only [ho, hc, ht, hr, hf, Option.isSome_some, Option.getD_some, Bool.not_true, Bool.false_eq_true, or_self, if_false,
    Bool.and_false]
  rw [ht] at hl'
  rw [if_neg fun k => hl' k.1]

theorem ctTake_resets (hr : bit f 2 = true) : ctTake sl n s = endRecord sl n.record lifeClosed xpClosed {} (ctMoved n s) := by
  unfold ctMoved ctTake
  simp only [ho, hc, ht, hr, Option.isSome_some, Option.getD_some, Bool.not_true, Bool.false_eq_true, or_self, if_false,
    Bool.and_true, if_true]

end Tracked

section NoticeTaken

variable {n : CtMsg} {rest : List CtMsg} {f : Nat} (hon : sliceOn s sl = true) (hq : (slice s sl).cts = n :: rest)
  (hk : recKind s n.record ≠ 2) (ho : recOpen s n.record = true) (hc : bit (recFlags48 s n.record) 2 = true) (ht : n.tcp = some f)
include hon hq hk ho hc ht

theorem ctNotice_moves (hr : bit f 2 = false) (hf : bit f 0 = false) (hl : recLife s n.record = lifeAct) :
    recCt (ctNotice sl s) n.record = ctNext (recCt s n.record) n.reply n.tcp ∧ recLife (ctNotice sl s) n.record = lifeAct
      ∧ ∀ o k, o + k ≤ 43 ∨ 44 ≤ o → recN (ctNotice sl s) n.record o k = recN s n.record o k := by
  have R := SameRecords.of_modSlice sl (f := fun x => { x with cts := rest }) (fun _ => rfl) (fun _ => rfl) s
  have hct : recCt (modSlice sl (fun x => { x with cts := rest }) s) n.record = recCt s n.record := by unfold recCt; rw [R.recN_eq]
  rw [ctNotice_takes hon hq hk, ctTake_moves ((R.recOpen_eq _).trans ho) (by unfold recFlags48 at hc ⊢; rw [R.recN_eq, hc]) ht hr hf
    ((R.recLife_eq _).trans hl), recCt_ctMoved, recLife_ctMoved, hct]
  exact ⟨rfl, (R.recLife_eq _).trans hl, fun o k h => (recN_ctMoved_out n h _).trans (R.recN_eq ..)⟩

theorem ctNotice_resets (hl : recLife s n.record ≠ lifeNew) (hr : bit f 2 = true) :
    recLife (ctNotice sl s) n.record = lifeClosed ∧ recVer (ctNotice sl s) n.record = (recVer s n.record + 1) % 2 ^ 32 := by
  have R := SameRecords.of_modSlice sl (f := fun x => { x with cts := rest }) (fun _ => rfl) (fun _ => rfl) s
  have ho' := (R.recOpen_eq n.record).trans ho
  have hv : recVer (ctMoved n (modSlice sl (fun x => { x with cts := rest }) s)) n.record = recVer s n.record := by
    unfold recVer
    rw [recN_ctMoved_out n (by omega), R.recN_eq]
  rw [ctNotice_takes hon hq hk, ctTake_resets ho' (by unfold recFlags48 at hc ⊢; rw [R.recN_eq, hc]) ht hr, ← hv]
  obtain ⟨hlife, hver, -⟩ := endRecord_closed' sl n.record xpClosed {} rfl _
    (recOpen_ctMoved ho' (by rw [R.recLife_eq]; exact hl))
  exact ⟨hlife, hver⟩

end NoticeTaken

/-! ### DELTA_ARRIVAL -/

theorem deltaArrival_off (h : sliceOn s sl = false) : deltaArrival sl s = s := by
  unfold deltaArrival
  rw [h]
  split <;> rfl

theorem deltaArrival_takes {d : DeltaMsg} {rest : List DeltaMsg} (hon : sliceOn s sl = true) (hd : (slice s sl).deltas = d :: rest) :
    deltaArrival sl s = addDelta sl d (modSlice sl (fun x => { x with deltas := rest }) s) := by
  unfold deltaArrival
  rw [hd]
  exact if_pos hon

/-- A line with a pipeline's deltas added. -/
def deltaAdded (d : DeltaMsg) (l : Hot) : Hot :=
  { l with
    dPktsO := l.dPktsO + d.po, dPktsR := l.dPktsR + d.pr, dBytesO := l.dBytesO + d.bo, dBytesR := l.dBytesR + d.br
    lastSeen := if wrapGe 32 d.seen l.lastSeen then d.seen else l.lastSeen, dirty := true }

theorem hotOf_touchHot {r : Nat} {l : Hot} (h : hotOf s sl r = some l) :
    hotOf (touchHot sl r s) sl r = some { l with used := (slice s sl).clock } := by
  have hc : hotOf (modSlice sl (fun x => { x with clock := (slice s sl).clock + 1 }) s) sl r = some l :=
    ((SameRecords.of_modSlice sl (f := fun x => { x with clock := (slice s sl).clock + 1 }) (fun _ => rfl) (fun _ => rfl) s).hotOf_eq
      _ _).trans h
  unfold touchHot
  dsimp only
  rw [hotOf_modHot, hc]
  · rfl
  · exact fun _ => rfl

/-- Deltas that overflow no field of a hot line are added to it, and it is used. -/
theorem addDelta_hot {d : DeltaMsg} {l : Hot} (hl : recLive s d.record = true) (h : hotOf s sl d.record = some l)
    (h1 : l.dPktsO + d.po < 2 ^ 32) (h2 : l.dPktsR + d.pr < 2 ^ 32) (h3 : l.dBytesO + d.bo < 2 ^ 32) (h4 : l.dBytesR + d.br < 2 ^ 32) :
    addDelta sl d s = modHot sl d.record (deltaAdded d) (touchHot sl d.record s) := by
  have hm : makeHot sl d.record (keyHashes s (recHalf d.record / 2) (recKey s d.record) (recProf s d.record)).1 s
      = (.room, touchHot sl d.record s) := by
    unfold makeHot
    rw [h]
  have n1 : ¬2 ^ 32 ≤ l.dPktsO + d.po := by omega
  have n2 : ¬2 ^ 32 ≤ l.dPktsR + d.pr := by omega
  have n3 : ¬2 ^ 32 ≤ l.dBytesO + d.bo := by omega
  have n4 : ¬2 ^ 32 ≤ l.dBytesR + d.br := by omega
  unfold addDelta
  rw [hl, if_neg (by decide)]
  dsimp only
  rw [hm]
  dsimp only
  rw [decide_eq_true rfl, if_pos rfl, hotOf_touchHot h]
  dsimp only
  rw [decide_eq_false n1, decide_eq_false n2, decide_eq_false n3, decide_eq_false n4]
  rfl

theorem deltaArrival_adds {d : DeltaMsg} {rest : List DeltaMsg} {l : Hot} (hon : sliceOn s sl = true) (hd : (slice s sl).deltas = d :: rest)
    (hl : recLive s d.record = true) (h : hotOf s sl d.record = some l) (h1 : l.dPktsO + d.po < 2 ^ 32) (h2 : l.dPktsR + d.pr < 2 ^ 32)
    (h3 : l.dBytesO + d.bo < 2 ^ 32) (h4 : l.dBytesR + d.br < 2 ^ 32) : (slice (deltaArrival sl s) sl).deltas = rest
      ∧ (∃ c, hotOf (deltaArrival sl s) sl d.record = some (deltaAdded d { l with used := c })) ∧ (deltaArrival sl s).mem = s.mem := by
  have R := SameRecords.of_modSlice sl (f := fun x => { x with deltas := rest }) (fun _ => rfl) (fun _ => rfl) s
  have h' := (R.hotOf_eq sl d.record).trans h
  rw [deltaArrival_takes hon hd, addDelta_hot ((R.recLive_eq _).trans hl) h' h1 h2 h3 h4, hotOf_modHot _ _ (deltaAdded d) _ fun _ => rfl,
    hotOf_touchHot h', slice_modHot_field Slice.deltas (fun _ _ => rfl), slice_touchHot_field Slice.deltas (fun _ _ => rfl) (fun _ _ => rfl),
    slice_modSlice]
  refine ⟨rfl, ⟨_, rfl⟩, ?_⟩
  unfold modHot
  rw [modSlice_mem, touchHot_mem, modSlice_mem]

/-! ### PULL_ANSWER -/

/-- The answers to a record's pull are taken. -/
def answersTaken (sl r : Nat) (s : State) : State :=
  modSlice sl (fun x => { x with pullAns := x.pullAns.filter fun e => !(decide (e.1 = r) || decide (some e.1 = peerOf s r)) }) s

/-- The deltas of a record are taken off its owner's queue. -/
def deltasDropped (sl r : Nat) (s : State) : State := modSlice sl (fun x => { x with deltas := x.deltas.filter fun d => d.record ≠ r }) s

/-- Where none of a record's deltas waits at its owner, nothing is added. -/
theorem takeDeltas_none {r : Nat} (ho : recOwner s r = sl) (hd : ((slice s sl).deltas.filter fun d => d.record = r) = []) :
    takeDeltas r s = deltasDropped sl r s := by
  unfold takeDeltas deltasDropped
  dsimp only
  rw [ho, hd, each_nil]

/-- What a pull whose record has no peer still waits for. -/
def pullDue (s : State) (sl r : Nat) (due : List Nat) : List Nat :=
  (due.filter fun d => !((((slice s sl).pullAns.filter fun e => decide (e.1 = r) || decide (some e.1 = peerOf s r)).map fun e =>
    if e.1 = r then e.2 else 16 + e.2)).contains d).filter (· < 16)

/-- The last answer to the one pull there is: the record ages when it was not seen since, and stays otherwise. -/
theorem pullAnswer_last {r : Nat} {p : Pull} (hp : (slice s sl).pulls = [p]) (hr : p.record = r) (ha : p.ask = none)
    (ho : recOwner s r = sl) (hd : ((slice s sl).deltas.filter fun d => d.record = r) = []) (hn : peerOf s r = none)
    (hdue : pullDue s sl r p.due = []) : pullAnswer sl r s
      = if recLive s r ∧ (recLife s r = lifeEst ∨ recLife s r = lifeAct) ∧ ageSeen s r = p.seen then
          endRecord sl r lifeAged p.reason { free := decide (p.reason = xpEvicted) }
            (modSlice sl (fun x => { x with pulls := [] }) (deltasDropped sl r (answersTaken sl r s)))
        else modSlice sl (fun x => { x with pulls := [] }) (deltasDropped sl r (answersTaken sl r s)) := by
  have hf : (slice s sl).pulls.find? (fun p => p.record = r) = some p := by rw [hp]; simp [hr]
  have R1 := SameRecords.of_modSlice sl (f := fun x => { x with
    pullAns := x.pullAns.filter fun e => !(decide (e.1 = r) || decide (some e.1 = peerOf s r)) }) (fun _ => rfl) (fun _ => rfl) s
  have hd1 : ((slice (answersTaken sl r s) sl).deltas.filter fun d => d.record = r) = [] := by
    unfold answersTaken
    rw [slice_modSlice]
    exact hd
  have ht : takeDeltas r (answersTaken sl r s) = deltasDropped sl r (answersTaken sl r s) :=
    takeDeltas_none ((R1.recOwner_eq r).trans ho) hd1
  have hpulls : modSlice sl (fun x => { x with pulls := x.pulls.filter fun y => y.record ≠ r }) (deltasDropped sl r (answersTaken sl r s))
      = modSlice sl (fun x => { x with pulls := [] }) (deltasDropped sl r (answersTaken sl r s)) := by
    refine modSlice_congr ?_
    unfold deltasDropped answersTaken
    rw [slice_modSlice, slice_modSlice, hp]
    simp [hr]
  have keep {f : Slice → Slice} (h : ∀ x, (f x).servesOwn = x.servesOwn ∧ (f x).hot = x.hot ∧ (f x).servesPartner = x.servesPartner)
      (u : State) : recLive (modSlice sl f u) r = recLive u r ∧ recLife (modSlice sl f u) r = recLife u r
        ∧ ageSeen (modSlice sl f u) r = ageSeen u r :=
    ⟨recLive_modSlice sl f u r h, by unfold recLife; rw [recN_congr (modSlice_mem ..)], ageSeen_modSlice sl f u r h⟩
  obtain ⟨l3, e3, g3⟩ := keep (f := fun x => { x with pulls := [] }) (fun _ => ⟨rfl, rfl, rfl⟩) (deltasDropped sl r (answersTaken sl r s))
  obtain ⟨l2, e2, g2⟩ := keep (f := fun x => { x with deltas := x.deltas.filter fun d => d.record ≠ r }) (fun _ => ⟨rfl, rfl, rfl⟩)
    (answersTaken sl r s)
  obtain ⟨l1, e1, g1⟩ := keep (f := fun x => { x with
    pullAns := x.pullAns.filter fun e => !(decide (e.1 = r) || decide (some e.1 = peerOf s r)) }) (fun _ => ⟨rfl, rfl, rfl⟩) s
  have hlive := l3.trans (l2.trans l1)
  have hlife := e3.trans (e2.trans e1)
  have hseen := g3.trans (g2.trans g1)
  unfold pullDue at hdue
  unfold deltasDropped answersTaken at ht
  unfold deltasDropped answersTaken at hpulls hlive hlife hseen ⊢
  unfold pullAnswer
  rw [hf]
  dsimp only
  rw [hn] at hdue ht hpulls hlive hlife hseen ⊢
  rw [Option.toList_none, each_cons, each_nil, ht, hpulls, if_pos (show Option.isNone none = true from rfl), hdue,
    if_neg fun k => k rfl, hlive, hlife, hseen, ha]
  rfl

/-! ### OWNER_SWITCH -/

/-- The half leaves its slice and its partner serves it. -/
def halfSwitched (sl hf : Nat) (s : State) : State :=
  modSlice (partner sl) (fun x => { x with
      servesOwn := x.servesOwn || decide (hf = partner sl)
      servesPartner := x.servesPartner || decide (hf = sl) })
    (modSlice sl (fun x => { x with
      transfer := .none
      servesOwn := x.servesOwn && decide (hf ≠ sl)
      servesPartner := x.servesPartner && decide (hf = sl) }) s)

/-- A half that has drained, with nothing to be written back, is switched over and its final stamps go out. -/
theorem ownerSwitch_moves {hf : Nat} (hl : leavingHalf s sl = some hf) (hd : halfDrained s sl hf = true)
    (hc : ∀ l ∈ (slice s sl).hot, l.dirty = false) : ownerSwitch sl s
      = moveHalf sl (partner sl) hf (each (pipelines s.part) (fun p t => sendChan sl p (.finalStamp hf) t) (halfSwitched sl hf s)) := by
  have hn : ((slice s sl).hot.filter fun l => l.dirty && decide (recHalf l.record = hf)) = [] := by
    refine List.filter_eq_nil_iff.mpr fun l h => ?_
    rw [hc l h, Bool.false_and]
    exact Bool.false_ne_true
  unfold ownerSwitch
  rw [hl]
  dsimp only
  rw [hd, if_neg (by decide), hn, each_nil]
  rfl

theorem ownerSwitch_stays (h : leavingHalf s sl = none) : ownerSwitch sl s = s := by
  unfold ownerSwitch
  rw [h]

theorem ownerSwitch_only (sl : Nat) (s : State) : Only 10341203232 s (ownerSwitch sl s) :=
  ownerSwitch_keeps (Only.allows 10341203232 s) rfl sl s (Only.refl _ s)

/-- Beside the transfer the row brings back a slice that waits for its half. -/
theorem ownerSwitchRow_transfer (h : (domain s (domSlice (partner sl))).state ≠ dsInit) : ownerSwitchRow sl s = ownerSwitch sl s := by
  unfold ownerSwitchRow
  exact if_neg fun k => h ((congrArg Domain.state (domain_congr ((ownerSwitch_only sl s).pwr rfl) _)).symm.trans k.1)

theorem ownerSwitch_switches {hf : Nat} (hl : leavingHalf s sl = some hf) (hd : halfDrained s sl hf = true)
    (hc : ∀ l ∈ (slice s sl).hot, l.dirty = false) (hp : partner sl ≠ sl) : (slice (ownerSwitch sl s) sl).transfer = .none
      ∧ (slice (ownerSwitch sl s) sl).servesOwn = ((slice s sl).servesOwn && decide (hf ≠ sl))
      ∧ (slice (ownerSwitch sl s) sl).servesPartner = ((slice s sl).servesPartner && decide (hf = sl))
      ∧ (slice (ownerSwitch sl s) (partner sl)).servesOwn = ((slice s (partner sl)).servesOwn || decide (hf = partner sl))
      ∧ (slice (ownerSwitch sl s) (partner sl)).servesPartner = ((slice s (partner sl)).servesPartner || decide (hf = sl))
      ∧ ∀ p ∈ pipelines s.part, .finalStamp hf ∈ chan (ownerSwitch sl s) sl p := by
  have M := moveHalf_ok hp hf (each (pipelines s.part) (fun p t => sendChan sl p (.finalStamp hf) t) (halfSwitched sl hf s))
  rw [← ownerSwitch_moves hl hd hc] at M
  obtain ⟨⟨htr, hown, hpart⟩, ⟨hown', hpart'⟩, hch⟩ := M
  rw [slice_each_sendChan] at htr hown hpart hown' hpart'
  unfold halfSwitched at htr hown hpart hown' hpart'
  rw [slice_modSlice_ne hp, slice_modSlice] at htr hown hpart
  rw [slice_modSlice, slice_modSlice_ne hp.symm] at hown' hpart'
  exact ⟨htr, hown, hpart, hown', hpart', fun p h => by rw [hch]; exact mem_chan_each_sendChan sl _ h _⟩

/-- Settles O29: each row is its operation, by the branch its clause names. -/
theorem flowUpkeep : Obligations.FlowUpkeep := by
  refine ⟨fun sl s h => ⟨congrArg _ (flowSweepVisit_off h), congrArg _ (peerEnd_off h), congrArg _ (portRelease_off h),
      congrArg _ (natBlockFree_off h), congrArg _ (ctNotice_off h), congrArg _ (deltaArrival_off h)⟩,
    ?sweepEnds, fun sl s hn hd => congrArg _ (flowSweepVisit_early hn hd),
    fun sl i s hon hc hn hlive hh hl hw hd ht => ⟨_, rfl, flowSweepVisit_frees hon hc hn hlive hh hl hw hd ht⟩,
    ?written, fun sl x rest s h hr he => ⟨_, rfl, exportRoom_drops h hr he⟩,
    fun sl x rest s h hl => congrArg _ (exportTmo_discards h hl), ?peer, ?port, ?block,
    fun sl n rest f s hon hq hk ho hc ht hr hf hl => ⟨_, rfl, ctNotice_moves hon hq hk ho hc ht hr hf hl⟩,
    fun sl n rest f s hon hq hk ho hc hl ht hr => ⟨_, rfl, ctNotice_resets hon hq hk ho hc ht hl hr⟩,
    ?forward, ?delta, fun sl r p s hp hr ha ho hd hn hdue => congrArg _ (pullAnswer_last hp hr ha ho hd hn hdue), ?switch,
    fun sl s h hn => congrArg _ ((ownerSwitchRow_transfer hn).trans (ownerSwitch_stays h))⟩
  case sweepEnds =>
    intro sl s hon hc hn ht hd
    exact congrArg Host.Outcome.next ((flowSweepVisit_ends hon hc hn hd).trans (freeTombs_none (by rw [slice_modSlice]; exact ht)))
  case written =>
    intro sl x rest s h hr he z
    have he' : (ring (modSlice sl (fun y => { y with exports := rest }) s) (656 + x.ring)).enabled = true := he
    have e := (exportRoom_takes h).trans (endExported_other hr _)
    exact ⟨fun hz => congrArg Host.Outcome.next (e.trans (writeExport_gone he' hz)),
      fun hz hk => congrArg Host.Outcome.next (e.trans (writeExport_timed he' hz hk))⟩
  case peer =>
    intro sl r reason rest s hon hp ho
    have R := SameRecords.of_modSlice sl (f := fun x => { x with peers := rest }) (fun _ => rfl) (fun _ => rfl) s
    obtain ⟨hlife, hver, hout⟩ := endRecord_closed' sl r reason {} rfl _ ((R.recOpen_eq r).trans ho)
    exact ⟨_, congrArg Host.Outcome.next (peerEnd_ends hon hp), hlife, hver,
      fun o k h => (hout o k (.inl h)).trans (R.recN_eq r o k)⟩
  case port =>
    intro sl b port rest s hon hr hl hk _ hi _
    refine ⟨_, congrArg Host.Outcome.next (portRelease_frees hon hr hl hk hi), ?_, recRefs_portFreed .., portBits_portFreed b hi _⟩
    exact congrArg Slice.releases (slice_modSlice sl (fun x => { x with releases := rest }) s)
  case block =>
    intro sl p addr port rest s hon hb hp
    refine ⟨_, congrArg Host.Outcome.next (natBlockFree_clears hon hb), ?_, blockBit_setBlock _ _ (block_lt hp _) _⟩
    exact congrArg Slice.blockFrees (slice_modSlice sl (fun x => { x with blockFrees := rest }) s)
  case forward =>
    intro sl n rest p s hon hq hl hk hp hne
    refine ⟨_, congrArg Host.Outcome.next (ctNotice_forwards hon hq hl hk hp), ?_, ?_⟩
    · rw [slice_modSlice_ne hne, slice_modSlice]
    · rw [slice_modSlice, slice_modSlice_ne hne.symm]
  case delta =>
    intro sl d rest l s hon hd hl h h1 h2 h3 h4
    obtain ⟨hq, ⟨c, hh⟩, hm⟩ := deltaArrival_adds hon hd hl h h1 h2 h3 h4
    exact ⟨_, _, rfl, hq, hh, rfl, rfl, rfl, rfl, rfl, rfl, hm⟩
  case switch =>
    intro sl hf s hl hd hc hp hn
    exact ⟨_, congrArg Host.Outcome.next (ownerSwitchRow_transfer hn), ownerSwitch_switches hl hd hc hp⟩

end Sys2Proof.Proofs
end

section
/-! Firmware's requests (R182, R191, R192, R199, R200, R203, R204, R256): what the owner does with the request at the front of its
queue, by its opcode. -/

namespace Sys2Proof.Proofs

open Sys2Proof.Machine Sys2Proof.Laws

variable {sl : Nat} {q : WkReq} {s : State}

/-! ### Requests and replies -/

/-- A row does nothing while another opcode is at the front. -/
theorem wkRow_stays {op : Nat} {rest : List WkReq} (hw : (slice s sl).wk = q :: rest) (ho : fld q.req 7 0 ≠ op)
    (f : WkReq → State → State) : wkRow sl op f s = s := by
  unfold wkRow takeWk
  rw [hw]
  dsimp only
  rw [if_neg fun k => ho k.1]

theorem onRecord_takes {b : Bool} {r : Nat} (h : wkRecord q b s = .ok r) (f : Nat → State → State) : onRecord q b f s = f r s := by
  unfold onRecord
  rw [h]

theorem onRecord_refuses {b : Bool} {st : Nat} (h : wkRecord q b s = .error st) (f : Nat → State → State) :
    onRecord q b f s = replyCore q.core st [] s := by
  unfold onRecord
  rw [h]

theorem coreOf_replyCore (c st : Nat) (words : List (Nat × Nat)) (s : State) : coreOf (replyCore c st words s) c
    = { coreOf s c with reply := some (rdN (coreOf s c).window 0x2C0 1, st, words) } := by
  unfold replyCore
  dsimp only
  rw [coreOf_modCore]
  split
  · rw [coreOf_tskCnt]
  · rfl

theorem replyCore_only (c st : Nat) (words : List (Nat × Nat)) (s : State) : Only 2099200 s (replyCore c st words s) :=
  replyCore_keeps (Only.allows 2099200 s) rfl c st words s (Only.refl _ s)

theorem coreOf_congr {t : State} (h : t.tsk = s.tsk) (c : Nat) : coreOf t c = coreOf s c := by
  unfold coreOf
  rw [h]

/-- The request at the front is off its owner's queue, and the records are as they were. -/
theorem sameRecords_rest (sl : Nat) (rest : List WkReq) (s : State) : SameRecords s (modSlice sl (fun x => { x with wk := rest }) s) :=
  .of_modSlice sl (f := fun x => { x with wk := rest }) (fun _ => rfl) (fun _ => rfl) s

theorem recAction_setRec_out {r o n : Nat} (v : Nat) (h : 96 ≤ o ∨ o + n ≤ 64) (s : State) :
    recAction (setRec r o n v s) r = recAction s r := recN_setRec_out _ _ _ _ _ _ _ (by omega)

theorem recVer_setRec_out {r o n : Nat} (v : Nat) (h : 48 ≤ o ∨ o + n ≤ 44) (s : State) :
    recVer (setRec r o n v s) r = recVer s r := recN_setRec_out _ _ _ _ _ _ _ (by omega)

theorem recVer_bump (r : Nat) (c a p) (s : State) : recVer (bump r c a p s) r = (recVer s r + 1) % 2 ^ 32 := recN_bump r c a p s

/-! ### COMMIT, DENY and REJECT -/

theorem wkCommit_refuses {st : Nat} (h : wkPlaceholder sl q s = .error st) : wkCommit sl q s = replyCore q.core st [] s := by
  unfold wkCommit
  rw [h]

/-- A binding is committed with no port taken, and otherwise as it is given. -/
theorem withoutPorts_fields (c : Prop) [Decidable c] (n : NewRec) : (if c then { n with area2 := 0 } else n).key = n.key
    ∧ (if c then { n with area2 := 0 } else n).prof = n.prof ∧ (if c then { n with area2 := 0 } else n).action = n.action
    ∧ (if c then { n with area2 := 0 } else n).flags = n.flags ∧ (if c then { n with area2 := 0 } else n).fw = n.fw := by
  split
  · exact ⟨rfl, rfl, rfl, rfl, rfl⟩
  · exact ⟨rfl, rfl, rfl, rfl, rfl⟩

/-- Without PAIR the placeholder is committed with the action, flags and firmware area of the record operand. -/
theorem wkCommit_commits {l : Hot} (h : wkPlaceholder sl q s = .ok l) (hp : bit q.req 8 = false) : ∃ n reply,
    wkCommit sl q s = commitNew sl l.record n reply (wkOutcome q true s)
      ∧ n.key = l.key ∧ n.prof = l.prof ∧ n.action = fld q.recOp 767 512 ∧ n.flags = fld q.recOp 415 384
      ∧ n.fw = fld q.recOp 1535 1152 := by
  unfold wkCommit
  rw [h]
  dsimp only
  rw [hp, if_neg Bool.false_ne_true]
  exact ⟨_, _, rfl, withoutPorts_fields _ (imageRec q.recOp l.key l.prof _ _ l.origDir (wkTcp s q))⟩

/-- DENY commits the placeholder in CLOSED with fdisp DROP; the end record it may offer leaves HBM. -/
theorem wkDeny_commits {l : Hot} (h : wkPlaceholder sl q s = .ok l) : ∃ n reply,
    (wkDeny sl q s).mem = (commitNew sl l.record n reply (wkOutcome q true s)).mem ∧ n.life = some lifeClosed ∧ n.action = 2 := by
  unfold wkDeny
  rw [h]
  dsimp only
  have hm (c : Prop) [Decidable c] (u : State) : (if c then offerExport sl l.record xpClosed true false false u else u).mem = u.mem := by
    split
    · exact offerExport_mem ..
    · rfl
  exact ⟨_, _, hm .., rfl, rfl⟩

theorem wkReject_removes {l : Hot} (h : wkPlaceholder sl q s = .ok l) :
    wkReject sl q s = replyCore q.core 0 [] (removeNew sl l.record 2 (wkOutcome q false s)) := by
  unfold wkReject
  rw [h]

theorem wkReject_gone {l : Hot} (h : wkPlaceholder sl q s = .ok l) : hotOf (wkReject sl q s) sl l.record = none
    ∧ (coreOf (wkReject sl q s) q.core).reply = some (rdN (coreOf s q.core).window 0x2C0 1, 0, []) := by
  obtain ⟨hline, hnew⟩ := wkPlaceholder_line h
  have hc : coreOf (removeNew sl l.record 2 (wkOutcome q false s)) q.core = coreOf s q.core :=
    (coreOf_congr ((removeNew_keeps (Only.allows 134144 _) rfl _ _ _ _ (Only.refl _ _)).tsk rfl) _).trans (coreOf_wkOutcome ..)
  rw [wkReject_removes h, coreOf_replyCore, hc]
  refine ⟨?_, rfl⟩
  unfold hotOf
  rw [slice_congr ((replyCore_only ..).flow rfl)]
  exact hotOf_removeNew ((hotOf_wkOutcome ..).trans hline) hnew 2

/-! ### SET_ACTION, CLOSE and SET_FW -/

theorem wkSetAction_bumps {r : Nat} (h : wkRecord q true s = .ok r) : ∃ reply,
    wkSetAction sl q s = bump r none [] reply (setRec r 64 32 (fld q.req 511 256) s) := by
  unfold wkSetAction
  rw [onRecord_takes h]
  exact ⟨_, rfl⟩

theorem wkSetAction_writes {r : Nat} (h : wkRecord q true s = .ok r) : recAction (wkSetAction sl q s) r = fld q.req 511 256
    ∧ recVer (wkSetAction sl q s) r = (recVer s r + 1) % 2 ^ 32
    ∧ ∀ o k, o + k ≤ 44 ∨ 96 ≤ o → recN (wkSetAction sl q s) r o k = recN s r o k := by
  obtain ⟨reply, e⟩ := wkSetAction_bumps (sl := sl) h
  rw [e, recVer_bump, recVer_setRec_out _ (by omega)]
  refine ⟨?_, rfl, fun o k hk => ?_⟩
  · unfold recAction
    rw [recN_bump_out _ _ _ _ _ _ _ (by omega), recN_setRec, fld_mod_bytes _ _ _ _ (by decide)]
  · rw [recN_bump_out _ _ _ _ _ _ _ (by omega), recN_setRec_out _ _ _ _ _ _ _ (by omega)]

theorem wkClose_ends {r : Nat} (h : wkRecord q true s = .ok r) (ho : recOpen s r = true) :
    wkClose sl q s = endRecord sl r lifeClosed xpFirmware { reply := some (q.core, 0, []) } s := by
  unfold wkClose
  rw [onRecord_takes h, if_pos ho]

theorem wkSetFw_writes {r : Nat} (h : wkRecord q false s = .ok r) :
    wkSetFw sl q s = replyAfter q r [] (setRec r 144 48 (fld q.aux 1535 1152) s) := by
  unfold wkSetFw
  rw [onRecord_takes h]

theorem replyAfter_mem (q : WkReq) (r : Nat) (words : List (Nat × Nat)) (s : State) : (replyAfter q r words s).mem = s.mem := by
  unfold replyAfter queueWrite
  rw [modSlice_mem]

/-! ### AGE -/

theorem SameRecords.of_each {A : Type} {f : A → State → State} (h : ∀ a t, SameRecords t (f a t)) (l : List A) (s : State) :
    SameRecords s (each l f s) :=
  each_inv f (SameRecords s) l s (fun a _ t H => H.trans (h a t)) (.refl s)

/-- The pull of a record that is no PRIMARY asks every pipeline for its deltas. -/
theorem startPull_alone {r : Nat} (hk : recKind s r ≠ 1) (reason : Nat) (ask : Option WkReq) : startPull sl r reason ask s
    = sendPull sl r (modSlice sl (fun x => { x with pulls := x.pulls ++ [⟨r, ageSeen s r, pipelines s.part, reason, ask⟩] }) s) := by
  unfold startPull
  dsimp only
  rw [if_neg hk]
  dsimp only
  rw [Option.isSome_none, if_neg Bool.false_ne_true, List.append_nil]

theorem wkAge_pulls {r : Nat} (h : wkRecord q true s = .ok r) (hl : recLife s r = lifeEst ∨ recLife s r = lifeAct)
    (hp : pulling s r = false) : wkAge sl q s = startPull sl r xpAged (some q) s := by
  unfold wkAge
  rw [onRecord_takes h, if_pos hl, hp, if_neg Bool.false_ne_true]

theorem startPull_asks {r : Nat} (hk : recKind s r ≠ 1) (reason : Nat) (ask : Option WkReq) :
    (slice (startPull sl r reason ask s) sl).pulls = (slice s sl).pulls ++ [⟨r, ageSeen s r, pipelines s.part, reason, ask⟩]
      ∧ (∀ p ∈ pipelines s.part, .pull r ∈ chan (startPull sl r reason ask s) sl p) ∧ SameRecords s (startPull sl r reason ask s) := by
  rw [startPull_alone hk]
  unfold sendPull
  refine ⟨?_, fun p hp => mem_chan_each_sendChan sl _ hp _, ?_⟩
  · rw [slice_each_sendChan, slice_modSlice]
  · exact (SameRecords.of_modSlice sl (f := fun x => { x with
      pulls := x.pulls ++ [⟨r, ageSeen s r, pipelines s.part, reason, ask⟩] }) (fun _ => rfl) (fun _ => rfl) s).trans
        (.of_each (fun _ _ => .of_sendChan ..) _ _)

/-! ### READ, and what EXPORT buffers -/

theorem SameRecords.recImage_eq {t : State} (H : SameRecords s t) (r : Nat) : recImage t r = recImage s r := by
  unfold recImage
  rw [H.recOwner_eq, H.hotOf_eq, H.recN_eq]

theorem SameRecords.of_modRing (g : Nat) (f : Ring → Ring) (s : State) : SameRecords s (modRing g f s) :=
  .of_flow (modRing_flow ..) (modRing_part ..) (modRing_mem ..)

/-- A record is exported into the buffer when its ring is enabled and the buffer has room. -/
theorem offerExport_buffers {r : Nat} (reason : Nat) (endRec freeIt : Bool)
    (he : (ring s (656 + profRing (profEntry s (dieOfSlice sl) (recProf s r)))).enabled = true)
    (hn : (slice s sl).exports.length < 4096) : ∃ g f now seq, offerExport sl r reason endRec freeIt false s
      = modSlice sl (fun y => { y with exports := y.exports ++ [⟨g, reason, r, recImage s r, now, endRec, freeIt, seq⟩] }) (modRing (656 + g) f s)
      := by
  have hi : ∀ g f, recImage (modRing g f s) r = recImage s r := fun g f => (SameRecords.of_modRing g f s).recImage_eq r
  have hs : ∀ g f, slice (modRing g f s) sl = slice s sl := fun g f => slice_congr (modRing_flow ..) sl
  unfold offerExport
  dsimp only
  rw [ring_modRing, he, hs, decide_eq_false (Nat.not_le.mpr hn), Bool.false_and, Bool.false_or, Bool.not_true,
    if_neg Bool.false_ne_true, if_neg Bool.false_ne_true, hi]
  exact ⟨_, _, _, _, rfl⟩

theorem wkExport_buffers {r : Nat} (h : wkRecord q false s = .ok r) (hx : bit (recFlags48 s r) 1 = true) :
    wkExport sl q s = replyCore q.core 0 [] (offerExport sl r xpFirmware false false false s) := by
  unfold wkExport
  rw [onRecord_takes h, if_pos hx]

theorem wkRead_gives {r : Nat} (hk : bit q.req 9 = false) (h : wkRecord q false s = .ok r) : wkRead sl q s
    = replyCore q.core 0 [(8, r)] (modCore q.core (fun x => { x with replyImage := some (recImage s r) }) s) := by
  unfold wkRead
  dsimp only
  rw [hk, if_neg Bool.false_ne_true, onRecord_takes h]

/-! ### REBIND and NAT_PORT -/

theorem rebindTo_writes (sl r b : Nat) (answer : List Req) (reply) (s : State) :
    recAction (rebindTo sl r b answer reply s) r = setFld (recAction s r) 87 71 b % 2 ^ 256
      ∧ recVer (rebindTo sl r b answer reply s) r = (recVer s r + 1) % 2 ^ 32
      ∧ recBackGen (rebindTo sl r b answer reply s) r = backGenOf (backEntry s (dieOfSlice sl) b) := by
  have hg : backGenOf (backEntry s (dieOfSlice sl) b) % 256 ^ 2 = backGenOf (backEntry s (dieOfSlice sl) b) :=
    fld_mod_bytes _ _ _ _ (by decide)
  have hm : ∀ u, (fleCnt sl 11 u).mem = u.mem := fun u => cntInc_mem ..
  have hp : (256 : Nat) ^ 32 = 2 ^ 256 := by decide
  unfold rebindTo
  dsimp only
  refine ⟨?_, ?_, ?_⟩
  · unfold recAction
    rw [recN_bump_out _ _ _ _ _ _ _ (by omega), recN_congr (hm _), recN_setRec_out _ _ _ _ _ _ _ (by omega), recN_setRec, hp]
  · rw [recVer_bump]
    unfold recVer
    rw [recN_congr (hm _), recN_setRec_out _ _ _ _ _ _ _ (by omega), recN_setRec_out _ _ _ _ _ _ _ (by omega)]
  · unfold recBackGen
    rw [recN_bump_out _ _ _ _ _ _ _ (by omega), recN_congr (hm _), recN_setRec, hg]

theorem wkRebind_rebinds {r : Nat} (h : wkRecord q true s = .ok r) (ho : recOpen s r = true) : ∃ parked reply, wkRebind sl q s
    = rebindTo sl r (fld q.req 95 64 % 131072) parked reply
        (modSlice sl (fun x => { x with rebinds := x.rebinds.filter fun y => y.backend ≠ some r }) s) := by
  unfold wkRebind
  rw [onRecord_takes h, ho, if_neg (by decide)]
  exact ⟨_, _, rfl⟩

/-- A binding with a port taken, its cursor moved past it and its refcount one higher. -/
def portTaken (r i : Nat) (s : State) : State :=
  let u := setRec r 136 2 (i + 1) (setRec r 192 64 (setFld (portBits s r) i i 1) s)
  setRec r 140 4 (recRefs u r + 1) u

theorem wkNatPort_takes {r p i : Nat} (h : wkRecord q false s = .ok r) (hk : recKind s r = 3) (ho : recOpen s r = true)
    (hp : poolOfAddr s (dieOfSlice sl) (fld (recAction s r) 40 27) = some p)
    (hi : natPortAlloc s r (2 ^ poolLog2 (poolEntry s (dieOfSlice sl) p)) = some i) : wkNatPort sl q s
      = replyAfter q r [(12, fld (recAction (portTaken r i s) r) 56 41 + i)] (portTaken r i s) := by
  unfold wkNatPort
  rw [onRecord_takes h, if_neg (by rw [hk, ho]; decide)]
  dsimp only
  rw [hp]
  dsimp only
  rw [hi]
  rfl

theorem recN_portTaken_out (r i : Nat) {o k : Nat} (h : o + k ≤ 136) (s : State) : recN (portTaken r i s) r o k = recN s r o k := by
  unfold portTaken
  dsimp only
  rw [recN_setRec_out _ _ _ _ _ _ _ (by omega), recN_setRec_out _ _ _ _ _ _ _ (by omega), recN_setRec_out _ _ _ _ _ _ _ (by omega)]

theorem portTaken_flow (r i : Nat) (s : State) : (portTaken r i s).flow = s.flow := rfl

theorem portTaken_writes (r : Nat) {i : Nat} (hi : i < 512) (s : State) : bit (portBits (portTaken r i s) r) i = true
    ∧ recRefs (portTaken r i s) r = (recRefs s r + 1) % 2 ^ 32 ∧ recN (portTaken r i s) r 136 2 = (i + 1) % 2 ^ 16 := by
  unfold portTaken
  dsimp only
  refine ⟨?_, ?_, ?_⟩
  · unfold portBits
    rw [recN_setRec_out _ _ _ _ _ _ _ (by omega), recN_setRec_out _ _ _ _ _ _ _ (by omega), recN_setRec]
    exact bit_setFld_one _ _ _ (by omega)
  · unfold recRefs
    rw [recN_setRec, recN_setRec_out _ _ _ _ _ _ _ (by omega), recN_setRec_out _ _ _ _ _ _ _ (by omega),
      show (256 : Nat) ^ 4 = 2 ^ 32 by decide]
  · rw [recN_setRec_out _ _ _ _ _ _ _ (by omega), recN_setRec, show (256 : Nat) ^ 2 = 2 ^ 16 by decide]

theorem replyAfter_queues (q : WkReq) (r : Nat) (words : List (Nat × Nat)) (s : State) :
    recOwner (replyAfter q r words s) r = recOwner s r ∧ (slice (replyAfter q r words s) (recOwner s r)).writes
      = (slice s (recOwner s r)).writes ++ [⟨r, recVer s r, false, none, [], some (q.core, 0, words), recHalf r / 2⟩] := by
  unfold replyAfter queueWrite
  exact ⟨recOwner_modSlice _ _ _ _ fun _ => rfl, by rw [slice_modSlice]⟩

/-- Settles O30: each row takes the request at the front, and the request's operation is the branch its clause names. -/
theorem firmwareRequests : Obligations.FirmwareRequests := by
  refine ⟨?commitRefused, ?setActionRefused, ?others, ?commit, ?deny, ?reject, ?setAction, ?close, ?age, ?exportRec, ?read, ?rebind,
    ?natBlock, ?natPort, ?setFw⟩
  case commitRefused =>
    intro sl q rest st s hon hw ho h
    exact congrArg Host.Outcome.next
      ((wkRow_takes hon hw ho _).trans (wkCommit_refuses ((wkPlaceholder_rest sl sl rest q s).trans h)))
  case setActionRefused =>
    intro sl q rest st s hon hw ho h
    exact congrArg Host.Outcome.next
      ((wkRow_takes hon hw ho _).trans (onRecord_refuses ((wkRecord_rest sl rest q true s).trans h) _))
  case others =>
    exact fun sl q rest s hw => ⟨fun h => congrArg _ (wkRow_stays hw h _), fun h => congrArg _ (wkRow_stays hw h _),
      fun h => congrArg _ (wkRow_stays hw h _)⟩
  case commit =>
    intro sl q rest l s hon hw ho h hp
    obtain ⟨n, reply, e, hkey, hprof, hact, hfl, hfw⟩ := wkCommit_commits ((wkPlaceholder_rest sl sl rest q s).trans h) hp
    obtain ⟨cact, cfl, cver, ckey, cprof, cfw, -⟩ :=
      commitNew_ok sl l.record n reply (wkOutcome q true (modSlice sl (fun x => { x with wk := rest }) s))
    have hv : recVer (wkOutcome q true (modSlice sl (fun x => { x with wk := rest }) s)) l.record = recVer s l.record :=
      recN_congr ((wkOutcome_mem ..).trans (modSlice_mem ..)) _ _ _
    rw [hact, fld_mod_pow _ _ _ _ (by decide)] at cact
    rw [hfl] at cfl
    rw [hv] at cver
    rw [hkey] at ckey
    rw [hprof] at cprof
    rw [hfw, fld_mod_bytes _ _ _ _ (by decide)] at cfw
    exact ⟨_, congrArg Host.Outcome.next ((wkRow_takes hon hw ho _).trans e), cact, cfl, cver, ckey, cprof, cfw⟩
  case deny =>
    intro sl q rest l s hon hw ho h
    obtain ⟨n, reply, hm, hlife, hact⟩ := wkDeny_commits ((wkPlaceholder_rest sl sl rest q s).trans h)
    obtain ⟨cact, -, cver, -, -, -, clife⟩ :=
      commitNew_ok sl l.record n reply (wkOutcome q true (modSlice sl (fun x => { x with wk := rest }) s))
    have hv : recVer (wkOutcome q true (modSlice sl (fun x => { x with wk := rest }) s)) l.record = recVer s l.record :=
      recN_congr ((wkOutcome_mem ..).trans (modSlice_mem ..)) _ _ _
    have hN := recN_congr hm l.record
    refine ⟨_, congrArg Host.Outcome.next (wkRow_takes hon hw ho _), ?_, ?_, ?_⟩
    · unfold recLife at clife ⊢
      rw [hN]
      exact clife _ hlife (by decide)
    · unfold recAction at cact ⊢
      rw [hN, cact, hact]
      decide
    · rw [hv] at cver
      unfold recVer at cver ⊢
      rw [hN]
      exact cver
  case reject =>
    intro sl q rest l s hon hw ho h
    exact ⟨_, congrArg Host.Outcome.next (wkRow_takes hon hw ho _), wkReject_gone ((wkPlaceholder_rest sl sl rest q s).trans h)⟩
  case setAction =>
    intro sl q rest r s hon hw ho h
    exact ⟨_, congrArg Host.Outcome.next (wkRow_takes hon hw ho _), wkSetAction_writes ((wkRecord_rest sl rest q true s).trans h)⟩
  case close =>
    intro sl q rest r s hon hw ho h hr
    have hr' := ((sameRecords_rest sl rest s).recOpen_eq r).trans hr
    obtain ⟨hlife, hver, -⟩ := endRecord_closed' sl r xpFirmware { reply := some (q.core, 0, []) } rfl _ hr'
    exact ⟨_, congrArg Host.Outcome.next ((wkRow_takes hon hw ho _).trans (wkClose_ends ((wkRecord_rest sl rest q true s).trans h) hr')),
      hlife, hver⟩
  case age =>
    intro sl q rest r s hon hw ho h hl hk hp
    have R := sameRecords_rest sl rest s
    have hp' : pulling (modSlice sl (fun x => { x with wk := rest }) s) r = false := by
      unfold pulling at hp ⊢
      rw [slice_modSlice_field (f := fun x => { x with wk := rest }) Slice.pulls (fun _ => rfl), R.recOwner_eq, hp]
    have ha : ageSeen (modSlice sl (fun x => { x with wk := rest }) s) r = ageSeen s r :=
      ageSeen_modSlice sl _ s r fun _ => ⟨rfl, rfl, rfl⟩
    obtain ⟨hpulls, hsent, hsame⟩ := startPull_asks (sl := sl) (s := modSlice sl (fun x => { x with wk := rest }) s)
      ((R.recKind_eq r).symm ▸ hk) xpAged (some q)
    rw [ha, slice_modSlice] at hpulls
    exact ⟨_, congrArg Host.Outcome.next ((wkRow_takes hon hw ho _).trans
        (wkAge_pulls ((wkRecord_rest sl rest q true s).trans h) (by rw [R.recLife_eq]; exact hl) hp')),
      hpulls, hsent, (hsame.recLive_eq r).trans (R.recLive_eq r), hsame.sameMem.trans R.sameMem⟩
  case exportRec =>
    intro sl q rest r s hon hw ho h hx he hn
    have R := sameRecords_rest sl rest s
    obtain ⟨g, f, now, seq, e⟩ := offerExport_buffers (sl := sl) (s := modSlice sl (fun x => { x with wk := rest }) s) (r := r)
      xpFirmware false false he (by rw [slice_modSlice]; exact hn)
    refine ⟨_, ⟨g, xpFirmware, r, recImage s r, now, false, false, seq⟩, congrArg Host.Outcome.next ((wkRow_takes hon hw ho _).trans
      (wkExport_buffers ((wkRecord_rest sl rest q false s).trans h) hx)), ?_, rfl, rfl, rfl, rfl, ?_⟩
    · rw [slice_congr ((replyCore_only ..).flow rfl), e, slice_modSlice, slice_congr (modRing_flow ..), slice_modSlice, R.recImage_eq]
    · rw [coreOf_replyCore, e, coreOf_modSlice, coreOf_congr (modRing_tsk ..), coreOf_modSlice]
  case read =>
    intro sl q rest r s hon hw ho hk h
    have R := sameRecords_rest sl rest s
    refine ⟨_, congrArg Host.Outcome.next ((wkRow_takes hon hw ho _).trans (wkRead_gives hk ((wkRecord_rest sl rest q false s).trans h))),
      ?_, ?_, ?_⟩
    · rw [coreOf_replyCore, coreOf_modCore, R.recImage_eq]
    · rw [coreOf_replyCore, coreOf_modCore, coreOf_modSlice]
    · rw [(replyCore_only ..).mem rfl, modCore_mem, modSlice_mem]
  case rebind =>
    intro sl q rest r s hon hw ho h hr
    obtain ⟨parked, reply, e⟩ := wkRebind_rebinds (sl := sl) ((wkRecord_rest sl rest q true s).trans h)
      (((sameRecords_rest sl rest s).recOpen_eq r).trans hr)
    exact ⟨_, congrArg Host.Outcome.next ((wkRow_takes hon hw ho _).trans e), rebindTo_writes ..⟩
  case natBlock =>
    intro sl q rest a p u s hon hw ho h
    refine congrArg Host.Outcome.next ((wkRow_takes hon hw ho _).trans ?_)
    unfold wkNatBlock
    rw [h]
  case natPort =>
    intro sl q rest r p i s hon hw ho h hk hr hp hi hlt
    have R := sameRecords_rest sl rest s
    generalize hv : modSlice sl (fun x => { x with wk := rest }) s = v at R
    have hrec : wkRecord q false v = .ok r := by rw [← hv]; exact (wkRecord_rest sl rest q false s).trans h
    have hp' : poolOfAddr v (dieOfSlice sl) (fld (recAction v r) 40 27) = some p := by rw [← hv]; exact hp
    have hi' : natPortAlloc v r (2 ^ poolLog2 (poolEntry v (dieOfSlice sl) p)) = some i := by rw [← hv]; exact hi
    have e := wkNatPort_takes hrec ((R.recKind_eq r).trans hk) ((R.recOpen_eq r).trans hr) hp' hi'
    have ht := replyAfter_mem q r [(12, fld (recAction (portTaken r i v) r) 56 41 + i)] (portTaken r i v)
    obtain ⟨hbit, hrefs, hcur⟩ := portTaken_writes r hlt v
    obtain ⟨hown, hwr⟩ := replyAfter_queues q r [(12, fld (recAction (portTaken r i v) r) 56 41 + i)] (portTaken r i v)
    have hact : recAction (portTaken r i v) r = recAction s r := (recN_portTaken_out r i (by omega) v).trans (R.recN_eq ..)
    have hver : recVer (portTaken r i v) r = recVer s r := (recN_portTaken_out r i (by omega) v).trans (R.recN_eq ..)
    have hq : ∀ n, (slice (portTaken r i v) n).writes = (slice s n).writes := by
      intro n
      rw [slice_congr (portTaken_flow r i v), ← hv, slice_modSlice_field (f := fun x => { x with wk := rest }) Slice.writes fun _ => rfl]
    refine ⟨_, congrArg Host.Outcome.next ((wkRow_takes hon hw ho _).trans ((congrArg _ hv).trans e)), ?_, ?_, ?_, ?_⟩
    · unfold portBits at hbit ⊢
      rw [recN_congr ht]
      exact hbit
    · unfold recRefs at hrefs ⊢
      rw [recN_congr ht, hrefs, R.recN_eq]
    · rw [recN_congr ht, hcur]
    · rw [hown, hwr, hact, hver, hq]
  case setFw =>
    intro sl q rest r s hon hw ho h
    have R := sameRecords_rest sl rest s
    refine ⟨_, congrArg Host.Outcome.next ((wkRow_takes hon hw ho _).trans (wkSetFw_writes ((wkRecord_rest sl rest q false s).trans h))),
      ?_, fun o k hk => ?_⟩
    · rw [recN_congr (replyAfter_mem ..), recN_setRec, fld_mod_bytes _ _ _ _ (by decide)]
    · rw [recN_congr (replyAfter_mem ..), recN_setRec_out _ _ _ _ _ _ _ (by omega), R.recN_eq]

end Sys2Proof.Proofs
end

section
/-! Speculation (R186 to R188, R196, R214 to R225, R235, R237): what the messages between pipelines and owners leave, by the branch of
each row's operation that the conditions of its clause choose. -/

namespace Sys2Proof.Proofs

open Sys2Proof.Machine Sys2Proof.Laws

variable {sl p : Nat} {s u : State}

/-! ### What the parts of a pipeline keep -/

@[simp] theorem pipe_modSlice (n : Nat) (f) (s : State) (m : Nat) : pipe (modSlice n f s) m = pipe s m := rfl
@[simp] theorem waitings_modReplicas (n : Nat) (f) (s : State) (m : Nat) : waitings (modReplicas n f s) m = waitings s m := rfl
@[simp] theorem waitings_modSlice (n : Nat) (f) (s : State) (m : Nat) : waitings (modSlice n f s) m = waitings s m := rfl
@[simp] theorem waitings_modPipe (n : Nat) (f) (s : State) (m : Nat) : waitings (modPipe n f s) m = waitings s m := rfl
@[simp] theorem replicas_modSlice (n : Nat) (f) (s : State) (m : Nat) : replicas (modSlice n f s) m = replicas s m := rfl
@[simp] theorem slice_modReplicas (n : Nat) (f) (s : State) (m : Nat) : slice (modReplicas n f s) m = slice s m := rfl
@[simp] theorem slice_modWaitings (n : Nat) (f) (s : State) (m : Nat) : slice (modWaitings n f s) m = slice s m := rfl
@[simp] theorem slice_modChan (n q : Nat) (f) (s : State) (m : Nat) : slice (modChan n q f s) m = slice s m := rfl
@[simp] theorem chan_modReplicas (n : Nat) (f) (s : State) (a b : Nat) : chan (modReplicas n f s) a b = chan s a b := rfl

@[simp] theorem pipe_modPkt (k : Nat) (f) (s : State) (m : Nat) : pipe (modPkt k f s) m = pipe s m := rfl
@[simp] theorem pktOf_modPipe (n : Nat) (f) (s : State) (k : Nat) : pktOf (modPipe n f s) k = pktOf s k := rfl

theorem modPipe_congr {n : Nat} {f g : Pipe → Pipe} (h : f (pipe s n) = g (pipe s n)) : modPipe n f s = modPipe n g s := by
  unfold modPipe
  rw [h]

theorem chan_modChan (n q : Nat) (f) (s : State) : chan (modChan n q f s) n q = f (chan s n q) := mget_mset_same _ _ _ _

/-- The first element with a number, after a change of the elements with it that keeps their number. -/
theorem find?_map_numbered {α : Type} (key : α → Nat) (r : Nat) {f : α → α} (hf : ∀ x, key (f x) = key x) (l : List α) :
    (l.map fun x => if key x = r then f x else x).find? (fun x => key x = r) = (l.find? fun x => key x = r).map f := by
  induction l with
  | nil => rfl
  | cons a t ih =>
    rw [List.map_cons, List.find?_cons, List.find?_cons]
    by_cases c : key a = r
    · rw [if_pos c, hf a, decide_eq_true c]
      rfl
    · rw [if_neg c, decide_eq_false c]
      exact ih

/-! ### Deltas and pulls -/

/-- An entry whose deltas have been sent. -/
def deltasSent (x : Replica) : Replica := { x with dPktsO := 0, dPktsR := 0, dBytesO := 0, dBytesR := 0, since := none }

theorem sendDelta_sends {r w : Nat} {x : Replica} (hx : (replicas s p).find? (fun x => x.record = r) = some x)
    (hw : x.since = some w) : sendDelta p r s = modReplica p r deltasSent (modSlice (recOwner s r) (fun y => { y with
      deltas := y.deltas ++ [⟨r, x.dPktsO, x.dPktsR, x.dBytesO, x.dBytesR, x.seen⟩] }) s) := by
  unfold sendDelta
  rw [hx]
  dsimp only
  rw [hw]
  rfl

/-- Sending an entry's deltas writes the replicas and the queue of deltas alone. -/
theorem sendDelta_cases (p r : Nat) (s : State) : sendDelta p r s = s
    ∨ ∃ d, sendDelta p r s
      = modReplica p r deltasSent (modSlice (recOwner s r) (fun y => { y with deltas := y.deltas ++ [d] }) s) := by
  unfold sendDelta
  split
  · exact .inl rfl
  · split
    · exact .inl rfl
    · exact .inr ⟨_, rfl⟩

theorem slice_sendDelta_field {α : Type} (g : Slice → α) (hg : ∀ x d, g { x with deltas := d } = g x) (p r : Nat) (s : State)
    (n : Nat) : g (slice (sendDelta p r s) n) = g (slice s n) := by
  rcases sendDelta_cases p r s with e | ⟨d, e⟩
  · rw [e]
  · rw [e]
    unfold modReplica
    rw [slice_modReplicas]
    exact slice_modSlice_field g (fun x => hg x _) _ s n

theorem chan_sendDelta (p r : Nat) (s : State) (a b : Nat) : chan (sendDelta p r s) a b = chan s a b := by
  rcases sendDelta_cases p r s with e | ⟨d, e⟩
  · rw [e]
  · rw [e]
    unfold modReplica
    rw [chan_modReplicas, chan_modSlice]

theorem waitings_sendDelta (p r : Nat) (s : State) (a : Nat) : waitings (sendDelta p r s) a = waitings s a := by
  rcases sendDelta_cases p r s with e | ⟨d, e⟩
  · rw [e]
  · rw [e]
    unfold modReplica
    rw [waitings_modReplicas, waitings_modSlice]

theorem ctime_congr (hn : u.now = s.now) (hb : u.ctimeBase = s.ctimeBase) : ctime u = ctime s := by
  unfold ctime
  rw [hn, hb]

theorem deltaSend_due {r w : Nat} {x : Replica} (hx : (replicas s p).find? (fun x => x.record = r) = some x) (hw : x.since = some w)
    (hd : w + 10000000 ≤ s.now) : deltaSend p r s = sendDelta p r s := by
  unfold deltaSend
  rw [hx]
  dsimp only
  rw [hw]
  exact if_pos hd

theorem deltaSend_early {r w : Nat} {x : Replica} (hx : (replicas s p).find? (fun x => x.record = r) = some x) (hw : x.since = some w)
    (hd : s.now < w + 10000000) : deltaSend p r s = s := by
  unfold deltaSend
  rw [hx]
  dsimp only
  rw [hw]
  exact if_neg (by omega)

theorem deltaSend_sends {r w : Nat} {x : Replica} (hx : (replicas s p).find? (fun x => x.record = r) = some x) (hw : x.since = some w)
    (hd : w + 10000000 ≤ s.now) : (slice (deltaSend p r s) (recOwner s r)).deltas
        = (slice s (recOwner s r)).deltas ++ [⟨r, x.dPktsO, x.dPktsR, x.dBytesO, x.dBytesR, x.seen⟩]
      ∧ (replicas (deltaSend p r s) p).find? (fun x => x.record = r) = some (deltasSent x) := by
  rw [deltaSend_due hx hw hd, sendDelta_sends hx hw]
  unfold modReplica
  rw [slice_modReplicas, slice_modSlice, replicas_modReplicas, replicas_modSlice,
    find?_map_numbered Replica.record r (f := deltasSent) (fun _ => rfl), hx]
  exact ⟨rfl, rfl⟩

theorem flowPull_answers {r : Nat} {rest : List ChanMsg} (hc : chan s sl p = .pull r :: rest)
    (hq : ∀ q ∈ (pipe s p).passes, q.record = some r → q.st ≠ .spec ∧ q.st ≠ .squashed) : flowPull sl p s
      = modSlice sl (fun x => { x with pullAns := x.pullAns ++ [(r, p)] }) (sendDelta p r (modChan sl p (fun _ => rest) s)) := by
  have hn : ((pipe s p).passes.any fun q => decide (q.record = some r) && (q.st = .spec || q.st = .squashed)) = false := by
    refine List.any_eq_false.mpr fun q h => ?_
    by_cases hr : q.record = some r
    · obtain ⟨h1, h2⟩ := hq q h hr
      simp [h1, h2]
    · simp [hr]
  unfold flowPull
  rw [hc]
  dsimp only
  rw [hn, if_neg Bool.false_ne_true]

theorem flowPull_waits {r : Nat} {rest : List ChanMsg} {q : Pass} (hc : chan s sl p = .pull r :: rest) (hq : q ∈ (pipe s p).passes)
    (hr : q.record = some r) (hst : q.st = .spec) : flowPull sl p s = s := by
  have hy : ((pipe s p).passes.any fun q => decide (q.record = some r) && (q.st = .spec || q.st = .squashed)) = true :=
    List.any_eq_true.mpr ⟨q, hq, by simp [hr, hst]⟩
  unfold flowPull
  rw [hc]
  dsimp only
  rw [hy, if_pos rfl]

theorem flowPull_answered {r : Nat} {rest : List ChanMsg} (hc : chan s sl p = .pull r :: rest)
    (hq : ∀ q ∈ (pipe s p).passes, q.record = some r → q.st ≠ .spec ∧ q.st ≠ .squashed) :
    chan (flowPull sl p s) sl p = rest ∧ (slice (flowPull sl p s) sl).pullAns = (slice s sl).pullAns ++ [(r, p)] := by
  rw [flowPull_answers hc hq, chan_modSlice, chan_sendDelta, chan_modChan, slice_modSlice,
    slice_sendDelta_field Slice.pullAns (fun _ _ => rfl), slice_modChan]
  exact ⟨rfl, rfl⟩

/-! ### Confirmation, where nothing is speculative -/

/-- No request of a pipeline is still to go out. -/
theorem pokeWaits_sent (h : ∀ w ∈ waitings s p, w.sent = true) : pokeWaits p s = s := by
  have hn : ((waitings s p).filter fun w => !w.sent) = [] := by
    refine List.filter_eq_nil_iff.mpr fun w hw => ?_
    rw [h w hw]
    exact Bool.false_ne_true
  unfold pokeWaits
  rw [hn, each_nil]

theorem pipe_syncSpec (p : Nat) (s : State) (n : Nat) : pipe (syncSpec p s) n = pipe s n := rfl
theorem waitings_syncSpec (p : Nat) (s : State) (n : Nat) : waitings (syncSpec p s) n = waitings s n := rfl
theorem slice_syncSpec (p : Nat) (s : State) (n : Nat) : slice (syncSpec p s) n = slice s n := rfl

/-- Without a speculative pass and with every request gone out, confirming counts the entries' packets and no more. -/
theorem confirmPasses_quiet (hq : ∀ q ∈ (pipe s p).passes, q.st ≠ .spec) (hw : ∀ w ∈ waitings s p, w.sent = true) :
    confirmPasses p s = syncSpec p s := by
  unfold confirmPasses
  refine (congrArg (fun t => pokeWaits p (syncSpec p t)) (each_inv _ (fun t => t = s) _ s (fun e _ t ht => ?_) rfl)).trans
    (pokeWaits_sent hw)
  subst ht
  split
  next => rfl
  next q e =>
    have hn : q.st ≠ .spec := hq q (List.mem_of_find?_eq_some e)
    rw [decide_eq_false hn]
    rfl

theorem record_syncSpec {r : Nat} (h : ∀ x ∈ replicas s p, x.record ≠ r) : ∀ x ∈ replicas (syncSpec p s) p, x.record ≠ r := by
  unfold syncSpec
  dsimp only
  rw [replicas_modReplicas]
  intro x hx
  obtain ⟨y, hy, rfl⟩ := List.mem_map.mp hx
  exact h y hy

/-! ### ANSWER -/

/-- An entry of a key and a record that no other entry has, with a way free in its set, is put in. -/
theorem install_appends {n : Replica} (hk : ∀ x ∈ replicas s p, ¬(x.key = n.key ∧ x.prof = n.prof))
    (hways : ((replicas s p).filter fun x => replicaSet x.h = replicaSet n.h).length < 8) :
    install p n s = modReplicas p (· ++ [{ n with used := nextUse (replicas s p) }]) s := by
  have h1 : (replicas s p).find? (fun x => x.record = n.record ∧ x.key = n.key ∧ x.prof = n.prof) = none :=
    List.find?_eq_none.mpr fun x hx e => hk x hx (of_decide_eq_true e).2
  have h2 : replicaOf s p n.key n.prof = none := List.find?_eq_none.mpr fun x hx e => hk x hx (of_decide_eq_true e)
  unfold install
  dsimp only
  rw [h1]
  dsimp only
  rw [h2]
  dsimp only
  rw [if_pos hways]

/-- The entry that an answer with a record brings. -/
def answeredEntry (key : List Byte) (prof h rec ver fl act bg : Nat) (dir : Bool) : Replica where
  key := key
  prof := prof
  h := h
  record := rec
  version := ver
  origDir := dir
  backendGen := bg
  action := act
  flags := fl
  dPktsO := 0
  dPktsR := 0
  dBytesO := 0
  dBytesR := 0
  seen := 0
  since := none
  replySeen := false
  spec := 0
  used := 0

theorem answer_installs {key : List Byte} {prof rec ver fl act bg : Nat} {dir : Bool} {w : Waiting}
    (ht : takeChan sl p s = some (.answer key prof rec ver fl act bg dir 1, u))
    (hw : (waitings u p).find? (fun w => w.key = key ∧ w.prof = prof) = some w) (hwho : w.who = []) (hlate : w.late = []) :
    answer sl p s = confirmPasses p (install p (answeredEntry key prof w.req.h rec ver fl act bg dir)
      (modWaitings p (·.filter fun v => !(decide (v.key = key) && decide (v.prof = prof))) u)) := by
  have hout : (chainOut u p key prof && !w.late.isEmpty) = false := by
    rw [hlate]
    exact Bool.and_false _
  unfold answer
  rw [ht]
  dsimp only
  rw [hw]
  dsimp only
  rw [if_neg (by decide), hout, hwho, hlate, if_neg Bool.false_ne_true, if_neg Bool.false_ne_true,
    List.append_nil, each_nil, if_pos rfl]
  rfl

theorem answer_retry {key : List Byte} {prof rec ver fl act bg : Nat} {dir : Bool} {w : Waiting}
    (ht : takeChan sl p s = some (.answer key prof rec ver fl act bg dir 2, u))
    (hw : (waitings u p).find? (fun w => w.key = key ∧ w.prof = prof) = some w) : answer sl p s = resendReq p w u := by
  unfold answer
  rw [ht]
  dsimp only
  rw [hw]
  exact if_pos rfl

theorem answer_entry {key : List Byte} {prof rec ver fl act bg : Nat} {dir : Bool} {w : Waiting}
    (ht : takeChan sl p s = some (.answer key prof rec ver fl act bg dir 1, u))
    (hw : (waitings u p).find? (fun w => w.key = key ∧ w.prof = prof) = some w) (hwho : w.who = []) (hlate : w.late = [])
    (hsent : ∀ v ∈ waitings u p, v.sent = true) (hq : ∀ q ∈ (pipe u p).passes, q.st ≠ .spec)
    (hk : ∀ x ∈ replicas u p, ¬(x.key = key ∧ x.prof = prof))
    (hways : ((replicas u p).filter fun x => replicaSet x.h = replicaSet w.req.h).length < 8) :
    ∃ n, n ∈ replicas (answer sl p s) p ∧ n.key = key ∧ n.prof = prof ∧ n.record = rec ∧ n.version = ver ∧ n.action = act
      ∧ n.flags = fl ∧ n.backendGen = bg := by
  rw [answer_installs ht hw hwho hlate, install_appends (by exact hk) (by exact hways), confirmPasses_quiet]
  · unfold syncSpec
    dsimp only
    rw [replicas_modReplicas, replicas_modReplicas]
    exact ⟨_, List.mem_map_of_mem (List.mem_append_right _ (List.mem_singleton_self _)), rfl, rfl, rfl, rfl, rfl, rfl, rfl⟩
  · exact hq
  · rw [waitings_modReplicas, waitings_modWaitings]
    exact fun v hv => hsent v (List.mem_of_mem_filter hv)

/-! ### Invalidations -/

theorem removeReplica_only (p r : Nat) (s : State) : Only 131072 s (removeReplica p r s) :=
  removeReplica_keeps (Only.allows 131072 s) rfl p r s (Only.refl _ s)

theorem pipe_removeReplica (p r : Nat) (s : State) (n : Nat) : pipe (removeReplica p r s) n = pipe s n :=
  pipe_congr ((removeReplica_only p r s).pipes rfl) n

theorem waitings_removeReplica (p r : Nat) (s : State) (n : Nat) : waitings (removeReplica p r s) n = waitings s n := by
  unfold removeReplica
  rw [waitings_modReplicas, waitings_sendDelta]

theorem slice_removeReplica_acks (p r : Nat) (s : State) (n : Nat) : (slice (removeReplica p r s) n).acks = (slice s n).acks := by
  unfold removeReplica
  rw [slice_modReplicas, slice_sendDelta_field Slice.acks fun _ _ => rfl]

theorem replicas_removeReplica (p r : Nat) (s : State) : ∀ x ∈ replicas (removeReplica p r s) p, x.record ≠ r := by
  unfold removeReplica
  rw [replicas_modReplicas]
  exact fun x hx => of_decide_eq_true (List.mem_filter.mp hx).2

theorem ctime_removeReplica (p r : Nat) (s : State) : ctime (removeReplica p r s) = ctime s :=
  ctime_congr ((removeReplica_only p r s).now rfl) ((removeReplica_only p r s).ctimeBase rfl)

/-- An operation that keeps a field of a pipeline keeps it for every pipeline. -/
theorem pipe_modPipe_field {α : Type} (g : Pipe → α) {f : Pipe → Pipe} (hf : ∀ x, g (f x) = g x) (p : Nat) (s : State) (n : Nat) :
    g (pipe (modPipe p f s) n) = g (pipe s n) := by
  by_cases h : p = n
  · rw [h, pipe_modPipe, hf]
  · rw [pipe_modPipe_ne h]

theorem passes_noteInval (p r : Nat) (s : State) (n : Nat) : (pipe (noteInval p r s) n).passes = (pipe s n).passes := by
  unfold noteInval
  split
  · unfold putUnstable
    refine pipe_modPipe_field Pipe.passes ?_ p s n
    exact fun _ => rfl
  · rfl

theorem noteInval_flow (p r : Nat) (s : State) : (noteInval p r s).flow = s.flow :=
  (noteInval_keeps (Only.allows 262144 s) rfl p r s (Only.refl _ s)).flow rfl

theorem replicas_congr (h : u.flow = s.flow) (n : Nat) : replicas u n = replicas s n := by
  unfold replicas
  rw [h]

theorem waitings_congr (h : u.flow = s.flow) (n : Nat) : waitings u n = waitings s n := by
  unfold waitings
  rw [h]

/-- An invalidation that no speculative pass of the pipeline meets removes the entry and notes the time. -/
theorem invalidation_quiet {r v tm g i : Nat} (ht : takeChan sl p s = some (.inval r v tm (some (g, i)), u))
    (hq : ∀ q ∈ (pipe u p).passes, q.st ≠ .spec) : invalidation sl p s
      = confirmPasses p (modSlice sl (fun x => { x with acks := x.acks ++ [(p, g, i)] }) (noteInval p r (removeReplica p r u))) := by
  have hsame : ((pipe u p).passes.filter fun q => decide (q.st = .spec) && !q.auth && decide (q.record = some r)
      && decide (q.lookup = ctime (removeReplica p r u))) = [] :=
    List.filter_eq_nil_iff.mpr fun q h => by simp [hq q h]
  have hbad : ((pipe u p).passes.find? fun q => decide (q.st = .spec) && !q.auth && decide (q.record = some r)
      && !wrapGe 48 tm (q.lookup + 4)) = none :=
    List.find?_eq_none.mpr fun q h => by simp [hq q h]
  unfold invalidation
  rw [ht]
  dsimp only
  rw [pipe_removeReplica, hsame, each_nil, pipe_removeReplica, hbad]

theorem invalidation_acknowledges {r v tm g i : Nat} (ht : takeChan sl p s = some (.inval r v tm (some (g, i)), u))
    (hw : ∀ w ∈ waitings u p, w.sent = true) (hq : ∀ q ∈ (pipe u p).passes, q.st ≠ .spec) :
    (∀ x ∈ replicas (invalidation sl p s) p, x.record ≠ r)
      ∧ (slice (invalidation sl p s) sl).acks = (slice u sl).acks ++ [(p, g, i)] := by
  have hf := noteInval_flow p r (removeReplica p r u)
  rw [invalidation_quiet ht hq, confirmPasses_quiet]
  · refine ⟨record_syncSpec ?_, ?_⟩
    · rw [replicas_modSlice, replicas_congr hf]
      exact replicas_removeReplica p r u
    · rw [slice_syncSpec, slice_modSlice, slice_congr hf, slice_removeReplica_acks]
  · rw [pipe_modSlice, passes_noteInval, pipe_removeReplica]
    exact hq
  · rw [waitings_modSlice, waitings_congr hf, waitings_removeReplica]
    exact hw

theorem invalidation_squashes {r v tm : Nat} {q : Pass} (ht : takeChan sl p s = some (.inval r v tm none, u))
    (hn : ∀ q ∈ (pipe u p).passes, q.record = some r → q.lookup ≠ ctime u)
    (hf : (pipe u p).passes.find? (fun q => decide (q.st = .spec) && !q.auth && decide (q.record = some r)
      && !wrapGe 48 tm (q.lookup + 4)) = some q) :
    invalidation sl p s = confirmPasses p (noteInval p r (squashChain p q.pkt q.no 1 (removeReplica p r u))) := by
  have hsame : ((pipe u p).passes.filter fun q => decide (q.st = .spec) && !q.auth && decide (q.record = some r)
      && decide (q.lookup = ctime u)) = [] := by
    refine List.filter_eq_nil_iff.mpr fun q h e => ?_
    simp only [Bool.and_eq_true, decide_eq_true_eq] at e
    exact hn q h e.1.2 e.2
  unfold invalidation
  rw [ht]
  dsimp only
  rw [pipe_removeReplica, ctime_removeReplica, hsame, each_nil, pipe_removeReplica, hf]

/-! ### Stamps -/

theorem stampForm_sends (hon : sliceOn s sl = true) (hc : ctime s % 16 = 0) (hd : (slice s sl).stampAt + 16 * 625 ≤ s.now) :
    ∀ p ∈ pipelines s.part, .stamp (ctime s) ∈ chan (stampForm sl s) sl p := by
  intro p hp
  unfold stampForm
  rw [hon, decide_eq_true hc, decide_eq_true hd, if_pos (show (true && true && true) = true from rfl)]
  exact mem_chan_each_sendChan sl _ hp _

theorem stampForm_between (hc : ctime s % 16 ≠ 0) : stampForm sl s = s := by
  unfold stampForm
  rw [decide_eq_false hc, Bool.and_false, Bool.false_and, if_neg Bool.false_ne_true]

/-- A pipeline that has a slice's stamp. -/
def stamped (sl v now : Nat) (x : Pipe) : Pipe :=
  { x with horizon := mset 0 x.horizon sl v, advanced := mset 0 x.advanced sl now, stalled := setFld x.stalled sl sl 0 }

theorem horizonStamp_takes {v : Nat} (ht : takeChan sl p s = some (.stamp v, u)) :
    horizonStamp sl p s = confirmPasses p (modPipe p (stamped sl v u.now) u) := by
  unfold horizonStamp
  rw [ht]
  rfl

theorem horizonStamp_quiet {v : Nat} (ht : takeChan sl p s = some (.stamp v, u)) (hw : ∀ w ∈ waitings u p, w.sent = true)
    (hq : ∀ q ∈ (pipe u p).passes, q.st ≠ .spec) :
    mget 0 (pipe (horizonStamp sl p s) p).horizon sl = v ∧ mget 0 (pipe (horizonStamp sl p s) p).advanced sl = u.now := by
  rw [horizonStamp_takes ht, confirmPasses_quiet]
  · rw [pipe_syncSpec, pipe_modPipe]
    exact ⟨mget_mset_same _ _ _ _, mget_mset_same _ _ _ _⟩
  · rw [pipe_modPipe]
    exact hq
  · rw [waitings_modPipe]
    exact hw

theorem finalStamp_covers {hf : Nat} (ht : takeChan sl p s = some (.finalStamp hf, u)) :
    finalStamp sl p s = confirmPasses p (modPipe p (fun x => { x with
      passes := x.passes.map fun q => if q.st = .spec ∧ q.record.isSome ∧ q.half = hf ∧ q.owner = sl then { q with covered := true }
        else q }) u) := by
  unfold finalStamp
  rw [ht]

/-! ### A confirmed pass and its packet -/

theorem leaveEpoch_only (k : Nat) (s : State) : Only 10334812448 s (leaveEpoch k s) :=
  leaveEpoch_keeps (Only.allows _ s) rfl k s (Only.refl _ s)

theorem pktOf_epochLeave (p : Nat) (b : Bool) (s : State) (k : Nat) : pktOf (epochLeave p b s) k = pktOf s k :=
  pktOf_congr ((epochLeave_keeps (Only.allows 10334804256 s) rfl p b s (Only.refl _ s)).pkts rfl) k

theorem pktOf_leaveEpoch {k : Nat} {x : Pkt} (h : pktOf s k = some x) :
    pktOf (leaveEpoch k s) k = some { x with inEpoch := false } := by
  unfold leaveEpoch
  rw [h]
  dsimp only
  split
  · rw [pktOf_epochLeave, pktOf_modPkt, h]
    rfl
  next hn =>
    rw [h, ← Bool.eq_false_iff.mpr hn]

/-- A packet whose check sequence is not known to be right is not settled. -/
theorem settle_unchecked {k : Nat} {x : Pkt} (h : pktOf s k = some x) (hc : x.check = none) : settle k s = s := by
  unfold settle
  rw [h]
  dsimp only
  rw [hc, if_pos]
  cases x.settled <;> cases x.flowOk <;> rfl

/-- With every pass confirmed, a packet's flow part is confirmed. -/
theorem checkFlow_confirms {k : Nat} {x : Pkt} (hx : pktOf s k = some x) (hp : x.pipe = p) (hc : x.check = none)
    (hf : x.flowOk = false) (htask : x.task = false) (hy : ∀ y ∈ (pipe s p).yoyo, y.pkt ≠ k) (hne : pktPasses s p k ≠ [])
    (hall : ∀ q ∈ pktPasses s p k, q.st = .confirmed) : ∃ lag, checkFlow k s
      = leaveEpoch k (modPkt k (fun y => { y with flowOk := true, lagFrom := lag }) s) := by
  have hpend : ((pipe s p).yoyo.any fun y => decide (y.pkt = k)) = false :=
    List.any_eq_false.mpr fun y h => by simp [hy y h]
  have hst : ((pktPasses s p k).any fun q => decide (q.st ≠ .confirmed)) = false :=
    List.any_eq_false.mpr fun q h => by simp [hall q h]
  have hemp : (pktPasses s p k).isEmpty = false := by
    cases e : pktPasses s p k with
    | nil => exact absurd e hne
    | cons a l => rfl
  have hsettle : ∀ lag, settle k (leaveEpoch k (modPkt k (fun y => { y with flowOk := true, lagFrom := lag }) s))
      = leaveEpoch k (modPkt k (fun y => { y with flowOk := true, lagFrom := lag }) s) := by
    intro lag
    have h : pktOf (modPkt k (fun y => { y with flowOk := true, lagFrom := lag }) s) k
        = some { x with flowOk := true, lagFrom := lag } := by
      rw [pktOf_modPkt, hx]
      rfl
    exact settle_unchecked (pktOf_leaveEpoch h) hc
  unfold checkFlow
  rw [hx]
  dsimp only
  rw [hp, hpend, hst, hemp, hf, htask, if_neg (by decide)]
  exact ⟨_, hsettle _⟩

/-- A packet whose flow part is confirmed, with the lookup its lag counts from. -/
def flowConfirmed (lag : Option Nat) (x : Pkt) : Pkt := { x with flowOk := true, lagFrom := lag }

/-- A packet's lone pass, once vouched for, confirms, and the packet with it. -/
theorem confirmPasses_lone {q : Pass} {x : Pkt} (hw : ∀ w ∈ waitings s p, w.sent = true) (hps : (pipe s p).passes = [q])
    (hst : q.st = .spec) (hv : vouched s p q = true) (hx : pktOf s q.pkt = some x) (hp : x.pipe = p) (hc : x.check = none)
    (hf : x.flowOk = false) (htask : x.task = false) (hy : ∀ y ∈ (pipe s p).yoyo, y.pkt ≠ q.pkt) :
    ∃ lag, confirmPasses p s = syncSpec p (leaveEpoch q.pkt (modPkt q.pkt (flowConfirmed lag)
      (modPipe p (fun y => { y with passes := [{ q with st := .confirmed }] }) s))) := by
  have hof : passOf s p q.pkt q.no = some q := by
    unfold passOf
    rw [hps]
    simp
  have hfollow : mayFollow s p q = true := by
    unfold mayFollow pktPasses
    rw [hps]
    simp
  have hmod : modPass p q.pkt q.no (fun y => { y with st := .confirmed }) s
      = modPipe p (fun y => { y with passes := [{ q with st := .confirmed }] }) s := by
    unfold modPass
    refine modPipe_congr ?_
    rw [hps]
    simp
  have hown : pktPasses (modPipe p (fun y => { y with passes := [{ q with st := .confirmed }] }) s) p q.pkt
      = [{ q with st := .confirmed }] := by
    unfold pktPasses
    rw [pipe_modPipe]
    simp
  obtain ⟨lag, he⟩ := checkFlow_confirms (s := modPipe p (fun y => { y with passes := [{ q with st := .confirmed }] }) s)
    (by rw [pktOf_modPipe]; exact hx) hp hc hf htask (by rw [pipe_modPipe]; exact hy) (by rw [hown]; exact List.cons_ne_nil _ _)
    (by rw [hown]; simp)
  refine ⟨lag, ?_⟩
  unfold confirmPasses
  rw [hps, List.map_cons, List.map_nil, each_cons, each_nil, hof]
  dsimp only
  rw [hst, hv, hfollow, if_pos (by rfl), hmod, he]
  refine pokeWaits_sent ?_
  rw [waitings_syncSpec, waitings_congr ((leaveEpoch_only q.pkt _).flow rfl)]
  exact hw

theorem horizonStamp_confirms {v : Nat} {q : Pass} {x : Pkt} (ht : takeChan sl p s = some (.stamp v, u))
    (hw : ∀ w ∈ waitings u p, w.sent = true) (hps : (pipe u p).passes = [q]) (hst : q.st = .spec) (ho : q.owner = sl)
    (hv : wrapGe 48 v (q.lookup + 4) = true) (hx : pktOf u q.pkt = some x) (hp : x.pipe = p) (hc : x.check = none)
    (hf : x.flowOk = false) (htask : x.task = false) (hy : ∀ y ∈ (pipe u p).yoyo, y.pkt ≠ q.pkt) :
    ∃ y, (pipe (horizonStamp sl p s) p).passes = [{ q with st := .confirmed }] ∧ pktOf (horizonStamp sl p s) q.pkt = some y
      ∧ y.flowOk = true ∧ mget 0 (pipe (horizonStamp sl p s) p).horizon sl = v := by
  have hvouch : vouched (modPipe p (stamped sl v u.now) u) p q = true := by
    unfold vouched
    rw [pipe_modPipe, ho]
    unfold stamped
    dsimp only
    rw [mget_mset_same, hv, Bool.or_true]
  obtain ⟨lag, he⟩ := confirmPasses_lone (s := modPipe p (stamped sl v u.now) u) hw (by rw [pipe_modPipe]; exact hps) hst hvouch
    (by rw [pktOf_modPipe]; exact hx) hp hc hf htask (by rw [pipe_modPipe]; exact hy)
  have hpk : pktOf (modPkt q.pkt (flowConfirmed lag) (modPipe p (fun y => { y with passes := [{ q with st := .confirmed }] })
      (modPipe p (stamped sl v u.now) u))) q.pkt = some (flowConfirmed lag x) := by
    rw [pktOf_modPkt, pktOf_modPipe, pktOf_modPipe, hx]
    rfl
  rw [horizonStamp_takes ht, he, pipe_syncSpec, pipe_congr ((leaveEpoch_only q.pkt _).pipes rfl), pipe_modPkt, pipe_modPipe,
    pipe_modPipe]
  exact ⟨_, rfl, pktOf_leaveEpoch hpk, rfl, mget_mset_same ..⟩

/-! ### Notices and time-outs -/

/-- Where no copy waits for a buffer, none is served. -/
theorem serveAll_idle (h : s.buf.copies = []) (l : List Nat) : each l serveAll s = s := by
  refine each_inv serveAll (fun t => t = s) l s (fun n _ t ht => ?_) rfl
  subst ht
  unfold serveAll
  rw [h]
  rfl

theorem confirmNotice_unconfirmed {k : Nat} {x : Pkt} (hx : pktOf s k = some x) (hf : x.flowOk = false) : confirmNotice k s = s := by
  unfold confirmNotice
  rw [hx]
  dsimp only
  rw [hf, if_pos (by rfl)]

theorem confirmNotice_marks {k : Nat} {x : Pkt} (hx : pktOf s k = some x) (hf : x.flowOk = true) (hn : x.noticed = false)
    (hc : x.copy = false) : ∃ t,
    confirmNotice k s = noteDepths k (modPkt k (fun y => { y with noticed := true, noticeAt := t.now }) t)
      ∧ t.pkts = s.pkts ∧ t.buf = s.buf ∧ t.now = s.now := by
  unfold confirmNotice
  rw [hx]
  dsimp only
  rw [hf, hn, hc, if_neg (by decide)]
  exact ⟨_, rfl, (apply_ite State.pkts _ _ _).trans (ite_self _), (apply_ite State.buf _ _ _).trans (ite_self _),
    (apply_ite State.now _ _ _).trans (ite_self _)⟩

theorem confirmNotice_eligible {k : Nat} {x : Pkt} (hx : pktOf s k = some x) (hf : x.flowOk = true) (hn : x.noticed = false)
    (hc : x.copy = false) (hb : s.buf.copies = []) (l : List Nat) :
    pktOf (each l serveAll (confirmNotice k s)) k = some { x with noticed := true, noticeAt := s.now } := by
  obtain ⟨t, he, hp, hbuf, hnow⟩ := confirmNotice_marks hx hf hn hc
  have hD : Only 16777216 _ (noteDepths k (modPkt k (fun y => { y with noticed := true, noticeAt := t.now }) t)) :=
    noteDepths_keeps (Only.allows 16777216 _) rfl k _ (Only.refl _ _)
  rw [he, serveAll_idle, pktOf_congr (hD.pkts rfl), pktOf_modPkt, pktOf_congr hp, hx, hnow]
  · rfl
  · rw [hD.buf rfl]
    exact (congrArg Buf.copies hbuf).trans hb

theorem specTimeout_squashes {q : Pass} (hu : confirmPasses p s = u)
    (hf : (pipe u p).passes.find? (fun q => decide (q.st = .spec) && !q.auth && wrapGe 48 (ctime u) (q.lookup + 3200)) = some q) :
    specTimeout p s = confirmPasses p (squashChain p q.pkt q.no 2 u) := by
  unfold specTimeout
  rw [hu]
  dsimp only
  rw [hf]

theorem specTimeout_none (hu : confirmPasses p s = u)
    (hn : ∀ q ∈ (pipe u p).passes, q.st = .spec → q.auth = true ∨ wrapGe 48 (ctime u) (q.lookup + 3200) = false) :
    specTimeout p s = u := by
  have hf : (pipe u p).passes.find? (fun q => decide (q.st = .spec) && !q.auth && wrapGe 48 (ctime u) (q.lookup + 3200)) = none := by
    refine List.find?_eq_none.mpr fun q hq e => ?_
    simp only [Bool.and_eq_true, decide_eq_true_eq, Bool.not_eq_true'] at e
    obtain ⟨⟨hst, hauth⟩, hlate⟩ := e
    rcases hn q hq hst with h | h
    · rw [hauth] at h
      exact Bool.false_ne_true h
    · rw [h] at hlate
      exact Bool.false_ne_true hlate
  unfold specTimeout
  rw [hu]
  dsimp only
  rw [hf]

theorem unstableExpiry_due {r : Nat} {w : Unstable} (hw : unstableOf s p r = some w)
    (hd : w.lastInv + cfg1 s (.fleSpecCfg p) 19 0 * 1000000 ≤ s.now) :
    unstableExpiry p r s = modPipe p (fun x => { x with unstable := x.unstable.filter fun y => y.record ≠ r }) s := by
  unfold unstableExpiry
  rw [hw]
  exact if_pos hd

theorem unstableExpiry_early {r : Nat} {w : Unstable} (hw : unstableOf s p r = some w)
    (hd : s.now < w.lastInv + cfg1 s (.fleSpecCfg p) 19 0 * 1000000) : unstableExpiry p r s = s := by
  unfold unstableExpiry
  rw [hw]
  exact if_neg (Nat.not_le.mpr hd)

theorem stallExpiry_raises (hp : hasPipe s.part p = true) (hs : hasSlice s.part sl = true) (ho : (slice s sl).servesOwn = true)
    (hb : bit (pipe s p).stalled sl = false)
    (hd : mget 0 (pipe s p).advanced sl + Nat.max 100 (cfg s (.fleHorizonCfg (dieOfPipe p)) 11 0) * 1000 ≤ s.now) :
    stallExpiry p sl s
      = raise (fleSrc sl 5) evHorizonStall p 0 0 0 (modPipe p (fun y => { y with stalled := setFld y.stalled sl sl 1 }) s) := by
  unfold stallExpiry
  dsimp only
  rw [hp, hs, ho, hb, decide_eq_true hd]
  exact if_pos rfl

theorem stallExpiry_once (hb : bit (pipe s p).stalled sl = true) : stallExpiry p sl s = s := by
  unfold stallExpiry
  dsimp only
  rw [hb, Bool.not_true, Bool.and_false, Bool.false_and]
  exact if_neg Bool.false_ne_true

/-! ### REPLAY -/

/-- The element put in the place of those it agrees with is found. -/
theorem find?_replaced {α : Type} {f : α → Bool} {a : α} (ha : f a = true) (l : List α) :
    (l.filter (fun x => !f x) ++ [a]).find? f = some a := by
  have hn : (l.filter fun x => !f x).find? f = none :=
    List.find?_eq_none.mpr fun x hx e => by simp [e] at hx
  rw [List.find?_append, hn, List.find?_cons, ha]
  rfl

/-- A pass that waits for its owner. -/
def waitingPass (q : Pass) : Pass := { q with st := .waiting, record := none, auth := false, covered := false }

/-- The entry of a key's request before it goes to the owner. -/
def newWaiting (p k no : Nat) (x : Pkt) (q : Pass) : Waiting :=
  { key := q.snap.key, prof := q.snap.prof, slice := 0, req := reqOf p x q none, who := [(k, no)], sent := false, late := [] }

theorem passOf_modPass {k no : Nat} {f : Pass → Pass} {q : Pass} (hq : passOf s p k no = some q)
    (hf : ∀ x, (f x).pkt = x.pkt ∧ (f x).no = x.no) : passOf (modPass p k no f s) p k no = some (f q) := by
  unfold passOf modPass at *
  rw [pipe_modPipe]
  dsimp only
  revert hq
  generalize (pipe s p).passes = l
  induction l with
  | nil => exact fun h => absurd h (by simp)
  | cons a r ih =>
    intro h
    rw [List.map_cons, List.find?_cons]
    rw [List.find?_cons] at h
    by_cases c : a.pkt = k ∧ a.no = no
    · rw [decide_eq_true c] at h
      rw [if_pos c, (hf a).1, (hf a).2, decide_eq_true c, Option.some.inj h]
    · rw [decide_eq_false c] at h
      rw [if_neg c, decide_eq_false c]
      exact ih h

/-- The first pass of a key asks the owner. -/
theorem sendReq_asks {key : List Byte} {prof k no : Nat} {w : Waiting} {x : Pkt} {q : Pass}
    (hw : (waitings s p).find? (fun w => w.key = key ∧ w.prof = prof) = some w) (hwho : w.who = [(k, no)]) (hlate : w.late = [])
    (hx : pktOf s k = some x) (hq : passOf s p k no = some q) : sendReq p key prof none s
      = modSlice (halfOwner s (homeHalf s q.snap.h)) (fun y => { y with reqs := y.reqs ++ [reqOf p x q none] })
        (modWait p key prof (fun v => { v with
          sent := true, slice := halfOwner s (homeHalf s q.snap.h), req := reqOf p x q none }) s) := by
  unfold sendReq
  rw [hw]
  dsimp only
  rw [hwho]
  dsimp only
  rw [hx, hq]
  dsimp only
  rw [hlate]
  rfl

/-- The half of a hash has the same owner where the slices and the part are the same. -/
theorem homeOwner_congr (hs : ∀ n, slice u n = slice s n) (hp : u.part = s.part) (h : Nat) :
    halfOwner u (homeHalf u h) = halfOwner s (homeHalf s h) := by
  unfold halfOwner homeHalf
  rw [hs, hp]

/-- A pass joins again a key that nobody waits for. -/
def joined (p k no : Nat) (x : Pkt) (q : Pass) (s : State) : State :=
  modWaitings p (· ++ [newWaiting p k no x q]) (modPass p k no waitingPass s)

@[simp] theorem slice_joined (p k no : Nat) (x : Pkt) (q : Pass) (s : State) (n : Nat) :
    slice (joined p k no x q s) n = slice s n := rfl

theorem waitings_joined (p k no : Nat) (x : Pkt) (q : Pass) (s : State) :
    waitings (joined p k no x q s) p = waitings s p ++ [newWaiting p k no x q] := by
  unfold joined modPass
  rw [waitings_modWaitings, waitings_modPipe]

theorem passOf_joined {k no : Nat} {q : Pass} (x : Pkt) (hq : passOf s p k no = some q) :
    passOf (joined p k no x q s) p k no = some (waitingPass q) :=
  passOf_modPass hq fun _ => ⟨rfl, rfl⟩

theorem joinWait_joins {k no : Nat} {x : Pkt} {q : Pass} (hx : pktOf s k = some x) (hq : passOf s p k no = some q)
    (hw : (waitings s p).find? (fun w => w.key = q.snap.key ∧ w.prof = q.snap.prof) = none) :
    joinWait p k no none true s = sendReq p q.snap.key q.snap.prof none (joined p k no x q s) := by
  unfold joinWait
  rw [hx, hq]
  dsimp only
  unfold modPass
  rw [waitings_modPipe, hw]
  rfl

/-- A pass that joins again a key that nobody waits for waits, and its request stands last in the owner's queue. -/
theorem joinWait_again {k no : Nat} {x : Pkt} {q : Pass} (hx : pktOf s k = some x) (hq : passOf s p k no = some q)
    (hw : ∀ w ∈ waitings s p, ¬(w.key = q.snap.key ∧ w.prof = q.snap.prof)) :
    passOf (joinWait p k no none true s) p k no = some (waitingPass q)
      ∧ (slice (joinWait p k no none true s) (halfOwner s (homeHalf s q.snap.h))).reqs
        = (slice s (halfOwner s (homeHalf s q.snap.h))).reqs ++ [reqOf p x (waitingPass q) none] := by
  have hnone : (waitings s p).find? (fun w => w.key = q.snap.key ∧ w.prof = q.snap.prof) = none :=
    List.find?_eq_none.mpr fun w h e => hw w h (of_decide_eq_true e)
  have hfirst : (waitings (joined p k no x q s) p).find? (fun w => w.key = q.snap.key ∧ w.prof = q.snap.prof)
      = some (newWaiting p k no x q) := by
    rw [waitings_joined, List.find?_append, hnone]
    simp [newWaiting]
  have hown : halfOwner (joined p k no x q s) (homeHalf (joined p k no x q s) (waitingPass q).snap.h)
      = halfOwner s (homeHalf s q.snap.h) := homeOwner_congr (fun n => slice_joined ..) rfl _
  have hpass := passOf_joined x hq
  have hpk : pktOf (joined p k no x q s) k = some x := hx
  rw [joinWait_joins hx hq hnone, sendReq_asks hfirst rfl rfl hpk hpass, hown]
  refine ⟨hpass, ?_⟩
  unfold modWait
  rw [slice_modSlice, slice_modWaitings, slice_joined]

/-- A pass looks its source up again as it replays. -/
def lookedUpAgain (s : State) (p : Nat) (x : Pkt) (sn : Snap) : Snap :=
  if sn.srcHit = 0 then sn else { sn with srcHit := (sourceLookup s (dieOfPipe p) sn.fid sn.srcMac (ingressTarget s x.port)).1 }

theorem lookedUpAgain_keeps (s : State) (p : Nat) (x : Pkt) (sn : Snap) : (lookedUpAgain s p x sn).key = sn.key
    ∧ (lookedUpAgain s p x sn).prof = sn.prof ∧ (lookedUpAgain s p x sn).h = sn.h := by
  unfold lookedUpAgain
  split
  · exact ⟨rfl, rfl, rfl⟩
  · exact ⟨rfl, rfl, rfl⟩

/-- A replayed pass, before it asks. -/
def replayedPass (s : State) (p : Nat) (x : Pkt) (q : Pass) : Pass :=
  { q with snap := lookedUpAgain s p x q.snap, lookup := ctime s, st := .waiting }

/-- A pass takes the last place of its pipeline. -/
def putLast (p : Nat) (q : Pass) (s : State) : State :=
  modPipe p (fun z => { z with passes := (z.passes.filter fun w => !(decide (w.pkt = q.pkt) && decide (w.no = q.no))) ++ [q] }) s

theorem passOf_putLast (p : Nat) (q : Pass) (s : State) : passOf (putLast p q s) p q.pkt q.no = some q := by
  unfold passOf putLast
  rw [pipe_modPipe]
  simp only [Bool.decide_and]
  exact find?_replaced (by simp) _

theorem replay_joins {y : YoYo} {x : Pkt} {q : Pass} (hy : yoyoDue s p true = some y) (hx : pktOf s y.pkt = some x)
    (hq : passOf s p y.pkt (y.pass.getD 0) = some q) (hd : domWorks s (domPipe p) = true) (hw : waitCount s p < 4096)
    (hc : q.cause ≠ 3) (hs : q.snap.skip = false) : replay p s
      = joinWait p y.pkt q.no none true (putLast p (replayedPass (yoyoTake p y s) p x q) (yoyoTake p y s)) := by
  have hskip : ¬q.snap.skip = true := Bool.eq_false_iff.mp hs
  unfold replay
  rw [hy]
  dsimp only
  rw [hx, hq]
  dsimp only
  rw [hd, decide_eq_true hw, if_neg (by decide), if_neg hskip, if_neg hc]
  rfl

theorem replay_waits {y : YoYo} {x : Pkt} {q : Pass} (hy : yoyoDue s p true = some y) (hx : pktOf s y.pkt = some x)
    (hq : passOf s p y.pkt (y.pass.getD 0) = some q) (hd : domWorks s (domPipe p) = true) (hw : waitCount s p < 4096)
    (hkey : ∀ w ∈ waitings s p, ¬(w.key = q.snap.key ∧ w.prof = q.snap.prof)) (hc : q.cause ≠ 3) (hs : q.snap.skip = false) :
    ∃ z r, passOf (replay p s) p q.pkt q.no = some z ∧ z.st = .waiting ∧ z.lookup = ctime s
      ∧ (slice (replay p s) (halfOwner s (homeHalf s q.snap.h))).reqs = (slice s (halfOwner s (homeHalf s q.snap.h))).reqs ++ [r]
      ∧ r.key = q.snap.key ∧ r.prof = q.snap.prof ∧ r.pipe = p := by
  obtain ⟨hkeys, hprof, hhash⟩ := lookedUpAgain_keeps (yoyoTake p y s) p x q.snap
  have hpkt : q.pkt = y.pkt := by
    have h := List.find?_some hq
    rw [decide_eq_true_eq] at h
    exact h.1
  have hof := passOf_putLast p (replayedPass (yoyoTake p y s) p x q) (yoyoTake p y s)
  rw [replay_joins hy hx hq hd hw hc hs, ← hpkt]
  have hlook : (replayedPass (yoyoTake p y s) p x q).lookup = ctime s := rfl
  have hsnap : (replayedPass (yoyoTake p y s) p x q).snap = lookedUpAgain (yoyoTake p y s) p x q.snap := rfl
  have hid : (replayedPass (yoyoTake p y s) p x q).pkt = q.pkt ∧ (replayedPass (yoyoTake p y s) p x q).no = q.no := ⟨rfl, rfl⟩
  generalize replayedPass (yoyoTake p y s) p x q = n at hof hlook hsnap hid
  rw [hid.1, hid.2] at hof
  obtain ⟨hz, hr⟩ := joinWait_again (s := putLast p n (yoyoTake p y s)) (x := x) (by rw [hpkt]; exact hx) hof
    (by rw [hsnap, hkeys, hprof]; exact hkey)
  rw [hsnap, hhash, homeOwner_congr (u := putLast p n (yoyoTake p y s)) (s := s) (fun _ => rfl) rfl] at hr
  refine ⟨_, _, hz, rfl, hlook, hr, ?_, ?_, rfl⟩
  · exact (congrArg Snap.key hsnap).trans hkeys
  · exact (congrArg Snap.prof hsnap).trans hprof

/-- Settles O31: each message of speculation by the branch of its row's operation that its clause's conditions choose; the
confirming that follows most of them is idle but for the passes a clause names. -/
theorem speculationMessages : Obligations.SpeculationMessages := by
  unfold Obligations.SpeculationMessages
  refine ⟨?_, ?_, ?_, ?_, ?_, ?_, ?_, ?_, ?_, ?_, ?_, ?_, ?_, ?_, ?_, ?_, ?_, ?_, ?_, ?_, ?_, ?_⟩
  · exact fun p r x w s hx hw hd => ⟨_, rfl, deltaSend_sends hx hw hd⟩
  · exact fun p r x w s hx hw hd => congrArg Host.Outcome.next (deltaSend_early hx hw hd)
  · exact fun sl p r rest s hc hq => ⟨_, rfl, flowPull_answered hc hq⟩
  · exact fun sl p r rest q s hc hq hr hst => congrArg Host.Outcome.next (flowPull_waits hc hq hr hst)
  · intro sl p key prof rec ver fl act bg dir w u s ht hw hwho hlate hsent hq hk hways
    obtain ⟨n, hn⟩ := answer_entry ht hw hwho hlate hsent hq hk hways
    exact ⟨_, n, rfl, hn⟩
  · exact fun sl p key prof rec ver fl act bg dir w u s ht hw => congrArg Host.Outcome.next (answer_retry ht hw)
  · exact fun sl p r v tm g i u s ht hw hq => ⟨_, rfl, invalidation_acknowledges ht hw hq⟩
  · exact fun sl p r v tm q u s ht hn hf => congrArg Host.Outcome.next (invalidation_squashes ht hn hf)
  · exact fun sl s hon hc hd => ⟨_, rfl, stampForm_sends hon hc hd⟩
  · exact fun sl s hc => congrArg Host.Outcome.next (stampForm_between hc)
  · exact fun sl p v u s ht hw hq => ⟨_, rfl, horizonStamp_quiet ht hw hq⟩
  · intro sl p v q x u s ht hw hps hst ho hv hx hp hc hf htask hy
    obtain ⟨y, hpass, hpk, hok, hh⟩ := horizonStamp_confirms ht hw hps hst ho hv hx hp hc hf htask hy
    exact ⟨_, y, rfl, hpass, hpk, hok, hh⟩
  · exact fun sl p hf u s ht => congrArg Host.Outcome.next (finalStamp_covers ht)
  · exact fun k x s hx hf hn hc hb => ⟨_, rfl, confirmNotice_eligible hx hf hn hc hb _⟩
  · exact fun k x s hx hf hb => congrArg Host.Outcome.next ((congrArg _ (confirmNotice_unconfirmed hx hf)).trans (serveAll_idle hb _))
  · exact fun p q u s hu hf => congrArg Host.Outcome.next (specTimeout_squashes hu hf)
  · exact fun p u s hu hn => congrArg Host.Outcome.next (specTimeout_none hu hn)
  · intro p y x q s hy hx hq hd hw hkey hc hs
    obtain ⟨z, r, h⟩ := replay_waits hy hx hq hd hw hkey hc hs
    exact ⟨_, z, r, rfl, h⟩
  · exact fun p r w s hw hd => congrArg Host.Outcome.next (unstableExpiry_due hw hd)
  · exact fun p r w s hw hd => congrArg Host.Outcome.next (unstableExpiry_early hw hd)
  · exact fun p sl s hp hs ho hb hd => congrArg Host.Outcome.next (stallExpiry_raises hp hs ho hb hd)
  · exact fun p sl s hb => congrArg Host.Outcome.next (stallExpiry_once hb)

end Sys2Proof.Proofs
end
